-- ==== Sys2Proof/Word.lean ====
section
/-! DEFINITION. The words the model is written in: bytes, the 64-byte commands and descriptors of the unit issue ports,
the widths the spec gives its numbers (R4, R10), and the names of element formats, rounding modes and exact values. Only the plainest arithmetic stands here. -/

namespace Sys2Proof

/-- One byte. -/
abbrev Byte := BitVec 8

/-- A 64-byte unit command, tensor descriptor or tile-table entry: 512 bits, bit 0 least significant (R4). -/
abbrev Cmd := BitVec 512

/-- A 128-byte stream entry (R203). -/
abbrev Entry := BitVec 1024

/-- A 32-byte Rigger control word (R244). -/
abbrev Ctl := BitVec 256

/-- The 514 message symbols of a Rigger codeword (R238): 5,140 bits, bit 0 least significant. -/
abbrev Codeword := BitVec 5140

/-- A timebase value or a 64-bit count (R10). -/
abbrev U64 := BitVec 64

/-- The flag byte of R47. -/
abbrev FlagByte := BitVec 8

/-- The element formats of R26. -/
inductive Fmt where
  | fp32 | bf16 | fp16 | e5m2 | e4m3 | e3m2 | e2m3 | e2m1 | int8 | int32
  deriving DecidableEq, Repr

/-- The rounding modes of R36; SR carries the 16 random bits of R37. -/
inductive Rnd where
  | rne | rtz
  | sr (r : Nat)
  deriving DecidableEq, Repr

/-- A value read from a code (R27, R28): a NaN with its sign and its mantissa left-aligned to 23 bits, an infinity, or the exact
number (−1)^neg × m × 2^e. -/
inductive Val where
  | nan (signalling : Bool) (neg : Bool) (pay : Nat)
  | inf (neg : Bool)
  | fin (neg : Bool) (m : Nat) (e : Int)
  deriving DecidableEq, Repr

end Sys2Proof
end

