-- ==== Sys2Proof/Syntax.lean ====
section
/-! DEFINITION. The commands of the block: one constructor of `Instr` per row of spec/opcode_table.json, in the table's order,
with the row's operands. Who sends a command stands in its first operand: the issuing control core (`Who`), the requester of a
dictionary service (`Req`), or the unit, stream, port or Crew it names. -/

namespace Sys2Proof

/-- The control core that makes an issue store or ends its program: its cluster, its logical number there (R19, R415), and the
value its consumed-count word holds at that moment (R234). A core that runs no program makes no such store. -/
structure Who where
  cluster : Fin 4
  core : Fin 8
  consumed : Nat
  deriving DecidableEq, Repr

/-- The requester of a dictionary service (R454): a host function (0 is PF0, n + 1 the VF of partition n) or one of the eight
Evolu sessions. -/
inductive Req where
  | fn (f : Fin 9)
  | sess (i : Fin 8)
  deriving DecidableEq, Repr

/-- What a physical lane that computes wrongly does to one result of a pass (R66, R71): the row, the logical lane (0 to 511,
512 SUM, 513 MAG) and the code it delivers in place of the right one. A Course without a fault has none. -/
structure LaneFault where
  row : Nat
  lane : Nat
  value : BitVec 64
  deriving DecidableEq, Repr

/-- The far end of the fibre that a lane's light comes through (R236): the peer's bank and physical lane. -/
structure Fibre where
  bank : Fin 8
  lane : Fin 9
  deriving DecidableEq, Repr

/-- The two ends of a lane's light: the physical lane it arrives on and the peer's lane it comes from. -/
structure LaneEnds where
  lane : Fin 9
  far : Fibre
  deriving DecidableEq, Repr

/-- A control word and the lane it arrives on. -/
structure LaneWord where
  ends : LaneEnds
  word : Ctl
  deriving DecidableEq, Repr

/-- A codeword at its receiver (R239): the number of its erroneous symbols, and its message symbols as they were sent. -/
structure SentCodeword where
  errs : Nat
  cw : Codeword
  deriving DecidableEq, Repr

/-- The sender of a SYNC packet (R268): its rank and the epoch the packet carries. -/
structure Sender where
  rank : Nat
  epoch : BitVec 32
  deriving DecidableEq, Repr

/-- What a DONE packet says (R289, log 23): the bytes that have landed, or, with `ends`, the length at which the sender ends its message. -/
structure DoneCount where
  landed : Nat
  ends : Bool
  deriving DecidableEq, Repr

/-- A place in an address space of a function (R179): `ps` is 0 without a PASID, else PASID + 1. -/
structure IoPlace where
  ps : Nat
  iova : Nat
  deriving DecidableEq, Repr

/-- Bytes of host memory that software has written since the last command that looked there: their address in host memory (that of a
page is the IOVA that translates to it, where the IOMMU lists nothing else; log 6) and the bytes. -/
structure HostWrite where
  addr : Nat
  bytes : List Byte
  deriving DecidableEq, Repr

/-- A service message of R376 without its OP, which the row names. -/
structure SvcMsg where
  mflags : Byte
  ref : BitVec 16
  index : BitVec 16
  sub : Byte
  offset : BitVec 32
  aux0 : BitVec 32
  aux1 : BitVec 32
  data : List Byte
  deriving DecidableEq, Repr

/-- The common head of a Finish packet (R345). -/
structure FinHead where
  epoch : BitVec 32
  stroke : BitVec 48
  attempt : Byte
  term : BitVec 32
  deriving DecidableEq, Repr

/-- The body of a VOTE packet (R345). -/
structure VoteBody where
  sender : Nat
  level : Nat
  verdict : Byte
  flags : FlagByte
  faultRank : Nat
  faultPort : Byte
  faultLevel : Byte
  reason : BitVec 16
  prog : BitVec 64
  rule : BitVec 64
  upd : BitVec 64
  user : BitVec 64
  entries : List (BitVec 128)
  deriving DecidableEq, Repr

/-- The body of a DECIDE or RESOLVE packet (R345). -/
structure DecBody where
  decision : Byte
  cause : Byte
  included : Nat
  incl : BitVec 64
  upd : BitVec 64
  faultRank : Nat
  entries : List (BitVec 128)
  deriving DecidableEq, Repr

/-- What a sender sees of its own echo (R361, R362): no light at all, or the index of the first code group that differs, if any. -/
inductive Echo where
  | none
  | clean
  | differs (group : Nat)
  deriving DecidableEq, Repr

/-- A request at a base die beside plain reads and writes: an add of `v` in element format `fmt` (0 FP32, 1 BF16, 2 INT32, 3 INT64,
4 FIXED64; R148), or a read of an 8-byte word with or without the CONVERT attribute (R149). -/
inductive MemOp where
  | add (fmt : Nat) (v : BitVec 64)
  | read (convert : Bool)
  deriving DecidableEq, Repr

/-- A write of the host into a function's configuration space or BAR0: the body of the bootstrap capability (R196), the controls of the
standard's capabilities (R183), or a BAR2 size of 2^`log` GiB through Resizable BAR (R187). -/
inductive CfgWrite where
  | bootstrap (cap : BitVec 256)
  | controls (numVfs mps mrrs : Nat) (ats pasid msix fmask : Bool)
  | barSize (log : Nat)
  deriving DecidableEq, Repr

/-- A write of the host to vector `v`'s place in BAR0 (R187, R189): its MSI-X table entry, or the pending bit array. -/
inductive VecWrite where
  | entry (v : Fin 2048) (addr : BitVec 64) (data : BitVec 32) (masked : Bool)
  | pba (v : Fin 2048)
  deriving DecidableEq, Repr

/-- The vector lanes that one lane test covers (R14, R415): those of a Trowel, or the Cox lanes of a field. -/
inductive LaneUnit where
  | trowel (n : Fin 8)
  | cox (field : Fin 4)
  deriving DecidableEq, Repr

/-- What a control core does that no other row names: it takes a trap other than the ECALL of R233, loads `n` bytes at an address or, with
`code`, fetches an instruction there, or stores bytes (R230). -/
inductive CoreAct where
  | trap
  | load (code : Bool) (addr n : Nat)
  | store (addr : Nat) (bytes : List Byte)
  deriving DecidableEq, Repr

/-- A control core and what it does. -/
structure CoreEvent where
  core : Who
  act : CoreAct
  deriving DecidableEq, Repr

/-- The fate of a member of a Pointing test: the unit passes or fails (R415). -/
abbrev Pass := Bool

/-- The commands of the block, one constructor per row of the opcode table. -/
inductive Instr where
  /-- MM (R62): a core stores a matrix-product command at Course `n`'s issue port. -/
  | mm (w : Who) (n : Fin 8) (c : Cmd)
  /-- LOADW (R65): a core stores a weight-load command at Course `n`'s issue port. -/
  | loadw (w : Who) (n : Fin 8) (c : Cmd)
  /-- WEIGHT_LOAD_DONE (R55): the load wave in progress on Course `n` completes. -/
  | weightLoadDone (n : Fin 8)
  /-- PASS_END (R79): the pass in progress on Course `n` ends; `bad` is what faulty physical lanes did to its results. -/
  | passEnd (n : Fin 8) (bad : List LaneFault)
  /-- CHECK_VERDICT (R67): the ended pass of Course `n` is judged and released or handled under R71. -/
  | checkVerdict (n : Fin 8)
  /-- LANE_SUBSTITUTION (R72): the pending lane substitution of Course `n` is carried out; `ok` is the spare's pattern test. -/
  | laneSubstitution (n : Fin 8) (ok : Pass)
  /-- TILE_INTERLOCK_RELEASE (R90): a command waiting on tile `h` of Course `n` proceeds. -/
  | tileInterlockRelease (n : Fin 8) (h : Fin 64)
  /-- GUARD_STALL_RELEASE (R57): writes into Pallet `n` held against an MM's ranges proceed. -/
  | guardStallRelease (n : Fin 8)
  /-- CHECK_ENABLE (R73): a write of `v` to the check enable of Course `n`. -/
  | checkEnable (r : Req) (n : Fin 8) (v : Byte)
  /-- STICKY_FLAGS_CLEAR (R50): a write of `v` to the sticky byte of Course `n`, or of Trowel `n` when `trowel`. -/
  | stickyFlagsClear (r : Req) (trowel : Bool) (n : Fin 8) (v : Byte)
  /-- FIRST_OFFENDER_CLEAR (R94): a write of the record `v` to 0x6100 + n:40. -/
  | firstOffenderClear (r : Req) (n : Fin 8) (v : BitVec 256)
  /-- VOP (R104). -/
  | vop (w : Who) (n : Fin 8) (c : Cmd)
  /-- VRED (R107). -/
  | vred (w : Who) (n : Fin 8) (c : Cmd)
  /-- VCVT (R109). -/
  | vcvt (w : Who) (n : Fin 8) (c : Cmd)
  /-- TROWEL_RETIRE (R111): the oldest command of Trowel `n` retires. -/
  | trowelRetire (n : Fin 8)
  /-- PALLET_BANK_SUBSTITUTION (R115): Pointing copies logical bank `b` of Pallet `n` to a spare and switches the map. -/
  | palletBankSubstitution (n : Fin 8) (b : Fin 128)
  /-- DESCRIPTOR_STORE (R119): a core stores `d` into descriptor slot `slot` of Course `n`. -/
  | descriptorStore (w : Who) (n : Fin 8) (slot : Nat) (d : Cmd)
  /-- TILE_TABLE_STORE (R128): a core stores `d` into tile-table entry `h` of Course `n`. -/
  | tileTableStore (w : Who) (n : Fin 8) (h : Fin 64) (d : Cmd)
  /-- COPY (R162): a core stores a COPY with ADD clear at Hod `h`'s issue port. -/
  | copy (w : Who) (h : Fin 16) (c : Cmd)
  /-- COPY_ADD (R168): a core stores a COPY with ADD set at Hod `h`'s issue port. -/
  | copyAdd (w : Who) (h : Fin 16) (c : Cmd)
  /-- GATHER (R134). -/
  | gather (w : Who) (h : Fin 16) (c : Cmd)
  /-- SCATTER (R135). -/
  | scatter (w : Who) (h : Fin 16) (c : Cmd)
  /-- ADDSCATTER (R170). -/
  | addscatter (w : Who) (h : Fin 16) (c : Cmd)
  /-- HOD_RETIRE (R173): the oldest command of Hod `h` retires. -/
  | hodRetire (h : Fin 16)
  /-- HOD_QUEUE_WAIT (R176): an issue store that waits for room at Hod `h` proceeds. -/
  | hodQueueWait (h : Fin 16)
  /-- HOD_PART_FAULT (R177): a part fault interrupts the oldest command of Hod `h`. -/
  | hodPartFault (h : Fin 16)
  /-- HOST_REGION_WRITE (R178): function `f` writes entry `i` of its host region table. -/
  | hostRegionWrite (r : Req) (i : Fin 4096) (d : BitVec 256)
  /-- ATS_INVALIDATION (R179): the host invalidates the page at `io` of an address space of function `f`; `page` is the page of host
  memory the IOMMU translates it to from then on, or none where a request to it fails. -/
  | atsInvalidation (f : Fin 9) (io : IoPlace) (page : Option Nat)
  /-- MEMORY_SIDE_ADD (R148, R149): a base die serves an add, or a read that may ask for conversion, at address `a` of partition `p`. -/
  | memorySideAdd (p : Fin 8) (a : Nat) (op : MemOp)
  /-- REGULATOR_REQUEST (R150): a request of `n` charged bytes of partition `p`, or of the device or PF0, reaches stack `s`. -/
  | regulatorRequest (p : Option (Fin 8)) (s : Fin 20) (n : Nat)
  /-- PATROL_SCRUB (R154): patrol scrub reads the sector at `off` of pseudo-channel `pc` of stack `s` and finds `errs`
  erroneous symbols. -/
  | patrolScrub (s : Fin 20) (pc : Fin 64) (off : Nat) (errs : Nat)
  /-- ROW_REPAIR (R155): Pointing repairs row (`bank`, `row`) of pseudo-channel `pc` of stack `s`. -/
  | rowRepair (s : Fin 20) (pc : Fin 64) (bank : Fin 48) (row : Nat)
  /-- PSEUDO_CHANNEL_REMAP (R156): Pointing exchanges pseudo-channel `pc` of stack `s`. -/
  | pseudoChannelRemap (s : Fin 20) (pc : Fin 64)
  /-- RETIRE_REQUEST (R157): a write of `v` to 0x5100 + s:03. -/
  | retireRequest (r : Req) (s : Fin 20) (v : Byte)
  /-- MARGINING_STACK (R158): a write of `v` to 0x5300:01. -/
  | marginingStack (r : Req) (v : Byte)
  /-- MARGINING_START (R158): a write of `v` to 0x5300:03. -/
  | marginingStart (r : Req) (v : Byte)
  /-- MARGINING_DONE (R158): the sweep completes; `map` lists its error counts in map order. -/
  | marginingDone (map : List (BitVec 16))
  /-- INVALID_SCRUB (R158): Pointing ends the margining quiesce. -/
  | invalidScrub
  /-- LINK_TRAINING (R182): the host port trains at 2^`rate` × 2.5 GT/s steps (`rate` 0 to 5) on `lanes` lane pairs that can
  train, with or without FLIT mode and with `retimers` retimers seen. -/
  | linkTraining (rate : Fin 6) (lanes : Nat) (flit : Bool) (retimers : Nat)
  /-- VF_FLR (R185): Function Level Reset of the VF of partition `p`. -/
  | vfFlr (p : Fin 8)
  /-- PF0_FLR (R185). -/
  | pf0Flr
  /-- HOT_RESET (R185): fundamental reset at the slot, Hot Reset or link down. -/
  | hotReset
  /-- STATUS_PAGE_UPDATE (R188): the status page of function `f` is rewritten. -/
  | statusPageUpdate (f : Fin 9)
  /-- STATUS_PAGE_WRITE (R189): a host write to the status page of function `f`. -/
  | statusPageWrite (f : Fin 9)
  /-- BAR2_READ (R192): a host read of `len` bytes at offset `off` of function `f`'s window. -/
  | bar2Read (f : Fin 9) (off : Nat) (len : Nat)
  /-- BAR2_WRITE (R191): a host write at offset `off` of function `f`'s window. -/
  | bar2Write (f : Fin 9) (off : Nat) (data : List Byte) (poisoned : Bool)
  /-- MSIX_HOLD_EXPIRY (R194). -/
  | msixHoldExpiry (f : Fin 9) (v : Fin 2048)
  /-- MSIX_UNMASK (R189, R194): the host writes a vector's MSI-X table entry, unmasking it or not, or its pending bit. -/
  | msixUnmask (f : Fin 9) (w : VecWrite)
  /-- BOOTSTRAP_ENABLE_SET (R196, R229): the host writes function `f`'s configuration space: the bootstrap capability's body with ENABLE set
  or clear, or another control of it (log 39). -/
  | bootstrapEnableSet (f : Fin 9) (w : CfgWrite)
  /-- BOOTSTRAP_ENABLE_CLEAR (R229). -/
  | bootstrapEnableClear (f : Fin 9)
  /-- STREAM_POLL (R210): one poll round of stream `s` of function `f`; `hw` is what software has written to host memory. -/
  | streamPoll (f : Fin 9) (s : Fin 64) (hw : List HostWrite)
  /-- CRC_STUCK (R211). -/
  | crcStuck (f : Fin 9) (s : Fin 64)
  /-- JOURNAL_BURST_WRITE (R213): the open burst of the stream is written to both copies. -/
  | journalBurstWrite (f : Fin 9) (s : Fin 64)
  /-- ENTRY_ACCEPT (R213): the FLUSH reads of the oldest written burst of the stream have completed. -/
  | entryAccept (f : Fin 9) (s : Fin 64)
  /-- JOURNAL_WRITE_FAIL (R214): a write to copy A (`false`) or B (`true`) fails. -/
  | journalWriteFail (copyB : Bool)
  /-- JOURNAL_REBUILD_DONE (R214). -/
  | journalRebuildDone
  /-- RETIREMENT (R217): the next command of the stream retires. -/
  | retirement (f : Fin 9) (s : Fin 64)
  /-- NOP (R205): the stream's next entry, a NOP, starts. -/
  | nop (f : Fin 9) (s : Fin 64)
  /-- LAUNCH (R207): the stream's next entry, a LAUNCH, starts. -/
  | launch (f : Fin 9) (s : Fin 64)
  /-- HOST_COPY (R208): the stream's next entry, a COPY, is issued to its Hod. -/
  | hostCopy (f : Fin 9) (s : Fin 64)
  /-- HOST_ACCUMULATE_START (R225): the stream's next entry, a COPY that adds or writes an epoch-scoped region, starts. -/
  | hostAccumulateStart (f : Fin 9) (s : Fin 64)
  /-- FENCE_LOCAL (R222). -/
  | fenceLocal (f : Fin 9) (s : Fin 64)
  /-- FENCE_DEVICE (R222). -/
  | fenceDevice (f : Fin 9) (s : Fin 64)
  /-- FENCE_HOST (R222). -/
  | fenceHost (f : Fin 9) (s : Fin 64)
  /-- FENCE_CREW (R222): `arrived` lists the ranks known to have reached the matching fence. -/
  | fenceCrew (f : Fin 9) (s : Fin 64) (arrived : List Nat)
  /-- MARK (R209). -/
  | mark (f : Fin 9) (s : Fin 64)
  /-- DICT (R197). -/
  | dict (f : Fin 9) (s : Fin 64)
  /-- EXPORT (R353): the stream's next entry, an EXPORT, starts. -/
  | exportSlots (f : Fin 9) (s : Fin 64)
  /-- STREAM_ENABLE (R229): a control write of 1. -/
  | streamEnable (f : Fin 9) (s : Fin 64)
  /-- STREAM_DISABLE (R229): a control write of 2. -/
  | streamDisable (f : Fin 9) (s : Fin 64)
  /-- STREAM_RESUME (R229): a control write of 3. -/
  | streamResume (f : Fin 9) (s : Fin 64)
  /-- SIGNAL_EVENT (R223): a write of `e` to 0x6500:02 by function `f`. -/
  | signalEvent (f : Fin 9) (e : BitVec 16)
  /-- EVENT_WAIT_SATISFIED (R221): the stream's next entry waits on an event that has reached WAITCNT. -/
  | eventWaitSatisfied (f : Fin 9) (s : Fin 64)
  /-- ATTEMPT_START (R233): the next attempt of Crew `c`'s Stroke starts. -/
  | attemptStart (c : Fin 16)
  /-- CORE_ECALL (R233): the core executes ECALL with a7 = 0. -/
  | coreEcall (w : Who)
  /-- CORE_TRAP (R230, R233): the core takes a trap other than that ECALL, or makes a load or store of its own at an address (log 20). -/
  | coreTrap (e : CoreEvent)
  /-- LASER_SWITCH (R237): the power of laser input `i` has fallen by 3 dB to `uw` microwatts. -/
  | laserSwitch (i : Fin 12) (uw : Nat)
  /-- CODEWORD_RECEIVE (R238, R239): codeword `w` arrives on a lane of bank `b`. -/
  | codewordReceive (b : Fin 8) (pl : LaneEnds) (w : SentCodeword)
  /-- ALIGN (R240): an ALIGN control word arrives on port `p`, on a lane of its bank. -/
  | align (p : Fin 16) (w : LaneWord)
  /-- PACKET_RECEIVE (R246): a packet arrives on port `p`, its bytes as R241 lays them out without the padding. -/
  | packetReceive (p : Fin 16) (bytes : List Byte)
  /-- ACK (R248): a control word whose ACKSEQ and credits port `p` takes. -/
  | ack (p : Fin 16) (w : Ctl)
  /-- NAK (R248). -/
  | nak (p : Fin 16) (w : Ctl)
  /-- ACK_TIMER (R247): 1 µs or 2,048 slots after an acceptance. -/
  | ackTimer (p : Fin 16)
  /-- IDLE_TIMER (R247): 10 µs after the last IDLE of logical lane `lane` of port `p`. -/
  | idleTimer (p : Fin 16) (lane : Fin 4)
  /-- IDLE (R258): an IDLE arrives on logical lane `lane` of port `p`. -/
  | idle (p : Fin 16) (lane : Fin 4) (w : Ctl)
  /-- HOLDOVER (R261): the module has had no upstream for 50 ms. -/
  | holdover
  /-- REPLAY_TIMEOUT (R248). -/
  | replayTimeout (p : Fin 16)
  /-- LOCK_LOSS (R250). -/
  | lockLoss (p : Fin 16)
  /-- PORT_RETRAIN (R250). -/
  | portRetrain (p : Fin 16)
  /-- SPARE_PROPOSE (R252): a SPARE word of phase 1 arrives on bank `b`. -/
  | sparePropose (b : Fin 8) (w : Ctl)
  /-- SPARE_READY (R252): phase 2. -/
  | spareReady (b : Fin 8) (w : Ctl)
  /-- SPARE_SWITCH (R252): phase 3. -/
  | spareSwitch (b : Fin 8) (w : Ctl)
  /-- SPARE_DONE (R252): phase 4. -/
  | spareDone (b : Fin 8) (w : Ctl)
  /-- SPARE_ABORT (R252): phase 5. -/
  | spareAbort (b : Fin 8) (w : Ctl)
  /-- SPARE_TIMEOUT (R252): 10 ms without DONE. -/
  | spareTimeout (b : Fin 8)
  /-- CREW_RUN (R267): a write of 1 to 0x7200 + c:0D. -/
  | crewRun (r : Req) (c : Fin 16)
  /-- CREW_TEST (R267): a write of 2. -/
  | crewTest (r : Req) (c : Fin 16)
  /-- CREW_DISSOLVE (R267): a write of 3. -/
  | crewDissolve (r : Req) (c : Fin 16)
  /-- HELLO (R268): a HELLO of rank `rank` with its membership hash and epoch. -/
  | hello (c : Fin 16) (rank : Nat) (hash : BitVec 64) (epoch : BitVec 32)
  /-- HELLO_RESEND (R268). -/
  | helloResend (c : Fin 16)
  /-- HEARTBEAT (R269): the member has sent nothing to `peer` for 1 ms. -/
  | heartbeat (c : Fin 16) (peer : Nat)
  /-- MEMBER_LOST (R269): `peer` has been silent for the silence limit. -/
  | memberLost (c : Fin 16) (peer : Nat)
  /-- RECOVER (R269): a RECOVER packet of epoch `epoch` from rank `src`, with its cause code and the rank it reports lost. -/
  | recover (c : Fin 16) (src : Nat) (epoch : BitVec 32) (cause : Byte) (lost : BitVec 32)
  /-- ALLREDUCE (R278). -/
  | allreduce (w : Who) (c : Cmd)
  /-- REDUCESCATTER (R277). -/
  | reducescatter (w : Who) (c : Cmd)
  /-- ALLGATHER (R277). -/
  | allgather (w : Who) (c : Cmd)
  /-- BROADCAST (R274). -/
  | broadcast (w : Who) (c : Cmd)
  /-- REDUCE (R280). -/
  | reduce (w : Who) (c : Cmd)
  /-- ALLTOALL (R274). -/
  | alltoall (w : Who) (c : Cmd)
  /-- ALLTOALLV (R283). -/
  | alltoallv (w : Who) (c : Cmd)
  /-- BARRIER (R274). -/
  | barrier (w : Who) (c : Cmd)
  /-- BARRIER_SYNC (R293): a BARRIER packet for operation `op` and level `level` from `src`; `release` on its way down. -/
  | barrierSync (c : Fin 16) (src : Sender) (op : Nat) (level : Nat) (release : Bool)
  /-- COUNTS (R284): a COUNTS packet for operation `op` from `src`. -/
  | counts (c : Fin 16) (src : Sender) (op : Nat) (rows : Nat) (included : Nat)
  /-- READY (R292): a READY packet for operation `op` from `src`. -/
  | ready (c : Fin 16) (src : Sender) (op : Nat)
  /-- SEND (R289). -/
  | send (w : Who) (c : Cmd)
  /-- RECV (R289). -/
  | recv (w : Who) (c : Cmd)
  /-- CREDIT (R289): a CREDIT packet of stage tag `stage` from `src`. -/
  | credit (c : Fin 16) (src : Sender) (stage : BitVec 16) (cap : Nat)
  /-- DONE (R289): a DONE packet for message `msg` from `src`. -/
  | done (c : Fin 16) (src : Sender) (msg : BitVec 32) (n : DoneCount)
  /-- CREWOP_RETIRE (R292): operation `op` of the Crew retires. -/
  | crewopRetire (c : Fin 16) (op : Nat)
  /-- COLLECTIVE_REGION_WRITE (R271). -/
  | collectiveRegionWrite (r : Req) (i : Fin 4096) (d : BitVec 128)
  /-- SENDON_HANDLE_WRITE (R286): entry `i + 1`. -/
  | sendonHandleWrite (r : Req) (i : Fin 4095) (d : BitVec 128)
  /-- UPDATE (R310). -/
  | update (w : Who) (c : Cmd)
  /-- HOLD (R313). -/
  | hold (w : Who) (c : Cmd)
  /-- APPLY (R313). -/
  | apply (w : Who) (c : Cmd)
  /-- COX_FEED (R309): the Cox looks at what the feeding CREWOP has written for the command on layer `layer` of partition `p`. -/
  | coxFeed (p : Fin 8) (layer : Nat)
  /-- COX_SHARE_WINDOW (R314). -/
  | coxShareWindow (p : Fin 8)
  /-- CLEAR_DIRTY (R305). -/
  | clearDirty (r : Req) (layer : BitVec 32)
  /-- VOTE (R328). -/
  | vote (w : Who) (c : Cmd)
  /-- VOTE_PACKET (R330). -/
  | votePacket (c : Fin 16) (h : FinHead) (b : VoteBody)
  /-- ARRIVED (R338): from rank `rank` for reduction `red`. -/
  | arrived (c : Fin 16) (h : FinHead) (rank : Nat) (red : Nat)
  /-- STRAGGLER_DEADLINE (R338). -/
  | stragglerDeadline (c : Fin 16)
  /-- CUT (R338). -/
  | cut (c : Fin 16) (h : FinHead) (leader : Nat) (entries : List (BitVec 128))
  /-- LOG (R333). -/
  | log (c : Fin 16) (h : FinHead) (decision : Byte) (cause : Byte) (incl : BitVec 64)
  /-- LOGACK (R333). -/
  | logack (c : Fin 16) (h : FinHead) (decision : Byte) (cause : Byte) (incl : BitVec 64)
  /-- DECIDE (R333). -/
  | decide (c : Fin 16) (h : FinHead) (b : DecBody)
  /-- QUERY (R333): from rank `src`. -/
  | query (c : Fin 16) (h : FinHead) (src : Nat)
  /-- QUERY_TIMER (R333). -/
  | queryTimer (c : Fin 16)
  /-- RESOLVE (R494): from rank `src`. -/
  | resolve (c : Fin 16) (h : FinHead) (src : Nat) (b : DecBody)
  /-- BACKUP_TAKEOVER (R335). -/
  | backupTakeover (c : Fin 16)
  /-- REJOIN_COPY (R344): the replica's copy of one layer: its descriptor, parameter bytes, state bytes and state record. -/
  | rejoinCopy (c : Fin 16) (layer : Nat) (desc : BitVec 1024) (params : List Byte) (state : List Byte) (rec : BitVec 512)
  /-- LAYER_STATE_LOAD (R351): a write of the object 0x7200 + c:42. -/
  | layerStateLoad (r : Req) (c : Fin 16) (data : List Byte)
  /-- TRANSMIT (R360): Evolu sends the next burst once the interframe gap, the owed slots and the jitter have passed. -/
  | transmit
  /-- ECHO_CHECK (R361): the sender judges the burst it sent by its echo. -/
  | echoCheck (e : Echo)
  /-- BURST_TIMER (R357): a burst has lasted 10 µs. -/
  | burstTimer
  /-- MEDIUM_DOWN (R362): a burst of the module had no echo for the 16th time in a row. -/
  | mediumDown
  /-- MEDIUM_BUSY (R362): the medium has been busy without a break for 100 ms. -/
  | mediumBusy
  /-- FRAME_RECEIVE (R366): a frame arrives; `violation` when it held a code violation. -/
  | frameReceive (bytes : List Byte) (violation : Bool)
  /-- CLAIM (R367): the 100 ms claim timer of a module without an address. -/
  | claim
  /-- ASSIGN (R367). -/
  | assign (src : BitVec 6) (serial : BitVec 64) (nonce : BitVec 32) (addr : Byte)
  /-- ANNOUNCE (R367). -/
  | announce (src : BitVec 6) (serial : BitVec 64)
  /-- OPEN_REQ (R369): one segment of a partner's OPEN_REQ. -/
  | openReq (src : BitVec 6) (hid : BitVec 32) (index : BitVec 16) (count : BitVec 16) (seg : List Byte)
  /-- OPEN_FIN (R369): one segment of a partner's OPEN_FIN. -/
  | openFin (src : BitVec 6) (hid : BitVec 32) (index : BitVec 16) (count : BitVec 16) (seg : List Byte)
  /-- OPEN_FIN_TIMEOUT (R370). -/
  | openFinTimeout (hid : BitVec 32)
  /-- REQUEST (R375): the session's next request in TSEQ order is executed, or a duplicate with this TSEQ and tag is answered. -/
  | request (i : Fin 8) (tseq : BitVec 16) (tag : BitVec 128) (msg : List Byte)
  /-- RESPONSE (R385): a partner's RESPONSE to an EVENT request. -/
  | response (i : Fin 8) (tseq : BitVec 16) (msg : List Byte)
  /-- EVOLU_ACK (R373): an ACK frame with its ASEQ. -/
  | evoluAck (i : Fin 8) (aseq : BitVec 16)
  /-- ACK_DELAY (R374). -/
  | ackDelay (i : Fin 8)
  /-- RTO_EXPIRY (R374). -/
  | rtoExpiry (i : Fin 8)
  /-- SUSPECT_TIMEOUT (R372). -/
  | suspectTimeout (i : Fin 8)
  /-- IDLE_LIMIT (R372). -/
  | idleLimit (i : Fin 8)
  /-- READ (R393). -/
  | read (r : Req) (m : SvcMsg)
  /-- WRITE (R394). -/
  | write (r : Req) (m : SvcMsg)
  /-- READ_SEG (R379). -/
  | readSeg (r : Req) (m : SvcMsg)
  /-- WRITE_SEG (R378). -/
  | writeSeg (r : Req) (m : SvcMsg)
  /-- TRANSFER_STATUS (R380). -/
  | transferStatus (r : Req) (m : SvcMsg)
  /-- TRANSFER_EXPIRY (R380): of the transfer kept for trust-anchor slot `anchor`. -/
  | transferExpiry (anchor : Fin 8)
  /-- OPEN (R398). -/
  | openSet (r : Req) (m : SvcMsg)
  /-- STAGE (R398). -/
  | stage (r : Req) (m : SvcMsg)
  /-- CHECK (R401). -/
  | check (r : Req) (m : SvcMsg)
  /-- COMMIT (R402). -/
  | commit (r : Req) (m : SvcMsg)
  /-- ABORT (R405). -/
  | abort (r : Req) (m : SvcMsg)
  /-- RENEW (R398). -/
  | renew (r : Req) (m : SvcMsg)
  /-- EVENT (R386): the module sends queued event records to session `i`. -/
  | event (i : Fin 8)
  /-- SUBSCRIBE (R385). -/
  | subscribe (i : Fin 8) (m : SvcMsg)
  /-- CLOSE (R372). -/
  | close (i : Fin 8)
  /-- LEASE_EXPIRY (R397). -/
  | leaseExpiry
  /-- APPLY_POINT (R403): the apply point of the pending set `id` arrives. -/
  | applyPoint (id : BitVec 32)
  /-- REGION_ZERO_FILL (R453): the zero-fill for the region table of partition `p` completes. -/
  | regionZeroFill (p : Fin 8)
  /-- CANCEL_PENDING (R404). -/
  | cancelPending (r : Req) (id : BitVec 32)
  /-- FORCE_ABORT (R404). -/
  | forceAbort (r : Req) (id : BitVec 32)
  /-- ACTIVITY_URGENT (R412): the activity of ID `id` + 1 of R411 on unit `unit` has become URGENT. -/
  | activityUrgent (id : Fin 8) (unit : Nat)
  /-- POINTING_PREEMPTION (R413): one step of the URGENT activity of ID `id` + 1 on unit `unit`, stalling foreground work `ns`. -/
  | pointingPreemption (id : Fin 8) (unit : Nat) (ns : BitVec 32)
  /-- COURSE_LANE_SELF_TEST (R415): eight physical lanes of Course `n` from `first` on; `failing` lists those that fail. -/
  | courseLaneSelfTest (n : Fin 8) (first : Nat) (failing : List Nat)
  /-- TROWEL_COX_LANE_TEST (R415): of a Trowel, or of the Cox lanes of a field; `failing` working lanes fail. -/
  | trowelCoxLaneTest (u : LaneUnit) (failing : Nat)
  /-- PALLET_BANK_TEST (R415): the freed physical bank `pb` of Pallet `n` is tested. -/
  | palletBankTest (n : Fin 8) (pb : Fin 136) (ok : Pass)
  /-- CORE_ROTATION (R415): a spare core of cluster `k` takes the place of the longest untested one; `ok` is its test. -/
  | coreRotation (k : Fin 4) (ok : Pass)
  /-- LANE_RECALIBRATION (R416): logical lane `lane` of bank `b` is swapped onto the spare. -/
  | laneRecalibration (b : Fin 8) (lane : Fin 8)
  /-- DEADLINE_MISSED (R412): the activity of ID `id` + 1 on unit `unit` misses its deadline. -/
  | deadlineMissed (id : Fin 8) (unit : Nat)
  /-- LOCKSTEP_MISMATCH (R418): the self-tests of the three management cores. -/
  | lockstepMismatch (core0 core1 spare : Pass)
  /-- CLEAR_REPAIR_MAP (R424): a write of `v` to 0x8100:10. -/
  | clearRepairMap (r : Req) (v : Byte)
  /-- REFERENCE_LOSS (R427): reference A (0), B (1) or P (2) stops or drifts. -/
  | referenceLoss (ref : Fin 3)
  /-- CLOCK_STEP (R428): a lowered domain (0 ACLK, 1 CCLK, 2 UCLK) changes by one step, up or down. -/
  | clockStep (d : Fin 3) (up : Bool)
  /-- POWER_SAMPLE (R433): a 10 µs sample of input power, in W, with the measured voltage in mV. -/
  | powerSample (w : Nat) (mv : Nat)
  /-- THERMAL_SAMPLE (R435): 64 junctions and 20 stacks, in 0.01 °C. -/
  | thermalSample (junctions : List Int) (stackTemps : List Int)
  /-- COLD_START (R440): the input has stood at or above 50.0 V for 10 ms; `lasers` are the powers of the 12 inputs in µW. -/
  | coldStart (lasers : List Nat)
  /-- UNDER_VOLTAGE_TRIP (R429): the input voltage in mV. -/
  | underVoltageTrip (mv : Nat)
  /-- OVER_VOLTAGE_TRIP (R429): the input voltage in mV. -/
  | overVoltageTrip (mv : Nat)
  /-- IDLE_ENTRY (R431): 1 ms without work has passed. -/
  | idleEntry
  /-- PREPARE_FOR_REMOVAL (R432): a write of `v` to 0x2400:03. -/
  | prepareForRemoval (r : Req) (v : Byte)
  /-- WARM_RESET (R438): a write of 1 to 0x2400:01, or (`none`) the module's own for a retirement or map change that waits. -/
  | warmReset (r : Option Req)
  /-- WARM_RESET_BRING_UP (R441): a write of 2 to 0x2400:01. -/
  | warmResetBringUp (r : Req)
  /-- WATCHDOG_EXPIRY (R436). -/
  | watchdogExpiry
  /-- PART_RESET (R436): of the part of kind `kind` (Course 0, Trowel 1, Hod 2, Rigger lane 3, Pallet bank 4, core 5,
  pseudo-channel 6, Rigger port 7, Cox 8) with number `n`. -/
  | partReset (kind : Fin 9) (n : Nat)
  /-- ADVANCE_ROLLBACK_COUNTER (R446): a write of `v` to 0x4100:06. -/
  | advanceRollbackCounter (r : Req) (v : Byte)
  /-- BURN_OWNER_KEY_HASH (R448): a write to 0x4100:04. -/
  | burnOwnerKeyHash (r : Req) (hash : BitVec 256)
  /-- ATTESTATION_NONCE (R450): a write to 0x4200:01. -/
  | attestationNonce (r : Req) (nonce : BitVec 256)
  /-- COUNTER_SAMPLE (R461): the group at 0x9000 + g reaches a multiple of its INTERVAL; `lost` when the sample is lost. -/
  | counterSample (g : Fin 80) (lost : Bool)
  /-- GROUP_CONFIG_WRITE (R460): a write of the group record at 0x9000 + g. -/
  | groupConfigWrite (r : Req) (g : Fin 80) (d : List Byte)
  /-- TRACE_DROP (R471): the buffer of cluster `k` is full: `bytes` bytes and `instrs` instructions are dropped. -/
  | traceDrop (k : Fin 4) (bytes : BitVec 32) (instrs : BitVec 32)
  /-- REGISTER_WRITE (R390): an immediate write of an object without a row of its own. -/
  | registerWrite (r : Req) (index : BitVec 16) (sub : Byte) (data : List Byte)
  /-- COX_RETIRE (R309): the Cox command of layer `layer` of partition `p` retires. -/
  | coxRetire (p : Fin 8) (layer : Nat)
  /-- EXPORT_DONE (R209): every exported byte of the stream's EXPORT has taken effect. -/
  | exportDone (f : Fin 9) (s : Fin 64)
  /-- MARGINING_READY (R158): Pointing finishes quiescing the named stack. -/
  | marginingReady
  /-- HANDSHAKE_SEGMENT_TIMEOUT (R370): the segments of handshake `hid` span more than 20 ms. -/
  | handshakeSegmentTimeout (hid : BitVec 32)
  /-- MEDIUM_IDLE (R362): after MEDIUM_BUSY, the medium has been idle for 1 ms. -/
  | mediumIdle
  /-- TRACE_SPILL_FULL (R471). -/
  | traceSpillFull
  deriving DecidableEq, Repr

end Sys2Proof
end

