-- ==== Sys2Proof/Config.lean ====
section
/-! DEFINITION. What the spec leaves open (free values: no body, nothing can be proved of them) and what one module is made with
(its identity, keys and certified functions). -/

namespace Sys2Proof.Config

open Sys2Proof

/-! ## Free values -/

/-- Contents the spec calls undefined (R71, R157, R158, R270, R437): the byte at an address in generation `gen`. -/
opaque freeByte (gen addr : Nat) : Byte

/-- The same for descriptor slots (R437). -/
opaque freeDesc (gen slot : Nat) : BitVec 512

/-- A value the spec leaves open and the machine goes on with; the argument is the state's counter of free values. -/
opaque freeWord (n : Nat) : BitVec 64

/-- Trowel and Cox functions the spec bounds in ulp only (R101): a result for every operand, the same on every module of one
numeric revision (R46). The first argument is the operation's code, the second says strict. -/
opaque approx (op : Nat) (strict : Bool) (x y : BitVec 32) : BitVec 32

/-- Spare rows of each bank of a pseudo-channel beyond the first, which the JEDEC standard gives and the spec does not (R155, R156). -/
opaque spareRows : Nat

/-- The power `base`^t of a per-layer scalar in binary64 where it is not representable: the spec fixes its algorithm by the
numeric revision only (R298). `base` and the result are binary64 codes. -/
opaque pow64 (base : BitVec 64) (t : Nat) : BitVec 64

/-- The reservation map's bytes (0x5000:10): the spec names its columns and no layout; the argument lists the stacks in service. -/
opaque reservationMap (inService : List Nat) : List Byte
/-- The repair map's bytes (R419): the spec gives no layout; the argument is the object's generation. -/
opaque repairMap (gen : Nat) : List Byte
/-- Kind, unit and tag of the log entry of a failed write of flash (R391, R419): the spec states none. -/
opaque flashLog (n : Nat) : BitVec 64
/-- The field types of the sweep record 0x5300:02 and its default, full range (R159): the spec gives no layout. -/
opaque sweepFields : List Nat
opaque sweepDefault : List Byte
/-- What 0x7000:05 reports of a power above 65,535 µW, which its U16 does not hold (R237, R478). -/
opaque laserReading (uw : Nat) : BitVec 16
/-- The 64 bytes of a tile's state record by what it holds (R88): the spec gives no layout. -/
opaque tileRecord (passes : Nat) (widened acc16 : Bool) (cls rows : Nat) (broken current : Bool) : List Byte
/-- The bytes of a decision-log entry (R331): the spec names its columns and no layout. -/
opaque decisionEntry (stroke attempt decision cause term time : Nat) : List Byte
/-- The two cold-plate readings (0x2200:05), which no command brings in. -/
opaque coldPlate (now : Nat) : List Byte
/-- What the whole-number rate of 0x1900:01 reads at 2.5 GT/s (R198). -/
opaque slowRate : Byte
/-- The record definition (R410) of the n-th record of the dictionary: the spec numbers none; an index from 0x0040 to 0x00FF. -/
opaque recordDef (n : Nat) : Nat

/-! ## Identity, fixed at manufacture (R409, R449, R456) -/

opaque vendorId : BitVec 16
opaque serial : BitVec 64
opaque romVersion : BitVec 32
opaque numericRevision : BitVec 32
opaque vendorKeyHash : BitVec 256
opaque seedKey : BitVec 256

/-- The firmware image in slot A as the module is delivered (log 5). -/
opaque factoryImage : List Byte

/-! ## Certified functions (FIPS 203, 204) -/

/-- ML-DSA-65 key generation: the public key of a seed. -/
opaque dsaPublic (seed : BitVec 256) : List Byte
/-- ML-DSA-65 signature of a message under a context with a seed's private key; the last argument is the signing randomness. -/
opaque dsaSign (seed : BitVec 256) (context : String) (msg : List Byte) (rnd : Nat) : List Byte
/-- ML-DSA-65 verification. -/
opaque dsaVerify (pub : List Byte) (context : String) (msg sig : List Byte) : Bool
/-- ML-KEM-768 encapsulation: ciphertext and shared secret. -/
opaque kemEncaps (key : List Byte) (rnd : Nat) : List Byte × List Byte
/-- The random bytes of a nonce. -/
opaque nonce (n : Nat) : List Byte

end Sys2Proof.Config
end

