-- ==== Sys2Proof/Machine/Bits.lean ====
section
/-! DEFINITION. Bits and bytes: bit fields, little-endian values (R4), the checksums of R204, R363 and R243, the mixing function
of R37, serial comparison (R11) and the Keccak functions the spec names (SHAKE256 and KMAC256). -/

namespace Sys2Proof.Machine

open Sys2Proof

/-- Bits [hi:lo] of a word. -/
def fld {n : Nat} (w : BitVec n) (hi lo : Nat) : Nat := (w.toNat >>> lo) % 2 ^ (hi + 1 - lo)

/-- Bits [hi:lo] of a number. -/
def nfld (w hi lo : Nat) : Nat := (w >>> lo) % 2 ^ (hi + 1 - lo)

/-- Some bit of [hi:lo] is set. -/
def anySet {n : Nat} (w : BitVec n) (hi lo : Nat) : Bool := fld w hi lo != 0

/-- The number with `v` in bits from `lo` on. -/
def place (lo v : Nat) : Nat := v <<< lo

/-- A two's complement field of `n` bits. -/
def sext (n v : Nat) : Int := if v < 2 ^ (n - 1) then (v : Int) else (v : Int) - 2 ^ n

/-- An integer as a two's complement field of `n` bits. -/
def toField (n : Nat) (v : Int) : Nat := (v % (2 ^ n : Int)).toNat

/-- The `n` bytes of a value, least significant first (R4). -/
def leBytes : Nat → Nat → List Byte
  | 0, _ => []
  | n + 1, v => BitVec.ofNat 8 v :: leBytes n (v / 256)

/-- The value of little-endian bytes (R4). -/
def ofLe : List Byte → Nat
  | [] => 0
  | b :: bs => b.toNat + 256 * ofLe bs

/-- `n` bytes of a list from `off`, zeros beyond its end. -/
def sliceZ (l : List Byte) (off n : Nat) : List Byte :=
  let t := (l.drop off).take n
  t ++ List.replicate (n - t.length) 0

/-- The little-endian value of `n` bytes at `off`. -/
def leAt (l : List Byte) (off n : Nat) : Nat := ofLe (sliceZ l off n)

/-- The list with the bytes `d` written over it from `off`, extended with zeros where it is too short. -/
def overlay (l : List Byte) (off : Nat) (d : List Byte) : List Byte :=
  sliceZ l 0 off ++ d ++ l.drop (off + d.length)

/-- The bytes of a word, least significant first. -/
def wordBytes {n : Nat} (w : BitVec n) : List Byte := leBytes (n / 8) w.toNat

/-- `a` after `b` in serial arithmetic of `n` bits (R11): the difference modulo 2^n lies from 1 to 2^(n − 1) − 1. -/
def serialAfter {n : Nat} (a b : BitVec n) : Bool :=
  let d := (a - b).toNat
  0 < d && d < 2 ^ (n - 1)

/-- One bit step of a reflected CRC with polynomial `p`. -/
def crcBit (p : BitVec 32) (c : BitVec 32) : BitVec 32 :=
  if c.getLsbD 0 then (c >>> 1) ^^^ p else c >>> 1

/-- A reflected CRC-32 over bytes, initial and final value all ones. -/
def crcReflected (p : BitVec 32) (bs : List Byte) : BitVec 32 :=
  ~~~ bs.foldl (fun c b => (List.range 8).foldl (fun c _ => crcBit p c) (c ^^^ b.setWidth 32)) 0xFFFFFFFF

/-- CRC-32C (R204). -/
def crc32c (bs : List Byte) : BitVec 32 := crcReflected 0x82F63B78 bs

/-- The frame check sequence of IEEE 802.3 (R363). -/
def crc32 (bs : List Byte) : BitVec 32 := crcReflected 0xEDB88320 bs

/-- `mix` of R37. -/
def mix (seed index : U64) : U64 :=
  let z := seed + (index + 1) * 0x9E3779B97F4A7C15
  let z := (z ^^^ (z >>> 30)) * 0xBF58476D1CE4E5B9
  let z := (z ^^^ (z >>> 27)) * 0x94D049BB133111EB
  z ^^^ (z >>> 31)

/-! ## Keccak (FIPS 202, NIST SP 800-185) -/

/-- Rotation offsets of ρ, lane x + 5 y. -/
def keccakRho : List Nat :=
  [0, 1, 62, 28, 27, 36, 44, 6, 55, 20, 3, 10, 43, 25, 39, 41, 45, 15, 21, 8, 18, 2, 61, 56, 14]

/-- Round constants of ι. -/
def keccakRC : List U64 :=
  [0x0000000000000001, 0x0000000000008082, 0x800000000000808A, 0x8000000080008000, 0x000000000000808B, 0x0000000080000001,
   0x8000000080008081, 0x8000000000008009, 0x000000000000008A, 0x0000000000000088, 0x0000000080008009, 0x000000008000000A]
  ++
  [0x000000008000808B, 0x800000000000008B, 0x8000000000008089, 0x8000000000008003, 0x8000000000008002, 0x8000000000000080,
   0x000000000000800A, 0x800000008000000A, 0x8000000080008081, 0x8000000000008080, 0x0000000080000001, 0x8000000080008008]

/-- Lane of a state of 25. -/
def lane (a : List U64) (x y : Nat) : U64 := a.getD (x % 5 + 5 * (y % 5)) 0

/-- One round of Keccak-f[1600]. -/
def keccakRound (a : List U64) (rc : U64) : List U64 :=
  let c := (List.range 5).map fun x => lane a x 0 ^^^ lane a x 1 ^^^ lane a x 2 ^^^ lane a x 3 ^^^ lane a x 4
  let d := (List.range 5).map fun x => c.getD ((x + 4) % 5) 0 ^^^ (c.getD ((x + 1) % 5) 0).rotateLeft 1
  let t := (List.range 25).map fun i => (a.getD i 0 ^^^ d.getD (i % 5) 0).rotateLeft (keccakRho.getD i 0)
  -- π: lane (x, y) of the result is lane (x + 3 y, x) of its source
  let b := (List.range 25).map fun i => lane t (i % 5 + 3 * (i / 5)) (i % 5)
  let e := (List.range 25).map fun i => lane b (i % 5) (i / 5) ^^^ (~~~ lane b (i % 5 + 1) (i / 5) &&& lane b (i % 5 + 2) (i / 5))
  match e with
  | [] => []
  | h :: r => (h ^^^ rc) :: r

/-- Keccak-f[1600]. -/
def keccakF (a : List U64) : List U64 := keccakRC.foldl keccakRound a

/-- The block of 136 bytes absorbed into a state. -/
def keccakAbsorb (a : List U64) (blk : List Byte) : List U64 :=
  keccakF ((List.range 25).map fun i =>
    if i < 17 then a.getD i 0 ^^^ BitVec.ofNat 64 (leAt blk (8 * i) 8) else a.getD i 0)

/-- Whole blocks of 136 bytes absorbed, `n` at most. -/
def keccakBlocks : Nat → List U64 → List Byte → List U64
  | 0, a, _ => a
  | n + 1, a, l => if l.isEmpty then a else keccakBlocks n (keccakAbsorb a (l.take 136)) (l.drop 136)

/-- `n` blocks squeezed. -/
def keccakSqueeze : Nat → List U64 → List Byte
  | 0, _ => []
  | n + 1, a => ((a.take 17).map wordBytes).flatten ++ keccakSqueeze n (keccakF a)

/-- Keccak[512] with domain suffix `d` (the suffix bits with the first padding bit). -/
def keccak512 (d : Nat) (msg : List Byte) (n : Nat) : List Byte :=
  let r := 136 - msg.length % 136
  let pad := if r = 1 then [BitVec.ofNat 8 (d + 0x80)]
    else BitVec.ofNat 8 d :: (List.replicate (r - 2) (0 : Byte) ++ [0x80])
  let a := keccakBlocks (msg.length / 136 + 1) (List.replicate 25 0) (msg ++ pad)
  (keccakSqueeze (n / 136 + 1) a).take n

/-- SHAKE256 with `n` bytes of output (FIPS 202). -/
def shake256 (msg : List Byte) (n : Nat) : List Byte := keccak512 0x1F msg n

/-- The bytes of a number, most significant first, at least one. -/
def beBytes (v : Nat) : List Byte :=
  if v < 256 then [BitVec.ofNat 8 v]
  else if v < 65536 then [BitVec.ofNat 8 (v / 256), BitVec.ofNat 8 v]
  else if v < 16777216 then [BitVec.ofNat 8 (v / 65536), BitVec.ofNat 8 (v / 256), BitVec.ofNat 8 v]
  else [BitVec.ofNat 8 (v / 16777216), BitVec.ofNat 8 (v / 65536), BitVec.ofNat 8 (v / 256), BitVec.ofNat 8 v]

/-- left_encode of SP 800-185. -/
def leftEncode (v : Nat) : List Byte := BitVec.ofNat 8 (beBytes v).length :: beBytes v

/-- right_encode of SP 800-185. -/
def rightEncode (v : Nat) : List Byte := beBytes v ++ [BitVec.ofNat 8 (beBytes v).length]

/-- encode_string of SP 800-185. -/
def encodeString (s : List Byte) : List Byte := leftEncode (8 * s.length) ++ s

/-- bytepad of SP 800-185 to 136 bytes. -/
def bytepad (s : List Byte) : List Byte :=
  let t := leftEncode 136 ++ s
  t ++ List.replicate ((136 - t.length % 136) % 136) 0

/-- The bytes of an ASCII string. -/
def ascii (s : String) : List Byte := s.toList.map fun c => BitVec.ofNat 8 c.toNat

/-- KMAC256 with `n` bytes of output and customisation string `c` (SP 800-185). -/
def kmac256 (key msg : List Byte) (n : Nat) (c : String) : List Byte :=
  keccak512 0x04 (bytepad (encodeString (ascii "KMAC") ++ encodeString (ascii c)) ++ bytepad (encodeString key) ++ msg ++
    rightEncode (8 * n)) n

/-! ## Order -/

def insertBy {α : Type} (le : α → α → Bool) (x : α) : List α → List α
  | [] => [x]
  | y :: l => if le x y then x :: y :: l else y :: insertBy le x l

/-- A list put in order; what `le` holds equal keeps its order. -/
def sortBy {α : Type} (le : α → α → Bool) (l : List α) : List α := l.foldr (insertBy le) []

end Sys2Proof.Machine
end

