-- ==== Sys2Proof/Machine/Flags.lean ====
section
/-! DEFINITION. Numbers (02): the element formats and their codes, exact values, rounding with its flags, conversion, and the
exact operations every engine builds on. Flags travel as the byte of R47. -/

namespace Sys2Proof.Machine

open Sys2Proof

/-! ## Flags (R47) -/

def fNX : FlagByte := 0x01
def fUF : FlagByte := 0x02
def fOF : FlagByte := 0x04
def fNV : FlagByte := 0x08
def fDZ : FlagByte := 0x10

/-- The OR of a list of flag bytes. -/
def orFlags (l : List FlagByte) : FlagByte := l.foldl (· ||| ·) 0

/-! ## Formats (R26, R27, R61) -/

/-- The format of a code of R61; codes 0xA to 0xF name none. -/
def fmtOf (c : Nat) : Option Fmt :=
  match c with
  | 0 => some .fp32 | 1 => some .bf16 | 2 => some .fp16 | 3 => some .e5m2 | 4 => some .e4m3 | 5 => some .e3m2
  | 6 => some .e2m3 | 7 => some .e2m1 | 8 => some .int8 | 9 => some .int32
  | _ => none

/-- The code of a format (R61). -/
def fmtCode (f : Fmt) : Nat :=
  match f with
  | .fp32 => 0 | .bf16 => 1 | .fp16 => 2 | .e5m2 => 3 | .e4m3 => 4 | .e3m2 => 5 | .e2m3 => 6 | .e2m1 => 7 | .int8 => 8
  | .int32 => 9

/-- Bits of an element (R26). -/
def fmtBits (f : Fmt) : Nat :=
  match f with
  | .fp32 => 32 | .bf16 => 16 | .fp16 => 16 | .e5m2 => 8 | .e4m3 => 8 | .e3m2 => 6 | .e2m3 => 6 | .e2m1 => 4 | .int8 => 8
  | .int32 => 32

/-- Exponent bits. -/
def fmtE (f : Fmt) : Nat :=
  match f with
  | .fp32 => 8 | .bf16 => 8 | .fp16 => 5 | .e5m2 => 5 | .e4m3 => 4 | .e3m2 => 3 | .e2m3 => 2 | .e2m1 => 2 | _ => 0

/-- Mantissa bits. -/
def fmtM (f : Fmt) : Nat :=
  match f with
  | .fp32 => 23 | .bf16 => 7 | .fp16 => 10 | .e5m2 => 2 | .e4m3 => 3 | .e3m2 => 2 | .e2m3 => 3 | .e2m1 => 1 | _ => 0

/-- Exponent bias. -/
def fmtBias (f : Fmt) : Int :=
  match f with
  | .fp32 => 127 | .bf16 => 127 | .fp16 => 15 | .e5m2 => 15 | .e4m3 => 7 | .e3m2 => 3 | .e2m3 => 1 | .e2m1 => 1 | _ => 0

def fmtIsInt (f : Fmt) : Bool := f == .int8 || f == .int32

/-- FP32, BF16, FP16: the formats fast mode flushes (R42). -/
def fmtWide (f : Fmt) : Bool := f == .fp32 || f == .bf16 || f == .fp16

/-- FP6 and FP4: the formats with block scales (R26). -/
def fmtBlock (f : Fmt) : Bool := f == .e3m2 || f == .e2m3 || f == .e2m1

/-- FP8. -/
def fmtFp8 (f : Fmt) : Bool := f == .e5m2 || f == .e4m3

/-- The formats with infinities (R27). -/
def fmtHasInf (f : Fmt) : Bool := fmtWide f || f == .e5m2

/-- The code of the default NaN; 0 where there is none (R27). -/
def fmtNaN (f : Fmt) : Nat :=
  match f with
  | .fp32 => 0x7FC00000 | .bf16 => 0x7FC0 | .fp16 => 0x7E00 | .e5m2 => 0x7E | .e4m3 => 0x7F | _ => 0

/-- The code of the largest finite magnitude (R27). -/
def fmtMax (f : Fmt) : Nat :=
  match f with
  | .fp32 => 0x7F7FFFFF | .bf16 => 0x7F7F | .fp16 => 0x7BFF | .e5m2 => 0x7B | .e4m3 => 0x7E | .e3m2 => 0x1F | .e2m3 => 0x1F
  | .e2m1 => 0x7 | .int8 => 0x7F | .int32 => 0x7FFFFFFF

/-- The code of +infinity; used for formats that have one. -/
def fmtInf (f : Fmt) : Nat := (2 ^ fmtE f - 1) <<< fmtM f

/-- Sign bit of a code as a number. -/
def fmtSign (f : Fmt) (neg : Bool) : Nat := if neg then 2 ^ (fmtBits f - 1) else 0

/-! ## Reading a code -/

/-- +0. -/
def vZero : Val := .fin false 0 0

/-- An exact integer. -/
def vInt (i : Int) : Val := .fin (i < 0) i.natAbs 0

/-- The default NaN as a value: quiet, positive, no payload. -/
def vNaN : Val := .nan false false 0

/-- The value of a floating-point or integer code. `flush` reads subnormals of FP32, BF16 and FP16 as zero of their sign (R42). -/
def readCode (f : Fmt) (flush : Bool) (c : Nat) : Val :=
  if fmtIsInt f then vInt (sext (fmtBits f) (c % 2 ^ fmtBits f)) else
  let M := fmtM f
  let neg := c.testBit (fmtBits f - 1)
  let e := nfld c (fmtBits f - 2) M
  let m := c % 2 ^ M
  if fmtHasInf f && e == 2 ^ fmtE f - 1 then
    if m == 0 then .inf neg
    -- every NaN of FP8 is quiet (R28)
    else if fmtFp8 f then .nan false neg ((m <<< (23 - M)) ||| 2 ^ 22)
    else .nan (!m.testBit (M - 1)) neg (m <<< (23 - M))
  else if f == .e4m3 && c % 128 == 127 then .nan false neg (m <<< (23 - M))
  else if e == 0 then
    if flush && fmtWide f then .fin neg 0 0 else .fin neg m (1 - fmtBias f - M)
  else .fin neg (2 ^ M + m) ((e : Int) - fmtBias f - M)

/-- A value multiplied by an E8M0 scale (R29, R32): NaN for 0xFF. -/
def scaleE8 (k : Nat) (v : Val) : Val :=
  if k == 0xFF then vNaN else
  match v with
  | .fin n m e => .fin n m (e + k - 127)
  | v => v

def isNaN (v : Val) : Bool := match v with | .nan _ _ _ => true | _ => false
def isSNaN (v : Val) : Bool := match v with | .nan s _ _ => s | _ => false
def isInf (v : Val) : Bool := match v with | .inf _ => true | _ => false
def isZero (v : Val) : Bool := match v with | .fin _ 0 _ => true | _ => false
def isFin (v : Val) : Bool := match v with | .fin _ _ _ => true | _ => false
def signOf (v : Val) : Bool := match v with | .nan _ n _ => n | .inf n => n | .fin n _ _ => n

def negV (v : Val) : Val :=
  match v with | .nan s n p => .nan s (!n) p | .inf n => .inf (!n) | .fin n m e => .fin (!n) m e

def absV (v : Val) : Val :=
  match v with | .nan s _ p => .nan s false p | .inf _ => .inf false | .fin _ m e => .fin false m e

/-! ## Rounding (R36 to R45) -/

/-- Position of the highest set bit; 0 for 0 and 1. -/
def topBit (m : Nat) : Nat := Nat.log2 m

/-- `m` × 2^`e` (and, when `sticky`, a little more) as a whole number of 2^`q`, rounded by the mode; and whether it is inexact. -/
def roundAt (md : Rnd) (m : Nat) (e : Int) (sticky : Bool) (q : Int) : Nat × Bool :=
  if q ≤ e then (m <<< (e - q).toNat, sticky) else
  let d := (q - e).toNat
  let n := m >>> d
  let r := m % 2 ^ d
  let half := 2 ^ (d - 1)
  let up :=
    match md with
    | .rne => r > half || (r == half && (sticky || n % 2 == 1))
    | .rtz => false
    | .sr x => (r != 0) && (r <<< 16) / 2 ^ d + x ≥ 65536
  (if up then n + 1 else n, r != 0 || sticky)

/-- Least exponent of a normal value. -/
def fmtEmin (f : Fmt) : Int := 1 - fmtBias f

/-- The code of magnitude n × 2^q, where it is representable. -/
def packMag (f : Fmt) (n : Nat) (q : Int) : Nat :=
  let M := fmtM f
  if n == 0 then 0 else
  let t := topBit n
  let ex := q + t
  if ex < fmtEmin f then
    -- subnormal: a multiple of the smallest
    (if fmtEmin f - M ≤ q then n <<< (q - (fmtEmin f - M)).toNat else n >>> (fmtEmin f - M - q).toNat)
  else
    let m := if t ≤ M then n <<< (M - t) else n >>> (t - M)
    ((ex + fmtBias f).toNat <<< M) + m % 2 ^ M

/-- n × 2^q exceeds the largest finite magnitude of `f`. -/
def overMax (f : Fmt) (n : Nat) (q : Int) : Bool :=
  match readCode f false (fmtMax f) with
  | .fin _ m e => if e ≤ q then n <<< (q - e).toNat > m else n > m <<< (e - q).toNat
  | _ => false

/-- What an overflow gives (R39, R40): saturation to ±max or infinity. -/
def overflow (f : Fmt) (md : Rnd) (sat : Bool) (neg : Bool) : Nat × FlagByte :=
  if fmtBlock f then (fmtSign f neg + fmtMax f, fNX)
  else if sat || md == .rtz || f == .e4m3 then (fmtSign f neg + fmtMax f, fOF ||| fNX)
  else (fmtSign f neg + fmtInf f, fOF ||| fNX)

/-- An integer destination (R39): saturated with NV, else rounded with NX when inexact. -/
def roundInt (f : Fmt) (md : Rnd) (neg : Bool) (m : Nat) (e : Int) (sticky : Bool) : Nat × FlagByte :=
  let (n, ix) := roundAt md m e sticky 0
  let lim := 2 ^ (fmtBits f - 1)
  if neg then (if n > lim then (lim, fNV) else (toField (fmtBits f) (-(n : Int)), if ix then fNX else 0))
  else if n ≥ lim then (lim - 1, fNV) else (n, if ix then fNX else 0)

/-- An exact finite value, or one a little further from zero when `sticky`, rounded to a format (R36, R39, R42 to R45): code and
flags. -/
def roundFin (f : Fmt) (md : Rnd) (strict sat : Bool) (neg : Bool) (m : Nat) (e : Int) (sticky : Bool) : Nat × FlagByte :=
  if fmtIsInt f then roundInt f md neg m e sticky else
  if m == 0 && !sticky then (fmtSign f neg, 0) else
  let M := fmtM f
  let ex := e + topBit m
  -- tininess is judged after rounding with unbounded exponent (R45)
  let (n, ix) := roundAt md m e sticky (ex - M)
  if ex - M + topBit n < fmtEmin f || n == 0 then
    if fmtWide f && !strict then (fmtSign f neg, fUF ||| fNX) else
    let (k, jx) := roundAt md m e sticky (fmtEmin f - M)
    (fmtSign f neg + packMag f k (fmtEmin f - M),
      if jx then (if fmtBlock f then fNX else fUF ||| fNX) else 0)
  else if overMax f n (ex - M) then overflow f md sat neg
  else (fmtSign f neg + packMag f n (ex - M), if ix then fNX else 0)

/-- A NaN result (R39, R42, R44): the default NaN, or in strict mode the operand quieted with its payload aligned. -/
def nanCode (f : Fmt) (strict : Bool) (v : Val) : Nat :=
  match v with
  | .nan _ neg p => if strict && fmtWide f then fmtSign f neg + fmtInf f + ((p >>> (23 - fmtM f)) ||| 2 ^ (fmtM f - 1)) else fmtNaN f
  | _ => fmtNaN f

/-- A value converted to a format (R39): code and flags. A signalling NaN raises NV where it is read (R48). -/
def convert (f : Fmt) (md : Rnd) (strict sat : Bool) (v : Val) : Nat × FlagByte :=
  match v with
  | .nan s _ _ =>
    let sf : FlagByte := if s then fNV else 0
    if fmtIsInt f then (0, fNV) else if fmtBlock f then (0, sf) else (nanCode f strict v, sf)
  | .inf neg =>
    if fmtIsInt f then (if neg then 2 ^ (fmtBits f - 1) else fmtMax f, fNV)
    else if fmtBlock f then (fmtSign f neg + fmtMax f, fNV)
    else if sat then (fmtSign f neg + fmtMax f, fOF ||| fNX)
    else if f == .e4m3 then (fmtNaN f, fNV)
    else (fmtSign f neg + fmtInf f, 0)
  | .fin neg m e => roundFin f md strict sat neg m e false

/-- A result rounded to binary32 by RNE. -/
def to32 (strict : Bool) (v : Val) : BitVec 32 × FlagByte :=
  let (c, fl) := convert .fp32 .rne strict false v
  (BitVec.ofNat 32 c, fl)

/-- A binary32 code as a value; fast mode flushes (R42). -/
def of32 (strict : Bool) (c : BitVec 32) : Val := readCode .fp32 (!strict) c.toNat

/-! ## Exact operations -/

/-- The first NaN among operands in operand order, quieted; the default NaN where none is one (R44). -/
def firstNaN (l : List Val) : Val :=
  match l.find? isNaN with
  | some (.nan _ n p) => .nan false n (p ||| 2 ^ 22)
  | _ => vNaN

/-- NV for a signalling NaN operand (R48). -/
def snanFlags (l : List Val) : FlagByte := if l.any isSNaN then fNV else 0

/-- The signed mantissa of a finite value in units of 2^q, q at most its exponent. -/
def atExp (q : Int) (neg : Bool) (m : Nat) (e : Int) : Int :=
  let k : Int := ((m <<< (e - q).toNat : Nat) : Int)
  if neg then -k else k

/-- A signed mantissa as a value; zero takes the sign given. -/
def ofInt (z : Bool) (k : Int) (q : Int) : Val := if k = 0 then .fin z 0 0 else .fin (k < 0) k.natAbs q

/-- Exact sum (R48): ∞ − ∞ is NaN with NV; a zero sum is +0 unless both are −0. -/
def addV (a b : Val) : Val × FlagByte :=
  if isNaN a || isNaN b then (firstNaN [a, b], snanFlags [a, b]) else
  match a, b with
  | .inf x, .inf y => if x == y then (.inf x, 0) else (vNaN, fNV)
  | .inf x, _ => (.inf x, 0)
  | _, .inf y => (.inf y, 0)
  | .fin n m e, .fin n' m' e' =>
    let q := min e e'
    (ofInt (n && n') (atExp q n m e + atExp q n' m' e') q, 0)
  | _, _ => (vNaN, 0)

/-- Exact product (R48): 0 × ∞ is NaN with NV. -/
def mulV (a b : Val) : Val × FlagByte :=
  if isNaN a || isNaN b then (firstNaN [a, b], snanFlags [a, b]) else
  let n := signOf a != signOf b
  match a, b with
  | .fin _ m e, .fin _ m' e' => (.fin n (m * m') (e + e'), 0)
  | .fin _ 0 _, _ => (vNaN, fNV)
  | _, .fin _ 0 _ => (vNaN, fNV)
  | _, _ => (.inf n, 0)

/-- Compare two numbers that are no NaN: a < b. Zeros of either sign are equal. -/
def ltV (a b : Val) : Bool :=
  match a, b with
  | .inf x, .inf y => x && !y
  | .inf x, _ => x
  | _, .inf y => !y
  | .fin n m e, .fin n' m' e' => let q := min e e'; atExp q n m e < atExp q n' m' e'
  | _, _ => false

def eqV (a b : Val) : Bool := !isNaN a && !isNaN b && !ltV a b && !ltV b a

/-- A quotient |a| ÷ |b| of finite values, b not zero, to 80 significant bits: mantissa, exponent, sticky. -/
def quot (m : Nat) (e : Int) (m' : Nat) (e' : Int) : Nat × Int × Bool :=
  let k := 80 + topBit m' - min (topBit m) (topBit m')
  let num := m <<< k
  (num / m', e - e' - k, num % m' != 0)

/-- Exact quotient rounded to a format (R48): code and flags. -/
def divTo (f : Fmt) (strict : Bool) (a b : Val) : Nat × FlagByte :=
  if isNaN a || isNaN b then (nanCode f strict (firstNaN [a, b]), snanFlags [a, b]) else
  let n := signOf a != signOf b
  match a, b with
  | .inf _, .inf _ => (fmtNaN f, fNV)
  | .inf _, _ => (fmtSign f n + fmtInf f, 0)
  | _, .inf _ => (fmtSign f n, 0)
  | .fin _ m e, .fin _ m' e' =>
    if m' == 0 then (if m == 0 then (fmtNaN f, fNV) else (fmtSign f n + fmtInf f, fDZ))
    else let (k, q, st) := quot m e m' e'; roundFin f .rne strict false n k q st
  | _, _ => (fmtNaN f, 0)

/-- Largest r with r² ≤ n, by Newton's bits from the top. -/
def isqrt (n : Nat) : Nat := Nat.sqrt n

/-- Square root of a positive finite value to more than 80 bits: mantissa, exponent, sticky. -/
def root (m : Nat) (e : Int) : Nat × Int × Bool :=
  let k := 170 + (if (e - 170) % 2 == 0 then 0 else 1)
  let x := m <<< k
  let r := isqrt x
  (r, (e - k) / 2, r * r != x)

/-- Square root rounded to a format; a negative non-zero operand is invalid (R48). -/
def sqrtTo (f : Fmt) (strict : Bool) (a : Val) : Nat × FlagByte :=
  match a with
  | .nan _ _ _ => (nanCode f strict (firstNaN [a]), snanFlags [a])
  | .inf n => if n then (fmtNaN f, fNV) else (fmtInf f, 0)
  | .fin n m e =>
    if m == 0 then (fmtSign f n, 0) else if n then (fmtNaN f, fNV) else
    let (r, q, st) := root m e
    roundFin f .rne strict false false r q st

/-- binary32 addition (fast mode flushes operands and results). -/
def add32 (strict : Bool) (a b : BitVec 32) : BitVec 32 × FlagByte :=
  let (v, fl) := addV (of32 strict a) (of32 strict b)
  let (c, fl') := to32 strict v
  (c, fl ||| fl')

/-- binary32 multiplication. -/
def mul32 (strict : Bool) (a b : BitVec 32) : BitVec 32 × FlagByte :=
  let (v, fl) := mulV (of32 strict a) (of32 strict b)
  let (c, fl') := to32 strict v
  (c, fl ||| fl')

/-- binary32 fused multiply-add: one rounding of a × b + c. -/
def fma32 (strict : Bool) (a b c : BitVec 32) : BitVec 32 × FlagByte :=
  let va := of32 strict a
  let vb := of32 strict b
  let vc := of32 strict c
  let (p, fl) := mulV va vb
  let (s, fl') := addV p vc
  let s := if isNaN va || isNaN vb || isNaN vc then firstNaN [va, vb, vc] else s
  let (r, fl'') := to32 strict s
  (r, fl ||| fl' ||| fl'' ||| snanFlags [vc])

/-- Saturating INT32 of an exact integer: NV when it saturates (R39). -/
def sat32 (i : Int) : BitVec 32 × FlagByte :=
  if i > 0x7FFFFFFF then (0x7FFFFFFF, fNV) else if i < -0x80000000 then (0x80000000, fNV)
  else (BitVec.ofInt 32 i, 0)

/-! ## Selection (R102, R103) -/

/-- A value widened to a binary32 code; NaNs keep their payload (R102). -/
def wide32 (v : Val) : BitVec 32 :=
  match v with
  | .nan _ n p => BitVec.ofNat 32 (fmtSign .fp32 n + 0x7F800000 + (if p % 2 ^ 23 = 0 then 2 ^ 22 else p % 2 ^ 23))
  | v => (to32 true v).1

/-- An element of a source in binary32: FP6 and FP4 with their block scale under R41, every other format exactly (R102). -/
def widenSrc (strict : Bool) (f : Fmt) (v : Val) : Val × FlagByte :=
  if fmtBlock f then let (x, fl) := to32 strict v; (of32 strict x, fl) else (v, 0)

/-- A selected value as a result, without a flag (R103). -/
def asResult (strict : Bool) (v : Val) : BitVec 32 :=
  if isNaN v then BitVec.ofNat 32 (nanCode .fp32 strict (firstNaN [v])) else (to32 strict v).1

/-- MAX and MIN (R103). -/
def maxMin (strict isMax : Bool) (a b : Val) : BitVec 32 × FlagByte :=
  if isNaN a || isNaN b then (BitVec.ofNat 32 (nanCode .fp32 strict (firstNaN [a, b])), snanFlags [a, b]) else
  let pickB := if isZero a && isZero b then (if isMax then signOf a && !signOf b else !signOf a && signOf b)
    else if isMax then ltV a b else ltV b a
  ((to32 strict (if pickB then b else a)).1, 0)

/-! ## Trees and integer sums (R80, R108) -/

/-- The tree of R108. -/
def treeLevel {α : Type} (g : α → α → α) : List α → List α
  | a :: b :: l => g a b :: treeLevel g l
  | l => l
def treeReduce {α : Type} (g : α → α → α) : Nat → List α → Option α
  | _, [] => none
  | _, [a] => some a
  | 0, a :: _ => some a
  | n + 1, l => treeReduce g n (treeLevel g l)

/-- INT32 accumulation (R80). -/
def intAcc (prev x : Int) : Nat × FlagByte × Bool :=
  if prev = -0x80000000 ∨ prev = 0x7FFFFFFF then (toField 32 prev, 0, false)
  else
    let t := prev + x
    if t < -0x7FFFFFFF then (0x80000000, fNV, true) else if t > 0x7FFFFFFE then (0x7FFFFFFF, fNV, true)
    else (toField 32 t, 0, false)

/-- An exact integer value. -/
def valInt (v : Val) : Int :=
  match v with
  | .fin neg m e => let k : Int := ((if 0 ≤ e then m <<< e.toNat else m >>> (-e).toNat : Nat) : Int); if neg then -k else k
  | _ => 0

/-! ## Block scales (R40, R41) -/

/-- emax of R40, and of the E4M3 wire blocks of R279. -/
def fmtEmax (f : Fmt) : Int :=
  match f with | .e2m1 => 2 | .e3m2 => 4 | .e2m3 => 2 | .e4m3 => 8 | _ => 0

/-- floor(log2 |v|) of a finite non-zero value. -/
def ilog2 (m : Nat) (e : Int) : Int := e + topBit m

/-- The value of largest magnitude among finite ones. -/
def amax (l : List Val) : Val := l.foldl (fun a v => if isFin v && ltV a (absV v) then absV v else a) vZero

/-- The scale byte of a block and its flags (R40). -/
def blockScale (f : Fmt) (l : List Val) : Nat × FlagByte :=
  if l.any isNaN then (0xFF, 0) else
  match amax l with
  | .fin _ m e =>
    if m == 0 then (0x7F, 0) else
    let x := ilog2 m e - fmtEmax f
    if x < -127 then (0, fUF ||| fNX) else ((x + 127).toNat, 0)
  | _ => (0x7F, 0)

/-- One element under the scale byte chosen (R39, R40): NaN blocks hold +0. Whether the numbers of such a block raise flags the spec
does not say: here they raise none (DESIGN CHOICE, log 37). -/
def blockElem (f : Fmt) (md : Rnd) (k : Nat) (v : Val) : Nat × FlagByte :=
  if k == 0xFF then (0, if isSNaN v then fNV else 0) else
  match v with
  | .fin n m e => roundFin f md false false n m (e - ((k : Int) - 127)) false
  | v => convert f md false false v

/-! ## Elements in storage (R30, R31) -/

/-- The code of element `i` of packed data bytes of a format. -/
def codeAt (f : Fmt) (d : List Byte) (i : Nat) : Nat :=
  match f with
  | .e2m1 => nfld (leAt d (i / 2) 1) (4 * (i % 2) + 3) (4 * (i % 2))
  | .e3m2 | .e2m3 => nfld (leAt d (3 * (i / 4)) 3) (6 * (i % 4) + 5) (6 * (i % 4))
  | _ => leAt d (i * (fmtBits f / 8)) (fmtBits f / 8)

/-- Codes packed into bytes (R30). -/
def packCodes (f : Fmt) (cs : List Nat) : List Byte :=
  let w := fmtBits f
  leBytes ((cs.length * w + 7) / 8) (cs.zipIdx.foldl (fun a (c, i) => a + (c % 2 ^ w) <<< (w * i)) 0)

/-- Bytes of one block of 32 with its scale (R31). -/
def blockBytes (f : Fmt) : Nat := if f == .e2m1 then 17 else 25

/-- Bytes of a block's data. -/
def blockData (f : Fmt) : Nat := blockBytes f - 1

end Sys2Proof.Machine
end

