-- ==== Sys2Proof/Machine/Operands.lean ====
section
/-! DEFINITION. The operand forms: tensor descriptors, tile-table entries and element addresses (06), the address encoding of
the Hods (R160), and the reserved bits of every unit command (R6). -/

namespace Sys2Proof.Machine

open Sys2Proof

/-! ## Reserved bits (R6) -/

/-- Some bit of one of the ranges (hi, lo) is set. -/
def rsvSet {n : Nat} (c : BitVec n) (rs : List (Nat × Nat)) : Bool := rs.any fun (h, l) => anySet c h l

def mmRsv : List (Nat × Nat) := [(511, 368), (95, 93), (31, 31), (8, 8)]
def loadwRsv : List (Nat × Nat) := [(511, 176), (95, 80), (31, 13)]

/-! ## Tensor descriptors (R124 to R126) -/

def dKind (d : Cmd) : Nat := fld d 1 0
def dLoc (d : Cmd) : Nat := fld d 5 4
def dFmtCode (d : Cmd) : Nat := fld d 9 6
def dTile (d : Cmd) : Nat := fld d 15 10
def dPRL (d : Cmd) : Nat := fld d 18 16
def dPCL (d : Cmd) : Nat := fld d 21 19
def dBase (d : Cmd) : Nat := fld d 271 208
def dRows (d : Cmd) : Nat := fld d 303 272
def dCols (d : Cmd) : Nat := fld d 335 304
def dPSC (d : Cmd) : Nat := fld d 375 336
def dPSR (d : Cmd) : Nat := fld d 415 376
def dFill (d : Cmd) : Nat := fld d 447 416
def dHostReg (d : Cmd) : Nat := fld d 459 448

/-- The element format of a descriptor; FP32 for a code that names none (such a descriptor is refused first). -/
def dFmt (d : Cmd) : Fmt := (fmtOf (dFmtCode d)).getD .fp32

/-- Brick width in elements (R120). -/
def brickW (f : Fmt) : Nat :=
  match f with
  | .fp32 | .int32 => 16 | .bf16 | .fp16 => 32 | .e5m2 | .e4m3 | .int8 => 64 | .e2m1 | .e3m2 | .e2m3 => 128

/-- Row bytes of a brick (R120). -/
def rowB (f : Fmt) : Nat := match f with | .e2m1 => 68 | .e3m2 | .e2m3 => 100 | _ => 64

/-- Brick bytes (R120). -/
def brickB (f : Fmt) : Nat := 16 * rowB f

/-- Panels down and across (R123). -/
def nPR (d : Cmd) : Nat := (dRows d + 16 * 2 ^ dPRL d - 1) / (16 * 2 ^ dPRL d)
def nPC (d : Cmd) : Nat := (dCols d + brickW (dFmt d) * 2 ^ dPCL d - 1) / (brickW (dFmt d) * 2 ^ dPCL d)

/-- Bytes of a panel. -/
def panelB (d : Cmd) : Nat := 2 ^ dPRL d * 2 ^ dPCL d * brickB (dFmt d)

/-- One past the last byte of the footprint (R123). -/
def footEnd (d : Cmd) : Nat := dBase d + (nPR d - 1) * dPSR d + (nPC d - 1) * dPSC d + panelB d

/-- A descriptor that is defined: KIND is not 0 (R118). -/
def dDefined (d : Cmd) : Bool := dKind d != 0

/-- A descriptor with a reserved bit set (R6). -/
def descRsv (d : Cmd) : Bool := rsvSet d [(511, 460), (207, 22), (3, 2)]

/-- A descriptor whose format code names none (R61). -/
def descFmtBad (d : Cmd) : Bool := (fmtOf (dFmtCode d)).isNone

/-- A descriptor breaks a rule of R124 or R125 (R126). -/
def descBad (d : Cmd) : Bool :=
  dKind d == 3 || dLoc d == 3 ||
  (if dKind d == 2 then
    dLoc d != 0 || dBase d != 0 || dPSC d != 0 || dPSR d != 0 || dRows d != 0 || dCols d != 0 || dPRL d != 0 || dPCL d != 0 ||
      dFill d != 0 || dHostReg d != 0
  else
    dTile d != 0 || (dLoc d != 2 && dHostReg d != 0) || dPRL d > 6 || dPCL d > 6 || dRows d == 0 ||
      dCols d == 0 || dBase d % 64 != 0 || dPSC d % 64 != 0 || dPSR d % 64 != 0 || dPSC d < panelB d ||
      dFill d ≥ 2 ^ fmtBits (dFmt d) || (dLoc d == 0 && footEnd d > 2 ^ 26))

/-- The brick of (r, c) and the position within it: byte address of the brick row, and the column within the brick (R122). -/
def brickRow (d : Cmd) (r c : Nat) : Nat × Nat :=
  let f := dFmt d
  let W := brickW f
  let PR := 2 ^ dPRL d
  let PC := 2 ^ dPCL d
  let rp := r % (16 * PR)
  let cp := c % (W * PC)
  (dBase d + (r / (16 * PR)) * dPSR d + (c / (W * PC)) * dPSC d + ((rp / 16) * PC + cp / W) * brickB f + (rp % 16) * rowB f,
   cp % W)

/-- `element_address` of R122: the first byte of the element's data. -/
def elemAddr (d : Cmd) (r c : Nat) : Nat :=
  let (a, j) := brickRow d r c
  match dFmt d with
  | .e2m1 => a + 17 * (j / 32) + (j % 32) / 2
  | .e3m2 | .e2m3 => a + 25 * (j / 32) + 3 * ((j % 32) / 4)
  | f => a + j * (fmtBits f / 8)

/-- Bytes read for one element: 3 for FP6 groups. -/
def elemBytes (f : Fmt) : Nat := match f with | .e2m1 => 1 | .e3m2 | .e2m3 => 3 | f => fmtBits f / 8

/-- The byte of the scale of (r, c)'s block (R121). -/
def scaleAddr (d : Cmd) (r c : Nat) : Nat :=
  let (a, j) := brickRow d r c
  match dFmt d with
  | .e2m1 => a + 17 * (j / 32) + 16
  | _ => a + 25 * (j / 32) + 24

/-- Where the element's bits lie within the bytes at its address: first bit and width. -/
def elemBits (f : Fmt) (c : Nat) : Nat × Nat :=
  match f with
  | .e2m1 => (4 * (c % 2), 4)
  | .e3m2 | .e2m3 => (6 * (c % 4), 6)
  | f => (0, fmtBits f)

/-- (r, c) lies within the declared extents. -/
def inExt (d : Cmd) (r c : Nat) : Bool := r < dRows d && c < dCols d

/-- The code of element (r, c) through a byte reader; FILL outside the extents (R130). -/
def elemCode (rd : Nat → Byte) (d : Cmd) (r c : Nat) : Nat :=
  if !inExt d r c then dFill d % 2 ^ fmtBits (dFmt d) else
  let f := dFmt d
  let a := elemAddr d r c
  let v := ofLe ((List.range (elemBytes f)).map fun i => rd (a + i))
  let (lo, w) := elemBits f c
  (v >>> lo) % 2 ^ w

/-- The scale byte that applies to (r, c): the stored one where the block holds a valid element, else 0x7F (R130). -/
def elemScale (rd : Nat → Byte) (d : Cmd) (r c : Nat) : Nat :=
  if inExt d r (c - c % 32) then (rd (scaleAddr d r c)).toNat else 0x7F

/-- The value of element (r, c), block scale applied (R32). -/
def elemVal (rd : Nat → Byte) (flush : Bool) (d : Cmd) (r c : Nat) : Val :=
  let v := readCode (dFmt d) flush (elemCode rd d r c)
  if fmtBlock (dFmt d) then scaleE8 (elemScale rd d r c) v else v

/-- The bytes an element occupies, as addresses. -/
def elemAddrs (d : Cmd) (r c : Nat) : List Nat :=
  let f := dFmt d
  ((List.range (elemBytes f)).map (elemAddr d r c + ·)) ++ (if fmtBlock f then [scaleAddr d r c] else [])

/-- The byte writes that store code `v` at (r, c), given the bytes now there (R131: unwritten bits keep their value). -/
def elemStore (rd : Nat → Byte) (d : Cmd) (r c v : Nat) : List (Nat × Byte) :=
  let f := dFmt d
  let a := elemAddr d r c
  let n := elemBytes f
  let old := ofLe ((List.range n).map fun i => rd (a + i))
  let (lo, w) := elemBits f c
  let new := old - (((old >>> lo) % 2 ^ w) <<< lo) + ((v % 2 ^ w) <<< lo)
  -- bytes whose bits do not change are not written
  ((leBytes n new).zipIdx.map fun (b, i) => (a + i, b)).filter fun (x, b) => !fmtBlock f || rd x != b

/-! ## Tile-table entries (R127, R128) -/

def tBound (e : Cmd) : Bool := fld e 0 0 == 1
def tHalf (e : Cmd) (h : Bool) : Nat := if h then fld e 153 128 else fld e 121 96
def tStrip (e : Cmd) (h : Bool) : Nat := if h then fld e 217 192 else fld e 185 160
def tCap (e : Cmd) : Nat := fld e 239 224

def halfBytes (cap : Nat) : Nat := 2048 * cap
def stripBytes (cap : Nat) : Nat := 16 * cap + 4096 * ((cap + 511) / 512)

/-- Two byte ranges (start, length) overlap. -/
def overlaps (a b : Nat × Nat) : Bool := a.1 < b.1 + b.2 && b.1 < a.1 + a.2 && 0 < a.2 && 0 < b.2

/-- Some two ranges of a list overlap. -/
def anyOverlap : List (Nat × Nat) → Bool
  | [] => false
  | a :: l => l.any (overlaps a) || anyOverlap l

/-- A tile-table entry with a reserved bit set (R6). -/
def tileRsv (e : Cmd) : Bool := rsvSet e [(511, 240), (223, 218), (191, 186), (159, 154), (127, 122), (95, 1)]

/-- The entry breaks R128 or a field rule of R127. -/
def tileBad (e : Cmd) : Bool :=
  let cap := tCap e
  let rs := [(tHalf e false, halfBytes cap), (tHalf e true, halfBytes cap), (tStrip e false, stripBytes cap),
    (tStrip e true, stripBytes cap)]
  cap == 0 || cap > 16384 || tHalf e false % 2048 != 0 || tHalf e true % 2048 != 0 || tStrip e false % 64 != 0 ||
  tStrip e true % 64 != 0 || anyOverlap rs || rs.any fun (a, n) => a + n > 2 ^ 26

/-! ## Hod addresses (R160) -/

/-- A place a Hod or the Rigger names: a Pallet, partition HBM, or a host region. -/
def aLoc (a : Nat) : Nat := nfld a 49 48

/-- The address breaks R160: LOC 0b11, or a bit shown as zero set. -/
def addrBad (a : Nat) : Bool :=
  match aLoc a with
  | 0 => nfld a 47 29 != 0
  | 1 => nfld a 47 41 != 0
  | 2 => false
  | _ => true

def aCourse (a : Nat) : Nat := nfld a 28 26
def aPallet (a : Nat) : Nat := nfld a 25 0
def aHbm (a : Nat) : Nat := nfld a 40 0
def aRegion (a : Nat) : Nat := nfld a 47 36
def aOff (a : Nat) : Nat := nfld a 35 0

/-- A Pallet address in the encoding of R160. -/
def palletAddr (course off : Nat) : Nat := place 26 course + off
/-- A partition HBM address in the encoding of R160. -/
def hbmAddr (p : Nat) : Nat := place 48 1 + p
/-- A host address in the encoding of R160. -/
def hostAddr (reg off : Nat) : Nat := place 48 2 + place 36 reg + off

end Sys2Proof.Machine
end

