-- ==== Sys2Proof/Machine/State.lean ====
section
/-! DEFINITION. The state of the block as plain data: every register, table, queue, counter and record the spec gives the
module, and the queue of waiting commands. A docstring names the rule of spec/ and the value at reset. "log n" is a row of the
assumption log. Registers of the object dictionary (16) that are RW or S stand in `Dict.vals` under their index and sub-index,
with the table's default where nothing is stored; counting objects stand in `Dict.ctr` the same way. -/

namespace Sys2Proof.Machine

open Sys2Proof

/-! ## Stops -/

/-- Why the module stops with no next state. -/
inductive Fault where
  /-- Raised by OVER_VOLTAGE_TRIP for an input above 60.0 V: outside the absolute maximum of R429 and R480, where damage is not
  excluded. Safe: nothing is claimed of the module afterwards. -/
  | absoluteMaximum
  deriving DecidableEq, Repr

/-- Why a command has no meaning. -/
inductive Refusal where
  /-- A command whose meaning is not written. Raised by no arm of this model. Safe. -/
  | notModelled (mnemonic : String)
  deriving DecidableEq, Repr

/-! ## Memory -/

/-- A sparse byte memory: `cells` in the canonical form of `Mem.wf` (Machine/Ops.lean), and the generation of its undefined
contents (0: unlisted bytes read 0, log 4; n: unlisted bytes read as the free bytes of generation n, R437). -/
structure Mem where
  gen : Nat
  cells : List Host.Cell
  deriving DecidableEq, Repr

/-- An empty memory of generation 0. -/
def Mem.empty : Mem := ⟨0, []⟩

/-! ## Outcomes of commands -/

/-- The class of a completion record (R215). -/
inductive Cls where
  | ok | okRetried | abortedStroke | rejected | failed
  deriving DecidableEq, Repr

/-- The reasons of R219. `none` is code 0. -/
inductive Reason where
  | none | reservedSet | badOpcode | badField | badFormat | strictFormat | badRounding | badRows | badDesc | longSum
  | outOfBounds | blockSplit | aliased | selfOverlap | fixedWrite | coarseShort | adderRegion | hostRegion
  | tileState | tileShared | crewState | strokeOrder | strokeExhausted | programDigest | accumScope
  | checkFailed | palletUe | hbmUe | hodInterrupted | hostFault | programFault | resetLost
  | failedCommand | replayLimit | crewDissolved
  deriving DecidableEq, Repr

/-- What a completion record says of a command beside its identity (R215). -/
structure Res where
  cls : Cls
  reason : Reason
  flags : FlagByte
  widened : Bool
  part : Bool
  d0 : U64
  d1 : U64
  deriving DecidableEq, Repr

/-- OK with nothing else to say. -/
def Res.okay : Res := ⟨.ok, .none, 0, false, false, 0, 0⟩

/-- Who issued a unit command: a control core of an attempt (R231), a stream entry (R208), or the Cox for a layer (R314). -/
inductive Issuer where
  | core (crew : Fin 16) (attempt : Nat) (cluster : Fin 4) (core : Fin 8) (seq : Nat)
  | stream (f : Fin 9) (s : Fin 64) (seq : BitVec 64)
  | cox (p : Fin 8) (layer : Nat)
  deriving DecidableEq, Repr

/-- A command issued to a unit's queue, with the copies of R119. -/
structure UnitCmd where
  /-- OPCODE, bits [7:0] of every map. -/
  op : Byte
  word : Cmd
  iss : Issuer
  /-- Descriptor slots named, copied at issue (R119). -/
  descs : List (Nat × Cmd)
  /-- Tile handles named and their table entries, copied at issue (R119, R90). -/
  tiles : List (Nat × Cmd)
  /-- The effect has been carried out. -/
  run : Bool
  res : Res
  /-- EVENT signalled at retirement (R223). -/
  ev : Nat
  /-- The command was re-executed after a part fault (R177). -/
  retried : Bool
  /-- Its place in the tile order of its Course (R90). -/
  order : Nat
  /-- What it waits for: 0 nothing, 1 a tile (R90), 2 a range registered by an MM (R57), 3 a waiting write of a host region it names
  (R178). -/
  blocked : Nat
  /-- Host region entries it names with writes that came before it and still wait, and how many of each (R178). -/
  after : List (Nat × Nat)
  /-- What its effect wrote, position by position: each place with the byte it held before (R12, R177). -/
  wrote : List (List (Nat × Byte))
  deriving DecidableEq, Repr

/-! ## Course (03, 04) -/

/-- A weight tile in a buffer of every cell (R52, R55, R56): what it was loaded from and its codes, lane by lane. -/
structure WTile where
  fmt : Nat
  slot : Nat
  k0 : Nat
  n0 : Nat
  strict : Bool
  /-- Lane n's weight codes by K index of the pass. -/
  codes : List (List Nat)
  /-- Lane n's block scales (R52); empty for formats without. -/
  scales : List (List Nat)
  /-- Pallet bytes of the source region: first and one past the last (R56, log 11). -/
  lo : Nat
  hi : Nat
  /-- The source as the command that loaded the tile named it: its copy of the descriptor (R119). -/
  desc : Cmd
  /-- Neither the source region nor the descriptor slot has been written since (R56). -/
  live : Bool
  deriving DecidableEq, Repr

/-- The operand class of a sum (R88). -/
inductive AccClass where
  | exact | chained | integer | strict
  deriving DecidableEq, Repr

/-- The 64-byte state record of a tile (R88), its table entry (R127) and its ownership (R91). -/
structure Tile where
  /-- Tile-table entry, 512 bits; reset 0 (R127, BOUND = 0). -/
  entry : Cmd
  /-- Initialised since the last function reset or table store (R89); reset false. -/
  init : Bool
  /-- tile.passes; reset 0. -/
  passes : Nat
  /-- tile.widened; reset false. -/
  widened : Bool
  /-- 16-bit accumulation mode at INIT; reset false. -/
  acc16 : Bool
  /-- Operand class at INIT; reset exact. -/
  cls : AccClass
  /-- Rows written at INIT; reset 0. -/
  rows : Nat
  /-- Lanes that took part in the last cleared pass: partials of lanes beyond count as +0 (R58); reset 0. -/
  lanes : Nat
  /-- BROKEN; reset false. -/
  broken : Bool
  /-- CURRENT: the half holding the last cleared pass; reset half 0. -/
  current : Bool
  /-- Owning stream (function, stream); reset none (R91). -/
  owner : Option (Fin 9 × Fin 64)
  /-- A command of the owner on the tile has not retired (R91); reset false. -/
  inUse : Bool
  /-- Events and counts that commands of the owner signalled since its last command on the tile retired (R91 b); reset none. -/
  evs : List (Nat × Nat)
  /-- The owner completed a FENCE.DEVICE or FENCE.CREW after that command (R91 a); reset true. -/
  fenced : Bool
  /-- A retired MM handed the tile to the Rigger, not yet read (R287): handle, A_ROW0, N0, columns; reset none. -/
  sendon : Option (Nat × Nat × Nat × Nat)
  deriving DecidableEq, Repr

def Tile.unbound : Tile :=
  ⟨0, false, 0, false, false, .exact, 0, 0, false, false, none, false, [], true, none⟩

/-- A first-offender event of a pass: (ROW, LANE, CELL, KIND) of R96. -/
structure Offence where
  row : Nat
  lane : Nat
  cell : Nat
  kind : Nat
  deriving DecidableEq, Repr

/-- Where a Course stands in its oldest MM. -/
inductive CourseStage where
  /-- The weight tile of the pass is not in a buffer yet. -/
  | load
  /-- The pass runs. -/
  | pass
  /-- The pass has ended and waits for its verdict. -/
  | verdict
  /-- Dispatch has stopped for a lane substitution of R71. -/
  | subst
  deriving DecidableEq, Repr

/-- Attribution of a failing verdict (R70). -/
inductive Attr where
  | lane (n : Nat)
  | sum
  | unlocalised
  deriving DecidableEq, Repr

/-- A Course with its descriptor and tile tables. -/
structure Course where
  /-- In service (R420); reset true. -/
  inService : Bool
  /-- Lane map: 514 physical lanes for L0 to L511, SUM, MAG (R51); reset identity (log 5). -/
  laneMap : List Nat
  /-- Physical lanes out of the inventory (R72, R415); reset none. -/
  badLanes : List Nat
  /-- Suspect lanes, 0x6100 + n:02 (R71, R74); reset 0. -/
  suspects : Nat
  /-- Pending substitutions: logical lanes, oldest first (R72); reset none. -/
  substs : List Nat
  /-- Check enable, 0x6100 + n:20 (R73); reset true. -/
  check : Bool
  /-- The tolerance margin of the pass in progress: the value committed at 0x6100 + n:21 when it began (R74); reset 64. -/
  tau : Nat
  /-- Some lane delivered another code in the ended pass than a lane that computes correctly (R67); reset false. -/
  wrong : Bool
  /-- Sticky flags, 0x6100 + n:10 (R50); reset 0. -/
  sticky : FlagByte
  /-- First-offender record, 0x6100 + n:40, 256 bits (R94); reset 0 (VALID 0). -/
  offender : BitVec 256
  /-- Descriptor slots that differ from their undefined contents, by slot number (R118); reset none. -/
  descs : List (Nat × Cmd)
  /-- The generation of their undefined contents (R437): in generation 0 an unlisted slot is 0, KIND 0 (log 4); reset 0. -/
  descGen : Nat
  /-- The 64 tile handles (R88, R127); reset unbound. -/
  tiles : Vector Tile 64
  /-- Issued MMs and LOADWs in dispatch order (R56); reset none. -/
  queue : List UnitCmd
  /-- Stage of the oldest MM; reset load. -/
  stage : CourseStage
  /-- Current pass of the oldest MM, from 1; reset 1. -/
  pass : Nat
  /-- Attribution of the first failing verdict of the pass (R71); reset none. -/
  firstFail : Option Attr
  /-- The pass runs again after a substitution (R71); reset false. -/
  afterSubst : Bool
  /-- The command will end OK_RETRIED (R71); reset false. -/
  retried : Bool
  /-- Active weight buffers (R52); reset none. -/
  active : Option WTile
  /-- Loading weight buffers (R52); reset none. -/
  loading : Option WTile
  /-- Flags of the ended pass (R49); reset 0. -/
  passFlags : FlagByte
  /-- Smallest offence of the ended pass (R96); reset none. -/
  passOffence : Option Offence
  /-- Flags of the command's cleared passes (R49); reset 0. -/
  cmdFlags : FlagByte
  /-- The command ran a widened pass (R86); reset false. -/
  cmdWidened : Bool
  /-- A program's MM whose next pass waits behind a Cox MM (R314): its pass, flags, WIDENED and OK_RETRIED so far; reset none. -/
  parked : Option (Nat × FlagByte × Bool × Bool)
  /-- Next place in the tile order (R90); reset 0. -/
  order : Nat
  /-- Stores to tile-table entries that wait for their tile, with the cluster and the logical core that waits with each (R119, R128);
  reset none. -/
  stores : List (Fin 4 × Fin 8 × Nat × Cmd)
  deriving DecidableEq, Repr

def Course.init : Course :=
  { inService := true, laneMap := List.range 514, badLanes := [], suspects := 0, substs := [], check := true, tau := 64, wrong := false, sticky := 0,
    offender := 0, descs := [], descGen := 0, tiles := Vector.replicate 64 Tile.unbound, queue := [], stage := .load, pass := 1,
    firstFail := none, afterSubst := false, retried := false, active := none, loading := none, passFlags := 0,
    passOffence := none, cmdFlags := 0, cmdWidened := false, parked := none, order := 0, stores := [] }

/-! ## Trowel, Pallet, Hod (05, 06, 08) -/

structure Trowel where
  /-- Sticky flags, 0x6200:10 + n (R50); reset 0. -/
  sticky : FlagByte
  /-- Spare lanes remaining, 0x6200:20 + n (R112); reset 64. -/
  spares : Nat
  /-- Working lanes (R98, R420); reset 2,048. -/
  lanes : Nat
  /-- Issued commands in dispatch order (R111); reset none. -/
  queue : List UnitCmd
  deriving DecidableEq, Repr

def Trowel.init : Trowel := ⟨0, 64, 2048, []⟩

structure Pallet where
  /-- 64 MiB of contents (R113); reset empty, unlisted 0 (log 4). -/
  mem : Mem
  /-- Bank map: physical banks of the 128 logical ones (R113); reset identity (log 5). -/
  bankMap : List Nat
  /-- Physical banks out of the inventory (R415); reset none. -/
  badBanks : List Nat
  /-- A freed bank waiting for its test (R415); reset none. -/
  freed : Option Nat
  /-- Offsets of 8-byte words with an uncorrectable error (R116); reset none. -/
  ue : List Nat
  /-- Offsets of 8-byte words with a single-bit error, not read since (R116); reset none. -/
  ce : List Nat
  /-- Banks Pointing is asked to test (R116); reset none. -/
  testAsked : List Nat
  deriving DecidableEq, Repr

def Pallet.init : Pallet := ⟨Mem.empty, List.range 128, [], none, [], [], []⟩

structure Hod where
  /-- Issued commands in dispatch order, at most 256 (R176); reset none. -/
  queue : List UnitCmd
  /-- Issue stores that wait for room (R176); reset none. -/
  waiting : List UnitCmd
  deriving DecidableEq, Repr

def Hod.init : Hod := ⟨[], []⟩

/-! ## HBM (07) -/

/-- What has gone wrong with a row of a pseudo-channel (R155, R156): a corrected or uncorrectable event and its time. -/
structure RowEvent where
  pc : Nat
  bank : Nat
  row : Nat
  ue : Bool
  time : U64
  /-- The row has been repaired since (R155). -/
  cured : Bool
  deriving DecidableEq, Repr

structure Stack where
  /-- Stack state, 0x5100 + s:01: 0 in service, 1 RETIRE_PENDING, 2 retired (R159); reset 0. -/
  state : Nat
  /-- Pseudo-channel map, 0x5100 + s:02 (R156); reset identity. -/
  pcMap : List Nat
  /-- Coarse windows taken out of the pool by an exchange (R156); reset none. -/
  goneWindows : List Nat
  /-- Last uncorrectable record, 0x5100 + s:12, 32 bytes (R493); reset 0 (log 5). -/
  lastUe : BitVec 256
  /-- Repairs made, (pseudo-channel, bank, row): each has taken a spare row of its bank (R155, R156); 0x5100 + s:13 counts the rows;
  reset none (log 5). -/
  repaired : List (Nat × Nat × Nat)
  /-- Error events of rows (R155); reset none. -/
  events : List RowEvent
  /-- A retirement asked for at 0x5100 + s:03 (R157); reset false. -/
  retireAsked : Bool
  /-- Pointing's activities on the stack are suspended for margining (R158); reset false. -/
  suspended : Bool
  deriving DecidableEq, Repr

def Stack.init : Stack := ⟨0, List.range 64, [], 0, [], [], false, false⟩

/-- One regulator's buckets (R150): guarantee tokens, cap tokens in bytes, time of the last refill. -/
structure Bucket where
  part : Fin 8
  stack : Fin 20
  guar : Nat
  cap : Nat
  time : U64
  deriving DecidableEq, Repr

/-- A request the regulator holds back (R150): of a partition, or of the device itself and PF0 (R190). -/
structure RegWait where
  part : Option (Fin 8)
  stack : Fin 20
  bytes : Nat
  /-- Time it has waited on the cap bucket (R458), and when that was last looked at. -/
  waited : Nat
  seen : U64
  deriving DecidableEq, Repr

structure Hbm where
  /-- Contents of each stack by place (stack, pseudo-channel, byte); reset empty, unlisted 0 (log 4). -/
  mem : Vector Mem 20
  /-- Contents of the reservations, by stack × 2^29 + offset (R144); reset empty, unlisted 0 (log 4). -/
  dev : Mem
  /-- Physical places of uncorrectable 32-byte sectors (R153); reset none. -/
  ue : List Nat
  /-- Physical places of 32-byte sectors with one erroneous symbol that no read has corrected yet (R152); reset none. -/
  ce : List Nat
  /-- Coarse set in force, 64 bits (R140, R142); reset 0xC000_0000_0000_0000. -/
  coarse : BitVec 64
  /-- log₂ of the interleave granule in force (R141, R142); reset 12. -/
  granule : Nat
  /-- Stack numbers in service, ascending (R141); reset 0 to 19. -/
  inService : List Nat
  stks : Vector Stack 20
  /-- Buckets used since reset; one not listed is full (R150); reset none. -/
  buckets : List Bucket
  /-- Requests that wait for tokens, oldest first (R150); reset none. -/
  waits : List RegWait
  /-- Margining state, 0x5300:05 (R158); reset 0. -/
  marginState : Nat
  /-- Margining stack, 0x5300:01 (R158); reset 0xFF. -/
  marginStack : Nat
  /-- Eye map, 0x5300:06: U16 counts in map order (R158); reset none. -/
  eyeMap : List (BitVec 16)
  /-- The sweep runs (R158); reset false. -/
  marginRun : Bool
  deriving DecidableEq, Repr

def Hbm.init : Hbm :=
  { mem := Vector.replicate 20 Mem.empty, dev := Mem.empty, ue := [], ce := [], coarse := 0xC000000000000000, granule := 12, inService := List.range 20,
    stks := Vector.replicate 20 Stack.init, buckets := [], waits := [], marginState := 0, marginStack := 0xFF, eyeMap := [],
    marginRun := false }

/-! ## Streams and the host port (09, 10) -/

/-- The state of a stream (R201). -/
inductive SState where
  | disabled | waiting | polling | halted | draining
  deriving DecidableEq, Repr

/-- Why a stream halted (R229). -/
inductive Halt where
  | none | gap | crcStuck | ringFault | ackBad | journalLost
  deriving DecidableEq, Repr

/-- The states of a Crew (R266). -/
inductive CrewState where
  | undefined | forming | running | test | recovering
  deriving DecidableEq, Repr

/-- How far an accepted entry has come. -/
inductive EStage where
  /-- Not started. -/
  | held
  /-- Its WAIT has been satisfied (R221). -/
  | waited
  /-- Started, not finished. -/
  | started
  /-- Finished, not retired. -/
  | finished
  deriving DecidableEq, Repr

/-- An accepted entry (R213): the journalled 128 bytes and its progress marks. -/
structure EntryRun where
  raw : Entry
  stage : EStage
  res : Res
  /-- STROKE of the record, for LAUNCH and EXPORT (R215). -/
  stroke : BitVec 48
  /-- Timebase at the start latch (R464). -/
  tStart : U64
  /-- Values of the latching group's first five counters at the start (R464). -/
  latch : List Nat
  /-- The latching group, its unit and its event codes at the start latch (R464, R467); group 0xFF none. -/
  latchGroup : Nat
  latchUnit : Nat
  latchEvents : List Nat
  /-- A warm reset fell within the interval (R466). -/
  sawReset : Bool
  /-- Timebase at the end latch (R464). -/
  tEnd : U64
  deltas : List U64
  /-- Re-executed (R224). -/
  retried : Bool
  /-- FENCE.CREW: the Crew's state and epoch at its start (R222). -/
  fence : Option (CrewState × BitVec 32)
  /-- A DICT that has run: the OP of the request message it read (R224); 0 none. -/
  ran : Nat
  /-- Host region entries it names with writes that came before it and still wait, and how many of each (R178). -/
  after : List (Nat × Nat)
  deriving DecidableEq, Repr

/-- An acceptance batch (R212): up to 16 entries of one journal burst. -/
structure Batch where
  entries : List Entry
  written : Bool
  deriving DecidableEq, Repr

structure Stream where
  /-- State (R201); reset DISABLED. -/
  state : SState
  /-- ACCEPTED (R200); reset 0. -/
  accepted : BitVec 64
  /-- RETIRED (R200); reset 0. -/
  retired : BitVec 64
  /-- HOSTACK (R200); reset 0. -/
  hostack : BitVec 64
  /-- Halt reason, 0x6400 + s:11 (R229); reset none. -/
  halt : Halt
  /-- Halt detail, 0x6400 + s:12; reset 0. -/
  detail : U64
  /-- Poll interval in ns (R210); reset 250. -/
  interval : Nat
  /-- The host-acknowledge word as last read (R210, R218); reset 0. -/
  lastAck : BitVec 64
  /-- What slot E holds with SEQ = E and a wrong CRC, and since when it has (R211); reset none. -/
  bad : Option (Entry × U64)
  /-- Taken entries in acceptance batches, oldest first (R212); reset none. -/
  batches : List Batch
  /-- Accepted entries not yet retired, in order (R217); reset none. -/
  entries : List EntryRun
  /-- Retirement history: records with their sequence numbers, newest first, at most 4,096 (R218); reset none. -/
  history : List (BitVec 64 × BitVec 512)
  /-- Events and counts this stream's commands have waited for (R91 b); reset none. -/
  waits : List (Nat × Nat)
  deriving DecidableEq, Repr

def Stream.init : Stream := ⟨.disabled, 0, 0, 0, .none, 0, 250, 0, none, [], [], [], []⟩

/-- Journal copies (R214). -/
structure Journal where
  /-- Copy A (stack 0) and copy B (stack 10) are whole; reset true. -/
  copyA : Bool
  copyB : Bool
  /-- Copies moved to the reservation of stack 13 (R214); reset false. -/
  movedA : Bool
  movedB : Bool
  deriving DecidableEq, Repr

/-- One MSI-X vector (R187, R194): the message address and data of its table entry, masked, pending bit, pending notifications, time
of the first pending one. -/
structure Vec where
  f : Fin 9
  v : Fin 2048
  addr : BitVec 64
  data : BitVec 32
  masked : Bool
  pba : Bool
  count : Nat
  first : U64
  deriving DecidableEq, Repr

/-- The stream block of the status page (R188). -/
structure PageStream where
  accepted : BitVec 64
  retired : BitVec 64
  hostack : BitVec 64
  sstate : Nat
  halt : Nat
  deriving DecidableEq, Repr

/-- The status page of one function (R188). -/
structure Page where
  /-- GEN; reset 0. -/
  gen : BitVec 64
  /-- TIME; reset 0. -/
  time : U64
  /-- STATE; reset 0 by the map, the state of the module once it is rewritten. -/
  state : Nat
  /-- FUNC: the function's number, written with the page; reset 0 (log 39). -/
  func : Nat
  /-- PART; reset 0xFFFF. -/
  part : Nat
  /-- NUMREV: the numeric revision of 0x100A, written with the page; reset 0 (log 39). -/
  numrev : BitVec 32
  /-- WARMS; reset 0. -/
  warms : Nat
  /-- Blocks of the streams that are not all zero, by stream number. -/
  streams : List (Nat × PageStream)
  deriving DecidableEq, Repr

def Page.init : Page := ⟨0, 0, 0, 0, 0xFFFF, 0, 0, []⟩

/-- The controls of a function that the host programs in the standard's configuration registers (R183, log 39): NumVFs of SR-IOV (PF0),
the payload and request sizes in bytes, and the enables of ATS, PASID and MSI-X with its Function Mask. -/
structure FnCfg where
  numVfs : Nat
  mps : Nat
  mrrs : Nat
  ats : Bool
  pasid : Bool
  msix : Bool
  fmask : Bool
  deriving DecidableEq, Repr

/-- The standard's values after a reset of the function (log 39). -/
def FnCfg.init : FnCfg := ⟨0, 128, 512, false, false, false, false⟩

/-- What a function holds at the host port. -/
structure Func where
  /-- Bootstrap capability body, 256 bits (R196); reset 0. STATE, bits [7:0], is the state of stream 0 and stands there. -/
  dvsec : BitVec 256
  /-- log₂ of the BAR2 size in GiB, 0 to 6 (R187); reset 0. -/
  barLog : Nat
  /-- Reset: the standard's values (log 39). -/
  cfg : FnCfg
  /-- Uncorrectable errors logged in AER, by the standard's bit numbers: 12 poisoned, 15 Completer Abort, 20 Unsupported
  Request (R191); reset 0. -/
  aer : BitVec 32
  page : Page
  /-- Registered host regions that hold something, by number, 256 bits each (R178); reset none. -/
  hostRegions : List (Nat × BitVec 256)
  /-- Streams other than in their reset state, by number (R199); reset none. -/
  streams : List (Nat × Stream)
  /-- Event counters that are not zero (R223); reset none. -/
  events : List (Nat × BitVec 64)
  /-- Pages in the translation cache (R179): address space (0 without a PASID, else PASID + 1) and IOVA ÷ 4,096; reset none. -/
  atc : List (Nat × Nat)
  /-- What the host's IOMMU makes of a page of an address space: the page of host memory, or none where it does not translate, or
  the host answers with Unsupported Request, Completer Abort or poisoned data (R177, R179); a page not listed translates to itself (log 6); reset none. -/
  iommu : List ((Nat × Nat) × Option Nat)
  /-- Collective region entries of the partition that are not zero, 0x7280 + p:01 (R271); reset none. -/
  collRegions : List (Nat × BitVec 128)
  /-- Send-on handles of the partition that are not zero, 0x7290 + p:01 (R286); reset none. -/
  handles : List (Nat × BitVec 128)
  /-- Writes to host region entries that wait for commands naming them, oldest first (R178); reset none. -/
  regionWrites : List (Nat × BitVec 256)
  /-- The same for collective regions (R271) and send-on handles (R286). -/
  collWrites : List (Nat × BitVec 128)
  handleWrites : List (Nat × BitVec 128)
  deriving DecidableEq, Repr

def Func.init : Func := ⟨0, 0, FnCfg.init, 0, Page.init, [], [], [], [], [], [], [], [], [], []⟩

structure HostPort where
  /-- Link up; reset true. -/
  up : Bool
  /-- Link state record, 0x1900:01: rate code (0 to 5), width, FLIT, retimers (R198); reset 64 GT/s x16 FLIT, 1 (log 5). -/
  rate : Nat
  width : Nat
  flit : Bool
  retimers : Nat
  funcs : Vector Func 9
  /-- MSI-X vectors other than in their reset state (R194); reset none: masked (log 7). -/
  vecs : List Vec
  /-- Host memory by the address the IOMMU gives (log 6); reset empty. -/
  mem : Mem
  deriving DecidableEq, Repr

def HostPort.init : HostPort :=
  { up := true, rate := 5, width := 16, flit := true, retimers := 1, funcs := Vector.replicate 9 Func.init, vecs := [],
    mem := Mem.empty }

/-! ## Rigger links (11) -/

/-- A packet or control word the port has to keep: its LSEQ and bytes (R248). -/
structure Kept where
  lseq : BitVec 24
  bytes : List Byte
  deriving DecidableEq, Repr

/-- The state of a Rigger port (R262). -/
inductive PState where
  | down | training | up
  deriving DecidableEq, Repr

/-- A codeword as a lane's receiver hands it on: the physical lane, the far end of its fibre, and the message symbols; none of an
uncorrectable one, which is discarded whole (R239). -/
structure LaneCode where
  pl : Fin 9
  far : Fibre
  word : Option Codeword
  deriving DecidableEq, Repr

/-- A packet that waits at a port (R248, R249, R291): relayed or not, its bytes without LSEQ and CRC, and the weight of its Crew and
the age of its command as they were at the command's issue (R296). -/
structure Queued where
  hop : Bool
  raw : List Byte
  weight : Nat
  age : Nat
  deriving DecidableEq, Repr

structure Port where
  /-- Port state (R262); reset DOWN. -/
  state : PState
  /-- Logical lanes of the port out of service (R240, R262): a working lane that has failed with no spare; reset none. -/
  dark : List Nat
  /-- Peer MID from ALIGN words; reset none (0xFFFF_FFFF). -/
  peer : Option Nat
  /-- Next LSEQ to send (R242); reset 0. -/
  txSeq : BitVec 24
  /-- Expected LSEQ (R246); reset 0. -/
  rxSeq : BitVec 24
  /-- Retransmission buffer, oldest first (R248); reset empty. -/
  kept : List Kept
  /-- Slots reserved at the peer in classes 0 and 1 (R249); reset 0. -/
  used0 : Nat
  used1 : Nat
  /-- The peer's CRED0 and CRED1 last seen (R244); reset 0. -/
  cred0 : BitVec 16
  cred1 : BitVec 16
  /-- Slots freed in the own receive classes since link-up (R244); reset 0. -/
  freed0 : BitVec 16
  freed1 : BitVec 16
  /-- Consecutive replay timeouts without progress (R248); reset 0. -/
  timeouts : Nat
  /-- Last NAK: its expected number and time (R246); reset none. -/
  lastNak : Option (BitVec 24 × U64)
  /-- An acceptance not yet acknowledged (R247); reset false. -/
  ackOwed : Bool
  /-- Slots accepted since the last control word (R247); reset 0. -/
  slotsIn : Nat
  /-- Codeword counts of the four logical lanes: those of ALIGN words, and the codewords that have come since (R240); reset 0. -/
  counts : List U64
  /-- When the port last came UP: the own lanes count their codewords from there (R240, log 43); reset 0. -/
  upAt : U64
  /-- The own codeword count in the last ALIGN word sent on each logical lane (R240); reset 0. -/
  aligned : List Nat
  /-- Codewords of each logical lane that wait for those before them in the port's slot stream (R240); reset none. -/
  lanesIn : List (List LaneCode)
  /-- Codewords the slot stream has taken since link-up (R240); reset 0. -/
  turn : Nat
  /-- Codewords of each logical lane still to come that a swap has read from the other lane already (R252); reset 0. -/
  skip : List Nat
  /-- Data slots of the packet that is arriving (R241); reset none. -/
  asm : List Byte
  /-- The peer's TDIST last seen (R259); reset 0xF. -/
  tdist : Nat
  /-- T_SEND of the last IDLE received, and its arrival (R258); reset none. -/
  lastIdle : Option (U64 × U64)
  /-- Packets waiting for credit or buffer (R248, R249); reset none. -/
  waiting : List Queued
  /-- Deficits of Crews by CTAG, the Crew the round serves, and the one it served last (R291); reset 0, none, 0. -/
  deficits : List (Nat × Nat)
  serving : Option Nat
  served : Nat
  deriving DecidableEq, Repr

def Port.init : Port :=
  { state := .down, dark := [], peer := none, txSeq := 0, rxSeq := 0, kept := [], used0 := 0, used1 := 0, cred0 := 0,
    cred1 := 0, freed0 := 0, freed1 := 0, timeouts := 0, lastNak := none, ackOwed := false, slotsIn := 0, counts := [0, 0, 0, 0],
    upAt := 0, aligned := [0, 0, 0, 0], lanesIn := [[], [], [], []], turn := 0, skip := [0, 0, 0, 0], asm := [],
    tdist := 15, lastIdle := none, waiting := [], deficits := [], serving := none, served := 0 }

/-- A lane swap in progress (R252). -/
structure Swap where
  lane : Nat
  spare : Nat
  initiator : Bool
  /-- Phase reached: 1 proposed, 2 both trained, 3 switching. -/
  phase : Nat
  myReady : Bool
  peerReady : Bool
  at_ : U64
  myDone : Bool
  peerDone : Bool
  /-- A repair, not a recalibration (R253, R417). -/
  repair : Bool
  /-- The switch codeword count K; codewords from K on that the old lane and the spare have brought and that await comparison, and
  how many in a row were identical (R252, R253). -/
  from_ : Nat
  old : List LaneCode
  new : List LaneCode
  same : Nat
  deriving DecidableEq, Repr

/-- What ALIGN words have shown of a physical lane: the peer's MID and the far end of the fibre (R236). -/
structure Cable where
  pl : Fin 9
  mid : Nat
  far : Fibre
  deriving DecidableEq, Repr

structure Bank where
  /-- Physical lanes of the eight logical lanes (R236); reset identity (log 5). -/
  map : List Nat
  /-- The spare physical lane, if any is left; reset 8. -/
  spare : Option Nat
  /-- The swap in progress; reset none. -/
  swap : Option Swap
  /-- Logical lanes that wait for a swap, with whether it is a repair (R253); reset none. -/
  waiting : List (Nat × Bool)
  /-- Physical lanes that have failed; reset none. -/
  failed : List Nat
  /-- Cables seen (R236); reset none. -/
  cables : List Cable
  /-- Cabled against R236 (R253); reset false. -/
  miscabled : Bool
  /-- Symbols corrected and uncorrectable codewords on each physical lane in the running second, and consecutive bad
  seconds (R416); reset 0. -/
  syms : List Nat
  unc : List Nat
  badSecs : List Nat
  second : Nat
  deriving DecidableEq, Repr

def Bank.init : Bank :=
  { map := List.range 8, spare := some 8, swap := none, waiting := [], failed := [], cables := [], miscabled := false,
    syms := List.replicate 9 0, unc := List.replicate 9 0, badSecs := List.replicate 9 0, second := 0 }

/-- A laser-supply input (R237): the group it feeds (0xFF none), its power in µW, its power at start-up, and whether it has
failed. -/
structure Laser where
  group : Nat
  power : Nat
  ref : Nat
  failed : Bool
  deriving DecidableEq, Repr

/-- The timebase servo (R258 to R261). -/
structure TimeSync where
  /-- 0 free-run, 1 locking, 2 locked, 3 HOLDOVER, 4 MASTER_CONFLICT; reset 0. -/
  state : Nat
  /-- TDIST; reset 0xF. -/
  tdist : Nat
  /-- Upstream port; reset none. -/
  upstream : Option (Fin 16)
  /-- Last θ in ns; reset 0. -/
  theta : Int
  /-- Locked once since the cold start (R260); reset false. -/
  lockedOnce : Bool
  /-- Offset still to be slewed away, and ticks since the last slewed nanosecond (R260); reset 0. -/
  slew : Int
  phase : Nat
  deriving DecidableEq, Repr

structure Rigger where
  ports : Vector Port 16
  banks : Vector Bank 8
  lasers : List Laser
  sync : TimeSync
  /-- Accepted packets that wait to write into a Pallet range an MM registered, with their ports (R57, R271); reset none. -/
  held : List (Fin 16 × List Byte)
  deriving DecidableEq, Repr

/-! ## Crews and the Finish (12, 14) -/

/-- A request at the Crew control that waits for a Stroke boundary (R267). -/
inductive CrewReq where
  | run | test
  deriving DecidableEq, Repr

/-- Bytes received for one chunk of a message (R243, R276): the sender, level and phase, the chunk's number, the bytes landed,
the running checksum, the checksum sent with ENDC, and the port its last packet came by. -/
structure Landed where
  src : Nat
  level : Nat
  down : Bool
  chunk : Nat
  bytes : Nat
  sum : BitVec 64
  endc : Option (BitVec 64)
  port : Fin 16
  deriving DecidableEq, Repr

/-- What a Rigger command takes from its Crew at issue: the chunk size, log2 of bytes, the weight, and its place in the order of issue
(R291, R296); of a CREWOP that has begun once, the numbers of its reduction and ALLTOALLV in the attempt (R338, R350). -/
structure Terms where
  chunk : Nat
  weight : Nat
  age : Nat
  begun : Option (Nat × Nat)
  deriving DecidableEq, Repr

/-- Progress of one CREWOP in flight (R274 to R287). -/
structure CollOp where
  /-- k of R276, from 1 within the epoch. -/
  num : Nat
  word : Cmd
  iss : Issuer
  /-- The Crew's settings at its issue, and its age (R291, R296). -/
  terms : Terms
  /-- Runs ALLTOALLV in padded mode (R266). -/
  padded : Bool
  /-- Reduction number of R338; 0 for others. -/
  red : Nat
  /-- Elements supplied by send-on (R287), by element index. -/
  supplied : List (Nat × BitVec 32)
  /-- The whole source is there (R338). -/
  sourced : Bool
  /-- Peers that hold a READY of ours, and whose READY we hold (R292). -/
  readyFrom : List Nat
  /-- Messages received. -/
  landed : List Landed
  /-- COUNTS received: rank, rows, included ranks (R284, R293). -/
  counts : List (Nat × Nat × Nat)
  /-- Level of the upward phase; 4 once it is over; then the level of the downward phase. -/
  level : Nat
  up : Bool
  /-- Binary32 or INT32 codes of the own part so far (R278). -/
  acc : List (BitVec 32)
  /-- Included ranks in it. -/
  included : Nat
  /-- Bytes written to RBUF. -/
  written : Nat
  /-- Written ranges of RBUF and WORK: place and bytes (R270). -/
  wrote : List (Nat × Nat)
  /-- Slots of the own part in the order in which they came, the own one among them: rank, level (R282). -/
  arrived : List (Nat × Nat)
  /-- Chunks sent of upward messages not sent whole yet: rank, level, chunk (R287). -/
  chunksSent : List (Nat × Nat × Nat)
  /-- Rows dropped (R285). -/
  dropped : Nat
  /-- BARRIER: peers that have risen at each level, and the level released. -/
  risen : List (Nat × Nat)
  /-- Own result complete. -/
  complete : Bool
  /-- Messages sent: rank (the own one for what a rank writes into its own slot), level, downward phase. -/
  sent : List (Nat × Nat × Bool)
  /-- Retired; kept while the attempt lasts for slots of cut ranks that arrive late (R339). -/
  retired : Bool
  failed : Bool
  res : Res
  deriving DecidableEq, Repr

/-- A SEND or a posted RECV (R289). -/
structure P2p where
  send : Bool
  word : Cmd
  iss : Issuer
  terms : Terms
  /-- Message number: the i-th for its peer and tag within the epoch. -/
  num : Nat
  /-- Capacity in the CREDIT held (R289). -/
  credit : Option Nat
  landed : Nat
  /-- Landed ranges of BUF: place and bytes (R270). -/
  wrote : List (Nat × Nat)
  chunks : List Landed
  /-- Bytes of the whole message as its sender announced them (log 23). -/
  total : Option Nat
  /-- Since when it waits: for a CREDIT, or for its first byte (R290). -/
  since : U64
  deriving DecidableEq, Repr

/-- One control core's part of a program (R233, R234). -/
structure CoreRun where
  cluster : Fin 4
  index : Fin 8
  /-- Logical core of the cluster that runs it. -/
  lcore : Nat
  /-- Commands issued in the attempt (R231). -/
  issued : Nat
  /-- SEQ of the last record consumed (R234). -/
  consumed : Nat
  ended : Bool
  /-- PC, x0 to x31 and f0 to f31 as the start leaves them (R233). -/
  pc : U64
  xregs : List U64
  fregs : List U64
  /-- Lines of 64 bytes in its instruction and data caches, last used first (R22); a start leaves none (R455, log 20). -/
  icache : List Nat
  dcache : List Nat
  deriving DecidableEq, Repr

/-- A layer the attempt updated (R329, R349). -/
structure LayerUpd where
  layer : Nat
  lr : BitVec 32
  scale : BitVec 32
  desc : BitVec 1024
  digest : BitVec 64
  sumsq : BitVec 32
  /-- LSTATUS of R349. -/
  status : Byte
  deriving DecidableEq, Repr

/-- A layer's union of flags, WIDENED bit and first offender in the attempt (R328, R349). -/
structure LayerAttr where
  layer : Nat
  flags : FlagByte
  widened : Bool
  /-- First offender and its selection key (COURSE, TAG, PASS, ROW, LANE, CELL, KIND) (R96). -/
  offender : Option (List Nat × BitVec 256)
  deriving DecidableEq, Repr

/-- Values an update leaves beside a layer's state record until the Finish (R304). -/
structure LayerPend where
  layer : Nat
  srec : BitVec 512
  flip : Bool
  deriving DecidableEq, Repr

/-- One attempt of a Stroke on this member (R323). -/
structure Attempt where
  number : Nat
  epoch : BitVec 32
  /-- Footprint base header values (R232): UCQADDR, HEADADDR, UCQLOG, ENTRY, FOOT. -/
  ucqAddr : Nat
  headAddr : Nat
  ucqLog : Nat
  entryPc : Nat
  foot : Nat
  /-- Cluster memory of the program on clusters 0 to 3 (R230). -/
  mem : List Mem
  cores : List CoreRun
  /-- State of the Crew the attempt started in (R266). -/
  start : CrewState
  /-- The program has ended on every core, or faulted. -/
  ended : Bool
  faulted : Bool
  /-- The VOTE issued, with its issuer; none before (R328). -/
  voteCmd : Option (Cmd × Issuer)
  /-- The VOTE has retired. -/
  voteOut : Bool
  /-- The vote has been cast, or counts as cast (R334). -/
  voted : Bool
  /-- Unit commands issued and not yet retired. -/
  inFlight : Nat
  /-- Failures in retirement order: class, reason, abort cause, and the peer MID or address concerned (R328, R347). -/
  fails : List (Cls × Reason × Nat × Nat)
  /-- Port of the last corrupt chunk, 0xFF none (R343). -/
  faultPort : Nat
  flags : FlagByte
  widened : Bool
  layers : List LayerAttr
  updates : List LayerUpd
  pends : List LayerPend
  /-- Layers with HOLD issued and APPLY not yet (R303): layer and the HOLD's word and Σ G². -/
  held : List (Nat × Cmd × BitVec 32)
  /-- Layers named by an UPDATE or HOLD (R307). -/
  named : List Nat
  /-- Single-slot layers written (R305, R326). -/
  singles : List Nat
  seeds : List U64
  chkev : List (BitVec 128)
  nchk : Nat
  pntev : List (BitVec 128)
  npnt : Nat
  /-- Late entries of kinds 3 to 5 (R350), and whether some were not written. -/
  late : List (BitVec 128)
  lateLost : Bool
  /-- Reductions and ALLTOALLVs issued so far (R338, R350). -/
  reductions : Nat
  alltoallvs : Nat
  /-- Granules recorded for undo, as region concatenation offsets ÷ 4,096 (R325). -/
  undo : List Nat
  tStart : U64
  tVote : U64
  user : U64
  deterministic : Bool
  /-- Events its programs have waited for (R91 b), from the LAUNCH entry. -/
  waits : List (Nat × Nat)
  deriving DecidableEq, Repr

/-- The LAUNCH a Crew runs (R207). -/
structure LaunchRun where
  f : Fin 9
  s : Fin 64
  seq : BitVec 64
  body : BitVec 736
  stroke : BitVec 48
  deriving DecidableEq, Repr

/-- The states of R336. -/
inductive FinState where
  | idle | running | voting | unresolved | decided
  deriving DecidableEq, Repr

/-- An entry of the decision log (R331). -/
structure LogEntry where
  stroke : BitVec 48
  attempt : Nat
  decision : Nat
  cause : Nat
  term : BitVec 32
  time : U64
  deriving DecidableEq, Repr

/-- A decision a member holds (R333, R337). -/
structure Decision where
  stroke : BitVec 48
  attempt : Nat
  decision : Nat
  cause : Nat
  term : BitVec 32
  incl : BitVec 64
  included : Nat
  upd : BitVec 64
  faultRank : Nat
  entries : List (BitVec 128)
  time : U64
  deriving DecidableEq, Repr

/-- A slot kept in the deferral area (R339): the Stroke it was cut in, reduction, rank, COUNT, part offset and length, and its
place. -/
structure Deferral where
  stroke : BitVec 48
  red : Nat
  rank : Nat
  count : Nat
  part : Nat
  len : Nat
  off : Nat
  bytes : Nat
  deriving DecidableEq, Repr

/-- The fault-and-cut state of a level-0 group (R338). -/
structure CutState where
  arrived : List Nat
  first : Option U64
  /-- The cut, once fixed or received. -/
  entries : Option (List (BitVec 128))
  deriving DecidableEq, Repr

/-- An EXPORT in progress (R353): the stream entry, its Stroke, and the pinned layers with their descriptors and state records
as they stood at its start. -/
structure ExportRun where
  f : Fin 9
  s : Fin 64
  seq : BitVec 64
  stroke : BitVec 48
  layers : List (Nat × BitVec 1024 × BitVec 512)
  deriving DecidableEq, Repr

structure Crew where
  /-- State, 0x7200 + c:01 (R266); reset UNDEFINED. -/
  state : CrewState
  /-- HS (R268); reset false. -/
  hs : Bool
  /-- Epoch, 32 bits (R268); reset 0. -/
  epoch : BitVec 32
  /-- Highest epoch seen in a HELLO; reset 0. -/
  seen : BitVec 32
  /-- Own rank, 0x7200 + c:07; reset none (0xFFFF_FFFF). -/
  rank : Option Nat
  /-- Membership hash, 0x7200 + c:08 (R265); reset 0. -/
  hash : BitVec 64
  /-- Ranks whose HELLO with the own hash and epoch is held (R268); reset none. -/
  hellos : List Nat
  /-- Pending RUN or TEST (R267); reset none. -/
  req : Option CrewReq
  /-- Last problem, 0x7200 + c:0E: cause, peer MID, time (R296); reset 0, none, 0. -/
  problem : Nat × Option Nat × U64
  /-- Time of the last packet heard from each rank; reset none. -/
  heard : List (Nat × U64)
  /-- Time of the last packet sent to each rank; reset none. -/
  sent : List (Nat × U64)
  /-- Time of the last entry into RECOVERING (R335); reset 0. -/
  since : U64
  /-- CREWOPs issued in the epoch (R276); reset 0. -/
  opNum : Nat
  ops : List CollOp
  p2p : List P2p
  /-- SENDs and RECVs issued in the epoch: send, peer, stage (R289); reset none. -/
  p2pCount : List (Bool × Nat × Nat × Nat)
  /-- CREDITs held before their SEND: rank, stage, capacity; reset none. -/
  credits : List (Nat × Nat × Nat)
  /-- READYs and COUNTS held before their operation is issued: rank, op, rows, included; reset none. -/
  early : List (Nat × Nat × Option (Nat × Nat))
  /-- Rising BARRIER packets for operations not issued yet: rank, operation and level (R293); reset none. -/
  earlyRisen : List (Nat × Nat × Nat)
  /-- Stage bubble times, 64 × ns, 0x7200 + c:24 (R290); reset 0. -/
  bubbles : List Nat
  /-- CREWOPs, SENDs and RECVs that wait for HS (R266) or for room (R276, R289), oldest first; reset none. -/
  waiting : List (Cmd × Issuer × Terms)
  /-- Rigger commands issued (R291), and the silence limit in µs as the latest of them found it (R296); reset 0. -/
  age : Nat
  silence : Nat
  /-- Last finished Stroke, 0x7200 + c:3D (R324); reset 0. -/
  lastFinished : BitVec 48
  /-- Finish state (R336); reset IDLE. -/
  fin : FinState
  /-- Term (R331); reset 0, 1 once a membership group applies. -/
  term : BitVec 32
  /-- Decision log, newest first, at most 64 (R331); reset empty. -/
  log : List LogEntry
  /-- Logged decision that waits for LOGACK at rank 0, or for DECIDE at rank 1 (R333); reset none. -/
  logged : Option Decision
  /-- The decision held for the current attempt (R337); reset none. -/
  decision : Option Decision
  /-- Decisions recorded in the Stroke state (R337, R494); reset none. -/
  decisions : List Decision
  /-- The LAUNCH that runs; reset none. -/
  launch : Option LaunchRun
  /-- Number of the next attempt; reset 1. -/
  nextAttempt : Nat
  attempt : Option Attempt
  /-- Votes received, by Stroke and attempt (R330); reset none. -/
  votes : List (BitVec 48 × Nat × VoteBody)
  /-- ARRIVED (rank and time) and CUT packets of attempts this member has not started yet; reset none. -/
  earlyArr : List (BitVec 48 × Nat × Nat × U64)
  earlyCuts : List (BitVec 48 × Nat × List (BitVec 128))
  /-- UPD of the last combined vote that rank 0 holds (R345); reset 0. -/
  topUpd : BitVec 64
  /-- Rank found at fault in the last combined vote (R345); reset 0xFFFF_FFFF (none). -/
  topFault : Nat
  cut : CutState
  /-- The next attempt cuts under WAIT (R340); reset false. -/
  waitNext : Bool
  /-- Decisions this member has taken over deciding as backup (R335); reset false. -/
  tookOver : Bool
  /-- Abort history of the Stroke, oldest first (R347); reset none. -/
  aborts : List (BitVec 256)
  /-- VALUE of the latest MARK naming the Crew (R347); reset 0. -/
  mark : U64
  deferrals : List Deferral
  /-- Positions in the two subscriber rings (R346), HBM and host, and the offset and length of the Cards still whole in each;
  reset 0, none. -/
  subPos : Nat
  hostPos : Nat
  subCards : List (Nat × Nat)
  hostCards : List (Nat × Nat)
  /-- The member rejoined since the last Finish (STATUS bit 9, R347); reset false. -/
  rejoined : Bool
  /-- Rejoin state, 0x7200 + c:41 (R344); reset 0. -/
  rejoin : Nat
  /-- Next layer of a copy from a replica (R344); reset 0. -/
  copyNext : Nat
  exporting : Option ExportRun
  /-- Offset of the last Card written (R216); reset 0. -/
  lastCard : Nat
  deriving DecidableEq, Repr

def Crew.init : Crew :=
  { state := .undefined, hs := false, epoch := 0, seen := 0, rank := none, hash := 0, hellos := [], req := none,
    problem := (0, none, 0), heard := [], sent := [], since := 0, opNum := 0, ops := [], p2p := [], p2pCount := [],
    credits := [], early := [], earlyRisen := [], bubbles := List.replicate 64 0, waiting := [], age := 0, silence := 0, lastFinished := 0, fin := .idle, term := 0, log := [],
    logged := none, decision := none, decisions := [], launch := none, nextAttempt := 1, attempt := none, votes := [],
    earlyArr := [], earlyCuts := [], topUpd := 0, topFault := 0xFFFFFFFF, cut := ⟨[], none, none⟩, waitNext := false, tookOver := false, aborts := [], mark := 0,
    deferrals := [], subPos := 0, hostPos := 0, subCards := [], hostCards := [], rejoined := false, rejoin := 0, copyNext := 0, exporting := none, lastCard := 0 }

/-! ## Cox (13) -/

/-- A Cox command in flight (R306, R309). -/
structure CoxCmd where
  word : Cmd
  /-- The command that names the gradient and the row list: the UPDATE or HOLD itself, or the HOLD of an APPLY (R313). -/
  src : Cmd
  iss : Issuer
  crew : Fin 16
  layer : Nat
  /-- Descriptor copied at issue (R299). -/
  desc : BitVec 1024
  /-- Crew and number of the CREWOP that feeds it (R309). -/
  feeder : Option (Fin 16 × Nat)
  /-- Its first write has been made. -/
  started : Bool
  /-- Bytes of the gradient processed so far. -/
  fed : Nat
  /-- Flags of the steps so far, and LSTATUS bits 2 and 3 (R349). -/
  flags : FlagByte
  bits : Byte
  /-- Where a matrix rule stands (R316, R317): block, side, step and iteration. -/
  blk : Nat
  side : Nat
  step : Nat
  iter : Nat
  /-- Some block's root computation was HELD (R317). -/
  anyHeld : Bool
  /-- Where the running product stands (R315): output block and chunk, MMs of the chunk retired, and one in the Course. -/
  unit : Nat
  mm : Nat
  busy : Bool
  /-- Since when its next MM waits for the share (R314). -/
  since : Option U64
  /-- Output blocks of the running product so far, and the matrices of R301 by name. -/
  blocks : List (List (BitVec 32))
  mats : List (Nat × List (BitVec 32))
  /-- Its work is done. -/
  run : Bool
  res : Res
  deriving DecidableEq, Repr

/-- What the Cox holds for one partition. -/
structure CoxPart where
  /-- Layer state records that are not zero, by layer (R303); reset none. -/
  layers : List (Nat × BitVec 512)
  cmds : List CoxCmd
  /-- Start of the share window and the Course time used in it, in ns (R314); reset 0. -/
  winStart : U64
  winUsed : Nat
  deriving DecidableEq, Repr

def CoxPart.init : CoxPart := ⟨[], [], 0, 0⟩

/-! ## Evolu (15) -/

/-- The states of a session (R372). -/
inductive SessState where
  | closed | opening | opened | suspect
  deriving DecidableEq, Repr

/-- A frame of a session that is not acknowledged yet (R374): TSEQ, SERVICE, payload, times resent, time first sent. -/
structure SessFrame where
  tseq : BitVec 16
  service : Byte
  payload : List Byte
  resends : Nat
  at_ : U64
  deriving DecidableEq, Repr

/-- One of the last 64 requests of a session (R375): its TSEQ and tag, and the TSEQ and payload of its response. -/
structure CacheEntry where
  tseq : BitVec 16
  tag : BitVec 128
  reply : Option (BitVec 16 × List Byte)
  deriving DecidableEq, Repr

/-- A session frame accepted out of order (R373) or a request in order that waits for its turn (R375). -/
structure HeldFrame where
  tseq : BitVec 16
  service : Byte
  tag : BitVec 128
  payload : List Byte
  deriving DecidableEq, Repr

/-- An event record (R386). -/
structure EvRec where
  cls : Nat
  code : Nat
  subject : BitVec 32
  time : U64
  payload : List Byte
  deriving DecidableEq, Repr

/-- One of the eight sessions (R372, 0x1800:04); reset CLOSED, every other field 0 or empty, RTO 1 ms (R374). -/
structure Session where
  state : SessState
  /-- Partner address. -/
  addr : BitVec 6
  /-- Trust-anchor slot, its ROLE and partition (R368). -/
  anchor : Fin 8
  role : Nat
  part : Nat
  /-- Session identifier. -/
  sid : BitVec 32
  /-- K_s (R371). -/
  key : List Byte
  /-- E, the partner frame expected (R373). -/
  expect : BitVec 16
  held : List HeldFrame
  /-- Requests in order not executed yet (R375). -/
  todo : List HeldFrame
  /-- TSEQ of the next frame the module sends (R369). -/
  txNext : BitVec 16
  unacked : List SessFrame
  /-- Responses that wait for room in the window of 16 (R374). -/
  outWait : List (BitVec 16 × List Byte)
  /-- RTO, SRTT, RTTVAR in ns (R374); `srtt` none before the first sample. -/
  rto : Nat
  srtt : Option Nat
  rttvar : Nat
  /-- An in-order frame has been accepted and no frame sent since (R374). -/
  ackOwed : Bool
  /-- ASEQ of the last ACK and how many in a row carried it (R374). -/
  dup : BitVec 16 × Nat
  cache : List CacheEntry
  /-- SUBSCRIBE mask, queued records, records dropped (R385). -/
  mask : BitVec 32
  events : List EvRec
  dropped : Nat
  /-- Time of the last authenticated frame (R372). -/
  lastRx : U64
  deriving DecidableEq, Repr

def Session.init : Session :=
  { state := .closed, addr := 0, anchor := 0, role := 0, part := 0xFF, sid := 0, key := [], expect := 1, held := [], todo := [],
    txNext := 1, unacked := [], outWait := [], rto := 1000000, srtt := none, rttvar := 0, ackOwed := false, dup := (0, 0),
    cache := [], mask := 0, events := [], dropped := 0, lastRx := 0 }

/-- A handshake in progress (R369, R370). -/
structure Handshake where
  hid : BitVec 32
  src : BitVec 6
  /-- Segments of the OPEN_REQ held, and their count. -/
  req : List (Nat × List Byte)
  reqCount : Nat
  /-- Segments of the OPEN_FIN held, and their count. -/
  fin : List (Nat × List Byte)
  finCount : Nat
  /-- Time of the first segment of the message being collected. -/
  since : U64
  /-- The whole OPEN_REQ payload once answered. -/
  reqAll : List Byte
  /-- The OPEN_RSP payload once sent. -/
  rsp : List Byte
  /-- The session slot held OPENING, once OPEN_RSP is sent. -/
  slot : Option (Fin 8)
  /-- T and the shared secret. -/
  t : List Byte
  shared : List Byte
  anchor : Fin 8
  deriving DecidableEq, Repr

/-- A frame queued for the medium (R360): the bytes of R363 and the session frame it carries, if any, with its counts n, a, k. -/
structure TxFrame where
  bytes : List Byte
  sess : Option (Fin 8 × BitVec 16)
  n : Nat
  a : Nat
  k : Nat
  deriving DecidableEq, Repr

/-- The state of the medium (R362). -/
inductive Medium where
  | ok | busy | down
  deriving DecidableEq, Repr

structure Evolu where
  /-- Address; 0 none (R367); reset 0. -/
  addr : BitVec 6
  /-- Address stored in flash, the CLAIM hint; reset 0 (log 5). -/
  hint : Byte
  /-- Epoch, 0x1800:03 (R384); reset 1: one cold start (log 5). -/
  epoch : BitVec 32
  /-- Medium (R362); reset ok. -/
  medium : Medium
  /-- Burst counter c (R360); reset 0. -/
  c : Nat
  /-- Queued frames of class H and N (R359); reset none. -/
  hq : List TxFrame
  nq : List TxFrame
  /-- The frame whose burst is on the medium, with whether it is of class H (R361); reset none. -/
  flight : Option (Bool × TxFrame)
  /-- Bursts in a row without any echo (R362); reset 0. -/
  noEcho : Nat
  /-- Transmitter dark until this time (R357); reset 0. -/
  darkUntil : U64
  /-- Nonce of the last CLAIM sent (R367); reset none. -/
  claim : Option (BitVec 32)
  sessions : Vector Session 8
  /-- Handshakes in progress (R370); reset none. -/
  shakes : List Handshake
  /-- Sources and times of OPEN_REQs of the last second (R370); reset none. -/
  reqTimes : List (BitVec 6 × U64)
  /-- Sources and times of the last EPOCH_NOTICE (R382); reset none. -/
  notices : List (BitVec 6 × U64)
  /-- Session identifiers given so far (R369); reset 0. -/
  sidCount : BitVec 32
  deriving DecidableEq, Repr

def Evolu.init : Evolu :=
  { addr := 0, hint := 0, epoch := 1, medium := .ok, c := 0, hq := [], nq := [], flight := none, noEcho := 0, darkUntil := 0,
    claim := none, sessions := Vector.replicate 8 Session.init, shakes := [], reqTimes := [], notices := [], sidCount := 0 }

/-! ## Object dictionary (16) -/

/-- An object: the function it is an instance of (0 where there is one), index and sub-index (R388). -/
structure ObjKey where
  f : Nat
  idx : Nat
  sub : Nat
  deriving DecidableEq, Repr

/-- The holder of a change set (R407): session slot and anchor, or function. -/
inductive Holder where
  | sess (i : Fin 8) (anchor : Fin 8)
  | fn (f : Fin 9)
  deriving DecidableEq, Repr

/-- The open change set (R397). -/
structure OpenSet where
  id : BitVec 32
  holder : Holder
  checked : Bool
  staged : List (ObjKey × List Byte)
  /-- Time the lease runs out. -/
  lease : U64
  deriving DecidableEq, Repr

/-- A pending change set (R402, R403): its apply point, values and time of COMMIT. -/
structure PendSet where
  id : BitVec 32
  holder : Holder
  /-- The stream whose DICT committed it (R222). -/
  by_ : Option (Fin 9 × Fin 64)
  point : BitVec 128
  values : List (ObjKey × List Byte)
  time : U64
  /-- Waiting for the zero-fill of these partitions' tables (R453). -/
  fill : List (Fin 8)
  /-- Its AT_TIME point passed during a warm reset (R406). -/
  late : Bool
  deriving DecidableEq, Repr

/-- A status record of R407. -/
structure SetRec where
  id : BitVec 32
  outcome : Nat
  holder : Holder
  kind : Nat
  point : BitVec 64
  time : U64
  effect : U64
  deriving DecidableEq, Repr

/-- A conflict record of R401. -/
structure Conflict where
  code : Nat
  k1 : ObjKey
  k2 : Option ObjKey
  detail : BitVec 32
  deriving DecidableEq, Repr

/-- An unfinished write transfer (R378, R380): its requester (a function, or an anchor with the session that holds it and the
time its session closed), object, total, and the bytes up to the contiguous end. -/
structure Transfer where
  by_ : Holder
  live : Bool
  closedAt : U64
  key : ObjKey
  total : Nat
  bytes : List Byte
  deriving DecidableEq, Repr

/-- What the dictionary's table says of an object (R389 to R391): type code, access code of R393, whether it is stored, size in
bytes or declared maximum, default where it is RW or S, and the type codes of a RECORD's fields. -/
structure ObjInfo where
  ty : Nat
  access : Nat
  stored : Bool
  size : Nat
  dflt : List Byte
  fields : List Nat
  deriving DecidableEq, Repr

structure Dict where
  /-- Committed values that differ from the table's default (R390); reset none. -/
  vals : List (ObjKey × List Byte)
  /-- Counting RO objects (16 R457) that are not zero; reset none. -/
  ctr : List (ObjKey × Nat)
  /-- Generations of DOMAIN objects that are not zero (R379); reset none. -/
  gens : List (ObjKey × BitVec 32)
  openSet : Option OpenSet
  /-- Holder of the last set if it expired and none was opened since (R398); reset none. -/
  expired : Option Holder
  /-- Last identifier, 0xA100:04 (R397); reset 0. -/
  lastId : BitVec 32
  pendings : List PendSet
  /-- History, 0xA100:02, newest first, at most 64 (R407); reset none. -/
  history : List SetRec
  /-- 0xA100:03; reset none. -/
  conflicts : List Conflict
  transfers : List Transfer
  /-- Stored values in module flash (R391); reset none (log 5). -/
  flash : List (ObjKey × List Byte)
  /-- Flash writes of stored values fail (log 5); reset false. -/
  flashBad : Bool
  deriving DecidableEq, Repr

def Dict.init : Dict := ⟨[], [], [], none, none, 0, [], [], [], [], [], false⟩

/-! ## Power, clocks, resets (18) -/

/-- How the bring-up state was entered (R441). -/
inductive BringUp where
  | no | full | rom
  deriving DecidableEq, Repr

structure Power where
  /-- Powered (R431); reset true. -/
  on : Bool
  /-- Idle (R431); reset false. -/
  idle : Bool
  /-- Out of service or prepared for removal (R422, R432); reset false. -/
  quiesced : Bool
  /-- Bring-up state (R441); reset no. -/
  bringUp : BringUp
  /-- 0x2000:01 mV; reset 54,000 (log 5). -/
  mv : Nat
  /-- The last 100 samples of input power in W, newest first (R433); reset none. -/
  samples : List Nat
  /-- Input energy in µJ (0x2000:03 reports J, R458 mJ); reset 0. -/
  energy : Nat
  /-- ACLK, CCLK, UCLK in MHz, 0x2300:01 (R425); reset 2,000, 1,600, 1,500. -/
  aclk : Nat
  cclk : Nat
  uclk : Nat
  /-- The cap asks for lower frequencies (R433); reset false. -/
  capping : Bool
  /-- CAP_UNMET (R433); reset false. -/
  unmet : Bool
  /-- Time capped and throttled in ns; reset 0. -/
  capTime : Nat
  thrTime : Nat
  /-- The throttle asks for lower frequencies (R435); reset false. -/
  throttling : Bool
  /-- Samples in a row below 98% of the cap; below the throttle limit − 3 °C (R433, R435); reset 0. -/
  below : Nat
  cool : Nat
  /-- Samples in a row at or above 100 °C with clocks at minimum (R435); reset 0. -/
  hotMin : Nat
  /-- Samples in a row above 3,800 W (R434); reset 0. -/
  hiRuns : Nat
  /-- Time of the last step the cap and the throttle took, and of the last change in each domain (R428); reset 0. -/
  capStep : U64
  thrStep : U64
  domStep : List U64
  /-- Junctions and stacks, in 0.01 °C (R435); reset 0 (log 5). -/
  junctions : List Int
  stackTemps : List Int
  /-- Stacks whose regulators are halved (R435); reset none. -/
  halved : List Nat
  /-- References A, B, P good, and relocks (R427); reset true, 0. -/
  refs : List Bool
  relocks : Nat
  /-- Reference each domain runs from after relocks: A-side and B-side domains run from A (false) or B (true). -/
  domRef : Bool × Bool
  /-- Reset counts, 0x2400:02: part, function, warm, watchdog; reset 0. -/
  parts : Nat
  funcs : Nat
  warms : Nat
  dogs : Nat
  /-- 0x2400:04; reset 0. -/
  cause : Nat
  /-- 0x2400:05, in flash; reset 1 (log 5). -/
  colds : Nat
  /-- 0x2400:06; reset 0. -/
  removal : Nat
  /-- 0x2000:04: cause, timebase, value; reset 0 (log 5). -/
  lastShut : Nat × U64 × Int
  /-- The shutdown record in flash; reset none. -/
  flashShut : Option (Nat × U64 × Int)
  /-- A retirement or a map change waits for a warm reset (R436); reset false. -/
  warmAsked : Bool
  deriving DecidableEq, Repr

def Power.init : Power :=
  { on := true, idle := false, quiesced := false, bringUp := .no, mv := 54000, samples := [], energy := 0, aclk := 2000,
    cclk := 1600, uclk := 1500, capping := false, unmet := false, capTime := 0, thrTime := 0, throttling := false, below := 0,
    cool := 0, hotMin := 0, hiRuns := 0, capStep := 0, thrStep := 0, domStep := [0, 0, 0], junctions := List.replicate 64 0,
    stackTemps := List.replicate 20 0, halved := [], refs := [true, true, true], relocks := 0, domRef := (false, true),
    parts := 0, funcs := 0, warms := 0, dogs := 0, cause := 0, colds := 1, removal := 0, lastShut := (0, 0, 0),
    flashShut := none, warmAsked := false }

/-! ## Security (19) -/

structure Security where
  /-- Owner key hash fuses, 0x4100:03 (R448); reset 0, none blown. -/
  owner : BitVec 256
  ownerBlown : Bool
  /-- Rollback counter, 0x4100:05 (R446); reset 0 (log 5). -/
  rollback : Nat
  /-- Image slots A and B in flash (R444): the bytes; reset the factory image and empty (log 5). -/
  imageA : List Byte
  imageB : List Byte
  /-- Running image: 0 A, 1 B; reset 0. -/
  running : Nat
  /-- Boot record, 0x4100:13: tried first, result A, result B; reset 0, 0, 5 (log 5). -/
  boot : Nat × Nat × Nat
  /-- Reports, one for each function and session (R450): the last nonce's report. -/
  reports : List (Req × List Byte)
  deriving DecidableEq, Repr

def Security.init : Security := ⟨0, false, 0, Config.factoryImage, [], 0, (0, 0, 5), []⟩

/-! ## Pointing (17) -/

/-- One activity on one unit (R411, R412): 0 WAITING, 1 RUNNING, 2 URGENT; last completion. One not listed is WAITING with
completion 0. -/
structure Activity where
  id : Nat
  unit : Nat
  state : Nat
  done : U64
  /-- The steps that took time from foreground work in the last 100 ms: when, and the unit time taken in ns (R412). -/
  steps : List (U64 × Nat)
  /-- The deadline that runs has been logged as missed (R412). -/
  missed : Bool
  deriving DecidableEq, Repr

/-- A repair that waits for its unit's safe boundary (R417): kind of part (R419 row) and unit. -/
structure Repair where
  kind : Nat
  unit : Nat
  deriving DecidableEq, Repr

/-- The ten physical cores of a cluster (R415, R419). -/
structure Cluster where
  /-- Physical cores of the logical cores 0 to 7, in service; reset 0 to 7. -/
  map : List Nat
  /-- Spare cores; reset 8, 9. -/
  spares : List Nat
  /-- Time each physical core was last tested; reset 0. -/
  tested : List U64
  /-- The next LAUNCH start is 2 µs later (R413). -/
  late : Bool
  deriving DecidableEq, Repr

def Cluster.init : Cluster := ⟨List.range 8, [8, 9], List.replicate 10 0, false⟩

/-- The repair map as flash holds it: every unit as it makes it at a cold start (R419). -/
structure RepairMap where
  courses : Vector Course 8
  trowels : Vector Trowel 8
  pallets : Vector Pallet 8
  /-- Stacks in service, and each stack's row and pseudo-channel maps. -/
  inService : List Nat
  stks : Vector Stack 20
  /-- Journal copies moved to stack 13 (R214). -/
  moved : Bool × Bool
  banks : Vector Bank 8
  clusters : Vector Cluster 4
  pair : Nat × Nat
  mgmtSpare : Option Nat
  lockstep : Bool
  coxSpares : Vector Nat 4
  coxLanes : Vector Nat 4
  degraded : BitVec 32
  outOfService : Bool
  deriving DecidableEq, Repr

def RepairMap.init : RepairMap :=
  { courses := Vector.replicate 8 Course.init, trowels := Vector.replicate 8 Trowel.init, pallets := Vector.replicate 8 Pallet.init,
    inService := List.range 20, stks := Vector.replicate 20 Stack.init, moved := (false, false), banks := Vector.replicate 8 Bank.init,
    clusters := Vector.replicate 4 Cluster.init, pair := (0, 1), mgmtSpare := some 2, lockstep := true,
    coxSpares := Vector.replicate 4 32, coxLanes := Vector.replicate 4 1024, degraded := 0, outOfService := false }

structure Pointing where
  acts : List Activity
  repairs : List Repair
  /-- The log ring, newest first, at most 65,536 entries, and the number written (R423); reset none, 0. -/
  log : List (BitVec 128)
  written : Nat
  clusters : Vector Cluster 4
  /-- Management cores: the pair and the spare, by number; reset 0, 1 and 2 (R418). -/
  pair : Nat × Nat
  mgmtSpare : Option Nat
  /-- The pair runs in lockstep; reset true. -/
  lockstep : Bool
  /-- Spare Cox lanes and working ones of each field (R14, R419, R420); reset 32 and 1,024. -/
  coxSpares : Vector Nat 4
  coxLanes : Vector Nat 4
  /-- Lane tests that have found failing lanes and wait for the gap between two commands of their unit, with how many (R98, R297, R415);
  reset none. -/
  laneTests : List (LaneUnit × Nat)
  /-- 0x8100:02 bits k (R424); reset 0. -/
  degraded : BitVec 32
  /-- Courses that go out of service at the owner's next Stroke boundary, with the row of R419 whose part ran out (R420);
  reset none. -/
  leaving : List (Fin 8 × Nat)
  /-- The repair map is cleared at the next cold start (R424); reset false. -/
  clearMap : Bool
  /-- The repair map records that the module is out of service (R422); reset false. -/
  outOfService : Bool
  /-- The repair map in flash, held apart once writes of flash fail (R419); reset the map of a module as made. -/
  flashMap : RepairMap
  deriving DecidableEq, Repr

def Pointing.init : Pointing :=
  { acts := [], repairs := [], log := [], written := 0, clusters := Vector.replicate 4 Cluster.init, pair := (0, 1),
    mgmtSpare := some 2, lockstep := true, coxSpares := Vector.replicate 4 32, coxLanes := Vector.replicate 4 1024, laneTests := [], degraded := 0, leaving := [], clearMap := false,
    outOfService := false, flashMap := RepairMap.init }

/-! ## Counters and trace (20) -/

/-- A counter group (R459 to R463); reset MODE 0, SIZE 268,435,456, state 0. -/
structure Group where
  config : List Byte
  state : Nat
  records : Nat
  lost : Nat
  seq : BitVec 32
  /-- Samples lost since the last record. -/
  gap : Nat
  /-- A warm reset fell since the last record (R462). -/
  reset : Bool
  deriving DecidableEq, Repr

/-- The default configuration record of R459. -/
def Group.default : List Byte := List.replicate 32 0 ++ [0, 0, 0, 0x10, 0, 0, 0, 0]

def Group.init : Group := ⟨Group.default, 0, 0, 0, 0, 0, false⟩

structure Trace where
  /-- 0x9801:01: state (0 off, 1 running, 2 FULL), head, bytes written; reset 0. -/
  state : Nat
  head : Nat
  written : Nat
  /-- The spill region, 256 MiB; reset empty (log 4). -/
  spill : Mem
  /-- Cores inside the filter: cluster, logical core and partition (R469); reset none. -/
  inside : List (Nat × Nat × Nat)
  deriving DecidableEq, Repr

structure Counters where
  groups : Vector Group 80
  /-- Heads of the rings by (owner 0 to 7, 8 PF0; RING; SIZE) (R460); reset 0. -/
  heads : List ((Nat × Nat × Nat) × Nat)
  /-- Event counters of R458 that no object holds, by (code, unit, partition 0xFF for all); reset none. -/
  events : List ((Nat × Nat × Nat) × Nat)
  trace : Trace
  deriving DecidableEq, Repr

def Counters.init : Counters :=
  { groups := Vector.replicate 80 Group.init, heads := [], events := [], trace := ⟨0, 0, 0, Mem.empty, []⟩ }

/-! ## What the module sends -/

/-- The status of a read's completion (R191). -/
inductive ReadStatus where
  | successful
  | unsupportedRequest
  | completerAbort
  deriving DecidableEq, Repr

/-- An 8b/10b code group (R356): D code of a byte, K28.5 of /I2/, and /S/, /T/, /R/. Which of its two forms stands on the fibre follows from
the running disparity. -/
inductive CodeGroup where
  | d (b : Byte)
  | k285 | s | t | r
  deriving DecidableEq, Repr

/-- What leaves the module, or is answered to whoever sent a command. -/
inductive Out where
  /-- An MSI-X message of a function's vector: its data written to its address (R187, R194). -/
  | msix (f : Fin 9) (v : Fin 2048) (addr : BitVec 64) (data : BitVec 32)
  /-- A packet on a Rigger port, to the end of its last slot (R241). -/
  | packet (p : Fin 16) (bytes : List Byte)
  /-- A control word on a Rigger port; on a logical lane of it where the rule names one (R244, R247, R252). -/
  | control (p : Fin 16) (lane : Option (Fin 4)) (w : Ctl)
  /-- An Evolu burst: its code groups, in order (R357). -/
  | frame (groups : List CodeGroup)
  /-- The completion of a BAR2 read (R191, R192): data and its status. -/
  | bar2 (f : Fin 9) (data : List Byte) (status : ReadStatus)
  /-- The response to a service message of a row of its own (R376). -/
  | response (r : Req) (msg : List Byte)
  /-- A configuration request completes with Request Retry Status: the port is not initialised (R185). -/
  | configRetry (f : Fin 9)
  /-- What a base die answers a memory-side add or a CONVERT read: why it refuses, the word read, and the flags (R148, R149). -/
  | memory (reason : Reason) (word : BitVec 64) (flags : FlagByte)
  /-- A regulator serves a request of so many charged bytes: none for the device and PF0; as GUARANTEED or not (R150). -/
  | served (p : Option (Fin 8)) (k : Fin 20) (bytes : Nat) (guaranteed : Bool)
  /-- An ATS invalidation completion (R179). -/
  | atsDone (f : Fin 9) (iova : Nat)
  /-- The bytes a control core's load or fetch gives (R230). -/
  | coreLoad (w : Who) (bytes : List Byte)
  /-- A store that a control core could not make: the core faults (R230). -/
  | coreFault (w : Who)
  deriving DecidableEq, Repr

/-! ## The module -/

/-- The Stroke Card ring (R144, R346): the next offset, and the Cards still whole: offset, length, owning partition. -/
structure CardRing where
  pos : Nat
  whole : List (Nat × Nat × Fin 8)
  deriving DecidableEq, Repr

structure State where
  /-- Waiting commands, first in first out. -/
  pending : List Instr
  /-- The timebase in ns (R258); reset 0: it runs from 0 at a cold start (log 1). -/
  now : U64
  /-- The model's own counter of free values, not the spec's; reset 0 (log 10). -/
  free : Nat
  courses : Vector Course 8
  trowels : Vector Trowel 8
  pallets : Vector Pallet 8
  hods : Vector Hod 16
  hbm : Hbm
  host : HostPort
  journal : Journal
  rigger : Rigger
  crews : Vector Crew 16
  /-- Reset empty, next offset 0. -/
  cards : CardRing
  cox : Vector CoxPart 8
  evolu : Evolu
  dict : Dict
  power : Power
  sec : Security
  pointing : Pointing
  counters : Counters
  /-- What the module has sent, newest first; reset none. -/
  out : List Out
  deriving DecidableEq, Repr

/-- The twelve laser inputs at reset: inputs 0 to 7 feed groups 0 to 7, 8 and 9 the reference groups, 10 and 11 are spares
(R237); powers are log 5's. -/
def Laser.init : List Laser :=
  (List.range 12).map fun i => ⟨if i < 10 then i else 0xFF, 100000, 100000, false⟩

/-- The module at the instant a cold start has completed (log 1): no partition is defined, every object holds its default, the
timebase reads 0 and no command waits. -/
def State.reset : State :=
  { pending := [], now := 0, free := 0, courses := Vector.replicate 8 Course.init, trowels := Vector.replicate 8 Trowel.init,
    pallets := Vector.replicate 8 Pallet.init, hods := Vector.replicate 16 Hod.init, hbm := Hbm.init, host := HostPort.init,
    journal := ⟨true, true, false, false⟩,
    rigger :=
      { ports := Vector.replicate 16 Port.init, banks := Vector.replicate 8 Bank.init, lasers := Laser.init,
        sync := ⟨0, 15, none, 0, false, 0, 0⟩, held := [] },
    crews := Vector.replicate 16 Crew.init, cards := ⟨0, []⟩, cox := Vector.replicate 8 CoxPart.init, evolu := Evolu.init, dict := Dict.init,
    power := Power.init, sec := Security.init, pointing := Pointing.init, counters := Counters.init, out := [] }

end Sys2Proof.Machine
end

