-- ==== Sys2Proof/Machine/Ops.lean ====
section
/-! DEFINITION. Named operations over the state: sparse memories, dictionary values and counters, partitions and their HBM,
Pallets, control cores, events, completion records, logs and what the module sends. -/

namespace Sys2Proof.Machine

open Sys2Proof

/-! ## Sparse memory -/

/-- What an unlisted address reads as: 0 in generation 0 (log 4), a free byte later (R437). -/
def Mem.dflt (m : Mem) (a : Nat) : Byte := if m.gen = 0 then 0 else Config.freeByte m.gen a

/-- The byte listed at an address. -/
def cellsGet : List Host.Cell → Nat → Option Byte
  | [], _ => none
  | (x, b) :: l, a => if a = x then some b else if a < x then none else cellsGet l a

/-- A rising list with `b` listed at `a`. -/
def cellsSet : List Host.Cell → Nat → Byte → List Host.Cell
  | [], a, b => [(a, b)]
  | (x, c) :: l, a, b => if a < x then (a, b) :: (x, c) :: l else if a = x then (x, b) :: l else (x, c) :: cellsSet l a b

/-- A rising list with nothing listed at `a`. -/
def cellsDel : List Host.Cell → Nat → List Host.Cell
  | [], _ => []
  | (x, c) :: l, a => if a < x then (x, c) :: l else if a = x then l else (x, c) :: cellsDel l a

/-- The byte at an address. -/
def Mem.read (m : Mem) (a : Nat) : Byte := (cellsGet m.cells a).getD (m.dflt a)

/-- The memory with one byte written, in canonical form. -/
def Mem.write (m : Mem) (a : Nat) (b : Byte) : Mem :=
  if b = m.dflt a then { m with cells := cellsDel m.cells a } else { m with cells := cellsSet m.cells a b }

/-- `n` bytes from an address. -/
def Mem.readN (m : Mem) (a n : Nat) : List Byte := (List.range n).map fun i => m.read (a + i)

/-- Bytes written from an address on. -/
def Mem.writeN (m : Mem) : Nat → List Byte → Mem
  | _, [] => m
  | a, b :: bs => (m.write a b).writeN (a + 1) bs

/-- Bytes written at listed addresses, in order. -/
def Mem.writeL (m : Mem) (ws : List (Nat × Byte)) : Mem := ws.foldl (fun m w => m.write w.1 w.2) m

/-- Addresses strictly rise. -/
def rising : List Host.Cell → Bool
  | [] => true
  | [_] => true
  | x :: y :: l => x.1 < y.1 && rising (y :: l)

/-- The canonical form: addresses strictly rising, no entry equal to what an unlisted address reads as. -/
def Mem.wf (m : Mem) : Bool := rising m.cells && m.cells.all fun c => c.2 != m.dflt c.1

/-! ## Small helpers -/

/-- Association list with one key set; an entry that equals `z` is not listed. -/
def assocSet {κ α : Type} [DecidableEq κ] [DecidableEq α] (l : List (κ × α)) (k : κ) (v z : α) : List (κ × α) :=
  let r := l.filter fun e => e.1 ≠ k
  if v = z then r else (k, v) :: r

/-- The value of a key, or `z`. -/
def assocGet {κ α : Type} [DecidableEq κ] (l : List (κ × α)) (k : κ) (z : α) : α :=
  match l.find? fun e => e.1 = k with
  | some e => e.2
  | none => z

/-- `n` as an index below 8, or 0. -/
def fin8 (n : Nat) : Fin 8 := if h : n < 8 then ⟨n, h⟩ else 0
/-- `n` as an index below 16, or 0. -/
def fin16 (n : Nat) : Fin 16 := if h : n < 16 then ⟨n, h⟩ else 0
/-- `n` as an index below 20, or 0. -/
def fin20 (n : Nat) : Fin 20 := if h : n < 20 then ⟨n, h⟩ else 0
/-- `n` as an index below 64, or 0. -/
def fin64 (n : Nat) : Fin 64 := if h : n < 64 then ⟨n, h⟩ else 0
/-- `n` as a function number, or 0. -/
def fin9 (n : Nat) : Fin 9 := if h : n < 9 then ⟨n, h⟩ else 0

/-- The function of a partition (R186). -/
def funcOf (p : Fin 8) : Fin 9 := fin9 (p.val + 1)

/-- The partition of a function. -/
def partOfFn (f : Fin 9) : Option (Fin 8) := if f.val = 0 then none else some (fin8 (f.val - 1))

def updCourse (s : State) (n : Fin 8) (g : Course → Course) : State := { s with courses := s.courses.set n (g s.courses[n]) }
def updTrowel (s : State) (n : Fin 8) (g : Trowel → Trowel) : State := { s with trowels := s.trowels.set n (g s.trowels[n]) }
def updPallet (s : State) (n : Fin 8) (g : Pallet → Pallet) : State := { s with pallets := s.pallets.set n (g s.pallets[n]) }
def updHod (s : State) (h : Fin 16) (g : Hod → Hod) : State := { s with hods := s.hods.set h (g s.hods[h]) }
def updCrew (s : State) (c : Fin 16) (g : Crew → Crew) : State := { s with crews := s.crews.set c (g s.crews[c]) }
def updCox (s : State) (p : Fin 8) (g : CoxPart → CoxPart) : State := { s with cox := s.cox.set p (g s.cox[p]) }
def updFunc (s : State) (f : Fin 9) (g : Func → Func) : State :=
  { s with host := { s.host with funcs := s.host.funcs.set f (g s.host.funcs[f]) } }
def updPort (s : State) (p : Fin 16) (g : Port → Port) : State :=
  { s with rigger := { s.rigger with ports := s.rigger.ports.set p (g s.rigger.ports[p]) } }
def updBank (s : State) (b : Fin 8) (g : Bank → Bank) : State :=
  { s with rigger := { s.rigger with banks := s.rigger.banks.set b (g s.rigger.banks[b]) } }
def updStack (s : State) (k : Fin 20) (g : Stack → Stack) : State :=
  { s with hbm := { s.hbm with stks := s.hbm.stks.set k (g s.hbm.stks[k]) } }
def updSession (s : State) (i : Fin 8) (g : Session → Session) : State :=
  { s with evolu := { s.evolu with sessions := s.evolu.sessions.set i (g s.evolu.sessions[i]) } }
def updAttempt (s : State) (c : Fin 16) (g : Attempt → Attempt) : State :=
  updCrew s c fun k => { k with attempt := k.attempt.map g }

/-- Something leaves the module. -/
def emit (s : State) (o : Out) : State := { s with out := o :: s.out }

/-- A fresh free value; the counter moves on. -/
def fresh (s : State) : BitVec 64 × State := (Config.freeWord s.free, { s with free := s.free + 1 })

/-- Generation for contents that have become undefined: one that no memory has had. -/
def freshGen (s : State) : Nat × State := (s.free + 1, { s with free := s.free + 1 })

/-! ## Dictionary values and counters -/

/-- The committed bytes of an object, or its default. -/
def objBytes (s : State) (f idx sub : Nat) (d : List Byte) : List Byte := assocGet s.dict.vals ⟨f, idx, sub⟩ d

/-- The committed number of an object, or its default. -/
def objNat (s : State) (f idx sub d : Nat) : Nat :=
  match s.dict.vals.find? fun e => e.1 = ⟨f, idx, sub⟩ with
  | some e => ofLe e.2
  | none => d

/-- An object's committed value set. -/
def setObj (s : State) (f idx sub : Nat) (v : List Byte) : State :=
  { s with dict := { s.dict with vals := (⟨f, idx, sub⟩, v) :: s.dict.vals.filter fun e => e.1 ≠ ⟨f, idx, sub⟩ } }

/-- An object back at its default. -/
def dropObj (s : State) (f idx sub : Nat) : State :=
  { s with dict := { s.dict with vals := s.dict.vals.filter fun e => e.1 ≠ ⟨f, idx, sub⟩ } }

/-- A counting object. -/
def ctrGet (s : State) (f idx sub : Nat) : Nat := assocGet s.dict.ctr ⟨f, idx, sub⟩ 0

/-- A counting object raised by n, modulo 2^64 (R457). -/
def ctrAdd (s : State) (f idx sub n : Nat) : State :=
  { s with dict := { s.dict with ctr := assocSet s.dict.ctr ⟨f, idx, sub⟩ ((ctrGet s f idx sub + n) % 2 ^ 64) 0 } }

/-- A counting object at zero. -/
def ctrZero (s : State) (f idx sub : Nat) : State :=
  { s with dict := { s.dict with ctr := assocSet s.dict.ctr ⟨f, idx, sub⟩ 0 0 } }

/-- An event counter of R458 that no object holds, for (code, unit, partition). -/
def evAdd (s : State) (code unit part n : Nat) : State :=
  let k := (code, unit, part)
  { s with counters := { s.counters with events := assocSet s.counters.events k ((assocGet s.counters.events k 0 + n) % 2 ^ 64) 0 } }

/-- The generation of a DOMAIN object raised (R379). -/
def genBump (s : State) (f idx sub : Nat) : State :=
  let k : ObjKey := ⟨f, idx, sub⟩
  { s with dict := { s.dict with gens := assocSet s.dict.gens k (assocGet s.dict.gens k 0 + 1) 0 } }

/-! ## Partitions (R452, R453) -/

/-- The record of partition n: VALID and Course mask. In the bring-up state VFs have no partitions (R441). -/
def partRec (s : State) (n : Nat) : Bool × Nat :=
  let b := objBytes s 0 0x4000 (n + 1) [0, 0]
  (decide (s.power.bringUp = .no) && leAt b 0 1 == 1, leAt b 1 1)

def partValid (s : State) (n : Nat) : Bool := (partRec s n).1

/-- The partition that owns a Course. -/
def courseOwner (s : State) (n : Fin 8) : Option (Fin 8) :=
  (List.range 8).findSome? fun p => let r := partRec s p; if r.1 && r.2.testBit n then some (fin8 p) else none

/-- The partition that owns a Crew (0x7200 + c:09). -/
def crewOwner (s : State) (c : Fin 16) : Option (Fin 8) :=
  let v := objNat s 0 (0x7200 + c) 9 0xFF
  if v < 8 then some (fin8 v) else none

/-- Deterministic mode of a partition (0x6000:01, R91). -/
def deterministic (s : State) (p : Fin 8) : Bool := objNat s (p.val + 1) 0x6000 1 1 != 0

/-! ## HBM (R140 to R143) -/

/-- Bytes of a pseudo-channel. -/
def pcBytes : Nat := 1152 * 2 ^ 20

/-- Fine and coarse pseudo-channels, ascending. -/
def finePcs (h : Hbm) : List Nat := (List.range 64).filter fun c => !h.coarse.getLsbD c
def coarsePcs (h : Hbm) : List Nat := (List.range 64).filter fun c => h.coarse.getLsbD c

/-- Size of the fine pool, and of the MPA space. -/
def fineSize (h : Hbm) : Nat := pcBytes * (h.inService.length * (finePcs h).length)
def mpaSize (h : Hbm) : Nat := fineSize h + pcBytes * (h.inService.length * (coarsePcs h).length)

/-- The place of byte `off` of a pseudo-channel of a stack. -/
def place3 (stack pc off : Nat) : Nat := (stack * 64 + pc) * 2 ^ 31 + off

/-- The byte at a place. -/
def Hbm.get (h : Hbm) (x : Nat) : Byte := h.mem[fin20 (x / 2 ^ 37)].read x

/-- Bytes written at places, in order. -/
def Hbm.put (h : Hbm) (ws : List (Nat × Byte)) : Hbm :=
  { h with mem := h.mem.mapIdx fun k m => if ws.any fun w => w.1 / 2 ^ 37 = k then m.writeL (ws.filter fun w => w.1 / 2 ^ 37 = k) else m }

/-- `fine_map` of R141. -/
def fineMap (h : Hbm) (a : Nat) : Nat × Nat × Nat :=
  let G := 2 ^ h.granule
  let ns := h.inService.length
  let fp := finePcs h
  let u := a / G
  let v := u / ns
  (h.inService.getD (u % ns) 0, fp.getD (v % fp.length) 0, (v / fp.length) * G + a % G)

/-- Stack, pseudo-channel and offset of an MPA (R140, R141). -/
def mpaMap (h : Hbm) (a : Nat) : Nat × Nat × Nat :=
  if a < fineSize h then fineMap h a else
  let x := a - fineSize h
  let w := x / pcBytes
  let cp := coarsePcs h
  (h.inService.getD (w / cp.length) 0, cp.getD (w % cp.length) 0, x % pcBytes)

/-- The place of an MPA. -/
def mpaPlace (h : Hbm) (a : Nat) : Nat := let x := mpaMap h a; place3 x.1 x.2.1 x.2.2

/-- The valid entries of a region table (R143): partition start, size in bytes, MPA, and the entry word. -/
def regionsOf (tbl : List Byte) : List (Nat × Nat × Nat × Nat) :=
  ((List.range 32).foldl (fun (acc : Nat × List (Nat × Nat × Nat × Nat)) i =>
    let w := leAt tbl (8 * i) 8
    if w.testBit 0 then
      let sz := nfld w 33 19 * 2 ^ 26
      (acc.1 + sz, acc.2 ++ [(acc.1, sz, nfld w 48 34 * 2 ^ 26, w)])
    else acc) (0, [])).2

/-- The region table of a partition in force. -/
def regionTable (s : State) (p : Fin 8) : List Byte := objBytes s 0 0x5000 (0x40 + p) (List.replicate 256 0)

def regions (s : State) (p : Fin 8) : List (Nat × Nat × Nat × Nat) := regionsOf (regionTable s p)

/-- The MPA of a partition HBM address and its region's word; none outside every region (R143). -/
def hbmAt (s : State) (p : Fin 8) (a : Nat) : Option (Nat × Nat) :=
  (regions s p).findSome? fun (st, sz, base, w) => if st ≤ a && a < st + sz then some (base + (a - st), w) else none

/-- Every byte of a range lies in the partition's regions. -/
def hbmIn (s : State) (p : Fin 8) (a n : Nat) : Bool :=
  let rs := regions s p
  n == 0 || (rs.any fun (st, sz, _, _) => st ≤ a && a < st + sz) && a + n ≤ (rs.map fun r => r.2.1).sum

/-- One byte of a partition's HBM; 0 outside its regions, which no command reaches. -/
def hbmByte (s : State) (p : Fin 8) (a : Nat) : Byte :=
  match hbmAt s p a with
  | some (m, _) => s.hbm.get (mpaPlace s.hbm m)
  | none => 0

def hbmReadN (s : State) (p : Fin 8) (a n : Nat) : List Byte := (List.range n).map fun i => hbmByte s p (a + i)

/-- Bytes written at places, in order. A sector written whole gets new check symbols; one uncorrectable and written in part keeps its
contents (R153). The check symbols of every other sector written are formed anew (R152). -/
def hbmPut (s : State) (ps : List (Nat × Byte)) : State :=
  let as := ps.map (·.1)
  let whole (u : Nat) : Bool := (List.range 32).all fun i => as.contains (u + i)
  let kept := s.hbm.ue.filter fun u => !whole u
  let ce := s.hbm.ce.filter fun u => !as.any fun a => a / 32 * 32 == u
  { s with hbm := { s.hbm.put (ps.filter fun w => !kept.contains (w.1 / 32 * 32)) with ue := kept, ce := ce } }

/-- Bytes written to a partition's HBM at listed addresses; an address outside its regions is not written. -/
def hbmWriteL (s : State) (p : Fin 8) (ws : List (Nat × Byte)) : State :=
  hbmPut s (ws.filterMap fun (a, b) => (hbmAt s p a).map fun m => (mpaPlace s.hbm m.1, b))

def hbmWriteN (s : State) (p : Fin 8) (a : Nat) (bs : List Byte) : State :=
  hbmWriteL s p (bs.zipIdx.map fun (b, i) => (a + i, b))

/-- Device memory: the byte at an offset of the reservation of a stack (R144). -/
def devRead (s : State) (stack off n : Nat) : List Byte := s.hbm.dev.readN (stack * 2 ^ 29 + off) n
def devWrite (s : State) (stack off : Nat) (bs : List Byte) : State :=
  { s with hbm := { s.hbm with dev := s.hbm.dev.writeN (stack * 2 ^ 29 + off) bs } }

/-! ## Pallets -/

def palletByte (s : State) (n : Fin 8) (a : Nat) : Byte := s.pallets[n].mem.read a
def palletReadN (s : State) (n : Fin 8) (a k : Nat) : List Byte := s.pallets[n].mem.readN a k

/-- A tile loaded from a range that is written no longer matches (R56); a pass in progress goes on with it. -/
def voidTile (ws : List Nat) (t : Option WTile) : Option WTile :=
  t.map fun t => if ws.any fun a => t.lo ≤ a && a < t.hi then { t with live := false } else t

/-- Bytes written to a Pallet at listed offsets (R56, R116). -/
def palletWriteL (s : State) (n : Fin 8) (ws : List (Nat × Byte)) : State :=
  let as := ws.map (·.1)
  let s := updPallet s n fun p =>
    { p with
      mem := p.mem.writeL ws
      ue := p.ue.filter fun u => !(List.range 8).all fun i => as.contains (u / 8 * 8 + i)
      ce := p.ce.filter fun u => !as.any fun a => a / 8 == u / 8 }
  updCourse s n fun c => { c with active := voidTile as c.active, loading := voidTile as c.loading }

def palletWriteN (s : State) (n : Fin 8) (a : Nat) (bs : List Byte) : State :=
  palletWriteL s n (bs.zipIdx.map fun (b, i) => (a + i, b))

/-- The first of listed offsets that lies in an uncorrectable word (R116). -/
def palletUe (s : State) (n : Fin 8) (as : List Nat) : Option Nat :=
  as.find? fun a => s.pallets[n].ue.any fun u => u / 8 == a / 8

/-- A command reads listed offsets: every word among them with a single-bit error is corrected, rewritten and counted (R116). -/
def palletFix (s : State) (n : Fin 8) (as : List Nat) : State :=
  if s.pallets[n].ce.isEmpty then s else
  let hit := s.pallets[n].ce.filter fun u => as.any fun a => a / 8 == u / 8
  ctrAdd (updPallet s n fun p => { p with ce := p.ce.filter fun u => !hit.contains u }) 0 0x6300 (0x30 + n) hit.length

/-- A wait is over: its length, which depends on timing, is a free number of cycles that a counting object takes (log 19). -/
def stallAdd (s : State) (idx sub : Nat) : State := let (v, s) := fresh s; ctrAdd s 0 idx sub v.toNat

/-- A command met an uncorrectable word of a Pallet: the event is counted and Pointing is asked to test the bank (R116). -/
def palletUeEvent (s : State) (n : Fin 8) (a : Nat) : State :=
  let s := ctrAdd s 0 0x6300 (0x38 + n) 1
  updPallet s n fun p => { p with testAsked := if p.testAsked.contains (a / 2 ^ 19) then p.testAsked else p.testAsked ++ [a / 2 ^ 19] }

/-! ## Host memory (R178, R179) -/

/-- The address space a request is made in: 0 without a PASID, else PASID + 1. It carries one where its source asks for it and PASID is
enabled in the function's capability (R178, R183, R196). -/
def spaceOf (s : State) (f : Fin 9) (asked : Bool) (pasid : Nat) : Nat := if asked && s.host.funcs[f].cfg.pasid then pasid + 1 else 0

/-- The page of host memory behind a page of an address space (R179); none where the IOMMU does not translate it. -/
def hostPage (s : State) (f : Fin 9) (ps page : Nat) : Option Nat :=
  match s.host.funcs[f].iommu.find? fun e => e.1 = (ps, page) with
  | some e => e.2
  | none => some page

/-- The address of host memory behind an IOVA. -/
def hostLoc (s : State) (f : Fin 9) (ps iova : Nat) : Nat := (hostPage s f ps (iova / 4096)).getD 0 * 4096 + iova % 4096

/-- The pages of a function's range translate. -/
def hostMapped (s : State) (f : Fin 9) (ps iova n : Nat) : Bool :=
  s.host.up && !(s.host.funcs[f].iommu.any fun e => e.1.1 = ps && e.2.isNone && iova / 4096 ≤ e.1.2 && e.1.2 ≤ (iova + n - 1) / 4096)

def hostRead (s : State) (f : Fin 9) (ps iova n : Nat) : List Byte :=
  (List.range n).map fun i => s.host.mem.read (hostLoc s f ps (iova + i))

/-- Bytes written at addresses of host memory, in order. -/
def hostPut (s : State) (ws : List (Nat × Byte)) : State := { s with host := { s.host with mem := s.host.mem.writeL ws } }

def hostWrite (s : State) (f : Fin 9) (ps iova : Nat) (bs : List Byte) : State :=
  hostPut s (bs.zipIdx.map fun (b, i) => (hostLoc s f ps (iova + i), b))

/-- A registered host region of a function (R178): the entry word, 0 where none. -/
def hostRegion (s : State) (f : Fin 9) (i : Nat) : BitVec 256 := assocGet s.host.funcs[f].hostRegions i 0

/-- The address space of a host region's requests, and its IOVA. -/
def regionSpace (s : State) (f : Fin 9) (i : Nat) : Nat := let r := hostRegion s f i; spaceOf s f (fld r 4 4 == 1) (fld r 155 136)
def regionIova (s : State) (f : Fin 9) (i : Nat) : Nat := fld (hostRegion s f i) 255 192

/-! ## Streams -/

def stream (s : State) (f : Fin 9) (q : Nat) : Stream := assocGet s.host.funcs[f].streams q Stream.init

def updStream (s : State) (f : Fin 9) (q : Nat) (g : Stream → Stream) : State :=
  updFunc s f fun k => { k with streams := assocSet k.streams q (g (assocGet k.streams q Stream.init)) Stream.init }

/-- The sequence number of an entry (R203). -/
def entrySeq (e : Entry) : BitVec 64 := BitVec.ofNat 64 (fld e 63 0)

/-- Fields of an entry (R203). -/
def enOp (e : Entry) : Nat := fld e 71 64
def enNotify (e : Entry) : Bool := e.getLsbD 72
def enCext (e : Entry) : Bool := e.getLsbD 73
def enWait (e : Entry) : Nat := fld e 95 80
def enSignal (e : Entry) : Nat := fld e 111 96
def enTag (e : Entry) : U64 := BitVec.ofNat 64 (fld e 191 128)
def enWaitCnt (e : Entry) : Nat := fld e 255 192
def enBody (e : Entry) : BitVec 736 := BitVec.ofNat 736 (fld e 991 256)
def enCrcOk (e : Entry) : Bool := fld e 1023 992 == (crc32c ((wordBytes e).take 124)).toNat
/-- A reserved bit of the head is set. -/
def enRsv (e : Entry) : Bool := rsvSet e [(127, 112), (79, 74)]
/-- CREW of a LAUNCH (R206). -/
def enCrew (e : Entry) : Nat := fld e 471 464
/-- STROKE of the record: of a LAUNCH and an EXPORT, else 0 (R206, R209, R215). -/
def enStroke (e : Entry) : BitVec 48 :=
  BitVec.ofNat 48 (if enOp e = 2 then fld e 463 416 else if enOp e = 7 then fld e 319 272 else 0)

/-- The accepted entry of a stream with a sequence number, changed. -/
def updEntry (s : State) (f : Fin 9) (q : Nat) (seq : BitVec 64) (g : EntryRun → EntryRun) : State :=
  updStream s f q fun k => { k with entries := k.entries.map fun e => if entrySeq e.raw = seq then g e else e }

/-! ## Events (R223) -/

def eventCount (s : State) (f : Fin 9) (e : Nat) : BitVec 64 := assocGet s.host.funcs[f].events e 0

/-- Event `e` of a function raised by 1; event 0 is none. -/
def signalEv (s : State) (f : Fin 9) (e : Nat) : State :=
  if e = 0 || e > 4095 then s else
  updFunc s f fun k => { k with events := assocSet k.events e (assocGet k.events e 0 + 1) 0 }

/-! ## Completion records (R215, R219) -/

def clsCode (c : Cls) : Nat := match c with | .ok => 0 | .okRetried => 1 | .abortedStroke => 2 | .rejected => 3 | .failed => 4

def reasonCode (r : Reason) : Nat :=
  match r with
  | .none => 0 | .reservedSet => 0x101 | .badOpcode => 0x102 | .badField => 0x103 | .badFormat => 0x104 | .strictFormat => 0x105
  | .badRounding => 0x106 | .badRows => 0x107 | .badDesc => 0x108 | .longSum => 0x109 | .outOfBounds => 0x201
  | .blockSplit => 0x202 | .aliased => 0x203 | .selfOverlap => 0x204 | .fixedWrite => 0x205 | .coarseShort => 0x206
  | .adderRegion => 0x207 | .hostRegion => 0x208 | .tileState => 0x301 | .tileShared => 0x302 | .crewState => 0x303
  | .strokeOrder => 0x304 | .strokeExhausted => 0x305 | .programDigest => 0x306 | .accumScope => 0x307 | .checkFailed => 0x401
  | .palletUe => 0x402 | .hbmUe => 0x403 | .hodInterrupted => 0x404 | .hostFault => 0x405 | .programFault => 0x406
  | .resetLost => 0x407 | .failedCommand => 0x501 | .replayLimit => 0x502 | .crewDissolved => 0x503

/-- A result of class REJECTED. -/
def rejected (r : Reason) : Res := ⟨.rejected, r, 0, false, false, 0, 0⟩
/-- REJECTED with an address in the encoding of R160 (R216). -/
def rejectedAt (r : Reason) (a : Nat) : Res := ⟨.rejected, r, 0, false, false, BitVec.ofNat 64 a, 0⟩
/-- A result of class FAILED. -/
def failedRes (r : Reason) (part : Bool) (a : Nat) : Res := ⟨.failed, r, 0, false, part, BitVec.ofNat 64 a, 0⟩

/-- The 64 bytes of a completion record (R215). -/
def recordBytes (seq : U64) (op : Nat) (res : Res) (ext : Bool) (tag : U64) (stroke : Nat) (now : U64) : List Byte :=
  let body :=
    leBytes 8 seq.toNat ++
    leBytes 8 (op % 256 + place 8 (clsCode res.cls) + place 11 (if res.widened then 1 else 0) + place 12 (if ext then 1 else 0) +
      place 13 (if res.part then 1 else 0) + place 16 res.flags.toNat + place 32 (reasonCode res.reason)) ++
    leBytes 8 tag.toNat ++ leBytes 8 stroke ++ leBytes 8 res.d0.toNat ++ leBytes 8 res.d1.toNat ++ leBytes 8 now.toNat ++
    leBytes 4 0
  body ++ leBytes 4 (crc32c body).toNat

/-! ## Logs and events of the module -/

/-- The sessions that may see an event: MANAGE and OBSERVE always, a PARTITION session of partition `p` (0xFF: none; 0x100:
every role) (R386). -/
def seesEvent (p : Nat) (k : Session) : Bool :=
  (k.state == .opened || k.state == .suspect) && (p == 0x100 || k.role == 0 || k.role == 2 || (k.role == 1 && k.part == p))

/-- An event record queued to the subscribed sessions that `sees` allows, at most 64 a session (R385, R386). -/
def raiseTo (s : State) (sees : Session → Bool) (cls code subject : Nat) (payload : List Byte) : State :=
  let r : EvRec := ⟨cls, code, BitVec.ofNat 32 subject, s.now, payload⟩
  let add (k : Session) : Session :=
    if sees k && k.mask.getLsbD cls then
      (if k.events.length < 64 then { k with events := k.events ++ [r] } else { k with dropped := k.dropped + 1 })
    else k
  { s with evolu := { s.evolu with sessions := s.evolu.sessions.map add } }

/-- An event record for the sessions of `seesEvent`. -/
def raiseEvent (s : State) (cls code : Nat) (subject : Nat) (p : Nat) (payload : List Byte) : State :=
  raiseTo s (seesEvent p) cls code subject payload

/-- A 16-byte event entry (R348). -/
def eventEntry (kind course lane pass tag : Nat) (now : U64) : BitVec 128 :=
  BitVec.ofNat 128 (place 124 (kind % 16) + place 121 (course % 8) + place 111 (lane % 1024) + place 98 (pass % 8192) +
    place 64 (tag % 2 ^ 32) + now.toNat)

/-- An entry of the Pointing log: the ring in stack 3 and the event of class 7 for kinds 2 to 13 (R423, R386). -/
def pointLog (s : State) (kind unit tag : Nat) : State :=
  let e := eventEntry kind 0 unit 0 tag s.now
  let s := { s with pointing := { s.pointing with log := (e :: s.pointing.log).take 65536, written := s.pointing.written + 1 } }
  let s := genBump s 0 0x8000 0x30
  if 2 ≤ kind && kind ≤ 13 then raiseEvent s 7 kind 0 0xFF (wordBytes e) else s

/-- A Pointing event entered into the Cards of attempts that run: those of Crews of partition `p`, or of every Crew where the
event is the module's (R414). -/
def cardPoint (s : State) (p : Option (Fin 8)) (kind unit tag : Nat) : State :=
  let e := eventEntry kind 0 unit 0 tag s.now
  (List.range 16).foldl (fun t c =>
    let c := fin16 c
    if p.isNone || crewOwner s c == p then
      updAttempt t c fun a => { a with pntev := if a.pntev.length < 64 then a.pntev ++ [e] else a.pntev, npnt := a.npnt + 1 }
    else t) s

/-- The issuer a command belongs to in an attempt: a Course command of the Cox belongs to the Cox command it was issued for
(R312). -/
def programIssuer (s : State) (iss : Issuer) : Issuer :=
  match iss with
  | .cox p k => match s.cox[p].cmds.find? fun x => x.layer = k && !x.run with | some x => x.iss | none => iss
  | _ => iss

/-- A checksum event of an attempt's Card (R348, R68, R71). -/
def checkEvent (s : State) (iss : Issuer) (kind : Nat) (course : Fin 8) (lane pass tag : Nat) : State :=
  match programIssuer s iss with
  | .core c att _ _ _ =>
    updAttempt s c fun a =>
      if a.number = att then
        { a with chkev := if a.chkev.length < 64 then a.chkev ++ [eventEntry kind course lane pass tag s.now] else a.chkev
                 nchk := a.nchk + 1 }
      else a
  | _ => s

/-! ## Degraded operation (R19, R420) -/

/-- Both journal copies are lost (R214): the module reports DEGRADED. -/
def journalLost (s : State) : Bool := !s.journal.copyA && !s.journal.copyB

/-- Module state, 0x1000:05: BRING_UP, DEGRADED, CHECKS_OFF, QUIESCED, STACK_RETIRED. -/
def moduleState (s : State) : Nat :=
  (if s.power.bringUp = .no then 0 else 1) + (if s.pointing.degraded = 0 && !journalLost s then 0 else 2) +
  (if s.courses.toList.any fun c => !c.check then 4 else 0) + (if s.power.quiesced then 8 else 0) +
  (if s.hbm.stks.toList.any fun k => k.state = 2 then 16 else 0)

/-- Ports with a lane that has not failed. -/
def portsServing (s : State) : Nat :=
  ((List.range 16).filter fun p =>
    let b := s.rigger.banks[fin8 (p / 2)]
    (List.range 4).any fun l => !b.failed.contains (b.map.getD (4 * (p % 2) + l) 0)).length

/-! ## The repair map (R419) -/

/-- What the repair map keeps of a Course, and of the other units. -/
def coldCourse (k : Course) : Course := { Course.init with inService := k.inService, laneMap := k.laneMap, badLanes := k.badLanes }
def coldTrowel (k : Trowel) : Trowel := ⟨0, k.spares, k.lanes, []⟩
def coldPallet (g : Nat) (k : Pallet) : Pallet := ⟨⟨g, []⟩, k.bankMap, k.badBanks, none, [], [], []⟩
def coldStack (k : Stack) : Stack :=
  { Stack.init with state := k.state, pcMap := k.pcMap, goneWindows := k.goneWindows, repaired := k.repaired }
def coldBank (k : Bank) : Bank := { Bank.init with map := k.map, spare := k.spare, failed := k.failed }

/-- The repair map of the module as it stands. -/
def mapOf (s : State) : RepairMap :=
  let k := s.pointing
  { courses := s.courses.map coldCourse, trowels := s.trowels.map coldTrowel, pallets := s.pallets.map (coldPallet 0),
    inService := s.hbm.inService, stks := s.hbm.stks.map coldStack, moved := (s.journal.movedA, s.journal.movedB),
    banks := s.rigger.banks.map coldBank, clusters := k.clusters, pair := k.pair, mgmtSpare := k.mgmtSpare, lockstep := k.lockstep,
    coxSpares := k.coxSpares, coxLanes := k.coxLanes, degraded := k.degraded, outOfService := k.outOfService }

/-- The repair map that flash holds: every change has been written, until writes fail (R419). -/
def flashMap (s : State) : RepairMap := if s.dict.flashBad then s.pointing.flashMap else mapOf s

/-- Writes of flash fail from now on: flash keeps the repair map it holds (R419, R407). -/
def flashFails (s : State) : State :=
  if s.dict.flashBad then s
  else { s with dict := { s.dict with flashBad := true }, pointing := { s.pointing with flashMap := mapOf s } }

/-- A failed write of flash is logged; what the entry says is open. -/
def flashLog (s : State) : State :=
  let v := (Config.flashLog s.pointing.written).toNat
  pointLog s (v % 16) (v / 16 % 256) (v / 4096 % 2 ^ 32)

/-- The repair map changes and is written to flash. Where the write fails, the change stays in force until the next cold start, and the
failure is logged and counted in 0x8100:04 (R419). -/
def mapWrite (s : State) : State :=
  let s := genBump s 0 0x8100 3
  if s.dict.flashBad then ctrAdd (flashLog s) 0 0x8100 4 1 else s

/-- Units in service, 0x1000:06: Courses, stacks, Rigger ports, control cores. -/
def unitsInService (s : State) : List Nat :=
  [(s.courses.toList.filter (·.inService)).length, s.hbm.inService.length, portsServing s,
   (s.pointing.clusters.toList.map fun k => k.map.length).sum]

/-- A MODULE event where a change has altered 0x1000:05 or 0x1000:06 (R386). -/
def moduleEvent (s t : State) : State :=
  if moduleState s = moduleState t ∧ unitsInService s = unitsInService t then t
  else raiseEvent t 0 1 0 0x100 (leBytes 4 (moduleState t) ++ (unitsInService t).map (BitVec.ofNat 8))

/-- Row k + 1 of R420 has lost a part. -/
def setDegraded (s : State) (k : Nat) : State :=
  moduleEvent s { s with pointing := { s.pointing with degraded := s.pointing.degraded ||| BitVec.ofNat 32 (2 ^ k) } }

/-- A Course leaves service at the owner's next Stroke boundary, for want of a part of row `part` of R419: 1 Course lanes,
2 Pallet banks, 3 Trowel lanes (R420). -/
def courseLeaves (s : State) (n : Fin 8) (part : Nat) : State :=
  let s := setDegraded s (if part = 3 then 1 else 0)
  if s.pointing.leaving.any fun x => x.1 = n then s
  else { s with pointing := { s.pointing with leaving := s.pointing.leaving ++ [(n, part)] } }

/-- The module leaves service (R422): QUIESCED, and the repair map records it. -/
def leaveService (s : State) : State :=
  moduleEvent s (mapWrite { s with power := { s.power with quiesced := true }, pointing := { s.pointing with outOfService := true } })

/-- A substitution or repair is counted and enters the repair map (R419, R424). -/
def repairDone (s : State) : State := mapWrite (ctrAdd s 0 0x8000 0x33 1)

/-- A repair waits for its unit's safe boundary (R417). -/
def askRepair (s : State) (kind unit : Nat) : State :=
  { s with pointing := { s.pointing with repairs := s.pointing.repairs ++ [⟨kind, unit⟩] } }

/-- A Pointing self-test of a unit is asked for: the activity becomes URGENT (R71, R116, R412). -/
def askTest (s : State) (id unit : Nat) : State :=
  let old := s.pointing.acts.find? fun a => a.id = id ∧ a.unit = unit
  let a : Activity := match old with
    | some a => { a with state := 2 }
    | none => ⟨id, unit, 2, 0, [], false⟩
  { s with pointing := { s.pointing with acts := a :: s.pointing.acts.filter fun x => ¬(x.id = id ∧ x.unit = unit) } }

/-- A completed activity: WAITING, and the deadline runs again (R412). -/
def actDone (s : State) (id unit : Nat) : State :=
  let old := (s.pointing.acts.find? fun a => a.id = id ∧ a.unit = unit).getD ⟨id, unit, 0, 0, [], false⟩
  let a : Activity := { old with state := 0, done := s.now, missed := false }
  { s with pointing := { s.pointing with acts := a :: s.pointing.acts.filter fun x => ¬(x.id = id ∧ x.unit = unit) } }

/-! ## Time -/

/-- The timebase has reached at least t: a row that names an elapsed time. -/
def reach (s : State) (t : U64) : State := if s.now.toNat < t.toNat then { s with now := t } else s

/-- What a command does: its effect where the module is powered; an Off module, with every domain stopped, does nothing (R429). -/
def powered (s t : State) : Host.Outcome State Fault Refusal := .next (if s.power.on then t else s)

end Sys2Proof.Machine
end

