-- ==== Sys2Proof/Machine/Meters.lean ====
section
/-! DEFINITION. Counter values (R458) and the latches of the counter extension (R464 to R467). -/

namespace Sys2Proof.Machine

open Sys2Proof

/-! ## Group records (R459) -/

def gMode (c : List Byte) : Nat := leAt c 0 1
def gKind (c : List Byte) : Nat := leAt c 1 1
def gUnit (c : List Byte) : Nat := leAt c 2 1
def gStream (c : List Byte) : Nat := leAt c 3 1
def gInterval (c : List Byte) : Nat := leAt c 4 4
def gEvents (c : List Byte) : List Nat := (List.range 8).map fun i => leAt c (8 + 2 * i) 2
def gRing (c : List Byte) : Nat := leAt c 24 8
def gSize (c : List Byte) : Nat := leAt c 32 8

/-- The owner of a group: partitions 0 to 7, or PF0 (8). -/
def gOwner (g : Nat) : Nat := if g < 64 then g / 8 else 8

/-- The codes of R458. -/
def meterCodes : List Nat :=
  [0x0001, 0x0002, 0x0003, 0x0004, 0x0005, 0x0006, 0x1001, 0x1002, 0x1003, 0x2001, 0x2002, 0x2003, 0x3001, 0x3002, 0x3003, 0x3004] ++
  [0x4001, 0x4002, 0x4003, 0x4081, 0x4082, 0x4083, 0x5001, 0x5002, 0x5003, 0x5004, 0x6001, 0x6002, 0x6003, 0x6004, 0x7001, 0x7002] ++
  [0x8001, 0x8002, 0x8003, 0x9001, 0x9002, 0xA001, 0xA002, 0xA003]

/-- Codes only PF0, MANAGE and OBSERVE see (R458). -/
def meterGlobal (code : Nat) : Bool := [0x4081, 0x4082, 0x4083, 0x5001, 0x5002, 0x5003, 0x5004, 0xA001, 0xA002, 0xA003].contains code

/-- Counters of cycles, port bytes and instructions, whose values depend on timing or on what cores execute: each reading is a
free value. -/
def meterFree (code : Nat) : Bool :=
  [0x0001, 0x0002, 0x0003, 0x0006, 0x1001, 0x2001, 0x2002, 0x9001, 0x9002, 0xA001, 0xA003].contains code

/-- The present value of a counter of the unit for an owner (R458); a code of 0 counts nothing. -/
def meter (s : State) (owner code unit : Nat) : Nat × State :=
  if code = 0 then (0, s) else
  if meterFree code then let (v, s) := fresh s; (v.toNat, s) else
  (match code with
    | 0x0004 => ctrGet s 0 (0x6100 + unit) 0x30
    | 0x0005 => ctrGet s 0 (0x6100 + unit) 0x33
    | 0x1003 => ctrGet s 0 0x6200 (0x30 + unit)
    | 0x4082 => ctrGet s 0 (0x5100 + unit) 0x10
    | 0x4083 => ctrGet s 0 (0x5100 + unit) 0x20
    | 0x5003 => ctrGet s 0 (0x7100 + unit) 0x12
    | 0x5004 => ctrGet s 0 (0x7100 + unit) 0x14
    | 0x6001 => ctrGet s 0 (0x7200 + unit) 0x21
    | 0x6002 => ctrGet s 0 (0x7200 + unit) 0x22
    | 0x6003 => ctrGet s 0 (0x7200 + unit) 0x25
    | 0x6004 => ctrGet s 0 (0x7200 + unit) 0x23
    | 0x7002 => ctrGet s 0 0x7300 (0xB1 + owner)
    | 0x8003 => ctrGet s ((owner + 1) % 9) (0x6400 + unit) 0x32
    | 0xA002 => s.power.energy / 1000
    | 0x4001 | 0x4002 | 0x4003 | 0x7001 | 0x8001 | 0x8002 => assocGet s.counters.events (code, unit, owner) 0
    | _ => assocGet s.counters.events (code, unit, 0xFF) 0, s)

/-- Values of several counters, in order. -/
def meters (s : State) (owner unit : Nat) : List Nat → List Nat × State
  | [] => ([], s)
  | c :: cs =>
    let (v, s) := meter s owner c unit
    let (vs, s) := meters s owner unit cs
    (v :: vs, s)

/-- The owner of a function's groups. -/
def fnOwner (f : Fin 9) : Nat := if f.val = 0 then 8 else f.val - 1

/-- The lowest-numbered group that latches on a stream (R464). -/
def latchingGroup (s : State) (f : Fin 9) (q : Nat) : Option Nat :=
  (List.range 80).find? fun g =>
    gOwner g = fnOwner f && (match s.counters.groups[g]? with
      | some k => gMode k.config = 2 && gStream k.config = q && k.state = 1
      | none => false)

/-- An entry starts: stage, time, and the start latch where it has CEXT (R464). -/
def entryStart (s : State) (f : Fin 9) (q : Nat) (e : EntryRun) : State :=
  let cext := e.raw.getLsbD 73
  if cext && e.latchGroup = 0xFF then
    match latchingGroup s f q with
    | some g =>
      let c := match s.counters.groups[g]? with | some k => k.config | none => Group.default
      let evs := ((gEvents c).filter (· ≠ 0)).take 5
      let (vs, s) := meters s (gOwner g) (gUnit c) evs
      updEntry s f q (entrySeq e.raw) fun e =>
        { e with stage := .started, tStart := s.now, latch := vs, latchGroup := g, latchUnit := gUnit c, latchEvents := evs }
    | none => updEntry s f q (entrySeq e.raw) fun e => { e with stage := .started, tStart := s.now }
  else updEntry s f q (entrySeq e.raw) fun e => { e with stage := .started, tStart := if e.retried then e.tStart else s.now }

/-- A stream entry's command has finished with a result (R217); the end latch is taken (R464). -/
def entryDone (s : State) (f : Fin 9) (q : Nat) (seq : BitVec 64) (res : Res) : State :=
  match (stream s f q).entries.find? fun e => entrySeq e.raw = seq with
  | none => s
  | some e =>
    let (vs, s) := if e.latchGroup = 0xFF then ([], s) else meters s (gOwner e.latchGroup) e.latchUnit e.latchEvents
    let ds : List U64 := (vs.zip e.latch).map fun (a, b) => BitVec.ofNat 64 a - BitVec.ofNat 64 b
    updEntry s f q seq fun e =>
      let res := if e.retried && res.cls = .ok then { res with cls := .okRetried } else res
      { e with stage := .finished, res := res, tEnd := s.now, deltas := ds }

/-- The unit a group counts is in service and, for a partition's group, still its owner's (R467). -/
def unitThere (s : State) (owner kind unit : Nat) : Bool :=
  let own : Bool := owner = 8 || courseOwner s (fin8 unit) == some (fin8 owner)
  match kind with
  | 0 | 1 | 2 => unit < 8 && s.courses[fin8 unit].inService && own
  | 3 => unit < 16 && s.courses[fin8 (unit / 2)].inService && (owner = 8 || courseOwner s (fin8 (unit / 2)) == some (fin8 owner))
  | 4 => unit < 20 && s.hbm.stks[fin20 unit].state ≠ 2
  | 5 => unit < 16
  | 6 => unit < 16 && (owner = 8 || crewOwner s (fin16 unit) == some (fin8 owner))
  | 8 => unit < 64
  | 9 => unit < 4
  | _ => unit = 0

/-- The kind of the unit an entry's latches count: that of the events in force at its start (R467), or, with none, the group's. -/
def latchKind (s : State) (e : EntryRun) : Nat :=
  match e.latchEvents, s.counters.groups[e.latchGroup]? with
  | c :: _, _ => c / 4096
  | [], some k => gKind k.config
  | [], none => 0

/-- The 64-byte counter extension of a finished entry (R465). -/
def extBytes (s : State) (e : EntryRun) : List Byte :=
  let lost := e.latchGroup ≠ 0xFF &&
    !unitThere s (gOwner e.latchGroup) (latchKind s e) e.latchUnit
  let ds := if lost then e.deltas.map fun _ => (0 : U64) else e.deltas
  leBytes 8 e.tStart.toNat ++ leBytes 8 e.tEnd.toNat ++
    leBytes 8 (place 8 ((if e.retried || e.res.cls = .okRetried then 1 else 0) + (if e.sawReset then 2 else 0) + (if lost then 4 else 0)) +
      place 24 e.latchGroup + place 32 e.deltas.length) ++
    (List.range 5).flatMap fun i => leBytes 8 (ds.getD i 0).toNat

end Sys2Proof.Machine
end

