-- ==== Sys2Proof/Machine/Attempt.lean ====
section
/-! DEFINITION. Unit commands of a Stroke program: the issue store of a control core, the fault of a core, retirement with its
64-byte unit record, and what an attempt collects for its vote and Card (R230, R231, R233, R234, R328). -/

namespace Sys2Proof.Machine

open Sys2Proof

/-- A store of the core into a tile table, or at a Hod's issue port, waits: until it is made the core makes no other store and goes
no further in its program (R119, R128, R176). -/
def coreWaits (s : State) (w : Who) : Bool :=
  s.courses.toList.any fun c => c.stores.any fun x => x.1 = w.cluster && x.2.1 = w.core

/-- The Crew, attempt and core that run on a logical core of a cluster, where the core does not wait on a store of its own. -/
def findCore (s : State) (w : Who) : Option (Fin 16 × Attempt × CoreRun) :=
  if coreWaits s w then none else
  (List.range 16).findSome? fun c =>
    match s.crews[fin16 c].attempt with
    | some a =>
      if a.ended then none else
      (a.cores.find? fun k => k.cluster = w.cluster ∧ k.lcore = w.core.val ∧ k.ended = false).map fun k => (fin16 c, a, k)
    | none => none

/-- A core faults: the program ends on every core of the attempt at once and its LAUNCH fails with PROGRAM_FAULT (R230, R233).
The member's vote is cast once every unit command has retired (R328). -/
def programFault (s : State) (c : Fin 16) : State :=
  updAttempt s c fun a =>
    { a with ended := true, faulted := true, fails := a.fails ++ [(.failed, .programFault, 2, 0)]
             cores := a.cores.map fun k => { k with ended := true } }

/-- The layer a command attributes to: TAG[31:16] − 1 (R328). -/
def tagLayer (tag : Nat) : Option Nat :=
  let k := (tag / 65536) % 65536
  if k = 0 then none else some (k - 1)

/-- The abort cause a result gives (R328); 0 for a result that is OK. -/
def failCause (res : Res) : Nat :=
  match res.cls with
  | .ok | .okRetried => 0
  | .rejected => 2
  | _ =>
    match res.reason with
    | .programFault => 2
    | .hbmUe | .palletUe => 0x0B
    | .crewState => if res.d0.toNat % 256 = 4 then 6 else 1
    | _ => 1

/-- A layer's attribution changed, created where there is none. -/
def updLayer (l : List LayerAttr) (n : Nat) (g : LayerAttr → LayerAttr) : List LayerAttr :=
  match l.find? fun x => x.layer = n with
  | some x => l.map fun y => if y.layer = n then g x else y
  | none => g ⟨n, 0, false, none⟩ :: l

/-- What an attempt notes of a result (R328, R86): its flags, the WIDENED bit, the layer's union, and a failure. -/
def noteResult (a : Attempt) (layer : Option Nat) (res : Res) : Attempt :=
  let f := failCause res
  let a := { a with flags := a.flags ||| res.flags, widened := a.widened || res.widened, inFlight := a.inFlight - 1
                    fails := if f = 0 then a.fails else a.fails ++ [(res.cls, res.reason, f, (if res.reason = .crewState then res.d1 else res.d0).toNat)] }
  match layer with
  | some n =>
    if res.flags ≠ 0 ∨ res.widened then
      { a with layers := updLayer a.layers n fun x => { x with flags := x.flags ||| res.flags, widened := x.widened || res.widened } }
    else a
  | none => a

/-- Bytes from an address of a cluster memory. -/
def clusterWrite (a : Attempt) (k : Nat) (addr : Nat) (bs : List Byte) : Attempt :=
  { a with mem := a.mem.zipIdx.map fun (m, i) => if i = k then m.writeN addr bs else m }

/-- The record of a unit command in its core's completion queue (R231, R234). -/
def unitRecord (s : State) (a : Attempt) (k : Fin 4) (i : Fin 8) (seq op tag : Nat) (res : Res) : Attempt :=
  let n := 2 ^ a.ucqLog
  clusterWrite a k (a.ucqAddr + i.val * 64 * n + 64 * (seq % n))
    (recordBytes (BitVec.ofNat 64 seq) op res false (BitVec.ofNat 64 tag) 0 s.now)

/-- An event signalled by a command of a stream: the tiles that stream owns, and whose last command has retired, note it
(R91 b). -/
def ownerSignal (s : State) (st : Option (Fin 9 × Fin 64)) (f : Fin 9) (e : Nat) : State :=
  if e = 0 || e > 4095 || st.isNone then s else
  let k := (eventCount s f e).toNat
  let note (t : Tile) : Tile := if t.owner = st ∧ t.inUse = false then { t with evs := (e, k) :: t.evs } else t
  { s with courses := s.courses.map fun c => { c with tiles := c.tiles.map note } }

/-- The host stream of an issuer (R91): the stream whose LAUNCH started its Stroke program. -/
def issuerStream (s : State) (iss : Issuer) : Option (Fin 9 × Fin 64) :=
  match iss with
  | .core c _ _ _ _ => s.crews[c].launch.map fun l => (l.f, l.s)
  | .stream f q _ => some (f, q)
  | .cox _ _ => none

/-- A Course command of the Cox retires (R314): the Cox goes on with its command for the layer, or that command fails with
CHECK_FAILED. -/
def coxMmDone (s : State) (p : Fin 8) (k : Nat) (res : Res) : State :=
  let bad := decide (res.cls ≠ .ok ∧ res.cls ≠ .okRetried)
  updCox s p fun x =>
    { x with cmds := x.cmds.map fun y =>
        if y.layer ≠ k || y.run || !y.busy then y else
        { y with
          busy := false
          mm := y.mm + 1
          flags := y.flags ||| res.flags
          run := bad
          res := if bad then { (⟨.failed, .checkFailed, 0, false, y.started, 0, 0⟩ : Res) with flags := y.flags ||| res.flags } else y.res } }

/-- A unit command retires: its record, its event, and what its issuer notes (R223, R231, R208). `layer` is the layer it
attributes to. A command of an attempt that is no longer the Crew's writes no record. -/
def retireNoted (s : State) (iss : Issuer) (op tag ev : Nat) (layer : Option Nat) (res : Res) : State :=
  -- a rejected command signals no event (R12)
  let ev := if res.cls = .rejected then 0 else ev
  match iss with
  | .core c att k i seq =>
    match s.crews[c].attempt with
    | some a =>
      if a.number = att then
        let s := updCrew s c fun x => { x with attempt := some (noteResult (unitRecord s a k i seq op tag res) layer res) }
        match crewOwner s c with
        | some p => ownerSignal (signalEv s (funcOf p) ev) (issuerStream s iss) (funcOf p) ev
        | none => s
      else s
    | none => s
  | .stream f q seq => entryDone s f q seq res
  | .cox p k => coxMmDone s p k res

/-- A unit command retires, attributing by its TAG. -/
def retireUnit (s : State) (iss : Issuer) (op tag ev : Nat) (res : Res) : State :=
  retireNoted s iss op tag ev (tagLayer tag) res

/-- The partition of an issuer. -/
def issuerPart (s : State) (iss : Issuer) : Option (Fin 8) :=
  match iss with
  | .core c _ _ _ _ => crewOwner s c
  | .stream f _ _ => partOfFn f
  | .cox p _ => some p

/-- The function whose regions and events an issuer uses. -/
def issuerFn (s : State) (iss : Issuer) : Fin 9 :=
  match iss with
  | .core c _ _ _ _ => match crewOwner s c with | some p => funcOf p | none => 0
  | .stream f _ _ => f
  | .cox p _ => funcOf p

/-- The Stroke number an issuer runs in; 0 outside a Stroke (R94). -/
def issuerStroke (s : State) (iss : Issuer) : Nat :=
  match programIssuer s iss with
  | .core c _ _ _ _ => match s.crews[c].launch with | some l => l.stroke.toNat | none => 0
  | _ => 0

/-- The account of an issue store: one command more in flight, and the core's sequence and consumed counts (R231, R234). -/
def bookIssue (s : State) (c : Fin 16) (w : Who) (k : CoreRun) : State :=
  updAttempt s c fun a =>
    { a with
      inFlight := a.inFlight + 1
      cores := a.cores.map fun x =>
        if x.cluster = k.cluster ∧ x.lcore = k.lcore then { x with issued := k.issued + 1, consumed := w.consumed } else x }

/-- An issue store of a control core (R230, R233, R234). `ok` says which partition may make it; `go` issues the command. A store
of a core that runs no program is none. A store not allowed, or one that would pass the completion queue, faults the core. -/
def issueStore (s : State) (w : Who) (ok : State → Fin 16 → Fin 8 → Bool) (op tag ev : Nat)
    (go : State → Fin 16 → Fin 8 → Issuer → State) : State :=
  match findCore s w with
  | none => s
  | some (c, a, k) =>
    match crewOwner s c with
    | none => s
    | some p =>
      if !ok s c p || k.issued + 1 > w.consumed + 2 ^ a.ucqLog then emit (programFault s c) (.coreFault w) else
      let s := bookIssue s c w k
      let iss : Issuer := .core c a.number k.cluster k.index (k.issued + 1)
      -- a unit command after the VOTE is rejected (R328)
      if a.voteCmd.isSome then retireUnit s iss op tag ev (rejected .badField) else go s c p iss

/-- A command as it stands in a unit's queue. -/
def mkCmd (word : Cmd) (iss : Issuer) (descs tiles : List (Nat × Cmd)) (ev order : Nat) : UnitCmd :=
  { op := BitVec.ofNat 8 (fld word 7 0), word := word, iss := iss, descs := descs, tiles := tiles, run := false, res := Res.okay,
    ev := ev, retried := false, order := order, blocked := 0, after := [], wrote := [] }

/-- The first reason that holds. -/
def firstReason (l : List (Bool × Reason)) : Option Reason := (l.find? (·.1)).map (·.2)

/-- What a descriptor slot that is not listed holds. -/
def descDflt (c : Course) (slot : Nat) : Cmd := if c.descGen = 0 then 0 else Config.freeDesc c.descGen slot

/-- What a slot number names: slot 0 and numbers above 4,095 name none (R118). -/
def slotDesc (c : Course) (slot : Nat) : Cmd := if slot = 0 || slot > 4095 then 0 else assocGet c.descs slot (descDflt c slot)

/-- Descriptor slots copied at issue (R119). -/
def copyDescs (c : Course) (slots : List Nat) : List (Nat × Cmd) := slots.map fun k => (k, slotDesc c k)

/-- The copy of a slot a command took; 0 (not defined) for one it did not name. -/
def cmdDesc (u : UnitCmd) (slot : Nat) : Cmd := assocGet u.descs slot 0

end Sys2Proof.Machine
end

