-- ==== Sys2Proof/Machine/Regulator.lean ====
section
/-! DEFINITION. The bandwidth regulators of the stacks (R150, R151): buckets, classes, and the order in which waiting requests are
served. -/

namespace Sys2Proof.Machine

open Sys2Proof

/-- G, C, B and BORROW of the regulator of partition p on stack k. -/
def regParams (s : State) (p : Fin 8) (k : Fin 20) : Nat × Nat × Nat × Bool :=
  let b := objBytes s 0 0x5200 (1 + 20 * p + k) (leBytes 2 0 ++ leBytes 2 2457 ++ leBytes 4 65536 ++ [1])
  (leAt b 0 2, leAt b 2 2, leAt b 4 4, leAt b 8 1 == 1)

/-- The rates in force: halved on a stack that R435 slows. -/
def regRates (s : State) (p : Fin 8) (k : Fin 20) : Nat × Nat :=
  let (g, c, _, _) := regParams s p k
  if s.power.halved.contains k.val then (g / 2, c / 2) else (g, c)

/-- The buckets of a regulator, refilled to now: rates in GB/s are bytes a nanosecond; the cap bucket holds 4 KiB (R150). A regulator
that has served nothing since reset has both buckets full: the spec gives no starting level (DESIGN CHOICE, log 40). -/
def refill (s : State) (p : Fin 8) (k : Fin 20) : Bucket :=
  let (g, c) := regRates s p k
  let (_, _, depth, _) := regParams s p k
  match s.hbm.buckets.find? fun b => b.part = p ∧ b.stack = k with
  | some b =>
    let dt := (s.now - b.time).toNat
    ⟨p, k, min depth (b.guar + dt * g), min 4096 (b.cap + dt * c), s.now⟩
  | none => ⟨p, k, depth, 4096, s.now⟩

def setBucket (s : State) (b : Bucket) : State :=
  { s with hbm := { s.hbm with buckets := b :: s.hbm.buckets.filter fun x => ¬(x.part = b.part ∧ x.stack = b.stack) } }

/-- The class in which a request of partition p can be served now: GUARANTEED (true) or BORROWED; none while it waits (R150). -/
def regClass (s : State) (p : Fin 8) (k : Fin 20) (n : Nat) : Option Bool :=
  let b := refill s p k
  if b.cap < n then none
  else if n ≤ b.guar then some true
  else if (regParams s p k).2.2.2 then some false
  else none

/-- A request is served: its tokens are taken, and the charged bytes and its wait on the cap bucket are counted (R150, R458). Requests
of the device and of PF0 come under the device guarantee and take no tokens (R190). -/
def regServe (s : State) (w : RegWait) (guar : Bool) : State :=
  let s := evAdd s 0x4081 w.stack 0xFF w.bytes
  let s := match w.part with
    | none => s
    | some p =>
      let b := refill s p w.stack
      let b := { b with guar := if guar then b.guar - w.bytes else b.guar, cap := b.cap - w.bytes }
      let s := setBucket s b
      evAdd (evAdd s (if guar then 0x4001 else 0x4002) w.stack p w.bytes) 0x4003 w.stack p w.waited
  emit s (.served w.part w.stack w.bytes guar)

/-- A waiting request looked at: the time since the last look counts while the cap bucket alone holds it back. -/
def regAged (s : State) (w : RegWait) : RegWait :=
  let held : Bool := match w.part with | some p => (refill s p w.stack).cap < w.bytes | none => false
  { w with waited := if held then w.waited + (s.now - w.seen).toNat else w.waited, seen := s.now }

/-- An earlier request of the same regulator waits. -/
def regBehind (l : List RegWait) (w : RegWait) : Bool := l.any fun x => x.part = w.part ∧ x.stack = w.stack

/-- The class of a request now: what the device and PF0 ask is always served. -/
def waitClass (s : State) (w : RegWait) : Option Bool :=
  match w.part with
  | none => some true
  | some p => regClass s p w.stack w.bytes

/-- One pass over numbered requests in an order: those of a class that the pass serves are served, unless an earlier one of their
regulator waits; the others are kept. -/
def servePass (borrowed : Bool) (s : State) (l : List (RegWait × Nat)) : State × List (RegWait × Nat) :=
  l.foldl (fun acc x =>
    let serve : Option Bool := if regBehind (acc.2.map (·.1)) x.1 then none else (waitClass acc.1 x.1).filter fun g => g || borrowed
    match serve with
    | some g => (regServe acc.1 x.1 g, acc.2)
    | none => (acc.1, acc.2 ++ [x])) (s, [])

/-- The round of the deficit round-robin, with equal quanta of 2,048 bytes for every partition (log 40), in which a request's turn comes:
the first whose quanta cover its regulator's requests up to it. -/
def drrRound (l : List (RegWait × Nat)) (x : RegWait × Nat) : Nat :=
  (((l.filter fun y => y.1.part = x.1.part ∧ y.1.stack = x.1.stack ∧ y.2 ≤ x.2).map (·.1.bytes)).sum + 2047) / 2048

/-- The order of the deficit round-robin: by rounds, the partitions of a round by number. -/
def drrOrder (l : List (RegWait × Nat)) : List (RegWait × Nat) :=
  let key (x : RegWait × Nat) : Nat := drrRound l x * 8 + (match x.1.part with | some p => p.val | none => 0)
  sortBy (fun a b => key a < key b || (key a == key b && a.2 ≤ b.2)) l

/-- Waiting requests are served (R150): what the device and PF0 ask and GUARANTEED ones in arrival order, then BORROWED ones by deficit
round-robin. The others wait on, in arrival order. -/
def serveRegs (s : State) : State :=
  if s.hbm.waits.isEmpty then s else
  let (s, l) := servePass false s ((s.hbm.waits.map (regAged s)).zipIdx)
  let (s, l) := servePass true s (drrOrder l)
  { s with hbm := { s.hbm with waits := (sortBy (fun a b => a.2 ≤ b.2) l).map (·.1) } }

/-- Requests reach the regulators, in order (R150). -/
def regAsk (s : State) (ws : List RegWait) : State :=
  if ws.isEmpty then s else serveRegs { s with hbm := { s.hbm with waits := s.hbm.waits ++ ws } }

end Sys2Proof.Machine
end

