-- ==== Sys2Proof/Machine/Place.lean ====
section
/-! DEFINITION. Places in the encoding of R160 and how units read and write them: HBM with its error rules (R152, R153, R493),
the undo record of epoch-scoped regions (R325), access units and coarse bursts (R146, R171), host regions (R178), and the
memory-side adders (R148, R149). -/

namespace Sys2Proof.Machine

open Sys2Proof

/-! ## HBM of a partition, or the MPA space for PF0 (R143, R144, R208) -/

/-- The stacks that hold a reservation at first (R144). -/
def reservedStack (k : Nat) : Bool := k != 4 && k != 9 && k != 14 && k != 19

/-- A byte of pseudo-channel 63 of a stack lies in a reservation (R144); those of retired stacks have moved to the first stack in
service among 4, 9, 14 and 19 (R157). -/
def reservedAt (h : Hbm) (stack off : Nat) : Bool :=
  let moved := ((List.range 20).filter fun k => reservedStack k && !h.inService.contains k).length
  let home := [4, 9, 14, 19].find? h.inService.contains
  (reservedStack stack && off < 2 ^ 29) || (home == some stack && off < moved * 2 ^ 29)

/-- An MPA lies in a reservation. -/
def mpaReserved (h : Hbm) (a : Nat) : Bool := let x := mpaMap h a; x.2.1 == 63 && reservedAt h x.1 x.2.2

/-- The MPA and region word of an HBM address: a partition's, or an MPA itself for PF0 (`none`), which no region covers. -/
def hbmSpot (s : State) (p : Option (Fin 8)) (a : Nat) : Option (Nat × Nat) :=
  match p with
  | some p => hbmAt s p a
  | none => if a < mpaSize s.hbm && !mpaReserved s.hbm a then some (a, 0) else none

/-- The MPA lies in the coarse pool. -/
def mpaCoarse (s : State) (m : Nat) : Bool := fineSize s.hbm ≤ m

/-- The place of an HBM address. -/
def spotPlace (s : State) (p : Option (Fin 8)) (a : Nat) : Option Nat := (hbmSpot s p a).map fun m => mpaPlace s.hbm m.1

def hbmByteP (s : State) (p : Option (Fin 8)) (a : Nat) : Byte :=
  match spotPlace s p a with
  | some x => s.hbm.get x
  | none => 0

/-- The sector of the first listed address in an uncorrectable one: the sector's address is what is reported (R153). -/
def ueAt (s : State) (p : Option (Fin 8)) (as : List Nat) : Option Nat :=
  if s.hbm.ue.isEmpty then none else
  (as.find? fun a => match spotPlace s p a with | some x => s.hbm.ue.contains (x / 32 * 32) | none => false).map (· / 32 * 32)

/-- The first uncorrectable sector that the listed addresses reach and do not cover whole (R153). -/
def uePartial (s : State) (p : Option (Fin 8)) (as : List Nat) : Option Nat :=
  if s.hbm.ue.isEmpty then none else
  let hit (a : Nat) : Bool := match spotPlace s p a with
    | some x => s.hbm.ue.contains (x / 32 * 32) && !(List.range 32).all fun i => as.contains (a / 32 * 32 + i)
    | none => false
  (as.find? hit).map (· / 32 * 32)

/-- Bytes written at HBM addresses, in order (R153). -/
def hbmWriteP (s : State) (p : Option (Fin 8)) (ws : List (Nat × Byte)) : State :=
  hbmPut s (ws.filterMap fun (a, b) => (spotPlace s p a).map fun x => (x, b))

/-- Bank and row of a byte of a pseudo-channel (R493). -/
def dramBank (o : Nat) : Nat := (o / 1024) % 48
def dramRow (o : Nat) : Nat := o / 49152

/-- The partition whose region holds an MPA; 0xFF for none (R493). -/
def mpaPart (s : State) (m : Nat) : Nat :=
  ((List.range 8).find? fun p => (regions s (fin8 p)).any fun (_, sz, base, _) => base ≤ m && m < base + sz).getD 0xFF

/-- The partition address of an MPA. -/
def mpaInPart (s : State) (p : Fin 8) (m : Nat) : Nat :=
  ((regions s p).findSome? fun (st, sz, base, _) => if base ≤ m && m < base + sz then some (st + (m - base)) else none).getD 0

/-- A MEMORY event (R386): partitions get their own address, MANAGE and OBSERVE the MPA. -/
def memoryEvent (s : State) (code : Nat) (m : Nat) : State :=
  let x := mpaMap s.hbm m
  let k := x.1
  let pc := x.2.1
  let o := x.2.2
  let q := mpaPart s m
  let body (a : Nat) : List Byte :=
    leBytes 1 q ++ [0] ++ leBytes 1 pc ++ leBytes 1 (dramBank o) ++ leBytes 4 (dramRow o) ++ leBytes 8 a
  let live (x : Session) : Bool := x.state == .opened || x.state == .suspect
  let s := raiseTo s (fun x => live x && x.role == 1 && x.part == q) 8 code k (body (mpaInPart s (fin8 q) m))
  raiseTo s (fun x => live x && (x.role == 0 || x.role == 2)) 8 code k (body m)

def dayNs : Nat := 86400000000000

/-- Spare rows left in a bank of a pseudo-channel: each repair takes one (R155, R156). -/
def spareLeft (t : Stack) (pc bank : Nat) : Nat := Config.spareRows + 1 - (t.repaired.filter fun r => r.1 = pc ∧ r.2.1 = bank).length

/-- A row calls for its repair (R155): an uncorrectable error not repaired since, or eight corrected within 24 h. -/
def rowNeeds (s : State) (k : Fin 20) (pc bank row : Nat) : Bool :=
  let ev := s.hbm.stks[k].events.filter fun e => e.pc = pc ∧ e.bank = bank ∧ e.row = row
  (ev.any fun e => e.ue && !e.cured) || 8 ≤ (ev.filter fun e => !e.ue && (s.now - e.time).toNat ≤ dayNs).length

/-- An error of a row is held against it; a row that calls for repair waits for the safe boundary of its stack (R155, R417). -/
def rowEvent (s : State) (k : Fin 20) (pc o : Nat) (ue : Bool) : State :=
  let s := updStack s k fun t => { t with events := ⟨pc, dramBank o, dramRow o, ue, s.now, false⟩ :: t.events }
  if rowNeeds s k pc (dramBank o) (dramRow o) && !s.pointing.repairs.contains ⟨9, k⟩ then askRepair s 9 k else s

/-- An uncorrectable sector has been found at an MPA by a read (1) or scrub (2): counted, latched in the stack's record, held
against its row, and reported (R153, R155, R386, R493). -/
def ueEvent (s : State) (code m : Nat) : State :=
  let x := mpaMap s.hbm m
  let k := fin20 x.1
  let pc := x.2.1
  let o := x.2.2
  let st := s.hbm.stks[k]
  let rec_ := leBytes 8 s.now.toNat ++ leBytes 8 (m / 32 * 32) ++ leBytes 1 pc ++ leBytes 1 (st.pcMap.getD pc 0) ++
    leBytes 1 (dramBank o) ++ [0] ++ leBytes 4 (dramRow o) ++ leBytes 1 (mpaPart s m) ++ leBytes 7 0
  let s := memoryEvent (ctrAdd s 0 (0x5100 + k) 0x11 1) code m
  rowEvent (updStack s k fun t => { t with lastUe := BitVec.ofNat 256 (ofLe rec_) }) k pc o true

/-- The same for an HBM address. -/
def ueEventAt (s : State) (p : Option (Fin 8)) (a : Nat) : State :=
  match hbmSpot s p a with
  | some m => ueEvent s 1 m.1
  | none => s

/-- A sector with one erroneous symbol is read: the symbol is corrected, the sector rewritten, and the event counted against its stack,
pseudo-channel and row (R152). -/
def correctSector (s : State) (x : Nat) : State :=
  let k := fin20 (x / 2 ^ 37)
  let s := ctrAdd { s with hbm := { s.hbm with ce := s.hbm.ce.filter (· ≠ x) } } 0 (0x5100 + k) 0x10 1
  rowEvent s k (x / 2 ^ 31 % 64) (x % 2 ^ 31) false

/-- HBM addresses are read: what R152 corrects among their sectors is corrected. -/
def hbmFix (s : State) (p : Option (Fin 8)) (as : List Nat) : State :=
  if s.hbm.ce.isEmpty then s else
  let xs := (as.filterMap (spotPlace s p)).map (· / 32 * 32)
  (s.hbm.ce.filter xs.contains).foldl correctSector s

/-! ## Undo of epoch-scoped regions (R325) -/

/-- The position of an HBM address of a partition within the concatenation of its epoch-scoped regions. -/
def epochOff (s : State) (p : Fin 8) (a : Nat) : Option Nat :=
  let rs := (regions s p).filter fun r => r.2.2.2.testBit 2
  (rs.foldl (fun (acc : Nat × Option Nat) (st, sz, _, _) =>
    (acc.1 + sz, if acc.2.isNone && st ≤ a && a < st + sz then some (acc.1 + (a - st)) else acc.2)) (0, none)).2

/-- The inverse: the HBM address at a position of that concatenation. -/
def epochAddr (s : State) (p : Fin 8) (o : Nat) : Option Nat :=
  let rs := (regions s p).filter fun r => r.2.2.2.testBit 2
  (rs.foldl (fun (acc : Nat × Option Nat) (st, sz, _, _) =>
    (acc.1 + sz, if acc.2.isNone && acc.1 ≤ o && o < acc.1 + sz then some (st + (o - acc.1)) else acc.2)) (0, none)).2

/-- Granules of epoch-scoped regions that listed addresses touch, without repeats. -/
def epochGranules (s : State) (p : Fin 8) (as : List Nat) : List Nat :=
  (as.filterMap fun a => (epochOff s p a).map (· / 4096)).dedup

/-- Undo area of a Crew: base and size (0x7200 + c:37, :38). -/
def undoBase (s : State) (c : Fin 16) : Nat := objNat s 0 (0x7200 + c) 0x37 0
def undoSize (s : State) (c : Fin 16) : Nat := objNat s 0 (0x7200 + c) 0x38 0

/-- A write by a program of Crew c to these addresses is refused with ACCUM_SCOPE (R325). -/
def undoRefused (s : State) (c : Fin 16) (p : Fin 8) (as : List Nat) : Bool :=
  let gs := epochGranules s p as
  !gs.isEmpty && (undoSize s c == 0 || (List.range 16).any fun k =>
    k != c.val && crewOwner s (fin16 k) == some p &&
    match s.crews[fin16 k].attempt with
    | some a => gs.any a.undo.contains
    | none => false)

/-- Granules that a write touches and that are not recorded yet. -/
def undoNew (s : State) (c : Fin 16) (p : Fin 8) (as : List Nat) : List Nat :=
  match s.crews[c].attempt with
  | none => []
  | some a => (epochGranules s p as).filter fun g => !a.undo.contains g

/-- HBM addresses read to record those granules. -/
def undoReads (s : State) (c : Fin 16) (p : Fin 8) (as : List Nat) : List Nat :=
  (undoNew s c p as).flatMap fun g =>
    match epochAddr s p (4096 * g) with
    | some x => (List.range 4096).map (x + ·)
    | none => []

/-- Granules not recorded yet are copied into the Crew's undo area before the write (R325). -/
def undoSave (s : State) (c : Fin 16) (p : Fin 8) (as : List Nat) : State :=
  match s.crews[c].attempt with
  | none => s
  | some _ =>
    let new := undoNew s c p as
    let s := new.foldl (fun s g =>
      match epochAddr s p (4096 * g) with
      | some x => hbmWriteN s p (undoBase s c + 4096 * g) (hbmReadN s p x 4096)
      | none => s) s
    updAttempt s c fun a => { a with undo := a.undo ++ new }

/-- One recorded granule is copied back (R325). An uncorrectable sector of the undo area is counted and reported (R153); its stored
bits are what is copied (log 40). -/
def undoGranule (s : State) (c : Fin 16) (p : Fin 8) (g : Nat) : State :=
  match epochAddr s p (4096 * g) with
  | some x =>
    let from_ := (List.range 4096).map (undoBase s c + 4096 * g + ·)
    let s := match ueAt s (some p) from_ with | some a => ueEventAt s (some p) a | none => hbmFix s (some p) from_
    hbmWriteN s p x (hbmReadN s p (undoBase s c + 4096 * g) 4096)
  | none => s

/-- Every recorded granule is copied back, and the record is empty (R325). -/
def undoRestore (s : State) (c : Fin 16) : State :=
  match s.crews[c].attempt, crewOwner s c with
  | some a, some p =>
    let s := a.undo.foldl (fun s g => undoGranule s c p g) s
    updAttempt s c fun a => { a with undo := [] }
  | _, _ => s

/-- The Crew whose attempt a command belongs to. -/
def issuerCrew (iss : Issuer) : Option (Fin 16) := match iss with | .core c _ _ _ _ => some c | _ => none

/-! ## Places of R160 -/

/-- A place as one number in which two places are equal exactly when they are the same byte (R166): an HBM address by the MPA its
region maps it to (R143), a host place by address space and IOVA. -/
def flat (s : State) (f : Fin 9) (p : Option (Fin 8)) (e : Nat) : Nat :=
  match aLoc e with
  | 0 => e
  | 1 => match hbmSpot s p (aHbm e) with | some m => place 48 1 + m.1 | none => place 49 1 + aHbm e
  | _ => place 128 (regionSpace s f (aRegion e)) + place 100 1 + (regionIova s f (aRegion e) + aOff e)

/-- The same for `n` places from `e` on: ranges (first, length), one for each region that holds some of them. -/
def flatRanges (s : State) (f : Fin 9) (p : Option (Fin 8)) (e n : Nat) : List (Nat × Nat) :=
  match aLoc e, p with
  | 1, some q => (regions s q).filterMap fun (st, sz, base, _) =>
      let lo := max st (aHbm e)
      let hi := min (st + sz) (aHbm e + n)
      if lo < hi then some (place 48 1 + base + (lo - st), hi - lo) else none
  | _, _ => [(flat s f p e, n)]

/-- The host address and byte behind a place of a host region. -/
def hostSpot (s : State) (f : Fin 9) (e : Nat) : Nat := hostLoc s f (regionSpace s f (aRegion e)) (regionIova s f (aRegion e) + aOff e)

/-- The byte at a place. -/
def spaceByte (s : State) (f : Fin 9) (p : Option (Fin 8)) (e : Nat) : Byte :=
  match aLoc e with
  | 0 => palletByte s (fin8 (aCourse e)) (aPallet e)
  | 1 => hbmByteP s p (aHbm e)
  | _ => s.host.mem.read (hostSpot s f e)

/-- Bytes written at places, in order. -/
def spaceWriteL (s : State) (f : Fin 9) (p : Option (Fin 8)) (ws : List (Nat × Byte)) : State :=
  let s := (List.range 8).foldl (fun s n =>
    let l := ws.filter fun w => aLoc w.1 = 0 && aCourse w.1 = n
    if l.isEmpty then s else palletWriteL s (fin8 n) (l.map fun w => (aPallet w.1, w.2))) s
  let s := hbmWriteP s p ((ws.filter fun w => aLoc w.1 = 1).map fun w => (aHbm w.1, w.2))
  hostPut s ((ws.filter fun w => aLoc w.1 = 2).map fun w => (hostSpot s f w.1, w.2))

/-- HBM addresses among places. -/
def hbmOf (es : List Nat) : List Nat := (es.filter fun e => aLoc e = 1).map aHbm

/-- Places read by a command: what a Pallet or a base die corrects among them is corrected (R116, R152). -/
def spaceFix (s : State) (p : Option (Fin 8)) (es : List Nat) : State :=
  let s := (List.range 8).foldl (fun s n => palletFix s (fin8 n) ((es.filter fun e => aLoc e = 0 && aCourse e = n).map aPallet)) s
  hbmFix s p (hbmOf es)

/-- A host region entry gives a right (1 RD, 2 WR) (R178). -/
def hostRight (s : State) (f : Fin 9) (i right : Nat) : Bool :=
  let r := hostRegion s f i
  fld r 0 0 == 1 && fld r right right == 1

/-- A place lies in a port region (R165). -/
def portPlace (s : State) (f : Fin 9) (p : Option (Fin 8)) (e : Nat) : Bool :=
  match aLoc e with
  | 1 => match hbmSpot s p (aHbm e) with | some m => m.2.testBit 3 | none => false
  | 2 => fld (hostRegion s f (aRegion e)) 3 3 == 1
  | _ => false

/-- A place is outside its space: the partition's regions, a Pallet, or the host region's size (R167). -/
def spaceOut (s : State) (f : Fin 9) (p : Option (Fin 8)) (e : Nat) : Bool :=
  match aLoc e with
  | 1 => (hbmSpot s p (aHbm e)).isNone
  | 2 => fld (hostRegion s f (aRegion e)) 180 156 * 4096 ≤ aOff e
  | _ => false

/-- The first listed place whose page the host does not translate, or any host place while the port is down (R177, R179). -/
def hostFaultAt (s : State) (f : Fin 9) (es : List Nat) : Option Nat :=
  es.find? fun e => aLoc e = 2 && !hostMapped s f (regionSpace s f (aRegion e)) (regionIova s f (aRegion e) + aOff e) 1

/-- Where `n` bytes of a host region cannot be used with a right: their first place where the region is invalid, lacks the right or
ends before them, else the first place that does not translate (R178, R179). -/
def hostBufferFault (s : State) (f : Fin 9) (reg off n right : Nat) : Option Nat :=
  if !hostRight s f reg right || fld (hostRegion s f reg) 180 156 * 4096 < off + n then some (hostAddr reg off)
  else hostFaultAt s f ((List.range n).map fun i => hostAddr reg (off + i))

/-- Translations used stay in the function's cache, at most 2,048 pages (R179). With ATS disabled the Hods send untranslated addresses
and nothing is cached. -/
def atcUse (s : State) (f : Fin 9) (es : List Nat) : State :=
  if !s.host.funcs[f].cfg.ats then s else
  let pages := ((es.filter fun e => aLoc e = 2).map fun e =>
    (regionSpace s f (aRegion e), (regionIova s f (aRegion e) + aOff e) / 4096)).dedup
  if pages.isEmpty then s else
  updFunc s f fun k => { k with atc := (pages ++ k.atc.filter fun g => !pages.contains g).take 2048 }

/-- The access unit a place belongs to, in bytes (R171). -/
def unitBytes (s : State) (p : Option (Fin 8)) (e : Nat) : Nat :=
  match aLoc e with
  | 1 => match hbmSpot s p (aHbm e) with | some m => if mpaCoarse s m.1 then 2048 else 32 | none => 32
  | _ => 64

/-- Accesses that carry places in order: bytes adjacent in order that fall into one unit share one (R171). Each is its first place, its
unit and the places it carries. A place comes with a mark, and bytes of different marks never share an access; where `once`, an access
carries no byte twice, as a write does. -/
def accessRuns (s : State) (p : Option (Fin 8)) (once : Bool) (es : List (Nat × Nat)) : List (Nat × Nat × List Nat) :=
  ((es.foldl (fun (acc : List (Nat × (Nat × Nat × List Nat))) e =>
    let u := unitBytes s p e.1
    match acc with
    | (t, (x, v, l)) :: r =>
      if v = u && x / u = e.1 / u && t = e.2 && !(once && l.contains e.1) then (t, (x, v, e.1 :: l)) :: r else (e.2, (e.1, u, [e.1])) :: acc
    | [] => [(e.2, (e.1, u, [e.1]))]) []).reverse).map (·.2)

/-- The accesses of writes, and of reads marked by the index they are for where their region is a port (R163). -/
def writeRuns (s : State) (p : Option (Fin 8)) (es : List Nat) : List (Nat × Nat × List Nat) := accessRuns s p true (es.map fun e => (e, 0))
def readRuns (s : State) (f : Fin 9) (p : Option (Fin 8)) (es : List (Nat × Nat)) : List (Nat × Nat × List Nat) :=
  accessRuns s p false (es.map fun e => (e.1, if portPlace s f p e.1 then e.2 + 1 else 0))

/-- The first place written whose coarse burst the write would leave partial (R146). -/
def coarseShortAt (s : State) (p : Option (Fin 8)) (es : List Nat) : Option Nat :=
  ((writeRuns s p es).find? fun (_, u, l) => u = 2048 && l.length ≠ 2048).map fun (x, _, _) => x

/-- A coarse read shorter than its burst wastes the rest, by stack (R145, KL-12). -/
def coarseWaste (s : State) (p : Option (Fin 8)) (rs : List (Nat × Nat × List Nat)) : State :=
  rs.foldl (fun s (e, u, l) =>
    if u = 2048 && l.dedup.length < 2048 then
      match hbmSpot s p (aHbm e) with
      | some m => ctrAdd s 0 (0x5100 + (mpaMap s.hbm m.1).1) 0x20 (2048 - l.dedup.length)
      | none => s
    else s) s

/-- HBM accesses reach the regulators of their stacks, each charged the unit it occupies on the channel: those of a partition, or of PF0
under the device guarantee (R150, R190). -/
def hbmCharge (s : State) (p : Option (Fin 8)) (rs : List (Nat × Nat × List Nat)) : State :=
  regAsk s (rs.filterMap fun (e, u, _) =>
    if aLoc e = 1 then (hbmSpot s p (aHbm e)).map fun m => ⟨p, fin20 (mpaMap s.hbm m.1).1, u, 0, s.now⟩ else none)

/-- The same for plain reads and writes at HBM addresses. -/
def hbmTraffic (s : State) (p : Option (Fin 8)) (as : List Nat) : State := hbmCharge s p (writeRuns s p (as.map hbmAddr))

/-! ## Partial effects (R12) -/

/-- Which of some things happened is open: each did or did not, by a free value, as with the positions of a command that failed
partway (R12). -/
def someOf {α : Type} (s : State) (ws : List α) : List α × State :=
  ((ws.zipIdx.filter fun (_, i) => (Config.freeWord (s.free + i)).getLsbD 0).map (·.1), { s with free := s.free + ws.length })

/-- Bytes at places become free values: their contents are undefined (R270). -/
def freeBytesAt (s : State) (es : List Nat) : List (Nat × Byte) × State :=
  (es.zipIdx.map fun (e, i) => (e, (Config.freeWord (s.free + i)).setWidth 8), { s with free := s.free + es.length })

/-- Some of a command's flags, by a free value: those of the positions that were written (R12). -/
def someFlags (s : State) (fl : FlagByte) : FlagByte × State := let (v, s) := fresh s; (fl &&& v.setWidth _, s)

/-! ## Memory-side adders (R148, R149) -/

/-- An adder region of 0x5400 (R159): owner, base, size, format, scale. Fields packed as U8, U64, U64, U8, I16 (log 17). -/
def adderRec (s : State) (sub : Nat) : Nat × Nat × Nat × Nat × Int :=
  let b := objBytes s 0 0x5400 sub (List.replicate 20 0)
  (leAt b 0 1, leAt b 1 8, leAt b 9 8, leAt b 17 1, sext 16 (leAt b 18 2))

/-- The adder region of a partition that holds an address. -/
def adderAt (s : State) (p : Fin 8) (a : Nat) : Option (Nat × Nat × Nat × Int) :=
  (List.range 0x40).findSome? fun i =>
    let (o, base, size, fmt, sc) := adderRec s (i + 1)
    if o = p.val && base ≤ a && a < base + size then some (base, size, fmt, sc) else none

/-- Bytes of a stored element of an adder format: FP32, BF16, INT32, INT64, FIXED64. -/
def adderBytes (fmt : Nat) : Nat := match fmt with | 1 => 2 | 3 => 8 | 4 => 8 | _ => 4

def max63 : Int := 2 ^ 63 - 1

/-- `to_fixed` of R149. -/
def toFixed (x : BitVec 32) (sc : Int) : BitVec 64 × FlagByte :=
  match of32 false x with
  | .fin neg m e =>
    let (k, ix) := roundAt .rne m (e + sc) false 0
    let v : Int := if neg then -(k : Int) else k
    if (k : Int) > max63 - 1 then (BitVec.ofInt 64 (if neg then -max63 else max63), fOF ||| fNX)
    else (BitVec.ofInt 64 v, if ix then fNX else 0)
  | _ => (0x8000000000000000, fNV)

/-- `add_fixed` of R149. -/
def addFixed (m n : BitVec 64) : BitVec 64 × FlagByte :=
  let sat (x : BitVec 64) : Bool := x.toInt == max63 || x.toInt == -max63
  if m = 0x8000000000000000 || n = 0x8000000000000000 then (0x8000000000000000, 0)
  else if sat m && sat n && m != n then (0x8000000000000000, 0)
  else if sat m then (m, 0) else if sat n then (n, 0)
  else
    let t := m.toInt + n.toInt
    if t > max63 - 1 then (BitVec.ofInt 64 max63, fOF) else if t < 1 - max63 then (BitVec.ofInt 64 (-max63), fOF)
    else (BitVec.ofInt 64 t, 0)

/-- `from_fixed` of R149. -/
def fromFixed (n : BitVec 64) (sc : Int) : BitVec 32 × FlagByte :=
  if n = 0x8000000000000000 then (0x7FC00000, fNV)
  else if n.toInt = max63 then (0x7F800000, fOF) else if n.toInt = -max63 then (0xFF800000, fOF)
  else to32 false (.fin (n.toInt < 0) n.toInt.natAbs (-sc))

/-- A saturating integer add with limits ±lim; a saturated value stays (R148). -/
def addSat (lo hi : Int) (old x : Int) : Int × FlagByte :=
  if old ≤ lo ∨ hi ≤ old then (old, 0)
  else let t := old + x; if t ≤ lo then (lo, fNV) else if hi ≤ t then (hi, fNV) else (t, 0)

/-- The sum of a stored value and an addend of a floating-point format: one rounding of the exact sum (R136, R148). -/
def addOnce (f : Fmt) (old x : Nat) : Nat × FlagByte :=
  let (v, fl) := addV (readCode f true old) (readCode f true x)
  let (q, fq) := convert f .rne false false v
  (q, fl ||| fq)

/-- One memory-side add into a stored word (R148). -/
def adderAdd (fmt : Nat) (old x : Nat) : Nat × FlagByte :=
  match fmt with
  | 0 => addOnce .fp32 old x
  | 1 => addOnce .bf16 old x
  | 2 => let (t, fl) := addSat (-0x80000000) 0x7FFFFFFF (sext 32 old) (sext 32 x); (toField 32 t, fl)
  | 3 =>
    if sext 64 old = -(2 ^ 63) then (old, 0) else
    let (t, fl) := addSat (-max63) max63 (sext 64 old) (sext 64 x); (toField 64 t, fl)
  | _ => let (t, fl) := addFixed (BitVec.ofNat 64 old) (BitVec.ofNat 64 x); (t.toNat, fl)

/-- Adds applied in order to a partition's HBM: (address, addend); the flags of all (R148). -/
def hbmAdds (s : State) (p : Fin 8) (fmt : Nat) (l : List (Nat × Nat)) : State × FlagByte :=
  l.foldl (fun (acc : State × FlagByte) (a, x) =>
    let s := acc.1
    let n := adderBytes fmt
    let (v, fl) := adderAdd fmt (ofLe ((List.range n).map fun i => hbmByteP s (some p) (a + i))) x
    (hbmWriteP s (some p) ((leBytes n v).zipIdx.map fun (b, i) => (a + i, b)), acc.2 ||| fl)) (s, 0)

end Sys2Proof.Machine
end

