-- ==== Sys2Proof/Machine/Links.lean ====
section
/-! DEFINITION. The Rigger's link layer (11): packets and control words, routing, credit and retransmission. -/

namespace Sys2Proof.Machine

open Sys2Proof

/-! ## Packets (R241, R242) -/

/-- The module's MID; 0xFFFF_FFFF none (R254). -/
def ownMid (s : State) : Nat := objNat s 0 0x7000 1 0xFFFFFFFF

/-- The header as a number, LSEQ zero. -/
def packetHdr (type : Nat) (hop endc : Bool) (dst src ctag len offset msg xtag : Nat) : Nat :=
  place 196 type + place 195 (if hop then 1 else 0) + place 194 (if endc then 1 else 0) + place 175 (dst % 2 ^ 17) +
    place 158 (src % 2 ^ 17) + place 142 (ctag % 2 ^ 16) + place 129 len + place 97 (offset % 2 ^ 32) + place 65 (msg % 2 ^ 32) +
    place 49 (xtag % 2 ^ 16)

/-- Fields of a packet's header. -/
def pkHdr (bs : List Byte) : Nat := leAt bs 0 28
def pkLseq (bs : List Byte) : BitVec 24 := BitVec.ofNat 24 (nfld (pkHdr bs) 223 200)
def pkType (bs : List Byte) : Nat := nfld (pkHdr bs) 199 196
def pkHop (bs : List Byte) : Bool := (pkHdr bs).testBit 195
def pkEndc (bs : List Byte) : Bool := (pkHdr bs).testBit 194
def pkDst (bs : List Byte) : Nat := nfld (pkHdr bs) 191 175
def pkSrc (bs : List Byte) : Nat := nfld (pkHdr bs) 174 158
def pkCtag (bs : List Byte) : Nat := nfld (pkHdr bs) 157 142
def pkLen (bs : List Byte) : Nat := nfld (pkHdr bs) 141 129
def pkOffset (bs : List Byte) : Nat := nfld (pkHdr bs) 128 97
def pkMsg (bs : List Byte) : Nat := nfld (pkHdr bs) 96 65
def pkXtag (bs : List Byte) : Nat := nfld (pkHdr bs) 64 49
def pkPayload (bs : List Byte) : List Byte := sliceZ bs 28 (pkLen bs)
def pkSum (bs : List Byte) : BitVec 64 := BitVec.ofNat 64 (leAt bs (28 + pkLen bs) 8)

/-- A packet breaks R242. -/
def pkMalformed (bs : List Byte) : Bool :=
  let h := pkHdr bs
  nfld h 193 192 != 0 || nfld h 48 0 != 0 || pkLen bs > 4096 || !(1 ≤ pkType bs && pkType bs ≤ 4)

/-- Bytes of a packet without its CRC. -/
def pkBody (bs : List Byte) : Nat := 28 + pkLen bs + (if pkEndc bs then 8 else 0)

/-- Slots of 32 bytes that `n` bytes and their CRC occupy (R241). -/
def slotsFor (n : Nat) : Nat := (n + 4 + 31) / 32

/-- A received packet is whole, with or without its padding, and its CRC is right. The layout of R241 is read with any LEN, so that a
packet whose LEN is malformed has its CRC after its payload too (DEDUCED from R242, which accepts it for sequencing). -/
def pkCrcOk (bs : List Byte) : Bool :=
  pkBody bs + 4 ≤ bs.length && bs.length ≤ 32 * slotsFor (pkBody bs) && leAt bs (pkBody bs) 4 == (crc32c (bs.take (pkBody bs))).toNat

/-- A packet without LSEQ and CRC, given both and zero padding to the end of its last slot (R241). -/
def sealPacket (lseq : BitVec 24) (raw : List Byte) : List Byte :=
  let b := raw.take 25 ++ leBytes 3 lseq.toNat ++ raw.drop 28
  sliceZ (b ++ leBytes 4 (crc32c b).toNat) 0 (32 * slotsFor b.length)

/-- Slots of 32 bytes a packet with its CRC occupies (R241). -/
def pkSlots (raw : List Byte) : Nat := slotsFor raw.length

/-- What a payload at an offset of its chunk adds to the chunk's checksum (R243): each byte by its place in its word, times the word's
factor 2i + 1, so that the sum is the same however the chunk is cut into packets. -/
def chunkSum (off : Nat) (payload : List Byte) : BitVec 64 :=
  payload.zipIdx.foldl (fun a (b, k) =>
    a + BitVec.ofNat 64 (b.toNat * 2 ^ (8 * ((off + k) % 8)) * (2 * ((off + k) / 8) + 1))) 0

/-! ## Control words (R244, R245) -/

def mkCtl (ctype : Nat) (ackseq : BitVec 24) (cred0 cred1 : BitVec 16) (aux tdist param : Nat) (val0 val1 : Nat) : Ctl :=
  let body := place 252 ctype + place 228 ackseq.toNat + place 212 cred0.toNat + place 196 cred1.toNat + place 172 (aux % 2 ^ 24) +
    place 168 tdist + place 164 param + place 100 (val0 % 2 ^ 64) + place 36 (val1 % 2 ^ 64)
  BitVec.ofNat 256 (body + (crc32c ((leBytes 32 body).drop 4)).toNat)

def ctType (w : Ctl) : Nat := fld w 255 252
def ctAck (w : Ctl) : BitVec 24 := BitVec.ofNat 24 (fld w 251 228)
def ctAux (w : Ctl) : Nat := fld w 195 172
def ctTdist (w : Ctl) : Nat := fld w 171 168
def ctParam (w : Ctl) : Nat := fld w 167 164
def ctVal0 (w : Ctl) : Nat := fld w 163 100
def ctVal1 (w : Ctl) : Nat := fld w 99 36

/-- The CRC of a control word is right and its type exists. -/
def ctlOk (w : Ctl) : Bool := fld w 31 0 == (crc32c ((wordBytes w).drop 4)).toNat && ctType w ≤ 4

/-- A control word leaves a port, on a lane where one is named, with its ACKSEQ, credits and the module's TDIST; nothing is owed then
(R247). -/
def sendCtlOn (s : State) (p : Fin 16) (lane : Option (Fin 4)) (ctype aux param val0 val1 : Nat) : State :=
  let k := s.rigger.ports[p]
  let w := mkCtl ctype (k.rxSeq - 1) k.freed0 k.freed1 aux s.rigger.sync.tdist param val0 val1
  emit (updPort s p fun k => { k with ackOwed := false, slotsIn := 0 }) (.control p lane w)

/-- A control word on whatever lane has the next slot. -/
def sendCtl (s : State) (p : Fin 16) (ctype aux param val0 val1 : Nat) : State := sendCtlOn s p none ctype aux param val0 val1

/-! ## Codewords and lanes (R238, R240) -/

/-- Bit i of a codeword's slot map: slot i holds a control word. The map is bits 19 to 0, and slot i starts at bit 20 + 256 i (log 43). -/
def cwControl (c : Codeword) (i : Nat) : Bool := c.getLsbD i
def cwSlot (c : Codeword) (i : Nat) : BitVec 256 := c.extractLsb' (20 + 256 * i) 256

/-- The codeword of up to twenty slots, each a control word (true) or packet data; slots left over hold zeros. -/
def mkCodeword (slots : List (Bool × BitVec 256)) : Codeword :=
  (slots.take 20).zipIdx.foldl (fun c (x, i) =>
    c ||| (BitVec.ofNat 5140 (if x.1 then 2 ^ i else 0)) ||| (x.2.setWidth 5140 <<< (20 + 256 * i))) 0

/-- The data slots of a packet (R241). -/
def packetSlots (bs : List Byte) : List (Bool × BitVec 256) :=
  (List.range ((bs.length + 31) / 32)).map fun i => (false, BitVec.ofNat 256 (leAt bs (32 * i) 32))

/-- The slot stream cut into codewords, codeword by codeword, slot 0 first (R240). -/
def codewordsOf (slots : List (Bool × BitVec 256)) : List Codeword :=
  (List.range ((slots.length + 19) / 20)).map fun k => mkCodeword ((slots.drop (20 * k)).take 20)

/-- Logical lanes of a port in service, ascending (R240). -/
def lanesOf (k : Port) : List Nat := (List.range 4).filter fun l => !k.dark.contains l

/-- Lanes in service, 0x7100 + p:02. -/
def Port.lanes (k : Port) : Nat := (lanesOf k).length

/-- The logical lane that carries codeword number k of a port (R240). -/
def laneOf (k : Port) (n : Nat) : Nat := let ls := lanesOf k; ls.getD (n % ls.length) 0

/-- The own codeword count of a port's lanes: 39.0625 million a second since the port last came UP (R238, R240, log 43). -/
def laneCount (s : State) (p : Fin 16) : Nat := (s.now.toNat - (s.rigger.ports[p]).upAt.toNat) * 5 / 128

/-- An ALIGN word on a logical lane, with the lane's codeword count and the own MID (R240, R245). -/
def sendAlign (s : State) (p : Fin 16) (l : Fin 4) : State :=
  sendCtlOn (updPort s p fun k => { k with aligned := k.aligned.set l (laneCount s p) }) p (some l) 3 0 l (laneCount s p) (ownMid s)

/-- The lane's next ALIGN is due: one at least every 8,192 codewords (R240), where the next IDLE of the lane, 391 codewords on, would be
too late. -/
def alignDue (s : State) (p : Fin 16) (l : Fin 4) : Bool :=
  decide (8192 ≤ laneCount s p + 391 - (s.rigger.ports[p]).aligned.getD l 0)

/-! ## Routing (R255, R256) -/

/-- The routing entry of a destination: PORTA, PORTB, BVALID, RELAY, VIA. -/
def routeEntry (s : State) (dst : Nat) : Option (Nat × Nat × Bool × Bool × Nat) :=
  let t := objBytes s 0 0x7400 1 []
  (List.range (t.length / 8)).findSome? fun i =>
    let e := leAt t (8 * i) 8
    if e.testBit 0 && nfld e 63 47 = dst then some (nfld e 41 38, nfld e 37 34, e.testBit 33, e.testBit 32, nfld e 31 15) else none

def portServes (s : State) (p via : Nat) : Bool :=
  let k := s.rigger.ports[fin16 p]
  k.state == .up && k.peer == some via

/-- The port a packet for a MID leaves by; `direct` asks for an entry without relay (R256, R257). -/
def routePort (s : State) (dst : Nat) (direct : Bool) : Option (Fin 16) :=
  if ownMid s = 0xFFFFFFFF then none else
  match routeEntry s dst with
  | some (a, b, bv, relay, via) =>
    if direct && relay then none
    else if portServes s a via then some (fin16 a)
    else if bv && portServes s b via then some (fin16 b)
    else none
  | none => none

/-- Ports of an entry that are UP with another peer than VIA are counted as miscabled (R256). -/
def countMiscabled (s : State) (dst : Nat) : State :=
  match routeEntry s dst with
  | some (a, b, bv, _, via) =>
    let bad (p : Nat) : Bool := let k := s.rigger.ports[fin16 p]; k.state == .up && k.peer != some via
    let s := if bad a then ctrAdd s 0 (0x7100 + a) 0x19 1 else s
    if !portServes s a via && bv && bad b then ctrAdd s 0 (0x7100 + b) 0x19 1 else s
  | none => s

/-! ## Sending (R248, R249, R291) -/

def keptBytes (k : Port) : Nat := (k.kept.map fun x => 32 * ((x.bytes.length + 31) / 32)).sum

/-- A packet leaves a port: reserved in its class, kept until acknowledged, counted (R248, R249). -/
def transmitNow (s : State) (p : Fin 16) (hop : Bool) (raw : List Byte) : State :=
  let k := s.rigger.ports[p]
  let n := pkSlots raw
  let bs := sealPacket k.txSeq raw
  let s := updPort s p fun k =>
    { k with
      txSeq := k.txSeq + 1
      kept := k.kept ++ [⟨k.txSeq, bs⟩]
      used0 := if hop then k.used0 else k.used0 + n
      used1 := if hop then k.used1 + n else k.used1 }
  let s := ctrAdd s 0 (0x7100 + p) 0x10 1
  emit (evAdd s 0x5001 p 0xFF (pkLen raw)) (.packet p bs)

/-- A packet fits its class at the peer and the port's buffer. -/
def portRoom (k : Port) (hop : Bool) (raw : List Byte) : Bool :=
  let n := pkSlots raw
  k.state == .up && (if hop then k.used1 else k.used0) + n ≤ 8192 && keptBytes k + 32 * n ≤ 2 ^ 22

/-- The place of a packet in the order of R291: relayed, then VOTE and SYNC, then DATA and CHUNK. -/
def pkRank (hop : Bool) (raw : List Byte) : Nat := if hop then 0 else if pkType raw ≥ 3 then 1 else 2

/-- A waiting packet leaves. -/
def leaveNow (s : State) (p : Fin 16) (w : Queued) : State :=
  transmitNow (updPort s p fun k => { k with waiting := k.waiting.erase w }) p w.hop w.raw

/-- Waiting packets of one rank leave in order as far as there is room. -/
def flushRank (s : State) (p : Fin 16) (r : Nat) : State :=
  let mine := s.rigger.ports[p].waiting.filter fun w => pkRank w.hop w.raw = r
  (mine.foldl (fun (acc : State × Bool) w =>
    if acc.2 || !portRoom acc.1.rigger.ports[p] w.hop w.raw then (acc.1, true) else (leaveNow acc.1 p w, false)) (s, false)).1

/-- DATA and CHUNK packets of a Crew that wait at a port. -/
def shareOf (k : Port) (t : Nat) : List Queued := k.waiting.filter fun w => pkRank w.hop w.raw = 2 && pkCtag w.raw = t

/-- The Crew's packet that goes next: one of its oldest command, in order (R291). -/
def nextShare (k : Port) (t : Nat) : Option Queued :=
  let l := shareOf k t
  l.find? fun w => l.all fun x => w.age ≤ x.age

/-- The Crew the round comes to next: the lowest tag above the one served last, or the lowest. -/
def nextTag (k : Port) : Option Nat :=
  let ts := (k.waiting.filter fun w => pkRank w.hop w.raw = 2).map fun w => pkCtag w.raw
  ((ts.filter (k.served < ·)).min?).orElse fun _ => ts.min?

/-- The deficit round-robin of R291: a Crew the round comes to adds its weight times 4,096 to its deficit and sends while the payload of
its next packet fits; one whose queue empties has deficit 0. A packet without room at the peer stops the round where it stands. -/
def flushShares : Nat → State → Fin 16 → State
  | 0, s, _ => s
  | n + 1, s, p =>
    let k := s.rigger.ports[p]
    match k.serving with
    | some t =>
      match nextShare k t with
      | some w =>
        let d := assocGet k.deficits t 0
        if d < pkLen w.raw then flushShares n (updPort s p fun k => { k with serving := none, served := t }) p
        else if !portRoom k w.hop w.raw then s
        else
          let more := 1 < (shareOf k t).length
          let next (k : Port) : Port :=
            if more then { k with deficits := assocSet k.deficits t (d - pkLen w.raw) 0 }
            else { k with deficits := assocSet k.deficits t 0 0, serving := none, served := t }
          flushShares n (updPort (leaveNow s p w) p next) p
      | none => flushShares n (updPort s p fun k => { k with serving := none, served := t }) p
    | none =>
      match nextTag k with
      | some t =>
        let w := ((nextShare k t).map (·.weight)).getD 0
        flushShares n (updPort s p fun k => { k with serving := some t, deficits := assocSet k.deficits t (assocGet k.deficits t 0 + w * 4096) 0 }) p
      | none => s

/-- Waiting packets leave in the order of R291: relayed ones, VOTE and SYNC, then DATA and CHUNK. -/
def flushPort (s : State) (p : Fin 16) : State :=
  let s := flushRank (flushRank s p 0) p 1
  flushShares (3 * (s.rigger.ports[p]).waiting.length) s p

/-- A packet is queued on a port. -/
def queuePacket (s : State) (p : Fin 16) (w : Queued) : State :=
  flushPort (updPort s p fun k => { k with waiting := k.waiting ++ [w] }) p

/-- A packet the module originates, sent by the route of its destination, with its command's weight and age; the Bool says there was a
route (R256). -/
def sendPacket (s : State) (dst type : Nat) (endc : Option (BitVec 64)) (ctag offset msg xtag : Nat) (payload : List Byte)
    (share : Nat × Nat) : State × Bool :=
  let s := countMiscabled s dst
  match routePort s dst false with
  | none => (s, false)
  | some p =>
    let hdr := packetHdr type false endc.isSome dst (ownMid s) ctag payload.length offset msg xtag
    let raw := leBytes 28 hdr ++ payload ++ (match endc with | some c => leBytes 8 c.toNat | none => [])
    (queuePacket s p ⟨false, raw, share.1, share.2⟩, true)

/-- Packets of a chunk that starts at an offset of its message (R242, R243). -/
def chunkPackets (off : Nat) (chunk : List Byte) : List (Nat × List Byte × Option (BitVec 64)) :=
  let n := (chunk.length + 4095) / 4096
  (List.range n).map fun i => (off + 4096 * i, (chunk.drop (4096 * i)).take 4096, if i + 1 = n then some (chunkSum 0 chunk) else none)

/-- Packets of a message in chunks of 2^cs bytes, each packet of at most 4,096 (R242, R243): offset, payload and the checksum of
the chunk the packet ends. -/
def messagePackets (cs : Nat) (bs : List Byte) : List (Nat × List Byte × Option (BitVec 64)) :=
  (List.range ((bs.length + 2 ^ cs - 1) / 2 ^ cs)).flatMap fun k => chunkPackets (k * 2 ^ cs) ((bs.drop (k * 2 ^ cs)).take (2 ^ cs))

/-! ## Acknowledgement (R248, R249) -/

/-- ACKSEQ and the credits of a control word are taken: acknowledged packets leave the buffer, returned slots come back, and
waiting packets leave (R248, R249). An ACKSEQ incomparable with a kept packet's number does not acknowledge it (R11). -/
def takeAck (s : State) (p : Fin 16) (w : Ctl) : State :=
  let k := s.rigger.ports[p]
  let a := ctAck w
  let kept := k.kept.filter fun x => !(x.lseq == a || serialAfter a x.lseq)
  let c0 := BitVec.ofNat 16 (fld w 227 212)
  let c1 := BitVec.ofNat 16 (fld w 211 196)
  let s := updPort s p fun k =>
    { k with
      kept := kept
      used0 := k.used0 - (c0 - k.cred0).toNat
      used1 := k.used1 - (c1 - k.cred1).toNat
      cred0 := c0
      cred1 := c1
      timeouts := if kept.length < k.kept.length then 0 else k.timeouts }
  flushPort s p

/-- Kept packets from one number on are sent again, in order (R248). -/
def resendFrom (s : State) (p : Fin 16) (from_ : BitVec 24) : State :=
  let l := s.rigger.ports[p].kept.filter fun x => x.lseq = from_ || serialAfter x.lseq from_
  l.foldl (fun s x => emit (ctrAdd s 0 (0x7100 + p) 0x12 1) (.packet p x.bytes)) s

/-! ## Port states (R250, R386) -/

def portCode (t : PState) : Nat := match t with | .down => 0 | .training => 1 | .up => 2

/-- A port changes state; a LINK event where it is a change. -/
def setPort (s : State) (p : Fin 16) (t : PState) : State :=
  if s.rigger.ports[p].state = t then s else
  let s := updPort s p fun k => { k with state := t }
  let k := s.rigger.ports[p]
  raiseEvent s 9 (portCode t) p 0xFF (leBytes 4 k.lanes ++ leBytes 4 (k.peer.getD 0xFFFFFFFF))

/-- Both directions start again at LSEQ 0, with nothing kept or waiting; the peer is learnt anew (R250). -/
def clearPort (k : Port) : Port :=
  { k with txSeq := 0, rxSeq := 0, kept := [], used0 := 0, used1 := 0, cred0 := 0, cred1 := 0, freed0 := 0, freed1 := 0,
           timeouts := 0, lastNak := none, ackOwed := false, slotsIn := 0, lanesIn := [[], [], [], []], turn := 0, skip := [0, 0, 0, 0],
           asm := [], tdist := 15, lastIdle := none, waiting := [], deficits := [], serving := none, served := 0 }

/-- Crew tags of the unacknowledged packets of a port, originated or relayed (R250). -/
def unackedTags (s : State) (p : Fin 16) : List Nat := (s.rigger.ports[p].kept.map fun x => pkCtag x.bytes).dedup

/-- Some packet the module originated, sent and not acknowledged or still waiting at a port, is one of `sel`. -/
def anyOut (s : State) (sel : List Byte → Bool) : Bool :=
  s.rigger.ports.toList.any fun k => (k.kept.map (·.bytes) ++ k.waiting.map (·.raw)).any fun b => pkSrc b = ownMid s && sel b

/-- A packet of a Crew that the module originated is not acknowledged yet (R222). -/
def packetsOut (s : State) (ctag : Nat) : Bool := anyOut s fun b => pkCtag b = ctag

/-- Some CHUNK or SYNC packet of an operation that the module originated is not acknowledged yet (R292). -/
def messageUnacked (s : State) (ctag msg : Nat) : Bool :=
  anyOut s fun b => pkCtag b = ctag && (pkType b = 2 || pkType b = 4) && pkMsg b = msg

end Sys2Proof.Machine
end

