-- ==== Sys2Proof/Machine/Mm.lean ====
section
/-! DEFINITION. The fields of MM and LOADW, the ranges a running MM registers (R57), and the tiles of a Course with their
interlock and owners (R89 to R91). -/

namespace Sys2Proof.Machine

open Sys2Proof

/-! ## Fields of MM (R62) and LOADW (R65) -/

def mmAfmt (c : Cmd) : Nat := fld c 12 9
def mmWfmt (c : Cmd) : Nat := fld c 16 13
def mmOfmt (c : Cmd) : Nat := fld c 20 17
def mmTile (c : Cmd) : Nat := fld c 26 21
def mmInit (c : Cmd) : Bool := c.getLsbD 27
def mmFinal (c : Cmd) : Bool := c.getLsbD 28
def mmAcc16 (c : Cmd) : Bool := c.getLsbD 29
def mmStrict (c : Cmd) : Bool := c.getLsbD 30
def mmTag (c : Cmd) : Nat := fld c 63 32
def mmM (c : Cmd) : Nat := fld c 79 64
def mmPasses (c : Cmd) : Nat := fld c 92 80
def mmAdesc (c : Cmd) : Nat := fld c 111 96
def mmWdesc (c : Cmd) : Nat := fld c 127 112
def mmArow0 (c : Cmd) : Nat := fld c 159 128
def mmK0 (c : Cmd) : Nat := fld c 191 160
def mmN0 (c : Cmd) : Nat := fld c 223 192
def mmSadesc (c : Cmd) : Nat := fld c 239 224
def mmSwdesc (c : Cmd) : Nat := fld c 255 240
def mmSendon (c : Cmd) : Nat := fld c 271 256
def mmEvent (c : Cmd) : Nat := fld c 287 272
def mmOdesc (c : Cmd) : Nat := fld c 303 288
def mmOrow0 (c : Cmd) : Nat := fld c 335 304
def mmOcol0 (c : Cmd) : Nat := fld c 367 336

def lwWfmt (c : Cmd) : Nat := fld c 11 8
def lwStrict (c : Cmd) : Bool := c.getLsbD 12
def lwWdesc (c : Cmd) : Nat := fld c 79 64
def lwK0 (c : Cmd) : Nat := fld c 127 96
def lwN0 (c : Cmd) : Nat := fld c 159 128
def lwEvent (c : Cmd) : Nat := fld c 175 160

/-- Formats of an MM as formats; FP32 for a code that names none (such a command is rejected first). -/
def mmAf (c : Cmd) : Fmt := (fmtOf (mmAfmt c)).getD .fp32
def mmWf (c : Cmd) : Fmt := (fmtOf (mmWfmt c)).getD .fp32

/-- K elements of one pass (R54). -/
def kPerPass (wf : Fmt) (strict : Bool) : Nat :=
  if strict then 512 else
  match wf with
  | .e2m1 => 2048
  | .e5m2 | .e4m3 | .e3m2 | .e2m3 | .int8 => 1024
  | _ => 512

/-- The operand class of a sum (R88). -/
def mmClass (c : Cmd) : AccClass :=
  if mmStrict c then .strict else
  match mmWf c with
  | .int8 => .integer
  | .bf16 | .fp16 | .fp32 => .chained
  | _ => .exact

/-! ## Reading operands; tile views (R125) -/

/-- The tile a tile view names. -/
def viewTile (s : State) (n : Fin 8) (d : Cmd) : Tile := s.courses[n].tiles[fin64 (dTile d)]

/-- The half that holds the last cleared pass holds binary16 partials: at most eight passes of a 16-bit sum have cleared. Where the
ninth pass has ended and not cleared, the tile is widened and that half is not (R79, R85; log 38). -/
def tile16 (t : Tile) : Bool := t.acc16 && t.passes ≤ 8

/-- The format, rows and columns a descriptor gives as a source on Course n: a tile view takes them from its tile. -/
def srcFmt (s : State) (n : Fin 8) (d : Cmd) : Fmt :=
  if dKind d = 2 then
    let t := viewTile s n d
    if t.cls = .integer then .int32 else if tile16 t then .fp16 else .fp32
  else dFmt d
def srcRows (s : State) (n : Fin 8) (d : Cmd) : Nat :=
  if dKind d = 2 then (viewTile s n d).rows else dRows d
def srcCols (d : Cmd) : Nat := if dKind d = 2 then 512 else dCols d

/-- Bytes of a partial and its Pallet offset in a half (R127). -/
def partBytes (acc16 : Bool) : Nat := if acc16 then 2 else 4
def partOff (e : Cmd) (half acc16 : Bool) (m n : Nat) : Nat := tHalf e half + 2048 * m + partBytes acc16 * n

/-- Pallet offsets an element of a source occupies. -/
def srcAddrs (s : State) (n : Fin 8) (d : Cmd) (r c : Nat) : List Nat :=
  if dKind d = 2 then
    let t := viewTile s n d
    if t.lanes ≤ c then [] else (List.range (partBytes (tile16 t))).map (partOff t.entry t.current (tile16 t) r c + ·)
  else if inExt d r c then elemAddrs d r c else []

/-- The code of element (r, c) of a source on Course n: of a tile view the partial of the last cleared pass, +0 for a lane that took no
part in it (R58, R125). -/
def srcCode (s : State) (n : Fin 8) (d : Cmd) (r c : Nat) : Nat :=
  if dKind d = 2 then
    let t := viewTile s n d
    if t.lanes ≤ c then 0 else ofLe (palletReadN s n (partOff t.entry t.current (tile16 t) r c) (partBytes (tile16 t)))
  else elemCode (palletByte s n) d r c

/-- The value of element (r, c) of a source on Course n. -/
def srcVal (s : State) (n : Fin 8) (flush : Bool) (d : Cmd) (r c : Nat) : Val :=
  if dKind d = 2 then readCode (srcFmt s n d) flush (srcCode s n d r c) else elemVal (palletByte s n) flush d r c

/-- First byte and one past the last of the panels that hold rows [r0, r0 + rn) and columns [c0, c0 + cn) (log 11). -/
def regionRange (d : Cmd) (r0 rn c0 cn : Nat) : Nat × Nat :=
  let hR := 16 * 2 ^ dPRL d
  let hC := brickW (dFmt d) * 2 ^ dPCL d
  let r1 := min (r0 + rn) (dRows d) - 1
  let c1 := min (c0 + cn) (dCols d) - 1
  (dBase d + (r0 / hR) * dPSR d + (c0 / hC) * dPSC d, dBase d + (r1 / hR) * dPSR d + (c1 / hC) * dPSC d + panelB d)

/-- The same of a source; of a tile view the row slots of the half that holds the last cleared pass (R88, R125). -/
def srcRange (s : State) (n : Fin 8) (d : Cmd) (r0 rn c0 cn : Nat) : Nat × Nat :=
  if dKind d = 2 then let h := tHalf (viewTile s n d).entry (viewTile s n d).current; (h + 2048 * r0, h + 2048 * (r0 + rn))
  else regionRange d r0 rn c0 cn

/-- Table entries of the tiles viewed by descriptors, copied at issue (R119). -/
def viewEntries (k : Course) (ds : List (Nat × Cmd)) : List (Nat × Cmd) :=
  ((ds.filter fun d => dKind d.2 = 2).map fun d => dTile d.2).map fun h => (h, k.tiles[fin64 h].entry)

/-! ## What an MM registers (R57) -/

/-- The ranges a running MM registers with its Pallet: activations, weights, scales and output. -/
def mmRanges (s : State) (n : Fin 8) (u : UnitCmd) : List (Nat × Nat) :=
  let c := u.word
  let a := cmdDesc u (mmAdesc c)
  let w := cmdDesc u (mmWdesc c)
  let kn := mmPasses c * kPerPass (mmWf c) (mmStrict c)
  let whole (d : Cmd) := if dKind d = 1 then [regionRange d 0 (dRows d) 0 (dCols d)] else []
  [srcRange s n a (mmArow0 c) (mmM c) (mmK0 c) kn, srcRange s n w (mmN0 c) 512 (mmK0 c) kn] ++
    whole (cmdDesc u (mmSadesc c)) ++ whole (cmdDesc u (mmSwdesc c)) ++
    (if mmOdesc c ≠ 0 && mmFinal c then [regionRange (cmdDesc u (mmOdesc c)) (mmOrow0 c) (mmM c) (mmOcol0 c) 512] else [])

/-- The MM that runs on a Course, from dispatch to retirement. -/
def runningMM (c : Course) : Option UnitCmd :=
  match c.queue with
  | u :: _ => if u.run && u.op = 0x21 then some u else none
  | [] => none

/-- A write of any other command to one of these offsets waits (R57). -/
def guarded (s : State) (n : Fin 8) (as : List Nat) : Bool :=
  s.courses[n].queue.any fun u => u.run && u.op = 0x21 && as.any fun a => (mmRanges s n u).any fun r => decide (r.1 ≤ a ∧ a < r.2)

/-! ## Tiles and their interlock (R89 to R91) -/

/-- The tile handles a command names: its field and the tile views among its descriptors (R90, R128). -/
def usesTile (u : UnitCmd) (h : Nat) : Bool :=
  u.tiles.any (fun t => t.1 = h) || u.descs.any fun d => dKind d.2 = 2 && dTile d.2 = h

/-- An earlier command in tile order, or a send-on not read yet, holds tile h of Course n (R90). -/
def tileHeld (s : State) (n : Fin 8) (h order : Nat) : Bool :=
  (s.courses[n].queue.any fun u => u.order < order && usesTile u h) ||
  (s.trowels[n].queue.any fun u => u.order < order && usesTile u h) || s.courses[n].tiles[fin64 h].sendon.isSome

/-- A command waits on one of its tiles. -/
def tileWaits (s : State) (n : Fin 8) (u : UnitCmd) : Bool :=
  (u.tiles.map (·.1) ++ (u.descs.filter fun d => dKind d.2 = 2).map fun d => dTile d.2).any fun h => tileHeld s n h u.order

def updTile (s : State) (n : Fin 8) (h : Nat) (g : Tile → Tile) : State :=
  updCourse s n fun c => { c with tiles := c.tiles.set (fin64 h) (g c.tiles[fin64 h]) }

/-- Events and counts an issuer's LAUNCH has waited for (R91 b). -/
def issuerWaits (s : State) (iss : Issuer) : List (Nat × Nat) :=
  match iss with
  | .core c _ _ _ _ => match s.crews[c].attempt with | some a => a.waits | none => []
  | _ => []

/-- Whether a Stroke program has itself waited for an event, by loads of its counter, is free: no rule tells which of a core's loads is
a wait (DESIGN CHOICE, log 29). -/
def programWaited (s : State) (iss : Issuer) : Bool :=
  match iss with
  | .core _ _ _ _ _ => (Config.freeWord s.free).getLsbD 0
  | _ => false

/-- The free bit of `programWaited` is spent where one of the tiles could pass by an event. -/
def waitSpent (s : State) (n : Fin 8) (hs : List Nat) : State :=
  if hs.any fun h => !s.courses[n].tiles[fin64 h].evs.isEmpty then { s with free := s.free + 1 } else s

/-- The tile may not be named by this issuer's stream (R91). -/
def tileShared (s : State) (n : Fin 8) (h : Nat) (iss : Issuer) : Bool :=
  let t := s.courses[n].tiles[fin64 h]
  match courseOwner s n with
  | none => false
  | some p =>
    deterministic s p && t.owner.isSome && t.owner != issuerStream s iss &&
      (t.inUse || !(t.fenced || t.evs.any fun (e, k) => (issuerWaits s iss).any fun (e', k') => e = e' && k ≤ k') && !(!t.evs.isEmpty && programWaited s iss))

/-- A command of a stream takes a tile: its stream owns it from now on (R91). -/
def tileTake (s : State) (n : Fin 8) (h : Nat) (iss : Issuer) : State :=
  match issuerStream s iss with
  | some st => updTile s n h fun t => { t with owner := some st, inUse := true, evs := [], fenced := false }
  | none => s

/-- The tiles a command names, each once. -/
def cmdTiles (u : UnitCmd) : List Nat := (u.tiles.map (·.1)).dedup

/-- A command that runs takes every tile it names (R91). -/
def tilesTake (s : State) (n : Fin 8) (u : UnitCmd) : State := (cmdTiles u).foldl (fun s h => tileTake s n h u.iss) s

/-- The queues of the units whose commands name tiles of Course n: the Course, its Trowel and its two Hods (R118). -/
def tileQueues (s : State) (n : Fin 8) : List UnitCmd :=
  s.courses[n].queue ++ s.trowels[n].queue ++ s.hods[fin16 (2 * n)].queue ++ s.hods[fin16 (2 * n + 1)].queue

/-- A command that took tile h has not retired. -/
def tileRuns (s : State) (n : Fin 8) (h : Nat) : Bool :=
  (tileQueues s n).any fun u => u.run && u.res.cls ≠ .rejected && usesTile u h

/-- A command on a tile has retired: the tile is in use by its stream no more, unless another command that took it still runs. -/
def tileGive (s : State) (n : Fin 8) (h : Nat) : State :=
  if tileRuns s n h then s else updTile s n h fun t => { t with inUse := false, evs := [] }

/-- A command that ran has retired: none of its tiles is in use by it any more (R91). -/
def tilesGive (s : State) (n : Fin 8) (u : UnitCmd) : State := (cmdTiles u).foldl (fun s h => tileGive s n h) s

end Sys2Proof.Machine
end

