-- ==== Sys2Proof/Machine/Crew.lean ====
section
/-! DEFINITION. Crews (12): membership and levels, packets to ranks, states, epochs and the handshake, faults and the failure of
commands in flight. -/

namespace Sys2Proof.Machine

open Sys2Proof

/-! ## Membership (R263 to R265) -/

def crewIdx (c : Fin 16) : Nat := 0x7200 + c.val
def crewTag (s : State) (c : Fin 16) : Nat := objNat s 0 (crewIdx c) 2 0
def crewP (s : State) (c : Fin 16) : Nat := objNat s 0 (crewIdx c) 3 1

/-- Group sizes g0 to g3. -/
def crewG (s : State) (c : Fin 16) : List Nat :=
  let b := objBytes s 0 (crewIdx c) 4 (leBytes 4 1 ++ leBytes 4 1 ++ leBytes 4 1 ++ leBytes 4 1)
  (List.range 4).map fun i => leAt b (4 * i) 4

/-- Wire format codes of the four levels (R279). -/
def crewWire (s : State) (c : Fin 16) : List Nat :=
  let b := objBytes s 0 (crewIdx c) 5 [0, 0, 0, 0]
  (List.range 4).map fun i => leAt b i 1

def crewMap (s : State) (c : Fin 16) : List Byte := objBytes s 0 (crewIdx c) 6 []
def rankMid (s : State) (c : Fin 16) (r : Nat) : Nat := leAt (crewMap s c) (4 * r) 4

/-- The rank of a MID, if it is a member. -/
def midRank (s : State) (c : Fin 16) (m : Nat) : Option Nat := (List.range (crewP s c)).find? fun r => rankMid s c r = m

/-- The own rank; 0 where there is none, which no command reaches. -/
def myRank (s : State) (c : Fin 16) : Nat := s.crews[c].rank.getD 0

/-- Stride of a level's digit. -/
def gStride (g : List Nat) (l : Nat) : Nat := (g.take l).prod

/-- Digit l of a rank (R264). -/
def digit (g : List Nat) (r l : Nat) : Nat := (r / gStride g l) % (max 1 (g.getD l 1))

/-- The rank of the level-l group of r at position j. -/
def atPos (g : List Nat) (r l j : Nat) : Nat := r - digit g r l * gStride g l + j * gStride g l

/-- Levels in use, ascending. -/
def levelsIn (g : List Nat) : List Nat := (List.range 4).filter fun l => 1 < g.getD l 1

/-- The level-l peers of a rank. -/
def peersAt (g : List Nat) (r l : Nat) : List Nat :=
  ((List.range (g.getD l 1)).map (atPos g r l)).filter (· ≠ r)

/-- All level peers of the own rank. -/
def crewPeers (s : State) (c : Fin 16) : List Nat := let g := crewG s c; (levelsIn g).flatMap (peersAt g (myRank s c))

/-- The level at which a rank is a peer of the own one. -/
def peerLevel (s : State) (c : Fin 16) (r : Nat) : Option Nat :=
  let g := crewG s c
  (levelsIn g).find? fun l => (peersAt g (myRank s c) l).contains r

/-- The membership hash (R265). -/
def membershipHash (s : State) (c : Fin 16) : BitVec 64 :=
  let b := leBytes 2 (crewTag s c) ++ leBytes 4 (crewP s c) ++ (crewG s c).flatMap (leBytes 4) ++ (crewWire s c).flatMap (leBytes 1) ++
    (crewMap s c).take (4 * crewP s c)
  BitVec.ofNat 64 (ofLe (shake256 b 8))

/-- The Crew a packet's CTAG names (R263). -/
def tagCrew (s : State) (ctag : Nat) : Option (Fin 16) :=
  (List.finRange 16).find? fun c => s.crews[c].state != .undefined && crewTag s c == ctag

/-! ## Packets to ranks (R256, R293, R296) -/

/-- The time a rank was last sent to or heard from. -/
def noteSent (s : State) (c : Fin 16) (r : Nat) : State :=
  updCrew s c fun k => { k with sent := (r, s.now) :: k.sent.filter fun x => x.1 ≠ r }
def noteHeard (s : State) (c : Fin 16) (r : Nat) : State :=
  updCrew s c fun k => { k with heard := (r, s.now) :: k.heard.filter fun x => x.1 ≠ r }

/-- A packet to a rank, with its command's weight and age where it has one; the Bool says there was a route. -/
def sendRank (s : State) (c : Fin 16) (r type : Nat) (endc : Option (BitVec 64)) (offset msg xtag : Nat) (payload : List Byte)
    (share : Nat × Nat := (0, 0)) : State × Bool :=
  let (s, ok) := sendPacket s (rankMid s c r) type endc (crewTag s c) offset msg xtag payload share
  if ok then (ctrAdd (noteSent s c r) 0 (crewIdx c) 0x21 payload.length, true) else (s, false)

/-- The epoch's part of a message identifier (R268). -/
def epochMsg (s : State) (c : Fin 16) : Nat := place 24 (s.crews[c].epoch.toNat % 256)

/-- A SYNC packet of a kind (R293), with a number in MSG[23:0]; a quiesced module sends no HELLO and no HEARTBEAT (R422). -/
def sendSyncOf (s : State) (c : Fin 16) (r kind : Nat) (endc : Option (BitVec 64)) (num xtag : Nat) (body : List Byte) : State × Bool :=
  if s.power.quiesced && kind ≤ 2 then (s, true) else
  sendRank s c r 4 endc 0 (epochMsg s c + num) xtag (leBytes 4 kind ++ leBytes 4 s.crews[c].epoch.toNat ++ body)

/-- One of no operation. -/
def sendSync (s : State) (c : Fin 16) (r kind : Nat) (xtag : Nat) (body : List Byte) : State × Bool := sendSyncOf s c r kind none 0 xtag body

/-- The same to several ranks, and the first of them without a route. -/
def sendSyncs (s : State) (c : Fin 16) (rs : List Nat) (kind : Nat) (body : List Byte) : State × Option Nat :=
  rs.foldl (fun (acc : State × Option Nat) r =>
    let (s, ok) := sendSync acc.1 c r kind 0 body
    (s, if ok then acc.2 else acc.2.orElse fun _ => some r)) (s, none)

def sendHello (s : State) (c : Fin 16) (rs : List Nat) : State × Option Nat :=
  sendSyncs s c rs 1 (leBytes 8 s.crews[c].hash.toNat ++ leBytes 4 (myRank s c))

/-- Chunk size, weight and silence limit of a Crew as its objects hold them (R296). -/
def crewChunk (s : State) (c : Fin 16) : Nat := objNat s 0 (crewIdx c) 0x0B 20
def crewWeight (s : State) (c : Fin 16) : Nat := objNat s 0 (crewIdx c) 0x0A 16
def crewSilence (s : State) (c : Fin 16) : Nat := objNat s 0 (crewIdx c) 0x0C 50000

/-- The silence limit in force, in µs: a change of the object counts for commands issued after it (R296), so that while commands are in
flight the limit is the one the latest of them found (DEDUCED, log 44). -/
def silenceLimit (s : State) (c : Fin 16) : Nat :=
  let k := s.crews[c]
  if (k.ops.all (·.retired)) && k.p2p.isEmpty && k.waiting.isEmpty then crewSilence s c else k.silence

/-! ## CREWOP and its areas (R271 to R275, R281, R288) -/

def coCap (w : Cmd) : Nat := fld w 415 384
def coCnts (w : Cmd) : Nat := fld w 383 336
def coWork (w : Cmd) : Nat := fld w 335 288
def coRbuf (w : Cmd) : Nat := fld w 287 240
def coSbuf (w : Cmd) : Nat := fld w 239 192
def coRowBytes (w : Cmd) : Nat := fld w 191 176
def coCount (w : Cmd) : Nat := fld w 167 128
def coRoot (w : Cmd) : Nat := fld w 112 96
def coSendon (w : Cmd) : Nat := fld w 95 80
def coEvent (w : Cmd) : Nat := fld w 79 64
def coTag (w : Cmd) : Nat := fld w 63 32
def coKind (w : Cmd) : Bool := w.getLsbD 26
def coRop (w : Cmd) : Nat := fld w 25 24
def coOfmt (w : Cmd) : Nat := fld w 23 20
def coDtype (w : Cmd) : Nat := fld w 19 16
def coCrew (w : Cmd) : Fin 16 := fin16 (fld w 15 12)
def coOp (w : Cmd) : Nat := fld w 11 8

/-- Fields of SEND and RECV. -/
def pbBuf (w : Cmd) : Nat := fld w 239 192
def pbLen (w : Cmd) : Nat := fld w 167 128
def pbPeer (w : Cmd) : Nat := fld w 112 96
def pbStage (w : Cmd) : Nat := fld w 95 80
def pbCrew (w : Cmd) : Fin 16 := fin16 (fld w 11 8)

/-- Reductions: ALLREDUCE, REDUCESCATTER and REDUCE. -/
def isReduction (op : Nat) : Bool := op = 0 || op = 1 || op = 4

/-- The region entry and offset of a collective address (R271). -/
def caEntry (s : State) (p : Fin 8) (a : Nat) : BitVec 128 := assocGet s.host.funcs[funcOf p].collRegions (nfld a 47 36) 0
def caValid (e : BitVec 128) (right : Nat) : Bool := e.getLsbD 0 && (right = 0 || e.getLsbD right)
/-- The place in the encoding of R160 of a byte at a collective address. -/
def caPlace (s : State) (p : Fin 8) (a o : Nat) : Nat := fld (caEntry s p a) 127 78 + nfld a 35 0 + o
/-- `n` bytes from a collective address lie within its region. -/
def caFits (s : State) (p : Fin 8) (a n : Nat) : Bool :=
  nfld a 35 0 % 64 = 0 && nfld a 35 0 + n ≤ 64 * fld (caEntry s p a) 77 48

/-- Bytes an element occupies at the source and in the result. -/
def coSrcB (w : Cmd) : Nat := match fmtOf (coDtype w) with | some f => fmtBits f / 8 | none => 1
def coOutB (w : Cmd) : Nat := match fmtOf (coOfmt w) with | some f => fmtBits f / 8 | none => 1

/-- The nested parts of n elements (R277): for each level in use, ascending: level, g, digit, q, start, length before the cut,
length of the own part. -/
def partsOf (g : List Nat) (r n : Nat) : List (Nat × Nat × Nat × Nat × Nat × Nat × Nat) :=
  ((levelsIn g).foldl (fun (acc : Nat × Nat × List (Nat × Nat × Nat × Nat × Nat × Nat × Nat)) l =>
    let (st, len, out) := acc
    let gl := g.getD l 1
    let d := digit g r l
    let q := 32 * ((len + 32 * gl - 1) / (32 * gl))
    let own := min ((d + 1) * q) len - min (d * q) len
    (st + min (d * q) len, own, out ++ [(l, gl, d, q, st, len, own)])) (0, n, [])).2.2

/-- Start and length of a rank's final part (R277). -/
def finalPart (g : List Nat) (r n : Nat) : Nat × Nat :=
  match (partsOf g r n).getLast? with
  | some (_, _, d, q, st, len, own) => (st + min (d * q) len, own)
  | none => (0, n)

/-- Bytes of e elements in a wire format; INT32 and FP32 take four each (R279). -/
def wireBytes (int : Bool) (code e : Nat) : Nat :=
  if int then 4 * e else match code with | 1 => 2 * e | 2 => 33 * ((e + 31) / 32) | _ => 4 * e

def coInt (w : Cmd) : Bool := fmtOf (coDtype w) == some .int32

/-- Offsets of the WORK areas of the levels in use, and the bytes needed (R281). -/
def workAreas (s : State) (c : Fin 16) (w : Cmd) : List (Nat × Nat) × Nat :=
  (partsOf (crewG s c) (myRank s c) (coCount w)).foldl (fun (acc : List (Nat × Nat) × Nat) x =>
    let (l, gl, _, q, _, _, _) := x
    let n := gl * wireBytes (coInt w) ((crewWire s c).getD l 0) q
    (acc.1 ++ [(l, acc.2)], acc.2 + (n + 63) / 64 * 64)) ([], 0)

/-- The areas a CREWOP uses on this member: address, bytes, rights (1 SEND, 2 RECV), written. -/
def coAreas (s : State) (c : Fin 16) (w : Cmd) (padded : Bool) : List (Nat × Nat × List Nat × Bool) :=
  let n := coCount w
  let g := crewG s c
  let me := myRank s c
  let P := crewP s c
  let fp := (finalPart g me n).2
  let sb (k : Nat) := (coSbuf w, k, [1], false)
  let rb (k : Nat) := (coRbuf w, k, [1, 2], true)
  let wk := (coWork w, (workAreas s c w).2, [1, 2], true)
  let src := if coKind w then [] else [sb (n * coSrcB w)]
  match coOp w with
  | 0 => src ++ [rb (n * coOutB w), wk]
  | 1 => src ++ [rb (fp * coOutB w), wk]
  | 2 => [sb (fp * coSrcB w), rb (n * coOutB w)]
  | 3 => (if me = coRoot w then [sb (n * coSrcB w)] else []) ++ [rb (n * coOutB w)]
  | 4 => src ++ [rb (n * coOutB w), wk]
  | 5 => [sb (P * n * coRowBytes w), rb (P * n * coRowBytes w)]
  | 6 => [(coSbuf w, 0, [1], false), rb ((if padded then P * coCap w else n) * coRowBytes w), (coCnts w, 8 * P, [1, 2], true)]
  | _ => []

/-! ## Results of failed commands (R270, R294) -/

/-- A CREW_STATE failure: cause, and the peer by rank or, where it is no member, by MID. -/
def crewStateRes (s : State) (c : Fin 16) (cause : Nat) (rank : Option Nat) (mid : Option Nat) : Res :=
  let d0 := match rank with | some r => cause + place 24 r | none => cause + place 41 1
  let d1 := match rank with | some r => rankMid s c r | none => mid.getD 0xFFFFFFFF
  ⟨.failed, .crewState, 0, false, true, BitVec.ofNat 64 d0, BitVec.ofNat 64 d1⟩

/-! ## Waits of SEND and RECV (R290) -/

/-- A RECV of a stage tag that is posted and has received no byte. -/
def idleRecv (st : Nat) (x : P2p) : Bool := !x.send && pbStage x.word = st && x.landed = 0

/-- How long the RECVs of a stage tag without a byte have waited since the bubble time was last counted. -/
def bubbleNow (s : State) (c : Fin 16) (st : Nat) : Nat :=
  match ((s.crews[c].p2p.filter (idleRecv st)).map fun x => x.since.toNat).min? with
  | some t => s.now.toNat - t
  | none => 0

/-- Bubble time of a stage tag is counted up to now. -/
def bubble (s : State) (c : Fin 16) (st : Nat) : State :=
  updCrew s c fun k =>
    { k with
      bubbles := k.bubbles.modify (st % 64) (· + bubbleNow s c st)
      p2p := k.p2p.map fun x => if idleRecv st x then { x with since := s.now } else x }

/-- How long a SEND has waited for its CREDIT. -/
def creditWait (now : U64) (x : P2p) : Nat := if x.send && x.credit.isNone then (now - x.since).toNat else 0

/-- Stage tags of a Crew's RECVs and SENDs. -/
def stagesOf (s : State) (c : Fin 16) : List Nat := (s.crews[c].p2p.map fun x => pbStage x.word).dedup

/-- Every wait of a Crew's SENDs and RECVs is counted up to now, as they end. -/
def settleWaits (s : State) (c : Fin 16) : State :=
  let s' := (stagesOf s c).foldl (fun s t => bubble s c t) s
  ctrAdd s' 0 (crewIdx c) 0x25 (s.crews[c].p2p.map (creditWait s.now)).sum

/-- Bytes at places become undefined. -/
def undefineAt (s : State) (p : Fin 8) (es : List Nat) : State :=
  let (ws, s) := freeBytesAt s es
  spaceWriteL s (funcOf p) (some p) ws

/-- Places of written ranges, each once. -/
def wrotePlaces (l : List (Nat × Nat)) : List Nat := (l.flatMap fun (a, n) => (List.range n).map (a + ·)).dedup

/-- A command in flight fails: its record, and the bytes it had written undefined (R270). -/
def failOp (s : State) (c : Fin 16) (o : CollOp) (res : Res) : State :=
  let s := match crewOwner s c with
    | some p => undefineAt s p (wrotePlaces o.wrote)
    | none => s
  retireUnit s o.iss 0x51 (coTag o.word) (coEvent o.word) { res with flags := o.res.flags }

def failP2p (s : State) (c : Fin 16) (o : P2p) (res : Res) : State :=
  let s := match crewOwner s c with
    | some p => undefineAt s p (wrotePlaces o.wrote)
    | none => s
  retireUnit s o.iss (if o.send then 0x52 else 0x53) (coTag o.word) (coEvent o.word) { res with part := !o.wrote.isEmpty }

/-- Every CREWOP, SEND and RECV in flight, and those waiting for room, complete FAILED with CREW_STATE (R270). -/
def failAll (s : State) (c : Fin 16) (res : Res) : State :=
  let k := s.crews[c]
  let s := settleWaits s c
  let s := updCrew s c fun k => { k with ops := [], p2p := [], waiting := [], credits := [], early := [], earlyRisen := [] }
  let s := (k.ops.filter fun o => !o.retired).foldl (fun s o => failOp s c o res) s
  let s := k.p2p.foldl (fun s o => failP2p s c o res) s
  k.waiting.foldl (fun s (w, iss, _) => retireUnit s iss (fld w 7 0) (coTag w) (coEvent w) { res with part := false }) s

/-- Commands in flight wait again, in the order of their issue before those that wait already, and begin anew: a Crew that stays FORMING
restarts its handshake, and its commands wait while HS is 0 (R266, R268; DEDUCED, log 44). -/
def waitAgain (s : State) (c : Fin 16) : State :=
  let s := settleWaits s c
  updCrew s c fun k =>
    let again := (k.ops.filter fun o => !o.retired).map (fun o => (o.word, o.iss, o.terms)) ++ k.p2p.map fun x => (x.word, x.iss, x.terms)
    { k with ops := k.ops.filter (·.retired), p2p := [], waiting := sortBy (fun a b => a.2.2.age ≤ b.2.2.age) again ++ k.waiting }

/-! ## States and epochs (R266 to R269, R386) -/

def crewCode (t : CrewState) : Nat :=
  match t with | .undefined => 0 | .forming => 1 | .running => 2 | .test => 3 | .recovering => 4

/-- 0x7200 + c:01 and :0E. -/
def crewStateBytes (s : State) (c : Fin 16) : List Byte :=
  let k := s.crews[c]
  leBytes 1 (crewCode k.state) ++ leBytes 1 (if k.hs then 1 else 0) ++ leBytes 4 k.epoch.toNat
def crewProblemBytes (s : State) (c : Fin 16) : List Byte :=
  let (a, m, t) := s.crews[c].problem
  leBytes 1 a ++ leBytes 4 (m.getD 0xFFFFFFFF) ++ leBytes 8 t.toNat

/-- A CREW event (R386). -/
def crewEvent (s : State) (c : Fin 16) : State :=
  raiseEvent s 5 (crewCode s.crews[c].state) c ((crewOwner s c).elim 0xFF fun p => p.val) (crewStateBytes s c ++ crewProblemBytes s c)

/-- The Crew's state set, with its event where it changes. -/
def setCrewState (s : State) (c : Fin 16) (t : CrewState) : State :=
  if s.crews[c].state = t then s else crewEvent (updCrew s c fun k => { k with state := t }) c

/-- The last problem (R296). -/
def setProblem (s : State) (c : Fin 16) (cause : Nat) (mid : Option Nat) : State :=
  crewEvent (updCrew s c fun k => { k with problem := (cause, mid, s.now) }) c

/-- What counts within an epoch starts again (R276, R289). -/
def clearEpoch (k : Crew) : Crew :=
  { k with hs := false, hellos := [], opNum := 0, p2pCount := [], credits := [], early := [], earlyRisen := [], votes := [], earlyArr := [],
           earlyCuts := [] }

/-- HS is 1 once a HELLO of the own hash and epoch is held from every peer, and no copy to a stale member runs (R268, R344). -/
def checkHs (s : State) (c : Fin 16) : State :=
  let k := s.crews[c]
  if k.hs || k.state = .undefined || k.rejoin ≠ 0 then s else
  if (crewPeers s c).all k.hellos.contains then updCrew s c fun k => { k with hs := true } else s

/-- The epoch after the highest held or seen (R268). -/
def nextEpoch (k : Crew) : BitVec 32 := (if k.epoch < k.seen then k.seen else k.epoch) + 1

/-- An epoch begins with its HELLOs (R268); the first peer without a route. -/
def startEpoch (s : State) (c : Fin 16) (e : BitVec 32) : State × Option Nat :=
  let s := updCrew s c fun k => { clearEpoch k with epoch := e, since := s.now }
  let (s, lost) := sendHello s c (crewPeers s c)
  (checkHs s c, lost)

/-- A new epoch with its HELLOs (R268). -/
def newEpoch (s : State) (c : Fin 16) : State × Option Nat := startEpoch s c (nextEpoch s.crews[c])

/-- The member leaves its state: commands in flight fail, and an undecided attempt becomes UNRESOLVED; a member that has not
voted counts as voting FAULT (R270, R334). -/
def leaveState (s : State) (c : Fin 16) (res : Res) : State :=
  let s := failAll s c res
  updCrew s c fun k =>
    { k with
      fin := if k.fin = .running || k.fin = .voting then .unresolved else k.fin
      attempt := k.attempt.map fun a => { a with voted := true } }

/-- Entry into RECOVERING (R268, R269, R334): a new epoch, or the epoch `adopt` of a HELLO. -/
def enterRecovering (s : State) (c : Fin 16) (cause : Nat) (rank mid : Option Nat) (adopt : Option (BitVec 32)) : State :=
  let res := crewStateRes s c cause rank mid
  let s := leaveState s c res
  let s := updCrew s c fun k => { k with problem := (cause, (rank.map (rankMid s c)).orElse fun _ => mid, s.now) }
  let s := setCrewState s c .recovering
  (startEpoch s c (adopt.getD (nextEpoch s.crews[c]))).1

/-- FORMING, RUNNING or TEST. -/
def crewLive (t : CrewState) : Bool := t == .forming || t == .running || t == .test

/-- A fault this member detects itself (R269): RECOVER goes to each peer, of the epoch that ends. -/
def crewFault (s : State) (c : Fin 16) (cause : Nat) (rank mid : Option Nat) : State :=
  if !crewLive s.crews[c].state then s else
  let s := (sendSyncs s c (crewPeers s c) 3 (leBytes 1 cause ++ leBytes 4 (if cause = 1 then rank.getD 0xFFFFFFFF else 0xFFFFFFFF))).1
  enterRecovering s c cause rank mid none

/-- A peer that could not be reached is a fault of the member (R269). -/
def orNoRoute (x : State × Option Nat) (c : Fin 16) : State :=
  match x.2 with
  | some r => crewFault x.1 c 3 (some r) none
  | none => x.1

/-- A port has gone DOWN (R250, R269): it is cleared, counted, and every Crew with unacknowledged packets loses its link. -/
def portDown (s : State) (p : Fin 16) : State :=
  if s.rigger.ports[p].state = .down then s else
  let tags := unackedTags s p
  let peer := s.rigger.ports[p].peer
  let s := ctrAdd s 0 (0x7100 + p) 0x16 1
  let s := setPort s p .down
  let s := updPort s p clearPort
  let s := updPort s p fun k => { k with peer := none }
  tags.foldl (fun s t =>
    match tagCrew s t with
    | some c =>
      let r := peer.bind (midRank s c)
      crewFault s c 2 r (if r.isSome then none else peer)
    | none => s) s

/-- A LAUNCH of the Crew has finished and has not retired (R323). -/
def launchUnretired (s : State) (c : Fin 16) : Bool :=
  match crewOwner s c with
  | some p =>
    s.host.funcs[funcOf p].streams.any fun (_, k) =>
      k.entries.any fun e => enOp e.raw = 2 && e.stage = .finished && e.res.cls ≠ .rejected && enCrew e.raw = c.val
  | none => false

/-- A Stroke of the Crew is running, from the start of its LAUNCH until that LAUNCH retires (R323). -/
def strokeRuns (s : State) (c : Fin 16) : Bool := s.crews[c].launch.isSome || launchUnretired s c

/-- Pending requests take effect at a Stroke boundary (R267). -/
def applyReq (s : State) (c : Fin 16) : State :=
  let k := s.crews[c]
  if strokeRuns s c then s else
  match k.req, k.state with
  | some .test, .forming | some .test, .running => setCrewState (updCrew s c fun k => { k with req := none }) c .test
  | some .test, .recovering => if k.hs then setCrewState (updCrew s c fun k => { k with req := none }) c .test else s
  | some .run, .test =>
    let s := updCrew s c fun k => { k with req := none }
    orNoRoute (newEpoch (setCrewState s c .forming) c) c
  | _, _ => s

/-- RUN (R267): the abort code, or none where the write is taken. -/
def requestRun (s : State) (c : Fin 16) : State × Option Nat :=
  match s.crews[c].state with
  | .undefined => (s, some 0x0202)
  | .test => (applyReq (updCrew s c fun k => { k with req := some .run }) c, none)
  | _ =>
    if s.crews[c].req = some .test then (updCrew s c fun k => { k with req := none }, none) else (s, some 0x0202)

/-- TEST (R267). -/
def requestTest (s : State) (c : Fin 16) : State × Option Nat :=
  match s.crews[c].state with
  | .undefined => (s, some 0x0202)
  | .test => (s, none)
  | _ => (applyReq (updCrew s c fun k => { k with req := some .test }) c, none)

/-- A membership group applies (R265, R266, R331): rank, hash, term 1, FORMING and a new epoch. While RECOVERING with an attempt
pending the Crew stays RECOVERING and keeps the attempt and its log (R335). -/
def applyMembership (s : State) (c : Fin 16) : State :=
  let r := midRank s c (ownMid s)
  let pend := s.crews[c].state = .recovering && s.crews[c].attempt.isSome
  let s := updCrew s c fun k => { k with rank := r, hash := membershipHash s c, term := if pend then k.term else 1, heard := [], sent := [] }
  orNoRoute (newEpoch (if pend then s else setCrewState s c .forming) c) c

end Sys2Proof.Machine
end

