-- ==== Sys2Proof/Machine/Collective.lean ====
section
/-! DEFINITION. Collective operations (12): issue and rejection, reductions across levels, exchanges, send-on, point-to-point, the
cut and deferrals of stragglers (14), and how received chunks land. -/

namespace Sys2Proof.Machine

open Sys2Proof

/-! ## Wire formats (R279) -/

/-- One element of an E4M3 wire block under its scale byte. -/
def wireElem (k : Nat) (v : Val) : Nat × FlagByte :=
  if k = 0xFF then (0, 0) else
  match v with
  | .inf n => (fmtSign .e4m3 n + fmtMax .e4m3, fNV)
  | .fin n m e =>
    let (q, fl) := roundFin .e4m3 .rne false true n m (e - ((k : Int) - 127)) false
    (q, if fl &&& fNX ≠ 0 || fl &&& fOF ≠ 0 then fNX else 0)
  | .nan _ _ _ => (0, 0)

/-- One E4M3 wire block: 32 code bytes and its scale byte, with the flags. -/
def wireBlock (l : List Val) : List Byte × FlagByte :=
  let sc := blockScale .e4m3 l
  let es := l.map (wireElem sc.1)
  ((es.map fun x => BitVec.ofNat 8 x.1) ++ List.replicate (32 - l.length) 0 ++ [BitVec.ofNat 8 sc.1],
   sc.2 ||| orFlags (es.map (·.2)) ||| snanFlags l)

/-- Values rounded to a level's wire format, with the flags (R278, R279). -/
def wireEncode (int : Bool) (code : Nat) (vs : List Val) : List Byte × FlagByte :=
  if int then (vs.flatMap fun v => leBytes 4 (toField 32 (valInt v)), 0) else
  match code with
  | 1 => let l : List (Nat × FlagByte) := vs.map (convert .bf16 .rne false false); (l.flatMap fun x => leBytes 2 x.1, orFlags (l.map (·.2)))
  | 2 =>
    let blocks : List (List Byte × FlagByte) := (List.range ((vs.length + 31) / 32)).map fun b => wireBlock ((vs.drop (32 * b)).take 32)
    (blocks.flatMap (·.1), orFlags (blocks.map (·.2)))
  | _ => let l : List (Nat × FlagByte) := vs.map (convert .fp32 .rne false false); (l.flatMap fun x => leBytes 4 x.1, orFlags (l.map (·.2)))

/-- The value of element i of a slot's bytes. -/
def wireDecode (int : Bool) (code : Nat) (bs : List Byte) (i : Nat) : Val :=
  if int then vInt (sext 32 (leAt bs (4 * i) 4)) else
  match code with
  | 1 => readCode .bf16 false (leAt bs (2 * i) 2)
  | 2 =>
    let k := leAt bs (33 * (i / 32) + 32) 1
    if k = 0xFF then vNaN else scaleE8 k (readCode .e4m3 false (leAt bs (33 * (i / 32) + i % 32) 1))
  | _ => readCode .fp32 false (leAt bs (4 * i) 4)

/-! ## Memory of an operation -/

/-- A write of the Rigger for a command of Crew c: it waits (none) while an MM holds a range of it (R57, R271); a granule of an
epoch-scoped region is saved first (R325), and HBM writes are charged to the partition (R150). -/
def collWrite (s : State) (c : Fin 16) (p : Fin 8) (ws : List (Nat × Byte)) : Option State :=
  let held := (List.range 8).any fun n => guarded s (fin8 n) ((ws.filter fun w => aLoc w.1 = 0 && aCourse w.1 = n).map fun w => aPallet w.1)
  if held then none else
  let as := hbmOf (ws.map (·.1))
  some (hbmTraffic (spaceWriteL (undoSave s c p as) (funcOf p) (some p) ws) (some p) as)

def collBytes (s : State) (p : Fin 8) (a o n : Nat) : List Byte :=
  (List.range n).map fun i => spaceByte s (funcOf p) (some p) (caPlace s p a (o + i))

/-- Writes of bytes from a collective address on. -/
def caWrites (s : State) (p : Fin 8) (a o : Nat) (bs : List Byte) : List (Nat × Byte) :=
  bs.zipIdx.map fun (b, i) => (caPlace s p a (o + i), b)

def updOp (s : State) (c : Fin 16) (k : Nat) (g : CollOp → CollOp) : State :=
  updCrew s c fun x => { x with ops := x.ops.map fun o => if o.num = k then g o else o }

def findOp (s : State) (c : Fin 16) (k : Nat) : Option CollOp := s.crews[c].ops.find? fun o => o.num = k

/-- A write of an operation into its RBUF or WORK; the range is noted, since the bytes a failed command has written are undefined
(R270). -/
def opWrite (s : State) (c : Fin 16) (p : Fin 8) (o : CollOp) (a off : Nat) (bs : List Byte) : Option State :=
  (collWrite s c p (caWrites s p a off bs)).map fun s =>
    updOp s c o.num fun o => { o with wrote := if bs.isEmpty then o.wrote else (caPlace s p a off, bs.length) :: o.wrote }

/-- XTAG of a message: level and phase (R276, log 22). -/
def levelTag (l : Nat) (down : Bool) : Nat := place 14 l + place 13 (if down then 1 else 0)

/-- An operation fails with a reason of its own and leaves the list; the Crew enters RECOVERING on OPERATION_FAILED (R269). -/
def opFails (s : State) (c : Fin 16) (o : CollOp) (res : Res) : State :=
  let s := updCrew s c fun k => { k with ops := k.ops.filter fun x => x.num ≠ o.num }
  crewFault (failOp s c o res) c 8 none none

/-- The chunk of an operation was corrupt: it fails and the Crew keeps its state (R243, R294). -/
def opCorrupt (s : State) (c : Fin 16) (o : CollOp) (src : Nat) : State :=
  let s := updCrew s c fun k => { k with ops := k.ops.filter fun x => x.num ≠ o.num }
  failOp (setProblem s c 4 (some (rankMid s c src))) c o (crewStateRes s c 4 (some src) none)

/-- Places of n bytes from a collective address on. -/
def caPlaces (s : State) (p : Fin 8) (a o n : Nat) : List Nat := (List.range n).map fun i => caPlace s p a (o + i)

/-- The first uncorrectable Pallet word or HBM sector among the places an operation reads, and the first such sector among those it
writes in part (R116, R153). -/
def collUe (s : State) (p : Fin 8) (rs ws : List Nat) : Option (Reason × Nat) :=
  match rs.find? (fun e => aLoc e = 0 && (palletUe s (fin8 (aCourse e)) [aPallet e]).isSome) with
  | some e => some (.palletUe, palletAddr (aCourse e) (aPallet e))
  | none => ((ueAt s (some p) (hbmOf rs)).orElse fun _ => uePartial s (some p) (hbmOf ws)).map fun x => (.hbmUe, hbmAddr x)

/-- The event of it. -/
def collUeEvent (s : State) (p : Fin 8) (x : Reason × Nat) : State :=
  if x.1 = .palletUe then palletUeEvent s (fin8 (aCourse x.2)) (aPallet x.2) else ueEventAt s (some p) (aHbm x.2)

/-- What reading places brings with it: errors corrected (R116, R152) and HBM reads charged to the partition (R150). -/
def collRead (s : State) (p : Fin 8) (rs : List Nat) : State := if rs.isEmpty then s else hbmTraffic (spaceFix s (some p) rs) (some p) (hbmOf rs)

/-- A step of an operation that reads and writes listed places: where one is uncorrectable the operation fails in its place. -/
def guardUe (s : State) (c : Fin 16) (p : Fin 8) (o : CollOp) (rs ws : List Nat) (next : Option State) : Option State :=
  match collUe s p rs ws with
  | some x => some (opFails (collUeEvent s p x) c o (failedRes x.1 true x.2))
  | none => next.map fun t => collRead t p rs

/-! ## Late entries, the cut and deferrals (R338 to R342, R350) -/

def lateEntry (kind rank op value : Nat) : BitVec 128 :=
  BitVec.ofNat 128 (place 120 kind + place 103 rank + place 72 (op % 2 ^ 24) + value % 2 ^ 64)
def leKind (e : BitVec 128) : Nat := fld e 127 120
def leRank (e : BitVec 128) : Nat := fld e 119 103

/-- A late entry of kinds 3 to 5 of the attempt, at most 4,096 (R350). -/
def addLate (s : State) (c : Fin 16) (e : BitVec 128) : State :=
  updAttempt s c fun a => if a.late.length < 4096 then { a with late := a.late ++ [e] } else { a with lateLost := true }

/-- Ranks cut from the attempt, as far as this member knows. -/
def cutRanks (s : State) (c : Fin 16) : List Nat := ((s.crews[c].cut.entries.getD []).map leRank)

/-- The straggler policy of the attempt: 0 WAIT, 1 DEFER, 2 DROP; WAIT after an ABORT on LATE_LIMIT (R338, R340). -/
def stragglerPolicy (s : State) (c : Fin 16) : Nat := if s.crews[c].waitNext then 0 else objNat s 0 (crewIdx c) 0x31 0
/-- The cut names deferred ranks. -/
def cutDefers (s : State) (c : Fin 16) : Bool := (s.crews[c].cut.entries.getD []).any fun e => leKind e = 1
def deferBase (s : State) (c : Fin 16) : Nat := objNat s 0 (crewIdx c) 0x35 0
def deferSize (s : State) (c : Fin 16) : Nat := objNat s 0 (crewIdx c) 0x36 0

/-- A free place of n bytes in the deferral area: the lowest that fits. -/
def deferPlace (s : State) (c : Fin 16) (n : Nat) : Option Nat :=
  let ds := s.crews[c].deferrals
  (sortBy (· ≤ ·) (0 :: ds.map fun d => d.off + d.bytes)).find? fun o =>
    o + n ≤ deferSize s c && ds.all fun d => !overlaps (o, n) (d.off, d.bytes)

def strokeNum (s : State) (c : Fin 16) : BitVec 48 := (s.crews[c].launch.map (·.stroke)).getD 0

/-- Slots of cut ranks of one reduction move to the deferral area as far as they have landed (R339). -/
def deferOp (s : State) (c : Fin 16) (p : Fin 8) (o : CollOp) : State :=
  match (partsOf (crewG s c) (myRank s c) (coCount o.word)).head? with
  | some (0, _, _, q, _, _, own) =>
    let int := coInt o.word
    let wf := (crewWire s c).getD 0 0
    let n := wireBytes int wf own
    (cutRanks s c).foldl (fun s r =>
      if r = myRank s c || s.crews[c].deferrals.any (fun d => d.stroke = strokeNum s c && d.red = o.red && d.rank = r) then s else
      match deferPlace s c n with
      | none => ctrAdd (addLate s c (lateEntry 4 r o.red 0)) 0 (crewIdx c) 0x45 1
      | some off =>
        let g := crewG s c
        let bs := collBytes s p (coWork o.word) (digit g r 0 * wireBytes int wf q) n
        let s := updCrew s c fun k =>
          { k with deferrals := k.deferrals ++ [⟨strokeNum s c, o.red, r, coCount o.word, (finalPart g (myRank s c) (coCount o.word)).1, own, off, n⟩] }
        spaceWriteL (undoSave s c p (hbmOf ((List.range n).map (caPlace s p (deferBase s c) <| off + ·)))) (funcOf p) (some p)
          (caWrites s p (deferBase s c) off bs)) s
  | _ => s

/-- The cut is known (R338): under DEFER the slots of cut ranks are put aside for every reduction issued. -/
def setCut (s : State) (c : Fin 16) (entries : List (BitVec 128)) : State :=
  let s := updCrew s c fun k => { k with cut := { k.cut with entries := some entries } }
  match crewOwner s c with
  | some p => if cutDefers s c then (s.crews[c].ops.filter fun o => isReduction (coOp o.word)).foldl (fun s o => deferOp s c p o) s else s
  | none => s

/-- A Finish packet to a rank (R345). -/
def sendFin (s : State) (c : Fin 16) (r kind : Nat) (stroke : Nat) (att : Nat) (term : Nat) (body : List Byte) : State :=
  (sendRank s c r 3 none 0 (epochMsg s c) 0
    (leBytes 4 kind ++ leBytes 4 s.crews[c].epoch.toNat ++ leBytes 8 stroke ++ leBytes 4 att ++ leBytes 4 term ++ body)).1

def attNum (s : State) (c : Fin 16) : Nat := (s.crews[c].attempt.map (·.number)).getD 0

/-- A Finish packet of the current attempt. -/
def sendFinNow (s : State) (c : Fin 16) (r kind : Nat) (body : List Byte) : State :=
  sendFin s c r kind (strokeNum s c).toNat (attNum s c) s.crews[c].term.toNat body

/-- The level-0 group of the own rank and its leader. -/
def group0 (s : State) (c : Fin 16) : List Nat :=
  let g := crewG s c
  (List.range (max 1 (g.getD 0 1))).map (atPos g (myRank s c) 0)
def leader0 (s : State) (c : Fin 16) : Nat := atPos (crewG s c) (myRank s c) 0 0

/-- The leader fixes the cut and sends it (R338). -/
def sendCut (s : State) (c : Fin 16) (entries : List (BitVec 128)) : State :=
  let me := myRank s c
  let s := (group0 s c).foldl (fun s r =>
    if r = me then s else sendFinNow s c r 0x12 (leBytes 4 me ++ leBytes 4 entries.length ++ entries.flatMap wordBytes)) s
  setCut s c entries

/-- REPLAY of the LAUNCH and the entries of its Card that concern ranks of the own level-0 group (R342, R351). -/
def replayCut (s : State) (c : Fin 16) : Option (List (BitVec 128)) :=
  match s.crews[c].launch, crewOwner s c with
  | some l, some p =>
    if !l.body.getLsbD 216 then none else
    let ref := fld l.body 383 320
    let hd := hbmReadN s p ref 4096
    let at_ := ref + 4096 + 64 * leAt hd 0x38 4
    let es := (List.range (leAt hd 0x34 4)).map fun i => BitVec.ofNat 128 (ofLe (hbmReadN s p (at_ + 16 * i) 16))
    some ((es.filter fun e => leKind e = 1 || leKind e = 2).map fun e => BitVec.ofNat 128 (e.toNat / 2 ^ 64 * 2 ^ 64))
  | _, _ => none

/-- The leader looks whether the cut can be fixed: everyone its cut includes has arrived (R338, R342). -/
def tryCut (s : State) (c : Fin 16) : State :=
  let k := s.crews[c]
  if k.cut.entries.isSome || leader0 s c ≠ myRank s c then s else
  let es := ((replayCut s c).getD []).filter fun e => (group0 s c).contains (leRank e)
  if (group0 s c).all fun r => k.cut.arrived.contains r || es.any fun e => leRank e = r then sendCut s c es else s

/-- A rank of the group has arrived at the leader (R338, R340): after the cut its lateness enters its entry. -/
def noteArrived (s : State) (c : Fin 16) (r : Nat) : State :=
  let k := s.crews[c]
  if k.cut.arrived.contains r then s else
  let s := updCrew s c fun k =>
    { k with cut := { k.cut with arrived := k.cut.arrived ++ [r], first := some (k.cut.first.getD s.now) } }
  match k.cut.entries with
  | none => tryCut s c
  | some es =>
    let deadline := (k.cut.first.getD s.now).toNat + 1000 * objNat s 0 (crewIdx c) 0x32 5000
    let late := s.now.toNat - deadline
    let fix (e : BitVec 128) : BitVec 128 := if leRank e = r then lateEntry (leKind e) r 0 late else e
    updCrew s c fun k => { k with cut := { k.cut with entries := some (es.map fix) } }

/-- The member arrives (R338). -/
def arrive (s : State) (c : Fin 16) : State :=
  let me := myRank s c
  if leader0 s c = me then noteArrived s c me
  else sendFinNow s c (leader0 s c) 0x11 (leBytes 4 me ++ leBytes 4 1)

/-! ## Contributions (R277, R278, R287) -/

/-- The value of source element e. -/
def srcElem (s : State) (p : Fin 8) (o : CollOp) (e : Nat) : Val :=
  let f := (fmtOf (coDtype o.word)).getD .fp32
  if coKind o.word then
    let code := (assocGet o.supplied e 0).toNat
    if coInt o.word then vInt (sext 32 code) else readCode .fp32 true code
  else
    let code := ofLe (collBytes s p (coSbuf o.word) (e * coSrcB o.word) (coSrcB o.word))
    if coInt o.word then vInt (sext 32 code) else readCode f true code

/-- Places of source elements [a, a + n); none of a send-on source. -/
def srcPlaces (s : State) (p : Fin 8) (o : CollOp) (a n : Nat) : List Nat :=
  if coKind o.word then [] else caPlaces s p (coSbuf o.word) (a * coSrcB o.word) (n * coSrcB o.word)

/-- Source elements [a, a + n) are there. -/
def srcThere (o : CollOp) (a n : Nat) : Bool :=
  !coKind o.word || (List.range n).all fun i => o.supplied.any fun x => x.1 = a + i

/-- The own contribution at a level, elements [a, a + n) relative to it: the source at the lowest level in use, the partial of
the level below higher up. -/
def contribution (s : State) (p : Fin 8) (o : CollOp) (lowest : Bool) (a n : Nat) : List Val :=
  (List.range n).map fun i =>
    if lowest then srcElem s p o (a + i)
    else
      let x := o.acc.getD (a + i) 0
      if coInt o.word then vInt x.toInt else of32 false x

/-- A widened slot value as a leaf of the tree. -/
def leaf32 (int : Bool) (v : Val) : BitVec 32 := if int then BitVec.ofInt 32 (valInt v) else wide32 v

/-- INT32 sums of R278: saturated operands stay. -/
def intSum (a b : BitVec 32) : BitVec 32 × FlagByte :=
  let sat (x : BitVec 32) : Bool := x = 0x80000000 || x = 0x7FFFFFFF
  if sat a && sat b then (a, if a = b then 0 else fNV)
  else if sat a then (a, 0) else if sat b then (b, 0)
  else let (v, fl, _) := intAcc a.toInt b.toInt; (BitVec.ofNat 32 v, fl)

/-- One combination of two leaves or partials (R278). -/
def combine (int : Bool) (rop : Nat) (a b : BitVec 32) : BitVec 32 × FlagByte :=
  if int then
    match rop with
    | 2 => (if a.toInt < b.toInt then b else a, 0)
    | 3 => (if b.toInt < a.toInt then b else a, 0)
    | _ => intSum a b
  else if rop = 2 || rop = 3 then maxMin false (rop = 2) (of32 false a) (of32 false b)
  else add32 false a b

/-- Leaves combined: by the tree of R108, or one after the other (R282). -/
def combineAll (det int : Bool) (rop : Nat) (l : List (BitVec 32)) : BitVec 32 × FlagByte :=
  let g (a b : BitVec 32 × FlagByte) : BitVec 32 × FlagByte :=
    let (x, fl) := combine int rop a.1 b.1
    (x, a.2 ||| b.2 ||| fl)
  let l := l.map fun x => (x, (0 : FlagByte))
  if det then (treeReduce g l.length l).getD (0, 0)
  else match l with | [] => (0, 0) | a :: t => t.foldl g a

/-! ## Messages of an operation (R276 to R285) -/

/-- Levels in use from the top down. -/
def levelsDown (g : List Nat) : List Nat := (levelsIn g).reverse

/-- The lowest level at which a rank's digit differs from ROOT's. -/
def rootLevel (g : List Nat) (root r : Nat) : Option Nat := (levelsIn g).find? fun l => digit g r l ≠ digit g root l

/-- Row counts of an ALLTOALLV towards each rank (R283). -/
def sendCounts (s : State) (c : Fin 16) (p : Fin 8) (w : Cmd) : List Nat :=
  (List.range (crewP s c)).map fun j => ofLe (collBytes s p (coCnts w) (4 * j) 4)

/-- Rows of a source as its COUNTS says. -/
def rowsFrom (o : CollOp) (r : Nat) : Option Nat := (o.counts.find? fun x => x.1 = r).map fun x => x.2.1

/-- Where a message from a rank lands, as a collective address and offset, and its length in bytes. -/
def messageArea (s : State) (c : Fin 16) (o : CollOp) (src l : Nat) (down : Bool) : Option (Nat × Nat × Nat) :=
  let w := o.word
  let g := crewG s c
  let me := myRank s c
  let part := (partsOf g me (coCount w)).find? fun x => x.1 = l
  match coOp w with
  | 5 => some (coRbuf w, src * coCount w * coRowBytes w, coCount w * coRowBytes w)
  | 6 =>
    if o.padded then some (coRbuf w, src * coCap w * coRowBytes w, coCap w * coRowBytes w) else
    (rowsFrom o src).map fun k =>
      (coRbuf w, ((List.range src).map fun t => (rowsFrom o t).getD 0).sum * coRowBytes w, k * coRowBytes w)
  | 3 => if down then some (coRbuf w, 0, coCount w * coOutB w) else none
  | 7 => none
  | op =>
    match part with
    | none => none
    | some (_, _, _, q, st, len, own) =>
      let j := digit g src l
      if down then
        if op = 1 then none else
        some (coRbuf w, (st + min (j * q) len) * coOutB w, (min ((j + 1) * q) len - min (j * q) len) * coOutB w)
      else if !isReduction op then none else
        let wf := (crewWire s c).getD l 0
        let off := assocGet (workAreas s c w).1 l 0
        some (coWork w, off + j * wireBytes (coInt w) wf q, wireBytes (coInt w) wf own)

/-- A message has arrived whole and its chunks have been compared. -/
def messageDone (s : State) (c : Fin 16) (o : CollOp) (src l : Nat) (down : Bool) : Bool :=
  match messageArea s c o src l down with
  | some (_, _, n) =>
    let ls := o.landed.filter fun x => x.src = src && x.level = l && x.down = down
    (ls.map (·.bytes)).sum = n && ls.all fun x => x.endc.isSome
  | none => false

/-- CHUNK packets of an operation sent to a rank. No route ends the Crew's state (R264). -/
def sendChunks (s : State) (c : Fin 16) (o : CollOp) (r l : Nat) (down : Bool) (ps : List (Nat × List Byte × Option (BitVec 64))) : State :=
  let (s, ok) := ps.foldl (fun (acc : State × Bool) x =>
    if !acc.2 then acc else
    sendRank acc.1 c r 2 x.2.2 x.1 (epochMsg acc.1 c + o.num) (levelTag l down) x.2.1 (o.terms.weight, o.terms.age)) (s, true)
  if ok then s else crewFault s c 3 (some r) none

/-- An operation's message sent to a rank, noted in `sent`. -/
def sendMessage (s : State) (c : Fin 16) (o : CollOp) (r l : Nat) (down : Bool) (bs : List Byte) : State :=
  sendChunks (updOp s c o.num fun o => { o with sent := (r, l, down) :: o.sent }) c o r l down (messagePackets o.terms.chunk bs)

/-- A SYNC packet of an operation at a level: COUNTS, READY or BARRIER, with the operation's number, level and phase as its other packets
carry them (R276, R293). -/
def sendOpSync (s : State) (c : Fin 16) (o : CollOp) (r l : Nat) (down : Bool) (kind : Nat) (body : List Byte) : State :=
  let (s, ok) := sendSyncOf s c r kind none o.num (levelTag l down) (leBytes 4 o.num ++ body)
  if ok then s else crewFault s c 3 (some r) none

/-- READY to a rank that sends data to this member (R292). -/
def sendReady (s : State) (c : Fin 16) (o : CollOp) (r : Nat) : State := sendOpSync s c o r ((peerLevel s c r).getD 0) false 5 []

/-! ## Steps of an operation -/

def addFlags (o : CollOp) (fl : FlagByte) : CollOp := { o with res := { o.res with flags := o.res.flags ||| fl } }

/-- The result of a reduction part written into RBUF (R280): MEAN divides, then one rounding to OFMT. -/
def writeResult (s : State) (c : Fin 16) (p : Fin 8) (o : CollOp) (vals : List (BitVec 32)) : Option State :=
  let w := o.word
  let f := (fmtOf (coOfmt w)).getD .fp32
  let one (x : BitVec 32) : List Byte × FlagByte :=
    if coInt w then (leBytes 4 x.toNat, 0) else
    let (y, fl) := if coRop w = 1 then let (d, fd) := divTo .fp32 false (of32 false x) (.fin false o.included 0); (BitVec.ofNat 32 d, fd) else (x, 0)
    let (q, fq) := convert f .rne false false (of32 false y)
    (leBytes (fmtBits f / 8) q, fl ||| fq)
  let r := vals.map one
  let start := if coOp w = 1 then 0 else (finalPart (crewG s c) (myRank s c) (coCount w)).1 * coOutB w
  let bs := r.flatMap (·.1)
  (opWrite s c p o (coRbuf w) start bs).map fun s =>
    updOp s c o.num fun o => { addFlags o (orFlags (r.map (·.2))) with written := o.written + bs.length }

/-- Places of a result of n elements in RBUF. -/
def resultPlaces (s : State) (c : Fin 16) (p : Fin 8) (o : CollOp) (n : Nat) : List Nat :=
  caPlaces s p (coRbuf o.word) (if coOp o.word = 1 then 0 else (finalPart (crewG s c) (myRank s c) (coCount o.word)).1 * coOutB o.word)
    (n * coOutB o.word)

/-- After the own part is complete: the way down, or the end. -/
def beginDown (s : State) (c : Fin 16) (o : CollOp) : State :=
  match (levelsDown (crewG s c)).head? with
  | some l => if coOp o.word = 1 then updOp s c o.num fun o => { o with complete := true } else updOp s c o.num fun o => { o with up := false, level := l }
  | none => updOp s c o.num fun o => { o with complete := true }

/-- Deferred slots of the Stroke before that this reduction can add: (rank, values); the others are lost (R339). -/
def deferredLeaves (s : State) (c : Fin 16) (p : Fin 8) (o : CollOp) (own : Nat) : List (List Val) × State :=
  let prev := strokeNum s c - 1
  let start := (finalPart (crewG s c) (myRank s c) (coCount o.word)).1
  let mine := sortBy (fun a b => a.rank ≤ b.rank) (s.crews[c].deferrals.filter fun d => d.stroke = prev && d.red = o.red)
  mine.foldl (fun (acc : List (List Val) × State) d =>
    if d.count = coCount o.word && d.part = start && d.len = own then
      let bs := collBytes acc.2 p (deferBase acc.2 c) d.off d.bytes
      (acc.1 ++ [(List.range own).map (wireDecode (coInt o.word) ((crewWire acc.2 c).getD 0 0) bs)],
       addLate acc.2 c (lateEntry 3 d.rank o.red 0))
    else (acc.1, ctrAdd (addLate acc.2 c (lateEntry 4 d.rank o.red 0)) 0 (crewIdx c) 0x45 1)) ([], s)

/-- Places of the deferred slots it adds. -/
def deferredPlaces (s : State) (c : Fin 16) (p : Fin 8) (o : CollOp) (own : Nat) : List Nat :=
  let start := (finalPart (crewG s c) (myRank s c) (coCount o.word)).1
  (s.crews[c].deferrals.filter fun d => d.stroke = strokeNum s c - 1 && d.red = o.red && d.count = coCount o.word && d.part = start && d.len = own).flatMap
    fun d => caPlaces s p (deferBase s c) d.off d.bytes

/-- Elements that bytes [lo, hi) of a part of m elements hold in a wire format (R279): the first, and one past the last. -/
def elemSpan (int : Bool) (code m lo hi : Nat) : Nat × Nat :=
  if int then (lo / 4, min m ((hi + 3) / 4)) else
  match code with
  | 1 => (lo / 2, min m ((hi + 1) / 2))
  | 2 => (32 * (lo / 33), min m (32 * ((hi + 32) / 33)))
  | _ => (lo / 4, min m ((hi + 3) / 4))

/-- Chunks of the message to rank r with the part of m elements from element a on that can leave now: number, first byte, one past its
last, and the elements it holds. A chunk leaves as soon as every element in it has been supplied (R287). -/
def readyChunks (s : State) (c : Fin 16) (o : CollOp) (r l a m : Nat) : List (Nat × Nat × Nat × Nat × Nat) :=
  let wf := (crewWire s c).getD l 0
  let n := wireBytes (coInt o.word) wf m
  let z := 2 ^ o.terms.chunk
  (List.range ((n + z - 1) / z)).filterMap fun k =>
    let hi := min ((k + 1) * z) n
    let (e0, e1) := elemSpan (coInt o.word) wf m (k * z) hi
    if !o.chunksSent.contains (r, l, k) && srcThere o (a + e0) (e1 - e0) then some (k, k * z, hi, e0, e1) else none

/-- Chunks of the lowest level in use that send-on tiles have filled leave for a rank, each rounded once; the message is sent when the
last of them has left (R278, R287). -/
def sendReadyChunks (s : State) (c : Fin 16) (p : Fin 8) (o : CollOp) (r l a m : Nat) : State :=
  let wf := (crewWire s c).getD l 0
  let int := coInt o.word
  let n := wireBytes int wf m
  let z := 2 ^ o.terms.chunk
  let s := (readyChunks s c o r l a m).foldl (fun s (k, lo, hi, e0, e1) =>
    let (bs, fl) := wireEncode int wf (contribution s p o true (a + e0) (e1 - e0))
    let s := updOp s c o.num fun o => { addFlags o fl with chunksSent := (r, l, k) :: o.chunksSent }
    sendChunks s c o r l false (chunkPackets lo ((bs.drop (lo - wireBytes int wf e0)).take (hi - lo)))) s
  match findOp s c o.num with
  | some o =>
    if (List.range ((n + z - 1) / z)).all fun k => o.chunksSent.contains (r, l, k) then
      updOp s c o.num fun o => { o with sent := (r, l, false) :: o.sent, chunksSent := o.chunksSent.filter fun x => ¬(x.1 = r ∧ x.2.1 = l) }
    else s
  | none => s

/-- The next step of a reduction's upward phase (R278). Without deterministic mode the slots of the own part are combined in the order in
which they came (R282). -/
def stepUp (s : State) (c : Fin 16) (p : Fin 8) (o : CollOp) : Option State :=
  let w := o.word
  let g := crewG s c
  let me := myRank s c
  let int := coInt w
  match (partsOf g me (coCount w)).find? fun x => x.1 = o.level with
  | none =>
    -- no level in use: the source itself is the result
    if !srcThere o 0 (coCount w) then none else
    guardUe s c p o (srcPlaces s p o 0 (coCount w)) (resultPlaces s c p o (coCount w)) <|
    (writeResult s c p o ((contribution s p o true 0 (coCount w)).map (leaf32 int))).map fun s => beginDown s c o
  | some (l, gl, d, q, _, len, own) =>
    let lowest := (levelsIn g).head? == some l
    let wf := (crewWire s c).getD l 0
    let range (j : Nat) : Nat × Nat := (min (j * q) len, min ((j + 1) * q) len - min (j * q) len)
    let there (j : Nat) : Bool := !lowest || srcThere o (range j).1 (range j).2
    let some_ (j : Nat) : Bool := !(readyChunks s c o (atPos g me l j) l (range j).1 (range j).2).isEmpty || (range j).2 = 0
    if let some j := (if lowest && coKind w then (List.range gl).find? fun j =>
        j ≠ d && !o.sent.contains (atPos g me l j, l, false) && o.readyFrom.contains (atPos g me l j) && some_ j else none) then
      some (sendReadyChunks s c p o (atPos g me l j) l (range j).1 (range j).2)
    else
    match (List.range gl).find? fun j =>
      j ≠ d && !o.sent.contains (atPos g me l j, l, false) && o.readyFrom.contains (atPos g me l j) && there j with
    | some j =>
      let r := atPos g me l j
      guardUe s c p o (if lowest then srcPlaces s p o (range j).1 (range j).2 else []) [] <|
      let (bs, fl) := wireEncode int wf (contribution s p o lowest (range j).1 (range j).2)
      let s := updOp s c o.num fun o => addFlags o fl
      let s := if l > 0 then sendOpSync s c o r l false 4 (leBytes 4 0 ++ leBytes 4 o.included) else s
      some (sendMessage s c o r l false bs)
    | none =>
      if !o.sent.contains (me, l, false) then
        if !there d then none else
        let (bs, fl) := wireEncode int wf (contribution s p o lowest (range d).1 own)
        let off := assocGet (workAreas s c w).1 l 0 + d * wireBytes int wf q
        guardUe s c p o (if lowest then srcPlaces s p o (range d).1 own else []) (caPlaces s p (coWork w) off bs.length) <|
        (opWrite s c p o (coWork w) off bs).map fun s =>
          updOp s c o.num fun o => { addFlags o fl with sent := (me, l, false) :: o.sent, arrived := o.arrived ++ [(me, l)] }
      else
        let peers := (List.range gl).filter (· ≠ d)
        let allSent := peers.all fun j => o.sent.contains (atPos g me l j, l, false)
        let cut := cutRanks s c
        let inc (j : Nat) : Nat :=
          if l = 0 then (if cut.contains (atPos g me 0 j) then 0 else 1)
          else if j = d then o.included
          else ((o.counts.find? fun x => x.1 = atPos g me l j).map fun x => x.2.2).getD 0
        let known := if l = 0 then s.crews[c].cut.entries.isSome
          else peers.all fun j => o.counts.any fun x => x.1 = atPos g me l j
        let arrived := peers.all fun j => (l = 0 && inc j = 0) || messageDone s c o (atPos g me l j) l false
        if !(allSent && known && arrived) then none else
        let top := ((levelsIn g).find? (l < ·)).isNone
        guardUe s c p o
          (((List.range gl).filter fun j => 0 < inc j).flatMap (fun j =>
            caPlaces s p (coWork w) (assocGet (workAreas s c w).1 l 0 + j * wireBytes int wf q) (wireBytes int wf own)) ++
            (if l = 0 then deferredPlaces s c p o own else []))
          (if top then resultPlaces s c p o own else []) <|
        let det := deterministic s p
        let order := if det then List.range gl else (o.arrived.filter fun x => x.2 = l).map fun x => digit g x.1 l
        let slots := (order.filter fun j => 0 < inc j).map fun j =>
          let bs := collBytes s p (coWork w) (assocGet (workAreas s c w).1 l 0 + j * wireBytes int wf q) (wireBytes int wf own)
          (List.range own).map (wireDecode int wf bs)
        let (extra, s) := if l = 0 then deferredLeaves s c p o own else ([], s)
        let rows := slots ++ extra
        let res := (List.range own).map fun i => combineAll det int (coRop w) (rows.map fun x => leaf32 int (x.getD i vZero))
        let total := ((List.range gl).map inc).sum + extra.length
        let s := updOp s c o.num fun o =>
          { addFlags o (orFlags (res.map (·.2))) with acc := res.map (·.1), included := total }
        match (levelsIn g).find? (l < ·) with
        | some l' => some (updOp s c o.num fun o => { o with level := l' })
        | none =>
          let o' := { o with included := total }
          (writeResult s c p o' (res.map (·.1))).map fun s => beginDown s c o'

/-- The next step down of ALLREDUCE and ALLGATHER (R280). -/
def stepDownAll (s : State) (c : Fin 16) (p : Fin 8) (o : CollOp) : Option State :=
  let w := o.word
  let g := crewG s c
  let me := myRank s c
  match (partsOf g me (coCount w)).find? fun x => x.1 = o.level with
  | none => none
  | some (l, gl, d, q, st, len, own) =>
    match (List.range gl).find? fun j => j ≠ d && !o.sent.contains (atPos g me l j, l, true) && o.readyFrom.contains (atPos g me l j) with
    | some j =>
      guardUe s c p o (caPlaces s p (coRbuf w) ((st + min (d * q) len) * coOutB w) (own * coOutB w)) [] <|
      some (sendMessage s c o (atPos g me l j) l true (collBytes s p (coRbuf w) ((st + min (d * q) len) * coOutB w) (own * coOutB w)))
    | none =>
      let peers := (List.range gl).filter (· ≠ d)
      if peers.all fun j => o.sent.contains (atPos g me l j, l, true) && messageDone s c o (atPos g me l j) l true then
        match (levelsDown g).find? (· < l) with
        | some l' => some (updOp s c o.num fun o => { o with level := l' })
        | none => some (updOp s c o.num fun o => { o with complete := true })
      else none

/-- The next step down of REDUCE (R280): parts gather level by level at the members on ROOT's way (log 22). -/
def stepDownReduce (s : State) (c : Fin 16) (p : Fin 8) (o : CollOp) : Option State :=
  let w := o.word
  let g := crewG s c
  let me := myRank s c
  let done := some (updOp s c o.num fun o => { o with complete := true })
  match (partsOf g me (coCount w)).find? fun x => x.1 = o.level with
  | none => none
  | some (l, gl, d, q, st, len, own) =>
    let rd := digit g (coRoot w) l
    if (levelsIn g).any fun l' => l < l' && digit g me l' ≠ digit g (coRoot w) l' then done
    else if d ≠ rd then
      let r := atPos g me l rd
      if o.sent.contains (r, l, true) then done
      else if o.readyFrom.contains r then
        guardUe s c p o (caPlaces s p (coRbuf w) ((st + min (d * q) len) * coOutB w) (own * coOutB w)) [] <|
        some (sendMessage s c o r l true (collBytes s p (coRbuf w) ((st + min (d * q) len) * coOutB w) (own * coOutB w)))
      else none
    else if ((List.range gl).filter (· ≠ d)).all fun j => messageDone s c o (atPos g me l j) l true then
      match (levelsDown g).find? (· < l) with
      | some l' => some (updOp s c o.num fun o => { o with level := l' })
      | none => done
    else none

/-- The next step of a BROADCAST (log 22): from ROOT down the levels. -/
def stepBroadcast (s : State) (c : Fin 16) (p : Fin 8) (o : CollOp) : Option State :=
  let w := o.word
  let g := crewG s c
  let me := myRank s c
  let n := coCount w * coOutB w
  let from_ := rootLevel g (coRoot w) me
  let have_ := match from_ with | none => true | some l => messageDone s c o (atPos g me l (digit g (coRoot w) l)) l true
  if !have_ then none else
  if from_.isNone && !o.sent.contains (me, 0, true) then
    guardUe s c p o (caPlaces s p (coSbuf w) 0 n) (caPlaces s p (coRbuf w) 0 n) <|
    (opWrite s c p o (coRbuf w) 0 (collBytes s p (coSbuf w) 0 n)).map fun s =>
      updOp s c o.num fun o => { o with sent := (me, 0, true) :: o.sent, written := n }
  else
    let targets := ((levelsDown g).filter fun l => match from_ with | none => true | some m => l < m).flatMap fun l =>
      (peersAt g me l).map fun r => (r, l)
    match targets.find? fun t => !o.sent.contains (t.1, t.2, true) && o.readyFrom.contains t.1 with
    | some (r, l) => guardUe s c p o (caPlaces s p (coRbuf w) 0 n) [] (some (sendMessage s c o r l true (collBytes s p (coRbuf w) 0 n)))
    | none => if targets.all fun t => o.sent.contains (t.1, t.2, true) then some (updOp s c o.num fun o => { o with complete := true }) else none

/-- The next step of an ALLTOALL (R274). -/
def stepAlltoall (s : State) (c : Fin 16) (p : Fin 8) (o : CollOp) : Option State :=
  let w := o.word
  let me := myRank s c
  let n := coCount w * coRowBytes w
  let ranks := List.range (crewP s c)
  if !o.sent.contains (me, 0, false) then
    guardUe s c p o (caPlaces s p (coSbuf w) (me * n) n) (caPlaces s p (coRbuf w) (me * n) n) <|
    (opWrite s c p o (coRbuf w) (me * n) (collBytes s p (coSbuf w) (me * n) n)).map fun s =>
      updOp s c o.num fun o => { o with sent := (me, 0, false) :: o.sent, written := o.written + n }
  else
    match ranks.find? fun r => !o.sent.contains (r, 0, false) && o.readyFrom.contains r with
    | some r => guardUe s c p o (caPlaces s p (coSbuf w) (r * n) n) [] (some (sendMessage s c o r 0 false (collBytes s p (coSbuf w) (r * n) n)))
    | none =>
      if ranks.all fun r => r = me || (o.sent.contains (r, 0, false) && messageDone s c o r 0 false) then
        some (updOp s c o.num fun o => { o with complete := true })
      else none

/-- The next step of an ALLTOALLV in either mode (R284, R285). -/
def stepAlltoallv (s : State) (c : Fin 16) (p : Fin 8) (o : CollOp) : Option State :=
  let w := o.word
  let me := myRank s c
  let P := crewP s c
  let ranks := List.range P
  let rb := coRowBytes w
  let ks := sendCounts s c p w
  let before (j : Nat) : Nat := (ks.take j).sum * rb
  let group (j : Nat) : List Byte :=
    let k := ks.getD j 0
    if o.padded then
      let m := min k (coCap w)
      collBytes s p (coSbuf w) (before j) (m * rb) ++ List.replicate ((coCap w - m) * rb) 0
    else collBytes s p (coSbuf w) (before j) (k * rb)
  -- rows and counts that a step towards rank j reads
  let rs (j : Nat) : List Nat := caPlaces s p (coSbuf w) (before j) ((if o.padded then min (ks.getD j 0) (coCap w) else ks.getD j 0) * rb)
  let cnts : List Nat := caPlaces s p (coCnts w) 0 (4 * P)
  let known := ranks.all fun r => (rowsFrom o r).isSome
  -- a destination whose READY is held gets its rows (R284, R292)
  match ranks.find? fun r => !o.sent.contains (r, 0, false) && o.readyFrom.contains r with
  | some r => guardUe s c p o (cnts ++ rs r) [] (some (sendMessage s c o r 0 false (group r)))
  | none =>
    if !o.sent.contains (me, 9, false) && known then
      let rows := ranks.map fun r => (rowsFrom o r).getD 0
      if !o.padded && rows.sum > coCount w then
        some (opFails s c o ⟨.failed, .outOfBounds, 0, false, false, BitVec.ofNat 64 rows.sum, 0⟩) else
      guardUe s c p o cnts (caPlaces s p (coCnts w) (4 * P) (4 * P)) <|
      (collWrite s c p (caWrites s p (coCnts w) (4 * P) (rows.flatMap (leBytes 4)))).map fun s =>
        let s := updOp s c o.num fun o => { o with sent := (me, 9, false) :: o.sent }
        if o.padded then s else (ranks.filter (· ≠ me)).foldl (fun s r => sendReady s c o r) s
    else if !o.sent.contains (me, 0, false) && (o.padded || o.sent.contains (me, 9, false)) then
      match messageArea s c o me 0 false with
      | none => none
      | some (a, off, _) =>
        guardUe s c p o (cnts ++ rs me) (caPlaces s p a off (group me).length) <|
        (opWrite s c p o a off (group me)).map fun s =>
          updOp s c o.num fun o => { o with sent := (me, 0, false) :: o.sent, written := o.written + (group me).length }
    else if o.sent.contains (me, 9, false) && o.sent.contains (me, 0, false) &&
        ranks.all fun r => r = me || (o.sent.contains (r, 0, false) && messageDone s c o r 0 false) then
      some (updOp s c o.num fun o => { o with complete := true })
    else none

/-- The next step of a BARRIER (R293): it rises to the group's position 0, level by level, and its release descends. -/
def stepBarrier (s : State) (c : Fin 16) (o : CollOp) : Option State :=
  let g := crewG s c
  let me := myRank s c
  let done := some (updOp s c o.num fun o => { o with complete := true })
  let body (l : Nat) : List Byte := leBytes 1 l
  if o.up then
    match (levelsIn g).find? (o.level ≤ ·) with
    | none =>
      -- the top leader: release begins
      match (levelsDown g).head? with
      | some l => some (updOp s c o.num fun o => { o with up := false, level := l })
      | none => done
    | some l =>
      if digit g me l ≠ 0 then
        let r := atPos g me l 0
        if o.sent.contains (r, l, false) then none
        else
          let s := updOp s c o.num fun o => { o with sent := (r, l, false) :: o.sent, level := l }
          some (sendOpSync s c o r l false 8 (body l))
      else if (peersAt g me l).all fun r => o.risen.contains (r, l) then
        some (updOp s c o.num fun o => { o with level := l + 1 })
      else none
  else
    -- release to the peers at each level from this one down
    match ((levelsDown g).filter (· ≤ o.level)).head? with
    | none => done
    | some l =>
      let s := (peersAt g me l).foldl (fun s r => sendOpSync s c o r l true 8 (body l)) s
      match (levelsDown g).find? (· < l) with
      | some l' => some (updOp s c o.num fun o => { o with level := l' })
      | none => some (updOp s c o.num fun o => { o with complete := true })

/-- The next step of an operation, where one can be taken. -/
def stepOpr (s : State) (c : Fin 16) (o : CollOp) : Option State :=
  if o.complete || o.retired then none else
  match crewOwner s c with
  | none => none
  | some p =>
    match coOp o.word with
    | 0 => if o.up then stepUp s c p o else stepDownAll s c p o
    | 1 => if o.up then stepUp s c p o else none
    | 2 =>
      if o.up then
        let g := crewG s c
        let n := (finalPart g (myRank s c) (coCount o.word)).2 * coOutB o.word
        guardUe s c p o (caPlaces s p (coSbuf o.word) 0 n)
          (caPlaces s p (coRbuf o.word) ((finalPart g (myRank s c) (coCount o.word)).1 * coOutB o.word) n) <|
        (opWrite s c p o (coRbuf o.word) ((finalPart g (myRank s c) (coCount o.word)).1 * coOutB o.word)
          (collBytes s p (coSbuf o.word) 0 n)).map fun s =>
            beginDown (updOp s c o.num fun o => { o with written := o.written + n }) c o
      else stepDownAll s c p o
    | 3 => stepBroadcast s c p o
    | 4 => if o.up then stepUp s c p o else stepDownReduce s c p o
    | 5 => stepAlltoall s c p o
    | 6 => stepAlltoallv s c p o
    | _ => stepBarrier s c o

/-- Operations of a Crew advance as far as they can. -/
def pumpCrew : Nat → State → Fin 16 → State
  | 0, s, _ => s
  | n + 1, s, c =>
    match s.crews[c].ops.findSome? fun o => stepOpr s c o with
    | some t => pumpCrew n t c
    | none => s

/-- Steps enough for every message of every operation in flight. -/
def pump (s : State) (c : Fin 16) : State :=
  if s.crews[c].ops.isEmpty then s else pumpCrew (s.crews[c].ops.length * (4 * crewP s c + 64)) s c

/-! ## Rejection (R271 to R275, R281) -/

/-- Two ranges of places overlap. -/
def caOverlap (s : State) (p : Fin 8) (a b : Nat × Nat) : Bool :=
  overlaps (caPlace s p a.1 0, a.2) (caPlace s p b.1 0, b.2)

/-- Places of the coarse pool among written areas, and undo refusals. -/
def areasRefused (s : State) (c : Fin 16) (p : Fin 8) (as : List (Nat × Nat)) : Option Reason :=
  let es := as.flatMap fun a => (List.range a.2).map (caPlace s p a.1)
  if es.any fun e => aLoc e = 1 && (match hbmSpot s (some p) (aHbm e) with | some m => mpaCoarse s m.1 | none => false) then some .coarseShort
  else if undoRefused s c p (hbmOf es) then some .accumScope else none

def crewopRsv : List (Nat × Nat) := [(511, 416), (175, 168), (127, 113), (31, 27)]
def p2pRsv : List (Nat × Nat) := [(511, 240), (191, 168), (127, 113), (31, 12)]

/-- Why a CREWOP is rejected (R275). -/
def crewopReject (s : State) (p : Fin 8) (w : Cmd) : Option Reason :=
  let c := coCrew w
  let op := coOp w
  let padded := decide ((s.crews[c].attempt.map (·.start)).getD s.crews[c].state ≠ .running)
  let P := crewP s c
  let d := fmtOf (coDtype w)
  let o := fmtOf (coOfmt w)
  let red := isReduction op
  let as := coAreas s c w padded
  let rows := if op = 6 then (sendCounts s c p w).sum * coRowBytes w else 0
  let bad := as.any fun a => (0 < a.2.1 || a.1 ≠ 0) && (!caValid (caEntry s p a.1) 0 || a.2.2.1.any fun r => !caValid (caEntry s p a.1) r)
  let out := as.any (fun a => (0 < a.2.1 || a.1 ≠ 0) && !caFits s p a.1 a.2.1) || (op = 6 && !caFits s p (coSbuf w) rows) ||
    (op = 6 && padded && P * coCap w > coCount w)
  let spans := (as.map fun a => (a.1, a.2.1)) ++ (if op = 6 then [(coSbuf w, rows)] else [])
  let pairs := spans.zipIdx.flatMap fun (a, i) => (spans.drop (i + 1)).map fun b => (a, b)
  let shared := pairs.any fun (a, b) =>
    caOverlap s p a b && !(op = 0 && !coKind w && a = (coSbuf w, coCount w * coSrcB w) && b.1 = coRbuf w &&
      caPlace s p a.1 0 = caPlace s p b.1 0 && a.2 = b.2)
  firstReason [
    (rsvSet w crewopRsv, .reservedSet),
    (crewOwner s c ≠ some p || s.crews[c].state = .undefined, .crewState),
    (op > 7 || coRoot w ≥ P || (coKind w && !red) ||
      (coKind w && (coSendon w = 0 || coSendon w > 4095 || !(assocGet s.host.funcs[funcOf p].handles (coSendon w) 0).getLsbD 0)) ||
      (!coKind w && coSendon w ≠ 0) || coEvent w > 4095 || (op = 7 && coCount w ≠ 0) ||
      ((op = 5 || op = 6) && coRowBytes w = 0), .badField),
    ((red && !((d == some .int32 && o == some .int32) ||
        ((d == some .fp32 || d == some .bf16) && (o == some .fp32 || o == some .bf16)))) ||
      ((op = 2 || op = 3) && (d.isNone || d != o || !(d.map fun f => fmtBits f ≥ 8 && !fmtBlock f).getD false)) ||
      ((op = 5 || op = 6) && (coDtype w ≠ 0 || coOfmt w ≠ 0)) || (red && coRop w = 1 && d == some .int32), .badFormat),
    (bad, .badField),
    (out, .outOfBounds),
    (shared, .aliased)] |>.orElse fun _ => areasRefused s c p ((as.filter (·.2.2.2)).map fun a => (a.1, a.2.1))

/-- Why a SEND or RECV is rejected (R275, R288). -/
def p2pReject (s : State) (p : Fin 8) (w : Cmd) : Option Reason :=
  let c := pbCrew w
  let snd := fld w 7 0 = 0x52
  let e := caEntry s p (pbBuf w)
  firstReason [
    (rsvSet w p2pRsv, .reservedSet),
    (crewOwner s c ≠ some p || s.crews[c].state = .undefined, .crewState),
    (pbPeer w ≥ crewP s c || coEvent w > 4095 || !caValid e 0 || !caValid e (if snd then 1 else 2), .badField),
    (!caFits s p (pbBuf w) (pbLen w), .outOfBounds)] |>.orElse fun _ =>
      if snd then none else areasRefused s c p [(pbBuf w, pbLen w)]

/-! ## Issue (R276, R284, R285, R287, R289) -/

/-- Ranks that send data to this member in an operation, and so need its READY (R292). -/
def readyTo (s : State) (c : Fin 16) (w : Cmd) : List Nat :=
  match coOp w with
  | 5 | 6 => (List.range (crewP s c)).filter (· ≠ myRank s c)
  | 7 => []
  | _ => crewPeers s c

/-- Rows an ALLTOALLV in padded mode drops: (destination, rows) (R285). -/
def dropsOf (s : State) (c : Fin 16) (p : Fin 8) (w : Cmd) : List (Nat × Nat) :=
  ((sendCounts s c p w).zipIdx.filter fun (k, _) => coCap w < k).map fun (k, j) => (j, k - coCap w)

/-- Send-on elements supplied to an operation; a breach of R287 is its failure. -/
def supplyOp (s : State) (c : Fin 16) (k : Nat) (es : List (Nat × BitVec 32)) : State :=
  match findOp s c k with
  | none => s
  | some o =>
    let fail (r : Reason) (a : Nat) : State := opFails s c o ⟨.failed, r, 0, false, true, BitVec.ofNat 64 a, 0⟩
    match es.find? fun x => coCount o.word ≤ x.1 with
    | some x => fail .outOfBounds x.1
    | none =>
      match es.find? fun x => o.supplied.any fun y => y.1 = x.1 with
      | some x => fail .aliased x.1
      | none => updOp s c k fun o => { o with supplied := o.supplied ++ es, sourced := o.supplied.length + es.length = coCount o.word }

/-- Elements a tile handed to the Rigger supplies (R287): none where a row's first target is no multiple of 512. -/
def tileElems (s : State) (n : Fin 8) (t : Tile) (h : BitVec 128) (arow n0 cols : Nat) : Option (List (Nat × BitVec 32)) :=
  let off := fld h 127 88
  let rs := fld h 87 56
  if (off + arow * rs + n0) % 512 ≠ 0 || rs % 512 ≠ 0 then none else
  some ((List.range t.rows).flatMap fun m => (List.range cols).map fun j =>
    let h16 := tile16 t
    let code := ofLe (palletReadN s n (partOff t.entry t.current h16 m j) (partBytes h16))
    let v : BitVec 32 := if t.cls = .integer then BitVec.ofNat 32 code else if h16 then wide32 (readCode .fp16 false code) else BitVec.ofNat 32 code
    (off + (arow + m) * rs + n0 + j, v))

/-- Pallet bytes of a tile handed on. -/
def tilePlaces (t : Tile) (cols : Nat) : List Nat :=
  (List.range t.rows).flatMap fun m => (List.range cols).flatMap fun j =>
    (List.range (partBytes (tile16 t))).map fun b => partOff t.entry t.current (tile16 t) m j + b

/-- Tiles waiting to be sent on are read by the in-flight CREWOP of their partition that names their handle (R287). -/
def takeTiles (s : State) (c : Fin 16) (o : CollOp) (p : Fin 8) : State :=
  if !coKind o.word || o.retired then s else
  let hd := assocGet s.host.funcs[funcOf p].handles (coSendon o.word) 0
  (List.finRange 8).foldl (fun s n =>
    if courseOwner s n ≠ some p then s else
    (List.range 64).foldl (fun s h =>
      let t := s.courses[n].tiles[fin64 h]
      match t.sendon with
      | some (k, arow, n0, cols) =>
        if k ≠ coSendon o.word || (findOp s c o.num).isNone then s else
        let s' := updTile s n h fun t => { t with sendon := none }
        match palletUe s n (tilePlaces t cols) with
        | some a => opFails (palletUeEvent s' n a) c o (failedRes .palletUe true (palletAddr n a))
        | none =>
        match tileElems s n t hd arow n0 cols with
        | none => opFails s' c o ⟨.failed, .badField, 0, false, true, 0, 0⟩
        | some es => supplyOp s' c o.num es
      | none => s) s) s

/-- A CREWOP begins: READYs go out, and what was held early for it is taken (R276, R292). One that begins anew keeps its numbers in the
attempt, and its dropped rows are counted already. -/
def startOp (s : State) (c : Fin 16) (p : Fin 8) (w : Cmd) (iss : Issuer) (tm : Terms) : State :=
  let k := s.crews[c].opNum + 1
  let a := s.crews[c].attempt
  let padded := decide ((a.map (·.start)).getD s.crews[c].state ≠ .running)
  let op := coOp w
  let red := match tm.begun with | some x => x.1 | none => if isReduction op then (a.map (·.reductions)).getD 0 + 1 else 0
  let v := match tm.begun with | some x => x.2 | none => if op = 6 then (a.map (·.alltoallvs)).getD 0 + 1 else 0
  let early := s.crews[c].early.filter fun x => x.2.1 = k
  let g := crewG s c
  let drops := if op = 6 && padded then dropsOf s c p w else []
  let me := myRank s c
  let own := if op = 6 then [(me, (if padded then min ((sendCounts s c p w).getD me 0) (coCap w) else (sendCounts s c p w).getD me 0), 0)] else []
  let o : CollOp :=
    { num := k, word := w, iss := iss, terms := { tm with begun := some (red, v) }, padded := padded, red := red, supplied := [], sourced := !coKind w,
      readyFrom := (early.filter fun x => x.2.2.isNone).map (·.1), landed := [],
      counts := own ++ early.filterMap (fun x => x.2.2.map fun y => (x.1, y.1, y.2)),
      level := if op = 7 then 0 else (levelsIn g).head?.getD 0, up := true, acc := [], included := 1, written := 0,
      wrote := [], arrived := [], chunksSent := [],
      dropped := (drops.map (·.2)).sum, risen := (s.crews[c].earlyRisen.filter fun x => x.2.1 = k).map fun x => (x.1, x.2.2), complete := false, sent := [], retired := false, failed := false,
      res := Res.okay }
  let s := updCrew s c fun x =>
    { x with opNum := k, ops := x.ops ++ [o], early := x.early.filter fun y => y.2.1 ≠ k, earlyRisen := x.earlyRisen.filter fun y => y.2.1 ≠ k }
  let s := if tm.begun.isSome then s else
    let s := updAttempt s c fun a : Attempt => { a with reductions := if red = 0 then a.reductions else red, alltoallvs := if v = 0 then a.alltoallvs else v }
    drops.foldl (fun s (j, n) => ctrAdd (addLate s c (lateEntry 5 j v n)) 0 (crewIdx c) 0x23 n) s
  let s := if op = 6 then
      (readyTo s c w).foldl (fun s r =>
        let n := (sendCounts s c p w).getD r 0
        sendOpSync s c o r 0 false 4 (leBytes 4 (if padded then min n (coCap w) else n) ++ leBytes 4 0)) s
    else s
  let s := if op = 6 && !padded then s else (readyTo s c w).foldl (fun s r => sendReady s c o r) s
  let s := takeTiles s c o p
  if cutDefers s c && red > 0 then deferOp s c p o else s

/-- The member arrives once its reduction 1 has its whole source (R338). -/
def checkArrival (s : State) (c : Fin 16) : State :=
  if s.crews[c].cut.arrived.contains (myRank s c) then s else
  if s.crews[c].ops.any fun o => o.red = 1 && o.sourced then
    let s := arrive s c
    updCrew s c fun k => { k with cut := { k.cut with arrived := if k.cut.arrived.contains (myRank s c) then k.cut.arrived else k.cut.arrived ++ [myRank s c] } }
  else s

/-- The message number of a SEND or RECV: stage tag and count (R289, log 23). -/
def p2pMsg (s : State) (c : Fin 16) (stage num : Nat) : Nat := epochMsg s c + place 8 (stage % 65536) + num % 256

/-- The DONE by which a sender ends its message, told from a receiver's by ENDC (log 23). -/
def sendEnd (s : State) (c : Fin 16) (r st m n : Nat) : State × Bool := sendSyncOf s c r 7 (some 0) 0 st (leBytes 4 m ++ leBytes 8 n)

/-- A SEND with its CREDIT sends its bytes, and DONE with their number after them (log 23); one too long fails at both ends. -/
def startSend (s : State) (c : Fin 16) (p : Fin 8) (x : P2p) (cap : Nat) : State :=
  let w := x.word
  let r := pbPeer w
  let n := pbLen w
  let m := p2pMsg s c (pbStage w) x.num
  let s := ctrAdd s 0 (crewIdx c) 0x25 (s.now - x.since).toNat
  let drop (s : State) : State := updCrew s c fun k => { k with p2p := k.p2p.filter fun y => !(y.send && y.num = x.num && pbPeer y.word = r && pbStage y.word = pbStage w) }
  if n > cap then
    let s := drop (sendEnd s c r (pbStage w) m n).1
    crewFault (retireUnit s x.iss 0x52 (coTag w) (coEvent w) ⟨.failed, .outOfBounds, 0, false, false, BitVec.ofNat 64 n, 0⟩) c 8 none none
  else
    let bs := collBytes s p (pbBuf w) 0 n
    match collUe s p (caPlaces s p (pbBuf w) 0 n) [] with
    | some a =>
      let s := drop (collUeEvent s p a)
      crewFault (retireUnit s x.iss 0x52 (coTag w) (coEvent w) (failedRes a.1 false a.2)) c 8 none none
    | none =>
      let s := collRead s p (caPlaces s p (pbBuf w) 0 n)
      let (s, ok) := (messagePackets x.terms.chunk bs).foldl (fun (acc : State × Bool) y =>
        if !acc.2 then acc else sendRank acc.1 c r 1 y.2.2 y.1 m (pbStage w) y.2.1 (x.terms.weight, x.terms.age)) (s, true)
      let (s, ok) := if ok then sendEnd s c r (pbStage w) m n else (s, false)
      let s := updCrew s c fun k =>
        { k with p2p := k.p2p.map fun y => if y.send && y.num = x.num && pbPeer y.word = r && pbStage y.word = pbStage w then { y with credit := some cap } else y }
      if ok then s else crewFault s c 3 (some r) none

/-- A SEND or RECV begins (R289): a RECV sends its CREDIT, a SEND takes one that is held. -/
def startP2p (s : State) (c : Fin 16) (p : Fin 8) (w : Cmd) (iss : Issuer) (tm : Terms) : State :=
  let snd := decide (fld w 7 0 = 0x52)
  let r := pbPeer w
  let st := pbStage w
  let i := ((s.crews[c].p2pCount.find? fun x => x.1 = snd && x.2.1 = r && x.2.2.1 = st).map fun x => x.2.2.2).getD 0 + 1
  let x : P2p := ⟨snd, w, iss, tm, i, none, 0, [], [], none, s.now⟩
  let s := updCrew s c fun k =>
    { k with
      p2p := k.p2p ++ [x]
      p2pCount := (snd, r, st, i) :: k.p2pCount.filter fun y => !(y.1 = snd && y.2.1 = r && y.2.2.1 = st) }
  if snd then
    match s.crews[c].credits.find? fun y => y.1 = r && y.2.1 = st with
    | some (_, _, cap) =>
      let s := updCrew s c fun k => { k with credits := k.credits.erase (r, st, cap) }
      startSend s c p x cap
    | none => s
  else
    let (s, ok) := sendSync s c r 6 st (leBytes 2 st ++ leBytes 8 (pbLen w))
    if ok then s else crewFault s c 3 (some r) none

/-- Room for a waiting command: 64 CREWOPs, 256 RECVs (R276, R289). -/
def roomFor (s : State) (c : Fin 16) (w : Cmd) : Bool :=
  let k := s.crews[c]
  if fld w 7 0 = 0x51 then (k.ops.filter fun o => !o.retired).length < 64
  else if fld w 7 0 = 0x53 then (k.p2p.filter fun x => !x.send).length < 256 else true

/-- Waiting commands begin, in order, while HS is 1 and there is room (R266, R276). -/
def takeWaitingN : Nat → State → Fin 16 → State
  | 0, s, _ => s
  | n + 1, s, c =>
    match s.crews[c].waiting, crewOwner s c with
    | (w, iss, tm) :: rest, some p =>
      if !s.crews[c].hs || !roomFor s c w then s else
      let s := updCrew s c fun k => { k with waiting := rest }
      takeWaitingN n (if fld w 7 0 = 0x51 then startOp s c p w iss tm else startP2p s c p w iss tm) c
    | _, _ => s
def takeWaiting (s : State) (c : Fin 16) : State := takeWaitingN s.crews[c].waiting.length s c

/-- Everything a Crew's operations can do now is done. -/
def advanceCrew (s : State) (c : Fin 16) : State :=
  let s := takeWaiting s c
  match crewOwner s c with
  | none => s
  | some p =>
    let s := s.crews[c].ops.foldl (fun s o => takeTiles s c o p) s
    pump (checkArrival s c) c

/-- A Rigger command of a program (R266, R270, R275): rejected, failed at once where the attempt's Crew has left its state, or
waiting its turn. -/
def issueRigger (s : State) (c0 : Fin 16) (p : Fin 8) (w : Cmd) (iss : Issuer) : State :=
  let op := fld w 7 0
  let c := if op = 0x51 then coCrew w else pbCrew w
  match (if op = 0x51 then crewopReject s p w else p2pReject s p w) with
  | some r => retireUnit s iss op (coTag w) (coEvent w) (rejected r)
  | none =>
    if s.crews[c0].fin = .unresolved || s.crews[c0].fin = .decided then
      let (cause, mid, _) := s.crews[c].problem
      retireUnit s iss op (coTag w) (coEvent w) { crewStateRes s c cause (mid.bind (midRank s c)) mid with part := false }
    else
      let tm : Terms := ⟨crewChunk s c, crewWeight s c, s.crews[c].age, none⟩
      advanceCrew (updCrew s c fun k => { k with waiting := k.waiting ++ [(w, iss, tm)], age := k.age + 1, silence := crewSilence s c }) c

/-! ## Received chunks and data (R242, R243, R276, R289) -/

/-- A packet's bytes enter the chunk's account. -/
def landIn (l : List Landed) (src lv : Nat) (down : Bool) (cs off : Nat) (payload : List Byte) (endc : Option (BitVec 64)) (port : Fin 16) :
    List Landed :=
  let k := off / 2 ^ cs
  let add := chunkSum (off % 2 ^ cs) payload
  match l.find? fun x => x.src = src && x.level = lv && x.down = down && x.chunk = k with
  | some _ => l.map fun x =>
      if x.src = src && x.level = lv && x.down = down && x.chunk = k then
        { x with bytes := x.bytes + payload.length, sum := x.sum + add, endc := x.endc.orElse fun _ => endc, port := port } else x
  | none => l ++ [⟨src, lv, down, k, payload.length, add, endc, port⟩]

/-- A chunk of n bytes is whole and its checksums differ. -/
def chunkBad (cs total : Nat) (x : Landed) : Bool :=
  x.bytes = min (2 ^ cs) (total - x.chunk * 2 ^ cs) && match x.endc with | some e => e ≠ x.sum | none => false

/-- A chunk was found corrupt: it is counted at its port, and the port goes into the attempt (R243). -/
def noteCorrupt (s : State) (c : Fin 16) (port : Fin 16) : State :=
  updAttempt (ctrAdd s 0 (0x7100 + port) 0x17 1) c fun a => { a with faultPort := port }

/-- A slot of a cut rank lands in the deferral area, its chunks compared as others are (R243, R339); one found corrupt is reported to the
Crew and lost for the next Stroke. -/
def landDeferred (s : State) (port : Fin 16) (c : Fin 16) (p : Fin 8) (o : CollOp) (d : Deferral) (src : Nat) (bs : List Byte) : Option State :=
  let off := pkOffset bs
  let pay := pkPayload bs
  if d.bytes < off + pay.length then some s else
  (collWrite s c p (caWrites s p (deferBase s c) (d.off + off) pay)).map fun s =>
    let ls := landIn o.landed src 0 false o.terms.chunk off pay (if pkEndc bs then some (pkSum bs) else none) port
    let s := updOp s c o.num fun o => { o with landed := ls }
    if ls.any fun x => x.src = src && x.level = 0 && !x.down && chunkBad o.terms.chunk d.bytes x then
      let s := setProblem (noteCorrupt s c port) c 4 (some (rankMid s c src))
      let s := updCrew s c fun k => { k with deferrals := k.deferrals.filter fun x => ¬(x.stroke = d.stroke ∧ x.red = d.red ∧ x.rank = d.rank) }
      ctrAdd (addLate s c (lateEntry 4 src o.red 0)) 0 (crewIdx c) 0x45 1
    else s

/-- A CHUNK packet of a member lands (R276, R243): none while an MM holds the range (R57). A message that brings more bytes than are
expected, or whose last chunk ends before them, shows an operation that does not match (R276, log 22). -/
def landChunk (s : State) (port : Fin 16) (c : Fin 16) (src : Nat) (bs : List Byte) : Option State :=
  let lv := pkXtag bs / 2 ^ 14
  let down := (pkXtag bs).testBit 13
  let off := pkOffset bs
  let pay := pkPayload bs
  match findOp s c (pkMsg bs % 2 ^ 24), crewOwner s c with
  | some o, some p =>
    let cs := o.terms.chunk
    if isReduction (coOp o.word) && lv = 0 && !down && (cutRanks s c).contains src then
      -- a slot of a cut rank: put aside, or discarded (R339, R340)
      match s.crews[c].deferrals.find? fun d => d.stroke = strokeNum s c && d.red = o.red && d.rank = src with
      | some d => landDeferred s port c p o d src bs
      | none => some s
    else if o.retired then some s else
    match messageArea s c o src lv down with
    | none => some (opFails s c o (crewStateRes s c 5 (some src) none))
    | some (a, base, n) =>
      let hi := off + pay.length
      -- a rank sends its contribution before its results: results that come first show that it had another length to send
      let early := isReduction (coOp o.word) && down && !messageDone s c o src lv false && !(lv = 0 && (cutRanks s c).contains src)
      let short := pkEndc bs && hi < n && hi % 2 ^ cs ≠ 0
      if early || n < hi || short then some (opFails s c o (crewStateRes s c 5 (some src) none)) else
      guardUe s c p o [] (caPlaces s p a (base + off) pay.length) <|
      (opWrite s c p o a (base + off) pay).map fun s =>
        let ls := landIn o.landed src lv down cs off pay (if pkEndc bs then some (pkSum bs) else none) port
        let s := updOp s c o.num fun o => { o with landed := ls, written := if down || coOp o.word ≥ 5 then o.written + pay.length else o.written }
        if ls.any fun x => x.src = src && x.level = lv && x.down = down && chunkBad cs n x then opCorrupt (noteCorrupt s c port) c o src
        else if !down && messageDone s c { o with landed := ls } src lv false then updOp s c o.num fun o => { o with arrived := o.arrived ++ [(src, lv)] }
        else s
  | _, _ => some s

/-- A RECV or SEND found by its message number. -/
def findP2p (s : State) (c : Fin 16) (snd : Bool) (src msg : Nat) : Option P2p :=
  s.crews[c].p2p.find? fun x => x.send = snd && pbPeer x.word = src && p2pMsg s c (pbStage x.word) x.num = msg
def dropP2p (s : State) (c : Fin 16) (x : P2p) : State := updCrew s c fun k => { k with p2p := k.p2p.erase x }

/-- A RECV ends with a result of its own: the wait for its first byte ends too (R290). -/
def endRecv (s : State) (c : Fin 16) (x : P2p) : State := dropP2p (if x.landed = 0 then bubble s c (pbStage x.word) else s) c
  (if x.landed = 0 then { x with since := s.now } else x)

/-- The first chunk of a RECV that is whole and whose checksums differ; a message whose length is not known yet has no last chunk. -/
def recvBad (x : P2p) : Option Landed :=
  x.chunks.find? fun y => match y.endc with
    | some e => e ≠ y.sum && (match x.total with
        | some n => y.bytes = min (2 ^ x.terms.chunk) (n - y.chunk * 2 ^ x.terms.chunk)
        | none => y.bytes = 2 ^ x.terms.chunk)
    | none => false

/-- A RECV whose bytes have all landed retires once its chunks have been compared, and DONE goes back (R289); a chunk found corrupt fails
it (R243, R294), and a message longer than its buffer fails it too. -/
def checkRecv (s : State) (c : Fin 16) (src msg : Nat) : State :=
  match findP2p s c false src msg with
  | none => s
  | some x =>
    match recvBad x, x.total with
    | some y, _ =>
      failP2p (setProblem (noteCorrupt (endRecv s c x) c y.port) c 4 (some (rankMid s c src))) c x (crewStateRes s c 4 (some src) none)
    | none, none => s
    | none, some n =>
      if n > pbLen x.word then
        crewFault (retireUnit (endRecv s c x) x.iss 0x53 (coTag x.word) (coEvent x.word) ⟨.failed, .outOfBounds, 0, false, false, BitVec.ofNat 64 n, 0⟩) c 8 none none
      else if x.landed = n && x.chunks.all (·.endc.isSome) then
        let s := endRecv s c x
        let (s, ok) := sendSync s c src 7 (pbStage x.word) (leBytes 4 msg ++ leBytes 8 n)
        let s := ctrAdd (retireUnit s x.iss 0x53 (coTag x.word) (coEvent x.word) { Res.okay with d0 := BitVec.ofNat 64 n }) 0 (crewIdx c) 0x20 1
        if ok then s else crewFault s c 3 (some src) none
      else s

/-- A DATA packet of a member lands in its RECV (R289): none while an MM holds the range. -/
def landData (s : State) (port : Fin 16) (c : Fin 16) (src : Nat) (bs : List Byte) : Option State :=
  let off := pkOffset bs
  let pay := pkPayload bs
  match findP2p s c false src (pkMsg bs), crewOwner s c with
  | some x, some p =>
    if off + pay.length > pbLen x.word then some s else
    match collUe s p [] (caPlaces s p (pbBuf x.word) off pay.length) with
    | some a => some (crewFault (failP2p (endRecv (collUeEvent s p a) c x) c x (failedRes a.1 true a.2)) c 8 none none)
    | none =>
    (collWrite s c p (caWrites s p (pbBuf x.word) off pay)).map fun s =>
      let first := x.landed = 0 && 0 < pay.length
      let s := if first then bubble s c (pbStage x.word) else s
      let ls := landIn x.chunks src 0 false x.terms.chunk off pay (if pkEndc bs then some (pkSum bs) else none) port
      let s := updCrew s c fun k =>
        { k with p2p := k.p2p.map fun y =>
            if !y.send && pbPeer y.word = src && y.num = x.num && pbStage y.word = pbStage x.word then
              { y with landed := y.landed + pay.length, chunks := ls
                       wrote := if pay.isEmpty then y.wrote else (caPlace s p (pbBuf x.word) off, pay.length) :: y.wrote }
            else y }
      checkRecv s c src (pkMsg bs)
  | _, _ => some s

/-! ## Rows of received SYNC packets (R284, R289, R292, R293) -/

/-- A SYNC packet of a rank reaches its Crew: one of another epoch is discarded and counted (R268), one of an UNDEFINED Crew discarded. -/
def crewSync (s : State) (c : Fin 16) (src : Nat) (epoch : BitVec 32) (go : State → State) : State :=
  if s.crews[c].state = .undefined then s else
  let s := noteHeard s c src
  if epoch ≠ s.crews[c].epoch then ctrAdd s 0 (crewIdx c) 0x27 1 else go s

/-- COUNTS (R284, R285, R278). -/
def execCounts (c : Fin 16) (src : Sender) (op : Nat) (rows : Nat) (included : Nat) (s : State) : Host.Outcome State Fault Refusal :=
  powered s (crewSync s c src.rank src.epoch fun s =>
    match findOp s c op with
    | some _ => (advanceCrew (updOp s c op fun o => { o with counts := o.counts ++ [(src.rank, rows, included)] }) c)
    | none =>
      if op ≤ s.crews[c].opNum then s
      else (updCrew s c fun k => { k with early := k.early ++ [(src.rank, op, some (rows, included))] }))

/-- READY (R292). -/
def execReady (c : Fin 16) (src : Sender) (op : Nat) (s : State) : Host.Outcome State Fault Refusal :=
  powered s (crewSync s c src.rank src.epoch fun s =>
    match findOp s c op with
    | some _ => (advanceCrew (updOp s c op fun o => { o with readyFrom := src.rank :: o.readyFrom.filter (· ≠ src.rank) }) c)
    | none =>
      if op ≤ s.crews[c].opNum then s
      else (updCrew s c fun k => { k with early := k.early ++ [(src.rank, op, none)] }))

/-- BARRIER_SYNC (R293). -/
def execBarrierSync (c : Fin 16) (src : Sender) (op : Nat) (level : Nat) (release : Bool) (s : State) : Host.Outcome State Fault Refusal :=
  powered s (crewSync s c src.rank src.epoch fun s =>
    let g := crewG s c
    match findOp s c op with
    | some o =>
      if coOp o.word ≠ 7 then (advanceCrew (opFails s c o (crewStateRes s c 5 (some src.rank) none)) c) else
      if release then
        -- released at this level: the release goes on below it
        match (levelsDown g).find? (· < level) with
        | some l => (advanceCrew (updOp s c op fun o => { o with up := false, level := l }) c)
        | none => (advanceCrew (updOp s c op fun o => { o with complete := true }) c)
      else (advanceCrew (updOp s c op fun o => { o with risen := (src.rank, level) :: o.risen }) c)
    | none =>
      if release || op ≤ s.crews[c].opNum then s
      else (updCrew s c fun k => { k with earlyRisen := k.earlyRisen ++ [(src.rank, op, level)] }))

/-- CREDIT (R289): it is matched with the oldest SEND to its rank with its stage tag that has none, or held. -/
def execCredit (c : Fin 16) (src : Sender) (stage : BitVec 16) (cap : Nat) (s : State) : Host.Outcome State Fault Refusal :=
  powered s (crewSync s c src.rank src.epoch fun s =>
    match s.crews[c].p2p.find? (fun x => x.send && pbPeer x.word = src.rank && pbStage x.word = stage.toNat && x.credit.isNone), crewOwner s c with
    | some x, some p => (advanceCrew (startSend s c p x cap) c)
    | _, _ => (updCrew s c fun k => { k with credits := k.credits ++ [(src.rank, stage.toNat, cap)] }))

/-- DONE (R289): a receiver's confirms that every byte has landed and the SEND retires; the one by which a sender ends its message gives
its length (log 23). -/
def doneMsg (s : State) (c : Fin 16) (src : Nat) (msg : BitVec 32) (landed : Nat) (ends : Bool) : State :=
  if ends then
    let s := updCrew s c fun k =>
      { k with p2p := k.p2p.map fun y => if !y.send && pbPeer y.word = src && p2pMsg s c (pbStage y.word) y.num = msg.toNat then { y with total := some landed } else y }
    checkRecv s c src msg.toNat
  else
    match findP2p s c true src msg.toNat with
    | some x =>
      if x.credit.isNone then s else
      let s := dropP2p s c x
      ctrAdd (retireUnit s x.iss 0x52 (coTag x.word) (coEvent x.word) Res.okay) 0 (crewIdx c) 0x20 1
    | none => s

/-- An operation that is complete, with every packet it sent acknowledged, retires (R292, R294). -/
def retireOp (s : State) (c : Fin 16) (op : Nat) : State :=
  match findOp s c op with
  | none => s
  | some o =>
    if !o.complete || o.retired || messageUnacked s (crewTag s c) (epochMsg s c + o.num) then s else
    let d1 := o.dropped % 2 ^ 32 + place 32 (o.included % 2 ^ 31) + place 63 (if o.padded then 1 else 0)
    let s := updCrew s c fun k =>
      { k with ops := if isReduction (coOp o.word) then k.ops.map fun x => if x.num = op then { x with retired := true } else x
                      else k.ops.filter fun x => x.num ≠ op }
    let s := retireUnit s o.iss 0x51 (coTag o.word) (coEvent o.word)
      { o.res with d0 := BitVec.ofNat 64 o.written, d1 := BitVec.ofNat 64 d1 }
    ctrAdd s 0 (crewIdx c) 0x20 1

/-- Words of the Rigger commands of a partition that have not retired. -/
def riggerWords (s : State) (p : Fin 8) : List Cmd :=
  (List.finRange 16).flatMap fun c =>
    let k := s.crews[c]
    if crewOwner s c == some p then
      (k.ops.filter fun o => !o.retired).map (·.word) ++ k.p2p.map (·.word) ++ k.waiting.map (·.1)
    else []

/-- Entry i of the partition's collective region table is named by a command that has not retired (R271). -/
def caNamed (s : State) (p : Fin 8) (i : Nat) : Bool :=
  (s.cox[p].cmds.any fun k => fld k.src 399 388 = i) || (riggerWords s p).any fun w =>
    if fld w 7 0 = 0x51 then [coSbuf w, coRbuf w, coWork w, coCnts w].any fun a => nfld a 47 36 = i else nfld (pbBuf w) 47 36 = i

/-- Send-on handle i of the partition is named by a command that has not retired, or by a tile not read yet (R286, R287). -/
def handleNamed (s : State) (p : Fin 8) (i : Nat) : Bool :=
  ((riggerWords s p).any fun w => fld w 7 0 = 0x51 && coKind w && coSendon w = i) ||
  (List.finRange 8).any fun n => courseOwner s n == some p &&
    ((s.courses[n].queue.any fun u => u.op = 0x21 && mmSendon u.word = i) ||
     s.courses[n].tiles.toList.any fun t => match t.sendon with | some (h, _, _, _) => h = i | none => false)

end Sys2Proof.Machine
end

