-- ==== Sys2Proof/Machine/Counters.lean ====
section
/-! DEFINITION. Counter groups and the control-core trace (20). -/

namespace Sys2Proof.Machine

open Sys2Proof

def updGroup (s : State) (g : Fin 80) (h : Group → Group) : State :=
  { s with counters := { s.counters with groups := s.counters.groups.set g (h s.counters.groups[g]) } }

/-! ## Group records (R459, R460, R467) -/

/-- The owner of a group may count a unit: for a partition one it owns, or its own part of a shared one. -/
def unitAllowed (s : State) (owner kind unit : Nat) : Bool :=
  if owner = 8 then
    match kind with
    | 0 | 1 | 2 => unit < 8
    | 3 | 5 | 6 => unit < 16
    | 4 => unit < 20
    | 8 => unit < 64
    | 9 => unit < 4
    | 7 | 10 => unit = 0
    | _ => false
  else
    match kind with
    | 0 | 1 | 2 => unit < 8 && courseOwner s (fin8 unit) == some (fin8 owner)
    | 3 => unit < 16 && courseOwner s (fin8 (unit / 2)) == some (fin8 owner)
    | 4 => unit < 20
    | 6 => unit < 16 && crewOwner s (fin16 unit) == some (fin8 owner)
    | 7 => unit = 0
    | 8 => unit < 64
    | 9 => unit < 4
    | _ => false

/-- Every byte of a range lies in fine-pool regions of a partition. -/
def inFine (s : State) (p : Fin 8) (a n : Nat) : Bool :=
  hbmIn s p a n && (regions s p).all fun (st, sz, _, w) => !(w.testBit 1 && a < st + sz && st < a + n)

/-- Why a write of a group record is refused (R460): 0x0101 before 0x0202. -/
def groupRefuse (s : State) (g : Nat) (c : List Byte) : Option Nat :=
  let o := gOwner g
  let evs := (gEvents c).filter (· ≠ 0)
  if !unitAllowed s o (gKind c) (gUnit c) || (o ≠ 8 && evs.any meterGlobal) then some 0x0101
  else if evs.any (fun e => e / 4096 ≠ gKind c || !meterCodes.contains e) || 2 < gMode c ||
      (gMode c = 1 && !(1000 ≤ gInterval c && gInterval c ≤ 1000000000)) || 63 < gStream c || gSize c % 128 ≠ 0 ||
      gSize c < 4096 || 2 ^ 34 < gSize c || gRing c % 128 ≠ 0 then some 0x0202
  else if o = 8 then (if gRing c ≠ 0 then some 0x0202 else none)
  else if !inFine s (fin8 o) (gRing c) (gSize c) then some 0x0202
  else none

/-- A group record takes force: SEQ restarts, the head of a shared ring is kept (R467). -/
def groupWrite (s : State) (g : Fin 80) (c : List Byte) : State :=
  updGroup s g fun k => { k with config := c, state := if gMode c = 0 then 0 else 1, seq := 0, gap := 0, reset := false }

/-! ## Sampling (R461 to R463) -/

def ringKey (g : Nat) (c : List Byte) : Nat × Nat × Nat := (gOwner g, gRing c, gSize c)

/-- The head of a group's ring. -/
def ringHead (s : State) (g : Nat) (c : List Byte) : Nat := assocGet s.counters.heads (ringKey g c) 0

/-- A 128-byte record written at the head of the group's ring; the device ring holds 256 MiB. -/
def ringPut (s : State) (g : Fin 80) (c : List Byte) (bs : List Byte) : State :=
  let h := ringHead s g c
  let size := if gOwner g = 8 then min (gSize c) (2 ^ 28) else gSize c
  let s := if gOwner g = 8 then genBump (devWrite s 2 h bs) 0 0x9050 1 else hbmWriteN s (fin8 (gOwner g)) (gRing c + h) bs
  { s with counters := { s.counters with heads := assocSet s.counters.heads (ringKey g c) ((h + 128) % size) 0 } }

/-- A sample record (R462). -/
def sampleBytes (s : State) (g : Fin 80) (k : Group) (vals : List Nat) (lost : Bool) : List Byte :=
  let c := k.config
  leBytes 8 s.now.toNat ++ leBytes 4 k.seq.toNat ++ leBytes 1 g ++ leBytes 1 ((gEvents c).filter (· ≠ 0)).length ++
    leBytes 1 ((if 0 < k.gap then 1 else 0) + (if k.reset then 2 else 0) + (if lost then 4 else 0)) ++ [0] ++ leBytes 4 k.gap ++
    leBytes 1 (gKind c) ++ leBytes 1 (gUnit c) ++ leBytes 2 s.power.aclk ++ leBytes 2 s.power.cclk ++ leBytes 2 s.power.uclk ++
    List.replicate 4 0 ++ (List.range 8).flatMap (fun i => leBytes 8 (vals.getD i 0)) ++ List.replicate 32 0

/-- A record of the group is written: absolute values, and UNIT_LOST where its unit has gone (R467). -/
def sampleWrite (s : State) (g : Fin 80) (lost : Bool) : State :=
  let c := s.counters.groups[g].config
  let (vs, s) := meters s (gOwner g) (gUnit c) (gEvents c)
  let k := s.counters.groups[g]
  let s := ringPut s g c (sampleBytes s g k vs lost)
  updGroup s g fun k =>
    { k with records := k.records + 1, seq := k.seq + 1, gap := 0, reset := false, state := if lost then 2 else k.state }

/-- A group whose unit has left stops with NO_UNIT; a sampled one writes a last record with UNIT_LOST. -/
def groupLose (s : State) (g : Fin 80) : State :=
  let k := s.counters.groups[g]
  if k.state ≠ 1 then s
  else if gMode k.config = 1 then sampleWrite s g true
  else updGroup s g fun k => { k with state := 2 }

/-- Groups whose unit is no longer there stop (R467). -/
def groupsCheck (s : State) : State :=
  (List.finRange 80).foldl (fun s (g : Fin 80) =>
    let c := s.counters.groups[g].config
    if s.counters.groups[g].state = 1 && !unitThere s (gOwner g) (gKind c) (gUnit c) then groupLose s g else s) s

/-- Partition groups whose ring lies outside its regions stop with RING_FAULT (R467). -/
def ringsCheck (s : State) (p : Fin 8) : State :=
  (List.finRange 80).foldl (fun s (g : Fin 80) =>
    let c := s.counters.groups[g].config
    if gOwner g = p.val && s.counters.groups[g].state = 1 && gMode c = 1 && !inFine s p (gRing c) (gSize c) then
      updGroup s g fun k => { k with state := 3 }
    else s) s

/-- COUNTER_SAMPLE (R461). -/
def execCounterSample (g : Fin 80) (lost : Bool) (s : State) : Host.Outcome State Fault Refusal :=
  powered s (
    let k := s.counters.groups[g]
    let c := k.config
    if k.state ≠ 1 || gMode c ≠ 1 then s else
    let i := max 1 (gInterval c)
    let s := reach s (BitVec.ofNat 64 ((s.now.toNat + i - 1) / i * i))
    if !unitThere s (gOwner g) (gKind c) (gUnit c) then (groupLose s g)
    else if lost then (updGroup s g fun k => { k with seq := k.seq + 1, gap := k.gap + 1, lost := k.lost + 1 })
    else (sampleWrite s g false))

/-! ## Trace (R468 to R471) -/

def traceCtl (s : State) : List Byte := objBytes s 0 0x9800 1 [0, 0, 0]
def traceStop (s : State) : Bool := leAt (traceCtl s) 1 1 = 1

/-- Bytes enter the spill region: WRAP overwrites the oldest, STOP ends tracing where the region is full. -/
def spillPut (s : State) (bs : List Byte) : State :=
  let t := s.counters.trace
  let n := 2 ^ 28
  let take := if traceStop s then min bs.length (n - t.head) else bs.length
  let ws := (bs.take take).zipIdx.map fun (b, i) => ((t.head + i) % n, b)
  let t := { t with
    spill := t.spill.writeL ws
    head := if traceStop s then t.head + take else (t.head + take) % n
    written := t.written + take
    state := if traceStop s && t.head + bs.length > n then 2 else t.state }
  genBump { s with counters := { s.counters with trace := t } } 0 0x9801 2

/-- Logical cores of a cluster that run a program and pass the core and partition masks, with their partitions (R469). -/
def tracedCores (s : State) (k : Fin 4) : List (Nat × Nat) :=
  let f := objBytes s 0 0x9800 2 []
  let mask := if f.isEmpty then 0xFF else leAt f (68 * k) 1
  let parts := leAt (traceCtl s) 2 1
  (List.range 16).flatMap fun c =>
    match s.crews[fin16 c].attempt, crewOwner s (fin16 c) with
    | some a, some p =>
      if parts.testBit p then
        (a.cores.filter fun r => r.cluster = k && !r.ended && mask.testBit r.lcore).map fun r => (r.lcore, p.val)
      else []
    | _, _ => []

/-- A SYNC packet; where the core is and what it has retired are its own (free values). -/
def syncPacket (s : State) (core part : Nat) : List Byte × State :=
  let (pc, s) := fresh s
  let (n, s) := fresh s
  (leBytes 1 (16 * core + 1) ++ leBytes 1 part ++ leBytes 2 0 ++ leBytes 8 pc.toNat ++ leBytes 8 n.toNat ++ leBytes 8 s.now.toNat ++ leBytes 4 0, s)

/-- The program counter of a core that runs a traced program is in an address range of its cluster's filter: a core's own (free) where a
range is enabled. -/
def pcInRange (s : State) (k : Nat) : Bool × State :=
  let f := objBytes s 0 0x9800 2 []
  if !f.isEmpty && leAt f (68 * k + 1) 1 ≠ 0 then (let (v, s) := fresh s; (v.getLsbD 0, s)) else (true, s)

/-- The FILTER packet of a core that enters (1) or leaves (2). -/
def filterPacket (core part side : Nat) : List Byte := [BitVec.ofNat 8 (16 * core + 7), BitVec.ofNat 8 part, BitVec.ofNat 8 side]

/-- A core that has left the filter: FILTER (R469). -/
def traceLeave (s : State) (x : Nat × Nat × Nat) : State :=
  let s := { s with counters := { s.counters with trace := { s.counters.trace with inside := s.counters.trace.inside.filter (· ≠ x) } } }
  spillPut s (filterPacket x.2.1 x.2.2 2)

/-- A core that enters the filter: FILTER, then SYNC (R469). -/
def traceEnter (s : State) (x : Nat × Nat × Nat) : State :=
  let (b, s) := pcInRange s x.1
  if !b then s else
  let s := { s with counters := { s.counters with trace := { s.counters.trace with inside := x :: s.counters.trace.inside } } }
  let (p, s) := syncPacket s x.2.1 x.2.2
  spillPut s (filterPacket x.2.1 x.2.2 1 ++ p)

/-- A core inside the filter stays while it runs a program the masks select and its program counter stays in range. -/
def traceStay (now : List (Nat × Nat × Nat)) (s : State) (x : Nat × Nat × Nat) : State :=
  if !now.contains x then traceLeave s x else
  let (b, s) := pcInRange s x.1
  if b then s else traceLeave s x

/-- Cores of all clusters that run a program the masks select. -/
def tracedAll (s : State) : List (Nat × Nat × Nat) :=
  (List.finRange 4).flatMap fun (k : Fin 4) => (tracedCores s k).map fun x => (k.val, x.1, x.2)

/-- While the trace runs, it takes down the cores that have left its filter and those that have entered it (R469, R470). -/
def traceTick (s : State) : State :=
  if s.counters.trace.state ≠ 1 then s else
  let now := tracedAll s
  let old := s.counters.trace.inside
  (now.filter fun x => !old.contains x).foldl traceEnter (old.foldl (traceStay now) s)

/-- TRACE_DROP: after the drop the cluster writes GAP and a SYNC for each traced core, and the drop is counted. Whether a core's
program counter lies in an enabled range is the core's own (free). -/
def execTraceDrop (k : Fin 4) (bytes : BitVec 32) (instrs : BitVec 32) (s : State) : Host.Outcome State Fault Refusal :=
  powered s (
    if s.counters.trace.state ≠ 1 then s else
    let s := ctrAdd s 0 0x9803 1 1
    let (g, s) := fresh s
    let s := spillPut s (leBytes 1 (16 * (g.toNat % 8) + 6) ++ wordBytes bytes ++ wordBytes instrs)
    let f := objBytes s 0 0x9800 2 []
    let ranges := !f.isEmpty && leAt f (68 * k + 1) 1 ≠ 0
    ((tracedCores s k).foldl (fun s x =>
      let (v, s) := fresh s
      if ranges && v.getLsbD 0 then s else
      let (p, s) := syncPacket s x.1 x.2
      spillPut s p) s))

/-- TRACE_SPILL_FULL (R471). -/
def execTraceSpillFull (s : State) : Host.Outcome State Fault Refusal :=
  powered s (
    if s.counters.trace.state = 1 && traceStop s then
      { s with counters := { s.counters with trace := { s.counters.trace with state := 2 } } }
    else s)

/-- A committed trace control takes force: the trace runs or is off. -/
def traceApply (s : State) : State :=
  let on := leAt (traceCtl s) 0 1 = 1
  let t := s.counters.trace
  let st := if !on then 0 else if t.state = 0 then 1 else t.state
  { s with counters := { s.counters with trace := { t with state := st, inside := if on then t.inside else [] } } }

end Sys2Proof.Machine
end

