-- ==== Sys2Proof/Machine/Card.lean ====
section
/-! DEFINITION. The Stroke Card (R346 to R350): its bytes, its rings, and the committed slots of a Stroke's layers (R304, R305). -/

namespace Sys2Proof.Machine

open Sys2Proof

/-! ## Layers (R299, R303, R304) -/

/-- The state record of a layer of a partition. -/
def layerRec (s : State) (p : Fin 8) (k : Nat) : BitVec 512 := assocGet s.cox[p].layers k 0
def setLayerRec (s : State) (p : Fin 8) (k : Nat) (r : BitVec 512) : State :=
  updCox s p fun x => { x with layers := assocSet x.layers k r 0 }

/-- Fields of a layer descriptor (R299). -/
def ldSingle (d : BitVec 1024) : Bool := d.getLsbD 5
def ldEmbed (d : BitVec 1024) : Bool := d.getLsbD 4
def ldRule (d : BitVec 1024) : Nat := fld d 3 0
def ldPfmt (d : BitVec 1024) : Nat := fld d 11 8
def ldRows (d : BitVec 1024) : Nat := fld d 287 256
def ldCols (d : BitVec 1024) : Nat := fld d 319 288
/-- Bytes of a parameter (FP32 or BF16). -/
def ldPBytes (d : BitVec 1024) : Nat := if ldPfmt d = 1 then 2 else 4
/-- Bytes of a parameter slot. -/
def paramBytes (d : BitVec 1024) : Nat := ldRows d * ldCols d * ldPBytes d

/-- Addresses of slot `x` (0 or 1) of a layer; a single-slot layer has slot 0 only. -/
def paramSlot (d : BitVec 1024) (x : Bool) : Nat := if x && !ldSingle d then fld d 447 384 else fld d 383 320
def stateSlot (d : BitVec 1024) (x : Bool) : Nat := if x && !ldSingle d then fld d 575 512 else fld d 511 448

/-- The slot in force, and the one an update writes (R304, R305). -/
def activeSlot (r : BitVec 512) : Bool := r.getLsbD 0
def writtenSlot (d : BitVec 1024) (r : BitVec 512) : Bool := if ldSingle d then activeSlot r else !activeSlot r

/-- One layer commits at a Finish (R304): ACTIVE inverts, the pending values are committed, and the active table is written. -/
def flipLayer (s : State) (p : Fin 8) (d : BitVec 1024) (x : LayerPend) : State :=
  let r := if x.flip then x.srec ^^^ 1 else x.srec
  let s := setLayerRec s p x.layer r
  hbmWriteN s p (objNat s 0 0x7300 (0x21 + p) 0 + 16 * x.layer)
    (leBytes 8 (paramSlot d (activeSlot r)) ++ leBytes 8 (stateSlot d (activeSlot r)))

/-- Every layer the attempt updated commits. -/
def flipAll (s : State) (p : Fin 8) (a : Attempt) : State :=
  a.pends.foldl (fun s x =>
    match a.updates.find? fun u => u.layer = x.layer with
    | some u => flipLayer s p u.desc x
    | none => s) s

/-- Single-slot layers written by a Stroke that aborts become DIRTY (R305). -/
def markDirty (s : State) (p : Fin 8) (ks : List Nat) : State := ks.foldl (fun s k => setLayerRec s p k (layerRec s p k ||| 8)) s

/-! ## What a vote and a Card say of the updates (R329) -/

/-- The layers the attempt updated, ascending: one whose APPLY skipped counts as not updated (R313). -/
def updatesOf (a : Attempt) : List LayerUpd := sortBy (fun x y => x.layer ≤ y.layer) (a.updates.filter fun u => u.status.getLsbD 0)

/-- RULE (R329). -/
def ruleHash (a : Attempt) : BitVec 64 :=
  let b := (updatesOf a).flatMap fun u => leBytes 48 (fld u.desc 1023 640) ++ leBytes 40 (fld u.desc 319 0) ++ wordBytes u.lr ++ wordBytes u.scale
  BitVec.ofNat 64 (ofLe (shake256 b 8))

/-- Σᵢ (2i + 1) · wᵢ modulo 2^64. -/
def oddSum (ws : List (BitVec 64)) : BitVec 64 :=
  ws.zipIdx.foldl (fun a (w, i) => a + BitVec.ofNat 64 (2 * i + 1) * w) 0

/-- UPD (R329). -/
def updSum (a : Attempt) : BitVec 64 := oddSum ((updatesOf a).flatMap fun u => [BitVec.ofNat 64 u.layer, u.digest])

/-- The inclusion hash and the included count of entries (R341). -/
def inclusionHash (p : Nat) (es : List (BitVec 128)) : BitVec 64 :=
  let cut := sortBy (fun a b => leRank a ≤ leRank b) (es.filter fun e => leKind e = 1 || leKind e = 2)
  BitVec.ofNat 64 (ofLe (shake256 (leBytes 4 p ++ cut.flatMap fun e => leBytes 16 (e.toNat / 2 ^ 64 * 2 ^ 64)) 8))
def includedCount (p : Nat) (es : List (BitVec 128)) : Nat := p - (es.filter fun e => leKind e = 1 || leKind e = 2).length

/-! ## The Card's bytes (R347, R349, R350) -/

/-- A layer entry. -/
def cardLayer (s : State) (p : Fin 8) (a : Attempt) (k : Nat) : List Byte :=
  let at_ := (a.layers.find? fun x => x.layer = k).getD ⟨k, 0, false, none⟩
  let u := a.updates.find? fun x => x.layer = k
  -- STEP as the attempt leaves it: the pending value where there is one
  let r := ((a.pends.find? fun x => x.layer = k).map (·.srec)).getD (layerRec s p k)
  let status := ((u.map (·.status)).getD 0) ||| (if at_.widened then 16 else 0)
  leBytes 4 k ++ [at_.flags, status, 0, 0] ++ (match u with | some u => wordBytes u.sumsq | none => leBytes 4 0) ++ leBytes 4 (fld r 191 160) ++
    (match u with | some u => wordBytes u.digest | none => leBytes 8 0) ++ leBytes 8 0 ++
    (match at_.offender with | some (_, o) => wordBytes o | none => leBytes 32 0)

/-- Layers of a Card, ascending. -/
def cardLayers (a : Attempt) : List Nat :=
  sortBy (· ≤ ·) (a.updates.map (·.layer) ++ a.layers.map (·.layer)).dedup

/-- SHAKE entries (R347): the written parameter slots of the layers at :3A, in the Strokes of the period at :39. -/
def cardShake (s : State) (c : Fin 16) (p : Fin 8) (a : Attempt) : List (List Byte) :=
  let per := objNat s 0 (crewIdx c) 0x39 0
  if per = 0 || (strokeNum s c).toNat % per ≠ 0 then [] else
  let l := objBytes s 0 (crewIdx c) 0x3A []
  (((List.range (l.length / 4)).take 24).map fun i => leAt l (4 * i) 4).filterMap fun k =>
    ((updatesOf a).find? fun u => u.layer = k).map fun u =>
      leBytes 4 k ++ leBytes 4 0 ++
        shake256 (hbmReadN s p (paramSlot u.desc (writtenSlot u.desc (layerRec s p k))) (paramBytes u.desc)) 32

/-- STATUS (R347). -/
def cardStatus (s : State) (c : Fin 16) (a : Attempt) : Nat :=
  let replay := match s.crews[c].launch with | some l => l.body.getLsbD 216 | none => false
  let bit (i : Nat) (b : Bool) : Nat := if b then 2 ^ i else 0
  bit 0 replay + bit 1 (a.start == .test) + bit 2 (!a.deterministic) + bit 3 (s.courses.toList.any fun x => !x.check) + bit 4 a.widened +
    bit 5 (a.start != .running) + bit 6 (s.pointing.degraded != 0) + bit 7 (!a.singles.isEmpty) +
    bit 8 (64 < a.nchk || 64 < a.npnt || a.lateLost) + bit 9 s.crews[c].rejoined

/-- Late entries of a Card: kinds 1 and 2 of the decision, and the module's own, by KIND, RANK and OP (R346). -/
def cardLate (a : Attempt) (d : Decision) : List (BitVec 128) :=
  sortBy (fun x y => x.toNat / 2 ^ 72 ≤ y.toNat / 2 ^ 72) (d.entries ++ a.late)

/-- The Card of an attempt under a decision (R346, R347). -/
def cardBytes (s : State) (c : Fin 16) (p : Fin 8) (a : Attempt) (d : Decision) (term : Nat) : List Byte :=
  let ls := cardLayers a
  let late := cardLate a d
  let sh := cardShake s c p a
  let body := ls.flatMap (cardLayer s p a) ++ late.flatMap wordBytes
  let len := 4096 + (body.length + 63) / 64 * 64
  let prog := match s.crews[c].launch with | some l => fld l.body 159 96 | none => 0
  let ab := s.crews[c].aborts.drop (s.crews[c].aborts.length - 16)
  let put (h : List Byte) (x : Nat × List Byte) : List Byte := overlay h x.1 x.2
  let head := [
    (0x000, leBytes 4 1 ++ leBytes 4 len ++ leBytes 8 (strokeNum s c).toNat),
    (0x010, [BitVec.ofNat 8 c, BitVec.ofNat 8 a.number, BitVec.ofNat 8 d.decision, a.flags] ++ leBytes 2 (cardStatus s c a) ++ leBytes 2 ab.length),
    (0x018, leBytes 4 (myRank s c) ++ leBytes 4 (crewP s c) ++ wordBytes s.crews[c].hash ++ wordBytes d.incl ++ leBytes 4 d.included),
    (0x034, leBytes 4 late.length ++ leBytes 4 ls.length ++ leBytes 4 0x100A ++ leBytes 8 prog),
    (0x048, wordBytes (ruleHash a) ++ wordBytes (updSum a) ++ wordBytes a.user ++ wordBytes s.crews[c].mark),
    (0x068, wordBytes a.tStart ++ wordBytes a.tVote ++ wordBytes d.time),
    (0x080, leBytes 4 term ++ wordBytes a.epoch ++ leBytes 2 a.nchk ++ leBytes 2 a.npnt),
    (0x090, leBytes 4 a.seeds.length),
    (0x100, a.seeds.flatMap wordBytes),
    (0x200, ab.flatMap wordBytes),
    (0x400, a.chkev.flatMap wordBytes),
    (0x800, a.pntev.flatMap wordBytes),
    (0xC00, sh.flatten),
    (0xFC0, leBytes 4 sh.length)].foldl put (List.replicate 4096 0)
  sliceZ (head ++ body) 0 len

/-! ## The rings (R346) -/

/-- Where a Card of n bytes goes in a ring of `size` bytes, and the offset at which 8 zero bytes end the old lap, if there are. -/
def ringPlace (size pos n : Nat) : Nat × Option Nat :=
  if pos + n ≤ size then (pos, none) else (0, if 8 ≤ size - pos then some pos else none)

/-- Cards of a ring that writing [o, o + n) leaves whole. -/
def ringLeft (l : List (Nat × Nat)) (o n : Nat) : List (Nat × Nat) := l.filter fun x => !overlaps x (o, n)

/-- Bytes written to the device ring of R144: stack 1 holds its first half, stack 11 the second. -/
def cardRingWrite (s : State) (off : Nat) (bs : List Byte) : State :=
  let n := 2 ^ 29 - off
  let s := devWrite s 1 off (bs.take n)
  devWrite s 11 (off - 2 ^ 29) (bs.drop n)

def cardRingRead (s : State) (off n : Nat) : List Byte :=
  (List.range n).map fun i => let o := off + i; (devRead s (if o < 2 ^ 29 then 1 else 11) (o % 2 ^ 29) 1).headD 0

/-- A Card copied to the partition HBM ring at :3B. -/
def cardToHbm (s : State) (c : Fin 16) (p : Fin 8) (bs : List Byte) : State :=
  let r := objBytes s 0 (crewIdx c) 0x3B []
  let base := leAt r 0 8
  let size := leAt r 8 8
  if size < bs.length then s else
  let (o, z) := ringPlace size s.crews[c].subPos bs.length
  let l0 := s.crews[c].subCards
  let l1 := ringLeft (match z with | some x => ringLeft l0 x 8 | none => l0) o bs.length
  let s := match z with | some x => hbmWriteN s p (base + x) (leBytes 8 0) | none => s
  let s := hbmWriteN s p (base + o) bs
  let s := updCrew s c fun k => { k with subPos := o + bs.length, subCards := (o, bs.length) :: l1 }
  ctrAdd s 0 (crewIdx c) 0x46 (l0.length - l1.length)

/-- A Card copied to the host region ring at :3C; a region that cannot be written takes none. -/
def cardToHost (s : State) (c : Fin 16) (p : Fin 8) (bs : List Byte) : State :=
  let r := objBytes s 0 (crewIdx c) 0x3C []
  let reg := leAt r 0 2
  let base := leAt r 2 8
  let size := leAt r 10 8
  let f := funcOf p
  let w := hostRegion s f reg
  let iova := regionIova s f reg
  let ps := regionSpace s f reg
  if size < bs.length || !hostRight s f reg 2 || fld w 180 156 * 4096 < base + size || !hostMapped s f ps (iova + base) size then s else
  let (o, z) := ringPlace size s.crews[c].hostPos bs.length
  let l0 := s.crews[c].hostCards
  let l1 := ringLeft (match z with | some x => ringLeft l0 x 8 | none => l0) o bs.length
  let s := match z with | some x => hostWrite s f ps (iova + base + x) (leBytes 8 0) | none => s
  let s := hostWrite s f ps (iova + base + o) bs
  let s := updCrew s c fun k => { k with hostPos := o + bs.length, hostCards := (o, bs.length) :: l1 }
  ctrAdd s 0 (crewIdx c) 0x46 (l0.length - l1.length)

/-- A Card is written to its rings; its offset in the device ring is the Crew's last Card. -/
def putCard (s : State) (c : Fin 16) (p : Fin 8) (bs : List Byte) : State :=
  let o := (ringPlace (2 ^ 30) s.cards.pos bs.length).1
  let s := cardRingWrite s o bs
  let left := s.cards.whole.filter fun x => !overlaps (x.1, x.2.1) (o, bs.length)
  let s := { s with cards := ⟨o + bs.length, (o, bs.length, p) :: left⟩ }
  let s := genBump (updCrew s c fun k => { k with lastCard := o }) 0 (crewIdx c) 0x40
  cardToHost (cardToHbm s c p bs) c p bs

end Sys2Proof.Machine
end

