-- ==== Sys2Proof/Machine/Sets.lean ====
section
/-! DEFINITION. Change sets as records: how a set ends, its status record and its event (R403 to R407). -/

namespace Sys2Proof.Machine

open Sys2Proof

/-- Holder kind and holder of R407. -/
def holderCode (h : Holder) : Nat × Nat := match h with | .sess _ a => (1, a.val) | .fn f => (2, f.val)

/-- The 32 bytes of a status record (R407). -/
def setRecBytes (r : SetRec) : List Byte :=
  let (k, n) := holderCode r.holder
  leBytes 4 r.id.toNat ++ leBytes 1 r.outcome ++ leBytes 1 k ++ leBytes 1 n ++ leBytes 1 r.kind ++ leBytes 8 r.point.toNat ++
    leBytes 8 r.time.toNat ++ leBytes 8 r.effect.toNat

/-- The CHANGESET event of a set that has reached an outcome, to its holder, MANAGE and OBSERVE (R386). -/
def setEvent (s : State) (r : SetRec) : State :=
  let sees (k : Session) : Bool :=
    (k.state == .opened || k.state == .suspect) && (k.role == 0 || k.role == 2 ||
      (match r.holder with | .sess i _ => decide (k = s.evolu.sessions[i]) | .fn f => k.role == 1 && f.val == k.part + 1))
  raiseTo s sees 3 r.outcome r.id.toNat (setRecBytes r)

/-- A record enters the history, newest first, 64 at most. -/
def pushRec (s : State) (r : SetRec) : State :=
  genBump { s with dict := { s.dict with history := (r :: s.dict.history).take 64 } } 0 0xA100 2

/-- The open set ends uncommitted (R405): 2 DISCARDED, 3 EXPIRED, 6 LOST_RESET. -/
def endOpen (s : State) (outcome : Nat) : State :=
  match s.dict.openSet with
  | none => s
  | some o =>
    let r : SetRec := ⟨o.id, outcome, o.holder, 0, 0, s.now, 0⟩
    let s := pushRec { s with dict := { s.dict with openSet := none, expired := if outcome = 3 then some o.holder else none } } r
    setEvent (ctrAdd (genBump s 0 0xA000 6) 0 0xA100 6 1) r

/-- The open set ends where its holder is `h`. -/
def endOpenOf (s : State) (h : Holder → Bool) (outcome : Nat) : State :=
  match s.dict.openSet with
  | some o => if h o.holder then endOpen s outcome else s
  | none => s

/-- A pending set reaches its outcome (R403, R404, R406): 1 APPLIED, 4 CANCELLED, 5 FAILED_AT_APPLY, 7 APPLIED_LATE,
8 APPLIED_NOT_STORED. -/
def endPending (s : State) (id : BitVec 32) (outcome : Nat) : State :=
  let took := outcome = 1 || outcome = 7 || outcome = 8
  let upd (r : SetRec) : SetRec := if r.id = id && r.outcome = 0 then { r with outcome := outcome, effect := if took then s.now else 0 } else r
  let r := (s.dict.history.find? fun r => r.id = id && r.outcome = 0).map upd
  let s := { s with dict := { s.dict with pendings := s.dict.pendings.filter fun x => x.id ≠ id, history := s.dict.history.map upd } }
  let s := genBump (genBump s 0 0xA100 1) 0 0xA100 2
  let s := ctrAdd s 0 0xA100 (if took then 5 else 6) 1
  match r with
  | some r => setEvent s r
  | none => s

/-- Fields of an apply point (R399). -/
def apKind (a : BitVec 128) : Nat := fld a 1 0
def apCrew (a : BitVec 128) : Fin 16 := fin16 (fld a 11 8)
def apValue (a : BitVec 128) : Nat := fld a 127 64

/-- Sets that wait for a Stroke of a dissolved Crew are CANCELLED (R406). -/
def cancelCrew (s : State) (c : Fin 16) : State :=
  (s.dict.pendings.filter fun x => apKind x.point = 2 && apCrew x.point = c).foldl (fun s x => endPending s x.id 4) s

end Sys2Proof.Machine
end

