-- ==== Sys2Proof/Machine/Finish.lean ====
section
/-! DEFINITION. The vote, the decision and what a member does on it (14); the end of a Stroke and of a Crew. -/

namespace Sys2Proof.Machine

open Sys2Proof

/-! ## The member's vote (R328, R329) -/

/-- The failure a vote carries: PROGRAM, UNCORRECTABLE, CHUNK_CORRUPT, COMMAND_FAILED, in this order. -/
def failPick (a : Attempt) : Option (Cls × Reason × Nat × Nat) :=
  [2, 0x0B, 6, 1].findSome? fun k => a.fails.find? fun f => f.2.2.1 = k

/-- Late entries of the Card a replay names (R342). -/
def replayEntries (s : State) (c : Fin 16) : Option (List (BitVec 128)) :=
  match s.crews[c].launch, crewOwner s c with
  | some l, some p =>
    if !l.body.getLsbD 216 then none else
    let ref := fld l.body 383 320
    let hd := hbmReadN s p ref 4096
    let at_ := ref + 4096 + 64 * leAt hd 0x38 4
    some ((List.range (leAt hd 0x34 4)).map fun i => BitVec.ofNat 128 (ofLe (hbmReadN s p (at_ + 16 * i) 16)))
  | _, _ => none

/-- A deferred slot the replayed Card added is absent (R342). -/
def deferralMissing (s : State) (c : Fin 16) (a : Attempt) : Bool :=
  ((replayEntries s c).getD []).any fun e => leKind e = 3 && !a.late.any fun x => x.toNat / 2 ^ 72 = e.toNat / 2 ^ 72

/-- The member's own vote (R329). -/
def ownVote (s : State) (c : Fin 16) (a : Attempt) : VoteBody :=
  let me := myRank s c
  let f := failPick a
  let verdict := match f with | some x => x.2.2.1 | none => if deferralMissing s c a then 9 else 0
  { sender := me, level := 0, verdict := BitVec.ofNat 8 verdict, flags := a.flags, faultRank := me,
    faultPort := BitVec.ofNat 8 (if verdict = 6 then a.faultPort else 0xFF), faultLevel := 0,
    reason := BitVec.ofNat 16 (match f with | some x => reasonCode x.2.1 | none => 0),
    prog := match s.crews[c].launch with | some l => BitVec.ofNat 64 (fld l.body 159 96) | none => 0,
    rule := ruleHash a, upd := updSum a, user := a.user,
    entries := if leader0 s c = me then s.crews[c].cut.entries.getD [] else [] }

/-- The combined vote of a level-l group, in position order (R330). -/
def combineVotes (s : State) (c : Fin 16) (l : Nat) (v0 : VoteBody) (vs : List VoteBody) : VoteBody :=
  let all := v0 :: vs
  let me := myRank s c
  let g := crewG s c
  let replica := (objNat s 0 (crewIdx c) 0x30 0).testBit l
  let at_ (b : VoteBody → Bool) : Option Nat := (all.zipIdx.find? fun x => b x.1).map fun x => atPos g me l x.2
  let base : VoteBody :=
    { v0 with
      sender := me, level := l, flags := orFlags (all.map (·.flags)), entries := all.flatMap (·.entries)
      upd := if replica then v0.upd else oddSum (all.map (·.upd))
      user := if replica then v0.user else oddSum (all.map (·.user)) }
  let blame (b : VoteBody) (cause r : Nat) : VoteBody :=
    { b with verdict := BitVec.ofNat 8 cause, faultRank := r, faultPort := 0xFF, faultLevel := BitVec.ofNat 8 l, reason := 0 }
  match all.find? fun v => v.verdict ≠ 0 with
  | some v => { base with verdict := v.verdict, faultRank := v.faultRank, faultPort := v.faultPort, faultLevel := v.faultLevel, reason := v.reason }
  | none =>
    match at_ fun v => v.prog ≠ v0.prog with
    | some r => blame base 4 r
    | none =>
      match (if replica then at_ fun v => v.flags ≠ v0.flags || v.rule ≠ v0.rule || v.upd ≠ v0.upd || v.user ≠ v0.user else none) with
      | some r => blame base 3 r
      | none => base

/-- Votes of the current attempt held at a level. -/
def heldVote (s : State) (c : Fin 16) (l r : Nat) : Option VoteBody :=
  (s.crews[c].votes.find? fun x => x.1 = strokeNum s c && x.2.1 = attNum s c && x.2.2.level = l && x.2.2.sender = r).map (·.2.2)

/-- The own vote combined up the levels from the lowest: the vote reached, the level at which it goes to the group's combiner,
and whether it is complete (R330). -/
def climbVotes (s : State) (c : Fin 16) : List Nat → VoteBody → VoteBody × Option Nat × Bool
  | [], v => (v, none, true)
  | l :: ls, v =>
    let g := crewG s c
    let me := myRank s c
    if digit g me l ≠ 0 then (v, some l, true) else
    let vs := ((List.range (g.getD l 1)).drop 1).map fun j => heldVote s c l (atPos g me l j)
    if vs.all Option.isSome then climbVotes s c ls (combineVotes s c l v (vs.filterMap id)) else (v, none, false)

def topVote (s : State) (c : Fin 16) (a : Attempt) : VoteBody × Option Nat × Bool :=
  climbVotes s c (levelsIn (crewG s c)) (ownVote s c a)

def voteBytes (v : VoteBody) : List Byte :=
  leBytes 4 v.sender ++ leBytes 1 v.level ++ [v.verdict, v.flags, 0] ++ leBytes 4 v.faultRank ++ [v.faultPort, v.faultLevel] ++
    wordBytes v.reason ++ wordBytes v.prog ++ wordBytes v.rule ++ wordBytes v.upd ++ wordBytes v.user ++ leBytes 4 v.entries.length ++
    leBytes 4 0 ++ v.entries.flatMap wordBytes

/-! ## Decisions (R331 to R335, R494) -/

def decBytes (d : Decision) : List Byte :=
  leBytes 1 d.decision ++ leBytes 1 d.cause ++ leBytes 2 0 ++ leBytes 4 d.included ++ wordBytes d.incl ++ wordBytes d.upd ++
    leBytes 4 d.faultRank ++ leBytes 4 d.entries.length ++ d.entries.flatMap wordBytes

def sendDec (s : State) (c : Fin 16) (kind : Nat) (d : Decision) (r : Nat) : State :=
  sendFin s c r kind d.stroke.toNat d.attempt s.crews[c].term.toNat (decBytes d)

/-- The decision of an attempt under the current term with the entries of its cut. -/
def mkDecision (s : State) (c : Fin 16) (stroke : BitVec 48) (att dec cause : Nat) (upd : BitVec 64) (fault : Nat)
    (es : List (BitVec 128)) : Decision :=
  let es := sortBy (fun x y => x.toNat / 2 ^ 72 ≤ y.toNat / 2 ^ 72) es
  { stroke := stroke, attempt := att, decision := dec, cause := cause, term := s.crews[c].term, incl := inclusionHash (crewP s c) es,
    included := includedCount (crewP s c) es, upd := upd, faultRank := fault, entries := es, time := s.now }

/-- An entry of the decision log: of one attempt the higher term wins (R331, R334). -/
def logPut (l : List LogEntry) (since : U64) (e : LogEntry) : List LogEntry :=
  let same (x : LogEntry) : Bool := x.stroke = e.stroke && x.attempt = e.attempt && since.toNat ≤ x.time.toNat
  match l.find? same with
  | some x => if x.term.toNat < e.term.toNat then e :: l.filter fun y => !same y else l
  | none => (e :: l).take 64

/-- Start of the attempt's time in the log: entries of an earlier LAUNCH of the Stroke do not count. -/
def logSince (s : State) (c : Fin 16) : U64 := (s.crews[c].attempt.map (·.tStart)).getD 0

/-- Ranks 0 and 1 log a decision. -/
def logDec (s : State) (c : Fin 16) (d : Decision) : State :=
  if 1 < myRank s c then s else
  genBump (updCrew s c fun k =>
    { k with log := logPut k.log (logSince s c) ⟨d.stroke, d.attempt, d.decision, d.cause, d.term, s.now⟩ }) 0 (crewIdx c) 0x3F

/-- The entry of the current attempt in the own log. -/
def logEntryOf (s : State) (c : Fin 16) (stroke : BitVec 48) (att : Nat) : Option LogEntry :=
  s.crews[c].log.find? fun x => x.stroke = stroke && x.attempt = att && (logSince s c).toNat ≤ x.time.toNat

/-- One above the highest term held (R334). -/
def nextTerm (k : Crew) : BitVec 32 :=
  BitVec.ofNat 32 (k.log.foldl (fun m e => max m e.term.toNat) k.term.toNat) + 1

/-- Down the combining tree (R333): to the members whose votes this one combines, highest level first. -/
def sendDown (s : State) (c : Fin 16) (d : Decision) : State :=
  let g := crewG s c
  let me := myRank s c
  let ls := (levelsIn g).takeWhile fun l => digit g me l = 0
  ls.reverse.foldl (fun s l => (peersAt g me l).foldl (fun s r => sendDec s c 0x24 d r) s) s

/-- By RESOLVE, while RECOVERING, to peers whose HELLO of the epoch is held, but those at the level it came from (R334). -/
def spreadDec (s : State) (c : Fin 16) (d : Decision) (from_ : Option Nat) : State :=
  if s.crews[c].state ≠ .recovering then s else
  ((crewPeers s c).filter fun r => s.crews[c].hellos.contains r && (from_.isNone || peerLevel s c r ≠ from_)).foldl (fun s r => sendDec s c 0x26 d r) s

/-- The rejoin of a stale member starts (R344): a copy where there is a replica, else a checkpoint is needed. -/
def startRejoin (s : State) (c : Fin 16) : State :=
  let g := crewG s c
  let mask := objNat s 0 (crewIdx c) 0x30 0
  let rep := match (List.range 4).find? mask.testBit with | some l => decide (1 < g.getD l 1) | none => false
  updCrew s c fun k => { k with rejoin := if rep then 1 else 2, copyNext := 0, hs := false }

/-- A DECISION_CONFLICT (R334), or a Crew's Finish this member did not run (R494). -/
def becomeStale (s : State) (c : Fin 16) (conflict : Bool) : State :=
  if conflict then updCrew s c fun k => { k with rejoin := 3 }
  else if s.crews[c].rejoin ≠ 0 then s else startRejoin s c

/-- A member records a decision; the current attempt's is held from then on (R337). The Bool says it is new. -/
def holdDecision (s : State) (c : Fin 16) (d : Decision) : State × Bool :=
  let k := s.crews[c]
  match k.decisions.find? fun x => x.stroke = d.stroke && x.attempt = d.attempt with
  | some x => (if x.decision = d.decision then s else becomeStale s c true, false)
  | none =>
    let d := { d with time := s.now }
    let s := updCrew s c fun k => { k with decisions := d :: k.decisions, term := if k.term.toNat < d.term.toNat then d.term else k.term }
    let s := logDec s c d
    let cur := k.launch.isSome && strokeNum s c = d.stroke
    if cur && attNum s c = d.attempt && (k.fin = .voting || k.fin = .unresolved) then
      (updCrew s c fun k =>
        { k with decision := some d, fin := .decided, logged := none
                 votes := k.votes.filter fun v => !(v.1 = d.stroke && v.2.1 ≤ d.attempt) }, true)
    else if cur && attNum s c < d.attempt then
      -- a later attempt of the current Stroke (R494)
      (if d.decision = 2 then updCrew s c fun k => { k with nextAttempt := d.attempt + 1 }
       else if d.decision = 1 then becomeStale s c false else s, true)
    -- the Crew has finished a Stroke that this member has not: its committed state is behind (R344)
    else if d.decision = 1 && k.lastFinished.toNat < d.stroke.toNat then (becomeStale s c false, true)
    else (s, true)

/-- A decision is taken and passed on. -/
def takeDecision (s : State) (c : Fin 16) (d : Decision) (from_ : Option Nat) : State :=
  let (s, new) := holdDecision s c d
  if new then spreadDec (sendDown s c d) c d from_ else s

/-- Rank 0 logs a decision and replicates it (R333); with P = 1 it decides locally (R331). -/
def replicate (s : State) (c : Fin 16) (d : Decision) : State :=
  let s := logDec s c d
  if crewP s c = 1 then takeDecision s c d none else
  let s := updCrew s c fun k => { k with logged := some d }
  sendFin s c 1 0x22 d.stroke.toNat d.attempt d.term.toNat (leBytes 1 d.decision ++ leBytes 1 d.cause ++ leBytes 2 0 ++ wordBytes d.incl)

/-- Rank 0 decides on the top combined vote (R332). -/
def decideTop (s : State) (c : Fin 16) (v : VoteBody) : State :=
  let key (es : List (BitVec 128)) : List Nat := sortBy (· ≤ ·) ((es.filter fun e => leKind e = 1 || leKind e = 2).map fun e => e.toNat / 2 ^ 72)
  let forced := (replayEntries s c).map key
  let mism := match forced with | some f => decide (f ≠ key v.entries) | none => false
  let (dec, cause) : Nat × Nat :=
    if v.verdict ≠ 0 then (2, v.verdict.toNat)
    else if mism then (2, 5)
    else if objNat s 0 (crewIdx c) 0x34 4096 < v.entries.length then (2, 8)
    else if s.crews[c].state = .test then (3, 0) else (1, 0)
  let fault := if v.verdict ≠ 0 then v.faultRank else 0xFFFFFFFF
  let s := updCrew s c fun k => { k with topUpd := v.upd, topFault := fault }
  replicate s c (mkDecision s c (strokeNum s c) (attNum s c) dec cause v.upd fault v.entries)

/-- The vote goes up as far as it is complete (R330). -/
def voteUp (s : State) (c : Fin 16) : State :=
  match s.crews[c].attempt with
  | none => s
  | some a =>
    if !a.voted || s.crews[c].fin ≠ .voting then s else
    match topVote s c a with
    | (v, some l, true) => sendFinNow s c (atPos (crewG s c) (myRank s c) l 0) 0x21 (voteBytes { v with level := l })
    | (v, none, true) => if myRank s c = 0 && s.crews[c].logged.isNone then decideTop s c v else s
    | _ => s

/-- The member casts its vote (R328). -/
def castVote (s : State) (c : Fin 16) : State :=
  let s := updCrew s c fun k =>
    { k with
      fin := .voting
      attempt := k.attempt.map fun a : Attempt =>
        { a with voted := true, tVote := s.now
                 user := if a.faulted then 0 else match a.voteCmd with | some (w, _) => BitVec.ofNat 64 (fld w 191 128) | none => 0 } }
  voteUp s c

/-! ## Stroke boundaries (R24, R267, R420) -/

/-- Courses of `here` that wait to leave go out of service, with their Trowels, Pallets and Hods, and their Pallet contents are
lost (R420); with no Course left the module leaves service (R421). -/
def coursesGo (s : State) (here : Fin 8 → Bool) : State :=
  let go := s.pointing.leaving.filter fun x => here x.1
  if go.isEmpty then s else
  let t := go.foldl (fun s x =>
    let (g, s) := freshGen s
    let s := updCourse s x.1 fun k => { k with inService := false }
    pointLog (updPallet s x.1 fun k => { k with mem := ⟨g, []⟩, ue := [], ce := [] }) 11 x.1 x.2) s
  let t := mapWrite { t with pointing := { t.pointing with leaving := t.pointing.leaving.filter fun x => !here x.1 } }
  let t := moduleEvent s t
  if t.courses.toList.all fun k => !k.inService then leaveService t else t

/-- A Course leaves service for want of a part of row `part` of R419; one that no partition owns does so at once. -/
def courseOut (s : State) (n : Fin 8) (part : Nat) : State :=
  let s := courseLeaves s n part
  if (courseOwner s n).isNone then coursesGo s fun x => x == n else s

/-! ## Lane tests of Trowels and the Cox (R415, R420) -/

/-- A self-test failure is logged (R423). -/
def testFailed (s : State) (unit id : Nat) : State := pointLog s 12 unit id

/-- Failing working lanes of a unit are substituted while spares last; beyond them the unit works on fewer lanes, and a Trowel below 1,024
takes its Course out of service (R98, R297, R420). -/
def laneTestDone (s : State) (u : LaneUnit) (failing : Nat) : State :=
  let spares := match u with | .trowel n => s.trowels[n].spares | .cox f => s.pointing.coxSpares[f]
  let k := min failing spares
  let gone := failing - k
  let s := testFailed s (match u with | .trowel n => n.val | .cox _ => 8) 4
  let s := match u with
    | .trowel n => updTrowel s n fun t => { t with spares := t.spares - k, lanes := t.lanes - gone }
    | .cox f =>
      let p := s.pointing
      { s with pointing := { p with coxSpares := p.coxSpares.set f (p.coxSpares[f] - k), coxLanes := p.coxLanes.set f (p.coxLanes[f] - gone) } }
  let s := mapWrite (ctrAdd s 0 0x8000 0x33 k)
  if gone = 0 then s else
  match u with
  | .trowel n => let s := setDegraded s 1; if s.trowels[n].lanes < 1024 then courseOut s n 3 else s
  | .cox _ => setDegraded s 2

/-- A command of the unit is at work: no lane is substituted under it (R98, R297). -/
def laneUnitBusy (s : State) (u : LaneUnit) : Bool :=
  match u with
  | .trowel n => match s.trowels[n].queue with | c :: _ => c.run | [] => false
  | .cox _ => s.cox.toList.any fun x => x.cmds.any fun c => c.started && !c.run

/-- In the gap between two commands of a unit, failing lanes found meanwhile are substituted (R415). -/
def laneGap (s : State) (u : LaneUnit) : State :=
  if laneUnitBusy s u then s else
  let l := s.pointing.laneTests
  if l.all fun x => x.1 ≠ u then s else
  let s := { s with pointing := { s.pointing with laneTests := l.filter fun x => x.1 ≠ u } }
  (l.filter fun x => x.1 = u).foldl (fun s x => laneTestDone s u x.2) s

/-- The Courses of a partition go at its Stroke boundary. -/
def leaveCourses (s : State) (p : Fin 8) : State := coursesGo s fun x => courseOwner s x == some p

/-- The Stroke boundary of a Crew whose LAUNCH has retired (R323): Courses that have lost a part leave, and a stale member and waiting
requests go on (R344, R267). -/
def passBoundary (s : State) (c : Fin 16) : State :=
  let s := match crewOwner s c with | some p => leaveCourses s p | none => s
  applyReq (if s.crews[c].rejoin = 3 then startRejoin s c else s) c

/-- A Stroke of the Crew finishes: its LAUNCH has its result, and the boundary is passed once it retires. -/
def endStroke (s : State) (c : Fin 16) (res : Res) : State :=
  let l := s.crews[c].launch
  let s := updCrew s c fun k =>
    { k with launch := none, attempt := none, fin := .idle, decision := none, logged := none, aborts := [], nextAttempt := 1, waitNext := false,
             ops := k.ops.filter fun o => !o.retired, cut := ⟨[], none, none⟩ }
  match l with | some l => entryDone s l.f l.s l.seq res | none => s

/-- Tiles of the Stroke program still unclaimed when it has ended are released unsent and counted (R287). -/
def releaseTiles (s : State) (c : Fin 16) : State :=
  let own := s.crews[c].launch.map fun l => (l.f, l.s)
  let mine (t : Tile) : Bool := t.sendon.isSome && t.owner == own && own.isSome
  let n := (s.courses.toList.map fun k => (k.tiles.toList.filter mine).length).sum
  if n = 0 then s else
  let clear (t : Tile) : Tile := if mine t then { t with sendon := none } else t
  ctrAdd { s with courses := s.courses.map fun k => { k with tiles := k.tiles.map clear } } 0 (crewIdx c) 0x26 n

/-! ## Acting on a decision (R337) -/

/-- The entry an ABORT leaves in the abort history (R347). -/
def abortEntry (s : State) (c : Fin 16) (a : Attempt) (d : Decision) : BitVec 256 :=
  let me := myRank s c
  let f := failPick a
  let (v, _, _) := topVote s c a
  let known := v.verdict.toNat = d.cause && v.faultRank = d.faultRank
  let reason := if known then v.reason.toNat else if d.faultRank = me then match f with | some x => reasonCode x.2.1 | none => 0 else 0
  let port := if known then v.faultPort.toNat else if d.faultRank = me then a.faultPort else 0xFF
  let detail := if d.faultRank = me then match f with | some x => x.2.2.2 | none => 0
    else if d.faultRank < crewP s c then rankMid s c d.faultRank else 0
  BitVec.ofNat 256 (ofLe (leBytes 1 d.attempt ++ leBytes 1 d.cause ++ leBytes 2 reason ++ leBytes 4 d.faultRank ++ leBytes 1 port ++
    leBytes 1 (if known then v.faultLevel.toNat else 0) ++ leBytes 2 0 ++ wordBytes d.term ++ wordBytes d.time ++ leBytes 8 detail))

/-- The STROKE event of an attempt's end (R386). -/
def strokeEvent (s : State) (c : Fin 16) (p : Fin 8) (stroke att dec cause : Nat) : State :=
  raiseEvent s 6 dec c p (leBytes 8 stroke ++ leBytes 1 att ++ leBytes 1 0 ++ leBytes 1 cause ++ leBytes 1 0 ++ leBytes 8 s.crews[c].lastCard)

/-- A LAUNCH record's details (R216). -/
def launchRes (s : State) (c : Fin 16) (cls : Cls) (r : Reason) (att : Nat) : Res :=
  { Res.okay with cls := cls, reason := r, d0 := BitVec.ofNat 64 s.crews[c].lastCard, d1 := BitVec.ofNat 64 att }

/-- FINISH (R304, R324, R266). -/
def actFinish (s : State) (c : Fin 16) (p : Fin 8) (a : Attempt) (d : Decision) : State :=
  let card := cardBytes s c p a d d.term.toNat
  let s := flipAll s p a
  let s := updCrew s c fun k =>
    { k with deferrals := k.deferrals.filter fun x => x.stroke = d.stroke
             lastFinished := d.stroke
             rejoined := false }
  let s := putCard s c p card
  let s := strokeEvent s c p d.stroke.toNat a.number 1 0
  let s := if 1 < a.number then ctrAdd s 0 (crewIdx c) 0x44 1 else s
  let res := { launchRes s c (if 1 < a.number then .okRetried else .ok) .none a.number with flags := a.flags, widened := a.widened }
  let k := s.crews[c]
  let run := (k.state = .forming || k.state = .recovering) && a.epoch = k.epoch && !(k.state = .recovering && k.req = some .test)
  endStroke (if run then setCrewState s c .running else s) c res

/-- What an attempt that is not committed leaves behind is undone; a single-slot layer that it wrote is DIRTY, after a TRIAL as after
an ABORT (R324, R325, R303, R305). -/
def undoAttempt (s : State) (c : Fin 16) (p : Fin 8) (a : Attempt) (stroke : BitVec 48) : State :=
  let s := undoRestore s c
  let s := markDirty s p a.singles
  updCrew s c fun k => { k with deferrals := k.deferrals.filter fun x => x.stroke ≠ stroke }

/-- The cause's Replay column in R347. -/
def replays (cause : Nat) : Bool := [2, 4, 5, 9, 0xC].all (· ≠ cause)

/-- How the LAUNCH of an aborted attempt retires, or that it replays (R326, R328). A cause that is not replayed is judged before the
limits (log 28). -/
def abortOutcome (s : State) (c : Fin 16) (a : Attempt) (cause : Nat) : Option (Cls × Reason) :=
  let rejectedOne := a.fails.any fun f => f.1 = .rejected
  let last := a.number ≥ objNat s 0 (crewIdx c) 0x33 4 || !a.singles.isEmpty || a.start = .test
  if !replays cause then some (if a.faulted || rejectedOne then (.failed, .programFault) else (.abortedStroke, .failedCommand))
  else if last then some (if a.faulted then (.failed, .programFault) else (.abortedStroke, .replayLimit))
  else none

/-- ABORT and TRIAL (R324, R326). -/
def actAbort (s : State) (c : Fin 16) (p : Fin 8) (a : Attempt) (d : Decision) : State :=
  let abort := d.decision = 2
  let card := cardBytes s c p a d d.term.toNat
  let hist := abortEntry s c a d
  let s := undoAttempt s c p a d.stroke
  let s := strokeEvent (putCard s c p card) c p d.stroke.toNat a.number d.decision d.cause
  if !abort then endStroke s c { launchRes s c .ok .none a.number with flags := a.flags, widened := a.widened } else
  let s := ctrAdd s 0 (crewIdx c) 0x43 1
  let out := abortOutcome s c a d.cause
  let s := updCrew s c fun k =>
    { k with
      attempt := none, fin := .idle, decision := none, logged := none
      aborts := k.aborts ++ [hist]
      nextAttempt := max (a.number + 1) k.nextAttempt
      waitNext := d.cause = 8
      ops := k.ops.filter fun o => !o.retired
      cut := ⟨[], none, none⟩ }
  -- every member enters RECOVERING with a new epoch; in TEST it stays there (R326)
  let s := if s.crews[c].state = .test then orNoRoute (newEpoch s c) c
    else if s.crews[c].state = .recovering then s
    else (newEpoch (setCrewState (failAll s c (crewStateRes s c 7 none none)) c .recovering) c).1
  match out with
  | some (cls, r) => endStroke s c (launchRes s c cls r a.number)
  | none => s

/-- A member acts on the decision it holds once its program has ended and every command has retired (R233, R337). -/
def actOn (s : State) (c : Fin 16) : State :=
  match s.crews[c].attempt, s.crews[c].decision, crewOwner s c with
  | some a, some d, some p => if d.decision = 1 then actFinish s c p a d else actAbort s c p a d
  | _, _, _ => s

/-! ## What follows a retirement -/

/-- The attempt's VOTE retires once the member holds the decision (R328). -/
def voteOutRes (d : Decision) : Res :=
  { Res.okay with d0 := BitVec.ofNat 64 (d.decision % 256 + 256 * (d.cause % 256)), d1 := d.incl }

/-- The attempt's VOTE is issued and has not retired. -/
def voteOwed (a : Attempt) : Bool := a.voteCmd.isSome && !a.voteOut

/-- No command of the attempt but its VOTE is in flight. -/
def attemptQuiet (a : Attempt) : Bool := a.inFlight = (if voteOwed a then 1 else 0)

/-- Operations in flight and waiting go on. -/
def advanceOps (s : State) (c : Fin 16) : State :=
  if s.crews[c].ops.isEmpty && s.crews[c].waiting.isEmpty then s else advanceCrew s c

/-- The vote is cast once every other command has retired (R328). -/
def castIfReady (s : State) (c : Fin 16) (a : Attempt) : State :=
  if s.crews[c].fin = .running && !a.voted && (a.voteCmd.isSome || a.ended) && attemptQuiet a then castVote s c else s

/-- A Crew of one member decides an unresolved attempt itself (R334). -/
def decideAlone (s : State) (c : Fin 16) : State :=
  if s.crews[c].fin = .unresolved && crewP s c = 1 then
    let s := updCrew s c fun k => { k with term := nextTerm k }
    replicate s c (mkDecision s c (strokeNum s c) (attNum s c) 2 0x0A 0 0xFFFFFFFF [])
  else s

/-- The VOTE retires with the decision (R328). -/
def retireVote (s : State) (c : Fin 16) : State :=
  match s.crews[c].attempt, s.crews[c].decision with
  | some a, some d =>
    match a.voteCmd with
    | some (w, iss) =>
      if voteOwed a && attemptQuiet a then
        updAttempt (retireUnit s iss 0x54 (fld w 63 32) (fld w 79 64) (voteOutRes d)) c fun a => { a with voteOut := true }
      else s
    | none => s
  | _, _ => s

/-- The decision is acted on once the program has ended and every command has retired. -/
def actIfDecided (s : State) (c : Fin 16) : State :=
  match s.crews[c].attempt with
  | some a => if s.crews[c].fin = .decided && a.ended && a.inFlight = 0 then actOn s c else s
  | none => s

/-- A Crew's attempt goes on as far as it can: operations advance, the vote is cast, the VOTE retires, the decision is acted on. -/
def settleCrew (s : State) (c : Fin 16) : State :=
  let s := advanceOps s c
  match s.crews[c].attempt with
  | none => s
  | some a =>
    let s := if a.ended then releaseTiles s c else s
    actIfDecided (retireVote (decideAlone (castIfReady s c a) c) c) c

/-- Writes to collective regions and send-on handles that no command names any more take effect (R271, R286). -/
def doCollWrites (s : State) (p : Fin 8) : State :=
  let f := funcOf p
  let s := s.host.funcs[f].collWrites.foldl (fun s (i, d) =>
    if caNamed s p i then s else
    updFunc s f fun k => { k with collRegions := assocSet k.collRegions i d 0, collWrites := k.collWrites.erase (i, d) }) s
  s.host.funcs[f].handleWrites.foldl (fun s (i, d) =>
    if handleNamed s p i then s else
    updFunc s f fun k => { k with handles := assocSet k.handles i d 0, handleWrites := k.handleWrites.erase (i, d) }) s

/-- Every Crew settles, and writes that waited for commands take effect. -/
def castReady (s : State) : State := (List.finRange 8).foldl doCollWrites ((List.finRange 16).foldl settleCrew s)

/-! ## Dissolution (R267, R270, R346) -/

/-- A Crew is dissolved: commands in flight fail, the undo record is restored, and the Crew is UNDEFINED without its membership
group. A dissolution by DISSOLVE writes the Card of a cut-off attempt and retires the LAUNCH; a function reset's does not. -/
def dissolveCrew (s : State) (c : Fin 16) (reset : Bool) : State :=
  if s.crews[c].state = .undefined then updCrew s c fun k => { k with req := none } else
  let s := failAll s c (crewStateRes s c 6 none none)
  let s := match s.crews[c].attempt, crewOwner s c with
    | some a, some p =>
      let st := strokeNum s c
      let d := { mkDecision s c st a.number 2 0x0C 0 0xFFFFFFFF [] with term := 0 }
      let card := cardBytes s c p a d 0
      let s := undoAttempt s c p a st
      if reset then s else ctrAdd (strokeEvent (putCard s c p card) c p st.toNat a.number 2 0x0C) 0 (crewIdx c) 0x43 1
    | _, _ => s
  let k := s.crews[c]
  let n := match k.attempt with | some a => a.number | none => k.nextAttempt - 1
  let res := { launchRes s c .abortedStroke .crewDissolved n with d0 := if n = 0 then 0 else BitVec.ofNat 64 k.lastCard }
  let s := if reset then updCrew s c fun k => { k with launch := none } else s
  let s := endStroke (releaseTiles s c) c res
  let s := cancelCrew (setCrewState s c .undefined) c
  let s := genBump s 0 (crewIdx c) 6
  let s := [2, 3, 4, 5, 6].foldl (fun s i => dropObj s 0 (crewIdx c) i) s
  updCrew s c fun k =>
    { clearEpoch k with rank := none, hash := 0, req := none, heard := [], sent := [], log := [], decisions := [], topUpd := 0, topFault := 0xFFFFFFFF,
                        tookOver := false, rejoin := 0, copyNext := 0, exporting := none }

end Sys2Proof.Machine
end

