-- ==== Sys2Proof/Machine/Course.lean ====
section
/-! DEFINITION. The Course (03, 04): the commands MM and LOADW, the pass and its end, the check and its verdict, lane
substitution, accumulator tiles with their interlock, and the first-offender record. -/

namespace Sys2Proof.Machine

open Sys2Proof

/-! ## Rejection (R63, R64, R6, R87, R89, R91) -/

/-- A combination of R63. -/
def comboOk (c : Cmd) : Bool :=
  let af := mmAf c
  let wf := mmWf c
  let scaled := mmSadesc c ≠ 0 || mmSwdesc c ≠ 0
  let outs := [Fmt.fp32, .bf16, .fp16]
  let ofOk (l : List Fmt) := if mmOdesc c = 0 then mmOfmt c == 0 else match fmtOf (mmOfmt c) with | some o => l.contains o | none => false
  let n16 (f : Fmt) := f == .bf16 || f == .fp16
  let n8 (f : Fmt) := fmtFp8 f || f == .e3m2 || f == .e2m3
  let noScale := !scaled
  let scaleOk := noScale || mmOdesc c ≠ 0
  if n16 af && n16 wf then ofOk outs && noScale
  else if (n8 af && n8 wf) || (af == .e2m1 && wf == .e2m1) then ofOk outs && scaleOk
  else if af == .int8 && wf == .int8 then
    !mmAcc16 c && scaleOk && ofOk (if scaled then [.fp32] else [.int32])
  else false

/-- A strict MM outside the strict row of R63 (R44). -/
def strictBad (c : Cmd) : Bool :=
  let ok (f : Fmt) := fmtWide f
  !(ok (mmAf c) && ok (mmWf c) && !mmAcc16 c &&
    (if mmOdesc c = 0 then mmOfmt c == 0 else match fmtOf (mmOfmt c) with | some o => ok o | none => false))

/-- Columns of the command: lanes whose column lies within the weights' N extent (R58). -/
def mmLanes (s : State) (n : Fin 8) (u : UnitCmd) : Nat := min 512 (srcRows s n (cmdDesc u (mmWdesc u.word)) - mmN0 u.word)

/-- The K extent of an MM: K indices beyond that of either operand read as +0 (R58). -/
def mmKx (u : UnitCmd) : Nat := min (srcCols (cmdDesc u (mmAdesc u.word))) (srcCols (cmdDesc u (mmWdesc u.word)))

/-- Descriptor slots an MM names. -/
def mmSlots (c : Cmd) : List Nat := [mmAdesc c, mmWdesc c] ++ ([mmSadesc c, mmSwdesc c, mmOdesc c].filter (· ≠ 0))

/-- A Stroke program names one of the four tile handles of its partition's Cox on the Cox Course (R314). -/
def coxTile (s : State) (n : Fin 8) (iss : Issuer) (h : Nat) : Bool :=
  match iss, issuerPart s iss with
  | .core _ _ _ _ _, some p =>
    let b := objNat s 0 0x7300 (0x71 + p) 60
    objNat s 0 0x7300 (0x31 + p) 0xFF = n.val && b ≤ h && h < b + 4
  | _, _ => false

/-- A descriptor views a tile that has never been initialised (log 12). -/
def viewFresh (s : State) (n : Fin 8) (d : Cmd) : Bool := dKind d = 2 && !(viewTile s n d).init

/-- A scale vector is an FP32 tensor of one column, where rows index it, or of one row (R124). -/
def vectorBad (row : Bool) (d : Cmd) : Bool := dKind d = 2 || (if row then dCols d else dRows d) ≠ 1

/-- Why an MM is rejected; none where it runs. The order of the checks is log 12's. -/
def mmReject (s : State) (n : Fin 8) (u : UnitCmd) : Option Reason :=
  let c := u.word
  let ds := (mmSlots c).map (cmdDesc u)
  let a := cmdDesc u (mmAdesc c)
  let w := cmdDesc u (mmWdesc c)
  let o := cmdDesc u (mmOdesc c)
  let sa := cmdDesc u (mmSadesc c)
  let sw := cmdDesc u (mmSwdesc c)
  let t := s.courses[n].tiles[fin64 (mmTile c)]
  let kp := kPerPass (mmWf c) (mmStrict c)
  let writes := mmFinal c && mmOdesc c ≠ 0
  firstReason [
    (rsvSet c mmRsv || ds.any descRsv || u.tiles.any fun e => tileRsv e.2, .reservedSet),
    ((cmdTiles u).any (coxTile s n u.iss) || mmPasses c = 0 || (mmSendon c ≠ 0 && !mmFinal c) || mmEvent c > 4095 ||
      ds.any (fun d => !dDefined d) || u.tiles.any fun e => !tBound e.2, .badField),
    ((fmtOf (mmAfmt c)).isNone || (fmtOf (mmWfmt c)).isNone || (fmtOf (mmOfmt c)).isNone || ds.any descFmtBad, .badFormat),
    (mmStrict c && strictBad c, .strictFormat),
    (mmStrict c && (mmSadesc c ≠ 0 || mmSwdesc c ≠ 0), .badFormat),
    (!mmStrict c && !comboOk c, .badFormat),
    (mmM c = 0 || mmM c > 16384, .badRows),
    (mmPasses c > 4096 || mmPasses c + (if mmInit c then 0 else t.passes) > 4096, .longSum),
    (ds.any descBad || (u.tiles.any fun e => tileBad e.2) || (mmSadesc c ≠ 0 && vectorBad true sa) || (mmSwdesc c ≠ 0 && vectorBad false sw), .badDesc),
    (ds.any (fun d => dLoc d ≠ 0) || (writes && dKind o = 2), .badField),
    (srcFmt s n a != mmAf c || srcFmt s n w != mmWf c || (mmOdesc c ≠ 0 && some (dFmt o) != fmtOf (mmOfmt c)), .badFormat),
    ((mmSadesc c ≠ 0 && dFmtCode sa ≠ 0) || (mmSwdesc c ≠ 0 && dFmtCode sw ≠ 0), .badFormat),
    ((!viewFresh s n a && mmArow0 c + mmM c > srcRows s n a) || mmK0 c + (mmPasses c - 1) * kp ≥ mmKx u ||
      mmM c > tCap (assocGet u.tiles (mmTile c) 0) ||
      (writes && (mmOrow0 c + mmM c > dRows o || mmOcol0 c + mmLanes s n u > dCols o)) ||
      (mmSadesc c ≠ 0 && mmArow0 c + mmM c > dRows sa) ||
      (mmSwdesc c ≠ 0 && mmN0 c + mmLanes s n u > dCols sw), .outOfBounds),
    ((cmdTiles u).any fun h => tileShared s n h u.iss, .tileShared),
    (viewFresh s n a || viewFresh s n w ||
      (!mmInit c && (!t.init || t.broken || t.acc16 != mmAcc16 c || t.cls != mmClass c || t.rows ≠ mmM c)), .tileState)]

/-- Why a LOADW is rejected (R65). -/
def loadwReject (s : State) (n : Fin 8) (u : UnitCmd) : Option Reason :=
  let c := u.word
  let w := cmdDesc u (lwWdesc c)
  let f := fmtOf (lwWfmt c)
  firstReason [
    (rsvSet c loadwRsv || descRsv w || u.tiles.any fun e => tileRsv e.2, .reservedSet),
    (!dDefined w || lwEvent c > 4095 || u.tiles.any fun e => !tBound e.2, .badField),
    (f.isNone || f == some .int32 || (!lwStrict c && f == some .fp32) || descFmtBad w, .badFormat),
    (lwStrict c && !(f.map fmtWide).getD false, .strictFormat),
    (descBad w || u.tiles.any fun e => tileBad e.2, .badDesc),
    (dLoc w ≠ 0, .badField),
    (some (srcFmt s n w) != f, .badFormat),
    (lwK0 c ≥ srcCols w || (!viewFresh s n w && lwN0 c ≥ srcRows s n w), .outOfBounds),
    ((cmdTiles u).any fun h => tileShared s n h u.iss, .tileShared),
    (viewFresh s n w, .tileState)]

/-- What a Pallet unit counts of a rejection (R91, R129). -/
def rejectCount (s : State) (n : Fin 8) (r : Reason) : State :=
  if r = .tileShared then ctrAdd s 0 (0x6100 + n) 0x35 1 else if r = .outOfBounds then ctrAdd s 0 0x6300 (0x40 + n) 1 else s

/-! ## Weight tiles (R52, R55, R56) -/

/-- Weight columns and K indices of a tile that lie within the descriptor. -/
def tileCodes (s : State) (n : Fin 8) (w : Cmd) (kp k0 n0 : Nat) : List (List Nat) :=
  (List.range (min 512 (srcRows s n w - n0))).map fun j =>
    (List.range (min kp (srcCols w - k0))).map fun k => srcCode s n w (n0 + j) (k0 + k)

/-- Block scales of a tile, one per 32 K indices (R52). -/
def tileScales (s : State) (n : Fin 8) (w : Cmd) (kp k0 n0 : Nat) : List (List Nat) :=
  if !fmtBlock (srcFmt s n w) then [] else
  (List.range (min 512 (dRows w - n0))).map fun j =>
    (List.range ((min kp (dCols w - k0) + 31) / 32)).map fun b => elemScale (palletByte s n) w (n0 + j) (k0 + 32 * b)

/-- A weight tile as the loader fills it. -/
def loadTile (s : State) (n : Fin 8) (w : Cmd) (fmt slot k0 n0 : Nat) (strict : Bool) : WTile :=
  let kp := kPerPass (srcFmt s n w) strict
  let (lo, hi) := srcRange s n w n0 512 k0 kp
  ⟨fmt, slot, k0, n0, strict, tileCodes s n w kp k0 n0, tileScales s n w kp k0 n0, lo, hi, w, true⟩

/-- The Pallet offsets of a tile's elements. -/
def tileAddrs (s : State) (n : Fin 8) (w : Cmd) (kp k0 n0 : Nat) : List Nat :=
  (List.range (min 512 (srcRows s n w - n0))).flatMap fun j =>
    (List.range (min kp (srcCols w - k0))).flatMap fun k => srcAddrs s n w (n0 + j) (k0 + k)

/-- A tile in the active buffers. A strict tile is one element across both buffers of every cell (R52): no other stands beside it. -/
def putActive (t : WTile) (c : Course) : Course :=
  { c with active := some t, loading := if t.strict then none else c.loading.filter fun x => !x.strict }

/-- A tile in the loading buffers, a strict one across both (R52). -/
def putLoading (t : WTile) (c : Course) : Course :=
  { c with loading := some t, active := if t.strict then none else c.active.filter fun x => !x.strict }

/-- A tile loaded through a view of accumulator tile h no longer matches: what the view shows has changed (R56, R125). -/
def voidView (h : Nat) (t : Option WTile) : Option WTile :=
  t.map fun t => if dKind t.desc = 2 && dTile t.desc = h then { t with live := false } else t

/-- What tile h of Course n shows has changed. -/
def tileChanged (s : State) (n : Fin 8) (h : Nat) : State :=
  updCourse s n fun c => { c with active := voidView h c.active, loading := voidView h c.loading }

/-- First K index of pass i of an MM. -/
def passK (c : Cmd) (i : Nat) : Nat := mmK0 c + (i - 1) * kPerPass (mmWf c) (mmStrict c)

/-- A loaded tile matches pass i of an MM (R56): neither its source region nor its descriptor slot has been written since, the slot
holds what the command's own copy of it says, and the four criteria of the rule agree. A strict tile spans both buffers and a
non-strict one of the same format does not (R52): the model asks that the two agree there too (DESIGN CHOICE, log 38). -/
def tileMatch (u : UnitCmd) (i : Nat) (t : Option WTile) : Bool :=
  let c := u.word
  match t with
  | some t =>
    t.live && t.desc = cmdDesc u (mmWdesc c) && t.fmt = mmWfmt c && t.slot = mmWdesc c && t.k0 = passK c i && t.n0 = mmN0 c &&
      t.strict = mmStrict c
  | none => false

/-- The value of lane j's weight at K offset k of the active tile. -/
def weightVal (t : WTile) (flush : Bool) (j k : Nat) : Val :=
  let f := (fmtOf t.fmt).getD .fp32
  let v := readCode f flush ((t.codes.getD j []).getD k 0)
  if fmtBlock f then scaleE8 ((t.scales.getD j []).getD (k / 32) 0x7F) v else v

/-! ## Inside a pass (R75 to R78) -/

/-- An event of an output element: cell and kind (R94, R95). -/
abbrev CellEvent := Nat × Nat

/-- The smallest of two events by (cell, kind). -/
def minEvent (a b : Option CellEvent) : Option CellEvent :=
  match a, b with
  | none, x => x
  | x, none => x
  | some x, some y => if x.1 < y.1 || (x.1 = y.1 && x.2 ≤ y.2) then some x else some y

/-- The first cell of a list of (cell, a, b) with a property. -/
def firstCell (l : List (Nat × Val × Val)) (g : Val → Val → Bool) : Option Nat := (l.find? fun x => g x.2.1 x.2.2).map (·.1)

/-- 0 × ∞. -/
def zeroInf (a b : Val) : Bool := (isZero a && isInf b) || (isInf a && isZero b)
/-- An infinite product and its sign. -/
def infProd (a b : Val) : Bool := (isInf a && !isNaN b && !isZero b) || (isInf b && !isNaN a && !isZero a)
def prodNeg (a b : Val) : Bool := signOf a != signOf b

/-- An exact pass over (cell, a, b) in K order (R75, R76): value, flags, event. -/
def exactPass (l : List (Nat × Val × Val)) : Val × FlagByte × Option CellEvent :=
  let z := firstCell l zeroInf
  let i := l.find? fun x => infProd x.2.1 x.2.2
  let o := match i with
    | some x => firstCell l fun a b => infProd a b && prodNeg a b != prodNeg x.2.1 x.2.2
    | none => none
  let ev := minEvent (z.map fun c => (c, 0)) (o.map fun c => (c, 1))
  let nan := l.any fun x => isNaN x.2.1 || isNaN x.2.2
  let v :=
    if nan || z.isSome || o.isSome then vNaN else
    match i with
    | some x => .inf (prodNeg x.2.1 x.2.2)
    | none => l.foldl (fun acc x => (addV acc (mulV x.2.1 x.2.2).1).1) vZero
  (v, if z.isSome || o.isSome then fNV else 0, ev)

/-- One cell of a chained pass (R77, R78). -/
def chainCell (strict : Bool) (acc : BitVec 32 × FlagByte × Option CellEvent) (x : Nat × Val × Val) :
    BitVec 32 × FlagByte × Option CellEvent :=
  let (sum, fl, ev) := acc
  let (c, a, b) := x
  let (pv, pf) := mulV a b
  let (p, pf') := to32 strict pv
  let p := if isNaN pv then pv else of32 strict p
  let sv := of32 strict sum
  let (tv, tf) := addV sv p
  let (t, tf') := to32 strict tv
  let e0 := if zeroInf a b then some (c, 0) else none
  let e1 := if isInf sv && isInf p && signOf sv != signOf p then some (c, 1) else none
  let e3 := if isSNaN a || isSNaN b then some (c, 3) else none
  (t, fl ||| pf ||| pf' ||| tf ||| tf', minEvent ev (minEvent e0 (minEvent e1 e3)))

/-- A chained pass: the binary32 sum leaving cell 511, its flags and its event. -/
def chainPass (strict : Bool) (l : List (Nat × Val × Val)) : BitVec 32 × FlagByte × Option CellEvent :=
  l.foldl (chainCell strict) (0, 0, none)

/-- Activation values of row m over the pass, +0 beyond either K extent (R58). -/
def actVals (s : State) (n : Fin 8) (u : UnitCmd) (p m : Nat) : List Val :=
  let c := u.word
  let a := cmdDesc u (mmAdesc c)
  (List.range (kPerPass (mmWf c) (mmStrict c))).map fun k =>
    let kk := passK c p + k
    if kk < mmKx u then srcVal s n (!mmStrict c) a (mmArow0 c + m) kk else vZero

/-- Weight values of lane j over the pass, +0 beyond either K extent. -/
def wVals (t : WTile) (u : UnitCmd) (p j : Nat) : List Val :=
  let c := u.word
  (List.range (kPerPass (mmWf c) (mmStrict c))).map fun k =>
    if passK c p + k < mmKx u then weightVal t (!mmStrict c) j k else vZero

/-- Elements per cell (R52). -/
def perCell (c : Cmd) : Nat := kPerPass (mmWf c) (mmStrict c) / 512

/-- Pairs of a row and a lane with their cells. -/
def pairs (c : Cmd) (a w : List Val) : List (Nat × Val × Val) := (a.zip w).zipIdx.map fun (x, k) => (k / perCell c, x.1, x.2)

/-! ## Pass end (R79, R80) -/

/-- The accumulation format of the pass with `passes` cleared passes before it (R79, R85). -/
def accFmt (c : Cmd) (passes : Nat) : Fmt :=
  if mmClass c = .integer then .int32 else if mmAcc16 c && passes < 8 then .fp16 else .fp32

/-- The stored partial as a value; a pass that starts from zero reads +0, and so does a lane that took no part in the last cleared
pass (R58). -/
def prevVal (s : State) (n : Fin 8) (u : UnitCmd) (t : Tile) (p m j : Nat) : Val :=
  let c := u.word
  if (p = 1 && mmInit c) || t.lanes ≤ j then vZero else
  let h16 := tile16 t
  let f : Fmt := if mmClass c = .integer then .int32 else if h16 then .fp16 else .fp32
  readCode f (!mmStrict c) (ofLe (palletReadN s n (partOff t.entry t.current h16 m j) (partBytes h16)))

/-- One output element of a pass: the code of q, the flags and the event. -/
def elemEnd (s : State) (n : Fin 8) (u : UnitCmd) (t : Tile) (p m j : Nat) (a w : List Val) : Nat × FlagByte × Option CellEvent :=
  let c := u.word
  let prev := prevVal s n u t p m j
  let passes := (if mmInit c then p - 1 else t.passes)
  let passes := if p = 1 || mmInit c then passes else t.passes
  match mmClass c with
  | .integer =>
    let (x, _, _) := exactPass (pairs c a w)
    let (q, fl, sat) := intAcc (valInt prev) (valInt x)
    (q, fl, if sat then some (0x3FF, 5) else none)
  | .exact =>
    let (x, fl, ev) := exactPass (pairs c a w)
    let (v, vf) := addV prev x
    let (q, qf) := convert (accFmt c passes) .rne false false v
    (q, fl ||| vf ||| qf, minEvent ev (if vf ≠ 0 then some (0x3FF, 2) else none))
  | _ =>
    let (x, fl, ev) := chainPass (mmStrict c) (pairs c a w)
    let (v, vf) := addV prev (of32 (mmStrict c) x)
    let (q, qf) := convert (accFmt c passes) .rne (mmStrict c) false v
    (q, fl ||| vf ||| qf, minEvent ev (if vf ≠ 0 then some (0x3FF, 2) else none))

/-! ## Check strips (R66) -/

/-- A strip entry of 8 bytes: binary64, rounded up in magnitude where `up` (log 13). -/
def enc64 (up : Bool) (v : Val) : Nat :=
  match v with
  | .nan _ _ _ => 0x7FF8000000000000
  | .inf n => (if n then 2 ^ 63 else 0) + 0x7FF0000000000000
  | .fin n m e =>
    let sg := if n then 2 ^ 63 else 0
    if m = 0 then sg else
    let ex := e + topBit m
    let q := max (ex - 52) (-1074)
    let (k, ix) := roundAt (if up then .rtz else .rne) m e false q
    let k := if up && ix then k + 1 else k
    let ex := q + topBit k
    if ex > 1023 then sg + 0x7FF0000000000000
    else if ex < -1022 then sg + k
    else sg + ((ex + 1023).toNat <<< 52) + (if topBit k ≤ 52 then k <<< (52 - topBit k) else k >>> (topBit k - 52)) % 2 ^ 52

/-- The value of a strip entry. -/
def dec64 (c : Nat) : Val :=
  let n := c.testBit 63
  let e := nfld c 62 52
  let m := c % 2 ^ 52
  if e = 2047 then (if m = 0 then .inf n else .nan false n 0)
  else if e = 0 then .fin n m (-1074) else .fin n (2 ^ 52 + m) ((e : Int) - 1075)

/-- Exact sum of values. -/
def sumV (l : List Val) : Val := l.foldl (fun a v => (addV a v).1) vZero

/-- Transposed: position k of every list. -/
def colVals (l : List (List Val)) (k : Nat) : List Val := l.map fun r => r.getD k vZero

/-- A value rounded upward in magnitude to binary32; above its largest number, infinity. -/
def up32 (v : Val) : Val :=
  match v with
  | .fin n m e =>
    if m = 0 then v else
    let q := max (e + topBit m - 23) (-149)
    let (k, ix) := roundAt .rtz m e false q
    let k := if ix then k + 1 else k
    if q + topBit k > 127 then .inf n else .fin n k q
  | v => v

/-- SUM and MAG weights of each K index (R55); a strict command's check honours subnormals, as its cells do (R44, R67). -/
def sumWeights (integer strict : Bool) (ws : List (List Val)) (kp : Nat) : List Val :=
  (List.range kp).map fun k => let t := sumV (colVals ws k); if integer then t else of32 strict (to32 strict t).1
def magWeights (ws : List (List Val)) (kp : Nat) : List Val :=
  (List.range kp).map fun k => up32 (sumV ((colVals ws k).map absV))

/-- The checksum row of a group (R66). -/
def groupRow (integer strict : Bool) (as : List (List Val)) (kp : Nat) : List Val := sumWeights integer strict as kp

/-- A check datapath's result over K: binary32 chain, or exact for INT8 (R66). -/
def checkChain (integer strict : Bool) (a w : List Val) : Val :=
  if integer then sumV ((a.zip w).map fun x => (mulV x.1 x.2).1)
  else of32 strict (chainPass strict ((a.zip w).map fun x => (0, x.1, x.2))).1

/-- A strip entry as a value: INT64 for INT8, binary64 otherwise. -/
def stripVal (integer : Bool) (c : Nat) : Val := if integer then vInt (sext 64 c) else dec64 c
def stripCode (integer up : Bool) (v : Val) : Nat := if integer then toField 64 (valInt v) else enc64 up v

/-- A strip entry read; zero where the pass starts a sum. -/
def stripRead (s : State) (n : Fin 8) (zero : Bool) (a : Nat) (integer : Bool) : Val :=
  if zero then vZero else stripVal integer (ofLe (palletReadN s n a 8))

/-! ## The pass ends -/

/-- Everything a pass computes: the q codes by row and lane, with flags and events. -/
def passResults (s : State) (n : Fin 8) (u : UnitCmd) (t : Tile) (w : WTile) (p : Nat) : List (Nat × Nat × Nat × FlagByte × Option CellEvent) :=
  let ws := (List.range (mmLanes s n u)).map fun j => wVals w u p j
  (List.range (mmM u.word)).flatMap fun m =>
    let a := actVals s n u p m
    ws.zipIdx.map fun (wv, j) => (m, j, elemEnd s n u t p m j a wv)

/-- The strip entries a pass writes into the other half's strip: offset and value code (R66). For INT8, where MAG is not used, the
model writes the exact sum of magnitudes as A[m] (DESIGN CHOICE, log 38). A lane that took no part in the last cleared pass counts
as +0 (R58). -/
def stripWrites (s : State) (n : Fin 8) (u : UnitCmd) (t : Tile) (w : WTile) (p : Nat) : List (Nat × Nat) :=
  let c := u.word
  let int := mmClass c = .integer
  let kp := kPerPass (mmWf c) (mmStrict c)
  let cap := tCap t.entry
  let zero := p = 1 && mmInit c
  let ws := (List.range (mmLanes s n u)).map fun j => wVals w u p j
  let as := (List.range (mmM c)).map fun m => actVals s n u p m
  let st := mmStrict c
  let sw := sumWeights int st ws kp
  let mw := magWeights ws kp
  let old := tStrip t.entry t.current
  let new := tStrip t.entry (!t.current)
  (as.zipIdx.flatMap fun (a, m) =>
    let cv := (addV (stripRead s n zero (old + 8 * m) int) (checkChain int st a sw)).1
    let av := (addV (stripRead s n zero (old + 8 * cap + 8 * m) int) (sumV ((a.zip mw).map fun x => absV (mulV x.1 x.2).1))).1
    [(new + 8 * m, stripCode int false cv), (new + 8 * cap + 8 * m, stripCode int true av)]) ++
  ((List.range ((mmM c + 511) / 512)).flatMap fun g =>
    let gr := groupRow int st ((as.drop (512 * g)).take 512) kp
    ws.zipIdx.map fun (wv, j) =>
      let o := 16 * cap + 4096 * g + 8 * j
      (new + o, stripCode int false (addV (stripRead s n (zero || t.lanes ≤ j) (old + o) int) (checkChain int st gr wv)).1))

/-- The Pallet offsets a pass reads (R116): activations, and the partials and check strips of the half it goes on from. -/
def passReads (s : State) (n : Fin 8) (u : UnitCmd) (t : Tile) (p : Nat) : List Nat :=
  let c := u.word
  let a := cmdDesc u (mmAdesc c)
  let st := tStrip t.entry t.current
  let cap := tCap t.entry
  let lanes := min (mmLanes s n u) t.lanes
  ((List.range (mmM c)).flatMap fun m =>
    (List.range (min (kPerPass (mmWf c) (mmStrict c)) (mmKx u - passK c p))).flatMap fun k => srcAddrs s n a (mmArow0 c + m) (passK c p + k)) ++
  (if p = 1 && mmInit c then [] else
    ((List.range (mmM c)).flatMap fun m => (List.range lanes).flatMap fun j =>
      (List.range (partBytes (tile16 t))).map (partOff t.entry t.current (tile16 t) m j + ·)) ++
    (if !s.courses[n].check then [] else
      ((List.range (mmM c)).flatMap fun m => [st + 8 * m, st + 8 * cap + 8 * m]) ++
      ((List.range ((mmM c + 511) / 512)).flatMap fun g => (List.range lanes).map fun j => st + 16 * cap + 4096 * g + 8 * j)))

/-- The first uncorrectable word among offsets a command reads; asked only where the Pallet has one. -/
def readUe (s : State) (n : Fin 8) (as : List Nat) : Option Nat := if s.pallets[n].ue.isEmpty then none else palletUe s n as

/-- The head of a Course's queue removed; the next command has not started, or is a program's MM that a Cox MM had overtaken at
a pass boundary (R314). -/
def popCourse (s : State) (n : Fin 8) : State :=
  updCourse s n fun c =>
    let (p, fl, w, r) := c.parked.getD (1, 0, false, false)
    { c with queue := c.queue.drop 1, stage := .load, pass := p, firstFail := none, afterSubst := false, retried := r
             passFlags := 0, passOffence := none, cmdFlags := fl, cmdWidened := w, parked := none }

/-- The oldest MM ends: its flags go into the sticky byte, its tiles are given, and it retires (R49, R50). The accesses of the Course
that had to wait for a bank are counted (R138, log 19). -/
def mmRetire (s : State) (n : Fin 8) (u : UnitCmd) (res : Res) : State :=
  let c := u.word
  let s := updCourse s n fun k => { k with sticky := k.sticky ||| res.flags }
  let s := if res.widened then ctrAdd s 0 (0x6100 + n) 0x34 1 else s
  let s := stallAdd s 0x6300 (0x20 + n)
  let s := popCourse s n
  let s := retireUnit s u.iss 0x21 (mmTag c) (mmEvent c) res
  tilesGive s n u

/-- A running MM fails (R71): its tile is BROKEN and the half it was writing is undefined. -/
def mmFail (s : State) (n : Fin 8) (u : UnitCmd) (r : Reason) (addr : Nat) : State :=
  let c := u.word
  let t := s.courses[n].tiles[fin64 (mmTile c)]
  let (g, s) := freshGen s
  let a0 := tHalf t.entry (!t.current)
  let s := palletWriteL s n ((List.range (2048 * mmM c)).map fun i => (a0 + i, Config.freeByte g i))
  let s := updTile s n (mmTile c) fun t => { t with broken := true }
  let k := s.courses[n]
  mmRetire s n u ⟨.failed, r, k.cmdFlags, k.cmdWidened, false, BitVec.ofNat 64 addr, 0⟩

/-! ## The verdict (R67, R68, R84) -/

def p2 (k : Int) : Val := .fin false 1 k
def natV (k : Nat) : Val := .fin false k 0
def scaleV (k : Nat) (e : Int) (v : Val) : Val := (mulV (.fin false k e) v).1

/-- Chain roundings w and flush points v of R81. -/
def boundW (c : Cmd) : Nat :=
  match mmClass c with
  | .chained => 511
  | .strict => if mmAf c == .fp32 || mmWf c == .fp32 then 512 else 511
  | _ => 0
def boundV (c : Cmd) : Nat := match mmClass c with | .chained | .strict => 1023 | _ => 0

/-- E(p, X) of R84: the right-hand side of R81, or of R85 from pass 9 on. -/
def boundE (c : Cmd) (p : Nat) (x : Val) : Val :=
  let w := boundW c
  let v := boundV c
  if mmStrict c then sumV [scaleV (w + p) (-24) x, .fin false (v + p) (-149)]
  else if mmAcc16 c then
    if p ≤ 8 then sumV [scaleV (w + p) (-11) x, .fin false v (-126), .fin false p (-14)]
    else sumV [scaleV (w + 8) (-11) x, scaleV (w + p - 8) (-24) x, .fin false v (-126), .fin false 8 (-14), .fin false (p - 8) (-126)]
  else sumV [scaleV (w + p) (-24) x, .fin false v (-126), .fin false p (-126)]

/-- T_row and T_col of R67. -/
def tolerance (c : Cmd) (p tau k : Nat) (x : Val) : Val :=
  if mmClass c = .integer then vZero else sumV [boundE c p x, scaleV (k + p + tau) (-24) x]

/-- A sum of binary32 values by the tree, or exactly for INT8; of a strict command with its subnormals. -/
def rowSum (int strict : Bool) (l : List Val) : Val :=
  if int then sumV l else
  match treeReduce (fun a b => (add32 strict a b).1) l.length (l.map fun v => (to32 strict v).1) with
  | some c => of32 strict c
  | none => vZero
def colSum (int strict : Bool) (l : List Val) : Val :=
  if int then sumV l else of32 strict (l.foldl (fun a v => (add32 strict a (to32 strict v).1).1) 0)

/-- |a − b| > t. -/
def differs (a b t : Val) : Bool := ltV t (absV (addV a (negV b)).1)
/-- Not a number one may judge by. -/
def unsound (v : Val) : Bool := !isFin v

/-- A saturated INT32 partial (R80). -/
def satVal (v : Val) : Bool := valInt v = -0x80000000 || valInt v = 0x7FFFFFFF

/-- Failing rows, failing lanes and the number of exempt rows and columns of the ended pass (R67, R68). A Course whose lanes all
delivered what they compute fails no check (R67). -/
def judge (s : State) (n : Fin 8) (u : UnitCmd) (t : Tile) : List Nat × List Nat × Nat :=
  let c := u.word
  let int := mmClass c = .integer
  let f := accFmt c t.passes
  let h16 := f == .fp16
  let p := t.passes + 1
  let k := s.courses[n]
  let tau := k.tau
  let strict := mmStrict c
  let cap := tCap t.entry
  let st := tStrip t.entry (!t.current)
  let q (m j : Nat) := readCode f false (ofLe (palletReadN s n (partOff t.entry (!t.current) h16 m j) (partBytes h16)))
  let lanes := mmLanes s n u
  let av (m : Nat) := stripVal int (ofLe (palletReadN s n (st + 8 * cap + 8 * m) 8))
  let rows := (List.range (mmM c)).map fun m =>
    let qs := (List.range lanes).map (q m)
    let o := rowSum int strict qs
    let r := stripVal int (ofLe (palletReadN s n (st + 8 * m) 8))
    let ex := unsound o || unsound r || unsound (av m) || (int && qs.any satVal)
    (ex, k.wrong && !ex && differs o r (tolerance c p tau 521 (av m)))
  let cols := (List.range ((mmM c + 511) / 512)).flatMap fun g =>
    let ms := (List.range (mmM c)).filter fun m => m / 512 = g
    let ag := sumV (ms.map av)
    (List.range lanes).map fun j =>
      let qs := ms.map fun m => q m j
      let o := colSum int strict qs
      let r := stripVal int (ofLe (palletReadN s n (st + 16 * cap + 4096 * g + 8 * j) 8))
      let ex := unsound o || unsound r || unsound ag || (int && qs.any satVal)
      (ex, k.wrong && !ex && differs o r (tolerance c p tau 1023 ag), j)
  ((rows.zipIdx.filter fun x => x.1.2).map (·.2), ((cols.filter fun x => x.2.1).map fun x => x.2.2).dedup,
    (rows.filter (·.1)).length + (cols.filter (·.1)).length)

/-- Attribution (R70). -/
def blameOf (lanes : List Nat) : Attr :=
  match lanes with
  | [j] => .lane j
  | [] => .sum
  | _ => .unlocalised

/-- The LANE of a checksum event (R70). -/
def attrLane (a : Attr) : Nat := match a with | .lane j => j | .sum => 512 | .unlocalised => 0x3FF

/-! ## Releasing a pass -/

/-- The first-offender record of an event (R94). -/
def offenderRecord (s : State) (n : Fin 8) (u : UnitCmd) (pass : Nat) (o : Offence) : BitVec 256 :=
  let c := u.word
  BitVec.ofNat 256 (o.cell + place 10 pass + place 23 o.lane + place 32 (mmTag c) + place 64 (mmArow0 c + o.row) +
    place 96 ((mmN0 c + o.lane) % 2 ^ 32) + place 128 1 + place 137 (if mmStrict c then 1 else 0) + place 138 n.val +
    place 141 o.kind + place 144 (issuerStroke s u.iss) + place 192 s.now.toNat)

/-- Lexicographic order of keys. -/
def keyLt : List Nat → List Nat → Bool
  | [], [] => false
  | [], _ => true
  | _, [] => false
  | a :: l, b :: m => a < b || (a = b && keyLt l m)

/-- The event of a cleared pass is latched (R96): into the Course's record when none is held, and into the layer's selection for
the Card. -/
def latchOffence (s : State) (n : Fin 8) (u : UnitCmd) (pass : Nat) (o : Option Offence) : State :=
  let layer := match u.iss with | .cox _ k => some k | _ => tagLayer (mmTag u.word)
  match o with
  | none => s
  | some o =>
    let r := offenderRecord s n u pass o
    let s := updCourse s n fun c => if c.offender.getLsbD 128 then c else { c with offender := r }
    let key := [n.val, mmTag u.word, pass, mmArow0 u.word + o.row, o.lane, o.cell, o.kind]
    match programIssuer s u.iss, layer with
    | .core c att _ _ _, some l =>
      updAttempt s c fun a =>
        if a.number ≠ att then a else
        { a with layers := updLayer a.layers l fun x =>
                   match x.offender with
                   | some (k, _) => if keyLt key k then { x with offender := some (key, r) } else x
                   | none => { x with offender := some (key, r) } }
    | _, _ => s

/-- The smaller offence by (ROW, LANE, CELL, KIND). -/
def minOffence (a b : Option Offence) : Option Offence :=
  match a, b with
  | none, x => x
  | x, none => x
  | some x, some y => if keyLt [y.row, y.lane, y.cell, y.kind] [x.row, x.lane, x.cell, x.kind] then some y else some x

/-- The final output element (R33 to R35): code, flags and whether the scaling is invalid. -/
def finalElem (s : State) (n : Fin 8) (u : UnitCmd) (v : Val) (m j : Nat) : Nat × FlagByte × Bool :=
  let c := u.word
  let f := (fmtOf (mmOfmt c)).getD .fp32
  let sa := if mmSadesc c = 0 then natV 1 else elemVal (palletByte s n) true (cmdDesc u (mmSadesc c)) (mmArow0 c + m) 0
  let sw := if mmSwdesc c = 0 then natV 1 else elemVal (palletByte s n) true (cmdDesc u (mmSwdesc c)) 0 (mmN0 c + j)
  if f == .int32 then (toField 32 (valInt v), 0, false) else
  let (x, fx) := if mmSadesc c = 0 && mmSwdesc c = 0 then (v, 0) else mulV v sa
  let (y, fy) := if mmSadesc c = 0 && mmSwdesc c = 0 then (x, 0) else mulV x sw
  let (q, fq) := convert f .rne (mmStrict c) false y
  (q, fx ||| fy ||| fq, (fx ||| fy) &&& fNV ≠ 0)

/-- The final pass writes its output (R33, R58): the Pallet, the flags and the offence of KIND 4. -/
def writeOutput (s : State) (n : Fin 8) (u : UnitCmd) (t : Tile) : State × FlagByte × Option Offence :=
  let c := u.word
  if !(mmFinal c && mmOdesc c ≠ 0) then (s, 0, none) else
  let o := cmdDesc u (mmOdesc c)
  let h16 := tile16 t
  let f : Fmt := if t.cls = .integer then .int32 else if h16 then .fp16 else .fp32
  let es := (List.range (mmM c)).flatMap fun m => (List.range (mmLanes s n u)).map fun j =>
    let v := readCode f (!mmStrict c) (ofLe (palletReadN s n (partOff t.entry t.current h16 m j) (partBytes h16)))
    (m, j, finalElem s n u v m j)
  let ws := es.flatMap fun (m, j, q, _, _) => elemStore (palletByte s n) o (mmOrow0 c + m) (mmOcol0 c + j) q
  let bad := es.foldl (fun a (m, j, _, _, b) => if b then minOffence a (some ⟨m, j, 0x3FF, 4⟩) else a) none
  (palletWriteL s n ws, orFlags (es.map fun x => x.2.2.2.1), bad)

/-- The offsets of the scale vectors the final pass reads (R33). -/
def scaleReads (s : State) (n : Fin 8) (u : UnitCmd) : List Nat :=
  let c := u.word
  if !(mmFinal c && mmOdesc c ≠ 0) then [] else
  (if mmSadesc c = 0 then [] else (List.range (mmM c)).flatMap fun m => elemAddrs (cmdDesc u (mmSadesc c)) (mmArow0 c + m) 0) ++
  (if mmSwdesc c = 0 then [] else (List.range (mmLanes s n u)).flatMap fun j => elemAddrs (cmdDesc u (mmSwdesc c)) 0 (mmN0 c + j))

/-- The tolerance margin committed for Course n (R74). -/
def tauNow (s : State) (n : Fin 8) : Nat := objNat s 0 (0x6100 + n) 0x21 64

/-- The next pass of the oldest MM: its tile is used from a buffer when it matches, else it is loaded (R56). A pass that begins takes
the margin committed at that boundary (R74). -/
def startPass (s : State) (n : Fin 8) (u : UnitCmd) (p : Nat) : State :=
  let tau := tauNow s n
  updCourse s n fun c =>
    let c := { c with pass := p, stage := .load, firstFail := none, afterSubst := false }
    if tileMatch u p c.loading then
      { c with active := c.loading, loading := none, stage := .pass, tau := tau }
    else if tileMatch u p c.active then { c with stage := .pass, tau := tau }
    else c

/-- The last pass of the oldest MM has cleared: the output is written, a send-on is handed over and the command retires (R33, R69); a
scale in an uncorrectable word fails it (R116). -/
def finishMm (s : State) (n : Fin 8) (u : UnitCmd) : State :=
  let c := u.word
  let k := s.courses[n]
  let (s, ofl, bad) := writeOutput s n u k.tiles[fin64 (mmTile c)]
  let s := latchOffence s n u k.pass (minOffence k.passOffence bad)
  let res : Res := ⟨if k.retried then .okRetried else .ok, .none, k.cmdFlags ||| ofl, k.cmdWidened, false, 0, 0⟩
  let s := if mmSendon c ≠ 0 then updTile s n (mmTile c) fun t => { t with sendon := some (mmSendon c, mmArow0 c, mmN0 c, mmLanes s n u) } else s
  mmRetire s n u res

/-- A cleared pass is released (R69, R79, R85, R88, R96), and the next pass starts or the command finishes. -/
def releasePass (s : State) (n : Fin 8) (u : UnitCmd) : State :=
  let c := u.word
  let lanes := mmLanes s n u
  let p := s.courses[n].pass
  let s := updTile s n (mmTile c) fun t => { t with passes := t.passes + 1, current := !t.current, lanes := lanes }
  let s := updCourse (tileChanged s n (mmTile c)) n fun c =>
    { c with cmdFlags := c.cmdFlags ||| c.passFlags, passFlags := 0, retried := c.retried || c.firstFail.isSome }
  let latched := latchOffence s n u p s.courses[n].passOffence
  if p < mmPasses c then startPass (updCourse latched n fun c => { c with passOffence := none }) n u (p + 1) else
  match readUe s n (scaleReads s n u) with
  | some a => mmFail (palletUeEvent latched n a) n u .palletUe (palletAddr n a)
  | none => finishMm (palletFix s n (scaleReads s n u)) n u

/-! ## Dispatch -/

/-- The oldest command of a Course changed. -/
def setCourseHead (s : State) (n : Fin 8) (g : UnitCmd → UnitCmd) : State :=
  updCourse s n fun c => { c with queue := match c.queue with | x :: l => g x :: l | [] => [] }

/-- The tag and the event of a Course command. -/
def courseTag (u : UnitCmd) : Nat := if u.op = 0x22 then fld u.word 63 32 else mmTag u.word
def courseEvent (u : UnitCmd) : Nat := if u.op = 0x22 then lwEvent u.word else mmEvent u.word

/-- The oldest command of a Course, whose checks have passed, starts: it takes its tiles; an MM with INIT resets the state record
(R89), and its first pass starts. -/
def startCourse (s : State) (n : Fin 8) (u : UnitCmd) : State :=
  let c := u.word
  let s := tilesTake (setCourseHead s n fun x => { x with run := true }) n u
  if u.op = 0x22 then updCourse s n fun c => { c with stage := .load } else
  let s := if mmInit c then
      tileChanged (updTile s n (mmTile c) fun t =>
        { t with init := true, passes := 0, widened := false, acc16 := mmAcc16 c, cls := mmClass c, rows := mmM c, broken := false }) n (mmTile c)
    else s
  startPass s n u 1

/-- The oldest command of a Course starts, is rejected, or waits on a tile; rejected ones retire at once (R56, R64, R90).
`k` bounds the commands looked at. -/
def advCourse : Nat → State → Fin 8 → State
  | 0, s, _ => s
  | k + 1, s, n =>
    match s.courses[n].queue with
    | [] => s
    | u :: _ =>
      if u.run || u.blocked ≠ 0 then s
      else if tileWaits s n u then setCourseHead s n fun x => { x with blocked := 1 }
      else
        let why := if u.op = 0x22 then loadwReject s n u else mmReject s n u
        let s := waitSpent s n (cmdTiles u)
        match why with
        | some r => advCourse k (retireUnit (popCourse (rejectCount s n r) n) u.iss u.op.toNat (courseTag u) (courseEvent u) (rejected r)) n
        | none => startCourse s n u

/-- A tile is in use by some issued command or a send-on not read (R128). -/
def tileBusy (s : State) (n : Fin 8) (h : Nat) : Bool :=
  (tileQueues s n).any (fun u => usesTile u h) || s.courses[n].tiles[fin64 h].sendon.isSome

/-- A tile-table entry is written: the tile is left uninitialised and unowned (R128). -/
def bindTile (s : State) (n : Fin 8) (h : Nat) (d : Cmd) : State :=
  tileChanged (updTile s n h fun _ => { Tile.unbound with entry := d }) n h

/-- Waiting stores whose tile is free are made, in order (R128); the cores that made them go on (R119). -/
def doStores (s : State) (n : Fin 8) : State :=
  s.courses[n].stores.foldl (fun s x =>
    if tileBusy s n x.2.2.1 then s
    else bindTile (updCourse s n fun c => { c with stores := c.stores.erase x }) n x.2.2.1 x.2.2.2) s

/-- Every command that may start starts, and stores that waited for a tile are made. -/
def goCourse (s : State) (n : Fin 8) : State := doStores (advCourse (s.courses[n].queue.length + 1) s n) n

/-! ## The commands -/

/-- The partition may store at the issue port of a Course in service that it owns (R230, R420). -/
def ownsCourse (n : Fin 8) (s : State) (_ : Fin 16) (p : Fin 8) : Bool := courseOwner s n == some p && s.courses[n].inService

/-- A command joins a Course's queue with its place in the tile order (R90, R119). -/
def enqueueCourse (s : State) (n : Fin 8) (c : Cmd) (iss : Issuer) (slots tiles : List Nat) (ev : Nat) : State :=
  let k := s.courses[n]
  let ds := copyDescs k slots
  let u := mkCmd c iss ds ((tiles.map fun h => (h, k.tiles[fin64 h].entry)) ++ viewEntries k ds) ev k.order
  goCourse (updCourse s n fun c => { c with queue := c.queue ++ [u], order := c.order + 1 }) n

/-- A 64-byte store at the issue port of Course n: its OPCODE says MM or LOADW; any other is a field out of range (R230, R64). -/
def coursePort (s : State) (w : Who) (n : Fin 8) (c : Cmd) : State :=
  let op := fld c 7 0
  let tag := fld c 63 32
  castReady (issueStore s w (ownsCourse n) op tag (if op = 0x21 then mmEvent c else if op = 0x22 then lwEvent c else 0) fun s _ _ iss =>
    if op = 0x21 then enqueueCourse s n c iss (mmSlots c) [mmTile c] (mmEvent c)
    else if op = 0x22 then enqueueCourse s n c iss [lwWdesc c] [] (lwEvent c)
    else retireUnit s iss op tag 0 (rejected .badField))

/-- MM (R62). -/
def execMm (w : Who) (n : Fin 8) (c : Cmd) (s : State) : Host.Outcome State Fault Refusal := powered s (coursePort s w n c)

/-- LOADW (R65). -/
def execLoadw (w : Who) (n : Fin 8) (c : Cmd) (s : State) : Host.Outcome State Fault Refusal := powered s (coursePort s w n c)

/-- A LOADW's fill completes: the loading buffer holds its tile and it retires; an uncorrectable word fails it (R55, R65, R116).
`drop` takes it out of the queue. -/
def loadwDone (s : State) (n : Fin 8) (u : UnitCmd) (drop : State → State) : State :=
  let c := u.word
  let w := cmdDesc u (lwWdesc c)
  let as := tileAddrs s n w (kPerPass (srcFmt s n w) (lwStrict c)) (lwK0 c) (lwN0 c)
  let ret (s : State) (r : Res) := tilesGive (retireUnit (drop s) u.iss 0x22 (fld c 63 32) (lwEvent c) r) n u
  match readUe s n as with
  | some a => ret (palletUeEvent s n a) (failedRes .palletUe false (palletAddr n a))
  | none =>
    let t := loadTile s n w (lwWfmt c) (lwWdesc c) (lwK0 c) (lwN0 c) (lwStrict c)
    ret (updCourse (palletFix s n as) n (putLoading t)) Res.okay

/-- Drop the second command of a Course's queue: a LOADW filled during the last pass of the MM before it. -/
def dropSecond (n : Fin 8) (s : State) : State :=
  updCourse s n fun c => { c with queue := match c.queue with | x :: _ :: l => x :: l | l => l }

/-- The tile of pass p of an MM as the loader fills it, and the offsets it reads. -/
def mmWeights (s : State) (n : Fin 8) (u : UnitCmd) (p : Nat) : WTile × List Nat :=
  let c := u.word
  let w := cmdDesc u (mmWdesc c)
  (loadTile s n w (mmWfmt c) (mmWdesc c) (passK c p) (mmN0 c) (mmStrict c),
   tileAddrs s n w (kPerPass (mmWf c) (mmStrict c)) (passK c p) (mmN0 c))

/-- The tile of pass p of an MM loaded while another pass runs. Where a word of it is uncorrectable the buffer is not filled, and the
load is made again at its own turn. -/
def loadAhead (s : State) (n : Fin 8) (u : UnitCmd) (p : Nat) : State :=
  let x := mmWeights s n u p
  if (readUe s n x.2).isSome then s else updCourse (palletFix s n x.2) n (putLoading x.1)

/-- The load that follows a command's last pass in dispatch order: a LOADW's fill, or the first tile of the next MM (R56). A strict
tile spans both buffers and is loaded at its own turn (R52, R59), and so is one of a command that waits on a tile. -/
def loadNext (s : State) (n : Fin 8) (v : UnitCmd) : State :=
  if tileWaits s n v then s else
  if v.op = 0x22 then
    match loadwReject s n v with
    | some r => castReady (retireUnit (dropSecond n (rejectCount s n r)) v.iss 0x22 (fld v.word 63 32) (lwEvent v.word) (rejected r))
    | none => if lwStrict v.word then s else castReady (loadwDone (tilesTake s n v) n v (dropSecond n))
  else if (mmReject s n v).isSome || mmStrict v.word then s else loadAhead s n v 1

/-- WEIGHT_LOAD_DONE (R55, R56, R65): the load wave completes. Where the oldest command waits for it, a LOADW retires and an MM's
pass begins; during a pass it is the load of the next pass or, in the last pass, of the next command in dispatch order. A strict
pass overlaps no loading (R59). -/
def execWeightLoadDone (n : Fin 8) (s : State) : Host.Outcome State Fault Refusal :=
  powered s (
    match s.courses[n].queue with
    | [] => s
    | u :: rest =>
      if !u.run then s else
      if u.op = 0x22 then (castReady (goCourse (loadwDone s n u (popCourse · n)) n)) else
      let c := u.word
      let k := s.courses[n]
      match k.stage with
      | .load =>
        let x := mmWeights s n u k.pass
        match readUe s n x.2 with
        | some a => (castReady (goCourse (mmFail (palletUeEvent s n a) n u .palletUe (palletAddr n a)) n))
        | none => (updCourse (palletFix s n x.2) n fun y => { putActive x.1 y with stage := .pass, tau := tauNow s n })
      | .subst => s
      | _ =>
        if mmStrict c then s else
        if k.pass < mmPasses c then loadAhead s n u (k.pass + 1)
        else match rest with
          | [] => s
          | v :: _ => loadNext s n v)

/-- What a faulty lane delivers in place of a result, or of a strip entry (R71). -/
def faultAt (bad : List LaneFault) (m l v : Nat) : Nat :=
  match bad.find? fun b => b.row = m ∧ b.lane = l with
  | some b => b.value.toNat
  | none => v

/-- What a pass stores into the tile's other half and its strip, each lane delivering what `bad` says of it. -/
def passStores (s : State) (n : Fin 8) (u : UnitCmd) (w : WTile) (bad : List LaneFault) : List (Nat × Byte) :=
  let c := u.word
  let k := s.courses[n]
  let t := k.tiles[fin64 (mmTile c)]
  let h16 := accFmt c t.passes == .fp16
  let half := !t.current
  let st := tStrip t.entry half
  let cap := tCap t.entry
  let bytes (a n v : Nat) : List (Nat × Byte) := (leBytes n v).zipIdx.map fun (b, i) => (a + i, b)
  ((passResults s n u t w k.pass).flatMap fun (m, j, q, _, _) => bytes (partOff t.entry half h16 m j) (partBytes h16) (faultAt bad m j q)) ++
  (if !k.check then [] else
    (stripWrites s n u t w k.pass).flatMap fun (a, v) =>
      let o := a - st
      bytes a 8 (if o < 8 * cap then faultAt bad (o / 8) 512 v else if o < 16 * cap then faultAt bad (o / 8 - cap) 513 v else v))

/-- The ninth pass of a 16-bit sum, or a later one, has ended: its tile is widened, and the command ran a widened pass (R79, R85, R86). -/
def markWide (s : State) (n : Fin 8) (u : UnitCmd) : State :=
  let h := mmTile u.word
  let wide := mmAcc16 u.word && s.courses[n].tiles[fin64 h].passes ≥ 8
  updCourse (updTile s n h fun t => { t with widened := t.widened || wide }) n fun c => { c with cmdWidened := c.cmdWidened || wide }

/-- PASS_END (R79, R85, R80, R66): every output element is combined and written into the tile's other half, with its check strip.
With checking disabled the pass is released at once (R73). -/
def execPassEnd (n : Fin 8) (bad : List LaneFault) (s : State) : Host.Outcome State Fault Refusal :=
  powered s (
    let k := s.courses[n]
    match runningMM k, k.active with
    | some u, some w =>
      if k.stage ≠ .pass then s else
      let t := k.tiles[fin64 (mmTile u.word)]
      let as := passReads s n u t k.pass
      match readUe s n as with
      | some a => (castReady (goCourse (mmFail (palletUeEvent (markWide s n u) n a) n u .palletUe (palletAddr n a)) n))
      | none =>
        let rs := passResults s n u t w k.pass
        let off := rs.foldl (fun a (m, j, _, _, e) => match e with | some (cl, kd) => minOffence a (some ⟨m, j, cl, kd⟩) | none => a) none
        let ws := passStores s n u w bad
        let wrong := !bad.isEmpty && decide (ws ≠ passStores s n u w [])
        let s := markWide (palletWriteL (palletFix s n as) n ws) n u
        let s := updCourse s n fun x =>
          { x with stage := .verdict, wrong := wrong, passFlags := orFlags (rs.map fun r => r.2.2.2.1), passOffence := off }
        if k.check then s else (castReady (goCourse (releasePass s n u) n))
    | _, _ => s)

/-- CHECK_VERDICT (R67 to R71): the ended pass is judged. A pass that clears is released; one that fails is re-run once, then a
lane attributed twice is substituted, and what cannot be cured fails the command. -/
def execCheckVerdict (n : Fin 8) (s : State) : Host.Outcome State Fault Refusal :=
  powered s (
    let k := s.courses[n]
    match runningMM k with
    | none => s
    | some u =>
      if k.stage ≠ .verdict then s else
      let c := u.word
      let t := k.tiles[fin64 (mmTile c)]
      let (rows, lanes, ex) := judge s n u t
      let s := ctrAdd s 0 (0x6100 + n) 0x32 ex
      let s := if ex > 0 then checkEvent s u.iss 4 n 0x3FF k.pass (mmTag c) else s
      if rows.isEmpty && lanes.isEmpty then
        let s := match k.firstFail with
          | some a => checkEvent s u.iss 2 n (attrLane a) k.pass (mmTag c)
          | none => s
        (castReady (goCourse (releasePass s n u) n))
      else
        let a := blameOf lanes
        let s := ctrAdd s 0 (0x6100 + n) 0x31 1
        let s := checkEvent s u.iss 1 n (attrLane a) k.pass (mmTag c)
        let giveUp (s : State) : State :=
          castReady (goCourse (mmFail (checkEvent s u.iss 5 n (attrLane a) k.pass (mmTag c)) n u .checkFailed 0) n)
        match k.firstFail with
        | none =>
          (ctrAdd (updCourse s n fun x => { x with firstFail := some a, stage := .load, active := none, loading := none }) 0 (0x6100 + n) 0x30 1)
        | some f =>
          if k.afterSubst then (giveUp s) else
          if a = .unlocalised || a ≠ f then (giveUp (askTest s 3 n)) else
          let s := updCourse s n fun x => { x with suspects := x.suspects + 1 }
          let spares := (List.range 520).filter fun l => !k.laneMap.contains l && !k.badLanes.contains l
          if spares.isEmpty then (courseOut (giveUp s) n 1)
          else (updCourse s n fun x => { x with stage := .subst, substs := x.substs ++ [attrLane a] }))

/-- LANE_SUBSTITUTION (R72, R17, R417): at a pass boundary the oldest pending substitution is carried out. The lowest-numbered
spare is tested; one that fails leaves the inventory and the next is tried by the next such command. Where none is left, an MM that
waits for its substitution fails (R71). A lane that has been substituted is no longer counted among the suspects: the spec gives no
rule for that count's fall (DESIGN CHOICE, log 38). -/
def execLaneSubstitution (n : Fin 8) (ok : Pass) (s : State) : Host.Outcome State Fault Refusal :=
  powered s (
    let k := s.courses[n]
    match k.substs with
    | [] => s
    | l :: rest =>
      let boundary := match runningMM k with
        | some _ => k.stage = .subst || k.stage = .load || k.stage = .pass
        | none => true
      if !boundary then s else
      -- the substitution the stopped pass waits for
      let mine := k.stage = .subst && k.firstFail.map attrLane = some l
      match (List.range 520).find? fun x => !k.laneMap.contains x && !k.badLanes.contains x with
      | none =>
        let s := updCourse s n fun x => { x with substs := rest }
        match runningMM k with
        | some u =>
          if !mine then courseOut s n 1 else
          courseOut (castReady (goCourse (mmFail (checkEvent s u.iss 5 n l k.pass (mmTag u.word)) n u .checkFailed 0) n)) n 1
        | none => courseOut s n 1
      | some sp =>
        if !ok then (updCourse s n fun x => { x with badLanes := x.badLanes ++ [sp] }) else
        let old := k.laneMap.getD l 0
        let s := updCourse s n fun x =>
          { x with laneMap := x.laneMap.set l sp, badLanes := x.badLanes ++ [old], substs := rest, suspects := x.suspects - 1 }
        let s := repairDone s
        let s := genBump s 0 (0x6100 + n) 4
        -- the stall is at most 35 µs (KL-01)
        let (v, s) := fresh s
        let ns := v.toNat % 35001
        let s := pointLog s 2 n ns
        let s := cardPoint s (courseOwner s n) 2 n ns
        if mine then
          let s := match runningMM k with
            | some u => checkEvent s u.iss 3 n l k.pass (mmTag u.word)
            | none => s
          (ctrAdd (updCourse s n fun x => { x with stage := .load, active := none, loading := none, afterSubst := true }) 0 (0x6100 + n) 0x30 1)
        else s)

/-- The oldest command of a Course that waits on a tile proceeds once nothing holds it; its wait is counted (R90, log 19). -/
def freeCourse (s : State) (n : Fin 8) : State :=
  match s.courses[n].queue with
  | u :: _ =>
    if u.blocked = 1 && !tileWaits s n u then
      goCourse (setCourseHead (stallAdd s (0x6100 + n) 0x33) n fun x => { x with blocked := 0 }) n
    else s
  | [] => s

/-- CHECK_ENABLE (R73): what a write that is allowed does; the rights are judged by the dictionary (16). -/
def setCheck (s : State) (n : Fin 8) (v : Byte) : State := updCourse s n fun c => { c with check := v ≠ 0 }

/-- STICKY_FLAGS_CLEAR (R50): the bits written as 1 are cleared. -/
def clearSticky (s : State) (trowel : Bool) (n : Fin 8) (v : Byte) : State :=
  if trowel then updTrowel s n fun t => { t with sticky := t.sticky &&& ~~~ v }
  else updCourse s n fun c => { c with sticky := c.sticky &&& ~~~ v }

/-- FIRST_OFFENDER_CLEAR (R94): writing 0 to VALID clears the record, writing 1 has no effect. -/
def clearOffender (s : State) (n : Fin 8) (v : BitVec 256) : State :=
  if v.getLsbD 128 then s else updCourse s n fun c => { c with offender := 0 }

/-- A tile loaded from a descriptor slot that is rewritten no longer matches (R56); a pass in progress goes on with it. -/
def voidSlot (slot : Nat) (t : Option WTile) : Option WTile := t.map fun t => if t.slot = slot then { t with live := false } else t

/-- A descriptor slot is written: no loaded tile matches it any longer (R56). -/
def slotStore (s : State) (n : Fin 8) (slot : Nat) (d : Cmd) : State :=
  updCourse s n fun k =>
    { k with descs := assocSet k.descs slot d (descDflt k slot), active := voidSlot slot k.active, loading := voidSlot slot k.loading }

/-- DESCRIPTOR_STORE (R119): the slot is written and a tile match on it is voided (R56). Slot 0 and slots above 4,095 are outside
the window: the core faults (R230). -/
def execDescriptorStore (w : Who) (n : Fin 8) (slot : Nat) (d : Cmd) (s : State) : Host.Outcome State Fault Refusal :=
  powered s (
    match findCore s w with
    | none => s
    | some (c, _, _) =>
      match crewOwner s c with
      | none => s
      | some p =>
        if !ownsCourse n s c p || slot = 0 || slot > 4095 then (castReady (emit (programFault s c) (.coreFault w))) else
        (slotStore s n slot d))

/-- A tile-table entry is written once no issued command uses the tile; until then the store waits, and its core with it (R119). -/
def tileStore (s : State) (w : Who) (n : Fin 8) (h : Fin 64) (d : Cmd) : State :=
  if tileBusy s n h then updCourse s n fun k => { k with stores := k.stores ++ [(w.cluster, w.core, h.val, d)] } else bindTile s n h d

/-- TILE_TABLE_STORE (R128): once no issued command uses the tile, the entry is written and the tile is left uninitialised and
unowned. While one does, the store waits, and its core with it (R119). -/
def execTileTableStore (w : Who) (n : Fin 8) (h : Fin 64) (d : Cmd) (s : State) : Host.Outcome State Fault Refusal :=
  powered s (
    match findCore s w with
    | none => s
    | some (c, _, _) =>
      match crewOwner s c with
      | none => s
      | some p =>
        if !ownsCourse n s c p then (castReady (emit (programFault s c) (.coreFault w))) else
        (tileStore s w n h d))

end Sys2Proof.Machine
end

