-- ==== Sys2Proof/Machine/CoreMap.lean ====
section
/-! DEFINITION. What a control core sees at its addresses (R230): its own loads, instruction fetches and stores, beside the stores that
have rows of their own. -/

namespace Sys2Proof.Machine

open Sys2Proof

/-! ## The map (R230) -/

/-- What a core address names. -/
inductive CorePlace where
  /-- The program's cluster memory. -/
  | cluster (off : Nat)
  /-- A descriptor slot of a Course. -/
  | slot (n : Fin 8) (k off : Nat)
  /-- A tile-table entry (bytes 0 to 63), or its state record (64 to 127). -/
  | tile (n : Fin 8) (h : Fin 64) (off : Nat)
  /-- An issue port: of Course n and its units, or of the Rigger and the Cox. -/
  | port (n : Option (Fin 8))
  | event (e off : Nat)
  | pallet (n : Fin 8) (off : Nat)
  | hbm (a : Nat)
  | nothing
  deriving DecidableEq, Repr

/-- The place of a core address, for a program with a footprint. -/
def corePlace (foot x : Nat) : CorePlace :=
  let n := fin8 (x / 0x100000 % 0x10)
  let o := x % 0x100000
  if x < foot then .cluster x
  else if 0x1000000 ≤ x && x < 0x1800000 then
    if o < 0x40000 then .slot n (o / 64) (o % 64)
    else if o < 0x42000 then .tile n (fin64 ((o - 0x40000) / 128)) (o % 128)
    else if 0x80000 ≤ o && o < 0x80100 then .port (some n)
    else .nothing
  else if 0x2000000 ≤ x && x < 0x2000080 then .port none
  else if 0x3000000 ≤ x && x < 0x3008000 then .event ((x - 0x3000000) / 8) (x % 8)
  else if 0x10000000 ≤ x && x < 0x30000000 then .pallet (fin8 ((x - 0x10000000) / 0x4000000)) (x % 0x4000000)
  else if 0x20000000000 ≤ x then .hbm (x - 0x20000000000)
  else .nothing

/-- The state record of a tile as software reads it (R88, R95): the spec names what it holds and no layout. -/
def tileRecord (t : Tile) : List Byte :=
  let cls : Nat := match t.cls with | .exact => 0 | .chained => 1 | .integer => 2 | .strict => 3
  Config.tileRecord t.passes t.widened t.acc16 cls t.rows t.broken t.current

/-! ## Loads -/

/-- The byte a core of an attempt loads at an address; none where the map gives nothing to load. -/
def coreByte (s : State) (c : Fin 16) (p : Fin 8) (a : Attempt) (k : Fin 4) (x : Nat) : Option Byte :=
  match corePlace a.foot x with
  | .cluster o => some ((a.mem.getD k Mem.empty).read o)
  | .slot n i o => if ownsCourse n s c p then some ((wordBytes (slotDesc s.courses[n] i)).getD o 0) else none
  | .tile n h o =>
    if !ownsCourse n s c p then none
    else if o < 64 then some ((wordBytes s.courses[n].tiles[h].entry).getD o 0)
    else some ((tileRecord s.courses[n].tiles[h]).getD (o - 64) 0)
  | .event e o => some ((leBytes 8 (eventCount s (funcOf p) e).toNat).getD o 0)
  | .pallet n o => if ownsCourse n s c p then some (palletByte s n o) else none
  | .hbm x => if hbmIn s p x 1 then some (hbmByte s p x) else none
  | _ => none

/-- Lines of 64 bytes a cache of 64 KiB holds. -/
def cacheLines : Nat := 1024

/-- A line enters a cache, which keeps the lines used last. -/
def cacheUse (l : List Nat) (x : Nat) : List Nat := (x / 64 :: l.filter (· ≠ x / 64)).take cacheLines

/-- A core's caches after it has used an address: they hold cluster memory alone, since the map's other loads are uncached (R22, R230). -/
def coreCached (s : State) (c : Fin 16) (k : CoreRun) (code : Bool) (x : Nat) : State :=
  updAttempt s c fun a =>
    if a.foot ≤ x then a else
    { a with cores := a.cores.map fun y =>
        if y.cluster = k.cluster ∧ y.lcore = k.lcore then
          (if code then { y with icache := cacheUse y.icache x, pc := BitVec.ofNat 64 x } else { y with dcache := cacheUse y.dcache x })
        else y }

/-- What an uncached load does beside giving its bytes: single-bit and single-symbol errors are corrected (R116, R152), uncorrectable
ones reported (R116, R153); HBM loads are charged to the partition (R150). -/
def coreReads (s : State) (p : Fin 8) (a : Attempt) (xs : List Nat) : State × Bool :=
  let pal := xs.filterMap fun x => match corePlace a.foot x with | .pallet n o => some (n, o) | _ => none
  let hb := xs.filterMap fun x => match corePlace a.foot x with | .hbm y => if hbmIn s p y 1 then some y else none | _ => none
  match pal.find? fun y => (palletUe s y.1 [y.2]).isSome, ueAt s (some p) hb with
  | some y, _ => (palletUeEvent s y.1 y.2, false)
  | none, some y => (ueEventAt s (some p) y, false)
  | none, none =>
    let s := pal.foldl (fun s y => palletFix s y.1 [y.2]) s
    (hbmTraffic (hbmFix s (some p) hb) (some p) hb, true)

/-- A load of n bytes, or with `code` the fetch of an instruction there. Bytes the map gives nothing for, and those of an uncorrectable
word or sector, are free values: the spec states no result (DESIGN CHOICE, log 20). -/
def coreLoad (s : State) (w : Who) (c : Fin 16) (p : Fin 8) (a : Attempt) (k : CoreRun) (code : Bool) (x n : Nat) : State :=
  let xs := (List.range n).map (x + ·)
  let (t, whole) := coreReads s p a xs
  let (fs, t) := freeBytesAt t xs
  let bs := fs.map fun y => if whole then (coreByte s c p a k.cluster y.1).getD y.2 else y.2
  emit (coreCached t c k code x) (.coreLoad w bs)

/-! ## Stores -/

/-- Bytes of a 512-bit word replaced from an offset on. -/
def patchWord (d : Cmd) (o : Nat) (bs : List Byte) : Cmd :=
  let old := wordBytes d
  BitVec.ofNat 512 (ofLe (old.take o ++ bs ++ old.drop (o + bs.length)))

/-- A store of a core: its effect, or none where the core faults. A store outside the map, to a Course the partition does not own, to a
Pallet, to a read-only place, or that no place takes whole, faults (R230; the last two DESIGN CHOICE, log 20). A store at an issue port is a
row of its own. -/
def coreStore (s : State) (w : Who) (c : Fin 16) (p : Fin 8) (a : Attempt) (x : Nat) (bs : List Byte) : Option State :=
  let xs := (List.range bs.length).map (x + ·)
  if 64 < x % 64 + bs.length then none else
  match corePlace a.foot x with
  | .cluster o => some (updAttempt s c fun y => clusterWrite y w.cluster.val o bs)
  | .slot n i o =>
    if !ownsCourse n s c p || i = 0 then none else some (slotStore s n i (patchWord (slotDesc s.courses[n] i) o bs))
  | .tile n h o =>
    if !ownsCourse n s c p || 64 ≤ o then none else some (tileStore s w n h (patchWord s.courses[n].tiles[h].entry o bs))
  | .port n => match n with | some n => if ownsCourse n s c p then some s else none | none => some s
  | .hbm y =>
    let ys := (List.range bs.length).map (y + ·)
    if !hbmIn s p y bs.length || undoRefused s c p ys || (coarseShortAt s (some p) (ys.map hbmAddr)).isSome then none
    else
      match uePartial s (some p) ys with
      | some u => some (ueEventAt s (some p) u)
      | none => some (hbmTraffic (hbmWriteP (undoSave s c p ys) (some p) (ys.zip bs)) (some p) ys)
  | _ => if xs.isEmpty then some s else none

/-- What a core does at an address. -/
def coreAct (s : State) (w : Who) (c : Fin 16) (a : Attempt) (k : CoreRun) (act : CoreAct) : State :=
  let fault : State := castReady (emit (programFault s c) (.coreFault w))
  match act, crewOwner s c with
  | .trap, _ => castReady (programFault s c)
  | _, none => s
  | .load code x n, some p => coreLoad s w c p a k code x n
  | .store x bs, some p => (coreStore s w c p a x bs).getD fault

end Sys2Proof.Machine
end

