-- ==== Sys2Proof/Machine/Strokes.lean ====
section
/-! DEFINITION. Rows of Strokes and of the Finish (14): the start of an attempt and the end of its program (R232, R233), the vote,
Finish packets, recovery of undecided attempts, and rejoin. -/

namespace Sys2Proof.Machine

open Sys2Proof

/-! ## Program images (R232) -/

def ihTextOff (h : List Byte) : Nat := leAt h 8 4
def ihTextLen (h : List Byte) : Nat := leAt h 12 4
def ihDataOff (h : List Byte) : Nat := leAt h 16 4
def ihDataLen (h : List Byte) : Nat := leAt h 20 4
def ihFoot (h : List Byte) : Nat := leAt h 24 4
def ihTextAddr (h : List Byte) : Nat := leAt h 28 4
def ihDataAddr (h : List Byte) : Nat := leAt h 32 4
def ihUcq (h : List Byte) : Nat := leAt h 36 4
def ihHead (h : List Byte) : Nat := leAt h 40 4
def ihEntry (h : List Byte) : Nat := leAt h 44 4
def ihUcqLog (h : List Byte) : Nat := leAt h 48 1
def ihClusters (h : List Byte) : Nat := leAt h 49 1
def ihCores (h : List Byte) (k : Nat) : Nat := leAt h (52 + k) 1

/-- A header of an image of `ilen` bytes obeys R232. -/
def imageOk (h : List Byte) (ilen : Nat) : Bool :=
  let cmax := ((List.range 4).map (ihCores h)).foldl max 0
  let areas := [(ihTextAddr h, ihTextLen h), (ihDataAddr h, ihDataLen h), (ihUcq h, cmax * 2 ^ ihUcqLog h * 64), (ihHead h, 8 * cmax)]
  leAt h 0 4 = 1 && leAt h 4 4 = 256 && ihTextOff h % 64 = 0 && 256 ≤ ihTextOff h && ihTextOff h + ihTextLen h ≤ ilen &&
    ihDataOff h % 64 = 0 && ihDataOff h + ihDataLen h ≤ ilen && ihFoot h % 4096 = 0 && ihFoot h ≤ 8388608 && ihTextAddr h % 64 = 0 &&
    ihDataAddr h % 64 = 0 && ihUcq h % 64 = 0 && ihHead h % 64 = 0 && ihEntry h % 2 = 0 && ihTextAddr h ≤ ihEntry h &&
    ihEntry h < ihTextAddr h + ihTextLen h && 6 ≤ ihUcqLog h && ihUcqLog h ≤ 12 && 1 ≤ ihClusters h && ihClusters h < 16 &&
    leAt h 50 2 = 0 && leAt h 56 200 = 0 &&
    (List.range 4).all (fun k => if (ihClusters h).testBit k then 1 ≤ ihCores h k && ihCores h k ≤ 8 else ihCores h k = 0) &&
    areas.all (fun a => a.1 + a.2 ≤ ihFoot h) && !anyOverlap areas

/-- The program image of the LAUNCH a Crew runs: its header and the image's address. -/
def imageOf (s : State) (p : Fin 8) (l : LaunchRun) : List Byte × Nat := (hbmReadN s p (fld l.body 63 0) 256, fld l.body 63 0)

/-! ## Attempts (R233) -/

/-- Attempts whose programs have not ended. -/
def liveAttempts (s : State) : List Attempt := s.crews.toList.filterMap fun k => k.attempt.bind fun a => if a.ended then none else some a

/-- Logical cores of a cluster in service that run no program, ascending (R233). -/
def freeCores (s : State) (k : Fin 4) : List Nat :=
  let used := (liveAttempts s).flatMap fun a => (a.cores.filter fun x => x.cluster = k).map (·.lcore)
  (List.range (s.pointing.clusters[k].map).length).filter fun i => !used.contains i

/-- Cluster memory in use on a cluster. -/
def usedFoot (s : State) (k : Fin 4) : Nat :=
  (((liveAttempts s).filter fun a => a.cores.any fun x => x.cluster = k).map (·.foot)).sum

/-- A core at the start of an attempt (R233). -/
def startCore (h : List Byte) (l : LaunchRun) (c : Fin 16) (number : Nat) (k : Fin 4) (i lcore : Nat) : CoreRun :=
  let regs (r : Nat) : U64 :=
    match r with
    | 10 => BitVec.ofNat 64 (0x20000000000 + fld l.body 287 224)
    | 11 => BitVec.ofNat 64 (fld l.body 319 288)
    | 12 => l.stroke.setWidth 64
    | 13 => BitVec.ofNat 64 number
    | 14 => BitVec.ofNat 64 (k.val * 256 + i)
    | 15 => BitVec.ofNat 64 c
    | _ => 0
  { cluster := k, index := fin8 i, lcore := lcore, issued := 0, consumed := 0, ended := false, pc := BitVec.ofNat 64 (ihEntry h),
    xregs := (List.range 32).map regs, fregs := List.replicate 32 0, icache := [], dcache := [] }

/-- Cluster memory at the start: code and data at their addresses, every other byte zero. -/
def startMem (s : State) (p : Fin 8) (h : List Byte) (img : Nat) : Mem :=
  (Mem.empty.writeN (ihTextAddr h) (hbmReadN s p (img + ihTextOff h) (ihTextLen h))).writeN (ihDataAddr h)
    (hbmReadN s p (img + ihDataOff h) (ihDataLen h))

/-- The attempt as it starts. -/
def newAttempt (s : State) (c : Fin 16) (p : Fin 8) (l : LaunchRun) : Attempt :=
  let (h, img) := imageOf s p l
  let k := s.crews[c]
  let on (j : Nat) : Bool := (ihClusters h).testBit j
  let cores := (List.finRange 4).flatMap fun j =>
    ((freeCores s j).take (ihCores h j)).zipIdx.map fun (lc, i) => startCore h l c k.nextAttempt j i lc
  { number := k.nextAttempt, epoch := k.epoch, ucqAddr := ihUcq h, headAddr := ihHead h, ucqLog := ihUcqLog h, entryPc := ihEntry h,
    foot := ihFoot h, mem := (List.range 4).map fun j => if on j then startMem s p h img else Mem.empty, cores := cores,
    start := k.state, ended := false, faulted := false, voteCmd := none, voteOut := false, voted := false, inFlight := 0, fails := [],
    faultPort := 0xFF, flags := 0, widened := false, layers := [], updates := [], pends := [], held := [], named := [], singles := [],
    seeds := [], chkev := [], nchk := 0, pntev := [], npnt := 0, late := [], lateLost := false, reductions := 0, alltoallvs := 0,
    undo := [], tStart := s.now, tVote := 0, user := 0, deterministic := deterministic s p, waits := (stream s l.f l.s).waits }

/-- ATTEMPT_START (R233, R326): while HS is 0, a copy to a stale member runs, or clusters have no room, it waits; a program that
needs more cores than are in service ends its LAUNCH. -/
def execAttemptStart (c : Fin 16) (s : State) : Host.Outcome State Fault Refusal :=
  powered s (
    match s.crews[c].launch, crewOwner s c with
    | some l, some p =>
      let k := s.crews[c]
      if k.fin ≠ .idle || !k.hs || k.rejoin ≠ 0 then s else
      let (h, _) := imageOf s p l
      let on : List (Fin 4) := (List.finRange 4).filter fun j => (ihClusters h).testBit j.val
      if on.any fun j => (s.pointing.clusters[j].map).length < ihCores h j then
        (castReady (endStroke s c { launchRes s c .failed .programFault (k.nextAttempt - 1) with
          d0 := if k.nextAttempt ≤ 1 then 0 else BitVec.ofNat 64 k.lastCard }))
      else if on.any fun j => (freeCores s j).length < ihCores h j || 8388608 < usedFoot s j + ihFoot h then s
      else
        let s := if k.nextAttempt = 1 then leaveCourses s p else s
        let late := on.any fun j => (s.pointing.clusters[j]).late
        let prompt (x : Cluster) : Cluster := { x with late := false }
        let s := if late then { s with now := s.now + 2000, pointing := { s.pointing with clusters := s.pointing.clusters.map prompt } } else s
        let a := newAttempt s c p l
        let st := l.stroke
        let arr := k.earlyArr.filter fun x => x.1 = st && x.2.1 = a.number
        let cut := ((k.earlyCuts.find? fun x => x.1 = st && x.2.1 = a.number).map (·.2.2))
        let s := updCrew s c fun k =>
          { k with
            attempt := some a, fin := .running, decision := none
            cut := ⟨arr.map (·.2.2.1), (arr.getLast?).map (·.2.2.2), cut⟩
            votes := k.votes.filter fun v => st.toNat ≤ v.1.toNat
            earlyArr := k.earlyArr.filter fun x => st.toNat < x.1.toNat || (x.1 = st && a.number < x.2.1)
            earlyCuts := k.earlyCuts.filter fun x => st.toNat < x.1.toNat || (x.1 = st && a.number < x.2.1) }
        (castReady s)
    | _, _ => s)

/-- CORE_ECALL (R233): a core ends; the program ends when every core has. A program that ends without voting, or while a layer is
HELD, faults (R308, R328). -/
def execCoreEcall (w : Who) (s : State) : Host.Outcome State Fault Refusal :=
  powered s (
    match findCore s w with
    | none => s
    | some (c, _, k) =>
      let s := updAttempt s c fun a =>
        { a with cores := a.cores.map fun x => if x.cluster = k.cluster ∧ x.lcore = k.lcore then { x with ended := true } else x }
      match s.crews[c].attempt with
      | none => s
      | some a =>
        if !a.cores.all (·.ended) then s
        else if a.voteCmd.isNone || !a.held.isEmpty then (castReady (programFault s c))
        else (castReady (updAttempt s c fun a => { a with ended := true })))

/-- CORE_TRAP (R230, R233): a trap ends the program with a fault; a load or a store has the effect its address gives it. -/
def execCoreTrap (e : CoreEvent) (s : State) : Host.Outcome State Fault Refusal :=
  powered s (
    match findCore s e.core with
    | none => s
    | some (c, att, k) => coreAct s e.core c att k e.act)

/-! ## The Rigger's issue port (R230, R274, R289, R327) -/

def voteRsv : List (Nat × Nat) := [(511, 192), (127, 80), (31, 12)]

/-- A VOTE as issued (R308, R327, R328). -/
def issueVote (s : State) (c : Fin 16) (w : Cmd) (iss : Issuer) : State :=
  let reject (r : Reason) : State := retireUnit s iss 0x54 (fld w 63 32) 0 (rejected r)
  if rsvSet w voteRsv then reject .reservedSet
  else if fld w 11 8 ≠ c.val || fld w 79 64 > 4095 then reject .badField
  else
    let s := updAttempt s c fun a => { a with voteCmd := some (w, iss) }
    match s.crews[c].attempt with
    | some a => if a.held.isEmpty then s else programFault s c
    | none => s

/-- A store of a control core at the Rigger's issue port. -/
def riggerPort (s : State) (w : Who) (cmd : Cmd) : State :=
  let op := fld cmd 7 0
  castReady (issueStore s w (fun _ _ _ => true) op (fld cmd 63 32) 0 fun s c p iss =>
    if op = 0x54 then issueVote s c cmd iss
    else if op = 0x51 || op = 0x52 || op = 0x53 then issueRigger s c p cmd iss
    else retireUnit s iss op (fld cmd 63 32) 0 (rejected .badOpcode))

/-- VOTE (R328). -/
def execVote (w : Who) (c : Cmd) (s : State) : Host.Outcome State Fault Refusal := powered s (riggerPort s w c)

/-! ## Finish packets (R345) -/

/-- A Finish packet of a stale epoch or a lower term is discarded and counted (R345); one of an UNDEFINED Crew is discarded. -/
def finPacket (s : State) (c : Fin 16) (h : FinHead) (go : State → State) : State :=
  let k := s.crews[c]
  if k.state = .undefined then s
  else if h.epoch ≠ k.epoch || h.term.toNat < k.term.toNat then ctrAdd s 0 (crewIdx c) 0x27 1
  else castReady (go s)

/-- The packet names the attempt that runs. -/
def finCurrent (s : State) (c : Fin 16) (h : FinHead) : Bool :=
  s.crews[c].attempt.isSome && strokeNum s c = h.stroke && attNum s c = h.attempt.toNat

/-- It names one this member has not started yet. -/
def finFuture (s : State) (c : Fin 16) (h : FinHead) : Bool :=
  if s.crews[c].launch.isSome then (strokeNum s c).toNat < h.stroke.toNat || (strokeNum s c = h.stroke && attNum s c < h.attempt.toNat)
  else s.crews[c].lastFinished.toNat < h.stroke.toNat

/-- VOTE_PACKET (R330): a vote of a member of the group this member combines. -/
def execVotePacket (c : Fin 16) (h : FinHead) (b : VoteBody) (s : State) : Host.Outcome State Fault Refusal :=
  powered s (finPacket s c h fun s =>
    let g := crewG s c
    let me := myRank s c
    let mine := (levelsIn g).contains b.level && (peersAt g me b.level).contains b.sender &&
      ((levelsIn g).filter (· ≤ b.level)).all fun l => digit g me l = 0
    let there := s.crews[c].votes.any fun v => v.1 = h.stroke && v.2.1 = h.attempt.toNat && v.2.2.level = b.level && v.2.2.sender = b.sender
    if !mine || there || !(finCurrent s c h || finFuture s c h) then s else
    let s := updCrew (noteHeard s c b.sender) c fun k => { k with votes := k.votes ++ [(h.stroke, h.attempt.toNat, b)] }
    if finCurrent s c h then voteUp s c else s)

/-- ARRIVED (R338, R340). -/
def execArrived (c : Fin 16) (h : FinHead) (rank : Nat) (red : Nat) (s : State) : Host.Outcome State Fault Refusal :=
  powered s (finPacket s c h fun s =>
    if !(group0 s c).contains rank || leader0 s c ≠ myRank s c || red ≠ 1 then s else
    let s := noteHeard s c rank
    if finCurrent s c h then noteArrived s c rank
    else if finFuture s c h then
      updCrew s c fun k => { k with earlyArr := (h.stroke, h.attempt.toNat, rank, s.now) :: k.earlyArr }
    else s)

/-- STRAGGLER_DEADLINE (R338): the leader cuts the members that have not arrived. -/
def execStragglerDeadline (c : Fin 16) (s : State) : Host.Outcome State Fault Refusal :=
  powered s (
    let k := s.crews[c]
    let pol := stragglerPolicy s c
    match k.cut.first, k.attempt with
    | some t, some _ =>
      if k.cut.entries.isSome || leader0 s c ≠ myRank s c || pol = 0 || (replayEntries s c).isSome then s else
      let s := reach s (t + BitVec.ofNat 64 (1000 * objNat s 0 (crewIdx c) 0x32 5000))
      let es := ((group0 s c).filter fun r => !k.cut.arrived.contains r).map fun r => lateEntry pol r 0 0
      (castReady (sendCut s c es))
    | _, _ => s)

/-- CUT (R338). -/
def execCut (c : Fin 16) (h : FinHead) (leader : Nat) (entries : List (BitVec 128)) (s : State) : Host.Outcome State Fault Refusal :=
  powered s (finPacket s c h fun s =>
    if leader ≠ leader0 s c || leader = myRank s c then s else
    let s := noteHeard s c leader
    if finCurrent s c h then (if s.crews[c].cut.entries.isSome then s else setCut s c entries)
    else if finFuture s c h then updCrew s c fun k => { k with earlyCuts := (h.stroke, h.attempt.toNat, entries) :: k.earlyCuts }
    else s)

/-- A decision as LOG and LOGACK carry it, with the entries this member knows. -/
def logDecision (s : State) (c : Fin 16) (h : FinHead) (decision cause : Byte) (incl : BitVec 64) : Decision :=
  { mkDecision s c h.stroke h.attempt.toNat decision.toNat cause.toNat 0 0xFFFFFFFF (s.crews[c].cut.entries.getD []) with
    term := h.term, incl := incl }

/-- Stage 3 of R334 at rank 0, once it holds rank 1's log entry of the attempt (decision 0: none): the entry wins, or ABORT is
decided in a new term. -/
def stage3 (s : State) (c : Fin 16) (d : Decision) : State :=
  if s.crews[c].decisions.any fun x => x.stroke = d.stroke && x.attempt = d.attempt then s
  else if d.decision ≠ 0 then takeDecision (logDec s c d) c d none
  else
    let s := updCrew s c fun k => { k with term := nextTerm k }
    replicate s c (mkDecision s c d.stroke d.attempt 2 0x0A 0 0xFFFFFFFF [])

/-- LOG (R333): rank 1 logs rank 0's decision and answers; at rank 0 it is rank 1's half of the log exchange (R334). -/
def execLog (c : Fin 16) (h : FinHead) (decision : Byte) (cause : Byte) (incl : BitVec 64) (s : State) : Host.Outcome State Fault Refusal :=
  powered s (finPacket s c h fun s =>
    let d := logDecision s c h decision cause incl
    if myRank s c = 1 && decision ≠ 0 then
      let s := logDec (updCrew (noteHeard s c 0) c fun k => { k with term := h.term, logged := some d }) c d
      sendFin s c 0 0x23 h.stroke.toNat h.attempt.toNat h.term.toNat ([decision, cause] ++ leBytes 2 0 ++ wordBytes incl)
    else if myRank s c = 0 && s.crews[c].state = .recovering && s.crews[c].hellos.contains 1 then stage3 (noteHeard s c 1) c d
    else s)

/-- LOGACK (R333): only now rank 0 announces and acts on the decision. -/
def execLogack (c : Fin 16) (h : FinHead) (decision : Byte) (cause : Byte) (incl : BitVec 64) (s : State) : Host.Outcome State Fault Refusal :=
  powered s (finPacket s c h fun s =>
    match s.crews[c].logged with
    | some d =>
      if myRank s c = 0 && d.stroke = h.stroke && d.attempt = h.attempt.toNat && d.term = h.term && d.decision = decision.toNat &&
          d.cause = cause.toNat && d.incl = incl then
        takeDecision (updCrew (noteHeard s c 1) c fun k => { k with logged := none }) c d none
      else s
    | none => s)

/-- The decision of a DECIDE or RESOLVE. -/
def bodyDecision (h : FinHead) (b : DecBody) (now : U64) : Decision :=
  { stroke := h.stroke, attempt := h.attempt.toNat, decision := b.decision.toNat, cause := b.cause.toNat, term := h.term, incl := b.incl,
    included := b.included, upd := b.upd, faultRank := b.faultRank, entries := b.entries, time := now }

/-- DECIDE (R333, R494). -/
def execDecide (c : Fin 16) (h : FinHead) (b : DecBody) (s : State) : Host.Outcome State Fault Refusal :=
  powered s (finPacket s c h fun s => if b.decision = 0 then s else takeDecision s c (bodyDecision h b s.now) none)

/-- The combiner a member's vote goes to (R330). -/
def combinerOf (s : State) (c : Fin 16) : Option Nat :=
  let g := crewG s c
  let me := myRank s c
  ((levelsIn g).find? fun l => digit g me l ≠ 0).map fun l => atPos g me l 0

def heldDecision (s : State) (c : Fin 16) (stroke : BitVec 48) (att : Nat) : Option Decision :=
  s.crews[c].decisions.find? fun x => x.stroke = stroke && x.attempt = att

/-- QUERY (R333): answered with DECIDE, or asked upward. -/
def execQuery (c : Fin 16) (h : FinHead) (src : Nat) (s : State) : Host.Outcome State Fault Refusal :=
  powered s (finPacket s c h fun s =>
    let s := noteHeard s c src
    match heldDecision s c h.stroke h.attempt.toNat, combinerOf s c with
    | some d, _ => sendDec s c 0x24 d src
    | none, some r => sendFin s c r 0x25 h.stroke.toNat h.attempt.toNat s.crews[c].term.toNat (leBytes 4 (myRank s c))
    | none, none => s)

/-- QUERY_TIMER (R333): 1 ms after its vote a member without a decision asks its combiner. -/
def execQueryTimer (c : Fin 16) (s : State) : Host.Outcome State Fault Refusal :=
  powered s (
    match s.crews[c].attempt, combinerOf s c with
    | some a, some r =>
      if s.crews[c].fin ≠ .voting then s else
      let s := reach s (a.tVote + 1000000)
      (sendFinNow s c r 0x25 (leBytes 4 (myRank s c)))
    | _, _ => s)

/-- RESOLVE (R334, R494): a decision is taken; to one that holds none, the decision held is sent. Rank 0 decides an attempt that
neither it nor rank 1 runs. -/
def execResolve (c : Fin 16) (h : FinHead) (src : Nat) (b : DecBody) (s : State) : Host.Outcome State Fault Refusal :=
  powered s (finPacket s c h fun s =>
    let s := noteHeard s c src
    if b.decision ≠ 0 then takeDecision s c (bodyDecision h b s.now) (peerLevel s c src) else
    match heldDecision s c h.stroke h.attempt.toNat with
    | some d => sendDec s c 0x26 d src
    | none =>
      let k := s.crews[c]
      if myRank s c = 0 && k.state = .recovering && (k.hellos.contains 1 || crewP s c = 1) && k.logged.isNone && !finCurrent s c h then
        stage3 s c { bodyDecision h b s.now with decision := 0 }
      else s)

/-- Rank 1 spreads a decision it takes over: by RESOLVE, and by DECIDE where it decided it itself (R335). -/
def takeOver (s : State) (c : Fin 16) : State :=
  let st := strokeNum s c
  let n := attNum s c
  let s := updCrew s c fun k => { k with tookOver := true }
  match logEntryOf s c st n with
  | some e =>
    let known := match s.crews[c].logged with | some d => if d.stroke = st && d.attempt = n then some d else none | none => none
    let d := known.getD { mkDecision s c st n e.decision e.cause 0 0xFFFFFFFF (s.crews[c].cut.entries.getD []) with term := e.term }
    let (s, new) := holdDecision s c d
    if new then spreadDec s c d none else s
  | none =>
    let s := updCrew s c fun k => { k with term := nextTerm k }
    takeDecision s c (mkDecision s c st n 2 0x0A 0 0xFFFFFFFF []) none

/-- BACKUP_TAKEOVER (R335): rank 1 has heard nothing of the current epoch from rank 0 for the silence limit. -/
def execBackupTakeover (c : Fin 16) (s : State) : Host.Outcome State Fault Refusal :=
  powered s (
    let k := s.crews[c]
    if k.state ≠ .recovering || k.fin ≠ .unresolved || crewP s c < 2 || myRank s c ≠ 1 then s else
    let last := if k.hellos.contains 0 then max k.since.toNat (assocGet k.heard 0 0).toNat else k.since.toNat
    let s := reach s (BitVec.ofNat 64 (last + 1000 * silenceLimit s c))
    (castReady (takeOver s c)))

/-! ## Rejoin (R344, R351) -/

def layerCount (s : State) (p : Fin 8) : Nat := objNat s 0 0x7300 (0x11 + p) 0

/-- Layer k's descriptor (R299). -/
def layerDesc (s : State) (p : Fin 8) (k : Nat) : BitVec 1024 :=
  BitVec.ofNat 1024 (ofLe (hbmReadN s p (objNat s 0 0x7300 (1 + p) 0 + 128 * k) 128))

/-- The member's committed Stroke is the Crew's again: a LAUNCH of a Stroke the Crew has finished retires. -/
def rejoined (s : State) (c : Fin 16) (stroke : BitVec 48) : State :=
  let s := updCrew s c fun k => { k with rejoin := 0, copyNext := 0, rejoined := true, lastFinished := stroke }
  let s := match s.crews[c].launch with
    | some l => if l.stroke.toNat ≤ stroke.toNat then endStroke s c (launchRes s c .ok .none (s.crews[c].nextAttempt - 1)) else s
    | none => s
  checkHs s c

/-- A copy from a replica is complete (R344): the last Stroke the Crew is known to have finished is the member's. -/
def copyEnds (s : State) (c : Fin 16) : State :=
  let fs := (s.crews[c].decisions.filter fun x => x.decision = 1).map fun x => x.stroke.toNat
  rejoined s c (BitVec.ofNat 48 (fs.foldl max s.crews[c].lastFinished.toNat))

/-- REJOIN_COPY (R344): the active slots and the record of the next layer, or the end of the copy on another descriptor, between two
attempts; a partition without layers has nothing to copy. -/
def execRejoinCopy (c : Fin 16) (layer : Nat) (desc : BitVec 1024) (params : List Byte) (state : List Byte) (rec_ : BitVec 512) (s : State) :
    Host.Outcome State Fault Refusal :=
  powered s (
    match crewOwner s c with
    | none => s
    | some p =>
      let k := s.crews[c]
      if k.rejoin ≠ 1 || k.attempt.isSome || layer ≠ k.copyNext then s
      else if layerCount s p ≤ layer then copyEnds s c else
      let d := layerDesc s p layer
      if ldRule d ≠ ldRule desc || ldRows d ≠ ldRows desc || ldCols d ≠ ldCols desc || ldPfmt d ≠ ldPfmt desc then
        (updCrew s c fun k => { k with rejoin := 2 })
      else
        let act := activeSlot (layerRec s p layer)
        let s := hbmWriteN s p (paramSlot d act) params
        let s := hbmWriteN s p (stateSlot d act) state
        let s := setLayerRec s p layer (BitVec.ofNat 512 (rec_.toNat / 2 * 2 + if act then 1 else 0))
        let s := updCrew s c fun k => { k with copyNext := layer + 1 }
        if layer + 1 < layerCount s p then s else copyEnds s c)

/-- A layer state load (R351, R355): the Stroke number and the records; the abort code where it is not accepted. -/
def loadLayers (s : State) (c : Fin 16) (data : List Byte) : State × Option Nat :=
  match crewOwner s c with
  | none => (s, some 0x0202)
  | some p =>
    let k := s.crews[c]
    if !(k.rejoin = 2 || ((k.state = .forming || k.state = .test) && !strokeRuns s c)) then (s, some 0x0202)
    else if data.length ≠ 8 + 64 * layerCount s p then (s, some 0x0203)
    else
      let s := (List.range (layerCount s p)).foldl (fun s i => setLayerRec s p i (BitVec.ofNat 512 (leAt data (8 + 64 * i) 64))) s
      let stroke := BitVec.ofNat 48 (leAt data 0 8)
      (if k.rejoin = 2 then rejoined s c stroke else updCrew s c fun k => { k with lastFinished := stroke }, none)

end Sys2Proof.Machine
end

