-- ==== Sys2Proof/Machine/Layers.lean ====
section
/-! DEFINITION. Layers of the Cox (R299, R300, R303): the parts of a state slot, and the records an EXPORT writes (R354). -/

namespace Sys2Proof.Machine

open Sys2Proof

/-! ## State slots (R300) -/

/-- Up to the next 64-byte boundary. -/
def up64 (n : Nat) : Nat := (n + 63) / 64 * 64

def ldBeta1 (d : BitVec 1024) : BitVec 32 := BitVec.ofNat 32 (fld d 703 672)

/-- Blocks of a Kronecker layer, row-major: first row and column, rows and columns. -/
def kronBlocks (d : BitVec 1024) : List (Nat × Nat × Nat × Nat) :=
  let b := 2 ^ fld d 231 228
  let nr := (ldRows d + b - 1) / b
  let nc := (ldCols d + b - 1) / b
  (List.range nr).flatMap fun i => (List.range nc).map fun j => (i * b, j * b, min b (ldRows d - i * b), min b (ldCols d - j * b))

/-- Lengths of the parts of a dense layer's state slot, in order. -/
def denseParts (d : BitVec 1024) : List Nat :=
  let n := ldRows d * ldCols d
  match ldRule d with
  | 0 | 4 => [4 * n]
  | 1 | 2 => [4 * n, 4 * n]
  | 3 => (if ldBeta1 d = 0 then [] else [4 * n]) ++ [4 * ldRows d, 4 * ldCols d]
  | _ => [4 * n, 4 * n] ++ (kronBlocks d).flatMap fun (_, _, r, c) => [4 * r * r, 4 * c * c, 4 * r * r, 4 * c * c]

/-- Parts of one embedding row's state: the rule's state and the row record (R319). -/
def rowParts (d : BitVec 1024) : List Nat := (if ldRule d = 1 then [4 * ldCols d, 4 * ldCols d] else [4 * ldCols d]) ++ [16]

/-- Offsets of parts that each start on a 64-byte boundary. -/
def partOffs : Nat → List Nat → List Nat
  | _, [] => []
  | o, n :: ns => o :: partOffs (up64 (o + n)) ns

/-- End of parts. -/
def partsEnd (ns : List Nat) : Nat := ((partOffs 0 ns).getLast?.getD 0) + (ns.getLast?.getD 0)

/-- Bytes from one embedding row's state to the next. -/
def rowStride (d : BitVec 1024) : Nat := up64 (partsEnd (rowParts d))

/-- Bytes of a state slot. -/
def stateBytes (d : BitVec 1024) : Nat :=
  if ldEmbed d then (if ldRows d = 0 then 0 else (ldRows d - 1) * rowStride d + partsEnd (rowParts d)) else partsEnd (denseParts d)

/-! ## EXPORT (R354) -/

/-- Bytes padded with zeros to 64. -/
def pad64 (b : List Byte) : List Byte := b ++ List.replicate (up64 b.length - b.length) 0

/-- Bytes of one layer record. -/
def exportLen (d : BitVec 1024) : Nat := 64 + up64 (paramBytes d) + up64 (stateBytes d)

/-- A layer record: header, parameter slot, state slot. -/
def exportLayer (s : State) (p : Fin 8) (stroke : Nat) (k : Nat) (d : BitVec 1024) (r : BitVec 512) : List Byte :=
  let x := activeSlot r
  let head := leBytes 4 k ++ leBytes 1 (ldRule d) ++ leBytes 1 (ldPfmt d) ++ leBytes 2 0 ++ leBytes 4 (ldRows d) ++ leBytes 4 (ldCols d) ++
    leBytes 8 stroke ++ leBytes 8 (paramBytes d) ++ leBytes 8 (stateBytes d) ++ leBytes 8 (fld r 383 320) ++ leBytes 4 (fld r 191 160) ++
    List.replicate 12 0
  head ++ pad64 (hbmReadN s p (paramSlot d x) (paramBytes d)) ++ pad64 (hbmReadN s p (stateSlot d x) (stateBytes d))

/-- The whole export. -/
def exportBytes (s : State) (p : Fin 8) (x : ExportRun) : List Byte :=
  x.layers.flatMap fun (k, d, r) => exportLayer s p x.stroke.toNat k d r

/-- A layer is pinned by the Crew's EXPORT against updates of Stroke N + 2 (R353). -/
def layerPinned (k : Crew) (stroke : BitVec 48) (layer : Nat) : Bool :=
  match k.exporting with
  | some x => stroke = x.stroke + 2 && x.layers.any fun y => y.1 = layer
  | none => false

end Sys2Proof.Machine
end

