-- ==== Sys2Proof/Machine/CoxRules.lean ====
section
/-! DEFINITION. The arithmetic of the Cox (13): binary32 steps with their flags, binary64 scalars, and the update rules R310, R316,
R317, R318 on lists of elements. -/

namespace Sys2Proof.Machine

open Sys2Proof

/-! ## Steps (R298): a binary32 code with the flags of every step it was made by -/

abbrev FV := BitVec 32 × FlagByte

def fvFma (a b c : FV) : FV := let (r, f) := fma32 false a.1 b.1 c.1; (r, a.2 ||| b.2 ||| c.2 ||| f)
def fvMul (a b : FV) : FV := let (r, f) := mul32 false a.1 b.1; (r, a.2 ||| b.2 ||| f)
def fvAdd (a b : FV) : FV := let (r, f) := add32 false a.1 b.1; (r, a.2 ||| b.2 ||| f)
def fvNeg (a : FV) : FV := (a.1 ^^^ 0x80000000, a.2)
def fvSub (a b : FV) : FV := fvAdd a (fvNeg b)
def fvDiv (a b : FV) : FV := let (r, f) := divTo .fp32 false (of32 false a.1) (of32 false b.1); (BitVec.ofNat 32 r, a.2 ||| b.2 ||| f)
def fvSqrt (a : FV) : FV := let (r, f) := sqrtTo .fp32 false (of32 false a.1); (BitVec.ofNat 32 r, a.2 ||| f)
def fvMax (a b : FV) : FV := let (r, f) := maxMin false true (of32 false a.1) (of32 false b.1); (r, a.2 ||| b.2 ||| f)
/-- A small natural number as binary32. -/
def fvNat (k : Nat) : FV := to32 false (natV k)
/-- a < b; false where either is a NaN. -/
def fvLt (a b : FV) : Bool := let x := of32 false a.1; let y := of32 false b.1; !isNaN x && !isNaN y && ltV x y

/-- The SUM tree of R108, and the SUMSQ tree. -/
def fvTree (l : List FV) : FV := (treeReduce fvAdd l.length l).getD (0, 0)
def fvSumsq (l : List FV) : FV := fvTree (l.map fun x => fvMul x x)

/-- The flags of a list of steps. -/
def fvFlags (l : List FV) : FlagByte := orFlags (l.map (·.2))

/-- Codes without flags. -/
def fv0 (l : List (BitVec 32)) : List FV := l.map fun x => (x, 0)

/-! ## Scalars in binary64, rounded once (R298) -/

abbrev DV := Val × FlagByte

/-- A value rounded to binary64 by RNE; a tiny result is written as zero (R42, R48). -/
def round64 (v : Val) (sticky : Bool) : DV :=
  match v with
  | .fin n m e =>
    if m = 0 then (.fin n 0 0, 0) else
    let q := e + topBit m - 52
    let (k, ix) := roundAt .rne m e sticky q
    let ex := q + topBit k
    if ex < -1022 then (.fin n 0 0, fUF ||| fNX) else if ex > 1023 then (.inf n, fOF ||| fNX) else (.fin n k q, if ix then fNX else 0)
  | v => (v, 0)

def dvAdd (a b : DV) : DV := let (v, f) := addV a.1 b.1; let (r, g) := round64 v false; (r, a.2 ||| b.2 ||| f ||| g)
def dvMul (a b : DV) : DV := let (v, f) := mulV a.1 b.1; let (r, g) := round64 v false; (r, a.2 ||| b.2 ||| f ||| g)
def dvNeg (a : DV) : DV := (negV a.1, a.2)
def dvDiv (a b : DV) : DV :=
  let fl := a.2 ||| b.2
  if isNaN a.1 || isNaN b.1 then (firstNaN [a.1, b.1], fl ||| snanFlags [a.1, b.1]) else
  let n := signOf a.1 != signOf b.1
  match a.1, b.1 with
  | .inf _, .inf _ => (vNaN, fl ||| fNV)
  | .inf _, _ => (.inf n, fl)
  | _, .inf _ => (.fin n 0 0, fl)
  | .fin _ m e, .fin _ m' e' =>
    if m' = 0 then (if m = 0 then (vNaN, fl ||| fNV) else (.inf n, fl ||| fDZ)) else
    if m = 0 then (.fin n 0 0, fl) else
    let (k, q, st) := quot m e m' e'
    let (r, g) := round64 (.fin n k q) st
    (r, fl ||| g)
  | _, _ => (vNaN, fl)
def dvSqrt (a : DV) : DV :=
  match a.1 with
  | .nan _ _ _ => (firstNaN [a.1], a.2 ||| snanFlags [a.1])
  | .inf n => if n then (vNaN, a.2 ||| fNV) else (a.1, a.2)
  | .fin n m e =>
    if m = 0 then a else if n then (vNaN, a.2 ||| fNV) else
    let (k, q, st) := root m e
    let (r, g) := round64 (.fin false k q) st
    (r, a.2 ||| g)
/-- Rounded once to binary32. -/
def dvTo32 (a : DV) : FV := let (c, f) := to32 false a.1; (c, a.2 ||| f)
def dvOf (x : BitVec 32) : DV := (of32 false x, 0)
def dvOne : DV := (natV 1, 0)

/-- Trailing zeros of a positive number, `f` at most. -/
def stripZeros : Nat → Nat → Nat × Nat
  | 0, m => (m, 0)
  | f + 1, m => if m % 2 = 0 then let (k, z) := stripZeros f (m / 2); (k, z + 1) else (m, 0)

/-- base^t, t at least 1 (R298): exact where binary64 can represent it, else a value the spec does not state (log 25). -/
def dvPow (b : DV) (t : Nat) : DV :=
  match b.1 with
  | .nan _ _ _ => (firstNaN [b.1], b.2 ||| snanFlags [b.1])
  | .inf n => (.inf (n && t % 2 = 1), b.2)
  | .fin n m e =>
    let sg := n && t % 2 = 1
    if m = 0 then (.fin sg 0 0, b.2) else
    let (k, z) := stripZeros 64 m
    let ex := (e + z) * t
    let exact := decide (k = 1 ∨ (t * topBit k < 53 ∧ k ^ (min t 53) < 2 ^ 53))
    if exact then let (r, g) := round64 (.fin sg (if k = 1 then 1 else k ^ (min t 53)) ex) false; (r, b.2 ||| g) else
    let v := dec64 (Config.pow64 (BitVec.ofNat 64 (enc64 false b.1)) t).toNat
    (v, b.2 ||| (match v with | .inf _ => fOF ||| fNX | .fin _ 0 _ => fUF ||| fNX | _ => fNX))

/-- bc1 and bc2s of R310. -/
def biasCorr (beta : BitVec 32) (t : Nat) : FV := dvTo32 (dvDiv dvOne (dvAdd dvOne (dvNeg (dvPow (dvOf beta) t))))
def biasCorrRoot (beta : BitVec 32) (t : Nat) : FV := dvTo32 (dvDiv dvOne (dvSqrt (dvAdd dvOne (dvNeg (dvPow (dvOf beta) t)))))

/-- f of R319: (1 − ηλ)^e. -/
def decayFactor (eta lambda : BitVec 32) (e : Nat) : FV := dvTo32 (dvPow (dvAdd dvOne (dvNeg (dvMul (dvOf eta) (dvOf lambda)))) e)

/-- The quotient of two norms: sqrt(x) ÷ sqrt(y), x and y sums of squares; 1 where either is 0 or not finite (R310). -/
def trustRatio (x y : FV) : FV :=
  let bad (v : FV) : Bool := let w := of32 false v.1; isZero w || !isFin w
  if bad x || bad y then ((fvNat 1).1, x.2 ||| y.2) else dvTo32 (dvDiv (dvSqrt (of32 false x.1, x.2)) (dvSqrt (of32 false y.1, y.2)))

/-- sigma of R316: sqrt(max(1, NROWS ÷ NCOLS)). -/
def shapeFactor (rows cols : Nat) : FV :=
  if rows ≤ cols then fvNat 1 else dvTo32 (dvSqrt (dvDiv (natV rows, 0) (natV cols, 0)))

/-! ## Descriptor fields (R299) -/

def ldF (d : BitVec 1024) (lo : Nat) : BitVec 32 := BitVec.ofNat 32 (fld d (lo + 31) lo)
def ldBeta2 (d : BitVec 1024) : BitVec 32 := ldF d 704
def ldEps (d : BitVec 1024) : BitVec 32 := ldF d 736
def ldLambda (d : BitVec 1024) : BitVec 32 := ldF d 768
def ldHp1 (d : BitVec 1024) : BitVec 32 := ldF d 800
def ldHp2 (d : BitVec 1024) : BitVec 32 := ldF d 832
def ldHp3 (d : BitVec 1024) : BitVec 32 := ldF d 864
def ldEpsPc (d : BitVec 1024) : BitVec 32 := ldF d 896
def ldTol (d : BitVec 1024) : BitVec 32 := ldF d 928
def ldWork (d : BitVec 1024) : Nat := fld d 639 576
def ldPeriod (d : BitVec 1024) : Nat := fld d 255 240
def ldIters (d : BitVec 1024) : Nat := fld d 239 232
def ldBlkl (d : BitVec 1024) : Nat := fld d 231 228

/-- A coefficient of the orthogonalised rule; 0 takes its default (R302). -/
def coeff (x dflt : BitVec 32) : FV := (if x = 0 then dflt else x, 0)

/-! ## Elementwise rules (R310) -/

/-- 1 − x. -/
def oneMinus (x : BitVec 32) : FV := fvSub (fvNat 1) (x, 0)

def momentum (beta : BitVec 32) (m : FV) (g : FV) : FV := fvFma (beta, 0) m g
def adamM (d : BitVec 1024) (m g : FV) : FV := fvFma (ldBeta1 d, 0) m (fvMul (oneMinus (ldBeta1 d)) g)
def adamV (d : BitVec 1024) (v g : FV) : FV := fvFma (ldBeta2 d, 0) v (fvMul (oneMinus (ldBeta2 d)) (fvMul g g))
def adamA (d : BitVec 1024) (t : Nat) (m' v' : FV) : FV :=
  fvDiv (fvMul m' (biasCorr (ldBeta1 d) t)) (fvFma (fvSqrt v') (biasCorrRoot (ldBeta2 d) t) (ldEps d, 0))

/-- r = fma(λ, p, x). -/
def decayed (d : BitVec 1024) (p x : FV) : FV := fvFma (ldLambda d, 0) p x
/-- p' = fma(−η, r, p). -/
def stepP (eta p r : FV) : FV := fvFma (fvNeg eta) r p

/-- One element of SGD-M or AdamW: p', and the state values written, in the order of R300. -/
def elemRule (d : BitVec 1024) (c eta : BitVec 32) (t : Nat) (g0 p m v : BitVec 32) : FV × List FV :=
  let g := fvMul (c, 0) (g0, 0)
  if ldRule d = 0 then
    let m' := momentum (ldBeta1 d) (m, 0) g
    (stepP (eta, 0) (p, 0) (decayed d (p, 0) m'), [m'])
  else
    let m' := adamM d (m, 0) g
    let v' := adamV d (v, 0) g
    (stepP (eta, 0) (p, 0) (decayed d (p, 0) (adamA d t m' v')), [m', v'])

/-- LAMB on a whole layer (R310): p', m', v', and the flags of its two norms and its ratio. -/
def lambRule (d : BitVec 1024) (c eta : BitVec 32) (t : Nat) (gs ps ms vs : List (BitVec 32)) : List FV × List FV × List FV × FlagByte :=
  let g := (fv0 gs).map (fvMul (c, 0))
  let m' := (fv0 ms).zipWith (adamM d) g
  let v' := (fv0 vs).zipWith (adamV d) g
  let r := ((fv0 ps).zip (m'.zip v')).map fun (p, m, v) => decayed d p (adamA d t m v)
  let phi := trustRatio (fvSumsq (fv0 ps)) (fvSumsq (fv0 (r.map (·.1))))
  let e := fvMul (eta, 0) phi
  ((fv0 ps).zipWith (stepP (e.1, 0)) r, m', v', e.2)

/-- The mean of a SUM tree: one division by the count (R318). -/
def fvMean (x : FV) (n : Nat) : FV := fvDiv x (fvNat n)

/-- The factored rule on a whole layer (R318): p', m' (empty where β₁ is 0), row and column statistics. -/
def factoredRule (d : BitVec 1024) (c eta : BitVec 32) (gs ps ms rv cv : List (BitVec 32)) : List FV × List FV × List FV × List FV :=
  let R := ldRows d
  let C := ldCols d
  let g := (fv0 gs).map (fvMul (c, 0))
  let q := g.map fun x => fvFma x x (ldHp1 d, 0)
  let ob2 := oneMinus (ldBeta2 d)
  let stat (old mean : FV) : FV := fvFma (ldBeta2 d, 0) old (fvMul ob2 mean)
  let row (i : Nat) : List FV := (q.drop (i * C)).take C
  let col (j : Nat) : List FV := (List.range R).map fun i => q.getD (i * C + j) (0, 0)
  let rv' := (fv0 rv).zipWith stat ((List.range R).map fun i => fvMean (fvTree (row i)) C)
  let cv' := (fv0 cv).zipWith stat ((List.range C).map fun j => fvMean (fvTree (col j)) R)
  let rbar := fvMean (fvTree rv') R
  let u := g.zipIdx.map fun (x, k) => fvDiv x (fvSqrt (fvDiv (fvMul (rv'.getD (k / C) (0, 0)) (cv'.getD (k % C) (0, 0))) rbar))
  let kappa := fvMax (fvNat 1) (fvDiv (fvSqrt (fvMean (fvSumsq u) (R * C))) (ldHp2 d, 0))
  let u := u.map fun x => fvDiv x kappa
  let m' := if ldBeta1 d = 0 then [] else (fv0 ms).zipWith (fun m x => fvFma (ldBeta1 d, 0) m (fvMul (oneMinus (ldBeta1 d)) x)) u
  let x := if ldBeta1 d = 0 then u else m'
  (((fv0 ps).zip x).map fun (p, x) => stepP (eta, 0) p (decayed d p x), m', rv', cv')

/-! ## Orthogonalised momentum (R316) -/

/-- The first X: the shorter side first, divided by the norm. -/
def orthoStart (d : BitVec 1024) (m' : List FV) : List FV :=
  let R := ldRows d
  let C := ldCols d
  let z := fvAdd (fvSqrt (fvSumsq m')) (ldEps d, 0)
  let x := m'.map fun v => fvDiv v z
  if R ≤ C then x else (List.range (R * C)).map fun k => x.getD (k % R * C + k / R) (0, 0)

/-- B = fma(b, A, c × (A A)). -/
def orthoB (d : BitVec 1024) (a aa : List (BitVec 32)) : List FV :=
  (fv0 a).zipWith (fun x y => fvFma (coeff (ldHp2 d) 0xBFA00000) x (fvMul (coeff (ldHp3 d) 0x3EC00000) y)) (fv0 aa)

/-- X = fma(a, X, B X). -/
def orthoX (d : BitVec 1024) (x bx : List (BitVec 32)) : List FV :=
  (fv0 x).zipWith (fun x y => fvFma (coeff (ldHp1 d) 0x3FF00000) x y) (fv0 bx)

/-- p' from the last X, transposed back. -/
def orthoEnd (d : BitVec 1024) (eta : BitVec 32) (ps x : List (BitVec 32)) : List FV :=
  let R := ldRows d
  let C := ldCols d
  let sg := shapeFactor R C
  ps.zipIdx.map fun (p, k) =>
    let xi := x.getD (if R ≤ C then k else k % C * R + k / C) 0
    stepP (eta, 0) (p, 0) (decayed d (p, 0) (fvMul sg (xi, 0)))

/-! ## The Kronecker preconditioner (R317) -/

/-- L' = fma(β_pc, L, (1 − β_pc) × G Gᵀ). -/
def precondUpd (d : BitVec 1024) (old prod : List (BitVec 32)) : List FV :=
  (fv0 old).zipWith (fun l g => fvFma (ldHp1 d, 0) l (fvMul (oneMinus (ldHp1 d)) g)) (fv0 prod)

/-- A = S + EPSPC × I. -/
def shifted (d : BitVec 1024) (n : Nat) (l : List (BitVec 32)) : List FV :=
  (fv0 l).zipIdx.map fun (x, k) => if k / n = k % n then fvAdd x (ldEpsPc d, 0) else x

/-- One column of the Cholesky factor before its division: entries j to n − 1, products of earlier columns taken off in order. -/
def cholCol (n : Nat) (a : List FV) (cols : List (List FV)) (j : Nat) : List FV :=
  (List.range (n - j)).map fun k =>
    cols.zipIdx.foldl (fun acc (col, i) => fvFma (fvNeg (col.getD (j - i) (0, 0))) (col.getD (j + k - i) (0, 0)) acc)
      (a.getD ((j + k) * n + j) (0, 0))

/-- The factorisation meets a pivot below the threshold; and the flags of its steps. -/
def choleskyHeld (n : Nat) (a : List FV) (thr : FV) : Bool × FlagByte :=
  let r := (List.range n).foldl (fun (acc : List (List FV) × Bool × FlagByte) j =>
    if acc.2.1 then acc else
    let col := cholCol n a acc.1 j
    let fl := acc.2.2 ||| fvFlags col
    let p := col.headD (0, 0)
    if fvLt p thr then (acc.1, true, fl) else
    let l := fvSqrt p
    let col' := l :: (col.drop 1).map fun x => fvDiv x l
    (acc.1 ++ [col'], false, fl ||| fvFlags col')) ([], false, 0)
  (r.2.1, r.2.2 ||| thr.2)

/-- z^(-1/4), whose rounding the rule does not give: a free one of the two binary32 values around the exact one, which is that value itself
where it is one (R317; log 45). -/
def quarterRoot (z : FV) : FV :=
  let r := fvDiv (fvNat 1) (fvSqrt (fvSqrt z))
  let y := Config.approx 0x104 false z.1 0
  let p4z (b : BitVec 32) : Val := let v := of32 false b; let v2 := (mulV v v).1; (mulV (mulV v2 v2).1 (of32 false z.1)).1
  let one := of32 false (fvNat 1).1
  let near := 0 < y.toNat && y.toNat < 0x7F7FFFFF && ltV (p4z (y - 1)) one && ltV one (p4z (y + 1))
  if near && isFin (of32 false z.1) then (y, r.2) else r

/-- The start of a root computation: none where a pivot holds it back; else X and M, with the flags. -/
def rootStart (d : BitVec 1024) (n : Nat) (l : List (BitVec 32)) : Option (List FV × List FV) × FlagByte :=
  let a := shifted d n l
  let trace := fvTree ((List.range n).map fun i => a.getD (i * n + i) (0, 0))
  let thr := fvDiv (fvMul (ldEpsPc d, 0) trace) (fvNat n)
  let (held, fl) := choleskyHeld n a thr
  if held then (none, fl ||| fvFlags a) else
  let z := fvSqrt (fvSumsq a)
  let y := quarterRoot z
  let x := (List.range (n * n)).map fun k => if k / n = k % n then y else (0, 0)
  let m := a.map fun v => fvDiv v z
  (some (x, m), fl ||| fvFlags m ||| y.2)

/-- T = (5 I − M) / 4. -/
def rootT (n : Nat) (m : List (BitVec 32)) : List FV :=
  (fv0 m).zipIdx.map fun (x, k) => fvDiv (fvSub (if k / n = k % n then fvNat 5 else (0, 0)) x) (fvNat 4)

/-- sqrt(SUMSQ of (M − I)) ≤ TOL. -/
def rootDone (d : BitVec 1024) (n : Nat) (m : List (BitVec 32)) : Bool × FlagByte :=
  let z := fvSqrt (fvSumsq ((fv0 m).zipIdx.map fun (x, k) => if k / n = k % n then fvSub x (fvNat 1) else x))
  let v := of32 false z.1
  let t := of32 false (ldTol d)
  (!isNaN v && !isNaN t && !ltV t v, z.2)

/-- p' from the directions a and u of the whole layer; `plain` uses a alone. -/
def kronEnd (d : BitVec 1024) (eta : BitVec 32) (plain : Bool) (ps as us : List (BitVec 32)) : List FV :=
  let nu := fvSumsq (fv0 us)
  if plain then (ps.zip as).map fun (p, a) => stepP (eta, 0) (p, 0) (decayed d (p, 0) (a, 0))
  else
    let zero := isZero (of32 false (fvSqrt nu).1)
    let na := fvSumsq (fv0 as)
    let gamma : FV := if zero then ((fvNat 1).1, na.2 ||| nu.2) else
      dvTo32 (dvDiv (dvSqrt (of32 false na.1, na.2)) (dvSqrt (of32 false nu.1, nu.2)))
    (ps.zip (if zero then as else us)).map fun (p, u) => stepP (eta, 0) (p, 0) (decayed d (p, 0) (fvMul gamma (u, 0)))

/-! ## Splitting (R315) -/

/-- h = BF16(x) and m = BF16(x − h) as BF16 codes, with their flags. -/
def splitBf16 (x : BitVec 32) : Nat × Nat × FlagByte :=
  let v := of32 false x
  let (h, f) := convert .bf16 .rne false false v
  let (r, g) := addV v (negV (readCode .bf16 true h))
  let (m, e) := convert .bf16 .rne false false r
  (h, m, f ||| g ||| e)

end Sys2Proof.Machine
end

