-- ==== Sys2Proof/Machine/Cox.lean ====
section
/-! DEFINITION. The Cox's commands (13): UPDATE, HOLD and APPLY, what feeds them, the matrix products on the Cox Course, and their
retirement. -/

namespace Sys2Proof.Machine

open Sys2Proof

/-! ## The command (R306) -/

def cxGrad (w : Cmd) : Nat := fld w 399 352
def cxList (w : Cmd) : Nat := fld w 351 288
def cxNlist (w : Cmd) : Nat := fld w 287 256
def cxScale (w : Cmd) : BitVec 32 := BitVec.ofNat 32 (fld w 255 224)
def cxLr (w : Cmd) : BitVec 32 := BitVec.ofNat 32 (fld w 223 192)
def cxEvent (w : Cmd) : Nat := fld w 191 176
def cxLayer (w : Cmd) : Nat := fld w 159 128
def cxTag (w : Cmd) : Nat := fld w 63 32
def cxGfmt (w : Cmd) : Nat := fld w 15 12
def cxSkip (w : Cmd) : Bool := w.getLsbD 11
def cxFull (w : Cmd) : Bool := w.getLsbD 10
def cxReset (w : Cmd) : Bool := w.getLsbD 9
def cxOp (w : Cmd) : Nat := fld w 7 0

def coxRsv : List (Nat × Nat) := [(511, 400), (175, 160), (127, 64), (31, 16), (8, 8)]
def layerRsv : List (Nat × Nat) := [(1023, 960), (671, 640), (227, 12), (7, 6)]

/-- A field that the opcode leaves 0 is not 0. -/
def coxLeft (w : Cmd) : Bool :=
  match cxOp w with
  | 0x61 => cxSkip w
  | 0x62 => cxLr w ≠ 0 || cxScale w ≠ 0 || cxSkip w || cxFull w || cxReset w
  | _ => cxGrad w ≠ 0 || cxList w ≠ 0 || cxNlist w ≠ 0 || cxGfmt w ≠ 0

/-! ## The gradient and the row list -/

/-- Bytes of a gradient element. -/
def gradB (w : Cmd) : Nat := if cxGfmt w = 1 then 2 else 4

/-- Rows the command works on: all, or those listed. -/
def gradRows (d : BitVec 1024) (src : Cmd) : Nat := if ldEmbed d then cxNlist src else ldRows d
def gradBytes (d : BitVec 1024) (src : Cmd) : Nat := gradRows d src * ldCols d * gradB src

/-- Codes of 4 or 2 bytes each, BF16 widened exactly (R300). -/
def codes32 (bf : Bool) (bs : List Byte) : List (BitVec 32) :=
  if bf then (List.range (bs.length / 2)).map fun i => BitVec.ofNat 32 (leAt bs (2 * i) 2 * 65536)
  else (List.range (bs.length / 4)).map fun i => BitVec.ofNat 32 (leAt bs (4 * i) 4)

/-- Gradient elements [i, i + n). -/
def gradElems (s : State) (p : Fin 8) (src : Cmd) (i n : Nat) : List (BitVec 32) :=
  codes32 (cxGfmt src = 1) (collBytes s p (cxGrad src) (i * gradB src) (n * gradB src))

/-- Row i of the list. -/
def listRow (s : State) (p : Fin 8) (src : Cmd) (i : Nat) : Nat := leAt (hbmReadN s p (cxList src + 4 * i) 4) 0 4
def listRows (s : State) (p : Fin 8) (src : Cmd) : List Nat := (List.range (cxNlist src)).map (listRow s p src)

/-- Addresses that stand for a range: one in each 4 KiB granule. -/
def rangeMarks (a n : Nat) : List Nat := if n = 0 then [] else (List.range ((n + 4095) / 4096)).map (fun i => a + 4096 * i) ++ [a + n - 1]

/-- Bytes of WORK the rule uses (R301). -/
def workBytes (s : State) (p : Fin 8) (d : BitVec 1024) (src : Cmd) : Nat :=
  let r := min (ldRows d) (ldCols d)
  let c := max (ldRows d) (ldCols d)
  let b := 2 ^ ldBlkl d
  let br := min b (ldRows d)
  let bc := min b (ldCols d)
  if ldEmbed d then 4 * (fld (layerRec s p (cxLayer src)) 447 416 + cxNlist src)
  else if ldRule d = 4 then 12 * r * c + 12 * r * r
  else if ldRule d = 5 then 4 * (5 * br * br + 5 * bc * bc + 2 * br * bc)
  else 0

/-- The slots of a layer. -/
def layerSlots (d : BitVec 1024) : List (Nat × Nat) :=
  [(paramSlot d false, paramBytes d), (stateSlot d false, stateBytes d)] ++
  if ldSingle d then [] else [(paramSlot d true, paramBytes d), (stateSlot d true, stateBytes d)]

/-- Areas a command reads or writes: slots and WORK. -/
def layerAreas (s : State) (p : Fin 8) (d : BitVec 1024) (src : Cmd) : List (Nat × Nat) :=
  layerSlots d ++
  (let n := workBytes s p d src; if n = 0 then [] else [(ldWork d, n)])

/-! ## Rejection (R307) -/

/-- A descriptor outside R299 or R302. -/
def layerBad (d : BitVec 1024) : Bool :=
  let r := ldRule d
  let z (l : List (BitVec 32)) : Bool := l.any (· ≠ 0)
  r > 5 || ldCols d = 0 || ldCols d > 262144 || ldRows d = 0 || paramSlot d false % 64 ≠ 0 || stateSlot d false % 64 ≠ 0 ||
  (!ldSingle d && (paramSlot d true % 64 ≠ 0 || stateSlot d true % 64 ≠ 0)) ||
  ((r ≥ 4 || ldEmbed d) && ldWork d % 64 ≠ 0) ||
  (r = 5 && (ldPeriod d = 0 || ldIters d = 0 || ldIters d > 64 || ldBlkl d < 7 || ldBlkl d > 13)) ||
  (match r with
   | 0 => z [ldBeta2 d, ldEps d, ldHp1 d, ldHp2 d, ldHp3 d]
   | 1 | 2 => z [ldHp1 d, ldHp2 d, ldHp3 d]
   | 3 => z [ldEps d, ldHp3 d]
   | 4 => z [ldBeta2 d]
   | _ => z [ldHp2 d, ldHp3 d]) ||
  (ldEmbed d && r > 1) || (r ≥ 4 && ldSingle d)

/-- Why a Cox command is rejected; none where it runs. The order of the checks is log 12's. -/
def coxReject (s : State) (c : Fin 16) (p : Fin 8) (a : Attempt) (w src : Cmd) (d : BitVec 1024) : Option Reason :=
  let k := cxLayer w
  let op := cxOp w
  let e := caEntry s p (cxGrad src)
  let n := gradBytes d src
  let rows := if ldEmbed d then listRows s p src else []
  let asc := (rows.zip (rows.drop 1)).all fun x => x.1 < x.2
  let areas := layerAreas s p d src
  let g := caPlace s p (cxGrad src) 0
  let flat (x : Nat × Nat) : Nat × Nat := (hbmAddr x.1, x.2)
  firstReason [
    (rsvSet w coxRsv, .reservedSet),
    (k ≥ layerCount s p, .badField),
    (rsvSet d layerRsv, .reservedSet),
    ((op ≠ 0x63 && a.named.contains k) || (op = 0x63 && !(a.held.any fun h => h.1 = k)) || coxLeft w || cxEvent w > 4095 ||
      (cxReset w && ldRule d ≠ 5) || (!ldEmbed d && (cxFull w || cxNlist src ≠ 0)) || (layerRec s p k).getLsbD 3 ||
      (ldRule d ≥ 4 && ldRule d ≤ 5 && objNat s 0 0x7300 (0x41 + p) 0 = 0) || !caValid e 1 || cxGrad src % 64 ≠ 0 ||
      (ldEmbed d && (cxNlist src = 0 || cxNlist src > 16777216 || cxList src % 8 ≠ 0)), .badField),
    (layerBad d, .badDesc),
    (ldPfmt d > 1 || cxGfmt src > 1, .badFormat),
    ((layerSlots d).any (fun x => !hbmIn s p x.1 x.2) || (workBytes s p d src ≠ 0 && !hbmIn s p (ldWork d) 1) ||
      (ldEmbed d && !hbmIn s p (cxList src) (4 * cxNlist src)) || !caFits s p (cxGrad src) n || rows.any (· ≥ ldRows d), .outOfBounds),
    (anyOverlap (areas.map flat) || (areas.any fun x => overlaps (flat x) (g, n)) || !rows.Nodup, .aliased),
    (!asc, .badField),
    (undoRefused s c p (areas.flatMap fun x => rangeMarks x.1 x.2), .accumScope)]

/-! ## What feeds a command (R309) -/

/-- The number of the CREWOP in flight of the same attempt whose RBUF covers a gradient. -/
def findFeeder (s : State) (p : Fin 8) (iss : Issuer) (a n : Nat) : Option (Fin 16 × Nat) :=
  let g := caPlace s p a 0
  (List.finRange 16).findSome? fun c =>
    (s.crews[c].ops.find? fun o =>
      !o.retired &&
      (match o.iss, iss with | .core c1 t1 _ _ _, .core c2 t2 _ _ _ => c1 = c2 && t1 = t2 | _, _ => false) &&
      (coAreas s c o.word o.padded).any fun x => x.1 = coRbuf o.word && x.2.2.2 &&
        decide (caPlace s p x.1 0 ≤ g ∧ g + n ≤ caPlace s p x.1 0 + x.2.1)).map fun o => (c, o.num)

/-- Ranges of RBUF a CREWOP has written so far: offset and length. -/
def opWritten (s : State) (c : Fin 16) (o : CollOp) : List (Nat × Nat) :=
  let w := o.word
  let me := myRank s c
  let cs := 2 ^ o.terms.chunk
  let own := match coOp w with
    | 3 => if o.sent.contains (me, 0, true) then [(0, coCount w * coOutB w)] else []
    | 5 => let n := coCount w * coRowBytes w; if o.sent.contains (me, 0, false) then [(me * n, n)] else []
    | 6 | 7 => []
    | 1 => if o.up then [] else [(0, o.written)]
    | _ => let f := finalPart (crewG s c) me (coCount w); if o.up then [] else [(f.1 * coOutB w, f.2 * coOutB w)]
  own ++ o.landed.filterMap fun x =>
    if !(x.down || coOp w ≥ 5) then none else
    match messageArea s c o x.src x.level x.down with
    | some (a, base, n) =>
      if a = coRbuf w && x.bytes = min cs (n - x.chunk * cs) then some (base + x.chunk * cs, x.bytes) else none
    | none => none

/-- Every byte of [a, b) lies in one of the ranges; `k` bounds the ranges used. -/
def coveredBy : Nat → List (Nat × Nat) → Nat → Nat → Bool
  | 0, _, a, b => decide (b ≤ a)
  | k + 1, l, a, b =>
    decide (b ≤ a) || match l.find? fun x => x.1 ≤ a && a < x.1 + x.2 with
      | some x => coveredBy k l (x.1 + x.2) b
      | none => false

/-- The feeding CREWOP has failed: it is gone, or its result says so. -/
def feederFailed (s : State) (k : CoxCmd) : Option Reason :=
  match k.feeder with
  | none => none
  | some (c, n) => match findOp s c n with | none => some .crewState | some o => if o.failed then some o.res.reason else none

/-- Bytes [a, b) of a command's gradient are there. -/
def gradThere (s : State) (p : Fin 8) (k : CoxCmd) (a b : Nat) : Bool :=
  match k.feeder with
  | none => true
  | some (c, n) =>
    match findOp s c n with
    | none => false
    | some o =>
      let base := caPlace s p (cxGrad k.src) 0 - caPlace s p (coRbuf o.word) 0
      let l := opWritten s c o
      o.complete || o.retired || coveredBy (l.length + 1) l (base + a) (base + b)

/-! ## Reads and writes of a command -/

/-- Addresses a command reads: bytes [a, b) of its gradient and listed HBM addresses. -/
def coxReads (s : State) (p : Fin 8) (src : Cmd) (a b : Nat) (as : List Nat) : List Nat := caPlaces s p (cxGrad src) a (b - a) ++ as.map hbmAddr

/-- The first uncorrectable word or sector among the gradient's bytes [a, b) and listed HBM addresses, and the first such sector that
the listed writes cover in part (R116, R153). -/
def coxUe (s : State) (p : Fin 8) (src : Cmd) (a b : Nat) (as ws : List Nat) : Option (Reason × Nat) :=
  collUe s p (coxReads s p src a b as) (ws.map hbmAddr)

/-- The reads happen: what a Pallet or a base die corrects is counted, and the HBM traffic is charged to the partition's regulators
(R116, R152, R297). -/
def coxRead (s : State) (p : Fin 8) (src : Cmd) (a b : Nat) (as : List Nat) : State := collRead s p (coxReads s p src a b as)

/-- A parameter as written: FP32, or one RNE rounding to BF16 (R300). -/
def paramOut (d : BitVec 1024) (x : FV) : List Byte × FlagByte :=
  if ldPfmt d = 1 then let (c, f) := convert .bf16 .rne false false (of32 false x.1); (leBytes 2 c, x.2 ||| f) else (leBytes 4 x.1.toNat, x.2)

/-- Listed bytes at an address. -/
def bytesAt (a : Nat) (bs : List Byte) : List (Nat × Byte) := bs.zipIdx.map fun (b, i) => (a + i, b)

/-- Values written as FP32 from an address on. -/
def stateOut (a : Nat) (l : List FV) : List (Nat × Byte) := bytesAt a (l.flatMap fun x => leBytes 4 x.1.toNat)

/-- Parameters written from an address on, and all flags. -/
def paramsOut (d : BitVec 1024) (a : Nat) (l : List FV) : List (Nat × Byte) × FlagByte :=
  let r := l.map (paramOut d)
  (bytesAt a (r.flatMap (·.1)), orFlags (r.map (·.2)))

/-- The command's writes: undo first, and a single-slot layer is noted as written; the traffic is charged to the partition's regulators
(R325, R305, R297). -/
def coxWrite (s : State) (p : Fin 8) (k : CoxCmd) (ws : List (Nat × Byte)) : State :=
  let s := undoSave s k.crew p (ws.map (·.1))
  let s := if ldSingle k.desc then updAttempt s k.crew fun a => { a with singles := if a.singles.contains k.layer then a.singles else a.singles ++ [k.layer] } else s
  if ws.isEmpty then s else hbmTraffic (hbmWriteL s p ws) (some p) (ws.map (·.1))

/-- Slots of a command's layer: read from, written to. -/
def srcSlots (s : State) (p : Fin 8) (k : CoxCmd) : Nat × Nat :=
  let x := activeSlot (layerRec s p k.layer)
  (paramSlot k.desc x, stateSlot k.desc x)
def dstSlots (s : State) (p : Fin 8) (k : CoxCmd) : Nat × Nat :=
  let x := writtenSlot k.desc (layerRec s p k.layer)
  (paramSlot k.desc x, stateSlot k.desc x)

/-- FP32 values of a state part. -/
def stateIn (s : State) (p : Fin 8) (a n : Nat) : List (BitVec 32) := codes32 false (hbmReadN s p a (4 * n))
def paramsIn (s : State) (p : Fin 8) (d : BitVec 1024) (a n : Nat) : List (BitVec 32) :=
  codes32 (ldPfmt d = 1) (hbmReadN s p a (ldPBytes d * n))

/-- Offset of part i of a dense layer's state slot. -/
def densePart (d : BitVec 1024) (i : Nat) : Nat := (partOffs 0 (denseParts d)).getD i 0

/-- t of R310: STEP + 1. -/
def coxStepNo (s : State) (p : Fin 8) (k : CoxCmd) : Nat := (fld (layerRec s p k.layer) 191 160 + 1) % 2 ^ 32

/-! ## Elementwise rules over a range (R309, R310, R319) -/

/-- Elements [i, i + n) of a dense elementwise layer: addresses read, writes, flags. -/
def denseRange (s : State) (p : Fin 8) (k : CoxCmd) (i n : Nat) : List Nat × List (Nat × Byte) × FlagByte :=
  let d := k.desc
  let (ps, ss) := srcSlots s p k
  let (pd, sd) := dstSlots s p k
  let pb := ldPBytes d
  let o := densePart d 1
  let g := gradElems s p k.src i n
  let pv := paramsIn s p d (ps + pb * i) n
  let m := stateIn s p (ss + 4 * i) n
  let v := if ldRule d = 1 then stateIn s p (ss + o + 4 * i) n else List.replicate n 0
  let r := (g.zip (pv.zip (m.zip v))).map fun (g, x, m, v) => elemRule d (cxScale k.word) (cxLr k.word) (coxStepNo s p k) g x m v
  let (pw, fl) := paramsOut d (pd + pb * i) (r.map (·.1))
  let st (j : Nat) : List FV := r.map fun x => x.2.getD j (0, 0)
  (((List.range (pb * n)).map (ps + pb * i + ·)) ++ (List.range (4 * n)).map (ss + 4 * i + ·) ++
      (if ldRule d = 1 then (List.range (4 * n)).map (ss + o + 4 * i + ·) else []),
   pw ++ stateOut (sd + 4 * i) (st 0) ++ (if ldRule d = 1 then stateOut (sd + o + 4 * i) (st 1) else []), fl ||| fvFlags (st 0))

/-- One listed row of an embedding layer (R319): row number i of the list. -/
def embedRow (s : State) (p : Fin 8) (k : CoxCmd) (i : Nat) : List Nat × List (Nat × Byte) × FlagByte :=
  let d := k.desc
  let C := ldCols d
  let row := listRow s p k.src i
  let (ps, ss) := srcSlots s p k
  let (pd, sd) := dstSlots s p k
  let pb := ldPBytes d
  let so := row * rowStride d
  let offs := partOffs 0 (rowParts d)
  let ro := offs.getLast?.getD 0
  let vo := offs.getD 1 0
  let rec_ := hbmReadN s p (ss + so + ro) 16
  let t := (leAt rec_ 0 4 + 1) % 2 ^ 32
  let last := leAt rec_ 4 6
  let N := (strokeNum s k.crew).toNat
  let e := if last = 0 then 0 else min (N - last - 1) 65535
  let f := decayFactor (cxLr k.word) (ldLambda d) e
  let pv := (paramsIn s p d (ps + pb * C * row) C).map fun x => if e = 0 then ((x, 0) : FV) else fvMul (x, 0) f
  let m := stateIn s p (ss + so) C
  let v := if ldRule d = 1 then stateIn s p (ss + so + vo) C else List.replicate C 0
  let g := gradElems s p k.src (i * C) C
  let r := (g.zip (pv.zip (m.zip v))).map fun (g, x, m, v) =>
    let (q, st) := elemRule d (cxScale k.word) (cxLr k.word) t g x.1 m v
    (((q.1, q.2 ||| x.2) : FV), st)
  let (pw, fl) := paramsOut d (pd + pb * C * row) (r.map (·.1))
  let st (j : Nat) : List FV := r.map fun x => x.2.getD j (0, 0)
  ((List.range 4).map (cxList k.src + 4 * i + ·) ++ (List.range (pb * C)).map (ps + pb * C * row + ·) ++
     (List.range (partsEnd (rowParts d))).map (ss + so + ·),
   pw ++ stateOut (sd + so) (st 0) ++ (if ldRule d = 1 then stateOut (sd + so + vo) (st 1) else []) ++
     bytesAt (sd + so + ro) (leBytes 4 t ++ leBytes 6 N ++ leBytes 6 0),
   fl ||| fvFlags (st 0))

/-- What an embedding command copies from the active to the inactive slot before its rows (R320): rows of the last committed list
that the current one does not name, or everything. The addresses read, and the writes. -/
def embedCopy (s : State) (p : Fin 8) (k : CoxCmd) : List Nat × List (Nat × Byte) :=
  let d := k.desc
  let span (a n : Nat) : List Nat := (List.range n).map (a + ·)
  if ldSingle d then ([], []) else
  let (ps, ss) := srcSlots s p k
  let (pd, sd) := dstSlots s p k
  let r := layerRec s p k.layer
  if cxFull k.word then
    (span ps (paramBytes d) ++ span ss (stateBytes d), bytesAt pd (hbmReadN s p ps (paramBytes d)) ++ bytesAt sd (hbmReadN s p ss (stateBytes d)))
  else
  let cur := listRows s p k.src
  let old := ((List.range (fld r 447 416)).map fun i => leAt (hbmReadN s p (fld r 511 448 + 4 * i) 4) 0 4).filter fun x => !cur.contains x
  let rb := ldPBytes d * ldCols d
  (span (fld r 511 448) (4 * fld r 447 416) ++ old.flatMap (fun i => span (ps + rb * i) rb ++ span (ss + rowStride d * i) (partsEnd (rowParts d))),
   old.flatMap fun i => bytesAt (pd + rb * i) (hbmReadN s p (ps + rb * i) rb) ++
     bytesAt (sd + rowStride d * i) (hbmReadN s p (ss + rowStride d * i) (partsEnd (rowParts d))))

/-- Bytes of a gradient unit a range must hold whole: an element, or a row of an embedding. -/
def unitBytesG (k : CoxCmd) : Nat := if ldEmbed k.desc then ldCols k.desc * gradB k.src else gradB k.src

/-! ## The end of a command -/

def setCoxCmd (s : State) (p : Fin 8) (i : Nat) (k : CoxCmd) : State := updCox s p fun x => { x with cmds := x.cmds.set i k }

/-- Bytes written to the parameter slot, in the order of the digest (R311). -/
def digestBytes (s : State) (p : Fin 8) (k : CoxCmd) : List Byte :=
  let a := (dstSlots s p k).1
  let rb := ldPBytes k.desc * ldCols k.desc
  if ldEmbed k.desc then (listRows s p k.src).flatMap fun r => hbmReadN s p (a + rb * r) rb else hbmReadN s p a (paramBytes k.desc)

/-- Σ G² (R311): formed by an UPDATE or HOLD; an APPLY takes its HOLD's. -/
def coxSumsq (s : State) (p : Fin 8) (k : CoxCmd) : FV :=
  if cxOp k.word = 0x63 then (BitVec.ofNat 32 k.res.d0.toNat, 0)
  else fvSumsq (fv0 (gradElems s p k.src 0 (gradRows k.desc k.src * ldCols k.desc)))

/-- Fields of a state record: [hi:lo] set to a value. -/
def setRec (r : BitVec 512) (hi lo v : Nat) : BitVec 512 :=
  let m := 2 ^ (hi + 1 - lo)
  BitVec.ofNat 512 (r.toNat - (fld r hi lo) <<< lo + (v % m) <<< lo)

/-- The pending state record of an update (R304, R303, R317, R320). A command with a HELD root adds 1 to HOLDS, however many of its roots
are HELD (log 45). -/
def pendRec (s : State) (p : Fin 8) (k : CoxCmd) (sumsq : BitVec 32) (digest : BitVec 64) (flags : FlagByte) : BitVec 512 :=
  let r := layerRec s p k.layer
  let N := (strokeNum s k.crew).toNat
  let r := setRec (setRec (setRec (setRec (setRec r 383 320 digest.toNat) 319 288 sumsq.toNat) 239 192 N) 191 160 (coxStepNo s p k)) 151 144 flags.toNat
  let r := if ldEmbed k.desc then setRec (setRec r 511 448 (cxList k.src)) 447 416 (cxNlist k.src) else r
  if ldRule k.desc ≠ 5 then r else
  let r := if cxReset k.word then setRec (setRec r 159 152 0) 4 4 0 else r
  let held := k.bits.getLsbD 3
  let good := k.iter = 1000
  let r := if held then setRec r 159 152 (min 255 (fld r 159 152 + 1)) else if good then setRec (setRec (setRec r 159 152 0) 287 240 N) 5 5 1 else r
  if held && fld r 159 152 ≥ 8 then setRec r 4 4 1 else r

/-- A command's work is done: its result, and what the attempt notes of the layer (R304, R311 to R313, R329). -/
def coxDone (s : State) (p : Fin 8) (i : Nat) (k : CoxCmd) : State :=
  let q := coxSumsq s p k
  let fl := k.flags ||| q.2
  if cxOp k.word = 0x62 then
    let s := updAttempt s k.crew fun a => { a with held := a.held.map fun h => if h.1 = k.layer then (h.1, h.2.1, q.1) else h }
    let d0 := BitVec.ofNat 64 q.1.toNat
    -- an APPLY issued meanwhile takes the sum
    let s := updCox s p fun x =>
      { x with cmds := x.cmds.map fun y => if y.layer = k.layer && !y.run && cxOp y.word = 0x63 then { y with res := { y.res with d0 := d0 } } else y }
    setCoxCmd s p i { k with run := true, flags := fl, res := ⟨.ok, .none, fl, false, false, d0, 0⟩ }
  else if cxSkip k.word then
    let u : LayerUpd := ⟨k.layer, cxLr k.word, cxScale k.word, k.desc, 0, q.1, 2⟩
    let s := updAttempt s k.crew fun a => { a with updates := a.updates ++ [u] }
    setCoxCmd s p i { k with run := true, flags := fl, res := ⟨.ok, .none, fl, false, false, BitVec.ofNat 64 (q.1.toNat + 2 ^ 61), 0⟩ }
  else
    let dg := chunkSum 0 (digestBytes s p k)
    let r := pendRec s p k q.1 dg fl
    let fall := ldRule k.desc = 5 && r.getLsbD 4
    let held := k.bits.getLsbD 3
    let d0 := q.1.toNat + (if fall then 2 ^ 62 else 0) + (if held then 2 ^ 63 else 0)
    let u : LayerUpd := ⟨k.layer, cxLr k.word, cxScale k.word, k.desc, dg, q.1, 1 ||| (if fall then 4 else 0) ||| (if held then 8 else 0)⟩
    let s := updAttempt s k.crew fun a => { a with updates := a.updates ++ [u], pends := a.pends ++ [⟨k.layer, r, !ldSingle k.desc⟩] }
    let s := evAdd s 0x7001 0 p (gradRows k.desc k.src * ldCols k.desc)
    setCoxCmd s p i { k with run := true, flags := fl, mats := [], blocks := [], res := ⟨.ok, .none, fl, false, false, BitVec.ofNat 64 d0, dg⟩ }

/-- A command fails: what it was about to write is made in part (R12). -/
def coxFail (s : State) (p : Fin 8) (i : Nat) (k : CoxCmd) (r : Reason) (addr : Nat) (ws : List (Nat × Byte)) : State :=
  let (l, s) := someOf s ws
  let s := coxWrite s p k l
  setCoxCmd s p i
    { k with run := true, mats := [], blocks := [], res := { failedRes r (decide (k.started = true ∨ l ≠ [])) addr with flags := k.flags } }

/-! ## Whole-layer rules (R310, R318) -/

/-- LAMB and the factored rule: addresses read, writes, flags. -/
def layerRule (s : State) (p : Fin 8) (k : CoxCmd) : List Nat × List (Nat × Byte) × FlagByte :=
  let d := k.desc
  let n := ldRows d * ldCols d
  let (ps, ss) := srcSlots s p k
  let (pd, sd) := dstSlots s p k
  let g := gradElems s p k.src 0 n
  let pv := paramsIn s p d ps n
  let reads := (List.range (paramBytes d)).map (ps + ·) ++ (List.range (stateBytes d)).map (ss + ·)
  if ldRule d = 2 then
    let o := densePart d 1
    let (p', m', v', fl) := lambRule d (cxScale k.word) (cxLr k.word) (coxStepNo s p k) g pv (stateIn s p ss n) (stateIn s p (ss + o) n)
    let (pw, fp) := paramsOut d pd p'
    (reads, pw ++ stateOut sd m' ++ stateOut (sd + o) v', fp ||| fl ||| fvFlags m' ||| fvFlags v')
  else
    let b := if ldBeta1 d = 0 then 0 else 1
    let o := densePart d b
    let o2 := densePart d (b + 1)
    let ms := if b = 1 then stateIn s p ss n else []
    let (p', m', rv, cv) := factoredRule d (cxScale k.word) (cxLr k.word) g pv ms (stateIn s p (ss + o) (ldRows d)) (stateIn s p (ss + o2) (ldCols d))
    let (pw, fp) := paramsOut d pd p'
    (reads, pw ++ (if b = 1 then stateOut sd m' else []) ++ stateOut (sd + o) rv ++ stateOut (sd + o2) cv,
      fp ||| fvFlags m' ||| fvFlags rv ||| fvFlags cv)

/-! ## Matrix products on the Cox Course (R314, R315) -/

/-- Matrices of a matrix rule by name: X, T, T2, M, A, AA, B, the layer's a, u, m', G, and the roots. -/
def mat (k : CoxCmd) (i : Nat) : List (BitVec 32) := assocGet k.mats i []
def setMat (k : CoxCmd) (i : Nat) (l : List FV) : CoxCmd :=
  { k with mats := assocSet k.mats i (l.map (·.1)) [], flags := k.flags ||| fvFlags l }

/-- Sides of the block a Kronecker command stands in: rows and columns. -/
def kronBlk (k : CoxCmd) : Nat × Nat × Nat × Nat := (kronBlocks k.desc).getD k.blk (0, 0, 0, 0)

/-- Side of the matrix whose root is computed. -/
def rootSide (k : CoxCmd) : Nat := let (_, _, r, c) := kronBlk k; if k.side = 0 then r else c

/-- Rows, inner length and columns of the product a step forms, and its operands: step 0 G Gᵀ, 1 Gᵀ G, 2 X T, 3 T T, 4 T2 T2,
5 (T2 T2) M, 6 Lroot m', 7 (Lroot m') Rroot; 8 X Xᵀ, 9 A A, 10 B X. -/
def prodOf (k : CoxCmd) : Nat × Nat × Nat × (Nat → Nat → BitVec 32) × (Nat → Nat → BitVec 32) :=
  let (r0, c0, br, bc) := kronBlk k
  let C := ldCols k.desc
  let n := rootSide k
  let R' := min (ldRows k.desc) C
  let C' := max (ldRows k.desc) C
  let g (i j : Nat) : BitVec 32 := (mat k 10).getD ((r0 + i) * C + c0 + j) 0
  let mm (i j : Nat) : BitVec 32 := (mat k 9).getD ((r0 + i) * C + c0 + j) 0
  let sq (m n i j : Nat) : BitVec 32 := (mat k m).getD (i * n + j) 0
  match k.step with
  | 0 => (br, bc, br, g, fun i j => g j i)
  | 1 => (bc, br, bc, fun i j => g j i, g)
  | 2 => (n, n, n, sq 0 n, sq 1 n)
  | 3 => (n, n, n, sq 1 n, sq 1 n)
  | 4 => (n, n, n, sq 2 n, sq 2 n)
  | 5 => (n, n, n, sq 5 n, sq 3 n)
  | 6 => (br, br, bc, sq 11 br, mm)
  | 7 => (br, bc, bc, sq 13 bc, sq 12 bc)
  | 8 => (R', C', R', sq 0 C', fun i j => (mat k 0).getD (j * C' + i) 0)
  | 9 => (R', R', R', sq 4 R', sq 4 R')
  | _ => (R', R', C', sq 6 R', sq 0 C')

/-- The whole product from its output blocks of at most 1,024 rows and 512 columns. -/
def joinBlocks (R C : Nat) (bl : List (List (BitVec 32))) : List (BitVec 32) :=
  let nc := (C + 511) / 512
  (List.range (R * C)).map fun x =>
    let i := x / C
    let j := x % C
    (bl.getD (i / 1024 * nc + j / 512) []).getD (i % 1024 * min 512 (C - j / 512 * 512) + j % 512) 0

/-- Where the running product stands: output block origin and sides, chunk origin and length, first and last chunk. -/
def unitOf (k : CoxCmd) : Nat × Nat × Nat × Nat × Nat × Nat × Bool × Bool :=
  let (R, K, C, _, _) := prodOf k
  let nk := (K + 2047) / 2048
  let nc := (C + 511) / 512
  let b := k.unit / nk
  let i := b / nc * 1024
  let j := b % nc * 512
  let q := k.unit % nk
  (i, min 1024 (R - i), j, min 512 (C - j), 2048 * q, min 2048 (K - 2048 * q), q = 0, q + 1 = nk)

def prodUnits (k : CoxCmd) : Nat :=
  let (R, K, C, _, _) := prodOf k
  ((R + 1023) / 1024) * ((C + 511) / 512) * ((K + 2047) / 2048)

/-- A descriptor of BF16 bricks in the scratch (log 26). -/
def scratchDesc (base rows cols : Nat) : Cmd :=
  BitVec.ofNat 512 (1 + place 6 1 + place 208 base + place 272 rows + place 304 cols + place 336 1024 + place 376 (1024 * ((cols + 31) / 32)))

/-- The Cox Course of a partition, its share in per cent, the scratch and the tile base (R314, R322). -/
def coxCourse (s : State) (p : Fin 8) : Fin 8 := fin8 (objNat s 0 0x7300 (0x31 + p) 0xFF)
def coxShare (s : State) (p : Fin 8) : Nat := objNat s 0 0x7300 (0x41 + p) 0
def coxScratch (s : State) (p : Fin 8) : Nat := objNat s 0 0x7300 (0x51 + p) 0
def coxTileBase (s : State) (p : Fin 8) : Nat := objNat s 0 0x7300 (0x71 + p) 60

/-- Operand descriptors by slot: left h and m, right h and m; slots that no program can name. -/
def unitDescs (s : State) (p : Fin 8) (k : CoxCmd) : List (Nat × Cmd) :=
  let (_, r, _, c, _, kk, _, _) := unitOf k
  let b := coxScratch s p
  [(0xF000, scratchDesc b r kk), (0xF001, scratchDesc (b + 2 ^ 22) r kk), (0xF002, scratchDesc (b + 2 ^ 23) c kk),
   (0xF003, scratchDesc (b + 10 * 2 ^ 20) c kk)]

/-- The tile-table entry of the sum in the scratch. -/
def unitTile (s : State) (p : Fin 8) : Cmd :=
  let b := coxScratch s p + 12 * 2 ^ 20
  BitVec.ofNat 512 (1 + place 96 b + place 128 (b + 2 ^ 21) + place 160 (b + 2 ^ 22) + place 192 (b + 2 ^ 22 + 24576) + place 224 1024)

/-- The split operands of a chunk (R315): Pallet writes and flags. -/
def stageUnit (s : State) (p : Fin 8) (k : CoxCmd) : List (Nat × Byte) × FlagByte :=
  let (i0, r, j0, c, k0, kk, _, _) := unitOf k
  let (_, _, _, x, y) := prodOf k
  let ds := unitDescs s p k
  let put (slot row col v : Nat) : List (Nat × Byte) := elemStore (fun _ => 0) (assocGet ds slot 0) row col v
  let l := (List.range r).flatMap fun i => (List.range kk).map fun q =>
    let (h, m, f) := splitBf16 (x (i0 + i) (k0 + q)); (put 0xF000 i q h ++ put 0xF001 i q m, f)
  let rr := (List.range c).flatMap fun j => (List.range kk).map fun q =>
    let (h, m, f) := splitBf16 (y (k0 + q) (j0 + j)); (put 0xF002 j q h ++ put 0xF003 j q m, f)
  ((l ++ rr).flatMap (·.1), orFlags ((l ++ rr).map (·.2)))

/-- The MM number `i` of a chunk: m·h, h·m, h·h (R315), with the Cox command's TAG (R312). -/
def unitMm (s : State) (p : Fin 8) (k : CoxCmd) (i : Nat) : Cmd :=
  let (_, r, _, _, _, kk, first, _) := unitOf k
  let a := if i = 0 then 0xF001 else 0xF000
  let w := if i = 1 then 0xF003 else 0xF002
  BitVec.ofNat 512 (0x21 + place 9 1 + place 13 1 + place 21 (coxTileBase s p) + place 27 (if first && i = 0 then 1 else 0) +
    place 32 (cxTag k.word) + place 64 r + place 80 ((kk + 511) / 512) + place 96 a + place 112 w)

/-- Nanoseconds of Course time an MM of a chunk takes (R59). -/
def unitTime (s : State) (k : CoxCmd) : Nat :=
  let (_, r, _, _, _, kk, _, _) := unitOf k
  let slots := max 512 (r + (r + 511) / 512)
  ((kk + 511) / 512 * slots * 1000 + s.power.aclk - 1) / s.power.aclk

/-- A program's MM is queued on a Course. -/
def programQueued (c : Course) : Bool := c.queue.any fun u => match u.iss with | .cox _ _ => false | _ => u.op = 0x21

/-- The Course is at a pass boundary of what it runs, or runs nothing. -/
def atBoundary (c : Course) : Bool :=
  match c.queue with
  | u :: _ => !u.run || u.op = 0x22 || ((c.stage == .load || c.stage == .pass) && c.firstFail.isNone && !c.afterSubst && c.parked.isNone)
  | [] => true

/-- A Cox MM takes the next pass boundary (R314): ahead of program MMs, one that runs waiting at its pass. -/
def insertMm (s : State) (n : Fin 8) (u : UnitCmd) : State :=
  goCourse (updCourse s n fun c =>
    match c.queue with
    | v :: rest =>
      if v.run && v.op = 0x22 then { c with queue := v :: u :: rest }
      else if v.run then
        { c with queue := u :: v :: rest, parked := some (c.pass, c.cmdFlags, c.cmdWidened, c.retried), stage := .load, pass := 1
                 cmdFlags := 0, cmdWidened := false, retried := false, passFlags := 0, passOffence := none }
      else { c with queue := u :: v :: rest }
    | [] => { c with queue := [u] }) n

/-- The next MM of the running product is offered to the Course: it goes at once where no program MM is queued or the share of the
window is not used up, else it waits (R314). The Bool says that it went. -/
def offerMm (s : State) (p : Fin 8) (i : Nat) (k : CoxCmd) : State × Bool :=
  let n := coxCourse s p
  let c := s.courses[n]
  let x := s.cox[p]
  let free := !programQueued c
  let share := x.winUsed < coxShare s p * 100
  if !(free || share) then
    (setCoxCmd s p i (if k.since.isSome then k else { k with since := some s.now }), false)
  else if !atBoundary c then (s, false)
  else
    let t := unitTime s k
    let wait := match k.since with | some u => (s.now - u).toNat | none => 0
    let s := if wait = 0 then s else evAdd (ctrAdd s 0 0x7300 (0xB1 + p) wait) 0x7002 0 p wait
    let s := updCox s p fun x => { x with winUsed := x.winUsed + t }
    let s := evAdd s 0x0006 n 0xFF (t * s.power.aclk / 1000)
    let s := setCoxCmd s p i { k with busy := true, since := none, started := true }
    let u := mkCmd (unitMm s p k k.mm) (.cox p k.layer) (unitDescs s p k) [(coxTileBase s p, unitTile s p)] 0 c.order
    (insertMm (updCourse s n fun c => { c with order := c.order + 1 }) n u, true)

/-- The block of a finished sum, read from its tile in binary32. -/
def readBlock (s : State) (p : Fin 8) (k : CoxCmd) : List (BitVec 32) :=
  let n := coxCourse s p
  let (_, r, _, c, _, _, _, _) := unitOf k
  let t := s.courses[n].tiles[fin64 (coxTileBase s p)]
  (List.range r).flatMap fun i => (List.range c).map fun j => BitVec.ofNat 32 (ofLe (palletReadN s n (partOff t.entry t.current false i j) 4))

/-! ## Matrix rules (R316, R317) -/

/-- Bytes of WORK become the Cox's intermediate values, in a layout the spec does not give (R301, log 27). -/
def fillWork (s : State) (p : Fin 8) (k : CoxCmd) : State :=
  let (g, s) := freshGen s
  coxWrite s p k ((List.range (workBytes s p k.desc k.src)).map fun i => (ldWork k.desc + i, Config.freeByte g i))

/-- The whole gradient is there: m', and the first matrices. -/
def matStart (s : State) (p : Fin 8) (k : CoxCmd) : State × CoxCmd :=
  let d := k.desc
  let n := ldRows d * ldCols d
  let ss := (srcSlots s p k).2
  let sd := (dstSlots s p k).2
  let g := gradElems s p k.src 0 n
  let cg := (fv0 g).map (fvMul (cxScale k.word, 0))
  let ms := fv0 (stateIn s p ss n)
  if ldRule d = 4 then
    let m' := ms.zipWith (momentum (ldBeta1 d)) cg
    let s := coxWrite s p k (stateOut sd m')
    (s, { setMat (setMat k 9 m') 0 (orthoStart d m') with started := true, step := 8, iter := 0 })
  else
    let o := densePart d 1
    let m' := ms.zipWith (adamM d) cg
    let v' := (fv0 (stateIn s p (ss + o) n)).zipWith (adamV d) cg
    let a := m'.zipWith (adamA d (coxStepNo s p k)) v'
    let s := coxWrite s p k (stateOut sd m' ++ stateOut (sd + o) v')
    let k := setMat (setMat (setMat (setMat k 9 m') 7 a) 10 (fv0 g)) 8 (List.replicate n (0, 0))
    (s, { k with started := true, step := 0, blk := 0, side := 0, iter := 0, anyHeld := false })

/-- Roots are computed in this command (R317). -/
def rootsDue (s : State) (p : Fin 8) (k : CoxCmd) : Bool :=
  let r := layerRec s p k.layer
  cxReset k.word || (!r.getLsbD 4 && (!r.getLsbD 5 || fld r 287 240 + ldPeriod k.desc ≤ (strokeNum s k.crew).toNat))

/-- Part of the state slot of a block: 0 L, 1 R, 2 L root, 3 R root. -/
def kronPart (k : CoxCmd) (i : Nat) : Nat := densePart k.desc (2 + 4 * k.blk + i)

/-- A root of the block is settled: a new one, or the previous one copied. -/
def rootIs (s : State) (p : Fin 8) (k : CoxCmd) (new : Option (List FV)) : State × CoxCmd :=
  let n := rootSide k
  let o := kronPart k (2 + k.side)
  let l := match new with | some l => l | none => fv0 (stateIn s p ((srcSlots s p k).2 + o) (n * n))
  let s := coxWrite s p k (stateOut ((dstSlots s p k).2 + o) l)
  (s, setMat k (11 + k.side) l)

/-- Values placed at the block's position in a whole-layer matrix. -/
def putBlock (k : CoxCmd) (whole blk : List (BitVec 32)) : List (BitVec 32) :=
  let (r0, c0, br, bc) := kronBlk k
  let C := ldCols k.desc
  whole.zipIdx.map fun (x, i) =>
    let r := i / C
    let c := i % C
    if r0 ≤ r && r < r0 + br && c0 ≤ c && c < c0 + bc then blk.getD ((r - r0) * bc + (c - c0)) 0 else x

/-- The end of a Kronecker command: p' (R317). `iter` 1000 marks a recomputation that succeeded on every block. -/
def kronFinish (s : State) (p : Fin 8) (k : CoxCmd) : State × CoxCmd :=
  let d := k.desc
  let n := ldRows d * ldCols d
  let r := layerRec s p k.layer
  let due := rootsDue s p k
  let k := { k with bits := if k.anyHeld then 8 else 0, iter := if due && !k.anyHeld then 1000 else 0 }
  let plain := (r.getLsbD 4 && !cxReset k.word) || (k.anyHeld && !r.getLsbD 5)
  let out := kronEnd d (cxLr k.word) plain (paramsIn s p d (srcSlots s p k).1 n) (mat k 7) (mat k 8)
  let (ws, fl) := paramsOut d (dstSlots s p k).1 out
  (coxWrite s p k ws, { k with flags := k.flags ||| fl, step := 99 })

/-- A block of a Kronecker command is done. -/
def nextBlock (s : State) (p : Fin 8) (k : CoxCmd) : State × CoxCmd :=
  if k.blk + 1 < (kronBlocks k.desc).length then (s, { k with blk := k.blk + 1, side := 0, step := 0, iter := 0 }) else kronFinish s p k

/-- After the roots of a side: the other side, or u of the block. -/
def afterRoot (s : State) (p : Fin 8) (k : CoxCmd) : State × CoxCmd :=
  if k.side = 0 then (s, { k with side := 1, step := 20, iter := 0 })
  else if (layerRec s p k.layer).getLsbD 4 && !cxReset k.word then nextBlock s p k
  else (s, { k with step := 6 })

/-- A step of a matrix rule that is no product: 20 starts a root, 21 starts an iteration, 8 and more of R316 none. -/
def matElem (s : State) (p : Fin 8) (k : CoxCmd) : State × CoxCmd :=
  let n := rootSide k
  if k.step = 20 then
    if !rootsDue s p k then let (s, k) := rootIs s p k none; afterRoot s p k else
    match rootStart k.desc n (mat k (14 + k.side)) with
    | (none, fl) => let (s, k) := rootIs s p { k with flags := k.flags ||| fl, anyHeld := true } none; afterRoot s p k
    | (some (x, m), fl) => (s, { setMat (setMat k 0 x) 3 m with flags := k.flags ||| fl, step := 21, iter := 1 })
  else (s, { setMat k 1 (rootT n (mat k 3)) with step := 2 })

/-- A product is complete: what follows it. -/
def afterProd (s : State) (p : Fin 8) (k0 : CoxCmd) : State × CoxCmd :=
  let d := k0.desc
  let (R, _, C, _, _) := prodOf k0
  let z := joinBlocks R C k0.blocks
  let k : CoxCmd := { k0 with blocks := [], unit := 0, mm := 0 }
  let zf := fv0 z
  match k.step with
  | 0 | 1 =>
    let old := stateIn s p ((srcSlots s p k).2 + kronPart k k.step) (R * R)
    let l := precondUpd d old z
    let s := coxWrite s p k (stateOut ((dstSlots s p k).2 + kronPart k k.step) l)
    (s, { setMat k (14 + k.step) l with step := if k.step = 0 then 1 else 20 })
  | 2 => (s, { setMat k 0 zf with step := 3 })
  | 3 => (s, { setMat k 2 zf with step := 4 })
  | 4 => (s, { setMat k 5 zf with step := 5 })
  | 5 =>
    let k := setMat k 3 zf
    let (ok, fl) := rootDone d R z
    let k := { k with flags := k.flags ||| fl }
    if ok then let (s, k) := rootIs s p k (some (fv0 (mat k 0))); afterRoot s p k
    else if k.iter ≥ ldIters d then let (s, k) := rootIs s p { k with anyHeld := true } none; afterRoot s p k
    else (s, { k with step := 21, iter := k.iter + 1 })
  | 6 => (s, { setMat k 13 zf with step := 7 })
  | 7 => nextBlock s p (setMat k 8 (fv0 (putBlock k (mat k 8) z)))
  | 8 => (s, { setMat k 4 zf with step := 9 })
  | 9 => (s, { setMat (setMat k 5 zf) 6 (orthoB d (mat k 4) z) with step := 10 })
  | _ =>
    let k := setMat k 0 (orthoX d (mat k 0) z)
    if k.iter + 1 < 5 then (s, { k with step := 8, iter := k.iter + 1 }) else
    let out := orthoEnd d (cxLr k.word) (paramsIn s p d (srcSlots s p k).1 (ldRows d * ldCols d)) (mat k 0)
    let (ws, fl) := paramsOut d (dstSlots s p k).1 out
    (coxWrite s p k ws, { k with flags := k.flags ||| fl, step := 99 })

/-! ## The Cox goes on -/

def getCoxCmd (s : State) (p : Fin 8) (i : Nat) : Option CoxCmd := s.cox[p].cmds[i]?

/-- A matrix command goes on until an MM of it is in the Course or must wait; `f` bounds the steps. -/
def goMatrix : Nat → State → Fin 8 → Nat → State
  | 0, s, _, _ => s
  | f + 1, s, p, i =>
    match getCoxCmd s p i with
    | none => s
    | some k =>
      if k.run || k.busy then s
      else if k.step = 99 then coxDone s p i k
      else if k.step = 20 || k.step = 21 then let (s, k) := matElem s p k; goMatrix f (setCoxCmd s p i k) p i
      else if prodUnits k ≤ k.unit then let (s, k) := afterProd s p k; goMatrix f (setCoxCmd s p i k) p i
      else if k.mm = 3 then
        let (_, _, _, _, _, _, _, last) := unitOf k
        let k' := { k with unit := k.unit + 1, mm := 0, blocks := if last then k.blocks ++ [readBlock s p k] else k.blocks }
        goMatrix f (setCoxCmd s p i k') p i
      else if k.mm = 0 && k.since.isNone then
        let n := coxCourse s p
        let (_, _, _, _, _, _, first, _) := unitOf k
        let (ws, fl) := stageUnit s p k
        if guarded s n (ws.map (·.1)) || (first && tileBusy s n (coxTileBase s p)) then s else
        let s := palletWriteL s n ws
        let s := if first then bindTile s n (coxTileBase s p) (unitTile s p) else s
        let k := { k with flags := k.flags ||| fl }
        (offerMm (setCoxCmd s p i k) p i k).1
      else (offerMm s p i k).1

/-- Steps a matrix command can take without waiting: more than all its products and blocks have. -/
def matFuel : Nat := 1000000

/-- One more range of a gradient is processed, where it is there; `f` bounds the ranges. -/
def goRanges : Nat → State → Fin 8 → Nat → State
  | 0, s, _, _ => s
  | f + 1, s, p, i =>
    match getCoxCmd s p i with
    | none => s
    | some k =>
      let total := gradBytes k.desc k.src
      if k.run then s
      else if total ≤ k.fed then coxDone s p i k
      else
        let e := min total ((k.fed / 65536 + 1) * 65536)
        let u := unitBytesG k
        -- whole elements, or whole rows of an embedding
        let e := if ldEmbed k.desc then min total (max ((e / u) * u) (k.fed + u)) else e
        if !gradThere s p k k.fed e then s else
        let (reads, ws, fl) :=
          if ldEmbed k.desc then
            (List.range ((e - k.fed) / u)).foldl (fun (acc : List Nat × List (Nat × Byte) × FlagByte) j =>
              let (r, w, f) := embedRow s p k (k.fed / u + j)
              (acc.1 ++ r, acc.2.1 ++ w, acc.2.2 ||| f)) ([], [], 0)
          else denseRange s p k (k.fed / u) ((e - k.fed) / u)
        match coxUe s p k.src k.fed e reads (ws.map (·.1)) with
        | some (r, a) => coxFail (collUeEvent s p (r, a)) p i k r a ws
        | none => goRanges f (setCoxCmd (coxWrite (coxRead s p k.src k.fed e reads) p k ws) p i { k with started := true, fed := e, flags := k.flags ||| fl }) p i

/-- A Cox command goes on as far as its gradient allows (R309, R313). A layer pinned by an EXPORT waits (R353), and so does an
APPLY while its HOLD is at work. -/
def goCox (s : State) (p : Fin 8) (i : Nat) : State :=
  match getCoxCmd s p i with
  | none => s
  | some k =>
    let d := k.desc
    let total := gradBytes d k.src
    let before := (s.cox[p].cmds.take i).any fun x => x.layer = k.layer && !x.run
    if k.run || before || layerPinned s.crews[k.crew] (strokeNum s k.crew) k.layer then s else
    match feederFailed s k with
    | some r => coxFail s p i k r 0 []
    | none =>
      if cxOp k.word = 0x62 then
        if !gradThere s p k 0 total then s else
        match coxUe s p k.src 0 total [] [] with
        | some (r, a) => coxFail (collUeEvent s p (r, a)) p i k r a []
        | none => coxDone (coxRead s p k.src 0 total []) p i { k with fed := total }
      else if cxSkip k.word then coxDone s p i k
      else if ldRule d < 2 then
        if ldEmbed d && !k.started then
          let (reads, ws) := embedCopy s p k
          match coxUe s p k.src 0 0 reads (ws.map (·.1)) with
          | some (r, a) => coxFail (collUeEvent s p (r, a)) p i k r a ws
          | none =>
            let s := coxRead s p k.src 0 0 reads
            goRanges (total / 65536 + total + 2) (setCoxCmd (coxWrite (fillWork s p k) p k ws) p i { k with started := true }) p i
        else goRanges (total / 65536 + total + 2) s p i
      else if ldRule d < 4 then
        if !gradThere s p k 0 total then s else
        let (reads, ws, fl) := layerRule s p k
        match coxUe s p k.src 0 total reads (ws.map (·.1)) with
        | some (r, a) => coxFail (collUeEvent s p (r, a)) p i k r a ws
        | none =>
          let s := coxRead s p k.src 0 total reads
          let k := { k with started := true, fed := total, flags := k.flags ||| fl }
          coxDone (setCoxCmd (coxWrite s p k ws) p i k) p i k
      else if !k.started then
        if !gradThere s p k 0 total then s else
        let (ps, ss) := srcSlots s p k
        let reads := (List.range (paramBytes d)).map (ps + ·) ++ (List.range (stateBytes d)).map (ss + ·)
        match coxUe s p k.src 0 total reads [] with
        | some (r, a) => coxFail (collUeEvent s p (r, a)) p i k r a []
        | none =>
          let (s, k) := matStart (fillWork (coxRead s p k.src 0 total reads) p k) p { k with fed := total }
          goMatrix matFuel (setCoxCmd s p i k) p i
      else goMatrix matFuel s p i

/-- Every command of the partition goes on. -/
def goCoxAll (s : State) (p : Fin 8) : State := (List.range s.cox[p].cmds.length).foldl (fun s i => goCox s p i) s

/-! ## The rows -/

/-- A 64-byte store at the Cox issue port (R230, R298, R306, R307). -/
def coxPort (s : State) (w : Who) (cmd : Cmd) : State :=
  let op := cxOp cmd
  castReady (issueStore s w (fun _ _ _ => true) op (cxTag cmd) (cxEvent cmd) fun s c p iss =>
    if op ≠ 0x61 && op ≠ 0x62 && op ≠ 0x63 then retireUnit s iss op (cxTag cmd) 0 (rejected .badOpcode) else
    match s.crews[c].attempt with
    | none => s
    | some a =>
      let l := cxLayer cmd
      let src := if op = 0x63 then (match a.held.find? fun h => h.1 = l with | some h => h.2.1 | none => cmd) else cmd
      let d := layerDesc s p l
      let blank : CoxCmd :=
        { word := cmd, src := src, iss := iss, crew := c, layer := l, desc := d, feeder := none, started := false, fed := 0, flags := 0,
          bits := 0, blk := 0, side := 0, step := 0, iter := 0, anyHeld := false, unit := 0, mm := 0, busy := false, since := none,
          blocks := [], mats := [], run := false, res := Res.okay }
      match coxReject s c p a cmd src d with
      | some r => updCox s p fun x => { x with cmds := x.cmds ++ [{ blank with run := true, res := rejected r }] }
      | none =>
        let feeder := if op = 0x63 then none else findFeeder s p iss (cxGrad src) (gradBytes d src)
        let k := { blank with feeder := feeder }
        let sum := match a.held.find? fun h => h.1 = l with | some h => h.2.2 | none => 0
        let s := updAttempt s c fun a =>
          if op = 0x63 then { a with held := a.held.filter fun h => h.1 ≠ l }
          else if op = 0x62 then { a with held := a.held ++ [(l, cmd, 0)], named := a.named ++ [l] }
          else { a with named := a.named ++ [l] }
        let k := { k with res := { k.res with d0 := BitVec.ofNat 64 sum.toNat } }
        let s := updCox s p fun x => { x with cmds := x.cmds ++ [k] }
        goCox s p (s.cox[p].cmds.length - 1))

/-- UPDATE (R310). -/
def execUpdate (w : Who) (c : Cmd) (s : State) : Host.Outcome State Fault Refusal := powered s (coxPort s w c)

/-- HOLD (R313). -/
def execHold (w : Who) (c : Cmd) (s : State) : Host.Outcome State Fault Refusal := powered s (coxPort s w c)

/-- APPLY (R313). -/
def execApply (w : Who) (c : Cmd) (s : State) : Host.Outcome State Fault Refusal := powered s (coxPort s w c)

/-- COX_FEED (R309): the commands of the layer go on with what the feeding CREWOP has written. -/
def execCoxFeed (p : Fin 8) (layer : Nat) (s : State) : Host.Outcome State Fault Refusal :=
  powered s (castReady ((List.range s.cox[p].cmds.length).foldl (fun s i =>
    match getCoxCmd s p i with | some k => if k.layer = layer then goCox s p i else s | none => s) s))

/-- COX_SHARE_WINDOW (R314): ten microseconds of timebase have passed; the share is counted anew and what waits for it goes on. -/
def execCoxShareWindow (p : Fin 8) (s : State) : Host.Outcome State Fault Refusal :=
  powered s (
    let s := reach s (s.cox[p].winStart + 10000)
    let s := updCox s p fun x => { x with winStart := s.now, winUsed := 0 }
    (castReady (goCoxAll s p)))

/-- COX_RETIRE (R309, R312, R231): the first command of the layer whose work is done retires once the CREWOP that fed it has. -/
def execCoxRetire (p : Fin 8) (layer : Nat) (s : State) : Host.Outcome State Fault Refusal :=
  powered s (
    match s.cox[p].cmds.find? fun k => k.layer = layer && k.run with
    | none => s
    | some k =>
      let fed := match k.feeder with | none => true | some (c, n) => match findOp s c n with | none => true | some o => o.retired
      if !fed && k.res.cls ≠ .rejected then s else
      let res := match feederFailed s k with
        | some r => if k.res.cls = .ok then { failedRes r k.started 0 with flags := k.res.flags } else k.res
        | none => k.res
      let s := updCox s p fun x => { x with cmds := x.cmds.erase k }
      let s := if res.cls = .rejected then s else ctrAdd s 0 0x7300 (0xA1 + p) 1
      let s := retireNoted s k.iss (cxOp k.word) (cxTag k.word) (cxEvent k.word) (some layer) res
      let s := (List.finRange 4).foldl (fun s f => laneGap s (.cox f)) s
      (castReady (goCoxAll s p)))

/-- CLEAR_DIRTY (R305): what a write naming a layer does; the rights are judged by the dictionary (16). -/
def clearDirty (s : State) (p : Fin 8) (layer : Nat) : State :=
  if layer < layerCount s p then setLayerRec s p layer (layerRec s p layer &&& ~~~ 8) else s

/-- A layer as its state record reads (R303): HELD while a HOLD of the running Stroke has no APPLY. -/
def layerReads (s : State) (p : Fin 8) (layer : Nat) : BitVec 512 :=
  let held := (List.finRange 16).any fun c => crewOwner s c = some p &&
    match s.crews[c].attempt with | some a => a.held.any fun h => h.1 = layer | none => false
  layerRec s p layer ||| (if held then 4 else 0)

end Sys2Proof.Machine
end

