-- ==== Sys2Proof/Machine/Crews.lean ====
section
/-! DEFINITION. Rows of Crews and of the Rigger's issue port (12): the handshake, silence, RECOVER, and the collective commands. -/

namespace Sys2Proof.Machine

open Sys2Proof

/-! ## The handshake (R268, R334) -/

/-- To a peer whose HELLO of the epoch is newly held while an attempt is pending: RESOLVE with the decision or none, and rank 1's
log entry to rank 0 (R334). -/
def tellPending (s : State) (c : Fin 16) (r : Nat) : State :=
  let k := s.crews[c]
  if k.state ≠ .recovering || k.attempt.isNone || !(k.fin = .unresolved || k.fin = .decided) then s else
  let st := strokeNum s c
  let n := attNum s c
  let none_ := mkDecision s c st n 0 0 0 0xFFFFFFFF []
  let s := sendDec s c 0x26 (k.decision.getD none_) r
  if myRank s c = 1 && r = 0 then
    let e := logEntryOf s c st n
    let incl := match k.logged with | some d => if d.stroke = st && d.attempt = n then d.incl else none_.incl | none => none_.incl
    sendFin s c 0 0x22 st.toNat n (match e with | some e => max e.term.toNat k.term.toNat | none => k.term.toNat)
      (match e with
        | some e => leBytes 1 e.decision ++ leBytes 1 e.cause ++ leBytes 2 0 ++ wordBytes incl
        | none => leBytes 4 0 ++ wordBytes incl)
  else s

/-- A HELLO of the own hash and epoch is held; one newly held is answered. -/
def holdHello (s : State) (c : Fin 16) (r : Nat) : State :=
  if s.crews[c].hellos.contains r then s else
  let s := updCrew s c fun k => { k with hellos := k.hellos ++ [r] }
  orNoRoute (let (s, lost) := sendHello s c [r]; (tellPending s c r, lost)) c

/-- A HELLO of a higher epoch is adopted (R268): a member in FORMING stays there, and its commands wait while HS is 0 (R266). -/
def adoptEpoch (s : State) (c : Fin 16) (e : BitVec 32) : State :=
  if s.crews[c].state = .forming then orNoRoute (startEpoch (waitAgain s c) c e) c
  else enterRecovering s c 7 none none (some e)

/-- HELLO (R268). -/
def execHello (c : Fin 16) (rank : Nat) (hash : BitVec 64) (epoch : BitVec 32) (s : State) : Host.Outcome State Fault Refusal :=
  powered s (
    let k := s.crews[c]
    if k.state = .undefined || !(crewPeers s c).contains rank then s else
    let s := updCrew (noteHeard s c rank) c fun k => { k with seen := if k.seen.toNat < epoch.toNat then epoch else k.seen }
    if hash ≠ k.hash then
      -- MEMBERSHIP_MISMATCH: the spec gives it no cause code
      let (v, s) := fresh s
      (setProblem s c (v.toNat % 256) (some (rankMid s c rank)))
    else if k.epoch.toNat < epoch.toNat then
      castReady (applyReq (checkHs (holdHello (adoptEpoch s c epoch) c rank) c) c)
    else if epoch.toNat < k.epoch.toNat then (ctrAdd s 0 (crewIdx c) 0x27 1)
    else (castReady (applyReq (checkHs (holdHello s c rank) c) c)))

/-- HELLO_RESEND (R268): every 1 ms to each peer that has not answered; one that cannot be reached is a fault (R269). -/
def execHelloResend (c : Fin 16) (s : State) : Host.Outcome State Fault Refusal :=
  powered s (
    let k := s.crews[c]
    if k.state = .undefined || k.hs then s else
    castReady (orNoRoute (sendHello s c ((crewPeers s c).filter fun r => !k.hellos.contains r)) c))

/-- At time `t` a HEARTBEAT leaves for rank `peer`; where none can, the Crew recovers (R269). -/
def beat (s : State) (c : Fin 16) (peer : Nat) (t : U64) : State :=
  let s := reach s t
  let (s, ok) := sendSync s c peer 2 0 (leBytes 4 (myRank s c))
  if ok then s else castReady (crewFault s c 3 (some peer) none)

/-- HEARTBEAT (R269); a peer that cannot be reached is a fault. -/
def execHeartbeat (c : Fin 16) (peer : Nat) (s : State) : Host.Outcome State Fault Refusal :=
  powered s (
    let k := s.crews[c]
    if k.state = .undefined || !(crewPeers s c).contains peer then s else
    beat s c peer (assocGet k.sent peer k.since + 1000000))

/-- MEMBER_LOST (R269). -/
def execMemberLost (c : Fin 16) (peer : Nat) (s : State) : Host.Outcome State Fault Refusal :=
  powered s (
    let k := s.crews[c]
    if !crewLive k.state || !(crewPeers s c).contains peer then s else
    let last := (assocGet k.heard peer k.since).toNat
    let s := reach s (BitVec.ofNat 64 (last + 1000 * silenceLimit s c))
    (castReady (crewFault s c 1 (some peer) none)))

/-- RECOVER (R269): of the current epoch, it is forwarded once to the peers at the other levels. -/
def execRecover (c : Fin 16) (src : Nat) (epoch : BitVec 32) (cause : Byte) (lost : BitVec 32) (s : State) : Host.Outcome State Fault Refusal :=
  powered s (
    let k := s.crews[c]
    if k.state = .undefined then s else
    let s := noteHeard s c src
    if epoch ≠ k.epoch then (ctrAdd s 0 (crewIdx c) 0x27 1) else
    if !crewLive k.state then s else
    let others := (crewPeers s c).filter fun r => peerLevel s c r ≠ peerLevel s c src
    let s := (sendSyncs s c others 3 (wordBytes cause ++ wordBytes lost)).1
    (castReady (enterRecovering s c 7 (if lost.toNat < crewP s c then some lost.toNat else none) none none)))

/-! ## Commands of the Rigger's issue port (R274, R289) -/

/-- ALLREDUCE (R278, R280). -/
def execAllreduce (w : Who) (c : Cmd) (s : State) : Host.Outcome State Fault Refusal := powered s (riggerPort s w c)
/-- REDUCESCATTER (R277, R280). -/
def execReducescatter (w : Who) (c : Cmd) (s : State) : Host.Outcome State Fault Refusal := powered s (riggerPort s w c)
/-- ALLGATHER (R277, R280). -/
def execAllgather (w : Who) (c : Cmd) (s : State) : Host.Outcome State Fault Refusal := powered s (riggerPort s w c)
/-- BROADCAST (R274). -/
def execBroadcast (w : Who) (c : Cmd) (s : State) : Host.Outcome State Fault Refusal := powered s (riggerPort s w c)
/-- REDUCE (R280). -/
def execReduce (w : Who) (c : Cmd) (s : State) : Host.Outcome State Fault Refusal := powered s (riggerPort s w c)
/-- ALLTOALL (R274). -/
def execAlltoall (w : Who) (c : Cmd) (s : State) : Host.Outcome State Fault Refusal := powered s (riggerPort s w c)
/-- ALLTOALLV (R283 to R285). -/
def execAlltoallv (w : Who) (c : Cmd) (s : State) : Host.Outcome State Fault Refusal := powered s (riggerPort s w c)
/-- BARRIER (R274, R293). -/
def execBarrier (w : Who) (c : Cmd) (s : State) : Host.Outcome State Fault Refusal := powered s (riggerPort s w c)
/-- SEND (R289). -/
def execSend (w : Who) (c : Cmd) (s : State) : Host.Outcome State Fault Refusal := powered s (riggerPort s w c)
/-- RECV (R289). -/
def execRecv (w : Who) (c : Cmd) (s : State) : Host.Outcome State Fault Refusal := powered s (riggerPort s w c)

/-- DONE (R289). -/
def execDone (c : Fin 16) (src : Sender) (msg : BitVec 32) (n : DoneCount) (s : State) :
    Host.Outcome State Fault Refusal :=
  powered s (castReady (crewSync s c src.rank src.epoch fun s => doneMsg s c src.rank msg n.landed n.ends))

/-- CREWOP_RETIRE (R292, R294). -/
def execCrewopRetire (c : Fin 16) (op : Nat) (s : State) : Host.Outcome State Fault Refusal :=
  powered s (castReady (takeWaiting (retireOp s c op) c))

/-- A write to an entry of a partition's collective region table: while a command in flight names it, it waits (R271). -/
def writeCollRegion (s : State) (p : Fin 8) (i : Nat) (d : BitVec 128) : State :=
  if caNamed s p i then updFunc s (funcOf p) fun k => { k with collWrites := k.collWrites ++ [(i, d)] }
  else updFunc s (funcOf p) fun k => { k with collRegions := assocSet k.collRegions i d 0 }

/-- A write to a send-on handle of a partition (R286). -/
def writeHandle (s : State) (p : Fin 8) (i : Nat) (d : BitVec 128) : State :=
  if handleNamed s p i then updFunc s (funcOf p) fun k => { k with handleWrites := k.handleWrites ++ [(i, d)] }
  else updFunc s (funcOf p) fun k => { k with handles := assocSet k.handles i d 0 }

end Sys2Proof.Machine
end

