-- ==== Sys2Proof/Machine/DictTable.lean ====
section
/-! DEFINITION. The object dictionary's table: every object the chapters of spec/ tabulate, with its type code (R389), access code
(R393), persistence (R391), size, default where it is RW or S, and fields where it is a RECORD. A DOMAIN's declared size is the one
its chapter gives; where it gives entries only, their number times their size. -/

namespace Sys2Proof.Machine

open Sys2Proof

/-- A row: first and last index, first and last sub-index, and what every object of it is. -/
abbrev ObjRow := Nat × Nat × Nat × Nat × ObjInfo

/-- Part 1 of the table. -/
def objRows1 : List ObjRow :=
  [(0x6100, 0x6107, 0x10, 0x10, ⟨2, 2, false, 1, [0], []⟩), -- Course n sticky flags
   (0x6200, 0x6200, 0x10, 0x17, ⟨2, 2, false, 1, [0], []⟩), -- Trowel n sticky flags
   (0x6100, 0x6107, 0x01, 0x01, ⟨2, 1, false, 1, [], []⟩), -- Spare lanes remaining
   (0x6100, 0x6107, 0x02, 0x02, ⟨2, 1, false, 1, [], []⟩), -- Suspect lanes
   (0x6100, 0x6107, 0x04, 0x04, ⟨12, 1, false, 1028, [], []⟩), -- Lane map
   (0x6100, 0x6107, 0x20, 0x20, ⟨1, 2, false, 1, [1], []⟩), -- Check enable
   (0x6100, 0x6107, 0x21, 0x21, ⟨3, 4, false, 2, [64, 0], []⟩), -- Tolerance margin τ
   (0x6100, 0x6107, 0x30, 0x30, ⟨5, 1, false, 8, [], []⟩), -- Pass re-runs
   (0x6100, 0x6107, 0x31, 0x31, ⟨5, 1, false, 8, [], []⟩), -- Check failures
   (0x6100, 0x6107, 0x32, 0x32, ⟨5, 1, false, 8, [], []⟩), -- Check exemptions
   (0x6000, 0x6000, 0x01, 0x01, ⟨1, 4, false, 1, [1], []⟩), -- Deterministic mode
   (0x6100, 0x6107, 0x33, 0x33, ⟨5, 1, false, 8, [], []⟩), -- Conflict stalls
   (0x6100, 0x6107, 0x34, 0x34, ⟨5, 1, false, 8, [], []⟩), -- Widened commands
   (0x6100, 0x6107, 0x35, 0x35, ⟨5, 1, false, 8, [], []⟩), -- Tile-shared rejections
   (0x6100, 0x6107, 0x40, 0x40, ⟨12, 2, false, 32, [], []⟩), -- First-offender record
   (0x6200, 0x6200, 0x20, 0x27, ⟨2, 1, false, 1, [], []⟩), -- Trowel n spare lanes remaining
   (0x6200, 0x6200, 0x30, 0x37, ⟨5, 1, false, 8, [], []⟩), -- Trowel n port stalls
   (0x6200, 0x6200, 0x40, 0x47, ⟨5, 1, false, 8, [], []⟩), -- Trowel n commands retired
   (0x6300, 0x6300, 0x10, 0x17, ⟨2, 1, false, 1, [], []⟩), -- Spare banks remaining
   (0x6300, 0x6300, 0x18, 0x1F, ⟨12, 1, false, 128, [], []⟩), -- Bank map
   (0x6300, 0x6300, 0x20, 0x27, ⟨5, 1, false, 8, [], []⟩), -- Bank-conflict cycles
   (0x6300, 0x6300, 0x28, 0x2F, ⟨5, 1, false, 8, [], []⟩), -- Guard stalls
   (0x6300, 0x6300, 0x30, 0x37, ⟨5, 1, false, 8, [], []⟩), -- Corrected ECC errors
   (0x6300, 0x6300, 0x38, 0x3F, ⟨5, 1, false, 8, [], []⟩), -- Uncorrectable ECC errors
   (0x6300, 0x6300, 0x40, 0x47, ⟨5, 1, false, 8, [], []⟩), -- Out-of-bounds rejections
   (0x5000, 0x5000, 0x01, 0x01, ⟨5, 4, true, 8, [0, 0, 0, 0, 0, 0, 0, 192], []⟩), -- Coarse set
   (0x5000, 0x5000, 0x02, 0x02, ⟨2, 4, true, 1, [12], []⟩), -- Interleave granule
   (0x5000, 0x5000, 0x03, 0x03, ⟨4, 1, false, 4, [], []⟩), -- Stacks in service
   (0x5000, 0x5000, 0x04, 0x04, ⟨5, 1, false, 8, [], []⟩), -- Partition capacity
   (0x5000, 0x5000, 0x10, 0x10, ⟨12, 1, false, 65536, [], []⟩), -- Reservation map
   (0x5000, 0x5000, 0x40, 0x47, ⟨12, 4, false, 256, [], []⟩), -- Region table of partition n = sub - 0x40
   (0x5100, 0x5113, 0x01, 0x01, ⟨2, 1, false, 1, [], []⟩), -- Stack state
   (0x5100, 0x5113, 0x02, 0x02, ⟨12, 1, false, 64, [], []⟩), -- Pseudo-channel map
   (0x5100, 0x5113, 0x03, 0x03, ⟨1, 3, false, 1, [], []⟩), -- Retire request
   (0x5100, 0x5113, 0x10, 0x10, ⟨5, 1, false, 8, [], []⟩), -- Corrected errors
   (0x5100, 0x5113, 0x11, 0x11, ⟨5, 1, false, 8, [], []⟩), -- Uncorrectable errors
   (0x5100, 0x5113, 0x12, 0x12, ⟨12, 1, false, 32, [], []⟩), -- Last uncorrectable record
   (0x5100, 0x5113, 0x13, 0x13, ⟨4, 1, false, 4, [], []⟩), -- Rows repaired
   (0x5100, 0x5113, 0x20, 0x20, ⟨5, 1, false, 8, [], []⟩), -- Coarse waste
   (0x5100, 0x5113, 0x21, 0x21, ⟨5, 1, false, 8, [], []⟩), -- COARSE_SHORT rejections
   (0x5200, 0x5200, 0x01, 0xA0, ⟨13, 4, false, 9, [0, 0, 153, 9, 0, 0, 1, 0, 1], [3, 3, 4, 1]⟩), -- Regulator of partition n on stack s
   (0x5300, 0x5300, 0x01, 0x01, ⟨2, 2, false, 1, [255], []⟩), -- Margining stack
   (0x5300, 0x5300, 0x02, 0x02, ⟨13, 4, false, Config.sweepDefault.length, Config.sweepDefault, Config.sweepFields⟩), -- Sweep
   (0x5300, 0x5300, 0x03, 0x03, ⟨1, 3, false, 1, [], []⟩), -- Start
   (0x5300, 0x5300, 0x05, 0x05, ⟨2, 1, false, 1, [], []⟩)] -- Margining state

/-- Part 2 of the table. -/
def objRows2 : List ObjRow :=
  [(0x5300, 0x5300, 0x06, 0x06, ⟨12, 1, false, 819200, [], []⟩), -- Eye map
   (0x5400, 0x5400, 0x01, 0x40, ⟨13, 4, false, 20, [255, 0, 0, 0, 0, 0, 0, 0, 0, 0, 0, 0, 0, 0, 0, 0, 0, 0, 0, 0], [2, 5, 5, 2, 7]⟩), -- Adder region
   (0x6100, 0x6107, 0x50, 0x50, ⟨5, 1, false, 8, [], []⟩), -- Hod 2n commands retired
   (0x6100, 0x6107, 0x51, 0x51, ⟨5, 1, false, 8, [], []⟩), -- Hod 2n+1 commands retired
   (0x6100, 0x6107, 0x52, 0x52, ⟨5, 1, false, 8, [], []⟩), -- Hod 2n bytes moved
   (0x6100, 0x6107, 0x53, 0x53, ⟨5, 1, false, 8, [], []⟩), -- Hod 2n+1 bytes moved
   (0x6100, 0x6107, 0x54, 0x54, ⟨5, 1, false, 8, [], []⟩), -- Hod 2n and 2n+1 widening waste
   (0x6100, 0x6107, 0x55, 0x55, ⟨5, 1, false, 8, [], []⟩), -- Hod 2n and 2n+1 queue-full stalls
   (0x6100, 0x6107, 0x56, 0x56, ⟨5, 1, false, 8, [], []⟩), -- Hod 2n and 2n+1 re-executions
   (0x65F0, 0x65F8, 0x01, 0x01, ⟨12, 2, false, 131072, [], []⟩), -- Host region table of function f = index - 0x65F0
   (0x1900, 0x1900, 0x01, 0x01, ⟨13, 1, false, 4, [], [2, 2, 1, 2]⟩), -- Link state
   (0x1900, 0x1900, 0x02, 0x02, ⟨5, 1, false, 8, [], []⟩), -- Link retrains
   (0x1900, 0x1900, 0x03, 0x03, ⟨5, 1, false, 8, [], []⟩), -- FEC-corrected flits
   (0x1900, 0x1900, 0x04, 0x04, ⟨5, 1, false, 8, [], []⟩), -- Ignored writes
   (0x1900, 0x1900, 0x05, 0x05, ⟨5, 1, false, 8, [], []⟩), -- BAR2 rejected requests
   (0x1900, 0x1900, 0x10, 0x10, ⟨5, 4, false, 8, [0, 0, 0, 0, 0, 0, 0, 0], []⟩), -- BAR2 window base
   (0x1910, 0x1918, 0x01, 0x01, ⟨12, 2, false, 16384, [], []⟩), -- Moderation table of function f = index - 0x1910
   (0x6400, 0x643F, 0x01, 0x01, ⟨2, 3, false, 1, [], []⟩), -- Stream s control
   (0x6400, 0x643F, 0x02, 0x02, ⟨5, 4, false, 8, [0, 0, 0, 0, 0, 0, 0, 0], []⟩), -- Command ring IOVA
   (0x6400, 0x643F, 0x03, 0x03, ⟨5, 4, false, 8, [0, 0, 0, 0, 0, 0, 0, 0], []⟩), -- Completion ring IOVA
   (0x6400, 0x643F, 0x04, 0x04, ⟨5, 4, false, 8, [0, 0, 0, 0, 0, 0, 0, 0], []⟩), -- ACKW
   (0x6400, 0x643F, 0x05, 0x05, ⟨2, 4, false, 1, [0], []⟩), -- LOGN
   (0x6400, 0x643F, 0x06, 0x06, ⟨4, 4, false, 4, [0, 0, 0, 0], []⟩), -- PASID
   (0x6400, 0x643F, 0x07, 0x07, ⟨4, 4, false, 4, [160, 134, 1, 0], []⟩), -- Maximum poll interval
   (0x6400, 0x643F, 0x08, 0x08, ⟨3, 4, false, 2, [255, 255], []⟩), -- MSI-X vector
   (0x6400, 0x643F, 0x09, 0x09, ⟨1, 4, false, 1, [0], []⟩), -- Notify all
   (0x6400, 0x643F, 0x10, 0x10, ⟨2, 1, false, 1, [], []⟩), -- State
   (0x6400, 0x643F, 0x11, 0x11, ⟨2, 1, false, 1, [], []⟩), -- Halt reason
   (0x6400, 0x643F, 0x12, 0x12, ⟨5, 1, false, 8, [], []⟩), -- Halt detail
   (0x6400, 0x643F, 0x20, 0x20, ⟨5, 1, false, 8, [], []⟩), -- ACCEPTED
   (0x6400, 0x643F, 0x21, 0x21, ⟨5, 1, false, 8, [], []⟩), -- RETIRED
   (0x6400, 0x643F, 0x22, 0x22, ⟨5, 1, false, 8, [], []⟩), -- HOSTACK
   (0x6400, 0x643F, 0x30, 0x30, ⟨12, 1, false, 262144, [], []⟩), -- Retirement history
   (0x6400, 0x643F, 0x31, 0x31, ⟨5, 1, false, 8, [], []⟩), -- CRC mismatches
   (0x6400, 0x643F, 0x32, 0x32, ⟨5, 1, false, 8, [], []⟩), -- Duplicates ignored
   (0x6400, 0x643F, 0x33, 0x33, ⟨5, 1, false, 8, [], []⟩), -- Stale acknowledgements
   (0x6480, 0x6488, 0x01, 0x01, ⟨12, 1, false, 2048, [], []⟩), -- Stream summary of function f = index - 0x6480
   (0x6500, 0x6500, 0x01, 0x01, ⟨12, 1, false, 32760, [], []⟩), -- Event counters
   (0x6500, 0x6500, 0x02, 0x02, ⟨3, 3, false, 2, [], []⟩), -- Signal event
   (0x6500, 0x6500, 0x03, 0x03, ⟨2, 1, false, 1, [], []⟩), -- Journal state
   (0x7000, 0x7000, 0x01, 0x01, ⟨4, 4, false, 4, [255, 255, 255, 255], []⟩), -- MID
   (0x7000, 0x7000, 0x02, 0x02, ⟨1, 4, false, 1, [0], []⟩), -- Timebase master
   (0x7000, 0x7000, 0x03, 0x03, ⟨13, 1, false, 7, [], [2, 2, 2, 8]⟩), -- Time state
   (0x7000, 0x7000, 0x05, 0x05, ⟨12, 1, false, 36, [], []⟩), -- Laser inputs
   (0x7000, 0x7000, 0x10, 0x17, ⟨12, 1, false, 9, [], []⟩)] -- Bank b lane map

/-- Part 3 of the table. -/
def objRows3 : List ObjRow :=
  [(0x7100, 0x710F, 0x01, 0x01, ⟨2, 1, false, 1, [], []⟩), -- Port state
   (0x7100, 0x710F, 0x02, 0x02, ⟨2, 1, false, 1, [], []⟩), -- Lanes in service
   (0x7100, 0x710F, 0x03, 0x03, ⟨4, 1, false, 4, [], []⟩), -- Peer MID
   (0x7100, 0x710F, 0x10, 0x10, ⟨5, 1, false, 8, [], []⟩), -- Packets sent
   (0x7100, 0x710F, 0x11, 0x11, ⟨5, 1, false, 8, [], []⟩), -- Packets accepted
   (0x7100, 0x710F, 0x12, 0x12, ⟨5, 1, false, 8, [], []⟩), -- Packets resent
   (0x7100, 0x710F, 0x13, 0x13, ⟨5, 1, false, 8, [], []⟩), -- CRC and control-word errors
   (0x7100, 0x710F, 0x14, 0x14, ⟨5, 1, false, 8, [], []⟩), -- FEC corrected symbols
   (0x7100, 0x710F, 0x15, 0x15, ⟨5, 1, false, 8, [], []⟩), -- FEC uncorrectable codewords
   (0x7100, 0x710F, 0x16, 0x16, ⟨5, 1, false, 8, [], []⟩), -- Times DOWN
   (0x7100, 0x710F, 0x17, 0x17, ⟨5, 1, false, 8, [], []⟩), -- Chunk checksum failures
   (0x7100, 0x710F, 0x18, 0x18, ⟨5, 1, false, 8, [], []⟩), -- Packets relayed
   (0x7100, 0x710F, 0x19, 0x19, ⟨5, 1, false, 8, [], []⟩), -- Packets dropped
   (0x7400, 0x7400, 0x01, 0x01, ⟨12, 4, false, 32768, [], []⟩), -- Routing table
   (0x7200, 0x720F, 0x01, 0x01, ⟨13, 1, false, 6, [], [2, 1, 4]⟩), -- State
   (0x7200, 0x720F, 0x02, 0x02, ⟨3, 4, false, 2, [0, 0], []⟩), -- CTAG
   (0x7200, 0x720F, 0x03, 0x03, ⟨4, 4, false, 4, [1, 0, 0, 0], []⟩), -- Size P
   (0x7200, 0x720F, 0x04, 0x04, ⟨13, 4, false, 16, [1, 0, 0, 0, 1, 0, 0, 0, 1, 0, 0, 0, 1, 0, 0, 0], [4, 4, 4, 4]⟩), -- Group sizes
   (0x7200, 0x720F, 0x05, 0x05, ⟨13, 4, false, 4, [0, 0, 0, 0], [2, 2, 2, 2]⟩), -- Wire formats
   (0x7200, 0x720F, 0x06, 0x06, ⟨12, 4, false, 524288, [], []⟩), -- Rank map
   (0x7200, 0x720F, 0x07, 0x07, ⟨4, 1, false, 4, [], []⟩), -- Own rank
   (0x7200, 0x720F, 0x08, 0x08, ⟨5, 1, false, 8, [], []⟩), -- Membership hash
   (0x7200, 0x720F, 0x09, 0x09, ⟨2, 4, false, 1, [255], []⟩), -- Owner partition
   (0x7200, 0x720F, 0x0A, 0x0A, ⟨2, 2, false, 1, [16], []⟩), -- Weight
   (0x7200, 0x720F, 0x0B, 0x0B, ⟨2, 4, false, 1, [20], []⟩), -- Chunk size
   (0x7200, 0x720F, 0x0C, 0x0C, ⟨4, 4, false, 4, [80, 195, 0, 0], []⟩), -- Silence limit
   (0x7200, 0x720F, 0x0D, 0x0D, ⟨2, 3, false, 1, [], []⟩), -- Control
   (0x7200, 0x720F, 0x0E, 0x0E, ⟨13, 1, false, 13, [], [2, 4, 5]⟩), -- Last problem
   (0x7200, 0x720F, 0x20, 0x20, ⟨5, 1, false, 8, [], []⟩), -- Commands completed
   (0x7200, 0x720F, 0x21, 0x21, ⟨5, 1, false, 8, [], []⟩), -- Bytes sent
   (0x7200, 0x720F, 0x22, 0x22, ⟨5, 1, false, 8, [], []⟩), -- Bytes received
   (0x7200, 0x720F, 0x23, 0x23, ⟨5, 1, false, 8, [], []⟩), -- Rows dropped
   (0x7200, 0x720F, 0x24, 0x24, ⟨12, 1, false, 512, [], []⟩), -- Stage bubbles
   (0x7200, 0x720F, 0x25, 0x25, ⟨5, 1, false, 8, [], []⟩), -- Credit waits
   (0x7200, 0x720F, 0x26, 0x26, ⟨5, 1, false, 8, [], []⟩), -- Unclaimed send-on tiles
   (0x7200, 0x720F, 0x27, 0x27, ⟨5, 1, false, 8, [], []⟩), -- Stale-epoch packets
   (0x7280, 0x7287, 0x01, 0x01, ⟨12, 2, false, 65536, [], []⟩), -- Region table of partition n = index - 0x7280
   (0x7290, 0x7297, 0x01, 0x01, ⟨12, 2, false, 65520, [], []⟩), -- Send-on handles of partition n = index - 0x7290
   (0x7300, 0x7300, 0x01, 0x08, ⟨5, 4, false, 8, [0, 0, 0, 0, 0, 0, 0, 0], []⟩), -- Layer table base
   (0x7300, 0x7300, 0x11, 0x18, ⟨4, 4, false, 4, [0, 0, 0, 0], []⟩), -- Layer count
   (0x7300, 0x7300, 0x21, 0x28, ⟨5, 4, false, 8, [0, 0, 0, 0, 0, 0, 0, 0], []⟩), -- Active table base
   (0x7300, 0x7300, 0x31, 0x38, ⟨2, 4, false, 1, [255], []⟩), -- Cox Course
   (0x7300, 0x7300, 0x41, 0x48, ⟨2, 4, false, 1, [0], []⟩), -- Course share
   (0x7300, 0x7300, 0x51, 0x58, ⟨4, 4, false, 4, [0, 0, 0, 0], []⟩), -- Scratch offset
   (0x7300, 0x7300, 0x61, 0x68, ⟨4, 4, false, 4, [0, 0, 0, 0], []⟩)] -- Scratch size

/-- Part 4 of the table. -/
def objRows4 : List ObjRow :=
  [(0x7300, 0x7300, 0x71, 0x78, ⟨2, 4, false, 1, [60], []⟩), -- Tile base h
   (0x7300, 0x7300, 0x81, 0x88, ⟨12, 1, false, 1048576, [], []⟩), -- Layer states
   (0x7300, 0x7300, 0x91, 0x98, ⟨4, 3, false, 4, [], []⟩), -- Clear dirty
   (0x7300, 0x7300, 0xA1, 0xA8, ⟨5, 1, false, 8, [], []⟩), -- Cox commands retired
   (0x7300, 0x7300, 0xB1, 0xB8, ⟨5, 1, false, 8, [], []⟩), -- Share-wait time
   (0x7300, 0x7300, 0xF0, 0xF0, ⟨2, 1, false, 1, [], []⟩), -- Spare Cox lanes
   (0x7200, 0x720F, 0x30, 0x30, ⟨2, 4, false, 1, [0], []⟩), -- Replica mask
   (0x7200, 0x720F, 0x31, 0x31, ⟨2, 4, false, 1, [0], []⟩), -- Straggler policy
   (0x7200, 0x720F, 0x32, 0x32, ⟨4, 4, false, 4, [136, 19, 0, 0], []⟩), -- Straggler deadline
   (0x7200, 0x720F, 0x33, 0x33, ⟨2, 4, false, 1, [4], []⟩), -- Attempt limit
   (0x7200, 0x720F, 0x34, 0x34, ⟨3, 4, false, 2, [0, 16], []⟩), -- Late limit
   (0x7200, 0x720F, 0x35, 0x35, ⟨5, 4, false, 8, [0, 0, 0, 0, 0, 0, 0, 0], []⟩), -- Deferral area base
   (0x7200, 0x720F, 0x36, 0x36, ⟨5, 4, false, 8, [0, 0, 0, 0, 0, 0, 0, 0], []⟩), -- Deferral area size
   (0x7200, 0x720F, 0x37, 0x37, ⟨5, 4, false, 8, [0, 0, 0, 0, 0, 0, 0, 0], []⟩), -- Undo area base
   (0x7200, 0x720F, 0x38, 0x38, ⟨5, 4, false, 8, [0, 0, 0, 0, 0, 0, 0, 0], []⟩), -- Undo area size
   (0x7200, 0x720F, 0x39, 0x39, ⟨3, 4, false, 2, [0, 0], []⟩), -- SHAKE period
   (0x7200, 0x720F, 0x3A, 0x3A, ⟨12, 4, false, 96, [], []⟩), -- SHAKE layers
   (0x7200, 0x720F, 0x3B, 0x3B, ⟨13, 4, false, 16, [0, 0, 0, 0, 0, 0, 0, 0, 0, 0, 0, 0, 0, 0, 0, 0], [5, 5]⟩), -- HBM subscriber ring
   (0x7200, 0x720F, 0x3C, 0x3C, ⟨13, 4, false, 18, [0, 0, 0, 0, 0, 0, 0, 0, 0, 0, 0, 0, 0, 0, 0, 0, 0, 0], [3, 5, 5]⟩), -- Host subscriber ring
   (0x7200, 0x720F, 0x3D, 0x3D, ⟨5, 1, false, 8, [], []⟩), -- Last finished Stroke
   (0x7200, 0x720F, 0x3E, 0x3E, ⟨13, 1, false, 14, [], [2, 2, 4, 5]⟩), -- Finish state
   (0x7200, 0x720F, 0x3F, 0x3F, ⟨12, 1, false, 2048, [], []⟩), -- Decision log
   (0x7200, 0x720F, 0x40, 0x40, ⟨12, 1, false, 1073741824, [], []⟩), -- Card ring
   (0x7200, 0x720F, 0x41, 0x41, ⟨2, 1, false, 1, [], []⟩), -- Rejoin state
   (0x7200, 0x720F, 0x42, 0x42, ⟨12, 3, false, 1048584, [], []⟩), -- Layer state load
   (0x7200, 0x720F, 0x43, 0x43, ⟨5, 1, false, 8, [], []⟩), -- Attempts aborted
   (0x7200, 0x720F, 0x44, 0x44, ⟨5, 1, false, 8, [], []⟩), -- Strokes finished after replay
   (0x7200, 0x720F, 0x45, 0x45, ⟨5, 1, false, 8, [], []⟩), -- Deferrals lost
   (0x7200, 0x720F, 0x46, 0x46, ⟨5, 1, false, 8, [], []⟩), -- Subscriber Cards overwritten
   (0x1800, 0x1800, 0x01, 0x01, ⟨13, 1, false, 6, [], [2, 2, 4]⟩), -- Evolu state
   (0x1800, 0x1800, 0x02, 0x02, ⟨2, 2, true, 1, [0], []⟩), -- Address
   (0x1800, 0x1800, 0x03, 0x03, ⟨4, 1, false, 4, [], []⟩), -- Epoch
   (0x1800, 0x1800, 0x04, 0x04, ⟨12, 1, false, 256, [], []⟩), -- Sessions
   (0x1800, 0x1800, 0x05, 0x05, ⟨4, 4, false, 4, [96, 234, 0, 0], []⟩), -- Idle limit
   (0x1800, 0x1800, 0x10, 0x10, ⟨12, 4, true, 320, [], []⟩), -- Trust anchors
   (0x1800, 0x1800, 0x20, 0x20, ⟨5, 1, false, 8, [], []⟩), -- Bursts sent
   (0x1800, 0x1800, 0x21, 0x21, ⟨5, 1, false, 8, [], []⟩), -- Collisions
   (0x1800, 0x1800, 0x22, 0x22, ⟨5, 1, false, 8, [], []⟩), -- Frames discarded after 16 attempts
   (0x1800, 0x1800, 0x23, 0x23, ⟨5, 1, false, 8, [], []⟩), -- Line errors
   (0x1800, 0x1800, 0x24, 0x24, ⟨5, 1, false, 8, [], []⟩), -- Frames received with errors
   (0x1800, 0x1800, 0x25, 0x25, ⟨5, 1, false, 8, [], []⟩), -- Strangers
   (0x1800, 0x1800, 0x26, 0x26, ⟨5, 1, false, 8, [], []⟩), -- Handshakes refused or failed
   (0x1800, 0x1800, 0x27, 0x27, ⟨5, 1, false, 8, [], []⟩), -- Retransmissions
   (0x1800, 0x1800, 0x28, 0x28, ⟨5, 1, false, 8, [], []⟩), -- Address conflicts
   (0x1800, 0x1800, 0x29, 0x29, ⟨5, 1, false, 8, [], []⟩)] -- Epoch notices sent

/-- Part 5 of the table. -/
def objRows5 : List ObjRow :=
  [(0xA000, 0xA000, 0x01, 0x01, ⟨13, 1, false, 13, [], [2, 4, 2, 2, 3, 4]⟩), -- Open set
   (0xA000, 0xA000, 0x02, 0x02, ⟨4, 3, false, 4, [], []⟩), -- Force abort
   (0xA000, 0xA000, 0x03, 0x03, ⟨4, 3, false, 4, [], []⟩), -- Cancel pending
   (0xA000, 0xA000, 0x04, 0x04, ⟨4, 0, false, 4, [], []⟩), -- Lease
   (0xA000, 0xA000, 0x05, 0x05, ⟨3, 0, false, 2, [], []⟩), -- Object limit
   (0xA000, 0xA000, 0x06, 0x06, ⟨12, 1, false, 16384, [], []⟩), -- Staged objects
   (0xA100, 0xA100, 0x01, 0x01, ⟨12, 1, false, 512, [], []⟩), -- Pending sets
   (0xA100, 0xA100, 0x02, 0x02, ⟨12, 1, false, 2048, [], []⟩), -- History
   (0xA100, 0xA100, 0x03, 0x03, ⟨12, 1, false, 65536, [], []⟩), -- Conflicts
   (0xA100, 0xA100, 0x04, 0x04, ⟨4, 1, false, 4, [], []⟩), -- Last identifier
   (0xA100, 0xA100, 0x05, 0x05, ⟨5, 1, false, 8, [], []⟩), -- Sets applied
   (0xA100, 0xA100, 0x06, 0x06, ⟨5, 1, false, 8, [], []⟩), -- Sets ended unapplied
   (0x1000, 0x1000, 0x01, 0x01, ⟨3, 0, false, 2, [], []⟩), -- Vendor ID
   (0x1000, 0x1000, 0x02, 0x02, ⟨11, 0, false, 16, [], []⟩), -- Part number
   (0x1000, 0x1000, 0x03, 0x03, ⟨11, 0, false, 4, [], []⟩), -- Stepping
   (0x1000, 0x1000, 0x04, 0x04, ⟨5, 0, false, 8, [], []⟩), -- Serial number
   (0x1000, 0x1000, 0x05, 0x05, ⟨4, 1, false, 4, [], []⟩), -- Module state
   (0x1000, 0x1000, 0x06, 0x06, ⟨13, 1, false, 4, [], [2, 2, 2, 2]⟩), -- Units in service
   (0x1008, 0x1008, 0x01, 0x01, ⟨2, 1, false, 1, [], []⟩), -- Running image
   (0x1008, 0x1008, 0x02, 0x02, ⟨4, 1, false, 4, [], []⟩), -- Image A version
   (0x1008, 0x1008, 0x03, 0x03, ⟨4, 1, false, 4, [], []⟩), -- Image B version
   (0x1008, 0x1008, 0x04, 0x04, ⟨4, 0, false, 4, [], []⟩), -- Boot ROM version
   (0x100A, 0x100A, 0x01, 0x01, ⟨4, 1, false, 4, [], []⟩), -- Numeric revision
   (0x8000, 0x8000, 0x01, 0x01, ⟨13, 1, false, 10, [], [2, 2, 5]⟩), -- Pointing state
   (0x8000, 0x8000, 0x02, 0x02, ⟨12, 1, false, 128, [], []⟩), -- Activity status
   (0x8000, 0x8000, 0x11, 0x11, ⟨3, 4, false, 2, [50, 0], []⟩), -- budget of activity 1
   (0x8000, 0x8000, 0x12, 0x12, ⟨3, 4, false, 2, [0, 0], []⟩), -- budget of activity 2
   (0x8000, 0x8000, 0x13, 0x13, ⟨3, 4, false, 2, [50, 0], []⟩), -- budget of activity 3
   (0x8000, 0x8000, 0x14, 0x14, ⟨3, 4, false, 2, [50, 0], []⟩), -- budget of activity 4
   (0x8000, 0x8000, 0x15, 0x15, ⟨3, 4, false, 2, [50, 0], []⟩), -- budget of activity 5
   (0x8000, 0x8000, 0x16, 0x16, ⟨3, 4, false, 2, [0, 0], []⟩), -- budget of activity 6
   (0x8000, 0x8000, 0x17, 0x17, ⟨3, 4, false, 2, [0, 0], []⟩), -- budget of activity 7
   (0x8000, 0x8000, 0x18, 0x18, ⟨3, 4, false, 2, [50, 0], []⟩), -- budget of activity 8
   (0x8000, 0x8000, 0x21, 0x21, ⟨4, 4, false, 4, [128, 81, 1, 0], []⟩), -- deadline of activity 1
   (0x8000, 0x8000, 0x22, 0x22, ⟨4, 4, false, 4, [88, 2, 0, 0], []⟩), -- deadline of activity 2
   (0x8000, 0x8000, 0x23, 0x23, ⟨4, 4, false, 4, [96, 84, 0, 0], []⟩), -- deadline of activity 3
   (0x8000, 0x8000, 0x24, 0x24, ⟨4, 4, false, 4, [96, 84, 0, 0], []⟩), -- deadline of activity 4
   (0x8000, 0x8000, 0x25, 0x25, ⟨4, 4, false, 4, [128, 58, 9, 0], []⟩), -- deadline of activity 5
   (0x8000, 0x8000, 0x26, 0x26, ⟨4, 4, false, 4, [128, 81, 1, 0], []⟩), -- deadline of activity 6
   (0x8000, 0x8000, 0x27, 0x27, ⟨4, 4, false, 4, [0, 0, 0, 0], []⟩), -- deadline of activity 7
   (0x8000, 0x8000, 0x28, 0x28, ⟨4, 4, false, 4, [0, 0, 0, 0], []⟩), -- deadline of activity 8
   (0x8000, 0x8000, 0x30, 0x30, ⟨12, 1, false, 1048576, [], []⟩), -- Pointing log
   (0x8000, 0x8000, 0x31, 0x31, ⟨5, 1, false, 8, [], []⟩), -- Preemptions
   (0x8000, 0x8000, 0x32, 0x32, ⟨5, 1, false, 8, [], []⟩), -- Deadlines missed
   (0x8000, 0x8000, 0x33, 0x33, ⟨5, 1, false, 8, [], []⟩)] -- Repairs

/-- Part 6 of the table. -/
def objRows6 : List ObjRow :=
  [(0x8100, 0x8100, 0x01, 0x01, ⟨13, 1, false, 12, [], [3, 3, 3, 3, 2, 2, 2, 2]⟩), -- Spares remaining
   (0x8100, 0x8100, 0x02, 0x02, ⟨4, 1, false, 4, [], []⟩), -- Degraded state
   (0x8100, 0x8100, 0x03, 0x03, ⟨12, 1, false, 65536, [], []⟩), -- Repair map
   (0x8100, 0x8100, 0x04, 0x04, ⟨5, 1, false, 8, [], []⟩), -- Repair map write failures
   (0x8100, 0x8100, 0x10, 0x10, ⟨1, 3, false, 1, [], []⟩), -- Clear repair map
   (0x2000, 0x2000, 0x01, 0x01, ⟨4, 1, false, 4, [], []⟩), -- Input voltage
   (0x2000, 0x2000, 0x02, 0x02, ⟨4, 1, false, 4, [], []⟩), -- Input power
   (0x2000, 0x2000, 0x03, 0x03, ⟨5, 1, false, 8, [], []⟩), -- Input energy
   (0x2000, 0x2000, 0x04, 0x04, ⟨13, 1, false, 13, [], [2, 5, 8]⟩), -- Last shutdown record
   (0x2100, 0x2100, 0x01, 0x01, ⟨3, 2, true, 2, [16, 14], []⟩), -- Power cap
   (0x2100, 0x2100, 0x02, 0x02, ⟨13, 1, false, 10, [], [1, 1, 5]⟩), -- Cap state
   (0x2100, 0x2100, 0x03, 0x03, ⟨5, 1, false, 8, [], []⟩), -- Fast-limit events
   (0x2200, 0x2200, 0x01, 0x01, ⟨7, 1, false, 2, [], []⟩), -- Hottest junction
   (0x2200, 0x2200, 0x02, 0x02, ⟨12, 1, false, 168, [], []⟩), -- Sensor readings
   (0x2200, 0x2200, 0x03, 0x03, ⟨13, 1, false, 13, [], [1, 4, 5]⟩), -- Throttle state
   (0x2200, 0x2200, 0x04, 0x04, ⟨2, 2, true, 1, [100], []⟩), -- Throttle limit
   (0x2200, 0x2200, 0x05, 0x05, ⟨13, 1, false, 4, [], [7, 7]⟩), -- Cold-plate temperatures
   (0x2300, 0x2300, 0x01, 0x01, ⟨13, 1, false, 6, [], [3, 3, 3]⟩), -- Clocks in force
   (0x2300, 0x2300, 0x02, 0x02, ⟨13, 1, false, 7, [], [1, 1, 1, 4]⟩), -- Reference state
   (0x2300, 0x2300, 0x03, 0x03, ⟨5, 1, false, 8, [], []⟩), -- Frequency steps
   (0x2400, 0x2400, 0x01, 0x01, ⟨2, 3, false, 1, [], []⟩), -- Warm reset
   (0x2400, 0x2400, 0x02, 0x02, ⟨13, 1, false, 24, [], [5, 5, 4, 4]⟩), -- Reset counts
   (0x2400, 0x2400, 0x03, 0x03, ⟨1, 3, false, 1, [], []⟩), -- Prepare for removal
   (0x2400, 0x2400, 0x04, 0x04, ⟨2, 1, false, 1, [], []⟩), -- Last warm reset cause
   (0x2400, 0x2400, 0x05, 0x05, ⟨4, 1, true, 4, [], []⟩), -- Cold starts
   (0x2400, 0x2400, 0x06, 0x06, ⟨2, 1, false, 1, [], []⟩), -- Removal state
   (0x4000, 0x4000, 0x01, 0x08, ⟨13, 4, true, 2, [0, 0], [1, 2]⟩), -- Partition n = sub - 1
   (0x4000, 0x4000, 0x10, 0x10, ⟨2, 1, false, 1, [], []⟩), -- Partitions defined
   (0x4100, 0x4100, 0x01, 0x01, ⟨12, 1, false, 1952, [], []⟩), -- Identity public key
   (0x4100, 0x4100, 0x02, 0x02, ⟨12, 0, false, 32, [], []⟩), -- Vendor root key hash
   (0x4100, 0x4100, 0x03, 0x03, ⟨12, 1, false, 32, [], []⟩), -- Owner key hash
   (0x4100, 0x4100, 0x04, 0x04, ⟨12, 3, false, 32, [], []⟩), -- Burn owner key hash
   (0x4100, 0x4100, 0x05, 0x05, ⟨2, 1, false, 1, [], []⟩), -- Rollback counter
   (0x4100, 0x4100, 0x06, 0x06, ⟨1, 3, false, 1, [], []⟩), -- Advance rollback counter
   (0x4100, 0x4100, 0x10, 0x10, ⟨12, 3, false, 67108864, [], []⟩), -- Image slot A
   (0x4100, 0x4100, 0x11, 0x11, ⟨12, 3, false, 67108864, [], []⟩), -- Image slot B
   (0x4100, 0x4100, 0x12, 0x12, ⟨2, 2, true, 1, [0], []⟩), -- Boot preference
   (0x4100, 0x4100, 0x13, 0x13, ⟨13, 1, false, 3, [], [2, 2, 2]⟩), -- Boot record
   (0x4200, 0x4200, 0x01, 0x01, ⟨12, 3, false, 32, [], []⟩), -- Attestation nonce
   (0x4200, 0x4200, 0x02, 0x02, ⟨12, 1, false, 5549, [], []⟩), -- Attestation report
   (0x9000, 0x904F, 0x01, 0x01, ⟨13, 2, false, 40, Group.default, [2, 2, 2, 2, 4, 3, 3, 3, 3, 3, 3, 3, 3, 5, 5]⟩), -- Group configuration
   (0x9000, 0x904F, 0x02, 0x02, ⟨13, 1, false, 25, [], [2, 5, 5, 5]⟩), -- Group state
   (0x9050, 0x9050, 0x01, 0x01, ⟨12, 1, false, 268435456, [], []⟩), -- Device ring
   (0x9800, 0x9800, 0x01, 0x01, ⟨13, 2, false, 3, [0, 0, 0], [1, 2, 2]⟩), -- Trace control
   (0x9800, 0x9800, 0x02, 0x02, ⟨12, 2, false, 272, [], []⟩)] -- Trace filters

/-- Part 7 of the table. -/
def objRows7 : List ObjRow :=
  [(0x9801, 0x9801, 0x01, 0x01, ⟨13, 1, false, 17, [], [2, 5, 5]⟩), -- Trace state
   (0x9801, 0x9801, 0x02, 0x02, ⟨12, 1, false, 268435456, [], []⟩), -- Spill region
   (0x9802, 0x9802, 0x01, 0x01, ⟨5, 1, false, 8, [], []⟩), -- Trace stalls
   (0x9803, 0x9803, 0x01, 0x01, ⟨5, 1, false, 8, [], []⟩), -- Trace drops
   (0x0001, 0x0001, 1, 1, ⟨4, 0, false, 4, [1, 0, 0, 0], []⟩), -- size of type 1
   (0x0002, 0x0002, 1, 1, ⟨4, 0, false, 4, [1, 0, 0, 0], []⟩), -- size of type 2
   (0x0003, 0x0003, 1, 1, ⟨4, 0, false, 4, [2, 0, 0, 0], []⟩), -- size of type 3
   (0x0004, 0x0004, 1, 1, ⟨4, 0, false, 4, [4, 0, 0, 0], []⟩), -- size of type 4
   (0x0005, 0x0005, 1, 1, ⟨4, 0, false, 4, [8, 0, 0, 0], []⟩), -- size of type 5
   (0x0006, 0x0006, 1, 1, ⟨4, 0, false, 4, [1, 0, 0, 0], []⟩), -- size of type 6
   (0x0007, 0x0007, 1, 1, ⟨4, 0, false, 4, [2, 0, 0, 0], []⟩), -- size of type 7
   (0x0008, 0x0008, 1, 1, ⟨4, 0, false, 4, [4, 0, 0, 0], []⟩), -- size of type 8
   (0x0009, 0x0009, 1, 1, ⟨4, 0, false, 4, [8, 0, 0, 0], []⟩), -- size of type 9
   (0x000A, 0x000A, 1, 1, ⟨4, 0, false, 4, [4, 0, 0, 0], []⟩), -- size of type 10
   (0x000B, 0x000B, 1, 1, ⟨4, 0, false, 4, [0, 0, 0, 0], []⟩), -- size of type 11
   (0x000C, 0x000C, 1, 1, ⟨4, 0, false, 4, [0, 0, 0, 0], []⟩), -- size of type 12
   (0x000D, 0x000D, 1, 1, ⟨4, 0, false, 4, [0, 0, 0, 0], []⟩)] -- size of type 13

/-- The table. -/
def objRows : List ObjRow := objRows1 ++ objRows2 ++ objRows3 ++ objRows4 ++ objRows5 ++ objRows6 ++ objRows7

/-- The rows of RECORD objects, in the table's order. -/
def recordRows : List ObjRow := objRows.filter fun r => r.2.2.2.2.ty = 13

/-- The record definition of the n-th of them: an index from 0x0040 to 0x00FF (R410). -/
def recordIndex (n : Nat) : Nat := 0x40 + Config.recordDef n % 192

/-- The fields of the record definition at an index, where there is one. -/
def recordFields (idx : Nat) : Option (List Nat) :=
  (recordRows.zipIdx.find? fun x => recordIndex x.2 = idx).map fun x => x.1.2.2.2.2.fields

/-- The record definition of an object; 0 where it is no RECORD. -/
def recordOf (idx sub : Nat) : Nat :=
  match recordRows.zipIdx.find? fun x => x.1.1 ≤ idx && idx ≤ x.1.2.1 && x.1.2.2.1 ≤ sub && sub ≤ x.1.2.2.2.1 with
  | some x => recordIndex x.2
  | none => 0

/-- The row an object stands in. -/
def objRow (idx sub : Nat) : Option ObjRow :=
  objRows.find? fun r => r.1 ≤ idx && idx ≤ r.2.1 && r.2.2.1 ≤ sub && sub ≤ r.2.2.2.1

/-- The highest sub-index in use at an index; none where the index holds no object (R388). -/
def highestSub (idx : Nat) : Option Nat :=
  match (objRows.filter fun r => r.1 ≤ idx && idx ≤ r.2.1).map (·.2.2.2.1) with
  | [] => (recordFields idx).map fun _ => 2
  | l => some (l.foldl max 0)

/-- What an object is; none where it does not exist. Sub-index 0 is a U8, RO (R388); a record definition has two objects (R410). -/
def objInfo (idx sub : Nat) : Option ObjInfo :=
  if sub = 0 then (highestSub idx).map fun _ => ⟨2, 1, false, 1, [], []⟩
  else match objRow idx sub with
    | some r => some r.2.2.2.2
    | none => match recordFields idx with
      | some fs => if sub = 1 then some ⟨2, 0, false, 1, [], []⟩ else if sub = 2 then some ⟨12, 0, false, fs.length, [], []⟩ else none
      | none => none

/-- Bytes of a type of fixed length (R389); 0 for STR, DOMAIN and RECORD. -/
def typeSize (ty : Nat) : Nat :=
  match ty with
  | 1 | 2 | 6 => 1
  | 3 | 7 => 2
  | 4 | 8 | 10 => 4
  | 5 | 9 => 8
  | _ => 0

end Sys2Proof.Machine
end

