-- ==== Sys2Proof/Machine/EvoluNet.lean ====
section
/-! DEFINITION. Evolu below the service messages (15): frames, addresses, sessions with their windows, and handshakes. -/

namespace Sys2Proof.Machine

open Sys2Proof

/-! ## Bursts (R356, R357) -/

/-- The code groups of a burst: 72 D21.5, /I2/ (K28.5 D16.2), /S/, the bytes of the frame, /T/ and /R/. -/
def burstGroups (frame : List Byte) : List CodeGroup :=
  List.replicate 72 (.d 0xB5) ++ [.k285, .d 0x50, .s] ++ frame.map .d ++ [.t, .r]

def updEvolu (s : State) (g : Evolu → Evolu) : State := { s with evolu := g s.evolu }

/-! ## State and events (R386, R387) -/

/-- The state code of 0x1800:01. -/
def evoluCode (e : Evolu) : Nat :=
  match e.medium with | .busy => 3 | .down => 4 | .ok => if e.addr = 0 then 1 else 2

def evoluBytes (s : State) : List Byte :=
  leBytes 1 (evoluCode s.evolu) ++ leBytes 1 s.evolu.addr.toNat ++ leBytes 4 s.evolu.epoch.toNat

/-- An EVOLU event where the state or the address has changed. -/
def evoluEvent (s t : State) : State :=
  if evoluCode s.evolu = evoluCode t.evolu ∧ s.evolu.addr = t.evolu.addr then t else raiseEvent t 10 1 0 0x100 (evoluBytes t)

/-! ## Frames (R363 to R365) -/

def frameHdr (aseq tseq epoch session len service src dst : Nat) : List Byte :=
  leBytes 20 (place 120 (aseq % 65536) + place 104 (tseq % 65536) + place 72 (epoch % 2 ^ 32) + place 40 (session % 2 ^ 32) +
    place 24 (len % 2048) + place 16 (service % 256) + place 8 (src % 64) + place 6 1 + dst % 64)

def sealFrame (hdr payload tag : List Byte) : List Byte :=
  let b := hdr ++ payload ++ List.replicate (24 - payload.length) 0 ++ tag
  b ++ leBytes 4 (crc32 b).toNat

/-- The tag of a session frame (R371). -/
def frameTag (key hdr payload : List Byte) : List Byte := kmac256 key (hdr ++ payload) 16 "EVOLU-TAG"

/-- Fields of a received frame. -/
def frHdr (b : List Byte) : Nat := leAt b 0 20
def frDst (b : List Byte) : Nat := nfld (frHdr b) 5 0
def frVer (b : List Byte) : Nat := nfld (frHdr b) 7 6
def frSrc (b : List Byte) : Nat := nfld (frHdr b) 13 8
def frService (b : List Byte) : Nat := nfld (frHdr b) 23 16
def frLen (b : List Byte) : Nat := nfld (frHdr b) 34 24
def frSession (b : List Byte) : Nat := nfld (frHdr b) 71 40
def frEpoch (b : List Byte) : Nat := nfld (frHdr b) 103 72
def frTseq (b : List Byte) : Nat := nfld (frHdr b) 119 104
def frAseq (b : List Byte) : Nat := nfld (frHdr b) 135 120
def frPayload (b : List Byte) : List Byte := sliceZ b 20 (frLen b)
/-- Reserved bits, version, length or service break R364 and R365. -/
def frMalformed (b : List Byte) : Bool :=
  let h := frHdr b
  nfld h 159 136 != 0 || nfld h 39 35 != 0 || nfld h 15 14 != 0 || frVer b != 1 || frLen b > 1024 || frSrc b = 63 ||
    !([1, 2, 3, 0x20, 0x21, 0x22, 0x30, 0x31, 0x32, 0x33, 0x40].contains (frService b))
/-- The CRC and the length of a frame agree. -/
def frCrcOk (b : List Byte) : Bool :=
  b.length = 20 + max 24 (frLen b) + 20 && leAt b (b.length - 4) 4 = (crc32 (b.take (b.length - 4))).toNat
def frTag (b : List Byte) : List Byte := sliceZ b (b.length - 20) 16

/-- A frame is queued in its class (R359). -/
def queueFrame (s : State) (h : Bool) (bytes : List Byte) (sess : Option (Fin 8 × BitVec 16)) : State :=
  let f : TxFrame := ⟨bytes, sess, 0, 0, 0⟩
  updEvolu s fun e => if h then { e with hq := e.hq ++ [f] } else { e with nq := e.nq ++ [f] }

/-- A class-N frame without a session. -/
def sendPlain (s : State) (service dst session tseq aseq epoch : Nat) (payload : List Byte) : State :=
  queueFrame s false
    (sealFrame (frameHdr aseq tseq epoch session payload.length service s.evolu.addr.toNat dst) payload (List.replicate 16 0)) none

/-- A stranger's frame is dropped and counted (R381). -/
def stranger (s : State) : State := ctrAdd s 0 0x1800 0x25 1

/-! ## Session frames (R371, R373, R374) -/

/-- A frame of a session with its TSEQ, the current ASEQ and its tag. -/
def sessSend (s : State) (i : Fin 8) (service : Nat) (tseq : BitVec 16) (payload : List Byte) : State :=
  let k := s.evolu.sessions[i]
  let hdr := frameHdr (k.expect - 1).toNat tseq.toNat s.evolu.epoch.toNat k.sid.toNat payload.length service s.evolu.addr.toNat k.addr.toNat
  let bytes := sealFrame hdr payload (frameTag k.key hdr payload)
  queueFrame (updSession s i fun k => { k with ackOwed := false }) (service ≠ 1) bytes (some (i, tseq))

/-- An ACK with an abort code and the frame expected. -/
def sendAck (s : State) (i : Fin 8) (abort : Nat) : State :=
  let k := s.evolu.sessions[i]
  sessSend s i 3 k.txNext (leBytes 2 abort ++ leBytes 2 k.expect.toNat)

/-- The window of 16 has room and the session sends new frames. -/
def sessRoom (k : Session) : Bool := k.state == .opened && k.unacked.length < 16

/-- A new REQUEST or RESPONSE frame leaves and is kept until acknowledged. -/
def sessNew (s : State) (i : Fin 8) (service : Nat) (payload : List Byte) : State :=
  let t := s.evolu.sessions[i].txNext
  let s := updSession s i fun k =>
    { k with txNext := k.txNext + 1, unacked := k.unacked ++ [⟨t, BitVec.ofNat 8 service, payload, 0, s.now⟩] }
  sessSend s i service t payload

/-- Responses that waited for room leave. -/
def flushOutN : Nat → State → Fin 8 → State
  | 0, s, _ => s
  | n + 1, s, i =>
    let k := s.evolu.sessions[i]
    match k.outWait with
    | (q, p) :: rest =>
      if !sessRoom k then s else
      let s := updSession s i fun k =>
        { k with outWait := rest, cache := k.cache.map fun e => if e.tseq = q then { e with reply := some (k.txNext, p) } else e }
      flushOutN n (sessNew s i 2 p) i
    | [] => s
def flushOut (s : State) (i : Fin 8) : State := flushOutN 16 s i

/-- The response of a request leaves when the window allows. -/
def sendResponse (s : State) (i : Fin 8) (req : BitVec 16) (payload : List Byte) : State :=
  flushOut (updSession s i fun k => { k with outWait := k.outWait ++ [(req, payload)] }) i

/-- An unacknowledged frame is sent again; the eighth resend puts the session into SUSPECT. -/
def resendOne (s : State) (i : Fin 8) (f : SessFrame) : State :=
  let again (x : SessFrame) : SessFrame := if x.tseq = f.tseq then { x with resends := x.resends + 1 } else x
  let s := updSession s i fun k =>
    { k with unacked := k.unacked.map again, state := if f.resends + 1 ≥ 8 && k.state == .opened then .suspect else k.state }
  ctrAdd (sessSend s i f.service.toNat f.tseq f.payload) 0 0x1800 0x27 1

/-- The oldest unacknowledged frame is sent again. -/
def resendOldest (s : State) (i : Fin 8) : State :=
  match s.evolu.sessions[i].unacked with
  | f :: _ => resendOne s i f
  | [] => s

/-- A round-trip sample (R374). -/
def rttSample (k : Session) (r : Nat) : Session :=
  let (srtt, var) := match k.srtt with
    | none => (r, r / 2)
    | some m => ((7 * m + r) / 8, (3 * k.rttvar + (if m < r then r - m else m - r)) / 4)
  { k with srtt := some srtt, rttvar := var, rto := min 50000000 (max 200000 (srtt + 4 * var)) }

/-- The ASEQ of a frame acknowledges frames the module has sent; an incomparable one does not (R11). -/
def aseqOk (k : Session) (aseq : BitVec 16) : Bool := aseq == k.txNext - 1 || serialAfter (k.txNext - 1) aseq

/-- An ASEQ acknowledges a frame (R11). -/
def aseqAcks (aseq : BitVec 16) (f : SessFrame) : Bool := f.tseq == aseq || serialAfter aseq f.tseq

/-- ASEQ is taken: acknowledged frames go, samples are taken from those sent once, waiting responses leave. -/
def takeAseq (s : State) (i : Fin 8) (aseq : BitVec 16) : State :=
  let k := s.evolu.sessions[i]
  let gone := k.unacked.filter (aseqAcks aseq)
  if gone.isEmpty then s else
  let k' := (gone.filter fun f => f.resends = 0).foldl (fun k f => rttSample k (s.now.toNat - f.at_.toNat)) k
  flushOut (updSession s i fun _ => { k' with unacked := k.unacked.filter fun f => !aseqAcks aseq f }) i

/-! ## Service messages and events (R376, R385, R386) -/

/-- A service message: OP and ABORT beside the rest. -/
def svcBytes (op abort : Nat) (m : SvcMsg) : List Byte :=
  leBytes 1 op ++ [m.mflags] ++ wordBytes m.ref ++ leBytes 2 abort ++ wordBytes m.index ++ [m.sub] ++ [0, 0, 0] ++ wordBytes m.offset ++
    wordBytes m.aux0 ++ wordBytes m.aux1 ++ m.data

/-- A message with nothing but DATA. -/
def SvcMsg.plain (d : List Byte) : SvcMsg := ⟨0, 0, 0, 0, 0, 0, 0, d⟩

/-- The 48 bytes of an event record. -/
def evRecBytes (e : EvRec) : List Byte :=
  leBytes 1 e.cls ++ leBytes 1 e.code ++ leBytes 2 0 ++ wordBytes e.subject ++ wordBytes e.time ++ sliceZ e.payload 0 32

/-- Queued event records leave in one EVENT request, 20 at most, in the order of their times and classes, with the number dropped
before; nothing is sent without room or records. -/
def sendEvents (s : State) (i : Fin 8) : State :=
  let k := s.evolu.sessions[i]
  if !sessRoom k || k.events.isEmpty then s else
  let before (a b : EvRec) : Bool := a.time.toNat < b.time.toNat || (a.time = b.time && a.cls ≤ b.cls)
  let l := sortBy before k.events
  let now := l.take 20
  let data := leBytes 2 k.dropped ++ leBytes 2 now.length ++ leBytes 4 0 ++ now.flatMap evRecBytes
  sessNew (updSession s i fun k => { k with events := l.drop 20, dropped := 0 }) i 1 (svcBytes 0x20 0 (SvcMsg.plain data))

/-! ## Closing (R372, R380) -/

/-- A session closes: its open change set is discarded, its transfer is kept for 60 s, its report goes. -/
def closeSession (s : State) (i : Fin 8) : State :=
  if s.evolu.sessions[i].state = .closed then s else
  let s := endOpenOf s (fun h => match h with | .sess j _ => decide (j = i) | .fn _ => false) 2
  let mine (h : Holder) : Bool := match h with | .sess j _ => decide (j = i) | .fn _ => false
  let leave (t : Transfer) : Transfer := if t.live && mine t.by_ then { t with live := false, closedAt := s.now } else t
  let s := { s with dict := { s.dict with transfers := s.dict.transfers.map leave } }
  let s := { s with sec := { s.sec with reports := s.sec.reports.filter fun x => decide (x.1 ≠ Req.sess i) } }
  let loose (f : TxFrame) : TxFrame := match f.sess with | some (j, _) => if j = i then { f with sess := none } else f | none => f
  updSession (updEvolu s fun e => { e with hq := e.hq.map loose, nq := e.nq.map loose, flight := e.flight.map fun x => (x.1, loose x.2) }) i
    fun _ => Session.init

def closeAll (s : State) : State := (List.finRange 8).foldl closeSession s

/-! ## Addresses (R367) -/

/-- An address conflict: the address is abandoned and claimed again with hint 0. -/
def addressConflict (s : State) : State :=
  if s.evolu.addr = 0 then s else
  let s := raiseEvent (ctrAdd s 0 0x1800 0x28 1) 10 2 0 0x100 (evoluBytes s)
  let s := closeAll s
  updEvolu s fun e => { e with addr := 0, hint := 0, claim := none, shakes := [], hq := [], nq := [] }

/-- ASSIGN: only from address 1, only while claiming, with the own serial and nonce; the address is stored and announced. -/
def takeAssign (s : State) (src : Nat) (serial : BitVec 64) (nonce : BitVec 32) (addr : Nat) : State :=
  let e := s.evolu
  if src ≠ 1 || e.addr ≠ 0 || serial ≠ Config.serial || e.claim ≠ some nonce || addr = 0 || 62 < addr then s else
  let t := updEvolu s fun e => { e with addr := BitVec.ofNat 6 addr, hint := BitVec.ofNat 8 addr, claim := none }
  evoluEvent s (sendPlain t 0x22 63 0 0 0 t.evolu.epoch.toNat (leBytes 8 Config.serial.toNat))

/-- ANNOUNCE: the module's address with another serial is a conflict. -/
def takeAnnounce (s : State) (src : Nat) (serial : BitVec 64) : State :=
  if src = s.evolu.addr.toNat && serial ≠ Config.serial then addressConflict s else s

/-! ## Handshakes (R368 to R370) -/

/-- The trust anchors: digest, ROLE, partition of the valid entry a key matches. -/
def anchorOf (s : State) (key : List Byte) : Option (Fin 8 × Nat × Nat) :=
  let t := objBytes s 0 0x1800 0x10 []
  let d := shake256 key 32
  (List.finRange 8).findSome? fun (a : Fin 8) =>
    if leAt t (40 * a + 34) 1 = 1 && sliceZ t (40 * a) 32 == d then some (a, leAt t (40 * a + 32) 1, leAt t (40 * a + 33) 1) else none

def refuse (s : State) (src hid code : Nat) : State :=
  ctrAdd (sendPlain s 0x33 src hid 0 0 s.evolu.epoch.toNat (leBytes 2 code)) 0 0x1800 0x26 1

def findShake (s : State) (src : BitVec 6) (hid : BitVec 32) : Option Handshake := s.evolu.shakes.find? fun h => h.src = src && h.hid = hid
def setShake (s : State) (h : Handshake) : State :=
  updEvolu s fun e => { e with shakes := e.shakes.filter (fun x => !(x.src = h.src && x.hid = h.hid)) ++ [h] }
def dropShake (s : State) (h : Handshake) : State :=
  updEvolu s fun e => { e with shakes := e.shakes.filter fun x => !(x.src = h.src && x.hid = h.hid) }

/-- A segment joins those held; all of them in order once every one is there. -/
def addSeg (l : List (Nat × List Byte)) (i : Nat) (b : List Byte) : List (Nat × List Byte) := (l.filter fun x => x.1 ≠ i) ++ [(i, b)]
def wholeSegs (l : List (Nat × List Byte)) (n : Nat) : Option (List Byte) :=
  if n ≠ 0 && (List.range n).all (fun i => l.any fun x => x.1 = i) then some ((List.range n).flatMap fun i => assocGet l i []) else none

/-- OPEN_RSP in segments of 1,024 bytes. -/
def sendRsp (s : State) (h : Handshake) : State :=
  let n := (h.rsp.length + 1023) / 1024
  (List.range n).foldl (fun s i => sendPlain s 0x31 h.src.toNat h.hid.toNat i n s.evolu.epoch.toNat ((h.rsp.drop (1024 * i)).take 1024)) s

/-- A whole OPEN_REQ: refused, or answered with OPEN_RSP and a session OPENING. -/
def answerReq (s : State) (h : Handshake) (req : List Byte) : State :=
  let pub := sliceZ req 1216 1952
  if req.length ≠ 3168 then dropShake s h else
  match anchorOf s pub with
  | none => refuse (dropShake s h) h.src.toNat h.hid.toNat 0x0406
  | some (a, role, part) =>
    match (List.finRange 8).find? fun i => s.evolu.sessions[i].state == .closed with
    | none => refuse (dropShake s h) h.src.toNat h.hid.toNat 0x0501
    | some i =>
      let (v, s) := fresh s
      let sid : BitVec 32 := v.setWidth 32
      let n := s.free
      let s := { s with free := s.free + 1 }
      let (ct, ss) := Config.kemEncaps (sliceZ req 32 1184) n
      let head := leBytes 4 sid.toNat ++ leBytes 4 s.evolu.epoch.toNat ++ sliceZ (Config.nonce n) 0 32 ++ sliceZ ct 0 1088 ++
        sliceZ (Config.dsaPublic Config.seedKey) 0 1952
      let t := shake256 (req ++ head) 64
      let rsp := head ++ sliceZ (Config.dsaSign Config.seedKey "EVOLU-RSP" t n) 0 3309
      let h := { h with req := [], reqAll := req, rsp := rsp, slot := some i, t := t, shared := ss, anchor := a, since := s.now }
      let s := updSession (setShake s h) i fun _ => { Session.init with state := .opening, addr := h.src, anchor := a, role := role, part := part, sid := sid }
      sendRsp s h

/-- One segment of an OPEN_REQ (R369, R370). -/
def takeOpenReq (s : State) (src : BitVec 6) (hid : BitVec 32) (index count : Nat) (seg : List Byte) : State :=
  let recent := s.evolu.reqTimes.filter fun x => s.now.toNat < x.2.toNat + 1000000000
  if src = 0 then stranger s
  else if index = 0 && 4 ≤ (recent.filter fun x => x.1 = src).length then stranger (updEvolu s fun e => { e with reqTimes := recent })
  else
    let s := updEvolu s fun e => { e with reqTimes := if index = 0 then recent ++ [(src, s.now)] else recent }
    if hid = 0 || count ≠ 4 || 4 ≤ index || 1024 < seg.length then s else
    match findShake s src hid with
    | some h =>
      let h := { h with since := if h.slot.isNone && h.req.isEmpty then s.now else h.since, req := addSeg h.req index seg, reqCount := count }
      match wholeSegs h.req count with
      | some req =>
        if h.slot.isNone then answerReq s h req
        else if req = h.reqAll then sendRsp (setShake s { h with req := [] }) h
        else setShake s { h with req := [] }
      | none => setShake s h
    | none =>
      if 2 ≤ s.evolu.shakes.length then refuse s src.toNat hid.toNat 0x0502 else
      setShake s ⟨hid, src, [(index, seg)], count, [], 0, s.now, [], [], none, [], [], 0⟩

/-- A verified OPEN_FIN opens the session: an older one of the same anchor and address closes first. -/
def openSession (s : State) (h : Handshake) (i : Fin 8) : State :=
  let s := (List.finRange 8).foldl (fun s j =>
    let k := s.evolu.sessions[j]
    if j ≠ i && (k.state == .opened || k.state == .suspect) && k.anchor = h.anchor && k.addr = h.src then closeSession s j else s) s
  let key := kmac256 h.shared h.t 32 "EVOLU-KEY"
  let s := updSession (dropShake s h) i fun k => { k with state := .opened, key := key, lastRx := s.now }
  sendAck s i 0

/-- One segment of an OPEN_FIN. -/
def takeOpenFin (s : State) (src : BitVec 6) (hid : BitVec 32) (index count : Nat) (seg : List Byte) : State :=
  match findShake s src hid with
  | none => s
  | some h =>
    match h.slot with
    | none => s
    | some i =>
      if count ≠ 4 || 4 ≤ index || 1024 < seg.length then s else
      let h := { h with since := if h.fin.isEmpty then s.now else h.since, fin := addSeg h.fin index seg, finCount := count }
      match wholeSegs h.fin count with
      | none => setShake s h
      | some sig =>
        if sig.length = 3309 && Config.dsaVerify (sliceZ h.reqAll 1216 1952) "EVOLU-FIN" h.t sig then openSession s h i
        else refuse (closeSession (dropShake s h) i) src.toNat hid.toNat 0x0405

end Sys2Proof.Machine
end

