-- ==== Sys2Proof/Machine/HostPort.lean ====
section
/-! DEFINITION. The host port (09): link training, the status page, the HBM window, MSI-X vectors, the rings of a stream, halts,
and the control of streams (R229). -/

namespace Sys2Proof.Machine

open Sys2Proof

/-! ## MSI-X (R193, R194) -/

/-- A vector of a function; masked with nothing pending where it is not listed (log 7). -/
def vecOf (s : State) (f : Fin 9) (v : Fin 2048) : Vec := (s.host.vecs.find? fun x => x.f = f ∧ x.v = v).getD ⟨f, v, 0, 0, true, false, 0, 0⟩

def setVec (s : State) (x : Vec) : State :=
  { s with host := { s.host with vecs := x :: s.host.vecs.filter fun y => ¬(y.f = x.f ∧ y.v = x.v) } }

/-- COUNT (0 stands for 1) and HOLD of a vector, from 0x1910 + f. -/
def vecModeration (s : State) (f : Fin 9) (v : Fin 2048) : Nat × Nat :=
  match objBytes s 0 (0x1910 + f) 1 [] with
  | [] => (1, 0)
  | b => (max 1 (leAt b (8 * v + 4) 2), leAt b (8 * v) 4)

/-- A vector may send: it is not masked, MSI-X is enabled, and Function Mask is clear (R193, the standard's rules of R189; log 39). -/
def vecOpen (s : State) (f : Fin 9) (x : Vec) : Bool := !x.masked && s.host.funcs[f].cfg.msix && !s.host.funcs[f].cfg.fmask

/-- A vector's message is due: it is sent, and its pending count cleared, or the pending bit of a masked one is set. -/
def vecFire (s : State) (f : Fin 9) (v : Fin 2048) : State :=
  let x := vecOf s f v
  if !vecOpen s f x then setVec s { x with pba := true }
  else emit (setVec s { x with pba := false, count := 0 }) (.msix f v x.addr x.data)

/-- A notification to a vector by number; 0xFFFF is none (R220). -/
def notify (s : State) (f : Fin 9) (v : Nat) : State :=
  if h : v < 2048 then
    let v : Fin 2048 := ⟨v, h⟩
    let x := vecOf s f v
    let x := { x with first := if x.count = 0 then s.now else x.first, count := x.count + 1 }
    let s := setVec s x
    let (n, hold) := vecModeration s f v
    if n ≤ x.count || hold = 0 then vecFire s f v else s
  else s

/-- MSIX_HOLD_EXPIRY (R194): HOLD has elapsed since the first pending notification. -/
def execMsixHoldExpiry (f : Fin 9) (v : Fin 2048) (s : State) : Host.Outcome State Fault Refusal :=
  powered s (
    let x := vecOf s f v
    if x.count = 0 || x.pba then s
    else (vecFire (reach s (x.first + BitVec.ofNat 64 (vecModeration s f v).2)) f v))

/-- A vector with its pending bit set that may send does so at once (R194). -/
def vecPending (s : State) (f : Fin 9) (v : Fin 2048) : State :=
  let x := vecOf s f v
  if x.pba && vecOpen s f x then vecFire s f v else s

/-- MSIX_UNMASK (R187, R189, R194): a write of the vector's table entry; a vector left unmasked with its pending bit set sends at once. A
write of the pending bit array, which is read-only in the standard, has no effect (log 39). -/
def execMsixUnmask (f : Fin 9) (w : VecWrite) (s : State) : Host.Outcome State Fault Refusal :=
  powered s (
    match w with
    | .pba _ => s
    | .entry v addr data masked => (vecPending (setVec s { vecOf s f v with addr := addr, data := data, masked := masked }) f v))

/-! ## Link training (R182, R184) -/

/-- The widest link the lanes that can train allow. -/
def linkWidth (lanes : Nat) : Nat := if 16 ≤ lanes then 16 else if 8 ≤ lanes then 8 else if 4 ≤ lanes then 4 else if 2 ≤ lanes then 2 else lanes

/-! ## Status page (R188, R189) -/

def streamCode (t : SState) : Nat := match t with | .disabled => 0 | .waiting => 1 | .polling => 2 | .halted => 3 | .draining => 4
def haltCode (h : Halt) : Nat := match h with | .none => 0 | .gap => 1 | .crcStuck => 2 | .ringFault => 3 | .ackBad => 4 | .journalLost => 5

/-- STATE of the page: BRING_UP, QUIESCED, DEGRADED, else READY. -/
def pageState (s : State) : Nat :=
  if s.power.bringUp ≠ .no then 1 else if s.power.quiesced then 5 else if s.pointing.degraded ≠ 0 || journalLost s then 3 else 2

/-- The page as the module would write it now, under the generation and time it has. -/
def pageNow (s : State) (f : Fin 9) : Page :=
  let k := s.host.funcs[f]
  { k.page with
    state := pageState s
    func := f.val
    numrev := Config.numericRevision
    part := match partOfFn f with | some p => if partValid s p then p.val else 0xFFFF | none => 0xFFFF
    warms := s.power.warms
    streams := sortBy (fun a b => a.1 ≤ b.1) (k.streams.filterMap fun (q, t) =>
      let b : PageStream := ⟨t.accepted, t.retired, t.hostack, streamCode t.state, haltCode t.halt⟩
      if b = ⟨0, 0, 0, 0, 0⟩ then none else some (q, b)) }

/-- A page rewritten with what it says now, where that differs: GEN is odd while it is and even again after. -/
def pageWrite (s : State) (f : Fin 9) (p : Page) : State :=
  if p = s.host.funcs[f].page then s
  else updFunc s f fun k => { k with page := { p with gen := k.page.gen + 2, time := s.now } }

/-- STATUS_PAGE_UPDATE: a changed page is rewritten. -/
def execStatusPageUpdate (f : Fin 9) (s : State) : Host.Outcome State Fault Refusal := powered s (pageWrite s f (pageNow s f))

/-- The status page of a function byte by byte (R188): the head, the blocks of the 64 streams from 0x0040 on, and reserved zeros. -/
def pageByte (p : Page) (off : Nat) : Byte :=
  let head := leBytes 8 p.gen.toNat ++ leBytes 8 p.time.toNat ++ leBytes 4 p.state ++ leBytes 2 p.func ++ leBytes 2 p.part ++
    leBytes 4 p.numrev.toNat ++ leBytes 4 p.warms
  if off < 0x40 then head.getD off 0
  else if off < 0x840 then
    let b := assocGet p.streams ((off - 0x40) / 32) ⟨0, 0, 0, 0, 0⟩
    (leBytes 8 b.accepted.toNat ++ leBytes 8 b.retired.toNat ++ leBytes 8 b.hostack.toNat ++ leBytes 1 b.sstate ++ leBytes 1 b.halt).getD
      ((off - 0x40) % 32) 0
  else 0

/-- BAR0 of a function byte by byte (R187): the status page, the MSI-X table of 16-byte entries in the standard's layout, the pending bit
array, and reserved zeros. -/
def bar0Byte (s : State) (f : Fin 9) (off : Nat) : Byte :=
  let vec (i : Nat) : Vec := vecOf s f (if h : i < 2048 then ⟨i, h⟩ else 0)
  if off < 0x10000 then pageByte s.host.funcs[f].page off
  else if off < 0x18000 then
    let x := vec ((off - 0x10000) / 16)
    (leBytes 8 x.addr.toNat ++ leBytes 4 x.data.toNat ++ leBytes 4 (if x.masked then 1 else 0)).getD (off % 16) 0
  else if off < 0x18100 then
    BitVec.ofNat 8 ((List.range 8).map fun i => if (vec (8 * (off - 0x18000) + i)).pba then 2 ^ i else 0).sum
  else 0

/-- STATUS_PAGE_WRITE (R189): no effect, and counted. -/
def execStatusPageWrite (f : Fin 9) (s : State) : Host.Outcome State Fault Refusal := powered s (ctrAdd s f 0x1900 4 1)

/-! ## The HBM window (R190 to R192) -/

/-- The HBM address of an offset in BAR2; none beyond the window. -/
def bar2Addr (s : State) (f : Fin 9) (off len : Nat) : Option Nat :=
  if off + len ≤ 2 ^ (30 + s.host.funcs[f].barLog) then some (objNat s f 0x1900 0x10 0 + off) else none

/-- The addresses of a request, where every one is reachable by the function: its partition's regions, or for PF0 the MPA space
without the reservations. -/
def bar2Range (s : State) (f : Fin 9) (off len : Nat) : Option (List Nat) :=
  match bar2Addr s f off len with
  | none => none
  | some a =>
    let as := (List.range len).map (a + ·)
    let ok (x : Nat) : Bool :=
      match hbmSpot s (partOfFn f) x with
      | some (m, _) => (partOfFn f).isSome || (m < mpaSize s.hbm && !mpaReserved s.hbm m)
      | none => false
    if (match partOfFn f with | some p => partValid s p | none => true) && as.all ok then some as else none

/-- A rejected request: counted, and logged in AER where it is a write. -/
def bar2Reject (s : State) (f : Fin 9) (aer : Option Nat) : State :=
  let s := ctrAdd s f 0x1900 5 1
  match aer with
  | some b => updFunc s f fun k => { k with aer := k.aer ||| BitVec.ofNat 32 (2 ^ b) }
  | none => s

/-- BAR2_READ: data, or Unsupported Request outside the function's regions, or Completer Abort for an uncorrectable sector
(R153). Earlier writes of the function have taken effect. The access is charged to the partition's regulators, or for PF0 to the device
guarantee (R190), and a coarse burst read in part wastes its rest (R145). -/
def execBar2Read (f : Fin 9) (off : Nat) (len : Nat) (s : State) : Host.Outcome State Fault Refusal :=
  powered s (
    if !s.host.up then s else
    match bar2Range s f off len with
    | none => (emit (bar2Reject s f none) (.bar2 f [] .unsupportedRequest))
    | some as =>
      match ueAt s (partOfFn f) as with
      | some a => (emit (ueEventAt (bar2Reject s f none) (partOfFn f) a) (.bar2 f [] .completerAbort))
      | none =>
        let p := partOfFn f
        let s := hbmFix s p as
        let rr := accessRuns s p false (as.map fun a => (hbmAddr a, 0))
        (emit (hbmCharge (coarseWaste s p rr) p rr) (.bar2 f (as.map (hbmByteP s p)) .successful)))

/-- The first address of a coarse burst that a write would leave partial (R146). -/
def bar2Short (s : State) (p : Option (Fin 8)) (as : List Nat) : Bool :=
  as.any fun a =>
    match hbmSpot s p a with
    | some (m, _) => mpaCoarse s m && !(List.range 2048).all fun i => as.contains (a - m % 2048 + i)
    | none => false

/-- BAR2_WRITE: applied in arrival order and charged as reads are (R190), or discarded, counted and logged. A coarse write that leaves a
burst partial is counted at its stack as well. One that covers an uncorrectable sector in part fails: the error is reported and the
write discarded and counted, with nothing in AER, which R191 does not ask for (R153; log 40). -/
def execBar2Write (f : Fin 9) (off : Nat) (data : List Byte) (poisoned : Bool) (s : State) : Host.Outcome State Fault Refusal :=
  powered s (
    if !s.host.up then s
    else if poisoned then (bar2Reject s f (some 12)) else
    match bar2Range s f off data.length with
    | none => (bar2Reject s f (some 20))
    | some as =>
      if bar2Short s (partOfFn f) as then
        let k := match as.head? with
          | some a => (match hbmSpot s (partOfFn f) a with | some (m, _) => (mpaMap s.hbm m).1 | none => 0)
          | none => 0
        (bar2Reject (ctrAdd s 0 (0x5100 + k) 0x21 1) f (some 15))
      else
        match uePartial s (partOfFn f) as with
        | some a => (bar2Reject (ueEventAt s (partOfFn f) a) f none)
        | none => (hbmTraffic (hbmWriteP s (partOfFn f) (as.zip data)) (partOfFn f) as))

/-! ## Rings of a stream (R196, R199, R235) -/

/-- Command ring, completion ring, ACKW and LOGN. -/
def ringOf (s : State) (f : Fin 9) (q : Nat) : Nat × Nat × Nat × Nat :=
  if q = 0 then
    let d := s.host.funcs[f].dvsec
    (fld d 127 64, fld d 255 192, fld d 191 128, fld d 39 36)
  else (objNat s f (0x6400 + q) 2 0, objNat s f (0x6400 + q) 3 0, objNat s f (0x6400 + q) 4 0, objNat s f (0x6400 + q) 5 0)

/-- The address space of a stream's rings and words: its PASID where it is enabled (R196, R199, 0x6400 + q:06). -/
def ringSpace (s : State) (f : Fin 9) (q : Nat) : Nat :=
  if q = 0 then spaceOf s f (fld s.host.funcs[f].dvsec 43 43 == 1) (fld s.host.funcs[f].dvsec 63 44)
  else let v := objNat s f (0x6400 + q) 6 0; spaceOf s f (v.testBit 31) (v % 2 ^ 20)

/-- N: slots of either ring. -/
def ringN (s : State) (f : Fin 9) (q : Nat) : Nat := 2 ^ ((ringOf s f q).2.2.2 + 6)

/-- The partition whose sessions see a function's events; 0xFF for PF0. -/
def fnPart (f : Fin 9) : Nat := if f.val = 0 then 0xFF else f.val - 1

/-- A stream halts (R229, R220, R386): its counters stay, and acceptance of what it has taken goes on, unless the journal is lost. -/
def haltStream (s : State) (f : Fin 9) (q : Nat) (h : Halt) (detail : Nat) : State :=
  let s := updStream s f q fun k =>
    { k with state := .halted, halt := h, detail := BitVec.ofNat 64 detail, bad := none, batches := if h = .journalLost then [] else k.batches }
  let s := raiseEvent s 4 1 (f.val * 64 + q) (fnPart f) (leBytes 8 (haltCode h) ++ leBytes 8 detail)
  notify s f (objNat s f (0x6400 + q) 8 0xFFFF)

/-- The accept word is written (R213); where the host does not translate it, the stream halts (R228). -/
def writeAccept (s : State) (f : Fin 9) (q : Nat) : State :=
  let a := (ringOf s f q).2.2.1 + 8
  let ps := ringSpace s f q
  if hostMapped s f ps a 8 then hostWrite s f ps a (wordBytes (stream s f q).accepted) else haltStream s f q .ringFault a

/-! ## Control of a stream (R229) -/

/-- A stream may poll: in the bring-up state only those of PF0, and in ROM recovery its stream 0 alone (R201, R441, R445). -/
def mayPoll (s : State) (f : Fin 9) (q : Nat) : Bool :=
  s.power.bringUp = .no || (f = 0 && (s.power.bringUp = .full || q = 0))

/-- Enabled: POLLING, or WAITING until the module is READY. -/
def enableStream (s : State) (f : Fin 9) (q : Nat) : State :=
  updStream s f q fun k =>
    { k with state := if mayPoll s f q then .polling else .waiting, halt := .none, detail := 0, interval := 250, bad := none, batches := [] }

/-- Disabled: takes are dropped; the stream drains what it has accepted. -/
def disableStream (s : State) (f : Fin 9) (q : Nat) : State :=
  updStream s f q fun k =>
    { k with state := if k.entries.isEmpty then .disabled else .draining, halt := .none, detail := 0, bad := none, batches := [] }

/-- Records HOSTACK + 1 to RETIRED are written again from the history, with the accept word (R229). -/
def rewriteOwed (s : State) (f : Fin 9) (q : Nat) : State :=
  let k := stream s f q
  let n := ringN s f q
  let (_, cring, _, _) := ringOf s f q
  let s := writeAccept s f q
  (k.history.reverse.filter fun (x, _) => serialAfter x k.hostack && (x - k.hostack).toNat ≤ n).foldl (fun s (x, r) =>
    let a := cring + 128 * (x.toNat % n)
    let ps := ringSpace s f q
    if hostMapped s f ps a 64 then hostWrite s f ps a (wordBytes r)
    else if (stream s f q).state = .halted then s else haltStream s f q .ringFault a) s

/-- RESUME. -/
def resumeStream (s : State) (f : Fin 9) (q : Nat) : State := rewriteOwed (enableStream s f q) f q

/-- A control write to a stream by its state: the state after it, or none where it is answered 0x0202. Stream 0 is not controlled
this way. -/
def streamControl (s : State) (f : Fin 9) (q : Nat) (v : Nat) : Option State :=
  let k := stream s f q
  if q = 0 then none else
  match v, k.state with
  | 1, .disabled => some (enableStream s f q)
  | 2, .disabled | 2, .draining => some s
  | 2, .halted => some (if k.halt = .journalLost then s else disableStream s f q)
  | 2, _ => some (disableStream s f q)
  | 3, .halted => if k.halt = .journalLost then none else some (resumeStream s f q)
  | _, _ => none

/-- STREAM_ENABLE (R229). -/
def execStreamEnable (f : Fin 9) (q : Fin 64) (s : State) : Host.Outcome State Fault Refusal := powered s ((streamControl s f q 1).getD s)

/-- STREAM_DISABLE (R229). -/
def execStreamDisable (f : Fin 9) (q : Fin 64) (s : State) : Host.Outcome State Fault Refusal := powered s ((streamControl s f q 2).getD s)

/-- STREAM_RESUME (R229). -/
def execStreamResume (f : Fin 9) (q : Fin 64) (s : State) : Host.Outcome State Fault Refusal := powered s ((streamControl s f q 3).getD s)

/-! ## The bootstrap capability (R196) -/

/-- The RW fields of the capability. -/
def dvsecMask : BitVec 256 := BitVec.ofNat 256 (2 ^ 256 - 2 ^ 43 + (2 ^ 40 - 2 ^ 36) + 2 ^ 32)

/-- Why ENABLE is refused; 0 where it is not. The codes are judged in numeric order. -/
def dvsecRefuse (s : State) (f : Fin 9) (cap : BitVec 256) : Nat :=
  let k := stream s f 0
  if fld cap 127 64 % 4096 ≠ 0 || fld cap 255 192 % 4096 ≠ 0 || fld cap 191 128 % 8 ≠ 0 then 1
  else if 10 < fld cap 39 36 then 2
  else if (match partOfFn f with | some p => !partValid s p | none => false) then 3
  else if anySet cap 42 40 || anySet cap 35 33 || anySet cap 31 16 then 4
  else if k.state = .halted && k.halt = .journalLost then 5
  else if k.state = .draining then 6
  else 0

/-- The identifiers of the bootstrap capability: Odivilan's vendor ID and DVSEC ID 0x0001 (R196). -/
def dvsecIds : BitVec 16 × Nat := (Config.vendorId, 1)

/-- A write of the capability's body (R196, R229). While ENABLE reads 1 a write that leaves it set is ignored and counted, and one that
clears it changes ENABLE alone; else the fields are written, and a set ENABLE is taken, enabling stream 0 or resuming a halted one, or
refused. -/
def bootstrapWrite (s : State) (f : Fin 9) (cap : BitVec 256) : State :=
  let one : BitVec 256 := BitVec.ofNat 256 (2 ^ 32)
  if s.host.funcs[f].dvsec.getLsbD 32 then ctrAdd s f 0x1900 4 1 else
  let r := dvsecRefuse s f cap
  let want := cap.getLsbD 32
  let on : BitVec 256 := if want && r = 0 then one else 0
  let refuse : Nat := if want then r else fld s.host.funcs[f].dvsec 15 8
  let d := (cap &&& dvsecMask &&& ~~~one) ||| on ||| BitVec.ofNat 256 (refuse * 256)
  let s := updFunc s f fun k => { k with dvsec := d }
  if !want || r ≠ 0 then s
  else if (stream s f 0).state = .disabled then enableStream s f 0
  else if (stream s f 0).state = .halted then resumeStream s f 0
  else s

/-- A write of the standard's controls (R183, log 39): vectors that may send from then on and are pending do. -/
def controlsWrite (s : State) (f : Fin 9) (c : FnCfg) : State :=
  let s := updFunc s f fun k => { k with cfg := { c with numVfs := if f.val = 0 then c.numVfs else 0 } }
  ((s.host.vecs.filter fun x => x.f = f).map (·.v)).foldl (fun s v => vecPending s f v) s

/-- BOOTSTRAP_ENABLE_SET (R183, R187, R196, R229): a write of the host into a function's configuration space. While the port is not
initialised it completes with Request Retry Status (R185). -/
def execBootstrapEnableSet (f : Fin 9) (w : CfgWrite) (s : State) : Host.Outcome State Fault Refusal :=
  powered s (
    if !s.host.up then emit s (.configRetry f) else
    match w with
    | .bootstrap cap => bootstrapWrite s f cap
    | .controls n mps mrrs ats pasid msix fmask => controlsWrite s f ⟨n, mps, mrrs, ats, pasid, msix, fmask⟩
    | .barSize log => updFunc s f fun k => { k with barLog := min log 6 })

/-- BOOTSTRAP_ENABLE_CLEAR (R229): a polling or waiting stream 0 is disabled; in another state only ENABLE changes. -/
def execBootstrapEnableClear (f : Fin 9) (s : State) : Host.Outcome State Fault Refusal :=
  powered s (
    if !s.host.up then emit s (.configRetry f) else
    let s := updFunc s f fun k => { k with dvsec := k.dvsec &&& ~~~(BitVec.ofNat 256 (2 ^ 32)) }
    let t := (stream s f 0).state
    (if t = .polling || t = .waiting then disableStream s f 0 else s))

end Sys2Proof.Machine
end

