-- ==== Sys2Proof/Machine/Pointing.lean ====
section
/-! DEFINITION. Pointing: activities, preemption, self-tests and the management cores (17). The operand `id` of a row is the
activity's ID of R411 less one. Units: a stack, 8 × bank + lane, a Course, a Trowel or 8 for the Cox, a Pallet, a cluster, a
counter group. -/

namespace Sys2Proof.Machine

open Sys2Proof

/-! ## Activities (R411 to R414) -/

/-- The budget of an activity in 0.01% of its unit's time. -/
def actBudget (s : State) (id : Nat) : Nat := objNat s 0 0x8000 (0x10 + id) (if id = 2 || id = 6 || id = 7 then 0 else 50)

/-- Deadlines of R411 in seconds; 0 where the rule gives no number (IDs 7 and 8). -/
def actDefault (id : Nat) : Nat :=
  match id with
  | 1 => 86400 | 2 => 600 | 3 => 21600 | 4 => 21600 | 5 => 604800 | 6 => 86400 | _ => 0

/-- The deadline in ns; activity 8 has its group's interval. -/
def actDeadline (s : State) (id unit : Nat) : Nat :=
  if id = 8 then (match s.counters.groups[unit]? with | some g => gInterval g.config | none => 0)
  else objNat s 0 0x8000 (0x20 + id) (actDefault id) * 1000000000

/-- The activity as it stands. -/
def actOf (s : State) (id unit : Nat) : Activity :=
  (s.pointing.acts.find? fun a => a.id = id ∧ a.unit = unit).getD ⟨id, unit, 0, 0, [], false⟩

def actPut (s : State) (a : Activity) : State :=
  { s with pointing := { s.pointing with acts := a :: s.pointing.acts.filter fun x => ¬(x.id = a.id ∧ x.unit = a.unit) } }

/-- An activity has this unit, which is in service, and may become URGENT: wear tracking has no deadline. -/
def actUnit (s : State) (id unit : Nat) : Bool :=
  match id with
  | 1 => s.hbm.inService.contains unit
  | 2 => unit < 64
  | 3 | 5 => unit < 8 && s.courses[fin8 unit].inService
  | 4 => unit = 8 || (unit < 8 && s.courses[fin8 unit].inService)
  | 6 => unit < 4
  | 8 => unit < 80
  | _ => false

/-- The partition that owns an activity's unit. -/
def actOwner (s : State) (id unit : Nat) : Option (Fin 8) :=
  if (id = 3 || id = 4 || id = 5) && unit < 8 then courseOwner s (fin8 unit) else none

/-- A Course stands at a pass boundary (R72). -/
def testBoundary (s : State) (n : Fin 8) : Bool := (runningMM s.courses[n]).isNone || s.courses[n].stage != .verdict

/-- ACTIVITY_URGENT (R412). Scrub is suspended on a stack being margined (R417). -/
def execActivityUrgent (id : Fin 8) (unit : Nat) (s : State) : Host.Outcome State Fault Refusal :=
  powered s (
    let i := id.val + 1
    if !actUnit s i unit || (i = 1 && s.hbm.stks[fin20 unit].suspended) then s else (askTest s i unit))

/-- Foreground work of the unit stands at its safe boundary (R411): a pass boundary of a Course, the gap between two commands of a Trowel
or the Cox; a stack's refresh window, a Pallet's port cycle and the fabric's are any moment. -/
def safeBoundary (s : State) (id unit : Nat) : Bool :=
  match id with
  | 3 => testBoundary s (fin8 unit)
  | 4 => if unit = 8 then !laneUnitBusy s (.cox 0) else !laneUnitBusy s (.trowel (fin8 unit))
  | _ => true

/-- The steps an activity has taken in the 100 ms that end now. -/
def recentSteps (s : State) (a : Activity) : List (U64 × Nat) := a.steps.filter fun x => s.now.toNat < x.1.toNat + 100000000

/-- The foreground stall of a step of so many ns: none of a stack, outside its refresh window, and none of a Pallet (R413). -/
def stepStall (id ns : Nat) : Nat := if id = 1 || id = 5 then 0 else ns

/-- POINTING_PREEMPTION (R412 to R414): one step of an URGENT activity at the unit's safe boundary, within the budget of the 100 ms
before it; it is counted, logged and entered into the Cards of the unit's owner, with the foreground stall. -/
def execPointingPreemption (id : Fin 8) (unit : Nat) (ns : BitVec 32) (s : State) : Host.Outcome State Fault Refusal :=
  powered s (
    let i := id.val + 1
    let a := actOf s i unit
    let recent := recentSteps s a
    let fits := (recent.map (·.2)).sum + ns.toNat ≤ actBudget s i * 10000
    if a.state ≠ 2 || !actUnit s i unit || !fits || !safeBoundary s i unit then s else
    let s := actPut s { a with steps := recent ++ [(s.now, ns.toNat)] }
    let stall := stepStall i ns.toNat
    let s := pointLog (ctrAdd s 0 0x8000 0x31 1) 1 unit stall
    (match actOwner s i unit with | some p => cardPoint s (some p) 1 unit stall | none => s))

/-- DEADLINE_MISSED (R412, R423): the deadline of an URGENT activity has passed, which is logged and counted once; the activity goes on.
Scrub never misses its deadline. -/
def execDeadlineMissed (id : Fin 8) (unit : Nat) (s : State) : Host.Outcome State Fault Refusal :=
  powered s (
    let i := id.val + 1
    let a := actOf s i unit
    if i = 1 || a.state ≠ 2 || a.missed then s else
    let due := a.done.toNat + actDeadline s i unit
    let s := actPut (reach s (BitVec.ofNat 64 due)) { a with missed := true }
    (pointLog (ctrAdd s 0 0x8000 0x32 1) 10 i ((s.now.toNat - due) / 1000000)))

/-! ## Self-tests (R415) -/

/-- A physical lane of a Course fails its test: a working lane is suspect and waits for substitution, or the Course leaves service
where no spare is left; a spare leaves the inventory. -/
def laneFailed (s : State) (n : Fin 8) (x : Nat) : State :=
  let k := s.courses[n]
  if k.badLanes.contains x then s else
  let s := testFailed s n 3
  match k.laneMap.idxOf? x with
  | none => mapWrite (updCourse s n fun c => { c with badLanes := c.badLanes ++ [x] })
  | some l =>
    if k.substs.contains l then s else
    let s := updCourse s n fun c => { c with suspects := c.suspects + 1 }
    if (List.range 520).all fun y => k.laneMap.contains y || k.badLanes.contains y then courseOut s n 1
    else updCourse s n fun c => { c with substs := c.substs ++ [l] }

/-- COURSE_LANE_SELF_TEST (R415, R72): eight physical lanes are tested while the Course is idle, or at a pass boundary where the
activity is URGENT. The test of the last lanes completes the activity. -/
def execCourseLaneSelfTest (n : Fin 8) (first : Nat) (failing : List Nat) (s : State) : Host.Outcome State Fault Refusal :=
  powered s (
    let idle := s.courses[n].queue.isEmpty
    if !s.courses[n].inService || !(idle || ((actOf s 3 n).state = 2 && testBoundary s n)) then s else
    let lanes := (List.range 520).filter fun x => first ≤ x && x < first + 8 && failing.contains x
    let s := lanes.foldl (fun s x => laneFailed s n x) s
    (if 520 ≤ first + 8 then actDone s 3 n else s))

/-- TROWEL_COX_LANE_TEST (R415, R98, R297, R420): while its unit is idle, or where the activity is URGENT, working lanes are tested; those
that fail are substituted in the gap between two commands. The test of the last field completes the Cox's activity. -/
def execTrowelCoxLaneTest (u : LaneUnit) (failing : Nat) (s : State) : Host.Outcome State Fault Refusal :=
  powered s (
    let idle : Bool := match u with
      | .trowel n => s.trowels[n].queue.isEmpty
      | .cox _ => s.cox.toList.all fun x => x.cmds.isEmpty
    let unit := match u with | .trowel n => n.val | .cox _ => 8
    let there := match u with | .trowel n => s.courses[n].inService | .cox _ => true
    if !there || !(idle || (actOf s 4 unit).state = 2) then s else
    let s := match u with
      | .trowel n => actDone s 4 n
      | .cox f => if f = 3 then actDone s 4 8 else s
    if failing = 0 then s
    else laneGap { s with pointing := { s.pointing with laneTests := s.pointing.laneTests ++ [(u, failing)] } } u)

/-- PALLET_BANK_TEST (R415): a freed bank that passes becomes a spare; one that fails leaves the inventory. The test of the last
physical bank completes the activity. -/
def execPalletBankTest (n : Fin 8) (pb : Fin 136) (ok : Pass) (s : State) : Host.Outcome State Fault Refusal :=
  powered s (
    if s.pallets[n].freed ≠ some pb.val then s else
    let s := updPallet s n fun p => { p with freed := none, badBanks := if ok then p.badBanks else p.badBanks ++ [pb.val] }
    let s := if ok then s else testFailed (mapWrite s) n 5
    (if pb.val = 135 then actDone s 5 n else s))

/-- CORE_ROTATION (R415, R413): where no program runs on the cluster, a spare core takes the place of the working core longest
untested, which is tested and becomes the last spare or leaves the inventory. The next LAUNCH starts 2 µs later. With no spare left a core
that fails leaves the cluster's map, and the module runs degraded (R19, R420): the spec does not say how such a core is found, the model
takes this row's test (DESIGN CHOICE, log 42). -/
def execCoreRotation (k : Fin 4) (ok : Pass) (s : State) : Host.Outcome State Fault Refusal :=
  powered s (
    let c := s.pointing.clusters[k]
    let busy := (liveAttempts s).any fun a => a.cores.any fun x => x.cluster = k
    let age (x : Nat) : Nat := (c.tested.getD x 0).toNat
    let oldest (m : Nat) (ms : List Nat) : Nat := ms.foldl (fun b x => if age x < age b then x else b) m
    match c.spares, c.map with
    | [], m :: ms =>
      if busy || ok then s else
      let old := oldest m ms
      let l := c.map.idxOf old
      let c2 : Cluster := { c with map := c.map.filter (· ≠ old), tested := c.tested.set old s.now }
      let t := { s with pointing := { s.pointing with clusters := s.pointing.clusters.set k c2 } }
      let t := mapWrite (testFailed (moduleEvent s t) (8 * k.val + l) 6)
      pointLog (setDegraded t 3) 11 (8 * k.val + l) 5
    | sp :: rest, m :: ms =>
      if busy then s else
      let old := oldest m ms
      let l := c.map.idxOf old
      let c2 : Cluster :=
        { map := c.map.set l sp, spares := if ok then rest ++ [old] else rest, tested := c.tested.set old s.now, late := true }
      let s := { s with pointing := { s.pointing with clusters := s.pointing.clusters.set k c2 } }
      let s := pointLog (mapWrite s) 6 (8 * k.val + l) 2000
      let s := if ok then s else testFailed s (8 * k.val + l) 6
      let all := (c2.map ++ c2.spares).all fun x => (actOf s 6 k).done.toNat < (c2.tested.getD x 0).toNat
      (if all then actDone s 6 k else s)
    | _, _ => s)

/-! ## Management cores (R418, R421, R422) -/

/-- LOCKSTEP_MISMATCH (R418): the spare is paired with the core that passes; where both pass a free value says which stays. With
both failing, or no spare that passes, the module leaves service. The pause is at most 20 ms. -/
def execLockstepMismatch (core0 core1 spare : Pass) (s : State) : Host.Outcome State Fault Refusal :=
  powered s (
    let p := s.pointing
    if !p.lockstep then s else
    match p.mgmtSpare with
    | some sp =>
      if spare && (core0 || core1) then
        let (v, s) := fresh s
        let (w, s) := fresh s
        let first := core0 && (!core1 || v.getLsbD 0)
        let keep := if first then p.pair.1 else p.pair.2
        let lost := if first then p.pair.2 else p.pair.1
        let s := { s with pointing := { s.pointing with pair := (keep, sp), mgmtSpare := none } }
        (pointLog (repairDone s) 13 lost (w.toNat % 20001))
      else (leaveService (setDegraded { s with pointing := { s.pointing with lockstep := false } } 4))
    | none => (leaveService (setDegraded { s with pointing := { s.pointing with lockstep := false } } 4)))

end Sys2Proof.Machine
end

