-- ==== Sys2Proof/Machine/Transcend.lean ====
section
/-! DEFINITION. Values of e^x, ln, tanh, erf and the sigmoid to far more than binary32 precision, in integers of 2^-256: what the
ulp limits of R101 are measured from. -/

namespace Sys2Proof.Machine

open Sys2Proof

/-- One, in units of 2^-256. Every binary32 value is a whole number of them. -/
def fxOne : Int := 2 ^ 256
/-- ln 2 in units of 2^-256. -/
def fxLn2 : Int := 80260960185991308862233904206310070533990667611589946606122867505419956976171
/-- 2 ÷ √π in units of 2^-256. -/
def fxErf : Int := 130657381209852114387528029350014196574164286124850014242073919076264802271585

/-- A product of two fixed-point numbers. -/
def fxMul (a b : Int) : Int := a * b / fxOne
/-- A value of 2^-256 units as a finite value. -/
def fxVal (x : Int) (e : Int) : Val := .fin (x < 0) x.natAbs (e - 256)
/-- A magnitude in units of 2^-256. -/
def fxOf (m : Nat) (e : Int) : Int := if e + 256 < 0 then 0 else (m <<< (e + 256).toNat : Nat)

/-- e^r of 0 ≤ r < 1. -/
def fxExp (r : Int) : Int := (List.range 60).foldr (fun i acc => fxOne + r * acc / (fxOne * (i + 1 : Nat))) fxOne

/-- e^x as a multiple of a power of 2: its fraction and its exponent. -/
def expParts (x : Int) : Int × Int := (fxExp (x % fxLn2), x / fxLn2)

/-- ln of `m` × 2^`e`, m > 0. -/
def fxLog (m : Nat) (e : Int) : Int :=
  let t := topBit m
  let f : Int := fxOf m (-(t : Int))
  let k := e + t
  let (f, k) := if 3 * fxOne ≤ 2 * f then (f / 2, k + 1) else (f, k)
  let z := (f - fxOne) * fxOne / (f + fxOne)
  let z2 := fxMul z z
  let s := (List.range 60).foldr (fun i acc => fxOne / (2 * i + 1 : Nat) + fxMul z2 acc) 0
  2 * fxMul z s + k * fxLn2

/-- tanh of 0 ≤ x < 32. -/
def fxTanh (x : Int) : Int :=
  if x * 4096 < fxOne then
    let q := fxMul x x
    x - fxMul x q / 3 + 2 * fxMul (fxMul x q) q / 15
  else
    let (f, k) := expParts (2 * x)
    let y := f * 2 ^ k.toNat
    (y - fxOne) * fxOne / (y + fxOne)

/-- The sigmoid of −x or of x, 0 ≤ x < 128. -/
def fxSigmoid (neg : Bool) (x : Int) : Int :=
  let (f, k) := expParts (-x)
  let y := f / 2 ^ (-k).toNat
  (if neg then y else fxOne) * fxOne / (fxOne + y)

/-- erf of 0 ≤ x < 6. -/
def fxErfOf (x : Int) : Int :=
  let q := fxMul x x
  let r := (List.range 200).foldl (fun (a : Int × Int) i => (a.1 + a.2 / (2 * i + 1 : Nat), -(fxMul a.2 q) / (i + 1 : Nat))) (0, x)
  fxMul fxErf r.1

/-- The operation's exact result for a finite operand, but for a relative error far below a binary32 ulp. Where the result rounds
to a limit whatever the operand, a value near that limit stands for it. -/
def transVal (op : Nat) (n : Bool) (m : Nat) (e : Int) : Val :=
  let top := e + topBit m
  let x := fxOf m e
  let nearOne : Val := .fin n (2 ^ 80 - 1) (-80)
  let signed (y : Int) : Val := fxVal (if n then -y else y) 0
  if op = 0x18 then
    if m ≠ 0 && 8 ≤ top then (if n then .fin false 1 (-300) else .fin false 1 200)
    else let (f, k) := expParts (if n then -x else x); fxVal f k
  else if op = 0x19 then fxVal (fxLog m e) 0
  else if m = 0 then (if op = 0x1C then .fin false 1 (-1) else .fin n 0 0)
  else if op = 0x1A then (if 5 ≤ top then nearOne else signed (fxTanh x))
  else if op = 0x1B then (if 6 * fxOne ≤ x then nearOne else signed (fxErfOf x))
  else if 7 ≤ top then (if n then .fin false 1 (-300) else .fin false (2 ^ 80 - 1) (-80))
  else fxVal (fxSigmoid n x) 0

end Sys2Proof.Machine
end

