-- ==== Sys2Proof/Machine/Trowel.lean ====
section
/-! DEFINITION. The Trowel (05): VOP chains, VRED with the fixed tree, VCVT, and retirement in dispatch order. -/

namespace Sys2Proof.Machine

open Sys2Proof

/-! ## Fields shared by the three commands (R104, R107, R109) -/

def vStrict (c : Cmd) : Bool := c.getLsbD 8
def vOfmt (c : Cmd) : Nat := fld c 12 9
def vTag (c : Cmd) : Nat := fld c 63 32
def vOdesc (c : Cmd) : Nat := fld c 79 64
def vSrc (c : Cmd) (i : Nat) : Nat := fld c (95 + 16 * i) (80 + 16 * i)
def vRow0 (c : Cmd) : Nat := fld c 159 128
def vNrows (c : Cmd) : Nat := fld c 191 160
def vCol0 (c : Cmd) : Nat := fld c 223 192
def vNcols (c : Cmd) : Nat := fld c 255 224
def vSteps (c : Cmd) : Nat := fld c 14 13 + 1
def vStep (c : Cmd) (i : Nat) : Nat := fld c (271 + 16 * i) (256 + 16 * i)
def vImm (c : Cmd) (i : Nat) : BitVec 32 := BitVec.ofNat 32 (fld c (351 + 32 * i) (320 + 32 * i))
def vEvent (c : Cmd) : Nat := if fld c 7 0 = 0x32 then fld c 319 304 else fld c 399 384
def stOp (st : Nat) : Nat := nfld st 15 10
def stSel (st i : Nat) : Nat := nfld st (9 - 3 * i) (7 - 3 * i)

def vrAxis (c : Cmd) : Bool := c.getLsbD 19
def vrRop (c : Cmd) : Nat := fld c 18 16
def vrOrow0 (c : Cmd) : Nat := fld c 287 272
def vrOcol0 (c : Cmd) : Nat := fld c 303 288

def vcTrans (c : Cmd) : Bool := c.getLsbD 20
def vcSat (c : Cmd) : Bool := c.getLsbD 19
def vcRnd (c : Cmd) : Nat := fld c 18 17
def vcIfmt (c : Cmd) : Nat := fld c 16 13
def vcSeed (c : Cmd) : U64 := BitVec.ofNat 64 (fld c 383 320)

def vopRsv : List (Nat × Nat) := [(511, 400), (31, 15), (256, 256), (272, 272), (288, 288), (304, 304)]
def vredRsv : List (Nat × Nat) := [(511, 320), (271, 256), (127, 96), (31, 20), (15, 13)]
def vcvtRsv : List (Nat × Nat) := [(511, 400), (319, 256), (127, 96), (31, 21)]

/-- Operands an operation takes; 0 for a code that names none (R101). -/
def opArity (op : Nat) : Nat :=
  if op ∈ [0x01, 0x02, 0x03, 0x05, 0x06, 0x09, 0x0A, 0x0B, 0x10] then 2
  else if op ∈ [0x04, 0x0C] then 3
  else if op ∈ [0x07, 0x08, 0x11, 0x12, 0x18, 0x19, 0x1A, 0x1B, 0x1C] then 1 else 0

/-! ## The operations (R101 to R103) -/

/-- A truth value (R101). -/
def truth (b : Bool) : BitVec 32 := if b then 0x3F800000 else 0

/-- Spacing of binary32 at a magnitude m × 2^e: the ulp of an exact result (R102). -/
def ulp32 (m : Nat) (e : Int) : Val := .fin false 1 (max (e + topBit m - 23) (-149))

def leV (a b : Val) : Bool := !ltV b a
def subV (a b : Val) : Val := (addV a (negV b)).1
def prodV (a b : Val) : Val := (mulV a b).1

/-- A result that rounds to a finite number other than zero. -/
def ordinary (r : BitVec 32) : Bool := isFin (of32 false r) && !isZero (of32 false r)

/-- A free result within 1 ulp of a quotient a ÷ b, else the correctly rounded one (R101). -/
def divNear (a b : Val) : BitVec 32 × FlagByte :=
  let (r, fl) := divTo .fp32 false a b
  let r := BitVec.ofNat 32 r
  match a, b with
  | .fin _ m e, .fin _ m' e' =>
    if m' = 0 || !ordinary r then (r, fl) else
    let (k, q, _) := quot m e m' e'
    let y := Config.approx 0x10 false (wide32 a) (wide32 b)
    let v := of32 false y
    if isFin v && !isZero v && leV (absV (subV (prodV v b) a)) (prodV (ulp32 k q) (absV b)) then
      (y, if eqV (prodV v b) a then 0 else fNX)
    else (r, fl)
  | _, _ => (r, fl)

/-- A free result within 1 ulp of a square root, else the correctly rounded one. -/
def sqrtNear (a : Val) : BitVec 32 × FlagByte :=
  let (r, fl) := sqrtTo .fp32 false a
  let r := BitVec.ofNat 32 r
  match a with
  | .fin false m e =>
    if !ordinary r then (r, fl) else
    let (k, q, _) := root m e
    let y := Config.approx 0x11 false (wide32 a) 0
    let v := of32 false y
    let lo := subV v (ulp32 k q)
    let hi := (addV v (ulp32 k q)).1
    if isFin v && !signOf v && (signOf lo || leV (prodV lo lo) a) && leV a (prodV hi hi) then
      (y, if eqV (prodV v v) a then 0 else fNX)
    else (r, fl)
  | _ => (r, fl)

/-- 1 ÷ √a of a positive finite value to more than 80 bits: mantissa, exponent, sticky. -/
def rsqrtParts (m : Nat) (e : Int) : Nat × Int × Bool :=
  let e2 := if e % 2 = 0 then e else e - 1
  let m2 := if e % 2 = 0 then m else 2 * m
  let k := 90 + topBit m2
  let r := isqrt (2 ^ (2 * k) / m2)
  (r, -(k : Int) - e2 / 2, r * r * m2 != 2 ^ (2 * k))

/-- RSQRT: within 2 ulp, or 1 in strict mode (R101, R103). -/
def rsqrtOp (strict : Bool) (a : Val) : BitVec 32 × FlagByte :=
  match a with
  | .nan _ _ _ => (BitVec.ofNat 32 (nanCode .fp32 strict (firstNaN [a])), snanFlags [a])
  | .inf n => if n then (0x7FC00000, fNV) else (0, 0)
  | .fin n m e =>
    if m = 0 then (if n then 0xFF800000 else 0x7F800000, fDZ) else
    if n then (0x7FC00000, fNV) else
    let (k, q, st) := rsqrtParts m e
    let (r, fl) := roundFin .fp32 .rne true false false k q st
    let y := Config.approx 0x12 strict (wide32 a) 0
    let v := of32 true y
    let u := prodV (ulp32 k q) (natV (if strict then 1 else 2))
    let lo := subV v u
    let hi := (addV v u).1
    let ok := isFin v && !signOf v && (signOf lo || leV (prodV (prodV lo lo) a) (natV 1)) && leV (natV 1) (prodV (prodV hi hi) a)
    if ok then (y, if eqV (prodV (prodV v v) a) (natV 1) then 0 else fNX) else (BitVec.ofNat 32 r, fl)

/-- The flags of a free result of a transcendental that is not the exact one: OF and UF where it overflows or is flushed, and NX. -/
def freeFlags (y : BitVec 32) : FlagByte :=
  match of32 true y with
  | .inf _ => fOF ||| fNX
  | .fin _ 0 _ => fUF ||| fNX
  | .fin _ m e => if e + topBit m < -126 then fUF ||| fNX else fNX
  | _ => fNX

/-- A free result of a transcendental within 2 ulp of the exact one, or 1 in strict mode, else the correctly rounded one (R101). In
fast mode a tiny result is flushed (R42). A result equal to an exact result that binary32 holds raises no flag (R48). -/
def transNear (op : Nat) (strict : Bool) (n : Bool) (m : Nat) (e : Int) (exact : Option (BitVec 32)) : BitVec 32 × FlagByte :=
  let x := transVal op n m e
  let u : Val := match x with
    | .fin _ xm xe => if xm = 0 then .fin false 1 (-149) else ulp32 xm xe
    | _ => .fin false 1 104
  let d := prodV u (natV (if strict then 1 else 2))
  let y := Config.approx op strict (wide32 (.fin n m e)) 0
  let v := of32 true y
  let ok : Bool := match v with
    | .nan _ _ _ => false
    | .inf s => s == signOf x && leV (.fin false 1 128) (addV (absV x) d).1
    | .fin _ _ _ => leV (absV (subV v x)) d
  let y := if strict then y else (to32 false (of32 false y)).1
  match exact with
  | some c => if !ok || eqV (of32 true y) (of32 true c) then (c, 0) else (y, freeFlags y)
  | none => if ok then (y, freeFlags y) else to32 strict x

/-- A transcendental: special operands by R103 and their limits (log 15), any other operand near the exact result (log 16). -/
def transOp (op : Nat) (strict : Bool) (a : Val) : BitVec 32 × FlagByte :=
  match a with
  | .nan _ _ _ => (BitVec.ofNat 32 (nanCode .fp32 strict (firstNaN [a])), snanFlags [a])
  | .inf n =>
    if op = 0x18 then (if n then 0 else 0x7F800000, 0)
    else if op = 0x19 then (if n then 0x7FC00000 else 0x7F800000, if n then fNV else 0)
    else if op = 0x1C then (if n then 0 else 0x3F800000, 0)
    else (if n then 0xBF800000 else 0x3F800000, 0)
  | .fin n m e =>
    let sure : Option (BitVec 32) :=
      if op = 0x19 then (if eqV a (natV 1) then some 0 else none)
      else if m ≠ 0 then none
      else some (if op = 0x18 then 0x3F800000 else if op = 0x1C then 0x3F000000 else if n then 0x80000000 else 0)
    if op = 0x19 && m = 0 then (0xFF800000, fDZ)
    else if op = 0x19 && n then (0x7FC00000, fNV)
    else transNear op strict n m e sure

/-- One step (R101 to R103): a binary32 code and its flags. Of a strict FMA of 0 × ∞ with a NaN as its addend the spec says both that
the first NaN operand is the result and that the default NaN is, the operation being invalid (R44): the model gives the NaN operand,
with NV (DESIGN CHOICE, log 37). -/
def opStep (op : Nat) (strict : Bool) (a b c : Val) : BitVec 32 × FlagByte :=
  let r32 (v : Val) (fl : FlagByte) : BitVec 32 × FlagByte := let (x, fx) := to32 strict v; (x, fl ||| fx)
  match op with
  | 0x01 => let (v, fl) := addV a b; r32 v fl
  | 0x02 => if isNaN a || isNaN b then (asResult strict (firstNaN [a, b]), snanFlags [a, b]) else let (v, fl) := addV a (negV b); r32 v fl
  | 0x03 => let (v, fl) := mulV a b; r32 v fl
  | 0x04 =>
    let (p, fl) := mulV a b
    let (v, fl') := addV p c
    r32 (if isNaN a || isNaN b || isNaN c then firstNaN [a, b, c] else v) (fl ||| fl' ||| snanFlags [a, b, c])
  | 0x05 => maxMin strict true a b
  | 0x06 => maxMin strict false a b
  | 0x07 => if isNaN a then (asResult strict a, snanFlags [a]) else r32 (absV a) 0
  | 0x08 => if isNaN a then (asResult strict a, snanFlags [a]) else r32 (negV a) 0
  | 0x09 => (truth (!isNaN a && !isNaN b && ltV a b), snanFlags [a, b])
  | 0x0A => (truth (!isNaN a && !isNaN b && leV a b), snanFlags [a, b])
  | 0x0B => (truth (eqV a b), snanFlags [a, b])
  | 0x0C => (asResult strict (if isZero c then b else a), 0)
  | 0x10 => if strict then let (x, fl) := divTo .fp32 true a b; (BitVec.ofNat 32 x, fl) else divNear a b
  | 0x11 => if strict then let (x, fl) := sqrtTo .fp32 true a; (BitVec.ofNat 32 x, fl) else sqrtNear a
  | 0x12 => rsqrtOp strict a
  | _ => transOp op strict a

/-- The chain of a VOP on one element: the last step's code and the flags of every step. -/
def chainOps (c : Cmd) (src : Nat → Val) : BitVec 32 × FlagByte :=
  let strict := vStrict c
  let (rs, fl) := (List.range (vSteps c)).foldl (fun (acc : List (BitVec 32) × FlagByte) i =>
    let st := vStep c i
    let sel (k : Nat) : Val :=
      if k ≤ 2 then src k else if k ≤ 4 then of32 strict (vImm c (k - 3)) else of32 strict (acc.1.getD (k - 5) 0)
    let (x, fx) := opStep (stOp st) strict (sel (stSel st 0)) (sel (stSel st 1)) (sel (stSel st 2))
    (acc.1 ++ [x], acc.2 ||| fx)) ([], 0)
  (rs.getLastD 0, fl)

/-! ## Windows and regions (R105) -/

/-- Where (r, c) of the window is read in a source: broadcast along an extent of 1. -/
def srcPos (s : State) (n : Fin 8) (d : Cmd) (r c : Nat) : Nat × Nat :=
  (if srcRows s n d = 1 then 0 else r, if srcCols d = 1 then 0 else c)

/-- Positions of a window in row-major order. -/
def window (r0 nr c0 nc : Nat) : List (Nat × Nat) :=
  (List.range nr).flatMap fun i => (List.range nc).map fun j => (r0 + i, c0 + j)

def vWindow (c : Cmd) : List (Nat × Nat) := window (vRow0 c) (vNrows c) (vCol0 c) (vNcols c)

/-- Offsets a source's window occupies. -/
def srcRegion (s : State) (n : Fin 8) (d : Cmd) (w : List (Nat × Nat)) : List Nat :=
  w.flatMap fun (r, c) => let (r', c') := srcPos s n d r c; srcAddrs s n d r' c'

/-- Output positions of a command. -/
def outPos (c : Cmd) : List (Nat × Nat) :=
  match fld c 7 0 with
  | 0x32 =>
    if vrAxis c then (List.range (vNcols c)).map fun j => (vrOrow0 c, vrOcol0 c + j)
    else (List.range (vNrows c)).map fun i => (vrOrow0 c + i, vrOcol0 c)
  | 0x33 => if vcTrans c then (vWindow c).map fun (r, k) => (k, r) else vWindow c
  | _ => vWindow c

/-- Offsets the output occupies. -/
def outRegion (c : Cmd) (o : Cmd) : List Nat := (outPos c).flatMap fun (r, k) => if inExt o r k then elemAddrs o r k else []

/-- Two lists of offsets meet; ranges are compared first. -/
def meet (a b : List Nat) : Bool :=
  match a.min?, a.max?, b.min?, b.max? with
  | some la, some ha, some lb, some hb => la ≤ hb && lb ≤ ha && a.any fun x => b.contains x
  | _, _, _, _ => false

/-- Source slots of a command. -/
def vSlots (c : Cmd) : List Nat :=
  if fld c 7 0 = 0x31 then [vSrc c 0] ++ ([vSrc c 1, vSrc c 2].filter (· ≠ 0)) else [vSrc c 0]

/-! ## Rejection (R106, R6, R44, R109, R132) -/

/-- A window position lies outside a source, except as broadcast (R105). -/
def srcOut (s : State) (n : Fin 8) (d : Cmd) (c : Cmd) : Bool :=
  (srcRows s n d ≠ 1 && vRow0 c + vNrows c > srcRows s n d) || (srcCols d ≠ 1 && vCol0 c + vNcols c > srcCols d)

/-- Selectors of a VOP that name nothing (R104, R106). -/
def badSteps (c : Cmd) : Bool :=
  (List.range (vSteps c)).any fun i =>
    let st := vStep c i
    let k := opArity (stOp st)
    let ar (j : Nat) : Bool := if stOp st = 0x0C || stOp st = 0x04 then true else j < k
    k = 0 || (List.range 3).any fun j =>
      ar j && (let x := stSel st j; (x = 1 && vSrc c 1 = 0) || (x = 2 && vSrc c 2 = 0) || (x ≥ 5 && x - 5 ≥ i))

/-- Output columns start at a block and end at a block or at the extent (R132). -/
def blockSplit (o : Cmd) (c0 nc : Nat) : Bool := c0 % 32 ≠ 0 || ((c0 + nc) % 32 ≠ 0 && c0 + nc ≠ dCols o)

/-- A distinct seed beyond the 32 an attempt may hold (R347). -/
def seedFull (s : State) (iss : Issuer) (seed : U64) : Bool :=
  match iss with
  | .core c _ _ _ _ => match s.crews[c].attempt with | some a => a.seeds.length ≥ 32 && !a.seeds.contains seed | none => false
  | _ => false

/-- Why a Trowel command is rejected; none where it runs. The spec says nothing of a VRED whose source is INT32 (R107), of an OFMT that
is not the format of ODESC's descriptor (R106), or of an IFMT that is not the source's format (R109): the model rejects each with
BAD_FORMAT (DESIGN CHOICE, log 37). -/
def trowelReject (s : State) (n : Fin 8) (u : UnitCmd) : Option Reason :=
  let c := u.word
  let op := fld c 7 0
  let o := cmdDesc u (vOdesc c)
  let srcs := (vSlots c).map (cmdDesc u)
  let ds := o :: srcs
  let views := srcs.filter fun d => dKind d = 2
  let tile (d : Cmd) : Tile := s.courses[n].tiles[fin64 (dTile d)]
  let of_ := fmtOf (vOfmt c)
  let strict := vStrict c
  let d0 := cmdDesc u (vSrc c 0)
  let w := vWindow c
  let fmts := srcs.map (srcFmt s n)
  let ocols := if op = 0x33 && vcTrans c then (vRow0 c, vNrows c) else (vCol0 c, vNcols c)
  firstReason [
    (rsvSet c (if op = 0x32 then vredRsv else if op = 0x33 then vcvtRsv else vopRsv) || ds.any descRsv || views.any fun d => tileRsv (tile d).entry, .reservedSet),
    (ds.any (fun d => !dDefined d || (dKind d = 1 && (dLoc d = 1 || dLoc d = 2))) || dKind o = 2 || vNrows c = 0 || vNcols c = 0 || vEvent c > 4095 ||
      (views.any fun d => !tBound (tile d).entry) || (op = 0x31 && badSteps c) || (op = 0x32 && vrRop c > 5) ||
      (op = 0x33 && vcRnd c = 2 && seedFull s u.iss (vcSeed c)), .badField),
    (op = 0x33 && vcRnd c = 3, .badRounding),
    (of_.isNone || (op = 0x33 && (fmtOf (vcIfmt c)).isNone) || ds.any descFmtBad, .badFormat),
    (ds.any descBad || views.any fun d => tileBad (tile d).entry, .badDesc),
    (strict && (fmts.any (fun f => !fmtWide f) || !(of_.map fmtWide).getD false ||
      (views.any fun d => (tile d).acc16) || (op = 0x33 && vcRnd c = 2)), .strictFormat),
    ((op = 0x31 && (fmts.any (fun f => !fmtWide f) || !(of_.map fmtWide).getD false)) ||
      (op = 0x32 && (fmts.contains .int32 || (if vrRop c ≥ 4 then of_ != some .int32 else !(of_.map fmtWide).getD false))) ||
      (op = 0x33 && (some (srcFmt s n d0) != fmtOf (vcIfmt c) || (srcFmt s n d0 == .int32 && (of_.map fmtBlock).getD false))) ||
      some (dFmt o) != of_, .badFormat),
    ((srcs.any fun d => !(dKind d = 2 && !(tile d).init) && srcOut s n d c) || (outPos c).any fun (r, k) => !inExt o r k, .outOfBounds),
    ((of_.map fmtBlock).getD false && op = 0x33 && blockSplit o ocols.1 ocols.2, .blockSplit),
    (srcs.any fun d =>
      (op = 0x32 || (op = 0x33 && vcTrans c) || d ≠ o) && meet (srcRegion s n d w) (outRegion c o), .aliased),
    ((views.any fun d => tileShared s n (dTile d) u.iss), .tileShared),
    ((views.any fun d => !(tile d).init), .tileState)]

/-! ## Results -/

/-- Elements of a command's output: row, column, code, and the flags. Block formats give their scale bytes apart. -/
abbrev OutElem := Nat × Nat × Nat × FlagByte

/-- VOP: one code per window element. -/
def vopResults (s : State) (n : Fin 8) (u : UnitCmd) : List OutElem :=
  let c := u.word
  let f := (fmtOf (vOfmt c)).getD .fp32
  (vWindow c).map fun (r, k) =>
    let (x, fl) := chainOps c fun i =>
      let d := cmdDesc u (vSrc c i)
      let (r', k') := srcPos s n d r k
      srcVal s n (!vStrict c) d r' k'
    let (q, fq) := convert f .rne (vStrict c) false (of32 (vStrict c) x)
    (r, k, q, fl ||| fq)

/-- The better of two (value, index) pairs: the left one is the lower index. -/
def argPick (isMax : Bool) (a b : Val × Nat) : Val × Nat :=
  if isNaN a.1 then a else if isNaN b.1 then b else if (if isMax then ltV a.1 b.1 else ltV b.1 a.1) then b else a

/-- Element (r, c) of a command's window in a source, widened to binary32, and the flags of the widening (R41, R102). -/
def srcWide (s : State) (n : Fin 8) (strict : Bool) (d : Cmd) (r c : Nat) : Val × FlagByte :=
  let (r', c') := srcPos s n d r c
  widenSrc strict (srcFmt s n d) (srcVal s n (!strict) d r' c')

/-- A reduction of widened values with their indices (R107, R108): a code of the format and the flags. -/
def reduceVals (rop : Nat) (strict : Bool) (f : Fmt) (l : List ((Val × FlagByte) × Nat)) : Nat × FlagByte :=
  let n := l.length
  let wf := orFlags (l.map (·.1.2))
  if rop ≥ 4 then
    let sf := snanFlags (l.map (·.1.1))
    match treeReduce (argPick (rop = 4)) n (l.map fun x => (x.1.1, x.2)) with
    | some x => (x.2, sf ||| wf)
    | none => (0, 0)
  else
    let sq (v : Val) : BitVec 32 × FlagByte := let (p, fl) := mulV v v; let (x, fx) := to32 strict p; (x, fl ||| fx)
    let start : List (BitVec 32 × FlagByte) := l.map fun x => if rop = 1 then sq x.1.1 else (wide32 x.1.1, 0)
    let comb (a b : BitVec 32 × FlagByte) : BitVec 32 × FlagByte :=
      let (x, fx) := if rop < 2 then add32 strict a.1 b.1 else maxMin strict (rop = 2) (of32 strict a.1) (of32 strict b.1)
      (x, a.2 ||| b.2 ||| fx)
    match treeReduce comb n start with
    | some x => let (q, fq) := convert f .rne strict false (of32 strict x.1); (q, x.2 ||| fq ||| wf)
    | none => (0, 0)

/-- VRED: one code per row or column. -/
def vredResults (s : State) (n : Fin 8) (u : UnitCmd) : List OutElem :=
  let c := u.word
  let f := (fmtOf (vOfmt c)).getD .fp32
  let val := srcWide s n (vStrict c) (cmdDesc u (vSrc c 0))
  if vrAxis c then (List.range (vNcols c)).map fun j =>
    let k := vCol0 c + j
    let (q, fl) := reduceVals (vrRop c) (vStrict c) f ((List.range (vNrows c)).map fun i => (val (vRow0 c + i) k, vRow0 c + i))
    (vrOrow0 c, vrOcol0 c + j, q, fl)
  else (List.range (vNrows c)).map fun i =>
    let r := vRow0 c + i
    let (q, fl) := reduceVals (vrRop c) (vStrict c) f ((List.range (vNcols c)).map fun j => (val r (vCol0 c + j), vCol0 c + j))
    (vrOrow0 c + i, vrOcol0 c, q, fl)

/-- The rounding mode of a VCVT for an output position (R36, R37). -/
def vcMode (c o : Cmd) (r k : Nat) : Rnd :=
  match vcRnd c with
  | 1 => .rtz
  | 2 => .sr ((mix (vcSeed c) (BitVec.ofNat 64 (r * dCols o + k))).toNat % 65536)
  | _ => .rne

/-- VCVT into formats without block scales. -/
def vcvtPlain (s : State) (n : Fin 8) (u : UnitCmd) : List OutElem :=
  let c := u.word
  let f := (fmtOf (vOfmt c)).getD .fp32
  let o := cmdDesc u (vOdesc c)
  let d := cmdDesc u (vSrc c 0)
  (vWindow c).map fun (r, k) =>
    let (ro, ko) := if vcTrans c then (k, r) else (r, k)
    let x := srcWide s n (vStrict c) d r k
    let (q, fl) := convert f (vcMode c o ro ko) (vStrict c) (vcSat c) x.1
    (ro, ko, q, fl ||| x.2)

/-- VCVT into FP6 or FP4: every covered block gets its scale from its covered elements (R40, R110). The second list is (row,
first column, scale byte, flags). -/
def vcvtBlock (s : State) (n : Fin 8) (u : UnitCmd) : List OutElem × List OutElem :=
  let c := u.word
  let f := (fmtOf (vOfmt c)).getD .fp32
  let o := cmdDesc u (vOdesc c)
  let d := cmdDesc u (vSrc c 0)
  let (r0, nr, c0, nc) := if vcTrans c then (vCol0 c, vNcols c, vRow0 c, vNrows c) else (vRow0 c, vNrows c, vCol0 c, vNcols c)
  let val (ro ko : Nat) : Val × FlagByte := if vcTrans c then srcWide s n false d ko ro else srcWide s n false d ro ko
  let blocks := (List.range nr).flatMap fun i => (List.range ((nc + 31) / 32)).map fun b => (r0 + i, c0 + 32 * b, min 32 (nc - 32 * b))
  let res := blocks.map fun (r, k0, w) =>
    let xs : List (Val × FlagByte) := (List.range w).map fun j => val r (k0 + j)
    let vs := xs.map Prod.fst
    let (sc, sf) := blockScale f vs
    ((r, k0, sc, sf ||| orFlags (xs.map Prod.snd)), vs.zipIdx.map fun (v, j) => let (q, fl) := blockElem f (vcMode c o r (k0 + j)) sc v; (r, k0 + j, q, fl))
  (res.flatMap (·.2), res.map (·.1))

/-- The writes of output elements, each over the writes before it (packed bytes hold several elements). -/
def storeElems (rd : Nat → Byte) (o : Cmd) (es : List OutElem) : List (Nat × Byte) :=
  es.foldl (fun ws (r, k, q, _) =>
    let cur (a : Nat) : Byte := match ws.find? fun x => x.1 = a with | some x => x.2 | none => rd a
    (elemStore cur o r k q).reverse ++ ws) []

/-- The writes and flags of a Trowel command. -/
def trowelEffect (s : State) (n : Fin 8) (u : UnitCmd) : List (Nat × Byte) × FlagByte :=
  let c := u.word
  let o := cmdDesc u (vOdesc c)
  let rd := palletByte s n
  let fl (l : List OutElem) := orFlags (l.map fun x => x.2.2.2)
  match fld c 7 0 with
  | 0x32 => let es := vredResults s n u; ((storeElems rd o es).reverse, fl es)
  | 0x33 =>
    if fmtBlock (dFmt o) then
      let (es, sc) := vcvtBlock s n u
      ((storeElems rd o es).reverse ++ (sc.map fun (r, k, b, _) => (scaleAddr o r k, BitVec.ofNat 8 b)), fl es ||| fl sc)
    else let es := vcvtPlain s n u; ((storeElems rd o es).reverse, fl es)
  | _ => let es := vopResults s n u; ((storeElems rd o es).reverse, fl es)

/-- The offsets a command reads (R116). -/
def trowelReads (s : State) (n : Fin 8) (u : UnitCmd) : List Nat :=
  ((vSlots u.word).map (cmdDesc u)).flatMap fun d => srcRegion s n d (vWindow u.word)

/-- The seed of a stochastic conversion enters the attempt's list (R38, R347). -/
def noteSeed (s : State) (u : UnitCmd) : State :=
  if fld u.word 7 0 ≠ 0x33 || vcRnd u.word ≠ 2 then s else
  match u.iss with
  | .core c att _ _ _ =>
    updAttempt s c fun a =>
      if a.number = att && !a.seeds.contains (vcSeed u.word) then { a with seeds := a.seeds ++ [vcSeed u.word] } else a
  | _ => s

/-! ## Dispatch -/

def setTrowelHead (s : State) (n : Fin 8) (g : UnitCmd → UnitCmd) : State :=
  updTrowel s n fun t => { t with queue := match t.queue with | x :: l => g x :: l | [] => [] }

/-- The oldest command of a Trowel runs, unless it waits on a tile (R90) or on a range an MM registered (R57). -/
def goTrowel (s : State) (n : Fin 8) : State :=
  match s.trowels[n].queue with
  | [] => s
  | u :: _ =>
    if u.run || u.blocked ≠ 0 then s else
    if tileWaits s n u then setTrowelHead s n fun x => { x with blocked := 1 } else
    let c := u.word
    let why := trowelReject s n u
    let s := waitSpent s n (cmdTiles u)
    match why with
    | some r => setTrowelHead (rejectCount s n r) n fun x => { x with run := true, res := rejected r }
    | none =>
      if guarded s n (outRegion c (cmdDesc u (vOdesc c))) then setTrowelHead s n fun x => { x with blocked := 2 } else
      let s := noteSeed (tilesTake s n u) u
      match readUe s n (trowelReads s n u) with
      | some a => setTrowelHead (palletUeEvent s n a) n fun x => { x with run := true, res := failedRes .palletUe false (palletAddr n a) }
      | none =>
        let (ws, fl) := trowelEffect s n u
        let s := palletWriteL (palletFix s n (trowelReads s n u)) n ws
        let s := evAdd s 0x1002 n 0xFF (outPos c).length
        setTrowelHead s n fun x => { x with run := true, res := { Res.okay with flags := fl } }

/-- A 64-byte store at the issue port of Trowel n (R109, R230). -/
def trowelPort (s : State) (w : Who) (n : Fin 8) (c : Cmd) : State :=
  let op := fld c 7 0
  castReady (issueStore s w (ownsCourse n) op (vTag c) (vEvent c) fun s _ _ iss =>
    if op < 0x31 || op > 0x33 then retireUnit s iss op (vTag c) 0 (rejected .badField) else
    let k := s.courses[n]
    let ds := copyDescs k (vOdesc c :: vSlots c)
    let u := mkCmd c iss ds (viewEntries k ds) (vEvent c) k.order
    let s := updCourse s n fun k => { k with order := k.order + 1 }
    goTrowel (updTrowel s n fun t => { t with queue := t.queue ++ [u] }) n)

/-- VOP (R104). -/
def execVop (w : Who) (n : Fin 8) (c : Cmd) (s : State) : Host.Outcome State Fault Refusal := powered s (trowelPort s w n c)

/-- VRED (R107). -/
def execVred (w : Who) (n : Fin 8) (c : Cmd) (s : State) : Host.Outcome State Fault Refusal := powered s (trowelPort s w n c)

/-- VCVT (R109). -/
def execVcvt (w : Who) (n : Fin 8) (c : Cmd) (s : State) : Host.Outcome State Fault Refusal := powered s (trowelPort s w n c)

/-- TROWEL_RETIRE (R111, R50, R231): the oldest command, done, retires and the next one starts. What it waited for the port and for
banks is counted (R112, R138, log 19). -/
def execTrowelRetire (n : Fin 8) (s : State) : Host.Outcome State Fault Refusal :=
  powered s (
    match s.trowels[n].queue with
    | [] => s
    | u :: rest =>
      if !u.run then s else
      let s := updTrowel s n fun t => { t with queue := rest, sticky := t.sticky ||| u.res.flags }
      let ran := u.res.cls ≠ .rejected
      let s := if ran then stallAdd (stallAdd (ctrAdd s 0 0x6200 (0x40 + n) 1) 0x6200 (0x30 + n)) 0x6300 (0x20 + n) else s
      let s := retireUnit s u.iss u.op.toNat (vTag u.word) u.ev u.res
      let s := if ran then tilesGive s n u else s
      (castReady (goCourse (goTrowel (laneGap s (.trowel n)) n) n)))

/-- The oldest Trowel command proceeds once no tile holds it; its wait is counted (R90, log 19). -/
def freeTrowel (s : State) (n : Fin 8) : State :=
  match s.trowels[n].queue with
  | u :: _ => if u.blocked = 1 && !tileWaits s n u then goTrowel (setTrowelHead (stallAdd s (0x6100 + n) 0x33) n fun x => { x with blocked := 0 }) n else s
  | [] => s

/-- TILE_INTERLOCK_RELEASE (R90): the oldest commands of the Course and of its Trowel that wait on tile h proceed when the earlier
one in tile order has retired. -/
def execTileInterlockRelease (n : Fin 8) (h : Fin 64) (s : State) : Host.Outcome State Fault Refusal :=
  powered s (
    let names (q : List UnitCmd) : Bool := match q with | u :: _ => usesTile u h | [] => false
    let s := if names s.courses[n].queue then freeCourse s n else s
    (castReady (if names s.trowels[n].queue then freeTrowel s n else s)))

/-- PALLET_BANK_SUBSTITUTION (R115, R17): bank b is copied to the lowest-numbered spare and the map switches; no content changes.
The freed bank waits for its test, and the new map is reported. With no spare left the Course leaves service (R420). -/
def execPalletBankSubstitution (n : Fin 8) (b : Fin 128) (s : State) : Host.Outcome State Fault Refusal :=
  powered s (
    let p := s.pallets[n]
    match (List.range 136).find? fun x => !p.bankMap.contains x && !p.badBanks.contains x && p.freed ≠ some x with
    | none => (courseOut s n 2)
    | some sp =>
      let old := p.bankMap.getD b 0
      let s := updPallet s n fun p => { p with bankMap := p.bankMap.set b sp, freed := some old, testAsked := p.testAsked.erase b.val }
      let s := genBump (repairDone s) 0 0x6300 (0x18 + n)
      let s := pointLog s 3 n 0
      (cardPoint s (courseOwner s n) 3 n 0))

end Sys2Proof.Machine
end

