-- ==== Sys2Proof/Machine/Hod.lean ====
section
/-! DEFINITION. The Hods (08): COPY patterns, add mode, gather, scatter and scatter-add by coordinate list, retirement in
dispatch order, part faults, and registered host regions. -/

namespace Sys2Proof.Machine

open Sys2Proof

/-! ## Fields (R161, R169) -/

def cpDaddr (c : Cmd) : Nat := fld c 511 462
def cpSaddr (c : Cmd) : Nat := fld c 461 412
/-- Destination stride of dimension k, 1 to 4. -/
def cpDstride (c : Cmd) (k : Nat) : Nat := fld c (315 + 32 * (k - 1)) (284 + 32 * (k - 1))
/-- Source stride of dimension k. -/
def cpSstride (c : Cmd) (k : Nat) : Nat := fld c (187 + 32 * (k - 1)) (156 + 32 * (k - 1))
/-- Index count of dimension k. -/
def cpCount (c : Cmd) (k : Nat) : Nat := fld c (107 + 16 * (k - 1)) (92 + 16 * (k - 1))
def cpRun (c : Cmd) : Nat := fld c 91 72
def hEvent (c : Cmd) : Nat := fld c 71 56
def hTag (c : Cmd) : Nat := fld c 55 24
def cpPfd (c : Cmd) : Nat := fld c 23 20
def cpAdd (c : Cmd) : Bool := c.getLsbD 18

def gsList (c : Cmd) : Nat := fld c 177 128
def gsNent (c : Cmd) : Nat := fld c 120 104
def gsDdesc (c : Cmd) : Nat := fld c 103 88
def gsSdesc (c : Cmd) : Nat := fld c 87 72
def gsPanels (c : Cmd) : Bool := c.getLsbD 18

def copyRsv : List (Nat × Nat) := [(17, 8)]
def gatherRsv : List (Nat × Nat) := [(511, 178), (127, 121), (23, 20), (17, 8)]

/-! ## Patterns (R162) -/

/-- Source and destination offsets of the indices (i4, i3, i2, i1) in ascending order. -/
def cpIndices (c : Cmd) : List (Nat × Nat) :=
  (List.range (cpCount c 4)).flatMap fun i4 => (List.range (cpCount c 3)).flatMap fun i3 =>
    (List.range (cpCount c 2)).flatMap fun i2 => (List.range (cpCount c 1)).map fun i1 =>
      (i4 * cpSstride c 4 + i3 * cpSstride c 3 + i2 * cpSstride c 2 + i1 * cpSstride c 1,
       i4 * cpDstride c 4 + i3 * cpDstride c 3 + i2 * cpDstride c 2 + i1 * cpDstride c 1)

/-- Bytes of a pattern. -/
def cpBytes (c : Cmd) : Nat := cpCount c 4 * cpCount c 3 * cpCount c 2 * cpCount c 1 * cpRun c

/-- One past the highest offset of a pattern whose runs have `run` bytes. -/
def cpSpan (c : Cmd) (stride : Cmd → Nat → Nat) (run : Nat) : Nat :=
  ((List.range 4).map fun k => (cpCount c (k + 1) - 1) * stride c (k + 1)).sum + run

/-- Bits of the address field of a place's space (R160). -/
def placeBits (e : Nat) : Nat := match aLoc e with | 0 => 26 | 1 => 41 | _ => 36

/-- A place moved by an offset; one that leaves the address field of its space is none (R160). -/
def placeAdd (e o : Nat) : Option Nat :=
  if e % 2 ^ placeBits e + o < 2 ^ placeBits e then some (e + o) else none

/-- Places a pattern reads or writes, in pattern order, with runs of `run` bytes. -/
def cpPlaces (base run : Nat) (offs : List Nat) : List Nat :=
  offs.flatMap fun o => (List.range run).map fun b => base + o + b

/-- R164: (nesting violated, some dimension fixed). -/
def cpNest (c : Cmd) : Bool × Bool :=
  let r := (List.range 4).foldl (fun (acc : Nat × Bool × Bool) k =>
    let n := cpCount c (k + 1)
    let d := cpDstride c (k + 1)
    let (span, bad, fixed) := acc
    if n > 1 && d = 0 then (span, bad, true)
    else if n > 1 then (d * (n - 1) + span, bad || d < span, fixed)
    else acc) (cpRun c, false, false)
  (r.2.1, r.2.2)

/-! ## Who may name what (R160, R208) -/

/-- A Pallet of another partition, or any Pallet for PF0. -/
def foreignPallet (s : State) (p : Option (Fin 8)) (e : Nat) : Bool :=
  aLoc e = 0 && (p.isNone || courseOwner s (fin8 (aCourse e)) != p)

/-- A host place whose region is invalid or lacks a right. -/
def noRight (s : State) (f : Fin 9) (e right : Nat) : Bool := aLoc e = 2 && !hostRight s f (aRegion e) right

/-- The command is issued by a program: adds may target Pallets and epoch-scoped regions; a stream's only the latter (R225). -/
def fromCore (u : UnitCmd) : Bool := (issuerCrew u.iss).isSome

/-- The result of a refusal at a place, if any. -/
def refuseAt (r : Reason) (e : Nat) : Option Res := some (rejectedAt r e)

/-- Some address lies outside the partition's epoch-scoped regions. -/
def notEpoch (s : State) (p : Option (Fin 8)) (as : List Nat) : Bool :=
  match p with
  | some p => as.any fun a => (epochOff s p a).isNone
  | none => true

/-- Writes to HBM that R325 refuses. -/
def accumRefused (s : State) (u : UnitCmd) (p : Option (Fin 8)) (as : List Nat) : Bool :=
  match issuerCrew u.iss, p with
  | some c, some p => undoRefused s c p as
  | _, _ => false

/-! ## COPY: rejection (R160, R164 to R168, R225) -/

/-- Element bytes of source and destination in add mode, by region format (R168). -/
def addWidths (fmt : Nat) : Nat × Nat := match fmt with | 1 => (2, 2) | 3 => (8, 8) | 4 => (4, 8) | _ => (4, 4)

/-- Destination bytes of a run. -/
def cpDrun (s : State) (u : UnitCmd) (p : Option (Fin 8)) : Nat :=
  if cpAdd u.word then
    match p.bind fun p => adderAt s p (aHbm (cpDaddr u.word)) with
    | some (_, _, 4, _) => 2 * cpRun u.word
    | _ => cpRun u.word
  else cpRun u.word

/-- Why a COPY is rejected (R167); the order of the table (log 12). R216 has the record name an address and does not say which where the
whole pattern is at fault: a pattern that leaves its address field, a fixed destination outside a port region and an add whose base lies
in no adder region name the pattern's base address (DESIGN CHOICE, log 40); every other case names the first byte at fault. -/
def copyReject (s : State) (u : UnitCmd) : Option Res :=
  let c := u.word
  let p := issuerPart s u.iss
  let f := issuerFn s u.iss
  let S := cpSaddr c
  let D := cpDaddr c
  let idx := cpIndices c
  let drun := cpDrun s u p
  if rsvSet c copyRsv then some (rejected .reservedSet) else
  if (List.range 4).any (fun k => cpCount c (k + 1) = 0) || cpRun c = 0 || cpPfd c > 10 || hEvent c > 4095 || cpBytes c > 2 ^ 40 ||
    addrBad S || addrBad D || foreignPallet s p S || foreignPallet s p D then some (rejected .badField) else
  if cpAdd c && p.isNone then some (rejected .accumScope) else
  if noRight s f S 1 then refuseAt .hostRegion S else if noRight s f D 2 then refuseAt .hostRegion D else
  if (placeAdd S (cpSpan c cpSstride (cpRun c) - 1)).isNone then refuseAt .outOfBounds S else
  if (placeAdd D (cpSpan c cpDstride drun - 1)).isNone then refuseAt .outOfBounds D else
  let src := cpPlaces S (cpRun c) (idx.map (·.1))
  let dst := cpPlaces D drun (idx.map (·.2))
  match (src ++ dst).find? (spaceOut s f p) with
  | some e => refuseAt .outOfBounds e
  | none =>
    if cpAdd c then
      if meet (src.map (flat s f p)) (dst.map (flat s f p)) then some (rejected .aliased) else
      if aLoc D ≠ 1 then refuseAt .adderRegion D else
      match p.bind fun p => adderAt s p (aHbm D) with
      | none => refuseAt .adderRegion D
      | some (base, size, fmt, _) =>
        match dst.find? fun e => aHbm e < base || base + size ≤ aHbm e with
        | some e => refuseAt .adderRegion e
        | none =>
          let (sw, dw) := addWidths fmt
          if cpRun c % sw ≠ 0 || idx.any (fun (a, b) => (S + a) % sw ≠ 0 || (D + b) % dw ≠ 0) then some (rejected .badField) else
          if notEpoch s p (hbmOf dst) || accumRefused s u p (hbmOf dst) then some (rejected .accumScope) else none
    else
      let (bad, fixed) := cpNest c
      if bad then some (rejected .selfOverlap) else
      if fixed && dst.any fun e => !portPlace s f p e then refuseAt .fixedWrite D else
      if meet (src.map (flat s f p)) (dst.map (flat s f p)) then some (rejected .aliased) else
      if accumRefused s u p (hbmOf dst) then some (rejected .accumScope) else
      match coarseShortAt s p dst with
      | some e => refuseAt .coarseShort e
      | none => none

/-! ## Gather, scatter, scatter-add: blocks (R133 to R137) -/

/-- The place of a descriptor's byte address. -/
def descPlace (n : Nat) (d : Cmd) (a : Nat) : Nat :=
  match dLoc d with
  | 0 => palletAddr n a
  | 1 => hbmAddr a
  | _ => hostAddr (dHostReg d) a

/-- A descriptor's byte address leaves the address field of its space. -/
def descWide (d : Cmd) (a : Nat) : Bool := decide (2 ^ (match dLoc d with | 0 => 26 | 1 => 41 | _ => 36) ≤ a)

/-- Rows and columns of a block of a descriptor of format `m`; a tile view has bricks of one panel each. -/
def blkRows (c : Cmd) (d : Cmd) : Nat := 16 * (if gsPanels c then 2 ^ dPRL d else 1)
def blkCols (c : Cmd) (m : Fmt) (d : Cmd) : Nat := brickW m * (if gsPanels c then 2 ^ dPCL d else 1)

/-- The packed block k of a tensor: source or destination on Course n. -/
def packedBlk (s : State) (n : Fin 8) (c : Cmd) (d : Cmd) (k : Nat) : Nat × Nat :=
  let w := blkCols c (srcFmt s n d) d
  let nb := (srcCols d + w - 1) / w
  (k / nb, k % nb)

/-- A block is in bounds (R133). -/
def blkIn (s : State) (n : Fin 8) (c : Cmd) (d : Cmd) (b : Nat × Nat) : Bool :=
  b.1 * blkRows c d < srcRows s n d && b.2 * blkCols c (srcFmt s n d) d < srcCols d

/-- The list entries (R133). -/
def gsEntries (s : State) (f : Fin 9) (p : Option (Fin 8)) (c : Cmd) : List (Nat × Nat) :=
  (List.range (gsNent c)).map fun i =>
    let w := ofLe ((List.range 8).map fun b => spaceByte s f p (gsList c + 8 * i + b))
    (nfld w 63 32, nfld w 31 0)

/-- Pairs of source and destination blocks in list order (R134). -/
def gsPairs (s : State) (n : Fin 8) (f : Fin 9) (p : Option (Fin 8)) (u : UnitCmd) : List ((Nat × Nat) × (Nat × Nat)) :=
  let c := u.word
  let d := cmdDesc u (gsDdesc c)
  let sd := cmdDesc u (gsSdesc c)
  (gsEntries s f p c).zipIdx.map fun (e, k) => if u.op = 0x42 then (e, packedBlk s n c d k) else (packedBlk s n c sd k, e)

/-- Positions of a block of format `m`: source (r, c) and destination (r, c), those inside the destination's extents (R131, R134). -/
def blkPositions (c : Cmd) (m : Fmt) (sd d : Cmd) (x : (Nat × Nat) × (Nat × Nat)) : List ((Nat × Nat) × (Nat × Nat)) :=
  ((window 0 (blkRows c d) 0 (blkCols c m d)).map fun (i, j) =>
    ((x.1.1 * blkRows c sd + i, x.1.2 * blkCols c m sd + j), (x.2.1 * blkRows c d + i, x.2.2 * blkCols c m d + j))).filter
    fun y => inExt d y.2.1 y.2.2

/-- Every position a command writes, in list order, with the position it comes from. -/
def gsPositions (s : State) (n : Fin 8) (f : Fin 9) (p : Option (Fin 8)) (u : UnitCmd) : List ((Nat × Nat) × (Nat × Nat)) :=
  let c := u.word
  let d := cmdDesc u (gsDdesc c)
  (gsPairs s n f p u).flatMap (blkPositions c (dFmt d) (cmdDesc u (gsSdesc c)) d)

/-- Places a source position occupies: none for padding, which is never fetched (R130). -/
def gsFrom (s : State) (n : Fin 8) (sd : Cmd) (r c : Nat) : List Nat :=
  if dKind sd = 2 then (srcAddrs s n sd r c).map (palletAddr n)
  else if inExt sd r c then (elemAddrs sd r c).map (descPlace n sd) else []

/-- The code of a source position, through a reader of descriptor addresses, and the scale byte of its block. -/
def gsCode (s : State) (n : Fin 8) (rd : Nat → Byte) (sd : Cmd) (r c : Nat) : Nat :=
  if dKind sd = 2 then srcCode s n sd r c else elemCode rd sd r c

/-- Places read of the source, and byte addresses written in the destination in list order; a block's in ascending order. -/
def gsReads (s : State) (n : Fin 8) (u : UnitCmd) (l : List ((Nat × Nat) × (Nat × Nat))) : List Nat :=
  l.flatMap fun x => gsFrom s n (cmdDesc u (gsSdesc u.word)) x.1.1 x.1.2
def gsWrites (s : State) (n : Fin 8) (f : Fin 9) (p : Option (Fin 8)) (u : UnitCmd) : List Nat :=
  let c := u.word
  let d := cmdDesc u (gsDdesc c)
  (gsPairs s n f p u).flatMap fun x =>
    sortBy (· ≤ ·) ((blkPositions c (dFmt d) (cmdDesc u (gsSdesc c)) d x).flatMap fun y => elemAddrs d y.2.1 y.2.2).dedup

/-- The footprint of a descriptor on Course n: the panels of R123, or the row slots of a viewed tile, each as first place and length. -/
def footprint (s : State) (n : Fin 8) (d : Cmd) : List (Nat × Nat) :=
  if dKind d = 2 then
    let t := viewTile s n d
    [(palletAddr n (tHalf t.entry t.current), 2048 * t.rows)]
  else (List.range (nPR d)).flatMap fun i => (List.range (nPC d)).map fun j =>
    (descPlace n d (dBase d + i * dPSR d + j * dPSC d), panelB d)

/-- Ranges of places as ranges of `flat` numbers. -/
def flatOf (s : State) (f : Fin 9) (p : Option (Fin 8)) (l : List (Nat × Nat)) : List (Nat × Nat) := l.flatMap fun x => flatRanges s f p x.1 x.2

/-- Some range of one list overlaps one of the other. -/
def anyMeet (a b : List (Nat × Nat)) : Bool := a.any fun x => b.any (overlaps x)

/-- The footprint of a tensor leaves the address field of its space. -/
def footWide (d : Cmd) : Bool := dKind d ≠ 2 && descWide d (footEnd d - 1)

/-- The first place of a footprint outside the regions (R123, R167). -/
def footOut (s : State) (n : Fin 8) (f : Fin 9) (p : Option (Fin 8)) (d : Cmd) : Option Nat :=
  if dKind d = 2 || dLoc d = 0 then none else
  (footprint s n d).findSome? fun x => ((List.range x.2).map (x.1 + ·)).find? (spaceOut s f p)

/-- The format code of an adder region for an element format (R170). -/
def adderCode (f : Fmt) : Option Nat := match f with | .fp32 => some 0 | .bf16 => some 1 | .int32 => some 2 | _ => none

/-- Why a GATHER, SCATTER or ADDSCATTER is rejected (R126, R133 to R137, R167, R170). A source that is a tile view is judged as R91, R125
and R128 have it for a Trowel command: the spec gives the Hods the tile table (R118) and no rule of their own for views (log 40). -/
def gatherReject (s : State) (h : Fin 16) (u : UnitCmd) : Option Res :=
  let c := u.word
  let n := fin8 (h.val / 2)
  let p := issuerPart s u.iss
  let f := issuerFn s u.iss
  let d := cmdDesc u (gsDdesc c)
  let sd := cmdDesc u (gsSdesc c)
  let L := gsList c
  let add := u.op = 0x44
  let view := dKind sd = 2
  let t := viewTile s n sd
  if rsvSet c gatherRsv || descRsv d || descRsv sd || (view && tileRsv t.entry) then some (rejected .reservedSet) else
  if gsNent c = 0 || gsNent c > 65536 || hEvent c > 4095 || addrBad L || L % 8 ≠ 0 || foreignPallet s p L || !dDefined d ||
    !dDefined sd || dKind d = 2 || (view && !tBound t.entry) then some (rejected .badField) else
  if descFmtBad d || (!view && descFmtBad sd) then some (rejected .badFormat) else
  if descBad d || descBad sd || (view && tileBad t.entry) then some (rejected .badDesc) else
  if dFmt d ≠ srcFmt s n sd || (add && !(dFmt d == .fp32 || dFmt d == .bf16 || dFmt d == .fp16 || dFmt d == .int32)) then
    some (rejected .badFormat) else
  if gsPanels c && (dPRL d ≠ dPRL sd || dPCL d ≠ dPCL sd) then some (rejected .badDesc) else
  if noRight s f L 1 then refuseAt .hostRegion L else
  if dLoc sd = 2 && !hostRight s f (dHostReg sd) 1 then refuseAt .hostRegion (hostAddr (dHostReg sd) 0) else
  if dLoc d = 2 && !hostRight s f (dHostReg d) 2 then refuseAt .hostRegion (hostAddr (dHostReg d) 0) else
  if view && tileShared s n (dTile sd) u.iss then some (rejected .tileShared) else
  if view && !t.init then some (rejected .tileState) else
  match (List.range (8 * gsNent c)).find? fun i => (placeAdd L i).isNone || spaceOut s f p (L + i) with
  | some i => refuseAt .outOfBounds (L + i)
  | none =>
    if footWide sd || footWide d then some (rejected .outOfBounds) else
    match (footOut s n f p sd).orElse fun _ => footOut s n f p d with
    | some e => refuseAt .outOfBounds e
    | none =>
      let foot (x : Cmd) := flatOf s f p (footprint s n x)
      let lst := flatOf s f p [(L, 8 * gsNent c)]
      if anyMeet (foot sd) (foot d) || anyMeet (foot sd) lst || anyMeet (foot d) lst then some (rejected .aliased) else
      if (gsPairs s n f p u).any fun x => !blkIn s n c sd x.1 || !blkIn s n c d x.2 then some (rejected .outOfBounds) else
      let ws := gsWrites s n f p u
      let wp := ws.map (descPlace n d)
      if add then
        if dLoc d = 2 then refuseAt .adderRegion (descPlace n d (dBase d)) else
        if dLoc d = 0 then none else
        match ws.find? fun a =>
          match p.bind fun p => adderAt s p a with
          | some (_, _, fmt, _) => some fmt != adderCode (dFmt d)
          | none => true with
        | some a => refuseAt .adderRegion (hbmAddr a)
        | none => if notEpoch s p ws || accumRefused s u p ws then some (rejected .accumScope) else none
      else
        if accumRefused s u p (hbmOf wp) then some (rejected .accumScope) else
        match coarseShortAt s p wp with
        | some e => refuseAt .coarseShort e
        | none => none

/-! ## Effects -/

/-- Writes of copied codes, each over the writes before it: `code` and `scale` read the source. -/
def gsStore (code scale : Nat → Nat → Nat) (wr : Nat → Byte) (d : Cmd) (l : List ((Nat × Nat) × (Nat × Nat))) : List (Nat × Byte) :=
  let ws := l.foldl (fun (ws : List (Nat × Byte)) x =>
    let cur (a : Nat) : Byte := match ws.find? fun y => y.1 = a with | some y => y.2 | none => wr a
    let sc := if fmtBlock (dFmt d) && x.2.2 % 32 = 0 then [(scaleAddr d x.2.1 x.2.2, BitVec.ofNat 8 (scale x.1.1 x.1.2))] else []
    sc ++ (elemStore cur d x.2.1 x.2.2 (code x.1.1 x.1.2)).reverse ++ ws) []
  ws.reverse

/-- One scatter-add element (R136). -/
def scatterAdd (f : Fmt) (old x : Nat) : Nat × FlagByte :=
  if f = .int32 then adderAdd 2 old x else addOnce f old x

/-- Adds of an ADDSCATTER: destination position and addend code; list order in deterministic mode, else an order given by free
values (R136). -/
def gsAddends (s : State) (f : Fin 9) (p : Option (Fin 8)) (u : UnitCmd) (n : Fin 8) : List ((Nat × Nat) × Nat) × State :=
  let sd := cmdDesc u (gsSdesc u.word)
  let rd (a : Nat) : Byte := spaceByte s f p (descPlace n sd a)
  let l := (gsPositions s n f p u).map fun x => (x.2, gsCode s n rd sd x.1.1 x.1.2)
  if (p.map (deterministic s)).getD true then (l, s) else
  let keyed := l.zipIdx.map fun (x, i) => ((Config.freeWord (s.free + i)).toNat, x)
  ((sortBy (fun a b => a.1 ≤ b.1) keyed).map (·.2), { s with free := s.free + l.length })

/-- Adds into a Pallet or HBM tensor, one element after the other. -/
def gsAdds (s : State) (f : Fin 9) (p : Option (Fin 8)) (n : Nat) (d : Cmd) (l : List ((Nat × Nat) × Nat)) : State × FlagByte :=
  l.foldl (fun (acc : State × FlagByte) ((r, c), x) =>
    let s := acc.1
    let rd (a : Nat) : Byte := spaceByte s f p (descPlace n d a)
    let (v, fl) := scatterAdd (dFmt d) (elemCode rd d r c) x
    (spaceWriteL s f p ((elemStore rd d r c v).map fun (a, b) => (descPlace n d a, b)), acc.2 ||| fl)) (s, 0)

/-- Adds of a COPY in add mode in pattern order: HBM address and addend word, with the flags of to_fixed (R168). -/
def cpAddends (s : State) (u : UnitCmd) (f : Fin 9) (p : Option (Fin 8)) (fmt : Nat) (sc : Int) : List (Nat × Nat) × FlagByte :=
  let c := u.word
  let (sw, dw) := addWidths fmt
  let l := (cpIndices c).flatMap fun (a, b) => (List.range (cpRun c / sw)).map fun e =>
    let v := ofLe ((List.range sw).map fun i => spaceByte s f p (cpSaddr c + a + sw * e + i))
    let (w, fl) := if fmt = 4 then let (x, fx) := toFixed (BitVec.ofNat 32 v) sc; (x.toNat, fx) else (v, 0)
    (aHbm (cpDaddr c) + b + dw * e, w, fl)
  (l.map fun x => (x.1, x.2.1), orFlags (l.map fun x => x.2.2))

/-- Places read and places written by a command (R162, R169), in order. -/
def hodPlaces (s : State) (h : Fin 16) (u : UnitCmd) : List Nat × List Nat :=
  let c := u.word
  let n := fin8 (h.val / 2)
  let p := issuerPart s u.iss
  let f := issuerFn s u.iss
  if u.op = 0x41 then
    let idx := cpIndices c
    (cpPlaces (cpSaddr c) (cpRun c) (idx.map (·.1)), cpPlaces (cpDaddr c) (cpDrun s u p) (idx.map (·.2)))
  else
    ((List.range (8 * gsNent c)).map (gsList c + ·) ++ gsReads s n u (gsPositions s n f p u),
     (gsWrites s n f p u).map (descPlace n (cmdDesc u (gsDdesc c))))

/-- The command adds (R168, R170). -/
def hodAdds (u : UnitCmd) : Bool := u.op = 0x44 || (u.op = 0x41 && cpAdd u.word)

/-- The accesses that carry a command's reads: those of a COPY for one index never serve another in a port region (R163). -/
def hodReadRuns (s : State) (u : UnitCmd) (rs : List Nat) : List (Nat × Nat × List Nat) :=
  readRuns s (issuerFn s u.iss) (issuerPart s u.iss) (rs.zipIdx.map fun (e, i) => (e, if u.op = 0x41 then i / cpRun u.word else 0))

/-- Bytes beyond the pattern that accesses carry, host reads in port regions excepted (R163, R171). -/
def hodWaste (s : State) (f : Fin 9) (p : Option (Fin 8)) (rr wr : List (Nat × Nat × List Nat)) : Nat :=
  (((rr.filter fun x => !(aLoc x.1 = 2 && portPlace s f p x.1)) ++ wr).map fun (_, u, l) => u - l.dedup.length).sum

/-- HBM addresses read to record what a command of a program is going to write (R325). -/
def hodUndo (s : State) (u : UnitCmd) (ws : List Nat) : List Nat :=
  match issuerCrew u.iss, issuerPart s u.iss with
  | some c, some p => undoReads s c p (hbmOf ws)
  | _, _ => []

/-- A place that a read cannot deliver: an uncorrectable Pallet word or HBM sector, or a page the host does not translate (R177). -/
def badPlace (s : State) (f : Fin 9) (p : Option (Fin 8)) (e : Nat) : Bool :=
  match aLoc e with
  | 0 => (palletUe s (fin8 (aCourse e)) [aPallet e]).isSome
  | 1 => (ueAt s p [aHbm e]).isSome
  | _ => (hostFaultAt s f [e]).isSome

/-- The first fault of a command's reads and writes (R177); `undo` lists what the undo record reads. -/
def hodFault (s : State) (u : UnitCmd) (undo rs ws : List Nat) : Option (Reason × Nat) :=
  let p := issuerPart s u.iss
  let f := issuerFn s u.iss
  match rs.find? (fun e => aLoc e = 0 && (palletUe s (fin8 (aCourse e)) [aPallet e]).isSome) with
  | some e => some (.palletUe, e)
  | none =>
    match (if hodAdds u then ueAt s p (hbmOf rs ++ hbmOf ws) else (ueAt s p (undo ++ hbmOf rs)).orElse fun _ => uePartial s p (hbmOf ws)) with
    | some a => some (.hbmUe, hbmAddr a)
    | none => (hostFaultAt s f (rs ++ ws)).map fun e => (.hostFault, e)

/-- The memory effect of a command that is not rejected: state, flags. -/
def hodEffect (s : State) (h : Fin 16) (u : UnitCmd) : State × FlagByte :=
  let c := u.word
  let n := fin8 (h.val / 2)
  let p := issuerPart s u.iss
  let f := issuerFn s u.iss
  if u.op = 0x41 then
    if cpAdd c then
      match p.bind fun p => (adderAt s p (aHbm (cpDaddr c))).map fun r => (p, r) with
      | some (q, _, _, fmt, sc) =>
        let (l, fl) := cpAddends s u f p fmt sc
        let (s, fl') := hbmAdds s q fmt l
        (s, fl ||| fl')
      | none => (s, 0)
    else
      let idx := cpIndices c
      let ws := (cpPlaces (cpDaddr c) (cpRun c) (idx.map (·.2))).zip
        ((cpPlaces (cpSaddr c) (cpRun c) (idx.map (·.1))).map (spaceByte s f p))
      (spaceWriteL s f p ws, 0)
  else
    let sd := cmdDesc u (gsSdesc c)
    let d := cmdDesc u (gsDdesc c)
    let rd (a : Nat) : Byte := spaceByte s f p (descPlace n sd a)
    if u.op = 0x44 then
      let (l, s) := gsAddends s f p u n
      gsAdds s f p n d l
    else
      let ws := (gsStore (gsCode s n rd sd) (elemScale rd sd) (fun a => spaceByte s f p (descPlace n d a)) d
        (gsPositions s n f p u)).map fun (a, b) => (descPlace n d a, b)
      (spaceWriteL s f p ws, 0)

/-- The positions a command writes, each as its places and the places it is computed from: a byte of a COPY, an element of an add or a
tensor, or a block of a block format with its scale (R12). -/
def hodGroups (s : State) (h : Fin 16) (u : UnitCmd) : List (List Nat × List Nat) :=
  let c := u.word
  let n := fin8 (h.val / 2)
  let p := issuerPart s u.iss
  let f := issuerFn s u.iss
  if u.op = 0x41 then
    let idx := cpIndices c
    if cpAdd c then
      let (sw, dw) := addWidths (((p.bind fun p => adderAt s p (aHbm (cpDaddr c))).map fun r => r.2.2.1).getD 0)
      idx.flatMap fun (a, b) => (List.range (cpRun c / sw)).map fun e =>
        ((List.range dw).map (cpDaddr c + b + dw * e + ·), (List.range sw).map (cpSaddr c + a + sw * e + ·))
    else ((cpPlaces (cpDaddr c) (cpRun c) (idx.map (·.2))).zip (cpPlaces (cpSaddr c) (cpRun c) (idx.map (·.1)))).map fun x => ([x.1], [x.2])
  else
    let d := cmdDesc u (gsDdesc c)
    let sd := cmdDesc u (gsSdesc c)
    let key (y : Nat × Nat) : Nat × Nat := if fmtBlock (dFmt d) then (y.1, y.2 / 32) else y
    let pos := gsPositions s n f p u
    ((pos.map fun x => key x.2).dedup).map fun k =>
      let l := pos.filter fun x => key x.2 = k
      ((l.flatMap fun x => (elemAddrs d x.2.1 x.2.2).map (descPlace n d)).dedup, l.flatMap fun x => gsFrom s n sd x.1.1 x.1.2)

/-- What those positions hold. -/
def hodOld (s : State) (h : Fin 16) (u : UnitCmd) : List (List (Nat × Byte)) :=
  let rd := spaceByte s (issuerFn s u.iss) (issuerPart s u.iss)
  (hodGroups s h u).map fun g => g.1.map fun e => (e, rd e)

/-- A command fails partway (R12): of the positions it writes some hold their old value, by free values, and every one that is computed
from a place that cannot be read, or lies where it cannot be written, does. `t` is the state with its whole effect. -/
def hodPartly (s t : State) (h : Fin 16) (u : UnitCmd) : State :=
  let p := issuerPart s u.iss
  let f := issuerFn s u.iss
  let rd := spaceByte s f p
  let stuck (g : List Nat × List Nat) : Bool :=
    g.2.any (badPlace s f p) || g.1.any fun e => if hodAdds u then badPlace s f p e else aLoc e = 2 && badPlace s f p e
  let old (g : List Nat × List Nat) : List (Nat × Byte) := g.1.map fun e => (e, rd e)
  let gs := hodGroups s h u
  let (back, t) := someOf t (gs.filter fun g => !stuck g)
  spaceWriteL t f p ((gs.filter stuck ++ back).flatMap old)

/-! ## Dispatch -/

def setHodHead (s : State) (h : Fin 16) (g : UnitCmd → UnitCmd) : State :=
  updHod s h fun t => { t with queue := match t.queue with | x :: l => g x :: l | [] => [] }

/-- The first queue position counts a rejection of its reason where the spec has an object for it (R129, R159). -/
def hodCount (s : State) (h : Fin 16) (u : UnitCmd) (r : Res) : State :=
  if r.reason = .outOfBounds && u.op ≠ 0x41 then ctrAdd s 0 0x6300 (0x40 + h.val / 2) 1
  else if r.reason = .coarseShort then
    match hbmSpot s (issuerPart s u.iss) (aHbm r.d0.toNat) with
    | some m => ctrAdd s 0 (0x5100 + (mpaMap s.hbm m.1).1) 0x21 1
    | none => s
  else s

/-- A command names a host region entry whose waiting write comes first (R178). -/
def entryWaits (u : UnitCmd) : Bool := !u.after.isEmpty

/-- The Pallet whose registered ranges hold back writes to these places (R57). -/
def heldBy (s : State) (ws : List Nat) : Option Nat :=
  (List.range 8).find? fun n => guarded s (fin8 n) ((ws.filter fun e => aLoc e = 0 && aCourse e = n).map aPallet)

/-- What a Hod command that completes is counted for: bytes moved, waste, host bytes, coarse waste, and its charge at the regulators
(R150, R171, R181). -/
def hodAccount (s : State) (h : Fin 16) (u : UnitCmd) (rs ws : List Nat) (moved : Nat) : State :=
  let p := issuerPart s u.iss
  let f := issuerFn s u.iss
  let n := h.val / 2
  let rr := hodReadRuns s u rs
  let wr := writeRuns s p ws
  let waste := hodWaste s f p rr wr
  let s := hbmCharge (coarseWaste s p rr) p (rr ++ wr)
  let s := ctrAdd s 0 (0x6100 + n) (0x52 + h.val % 2) moved
  let s := ctrAdd s 0 (0x6100 + n) 0x54 waste
  let s := evAdd (evAdd s 0x3001 h 0xFF moved) 0x3002 h 0xFF waste
  let s := evAdd s 0x3003 h 0xFF (rs.filter fun e => aLoc e = 2).length
  evAdd s 0x3004 h 0xFF (ws.filter fun e => aLoc e = 2).length

/-- The oldest command of a Hod runs, unless a range an MM registered holds it (R57) or an entry it names is written first (R178). Its
effect is that of R162, R168 or R134. -/
def goHod (s : State) (h : Fin 16) : State :=
  match s.hods[h].queue with
  | [] => s
  | u :: _ =>
    if u.run || u.blocked ≠ 0 then s else
    if entryWaits u then setHodHead s h fun x => { x with blocked := 3 } else
    let p := issuerPart s u.iss
    let f := issuerFn s u.iss
    let why := if u.op = 0x41 then copyReject s u else gatherReject s h u
    let s := waitSpent s (fin8 (h.val / 2)) (cmdTiles u)
    match why with
    | some r => setHodHead (hodCount s h u r) h fun x => { x with run := true, res := r }
    | none =>
      let (rs, ws) := hodPlaces s h u
      match heldBy s ws with
      | some n => setHodHead (evAdd s 0x2003 n 0xFF 1) h fun x => { x with blocked := 2 }
      | none =>
        let s := tilesTake s (fin8 (h.val / 2)) u
        let undo := hodUndo s u ws
        let old := hodOld s h u
        let s := match issuerCrew u.iss, p with | some c, some p => undoSave s c p (hbmOf ws) | _, _ => s
        match hodFault s u undo rs ws with
        | some (r, e) =>
          let s := if r = .palletUe then palletUeEvent s (fin8 (aCourse e)) (aPallet e)
            else if r = .hbmUe then ueEventAt s p (aHbm e) else s
          let (t, fl) := hodEffect s h u
          let (fl, t) := someFlags t fl
          setHodHead (hodPartly s t h u) h fun x => { x with run := true, res := { failedRes r (!old.isEmpty) e with flags := fl } }
        | none =>
          let (s, fl) := hodEffect s h u
          let s := spaceFix s p (rs ++ undo.map hbmAddr)
          let moved := if u.op = 0x41 then cpBytes u.word else ws.length
          let s := hodAccount (atcUse s f (rs ++ ws)) h u rs ws moved
          let cls : Cls := if u.retried then .okRetried else .ok
          let d0 : U64 := match u.iss with | .stream _ _ _ => BitVec.ofNat 64 moved | _ => 0
          setHodHead s h fun x => { x with run := true, wrote := old, res := ⟨cls, .none, fl, false, false, d0, 0⟩ }

/-- Hods 2n and 2n + 1 belong to the partition that owns Course n (R14). -/
def hodCourse (h : Fin 16) : Fin 8 := fin8 (h.val / 2)

/-- A command placed in a Hod's queue of 256, or waiting for room (R176). -/
def enqueueHod (s : State) (h : Fin 16) (u : UnitCmd) : State :=
  if s.hods[h].queue.length < 256 then goHod (updHod s h fun t => { t with queue := t.queue ++ [u] }) h
  else updHod s h fun t => { t with waiting := t.waiting ++ [u] }

/-- Host region entries a command names (R178). -/
def namedRegions (u : UnitCmd) : List Nat :=
  let at_ (e : Nat) : List Nat := if aLoc e = 2 then [aRegion e] else []
  (if u.op = 0x41 then at_ (cpSaddr u.word) ++ at_ (cpDaddr u.word)
   else at_ (gsList u.word) ++ (u.descs.filter fun d => dKind d.2 = 1 && dLoc d.2 = 2).map fun d => dHostReg d.2).dedup

/-- The waiting writes of listed entries of a function, with how many of each wait: a command issued now comes after them (R178). -/
def writesBefore (s : State) (f : Fin 9) (is_ : List Nat) : List (Nat × Nat) :=
  is_.filterMap fun i =>
    let n := (s.host.funcs[f].regionWrites.filter fun x => x.1 = i).length
    if n = 0 then none else some (i, n)

/-- The Hod command of a COPY entry (R208). -/
def copyOf (e : Entry) : Cmd := BitVec.ofNat 512 (fld (enBody e) 503 0 * 256 + 0x41)

/-- Host region entries that a stream entry names: of a COPY, of a DICT's two buffers, of an EXPORT to a region (R178, R208, R209). -/
def enRegions (e : Entry) : List Nat :=
  let at_ (a : Nat) : List Nat := if aLoc a = 2 then [aRegion a] else []
  let b := enBody e
  match enOp e with
  | 3 => at_ (cpSaddr (copyOf e)) ++ at_ (cpDaddr (copyOf e))
  | 6 => [fld b 11 0, fld b 75 64]
  | 7 => if fld b 65 64 = 0 then [fld b 83 72] else []
  | _ => []

/-- A write of an entry that a DICT or an EXPORT about to start names still waits (R178). -/
def regionPending (s : State) (f : Fin 9) (e : Entry) : Bool := !(writesBefore s f (enRegions e)).isEmpty

/-- A 64-byte store at the issue port of Hod h (R160, R161, R169). -/
def hodPort (s : State) (w : Who) (h : Fin 16) (c : Cmd) : State :=
  let op := fld c 7 0
  let n := hodCourse h
  castReady (issueStore s w (ownsCourse n) op (hTag c) (hEvent c) fun s _ _ iss =>
    if op < 0x41 || op > 0x44 then retireUnit s iss op (hTag c) 0 (rejected .badField) else
    let ds := if op = 0x41 then [] else copyDescs s.courses[n] [gsDdesc c, gsSdesc c]
    let u := mkCmd c iss ds (viewEntries s.courses[n] ds) (hEvent c) 0
    enqueueHod s h { u with after := writesBefore s (issuerFn s iss) (namedRegions u) })

/-- COPY (R162). -/
def execCopy (w : Who) (h : Fin 16) (c : Cmd) (s : State) : Host.Outcome State Fault Refusal := powered s (hodPort s w h c)

/-- COPY in add mode (R168). -/
def execCopyAdd (w : Who) (h : Fin 16) (c : Cmd) (s : State) : Host.Outcome State Fault Refusal := powered s (hodPort s w h c)

/-- GATHER (R134). -/
def execGather (w : Who) (h : Fin 16) (c : Cmd) (s : State) : Host.Outcome State Fault Refusal := powered s (hodPort s w h c)

/-- SCATTER (R135). -/
def execScatter (w : Who) (h : Fin 16) (c : Cmd) (s : State) : Host.Outcome State Fault Refusal := powered s (hodPort s w h c)

/-- ADDSCATTER (R170). -/
def execAddscatter (w : Who) (h : Fin 16) (c : Cmd) (s : State) : Host.Outcome State Fault Refusal := powered s (hodPort s w h c)

/-! ## Retirement, waits and faults -/

/-- The Hod commands of a function, in their queues or waiting for room. -/
def hodCmds (s : State) (f : Fin 9) : List UnitCmd :=
  s.hods.toList.flatMap fun t => (t.queue ++ t.waiting).filter fun u => issuerFn s u.iss = f

/-- An accepted entry has started, has not retired and was not rejected. -/
def entryIssued (e : EntryRun) : Bool := e.stage = .started || (e.stage = .finished && e.res.cls ≠ .rejected)

/-- An unretired command of a function, at a Hod or in a stream, names entry i of its host region table and was issued before the
entry's oldest waiting write (R178). -/
def regionNamed (s : State) (f : Fin 9) (i : Nat) : Bool :=
  ((hodCmds s f).any fun u => (namedRegions u).contains i && !(u.after.any fun x => x.1 = i)) ||
  s.host.funcs[f].streams.any fun (_, k) =>
    k.entries.any fun e => entryIssued e && (enRegions e.raw).contains i && !(e.after.any fun x => x.1 = i)

/-- A waiting write of an entry has taken effect: one less of them comes before a command that names the entry. -/
def lessBefore (i : Nat) (l : List (Nat × Nat)) : List (Nat × Nat) :=
  (l.map fun x => if x.1 = i then (i, x.2 - 1) else x).filter fun x => x.2 ≠ 0

/-- A function's write of an entry takes effect, and commands issued after it see it. -/
def entryWritten (s : State) (f : Fin 9) (i : Nat) (d : BitVec 256) : State :=
  let entry (e : EntryRun) : EntryRun := { e with after := lessBefore i e.after }
  let strm (x : Nat × Stream) : Nat × Stream := (x.1, { x.2 with entries := x.2.entries.map entry })
  let s := updFunc s f fun k => { k with hostRegions := assocSet k.hostRegions i d 0, streams := k.streams.map strm }
  let less (u : UnitCmd) : UnitCmd := if issuerFn s u.iss = f then { u with after := lessBefore i u.after } else u
  let hod (t : Hod) : Hod := { t with queue := t.queue.map less, waiting := t.waiting.map less }
  { s with hods := s.hods.map hod }

/-- Waiting writes of host region entries take effect, in order, once no command issued before them names them. -/
def doRegionWrites (s : State) (f : Fin 9) : State :=
  s.host.funcs[f].regionWrites.foldl (fun s (i, d) =>
    let first := (s.host.funcs[f].regionWrites.find? fun x => x.1 = i) = some (i, d)
    if regionNamed s f i || !first then s
    else entryWritten (updFunc s f fun k => { k with regionWrites := k.regionWrites.erase (i, d) }) f i d) s

/-- Hods whose oldest command waited for a write of an entry it names go on (R178). -/
def freeHods (s : State) : State :=
  (List.range 16).foldl (fun s h =>
    let h := fin16 h
    match s.hods[h].queue with
    | u :: _ => if u.blocked = 3 && !entryWaits u then goHod (setHodHead s h fun x => { x with blocked := 0 }) h else s
    | [] => s) s

/-- HOD_RETIRE (R173 to R175, R231): the oldest command, its reads, writes and adds all done, retires; the next one starts. A
write-back of a host region entry that waited for it takes effect (R178). -/
def execHodRetire (h : Fin 16) (s : State) : Host.Outcome State Fault Refusal :=
  powered s (
    match s.hods[h].queue with
    | [] => s
    | u :: rest =>
      if !u.run then s else
      let s := updHod s h fun t => { t with queue := rest }
      -- a rejected command has no effect on counters (R12)
      let s := if u.res.cls = .rejected then s else ctrAdd s 0 (0x6100 + h.val / 2) (0x50 + h.val % 2) 1
      let s := retireUnit s u.iss u.op.toNat (hTag u.word) u.ev u.res
      let s := if u.res.cls = .rejected then s else tilesGive s (hodCourse h) u
      let s := freeHods (doRegionWrites (doStores s (hodCourse h)) (issuerFn s u.iss))
      (castReady (goHod s h)))

/-- HOD_QUEUE_WAIT (R176): with room in the queue, the oldest waiting issue store proceeds. The wait is counted, in a number of
cycles the model leaves free. -/
def execHodQueueWait (h : Fin 16) (s : State) : Host.Outcome State Fault Refusal :=
  powered s (
    match s.hods[h].waiting with
    | [] => s
    | u :: rest =>
      if s.hods[h].queue.length ≥ 256 then s else
      let s := updHod s h fun t => { t with waiting := rest, queue := t.queue ++ [u] }
      let (v, s) := fresh s
      (castReady (goHod (ctrAdd s 0 (0x6100 + h.val / 2) 0x55 v.toNat) h)))

/-- What the oldest command of a Hod wrote is cut short: positions of it hold their old values again, by free values (R12). -/
def hodCut (s : State) (h : Fin 16) : State :=
  match s.hods[h].queue with
  | u :: _ =>
    if !u.run || u.res.cls = .rejected || u.wrote.isEmpty then s else
    let (back, s) := someOf s u.wrote
    spaceWriteL s (issuerFn s u.iss) (issuerPart s u.iss) back.flatten
  | [] => s

/-- A part fault of Hod `h`: its oldest command is executed again from its start and completes OK_RETRIED. One that adds or writes into
a port region completes FAILED instead: positions it wrote may hold their old values, some of its flags are reported, and PARTIAL says
whether it had begun to write (R177, R12). -/
def hodPartFault (s : State) (h : Fin 16) : State :=
  match s.hods[h].queue with
  | [] => s
  | u :: _ =>
    if u.run && (u.res.cls = .rejected || u.res.cls = .failed) then s else
    let p := issuerPart s u.iss
    let f := issuerFn s u.iss
    let (_, ws) := hodPlaces s h u
    if hodAdds u || ws.any (portPlace s f p) then
      let (fl, s) := someFlags (hodCut s h) u.res.flags
      (setHodHead s h fun x =>
        { x with run := true, blocked := 0, res := { failedRes .hodInterrupted (u.run && !u.wrote.isEmpty) 0 with flags := fl } })
    else
      let s := ctrAdd s 0 (0x6100 + h.val / 2) 0x56 1
      let s := setHodHead s h fun x => { x with run := false, retried := true, blocked := 0, wrote := [], res := Res.okay }
      (castReady (goHod s h))

/-- HOD_PART_FAULT (R177). -/
def execHodPartFault (h : Fin 16) (s : State) : Host.Outcome State Fault Refusal := powered s (hodPartFault s h)

/-- Commands of the Trowel and the Hods held against the ranges of Course n's MM proceed once no range holds them (R57). -/
def releaseUnits (s : State) (n : Fin 8) : State :=
  let s := match s.trowels[n].queue with
    | u :: _ => if u.blocked = 2 then goTrowel (setTrowelHead s n fun x => { x with blocked := 0 }) n else s
    | [] => s
  let s := (List.range 16).foldl (fun s h =>
    let h := fin16 h
    match s.hods[h].queue with
    | u :: _ => if u.blocked = 2 then goHod (setHodHead s h fun x => { x with blocked := 0 }) h else s
    | [] => s) s
  castReady s

/-- A function's write of an entry of its host region table (R178): it waits while an unretired command names the entry. -/
def writeHostRegion (s : State) (f : Fin 9) (i : Nat) (d : BitVec 256) : State :=
  let waits := regionNamed s f i || s.host.funcs[f].regionWrites.any fun x => x.1 = i
  if waits then updFunc s f fun k => { k with regionWrites := k.regionWrites ++ [(i, d)] }
  else updFunc s f fun k => { k with hostRegions := assocSet k.hostRegions i d 0 }

/-- ATS_INVALIDATION (R179): what the IOMMU makes of a page of an address space from then on. The page leaves the cache; requests in
flight have drained, the completion is sent, and the next use translates again. -/
def execAtsInvalidation (f : Fin 9) (io : IoPlace) (page : Option Nat) (s : State) : Host.Outcome State Fault Refusal :=
  powered s (
    let g := (io.ps, io.iova / 4096)
    let s := updFunc s f fun k =>
      { k with atc := k.atc.filter (· ≠ g), iommu := (g, page) :: k.iommu.filter fun e => e.1 ≠ g }
    (emit s (.atsDone f io.iova)))

end Sys2Proof.Machine
end

