-- ==== Sys2Proof/Machine/Streams.lean ====
section
/-! DEFINITION. Command streams (10): polling and acceptance, the journal, retirement, and which entry starts next. -/

namespace Sys2Proof.Machine

open Sys2Proof

/-! ## Polling (R210 to R212, R218) -/

/-- The host-acknowledge word is read. Only a halt or a change of HOSTACK follows from it. -/
def pollAck (s : State) (f : Fin 9) (q : Nat) : State :=
  let k := stream s f q
  let (_, _, ackw, _) := ringOf s f q
  let ps := ringSpace s f q
  if !hostMapped s f ps ackw 8 then (if k.state = .halted then s else haltStream s f q .ringFault ackw) else
  let v := BitVec.ofNat 64 (ofLe (hostRead s f ps ackw 8))
  let stale := serialAfter k.hostack v
  let changed := v ≠ k.lastAck
  let s := updStream s f q fun k => { k with lastAck := v }
  if v ≠ k.retired && !serialAfter k.retired v then (if k.state = .halted then s else haltStream s f q .ackBad v.toNat)
  else if stale then (if changed then ctrAdd s f (0x6400 + q) 0x33 1 else s)
  else updStream s f q fun k => { k with hostack := v }

/-- Taken entries that are not accepted yet. -/
def takenCount (k : Stream) : Nat := (k.batches.map fun b => b.entries.length).sum

/-- E: the number the stream expects next. -/
def expectSeq (k : Stream) : BitVec 64 := k.accepted + BitVec.ofNat 64 (takenCount k) + 1

/-- A batch that still takes entries. -/
def openBatch (b : Batch) : Bool := !b.written && b.entries.length < 16

/-- An entry may be taken: both journal copies are whole, the window of 1,024 and a batch allow it, and a quiesced module
or one in ROM recovery takes only DICT entries on stream 0 of PF0 (R212, R214, R422, R445). -/
def mayTake (s : State) (f : Fin 9) (q : Nat) (e : Entry) : Bool :=
  let k := stream s f q
  s.journal.copyA && s.journal.copyB && (expectSeq k - k.retired).toNat ≤ 1024 && (k.batches.any openBatch || k.batches.length < 4) &&
  ((!s.power.quiesced && s.power.bringUp ≠ .rom) || (f = 0 && q = 0 && enOp e = 6))

/-- An entry joins the open batch or opens one; a batch of 16 is written at once (R212, R213). -/
def takeEntry (k : Stream) (e : Entry) : Stream :=
  let put (b : Batch) : Batch := ⟨b.entries ++ [e], b.entries.length = 15⟩
  { k with
    bad := none
    batches := if k.batches.any openBatch then k.batches.map fun b => if openBatch b then put b else b else k.batches ++ [⟨[e], false⟩] }

/-- The slots of a round are judged in order; the Bool says that an entry was taken. -/
def pollSlots : Nat → State → Fin 9 → Nat → Bool → State × Bool
  | 0, s, _, _, took => (s, took)
  | i + 1, s, f, q, took =>
    let k := stream s f q
    let (ring, _, _, _) := ringOf s f q
    let x := expectSeq k
    let n := ringN s f q
    let a := ring + 128 * (x.toNat % n)
    let ps := ringSpace s f q
    if !hostMapped s f ps a 128 then (haltStream s f q .ringFault a, took) else
    let e : Entry := BitVec.ofNat 1024 (ofLe (hostRead s f ps a 128))
    let y := entrySeq e
    if y = x then
      if enCrcOk e then
        if mayTake s f q e then pollSlots i (updStream s f q (takeEntry · e)) f q true
        else (updStream s f q fun k => { k with bad := none }, took)
      else
        let since := match k.bad with | some (b, t) => if b = e then t else s.now | none => s.now
        (updStream (ctrAdd s f (0x6400 + q) 0x31 1) f q fun k => { k with bad := some (e, since) }, took)
    else if serialAfter x y then
      let s := updStream s f q fun k => { k with bad := none }
      (if enCrcOk e && y ≠ x - BitVec.ofNat 64 n && y ≠ 0 then ctrAdd s f (0x6400 + q) 0x32 1 else s, took)
    else (haltStream s f q .gap y.toNat, took)

/-- What software has written to host memory, in order. -/
def softwareWrites (s : State) (hw : List HostWrite) : State :=
  hw.foldl (fun s w => hostPut s (w.bytes.zipIdx.map fun (b, i) => (w.addr + i, b))) s

/-- The interval to the next round (R210): 250 ns once an entry is taken; doubled, up to the stream's maximum, by a round that takes
nothing and sees no change of HOSTACK. -/
def nextInterval (s : State) (f : Fin 9) (q : Nat) (took changed : Bool) : State :=
  let cap := max 250 (objNat s f (0x6400 + q) 7 100000)
  updStream s f q fun k => { k with interval := if took then 250 else if changed then k.interval else min (2 * k.interval) cap }

/-- STREAM_POLL: a round. A WAITING stream polls once it may; a HALTED or DRAINING one reads its
host-acknowledge word alone, while accepted entries remain. -/
def execStreamPoll (f : Fin 9) (q : Fin 64) (hw : List HostWrite) (s : State) : Host.Outcome State Fault Refusal :=
  powered s (
    let s := softwareWrites s hw
    let s := updStream s f q fun k => if k.state = .waiting && mayPoll s f q then { k with state := .polling } else k
    let k := stream s f q
    if k.state = .polling then
      let s := pollAck s f q
      if (stream s f q).state ≠ .polling then s else
      let changed := (stream s f q).hostack ≠ k.hostack
      let (s, took) := pollSlots (min 8 (ringN s f q)) s f q false
      (nextInterval s f q took changed)
    else if (k.state = .halted || k.state = .draining) && !k.entries.isEmpty then
      let s := pollAck s f q
      (nextInterval s f q false ((stream s f q).hostack ≠ k.hostack))
    else s)

/-- CRC_STUCK (R211): slot E has held the same wrong bytes for 100 ms. -/
def execCrcStuck (f : Fin 9) (q : Fin 64) (s : State) : Host.Outcome State Fault Refusal :=
  powered s (
    let k := stream s f q
    match k.bad with
    | some (_, t) =>
      if k.state = .polling then (haltStream (reach s (t + 100000000)) f q .crcStuck (expectSeq k).toNat) else s
    | none => s)

/-! ## The journal (R213, R214) -/

/-- JOURNAL_BURST_WRITE: the open burst goes to both copies; while a copy is rebuilt it waits. -/
def execJournalBurstWrite (f : Fin 9) (q : Fin 64) (s : State) : Host.Outcome State Fault Refusal :=
  powered s (
    if s.journal.copyA && s.journal.copyB then
      (updStream s f q fun k => { k with batches := k.batches.map fun b => { b with written := true } })
    else s)

/-- An accepted entry. One with a reserved bit or an unknown opcode is rejected at once (R205, R6). -/
def acceptEntry (s : State) (e : Entry) : EntryRun :=
  let bad : Option Reason := if enRsv e then some .reservedSet else if enOp e = 0 || 7 < enOp e then some .badOpcode else none
  { raw := e, stage := if bad.isSome then .finished else .held, res := match bad with | some r => rejected r | none => Res.okay,
    stroke := enStroke e, tStart := s.now, latch := [], latchGroup := 0xFF, latchUnit := 0, latchEvents := [], sawReset := false, tEnd := s.now,
    deltas := [], retried := false, fence := none, ran := 0, after := [] }

/-- ENTRY_ACCEPT: the oldest written burst is accepted; ACCEPTED rises and the accept word is written. -/
def execEntryAccept (f : Fin 9) (q : Fin 64) (s : State) : Host.Outcome State Fault Refusal :=
  powered s (
    match (stream s f q).batches with
    | b :: rest =>
      if !b.written || !s.journal.copyA || !s.journal.copyB then s else
      let s := updStream s f q fun k =>
        { k with batches := rest, accepted := k.accepted + BitVec.ofNat 64 b.entries.length, entries := k.entries ++ b.entries.map (acceptEntry s) }
      let s := evAdd s 0x8001 q (fnOwner f) b.entries.length
      let s := { s with power := { s.power with idle := false } }
      (writeAccept s f q)
    | [] => s)

/-- JOURNAL_WRITE_FAIL (R214): a failed copy stops all taking until it is rebuilt; with both lost every stream halts with
JOURNAL_LOST. -/
def execJournalWriteFail (copyB : Bool) (s : State) : Host.Outcome State Fault Refusal :=
  powered s (
    if journalLost s then s else
    let t := { s with journal := if copyB then { s.journal with copyB := false } else { s.journal with copyA := false } }
    if !journalLost t then t else
    let t := moduleEvent s t
    ((List.finRange 9).foldl (fun t f => (List.range 64).foldl (fun t q => haltStream t f q .journalLost 0) t) t))

/-- JOURNAL_REBUILD_DONE: the failed copy is whole again, in the reservation of stack 13; the repair map records the move. -/
def execJournalRebuildDone (s : State) : Host.Outcome State Fault Refusal :=
  powered s (
    let j := s.journal
    if j.copyA = j.copyB then s
    else mapWrite { s with journal := ⟨true, true, j.movedA || !j.copyA, j.movedB || !j.copyB⟩ })

/-! ## Retirement (R215 to R220) -/

/-- A FENCE.CREW whose Crew has changed since it started completes FAILED (R222). -/
def fenceLost (s : State) (f : Fin 9) (q : Nat) (e : EntryRun) : State :=
  match e.fence with
  | some (t, ep) =>
    let k := s.crews[fin16 (fld (enBody e.raw) 15 8)]
    if e.stage = .started && (k.state ≠ t || k.epoch ≠ ep) then entryDone s f q (entrySeq e.raw) (failedRes .crewState false 0) else s
  | none => s

/-- A MARK that has become the stream's first unretired entry notes the time (R216). -/
def stampMark (s : State) (f : Fin 9) (q : Nat) : State :=
  match (stream s f q).entries with
  | e :: _ =>
    if enOp e.raw = 5 && e.stage = .finished && (e.res.cls = .ok || e.res.cls = .okRetried) then updEntry s f q (entrySeq e.raw) fun e => { e with res := { e.res with d0 := s.now } }
    else s
  | [] => s

/-- Preparation for removal is complete once accepted entries have completed; the event says so (R432, R386). -/
def removalCheck (s : State) : State :=
  let busy := s.host.funcs.toList.any fun k => k.streams.any fun x => !x.2.entries.isEmpty
  if s.power.removal ≠ 1 || busy then s
  else raiseEvent { s with power := { s.power with removal := 3 } } 2 2 0 0x100 [3]

/-- RETIREMENT: the first entry, once it has finished and n − HOSTACK ≤ N, writes its record, raises RETIRED and signals its
event; with a LAUNCH that has run, its Stroke ends (R323), and writes of host region entries that waited for the command take effect
(R178). A completion ring that cannot be reached halts the stream, and the entry stays. -/
def execRetirement (f : Fin 9) (q : Fin 64) (s : State) : Host.Outcome State Fault Refusal :=
  powered s (
    let s := match (stream s f q).entries with | e :: _ => fenceLost s f q e | [] => s
    let k := stream s f q
    match k.entries with
    | [] => s
    | e :: rest =>
      let n := entrySeq e.raw
      let cnt := ringN s f q
      if e.stage ≠ .finished || cnt < (n - k.hostack).toNat then s else
      let (_, cring, _, _) := ringOf s f q
      let a := cring + 128 * (n.toNat % cnt)
      let cext := enCext e.raw
      let ps := ringSpace s f q
      if !hostMapped s f ps a (if cext then 128 else 64) then (if k.state = .halted then s else haltStream s f q .ringFault a) else
      let r := recordBytes n (enOp e.raw) e.res cext (enTag e.raw) e.stroke.toNat s.now
      let s := hostWrite s f ps a (r ++ if cext then extBytes s e else [])
      let s := updStream s f q fun k =>
        { k with
          entries := rest, retired := n, history := ((n, BitVec.ofNat 512 (ofLe r)) :: k.history).take 4096
          state := if k.state = .draining && rest.isEmpty then .disabled else k.state }
      let s := evAdd s 0x8002 q (fnOwner f) 1
      let ev := if e.res.cls = .rejected then 0 else enSignal e.raw
      let s := ownerSignal (signalEv s f ev) (some (f, q)) f ev
      let s := stampMark s f q
      let s := freeHods (doRegionWrites s f)
      let s := if enOp e.raw = 2 && e.res.cls ≠ .rejected then passBoundary s (fin16 (enCrew e.raw)) else s
      (removalCheck (if enNotify e.raw || objNat s f (0x6400 + q) 9 0 ≠ 0 then notify s f (objNat s f (0x6400 + q) 8 0xFFFF) else s)))

/-! ## Starting entries (R221) -/

/-- The next entry to start: the first that has not started, unless an unretired FENCE comes before it. -/
def nextOf : List EntryRun → Option EntryRun
  | [] => none
  | e :: es =>
    if e.stage = .held || e.stage = .waited then some e
    else if enOp e.raw = 4 then none else nextOf es

def nextEntry (s : State) (f : Fin 9) (q : Nat) : Option EntryRun := nextOf (stream s f q).entries

/-- An entry starts and finishes at once. -/
def finishNow (s : State) (f : Fin 9) (q : Nat) (e : EntryRun) (res : Res) : State :=
  entryDone (entryStart s f q e) f q (entrySeq e.raw) res

/-- The stream's next entry starts, where it has this opcode and its WAIT is satisfied: reserved bits of its body and event
numbers above 4,095 reject it first. -/
def startEntry (s : State) (f : Fin 9) (q : Nat) (op : Nat) (rsv : List (Nat × Nat)) (go : EntryRun → State) : State :=
  match nextEntry s f q with
  | none => s
  | some e =>
    if enOp e.raw ≠ op then s
    else if rsvSet (enBody e.raw) rsv then finishNow s f q e (rejected .reservedSet)
    else if 4095 < enWait e.raw || 4095 < enSignal e.raw then finishNow s f q e (rejected .badField)
    else if e.stage = .held && enWait e.raw ≠ 0 then s
    else go e

/-- EVENT_WAIT_SATISFIED (R221): the next entry's event has reached WAITCNT. -/
def execEventWaitSatisfied (f : Fin 9) (q : Fin 64) (s : State) : Host.Outcome State Fault Refusal :=
  powered s (
    match nextEntry s f q with
    | none => s
    | some e =>
      let w := enWait e.raw
      let c := (eventCount s f w).toNat
      if e.stage ≠ .held || w = 0 || 4095 < w || c < enWaitCnt e.raw then s else
      let s := updEntry s f q (entrySeq e.raw) fun e => { e with stage := .waited }
      (updStream s f q fun k => { k with waits := (w, c) :: k.waits }))

/-- SIGNAL_EVENT (R223): a write to 0x6500:02; a number outside 1 to 4,095 is out of range and signals nothing. -/
def execSignalEvent (f : Fin 9) (e : BitVec 16) (s : State) : Host.Outcome State Fault Refusal := powered s (signalEv s f e.toNat)

end Sys2Proof.Machine
end

