-- ==== Sys2Proof/Machine/Entries.lean ====
section
/-! DEFINITION. What stream entries do (10): NOP, LAUNCH, COPY, FENCE, MARK and EXPORT. DICT stands with the dictionary. -/

namespace Sys2Proof.Machine

open Sys2Proof

/-- NOP (R205). -/
def execNop (f : Fin 9) (q : Fin 64) (s : State) : Host.Outcome State Fault Refusal :=
  powered s (startEntry s f q 1 [(735, 0)] fun e => finishNow s f q e Res.okay)

/-! ## Pending change sets that hold a LAUNCH (R24, R395, R400) -/

/-- An object of effect class STROKE. -/
def strokeObj (idx sub : Nat) : Bool :=
  (idx = 0x6000 && sub = 1) || (idx = 0x4000 && sub ≤ 8) ||
  (0x7200 ≤ idx && idx < 0x7210 && ((2 ≤ sub && sub ≤ 6) || sub = 9 || (0x30 ≤ sub && sub ≤ 0x3C))) || (idx = 0x7300 && sub ≤ 0x78)

/-- The partition an object belongs to; none for a module-wide one. -/
def objPart (s : State) (k : ObjKey) : Option (Fin 8) :=
  if 0 < k.f then some (fin8 (k.f - 1))
  else if k.idx = 0x4000 then some (fin8 (k.sub - 1))
  else if 0x7200 ≤ k.idx && k.idx < 0x7210 then crewOwner s (fin16 (k.idx - 0x7200))
  else if k.idx = 0x7300 then some (fin8 (k.sub % 16 - 1))
  else none

/-- A set changes STROKE-class objects of a partition. -/
def setTouches (s : State) (x : PendSet) (p : Fin 8) : Bool :=
  x.values.any fun v => strokeObj v.1.idx v.1.sub && (match objPart s v.1 with | some q => q = p | none => true)

/-- LAUNCH N of Crew c waits for a pending set: one whose apply point is this Stroke, or a STROKE-class set of the partition
whose apply point has come. -/
def launchHeld (s : State) (c : Fin 16) (p : Fin 8) (n : Nat) : Bool :=
  s.dict.pendings.any fun x =>
    match apKind x.point with
    | 0 => setTouches s x p
    | 1 => apValue x.point ≤ s.now.toNat && setTouches s x p
    | _ => (apCrew x.point = c && apValue x.point = n) ||
        (s.crews[apCrew x.point].lastFinished.toNat + 1 = apValue x.point && setTouches s x p)

/-! ## COPY (R208, R225) -/

/-- A COPY that adds, or writes into an epoch-scoped region (R225, R325). -/
def copyAccum (s : State) (f : Fin 9) (e : Entry) : Bool :=
  let c := copyOf e
  cpAdd c || (match partOfFn f with
    | some p => (hbmOf (cpPlaces (cpDaddr c) (cpRun c) ((cpIndices c).map (·.2)))).any fun a => (epochOff s p a).isSome
    | none => false)

/-- The Hod a COPY goes to: the one named, or the least loaded of those it may use; none is BAD_FIELD. -/
def copyHod (s : State) (f : Fin 9) (x : Nat) : Option (Fin 16) :=
  let may (h : Fin 16) : Bool :=
    let n := hodCourse h
    s.courses[n].inService && (f.val = 0 || courseOwner s n == partOfFn f)
  let load (h : Fin 16) : Nat := s.hods[h].queue.length + s.hods[h].waiting.length
  if x < 16 then (if may (fin16 x) then some (fin16 x) else none)
  else if x = 0xFF then ((List.finRange 16).filter may).foldl (fun b h => match b with
    | some y => if load h < load y then some h else some y
    | none => some h) none
  else none

/-- A COPY is issued to its Hod. -/
def issueCopy (s : State) (f : Fin 9) (q : Nat) (e : EntryRun) : State :=
  let c := copyOf e.raw
  match copyHod s f (fld (enBody e.raw) 511 504) with
  | some h =>
    if hEvent c ≠ 0 || hTag c ≠ 0 || (f.val = 0 && (aLoc (cpSaddr c) = 0 || aLoc (cpDaddr c) = 0)) then finishNow s f q e (rejected .badField)
    else if f.val = 0 && cpAdd c then finishNow s f q e (rejected .accumScope)
    else
      let u := mkCmd c (.stream f (fin64 q) (entrySeq e.raw)) [] [] 0 0
      let after := writesBefore s f (namedRegions u)
      let s := updEntry (entryStart s f q e) f q (entrySeq e.raw) fun x => { x with after := after }
      enqueueHod s h { u with after := after }
  | none => finishNow s f q e (rejected .badField)

def copyEntryRsv : List (Nat × Nat) := [(735, 512)]

/-- HOST_COPY (R208): the stream's next entry, a plain COPY. -/
def execHostCopy (f : Fin 9) (q : Fin 64) (s : State) : Host.Outcome State Fault Refusal :=
  powered s (startEntry s f q 3 copyEntryRsv fun e => if copyAccum s f e.raw then s else issueCopy s f q e)

/-- HOST_ACCUMULATE_START (R225): a COPY that adds or writes an epoch-scoped region starts only at a Stroke boundary of every Crew
of its partition. -/
def execHostAccumulateStart (f : Fin 9) (q : Fin 64) (s : State) : Host.Outcome State Fault Refusal :=
  powered s (startEntry s f q 3 copyEntryRsv fun e =>
    let runs : Bool := match partOfFn f with
      | some p => (List.finRange 16).any fun c => crewOwner s c == some p && strokeRuns s c
      | none => false
    if !copyAccum s f e.raw || runs then s else issueCopy s f q e)

/-- A host-stream add or epoch copy of a partition waits for its boundary or runs: the next LAUNCH waits for it (R225). -/
def hostAdds (s : State) (p : Fin 8) : Bool :=
  let f := funcOf p
  s.host.funcs[f].streams.any fun (_, k) =>
    (k.entries.any fun e => enOp e.raw = 3 && e.stage = .started && copyAccum s f e.raw) ||
    (match nextOf k.entries with
    | some e => enOp e.raw = 3 && (e.stage = .waited || enWait e.raw = 0) && copyAccum s f e.raw
    | none => false)

/-! ## LAUNCH (R206, R207, R232, R351) -/

def laImage (b : BitVec 736) : Nat := fld b 63 0
def laIlen (b : BitVec 736) : Nat := fld b 95 64
def laDigest (b : BitVec 736) : Nat := fld b 159 96
def laStroke (b : BitVec 736) : BitVec 48 := BitVec.ofNat 48 (fld b 207 160)
def laCrew (b : BitVec 736) : Nat := fld b 215 208
def laReplay (b : BitVec 736) : Bool := b.getLsbD 216
def laCard (b : BitVec 736) : Nat := fld b 383 320

/-- The Card a replay names is not one of this Crew and Stroke (R351). -/
def cardWrong (s : State) (c : Fin 16) (p : Fin 8) (b : BitVec 736) : Bool :=
  let h := hbmReadN s p (laCard b) 0x28
  leAt h 0 4 ≠ 1 || leAt h 8 8 ≠ (laStroke b).toNat || leAt h 0x10 1 ≠ c.val || leAt h 0x20 8 ≠ s.crews[c].hash.toNat ||
  leAt h 0x1C 4 ≠ crewP s c || leAt h 0x18 4 ≠ myRank s c

/-- Why a LAUNCH is rejected at its start: the table of R207, then the header and the Card; none where it runs. -/
def launchReject (s : State) (c : Fin 16) (p : Fin 8) (b : BitVec 736) : Option Reason :=
  let last := s.crews[c].lastFinished
  firstReason [
    (s.crews[c].state = .undefined || crewOwner s c != some p, .crewState),
    (last = 0xFFFFFFFFFFFF, .strokeExhausted),
    (laStroke b ≠ last + 1, .strokeOrder),
    (laIlen b < 64 || 67108864 < laIlen b || laImage b % 64 ≠ 0 || (laReplay b && laCard b = 0), .badField),
    (!hbmIn s p (laImage b) (laIlen b), .outOfBounds),
    (ofLe (shake256 (hbmReadN s p (laImage b) (laIlen b)) 8) ≠ laDigest b, .programDigest),
    (!imageOk (hbmReadN s p (laImage b) 256) (laIlen b), .badField),
    (laReplay b && cardWrong s c p b, .badField)]

/-- LAUNCH: waits while a Stroke of its Crew runs, and for host-stream adds and pending sets; then it is checked, and its Stroke
begins; its first attempt waits for HS as every attempt does (R266, R326). -/
def execLaunch (f : Fin 9) (q : Fin 64) (s : State) : Host.Outcome State Fault Refusal :=
  powered s (startEntry s f q 2 [(735, 384), (223, 217)] fun e =>
    let b := enBody e.raw
    let reject (r : Reason) : State := finishNow s f q e (rejected r)
    match partOfFn f with
    | none => reject .crewState
    | some p =>
      if 16 ≤ laCrew b then reject .crewState else
      let c := fin16 (laCrew b)
      let k := s.crews[c]
      if k.state = .undefined || crewOwner s c != some p then reject .crewState
      else if strokeRuns s c || hostAdds s p || launchHeld s c p (laStroke b).toNat then s
      else
        match launchReject s c p b with
        | some r => reject r
        | none =>
          match ueAt s (some p) ((List.range (laIlen b)).map (laImage b + ·)) with
          | some a => finishNow (ueEventAt s (some p) a) f q e (failedRes .hbmUe false 0)
          | none =>
            let s := entryStart s f q e
            let run : LaunchRun := ⟨f, q, entrySeq e.raw, b, laStroke b⟩
            updCrew s c fun k =>
              { k with launch := some run, nextAttempt := 1, aborts := [], decisions := k.decisions.filter fun d => d.stroke ≠ laStroke b })

/-! ## FENCE (R209, R222) -/

def feScope (b : BitVec 736) : Nat := fld b 1 0
def feCrew (b : BitVec 736) : Nat := fld b 15 8
def feId (b : BitVec 736) : Nat := fld b 63 32

/-- A FENCE of a scope starts, where it is the stream's next entry; a breach of R209 or R222 rejects it. -/
def fenceStart (s : State) (f : Fin 9) (q : Nat) (scope : Nat) : State :=
  startEntry s f q 4 [(735, 64), (31, 16), (7, 2)] fun e =>
    let b := enBody e.raw
    if feScope b ≠ scope then s
    else if scope ≠ 3 && (feCrew b ≠ 0 || feId b ≠ 0) then finishNow s f q e (rejected .badField)
    else if scope = 3 && 16 ≤ feCrew b then finishNow s f q e (rejected .badField)
    else
      let c := fin16 (feCrew b)
      let k := s.crews[c]
      if scope = 3 && (k.state = .undefined || (partOfFn f).isNone || crewOwner s c != partOfFn f) then finishNow s f q e (rejected .crewState)
      else
        let s := entryStart s f q e
        if scope = 3 then updEntry s f q (entrySeq e.raw) fun e => { e with fence := some (k.state, k.epoch) } else s

/-- Change sets committed NOW by DICTs of the stream still wait (R222). -/
def setsWait (s : State) (f : Fin 9) (q : Nat) : Bool :=
  s.dict.pendings.any fun x => apKind x.point = 0 && x.by_ == some (f, fin64 q)

/-- The tiles a stream owns are handed over (R91 a). -/
def handOver (s : State) (f : Fin 9) (q : Nat) : State :=
  let give (t : Tile) : Tile := if t.owner == some (f, fin64 q) && !t.inUse then { t with fenced := true } else t
  { s with courses := s.courses.map fun c => { c with tiles := c.tiles.map give } }

/-- A started FENCE that is the stream's first unretired entry completes once its condition holds. -/
def fenceEnd (s : State) (f : Fin 9) (q : Nat) (scope : Nat) (cond : BitVec 736 → Bool) : State :=
  match (stream s f q).entries with
  | e :: _ =>
    if enOp e.raw ≠ 4 || feScope (enBody e.raw) ≠ scope || e.stage ≠ .started then s else
    let t := fenceLost s f q e
    if t ≠ s then t
    else if cond (enBody e.raw) then entryDone (if scope = 0 then s else handOver s f q) f q (entrySeq e.raw) Res.okay
    else s
  | [] => s

/-- FENCE_LOCAL: every earlier command of the stream has retired. -/
def execFenceLocal (f : Fin 9) (q : Fin 64) (s : State) : Host.Outcome State Fault Refusal :=
  powered s (fenceEnd (fenceStart s f q 0) f q 0 fun _ => true)

/-- FENCE_DEVICE: and no change set the stream committed NOW is pending; tiles are handed over. -/
def execFenceDevice (f : Fin 9) (q : Fin 64) (s : State) : Host.Outcome State Fault Refusal :=
  powered s (
    let s := fenceStart s f q 1
    (fenceEnd s f q 1 fun _ => !setsWait s f q))

/-- FENCE_HOST: and host memory has been read back. -/
def execFenceHost (f : Fin 9) (q : Fin 64) (s : State) : Host.Outcome State Fault Refusal :=
  powered s (
    let s := fenceStart s f q 2
    (fenceEnd s f q 2 fun _ => !setsWait s f q && s.host.up))

/-- A packet to a peer that a Crew of a function's partition has sent, or has waiting at a port, is not acknowledged (R222). A packet
does not say which command it is for, so those of other streams of the partition count as well (DESIGN CHOICE, log 41). -/
def writesUnacked (s : State) (f : Fin 9) : Bool :=
  (List.finRange 16).any fun c => (crewOwner s c).isSome && crewOwner s c == partOfFn f && packetsOut s (crewTag s c)

/-- FENCE_CREW: and every Rigger write of earlier commands is acknowledged, and every other member has reached its matching fence. -/
def execFenceCrew (f : Fin 9) (q : Fin 64) (arrived : List Nat) (s : State) : Host.Outcome State Fault Refusal :=
  powered s (
    let s := fenceStart s f q 3
    (fenceEnd s f q 3 fun b =>
      let c := fin16 (feCrew b)
      !setsWait s f q && ((List.range (crewP s c)).all fun r => r = myRank s c || arrived.contains r) && !writesUnacked s f))

/-! ## MARK (R209, R216) -/

/-- MARK: its VALUE is recorded for the next Card of the Crew it names. -/
def execMark (f : Fin 9) (q : Fin 64) (s : State) : Host.Outcome State Fault Refusal :=
  powered s (startEntry s f q 5 [(735, 72)] fun e =>
    let b := enBody e.raw
    let c := fld b 71 64
    if c ≠ 0xFF && 16 ≤ c then finishNow s f q e (rejected .badField)
    else if c ≠ 0xFF && (s.crews[fin16 c].state = .undefined || (partOfFn f).isNone || crewOwner s (fin16 c) != partOfFn f) then
      finishNow s f q e (rejected .crewState)
    else
      let v : U64 := BitVec.ofNat 64 (fld b 63 0)
      let s := if c = 0xFF then s else updCrew s (fin16 c) fun k => { k with mark := v }
      finishNow s f q e { Res.okay with d0 := s.now, d1 := v })

/-! ## EXPORT (R353, R354) -/

def exCrew (b : BitVec 736) : Nat := fld b 7 0
def exStroke (b : BitVec 736) : BitVec 48 := BitVec.ofNat 48 (fld b 63 16)
def exTarget (b : BitVec 736) : Nat := fld b 65 64
def exDreg (b : BitVec 736) : Nat := fld b 83 72
def exDoff (b : BitVec 736) : Nat := fld b 119 84
def exEcrew (b : BitVec 736) : Nat := fld b 127 120
def exLayer0 (b : BitVec 736) : Nat := fld b 159 128
def exNlayers (b : BitVec 736) : Nat := fld b 191 160

/-- The layers an EXPORT names; NLAYERS 0 is every layer from LAYER0 on. -/
def exLayers (s : State) (p : Fin 8) (b : BitVec 736) : List Nat :=
  let n := if exNlayers b = 0 then layerCount s p - exLayer0 b else exNlayers b
  (List.range n).map (exLayer0 b + ·)

/-- Why an EXPORT is rejected. -/
def exportReject (s : State) (f : Fin 9) (p : Fin 8) (b : BitVec 736) : Option Reason :=
  let c := fin16 (exCrew b)
  let e := fin16 (exEcrew b)
  let len := ((exLayers s p b).map fun k => exportLen (layerDesc s p k)).sum
  let size := fld (hostRegion s f (exDreg b)) 180 156 * 4096
  firstReason [
    (16 ≤ exCrew b || 1 < exTarget b || (exTarget b = 0 && exDoff b % 64 ≠ 0), .badField),
    (s.crews[c].state = .undefined || crewOwner s c != some p, .crewState),
    (exStroke b ≠ s.crews[c].lastFinished, .strokeOrder),
    (layerCount s p < exLayer0 b + exNlayers b, .badField),
    (exTarget b = 1 && (16 ≤ exEcrew b || exEcrew b = exCrew b || crewOwner s e != some p), .badField),
    (exTarget b = 0 && !hostRight s f (exDreg b) 2, .hostRegion),
    (exTarget b = 0 && size < exDoff b + len, .outOfBounds)]

/-- EXPORT: the slots committed at N are pinned with their descriptors and records; a second EXPORT of the Crew waits, as one whose host
region entry is being written does (R178). -/
def execExportSlots (f : Fin 9) (q : Fin 64) (s : State) : Host.Outcome State Fault Refusal :=
  powered s (startEntry s f q 7 [(735, 192), (71, 66), (15, 8)] fun e =>
    let b := enBody e.raw
    match partOfFn f with
    | none => finishNow s f q e (rejected .crewState)
    | some p =>
      let c := fin16 (exCrew b)
      if (exCrew b < 16 && crewOwner s c == some p && s.crews[c].exporting.isSome) || regionPending s f e.raw then s else
      match exportReject s f p b with
      | some r => finishNow s f q e (rejected r)
      | none =>
        let s := entryStart s f q e
        let ls := (exLayers s p b).map fun k => (k, layerDesc s p k, layerRec s p k)
        updCrew s c fun k => { k with exporting := some ⟨f, q, entrySeq e.raw, exStroke b, ls⟩ })

/-- The Crew whose EXPORT is this stream entry. -/
def exportCrew (s : State) (f : Fin 9) (q : Fin 64) : Option (Fin 16 × ExportRun) :=
  (List.finRange 16).findSome? fun c => match s.crews[c].exporting with
    | some x => if x.f = f ∧ x.s = q then some (c, x) else none
    | none => none

/-- An EXPORT has its result: the entry is done and the pins are released (R353). -/
def exportEnds (s : State) (c : Fin 16) (x : ExportRun) (res : Res) : State :=
  updCrew (entryDone s x.f x.s x.seq res) c fun k => { k with exporting := none }

/-- The result of a whole EXPORT. -/
def exportOk (bs : List Byte) : Res := { Res.okay with d0 := BitVec.ofNat 64 bs.length }

/-- The bytes of an EXPORT take effect in its host region (R209). -/
def exportToHost (s : State) (c : Fin 16) (p : Fin 8) (x : ExportRun) (b : BitVec 736) (bs : List Byte) : State :=
  let es := (List.range bs.length).map fun i => hostAddr (exDreg b) (exDoff b + i)
  match hostFaultAt s x.f es with
  | some a => exportEnds s c x (failedRes .hostFault true a)
  | none => exportEnds (atcUse (spaceWriteL s x.f (some p) (es.zip bs)) x.f es) c x (exportOk bs)

/-- The bytes of an EXPORT go to rank 0 of its export Crew, whose CREDIT they need; a rank that cannot be reached fails the command, and
the export Crew enters RECOVERING (R209, R264, R269). -/
def exportToCrew (s : State) (c : Fin 16) (x : ExportRun) (ec : Fin 16) (bs : List Byte) : State :=
  match s.crews[ec].credits.find? fun y => y.1 = 0 && y.2.1 = 0xFFFF with
  | none => s
  | some (_, _, cap) =>
    if cap < bs.length then s else
    let s := updCrew s ec fun k => { k with credits := k.credits.filter fun y => ¬(y.1 = 0 ∧ y.2.1 = 0xFFFF) }
    let msg := epochMsg s ec + place 8 0xFFFF
    let (s, sent) := (messagePackets (crewChunk s ec) bs).foldl (fun (acc : State × Bool) (o, pl, endc) =>
      if !acc.2 then acc else sendRank acc.1 ec 0 1 endc o msg 0xFFFF pl (crewWeight acc.1 ec, 0)) (s, true)
    let (s, sent) := if sent then sendEnd s ec 0 0xFFFF msg bs.length else (s, false)
    if sent then exportEnds s c x (exportOk bs)
    else exportEnds (crewFault s ec 3 (some 0) none) c x (crewStateRes s ec 3 (some 0) none)

/-- Addresses an EXPORT reads: the committed slots of its layers. -/
def exportReads (x : ExportRun) : List Nat :=
  x.layers.flatMap fun (_, d, r) =>
    ((List.range (paramBytes d)).map (paramSlot d (activeSlot r) + ·)) ++ (List.range (stateBytes d)).map (stateSlot d (activeSlot r) + ·)

/-- EXPORT_DONE (R209, R353): every byte has taken effect at its target; the pins are released. A sector or page that fails on the way
fails the command. -/
def execExportDone (f : Fin 9) (q : Fin 64) (s : State) : Host.Outcome State Fault Refusal :=
  powered s (
    match exportCrew s f q, partOfFn f with
    | some (c, x), some p =>
      match (stream s f q).entries.find? fun e => entrySeq e.raw = x.seq with
      | none => updCrew s c fun k => { k with exporting := none }
      | some e =>
        match ueAt s (some p) (exportReads x) with
        | some a => exportEnds (ueEventAt s (some p) a) c x (failedRes .hbmUe true (hbmAddr a))
        | none =>
          let t := hbmTraffic (hbmFix s (some p) (exportReads x)) (some p) (exportReads x)
          let b := enBody e.raw
          if exTarget b = 0 then exportToHost t c p x b (exportBytes s p x) else exportToCrew t c x (fin16 (exEcrew b)) (exportBytes s p x)
    | _, _ => s)

end Sys2Proof.Machine
end

