-- ==== Sys2Proof/Machine/FuncReset.lean ====
section
/-! DEFINITION. Function resets (R185, R227, R437) and what a Course loses at a reset. -/

namespace Sys2Proof.Machine

open Sys2Proof

/-! ## Courses -/

/-- Tile-table entries with undefined contents, uninitialised and unowned (R89, R437). -/
def freeTiles (s : State) : Vector Tile 64 × State :=
  let entry (i : Fin 64) : Cmd :=
    BitVec.ofNat 512 (ofLe ((List.range 8).flatMap fun j => wordBytes (Config.freeWord (s.free + 8 * i.val + j))))
  (Vector.ofFn fun i => { Tile.unbound with entry := entry i }, { s with free := s.free + 512 })

/-- A Course with nothing in progress and its own tables; map, inventory, service and check enable stay. -/
def Course.emptied (k : Course) (tiles : Vector Tile 64) (gen : Nat) : Course :=
  { Course.init with
    inService := k.inService, laneMap := k.laneMap, badLanes := k.badLanes, suspects := k.suspects, substs := k.substs, check := k.check,
    tiles := tiles, descGen := gen }

/-- Course n with its Trowel, Pallet and Hods: commands are gone, sticky flags and the first-offender record cleared, tables and
Pallet contents undefined (R437). -/
def courseLost (s : State) (n : Fin 8) : State :=
  let (g, s) := freshGen s
  let (d, s) := freshGen s
  let (t, s) := freeTiles s
  let s := updCourse s n fun k => k.emptied t d
  let s := updTrowel s n fun k => { k with sticky := 0, queue := [] }
  let s := updPallet s n fun k => { k with mem := ⟨g, []⟩, ue := [], ce := [] }
  let none_ (_ : Hod) : Hod := Hod.init
  let s := updHod (updHod s (fin16 (2 * n)) none_) (fin16 (2 * n + 1)) none_
  genBump s 0 (0x6100 + n) 0x40

/-- A Course that leaves its partition: zeros in Pallet, spare banks and tables, flags and counters zero (R452). -/
def courseZeroed (s : State) (n : Fin 8) : State :=
  let s := courseLost s n
  let s := updCourse s n fun k => k.emptied (Vector.replicate 64 Tile.unbound) 0
  let s := updPallet s n fun k => { k with mem := Mem.empty }
  let mine (k : ObjKey) : Bool :=
    k.idx = 0x6100 + n.val || (k.idx = 0x6200 && k.sub % 8 = n.val) || (k.idx = 0x6300 && k.sub % 8 = n.val)
  let counts (c u : Nat) : Bool := (c < 0x3000 && u = n.val) || (c / 0x1000 = 3 && u / 2 = n.val)
  { s with
    dict := { s.dict with ctr := s.dict.ctr.filter fun e => !mine e.1 }
    counters := { s.counters with events := s.counters.events.filter fun e => !counts e.1.1 e.1.2.1 } }

/-! ## What belongs to a partition (R437, R453, R454) -/

/-- A dictionary value of partition p: its function's own, and those of units, Crews, Cox settings, moderation and adder regions it
stages. -/
def partObject (s : State) (p : Fin 8) (k : ObjKey) (v : List Byte) : Bool :=
  k.f = p.val + 1 || (k.f = 0 && (
    (0x7200 ≤ k.idx && k.idx < 0x7210 && k.sub ≠ 9 && crewOwner s (fin16 (k.idx - 0x7200)) == some p) ||
    (0x6100 ≤ k.idx && k.idx < 0x6108 && courseOwner s (fin8 (k.idx - 0x6100)) == some p) ||
    ((k.idx = 0x6200 || k.idx = 0x6300) && courseOwner s (fin8 (k.sub % 8)) == some p) ||
    (k.idx = 0x7300 && k.sub % 16 = p.val + 1) || k.idx = 0x1911 + p.val || (k.idx = 0x5400 && !v.isEmpty && leAt v 0 1 = p.val)))

/-- An event counter of partition p: its own share, or that of a unit it owns. -/
def partEvent (s : State) (p : Fin 8) (code unit part : Nat) : Bool :=
  part = p.val || (part = 0xFF &&
    ((code < 0x3000 && courseOwner s (fin8 unit) == some p) || (code / 0x1000 = 3 && courseOwner s (fin8 (unit / 2)) == some p)))

/-- DOMAIN objects of a function and its partition: what a reset touches shows a new generation (R379). -/
def domainsOf (s : State) (f : Fin 9) : List (Nat × Nat × Nat) :=
  [(0, 0x65F0 + f.val, 1), (0, 0x1910 + f.val, 1), (f.val, 0x6500, 1), (0, 0x6480 + f.val, 1)] ++
  ((List.range 64).map fun q => (f.val, 0x6400 + q, 0x30)) ++
  (match partOfFn f with
  | some p =>
    [(0, 0x7280 + p.val, 1), (0, 0x7290 + p.val, 1), (0, 0x7300, 0x81 + p.val)] ++
    ((List.range 16).filter fun c => crewOwner s (fin16 c) == some p).flatMap fun c =>
      [(0, 0x7200 + c, 6), (0, 0x7200 + c, 0x24), (0, 0x7200 + c, 0x3A), (0, 0x7200 + c, 0x3F)]
  | none => [])

/-! ## The reset -/

/-- A Crew whose partition is reset: dissolved, and its Stroke state cleared but for the last finished Stroke (R227, R326, R437). -/
def crewCleared (s : State) (c : Fin 16) : State :=
  updCrew (dissolveCrew s c true) c fun k =>
    { k with deferrals := [], bubbles := List.replicate 64 0, mark := 0, subPos := 0, hostPos := 0, subCards := [], hostCards := [],
             decisions := [], log := [], aborts := [], lastCard := 0 }

/-- The partition's Crews, units, Cox state and regulators' queues. -/
def partReset (s : State) (p : Fin 8) : State :=
  let crews := (List.finRange 16).filter fun c => crewOwner s c == some p
  let s := crews.foldl crewCleared s
  let s := ((List.finRange 8).filter fun n => courseOwner s n == some p).foldl courseLost s
  let s := updCox s p fun _ => CoxPart.init
  { s with hbm := { s.hbm with waits := s.hbm.waits.filter fun w => w.part ≠ p } }

/-- A function reset (R185, R227, R437): the function's streams, events, tables and MSI-X state, its partition, that partition's
objects and counters at their defaults; a change set the function holds is lost (R405). AER keeps its record, as the standard's
sticky bits do. -/
def funcReset (s : State) (f : Fin 9) : State :=
  let s := endOpenOf s (fun h => decide (h = .fn f)) 6
  let doms := domainsOf s f
  let s := match partOfFn f with | some p => partReset s p | none => s
  let owned (k : ObjKey) (v : List Byte) : Bool :=
    match partOfFn f with
    | some p => partObject s p k v
    | none => k.f = 0 && (k.idx = 0x1910 || (k.idx = 0x1900 && k.sub = 0x10) || (0x6400 ≤ k.idx && k.idx < 0x6440))
  let counted (e : (Nat × Nat × Nat) × Nat) : Bool :=
    match partOfFn f with
    | some p => partEvent s p e.1.1 e.1.2.1 e.1.2.2
    | none => e.1.2.2 = 8
  let vals := s.dict.vals.filter fun e => !owned e.1 e.2
  let ctr := s.dict.ctr.filter fun e => !owned e.1 []
  let events := s.counters.events.filter fun e => !counted e
  let keep (t : Hod) : Hod :=
    { queue := t.queue.filter fun u => issuerFn s u.iss ≠ f, waiting := t.waiting.filter fun u => issuerFn s u.iss ≠ f }
  let group (g : Nat) (k : Group) : Group := if gOwner g = fnOwner f then Group.init else k
  let s := { s with
    hods := s.hods.map keep
    dict := { s.dict with
      vals := vals, ctr := ctr
      expired := if s.dict.expired = some (.fn f) then none else s.dict.expired }
    counters := { s.counters with
      groups := s.counters.groups.mapIdx fun g k => group g k
      heads := s.counters.heads.filter fun h => h.1.1 ≠ fnOwner f
      events := events }
    host := { s.host with vecs := s.host.vecs.filter fun x => x.f ≠ f }
    power := { s.power with funcs := s.power.funcs + 1 } }
  let s := updFunc s f fun k => { Func.init with aer := k.aer, page := k.page, iommu := k.iommu }
  doms.foldl (fun s (x : Nat × Nat × Nat) => genBump s x.1 x.2.1 x.2.2) s

/-- VF_FLR (R185): a function reset of the VF's partition. -/
def execVfFlr (p : Fin 8) (s : State) : Host.Outcome State Fault Refusal := powered s (castReady (funcReset s (funcOf p)))

/-- PF0_FLR (R185): PF0's streams, tables and MSI-X state; partitions and the module are untouched. -/
def execPf0Flr (s : State) : Host.Outcome State Fault Refusal := powered s (castReady (funcReset s 0))

/-- A hot reset: every function is reset, PF0 first, and the link goes down to train again from 2.5 GT/s. -/
def hotReset (s : State) : State :=
  let s := (List.finRange 9).foldl funcReset s
  castReady { s with host := { s.host with up := false, rate := 0 } }

/-- LINK_TRAINING (R182, R184, R185): the link trains upward from 2.5 GT/s at the widest width its lanes allow; each step of the rate passes
through Recovery. With more than one retimer beside the module's own the result is open (R182). Without a lane the link is down: a
link that was up resets every function. -/
def execLinkTraining (rate : Fin 6) (lanes : Nat) (flit : Bool) (retimers : Nat) (s : State) : Host.Outcome State Fault Refusal :=
  powered s (
    let steps := rate + (if s.host.up then 1 else 0)
    if 2 < retimers then
      let s := ctrAdd s 0 0x1900 2 steps
      let (v, s) := fresh s
      let (w, s) := fresh s
      let s := if s.host.up && !v.getLsbD 8 then hotReset s else s
      { s with host := { s.host with up := v.getLsbD 8, rate := v.toNat % 6, width := linkWidth (w.toNat % 17), flit := flit, retimers := retimers } }
    else
      let s := if s.host.up && lanes = 0 then hotReset s else s
      let s := ctrAdd s 0 0x1900 2 (if lanes = 0 then 0 else steps)
      { s with host := { s.host with up := 0 < lanes, rate := rate, width := linkWidth lanes, flit := flit, retimers := retimers } })

/-- HOT_RESET (R185). -/
def execHotReset (s : State) : Host.Outcome State Fault Refusal := powered s (hotReset s)

end Sys2Proof.Machine
end

