-- ==== Sys2Proof/Machine/Rigger.lean ====
section
/-! DEFINITION. Rows of the Rigger's links (11): lanes and lasers, codewords, packets, control words, lane sparing and time
transfer. -/

namespace Sys2Proof.Machine

open Sys2Proof

/-! ## Time transfer (R258 to R261) -/

/-- 0x7000:02. -/
def isMaster (s : State) : Bool := objNat s 0 0x7000 2 0 != 0

/-- The UP port whose peer reports the lowest TDIST below 0xF, the lowest number breaking ties (R259). -/
def bestUpstream (s : State) : Option (Fin 16) :=
  (List.finRange 16).foldl (fun (b : Option (Fin 16)) p =>
    let k := s.rigger.ports[p]
    if k.state != .up || 15 ≤ k.tdist then b else
    match b with
    | none => some p
    | some q => if k.tdist < (s.rigger.ports[q]).tdist then some p else b) none

/-- TDIST and the upstream follow what the ports report (R259): a master keeps TDIST 0 while no master of a lower MID is seen. -/
def syncChoose (s : State) : State :=
  let y := s.rigger.sync
  let conflict := isMaster s && (y.state = 4 || (List.finRange 16).any fun p =>
    let k := s.rigger.ports[p]
    k.state == .up && k.tdist = 0 && (match k.peer with | some m => decide (m < ownMid s) | none => false))
  let y' : TimeSync :=
    if isMaster s && !conflict then { y with tdist := 0, upstream := none, slew := 0, state := 0 }
    else match bestUpstream s with
      | some q =>
        { y with tdist := (s.rigger.ports[q]).tdist + 1, upstream := some q
                 state := if conflict then 4 else if y.state = 0 || y.state = 4 then 1 else y.state }
      | none => { y with tdist := 15, upstream := none, slew := 0, state := if conflict then 4 else if y.state = 3 then 3 else 0 }
  { s with rigger := { s.rigger with sync := y' } }

/-- The servo takes an offset (R260). -/
def servo (s : State) (theta : Int) : State :=
  let y := s.rigger.sync
  let st := if y.state = 4 then 4 else 2
  let put (s : State) (slew : Int) : State :=
    { s with rigger := { s.rigger with sync := { y with theta := theta, slew := slew, lockedOnce := true, state := st } } }
  let stepped : U64 := s.now + BitVec.ofInt 64 theta
  if !y.lockedOnce then put { s with now := stepped } 0
  else if 1000000 < theta then
    let s := put { s with now := stepped } 0
    cardPoint (pointLog s 8 0 0) none 8 0 0
  else put s theta

/-! ## Ports (R240, R250) -/

/-- A working lane has failed and no spare is left: the port runs on its other lanes, and with none it is DOWN; the module runs degraded
(R240, R417, R420). -/
def laneOut (s : State) (b : Fin 8) (l : Nat) : State :=
  let p := fin16 (2 * b + l / 4)
  let s := updPort s p fun k => { k with dark := if k.dark.contains (l % 4) then k.dark else k.dark ++ [l % 4] }
  let s := setDegraded s 5
  if (s.rigger.ports[p]).lanes = 0 then syncChoose (portDown s p) else s

/-! ## Lane sparing (R252, R253) -/

/-- The bank's lower-numbered port that is UP. -/
def sparePort (s : State) (b : Fin 8) : Option (Fin 16) :=
  let p := fin16 (2 * b)
  let q := fin16 (2 * b + 1)
  if (s.rigger.ports[p]).state == .up then some p else if (s.rigger.ports[q]).state == .up then some q else none

/-- A SPARE word of a phase, on logical lane 0 of that port. -/
def sendSpare (s : State) (b : Fin 8) (lane phase count spare : Nat) : State :=
  match sparePort s b with
  | some p => sendCtlOn s p (some 0) 4 lane phase count spare
  | none => s

/-- A refused PROPOSE is counted with the dropped packets of the port that carries the bank's SPARE words (log 43). -/
def spareRefused (s : State) (b : Fin 8) : State :=
  ctrAdd s 0 (0x7100 + ((sparePort s b).getD (fin16 (2 * b))).val) 0x19 1

/-- A swap as it begins, or as a proposal is taken. -/
def Swap.start (lane spare : Nat) (initiator : Bool) (now : U64) (repair : Bool) : Swap :=
  { lane := lane, spare := spare, initiator := initiator, phase := if initiator then 1 else 2, myReady := !initiator, peerReady := false,
    at_ := now, myDone := false, peerDone := false, repair := repair, from_ := 0, old := [], new := [], same := 0 }

/-- A lane asks for a swap: it starts, or waits while another runs or no port is UP; a repair goes before a recalibration (R417). Without
a spare there is none, and a lane to be repaired leaves service. -/
def askSwap (s : State) (b : Fin 8) (lane : Nat) (repair : Bool) : State :=
  let k := s.rigger.banks[b]
  match k.spare with
  | none => if repair then laneOut s b lane else s
  | some sp =>
    if k.miscabled then spareRefused s b
    else if k.swap.isSome || (sparePort s b).isNone then
      if k.waiting.any fun x => x.1 = lane then s
      else updBank s b fun k => { k with waiting := if repair then k.waiting.filter (·.2) ++ [(lane, true)] ++ k.waiting.filter (!·.2) else k.waiting ++ [(lane, repair)] }
    else
      let s := updBank s b fun k => { k with swap := some (Swap.start lane sp true s.now repair) }
      sendSpare s b lane 1 0 sp

/-- The next waiting swap starts; with no spare left every lane that waits for a repair leaves service. -/
def nextSwap (s : State) (b : Fin 8) : State :=
  match s.rigger.banks[b].waiting with
  | (l, r) :: rest =>
    if s.rigger.banks[b].spare.isNone then
      ((l, r) :: rest).foldl (fun s x => if x.2 then laneOut s b x.1 else s) (updBank s b fun k => { k with waiting := [] })
    else askSwap (updBank s b fun k => { k with waiting := rest }) b l r
  | [] => s

/-- The swap in progress ends in ABORT; the old map stays. -/
def abortSwap (s : State) (b : Fin 8) : State :=
  match s.rigger.banks[b].swap with
  | some w => sendSpare (updBank s b fun k => { k with swap := none }) b w.lane 5 0 w.spare
  | none => s

/-- A swap is complete when both DONEs are there: the spare serves the lane, and the old physical lane is the spare unless it has
failed (R252, R420). -/
def finishSwap (s : State) (b : Fin 8) : State :=
  let k := s.rigger.banks[b]
  match k.swap with
  | some w =>
    if !(w.myDone && w.peerDone) then s else
    let old := k.map.getD w.lane 0
    let s := updBank s b fun k =>
      { k with map := k.map.set w.lane w.spare, spare := if k.failed.contains old then none else some old, swap := none }
    let s := genBump s 0 0x7000 (0x10 + b)
    let u := 8 * b.val + w.lane
    let s := cardPoint (pointLog s 4 u 0) none 4 u 0
    let s := if w.repair then repairDone s else if w.initiator then actDone (mapWrite s) 2 u else mapWrite s
    nextSwap s b
  | none => s

/-- A port goes DOWN: a swap of its bank ends in ABORT and the next one starts where it can (R253), and the upstream is chosen anew. -/
def takeDown (s : State) (p : Fin 16) : State :=
  let b := fin8 (p / 2)
  syncChoose (nextSwap (portDown (abortSwap s b) p) b)

/-- Both transmitters of a bank have a working laser input. -/
def bankLit (s : State) (b : Fin 8) : Bool := s.rigger.lasers.any fun l => l.group = b.val && !l.failed

/-- A physical lane of a bank has failed (R416): the spare replaces it, taking the spare from a recalibration; with no spare the
port runs on its other lanes (R240, R417, R420). -/
def laneFails (s : State) (b : Fin 8) (pl : Nat) : State :=
  let k := s.rigger.banks[b]
  let s := updBank s b fun k => { k with failed := if k.failed.contains pl then k.failed else k.failed ++ [pl] }
  if k.spare = some pl then
    -- the spare itself: a repair in progress is one of those that find none
    let lost := match k.swap with | some w => if w.repair then [(w.lane, true)] else [] | none => []
    let s := abortSwap s b
    nextSwap (updBank s b fun k => { k with spare := none, waiting := lost ++ k.waiting }) b
  else
  match k.map.idxOf? pl with
  | none => s
  | some l =>
    let out := (s.rigger.ports[fin16 (2 * b + l / 4)]).dark.contains (l % 4)
    let under := match k.swap with | some w => w.repair && w.lane = l | none => false
    if out || under then s
    else
      let s := match k.swap with
        | some w => if w.repair then s else abortSwap s b
        | none => s
      askSwap s b l true

/-- LASER_SWITCH (R237). -/
def execLaserSwitch (i : Fin 12) (uw : Nat) (s : State) : Host.Outcome State Fault Refusal :=
  powered s (
    match s.rigger.lasers[i.val]? with
    | none => s
    | some l =>
      let put (s : State) (g : List Laser → List Laser) : State := genBump { s with rigger := { s.rigger with lasers := g s.rigger.lasers } } 0 0x7000 5
      if l.group = 0xFF then (put s fun x => x.set i { l with power := uw, failed := uw = 0 })
      else if l.ref < 2 * uw then (put s fun x => x.set i { l with power := uw })
      else
        match [10, 11].find? (fun j => match s.rigger.lasers[j]? with | some x => x.group = 0xFF && !x.failed | none => false) with
        | some j =>
          -- the group is dark for at most 20 µs
          let (v, s) := fresh s
          let s := put s fun x => (x.set i { l with group := 0xFF, power := uw, failed := true }).modify j fun y => { y with group := l.group }
          let s := if l.group < 8 then nextSwap (abortSwap s (fin8 l.group)) (fin8 l.group) else s
          let ns := v.toNat % 20001
          (cardPoint (pointLog (repairDone s) 5 i ns) none 5 i ns)
        | none =>
          let s := put s fun x => x.set i { l with power := uw, failed := uw = 0 }
          if uw ≠ 0 || l.failed then s
          else if l.group < 8 then
            (castReady (setDegraded (takeDown (takeDown s (fin16 (2 * l.group))) (fin16 (2 * l.group + 1))) 6))
          else
            let lit := ((s.rigger.lasers.filter fun x => (x.group = 8 || x.group = 9) && !x.failed).length) * 8
            -- a link that stays up trains again at its new width; one left dark is down (R184, R185)
            let s := if s.host.up && lit = 0 then hotReset s
              else if s.host.up && lit < s.host.width then ctrAdd s 0 0x1900 2 1 else s
            (setDegraded { s with host := { s.host with width := linkWidth (min lit s.host.width) } } 6))

/-! ## Control words (R244, R248) -/

/-- What every good control word brings: ACKSEQ and credits while the port is UP, and the peer's TDIST. -/
def takeWord (s : State) (p : Fin 16) (w : Ctl) : State :=
  let s := updPort s p fun k => { k with tdist := ctTdist w }
  syncChoose (if (s.rigger.ports[p]).state == .up then takeAck s p w else s)

/-- A control word arrives: one whose CRC or type is wrong is discarded and counted. -/
def withWord (s : State) (p : Fin 16) (w : Ctl) (g : State → State) : State :=
  if !ctlOk w then ctrAdd s 0 (0x7100 + p) 0x13 1 else g (takeWord s p w)

/-- The bank is cabled against R236: a lane's light comes from a physical lane of another number, or two lanes from different banks or
peers. -/
def cabledBadly (k : Bank) : Bool :=
  k.cables.any fun x => x.far.lane ≠ x.pl || k.cables.any fun y => y.mid ≠ x.mid || y.far.bank ≠ x.far.bank

/-- What an ALIGN word shows of the cable of the physical lane it came on (R236). -/
def noteCable (b : Bank) (pl : Fin 9) (mid : Nat) (far : Fibre) : Bank :=
  let b := { b with cables := ⟨pl, mid, far⟩ :: b.cables.filter (·.pl ≠ pl) }
  { b with miscabled := cabledBadly b }

/-- An ALIGN word: the peer's MID, whose change takes the port DOWN (R250), and its lane's codeword count (R240); codewords of the lane
that wait have come after it. A DOWN port trains on what it sees. -/
def alignWord (s : State) (p : Fin 16) (pl : Fin 9) (far : Fibre) (w : Ctl) : State :=
  let mid := ctVal1 w
  let s := match (s.rigger.ports[p]).peer with
    | some m => if m ≠ mid then castReady (takeDown s p) else s
    | none => s
  let s := updPort s p fun k =>
    { k with peer := some mid, counts := k.counts.set (ctParam w) (BitVec.ofNat 64 (ctVal0 w + (k.lanesIn.getD (ctParam w) []).length)) }
  let b := fin8 (p / 2)
  let s := updBank s b fun k => noteCable k pl mid far
  if (s.rigger.ports[p]).state == .down && bankLit s b then setPort s p .training else s

/-- ALIGN (R236, R240, R250, R253). -/
def execAlign (p : Fin 16) (w : LaneWord) (s : State) : Host.Outcome State Fault Refusal :=
  powered s (
    withWord s p w.word fun s => if ctType w.word = 3 then alignWord s p w.ends.lane w.ends.far w.word else s)

/-- ACK (R248, R249): every control word carries ACKSEQ and credits. -/
def execAck (p : Fin 16) (w : Ctl) (s : State) : Host.Outcome State Fault Refusal :=
  powered s (
    withWord s p w id)

/-- The effect of a NAK's AUX. -/
def nakWord (s : State) (p : Fin 16) (w : Ctl) : State :=
  let k := s.rigger.ports[p]
  let a := BitVec.ofNat 24 (ctAux w)
  if k.state != .up then s
  else if k.kept.any fun x => x.lseq = a then resendFrom s p a
  else if serialAfter k.txSeq a then ctrAdd s 0 (0x7100 + p) 0x13 1
  else castReady (takeDown s p)

/-- NAK (R248). -/
def execNak (p : Fin 16) (w : Ctl) (s : State) : Host.Outcome State Fault Refusal :=
  powered s (
    withWord s p w fun s => if ctType w = 2 then nakWord s p w else s)

/-- ACK_TIMER (R247). -/
def execAckTimer (p : Fin 16) (s : State) : Host.Outcome State Fault Refusal :=
  powered s (
    let k := s.rigger.ports[p]
    if k.state == .up && k.ackOwed then (sendCtl s p 1 0 0 0 0) else s)

/-- IDLE_TIMER (R240, R247, R258): a lane in service sends an IDLE, and before it the ALIGN that would be late at its next one. -/
def execIdleTimer (p : Fin 16) (lane : Fin 4) (s : State) : Host.Outcome State Fault Refusal :=
  powered s (
    let k := s.rigger.ports[p]
    if k.state == .down || k.dark.contains lane.val then s else
    let s := if alignDue s p lane then sendAlign s p lane else s
    match k.lastIdle with
    | some (t, at_) => (sendCtlOn s p (some lane) 0 (s.now - at_).toNat 0 s.now.toNat t.toNat)
    | none => (sendCtlOn s p (some lane) 0 0 0 s.now.toNat 0))

/-- The offset an IDLE yields (R258); half a nanosecond of d is rounded either way. -/
def idleOffset (s : State) (w : Ctl) : Int × State :=
  let t4 : Int := s.now.toNat
  let x : Int := t4 - (ctVal1 w : Int) - (ctAux w : Int)
  let (v, s) := fresh s
  let d := (x + (if v.getLsbD 0 then 1 else 0)) / 2
  ((ctVal0 w : Int) + d - t4, s)

/-- An IDLE word: the servo uses logical lane 0 of the upstream port; a word that echoes nothing yet yields no delay. -/
def idleWord (s : State) (p : Fin 16) (lane : Nat) (w : Ctl) : State :=
  let echoed := ctVal1 w ≠ 0
  let s := updPort s p fun k => { k with lastIdle := some (BitVec.ofNat 64 (ctVal0 w), s.now) }
  if lane = 0 && s.rigger.sync.upstream == some p && echoed then
    let (th, s) := idleOffset s w
    servo s th
  else s

/-- IDLE (R258 to R260). -/
def execIdle (p : Fin 16) (lane : Fin 4) (w : Ctl) (s : State) : Host.Outcome State Fault Refusal :=
  powered s (
    withWord s p w fun s => if ctType w = 0 then idleWord s p lane w else s)

/-- HOLDOVER (R261): a module that is not the master has had no upstream for 50 ms. -/
def execHoldover (s : State) : Host.Outcome State Fault Refusal :=
  powered s (
    let y := s.rigger.sync
    if y.upstream.isSome || y.tdist = 0 then s
    else { s with rigger := { s.rigger with sync := { y with state := 3 } } })

/-- REPLAY_TIMEOUT (R248). -/
def execReplayTimeout (p : Fin 16) (s : State) : Host.Outcome State Fault Refusal :=
  powered s (
    let k := s.rigger.ports[p]
    match k.state, k.kept with
    | .up, x :: _ =>
      let s := updPort s p fun k => { k with timeouts := k.timeouts + 1 }
      if 8 ≤ k.timeouts + 1 then (castReady (takeDown s p)) else (resendFrom s p x.lseq)
    | _, _ => s)

/-- LOCK_LOSS (R250). -/
def execLockLoss (p : Fin 16) (s : State) : Host.Outcome State Fault Refusal := powered s (castReady (takeDown s p))

/-- PORT_RETRAIN (R240, R250): a port that is not UP finishes training, both directions at LSEQ 0, its lanes counting codewords from 0 and
sending ALIGN; one without a lane or a laser cannot. -/
def execPortRetrain (p : Fin 16) (s : State) : Host.Outcome State Fault Refusal :=
  powered s (
    let k := s.rigger.ports[p]
    if k.state == .up || k.lanes = 0 || !bankLit s (fin8 (p / 2)) then s
    else
      let s := setPort (updPort s p fun k => { clearPort k with upAt := s.now, counts := [0, 0, 0, 0] }) p .up
      let s := (List.finRange 4).foldl (fun s l => if k.dark.contains l.val then s else sendAlign s p l) s
      nextSwap s (fin8 (p / 2)))

/-! ## Packets (R242, R246, R257, R263, R268) -/

/-- A NAK with the expected number, not twice within 10 µs for the same number (R246). -/
def sendNak (s : State) (p : Fin 16) : State :=
  let k := s.rigger.ports[p]
  let again := match k.lastNak with | some (e, t) => e = k.rxSeq && s.now.toNat < t.toNat + 10000 | none => false
  if again then s
  else sendCtl (updPort s p fun k => { k with lastNak := some (k.rxSeq, s.now) }) p 2 k.rxSeq.toNat 0 0 0

/-- The slots of an accepted packet are free again (R244). -/
def freeSlots (s : State) (p : Fin 16) (bs : List Byte) : State :=
  let n := BitVec.ofNat 16 (slotsFor (pkBody bs))
  updPort s p fun k => if pkHop bs then { k with freed1 := k.freed1 + n } else { k with freed0 := k.freed0 + n }

/-- An accepted packet for another module: forwarded once with HOP set, or dropped and counted (R257). -/
def relay (s : State) (p : Fin 16) (bs : List Byte) : State :=
  match if pkHop bs then none else routePort s (pkDst bs) true with
  | some q =>
    let raw := (bs.take 24 ++ ((bs.drop 24).take 1).map (· ||| 8#8) ++ bs.drop 25).take (pkBody bs)
    queuePacket (ctrAdd s 0 (0x7100 + p) 0x18 1) q ⟨true, raw, 0, 0⟩
  | none => ctrAdd s 0 (0x7100 + p) 0x19 1

/-- The epoch a packet names (R268, R345): modulo 256 in MSG of DATA and CHUNK, in the payload of VOTE and SYNC. A HELLO is of any. -/
def pkOfEpoch (e : BitVec 32) (bs : List Byte) : Bool :=
  if pkType bs = 4 && leAt (pkPayload bs) 0 1 = 1 then true
  else if pkType bs ≥ 3 then leAt (pkPayload bs) 4 4 = e.toNat
  else pkMsg bs / 2 ^ 24 = e.toNat % 256

/-- What an accepted packet does beyond its link: none while an MM holds the range it writes (R57). One of another epoch is discarded
and counted (R268). What a VOTE or SYNC packet says acts in a row of its own, which follows where the packet is not discarded here
(log 44). -/
def deliver (s : State) (p : Fin 16) (bs : List Byte) : Option State :=
  if pkMalformed bs then some (ctrAdd s 0 (0x7100 + p) 0x19 1)
  else if pkDst bs ≠ ownMid s then some (relay s p bs)
  else match tagCrew s (pkCtag bs) with
    | none => some (ctrAdd s 0 (0x7100 + p) 0x19 1)
    | some c =>
      match midRank s c (pkSrc bs) with
      | none => some (ctrAdd s 0 (0x7100 + p) 0x19 1)
      | some r =>
        if !pkOfEpoch s.crews[c].epoch bs then some (ctrAdd (noteHeard s c r) 0 (crewIdx c) 0x27 1)
        else if pkType bs ≥ 3 then some (ctrAdd (noteHeard s c r) 0 (crewIdx c) 0x22 (pkLen bs))
        else
          (if pkType bs = 2 then landChunk (noteHeard s c r) p c r bs else landData (noteHeard s c r) p c r bs).map fun s =>
            castReady (advanceCrew (ctrAdd s 0 (crewIdx c) 0x22 (pkLen bs)) c)

/-- An accepted packet acts, or waits for the MM that holds its range. -/
def deliverOr (s : State) (p : Fin 16) (bs : List Byte) : State :=
  match deliver s p bs with
  | some s => freeSlots s p bs
  | none => { s with rigger := { s.rigger with held := s.rigger.held ++ [(p, bs)] } }

/-- A packet has arrived on a port (R246, R254): accepted where its number is the expected one and its CRC right, and acknowledged at
once where 2,048 slots have been accepted since the last control word (R247). -/
def takePacket (s : State) (p : Fin 16) (bytes : List Byte) : State :=
  let k := s.rigger.ports[p]
  if k.state != .up || ownMid s = 0xFFFFFFFF then s else
  let s := { s with power := { s.power with idle := false } }
  if !pkCrcOk bytes then (sendNak (ctrAdd s 0 (0x7100 + p) 0x13 1) p)
  else if serialAfter k.rxSeq (pkLseq bytes) then (sendCtl s p 1 0 0 0 0)
  else if pkLseq bytes ≠ k.rxSeq then (sendNak s p)
  else
    let n := k.slotsIn + slotsFor (pkBody bytes)
    let s := updPort s p fun k => { k with rxSeq := k.rxSeq + 1, ackOwed := true, slotsIn := n }
    let s := evAdd (ctrAdd s 0 (0x7100 + p) 0x11 1) 0x5002 p 0xFF (pkLen bytes)
    let s := deliverOr s p bytes
    if 2048 ≤ n && (s.rigger.ports[p]).ackOwed then sendCtl s p 1 0 0 0 0 else s

/-- PACKET_RECEIVE (R246, R254). -/
def execPacketReceive (p : Fin 16) (bytes : List Byte) (s : State) : Host.Outcome State Fault Refusal := powered s (takePacket s p bytes)

/-- GUARD_STALL_RELEASE (R57): what was held against the ranges of Course n's MM proceeds once no range holds it. -/
def execGuardStallRelease (n : Fin 8) (s : State) : Host.Outcome State Fault Refusal :=
  powered s (
    let s := releaseUnits s n
    let l := s.rigger.held
    (l.foldl (fun s x => deliverOr s x.1 x.2) { s with rigger := { s.rigger with held := [] } }))

/-! ## SPARE words (R252, R253) -/

/-- A SPARE word of a phase arrives on a bank. -/
def withSpare (s : State) (b : Fin 8) (w : Ctl) (phase : Nat) (g : State → State) : State :=
  match sparePort s b with
  | none => s
  | some p => withWord s p w fun s => if ctType w = 4 && ctParam w = phase then g s else s

/-- A proposal is taken: READY goes back once the spare is trained. -/
def acceptSwap (s : State) (b : Fin 8) (lane spare : Nat) : State :=
  sendSpare (updBank s b fun k => { k with swap := some (Swap.start lane spare false s.now false) }) b lane 2 0 spare

/-- PROPOSE: where both ends propose, the lower MID's proposal proceeds and the other is retried. One on a bank cabled against R236, or
with another spare than this end's, which such cabling brings, is refused and counted. -/
def proposeWord (s : State) (b : Fin 8) (w : Ctl) : State :=
  let lane := ctAux w
  let sp := ctVal1 w
  let k := s.rigger.banks[b]
  let peer := ((sparePort s b).bind fun p => (s.rigger.ports[p]).peer).getD 0xFFFFFFFF
  match k.swap with
  | some x =>
    if x.initiator && x.phase = 1 then
      if ownMid s < peer then s
      else
        let s := if x.lane ≠ lane then updBank s b fun k => { k with waiting := (x.lane, x.repair) :: k.waiting } else s
        acceptSwap s b lane sp
    else s
  | none =>
    if k.miscabled || 8 ≤ lane || k.spare ≠ some sp then sendSpare (spareRefused s b) b lane 5 0 sp
    else acceptSwap s b lane sp

/-- SPARE_PROPOSE. -/
def execSparePropose (b : Fin 8) (w : Ctl) (s : State) : Host.Outcome State Fault Refusal :=
  powered s (withSpare s b w 1 fun s => proposeWord s b w)

/-- READY: the initiator sends its own READY and SWITCH, with a codeword count K at least 4,096 ahead of the lane's own. -/
def readyWord (s : State) (b : Fin 8) (w : Ctl) : State :=
  match s.rigger.banks[b].swap with
  | some x =>
    if x.lane ≠ ctAux w then s
    else if x.initiator && x.phase = 1 then
      let (v, s) := fresh s
      let k := laneCount s (fin16 (2 * b + x.lane / 4)) + 4096 + v.toNat % 2 ^ 32
      let s := updBank s b fun q => { q with swap := some { x with phase := 3, myReady := true, peerReady := true, from_ := k } }
      let s := sendSpare s b x.lane 2 0 x.spare
      sendSpare s b x.lane 3 k x.spare
    else updBank s b fun k => { k with swap := some { x with peerReady := true } }
  | none => s

/-- SPARE_READY. -/
def execSpareReady (b : Fin 8) (w : Ctl) (s : State) : Host.Outcome State Fault Refusal :=
  powered s (withSpare s b w 2 fun s => readyWord s b w)

/-- SWITCH: from codeword K on both ends send the lane on both its physical lanes. -/
def switchWord (s : State) (b : Fin 8) (w : Ctl) : State :=
  match s.rigger.banks[b].swap with
  | some x =>
    if x.initiator || x.lane ≠ ctAux w || x.phase ≠ 2 then s else
    updBank s b fun k => { k with swap := some { x with phase := 3, from_ := ctVal0 w } }
  | none => s

/-- SPARE_SWITCH. -/
def execSpareSwitch (b : Fin 8) (w : Ctl) (s : State) : Host.Outcome State Fault Refusal :=
  powered s (withSpare s b w 3 fun s => switchWord s b w)

/-- DONE: the peer reads from the spare alone. -/
def doneWord (s : State) (b : Fin 8) (w : Ctl) : State :=
  match s.rigger.banks[b].swap with
  | some x =>
    if x.lane ≠ ctAux w || x.phase ≠ 3 then s else
    finishSwap (updBank s b fun k => { k with swap := some { x with peerDone := true } }) b
  | none => s

/-- SPARE_DONE. -/
def execSpareDone (b : Fin 8) (w : Ctl) (s : State) : Host.Outcome State Fault Refusal :=
  powered s (withSpare s b w 4 fun s => doneWord s b w)

/-- ABORT: both ends keep the old map. -/
def abortWord (s : State) (b : Fin 8) (w : Ctl) : State :=
  match s.rigger.banks[b].swap with
  | some x => if x.lane ≠ ctAux w then s else nextSwap (updBank s b fun k => { k with swap := none }) b
  | none => s

/-- SPARE_ABORT. -/
def execSpareAbort (b : Fin 8) (w : Ctl) (s : State) : Host.Outcome State Fault Refusal :=
  powered s (withSpare s b w 5 fun s => abortWord s b w)

/-- SPARE_TIMEOUT: 10 ms without DONE end in ABORT. -/
def execSpareTimeout (b : Fin 8) (s : State) : Host.Outcome State Fault Refusal :=
  powered s (
    match s.rigger.banks[b].swap with
    | some x => (nextSwap (abortSwap (reach s (x.at_ + 10000000)) b) b)
    | none => s)

/-- LANE_RECALIBRATION (R415, R416): Pointing swaps the lane onto the spare. -/
def execLaneRecalibration (b : Fin 8) (lane : Fin 8) (s : State) : Host.Outcome State Fault Refusal :=
  powered s (askSwap s b lane false)


/-! ## Codewords (R238 to R241, R416) -/

/-- A SPARE word in the slot stream acts on the port's bank by its phase. -/
def spareWord (s : State) (b : Fin 8) (w : Ctl) : State :=
  match ctParam w with
  | 1 => proposeWord s b w
  | 2 => readyWord s b w
  | 3 => switchWord s b w
  | 4 => doneWord s b w
  | 5 => abortWord s b w
  | _ => s

/-- A control word in a slot of logical lane l acts as its row does (R245). -/
def controlSlot (s : State) (p : Fin 16) (l : Nat) (x : LaneCode) (w : Ctl) : State :=
  withWord s p w fun s =>
    match ctType w with
    | 0 => idleWord s p l w
    | 2 => nakWord s p w
    | 3 => alignWord s p x.pl x.far w
    | 4 => spareWord s (fin8 (p / 2)) w
    | _ => s

/-- A data slot joins the packet that is arriving; with its last slot the packet has arrived (R241). A slot of zeros where a packet would
begin is one that nothing fills (log 43). -/
def dataSlot (s : State) (p : Fin 16) (w : BitVec 256) : State :=
  let k := s.rigger.ports[p]
  if k.state != .up || (k.asm.isEmpty && w = 0) then s else
  let bs := k.asm ++ leBytes 32 w.toNat
  if bs.length < 32 * slotsFor (pkBody bs) then updPort s p fun k => { k with asm := bs }
  else takePacket (updPort s p fun k => { k with asm := [] }) p bs

/-- The slots of a codeword in order, those of control words and those of packet data (R238, R240). An uncorrectable one leaves a gap: the
packet that was arriving is lost with it, and the next data slot begins a packet (R239, log 43). -/
def takeCodeword (s : State) (p : Fin 16) (l : Nat) (x : LaneCode) : State :=
  match x.word with
  | none => updPort s p fun k => { k with asm := [] }
  | some c => (List.range 20).foldl (fun s i => if cwControl c i then controlSlot s p l x (cwSlot c i) else dataSlot s p (cwSlot c i)) s

/-- The slot stream takes codewords in their order, number k from lane k mod n, as far as they have come (R240). -/
def drainLanes : Nat → State → Fin 16 → State
  | 0, s, _ => s
  | n + 1, s, p =>
    let k := s.rigger.ports[p]
    let l := laneOf k k.turn
    match k.lanesIn.getD l [] with
    | [] => s
    | x :: rest =>
      drainLanes n (takeCodeword (updPort s p fun k => { k with lanesIn := k.lanesIn.set l rest, turn := k.turn + 1 }) p l x) p

/-- A codeword of logical lane l of a bank is read from the physical lane that serves it: the lane's count moves on, and the codeword
takes its place in the port's slot stream, unless a swap has read it from the other lane already (R240, R252). -/
def laneReads (s : State) (b : Fin 8) (l : Nat) (x : LaneCode) : State :=
  let p := fin16 (2 * b + l / 4)
  let i := l % 4
  let s := updPort s p fun k => { k with counts := k.counts.modify i (· + 1) }
  if (s.rigger.ports[p]).dark.contains i then s
  else if 0 < (s.rigger.ports[p]).skip.getD i 0 then updPort s p fun k => { k with skip := k.skip.modify i (· - 1) }
  else
    let s := updPort s p fun k => { k with lanesIn := k.lanesIn.modify i (· ++ [x]) }
    drainLanes (((s.rigger.ports[p]).lanesIn.map List.length).sum) s p

/-- Both copies of a lane's codewords are compared in order as they come; after 1,024 identical ones in a row the receiver reads from the
spare alone and sends DONE. Codewords the spare has brought beyond the old lane are read now, those the old lane has brought beyond the
spare are passed over when the spare brings them. An uncorrectable codeword restarts the count (R252, R253). -/
def compareCopies (s : State) (b : Fin 8) (w : Swap) : State :=
  let put (s : State) (w : Swap) : State := updBank s b fun k => { k with swap := some w }
  match w.old, w.new with
  | x :: q, y :: r =>
    let n := if x.word.isSome && x.word = y.word then w.same + 1 else 0
    if n < 1024 then put s { w with old := q, new := r, same := n }
    else
      let s := put s { w with old := [], new := [], same := n, myDone := true }
      let s := updPort s (fin16 (2 * b + w.lane / 4)) fun k => { k with skip := k.skip.set (w.lane % 4) q.length }
      let s := r.foldl (fun s z => laneReads s b w.lane z) s
      finishSwap (sendSpare s b w.lane 4 0 w.spare) b
  | _, _ => put s w

/-- A codeword that physical lane `x.pl` of a bank has received goes where the bank's map, and a swap in its switching phase, have it
(R236, R252). -/
def readCodeword (s : State) (b : Fin 8) (x : LaneCode) : State :=
  let k := s.rigger.banks[b]
  match k.swap with
  | some w =>
    if w.phase ≠ 3 then (match k.map.idxOf? x.pl.val with | some l => laneReads s b l x | none => s)
    else if x.pl.val = w.spare then
      if w.myDone then laneReads s b w.lane x else compareCopies s b { w with new := w.new ++ [x] }
    else
      match k.map.idxOf? x.pl.val with
      | none => s
      | some l =>
        if l ≠ w.lane then laneReads s b l x
        else if w.myDone then s
        else
          let s := laneReads s b l x
          match s.rigger.banks[b].swap with
          | some w => if w.from_ ≤ ((s.rigger.ports[fin16 (2 * b + l / 4)]).counts.getD (l % 4) 0).toNat then compareCopies s b { w with old := w.old ++ [x] } else s
          | none => s
  | none => match k.map.idxOf? x.pl.val with | some l => laneReads s b l x | none => s

/-- Corrected symbols and uncorrectable codewords are counted on the lane and on its port, and a second of either is what Pointing acts on
(R239, R416). -/
def countCodeword (s : State) (b : Fin 8) (pl : Fin 9) (errs : Nat) : State :=
  let sec := s.now.toNat / 1000000000
  let s := updBank s b fun k =>
    if k.second = sec then k else
    { k with
      second := sec
      badSecs := (k.badSecs.zip k.unc).map fun (n, u) => if k.second + 1 = sec && 0 < u then n + 1 else 0
      syms := List.replicate 9 0
      unc := List.replicate 9 0 }
  let k := s.rigger.banks[b]
  let port : Option Nat := (k.map.idxOf? pl.val).map fun l => 2 * b + l / 4
  let count (s : State) (sub n : Nat) : State := match port with | some p => ctrAdd s 0 (0x7100 + p) sub n | none => s
  if errs ≤ 15 then
    let before := k.syms.getD pl 0
    let s := updBank (count s 0x14 errs) b fun k => { k with syms := k.syms.modify pl (· + errs) }
    match k.map.idxOf? pl.val with
    | some l => if before ≤ 100000 && 100000 < before + errs then (askTest s 2 (8 * b + l)) else s
    | none => s
  else
    let first := k.unc.getD pl 0 = 0
    let s := updBank (count s 0x15 1) b fun k => { k with unc := k.unc.modify pl (· + 1) }
    if first && 2 ≤ k.badSecs.getD pl 0 then (castReady (laneFails s b pl)) else s

/-- CODEWORD_RECEIVE (R238, R239): a codeword with at most 15 erroneous symbols is corrected and its slots join the slot stream; any other
is discarded whole. -/
def execCodewordReceive (b : Fin 8) (pl : LaneEnds) (w : SentCodeword) (s : State) : Host.Outcome State Fault Refusal :=
  powered s (readCodeword (countCodeword s b pl.lane w.errs) b ⟨pl.lane, pl.far, if w.errs ≤ 15 then some w.cw else none⟩)

end Sys2Proof.Machine
end

