-- ==== Sys2Proof/Machine/Trust.lean ====
section
/-! DEFINITION. Images and boot, fuses, and the attestation report (19). -/

namespace Sys2Proof.Machine

open Sys2Proof

/-! ## Images (R443, R444) -/

def imgVersion (b : List Byte) : Nat := leAt b 4 4
def imgSvn (b : List Byte) : Nat := leAt b 8 1

/-- D: the first 64 bytes of SHAKE256 over header bytes 0 to 3,919 and the body. -/
def imgD (b : List Byte) : List Byte := shake256 (sliceZ b 0 3920 ++ sliceZ b 12288 (leAt b 12 4)) 64

/-- A key of the header at an offset has the fused hash and verifies the signature at another over D. -/
def imgSigned (b : List Byte) (keyAt sigAt : Nat) (hash : BitVec 256) : Bool :=
  let k := sliceZ b keyAt 1952
  shake256 k 32 == wordBytes hash && Config.dsaVerify k "KRYEND-IMAGE" (imgD b) (sliceZ b sigAt 3309)

/-- Steps 2 to 5 of R443: 0 OK, 1 empty, 2 vendor signature or key, 3 owner signature or key. -/
def imgKeys (s : State) (b : List Byte) : Nat :=
  if b.isEmpty then 1
  else if !imgSigned b 16 3920 Config.vendorKeyHash then 2
  else if s.sec.ownerBlown && !imgSigned b 1968 7229 s.sec.owner then 3
  else 0

/-- Steps 2 to 6: also 4, SVN below the counter. -/
def imgCheck (s : State) (b : List Byte) : Nat :=
  match imgKeys s b with
  | 0 => if imgSvn b < s.sec.rollback then 4 else 0
  | n => n

def imgSlot (s : State) (i : Nat) : List Byte := if i = 0 then s.sec.imageA else s.sec.imageB
def runningImage (s : State) : List Byte := imgSlot s s.sec.running

/-- The boot ROM (R443): the preferred slot, else the other; none where neither passes (R445). -/
def boot (s : State) : State × Bool :=
  let first := objNat s 0 0x4100 0x12 0
  let r1 := imgCheck s (imgSlot s first)
  let r2 := if r1 = 0 then 5 else imgCheck s (imgSlot s (1 - first))
  let rec_ := if first = 0 then (first, r1, r2) else (first, r2, r1)
  let run := if r1 = 0 then first else 1 - first
  let ok := r1 = 0 || r2 = 0
  ({ s with sec := { s.sec with boot := rec_, running := if ok then run else s.sec.running } }, ok)

/-- A whole image for a slot (R447): refused where the check fails. -/
def imageWrite (s : State) (i : Nat) (b : List Byte) : State × Option Nat :=
  if imgCheck s b ≠ 0 then (s, some 0x0202)
  else (genBump { s with sec := if i = 0 then { s.sec with imageA := b } else { s.sec with imageB := b } } 0 0x4100 (0x10 + i), none)

/-- The slot that holds the running image; in ROM recovery none runs. -/
def slotRuns (s : State) (i : Nat) : Bool := s.power.bringUp != .rom && s.sec.running == i

/-! ## Fuses (R446, R448) -/

/-- A write of 1 to 0x4100:06. -/
def advanceRollback (s : State) : State × Option Nat :=
  let mine := imgSvn (runningImage s)
  let other := imgSlot s (1 - s.sec.running)
  if imgKeys s other = 0 && imgSvn other < mine then (s, some 0x0202)
  else ({ s with sec := { s.sec with rollback := max s.sec.rollback (min 64 mine) } }, none)

/-- A write of PF0 to 0x4100:04 in the bring-up state with full rights. -/
def burnOwner (s : State) (hash : BitVec 256) : State × Option Nat :=
  if s.power.bringUp ≠ .full || s.sec.ownerBlown then (s, some 0x0101)
  else (genBump { s with sec := { s.sec with owner := hash, ownerBlown := true } } 0 0x4100 3, none)

/-! ## Attestation (R449 to R451) -/

/-- The eight records of 0x4000. -/
def partRecords (s : State) : List Byte := (List.range 8).flatMap fun n => sliceZ (objBytes s 0 0x4000 (n + 1) [0, 0]) 0 2

/-- The signed part of an attestation report: what it says of the module. -/
def reportHead (s : State) (r : Req) (nonce : BitVec 256) : List Byte :=
  let kind : Nat := match r with | .fn _ => 2 | .sess _ => 1
  let who : Nat := match r with | .fn f => f.val | .sess i => (s.evolu.sessions[i]).anchor.val
  let pub := sliceZ (Config.dsaPublic Config.seedKey) 0 1952
  leBytes 4 1 ++ leBytes 4 5549 ++ wordBytes nonce ++ wordBytes Config.serial ++ leBytes 8 s.now.toNat ++
    leBytes 4 s.evolu.epoch.toNat ++ wordBytes Config.numericRevision ++ leBytes 4 (moduleState s) ++
    leBytes 1 s.sec.running ++ leBytes 1 s.sec.rollback ++ leBytes 2 0 ++ wordBytes Config.romVersion ++
    leBytes 4 (imgVersion s.sec.imageA) ++ leBytes 4 (imgVersion s.sec.imageB) ++ leBytes 1 kind ++ leBytes 1 who ++ leBytes 2 0 ++
    imgD (runningImage s) ++ wordBytes Config.vendorKeyHash ++ wordBytes s.sec.owner ++ shake256 (partRecords s) 32 ++
    shake256 (sliceZ (objBytes s 0 0x1800 0x10 []) 0 320) 32 ++ (unitsInService s).flatMap (leBytes 1) ++ leBytes 4 0 ++ pub

/-- A report for a requester's nonce. -/
def reportBytes (s : State) (r : Req) (nonce : BitVec 256) (rnd : Nat) : List Byte :=
  let head := reportHead s r nonce
  head ++ sliceZ (Config.dsaSign Config.seedKey "KRYEND-ATTEST" head rnd) 0 3309

/-- A nonce makes the module sign a report for its requester, in place of the last one. -/
def attest (s : State) (r : Req) (nonce : BitVec 256) : State :=
  let b := reportBytes s r nonce s.free
  let s := genBump s (match r with | .fn f => f.val | .sess _ => 0) 0x4200 2
  { s with free := s.free + 1, sec := { s.sec with reports := (r, b) :: s.sec.reports.filter fun x => decide (x.1 ≠ r) } }

/-- The report a requester reads: zeros where it has written no nonce. -/
def reportOf (s : State) (r : Req) : List Byte := assocGet s.sec.reports r (List.replicate 5549 0)

end Sys2Proof.Machine
end

