-- ==== Sys2Proof/Machine/WarmReset.lean ====
section
/-! DEFINITION. The warm reset (18): what it loses, what it resumes, and how it ends. -/

namespace Sys2Proof.Machine

open Sys2Proof

/-! ## DICT entries (R209) -/

def dcReqReg (b : BitVec 736) : Nat := fld b 11 0
def dcReqOff (b : BitVec 736) : Nat := fld b 47 12
def dcReqLen (b : BitVec 736) : Nat := fld b 63 48
def dcRespReg (b : BitVec 736) : Nat := fld b 75 64
def dcRespOff (b : BitVec 736) : Nat := fld b 111 76

/-- Where the request of a DICT cannot be read, if anywhere. -/
def dictBlind (s : State) (f : Fin 9) (b : BitVec 736) : Option Nat := hostBufferFault s f (dcReqReg b) (dcReqOff b) (dcReqLen b) 1

/-- The request message of a DICT, where it can be read. -/
def dictRequest (s : State) (f : Fin 9) (b : BitVec 736) : Option (List Byte) :=
  match dictBlind s f b with
  | some _ => none
  | none => some ((List.range (dcReqLen b)).map fun i => spaceByte s f (partOfFn f) (hostAddr (dcReqReg b) (dcReqOff b + i)))

/-- A DICT that has run and changes nothing: its class follows from the message it read (R224). -/
def dictReads (e : EntryRun) : Bool := e.ran = 0 || [1, 3, 5].contains e.ran

/-! ## Accepted, unretired entries (R224, R466) -/

/-- What a warm reset makes of an entry. One that has not started stays; one rejected stays rejected; the rest start again, are
failed, or keep the result their journal mark holds. -/
def resumeEntry (s : State) (f : Fin 9) (e : EntryRun) : EntryRun :=
  if e.stage = .held || e.stage = .waited || (e.stage = .finished && e.res.cls = .rejected) then e else
  let again : EntryRun :=
    { e with stage := if enWait e.raw = 0 then .held else .waited, retried := true, sawReset := true, res := Res.okay, fence := none }
  let keep : EntryRun := { e with sawReset := true }
  let fail (r : Reason) : EntryRun := { keep with stage := .finished, res := failedRes r true 0, tEnd := s.now }
  match enOp e.raw with
  | 2 => keep
  | 3 =>
    let c := copyOf e.raw
    let idx := cpIndices c
    let dst := cpPlaces (cpDaddr c) (cpRun c) (idx.map (·.2))
    if cpAdd c || dst.any (portPlace s f (partOfFn f)) then fail .hodInterrupted
    else if aLoc (cpSaddr c) = 0 || aLoc (cpDaddr c) = 0 then fail .resetLost
    else again
  | 6 => if e.stage = .finished && !dictReads e then keep else again
  | _ => again

/-- A stream resumes polling from the journal: what it has taken and not accepted is fetched again. -/
def resumeStreamAt (s : State) (f : Fin 9) (k : Nat × Stream) : Nat × Stream :=
  let t := k.2
  let st : SState := if t.state = .polling || t.state = .waiting then (if mayPoll s f k.1 then .polling else .waiting) else t.state
  (k.1, { t with state := st, batches := [], bad := none, interval := 250, entries := t.entries.map (resumeEntry s f) })

def resumeFunc (s : State) (f : Fin 9) : State := updFunc s f fun k => { k with streams := k.streams.map (resumeStreamAt s f) }

/-! ## Units -/

/-- Every Rigger port retrains; what it kept and what was held for it is lost, and swaps are abandoned (R250, R417, R438). -/
def portsRetrain (s : State) : State :=
  let port (k : Port) : Port := { clearPort k with state := .down, peer := none }
  let bank (b : Bank) : Bank := { b with swap := none }
  syncChoose { s with rigger := { s.rigger with ports := s.rigger.ports.map port, banks := s.rigger.banks.map bank, held := [] } }

/-- A Crew's definition is kept and it enters RECOVERING; its program and commands in flight are gone, and an undecided attempt is
UNRESOLVED (R267, R334, R337). -/
def crewReset (s : State) (c : Fin 16) : State :=
  if s.crews[c].state = .undefined then s else
  let core (r : CoreRun) : CoreRun := { r with ended := true }
  let cutAttempt (a : Attempt) : Attempt := { a with voted := true, voteOut := true, ended := true, inFlight := 0, cores := a.cores.map core }
  let s := settleWaits s c
  let s := updCrew s c fun k =>
    { k with
      ops := [], p2p := [], waiting := [], credits := [], early := [], earlyRisen := [], heard := [], sent := [], exporting := none, copyNext := 0
      fin := if k.fin = .running || k.fin = .voting then .unresolved else k.fin
      attempt := k.attempt.map cutAttempt }
  (newEpoch (setCrewState s c .recovering) c).1

/-! ## HBM (R142, R157) -/

/-- A member whose Stroke state has not survived (R157). -/
def strokeLost (s : State) (c : Fin 16) : State :=
  let k := s.crews[c]
  if k.state = .undefined then s else
  let s := updCrew s c fun k =>
    { k with lastFinished := 0, decisions := [], log := [], deferrals := [], attempt := none, decision := none, logged := none, fin := .idle }
  if k.lastFinished = 0 then s else becomeStale s c false

/-- STACK_RETIREMENT (R157): stacks in RETIRE_PENDING or named leave; the fine pool is built anew over the rest, every region
table is cleared, and partitions' HBM contents are undefined. With fewer than 16 the module leaves service (R421). -/
def retireStacks (s : State) : State :=
  let go := (List.finRange 20).filter fun k =>
    s.hbm.inService.contains k.val && (s.hbm.stks[k].state = 1 || s.hbm.stks[k].retireAsked)
  if go.isEmpty then s else
  let out (s : State) (k : Fin 20) : State :=
    let s := updStack s k fun t => { t with state := 2, retireAsked := false }
    pointLog { s with hbm := { s.hbm with inService := s.hbm.inService.filter (· ≠ k.val) } } 11 k 9
  let s := go.foldl out s
  let s := (List.finRange 8).foldl (fun s p => genBump (dropObj s 0 0x5000 (0x40 + p.val)) 0 0x5000 (0x40 + p.val)) s
  let g := s.free
  let mems : Vector Mem 20 := Vector.ofFn fun k => ⟨g + 1 + k.val, []⟩
  let layers (x : CoxPart) : CoxPart := { x with layers := [] }
  let s := { s with free := s.free + 20, hbm := { s.hbm with mem := mems, ue := [] }, cox := s.cox.map layers }
  let s := (List.finRange 16).foldl strokeLost s
  let s := (List.finRange 8).foldl ringsCheck s
  let s := setDegraded (genBump (mapWrite s) 0 0x5000 0x10) 7
  if s.hbm.inService.length < 16 then leaveService s else s

/-- Values of class RESET take force (R142, R395). -/
def mapApply (s : State) : State :=
  { s with hbm := { s.hbm with
      coarse := BitVec.ofNat 64 (objNat s 0 0x5000 1 0xC000000000000000)
      granule := objNat s 0 0x5000 2 12 } }

/-- A retirement or a map change waits for a warm reset. -/
def resetWaits (s : State) : Bool :=
  (s.hbm.stks.toList.any fun t => t.state = 1 || (t.retireAsked && t.state = 0)) ||
  objNat s 0 0x5000 1 0xC000000000000000 ≠ s.hbm.coarse.toNat || objNat s 0 0x5000 2 12 ≠ s.hbm.granule

/-! ## Evolu and the dictionary (R384, R438) -/

/-- The RESET event goes out to every session that has asked for it and whose window allows (R386). -/
def lastEvents (s : State) (cause : Nat) : State :=
  let s := raiseEvent s 2 1 0 0x100 (leBytes 1 cause)
  let send (s : State) (i : Fin 8) : State :=
    if !s.evolu.sessions[i].mask.getLsbD 2 then s else
    let n := s.evolu.nq.length
    let t := sendEvents (sendEvents (sendEvents (sendEvents s i) i) i) i
    (t.evolu.nq.drop n).foldl (fun t x => emit t (.frame (burstGroups x.bytes))) t
  (List.finRange 8).foldl send s

/-- Evolu restarts in a new epoch: sessions, handshakes, queues and the open change set are lost; the address stays. -/
def evoluRestart (s : State) : State :=
  let s := closeAll (endOpen s 6)
  let s := { s with dict := { s.dict with transfers := [], expired := none } }
  updEvolu s fun e =>
    { e with epoch := e.epoch + 1, hq := [], nq := [], flight := none, noEcho := 0, claim := none, shakes := [], reqTimes := [], notices := [],
             medium := .ok }

/-- Sampled groups miss the instants of the reset; the first record after it says so (R462, R467). -/
def groupsMiss (s : State) (t0 t1 : Nat) : State :=
  let miss (k : Group) : Group :=
    if k.state = 1 && gMode k.config = 1 then
      let i := max 1 (gInterval k.config)
      let n := t1 / i - t0 / i
      { k with reset := true, gap := k.gap + n, lost := k.lost + n, seq := k.seq + BitVec.ofNat 32 n }
    else k
  { s with counters := { s.counters with groups := s.counters.groups.map miss } }

/-- A warm reset ends tracing, keeps the spill region and leaves the trace disabled (R471). -/
def traceEnd (s : State) : State :=
  let c := traceCtl s
  let s := if leAt c 0 1 = 1 then setObj s 0 0x9800 1 (0 :: c.drop 1) else s
  { s with counters := { s.counters with trace := { s.counters.trace with state := 0, inside := [] } } }

/-- Leaving the bring-up state: reservations, check enables and margining are as after a reset (R441, R158). -/
def leaveBringUp (s : State) : State :=
  let check (k : Course) : Course := { k with check := true }
  let stk (k : Stack) : Stack := { k with suspended := false }
  let fn (k : Func) : Func :=
    { k with streams := k.streams.map fun (q, t) => (q, { t with history := [] }) }
  let s := dropObj s 0 0x5300 2
  { s with
    courses := s.courses.map check
    hbm := { s.hbm with dev := Mem.empty, stks := s.hbm.stks.map stk, marginStack := 0xFF, marginState := 0, marginRun := false, eyeMap := [] }
    host := { s.host with funcs := s.host.funcs.map fn }
    cards := ⟨0, []⟩
    pointing := { s.pointing with log := [], written := 0 }
    counters := { s.counters with
      heads := s.counters.heads.filter fun h => h.1.1 ≠ 8
      trace := { s.counters.trace with head := 0, written := 0, spill := Mem.empty } } }

/-! ## The reset (R436 to R439) -/

/-- Every status page reads WARM_RESET while the reset runs (R185, R188). -/
def pagesReset (s : State) : State := (List.finRange 9).foldl (fun s f => pageWrite s f { pageNow s f with state := 4 }) s

/-- Every unit stops and its logic resets; the timebase advances by the time the reset takes (R437, R438). -/
def warmStopped (s : State) (t0 t1 : Nat) : State :=
  let s := (List.finRange 16).foldl hodCut (evoluRestart s)
  let s := (List.finRange 8).foldl courseLost s
  let idle (x : CoxPart) : CoxPart := { x with cmds := [], winUsed := 0 }
  let mgd (k : Cluster) : Cluster := { k with late := false }
  let mark (x : PendSet) : PendSet :=
    if apKind x.point = 1 && t0 < apValue x.point && apValue x.point ≤ t1 then { x with late := true } else x
  { s with
    now := BitVec.ofNat 64 t1
    cox := s.cox.map idle
    hbm := { s.hbm with waits := [], marginRun := false, marginState := 0 }
    dict := { s.dict with pendings := s.dict.pendings.map mark }
    pointing := { s.pointing with clusters := s.pointing.clusters.map mgd, laneTests := [] } }

/-- The boot ROM runs an image; the power record counts the reset, and bring-up mode is kept, entered or left (R438, R441). -/
def warmBooted (s : State) (cause : Nat) (bring : Bool) : State :=
  let b := boot s
  let next : BringUp := if !b.2 then .rom else if bring then .full else .no
  let t := { b.1 with power := { b.1.power with
    warms := b.1.power.warms + 1, cause := cause, idle := false, quiesced := b.1.pointing.outOfService, removal := 0, bringUp := next
    warmAsked := false } }
  if s.power.bringUp ≠ .no && next = .no then leaveBringUp t else t

/-- A warm reset with its cause, into the bring-up state where `bring`. The host link stays and passes through Recovery (R185). The timebase runs on by a free 2.0 to 2.5 s. -/
def warmReset (s : State) (cause : Nat) (bring : Bool) : State :=
  let s := pagesReset (lastEvents s cause)
  let s := if s.host.up then ctrAdd s 0 0x1900 2 1 else s
  let t0 := s.now.toNat
  let v := fresh s
  let t1 := t0 + 2000000000 + v.1.toNat % 500000001
  let s := warmBooted (warmStopped v.2 t0 t1) cause bring
  let s := traceEnd (groupsMiss s t0 t1)
  let s := portsRetrain (retireStacks (mapApply s))
  -- journal copies are checked and rebuilt, and streams resume
  let s := if journalLost s then s else { s with journal := { s.journal with copyA := true, copyB := true } }
  let s := (List.finRange 9).foldl resumeFunc s
  castReady ((List.finRange 16).foldl crewReset s)

/-- WATCHDOG_EXPIRY (R436): the watchdog of the management cores triggers a warm reset. -/
def execWatchdogExpiry (s : State) : Host.Outcome State Fault Refusal :=
  powered s (warmReset { s with power := { s.power with dogs := s.power.dogs + 1 } } 3 false)

end Sys2Proof.Machine
end

