-- ==== Sys2Proof/Machine/Power.lean ====
section
/-! DEFINITION. Power, clocks, part resets and the cold start (18). -/

namespace Sys2Proof.Machine

open Sys2Proof

def updPower (s : State) (g : Power → Power) : State := { s with power := g s.power }

/-! ## Clocks (R425, R428, R433 to R435) -/

/-- Frequency of a lowered domain: 0 ACLK, 1 CCLK, 2 UCLK, in MHz. -/
def freq (p : Power) (d : Nat) : Nat := if d = 0 then p.aclk else if d = 1 then p.cclk else p.uclk
def freqMin (d : Nat) : Nat := if d = 0 then 1000 else if d = 1 then 800 else 750
def freqNom (d : Nat) : Nat := if d = 0 then 2000 else if d = 1 then 1600 else 1500
def freqStep (d : Nat) : Nat := if d = 2 then 25 else 50

def setFreq (p : Power) (d v : Nat) : Power :=
  if d = 0 then { p with aclk := v } else if d = 1 then { p with cclk := v } else { p with uclk := v }

/-- A domain changes by one step, at least 10 µs after its last change and within its range; the step is counted. -/
def stepClock (s : State) (d : Nat) (up : Bool) : State :=
  let p := s.power
  let v := freq p d
  let w := if up then min (freqNom d) (v + freqStep d) else max (freqMin d) (v - freqStep d)
  let last := p.domStep.getD d 0
  if w = v || (last ≠ 0 && s.now.toNat < last.toNat + 10000) then s else
  ctrAdd (updPower s fun p => { setFreq p d w with domStep := p.domStep.set d s.now }) 0 0x2300 3 1

/-- The next domain to lower of a list in order, or to raise in the reverse order. -/
def lowerNext (p : Power) (ds : List Nat) : Option Nat := ds.find? fun d => freqMin d < freq p d
def raiseNext (p : Power) (ds : List Nat) : Option Nat := ds.reverse.find? fun d => freq p d < freqNom d

/-- The average input power over the last millisecond. -/
def avgPower (p : Power) : Nat := if p.samples.isEmpty then 0 else p.samples.sum / p.samples.length

def capW (s : State) : Nat := objNat s 0 0x2100 1 3600

/-- 0x2100:02, 0x2200:03 and 0x2300:02. -/
def capBytes (p : Power) : List Byte := leBytes 1 (if p.capping then 1 else 0) ++ leBytes 1 (if p.unmet then 1 else 0) ++ leBytes 8 p.capTime
def throttleBytes (p : Power) : List Byte :=
  leBytes 1 (if p.throttling then 1 else 0) ++ leBytes 4 ((p.halved.map fun k => 2 ^ k).sum) ++ leBytes 8 p.thrTime
def refBytes (p : Power) : List Byte := (p.refs.flatMap fun b => leBytes 1 (if b then 1 else 0)) ++ leBytes 4 p.relocks

/-- POWER events of a change (R386). -/
def powerEvents (s t : State) : State :=
  let t := if s.power.capping = t.power.capping && s.power.unmet = t.power.unmet then t else raiseEvent t 1 1 0 0x100 (capBytes t.power)
  if s.power.throttling = t.power.throttling && s.power.halved = t.power.halved then t
  else raiseEvent t 1 2 0 0x100 (throttleBytes t.power)

/-- The power cap's part of a sample: one step in 100 µs down while the average exceeds the cap, up once it has stayed below 98%
for 10 ms; at minimum clocks the cap is unmet (R433). -/
def capControl (s : State) : State :=
  let p := s.power
  let avg := avgPower p
  let cap := capW s
  let due := p.capStep = 0 || p.capStep.toNat + 100000 ≤ s.now.toNat
  if cap < avg then
    let s := updPower s fun p => { p with below := 0, capping := true }
    match lowerNext p [0, 2, 1] with
    | some d => if due then updPower (stepClock s d false) fun p => { p with capStep := s.now } else s
    | none => updPower s fun p => { p with unmet := true }
  else
    let n := if 100 * avg < 98 * cap then p.below + 1 else 0
    let s := updPower s fun p => { p with below := n, unmet := false }
    if n < 1000 || p.throttling then s else
    match raiseNext p [0, 2, 1] with
    | some d => if due then updPower (stepClock s d true) fun p => { p with capStep := s.now } else s
    | none => updPower s fun p => { p with capping := false }

/-- POWER_SAMPLE (R433, R434): the next 10 µs instant. Two samples in a row above 3,800 W halve ACLK at once. -/
def execPowerSample (w : Nat) (mv : Nat) (s : State) : Host.Outcome State Fault Refusal :=
  powered s (
    let old := s
    let s := { s with now := BitVec.ofNat 64 ((s.now.toNat / 10000 + 1) * 10000) }
    let s := updPower s fun p =>
      { p with mv := mv, samples := (w :: p.samples).take 100, energy := p.energy + 10 * w, hiRuns := if 3800 < w then p.hiRuns + 1 else 0
               capTime := if p.capping then p.capTime + 10000 else p.capTime }
    let s :=
      if s.power.hiRuns < 2 then s else
      let s := updPower s fun p => { p with aclk := 1000, hiRuns := 0, capping := true, domStep := p.domStep.set 0 s.now }
      let s := ctrAdd s 0 0x2100 3 1
      raiseEvent s 1 4 0 0x100 (leBytes 8 (ctrGet s 0 0x2100 3))
    (powerEvents old (capControl s)))

/-- CLOCK_STEP (R428): one step down while the cap or the throttle asks, or up while neither does. -/
def execClockStep (d : Fin 3) (up : Bool) (s : State) : Host.Outcome State Fault Refusal :=
  powered s (
    let ask := capW s < avgPower s.power || s.power.throttling
    if up = ask then s else
    let last := s.power.domStep.getD d 0
    (stepClock (if last = 0 then s else reach s (last + 10000)) d up))

/-! ## Trips and Off (R429, R430) -/

/-- A trip: the shutdown record is written and the module is Off; every transmitter is dark. -/
def tripOff (s : State) (cause : Nat) (v : Int) : State :=
  let port (k : Port) : Port := { clearPort k with state := .down, peer := none }
  { s with
    power := { s.power with on := false, idle := false, flashShut := some (cause, s.now, v) }
    host := { s.host with up := false }
    rigger := { s.rigger with ports := s.rigger.ports.map port, held := [] } }

/-- UNDER_VOLTAGE_TRIP: below 50.0 V. The record of a module prepared for removal says POWER_REMOVED. -/
def execUnderVoltageTrip (mv : Nat) (s : State) : Host.Outcome State Fault Refusal :=
  powered s (
    if 50000 ≤ mv then s else (tripOff s (if s.power.removal = 0 then 1 else 5) mv))

/-- OVER_VOLTAGE_TRIP: above 58.0 V. Above 60.0 V damage is not excluded, and nothing more is said of the module. -/
def execOverVoltageTrip (mv : Nat) (s : State) : Host.Outcome State Fault Refusal :=
  if 60000 < mv then .fault .absoluteMaximum
  else powered s (if mv ≤ 58000 then s else tripOff s 2 mv)

/-! ## Temperature (R435) -/

/-- A list of n numbers: shorter ones end in zeros. -/
def padInts (l : List Int) (n : Nat) : List Int := l.take n ++ List.replicate (n - l.length) 0

/-- The hottest of a list of readings, at least the first. -/
def hottest (l : List Int) : Int := l.foldl max (l.headD 0)

/-- The throttle's part of a sample. -/
def throttleControl (s : State) (hot : Int) : State :=
  let p := s.power
  let limit : Int := 100 * (objNat s 0 0x2200 4 100 : Int)
  let due := p.thrStep = 0 || p.thrStep.toNat + 100000 ≤ s.now.toNat
  if limit ≤ hot then
    let s := updPower s fun p => { p with cool := 0, throttling := true }
    match lowerNext p [0, 2] with
    | some d => if due then updPower (stepClock s d false) fun p => { p with thrStep := s.now } else s
    | none => s
  else
    let n := if hot < limit - 300 then p.cool + 1 else 0
    let s := updPower s fun p => { p with cool := n }
    if n < 100 || !p.throttling then s else
    match raiseNext p [0, 2] with
    | some d =>
      if due && avgPower p ≤ capW s then updPower (stepClock s d true) fun p => { p with thrStep := s.now }
      else if capW s < avgPower p then updPower s fun p => { p with throttling := false }
      else s
    | none => updPower s fun p => { p with throttling := false }

/-- THERMAL_SAMPLE: the next 100 µs instant. A junction or stack at 105 °C, or 100 °C for 1 s with ACLK and UCLK at minimum,
trips the module; a stack at 95 °C halves its regulators until it falls below 92 °C. -/
def execThermalSample (junctions : List Int) (stackTemps : List Int) (s : State) : Host.Outcome State Fault Refusal :=
  powered s (
    let old := s
    let s := { s with now := BitVec.ofNat 64 ((s.now.toNat / 100000 + 1) * 100000) }
    let js := padInts junctions 64
    let ts := padInts stackTemps 20
    let hot := hottest js
    let least := s.power.aclk = 1000 && s.power.uclk = 750
    let halved := (List.range 20).filter fun k => let t := ts.getD k 0; 9500 ≤ t || (s.power.halved.contains k && 9200 ≤ t)
    let s := updPower s fun p =>
      { p with junctions := js, stackTemps := ts, hotMin := if 10000 ≤ hot && least then p.hotMin + 1 else 0, halved := halved
               thrTime := if p.throttling then p.thrTime + 100000 else p.thrTime }
    if 10500 ≤ hot || 10000 ≤ s.power.hotMin then (tripOff s 3 hot)
    else if 10500 ≤ hottest ts then (tripOff s 3 (hottest ts))
    else (powerEvents old (throttleControl s hot)))

/-! ## References (R427) -/

/-- REFERENCE_LOSS: the domains of a lost module reference relock to the other, a part fault of the Hods where theirs is lost, whose
commands re-execute or fail (R177); with both lost the module is Off. Loss of the PCIe reference takes the host link down. The log entry's
kind and stall are not stated. -/
def execReferenceLoss (ref : Fin 3) (s : State) : Host.Outcome State Fault Refusal :=
  powered s (
    if !s.power.refs.getD ref true then s else
    let s := updPower s fun p => { p with refs := p.refs.set ref false }
    let told (s : State) : State := raiseEvent s 1 3 0 0x100 (refBytes s.power)
    if ref.val = 2 then
      hotReset (told s)
    else if !s.power.refs.getD (1 - ref.val) true then (tripOff s 4 s.power.mv)
    else
      let (v, s) := fresh s
      let s := updPower s fun p =>
        { p with relocks := p.relocks + 1, parts := p.parts + 1, domRef := if ref.val = 0 then (true, true) else (false, false) }
      let s := told (pointLog s (v.toNat % 16) ref (v.toNat / 16 % 100001))
      (if ref.val = 0 then (List.finRange 16).foldl hodPartFault s else s))

/-! ## Part resets (R436) -/

/-- The commands a Course or Trowel held when it was reset complete FAILED, RESET_LOST. -/
def unitsFail (s : State) (q : List UnitCmd) : State :=
  q.foldl (fun s u => retireUnit s u.iss u.op.toNat (fld u.word 63 32) u.ev (failedRes .resetLost true 0)) s

/-- A core that runs a program is reset: its attempt fails and is replayed (R224). -/
def coreReset (s : State) (cluster lcore : Nat) : State :=
  (List.finRange 16).foldl (fun s c =>
    let hit (a : Attempt) : Bool := !a.ended && a.cores.any fun x => x.cluster.val = cluster && x.lcore = lcore && !x.ended
    let core (r : CoreRun) : CoreRun := { r with ended := true }
    match s.crews[c].attempt with
    | some a =>
      if hit a then
        updAttempt s c fun a => { a with ended := true, fails := a.fails ++ [(.failed, .resetLost, 1, 0)], cores := a.cores.map core }
      else s
    | none => s) s

/-- The Cox is reset: its commands fail. -/
def coxReset (s : State) : State :=
  (List.finRange 8).foldl (fun s p =>
    (List.range s.cox[p].cmds.length).foldl (fun s i =>
      match s.cox[p].cmds[i]? with
      | some k => if k.run then s else coxFail s p i k .resetLost 0 []
      | none => s) s) s

/-- PART_RESET: counted; seen beside that only in the results of the commands it touches. A Course loses its Pallet contents and
tables, a Pallet bank its contents. -/
def execPartReset (kind : Fin 9) (n : Nat) (s : State) : Host.Outcome State Fault Refusal :=
  powered s (
    let s := updPower s fun p => { p with parts := p.parts + 1 }
    match kind.val with
    | 0 =>
      let c := fin8 n
      let q := s.courses[c].queue
      let k := s.courses[c]
      let (g, s) := freshGen s
      let (d, s) := freshGen s
      let (t, s) := freeTiles s
      let s := updCourse s c fun x => { x.emptied t d with sticky := k.sticky, offender := k.offender }
      let s := updPallet s c fun x => { x with mem := ⟨g, []⟩, ue := [] }
      (castReady (unitsFail s q))
    | 1 =>
      let c := fin8 n
      let q := s.trowels[c].queue
      (castReady (unitsFail (updTrowel s c fun t => { t with queue := [] }) q))
    | 2 => hodPartFault s (fin16 n)
    | 4 =>
      let c := fin8 (n / 128)
      let (g, s) := freshGen s
      (palletWriteL s c ((List.range (2 ^ 19)).map fun i => (n % 128 * 2 ^ 19 + i, Config.freeByte g i)))
    | 5 => (castReady (coreReset s (n / 8) (n % 8)))
    | 7 => (castReady (takeDown s (fin16 n)))
    | 8 => (castReady (coxReset s))
    | _ => s)

/-! ## Idle (R431) -/

/-- A port has packets of Rigger traffic other than Crew control to send, or to keep until they are acknowledged (R431). -/
def portWorks (k : Port) : Bool := k.kept.any (fun x => pkType x.bytes ≠ 4) || k.waiting.any fun x => pkType x.raw ≠ 4

/-- IDLE_ENTRY: no entry unretired, no Stroke running, and no Rigger traffic left but control words and Crew control. -/
def execIdleEntry (s : State) : Host.Outcome State Fault Refusal :=
  powered s (
    let busy :=
      (s.host.funcs.toList.any fun k => k.streams.any fun x => !x.2.entries.isEmpty || !x.2.batches.isEmpty) ||
      (s.crews.toList.any fun k => k.launch.isSome) || s.rigger.ports.toList.any portWorks
    (if busy then s else updPower s fun p => { p with idle := true }))

/-! ## Removal (R432) -/

/-- What a write of 1 to 0x2400:03 does: out of service as under R422, and safe to remove once nothing remains. -/
def prepareRemoval (s : State) : State :=
  if s.power.removal ≠ 0 then s else
  removalCheck (moduleEvent s (updPower s fun p => { p with quiesced := true, removal := 1 }))

/-! ## Cold start (R437, R440) -/

/-- Pointing as the repair map describes it. -/
def coldPointing (m flash : RepairMap) : Pointing :=
  { Pointing.init with
    clusters := m.clusters.map fun x => { x with tested := List.replicate 10 0, late := false }
    pair := m.pair, mgmtSpare := m.mgmtSpare, lockstep := m.lockstep, coxSpares := m.coxSpares, coxLanes := m.coxLanes
    degraded := m.degraded, outOfService := m.outOfService, flashMap := flash }

/-- The module as the repair map in flash describes it, or as it was made where the map has been cleared (R419, R424). -/
def coldUnits (s : State) : State :=
  if s.pointing.clearMap then
    { s with
      courses := Vector.replicate 8 Course.init, trowels := Vector.replicate 8 Trowel.init, pallets := Vector.replicate 8 Pallet.init
      hbm := Hbm.init, journal := ⟨true, true, false, false⟩, pointing := Pointing.init
      rigger := { s.rigger with banks := Vector.replicate 8 Bank.init, lasers := Laser.init } }
  else
    let m := flashMap s
    let out (n : Nat) (k : Course) : Course := if s.pointing.leaving.any fun x => x.1.val = n then { k with inService := false } else k
    { s with
      courses := m.courses.mapIdx fun n k => out n k
      trowels := m.trowels
      pallets := m.pallets.map (coldPallet 0)
      hbm := { Hbm.init with inService := m.inService, stks := m.stks }
      journal := ⟨true, true, m.moved.1, m.moved.2⟩
      pointing := coldPointing m s.pointing.flashMap
      rigger := { s.rigger with banks := m.banks } }

/-- A Rigger port at a cold start: its lanes without a working physical lane are out of service (R240, R419). -/
def coldPort (r : Rigger) (p : Fin 16) : Port :=
  let b := r.banks[fin8 (p / 2)]
  { Port.init with dark := (List.range 4).filter fun l => b.failed.contains (b.map.getD (4 * (p % 2) + l) 9) }

/-- A laser input at start-up: its power now is the reference of later drops (R237). -/
def coldLaser (ps : List Nat) (i : Nat) (l : Laser) : Laser := let w := ps.getD i 0; ⟨l.group, w, w, w = 0⟩

/-- Contents of HBM, Pallets and tables after power-on: undefined, but for the reservations, which are initialised. -/
def coldContents (s : State) : State :=
  let g := s.free
  let mems : Vector Mem 20 := Vector.ofFn fun k => ⟨g + 1 + k.val, []⟩
  let s := { s with free := s.free + 20, hbm := { s.hbm with mem := mems } }
  (List.finRange 8).foldl courseLost s

/-- The module once a cold start has completed. -/
def coldStarted (lasers : List Nat) (s : State) : State :=
  let s := coldUnits s
  let fn (k : Func) : Func := { Func.init with iommu := k.iommu }
  let dict : Dict := { Dict.init with vals := s.dict.flash, flash := s.dict.flash, flashBad := s.dict.flashBad }
  let s := { s with
    now := 0
    hods := Vector.replicate 16 Hod.init
    host := { HostPort.init with up := false, rate := 0, mem := s.host.mem, funcs := s.host.funcs.map fn }
    crews := Vector.replicate 16 Crew.init, cards := ⟨0, []⟩, cox := Vector.replicate 8 CoxPart.init
    rigger :=
      { ports := Vector.ofFn (coldPort s.rigger), banks := s.rigger.banks, lasers := s.rigger.lasers.mapIdx (coldLaser lasers)
        sync := ⟨0, 15, none, 0, false, 0, 0⟩, held := [] }
    evolu := { Evolu.init with hint := s.evolu.hint, epoch := s.evolu.epoch + 1 }
    dict := dict
    power := { Power.init with
      mv := s.power.mv, colds := s.power.colds + 1, flashShut := none, lastShut := s.power.flashShut.getD (0, 0, 0)
      quiesced := s.pointing.outOfService }
    sec := { s.sec with reports := [] }
    counters := Counters.init }
  let (s, ok) := boot (mapApply (coldContents s))
  if ok then s else updPower s fun p => { p with bringUp := .rom }

/-- COLD_START: from Off. Stored values come from flash and the others take their defaults; the epoch rises and the address is
claimed again with the stored hint; sessions, streams, journal, pending sets and counters are gone; the timebase runs from 0.
Host memory is the host's. The link trains next. -/
def execColdStart (lasers : List Nat) (s : State) : Host.Outcome State Fault Refusal :=
  .next (if s.power.on then s else coldStarted lasers s)

end Sys2Proof.Machine
end

