-- ==== Sys2Proof/Machine/DictRead.lean ====
section
/-! DEFINITION. The object dictionary as it is read (16): requesters and their rights (R454, R455), and the value of every object. -/

namespace Sys2Proof.Machine

open Sys2Proof

/-! ## Requesters (R454) -/

/-- A requester's rights: 0 PF0, 1 MANAGE, 2 a partition, 3 OBSERVE, 4 a VF without partition; and the function whose objects it
means where an object is one of each function. -/
abbrev Actor := Nat × Fin 9

/-- A function's rights. -/
def actorFn (s : State) (f : Fin 9) : Actor :=
  match partOfFn f with
  | none => (0, 0)
  | some p => if partValid s p then (2, f) else (4, f)

/-- The rights of an anchor's ROLE and partition (R368). -/
def actorRole (s : State) (role part : Nat) : Actor :=
  match role with
  | 0 => (1, 0)
  | 1 => if part < 8 then actorFn s (funcOf (fin8 part)) else (4, 0)
  | 2 => (3, 0)
  | _ => (4, 0)

/-- A requester's rights. -/
def actorOf (s : State) (r : Req) : Actor :=
  match r with
  | .fn f => actorFn s f
  | .sess i => actorRole s s.evolu.sessions[i].role s.evolu.sessions[i].part

/-- The rights the holder of a change set has now: a session's are those of its anchor. -/
def actorHolder (s : State) (h : Holder) : Actor :=
  match h with
  | .fn f => actorFn s f
  | .sess _ a =>
    let t := objBytes s 0 0x1800 0x10 []
    if leAt t (40 * a + 34) 1 = 1 then actorRole s (leAt t (40 * a + 32) 1) (leAt t (40 * a + 33) 1) else (4, 0)

/-- The partition of a requester with a partition's rights. -/
def actorPart (a : Actor) : Option (Fin 8) := if a.1 = 2 then partOfFn a.2 else none

/-- PF0 or a MANAGE session. -/
def manages (a : Actor) : Bool := a.1 ≤ 1
/-- PF0, MANAGE or OBSERVE. -/
def oversees (a : Actor) : Bool := a.1 ≤ 1 || a.1 = 3

/-- An index between two. -/
def idxIn (idx lo hi : Nat) : Bool := lo ≤ idx && idx ≤ hi

/-- An object of which each function has its own (R388, R198, R199, R223, R91). -/
def perFn (idx sub : Nat) : Bool :=
  idxIn idx 0x6400 0x643F || (idx = 0x6500 && sub ≤ 2) || idx = 0x6000 || (idx = 0x1900 && sub = 0x10)

/-- The object a requester means. -/
def keyOf (a : Actor) (idx sub : Nat) : ObjKey := ⟨if perFn idx sub then a.2.val else 0, idx, sub⟩

/-- The partition to which its chapter gives an object. -/
def objOwner (s : State) (a : Actor) (idx sub : Nat) : Option (Fin 8) :=
  if perFn idx sub || idx = 0x1900 then actorPart a
  else if idxIn idx 0x6100 0x6107 then courseOwner s (fin8 (idx - 0x6100))
  else if idx = 0x6200 || idx = 0x6300 then courseOwner s (fin8 (sub % 8))
  else if idx = 0x5000 && idxIn sub 0x40 0x47 then some (fin8 (sub - 0x40))
  else if idxIn idx 0x65F1 0x65F8 then some (fin8 (idx - 0x65F1))
  else if idxIn idx 0x1911 0x1918 then some (fin8 (idx - 0x1911))
  else if idxIn idx 0x7200 0x720F then crewOwner s (fin16 (idx - 0x7200))
  else if idxIn idx 0x7280 0x7287 then some (fin8 (idx - 0x7280))
  else if idxIn idx 0x7290 0x7297 then some (fin8 (idx - 0x7290))
  else if idx = 0x7300 && sub < 0xF0 then some (fin8 (sub % 16 - 1))
  else if idxIn idx 0x9000 0x903F then some (fin8 ((idx - 0x9000) / 8))
  else if idx = 0x5400 then (let o := leAt (objBytes s 0 idx sub [0xFF]) 0 1; if o < 8 then some (fin8 o) else none)
  else none

/-- An object every requester with a partition's rights reads: types, identity, Evolu state, power, clocks and resets, spares
remaining, attestation, change sets (R442, R424, R407, R454). -/
def openRead (idx sub : Nat) : Bool :=
  sub = 0 || idx ≤ 0xFF || idxIn idx 0x1000 0x100A || (idx = 0x1800 && sub = 1) || idxIn idx 0x2000 0x2400 || idx = 0x4200 ||
  (idx = 0x8100 && sub ≤ 2) || idx = 0xA000 || idx = 0xA100

/-- A requester may read an object. -/
def mayRead (s : State) (a : Actor) (idx sub : Nat) : Bool :=
  match a.1 with
  | 0 | 1 => true
  | 2 => openRead idx sub || (objOwner s a idx sub).any fun p => actorPart a == some p
  | 3 => !(idx = 0x1800 && sub = 0x10)
  | _ => idxIn idx 0x1000 0x100A || idx = 0x4200

/-- Objects that PF0 alone uses, in the bring-up state with full rights (R441, R454). -/
def bringUpOnly (idx sub : Nat) : Bool := (idxIn idx 0x6100 0x6107 && sub = 0x20) || idx = 0x5300 || (idx = 0x8100 && sub = 0x10)

/-- A requester may write or stage an object, as far as rights go (R392 step 2). -/
def mayWrite (s : State) (a : Actor) (idx sub : Nat) : Bool :=
  if idx = 0x4200 then mayRead s a idx sub
  else if bringUpOnly idx sub then a.1 = 0 && s.power.bringUp == .full
  else if idxIn idx 0x6400 0x643F && (idx = 0x6400 && sub ≤ 6) then false
  else if idxIn idx 0x65F0 0x65F8 then a.1 ≤ 2 && a.2.val = idx - 0x65F0
  else if idxIn idx 0x9000 0x903F then (objOwner s a idx sub).any fun p => actorPart a == some p
  else if idx = 0x4000 then manages a && s.power.bringUp == .no
  else if manages a then true
  else if a.1 = 2 then
    (idx = 0xA000 && sub = 3) ||
    (idx = 0x5400 && (match objOwner s a idx sub with | some p => actorPart a == some p | none => true)) ||
    (idx ≠ 0x5000 && idx ≠ 0x1900 && (idxIn idx 0x7200 0x720F → sub ≠ 9) && (objOwner s a idx sub).any fun p => actorPart a == some p) ||
    (idx = 0x1900 && sub = 0x10)
  else false

/-- In ROM recovery only these objects are served, to PF0 and MANAGE sessions (R445). -/
def romServes (idx sub : Nat) : Bool :=
  idx = 0x1000 || idx = 0x1008 || idx = 0x4100 || idx = 0x4200 || (idx = 0x2400 && sub ≤ 1)

/-- What an object is, as a request finds it (R388, R445). -/
def objFound (s : State) (idx sub : Nat) : Option ObjInfo :=
  if s.power.bringUp = .rom && !romServes idx sub then none else objInfo idx sub

/-! ## Values -/

def boolB (b : Bool) : List Byte := [if b then 1 else 0]
def tupleB (l : List (Nat × Nat)) : List Byte := l.flatMap fun x => leBytes x.1 x.2
def padTo (n : Nat) (b : List Byte) : List Byte := sliceZ b 0 n

/-- 0x6100 + n (R74, R50, R94): what stands in the Course; counters and τ elsewhere. -/
def courseValue (s : State) (n : Fin 8) (sub : Nat) : Option (List Byte) :=
  let k := s.courses[n]
  match sub with
  | 0x01 => some (leBytes 1 ((List.range 520).filter fun l => !k.laneMap.contains l && !k.badLanes.contains l).length)
  | 0x02 => some (leBytes 1 k.suspects)
  | 0x04 => some (k.laneMap.flatMap (leBytes 2))
  | 0x10 => some [k.sticky]
  | 0x20 => some (boolB k.check)
  | 0x40 => some (wordBytes k.offender)
  | _ => none

/-- 0x6200 and 0x6300 (R112, R117). -/
def trowelValue (s : State) (sub : Nat) : Option (List Byte) :=
  let t := s.trowels[fin8 (sub % 8)]
  match sub / 8 with
  | 2 => some [t.sticky]
  | 4 => some (leBytes 1 t.spares)
  | _ => none
def palletValue (s : State) (sub : Nat) : Option (List Byte) :=
  let p := s.pallets[fin8 (sub % 8)]
  match sub / 8 with
  | 2 => some (leBytes 1 ((List.range 136).filter fun b => !p.bankMap.contains b && !p.badBanks.contains b && p.freed ≠ some b).length)
  | 3 => some (p.bankMap.flatMap (leBytes 1))
  | _ => none

/-- 0x5000 to 0x5400 (R159). -/
def memValue (s : State) (idx sub : Nat) : Option (List Byte) :=
  let h := s.hbm
  if idx = 0x5000 then
    match sub with
    | 0x03 => some (leBytes 4 (h.inService.map fun k => 2 ^ k).sum)
    | 0x04 => some (leBytes 8 (mpaSize h - 2 ^ 33))
    | 0x10 => some (Config.reservationMap h.inService)
    | _ => if idxIn sub 0x40 0x47 then some (padTo 256 (objBytes s 0 idx sub [])) else none
  else if idxIn idx 0x5100 0x5113 then
    let t := h.stks[fin20 (idx - 0x5100)]
    match sub with
    | 0x01 => some (leBytes 1 t.state)
    | 0x02 => some (t.pcMap.flatMap (leBytes 1))
    | 0x12 => some (wordBytes t.lastUe)
    | 0x13 => some (leBytes 4 t.repaired.dedup.length)
    | _ => none
  else if idx = 0x5300 then
    match sub with
    | 0x01 => some (leBytes 1 h.marginStack)
    | 0x05 => some (leBytes 1 h.marginState)
    | 0x06 => some (h.eyeMap.flatMap wordBytes)
    | _ => none
  else none

/-- A table of `n` entries of which those that are not zero are listed. -/
def tableB {w : Nat} (n first : Nat) (l : List (Nat × BitVec w)) : List Byte := (List.range n).flatMap fun i => wordBytes (assocGet l (first + i) 0)

/-- 0x1900 and the tables of functions (R198, R178, R194). A VF sees its own counts; PF0 the port's (R198). -/
def portValue (s : State) (a : Actor) (idx sub : Nat) : Option (List Byte) :=
  if idx = 0x1900 then
    let h := s.host
    match sub with
    | 0x01 => some ([if h.rate = 0 then Config.slowRate else BitVec.ofNat 8 ([2, 5, 8, 16, 32, 64].getD h.rate 0)] ++ leBytes 1 h.width ++ boolB h.flit ++ leBytes 1 h.retimers)
    | 0x04 | 0x05 =>
      some (leBytes 8 (if a.1 = 2 then ctrGet s a.2 idx sub else ((List.range 9).map fun f => ctrGet s f idx sub).sum))
    | _ => none
  else if idxIn idx 0x65F0 0x65F8 then some (tableB 4096 0 s.host.funcs[fin9 (idx - 0x65F0)].hostRegions)
  else if idxIn idx 0x1910 0x1918 then
    some (match objBytes s 0 idx sub [] with
      | [] => (List.range 2048).flatMap fun _ => [0, 0, 0, 0, 1, 0, 0, 0]
      | b => padTo 16384 b)
  else none

/-- The stream block of R188. -/
def streamBlock (k : Stream) : List Byte :=
  leBytes 8 k.accepted.toNat ++ leBytes 8 k.retired.toNat ++ leBytes 8 k.hostack.toNat ++ leBytes 1 (streamCode k.state) ++
    leBytes 1 (haltCode k.halt) ++ List.replicate 6 0

/-- Record n of the retirement history at 64 × (n mod 4,096) (R218). -/
def historyB (k : Stream) : List Byte :=
  (List.range 4096).flatMap fun j => match k.history.find? fun x => x.1.toNat % 4096 = j with | some x => wordBytes x.2 | none => List.replicate 64 0

/-- 0x6400 + q, 0x6480 + f and 0x6500 (R199, R223). Stream 0's rings are those of the capability (R196). -/
def streamValue (s : State) (a : Actor) (idx sub : Nat) : Option (List Byte) :=
  if idxIn idx 0x6400 0x643F then
    let q := idx - 0x6400
    let k := stream s a.2 q
    let d := s.host.funcs[a.2].dvsec
    match sub with
    | 0x02 => if q = 0 then some (leBytes 8 (fld d 127 64)) else none
    | 0x03 => if q = 0 then some (leBytes 8 (fld d 255 192)) else none
    | 0x04 => if q = 0 then some (leBytes 8 (fld d 191 128)) else none
    | 0x05 => if q = 0 then some (leBytes 1 (fld d 39 36)) else none
    | 0x06 => if q = 0 then some (leBytes 4 (fld d 63 44 + place 31 (fld d 43 43))) else none
    | 0x10 => some (leBytes 1 (streamCode k.state))
    | 0x11 => some (leBytes 1 (haltCode k.halt))
    | 0x12 => some (wordBytes k.detail)
    | 0x20 => some (wordBytes k.accepted)
    | 0x21 => some (wordBytes k.retired)
    | 0x22 => some (wordBytes k.hostack)
    | 0x30 => some (historyB k)
    | 0x31 | 0x32 | 0x33 => some (leBytes 8 (ctrGet s a.2 idx sub))
    | _ => none
  else if idxIn idx 0x6480 0x6488 then some ((List.range 64).flatMap fun q => streamBlock (stream s (fin9 (idx - 0x6480)) q))
  else if idx = 0x6500 then
    match sub with
    | 0x01 => some (tableB 4095 1 s.host.funcs[a.2].events)
    | 0x03 => some (leBytes 1 (if journalLost s then 2 else if s.journal.copyA && s.journal.copyB then 0 else 1))
    | _ => none
  else none

/-- 0x7000 to 0x7100 + p (R262). -/
def riggerValue (s : State) (idx sub : Nat) : Option (List Byte) :=
  let r := s.rigger
  if idx = 0x7000 then
    match sub with
    | 0x03 => some (leBytes 1 r.sync.state ++ leBytes 1 r.sync.tdist ++ leBytes 1 (match r.sync.upstream with | some p => p.val | none => 0xFF) ++
        leBytes 4 (toField 32 r.sync.theta))
    | 0x05 => some (r.lasers.flatMap fun l =>
        leBytes 1 l.group ++ (if l.power < 65536 then leBytes 2 l.power else wordBytes (Config.laserReading l.power)))
    | _ => if idxIn sub 0x10 0x17 then (let b := r.banks[fin8 (sub - 0x10)]; some (b.map.flatMap (leBytes 1) ++ leBytes 1 (b.spare.getD 0xFF))) else none
  else if idxIn idx 0x7100 0x710F then
    let k := r.ports[fin16 (idx - 0x7100)]
    match sub with
    | 0x01 => some (leBytes 1 (match k.state with | .down => 0 | .training => 1 | .up => 2))
    | 0x02 => some (leBytes 1 k.lanes)
    | 0x03 => some (leBytes 4 (k.peer.getD 0xFFFFFFFF))
    | _ => none
  else if idx = 0x7400 then some (padTo 32768 (objBytes s 0 idx sub []))
  else none

/-- The code of a Finish state (R336). -/
def finCode (f : FinState) : Nat := match f with | .idle => 0 | .running => 1 | .voting => 2 | .unresolved => 3 | .decided => 4

/-- 0x7200 + c (R296, R355). -/
def crewValue (s : State) (c : Fin 16) (sub : Nat) : Option (List Byte) :=
  let k := s.crews[c]
  match sub with
  | 0x01 => some (crewStateBytes s c)
  | 0x07 => some (leBytes 4 (k.rank.getD 0xFFFFFFFF))
  | 0x08 => some (wordBytes k.hash)
  | 0x0E => some (crewProblemBytes s c)
  | 0x24 => some ((List.range 64).flatMap fun t =>
      leBytes 8 (k.bubbles.getD t 0 + (((stagesOf s c).filter fun st => st % 64 = t).map (bubbleNow s c)).sum))
  | 0x25 => some (leBytes 8 (ctrGet s 0 (crewIdx c) 0x25 + (k.p2p.map (creditWait s.now)).sum))
  | 0x3D => some (leBytes 8 k.lastFinished.toNat)
  | 0x3E => some (leBytes 1 (finCode k.fin) ++ leBytes 1 (match k.attempt with | some a => a.number | none => k.nextAttempt - 1) ++
      wordBytes k.term ++ leBytes 8 (match k.launch with | some l => l.stroke.toNat | none => k.lastFinished.toNat))
  | 0x3F => some (k.log.flatMap fun e => padTo 32 (Config.decisionEntry e.stroke.toNat e.attempt e.decision e.cause e.term.toNat e.time.toNat))
  | 0x40 => some (cardRingRead s 0 (2 ^ 30))
  | 0x41 => some (leBytes 1 k.rejoin)
  | _ => none

/-- The collective tables and Cox objects of partitions (R271, R286, R322). -/
def coxValue (s : State) (idx sub : Nat) : Option (List Byte) :=
  if idxIn idx 0x7280 0x7287 then some (tableB 4096 0 s.host.funcs[funcOf (fin8 (idx - 0x7280))].collRegions)
  else if idxIn idx 0x7290 0x7297 then some (tableB 4095 1 s.host.funcs[funcOf (fin8 (idx - 0x7290))].handles)
  else if idx = 0x7300 then
    if sub = 0xF0 then some (leBytes 1 s.pointing.coxSpares.toList.sum)
    else if idxIn sub 0x81 0x88 then
      let p := fin8 (sub - 0x81)
      some ((List.range (layerCount s p)).flatMap fun k => wordBytes (layerReads s p k))
    else none
  else none

/-- The state codes of a session: those of R372 in order. -/
def sessCode (t : SessState) : Nat := match t with | .closed => 0 | .opening => 1 | .opened => 2 | .suspect => 3

/-- A session's 32 bytes at 0x1800:04. -/
def sessBytes (k : Session) : List Byte :=
  leBytes 1 (sessCode k.state) ++ leBytes 1 k.addr.toNat ++ leBytes 1 (if k.state = .closed then 0 else k.anchor.val) ++ [0] ++ wordBytes k.sid ++
    leBytes 4 (k.rto / 1000) ++ leBytes 1 k.unacked.length ++ List.replicate 11 0 ++ wordBytes k.lastRx

/-- 0x1800 (R387). -/
def evoluValue (s : State) (sub : Nat) : Option (List Byte) :=
  match sub with
  | 0x01 => some (evoluBytes s)
  | 0x02 => some (leBytes 1 s.evolu.addr.toNat)
  | 0x03 => some (wordBytes s.evolu.epoch)
  | 0x04 => some (s.evolu.sessions.toList.flatMap sessBytes)
  | _ => none

/-- A status record a requester sees (R407). -/
def seesSet (a : Actor) (h : Holder) (s : State) : Bool :=
  oversees a || (match h with | .fn f => decide (f = a.2) && a.1 = 2 | .sess _ _ => a.1 = 2 && actorHolder s h == a)

/-- A requester holds the open set. -/
def holds (s : State) (r : Req) (h : Holder) : Bool :=
  match r, h with
  | .fn f, .fn g => f = g
  | .sess i, .sess j a => i = j && s.evolu.sessions[i].anchor = a
  | _, _ => false

/-- The record of the open set, 0xA000:01; also the holder record an OPEN is refused with (R398). -/
def openSetBytes (s : State) : List Byte :=
  match s.dict.openSet with
  | none => List.replicate 13 0
  | some o =>
    let (k, n) := holderCode o.holder
    leBytes 1 (if o.checked then 2 else 1) ++ wordBytes o.id ++ leBytes 1 k ++ leBytes 1 n ++ leBytes 2 o.staged.length ++
      leBytes 4 ((o.lease.toNat - s.now.toNat) / 1000000)

/-- The 16 bytes of a conflict record (R401). -/
def conflictBytes (c : Conflict) : List Byte :=
  let second : Nat × Nat := match c.k2 with | some k => (k.idx, k.sub) | none => (0, 0)
  leBytes 2 c.code ++ leBytes 2 c.k1.idx ++ leBytes 1 c.k1.sub ++ [0] ++ leBytes 2 second.1 ++ leBytes 1 second.2 ++ [0, 0, 0] ++ wordBytes c.detail

/-- 0xA000 and 0xA100 (R408). -/
def setValue (s : State) (a : Actor) (idx sub : Nat) : Option (List Byte) :=
  if idx = 0xA000 then
    match sub with
    | 0x01 => some (openSetBytes s)
    | 0x04 => some (leBytes 4 10000)
    | 0x05 => some (leBytes 2 4096)
    | 0x06 => some (match s.dict.openSet with
        | some o => o.staged.flatMap fun x => leBytes 2 x.1.idx ++ leBytes 1 x.1.sub ++ [0]
        | none => [])
    | _ => none
  else if idx = 0xA100 then
    let mine := s.dict.history.filter fun r => seesSet a r.holder s
    match sub with
    | 0x01 => some ((mine.filter fun r => r.outcome = 0).flatMap setRecBytes)
    | 0x02 => some (mine.flatMap setRecBytes)
    | 0x03 => some (s.dict.conflicts.flatMap conflictBytes)
    | 0x04 => some (wordBytes s.dict.lastId)
    | _ => none
  else none

/-- 0x1000 to 0x100A (R409). -/
def identityValue (s : State) (idx sub : Nat) : Option (List Byte) :=
  match idx, sub with
  | 0x1000, 0x01 => some (wordBytes Config.vendorId)
  | 0x1000, 0x02 => some (ascii "KRF-1440")
  | 0x1000, 0x03 => some (ascii "B0")
  | 0x1000, 0x04 => some (wordBytes Config.serial)
  | 0x1000, 0x05 => some (leBytes 4 (moduleState s))
  | 0x1000, 0x06 => some ((unitsInService s).flatMap (leBytes 1))
  | 0x1008, 0x01 => some (leBytes 1 s.sec.running)
  | 0x1008, 0x02 => some (leBytes 4 (imgVersion s.sec.imageA))
  | 0x1008, 0x03 => some (leBytes 4 (imgVersion s.sec.imageB))
  | 0x1008, 0x04 => some (wordBytes Config.romVersion)
  | 0x100A, 0x01 => some (wordBytes Config.numericRevision)
  | _, _ => none

/-- The most pressing of an activity's units: one listed with the highest state and the oldest completion (R412). -/
def actShown (s : State) (id : Nat) : Activity :=
  (s.pointing.acts.filter fun x => x.id = id).foldl (fun b x =>
    if b.state < x.state || (b.state = x.state && x.done.toNat < b.done.toNat) then x else b) ⟨id, 0, 0, (actOf s id 0).done, [], false⟩

/-- Time to an activity's deadline in s. -/
def actLeft (s : State) (x : Activity) : Nat := (actDeadline s x.id x.unit - (s.now.toNat - x.done.toNat)) / 1000000000

/-- The log ring: entry n at 16 × (n mod 65,536) (R423). -/
def logBytes (s : State) : List Byte :=
  let l := s.pointing.log.reverse
  let p := s.pointing.written % 65536
  let ring := if s.pointing.written ≤ 65536 then l else l.drop (65536 - p) ++ l.take (65536 - p)
  ring.flatMap wordBytes

/-- 0x8000 and 0x8100 (R424). -/
def pointingValue (s : State) (idx sub : Nat) : Option (List Byte) :=
  let x := s.pointing
  match idx, sub with
  | 0x8000, 0x01 =>
    let urgent := (List.range 8).filter fun i => x.acts.any fun y => y.id = i + 1 && y.state = 2
    some (leBytes 1 (urgent.map fun i => 2 ^ i).sum ++ leBytes 1 x.repairs.length ++ leBytes 8 x.written)
  | 0x8000, 0x02 => some ((List.range 8).flatMap fun i =>
      let y := actShown s (i + 1)
      leBytes 1 (i + 1) ++ leBytes 1 y.state ++ [0, 0] ++ leBytes 4 (actLeft s y) ++ wordBytes y.done)
  | 0x8000, 0x30 => some (padTo 1048576 (logBytes s))
  | 0x8100, 0x01 =>
    let lanes := (s.courses.toList.map fun k => ((List.range 520).filter fun l => !k.laneMap.contains l && !k.badLanes.contains l).length).sum
    let banks := (s.pallets.toList.map fun p => ((List.range 136).filter fun b => !p.bankMap.contains b && !p.badBanks.contains b).length).sum
    some (leBytes 2 lanes ++ leBytes 2 banks ++ leBytes 2 (s.trowels.toList.map (·.spares)).sum ++ leBytes 2 x.coxSpares.toList.sum ++
      leBytes 1 (x.clusters.toList.map fun k => k.spares.length).sum ++ leBytes 1 (if x.mgmtSpare.isSome then 1 else 0) ++
      leBytes 1 (s.rigger.banks.toList.filter fun b => b.spare.isSome).length ++
      leBytes 1 (s.rigger.lasers.filter fun l => l.group = 0xFF && !l.failed).length)
  | 0x8100, 0x02 => some (leBytes 4 (x.degraded.toNat % 2 ^ 31 + place 31 (if s.power.quiesced then 1 else 0)))
  | 0x8100, 0x03 => some (Config.repairMap (assocGet s.dict.gens ⟨0, 0x8100, 3⟩ 0).toNat)
  | _, _ => none

def i16 (x : Int) : List Byte := leBytes 2 (toField 16 x)

/-- 0x2000 to 0x2400 (R442). -/
def powerValue (s : State) (idx sub : Nat) : Option (List Byte) :=
  let p := s.power
  match idx, sub with
  | 0x2000, 0x01 => some (leBytes 4 p.mv)
  | 0x2000, 0x02 => some (leBytes 4 (avgPower p))
  | 0x2000, 0x03 => some (leBytes 8 (p.energy / 1000000))
  | 0x2000, 0x04 => some (leBytes 1 p.lastShut.1 ++ wordBytes p.lastShut.2.1 ++ leBytes 4 (toField 32 p.lastShut.2.2))
  | 0x2100, 0x02 => some (capBytes p)
  | 0x2200, 0x01 => some (i16 (hottest p.junctions))
  | 0x2200, 0x02 => some ((p.junctions ++ p.stackTemps).flatMap i16)
  | 0x2200, 0x03 => some (throttleBytes p)
  | 0x2200, 0x05 => some (padTo 4 (Config.coldPlate s.now.toNat))
  | 0x2300, 0x01 => some (tupleB [(2, p.aclk), (2, p.cclk), (2, p.uclk)])
  | 0x2300, 0x02 => some (refBytes p)
  | 0x2400, 0x02 => some (tupleB [(8, p.parts), (8, p.funcs), (4, p.warms), (4, p.dogs)])
  | 0x2400, 0x04 => some (leBytes 1 p.cause)
  | 0x2400, 0x05 => some (leBytes 4 p.colds)
  | 0x2400, 0x06 => some (leBytes 1 p.removal)
  | _, _ => none

/-- 0x4000 to 0x4200 (R456). -/
def securityValue (s : State) (r : Req) (idx sub : Nat) : Option (List Byte) :=
  match idx, sub with
  | 0x4000, 0x10 => some (leBytes 1 (((List.range 8).filter (partValid s)).map fun n => 2 ^ n).sum)
  | 0x4100, 0x01 => some (padTo 1952 (Config.dsaPublic Config.seedKey))
  | 0x4100, 0x02 => some (wordBytes Config.vendorKeyHash)
  | 0x4100, 0x03 => some (wordBytes s.sec.owner)
  | 0x4100, 0x05 => some (leBytes 1 s.sec.rollback)
  | 0x4100, 0x13 => some (tupleB [(1, s.sec.boot.1), (1, s.sec.boot.2.1), (1, s.sec.boot.2.2)])
  | 0x4200, 0x02 => some (reportOf s r)
  | _, _ => none

/-- 0x9000 to 0x9803 (R459, R472). -/
def counterValue (s : State) (idx sub : Nat) : Option (List Byte) :=
  if idxIn idx 0x9000 0x904F then
    match s.counters.groups[idx - 0x9000]? with
    | some g =>
      if sub = 1 then some g.config
      else if sub = 2 then some (leBytes 1 g.state ++ leBytes 8 g.records ++ leBytes 8 g.lost ++ leBytes 8 (ringHead s (idx - 0x9000) g.config))
      else none
    | none => none
  else
    let t := s.counters.trace
    match idx, sub with
    | 0x9050, 0x01 => some (devRead s 2 0 (2 ^ 28))
    | 0x9800, 0x02 => some (match objBytes s 0 idx sub [] with
        | [] => (List.range 4).flatMap fun _ => 0xFF :: List.replicate 67 0
        | b => padTo 272 b)
    | 0x9801, 0x01 => some (leBytes 1 t.state ++ leBytes 8 t.head ++ leBytes 8 t.written)
    | 0x9801, 0x02 => some (t.spill.readN 0 (2 ^ 28))
    | _, _ => none

/-- Type and record definitions (R410). -/
def typeValue (idx sub : Nat) : Option (List Byte) :=
  match recordFields idx with
  | some fs => if sub = 1 then some (leBytes 1 fs.length) else some (fs.flatMap (leBytes 1))
  | none => if idxIn idx 1 13 && sub = 1 then some (leBytes 4 (typeSize idx)) else none

/-- What a unit, a register or a table holds for an object; none where it stands in the dictionary's own values or counters. -/
def hookValue (s : State) (r : Req) (idx sub : Nat) : Option (List Byte) :=
  let a := actorOf s r
  if idx ≤ 0xFF then typeValue idx sub
  else if idxIn idx 0x1000 0x17FF then identityValue s idx sub
  else if idx = 0x1800 then evoluValue s sub
  else if idxIn idx 0x1900 0x19FF || idxIn idx 0x65F0 0x65F8 then portValue s a idx sub
  else if idxIn idx 0x2000 0x2FFF then powerValue s idx sub
  else if idxIn idx 0x4000 0x4FFF then securityValue s r idx sub
  else if idxIn idx 0x5000 0x5FFF then memValue s idx sub
  else if idxIn idx 0x6100 0x6107 then courseValue s (fin8 (idx - 0x6100)) sub
  else if idx = 0x6200 then trowelValue s sub
  else if idx = 0x6300 then palletValue s sub
  else if idxIn idx 0x6400 0x65EF then streamValue s a idx sub
  else if idxIn idx 0x7000 0x71FF || idx = 0x7400 then riggerValue s idx sub
  else if idxIn idx 0x7200 0x720F then crewValue s (fin16 (idx - 0x7200)) sub
  else if idxIn idx 0x7280 0x7300 then coxValue s idx sub
  else if idxIn idx 0x8000 0x8FFF then pointingValue s idx sub
  else if idxIn idx 0x9000 0x9FFF then counterValue s idx sub
  else if idxIn idx 0xA000 0xAFFF then setValue s a idx sub
  else none

/-- The committed value of an object as a requester reads it (R393). -/
def objValue (s : State) (r : Req) (idx sub : Nat) (i : ObjInfo) : List Byte :=
  if sub = 0 then leBytes 1 ((highestSub idx).getD 0) else
  match hookValue s r idx sub with
  | some b => b
  | none =>
    if i.access = 2 || i.access = 4 then
      let k := keyOf (actorOf s r) idx sub
      objBytes s k.f idx sub i.dflt
    else leBytes i.size (ctrGet s 0 idx sub)

/-- Bytes of an object without reading it; the three rings are too long to be read to be measured. -/
def objLen (s : State) (r : Req) (idx sub : Nat) (i : ObjInfo) : Nat :=
  if (idxIn idx 0x7200 0x720F && sub = 0x40) || (idx = 0x9050 && sub = 1) || (idx = 0x9801 && sub = 2) then i.size
  else (objValue s r idx sub i).length

/-- Part of an object. -/
def objPartRead (s : State) (r : Req) (idx sub : Nat) (i : ObjInfo) (off n : Nat) : List Byte :=
  let m := min n (objLen s r idx sub i - off)
  if idxIn idx 0x7200 0x720F && sub = 0x40 then cardRingRead s off m
  else if idx = 0x9050 && sub = 1 then devRead s 2 off m
  else if idx = 0x9801 && sub = 2 then s.counters.trace.spill.readN off m
  else ((objValue s r idx sub i).drop off).take n

/-- A part of the Card ring that a partition may not read: it holds another partition's Card (R346). -/
def foreignCard (s : State) (a : Actor) (idx sub off n : Nat) : Bool :=
  a.1 = 2 && idxIn idx 0x7200 0x720F && sub = 0x40 && s.cards.whole.any fun (o, l, p) => actorPart a != some p && overlaps (o, l) (off, n)

end Sys2Proof.Machine
end

