-- ==== Sys2Proof/Machine/Hbm.lean ====
section
/-! DEFINITION. HBM and its base dies (07): memory-side adds, bandwidth regulators, scrub, row repair, pseudo-channel exchange,
retirement requests, and margining. -/

namespace Sys2Proof.Machine

open Sys2Proof

/-- A CONVERT read of the word at an address of a FIXED64 region by a requester of partition `p` (R149): binary32 and the flags of
`from_fixed`; a raw word without CONVERT. An uncorrectable sector answers HBM_UE (R153), an address outside the regions OUT_OF_BOUNDS. -/
def memoryRead (s : State) (p : Fin 8) (a : Nat) (conv : Bool) : State :=
  let as := (List.range 8).map (a + ·)
  match as.find? fun x => (hbmAt s p x).isNone with
  | some _ => emit s (.memory .outOfBounds 0 0)
  | none =>
    match ueAt s (some p) as with
    | some x => emit (ueEventAt s (some p) x) (.memory .hbmUe 0 0)
    | none =>
      let s := hbmTraffic (hbmFix s (some p) as) (some p) as
      let w := BitVec.ofNat 64 (ofLe (hbmReadN s p a 8))
      match adderAt s p a with
      | some (_, _, 4, sc) =>
        if conv then let (x, fl) := fromFixed w sc; emit s (.memory .none (x.setWidth 64) fl) else emit s (.memory .none w 0)
      | _ => emit s (.memory .none w 0)

/-- An add of `v`, whose element format is `fmt`, at HBM address `a` of partition `p` (R148). The base die answers with the flags, or
with ADDER_REGION where no adder region of that format holds the element, or with HBM_UE for an uncorrectable sector, which it leaves
as it is (R153). -/
def memoryAdd (s : State) (p : Fin 8) (a fmt : Nat) (v : BitVec 64) : State :=
  let as := (List.range (adderBytes fmt)).map (a + ·)
  let fits : Bool := match adderAt s p a with
    | some (base, size, m, _) => m == fmt && (a - base) % adderBytes fmt == 0 && decide (a + adderBytes fmt ≤ base + size)
    | none => false
  if !fits || (hbmAt s p a).isNone then emit s (.memory .adderRegion 0 0) else
  match ueAt s (some p) as with
  | some x => emit (ueEventAt s (some p) x) (.memory .hbmUe 0 0)
  | none =>
    let s := hbmTraffic (hbmFix s (some p) as) (some p) as
    let (s, fl) := hbmAdds s p fmt [(a, v.toNat % 2 ^ (8 * adderBytes fmt))]
    emit s (.memory .none 0 fl)

/-- MEMORY_SIDE_ADD (R148, R149): what a base die does at HBM address `a` of partition `p`: an add of `v`, or a read with or without the
CONVERT attribute (log 40). -/
def execMemorySideAdd (p : Fin 8) (a : Nat) (op : MemOp) (s : State) : Host.Outcome State Fault Refusal :=
  powered s (
    match op with
    | .add fmt v => memoryAdd s p a fmt v
    | .read conv => memoryRead s p a conv)

/-- REGULATOR_REQUEST (R150): a request of `n` charged bytes, of a partition or of the device, is served, or waits for tokens. -/
def execRegulatorRequest (p : Option (Fin 8)) (k : Fin 20) (n : Nat) (s : State) : Host.Outcome State Fault Refusal :=
  powered s (regAsk s [⟨p, k, n, 0, s.now⟩])

/-! ## Errors and repair (R152 to R156) -/

/-- The MPA of a byte of a pseudo-channel of a stack (R140, R141); none for a stack out of service. -/
def placeMpa (h : Hbm) (k pc o : Nat) : Option Nat :=
  match h.inService.idxOf? k with
  | none => none
  | some i =>
    let G := 2 ^ h.granule
    match (finePcs h).idxOf? pc with
    | some j => some ((((o / G) * (finePcs h).length + j) * h.inService.length + i) * G + o % G)
    | none =>
      match (coarsePcs h).idxOf? pc with
      | some j => some (fineSize h + (i * (coarsePcs h).length + j) * pcBytes + o)
      | none => none

/-- A sector that patrol scrub reads, with `errs` new erroneous symbols beside what the state holds of it: one that no read has
corrected, or an uncorrectable sector, which stays so. One erroneous symbol is corrected and counted. Two make the sector
uncorrectable; three or more are found or not, by a free value. An uncorrectable sector is counted, latched, logged and reported,
fails no command, and its row waits for repair (R152, R154). R154 has it entered in the Pointing log and names no kind: the model
enters kind 7, which R348 gives to an HBM repair (DESIGN CHOICE, log 40). -/
def scrubSector (s : State) (k : Fin 20) (pc : Fin 64) (off errs : Nat) : State :=
  match placeMpa s.hbm k pc (off / 32 * 32) with
  | none => s
  | some m =>
    let x := place3 k pc (off / 32 * 32)
    let bad := s.hbm.ue.contains x
    let n := errs + (if s.hbm.ce.contains x then 1 else 0)
    if n = 0 && !bad then s
    else if n = 1 && !bad then correctSector s x
    else
      let (found, s) := if bad || n = 2 then (true, s) else let (v, s) := fresh s; (v.getLsbD 0, s)
      if !found then s else
      let s := { s with hbm := { s.hbm with ue := if bad then s.hbm.ue else x :: s.hbm.ue, ce := s.hbm.ce.filter (· ≠ x) } }
      (pointLog (ueEvent s 2 m) 7 k 0)

/-- PATROL_SCRUB (R154): one sector is read. Scrub is suspended on a stack being margined (R158). The last sector of the last
pseudo-channel ends the pass: its duration, within the deadline, is a free value (R411, R412, R423). -/
def execPatrolScrub (k : Fin 20) (pc : Fin 64) (off errs : Nat) (s : State) : Host.Outcome State Fault Refusal :=
  powered s (
    if s.hbm.stks[k].suspended || pcBytes ≤ off then s else
    let s := scrubSector s k pc off errs
    if pc = 63 && off / 32 = pcBytes / 32 - 1 then
      let (v, s) := fresh s
      (actDone (pointLog s 9 k (v.toNat % 86400001)) 1 k)
    else s)

/-- ROW_REPAIR (R155, R414, R423): a row that calls for repair is copied to a spare row of its bank, uncorrectable sectors as they are, and
the repair enters the repair map and the log. Repair is suspended on a stack being margined (R158), and a bank with no spare row left
has none to give (R156). -/
def execRowRepair (k : Fin 20) (pc : Fin 64) (bank : Fin 48) (row : Nat) (s : State) : Host.Outcome State Fault Refusal :=
  powered s (
    if s.hbm.stks[k].suspended || !rowNeeds s k pc bank row || spareLeft s.hbm.stks[k] pc bank = 0 then s else
    let here (e : RowEvent) : Bool := e.pc = pc ∧ e.bank = bank ∧ e.row = row
    let s := updStack s k fun t =>
      { t with
        repaired := t.repaired ++ [(pc.val, bank.val, row)]
        events := (t.events.filter fun e => !here e || e.ue).map fun e => if here e then { e with cured := true } else e }
    let s := { s with pointing := { s.pointing with repairs := s.pointing.repairs.erase ⟨9, k⟩ } }
    let s := repairDone s
    (pointLog s 7 k 0))

/-- A pseudo-channel needs remapping (R156): a bank of it has no spare row left, or it has shown uncorrectable errors in 16 or more
distinct rows within 24 h. -/
def needsRemap (s : State) (k : Fin 20) (pc : Nat) : Bool :=
  let t := s.hbm.stks[k]
  ((List.range 48).any fun b => spareLeft t pc b = 0) ||
    16 ≤ (((t.events.filter fun e => e.pc = pc && e.ue && (s.now - e.time).toNat ≤ dayNs).map fun e => (e.bank, e.row)).dedup).length

/-- The window of coarse pseudo-channel pc of a stack: its first MPA. -/
def windowMpa (h : Hbm) (k pc : Nat) : Option Nat := placeMpa h k pc 0

/-- A coarse window that a region touches. -/
def windowUsed (s : State) (m : Nat) : Bool :=
  (List.range 8).any fun p => (regions s (fin8 p)).any fun (_, sz, base, _) => overlaps (base, sz) (m, pcBytes)

/-- A free coarse pseudo-channel of a stack: no region and no reservation uses it, and it has not been exchanged (R156). -/
def freeCoarse (s : State) (k : Fin 20) (pc : Nat) : Option Nat :=
  (coarsePcs s.hbm).find? fun c =>
    c != pc && !s.hbm.stks[k].goneWindows.contains c && !(c == 63 && reservedAt s.hbm k 0) &&
    match windowMpa s.hbm k c with
    | some m => !windowUsed s m
    | none => false

/-- Numbers a and b change places. -/
def swapped (a b x : Nat) : Nat := if x = a then b else if x = b then a else x

/-- PSEUDO_CHANNEL_REMAP (R156): pseudo-channel pc, where it needs remapping, is exchanged for a free coarse one of its stack, whose window
leaves the pool; addresses and contents keep their meaning, and what is known of the rows goes with the physical channels. With none free
the stack enters RETIRE_PENDING and goes on serving. Repair is suspended on a stack being margined (R158). -/
def execPseudoChannelRemap (k : Fin 20) (pc : Fin 64) (s : State) : Host.Outcome State Fault Refusal :=
  powered s (
    if !s.hbm.inService.contains k.val || s.hbm.stks[k].suspended || !needsRemap s k pc then s else
    match freeCoarse s k pc with
    | some c =>
      let s := updStack s k fun t =>
        { t with
          pcMap := (t.pcMap.set pc (t.pcMap.getD c c)).set c (t.pcMap.getD pc pc)
          goneWindows := t.goneWindows ++ [c]
          repaired := t.repaired.map fun r => (swapped pc c r.1, r.2)
          events := t.events.map fun e => { e with pc := swapped pc c e.pc } }
      let s := genBump (repairDone s) 0 (0x5100 + k) 2
      (pointLog s 7 k 0)
    | none =>
      if s.hbm.stks[k].state ≠ 0 then s else
      let s := updStack s k fun t => { t with state := 1 }
      let live (x : Session) : Bool := (x.state == .opened || x.state == .suspect) && (x.role == 0 || x.role == 2)
      (setDegraded (raiseTo s live 8 3 k ([0xFF] ++ List.replicate 15 0)) 7))

/-- A retirement named at 0x5100 + k:03 (R157): it happens at the next warm reset. -/
def askRetire (s : State) (k : Fin 20) (v : Byte) : State :=
  if v = 0 then s else updStack s k fun t => { t with retireAsked := true }

/-! ## Margining (R158) -/

/-- Pointing works on every stack again. -/
def resumeStacks (s : State) : State :=
  let free (t : Stack) : Stack := { t with suspended := false }
  { s with hbm := { s.hbm with stks := s.hbm.stks.map free } }

/-- A write to 0x5300:01 with the rights of R158: Pointing leaves the stack alone, or 0xFF ends margining and resumes it. -/
def setMarginStack (s : State) (v : Byte) : State :=
  let s := resumeStacks s
  if v.toNat < 20 then
    let s := updStack s (fin20 v.toNat) fun t => { t with suspended := true }
    { s with hbm := { s.hbm with marginStack := v.toNat, marginState := 0, marginRun := false } }
  else { s with hbm := { s.hbm with marginStack := 0xFF, marginState := 0, marginRun := false } }

/-- A write to 0x5300:03: the sweep runs over the READY stack, whose contents are undefined from then on. -/
def startMargin (s : State) (v : Byte) : State :=
  if v = 0 || s.hbm.marginState ≠ 1 || s.hbm.marginStack ≥ 20 then s else
  let (g, s) := freshGen s
  let other (l : List Nat) := l.filter fun x => x / 2 ^ 37 ≠ s.hbm.marginStack
  { s with hbm := { s.hbm with marginRun := true, mem := s.hbm.mem.set (fin20 s.hbm.marginStack) ⟨g, []⟩, ue := other s.hbm.ue, ce := other s.hbm.ce } }

/-- MARGINING_READY (R158): the named stack is quiesced. -/
def execMarginingReady (s : State) : Host.Outcome State Fault Refusal :=
  powered s (
    if s.hbm.marginStack < 20 && s.hbm.marginState = 0 then { s with hbm := { s.hbm with marginState := 1 } } else s)

/-- MARGINING_DONE (R158): the eye map is there: 2 × 204,800 counts. -/
def execMarginingDone (map : List (BitVec 16)) (s : State) : Host.Outcome State Fault Refusal :=
  powered s (
    if !s.hbm.marginRun then s else
    let m := map.take 409600 ++ List.replicate (409600 - map.length) 0
    (genBump { s with hbm := { s.hbm with marginRun := false, marginState := 2, eyeMap := m } } 0 0x5300 6))

/-- INVALID_SCRUB (R158): scrub would miss its deadline; Pointing ends the quiesce and the map is discarded. -/
def execInvalidScrub (s : State) : Host.Outcome State Fault Refusal :=
  powered s (
    if s.hbm.marginStack ≥ 20 || s.hbm.marginState = 3 then s else
    let s := resumeStacks s
    (genBump { s with hbm := { s.hbm with marginState := 3, marginRun := false, eyeMap := [] } } 0 0x5300 6))

end Sys2Proof.Machine
end

