-- ==== Sys2Proof/Machine/DictApply.lean ====
section
/-! DEFINITION. What objects accept and what a value does when it takes effect (16): types and ranges (R389, R392), effect classes
and agreement groups (R395, R396), conflicts (R401), and the effects of immediate writes, WO actions and change sets. -/

namespace Sys2Proof.Machine

open Sys2Proof

/-! ## Types and ranges (R389, R392) -/

/-- The type and length of a value are right: the abort code where they are not (R389). -/
def typeRefuse (i : ObjInfo) (d : List Byte) : Option Nat :=
  if i.ty = 11 || i.ty = 12 then (if i.size < d.length then some 0x0202 else none)
  else if d.length ≠ i.size then some 0x0201 else none

/-- Every BOOL of a value is 0 or 1 (R389). -/
def boolsOk (i : ObjInfo) (d : List Byte) : Bool :=
  if i.ty = 1 then leAt d 0 1 ≤ 1
  else (i.fields.foldl (fun (acc : Nat × Bool) t => (acc.1 + typeSize t, acc.2 && (t ≠ 1 || leAt d acc.1 1 ≤ 1))) (0, true)).2

/-- Entries of a table. -/
def entries (w : Nat) (d : List Byte) : List Nat := (List.range (d.length / w)).map fun i => leAt d (w * i) w

/-- A value of entries of w bytes, each of which `ok` allows. -/
def eachOk (w : Nat) (d : List Byte) (ok : Nat → Bool) : Bool := d.length % w = 0 && (entries w d).all ok

/-- A region entry (R143): RSV bits, and SIZE where VALID. -/
def regionOk (w : Nat) : Bool :=
  nfld w 63 49 = 0 && nfld w 18 4 = 0 && (!w.testBit 0 || (1 ≤ nfld w 33 19 && nfld w 33 19 ≤ 23040))

/-- A host region entry (R178). -/
def hostEntryOk (w : Nat) : Bool :=
  nfld w 191 181 = 0 && nfld w 135 5 = 0 && (!w.testBit 0 || (nfld w 255 192 % 4096 = 0 && 1 ≤ nfld w 180 156 && nfld w 180 156 ≤ 16777216))

/-- A collective region entry of partition p (R271). -/
def collEntryOk (s : State) (p : Fin 8) (w : Nat) : Bool :=
  let b := nfld w 127 78
  nfld w 47 3 = 0 && (!w.testBit 0 ||
    (b % 64 = 0 && !addrBad b && (aLoc b = 1 || (aLoc b = 0 && courseOwner s (fin8 (aCourse b)) == some p))))

/-- A send-on handle (R286). -/
def handleOk (w : Nat) : Bool := nfld w 55 1 = 0 && (!w.testBit 0 || (nfld w 127 88 % 512 = 0 && nfld w 87 56 % 512 = 0))

/-- A route (R255). -/
def routeOk (w : Nat) : Bool := nfld w 46 42 = 0 && nfld w 14 1 = 0

/-- Some entry of w bytes has a reserved bit set. -/
def anyRsv (w : Nat) (d : List Byte) (rs : List (Nat × Nat)) : Bool := (entries w d).any fun e => rs.any fun (h, l) => nfld e h l ≠ 0

/-- A value has a bit of an RSV field set (R6). -/
def valueRsv (idx sub : Nat) (d : List Byte) : Bool :=
  if idx = 0x5000 then 0x40 ≤ sub && anyRsv 8 d [(63, 49), (18, 4)]
  else if idxIn idx 0x65F0 0x65F8 then anyRsv 32 d [(191, 181), (135, 5)]
  else if idxIn idx 0x1910 0x1918 then anyRsv 8 d [(63, 48)]
  else if idxIn idx 0x6400 0x643F then sub = 6 && nfld (ofLe d) 30 20 ≠ 0
  else if idx = 0x7400 then anyRsv 8 d [(46, 42), (14, 1)]
  else if idxIn idx 0x7280 0x7287 then anyRsv 16 d [(47, 3)]
  else if idxIn idx 0x7290 0x7297 then anyRsv 16 d [(55, 1)]
  else if idx = 0x1800 then sub = 0x10 && anyRsv 40 d [(319, 280)]
  else if idx = 0x9800 then sub = 2 && anyRsv 68 d [(31, 16)]
  else false

/-- A trust anchor (R368). -/
def anchorOk (d : List Byte) (a : Nat) : Bool :=
  let role := leAt d (40 * a + 32) 1
  let part := leAt d (40 * a + 33) 1
  let valid := leAt d (40 * a + 34) 1
  leAt d (40 * a + 35) 5 = 0 && valid ≤ 1 && (valid = 0 || (role ≤ 2 && (if role = 1 then part < 8 else part = 0xFF)))

def between (lo hi v : Nat) : Bool := lo ≤ v && v ≤ hi

/-- A value lies within its object's own range (the Range column of each chapter; RSV bits are zero, R6). -/
def inRange (s : State) (idx sub : Nat) (d : List Byte) : Bool :=
  let v := ofLe d
  if idxIn idx 0x6100 0x6107 then (sub ≠ 0x40 || d.length = 32)
  else if idx = 0x5000 then (if sub = 2 then between 12 14 v else if 0x40 ≤ sub then eachOk 8 d regionOk else true)
  else if idx = 0x5300 then (sub ≠ 1 || v < 20 || v = 0xFF)
  else if idx = 0x5400 then
    (leAt d 0 1 < 8 || leAt d 0 1 = 0xFF) && leAt d 1 8 % 64 = 0 && leAt d 17 1 ≤ 4 &&
      (let k := sext 16 (leAt d 18 2); (-64 : Int) ≤ k && k ≤ 190)
  else if idxIn idx 0x65F0 0x65F8 then eachOk 32 d hostEntryOk
  else if idxIn idx 0x1910 0x1918 then eachOk 8 d fun w => nfld w 63 48 = 0
  else if idxIn idx 0x6400 0x643F then
    match sub with
    | 1 => between 1 3 v
    | 2 | 3 => v % 4096 = 0
    | 4 => v % 8 = 0
    | 5 => v ≤ 10
    | 6 => nfld v 30 20 = 0
    | 7 => between 250 100000 v
    | 8 => v < 2048 || v = 0xFFFF
    | _ => true
  else if idx = 0x6500 then between 1 4095 v
  else if idx = 0x7000 then (sub ≠ 1 || v < 131072 || v = 0xFFFFFFFF)
  else if idx = 0x7400 then eachOk 8 d routeOk
  else if idxIn idx 0x7200 0x720F then
    match sub with
    | 0x03 => between 1 131072 v
    | 0x04 => (entries 4 d).all fun g => 1 ≤ g
    | 0x06 => eachOk 4 d fun m => m < 131072
    | 0x09 => v < 8 || v = 0xFF
    | 0x0A => 1 ≤ v
    | 0x0B => between 16 20 v
    | 0x0C => between 1000 10000000 v
    | 0x0D => between 1 3 v
    | 0x30 => v < 16
    | 0x31 => v ≤ 2
    | 0x32 => between 10 10000000 v
    | 0x33 => between 1 16 v
    | 0x34 => between 1 4096 v
    | 0x35 => v < 2 ^ 48 && v % 64 = 0
    | 0x36 => v % 64 = 0
    | 0x37 => v % 4096 = 0
    | 0x3A => d.length % 4 = 0
    | 0x3C => leAt d 0 2 < 4096
    | _ => true
  else if idx = 0x7300 then
    match sub / 16 with
    | 0 => v % 128 = 0
    | 1 => v ≤ 16384
    | 2 => v % 64 = 0
    | 3 => v < 8 || v = 0xFF
    | 4 => v ≤ 25
    | 5 => v % 2048 = 0
    | 6 => v = 0 || 18874368 ≤ v
    | 7 => v ≤ 60
    | 9 => v < layerCount s (fin8 (sub % 16 - 1))
    | _ => true
  else if idxIn idx 0x7280 0x7287 then eachOk 16 d (collEntryOk s (fin8 (idx - 0x7280)))
  else if idxIn idx 0x7290 0x7297 then eachOk 16 d handleOk
  else if idx = 0x1800 then
    match sub with
    | 0x02 => between 1 62 v
    | 0x05 => between 1000 3600000 v
    | _ => d.length % 40 = 0 && (List.range (d.length / 40)).all (anchorOk d)
  else if idx = 0x8000 then
    if idxIn sub 0x11 0x18 then (if actDefault (sub - 0x10) = 0 && sub ≠ 0x18 || sub = 0x12 || sub = 0x16 then v = 0 else between 10 500 v)
    else (if actDefault (sub - 0x20) = 0 then v = 0 else between 1 (actDefault (sub - 0x20)) v)
  else if idx = 0x2100 then between 1200 3600 v
  else if idx = 0x2200 then between 85 100 v
  else if idx = 0x2400 then (sub ≠ 1 || between 1 2 v)
  else if idx = 0x4100 then
    match sub with
    | 0x04 => d.length = 32
    | 0x12 => v ≤ 1
    | _ => true
  else if idx = 0x4200 then d.length = 32
  else if idx = 0x9800 then
    if sub = 1 then leAt d 1 1 ≤ 1 else d.length % 68 = 0 && (List.range (d.length / 68)).all fun k => leAt d (68 * k + 2) 2 = 0
  else true

/-- Steps 5 and 6 of R392, with the group records' own codes (R460). -/
def valueRefuse (s : State) (idx sub : Nat) (i : ObjInfo) (d : List Byte) : Option Nat :=
  match typeRefuse i d with
  | some c => some c
  | none =>
    if !boolsOk i d || !inRange s idx sub d then some 0x0202
    else if idxIn idx 0x9000 0x904F then groupRefuse s (idx - 0x9000) d
    else none

/-! ## Effect classes and groups (R395, R396) -/

/-- 0 SAFE, 1 STROKE, 2 RESET, 0xFF none. -/
def classOf (idx sub access : Nat) : Nat :=
  if access ≠ 2 && access ≠ 4 then 0xFF else if strokeObj idx sub then 1 else if idx = 0x5000 && sub ≤ 2 then 2 else 0

/-- The agreement group of an object of function f; 0 none. -/
def groupOf (f idx sub : Nat) : Nat :=
  if idx = 0x5000 then (if sub = 1 || sub = 2 then 1 else if idxIn sub 0x40 0x47 then 0x10 + (sub - 0x40) else 0)
  else if idx = 0x5200 && 0 < sub then 0x20 + (sub - 1) % 20
  else if idxIn idx 0x7200 0x720F then (if idxIn sub 2 6 then 0x40 + (idx - 0x7200) else if idxIn sub 0x30 0x3C then 0x50 + (idx - 0x7200) else 0)
  else if idx = 0x7400 && sub = 1 then 0x60
  else if idx = 0x7300 && 0 < sub && sub ≤ 0x78 then 0x70 + (sub % 16 - 1)
  else if idxIn idx 0x6400 0x643F && idxIn sub 2 6 then 0x1000 + 64 * f + (idx - 0x6400)
  else 0

/-- The descriptor of an object (R393). -/
def descriptorOf (f idx sub : Nat) (i : ObjInfo) : List Byte :=
  let size := if i.ty = 11 || i.ty = 12 then i.size else if i.ty = 13 then i.size else typeSize i.ty
  leBytes 1 i.ty ++ leBytes 1 i.access ++ leBytes 1 (if i.stored then 1 else 0) ++ leBytes 1 (classOf idx sub i.access) ++
    leBytes 2 (groupOf f idx sub) ++ leBytes 2 (recordOf idx sub) ++ leBytes 4 size ++ List.replicate 4 0

/-! ## Conflicts (R401) -/

/-- Values laid over the committed ones. -/
def layOver (s : State) (vs : List (ObjKey × List Byte)) : State := vs.foldl (fun s x => setObj s x.1.f x.1.idx x.1.sub x.2) s

def conf (code : Nat) (k : ObjKey) (detail : Nat) : Conflict := ⟨code, k, none, BitVec.ofNat 32 detail⟩
def conf2 (code : Nat) (k k2 : ObjKey) (detail : Nat) : Conflict := ⟨code, k, some k2, BitVec.ofNat 32 detail⟩

/-- The first object of a set in an agreement group. -/
def inGroup (ks : List ObjKey) (g : Nat) : Option ObjKey := ks.find? fun k => groupOf k.f k.idx k.sub = g

/-- One conflict where a condition holds. -/
def when_ (b : Bool) (c : Conflict) : List Conflict := if b then [c] else []

/-- COARSE_SET and MAP_BUSY (R140, R142). -/
def mapConflicts (h : State) (ks : List ObjKey) : List Conflict :=
  match inGroup ks 1 with
  | none => []
  | some k =>
    let v := objNat h 0 0x5000 1 0xC000000000000000
    let n := ((List.range 64).filter v.testBit).length
    let owed := h.host.funcs.toList.any fun f => f.streams.any fun x => x.2.accepted ≠ x.2.retired
    let used := (List.finRange 8).any fun (p : Fin 8) => !(regions h p).isEmpty
    when_ (ks.any (fun k => k.idx = 0x5000 && k.sub = 1) && (!v.testBit 63 || 48 < n)) (conf 0x10 ⟨0, 0x5000, 1⟩ n) ++
      when_ (owed || used) (conf 0x11 k 0)

/-- Entries of a region table: number, MPA, size, COARSE (R143). -/
def regionEntries (t : List Byte) : List (Nat × Nat × Nat × Bool) :=
  (List.range 32).filterMap fun i =>
    let w := leAt t (8 * i) 8
    if w.testBit 0 then some (i, nfld w 48 34 * 2 ^ 26, nfld w 33 19 * 2 ^ 26, w.testBit 1) else none

/-- A region that crosses pools or windows, is in the wrong pool or in none. -/
def poolWrong (h : Hbm) (base size : Nat) (coarse : Bool) : Bool :=
  let fs := fineSize h
  let w0 := (base - fs) / pcBytes
  let gone := (List.finRange 20).any fun (k : Fin 20) => h.stks[k].goneWindows.any fun pc =>
    match placeMpa h k pc 0 with | some m => overlaps (m, pcBytes) (base, size) | none => false
  mpaSize h < base + size || (base < fs && fs < base + size) || coarse ≠ decide (fs ≤ base) ||
    (coarse && w0 ≠ (base + size - 1 - fs) / pcBytes) || gone

/-- A range of MPA overlaps a reservation (R144). -/
def meetsReserved (h : Hbm) (base size : Nat) : Bool :=
  h.inService.any fun k => reservedAt h k 0 && (match windowMpa h k 63 with | some m => overlaps (m, 2 ^ 29) (base, size) | none => false)

/-- REGION_POOL and REGION_OVERLAP. -/
def regionConflicts (h : State) (ks : List ObjKey) : List Conflict :=
  (List.finRange 8).flatMap fun (p : Fin 8) =>
    let k : ObjKey := ⟨0, 0x5000, 0x40 + p.val⟩
    if !ks.contains k then [] else
    let others := ((List.finRange 8).filter (· ≠ p)).flatMap fun q => (regions h q).map fun r => (r.2.2.1, r.2.1)
    (regionEntries (regionTable h p)).flatMap fun (i, base, size, coarse) =>
      when_ (poolWrong h.hbm base size coarse) (conf 0x12 k i) ++
        when_ (meetsReserved h.hbm base size || others.any fun o => overlaps o (base, size)) (conf 0x13 k i)

/-- REGULATOR (R151). -/
def regulatorConflicts (h : State) (ks : List ObjKey) : List Conflict :=
  (List.finRange 20).flatMap fun (k : Fin 20) =>
    match inGroup ks (0x20 + k.val) with
    | none => []
    | some key =>
      let at_ (p : Fin 8) : Nat × Nat × Nat × Bool := regParams h p k
      let upTo (p : Fin 8) : Nat := (((List.finRange 8).filter fun (q : Fin 8) => q.val ≤ p.val).map fun (q : Fin 8) => (at_ q).1).sum
      (List.finRange 8).flatMap fun (p : Fin 8) =>
        let (g, c, b, _) := at_ p
        when_ ((2200 < upTo p && upTo p - g ≤ 2200) || c < g || 2457 < c || b < 4096 || 16777216 < b) (conf 0x14 key p)

/-- The used adder regions: number, owner, base and size. -/
def adders (h : State) : List (Nat × Fin 8 × Nat × Nat) :=
  (List.range 64).filterMap fun i =>
    let b := objBytes h 0 0x5400 (i + 1) []
    if leAt b 9 8 ≠ 0 && leAt b 0 1 < 8 then some (i + 1, fin8 (leAt b 0 1), leAt b 1 8, leAt b 9 8) else none

/-- ADDER_REGION (R159), also judged again with its owner's region table. -/
def adderConflicts (h : State) (ks : List ObjKey) : List Conflict :=
  let l := adders h
  l.flatMap fun (i, p, base, size) =>
    let k : ObjKey := ⟨0, 0x5400, i⟩
    let named := ks.contains k || ks.contains ⟨0, 0x5000, 0x40 + p.val⟩
    let meets := l.any fun (j, q, b, n) => j ≠ i && q = p && overlaps (b, n) (base, size)
    when_ (named && (!inFine h p base size || (meets && ks.contains k))) (conf 0x15 k i)

/-- STREAM_ENABLED (R202). -/
def streamConflicts (h : State) (ks : List ObjKey) : List Conflict :=
  (List.finRange 9).flatMap fun (f : Fin 9) => (List.range 64).flatMap fun q =>
    match inGroup ks (0x1000 + 64 * f.val + q) with
    | none => []
    | some k => let t := (stream h f q).state; when_ (t ≠ .disabled && t ≠ .halted) (conf 0x20 k q)

/-- MID_BUSY and ROUTE_DUP (R254, R255). -/
def linkConflicts (h : State) (ks : List ObjKey) : List Conflict :=
  when_ (ks.contains ⟨0, 0x7000, 1⟩ && h.crews.toList.any fun c => c.state ≠ .undefined) (conf 0x30 ⟨0, 0x7000, 1⟩ 0) ++
    (if !ks.contains ⟨0, 0x7400, 1⟩ then [] else
      let t := (entries 8 (objBytes h 0 0x7400 1 [])).zipIdx.filter fun x => x.1.testBit 0
      (t.filter fun x => t.any fun y => y.2 < x.2 && nfld y.1 63 47 = nfld x.1 63 47).map fun x => conf 0x31 ⟨0, 0x7400, 1⟩ x.2)

/-- Entries of a list that stand in it before. -/
def repeats : List Nat → List Nat → Nat → List Nat
  | [], _, _ => []
  | x :: xs, seen, i => (if seen.contains x then [i] else []) ++ repeats xs (x :: seen) (i + 1)

/-- GROUP_PRODUCT, MID_REPEATED, NOT_MEMBER, WIRE_FORMAT and CTAG_DUP (R265, R279). -/
def crewConflicts (h : State) (ks : List ObjKey) : List Conflict :=
  (List.finRange 16).flatMap fun (c : Fin 16) =>
    match inGroup ks (0x40 + c.val) with
    | none => []
    | some k =>
      let map := entries 4 (crewMap h c)
      let me := objNat h 0 0x7000 1 0xFFFFFFFF
      let w := crewWire h c
      let product := (crewG h c).prod
      let twin := (List.finRange 16).find? fun x => x ≠ c && !(crewMap h x).isEmpty && crewTag h x = crewTag h c
      when_ (product ≠ crewP h c || map.length ≠ crewP h c) (conf 0x40 k product) ++
        (repeats map [] 0).map (fun r => conf 0x41 k r) ++
        when_ (!map.contains me) (conf2 0x42 k ⟨0, 0x7000, 1⟩ me) ++
        ((List.range 4).filter fun l => 2 < w.getD l 0 || (l = 0 && w.getD 0 0 = 2)).map (fun l => conf 0x43 k l) ++
        (match twin with | some x => [conf2 0x44 k ⟨0, crewIdx x, 2⟩ x] | none => [])

/-- UNDO_SHORT (R325). -/
def undoConflicts (h : State) (ks : List ObjKey) : List Conflict :=
  (List.finRange 16).flatMap fun (c : Fin 16) =>
    match crewOwner h c with
    | none => []
    | some p =>
      let named := (inGroup ks (0x50 + c.val)).isSome || ks.contains ⟨0, crewIdx c, 9⟩ || ks.contains ⟨0, 0x5000, 0x40 + p.val⟩
      let need := ((regions h p).filter fun r => r.2.2.2.testBit 2).map fun r => r.2.1
      let size := undoSize h c
      if !named || size = 0 then [] else
      let k : ObjKey := ⟨0, crewIdx c, 0x38⟩
      when_ (size < need.sum) (conf 0x45 k (need.sum / 4096)) ++ when_ (!hbmIn h p (undoBase h c) size) (conf 0x45 ⟨0, crewIdx c, 0x37⟩ 0)

/-- COX_GROUP (R314). -/
def coxConflicts (h : State) (ks : List ObjKey) : List Conflict :=
  (List.finRange 8).flatMap fun (p : Fin 8) =>
    let named := (inGroup ks (0x70 + p.val)).isSome || ks.contains ⟨0, 0x5000, 0x40 + p.val⟩
    let course := objNat h 0 0x7300 (0x31 + p) 0xFF
    let used := course ≠ 0xFF || coxShare h p ≠ 0
    let scratch := objNat h 0 0x7300 (0x61 + p) 0
    let n := layerCount h p
    let bad :=
      (used && !(course < 8 && courseOwner h (fin8 course) == some p)) || (coxShare h p ≠ 0 && scratch < 18874368) ||
      2 ^ 26 < coxScratch h p + scratch || 60 < coxTileBase h p ||
      (0 < n && !(hbmIn h p (objNat h 0 0x7300 (1 + p) 0) (128 * n) && hbmIn h p (objNat h 0 0x7300 (0x21 + p) 0) (16 * n)))
    when_ (named && bad) (conf 0x46 ((inGroup ks (0x70 + p.val)).getD ⟨0, 0x5000, 0x40 + p.val⟩) 0)

/-- JOINT_RANGE: overlapping Course masks (R452), the BAR2 window base (R198), the deferral area's rights (R355). -/
def jointConflicts (h : State) (ks : List ObjKey) : List Conflict :=
  ((List.finRange 8).flatMap fun (p : Fin 8) =>
    let k : ObjKey := ⟨0, 0x4000, p.val + 1⟩
    if !ks.contains k || !(partRec h p).1 then [] else
    ((List.finRange 8).filter fun (q : Fin 8) => q ≠ p && (partRec h q).1 && (partRec h q).2 &&& (partRec h p).2 ≠ 0).map fun (q : Fin 8) =>
      conf2 0xF0 k ⟨0, 0x4000, q.val + 1⟩ ((partRec h p).2)) ++
  ((List.finRange 9).flatMap fun (f : Fin 9) =>
    let k : ObjKey := ⟨f.val, 0x1900, 0x10⟩
    let v := objNat h f 0x1900 0x10 0
    when_ (ks.contains k && v % (2 ^ 30 * 2 ^ h.host.funcs[f].barLog) ≠ 0) (conf 0xF0 k v)) ++
  ((List.finRange 16).flatMap fun (c : Fin 16) =>
    let k : ObjKey := ⟨0, crewIdx c, 0x35⟩
    let base := objNat h 0 (crewIdx c) 0x35 0
    let right (r : Nat) : Bool := match crewOwner h c with | some p => caValid (caEntry h p base) r | none => false
    when_ ((ks.contains k || ks.contains ⟨0, crewIdx c, 0x36⟩) && objNat h 0 (crewIdx c) 0x36 0 ≠ 0 && !(right 1 && right 2)) (conf 0xF0 k base))

/-- The rules that join objects, for a set of the objects `ks`, in the state `h` that would hold. -/
def ruleConflicts (h : State) (ks : List ObjKey) : List Conflict :=
  mapConflicts h ks ++ regionConflicts h ks ++ regulatorConflicts h ks ++ adderConflicts h ks ++ streamConflicts h ks ++ linkConflicts h ks ++
    crewConflicts h ks ++ undoConflicts h ks ++ coxConflicts h ks ++ jointConflicts h ks

/-- A right held at STAGE is no longer held. -/
def rightConflicts (s : State) (holder : Holder) (ks : List ObjKey) : List Conflict :=
  let a := actorHolder s holder
  (ks.filter fun k => !mayWrite s a k.idx k.sub || (perFn k.idx k.sub && k.f ≠ a.2.val)).map fun k => conf 5 k 0

/-- The effect class of an object of a set. -/
def keyClass (k : ObjKey) : Nat := match objInfo k.idx k.sub with | some i => classOf k.idx k.sub i.access | none => 0xFF

/-- An apply point's record breaks R399. -/
def pointBad (a : BitVec 128) : Bool :=
  let k := apKind a
  anySet a 63 12 || anySet a 7 2 || k = 3 || (k ≠ 2 && anySet a 11 8) || (k = 0 && apValue a ≠ 0) || (k = 2 && 2 ^ 48 ≤ apValue a)

/-- R400 holds for an apply point. -/
def pointOk (s : State) (holder : Holder) (ks : List ObjKey) (a : BitVec 128) : Bool :=
  let who := actorHolder s holder
  let reset := ks.any fun k => keyClass k = 2
  match apKind a with
  | 0 => true
  | 1 => s.now.toNat < apValue a && apValue a ≤ s.now.toNat + 86400000000000 && !reset
  | _ =>
    let c := apCrew a
    s.crews[c].state ≠ .undefined && (manages who || crewOwner s c == actorPart who) && s.crews[c].lastFinished.toNat + 1 < apValue a && !reset

/-- Every conflict of an open set with an apply point (R401). -/
def setConflicts (s : State) (o : OpenSet) (point : BitVec 128) : List Conflict :=
  let ks := o.staged.map (·.1)
  let first := ks.headD ⟨0, 0, 0⟩
  let h := layOver (layOver s (s.dict.pendings.flatMap (·.values))) o.staged
  let overlap := s.dict.pendings.flatMap fun x =>
    (ks.filter fun k => x.values.any fun v => v.1 = k || (groupOf k.f k.idx k.sub ≠ 0 && groupOf v.1.f v.1.idx v.1.sub = groupOf k.f k.idx k.sub)).map
      fun k => conf 3 k x.id.toNat
  when_ (ks.any fun k => keyClass k ≠ keyClass first) (conf 1 first 0) ++ when_ (!pointOk s o.holder ks point) (conf 2 first 0) ++ overlap ++
    when_ (16 ≤ s.dict.pendings.length) (conf 4 first 0) ++ rightConflicts s o.holder ks ++ ruleConflicts h ks

/-- Conflicts replace the list of 0xA100:03, 4,096 at most. -/
def putConflicts (s : State) (l : List Conflict) : State := genBump { s with dict := { s.dict with conflicts := l.take 4096 } } 0 0xA100 3

/-! ## Values taking effect (R391, R394, R403) -/

/-- The value of an object stands in its unit, not among the dictionary's. -/
def inUnit (idx sub : Nat) : Bool :=
  (idxIn idx 0x6100 0x6107 && (sub = 0x10 || sub = 0x20 || sub = 0x40)) || (idx = 0x6200 && idxIn sub 0x10 0x17) || (idx = 0x5300 && sub = 1) ||
  idxIn idx 0x65F0 0x65F8 || idxIn idx 0x7280 0x7287 || idxIn idx 0x7290 0x7297 || (idx = 0x1800 && sub = 2) || idxIn idx 0x9000 0x904F

/-- Entries of w bits written one by one from entry `first` on. -/
def eachEntry (w : Nat) (d : List Byte) (first : Nat) (s : State) (g : State → Nat → Nat → State) : State :=
  (entries w d).zipIdx.foldl (fun s x => g s (first + x.2) x.1) s

/-- The part of a value that its unit takes: the whole of it, or for a table entries from offset `off` on. -/
def unitTakes (s : State) (k : ObjKey) (off : Nat) (d : List Byte) : State :=
  let v := leAt d 0 1
  if idxIn k.idx 0x6100 0x6107 then
    let n := fin8 (k.idx - 0x6100)
    match k.sub with
    | 0x10 => clearSticky s false n (BitVec.ofNat 8 v)
    | 0x20 => setCheck s n (BitVec.ofNat 8 v)
    | _ => clearOffender s n (BitVec.ofNat 256 (leAt d 0 32))
  else if k.idx = 0x6200 then clearSticky s true (fin8 (k.sub % 8)) (BitVec.ofNat 8 v)
  else if k.idx = 0x5300 then setMarginStack s (BitVec.ofNat 8 v)
  else if idxIn k.idx 0x65F0 0x65F8 then
    eachEntry 32 d (off / 32) s fun s i w => writeHostRegion s (fin9 (k.idx - 0x65F0)) i (BitVec.ofNat 256 w)
  else if idxIn k.idx 0x7280 0x7287 then
    eachEntry 16 d (off / 16) s fun s i w => writeCollRegion s (fin8 (k.idx - 0x7280)) i (BitVec.ofNat 128 w)
  else if idxIn k.idx 0x7290 0x7297 then
    eachEntry 16 d (off / 16) s fun s i w => writeHandle s (fin8 (k.idx - 0x7290)) (i + 1) (BitVec.ofNat 128 w)
  else if k.idx = 0x1800 then
    evoluEvent s (updEvolu s fun e => { e with addr := BitVec.ofNat 6 v, hint := BitVec.ofNat 8 v, claim := none })
  else if h : k.idx - 0x9000 < 80 then groupWrite s ⟨k.idx - 0x9000, h⟩ d
  else s

/-- Objects that hold tables of fixed length: a value shorter than the table leaves the rest of it as it is. -/
def isTable (idx sub : Nat) : Bool := idxIn idx 0x1910 0x1918 || (idx = 0x9800 && sub = 2)

/-- An object's value takes force in its unit or among the dictionary's values. -/
def takeValue (s : State) (k : ObjKey) (off : Nat) (d : List Byte) : State :=
  let s := match objInfo k.idx k.sub with | some i => if i.ty = 12 then genBump s k.f k.idx k.sub else s | none => s
  if inUnit k.idx k.sub then unitTakes s k off d
  else if isTable k.idx k.sub then
    let old := (hookValue s (.fn 0) k.idx k.sub).getD []
    setObj s k.f k.idx k.sub (overlay old off d)
  else setObj s k.f k.idx k.sub d

/-- Sessions whose anchor has changed close at once (R368); an anchor's unfinished transfer goes with it. -/
def anchorsChanged (old new_ : List Byte) (s : State) : State :=
  let same (a : Fin 8) : Bool := sliceZ old (40 * a) 40 == sliceZ new_ (40 * a) 40
  (List.finRange 8).foldl (fun s (i : Fin 8) =>
    let k := s.evolu.sessions[i]
    if k.state ≠ .closed && !same k.anchor then closeSession s i else s) s

/-- A change of an activity's budget or deadline restarts its URGENT test at once (R424): what the test finds of an activity that is
URGENT, a free value says, since the work left is not held. -/
def urgentAgain (s : State) (id : Nat) : State :=
  if s.pointing.acts.all fun a => !(a.id = id && a.state = 2) then s else
  let (v, s) := fresh s
  let test (a : Activity) : Activity := if a.id = id && a.state = 2 && v.getLsbD (a.unit % 64) then { a with state := 0 } else a
  { s with pointing := { s.pointing with acts := s.pointing.acts.map test } }

/-- What follows the new value of one object, once every value of its set stands. -/
def afterValue (s : State) (k : ObjKey) : State :=
  if k.idx = 0x5000 && idxIn k.sub 0x40 0x47 then ringsCheck s (fin8 (k.sub - 0x40))
  else if k.idx = 0x7000 && k.sub = 1 then portsRetrain s
  else if k.idx = 0x7000 then syncChoose { s with rigger := { s.rigger with sync := { s.rigger.sync with state := 0 } } }
  else if idxIn k.idx 0x7200 0x720F then
    let c := fin16 (k.idx - 0x7200)
    match k.sub with
    | 0x3B => updCrew s c fun x => { x with subPos := 0, subCards := [] }
    | 0x3C => updCrew s c fun x => { x with hostPos := 0, hostCards := [] }
    | _ => s
  else if k.idx = 0x7300 && k.sub ≤ 0x18 then updCox (genBump s 0 0x7300 (0x80 + k.sub % 16)) (fin8 (k.sub % 16 - 1)) fun x => { x with layers := [] }
  else if k.idx = 0x9800 then traceApply s
  else if k.idx = 0x8000 then urgentAgain s (k.sub % 16)
  else s

/-- Stored values reach the flash (R391); false where its writes fail. -/
def storeFlash (s : State) (vs : List (ObjKey × List Byte)) : State × Bool :=
  let keep := vs.filter fun x => match objInfo x.1.idx x.1.sub with | some i => i.stored && !inUnit x.1.idx x.1.sub | none => false
  if keep.isEmpty then (s, true)
  else if s.dict.flashBad then (flashLog s, false)
  else
    let put (l : List (ObjKey × List Byte)) (x : ObjKey × List Byte) : List (ObjKey × List Byte) := x :: l.filter fun y => y.1 ≠ x.1
    ({ s with dict := { s.dict with flash := keep.foldl put s.dict.flash } }, true)

/-- Before partition records change (R452): a partition that ends is reset, its Crews dissolved and their owner and its region table
cleared; a Course that leaves its partition is zeroed and no longer serves its Cox. `h` holds the new records. -/
def partsLeave (s h : State) : State :=
  let ends := (List.finRange 8).filter fun (p : Fin 8) => (partRec s p).1 && !(partRec h p).1
  let moves := (List.finRange 8).filter fun (n : Fin 8) => (courseOwner s n).isSome && courseOwner s n ≠ courseOwner h n
  let cut (s : State) (n : Fin 8) : State :=
    match courseOwner s n with
    | some p => if objNat s 0 0x7300 (0x31 + p) 0xFF = n.val then dropObj (dropObj s 0 0x7300 (0x31 + p)) 0 0x7300 (0x41 + p) else s
    | none => s
  let s := moves.foldl cut s
  let end_ (s : State) (p : Fin 8) : State :=
    let crews := (List.finRange 16).filter fun (c : Fin 16) => crewOwner s c == some p
    let s := funcReset s (funcOf p)
    let s := crews.foldl (fun s c => dropObj (dissolveCrew s c true) 0 (crewIdx c) 9) s
    genBump (dropObj s 0 0x5000 (0x40 + p)) 0 0x5000 (0x40 + p)
  moves.foldl courseZeroed (ends.foldl end_ s)

/-- Every value of a set takes effect together (R395, R403). -/
def takeForce (s0 : State) (vs : List (ObjKey × List Byte)) : State :=
  let ks := vs.map (·.1)
  let h := layOver s0 vs
  let s := if ks.any fun k => k.idx = 0x4000 then partsLeave s0 h else s0
  -- regulators keep their tokens
  let s := (ks.filter fun k => k.idx = 0x5200).foldl (fun s k => setBucket s (refill s (fin8 ((k.sub - 1) / 20)) (fin20 ((k.sub - 1) % 20)))) s
  let anchors := objBytes s 0 0x1800 0x10 []
  let s := vs.foldl (fun s x => takeValue s x.1 0 x.2) s
  let s := ks.foldl afterValue s
  let s := if ks.any fun k => k.idx = 0x1800 && k.sub = 0x10 then anchorsChanged anchors (objBytes s 0 0x1800 0x10 []) s else s
  let s := ((List.finRange 16).filter fun (c : Fin 16) => (inGroup ks (0x40 + c.val)).isSome).foldl applyMembership s
  let s := if ks.any fun k => k.idx = 0x4000 || (idxIn k.idx 0x7200 0x720F && k.sub = 9) then groupsCheck s else s
  castReady (moduleEvent s0 s)

/-- A pending set applies: its outcome is APPLIED, APPLIED_LATE or APPLIED_NOT_STORED (R403, R406, R407). -/
def applySet (s : State) (x : PendSet) : State :=
  let (s, stored) := storeFlash (takeForce s x.values) x.values
  endPending s x.id (if !stored then 8 else if x.late then 7 else 1)

/-! ## Zero-fill (R453) -/

/-- 64 MiB blocks of MPA of a region table. -/
def tableBlocks (t : List Byte) : List Nat := (regionEntries t).flatMap fun (_, b, n, _) => (List.range (n / 2 ^ 26)).map fun i => b / 2 ^ 26 + i

/-- Blocks that enter partition p's table with a set. -/
def blocksIn (s : State) (vs : List (ObjKey × List Byte)) (p : Fin 8) : List Nat :=
  match vs.find? fun x => x.1 = ⟨0, 0x5000, 0x40 + p.val⟩ with
  | some x => let old := tableBlocks (regionTable s p); (tableBlocks x.2).filter fun b => !old.contains b
  | none => []

/-- Zeros in every byte of the blocks. Where contents are defined an address not listed holds 0 already. -/
def zeroBlocks (s : State) (bs : List Nat) : State :=
  let h := s.hbm
  let inside (k pc o : Nat) : Bool := match placeMpa h k pc o with | some m => bs.contains (m / 2 ^ 26) | none => false
  let hit (x : Nat) : Bool := inside (x / 2 ^ 37) (x / 2 ^ 31 % 64) (x % 2 ^ 31)
  let h := { h with ue := h.ue.filter fun x => !hit x }
  if h.mem.toList.all fun m => m.gen = 0 then
    let clear (m : Mem) : Mem := { m with cells := m.cells.filter fun c => !hit c.1 }
    { s with hbm := { h with mem := h.mem.map clear } }
  else { s with hbm := h.put (bs.flatMap fun b => (List.range (2 ^ 26)).map fun i => (mpaPlace s.hbm (b * 2 ^ 26 + i), 0)) }

end Sys2Proof.Machine
end

