-- ==== Sys2Proof/Machine/DictService.lean ====
section
/-! DEFINITION. Service messages (15 R376 to R380, 16 R393 to R405): what each operation of the dictionary does and answers, the rows
that carry one, the rows of single objects, and what happens to sets in time. -/

namespace Sys2Proof.Machine

open Sys2Proof

/-! ## Messages (R376) -/

/-- A message's OP and fields; none where its layout breaks R376. -/
def parseMsg (b : List Byte) : Option (Nat × SvcMsg) :=
  if b.length < 24 || 1024 < b.length || 1 < leAt b 1 1 || leAt b 2 2 ≠ 0 || leAt b 4 2 ≠ 0 || leAt b 9 3 ≠ 0 then none
  else some (leAt b 0 1,
    { mflags := BitVec.ofNat 8 (leAt b 1 1), ref := 0, index := BitVec.ofNat 16 (leAt b 6 2), sub := BitVec.ofNat 8 (leAt b 8 1)
      offset := BitVec.ofNat 32 (leAt b 12 4), aux0 := BitVec.ofNat 32 (leAt b 16 4), aux1 := BitVec.ofNat 32 (leAt b 20 4), data := b.drop 24 })

/-- A response: it repeats the object and the offset named. -/
def answer (m : SvcMsg) (aux0 aux1 : Nat) (data : List Byte) : SvcMsg :=
  { m with mflags := 0, ref := 0, aux0 := BitVec.ofNat 32 aux0, aux1 := BitVec.ofNat 32 aux1, data := data }

/-- What an operation leaves: the state, the abort code (0 none) and the response. -/
abbrev Reply := State × Nat × SvcMsg

/-- An operation that is refused changes nothing. -/
def refuseOp (s : State) (m : SvcMsg) (code : Nat) (aux0 : Nat := 0) : Reply := (s, code, answer m aux0 0 [])

/-! ## Reading (R379, R393) -/

/-- READ. -/
def svcRead (s : State) (r : Req) (m : SvcMsg) : Reply :=
  let idx := m.index.toNat
  let sub := m.sub.toNat
  let a := actorOf s r
  match objFound s idx sub with
  | none => refuseOp s m 0x0105
  | some i =>
    if !mayRead s a idx sub then refuseOp s m 0x0101 else
    match m.aux1.toNat with
    | 0 =>
      let mine : Bool := match s.dict.openSet with | some o => holds s r o.holder | none => true
      let n := objLen s r idx sub i
      if i.access = 3 then refuseOp s m 0x0103
      else if (idx = 0xA000 && sub = 6 && !mine) || foreignCard s a idx sub 0 n then refuseOp s m 0x0101
      else if 1000 < n then refuseOp s m 0x0206 n
      else (s, 0, answer m 0 0 (objValue s r idx sub i))
    | 1 =>
      match s.dict.openSet with
      | some o =>
        match (if holds s r o.holder then o.staged.find? fun x => x.1 = keyOf a idx sub else none) with
        | some x => if 1000 < x.2.length then refuseOp s m 0x0206 x.2.length else (s, 0, answer m 0 0 x.2)
        | none => refuseOp s m 0x0302
      | none => refuseOp s m 0x0302
    | 2 => (s, 0, answer m 0 0 (descriptorOf a.2 idx sub i))
    | _ => refuseOp s m 0x0205

/-- READ_SEG: up to 1,000 bytes of a DOMAIN from OFFSET. -/
def svcReadSeg (s : State) (r : Req) (m : SvcMsg) : Reply :=
  let idx := m.index.toNat
  let sub := m.sub.toNat
  let a := actorOf s r
  match objFound s idx sub with
  | none => refuseOp s m 0x0105
  | some i =>
    let off := m.offset.toNat
    let n := objLen s r idx sub i
    let mine : Bool := match s.dict.openSet with | some o => holds s r o.holder | none => true
    let k := keyOf a idx sub
    if !mayRead s a idx sub then refuseOp s m 0x0101
    else if i.access = 3 then refuseOp s m 0x0103
    else if i.ty ≠ 12 then refuseOp s m 0x0201
    else if n < off then refuseOp s m 0x0202
    else if (idx = 0xA000 && sub = 6 && !mine) || foreignCard s a idx sub off 1000 then refuseOp s m 0x0101
    else
      let last := n ≤ off + 1000
      let aux1 := if last then (crc32c (objPartRead s r idx sub i 0 n)).toNat else if off = 0 then n else 0
      let rsp := answer m (assocGet s.dict.gens k 0).toNat aux1 (objPartRead s r idx sub i off 1000)
      (s, 0, { rsp with mflags := if last then 1 else 0 })

/-! ## Writing (R392, R394) -/

/-- What a write to a WO object does: the state, the abort code and AUX1. -/
def woAction (s : State) (r : Req) (idx sub : Nat) (d : List Byte) : State × Nat × Nat :=
  let a := actorOf s r
  let v := ofLe d
  let code (x : State × Option Nat) : State × Nat × Nat := (x.1, x.2.getD 0, 0)
  if idxIn idx 0x5100 0x5113 then (askRetire s (fin20 (idx - 0x5100)) (BitVec.ofNat 8 v), 0, 0)
  else if idx = 0x5300 then (if v ≠ 0 && s.hbm.marginState ≠ 1 then (s, 0x0101, 0) else (startMargin s (BitVec.ofNat 8 v), 0, 0))
  else if idxIn idx 0x6400 0x643F then
    match streamControl s a.2 (idx - 0x6400) v with | some t => (t, 0, 0) | none => (s, 0x0202, 0)
  else if idx = 0x6500 then (signalEv s a.2 v, 0, 0)
  else if idxIn idx 0x7200 0x720F then
    let c := fin16 (idx - 0x7200)
    if sub = 0x42 then code (loadLayers s c d)
    else match v with
      | 1 => code (requestRun s c)
      | 2 => code (requestTest s c)
      | _ => (castReady (dissolveCrew s c false), 0, 0)
  else if idx = 0x7300 then (clearDirty s (fin8 (sub % 16 - 1)) v, 0, 0)
  else if idx = 0xA000 then
    if sub = 2 then
      match s.dict.openSet with
      | some o => if o.id.toNat = v then (endOpen s 2, 0, 0) else (s, 0x0202, 0)
      | none => (s, 0x0202, 0)
    else
      match s.dict.pendings.find? fun x => x.id.toNat = v with
      | some x =>
        let kept : Bool := match r, x.holder with
          | .fn f, .fn g => f = g
          | .sess i, .sess _ b => s.evolu.sessions[i].anchor = b
          | _, _ => false
        if !kept && !manages a then (s, 0x0101, 0)
        else if x.fill.isEmpty then (endPending s x.id 4, 0, 4) else (s, 0x0202, 0)
      | none => (s, 0x0202, ((s.dict.history.find? fun x => x.id.toNat = v).map (·.outcome)).getD 0)
  else if idx = 0x8100 then ({ s with pointing := { s.pointing with clearMap := s.pointing.clearMap || v ≠ 0 } }, 0, 0)
  else if idx = 0x2400 then
    if sub = 3 then (if v = 1 then prepareRemoval s else s, 0, 0)
    else if v = 2 && (List.range 8).any (partValid s) then (s, 0x0202, 0) else (s, 0, 0)
  else if idx = 0x4100 then
    match sub with
    | 0x04 => if a.1 = 0 then code (burnOwner s (BitVec.ofNat 256 v)) else (s, 0x0101, 0)
    | 0x06 => if v = 1 then code (advanceRollback s) else (s, 0, 0)
    | 0x10 => if slotRuns s 0 then (s, 0x0101, 0) else code (imageWrite s 0 d)
    | _ => if slotRuns s 1 then (s, 0x0101, 0) else code (imageWrite s 1 d)
  else if idx = 0x4200 then (attest s r (BitVec.ofNat 256 v), 0, 0)
  else (s, 0, 0)

/-- Bytes of one entry of a table that is written entry by entry; 0 for other objects. -/
def entryBytes (idx sub : Nat) : Nat :=
  if idxIn idx 0x65F0 0x65F8 then 32
  else if idxIn idx 0x7280 0x7287 || idxIn idx 0x7290 0x7297 then 16
  else if idxIn idx 0x1910 0x1918 then 8
  else if idx = 0x9800 && sub = 2 then 68 else 0

/-- An immediate write of an object (R392, R394): a value whole, or entries of a table from `off` on. The state, the abort code and
AUX1. -/
def objWrite (s : State) (r : Req) (idx sub off : Nat) (d : List Byte) : State × Nat × Nat :=
  let a := actorOf s r
  let k := keyOf a idx sub
  match objFound s idx sub with
  | none => (s, 0x0105, 0)
  | some i =>
    let w := entryBytes idx sub
    let named := (match s.dict.openSet with | some o => o.staged.any fun x => x.1 = k | none => false) ||
      s.dict.pendings.any fun x => x.values.any fun y => y.1 = k
    if !mayWrite s a idx sub then (s, 0x0101, 0)
    else if i.access ≤ 1 then (s, 0x0102, 0)
    else if i.access = 4 then (s, 0x0104, 0)
    else if i.access = 2 && named then (s, 0x0301, 0)
    else
      match valueRefuse s idx sub i d with
      | some c => (s, c, 0)
      | none =>
        if w ≠ 0 && (off % w ≠ 0 || i.size < off + d.length) then (s, 0x0202, 0)
        else if i.access = 3 then
          let (t, c, x) := woAction s r idx sub d
          (moduleEvent s t, c, x)
        else
          let t := afterValue (takeValue s k (if w = 0 then 0 else off) d) k
          (moduleEvent s (storeFlash t [(k, d)]).1, 0, 0)

/-- WRITE. -/
def svcWrite (s : State) (r : Req) (m : SvcMsg) : Reply :=
  let (t, c, x) := objWrite s r m.index.toNat m.sub.toNat m.offset.toNat m.data
  (t, c, answer m 0 x [])

/-! ## Change sets (R397, R398) -/

/-- The lease has run out: the open set is discarded (R397). -/
def leaseCheck (s : State) : State :=
  match s.dict.openSet with
  | some o => if o.lease.toNat ≤ s.now.toNat then endOpen s 3 else s
  | none => s

/-- Holder of what a requester opens. -/
def holderOf (s : State) (r : Req) : Holder :=
  match r with
  | .fn f => .fn f
  | .sess i => .sess i s.evolu.sessions[i].anchor

/-- The open set of a requester that names it, with its lease reset; or the abort code. -/
def setOf (s : State) (r : Req) (id : BitVec 32) : Except Nat OpenSet :=
  match s.dict.openSet with
  | some o => if holds s r o.holder && o.id = id then .ok o else .error 0x0302
  | none =>
    match s.dict.expired with
    | some h => if holds s r h then .error 0x0303 else .error 0x0302
    | none => .error 0x0302

def putSet (s : State) (o : OpenSet) : State := { s with dict := { s.dict with openSet := some o } }

/-- A lease of 10 s from now. -/
def leaseEnd (s : State) : U64 := s.now + 10000000000

/-- OPEN. -/
def svcOpen (s : State) (r : Req) (m : SvcMsg) : Reply :=
  if 2 < (actorOf s r).1 then refuseOp s m 0x0101
  else if s.dict.openSet.isSome then (s, 0x0301, answer m 0 0 (openSetBytes s))
  else
    let id := s.dict.lastId + 1
    let o : OpenSet := ⟨id, holderOf s r, false, [], leaseEnd s⟩
    (genBump { s with dict := { s.dict with lastId := id, expired := none, openSet := some o } } 0 0xA000 6, 0, answer m id.toNat 10000 [])

/-- A value staged in the open set o (R392 steps 1 to 3, 5 and 6, R398): the owner of an adder region a partition stages is that
partition (R159). -/
def stageValue (s : State) (r : Req) (o : OpenSet) (idx sub : Nat) (d : List Byte) : Except Nat OpenSet :=
  let a := actorOf s r
  let k := keyOf a idx sub
  match objFound s idx sub with
  | none => .error 0x0105
  | some i =>
    let d := match actorPart a with | some p => if idx = 0x5400 && !d.isEmpty then BitVec.ofNat 8 p.val :: d.drop 1 else d | none => d
    if !mayWrite s a idx sub then .error 0x0101
    else if i.access ≤ 1 then .error 0x0102
    else if i.access = 3 then .error 0x0101
    else
      match valueRefuse s idx sub i d with
      | some c => .error c
      | none =>
        if o.staged.any fun x => x.1 = k then
          .ok { o with checked := false, staged := o.staged.map fun x => if x.1 = k then (k, d) else x }
        else if 4096 ≤ o.staged.length then .error 0x0305
        else .ok { o with checked := false, staged := o.staged ++ [(k, d)] }

/-- STAGE. -/
def svcStage (s : State) (r : Req) (m : SvcMsg) : Reply :=
  match setOf s r m.aux0 with
  | .error c => refuseOp s m c
  | .ok o =>
    let o := { o with lease := leaseEnd s }
    match stageValue s r o m.index.toNat m.sub.toNat m.data with
    | .error c => refuseOp (putSet s o) m c
    | .ok o => (genBump (putSet s o) 0 0xA000 6, 0, answer m o.staged.length 0 [])

/-- Conflicts as an answer: 62 records fit, AUX1 is their number. -/
def conflictReply (s : State) (m : SvcMsg) (l : List Conflict) : Reply :=
  (putConflicts s l, 0x0304, answer m 0 l.length ((l.take 62).flatMap conflictBytes))

/-- CHECK. -/
def svcCheck (s : State) (r : Req) (m : SvcMsg) : Reply :=
  match setOf s r m.aux0 with
  | .error c => refuseOp s m c
  | .ok o =>
    let o := { o with lease := leaseEnd s }
    let point := BitVec.ofNat 128 (leAt m.data 0 16)
    if m.data.length ≠ 16 || pointBad point then refuseOp (putSet s o) m 0x0306 else
    match setConflicts s o point with
    | [] => (putConflicts (putSet s { o with checked := true }) [], 0, answer m 0 0 [])
    | l => conflictReply (putSet s o) m l

/-- The apply point field of a status record (R407). -/
def pointField (a : BitVec 128) : BitVec 64 :=
  match apKind a with
  | 2 => BitVec.ofNat 64 (apValue a % 2 ^ 48 + place 48 (apCrew a).val)
  | _ => BitVec.ofNat 64 (apValue a)

/-- COMMIT (R402): CHECK again; then the set is pending, and its record enters the history. -/
def svcCommit (s : State) (r : Req) (by_ : Option (Fin 9 × Fin 64)) (m : SvcMsg) : Reply :=
  match setOf s r m.aux0 with
  | .error c => refuseOp s m c
  | .ok o =>
    let point := BitVec.ofNat 128 (leAt m.data 0 16)
    if m.data.length ≠ 16 || pointBad point then refuseOp s m 0x0306 else
    match setConflicts s o point with
    | [] =>
      let x : PendSet := ⟨o.id, o.holder, by_, point, o.staged, s.now, [], false⟩
      let s := putConflicts { s with dict := { s.dict with openSet := none, pendings := s.dict.pendings ++ [x] } } []
      let s := genBump (genBump s 0 0xA000 6) 0 0xA100 1
      (pushRec s ⟨o.id, 0, o.holder, apKind point, pointField point, s.now, 0⟩, 0, answer m o.id.toNat 0 [])
    | l => conflictReply s m l

/-- ABORT (R405). -/
def svcAbort (s : State) (r : Req) (m : SvcMsg) : Reply :=
  match setOf s r m.aux0 with
  | .error c => refuseOp s m c
  | .ok _ => (endOpen s 2, 0, answer m 0 0 [])

/-- RENEW. -/
def svcRenew (s : State) (r : Req) (m : SvcMsg) : Reply :=
  match setOf s r m.aux0 with
  | .error c => refuseOp s m c
  | .ok o => (putSet s { o with lease := leaseEnd s }, 0, answer m 0 10000 [])

/-! ## Write transfers (R378, R380) -/

/-- The transfer a requester runs. -/
def myTransfer (s : State) (r : Req) : Option Transfer := s.dict.transfers.find? fun t => t.live && t.by_ = holderOf s r

/-- An anchor's transfer whose session has closed. -/
def keptOf (r : Req) (s : State) (t : Transfer) : Bool :=
  match r, t.by_ with
  | .sess i, .sess _ a => !t.live && s.evolu.sessions[i].anchor = a
  | _, _ => false

def putTransfer (s : State) (t : Transfer) : State :=
  { s with dict := { s.dict with transfers := t :: s.dict.transfers.filter fun x => !(x.live && x.by_ = t.by_) } }
def dropTransfer (s : State) (r : Req) : State :=
  { s with dict := { s.dict with transfers := s.dict.transfers.filter fun x => !(x.live && x.by_ = holderOf s r) } }

/-- The whole object has arrived: it is written, or staged where it is S. The state and the abort code. -/
def transferDone (s : State) (r : Req) (idx sub access : Nat) (d : List Byte) : State × Nat :=
  if access = 4 then
    match s.dict.openSet with
    | some o =>
      if !holds s r o.holder then (s, 0x0302) else
      match stageValue s r o idx sub d with
      | .ok o => (genBump (putSet s { o with lease := leaseEnd s }) 0 0xA000 6, 0)
      | .error c => (s, c)
    | none => (s, match s.dict.expired with | some h => if holds s r h then 0x0303 else 0x0302 | none => 0x0302)
  else
    let (t, c, _) := objWrite s r idx sub 0 d
    (t, c)

/-- A segment of the running transfer t. -/
def takeSegment (s : State) (r : Req) (m : SvcMsg) (i : ObjInfo) (t : Transfer) : Reply :=
  let off := m.offset.toNat
  let e := t.bytes.length
  let last := m.mflags.getLsbD 0
  if e < off then refuseOp s m 0x0203 e
  else if t.total < off + m.data.length then refuseOp s m 0x0202 e
  else
    let bytes := t.bytes.take off ++ m.data ++ t.bytes.drop (off + m.data.length)
    let s := putTransfer s { t with bytes := bytes }
    if !last then (s, 0, answer m bytes.length 0 [])
    else if off + m.data.length ≠ t.total || bytes.length ≠ t.total then refuseOp s m 0x0203 bytes.length
    else if crc32c bytes ≠ m.aux1 then refuseOp (dropTransfer s r) m 0x0204 bytes.length
    else
      let (s, c) := transferDone (dropTransfer s r) r t.key.idx t.key.sub i.access bytes
      (s, c, answer m bytes.length 0 [])

/-- WRITE_SEG: the segment at OFFSET 0 of a requester without a transfer starts one. -/
def svcWriteSeg (s : State) (r : Req) (m : SvcMsg) : Reply :=
  let idx := m.index.toNat
  let sub := m.sub.toNat
  let a := actorOf s r
  let k := keyOf a idx sub
  match objFound s idx sub with
  | none => refuseOp s m 0x0105
  | some i =>
    let total := m.aux0.toNat
    if !mayWrite s a idx sub then refuseOp s m 0x0101
    else if i.access ≤ 1 then refuseOp s m 0x0102
    else if i.ty ≠ 12 then refuseOp s m 0x0201
    else if idx = 0x4100 && (sub = 0x10 || sub = 0x11) && slotRuns s (sub - 0x10) then refuseOp s m 0x0101
    else
      match myTransfer s r with
      | some t =>
        if t.key ≠ k || (m.offset = 0 && total ≠ t.total) then refuseOp s m 0x0503 else takeSegment s r m i t
      | none =>
        if m.offset ≠ 0 then refuseOp s m 0x0203
        else if i.size < total then refuseOp s m 0x0202
        else
          let s := { s with dict := { s.dict with transfers := s.dict.transfers.filter fun t => !keptOf r s t } }
          if 2 ^ 30 < (s.dict.transfers.map (·.total)).sum + total then refuseOp s m 0x0504
          else takeSegment s r m i ⟨holderOf s r, true, 0, k, total, []⟩

/-- TRANSFER_STATUS: the requester's transfer, or one its anchor kept, which it takes over. -/
def svcTransferStatus (s : State) (r : Req) (m : SvcMsg) : Reply :=
  let say (s : State) (t : Transfer) : Reply := (s, 0, answer m 0 0 (leBytes 2 t.key.idx ++ leBytes 1 t.key.sub ++ [0] ++ leBytes 4 t.bytes.length))
  match myTransfer s r with
  | some t => say s t
  | none =>
    match s.dict.transfers.find? fun t => keptOf r s t && s.now.toNat < t.closedAt.toNat + 60000000000 with
    | some t =>
      let rest := s.dict.transfers.filter fun x => !keptOf r s x
      say { s with dict := { s.dict with transfers := { t with by_ := holderOf s r, live := true, closedAt := 0 } :: rest } } t
    | none => (s, 0, answer m 0 0 (List.replicate 8 0))

/-! ## The service (R377) -/

/-- One operation. Without a lockstep pair only READ is served (R422); in ROM recovery only PF0 and MANAGE sessions are (R445). -/
def svc (s : State) (r : Req) (by_ : Option (Fin 9 × Fin 64)) (op : Nat) (m : SvcMsg) : Reply :=
  let s := leaseCheck s
  if (!s.pointing.lockstep && op ≠ 1) || (s.power.bringUp = .rom && !manages (actorOf s r)) then refuseOp s m 0x0101 else
  match op with
  | 0x01 => svcRead s r m
  | 0x02 => svcWrite s r m
  | 0x03 => svcReadSeg s r m
  | 0x04 => svcWriteSeg s r m
  | 0x05 => svcTransferStatus s r m
  | 0x10 => svcOpen s r m
  | 0x11 => svcStage s r m
  | 0x12 => svcCheck s r m
  | 0x13 => svcCommit s r by_ m
  | 0x14 => svcAbort s r m
  | 0x15 => svcRenew s r m
  | _ => refuseOp s m 0x0205

/-- A write of 0x2400:01 that has been taken: the warm reset it asks for, and whether into bring-up (R438). -/
def resetAsked (op code : Nat) (m : SvcMsg) : Option Bool :=
  if op = 2 && code = 0 && m.index = 0x2400 && m.sub = 1 then some (leAt m.data 0 1 = 2) else none

/-- The reset follows the answer. -/
def thenReset (s : State) (op code : Nat) (m : SvcMsg) : State :=
  match resetAsked op code m with
  | some bring => warmReset s (if bring then 2 else 1) bring
  | none => s

/-- A message that a requester sends on its own: the response goes out. -/
def ask (s : State) (r : Req) (op : Nat) (m : SvcMsg) : State :=
  let (t, code, rsp) := svc s r none op m
  thenReset (emit t (.response r (svcBytes op code rsp))) op code m

/-- READ (R393). -/
def execRead (r : Req) (m : SvcMsg) (s : State) : Host.Outcome State Fault Refusal := powered s (ask s r 1 m)
/-- WRITE (R394). -/
def execWrite (r : Req) (m : SvcMsg) (s : State) : Host.Outcome State Fault Refusal := powered s (ask s r 2 m)
/-- READ_SEG (R379). -/
def execReadSeg (r : Req) (m : SvcMsg) (s : State) : Host.Outcome State Fault Refusal := powered s (ask s r 3 m)
/-- WRITE_SEG (R378). -/
def execWriteSeg (r : Req) (m : SvcMsg) (s : State) : Host.Outcome State Fault Refusal := powered s (ask s r 4 m)
/-- TRANSFER_STATUS (R380). -/
def execTransferStatus (r : Req) (m : SvcMsg) (s : State) : Host.Outcome State Fault Refusal := powered s (ask s r 5 m)
/-- OPEN (R398). -/
def execOpenSet (r : Req) (m : SvcMsg) (s : State) : Host.Outcome State Fault Refusal := powered s (ask s r 0x10 m)
/-- STAGE (R398). -/
def execStage (r : Req) (m : SvcMsg) (s : State) : Host.Outcome State Fault Refusal := powered s (ask s r 0x11 m)
/-- CHECK (R401). -/
def execCheck (r : Req) (m : SvcMsg) (s : State) : Host.Outcome State Fault Refusal := powered s (ask s r 0x12 m)
/-- COMMIT (R402). -/
def execCommit (r : Req) (m : SvcMsg) (s : State) : Host.Outcome State Fault Refusal := powered s (ask s r 0x13 m)
/-- ABORT (R405). -/
def execAbort (r : Req) (m : SvcMsg) (s : State) : Host.Outcome State Fault Refusal := powered s (ask s r 0x14 m)
/-- RENEW (R398). -/
def execRenew (r : Req) (m : SvcMsg) (s : State) : Host.Outcome State Fault Refusal := powered s (ask s r 0x15 m)

/-- The value that the message of a DICT stages or writes has a reserved bit set: its own bytes, behind those of the transfer it goes
on with, if any (R6). -/
def rsvStaged (s : State) (f : Fin 9) (bytes : List Byte) : Bool :=
  match parseMsg bytes with
  | some (op, m) =>
    let held := match s.dict.transfers.find? fun t => decide (t.by_ = .fn f ∧ t.key.idx = m.index.toNat ∧ t.key.sub = m.sub.toNat) with
      | some t => t.bytes
      | none => []
    (op = 2 || op = 4 || op = 0x11) && valueRsv m.index.toNat m.sub.toNat ((if op = 4 then held else []) ++ m.data)
  | none => false

/-- DICT (R197, R209): the stream's next entry carries one message; its class follows from the message (R224). One whose host region
entries are being written waits (R178). A value with a reserved bit set rejects the entry, and no response is written (R6; DESIGN CHOICE,
log 41). -/
def execDict (f : Fin 9) (q : Fin 64) (s : State) : Host.Outcome State Fault Refusal :=
  powered s (
    let e := nextEntry s f q
    let t := startEntry s f q 6 [(735, 112)] fun e =>
      let b := enBody e.raw
      if regionPending s f e.raw then s
      else if dcReqLen b = 0 || 1024 < dcReqLen b || dcRespOff b % 64 ≠ 0 then finishNow s f q e (rejected .badField)
      else
        match (dictBlind s f b).orElse (fun _ => hostBufferFault s f (dcRespReg b) (dcRespOff b) 1024 2), dictRequest s f b with
        | some a, _ => finishNow s f q e (failedRes .hostFault false a)
        | none, none => finishNow s f q e (failedRes .hostFault false 0)
        | none, some bytes =>
          let run := updEntry (entryStart s f q e) f q (entrySeq e.raw) fun x => { x with ran := leAt bytes 0 1 }
          let (t, op, code, rsp) : State × Nat × Nat × SvcMsg := match parseMsg bytes with
            | some (op, m) => let x := svc run (.fn f) (some (f, q)) op m; (x.1, op, x.2.1, x.2.2)
            | none => (run, leAt bytes 0 1, 0x0205, SvcMsg.plain [])
          if code = 0x0202 && rsvStaged s f bytes then finishNow s f q e (rejected .reservedSet) else
          let rb := svcBytes op code rsp
          let t := spaceWriteL t f (partOfFn f) (rb.zipIdx.map fun x => (hostAddr (dcRespReg b) (dcRespOff b + x.2), x.1))
          entryDone t f q (entrySeq e.raw) { Res.okay with d0 := BitVec.ofNat 64 rb.length, d1 := BitVec.ofNat 64 code }
    -- a write of 0x2400:01 is journalled as done, and the reset follows
    match e with
    | some e =>
      if enOp e.raw ≠ 6 || s = t then t else
      match dictRequest s f (enBody e.raw) with
      | some bytes =>
        match parseMsg bytes with
        | some (op, m) =>
          let res := ((stream t f q).entries.find? fun x => entrySeq x.raw = entrySeq e.raw).map (·.res)
          match res with
          | some r => (if r.cls = .ok then thenReset t op r.d1.toNat m else t)
          | none => t
        | none => t
      | none => t
    | none => t)

/-! ## Rows of single objects -/

/-- A write of one object by a row of its own; a refused write changes nothing. -/
def rowWrite (s : State) (r : Req) (idx sub off : Nat) (d : List Byte) : State :=
  let s := leaseCheck s
  if !s.pointing.lockstep || (s.power.bringUp = .rom && !manages (actorOf s r)) then s else (objWrite s r idx sub off d).1

/-- CHECK_ENABLE (R73). -/
def execCheckEnable (r : Req) (n : Fin 8) (v : Byte) (s : State) : Host.Outcome State Fault Refusal := powered s (rowWrite s r (0x6100 + n) 0x20 0 [v])
/-- STICKY_FLAGS_CLEAR (R50). -/
def execStickyFlagsClear (r : Req) (trowel : Bool) (n : Fin 8) (v : Byte) (s : State) : Host.Outcome State Fault Refusal :=
  powered s (if trowel then rowWrite s r 0x6200 (0x10 + n) 0 [v] else rowWrite s r (0x6100 + n) 0x10 0 [v])
/-- FIRST_OFFENDER_CLEAR (R94). -/
def execFirstOffenderClear (r : Req) (n : Fin 8) (v : BitVec 256) (s : State) : Host.Outcome State Fault Refusal :=
  powered s (rowWrite s r (0x6100 + n) 0x40 0 (wordBytes v))
/-- HOST_REGION_WRITE (R178): an entry of the requester's own function. -/
def execHostRegionWrite (r : Req) (i : Fin 4096) (d : BitVec 256) (s : State) : Host.Outcome State Fault Refusal :=
  powered s (rowWrite s r (0x65F0 + (actorOf s r).2) 1 (32 * i) (wordBytes d))
/-- COLLECTIVE_REGION_WRITE (R271): an entry of the requester's own partition. -/
def execCollectiveRegionWrite (r : Req) (i : Fin 4096) (d : BitVec 128) (s : State) : Host.Outcome State Fault Refusal :=
  powered s (match actorPart (actorOf s r) with | some p => rowWrite s r (0x7280 + p) 1 (16 * i) (wordBytes d) | none => s)
/-- SENDON_HANDLE_WRITE (R286): handle i + 1 of the requester's own partition. -/
def execSendonHandleWrite (r : Req) (i : Fin 4095) (d : BitVec 128) (s : State) : Host.Outcome State Fault Refusal :=
  powered s (match actorPart (actorOf s r) with | some p => rowWrite s r (0x7290 + p) 1 (16 * i) (wordBytes d) | none => s)
/-- RETIRE_REQUEST (R157). -/
def execRetireRequest (r : Req) (k : Fin 20) (v : Byte) (s : State) : Host.Outcome State Fault Refusal := powered s (rowWrite s r (0x5100 + k) 3 0 [v])
/-- MARGINING_STACK (R158). -/
def execMarginingStack (r : Req) (v : Byte) (s : State) : Host.Outcome State Fault Refusal := powered s (rowWrite s r 0x5300 1 0 [v])
/-- MARGINING_START (R158). -/
def execMarginingStart (r : Req) (v : Byte) (s : State) : Host.Outcome State Fault Refusal := powered s (rowWrite s r 0x5300 3 0 [v])
/-- CREW_RUN (R267). -/
def execCrewRun (r : Req) (c : Fin 16) (s : State) : Host.Outcome State Fault Refusal := powered s (rowWrite s r (crewIdx c) 0x0D 0 [1])
/-- CREW_TEST (R267). -/
def execCrewTest (r : Req) (c : Fin 16) (s : State) : Host.Outcome State Fault Refusal := powered s (rowWrite s r (crewIdx c) 0x0D 0 [2])
/-- CREW_DISSOLVE (R267, R270). -/
def execCrewDissolve (r : Req) (c : Fin 16) (s : State) : Host.Outcome State Fault Refusal := powered s (rowWrite s r (crewIdx c) 0x0D 0 [3])
/-- CLEAR_DIRTY (R305): a layer of the requester's own partition. -/
def execClearDirty (r : Req) (layer : BitVec 32) (s : State) : Host.Outcome State Fault Refusal :=
  powered s (match actorPart (actorOf s r) with | some p => rowWrite s r 0x7300 (0x91 + p) 0 (wordBytes layer) | none => s)
/-- LAYER_STATE_LOAD (R351, R355). -/
def execLayerStateLoad (r : Req) (c : Fin 16) (data : List Byte) (s : State) : Host.Outcome State Fault Refusal :=
  powered s (rowWrite s r (crewIdx c) 0x42 0 data)
/-- FORCE_ABORT (R404). -/
def execForceAbort (r : Req) (id : BitVec 32) (s : State) : Host.Outcome State Fault Refusal := powered s (rowWrite s r 0xA000 2 0 (wordBytes id))
/-- CANCEL_PENDING (R404). -/
def execCancelPending (r : Req) (id : BitVec 32) (s : State) : Host.Outcome State Fault Refusal := powered s (rowWrite s r 0xA000 3 0 (wordBytes id))
/-- CLEAR_REPAIR_MAP (R424). -/
def execClearRepairMap (r : Req) (v : Byte) (s : State) : Host.Outcome State Fault Refusal := powered s (rowWrite s r 0x8100 0x10 0 [v])
/-- PREPARE_FOR_REMOVAL (R432). -/
def execPrepareForRemoval (r : Req) (v : Byte) (s : State) : Host.Outcome State Fault Refusal := powered s (rowWrite s r 0x2400 3 0 [v])
/-- ADVANCE_ROLLBACK_COUNTER (R446). -/
def execAdvanceRollbackCounter (r : Req) (v : Byte) (s : State) : Host.Outcome State Fault Refusal := powered s (rowWrite s r 0x4100 6 0 [v])
/-- BURN_OWNER_KEY_HASH (R448). -/
def execBurnOwnerKeyHash (r : Req) (hash : BitVec 256) (s : State) : Host.Outcome State Fault Refusal := powered s (rowWrite s r 0x4100 4 0 (wordBytes hash))
/-- ATTESTATION_NONCE (R450). -/
def execAttestationNonce (r : Req) (nonce : BitVec 256) (s : State) : Host.Outcome State Fault Refusal := powered s (rowWrite s r 0x4200 1 0 (wordBytes nonce))
/-- GROUP_CONFIG_WRITE (R460). -/
def execGroupConfigWrite (r : Req) (g : Fin 80) (d : List Byte) (s : State) : Host.Outcome State Fault Refusal := powered s (rowWrite s r (0x9000 + g) 1 0 d)
/-- REGISTER_WRITE (R390, R394): an immediate write of any other object. A write of 0x2400:01 asks for its reset. -/
def execRegisterWrite (r : Req) (index : BitVec 16) (sub : Byte) (data : List Byte) (s : State) : Host.Outcome State Fault Refusal :=
  powered s (rowWrite s r index.toNat sub.toNat 0 data)

/-- A write of `v` to 0x2400:01 that is refused changes nothing; one taken starts the warm reset. -/
def resetRow (s : State) (r : Req) (v : Byte) : State :=
  let s := leaseCheck s
  if !s.pointing.lockstep || (s.power.bringUp = .rom && !manages (actorOf s r)) then s else
  let (t, c, _) := objWrite s r 0x2400 1 0 [v]
  if c ≠ 0 then s else warmReset t v.toNat (v = 2)

/-- WARM_RESET (R436, R438): a write of 1, or the module's own for a retirement or map change that waits (R142, R157). -/
def execWarmReset (r : Option Req) (s : State) : Host.Outcome State Fault Refusal :=
  powered s (match r with
    | some r => resetRow s r 1
    | none => if resetWaits s then warmReset s 4 false else s)
/-- WARM_RESET_BRING_UP (R441): a write of 2. -/
def execWarmResetBringUp (r : Req) (s : State) : Host.Outcome State Fault Refusal := powered s (resetRow s r 2)

/-! ## Time (R380, R397, R403, R453) -/

/-- LEASE_EXPIRY (R397). -/
def execLeaseExpiry (s : State) : Host.Outcome State Fault Refusal :=
  powered s (match s.dict.openSet with
    | some o => endOpen (reach s o.lease) 3
    | none => s)

/-- TRANSFER_EXPIRY (R380): 60 s after its session closed an anchor's unfinished transfer goes. -/
def execTransferExpiry (anchor : Fin 8) (s : State) : Host.Outcome State Fault Refusal :=
  powered s (
    let mine (t : Transfer) : Bool := !t.live && (match t.by_ with | .sess _ a => a = anchor | .fn _ => false)
    match s.dict.transfers.find? mine with
    | some t =>
      let s := reach s (t.closedAt + 60000000000)
      { s with dict := { s.dict with transfers := s.dict.transfers.filter fun t => !mine t } }
    | none => s)

/-- A queue entry of a unit was issued for the partition. -/
def cmdOf (s : State) (p : Fin 8) (u : UnitCmd) : Bool := issuerPart s u.iss == some p

/-- A Crew of the partition has operations of its own in flight. -/
def crewBusy (s : State) (p : Fin 8) (c : Fin 16) : Bool :=
  crewOwner s c == some p && ((s.crews[c].ops.any fun o => !o.retired) || !s.crews[c].p2p.isEmpty)

/-- A partition has commands issued and not retired: entries of its function's streams that have started, and commands on units, the Cox
or the Rigger (R143). -/
def partBusy (s : State) (p : Fin 8) : Bool :=
  [s.host.funcs[funcOf p].streams.any (fun x => x.2.entries.any entryIssued), s.courses.toList.any (fun k => k.queue.any (cmdOf s p)), s.trowels.toList.any (fun k => k.queue.any (cmdOf s p)),
    s.hods.toList.any (fun k => (k.queue ++ k.waiting).any (cmdOf s p)), !s.cox[p].cmds.isEmpty,
    (List.finRange 16).any (crewBusy s p)].any id

/-- A Stroke runs on a Crew of the partition; on any Crew, for none. -/
def strokeOf (s : State) (p : Option (Fin 8)) : Bool :=
  (List.finRange 16).any fun (c : Fin 16) => (p.isNone || crewOwner s c == p) && strokeRuns s c

/-- A Crew is between collective operations and P2P messages, and in or out of an attempt that waits for values. -/
def crewAtPoint (s : State) (c : Fin 16) (p : Option (Fin 8)) : Bool :=
  let k := s.crews[c]
  let pend : Bool := decide (k.state = .recovering) && k.attempt.isSome
  (k.ops.all fun o => o.retired) && k.p2p.isEmpty && (pend || !strokeOf s p)

/-- A Stroke runs on a Crew of the partition that an adder region record names: the format and scale of its adds are numeric settings of
that Stroke (R24). -/
def adderRuns (s : State) (owner : Nat) : Bool := owner < 8 && strokeOf s (some (fin8 owner))

/-- The blocks a value touches are at a boundary where it may switch (R143, R265, R395). -/
def atPoint (s : State) (k : ObjKey) (v : List Byte) : Bool :=
  if idxIn k.idx 0x7200 0x720F && idxIn k.sub 2 6 then crewAtPoint s (fin16 (k.idx - 0x7200)) (objPart s k)
  else if strokeObj k.idx k.sub then !strokeOf s (objPart s k)
  else if idxIn k.idx 0x5000 0x5000 && idxIn k.sub 0x40 0x47 then !partBusy s (fin8 (k.sub - 0x40))
  else if k.idx = 0x5400 then !adderRuns s (adderRec s k.sub).1 && !adderRuns s (leAt v 0 1)
  else true

/-- The instant of an apply point has come, and with it the timebase at AT_TIME. -/
def pointCome (s : State) (x : PendSet) : Option State :=
  match apKind x.point with
  | 0 => some s
  | 1 => some (reach s (BitVec.ofNat 64 (apValue x.point)))
  | _ => if apValue x.point ≤ s.crews[apCrew x.point].lastFinished.toNat + 1 && !strokeRuns s (apCrew x.point) then some s else none

/-- Sets that share an apply point take effect in identifier order (R403, R491): none of a lower identifier is still to apply, unless it
waits for a boundary. -/
def turnCome (s : State) (x : PendSet) : Bool :=
  apKind x.point = 0 || !s.dict.pendings.any fun y =>
    y.point = x.point && decide (y.id.toNat < x.id.toNat) && (!y.fill.isEmpty || y.values.all fun v => atPoint s v.1 v.2)

/-- Conflicts a pending set meets at its apply point (R403). -/
def lateConflicts (s : State) (x : PendSet) : List Conflict :=
  let ks := x.values.map (·.1)
  rightConflicts s x.holder ks ++ ruleConflicts (layOver s x.values) ks

/-- APPLY_POINT (R403): at its point and at a boundary of what it touches, the set is judged once more; it fails whole, or waits for
the zero-fill of its region tables, or takes effect whole. -/
def execApplyPoint (id : BitVec 32) (s : State) : Host.Outcome State Fault Refusal :=
  powered s (
    match s.dict.pendings.find? fun x => x.id = id with
    | none => s
    | some x =>
      if !x.fill.isEmpty then s else
      match pointCome s x with
      | none => s
      | some s =>
        if !turnCome s x || !(x.values.all fun v => atPoint s v.1 v.2) then s else
        match lateConflicts s x with
        | [] =>
          let fill := (List.finRange 8).filter fun (p : Fin 8) => !(blocksIn s x.values p).isEmpty
          if fill.isEmpty then (applySet s x)
          else
            let put (y : PendSet) : PendSet := if y.id = id then { y with fill := fill } else y
            { s with dict := { s.dict with pendings := s.dict.pendings.map put } }
        | l => (putConflicts (endPending s id 5) l))

/-- REGION_ZERO_FILL (R453): the blocks that enter partition p's table hold zeros; once no other table of the set is being filled, the
set applies. -/
def execRegionZeroFill (p : Fin 8) (s : State) : Host.Outcome State Fault Refusal :=
  powered s (
    match s.dict.pendings.find? fun x => x.fill.contains p with
    | none => s
    | some x =>
      let s := zeroBlocks s (blocksIn s x.values p)
      let x := { x with fill := x.fill.filter (· ≠ p) }
      if x.fill.isEmpty then (applySet s x)
      else
        let put (y : PendSet) : PendSet := if y.id = x.id then x else y
        { s with dict := { s.dict with pendings := s.dict.pendings.map put } })

end Sys2Proof.Machine
end

