-- ==== Sys2Proof/Machine/Evolu.lean ====
section
/-! DEFINITION. The commands of Evolu (15): bursts and the medium, received frames, addresses, handshakes, sessions and events. -/

namespace Sys2Proof.Machine

open Sys2Proof

/-! ## Bursts (R357 to R362) -/

/-- A change of Evolu with its event (R386). -/
def evoluSet (s : State) (g : Evolu → Evolu) : State := evoluEvent s (updEvolu s g)

/-- A frame leaves as a burst: c and the frame's attempts count, an unacknowledged session frame sent the first time notes when. A probe of
MEDIUM_DOWN is the last burst of the next 100 ms (R362). -/
def burst (s : State) (h : Bool) (f : TxFrame) : State :=
  let s := match f.sess with
    | some (i, t) =>
      let stamp (x : SessFrame) : SessFrame := if x.tseq = t && x.resends = 0 && frService f.bytes ≠ 3 then { x with at_ := s.now } else x
      updSession s i fun k => { k with unacked := k.unacked.map stamp }
    | none => s
  let s := updEvolu s fun e =>
    { e with
      c := e.c + 1, flight := some (h, { f with a := f.a + 1, k := 0 })
      darkUntil := if e.medium = .down then s.now + 100000000 else e.darkUntil }
  emit (ctrAdd s 0 0x1800 0x20 1) (.frame (burstGroups f.bytes))

/-- The medium lets the module send: not while it counts as busy, nor in the second after the timer has darkened the transmitter or the
100 ms after a probe, nor after 16 bursts without an echo but for the probes of MEDIUM_DOWN. -/
def maySend (s : State) : Bool :=
  let e := s.evolu
  e.flight.isNone && e.medium != .busy && e.darkUntil.toNat ≤ s.now.toNat && (e.noEcho < 16 || e.medium == .down)

/-- TRANSMIT (R359, R360, R362): class H goes before class N. A probe with nothing queued is a burst of free bytes. -/
def execTransmit (s : State) : Host.Outcome State Fault Refusal :=
  powered s (
    let e := s.evolu
    (
      if !maySend s then s else
      match e.hq, e.nq with
      | f :: rest, _ => burst (updEvolu s fun e => { e with hq := rest }) true f
      | [], f :: rest => burst (updEvolu s fun e => { e with nq := rest }) false f
      | [], [] =>
        if e.medium == .down then
          let n := s.free
          burst { s with free := n + 1 } false ⟨(List.range 64).map fun i => Config.freeByte n i, none, 0, 0, 0⟩
        else s))

/-- A burst that failed: the sixteenth attempt discards its frame, and the session it belongs to becomes SUSPECT; before, the
frame waits at the front of its class. -/
def burstFailed (s : State) (h : Bool) (f : TxFrame) : State :=
  let s := updEvolu s fun e => { e with flight := none }
  if 16 ≤ f.a then
    let s := ctrAdd s 0 0x1800 0x22 1
    match f.sess with
    | some (i, _) => updSession s i fun k => if k.state = .opened then { k with state := .suspect } else k
    | none => s
  else updEvolu s fun e => if h then { e with hq := f :: e.hq } else { e with nq := f :: e.nq }

/-- The slots owed after a collision (R360). -/
def owedSlots (e : Evolu) (n : Nat) : Nat :=
  (mix (Config.serial ^^^ e.addr.setWidth 64) (BitVec.ofNat 64 e.c)).toNat % 2 ^ min n 8

/-- A burst with no echo at all counts as a collision. -/
def collided (s : State) (h : Bool) (f : TxFrame) : State :=
  let n := f.n + 1
  burstFailed (ctrAdd s 0 0x1800 0x21 1) h { f with n := n, k := owedSlots s.evolu n }

/-- An echo has been seen: MEDIUM_DOWN ends. -/
def echoSeen (s : State) : State :=
  evoluSet s fun e => { e with noEcho := 0, medium := if e.medium == .down then .ok else e.medium }

/-- ECHO_CHECK (R361, R362). -/
def execEchoCheck (x : Echo) (s : State) : Host.Outcome State Fault Refusal :=
  powered s (match s.evolu.flight with
    | none => s
    | some (h, f) =>
      match x with
      | .none => collided (updEvolu s fun e => { e with noEcho := e.noEcho + 1 }) h f
      | .clean => updEvolu (echoSeen s) fun e => { e with flight := none }
      | .differs g =>
        let s := echoSeen s
        if g < 500 then collided s h f else burstFailed (ctrAdd s 0 0x1800 0x23 1) h { f with k := 0 })

/-- BURST_TIMER (R357, R362): the burst is darkened and counts as one attempt; the transmitter stays dark for 1 s. -/
def execBurstTimer (s : State) : Host.Outcome State Fault Refusal :=
  powered s (match s.evolu.flight with
    | none => s
    | some (h, f) =>
      let s := updEvolu s fun e => { e with darkUntil := s.now + 1000000000 }
      burstFailed (ctrAdd s 0 0x1800 0x23 1) h { f with k := 0 })

/-- MEDIUM_DOWN (R362): after 16 bursts without an echo. -/
def execMediumDown (s : State) : Host.Outcome State Fault Refusal :=
  powered s (if s.evolu.noEcho < 16 then s else evoluSet s fun e => { e with medium := .down })

/-- MEDIUM_BUSY (R362). -/
def execMediumBusy (s : State) : Host.Outcome State Fault Refusal := powered s (evoluSet s fun e => { e with medium := .busy })

/-- MEDIUM_IDLE (R362): sending resumes after MEDIUM_BUSY. -/
def execMediumIdle (s : State) : Host.Outcome State Fault Refusal :=
  powered s (evoluSet s fun e => { e with medium := if e.medium == .busy then .ok else e.medium })

/-! ## Addresses (R367) -/

/-- CLAIM: with a fresh nonce, and the stored address as the hint. -/
def execClaim (s : State) : Host.Outcome State Fault Refusal :=
  powered s (if s.evolu.addr ≠ 0 then s else
    let (v, s) := fresh s
    let nonce : BitVec 32 := v.setWidth 32
    let payload := leBytes 8 Config.serial.toNat ++ [s.evolu.hint] ++ wordBytes nonce
    sendPlain (updEvolu s fun e => { e with claim := some nonce }) 0x20 1 0 0 0 0 payload)

/-- ASSIGN. -/
def execAssign (src : BitVec 6) (serial : BitVec 64) (nonce : BitVec 32) (addr : Byte) (s : State) : Host.Outcome State Fault Refusal :=
  powered s (takeAssign s src.toNat serial nonce addr.toNat)

/-- ANNOUNCE. -/
def execAnnounce (src : BitVec 6) (serial : BitVec 64) (s : State) : Host.Outcome State Fault Refusal :=
  powered s (takeAnnounce s src.toNat serial)

/-! ## Handshakes (R369, R370) -/

/-- OPEN_REQ. -/
def execOpenReq (src : BitVec 6) (hid : BitVec 32) (index count : BitVec 16) (seg : List Byte) (s : State) :
    Host.Outcome State Fault Refusal := powered s (takeOpenReq s src hid index.toNat count.toNat seg)

/-- OPEN_FIN. -/
def execOpenFin (src : BitVec 6) (hid : BitVec 32) (index count : BitVec 16) (seg : List Byte) (s : State) :
    Host.Outcome State Fault Refusal := powered s (takeOpenFin s src hid index.toNat count.toNat seg)

/-- OPEN_FIN_TIMEOUT: the handshake goes, with the session it held OPENING. -/
def execOpenFinTimeout (hid : BitVec 32) (s : State) : Host.Outcome State Fault Refusal :=
  powered s (match s.evolu.shakes.find? fun h => decide (h.hid = hid) && h.slot.isSome with
    | none => s
    | some h =>
      let s := if h.fin.isEmpty then reach s (h.since + 1000000000) else s
      match h.slot with
      | some i => ctrAdd (closeSession (dropShake s h) i) 0 0x1800 0x26 1
      | none => s)

/-- HANDSHAKE_SEGMENT_TIMEOUT: the message being collected is discarded; an OPEN_REQ takes its handshake with it. -/
def execHandshakeSegmentTimeout (hid : BitVec 32) (s : State) : Host.Outcome State Fault Refusal :=
  powered s (match s.evolu.shakes.find? fun h => decide (h.hid = hid) && (!h.req.isEmpty || !h.fin.isEmpty) with
    | none => s
    | some h =>
      let s := reach s (h.since + 20000000)
      if h.slot.isNone then dropShake s h else setShake s { h with req := [], fin := [] })

/-! ## Frames of sessions (R373 to R375) -/

def sessLive (k : Session) : Bool := k.state == .opened || k.state == .suspect

/-- A duplicate frame: a REQUEST with another tag, one whose response is unacknowledged, or anything else. -/
def duplicateFrame (s : State) (i : Fin 8) (f : HeldFrame) : State :=
  let k := s.evolu.sessions[i]
  if f.service ≠ 1 then sendAck s i 0 else
  let waiting := (k.todo.find? fun x => x.tseq = f.tseq).map (·.tag)
  match k.cache.find? fun x => x.tseq = f.tseq with
  | some x =>
    if x.tag ≠ f.tag then sendAck s i 0x0401 else
    match x.reply with
    | some (t, _) =>
      match k.unacked.find? fun u => u.tseq = t with
      | some u => resendOne s i u
      | none => sendAck s i 0
    | none => sendAck s i 0
  | none => if waiting.isSome && waiting ≠ some f.tag then sendAck s i 0x0401 else sendAck s i 0

/-- The frame expected is accepted, then those held that follow it. -/
def acceptN : Nat → State → Fin 8 → HeldFrame → State
  | 0, s, _, _ => s
  | n + 1, s, i, f =>
    let s := updSession s i fun k =>
      { k with expect := k.expect + 1, todo := k.todo ++ [f], held := k.held.filter (fun x => x.tseq ≠ f.tseq), ackOwed := true }
    let k := s.evolu.sessions[i]
    match k.held.find? fun x => x.tseq = k.expect with
    | some g => acceptN n s i g
    | none => s

/-- An in-window frame of a SUSPECT session opens it again. -/
def wake (s : State) (i : Fin 8) : State :=
  if s.evolu.sessions[i].state = .suspect then flushOut (updSession s i fun k => { k with state := .opened }) i else s

/-- R373: the frame against E. -/
def windowJudge (s : State) (i : Fin 8) (f : HeldFrame) : State :=
  let k := s.evolu.sessions[i]
  let d := (f.tseq - k.expect).toNat
  if d = 0 then acceptN 16 (wake s i) i f
  else if d ≤ 15 then
    let keep (k : Session) : Session := if k.held.any fun x => x.tseq = f.tseq then k else { k with held := k.held ++ [f] }
    sendAck (updSession (wake s i) i keep) i 0
  else if 65536 - d ≤ 64 then duplicateFrame s i f
  else sendAck s i 0x0402

/-- An ACK (R373, R374): the third in a row with one ASEQ while frames are outstanding sends the oldest again. -/
def takeAckFrame (s : State) (i : Fin 8) (aseq : BitVec 16) : State :=
  if !aseqOk s.evolu.sessions[i] aseq then sendAck s i 0x0402 else
  let s := takeAseq (wake s i) i aseq
  let k := s.evolu.sessions[i]
  let n := if k.unacked.isEmpty then 0 else if k.dup.1 = aseq then k.dup.2 + 1 else 1
  let s := updSession s i fun k => { k with dup := (aseq, if n = 3 then 0 else n) }
  if n = 3 then resendOldest s i else s

/-- EVOLU_ACK (R373). -/
def execEvoluAck (i : Fin 8) (aseq : BitVec 16) (s : State) : Host.Outcome State Fault Refusal :=
  powered s (if !sessLive s.evolu.sessions[i] then s else takeAckFrame (updSession s i fun k => { k with lastRx := s.now }) i aseq)

/-- An EPOCH_NOTICE, at most one per source and second (R382, R384). -/
def epochNotice (s : State) (src session : Nat) : State :=
  let recent := s.evolu.notices.filter fun x => s.now.toNat < x.2.toNat + 1000000000
  if recent.any fun x => x.1.toNat = src then updEvolu s fun e => { e with notices := recent } else
  let s := updEvolu s fun e => { e with notices := recent ++ [(BitVec.ofNat 6 src, s.now)] }
  ctrAdd (sendPlain s 0x40 src session 0 0 s.evolu.epoch.toNat (leBytes 2 0x0403)) 0 0x1800 0x29 1

/-- An authenticated session frame: steps 8 and 9 of R366. -/
def sessionFrame (s : State) (i : Fin 8) (b : List Byte) : State :=
  let s := updSession s i fun k => { k with lastRx := s.now }
  let aseq := BitVec.ofNat 16 (frAseq b)
  if frEpoch b < s.evolu.epoch.toNat then epochNotice s (frSrc b) (frSession b)
  else if frMalformed b then sendAck s i 0x0205
  else if frService b = 3 then takeAckFrame s i aseq
  else if !aseqOk s.evolu.sessions[i] aseq then sendAck s i 0x0402
  else
    windowJudge (takeAseq s i aseq) i
      ⟨BitVec.ofNat 16 (frTseq b), BitVec.ofNat 8 (frService b), BitVec.ofNat 128 (leAt (frTag b) 0 16), frPayload b⟩

/-- Steps 6 and 7 of R366. -/
def takeSession (s : State) (b : List Byte) : State :=
  let names (i : Fin 8) : Bool := sessLive s.evolu.sessions[i] && s.evolu.sessions[i].sid.toNat = frSession b
  match (List.finRange 8).find? names with
  | none => if frEpoch b < s.evolu.epoch.toNat then epochNotice s (frSrc b) (frSession b) else stranger s
  | some i =>
    let k := s.evolu.sessions[i]
    if frSrc b ≠ k.addr.toNat || frTag b ≠ frameTag k.key (b.take 20) (frPayload b) then stranger s else sessionFrame s i b

/-- Step 5 of R366: a frame without a session goes to the address rules or the handshake; a malformed one is dropped. -/
def takePlain (s : State) (b : List Byte) : State :=
  let p := frPayload b
  let src := BitVec.ofNat 6 (frSrc b)
  let hid := BitVec.ofNat 32 (frSession b)
  if frMalformed b then s else
  match frService b with
  | 0x21 => if frLen b = 13 then takeAssign s (frSrc b) (BitVec.ofNat 64 (leAt p 0 8)) (BitVec.ofNat 32 (leAt p 8 4)) (leAt p 12 1) else s
  | 0x22 => if frLen b = 8 then takeAnnounce s (frSrc b) (BitVec.ofNat 64 (leAt p 0 8)) else s
  | 0x30 => takeOpenReq s src hid (frTseq b) (frAseq b) p
  | 0x32 => takeOpenFin s src hid (frTseq b) (frAseq b) p
  | _ => s

/-- The frame is the one whose burst is on the medium: the module sent it. -/
def ownEcho (s : State) (b : List Byte) : Bool :=
  match s.evolu.flight with | some (_, f) => f.bytes == b | none => false

/-- FRAME_RECEIVE (R361, R366, R381). -/
def execFrameReceive (b : List Byte) (violation : Bool) (s : State) : Host.Outcome State Fault Refusal :=
  powered s (
    let own := s.evolu.addr.toNat
    (
      if ownEcho s b then s
      else if violation || !frCrcOk b then ctrAdd s 0 0x1800 0x24 1
      else if frDst b ≠ own && frDst b ≠ 63 then s
      else if frDst b = 63 && frService b ≠ 0x21 && frService b ≠ 0x22 then s
      else if own ≠ 0 && frSrc b = own then addressConflict s
      else if frSrc b = 0 && frService b ≠ 0x20 then stranger s
      else if 1 ≤ frService b && frService b ≤ 3 then takeSession s b
      else takePlain s b))

/-! ## Requests of sessions (R375, R377, R385) -/

/-- SUBSCRIBE: a later one replaces the mask. -/
def svcSubscribe (s : State) (i : Fin 8) (m : SvcMsg) : Reply :=
  if !s.pointing.lockstep then refuseOp s m 0x0101
  else if m.data.length ≠ 4 then refuseOp s m 0x0205
  else if 2047 < leAt m.data 0 4 then refuseOp s m 0x0202
  else (updSession s i fun k => { k with mask := BitVec.ofNat 32 (leAt m.data 0 4) }, 0, answer m 0 0 [])

/-- The operations of a session. CLOSE takes effect once it has been answered. -/
def svcSession (s : State) (i : Fin 8) (op : Nat) (m : SvcMsg) : Reply :=
  match op with
  | 0x21 => svcSubscribe s i m
  | 0x2F => if !s.pointing.lockstep then refuseOp s m 0x0101 else (s, 0, answer m 0 0 [])
  | _ => svc s (.sess i) none op m

/-- Class-H frames queued since there were `n` leave at once. -/
def emitSince (s : State) (n : Nat) : State := (s.evolu.hq.drop n).foldl (fun t x => emit t (.frame (burstGroups x.bytes))) s

/-- The front request of a session executes whole and is answered; what CLOSE and a taken write of 0x2400:01 ask for follows the
answer. A session that its own request has closed gets none. -/
def runRequest (s : State) (i : Fin 8) (f : HeldFrame) : State :=
  let line : CacheEntry := ⟨f.tseq, f.tag, none⟩
  let first (k : Session) : Session :=
    { k with todo := k.todo.filter (fun x => x.tseq ≠ f.tseq), cache := (k.cache ++ [line]).drop (k.cache.length + 1 - 64) }
  let s := updSession s i first
  let (t, op, code, rsp) : State × Nat × Nat × SvcMsg := match parseMsg f.payload with
    | some (op, m) => let x := svcSession s i op m; (x.1, op, x.2.1, x.2.2)
    | none => (s, leAt f.payload 0 1, 0x0205, SvcMsg.plain [])
  if !sessLive t.evolu.sessions[i] || t.evolu.sessions[i].sid ≠ s.evolu.sessions[i].sid then t else
  let n := t.evolu.hq.length
  let t := sendResponse t i f.tseq (svcBytes op code { rsp with ref := f.tseq })
  let t := if op = 0x2F && code = 0 then closeSession t i else t
  match (parseMsg f.payload).bind fun x => resetAsked x.1 code x.2 with
  | some bring => warmReset (emitSince t n) (if bring then 2 else 1) bring
  | none => t

/-- The first request of those in order, with this TSEQ. -/
def nextRequest (k : Session) (tseq : BitVec 16) : Option HeldFrame :=
  match k.todo.filter fun x => decide (x.service = 1) with
  | f :: _ => if f.tseq = tseq then some f else none
  | [] => none

/-- REQUEST (R375): one that is not in order yet is judged by the window first (R373). -/
def execRequest (i : Fin 8) (tseq : BitVec 16) (tag : BitVec 128) (msg : List Byte) (s : State) : Host.Outcome State Fault Refusal :=
  powered s (
    if !sessLive s.evolu.sessions[i] then s else
    match nextRequest s.evolu.sessions[i] tseq with
    | some f => if f.tag = tag then runRequest s i f else sendAck s i 0x0401
    | none =>
      let t := windowJudge (updSession s i fun k => { k with lastRx := s.now }) i ⟨tseq, 1, tag, msg⟩
      match nextRequest t.evolu.sessions[i] tseq with
      | some f => if s.evolu.sessions[i].expect = tseq then runRequest t i f else t
      | none => t)

/-- RESPONSE (R385): the answer to an EVENT, whose REF acknowledges that request. -/
def execResponse (i : Fin 8) (tseq : BitVec 16) (msg : List Byte) (s : State) : Host.Outcome State Fault Refusal :=
  powered s (
    if !sessLive s.evolu.sessions[i] then s else
    let s := if s.evolu.sessions[i].todo.any fun x => decide (x.tseq = tseq) && decide (x.service = 2) then s
      else windowJudge (updSession s i fun k => { k with lastRx := s.now }) i ⟨tseq, 2, 0, msg⟩
    let k := s.evolu.sessions[i]
    let ref := BitVec.ofNat 16 (leAt msg 2 2)
    if !k.todo.any fun x => decide (x.tseq = tseq) && decide (x.service = 2) then s else
    let s := updSession s i fun k => { k with todo := k.todo.filter fun x => x.tseq ≠ tseq }
    if k.unacked.any fun u => u.tseq = ref && u.service = 1 then takeAseq s i ref else s)

/-- EVENT (R386). -/
def execEvent (i : Fin 8) (s : State) : Host.Outcome State Fault Refusal := powered s (sendEvents s i)

/-- SUBSCRIBE (R385). -/
def execSubscribe (i : Fin 8) (m : SvcMsg) (s : State) : Host.Outcome State Fault Refusal :=
  powered s (if !sessLive s.evolu.sessions[i] then s else
    let (t, code, rsp) := svcSubscribe s i m
    emit t (.response (.sess i) (svcBytes 0x21 code rsp)))

/-- CLOSE (R372). -/
def execClose (i : Fin 8) (s : State) : Host.Outcome State Fault Refusal := powered s (closeSession s i)

/-! ## Timers of sessions (R372, R374) -/

/-- ACK_DELAY (R374). -/
def execAckDelay (i : Fin 8) (s : State) : Host.Outcome State Fault Refusal :=
  powered s (if sessLive s.evolu.sessions[i] && s.evolu.sessions[i].ackOwed then sendAck s i 0 else s)

/-- RTO_EXPIRY (R374): RTO doubles, to 50 ms at most; a SUSPECT session resends every 50 ms. -/
def execRtoExpiry (i : Fin 8) (s : State) : Host.Outcome State Fault Refusal :=
  powered s (
    let k := s.evolu.sessions[i]
    if !sessLive k || k.unacked.isEmpty then s else
    resendOldest (updSession s i fun k => if k.state = .opened then { k with rto := min 50000000 (2 * k.rto) } else k) i)

/-- SUSPECT_TIMEOUT (R372): 10 s. -/
def execSuspectTimeout (i : Fin 8) (s : State) : Host.Outcome State Fault Refusal :=
  powered s (if s.evolu.sessions[i].state = .suspect then closeSession s i else s)

/-- IDLE_LIMIT (R372): 0x1800:05 milliseconds after the last authenticated frame. -/
def execIdleLimit (i : Fin 8) (s : State) : Host.Outcome State Fault Refusal :=
  powered s (
    let k := s.evolu.sessions[i]
    if !sessLive k then s else
    closeSession (reach s (k.lastRx + BitVec.ofNat 64 (objNat s 0 0x1800 5 60000 * 1000000))) i)

end Sys2Proof.Machine
end

