-- ==== Sys2Proof/Machine/Dispatch.lean ====
section
/-! DEFINITION. Which meaning each command has: one arm per constructor of `Instr`. -/

namespace Sys2Proof.Machine

open Sys2Proof

def exec (i : Instr) (s : State) : Host.Outcome State Fault Refusal :=
  match i with
  | .mm w n c => Sys2Proof.Machine.execMm w n c s
  | .loadw w n c => Sys2Proof.Machine.execLoadw w n c s
  | .weightLoadDone n => Sys2Proof.Machine.execWeightLoadDone n s
  | .passEnd n bad => Sys2Proof.Machine.execPassEnd n bad s
  | .checkVerdict n => Sys2Proof.Machine.execCheckVerdict n s
  | .laneSubstitution n ok => Sys2Proof.Machine.execLaneSubstitution n ok s
  | .tileInterlockRelease n h => Sys2Proof.Machine.execTileInterlockRelease n h s
  | .guardStallRelease n => Sys2Proof.Machine.execGuardStallRelease n s
  | .checkEnable r n v => Sys2Proof.Machine.execCheckEnable r n v s
  | .stickyFlagsClear r trowel n v => Sys2Proof.Machine.execStickyFlagsClear r trowel n v s
  | .firstOffenderClear r n v => Sys2Proof.Machine.execFirstOffenderClear r n v s
  | .vop w n c => Sys2Proof.Machine.execVop w n c s
  | .vred w n c => Sys2Proof.Machine.execVred w n c s
  | .vcvt w n c => Sys2Proof.Machine.execVcvt w n c s
  | .trowelRetire n => Sys2Proof.Machine.execTrowelRetire n s
  | .palletBankSubstitution n b => Sys2Proof.Machine.execPalletBankSubstitution n b s
  | .descriptorStore w n slot d => Sys2Proof.Machine.execDescriptorStore w n slot d s
  | .tileTableStore w n h d => Sys2Proof.Machine.execTileTableStore w n h d s
  | .copy w h c => Sys2Proof.Machine.execCopy w h c s
  | .copyAdd w h c => Sys2Proof.Machine.execCopyAdd w h c s
  | .gather w h c => Sys2Proof.Machine.execGather w h c s
  | .scatter w h c => Sys2Proof.Machine.execScatter w h c s
  | .addscatter w h c => Sys2Proof.Machine.execAddscatter w h c s
  | .hodRetire h => Sys2Proof.Machine.execHodRetire h s
  | .hodQueueWait h => Sys2Proof.Machine.execHodQueueWait h s
  | .hodPartFault h => Sys2Proof.Machine.execHodPartFault h s
  | .hostRegionWrite r ix d => Sys2Proof.Machine.execHostRegionWrite r ix d s
  | .atsInvalidation f io page => Sys2Proof.Machine.execAtsInvalidation f io page s
  | .memorySideAdd p a op => Sys2Proof.Machine.execMemorySideAdd p a op s
  | .regulatorRequest p sn n => Sys2Proof.Machine.execRegulatorRequest p sn n s
  | .patrolScrub sn pc off errs => Sys2Proof.Machine.execPatrolScrub sn pc off errs s
  | .rowRepair sn pc bank row => Sys2Proof.Machine.execRowRepair sn pc bank row s
  | .pseudoChannelRemap sn pc => Sys2Proof.Machine.execPseudoChannelRemap sn pc s
  | .retireRequest r sn v => Sys2Proof.Machine.execRetireRequest r sn v s
  | .marginingStack r v => Sys2Proof.Machine.execMarginingStack r v s
  | .marginingStart r v => Sys2Proof.Machine.execMarginingStart r v s
  | .marginingDone map => Sys2Proof.Machine.execMarginingDone map s
  | .invalidScrub => Sys2Proof.Machine.execInvalidScrub s
  | .linkTraining rate lanes flit retimers => Sys2Proof.Machine.execLinkTraining rate lanes flit retimers s
  | .vfFlr p => Sys2Proof.Machine.execVfFlr p s
  | .pf0Flr => Sys2Proof.Machine.execPf0Flr s
  | .hotReset => Sys2Proof.Machine.execHotReset s
  | .statusPageUpdate f => Sys2Proof.Machine.execStatusPageUpdate f s
  | .statusPageWrite f => Sys2Proof.Machine.execStatusPageWrite f s
  | .bar2Read f off len => Sys2Proof.Machine.execBar2Read f off len s
  | .bar2Write f off data poisoned => Sys2Proof.Machine.execBar2Write f off data poisoned s
  | .msixHoldExpiry f v => Sys2Proof.Machine.execMsixHoldExpiry f v s
  | .msixUnmask f w => Sys2Proof.Machine.execMsixUnmask f w s
  | .bootstrapEnableSet f w => Sys2Proof.Machine.execBootstrapEnableSet f w s
  | .bootstrapEnableClear f => Sys2Proof.Machine.execBootstrapEnableClear f s
  | .streamPoll f sn hw => Sys2Proof.Machine.execStreamPoll f sn hw s
  | .crcStuck f sn => Sys2Proof.Machine.execCrcStuck f sn s
  | .journalBurstWrite f sn => Sys2Proof.Machine.execJournalBurstWrite f sn s
  | .entryAccept f sn => Sys2Proof.Machine.execEntryAccept f sn s
  | .journalWriteFail copyB => Sys2Proof.Machine.execJournalWriteFail copyB s
  | .journalRebuildDone => Sys2Proof.Machine.execJournalRebuildDone s
  | .retirement f sn => Sys2Proof.Machine.execRetirement f sn s
  | .nop f sn => Sys2Proof.Machine.execNop f sn s
  | .launch f sn => Sys2Proof.Machine.execLaunch f sn s
  | .hostCopy f sn => Sys2Proof.Machine.execHostCopy f sn s
  | .hostAccumulateStart f sn => Sys2Proof.Machine.execHostAccumulateStart f sn s
  | .fenceLocal f sn => Sys2Proof.Machine.execFenceLocal f sn s
  | .fenceDevice f sn => Sys2Proof.Machine.execFenceDevice f sn s
  | .fenceHost f sn => Sys2Proof.Machine.execFenceHost f sn s
  | .fenceCrew f sn arrived => Sys2Proof.Machine.execFenceCrew f sn arrived s
  | .mark f sn => Sys2Proof.Machine.execMark f sn s
  | .dict f sn => Sys2Proof.Machine.execDict f sn s
  | .exportSlots f sn => Sys2Proof.Machine.execExportSlots f sn s
  | .streamEnable f sn => Sys2Proof.Machine.execStreamEnable f sn s
  | .streamDisable f sn => Sys2Proof.Machine.execStreamDisable f sn s
  | .streamResume f sn => Sys2Proof.Machine.execStreamResume f sn s
  | .signalEvent f e => Sys2Proof.Machine.execSignalEvent f e s
  | .eventWaitSatisfied f sn => Sys2Proof.Machine.execEventWaitSatisfied f sn s
  | .attemptStart c => Sys2Proof.Machine.execAttemptStart c s
  | .coreEcall w => Sys2Proof.Machine.execCoreEcall w s
  | .coreTrap e => Sys2Proof.Machine.execCoreTrap e s
  | .laserSwitch ix uw => Sys2Proof.Machine.execLaserSwitch ix uw s
  | .codewordReceive b pl w => Sys2Proof.Machine.execCodewordReceive b pl w s
  | .align p w => Sys2Proof.Machine.execAlign p w s
  | .packetReceive p bytes => Sys2Proof.Machine.execPacketReceive p bytes s
  | .ack p w => Sys2Proof.Machine.execAck p w s
  | .nak p w => Sys2Proof.Machine.execNak p w s
  | .ackTimer p => Sys2Proof.Machine.execAckTimer p s
  | .idleTimer p lane => Sys2Proof.Machine.execIdleTimer p lane s
  | .idle p lane w => Sys2Proof.Machine.execIdle p lane w s
  | .holdover => Sys2Proof.Machine.execHoldover s
  | .replayTimeout p => Sys2Proof.Machine.execReplayTimeout p s
  | .lockLoss p => Sys2Proof.Machine.execLockLoss p s
  | .portRetrain p => Sys2Proof.Machine.execPortRetrain p s
  | .sparePropose b w => Sys2Proof.Machine.execSparePropose b w s
  | .spareReady b w => Sys2Proof.Machine.execSpareReady b w s
  | .spareSwitch b w => Sys2Proof.Machine.execSpareSwitch b w s
  | .spareDone b w => Sys2Proof.Machine.execSpareDone b w s
  | .spareAbort b w => Sys2Proof.Machine.execSpareAbort b w s
  | .spareTimeout b => Sys2Proof.Machine.execSpareTimeout b s
  | .crewRun r c => Sys2Proof.Machine.execCrewRun r c s
  | .crewTest r c => Sys2Proof.Machine.execCrewTest r c s
  | .crewDissolve r c => Sys2Proof.Machine.execCrewDissolve r c s
  | .hello c rank hash epoch => Sys2Proof.Machine.execHello c rank hash epoch s
  | .helloResend c => Sys2Proof.Machine.execHelloResend c s
  | .heartbeat c peer => Sys2Proof.Machine.execHeartbeat c peer s
  | .memberLost c peer => Sys2Proof.Machine.execMemberLost c peer s
  | .recover c src epoch cause lost => Sys2Proof.Machine.execRecover c src epoch cause lost s
  | .allreduce w c => Sys2Proof.Machine.execAllreduce w c s
  | .reducescatter w c => Sys2Proof.Machine.execReducescatter w c s
  | .allgather w c => Sys2Proof.Machine.execAllgather w c s
  | .broadcast w c => Sys2Proof.Machine.execBroadcast w c s
  | .reduce w c => Sys2Proof.Machine.execReduce w c s
  | .alltoall w c => Sys2Proof.Machine.execAlltoall w c s
  | .alltoallv w c => Sys2Proof.Machine.execAlltoallv w c s
  | .barrier w c => Sys2Proof.Machine.execBarrier w c s
  | .barrierSync c src op level release => Sys2Proof.Machine.execBarrierSync c src op level release s
  | .counts c src op rows included => Sys2Proof.Machine.execCounts c src op rows included s
  | .ready c src op => Sys2Proof.Machine.execReady c src op s
  | .send w c => Sys2Proof.Machine.execSend w c s
  | .recv w c => Sys2Proof.Machine.execRecv w c s
  | .credit c src stage cap => Sys2Proof.Machine.execCredit c src stage cap s
  | .done c src msg n => Sys2Proof.Machine.execDone c src msg n s
  | .crewopRetire c op => Sys2Proof.Machine.execCrewopRetire c op s
  | .collectiveRegionWrite r ix d => Sys2Proof.Machine.execCollectiveRegionWrite r ix d s
  | .sendonHandleWrite r ix d => Sys2Proof.Machine.execSendonHandleWrite r ix d s
  | .update w c => Sys2Proof.Machine.execUpdate w c s
  | .hold w c => Sys2Proof.Machine.execHold w c s
  | .apply w c => Sys2Proof.Machine.execApply w c s
  | .coxFeed p layer => Sys2Proof.Machine.execCoxFeed p layer s
  | .coxShareWindow p => Sys2Proof.Machine.execCoxShareWindow p s
  | .clearDirty r layer => Sys2Proof.Machine.execClearDirty r layer s
  | .vote w c => Sys2Proof.Machine.execVote w c s
  | .votePacket c h b => Sys2Proof.Machine.execVotePacket c h b s
  | .arrived c h rank red => Sys2Proof.Machine.execArrived c h rank red s
  | .stragglerDeadline c => Sys2Proof.Machine.execStragglerDeadline c s
  | .cut c h leader entries => Sys2Proof.Machine.execCut c h leader entries s
  | .log c h decision cause incl => Sys2Proof.Machine.execLog c h decision cause incl s
  | .logack c h decision cause incl => Sys2Proof.Machine.execLogack c h decision cause incl s
  | .decide c h b => Sys2Proof.Machine.execDecide c h b s
  | .query c h src => Sys2Proof.Machine.execQuery c h src s
  | .queryTimer c => Sys2Proof.Machine.execQueryTimer c s
  | .resolve c h src b => Sys2Proof.Machine.execResolve c h src b s
  | .backupTakeover c => Sys2Proof.Machine.execBackupTakeover c s
  | .rejoinCopy c layer desc params state rec_ => Sys2Proof.Machine.execRejoinCopy c layer desc params state rec_ s
  | .layerStateLoad r c data => Sys2Proof.Machine.execLayerStateLoad r c data s
  | .transmit => Sys2Proof.Machine.execTransmit s
  | .echoCheck e => Sys2Proof.Machine.execEchoCheck e s
  | .burstTimer => Sys2Proof.Machine.execBurstTimer s
  | .mediumDown => Sys2Proof.Machine.execMediumDown s
  | .mediumBusy => Sys2Proof.Machine.execMediumBusy s
  | .frameReceive bytes violation => Sys2Proof.Machine.execFrameReceive bytes violation s
  | .claim => Sys2Proof.Machine.execClaim s
  | .assign src serial nonce addr => Sys2Proof.Machine.execAssign src serial nonce addr s
  | .announce src serial => Sys2Proof.Machine.execAnnounce src serial s
  | .openReq src hid index count seg => Sys2Proof.Machine.execOpenReq src hid index count seg s
  | .openFin src hid index count seg => Sys2Proof.Machine.execOpenFin src hid index count seg s
  | .openFinTimeout hid => Sys2Proof.Machine.execOpenFinTimeout hid s
  | .request ix tseq tag msg => Sys2Proof.Machine.execRequest ix tseq tag msg s
  | .response ix tseq msg => Sys2Proof.Machine.execResponse ix tseq msg s
  | .evoluAck ix aseq => Sys2Proof.Machine.execEvoluAck ix aseq s
  | .ackDelay ix => Sys2Proof.Machine.execAckDelay ix s
  | .rtoExpiry ix => Sys2Proof.Machine.execRtoExpiry ix s
  | .suspectTimeout ix => Sys2Proof.Machine.execSuspectTimeout ix s
  | .idleLimit ix => Sys2Proof.Machine.execIdleLimit ix s
  | .read r m => Sys2Proof.Machine.execRead r m s
  | .write r m => Sys2Proof.Machine.execWrite r m s
  | .readSeg r m => Sys2Proof.Machine.execReadSeg r m s
  | .writeSeg r m => Sys2Proof.Machine.execWriteSeg r m s
  | .transferStatus r m => Sys2Proof.Machine.execTransferStatus r m s
  | .transferExpiry anchor => Sys2Proof.Machine.execTransferExpiry anchor s
  | .openSet r m => Sys2Proof.Machine.execOpenSet r m s
  | .stage r m => Sys2Proof.Machine.execStage r m s
  | .check r m => Sys2Proof.Machine.execCheck r m s
  | .commit r m => Sys2Proof.Machine.execCommit r m s
  | .abort r m => Sys2Proof.Machine.execAbort r m s
  | .renew r m => Sys2Proof.Machine.execRenew r m s
  | .event ix => Sys2Proof.Machine.execEvent ix s
  | .subscribe ix m => Sys2Proof.Machine.execSubscribe ix m s
  | .close ix => Sys2Proof.Machine.execClose ix s
  | .leaseExpiry => Sys2Proof.Machine.execLeaseExpiry s
  | .applyPoint id => Sys2Proof.Machine.execApplyPoint id s
  | .regionZeroFill p => Sys2Proof.Machine.execRegionZeroFill p s
  | .cancelPending r id => Sys2Proof.Machine.execCancelPending r id s
  | .forceAbort r id => Sys2Proof.Machine.execForceAbort r id s
  | .activityUrgent id unit => Sys2Proof.Machine.execActivityUrgent id unit s
  | .pointingPreemption id unit ns => Sys2Proof.Machine.execPointingPreemption id unit ns s
  | .courseLaneSelfTest n first failing => Sys2Proof.Machine.execCourseLaneSelfTest n first failing s
  | .trowelCoxLaneTest n failing => Sys2Proof.Machine.execTrowelCoxLaneTest n failing s
  | .palletBankTest n pb ok => Sys2Proof.Machine.execPalletBankTest n pb ok s
  | .coreRotation k ok => Sys2Proof.Machine.execCoreRotation k ok s
  | .laneRecalibration b lane => Sys2Proof.Machine.execLaneRecalibration b lane s
  | .deadlineMissed id unit => Sys2Proof.Machine.execDeadlineMissed id unit s
  | .lockstepMismatch core0 core1 spare => Sys2Proof.Machine.execLockstepMismatch core0 core1 spare s
  | .clearRepairMap r v => Sys2Proof.Machine.execClearRepairMap r v s
  | .referenceLoss ref => Sys2Proof.Machine.execReferenceLoss ref s
  | .clockStep d up => Sys2Proof.Machine.execClockStep d up s
  | .powerSample w mv => Sys2Proof.Machine.execPowerSample w mv s
  | .thermalSample junctions stackTemps => Sys2Proof.Machine.execThermalSample junctions stackTemps s
  | .coldStart lasers => Sys2Proof.Machine.execColdStart lasers s
  | .underVoltageTrip mv => Sys2Proof.Machine.execUnderVoltageTrip mv s
  | .overVoltageTrip mv => Sys2Proof.Machine.execOverVoltageTrip mv s
  | .idleEntry => Sys2Proof.Machine.execIdleEntry s
  | .prepareForRemoval r v => Sys2Proof.Machine.execPrepareForRemoval r v s
  | .warmReset r => Sys2Proof.Machine.execWarmReset r s
  | .warmResetBringUp r => Sys2Proof.Machine.execWarmResetBringUp r s
  | .watchdogExpiry => Sys2Proof.Machine.execWatchdogExpiry s
  | .partReset kind n => Sys2Proof.Machine.execPartReset kind n s
  | .advanceRollbackCounter r v => Sys2Proof.Machine.execAdvanceRollbackCounter r v s
  | .burnOwnerKeyHash r hash => Sys2Proof.Machine.execBurnOwnerKeyHash r hash s
  | .attestationNonce r nonce => Sys2Proof.Machine.execAttestationNonce r nonce s
  | .counterSample g lost => Sys2Proof.Machine.execCounterSample g lost s
  | .groupConfigWrite r g d => Sys2Proof.Machine.execGroupConfigWrite r g d s
  | .traceDrop k bytes instrs => Sys2Proof.Machine.execTraceDrop k bytes instrs s
  | .registerWrite r index sub data => Sys2Proof.Machine.execRegisterWrite r index sub data s
  | .coxRetire p layer => Sys2Proof.Machine.execCoxRetire p layer s
  | .exportDone f sn => Sys2Proof.Machine.execExportDone f sn s
  | .marginingReady => Sys2Proof.Machine.execMarginingReady s
  | .handshakeSegmentTimeout hid => Sys2Proof.Machine.execHandshakeSegmentTimeout hid s
  | .mediumIdle => Sys2Proof.Machine.execMediumIdle s
  | .traceSpillFull => Sys2Proof.Machine.execTraceSpillFull s

end Sys2Proof.Machine
end

