-- ==== Sys2Proof/Machine/Tick.lean ====
section
/-! DEFINITION. One tick of TCLK while no command waits (R258, R260): the timebase, the servo's slewing, the regulators, errors that arise
in memories, on the host link and in flash, and what the trace of the control cores takes down. -/

namespace Sys2Proof.Machine

open Sys2Proof

/-- The sector of 32 bytes at a free place of the HBM stacks. -/
def freeSector (v : U64) : Nat := place3 (fld v 15 8 % 20) (fld v 21 16 % 64) (fld v 63 24 % pcBytes / 32 * 32)

/-- The word of 8 bytes at a free place of a Pallet. -/
def freeWord8 (v : U64) : Nat := fld v 63 16 % 2 ^ 26 / 8 * 8

/-- What errors arise in a tick is open: a free value says whether a word of a Pallet gets a single-bit or an uncorrectable error (R116), a
sector of HBM one erroneous symbol or an uncorrectable error (R152, R153), the host link a flit with corrected errors (R198; FLIT mode
alone has the code), or flash no longer takes writes (R407, R419). DESIGN CHOICE, log 42: the table has no row for them. -/
def errorArises (s : State) (v : U64) : State :=
  let n := fin8 (fld v 10 8)
  match fld v 2 0 with
  | 1 => updPallet s n fun p => { p with ce := if p.ue.contains (freeWord8 v) then p.ce else (freeWord8 v :: p.ce).dedup }
  | 2 => updPallet s n fun p => { p with ue := (freeWord8 v :: p.ue).dedup, ce := p.ce.filter (· ≠ freeWord8 v) }
  | 3 => { s with hbm := { s.hbm with ce := if s.hbm.ue.contains (freeSector v) then s.hbm.ce else (freeSector v :: s.hbm.ce).dedup } }
  | 4 => { s with hbm := { s.hbm with ue := (freeSector v :: s.hbm.ue).dedup, ce := s.hbm.ce.filter (· ≠ freeSector v) } }
  | 5 => if s.host.up && s.host.flit then ctrAdd s 0 0x1900 3 1 else s
  | 6 => flashFails s
  | _ => s

/-- The servo's slewing at 200 ppm moves the timebase by one more or one less nanosecond in every 5,000 until the offset is gone; the
timebase never decreases (R260). -/
def slewTick (s : State) : State :=
  let y := s.rigger.sync
  let due := y.phase + 1 ≥ 5000 && y.slew ≠ 0
  let d : Nat := if due then (if y.slew > 0 then 2 else 0) else 1
  let y' : TimeSync :=
    { y with
      phase := if y.phase + 1 ≥ 5000 then 0 else y.phase + 1
      slew := if due then (if y.slew > 0 then y.slew - 1 else y.slew + 1) else y.slew }
  { s with now := s.now + BitVec.ofNat 64 d, rigger := { s.rigger with sync := y' } }

/-- One nanosecond passes. A module without power has no timebase. Requests that wait for tokens are served as their buckets fill (R150), and
the trace takes down which cores have entered or left its filter (R469). -/
def tick (s : State) : State :=
  if !s.power.on then s else
  let (v, s) := fresh s
  traceTick (serveRegs (slewTick (errorArises s v)))

end Sys2Proof.Machine
end

