-- ==== Sys2Proof/Machine/Step.lean ====
section
/-! DEFINITION. One step of the block: the waiting command at the front is carried out; with none waiting, one nanosecond of the
timebase passes. -/

namespace Sys2Proof.Machine

open Sys2Proof

/-- One step. The command at the front leaves the queue and takes its effect; on an empty queue the module idles for one tick of
TCLK (R426, R258; DESIGN CHOICE, log 24). -/
def step (s : State) : Host.Outcome State Fault Refusal :=
  match s.pending with
  | c :: rest => exec c { s with pending := rest }
  | [] => .next (tick s)

/-- `s` with the command that `w` spells at the front of its queue; `s` itself, since no word spells a command. -/
def State.withFetchWord (s : State) (nbits w : Nat) : State :=
  match decodeTableWord nbits w with
  | some c => { s with pending := c :: s.pending }
  | none => s

end Sys2Proof.Machine
end

