-- ==== Sys2Proof/Safety.lean ====
section
/-! DEFINITION. What counts as a safe run, and the conditions on a state in which claims are made. -/

namespace Sys2Proof

open Sys2Proof.Machine

/-- A step that does not stop. -/
def StepSafe (s : State) : Prop := ∃ t, step s = .next t

/-- A Crew with nothing to do of its own accord: no collective operation in flight or waiting, and where an attempt runs, its program
has neither ended nor voted and no decision about it is being worked out (R233, R328, R334). -/
def crewCalm (k : Crew) : Bool :=
  k.ops.isEmpty && k.waiting.isEmpty && k.attempt.all (fun a => !a.ended && a.voteCmd.isNone) &&
    (k.attempt.isNone || k.fin ≠ .unresolved)

/-- Every Crew is calm, and no write of a collective region or a send-on handle waits for commands that name it (R271, R286). -/
def Calm (s : State) : Prop :=
  (∀ c : Fin 16, crewCalm s.crews[c] = true) ∧
    ∀ f : Fin 9, s.host.funcs[f].collWrites = [] ∧ s.host.funcs[f].handleWrites = []

/-- The memories of a state are in the canonical form of `Mem.wf`: the Pallets, the stacks and their windows for device memory, host
memory, the trace spill and the memories of running programs. -/
def MemOk (s : State) : Prop :=
  (∀ n : Fin 8, s.pallets[n].mem.wf = true) ∧ (∀ k : Fin 20, s.hbm.mem[k].wf = true) ∧ s.hbm.dev.wf = true ∧ s.host.mem.wf = true ∧
    s.counters.trace.spill.wf = true ∧ ∀ c : Fin 16, ∀ a, s.crews[c].attempt = some a → ∀ m ∈ a.mem, m.wf = true

/-- What a step keeps: the commands that wait, and the canonical form of every memory. -/
def Keeps (s t : State) : Prop := t.pending = s.pending ∧ (MemOk s → MemOk t)

/-! ## Frames -/

/-- The components of the state, but for the waiting commands. -/
inductive Part where
  | now | free | courses | trowels | pallets | hods | hbm | host | journal | rigger | crews | cards | cox | evolu | dict | power | sec
  | pointing | counters | out
  deriving DecidableEq, Repr

/-- A component is the same in both states. -/
def Part.same (s t : State) : Part → Prop
  | .now => t.now = s.now
  | .free => t.free = s.free
  | .courses => t.courses = s.courses
  | .trowels => t.trowels = s.trowels
  | .pallets => t.pallets = s.pallets
  | .hods => t.hods = s.hods
  | .hbm => t.hbm = s.hbm
  | .host => t.host = s.host
  | .journal => t.journal = s.journal
  | .rigger => t.rigger = s.rigger
  | .crews => t.crews = s.crews
  | .cards => t.cards = s.cards
  | .cox => t.cox = s.cox
  | .evolu => t.evolu = s.evolu
  | .dict => t.dict = s.dict
  | .power => t.power = s.power
  | .sec => t.sec = s.sec
  | .pointing => t.pointing = s.pointing
  | .counters => t.counters = s.counters
  | .out => t.out = s.out

/-- Nothing changes but the listed components: the waiting commands and every other component are the same. -/
def SameBut (ps : List Part) (s t : State) : Prop := t.pending = s.pending ∧ ∀ p, p ∉ ps → p.same s t

/-- Every component but the listed ones. -/
def allBut (ps : List Part) : List Part :=
  [Part.now, .free, .courses, .trowels, .pallets, .hods, .hbm, .host, .journal, .rigger, .crews, .cards, .cox, .evolu, .dict, .power, .sec,
    .pointing, .counters, .out].filter fun p => !ps.contains p

/-- The components a command may reach, by its own effect or by what follows from it: a command of a Crew's program can, with its end, end
the Stroke, and a management command can apply a change set or reset. -/
def touches : Instr → List Part
  | .mm _ _ _ => allBut [.now, .trowels, .hods, .journal, .power, .sec]
  | .loadw _ _ _ => allBut [.now, .trowels, .hods, .journal, .power, .sec]
  | .weightLoadDone _ => allBut [.now, .trowels, .hods, .journal, .power, .sec]
  | .passEnd _ _ => allBut [.now, .trowels, .hods, .journal, .power, .sec]
  | .checkVerdict _ => allBut [.now, .trowels, .hods, .journal, .sec]
  | .laneSubstitution _ _ => allBut [.now, .trowels, .hods, .journal, .sec]
  | .tileInterlockRelease _ _ => allBut [.now, .hods, .journal, .power, .sec]
  | .guardStallRelease _ => allBut [.now, .journal, .power, .sec]
  | .checkEnable _ _ _ => allBut [.now, .hods, .journal]
  | .stickyFlagsClear _ _ _ _ => allBut [.now, .hods, .journal]
  | .firstOffenderClear _ _ _ => allBut [.now, .hods, .journal]
  | .vop _ _ _ => allBut [.now, .hods, .journal, .power, .sec]
  | .vred _ _ _ => allBut [.now, .hods, .journal, .power, .sec]
  | .vcvt _ _ _ => allBut [.now, .hods, .journal, .power, .sec]
  | .trowelRetire _ => allBut [.now, .hods, .journal, .sec]
  | .palletBankSubstitution _ _ => [.free, .courses, .pallets, .crews, .evolu, .dict, .power, .pointing]
  | .descriptorStore _ _ _ _ => allBut [.now, .trowels, .hods, .journal, .power, .sec]
  | .tileTableStore _ _ _ _ => allBut [.now, .trowels, .hods, .journal, .power, .sec]
  | .copy _ _ _ => allBut [.now, .trowels, .journal, .power, .sec]
  | .copyAdd _ _ _ => allBut [.now, .trowels, .journal, .power, .sec]
  | .gather _ _ _ => allBut [.now, .trowels, .journal, .power, .sec]
  | .scatter _ _ _ => allBut [.now, .trowels, .journal, .power, .sec]
  | .addscatter _ _ _ => allBut [.now, .trowels, .journal, .power, .sec]
  | .hodRetire _ => allBut [.now, .trowels, .journal, .power, .sec]
  | .hodQueueWait _ => allBut [.now, .trowels, .journal, .power, .sec]
  | .hodPartFault _ => allBut [.now, .trowels, .journal, .power, .sec]
  | .hostRegionWrite _ _ _ => allBut [.now, .hods, .journal]
  | .atsInvalidation _ _ _ => [.host, .out]
  | .memorySideAdd _ _ _ => [.hbm, .evolu, .dict, .pointing, .counters, .out]
  | .regulatorRequest _ _ _ => [.hbm, .counters, .out]
  | .patrolScrub _ _ _ _ => [.free, .hbm, .evolu, .dict, .pointing]
  | .rowRepair _ _ _ _ => [.hbm, .evolu, .dict, .pointing]
  | .pseudoChannelRemap _ _ => [.hbm, .evolu, .dict, .pointing]
  | .retireRequest _ _ _ => allBut [.now, .hods, .journal]
  | .marginingStack _ _ => allBut [.now, .hods, .journal]
  | .marginingStart _ _ => allBut [.now, .hods, .journal]
  | .marginingDone _ => [.hbm, .dict]
  | .invalidScrub => [.hbm, .dict]
  | .linkTraining _ _ _ _ => allBut [.now, .journal, .sec]
  | .vfFlr _ => allBut [.now, .journal, .sec]
  | .pf0Flr => allBut [.now, .journal, .sec]
  | .hotReset => allBut [.now, .journal, .sec]
  | .statusPageUpdate _ => [.host]
  | .statusPageWrite _ => [.dict]
  | .bar2Read _ _ _ => [.hbm, .host, .evolu, .dict, .pointing, .counters, .out]
  | .bar2Write _ _ _ _ => [.hbm, .host, .evolu, .dict, .pointing, .counters, .out]
  | .msixHoldExpiry _ _ => [.now, .host, .out]
  | .msixUnmask _ _ => [.host, .out]
  | .bootstrapEnableSet _ _ => [.host, .evolu, .dict, .out]
  | .bootstrapEnableClear _ => [.host, .out]
  | .streamPoll _ _ _ => [.host, .evolu, .dict, .out]
  | .crcStuck _ _ => [.now, .host, .evolu, .out]
  | .journalBurstWrite _ _ => [.host]
  | .entryAccept _ _ => [.host, .evolu, .power, .counters, .out]
  | .journalWriteFail _ => [.host, .journal, .evolu, .out]
  | .journalRebuildDone => [.journal, .evolu, .dict, .pointing]
  | .retirement _ _ => allBut [.now, .trowels, .journal, .cards, .sec]
  | .nop _ _ => [.free, .host]
  | .launch _ _ => [.free, .hbm, .host, .crews, .evolu, .dict, .pointing]
  | .hostCopy _ _ => allBut [.now, .trowels, .journal, .rigger, .cards, .cox, .power, .sec]
  | .hostAccumulateStart _ _ => allBut [.now, .trowels, .journal, .rigger, .cards, .cox, .power, .sec]
  | .fenceLocal _ _ => [.free, .courses, .host]
  | .fenceDevice _ _ => [.free, .courses, .host]
  | .fenceHost _ _ => [.free, .courses, .host]
  | .fenceCrew _ _ _ => [.free, .courses, .host]
  | .mark _ _ => [.free, .host, .crews]
  | .dict _ _ => allBut []
  | .exportSlots _ _ => [.free, .host, .crews]
  | .streamEnable _ _ => [.host, .evolu, .out]
  | .streamDisable _ _ => [.host, .evolu, .out]
  | .streamResume _ _ => [.host, .evolu, .out]
  | .signalEvent _ _ => [.host]
  | .eventWaitSatisfied _ _ => [.host]
  | .attemptStart _ => allBut [.trowels, .hods, .journal, .sec]
  | .coreEcall _ => allBut [.now, .trowels, .hods, .journal, .power, .sec]
  | .coreTrap _ => allBut [.now, .trowels, .hods, .journal, .power, .sec]
  | .laserSwitch _ _ => allBut [.now, .journal, .sec]
  | .codewordReceive _ _ _ => allBut [.trowels, .hods, .journal, .sec]
  | .align _ _ => allBut [.now, .trowels, .hods, .journal, .power, .sec]
  | .packetReceive _ _ => allBut [.now, .trowels, .hods, .journal, .sec]
  | .ack _ _ => [.rigger, .dict, .counters, .out]
  | .nak _ _ => allBut [.now, .trowels, .hods, .journal, .power, .sec]
  | .ackTimer _ => [.rigger, .out]
  | .idleTimer _ _ => [.rigger, .out]
  | .idle _ _ _ => [.now, .free, .rigger, .crews, .evolu, .dict, .pointing, .counters, .out]
  | .holdover => [.rigger]
  | .replayTimeout _ => allBut [.now, .trowels, .hods, .journal, .power, .sec]
  | .lockLoss _ => allBut [.now, .trowels, .hods, .journal, .power, .sec]
  | .portRetrain _ => allBut [.now, .trowels, .hods, .journal, .cards, .power, .sec]
  | .sparePropose _ _ => [.rigger, .dict, .counters, .out]
  | .spareReady _ _ => [.free, .rigger, .dict, .counters, .out]
  | .spareSwitch _ _ => [.rigger, .dict, .counters, .out]
  | .spareDone _ _ => allBut [.now, .trowels, .hods, .journal, .cards, .power, .sec]
  | .spareAbort _ _ => allBut [.now, .trowels, .hods, .journal, .cards, .power, .sec]
  | .spareTimeout _ => allBut [.trowels, .hods, .journal, .cards, .power, .sec]
  | .crewRun _ _ => allBut [.now, .hods, .journal]
  | .crewTest _ _ => allBut [.now, .hods, .journal]
  | .crewDissolve _ _ => allBut [.now, .hods, .journal]
  | .hello _ _ _ _ => allBut [.now, .trowels, .hods, .journal, .power, .sec]
  | .helloResend _ => allBut [.now, .trowels, .hods, .journal, .power, .sec]
  | .heartbeat _ _ => allBut [.trowels, .hods, .journal, .power, .sec]
  | .memberLost _ _ => allBut [.trowels, .hods, .journal, .power, .sec]
  | .recover _ _ _ _ _ => allBut [.now, .trowels, .hods, .journal, .power, .sec]
  | .allreduce _ _ => allBut [.now, .trowels, .hods, .journal, .power, .sec]
  | .reducescatter _ _ => allBut [.now, .trowels, .hods, .journal, .power, .sec]
  | .allgather _ _ => allBut [.now, .trowels, .hods, .journal, .power, .sec]
  | .broadcast _ _ => allBut [.now, .trowels, .hods, .journal, .power, .sec]
  | .reduce _ _ => allBut [.now, .trowels, .hods, .journal, .power, .sec]
  | .alltoall _ _ => allBut [.now, .trowels, .hods, .journal, .power, .sec]
  | .alltoallv _ _ => allBut [.now, .trowels, .hods, .journal, .power, .sec]
  | .barrier _ _ => allBut [.now, .trowels, .hods, .journal, .power, .sec]
  | .barrierSync _ _ _ _ _ => allBut [.now, .trowels, .hods, .journal, .cards, .power, .sec]
  | .counts _ _ _ _ _ => allBut [.now, .trowels, .hods, .journal, .cards, .power, .sec]
  | .ready _ _ _ => allBut [.now, .trowels, .hods, .journal, .cards, .power, .sec]
  | .send _ _ => allBut [.now, .trowels, .hods, .journal, .power, .sec]
  | .recv _ _ => allBut [.now, .trowels, .hods, .journal, .power, .sec]
  | .credit _ _ _ _ => allBut [.now, .trowels, .hods, .journal, .cards, .power, .sec]
  | .done _ _ _ _ => allBut [.now, .trowels, .hods, .journal, .power, .sec]
  | .crewopRetire _ _ => allBut [.now, .trowels, .hods, .journal, .power, .sec]
  | .collectiveRegionWrite _ _ _ => allBut [.now, .hods, .journal]
  | .sendonHandleWrite _ _ _ => allBut [.now, .hods, .journal]
  | .update _ _ => allBut [.now, .trowels, .hods, .journal, .power, .sec]
  | .hold _ _ => allBut [.now, .trowels, .hods, .journal, .power, .sec]
  | .apply _ _ => allBut [.now, .trowels, .hods, .journal, .power, .sec]
  | .coxFeed _ _ => allBut [.now, .trowels, .hods, .journal, .power, .sec]
  | .coxShareWindow _ => allBut [.trowels, .hods, .journal, .power, .sec]
  | .clearDirty _ _ => allBut [.now, .hods, .journal]
  | .vote _ _ => allBut [.now, .trowels, .hods, .journal, .power, .sec]
  | .votePacket _ _ _ => allBut [.now, .trowels, .hods, .journal, .power, .sec]
  | .arrived _ _ _ _ => allBut [.now, .trowels, .hods, .journal, .power, .sec]
  | .stragglerDeadline _ => allBut [.trowels, .hods, .journal, .power, .sec]
  | .cut _ _ _ _ => allBut [.now, .trowels, .hods, .journal, .power, .sec]
  | .log _ _ _ _ _ => allBut [.now, .trowels, .hods, .journal, .power, .sec]
  | .logack _ _ _ _ _ => allBut [.now, .trowels, .hods, .journal, .power, .sec]
  | .decide _ _ _ => allBut [.now, .trowels, .hods, .journal, .power, .sec]
  | .query _ _ _ => allBut [.now, .trowels, .hods, .journal, .power, .sec]
  | .queryTimer _ => [.now, .rigger, .crews, .dict, .counters, .out]
  | .resolve _ _ _ _ => allBut [.now, .trowels, .hods, .journal, .power, .sec]
  | .backupTakeover _ => allBut [.trowels, .hods, .journal, .power, .sec]
  | .rejoinCopy _ _ _ _ _ _ => [.free, .hbm, .host, .crews, .cox]
  | .layerStateLoad _ _ _ => allBut [.now, .hods, .journal]
  | .transmit => [.free, .evolu, .dict, .out]
  | .echoCheck _ => [.evolu, .dict]
  | .burstTimer => [.evolu, .dict]
  | .mediumDown => [.evolu]
  | .mediumBusy => [.evolu]
  | .frameReceive _ _ => [.free, .evolu, .dict, .sec]
  | .claim => [.free, .evolu]
  | .assign _ _ _ _ => [.evolu]
  | .announce _ _ => [.evolu, .dict, .sec]
  | .openReq _ _ _ _ _ => [.free, .evolu, .dict]
  | .openFin _ _ _ _ _ => [.evolu, .dict, .sec]
  | .openFinTimeout _ => [.now, .evolu, .dict, .sec]
  | .request _ _ _ _ => allBut []
  | .response _ _ _ => [.evolu, .dict]
  | .evoluAck _ _ => [.evolu, .dict]
  | .ackDelay _ => [.evolu]
  | .rtoExpiry _ => [.evolu, .dict]
  | .suspectTimeout _ => [.evolu, .dict, .sec]
  | .idleLimit _ => [.now, .evolu, .dict, .sec]
  | .read _ _ => allBut []
  | .write _ _ => allBut []
  | .readSeg _ _ => allBut []
  | .writeSeg _ _ => allBut []
  | .transferStatus _ _ => allBut []
  | .transferExpiry _ => [.now, .dict]
  | .openSet _ _ => allBut []
  | .stage _ _ => allBut []
  | .check _ _ => allBut []
  | .commit _ _ => allBut []
  | .abort _ _ => allBut []
  | .renew _ _ => allBut []
  | .event _ => [.evolu]
  | .subscribe _ _ => [.evolu, .out]
  | .close _ => [.evolu, .dict, .sec]
  | .leaseExpiry => [.now, .evolu, .dict]
  | .applyPoint _ => allBut [.journal]
  | .regionZeroFill _ => allBut [.now, .journal]
  | .cancelPending _ _ => allBut [.now, .hods, .journal]
  | .forceAbort _ _ => allBut [.now, .hods, .journal]
  | .activityUrgent _ _ => [.pointing]
  | .pointingPreemption _ _ _ => [.crews, .evolu, .dict, .pointing]
  | .courseLaneSelfTest _ _ _ => [.free, .courses, .pallets, .evolu, .dict, .power, .pointing]
  | .trowelCoxLaneTest _ _ => [.free, .courses, .trowels, .pallets, .evolu, .dict, .power, .pointing]
  | .palletBankTest _ _ _ => [.pallets, .evolu, .dict, .pointing]
  | .coreRotation _ _ => [.evolu, .dict, .pointing]
  | .laneRecalibration _ _ => allBut [.now, .trowels, .hods, .journal, .cards, .power, .sec]
  | .deadlineMissed _ _ => [.now, .evolu, .dict, .pointing]
  | .lockstepMismatch _ _ _ => [.free, .evolu, .dict, .power, .pointing]
  | .clearRepairMap _ _ => allBut [.now, .hods, .journal]
  | .referenceLoss _ => allBut [.now, .journal, .sec]
  | .clockStep _ _ => [.now, .dict, .power]
  | .powerSample _ _ => [.now, .evolu, .dict, .power]
  | .thermalSample _ _ => [.now, .host, .rigger, .evolu, .dict, .power]
  | .coldStart _ => allBut [.out]
  | .underVoltageTrip _ => [.host, .rigger, .power]
  | .overVoltageTrip _ => [.host, .rigger, .power]
  | .idleEntry => [.power]
  | .prepareForRemoval _ _ => allBut [.now, .hods, .journal]
  | .warmReset _ => allBut []
  | .warmResetBringUp _ => allBut []
  | .watchdogExpiry => allBut []
  | .partReset _ _ => allBut [.now, .journal, .sec]
  | .advanceRollbackCounter _ _ => allBut [.now, .hods, .journal]
  | .burnOwnerKeyHash _ _ => allBut [.now, .hods, .journal]
  | .attestationNonce _ _ => allBut [.now, .hods, .journal]
  | .counterSample _ _ => [.now, .free, .hbm, .dict, .counters]
  | .groupConfigWrite _ _ _ => allBut [.now, .hods, .journal]
  | .traceDrop _ _ _ => [.free, .dict, .counters]
  | .registerWrite _ _ _ _ => allBut [.now, .hods, .journal]
  | .coxRetire _ _ => allBut [.now, .hods, .journal, .sec]
  | .exportDone _ _ => allBut [.now, .trowels, .hods, .journal, .cards, .power, .sec]
  | .marginingReady => [.hbm]
  | .handshakeSegmentTimeout _ => [.now, .evolu]
  | .mediumIdle => [.evolu]
  | .traceSpillFull => [.counters]

/-! ## When a command has its own effect -/

/-- A control core that runs an attempt of Crew `cr` of partition `p` may store at an issue port: the module has power, its completion queue
has room (R234), and no Crew has something to do of its own accord. -/
structure CoreMay (s : State) (w : Who) (cr : Fin 16) (p : Fin 8) (a : Attempt) (k : CoreRun) : Prop where
  on : s.power.on = true
  calm : Calm s
  core : findCore s w = some (cr, a, k)
  owner : crewOwner s cr = some p
  room : k.issued + 1 ≤ w.consumed + 2 ^ a.ucqLog

/-- How the unit sees who issued a command stored under `CoreMay`. -/
def coreIssuer (cr : Fin 16) (a : Attempt) (k : CoreRun) : Issuer := .core cr a.number k.cluster k.index (k.issued + 1)

/-- A requester may write the object at (idx, sub) now, an object of access `acc` (2: read and write, 3: write only), and `d` is a value it
takes (R390 to R394, R397, R441): the module has power, its management cores run in lockstep and the boot ROM does not wait for an image; no
lease has run out; the object is there, the requester has the right, no open or pending set names it, and the value is in its range. -/
structure MayWrite (s : State) (r : Req) (idx sub : Nat) (d : List Byte) (acc : Nat) : Prop where
  on : s.power.on = true
  lockstep : s.pointing.lockstep = true
  running : s.power.bringUp ≠ .rom
  lease : leaseCheck s = s
  unnamed : s.dict.openSet = none ∧ s.dict.pendings = [] ∨ acc = 3
  right : mayWrite s (actorOf s r) idx sub = true
  object : ∃ i, objFound s idx sub = some i ∧ i.access = acc ∧ d.length ≤ i.size ∧ valueRefuse s idx sub i d = none
  kind : acc = 2 ∨ acc = 3

/-! ## Commands in the queues of their units -/

/-- A Trowel command as its queue holds it (R104, R119): with the copies of its descriptors and of the tile entries they view. -/
def trowelCmd (s : State) (n : Fin 8) (c : Cmd) (iss : Issuer) : UnitCmd :=
  let k := s.courses[n]
  let ds := copyDescs k (vOdesc c :: vSlots c)
  mkCmd c iss ds (viewEntries k ds) (vEvent c) k.order

/-- The state with that command at the end of its queue, and its place in the tile order taken (R90). -/
def trowelQueued (s : State) (n : Fin 8) (u : UnitCmd) : State :=
  updTrowel (updCourse s n fun k => { k with order := k.order + 1 }) n fun t => { t with queue := t.queue ++ [u] }

/-- The state in which a Trowel command that nothing holds computes: its stream has taken its tiles and its seed is noted (R91, R38). -/
def trowelTaken (s : State) (n : Fin 8) (u : UnitCmd) : State := noteSeed (tilesTake (waitSpent s n (cmdTiles u)) n u) u

/-- A Hod command as its queue holds it (R119, R161, R169), with the waiting writes of the region entries it names (R178). -/
def hodCmd (s : State) (h : Fin 16) (c : Cmd) (iss : Issuer) : UnitCmd :=
  let ds := if fld c 7 0 = 0x41 then [] else copyDescs s.courses[hodCourse h] [gsDdesc c, gsSdesc c]
  let u := mkCmd c iss ds (viewEntries s.courses[hodCourse h] ds) (hEvent c) 0
  { u with after := writesBefore s (issuerFn s iss) (namedRegions u) }

/-- The state with that command at the end of the queue. -/
def hodQueued (s : State) (h : Fin 16) (u : UnitCmd) : State := updHod s h fun t => { t with queue := t.queue ++ [u] }

/-- The state in which a Hod command of Crew `c` of partition `p` that nothing holds makes its reads and writes: its stream has taken its
tiles, and the granules it is going to write are recorded (R91, R325). -/
def hodTaken (s : State) (h : Fin 16) (u : UnitCmd) (c : Fin 16) (p : Fin 8) : State :=
  let t := waitSpent s (hodCourse h) (cmdTiles u)
  undoSave (tilesTake t (hodCourse h) u) c p (hbmOf (hodPlaces t h u).2)

/-! ## Host memory and streams -/

/-- Bytes of a request's range, at the addresses of host memory behind it. -/
def placed (s : State) (f : Fin 9) (ps a : Nat) (bs : List Byte) : List (Nat × Byte) := bs.zipIdx.map fun x => (hostLoc s f ps (a + x.2), x.1)

/-- The records a stream owes, those of its history from HOSTACK + 1 on, oldest first (R229). -/
def owed (s : State) (f : Fin 9) (q : Nat) : List (BitVec 64 × BitVec 512) :=
  (stream s f q).history.reverse.filter fun x => serialAfter x.1 (stream s f q).hostack && (x.1 - (stream s f q).hostack).toNat ≤ ringN s f q

/-- What stands at slot E of a stream's command ring (R210). -/
def ringSlot (s : State) (f : Fin 9) (q : Nat) (k : Stream) : Entry :=
  BitVec.ofNat 1024 (ofLe (hostRead s f (ringSpace s f q) ((ringOf s f q).1 + 128 * ((expectSeq k).toNat % ringN s f q)) 128))

end Sys2Proof
end

