-- ==== Sys2Proof/Certificates/Slice0/Obligations.lean ====
section
/-! DEFINITION. The statements about the model, each a proposition under `Obligations`, and the vocabulary they share. -/

namespace Sys2Proof

open Sys2Proof.Machine

/-- The account of an issue store in the issuing core's attempt (R231, R234): one command more in flight, the core's sequence number and
its consumed count; every other Crew is the same. -/
def Booked (s t : State) (cr : Fin 16) (a : Attempt) (w : Who) (k : CoreRun) : Prop :=
  t.crews[cr] = { s.crews[cr] with attempt := some { a with
      inFlight := a.inFlight + 1
      cores := a.cores.map fun x => if x.cluster = k.cluster ∧ x.lcore = k.lcore then { x with issued := k.issued + 1, consumed := w.consumed } else x } } ∧
    ∀ d, d ≠ cr → t.crews[d] = s.crews[d]

/-- The partition of a running core owns the Course, which is in service (R230). -/
def OwnsCourse (s : State) (n : Fin 8) (p : Fin 8) : Prop := courseOwner s n = some p ∧ s.courses[n].inService = true

/-- The oldest command of a queue is at work, or waits. -/
def Busy (q : List UnitCmd) : Prop := ∃ u l, q = u :: l ∧ (u.run = true ∨ u.blocked ≠ 0)

/-- An MM as its Course's queue holds it: with copies of its descriptors and of the entries of its tile and of those they view (R119, R90). -/
def mmCmd (s : State) (n : Fin 8) (c : Cmd) (iss : Issuer) : UnitCmd :=
  let k := s.courses[n]
  let ds := copyDescs k (mmSlots c)
  mkCmd c iss ds ((mmTile c, k.tiles[fin64 (mmTile c)].entry) :: viewEntries k ds) (mmEvent c) k.order

/-- A LOADW as its Course's queue holds it. -/
def loadwCmd (s : State) (n : Fin 8) (c : Cmd) (iss : Issuer) : UnitCmd :=
  let k := s.courses[n]
  let ds := copyDescs k [lwWdesc c]
  mkCmd c iss ds (viewEntries k ds) (lwEvent c) k.order

/-- The state with a command at the end of its Course's queue, its place in the tile order taken (R90). -/
def courseQueued (s : State) (n : Fin 8) (u : UnitCmd) : State :=
  updCourse s n fun c => { c with queue := c.queue ++ [u], order := c.order + 1 }

/-- A tile of which at most the stream that uses it has changed (R91). -/
def OwnedAs (x y : Tile) : Prop := ∃ o b e f, y = { x with owner := o, inUse := b, evs := e, fenced := f }

/-- The tiles of a Course that a command names may have got a new owner; every other tile is the same (R91). -/
def TilesOwned (k j : Course) (u : UnitCmd) : Prop :=
  ∀ h : Fin 64, OwnedAs k.tiles[h] j.tiles[h] ∧ ((∀ x ∈ cmdTiles u, fin64 x ≠ h) → j.tiles[h] = k.tiles[h])

/-- A read of listed offsets of Pallet `n`: its words among them that had a single-bit error are corrected and counted, and nothing else
of a Pallet changes (R116). -/
def Corrected (s t : State) (n : Fin 8) (as : List Nat) : Prop :=
  let hit (u : Nat) : Bool := as.any fun a => a / 8 == u / 8
  t.pallets = s.pallets.set n { s.pallets[n] with ce := s.pallets[n].ce.filter fun u => !hit u } ∧
    (s.pallets[n].ce ≠ [] → ctrGet t 0 0x6300 (0x30 + n) = (ctrGet s 0 0x6300 (0x30 + n) + (s.pallets[n].ce.filter hit).length) % 2 ^ 64) ∧
    (s.pallets[n].ce = [] → t.dict = s.dict)

/-- What the attempt of a core's command notes when the command retires with a result (R231, R328): its 64-byte record in the core's
completion queue, its flags and what failed; `layer` is the layer it attributes to. -/
def noted (s : State) (a : Attempt) (u : UnitCmd) (tag : Nat) (layer : Option Nat) (res : Res) : Attempt :=
  match u.iss with
  | .core _ _ k i seq => noteResult (unitRecord s a k i seq u.op.toNat tag res) layer res
  | _ => a

/-- A command of a core of the running attempt of Crew `cr`, whose partition is `p`. -/
def FromCore (s : State) (u : UnitCmd) (cr : Fin 16) (p : Fin 8) (a : Attempt) : Prop :=
  s.crews[cr].attempt = some a ∧ crewOwner s cr = some p ∧ ∃ k i seq, u.iss = .core cr a.number k i seq

end Sys2Proof

open Sys2Proof Sys2Proof.Machine

/-! ## The block -/

/-- A step carries out the command at the front of the queue on the state with the rest of the queue (log 24). -/
def Obligations.StepRunsFrontCommand : Prop :=
  ∀ (c : Instr) (rest : List Instr) (s : State), s.pending = c :: rest → step s = exec c { s with pending := rest }

/-- With no command waiting and the module powered, a step is one tick of TCLK: the timebase goes on by 1 ns; in the 5,000th tick while
an offset is being slewed away it goes on by 2 ns or stands still (R258, R260). One free value is spent on the errors that may arise (log 42):
they mark words, but change no byte of a Pallet or a stack, and once flash takes no writes it keeps the repair map it holds. Where no request
waits at a regulator and no trace runs, no bucket changes and nothing is sent; a trace that runs changes beside the counters' trace only free
values and the generation of the spill region (the tick and what it holds: log 24). -/
def Obligations.IdleStepIsOneTick : Prop :=
  ∀ s : State, s.pending = [] → s.power.on = true →
    ∃ t, step s = .next t ∧ SameBut [.now, .free, .pallets, .hbm, .rigger, .dict, .pointing, .counters, .out] s t ∧
    (s.counters.trace.state ≠ 1 → t.free = s.free + 1) ∧
    t.pointing = { s.pointing with flashMap := t.pointing.flashMap } ∧ (s.dict.flashBad = t.dict.flashBad → t.pointing = s.pointing) ∧
    (∀ n : Fin 8, t.pallets[n] = { s.pallets[n] with ce := t.pallets[n].ce, ue := t.pallets[n].ue }) ∧
    t.hbm = { s.hbm with ce := t.hbm.ce, ue := t.hbm.ue, buckets := t.hbm.buckets, waits := t.hbm.waits } ∧
    (s.hbm.waits = [] → t.hbm.buckets = s.hbm.buckets ∧ t.hbm.waits = [] ∧ t.counters = { s.counters with trace := t.counters.trace } ∧ t.out = s.out) ∧
    (s.counters.trace.state ≠ 1 → t.counters.trace = s.counters.trace) ∧
    (let y := s.rigger.sync
     t.rigger = { s.rigger with sync := { y with phase := if y.phase + 1 ≥ 5000 then 0 else y.phase + 1, slew := t.rigger.sync.slew } } ∧
     (y.phase + 1 < 5000 ∨ y.slew = 0 → t.now = s.now + 1 ∧ t.rigger.sync.slew = y.slew) ∧
     (5000 ≤ y.phase + 1 → 0 < y.slew → t.now = s.now + 2 ∧ t.rigger.sync.slew = y.slew - 1) ∧
     (5000 ≤ y.phase + 1 → y.slew < 0 → t.now = s.now ∧ t.rigger.sync.slew = y.slew + 1))

/-- What the rules say of the module right after a cold start. -/
def Obligations.ResetState : Prop :=
  let s := State.reset
  s.pending = [] ∧ s.now = 0 ∧ s.power.on = true ∧ MemOk s ∧ Calm s ∧
    (∀ n : Fin 8, s.courses[n].check = true ∧ s.courses[n].sticky = 0 ∧ s.courses[n].offender.getLsbD 128 = false ∧
      ∀ h : Fin 64, s.courses[n].tiles[h].entry = 0 ∧ s.courses[n].tiles[h].init = false ∧ s.courses[n].tiles[h].owner = none) ∧
    s.hbm.coarse = 0xC000000000000000 ∧ s.hbm.granule = 12 ∧ s.hbm.inService = List.range 20 ∧
    (∀ (f : Fin 9) (q : Nat), (stream s f q).state = .disabled ∧ (stream s f q).accepted = 0 ∧ (stream s f q).retired = 0 ∧ (stream s f q).hostack = 0) ∧
    (∀ c : Fin 16, s.crews[c].state = .undefined ∧ s.crews[c].fin = .idle) ∧
    (∀ i : Fin 8, s.evolu.sessions[i].state = .closed) ∧ s.power.aclk = 2000 ∧ s.power.cclk = 1600 ∧ s.power.uclk = 1500

/-- INVARIANT. A step that answers a next state keeps every memory of the module in its canonical form. -/
def Obligations.StepKeepsMemoriesCanonical : Prop := ∀ s t : State, step s = .next t → MemOk s → MemOk t

/-- FRAME of every command: a next state differs only in the components that `touches` names, and the waiting commands stay. -/
def Obligations.CommandsTouchOnlyTheirParts : Prop :=
  ∀ (c : Instr) (s t : State), exec c s = .next t → SameBut (touches c) s t

/-- A module without power answers nothing but the return of its input: every command other than COLD_START, and OVER_VOLTAGE_TRIP,
leaves it as it is. -/
def Obligations.OffModuleIsInert : Prop :=
  ∀ (c : Instr) (s : State), s.power.on = false → (∀ l, c ≠ .coldStart l) → (∀ v, c ≠ .overVoltageTrip v) → exec c s = .next s

/-- The one stop: every command answers a next state, but for an over-voltage above 60.0 V, outside the absolute maximum. -/
def Obligations.OnlyAbsoluteMaximumStops : Prop :=
  ∀ (c : Instr) (s : State), (∃ t, exec c s = .next t) ∨ ∃ mv, c = .overVoltageTrip mv ∧ 60000 < mv ∧ exec c s = .fault .absoluteMaximum

/-! ## Courses -/

/-- MM and LOADW at the issue port of a Course that is at work: the command joins the end of the queue with the copies of its descriptors
and of its tile's entry and the next place in the tile order; the store is accounted for, and nothing else changes. -/
def Obligations.CourseCommandsQueue : Prop :=
  ∀ (s : State) (w : Who) (cr : Fin 16) (p : Fin 8) (a : Attempt) (k : CoreRun) (n : Fin 8) (c : Cmd),
    CoreMay s w cr p a k → OwnsCourse s n p → Busy s.courses[n].queue → s.courses[n].stores = [] →
    (fld c 7 0 = 0x21 → ∃ t, exec (.mm w n c) s = .next t ∧ Booked s t cr a w k ∧ SameBut [.courses, .crews] s t ∧
      t.courses = (courseQueued s n (mmCmd s n c (coreIssuer cr a k))).courses) ∧
    (fld c 7 0 = 0x22 → ∃ t, exec (.loadw w n c) s = .next t ∧ Booked s t cr a w k ∧ SameBut [.courses, .crews] s t ∧
      t.courses = (courseQueued s n (loadwCmd s n c (coreIssuer cr a k))).courses)

/-- MM and LOADW at the issue port of a free Course: the command starts and its stream takes the tiles it names. An MM that no check rejects
starts its first pass: with INIT its tile begins a sum of its rows and class with no pass (and buffered weights seen through a view of that
tile no longer match); the pass waits for its weight tile unless a buffer holds it, and one that begins takes the tolerance margin committed
then (R56, R74, R89, R91). A LOADW waits for its fill. -/
def Obligations.CourseCommandsStart : Prop :=
  ∀ (s : State) (w : Who) (cr : Fin 16) (p : Fin 8) (a : Attempt) (k : CoreRun) (n : Fin 8) (c : Cmd),
    CoreMay s w cr p a k → OwnsCourse s n p → s.courses[n].queue = [] → s.courses[n].stores = [] →
    (let u := mmCmd s n c (coreIssuer cr a k)
     let q := courseQueued (bookIssue s cr w k) n u
     let h := fin64 (mmTile c)
     let x := s.courses[n].tiles[h]
     let buffer (b : Option WTile) : Option WTile := if mmInit c then voidView (mmTile c) b else b
     let there := tileMatch u 1 (buffer s.courses[n].loading) || tileMatch u 1 (buffer s.courses[n].active)
     fld c 7 0 = 0x21 → tileWaits q n u = false → mmReject q n u = none →
      ∃ t, exec (.mm w n c) s = .next t ∧ Booked s t cr a w k ∧ SameBut [.courses, .crews, .free] s t ∧
        t.courses[n].queue = [{ u with run := true }] ∧ t.courses[n].order = s.courses[n].order + 1 ∧ t.courses[n].pass = 1 ∧
        t.courses[n].stage = (if there then .pass else .load) ∧ (there = true → t.courses[n].tau = tauNow s n) ∧
        OwnedAs (if mmInit c then { x with init := true, passes := 0, widened := false, acc16 := mmAcc16 c, cls := mmClass c, rows := mmM c, broken := false }
          else x) t.courses[n].tiles[h] ∧
        (∀ g : Fin 64, g ≠ h → OwnedAs s.courses[n].tiles[g] t.courses[n].tiles[g]) ∧ ∀ m, m ≠ n → t.courses[m] = s.courses[m]) ∧
    (let u := loadwCmd s n c (coreIssuer cr a k)
     let q := courseQueued (bookIssue s cr w k) n u
     fld c 7 0 = 0x22 → tileWaits q n u = false → loadwReject q n u = none →
      ∃ t, exec (.loadw w n c) s = .next t ∧ Booked s t cr a w k ∧ SameBut [.courses, .crews, .free] s t ∧
        t.courses[n] = { s.courses[n] with queue := [{ u with run := true }], order := s.courses[n].order + 1, stage := .load, tiles := t.courses[n].tiles } ∧
        TilesOwned s.courses[n] t.courses[n] u ∧ ∀ m, m ≠ n → t.courses[m] = s.courses[m])

/-- WEIGHT_LOAD_DONE with no uncorrectable word in the Pallet: the tile of the pass that waits becomes the active one and the pass begins with
the tolerance margin committed then; during a pass that is not strict the tile of the next pass becomes the loading one; for a LOADW the
loading buffer holds its tile and it retires OK with its record. A strict tile leaves no other beside it, and no strict tile stands beside
another (R52, R55, R56, R59, R65, R74). -/
def Obligations.WeightLoadsComplete : Prop :=
  ∀ (s : State) (n : Fin 8) (u : UnitCmd) (l : List UnitCmd),
    s.power.on = true → s.courses[n].queue = u :: l → u.run = true → s.pallets[n].ue = [] →
    (let x := mmWeights s n u s.courses[n].pass
     u.op = 0x21 → s.courses[n].stage = .load →
      ∃ t, exec (.weightLoadDone n) s = .next t ∧ SameBut [.courses, .pallets, .dict] s t ∧ Corrected s t n x.2 ∧
        (∀ m, m ≠ n → t.courses[m] = s.courses[m]) ∧
        t.courses[n] = { s.courses[n] with
          active := some x.1, loading := if x.1.strict then none else s.courses[n].loading.filter fun y => !y.strict
          stage := .pass, tau := tauNow s n }) ∧
    (let x := mmWeights s n u (s.courses[n].pass + 1)
     u.op = 0x21 → mmStrict u.word = false → s.courses[n].stage = .pass ∨ s.courses[n].stage = .verdict → s.courses[n].pass < mmPasses u.word →
      ∃ t, exec (.weightLoadDone n) s = .next t ∧ SameBut [.courses, .pallets, .dict] s t ∧ Corrected s t n x.2 ∧
        (∀ m, m ≠ n → t.courses[m] = s.courses[m]) ∧
        t.courses[n] = { s.courses[n] with loading := some x.1, active := s.courses[n].active.filter fun y => !y.strict }) ∧
    (u.op = 0x21 → mmStrict u.word = true → s.courses[n].stage = .pass ∨ s.courses[n].stage = .verdict → exec (.weightLoadDone n) s = .next s) ∧
    (∀ (cr : Fin 16) (p : Fin 8) (a : Attempt), FromCore s u cr p a → Calm s → l = [] → s.courses[n].stores = [] → u.op = 0x22 →
      let c := u.word
      let x := loadTile s n (cmdDesc u (lwWdesc c)) (lwWfmt c) (lwWdesc c) (lwK0 c) (lwN0 c) (lwStrict c)
      ∃ t, exec (.weightLoadDone n) s = .next t ∧ SameBut [.courses, .pallets, .crews, .host, .dict] s t ∧ t.courses[n].queue = [] ∧
        t.courses[n].loading = some x ∧
        t.courses[n].active = (if lwStrict c then none else s.courses[n].active.filter fun y => !y.strict) ∧
        t.crews[cr].attempt = some (noted s a u (fld c 63 32) (tagLayer (fld c 63 32)) Res.okay) ∧
        (lwEvent c ≠ 0 → lwEvent c ≤ 4095 → eventCount t (funcOf p) (lwEvent c) = eventCount s (funcOf p) (lwEvent c) + 1))

/-- PASS_END with checking enabled and no uncorrectable word in the Pallet: the partials and the check strips of the pass are stored in the
half of the tile that does not hold the last cleared pass, no other byte of any Pallet changes, and the pass waits for its verdict with its
flags. The ninth pass of a 16-bit sum, or a later one, marks its tile widened (R66, R79, R85). -/
def Obligations.PassEndStoresPartials : Prop :=
  ∀ (s : State) (n : Fin 8) (u : UnitCmd) (w : WTile) (bad : List LaneFault),
    s.power.on = true → runningMM s.courses[n] = some u → s.courses[n].active = some w → s.courses[n].stage = .pass →
    s.courses[n].check = true → s.pallets[n].ue = [] → s.pallets[n].mem.wf = true →
    let h := fin64 (mmTile u.word)
    let x := s.courses[n].tiles[h]
    let ws := passStores s n u w bad
    let wide := mmAcc16 u.word && decide (x.passes ≥ 8)
    ∃ t, exec (.passEnd n bad) s = .next t ∧ SameBut [.courses, .pallets, .dict] s t ∧
      (∀ m, m ≠ n → t.pallets[m] = s.pallets[m] ∧ t.courses[m] = s.courses[m]) ∧
      t.pallets[n].mem = s.pallets[n].mem.writeL ws ∧ (∀ b, (∀ y ∈ ws, y.1 ≠ b) → palletByte t n b = palletByte s n b) ∧
      t.courses[n].stage = .verdict ∧ t.courses[n].queue = s.courses[n].queue ∧ t.courses[n].pass = s.courses[n].pass ∧
      t.courses[n].tiles = s.courses[n].tiles.set h { x with widened := x.widened || wide } ∧
      t.courses[n].cmdWidened = (s.courses[n].cmdWidened || wide) ∧
      t.courses[n].passFlags = orFlags ((passResults s n u x w s.courses[n].pass).map fun r => r.2.2.2.1)

/-- CHECK_VERDICT: a pass that no row and no lane fails is released: `tile.passes` is one more, the halves swap, its flags join the
command's, and the next pass begins. A pass that fails for the first time is counted and runs again from its weights (R69, R71, R79). -/
def Obligations.VerdictReleasesOrReruns : Prop :=
  ∀ (s : State) (n : Fin 8) (u : UnitCmd),
    s.power.on = true → Calm s → s.courses[n].stores = [] → runningMM s.courses[n] = some u → s.courses[n].stage = .verdict →
    let h := fin64 (mmTile u.word)
    let x := s.courses[n].tiles[h]
    let v := judge s n u x
    (v.1 = [] → v.2.1 = [] → s.courses[n].pass < mmPasses u.word →
      ∃ t, exec (.checkVerdict n) s = .next t ∧ SameBut [.courses, .crews, .dict] s t ∧
        t.courses[n].tiles = s.courses[n].tiles.set h { x with passes := x.passes + 1, current := !x.current, lanes := mmLanes s n u } ∧
        t.courses[n].pass = s.courses[n].pass + 1 ∧ (∀ m, m ≠ n → t.courses[m] = s.courses[m]) ∧
        t.courses[n].cmdFlags = s.courses[n].cmdFlags ||| s.courses[n].passFlags ∧ t.courses[n].queue = s.courses[n].queue ∧
        t.courses[n].retried = (s.courses[n].retried || s.courses[n].firstFail.isSome)) ∧
    (v.1 ≠ [] ∨ v.2.1 ≠ [] → s.courses[n].firstFail = none →
      ∃ t, exec (.checkVerdict n) s = .next t ∧ SameBut [.courses, .crews, .dict] s t ∧ (∀ m, m ≠ n → t.courses[m] = s.courses[m]) ∧
        t.courses[n] = { s.courses[n] with firstFail := some (blameOf v.2.1), stage := .load, active := none, loading := none } ∧
        ctrGet t 0 (0x6100 + n) 0x31 = (ctrGet s 0 (0x6100 + n) 0x31 + 1) % 2 ^ 64 ∧
        ctrGet t 0 (0x6100 + n) 0x30 = (ctrGet s 0 (0x6100 + n) 0x30 + 1) % 2 ^ 64)

/-- Writes of a Course's and a Trowel's own objects: the check enable, the sticky flags (bits written as 1 are cleared) and the
first-offender record (VALID written as 0 clears it, as 1 does nothing) (R50, R73, R94). -/
def Obligations.CourseAndTrowelObjects : Prop :=
  ∀ (s : State) (r : Req) (n : Fin 8) (v : Byte) (d : BitVec 256),
    (MayWrite s r (0x6100 + n) 0x20 [v] 2 → ∃ t, exec (.checkEnable r n v) s = .next t ∧ SameBut [.courses, .evolu] s t ∧
      t.courses = s.courses.set n { s.courses[n] with check := decide (v ≠ 0) }) ∧
    (MayWrite s r (0x6100 + n) 0x10 [v] 2 → ∃ t, exec (.stickyFlagsClear r false n v) s = .next t ∧ SameBut [.courses, .evolu] s t ∧
      t.courses = s.courses.set n { s.courses[n] with sticky := s.courses[n].sticky &&& ~~~ v }) ∧
    (MayWrite s r 0x6200 (0x10 + n) [v] 2 → ∃ t, exec (.stickyFlagsClear r true n v) s = .next t ∧ SameBut [.trowels, .evolu] s t ∧
      t.trowels = s.trowels.set n { s.trowels[n] with sticky := s.trowels[n].sticky &&& ~~~ v }) ∧
    (MayWrite s r (0x6100 + n) 0x40 (wordBytes d) 2 → ∃ t, exec (.firstOffenderClear r n d) s = .next t ∧ SameBut [.courses, .evolu, .dict] s t ∧
      t.dict = { s.dict with gens := t.dict.gens } ∧
      t.courses = s.courses.set n { s.courses[n] with offender := if d.getLsbD 128 then s.courses[n].offender else 0 })

/-! ## Trowels and the tables of a Course -/

/-- VOP, VRED and VCVT on a free Trowel, with no uncorrectable word in its Pallet: the command runs; its stream takes the tiles it views, its
results are stored in the Pallet, no other byte changes, and it waits in the queue with its flags, done (R91, R104, R107, R109, R111). -/
def Obligations.TrowelCommandsRun : Prop :=
  ∀ (s : State) (w : Who) (cr : Fin 16) (p : Fin 8) (a : Attempt) (k : CoreRun) (n : Fin 8) (c : Cmd),
    CoreMay s w cr p a k → OwnsCourse s n p → s.trowels[n].queue = [] → s.pallets[n].ue = [] → s.pallets[n].mem.wf = true →
    let b := bookIssue s cr w k
    let u := trowelCmd b n c (coreIssuer cr a k)
    let q := trowelQueued b n u
    let e := trowelEffect (trowelTaken q n u) n u
    tileWaits q n u = false → trowelReject q n u = none → guarded (waitSpent q n (cmdTiles u)) n (outRegion c (cmdDesc u (vOdesc c))) = false →
    ∀ i, (fld c 7 0 = 0x31 ∧ i = .vop w n c) ∨ (fld c 7 0 = 0x32 ∧ i = .vred w n c) ∨ (fld c 7 0 = 0x33 ∧ i = .vcvt w n c) →
      ∃ t, exec i s = .next t ∧ SameBut [.free, .courses, .trowels, .pallets, .crews, .dict, .counters] s t ∧
        t.trowels = s.trowels.set n { s.trowels[n] with queue := [{ u with run := true, res := { Res.okay with flags := e.2 } }] } ∧
        t.pallets[n].mem = s.pallets[n].mem.writeL e.1 ∧ (∀ x, (∀ y ∈ e.1, y.1 ≠ x) → palletByte t n x = palletByte s n x) ∧
        (∀ m, m ≠ n → t.pallets[m] = s.pallets[m] ∧ t.courses[m] = s.courses[m]) ∧ TilesOwned s.courses[n] t.courses[n] u

/-- DESCRIPTOR_STORE completes: the slot holds what was stored, every other slot what it held, and a buffered weight tile loaded through the
slot no longer matches, while the pass that uses it goes on (R56, R119). TILE_TABLE_STORE completes: with no issued command on the tile its
entry is written and the tile is left uninitialised and unowned; while one is there the store waits, and its core with it: nothing it stores
after that is issued (R119, R128). A store to slot 0 or past 4,095 is outside the window and faults the core: its program ends (R230). -/
def Obligations.TablesOfACourse : Prop :=
  ∀ (s : State) (w : Who) (cr : Fin 16) (p : Fin 8) (a : Attempt) (k : CoreRun) (n : Fin 8),
    CoreMay s w cr p a k → OwnsCourse s n p →
    (∀ (slot : Nat) (d : Cmd), 1 ≤ slot → slot ≤ 4095 →
      ∃ t, exec (.descriptorStore w n slot d) s = .next t ∧ SameBut [.courses] s t ∧ (∀ m, m ≠ n → t.courses[m] = s.courses[m]) ∧
        assocGet t.courses[n].descs slot (descDflt t.courses[n] slot) = d ∧
        (∀ x, x ≠ slot → assocGet t.courses[n].descs x (descDflt t.courses[n] x) = assocGet s.courses[n].descs x (descDflt s.courses[n] x)) ∧
        (∀ b, s.courses[n].loading = some b → t.courses[n].loading = some (if b.slot = slot then { b with live := false } else b)) ∧
        (∀ b, s.courses[n].active = some b → t.courses[n].active = some (if b.slot = slot then { b with live := false } else b)) ∧
        t.courses[n].queue = s.courses[n].queue ∧ t.courses[n].tiles = s.courses[n].tiles ∧ t.courses[n].stage = s.courses[n].stage) ∧
    (∀ (h : Fin 64) (d : Cmd),
      ∃ t, exec (.tileTableStore w n h d) s = .next t ∧ SameBut [.courses] s t ∧ (∀ m, m ≠ n → t.courses[m] = s.courses[m]) ∧
        (tileBusy s n h = false → t.courses[n].tiles = s.courses[n].tiles.set h { Tile.unbound with entry := d } ∧
          t.courses[n].stores = s.courses[n].stores ∧ t.courses[n].queue = s.courses[n].queue) ∧
        (tileBusy s n h = true → t.courses[n] = { s.courses[n] with stores := s.courses[n].stores ++ [(w.cluster, w.core, h.val, d)] } ∧
          findCore t w = none)) ∧
    ∀ (slot : Nat) (d : Cmd), slot = 0 ∨ 4095 < slot →
      exec (.descriptorStore w n slot d) s = .next (castReady (emit (programFault s cr) (.coreFault w)))

/-- TILE_INTERLOCK_RELEASE: the oldest command of a Course's Trowel that waits on the tile runs once nothing earlier holds it, its wait
counted; one still held goes on waiting (R90, R112). GUARD_STALL_RELEASE: a Trowel command held against an MM's ranges runs once no range
holds it (R57). -/
def Obligations.HeldCommandsRelease : Prop :=
  (∀ (s : State) (n : Fin 8) (h : Fin 64) (u : UnitCmd) (l : List UnitCmd),
     s.power.on = true → Calm s → s.courses[n].queue = [] → s.trowels[n].queue = u :: l → usesTile u h = true → u.blocked = 1 → u.run = false →
     (tileWaits s n u = true → exec (.tileInterlockRelease n h) s = .next s) ∧
     (let q := setTrowelHead (stallAdd s (0x6100 + n) 0x33) n fun x => { x with blocked := 0 }
      let v := { u with blocked := 0 }
      let e := trowelEffect (trowelTaken q n v) n v
      tileWaits s n u = false → trowelReject q n v = none → s.pallets[n].ue = [] →
      guarded (waitSpent q n (cmdTiles u)) n (outRegion u.word (cmdDesc u (vOdesc u.word))) = false →
       ∃ t, exec (.tileInterlockRelease n h) s = .next t ∧ SameBut [.free, .courses, .trowels, .pallets, .crews, .dict, .counters] s t ∧
         t.trowels = s.trowels.set n { s.trowels[n] with queue := { v with run := true, res := { Res.okay with flags := e.2 } } :: l } ∧
         t.pallets[n].mem = s.pallets[n].mem.writeL e.1 ∧ ∀ m, m ≠ n → t.pallets[m] = s.pallets[m])) ∧
  (∀ (s : State) (n : Fin 8) (u : UnitCmd) (l : List UnitCmd),
     s.power.on = true → Calm s → s.rigger.held = [] → (∀ h : Fin 16, ∀ v m, s.hods[h].queue = v :: m → v.blocked ≠ 2) →
     s.trowels[n].queue = u :: l → u.blocked = 2 → u.run = false → s.pallets[n].ue = [] →
     let q := setTrowelHead s n fun x => { x with blocked := 0 }
     let v := { u with blocked := 0 }
     let e := trowelEffect (trowelTaken q n v) n v
     tileWaits q n v = false → trowelReject q n v = none → guarded (waitSpent q n (cmdTiles u)) n (outRegion u.word (cmdDesc u (vOdesc u.word))) = false →
       ∃ t, exec (.guardStallRelease n) s = .next t ∧ SameBut [.free, .courses, .trowels, .pallets, .crews, .dict, .counters] s t ∧
         t.trowels = s.trowels.set n { s.trowels[n] with queue := { v with run := true, res := { Res.okay with flags := e.2 } } :: l } ∧
         t.pallets[n].mem = s.pallets[n].mem.writeL e.1 ∧ ∀ m, m ≠ n → t.pallets[m] = s.pallets[m])

/-- LANE_SUBSTITUTION at a pass boundary: with a spare that passes its test the logical lane moves to it, the old lane leaves the
inventory, and where the stopped pass of R71 waits for it the pass runs again from its weights; a spare that fails leaves the inventory and
nothing else changes. PALLET_BANK_SUBSTITUTION: the logical bank moves to the lowest-numbered spare; no content changes, and the freed bank
waits for its test (R115). -/
def Obligations.LanesAndBanksSubstitute : Prop :=
  (∀ (s : State) (n : Fin 8) (lane : Nat) (rest : List Nat) (sp : Nat),
     s.power.on = true → s.courses[n].substs = lane :: rest → s.courses[n].stage ≠ .verdict →
     (List.range 520).find? (fun x => !s.courses[n].laneMap.contains x && !s.courses[n].badLanes.contains x) = some sp →
     let k := s.courses[n]
     let moved : Course := { k with laneMap := k.laneMap.set lane sp, badLanes := k.badLanes ++ [k.laneMap.getD lane 0], substs := rest, suspects := k.suspects - 1 }
     let mine : Prop := k.stage = .subst ∧ k.firstFail.map attrLane = some lane
     (∃ t, exec (.laneSubstitution n true) s = .next t ∧ SameBut (touches (.laneSubstitution n true)) s t ∧ (∀ m, m ≠ n → t.courses[m] = s.courses[m]) ∧
       (¬mine → t.courses[n] = moved) ∧
       (mine → t.courses[n] = { moved with stage := .load, active := none, loading := none, afterSubst := true })) ∧
     exec (.laneSubstitution n false) s = .next { s with courses := s.courses.set n { k with badLanes := k.badLanes ++ [sp] } }) ∧
  (∀ (s : State) (n : Fin 8) (b : Fin 128) (sp : Nat),
     s.power.on = true →
     (List.range 136).find? (fun x => !s.pallets[n].bankMap.contains x && !s.pallets[n].badBanks.contains x && s.pallets[n].freed ≠ some x) = some sp →
     ∃ t, exec (.palletBankSubstitution n b) s = .next t ∧ SameBut (touches (.palletBankSubstitution n b)) s t ∧
       t.pallets[n] = { s.pallets[n] with bankMap := s.pallets[n].bankMap.set b sp, freed := some (s.pallets[n].bankMap.getD b 0), testAsked := s.pallets[n].testAsked.erase b.val } ∧
       (∀ m, m ≠ n → t.pallets[m] = s.pallets[m]) ∧ t.courses = s.courses)

/-! ## Hods -/

/-- COPY, COPY with ADD, GATHER, SCATTER and ADDSCATTER on a free Hod: a command that no check rejects, no MM's range and no region write
holds and no error meets runs: its reads, writes and adds are made, and it waits in its queue with its flags, done. A COPY without ADD
changes no Pallet byte but those of its destination places, and one with ADD changes bytes of HBM alone (R134, R162, R168, R170). -/
def Obligations.HodCommandsRun : Prop :=
  ∀ (s : State) (w : Who) (cr : Fin 16) (p : Fin 8) (a : Attempt) (k : CoreRun) (h : Fin 16) (c : Cmd),
    CoreMay s w cr p a k → OwnsCourse s (hodCourse h) p → s.hods[h].queue = [] →
    let u := hodCmd s h c (coreIssuer cr a k)
    let q := hodQueued (bookIssue s cr w k) h u
    let g := waitSpent q (hodCourse h) (cmdTiles u)
    let o := tilesTake g (hodCourse h) u
    let pl := hodPlaces g h u
    let r := hodTaken q h u cr p
    let e := hodEffect r h u
    u.after = [] → (if fld c 7 0 = 0x41 then copyReject q u else gatherReject q h u) = none → heldBy g pl.2 = none →
    hodFault r u (hodUndo o u pl.2) pl.1 pl.2 = none →
    ∀ i, (fld c 7 0 = 0x41 ∧ cpAdd c = false ∧ i = .copy w h c) ∨ (fld c 7 0 = 0x41 ∧ cpAdd c = true ∧ i = .copyAdd w h c) ∨
        (fld c 7 0 = 0x42 ∧ i = .gather w h c) ∨ (fld c 7 0 = 0x43 ∧ i = .scatter w h c) ∨ (fld c 7 0 = 0x44 ∧ i = .addscatter w h c) →
      ∃ t, exec i s = .next t ∧ SameBut [.free, .courses, .pallets, .hods, .hbm, .host, .crews, .dict, .pointing, .counters, .out] s t ∧
        t.hods = s.hods.set h { s.hods[h] with queue := [{ u with run := true, wrote := hodOld o h u, res := { Res.okay with flags := e.2 } }] } ∧
        (∀ n : Fin 8, t.pallets[n].mem = e.1.pallets[n].mem) ∧ t.hbm.mem = e.1.hbm.mem ∧ t.hbm.dev = e.1.hbm.dev ∧ t.host.mem = e.1.host.mem ∧
        (fld c 7 0 = 0x41 → cpAdd c = true → (∀ n : Fin 8, t.pallets[n].mem = s.pallets[n].mem) ∧ t.host.mem = s.host.mem) ∧
        (fld c 7 0 = 0x41 → cpAdd c = false → ∀ n : Fin 8, s.pallets[n].mem.wf = true →
          ∀ x, (∀ y ∈ pl.2, ¬(aLoc y = 0 ∧ aCourse y = n.val ∧ aPallet y = x)) → palletByte t n x = palletByte s n x)

/-- TROWEL_RETIRE with no lane test waiting: a command that is done leaves the queue; its flags join the Trowel's sticky byte, its 64-byte
record and what it says go to its attempt, and unless it was rejected its event counts one more and it is counted (R12, R50, R111, R223, R231).
HOD_RETIRE with no table or region write waiting: the same for a Hod's command (R173, R223, R231). HOD_QUEUE_WAIT with room: the oldest
waiting store joins the queue. HOD_PART_FAULT: a command that adds has run and completes FAILED, HOD_INTERRUPTED, with PARTIAL where it had
begun to write and some of its flags, as it waits in the queue; one that adds nothing and writes into no port region is counted and
executed again from its start (R12, R176, R177). -/
def Obligations.UnitCommandsEnd : Prop :=
  (∀ (s : State) (n : Fin 8) (u : UnitCmd) (cr : Fin 16) (p : Fin 8) (a : Attempt),
     s.power.on = true → Calm s → s.trowels[n].queue = [u] → u.run = true → FromCore s u cr p a →
     s.courses[n].queue = [] → s.courses[n].stores = [] → (∀ x ∈ s.pointing.laneTests, x.1 ≠ .trowel n) →
     ∃ t, exec (.trowelRetire n) s = .next t ∧ SameBut [.free, .courses, .trowels, .host, .crews, .dict] s t ∧
       t.trowels = s.trowels.set n { s.trowels[n] with queue := [], sticky := s.trowels[n].sticky ||| u.res.flags } ∧
       t.crews[cr].attempt = some (noted s a u (vTag u.word) (tagLayer (vTag u.word)) u.res) ∧ (∀ d, d ≠ cr → t.crews[d] = s.crews[d]) ∧
       (u.res.cls ≠ .rejected → u.ev ≠ 0 → u.ev ≤ 4095 → eventCount t (funcOf p) u.ev = eventCount s (funcOf p) u.ev + 1) ∧
       (u.res.cls ≠ .rejected → ctrGet t 0 0x6200 (0x40 + n) = (ctrGet s 0 0x6200 (0x40 + n) + 1) % 2 ^ 64) ∧
       (u.res.cls = .rejected → t.dict = s.dict)) ∧
  (∀ (s : State) (h : Fin 16) (u : UnitCmd) (cr : Fin 16) (p : Fin 8) (a : Attempt),
     s.power.on = true → Calm s → s.hods[h].queue = [u] → u.run = true → FromCore s u cr p a →
     s.courses[hodCourse h].stores = [] → s.host.funcs[funcOf p].regionWrites = [] → (∀ j : Fin 16, ∀ v l, s.hods[j].queue = v :: l → v.blocked ≠ 3) →
     ∃ t, exec (.hodRetire h) s = .next t ∧ SameBut [.courses, .hods, .host, .crews, .dict] s t ∧
       t.hods = s.hods.set h { s.hods[h] with queue := [] } ∧
       t.crews[cr].attempt = some (noted s a u (hTag u.word) (tagLayer (hTag u.word)) u.res) ∧ (∀ d, d ≠ cr → t.crews[d] = s.crews[d]) ∧
       (u.res.cls ≠ .rejected → u.ev ≠ 0 → u.ev ≤ 4095 → eventCount t (funcOf p) u.ev = eventCount s (funcOf p) u.ev + 1) ∧
       (u.res.cls ≠ .rejected →
         ctrGet t 0 (0x6100 + h.val / 2) (0x50 + h.val % 2) = (ctrGet s 0 (0x6100 + h.val / 2) (0x50 + h.val % 2) + 1) % 2 ^ 64) ∧
       (u.res.cls = .rejected → t.dict = s.dict)) ∧
  (∀ (s : State) (h : Fin 16) (u v : UnitCmd) (l rest : List UnitCmd),
     s.power.on = true → Calm s → s.hods[h].queue = v :: l →
     (s.hods[h].waiting = u :: rest → s.hods[h].queue.length < 256 → v.run = true ∨ v.blocked ≠ 0 →
       ∃ t, exec (.hodQueueWait h) s = .next t ∧ SameBut [.free, .hods, .dict] s t ∧
         t.hods = s.hods.set h { s.hods[h] with queue := s.hods[h].queue ++ [u], waiting := rest }) ∧
     (v.run = false ∨ (v.res.cls ≠ .rejected ∧ v.res.cls ≠ .failed) →
       let again := hodAdds v = false ∧ (hodPlaces s h v).2.any (portPlace s (issuerFn s v.iss) (issuerPart s v.iss)) = false
       (¬again → ∃ t fl, exec (.hodPartFault h) s = .next t ∧ SameBut [.free, .courses, .pallets, .hods, .hbm, .host] s t ∧
         fl &&& ~~~ v.res.flags = 0 ∧
         t.hods = s.hods.set h { s.hods[h] with queue :=
           { v with run := true, blocked := 0, res := { failedRes .hodInterrupted (v.run && !v.wrote.isEmpty) 0 with flags := fl } } :: l } ∧
         (v.run = false ∨ v.wrote = [] → t.pallets = s.pallets ∧ t.hbm = s.hbm ∧ t.host = s.host)) ∧
       (again → exec (.hodPartFault h) s = .next (castReady (goHod (setHodHead (ctrAdd s 0 (0x6100 + h.val / 2) 0x56 1) h fun x =>
         { x with run := false, retried := true, blocked := 0, wrote := [], res := Res.okay }) h)))))

/-- HOST_REGION_WRITE and ATS_INVALIDATION: an entry that no unretired command names holds the words written, and every other entry stands;
a write of a named entry waits. What the IOMMU makes of the page from then on is as told, the page has left the cache and no other page
has, and the completion is sent (R178, R179). -/
def Obligations.HostRegionsAndTranslation : Prop :=
  ∀ (s : State) (r : Req) (i : Fin 4096) (d : BitVec 256) (f : Fin 9) (ps iova : Nat) (page : Option Nat),
    ((actorOf s r).2 = f → MayWrite s r (0x65F0 + f) 1 (wordBytes d) 2 → s.host.funcs[f].regionWrites = [] →
      (regionNamed s f i = false → ∃ t, exec (.hostRegionWrite r i d) s = .next t ∧ SameBut [.host, .dict] s t ∧ t.dict = { s.dict with gens := t.dict.gens } ∧ t.host.mem = s.host.mem ∧
        hostRegion t f i = d ∧ ∀ g j, g ≠ f ∨ j ≠ i.val → hostRegion t g j = hostRegion s g j) ∧
      (regionNamed s f i = true → ∃ t, exec (.hostRegionWrite r i d) s = .next t ∧ SameBut [.host, .dict] s t ∧ t.dict = { s.dict with gens := t.dict.gens } ∧ t.host.mem = s.host.mem ∧
        t.host.funcs[f].regionWrites = [(i.val, d)] ∧ ∀ g j, hostRegion t g j = hostRegion s g j)) ∧
    (s.power.on = true → ∃ t, exec (.atsInvalidation f ⟨ps, iova⟩ page) s = .next t ∧ SameBut [.host, .out] s t ∧ t.host.mem = s.host.mem ∧
      t.out = .atsDone f iova :: s.out ∧ (∀ g, g ∈ t.host.funcs[f].atc ↔ g ∈ s.host.funcs[f].atc ∧ g ≠ (ps, iova / 4096)) ∧
      hostPage t f ps (iova / 4096) = page ∧ (∀ q x, (q, x) ≠ (ps, iova / 4096) → hostPage t f q x = hostPage s f q x) ∧
      ∀ g, g ≠ f → t.host.funcs[g] = s.host.funcs[g])

/-! ## HBM -/

/-- MEMORY_SIDE_ADD completes on an element of an adder region of its format: the element's bytes hold the sum its format gives, no other byte
of the module changes, and the answer carries the add's flags; an add that no such region takes is answered ADDER_REGION and nothing
changes. Its read answers the stored word, converted to binary32 where it is a FIXED64 element read with CONVERT (R148, R149; what the
operands stand for: log 40). REGULATOR_REQUEST completes where no request waits: with tokens in both buckets it takes its bytes from both;
with the guarantee spent and BORROW it takes them from the cap alone; otherwise it waits. What the device asks takes no tokens (R150, R190). -/
def Obligations.HbmAddsAndRegulates : Prop :=
  (∀ (s : State) (p : Fin 8) (a fmt : Nat) (v : BitVec 64) (conv : Bool),
     s.power.on = true →
     let n := adderBytes fmt
     (∀ base size sc, adderAt s p a = some (base, size, fmt, sc) → (a - base) % n = 0 → a + n ≤ base + size → (hbmAt s p a).isSome = true →
       ueAt s (some p) ((List.range n).map (a + ·)) = none →
       let x := adderAdd fmt (ofLe ((List.range n).map fun i => hbmByteP s (some p) (a + i))) (v.toNat % 2 ^ (8 * n))
       ∃ t, exec (.memorySideAdd p a (.add fmt v)) s = .next t ∧ SameBut [.hbm, .dict, .pointing, .counters, .out] s t ∧
         t.hbm.mem = (hbmWriteP s (some p) ((leBytes n x.1).zipIdx.map fun y => (a + y.2, y.1))).hbm.mem ∧ t.out.head? = some (.memory .none 0 x.2)) ∧
     ((∀ base size sc, adderAt s p a = some (base, size, fmt, sc) → (a - base) % n ≠ 0 ∨ base + size < a + n) →
       exec (.memorySideAdd p a (.add fmt v)) s = .next (emit s (.memory .adderRegion 0 0))) ∧
     ((∀ i, i < 8 → (hbmAt s p (a + i)).isSome = true) → ueAt s (some p) ((List.range 8).map (a + ·)) = none →
       let y := BitVec.ofNat 64 (ofLe ((List.range 8).map fun i => hbmByteP s (some p) (a + i)))
       ∃ t, exec (.memorySideAdd p a (.read conv)) s = .next t ∧ SameBut [.hbm, .dict, .pointing, .counters, .out] s t ∧ t.hbm.mem = s.hbm.mem ∧
         (∀ base size sc, conv = true → adderAt s p a = some (base, size, 4, sc) →
           t.out.head? = some (.memory .none ((fromFixed y sc).1.setWidth 64) (fromFixed y sc).2)) ∧
         (conv = false → t.out.head? = some (.memory .none y 0)))) ∧
  (∀ (s : State) (p : Fin 8) (k : Fin 20) (n : Nat),
     s.power.on = true → s.hbm.waits = [] →
     let b := refill s p k
     let find (t : State) : Option Bucket := t.hbm.buckets.find? fun x => x.part = p ∧ x.stack = k
     (n ≤ b.cap → n ≤ b.guar → ∃ t, exec (.regulatorRequest (some p) k n) s = .next t ∧ SameBut [.hbm, .counters, .out] s t ∧ t.hbm.waits = [] ∧
       find t = some ⟨p, k, b.guar - n, b.cap - n, s.now⟩ ∧ t.hbm.mem = s.hbm.mem ∧ t.out = .served (some p) k n true :: s.out) ∧
     (n ≤ b.cap → b.guar < n → (regParams s p k).2.2.2 = true → ∃ t, exec (.regulatorRequest (some p) k n) s = .next t ∧
       SameBut [.hbm, .counters, .out] s t ∧ t.hbm.waits = [] ∧ find t = some ⟨p, k, b.guar, b.cap - n, s.now⟩ ∧ t.hbm.mem = s.hbm.mem ∧
       t.out = .served (some p) k n false :: s.out) ∧
     (b.cap < n ∨ (b.guar < n ∧ (regParams s p k).2.2.2 = false) → exec (.regulatorRequest (some p) k n) s =
       .next { s with hbm := { s.hbm with waits := [⟨some p, k, n, 0, s.now⟩] } }) ∧
     ∃ t, exec (.regulatorRequest none k n) s = .next t ∧ SameBut [.counters, .out] s t ∧ t.out = .served none k n true :: s.out)

/-- PATROL_SCRUB completes on a sector of a stack in service: a sector with one erroneous symbol is corrected and counted; one with two is
uncorrectable, counted and kept as such, and so is one that already was; contents stay. ROW_REPAIR of a row that needs it, with a spare row
left in its bank: the row is repaired and its corrected errors forgotten. PSEUDO_CHANNEL_REMAP of a pseudo-channel that needs it, with a free
coarse one: the two physical pseudo-channels are exchanged and the window is taken out of the pool; contents stay (R152 to R156). -/
def Obligations.HbmErrorsAreRepaired : Prop :=
  ∀ (s : State) (k : Fin 20) (pc : Fin 64) (off errs : Nat) (bank : Fin 48) (row m : Nat),
    s.power.on = true → s.hbm.stks[k].suspended = false →
    (off + 32 < pcBytes → off % 32 = 0 → placeMpa s.hbm k pc off = some m →
      let x := place3 k pc off
      (x ∉ s.hbm.ue → x ∉ s.hbm.ce → ∃ t, exec (.patrolScrub k pc off 1) s = .next t ∧ SameBut [.hbm, .dict, .pointing] s t ∧
        t.hbm.mem = s.hbm.mem ∧ t.hbm.ue = s.hbm.ue ∧ t.hbm.ce = s.hbm.ce ∧
        t.hbm.stks[k].events = ⟨pc, dramBank off, dramRow off, false, s.now, false⟩ :: s.hbm.stks[k].events ∧
        ctrGet t 0 (0x5100 + k) 0x10 = (ctrGet s 0 (0x5100 + k) 0x10 + 1) % 2 ^ 64) ∧
      (x ∉ s.hbm.ue → x ∉ s.hbm.ce → exec (.patrolScrub k pc off 0) s = .next s) ∧
      (x ∉ s.hbm.ue → x ∉ s.hbm.ce → ∃ t, exec (.patrolScrub k pc off 2) s = .next t ∧ SameBut [.hbm, .evolu, .dict, .pointing] s t ∧
        t.hbm.mem = s.hbm.mem ∧ ∀ y, y ∈ t.hbm.ue ↔ y = x ∨ y ∈ s.hbm.ue) ∧
      (x ∈ s.hbm.ue → ∃ t, exec (.patrolScrub k pc off errs) s = .next t ∧ SameBut [.hbm, .evolu, .dict, .pointing] s t ∧
        t.hbm.mem = s.hbm.mem ∧ t.hbm.ue = s.hbm.ue)) ∧
    (rowNeeds s k pc bank row = true → spareLeft s.hbm.stks[k] pc bank ≠ 0 →
      ∃ t, exec (.rowRepair k pc bank row) s = .next t ∧ SameBut [.hbm, .evolu, .dict, .pointing] s t ∧
      t.hbm.mem = s.hbm.mem ∧ t.hbm.ue = s.hbm.ue ∧ t.hbm.stks[k].repaired = s.hbm.stks[k].repaired ++ [(pc.val, bank.val, row)] ∧
      (∀ e ∈ t.hbm.stks[k].events, e.pc = pc.val → e.bank = bank.val → e.row = row → e.ue = true ∧ e.cured = true) ∧
      (∀ e ∈ s.hbm.stks[k].events, ¬(e.pc = pc.val ∧ e.bank = bank.val ∧ e.row = row) → e ∈ t.hbm.stks[k].events) ∧
      ctrGet t 0 0x8000 0x33 = (ctrGet s 0 0x8000 0x33 + 1) % 2 ^ 64) ∧
    ∀ c, s.hbm.inService.contains k.val = true → needsRemap s k pc = true → freeCoarse s k pc = some c →
      ∃ t, exec (.pseudoChannelRemap k pc) s = .next t ∧
      SameBut [.hbm, .evolu, .dict, .pointing] s t ∧ t.hbm.mem = s.hbm.mem ∧ t.hbm.stks[k].goneWindows = s.hbm.stks[k].goneWindows ++ [c] ∧
      t.hbm.stks[k].pcMap = (s.hbm.stks[k].pcMap.set pc (s.hbm.stks[k].pcMap.getD c c)).set c (s.hbm.stks[k].pcMap.getD pc pc) ∧
      ∀ j, j ≠ k → t.hbm.stks[j] = s.hbm.stks[j]

/-- RETIRE_REQUEST and margining: a named stack is left alone by Pointing and waits for READY; MARGINING_READY makes it READY;
MARGINING_START runs the sweep over it and its contents are of a new generation, undefined; MARGINING_DONE leaves the eye map, padded to
2 × 204,800 counts; INVALID_SCRUB discards it and lets Pointing work again (R157, R158). -/
def Obligations.RetirementAndMargining : Prop :=
  ∀ (s : State) (r : Req) (k : Fin 20) (map : List (BitVec 16)),
    (MayWrite s r (0x5100 + k) 3 [1] 3 → ∃ t, exec (.retireRequest r k 1) s = .next t ∧ SameBut [.hbm] s t ∧
      t.hbm = { s.hbm with stks := s.hbm.stks.set k { s.hbm.stks[k] with retireAsked := true } }) ∧
    (MayWrite s r 0x5300 1 [BitVec.ofNat 8 k] 2 → ∃ t, exec (.marginingStack r (BitVec.ofNat 8 k)) s = .next t ∧ SameBut [.hbm] s t ∧
      t.hbm.marginStack = k.val ∧ t.hbm.marginState = 0 ∧ t.hbm.marginRun = false ∧ t.hbm.mem = s.hbm.mem ∧
      ∀ j : Fin 20, t.hbm.stks[j] = { s.hbm.stks[j] with suspended := decide (j = k) }) ∧
    (s.power.on = true → s.hbm.marginStack < 20 → s.hbm.marginState = 0 →
      exec .marginingReady s = .next { s with hbm := { s.hbm with marginState := 1 } }) ∧
    (MayWrite s r 0x5300 3 [1] 3 → s.hbm.marginStack = k.val → s.hbm.marginState = 1 → ∃ t, exec (.marginingStart r 1) s = .next t ∧
      SameBut [.free, .hbm] s t ∧ t.hbm.marginRun = true ∧ t.hbm.mem = s.hbm.mem.set k ⟨s.free + 1, []⟩ ∧ t.free = s.free + 1 ∧
      t.hbm.stks = s.hbm.stks) ∧
    (s.power.on = true → s.hbm.marginRun = true → map.length ≤ 409600 → ∃ t, exec (.marginingDone map) s = .next t ∧ SameBut [.hbm, .dict] s t ∧
      t.hbm = { s.hbm with marginRun := false, marginState := 2, eyeMap := map ++ List.replicate (409600 - map.length) 0 }) ∧
    (s.power.on = true → s.hbm.marginStack = k.val → s.hbm.marginState ≠ 3 → ∃ t, exec .invalidScrub s = .next t ∧ SameBut [.hbm, .dict] s t ∧
      t.hbm.marginState = 3 ∧ t.hbm.marginRun = false ∧ t.hbm.eyeMap = [] ∧ t.hbm.mem = s.hbm.mem ∧
      ∀ j : Fin 20, t.hbm.stks[j] = { s.hbm.stks[j] with suspended := false })

namespace Sys2Proof

/-- The entry a stream starts next: of an opcode, with no reserved bit set, its WAIT satisfied, without a counter latch, and the only one of
its number (R203, R221, R464). -/
structure Starts (s : State) (f : Fin 9) (q : Fin 64) (e : EntryRun) (op : Nat) (rsv : List (Nat × Nat)) : Prop where
  on : s.power.on = true
  next : nextEntry s f q = some e
  opcode : enOp e.raw = op
  clear : rsvSet (enBody e.raw) rsv = false
  wait : e.stage = .waited ∨ enWait e.raw = 0
  events : enWait e.raw ≤ 4095 ∧ enSignal e.raw ≤ 4095
  plain : enCext e.raw = false ∧ e.latchGroup = 0xFF ∧ e.retried = false
  sole : ∀ x ∈ (stream s f q).entries, entrySeq x.raw = entrySeq e.raw → x = e

/-- The state with the stream's entry `e` replaced by `x`. -/
def entered (s : State) (f : Fin 9) (q : Fin 64) (e x : EntryRun) : State :=
  updStream s f q fun k => { k with entries := k.entries.map fun y => if entrySeq y.raw = entrySeq e.raw then x else y }

/-- An entry that has started now. -/
def Machine.EntryRun.begun (e : EntryRun) (now : U64) : EntryRun := { e with stage := .started, tStart := now }

/-- An entry that has started and finished now with a result. -/
def Machine.EntryRun.ended (e : EntryRun) (now : U64) (r : Res) : EntryRun := { e with stage := .finished, tStart := now, tEnd := now, res := r, deltas := [] }

/-- Nothing waits for the Stroke boundary of a Crew: no Course of its partition that is to leave, no request and no stale member (R267, R344, R420). -/
def BoundaryQuiet (s : State) (c : Fin 16) : Prop :=
  s.crews[c].rejoin ≠ 3 ∧ s.crews[c].req = none ∧ ∀ p, crewOwner s c = some p → ∀ x ∈ s.pointing.leaving, courseOwner s x.1 ≠ some p

end Sys2Proof

/-! ## The host port -/

/-- MSIX_HOLD_EXPIRY and MSIX_UNMASK: a vector with notifications pending that may send (unmasked, MSI-X enabled and not masked as a whole)
sends the message its table entry gives and holds none; another sets its pending bit; a vector left so by a write of its entry, with its
pending bit set, sends at once, and a write of the pending bit array has no effect. No other vector changes (R187, R189, R194; the enables
and their reset values: log 39). LINK_TRAINING with at most one retimer beside the module's own: the link is up at the rate and the width its
lanes allow, and every step of the rate is counted. STATUS_PAGE_UPDATE: a changed page is rewritten with its generation raised by 2 and the
time. STATUS_PAGE_WRITE: counted, without another effect (R182, R184, R188, R189). -/
def Obligations.MessagesLinkAndPage : Prop :=
  (∀ (s : State) (f : Fin 9) (v : Fin 2048) (addr : U64) (data : BitVec 32) (m : Bool), s.power.on = true →
     let x := vecOf s f v
     let y := { x with addr := addr, data := data, masked := m }
     (0 < x.count → x.pba = false → ∃ t, exec (.msixHoldExpiry f v) s = .next t ∧ SameBut [.now, .host, .out] s t ∧ s.now.toNat ≤ t.now.toNat ∧
       t.host.mem = s.host.mem ∧ t.host.funcs = s.host.funcs ∧ (∀ g w, g ≠ f ∨ w ≠ v → vecOf t g w = vecOf s g w) ∧
       (vecOpen s f x = true → t.out = .msix f v x.addr x.data :: s.out ∧ vecOf t f v = { x with count := 0 }) ∧
       (vecOpen s f x = false → t.out = s.out ∧ vecOf t f v = { x with pba := true })) ∧
     (∃ t, exec (.msixUnmask f (.entry v addr data m)) s = .next t ∧ SameBut [.host, .out] s t ∧ t.host.mem = s.host.mem ∧ t.host.funcs = s.host.funcs ∧
       (∀ g w, g ≠ f ∨ w ≠ v → vecOf t g w = vecOf s g w) ∧
       (x.pba = true → vecOpen s f y = true → t.out = .msix f v addr data :: s.out ∧ vecOf t f v = { y with pba := false, count := 0 }) ∧
       (x.pba = false ∨ vecOpen s f y = false → t.out = s.out ∧ vecOf t f v = y)) ∧
     exec (.msixUnmask f (.pba v)) s = .next s) ∧
  (∀ (s : State) (rate : Fin 6) (lanes retimers : Nat) (flit : Bool) (f : Fin 9), s.power.on = true →
     (1 ≤ lanes → retimers ≤ 2 → ∃ t, exec (.linkTraining rate lanes flit retimers) s = .next t ∧ SameBut [.host, .dict] s t ∧
       t.host = { s.host with up := true, rate := rate, width := linkWidth lanes, flit := flit, retimers := retimers } ∧
       ctrGet t 0 0x1900 2 = (ctrGet s 0 0x1900 2 + (rate.val + if s.host.up then 1 else 0)) % 2 ^ 64) ∧
     (pageNow s f ≠ s.host.funcs[f].page → ∃ t, exec (.statusPageUpdate f) s = .next t ∧ SameBut [.host] s t ∧ t.host.mem = s.host.mem ∧
       t.host.funcs[f] = { s.host.funcs[f] with page := { pageNow s f with gen := s.host.funcs[f].page.gen + 2, time := s.now } } ∧
       ∀ g, g ≠ f → t.host.funcs[g] = s.host.funcs[g]) ∧
     ∃ t, exec (.statusPageWrite f) s = .next t ∧ SameBut [.dict] s t ∧ t.dict.vals = s.dict.vals ∧
       ctrGet t f 0x1900 4 = (ctrGet s f 0x1900 4 + 1) % 2 ^ 64)

/-- BAR2_READ and BAR2_WRITE inside the function's regions, with the link up: the bytes read are answered and no content changes; the bytes
written stand in HBM. Outside them, on an uncorrectable sector, for a coarse write that leaves a burst partial and for a poisoned write, no
content of HBM changes, and the request is counted; a write is logged in AER (its bits: log 35; none for a sector it covers in part:
log 40), a read is answered with an error status (R146, R153, R190 to R192). -/
def Obligations.HbmWindow : Prop :=
  ∀ (s : State) (f : Fin 9) (off len : Nat) (data : List Byte), s.power.on = true → s.host.up = true →
    (∀ l, bar2Range s f off len = some l → ueAt s (partOfFn f) l = none →
      ∃ t, exec (.bar2Read f off len) s = .next t ∧ SameBut [.hbm, .dict, .pointing, .counters, .out] s t ∧ t.hbm.mem = s.hbm.mem ∧
        t.out.head? = some (.bar2 f (l.map (hbmByteP s (partOfFn f))) .successful)) ∧
    (bar2Range s f off len = none → ∃ t, exec (.bar2Read f off len) s = .next t ∧ SameBut [.dict, .out] s t ∧
      t.out = .bar2 f [] .unsupportedRequest :: s.out ∧ ctrGet t f 0x1900 5 = (ctrGet s f 0x1900 5 + 1) % 2 ^ 64) ∧
    (∀ l a, bar2Range s f off len = some l → ueAt s (partOfFn f) l = some a →
      ∃ t, exec (.bar2Read f off len) s = .next t ∧ SameBut [.hbm, .evolu, .dict, .pointing, .out] s t ∧ t.hbm = { s.hbm with stks := t.hbm.stks } ∧
        t.out = .bar2 f [] .completerAbort :: s.out ∧ ctrGet t f 0x1900 5 = (ctrGet s f 0x1900 5 + 1) % 2 ^ 64) ∧
    (∀ l, bar2Range s f off data.length = some l → bar2Short s (partOfFn f) l = false →
      (uePartial s (partOfFn f) l = none → ∃ t, exec (.bar2Write f off data false) s = .next t ∧ SameBut [.hbm, .counters, .out] s t ∧
        t.hbm.mem = (hbmWriteP s (partOfFn f) (l.zip data)).hbm.mem) ∧
      ((uePartial s (partOfFn f) l).isSome = true → ∃ t, exec (.bar2Write f off data false) s = .next t ∧
        SameBut [.hbm, .evolu, .dict, .pointing] s t ∧ t.hbm.mem = s.hbm.mem ∧ ctrGet t f 0x1900 5 = (ctrGet s f 0x1900 5 + 1) % 2 ^ 64)) ∧
    ∀ po b, (po = true ∧ b = 12) ∨ (po = false ∧ bar2Range s f off data.length = none ∧ b = 20) ∨
        (po = false ∧ b = 15 ∧ ∃ l, bar2Range s f off data.length = some l ∧ bar2Short s (partOfFn f) l = true) →
      ∃ t, exec (.bar2Write f off data po) s = .next t ∧ SameBut [.host, .dict] s t ∧ t.host.mem = s.host.mem ∧
        t.host.funcs[f] = { s.host.funcs[f] with aer := s.host.funcs[f].aer ||| BitVec.ofNat 32 (2 ^ b) } ∧
        (∀ g, g ≠ f → t.host.funcs[g] = s.host.funcs[g]) ∧ ctrGet t f 0x1900 5 = (ctrGet s f 0x1900 5 + 1) % 2 ^ 64 ∧
        (b = 15 → ∃ k : Nat, ctrGet t 0 (0x5100 + k) 0x21 = (ctrGet s 0 (0x5100 + k) 0x21 + 1) % 2 ^ 64)

/-- VF_FLR, PF0_FLR and HOT_RESET: every stream, event, table and vector of a reset function is as at reset, its AER record and status page
stay; the Courses of a VF's partition have no command and no initialised tile, its Crews no attempt; PF0's reset leaves every Course, Pallet
and Crew alone; a hot reset takes the link down (R185, R227, R437). -/
def Obligations.FunctionResets : Prop :=
  let back (s t : State) (f : Fin 9) : Prop := t.host.funcs[f] =
    { Func.init with aer := s.host.funcs[f].aer, page := s.host.funcs[f].page, iommu := s.host.funcs[f].iommu }
  ∀ (s : State), s.power.on = true → Calm s →
    (∀ p : Fin 8, ∃ t, exec (.vfFlr p) s = .next t ∧ SameBut (touches (.vfFlr p)) s t ∧ back s t (funcOf p) ∧ t.host.mem = s.host.mem ∧
      t.host.vecs = s.host.vecs.filter (fun x => x.f ≠ funcOf p) ∧
      (∀ n : Fin 8, courseOwner s n = some p → t.courses[n].queue = [] ∧ t.trowels[n].queue = [] ∧ t.courses[n].sticky = 0 ∧
        ∀ h : Fin 64, t.courses[n].tiles[h].init = false ∧ t.courses[n].tiles[h].owner = none) ∧
      ∀ c : Fin 16, crewOwner s c = some p → s.crews[c].state ≠ .undefined ∨ s.crews[c].attempt = none →
        t.crews[c].attempt = none ∧ t.crews[c].state = .undefined) ∧
    (∃ t, exec .pf0Flr s = .next t ∧ SameBut [.hods, .host, .evolu, .dict, .counters, .power] s t ∧ back s t 0 ∧ t.host.mem = s.host.mem ∧
      t.host.vecs = s.host.vecs.filter (fun x => x.f ≠ 0) ∧ t.power = { s.power with funcs := s.power.funcs + 1 } ∧
      ∀ g : Fin 9, g ≠ 0 → t.host.funcs[g] = s.host.funcs[g]) ∧
    ∃ t, exec .hotReset s = .next t ∧ SameBut (touches .hotReset) s t ∧ (∀ f, back s t f) ∧ t.host.mem = s.host.mem ∧ t.host.vecs = [] ∧
      t.host.up = false ∧ t.host.rate = 0

/-! ## Streams -/

/-- BOOTSTRAP_ENABLE_SET and BOOTSTRAP_ENABLE_CLEAR with the link up: a write of the capability with ENABLE set and no ground for refusal
writes its fields, ENABLE reads 1 and a disabled stream 0 is enabled; with a ground, ENABLE reads 0 with the ground's code; with ENABLE
left 0, the fields alone are written; a size for BAR2 is taken. Cleared, a polling stream 0 is disabled. With the link down the write is
answered with a retry status (R185, R187, R196). STREAM_ENABLE, STREAM_DISABLE and STREAM_RESUME do the same for streams 1 to 63; counters
stay, and a resumed stream's accept word and the records it owes are written again (R199, R229). -/
def Obligations.StreamControl : Prop :=
  let enabled (s : State) (f : Fin 9) (q : Fin 64) : Stream := { stream s f q with
    state := if mayPoll s f q then .polling else .waiting, halt := .none, detail := 0, interval := 250, bad := none, batches := [] }
  let disabled (s : State) (f : Fin 9) (q : Fin 64) : Stream := { stream s f q with
    state := if (stream s f q).entries.isEmpty then .disabled else .draining, halt := .none, detail := 0, bad := none, batches := [] }
  let one : BitVec 256 := BitVec.ofNat 256 (2 ^ 32)
  ∀ (s : State) (f : Fin 9) (q : Fin 64) (cap : BitVec 256) (log : Nat), s.power.on = true →
    (s.host.up = true → s.host.funcs[f].dvsec.getLsbD 32 = false → (stream s f 0).state = .disabled →
      (cap.getLsbD 32 = true → dvsecRefuse s f cap = 0 → ∃ t, exec (.bootstrapEnableSet f (.bootstrap cap)) s = .next t ∧ SameBut [.host] s t ∧
        t.host.mem = s.host.mem ∧ stream t f 0 = enabled s f 0 ∧ t.host.funcs[f].dvsec = (cap &&& dvsecMask &&& ~~~one) ||| one) ∧
      (cap.getLsbD 32 = true → dvsecRefuse s f cap ≠ 0 → ∃ t, exec (.bootstrapEnableSet f (.bootstrap cap)) s = .next t ∧ SameBut [.host] s t ∧
        t.host.mem = s.host.mem ∧ stream t f 0 = stream s f 0 ∧ t.host.funcs[f].dvsec.getLsbD 32 = false ∧
        fld t.host.funcs[f].dvsec 15 8 = dvsecRefuse s f cap) ∧
      (cap.getLsbD 32 = false → ∃ t, exec (.bootstrapEnableSet f (.bootstrap cap)) s = .next t ∧ SameBut [.host] s t ∧
        t.host.mem = s.host.mem ∧ stream t f 0 = stream s f 0 ∧
        t.host.funcs[f].dvsec = (cap &&& dvsecMask &&& ~~~one) ||| BitVec.ofNat 256 (fld s.host.funcs[f].dvsec 15 8 * 256))) ∧
    (s.host.up = true → ∃ t, exec (.bootstrapEnableSet f (.barSize log)) s = .next t ∧ SameBut [.host] s t ∧ t.host.mem = s.host.mem ∧
      t.host.funcs[f] = { s.host.funcs[f] with barLog := min log 6 }) ∧
    (s.host.up = false → ∀ w, exec (.bootstrapEnableSet f w) s = .next (emit s (.configRetry f))) ∧
    (s.host.up = true → (stream s f 0).state = .polling ∨ (stream s f 0).state = .waiting → ∃ t, exec (.bootstrapEnableClear f) s = .next t ∧
      SameBut [.host] s t ∧ t.host.mem = s.host.mem ∧ stream t f 0 = disabled s f 0 ∧
      t.host.funcs[f].dvsec = s.host.funcs[f].dvsec &&& ~~~one) ∧
    (q ≠ 0 → (stream s f q).state = .disabled → ∃ t, exec (.streamEnable f q) s = .next t ∧ SameBut [.host] s t ∧ t.host.mem = s.host.mem ∧
      stream t f q = enabled s f q ∧ ∀ r, r ≠ q.val → stream t f r = stream s f r) ∧
    (q ≠ 0 → (stream s f q).state = .polling ∨ (stream s f q).state = .waiting → ∃ t, exec (.streamDisable f q) s = .next t ∧
      SameBut [.host] s t ∧ t.host.mem = s.host.mem ∧ stream t f q = disabled s f q ∧ ∀ r, r ≠ q.val → stream t f r = stream s f r) ∧
    (q ≠ 0 → (stream s f q).state = .halted → (stream s f q).halt ≠ .journalLost → (∀ p a n, hostMapped s f p a n = true) →
      ∃ t, exec (.streamResume f q) s = .next t ∧ SameBut [.host] s t ∧ stream t f q = enabled s f q ∧
        t.host.mem = (owed s f q).foldl
          (fun m x => m.writeL (placed s f (ringSpace s f q) ((ringOf s f q).2.1 + 128 * (x.1.toNat % ringN s f q)) (wordBytes x.2)))
          (s.host.mem.writeL (placed s f (ringSpace s f q) ((ringOf s f q).2.2.1 + 8) (wordBytes (stream s f q).accepted))))

/-- STREAM_POLL of a polling stream: a host-acknowledge word that neither leaves its range nor goes back is taken. Where it finds entry E
right and nothing new after it, E is taken into a batch, and the interval is 250 ns; where slot E holds an older number, nothing is taken,
and the interval doubles up to its maximum unless HOSTACK changed. A number after E in slot E halts the stream with GAP. CRC_STUCK halts a
stream whose slot E has held the same wrong bytes (R210 to R212; host memory and what the IOMMU makes of it: log 6). -/
def Obligations.PollingTakesEntries : Prop :=
  ∀ (s : State) (f : Fin 9) (q : Fin 64) (hw : List HostWrite), s.power.on = true → (stream s f q).state = .polling →
    let z := softwareWrites s hw
    let k := stream s f q
    let v := BitVec.ofNat 64 (ofLe (hostRead z f (ringSpace s f q) (ringOf s f q).2.2.1 8))
    let e := ringSlot z f q k
    let k1 := takeEntry k e
    let e1 := ringSlot z f q k1
    let old (k : Stream) (e : Entry) : Prop := entrySeq e ≠ expectSeq k ∧ serialAfter (expectSeq k) (entrySeq e) = true ∧
      (enCrcOk e = false ∨ entrySeq e = expectSeq k - BitVec.ofNat 64 (ringN s f q) ∨ entrySeq e = 0)
    ((∀ p a n, hostMapped s f p a n = true) → v = k.retired ∨ serialAfter k.retired v = true → serialAfter k.hostack v = false →
      (entrySeq e = expectSeq k → enCrcOk e = true → mayTake s f q e = true → old k1 e1 →
        ∃ t, exec (.streamPoll f q hw) s = .next t ∧ SameBut [.host] s t ∧ t.host.mem = z.host.mem ∧
          stream t f q = { k1 with lastAck := v, hostack := v, interval := 250 } ∧ ∀ r, r ≠ q.val → stream t f r = stream s f r) ∧
      (old k e → ∃ t, exec (.streamPoll f q hw) s = .next t ∧ SameBut [.host] s t ∧ t.host.mem = z.host.mem ∧
        stream t f q = { k with
          lastAck := v, hostack := v, bad := none
          interval := if v ≠ k.hostack then k.interval else min (2 * k.interval) (max 250 (objNat s f (0x6400 + q) 7 100000)) }) ∧
      (entrySeq e ≠ expectSeq k → serialAfter (expectSeq k) (entrySeq e) = false →
        ∃ t, exec (.streamPoll f q hw) s = .next t ∧ SameBut [.host, .evolu, .out] s t ∧ t.host.mem = z.host.mem ∧
          (stream t f q).state = .halted ∧ (stream t f q).halt = .gap ∧ (stream t f q).detail = entrySeq e ∧
          (stream t f q).accepted = k.accepted ∧ (stream t f q).retired = k.retired)) ∧
    (∀ x y, k.bad = some (x, y) → ∃ t, exec (.crcStuck f q) s = .next t ∧ SameBut [.now, .host, .evolu, .out] s t ∧ t.host.mem = s.host.mem ∧
      stream t f q = { k with state := .halted, halt := .crcStuck, detail := expectSeq k, bad := none } ∧
      (y + 100000000).toNat ≤ t.now.toNat)

/-- The journal: JOURNAL_BURST_WRITE writes every batch; ENTRY_ACCEPT of a written batch raises ACCEPTED by its entries, which join the
accepted ones, and the accept word is written; JOURNAL_WRITE_FAIL of the first copy leaves the other, of the second halts every stream with
JOURNAL_LOST; JOURNAL_REBUILD_DONE makes both whole, and the repair map shows a new generation (R213, R214). -/
def Obligations.JournalAndAcceptance : Prop :=
  ∀ (s : State) (f : Fin 9) (q : Fin 64) (b : Batch) (l : List Batch) (w : Bool), s.power.on = true →
    (s.journal.copyA = true → s.journal.copyB = true →
      (∃ t, exec (.journalBurstWrite f q) s = .next t ∧ SameBut [.host] s t ∧ t.host.mem = s.host.mem ∧
        stream t f q = { stream s f q with batches := (stream s f q).batches.map fun b => { b with written := true } } ∧
        ∀ r, r ≠ q.val → stream t f r = stream s f r) ∧
      ((stream s f q).batches = b :: l → b.written = true → hostMapped s f (ringSpace s f q) ((ringOf s f q).2.2.1 + 8) 8 = true →
        ∃ t, exec (.entryAccept f q) s = .next t ∧ SameBut [.host, .power, .counters] s t ∧
          stream t f q = { stream s f q with
            batches := l, accepted := (stream s f q).accepted + BitVec.ofNat 64 b.entries.length
            entries := (stream s f q).entries ++ b.entries.map (acceptEntry s) } ∧
          t.host.mem = s.host.mem.writeL (placed s f (ringSpace s f q) ((ringOf s f q).2.2.1 + 8)
            (wordBytes ((stream s f q).accepted + BitVec.ofNat 64 b.entries.length))) ∧
          t.power = { s.power with idle := false }) ∧
      exec (.journalWriteFail w) s = .next { s with journal := { s.journal with copyA := w, copyB := !w } }) ∧
    (s.journal.copyA ≠ s.journal.copyB →
      (∃ t, exec (.journalWriteFail s.journal.copyB) s = .next t ∧ SameBut [.host, .journal, .evolu, .out] s t ∧ t.host.mem = s.host.mem ∧
        t.journal.copyA = false ∧ t.journal.copyB = false ∧
        ∀ (g : Fin 9) (r : Fin 64), (stream t g r).state = .halted ∧ (stream t g r).halt = .journalLost) ∧
      exec .journalRebuildDone s = .next
        (mapWrite { s with journal := ⟨true, true, s.journal.movedA || !s.journal.copyA, s.journal.movedB || !s.journal.copyB⟩ }))

/-- RETIREMENT of a finished first entry with room in the completion ring, where nothing waits for it: its record, and extension where it
asked for one, is written at its slot and no other byte changes, RETIRED is its number, the history begins with it, and its event counts one
more unless it was rejected (R12, R215, R217, R218, R223). -/
def Obligations.RetirementWritesTheRecord : Prop :=
  ∀ (s : State) (f : Fin 9) (q : Fin 64) (e : EntryRun) (l : List EntryRun), s.power.on = true → (stream s f q).entries = e :: l → e.stage = .finished →
    let n := entrySeq e.raw
    let k := stream s f q
    let a := (ringOf s f q).2.1 + 128 * (n.toNat % ringN s f q)
    let r := recordBytes n (enOp e.raw) e.res (enCext e.raw) (enTag e.raw) e.stroke.toNat s.now
    (n - k.hostack).toNat ≤ ringN s f q → hostMapped s f (ringSpace s f q) a (if enCext e.raw then 128 else 64) = true →
    enNotify e.raw = false → objNat s f (0x6400 + q) 9 0 = 0 → s.power.removal ≠ 1 → s.host.funcs[f].regionWrites = [] →
    (∀ h : Fin 16, ∀ v m, s.hods[h].queue = v :: m → v.blocked ≠ 3) →
    (enOp e.raw = 2 → e.res.cls = .rejected ∨ BoundaryQuiet s (fin16 (enCrew e.raw))) →
    ∃ t, exec (.retirement f q) s = .next t ∧ SameBut [.courses, .host, .counters] s t ∧
      t.host.mem = s.host.mem.writeL (placed s f (ringSpace s f q) a (r ++ if enCext e.raw then extBytes s e else [])) ∧
      (stream t f q).retired = n ∧ (stream t f q).accepted = k.accepted ∧ (stream t f q).hostack = k.hostack ∧
      (stream t f q).history = ((n, BitVec.ofNat 512 (ofLe r)) :: k.history).take 4096 ∧ (stream t f q).entries.map (·.raw) = l.map (·.raw) ∧
      (stream t f q).state = (if k.state = .draining && l.isEmpty then .disabled else k.state) ∧
      (e.res.cls ≠ .rejected → 0 < enSignal e.raw → enSignal e.raw ≤ 4095 →
        eventCount t f (enSignal e.raw) = eventCount s f (enSignal e.raw) + 1) ∧
      (e.res.cls = .rejected → t.host.funcs[f].events = s.host.funcs[f].events)

/-- NOP and MARK finish at once, a MARK with the time and its value, which the Crew it names keeps; SIGNAL_EVENT counts one more;
EVENT_WAIT_SATISFIED lets an entry that waits go on (R205, R209, R216, R221, R223). -/
def Obligations.PlainEntriesAndEvents : Prop :=
  ∀ (s : State) (f : Fin 9) (q : Fin 64) (e : EntryRun) (ev : BitVec 16),
    (Starts s f q e 1 [(735, 0)] → exec (.nop f q) s = .next (entered s f q e (e.ended s.now Res.okay))) ∧
    (Starts s f q e 5 [(735, 72)] →
      let v := BitVec.ofNat 64 (fld (enBody e.raw) 63 0)
      let c := fld (enBody e.raw) 71 64
      let r : Res := { Res.okay with d0 := s.now, d1 := v }
      (c = 0xFF → exec (.mark f q) s = .next (entered s f q e (e.ended s.now r))) ∧
      ∀ d : Fin 16, c = d.val → s.crews[d].state ≠ .undefined → (partOfFn f).isSome = true → crewOwner s d = partOfFn f →
        exec (.mark f q) s = .next (entered { s with crews := s.crews.set d { s.crews[d] with mark := v } } f q e (e.ended s.now r))) ∧
    (s.power.on = true → 1 ≤ ev.toNat → ev.toNat ≤ 4095 → ∃ t, exec (.signalEvent f ev) s = .next t ∧ SameBut [.host] s t ∧
      t.host.mem = s.host.mem ∧ eventCount t f ev.toNat = eventCount s f ev.toNat + 1 ∧
      (∀ g x, g ≠ f ∨ x ≠ ev.toNat → eventCount t g x = eventCount s g x) ∧ ∀ g : Fin 9, t.host.funcs[g].streams = s.host.funcs[g].streams) ∧
    (s.power.on = true → nextEntry s f q = some e → e.stage = .held → 1 ≤ enWait e.raw → enWait e.raw ≤ 4095 →
      enWaitCnt e.raw ≤ (eventCount s f (enWait e.raw)).toNat → (∀ x ∈ (stream s f q).entries, entrySeq x.raw = entrySeq e.raw → x = e) →
      ∃ t, exec (.eventWaitSatisfied f q) s = .next t ∧ SameBut [.host] s t ∧ t.host.mem = s.host.mem ∧
        (stream t f q).entries = (stream s f q).entries.map (fun y => if entrySeq y.raw = entrySeq e.raw then { e with stage := .waited } else y) ∧
        (stream t f q).waits = (enWait e.raw, (eventCount s f (enWait e.raw)).toNat) :: (stream s f q).waits)

/-- LAUNCH that nothing holds and no check rejects: its Stroke begins on its Crew, at attempt 1 with an empty abort history. HOST_COPY and
HOST_ACCUMULATE_START: the COPY joins the queue of the Hod its rule picks, after the waiting writes of region entries it names; one that adds
or writes epoch memory only at a Stroke boundary of its partition (R178, R207, R208, R225). -/
def Obligations.LaunchAndCopyEntriesStart : Prop :=
  ∀ (s : State) (f : Fin 9) (q : Fin 64) (e : EntryRun),
    (∀ (p : Fin 8) (c : Fin 16), Starts s f q e 2 [(735, 384), (223, 217)] →
      let b := enBody e.raw
      partOfFn f = some p → laCrew b = c.val → s.crews[c].state ≠ .undefined → crewOwner s c = some p → strokeRuns s c = false →
      hostAdds s p = false → launchHeld s c p (laStroke b).toNat = false → launchReject s c p b = none →
      ueAt s (some p) ((List.range (laIlen b)).map (laImage b + ·)) = none →
      ∃ t, exec (.launch f q) s = .next t ∧ SameBut [.host, .crews] s t ∧
        t.host = (entered s f q e (e.begun s.now)).host ∧
        t.crews = s.crews.set c { s.crews[c] with
          launch := some ⟨f, q, entrySeq e.raw, b, laStroke b⟩, nextAttempt := 1, aborts := []
          decisions := s.crews[c].decisions.filter fun d => d.stroke ≠ laStroke b }) ∧
    ∀ (h : Fin 16) (u : UnitCmd) (l : List UnitCmd), Starts s f q e 3 copyEntryRsv →
      let c := copyOf e.raw
      copyHod s f (fld (enBody e.raw) 511 504) = some h → hEvent c = 0 → hTag c = 0 → f ≠ 0 → s.hods[h].queue = u :: l →
      u.run = true ∨ u.blocked ≠ 0 → s.hods[h].queue.length < 256 →
      let v := mkCmd c (.stream f q (entrySeq e.raw)) [] [] 0 0
      let after := writesBefore s f (namedRegions v)
      let started (t : State) : Prop := SameBut [.host, .hods] s t ∧ t.host = (entered s f q e { e.begun s.now with after := after }).host ∧
        t.hods = s.hods.set h { s.hods[h] with queue := s.hods[h].queue ++ [{ v with after := after }] }
      (copyAccum s f e.raw = false → ∃ t, exec (.hostCopy f q) s = .next t ∧ started t) ∧
      ∀ p, copyAccum s f e.raw = true → partOfFn f = some p → (∀ c : Fin 16, crewOwner s c = some p → strokeRuns s c = false) →
        ∃ t, exec (.hostAccumulateStart f q) s = .next t ∧ started t

/-- A FENCE that is its stream's first unretired entry finishes once its condition holds: LOCAL at once; DEVICE with no change set the
stream committed NOW pending; HOST with the link up besides; CREW with every packet of the partition's Crews acknowledged (of which streams: log 41) and every other
member at its fence. All but LOCAL hand over the stream's tiles (R91, R209, R222). -/
def Obligations.FencesComplete : Prop :=
  ∀ (s : State) (f : Fin 9) (q : Fin 64) (e : EntryRun) (l : List EntryRun) (ar : List Nat),
    Starts s f q e 4 [(735, 64), (31, 16), (7, 2)] → (stream s f q).entries = e :: l → e.fence = none →
    let b := enBody e.raw
    let handed (t : Tile) : Tile := if t.owner == some (f, q) && !t.inUse then { t with fenced := true } else t
    let given := { s with courses := s.courses.map fun c => { c with tiles := c.tiles.map handed } }
    (feScope b = 0 → feCrew b = 0 → feId b = 0 → exec (.fenceLocal f q) s = .next (entered s f q e (e.ended s.now Res.okay))) ∧
    (feScope b = 1 → feCrew b = 0 → feId b = 0 → setsWait s f q = false →
      exec (.fenceDevice f q) s = .next (entered given f q e (e.ended s.now Res.okay))) ∧
    (feScope b = 2 → feCrew b = 0 → feId b = 0 → setsWait s f q = false → s.host.up = true →
      exec (.fenceHost f q) s = .next (entered given f q e (e.ended s.now Res.okay))) ∧
    ∀ c : Fin 16, feScope b = 3 → feCrew b = c.val → s.crews[c].state ≠ .undefined → (partOfFn f).isSome = true → crewOwner s c = partOfFn f →
      setsWait s f q = false → (∀ r, r < crewP s c → r ≠ myRank s c → r ∈ ar) → writesUnacked s f = false →
      exec (.fenceCrew f q ar) s = .next
        (entered given f q e { e.ended s.now Res.okay with fence := some (s.crews[c].state, s.crews[c].epoch) })

/-- EXPORT that no check rejects pins the layers it names with their descriptors and records; EXPORT_DONE to a host region writes their
bytes there, releases them, and the entry finishes with the length (R209, R353). -/
def Obligations.ExportsPinAndFinish : Prop :=
  ∀ (s : State) (f : Fin 9) (q : Fin 64) (e : EntryRun) (p : Fin 8) (c : Fin 16), partOfFn f = some p →
    let b := enBody e.raw
    (Starts s f q e 7 [(735, 192), (71, 66), (15, 8)] → exCrew b = c.val → s.crews[c].exporting = none → regionPending s f e.raw = false →
      exportReject s f p b = none →
      ∃ t, exec (.exportSlots f q) s = .next t ∧ SameBut [.host, .crews] s t ∧ t.host = (entered s f q e (e.begun s.now)).host ∧
        t.crews = s.crews.set c { s.crews[c] with
          exporting := some ⟨f, q, entrySeq e.raw, exStroke b, (exLayers s p b).map fun k => (k, layerDesc s p k, layerRec s p k)⟩ }) ∧
    ∀ x, s.power.on = true → exportCrew s f q = some (c, x) → ((stream s f q).entries.find? fun e => entrySeq e.raw = x.seq) = some e →
      e.latchGroup = 0xFF → e.retried = false → exTarget b = 0 → ueAt s (some p) (exportReads x) = none →
      let bs := exportBytes s p x
      let es := (List.range bs.length).map fun i => hostAddr (exDreg b) (exDoff b + i)
      hostFaultAt s f es = none →
      ∃ t, exec (.exportDone f q) s = .next t ∧
        SameBut [.courses, .pallets, .hbm, .host, .crews, .dict, .pointing, .counters, .out] s t ∧
        t.host.mem = (spaceWriteL s f (some p) (es.zip bs)).host.mem ∧
        t.crews = s.crews.set c { s.crews[c] with exporting := none } ∧
        ∃ y ∈ (stream t f q).entries, y.raw = e.raw ∧ y.stage = .finished ∧ y.res = { Res.okay with d0 := BitVec.ofNat 64 bs.length }

namespace Sys2Proof

/-- The dictionary serves a requester: the module has power, its management cores run in lockstep, the boot ROM does not wait for an image,
and no lease has run out (R377, R397, R422, R445). -/
structure Serves (s : State) (r : Req) : Prop where
  on : s.power.on = true
  lockstep : s.pointing.lockstep = true
  running : s.power.bringUp ≠ .rom
  lease : leaseCheck s = s

/-- The state after an answer to a requester, which repeats the object and offset named. -/
def replied (s : State) (r : Req) (op code : Nat) (m : SvcMsg) (aux0 aux1 : Nat) (data : List Byte) : State :=
  { s with out := .response r (svcBytes op code (answer m aux0 aux1 data)) :: s.out }

/-- An object whose value stands among the dictionary's as it is written, with no unit, table or rule that follows from it. -/
def plainObject (idx sub : Nat) : Prop :=
  inUnit idx sub = false ∧ isTable idx sub = false ∧ idx ∉ [0x1800, 0x2400, 0x4000, 0x5000, 0x5200, 0x7000, 0x7300, 0x9800] ∧ idxIn idx 0x7200 0x720F = false

/-- Committed values, open set, pending sets and history of two dictionaries are the same. -/
def SameSets (s t : State) : Prop :=
  t.dict.vals = s.dict.vals ∧ t.dict.openSet = s.dict.openSet ∧ t.dict.pendings = s.dict.pendings ∧ t.dict.history = s.dict.history

end Sys2Proof

/-! ## The object dictionary -/

/-- READ and READ_SEG of an object the requester may read answer its committed value, or up to 1,000 bytes of it, and change nothing. A DICT
entry, no write of a region it names waiting, carries its message to the same service: the answer stands in host memory and the entry
finishes with its length and code, the code being of no reserved bit staged (R6, R178, R197, R379, R393). -/
def Obligations.DictionaryReads : Prop :=
  ∀ (s : State) (r : Req) (m : SvcMsg),
    (∀ i, Serves s r → objFound s m.index.toNat m.sub.toNat = some i → mayRead s (actorOf s r) m.index.toNat m.sub.toNat = true → i.access ≠ 3 →
      foreignCard s (actorOf s r) m.index.toNat m.sub.toNat m.offset.toNat 1000 = false → s.dict.openSet = none →
      (m.aux1 = 0 → m.offset = 0 → objLen s r m.index.toNat m.sub.toNat i ≤ 1000 →
        exec (.read r m) s = .next (replied s r 1 0 m 0 0 (objValue s r m.index.toNat m.sub.toNat i))) ∧
      (i.ty = 12 → m.offset.toNat + 1000 < objLen s r m.index.toNat m.sub.toNat i → 0 < m.offset.toNat →
        exec (.readSeg r m) s = .next (replied s r 3 0 m (assocGet s.dict.gens (keyOf (actorOf s r) m.index.toNat m.sub.toNat) 0).toNat 0
          (objPartRead s r m.index.toNat m.sub.toNat i m.offset.toNat 1000)))) ∧
    ∀ (f : Fin 9) (q : Fin 64) (e : EntryRun) (bytes : List Byte) (op : Nat), Serves s (.fn f) → Starts s f q e 6 [(735, 112)] →
      let b := enBody e.raw
      1 ≤ dcReqLen b → dcReqLen b ≤ 1024 → dcRespOff b % 64 = 0 → hostBufferFault s f (dcRespReg b) (dcRespOff b) 1024 2 = none →
      dictRequest s f b = some bytes → parseMsg bytes = some (op, m) → op = 1 ∨ 0x10 ≤ op → regionPending s f e.raw = false →
      let ran := { e.begun s.now with ran := op }
      let x := svc (entered s f q e ran) (.fn f) (some (f, q)) op m
      let rb := svcBytes op x.2.1 x.2.2
      let y := spaceWriteL x.1 f (partOfFn f) (rb.zipIdx.map fun z => (hostAddr (dcRespReg b) (dcRespOff b + z.2), z.1))
      (x.2.1 = 0x0202 → op = 0x11 → valueRsv m.index.toNat m.sub.toNat m.data = false) →
      exec (.dict f q) s = .next (entered y f q e
        (ran.ended s.now { Res.okay with d0 := BitVec.ofNat 64 rb.length, d1 := BitVec.ofNat 64 x.2.1 }))

/-- WRITE and REGISTER_WRITE of a readable object that nothing follows from: its committed value is the bytes written, every other object's
value stands, and a WRITE is answered. WRITE_SEG at OFFSET 0 starts a transfer that holds its bytes; TRANSFER_STATUS tells how far it is;
TRANSFER_EXPIRY drops the one an anchor left 60 s ago (R378, R380, R390, R394). -/
def Obligations.DictionaryWrites : Prop :=
  ∀ (s : State) (r : Req) (m : SvcMsg),
    let idx := m.index.toNat
    let sub := m.sub.toNat
    let k := keyOf (actorOf s r) idx sub
    (MayWrite s r idx sub m.data 2 → plainObject idx sub → s.dict.flashBad = false →
      let holdsIt (t : State) : Prop := objBytes t k.f k.idx k.sub [] = m.data ∧
        ∀ j : ObjKey, j ≠ k → ∀ d, objBytes t j.f j.idx j.sub d = objBytes s j.f j.idx j.sub d
      (∃ t, exec (.write r m) s = .next t ∧ SameBut [.dict, .out] s t ∧ holdsIt t ∧
        t.out = .response r (svcBytes 2 0 (answer m 0 0 [])) :: s.out) ∧
      ∃ t, exec (.registerWrite r m.index m.sub m.data) s = .next t ∧ SameBut [.dict] s t ∧ holdsIt t) ∧
    (∀ i, Serves s r → objFound s idx sub = some i → mayWrite s (actorOf s r) idx sub = true → 2 ≤ i.access → i.ty = 12 → idx ≠ 0x4100 →
      myTransfer s r = none → m.offset = 0 → m.aux0.toNat ≤ i.size → (∀ t ∈ s.dict.transfers, keptOf r s t = false) →
      (s.dict.transfers.map (·.total)).sum + m.aux0.toNat ≤ 2 ^ 30 → m.data.length ≤ m.aux0.toNat → m.mflags.getLsbD 0 = false →
      ∃ t, exec (.writeSeg r m) s = .next t ∧ SameBut [.dict, .out] s t ∧ SameSets s t ∧
        myTransfer t r = some ⟨holderOf s r, true, 0, k, m.aux0.toNat, m.data⟩ ∧
        t.out = .response r (svcBytes 4 0 (answer m m.data.length 0 [])) :: s.out) ∧
    (∀ x, Serves s r → myTransfer s r = some x → exec (.transferStatus r m) s = .next
      (replied s r 5 0 m 0 0 (leBytes 2 x.key.idx ++ leBytes 1 x.key.sub ++ [0] ++ leBytes 4 x.bytes.length))) ∧
    ∀ (a : Fin 8) (i : Fin 8) (x : Transfer), s.power.on = true → x ∈ s.dict.transfers → x.live = false → x.by_ = .sess i a →
      ∃ t, exec (.transferExpiry a) s = .next t ∧ SameBut [.now, .dict] s t ∧ SameSets s t ∧
        ∀ y, y ∈ t.dict.transfers ↔ y ∈ s.dict.transfers ∧ (y.live = true ∨ ∀ j, y.by_ ≠ .sess j a)

/-- The change set of a requester: OPEN makes it the open set with a lease of 10 s; STAGE adds a value; CHECK without a conflict marks it
checked; COMMIT without a conflict makes it pending, with a record in the history; ABORT ends it DISCARDED; RENEW starts its lease again. No
committed value changes (R397, R398, R401, R402, R405, R407). -/
def Obligations.ChangeSets : Prop :=
  ∀ (s : State) (r : Req) (m : SvcMsg), Serves s r →
    ((actorOf s r).1 ≤ 2 → s.dict.openSet = none → ∃ t, exec (.openSet r m) s = .next t ∧ SameBut [.dict, .out] s t ∧
      t.dict.vals = s.dict.vals ∧ t.dict.lastId = s.dict.lastId + 1 ∧
      t.dict.openSet = some ⟨s.dict.lastId + 1, holderOf s r, false, [], s.now + 10000000000⟩ ∧
      t.out = .response r (svcBytes 0x10 0 (answer m (s.dict.lastId + 1).toNat 10000 [])) :: s.out) ∧
    ∀ o, setOf s r m.aux0 = .ok o →
      let point := BitVec.ofNat 128 (leAt m.data 0 16)
      (∀ i, objFound s m.index.toNat m.sub.toNat = some i → mayWrite s (actorOf s r) m.index.toNat m.sub.toNat = true → i.access = 2 ∨ i.access = 4 →
        valueRefuse s m.index.toNat m.sub.toNat i m.data = none → m.index ≠ 0x5400 →
        (∀ x ∈ o.staged, x.1 ≠ keyOf (actorOf s r) m.index.toNat m.sub.toNat) → o.staged.length < 4096 →
        ∃ t, exec (.stage r m) s = .next t ∧ SameBut [.dict, .out] s t ∧ t.dict.vals = s.dict.vals ∧
          t.dict.openSet = some { o with
            checked := false, lease := s.now + 10000000000
            staged := o.staged ++ [(keyOf (actorOf s r) m.index.toNat m.sub.toNat, m.data)] } ∧
          t.out = .response r (svcBytes 0x11 0 (answer m (o.staged.length + 1) 0 [])) :: s.out) ∧
      (m.data.length = 16 → pointBad point = false → setConflicts s o point = [] →
        (∃ t, exec (.check r m) s = .next t ∧ SameBut [.dict, .out] s t ∧ t.dict.vals = s.dict.vals ∧ t.dict.conflicts = [] ∧
          t.dict.openSet = some { o with checked := true, lease := s.now + 10000000000 } ∧
          t.out = .response r (svcBytes 0x12 0 (answer m 0 0 [])) :: s.out) ∧
        ∃ t, exec (.commit r m) s = .next t ∧ SameBut [.dict, .out] s t ∧ t.dict.vals = s.dict.vals ∧ t.dict.openSet = none ∧
          t.dict.pendings = s.dict.pendings ++ [⟨o.id, o.holder, none, point, o.staged, s.now, [], false⟩] ∧
          t.dict.history = (⟨o.id, 0, o.holder, apKind point, pointField point, s.now, 0⟩ :: s.dict.history).take 64 ∧
          t.out = .response r (svcBytes 0x13 0 (answer m o.id.toNat 0 [])) :: s.out) ∧
      (∃ t, exec (.abort r m) s = .next t ∧ SameBut [.evolu, .dict, .out] s t ∧ t.dict.vals = s.dict.vals ∧ t.dict.openSet = none ∧
        t.dict.pendings = s.dict.pendings ∧ t.dict.history = (⟨o.id, 2, o.holder, 0, 0, s.now, 0⟩ :: s.dict.history).take 64 ∧
        t.out = .response r (svcBytes 0x14 0 (answer m 0 0 [])) :: s.out) ∧
      exec (.renew r m) s = .next
        { s with dict := { s.dict with openSet := some { o with lease := s.now + 10000000000 } }
                 out := .response r (svcBytes 0x15 0 (answer m 0 10000 [])) :: s.out }

/-- How sets end: LEASE_EXPIRY ends the open set EXPIRED; FORCE_ABORT of its identifier DISCARDED; CANCEL_PENDING of a pending one CANCELLED,
all three without a change of any value. APPLY_POINT of a set due NOW whose object nothing follows from: its value is committed, no other
is changed, and the set is no longer pending. REGION_ZERO_FILL zeroes the blocks of one table while another is still being filled
(R397, R403 to R405, R453). -/
def Obligations.ChangeSetsEnd : Prop :=
  ∀ (s : State) (r : Req) (id : BitVec 32), s.power.on = true →
    (∀ o, s.dict.openSet = some o →
      (∃ t, exec .leaseExpiry s = .next t ∧ SameBut [.now, .evolu, .dict] s t ∧ o.lease.toNat ≤ t.now.toNat ∧ s.now.toNat ≤ t.now.toNat ∧
        t.dict.vals = s.dict.vals ∧ t.dict.openSet = none ∧ t.dict.pendings = s.dict.pendings ∧
        t.dict.history = (⟨o.id, 3, o.holder, 0, 0, t.now, 0⟩ :: s.dict.history).take 64) ∧
      (o.id = id → MayWrite s r 0xA000 2 (wordBytes id) 3 → ∃ t, exec (.forceAbort r id) s = .next t ∧ SameBut [.evolu, .dict] s t ∧
        t.dict.vals = s.dict.vals ∧ t.dict.openSet = none ∧ t.dict.pendings = s.dict.pendings ∧
        t.dict.history = (⟨o.id, 2, o.holder, 0, 0, s.now, 0⟩ :: s.dict.history).take 64)) ∧
    (∀ x, (s.dict.pendings.find? fun x => x.id = id) = some x → x.fill = [] →
      (manages (actorOf s r) = true → MayWrite s r 0xA000 3 (wordBytes id) 3 → ∃ t, exec (.cancelPending r id) s = .next t ∧
        SameBut [.evolu, .dict] s t ∧ t.dict.vals = s.dict.vals ∧ t.dict.openSet = s.dict.openSet ∧
        t.dict.pendings = s.dict.pendings.filter fun y => y.id ≠ id) ∧
      ∀ k d, Calm s → x.values = [(k, d)] → apKind x.point = 0 → plainObject k.idx k.sub → atPoint s k d = true → lateConflicts s x = [] →
        s.dict.flashBad = false → ∃ t, exec (.applyPoint id) s = .next t ∧ SameBut [.evolu, .dict] s t ∧ objBytes t k.f k.idx k.sub [] = d ∧
          (∀ j : ObjKey, j ≠ k → ∀ z, objBytes t j.f j.idx j.sub z = objBytes s j.f j.idx j.sub z) ∧
          t.dict.pendings = s.dict.pendings.filter fun y => y.id ≠ id) ∧
    ∀ (p : Fin 8) (x : PendSet), (s.dict.pendings.find? fun x => x.fill.contains p) = some x → (∃ q ∈ x.fill, q ≠ p) →
      ∃ t, exec (.regionZeroFill p) s = .next t ∧ SameBut [.hbm, .dict] s t ∧ t.hbm = (zeroBlocks s (blocksIn s x.values p)).hbm ∧
        t.dict.vals = s.dict.vals ∧
        t.dict.pendings = s.dict.pendings.map fun y => if y.id = x.id then { x with fill := x.fill.filter (· ≠ p) } else y

namespace Sys2Proof

/-- The attempt of a Crew is under way: another command of it than its VOTE is in flight and no decision is held, so that no vote is cast and nothing is acted on
yet; every other Crew is calm, and no tile waits to be sent on. -/
structure Underway (s : State) (c : Fin 16) (a : Attempt) : Prop where
  on : s.power.on = true
  attempt : s.crews[c].attempt = some a
  others : ∀ d : Fin 16, d ≠ c → crewCalm s.crews[d] = true
  writes : ∀ f : Fin 9, s.host.funcs[f].collWrites = [] ∧ s.host.funcs[f].handleWrites = []
  free : s.crews[c].ops = [] ∧ s.crews[c].waiting = []
  running : s.crews[c].fin = .running ∧ s.crews[c].decision = none
  flight : 1 < a.inFlight
  tiles : ∀ n : Fin 8, ∀ h : Fin 64, s.courses[n].tiles[h].sendon = none

/-- An attempt one of whose cores has ended. -/
def Machine.Attempt.coreEnded (a : Attempt) (k : CoreRun) : Attempt :=
  { a with cores := a.cores.map fun x => if x.cluster = k.cluster ∧ x.lcore = k.lcore then { x with ended := true } else x }

/-- An attempt whose program has faulted. -/
def Machine.Attempt.faulty (a : Attempt) : Attempt :=
  { a with ended := true, faulted := true, fails := a.fails ++ [(.failed, .programFault, 2, 0)], cores := a.cores.map fun k => { k with ended := true } }

/-- A packet of a kind from the member to a rank, without LSEQ and CRC. -/
def rankPacket (s : State) (c : Fin 16) (r type : Nat) (xtag : Nat) (payload : List Byte) : List Byte :=
  leBytes 28 (packetHdr type false false (rankMid s c r) (ownMid s) (crewTag s c) payload.length 0 (epochMsg s c) xtag) ++ payload

/-- A rank is reached through port `q`, which has room for the packet and keeps nothing back. -/
def RankPort (s : State) (c : Fin 16) (r : Nat) (q : Fin 16) (raw : List Byte) : Prop :=
  routePort s (rankMid s c r) false = some q ∧ s.rigger.ports[q].waiting = [] ∧ portRoom s.rigger.ports[q] false raw = true

/-- What leaves a port for that packet. -/
def portSends (s : State) (q : Fin 16) (raw : List Byte) : Out := .packet q (sealPacket s.rigger.ports[q].txSeq raw)

/-- A SYNC packet's payload of the Crew's epoch. -/
def syncBody (s : State) (c : Fin 16) (kind : Nat) (body : List Byte) : List Byte := leBytes 4 kind ++ leBytes 4 s.crews[c].epoch.toNat ++ body

/-- A HELLO's payload. -/
def helloBody (s : State) (c : Fin 16) : List Byte := syncBody s c 1 (leBytes 8 s.crews[c].hash.toNat ++ leBytes 4 (myRank s c))

/-- Every Crew is calm but one, whose operations are `os` and which has nothing waiting. -/
structure Operates (s : State) (c : Fin 16) (os : List CollOp) : Prop where
  on : s.power.on = true
  others : ∀ d : Fin 16, d ≠ c → crewCalm s.crews[d] = true
  writes : ∀ f : Fin 9, s.host.funcs[f].collWrites = [] ∧ s.host.funcs[f].handleWrites = []
  ops : s.crews[c].ops = os ∧ s.crews[c].waiting = []
  alive : ∀ a, s.crews[c].attempt = some a → a.ended = false ∧ a.voteCmd = none ∧ s.crews[c].fin ≠ .unresolved
  there : s.crews[c].cut.arrived.contains (myRank s c) = true
  tiles : ∀ n : Fin 8, ∀ h : Fin 64, s.courses[n].tiles[h].sendon = none

/-- The SENDs or RECVs of a stage with a peer so far in the epoch. -/
def p2pSoFar (k : Crew) (snd : Bool) (r st : Nat) : Nat := ((k.p2pCount.find? fun x => x.1 = snd && x.2.1 = r && x.2.2.1 = st).map fun x => x.2.2.2).getD 0

end Sys2Proof

/-! ## Strokes -/

/-- ATTEMPT_START with HS 1, cores and cluster memory free: the attempt starts on the lowest free cores, each at ENTRY with its arguments in x10 to x15
(R233). CORE_ECALL: the core has ended; with the last one, after its VOTE, the program has; without a VOTE it faults, as a trap of CORE_TRAP does, which ends it on every
core. A load or an instruction fetch of cluster memory gives its bytes and a store there writes them (R230; as acts of CORE_TRAP: log 20). VOTE: noted, and cast once no
other command is in flight (R233, R328). -/
def Obligations.AttemptsAndCores : Prop :=
  ∀ (s : State) (c : Fin 16) (w : Who) (a : Attempt) (k : CoreRun),
    (∀ (l : LaunchRun) (p : Fin 8), s.power.on = true → Calm s → s.crews[c].launch = some l → crewOwner s c = some p → s.crews[c].fin = .idle →
      s.crews[c].hs = true → s.crews[c].rejoin = 0 → s.pointing.leaving = [] → (∀ j : Fin 4, s.pointing.clusters[j].late = false) →
      let h := (imageOf s p l).1
      (∀ j : Fin 4, (ihClusters h).testBit j.val = true → ihCores h j ≤ (freeCores s j).length ∧ usedFoot s j + ihFoot h ≤ 8388608) →
      ∃ t, exec (.attemptStart c) s = .next t ∧ SameBut [.crews] s t ∧ (∀ d, d ≠ c → t.crews[d] = s.crews[d]) ∧
        t.crews[c].attempt = some (newAttempt s c p l) ∧ t.crews[c].fin = .running ∧ t.crews[c].decision = none ∧
        t.crews[c].nextAttempt = s.crews[c].nextAttempt ∧
        ∀ x ∈ (newAttempt s c p l).cores, x.ended = false ∧ x.issued = 0 ∧ x.pc = BitVec.ofNat 64 (ihEntry h) ∧ x.xregs.getD 12 0 = l.stroke.setWidth 64 ∧
          x.xregs.getD 13 0 = BitVec.ofNat 64 s.crews[c].nextAttempt ∧ x.xregs.getD 15 0 = BitVec.ofNat 64 c) ∧
    (findCore s w = some (c, a, k) → Underway s c a →
      let b := a.coreEnded k
      (b.cores.all (·.ended) = false → exec (.coreEcall w) s = .next (updAttempt s c fun _ => b)) ∧
      (b.cores.all (·.ended) = true → a.voteCmd.isSome = true → a.held = [] → exec (.coreEcall w) s = .next (updAttempt s c fun _ => { b with ended := true })) ∧
      (b.cores.all (·.ended) = true → a.voteCmd = none → exec (.coreEcall w) s = .next (updAttempt s c fun _ => b.faulty)) ∧
      exec (.coreTrap ⟨w, .trap⟩) s = .next (updAttempt s c fun _ => a.faulty)) ∧
    (∀ (p : Fin 8) (x : Nat), s.power.on = true → findCore s w = some (c, a, k) → crewOwner s c = some p →
      (∀ code n, x + n ≤ a.foot → x < a.foot →
        ∃ t cs, exec (.coreTrap ⟨w, .load code x n⟩) s = .next t ∧ SameBut [.free, .crews, .out] s t ∧
          t.crews = s.crews.set c { s.crews[c] with attempt := some { a with cores := cs } } ∧
          t.out = .coreLoad w ((List.range n).map fun i => (a.mem.getD k.cluster Mem.empty).read (x + i)) :: s.out) ∧
      ∀ bs : List Byte, x < a.foot → x % 64 + bs.length ≤ 64 →
        exec (.coreTrap ⟨w, .store x bs⟩) s = .next (updAttempt s c fun y => clusterWrite y w.cluster x bs)) ∧
    ∀ (p : Fin 8) (v : Cmd), CoreMay s w c p a k → s.crews[c].decision = none → a.held = [] → fld v 7 0 = 0x54 → rsvSet v voteRsv = false →
      fld v 11 8 = c.val → fld v 79 64 ≤ 4095 →
      let b := bookIssue s c w k
      (0 < a.inFlight ∨ a.voted = true ∨ s.crews[c].fin ≠ .running →
        exec (.vote w v) s = .next (updAttempt b c fun x => { x with voteCmd := some (v, coreIssuer c a k) })) ∧
      (a.inFlight = 0 → a.voted = false → a.voteOut = false → a.faulted = false → s.crews[c].fin = .running → (∃ r, combinerOf s c = some r) →
        ∃ t, exec (.vote w v) s = .next t ∧ SameBut [.rigger, .crews, .dict, .counters, .out] s t ∧ (∀ d, d ≠ c → t.crews[d] = s.crews[d]) ∧
          t.crews[c].fin = .voting ∧ t.crews[c].attempt = ((updAttempt b c fun x =>
            { x with voteCmd := some (v, coreIssuer c a k), voted := true, tVote := s.now, user := BitVec.ofNat 64 (fld v 191 128) }).crews[c]).attempt)

/-! ## Collective operations -/

/-- ALLREDUCE, REDUCESCATTER, ALLGATHER, BROADCAST, REDUCE, ALLTOALL, ALLTOALLV and BARRIER that no check rejects, of a Crew with HS 1 and nothing in flight: the
operation begins as the next of its epoch, with the chunk size and weight the Crew has then, and with no READY from any peer yet it stays in flight, not complete. While
HS is 0 it waits (R266, R274, R276, R292, R296). -/
def Obligations.CollectivesBegin : Prop :=
  ∀ (s : State) (w : Who) (cr : Fin 16) (p : Fin 8) (a : Attempt) (k : CoreRun) (c : Cmd) (i : Instr),
    CoreMay s w cr p a k → fld c 7 0 = 0x51 → crewopReject (bookIssue s cr w k) p c = none → s.crews[cr].fin ≠ .decided →
    (coOp c = 0 ∧ i = .allreduce w c ∨ coOp c = 1 ∧ i = .reducescatter w c ∨ coOp c = 2 ∧ i = .allgather w c ∨ coOp c = 3 ∧ i = .broadcast w c ∨
      coOp c = 4 ∧ i = .reduce w c ∨ coOp c = 5 ∧ i = .alltoall w c ∨ coOp c = 6 ∧ i = .alltoallv w c ∨ coOp c = 7 ∧ i = .barrier w c) →
    let d := coCrew c
    let iss := coreIssuer cr a k
    let tm : Terms := ⟨crewChunk s d, crewWeight s d, s.crews[d].age, none⟩
    (s.crews[d].hs = false → exec i s = .next (updCrew (bookIssue s cr w k) d fun x =>
      { x with waiting := [(c, iss, tm)], age := x.age + 1, silence := crewSilence s d })) ∧
    (s.crews[d].hs = true → crewPeers s d ≠ [] → 1 < crewP s d → myRank s d < crewP s d → s.crews[d].early = [] → s.crews[d].earlyRisen = [] →
      (∀ n : Fin 8, s.pallets[n].ue = [] ∧ ∀ h : Fin 64, s.courses[n].tiles[h].sendon = none) → s.hbm.ue = [] → (∀ x ∈ crewG s d, 0 < x) →
      (∀ r, r < crewP s d ∨ r ∈ crewPeers s d → r ≠ myRank s d → (routePort s (rankMid s d r) false).isSome = true) →
      ∃ t o, exec i s = .next t ∧ t.crews[d].ops = [o] ∧ o.num = s.crews[d].opNum + 1 ∧ o.word = c ∧ o.iss = iss ∧ o.terms.chunk = tm.chunk ∧ o.terms.weight = tm.weight ∧ o.readyFrom = [] ∧ (coOp c ≠ 3 ∨ coCount c ≠ 0 → o.complete = false) ∧
        o.retired = false ∧ o.failed = false ∧ t.crews[d].opNum = s.crews[d].opNum + 1 ∧ t.crews[d].waiting = [] ∧ t.crews[d].state = s.crews[d].state ∧
        (t.crews[cr].attempt.map fun x => x.inFlight) = some (a.inFlight + 1))

/-- SEND without a CREDIT held, and RECV: the message is in flight as the next for its peer and stage; RECV sends its CREDIT. A SEND that finds a CREDIT long
enough takes it. CREDIT without a SEND is held. A receiver's DONE retires the SEND OK; a sender's DONE tells a RECV the length of its message (R288, R289, R296; how the two
DONEs are told apart: log 23). CREDIT and DONE of another epoch are counted and change nothing else (R268). -/
def Obligations.PointToPoint : Prop :=
  ∀ (s : State) (w : Who) (cr : Fin 16) (p : Fin 8) (a : Attempt) (k : CoreRun) (c : Cmd),
    (CoreMay s w cr p a k → p2pReject (bookIssue s cr w k) p c = none → s.crews[cr].fin ≠ .decided → s.crews[pbCrew c].hs = true →
      let d := pbCrew c
      let tm : Terms := ⟨crewChunk s d, crewWeight s d, s.crews[d].age, none⟩
      let x (snd : Bool) : P2p := ⟨snd, c, coreIssuer cr a k, tm, p2pSoFar s.crews[d] snd (pbPeer c) (pbStage c) + 1, none, 0, [], [], none, s.now⟩
      (fld c 7 0 = 0x52 → (∀ y ∈ s.crews[d].credits, ¬(y.1 = pbPeer c ∧ y.2.1 = pbStage c)) → roomFor s d c = true →
        ∃ t, exec (.send w c) s = .next t ∧ SameBut [.crews] s t ∧ t.crews[d].p2p = s.crews[d].p2p ++ [x true] ∧
          p2pSoFar t.crews[d] true (pbPeer c) (pbStage c) = p2pSoFar s.crews[d] true (pbPeer c) (pbStage c) + 1 ∧ t.crews[d].credits = s.crews[d].credits) ∧
      (∀ cap, fld c 7 0 = 0x52 → s.crews[d].p2p = [] → s.crews[d].credits = [(pbPeer c, pbStage c, cap)] → pbLen c ≤ cap → (routePort s (rankMid s d (pbPeer c)) false).isSome = true →
        (∀ n : Fin 8, s.pallets[n].ue = []) → s.hbm.ue = [] →
        ∃ t, exec (.send w c) s = .next t ∧ SameBut [.pallets, .hbm, .rigger, .crews, .dict, .pointing, .counters, .out] s t ∧
          t.crews[d].p2p = [{ x true with credit := some cap }] ∧ t.crews[d].credits = []) ∧
      (fld c 7 0 = 0x53 → roomFor s d c = true → (routePort s (rankMid s d (pbPeer c)) false).isSome = true →
        ∃ t, exec (.recv w c) s = .next t ∧ SameBut [.rigger, .crews, .dict, .counters, .out] s t ∧ t.crews[d].p2p = s.crews[d].p2p ++ [x false] ∧
          t.crews[d].state = s.crews[d].state)) ∧
    ∀ (d : Fin 16) (r n : Nat) (st : BitVec 16) (e m : BitVec 32), s.power.on = true → s.crews[d].state ≠ .undefined →
      (e ≠ s.crews[d].epoch → exec (.credit d ⟨r, e⟩ st n) s = .next (ctrAdd (noteHeard s d r) 0 (crewIdx d) 0x27 1) ∧
        (Calm s → ∀ b, exec (.done d ⟨r, e⟩ m ⟨n, b⟩) s = .next (ctrAdd (noteHeard s d r) 0 (crewIdx d) 0x27 1))) ∧
      (e = s.crews[d].epoch →
        ((∀ y ∈ s.crews[d].p2p, ¬(y.send = true ∧ pbPeer y.word = r ∧ pbStage y.word = st.toNat ∧ y.credit = none)) →
          exec (.credit d ⟨r, e⟩ st n) s = .next (updCrew (noteHeard s d r) d fun x => { x with credits := x.credits ++ [(r, st.toNat, n)] })) ∧
        (∀ x : P2p, Calm s → findP2p s d true r m.toNat = some x → x.credit ≠ none → (∃ ki i q, x.iss = .core cr a.number ki i q) →
          s.crews[cr].attempt = some a → crewOwner s cr = some p →
          ∃ t, exec (.done d ⟨r, e⟩ m ⟨n, false⟩) s = .next t ∧ SameBut [.courses, .host, .crews, .dict] s t ∧ t.crews[d].p2p = s.crews[d].p2p.erase x ∧
            (coEvent x.word ≠ 0 → coEvent x.word ≤ 4095 → eventCount t (funcOf p) (coEvent x.word) = eventCount s (funcOf p) (coEvent x.word) + 1) ∧
            (t.crews[cr].attempt.map fun y => y.inFlight) = some (a.inFlight - 1) ∧ ctrGet t 0 (crewIdx d) 0x20 = (ctrGet s 0 (crewIdx d) 0x20 + 1) % 2 ^ 64) ∧
        ∀ x : P2p, Calm s → s.crews[d].p2p = [x] → findP2p s d false r m.toNat = some x → n ≤ pbLen x.word → x.landed < n → recvBad { x with total := some n } = none →
          exec (.done d ⟨r, e⟩ m ⟨n, true⟩) s = .next (updCrew (noteHeard s d r) d fun y => { y with p2p := [{ x with total := some n }] }))

/-- READY, COUNTS and a rising BARRIER packet of an operation not issued yet are held for it; those of one that has done its own part reach it; a BARRIER released at
its lowest level is complete; those of another epoch are counted and change nothing else (R268). CREWOP_RETIRE: a complete operation with nothing unacknowledged retires (R276, R284, R292, R293). Writes of collective regions and
send-on handles that no command names stand; others wait (R271, R286). -/
def Obligations.CollectivesProgress : Prop :=
  ∀ (s : State) (c : Fin 16) (src : Nat),
    let ep := s.crews[c].epoch
    (∀ op rows inc lvl e b i, s.power.on = true → s.crews[c].state ≠ .undefined → e ≠ ep →
      i = .ready c ⟨src, e⟩ op ∨ i = .counts c ⟨src, e⟩ op rows inc ∨ i = .barrierSync c ⟨src, e⟩ op lvl b →
      exec i s = .next (ctrAdd (noteHeard s c src) 0 (crewIdx c) 0x27 1)) ∧
    (∀ op rows inc lvl, s.power.on = true → s.crews[c].state ≠ .undefined → s.crews[c].opNum < op → findOp s c op = none →
      exec (.ready c ⟨src, ep⟩ op) s = .next (updCrew (noteHeard s c src) c fun k => { k with early := k.early ++ [(src, op, none)] }) ∧
      exec (.counts c ⟨src, ep⟩ op rows inc) s = .next (updCrew (noteHeard s c src) c fun k => { k with early := k.early ++ [(src, op, some (rows, inc))] }) ∧
      exec (.barrierSync c ⟨src, ep⟩ op lvl false) s = .next (updCrew (noteHeard s c src) c fun k => { k with earlyRisen := k.earlyRisen ++ [(src, op, lvl)] })) ∧
    (∀ o rows inc, Operates s c [o] → s.crews[c].state ≠ .undefined → o.retired = false →
      (o.complete = true →
        exec (.ready c ⟨src, ep⟩ o.num) s = .next (updOp (noteHeard s c src) c o.num fun o => { o with readyFrom := src :: o.readyFrom.filter (· ≠ src) }) ∧
        exec (.counts c ⟨src, ep⟩ o.num rows inc) s = .next (updOp (noteHeard s c src) c o.num fun o => { o with counts := o.counts ++ [(src, rows, inc)] })) ∧
      (∀ lvl, coOp o.word = 7 → (levelsDown (crewG s c)).find? (· < lvl) = none →
        exec (.barrierSync c ⟨src, ep⟩ o.num lvl true) s = .next (updOp (noteHeard s c src) c o.num fun o => { o with complete := true })) ∧
      ∀ (cr : Fin 16) (p : Fin 8) (a : Attempt), o.complete = true → messageUnacked s (crewTag s c) (epochMsg s c + o.num) = false →
        (∃ ki i q, o.iss = .core cr a.number ki i q) → s.crews[cr].attempt = some a → crewOwner s cr = some p →
        ∃ t, exec (.crewopRetire c o.num) s = .next t ∧ SameBut [.courses, .host, .crews, .dict] s t ∧
          t.crews[c].ops = (if isReduction (coOp o.word) then [{ o with retired := true }] else []) ∧
          (t.crews[cr].attempt.map fun y => y.inFlight) = some (a.inFlight - 1) ∧ ctrGet t 0 (crewIdx c) 0x20 = (ctrGet s 0 (crewIdx c) 0x20 + 1) % 2 ^ 64) ∧
    ∀ (r : Req) (p : Fin 8) (i : Fin 4096) (j : Fin 4095) (d : BitVec 128), actorPart (actorOf s r) = some p →
      (MayWrite s r (0x7280 + p) 1 (wordBytes d) 2 → ∃ t, exec (.collectiveRegionWrite r i d) s = .next t ∧ SameBut [.host, .dict] s t ∧ t.dict = { s.dict with gens := t.dict.gens } ∧
        (caNamed s p i = false → t.host = (updFunc s (funcOf p) fun k => { k with collRegions := assocSet k.collRegions i.val d 0 }).host) ∧
        (caNamed s p i = true → t.host = (updFunc s (funcOf p) fun k => { k with collWrites := k.collWrites ++ [(i.val, d)] }).host)) ∧
      (MayWrite s r (0x7290 + p) 1 (wordBytes d) 2 → ∃ t, exec (.sendonHandleWrite r j d) s = .next t ∧ SameBut [.host, .dict] s t ∧ t.dict = { s.dict with gens := t.dict.gens } ∧
        (handleNamed s p (j + 1) = false → t.host = (updFunc s (funcOf p) fun k => { k with handles := assocSet k.handles (j.val + 1) d 0 }).host) ∧
        (handleNamed s p (j + 1) = true → t.host = (updFunc s (funcOf p) fun k => { k with handleWrites := k.handleWrites ++ [(j.val + 1, d)] }).host))

/-! ## Crews -/

/-- The Crew control: TEST outside a Stroke puts a FORMING or RUNNING Crew into TEST; RUN takes a Crew in TEST, whose peers can be reached, to FORMING with the next epoch; DISSOLVE of a Crew
without a Stroke leaves it UNDEFINED without a membership (R266, R267, R268, R270). -/
def Obligations.CrewControl : Prop :=
  ∀ (s : State) (r : Req) (c : Fin 16), Calm s → strokeRuns s c = false →
    (MayWrite s r (crewIdx c) 0x0D [2] 3 → s.crews[c].state = .forming ∨ s.crews[c].state = .running →
      ∃ t, exec (.crewTest r c) s = .next t ∧ SameBut [.crews, .evolu] s t ∧ t.crews = s.crews.set c { s.crews[c] with state := .test, req := none }) ∧
    (MayWrite s r (crewIdx c) 0x0D [1] 3 → s.crews[c].state = .test → (∀ x ∈ crewPeers s c, (routePort s (rankMid s c x) false).isSome = true) →
      ∃ t, exec (.crewRun r c) s = .next t ∧ SameBut [.rigger, .crews, .evolu, .dict, .counters, .out] s t ∧ (∀ d, d ≠ c → t.crews[d] = s.crews[d]) ∧
        t.crews[c].state = .forming ∧ t.crews[c].req = none ∧ t.crews[c].since = s.now ∧ t.crews[c].hellos = [] ∧ t.crews[c].opNum = 0 ∧
        t.crews[c].epoch = (if s.crews[c].epoch.toNat < s.crews[c].seen.toNat then s.crews[c].seen else s.crews[c].epoch) + 1 ∧
        t.crews[c].attempt = s.crews[c].attempt) ∧
    (MayWrite s r (crewIdx c) 0x0D [3] 3 → s.crews[c].state ≠ .undefined → s.crews[c].attempt = none → s.crews[c].p2p = [] → s.pointing.leaving = [] →
      s.crews[c].req = none → s.crews[c].rejoin ≠ 3 →
      ∃ t, exec (.crewDissolve r c) s = .next t ∧ (∀ d, d ≠ c → t.crews[d] = s.crews[d]) ∧ t.crews[c].state = .undefined ∧ t.crews[c].rank = none ∧
        t.crews[c].hash = 0 ∧ t.crews[c].hs = false ∧ t.crews[c].fin = .idle ∧ (∀ x z, 2 ≤ x → x ≤ 6 → objBytes t 0 (crewIdx c) x z = z) ∧
        (t.courses = s.courses ∧ t.pallets = s.pallets ∧ t.hbm = s.hbm ∧ t.host = s.host))

/-- HELLO of the own hash and epoch from a peer that can be reached is held, and HS is 1 once every peer's is; one of an earlier epoch is counted. HELLO_RESEND: a HELLO to each peer not
heard of; HEARTBEAT: a packet to the peer after 1 ms of silence. MEMBER_LOST and RECOVER: the Crew is RECOVERING in the next epoch, and a member whose attempt runs holds it
UNRESOLVED (R268, R269, R270, R296). -/
def Obligations.CrewHandshakeAndLoss : Prop :=
  ∀ (s : State) (c : Fin 16) (r : Nat), s.power.on = true → Calm s → s.crews[c].state ≠ .undefined → r ∈ crewPeers s c →
    (∀ hash epoch, hash = s.crews[c].hash →
      (epoch = s.crews[c].epoch → s.crews[c].state ≠ .recovering → r ∉ s.crews[c].hellos → s.crews[c].req = none → s.crews[c].hs = false →
        (routePort s (rankMid s c r) false).isSome = true →
        ∃ t, exec (.hello c r hash epoch) s = .next t ∧ SameBut [.rigger, .crews, .dict, .counters, .out] s t ∧ (∀ d, d ≠ c → t.crews[d] = s.crews[d]) ∧
          t.crews[c].hellos = s.crews[c].hellos ++ [r] ∧ t.crews[c].state = s.crews[c].state ∧ t.crews[c].epoch = s.crews[c].epoch ∧
          (t.crews[c].hs = true ↔ s.crews[c].rejoin = 0 ∧ ∀ x ∈ crewPeers s c, x ∈ s.crews[c].hellos ∨ x = r) ∧
          assocGet t.crews[c].heard r 0 = s.now) ∧
      (epoch.toNat < s.crews[c].epoch.toNat → ∃ t, exec (.hello c r hash epoch) s = .next t ∧ SameBut [.crews, .dict] s t ∧
        ctrGet t 0 (crewIdx c) 0x27 = (ctrGet s 0 (crewIdx c) 0x27 + 1) % 2 ^ 64 ∧ t.crews[c].hellos = s.crews[c].hellos ∧ t.crews[c].hs = s.crews[c].hs)) ∧
    (∀ q, s.power.quiesced = false → s.crews[c].hs = false → (crewPeers s c).filter (fun x => !s.crews[c].hellos.contains x) = [r] →
      RankPort s c r q (rankPacket s c r 4 0 (helloBody s c)) →
      ∃ t, exec (.helloResend c) s = .next t ∧ SameBut [.rigger, .crews, .dict, .counters, .out] s t ∧
        t.out = portSends s q (rankPacket s c r 4 0 (helloBody s c)) :: s.out ∧ assocGet t.crews[c].sent r 0 = s.now ∧ t.crews[c].hellos = s.crews[c].hellos) ∧
    (∀ q, s.power.quiesced = false → RankPort s c r q (rankPacket s c r 4 0 (syncBody s c 2 (leBytes 4 (myRank s c)))) →
      ∃ t, exec (.heartbeat c r) s = .next t ∧ SameBut [.now, .rigger, .crews, .dict, .counters, .out] s t ∧ s.now.toNat ≤ t.now.toNat ∧
        (assocGet s.crews[c].sent r s.crews[c].since + 1000000).toNat ≤ t.now.toNat ∧ assocGet t.crews[c].sent r 0 = t.now ∧
        t.out = portSends s q (rankPacket s c r 4 0 (syncBody s c 2 (leBytes 4 (myRank s c)))) :: s.out) ∧
    (crewLive s.crews[c].state = true → s.crews[c].p2p = [] → crewP s c ≠ 1 →
      let lost (t : State) (cause : Nat) : Prop := (∀ d, d ≠ c → t.crews[d] = s.crews[d]) ∧ t.crews[c].state = .recovering ∧ t.crews[c].problem.1 = cause ∧
        t.crews[c].epoch = (if s.crews[c].epoch.toNat < s.crews[c].seen.toNat then s.crews[c].seen else s.crews[c].epoch) + 1 ∧ t.crews[c].hs = false ∧
        t.crews[c].fin = (if s.crews[c].fin = .running ∨ s.crews[c].fin = .voting then .unresolved else s.crews[c].fin) ∧
        t.crews[c].attempt = s.crews[c].attempt.map fun a : Attempt => { a with voted := true }
      (∃ t, exec (.memberLost c r) s = .next t ∧ SameBut [.now, .rigger, .crews, .evolu, .dict, .counters, .out] s t ∧ lost t 1 ∧ s.now.toNat ≤ t.now.toNat ∧
        (BitVec.ofNat 64 ((assocGet s.crews[c].heard r s.crews[c].since).toNat + 1000 * silenceLimit s c)).toNat ≤ t.now.toNat ∧
        t.crews[c].problem.2.1 = some (rankMid s c r)) ∧
      ∀ cause gone, ∃ t, exec (.recover c r s.crews[c].epoch cause gone) s = .next t ∧ SameBut [.rigger, .crews, .evolu, .dict, .counters, .out] s t ∧ lost t 7)

namespace Sys2Proof

/-- What a good control word leaves of a port (R244, R248, R249): the peer's TDIST; on an UP port what ACKSEQ acknowledges leaves the buffer, and the returned slots
come back. A kept number incomparable with ACKSEQ stays (R11). -/
def tookWord (k : Port) (w : Ctl) : Port :=
  if k.state = .up then
    { k with
      tdist := ctTdist w
      kept := k.kept.filter fun x => !(x.lseq == ctAck w || serialAfter (ctAck w) x.lseq)
      used0 := k.used0 - (BitVec.ofNat 16 (fld w 227 212) - k.cred0).toNat
      used1 := k.used1 - (BitVec.ofNat 16 (fld w 211 196) - k.cred1).toNat
      cred0 := BitVec.ofNat 16 (fld w 227 212)
      cred1 := BitVec.ofNat 16 (fld w 211 196)
      timeouts := if (k.kept.filter fun x => !(x.lseq == ctAck w || serialAfter (ctAck w) x.lseq)).length < k.kept.length then 0 else k.timeouts }
  else { k with tdist := ctTdist w }

/-- A control word of a port with its number, credits and the module's TDIST (R244, R247). -/
def wordOf (s : State) (p : Fin 16) (ctype aux param val0 val1 : Nat) : Ctl :=
  mkCtl ctype (s.rigger.ports[p].rxSeq - 1) s.rigger.ports[p].freed0 s.rigger.ports[p].freed1 aux s.rigger.sync.tdist param val0 val1

/-- Only port `p` is different, and it is `k`; of the Rigger's other state the servo may be. -/
def PortOnly (s t : State) (p : Fin 16) (k : Port) : Prop :=
  t.rigger = { s.rigger with ports := s.rigger.ports.set p k, sync := t.rigger.sync }

/-- Only bank `b` and port `p` are different, and they are `k` and `q`; of the Rigger's other state the servo may be. -/
def BankOnly (s t : State) (b : Fin 8) (k : Bank) (p : Fin 16) (q : Port) : Prop :=
  t.rigger = { s.rigger with banks := s.rigger.banks.set b k, ports := s.rigger.ports.set p q, sync := t.rigger.sync }

/-- A port that has just sent a control word owes none (R247). -/
def Machine.Port.told (k : Port) : Port := { k with ackOwed := false, slotsIn := 0 }

/-- A SPARE word of a phase arrives on a bank's lower-numbered UP port `p`, which keeps nothing back (R245, R252). -/
structure SpareWord (s : State) (b : Fin 8) (p : Fin 16) (w : Ctl) (phase : Nat) : Prop where
  on : s.power.on = true
  port : sparePort s b = some p
  ok : ctlOk w = true
  type : ctType w = 4 ∧ ctParam w = phase
  waiting : s.rigger.ports[p].waiting = []

/-- What leaves when the kept packets of a list are sent again. -/
def resent (p : Fin 16) (l : List Kept) : List Out := (l.map fun x => Out.packet p x.bytes).reverse

end Sys2Proof

/-! ## Links -/

/-- ALIGN trains a DOWN port whose bank has light, with the peer's MID and the lane's count, and shows how the lane is cabled; PORT_RETRAIN brings a port UP with both
directions at LSEQ 0 and its lanes' counts at 0, and an ALIGN leaves on each lane; LOCK_LOSS takes it DOWN, counted, its peer forgotten; a laser input at half its start-up
power gives its group to the lowest spare input; a codeword's corrected symbols, or its failure, are counted on its lane and its port, and the next codeword in turn gives
its slots in order: a control word acts as its row does, a data slot begins a packet, an empty one does nothing, and an uncorrectable codeword drops the packet that was
arriving (R236 to R241, R250, R253; slots that nothing fills and what an uncorrectable codeword drops: log 43). -/
def Obligations.PortsAndLanes : Prop :=
  ∀ (s : State) (p : Fin 16) (b : Fin 8), s.power.on = true →
    let k := s.rigger.ports[p]
    (∀ (pl : Fin 9) (far : Fibre) (w : Ctl), ctlOk w = true → ctType w = 3 → k.state = .down → bankLit s (fin8 (p / 2)) = true → (k.peer = none ∨ k.peer = some (ctVal1 w)) →
      ∃ t, exec (.align p ⟨⟨pl, far⟩, w⟩) s = .next t ∧ SameBut [.rigger, .evolu] s t ∧
        BankOnly s t (fin8 (p / 2)) (noteCable s.rigger.banks[fin8 (p / 2)] pl (ctVal1 w) far) p { k with
          state := .training, peer := some (ctVal1 w), tdist := ctTdist w
          counts := k.counts.set (ctParam w) (BitVec.ofNat 64 (ctVal0 w + (k.lanesIn.getD (ctParam w) []).length)) }) ∧
    (k.state ≠ .up → k.lanes ≠ 0 → bankLit s (fin8 (p / 2)) = true → s.rigger.banks[fin8 (p / 2)].waiting = [] →
      let ls := (List.finRange 4).filter fun l => !k.dark.contains l.val
      ∃ t, exec (.portRetrain p) s = .next t ∧ SameBut [.rigger, .evolu, .out] s t ∧
        t.rigger = { s.rigger with ports := s.rigger.ports.set p { clearPort k with
          state := .up, upAt := s.now, counts := [0, 0, 0, 0], aligned := ls.foldl (fun a l => a.set l 0) k.aligned } } ∧
        t.out = (ls.map fun l => Out.control p (some l) (wordOf t p 3 l 0 0 (ownMid s))).reverse ++ s.out) ∧
    (k.state = .up → k.kept = [] → s.rigger.banks[fin8 (p / 2)].swap = none → s.rigger.banks[fin8 (p / 2)].waiting = [] → Calm s →
      ∃ t, exec (.lockLoss p) s = .next t ∧ SameBut [.rigger, .evolu, .dict] s t ∧ PortOnly s t p { clearPort k with state := .down, peer := none } ∧
        ctrGet t 0 (0x7100 + p) 0x16 = (ctrGet s 0 (0x7100 + p) 0x16 + 1) % 2 ^ 64) ∧
    (∀ (i : Fin 12) (uw : Nat) (l : Laser), s.rigger.lasers[i.val]? = some l → l.group ≠ 0xFF →
      (l.ref < 2 * uw → ∃ t, exec (.laserSwitch i uw) s = .next t ∧ SameBut [.rigger, .dict] s t ∧
        t.rigger = { s.rigger with lasers := s.rigger.lasers.set i { l with power := uw } }) ∧
      ∀ j x, 2 * uw ≤ l.ref → s.rigger.lasers[j]? = some x → x.group = 0xFF → x.failed = false → (j = 10 ∨ j = 11 ∧ ∀ y, s.rigger.lasers[10]? = some y → y.group ≠ 0xFF ∨ y.failed = true) →
        (∀ c : Fin 8, s.rigger.banks[c].swap = none ∧ s.rigger.banks[c].waiting = []) →
        ∃ t, exec (.laserSwitch i uw) s = .next t ∧ SameBut [.free, .rigger, .crews, .evolu, .dict, .pointing] s t ∧
          t.rigger = { s.rigger with lasers := (s.rigger.lasers.set i { l with group := 0xFF, power := uw, failed := true }).modify j fun y => { y with group := l.group } } ∧
          ctrGet t 0 0x8000 0x33 = (ctrGet s 0 0x8000 0x33 + 1) % 2 ^ 64) ∧
    ∀ (pl : Fin 9) (far : Fibre) (errs l : Nat) (cw : Codeword),
      let q := s.rigger.banks[b]
      let g := s.rigger.ports[fin16 (2 * b + l / 4)]
      q.second = s.now.toNat / 1000000000 → q.map.idxOf? pl.val = some l → q.swap = none → l / 4 < 2 → fin16 (2 * b + l / 4) = p →
      g.dark.contains (l % 4) = false → g.skip = [0, 0, 0, 0] → g.lanesIn = [[], [], [], []] → laneOf g g.turn = l % 4 →
      let port := 0x7100 + (2 * b.val + l / 4)
      let g' : Port := { g with counts := g.counts.modify (l % 4) (· + 1), turn := g.turn + 1 }
      let filler (i : Nat) : Prop := cwControl cw i = false ∧ cwSlot cw i = 0
      (errs ≤ 15 →
        let counted (t : State) (h : Port) : Prop :=
          (q.syms.getD pl 0 ≤ 100000 ∧ 100000 < q.syms.getD pl 0 + errs ∨ t.pointing = s.pointing) ∧
            BankOnly s t b { q with syms := q.syms.modify pl (· + errs) } p h ∧
            ctrGet t 0 port 0x14 = (ctrGet s 0 port 0x14 + errs) % 2 ^ 64 ∧ ctrGet t 0 port 0x15 = ctrGet s 0 port 0x15
        ((∀ i, i < 20 → filler i) → g.asm = [] → ∃ t, exec (.codewordReceive b ⟨pl, far⟩ ⟨errs, cw⟩) s = .next t ∧ SameBut [.rigger, .dict, .pointing] s t ∧ counted t g') ∧
        (cwControl cw 0 = true → ctlOk (cwSlot cw 0) = true → ctType (cwSlot cw 0) = 1 → (∀ i, 0 < i → i < 20 → filler i) → g.asm = [] → g.waiting = [] →
          ∃ t, exec (.codewordReceive b ⟨pl, far⟩ ⟨errs, cw⟩) s = .next t ∧ SameBut [.rigger, .dict, .pointing] s t ∧ counted t (tookWord g' (cwSlot cw 0))) ∧
        ((∀ i, i < 19 → filler i) → cwControl cw 19 = false → cwSlot cw 19 ≠ 0 → g.asm = [] → g.state = .up → 1 < slotsFor (pkBody (leBytes 32 (cwSlot cw 19).toNat)) →
          ∃ t, exec (.codewordReceive b ⟨pl, far⟩ ⟨errs, cw⟩) s = .next t ∧ SameBut [.rigger, .dict, .pointing] s t ∧
            counted t { g' with asm := leBytes 32 (cwSlot cw 19).toNat })) ∧
      (15 < errs → q.unc.getD pl 0 ≠ 0 ∨ q.badSecs.getD pl 0 < 2 →
        ∃ t, exec (.codewordReceive b ⟨pl, far⟩ ⟨errs, cw⟩) s = .next t ∧ SameBut [.rigger, .dict] s t ∧
          BankOnly s t b { q with unc := q.unc.modify pl (· + 1) } p { g' with asm := [] } ∧
          ctrGet t 0 port 0x15 = (ctrGet s 0 port 0x15 + 1) % 2 ^ 64 ∧ ctrGet t 0 port 0x14 = ctrGet s 0 port 0x14)

/-- A control word with a wrong CRC is discarded and counted. ACK acknowledges and returns credit; NAK, and REPLAY_TIMEOUT before the eighth, send the kept packets again in
order; ACK_TIMER sends the word owed. PACKET_RECEIVE of the expected number accepts a VOTE or SYNC packet, one of another epoch being counted as stale, and acknowledges at once
when 2,048 slots have been accepted since the last control word; a duplicate is acknowledged, one with a wrong CRC counted and refused with NAK (R241, R242, R244 to R249,
R258, R268). -/
def Obligations.WordsAndPackets : Prop :=
  ∀ (s : State) (p : Fin 16) (w : Ctl), s.power.on = true →
    let k := s.rigger.ports[p]
    (ctlOk w = false → ∀ i, (i = .ack p w ∨ i = .nak p w ∨ (∃ pl far, i = .align p ⟨⟨pl, far⟩, w⟩) ∨ ∃ l, i = .idle p l w) →
      exec i s = .next (ctrAdd s 0 (0x7100 + p) 0x13 1)) ∧
    (ctlOk w = true → k.waiting = [] → ∃ t, exec (.ack p w) s = .next t ∧ SameBut [.rigger] s t ∧ PortOnly s t p (tookWord k w)) ∧
    (ctlOk w = true → k.waiting = [] → ctType w = 2 → k.state = .up →
      let a := BitVec.ofNat 24 (ctAux w)
      let l := (tookWord k w).kept.filter fun x => x.lseq = a || serialAfter x.lseq a
      (∃ x ∈ (tookWord k w).kept, x.lseq = a) →
      ∃ t, exec (.nak p w) s = .next t ∧ SameBut [.rigger, .dict, .out] s t ∧ PortOnly s t p (tookWord k w) ∧ t.out = resent p l ++ s.out ∧
        ctrGet t 0 (0x7100 + p) 0x12 = (ctrGet s 0 (0x7100 + p) 0x12 + l.length) % 2 ^ 64) ∧
    (∀ x l, k.state = .up → k.kept = x :: l → k.timeouts + 1 < 8 → (∀ y ∈ l, serialAfter y.lseq x.lseq = true) →
      ∃ t, exec (.replayTimeout p) s = .next t ∧ SameBut [.rigger, .dict, .out] s t ∧ PortOnly s t p { k with timeouts := k.timeouts + 1 } ∧
        t.rigger.sync = s.rigger.sync ∧ t.out = resent p (x :: l) ++ s.out ∧
        ctrGet t 0 (0x7100 + p) 0x12 = (ctrGet s 0 (0x7100 + p) 0x12 + (l.length + 1)) % 2 ^ 64) ∧
    (k.state = .up → k.ackOwed = true → exec (.ackTimer p) s = .next (emit (updPort s p Port.told) (.control p none (wordOf s p 1 0 0 0 0)))) ∧
    ∀ bs : List Byte, k.state = .up → ownMid s ≠ 0xFFFFFFFF →
      (∀ (c : Fin 16) (r : Nat), pkCrcOk bs = true → pkLseq bs = k.rxSeq → pkMalformed bs = false → pkDst bs = ownMid s → tagCrew s (pkCtag bs) = some c →
        midRank s c (pkSrc bs) = some r → 3 ≤ pkType bs →
        let n := slotsFor (pkBody bs)
        let m := BitVec.ofNat 16 n
        let soon := decide (2048 ≤ k.slotsIn + n)
        let e := s.crews[c].epoch
        ∃ t, exec (.packetReceive p bs) s = .next t ∧ SameBut [.rigger, .crews, .dict, .power, .counters, .out] s t ∧
          t.rigger = { s.rigger with ports := s.rigger.ports.set p { k with
            rxSeq := k.rxSeq + 1, ackOwed := !soon, slotsIn := if soon then 0 else k.slotsIn + n
            freed0 := if pkHop bs then k.freed0 else k.freed0 + m, freed1 := if pkHop bs then k.freed1 + m else k.freed1 } } ∧
          t.out = (if soon then .control p none (wordOf t p 1 0 0 0 0) :: s.out else s.out) ∧
          t.crews = (noteHeard s c r).crews ∧ t.power = { s.power with idle := false } ∧
          ctrGet t 0 (0x7100 + p) 0x11 = (ctrGet s 0 (0x7100 + p) 0x11 + 1) % 2 ^ 64 ∧
          (pkOfEpoch e bs = true → ctrGet t 0 (crewIdx c) 0x22 = (ctrGet s 0 (crewIdx c) 0x22 + pkLen bs) % 2 ^ 64 ∧
            ctrGet t 0 (crewIdx c) 0x27 = ctrGet s 0 (crewIdx c) 0x27) ∧
          (pkOfEpoch e bs = false → ctrGet t 0 (crewIdx c) 0x27 = (ctrGet s 0 (crewIdx c) 0x27 + 1) % 2 ^ 64 ∧
            ctrGet t 0 (crewIdx c) 0x22 = ctrGet s 0 (crewIdx c) 0x22)) ∧
      (pkCrcOk bs = true → serialAfter k.rxSeq (pkLseq bs) = true →
        ∃ t, exec (.packetReceive p bs) s = .next t ∧ SameBut [.rigger, .power, .out] s t ∧
          t.rigger = { s.rigger with ports := s.rigger.ports.set p k.told } ∧ t.out = .control p none (wordOf s p 1 0 0 0 0) :: s.out) ∧
      (pkCrcOk bs = false → k.lastNak = none →
        ∃ t, exec (.packetReceive p bs) s = .next t ∧ SameBut [.rigger, .power, .dict, .out] s t ∧
          t.rigger = { s.rigger with ports := s.rigger.ports.set p { k.told with lastNak := some (k.rxSeq, s.now) } } ∧
          t.out = .control p none (wordOf s p 2 k.rxSeq.toNat 0 0 0) :: s.out ∧
          ctrGet t 0 (0x7100 + p) 0x13 = (ctrGet s 0 (0x7100 + p) 0x13 + 1) % 2 ^ 64)

/-- IDLE on logical lane 0 of the upstream port of a locked module: the offset is slewed away (half a nanosecond of the delay rounds either way, log 30); on another lane only
the echo is noted, with the time it came. IDLE_TIMER: the word carries the timebase, the T_SEND of the last IDLE and the time since it came, on the lane named, an ALIGN that is
due before it (R240; when it is due: log 43). HOLDOVER: the servo says so. LANE_RECALIBRATION proposes a swap; SPARE_PROPOSE is answered READY, SPARE_READY with READY and SWITCH
from a codeword at least 4,096 ahead, SPARE_SWITCH begins the double sending; the 1,024th identical codeword in a row sends DONE; with both DONEs SPARE_DONE moves the lane to the
spare; SPARE_ABORT and SPARE_TIMEOUT keep the old map (R252, R253, R258, R260, R261, R420). -/
def Obligations.TimeAndSpares : Prop :=
  ∀ (s : State) (b : Fin 8) (p : Fin 16) (w : Ctl), s.power.on = true →
    let k := s.rigger.ports[p]
    let q := s.rigger.banks[b]
    (ctlOk w = true → ctType w = 0 → k.waiting = [] →
      let noted := { tookWord k w with lastIdle := some (BitVec.ofNat 64 (ctVal0 w), s.now) }
      (∀ l : Fin 4, l ≠ 0 → ∃ t, exec (.idle p l w) s = .next t ∧ SameBut [.rigger] s t ∧ PortOnly s t p noted) ∧
      (ctVal1 w ≠ 0 →
        let y := (takeWord s p w).rigger.sync
        y.upstream = some p → y.lockedOnce = true → y.state ≠ 4 →
        let x : Int := (s.now.toNat : Int) - (ctVal1 w : Int) - (ctAux w : Int)
        let off (h : Int) : Int := (ctVal0 w : Int) + (x + h) / 2 - s.now.toNat
        off 1 ≤ 1000000 →
        ∃ t, exec (.idle p 0 w) s = .next t ∧ SameBut [.free, .rigger] s t ∧ PortOnly s t p noted ∧
          (t.rigger.sync = { y with theta := off 0, slew := off 0, state := 2 } ∨ t.rigger.sync = { y with theta := off 1, slew := off 1, state := 2 }))) ∧
    (s.rigger.sync.upstream = none → s.rigger.sync.tdist ≠ 0 →
      exec .holdover s = .next { s with rigger := { s.rigger with sync := { s.rigger.sync with state := 3 } } }) ∧
    (∀ (l : Fin 4) (u : U64) (at_ : U64), k.state ≠ .down → k.dark.contains l.val = false → k.lastIdle = some (u, at_) →
      let idle := Out.control p (some l) (wordOf s p 0 (s.now - at_).toNat 0 s.now.toNat u.toNat)
      (alignDue s p l = false → exec (.idleTimer p l) s = .next (emit (updPort s p Port.told) idle)) ∧
      (alignDue s p l = true → exec (.idleTimer p l) s = .next (emit (emit (updPort s p fun q => { q.told with aligned := q.aligned.set l (laneCount s p) })
        (.control p (some l) (wordOf s p 3 l 0 (laneCount s p) (ownMid s)))) idle))) ∧
    (∀ (lane : Fin 8) (sp : Nat), q.spare = some sp → q.miscabled = false → q.swap = none → sparePort s b = some p →
      ∃ t, exec (.laneRecalibration b lane) s = .next t ∧ SameBut [.rigger, .out] s t ∧
        BankOnly s t b { q with swap := some (Swap.start lane sp true s.now false) } p k.told ∧ t.out = .control p (some 0) (wordOf t p 4 lane 1 0 sp) :: s.out) ∧
    (∀ sp, SpareWord s b p w 1 → q.swap = none → q.miscabled = false → ctAux w < 8 → q.spare = some sp → ctVal1 w = sp →
      ∃ t, exec (.sparePropose b w) s = .next t ∧ SameBut [.rigger, .out] s t ∧
        BankOnly s t b { q with swap := some (Swap.start (ctAux w) sp false s.now false) } p (tookWord k w).told ∧
        t.out = .control p (some 0) (wordOf t p 4 (ctAux w) 2 0 sp) :: s.out) ∧
    ∀ x : Swap, q.swap = some x →
      (SpareWord s b p w 2 → x.lane = ctAux w → x.initiator = true → x.phase = 1 →
        ∃ t m, exec (.spareReady b w) s = .next t ∧ SameBut [.free, .rigger, .out] s t ∧ laneCount s (fin16 (2 * b + x.lane / 4)) + 4096 ≤ m ∧
          BankOnly s t b { q with swap := some { x with phase := 3, myReady := true, peerReady := true, from_ := m } } p (tookWord k w).told ∧
          t.out = .control p (some 0) (wordOf t p 4 x.lane 3 m x.spare) :: .control p (some 0) (wordOf t p 4 x.lane 2 0 x.spare) :: s.out) ∧
      (SpareWord s b p w 3 → x.lane = ctAux w → x.initiator = false → x.phase = 2 →
        ∃ t, exec (.spareSwitch b w) s = .next t ∧ SameBut [.rigger] s t ∧
          BankOnly s t b { q with swap := some { x with phase := 3, from_ := ctVal0 w } } p (tookWord k w)) ∧
      (∀ (pl : Fin 9) (far : Fibre) (y : LaneCode) (cw : Codeword), sparePort s b = some p → q.second = s.now.toNat / 1000000000 → pl.val = x.spare → q.map.idxOf? pl.val = none →
        x.phase = 3 → x.myDone = false → x.peerDone = false → x.old = [y] → x.new = [] → y.word = some cw → x.same = 1023 →
        ∃ t, exec (.codewordReceive b ⟨pl, far⟩ ⟨0, cw⟩) s = .next t ∧ SameBut [.rigger, .out] s t ∧
          t.rigger.banks[b].swap = some { x with old := [], new := [], same := 1024, myDone := true } ∧ t.out = .control p (some 0) (wordOf t p 4 x.lane 4 0 x.spare) :: s.out) ∧
      (SpareWord s b p w 4 → x.lane = ctAux w → x.phase = 3 → q.waiting = [] →
        let old := q.map.getD x.lane 0
        (x.myDone = true → ∃ t, exec (.spareDone b w) s = .next t ∧ SameBut [.rigger, .crews, .evolu, .dict, .pointing] s t ∧
          BankOnly s t b { q with map := q.map.set x.lane x.spare, spare := if q.failed.contains old then none else some old, swap := none } p (tookWord k w)) ∧
        (x.myDone = false → ∃ t, exec (.spareDone b w) s = .next t ∧ SameBut [.rigger] s t ∧
          BankOnly s t b { q with swap := some { x with peerDone := true } } p (tookWord k w))) ∧
      (SpareWord s b p w 5 → x.lane = ctAux w → q.waiting = [] →
        ∃ t, exec (.spareAbort b w) s = .next t ∧ SameBut [.rigger] s t ∧ BankOnly s t b { q with swap := none } p (tookWord k w)) ∧
      (sparePort s b = some p → q.waiting = [] →
        ∃ t, exec (.spareTimeout b) s = .next t ∧ SameBut [.now, .rigger, .out] s t ∧ BankOnly s t b { q with swap := none } p k.told ∧ s.now.toNat ≤ t.now.toNat ∧
          (x.at_ + 10000000).toNat ≤ t.now.toNat ∧ t.out = .control p (some 0) (wordOf t p 4 x.lane 5 0 x.spare) :: s.out)

namespace Sys2Proof

/-- A Cox command as its partition's list holds it at issue: with the layer's descriptor copied, the command that names its gradient, and the
sum of squares its HOLD left (R299, R313). -/
def coxCmd (s : State) (p : Fin 8) (cr : Fin 16) (a : Attempt) (c src : Cmd) (iss : Issuer) : CoxCmd :=
  { word := c, src := src, iss := iss, crew := cr, layer := cxLayer c, desc := layerDesc s p (cxLayer c), feeder := none, started := false, fed := 0, flags := 0,
    bits := 0, blk := 0, side := 0, step := 0, iter := 0, anyHeld := false, unit := 0, mm := 0, busy := false, since := none, blocks := [], mats := [], run := false,
    res := { Res.okay with d0 := BitVec.ofNat 64 ((match a.held.find? fun h => h.1 = cxLayer c with | some h => h.2.2 | none => 0) : BitVec 32).toNat } }

/-- The command that names the gradient: the HOLD of an APPLY, else the command itself (R313). -/
def coxSrc (a : Attempt) (c : Cmd) : Cmd :=
  if fld c 7 0 = 0x63 then (match a.held.find? fun h => h.1 = cxLayer c with | some h => h.2.1 | none => c) else c

/-- A Cox command that no check rejects is issued by a core of the attempt while no earlier command of its layer is at work, and no EXPORT pins the layer (R307, R309, R353). -/
structure CoxMay (s : State) (w : Who) (cr : Fin 16) (p : Fin 8) (a : Attempt) (k : CoreRun) (c : Cmd) : Prop where
  core : CoreMay s w cr p a k
  accepted : coxReject (bookIssue s cr w k) cr p a c (coxSrc a c) (layerDesc s p (cxLayer c)) = none
  alone : ∀ x ∈ s.cox[p].cmds, x.layer = cxLayer c → x.run = true
  free : layerPinned s.crews[cr] (strokeNum s cr) (cxLayer c) = false

/-- The state in which a Cox command begins its work: booked, in its partition's list, its layer named (UPDATE, HOLD) or its HOLD taken up (APPLY). -/
def coxQueued (s : State) (w : Who) (cr : Fin 16) (p : Fin 8) (k : CoreRun) (x : CoxCmd) : State :=
  updCox (updAttempt (bookIssue s cr w k) cr fun a =>
    if fld x.word 7 0 = 0x63 then { a with held := a.held.filter fun h => h.1 ≠ x.layer }
    else if fld x.word 7 0 = 0x62 then { a with held := a.held ++ [(x.layer, x.word, 0)], named := a.named ++ [x.layer] }
    else { a with named := a.named ++ [x.layer] }) p fun y => { y with cmds := y.cmds ++ [x] }

/-- The command stands done at the end of its partition's list, OK, with a first detail; every other command of the list is as it was. -/
def CoxDone (s t : State) (p : Fin 8) (x : CoxCmd) (d0 : Nat) : Prop :=
  ∃ y, t.cox = s.cox.set p { s.cox[p] with cmds := s.cox[p].cmds ++ [y] } ∧ y.word = x.word ∧ y.iss = x.iss ∧ y.layer = x.layer ∧ y.desc = x.desc ∧ y.run = true ∧
    y.res.cls = .ok ∧ y.res.d0 = BitVec.ofNat 64 d0

end Sys2Proof

/-! ## Cox -/

/-- UPDATE, and APPLY without SKIP, of a dense layer under an elementwise rule whose gradient of at most 64 KiB is there: one pass of the rule over every element is written to
the layer's slots, its reads and writes charged to the partition (R297), the attempt notes the update with its digest, and the command is done. HOLD forms the sum of squares and writes nothing; APPLY with SKIP notes that the layer
was not updated (R304, R309 to R313, R329). -/
def Obligations.CoxCommandsRun : Prop :=
  ∀ (s : State) (w : Who) (cr : Fin 16) (p : Fin 8) (a : Attempt) (k : CoreRun) (c : Cmd), CoxMay s w cr p a k c →
    let iss := coreIssuer cr a k
    let x := coxCmd s p cr a c (coxSrc a c) iss
    let q := coxQueued s w cr p k x
    let d := x.desc
    let n := gradRows d x.src * ldCols d
    (∀ i, (fld c 7 0 = 0x61 ∧ i = .update w c ∧ findFeeder (bookIssue s cr w k) p iss (cxGrad c) (gradBytes d c) = none ∨ fld c 7 0 = 0x63 ∧ i = .apply w c ∧ cxSkip c = false) →
      let y := denseRange q p x 0 n
      ldRule d < 2 → ldEmbed d = false → gradBytes d x.src ≤ 65536 → coxUe q p x.src 0 (gradBytes d x.src) y.1 (y.2.1.map (·.1)) = none →
      let z := coxWrite (coxRead q p x.src 0 (gradBytes d x.src) y.1) p x y.2.1
      let sum := (coxSumsq z p x).1
      let dg := chunkSum 0 (digestBytes z p x)
      ∃ t a', exec i s = .next t ∧ SameBut [.pallets, .hbm, .crews, .cox, .dict, .pointing, .counters, .out] s t ∧ CoxDone s t p x sum.toNat ∧ t.hbm = z.hbm ∧
        (∀ n : Fin 8, t.pallets[n].mem = s.pallets[n].mem) ∧ (∀ e, e ≠ cr → t.crews[e] = s.crews[e]) ∧
        t.crews[cr].attempt = some a' ∧ a'.updates = a.updates ++ [⟨cxLayer c, cxLr c, cxScale c, d, dg, sum, 1⟩] ∧ a'.inFlight = a.inFlight + 1 ∧
        a'.pends.map (·.layer) = a.pends.map (·.layer) ++ [cxLayer c] ∧ (fld c 7 0 = 0x61 → a'.named = a.named ++ [cxLayer c])) ∧
    (fld c 7 0 = 0x62 → findFeeder (bookIssue s cr w k) p iss (cxGrad c) (gradBytes d c) = none → coxUe q p c 0 (gradBytes d c) [] [] = none →
      let sum := (coxSumsq q p x).1
      ∃ t a', exec (.hold w c) s = .next t ∧ SameBut [.pallets, .hbm, .crews, .cox, .dict, .pointing, .counters, .out] s t ∧ CoxDone s t p x sum.toNat ∧
        t.hbm.mem = s.hbm.mem ∧ t.hbm.dev = s.hbm.dev ∧ (∀ n : Fin 8, t.pallets[n].mem = s.pallets[n].mem) ∧ (∀ e, e ≠ cr → t.crews[e] = s.crews[e]) ∧
        t.crews[cr].attempt = some a' ∧ (cxLayer c, c, sum) ∈ a'.held ∧ a'.named = a.named ++ [cxLayer c] ∧ a'.updates = a.updates ∧ a'.inFlight = a.inFlight + 1) ∧
    (fld c 7 0 = 0x63 → cxSkip c = true →
      let sum := (coxSumsq q p x).1
      ∃ t a', exec (.apply w c) s = .next t ∧ SameBut [.cox, .crews] s t ∧ CoxDone s t p x (sum.toNat + 2 ^ 61) ∧ (∀ e, e ≠ cr → t.crews[e] = s.crews[e]) ∧
        t.crews[cr].attempt = some a' ∧ a'.held = (a.held.filter fun h => h.1 ≠ cxLayer c) ∧ a'.inFlight = a.inFlight + 1 ∧
        a'.updates = a.updates ++ [⟨cxLayer c, cxLr c, cxScale c, d, 0, sum, 2⟩])

/-- COX_FEED: a HOLD whose feeding CREWOP has completed forms its sum. COX_SHARE_WINDOW counts the share anew; COX_RETIRE retires a command whose work is done, with its record
and its event; CLEAR_DIRTY clears bit DIRTY of a layer; LAYER_STATE_LOAD sets the Stroke number and every layer's record; REJOIN_COPY stores the next layer of a copy, or ends the
copy on another descriptor (R303, R305, R309, R312, R314, R344, R351). -/
def Obligations.CoxLayersAndWindow : Prop :=
  ∀ (s : State) (p : Fin 8) (cr : Fin 16), s.power.on = true →
    (∀ (x : CoxCmd) (o : CollOp) (f : Fin 16) (n : Nat), Operates s f [o] → o.num = n → o.complete = true → o.retired = false → o.failed = false →
      s.cox[p].cmds = [x] → x.run = false → x.feeder = some (f, n) → cxOp x.word = 0x62 → layerPinned s.crews[x.crew] (strokeNum s x.crew) x.layer = false →
      coxUe s p x.src 0 (gradBytes x.desc x.src) [] [] = none →
      ∃ t y, exec (.coxFeed p x.layer) s = .next t ∧ SameBut [.pallets, .hbm, .crews, .cox, .dict, .pointing, .counters, .out] s t ∧ t.cox = s.cox.set p { s.cox[p] with cmds := [y] } ∧ y.word = x.word ∧ y.run = true ∧
        y.res.cls = .ok ∧ y.res.d0 = BitVec.ofNat 64 (coxSumsq s p x).1.toNat) ∧
    (Calm s → (∀ x ∈ s.cox[p].cmds, x.run = true) →
      ∃ t, exec (.coxShareWindow p) s = .next t ∧ SameBut [.now, .cox] s t ∧ t.cox = s.cox.set p { s.cox[p] with winStart := t.now, winUsed := 0 } ∧
        s.now.toNat ≤ t.now.toNat ∧ (s.cox[p].winStart + 10000).toNat ≤ t.now.toNat) ∧
    (∀ (x : CoxCmd) (a : Attempt) ki i q, Calm s → s.pointing.laneTests = [] → s.cox[p].cmds = [x] → x.run = true → x.feeder = none → x.res.cls ≠ .rejected → x.iss = .core cr a.number ki i q →
      s.crews[cr].attempt = some a → crewOwner s cr = some p →
      ∃ t, exec (.coxRetire p x.layer) s = .next t ∧ SameBut [.courses, .host, .crews, .cox, .dict] s t ∧ t.cox = s.cox.set p { s.cox[p] with cmds := [] } ∧
        t.crews[cr].attempt = some (noteResult (unitRecord s a ki i q (cxOp x.word) (cxTag x.word) x.res) (some x.layer) x.res) ∧
        (cxEvent x.word ≠ 0 → cxEvent x.word ≤ 4095 → eventCount t (funcOf p) (cxEvent x.word) = eventCount s (funcOf p) (cxEvent x.word) + 1) ∧
        ctrGet t 0 0x7300 (0xA1 + p) = (ctrGet s 0 0x7300 (0xA1 + p) + 1) % 2 ^ 64) ∧
    (∀ (r : Req) (l : BitVec 32), actorPart (actorOf s r) = some p → MayWrite s r 0x7300 (0x91 + p) (wordBytes l) 3 → l.toNat < layerCount s p →
      ∃ t, exec (.clearDirty r l) s = .next t ∧ SameBut [.cox, .evolu] s t ∧ layerRec t p l.toNat = layerRec s p l.toNat &&& ~~~ 8 ∧
        (∀ j, j ≠ l.toNat → layerRec t p j = layerRec s p j) ∧ ∀ e, e ≠ p → t.cox[e] = s.cox[e]) ∧
    (∀ (r : Req) (data : List Byte), MayWrite s r (crewIdx cr) 0x42 data 3 → crewOwner s cr = some p → (s.crews[cr].state = .forming ∨ s.crews[cr].state = .test) →
      strokeRuns s cr = false → s.crews[cr].rejoin ≠ 2 → data.length = 8 + 64 * layerCount s p →
      ∃ t, exec (.layerStateLoad r cr data) s = .next t ∧ SameBut [.crews, .cox, .evolu] s t ∧
        t.crews = s.crews.set cr { s.crews[cr] with lastFinished := BitVec.ofNat 48 (leAt data 0 8) } ∧ (∀ e, e ≠ p → t.cox[e] = s.cox[e]) ∧
        (∀ i, i < layerCount s p → layerRec t p i = BitVec.ofNat 512 (leAt data (8 + 64 * i) 64)) ∧ ∀ i, layerCount s p ≤ i → layerRec t p i = layerRec s p i) ∧
    ∀ (layer : Nat) (desc : BitVec 1024) (ps st : List Byte) (rec_ : BitVec 512), crewOwner s cr = some p → s.crews[cr].rejoin = 1 → s.crews[cr].attempt = none → layer = s.crews[cr].copyNext → layer < layerCount s p →
      let d := layerDesc s p layer
      let act := activeSlot (layerRec s p layer)
      let agrees := ldRule d = ldRule desc ∧ ldRows d = ldRows desc ∧ ldCols d = ldCols desc ∧ ldPfmt d = ldPfmt desc
      (¬agrees → exec (.rejoinCopy cr layer desc ps st rec_) s = .next (updCrew s cr fun k => { k with rejoin := 2 })) ∧
      (agrees → layer + 1 < layerCount s p →
        ∃ t, exec (.rejoinCopy cr layer desc ps st rec_) s = .next t ∧ SameBut [.hbm, .cox, .crews] s t ∧
          t.hbm = (hbmWriteN (hbmWriteN s p (paramSlot d act) ps) p (stateSlot d act) st).hbm ∧
          t.crews = s.crews.set cr { s.crews[cr] with copyNext := layer + 1 } ∧ layerRec t p layer = BitVec.ofNat 512 (rec_.toNat / 2 * 2 + if act then 1 else 0))

namespace Sys2Proof

/-- A Finish packet reaches a Crew that is not UNDEFINED, in its epoch and of no lower term (R345), while no Crew has something to do of its own accord. -/
structure FinMay (s : State) (c : Fin 16) (h : FinHead) : Prop where
  on : s.power.on = true
  calm : Calm s
  state : s.crews[c].state ≠ .undefined
  epoch : h.epoch = s.crews[c].epoch
  term : s.crews[c].term.toNat ≤ h.term.toNat

/-- The bytes of a Finish packet of a kind to a rank, without LSEQ and CRC (R345). -/
def finPacketOf (s : State) (c : Fin 16) (r kind stroke att term : Nat) (body : List Byte) : List Byte :=
  rankPacket s c r 3 0 (leBytes 4 kind ++ leBytes 4 s.crews[c].epoch.toNat ++ leBytes 8 stroke ++ leBytes 4 att ++ leBytes 4 term ++ body)

/-- An attempt whose VOTE alone is in flight and which waits for its decision; every other Crew is calm. -/
structure Waiting (s : State) (c : Fin 16) (p : Fin 8) (a : Attempt) (v : Cmd) (h : FinHead) : Prop where
  on : s.power.on = true
  state : s.crews[c].state ≠ .undefined
  epoch : h.epoch = s.crews[c].epoch
  term : s.crews[c].term.toNat ≤ h.term.toNat
  others : ∀ d : Fin 16, d ≠ c → crewCalm s.crews[d] = true
  writes : ∀ f : Fin 9, s.host.funcs[f].collWrites = [] ∧ s.host.funcs[f].handleWrites = []
  free : s.crews[c].ops = [] ∧ s.crews[c].waiting = []
  attempt : s.crews[c].attempt = some a
  owner : crewOwner s c = some p
  fin : s.crews[c].fin = .voting ∨ s.crews[c].fin = .unresolved
  vote : ∃ ki i q, a.voteCmd = some (v, .core c a.number ki i q)
  owed : a.voteOut = false ∧ a.inFlight = 1 ∧ a.ended = false
  launch : s.crews[c].launch.isSome = true
  fresh : ∀ x ∈ s.crews[c].decisions, ¬(x.stroke = h.stroke ∧ x.attempt = h.attempt.toNat)
  current : strokeNum s c = h.stroke ∧ a.number = h.attempt.toNat

/-- The decision is held, the attempt's VOTE has retired with its event, and no other Crew is different. -/
def VoteRetired (s t : State) (c : Fin 16) (p : Fin 8) (v : Cmd) (d : Decision) : Prop :=
  SameBut [.courses, .host, .rigger, .crews, .dict, .counters, .out] s t ∧ (∀ e, e ≠ c → t.crews[e] = s.crews[e]) ∧
    t.crews[c].decision = some d ∧ t.crews[c].fin = .decided ∧ t.crews[c].decisions = d :: s.crews[c].decisions ∧
    (∃ b, t.crews[c].attempt = some b ∧ b.voteOut = true ∧ b.inFlight = 0) ∧
    (fld v 79 64 ≠ 0 → fld v 79 64 ≤ 4095 → eventCount t (funcOf p) (fld v 79 64) = eventCount s (funcOf p) (fld v 79 64) + 1)

end Sys2Proof

/-! ## The Finish -/

/-- VOTE_PACKET of a member this one combines is held; ARRIVED of an attempt to come, and CUT, are noted; an ARRIVED that leaves others missing fixes no cut; at the
STRAGGLER_DEADLINE the leader cuts who has not arrived and says so. A packet of another epoch or a lower term is discarded and counted (R330, R338, R340, R345). -/
def Obligations.VotesAndCuts : Prop :=
  ∀ (s : State) (c : Fin 16) (h : FinHead),
    (s.power.on = true → s.crews[c].state ≠ .undefined → h.epoch ≠ s.crews[c].epoch ∨ h.term.toNat < s.crews[c].term.toNat →
      ∀ i, (∃ b, i = .votePacket c h b) ∨ (∃ r n, i = .arrived c h r n) ∨ (∃ l es, i = .cut c h l es) ∨ (∃ d e x, i = .log c h d e x) ∨ (∃ d e x, i = .logack c h d e x) ∨
        (∃ b, i = .decide c h b) ∨ (∃ r, i = .query c h r) ∨ (∃ r b, i = .resolve c h r b) →
      exec i s = .next (ctrAdd s 0 (crewIdx c) 0x27 1)) ∧
    (FinMay s c h →
      (∀ b : VoteBody, b.level ∈ levelsIn (crewG s c) → b.sender ∈ peersAt (crewG s c) (myRank s c) b.level →
        (∀ l ∈ levelsIn (crewG s c), l ≤ b.level → digit (crewG s c) (myRank s c) l = 0) →
        (∀ v ∈ s.crews[c].votes, ¬(v.1 = h.stroke ∧ v.2.1 = h.attempt.toNat ∧ v.2.2.level = b.level ∧ v.2.2.sender = b.sender)) →
        (finCurrent s c h = true ∧ s.crews[c].fin ≠ .voting ∨ finFuture s c h = true ∧ finCurrent s c h = false) →
        exec (.votePacket c h b) s = .next (updCrew (noteHeard s c b.sender) c fun k => { k with votes := k.votes ++ [(h.stroke, h.attempt.toNat, b)] })) ∧
      (∀ r, r ∈ group0 s c → leader0 s c = myRank s c →
        (finCurrent s c h = false → finFuture s c h = true →
          exec (.arrived c h r 1) s = .next (updCrew (noteHeard s c r) c fun k => { k with earlyArr := (h.stroke, h.attempt.toNat, r, s.now) :: k.earlyArr })) ∧
        (finCurrent s c h = true → r ∉ s.crews[c].cut.arrived → s.crews[c].cut.entries = none → replayCut s c = none →
          (∃ m ∈ group0 s c, m ≠ r ∧ m ∉ s.crews[c].cut.arrived) →
          exec (.arrived c h r 1) s = .next (updCrew (noteHeard s c r) c fun k =>
            { k with cut := { k.cut with arrived := k.cut.arrived ++ [r], first := some (k.cut.first.getD s.now) } }))) ∧
      ∀ es, leader0 s c ≠ myRank s c →
        (finCurrent s c h = true → s.crews[c].cut.entries = none →
          exec (.cut c h (leader0 s c) es) s = .next (updCrew (noteHeard s c (leader0 s c)) c fun k => { k with cut := { k.cut with entries := some es } })) ∧
        (finCurrent s c h = false → finFuture s c h = true →
          exec (.cut c h (leader0 s c) es) s = .next (updCrew (noteHeard s c (leader0 s c)) c fun k => { k with earlyCuts := (h.stroke, h.attempt.toNat, es) :: k.earlyCuts }))) ∧
    ∀ (a : Attempt) (first : U64) (r : Nat) (q : Fin 16), s.power.on = true → Calm s → s.crews[c].attempt = some a → s.crews[c].cut.first = some first →
      s.crews[c].cut.entries = none → leader0 s c = myRank s c → stragglerPolicy s c ≠ 0 → replayEntries s c = none →
      let es := ((group0 s c).filter fun r => !s.crews[c].cut.arrived.contains r).map fun r => lateEntry (stragglerPolicy s c) r 0 0
      let raw := finPacketOf s c r 0x12 (strokeNum s c).toNat a.number s.crews[c].term.toNat (leBytes 4 (myRank s c) ++ leBytes 4 es.length ++ es.flatMap wordBytes)
      (group0 s c).filter (fun m => m ≠ myRank s c) = [r] → RankPort s c r q raw →
      ∃ t, exec (.stragglerDeadline c) s = .next t ∧ SameBut [.now, .rigger, .crews, .dict, .counters, .out] s t ∧ t.crews[c].cut = { s.crews[c].cut with entries := some es } ∧
        (∀ e, e ≠ c → t.crews[e] = s.crews[e]) ∧ t.out = portSends s q raw :: s.out ∧ s.now.toNat ≤ t.now.toNat ∧
        (first + BitVec.ofNat 64 (1000 * objNat s 0 (crewIdx c) 0x32 5000)).toNat ≤ t.now.toNat

/-- LOG at rank 1: logged, in the log, and LOGACK goes back. LOGACK at rank 0, DECIDE and RESOLVE: the decision of the current attempt is held and its VOTE retires. QUERY is
answered with DECIDE, or asked upward; QUERY_TIMER asks the combiner. BACKUP_TAKEOVER: rank 1 decides ABORT for want of a decision, in a new term (R328, R331, R333 to R335, R337). -/
def Obligations.DecisionsAreHeld : Prop :=
  ∀ (s : State) (c : Fin 16) (h : FinHead),
    (∀ (decision cause : Byte) (incl : BitVec 64) (q : Fin 16), FinMay s c h → myRank s c = 1 → decision ≠ 0 →
      let raw := finPacketOf s c 0 0x23 h.stroke.toNat h.attempt.toNat h.term.toNat ([decision, cause] ++ leBytes 2 0 ++ wordBytes incl)
      RankPort s c 0 q raw →
      ∃ t, exec (.log c h decision cause incl) s = .next t ∧ SameBut [.rigger, .crews, .dict, .counters, .out] s t ∧ (∀ e, e ≠ c → t.crews[e] = s.crews[e]) ∧
        t.crews[c].logged = some (logDecision s c h decision cause incl) ∧ t.crews[c].term = h.term ∧
        t.crews[c].log = logPut s.crews[c].log (logSince s c) ⟨h.stroke, h.attempt.toNat, decision.toNat, cause.toNat, h.term, s.now⟩ ∧ t.out = portSends s q raw :: s.out) ∧
    (∀ (p : Fin 8) (a : Attempt) (v : Cmd), Waiting s c p a v h →
      (∀ (d : Decision) (decision cause : Byte) (incl : BitVec 64), myRank s c = 0 → s.crews[c].logged = some d → d.stroke = h.stroke → d.attempt = h.attempt.toNat → d.term = h.term →
        d.decision = decision.toNat → d.cause = cause.toNat → d.incl = incl →
        ∃ t, exec (.logack c h decision cause incl) s = .next t ∧ VoteRetired s t c p v { d with time := s.now } ∧ t.crews[c].logged = none) ∧
      ∀ b : DecBody, b.decision ≠ 0 →
        (∃ t, exec (.decide c h b) s = .next t ∧ VoteRetired s t c p v (bodyDecision h b s.now)) ∧
        ∀ src, ∃ t, exec (.resolve c h src b) s = .next t ∧ VoteRetired s t c p v (bodyDecision h b s.now)) ∧
    (∀ (src : Nat) (q : Fin 16), FinMay s c h →
      (∀ d, heldDecision s c h.stroke h.attempt.toNat = some d →
        let raw := finPacketOf s c src 0x24 d.stroke.toNat d.attempt s.crews[c].term.toNat (decBytes d)
        RankPort s c src q raw →
        ∃ t, exec (.query c h src) s = .next t ∧ SameBut [.rigger, .crews, .dict, .counters, .out] s t ∧ t.out = portSends s q raw :: s.out ∧
          t.crews[c].decision = s.crews[c].decision ∧ t.crews[c].decisions = s.crews[c].decisions) ∧
      ∀ r, heldDecision s c h.stroke h.attempt.toNat = none → combinerOf s c = some r →
        let raw := finPacketOf s c r 0x25 h.stroke.toNat h.attempt.toNat s.crews[c].term.toNat (leBytes 4 (myRank s c))
        RankPort s c r q raw →
        ∃ t, exec (.query c h src) s = .next t ∧ SameBut [.rigger, .crews, .dict, .counters, .out] s t ∧ t.out = portSends s q raw :: s.out) ∧
    (∀ (a : Attempt) (r : Nat) (q : Fin 16), s.power.on = true → s.crews[c].attempt = some a → combinerOf s c = some r → s.crews[c].fin = .voting →
      let raw := finPacketOf s c r 0x25 (strokeNum s c).toNat a.number s.crews[c].term.toNat (leBytes 4 (myRank s c))
      RankPort s c r q raw →
      ∃ t, exec (.queryTimer c) s = .next t ∧ SameBut [.now, .rigger, .crews, .dict, .counters, .out] s t ∧ t.out = portSends s q raw :: s.out ∧ s.now.toNat ≤ t.now.toNat ∧
        (a.tVote + 1000000).toNat ≤ t.now.toNat ∧ t.crews[c].fin = .voting) ∧
    ∀ a : Attempt, s.power.on = true → (∀ d : Fin 16, d ≠ c → crewCalm s.crews[d] = true) → (∀ f : Fin 9, s.host.funcs[f].collWrites = [] ∧ s.host.funcs[f].handleWrites = []) →
      s.crews[c].ops = [] → s.crews[c].waiting = [] → s.crews[c].attempt = some a → a.ended = false → a.voteCmd = none → s.crews[c].launch.isSome = true →
      s.crews[c].state = .recovering → s.crews[c].fin = .unresolved → 2 ≤ crewP s c → myRank s c = 1 → logEntryOf s c (strokeNum s c) a.number = none →
      (∀ x ∈ s.crews[c].decisions, ¬(x.stroke = strokeNum s c ∧ x.attempt = a.number)) →
      ∃ t d, exec (.backupTakeover c) s = .next t ∧ SameBut [.now, .rigger, .crews, .dict, .counters, .out] s t ∧ (∀ e, e ≠ c → t.crews[e] = s.crews[e]) ∧
        s.now.toNat ≤ t.now.toNat ∧ t.crews[c].decision = some d ∧ d.stroke = strokeNum s c ∧ d.attempt = a.number ∧ d.decision = 2 ∧ d.cause = 0x0A ∧
        d.term = nextTerm s.crews[c] ∧ t.crews[c].term = nextTerm s.crews[c] ∧ t.crews[c].fin = .decided ∧ t.crews[c].tookOver = true

namespace Sys2Proof

/-- A frame as it is queued for the medium (R359): sent zero times. -/
def queued (bytes : List Byte) (sess : Option (Fin 8 × BitVec 16)) : TxFrame := ⟨bytes, sess, 0, 0, 0⟩

/-- A frame of a service without a session (R363, R364). -/
def plainFrame (service dst session tseq aseq epoch : Nat) (src : BitVec 6) (payload : List Byte) : List Byte :=
  sealFrame (frameHdr aseq tseq epoch session payload.length service src.toNat dst) payload (List.replicate 16 0)

/-- A frame of a session with its number, the last frame accepted and its tag (R371, R373). -/
def sessBytes (s : State) (i : Fin 8) (service : Nat) (tseq : BitVec 16) (payload : List Byte) : List Byte :=
  let k := s.evolu.sessions[i]
  let hdr := frameHdr (k.expect - 1).toNat tseq.toNat s.evolu.epoch.toNat k.sid.toNat payload.length service s.evolu.addr.toNat k.addr.toNat
  sealFrame hdr payload (frameTag k.key hdr payload)

/-- The medium part of Evolu: everything but the sessions, to which an event may be queued. -/
def EvoluBut (s t : State) (e : Evolu) : Prop := t.evolu = { e with sessions := t.evolu.sessions } ∧ ∀ i : Fin 8, t.evolu.sessions[i].state = s.evolu.sessions[i].state

/-- Session `i` is `k`; every other session, and every other part of Evolu but the queue of frames, is the same. -/
def SessionOnly (s t : State) (i : Fin 8) (k : Session) : Prop :=
  t.evolu = { s.evolu with sessions := s.evolu.sessions.set i k, hq := t.evolu.hq, nq := t.evolu.nq }

/-- A burst that is not taken counts with its class and waits at the front again (R360). -/
def backInFront (e : Evolu) (h : Bool) (f : TxFrame) : Evolu := if h then { e with flight := none, hq := f :: e.hq } else { e with flight := none, nq := f :: e.nq }

/-- A session is closed with nothing left, and every other one is as it was (R372). -/
def SessionGone (s t : State) (i : Fin 8) : Prop := t.evolu.sessions[i] = Session.init ∧ ∀ j : Fin 8, j ≠ i → t.evolu.sessions[j] = s.evolu.sessions[j]

end Sys2Proof

/-! ## Evolu -/

/-- TRANSMIT sends the first frame of class H, else of class N, as a burst of code groups, a probe of MEDIUM_DOWN 100 ms before the next; ECHO_CHECK without a difference has sent it, else the frame waits at the front, a collision with its
slots owed, or is discarded at the sixteenth attempt; BURST_TIMER darkens the transmitter for 1 s; MEDIUM_DOWN, MEDIUM_BUSY and MEDIUM_IDLE set the medium (R357, R359 to R362). -/
def Obligations.BurstsAndMedium : Prop :=
  ∀ s : State, s.power.on = true →
    let e := s.evolu
    (∀ (h : Bool) (f : TxFrame) (rest : List TxFrame), maySend s = true → f.sess = none → (h = true ∧ e.hq = f :: rest ∨ h = false ∧ e.hq = [] ∧ e.nq = f :: rest) →
      ∃ t, exec .transmit s = .next t ∧ SameBut [.evolu, .dict, .out] s t ∧ t.out = .frame (burstGroups f.bytes) :: s.out ∧
        t.evolu = { (if h then { e with hq := rest } else { e with nq := rest }) with
          c := e.c + 1, flight := some (h, { f with a := f.a + 1, k := 0 }), darkUntil := if e.medium = .down then s.now + 100000000 else e.darkUntil } ∧
        ctrGet t 0 0x1800 0x20 = (ctrGet s 0 0x1800 0x20 + 1) % 2 ^ 64) ∧
    (∀ (h : Bool) (f : TxFrame), e.flight = some (h, f) →
      (e.medium ≠ .down →
        exec (.echoCheck .clean) s = .next { s with evolu := { e with noEcho := 0, flight := none } } ∧
        (f.a < 16 → ∀ g,
          (g < 500 → ∃ t, exec (.echoCheck (.differs g)) s = .next t ∧ SameBut [.evolu, .dict] s t ∧ ctrGet t 0 0x1800 0x21 = (ctrGet s 0 0x1800 0x21 + 1) % 2 ^ 64 ∧
            t.evolu = backInFront { e with noEcho := 0 } h { f with n := f.n + 1, k := owedSlots e (f.n + 1) }) ∧
          (500 ≤ g → ∃ t, exec (.echoCheck (.differs g)) s = .next t ∧ SameBut [.evolu, .dict] s t ∧ ctrGet t 0 0x1800 0x23 = (ctrGet s 0 0x1800 0x23 + 1) % 2 ^ 64 ∧
            t.evolu = backInFront { e with noEcho := 0 } h { f with k := 0 }))) ∧
      (f.a < 16 →
        (∃ t, exec (.echoCheck .none) s = .next t ∧ SameBut [.evolu, .dict] s t ∧ ctrGet t 0 0x1800 0x21 = (ctrGet s 0 0x1800 0x21 + 1) % 2 ^ 64 ∧
          t.evolu = backInFront { e with noEcho := e.noEcho + 1 } h { f with n := f.n + 1, k := owedSlots e (f.n + 1) }) ∧
        ∃ t, exec .burstTimer s = .next t ∧ SameBut [.evolu, .dict] s t ∧ ctrGet t 0 0x1800 0x23 = (ctrGet s 0 0x1800 0x23 + 1) % 2 ^ 64 ∧
          t.evolu = backInFront { e with darkUntil := s.now + 1000000000 } h { f with k := 0 }) ∧
      (16 ≤ f.a → ∃ t, exec (.echoCheck .none) s = .next t ∧ SameBut [.evolu, .dict] s t ∧ t.evolu.flight = none ∧ t.evolu.hq = e.hq ∧ t.evolu.nq = e.nq ∧
        ctrGet t 0 0x1800 0x22 = (ctrGet s 0 0x1800 0x22 + 1) % 2 ^ 64 ∧
        ∀ i q, f.sess = some (i, q) → e.sessions[i].state = .opened → t.evolu.sessions[i] = { e.sessions[i] with state := .suspect })) ∧
    (e.noEcho < 16 → exec .mediumDown s = .next s) ∧
    (16 ≤ e.noEcho → ∃ t, exec .mediumDown s = .next t ∧ SameBut [.evolu] s t ∧ EvoluBut s t { e with medium := .down }) ∧
    (∃ t, exec .mediumBusy s = .next t ∧ SameBut [.evolu] s t ∧ EvoluBut s t { e with medium := .busy }) ∧
    ∃ t, exec .mediumIdle s = .next t ∧ SameBut [.evolu] s t ∧ EvoluBut s t { e with medium := if e.medium = .busy then .ok else e.medium }

/-- CLAIM without an address: a frame with the serial number, the hint and a fresh nonce; ASSIGN from address 1 with both gives the address, stored and announced; ANNOUNCE of the
own address by another module takes it away with every session. FRAME_RECEIVE: the own echo is no reception, a damaged frame is counted, one for another module is none; a stranger,
and an OPEN_REQ beyond four of one source within 1 s, is counted and changes nothing else; a good frame acts as the row of its service (R361, R366, R367, R373, R381). -/
def Obligations.AddressesAndFrames : Prop :=
  ∀ s : State, s.power.on = true →
    let e := s.evolu
    (e.addr = 0 → ∃ t nonce, exec .claim s = .next t ∧ SameBut [.free, .evolu] s t ∧
      t.evolu = { e with claim := some nonce, nq := e.nq ++ [queued (plainFrame 0x20 1 0 0 0 0 0 (leBytes 8 Config.serial.toNat ++ [e.hint] ++ wordBytes nonce)) none] }) ∧
    (∀ (src : BitVec 6) (serial : BitVec 64) (nonce : BitVec 32) (addr : Byte),
      (e.addr = 0 → src = 1 → serial = Config.serial → e.claim = some nonce → 1 ≤ addr.toNat → addr.toNat ≤ 62 →
        ∃ t, exec (.assign src serial nonce addr) s = .next t ∧ SameBut [.evolu] s t ∧ EvoluBut s t { e with
          addr := addr.setWidth 6, hint := addr, claim := none
          nq := e.nq ++ [queued (plainFrame 0x22 63 0 0 0 e.epoch.toNat (addr.setWidth 6) (leBytes 8 Config.serial.toNat)) none] }) ∧
      (e.addr ≠ 0 ∨ src ≠ 1 ∨ serial ≠ Config.serial ∨ e.claim ≠ some nonce ∨ addr = 0 ∨ 62 < addr.toNat → exec (.assign src serial nonce addr) s = .next s) ∧
      (src ≠ e.addr ∨ serial = Config.serial → exec (.announce src serial) s = .next s) ∧
      (src = e.addr → e.addr ≠ 0 → serial ≠ Config.serial → ∃ t, exec (.announce src serial) s = .next t ∧ SameBut [.evolu, .dict, .sec] s t ∧
        t.evolu.addr = 0 ∧ t.evolu.hint = 0 ∧ t.evolu.claim = none ∧ t.evolu.shakes = [] ∧ t.evolu.hq = [] ∧ t.evolu.nq = [] ∧
        (∀ i : Fin 8, t.evolu.sessions[i].state = .closed) ∧ ctrGet t 0 0x1800 0x28 = (ctrGet s 0 0x1800 0x28 + 1) % 2 ^ 64)) ∧
    (∀ (src : BitVec 6) (hid : BitVec 32) (count : BitVec 16) (seg : List Byte), src ≠ 0 → (e.reqTimes.filter fun x => s.now.toNat < x.2.toNat + 1000000000) = e.reqTimes →
      4 ≤ (e.reqTimes.filter fun x => x.1 = src).length → exec (.openReq src hid 0 count seg) s = .next (ctrAdd s 0 0x1800 0x25 1)) ∧
    ∀ b : List Byte,
      (ownEcho s b = true → ∀ v, exec (.frameReceive b v) s = .next s) ∧
      (ownEcho s b = false → exec (.frameReceive b true) s = .next (ctrAdd s 0 0x1800 0x24 1)) ∧
      (ownEcho s b = false → frCrcOk b = false → exec (.frameReceive b false) s = .next (ctrAdd s 0 0x1800 0x24 1)) ∧
      (ownEcho s b = false → frCrcOk b = true → frDst b ≠ e.addr.toNat → frDst b ≠ 63 → exec (.frameReceive b false) s = .next s) ∧
      (ownEcho s b = false → frCrcOk b = true → (e.addr = 0 ∨ frSrc b ≠ e.addr.toNat) →
        (frDst b = e.addr.toNat ∧ frDst b ≠ 63 ∨ frDst b = 63 ∧ (frService b = 0x21 ∨ frService b = 0x22) → frSrc b = 0 → frService b ≠ 0x20 →
          exec (.frameReceive b false) s = .next (ctrAdd s 0 0x1800 0x25 1)) ∧
        (frDst b = e.addr.toNat → frDst b ≠ 63 → frSrc b ≠ 0 → 1 ≤ frService b → frService b ≤ 3 →
          let names (j : Fin 8) : Prop := sessLive e.sessions[j] = true ∧ e.sessions[j].sid.toNat = frSession b
          ((∀ j : Fin 8, ¬names j) → e.epoch.toNat ≤ frEpoch b → exec (.frameReceive b false) s = .next (ctrAdd s 0 0x1800 0x25 1)) ∧
          ∀ i : Fin 8, names i → (∀ j : Fin 8, j < i → ¬names j) →
            frSrc b ≠ e.sessions[i].addr.toNat ∨ frTag b ≠ frameTag e.sessions[i].key (b.take 20) (frPayload b) →
            exec (.frameReceive b false) s = .next (ctrAdd s 0 0x1800 0x25 1))) ∧
      (ownEcho s b = false → frCrcOk b = true → frMalformed b = false → frDst b = 63 → frService b = 0x21 → frLen b = 13 → e.addr = 0 → frSrc b ≠ 0 →
        exec (.frameReceive b false) s =
          exec (.assign (BitVec.ofNat 6 (frSrc b)) (BitVec.ofNat 64 (leAt (frPayload b) 0 8)) (BitVec.ofNat 32 (leAt (frPayload b) 8 4)) (BitVec.ofNat 8 (leAt (frPayload b) 12 1))) s) ∧
      ∀ i : Fin 8, ownEcho s b = false → frCrcOk b = true → frMalformed b = false → frDst b = e.addr.toNat → frDst b ≠ 63 → frSrc b ≠ e.addr.toNat → frSrc b ≠ 0 → frService b = 3 →
        sessLive e.sessions[i] = true → e.sessions[i].sid.toNat = frSession b → (∀ j : Fin 8, j < i → ¬(sessLive e.sessions[j] = true ∧ e.sessions[j].sid.toNat = frSession b)) →
        frSrc b = e.sessions[i].addr.toNat → frTag b = frameTag e.sessions[i].key (b.take 20) (frPayload b) → e.epoch.toNat ≤ frEpoch b →
        exec (.frameReceive b false) s = exec (.evoluAck i (BitVec.ofNat 16 (frAseq b))) s

/-- OPEN_REQ: its first segment begins a handshake; OPEN_FIN: a segment is held, the last opens the session where the signature verifies, else the session is closed and refused.
The timeouts drop what they name. CLOSE, SUSPECT_TIMEOUT and IDLE_LIMIT close the session (R369, R370, R372). -/
def Obligations.HandshakesAndClosing : Prop :=
  ∀ s : State, s.power.on = true →
    let e := s.evolu
    (∀ (src : BitVec 6) (hid : BitVec 32) (index : BitVec 16) (seg : List Byte), src ≠ 0 → hid ≠ 0 → index.toNat < 4 → seg.length ≤ 1024 → findShake s src hid = none →
      e.shakes.length < 2 → e.reqTimes = [] →
      ∃ t, exec (.openReq src hid index 4 seg) s = .next t ∧ SameBut [.evolu] s t ∧
        t.evolu = { e with shakes := e.shakes ++ [⟨hid, src, [(index.toNat, seg)], 4, [], 0, s.now, [], [], none, [], [], 0⟩], reqTimes := if index = 0 then [(src, s.now)] else [] }) ∧
    (∀ (src : BitVec 6) (hid : BitVec 32) (index : BitVec 16) (seg : List Byte) (h : Handshake) (i : Fin 8), findShake s src hid = some h → h.slot = some i → index.toNat < 4 →
      seg.length ≤ 1024 →
      let held := addSeg h.fin index.toNat seg
      (wholeSegs held 4 = none → ∃ t, exec (.openFin src hid index 4 seg) s = .next t ∧ SameBut [.evolu] s t ∧ t.evolu.sessions = e.sessions ∧
        findShake t src hid = some { h with since := if h.fin = [] then s.now else h.since, fin := held, finCount := 4 }) ∧
      ∀ sig, wholeSegs held 4 = some sig → sig.length = 3309 → e.sessions[i].state = .opening →
        (∀ j : Fin 8, j ≠ i → ¬(sessLive e.sessions[j] = true ∧ e.sessions[j].anchor = h.anchor ∧ e.sessions[j].addr = h.src)) →
        let good := Config.dsaVerify (sliceZ h.reqAll 1216 1952) "EVOLU-FIN" h.t sig
        ∃ t, exec (.openFin src hid index 4 seg) s = .next t ∧ SameBut [.evolu, .dict, .sec] s t ∧ findShake t src hid = none ∧ (∀ j : Fin 8, j ≠ i → t.evolu.sessions[j] = e.sessions[j]) ∧
          (good = true → t.evolu.sessions[i] = { e.sessions[i] with state := .opened, key := kmac256 h.shared h.t 32 "EVOLU-KEY", lastRx := s.now, ackOwed := false }) ∧
          (good = false → t.evolu.sessions[i].state = .closed ∧ ctrGet t 0 0x1800 0x26 = (ctrGet s 0 0x1800 0x26 + 1) % 2 ^ 64)) ∧
    (∀ h : Handshake, (e.shakes.find? fun x => decide (x.hid = h.hid)) = some h →
      (∀ i : Fin 8, h.slot = some i → e.sessions[i].state ≠ .closed → ∃ t, exec (.openFinTimeout h.hid) s = .next t ∧ SameBut [.now, .evolu, .dict, .sec] s t ∧ SessionGone s t i ∧
        t.evolu.shakes = e.shakes.filter (fun x => !(x.src = h.src && x.hid = h.hid)) ∧ ctrGet t 0 0x1800 0x26 = (ctrGet s 0 0x1800 0x26 + 1) % 2 ^ 64) ∧
      (h.req ≠ [] ∨ h.fin ≠ [] → ∃ t, exec (.handshakeSegmentTimeout h.hid) s = .next t ∧ SameBut [.now, .evolu] s t ∧ s.now.toNat ≤ t.now.toNat ∧
        (h.since + 20000000).toNat ≤ t.now.toNat ∧ t.evolu.sessions = e.sessions ∧
        t.evolu.shakes = e.shakes.filter (fun x => !(x.src = h.src && x.hid = h.hid)) ++ (if h.slot = none then [] else [{ h with req := [], fin := [] }]))) ∧
    ∀ i : Fin 8,
      (e.sessions[i].state ≠ .closed → ∃ t, exec (.close i) s = .next t ∧ SameBut [.evolu, .dict, .sec] s t ∧ SessionGone s t i) ∧
      (e.sessions[i].state = .suspect → ∃ t, exec (.suspectTimeout i) s = .next t ∧ SameBut [.evolu, .dict, .sec] s t ∧ SessionGone s t i) ∧
      (e.sessions[i].state ≠ .suspect → exec (.suspectTimeout i) s = .next s) ∧
      (sessLive e.sessions[i] = true → ∃ t, exec (.idleLimit i) s = .next t ∧ SameBut [.now, .evolu, .dict, .sec] s t ∧ SessionGone s t i ∧ s.now.toNat ≤ t.now.toNat ∧
        (e.sessions[i].lastRx + BitVec.ofNat 64 (objNat s 0 0x1800 5 60000 * 1000000)).toNat ≤ t.now.toNat)

/-- REQUEST in order with its tag executes once and its RESPONSE is kept until acknowledged; RESPONSE and EVOLU_ACK acknowledge; the third EVOLU_ACK in a row and RTO_EXPIRY send the
oldest frame again; ACK_DELAY sends the ACK owed; EVENT sends the queued records; SUBSCRIBE sets the mask and is answered (R373 to R375, R385, R386). -/
def Obligations.SessionsExchange : Prop :=
  ∀ (s : State) (i : Fin 8), s.power.on = true → sessLive s.evolu.sessions[i] = true →
    let k := s.evolu.sessions[i]
    (∀ (f : HeldFrame) (m : SvcMsg), nextRequest k f.tseq = some f → parseMsg f.payload = some (0x21, m) → m.data.length = 4 → leAt m.data 0 4 ≤ 2047 → s.pointing.lockstep = true →
      k.state = .opened → k.unacked.length < 16 → k.outWait = [] →
      ∃ t k' rsp, exec (.request i f.tseq f.tag f.payload) s = .next t ∧ SameBut [.evolu] s t ∧ SessionOnly s t i k' ∧ k'.mask = BitVec.ofNat 32 (leAt m.data 0 4) ∧
        k'.todo = k.todo.filter (fun x => x.tseq ≠ f.tseq) ∧ k'.txNext = k.txNext + 1 ∧ k'.unacked = k.unacked ++ [⟨k.txNext, 2, rsp, 0, s.now⟩] ∧ leAt rsp 0 1 = 0x21 ∧
        leAt rsp 2 2 = f.tseq.toNat ∧ leAt rsp 4 2 = 0 ∧ t.evolu.nq = s.evolu.nq ∧ t.evolu.hq = s.evolu.hq ++ [queued (sessBytes s i 2 k.txNext rsp) (some (i, k.txNext))]) ∧
    (∀ (tseq : BitVec 16) (msg : List Byte), (∃ x ∈ k.todo, x.tseq = tseq ∧ x.service = 2) → k.outWait = [] →
      let ref := BitVec.ofNat 16 (leAt msg 2 2)
      ∃ t k', exec (.response i tseq msg) s = .next t ∧ SameBut [.evolu] s t ∧ SessionOnly s t i k' ∧ k'.todo = k.todo.filter (fun x => x.tseq ≠ tseq) ∧
        k'.unacked = (if k.unacked.any fun u => u.tseq = ref && u.service = 1 then k.unacked.filter fun f => !aseqAcks ref f else k.unacked)) ∧
    (∀ aseq, aseqOk k aseq = true → k.state = .opened → k.outWait = [] →
      (k.dup.1 ≠ aseq → ∃ t k', exec (.evoluAck i aseq) s = .next t ∧ SameBut [.evolu] s t ∧ SessionOnly s t i k' ∧ k'.unacked = (k.unacked.filter fun f => !aseqAcks aseq f) ∧
        k'.lastRx = s.now ∧ k'.state = .opened ∧ t.evolu.hq = s.evolu.hq ∧ t.evolu.nq = s.evolu.nq) ∧
      ∀ f l, k.dup = (aseq, 2) → k.unacked = f :: l → (∀ x ∈ k.unacked, aseqAcks aseq x = false) →
        ∃ t k', exec (.evoluAck i aseq) s = .next t ∧ SameBut [.evolu, .dict] s t ∧ SessionOnly s t i k' ∧ ctrGet t 0 0x1800 0x27 = (ctrGet s 0 0x1800 0x27 + 1) % 2 ^ 64 ∧
          t.evolu.hq ++ t.evolu.nq ≠ s.evolu.hq ++ s.evolu.nq ∧ k'.dup = (aseq, 0)) ∧
    (k.ackOwed = true → ∃ t, exec (.ackDelay i) s = .next t ∧ SameBut [.evolu] s t ∧ SessionOnly s t i { k with ackOwed := false } ∧ t.evolu.nq = s.evolu.nq ∧
      t.evolu.hq = s.evolu.hq ++ [queued (sessBytes s i 3 k.txNext (leBytes 2 0 ++ leBytes 2 k.expect.toNat)) (some (i, k.txNext))]) ∧
    (∀ f l, k.state = .opened → k.unacked = f :: l → f.resends < 7 → (∀ x ∈ l, x.tseq ≠ f.tseq) →
      ∃ t, exec (.rtoExpiry i) s = .next t ∧ SameBut [.evolu, .dict] s t ∧ ctrGet t 0 0x1800 0x27 = (ctrGet s 0 0x1800 0x27 + 1) % 2 ^ 64 ∧
        SessionOnly s t i { k with rto := min 50000000 (2 * k.rto), ackOwed := false, unacked := { f with resends := f.resends + 1 } :: l } ∧
        (f.service = 1 → t.evolu.nq = s.evolu.nq ++ [queued (sessBytes s i 1 f.tseq f.payload) (some (i, f.tseq))] ∧ t.evolu.hq = s.evolu.hq)) ∧
    (sessRoom k = true → k.events ≠ [] → k.events.length ≤ 20 →
      ∃ t k' msg, exec (.event i) s = .next t ∧ SameBut [.evolu] s t ∧ SessionOnly s t i k' ∧ k'.events = [] ∧ k'.dropped = 0 ∧ k'.txNext = k.txNext + 1 ∧
        k'.unacked = k.unacked ++ [⟨k.txNext, 1, msg, 0, s.now⟩] ∧ leAt msg 0 1 = 0x20 ∧ t.evolu.hq = s.evolu.hq ∧
        t.evolu.nq = s.evolu.nq ++ [queued (sessBytes s i 1 k.txNext msg) (some (i, k.txNext))]) ∧
    ∀ m : SvcMsg, s.pointing.lockstep = true → m.data.length = 4 → leAt m.data 0 4 ≤ 2047 →
      ∃ t, exec (.subscribe i m) s = .next t ∧ SameBut [.evolu, .out] s t ∧ SessionOnly s t i { k with mask := BitVec.ofNat 32 (leAt m.data 0 4) } ∧
        t.evolu.hq = s.evolu.hq ∧ t.evolu.nq = s.evolu.nq ∧ ∃ rsp, t.out = .response (.sess i) rsp :: s.out ∧ leAt rsp 0 1 = 0x21 ∧ leAt rsp 4 2 = 0

namespace Sys2Proof

/-- The entry of the Pointing log of a kind, newest first, and one entry more written (R423). -/
def logged (s t : State) (kind unit tag : Nat) (now : U64) : Prop :=
  t.pointing.log = (eventEntry kind 0 unit 0 tag now :: s.pointing.log).take 65536 ∧ t.pointing.written = s.pointing.written + 1

/-- Activity (id, unit) is `a`, and every other one as it was (R412). -/
def ActOnly (s t : State) (id unit : Nat) (a : Activity) : Prop := actOf t id unit = a ∧ ∀ j u, ¬(j = id ∧ u = unit) → actOf t j u = actOf s j u

/-- What the module forgets in a cold or a warm reset of Evolu and its clocks of life (R384, R438, R440): the epoch is one higher and every session is closed. -/
def NewEpoch (s t : State) : Prop := t.evolu.epoch = s.evolu.epoch + 1 ∧ ∀ i : Fin 8, t.evolu.sessions[i].state = .closed

/-- What a warm reset with a cause leaves (R437 to R439, R441): between 2.0 and 2.5 s have passed; every unit's queue is empty, every Rigger port DOWN; a Crew with no Stroke is
RECOVERING; the address, flash and the waiting commands stay; the reset is counted with its cause. -/
def WarmlyReset (s t : State) (cause : Nat) : Prop :=
  t.pending = s.pending ∧ NewEpoch s t ∧ s.now.toNat + 2000000000 ≤ t.now.toNat ∧ t.now.toNat ≤ s.now.toNat + 2500000000 ∧
    t.power.warms = s.power.warms + 1 ∧ t.power.cause = cause ∧ t.power.on = true ∧ t.power.removal = 0 ∧ t.evolu.addr = s.evolu.addr ∧
    t.dict.flash = s.dict.flash ∧ t.sec.owner = s.sec.owner ∧ t.sec.rollback = s.sec.rollback ∧
    (∀ n : Fin 8, t.courses[n].queue = [] ∧ t.trowels[n].queue = [] ∧ (s.pointing.leaving = [] → t.courses[n].inService = s.courses[n].inService)) ∧ (∀ h : Fin 16, t.hods[h].queue = []) ∧
    (∀ p : Fin 8, t.cox[p].cmds = []) ∧ (∀ p : Fin 16, t.rigger.ports[p].state = .down ∧ t.rigger.ports[p].kept = []) ∧
    (∀ c : Fin 16, s.crews[c].launch = none → s.crews[c].attempt = none →
      t.crews[c].state = if s.crews[c].state = .undefined then .undefined else .recovering)

/-- The step times of the three lowered clock domains, and the three references, each have their entry (R425, R427, R428). -/
def PowerListsOk (s : State) : Prop := s.power.domStep.length = 3 ∧ s.power.refs.length = 3

end Sys2Proof

/-! ## Pointing -/

/-- ACTIVITY_URGENT makes the activity of a unit URGENT; POINTING_PREEMPTION takes a step within its budget, counted and logged, and none beyond it; DEADLINE_MISSED is counted and
logged. The self-tests: a failing working lane waits for its substitution, failing lanes of a Trowel or of a field of the Cox are replaced by spares, those of a unit at work in the gap after its
command; a freed bank becomes a spare or leaves; a core changes places with a spare, and one that fails with no spare leaves the map (log 42). LOCKSTEP_MISMATCH pairs the spare with the core that passes, and with none the module leaves service. CLEAR_REPAIR_MAP marks the map
(R411 to R418, R422 to R424). -/
def Obligations.PointingActs : Prop :=
  ∀ s : State, s.power.on = true →
    (∀ (id : Fin 8) (unit : Nat) (ns : BitVec 32),
      let i := id.val + 1
      let a := actOf s i unit
      let recent := a.steps.filter fun x => s.now.toNat < x.1.toNat + 100000000
      let used := (recent.map (·.2)).sum
      let stall := if i = 1 ∨ i = 5 then 0 else ns.toNat
      (actUnit s i unit = true → ¬(i = 1 ∧ s.hbm.stks[fin20 unit].suspended = true) →
        ∃ t, exec (.activityUrgent id unit) s = .next t ∧ SameBut [.pointing] s t ∧ ActOnly s t i unit { a with state := 2 }) ∧
      (a.state = 2 → actUnit s i unit = true → safeBoundary s i unit = true →
        (used + ns.toNat ≤ actBudget s i * 10000 → ∃ t, exec (.pointingPreemption id unit ns) s = .next t ∧ SameBut [.crews, .evolu, .dict, .pointing] s t ∧
          ActOnly s t i unit { a with steps := recent ++ [(s.now, ns.toNat)] } ∧ logged s t 1 unit stall s.now ∧
          ctrGet t 0 0x8000 0x31 = (ctrGet s 0 0x8000 0x31 + 1) % 2 ^ 64) ∧
        (actBudget s i * 10000 < used + ns.toNat → exec (.pointingPreemption id unit ns) s = .next s)) ∧
      (a.missed = true → exec (.deadlineMissed id unit) s = .next s) ∧
      (a.state = 2 → a.missed = false → i ≠ 1 → ∃ t, exec (.deadlineMissed id unit) s = .next t ∧ SameBut [.now, .evolu, .dict, .pointing] s t ∧ s.now.toNat ≤ t.now.toNat ∧
        (BitVec.ofNat 64 (a.done.toNat + actDeadline s i unit)).toNat ≤ t.now.toNat ∧ ActOnly s t i unit { a with missed := true } ∧ t.pointing.written = s.pointing.written + 1 ∧
        ctrGet t 0 0x8000 0x32 = (ctrGet s 0 0x8000 0x32 + 1) % 2 ^ 64)) ∧
    (∀ (n : Fin 8) (first x : Nat), s.courses[n].inService = true → s.courses[n].queue = [] → first ≤ x → x < first + 8 → first + 8 < 520 → x ∉ s.courses[n].badLanes →
      (∀ l, s.courses[n].laneMap.idxOf? x = some l → l ∉ s.courses[n].substs → (∃ y, y < 520 ∧ y ∉ s.courses[n].laneMap ∧ y ∉ s.courses[n].badLanes) →
        ∃ t, exec (.courseLaneSelfTest n first [x]) s = .next t ∧ SameBut [.courses, .evolu, .dict, .pointing] s t ∧ logged s t 12 n 3 s.now ∧
          t.courses = s.courses.set n { s.courses[n] with suspects := s.courses[n].suspects + 1, substs := s.courses[n].substs ++ [l] }) ∧
      (s.courses[n].laneMap.idxOf? x = none →
        ∃ t, exec (.courseLaneSelfTest n first [x]) s = .next t ∧ SameBut [.courses, .evolu, .dict, .pointing] s t ∧
          t.courses = s.courses.set n { s.courses[n] with badLanes := s.courses[n].badLanes ++ [x] })) ∧
    (∀ (n : Fin 8) (failing : Nat), s.courses[n].inService = true → s.pointing.laneTests = [] →
      (s.trowels[n].queue = [] → failing ≤ s.trowels[n].spares →
        ∃ t, exec (.trowelCoxLaneTest (.trowel n) failing) s = .next t ∧ SameBut [.trowels, .evolu, .dict, .pointing] s t ∧
          t.trowels = s.trowels.set n { s.trowels[n] with spares := s.trowels[n].spares - failing } ∧ ActOnly s t 4 n { actOf s 4 n with state := 0, done := s.now } ∧
          (0 < failing → (s.dict.flashBad = false → logged s t 12 n 4 s.now) ∧ ctrGet t 0 0x8000 0x33 = (ctrGet s 0 0x8000 0x33 + failing) % 2 ^ 64)) ∧
      (∀ u l, s.trowels[n].queue = u :: l → u.run = true → (actOf s 4 n).state = 2 → 0 < failing →
        ∃ t, exec (.trowelCoxLaneTest (.trowel n) failing) s = .next t ∧ SameBut [.pointing] s t ∧ ActOnly s t 4 n { actOf s 4 n with state := 0, done := s.now } ∧
          t.pointing.laneTests = [(.trowel n, failing)])) ∧
    (∀ (f : Fin 4) (failing : Nat), (∀ p : Fin 8, s.cox[p].cmds = []) → s.pointing.laneTests = [] → 0 < failing → failing ≤ s.pointing.coxSpares[f] →
      ∃ t, exec (.trowelCoxLaneTest (.cox f) failing) s = .next t ∧ SameBut [.evolu, .dict, .pointing] s t ∧ (s.dict.flashBad = false → logged s t 12 8 4 s.now) ∧
        t.pointing.coxSpares = s.pointing.coxSpares.set f (s.pointing.coxSpares[f] - failing) ∧ t.pointing.coxLanes = s.pointing.coxLanes ∧
        (f = 3 → actOf t 4 8 = { actOf s 4 8 with state := 0, done := s.now }) ∧ (f ≠ 3 → t.pointing.acts = s.pointing.acts) ∧
        ctrGet t 0 0x8000 0x33 = (ctrGet s 0 0x8000 0x33 + failing) % 2 ^ 64) ∧
    (∀ (n : Fin 8) (pb : Fin 136) (ok : Bool), s.pallets[n].freed = some pb.val →
      ∃ t, exec (.palletBankTest n pb ok) s = .next t ∧ SameBut [.pallets, .evolu, .dict, .pointing] s t ∧
        t.pallets = s.pallets.set n { s.pallets[n] with freed := none, badBanks := if ok then s.pallets[n].badBanks else s.pallets[n].badBanks ++ [pb.val] }) ∧
    (∀ (k : Fin 4) (sp : Nat) (rest : List Nat), s.pointing.clusters[k].spares = sp :: rest → s.pointing.clusters[k].map ≠ [] →
      (∀ a ∈ liveAttempts s, ∀ x ∈ a.cores, x.cluster ≠ k) →
      ∃ t l old, exec (.coreRotation k true) s = .next t ∧ SameBut [.evolu, .dict, .pointing] s t ∧ s.pointing.clusters[k].map[l]? = some old ∧
        (∀ x ∈ s.pointing.clusters[k].map, (s.pointing.clusters[k].tested.getD old 0).toNat ≤ (s.pointing.clusters[k].tested.getD x 0).toNat) ∧
        t.pointing.clusters = s.pointing.clusters.set k
          { map := s.pointing.clusters[k].map.set l sp, spares := rest ++ [old], tested := s.pointing.clusters[k].tested.set old s.now, late := true }) ∧
    (∀ (k : Fin 4) (m : Nat) (ms : List Nat), s.pointing.clusters[k].spares = [] → s.pointing.clusters[k].map = m :: ms →
      exec (.coreRotation k true) s = .next s ∧
      ((∀ a ∈ liveAttempts s, ∀ x ∈ a.cores, x.cluster ≠ k) →
        ∃ t old, exec (.coreRotation k false) s = .next t ∧ SameBut [.evolu, .dict, .pointing] s t ∧ old ∈ s.pointing.clusters[k].map ∧
          t.pointing.clusters[k].map = s.pointing.clusters[k].map.filter (· ≠ old) ∧ t.pointing.degraded = s.pointing.degraded ||| 8)) ∧
    (∀ (core0 core1 spare : Bool), s.pointing.lockstep = true →
      (∀ sp, s.pointing.mgmtSpare = some sp → spare = true → core0 = true ∨ core1 = true →
        ∃ t, exec (.lockstepMismatch core0 core1 spare) s = .next t ∧ SameBut [.free, .evolu, .dict, .pointing] s t ∧ t.pointing.mgmtSpare = none ∧ t.pointing.lockstep = true ∧
          (t.pointing.pair = (s.pointing.pair.1, sp) ∨ t.pointing.pair = (s.pointing.pair.2, sp)) ∧ (core1 = false → t.pointing.pair.1 = s.pointing.pair.1) ∧
          (core0 = false → t.pointing.pair.1 = s.pointing.pair.2) ∧ ctrGet t 0 0x8000 0x33 = (ctrGet s 0 0x8000 0x33 + 1) % 2 ^ 64) ∧
      (s.pointing.mgmtSpare = none ∨ spare = false ∨ core0 = false ∧ core1 = false →
        ∃ t, exec (.lockstepMismatch core0 core1 spare) s = .next t ∧ SameBut [.evolu, .dict, .power, .pointing] s t ∧ t.pointing.lockstep = false ∧
          t.pointing.outOfService = true ∧ t.power = { s.power with quiesced := true })) ∧
    ∀ (r : Req) (v : Byte), MayWrite s r 0x8100 0x10 [v] 3 → v ≠ 0 →
      ∃ t, exec (.clearRepairMap r v) s = .next t ∧ SameBut [.pointing, .evolu] s t ∧ t.pointing = { s.pointing with clearMap := true }

/-! ## Power, clocks and resets -/

/-- The three clock domains that are lowered and the three references keep their entries in every step, and have them after reset (R425, R427, R428). The clock statements
assume it. -/
def Obligations.PowerListsKeepTheirLength : Prop :=
  PowerListsOk State.reset ∧ ∀ s t : State, PowerListsOk s → step s = .next t → PowerListsOk t

/-- CLOCK_STEP moves a domain by one step as the cap and the throttle ask, and counts it; POWER_SAMPLE takes the sample, and the second in a row above 3,800 W halves ACLK;
THERMAL_SAMPLE takes the readings, throttles at the limit, and trips at 105 °C; a lost reference relocks the domains to the other one, and with none left the module is Off;
UNDER_VOLTAGE_TRIP and OVER_VOLTAGE_TRIP leave it Off with the shutdown record; IDLE_ENTRY makes a module without work Idle; PREPARE_FOR_REMOVAL quiesces it
(R425, R427 to R429, R431 to R435). -/
def Obligations.ClocksPowerAndTrips : Prop :=
  let off (s t : State) (cause : Nat) (v : Int) : Prop :=
    t.power = { s.power with on := false, idle := false, flashShut := some (cause, t.now, v), junctions := t.power.junctions, stackTemps := t.power.stackTemps, hotMin := t.power.hotMin
                             halved := t.power.halved, thrTime := t.power.thrTime, refs := t.power.refs } ∧
      t.host = { s.host with up := false } ∧ ∀ p : Fin 16, t.rigger.ports[p].state = .down ∧ t.rigger.ports[p].kept = []
  ∀ s : State, s.power.on = true → s.now.toNat + 10000000000 < 2 ^ 64 →
    (∀ (d : Fin 3) (up : Bool),
      let asks := capW s < avgPower s.power ∨ s.power.throttling = true
      let v := freq s.power d
      let w := if up then min (freqNom d) (v + freqStep d) else max (freqMin d) (v - freqStep d)
      (up = true ∧ asks ∨ up = false ∧ ¬asks → exec (.clockStep d up) s = .next s) ∧
      (up = true ∧ ¬asks ∨ up = false ∧ asks → w ≠ v → (s.power.domStep.getD d 0).toNat ≤ s.now.toNat → PowerListsOk s →
        ∃ t, exec (.clockStep d up) s = .next t ∧ SameBut [.now, .dict, .power] s t ∧ freq t.power d = w ∧ (∀ e : Fin 3, e ≠ d → freq t.power e = freq s.power e) ∧
          s.now.toNat ≤ t.now.toNat ∧ (s.power.domStep.getD d 0 ≠ 0 → (s.power.domStep.getD d 0).toNat + 10000 ≤ t.now.toNat) ∧ t.power.domStep.getD d 0 = t.now ∧
          ctrGet t 0 0x2300 3 = (ctrGet s 0 0x2300 3 + 1) % 2 ^ 64)) ∧
    (∀ w mv : Nat, PowerListsOk s → ∃ t, exec (.powerSample w mv) s = .next t ∧ SameBut [.now, .evolu, .dict, .power] s t ∧ t.now.toNat = (s.now.toNat / 10000 + 1) * 10000 ∧ t.power.mv = mv ∧
      t.power.samples = (w :: s.power.samples).take 100 ∧ t.power.energy = s.power.energy + 10 * w ∧
      (3800 < w → 1 ≤ s.power.hiRuns → t.power.aclk = 1000 ∧ t.power.capping = true ∧ ctrGet t 0 0x2100 3 = (ctrGet s 0 0x2100 3 + 1) % 2 ^ 64) ∧
      (w ≤ 3800 → t.power.hiRuns = 0 ∧ (capW s < avgPower t.power → t.power.capping = true))) ∧
    (∀ js ts : List Int,
      let hot := hottest (padInts js 64)
      (hottest (padInts ts 20) < 10500 → hot < 10000 → ∃ t, exec (.thermalSample js ts) s = .next t ∧ SameBut [.now, .evolu, .dict, .power] s t ∧
        t.now.toNat = (s.now.toNat / 100000 + 1) * 100000 ∧ t.power.junctions = padInts js 64 ∧ t.power.stackTemps = padInts ts 20 ∧ t.power.hotMin = 0 ∧
        (∀ k, k < 20 → 9500 ≤ (padInts ts 20).getD k 0 → k ∈ t.power.halved) ∧ (∀ k, k ∈ t.power.halved → 9200 ≤ (padInts ts 20).getD k 0) ∧
        (100 * (objNat s 0 0x2200 4 100 : Int) ≤ hot → t.power.throttling = true)) ∧
      (10500 ≤ hot → ∃ t, exec (.thermalSample js ts) s = .next t ∧ SameBut [.now, .host, .rigger, .power] s t ∧ off s t 3 hot)) ∧
    (∀ r o : Fin 3, r.val + o.val = 1 → s.power.refs.getD r true = true → PowerListsOk s →
      (s.power.refs.getD o true = true → ∃ t, exec (.referenceLoss r) s = .next t ∧
        t.power = { s.power with refs := s.power.refs.set r false, relocks := s.power.relocks + 1, parts := s.power.parts + 1, domRef := (o.val = 1, o.val = 1) } ∧
        (r.val = 1 ∨ (∀ h : Fin 16, s.hods[h].queue = []) →
          SameBut [.free, .evolu, .dict, .power, .pointing] s t ∧ t.pointing.written = s.pointing.written + 1)) ∧
      (s.power.refs.getD o true = false → ∃ t, exec (.referenceLoss r) s = .next t ∧ SameBut [.host, .rigger, .power] s t ∧ off s t 4 s.power.mv)) ∧
    (∀ mv, (50000 ≤ mv → exec (.underVoltageTrip mv) s = .next s) ∧ (mv ≤ 58000 → exec (.overVoltageTrip mv) s = .next s) ∧
      (mv < 50000 → ∃ t, exec (.underVoltageTrip mv) s = .next t ∧ SameBut [.host, .rigger, .power] s t ∧ off s t (if s.power.removal = 0 then 1 else 5) mv) ∧
      (58000 < mv → mv ≤ 60000 → ∃ t, exec (.overVoltageTrip mv) s = .next t ∧ SameBut [.host, .rigger, .power] s t ∧ off s t 2 mv)) ∧
    ((∀ f : Fin 9, ∀ x ∈ s.host.funcs[f].streams, x.2.entries = [] ∧ x.2.batches = []) → (∀ c : Fin 16, s.crews[c].launch = none) →
      (∀ p : Fin 16, portWorks s.rigger.ports[p] = false) → exec .idleEntry s = .next { s with power := { s.power with idle := true } }) ∧
    ∀ r : Req, MayWrite s r 0x2400 3 [1] 3 → s.power.removal = 0 →
      ∃ t, exec (.prepareForRemoval r 1) s = .next t ∧ SameBut [.power, .evolu] s t ∧
        t.power = { s.power with quiesced := true, removal := if s.host.funcs.toList.any fun k => k.streams.any fun x => !x.2.entries.isEmpty then 1 else 3 }

/-- COLD_START from Off: the timebase at 0, stored values from flash, every Crew, stream, session and counter as after power-on, the epoch one higher, the repair map kept, as flash holds it.
WARM_RESET asked for by a requester or by the module, WARM_RESET_BRING_UP and WATCHDOG_EXPIRY: a warm reset with its cause. PART_RESET is counted; a Course loses its Pallet contents
(R384, R391, R436 to R441). -/
def Obligations.ColdAndWarmResets : Prop :=
  ∀ s : State,
    (∀ lasers : List Nat, s.power.on = false → s.pointing.clearMap = false → ∃ t, exec (.coldStart lasers) s = .next t ∧ t.pending = s.pending ∧ t.now = 0 ∧ t.power.on = true ∧
      NewEpoch s t ∧ t.evolu.addr = 0 ∧ t.evolu.hint = s.evolu.hint ∧ t.power.colds = s.power.colds + 1 ∧ t.power.lastShut = s.power.flashShut.getD (0, 0, 0) ∧
      t.dict.vals = s.dict.flash ∧ t.dict.flash = s.dict.flash ∧ t.dict.ctr = [] ∧ t.crews = Vector.replicate 16 Crew.init ∧ t.hods = Vector.replicate 16 Hod.init ∧
      t.cox = Vector.replicate 8 CoxPart.init ∧ t.counters = Counters.init ∧ t.host.mem = s.host.mem ∧ t.host.up = false ∧ t.sec.owner = s.sec.owner ∧
      (∀ f : Fin 9, t.host.funcs[f].streams = []) ∧ (∀ p : Fin 16, t.rigger.ports[p] = coldPort s.rigger p) ∧
      ∀ n : Fin 8, t.pallets[n].mem.cells = [] ∧
        (s.dict.flashBad = false → t.courses[n].laneMap = s.courses[n].laneMap ∧ t.courses[n].badLanes = s.courses[n].badLanes ∧ t.pallets[n].bankMap = s.pallets[n].bankMap) ∧
        (s.dict.flashBad = true → t.courses[n].laneMap = s.pointing.flashMap.courses[n].laneMap ∧ t.courses[n].badLanes = s.pointing.flashMap.courses[n].badLanes ∧
          t.pallets[n].bankMap = s.pointing.flashMap.pallets[n].bankMap)) ∧
    (s.power.on = true → s.now.toNat + 10000000000 < 2 ^ 64 →
      (∃ t, exec .watchdogExpiry s = .next t ∧ WarmlyReset s t 3 ∧ t.power.dogs = s.power.dogs + 1) ∧
      (resetWaits s = true → ∃ t, exec (.warmReset none) s = .next t ∧ WarmlyReset s t 4) ∧
      (resetWaits s = false → exec (.warmReset none) s = .next s) ∧
      ∀ r : Req,
        (MayWrite s r 0x2400 1 [1] 3 → ∃ t, exec (.warmReset (some r)) s = .next t ∧ WarmlyReset s t 1 ∧ (t.power.bringUp = .no ∨ t.power.bringUp = .rom)) ∧
        (MayWrite s r 0x2400 1 [2] 3 → (∀ n, n < 8 → partValid s n = false) →
          ∃ t, exec (.warmResetBringUp r) s = .next t ∧ WarmlyReset s t 2 ∧ (t.power.bringUp = .full ∨ t.power.bringUp = .rom))) ∧
    (s.power.on = true → ∀ n : Nat,
      exec (.partReset 3 n) s = .next { s with power := { s.power with parts := s.power.parts + 1 } } ∧
      (Calm s → s.courses[fin8 n].queue = [] → ∃ t, exec (.partReset 0 n) s = .next t ∧ SameBut [.free, .courses, .pallets, .power] s t ∧
        t.power = { s.power with parts := s.power.parts + 1 } ∧ t.courses[fin8 n].queue = [] ∧ t.courses[fin8 n].sticky = s.courses[fin8 n].sticky ∧
        t.courses[fin8 n].offender = s.courses[fin8 n].offender ∧ t.pallets[fin8 n].mem.cells = [] ∧ t.pallets[fin8 n].ue = [] ∧
        ∀ m, m ≠ fin8 n → t.courses[m] = s.courses[m] ∧ t.pallets[m] = s.pallets[m]))

/-! ## Security and counters -/

/-- ADVANCE_ROLLBACK_COUNTER raises the counter to the running image's number; BURN_OWNER_KEY_HASH blows the fuses in the bring-up state; ATTESTATION_NONCE signs a report for its
requester. GROUP_CONFIG_WRITE starts a group anew; COUNTER_SAMPLE writes a record or counts a lost one; TRACE_DROP is counted and leaves GAP; TRACE_SPILL_FULL ends the trace under
STOP (R446, R448, R450, R460 to R463, R471). -/
def Obligations.FusesReportsAndCounters : Prop :=
  ∀ s : State, s.power.on = true →
    (∀ r : Req, MayWrite s r 0x4100 6 [1] 3 →
      let mine := imgSvn (runningImage s)
      let other := imgSlot s (1 - s.sec.running)
      (imgKeys s other ≠ 0 ∨ mine ≤ imgSvn other → ∃ t, exec (.advanceRollbackCounter r 1) s = .next t ∧ SameBut [.sec, .evolu] s t ∧
        t.sec = { s.sec with rollback := max s.sec.rollback (min 64 mine) })) ∧
    (∀ (r : Req) (hash : BitVec 256), MayWrite s r 0x4100 4 (wordBytes hash) 3 → actorOf s r = (0, 0) → s.power.bringUp = .full → s.sec.ownerBlown = false →
      ∃ t, exec (.burnOwnerKeyHash r hash) s = .next t ∧ SameBut [.sec, .dict, .evolu] s t ∧ t.sec = { s.sec with owner := hash, ownerBlown := true }) ∧
    (∀ (r : Req) (nonce : BitVec 256), MayWrite s r 0x4200 1 (wordBytes nonce) 3 →
      ∃ t, exec (.attestationNonce r nonce) s = .next t ∧ SameBut [.free, .sec, .dict, .evolu] s t ∧ reportOf t r = reportBytes s r nonce s.free ∧
        ∀ x, x ≠ r → reportOf t x = reportOf s x) ∧
    (∀ (r : Req) (g : Fin 80) (d : List Byte), MayWrite s r (0x9000 + g) 1 d 2 →
      ∃ t, exec (.groupConfigWrite r g d) s = .next t ∧ SameBut [.counters, .evolu] s t ∧ t.counters = { s.counters with groups := t.counters.groups } ∧
        t.counters.groups = s.counters.groups.set g
          { s.counters.groups[g] with config := d, state := if gMode d = 0 then 0 else 1, seq := 0, gap := 0, reset := false }) ∧
    (∀ g : Fin 80,
      let k := s.counters.groups[g]
      k.state = 1 → gMode k.config = 1 → unitThere s (gOwner g) (gKind k.config) (gUnit k.config) = true →
      (∃ t, exec (.counterSample g true) s = .next t ∧ SameBut [.now, .counters] s t ∧
        t.counters = { s.counters with groups := s.counters.groups.set g { k with seq := k.seq + 1, gap := k.gap + 1, lost := k.lost + 1 } }) ∧
      ∃ t, exec (.counterSample g false) s = .next t ∧ SameBut [.now, .free, .hbm, .dict, .counters] s t ∧
        t.counters.groups = s.counters.groups.set g { k with records := k.records + 1, seq := k.seq + 1, gap := 0, reset := false } ∧
        ringHead t g k.config = (ringHead s g k.config + 128) % (if gOwner g = 8 then min (gSize k.config) (2 ^ 28) else gSize k.config)) ∧
    (∀ (k : Fin 4) (bytes instrs : BitVec 32), s.counters.trace.state = 1 → traceStop s = false → (∀ c : Fin 16, s.crews[c].attempt = none) →
      ∃ t, exec (.traceDrop k bytes instrs) s = .next t ∧ SameBut [.free, .dict, .counters] s t ∧ t.counters.trace.written = s.counters.trace.written + 9 ∧
        t.counters.trace.head = (s.counters.trace.head + 9) % 2 ^ 28 ∧ t.counters.trace.state = 1 ∧ ctrGet t 0 0x9803 1 = (ctrGet s 0 0x9803 1 + 1) % 2 ^ 64) ∧
    (s.counters.trace.state = 1 → traceStop s = true →
      exec .traceSpillFull s = .next { s with counters := { s.counters with trace := { s.counters.trace with state := 2 } } })
end

