-- ==== Sys2Proof/Laws/State.lean ====
section
/-! SUPPORT. What each record update leaves alone: one lemma per field per update, and what it leaves in its own place. -/

namespace Sys2Proof.Machine

open Sys2Proof

@[simp] theorem updCourse_pending (s : State) (n : Fin 8) (g : Course → Course) : (updCourse s n g).pending = s.pending := rfl
@[simp] theorem updCourse_now (s : State) (n : Fin 8) (g : Course → Course) : (updCourse s n g).now = s.now := rfl
@[simp] theorem updCourse_free (s : State) (n : Fin 8) (g : Course → Course) : (updCourse s n g).free = s.free := rfl
@[simp] theorem updCourse_trowels (s : State) (n : Fin 8) (g : Course → Course) : (updCourse s n g).trowels = s.trowels := rfl
@[simp] theorem updCourse_pallets (s : State) (n : Fin 8) (g : Course → Course) : (updCourse s n g).pallets = s.pallets := rfl
@[simp] theorem updCourse_hods (s : State) (n : Fin 8) (g : Course → Course) : (updCourse s n g).hods = s.hods := rfl
@[simp] theorem updCourse_hbm (s : State) (n : Fin 8) (g : Course → Course) : (updCourse s n g).hbm = s.hbm := rfl
@[simp] theorem updCourse_host (s : State) (n : Fin 8) (g : Course → Course) : (updCourse s n g).host = s.host := rfl
@[simp] theorem updCourse_journal (s : State) (n : Fin 8) (g : Course → Course) : (updCourse s n g).journal = s.journal := rfl
@[simp] theorem updCourse_rigger (s : State) (n : Fin 8) (g : Course → Course) : (updCourse s n g).rigger = s.rigger := rfl
@[simp] theorem updCourse_crews (s : State) (n : Fin 8) (g : Course → Course) : (updCourse s n g).crews = s.crews := rfl
@[simp] theorem updCourse_cards (s : State) (n : Fin 8) (g : Course → Course) : (updCourse s n g).cards = s.cards := rfl
@[simp] theorem updCourse_cox (s : State) (n : Fin 8) (g : Course → Course) : (updCourse s n g).cox = s.cox := rfl
@[simp] theorem updCourse_evolu (s : State) (n : Fin 8) (g : Course → Course) : (updCourse s n g).evolu = s.evolu := rfl
@[simp] theorem updCourse_dict (s : State) (n : Fin 8) (g : Course → Course) : (updCourse s n g).dict = s.dict := rfl
@[simp] theorem updCourse_power (s : State) (n : Fin 8) (g : Course → Course) : (updCourse s n g).power = s.power := rfl
@[simp] theorem updCourse_sec (s : State) (n : Fin 8) (g : Course → Course) : (updCourse s n g).sec = s.sec := rfl
@[simp] theorem updCourse_pointing (s : State) (n : Fin 8) (g : Course → Course) : (updCourse s n g).pointing = s.pointing := rfl
@[simp] theorem updCourse_counters (s : State) (n : Fin 8) (g : Course → Course) : (updCourse s n g).counters = s.counters := rfl
@[simp] theorem updCourse_out (s : State) (n : Fin 8) (g : Course → Course) : (updCourse s n g).out = s.out := rfl

@[simp] theorem updTrowel_pending (s : State) (n : Fin 8) (g : Trowel → Trowel) : (updTrowel s n g).pending = s.pending := rfl
@[simp] theorem updTrowel_now (s : State) (n : Fin 8) (g : Trowel → Trowel) : (updTrowel s n g).now = s.now := rfl
@[simp] theorem updTrowel_free (s : State) (n : Fin 8) (g : Trowel → Trowel) : (updTrowel s n g).free = s.free := rfl
@[simp] theorem updTrowel_courses (s : State) (n : Fin 8) (g : Trowel → Trowel) : (updTrowel s n g).courses = s.courses := rfl
@[simp] theorem updTrowel_pallets (s : State) (n : Fin 8) (g : Trowel → Trowel) : (updTrowel s n g).pallets = s.pallets := rfl
@[simp] theorem updTrowel_hods (s : State) (n : Fin 8) (g : Trowel → Trowel) : (updTrowel s n g).hods = s.hods := rfl
@[simp] theorem updTrowel_hbm (s : State) (n : Fin 8) (g : Trowel → Trowel) : (updTrowel s n g).hbm = s.hbm := rfl
@[simp] theorem updTrowel_host (s : State) (n : Fin 8) (g : Trowel → Trowel) : (updTrowel s n g).host = s.host := rfl
@[simp] theorem updTrowel_journal (s : State) (n : Fin 8) (g : Trowel → Trowel) : (updTrowel s n g).journal = s.journal := rfl
@[simp] theorem updTrowel_rigger (s : State) (n : Fin 8) (g : Trowel → Trowel) : (updTrowel s n g).rigger = s.rigger := rfl
@[simp] theorem updTrowel_crews (s : State) (n : Fin 8) (g : Trowel → Trowel) : (updTrowel s n g).crews = s.crews := rfl
@[simp] theorem updTrowel_cards (s : State) (n : Fin 8) (g : Trowel → Trowel) : (updTrowel s n g).cards = s.cards := rfl
@[simp] theorem updTrowel_cox (s : State) (n : Fin 8) (g : Trowel → Trowel) : (updTrowel s n g).cox = s.cox := rfl
@[simp] theorem updTrowel_evolu (s : State) (n : Fin 8) (g : Trowel → Trowel) : (updTrowel s n g).evolu = s.evolu := rfl
@[simp] theorem updTrowel_dict (s : State) (n : Fin 8) (g : Trowel → Trowel) : (updTrowel s n g).dict = s.dict := rfl
@[simp] theorem updTrowel_power (s : State) (n : Fin 8) (g : Trowel → Trowel) : (updTrowel s n g).power = s.power := rfl
@[simp] theorem updTrowel_sec (s : State) (n : Fin 8) (g : Trowel → Trowel) : (updTrowel s n g).sec = s.sec := rfl
@[simp] theorem updTrowel_pointing (s : State) (n : Fin 8) (g : Trowel → Trowel) : (updTrowel s n g).pointing = s.pointing := rfl
@[simp] theorem updTrowel_counters (s : State) (n : Fin 8) (g : Trowel → Trowel) : (updTrowel s n g).counters = s.counters := rfl
@[simp] theorem updTrowel_out (s : State) (n : Fin 8) (g : Trowel → Trowel) : (updTrowel s n g).out = s.out := rfl

@[simp] theorem updPallet_pending (s : State) (n : Fin 8) (g : Pallet → Pallet) : (updPallet s n g).pending = s.pending := rfl
@[simp] theorem updPallet_now (s : State) (n : Fin 8) (g : Pallet → Pallet) : (updPallet s n g).now = s.now := rfl
@[simp] theorem updPallet_free (s : State) (n : Fin 8) (g : Pallet → Pallet) : (updPallet s n g).free = s.free := rfl
@[simp] theorem updPallet_courses (s : State) (n : Fin 8) (g : Pallet → Pallet) : (updPallet s n g).courses = s.courses := rfl
@[simp] theorem updPallet_trowels (s : State) (n : Fin 8) (g : Pallet → Pallet) : (updPallet s n g).trowels = s.trowels := rfl
@[simp] theorem updPallet_hods (s : State) (n : Fin 8) (g : Pallet → Pallet) : (updPallet s n g).hods = s.hods := rfl
@[simp] theorem updPallet_hbm (s : State) (n : Fin 8) (g : Pallet → Pallet) : (updPallet s n g).hbm = s.hbm := rfl
@[simp] theorem updPallet_host (s : State) (n : Fin 8) (g : Pallet → Pallet) : (updPallet s n g).host = s.host := rfl
@[simp] theorem updPallet_journal (s : State) (n : Fin 8) (g : Pallet → Pallet) : (updPallet s n g).journal = s.journal := rfl
@[simp] theorem updPallet_rigger (s : State) (n : Fin 8) (g : Pallet → Pallet) : (updPallet s n g).rigger = s.rigger := rfl
@[simp] theorem updPallet_crews (s : State) (n : Fin 8) (g : Pallet → Pallet) : (updPallet s n g).crews = s.crews := rfl
@[simp] theorem updPallet_cards (s : State) (n : Fin 8) (g : Pallet → Pallet) : (updPallet s n g).cards = s.cards := rfl
@[simp] theorem updPallet_cox (s : State) (n : Fin 8) (g : Pallet → Pallet) : (updPallet s n g).cox = s.cox := rfl
@[simp] theorem updPallet_evolu (s : State) (n : Fin 8) (g : Pallet → Pallet) : (updPallet s n g).evolu = s.evolu := rfl
@[simp] theorem updPallet_dict (s : State) (n : Fin 8) (g : Pallet → Pallet) : (updPallet s n g).dict = s.dict := rfl
@[simp] theorem updPallet_power (s : State) (n : Fin 8) (g : Pallet → Pallet) : (updPallet s n g).power = s.power := rfl
@[simp] theorem updPallet_sec (s : State) (n : Fin 8) (g : Pallet → Pallet) : (updPallet s n g).sec = s.sec := rfl
@[simp] theorem updPallet_pointing (s : State) (n : Fin 8) (g : Pallet → Pallet) : (updPallet s n g).pointing = s.pointing := rfl
@[simp] theorem updPallet_counters (s : State) (n : Fin 8) (g : Pallet → Pallet) : (updPallet s n g).counters = s.counters := rfl
@[simp] theorem updPallet_out (s : State) (n : Fin 8) (g : Pallet → Pallet) : (updPallet s n g).out = s.out := rfl

@[simp] theorem updHod_pending (s : State) (n : Fin 16) (g : Hod → Hod) : (updHod s n g).pending = s.pending := rfl
@[simp] theorem updHod_now (s : State) (n : Fin 16) (g : Hod → Hod) : (updHod s n g).now = s.now := rfl
@[simp] theorem updHod_free (s : State) (n : Fin 16) (g : Hod → Hod) : (updHod s n g).free = s.free := rfl
@[simp] theorem updHod_courses (s : State) (n : Fin 16) (g : Hod → Hod) : (updHod s n g).courses = s.courses := rfl
@[simp] theorem updHod_trowels (s : State) (n : Fin 16) (g : Hod → Hod) : (updHod s n g).trowels = s.trowels := rfl
@[simp] theorem updHod_pallets (s : State) (n : Fin 16) (g : Hod → Hod) : (updHod s n g).pallets = s.pallets := rfl
@[simp] theorem updHod_hbm (s : State) (n : Fin 16) (g : Hod → Hod) : (updHod s n g).hbm = s.hbm := rfl
@[simp] theorem updHod_host (s : State) (n : Fin 16) (g : Hod → Hod) : (updHod s n g).host = s.host := rfl
@[simp] theorem updHod_journal (s : State) (n : Fin 16) (g : Hod → Hod) : (updHod s n g).journal = s.journal := rfl
@[simp] theorem updHod_rigger (s : State) (n : Fin 16) (g : Hod → Hod) : (updHod s n g).rigger = s.rigger := rfl
@[simp] theorem updHod_crews (s : State) (n : Fin 16) (g : Hod → Hod) : (updHod s n g).crews = s.crews := rfl
@[simp] theorem updHod_cards (s : State) (n : Fin 16) (g : Hod → Hod) : (updHod s n g).cards = s.cards := rfl
@[simp] theorem updHod_cox (s : State) (n : Fin 16) (g : Hod → Hod) : (updHod s n g).cox = s.cox := rfl
@[simp] theorem updHod_evolu (s : State) (n : Fin 16) (g : Hod → Hod) : (updHod s n g).evolu = s.evolu := rfl
@[simp] theorem updHod_dict (s : State) (n : Fin 16) (g : Hod → Hod) : (updHod s n g).dict = s.dict := rfl
@[simp] theorem updHod_power (s : State) (n : Fin 16) (g : Hod → Hod) : (updHod s n g).power = s.power := rfl
@[simp] theorem updHod_sec (s : State) (n : Fin 16) (g : Hod → Hod) : (updHod s n g).sec = s.sec := rfl
@[simp] theorem updHod_pointing (s : State) (n : Fin 16) (g : Hod → Hod) : (updHod s n g).pointing = s.pointing := rfl
@[simp] theorem updHod_counters (s : State) (n : Fin 16) (g : Hod → Hod) : (updHod s n g).counters = s.counters := rfl
@[simp] theorem updHod_out (s : State) (n : Fin 16) (g : Hod → Hod) : (updHod s n g).out = s.out := rfl

@[simp] theorem updCrew_pending (s : State) (n : Fin 16) (g : Crew → Crew) : (updCrew s n g).pending = s.pending := rfl
@[simp] theorem updCrew_now (s : State) (n : Fin 16) (g : Crew → Crew) : (updCrew s n g).now = s.now := rfl
@[simp] theorem updCrew_free (s : State) (n : Fin 16) (g : Crew → Crew) : (updCrew s n g).free = s.free := rfl
@[simp] theorem updCrew_courses (s : State) (n : Fin 16) (g : Crew → Crew) : (updCrew s n g).courses = s.courses := rfl
@[simp] theorem updCrew_trowels (s : State) (n : Fin 16) (g : Crew → Crew) : (updCrew s n g).trowels = s.trowels := rfl
@[simp] theorem updCrew_pallets (s : State) (n : Fin 16) (g : Crew → Crew) : (updCrew s n g).pallets = s.pallets := rfl
@[simp] theorem updCrew_hods (s : State) (n : Fin 16) (g : Crew → Crew) : (updCrew s n g).hods = s.hods := rfl
@[simp] theorem updCrew_hbm (s : State) (n : Fin 16) (g : Crew → Crew) : (updCrew s n g).hbm = s.hbm := rfl
@[simp] theorem updCrew_host (s : State) (n : Fin 16) (g : Crew → Crew) : (updCrew s n g).host = s.host := rfl
@[simp] theorem updCrew_journal (s : State) (n : Fin 16) (g : Crew → Crew) : (updCrew s n g).journal = s.journal := rfl
@[simp] theorem updCrew_rigger (s : State) (n : Fin 16) (g : Crew → Crew) : (updCrew s n g).rigger = s.rigger := rfl
@[simp] theorem updCrew_cards (s : State) (n : Fin 16) (g : Crew → Crew) : (updCrew s n g).cards = s.cards := rfl
@[simp] theorem updCrew_cox (s : State) (n : Fin 16) (g : Crew → Crew) : (updCrew s n g).cox = s.cox := rfl
@[simp] theorem updCrew_evolu (s : State) (n : Fin 16) (g : Crew → Crew) : (updCrew s n g).evolu = s.evolu := rfl
@[simp] theorem updCrew_dict (s : State) (n : Fin 16) (g : Crew → Crew) : (updCrew s n g).dict = s.dict := rfl
@[simp] theorem updCrew_power (s : State) (n : Fin 16) (g : Crew → Crew) : (updCrew s n g).power = s.power := rfl
@[simp] theorem updCrew_sec (s : State) (n : Fin 16) (g : Crew → Crew) : (updCrew s n g).sec = s.sec := rfl
@[simp] theorem updCrew_pointing (s : State) (n : Fin 16) (g : Crew → Crew) : (updCrew s n g).pointing = s.pointing := rfl
@[simp] theorem updCrew_counters (s : State) (n : Fin 16) (g : Crew → Crew) : (updCrew s n g).counters = s.counters := rfl
@[simp] theorem updCrew_out (s : State) (n : Fin 16) (g : Crew → Crew) : (updCrew s n g).out = s.out := rfl

@[simp] theorem updCox_pending (s : State) (n : Fin 8) (g : CoxPart → CoxPart) : (updCox s n g).pending = s.pending := rfl
@[simp] theorem updCox_now (s : State) (n : Fin 8) (g : CoxPart → CoxPart) : (updCox s n g).now = s.now := rfl
@[simp] theorem updCox_free (s : State) (n : Fin 8) (g : CoxPart → CoxPart) : (updCox s n g).free = s.free := rfl
@[simp] theorem updCox_courses (s : State) (n : Fin 8) (g : CoxPart → CoxPart) : (updCox s n g).courses = s.courses := rfl
@[simp] theorem updCox_trowels (s : State) (n : Fin 8) (g : CoxPart → CoxPart) : (updCox s n g).trowels = s.trowels := rfl
@[simp] theorem updCox_pallets (s : State) (n : Fin 8) (g : CoxPart → CoxPart) : (updCox s n g).pallets = s.pallets := rfl
@[simp] theorem updCox_hods (s : State) (n : Fin 8) (g : CoxPart → CoxPart) : (updCox s n g).hods = s.hods := rfl
@[simp] theorem updCox_hbm (s : State) (n : Fin 8) (g : CoxPart → CoxPart) : (updCox s n g).hbm = s.hbm := rfl
@[simp] theorem updCox_host (s : State) (n : Fin 8) (g : CoxPart → CoxPart) : (updCox s n g).host = s.host := rfl
@[simp] theorem updCox_journal (s : State) (n : Fin 8) (g : CoxPart → CoxPart) : (updCox s n g).journal = s.journal := rfl
@[simp] theorem updCox_rigger (s : State) (n : Fin 8) (g : CoxPart → CoxPart) : (updCox s n g).rigger = s.rigger := rfl
@[simp] theorem updCox_crews (s : State) (n : Fin 8) (g : CoxPart → CoxPart) : (updCox s n g).crews = s.crews := rfl
@[simp] theorem updCox_cards (s : State) (n : Fin 8) (g : CoxPart → CoxPart) : (updCox s n g).cards = s.cards := rfl
@[simp] theorem updCox_evolu (s : State) (n : Fin 8) (g : CoxPart → CoxPart) : (updCox s n g).evolu = s.evolu := rfl
@[simp] theorem updCox_dict (s : State) (n : Fin 8) (g : CoxPart → CoxPart) : (updCox s n g).dict = s.dict := rfl
@[simp] theorem updCox_power (s : State) (n : Fin 8) (g : CoxPart → CoxPart) : (updCox s n g).power = s.power := rfl
@[simp] theorem updCox_sec (s : State) (n : Fin 8) (g : CoxPart → CoxPart) : (updCox s n g).sec = s.sec := rfl
@[simp] theorem updCox_pointing (s : State) (n : Fin 8) (g : CoxPart → CoxPart) : (updCox s n g).pointing = s.pointing := rfl
@[simp] theorem updCox_counters (s : State) (n : Fin 8) (g : CoxPart → CoxPart) : (updCox s n g).counters = s.counters := rfl
@[simp] theorem updCox_out (s : State) (n : Fin 8) (g : CoxPart → CoxPart) : (updCox s n g).out = s.out := rfl

@[simp] theorem updFunc_pending (s : State) (n : Fin 9) (g : Func → Func) : (updFunc s n g).pending = s.pending := rfl
@[simp] theorem updFunc_now (s : State) (n : Fin 9) (g : Func → Func) : (updFunc s n g).now = s.now := rfl
@[simp] theorem updFunc_free (s : State) (n : Fin 9) (g : Func → Func) : (updFunc s n g).free = s.free := rfl
@[simp] theorem updFunc_courses (s : State) (n : Fin 9) (g : Func → Func) : (updFunc s n g).courses = s.courses := rfl
@[simp] theorem updFunc_trowels (s : State) (n : Fin 9) (g : Func → Func) : (updFunc s n g).trowels = s.trowels := rfl
@[simp] theorem updFunc_pallets (s : State) (n : Fin 9) (g : Func → Func) : (updFunc s n g).pallets = s.pallets := rfl
@[simp] theorem updFunc_hods (s : State) (n : Fin 9) (g : Func → Func) : (updFunc s n g).hods = s.hods := rfl
@[simp] theorem updFunc_hbm (s : State) (n : Fin 9) (g : Func → Func) : (updFunc s n g).hbm = s.hbm := rfl
@[simp] theorem updFunc_journal (s : State) (n : Fin 9) (g : Func → Func) : (updFunc s n g).journal = s.journal := rfl
@[simp] theorem updFunc_rigger (s : State) (n : Fin 9) (g : Func → Func) : (updFunc s n g).rigger = s.rigger := rfl
@[simp] theorem updFunc_crews (s : State) (n : Fin 9) (g : Func → Func) : (updFunc s n g).crews = s.crews := rfl
@[simp] theorem updFunc_cards (s : State) (n : Fin 9) (g : Func → Func) : (updFunc s n g).cards = s.cards := rfl
@[simp] theorem updFunc_cox (s : State) (n : Fin 9) (g : Func → Func) : (updFunc s n g).cox = s.cox := rfl
@[simp] theorem updFunc_evolu (s : State) (n : Fin 9) (g : Func → Func) : (updFunc s n g).evolu = s.evolu := rfl
@[simp] theorem updFunc_dict (s : State) (n : Fin 9) (g : Func → Func) : (updFunc s n g).dict = s.dict := rfl
@[simp] theorem updFunc_power (s : State) (n : Fin 9) (g : Func → Func) : (updFunc s n g).power = s.power := rfl
@[simp] theorem updFunc_sec (s : State) (n : Fin 9) (g : Func → Func) : (updFunc s n g).sec = s.sec := rfl
@[simp] theorem updFunc_pointing (s : State) (n : Fin 9) (g : Func → Func) : (updFunc s n g).pointing = s.pointing := rfl
@[simp] theorem updFunc_counters (s : State) (n : Fin 9) (g : Func → Func) : (updFunc s n g).counters = s.counters := rfl
@[simp] theorem updFunc_out (s : State) (n : Fin 9) (g : Func → Func) : (updFunc s n g).out = s.out := rfl

@[simp] theorem updPort_pending (s : State) (n : Fin 16) (g : Port → Port) : (updPort s n g).pending = s.pending := rfl
@[simp] theorem updPort_now (s : State) (n : Fin 16) (g : Port → Port) : (updPort s n g).now = s.now := rfl
@[simp] theorem updPort_free (s : State) (n : Fin 16) (g : Port → Port) : (updPort s n g).free = s.free := rfl
@[simp] theorem updPort_courses (s : State) (n : Fin 16) (g : Port → Port) : (updPort s n g).courses = s.courses := rfl
@[simp] theorem updPort_trowels (s : State) (n : Fin 16) (g : Port → Port) : (updPort s n g).trowels = s.trowels := rfl
@[simp] theorem updPort_pallets (s : State) (n : Fin 16) (g : Port → Port) : (updPort s n g).pallets = s.pallets := rfl
@[simp] theorem updPort_hods (s : State) (n : Fin 16) (g : Port → Port) : (updPort s n g).hods = s.hods := rfl
@[simp] theorem updPort_hbm (s : State) (n : Fin 16) (g : Port → Port) : (updPort s n g).hbm = s.hbm := rfl
@[simp] theorem updPort_host (s : State) (n : Fin 16) (g : Port → Port) : (updPort s n g).host = s.host := rfl
@[simp] theorem updPort_journal (s : State) (n : Fin 16) (g : Port → Port) : (updPort s n g).journal = s.journal := rfl
@[simp] theorem updPort_crews (s : State) (n : Fin 16) (g : Port → Port) : (updPort s n g).crews = s.crews := rfl
@[simp] theorem updPort_cards (s : State) (n : Fin 16) (g : Port → Port) : (updPort s n g).cards = s.cards := rfl
@[simp] theorem updPort_cox (s : State) (n : Fin 16) (g : Port → Port) : (updPort s n g).cox = s.cox := rfl
@[simp] theorem updPort_evolu (s : State) (n : Fin 16) (g : Port → Port) : (updPort s n g).evolu = s.evolu := rfl
@[simp] theorem updPort_dict (s : State) (n : Fin 16) (g : Port → Port) : (updPort s n g).dict = s.dict := rfl
@[simp] theorem updPort_power (s : State) (n : Fin 16) (g : Port → Port) : (updPort s n g).power = s.power := rfl
@[simp] theorem updPort_sec (s : State) (n : Fin 16) (g : Port → Port) : (updPort s n g).sec = s.sec := rfl
@[simp] theorem updPort_pointing (s : State) (n : Fin 16) (g : Port → Port) : (updPort s n g).pointing = s.pointing := rfl
@[simp] theorem updPort_counters (s : State) (n : Fin 16) (g : Port → Port) : (updPort s n g).counters = s.counters := rfl
@[simp] theorem updPort_out (s : State) (n : Fin 16) (g : Port → Port) : (updPort s n g).out = s.out := rfl

@[simp] theorem updBank_pending (s : State) (n : Fin 8) (g : Bank → Bank) : (updBank s n g).pending = s.pending := rfl
@[simp] theorem updBank_now (s : State) (n : Fin 8) (g : Bank → Bank) : (updBank s n g).now = s.now := rfl
@[simp] theorem updBank_free (s : State) (n : Fin 8) (g : Bank → Bank) : (updBank s n g).free = s.free := rfl
@[simp] theorem updBank_courses (s : State) (n : Fin 8) (g : Bank → Bank) : (updBank s n g).courses = s.courses := rfl
@[simp] theorem updBank_trowels (s : State) (n : Fin 8) (g : Bank → Bank) : (updBank s n g).trowels = s.trowels := rfl
@[simp] theorem updBank_pallets (s : State) (n : Fin 8) (g : Bank → Bank) : (updBank s n g).pallets = s.pallets := rfl
@[simp] theorem updBank_hods (s : State) (n : Fin 8) (g : Bank → Bank) : (updBank s n g).hods = s.hods := rfl
@[simp] theorem updBank_hbm (s : State) (n : Fin 8) (g : Bank → Bank) : (updBank s n g).hbm = s.hbm := rfl
@[simp] theorem updBank_host (s : State) (n : Fin 8) (g : Bank → Bank) : (updBank s n g).host = s.host := rfl
@[simp] theorem updBank_journal (s : State) (n : Fin 8) (g : Bank → Bank) : (updBank s n g).journal = s.journal := rfl
@[simp] theorem updBank_crews (s : State) (n : Fin 8) (g : Bank → Bank) : (updBank s n g).crews = s.crews := rfl
@[simp] theorem updBank_cards (s : State) (n : Fin 8) (g : Bank → Bank) : (updBank s n g).cards = s.cards := rfl
@[simp] theorem updBank_cox (s : State) (n : Fin 8) (g : Bank → Bank) : (updBank s n g).cox = s.cox := rfl
@[simp] theorem updBank_evolu (s : State) (n : Fin 8) (g : Bank → Bank) : (updBank s n g).evolu = s.evolu := rfl
@[simp] theorem updBank_dict (s : State) (n : Fin 8) (g : Bank → Bank) : (updBank s n g).dict = s.dict := rfl
@[simp] theorem updBank_power (s : State) (n : Fin 8) (g : Bank → Bank) : (updBank s n g).power = s.power := rfl
@[simp] theorem updBank_sec (s : State) (n : Fin 8) (g : Bank → Bank) : (updBank s n g).sec = s.sec := rfl
@[simp] theorem updBank_pointing (s : State) (n : Fin 8) (g : Bank → Bank) : (updBank s n g).pointing = s.pointing := rfl
@[simp] theorem updBank_counters (s : State) (n : Fin 8) (g : Bank → Bank) : (updBank s n g).counters = s.counters := rfl
@[simp] theorem updBank_out (s : State) (n : Fin 8) (g : Bank → Bank) : (updBank s n g).out = s.out := rfl

@[simp] theorem updStack_pending (s : State) (n : Fin 20) (g : Stack → Stack) : (updStack s n g).pending = s.pending := rfl
@[simp] theorem updStack_now (s : State) (n : Fin 20) (g : Stack → Stack) : (updStack s n g).now = s.now := rfl
@[simp] theorem updStack_free (s : State) (n : Fin 20) (g : Stack → Stack) : (updStack s n g).free = s.free := rfl
@[simp] theorem updStack_courses (s : State) (n : Fin 20) (g : Stack → Stack) : (updStack s n g).courses = s.courses := rfl
@[simp] theorem updStack_trowels (s : State) (n : Fin 20) (g : Stack → Stack) : (updStack s n g).trowels = s.trowels := rfl
@[simp] theorem updStack_pallets (s : State) (n : Fin 20) (g : Stack → Stack) : (updStack s n g).pallets = s.pallets := rfl
@[simp] theorem updStack_hods (s : State) (n : Fin 20) (g : Stack → Stack) : (updStack s n g).hods = s.hods := rfl
@[simp] theorem updStack_host (s : State) (n : Fin 20) (g : Stack → Stack) : (updStack s n g).host = s.host := rfl
@[simp] theorem updStack_journal (s : State) (n : Fin 20) (g : Stack → Stack) : (updStack s n g).journal = s.journal := rfl
@[simp] theorem updStack_rigger (s : State) (n : Fin 20) (g : Stack → Stack) : (updStack s n g).rigger = s.rigger := rfl
@[simp] theorem updStack_crews (s : State) (n : Fin 20) (g : Stack → Stack) : (updStack s n g).crews = s.crews := rfl
@[simp] theorem updStack_cards (s : State) (n : Fin 20) (g : Stack → Stack) : (updStack s n g).cards = s.cards := rfl
@[simp] theorem updStack_cox (s : State) (n : Fin 20) (g : Stack → Stack) : (updStack s n g).cox = s.cox := rfl
@[simp] theorem updStack_evolu (s : State) (n : Fin 20) (g : Stack → Stack) : (updStack s n g).evolu = s.evolu := rfl
@[simp] theorem updStack_dict (s : State) (n : Fin 20) (g : Stack → Stack) : (updStack s n g).dict = s.dict := rfl
@[simp] theorem updStack_power (s : State) (n : Fin 20) (g : Stack → Stack) : (updStack s n g).power = s.power := rfl
@[simp] theorem updStack_sec (s : State) (n : Fin 20) (g : Stack → Stack) : (updStack s n g).sec = s.sec := rfl
@[simp] theorem updStack_pointing (s : State) (n : Fin 20) (g : Stack → Stack) : (updStack s n g).pointing = s.pointing := rfl
@[simp] theorem updStack_counters (s : State) (n : Fin 20) (g : Stack → Stack) : (updStack s n g).counters = s.counters := rfl
@[simp] theorem updStack_out (s : State) (n : Fin 20) (g : Stack → Stack) : (updStack s n g).out = s.out := rfl

@[simp] theorem updSession_pending (s : State) (n : Fin 8) (g : Session → Session) : (updSession s n g).pending = s.pending := rfl
@[simp] theorem updSession_now (s : State) (n : Fin 8) (g : Session → Session) : (updSession s n g).now = s.now := rfl
@[simp] theorem updSession_free (s : State) (n : Fin 8) (g : Session → Session) : (updSession s n g).free = s.free := rfl
@[simp] theorem updSession_courses (s : State) (n : Fin 8) (g : Session → Session) : (updSession s n g).courses = s.courses := rfl
@[simp] theorem updSession_trowels (s : State) (n : Fin 8) (g : Session → Session) : (updSession s n g).trowels = s.trowels := rfl
@[simp] theorem updSession_pallets (s : State) (n : Fin 8) (g : Session → Session) : (updSession s n g).pallets = s.pallets := rfl
@[simp] theorem updSession_hods (s : State) (n : Fin 8) (g : Session → Session) : (updSession s n g).hods = s.hods := rfl
@[simp] theorem updSession_hbm (s : State) (n : Fin 8) (g : Session → Session) : (updSession s n g).hbm = s.hbm := rfl
@[simp] theorem updSession_host (s : State) (n : Fin 8) (g : Session → Session) : (updSession s n g).host = s.host := rfl
@[simp] theorem updSession_journal (s : State) (n : Fin 8) (g : Session → Session) : (updSession s n g).journal = s.journal := rfl
@[simp] theorem updSession_rigger (s : State) (n : Fin 8) (g : Session → Session) : (updSession s n g).rigger = s.rigger := rfl
@[simp] theorem updSession_crews (s : State) (n : Fin 8) (g : Session → Session) : (updSession s n g).crews = s.crews := rfl
@[simp] theorem updSession_cards (s : State) (n : Fin 8) (g : Session → Session) : (updSession s n g).cards = s.cards := rfl
@[simp] theorem updSession_cox (s : State) (n : Fin 8) (g : Session → Session) : (updSession s n g).cox = s.cox := rfl
@[simp] theorem updSession_dict (s : State) (n : Fin 8) (g : Session → Session) : (updSession s n g).dict = s.dict := rfl
@[simp] theorem updSession_power (s : State) (n : Fin 8) (g : Session → Session) : (updSession s n g).power = s.power := rfl
@[simp] theorem updSession_sec (s : State) (n : Fin 8) (g : Session → Session) : (updSession s n g).sec = s.sec := rfl
@[simp] theorem updSession_pointing (s : State) (n : Fin 8) (g : Session → Session) : (updSession s n g).pointing = s.pointing := rfl
@[simp] theorem updSession_counters (s : State) (n : Fin 8) (g : Session → Session) : (updSession s n g).counters = s.counters := rfl
@[simp] theorem updSession_out (s : State) (n : Fin 8) (g : Session → Session) : (updSession s n g).out = s.out := rfl

@[simp] theorem updAttempt_pending (s : State) (n : Fin 16) (g : Attempt → Attempt) : (updAttempt s n g).pending = s.pending := rfl
@[simp] theorem updAttempt_now (s : State) (n : Fin 16) (g : Attempt → Attempt) : (updAttempt s n g).now = s.now := rfl
@[simp] theorem updAttempt_free (s : State) (n : Fin 16) (g : Attempt → Attempt) : (updAttempt s n g).free = s.free := rfl
@[simp] theorem updAttempt_courses (s : State) (n : Fin 16) (g : Attempt → Attempt) : (updAttempt s n g).courses = s.courses := rfl
@[simp] theorem updAttempt_trowels (s : State) (n : Fin 16) (g : Attempt → Attempt) : (updAttempt s n g).trowels = s.trowels := rfl
@[simp] theorem updAttempt_pallets (s : State) (n : Fin 16) (g : Attempt → Attempt) : (updAttempt s n g).pallets = s.pallets := rfl
@[simp] theorem updAttempt_hods (s : State) (n : Fin 16) (g : Attempt → Attempt) : (updAttempt s n g).hods = s.hods := rfl
@[simp] theorem updAttempt_hbm (s : State) (n : Fin 16) (g : Attempt → Attempt) : (updAttempt s n g).hbm = s.hbm := rfl
@[simp] theorem updAttempt_host (s : State) (n : Fin 16) (g : Attempt → Attempt) : (updAttempt s n g).host = s.host := rfl
@[simp] theorem updAttempt_journal (s : State) (n : Fin 16) (g : Attempt → Attempt) : (updAttempt s n g).journal = s.journal := rfl
@[simp] theorem updAttempt_rigger (s : State) (n : Fin 16) (g : Attempt → Attempt) : (updAttempt s n g).rigger = s.rigger := rfl
@[simp] theorem updAttempt_cards (s : State) (n : Fin 16) (g : Attempt → Attempt) : (updAttempt s n g).cards = s.cards := rfl
@[simp] theorem updAttempt_cox (s : State) (n : Fin 16) (g : Attempt → Attempt) : (updAttempt s n g).cox = s.cox := rfl
@[simp] theorem updAttempt_evolu (s : State) (n : Fin 16) (g : Attempt → Attempt) : (updAttempt s n g).evolu = s.evolu := rfl
@[simp] theorem updAttempt_dict (s : State) (n : Fin 16) (g : Attempt → Attempt) : (updAttempt s n g).dict = s.dict := rfl
@[simp] theorem updAttempt_power (s : State) (n : Fin 16) (g : Attempt → Attempt) : (updAttempt s n g).power = s.power := rfl
@[simp] theorem updAttempt_sec (s : State) (n : Fin 16) (g : Attempt → Attempt) : (updAttempt s n g).sec = s.sec := rfl
@[simp] theorem updAttempt_pointing (s : State) (n : Fin 16) (g : Attempt → Attempt) : (updAttempt s n g).pointing = s.pointing := rfl
@[simp] theorem updAttempt_counters (s : State) (n : Fin 16) (g : Attempt → Attempt) : (updAttempt s n g).counters = s.counters := rfl
@[simp] theorem updAttempt_out (s : State) (n : Fin 16) (g : Attempt → Attempt) : (updAttempt s n g).out = s.out := rfl

@[simp] theorem updTile_pending (s : State) (n : Fin 8) (h : Nat) (g : Tile → Tile) : (updTile s n h g).pending = s.pending := rfl
@[simp] theorem updTile_now (s : State) (n : Fin 8) (h : Nat) (g : Tile → Tile) : (updTile s n h g).now = s.now := rfl
@[simp] theorem updTile_free (s : State) (n : Fin 8) (h : Nat) (g : Tile → Tile) : (updTile s n h g).free = s.free := rfl
@[simp] theorem updTile_trowels (s : State) (n : Fin 8) (h : Nat) (g : Tile → Tile) : (updTile s n h g).trowels = s.trowels := rfl
@[simp] theorem updTile_pallets (s : State) (n : Fin 8) (h : Nat) (g : Tile → Tile) : (updTile s n h g).pallets = s.pallets := rfl
@[simp] theorem updTile_hods (s : State) (n : Fin 8) (h : Nat) (g : Tile → Tile) : (updTile s n h g).hods = s.hods := rfl
@[simp] theorem updTile_hbm (s : State) (n : Fin 8) (h : Nat) (g : Tile → Tile) : (updTile s n h g).hbm = s.hbm := rfl
@[simp] theorem updTile_host (s : State) (n : Fin 8) (h : Nat) (g : Tile → Tile) : (updTile s n h g).host = s.host := rfl
@[simp] theorem updTile_journal (s : State) (n : Fin 8) (h : Nat) (g : Tile → Tile) : (updTile s n h g).journal = s.journal := rfl
@[simp] theorem updTile_rigger (s : State) (n : Fin 8) (h : Nat) (g : Tile → Tile) : (updTile s n h g).rigger = s.rigger := rfl
@[simp] theorem updTile_crews (s : State) (n : Fin 8) (h : Nat) (g : Tile → Tile) : (updTile s n h g).crews = s.crews := rfl
@[simp] theorem updTile_cards (s : State) (n : Fin 8) (h : Nat) (g : Tile → Tile) : (updTile s n h g).cards = s.cards := rfl
@[simp] theorem updTile_cox (s : State) (n : Fin 8) (h : Nat) (g : Tile → Tile) : (updTile s n h g).cox = s.cox := rfl
@[simp] theorem updTile_evolu (s : State) (n : Fin 8) (h : Nat) (g : Tile → Tile) : (updTile s n h g).evolu = s.evolu := rfl
@[simp] theorem updTile_dict (s : State) (n : Fin 8) (h : Nat) (g : Tile → Tile) : (updTile s n h g).dict = s.dict := rfl
@[simp] theorem updTile_power (s : State) (n : Fin 8) (h : Nat) (g : Tile → Tile) : (updTile s n h g).power = s.power := rfl
@[simp] theorem updTile_sec (s : State) (n : Fin 8) (h : Nat) (g : Tile → Tile) : (updTile s n h g).sec = s.sec := rfl
@[simp] theorem updTile_pointing (s : State) (n : Fin 8) (h : Nat) (g : Tile → Tile) : (updTile s n h g).pointing = s.pointing := rfl
@[simp] theorem updTile_counters (s : State) (n : Fin 8) (h : Nat) (g : Tile → Tile) : (updTile s n h g).counters = s.counters := rfl
@[simp] theorem updTile_out (s : State) (n : Fin 8) (h : Nat) (g : Tile → Tile) : (updTile s n h g).out = s.out := rfl

@[simp] theorem updStream_pending (s : State) (f : Fin 9) (q : Nat) (g : Stream → Stream) : (updStream s f q g).pending = s.pending := rfl
@[simp] theorem updStream_now (s : State) (f : Fin 9) (q : Nat) (g : Stream → Stream) : (updStream s f q g).now = s.now := rfl
@[simp] theorem updStream_free (s : State) (f : Fin 9) (q : Nat) (g : Stream → Stream) : (updStream s f q g).free = s.free := rfl
@[simp] theorem updStream_courses (s : State) (f : Fin 9) (q : Nat) (g : Stream → Stream) : (updStream s f q g).courses = s.courses := rfl
@[simp] theorem updStream_trowels (s : State) (f : Fin 9) (q : Nat) (g : Stream → Stream) : (updStream s f q g).trowels = s.trowels := rfl
@[simp] theorem updStream_pallets (s : State) (f : Fin 9) (q : Nat) (g : Stream → Stream) : (updStream s f q g).pallets = s.pallets := rfl
@[simp] theorem updStream_hods (s : State) (f : Fin 9) (q : Nat) (g : Stream → Stream) : (updStream s f q g).hods = s.hods := rfl
@[simp] theorem updStream_hbm (s : State) (f : Fin 9) (q : Nat) (g : Stream → Stream) : (updStream s f q g).hbm = s.hbm := rfl
@[simp] theorem updStream_journal (s : State) (f : Fin 9) (q : Nat) (g : Stream → Stream) : (updStream s f q g).journal = s.journal := rfl
@[simp] theorem updStream_rigger (s : State) (f : Fin 9) (q : Nat) (g : Stream → Stream) : (updStream s f q g).rigger = s.rigger := rfl
@[simp] theorem updStream_crews (s : State) (f : Fin 9) (q : Nat) (g : Stream → Stream) : (updStream s f q g).crews = s.crews := rfl
@[simp] theorem updStream_cards (s : State) (f : Fin 9) (q : Nat) (g : Stream → Stream) : (updStream s f q g).cards = s.cards := rfl
@[simp] theorem updStream_cox (s : State) (f : Fin 9) (q : Nat) (g : Stream → Stream) : (updStream s f q g).cox = s.cox := rfl
@[simp] theorem updStream_evolu (s : State) (f : Fin 9) (q : Nat) (g : Stream → Stream) : (updStream s f q g).evolu = s.evolu := rfl
@[simp] theorem updStream_dict (s : State) (f : Fin 9) (q : Nat) (g : Stream → Stream) : (updStream s f q g).dict = s.dict := rfl
@[simp] theorem updStream_power (s : State) (f : Fin 9) (q : Nat) (g : Stream → Stream) : (updStream s f q g).power = s.power := rfl
@[simp] theorem updStream_sec (s : State) (f : Fin 9) (q : Nat) (g : Stream → Stream) : (updStream s f q g).sec = s.sec := rfl
@[simp] theorem updStream_pointing (s : State) (f : Fin 9) (q : Nat) (g : Stream → Stream) : (updStream s f q g).pointing = s.pointing := rfl
@[simp] theorem updStream_counters (s : State) (f : Fin 9) (q : Nat) (g : Stream → Stream) : (updStream s f q g).counters = s.counters := rfl
@[simp] theorem updStream_out (s : State) (f : Fin 9) (q : Nat) (g : Stream → Stream) : (updStream s f q g).out = s.out := rfl

@[simp] theorem emit_pending (s : State) (o : Out) : (emit s o).pending = s.pending := rfl
@[simp] theorem emit_now (s : State) (o : Out) : (emit s o).now = s.now := rfl
@[simp] theorem emit_free (s : State) (o : Out) : (emit s o).free = s.free := rfl
@[simp] theorem emit_courses (s : State) (o : Out) : (emit s o).courses = s.courses := rfl
@[simp] theorem emit_trowels (s : State) (o : Out) : (emit s o).trowels = s.trowels := rfl
@[simp] theorem emit_pallets (s : State) (o : Out) : (emit s o).pallets = s.pallets := rfl
@[simp] theorem emit_hods (s : State) (o : Out) : (emit s o).hods = s.hods := rfl
@[simp] theorem emit_hbm (s : State) (o : Out) : (emit s o).hbm = s.hbm := rfl
@[simp] theorem emit_host (s : State) (o : Out) : (emit s o).host = s.host := rfl
@[simp] theorem emit_journal (s : State) (o : Out) : (emit s o).journal = s.journal := rfl
@[simp] theorem emit_rigger (s : State) (o : Out) : (emit s o).rigger = s.rigger := rfl
@[simp] theorem emit_crews (s : State) (o : Out) : (emit s o).crews = s.crews := rfl
@[simp] theorem emit_cards (s : State) (o : Out) : (emit s o).cards = s.cards := rfl
@[simp] theorem emit_cox (s : State) (o : Out) : (emit s o).cox = s.cox := rfl
@[simp] theorem emit_evolu (s : State) (o : Out) : (emit s o).evolu = s.evolu := rfl
@[simp] theorem emit_dict (s : State) (o : Out) : (emit s o).dict = s.dict := rfl
@[simp] theorem emit_power (s : State) (o : Out) : (emit s o).power = s.power := rfl
@[simp] theorem emit_sec (s : State) (o : Out) : (emit s o).sec = s.sec := rfl
@[simp] theorem emit_pointing (s : State) (o : Out) : (emit s o).pointing = s.pointing := rfl
@[simp] theorem emit_counters (s : State) (o : Out) : (emit s o).counters = s.counters := rfl

@[simp] theorem ctrAdd_pending (s : State) (f idx sub n : Nat) : (ctrAdd s f idx sub n).pending = s.pending := rfl
@[simp] theorem ctrAdd_now (s : State) (f idx sub n : Nat) : (ctrAdd s f idx sub n).now = s.now := rfl
@[simp] theorem ctrAdd_free (s : State) (f idx sub n : Nat) : (ctrAdd s f idx sub n).free = s.free := rfl
@[simp] theorem ctrAdd_courses (s : State) (f idx sub n : Nat) : (ctrAdd s f idx sub n).courses = s.courses := rfl
@[simp] theorem ctrAdd_trowels (s : State) (f idx sub n : Nat) : (ctrAdd s f idx sub n).trowels = s.trowels := rfl
@[simp] theorem ctrAdd_pallets (s : State) (f idx sub n : Nat) : (ctrAdd s f idx sub n).pallets = s.pallets := rfl
@[simp] theorem ctrAdd_hods (s : State) (f idx sub n : Nat) : (ctrAdd s f idx sub n).hods = s.hods := rfl
@[simp] theorem ctrAdd_hbm (s : State) (f idx sub n : Nat) : (ctrAdd s f idx sub n).hbm = s.hbm := rfl
@[simp] theorem ctrAdd_host (s : State) (f idx sub n : Nat) : (ctrAdd s f idx sub n).host = s.host := rfl
@[simp] theorem ctrAdd_journal (s : State) (f idx sub n : Nat) : (ctrAdd s f idx sub n).journal = s.journal := rfl
@[simp] theorem ctrAdd_rigger (s : State) (f idx sub n : Nat) : (ctrAdd s f idx sub n).rigger = s.rigger := rfl
@[simp] theorem ctrAdd_crews (s : State) (f idx sub n : Nat) : (ctrAdd s f idx sub n).crews = s.crews := rfl
@[simp] theorem ctrAdd_cards (s : State) (f idx sub n : Nat) : (ctrAdd s f idx sub n).cards = s.cards := rfl
@[simp] theorem ctrAdd_cox (s : State) (f idx sub n : Nat) : (ctrAdd s f idx sub n).cox = s.cox := rfl
@[simp] theorem ctrAdd_evolu (s : State) (f idx sub n : Nat) : (ctrAdd s f idx sub n).evolu = s.evolu := rfl
@[simp] theorem ctrAdd_power (s : State) (f idx sub n : Nat) : (ctrAdd s f idx sub n).power = s.power := rfl
@[simp] theorem ctrAdd_sec (s : State) (f idx sub n : Nat) : (ctrAdd s f idx sub n).sec = s.sec := rfl
@[simp] theorem ctrAdd_pointing (s : State) (f idx sub n : Nat) : (ctrAdd s f idx sub n).pointing = s.pointing := rfl
@[simp] theorem ctrAdd_counters (s : State) (f idx sub n : Nat) : (ctrAdd s f idx sub n).counters = s.counters := rfl
@[simp] theorem ctrAdd_out (s : State) (f idx sub n : Nat) : (ctrAdd s f idx sub n).out = s.out := rfl

@[simp] theorem ctrZero_pending (s : State) (f idx sub : Nat) : (ctrZero s f idx sub).pending = s.pending := rfl
@[simp] theorem ctrZero_now (s : State) (f idx sub : Nat) : (ctrZero s f idx sub).now = s.now := rfl
@[simp] theorem ctrZero_free (s : State) (f idx sub : Nat) : (ctrZero s f idx sub).free = s.free := rfl
@[simp] theorem ctrZero_courses (s : State) (f idx sub : Nat) : (ctrZero s f idx sub).courses = s.courses := rfl
@[simp] theorem ctrZero_trowels (s : State) (f idx sub : Nat) : (ctrZero s f idx sub).trowels = s.trowels := rfl
@[simp] theorem ctrZero_pallets (s : State) (f idx sub : Nat) : (ctrZero s f idx sub).pallets = s.pallets := rfl
@[simp] theorem ctrZero_hods (s : State) (f idx sub : Nat) : (ctrZero s f idx sub).hods = s.hods := rfl
@[simp] theorem ctrZero_hbm (s : State) (f idx sub : Nat) : (ctrZero s f idx sub).hbm = s.hbm := rfl
@[simp] theorem ctrZero_host (s : State) (f idx sub : Nat) : (ctrZero s f idx sub).host = s.host := rfl
@[simp] theorem ctrZero_journal (s : State) (f idx sub : Nat) : (ctrZero s f idx sub).journal = s.journal := rfl
@[simp] theorem ctrZero_rigger (s : State) (f idx sub : Nat) : (ctrZero s f idx sub).rigger = s.rigger := rfl
@[simp] theorem ctrZero_crews (s : State) (f idx sub : Nat) : (ctrZero s f idx sub).crews = s.crews := rfl
@[simp] theorem ctrZero_cards (s : State) (f idx sub : Nat) : (ctrZero s f idx sub).cards = s.cards := rfl
@[simp] theorem ctrZero_cox (s : State) (f idx sub : Nat) : (ctrZero s f idx sub).cox = s.cox := rfl
@[simp] theorem ctrZero_evolu (s : State) (f idx sub : Nat) : (ctrZero s f idx sub).evolu = s.evolu := rfl
@[simp] theorem ctrZero_power (s : State) (f idx sub : Nat) : (ctrZero s f idx sub).power = s.power := rfl
@[simp] theorem ctrZero_sec (s : State) (f idx sub : Nat) : (ctrZero s f idx sub).sec = s.sec := rfl
@[simp] theorem ctrZero_pointing (s : State) (f idx sub : Nat) : (ctrZero s f idx sub).pointing = s.pointing := rfl
@[simp] theorem ctrZero_counters (s : State) (f idx sub : Nat) : (ctrZero s f idx sub).counters = s.counters := rfl
@[simp] theorem ctrZero_out (s : State) (f idx sub : Nat) : (ctrZero s f idx sub).out = s.out := rfl

@[simp] theorem genBump_pending (s : State) (f idx sub : Nat) : (genBump s f idx sub).pending = s.pending := rfl
@[simp] theorem genBump_now (s : State) (f idx sub : Nat) : (genBump s f idx sub).now = s.now := rfl
@[simp] theorem genBump_free (s : State) (f idx sub : Nat) : (genBump s f idx sub).free = s.free := rfl
@[simp] theorem genBump_courses (s : State) (f idx sub : Nat) : (genBump s f idx sub).courses = s.courses := rfl
@[simp] theorem genBump_trowels (s : State) (f idx sub : Nat) : (genBump s f idx sub).trowels = s.trowels := rfl
@[simp] theorem genBump_pallets (s : State) (f idx sub : Nat) : (genBump s f idx sub).pallets = s.pallets := rfl
@[simp] theorem genBump_hods (s : State) (f idx sub : Nat) : (genBump s f idx sub).hods = s.hods := rfl
@[simp] theorem genBump_hbm (s : State) (f idx sub : Nat) : (genBump s f idx sub).hbm = s.hbm := rfl
@[simp] theorem genBump_host (s : State) (f idx sub : Nat) : (genBump s f idx sub).host = s.host := rfl
@[simp] theorem genBump_journal (s : State) (f idx sub : Nat) : (genBump s f idx sub).journal = s.journal := rfl
@[simp] theorem genBump_rigger (s : State) (f idx sub : Nat) : (genBump s f idx sub).rigger = s.rigger := rfl
@[simp] theorem genBump_crews (s : State) (f idx sub : Nat) : (genBump s f idx sub).crews = s.crews := rfl
@[simp] theorem genBump_cards (s : State) (f idx sub : Nat) : (genBump s f idx sub).cards = s.cards := rfl
@[simp] theorem genBump_cox (s : State) (f idx sub : Nat) : (genBump s f idx sub).cox = s.cox := rfl
@[simp] theorem genBump_evolu (s : State) (f idx sub : Nat) : (genBump s f idx sub).evolu = s.evolu := rfl
@[simp] theorem genBump_power (s : State) (f idx sub : Nat) : (genBump s f idx sub).power = s.power := rfl
@[simp] theorem genBump_sec (s : State) (f idx sub : Nat) : (genBump s f idx sub).sec = s.sec := rfl
@[simp] theorem genBump_pointing (s : State) (f idx sub : Nat) : (genBump s f idx sub).pointing = s.pointing := rfl
@[simp] theorem genBump_counters (s : State) (f idx sub : Nat) : (genBump s f idx sub).counters = s.counters := rfl
@[simp] theorem genBump_out (s : State) (f idx sub : Nat) : (genBump s f idx sub).out = s.out := rfl

@[simp] theorem setObj_pending (s : State) (f idx sub : Nat) (v : List Byte) : (setObj s f idx sub v).pending = s.pending := rfl
@[simp] theorem setObj_now (s : State) (f idx sub : Nat) (v : List Byte) : (setObj s f idx sub v).now = s.now := rfl
@[simp] theorem setObj_free (s : State) (f idx sub : Nat) (v : List Byte) : (setObj s f idx sub v).free = s.free := rfl
@[simp] theorem setObj_courses (s : State) (f idx sub : Nat) (v : List Byte) : (setObj s f idx sub v).courses = s.courses := rfl
@[simp] theorem setObj_trowels (s : State) (f idx sub : Nat) (v : List Byte) : (setObj s f idx sub v).trowels = s.trowels := rfl
@[simp] theorem setObj_pallets (s : State) (f idx sub : Nat) (v : List Byte) : (setObj s f idx sub v).pallets = s.pallets := rfl
@[simp] theorem setObj_hods (s : State) (f idx sub : Nat) (v : List Byte) : (setObj s f idx sub v).hods = s.hods := rfl
@[simp] theorem setObj_hbm (s : State) (f idx sub : Nat) (v : List Byte) : (setObj s f idx sub v).hbm = s.hbm := rfl
@[simp] theorem setObj_host (s : State) (f idx sub : Nat) (v : List Byte) : (setObj s f idx sub v).host = s.host := rfl
@[simp] theorem setObj_journal (s : State) (f idx sub : Nat) (v : List Byte) : (setObj s f idx sub v).journal = s.journal := rfl
@[simp] theorem setObj_rigger (s : State) (f idx sub : Nat) (v : List Byte) : (setObj s f idx sub v).rigger = s.rigger := rfl
@[simp] theorem setObj_crews (s : State) (f idx sub : Nat) (v : List Byte) : (setObj s f idx sub v).crews = s.crews := rfl
@[simp] theorem setObj_cards (s : State) (f idx sub : Nat) (v : List Byte) : (setObj s f idx sub v).cards = s.cards := rfl
@[simp] theorem setObj_cox (s : State) (f idx sub : Nat) (v : List Byte) : (setObj s f idx sub v).cox = s.cox := rfl
@[simp] theorem setObj_evolu (s : State) (f idx sub : Nat) (v : List Byte) : (setObj s f idx sub v).evolu = s.evolu := rfl
@[simp] theorem setObj_power (s : State) (f idx sub : Nat) (v : List Byte) : (setObj s f idx sub v).power = s.power := rfl
@[simp] theorem setObj_sec (s : State) (f idx sub : Nat) (v : List Byte) : (setObj s f idx sub v).sec = s.sec := rfl
@[simp] theorem setObj_pointing (s : State) (f idx sub : Nat) (v : List Byte) : (setObj s f idx sub v).pointing = s.pointing := rfl
@[simp] theorem setObj_counters (s : State) (f idx sub : Nat) (v : List Byte) : (setObj s f idx sub v).counters = s.counters := rfl
@[simp] theorem setObj_out (s : State) (f idx sub : Nat) (v : List Byte) : (setObj s f idx sub v).out = s.out := rfl

@[simp] theorem dropObj_pending (s : State) (f idx sub : Nat) : (dropObj s f idx sub).pending = s.pending := rfl
@[simp] theorem dropObj_now (s : State) (f idx sub : Nat) : (dropObj s f idx sub).now = s.now := rfl
@[simp] theorem dropObj_free (s : State) (f idx sub : Nat) : (dropObj s f idx sub).free = s.free := rfl
@[simp] theorem dropObj_courses (s : State) (f idx sub : Nat) : (dropObj s f idx sub).courses = s.courses := rfl
@[simp] theorem dropObj_trowels (s : State) (f idx sub : Nat) : (dropObj s f idx sub).trowels = s.trowels := rfl
@[simp] theorem dropObj_pallets (s : State) (f idx sub : Nat) : (dropObj s f idx sub).pallets = s.pallets := rfl
@[simp] theorem dropObj_hods (s : State) (f idx sub : Nat) : (dropObj s f idx sub).hods = s.hods := rfl
@[simp] theorem dropObj_hbm (s : State) (f idx sub : Nat) : (dropObj s f idx sub).hbm = s.hbm := rfl
@[simp] theorem dropObj_host (s : State) (f idx sub : Nat) : (dropObj s f idx sub).host = s.host := rfl
@[simp] theorem dropObj_journal (s : State) (f idx sub : Nat) : (dropObj s f idx sub).journal = s.journal := rfl
@[simp] theorem dropObj_rigger (s : State) (f idx sub : Nat) : (dropObj s f idx sub).rigger = s.rigger := rfl
@[simp] theorem dropObj_crews (s : State) (f idx sub : Nat) : (dropObj s f idx sub).crews = s.crews := rfl
@[simp] theorem dropObj_cards (s : State) (f idx sub : Nat) : (dropObj s f idx sub).cards = s.cards := rfl
@[simp] theorem dropObj_cox (s : State) (f idx sub : Nat) : (dropObj s f idx sub).cox = s.cox := rfl
@[simp] theorem dropObj_evolu (s : State) (f idx sub : Nat) : (dropObj s f idx sub).evolu = s.evolu := rfl
@[simp] theorem dropObj_power (s : State) (f idx sub : Nat) : (dropObj s f idx sub).power = s.power := rfl
@[simp] theorem dropObj_sec (s : State) (f idx sub : Nat) : (dropObj s f idx sub).sec = s.sec := rfl
@[simp] theorem dropObj_pointing (s : State) (f idx sub : Nat) : (dropObj s f idx sub).pointing = s.pointing := rfl
@[simp] theorem dropObj_counters (s : State) (f idx sub : Nat) : (dropObj s f idx sub).counters = s.counters := rfl
@[simp] theorem dropObj_out (s : State) (f idx sub : Nat) : (dropObj s f idx sub).out = s.out := rfl

@[simp] theorem fresh_pending (s : State) : (fresh s).2.pending = s.pending := rfl
@[simp] theorem freshGen_pending (s : State) : (freshGen s).2.pending = s.pending := rfl
@[simp] theorem fresh_now (s : State) : (fresh s).2.now = s.now := rfl
@[simp] theorem freshGen_now (s : State) : (freshGen s).2.now = s.now := rfl
@[simp] theorem fresh_courses (s : State) : (fresh s).2.courses = s.courses := rfl
@[simp] theorem freshGen_courses (s : State) : (freshGen s).2.courses = s.courses := rfl
@[simp] theorem fresh_trowels (s : State) : (fresh s).2.trowels = s.trowels := rfl
@[simp] theorem freshGen_trowels (s : State) : (freshGen s).2.trowels = s.trowels := rfl
@[simp] theorem fresh_pallets (s : State) : (fresh s).2.pallets = s.pallets := rfl
@[simp] theorem freshGen_pallets (s : State) : (freshGen s).2.pallets = s.pallets := rfl
@[simp] theorem fresh_hods (s : State) : (fresh s).2.hods = s.hods := rfl
@[simp] theorem freshGen_hods (s : State) : (freshGen s).2.hods = s.hods := rfl
@[simp] theorem fresh_hbm (s : State) : (fresh s).2.hbm = s.hbm := rfl
@[simp] theorem freshGen_hbm (s : State) : (freshGen s).2.hbm = s.hbm := rfl
@[simp] theorem fresh_host (s : State) : (fresh s).2.host = s.host := rfl
@[simp] theorem freshGen_host (s : State) : (freshGen s).2.host = s.host := rfl
@[simp] theorem fresh_journal (s : State) : (fresh s).2.journal = s.journal := rfl
@[simp] theorem freshGen_journal (s : State) : (freshGen s).2.journal = s.journal := rfl
@[simp] theorem fresh_rigger (s : State) : (fresh s).2.rigger = s.rigger := rfl
@[simp] theorem freshGen_rigger (s : State) : (freshGen s).2.rigger = s.rigger := rfl
@[simp] theorem fresh_crews (s : State) : (fresh s).2.crews = s.crews := rfl
@[simp] theorem freshGen_crews (s : State) : (freshGen s).2.crews = s.crews := rfl
@[simp] theorem fresh_cards (s : State) : (fresh s).2.cards = s.cards := rfl
@[simp] theorem freshGen_cards (s : State) : (freshGen s).2.cards = s.cards := rfl
@[simp] theorem fresh_cox (s : State) : (fresh s).2.cox = s.cox := rfl
@[simp] theorem freshGen_cox (s : State) : (freshGen s).2.cox = s.cox := rfl
@[simp] theorem fresh_evolu (s : State) : (fresh s).2.evolu = s.evolu := rfl
@[simp] theorem freshGen_evolu (s : State) : (freshGen s).2.evolu = s.evolu := rfl
@[simp] theorem fresh_dict (s : State) : (fresh s).2.dict = s.dict := rfl
@[simp] theorem freshGen_dict (s : State) : (freshGen s).2.dict = s.dict := rfl
@[simp] theorem fresh_power (s : State) : (fresh s).2.power = s.power := rfl
@[simp] theorem freshGen_power (s : State) : (freshGen s).2.power = s.power := rfl
@[simp] theorem fresh_sec (s : State) : (fresh s).2.sec = s.sec := rfl
@[simp] theorem freshGen_sec (s : State) : (freshGen s).2.sec = s.sec := rfl
@[simp] theorem fresh_pointing (s : State) : (fresh s).2.pointing = s.pointing := rfl
@[simp] theorem freshGen_pointing (s : State) : (freshGen s).2.pointing = s.pointing := rfl
@[simp] theorem fresh_counters (s : State) : (fresh s).2.counters = s.counters := rfl
@[simp] theorem freshGen_counters (s : State) : (freshGen s).2.counters = s.counters := rfl
@[simp] theorem fresh_out (s : State) : (fresh s).2.out = s.out := rfl
@[simp] theorem freshGen_out (s : State) : (freshGen s).2.out = s.out := rfl

@[simp] theorem updCourse_same (s : State) (n : Fin 8) (g : Course → Course) : (updCourse s n g).courses[n] = g s.courses[n] := by simp [updCourse]
theorem updCourse_other (s : State) (n m : Fin 8) (g : Course → Course) (h : m ≠ n) : (updCourse s n g).courses[m] = s.courses[m] := by
  simp only [updCourse, Fin.getElem_fin]; exact Vector.getElem_set_ne _ _ (fun e => h (Fin.ext e.symm))
@[simp] theorem updCourse_twice (s : State) (n : Fin 8) (g h : Course → Course) : updCourse (updCourse s n g) n h = updCourse s n (fun x => h (g x)) := by simp [updCourse]
@[simp] theorem updTrowel_same (s : State) (n : Fin 8) (g : Trowel → Trowel) : (updTrowel s n g).trowels[n] = g s.trowels[n] := by simp [updTrowel]
theorem updTrowel_other (s : State) (n m : Fin 8) (g : Trowel → Trowel) (h : m ≠ n) : (updTrowel s n g).trowels[m] = s.trowels[m] := by
  simp only [updTrowel, Fin.getElem_fin]; exact Vector.getElem_set_ne _ _ (fun e => h (Fin.ext e.symm))
@[simp] theorem updTrowel_twice (s : State) (n : Fin 8) (g h : Trowel → Trowel) : updTrowel (updTrowel s n g) n h = updTrowel s n (fun x => h (g x)) := by simp [updTrowel]
@[simp] theorem updPallet_same (s : State) (n : Fin 8) (g : Pallet → Pallet) : (updPallet s n g).pallets[n] = g s.pallets[n] := by simp [updPallet]
theorem updPallet_other (s : State) (n m : Fin 8) (g : Pallet → Pallet) (h : m ≠ n) : (updPallet s n g).pallets[m] = s.pallets[m] := by
  simp only [updPallet, Fin.getElem_fin]; exact Vector.getElem_set_ne _ _ (fun e => h (Fin.ext e.symm))
@[simp] theorem updPallet_twice (s : State) (n : Fin 8) (g h : Pallet → Pallet) : updPallet (updPallet s n g) n h = updPallet s n (fun x => h (g x)) := by simp [updPallet]
@[simp] theorem updHod_same (s : State) (n : Fin 16) (g : Hod → Hod) : (updHod s n g).hods[n] = g s.hods[n] := by simp [updHod]
theorem updHod_other (s : State) (n m : Fin 16) (g : Hod → Hod) (h : m ≠ n) : (updHod s n g).hods[m] = s.hods[m] := by
  simp only [updHod, Fin.getElem_fin]; exact Vector.getElem_set_ne _ _ (fun e => h (Fin.ext e.symm))
@[simp] theorem updHod_twice (s : State) (n : Fin 16) (g h : Hod → Hod) : updHod (updHod s n g) n h = updHod s n (fun x => h (g x)) := by simp [updHod]
@[simp] theorem updCrew_same (s : State) (n : Fin 16) (g : Crew → Crew) : (updCrew s n g).crews[n] = g s.crews[n] := by simp [updCrew]
theorem updCrew_other (s : State) (n m : Fin 16) (g : Crew → Crew) (h : m ≠ n) : (updCrew s n g).crews[m] = s.crews[m] := by
  simp only [updCrew, Fin.getElem_fin]; exact Vector.getElem_set_ne _ _ (fun e => h (Fin.ext e.symm))
@[simp] theorem updCrew_twice (s : State) (n : Fin 16) (g h : Crew → Crew) : updCrew (updCrew s n g) n h = updCrew s n (fun x => h (g x)) := by simp [updCrew]
@[simp] theorem updCox_same (s : State) (n : Fin 8) (g : CoxPart → CoxPart) : (updCox s n g).cox[n] = g s.cox[n] := by simp [updCox]
theorem updCox_other (s : State) (n m : Fin 8) (g : CoxPart → CoxPart) (h : m ≠ n) : (updCox s n g).cox[m] = s.cox[m] := by
  simp only [updCox, Fin.getElem_fin]; exact Vector.getElem_set_ne _ _ (fun e => h (Fin.ext e.symm))
@[simp] theorem updCox_twice (s : State) (n : Fin 8) (g h : CoxPart → CoxPart) : updCox (updCox s n g) n h = updCox s n (fun x => h (g x)) := by simp [updCox]
@[simp] theorem updFunc_same (s : State) (n : Fin 9) (g : Func → Func) : (updFunc s n g).host.funcs[n] = g s.host.funcs[n] := by simp [updFunc]
theorem updFunc_other (s : State) (n m : Fin 9) (g : Func → Func) (h : m ≠ n) : (updFunc s n g).host.funcs[m] = s.host.funcs[m] := by
  simp only [updFunc, Fin.getElem_fin]; exact Vector.getElem_set_ne _ _ (fun e => h (Fin.ext e.symm))
@[simp] theorem updFunc_host_up (s : State) (n : Fin 9) (g : Func → Func) : (updFunc s n g).host.up = s.host.up := rfl
@[simp] theorem updFunc_host_rate (s : State) (n : Fin 9) (g : Func → Func) : (updFunc s n g).host.rate = s.host.rate := rfl
@[simp] theorem updFunc_host_width (s : State) (n : Fin 9) (g : Func → Func) : (updFunc s n g).host.width = s.host.width := rfl
@[simp] theorem updFunc_host_flit (s : State) (n : Fin 9) (g : Func → Func) : (updFunc s n g).host.flit = s.host.flit := rfl
@[simp] theorem updFunc_host_retimers (s : State) (n : Fin 9) (g : Func → Func) : (updFunc s n g).host.retimers = s.host.retimers := rfl
@[simp] theorem updFunc_host_vecs (s : State) (n : Fin 9) (g : Func → Func) : (updFunc s n g).host.vecs = s.host.vecs := rfl
@[simp] theorem updFunc_host_mem (s : State) (n : Fin 9) (g : Func → Func) : (updFunc s n g).host.mem = s.host.mem := rfl
@[simp] theorem updPort_same (s : State) (n : Fin 16) (g : Port → Port) : (updPort s n g).rigger.ports[n] = g s.rigger.ports[n] := by simp [updPort]
theorem updPort_other (s : State) (n m : Fin 16) (g : Port → Port) (h : m ≠ n) : (updPort s n g).rigger.ports[m] = s.rigger.ports[m] := by
  simp only [updPort, Fin.getElem_fin]; exact Vector.getElem_set_ne _ _ (fun e => h (Fin.ext e.symm))
@[simp] theorem updPort_rigger_banks (s : State) (n : Fin 16) (g : Port → Port) : (updPort s n g).rigger.banks = s.rigger.banks := rfl
@[simp] theorem updPort_rigger_lasers (s : State) (n : Fin 16) (g : Port → Port) : (updPort s n g).rigger.lasers = s.rigger.lasers := rfl
@[simp] theorem updPort_rigger_sync (s : State) (n : Fin 16) (g : Port → Port) : (updPort s n g).rigger.sync = s.rigger.sync := rfl
@[simp] theorem updPort_rigger_held (s : State) (n : Fin 16) (g : Port → Port) : (updPort s n g).rigger.held = s.rigger.held := rfl
@[simp] theorem updBank_same (s : State) (n : Fin 8) (g : Bank → Bank) : (updBank s n g).rigger.banks[n] = g s.rigger.banks[n] := by simp [updBank]
theorem updBank_other (s : State) (n m : Fin 8) (g : Bank → Bank) (h : m ≠ n) : (updBank s n g).rigger.banks[m] = s.rigger.banks[m] := by
  simp only [updBank, Fin.getElem_fin]; exact Vector.getElem_set_ne _ _ (fun e => h (Fin.ext e.symm))
@[simp] theorem updBank_rigger_ports (s : State) (n : Fin 8) (g : Bank → Bank) : (updBank s n g).rigger.ports = s.rigger.ports := rfl
@[simp] theorem updBank_rigger_lasers (s : State) (n : Fin 8) (g : Bank → Bank) : (updBank s n g).rigger.lasers = s.rigger.lasers := rfl
@[simp] theorem updBank_rigger_sync (s : State) (n : Fin 8) (g : Bank → Bank) : (updBank s n g).rigger.sync = s.rigger.sync := rfl
@[simp] theorem updBank_rigger_held (s : State) (n : Fin 8) (g : Bank → Bank) : (updBank s n g).rigger.held = s.rigger.held := rfl
@[simp] theorem updStack_same (s : State) (n : Fin 20) (g : Stack → Stack) : (updStack s n g).hbm.stks[n] = g s.hbm.stks[n] := by simp [updStack]
theorem updStack_other (s : State) (n m : Fin 20) (g : Stack → Stack) (h : m ≠ n) : (updStack s n g).hbm.stks[m] = s.hbm.stks[m] := by
  simp only [updStack, Fin.getElem_fin]; exact Vector.getElem_set_ne _ _ (fun e => h (Fin.ext e.symm))
@[simp] theorem updStack_hbm_mem (s : State) (n : Fin 20) (g : Stack → Stack) : (updStack s n g).hbm.mem = s.hbm.mem := rfl
@[simp] theorem updStack_hbm_dev (s : State) (n : Fin 20) (g : Stack → Stack) : (updStack s n g).hbm.dev = s.hbm.dev := rfl
@[simp] theorem updStack_hbm_ue (s : State) (n : Fin 20) (g : Stack → Stack) : (updStack s n g).hbm.ue = s.hbm.ue := rfl
@[simp] theorem updStack_hbm_coarse (s : State) (n : Fin 20) (g : Stack → Stack) : (updStack s n g).hbm.coarse = s.hbm.coarse := rfl
@[simp] theorem updStack_hbm_granule (s : State) (n : Fin 20) (g : Stack → Stack) : (updStack s n g).hbm.granule = s.hbm.granule := rfl
@[simp] theorem updStack_hbm_inService (s : State) (n : Fin 20) (g : Stack → Stack) : (updStack s n g).hbm.inService = s.hbm.inService := rfl
@[simp] theorem updStack_hbm_buckets (s : State) (n : Fin 20) (g : Stack → Stack) : (updStack s n g).hbm.buckets = s.hbm.buckets := rfl
@[simp] theorem updStack_hbm_waits (s : State) (n : Fin 20) (g : Stack → Stack) : (updStack s n g).hbm.waits = s.hbm.waits := rfl
@[simp] theorem updStack_hbm_marginState (s : State) (n : Fin 20) (g : Stack → Stack) : (updStack s n g).hbm.marginState = s.hbm.marginState := rfl
@[simp] theorem updStack_hbm_marginStack (s : State) (n : Fin 20) (g : Stack → Stack) : (updStack s n g).hbm.marginStack = s.hbm.marginStack := rfl
@[simp] theorem updStack_hbm_eyeMap (s : State) (n : Fin 20) (g : Stack → Stack) : (updStack s n g).hbm.eyeMap = s.hbm.eyeMap := rfl
@[simp] theorem updStack_hbm_marginRun (s : State) (n : Fin 20) (g : Stack → Stack) : (updStack s n g).hbm.marginRun = s.hbm.marginRun := rfl
@[simp] theorem updSession_same (s : State) (n : Fin 8) (g : Session → Session) : (updSession s n g).evolu.sessions[n] = g s.evolu.sessions[n] := by simp [updSession]
theorem updSession_other (s : State) (n m : Fin 8) (g : Session → Session) (h : m ≠ n) : (updSession s n g).evolu.sessions[m] = s.evolu.sessions[m] := by
  simp only [updSession, Fin.getElem_fin]; exact Vector.getElem_set_ne _ _ (fun e => h (Fin.ext e.symm))
@[simp] theorem updSession_evolu_addr (s : State) (n : Fin 8) (g : Session → Session) : (updSession s n g).evolu.addr = s.evolu.addr := rfl
@[simp] theorem updSession_evolu_hint (s : State) (n : Fin 8) (g : Session → Session) : (updSession s n g).evolu.hint = s.evolu.hint := rfl
@[simp] theorem updSession_evolu_epoch (s : State) (n : Fin 8) (g : Session → Session) : (updSession s n g).evolu.epoch = s.evolu.epoch := rfl
@[simp] theorem updSession_evolu_medium (s : State) (n : Fin 8) (g : Session → Session) : (updSession s n g).evolu.medium = s.evolu.medium := rfl
@[simp] theorem updSession_evolu_c (s : State) (n : Fin 8) (g : Session → Session) : (updSession s n g).evolu.c = s.evolu.c := rfl
@[simp] theorem updSession_evolu_hq (s : State) (n : Fin 8) (g : Session → Session) : (updSession s n g).evolu.hq = s.evolu.hq := rfl
@[simp] theorem updSession_evolu_nq (s : State) (n : Fin 8) (g : Session → Session) : (updSession s n g).evolu.nq = s.evolu.nq := rfl
@[simp] theorem updSession_evolu_flight (s : State) (n : Fin 8) (g : Session → Session) : (updSession s n g).evolu.flight = s.evolu.flight := rfl
@[simp] theorem updSession_evolu_noEcho (s : State) (n : Fin 8) (g : Session → Session) : (updSession s n g).evolu.noEcho = s.evolu.noEcho := rfl
@[simp] theorem updSession_evolu_darkUntil (s : State) (n : Fin 8) (g : Session → Session) : (updSession s n g).evolu.darkUntil = s.evolu.darkUntil := rfl
@[simp] theorem updSession_evolu_claim (s : State) (n : Fin 8) (g : Session → Session) : (updSession s n g).evolu.claim = s.evolu.claim := rfl
@[simp] theorem updSession_evolu_shakes (s : State) (n : Fin 8) (g : Session → Session) : (updSession s n g).evolu.shakes = s.evolu.shakes := rfl
@[simp] theorem updSession_evolu_reqTimes (s : State) (n : Fin 8) (g : Session → Session) : (updSession s n g).evolu.reqTimes = s.evolu.reqTimes := rfl
@[simp] theorem updSession_evolu_notices (s : State) (n : Fin 8) (g : Session → Session) : (updSession s n g).evolu.notices = s.evolu.notices := rfl
@[simp] theorem updSession_evolu_sidCount (s : State) (n : Fin 8) (g : Session → Session) : (updSession s n g).evolu.sidCount = s.evolu.sidCount := rfl

end Sys2Proof.Machine
end

