-- ==== Sys2Proof/Laws/Calm.lean ====
section
/-! SUPPORT. In a calm state nothing follows a command of its own accord: `castReady` leaves the state alone. -/

namespace Sys2Proof

open Sys2Proof.Machine

/-- What a calm Crew holds. -/
theorem crewCalm_iff (k : Crew) : crewCalm k = true ↔ (k.ops.isEmpty = true ∧ k.waiting.isEmpty = true) ∧
    ∀ a, k.attempt = some a → a.ended = false ∧ a.voteCmd = none ∧ k.fin ≠ .unresolved := by
  unfold crewCalm
  cases k.attempt with
  | none => simp
  | some a => simp [and_assoc]

theorem settleCrew_of_calm (s : State) (c : Fin 16) (h : crewCalm s.crews[c] = true) : settleCrew s c = s := by
  obtain ⟨h1, h2⟩ := (crewCalm_iff _).1 h
  have e1 : advanceOps s c = s := by simp only [advanceOps, h1.1, h1.2, Bool.and_self, if_true]
  unfold settleCrew
  rw [e1]
  dsimp only
  cases ha : s.crews[c].attempt with
  | none => rfl
  | some a =>
    obtain ⟨h3, h4, h5⟩ := h2 a ha
    have e2 : castIfReady s c a = s := by simp only [castIfReady, h3, h4, Option.isSome_none, Bool.or_self, Bool.and_false, Bool.false_and, Bool.false_eq_true, if_false]
    have e3 : decideAlone s c = s := by simp only [decideAlone, h5, decide_false, Bool.false_and, Bool.false_eq_true, if_false]
    have e4 : retireVote s c = s := by
      unfold retireVote
      rw [ha]
      cases s.crews[c].decision with
      | none => rfl
      | some d => simp only [h4]
    have e5 : actIfDecided s c = s := by
      unfold actIfDecided
      rw [ha]
      simp only [h3, Bool.and_false, Bool.false_and, Bool.false_eq_true, if_false]
    simp only [h3, Bool.false_eq_true, if_false, e2, e3, e4, e5]

theorem doCollWrites_of_calm (s : State) (p : Fin 8)
    (h : s.host.funcs[funcOf p].collWrites = [] ∧ s.host.funcs[funcOf p].handleWrites = []) : doCollWrites s p = s := by
  simp only [doCollWrites, h.1, List.foldl_nil, h.2]

theorem foldl_fixed {α β : Type} (f : β → α → β) (b : β) (l : List α) (h : ∀ a ∈ l, f b a = b) : l.foldl f b = b := by
  induction l with
  | nil => rfl
  | cons a l ih => rw [List.foldl_cons, h a (by simp)]; exact ih fun x hx => h x (by simp [hx])

/-- Nothing follows in a calm state. -/
theorem castReady_of_calm (s : State) (h : Calm s) : castReady s = s := by
  unfold castReady
  rw [foldl_fixed settleCrew s _ fun c _ => settleCrew_of_calm s c (h.1 c)]
  exact foldl_fixed doCollWrites s _ fun p _ => doCollWrites_of_calm s p (h.2 _)

/-- Calm looks at the Crews and the functions alone. -/
theorem calm_of_same (s t : State) (hc : t.crews = s.crews) (hf : t.host.funcs = s.host.funcs) (h : Calm s) : Calm t := by
  simpa [Calm, hc, hf] using h

/-- An attempt changed in other fields than those of its end and its VOTE stays calm. -/
theorem calm_updAttempt (s : State) (c : Fin 16) (g : Attempt → Attempt) (h : Calm s)
    (hg : ∀ a, (g a).ended = a.ended ∧ (g a).voteCmd = a.voteCmd) : Calm (updAttempt s c g) := by
  refine ⟨fun d => ?_, h.2⟩
  by_cases e : d = c
  · subst e
    have := h.1 d
    simp only [updAttempt, updCrew_same]
    simp only [crewCalm, Bool.and_eq_true] at this ⊢
    obtain ⟨⟨⟨h1, h2⟩, h3⟩, h4⟩ := this
    refine ⟨⟨⟨h1, h2⟩, ?_⟩, ?_⟩
    · cases ha : s.crews[d].attempt with
      | none => rfl
      | some a => simp only [ha, Option.map_some, Option.all_some, (hg a).1, (hg a).2] at h3 ⊢; exact h3
    · simpa using h4
  · simp only [updAttempt, updCrew_other _ _ _ _ e]
    exact h.1 d

theorem calm_bookIssue (s : State) (c : Fin 16) (w : Who) (k : CoreRun) (h : Calm s) : Calm (bookIssue s c w k) :=
  calm_updAttempt _ _ _ h fun _ => ⟨rfl, rfl⟩

end Sys2Proof
end

