-- ==== Sys2Proof/Laws/Memory.lean ====
section
/-! SUPPORT. Memories: reading what was written, leaving every other address alone, and the canonical form. -/

namespace Sys2Proof.Machine

open Sys2Proof

theorem cellsGet_set_same (l : List Host.Cell) (a : Nat) (b : Byte) : cellsGet (cellsSet l a b) a = some b := by
  induction l with
  | nil => simp [cellsSet, cellsGet]
  | cons x l ih =>
    obtain ⟨y, v⟩ := x
    simp only [cellsSet]
    split
    · simp [cellsGet]
    · split
      · simp_all [cellsGet]
      · rename_i h1 h2
        simp [cellsGet, h1, h2, ih]

theorem cellsGet_set_other (l : List Host.Cell) (a c : Nat) (b : Byte) (h : c ≠ a) : cellsGet (cellsSet l a b) c = cellsGet l c := by
  induction l with
  | nil => simp [cellsSet, cellsGet, h]
  | cons x l ih =>
    obtain ⟨y, v⟩ := x
    simp only [cellsSet]
    split
    · simp only [cellsGet, h, ite_false]
      repeat' split
      all_goals first | rfl | omega
    · split
      · subst_vars; simp [cellsGet, h]
      · simp only [cellsGet, ih]

theorem cellsGet_of_lt (l : List Host.Cell) (a : Nat) (h : ∀ x ∈ l, a < x.1) : cellsGet l a = none := by
  cases l with
  | nil => rfl
  | cons x l =>
    obtain ⟨y, v⟩ := x
    have := h (y, v) (by simp)
    simp [cellsGet, this]
    omega

/-- A rising list, said of its tail. -/
theorem rising_cons (x : Host.Cell) (l : List Host.Cell) : rising (x :: l) = true ↔ (∀ y ∈ l, x.1 < y.1) ∧ rising l = true := by
  induction l generalizing x with
  | nil => simp [rising]
  | cons y l ih =>
    simp only [rising, Bool.and_eq_true, decide_eq_true_eq, List.mem_cons, forall_eq_or_imp]
    constructor
    · rintro ⟨h1, h2⟩
      exact ⟨⟨h1, fun z hz => lt_trans h1 (((ih y).1 h2).1 z hz)⟩, h2⟩
    · rintro ⟨⟨h1, -⟩, h2⟩
      exact ⟨h1, h2⟩

theorem mem_cellsSet (l : List Host.Cell) (a : Nat) (b : Byte) (x : Host.Cell) (h : x ∈ cellsSet l a b) : x = (a, b) ∨ x ∈ l := by
  induction l with
  | nil => simpa [cellsSet] using h
  | cons y l ih =>
    obtain ⟨y, v⟩ := y
    simp only [cellsSet] at h
    split at h
    · simpa using h
    · split at h
      · subst_vars; simp only [List.mem_cons] at h ⊢; tauto
      · simp only [List.mem_cons] at h ⊢
        rcases h with h | h
        · tauto
        · have := ih h; tauto

theorem mem_cellsDel (l : List Host.Cell) (a : Nat) (x : Host.Cell) (h : x ∈ cellsDel l a) : x ∈ l := by
  induction l with
  | nil => simp [cellsDel] at h
  | cons y l ih =>
    obtain ⟨y, v⟩ := y
    simp only [cellsDel] at h
    split at h
    · exact h
    · split at h
      · exact List.mem_cons_of_mem _ h
      · simp only [List.mem_cons] at h ⊢
        rcases h with h | h
        · exact .inl h
        · exact .inr (ih h)

theorem rising_cellsSet (l : List Host.Cell) (a : Nat) (b : Byte) (h : rising l = true) : rising (cellsSet l a b) = true := by
  induction l with
  | nil => simp [cellsSet, rising]
  | cons x l ih =>
    obtain ⟨y, v⟩ := x
    have h' := (rising_cons _ _).1 h
    simp only [cellsSet]
    split
    · rename_i h1
      refine (rising_cons _ _).2 ⟨?_, h⟩
      intro z hz
      simp only [List.mem_cons] at hz
      rcases hz with rfl | hz
      · exact h1
      · exact lt_trans h1 (h'.1 z hz)
    · split
      · exact (rising_cons _ _).2 h'
      · rename_i h1 h2
        refine (rising_cons _ _).2 ⟨?_, ih h'.2⟩
        intro z hz
        rcases mem_cellsSet _ _ _ _ hz with rfl | hz
        · show y < a; omega
        · exact h'.1 z hz

theorem rising_cellsDel (l : List Host.Cell) (a : Nat) (h : rising l = true) : rising (cellsDel l a) = true := by
  induction l with
  | nil => simp [cellsDel, rising]
  | cons x l ih =>
    obtain ⟨y, v⟩ := x
    have h' := (rising_cons _ _).1 h
    simp only [cellsDel]
    split
    · exact h
    · split
      · exact h'.2
      · exact (rising_cons _ _).2 ⟨fun z hz => h'.1 z (mem_cellsDel _ _ _ hz), ih h'.2⟩

theorem cellsGet_del_same (l : List Host.Cell) (a : Nat) (h : rising l = true) : cellsGet (cellsDel l a) a = none := by
  induction l with
  | nil => rfl
  | cons x l ih =>
    obtain ⟨y, v⟩ := x
    have h' := (rising_cons _ _).1 h
    simp only [cellsDel]
    split
    · rename_i h1
      have : a ≠ y := by omega
      simp [cellsGet, this, h1]
    · split
      · subst_vars; exact cellsGet_of_lt _ _ h'.1
      · rename_i h1 h2
        simp [cellsGet, h1, h2, ih h'.2]

theorem cellsGet_del_other (l : List Host.Cell) (a c : Nat) (h : rising l = true) (hc : c ≠ a) : cellsGet (cellsDel l a) c = cellsGet l c := by
  induction l with
  | nil => rfl
  | cons x l ih =>
    obtain ⟨y, v⟩ := x
    have h' := (rising_cons _ _).1 h
    simp only [cellsDel]
    split
    · rfl
    · split
      · subst_vars
        simp only [cellsGet, hc, ite_false]
        split
        · exact cellsGet_of_lt _ _ fun z hz => lt_trans (by assumption) (h'.1 z hz)
        · rfl
      · simp only [cellsGet, ih h'.2]

/-- A byte written reads back. -/
theorem read_write_same (m : Mem) (a : Nat) (b : Byte) (h : m.wf = true) : (m.write a b).read a = b := by
  simp only [Mem.wf, Bool.and_eq_true] at h
  simp only [Mem.write]
  split
  · simp_all [Mem.read, cellsGet_del_same, Mem.dflt]
  · simp [Mem.read, cellsGet_set_same]

/-- Every other address reads as before. -/
theorem read_write_other (m : Mem) (a c : Nat) (b : Byte) (h : m.wf = true) (hc : c ≠ a) : (m.write a b).read c = m.read c := by
  simp only [Mem.wf, Bool.and_eq_true] at h
  simp only [Mem.write]
  split
  · simp [Mem.read, cellsGet_del_other _ _ _ h.1 hc, Mem.dflt]
  · simp [Mem.read, cellsGet_set_other _ _ _ _ hc, Mem.dflt]

/-- A write keeps the canonical form. -/
theorem write_wf (m : Mem) (a : Nat) (b : Byte) (h : m.wf = true) : (m.write a b).wf = true := by
  simp only [Mem.wf, Bool.and_eq_true, List.all_eq_true, bne_iff_ne] at h
  simp only [Mem.write]
  split
  · simp only [Mem.wf, Bool.and_eq_true, List.all_eq_true, bne_iff_ne]
    exact ⟨rising_cellsDel _ _ h.1, fun x hx => h.2 x (mem_cellsDel _ _ _ hx)⟩
  · rename_i hb
    simp only [Mem.wf, Bool.and_eq_true, List.all_eq_true, bne_iff_ne]
    refine ⟨rising_cellsSet _ _ _ h.1, fun x hx => ?_⟩
    rcases mem_cellsSet _ _ _ _ hx with rfl | hx
    · exact hb
    · exact h.2 x hx

theorem writeN_wf (m : Mem) (a : Nat) (bs : List Byte) (h : m.wf = true) : (m.writeN a bs).wf = true := by
  induction bs generalizing m a with
  | nil => exact h
  | cons b bs ih => exact ih _ _ (write_wf _ _ _ h)

theorem writeL_wf (m : Mem) (ws : List (Nat × Byte)) (h : m.wf = true) : (m.writeL ws).wf = true := by
  induction ws generalizing m with
  | nil => exact h
  | cons w ws ih => exact ih _ (write_wf _ _ _ h)

/-- Writes at listed addresses leave every address not listed alone. -/
theorem read_writeL_other (m : Mem) (ws : List (Nat × Byte)) (c : Nat) (h : m.wf = true) (hc : ∀ w ∈ ws, w.1 ≠ c) :
    (m.writeL ws).read c = m.read c := by
  induction ws generalizing m with
  | nil => rfl
  | cons w ws ih =>
    have h1 := hc w (by simp)
    show ((m.write w.1 w.2).writeL ws).read c = m.read c
    rw [ih _ (write_wf _ _ _ h) fun x hx => hc x (by simp [hx]), read_write_other _ _ _ _ h (Ne.symm h1)]

theorem fresh_contents_wf (g : Nat) : (Mem.mk g []).wf = true := rfl

end Sys2Proof.Machine
end

