-- ==== Sys2Proof/Laws/Frames.lean ====
section
/-! SUPPORT. What a function of the state may change: `Frames m s t` says that from s to t the waiting commands are the same, every memory
that was in canonical form still is, and each component of the state whose bit in m is 0 is the same. -/

namespace Sys2Proof.Machine

open Sys2Proof

/-- The memories of the stacks and of the windows for device memory are canonical. -/
def HbmOk (h : Hbm) : Prop := (∀ k : Fin 20, h.mem[k].wf = true) ∧ h.dev.wf = true

/-- The memories of a Crew's program are canonical. -/
def CrewOk (k : Crew) : Prop := ∀ a, k.attempt = some a → ∀ m ∈ a.mem, m.wf = true

structure Frames (m : Nat) (s t : State) : Prop where
  pending : t.pending = s.pending
  palletOk : (∀ n : Fin 8, s.pallets[n].mem.wf = true) → ∀ n : Fin 8, t.pallets[n].mem.wf = true
  hbmOk : HbmOk s.hbm → HbmOk t.hbm
  hostOk : s.host.mem.wf = true → t.host.mem.wf = true
  spillOk : s.counters.trace.spill.wf = true → t.counters.trace.spill.wf = true
  crewOk : (∀ c : Fin 16, CrewOk s.crews[c]) → ∀ c : Fin 16, CrewOk t.crews[c]
  now : m.testBit 0 = false → t.now = s.now
  free : m.testBit 1 = false → t.free = s.free
  courses : m.testBit 2 = false → t.courses = s.courses
  trowels : m.testBit 3 = false → t.trowels = s.trowels
  pallets : m.testBit 4 = false → t.pallets = s.pallets
  hods : m.testBit 5 = false → t.hods = s.hods
  hbm : m.testBit 6 = false → t.hbm = s.hbm
  host : m.testBit 7 = false → t.host = s.host
  journal : m.testBit 8 = false → t.journal = s.journal
  rigger : m.testBit 9 = false → t.rigger = s.rigger
  crews : m.testBit 10 = false → t.crews = s.crews
  cards : m.testBit 11 = false → t.cards = s.cards
  cox : m.testBit 12 = false → t.cox = s.cox
  evolu : m.testBit 13 = false → t.evolu = s.evolu
  dict : m.testBit 14 = false → t.dict = s.dict
  power : m.testBit 15 = false → t.power = s.power
  sec : m.testBit 16 = false → t.sec = s.sec
  pointing : m.testBit 17 = false → t.pointing = s.pointing
  counters : m.testBit 18 = false → t.counters = s.counters
  out : m.testBit 19 = false → t.out = s.out

theorem Frames.refl (m : Nat) (s : State) : Frames m s s :=
  ⟨rfl, id, id, id, id, id, fun _ => rfl, fun _ => rfl, fun _ => rfl, fun _ => rfl, fun _ => rfl, fun _ => rfl, fun _ => rfl, fun _ => rfl, fun _ => rfl, fun _ => rfl, fun _ => rfl, fun _ => rfl, fun _ => rfl, fun _ => rfl, fun _ => rfl, fun _ => rfl, fun _ => rfl, fun _ => rfl, fun _ => rfl, fun _ => rfl⟩

theorem sub_bit {a b : Nat} (h : a ||| b = b) (i : Nat) (hb : b.testBit i = false) : a.testBit i = false := by
  have := congrArg (fun x => x.testBit i) h
  simp only [Nat.testBit_or, hb, Bool.or_false] at this
  exact this

/-- Steps follow one another. -/
theorem Frames.step {a m : Nat} {r s t : State} (h : Frames m r s) (g : Frames a s t) (hm : a ||| m = m) : Frames m r t :=
  ⟨g.pending.trans h.pending, fun x => g.palletOk (h.palletOk x), fun x => g.hbmOk (h.hbmOk x), fun x => g.hostOk (h.hostOk x),
   fun x => g.spillOk (h.spillOk x), fun x => g.crewOk (h.crewOk x),
   fun x => (g.now (sub_bit hm _ x)).trans (h.now x),
   fun x => (g.free (sub_bit hm _ x)).trans (h.free x),
   fun x => (g.courses (sub_bit hm _ x)).trans (h.courses x),
   fun x => (g.trowels (sub_bit hm _ x)).trans (h.trowels x),
   fun x => (g.pallets (sub_bit hm _ x)).trans (h.pallets x),
   fun x => (g.hods (sub_bit hm _ x)).trans (h.hods x),
   fun x => (g.hbm (sub_bit hm _ x)).trans (h.hbm x),
   fun x => (g.host (sub_bit hm _ x)).trans (h.host x),
   fun x => (g.journal (sub_bit hm _ x)).trans (h.journal x),
   fun x => (g.rigger (sub_bit hm _ x)).trans (h.rigger x),
   fun x => (g.crews (sub_bit hm _ x)).trans (h.crews x),
   fun x => (g.cards (sub_bit hm _ x)).trans (h.cards x),
   fun x => (g.cox (sub_bit hm _ x)).trans (h.cox x),
   fun x => (g.evolu (sub_bit hm _ x)).trans (h.evolu x),
   fun x => (g.dict (sub_bit hm _ x)).trans (h.dict x),
   fun x => (g.power (sub_bit hm _ x)).trans (h.power x),
   fun x => (g.sec (sub_bit hm _ x)).trans (h.sec x),
   fun x => (g.pointing (sub_bit hm _ x)).trans (h.pointing x),
   fun x => (g.counters (sub_bit hm _ x)).trans (h.counters x),
   fun x => (g.out (sub_bit hm _ x)).trans (h.out x)⟩

theorem Frames.mono {a m : Nat} {s t : State} (g : Frames a s t) (hm : a ||| m = m) : Frames m s t := (Frames.refl m s).step g hm

theorem Frames.ite {m : Nat} {r a b : State} {c : Prop} [Decidable c] (ha : Frames m r a) (hb : Frames m r b) : Frames m r (if c then a else b) := by
  split
  · exact ha
  · exact hb

theorem Frames.foldl {m : Nat} {r s : State} {α : Type} {f : State → α → State} {l : List α} (h : Frames m r s)
    (hf : ∀ s x, Frames m r s → Frames m r (f s x)) : Frames m r (l.foldl f s) := by
  induction l generalizing s with
  | nil => exact h
  | cons x l ih => exact ih (hf s x h)

theorem Frames.foldl_fst {m : Nat} {r : State} {α β : Type} {f : State × β → α → State × β} {l : List α} {p : State × β} (h : Frames m r p.1)
    (hf : ∀ p x, Frames m r p.1 → Frames m r (f p x).1) : Frames m r (l.foldl f p).1 := by
  induction l generalizing p with
  | nil => exact h
  | cons x l ih => exact ih (hf p x h)

theorem Frames.foldl_snd {m : Nat} {r : State} {α β : Type} {f : β × State → α → β × State} {l : List α} {p : β × State} (h : Frames m r p.2)
    (hf : ∀ p x, Frames m r p.2 → Frames m r (f p x).2) : Frames m r (l.foldl f p).2 := by
  induction l generalizing p with
  | nil => exact h
  | cons x l ih => exact ih (hf p x h)

theorem Frames.of_fst {m : Nat} {r s : State} {β : Type} {x : β} {p : State × β} (e : p = (s, x)) (h : Frames m r p.1) : Frames m r s := by
  rw [e] at h; exact h

theorem Frames.of_snd {m : Nat} {r s : State} {β : Type} {x : β} {p : β × State} (e : p = (x, s)) (h : Frames m r p.2) : Frames m r s := by
  rw [e] at h; exact h

/-- Whatever state an optional one holds. -/
def FramesO (m : Nat) (r : State) (o : Option State) : Prop := ∀ t, o = some t → Frames m r t

theorem FramesO.none {m : Nat} {r : State} : FramesO m r none := fun _ h => by cases h
theorem FramesO.some {m : Nat} {r s : State} (h : Frames m r s) : FramesO m r (some s) := fun _ e => by cases e; exact h
theorem FramesO.ite {m : Nat} {r : State} {a b : Option State} {c : Prop} [Decidable c] (ha : FramesO m r a) (hb : FramesO m r b) :
    FramesO m r (if c then a else b) := by split <;> assumption
theorem FramesO.map {m : Nat} {r : State} {o : Option State} {f : State → State} (h : FramesO m r o) (hf : ∀ s, Frames m r s → Frames m r (f s)) :
    FramesO m r (o.map f) := by
  intro t e
  cases o with
  | none => cases e
  | some s => cases e; exact hf s (h s rfl)
theorem FramesO.of {m : Nat} {r : State} {α : Type} {o : Option α} {f : α → State} (hf : ∀ a, Frames m r (f a)) : FramesO m r (o.map f) := by
  intro t e
  cases o with
  | none => cases e
  | some a => cases e; exact hf a
theorem Frames.of_some {m : Nat} {r s : State} {o : Option State} (e : o = Option.some s) (h : FramesO m r o) : Frames m r s := h s e
theorem FramesO.step {a m : Nat} {r s : State} {o : Option State} (h : Frames m r s) (g : FramesO a s o) (hm : a ||| m = m) : FramesO m r o :=
  fun t e => h.step (g t e) hm

theorem FramesO.getD {m : Nat} {r s : State} {o : Option State} (h : FramesO m r o) (hs : Frames m r s) : Frames m r (o.getD s) := by
  cases o with
  | none => exact hs
  | some t => exact h t rfl

/-- An outcome that is a next state. -/
def FramesN (m : Nat) (r : State) (o : Host.Outcome State Fault Refusal) : Prop := ∀ t, o = .next t → Frames m r t

theorem FramesN.powered {m : Nat} {s t : State} (h : Frames m s t) : FramesN m s (powered s t) := by
  intro u e
  simp only [Machine.powered] at e
  cases e
  exact Frames.ite h (Frames.refl m s)

/-! ## Record updates -/

theorem Frames.set_now {m : Nat} {r s : State} {v : U64} (h : Frames m r s) (hm : m.testBit 0 = true) :
    Frames m r { s with now := v } := by
  refine Frames.step h (a := m) ⟨rfl, id, id, id, id, id, ?_, ?_, ?_, ?_, ?_, ?_, ?_, ?_, ?_, ?_, ?_, ?_, ?_, ?_, ?_, ?_, ?_, ?_, ?_, ?_⟩ (Nat.or_self m)
  all_goals intro x
  all_goals first | rfl | (rw [hm] at x; cases x)

theorem Frames.set_free {m : Nat} {r s : State} {v : Nat} (h : Frames m r s) (hm : m.testBit 1 = true) :
    Frames m r { s with free := v } := by
  refine Frames.step h (a := m) ⟨rfl, id, id, id, id, id, ?_, ?_, ?_, ?_, ?_, ?_, ?_, ?_, ?_, ?_, ?_, ?_, ?_, ?_, ?_, ?_, ?_, ?_, ?_, ?_⟩ (Nat.or_self m)
  all_goals intro x
  all_goals first | rfl | (rw [hm] at x; cases x)

theorem Frames.set_courses {m : Nat} {r s : State} {v : Vector Course 8} (h : Frames m r s) (hm : m.testBit 2 = true) :
    Frames m r { s with courses := v } := by
  refine Frames.step h (a := m) ⟨rfl, id, id, id, id, id, ?_, ?_, ?_, ?_, ?_, ?_, ?_, ?_, ?_, ?_, ?_, ?_, ?_, ?_, ?_, ?_, ?_, ?_, ?_, ?_⟩ (Nat.or_self m)
  all_goals intro x
  all_goals first | rfl | (rw [hm] at x; cases x)

theorem Frames.set_trowels {m : Nat} {r s : State} {v : Vector Trowel 8} (h : Frames m r s) (hm : m.testBit 3 = true) :
    Frames m r { s with trowels := v } := by
  refine Frames.step h (a := m) ⟨rfl, id, id, id, id, id, ?_, ?_, ?_, ?_, ?_, ?_, ?_, ?_, ?_, ?_, ?_, ?_, ?_, ?_, ?_, ?_, ?_, ?_, ?_, ?_⟩ (Nat.or_self m)
  all_goals intro x
  all_goals first | rfl | (rw [hm] at x; cases x)

theorem Frames.set_pallets {m : Nat} {r s : State} {v : Vector Pallet 8} (h : Frames m r s) (hm : m.testBit 4 = true) (hv : (∀ n : Fin 8, s.pallets[n].mem.wf = true) → ∀ n : Fin 8, v[n].mem.wf = true) :
    Frames m r { s with pallets := v } := by
  refine Frames.step h (a := m) ⟨rfl, hv, id, id, id, id, ?_, ?_, ?_, ?_, ?_, ?_, ?_, ?_, ?_, ?_, ?_, ?_, ?_, ?_, ?_, ?_, ?_, ?_, ?_, ?_⟩ (Nat.or_self m)
  all_goals intro x
  all_goals first | rfl | (rw [hm] at x; cases x)

theorem Frames.set_hods {m : Nat} {r s : State} {v : Vector Hod 16} (h : Frames m r s) (hm : m.testBit 5 = true) :
    Frames m r { s with hods := v } := by
  refine Frames.step h (a := m) ⟨rfl, id, id, id, id, id, ?_, ?_, ?_, ?_, ?_, ?_, ?_, ?_, ?_, ?_, ?_, ?_, ?_, ?_, ?_, ?_, ?_, ?_, ?_, ?_⟩ (Nat.or_self m)
  all_goals intro x
  all_goals first | rfl | (rw [hm] at x; cases x)

theorem Frames.set_hbm {m : Nat} {r s : State} {v : Hbm} (h : Frames m r s) (hm : m.testBit 6 = true) (hv : HbmOk s.hbm → HbmOk v) :
    Frames m r { s with hbm := v } := by
  refine Frames.step h (a := m) ⟨rfl, id, hv, id, id, id, ?_, ?_, ?_, ?_, ?_, ?_, ?_, ?_, ?_, ?_, ?_, ?_, ?_, ?_, ?_, ?_, ?_, ?_, ?_, ?_⟩ (Nat.or_self m)
  all_goals intro x
  all_goals first | rfl | (rw [hm] at x; cases x)

theorem Frames.set_host {m : Nat} {r s : State} {v : HostPort} (h : Frames m r s) (hm : m.testBit 7 = true) (hv : s.host.mem.wf = true → v.mem.wf = true) :
    Frames m r { s with host := v } := by
  refine Frames.step h (a := m) ⟨rfl, id, id, hv, id, id, ?_, ?_, ?_, ?_, ?_, ?_, ?_, ?_, ?_, ?_, ?_, ?_, ?_, ?_, ?_, ?_, ?_, ?_, ?_, ?_⟩ (Nat.or_self m)
  all_goals intro x
  all_goals first | rfl | (rw [hm] at x; cases x)

theorem Frames.set_journal {m : Nat} {r s : State} {v : Journal} (h : Frames m r s) (hm : m.testBit 8 = true) :
    Frames m r { s with journal := v } := by
  refine Frames.step h (a := m) ⟨rfl, id, id, id, id, id, ?_, ?_, ?_, ?_, ?_, ?_, ?_, ?_, ?_, ?_, ?_, ?_, ?_, ?_, ?_, ?_, ?_, ?_, ?_, ?_⟩ (Nat.or_self m)
  all_goals intro x
  all_goals first | rfl | (rw [hm] at x; cases x)

theorem Frames.set_rigger {m : Nat} {r s : State} {v : Rigger} (h : Frames m r s) (hm : m.testBit 9 = true) :
    Frames m r { s with rigger := v } := by
  refine Frames.step h (a := m) ⟨rfl, id, id, id, id, id, ?_, ?_, ?_, ?_, ?_, ?_, ?_, ?_, ?_, ?_, ?_, ?_, ?_, ?_, ?_, ?_, ?_, ?_, ?_, ?_⟩ (Nat.or_self m)
  all_goals intro x
  all_goals first | rfl | (rw [hm] at x; cases x)

theorem Frames.set_crews {m : Nat} {r s : State} {v : Vector Crew 16} (h : Frames m r s) (hm : m.testBit 10 = true) (hv : (∀ c : Fin 16, CrewOk s.crews[c]) → ∀ c : Fin 16, CrewOk v[c]) :
    Frames m r { s with crews := v } := by
  refine Frames.step h (a := m) ⟨rfl, id, id, id, id, hv, ?_, ?_, ?_, ?_, ?_, ?_, ?_, ?_, ?_, ?_, ?_, ?_, ?_, ?_, ?_, ?_, ?_, ?_, ?_, ?_⟩ (Nat.or_self m)
  all_goals intro x
  all_goals first | rfl | (rw [hm] at x; cases x)

theorem Frames.set_cards {m : Nat} {r s : State} {v : CardRing} (h : Frames m r s) (hm : m.testBit 11 = true) :
    Frames m r { s with cards := v } := by
  refine Frames.step h (a := m) ⟨rfl, id, id, id, id, id, ?_, ?_, ?_, ?_, ?_, ?_, ?_, ?_, ?_, ?_, ?_, ?_, ?_, ?_, ?_, ?_, ?_, ?_, ?_, ?_⟩ (Nat.or_self m)
  all_goals intro x
  all_goals first | rfl | (rw [hm] at x; cases x)

theorem Frames.set_cox {m : Nat} {r s : State} {v : Vector CoxPart 8} (h : Frames m r s) (hm : m.testBit 12 = true) :
    Frames m r { s with cox := v } := by
  refine Frames.step h (a := m) ⟨rfl, id, id, id, id, id, ?_, ?_, ?_, ?_, ?_, ?_, ?_, ?_, ?_, ?_, ?_, ?_, ?_, ?_, ?_, ?_, ?_, ?_, ?_, ?_⟩ (Nat.or_self m)
  all_goals intro x
  all_goals first | rfl | (rw [hm] at x; cases x)

theorem Frames.set_evolu {m : Nat} {r s : State} {v : Evolu} (h : Frames m r s) (hm : m.testBit 13 = true) :
    Frames m r { s with evolu := v } := by
  refine Frames.step h (a := m) ⟨rfl, id, id, id, id, id, ?_, ?_, ?_, ?_, ?_, ?_, ?_, ?_, ?_, ?_, ?_, ?_, ?_, ?_, ?_, ?_, ?_, ?_, ?_, ?_⟩ (Nat.or_self m)
  all_goals intro x
  all_goals first | rfl | (rw [hm] at x; cases x)

theorem Frames.set_dict {m : Nat} {r s : State} {v : Dict} (h : Frames m r s) (hm : m.testBit 14 = true) :
    Frames m r { s with dict := v } := by
  refine Frames.step h (a := m) ⟨rfl, id, id, id, id, id, ?_, ?_, ?_, ?_, ?_, ?_, ?_, ?_, ?_, ?_, ?_, ?_, ?_, ?_, ?_, ?_, ?_, ?_, ?_, ?_⟩ (Nat.or_self m)
  all_goals intro x
  all_goals first | rfl | (rw [hm] at x; cases x)

theorem Frames.set_power {m : Nat} {r s : State} {v : Power} (h : Frames m r s) (hm : m.testBit 15 = true) :
    Frames m r { s with power := v } := by
  refine Frames.step h (a := m) ⟨rfl, id, id, id, id, id, ?_, ?_, ?_, ?_, ?_, ?_, ?_, ?_, ?_, ?_, ?_, ?_, ?_, ?_, ?_, ?_, ?_, ?_, ?_, ?_⟩ (Nat.or_self m)
  all_goals intro x
  all_goals first | rfl | (rw [hm] at x; cases x)

theorem Frames.set_sec {m : Nat} {r s : State} {v : Security} (h : Frames m r s) (hm : m.testBit 16 = true) :
    Frames m r { s with sec := v } := by
  refine Frames.step h (a := m) ⟨rfl, id, id, id, id, id, ?_, ?_, ?_, ?_, ?_, ?_, ?_, ?_, ?_, ?_, ?_, ?_, ?_, ?_, ?_, ?_, ?_, ?_, ?_, ?_⟩ (Nat.or_self m)
  all_goals intro x
  all_goals first | rfl | (rw [hm] at x; cases x)

theorem Frames.set_pointing {m : Nat} {r s : State} {v : Pointing} (h : Frames m r s) (hm : m.testBit 17 = true) :
    Frames m r { s with pointing := v } := by
  refine Frames.step h (a := m) ⟨rfl, id, id, id, id, id, ?_, ?_, ?_, ?_, ?_, ?_, ?_, ?_, ?_, ?_, ?_, ?_, ?_, ?_, ?_, ?_, ?_, ?_, ?_, ?_⟩ (Nat.or_self m)
  all_goals intro x
  all_goals first | rfl | (rw [hm] at x; cases x)

theorem Frames.set_counters {m : Nat} {r s : State} {v : Counters} (h : Frames m r s) (hm : m.testBit 18 = true) (hv : s.counters.trace.spill.wf = true → v.trace.spill.wf = true) :
    Frames m r { s with counters := v } := by
  refine Frames.step h (a := m) ⟨rfl, id, id, id, hv, id, ?_, ?_, ?_, ?_, ?_, ?_, ?_, ?_, ?_, ?_, ?_, ?_, ?_, ?_, ?_, ?_, ?_, ?_, ?_, ?_⟩ (Nat.or_self m)
  all_goals intro x
  all_goals first | rfl | (rw [hm] at x; cases x)

theorem Frames.set_out {m : Nat} {r s : State} {v : List Out} (h : Frames m r s) (hm : m.testBit 19 = true) :
    Frames m r { s with out := v } := by
  refine Frames.step h (a := m) ⟨rfl, id, id, id, id, id, ?_, ?_, ?_, ?_, ?_, ?_, ?_, ?_, ?_, ?_, ?_, ?_, ?_, ?_, ?_, ?_, ?_, ?_, ?_, ?_⟩ (Nat.or_self m)
  all_goals intro x
  all_goals first | rfl | (rw [hm] at x; cases x)

theorem updCourse_frames {s : State} {n : Fin 8} {g : Course → Course} : Frames 4 s (updCourse s n g) := (Frames.refl _ s).set_courses rfl
theorem updTrowel_frames {s : State} {n : Fin 8} {g : Trowel → Trowel} : Frames 8 s (updTrowel s n g) := (Frames.refl _ s).set_trowels rfl
theorem updHod_frames {s : State} {n : Fin 16} {g : Hod → Hod} : Frames 32 s (updHod s n g) := (Frames.refl _ s).set_hods rfl
theorem updCox_frames {s : State} {n : Fin 8} {g : CoxPart → CoxPart} : Frames 4096 s (updCox s n g) := (Frames.refl _ s).set_cox rfl
theorem updPort_frames {s : State} {n : Fin 16} {g : Port → Port} : Frames 512 s (updPort s n g) := (Frames.refl _ s).set_rigger rfl
theorem updBank_frames {s : State} {n : Fin 8} {g : Bank → Bank} : Frames 512 s (updBank s n g) := (Frames.refl _ s).set_rigger rfl
theorem updStack_frames {s : State} {n : Fin 20} {g : Stack → Stack} : Frames 64 s (updStack s n g) := (Frames.refl _ s).set_hbm rfl id
theorem updSession_frames {s : State} {n : Fin 8} {g : Session → Session} : Frames 8192 s (updSession s n g) := (Frames.refl _ s).set_evolu rfl
theorem updFunc_frames {s : State} {n : Fin 9} {g : Func → Func} : Frames 128 s (updFunc s n g) := (Frames.refl _ s).set_host rfl id

theorem updPallet_frames {s : State} {n : Fin 8} {g : Pallet → Pallet} (hg : s.pallets[n].mem.wf = true → (g s.pallets[n]).mem.wf = true) :
    Frames 16 s (updPallet s n g) := by
  refine (Frames.refl _ s).set_pallets rfl ?_
  intro h k
  by_cases e : k = n
  · subst e
    simpa using hg (h k)
  · have := updPallet_other s n k g e
    simp only [updPallet] at this
    rw [this]; exact h k

theorem updCrew_frames {s : State} {n : Fin 16} {g : Crew → Crew} (hg : CrewOk s.crews[n] → CrewOk (g s.crews[n])) :
    Frames 1024 s (updCrew s n g) := by
  refine (Frames.refl _ s).set_crews rfl ?_
  intro h k
  by_cases e : k = n
  · subst e
    have := hg (h k)
    simpa using this
  · have := updCrew_other s n k g e
    simp only [updCrew] at this
    rw [this]; exact h k

/-- The memories of an attempt are canonical. -/
def AttOk (a : Attempt) : Prop := ∀ m ∈ a.mem, m.wf = true

theorem crewOk_some {k l : Crew} {a b : Attempt} (ek : k.attempt = some a) (el : l.attempt = some b) (hf : AttOk a → AttOk b) (h : CrewOk k) :
    CrewOk l := by
  intro x hx
  rw [el] at hx
  cases hx
  exact hf (h a ek)

theorem crewOk_new {l : Crew} {b : Attempt} (el : l.attempt = some b) (hb : AttOk b) : CrewOk l := by
  intro x hx
  rw [el] at hx
  cases hx
  exact hb

theorem crewOk_ite {c : Prop} [Decidable c] {a b : Crew} (ha : CrewOk a) (hb : CrewOk b) : CrewOk (if c then a else b) := by
  split
  · exact ha
  · exact hb

theorem attOk_ite {c : Prop} [Decidable c] {a b : Attempt} (ha : AttOk a) (hb : AttOk b) : AttOk (if c then a else b) := by
  split
  · exact ha
  · exact hb

theorem crewOk_same {k l : Crew} (e : l.attempt = k.attempt) (h : CrewOk k) : CrewOk l := by
  simpa [CrewOk, e] using h

theorem crewOk_none {l : Crew} (e : l.attempt = none) : CrewOk l := by simp [CrewOk, e]

theorem crewOk_map {k l : Crew} (f : Attempt → Attempt) (e : l.attempt = k.attempt.map f)
    (hf : ∀ a, AttOk a → AttOk (f a)) (h : CrewOk k) : CrewOk l := by
  intro a ha
  rw [e] at ha
  cases hk : k.attempt with
  | none => rw [hk] at ha; cases ha
  | some b => rw [hk] at ha; cases ha; exact hf b (h b hk)

theorem updAttempt_frames {s : State} {n : Fin 16} {g : Attempt → Attempt} (hg : ∀ a, AttOk a → AttOk (g a)) :
    Frames 1024 s (updAttempt s n g) := updCrew_frames (crewOk_map g rfl hg)

theorem updPallet_step {m : Nat} {r s : State} {n : Fin 8} {g : Pallet → Pallet} (h : Frames m r s) (hm : 16 ||| m = m)
    (hg : s.pallets[n].mem.wf = true → (g s.pallets[n]).mem.wf = true) : Frames m r (updPallet s n g) := h.step (updPallet_frames hg) hm

theorem updCrew_step {m : Nat} {r s : State} {n : Fin 16} {g : Crew → Crew} (h : Frames m r s) (hm : 1024 ||| m = m)
    (hg : CrewOk s.crews[n] → CrewOk (g s.crews[n])) : Frames m r (updCrew s n g) := h.step (updCrew_frames hg) hm

theorem updAttempt_step {m : Nat} {r s : State} {n : Fin 16} {g : Attempt → Attempt} (h : Frames m r s) (hm : 1024 ||| m = m)
    (hg : ∀ a, AttOk a → AttOk (g a)) : Frames m r (updAttempt s n g) := h.step (updAttempt_frames hg) hm

theorem fresh_frames {s : State} : Frames 2 s (fresh s).2 := (Frames.refl _ s).set_free rfl
theorem freshGen_frames {s : State} : Frames 2 s (freshGen s).2 := (Frames.refl _ s).set_free rfl

theorem put_ok (h : Hbm) (ws : List (Nat × Byte)) (ho : HbmOk h) : HbmOk (h.put ws) := by
  refine ⟨fun k => ?_, ho.2⟩
  simp only [Hbm.put, Fin.getElem_fin, Vector.getElem_mapIdx]
  split
  · exact writeL_wf _ _ (ho.1 k)
  · exact ho.1 k

theorem memFresh_ok {h k : Hbm} {g : Nat} (i : Fin 20) (ho : HbmOk h) (e : k.mem = h.mem.set i ⟨g, []⟩ := by rfl) (d : k.dev = h.dev := by rfl) :
    HbmOk k := by
  refine ⟨fun j => ?_, by rw [d]; exact ho.2⟩
  rw [e]
  simp only [Fin.getElem_fin, Vector.getElem_set]
  split
  · rfl
  · exact ho.1 j

theorem devFresh_ok {h k : Hbm} (ho : HbmOk h) (e : k.mem = h.mem := by rfl) (d : k.dev.cells = [] := by rfl) : HbmOk k := by
  refine ⟨fun j => by rw [e]; exact ho.1 j, ?_⟩
  unfold Mem.wf
  rw [d]
  rfl

theorem freshMems_ok {h k : Hbm} {g : Fin 20 → Nat} (ho : HbmOk h) (e : k.mem = Vector.ofFn fun i => ⟨g i, []⟩) (d : k.dev = h.dev) : HbmOk k := by
  refine ⟨fun j => ?_, by rw [d]; exact ho.2⟩
  rw [e]
  simp only [Fin.getElem_fin, Vector.getElem_ofFn]
  rfl

theorem rising_filter (l : List Host.Cell) (q : Host.Cell → Bool) (h : rising l = true) : rising (l.filter q) = true := by
  induction l with
  | nil => rfl
  | cons x l ih =>
    have h' := (rising_cons _ _).1 h
    rw [List.filter_cons]
    split
    · exact (rising_cons _ _).2 ⟨fun y hy => h'.1 y (List.mem_filter.1 hy).1, ih h'.2⟩
    · exact ih h'.2

theorem filter_wf (m : Mem) (q : Host.Cell → Bool) (h : m.wf = true) : ({ m with cells := m.cells.filter q } : Mem).wf = true := by
  simp only [Mem.wf, Bool.and_eq_true, List.all_eq_true] at h ⊢
  exact ⟨rising_filter _ _ h.1, fun x hx => h.2 x (List.mem_filter.1 hx).1⟩

end Sys2Proof.Machine
end

