-- ==== Sys2Proof/Laws/FramesUnits.lean ====
section
/-! SUPPORT. What each function of the state may change, in the terms of Frames: the shared operations and the units: regulators, meters, attempts, memories, links, tiles, Crews and their collective operations. -/

set_option linter.all false

namespace Sys2Proof.Machine

open Sys2Proof

theorem Frames.set_dict_counters {m : Nat} {r s : State} {v0 : Dict} {v1 : Counters} (h : Frames m r s) (m0 : m.testBit 14 = true) (m1 : m.testBit 18 = true) (k1 : s.counters.trace.spill.wf = true → v1.trace.spill.wf = true) :
    Frames m r { s with dict := v0, counters := v1 } := (Frames.set_counters (s := { s with dict := v0 }) (v := v1) (Frames.set_dict (s := s) (v := v0) h m0) m1 k1)

theorem Frames.set_dict_sec {m : Nat} {r s : State} {v0 : Dict} {v1 : Security} (h : Frames m r s) (m0 : m.testBit 14 = true) (m1 : m.testBit 16 = true) :
    Frames m r { s with dict := v0, sec := v1 } := (Frames.set_sec (s := { s with dict := v0 }) (v := v1) (Frames.set_dict (s := s) (v := v0) h m0) m1)

theorem Frames.set_free_sec {m : Nat} {r s : State} {v0 : Nat} {v1 : Security} (h : Frames m r s) (m0 : m.testBit 1 = true) (m1 : m.testBit 16 = true) :
    Frames m r { s with free := v0, sec := v1 } := (Frames.set_sec (s := { s with free := v0 }) (v := v1) (Frames.set_free (s := s) (v := v0) h m0) m1)

theorem Frames.set_host_power {m : Nat} {r s : State} {v0 : HostPort} {v1 : Power} (h : Frames m r s) (m0 : m.testBit 7 = true) (k0 : s.host.mem.wf = true → v0.mem.wf = true) (m1 : m.testBit 15 = true) :
    Frames m r { s with host := v0, power := v1 } := (Frames.set_power (s := { s with host := v0 }) (v := v1) (Frames.set_host (s := s) (v := v0) h m0 k0) m1)

theorem Frames.set_host_rigger {m : Nat} {r s : State} {v0 : HostPort} {v1 : Rigger} (h : Frames m r s) (m0 : m.testBit 7 = true) (k0 : s.host.mem.wf = true → v0.mem.wf = true) (m1 : m.testBit 9 = true) :
    Frames m r { s with host := v0, rigger := v1 } := (Frames.set_rigger (s := { s with host := v0 }) (v := v1) (Frames.set_host (s := s) (v := v0) h m0 k0) m1)

theorem Frames.set_host_rigger_power {m : Nat} {r s : State} {v0 : HostPort} {v1 : Rigger} {v2 : Power} (h : Frames m r s) (m0 : m.testBit 7 = true) (k0 : s.host.mem.wf = true → v0.mem.wf = true) (m1 : m.testBit 9 = true) (m2 : m.testBit 15 = true) :
    Frames m r { s with host := v0, rigger := v1, power := v2 } := (Frames.set_power (s := { s with host := v0, rigger := v1 }) (v := v2) (Frames.set_rigger (s := { s with host := v0 }) (v := v1) (Frames.set_host (s := s) (v := v0) h m0 k0) m1) m2)

theorem Frames.set_now_rigger {m : Nat} {r s : State} {v0 : U64} {v1 : Rigger} (h : Frames m r s) (m0 : m.testBit 0 = true) (m1 : m.testBit 9 = true) :
    Frames m r { s with now := v0, rigger := v1 } := (Frames.set_rigger (s := { s with now := v0 }) (v := v1) (Frames.set_now (s := s) (v := v0) h m0) m1)

theorem Frames.set_rigger_power {m : Nat} {r s : State} {v0 : Rigger} {v1 : Power} (h : Frames m r s) (m0 : m.testBit 9 = true) (m1 : m.testBit 15 = true) :
    Frames m r { s with rigger := v0, power := v1 } := (Frames.set_power (s := { s with rigger := v0 }) (v := v1) (Frames.set_rigger (s := s) (v := v0) h m0) m1)

/-! ## Ops -/

theorem emit_frames {s : State} {o : Out} : Frames 524288 s (emit s o) := by
  unfold emit
  try dsimp only
  repeat' first
    | with_reducible apply Frames.refl
    | with_reducible assumption
    | (show _ = _; rfl)
    | with_reducible apply Frames.set_out

theorem setObj_frames {s : State} {f idx sub : Nat} {v : List Byte} : Frames 16384 s (setObj s f idx sub v) := by
  unfold setObj
  try dsimp only
  repeat' first
    | with_reducible apply Frames.refl
    | with_reducible assumption
    | (show _ = _; rfl)
    | dsimp only
    | with_reducible apply Frames.set_dict

theorem dropObj_frames {s : State} {f idx sub : Nat} : Frames 16384 s (dropObj s f idx sub) := by
  unfold dropObj
  try dsimp only
  repeat' first
    | with_reducible apply Frames.refl
    | with_reducible assumption
    | (show _ = _; rfl)
    | dsimp only
    | with_reducible apply Frames.set_dict

theorem ctrAdd_frames {s : State} {f idx sub n : Nat} : Frames 16384 s (ctrAdd s f idx sub n) := by
  unfold ctrAdd
  try dsimp only
  repeat' first
    | with_reducible apply Frames.refl
    | with_reducible assumption
    | (show _ = _; rfl)
    | with_reducible apply Frames.set_dict

theorem ctrZero_frames {s : State} {f idx sub : Nat} : Frames 16384 s (ctrZero s f idx sub) := by
  unfold ctrZero
  try dsimp only
  repeat' first
    | with_reducible apply Frames.refl
    | with_reducible assumption
    | (show _ = _; rfl)
    | with_reducible apply Frames.set_dict

theorem evAdd_frames {s : State} {code unit part n : Nat} : Frames 262144 s (evAdd s code unit part n) := by
  unfold evAdd
  try dsimp only
  repeat' first
    | with_reducible apply Frames.refl
    | with_reducible assumption
    | (show _ = _; rfl)
    | dsimp only
    | ((with_reducible apply Frames.set_counters) <;> [skip; rfl; (first | exact fun h => h | exact fun h => put_ok _ _ h | exact fun h => memFresh_ok _ h | exact fun h => devFresh_ok h | exact fun h => ⟨h.1, writeN_wf _ _ _ h.2⟩ | exact fun h => writeN_wf _ _ _ h | exact fun h => writeL_wf _ _ h)])

theorem genBump_frames {s : State} {f idx sub : Nat} : Frames 16384 s (genBump s f idx sub) := by
  unfold genBump
  try dsimp only
  repeat' first
    | with_reducible apply Frames.refl
    | with_reducible assumption
    | (show _ = _; rfl)
    | dsimp only
    | with_reducible apply Frames.set_dict

theorem hbmPut_frames {s : State} {ps : List (Nat × Byte)} : Frames 64 s (hbmPut s ps) := by
  unfold hbmPut
  try dsimp only
  repeat' first
    | with_reducible apply Frames.refl
    | with_reducible assumption
    | (show _ = _; rfl)
    | fail_if_no_progress ((with_reducible apply Frames.set_hbm) <;> [skip; rfl; (first | exact fun h => h | exact fun h => put_ok _ _ h | exact fun h => memFresh_ok _ h | exact fun h => devFresh_ok h | exact fun h => ⟨h.1, writeN_wf _ _ _ h.2⟩ | exact fun h => writeN_wf _ _ _ h | exact fun h => writeL_wf _ _ h)])
    | with_reducible apply Frames.ite
    | split
    | dsimp only

theorem hbmWriteL_frames {s : State} {p : Fin 8} {ws : List (Nat × Byte)} : Frames 64 s (hbmWriteL s p ws) := by
  unfold hbmWriteL
  try dsimp only
  repeat' first
    | with_reducible apply Frames.refl
    | with_reducible assumption
    | (show _ = _; rfl)
    | with_reducible apply Frames.step (g := hbmPut_frames)
    | with_reducible apply Frames.ite
    | split
    | dsimp only

theorem hbmWriteN_frames {s : State} {p : Fin 8} {a : Nat} {bs : List Byte} : Frames 64 s (hbmWriteN s p a bs) := by
  unfold hbmWriteN
  try dsimp only
  repeat' first
    | with_reducible apply Frames.refl
    | with_reducible assumption
    | (show _ = _; rfl)
    | with_reducible apply Frames.step (g := hbmWriteL_frames)
    | dsimp only

theorem devWrite_frames {s : State} {stack off : Nat} {bs : List Byte} : Frames 64 s (devWrite s stack off bs) := by
  unfold devWrite
  try dsimp only
  repeat' first
    | with_reducible apply Frames.refl
    | with_reducible assumption
    | (show _ = _; rfl)
    | ((with_reducible apply Frames.set_hbm) <;> [skip; rfl; (first | exact fun h => h | exact fun h => put_ok _ _ h | exact fun h => memFresh_ok _ h | exact fun h => devFresh_ok h | exact fun h => ⟨h.1, writeN_wf _ _ _ h.2⟩ | exact fun h => writeN_wf _ _ _ h | exact fun h => writeL_wf _ _ h)])

theorem palletWriteL_frames {s : State} {n : Fin 8} {ws : List (Nat × Byte)} : Frames 20 s (palletWriteL s n ws) := by
  unfold palletWriteL
  try dsimp only
  repeat' first
    | with_reducible apply Frames.refl
    | with_reducible assumption
    | (show _ = _; rfl)
    | ((with_reducible apply updPallet_step) <;> [skip; rfl; (intro hp; first | exact hp | exact writeL_wf _ _ hp | rfl)])
    | with_reducible apply Frames.step (g := updCourse_frames)
    | with_reducible apply Frames.ite
    | split
    | dsimp only

theorem palletWriteN_frames {s : State} {n : Fin 8} {a : Nat} {bs : List Byte} : Frames 20 s (palletWriteN s n a bs) := by
  unfold palletWriteN
  try dsimp only
  repeat' first
    | with_reducible apply Frames.refl
    | with_reducible assumption
    | (show _ = _; rfl)
    | with_reducible apply Frames.step (g := palletWriteL_frames)
    | dsimp only

theorem palletFix_frames {s : State} {n : Fin 8} {as : List Nat} : Frames 16400 s (palletFix s n as) := by
  unfold palletFix
  try dsimp only
  repeat' first
    | with_reducible apply Frames.refl
    | with_reducible assumption
    | (show _ = _; rfl)
    | with_reducible apply Frames.step (g := ctrAdd_frames)
    | ((with_reducible apply updPallet_step) <;> [skip; rfl; (intro hp; first | exact hp | exact writeL_wf _ _ hp | rfl)])
    | with_reducible apply Frames.ite
    | split
    | dsimp only

theorem stallAdd_frames {s : State} {idx sub : Nat} : Frames 16386 s (stallAdd s idx sub) := by
  unfold stallAdd
  try dsimp only
  repeat' first
    | with_reducible apply Frames.refl
    | with_reducible assumption
    | (show _ = _; rfl)
    | with_reducible apply Frames.step (g := fresh_frames)
    | with_reducible apply Frames.step (g := ctrAdd_frames)
    | with_reducible apply Frames.ite
    | split
    | with_reducible refine Frames.of_snd (by with_reducible assumption) ?_
    | dsimp only

theorem palletUeEvent_frames {s : State} {n : Fin 8} {a : Nat} : Frames 16400 s (palletUeEvent s n a) := by
  unfold palletUeEvent
  try dsimp only
  repeat' first
    | with_reducible apply Frames.refl
    | with_reducible assumption
    | (show _ = _; rfl)
    | with_reducible apply Frames.step (g := ctrAdd_frames)
    | ((with_reducible apply updPallet_step) <;> [skip; rfl; (intro hp; first | exact hp | exact writeL_wf _ _ hp | rfl)])
    | with_reducible apply Frames.ite
    | split
    | dsimp only

theorem hostPut_frames {s : State} {ws : List (Nat × Byte)} : Frames 128 s (hostPut s ws) := by
  unfold hostPut
  try dsimp only
  repeat' first
    | with_reducible apply Frames.refl
    | with_reducible assumption
    | (show _ = _; rfl)
    | fail_if_no_progress ((with_reducible apply Frames.set_host) <;> [skip; rfl; (first | exact fun h => h | exact fun h => put_ok _ _ h | exact fun h => memFresh_ok _ h | exact fun h => devFresh_ok h | exact fun h => ⟨h.1, writeN_wf _ _ _ h.2⟩ | exact fun h => writeN_wf _ _ _ h | exact fun h => writeL_wf _ _ h)])
    | with_reducible apply Frames.ite
    | split
    | dsimp only

theorem hostWrite_frames {s : State} {f : Fin 9} {ps iova : Nat} {bs : List Byte} : Frames 128 s (hostWrite s f ps iova bs) := by
  unfold hostWrite
  try dsimp only
  repeat' first
    | with_reducible apply Frames.refl
    | with_reducible assumption
    | (show _ = _; rfl)
    | with_reducible apply Frames.step (g := hostPut_frames)
    | with_reducible apply Frames.ite
    | split
    | dsimp only

theorem updStream_frames {s : State} {f : Fin 9} {q : Nat} {g : Stream → Stream} : Frames 128 s (updStream s f q g) := by
  unfold updStream
  try dsimp only
  repeat' first
    | with_reducible apply Frames.refl
    | with_reducible assumption
    | (show _ = _; rfl)
    | with_reducible apply Frames.step (g := updFunc_frames)
    | dsimp only

theorem updEntry_frames {s : State} {f : Fin 9} {q : Nat} {seq : BitVec 64} {g : EntryRun → EntryRun} : Frames 128 s (updEntry s f q seq g) := by
  unfold updEntry
  try dsimp only
  repeat' first
    | with_reducible apply Frames.refl
    | with_reducible assumption
    | (show _ = _; rfl)
    | with_reducible apply Frames.step (g := updStream_frames)
    | with_reducible apply Frames.ite
    | split
    | dsimp only

theorem signalEv_frames {s : State} {f : Fin 9} {e : Nat} : Frames 128 s (signalEv s f e) := by
  unfold signalEv
  try dsimp only
  repeat' first
    | with_reducible apply Frames.refl
    | with_reducible assumption
    | (show _ = _; rfl)
    | with_reducible apply Frames.step (g := updFunc_frames)
    | with_reducible apply Frames.ite
    | split
    | dsimp only

theorem raiseTo_frames {s : State} {sees : Session → Bool} {cls code subject : Nat} {payload : List Byte} : Frames 8192 s (raiseTo s sees cls code subject payload) := by
  unfold raiseTo
  try dsimp only
  repeat' first
    | with_reducible apply Frames.refl
    | with_reducible assumption
    | (show _ = _; rfl)
    | with_reducible apply Frames.ite
    | split
    | dsimp only
    | with_reducible apply Frames.set_evolu

theorem raiseEvent_frames {s : State} {cls code : Nat} {subject : Nat} {p : Nat} {payload : List Byte} : Frames 8192 s (raiseEvent s cls code subject p payload) := by
  unfold raiseEvent
  try dsimp only
  repeat' first
    | with_reducible apply Frames.refl
    | with_reducible assumption
    | (show _ = _; rfl)
    | with_reducible apply Frames.step (g := raiseTo_frames)

theorem pointLog_frames {s : State} {kind unit tag : Nat} : Frames 155648 s (pointLog s kind unit tag) := by
  unfold pointLog
  try dsimp only
  repeat' first
    | with_reducible apply Frames.refl
    | with_reducible assumption
    | (show _ = _; rfl)
    | with_reducible apply Frames.step (g := genBump_frames)
    | with_reducible apply Frames.step (g := raiseEvent_frames)
    | with_reducible apply Frames.ite
    | split
    | dsimp only
    | with_reducible apply Frames.set_pointing

theorem cardPoint_frames {s : State} {p : Option (Fin 8)} {kind unit tag : Nat} : Frames 1024 s (cardPoint s p kind unit tag) := by
  unfold cardPoint
  try dsimp only
  repeat' first
    | with_reducible apply Frames.refl
    | with_reducible assumption
    | (show _ = _; rfl)
    | ((with_reducible apply updAttempt_step) <;> [skip; rfl; (intro a h; first | exact h | exact attOk_ite h h | (split <;> exact h))])
    | ((with_reducible apply Frames.foldl) <;> [skip; intro _ _ _])
    | with_reducible apply Frames.ite
    | split
    | dsimp only

theorem checkEvent_frames {s : State} {iss : Issuer} {kind : Nat} {course : Fin 8} {lane pass tag : Nat} : Frames 1024 s (checkEvent s iss kind course lane pass tag) := by
  unfold checkEvent
  try dsimp only
  repeat' first
    | with_reducible apply Frames.refl
    | with_reducible assumption
    | (show _ = _; rfl)
    | ((with_reducible apply updAttempt_step) <;> [skip; rfl; (intro a h; first | exact h | exact attOk_ite h h | (split <;> exact h))])
    | with_reducible apply Frames.ite
    | split
    | dsimp only

theorem flashFails_frames {s : State} : Frames 147456 s (flashFails s) := by
  unfold flashFails
  exact Frames.ite (Frames.refl _ _) (((Frames.refl _ s).set_dict (v := { s.dict with flashBad := true }) rfl).set_pointing (v := { s.pointing with flashMap := mapOf s }) rfl)

theorem flashLog_frames {s : State} : Frames 155648 s (flashLog s) := by
  unfold flashLog
  try dsimp only
  repeat' first
    | with_reducible apply Frames.refl
    | with_reducible assumption
    | (show _ = _; rfl)
    | with_reducible apply Frames.step (g := pointLog_frames)
    | with_reducible apply Frames.ite
    | split
    | dsimp only

theorem mapWrite_frames {s : State} : Frames 155648 s (mapWrite s) := by
  unfold mapWrite
  try dsimp only
  repeat' first
    | with_reducible apply Frames.refl
    | with_reducible assumption
    | (show _ = _; rfl)
    | with_reducible apply Frames.step (g := genBump_frames)
    | with_reducible apply Frames.step (g := ctrAdd_frames)
    | with_reducible apply Frames.step (g := flashLog_frames)
    | with_reducible apply Frames.ite
    | split
    | dsimp only

theorem moduleEvent_frames {s t : State} : Frames 8192 t (moduleEvent s t) := by
  unfold moduleEvent
  exact Frames.ite (Frames.refl _ _) ((Frames.refl _ _).step raiseEvent_frames rfl)

theorem setDegraded_frames {s : State} {k : Nat} : Frames 139264 s (setDegraded s k) := by
  unfold setDegraded
  try dsimp only
  repeat' first
    | with_reducible apply Frames.refl
    | with_reducible assumption
    | (show _ = _; rfl)
    | with_reducible apply Frames.step (g := moduleEvent_frames)
    | with_reducible apply Frames.set_pointing

theorem courseLeaves_frames {s : State} {n : Fin 8} {part : Nat} : Frames 139264 s (courseLeaves s n part) := by
  unfold courseLeaves
  try dsimp only
  repeat' first
    | with_reducible apply Frames.refl
    | with_reducible assumption
    | (show _ = _; rfl)
    | with_reducible apply Frames.step (g := setDegraded_frames)
    | with_reducible apply Frames.ite
    | split
    | dsimp only
    | with_reducible apply Frames.set_pointing

theorem leaveService_frames {s : State} : Frames 188416 s (leaveService s) :=
  ((((Frames.refl _ s).set_power (v := { s.power with quiesced := true }) rfl).set_pointing (v := { s.pointing with outOfService := true }) rfl).step
    mapWrite_frames rfl).step moduleEvent_frames rfl

theorem repairDone_frames {s : State} : Frames 155648 s (repairDone s) := by
  unfold repairDone
  try dsimp only
  repeat' first
    | with_reducible apply Frames.refl
    | with_reducible assumption
    | (show _ = _; rfl)
    | with_reducible apply Frames.step (g := mapWrite_frames)
    | with_reducible apply Frames.step (g := ctrAdd_frames)
    | with_reducible apply Frames.ite
    | split
    | dsimp only

theorem askRepair_frames {s : State} {kind unit : Nat} : Frames 131072 s (askRepair s kind unit) := by
  unfold askRepair
  try dsimp only
  repeat' first
    | with_reducible apply Frames.refl
    | with_reducible assumption
    | (show _ = _; rfl)
    | with_reducible apply Frames.set_pointing

theorem askTest_frames {s : State} {id unit : Nat} : Frames 131072 s (askTest s id unit) := by
  unfold askTest
  try dsimp only
  repeat' first
    | with_reducible apply Frames.refl
    | with_reducible assumption
    | (show _ = _; rfl)
    | fail_if_no_progress ((with_reducible apply Frames.set_pointing) <;> [skip; rfl])
    | with_reducible apply Frames.ite
    | split
    | dsimp only

theorem actDone_frames {s : State} {id unit : Nat} : Frames 131072 s (actDone s id unit) := by
  unfold actDone
  try dsimp only
  repeat' first
    | with_reducible apply Frames.refl
    | with_reducible assumption
    | (show _ = _; rfl)
    | fail_if_no_progress ((with_reducible apply Frames.set_pointing) <;> [skip; rfl])
    | with_reducible apply Frames.ite
    | split
    | dsimp only

theorem reach_frames {s : State} {t : U64} : Frames 1 s (reach s t) := by
  unfold reach
  try dsimp only
  repeat' first
    | with_reducible apply Frames.refl
    | with_reducible assumption
    | (show _ = _; rfl)
    | with_reducible apply Frames.ite
    | split
    | with_reducible apply Frames.set_now

/-! ## Regulator -/

theorem setBucket_frames {s : State} {b : Bucket} : Frames 64 s (setBucket s b) := by
  unfold setBucket
  try dsimp only
  repeat' first
    | with_reducible apply Frames.refl
    | with_reducible assumption
    | (show _ = _; rfl)
    | dsimp only
    | ((with_reducible apply Frames.set_hbm) <;> [skip; rfl; (first | exact fun h => h | exact fun h => put_ok _ _ h | exact fun h => memFresh_ok _ h | exact fun h => devFresh_ok h | exact fun h => ⟨h.1, writeN_wf _ _ _ h.2⟩ | exact fun h => writeN_wf _ _ _ h | exact fun h => writeL_wf _ _ h)])

theorem regServe_frames {s : State} {w : RegWait} {guar : Bool} : Frames 786496 s (regServe s w guar) := by
  unfold regServe
  try dsimp only
  repeat' first
    | with_reducible apply Frames.refl
    | with_reducible assumption
    | (show _ = _; rfl)
    | with_reducible apply Frames.step (g := evAdd_frames)
    | with_reducible apply Frames.step (g := setBucket_frames)
    | with_reducible apply Frames.step (g := emit_frames)
    | with_reducible apply Frames.ite
    | split
    | dsimp only

theorem servePass_frames {borrowed : Bool} {s : State} {l : List (RegWait × Nat)} : Frames 786496 s (servePass borrowed s l).1 := by
  unfold servePass
  try dsimp only
  repeat' first
    | with_reducible apply Frames.refl
    | with_reducible assumption
    | (show _ = _; rfl)
    | with_reducible apply Frames.step (g := regServe_frames)
    | ((with_reducible apply Frames.foldl) <;> [skip; intro _ _ _])
    | ((with_reducible apply Frames.foldl_fst) <;> [skip; intro _ _ _])
    | ((with_reducible apply Frames.foldl_snd) <;> [skip; intro _ _ _])
    | with_reducible apply Frames.ite
    | split
    | with_reducible refine Frames.of_fst (by with_reducible assumption) ?_
    | with_reducible refine Frames.of_snd (by with_reducible assumption) ?_
    | dsimp only

theorem serveRegs_frames {s : State} : Frames 786496 s (serveRegs s) := by
  unfold serveRegs
  refine Frames.ite (Frames.refl _ _) ?_
  generalize (s.hbm.waits.map (regAged s)).zipIdx = l0
  have h1 : Frames 786496 s (servePass false s l0).1 := servePass_frames
  generalize servePass false s l0 = x at h1 ⊢
  obtain ⟨s1, l1⟩ := x
  dsimp only at h1 ⊢
  have h2 : Frames 786496 s (servePass true s1 (drrOrder l1)).1 := h1.step servePass_frames rfl
  generalize servePass true s1 (drrOrder l1) = y at h2 ⊢
  obtain ⟨s2, l2⟩ := y
  exact Frames.set_hbm h2 rfl fun h => h

theorem regAsk_frames {s : State} {ws : List RegWait} : Frames 786496 s (regAsk s ws) := by
  unfold regAsk
  refine Frames.ite (Frames.refl _ _) (Frames.step (Frames.set_hbm (Frames.refl _ _) rfl ?_) serveRegs_frames rfl)
  exact fun h => h

/-! ## Meters -/

theorem meter_frames {s : State} {owner code unit : Nat} : Frames 2 s (meter s owner code unit).2 := by
  unfold meter
  try dsimp only
  repeat' first
    | with_reducible apply Frames.refl
    | with_reducible assumption
    | (show _ = _; rfl)
    | with_reducible apply Frames.step (g := fresh_frames)
    | with_reducible apply Frames.ite
    | split
    | with_reducible refine Frames.of_snd (by with_reducible assumption) ?_
    | dsimp only

theorem meters_frames {s : State} {owner unit : Nat} {l : List Nat} : Frames 2 s (meters s owner unit l).2 := by
  induction l generalizing s with
  | nil => exact Frames.refl _ _
  | cons c cs ih => exact (meter_frames.mono rfl).step ih rfl

theorem entryStart_frames {s : State} {f : Fin 9} {q : Nat} {e : EntryRun} : Frames 130 s (entryStart s f q e) := by
  unfold entryStart
  try dsimp only
  repeat' first
    | with_reducible apply Frames.refl
    | with_reducible assumption
    | (show _ = _; rfl)
    | with_reducible apply Frames.step (g := meters_frames)
    | with_reducible apply Frames.step (g := updEntry_frames)
    | with_reducible apply Frames.ite
    | split
    | with_reducible refine Frames.of_snd (by with_reducible assumption) ?_
    | dsimp only

theorem entryDone_frames {s : State} {f : Fin 9} {q : Nat} {seq : BitVec 64} {res : Res} : Frames 130 s (entryDone s f q seq res) := by
  unfold entryDone
  try dsimp only
  repeat' first
    | with_reducible apply Frames.refl
    | with_reducible assumption
    | (show _ = _; rfl)
    | with_reducible apply Frames.step (g := meters_frames)
    | with_reducible apply Frames.step (g := updEntry_frames)
    | with_reducible apply Frames.ite
    | split
    | with_reducible refine Frames.of_snd (by with_reducible assumption) ?_
    | dsimp only

/-! ## Attempt -/

theorem programFault_frames {s : State} {c : Fin 16} : Frames 1024 s (programFault s c) := by
  unfold programFault
  try dsimp only
  repeat' first
    | with_reducible apply Frames.refl
    | with_reducible assumption
    | (show _ = _; rfl)
    | ((with_reducible apply updAttempt_step) <;> [skip; rfl; (intro a h; first | exact h | exact attOk_ite h h | (split <;> exact h))])
    | dsimp only

theorem ownerSignal_frames {s : State} {st : Option (Fin 9 × Fin 64)} {f : Fin 9} {e : Nat} : Frames 4 s (ownerSignal s st f e) := by
  unfold ownerSignal
  try dsimp only
  repeat' first
    | with_reducible apply Frames.refl
    | with_reducible assumption
    | (show _ = _; rfl)
    | with_reducible apply Frames.ite
    | split
    | dsimp only
    | with_reducible apply Frames.set_courses

theorem coxMmDone_frames {s : State} {p : Fin 8} {k : Nat} {res : Res} : Frames 4096 s (coxMmDone s p k res) := by
  unfold coxMmDone
  try dsimp only
  repeat' first
    | with_reducible apply Frames.refl
    | with_reducible assumption
    | (show _ = _; rfl)
    | with_reducible apply Frames.step (g := updCox_frames)
    | with_reducible apply Frames.ite
    | split
    | dsimp only

theorem clusterWrite_ok {a : Attempt} {k addr : Nat} {bs : List Byte} (h : AttOk a) : AttOk (clusterWrite a k addr bs) := by
  intro m hm
  simp only [clusterWrite, List.mem_map] at hm
  obtain ⟨⟨x, i⟩, hx, rfl⟩ := hm
  have hx := h x (List.fst_mem_of_mem_zipIdx hx)
  dsimp only
  split
  · exact writeN_wf _ _ _ hx
  · exact hx

theorem noteResult_ok {a : Attempt} {l : Option Nat} {r : Res} (h : AttOk a) : AttOk (noteResult a l r) := by
  unfold noteResult
  dsimp only
  split
  · exact attOk_ite h h
  · exact h

theorem unitRecord_ok {s : State} {a : Attempt} {k : Fin 4} {i : Fin 8} {seq op tag : Nat} {r : Res} (h : AttOk a) :
    AttOk (unitRecord s a k i seq op tag r) := by
  unfold unitRecord
  exact clusterWrite_ok h

theorem retireNoted_frames {s : State} {iss : Issuer} {op tag ev : Nat} {layer : Option Nat} {res : Res} :
    Frames 5254 s (retireNoted s iss op tag ev layer res) := by
  unfold retireNoted
  dsimp only
  split
  · split
    · rename_i ha
      refine Frames.ite ?_ (Frames.refl _ _)
      split
      · refine Frames.step (Frames.step (Frames.step (Frames.refl _ _) (updCrew_frames ?_) ?_) signalEv_frames ?_) ownerSignal_frames ?_
        · exact crewOk_some ha rfl fun h => noteResult_ok (unitRecord_ok h)
        all_goals rfl
      · refine Frames.step (Frames.refl _ _) (updCrew_frames ?_) ?_
        · exact crewOk_some ha rfl fun h => noteResult_ok (unitRecord_ok h)
        · rfl
    · exact Frames.refl _ _
  · exact entryDone_frames.mono rfl
  · exact coxMmDone_frames.mono rfl

theorem retireUnit_frames {s : State} {iss : Issuer} {op tag ev : Nat} {res : Res} : Frames 5254 s (retireUnit s iss op tag ev res) := by
  unfold retireUnit
  try dsimp only
  repeat' first
    | with_reducible apply Frames.refl
    | with_reducible assumption
    | (show _ = _; rfl)
    | with_reducible apply Frames.step (g := retireNoted_frames)

theorem bookIssue_frames {s : State} {c : Fin 16} {w : Who} {k : CoreRun} : Frames 1024 s (bookIssue s c w k) := by
  unfold bookIssue
  try dsimp only
  repeat' first
    | with_reducible apply Frames.refl
    | with_reducible assumption
    | (show _ = _; rfl)
    | ((with_reducible apply updAttempt_step) <;> [skip; rfl; (intro a h; first | exact h | exact attOk_ite h h | (split <;> exact h))])
    | with_reducible apply Frames.ite
    | split
    | dsimp only

theorem issueStore_step {m : Nat} {r s : State} {w : Who} {ok : State → Fin 16 → Fin 8 → Bool} {op tag ev : Nat}
    {go : State → Fin 16 → Fin 8 → Issuer → State} (h : Frames m r s) (hgo : ∀ s c p i, Frames m r s → Frames m r (go s c p i))
    (hm : 529542 ||| m = m) : Frames m r (issueStore s w ok op tag ev go) := by
  unfold issueStore
  split
  · exact h
  · split
    · exact h
    · refine Frames.ite ?_ ?_
      · exact h.step (((Frames.refl 529542 s).step programFault_frames rfl).step emit_frames rfl) hm
      · dsimp only
        have h1 : ∀ c k, Frames 529542 s (bookIssue s c w k) := fun c k => (Frames.refl 529542 s).step bookIssue_frames rfl
        refine Frames.ite (h.step ((h1 _ _).step retireUnit_frames rfl) hm) ?_
        exact hgo _ _ _ _ (h.step (h1 _ _) hm)

/-! ## Place -/

theorem hbmWriteP_frames {s : State} {p : Option (Fin 8)} {ws : List (Nat × Byte)} : Frames 64 s (hbmWriteP s p ws) := by
  unfold hbmWriteP
  try dsimp only
  repeat' first
    | with_reducible apply Frames.refl
    | with_reducible assumption
    | (show _ = _; rfl)
    | with_reducible apply Frames.step (g := hbmPut_frames)
    | with_reducible apply Frames.ite
    | split
    | dsimp only

theorem memoryEvent_frames {s : State} {code : Nat} {m : Nat} : Frames 8192 s (memoryEvent s code m) := by
  unfold memoryEvent
  try dsimp only
  repeat' first
    | with_reducible apply Frames.refl
    | with_reducible assumption
    | (show _ = _; rfl)
    | with_reducible apply Frames.step (g := raiseTo_frames)
    | dsimp only

theorem rowEvent_frames {s : State} {k : Fin 20} {pc o : Nat} {ue : Bool} : Frames 131136 s (rowEvent s k pc o ue) := by
  unfold rowEvent
  try dsimp only
  repeat' first
    | with_reducible apply Frames.refl
    | with_reducible assumption
    | (show _ = _; rfl)
    | with_reducible apply Frames.step (g := updStack_frames)
    | with_reducible apply Frames.step (g := askRepair_frames)
    | with_reducible apply Frames.ite
    | split
    | dsimp only

theorem ueEvent_frames {s : State} {code m : Nat} : Frames 155712 s (ueEvent s code m) := by
  unfold ueEvent
  try dsimp only
  repeat' first
    | with_reducible apply Frames.refl
    | with_reducible assumption
    | (show _ = _; rfl)
    | with_reducible apply Frames.step (g := memoryEvent_frames)
    | with_reducible apply Frames.step (g := ctrAdd_frames)
    | with_reducible apply Frames.step (g := rowEvent_frames)
    | with_reducible apply Frames.step (g := updStack_frames)
    | with_reducible apply Frames.ite
    | split
    | dsimp only

theorem ueEventAt_frames {s : State} {p : Option (Fin 8)} {a : Nat} : Frames 155712 s (ueEventAt s p a) := by
  unfold ueEventAt
  try dsimp only
  repeat' first
    | with_reducible apply Frames.refl
    | with_reducible assumption
    | (show _ = _; rfl)
    | with_reducible apply Frames.step (g := ueEvent_frames)
    | split
    | dsimp only

theorem correctSector_frames {s : State} {x : Nat} : Frames 147520 s (correctSector s x) := by
  unfold correctSector
  try dsimp only
  repeat' first
    | with_reducible apply Frames.refl
    | with_reducible assumption
    | (show _ = _; rfl)
    | with_reducible apply Frames.step (g := ctrAdd_frames)
    | with_reducible apply Frames.step (g := rowEvent_frames)
    | fail_if_no_progress ((with_reducible apply Frames.set_hbm) <;> [skip; rfl; (first | exact fun h => h | exact fun h => put_ok _ _ h | exact fun h => memFresh_ok _ h | exact fun h => devFresh_ok h | exact fun h => ⟨h.1, writeN_wf _ _ _ h.2⟩ | exact fun h => writeN_wf _ _ _ h | exact fun h => writeL_wf _ _ h)])
    | with_reducible apply Frames.ite
    | split
    | dsimp only

theorem hbmFix_frames {s : State} {p : Option (Fin 8)} {as : List Nat} : Frames 147520 s (hbmFix s p as) := by
  unfold hbmFix
  try dsimp only
  repeat' first
    | with_reducible apply Frames.refl
    | with_reducible assumption
    | (show _ = _; rfl)
    | with_reducible apply Frames.step (g := correctSector_frames)
    | ((with_reducible apply Frames.foldl) <;> [skip; intro _ _ _])
    | ((with_reducible apply Frames.foldl_fst) <;> [skip; intro _ _ _])
    | ((with_reducible apply Frames.foldl_snd) <;> [skip; intro _ _ _])
    | with_reducible apply Frames.ite
    | split
    | with_reducible refine Frames.of_fst (by with_reducible assumption) ?_
    | with_reducible refine Frames.of_snd (by with_reducible assumption) ?_
    | dsimp only

theorem undoSave_frames {s : State} {c : Fin 16} {p : Fin 8} {as : List Nat} : Frames 1088 s (undoSave s c p as) := by
  unfold undoSave
  try dsimp only
  repeat' first
    | with_reducible apply Frames.refl
    | with_reducible assumption
    | (show _ = _; rfl)
    | with_reducible apply Frames.step (g := hbmWriteN_frames)
    | ((with_reducible apply updAttempt_step) <;> [skip; rfl; (intro a h; first | exact h | exact attOk_ite h h | (split <;> exact h) | exact clusterWrite_ok h)])
    | ((with_reducible apply Frames.foldl) <;> [skip; intro _ _ _])
    | ((with_reducible apply Frames.foldl_fst) <;> [skip; intro _ _ _])
    | ((with_reducible apply Frames.foldl_snd) <;> [skip; intro _ _ _])
    | with_reducible apply Frames.ite
    | split
    | with_reducible refine Frames.of_fst (by with_reducible assumption) ?_
    | with_reducible refine Frames.of_snd (by with_reducible assumption) ?_
    | dsimp only

theorem undoGranule_frames {s : State} {c : Fin 16} {p : Fin 8} {g : Nat} : Frames 155712 s (undoGranule s c p g) := by
  unfold undoGranule
  try dsimp only
  repeat' first
    | with_reducible apply Frames.refl
    | with_reducible assumption
    | (show _ = _; rfl)
    | with_reducible apply Frames.step (g := ueEventAt_frames)
    | with_reducible apply Frames.step (g := hbmFix_frames)
    | with_reducible apply Frames.step (g := hbmWriteN_frames)
    | with_reducible apply Frames.ite
    | split
    | dsimp only

theorem undoRestore_frames {s : State} {c : Fin 16} : Frames 156736 s (undoRestore s c) := by
  unfold undoRestore
  try dsimp only
  repeat' first
    | with_reducible apply Frames.refl
    | with_reducible assumption
    | (show _ = _; rfl)
    | with_reducible apply Frames.step (g := undoGranule_frames)
    | ((with_reducible apply updAttempt_step) <;> [skip; rfl; (intro a h; first | exact h | exact attOk_ite h h | (split <;> exact h) | exact clusterWrite_ok h)])
    | ((with_reducible apply Frames.foldl) <;> [skip; intro _ _ _])
    | ((with_reducible apply Frames.foldl_fst) <;> [skip; intro _ _ _])
    | ((with_reducible apply Frames.foldl_snd) <;> [skip; intro _ _ _])
    | with_reducible apply Frames.ite
    | split
    | with_reducible refine Frames.of_fst (by with_reducible assumption) ?_
    | with_reducible refine Frames.of_snd (by with_reducible assumption) ?_
    | dsimp only

theorem spaceWriteL_frames {s : State} {f : Fin 9} {p : Option (Fin 8)} {ws : List (Nat × Byte)} : Frames 212 s (spaceWriteL s f p ws) := by
  unfold spaceWriteL
  try dsimp only
  repeat' first
    | with_reducible apply Frames.refl
    | with_reducible assumption
    | (show _ = _; rfl)
    | with_reducible apply Frames.step (g := palletWriteL_frames)
    | with_reducible apply Frames.step (g := hbmWriteP_frames)
    | with_reducible apply Frames.step (g := hostPut_frames)
    | ((with_reducible apply Frames.foldl) <;> [skip; intro _ _ _])
    | ((with_reducible apply Frames.foldl_fst) <;> [skip; intro _ _ _])
    | ((with_reducible apply Frames.foldl_snd) <;> [skip; intro _ _ _])
    | with_reducible apply Frames.ite
    | split
    | with_reducible refine Frames.of_fst (by with_reducible assumption) ?_
    | with_reducible refine Frames.of_snd (by with_reducible assumption) ?_
    | dsimp only

theorem spaceFix_frames {s : State} {p : Option (Fin 8)} {es : List Nat} : Frames 147536 s (spaceFix s p es) := by
  unfold spaceFix
  try dsimp only
  repeat' first
    | with_reducible apply Frames.refl
    | with_reducible assumption
    | (show _ = _; rfl)
    | with_reducible apply Frames.step (g := palletFix_frames)
    | with_reducible apply Frames.step (g := hbmFix_frames)
    | ((with_reducible apply Frames.foldl) <;> [skip; intro _ _ _])
    | ((with_reducible apply Frames.foldl_fst) <;> [skip; intro _ _ _])
    | ((with_reducible apply Frames.foldl_snd) <;> [skip; intro _ _ _])
    | with_reducible apply Frames.ite
    | split
    | with_reducible refine Frames.of_fst (by with_reducible assumption) ?_
    | with_reducible refine Frames.of_snd (by with_reducible assumption) ?_
    | dsimp only

theorem atcUse_frames {s : State} {f : Fin 9} {es : List Nat} : Frames 128 s (atcUse s f es) := by
  unfold atcUse
  try dsimp only
  repeat' first
    | with_reducible apply Frames.refl
    | with_reducible assumption
    | (show _ = _; rfl)
    | with_reducible apply Frames.step (g := updFunc_frames)
    | with_reducible apply Frames.ite
    | split
    | dsimp only

theorem coarseWaste_frames {s : State} {p : Option (Fin 8)} {rs : List (Nat × Nat × List Nat)} : Frames 16384 s (coarseWaste s p rs) := by
  unfold coarseWaste
  try dsimp only
  repeat' first
    | with_reducible apply Frames.refl
    | with_reducible assumption
    | (show _ = _; rfl)
    | with_reducible apply Frames.step (g := ctrAdd_frames)
    | ((with_reducible apply Frames.foldl) <;> [skip; intro _ _ _])
    | ((with_reducible apply Frames.foldl_fst) <;> [skip; intro _ _ _])
    | ((with_reducible apply Frames.foldl_snd) <;> [skip; intro _ _ _])
    | with_reducible apply Frames.ite
    | split
    | with_reducible refine Frames.of_fst (by with_reducible assumption) ?_
    | with_reducible refine Frames.of_snd (by with_reducible assumption) ?_
    | dsimp only

theorem hbmCharge_frames {s : State} {p : Option (Fin 8)} {rs : List (Nat × Nat × List Nat)} : Frames 786496 s (hbmCharge s p rs) := by
  unfold hbmCharge
  try dsimp only
  repeat' first
    | with_reducible apply Frames.refl
    | with_reducible assumption
    | (show _ = _; rfl)
    | with_reducible apply Frames.step (g := regAsk_frames)
    | with_reducible apply Frames.ite
    | split
    | dsimp only

theorem hbmTraffic_frames {s : State} {p : Option (Fin 8)} {as : List Nat} : Frames 786496 s (hbmTraffic s p as) := by
  unfold hbmTraffic
  try dsimp only
  repeat' first
    | with_reducible apply Frames.refl
    | with_reducible assumption
    | (show _ = _; rfl)
    | with_reducible apply Frames.step (g := hbmCharge_frames)
    | with_reducible apply Frames.ite
    | split
    | dsimp only

theorem someOf_frames {s : State} {ws : List α} : Frames 2 s (someOf s ws).2 := by
  unfold someOf
  try dsimp only
  repeat' first
    | with_reducible apply Frames.refl
    | with_reducible assumption
    | (show _ = _; rfl)
    | dsimp only
    | with_reducible apply Frames.set_free

theorem freeBytesAt_frames {s : State} {es : List Nat} : Frames 2 s (freeBytesAt s es).2 := by
  unfold freeBytesAt
  try dsimp only
  repeat' first
    | with_reducible apply Frames.refl
    | with_reducible assumption
    | (show _ = _; rfl)
    | dsimp only
    | with_reducible apply Frames.set_free

theorem someFlags_frames {s : State} {fl : FlagByte} : Frames 2 s (someFlags s fl).2 := by
  unfold someFlags
  try dsimp only
  repeat' first
    | with_reducible apply Frames.refl
    | with_reducible assumption
    | (show _ = _; rfl)
    | with_reducible apply Frames.step (g := fresh_frames)
    | with_reducible apply Frames.ite
    | split
    | with_reducible refine Frames.of_snd (by with_reducible assumption) ?_
    | dsimp only

theorem hbmAdds_frames {s : State} {p : Fin 8} {fmt : Nat} {l : List (Nat × Nat)} : Frames 64 s (hbmAdds s p fmt l).1 := by
  unfold hbmAdds
  try dsimp only
  repeat' first
    | with_reducible apply Frames.refl
    | with_reducible assumption
    | (show _ = _; rfl)
    | with_reducible apply Frames.step (g := hbmWriteP_frames)
    | ((with_reducible apply Frames.foldl) <;> [skip; intro _ _ _])
    | ((with_reducible apply Frames.foldl_fst) <;> [skip; intro _ _ _])
    | split
    | dsimp only

/-! ## Links -/

theorem sendCtlOn_frames {s : State} {p : Fin 16} {lane : Option (Fin 4)} {ctype aux param val0 val1 : Nat} : Frames 524800 s (sendCtlOn s p lane ctype aux param val0 val1) := by
  unfold sendCtlOn
  try dsimp only
  repeat' first
    | with_reducible apply Frames.refl
    | with_reducible assumption
    | (show _ = _; rfl)
    | with_reducible apply Frames.step (g := emit_frames)
    | with_reducible apply Frames.step (g := updPort_frames)
    | with_reducible apply Frames.ite
    | split
    | dsimp only

theorem sendCtl_frames {s : State} {p : Fin 16} {ctype aux param val0 val1 : Nat} : Frames 524800 s (sendCtl s p ctype aux param val0 val1) := by
  unfold sendCtl
  try dsimp only
  repeat' first
    | with_reducible apply Frames.refl
    | with_reducible assumption
    | (show _ = _; rfl)
    | with_reducible apply Frames.step (g := sendCtlOn_frames)
    | with_reducible apply Frames.ite
    | split
    | dsimp only

theorem sendAlign_frames {s : State} {p : Fin 16} {l : Fin 4} : Frames 524800 s (sendAlign s p l) := by
  unfold sendAlign
  try dsimp only
  repeat' first
    | with_reducible apply Frames.refl
    | with_reducible assumption
    | (show _ = _; rfl)
    | with_reducible apply Frames.step (g := sendCtlOn_frames)
    | with_reducible apply Frames.step (g := updPort_frames)
    | with_reducible apply Frames.ite
    | split
    | dsimp only

theorem countMiscabled_frames {s : State} {dst : Nat} : Frames 16384 s (countMiscabled s dst) := by
  unfold countMiscabled
  try dsimp only
  repeat' first
    | with_reducible apply Frames.refl
    | with_reducible assumption
    | (show _ = _; rfl)
    | with_reducible apply Frames.step (g := ctrAdd_frames)
    | with_reducible apply Frames.ite
    | split
    | dsimp only

theorem transmitNow_frames {s : State} {p : Fin 16} {hop : Bool} {raw : List Byte} : Frames 803328 s (transmitNow s p hop raw) := by
  unfold transmitNow
  try dsimp only
  repeat' first
    | with_reducible apply Frames.refl
    | with_reducible assumption
    | (show _ = _; rfl)
    | with_reducible apply Frames.step (g := updPort_frames)
    | with_reducible apply Frames.step (g := ctrAdd_frames)
    | with_reducible apply Frames.step (g := emit_frames)
    | with_reducible apply Frames.step (g := evAdd_frames)
    | with_reducible apply Frames.ite
    | split
    | dsimp only

theorem leaveNow_frames {s : State} {p : Fin 16} {w : Queued} : Frames 803328 s (leaveNow s p w) := by
  unfold leaveNow
  try dsimp only
  repeat' first
    | with_reducible apply Frames.refl
    | with_reducible assumption
    | (show _ = _; rfl)
    | with_reducible apply Frames.step (g := transmitNow_frames)
    | with_reducible apply Frames.step (g := updPort_frames)
    | with_reducible apply Frames.ite
    | split
    | dsimp only

theorem flushRank_frames {s : State} {p : Fin 16} {r : Nat} : Frames 803328 s (flushRank s p r) := by
  unfold flushRank
  try dsimp only
  repeat' first
    | with_reducible apply Frames.refl
    | with_reducible assumption
    | (show _ = _; rfl)
    | with_reducible apply Frames.step (g := leaveNow_frames)
    | ((with_reducible apply Frames.foldl) <;> [skip; intro _ _ _])
    | ((with_reducible apply Frames.foldl_fst) <;> [skip; intro _ _ _])
    | ((with_reducible apply Frames.foldl_snd) <;> [skip; intro _ _ _])
    | with_reducible apply Frames.ite
    | split
    | with_reducible refine Frames.of_fst (by with_reducible assumption) ?_
    | with_reducible refine Frames.of_snd (by with_reducible assumption) ?_
    | dsimp only

theorem flushShares_frames {k : Nat} {s : State} {x2 : Fin 16} : Frames 803328 s (flushShares k s x2) := by
  induction k generalizing s x2 with
  | zero => exact Frames.refl _ _
  | succ k ih =>
    unfold flushShares
    repeat' first
      | with_reducible apply Frames.refl
      | with_reducible apply Frames.step (g := ih)
      | with_reducible assumption
      | (show _ = _; rfl)
      | with_reducible apply Frames.step (g := updPort_frames)
      | with_reducible apply Frames.step (g := leaveNow_frames)
      | with_reducible apply Frames.ite
      | split
      | dsimp only

theorem flushPort_frames {s : State} {p : Fin 16} : Frames 803328 s (flushPort s p) := by
  unfold flushPort
  try dsimp only
  repeat' first
    | with_reducible apply Frames.refl
    | with_reducible assumption
    | (show _ = _; rfl)
    | with_reducible apply Frames.step (g := flushRank_frames)
    | with_reducible apply Frames.step (g := flushShares_frames)
    | with_reducible apply Frames.ite
    | split
    | dsimp only

theorem queuePacket_frames {s : State} {p : Fin 16} {w : Queued} : Frames 803328 s (queuePacket s p w) := by
  unfold queuePacket
  try dsimp only
  repeat' first
    | with_reducible apply Frames.refl
    | with_reducible assumption
    | (show _ = _; rfl)
    | with_reducible apply Frames.step (g := flushPort_frames)
    | with_reducible apply Frames.step (g := updPort_frames)
    | with_reducible apply Frames.ite
    | split
    | dsimp only

theorem sendPacket_frames {s : State} {dst type : Nat} {endc : Option (BitVec 64)} {ctag offset msg xtag : Nat} {payload : List Byte} {share : Nat × Nat} : Frames 803328 s (sendPacket s dst type endc ctag offset msg xtag payload share).1 := by
  unfold sendPacket
  try dsimp only
  repeat' first
    | with_reducible apply Frames.refl
    | with_reducible assumption
    | (show _ = _; rfl)
    | with_reducible apply Frames.step (g := countMiscabled_frames)
    | with_reducible apply Frames.step (g := queuePacket_frames)
    | with_reducible apply Frames.ite
    | split
    | dsimp only

theorem takeAck_frames {s : State} {p : Fin 16} {w : Ctl} : Frames 803328 s (takeAck s p w) := by
  unfold takeAck
  try dsimp only
  repeat' first
    | with_reducible apply Frames.refl
    | with_reducible assumption
    | (show _ = _; rfl)
    | with_reducible apply Frames.step (g := updPort_frames)
    | with_reducible apply Frames.step (g := flushPort_frames)
    | with_reducible apply Frames.ite
    | split
    | dsimp only

theorem resendFrom_frames {s : State} {p : Fin 16} {from_ : BitVec 24} : Frames 540672 s (resendFrom s p from_) := by
  unfold resendFrom
  try dsimp only
  repeat' first
    | with_reducible apply Frames.refl
    | with_reducible assumption
    | (show _ = _; rfl)
    | with_reducible apply Frames.step (g := emit_frames)
    | with_reducible apply Frames.step (g := ctrAdd_frames)
    | ((with_reducible apply Frames.foldl) <;> [skip; intro _ _ _])
    | dsimp only

theorem setPort_frames {s : State} {p : Fin 16} {t : PState} : Frames 8704 s (setPort s p t) := by
  unfold setPort
  try dsimp only
  repeat' first
    | with_reducible apply Frames.refl
    | with_reducible assumption
    | (show _ = _; rfl)
    | with_reducible apply Frames.step (g := updPort_frames)
    | with_reducible apply Frames.step (g := raiseEvent_frames)
    | with_reducible apply Frames.ite
    | with_reducible apply FramesO.getD
    | split
    | ((with_reducible apply FramesO.of) <;> intro _)
    | dsimp only

/-! ## Mm -/

theorem updTile_frames {s : State} {n : Fin 8} {h : Nat} {g : Tile → Tile} : Frames 4 s (updTile s n h g) := by
  unfold updTile
  try dsimp only
  repeat' first
    | with_reducible apply Frames.refl
    | with_reducible assumption
    | (show _ = _; rfl)
    | with_reducible apply Frames.step (g := updCourse_frames)
    | dsimp only

theorem waitSpent_frames {s : State} {n : Fin 8} {hs : List Nat} : Frames 2 s (waitSpent s n hs) := by
  unfold waitSpent
  try dsimp only
  repeat' first
    | with_reducible apply Frames.refl
    | with_reducible assumption
    | (show _ = _; rfl)
    | with_reducible apply Frames.ite
    | split
    | dsimp only
    | with_reducible apply Frames.set_free

theorem tileTake_frames {s : State} {n : Fin 8} {h : Nat} {iss : Issuer} : Frames 4 s (tileTake s n h iss) := by
  unfold tileTake
  try dsimp only
  repeat' first
    | with_reducible apply Frames.refl
    | with_reducible assumption
    | (show _ = _; rfl)
    | with_reducible apply Frames.step (g := updTile_frames)
    | split
    | dsimp only

theorem tilesTake_frames {s : State} {n : Fin 8} {u : UnitCmd} : Frames 4 s (tilesTake s n u) := by
  unfold tilesTake
  try dsimp only
  repeat' first
    | with_reducible apply Frames.refl
    | with_reducible assumption
    | (show _ = _; rfl)
    | with_reducible apply Frames.step (g := tileTake_frames)
    | ((with_reducible apply Frames.foldl) <;> [skip; intro _ _ _])
    | ((with_reducible apply Frames.foldl_fst) <;> [skip; intro _ _ _])
    | ((with_reducible apply Frames.foldl_snd) <;> [skip; intro _ _ _])
    | with_reducible apply Frames.ite
    | split
    | with_reducible refine Frames.of_fst (by with_reducible assumption) ?_
    | with_reducible refine Frames.of_snd (by with_reducible assumption) ?_
    | dsimp only

theorem tileGive_frames {s : State} {n : Fin 8} {h : Nat} : Frames 4 s (tileGive s n h) := by
  unfold tileGive
  try dsimp only
  repeat' first
    | with_reducible apply Frames.refl
    | with_reducible assumption
    | (show _ = _; rfl)
    | with_reducible apply Frames.step (g := updTile_frames)
    | with_reducible apply Frames.ite
    | split
    | dsimp only

theorem tilesGive_frames {s : State} {n : Fin 8} {u : UnitCmd} : Frames 4 s (tilesGive s n u) := by
  unfold tilesGive
  try dsimp only
  repeat' first
    | with_reducible apply Frames.refl
    | with_reducible assumption
    | (show _ = _; rfl)
    | with_reducible apply Frames.step (g := tileGive_frames)
    | ((with_reducible apply Frames.foldl) <;> [skip; intro _ _ _])
    | ((with_reducible apply Frames.foldl_fst) <;> [skip; intro _ _ _])
    | ((with_reducible apply Frames.foldl_snd) <;> [skip; intro _ _ _])
    | with_reducible apply Frames.ite
    | split
    | with_reducible refine Frames.of_fst (by with_reducible assumption) ?_
    | with_reducible refine Frames.of_snd (by with_reducible assumption) ?_
    | dsimp only

/-! ## Crew -/

theorem noteSent_frames {s : State} {c : Fin 16} {r : Nat} : Frames 1024 s (noteSent s c r) := by
  unfold noteSent
  try dsimp only
  repeat' first
    | with_reducible apply Frames.refl
    | with_reducible assumption
    | (show _ = _; rfl)
    | ((with_reducible apply updCrew_step) <;> [skip; rfl; (first | exact crewOk_same rfl | exact fun _ => crewOk_none rfl | exact crewOk_map _ rfl (fun _ h => h) | exact crewOk_map _ rfl (fun _ h => attOk_ite h h) | exact fun h => crewOk_ite (crewOk_same rfl h) (crewOk_same rfl h) | exact fun h => crewOk_ite (crewOk_none rfl) (crewOk_same rfl h)| exact fun h => crewOk_ite (crewOk_same rfl h) (crewOk_none rfl))])
    | dsimp only

theorem noteHeard_frames {s : State} {c : Fin 16} {r : Nat} : Frames 1024 s (noteHeard s c r) := by
  unfold noteHeard
  try dsimp only
  repeat' first
    | with_reducible apply Frames.refl
    | with_reducible assumption
    | (show _ = _; rfl)
    | ((with_reducible apply updCrew_step) <;> [skip; rfl; (first | exact crewOk_same rfl | exact fun _ => crewOk_none rfl | exact crewOk_map _ rfl (fun _ h => h) | exact crewOk_map _ rfl (fun _ h => attOk_ite h h) | exact fun h => crewOk_ite (crewOk_same rfl h) (crewOk_same rfl h) | exact fun h => crewOk_ite (crewOk_none rfl) (crewOk_same rfl h)| exact fun h => crewOk_ite (crewOk_same rfl h) (crewOk_none rfl))])
    | dsimp only

theorem sendRank_frames {s : State} {c : Fin 16} {r type : Nat} {endc : Option (BitVec 64)} {offset msg xtag : Nat} {payload : List Byte} {share : Nat × Nat} : Frames 804352 s (sendRank s c r type endc offset msg xtag payload share).1 := by
  unfold sendRank
  try dsimp only
  repeat' first
    | with_reducible apply Frames.refl
    | with_reducible assumption
    | (show _ = _; rfl)
    | with_reducible apply Frames.step (g := sendPacket_frames)
    | with_reducible apply Frames.step (g := ctrAdd_frames)
    | with_reducible apply Frames.step (g := noteSent_frames)
    | with_reducible apply Frames.ite
    | split
    | with_reducible refine Frames.of_fst (by with_reducible assumption) ?_
    | dsimp only

theorem sendSyncOf_frames {s : State} {c : Fin 16} {r kind : Nat} {endc : Option (BitVec 64)} {num xtag : Nat} {body : List Byte} : Frames 804352 s (sendSyncOf s c r kind endc num xtag body).1 := by
  unfold sendSyncOf
  try dsimp only
  repeat' first
    | with_reducible apply Frames.refl
    | with_reducible assumption
    | (show _ = _; rfl)
    | with_reducible apply Frames.step (g := sendRank_frames)
    | with_reducible apply Frames.ite
    | split
    | with_reducible refine Frames.of_fst (by with_reducible assumption) ?_
    | dsimp only

theorem sendSync_frames {s : State} {c : Fin 16} {r kind : Nat} {xtag : Nat} {body : List Byte} : Frames 804352 s (sendSync s c r kind xtag body).1 := by
  unfold sendSync
  try dsimp only
  repeat' first
    | with_reducible apply Frames.refl
    | with_reducible assumption
    | (show _ = _; rfl)
    | with_reducible apply Frames.step (g := sendSyncOf_frames)
    | with_reducible apply Frames.ite
    | split
    | with_reducible refine Frames.of_fst (by with_reducible assumption) ?_
    | dsimp only

theorem sendSyncs_frames {s : State} {c : Fin 16} {rs : List Nat} {kind : Nat} {body : List Byte} : Frames 804352 s (sendSyncs s c rs kind body).1 := by
  unfold sendSyncs
  try dsimp only
  repeat' first
    | with_reducible apply Frames.refl
    | with_reducible assumption
    | (show _ = _; rfl)
    | with_reducible apply Frames.step (g := sendSync_frames)
    | ((with_reducible apply Frames.foldl) <;> [skip; intro _ _ _])
    | ((with_reducible apply Frames.foldl_fst) <;> [skip; intro _ _ _])
    | ((with_reducible apply Frames.foldl_snd) <;> [skip; intro _ _ _])
    | with_reducible apply Frames.ite
    | split
    | with_reducible refine Frames.of_fst (by with_reducible assumption) ?_
    | with_reducible refine Frames.of_snd (by with_reducible assumption) ?_
    | dsimp only

theorem sendHello_frames {s : State} {c : Fin 16} {rs : List Nat} : Frames 804352 s (sendHello s c rs).1 := by
  unfold sendHello
  try dsimp only
  repeat' first
    | with_reducible apply Frames.refl
    | with_reducible assumption
    | (show _ = _; rfl)
    | with_reducible apply Frames.step (g := sendSyncs_frames)
    | with_reducible apply Frames.ite
    | split
    | with_reducible refine Frames.of_fst (by with_reducible assumption) ?_
    | dsimp only

theorem bubble_frames {s : State} {c : Fin 16} {st : Nat} : Frames 1024 s (bubble s c st) := by
  unfold bubble
  try dsimp only
  repeat' first
    | with_reducible apply Frames.refl
    | with_reducible assumption
    | (show _ = _; rfl)
    | ((with_reducible apply updCrew_step) <;> [skip; rfl; (first | exact crewOk_same rfl | exact fun _ => crewOk_none rfl | exact crewOk_map _ rfl (fun _ h => h) | exact crewOk_map _ rfl (fun _ h => attOk_ite h h) | exact fun h => crewOk_ite (crewOk_same rfl h) (crewOk_same rfl h) | exact fun h => crewOk_ite (crewOk_none rfl) (crewOk_same rfl h)| exact fun h => crewOk_ite (crewOk_same rfl h) (crewOk_none rfl))])
    | with_reducible apply Frames.ite
    | split
    | dsimp only

theorem settleWaits_frames {s : State} {c : Fin 16} : Frames 17408 s (settleWaits s c) := by
  unfold settleWaits
  try dsimp only
  repeat' first
    | with_reducible apply Frames.refl
    | with_reducible assumption
    | (show _ = _; rfl)
    | with_reducible apply Frames.step (g := bubble_frames)
    | with_reducible apply Frames.step (g := ctrAdd_frames)
    | ((with_reducible apply Frames.foldl) <;> [skip; intro _ _ _])
    | ((with_reducible apply Frames.foldl_fst) <;> [skip; intro _ _ _])
    | ((with_reducible apply Frames.foldl_snd) <;> [skip; intro _ _ _])
    | with_reducible apply Frames.ite
    | split
    | with_reducible refine Frames.of_fst (by with_reducible assumption) ?_
    | with_reducible refine Frames.of_snd (by with_reducible assumption) ?_
    | dsimp only

theorem undefineAt_frames {s : State} {p : Fin 8} {es : List Nat} : Frames 214 s (undefineAt s p es) := by
  unfold undefineAt
  try dsimp only
  repeat' first
    | with_reducible apply Frames.refl
    | with_reducible assumption
    | (show _ = _; rfl)
    | with_reducible apply Frames.step (g := freeBytesAt_frames)
    | with_reducible apply Frames.step (g := spaceWriteL_frames)
    | split
    | with_reducible refine Frames.of_snd (by with_reducible assumption) ?_
    | dsimp only

theorem failOp_frames {s : State} {c : Fin 16} {o : CollOp} {res : Res} : Frames 5334 s (failOp s c o res) := by
  unfold failOp
  try dsimp only
  repeat' first
    | with_reducible apply Frames.refl
    | with_reducible assumption
    | (show _ = _; rfl)
    | with_reducible apply Frames.step (g := undefineAt_frames)
    | with_reducible apply Frames.step (g := retireUnit_frames)
    | with_reducible apply Frames.ite
    | split
    | dsimp only

theorem failP2p_frames {s : State} {c : Fin 16} {o : P2p} {res : Res} : Frames 5334 s (failP2p s c o res) := by
  unfold failP2p
  try dsimp only
  repeat' first
    | with_reducible apply Frames.refl
    | with_reducible assumption
    | (show _ = _; rfl)
    | with_reducible apply Frames.step (g := undefineAt_frames)
    | with_reducible apply Frames.step (g := retireUnit_frames)
    | with_reducible apply Frames.ite
    | split
    | dsimp only

theorem failAll_frames {s : State} {c : Fin 16} {res : Res} : Frames 21718 s (failAll s c res) := by
  unfold failAll
  try dsimp only
  repeat' first
    | with_reducible apply Frames.refl
    | with_reducible assumption
    | (show _ = _; rfl)
    | with_reducible apply Frames.step (g := settleWaits_frames)
    | ((with_reducible apply updCrew_step) <;> [skip; rfl; (first | exact crewOk_same rfl | exact fun _ => crewOk_none rfl | exact crewOk_map _ rfl (fun _ h => h) | exact crewOk_map _ rfl (fun _ h => attOk_ite h h) | exact fun h => crewOk_ite (crewOk_same rfl h) (crewOk_same rfl h) | exact fun h => crewOk_ite (crewOk_none rfl) (crewOk_same rfl h)| exact fun h => crewOk_ite (crewOk_same rfl h) (crewOk_none rfl))])
    | with_reducible apply Frames.step (g := failOp_frames)
    | with_reducible apply Frames.step (g := failP2p_frames)
    | with_reducible apply Frames.step (g := retireUnit_frames)
    | ((with_reducible apply Frames.foldl) <;> [skip; intro _ _ _])
    | ((with_reducible apply Frames.foldl_fst) <;> [skip; intro _ _ _])
    | ((with_reducible apply Frames.foldl_snd) <;> [skip; intro _ _ _])
    | with_reducible apply Frames.ite
    | split
    | with_reducible refine Frames.of_fst (by with_reducible assumption) ?_
    | with_reducible refine Frames.of_snd (by with_reducible assumption) ?_
    | dsimp only

theorem waitAgain_frames {s : State} {c : Fin 16} : Frames 17408 s (waitAgain s c) := by
  unfold waitAgain
  try dsimp only
  repeat' first
    | with_reducible apply Frames.refl
    | with_reducible assumption
    | (show _ = _; rfl)
    | with_reducible apply Frames.step (g := settleWaits_frames)
    | ((with_reducible apply updCrew_step) <;> [skip; rfl; (first | exact crewOk_same rfl | exact fun _ => crewOk_none rfl | exact crewOk_map _ rfl (fun _ h => h) | exact crewOk_map _ rfl (fun _ h => attOk_ite h h) | exact fun h => crewOk_ite (crewOk_same rfl h) (crewOk_same rfl h) | exact fun h => crewOk_ite (crewOk_none rfl) (crewOk_same rfl h)| exact fun h => crewOk_ite (crewOk_same rfl h) (crewOk_none rfl))])
    | with_reducible apply Frames.ite
    | split
    | dsimp only

theorem crewEvent_frames {s : State} {c : Fin 16} : Frames 8192 s (crewEvent s c) := by
  unfold crewEvent
  try dsimp only
  repeat' first
    | with_reducible apply Frames.refl
    | with_reducible assumption
    | (show _ = _; rfl)
    | with_reducible apply Frames.step (g := raiseEvent_frames)
    | dsimp only

theorem setCrewState_frames {s : State} {c : Fin 16} {t : CrewState} : Frames 9216 s (setCrewState s c t) := by
  unfold setCrewState
  try dsimp only
  repeat' first
    | with_reducible apply Frames.refl
    | with_reducible assumption
    | (show _ = _; rfl)
    | with_reducible apply Frames.step (g := crewEvent_frames)
    | ((with_reducible apply updCrew_step) <;> [skip; rfl; (first | exact crewOk_same rfl | exact fun _ => crewOk_none rfl | exact crewOk_map _ rfl (fun _ h => h) | exact crewOk_map _ rfl (fun _ h => attOk_ite h h) | exact fun h => crewOk_ite (crewOk_same rfl h) (crewOk_same rfl h) | exact fun h => crewOk_ite (crewOk_none rfl) (crewOk_same rfl h)| exact fun h => crewOk_ite (crewOk_same rfl h) (crewOk_none rfl))])
    | with_reducible apply Frames.ite
    | split
    | dsimp only

theorem setProblem_frames {s : State} {c : Fin 16} {cause : Nat} {mid : Option Nat} : Frames 9216 s (setProblem s c cause mid) := by
  unfold setProblem
  try dsimp only
  repeat' first
    | with_reducible apply Frames.refl
    | with_reducible assumption
    | (show _ = _; rfl)
    | with_reducible apply Frames.step (g := crewEvent_frames)
    | ((with_reducible apply updCrew_step) <;> [skip; rfl; (first | exact crewOk_same rfl | exact fun _ => crewOk_none rfl | exact crewOk_map _ rfl (fun _ h => h) | exact crewOk_map _ rfl (fun _ h => attOk_ite h h) | exact fun h => crewOk_ite (crewOk_same rfl h) (crewOk_same rfl h) | exact fun h => crewOk_ite (crewOk_none rfl) (crewOk_same rfl h)| exact fun h => crewOk_ite (crewOk_same rfl h) (crewOk_none rfl))])
    | dsimp only

theorem checkHs_frames {s : State} {c : Fin 16} : Frames 1024 s (checkHs s c) := by
  unfold checkHs
  try dsimp only
  repeat' first
    | with_reducible apply Frames.refl
    | with_reducible assumption
    | (show _ = _; rfl)
    | ((with_reducible apply updCrew_step) <;> [skip; rfl; (first | exact crewOk_same rfl | exact fun _ => crewOk_none rfl | exact crewOk_map _ rfl (fun _ h => h) | exact crewOk_map _ rfl (fun _ h => attOk_ite h h) | exact fun h => crewOk_ite (crewOk_same rfl h) (crewOk_same rfl h) | exact fun h => crewOk_ite (crewOk_none rfl) (crewOk_same rfl h)| exact fun h => crewOk_ite (crewOk_same rfl h) (crewOk_none rfl))])
    | with_reducible apply Frames.ite
    | split
    | dsimp only

theorem startEpoch_frames {s : State} {c : Fin 16} {e : BitVec 32} : Frames 804352 s (startEpoch s c e).1 := by
  unfold startEpoch
  try dsimp only
  repeat' first
    | with_reducible apply Frames.refl
    | with_reducible assumption
    | (show _ = _; rfl)
    | ((with_reducible apply updCrew_step) <;> [skip; rfl; (first | exact crewOk_same rfl | exact fun _ => crewOk_none rfl | exact crewOk_map _ rfl (fun _ h => h) | exact crewOk_map _ rfl (fun _ h => attOk_ite h h) | exact fun h => crewOk_ite (crewOk_same rfl h) (crewOk_same rfl h) | exact fun h => crewOk_ite (crewOk_none rfl) (crewOk_same rfl h)| exact fun h => crewOk_ite (crewOk_same rfl h) (crewOk_none rfl))])
    | with_reducible apply Frames.step (g := sendHello_frames)
    | with_reducible apply Frames.step (g := checkHs_frames)
    | with_reducible apply Frames.ite
    | split
    | with_reducible refine Frames.of_fst (by with_reducible assumption) ?_
    | dsimp only

theorem newEpoch_frames {s : State} {c : Fin 16} : Frames 804352 s (newEpoch s c).1 := by
  unfold newEpoch
  try dsimp only
  repeat' first
    | with_reducible apply Frames.refl
    | with_reducible assumption
    | (show _ = _; rfl)
    | with_reducible apply Frames.step (g := startEpoch_frames)
    | with_reducible apply Frames.ite
    | split
    | with_reducible refine Frames.of_fst (by with_reducible assumption) ?_
    | dsimp only

theorem leaveState_frames {s : State} {c : Fin 16} {res : Res} : Frames 21718 s (leaveState s c res) := by
  unfold leaveState
  try dsimp only
  repeat' first
    | with_reducible apply Frames.refl
    | with_reducible assumption
    | (show _ = _; rfl)
    | with_reducible apply Frames.step (g := failAll_frames)
    | ((with_reducible apply updCrew_step) <;> [skip; rfl; (first | exact crewOk_same rfl | exact fun _ => crewOk_none rfl | exact crewOk_map _ rfl (fun _ h => h) | exact crewOk_map _ rfl (fun _ h => attOk_ite h h) | exact fun h => crewOk_ite (crewOk_same rfl h) (crewOk_same rfl h) | exact fun h => crewOk_ite (crewOk_none rfl) (crewOk_same rfl h)| exact fun h => crewOk_ite (crewOk_same rfl h) (crewOk_none rfl))])
    | with_reducible apply Frames.ite
    | split
    | dsimp only

theorem enterRecovering_frames {s : State} {c : Fin 16} {cause : Nat} {rank mid : Option Nat} {adopt : Option (BitVec 32)} : Frames 816854 s (enterRecovering s c cause rank mid adopt) := by
  unfold enterRecovering
  try dsimp only
  repeat' first
    | with_reducible apply Frames.refl
    | with_reducible assumption
    | (show _ = _; rfl)
    | with_reducible apply Frames.step (g := leaveState_frames)
    | ((with_reducible apply updCrew_step) <;> [skip; rfl; (first | exact crewOk_same rfl | exact fun _ => crewOk_none rfl | exact crewOk_map _ rfl (fun _ h => h) | exact crewOk_map _ rfl (fun _ h => attOk_ite h h) | exact fun h => crewOk_ite (crewOk_same rfl h) (crewOk_same rfl h) | exact fun h => crewOk_ite (crewOk_none rfl) (crewOk_same rfl h)| exact fun h => crewOk_ite (crewOk_same rfl h) (crewOk_none rfl))])
    | with_reducible apply Frames.step (g := setCrewState_frames)
    | with_reducible apply Frames.step (g := startEpoch_frames)
    | with_reducible apply Frames.ite
    | split
    | with_reducible refine Frames.of_fst (by with_reducible assumption) ?_
    | dsimp only

theorem crewFault_frames {s : State} {c : Fin 16} {cause : Nat} {rank mid : Option Nat} : Frames 816854 s (crewFault s c cause rank mid) := by
  unfold crewFault
  try dsimp only
  repeat' first
    | with_reducible apply Frames.refl
    | with_reducible assumption
    | (show _ = _; rfl)
    | with_reducible apply Frames.step (g := sendSyncs_frames)
    | with_reducible apply Frames.step (g := enterRecovering_frames)
    | with_reducible apply Frames.ite
    | split
    | with_reducible refine Frames.of_fst (by with_reducible assumption) ?_
    | dsimp only

theorem orNoRoute_step {m : Nat} {r : State} {x : State × Option Nat} {c : Fin 16} (h : Frames m r x.1) (hm : 816854 ||| m = m) :
    Frames m r (orNoRoute x c) := by
  unfold orNoRoute
  split
  · exact h.step (crewFault_frames.mono (m := 816854) rfl) hm
  · exact h

theorem portDown_frames {s : State} {p : Fin 16} : Frames 816854 s (portDown s p) := by
  unfold portDown
  try dsimp only
  repeat' first
    | with_reducible apply Frames.refl
    | with_reducible assumption
    | (show _ = _; rfl)
    | with_reducible apply Frames.step (g := ctrAdd_frames)
    | with_reducible apply Frames.step (g := setPort_frames)
    | with_reducible apply Frames.step (g := updPort_frames)
    | with_reducible apply Frames.step (g := crewFault_frames)
    | ((with_reducible apply Frames.foldl) <;> [skip; intro _ _ _])
    | with_reducible apply Frames.ite
    | split
    | dsimp only

theorem applyReq_frames {s : State} {c : Fin 16} : Frames 816854 s (applyReq s c) := by
  unfold applyReq
  try dsimp only
  repeat' first
    | with_reducible apply Frames.refl
    | with_reducible assumption
    | (show _ = _; rfl)
    | with_reducible apply Frames.step (g := setCrewState_frames)
    | ((with_reducible apply updCrew_step) <;> [skip; rfl; (first | exact crewOk_same rfl | exact fun _ => crewOk_none rfl | exact crewOk_map _ rfl (fun _ h => h) | exact crewOk_map _ rfl (fun _ h => attOk_ite h h) | exact fun h => crewOk_ite (crewOk_same rfl h) (crewOk_same rfl h) | exact fun h => crewOk_ite (crewOk_none rfl) (crewOk_same rfl h)| exact fun h => crewOk_ite (crewOk_same rfl h) (crewOk_none rfl))])
    | ((with_reducible apply orNoRoute_step) <;> [skip; skip])
    | with_reducible apply Frames.step (g := newEpoch_frames)
    | with_reducible apply Frames.ite
    | split
    | with_reducible refine Frames.of_fst (by with_reducible assumption) ?_
    | dsimp only

theorem requestRun_frames {s : State} {c : Fin 16} : Frames 816854 s (requestRun s c).1 := by
  unfold requestRun
  try dsimp only
  repeat' first
    | with_reducible apply Frames.refl
    | with_reducible assumption
    | (show _ = _; rfl)
    | with_reducible apply Frames.step (g := applyReq_frames)
    | ((with_reducible apply updCrew_step) <;> [skip; rfl; (first | exact crewOk_same rfl | exact fun _ => crewOk_none rfl | exact crewOk_map _ rfl (fun _ h => h) | exact crewOk_map _ rfl (fun _ h => attOk_ite h h) | exact fun h => crewOk_ite (crewOk_same rfl h) (crewOk_same rfl h) | exact fun h => crewOk_ite (crewOk_none rfl) (crewOk_same rfl h)| exact fun h => crewOk_ite (crewOk_same rfl h) (crewOk_none rfl))])
    | with_reducible apply Frames.ite
    | split
    | dsimp only

theorem requestTest_frames {s : State} {c : Fin 16} : Frames 816854 s (requestTest s c).1 := by
  unfold requestTest
  try dsimp only
  repeat' first
    | with_reducible apply Frames.refl
    | with_reducible assumption
    | (show _ = _; rfl)
    | with_reducible apply Frames.step (g := applyReq_frames)
    | ((with_reducible apply updCrew_step) <;> [skip; rfl; (first | exact crewOk_same rfl | exact fun _ => crewOk_none rfl | exact crewOk_map _ rfl (fun _ h => h) | exact crewOk_map _ rfl (fun _ h => attOk_ite h h) | exact fun h => crewOk_ite (crewOk_same rfl h) (crewOk_same rfl h) | exact fun h => crewOk_ite (crewOk_none rfl) (crewOk_same rfl h)| exact fun h => crewOk_ite (crewOk_same rfl h) (crewOk_none rfl))])
    | split
    | dsimp only

theorem applyMembership_frames {s : State} {c : Fin 16} : Frames 816854 s (applyMembership s c) := by
  unfold applyMembership
  try dsimp only
  repeat' first
    | with_reducible apply Frames.refl
    | with_reducible assumption
    | (show _ = _; rfl)
    | ((with_reducible apply updCrew_step) <;> [skip; rfl; (first | exact crewOk_same rfl | exact fun _ => crewOk_none rfl | exact crewOk_map _ rfl (fun _ h => h) | exact crewOk_map _ rfl (fun _ h => attOk_ite h h) | exact fun h => crewOk_ite (crewOk_same rfl h) (crewOk_same rfl h) | exact fun h => crewOk_ite (crewOk_none rfl) (crewOk_same rfl h)| exact fun h => crewOk_ite (crewOk_same rfl h) (crewOk_none rfl))])
    | ((with_reducible apply orNoRoute_step) <;> [skip; skip])
    | with_reducible apply Frames.step (g := newEpoch_frames)
    | with_reducible apply Frames.step (g := setCrewState_frames)
    | with_reducible apply Frames.ite
    | split
    | with_reducible refine Frames.of_fst (by with_reducible assumption) ?_
    | dsimp only

/-! ## Collective -/

theorem collWrite_frames {s : State} {c : Fin 16} {p : Fin 8} {ws : List (Nat × Byte)} : FramesO 787668 s (collWrite s c p ws) := by
  unfold collWrite
  try dsimp only
  repeat' first
    | with_reducible apply Frames.refl
    | with_reducible assumption
    | with_reducible apply FramesO.none
    | (show _ = _; rfl)
    | with_reducible apply FramesO.some
    | ((with_reducible apply FramesO.map) <;> [skip; intro _ _])
    | with_reducible apply Frames.step (g := hbmTraffic_frames)
    | with_reducible apply Frames.step (g := spaceWriteL_frames)
    | with_reducible apply Frames.step (g := undoSave_frames)
    | with_reducible apply Frames.ite
    | with_reducible apply FramesO.ite
    | with_reducible apply FramesO.getD
    | split
    | ((with_reducible apply FramesO.of) <;> intro _)
    | (intro t e; cases e)
    | dsimp only

theorem updOp_frames {s : State} {c : Fin 16} {k : Nat} {g : CollOp → CollOp} : Frames 1024 s (updOp s c k g) := by
  unfold updOp
  try dsimp only
  repeat' first
    | with_reducible apply Frames.refl
    | with_reducible assumption
    | (show _ = _; rfl)
    | ((with_reducible apply updCrew_step) <;> [skip; rfl; (first | exact crewOk_same rfl | exact fun _ => crewOk_none rfl | exact crewOk_map _ rfl (fun _ h => h) | exact crewOk_map _ rfl (fun _ h => attOk_ite h h) | exact fun h => crewOk_ite (crewOk_same rfl h) (crewOk_same rfl h) | exact fun h => crewOk_ite (crewOk_none rfl) (crewOk_same rfl h)| exact fun h => crewOk_ite (crewOk_same rfl h) (crewOk_none rfl))])
    | with_reducible apply Frames.ite
    | split
    | dsimp only

theorem opWrite_frames {s : State} {c : Fin 16} {p : Fin 8} {o : CollOp} {a off : Nat} {bs : List Byte} : FramesO 787668 s (opWrite s c p o a off bs) := by
  unfold opWrite
  try dsimp only
  repeat' first
    | with_reducible apply Frames.refl
    | with_reducible assumption
    | with_reducible apply FramesO.none
    | (show _ = _; rfl)
    | with_reducible apply FramesO.some
    | ((with_reducible apply FramesO.map) <;> [skip; intro _ _])
    | with_reducible apply FramesO.step (g := collWrite_frames)
    | with_reducible refine Frames.of_some (by with_reducible assumption) (FramesO.step ?_ collWrite_frames ?_)
    | with_reducible apply Frames.step (g := updOp_frames)
    | with_reducible apply Frames.ite
    | with_reducible apply FramesO.ite
    | with_reducible apply FramesO.getD
    | split
    | ((with_reducible apply FramesO.of) <;> intro _)
    | (intro t e; cases e)
    | dsimp only

theorem opFails_frames {s : State} {c : Fin 16} {o : CollOp} {res : Res} : Frames 816854 s (opFails s c o res) := by
  unfold opFails
  try dsimp only
  repeat' first
    | with_reducible apply Frames.refl
    | with_reducible assumption
    | (show _ = _; rfl)
    | ((with_reducible apply updCrew_step) <;> [skip; rfl; (first | exact crewOk_same rfl | exact fun _ => crewOk_none rfl | exact crewOk_map _ rfl (fun _ h => h) | exact crewOk_map _ rfl (fun _ h => attOk_ite h h) | exact fun h => crewOk_ite (crewOk_same rfl h) (crewOk_same rfl h) | exact fun h => crewOk_ite (crewOk_none rfl) (crewOk_same rfl h)| exact fun h => crewOk_ite (crewOk_same rfl h) (crewOk_none rfl))])
    | with_reducible apply Frames.step (g := crewFault_frames)
    | with_reducible apply Frames.step (g := failOp_frames)
    | dsimp only

theorem opCorrupt_frames {s : State} {c : Fin 16} {o : CollOp} {src : Nat} : Frames 13526 s (opCorrupt s c o src) := by
  unfold opCorrupt
  try dsimp only
  repeat' first
    | with_reducible apply Frames.refl
    | with_reducible assumption
    | (show _ = _; rfl)
    | ((with_reducible apply updCrew_step) <;> [skip; rfl; (first | exact crewOk_same rfl | exact fun _ => crewOk_none rfl | exact crewOk_map _ rfl (fun _ h => h) | exact crewOk_map _ rfl (fun _ h => attOk_ite h h) | exact fun h => crewOk_ite (crewOk_same rfl h) (crewOk_same rfl h) | exact fun h => crewOk_ite (crewOk_none rfl) (crewOk_same rfl h)| exact fun h => crewOk_ite (crewOk_same rfl h) (crewOk_none rfl))])
    | with_reducible apply Frames.step (g := failOp_frames)
    | with_reducible apply Frames.step (g := setProblem_frames)
    | dsimp only

theorem collUeEvent_frames {s : State} {p : Fin 8} {x : Reason × Nat} : Frames 155728 s (collUeEvent s p x) := by
  unfold collUeEvent
  try dsimp only
  repeat' first
    | with_reducible apply Frames.refl
    | with_reducible assumption
    | (show _ = _; rfl)
    | with_reducible apply Frames.step (g := palletUeEvent_frames)
    | with_reducible apply Frames.step (g := ueEventAt_frames)
    | with_reducible apply Frames.ite
    | split

theorem collRead_frames {s : State} {p : Fin 8} {rs : List Nat} : Frames 933968 s (collRead s p rs) := by
  unfold collRead
  try dsimp only
  repeat' first
    | with_reducible apply Frames.refl
    | with_reducible assumption
    | (show _ = _; rfl)
    | with_reducible apply Frames.step (g := hbmTraffic_frames)
    | with_reducible apply Frames.step (g := spaceFix_frames)
    | with_reducible apply Frames.ite
    | split
    | dsimp only

theorem guardUe_frames {m : Nat} {r s : State} {c : Fin 16} {p : Fin 8} {o : CollOp} {rs ws : List Nat} {next : Option State}
    (h : Frames m r s) (hm : 947926 ||| m = m) (hn : FramesO m r next) : FramesO m r (guardUe s c p o rs ws next) := by
  unfold guardUe
  split
  · have h1 : ∀ x y, Frames 947926 s (opFails (collUeEvent s p x) c o y) := fun x y =>
      ((Frames.refl 947926 s).step collUeEvent_frames rfl).step opFails_frames rfl
    exact FramesO.some (h.step (h1 _ _) hm)
  · exact FramesO.map hn fun t ht => ht.step (collRead_frames.mono (m := 947926) rfl) hm

theorem addLate_frames {s : State} {c : Fin 16} {e : BitVec 128} : Frames 1024 s (addLate s c e) := by
  unfold addLate
  try dsimp only
  repeat' first
    | with_reducible apply Frames.refl
    | with_reducible assumption
    | (show _ = _; rfl)
    | ((with_reducible apply updAttempt_step) <;> [skip; rfl; (intro a h; first | exact h | exact attOk_ite h h | (split <;> exact h))])
    | with_reducible apply Frames.ite
    | split
    | dsimp only

theorem deferOp_frames {s : State} {c : Fin 16} {p : Fin 8} {o : CollOp} : Frames 17620 s (deferOp s c p o) := by
  unfold deferOp
  try dsimp only
  repeat' first
    | with_reducible apply Frames.refl
    | with_reducible assumption
    | (show _ = _; rfl)
    | ((with_reducible apply FramesO.map) <;> [skip; intro _ _])
    | with_reducible apply Frames.step (g := ctrAdd_frames)
    | with_reducible apply Frames.step (g := addLate_frames)
    | ((with_reducible apply updCrew_step) <;> [skip; rfl; (first | exact crewOk_same rfl | exact fun _ => crewOk_none rfl | exact crewOk_map _ rfl (fun _ h => h) | exact crewOk_map _ rfl (fun _ h => attOk_ite h h) | exact fun h => crewOk_ite (crewOk_same rfl h) (crewOk_same rfl h) | exact fun h => crewOk_ite (crewOk_none rfl) (crewOk_same rfl h)| exact fun h => crewOk_ite (crewOk_same rfl h) (crewOk_none rfl))])
    | with_reducible apply Frames.step (g := spaceWriteL_frames)
    | with_reducible apply Frames.step (g := undoSave_frames)
    | ((with_reducible apply Frames.foldl) <;> [skip; intro _ _ _])
    | ((with_reducible apply Frames.foldl_fst) <;> [skip; intro _ _ _])
    | with_reducible apply Frames.ite
    | with_reducible apply FramesO.getD
    | split
    | ((with_reducible apply FramesO.of) <;> intro _)
    | dsimp only

theorem setCut_frames {s : State} {c : Fin 16} {entries : List (BitVec 128)} : Frames 17620 s (setCut s c entries) := by
  unfold setCut
  try dsimp only
  repeat' first
    | with_reducible apply Frames.refl
    | with_reducible assumption
    | (show _ = _; rfl)
    | ((with_reducible apply updCrew_step) <;> [skip; rfl; (first | exact crewOk_same rfl | exact fun _ => crewOk_none rfl | exact crewOk_map _ rfl (fun _ h => h) | exact crewOk_map _ rfl (fun _ h => attOk_ite h h) | exact fun h => crewOk_ite (crewOk_same rfl h) (crewOk_same rfl h) | exact fun h => crewOk_ite (crewOk_none rfl) (crewOk_same rfl h)| exact fun h => crewOk_ite (crewOk_same rfl h) (crewOk_none rfl))])
    | with_reducible apply Frames.step (g := deferOp_frames)
    | ((with_reducible apply Frames.foldl) <;> [skip; intro _ _ _])
    | with_reducible apply Frames.ite
    | split
    | dsimp only

theorem sendFin_frames {s : State} {c : Fin 16} {r kind : Nat} {stroke : Nat} {att : Nat} {term : Nat} {body : List Byte} : Frames 804352 s (sendFin s c r kind stroke att term body) := by
  unfold sendFin
  try dsimp only
  repeat' first
    | with_reducible apply Frames.refl
    | with_reducible assumption
    | (show _ = _; rfl)
    | with_reducible apply Frames.step (g := sendRank_frames)
    | with_reducible refine Frames.of_fst (by with_reducible assumption) ?_

theorem sendFinNow_frames {s : State} {c : Fin 16} {r kind : Nat} {body : List Byte} : Frames 804352 s (sendFinNow s c r kind body) := by
  unfold sendFinNow
  try dsimp only
  repeat' first
    | with_reducible apply Frames.refl
    | with_reducible assumption
    | (show _ = _; rfl)
    | with_reducible apply Frames.step (g := sendFin_frames)

theorem sendCut_frames {s : State} {c : Fin 16} {entries : List (BitVec 128)} : Frames 804564 s (sendCut s c entries) := by
  unfold sendCut
  try dsimp only
  repeat' first
    | with_reducible apply Frames.refl
    | with_reducible assumption
    | (show _ = _; rfl)
    | with_reducible apply Frames.step (g := sendFinNow_frames)
    | with_reducible apply Frames.step (g := setCut_frames)
    | ((with_reducible apply Frames.foldl) <;> [skip; intro _ _ _])
    | with_reducible apply Frames.ite
    | split
    | dsimp only

theorem tryCut_frames {s : State} {c : Fin 16} : Frames 804564 s (tryCut s c) := by
  unfold tryCut
  try dsimp only
  repeat' first
    | with_reducible apply Frames.refl
    | with_reducible assumption
    | (show _ = _; rfl)
    | with_reducible apply Frames.step (g := sendCut_frames)
    | with_reducible apply Frames.ite
    | with_reducible apply FramesO.getD
    | split
    | ((with_reducible apply FramesO.of) <;> intro _)
    | dsimp only

theorem noteArrived_frames {s : State} {c : Fin 16} {r : Nat} : Frames 804564 s (noteArrived s c r) := by
  unfold noteArrived
  try dsimp only
  repeat' first
    | with_reducible apply Frames.refl
    | with_reducible assumption
    | (show _ = _; rfl)
    | ((with_reducible apply FramesO.map) <;> [skip; intro _ _])
    | ((with_reducible apply updCrew_step) <;> [skip; rfl; (first | exact crewOk_same rfl | exact fun _ => crewOk_none rfl | exact crewOk_map _ rfl (fun _ h => h) | exact crewOk_map _ rfl (fun _ h => attOk_ite h h) | exact fun h => crewOk_ite (crewOk_same rfl h) (crewOk_same rfl h) | exact fun h => crewOk_ite (crewOk_none rfl) (crewOk_same rfl h)| exact fun h => crewOk_ite (crewOk_same rfl h) (crewOk_none rfl))])
    | with_reducible apply Frames.step (g := tryCut_frames)
    | with_reducible apply Frames.ite
    | with_reducible apply FramesO.getD
    | split
    | ((with_reducible apply FramesO.of) <;> intro _)
    | dsimp only

theorem arrive_frames {s : State} {c : Fin 16} : Frames 804564 s (arrive s c) := by
  unfold arrive
  try dsimp only
  repeat' first
    | with_reducible apply Frames.refl
    | with_reducible assumption
    | (show _ = _; rfl)
    | with_reducible apply Frames.step (g := noteArrived_frames)
    | with_reducible apply Frames.step (g := sendFinNow_frames)
    | with_reducible apply Frames.ite
    | split
    | dsimp only

theorem sendChunks_frames {s : State} {c : Fin 16} {o : CollOp} {r l : Nat} {down : Bool} {ps : List (Nat × List Byte × Option (BitVec 64))} : Frames 816854 s (sendChunks s c o r l down ps) := by
  unfold sendChunks
  try dsimp only
  repeat' first
    | with_reducible apply Frames.refl
    | with_reducible assumption
    | (show _ = _; rfl)
    | with_reducible apply Frames.step (g := sendRank_frames)
    | with_reducible apply Frames.step (g := crewFault_frames)
    | ((with_reducible apply Frames.foldl) <;> [skip; intro _ _ _])
    | ((with_reducible apply Frames.foldl_fst) <;> [skip; intro _ _ _])
    | ((with_reducible apply Frames.foldl_snd) <;> [skip; intro _ _ _])
    | with_reducible apply Frames.ite
    | split
    | with_reducible refine Frames.of_fst (by with_reducible assumption) ?_
    | with_reducible refine Frames.of_snd (by with_reducible assumption) ?_
    | dsimp only

theorem sendMessage_frames {s : State} {c : Fin 16} {o : CollOp} {r l : Nat} {down : Bool} {bs : List Byte} : Frames 816854 s (sendMessage s c o r l down bs) := by
  unfold sendMessage
  try dsimp only
  repeat' first
    | with_reducible apply Frames.refl
    | with_reducible assumption
    | (show _ = _; rfl)
    | with_reducible apply Frames.step (g := sendChunks_frames)
    | with_reducible apply Frames.step (g := updOp_frames)
    | with_reducible apply Frames.ite
    | split
    | dsimp only

theorem sendOpSync_frames {s : State} {c : Fin 16} {o : CollOp} {r l : Nat} {down : Bool} {kind : Nat} {body : List Byte} : Frames 816854 s (sendOpSync s c o r l down kind body) := by
  unfold sendOpSync
  try dsimp only
  repeat' first
    | with_reducible apply Frames.refl
    | with_reducible assumption
    | (show _ = _; rfl)
    | with_reducible apply Frames.step (g := sendSyncOf_frames)
    | with_reducible apply Frames.step (g := crewFault_frames)
    | with_reducible apply Frames.ite
    | split
    | with_reducible refine Frames.of_fst (by with_reducible assumption) ?_
    | dsimp only

theorem sendReady_frames {s : State} {c : Fin 16} {o : CollOp} {r : Nat} : Frames 816854 s (sendReady s c o r) := by
  unfold sendReady
  try dsimp only
  repeat' first
    | with_reducible apply Frames.refl
    | with_reducible assumption
    | (show _ = _; rfl)
    | with_reducible apply Frames.step (g := sendOpSync_frames)
    | with_reducible apply Frames.ite
    | split
    | dsimp only

theorem writeResult_frames {s : State} {c : Fin 16} {p : Fin 8} {o : CollOp} {vals : List (BitVec 32)} : FramesO 787668 s (writeResult s c p o vals) := by
  unfold writeResult
  try dsimp only
  repeat' first
    | with_reducible apply Frames.refl
    | with_reducible assumption
    | with_reducible apply FramesO.none
    | (show _ = _; rfl)
    | with_reducible apply FramesO.some
    | ((with_reducible apply FramesO.map) <;> [skip; intro _ _])
    | with_reducible apply FramesO.step (g := opWrite_frames)
    | with_reducible refine Frames.of_some (by with_reducible assumption) (FramesO.step ?_ opWrite_frames ?_)
    | with_reducible apply Frames.step (g := updOp_frames)
    | with_reducible apply Frames.ite
    | with_reducible apply FramesO.ite
    | with_reducible apply FramesO.getD
    | split
    | ((with_reducible apply FramesO.of) <;> intro _)
    | (intro t e; cases e)
    | dsimp only

theorem beginDown_frames {s : State} {c : Fin 16} {o : CollOp} : Frames 1024 s (beginDown s c o) := by
  unfold beginDown
  try dsimp only
  repeat' first
    | with_reducible apply Frames.refl
    | with_reducible assumption
    | (show _ = _; rfl)
    | with_reducible apply Frames.step (g := updOp_frames)
    | with_reducible apply Frames.ite
    | split
    | dsimp only

theorem deferredLeaves_frames {s : State} {c : Fin 16} {p : Fin 8} {o : CollOp} {own : Nat} : Frames 17408 s (deferredLeaves s c p o own).2 := by
  unfold deferredLeaves
  try dsimp only
  repeat' first
    | with_reducible apply Frames.refl
    | with_reducible assumption
    | (show _ = _; rfl)
    | ((with_reducible apply FramesO.map) <;> [skip; intro _ _])
    | with_reducible apply Frames.step (g := addLate_frames)
    | with_reducible apply Frames.step (g := ctrAdd_frames)
    | ((with_reducible apply Frames.foldl) <;> [skip; intro _ _ _])
    | ((with_reducible apply Frames.foldl_fst) <;> [skip; intro _ _ _])
    | ((with_reducible apply Frames.foldl_snd) <;> [skip; intro _ _ _])
    | with_reducible apply Frames.ite
    | with_reducible apply FramesO.getD
    | split
    | ((with_reducible apply FramesO.of) <;> intro _)
    | dsimp only

theorem sendReadyChunks_frames {s : State} {c : Fin 16} {p : Fin 8} {o : CollOp} {r l a m : Nat} : Frames 816854 s (sendReadyChunks s c p o r l a m) := by
  unfold sendReadyChunks
  try dsimp only
  repeat' first
    | with_reducible apply Frames.refl
    | with_reducible assumption
    | (show _ = _; rfl)
    | with_reducible apply Frames.step (g := updOp_frames)
    | with_reducible apply Frames.step (g := sendChunks_frames)
    | ((with_reducible apply Frames.foldl) <;> [skip; intro _ _ _])
    | ((with_reducible apply Frames.foldl_fst) <;> [skip; intro _ _ _])
    | ((with_reducible apply Frames.foldl_snd) <;> [skip; intro _ _ _])
    | with_reducible apply Frames.ite
    | split
    | with_reducible refine Frames.of_fst (by with_reducible assumption) ?_
    | with_reducible refine Frames.of_snd (by with_reducible assumption) ?_
    | dsimp only

theorem stepUp_frames {s : State} {c : Fin 16} {p : Fin 8} {o : CollOp} : FramesO 947926 s (stepUp s c p o) := by
  unfold stepUp
  try dsimp only
  repeat' first
    | with_reducible apply Frames.refl
    | with_reducible assumption
    | with_reducible apply FramesO.none
    | (show _ = _; rfl)
    | with_reducible apply FramesO.some
    | ((with_reducible apply FramesO.map) <;> [skip; intro _ _])
    | (with_reducible apply guardUe_frames)
    | with_reducible apply FramesO.step (g := writeResult_frames)
    | with_reducible refine Frames.of_some (by with_reducible assumption) (FramesO.step ?_ writeResult_frames ?_)
    | with_reducible apply Frames.step (g := beginDown_frames)
    | with_reducible apply Frames.step (g := sendReadyChunks_frames)
    | with_reducible apply Frames.step (g := updOp_frames)
    | with_reducible apply Frames.step (g := sendOpSync_frames)
    | with_reducible apply Frames.step (g := sendMessage_frames)
    | with_reducible apply FramesO.step (g := opWrite_frames)
    | with_reducible refine Frames.of_some (by with_reducible assumption) (FramesO.step ?_ opWrite_frames ?_)
    | with_reducible apply Frames.step (g := deferredLeaves_frames)
    | with_reducible apply Frames.ite
    | with_reducible apply FramesO.ite
    | with_reducible apply FramesO.getD
    | split
    | ((with_reducible apply FramesO.of) <;> intro _)
    | with_reducible refine Frames.of_snd (by with_reducible assumption) ?_
    | (intro t e; cases e)
    | dsimp only

theorem stepDownAll_frames {s : State} {c : Fin 16} {p : Fin 8} {o : CollOp} : FramesO 947926 s (stepDownAll s c p o) := by
  unfold stepDownAll
  try dsimp only
  repeat' first
    | with_reducible apply Frames.refl
    | with_reducible assumption
    | with_reducible apply FramesO.none
    | (show _ = _; rfl)
    | with_reducible apply FramesO.some
    | (with_reducible apply guardUe_frames)
    | with_reducible apply Frames.step (g := sendMessage_frames)
    | with_reducible apply Frames.step (g := updOp_frames)
    | with_reducible apply Frames.ite
    | with_reducible apply FramesO.ite
    | split
    | ((with_reducible apply FramesO.of) <;> intro _)
    | (intro t e; cases e)
    | dsimp only

theorem stepDownReduce_frames {s : State} {c : Fin 16} {p : Fin 8} {o : CollOp} : FramesO 947926 s (stepDownReduce s c p o) := by
  unfold stepDownReduce
  try dsimp only
  repeat' first
    | with_reducible apply Frames.refl
    | with_reducible assumption
    | with_reducible apply FramesO.none
    | (show _ = _; rfl)
    | with_reducible apply FramesO.some
    | with_reducible apply Frames.step (g := updOp_frames)
    | (with_reducible apply guardUe_frames)
    | with_reducible apply Frames.step (g := sendMessage_frames)
    | with_reducible apply Frames.ite
    | with_reducible apply FramesO.ite
    | split
    | ((with_reducible apply FramesO.of) <;> intro _)
    | (intro t e; cases e)
    | dsimp only

theorem stepBroadcast_frames {s : State} {c : Fin 16} {p : Fin 8} {o : CollOp} : FramesO 947926 s (stepBroadcast s c p o) := by
  unfold stepBroadcast
  try dsimp only
  repeat' first
    | with_reducible apply Frames.refl
    | with_reducible assumption
    | with_reducible apply FramesO.none
    | (show _ = _; rfl)
    | with_reducible apply FramesO.some
    | ((with_reducible apply FramesO.map) <;> [skip; intro _ _])
    | (with_reducible apply guardUe_frames)
    | with_reducible apply FramesO.step (g := opWrite_frames)
    | with_reducible refine Frames.of_some (by with_reducible assumption) (FramesO.step ?_ opWrite_frames ?_)
    | with_reducible apply Frames.step (g := updOp_frames)
    | with_reducible apply Frames.step (g := sendMessage_frames)
    | with_reducible apply Frames.ite
    | with_reducible apply FramesO.ite
    | with_reducible apply FramesO.getD
    | split
    | ((with_reducible apply FramesO.of) <;> intro _)
    | (intro t e; cases e)
    | dsimp only

theorem stepAlltoall_frames {s : State} {c : Fin 16} {p : Fin 8} {o : CollOp} : FramesO 947926 s (stepAlltoall s c p o) := by
  unfold stepAlltoall
  try dsimp only
  repeat' first
    | with_reducible apply Frames.refl
    | with_reducible assumption
    | with_reducible apply FramesO.none
    | (show _ = _; rfl)
    | with_reducible apply FramesO.some
    | ((with_reducible apply FramesO.map) <;> [skip; intro _ _])
    | (with_reducible apply guardUe_frames)
    | with_reducible apply FramesO.step (g := opWrite_frames)
    | with_reducible refine Frames.of_some (by with_reducible assumption) (FramesO.step ?_ opWrite_frames ?_)
    | with_reducible apply Frames.step (g := updOp_frames)
    | with_reducible apply Frames.step (g := sendMessage_frames)
    | with_reducible apply Frames.ite
    | with_reducible apply FramesO.ite
    | with_reducible apply FramesO.getD
    | split
    | ((with_reducible apply FramesO.of) <;> intro _)
    | (intro t e; cases e)
    | dsimp only

theorem stepAlltoallv_frames {s : State} {c : Fin 16} {p : Fin 8} {o : CollOp} : FramesO 947926 s (stepAlltoallv s c p o) := by
  unfold stepAlltoallv
  try dsimp only
  repeat' first
    | with_reducible apply Frames.refl
    | with_reducible assumption
    | with_reducible apply FramesO.none
    | (show _ = _; rfl)
    | with_reducible apply FramesO.some
    | ((with_reducible apply FramesO.map) <;> [skip; intro _ _])
    | (with_reducible apply guardUe_frames)
    | with_reducible apply Frames.step (g := sendMessage_frames)
    | with_reducible apply Frames.step (g := opFails_frames)
    | with_reducible apply FramesO.step (g := collWrite_frames)
    | with_reducible refine Frames.of_some (by with_reducible assumption) (FramesO.step ?_ collWrite_frames ?_)
    | with_reducible apply Frames.step (g := updOp_frames)
    | with_reducible apply Frames.step (g := sendReady_frames)
    | with_reducible apply FramesO.step (g := opWrite_frames)
    | with_reducible refine Frames.of_some (by with_reducible assumption) (FramesO.step ?_ opWrite_frames ?_)
    | ((with_reducible apply Frames.foldl) <;> [skip; intro _ _ _])
    | ((with_reducible apply Frames.foldl_fst) <;> [skip; intro _ _ _])
    | ((with_reducible apply Frames.foldl_snd) <;> [skip; intro _ _ _])
    | with_reducible apply Frames.ite
    | with_reducible apply FramesO.ite
    | with_reducible apply FramesO.getD
    | split
    | ((with_reducible apply FramesO.of) <;> intro _)
    | with_reducible refine Frames.of_fst (by with_reducible assumption) ?_
    | with_reducible refine Frames.of_snd (by with_reducible assumption) ?_
    | (intro t e; cases e)
    | dsimp only

theorem stepBarrier_frames {s : State} {c : Fin 16} {o : CollOp} : FramesO 816854 s (stepBarrier s c o) := by
  unfold stepBarrier
  try dsimp only
  repeat' first
    | with_reducible apply Frames.refl
    | with_reducible assumption
    | with_reducible apply FramesO.none
    | (show _ = _; rfl)
    | with_reducible apply FramesO.some
    | ((with_reducible apply FramesO.map) <;> [skip; intro _ _])
    | with_reducible apply Frames.step (g := updOp_frames)
    | with_reducible apply Frames.step (g := sendOpSync_frames)
    | ((with_reducible apply Frames.foldl) <;> [skip; intro _ _ _])
    | ((with_reducible apply Frames.foldl_fst) <;> [skip; intro _ _ _])
    | ((with_reducible apply Frames.foldl_snd) <;> [skip; intro _ _ _])
    | with_reducible apply Frames.ite
    | with_reducible apply FramesO.ite
    | with_reducible apply FramesO.getD
    | split
    | ((with_reducible apply FramesO.of) <;> intro _)
    | with_reducible refine Frames.of_fst (by with_reducible assumption) ?_
    | with_reducible refine Frames.of_snd (by with_reducible assumption) ?_
    | (intro t e; cases e)
    | dsimp only

theorem stepOpr_frames {s : State} {c : Fin 16} {o : CollOp} : FramesO 947926 s (stepOpr s c o) := by
  unfold stepOpr
  try dsimp only
  repeat' first
    | with_reducible apply Frames.refl
    | with_reducible assumption
    | with_reducible apply FramesO.none
    | (show _ = _; rfl)
    | with_reducible apply FramesO.some
    | ((with_reducible apply FramesO.map) <;> [skip; intro _ _])
    | with_reducible apply FramesO.step (g := stepUp_frames)
    | with_reducible refine Frames.of_some (by with_reducible assumption) (FramesO.step ?_ stepUp_frames ?_)
    | with_reducible apply FramesO.step (g := stepDownAll_frames)
    | with_reducible refine Frames.of_some (by with_reducible assumption) (FramesO.step ?_ stepDownAll_frames ?_)
    | (with_reducible apply guardUe_frames)
    | with_reducible apply FramesO.step (g := opWrite_frames)
    | with_reducible refine Frames.of_some (by with_reducible assumption) (FramesO.step ?_ opWrite_frames ?_)
    | with_reducible apply Frames.step (g := beginDown_frames)
    | with_reducible apply Frames.step (g := updOp_frames)
    | with_reducible apply FramesO.step (g := stepBroadcast_frames)
    | with_reducible refine Frames.of_some (by with_reducible assumption) (FramesO.step ?_ stepBroadcast_frames ?_)
    | with_reducible apply FramesO.step (g := stepDownReduce_frames)
    | with_reducible refine Frames.of_some (by with_reducible assumption) (FramesO.step ?_ stepDownReduce_frames ?_)
    | with_reducible apply FramesO.step (g := stepAlltoall_frames)
    | with_reducible refine Frames.of_some (by with_reducible assumption) (FramesO.step ?_ stepAlltoall_frames ?_)
    | with_reducible apply FramesO.step (g := stepAlltoallv_frames)
    | with_reducible refine Frames.of_some (by with_reducible assumption) (FramesO.step ?_ stepAlltoallv_frames ?_)
    | with_reducible apply FramesO.step (g := stepBarrier_frames)
    | with_reducible refine Frames.of_some (by with_reducible assumption) (FramesO.step ?_ stepBarrier_frames ?_)
    | with_reducible apply Frames.ite
    | with_reducible apply FramesO.ite
    | with_reducible apply FramesO.getD
    | split
    | ((with_reducible apply FramesO.of) <;> intro _)
    | (intro t e; cases e)
    | dsimp only

theorem pumpCrew_frames {k : Nat} {s : State} {c : Fin 16} : Frames 947926 s (pumpCrew k s c) := by
  induction k generalizing s with
  | zero => exact Frames.refl _ _
  | succ k ih =>
    unfold pumpCrew
    split
    · rename_i h
      obtain ⟨o, -, h⟩ := List.exists_of_findSome?_eq_some h
      exact Frames.step (Frames.of_some h (FramesO.step (Frames.refl 947926 s) stepOpr_frames rfl)) ih (Nat.or_self _)
    · exact Frames.refl _ _

theorem pump_frames {s : State} {c : Fin 16} : Frames 947926 s (pump s c) := by
  unfold pump
  try dsimp only
  repeat' first
    | with_reducible apply Frames.refl
    | with_reducible assumption
    | (show _ = _; rfl)
    | with_reducible apply Frames.step (g := pumpCrew_frames)
    | with_reducible apply Frames.ite
    | split

theorem supplyOp_frames {s : State} {c : Fin 16} {k : Nat} {es : List (Nat × BitVec 32)} : Frames 816854 s (supplyOp s c k es) := by
  unfold supplyOp
  try dsimp only
  repeat' first
    | with_reducible apply Frames.refl
    | with_reducible assumption
    | (show _ = _; rfl)
    | with_reducible apply Frames.step (g := opFails_frames)
    | with_reducible apply Frames.step (g := updOp_frames)
    | split
    | dsimp only

theorem takeTiles_frames {s : State} {c : Fin 16} {o : CollOp} {p : Fin 8} : Frames 816854 s (takeTiles s c o p) := by
  unfold takeTiles
  try dsimp only
  repeat' first
    | with_reducible apply Frames.refl
    | with_reducible assumption
    | (show _ = _; rfl)
    | with_reducible apply Frames.step (g := updTile_frames)
    | with_reducible apply Frames.step (g := opFails_frames)
    | with_reducible apply Frames.step (g := palletUeEvent_frames)
    | with_reducible apply Frames.step (g := supplyOp_frames)
    | ((with_reducible apply Frames.foldl) <;> [skip; intro _ _ _])
    | with_reducible apply Frames.ite
    | split
    | dsimp only

theorem startOp_frames {s : State} {c : Fin 16} {p : Fin 8} {w : Cmd} {iss : Issuer} {tm : Terms} : Frames 816854 s (startOp s c p w iss tm) := by
  unfold startOp
  try dsimp only
  repeat' first
    | with_reducible apply Frames.refl
    | with_reducible assumption
    | (show _ = _; rfl)
    | ((with_reducible apply updCrew_step) <;> [skip; rfl; (first | exact crewOk_same rfl | exact fun _ => crewOk_none rfl | exact crewOk_map _ rfl (fun _ h => h) | exact crewOk_map _ rfl (fun _ h => attOk_ite h h) | exact fun h => crewOk_ite (crewOk_same rfl h) (crewOk_same rfl h) | exact fun h => crewOk_ite (crewOk_none rfl) (crewOk_same rfl h)| exact fun h => crewOk_ite (crewOk_same rfl h) (crewOk_none rfl))])
    | ((with_reducible apply updAttempt_step) <;> [skip; rfl; (intro a h; first | exact h | exact attOk_ite h h | (split <;> exact h) | exact clusterWrite_ok h)])
    | with_reducible apply Frames.step (g := ctrAdd_frames)
    | with_reducible apply Frames.step (g := addLate_frames)
    | with_reducible apply Frames.step (g := sendOpSync_frames)
    | with_reducible apply Frames.step (g := sendReady_frames)
    | with_reducible apply Frames.step (g := takeTiles_frames)
    | with_reducible apply Frames.step (g := deferOp_frames)
    | ((with_reducible apply Frames.foldl) <;> [skip; intro _ _ _])
    | ((with_reducible apply Frames.foldl_fst) <;> [skip; intro _ _ _])
    | ((with_reducible apply Frames.foldl_snd) <;> [skip; intro _ _ _])
    | with_reducible apply Frames.ite
    | split
    | with_reducible refine Frames.of_fst (by with_reducible assumption) ?_
    | with_reducible refine Frames.of_snd (by with_reducible assumption) ?_
    | dsimp only

theorem checkArrival_frames {s : State} {c : Fin 16} : Frames 804564 s (checkArrival s c) := by
  unfold checkArrival
  try dsimp only
  repeat' first
    | with_reducible apply Frames.refl
    | with_reducible assumption
    | (show _ = _; rfl)
    | with_reducible apply Frames.step (g := arrive_frames)
    | ((with_reducible apply updCrew_step) <;> [skip; rfl; (first | exact crewOk_same rfl | exact fun _ => crewOk_none rfl | exact crewOk_map _ rfl (fun _ h => h) | exact crewOk_map _ rfl (fun _ h => attOk_ite h h) | exact fun h => crewOk_ite (crewOk_same rfl h) (crewOk_same rfl h) | exact fun h => crewOk_ite (crewOk_none rfl) (crewOk_same rfl h)| exact fun h => crewOk_ite (crewOk_same rfl h) (crewOk_none rfl))])
    | with_reducible apply Frames.ite
    | split
    | dsimp only

theorem sendEnd_frames {s : State} {c : Fin 16} {r st m n : Nat} : Frames 804352 s (sendEnd s c r st m n).1 := by
  unfold sendEnd
  try dsimp only
  repeat' first
    | with_reducible apply Frames.refl
    | with_reducible assumption
    | (show _ = _; rfl)
    | with_reducible apply Frames.step (g := sendSyncOf_frames)
    | with_reducible apply Frames.ite
    | split
    | with_reducible refine Frames.of_fst (by with_reducible assumption) ?_
    | dsimp only

theorem startSend_frames {s : State} {c : Fin 16} {p : Fin 8} {x : P2p} {cap : Nat} : Frames 947926 s (startSend s c p x cap) := by
  unfold startSend
  try dsimp only
  repeat' first
    | with_reducible apply Frames.refl
    | with_reducible assumption
    | (show _ = _; rfl)
    | with_reducible apply Frames.step (g := ctrAdd_frames)
    | ((with_reducible apply updCrew_step) <;> [skip; rfl; (first | exact crewOk_same rfl | exact fun _ => crewOk_none rfl | exact crewOk_map _ rfl (fun _ h => h) | exact crewOk_map _ rfl (fun _ h => attOk_ite h h) | exact fun h => crewOk_ite (crewOk_same rfl h) (crewOk_same rfl h) | exact fun h => crewOk_ite (crewOk_none rfl) (crewOk_same rfl h)| exact fun h => crewOk_ite (crewOk_same rfl h) (crewOk_none rfl))])
    | with_reducible apply Frames.step (g := sendEnd_frames)
    | with_reducible apply Frames.step (g := crewFault_frames)
    | with_reducible apply Frames.step (g := retireUnit_frames)
    | with_reducible apply Frames.step (g := collUeEvent_frames)
    | with_reducible apply Frames.step (g := collRead_frames)
    | with_reducible apply Frames.step (g := sendRank_frames)
    | ((with_reducible apply Frames.foldl) <;> [skip; intro _ _ _])
    | ((with_reducible apply Frames.foldl_fst) <;> [skip; intro _ _ _])
    | ((with_reducible apply Frames.foldl_snd) <;> [skip; intro _ _ _])
    | with_reducible apply Frames.ite
    | split
    | with_reducible refine Frames.of_fst (by with_reducible assumption) ?_
    | with_reducible refine Frames.of_snd (by with_reducible assumption) ?_
    | dsimp only

theorem startP2p_frames {s : State} {c : Fin 16} {p : Fin 8} {w : Cmd} {iss : Issuer} {tm : Terms} : Frames 947926 s (startP2p s c p w iss tm) := by
  unfold startP2p
  try dsimp only
  repeat' first
    | with_reducible apply Frames.refl
    | with_reducible assumption
    | (show _ = _; rfl)
    | ((with_reducible apply updCrew_step) <;> [skip; rfl; (first | exact crewOk_same rfl | exact fun _ => crewOk_none rfl | exact crewOk_map _ rfl (fun _ h => h) | exact crewOk_map _ rfl (fun _ h => attOk_ite h h) | exact fun h => crewOk_ite (crewOk_same rfl h) (crewOk_same rfl h) | exact fun h => crewOk_ite (crewOk_none rfl) (crewOk_same rfl h)| exact fun h => crewOk_ite (crewOk_same rfl h) (crewOk_none rfl))])
    | with_reducible apply Frames.step (g := startSend_frames)
    | with_reducible apply Frames.step (g := sendSync_frames)
    | with_reducible apply Frames.step (g := crewFault_frames)
    | with_reducible apply Frames.ite
    | split
    | with_reducible refine Frames.of_fst (by with_reducible assumption) ?_
    | dsimp only

theorem takeWaitingN_frames {k : Nat} {s : State} {x2 : Fin 16} : Frames 947926 s (takeWaitingN k s x2) := by
  induction k generalizing s x2 with
  | zero => exact Frames.refl _ _
  | succ k ih =>
    unfold takeWaitingN
    repeat' first
      | with_reducible apply Frames.refl
      | with_reducible apply Frames.step (g := ih)
      | with_reducible assumption
      | (show _ = _; rfl)
      | ((with_reducible apply updCrew_step) <;> [skip; rfl; (first | exact crewOk_same rfl | exact fun _ => crewOk_none rfl | exact crewOk_map _ rfl (fun _ h => h) | exact crewOk_map _ rfl (fun _ h => attOk_ite h h) | exact fun h => crewOk_ite (crewOk_same rfl h) (crewOk_same rfl h) | exact fun h => crewOk_ite (crewOk_none rfl) (crewOk_same rfl h)| exact fun h => crewOk_ite (crewOk_same rfl h) (crewOk_none rfl))])
      | with_reducible apply Frames.step (g := startOp_frames)
      | with_reducible apply Frames.step (g := startP2p_frames)
      | with_reducible apply Frames.ite
      | split
      | dsimp only

theorem takeWaiting_frames {s : State} {c : Fin 16} : Frames 947926 s (takeWaiting s c) := by
  unfold takeWaiting
  try dsimp only
  repeat' first
    | with_reducible apply Frames.refl
    | with_reducible assumption
    | (show _ = _; rfl)
    | with_reducible apply Frames.step (g := takeWaitingN_frames)

theorem advanceCrew_frames {s : State} {c : Fin 16} : Frames 947926 s (advanceCrew s c) := by
  unfold advanceCrew
  try dsimp only
  repeat' first
    | with_reducible apply Frames.refl
    | with_reducible assumption
    | (show _ = _; rfl)
    | with_reducible apply Frames.step (g := takeWaiting_frames)
    | with_reducible apply Frames.step (g := takeTiles_frames)
    | with_reducible apply Frames.step (g := pump_frames)
    | with_reducible apply Frames.step (g := checkArrival_frames)
    | ((with_reducible apply Frames.foldl) <;> [skip; intro _ _ _])
    | split
    | dsimp only

theorem issueRigger_frames {s : State} {c0 : Fin 16} {p : Fin 8} {w : Cmd} {iss : Issuer} : Frames 947926 s (issueRigger s c0 p w iss) := by
  unfold issueRigger
  try dsimp only
  repeat' first
    | with_reducible apply Frames.refl
    | with_reducible assumption
    | (show _ = _; rfl)
    | with_reducible apply Frames.step (g := retireUnit_frames)
    | with_reducible apply Frames.step (g := advanceCrew_frames)
    | ((with_reducible apply updCrew_step) <;> [skip; rfl; (first | exact crewOk_same rfl | exact fun _ => crewOk_none rfl | exact crewOk_map _ rfl (fun _ h => h) | exact crewOk_map _ rfl (fun _ h => attOk_ite h h) | exact fun h => crewOk_ite (crewOk_same rfl h) (crewOk_same rfl h) | exact fun h => crewOk_ite (crewOk_none rfl) (crewOk_same rfl h)| exact fun h => crewOk_ite (crewOk_same rfl h) (crewOk_none rfl))])
    | with_reducible apply Frames.ite
    | split
    | dsimp only

theorem noteCorrupt_frames {s : State} {c : Fin 16} {port : Fin 16} : Frames 17408 s (noteCorrupt s c port) := by
  unfold noteCorrupt
  try dsimp only
  repeat' first
    | with_reducible apply Frames.refl
    | with_reducible assumption
    | (show _ = _; rfl)
    | ((with_reducible apply updAttempt_step) <;> [skip; rfl; (intro a h; first | exact h | exact attOk_ite h h | (split <;> exact h) | exact clusterWrite_ok h)])
    | with_reducible apply Frames.step (g := ctrAdd_frames)
    | with_reducible apply Frames.ite
    | split
    | dsimp only

theorem landDeferred_frames {s : State} {port : Fin 16} {c : Fin 16} {p : Fin 8} {o : CollOp} {d : Deferral} {src : Nat} {bs : List Byte} : FramesO 812244 s (landDeferred s port c p o d src bs) := by
  unfold landDeferred
  try dsimp only
  repeat' first
    | with_reducible apply Frames.refl
    | with_reducible assumption
    | with_reducible apply FramesO.none
    | (show _ = _; rfl)
    | with_reducible apply FramesO.some
    | ((with_reducible apply FramesO.map) <;> [skip; intro _ _])
    | with_reducible apply FramesO.step (g := collWrite_frames)
    | with_reducible refine Frames.of_some (by with_reducible assumption) (FramesO.step ?_ collWrite_frames ?_)
    | with_reducible apply Frames.step (g := updOp_frames)
    | with_reducible apply Frames.step (g := setProblem_frames)
    | with_reducible apply Frames.step (g := noteCorrupt_frames)
    | ((with_reducible apply updCrew_step) <;> [skip; rfl; (first | exact crewOk_same rfl | exact fun _ => crewOk_none rfl | exact crewOk_map _ rfl (fun _ h => h) | exact crewOk_map _ rfl (fun _ h => attOk_ite h h) | exact fun h => crewOk_ite (crewOk_same rfl h) (crewOk_same rfl h) | exact fun h => crewOk_ite (crewOk_none rfl) (crewOk_same rfl h)| exact fun h => crewOk_ite (crewOk_same rfl h) (crewOk_none rfl))])
    | with_reducible apply Frames.step (g := ctrAdd_frames)
    | with_reducible apply Frames.step (g := addLate_frames)
    | with_reducible apply Frames.ite
    | with_reducible apply FramesO.ite
    | with_reducible apply FramesO.getD
    | split
    | ((with_reducible apply FramesO.of) <;> intro _)
    | (intro t e; cases e)
    | dsimp only

theorem landChunk_frames {s : State} {port : Fin 16} {c : Fin 16} {src : Nat} {bs : List Byte} : FramesO 947926 s (landChunk s port c src bs) := by
  unfold landChunk
  try dsimp only
  repeat' first
    | with_reducible apply Frames.refl
    | with_reducible assumption
    | with_reducible apply FramesO.none
    | (show _ = _; rfl)
    | with_reducible apply FramesO.some
    | ((with_reducible apply FramesO.map) <;> [skip; intro _ _])
    | with_reducible apply FramesO.step (g := landDeferred_frames)
    | with_reducible refine Frames.of_some (by with_reducible assumption) (FramesO.step ?_ landDeferred_frames ?_)
    | with_reducible apply Frames.step (g := opFails_frames)
    | (with_reducible apply guardUe_frames)
    | with_reducible apply FramesO.step (g := opWrite_frames)
    | with_reducible refine Frames.of_some (by with_reducible assumption) (FramesO.step ?_ opWrite_frames ?_)
    | with_reducible apply Frames.step (g := updOp_frames)
    | with_reducible apply Frames.step (g := opCorrupt_frames)
    | with_reducible apply Frames.step (g := noteCorrupt_frames)
    | with_reducible apply Frames.ite
    | with_reducible apply FramesO.ite
    | with_reducible apply FramesO.getD
    | split
    | ((with_reducible apply FramesO.of) <;> intro _)
    | (intro t e; cases e)
    | dsimp only

theorem dropP2p_frames {s : State} {c : Fin 16} {x : P2p} : Frames 1024 s (dropP2p s c x) := by
  unfold dropP2p
  try dsimp only
  repeat' first
    | with_reducible apply Frames.refl
    | with_reducible assumption
    | (show _ = _; rfl)
    | ((with_reducible apply updCrew_step) <;> [skip; rfl; (first | exact crewOk_same rfl | exact fun _ => crewOk_none rfl | exact crewOk_map _ rfl (fun _ h => h) | exact crewOk_map _ rfl (fun _ h => attOk_ite h h) | exact fun h => crewOk_ite (crewOk_same rfl h) (crewOk_same rfl h) | exact fun h => crewOk_ite (crewOk_none rfl) (crewOk_same rfl h)| exact fun h => crewOk_ite (crewOk_same rfl h) (crewOk_none rfl))])
    | dsimp only

theorem endRecv_frames {s : State} {c : Fin 16} {x : P2p} : Frames 1024 s (endRecv s c x) := by
  unfold endRecv
  try dsimp only
  repeat' first
    | with_reducible apply Frames.refl
    | with_reducible assumption
    | (show _ = _; rfl)
    | with_reducible apply Frames.step (g := dropP2p_frames)
    | with_reducible apply Frames.step (g := bubble_frames)
    | with_reducible apply Frames.ite
    | split
    | dsimp only

theorem checkRecv_frames {s : State} {c : Fin 16} {src msg : Nat} : Frames 816854 s (checkRecv s c src msg) := by
  unfold checkRecv
  try dsimp only
  repeat' first
    | with_reducible apply Frames.refl
    | with_reducible assumption
    | (show _ = _; rfl)
    | with_reducible apply Frames.step (g := failP2p_frames)
    | with_reducible apply Frames.step (g := setProblem_frames)
    | with_reducible apply Frames.step (g := noteCorrupt_frames)
    | with_reducible apply Frames.step (g := endRecv_frames)
    | with_reducible apply Frames.step (g := crewFault_frames)
    | with_reducible apply Frames.step (g := retireUnit_frames)
    | with_reducible apply Frames.step (g := sendSync_frames)
    | with_reducible apply Frames.step (g := ctrAdd_frames)
    | with_reducible apply Frames.ite
    | split
    | with_reducible refine Frames.of_fst (by with_reducible assumption) ?_
    | dsimp only

theorem landData_frames {s : State} {port : Fin 16} {c : Fin 16} {src : Nat} {bs : List Byte} : FramesO 947926 s (landData s port c src bs) := by
  unfold landData
  try dsimp only
  repeat' first
    | with_reducible apply Frames.refl
    | with_reducible assumption
    | with_reducible apply FramesO.none
    | (show _ = _; rfl)
    | with_reducible apply FramesO.some
    | ((with_reducible apply FramesO.map) <;> [skip; intro _ _])
    | with_reducible apply Frames.step (g := crewFault_frames)
    | with_reducible apply Frames.step (g := failP2p_frames)
    | with_reducible apply Frames.step (g := endRecv_frames)
    | with_reducible apply Frames.step (g := collUeEvent_frames)
    | with_reducible apply FramesO.step (g := collWrite_frames)
    | with_reducible refine Frames.of_some (by with_reducible assumption) (FramesO.step ?_ collWrite_frames ?_)
    | with_reducible apply Frames.step (g := bubble_frames)
    | ((with_reducible apply updCrew_step) <;> [skip; rfl; (first | exact crewOk_same rfl | exact fun _ => crewOk_none rfl | exact crewOk_map _ rfl (fun _ h => h) | exact crewOk_map _ rfl (fun _ h => attOk_ite h h) | exact fun h => crewOk_ite (crewOk_same rfl h) (crewOk_same rfl h) | exact fun h => crewOk_ite (crewOk_none rfl) (crewOk_same rfl h)| exact fun h => crewOk_ite (crewOk_same rfl h) (crewOk_none rfl))])
    | with_reducible apply Frames.step (g := checkRecv_frames)
    | with_reducible apply Frames.ite
    | with_reducible apply FramesO.ite
    | with_reducible apply FramesO.getD
    | split
    | ((with_reducible apply FramesO.of) <;> intro _)
    | (intro t e; cases e)
    | dsimp only

theorem crewSync_step {m : Nat} {r s : State} {c : Fin 16} {src : Nat} {epoch : BitVec 32} {go : State → State} (hs : Frames m r s)
    (hgo : ∀ t, Frames m r t → Frames m r (go t)) (hm : 17408 ||| m = m) : Frames m r (crewSync s c src epoch go) := by
  unfold crewSync
  dsimp only
  have h1 : Frames m r (noteHeard s c src) := hs.step (noteHeard_frames.mono (m := 17408) rfl) hm
  exact Frames.ite hs (Frames.ite (h1.step (ctrAdd_frames.mono (m := 17408) rfl) hm) (hgo _ h1))

theorem execCounts_frames {c : Fin 16} {src : Sender} {op : Nat} {rows : Nat} {included : Nat} {s : State} : FramesN 947926 s (execCounts c src op rows included s) := by
  unfold execCounts
  try dsimp only
  repeat' first
    | with_reducible apply Frames.refl
    | with_reducible assumption
    | (show _ = _; rfl)
    | with_reducible apply FramesN.powered
    | ((with_reducible apply crewSync_step) <;> [skip; (intro _ _; try dsimp only); skip])
    | with_reducible apply Frames.step (g := advanceCrew_frames)
    | with_reducible apply Frames.step (g := updOp_frames)
    | ((with_reducible apply updCrew_step) <;> [skip; rfl; (first | exact crewOk_same rfl | exact fun _ => crewOk_none rfl | exact crewOk_map _ rfl (fun _ h => h) | exact crewOk_map _ rfl (fun _ h => attOk_ite h h) | exact fun h => crewOk_ite (crewOk_same rfl h) (crewOk_same rfl h) | exact fun h => crewOk_ite (crewOk_none rfl) (crewOk_same rfl h)| exact fun h => crewOk_ite (crewOk_same rfl h) (crewOk_none rfl))])
    | with_reducible apply Frames.ite
    | split
    | dsimp only

theorem execReady_frames {c : Fin 16} {src : Sender} {op : Nat} {s : State} : FramesN 947926 s (execReady c src op s) := by
  unfold execReady
  try dsimp only
  repeat' first
    | with_reducible apply Frames.refl
    | with_reducible assumption
    | (show _ = _; rfl)
    | with_reducible apply FramesN.powered
    | ((with_reducible apply crewSync_step) <;> [skip; (intro _ _; try dsimp only); skip])
    | with_reducible apply Frames.step (g := advanceCrew_frames)
    | with_reducible apply Frames.step (g := updOp_frames)
    | ((with_reducible apply updCrew_step) <;> [skip; rfl; (first | exact crewOk_same rfl | exact fun _ => crewOk_none rfl | exact crewOk_map _ rfl (fun _ h => h) | exact crewOk_map _ rfl (fun _ h => attOk_ite h h) | exact fun h => crewOk_ite (crewOk_same rfl h) (crewOk_same rfl h) | exact fun h => crewOk_ite (crewOk_none rfl) (crewOk_same rfl h)| exact fun h => crewOk_ite (crewOk_same rfl h) (crewOk_none rfl))])
    | with_reducible apply Frames.ite
    | split
    | dsimp only

theorem execBarrierSync_frames {c : Fin 16} {src : Sender} {op : Nat} {level : Nat} {release : Bool} {s : State} : FramesN 947926 s (execBarrierSync c src op level release s) := by
  unfold execBarrierSync
  try dsimp only
  repeat' first
    | with_reducible apply Frames.refl
    | with_reducible assumption
    | (show _ = _; rfl)
    | with_reducible apply FramesN.powered
    | ((with_reducible apply crewSync_step) <;> [skip; (intro _ _; try dsimp only); skip])
    | with_reducible apply Frames.step (g := advanceCrew_frames)
    | with_reducible apply Frames.step (g := opFails_frames)
    | with_reducible apply Frames.step (g := updOp_frames)
    | ((with_reducible apply updCrew_step) <;> [skip; rfl; (first | exact crewOk_same rfl | exact fun _ => crewOk_none rfl | exact crewOk_map _ rfl (fun _ h => h) | exact crewOk_map _ rfl (fun _ h => attOk_ite h h) | exact fun h => crewOk_ite (crewOk_same rfl h) (crewOk_same rfl h) | exact fun h => crewOk_ite (crewOk_none rfl) (crewOk_same rfl h)| exact fun h => crewOk_ite (crewOk_same rfl h) (crewOk_none rfl))])
    | with_reducible apply Frames.ite
    | split
    | dsimp only

theorem execCredit_frames {c : Fin 16} {src : Sender} {stage : BitVec 16} {cap : Nat} {s : State} : FramesN 947926 s (execCredit c src stage cap s) := by
  unfold execCredit
  try dsimp only
  repeat' first
    | with_reducible apply Frames.refl
    | with_reducible assumption
    | (show _ = _; rfl)
    | with_reducible apply FramesN.powered
    | ((with_reducible apply crewSync_step) <;> [skip; (intro _ _; try dsimp only); skip])
    | with_reducible apply Frames.step (g := advanceCrew_frames)
    | with_reducible apply Frames.step (g := startSend_frames)
    | ((with_reducible apply updCrew_step) <;> [skip; rfl; (first | exact crewOk_same rfl | exact fun _ => crewOk_none rfl | exact crewOk_map _ rfl (fun _ h => h) | exact crewOk_map _ rfl (fun _ h => attOk_ite h h) | exact fun h => crewOk_ite (crewOk_same rfl h) (crewOk_same rfl h) | exact fun h => crewOk_ite (crewOk_none rfl) (crewOk_same rfl h)| exact fun h => crewOk_ite (crewOk_same rfl h) (crewOk_none rfl))])
    | with_reducible apply Frames.ite
    | split
    | dsimp only

theorem doneMsg_frames {s : State} {c : Fin 16} {src : Nat} {msg : BitVec 32} {landed : Nat} {ends : Bool} : Frames 816854 s (doneMsg s c src msg landed ends) := by
  unfold doneMsg
  try dsimp only
  repeat' first
    | with_reducible apply Frames.refl
    | with_reducible assumption
    | (show _ = _; rfl)
    | ((with_reducible apply updCrew_step) <;> [skip; rfl; (first | exact crewOk_same rfl | exact fun _ => crewOk_none rfl | exact crewOk_map _ rfl (fun _ h => h) | exact crewOk_map _ rfl (fun _ h => attOk_ite h h) | exact fun h => crewOk_ite (crewOk_same rfl h) (crewOk_same rfl h) | exact fun h => crewOk_ite (crewOk_none rfl) (crewOk_same rfl h)| exact fun h => crewOk_ite (crewOk_same rfl h) (crewOk_none rfl))])
    | with_reducible apply Frames.step (g := checkRecv_frames)
    | with_reducible apply Frames.step (g := dropP2p_frames)
    | with_reducible apply Frames.step (g := ctrAdd_frames)
    | with_reducible apply Frames.step (g := retireUnit_frames)
    | with_reducible apply Frames.ite
    | split
    | dsimp only

theorem retireOp_frames {s : State} {c : Fin 16} {op : Nat} : Frames 21638 s (retireOp s c op) := by
  unfold retireOp
  try dsimp only
  repeat' first
    | with_reducible apply Frames.refl
    | with_reducible assumption
    | (show _ = _; rfl)
    | ((with_reducible apply updCrew_step) <;> [skip; rfl; (first | exact crewOk_same rfl | exact fun _ => crewOk_none rfl | exact crewOk_map _ rfl (fun _ h => h) | exact crewOk_map _ rfl (fun _ h => attOk_ite h h) | exact fun h => crewOk_ite (crewOk_same rfl h) (crewOk_same rfl h) | exact fun h => crewOk_ite (crewOk_none rfl) (crewOk_same rfl h)| exact fun h => crewOk_ite (crewOk_same rfl h) (crewOk_none rfl))])
    | with_reducible apply Frames.step (g := retireUnit_frames)
    | with_reducible apply Frames.step (g := ctrAdd_frames)
    | with_reducible apply Frames.ite
    | split
    | dsimp only

/-! ## Counters -/

theorem updGroup_frames {s : State} {g : Fin 80} {h : Group → Group} : Frames 262144 s (updGroup s g h) := by
  unfold updGroup
  try dsimp only
  repeat' first
    | with_reducible apply Frames.refl
    | with_reducible assumption
    | (show _ = _; rfl)
    | ((with_reducible apply Frames.set_counters) <;> [skip; rfl; (first | exact fun h => h | exact fun h => put_ok _ _ h | exact fun h => memFresh_ok _ h | exact fun h => devFresh_ok h | exact fun h => ⟨h.1, writeN_wf _ _ _ h.2⟩ | exact fun h => writeN_wf _ _ _ h | exact fun h => writeL_wf _ _ h)])

theorem groupWrite_frames {s : State} {g : Fin 80} {c : List Byte} : Frames 262144 s (groupWrite s g c) := by
  unfold groupWrite
  try dsimp only
  repeat' first
    | with_reducible apply Frames.refl
    | with_reducible assumption
    | (show _ = _; rfl)
    | with_reducible apply Frames.step (g := updGroup_frames)
    | with_reducible apply Frames.ite
    | split
    | dsimp only

theorem ringPut_frames {s : State} {g : Fin 80} {c : List Byte} {bs : List Byte} : Frames 278592 s (ringPut s g c bs) := by
  unfold ringPut
  try dsimp only
  repeat' first
    | with_reducible apply Frames.refl
    | with_reducible assumption
    | (show _ = _; rfl)
    | with_reducible apply Frames.step (g := genBump_frames)
    | with_reducible apply Frames.step (g := devWrite_frames)
    | with_reducible apply Frames.step (g := hbmWriteN_frames)
    | with_reducible apply Frames.ite
    | split
    | dsimp only
    | ((with_reducible apply Frames.set_counters) <;> [skip; rfl; (first | exact fun h => h | exact fun h => put_ok _ _ h | exact fun h => memFresh_ok _ h | exact fun h => devFresh_ok h | exact fun h => ⟨h.1, writeN_wf _ _ _ h.2⟩ | exact fun h => writeN_wf _ _ _ h | exact fun h => writeL_wf _ _ h)])

theorem sampleWrite_frames {s : State} {g : Fin 80} {lost : Bool} : Frames 278594 s (sampleWrite s g lost) := by
  unfold sampleWrite
  try dsimp only
  repeat' first
    | with_reducible apply Frames.refl
    | with_reducible assumption
    | (show _ = _; rfl)
    | with_reducible apply Frames.step (g := meters_frames)
    | with_reducible apply Frames.step (g := ringPut_frames)
    | with_reducible apply Frames.step (g := updGroup_frames)
    | with_reducible apply Frames.ite
    | split
    | with_reducible refine Frames.of_snd (by with_reducible assumption) ?_
    | dsimp only

theorem groupLose_frames {s : State} {g : Fin 80} : Frames 278594 s (groupLose s g) := by
  unfold groupLose
  try dsimp only
  repeat' first
    | with_reducible apply Frames.refl
    | with_reducible assumption
    | (show _ = _; rfl)
    | with_reducible apply Frames.step (g := sampleWrite_frames)
    | with_reducible apply Frames.step (g := updGroup_frames)
    | with_reducible apply Frames.ite
    | split
    | dsimp only

theorem groupsCheck_frames {s : State} : Frames 278594 s (groupsCheck s) := by
  unfold groupsCheck
  try dsimp only
  repeat' first
    | with_reducible apply Frames.refl
    | with_reducible assumption
    | (show _ = _; rfl)
    | with_reducible apply Frames.step (g := groupLose_frames)
    | ((with_reducible apply Frames.foldl) <;> [skip; intro _ _ _])
    | with_reducible apply Frames.ite
    | split
    | dsimp only

theorem ringsCheck_frames {s : State} {p : Fin 8} : Frames 262144 s (ringsCheck s p) := by
  unfold ringsCheck
  try dsimp only
  repeat' first
    | with_reducible apply Frames.refl
    | with_reducible assumption
    | (show _ = _; rfl)
    | with_reducible apply Frames.step (g := updGroup_frames)
    | ((with_reducible apply Frames.foldl) <;> [skip; intro _ _ _])
    | with_reducible apply Frames.ite
    | split
    | dsimp only

theorem execCounterSample_frames {g : Fin 80} {lost : Bool} {s : State} : FramesN 278595 s (execCounterSample g lost s) := by
  unfold execCounterSample
  try dsimp only
  repeat' first
    | with_reducible apply Frames.refl
    | with_reducible assumption
    | (show _ = _; rfl)
    | with_reducible apply FramesN.powered
    | with_reducible apply Frames.step (g := reach_frames)
    | with_reducible apply Frames.step (g := groupLose_frames)
    | with_reducible apply Frames.step (g := updGroup_frames)
    | with_reducible apply Frames.step (g := sampleWrite_frames)
    | with_reducible apply Frames.ite
    | split
    | dsimp only

theorem spillPut_frames {s : State} {bs : List Byte} : Frames 278528 s (spillPut s bs) := by
  unfold spillPut
  try dsimp only
  repeat' first
    | with_reducible apply Frames.refl
    | with_reducible assumption
    | (show _ = _; rfl)
    | with_reducible apply Frames.step (g := genBump_frames)
    | with_reducible apply Frames.ite
    | split
    | dsimp only
    | ((with_reducible apply Frames.set_counters) <;> [skip; rfl; (first | exact fun h => h | exact fun h => put_ok _ _ h | exact fun h => memFresh_ok _ h | exact fun h => devFresh_ok h | exact fun h => ⟨h.1, writeN_wf _ _ _ h.2⟩ | exact fun h => writeN_wf _ _ _ h | exact fun h => writeL_wf _ _ h)])

theorem syncPacket_frames {s : State} {core part : Nat} : Frames 2 s (syncPacket s core part).2 := by
  unfold syncPacket
  try dsimp only
  repeat' first
    | with_reducible apply Frames.refl
    | with_reducible assumption
    | (show _ = _; rfl)
    | with_reducible apply Frames.step (g := fresh_frames)
    | split
    | with_reducible refine Frames.of_snd (by with_reducible assumption) ?_
    | dsimp only

theorem pcInRange_frames {s : State} {k : Nat} : Frames 2 s (pcInRange s k).2 := by
  unfold pcInRange
  try dsimp only
  repeat' first
    | with_reducible apply Frames.refl
    | with_reducible assumption
    | (show _ = _; rfl)
    | with_reducible apply Frames.step (g := fresh_frames)
    | with_reducible apply Frames.ite
    | split
    | with_reducible refine Frames.of_snd (by with_reducible assumption) ?_
    | dsimp only

theorem traceLeave_frames {s : State} {x : Nat × Nat × Nat} : Frames 278528 s (traceLeave s x) := by
  unfold traceLeave
  try dsimp only
  repeat' first
    | with_reducible apply Frames.refl
    | with_reducible assumption
    | (show _ = _; rfl)
    | with_reducible apply Frames.step (g := spillPut_frames)
    | fail_if_no_progress ((with_reducible apply Frames.set_counters) <;> [skip; rfl; (first | exact fun h => h | exact fun h => put_ok _ _ h | exact fun h => memFresh_ok _ h | exact fun h => devFresh_ok h | exact fun h => ⟨h.1, writeN_wf _ _ _ h.2⟩ | exact fun h => writeN_wf _ _ _ h | exact fun h => writeL_wf _ _ h)])
    | with_reducible apply Frames.ite
    | split
    | dsimp only

theorem traceEnter_frames {s : State} {x : Nat × Nat × Nat} : Frames 278530 s (traceEnter s x) := by
  unfold traceEnter
  try dsimp only
  repeat' first
    | with_reducible apply Frames.refl
    | with_reducible assumption
    | (show _ = _; rfl)
    | with_reducible apply Frames.step (g := pcInRange_frames)
    | with_reducible apply Frames.step (g := syncPacket_frames)
    | with_reducible apply Frames.step (g := spillPut_frames)
    | fail_if_no_progress ((with_reducible apply Frames.set_counters) <;> [skip; rfl; (first | exact fun h => h | exact fun h => put_ok _ _ h | exact fun h => memFresh_ok _ h | exact fun h => devFresh_ok h | exact fun h => ⟨h.1, writeN_wf _ _ _ h.2⟩ | exact fun h => writeN_wf _ _ _ h | exact fun h => writeL_wf _ _ h)])
    | with_reducible apply Frames.ite
    | split
    | with_reducible refine Frames.of_snd (by with_reducible assumption) ?_
    | dsimp only

theorem traceStay_frames {now : List (Nat × Nat × Nat)} {s : State} {x : Nat × Nat × Nat} : Frames 278530 s (traceStay now s x) := by
  unfold traceStay
  try dsimp only
  repeat' first
    | with_reducible apply Frames.refl
    | with_reducible assumption
    | (show _ = _; rfl)
    | with_reducible apply Frames.step (g := traceLeave_frames)
    | with_reducible apply Frames.step (g := pcInRange_frames)
    | with_reducible apply Frames.ite
    | split
    | with_reducible refine Frames.of_snd (by with_reducible assumption) ?_
    | dsimp only

theorem traceTick_frames {s : State} : Frames 278530 s (traceTick s) := by
  unfold traceTick
  try dsimp only
  repeat' first
    | with_reducible apply Frames.refl
    | with_reducible assumption
    | (show _ = _; rfl)
    | with_reducible apply Frames.step (g := traceEnter_frames)
    | with_reducible apply Frames.step (g := traceStay_frames)
    | ((with_reducible apply Frames.foldl) <;> [skip; intro _ _ _])
    | ((with_reducible apply Frames.foldl_fst) <;> [skip; intro _ _ _])
    | ((with_reducible apply Frames.foldl_snd) <;> [skip; intro _ _ _])
    | with_reducible apply Frames.ite
    | split
    | with_reducible refine Frames.of_fst (by with_reducible assumption) ?_
    | with_reducible refine Frames.of_snd (by with_reducible assumption) ?_
    | dsimp only

theorem execTraceDrop_frames {k : Fin 4} {bytes : BitVec 32} {instrs : BitVec 32} {s : State} : FramesN 278530 s (execTraceDrop k bytes instrs s) := by
  unfold execTraceDrop
  try dsimp only
  repeat' first
    | with_reducible apply Frames.refl
    | with_reducible assumption
    | (show _ = _; rfl)
    | with_reducible apply FramesN.powered
    | with_reducible apply Frames.step (g := ctrAdd_frames)
    | with_reducible apply Frames.step (g := fresh_frames)
    | with_reducible apply Frames.step (g := spillPut_frames)
    | with_reducible apply Frames.step (g := syncPacket_frames)
    | ((with_reducible apply Frames.foldl) <;> [skip; intro _ _ _])
    | ((with_reducible apply Frames.foldl_fst) <;> [skip; intro _ _ _])
    | ((with_reducible apply Frames.foldl_snd) <;> [skip; intro _ _ _])
    | with_reducible apply Frames.ite
    | split
    | with_reducible refine Frames.of_snd (by with_reducible assumption) ?_
    | dsimp only

theorem execTraceSpillFull_frames {s : State} : FramesN 262144 s (execTraceSpillFull s) := by
  unfold execTraceSpillFull
  try dsimp only
  repeat' first
    | with_reducible apply Frames.refl
    | with_reducible assumption
    | (show _ = _; rfl)
    | with_reducible apply FramesN.powered
    | with_reducible apply Frames.ite
    | split
    | ((with_reducible apply Frames.set_counters) <;> [skip; rfl; (first | exact fun h => h | exact fun h => put_ok _ _ h | exact fun h => memFresh_ok _ h | exact fun h => devFresh_ok h | exact fun h => ⟨h.1, writeN_wf _ _ _ h.2⟩ | exact fun h => writeN_wf _ _ _ h | exact fun h => writeL_wf _ _ h)])

theorem traceApply_frames {s : State} : Frames 262144 s (traceApply s) := by
  unfold traceApply
  try dsimp only
  repeat' first
    | with_reducible apply Frames.refl
    | with_reducible assumption
    | (show _ = _; rfl)
    | fail_if_no_progress ((with_reducible apply Frames.set_counters) <;> [skip; rfl; (first | exact fun h => h | exact fun h => put_ok _ _ h | exact fun h => memFresh_ok _ h | exact fun h => devFresh_ok h | exact fun h => ⟨h.1, writeN_wf _ _ _ h.2⟩ | exact fun h => writeN_wf _ _ _ h | exact fun h => writeL_wf _ _ h)])
    | with_reducible apply Frames.ite
    | split
    | dsimp only

/-! ## Tick -/

theorem errorArises_frames {s : State} {v : U64} : Frames 147536 s (errorArises s v) := by
  unfold errorArises
  extract_lets n
  clear_value n
  split
  · exact updPallet_step (Frames.refl _ _) rfl fun h => h
  · exact updPallet_step (Frames.refl _ _) rfl fun h => h
  · exact Frames.set_hbm (Frames.refl _ _) rfl fun h => h
  · exact Frames.set_hbm (Frames.refl _ _) rfl fun h => h
  · exact Frames.ite (ctrAdd_frames.mono rfl) (Frames.refl _ _)
  · exact flashFails_frames.mono rfl
  · exact Frames.refl _ _

theorem slewTick_frames {s : State} : Frames 513 s (slewTick s) := by
  unfold slewTick
  try dsimp only
  repeat' first
    | with_reducible apply Frames.refl
    | with_reducible assumption
    | (show _ = _; rfl)
    | fail_if_no_progress ((with_reducible apply Frames.set_now_rigger) <;> [skip; (first | rfl | exact fun h => h | exact fun h => put_ok _ _ h | exact fun h => memFresh_ok _ h | exact fun h => devFresh_ok h | exact fun h => ⟨h.1, writeN_wf _ _ _ h.2⟩ | exact fun h => writeN_wf _ _ _ h | exact fun h => writeL_wf _ _ h); (first | rfl | exact fun h => h | exact fun h => put_ok _ _ h | exact fun h => memFresh_ok _ h | exact fun h => devFresh_ok h | exact fun h => ⟨h.1, writeN_wf _ _ _ h.2⟩ | exact fun h => writeN_wf _ _ _ h | exact fun h => writeL_wf _ _ h)])
    | with_reducible apply Frames.ite
    | split
    | dsimp only

theorem tick_frames {s : State} : Frames 934483 s (tick s) := by
  unfold tick
  try dsimp only
  repeat' first
    | with_reducible apply Frames.refl
    | with_reducible assumption
    | (show _ = _; rfl)
    | with_reducible apply Frames.step (g := fresh_frames)
    | with_reducible apply Frames.step (g := traceTick_frames)
    | with_reducible apply Frames.step (g := serveRegs_frames)
    | with_reducible apply Frames.step (g := slewTick_frames)
    | with_reducible apply Frames.step (g := errorArises_frames)
    | with_reducible apply Frames.ite
    | split
    | with_reducible refine Frames.of_snd (by with_reducible assumption) ?_
    | dsimp only

/-! ## Card -/

theorem setLayerRec_frames {s : State} {p : Fin 8} {k : Nat} {r : BitVec 512} : Frames 4096 s (setLayerRec s p k r) := by
  unfold setLayerRec
  try dsimp only
  repeat' first
    | with_reducible apply Frames.refl
    | with_reducible assumption
    | (show _ = _; rfl)
    | with_reducible apply Frames.step (g := updCox_frames)
    | dsimp only

theorem flipLayer_frames {s : State} {p : Fin 8} {d : BitVec 1024} {x : LayerPend} : Frames 4160 s (flipLayer s p d x) := by
  unfold flipLayer
  try dsimp only
  repeat' first
    | with_reducible apply Frames.refl
    | with_reducible assumption
    | (show _ = _; rfl)
    | with_reducible apply Frames.step (g := setLayerRec_frames)
    | with_reducible apply Frames.step (g := hbmWriteN_frames)
    | with_reducible apply Frames.ite
    | split
    | dsimp only

theorem flipAll_frames {s : State} {p : Fin 8} {a : Attempt} : Frames 4160 s (flipAll s p a) := by
  unfold flipAll
  try dsimp only
  repeat' first
    | with_reducible apply Frames.refl
    | with_reducible assumption
    | (show _ = _; rfl)
    | with_reducible apply Frames.step (g := flipLayer_frames)
    | ((with_reducible apply Frames.foldl) <;> [skip; intro _ _ _])
    | split
    | dsimp only

theorem markDirty_frames {s : State} {p : Fin 8} {ks : List Nat} : Frames 4096 s (markDirty s p ks) := by
  unfold markDirty
  try dsimp only
  repeat' first
    | with_reducible apply Frames.refl
    | with_reducible assumption
    | (show _ = _; rfl)
    | with_reducible apply Frames.step (g := setLayerRec_frames)
    | ((with_reducible apply Frames.foldl) <;> [skip; intro _ _ _])
    | dsimp only

theorem cardRingWrite_frames {s : State} {off : Nat} {bs : List Byte} : Frames 64 s (cardRingWrite s off bs) := by
  unfold cardRingWrite
  try dsimp only
  repeat' first
    | with_reducible apply Frames.refl
    | with_reducible assumption
    | (show _ = _; rfl)
    | with_reducible apply Frames.step (g := devWrite_frames)
    | dsimp only

theorem cardToHbm_frames {s : State} {c : Fin 16} {p : Fin 8} {bs : List Byte} : Frames 17472 s (cardToHbm s c p bs) := by
  unfold cardToHbm
  try dsimp only
  repeat' first
    | with_reducible apply Frames.refl
    | with_reducible assumption
    | (show _ = _; rfl)
    | with_reducible apply Frames.step (g := hbmWriteN_frames)
    | ((with_reducible apply updCrew_step) <;> [skip; rfl; (first | exact crewOk_same rfl | exact fun _ => crewOk_none rfl | exact crewOk_map _ rfl (fun _ h => h) | exact crewOk_map _ rfl (fun _ h => attOk_ite h h) | exact fun h => crewOk_ite (crewOk_same rfl h) (crewOk_same rfl h) | exact fun h => crewOk_ite (crewOk_none rfl) (crewOk_same rfl h)| exact fun h => crewOk_ite (crewOk_same rfl h) (crewOk_none rfl))])
    | with_reducible apply Frames.step (g := ctrAdd_frames)
    | with_reducible apply Frames.ite
    | split
    | dsimp only

theorem cardToHost_frames {s : State} {c : Fin 16} {p : Fin 8} {bs : List Byte} : Frames 17536 s (cardToHost s c p bs) := by
  unfold cardToHost
  try dsimp only
  repeat' first
    | with_reducible apply Frames.refl
    | with_reducible assumption
    | (show _ = _; rfl)
    | with_reducible apply Frames.step (g := hostWrite_frames)
    | ((with_reducible apply updCrew_step) <;> [skip; rfl; (first | exact crewOk_same rfl | exact fun _ => crewOk_none rfl | exact crewOk_map _ rfl (fun _ h => h) | exact crewOk_map _ rfl (fun _ h => attOk_ite h h) | exact fun h => crewOk_ite (crewOk_same rfl h) (crewOk_same rfl h) | exact fun h => crewOk_ite (crewOk_none rfl) (crewOk_same rfl h)| exact fun h => crewOk_ite (crewOk_same rfl h) (crewOk_none rfl))])
    | with_reducible apply Frames.step (g := ctrAdd_frames)
    | with_reducible apply Frames.ite
    | split
    | dsimp only

theorem putCard_frames {s : State} {c : Fin 16} {p : Fin 8} {bs : List Byte} : Frames 19648 s (putCard s c p bs) := by
  unfold putCard
  try dsimp only
  repeat' first
    | with_reducible apply Frames.refl
    | with_reducible assumption
    | (show _ = _; rfl)
    | with_reducible apply Frames.step (g := cardRingWrite_frames)
    | with_reducible apply Frames.step (g := genBump_frames)
    | ((with_reducible apply updCrew_step) <;> [skip; rfl; (first | exact crewOk_same rfl | exact fun _ => crewOk_none rfl | exact crewOk_map _ rfl (fun _ h => h) | exact crewOk_map _ rfl (fun _ h => attOk_ite h h) | exact fun h => crewOk_ite (crewOk_same rfl h) (crewOk_same rfl h) | exact fun h => crewOk_ite (crewOk_none rfl) (crewOk_same rfl h)| exact fun h => crewOk_ite (crewOk_same rfl h) (crewOk_none rfl))])
    | with_reducible apply Frames.step (g := cardToHost_frames)
    | with_reducible apply Frames.step (g := cardToHbm_frames)
    | dsimp only
    | with_reducible apply Frames.set_cards

/-! ## Sets -/

theorem setEvent_frames {s : State} {r : SetRec} : Frames 8192 s (setEvent s r) := by
  unfold setEvent
  try dsimp only
  repeat' first
    | with_reducible apply Frames.refl
    | with_reducible assumption
    | (show _ = _; rfl)
    | with_reducible apply Frames.step (g := raiseTo_frames)
    | split
    | dsimp only
    | dsimp only [id]

theorem pushRec_frames {s : State} {r : SetRec} : Frames 16384 s (pushRec s r) := by
  unfold pushRec
  try dsimp only
  repeat' first
    | with_reducible apply Frames.refl
    | with_reducible assumption
    | (show _ = _; rfl)
    | with_reducible apply Frames.step (g := genBump_frames)
    | with_reducible apply Frames.set_dict

theorem endOpen_frames {s : State} {outcome : Nat} : Frames 24576 s (endOpen s outcome) := by
  unfold endOpen
  try dsimp only
  repeat' first
    | with_reducible apply Frames.refl
    | with_reducible assumption
    | (show _ = _; rfl)
    | with_reducible apply Frames.step (g := pushRec_frames)
    | with_reducible apply Frames.step (g := setEvent_frames)
    | with_reducible apply Frames.step (g := ctrAdd_frames)
    | with_reducible apply Frames.step (g := genBump_frames)
    | with_reducible apply Frames.ite
    | split
    | dsimp only
    | dsimp only [id]
    | with_reducible apply Frames.set_dict

theorem endOpenOf_frames {s : State} {h : Holder → Bool} {outcome : Nat} : Frames 24576 s (endOpenOf s h outcome) := by
  unfold endOpenOf
  try dsimp only
  repeat' first
    | with_reducible apply Frames.refl
    | with_reducible assumption
    | (show _ = _; rfl)
    | with_reducible apply Frames.step (g := endOpen_frames)
    | with_reducible apply Frames.ite
    | split
    | dsimp only

theorem endPending_frames {s : State} {id : BitVec 32} {outcome : Nat} : Frames 24576 s (endPending s id outcome) := by
  unfold endPending
  try dsimp only
  repeat' first
    | with_reducible apply Frames.refl
    | with_reducible assumption
    | (show _ = _; rfl)
    | with_reducible apply Frames.step (g := genBump_frames)
    | with_reducible apply Frames.step (g := ctrAdd_frames)
    | with_reducible apply Frames.step (g := setEvent_frames)
    | with_reducible apply Frames.ite
    | split
    | dsimp only
    | dsimp only [id]
    | with_reducible apply Frames.set_dict

theorem cancelCrew_frames {s : State} {c : Fin 16} : Frames 24576 s (cancelCrew s c) := by
  unfold cancelCrew
  try dsimp only
  repeat' first
    | with_reducible apply Frames.refl
    | with_reducible assumption
    | (show _ = _; rfl)
    | with_reducible apply Frames.step (g := endPending_frames)
    | ((with_reducible apply Frames.foldl) <;> [skip; intro _ _ _])
    | dsimp only
    | dsimp only [id]

end Sys2Proof.Machine
end

