-- ==== Sys2Proof/Laws/FramesCrews.lean ====
section
/-! SUPPORT. What each function of the state may change, in the terms of Frames: the decision, Courses, the core map, Strokes, the Cox and Crew commands. -/

set_option linter.all false

namespace Sys2Proof.Machine

open Sys2Proof

/-! ## Finish -/

theorem sendDec_frames {s : State} {c : Fin 16} {kind : Nat} {d : Decision} {r : Nat} : Frames 804352 s (sendDec s c kind d r) := by
  unfold sendDec
  try dsimp only
  repeat' first
    | with_reducible apply Frames.refl
    | with_reducible assumption
    | (show _ = _; rfl)
    | with_reducible apply Frames.step (g := sendFin_frames)

theorem logDec_frames {s : State} {c : Fin 16} {d : Decision} : Frames 17408 s (logDec s c d) := by
  unfold logDec
  try dsimp only
  repeat' first
    | with_reducible apply Frames.refl
    | with_reducible assumption
    | (show _ = _; rfl)
    | with_reducible apply Frames.step (g := genBump_frames)
    | ((with_reducible apply updCrew_step) <;> [skip; rfl; (first | exact crewOk_same rfl | exact fun _ => crewOk_none rfl | exact crewOk_map _ rfl (fun _ h => h) | exact crewOk_map _ rfl (fun _ h => attOk_ite h h) | exact fun h => crewOk_ite (crewOk_same rfl h) (crewOk_same rfl h) | exact fun h => crewOk_ite (crewOk_none rfl) (crewOk_same rfl h)| exact fun h => crewOk_ite (crewOk_same rfl h) (crewOk_none rfl))])
    | with_reducible apply Frames.ite
    | split
    | dsimp only

theorem sendDown_frames {s : State} {c : Fin 16} {d : Decision} : Frames 804352 s (sendDown s c d) := by
  unfold sendDown
  try dsimp only
  repeat' first
    | with_reducible apply Frames.refl
    | with_reducible assumption
    | (show _ = _; rfl)
    | with_reducible apply Frames.step (g := sendDec_frames)
    | ((with_reducible apply Frames.foldl) <;> [skip; intro _ _ _])
    | dsimp only

theorem spreadDec_frames {s : State} {c : Fin 16} {d : Decision} {from_ : Option Nat} : Frames 804352 s (spreadDec s c d from_) := by
  unfold spreadDec
  try dsimp only
  repeat' first
    | with_reducible apply Frames.refl
    | with_reducible assumption
    | (show _ = _; rfl)
    | with_reducible apply Frames.step (g := sendDec_frames)
    | ((with_reducible apply Frames.foldl) <;> [skip; intro _ _ _])
    | with_reducible apply Frames.ite
    | split
    | dsimp only

theorem startRejoin_frames {s : State} {c : Fin 16} : Frames 1024 s (startRejoin s c) := by
  unfold startRejoin
  try dsimp only
  repeat' first
    | with_reducible apply Frames.refl
    | with_reducible assumption
    | (show _ = _; rfl)
    | ((with_reducible apply updCrew_step) <;> [skip; rfl; (first | exact crewOk_same rfl | exact fun _ => crewOk_none rfl | exact crewOk_map _ rfl (fun _ h => h) | exact crewOk_map _ rfl (fun _ h => attOk_ite h h) | exact fun h => crewOk_ite (crewOk_same rfl h) (crewOk_same rfl h) | exact fun h => crewOk_ite (crewOk_none rfl) (crewOk_same rfl h)| exact fun h => crewOk_ite (crewOk_same rfl h) (crewOk_none rfl))])
    | with_reducible apply Frames.ite
    | with_reducible apply FramesO.getD
    | split
    | ((with_reducible apply FramesO.of) <;> intro _)
    | dsimp only

theorem becomeStale_frames {s : State} {c : Fin 16} {conflict : Bool} : Frames 1024 s (becomeStale s c conflict) := by
  unfold becomeStale
  try dsimp only
  repeat' first
    | with_reducible apply Frames.refl
    | with_reducible assumption
    | (show _ = _; rfl)
    | ((with_reducible apply updCrew_step) <;> [skip; rfl; (first | exact crewOk_same rfl | exact fun _ => crewOk_none rfl | exact crewOk_map _ rfl (fun _ h => h) | exact crewOk_map _ rfl (fun _ h => attOk_ite h h) | exact fun h => crewOk_ite (crewOk_same rfl h) (crewOk_same rfl h) | exact fun h => crewOk_ite (crewOk_none rfl) (crewOk_same rfl h)| exact fun h => crewOk_ite (crewOk_same rfl h) (crewOk_none rfl))])
    | with_reducible apply Frames.step (g := startRejoin_frames)
    | with_reducible apply Frames.ite
    | split
    | dsimp only

theorem holdDecision_frames {s : State} {c : Fin 16} {d : Decision} : Frames 17408 s (holdDecision s c d).1 := by
  unfold holdDecision
  try dsimp only
  repeat' first
    | with_reducible apply Frames.refl
    | with_reducible assumption
    | (show _ = _; rfl)
    | with_reducible apply Frames.step (g := becomeStale_frames)
    | ((with_reducible apply updCrew_step) <;> [skip; rfl; (first | exact crewOk_same rfl | exact fun _ => crewOk_none rfl | exact crewOk_map _ rfl (fun _ h => h) | exact crewOk_map _ rfl (fun _ h => attOk_ite h h) | exact fun h => crewOk_ite (crewOk_same rfl h) (crewOk_same rfl h) | exact fun h => crewOk_ite (crewOk_none rfl) (crewOk_same rfl h)| exact fun h => crewOk_ite (crewOk_same rfl h) (crewOk_none rfl))])
    | with_reducible apply Frames.step (g := logDec_frames)
    | with_reducible apply Frames.ite
    | split
    | dsimp only

theorem takeDecision_frames {s : State} {c : Fin 16} {d : Decision} {from_ : Option Nat} : Frames 804352 s (takeDecision s c d from_) := by
  unfold takeDecision
  try dsimp only
  repeat' first
    | with_reducible apply Frames.refl
    | with_reducible assumption
    | (show _ = _; rfl)
    | with_reducible apply Frames.step (g := holdDecision_frames)
    | with_reducible apply Frames.step (g := spreadDec_frames)
    | with_reducible apply Frames.step (g := sendDown_frames)
    | with_reducible apply Frames.ite
    | split
    | with_reducible refine Frames.of_fst (by with_reducible assumption) ?_
    | dsimp only

theorem replicate_frames {s : State} {c : Fin 16} {d : Decision} : Frames 804352 s (replicate s c d) := by
  unfold replicate
  try dsimp only
  repeat' first
    | with_reducible apply Frames.refl
    | with_reducible assumption
    | (show _ = _; rfl)
    | with_reducible apply Frames.step (g := logDec_frames)
    | with_reducible apply Frames.step (g := takeDecision_frames)
    | ((with_reducible apply updCrew_step) <;> [skip; rfl; (first | exact crewOk_same rfl | exact fun _ => crewOk_none rfl | exact crewOk_map _ rfl (fun _ h => h) | exact crewOk_map _ rfl (fun _ h => attOk_ite h h) | exact fun h => crewOk_ite (crewOk_same rfl h) (crewOk_same rfl h) | exact fun h => crewOk_ite (crewOk_none rfl) (crewOk_same rfl h)| exact fun h => crewOk_ite (crewOk_same rfl h) (crewOk_none rfl))])
    | with_reducible apply Frames.step (g := sendFin_frames)
    | with_reducible apply Frames.ite
    | split
    | dsimp only

theorem decideTop_frames {s : State} {c : Fin 16} {v : VoteBody} : Frames 804352 s (decideTop s c v) := by
  unfold decideTop
  try dsimp only
  repeat' first
    | with_reducible apply Frames.refl
    | with_reducible assumption
    | (show _ = _; rfl)
    | ((with_reducible apply updCrew_step) <;> [skip; rfl; (first | exact crewOk_same rfl | exact fun _ => crewOk_none rfl | exact crewOk_map _ rfl (fun _ h => h) | exact crewOk_map _ rfl (fun _ h => attOk_ite h h) | exact fun h => crewOk_ite (crewOk_same rfl h) (crewOk_same rfl h) | exact fun h => crewOk_ite (crewOk_none rfl) (crewOk_same rfl h)| exact fun h => crewOk_ite (crewOk_same rfl h) (crewOk_none rfl))])
    | with_reducible apply Frames.step (g := replicate_frames)
    | with_reducible apply Frames.ite
    | split
    | dsimp only

theorem voteUp_frames {s : State} {c : Fin 16} : Frames 804352 s (voteUp s c) := by
  unfold voteUp
  try dsimp only
  repeat' first
    | with_reducible apply Frames.refl
    | with_reducible assumption
    | (show _ = _; rfl)
    | with_reducible apply Frames.step (g := sendFinNow_frames)
    | with_reducible apply Frames.step (g := decideTop_frames)
    | with_reducible apply Frames.ite
    | split
    | dsimp only

theorem castVote_frames {s : State} {c : Fin 16} : Frames 804352 s (castVote s c) := by
  unfold castVote
  try dsimp only
  repeat' first
    | with_reducible apply Frames.refl
    | with_reducible assumption
    | (show _ = _; rfl)
    | ((with_reducible apply updCrew_step) <;> [skip; rfl; (first | exact crewOk_same rfl | exact fun _ => crewOk_none rfl | exact crewOk_map _ rfl (fun _ h => h) | exact crewOk_map _ rfl (fun _ h => attOk_ite h h) | exact fun h => crewOk_ite (crewOk_same rfl h) (crewOk_same rfl h) | exact fun h => crewOk_ite (crewOk_none rfl) (crewOk_same rfl h)| exact fun h => crewOk_ite (crewOk_same rfl h) (crewOk_none rfl))])
    | with_reducible apply Frames.step (g := voteUp_frames)
    | with_reducible apply Frames.ite
    | split
    | dsimp only

theorem coursesGo_frames {s : State} {here : Fin 8 → Bool} : Frames 188438 s (coursesGo s here) := by
  unfold coursesGo
  try dsimp only
  repeat' first
    | with_reducible apply Frames.refl
    | with_reducible assumption
    | (show _ = _; rfl)
    | with_reducible apply Frames.step (g := freshGen_frames)
    | with_reducible apply Frames.step (g := updCourse_frames)
    | with_reducible apply Frames.step (g := pointLog_frames)
    | ((with_reducible apply updPallet_step) <;> [skip; rfl; (intro hp; first | exact hp | exact writeL_wf _ _ hp | rfl)])
    | with_reducible apply Frames.step (g := mapWrite_frames)
    | with_reducible apply Frames.step (g := moduleEvent_frames)
    | with_reducible apply Frames.step (g := leaveService_frames)
    | fail_if_no_progress ((with_reducible apply Frames.set_pointing) <;> [skip; rfl])
    | ((with_reducible apply Frames.foldl) <;> [skip; intro _ _ _])
    | ((with_reducible apply Frames.foldl_fst) <;> [skip; intro _ _ _])
    | ((with_reducible apply Frames.foldl_snd) <;> [skip; intro _ _ _])
    | with_reducible apply Frames.ite
    | split
    | with_reducible refine Frames.of_fst (by with_reducible assumption) ?_
    | with_reducible refine Frames.of_snd (by with_reducible assumption) ?_
    | dsimp only

theorem courseOut_frames {s : State} {n : Fin 8} {part : Nat} : Frames 188438 s (courseOut s n part) := by
  unfold courseOut
  try dsimp only
  repeat' first
    | with_reducible apply Frames.refl
    | with_reducible assumption
    | (show _ = _; rfl)
    | with_reducible apply Frames.step (g := courseLeaves_frames)
    | with_reducible apply Frames.step (g := coursesGo_frames)
    | with_reducible apply Frames.ite
    | split
    | dsimp only

theorem testFailed_frames {s : State} {unit id : Nat} : Frames 155648 s (testFailed s unit id) := by
  unfold testFailed
  try dsimp only
  repeat' first
    | with_reducible apply Frames.refl
    | with_reducible assumption
    | (show _ = _; rfl)
    | with_reducible apply Frames.step (g := pointLog_frames)
    | dsimp only [id]

theorem laneTestDone_frames {s : State} {u : LaneUnit} {failing : Nat} : Frames 188446 s (laneTestDone s u failing) := by
  unfold laneTestDone
  try dsimp only
  repeat' first
    | with_reducible apply Frames.refl
    | with_reducible assumption
    | (show _ = _; rfl)
    | with_reducible apply Frames.step (g := testFailed_frames)
    | with_reducible apply Frames.step (g := updTrowel_frames)
    | with_reducible apply Frames.step (g := mapWrite_frames)
    | with_reducible apply Frames.step (g := ctrAdd_frames)
    | with_reducible apply Frames.step (g := setDegraded_frames)
    | with_reducible apply Frames.step (g := courseOut_frames)
    | fail_if_no_progress ((with_reducible apply Frames.set_pointing) <;> [skip; rfl])
    | with_reducible apply Frames.ite
    | split
    | dsimp only

theorem laneGap_frames {s : State} {u : LaneUnit} : Frames 188446 s (laneGap s u) := by
  unfold laneGap
  try dsimp only
  repeat' first
    | with_reducible apply Frames.refl
    | with_reducible assumption
    | (show _ = _; rfl)
    | with_reducible apply Frames.step (g := laneTestDone_frames)
    | fail_if_no_progress ((with_reducible apply Frames.set_pointing) <;> [skip; rfl])
    | ((with_reducible apply Frames.foldl) <;> [skip; intro _ _ _])
    | ((with_reducible apply Frames.foldl_fst) <;> [skip; intro _ _ _])
    | ((with_reducible apply Frames.foldl_snd) <;> [skip; intro _ _ _])
    | with_reducible apply Frames.ite
    | split
    | with_reducible refine Frames.of_fst (by with_reducible assumption) ?_
    | with_reducible refine Frames.of_snd (by with_reducible assumption) ?_
    | dsimp only

theorem leaveCourses_frames {s : State} {p : Fin 8} : Frames 188438 s (leaveCourses s p) := by
  unfold leaveCourses
  try dsimp only
  repeat' first
    | with_reducible apply Frames.refl
    | with_reducible assumption
    | (show _ = _; rfl)
    | with_reducible apply Frames.step (g := coursesGo_frames)
    | dsimp only

theorem passBoundary_frames {s : State} {c : Fin 16} : Frames 980694 s (passBoundary s c) := by
  unfold passBoundary
  try dsimp only
  repeat' first
    | with_reducible apply Frames.refl
    | with_reducible assumption
    | (show _ = _; rfl)
    | with_reducible apply Frames.step (g := leaveCourses_frames)
    | with_reducible apply Frames.step (g := applyReq_frames)
    | with_reducible apply Frames.step (g := startRejoin_frames)
    | with_reducible apply Frames.ite
    | split
    | dsimp only

theorem endStroke_frames {s : State} {c : Fin 16} {res : Res} : Frames 1154 s (endStroke s c res) := by
  unfold endStroke
  try dsimp only
  repeat' first
    | with_reducible apply Frames.refl
    | with_reducible assumption
    | (show _ = _; rfl)
    | ((with_reducible apply updCrew_step) <;> [skip; rfl; (first | exact crewOk_same rfl | exact fun _ => crewOk_none rfl | exact crewOk_map _ rfl (fun _ h => h) | exact crewOk_map _ rfl (fun _ h => attOk_ite h h) | exact fun h => crewOk_ite (crewOk_same rfl h) (crewOk_same rfl h) | exact fun h => crewOk_ite (crewOk_none rfl) (crewOk_same rfl h)| exact fun h => crewOk_ite (crewOk_same rfl h) (crewOk_none rfl))])
    | with_reducible apply Frames.step (g := entryDone_frames)
    | with_reducible apply Frames.ite
    | split
    | dsimp only

theorem releaseTiles_frames {s : State} {c : Fin 16} : Frames 16388 s (releaseTiles s c) := by
  unfold releaseTiles
  try dsimp only
  repeat' first
    | with_reducible apply Frames.refl
    | with_reducible assumption
    | (show _ = _; rfl)
    | with_reducible apply Frames.step (g := ctrAdd_frames)
    | with_reducible apply Frames.ite
    | split
    | dsimp only
    | with_reducible apply Frames.set_courses

theorem strokeEvent_frames {s : State} {c : Fin 16} {p : Fin 8} {stroke att dec cause : Nat} : Frames 8192 s (strokeEvent s c p stroke att dec cause) := by
  unfold strokeEvent
  try dsimp only
  repeat' first
    | with_reducible apply Frames.refl
    | with_reducible assumption
    | (show _ = _; rfl)
    | with_reducible apply Frames.step (g := raiseEvent_frames)

theorem actFinish_frames {s : State} {c : Fin 16} {p : Fin 8} {a : Attempt} {d : Decision} : Frames 31938 s (actFinish s c p a d) := by
  unfold actFinish
  try dsimp only
  repeat' first
    | with_reducible apply Frames.refl
    | with_reducible assumption
    | (show _ = _; rfl)
    | with_reducible apply Frames.step (g := flipAll_frames)
    | ((with_reducible apply updCrew_step) <;> [skip; rfl; (first | exact crewOk_same rfl | exact fun _ => crewOk_none rfl | exact crewOk_map _ rfl (fun _ h => h) | exact crewOk_map _ rfl (fun _ h => attOk_ite h h) | exact fun h => crewOk_ite (crewOk_same rfl h) (crewOk_same rfl h) | exact fun h => crewOk_ite (crewOk_none rfl) (crewOk_same rfl h)| exact fun h => crewOk_ite (crewOk_same rfl h) (crewOk_none rfl))])
    | with_reducible apply Frames.step (g := rejoined_frames)
    | with_reducible apply Frames.step (g := putCard_frames)
    | with_reducible apply Frames.step (g := strokeEvent_frames)
    | with_reducible apply Frames.step (g := ctrAdd_frames)
    | with_reducible apply Frames.step (g := endStroke_frames)
    | with_reducible apply Frames.step (g := setCrewState_frames)
    | with_reducible apply Frames.ite
    | split
    | dsimp only

theorem undoAttempt_frames {s : State} {c : Fin 16} {p : Fin 8} {a : Attempt} {stroke : BitVec 48} : Frames 160832 s (undoAttempt s c p a stroke) := by
  unfold undoAttempt
  try dsimp only
  repeat' first
    | with_reducible apply Frames.refl
    | with_reducible assumption
    | (show _ = _; rfl)
    | with_reducible apply Frames.step (g := undoRestore_frames)
    | with_reducible apply Frames.step (g := markDirty_frames)
    | ((with_reducible apply updCrew_step) <;> [skip; rfl; (first | exact crewOk_same rfl | exact fun _ => crewOk_none rfl | exact crewOk_map _ rfl (fun _ h => h) | exact crewOk_map _ rfl (fun _ h => attOk_ite h h) | exact fun h => crewOk_ite (crewOk_same rfl h) (crewOk_same rfl h) | exact fun h => crewOk_ite (crewOk_none rfl) (crewOk_same rfl h)| exact fun h => crewOk_ite (crewOk_same rfl h) (crewOk_none rfl))])
    | with_reducible apply Frames.ite
    | split
    | dsimp only

theorem actAbort_frames {s : State} {c : Fin 16} {p : Fin 8} {a : Attempt} {d : Decision} : Frames 949974 s (actAbort s c p a d) := by
  unfold actAbort
  try dsimp only
  repeat' first
    | with_reducible apply Frames.refl
    | with_reducible assumption
    | (show _ = _; rfl)
    | with_reducible apply Frames.step (g := undoAttempt_frames)
    | with_reducible apply Frames.step (g := strokeEvent_frames)
    | with_reducible apply Frames.step (g := putCard_frames)
    | with_reducible apply Frames.step (g := endStroke_frames)
    | with_reducible apply Frames.step (g := ctrAdd_frames)
    | ((with_reducible apply updCrew_step) <;> [skip; rfl; (first | exact crewOk_same rfl | exact fun _ => crewOk_none rfl | exact crewOk_map _ rfl (fun _ h => h) | exact crewOk_map _ rfl (fun _ h => attOk_ite h h) | exact fun h => crewOk_ite (crewOk_same rfl h) (crewOk_same rfl h) | exact fun h => crewOk_ite (crewOk_none rfl) (crewOk_same rfl h)| exact fun h => crewOk_ite (crewOk_same rfl h) (crewOk_none rfl))])
    | ((with_reducible apply orNoRoute_step) <;> [skip; skip])
    | with_reducible apply Frames.step (g := newEpoch_frames)
    | with_reducible apply Frames.step (g := setCrewState_frames)
    | with_reducible apply Frames.step (g := failAll_frames)
    | with_reducible apply Frames.ite
    | split
    | with_reducible refine Frames.of_fst (by with_reducible assumption) ?_
    | dsimp only

theorem actOn_frames {s : State} {c : Fin 16} : Frames 949974 s (actOn s c) := by
  unfold actOn
  try dsimp only
  repeat' first
    | with_reducible apply Frames.refl
    | with_reducible assumption
    | (show _ = _; rfl)
    | with_reducible apply Frames.step (g := actFinish_frames)
    | with_reducible apply Frames.step (g := actAbort_frames)
    | with_reducible apply Frames.ite
    | split
    | dsimp only

theorem advanceOps_frames {s : State} {c : Fin 16} : Frames 947926 s (advanceOps s c) := by
  unfold advanceOps
  try dsimp only
  repeat' first
    | with_reducible apply Frames.refl
    | with_reducible assumption
    | (show _ = _; rfl)
    | with_reducible apply Frames.step (g := advanceCrew_frames)
    | with_reducible apply Frames.ite
    | split

theorem castIfReady_frames {s : State} {c : Fin 16} {a : Attempt} : Frames 804352 s (castIfReady s c a) := by
  unfold castIfReady
  try dsimp only
  repeat' first
    | with_reducible apply Frames.refl
    | with_reducible assumption
    | (show _ = _; rfl)
    | with_reducible apply Frames.step (g := castVote_frames)
    | with_reducible apply Frames.ite
    | split

theorem decideAlone_frames {s : State} {c : Fin 16} : Frames 804352 s (decideAlone s c) := by
  unfold decideAlone
  try dsimp only
  repeat' first
    | with_reducible apply Frames.refl
    | with_reducible assumption
    | (show _ = _; rfl)
    | ((with_reducible apply updCrew_step) <;> [skip; rfl; (first | exact crewOk_same rfl | exact fun _ => crewOk_none rfl | exact crewOk_map _ rfl (fun _ h => h) | exact crewOk_map _ rfl (fun _ h => attOk_ite h h) | exact fun h => crewOk_ite (crewOk_same rfl h) (crewOk_same rfl h) | exact fun h => crewOk_ite (crewOk_none rfl) (crewOk_same rfl h)| exact fun h => crewOk_ite (crewOk_same rfl h) (crewOk_none rfl))])
    | with_reducible apply Frames.step (g := replicate_frames)
    | with_reducible apply Frames.ite
    | split
    | dsimp only

theorem retireVote_frames {s : State} {c : Fin 16} : Frames 5254 s (retireVote s c) := by
  unfold retireVote
  try dsimp only
  repeat' first
    | with_reducible apply Frames.refl
    | with_reducible assumption
    | (show _ = _; rfl)
    | ((with_reducible apply updAttempt_step) <;> [skip; rfl; (intro a h; first | exact h | exact attOk_ite h h | (split <;> exact h))])
    | with_reducible apply Frames.step (g := retireUnit_frames)
    | with_reducible apply Frames.ite
    | split
    | dsimp only

theorem actIfDecided_frames {s : State} {c : Fin 16} : Frames 949974 s (actIfDecided s c) := by
  unfold actIfDecided
  try dsimp only
  repeat' first
    | with_reducible apply Frames.refl
    | with_reducible assumption
    | (show _ = _; rfl)
    | with_reducible apply Frames.step (g := actOn_frames)
    | with_reducible apply Frames.ite
    | split
    | dsimp only

theorem settleCrew_frames {s : State} {c : Fin 16} : Frames 949974 s (settleCrew s c) := by
  unfold settleCrew
  try dsimp only
  repeat' first
    | with_reducible apply Frames.refl
    | with_reducible assumption
    | (show _ = _; rfl)
    | with_reducible apply Frames.step (g := advanceOps_frames)
    | with_reducible apply Frames.step (g := releaseTiles_frames)
    | with_reducible apply Frames.step (g := actIfDecided_frames)
    | with_reducible apply Frames.step (g := retireVote_frames)
    | with_reducible apply Frames.step (g := decideAlone_frames)
    | with_reducible apply Frames.step (g := castIfReady_frames)
    | with_reducible apply Frames.ite
    | split
    | dsimp only

theorem doCollWrites_frames {s : State} {p : Fin 8} : Frames 128 s (doCollWrites s p) := by
  unfold doCollWrites
  try dsimp only
  repeat' first
    | with_reducible apply Frames.refl
    | with_reducible assumption
    | (show _ = _; rfl)
    | with_reducible apply Frames.step (g := updFunc_frames)
    | ((with_reducible apply Frames.foldl) <;> [skip; intro _ _ _])
    | with_reducible apply Frames.ite
    | split
    | dsimp only

theorem castReady_frames {s : State} : Frames 949974 s (castReady s) := by
  unfold castReady
  try dsimp only
  repeat' first
    | with_reducible apply Frames.refl
    | with_reducible assumption
    | (show _ = _; rfl)
    | with_reducible apply Frames.step (g := doCollWrites_frames)
    | with_reducible apply Frames.step (g := settleCrew_frames)
    | ((with_reducible apply Frames.foldl) <;> [skip; intro _ _ _])
    | dsimp only

theorem dissolveCrew_frames {s : State} {c : Fin 16} {reset : Bool} : Frames 163030 s (dissolveCrew s c reset) := by
  unfold dissolveCrew
  split
  · exact updCrew_step (Frames.refl _ _) rfl (crewOk_same rfl)
  · extract_lets s1 st s2 k n src res s3 s4 s5 s6 s7
    have h1 : Frames 163030 s s1 := (Frames.refl _ _).step failAll_frames rfl
    have h2 : Frames 163030 s s2 := by
      unfold s2
      split
      · dsimp only
        refine Frames.ite (h1.step undoAttempt_frames rfl) ?_
        exact ((((h1.step undoAttempt_frames rfl).step putCard_frames rfl).step strokeEvent_frames rfl).step ctrAdd_frames rfl)
      · exact h1
    clear_value s2
    have h3 : Frames 163030 s s3 := Frames.ite (updCrew_step h2 rfl (crewOk_same rfl)) h2
    clear_value s3
    have h4 : Frames 163030 s s4 := (h3.step releaseTiles_frames rfl).step endStroke_frames rfl
    clear_value s4
    have h5 : Frames 163030 s s5 := (h4.step setCrewState_frames rfl).step cancelCrew_frames rfl
    clear_value s5
    have h6 : Frames 163030 s s6 := h5.step genBump_frames rfl
    have h7 : Frames 163030 s s7 := Frames.foldl h6 fun _ _ h => h.step dropObj_frames rfl
    exact updCrew_step h7 rfl (crewOk_same rfl)

/-! ## Course -/

theorem rejectCount_frames {s : State} {n : Fin 8} {r : Reason} : Frames 16384 s (rejectCount s n r) := by
  unfold rejectCount
  try dsimp only
  repeat' first
    | with_reducible apply Frames.refl
    | with_reducible assumption
    | (show _ = _; rfl)
    | with_reducible apply Frames.step (g := ctrAdd_frames)
    | with_reducible apply Frames.ite
    | split
    | dsimp only

theorem tileChanged_frames {s : State} {n : Fin 8} {h : Nat} : Frames 4 s (tileChanged s n h) := by
  unfold tileChanged
  try dsimp only
  repeat' first
    | with_reducible apply Frames.refl
    | with_reducible assumption
    | (show _ = _; rfl)
    | with_reducible apply Frames.step (g := updCourse_frames)
    | with_reducible apply Frames.ite
    | split
    | dsimp only

theorem popCourse_frames {s : State} {n : Fin 8} : Frames 4 s (popCourse s n) := by
  unfold popCourse
  try dsimp only
  repeat' first
    | with_reducible apply Frames.refl
    | with_reducible assumption
    | (show _ = _; rfl)
    | with_reducible apply Frames.step (g := updCourse_frames)
    | with_reducible apply FramesO.getD
    | split
    | ((with_reducible apply FramesO.of) <;> intro _)
    | dsimp only

theorem mmRetire_frames {s : State} {n : Fin 8} {u : UnitCmd} {res : Res} : Frames 21638 s (mmRetire s n u res) := by
  unfold mmRetire
  try dsimp only
  repeat' first
    | with_reducible apply Frames.refl
    | with_reducible assumption
    | (show _ = _; rfl)
    | with_reducible apply Frames.step (g := updCourse_frames)
    | with_reducible apply Frames.step (g := ctrAdd_frames)
    | with_reducible apply Frames.step (g := stallAdd_frames)
    | with_reducible apply Frames.step (g := popCourse_frames)
    | with_reducible apply Frames.step (g := retireUnit_frames)
    | with_reducible apply Frames.step (g := tilesGive_frames)
    | with_reducible apply Frames.ite
    | split
    | dsimp only

theorem mmFail_frames {s : State} {n : Fin 8} {u : UnitCmd} {r : Reason} {addr : Nat} : Frames 21654 s (mmFail s n u r addr) := by
  unfold mmFail
  try dsimp only
  repeat' first
    | with_reducible apply Frames.refl
    | with_reducible assumption
    | (show _ = _; rfl)
    | with_reducible apply Frames.step (g := freshGen_frames)
    | with_reducible apply Frames.step (g := palletWriteL_frames)
    | with_reducible apply Frames.step (g := updTile_frames)
    | with_reducible apply Frames.step (g := mmRetire_frames)
    | split
    | with_reducible refine Frames.of_snd (by with_reducible assumption) ?_
    | dsimp only

theorem latchOffence_frames {s : State} {n : Fin 8} {u : UnitCmd} {pass : Nat} {o : Option Offence} : Frames 1028 s (latchOffence s n u pass o) := by
  unfold latchOffence
  try dsimp only
  repeat' first
    | with_reducible apply Frames.refl
    | with_reducible assumption
    | (show _ = _; rfl)
    | with_reducible apply Frames.step (g := updCourse_frames)
    | ((with_reducible apply updAttempt_step) <;> [skip; rfl; (intro a h; first | exact h | exact attOk_ite h h | (split <;> exact h))])
    | with_reducible apply Frames.ite
    | split
    | dsimp only

theorem writeOutput_frames {s : State} {n : Fin 8} {u : UnitCmd} {t : Tile} : Frames 20 s (writeOutput s n u t).1 := by
  unfold writeOutput
  try dsimp only
  repeat' first
    | with_reducible apply Frames.refl
    | with_reducible assumption
    | (show _ = _; rfl)
    | with_reducible apply Frames.step (g := palletWriteL_frames)
    | ((with_reducible apply Frames.foldl) <;> [skip; intro _ _ _])
    | ((with_reducible apply Frames.foldl_fst) <;> [skip; intro _ _ _])
    | ((with_reducible apply Frames.foldl_snd) <;> [skip; intro _ _ _])
    | with_reducible apply Frames.ite
    | split
    | with_reducible refine Frames.of_fst (by with_reducible assumption) ?_
    | with_reducible refine Frames.of_snd (by with_reducible assumption) ?_
    | dsimp only

theorem startPass_frames {s : State} {n : Fin 8} {u : UnitCmd} {p : Nat} : Frames 4 s (startPass s n u p) := by
  unfold startPass
  try dsimp only
  repeat' first
    | with_reducible apply Frames.refl
    | with_reducible assumption
    | (show _ = _; rfl)
    | with_reducible apply Frames.step (g := updCourse_frames)
    | with_reducible apply Frames.ite
    | split
    | dsimp only

theorem finishMm_frames {s : State} {n : Fin 8} {u : UnitCmd} : Frames 21654 s (finishMm s n u) := by
  unfold finishMm
  try dsimp only
  repeat' first
    | with_reducible apply Frames.refl
    | with_reducible assumption
    | (show _ = _; rfl)
    | with_reducible apply Frames.step (g := writeOutput_frames)
    | with_reducible apply Frames.step (g := latchOffence_frames)
    | with_reducible apply Frames.step (g := updTile_frames)
    | with_reducible apply Frames.step (g := mmRetire_frames)
    | with_reducible apply Frames.ite
    | split
    | with_reducible refine Frames.of_fst (by with_reducible assumption) ?_
    | dsimp only

theorem releasePass_frames {s : State} {n : Fin 8} {u : UnitCmd} : Frames 21654 s (releasePass s n u) := by
  unfold releasePass
  try dsimp only
  repeat' first
    | with_reducible apply Frames.refl
    | with_reducible assumption
    | (show _ = _; rfl)
    | with_reducible apply Frames.step (g := updTile_frames)
    | with_reducible apply Frames.step (g := updCourse_frames)
    | with_reducible apply Frames.step (g := tileChanged_frames)
    | with_reducible apply Frames.step (g := latchOffence_frames)
    | with_reducible apply Frames.step (g := startPass_frames)
    | with_reducible apply Frames.step (g := mmFail_frames)
    | with_reducible apply Frames.step (g := palletUeEvent_frames)
    | with_reducible apply Frames.step (g := finishMm_frames)
    | with_reducible apply Frames.step (g := palletFix_frames)
    | with_reducible apply Frames.ite
    | split
    | dsimp only

theorem setCourseHead_frames {s : State} {n : Fin 8} {g : UnitCmd → UnitCmd} : Frames 4 s (setCourseHead s n g) := by
  unfold setCourseHead
  try dsimp only
  repeat' first
    | with_reducible apply Frames.refl
    | with_reducible assumption
    | (show _ = _; rfl)
    | with_reducible apply Frames.step (g := updCourse_frames)
    | with_reducible apply Frames.ite
    | split
    | dsimp only

theorem startCourse_frames {s : State} {n : Fin 8} {u : UnitCmd} : Frames 4 s (startCourse s n u) := by
  unfold startCourse
  try dsimp only
  repeat' first
    | with_reducible apply Frames.refl
    | with_reducible assumption
    | (show _ = _; rfl)
    | with_reducible apply Frames.step (g := tilesTake_frames)
    | with_reducible apply Frames.step (g := setCourseHead_frames)
    | with_reducible apply Frames.step (g := updCourse_frames)
    | with_reducible apply Frames.step (g := tileChanged_frames)
    | with_reducible apply Frames.step (g := updTile_frames)
    | with_reducible apply Frames.step (g := startPass_frames)
    | with_reducible apply Frames.ite
    | split
    | dsimp only

theorem advCourse_frames {k : Nat} {s : State} {x2 : Fin 8} : Frames 21638 s (advCourse k s x2) := by
  induction k generalizing s x2 with
  | zero => exact Frames.refl _ _
  | succ k ih =>
    unfold advCourse
    repeat' first
      | with_reducible apply Frames.refl
      | with_reducible apply Frames.step (g := ih)
      | with_reducible assumption
      | (show _ = _; rfl)
      | with_reducible apply Frames.step (g := setCourseHead_frames)
      | with_reducible apply Frames.step (g := waitSpent_frames)
      | with_reducible apply Frames.step (g := retireUnit_frames)
      | with_reducible apply Frames.step (g := popCourse_frames)
      | with_reducible apply Frames.step (g := rejectCount_frames)
      | with_reducible apply Frames.step (g := startCourse_frames)
      | with_reducible apply Frames.ite
      | split
      | dsimp only

theorem bindTile_frames {s : State} {n : Fin 8} {h : Nat} {d : Cmd} : Frames 4 s (bindTile s n h d) := by
  unfold bindTile
  try dsimp only
  repeat' first
    | with_reducible apply Frames.refl
    | with_reducible assumption
    | (show _ = _; rfl)
    | with_reducible apply Frames.step (g := tileChanged_frames)
    | with_reducible apply Frames.step (g := updTile_frames)
    | with_reducible apply Frames.ite
    | split
    | dsimp only

theorem doStores_frames {s : State} {n : Fin 8} : Frames 4 s (doStores s n) := by
  unfold doStores
  try dsimp only
  repeat' first
    | with_reducible apply Frames.refl
    | with_reducible assumption
    | (show _ = _; rfl)
    | with_reducible apply Frames.step (g := bindTile_frames)
    | with_reducible apply Frames.step (g := updCourse_frames)
    | ((with_reducible apply Frames.foldl) <;> [skip; intro _ _ _])
    | ((with_reducible apply Frames.foldl_fst) <;> [skip; intro _ _ _])
    | ((with_reducible apply Frames.foldl_snd) <;> [skip; intro _ _ _])
    | with_reducible apply Frames.ite
    | split
    | with_reducible refine Frames.of_fst (by with_reducible assumption) ?_
    | with_reducible refine Frames.of_snd (by with_reducible assumption) ?_
    | dsimp only

theorem goCourse_frames {s : State} {n : Fin 8} : Frames 21638 s (goCourse s n) := by
  unfold goCourse
  try dsimp only
  repeat' first
    | with_reducible apply Frames.refl
    | with_reducible assumption
    | (show _ = _; rfl)
    | with_reducible apply Frames.step (g := doStores_frames)
    | with_reducible apply Frames.step (g := advCourse_frames)

theorem enqueueCourse_frames {s : State} {n : Fin 8} {c : Cmd} {iss : Issuer} {slots tiles : List Nat} {ev : Nat} : Frames 21638 s (enqueueCourse s n c iss slots tiles ev) := by
  unfold enqueueCourse
  try dsimp only
  repeat' first
    | with_reducible apply Frames.refl
    | with_reducible assumption
    | (show _ = _; rfl)
    | with_reducible apply Frames.step (g := goCourse_frames)
    | with_reducible apply Frames.step (g := updCourse_frames)
    | with_reducible apply Frames.ite
    | split
    | dsimp only

theorem coursePort_frames {s : State} {w : Who} {n : Fin 8} {c : Cmd} : Frames 949974 s (coursePort s w n c) := by
  unfold coursePort
  try dsimp only
  repeat' first
    | with_reducible apply Frames.refl
    | with_reducible assumption
    | (show _ = _; rfl)
    | with_reducible apply Frames.step (g := castReady_frames)
    | ((with_reducible apply issueStore_step) <;> [skip; (intro _ _ _ _ _; try dsimp only); skip])
    | with_reducible apply Frames.step (g := enqueueCourse_frames)
    | with_reducible apply Frames.step (g := retireUnit_frames)
    | with_reducible apply Frames.ite
    | split
    | dsimp only

theorem execMm_frames {w : Who} {n : Fin 8} {c : Cmd} {s : State} : FramesN 949974 s (execMm w n c s) := by
  unfold execMm
  try dsimp only
  repeat' first
    | with_reducible apply Frames.refl
    | with_reducible assumption
    | (show _ = _; rfl)
    | with_reducible apply FramesN.powered
    | with_reducible apply Frames.step (g := coursePort_frames)

theorem execLoadw_frames {w : Who} {n : Fin 8} {c : Cmd} {s : State} : FramesN 949974 s (execLoadw w n c s) := by
  unfold execLoadw
  try dsimp only
  repeat' first
    | with_reducible apply Frames.refl
    | with_reducible assumption
    | (show _ = _; rfl)
    | with_reducible apply FramesN.powered
    | with_reducible apply Frames.step (g := coursePort_frames)

theorem loadwDone_step {m : Nat} {r s : State} {n : Fin 8} {u : UnitCmd} {drop : State → State} (hs : Frames m r s)
    (hgo : ∀ t, Frames m r t → Frames m r (drop t)) (hm : 21654 ||| m = m) : Frames m r (loadwDone s n u drop) := by
  unfold loadwDone
  extract_lets c w as ret
  have hret : ∀ t x, Frames m r t → Frames m r (ret t x) := fun t x ht =>
    ((hgo t ht).step (retireUnit_frames.mono (m := 21654) rfl) hm).step (tilesGive_frames.mono (m := 21654) rfl) hm
  clear_value ret
  split
  · exact hret _ _ (hs.step (palletUeEvent_frames.mono (m := 21654) rfl) hm)
  · exact hret _ _ ((hs.step (palletFix_frames.mono (m := 21654) rfl) hm).step (updCourse_frames.mono (m := 21654) rfl) hm)

theorem dropSecond_frames {n : Fin 8} {s : State} : Frames 4 s (dropSecond n s) := by
  unfold dropSecond
  try dsimp only
  repeat' first
    | with_reducible apply Frames.refl
    | with_reducible assumption
    | (show _ = _; rfl)
    | with_reducible apply Frames.step (g := updCourse_frames)
    | split
    | dsimp only

theorem loadAhead_frames {s : State} {n : Fin 8} {u : UnitCmd} {p : Nat} : Frames 16404 s (loadAhead s n u p) := by
  unfold loadAhead
  try dsimp only
  repeat' first
    | with_reducible apply Frames.refl
    | with_reducible assumption
    | (show _ = _; rfl)
    | with_reducible apply Frames.step (g := updCourse_frames)
    | with_reducible apply Frames.step (g := palletFix_frames)
    | with_reducible apply Frames.ite
    | split
    | dsimp only

theorem loadNext_frames {s : State} {n : Fin 8} {v : UnitCmd} : Frames 949974 s (loadNext s n v) := by
  unfold loadNext
  try dsimp only
  repeat' first
    | with_reducible apply Frames.refl
    | with_reducible assumption
    | (show _ = _; rfl)
    | with_reducible apply Frames.step (g := castReady_frames)
    | with_reducible apply Frames.step (g := retireUnit_frames)
    | with_reducible apply Frames.step (g := dropSecond_frames)
    | with_reducible apply Frames.step (g := rejectCount_frames)
    | ((with_reducible apply loadwDone_step) <;> [skip; (intro _ _; try dsimp only); skip])
    | with_reducible apply Frames.step (g := tilesTake_frames)
    | with_reducible apply Frames.step (g := loadAhead_frames)
    | with_reducible apply Frames.ite
    | split
    | dsimp only

theorem execWeightLoadDone_frames {n : Fin 8} {s : State} : FramesN 949974 s (execWeightLoadDone n s) := by
  unfold execWeightLoadDone
  try dsimp only
  repeat' first
    | with_reducible apply Frames.refl
    | with_reducible assumption
    | (show _ = _; rfl)
    | with_reducible apply FramesN.powered
    | with_reducible apply Frames.step (g := castReady_frames)
    | with_reducible apply Frames.step (g := goCourse_frames)
    | ((with_reducible apply loadwDone_step) <;> [skip; (intro _ _; try dsimp only); skip])
    | with_reducible apply Frames.step (g := popCourse_frames)
    | with_reducible apply Frames.step (g := mmFail_frames)
    | with_reducible apply Frames.step (g := palletUeEvent_frames)
    | with_reducible apply Frames.step (g := updCourse_frames)
    | with_reducible apply Frames.step (g := palletFix_frames)
    | with_reducible apply Frames.step (g := loadAhead_frames)
    | with_reducible apply Frames.step (g := loadNext_frames)
    | with_reducible apply Frames.ite
    | split
    | dsimp only

theorem markWide_frames {s : State} {n : Fin 8} {u : UnitCmd} : Frames 4 s (markWide s n u) := by
  unfold markWide
  try dsimp only
  repeat' first
    | with_reducible apply Frames.refl
    | with_reducible assumption
    | (show _ = _; rfl)
    | with_reducible apply Frames.step (g := updCourse_frames)
    | with_reducible apply Frames.step (g := updTile_frames)
    | with_reducible apply Frames.ite
    | split
    | dsimp only

theorem execPassEnd_frames {n : Fin 8} {bad : List LaneFault} {s : State} : FramesN 949974 s (execPassEnd n bad s) := by
  unfold execPassEnd
  try dsimp only
  repeat' first
    | with_reducible apply Frames.refl
    | with_reducible assumption
    | (show _ = _; rfl)
    | with_reducible apply FramesN.powered
    | with_reducible apply Frames.step (g := castReady_frames)
    | with_reducible apply Frames.step (g := goCourse_frames)
    | with_reducible apply Frames.step (g := mmFail_frames)
    | with_reducible apply Frames.step (g := palletUeEvent_frames)
    | with_reducible apply Frames.step (g := markWide_frames)
    | with_reducible apply Frames.step (g := palletWriteL_frames)
    | with_reducible apply Frames.step (g := palletFix_frames)
    | with_reducible apply Frames.step (g := updCourse_frames)
    | with_reducible apply Frames.step (g := releasePass_frames)
    | ((with_reducible apply Frames.foldl) <;> [skip; intro _ _ _])
    | ((with_reducible apply Frames.foldl_fst) <;> [skip; intro _ _ _])
    | ((with_reducible apply Frames.foldl_snd) <;> [skip; intro _ _ _])
    | with_reducible apply Frames.ite
    | split
    | with_reducible refine Frames.of_fst (by with_reducible assumption) ?_
    | with_reducible refine Frames.of_snd (by with_reducible assumption) ?_
    | dsimp only

theorem execCheckVerdict_frames {n : Fin 8} {s : State} : FramesN 982742 s (execCheckVerdict n s) := by
  unfold execCheckVerdict
  try dsimp only
  repeat' first
    | with_reducible apply Frames.refl
    | with_reducible assumption
    | (show _ = _; rfl)
    | with_reducible apply FramesN.powered
    | with_reducible apply Frames.step (g := ctrAdd_frames)
    | with_reducible apply Frames.step (g := checkEvent_frames)
    | with_reducible apply Frames.step (g := castReady_frames)
    | with_reducible apply Frames.step (g := goCourse_frames)
    | with_reducible apply Frames.step (g := releasePass_frames)
    | with_reducible apply Frames.step (g := mmFail_frames)
    | with_reducible apply Frames.step (g := updCourse_frames)
    | with_reducible apply Frames.step (g := askTest_frames)
    | with_reducible apply Frames.step (g := courseOut_frames)
    | with_reducible apply Frames.ite
    | split
    | dsimp only

theorem execLaneSubstitution_frames {n : Fin 8} {ok : Pass} {s : State} : FramesN 982742 s (execLaneSubstitution n ok s) := by
  unfold execLaneSubstitution
  try dsimp only
  repeat' first
    | with_reducible apply Frames.refl
    | with_reducible assumption
    | (show _ = _; rfl)
    | with_reducible apply FramesN.powered
    | with_reducible apply Frames.step (g := updCourse_frames)
    | with_reducible apply Frames.step (g := courseOut_frames)
    | with_reducible apply Frames.step (g := castReady_frames)
    | with_reducible apply Frames.step (g := goCourse_frames)
    | with_reducible apply Frames.step (g := mmFail_frames)
    | with_reducible apply Frames.step (g := checkEvent_frames)
    | with_reducible apply Frames.step (g := repairDone_frames)
    | with_reducible apply Frames.step (g := genBump_frames)
    | with_reducible apply Frames.step (g := fresh_frames)
    | with_reducible apply Frames.step (g := pointLog_frames)
    | with_reducible apply Frames.step (g := cardPoint_frames)
    | with_reducible apply Frames.step (g := ctrAdd_frames)
    | with_reducible apply Frames.ite
    | split
    | with_reducible refine Frames.of_snd (by with_reducible assumption) ?_
    | dsimp only

theorem freeCourse_frames {s : State} {n : Fin 8} : Frames 21638 s (freeCourse s n) := by
  unfold freeCourse
  try dsimp only
  repeat' first
    | with_reducible apply Frames.refl
    | with_reducible assumption
    | (show _ = _; rfl)
    | with_reducible apply Frames.step (g := goCourse_frames)
    | with_reducible apply Frames.step (g := setCourseHead_frames)
    | with_reducible apply Frames.step (g := stallAdd_frames)
    | with_reducible apply Frames.ite
    | split
    | dsimp only

theorem setCheck_frames {s : State} {n : Fin 8} {v : Byte} : Frames 4 s (setCheck s n v) := by
  unfold setCheck
  try dsimp only
  repeat' first
    | with_reducible apply Frames.refl
    | with_reducible assumption
    | (show _ = _; rfl)
    | with_reducible apply Frames.step (g := updCourse_frames)
    | dsimp only

theorem clearSticky_frames {s : State} {trowel : Bool} {n : Fin 8} {v : Byte} : Frames 12 s (clearSticky s trowel n v) := by
  unfold clearSticky
  try dsimp only
  repeat' first
    | with_reducible apply Frames.refl
    | with_reducible assumption
    | (show _ = _; rfl)
    | with_reducible apply Frames.step (g := updTrowel_frames)
    | with_reducible apply Frames.step (g := updCourse_frames)
    | with_reducible apply Frames.ite
    | split
    | dsimp only

theorem clearOffender_frames {s : State} {n : Fin 8} {v : BitVec 256} : Frames 4 s (clearOffender s n v) := by
  unfold clearOffender
  try dsimp only
  repeat' first
    | with_reducible apply Frames.refl
    | with_reducible assumption
    | (show _ = _; rfl)
    | with_reducible apply Frames.step (g := updCourse_frames)
    | with_reducible apply Frames.ite
    | split
    | dsimp only

theorem slotStore_frames {s : State} {n : Fin 8} {slot : Nat} {d : Cmd} : Frames 4 s (slotStore s n slot d) := by
  unfold slotStore
  try dsimp only
  repeat' first
    | with_reducible apply Frames.refl
    | with_reducible assumption
    | (show _ = _; rfl)
    | with_reducible apply Frames.step (g := updCourse_frames)
    | with_reducible apply Frames.ite
    | split
    | dsimp only

theorem execDescriptorStore_frames {w : Who} {n : Fin 8} {slot : Nat} {d : Cmd} {s : State} : FramesN 949974 s (execDescriptorStore w n slot d s) := by
  unfold execDescriptorStore
  try dsimp only
  repeat' first
    | with_reducible apply Frames.refl
    | with_reducible assumption
    | (show _ = _; rfl)
    | with_reducible apply FramesN.powered
    | with_reducible apply Frames.step (g := castReady_frames)
    | with_reducible apply Frames.step (g := emit_frames)
    | with_reducible apply Frames.step (g := programFault_frames)
    | with_reducible apply Frames.step (g := slotStore_frames)
    | with_reducible apply Frames.ite
    | split
    | dsimp only

theorem tileStore_frames {s : State} {w : Who} {n : Fin 8} {h : Fin 64} {d : Cmd} : Frames 4 s (tileStore s w n h d) := by
  unfold tileStore
  try dsimp only
  repeat' first
    | with_reducible apply Frames.refl
    | with_reducible assumption
    | (show _ = _; rfl)
    | with_reducible apply Frames.step (g := updCourse_frames)
    | with_reducible apply Frames.step (g := bindTile_frames)
    | with_reducible apply Frames.ite
    | split
    | dsimp only

theorem execTileTableStore_frames {w : Who} {n : Fin 8} {h : Fin 64} {d : Cmd} {s : State} : FramesN 949974 s (execTileTableStore w n h d s) := by
  unfold execTileTableStore
  try dsimp only
  repeat' first
    | with_reducible apply Frames.refl
    | with_reducible assumption
    | (show _ = _; rfl)
    | with_reducible apply FramesN.powered
    | with_reducible apply Frames.step (g := castReady_frames)
    | with_reducible apply Frames.step (g := emit_frames)
    | with_reducible apply Frames.step (g := programFault_frames)
    | with_reducible apply Frames.step (g := tileStore_frames)
    | with_reducible apply Frames.ite
    | split
    | dsimp only

/-! ## CoreMap -/

theorem coreCached_frames {s : State} {c : Fin 16} {k : CoreRun} {code : Bool} {x : Nat} : Frames 1024 s (coreCached s c k code x) := by
  unfold coreCached
  try dsimp only
  repeat' first
    | with_reducible apply Frames.refl
    | with_reducible assumption
    | (show _ = _; rfl)
    | ((with_reducible apply updAttempt_step) <;> [skip; rfl; (intro a h; first | exact h | exact attOk_ite h h | (split <;> exact h) | exact clusterWrite_ok h)])
    | with_reducible apply Frames.ite
    | split
    | dsimp only

theorem coreReads_frames {s : State} {p : Fin 8} {a : Attempt} {xs : List Nat} : Frames 942160 s (coreReads s p a xs).1 := by
  unfold coreReads
  try dsimp only
  repeat' first
    | with_reducible apply Frames.refl
    | with_reducible assumption
    | (show _ = _; rfl)
    | with_reducible apply Frames.step (g := palletUeEvent_frames)
    | with_reducible apply Frames.step (g := ueEventAt_frames)
    | with_reducible apply Frames.step (g := palletFix_frames)
    | with_reducible apply Frames.step (g := hbmTraffic_frames)
    | with_reducible apply Frames.step (g := hbmFix_frames)
    | ((with_reducible apply Frames.foldl) <;> [skip; intro _ _ _])
    | ((with_reducible apply Frames.foldl_fst) <;> [skip; intro _ _ _])
    | ((with_reducible apply Frames.foldl_snd) <;> [skip; intro _ _ _])
    | with_reducible apply Frames.ite
    | split
    | with_reducible refine Frames.of_fst (by with_reducible assumption) ?_
    | with_reducible refine Frames.of_snd (by with_reducible assumption) ?_
    | dsimp only

theorem coreLoad_frames {s : State} {w : Who} {c : Fin 16} {p : Fin 8} {a : Attempt} {k : CoreRun} {code : Bool} {x n : Nat} : Frames 943186 s (coreLoad s w c p a k code x n) := by
  unfold coreLoad
  try dsimp only
  repeat' first
    | with_reducible apply Frames.refl
    | with_reducible assumption
    | (show _ = _; rfl)
    | with_reducible apply Frames.step (g := coreReads_frames)
    | with_reducible apply Frames.step (g := freeBytesAt_frames)
    | with_reducible apply Frames.step (g := emit_frames)
    | with_reducible apply Frames.step (g := coreCached_frames)
    | with_reducible apply Frames.ite
    | split
    | with_reducible refine Frames.of_fst (by with_reducible assumption) ?_
    | with_reducible refine Frames.of_snd (by with_reducible assumption) ?_
    | dsimp only

theorem coreStore_frames {s : State} {w : Who} {c : Fin 16} {p : Fin 8} {a : Attempt} {x : Nat} {bs : List Byte} : FramesO 943172 s (coreStore s w c p a x bs) := by
  unfold coreStore
  try dsimp only
  repeat' first
    | with_reducible apply Frames.refl
    | with_reducible assumption
    | with_reducible apply FramesO.none
    | (show _ = _; rfl)
    | with_reducible apply FramesO.some
    | ((with_reducible apply FramesO.map) <;> [skip; intro _ _])
    | ((with_reducible apply updAttempt_step) <;> [skip; rfl; (intro a h; first | exact h | exact attOk_ite h h | (split <;> exact h) | exact clusterWrite_ok h)])
    | with_reducible apply Frames.step (g := slotStore_frames)
    | with_reducible apply Frames.step (g := tileStore_frames)
    | with_reducible apply Frames.step (g := ueEventAt_frames)
    | with_reducible apply Frames.step (g := hbmTraffic_frames)
    | with_reducible apply Frames.step (g := hbmWriteP_frames)
    | with_reducible apply Frames.step (g := undoSave_frames)
    | with_reducible apply Frames.ite
    | with_reducible apply FramesO.ite
    | with_reducible apply FramesO.getD
    | split
    | ((with_reducible apply FramesO.of) <;> intro _)
    | (intro t e; cases e)
    | dsimp only

theorem coreAct_frames {s : State} {w : Who} {c : Fin 16} {a : Attempt} {k : CoreRun} {act : CoreAct} : Frames 949974 s (coreAct s w c a k act) := by
  unfold coreAct
  try dsimp only
  repeat' first
    | with_reducible apply Frames.refl
    | with_reducible assumption
    | with_reducible apply FramesO.none
    | (show _ = _; rfl)
    | with_reducible apply FramesO.some
    | ((with_reducible apply FramesO.map) <;> [skip; intro _ _])
    | with_reducible apply Frames.step (g := castReady_frames)
    | with_reducible apply Frames.step (g := emit_frames)
    | with_reducible apply Frames.step (g := programFault_frames)
    | with_reducible apply Frames.step (g := coreLoad_frames)
    | with_reducible apply FramesO.step (g := coreStore_frames)
    | with_reducible refine Frames.of_some (by with_reducible assumption) (FramesO.step ?_ coreStore_frames ?_)
    | with_reducible apply Frames.ite
    | with_reducible apply FramesO.ite
    | with_reducible apply FramesO.getD
    | split
    | ((with_reducible apply FramesO.of) <;> intro _)
    | (intro t e; cases e)
    | dsimp only

/-! ## Strokes -/

theorem startMem_wf {s : State} {p : Fin 8} {h : List Byte} {img : Nat} : (startMem s p h img).wf = true :=
  writeN_wf _ _ _ (writeN_wf _ _ _ rfl)

theorem newAttempt_ok {s : State} {c : Fin 16} {p : Fin 8} {l : LaunchRun} : AttOk (newAttempt s c p l) := by
  intro x hx
  simp only [newAttempt, List.mem_map] at hx
  obtain ⟨j, -, rfl⟩ := hx
  split
  · exact startMem_wf
  · rfl

theorem execAttemptStart_frames {c : Fin 16} {s : State} : FramesN 982743 s (execAttemptStart c s) := by
  unfold execAttemptStart
  apply FramesN.powered
  split
  · dsimp only
    rename_i l p _ _
    have h1 : Frames 982743 s (if s.crews[c].nextAttempt = 1 then leaveCourses s p else s) :=
      Frames.ite ((Frames.refl _ _).step leaveCourses_frames rfl) (Frames.refl _ _)
    refine Frames.ite (Frames.refl _ _) (Frames.ite ?_ (Frames.ite (Frames.refl _ _) ?_))
    · exact ((Frames.refl _ _).step endStroke_frames rfl).step castReady_frames rfl
    · refine Frames.step ?_ castReady_frames rfl
      refine updCrew_step ?_ rfl fun _ => crewOk_new rfl newAttempt_ok
      refine Frames.ite ?_ h1
      generalize (if s.crews[c].nextAttempt = 1 then leaveCourses s p else s) = x at h1
      exact Frames.set_pointing (s := { x with now := x.now + 2000 }) (h1.set_now rfl) rfl
  · exact Frames.refl _ _

theorem execCoreEcall_frames {w : Who} {s : State} : FramesN 949974 s (execCoreEcall w s) := by
  unfold execCoreEcall
  try dsimp only
  repeat' first
    | with_reducible apply Frames.refl
    | with_reducible assumption
    | (show _ = _; rfl)
    | with_reducible apply FramesN.powered
    | ((with_reducible apply updAttempt_step) <;> [skip; rfl; (intro a h; first | exact h | exact attOk_ite h h | (split <;> exact h))])
    | with_reducible apply Frames.step (g := castReady_frames)
    | with_reducible apply Frames.step (g := programFault_frames)
    | with_reducible apply Frames.ite
    | split
    | dsimp only

theorem execCoreTrap_frames {e : CoreEvent} {s : State} : FramesN 949974 s (execCoreTrap e s) := by
  unfold execCoreTrap
  try dsimp only
  repeat' first
    | with_reducible apply Frames.refl
    | with_reducible assumption
    | (show _ = _; rfl)
    | with_reducible apply FramesN.powered
    | with_reducible apply Frames.step (g := coreAct_frames)
    | with_reducible apply Frames.ite
    | split
    | dsimp only

theorem issueVote_frames {s : State} {c : Fin 16} {w : Cmd} {iss : Issuer} : Frames 5254 s (issueVote s c w iss) := by
  unfold issueVote
  try dsimp only
  repeat' first
    | with_reducible apply Frames.refl
    | with_reducible assumption
    | (show _ = _; rfl)
    | with_reducible apply Frames.step (g := retireUnit_frames)
    | ((with_reducible apply updAttempt_step) <;> [skip; rfl; (intro a h; first | exact h | exact attOk_ite h h | (split <;> exact h))])
    | with_reducible apply Frames.step (g := programFault_frames)
    | with_reducible apply Frames.ite
    | split
    | dsimp only

theorem riggerPort_frames {s : State} {w : Who} {cmd : Cmd} : Frames 949974 s (riggerPort s w cmd) := by
  unfold riggerPort
  try dsimp only
  repeat' first
    | with_reducible apply Frames.refl
    | with_reducible assumption
    | (show _ = _; rfl)
    | with_reducible apply Frames.step (g := castReady_frames)
    | ((with_reducible apply issueStore_step) <;> [skip; (intro _ _ _ _ _; try dsimp only); skip])
    | with_reducible apply Frames.step (g := issueVote_frames)
    | with_reducible apply Frames.step (g := issueRigger_frames)
    | with_reducible apply Frames.step (g := retireUnit_frames)
    | with_reducible apply Frames.ite
    | split
    | dsimp only

theorem execVote_frames {w : Who} {c : Cmd} {s : State} : FramesN 949974 s (execVote w c s) := by
  unfold execVote
  try dsimp only
  repeat' first
    | with_reducible apply Frames.refl
    | with_reducible assumption
    | (show _ = _; rfl)
    | with_reducible apply FramesN.powered
    | with_reducible apply Frames.step (g := riggerPort_frames)

theorem finPacket_step {m : Nat} {r s : State} {c : Fin 16} {h : FinHead} {go : State → State} (hs : Frames m r s)
    (hgo : Frames m r s → Frames m r (go s)) (hm : 949974 ||| m = m) : Frames m r (finPacket s c h go) := by
  unfold finPacket
  dsimp only
  split
  · exact hs
  · split
    · exact hs.step (ctrAdd_frames.mono (m := 949974) rfl) hm
    · exact (hgo hs).step (castReady_frames.mono (m := 949974) rfl) hm

theorem execVotePacket_frames {c : Fin 16} {h : FinHead} {b : VoteBody} {s : State} : FramesN 949974 s (execVotePacket c h b s) := by
  unfold execVotePacket
  try dsimp only
  repeat' first
    | with_reducible apply Frames.refl
    | with_reducible assumption
    | (show _ = _; rfl)
    | with_reducible apply FramesN.powered
    | ((with_reducible apply finPacket_step) <;> [skip; (intro _; try dsimp only); skip])
    | ((with_reducible apply updCrew_step) <;> [skip; rfl; (first | exact crewOk_same rfl | exact fun _ => crewOk_none rfl | exact crewOk_map _ rfl (fun _ h => h) | exact crewOk_map _ rfl (fun _ h => attOk_ite h h) | exact fun h => crewOk_ite (crewOk_same rfl h) (crewOk_same rfl h) | exact fun h => crewOk_ite (crewOk_none rfl) (crewOk_same rfl h)| exact fun h => crewOk_ite (crewOk_same rfl h) (crewOk_none rfl))])
    | with_reducible apply Frames.step (g := noteHeard_frames)
    | with_reducible apply Frames.step (g := voteUp_frames)
    | with_reducible apply Frames.ite
    | split
    | dsimp only

theorem execArrived_frames {c : Fin 16} {h : FinHead} {rank : Nat} {red : Nat} {s : State} : FramesN 949974 s (execArrived c h rank red s) := by
  unfold execArrived
  try dsimp only
  repeat' first
    | with_reducible apply Frames.refl
    | with_reducible assumption
    | (show _ = _; rfl)
    | with_reducible apply FramesN.powered
    | ((with_reducible apply finPacket_step) <;> [skip; (intro _; try dsimp only); skip])
    | with_reducible apply Frames.step (g := noteHeard_frames)
    | with_reducible apply Frames.step (g := noteArrived_frames)
    | ((with_reducible apply updCrew_step) <;> [skip; rfl; (first | exact crewOk_same rfl | exact fun _ => crewOk_none rfl | exact crewOk_map _ rfl (fun _ h => h) | exact crewOk_map _ rfl (fun _ h => attOk_ite h h) | exact fun h => crewOk_ite (crewOk_same rfl h) (crewOk_same rfl h) | exact fun h => crewOk_ite (crewOk_none rfl) (crewOk_same rfl h)| exact fun h => crewOk_ite (crewOk_same rfl h) (crewOk_none rfl))])
    | with_reducible apply Frames.ite
    | split
    | dsimp only

theorem execStragglerDeadline_frames {c : Fin 16} {s : State} : FramesN 949975 s (execStragglerDeadline c s) := by
  unfold execStragglerDeadline
  try dsimp only
  repeat' first
    | with_reducible apply Frames.refl
    | with_reducible assumption
    | (show _ = _; rfl)
    | with_reducible apply FramesN.powered
    | with_reducible apply Frames.step (g := reach_frames)
    | with_reducible apply Frames.step (g := castReady_frames)
    | with_reducible apply Frames.step (g := sendCut_frames)
    | with_reducible apply Frames.ite
    | split
    | dsimp only

theorem execCut_frames {c : Fin 16} {h : FinHead} {leader : Nat} {entries : List (BitVec 128)} {s : State} : FramesN 949974 s (execCut c h leader entries s) := by
  unfold execCut
  try dsimp only
  repeat' first
    | with_reducible apply Frames.refl
    | with_reducible assumption
    | (show _ = _; rfl)
    | with_reducible apply FramesN.powered
    | ((with_reducible apply finPacket_step) <;> [skip; (intro _; try dsimp only); skip])
    | with_reducible apply Frames.step (g := noteHeard_frames)
    | with_reducible apply Frames.step (g := setCut_frames)
    | ((with_reducible apply updCrew_step) <;> [skip; rfl; (first | exact crewOk_same rfl | exact fun _ => crewOk_none rfl | exact crewOk_map _ rfl (fun _ h => h) | exact crewOk_map _ rfl (fun _ h => attOk_ite h h) | exact fun h => crewOk_ite (crewOk_same rfl h) (crewOk_same rfl h) | exact fun h => crewOk_ite (crewOk_none rfl) (crewOk_same rfl h)| exact fun h => crewOk_ite (crewOk_same rfl h) (crewOk_none rfl))])
    | with_reducible apply Frames.ite
    | split
    | dsimp only

theorem stage3_frames {s : State} {c : Fin 16} {d : Decision} : Frames 804352 s (stage3 s c d) := by
  unfold stage3
  try dsimp only
  repeat' first
    | with_reducible apply Frames.refl
    | with_reducible assumption
    | (show _ = _; rfl)
    | with_reducible apply Frames.step (g := takeDecision_frames)
    | with_reducible apply Frames.step (g := logDec_frames)
    | ((with_reducible apply updCrew_step) <;> [skip; rfl; (first | exact crewOk_same rfl | exact fun _ => crewOk_none rfl | exact crewOk_map _ rfl (fun _ h => h) | exact crewOk_map _ rfl (fun _ h => attOk_ite h h) | exact fun h => crewOk_ite (crewOk_same rfl h) (crewOk_same rfl h) | exact fun h => crewOk_ite (crewOk_none rfl) (crewOk_same rfl h)| exact fun h => crewOk_ite (crewOk_same rfl h) (crewOk_none rfl))])
    | with_reducible apply Frames.step (g := replicate_frames)
    | with_reducible apply Frames.ite
    | split
    | dsimp only

theorem execLog_frames {c : Fin 16} {h : FinHead} {decision : Byte} {cause : Byte} {incl : BitVec 64} {s : State} : FramesN 949974 s (execLog c h decision cause incl s) := by
  unfold execLog
  try dsimp only
  repeat' first
    | with_reducible apply Frames.refl
    | with_reducible assumption
    | (show _ = _; rfl)
    | with_reducible apply FramesN.powered
    | ((with_reducible apply finPacket_step) <;> [skip; (intro _; try dsimp only); skip])
    | with_reducible apply Frames.step (g := logDec_frames)
    | ((with_reducible apply updCrew_step) <;> [skip; rfl; (first | exact crewOk_same rfl | exact fun _ => crewOk_none rfl | exact crewOk_map _ rfl (fun _ h => h) | exact crewOk_map _ rfl (fun _ h => attOk_ite h h) | exact fun h => crewOk_ite (crewOk_same rfl h) (crewOk_same rfl h) | exact fun h => crewOk_ite (crewOk_none rfl) (crewOk_same rfl h)| exact fun h => crewOk_ite (crewOk_same rfl h) (crewOk_none rfl))])
    | with_reducible apply Frames.step (g := noteHeard_frames)
    | with_reducible apply Frames.step (g := sendFin_frames)
    | with_reducible apply Frames.step (g := stage3_frames)
    | with_reducible apply Frames.ite
    | split
    | dsimp only

theorem execLogack_frames {c : Fin 16} {h : FinHead} {decision : Byte} {cause : Byte} {incl : BitVec 64} {s : State} : FramesN 949974 s (execLogack c h decision cause incl s) := by
  unfold execLogack
  try dsimp only
  repeat' first
    | with_reducible apply Frames.refl
    | with_reducible assumption
    | (show _ = _; rfl)
    | with_reducible apply FramesN.powered
    | ((with_reducible apply finPacket_step) <;> [skip; (intro _; try dsimp only); skip])
    | with_reducible apply Frames.step (g := takeDecision_frames)
    | ((with_reducible apply updCrew_step) <;> [skip; rfl; (first | exact crewOk_same rfl | exact fun _ => crewOk_none rfl | exact crewOk_map _ rfl (fun _ h => h) | exact crewOk_map _ rfl (fun _ h => attOk_ite h h) | exact fun h => crewOk_ite (crewOk_same rfl h) (crewOk_same rfl h) | exact fun h => crewOk_ite (crewOk_none rfl) (crewOk_same rfl h)| exact fun h => crewOk_ite (crewOk_same rfl h) (crewOk_none rfl))])
    | with_reducible apply Frames.step (g := noteHeard_frames)
    | with_reducible apply Frames.ite
    | split
    | dsimp only

theorem execDecide_frames {c : Fin 16} {h : FinHead} {b : DecBody} {s : State} : FramesN 949974 s (execDecide c h b s) := by
  unfold execDecide
  try dsimp only
  repeat' first
    | with_reducible apply Frames.refl
    | with_reducible assumption
    | (show _ = _; rfl)
    | with_reducible apply FramesN.powered
    | ((with_reducible apply finPacket_step) <;> [skip; (intro _; try dsimp only); skip])
    | with_reducible apply Frames.step (g := takeDecision_frames)
    | with_reducible apply Frames.ite
    | split
    | dsimp only

theorem execQuery_frames {c : Fin 16} {h : FinHead} {src : Nat} {s : State} : FramesN 949974 s (execQuery c h src s) := by
  unfold execQuery
  try dsimp only
  repeat' first
    | with_reducible apply Frames.refl
    | with_reducible assumption
    | (show _ = _; rfl)
    | with_reducible apply FramesN.powered
    | ((with_reducible apply finPacket_step) <;> [skip; (intro _; try dsimp only); skip])
    | with_reducible apply Frames.step (g := noteHeard_frames)
    | with_reducible apply Frames.step (g := sendDec_frames)
    | with_reducible apply Frames.step (g := sendFin_frames)
    | split
    | dsimp only

theorem execQueryTimer_frames {c : Fin 16} {s : State} : FramesN 804353 s (execQueryTimer c s) := by
  unfold execQueryTimer
  try dsimp only
  repeat' first
    | with_reducible apply Frames.refl
    | with_reducible assumption
    | (show _ = _; rfl)
    | with_reducible apply FramesN.powered
    | with_reducible apply Frames.step (g := reach_frames)
    | with_reducible apply Frames.step (g := sendFinNow_frames)
    | with_reducible apply Frames.ite
    | split
    | dsimp only

theorem execResolve_frames {c : Fin 16} {h : FinHead} {src : Nat} {b : DecBody} {s : State} : FramesN 949974 s (execResolve c h src b s) := by
  unfold execResolve
  try dsimp only
  repeat' first
    | with_reducible apply Frames.refl
    | with_reducible assumption
    | (show _ = _; rfl)
    | with_reducible apply FramesN.powered
    | ((with_reducible apply finPacket_step) <;> [skip; (intro _; try dsimp only); skip])
    | with_reducible apply Frames.step (g := noteHeard_frames)
    | with_reducible apply Frames.step (g := takeDecision_frames)
    | with_reducible apply Frames.step (g := sendDec_frames)
    | with_reducible apply Frames.step (g := stage3_frames)
    | with_reducible apply Frames.ite
    | split
    | dsimp only

theorem takeOver_frames {s : State} {c : Fin 16} : Frames 804352 s (takeOver s c) := by
  unfold takeOver
  try dsimp only
  repeat' first
    | with_reducible apply Frames.refl
    | with_reducible assumption
    | (show _ = _; rfl)
    | ((with_reducible apply updCrew_step) <;> [skip; rfl; (first | exact crewOk_same rfl | exact fun _ => crewOk_none rfl | exact crewOk_map _ rfl (fun _ h => h) | exact crewOk_map _ rfl (fun _ h => attOk_ite h h) | exact fun h => crewOk_ite (crewOk_same rfl h) (crewOk_same rfl h) | exact fun h => crewOk_ite (crewOk_none rfl) (crewOk_same rfl h)| exact fun h => crewOk_ite (crewOk_same rfl h) (crewOk_none rfl))])
    | with_reducible apply Frames.step (g := holdDecision_frames)
    | with_reducible apply Frames.step (g := spreadDec_frames)
    | with_reducible apply Frames.step (g := takeDecision_frames)
    | with_reducible apply Frames.ite
    | with_reducible apply FramesO.getD
    | split
    | ((with_reducible apply FramesO.of) <;> intro _)
    | with_reducible refine Frames.of_fst (by with_reducible assumption) ?_
    | dsimp only

theorem execBackupTakeover_frames {c : Fin 16} {s : State} : FramesN 949975 s (execBackupTakeover c s) := by
  unfold execBackupTakeover
  try dsimp only
  repeat' first
    | with_reducible apply Frames.refl
    | with_reducible assumption
    | (show _ = _; rfl)
    | with_reducible apply FramesN.powered
    | with_reducible apply Frames.step (g := reach_frames)
    | with_reducible apply Frames.step (g := castReady_frames)
    | with_reducible apply Frames.step (g := takeOver_frames)
    | with_reducible apply Frames.ite
    | split
    | dsimp only

theorem rejoined_frames {s : State} {c : Fin 16} {stroke : BitVec 48} : Frames 1154 s (rejoined s c stroke) := by
  unfold rejoined
  try dsimp only
  repeat' first
    | with_reducible apply Frames.refl
    | with_reducible assumption
    | (show _ = _; rfl)
    | ((with_reducible apply updCrew_step) <;> [skip; rfl; (first | exact crewOk_same rfl | exact fun _ => crewOk_none rfl | exact crewOk_map _ rfl (fun _ h => h) | exact crewOk_map _ rfl (fun _ h => attOk_ite h h) | exact fun h => crewOk_ite (crewOk_same rfl h) (crewOk_same rfl h) | exact fun h => crewOk_ite (crewOk_none rfl) (crewOk_same rfl h)| exact fun h => crewOk_ite (crewOk_same rfl h) (crewOk_none rfl))])
    | with_reducible apply Frames.step (g := endStroke_frames)
    | with_reducible apply Frames.step (g := checkHs_frames)
    | with_reducible apply Frames.ite
    | split
    | dsimp only

theorem copyEnds_frames {s : State} {c : Fin 16} : Frames 1154 s (copyEnds s c) := rejoined_frames

theorem execRejoinCopy_frames {c : Fin 16} {layer : Nat} {desc : BitVec 1024} {params : List Byte} {state : List Byte} {rec_ : BitVec 512} {s : State} : FramesN 5314 s (execRejoinCopy c layer desc params state rec_ s) := by
  unfold execRejoinCopy
  try dsimp only
  repeat' first
    | with_reducible apply Frames.refl
    | with_reducible assumption
    | (show _ = _; rfl)
    | with_reducible apply FramesN.powered
    | with_reducible apply Frames.step (g := copyEnds_frames)
    | ((with_reducible apply updCrew_step) <;> [skip; rfl; (first | exact crewOk_same rfl | exact fun _ => crewOk_none rfl | exact crewOk_map _ rfl (fun _ h => h) | exact crewOk_map _ rfl (fun _ h => attOk_ite h h) | exact fun h => crewOk_ite (crewOk_same rfl h) (crewOk_same rfl h) | exact fun h => crewOk_ite (crewOk_none rfl) (crewOk_same rfl h)| exact fun h => crewOk_ite (crewOk_same rfl h) (crewOk_none rfl))])
    | with_reducible apply Frames.step (g := hbmWriteN_frames)
    | with_reducible apply Frames.step (g := setLayerRec_frames)
    | with_reducible apply Frames.ite
    | split
    | dsimp only

theorem loadLayers_frames {s : State} {c : Fin 16} {data : List Byte} : Frames 5250 s (loadLayers s c data).1 := by
  unfold loadLayers
  try dsimp only
  repeat' first
    | with_reducible apply Frames.refl
    | with_reducible assumption
    | (show _ = _; rfl)
    | with_reducible apply Frames.step (g := setLayerRec_frames)
    | with_reducible apply Frames.step (g := rejoined_frames)
    | ((with_reducible apply updCrew_step) <;> [skip; rfl; (first | exact crewOk_same rfl | exact fun _ => crewOk_none rfl | exact crewOk_map _ rfl (fun _ h => h) | exact crewOk_map _ rfl (fun _ h => attOk_ite h h) | exact fun h => crewOk_ite (crewOk_same rfl h) (crewOk_same rfl h) | exact fun h => crewOk_ite (crewOk_none rfl) (crewOk_same rfl h)| exact fun h => crewOk_ite (crewOk_same rfl h) (crewOk_none rfl))])
    | ((with_reducible apply Frames.foldl) <;> [skip; intro _ _ _])
    | ((with_reducible apply Frames.foldl_fst) <;> [skip; intro _ _ _])
    | with_reducible apply Frames.ite
    | split
    | dsimp only

/-! ## Cox -/

theorem coxRead_frames {s : State} {p : Fin 8} {src : Cmd} {a b : Nat} {as : List Nat} : Frames 933968 s (coxRead s p src a b as) := by
  unfold coxRead
  try dsimp only
  repeat' first
    | with_reducible apply Frames.refl
    | with_reducible assumption
    | (show _ = _; rfl)
    | with_reducible apply Frames.step (g := collRead_frames)
    | with_reducible apply Frames.ite
    | split
    | dsimp only

theorem coxWrite_frames {s : State} {p : Fin 8} {k : CoxCmd} {ws : List (Nat × Byte)} : Frames 787520 s (coxWrite s p k ws) := by
  unfold coxWrite
  try dsimp only
  repeat' first
    | with_reducible apply Frames.refl
    | with_reducible assumption
    | (show _ = _; rfl)
    | with_reducible apply Frames.step (g := undoSave_frames)
    | ((with_reducible apply updAttempt_step) <;> [skip; rfl; (intro a h; first | exact h | exact attOk_ite h h | (split <;> exact h) | exact clusterWrite_ok h)])
    | with_reducible apply Frames.step (g := hbmTraffic_frames)
    | with_reducible apply Frames.step (g := hbmWriteL_frames)
    | with_reducible apply Frames.ite
    | split
    | dsimp only

theorem setCoxCmd_frames {s : State} {p : Fin 8} {i : Nat} {k : CoxCmd} : Frames 4096 s (setCoxCmd s p i k) := by
  unfold setCoxCmd
  try dsimp only
  repeat' first
    | with_reducible apply Frames.refl
    | with_reducible assumption
    | (show _ = _; rfl)
    | with_reducible apply Frames.step (g := updCox_frames)
    | dsimp only

theorem coxDone_frames {s : State} {p : Fin 8} {i : Nat} {k : CoxCmd} : Frames 267264 s (coxDone s p i k) := by
  unfold coxDone
  try dsimp only
  repeat' first
    | with_reducible apply Frames.refl
    | with_reducible assumption
    | (show _ = _; rfl)
    | ((with_reducible apply updAttempt_step) <;> [skip; rfl; (intro a h; first | exact h | exact attOk_ite h h | (split <;> exact h))])
    | with_reducible apply Frames.step (g := updCox_frames)
    | with_reducible apply Frames.step (g := setCoxCmd_frames)
    | with_reducible apply Frames.step (g := evAdd_frames)
    | with_reducible apply Frames.ite
    | split
    | dsimp only

theorem coxFail_frames {s : State} {p : Fin 8} {i : Nat} {k : CoxCmd} {r : Reason} {addr : Nat} {ws : List (Nat × Byte)} : Frames 791618 s (coxFail s p i k r addr ws) := by
  unfold coxFail
  try dsimp only
  repeat' first
    | with_reducible apply Frames.refl
    | with_reducible assumption
    | (show _ = _; rfl)
    | with_reducible apply Frames.step (g := someOf_frames)
    | with_reducible apply Frames.step (g := coxWrite_frames)
    | with_reducible apply Frames.step (g := setCoxCmd_frames)
    | split
    | with_reducible refine Frames.of_snd (by with_reducible assumption) ?_
    | dsimp only

theorem insertMm_frames {s : State} {n : Fin 8} {u : UnitCmd} : Frames 21638 s (insertMm s n u) := by
  unfold insertMm
  try dsimp only
  repeat' first
    | with_reducible apply Frames.refl
    | with_reducible assumption
    | (show _ = _; rfl)
    | with_reducible apply Frames.step (g := goCourse_frames)
    | with_reducible apply Frames.step (g := updCourse_frames)
    | with_reducible apply Frames.ite
    | split
    | dsimp only

theorem offerMm_frames {s : State} {p : Fin 8} {i : Nat} {k : CoxCmd} : Frames 283782 s (offerMm s p i k).1 := by
  unfold offerMm
  try dsimp only
  repeat' first
    | with_reducible apply Frames.refl
    | with_reducible assumption
    | (show _ = _; rfl)
    | with_reducible apply Frames.step (g := setCoxCmd_frames)
    | with_reducible apply Frames.step (g := evAdd_frames)
    | with_reducible apply Frames.step (g := ctrAdd_frames)
    | with_reducible apply Frames.step (g := updCox_frames)
    | with_reducible apply Frames.step (g := insertMm_frames)
    | with_reducible apply Frames.step (g := updCourse_frames)
    | with_reducible apply Frames.ite
    | split
    | dsimp only

theorem fillWork_frames {s : State} {p : Fin 8} {k : CoxCmd} : Frames 787522 s (fillWork s p k) := by
  unfold fillWork
  try dsimp only
  repeat' first
    | with_reducible apply Frames.refl
    | with_reducible assumption
    | (show _ = _; rfl)
    | with_reducible apply Frames.step (g := freshGen_frames)
    | with_reducible apply Frames.step (g := coxWrite_frames)
    | split
    | with_reducible refine Frames.of_snd (by with_reducible assumption) ?_
    | dsimp only

theorem matStart_frames {s : State} {p : Fin 8} {k : CoxCmd} : Frames 787520 s (matStart s p k).1 := by
  unfold matStart
  try dsimp only
  repeat' first
    | with_reducible apply Frames.refl
    | with_reducible assumption
    | (show _ = _; rfl)
    | with_reducible apply Frames.step (g := coxWrite_frames)
    | with_reducible apply FramesN.step (g := step_frames)
    | with_reducible apply Frames.ite
    | split
    | dsimp only

theorem rootIs_frames {s : State} {p : Fin 8} {k : CoxCmd} {new : Option (List FV)} : Frames 787520 s (rootIs s p k new).1 := by
  unfold rootIs
  try dsimp only
  repeat' first
    | with_reducible apply Frames.refl
    | with_reducible assumption
    | (show _ = _; rfl)
    | with_reducible apply Frames.step (g := coxWrite_frames)
    | split
    | dsimp only

theorem kronFinish_frames {s : State} {p : Fin 8} {k : CoxCmd} : Frames 787520 s (kronFinish s p k).1 := by
  unfold kronFinish
  try dsimp only
  repeat' first
    | with_reducible apply Frames.refl
    | with_reducible assumption
    | (show _ = _; rfl)
    | with_reducible apply Frames.step (g := coxWrite_frames)
    | with_reducible apply FramesN.step (g := step_frames)
    | with_reducible apply Frames.ite
    | split
    | dsimp only

theorem nextBlock_frames {s : State} {p : Fin 8} {k : CoxCmd} : Frames 787520 s (nextBlock s p k).1 := by
  unfold nextBlock
  try dsimp only
  repeat' first
    | with_reducible apply Frames.refl
    | with_reducible assumption
    | (show _ = _; rfl)
    | with_reducible apply FramesN.step (g := step_frames)
    | with_reducible apply Frames.step (g := kronFinish_frames)
    | with_reducible apply Frames.ite
    | split
    | with_reducible refine Frames.of_fst (by with_reducible assumption) ?_

theorem afterRoot_frames {s : State} {p : Fin 8} {k : CoxCmd} : Frames 787520 s (afterRoot s p k).1 := by
  unfold afterRoot
  try dsimp only
  repeat' first
    | with_reducible apply Frames.refl
    | with_reducible assumption
    | (show _ = _; rfl)
    | with_reducible apply FramesN.step (g := step_frames)
    | with_reducible apply Frames.step (g := nextBlock_frames)
    | with_reducible apply Frames.ite
    | split
    | with_reducible refine Frames.of_fst (by with_reducible assumption) ?_

theorem matElem_frames {s : State} {p : Fin 8} {k : CoxCmd} : Frames 787520 s (matElem s p k).1 := by
  unfold matElem
  try dsimp only
  repeat' first
    | with_reducible apply Frames.refl
    | with_reducible assumption
    | (show _ = _; rfl)
    | with_reducible apply Frames.step (g := rootIs_frames)
    | with_reducible apply Frames.step (g := afterRoot_frames)
    | with_reducible apply FramesN.step (g := step_frames)
    | with_reducible apply Frames.ite
    | split
    | with_reducible refine Frames.of_fst (by with_reducible assumption) ?_
    | dsimp only

theorem afterProd_frames {s : State} {p : Fin 8} {k0 : CoxCmd} : Frames 787520 s (afterProd s p k0).1 := by
  unfold afterProd
  try dsimp only
  repeat' first
    | with_reducible apply Frames.refl
    | with_reducible assumption
    | (show _ = _; rfl)
    | with_reducible apply Frames.step (g := coxWrite_frames)
    | with_reducible apply FramesN.step (g := step_frames)
    | with_reducible apply Frames.step (g := rootIs_frames)
    | with_reducible apply Frames.step (g := afterRoot_frames)
    | with_reducible apply Frames.step (g := nextBlock_frames)
    | with_reducible apply Frames.ite
    | split
    | with_reducible refine Frames.of_fst (by with_reducible assumption) ?_
    | dsimp only

theorem goMatrix_frames {k : Nat} {s : State} {x2 : Fin 8} {x3 : Nat} : Frames 808150 s (goMatrix k s x2 x3) := by
  induction k generalizing s x2 x3 with
  | zero => exact Frames.refl _ _
  | succ k ih =>
    unfold goMatrix
    repeat' first
      | with_reducible apply Frames.refl
      | with_reducible apply Frames.step (g := ih)
      | with_reducible assumption
      | (show _ = _; rfl)
      | with_reducible apply Frames.step (g := coxDone_frames)
      | with_reducible apply Frames.step (g := matElem_frames)
      | with_reducible apply Frames.step (g := setCoxCmd_frames)
      | with_reducible apply Frames.step (g := afterProd_frames)
      | with_reducible apply Frames.step (g := palletWriteL_frames)
      | with_reducible apply Frames.step (g := bindTile_frames)
      | with_reducible apply Frames.step (g := offerMm_frames)
      | with_reducible apply Frames.ite
      | split
      | with_reducible refine Frames.of_fst (by with_reducible assumption) ?_
      | dsimp only

theorem goRanges_frames {k : Nat} {s : State} {x2 : Fin 8} {x3 : Nat} : Frames 947282 s (goRanges k s x2 x3) := by
  induction k generalizing s x2 x3 with
  | zero => exact Frames.refl _ _
  | succ k ih =>
    unfold goRanges
    repeat' first
      | with_reducible apply Frames.refl
      | with_reducible apply Frames.step (g := ih)
      | with_reducible assumption
      | (show _ = _; rfl)
      | with_reducible apply Frames.step (g := coxDone_frames)
      | with_reducible apply Frames.step (g := coxFail_frames)
      | with_reducible apply Frames.step (g := collUeEvent_frames)
      | with_reducible apply Frames.step (g := setCoxCmd_frames)
      | with_reducible apply Frames.step (g := coxWrite_frames)
      | with_reducible apply Frames.step (g := coxRead_frames)
      | ((with_reducible apply Frames.foldl) <;> [skip; intro _ _ _])
      | ((with_reducible apply Frames.foldl_fst) <;> [skip; intro _ _ _])
      | ((with_reducible apply Frames.foldl_snd) <;> [skip; intro _ _ _])
      | with_reducible apply Frames.ite
      | split
      | with_reducible refine Frames.of_fst (by with_reducible assumption) ?_
      | with_reducible refine Frames.of_snd (by with_reducible assumption) ?_
      | dsimp only

theorem goCox_frames {s : State} {p : Fin 8} {i : Nat} : Frames 947414 s (goCox s p i) := by
  unfold goCox
  try dsimp only
  repeat' first
    | with_reducible apply Frames.refl
    | with_reducible assumption
    | (show _ = _; rfl)
    | with_reducible apply Frames.step (g := coxFail_frames)
    | with_reducible apply Frames.step (g := collUeEvent_frames)
    | with_reducible apply Frames.step (g := coxDone_frames)
    | with_reducible apply Frames.step (g := coxRead_frames)
    | with_reducible apply Frames.step (g := goRanges_frames)
    | with_reducible apply Frames.step (g := setCoxCmd_frames)
    | with_reducible apply Frames.step (g := coxWrite_frames)
    | with_reducible apply Frames.step (g := fillWork_frames)
    | with_reducible apply Frames.step (g := matStart_frames)
    | with_reducible apply Frames.step (g := goMatrix_frames)
    | with_reducible apply Frames.ite
    | split
    | with_reducible refine Frames.of_fst (by with_reducible assumption) ?_
    | dsimp only

theorem goCoxAll_frames {s : State} {p : Fin 8} : Frames 947414 s (goCoxAll s p) := by
  unfold goCoxAll
  try dsimp only
  repeat' first
    | with_reducible apply Frames.refl
    | with_reducible assumption
    | (show _ = _; rfl)
    | with_reducible apply Frames.step (g := goCox_frames)
    | ((with_reducible apply Frames.foldl) <;> [skip; intro _ _ _])
    | dsimp only

theorem coxPort_frames {s : State} {w : Who} {cmd : Cmd} : Frames 949974 s (coxPort s w cmd) := by
  unfold coxPort
  try dsimp only
  repeat' first
    | with_reducible apply Frames.refl
    | with_reducible assumption
    | (show _ = _; rfl)
    | with_reducible apply Frames.step (g := castReady_frames)
    | ((with_reducible apply issueStore_step) <;> [skip; (intro _ _ _ _ _; try dsimp only); skip])
    | with_reducible apply Frames.step (g := retireUnit_frames)
    | with_reducible apply FramesN.step (g := step_frames)
    | with_reducible apply Frames.step (g := updCox_frames)
    | ((with_reducible apply updAttempt_step) <;> [skip; rfl; (intro a h; first | exact h | exact attOk_ite h h | (split <;> exact h))])
    | with_reducible apply Frames.step (g := goCox_frames)
    | with_reducible apply Frames.ite
    | split
    | dsimp only

theorem execUpdate_frames {w : Who} {c : Cmd} {s : State} : FramesN 949974 s (execUpdate w c s) := by
  unfold execUpdate
  try dsimp only
  repeat' first
    | with_reducible apply Frames.refl
    | with_reducible assumption
    | (show _ = _; rfl)
    | with_reducible apply FramesN.powered
    | with_reducible apply Frames.step (g := coxPort_frames)

theorem execHold_frames {w : Who} {c : Cmd} {s : State} : FramesN 949974 s (execHold w c s) := by
  unfold execHold
  try dsimp only
  repeat' first
    | with_reducible apply Frames.refl
    | with_reducible assumption
    | (show _ = _; rfl)
    | with_reducible apply FramesN.powered
    | with_reducible apply Frames.step (g := coxPort_frames)

theorem execApply_frames {w : Who} {c : Cmd} {s : State} : FramesN 949974 s (execApply w c s) := by
  unfold execApply
  try dsimp only
  repeat' first
    | with_reducible apply Frames.refl
    | with_reducible assumption
    | (show _ = _; rfl)
    | with_reducible apply FramesN.powered
    | with_reducible apply Frames.step (g := coxPort_frames)

theorem execCoxFeed_frames {p : Fin 8} {layer : Nat} {s : State} : FramesN 949974 s (execCoxFeed p layer s) := by
  unfold execCoxFeed
  try dsimp only
  repeat' first
    | with_reducible apply Frames.refl
    | with_reducible assumption
    | (show _ = _; rfl)
    | with_reducible apply FramesN.powered
    | with_reducible apply Frames.step (g := castReady_frames)
    | with_reducible apply Frames.step (g := goCox_frames)
    | ((with_reducible apply Frames.foldl) <;> [skip; intro _ _ _])
    | with_reducible apply Frames.ite
    | split
    | dsimp only

theorem execCoxShareWindow_frames {p : Fin 8} {s : State} : FramesN 949975 s (execCoxShareWindow p s) := by
  unfold execCoxShareWindow
  try dsimp only
  repeat' first
    | with_reducible apply Frames.refl
    | with_reducible assumption
    | (show _ = _; rfl)
    | with_reducible apply FramesN.powered
    | with_reducible apply Frames.step (g := reach_frames)
    | with_reducible apply Frames.step (g := updCox_frames)
    | with_reducible apply Frames.step (g := castReady_frames)
    | with_reducible apply Frames.step (g := goCoxAll_frames)
    | dsimp only

theorem execCoxRetire_frames {p : Fin 8} {layer : Nat} {s : State} : FramesN 982750 s (execCoxRetire p layer s) := by
  unfold execCoxRetire
  try dsimp only
  repeat' first
    | with_reducible apply Frames.refl
    | with_reducible assumption
    | (show _ = _; rfl)
    | with_reducible apply FramesN.powered
    | with_reducible apply Frames.step (g := updCox_frames)
    | with_reducible apply Frames.step (g := ctrAdd_frames)
    | with_reducible apply Frames.step (g := retireNoted_frames)
    | with_reducible apply Frames.step (g := laneGap_frames)
    | with_reducible apply Frames.step (g := castReady_frames)
    | with_reducible apply Frames.step (g := goCoxAll_frames)
    | ((with_reducible apply Frames.foldl) <;> [skip; intro _ _ _])
    | ((with_reducible apply Frames.foldl_fst) <;> [skip; intro _ _ _])
    | ((with_reducible apply Frames.foldl_snd) <;> [skip; intro _ _ _])
    | with_reducible apply Frames.ite
    | split
    | with_reducible refine Frames.of_fst (by with_reducible assumption) ?_
    | with_reducible refine Frames.of_snd (by with_reducible assumption) ?_
    | dsimp only

theorem clearDirty_frames {s : State} {p : Fin 8} {layer : Nat} : Frames 4096 s (clearDirty s p layer) := by
  unfold clearDirty
  try dsimp only
  repeat' first
    | with_reducible apply Frames.refl
    | with_reducible assumption
    | (show _ = _; rfl)
    | with_reducible apply Frames.step (g := setLayerRec_frames)
    | with_reducible apply Frames.ite
    | split

/-! ## Crews -/

theorem tellPending_frames {s : State} {c : Fin 16} {r : Nat} : Frames 804352 s (tellPending s c r) := by
  unfold tellPending
  try dsimp only
  repeat' first
    | with_reducible apply Frames.refl
    | with_reducible assumption
    | (show _ = _; rfl)
    | with_reducible apply Frames.step (g := sendDec_frames)
    | with_reducible apply Frames.step (g := sendFin_frames)
    | with_reducible apply Frames.ite
    | with_reducible apply FramesO.getD
    | split
    | ((with_reducible apply FramesO.of) <;> intro _)
    | dsimp only

theorem holdHello_frames {s : State} {c : Fin 16} {r : Nat} : Frames 816854 s (holdHello s c r) := by
  unfold holdHello
  try dsimp only
  repeat' first
    | with_reducible apply Frames.refl
    | with_reducible assumption
    | (show _ = _; rfl)
    | ((with_reducible apply updCrew_step) <;> [skip; rfl; (first | exact crewOk_same rfl | exact fun _ => crewOk_none rfl | exact crewOk_map _ rfl (fun _ h => h) | exact crewOk_map _ rfl (fun _ h => attOk_ite h h) | exact fun h => crewOk_ite (crewOk_same rfl h) (crewOk_same rfl h) | exact fun h => crewOk_ite (crewOk_none rfl) (crewOk_same rfl h)| exact fun h => crewOk_ite (crewOk_same rfl h) (crewOk_none rfl))])
    | ((with_reducible apply orNoRoute_step) <;> [skip; skip])
    | with_reducible apply Frames.step (g := sendHello_frames)
    | with_reducible apply Frames.step (g := tellPending_frames)
    | with_reducible apply Frames.ite
    | split
    | with_reducible refine Frames.of_fst (by with_reducible assumption) ?_
    | dsimp only

theorem adoptEpoch_frames {s : State} {c : Fin 16} {e : BitVec 32} : Frames 816854 s (adoptEpoch s c e) := by
  unfold adoptEpoch
  try dsimp only
  repeat' first
    | with_reducible apply Frames.refl
    | with_reducible assumption
    | (show _ = _; rfl)
    | ((with_reducible apply orNoRoute_step) <;> [skip; skip])
    | with_reducible apply Frames.step (g := startEpoch_frames)
    | with_reducible apply Frames.step (g := waitAgain_frames)
    | with_reducible apply Frames.step (g := enterRecovering_frames)
    | with_reducible apply Frames.ite
    | split
    | with_reducible refine Frames.of_fst (by with_reducible assumption) ?_
    | dsimp only

theorem execHello_frames {c : Fin 16} {rank : Nat} {hash : BitVec 64} {epoch : BitVec 32} {s : State} : FramesN 949974 s (execHello c rank hash epoch s) := by
  unfold execHello
  try dsimp only
  repeat' first
    | with_reducible apply Frames.refl
    | with_reducible assumption
    | (show _ = _; rfl)
    | with_reducible apply FramesN.powered
    | ((with_reducible apply updCrew_step) <;> [skip; rfl; (first | exact crewOk_same rfl | exact fun _ => crewOk_none rfl | exact crewOk_map _ rfl (fun _ h => h) | exact crewOk_map _ rfl (fun _ h => attOk_ite h h) | exact fun h => crewOk_ite (crewOk_same rfl h) (crewOk_same rfl h) | exact fun h => crewOk_ite (crewOk_none rfl) (crewOk_same rfl h)| exact fun h => crewOk_ite (crewOk_same rfl h) (crewOk_none rfl))])
    | with_reducible apply Frames.step (g := noteHeard_frames)
    | with_reducible apply Frames.step (g := fresh_frames)
    | with_reducible apply Frames.step (g := setProblem_frames)
    | with_reducible apply Frames.step (g := castReady_frames)
    | with_reducible apply Frames.step (g := applyReq_frames)
    | with_reducible apply Frames.step (g := checkHs_frames)
    | with_reducible apply Frames.step (g := holdHello_frames)
    | with_reducible apply Frames.step (g := adoptEpoch_frames)
    | with_reducible apply Frames.step (g := ctrAdd_frames)
    | with_reducible apply Frames.ite
    | split
    | with_reducible refine Frames.of_snd (by with_reducible assumption) ?_
    | dsimp only

theorem execHelloResend_frames {c : Fin 16} {s : State} : FramesN 949974 s (execHelloResend c s) := by
  unfold execHelloResend
  try dsimp only
  repeat' first
    | with_reducible apply Frames.refl
    | with_reducible assumption
    | (show _ = _; rfl)
    | with_reducible apply FramesN.powered
    | with_reducible apply Frames.step (g := castReady_frames)
    | ((with_reducible apply orNoRoute_step) <;> [skip; skip])
    | with_reducible apply Frames.step (g := sendHello_frames)
    | with_reducible apply Frames.ite
    | split
    | with_reducible refine Frames.of_fst (by with_reducible assumption) ?_
    | dsimp only

theorem beat_frames {s : State} {c : Fin 16} {peer : Nat} {t : U64} : Frames 949975 s (beat s c peer t) := by
  unfold beat
  dsimp only
  have h1 : Frames 949975 s (reach s t) := (Frames.refl _ _).step reach_frames rfl
  generalize reach s t = s1 at h1
  generalize leBytes 4 (myRank s1 c) = m
  have h2 : Frames 949975 s (sendSync s1 c peer 2 0 m).1 := h1.step sendSync_frames rfl
  generalize sendSync s1 c peer 2 0 m = x at h2
  exact Frames.ite h2 ((h2.step crewFault_frames rfl).step castReady_frames rfl)

theorem execHeartbeat_frames {c : Fin 16} {peer : Nat} {s : State} : FramesN 949975 s (execHeartbeat c peer s) := by
  unfold execHeartbeat
  apply FramesN.powered
  exact Frames.ite (Frames.refl _ _) ((Frames.refl _ _).step beat_frames rfl)

theorem execMemberLost_frames {c : Fin 16} {peer : Nat} {s : State} : FramesN 949975 s (execMemberLost c peer s) := by
  unfold execMemberLost
  try dsimp only
  repeat' first
    | with_reducible apply Frames.refl
    | with_reducible assumption
    | (show _ = _; rfl)
    | with_reducible apply FramesN.powered
    | with_reducible apply Frames.step (g := reach_frames)
    | with_reducible apply Frames.step (g := castReady_frames)
    | with_reducible apply Frames.step (g := crewFault_frames)
    | with_reducible apply Frames.ite
    | split
    | dsimp only

theorem execRecover_frames {c : Fin 16} {src : Nat} {epoch : BitVec 32} {cause : Byte} {lost : BitVec 32} {s : State} : FramesN 949974 s (execRecover c src epoch cause lost s) := by
  unfold execRecover
  try dsimp only
  repeat' first
    | with_reducible apply Frames.refl
    | with_reducible assumption
    | (show _ = _; rfl)
    | with_reducible apply FramesN.powered
    | with_reducible apply Frames.step (g := noteHeard_frames)
    | with_reducible apply Frames.step (g := ctrAdd_frames)
    | with_reducible apply Frames.step (g := sendSyncs_frames)
    | with_reducible apply Frames.step (g := castReady_frames)
    | with_reducible apply Frames.step (g := enterRecovering_frames)
    | with_reducible apply Frames.ite
    | split
    | with_reducible refine Frames.of_fst (by with_reducible assumption) ?_
    | dsimp only

theorem execAllreduce_frames {w : Who} {c : Cmd} {s : State} : FramesN 949974 s (execAllreduce w c s) := by
  unfold execAllreduce
  try dsimp only
  repeat' first
    | with_reducible apply Frames.refl
    | with_reducible assumption
    | (show _ = _; rfl)
    | with_reducible apply FramesN.powered
    | with_reducible apply Frames.step (g := riggerPort_frames)

theorem execReducescatter_frames {w : Who} {c : Cmd} {s : State} : FramesN 949974 s (execReducescatter w c s) := by
  unfold execReducescatter
  try dsimp only
  repeat' first
    | with_reducible apply Frames.refl
    | with_reducible assumption
    | (show _ = _; rfl)
    | with_reducible apply FramesN.powered
    | with_reducible apply Frames.step (g := riggerPort_frames)

theorem execAllgather_frames {w : Who} {c : Cmd} {s : State} : FramesN 949974 s (execAllgather w c s) := by
  unfold execAllgather
  try dsimp only
  repeat' first
    | with_reducible apply Frames.refl
    | with_reducible assumption
    | (show _ = _; rfl)
    | with_reducible apply FramesN.powered
    | with_reducible apply Frames.step (g := riggerPort_frames)

theorem execBroadcast_frames {w : Who} {c : Cmd} {s : State} : FramesN 949974 s (execBroadcast w c s) := by
  unfold execBroadcast
  try dsimp only
  repeat' first
    | with_reducible apply Frames.refl
    | with_reducible assumption
    | (show _ = _; rfl)
    | with_reducible apply FramesN.powered
    | with_reducible apply Frames.step (g := riggerPort_frames)

theorem execReduce_frames {w : Who} {c : Cmd} {s : State} : FramesN 949974 s (execReduce w c s) := by
  unfold execReduce
  try dsimp only
  repeat' first
    | with_reducible apply Frames.refl
    | with_reducible assumption
    | (show _ = _; rfl)
    | with_reducible apply FramesN.powered
    | with_reducible apply Frames.step (g := riggerPort_frames)

theorem execAlltoall_frames {w : Who} {c : Cmd} {s : State} : FramesN 949974 s (execAlltoall w c s) := by
  unfold execAlltoall
  try dsimp only
  repeat' first
    | with_reducible apply Frames.refl
    | with_reducible assumption
    | (show _ = _; rfl)
    | with_reducible apply FramesN.powered
    | with_reducible apply Frames.step (g := riggerPort_frames)

theorem execAlltoallv_frames {w : Who} {c : Cmd} {s : State} : FramesN 949974 s (execAlltoallv w c s) := by
  unfold execAlltoallv
  try dsimp only
  repeat' first
    | with_reducible apply Frames.refl
    | with_reducible assumption
    | (show _ = _; rfl)
    | with_reducible apply FramesN.powered
    | with_reducible apply Frames.step (g := riggerPort_frames)

theorem execBarrier_frames {w : Who} {c : Cmd} {s : State} : FramesN 949974 s (execBarrier w c s) := by
  unfold execBarrier
  try dsimp only
  repeat' first
    | with_reducible apply Frames.refl
    | with_reducible assumption
    | (show _ = _; rfl)
    | with_reducible apply FramesN.powered
    | with_reducible apply Frames.step (g := riggerPort_frames)

theorem execSend_frames {w : Who} {c : Cmd} {s : State} : FramesN 949974 s (execSend w c s) := by
  unfold execSend
  try dsimp only
  repeat' first
    | with_reducible apply Frames.refl
    | with_reducible assumption
    | (show _ = _; rfl)
    | with_reducible apply FramesN.powered
    | with_reducible apply Frames.step (g := riggerPort_frames)

theorem execRecv_frames {w : Who} {c : Cmd} {s : State} : FramesN 949974 s (execRecv w c s) := by
  unfold execRecv
  try dsimp only
  repeat' first
    | with_reducible apply Frames.refl
    | with_reducible assumption
    | (show _ = _; rfl)
    | with_reducible apply FramesN.powered
    | with_reducible apply Frames.step (g := riggerPort_frames)

theorem execDone_frames {c : Fin 16} {src : Sender} {msg : BitVec 32} {n : DoneCount} {s : State} : FramesN 949974 s (execDone c src msg n s) := by
  unfold execDone
  try dsimp only
  repeat' first
    | with_reducible apply Frames.refl
    | with_reducible assumption
    | (show _ = _; rfl)
    | with_reducible apply FramesN.powered
    | with_reducible apply Frames.step (g := castReady_frames)
    | ((with_reducible apply crewSync_step) <;> [skip; (intro _ _; try dsimp only); skip])
    | with_reducible apply Frames.step (g := doneMsg_frames)
    | with_reducible apply Frames.ite
    | split
    | dsimp only

theorem execCrewopRetire_frames {c : Fin 16} {op : Nat} {s : State} : FramesN 949974 s (execCrewopRetire c op s) := by
  unfold execCrewopRetire
  try dsimp only
  repeat' first
    | with_reducible apply Frames.refl
    | with_reducible assumption
    | (show _ = _; rfl)
    | with_reducible apply FramesN.powered
    | with_reducible apply Frames.step (g := castReady_frames)
    | with_reducible apply Frames.step (g := takeWaiting_frames)
    | with_reducible apply Frames.step (g := retireOp_frames)

theorem writeCollRegion_frames {s : State} {p : Fin 8} {i : Nat} {d : BitVec 128} : Frames 128 s (writeCollRegion s p i d) := by
  unfold writeCollRegion
  try dsimp only
  repeat' first
    | with_reducible apply Frames.refl
    | with_reducible assumption
    | (show _ = _; rfl)
    | with_reducible apply Frames.step (g := updFunc_frames)
    | with_reducible apply Frames.ite
    | split
    | dsimp only

theorem writeHandle_frames {s : State} {p : Fin 8} {i : Nat} {d : BitVec 128} : Frames 128 s (writeHandle s p i d) := by
  unfold writeHandle
  try dsimp only
  repeat' first
    | with_reducible apply Frames.refl
    | with_reducible assumption
    | (show _ = _; rfl)
    | with_reducible apply Frames.step (g := updFunc_frames)
    | with_reducible apply Frames.ite
    | split
    | dsimp only

end Sys2Proof.Machine
end

