-- ==== Sys2Proof/Laws/FramesHost.lean ====
section
/-! SUPPORT. What each function of the state may change, in the terms of Frames: the dictionary table, the Evolu network, trust, the host port, Trowels and Hods. -/

set_option linter.all false

namespace Sys2Proof.Machine

open Sys2Proof

/-! ## EvoluNet -/

theorem updEvolu_frames {s : State} {g : Evolu → Evolu} : Frames 8192 s (updEvolu s g) := by
  unfold updEvolu
  try dsimp only
  repeat' first
    | with_reducible apply Frames.refl
    | with_reducible assumption
    | (show _ = _; rfl)
    | with_reducible apply Frames.set_evolu

theorem evoluEvent_frames {s t : State} : Frames 8192 t (evoluEvent s t) := by
  unfold evoluEvent
  exact Frames.ite (Frames.refl _ _) ((Frames.refl _ _).step raiseEvent_frames rfl)

theorem queueFrame_frames {s : State} {h : Bool} {bytes : List Byte} {sess : Option (Fin 8 × BitVec 16)} : Frames 8192 s (queueFrame s h bytes sess) := by
  unfold queueFrame
  try dsimp only
  repeat' first
    | with_reducible apply Frames.refl
    | with_reducible assumption
    | (show _ = _; rfl)
    | with_reducible apply Frames.step (g := updEvolu_frames)
    | with_reducible apply Frames.ite
    | split
    | dsimp only

theorem sendPlain_frames {s : State} {service dst session tseq aseq epoch : Nat} {payload : List Byte} : Frames 8192 s (sendPlain s service dst session tseq aseq epoch payload) := by
  unfold sendPlain
  try dsimp only
  repeat' first
    | with_reducible apply Frames.refl
    | with_reducible assumption
    | (show _ = _; rfl)
    | with_reducible apply Frames.step (g := queueFrame_frames)

theorem stranger_frames {s : State} : Frames 16384 s (stranger s) := by
  unfold stranger
  try dsimp only
  repeat' first
    | with_reducible apply Frames.refl
    | with_reducible assumption
    | (show _ = _; rfl)
    | with_reducible apply Frames.step (g := ctrAdd_frames)

theorem sessSend_frames {s : State} {i : Fin 8} {service : Nat} {tseq : BitVec 16} {payload : List Byte} : Frames 8192 s (sessSend s i service tseq payload) := by
  unfold sessSend
  try dsimp only
  repeat' first
    | with_reducible apply Frames.refl
    | with_reducible assumption
    | (show _ = _; rfl)
    | with_reducible apply Frames.step (g := queueFrame_frames)
    | with_reducible apply Frames.step (g := updSession_frames)
    | dsimp only

theorem sendAck_frames {s : State} {i : Fin 8} {abort : Nat} : Frames 8192 s (sendAck s i abort) := by
  unfold sendAck
  try dsimp only
  repeat' first
    | with_reducible apply Frames.refl
    | with_reducible assumption
    | (show _ = _; rfl)
    | with_reducible apply Frames.step (g := sessSend_frames)
    | dsimp only

theorem sessNew_frames {s : State} {i : Fin 8} {service : Nat} {payload : List Byte} : Frames 8192 s (sessNew s i service payload) := by
  unfold sessNew
  try dsimp only
  repeat' first
    | with_reducible apply Frames.refl
    | with_reducible assumption
    | (show _ = _; rfl)
    | with_reducible apply Frames.step (g := updSession_frames)
    | with_reducible apply Frames.step (g := sessSend_frames)
    | dsimp only

theorem flushOutN_frames {k : Nat} {s : State} {x2 : Fin 8} : Frames 8192 s (flushOutN k s x2) := by
  induction k generalizing s x2 with
  | zero => exact Frames.refl _ _
  | succ k ih =>
    unfold flushOutN
    repeat' first
      | with_reducible apply Frames.refl
      | with_reducible apply Frames.step (g := ih)
      | with_reducible assumption
      | (show _ = _; rfl)
      | with_reducible apply Frames.step (g := updSession_frames)
      | with_reducible apply Frames.step (g := sessNew_frames)
      | with_reducible apply Frames.ite
      | split
      | dsimp only

theorem flushOut_frames {s : State} {i : Fin 8} : Frames 8192 s (flushOut s i) := by
  unfold flushOut
  try dsimp only
  repeat' first
    | with_reducible apply Frames.refl
    | with_reducible assumption
    | (show _ = _; rfl)
    | with_reducible apply Frames.step (g := flushOutN_frames)

theorem sendResponse_frames {s : State} {i : Fin 8} {req : BitVec 16} {payload : List Byte} : Frames 8192 s (sendResponse s i req payload) := by
  unfold sendResponse
  try dsimp only
  repeat' first
    | with_reducible apply Frames.refl
    | with_reducible assumption
    | (show _ = _; rfl)
    | with_reducible apply Frames.step (g := flushOut_frames)
    | with_reducible apply Frames.step (g := updSession_frames)
    | dsimp only

theorem resendOne_frames {s : State} {i : Fin 8} {f : SessFrame} : Frames 24576 s (resendOne s i f) := by
  unfold resendOne
  try dsimp only
  repeat' first
    | with_reducible apply Frames.refl
    | with_reducible assumption
    | (show _ = _; rfl)
    | with_reducible apply Frames.step (g := updSession_frames)
    | with_reducible apply Frames.step (g := ctrAdd_frames)
    | with_reducible apply Frames.step (g := sessSend_frames)
    | with_reducible apply Frames.ite
    | split
    | dsimp only

theorem resendOldest_frames {s : State} {i : Fin 8} : Frames 24576 s (resendOldest s i) := by
  unfold resendOldest
  try dsimp only
  repeat' first
    | with_reducible apply Frames.refl
    | with_reducible assumption
    | (show _ = _; rfl)
    | with_reducible apply Frames.step (g := resendOne_frames)
    | split
    | dsimp only

theorem takeAseq_frames {s : State} {i : Fin 8} {aseq : BitVec 16} : Frames 8192 s (takeAseq s i aseq) := by
  unfold takeAseq
  try dsimp only
  repeat' first
    | with_reducible apply Frames.refl
    | with_reducible assumption
    | (show _ = _; rfl)
    | with_reducible apply Frames.step (g := flushOut_frames)
    | with_reducible apply Frames.step (g := updSession_frames)
    | ((with_reducible apply Frames.foldl) <;> [skip; intro _ _ _])
    | ((with_reducible apply Frames.foldl_fst) <;> [skip; intro _ _ _])
    | ((with_reducible apply Frames.foldl_snd) <;> [skip; intro _ _ _])
    | with_reducible apply Frames.ite
    | split
    | with_reducible refine Frames.of_fst (by with_reducible assumption) ?_
    | with_reducible refine Frames.of_snd (by with_reducible assumption) ?_
    | dsimp only

theorem sendEvents_frames {s : State} {i : Fin 8} : Frames 8192 s (sendEvents s i) := by
  unfold sendEvents
  try dsimp only
  repeat' first
    | with_reducible apply Frames.refl
    | with_reducible assumption
    | (show _ = _; rfl)
    | with_reducible apply Frames.step (g := sessNew_frames)
    | with_reducible apply Frames.step (g := updSession_frames)
    | with_reducible apply Frames.ite
    | split
    | dsimp only

theorem closeSession_frames {s : State} {i : Fin 8} : Frames 90112 s (closeSession s i) := by
  unfold closeSession
  try dsimp only
  repeat' first
    | with_reducible apply Frames.refl
    | with_reducible assumption
    | (show _ = _; rfl)
    | with_reducible apply Frames.step (g := endOpenOf_frames)
    | with_reducible apply Frames.step (g := updSession_frames)
    | with_reducible apply Frames.step (g := updEvolu_frames)
    | with_reducible apply Frames.ite
    | split
    | dsimp only
    | ((with_reducible apply Frames.set_dict_sec) <;> [skip; (first | rfl | exact fun h => h | exact fun h => put_ok _ _ h | exact fun h => memFresh_ok _ h | exact fun h => devFresh_ok h | exact fun h => ⟨h.1, writeN_wf _ _ _ h.2⟩ | exact fun h => writeN_wf _ _ _ h | exact fun h => writeL_wf _ _ h); (first | rfl | exact fun h => h | exact fun h => put_ok _ _ h | exact fun h => memFresh_ok _ h | exact fun h => devFresh_ok h | exact fun h => ⟨h.1, writeN_wf _ _ _ h.2⟩ | exact fun h => writeN_wf _ _ _ h | exact fun h => writeL_wf _ _ h)])
    | with_reducible apply Frames.set_dict
    | with_reducible apply Frames.set_sec

theorem closeAll_frames {s : State} : Frames 90112 s (closeAll s) := by
  unfold closeAll
  try dsimp only
  repeat' first
    | with_reducible apply Frames.refl
    | with_reducible assumption
    | (show _ = _; rfl)
    | with_reducible apply Frames.step (g := closeSession_frames)
    | ((with_reducible apply Frames.foldl) <;> [skip; intro _ _ _])
    | dsimp only

theorem addressConflict_frames {s : State} : Frames 90112 s (addressConflict s) := by
  unfold addressConflict
  try dsimp only
  repeat' first
    | with_reducible apply Frames.refl
    | with_reducible assumption
    | (show _ = _; rfl)
    | with_reducible apply Frames.step (g := raiseEvent_frames)
    | with_reducible apply Frames.step (g := ctrAdd_frames)
    | with_reducible apply Frames.step (g := closeAll_frames)
    | with_reducible apply Frames.step (g := updEvolu_frames)
    | with_reducible apply Frames.ite
    | split
    | dsimp only

theorem takeAssign_frames {s : State} {src : Nat} {serial : BitVec 64} {nonce : BitVec 32} {addr : Nat} : Frames 8192 s (takeAssign s src serial nonce addr) := by
  unfold takeAssign
  try dsimp only
  repeat' first
    | with_reducible apply Frames.refl
    | with_reducible assumption
    | (show _ = _; rfl)
    | with_reducible apply Frames.step (g := updEvolu_frames)
    | with_reducible apply Frames.step (g := evoluEvent_frames)
    | with_reducible apply Frames.step (g := sendPlain_frames)
    | with_reducible apply Frames.ite
    | split
    | dsimp only

theorem takeAnnounce_frames {s : State} {src : Nat} {serial : BitVec 64} : Frames 90112 s (takeAnnounce s src serial) := by
  unfold takeAnnounce
  try dsimp only
  repeat' first
    | with_reducible apply Frames.refl
    | with_reducible assumption
    | (show _ = _; rfl)
    | with_reducible apply Frames.step (g := addressConflict_frames)
    | with_reducible apply Frames.ite
    | split

theorem refuse_frames {s : State} {src hid code : Nat} : Frames 24576 s (refuse s src hid code) := by
  unfold refuse
  try dsimp only
  repeat' first
    | with_reducible apply Frames.refl
    | with_reducible assumption
    | (show _ = _; rfl)
    | with_reducible apply Frames.step (g := ctrAdd_frames)
    | with_reducible apply Frames.step (g := sendPlain_frames)

theorem setShake_frames {s : State} {h : Handshake} : Frames 8192 s (setShake s h) := by
  unfold setShake
  try dsimp only
  repeat' first
    | with_reducible apply Frames.refl
    | with_reducible assumption
    | (show _ = _; rfl)
    | with_reducible apply Frames.step (g := updEvolu_frames)
    | dsimp only

theorem dropShake_frames {s : State} {h : Handshake} : Frames 8192 s (dropShake s h) := by
  unfold dropShake
  try dsimp only
  repeat' first
    | with_reducible apply Frames.refl
    | with_reducible assumption
    | (show _ = _; rfl)
    | with_reducible apply Frames.step (g := updEvolu_frames)
    | dsimp only

theorem sendRsp_frames {s : State} {h : Handshake} : Frames 8192 s (sendRsp s h) := by
  unfold sendRsp
  try dsimp only
  repeat' first
    | with_reducible apply Frames.refl
    | with_reducible assumption
    | (show _ = _; rfl)
    | with_reducible apply Frames.step (g := sendPlain_frames)
    | ((with_reducible apply Frames.foldl) <;> [skip; intro _ _ _])
    | dsimp only

theorem answerReq_frames {s : State} {h : Handshake} {req : List Byte} : Frames 24578 s (answerReq s h req) := by
  unfold answerReq
  try dsimp only
  repeat' first
    | with_reducible apply Frames.refl
    | with_reducible assumption
    | (show _ = _; rfl)
    | with_reducible apply Frames.step (g := dropShake_frames)
    | with_reducible apply Frames.step (g := refuse_frames)
    | with_reducible apply Frames.step (g := fresh_frames)
    | with_reducible apply Frames.step (g := updSession_frames)
    | with_reducible apply Frames.step (g := setShake_frames)
    | with_reducible apply Frames.step (g := sendRsp_frames)
    | with_reducible apply Frames.ite
    | split
    | with_reducible refine Frames.of_snd (by with_reducible assumption) ?_
    | dsimp only
    | with_reducible apply Frames.set_free

theorem takeOpenReq_frames {s : State} {src : BitVec 6} {hid : BitVec 32} {index count : Nat} {seg : List Byte} : Frames 24578 s (takeOpenReq s src hid index count seg) := by
  unfold takeOpenReq
  try dsimp only
  repeat' first
    | with_reducible apply Frames.refl
    | with_reducible assumption
    | (show _ = _; rfl)
    | with_reducible apply Frames.step (g := stranger_frames)
    | with_reducible apply Frames.step (g := updEvolu_frames)
    | with_reducible apply Frames.step (g := answerReq_frames)
    | with_reducible apply Frames.step (g := sendRsp_frames)
    | with_reducible apply Frames.step (g := setShake_frames)
    | with_reducible apply Frames.step (g := refuse_frames)
    | with_reducible apply Frames.ite
    | split
    | dsimp only

theorem openSession_frames {s : State} {h : Handshake} {i : Fin 8} : Frames 90112 s (openSession s h i) := by
  unfold openSession
  try dsimp only
  repeat' first
    | with_reducible apply Frames.refl
    | with_reducible assumption
    | (show _ = _; rfl)
    | with_reducible apply Frames.step (g := closeSession_frames)
    | with_reducible apply Frames.step (g := updSession_frames)
    | with_reducible apply Frames.step (g := dropShake_frames)
    | with_reducible apply Frames.step (g := sendAck_frames)
    | ((with_reducible apply Frames.foldl) <;> [skip; intro _ _ _])
    | with_reducible apply Frames.ite
    | split
    | dsimp only

theorem takeOpenFin_frames {s : State} {src : BitVec 6} {hid : BitVec 32} {index count : Nat} {seg : List Byte} : Frames 90112 s (takeOpenFin s src hid index count seg) := by
  unfold takeOpenFin
  try dsimp only
  repeat' first
    | with_reducible apply Frames.refl
    | with_reducible assumption
    | (show _ = _; rfl)
    | with_reducible apply Frames.step (g := setShake_frames)
    | with_reducible apply Frames.step (g := openSession_frames)
    | with_reducible apply Frames.step (g := refuse_frames)
    | with_reducible apply Frames.step (g := closeSession_frames)
    | with_reducible apply Frames.step (g := dropShake_frames)
    | with_reducible apply Frames.ite
    | split
    | dsimp only

/-! ## Trust -/

theorem boot_frames {s : State} : Frames 65536 s (boot s).1 := by
  unfold boot
  try dsimp only
  repeat' first
    | with_reducible apply Frames.refl
    | with_reducible assumption
    | (show _ = _; rfl)
    | with_reducible apply Frames.ite
    | split
    | dsimp only
    | with_reducible apply Frames.set_sec

theorem imageWrite_frames {s : State} {i : Nat} {b : List Byte} : Frames 81920 s (imageWrite s i b).1 := by
  unfold imageWrite
  try dsimp only
  repeat' first
    | with_reducible apply Frames.refl
    | with_reducible assumption
    | (show _ = _; rfl)
    | with_reducible apply Frames.step (g := genBump_frames)
    | with_reducible apply Frames.ite
    | split
    | with_reducible apply Frames.set_sec

theorem advanceRollback_frames {s : State} : Frames 65536 s (advanceRollback s).1 := by
  unfold advanceRollback
  try dsimp only
  repeat' first
    | with_reducible apply Frames.refl
    | with_reducible assumption
    | (show _ = _; rfl)
    | with_reducible apply Frames.ite
    | split
    | dsimp only
    | with_reducible apply Frames.set_sec

theorem burnOwner_frames {s : State} {hash : BitVec 256} : Frames 81920 s (burnOwner s hash).1 := by
  unfold burnOwner
  try dsimp only
  repeat' first
    | with_reducible apply Frames.refl
    | with_reducible assumption
    | (show _ = _; rfl)
    | with_reducible apply Frames.step (g := genBump_frames)
    | with_reducible apply Frames.ite
    | split
    | with_reducible apply Frames.set_sec

theorem attest_frames {s : State} {r : Req} {nonce : BitVec 256} : Frames 81922 s (attest s r nonce) := by
  unfold attest
  try dsimp only
  repeat' first
    | with_reducible apply Frames.refl
    | with_reducible assumption
    | (show _ = _; rfl)
    | with_reducible apply Frames.step (g := genBump_frames)
    | split
    | dsimp only
    | ((with_reducible apply Frames.set_free_sec) <;> [skip; (first | rfl | exact fun h => h | exact fun h => put_ok _ _ h | exact fun h => memFresh_ok _ h | exact fun h => devFresh_ok h | exact fun h => ⟨h.1, writeN_wf _ _ _ h.2⟩ | exact fun h => writeN_wf _ _ _ h | exact fun h => writeL_wf _ _ h); (first | rfl | exact fun h => h | exact fun h => put_ok _ _ h | exact fun h => memFresh_ok _ h | exact fun h => devFresh_ok h | exact fun h => ⟨h.1, writeN_wf _ _ _ h.2⟩ | exact fun h => writeN_wf _ _ _ h | exact fun h => writeL_wf _ _ h)])
    | with_reducible apply Frames.set_free
    | with_reducible apply Frames.set_sec

/-! ## HostPort -/

theorem setVec_frames {s : State} {x : Vec} : Frames 128 s (setVec s x) := by
  unfold setVec
  try dsimp only
  repeat' first
    | with_reducible apply Frames.refl
    | with_reducible assumption
    | (show _ = _; rfl)
    | dsimp only
    | ((with_reducible apply Frames.set_host) <;> [skip; rfl; (first | exact fun h => h | exact fun h => put_ok _ _ h | exact fun h => memFresh_ok _ h | exact fun h => devFresh_ok h | exact fun h => ⟨h.1, writeN_wf _ _ _ h.2⟩ | exact fun h => writeN_wf _ _ _ h | exact fun h => writeL_wf _ _ h)])

theorem vecFire_frames {s : State} {f : Fin 9} {v : Fin 2048} : Frames 524416 s (vecFire s f v) := by
  unfold vecFire
  try dsimp only
  repeat' first
    | with_reducible apply Frames.refl
    | with_reducible assumption
    | (show _ = _; rfl)
    | with_reducible apply Frames.step (g := setVec_frames)
    | with_reducible apply Frames.step (g := emit_frames)
    | with_reducible apply Frames.ite
    | split
    | dsimp only

theorem notify_frames {s : State} {f : Fin 9} {v : Nat} : Frames 524416 s (notify s f v) := by
  unfold notify
  try dsimp only
  repeat' first
    | with_reducible apply Frames.refl
    | with_reducible assumption
    | (show _ = _; rfl)
    | with_reducible apply Frames.step (g := setVec_frames)
    | with_reducible apply Frames.step (g := vecFire_frames)
    | with_reducible apply Frames.ite
    | split
    | dsimp only

theorem execMsixHoldExpiry_frames {f : Fin 9} {v : Fin 2048} {s : State} : FramesN 524417 s (execMsixHoldExpiry f v s) := by
  unfold execMsixHoldExpiry
  try dsimp only
  repeat' first
    | with_reducible apply Frames.refl
    | with_reducible assumption
    | (show _ = _; rfl)
    | with_reducible apply FramesN.powered
    | with_reducible apply Frames.step (g := vecFire_frames)
    | with_reducible apply Frames.step (g := reach_frames)
    | with_reducible apply Frames.ite
    | split
    | dsimp only

theorem vecPending_frames {s : State} {f : Fin 9} {v : Fin 2048} : Frames 524416 s (vecPending s f v) := by
  unfold vecPending
  try dsimp only
  repeat' first
    | with_reducible apply Frames.refl
    | with_reducible assumption
    | (show _ = _; rfl)
    | with_reducible apply Frames.step (g := vecFire_frames)
    | with_reducible apply Frames.ite
    | split
    | dsimp only

theorem execMsixUnmask_frames {f : Fin 9} {w : VecWrite} {s : State} : FramesN 524416 s (execMsixUnmask f w s) := by
  unfold execMsixUnmask
  try dsimp only
  repeat' first
    | with_reducible apply Frames.refl
    | with_reducible assumption
    | (show _ = _; rfl)
    | with_reducible apply FramesN.powered
    | with_reducible apply Frames.step (g := vecPending_frames)
    | with_reducible apply Frames.step (g := setVec_frames)
    | with_reducible apply Frames.ite
    | split
    | dsimp only

theorem pageWrite_frames {s : State} {f : Fin 9} {p : Page} : Frames 128 s (pageWrite s f p) := by
  unfold pageWrite
  try dsimp only
  repeat' first
    | with_reducible apply Frames.refl
    | with_reducible assumption
    | (show _ = _; rfl)
    | with_reducible apply Frames.step (g := updFunc_frames)
    | with_reducible apply Frames.ite
    | split
    | dsimp only

theorem execStatusPageUpdate_frames {f : Fin 9} {s : State} : FramesN 128 s (execStatusPageUpdate f s) := by
  unfold execStatusPageUpdate
  try dsimp only
  repeat' first
    | with_reducible apply Frames.refl
    | with_reducible assumption
    | (show _ = _; rfl)
    | with_reducible apply FramesN.powered
    | with_reducible apply Frames.step (g := pageWrite_frames)
    | with_reducible apply Frames.ite
    | split
    | dsimp only

theorem execStatusPageWrite_frames {f : Fin 9} {s : State} : FramesN 16384 s (execStatusPageWrite f s) := by
  unfold execStatusPageWrite
  try dsimp only
  repeat' first
    | with_reducible apply Frames.refl
    | with_reducible assumption
    | (show _ = _; rfl)
    | with_reducible apply FramesN.powered
    | with_reducible apply Frames.step (g := ctrAdd_frames)

theorem bar2Reject_frames {s : State} {f : Fin 9} {aer : Option Nat} : Frames 16512 s (bar2Reject s f aer) := by
  unfold bar2Reject
  try dsimp only
  repeat' first
    | with_reducible apply Frames.refl
    | with_reducible assumption
    | (show _ = _; rfl)
    | with_reducible apply Frames.step (g := ctrAdd_frames)
    | with_reducible apply Frames.step (g := updFunc_frames)
    | split
    | dsimp only

theorem execBar2Read_frames {f : Fin 9} {off : Nat} {len : Nat} {s : State} : FramesN 942272 s (execBar2Read f off len s) := by
  unfold execBar2Read
  try dsimp only
  repeat' first
    | with_reducible apply Frames.refl
    | with_reducible assumption
    | (show _ = _; rfl)
    | with_reducible apply FramesN.powered
    | with_reducible apply Frames.step (g := emit_frames)
    | with_reducible apply Frames.step (g := bar2Reject_frames)
    | with_reducible apply Frames.step (g := ueEventAt_frames)
    | with_reducible apply Frames.step (g := hbmFix_frames)
    | with_reducible apply Frames.step (g := hbmCharge_frames)
    | with_reducible apply Frames.step (g := coarseWaste_frames)
    | with_reducible apply Frames.ite
    | split
    | dsimp only

theorem execBar2Write_frames {f : Fin 9} {off : Nat} {data : List Byte} {poisoned : Bool} {s : State} : FramesN 942272 s (execBar2Write f off data poisoned s) := by
  unfold execBar2Write
  try dsimp only
  repeat' first
    | with_reducible apply Frames.refl
    | with_reducible assumption
    | (show _ = _; rfl)
    | with_reducible apply FramesN.powered
    | with_reducible apply Frames.step (g := bar2Reject_frames)
    | with_reducible apply Frames.step (g := ctrAdd_frames)
    | with_reducible apply Frames.step (g := ueEventAt_frames)
    | with_reducible apply Frames.step (g := hbmTraffic_frames)
    | with_reducible apply Frames.step (g := hbmWriteP_frames)
    | with_reducible apply Frames.ite
    | split
    | dsimp only

theorem haltStream_frames {s : State} {f : Fin 9} {q : Nat} {h : Halt} {detail : Nat} : Frames 532608 s (haltStream s f q h detail) := by
  unfold haltStream
  try dsimp only
  repeat' first
    | with_reducible apply Frames.refl
    | with_reducible assumption
    | (show _ = _; rfl)
    | with_reducible apply Frames.step (g := updStream_frames)
    | with_reducible apply Frames.step (g := raiseEvent_frames)
    | with_reducible apply Frames.step (g := notify_frames)
    | with_reducible apply Frames.ite
    | split
    | dsimp only

theorem writeAccept_frames {s : State} {f : Fin 9} {q : Nat} : Frames 532608 s (writeAccept s f q) := by
  unfold writeAccept
  try dsimp only
  repeat' first
    | with_reducible apply Frames.refl
    | with_reducible assumption
    | (show _ = _; rfl)
    | with_reducible apply Frames.step (g := hostWrite_frames)
    | with_reducible apply Frames.step (g := haltStream_frames)
    | with_reducible apply Frames.ite
    | split
    | dsimp only

theorem enableStream_frames {s : State} {f : Fin 9} {q : Nat} : Frames 128 s (enableStream s f q) := by
  unfold enableStream
  try dsimp only
  repeat' first
    | with_reducible apply Frames.refl
    | with_reducible assumption
    | (show _ = _; rfl)
    | with_reducible apply Frames.step (g := updStream_frames)
    | with_reducible apply Frames.ite
    | split
    | dsimp only

theorem disableStream_frames {s : State} {f : Fin 9} {q : Nat} : Frames 128 s (disableStream s f q) := by
  unfold disableStream
  try dsimp only
  repeat' first
    | with_reducible apply Frames.refl
    | with_reducible assumption
    | (show _ = _; rfl)
    | with_reducible apply Frames.step (g := updStream_frames)
    | with_reducible apply Frames.ite
    | split
    | dsimp only

theorem rewriteOwed_frames {s : State} {f : Fin 9} {q : Nat} : Frames 532608 s (rewriteOwed s f q) := by
  unfold rewriteOwed
  try dsimp only
  repeat' first
    | with_reducible apply Frames.refl
    | with_reducible assumption
    | (show _ = _; rfl)
    | with_reducible apply Frames.step (g := writeAccept_frames)
    | with_reducible apply Frames.step (g := hostWrite_frames)
    | with_reducible apply Frames.step (g := haltStream_frames)
    | ((with_reducible apply Frames.foldl) <;> [skip; intro _ _ _])
    | ((with_reducible apply Frames.foldl_fst) <;> [skip; intro _ _ _])
    | ((with_reducible apply Frames.foldl_snd) <;> [skip; intro _ _ _])
    | with_reducible apply Frames.ite
    | split
    | with_reducible refine Frames.of_fst (by with_reducible assumption) ?_
    | with_reducible refine Frames.of_snd (by with_reducible assumption) ?_
    | dsimp only

theorem resumeStream_frames {s : State} {f : Fin 9} {q : Nat} : Frames 532608 s (resumeStream s f q) := by
  unfold resumeStream
  try dsimp only
  repeat' first
    | with_reducible apply Frames.refl
    | with_reducible assumption
    | (show _ = _; rfl)
    | with_reducible apply Frames.step (g := rewriteOwed_frames)
    | with_reducible apply Frames.step (g := enableStream_frames)

theorem streamControl_frames {s : State} {f : Fin 9} {q : Nat} {v : Nat} : FramesO 532608 s (streamControl s f q v) := by
  unfold streamControl
  try dsimp only
  repeat' first
    | with_reducible apply Frames.refl
    | with_reducible assumption
    | with_reducible apply FramesO.none
    | (show _ = _; rfl)
    | with_reducible apply FramesO.some
    | with_reducible apply Frames.step (g := enableStream_frames)
    | with_reducible apply Frames.step (g := disableStream_frames)
    | with_reducible apply Frames.step (g := resumeStream_frames)
    | with_reducible apply Frames.ite
    | with_reducible apply FramesO.ite
    | split
    | ((with_reducible apply FramesO.of) <;> intro _)
    | (intro t e; cases e)
    | dsimp only

theorem execStreamEnable_frames {f : Fin 9} {q : Fin 64} {s : State} : FramesN 532608 s (execStreamEnable f q s) := by
  unfold execStreamEnable
  try dsimp only
  repeat' first
    | with_reducible apply Frames.refl
    | with_reducible assumption
    | (show _ = _; rfl)
    | with_reducible apply FramesN.powered
    | with_reducible apply FramesO.step (g := streamControl_frames)
    | with_reducible refine Frames.of_some (by with_reducible assumption) (FramesO.step ?_ streamControl_frames ?_)
    | with_reducible apply FramesO.getD
    | ((with_reducible apply FramesO.of) <;> intro _)

theorem execStreamDisable_frames {f : Fin 9} {q : Fin 64} {s : State} : FramesN 532608 s (execStreamDisable f q s) := by
  unfold execStreamDisable
  try dsimp only
  repeat' first
    | with_reducible apply Frames.refl
    | with_reducible assumption
    | (show _ = _; rfl)
    | with_reducible apply FramesN.powered
    | with_reducible apply FramesO.step (g := streamControl_frames)
    | with_reducible refine Frames.of_some (by with_reducible assumption) (FramesO.step ?_ streamControl_frames ?_)
    | with_reducible apply FramesO.getD
    | ((with_reducible apply FramesO.of) <;> intro _)

theorem execStreamResume_frames {f : Fin 9} {q : Fin 64} {s : State} : FramesN 532608 s (execStreamResume f q s) := by
  unfold execStreamResume
  try dsimp only
  repeat' first
    | with_reducible apply Frames.refl
    | with_reducible assumption
    | (show _ = _; rfl)
    | with_reducible apply FramesN.powered
    | with_reducible apply FramesO.step (g := streamControl_frames)
    | with_reducible refine Frames.of_some (by with_reducible assumption) (FramesO.step ?_ streamControl_frames ?_)
    | with_reducible apply FramesO.getD
    | ((with_reducible apply FramesO.of) <;> intro _)

theorem bootstrapWrite_frames {s : State} {f : Fin 9} {cap : BitVec 256} : Frames 548992 s (bootstrapWrite s f cap) := by
  unfold bootstrapWrite
  try dsimp only
  repeat' first
    | with_reducible apply Frames.refl
    | with_reducible assumption
    | (show _ = _; rfl)
    | with_reducible apply Frames.step (g := ctrAdd_frames)
    | with_reducible apply Frames.step (g := refuse_frames)
    | with_reducible apply Frames.step (g := updFunc_frames)
    | with_reducible apply Frames.step (g := enableStream_frames)
    | with_reducible apply Frames.step (g := resumeStream_frames)
    | with_reducible apply Frames.ite
    | split
    | dsimp only

theorem controlsWrite_frames {s : State} {f : Fin 9} {c : FnCfg} : Frames 524416 s (controlsWrite s f c) := by
  unfold controlsWrite
  try dsimp only
  repeat' first
    | with_reducible apply Frames.refl
    | with_reducible assumption
    | (show _ = _; rfl)
    | with_reducible apply Frames.step (g := updFunc_frames)
    | with_reducible apply Frames.step (g := vecPending_frames)
    | ((with_reducible apply Frames.foldl) <;> [skip; intro _ _ _])
    | ((with_reducible apply Frames.foldl_fst) <;> [skip; intro _ _ _])
    | ((with_reducible apply Frames.foldl_snd) <;> [skip; intro _ _ _])
    | with_reducible apply Frames.ite
    | split
    | with_reducible refine Frames.of_fst (by with_reducible assumption) ?_
    | with_reducible refine Frames.of_snd (by with_reducible assumption) ?_
    | dsimp only

theorem execBootstrapEnableSet_frames {f : Fin 9} {w : CfgWrite} {s : State} : FramesN 548992 s (execBootstrapEnableSet f w s) := by
  unfold execBootstrapEnableSet
  try dsimp only
  repeat' first
    | with_reducible apply Frames.refl
    | with_reducible assumption
    | (show _ = _; rfl)
    | with_reducible apply FramesN.powered
    | with_reducible apply Frames.step (g := emit_frames)
    | with_reducible apply Frames.step (g := bootstrapWrite_frames)
    | with_reducible apply Frames.step (g := controlsWrite_frames)
    | with_reducible apply Frames.step (g := updFunc_frames)
    | with_reducible apply Frames.ite
    | split
    | dsimp only

theorem execBootstrapEnableClear_frames {f : Fin 9} {s : State} : FramesN 524416 s (execBootstrapEnableClear f s) := by
  unfold execBootstrapEnableClear
  try dsimp only
  repeat' first
    | with_reducible apply Frames.refl
    | with_reducible assumption
    | (show _ = _; rfl)
    | with_reducible apply FramesN.powered
    | with_reducible apply Frames.step (g := emit_frames)
    | with_reducible apply Frames.step (g := updFunc_frames)
    | with_reducible apply Frames.step (g := disableStream_frames)
    | with_reducible apply Frames.ite
    | split
    | dsimp only

/-! ## Trowel -/

theorem noteSeed_frames {s : State} {u : UnitCmd} : Frames 1024 s (noteSeed s u) := by
  unfold noteSeed
  try dsimp only
  repeat' first
    | with_reducible apply Frames.refl
    | with_reducible assumption
    | (show _ = _; rfl)
    | ((with_reducible apply updAttempt_step) <;> [skip; rfl; (intro a h; first | exact h | exact attOk_ite h h | (split <;> exact h))])
    | with_reducible apply Frames.ite
    | split
    | dsimp only

theorem setTrowelHead_frames {s : State} {n : Fin 8} {g : UnitCmd → UnitCmd} : Frames 8 s (setTrowelHead s n g) := by
  unfold setTrowelHead
  try dsimp only
  repeat' first
    | with_reducible apply Frames.refl
    | with_reducible assumption
    | (show _ = _; rfl)
    | with_reducible apply Frames.step (g := updTrowel_frames)
    | split
    | dsimp only

theorem goTrowel_frames {s : State} {n : Fin 8} : Frames 279582 s (goTrowel s n) := by
  unfold goTrowel
  try dsimp only
  repeat' first
    | with_reducible apply Frames.refl
    | with_reducible assumption
    | (show _ = _; rfl)
    | with_reducible apply Frames.step (g := setTrowelHead_frames)
    | with_reducible apply Frames.step (g := waitSpent_frames)
    | with_reducible apply Frames.step (g := rejectCount_frames)
    | with_reducible apply Frames.step (g := noteSeed_frames)
    | with_reducible apply Frames.step (g := tilesTake_frames)
    | with_reducible apply Frames.step (g := palletUeEvent_frames)
    | with_reducible apply Frames.step (g := palletWriteL_frames)
    | with_reducible apply Frames.step (g := palletFix_frames)
    | with_reducible apply Frames.step (g := evAdd_frames)
    | with_reducible apply Frames.ite
    | split
    | dsimp only

theorem trowelPort_frames {s : State} {w : Who} {n : Fin 8} {c : Cmd} : Frames 949982 s (trowelPort s w n c) := by
  unfold trowelPort
  try dsimp only
  repeat' first
    | with_reducible apply Frames.refl
    | with_reducible assumption
    | (show _ = _; rfl)
    | with_reducible apply Frames.step (g := castReady_frames)
    | ((with_reducible apply issueStore_step) <;> [skip; (intro _ _ _ _ _; try dsimp only); skip])
    | with_reducible apply Frames.step (g := retireUnit_frames)
    | with_reducible apply Frames.step (g := updCourse_frames)
    | with_reducible apply Frames.step (g := goTrowel_frames)
    | with_reducible apply Frames.step (g := updTrowel_frames)
    | with_reducible apply Frames.ite
    | split
    | dsimp only

theorem execVop_frames {w : Who} {n : Fin 8} {c : Cmd} {s : State} : FramesN 949982 s (execVop w n c s) := by
  unfold execVop
  try dsimp only
  repeat' first
    | with_reducible apply Frames.refl
    | with_reducible assumption
    | (show _ = _; rfl)
    | with_reducible apply FramesN.powered
    | with_reducible apply Frames.step (g := trowelPort_frames)

theorem execVred_frames {w : Who} {n : Fin 8} {c : Cmd} {s : State} : FramesN 949982 s (execVred w n c s) := by
  unfold execVred
  try dsimp only
  repeat' first
    | with_reducible apply Frames.refl
    | with_reducible assumption
    | (show _ = _; rfl)
    | with_reducible apply FramesN.powered
    | with_reducible apply Frames.step (g := trowelPort_frames)

theorem execVcvt_frames {w : Who} {n : Fin 8} {c : Cmd} {s : State} : FramesN 949982 s (execVcvt w n c s) := by
  unfold execVcvt
  try dsimp only
  repeat' first
    | with_reducible apply Frames.refl
    | with_reducible assumption
    | (show _ = _; rfl)
    | with_reducible apply FramesN.powered
    | with_reducible apply Frames.step (g := trowelPort_frames)

theorem execTrowelRetire_frames {n : Fin 8} {s : State} : FramesN 982750 s (execTrowelRetire n s) := by
  unfold execTrowelRetire
  try dsimp only
  repeat' first
    | with_reducible apply Frames.refl
    | with_reducible assumption
    | (show _ = _; rfl)
    | with_reducible apply FramesN.powered
    | with_reducible apply Frames.step (g := updTrowel_frames)
    | with_reducible apply Frames.step (g := stallAdd_frames)
    | with_reducible apply Frames.step (g := ctrAdd_frames)
    | with_reducible apply Frames.step (g := retireUnit_frames)
    | with_reducible apply Frames.step (g := tilesGive_frames)
    | with_reducible apply Frames.step (g := castReady_frames)
    | with_reducible apply Frames.step (g := goCourse_frames)
    | with_reducible apply Frames.step (g := goTrowel_frames)
    | with_reducible apply Frames.step (g := laneGap_frames)
    | with_reducible apply Frames.ite
    | split
    | dsimp only

theorem freeTrowel_frames {s : State} {n : Fin 8} : Frames 279582 s (freeTrowel s n) := by
  unfold freeTrowel
  try dsimp only
  repeat' first
    | with_reducible apply Frames.refl
    | with_reducible assumption
    | (show _ = _; rfl)
    | with_reducible apply Frames.step (g := goTrowel_frames)
    | with_reducible apply Frames.step (g := setTrowelHead_frames)
    | with_reducible apply Frames.step (g := stallAdd_frames)
    | with_reducible apply Frames.ite
    | split
    | dsimp only

theorem execTileInterlockRelease_frames {n : Fin 8} {h : Fin 64} {s : State} : FramesN 949982 s (execTileInterlockRelease n h s) := by
  unfold execTileInterlockRelease
  try dsimp only
  repeat' first
    | with_reducible apply Frames.refl
    | with_reducible assumption
    | (show _ = _; rfl)
    | with_reducible apply FramesN.powered
    | with_reducible apply Frames.step (g := freeCourse_frames)
    | with_reducible apply Frames.step (g := castReady_frames)
    | with_reducible apply Frames.step (g := freeTrowel_frames)
    | with_reducible apply Frames.ite
    | split
    | dsimp only

theorem execPalletBankSubstitution_frames {n : Fin 8} {b : Fin 128} {s : State} : FramesN 189462 s (execPalletBankSubstitution n b s) := by
  unfold execPalletBankSubstitution
  try dsimp only
  repeat' first
    | with_reducible apply Frames.refl
    | with_reducible assumption
    | (show _ = _; rfl)
    | with_reducible apply FramesN.powered
    | with_reducible apply Frames.step (g := courseOut_frames)
    | ((with_reducible apply updPallet_step) <;> [skip; rfl; (intro hp; first | exact hp | exact writeL_wf _ _ hp | rfl)])
    | with_reducible apply Frames.step (g := genBump_frames)
    | with_reducible apply Frames.step (g := repairDone_frames)
    | with_reducible apply Frames.step (g := pointLog_frames)
    | with_reducible apply Frames.step (g := cardPoint_frames)
    | with_reducible apply FramesO.getD
    | split
    | ((with_reducible apply FramesO.of) <;> intro _)
    | dsimp only

/-! ## Hod -/

theorem gsAddends_frames {s : State} {f : Fin 9} {p : Option (Fin 8)} {u : UnitCmd} {n : Fin 8} : Frames 2 s (gsAddends s f p u n).2 := by
  unfold gsAddends
  try dsimp only
  repeat' first
    | with_reducible apply Frames.refl
    | with_reducible assumption
    | (show _ = _; rfl)
    | fail_if_no_progress ((with_reducible apply Frames.set_free) <;> [skip; rfl])
    | with_reducible apply Frames.ite
    | split
    | dsimp only

theorem gsAdds_frames {s : State} {f : Fin 9} {p : Option (Fin 8)} {n : Nat} {d : Cmd} {l : List ((Nat × Nat) × Nat)} : Frames 212 s (gsAdds s f p n d l).1 := by
  unfold gsAdds
  try dsimp only
  repeat' first
    | with_reducible apply Frames.refl
    | with_reducible assumption
    | (show _ = _; rfl)
    | with_reducible apply Frames.step (g := spaceWriteL_frames)
    | ((with_reducible apply Frames.foldl) <;> [skip; intro _ _ _])
    | ((with_reducible apply Frames.foldl_fst) <;> [skip; intro _ _ _])
    | split
    | dsimp only

theorem hodEffect_frames {s : State} {h : Fin 16} {u : UnitCmd} : Frames 214 s (hodEffect s h u).1 := by
  unfold hodEffect
  try dsimp only
  repeat' first
    | with_reducible apply Frames.refl
    | with_reducible assumption
    | (show _ = _; rfl)
    | with_reducible apply Frames.step (g := hbmAdds_frames)
    | with_reducible apply Frames.step (g := spaceWriteL_frames)
    | with_reducible apply Frames.step (g := gsAddends_frames)
    | with_reducible apply Frames.step (g := gsAdds_frames)
    | with_reducible apply Frames.ite
    | split
    | with_reducible refine Frames.of_fst (by with_reducible assumption) ?_
    | with_reducible refine Frames.of_snd (by with_reducible assumption) ?_
    | dsimp only

theorem hodPartly_frames {s t : State} {h : Fin 16} {u : UnitCmd} : Frames 214 t (hodPartly s t h u) := by
  unfold hodPartly
  repeat' first
    | with_reducible apply Frames.refl
    | with_reducible assumption
    | (show _ = _; rfl)
    | with_reducible apply Frames.step (g := spaceWriteL_frames)
    | with_reducible apply Frames.step (g := someOf_frames)
    | split
    | with_reducible refine Frames.of_snd (by with_reducible assumption) ?_
    | dsimp only

theorem setHodHead_frames {s : State} {h : Fin 16} {g : UnitCmd → UnitCmd} : Frames 32 s (setHodHead s h g) := by
  unfold setHodHead
  try dsimp only
  repeat' first
    | with_reducible apply Frames.refl
    | with_reducible assumption
    | (show _ = _; rfl)
    | with_reducible apply Frames.step (g := updHod_frames)
    | split
    | dsimp only

theorem hodCount_frames {s : State} {h : Fin 16} {u : UnitCmd} {r : Res} : Frames 16384 s (hodCount s h u r) := by
  unfold hodCount
  try dsimp only
  repeat' first
    | with_reducible apply Frames.refl
    | with_reducible assumption
    | (show _ = _; rfl)
    | with_reducible apply Frames.step (g := ctrAdd_frames)
    | with_reducible apply Frames.ite
    | split
    | dsimp only

theorem hodAccount_frames {s : State} {h : Fin 16} {u : UnitCmd} {rs ws : List Nat} {moved : Nat} : Frames 802880 s (hodAccount s h u rs ws moved) := by
  unfold hodAccount
  try dsimp only
  repeat' first
    | with_reducible apply Frames.refl
    | with_reducible assumption
    | (show _ = _; rfl)
    | with_reducible apply Frames.step (g := hbmCharge_frames)
    | with_reducible apply Frames.step (g := coarseWaste_frames)
    | with_reducible apply Frames.step (g := ctrAdd_frames)
    | with_reducible apply Frames.step (g := evAdd_frames)
    | with_reducible apply Frames.ite
    | split
    | dsimp only

theorem goHod_frames {s : State} {h : Fin 16} : Frames 943350 s (goHod s h) := by
  unfold goHod
  try dsimp only
  repeat' first
    | with_reducible apply Frames.refl
    | with_reducible assumption
    | (show _ = _; rfl)
    | with_reducible apply Frames.step (g := setHodHead_frames)
    | with_reducible apply Frames.step (g := waitSpent_frames)
    | with_reducible apply Frames.step (g := hodCount_frames)
    | with_reducible apply Frames.step (g := evAdd_frames)
    | with_reducible apply Frames.step (g := tilesTake_frames)
    | with_reducible apply Frames.step (g := undoSave_frames)
    | with_reducible apply Frames.step (g := palletUeEvent_frames)
    | with_reducible apply Frames.step (g := ueEventAt_frames)
    | with_reducible apply Frames.step (g := hodEffect_frames)
    | with_reducible apply Frames.step (g := someFlags_frames)
    | with_reducible apply Frames.step (g := hodPartly_frames)
    | with_reducible apply Frames.step (g := spaceFix_frames)
    | with_reducible apply Frames.step (g := hodAccount_frames)
    | with_reducible apply Frames.step (g := atcUse_frames)
    | with_reducible apply Frames.ite
    | split
    | with_reducible refine Frames.of_fst (by with_reducible assumption) ?_
    | with_reducible refine Frames.of_snd (by with_reducible assumption) ?_
    | dsimp only

theorem enqueueHod_frames {s : State} {h : Fin 16} {u : UnitCmd} : Frames 943350 s (enqueueHod s h u) := by
  unfold enqueueHod
  try dsimp only
  repeat' first
    | with_reducible apply Frames.refl
    | with_reducible assumption
    | (show _ = _; rfl)
    | with_reducible apply Frames.step (g := goHod_frames)
    | with_reducible apply Frames.step (g := updHod_frames)
    | with_reducible apply Frames.ite
    | split
    | dsimp only

theorem hodPort_frames {s : State} {w : Who} {h : Fin 16} {c : Cmd} : Frames 950006 s (hodPort s w h c) := by
  unfold hodPort
  try dsimp only
  repeat' first
    | with_reducible apply Frames.refl
    | with_reducible assumption
    | (show _ = _; rfl)
    | with_reducible apply Frames.step (g := castReady_frames)
    | ((with_reducible apply issueStore_step) <;> [skip; (intro _ _ _ _ _; try dsimp only); skip])
    | with_reducible apply Frames.step (g := retireUnit_frames)
    | with_reducible apply Frames.step (g := enqueueHod_frames)
    | with_reducible apply Frames.ite
    | split
    | dsimp only

theorem execCopy_frames {w : Who} {h : Fin 16} {c : Cmd} {s : State} : FramesN 950006 s (execCopy w h c s) := by
  unfold execCopy
  try dsimp only
  repeat' first
    | with_reducible apply Frames.refl
    | with_reducible assumption
    | (show _ = _; rfl)
    | with_reducible apply FramesN.powered
    | with_reducible apply Frames.step (g := hodPort_frames)

theorem execCopyAdd_frames {w : Who} {h : Fin 16} {c : Cmd} {s : State} : FramesN 950006 s (execCopyAdd w h c s) := by
  unfold execCopyAdd
  try dsimp only
  repeat' first
    | with_reducible apply Frames.refl
    | with_reducible assumption
    | (show _ = _; rfl)
    | with_reducible apply FramesN.powered
    | with_reducible apply Frames.step (g := hodPort_frames)

theorem execGather_frames {w : Who} {h : Fin 16} {c : Cmd} {s : State} : FramesN 950006 s (execGather w h c s) := by
  unfold execGather
  try dsimp only
  repeat' first
    | with_reducible apply Frames.refl
    | with_reducible assumption
    | (show _ = _; rfl)
    | with_reducible apply FramesN.powered
    | with_reducible apply Frames.step (g := hodPort_frames)

theorem execScatter_frames {w : Who} {h : Fin 16} {c : Cmd} {s : State} : FramesN 950006 s (execScatter w h c s) := by
  unfold execScatter
  try dsimp only
  repeat' first
    | with_reducible apply Frames.refl
    | with_reducible assumption
    | (show _ = _; rfl)
    | with_reducible apply FramesN.powered
    | with_reducible apply Frames.step (g := hodPort_frames)

theorem execAddscatter_frames {w : Who} {h : Fin 16} {c : Cmd} {s : State} : FramesN 950006 s (execAddscatter w h c s) := by
  unfold execAddscatter
  try dsimp only
  repeat' first
    | with_reducible apply Frames.refl
    | with_reducible assumption
    | (show _ = _; rfl)
    | with_reducible apply FramesN.powered
    | with_reducible apply Frames.step (g := hodPort_frames)

theorem entryWritten_frames {s : State} {f : Fin 9} {i : Nat} {d : BitVec 256} : Frames 160 s (entryWritten s f i d) := by
  unfold entryWritten
  try dsimp only
  repeat' first
    | with_reducible apply Frames.refl
    | with_reducible assumption
    | (show _ = _; rfl)
    | with_reducible apply Frames.step (g := updFunc_frames)
    | fail_if_no_progress ((with_reducible apply Frames.set_hods) <;> [skip; rfl])
    | with_reducible apply Frames.ite
    | split
    | dsimp only

theorem doRegionWrites_frames {s : State} {f : Fin 9} : Frames 160 s (doRegionWrites s f) := by
  unfold doRegionWrites
  try dsimp only
  repeat' first
    | with_reducible apply Frames.refl
    | with_reducible assumption
    | (show _ = _; rfl)
    | with_reducible apply Frames.step (g := entryWritten_frames)
    | with_reducible apply Frames.step (g := updFunc_frames)
    | ((with_reducible apply Frames.foldl) <;> [skip; intro _ _ _])
    | ((with_reducible apply Frames.foldl_fst) <;> [skip; intro _ _ _])
    | ((with_reducible apply Frames.foldl_snd) <;> [skip; intro _ _ _])
    | with_reducible apply Frames.ite
    | split
    | with_reducible refine Frames.of_fst (by with_reducible assumption) ?_
    | with_reducible refine Frames.of_snd (by with_reducible assumption) ?_
    | dsimp only

theorem freeHods_frames {s : State} : Frames 943350 s (freeHods s) := by
  unfold freeHods
  try dsimp only
  repeat' first
    | with_reducible apply Frames.refl
    | with_reducible assumption
    | (show _ = _; rfl)
    | with_reducible apply Frames.step (g := goHod_frames)
    | with_reducible apply Frames.step (g := setHodHead_frames)
    | ((with_reducible apply Frames.foldl) <;> [skip; intro _ _ _])
    | ((with_reducible apply Frames.foldl_fst) <;> [skip; intro _ _ _])
    | ((with_reducible apply Frames.foldl_snd) <;> [skip; intro _ _ _])
    | with_reducible apply Frames.ite
    | split
    | with_reducible refine Frames.of_fst (by with_reducible assumption) ?_
    | with_reducible refine Frames.of_snd (by with_reducible assumption) ?_
    | dsimp only

theorem execHodRetire_frames {h : Fin 16} {s : State} : FramesN 950006 s (execHodRetire h s) := by
  unfold execHodRetire
  try dsimp only
  repeat' first
    | with_reducible apply Frames.refl
    | with_reducible assumption
    | (show _ = _; rfl)
    | with_reducible apply FramesN.powered
    | with_reducible apply Frames.step (g := updHod_frames)
    | with_reducible apply Frames.step (g := ctrAdd_frames)
    | with_reducible apply Frames.step (g := retireUnit_frames)
    | with_reducible apply Frames.step (g := tilesGive_frames)
    | with_reducible apply Frames.step (g := freeHods_frames)
    | with_reducible apply Frames.step (g := doRegionWrites_frames)
    | with_reducible apply Frames.step (g := doStores_frames)
    | with_reducible apply Frames.step (g := castReady_frames)
    | with_reducible apply Frames.step (g := goHod_frames)
    | with_reducible apply Frames.ite
    | split
    | dsimp only

theorem execHodQueueWait_frames {h : Fin 16} {s : State} : FramesN 950006 s (execHodQueueWait h s) := by
  unfold execHodQueueWait
  try dsimp only
  repeat' first
    | with_reducible apply Frames.refl
    | with_reducible assumption
    | (show _ = _; rfl)
    | with_reducible apply FramesN.powered
    | with_reducible apply Frames.step (g := updHod_frames)
    | with_reducible apply Frames.step (g := fresh_frames)
    | with_reducible apply Frames.step (g := castReady_frames)
    | with_reducible apply Frames.step (g := goHod_frames)
    | with_reducible apply Frames.step (g := ctrAdd_frames)
    | with_reducible apply Frames.ite
    | split
    | with_reducible refine Frames.of_snd (by with_reducible assumption) ?_
    | dsimp only

theorem hodCut_frames {s : State} {h : Fin 16} : Frames 214 s (hodCut s h) := by
  unfold hodCut
  try dsimp only
  repeat' first
    | with_reducible apply Frames.refl
    | with_reducible assumption
    | (show _ = _; rfl)
    | with_reducible apply Frames.step (g := someOf_frames)
    | with_reducible apply Frames.step (g := spaceWriteL_frames)
    | with_reducible apply Frames.ite
    | split
    | with_reducible refine Frames.of_snd (by with_reducible assumption) ?_
    | dsimp only

theorem hodPartFault_frames {s : State} {h : Fin 16} : Frames 950006 s (hodPartFault s h) := by
  unfold hodPartFault
  try dsimp only
  repeat' first
    | with_reducible apply Frames.refl
    | with_reducible assumption
    | (show _ = _; rfl)
    | with_reducible apply Frames.step (g := someFlags_frames)
    | with_reducible apply Frames.step (g := hodCut_frames)
    | with_reducible apply Frames.step (g := setHodHead_frames)
    | with_reducible apply Frames.step (g := ctrAdd_frames)
    | with_reducible apply Frames.step (g := castReady_frames)
    | with_reducible apply Frames.step (g := goHod_frames)
    | with_reducible apply Frames.ite
    | split
    | with_reducible refine Frames.of_snd (by with_reducible assumption) ?_
    | dsimp only

theorem execHodPartFault_frames {h : Fin 16} {s : State} : FramesN 950006 s (execHodPartFault h s) := by
  unfold execHodPartFault
  try dsimp only
  repeat' first
    | with_reducible apply Frames.refl
    | with_reducible assumption
    | (show _ = _; rfl)
    | with_reducible apply FramesN.powered
    | with_reducible apply Frames.step (g := hodPartFault_frames)

theorem releaseUnits_frames {s : State} {n : Fin 8} : Frames 950014 s (releaseUnits s n) := by
  unfold releaseUnits
  try dsimp only
  repeat' first
    | with_reducible apply Frames.refl
    | with_reducible assumption
    | (show _ = _; rfl)
    | with_reducible apply Frames.step (g := goTrowel_frames)
    | with_reducible apply Frames.step (g := setTrowelHead_frames)
    | with_reducible apply Frames.step (g := goHod_frames)
    | with_reducible apply Frames.step (g := setHodHead_frames)
    | with_reducible apply Frames.step (g := castReady_frames)
    | ((with_reducible apply Frames.foldl) <;> [skip; intro _ _ _])
    | with_reducible apply Frames.ite
    | split
    | dsimp only

theorem writeHostRegion_frames {s : State} {f : Fin 9} {i : Nat} {d : BitVec 256} : Frames 128 s (writeHostRegion s f i d) := by
  unfold writeHostRegion
  try dsimp only
  repeat' first
    | with_reducible apply Frames.refl
    | with_reducible assumption
    | (show _ = _; rfl)
    | with_reducible apply Frames.step (g := updFunc_frames)
    | with_reducible apply Frames.ite
    | split
    | dsimp only

theorem execAtsInvalidation_frames {f : Fin 9} {io : IoPlace} {page : Option Nat} {s : State} : FramesN 524416 s (execAtsInvalidation f io page s) := by
  unfold execAtsInvalidation
  try dsimp only
  repeat' first
    | with_reducible apply Frames.refl
    | with_reducible assumption
    | (show _ = _; rfl)
    | with_reducible apply FramesN.powered
    | with_reducible apply Frames.step (g := updFunc_frames)
    | with_reducible apply Frames.step (g := emit_frames)
    | with_reducible apply Frames.ite
    | split
    | dsimp only

end Sys2Proof.Machine
end

