-- ==== Sys2Proof/Laws/FramesNet.lean ====
section
/-! SUPPORT. What each function of the state may change, in the terms of Frames: function resets, streams, entries and Rigger. -/

set_option linter.all false

namespace Sys2Proof.Machine

open Sys2Proof

/-! ## FuncReset -/

theorem freeTiles_frames {s : State} : Frames 2 s (freeTiles s).2 := by
  unfold freeTiles
  try dsimp only
  repeat' first
    | with_reducible apply Frames.refl
    | with_reducible assumption
    | (show _ = _; rfl)
    | dsimp only
    | with_reducible apply Frames.set_free

theorem courseLost_frames {s : State} {n : Fin 8} : Frames 16446 s (courseLost s n) := by
  unfold courseLost
  try dsimp only
  repeat' first
    | with_reducible apply Frames.refl
    | with_reducible assumption
    | (show _ = _; rfl)
    | with_reducible apply Frames.step (g := freshGen_frames)
    | with_reducible apply Frames.step (g := freeTiles_frames)
    | with_reducible apply Frames.step (g := updCourse_frames)
    | with_reducible apply Frames.step (g := updTrowel_frames)
    | ((with_reducible apply updPallet_step) <;> [skip; rfl; (intro hp; first | exact hp | exact writeL_wf _ _ hp | rfl)])
    | with_reducible apply Frames.step (g := updHod_frames)
    | with_reducible apply Frames.step (g := genBump_frames)
    | split
    | with_reducible refine Frames.of_snd (by with_reducible assumption) ?_
    | dsimp only

theorem courseZeroed_frames {s : State} {n : Fin 8} : Frames 278590 s (courseZeroed s n) := by
  unfold courseZeroed
  try dsimp only
  repeat' first
    | with_reducible apply Frames.refl
    | with_reducible assumption
    | (show _ = _; rfl)
    | with_reducible apply Frames.step (g := courseLost_frames)
    | with_reducible apply Frames.step (g := updCourse_frames)
    | ((with_reducible apply updPallet_step) <;> [skip; rfl; (intro hp; first | exact hp | exact writeL_wf _ _ hp | rfl)])
    | dsimp only
    | ((with_reducible apply Frames.set_dict_counters) <;> [skip; (first | rfl | exact fun h => h | exact fun h => put_ok _ _ h | exact fun h => memFresh_ok _ h | exact fun h => devFresh_ok h | exact fun h => ⟨h.1, writeN_wf _ _ _ h.2⟩ | exact fun h => writeN_wf _ _ _ h | exact fun h => writeL_wf _ _ h); (first | rfl | exact fun h => h | exact fun h => put_ok _ _ h | exact fun h => memFresh_ok _ h | exact fun h => devFresh_ok h | exact fun h => ⟨h.1, writeN_wf _ _ _ h.2⟩ | exact fun h => writeN_wf _ _ _ h | exact fun h => writeL_wf _ _ h); (first | rfl | exact fun h => h | exact fun h => put_ok _ _ h | exact fun h => memFresh_ok _ h | exact fun h => devFresh_ok h | exact fun h => ⟨h.1, writeN_wf _ _ _ h.2⟩ | exact fun h => writeN_wf _ _ _ h | exact fun h => writeL_wf _ _ h)])
    | ((with_reducible apply Frames.set_counters) <;> [skip; rfl; (first | exact fun h => h | exact fun h => put_ok _ _ h | exact fun h => memFresh_ok _ h | exact fun h => devFresh_ok h | exact fun h => ⟨h.1, writeN_wf _ _ _ h.2⟩ | exact fun h => writeN_wf _ _ _ h | exact fun h => writeL_wf _ _ h)])
    | with_reducible apply Frames.set_dict

theorem crewCleared_frames {s : State} {c : Fin 16} : Frames 163030 s (crewCleared s c) := by
  unfold crewCleared
  try dsimp only
  repeat' first
    | with_reducible apply Frames.refl
    | with_reducible assumption
    | (show _ = _; rfl)
    | ((with_reducible apply updCrew_step) <;> [skip; rfl; (first | exact crewOk_same rfl | exact fun _ => crewOk_none rfl | exact crewOk_map _ rfl (fun _ h => h) | exact crewOk_map _ rfl (fun _ h => attOk_ite h h) | exact fun h => crewOk_ite (crewOk_same rfl h) (crewOk_same rfl h) | exact fun h => crewOk_ite (crewOk_none rfl) (crewOk_same rfl h)| exact fun h => crewOk_ite (crewOk_same rfl h) (crewOk_none rfl))])
    | with_reducible apply Frames.step (g := dissolveCrew_frames)
    | dsimp only

theorem partReset_frames {s : State} {p : Fin 8} : Frames 163070 s (partReset s p) := by
  unfold partReset
  try dsimp only
  repeat' first
    | with_reducible apply Frames.refl
    | with_reducible assumption
    | (show _ = _; rfl)
    | with_reducible apply Frames.step (g := crewCleared_frames)
    | with_reducible apply Frames.step (g := courseLost_frames)
    | with_reducible apply Frames.step (g := updCox_frames)
    | ((with_reducible apply Frames.foldl) <;> [skip; intro _ _ _])
    | dsimp only
    | ((with_reducible apply Frames.set_hbm) <;> [skip; rfl; (first | exact fun h => h | exact fun h => put_ok _ _ h | exact fun h => memFresh_ok _ h | exact fun h => devFresh_ok h | exact fun h => ⟨h.1, writeN_wf _ _ _ h.2⟩ | exact fun h => writeN_wf _ _ _ h | exact fun h => writeL_wf _ _ h)])

theorem funcReset_frames {s : State} {f : Fin 9} : Frames 457982 s (funcReset s f) := by
  unfold funcReset
  extract_lets s1 doms s2 owned counted vals ctr events keep group x1 x2 x3 x4 s3 x5 s4
  have h0 : Frames 457982 s s1 := (Frames.refl _ _).step endOpenOf_frames rfl
  clear_value s1
  have h1 : Frames 457982 s s2 := by
    unfold s2
    split
    · exact h0.step partReset_frames rfl
    · exact h0
  clear_value s2
  have h3 : Frames 457982 s s3 := by
    refine Frames.step (a := 457982) h1 ⟨rfl, id, id, id, id, id, ?_, ?_, ?_, ?_, ?_, ?_, ?_, ?_, ?_, ?_, ?_, ?_, ?_, ?_, ?_, ?_, ?_, ?_, ?_, ?_⟩ (Nat.or_self _) <;> (intro x; first | (exact absurd x (by decide)) | rfl)
  clear_value s3
  have h4 : Frames 457982 s s4 := Frames.step h3 updFunc_frames rfl
  clear_value s4
  exact Frames.foldl h4 fun _ _ h => h.step genBump_frames rfl

theorem execVfFlr_frames {p : Fin 8} {s : State} : FramesN 982782 s (execVfFlr p s) := by
  unfold execVfFlr
  try dsimp only
  repeat' first
    | with_reducible apply Frames.refl
    | with_reducible assumption
    | (show _ = _; rfl)
    | with_reducible apply FramesN.powered
    | with_reducible apply Frames.step (g := castReady_frames)
    | with_reducible apply Frames.step (g := funcReset_frames)
    | dsimp only

theorem execPf0Flr_frames {s : State} : FramesN 982782 s (execPf0Flr s) := by
  unfold execPf0Flr
  try dsimp only
  repeat' first
    | with_reducible apply Frames.refl
    | with_reducible assumption
    | (show _ = _; rfl)
    | with_reducible apply FramesN.powered
    | with_reducible apply Frames.step (g := castReady_frames)
    | with_reducible apply Frames.step (g := funcReset_frames)
    | dsimp only

theorem hotReset_frames {s : State} : Frames 982782 s (hotReset s) := by
  unfold hotReset
  extract_lets u
  have h1 : Frames 982782 s u := Frames.foldl (Frames.refl _ _) fun _ _ h => h.step funcReset_frames rfl
  clear_value u
  refine Frames.step ?_ castReady_frames rfl
  exact Frames.set_host h1 rfl id

theorem execLinkTraining_frames {rate : Fin 6} {lanes : Nat} {flit : Bool} {retimers : Nat} {s : State} : FramesN 982782 s (execLinkTraining rate lanes flit retimers s) := by
  unfold execLinkTraining
  try dsimp only
  repeat' first
    | with_reducible apply Frames.refl
    | with_reducible assumption
    | (show _ = _; rfl)
    | with_reducible apply FramesN.powered
    | with_reducible apply Frames.step (g := ctrAdd_frames)
    | with_reducible apply Frames.step (g := fresh_frames)
    | with_reducible apply Frames.step (g := hotReset_frames)
    | fail_if_no_progress ((with_reducible apply Frames.set_host) <;> [skip; rfl; (first | exact fun h => h | exact fun h => put_ok _ _ h | exact fun h => memFresh_ok _ h | exact fun h => devFresh_ok h | exact fun h => ⟨h.1, writeN_wf _ _ _ h.2⟩ | exact fun h => writeN_wf _ _ _ h | exact fun h => writeL_wf _ _ h)])
    | with_reducible apply Frames.ite
    | split
    | with_reducible refine Frames.of_snd (by with_reducible assumption) ?_
    | dsimp only

theorem execHotReset_frames {s : State} : FramesN 982782 s (execHotReset s) := by
  unfold execHotReset
  try dsimp only
  repeat' first
    | with_reducible apply Frames.refl
    | with_reducible assumption
    | (show _ = _; rfl)
    | with_reducible apply FramesN.powered
    | with_reducible apply Frames.step (g := hotReset_frames)

/-! ## Streams -/

theorem pollAck_frames {s : State} {f : Fin 9} {q : Nat} : Frames 548992 s (pollAck s f q) := by
  unfold pollAck
  try dsimp only
  repeat' first
    | with_reducible apply Frames.refl
    | with_reducible assumption
    | (show _ = _; rfl)
    | with_reducible apply Frames.step (g := haltStream_frames)
    | with_reducible apply Frames.step (g := updStream_frames)
    | with_reducible apply Frames.step (g := ctrAdd_frames)
    | with_reducible apply Frames.ite
    | split
    | dsimp only

theorem pollSlots_frames {k : Nat} {s : State} {x2 : Fin 9} {x3 : Nat} {x4 : Bool} : Frames 548992 s (pollSlots k s x2 x3 x4).1 := by
  induction k generalizing s x2 x3 x4 with
  | zero => exact Frames.refl _ _
  | succ k ih =>
    unfold pollSlots
    repeat' first
      | with_reducible apply Frames.refl
      | with_reducible apply Frames.step (g := ih)
      | with_reducible assumption
      | (show _ = _; rfl)
      | with_reducible apply Frames.step (g := haltStream_frames)
      | with_reducible apply Frames.step (g := updStream_frames)
      | with_reducible apply Frames.step (g := ctrAdd_frames)
      | with_reducible apply Frames.ite
      | split
      | dsimp only

theorem softwareWrites_frames {s : State} {hw : List HostWrite} : Frames 128 s (softwareWrites s hw) := by
  unfold softwareWrites
  try dsimp only
  repeat' first
    | with_reducible apply Frames.refl
    | with_reducible assumption
    | (show _ = _; rfl)
    | with_reducible apply Frames.step (g := hostPut_frames)
    | ((with_reducible apply Frames.foldl) <;> [skip; intro _ _ _])
    | ((with_reducible apply Frames.foldl_fst) <;> [skip; intro _ _ _])
    | ((with_reducible apply Frames.foldl_snd) <;> [skip; intro _ _ _])
    | with_reducible apply Frames.ite
    | split
    | with_reducible refine Frames.of_fst (by with_reducible assumption) ?_
    | with_reducible refine Frames.of_snd (by with_reducible assumption) ?_
    | dsimp only

theorem nextInterval_frames {s : State} {f : Fin 9} {q : Nat} {took changed : Bool} : Frames 128 s (nextInterval s f q took changed) := by
  unfold nextInterval
  try dsimp only
  repeat' first
    | with_reducible apply Frames.refl
    | with_reducible assumption
    | (show _ = _; rfl)
    | with_reducible apply Frames.step (g := updStream_frames)
    | with_reducible apply Frames.ite
    | split
    | dsimp only

theorem execStreamPoll_frames {f : Fin 9} {q : Fin 64} {hw : List HostWrite} {s : State} : FramesN 548992 s (execStreamPoll f q hw s) := by
  unfold execStreamPoll
  try dsimp only
  repeat' first
    | with_reducible apply Frames.refl
    | with_reducible assumption
    | (show _ = _; rfl)
    | with_reducible apply FramesN.powered
    | with_reducible apply Frames.step (g := softwareWrites_frames)
    | with_reducible apply Frames.step (g := updStream_frames)
    | with_reducible apply Frames.step (g := pollAck_frames)
    | with_reducible apply Frames.step (g := pollSlots_frames)
    | with_reducible apply Frames.step (g := nextInterval_frames)
    | with_reducible apply Frames.ite
    | split
    | dsimp only

theorem execCrcStuck_frames {f : Fin 9} {q : Fin 64} {s : State} : FramesN 532609 s (execCrcStuck f q s) := by
  unfold execCrcStuck
  try dsimp only
  repeat' first
    | with_reducible apply Frames.refl
    | with_reducible assumption
    | (show _ = _; rfl)
    | with_reducible apply FramesN.powered
    | with_reducible apply Frames.step (g := haltStream_frames)
    | with_reducible apply Frames.step (g := reach_frames)
    | with_reducible apply Frames.ite
    | split
    | dsimp only

theorem execJournalBurstWrite_frames {f : Fin 9} {q : Fin 64} {s : State} : FramesN 128 s (execJournalBurstWrite f q s) := by
  unfold execJournalBurstWrite
  try dsimp only
  repeat' first
    | with_reducible apply Frames.refl
    | with_reducible assumption
    | (show _ = _; rfl)
    | with_reducible apply FramesN.powered
    | with_reducible apply Frames.step (g := updStream_frames)
    | with_reducible apply Frames.ite
    | split
    | dsimp only

theorem execEntryAccept_frames {f : Fin 9} {q : Fin 64} {s : State} : FramesN 827520 s (execEntryAccept f q s) := by
  unfold execEntryAccept
  try dsimp only
  repeat' first
    | with_reducible apply Frames.refl
    | with_reducible assumption
    | (show _ = _; rfl)
    | with_reducible apply FramesN.powered
    | with_reducible apply Frames.step (g := updStream_frames)
    | with_reducible apply Frames.step (g := evAdd_frames)
    | with_reducible apply Frames.step (g := writeAccept_frames)
    | with_reducible apply Frames.ite
    | split
    | dsimp only
    | with_reducible apply Frames.set_power

theorem execJournalWriteFail_frames {copyB : Bool} {s : State} : FramesN 532864 s (execJournalWriteFail copyB s) := by
  unfold execJournalWriteFail
  try dsimp only
  repeat' first
    | with_reducible apply Frames.refl
    | with_reducible assumption
    | (show _ = _; rfl)
    | with_reducible apply FramesN.powered
    | with_reducible apply Frames.step (g := moduleEvent_frames)
    | with_reducible apply Frames.step (g := haltStream_frames)
    | ((with_reducible apply Frames.foldl) <;> [skip; intro _ _ _])
    | with_reducible apply Frames.ite
    | split
    | dsimp only
    | with_reducible apply Frames.set_journal

theorem execJournalRebuildDone_frames {s : State} : FramesN 155904 s (execJournalRebuildDone s) := by
  unfold execJournalRebuildDone
  try dsimp only
  repeat' first
    | with_reducible apply Frames.refl
    | with_reducible assumption
    | (show _ = _; rfl)
    | with_reducible apply FramesN.powered
    | with_reducible apply Frames.step (g := mapWrite_frames)
    | fail_if_no_progress ((with_reducible apply Frames.set_journal) <;> [skip; rfl])
    | with_reducible apply Frames.ite
    | split
    | dsimp only

theorem fenceLost_frames {s : State} {f : Fin 9} {q : Nat} {e : EntryRun} : Frames 130 s (fenceLost s f q e) := by
  unfold fenceLost
  try dsimp only
  repeat' first
    | with_reducible apply Frames.refl
    | with_reducible assumption
    | (show _ = _; rfl)
    | with_reducible apply Frames.step (g := entryDone_frames)
    | with_reducible apply Frames.ite
    | split
    | dsimp only

theorem stampMark_frames {s : State} {f : Fin 9} {q : Nat} : Frames 128 s (stampMark s f q) := by
  unfold stampMark
  try dsimp only
  repeat' first
    | with_reducible apply Frames.refl
    | with_reducible assumption
    | (show _ = _; rfl)
    | with_reducible apply Frames.step (g := updEntry_frames)
    | with_reducible apply Frames.ite
    | split
    | dsimp only

theorem removalCheck_frames {s : State} : Frames 40960 s (removalCheck s) := by
  unfold removalCheck
  try dsimp only
  repeat' first
    | with_reducible apply Frames.refl
    | with_reducible assumption
    | (show _ = _; rfl)
    | with_reducible apply Frames.step (g := raiseEvent_frames)
    | with_reducible apply Frames.ite
    | split
    | dsimp only
    | with_reducible apply Frames.set_power

theorem execRetirement_frames {f : Fin 9} {q : Fin 64} {s : State} : FramesN 980726 s (execRetirement f q s) := by
  unfold execRetirement
  try dsimp only
  repeat' first
    | with_reducible apply Frames.refl
    | with_reducible assumption
    | (show _ = _; rfl)
    | with_reducible apply FramesN.powered
    | with_reducible apply Frames.step (g := fenceLost_frames)
    | with_reducible apply Frames.step (g := haltStream_frames)
    | with_reducible apply Frames.step (g := hostWrite_frames)
    | with_reducible apply Frames.step (g := updStream_frames)
    | with_reducible apply Frames.step (g := evAdd_frames)
    | with_reducible apply Frames.step (g := ownerSignal_frames)
    | with_reducible apply Frames.step (g := signalEv_frames)
    | with_reducible apply Frames.step (g := stampMark_frames)
    | with_reducible apply Frames.step (g := freeHods_frames)
    | with_reducible apply Frames.step (g := doRegionWrites_frames)
    | with_reducible apply Frames.step (g := passBoundary_frames)
    | with_reducible apply Frames.step (g := removalCheck_frames)
    | with_reducible apply Frames.step (g := notify_frames)
    | with_reducible apply Frames.ite
    | split
    | dsimp only

theorem finishNow_frames {s : State} {f : Fin 9} {q : Nat} {e : EntryRun} {res : Res} : Frames 130 s (finishNow s f q e res) := by
  unfold finishNow
  try dsimp only
  repeat' first
    | with_reducible apply Frames.refl
    | with_reducible assumption
    | (show _ = _; rfl)
    | with_reducible apply Frames.step (g := entryDone_frames)
    | with_reducible apply Frames.step (g := entryStart_frames)

theorem startEntry_step {m : Nat} {r s : State} {f : Fin 9} {q op : Nat} {rsv : List (Nat × Nat)} {go : EntryRun → State} (hs : Frames m r s)
    (hgo : ∀ e, Frames m r (go e)) (hm : 130 ||| m = m) : Frames m r (startEntry s f q op rsv go) := by
  unfold startEntry
  split
  · exact hs
  · refine Frames.ite hs (Frames.ite ?_ (Frames.ite ?_ (Frames.ite hs (hgo _))))
    · exact hs.step (finishNow_frames.mono (m := 130) rfl) hm
    · exact hs.step (finishNow_frames.mono (m := 130) rfl) hm

theorem execEventWaitSatisfied_frames {f : Fin 9} {q : Fin 64} {s : State} : FramesN 128 s (execEventWaitSatisfied f q s) := by
  unfold execEventWaitSatisfied
  try dsimp only
  repeat' first
    | with_reducible apply Frames.refl
    | with_reducible assumption
    | (show _ = _; rfl)
    | with_reducible apply FramesN.powered
    | with_reducible apply Frames.step (g := updEntry_frames)
    | with_reducible apply Frames.step (g := updStream_frames)
    | with_reducible apply Frames.ite
    | split
    | dsimp only

theorem execSignalEvent_frames {f : Fin 9} {e : BitVec 16} {s : State} : FramesN 128 s (execSignalEvent f e s) := by
  unfold execSignalEvent
  try dsimp only
  repeat' first
    | with_reducible apply Frames.refl
    | with_reducible assumption
    | (show _ = _; rfl)
    | with_reducible apply FramesN.powered
    | with_reducible apply Frames.step (g := signalEv_frames)

/-! ## Entries -/

theorem execNop_frames {f : Fin 9} {q : Fin 64} {s : State} : FramesN 130 s (execNop f q s) := by
  unfold execNop
  try dsimp only
  repeat' first
    | with_reducible apply Frames.refl
    | with_reducible assumption
    | (show _ = _; rfl)
    | with_reducible apply FramesN.powered
    | ((with_reducible apply startEntry_step) <;> [skip; (intro _; try dsimp only); skip])
    | with_reducible apply Frames.step (g := finishNow_frames)
    | dsimp only

theorem issueCopy_frames {s : State} {f : Fin 9} {q : Nat} {e : EntryRun} : Frames 943350 s (issueCopy s f q e) := by
  unfold issueCopy
  try dsimp only
  repeat' first
    | with_reducible apply Frames.refl
    | with_reducible assumption
    | (show _ = _; rfl)
    | with_reducible apply Frames.step (g := finishNow_frames)
    | with_reducible apply Frames.step (g := updEntry_frames)
    | with_reducible apply Frames.step (g := entryStart_frames)
    | with_reducible apply Frames.step (g := enqueueHod_frames)
    | with_reducible apply Frames.ite
    | split
    | dsimp only

theorem execHostCopy_frames {f : Fin 9} {q : Fin 64} {s : State} : FramesN 943350 s (execHostCopy f q s) := by
  unfold execHostCopy
  try dsimp only
  repeat' first
    | with_reducible apply Frames.refl
    | with_reducible assumption
    | (show _ = _; rfl)
    | with_reducible apply FramesN.powered
    | ((with_reducible apply startEntry_step) <;> [skip; (intro _; try dsimp only); skip])
    | with_reducible apply Frames.step (g := issueCopy_frames)
    | with_reducible apply Frames.ite
    | split
    | dsimp only

theorem execHostAccumulateStart_frames {f : Fin 9} {q : Fin 64} {s : State} : FramesN 943350 s (execHostAccumulateStart f q s) := by
  unfold execHostAccumulateStart
  try dsimp only
  repeat' first
    | with_reducible apply Frames.refl
    | with_reducible assumption
    | (show _ = _; rfl)
    | with_reducible apply FramesN.powered
    | ((with_reducible apply startEntry_step) <;> [skip; (intro _; try dsimp only); skip])
    | with_reducible apply Frames.step (g := issueCopy_frames)
    | with_reducible apply Frames.ite
    | split
    | dsimp only

theorem execLaunch_frames {f : Fin 9} {q : Fin 64} {s : State} : FramesN 156866 s (execLaunch f q s) := by
  unfold execLaunch
  try dsimp only
  repeat' first
    | with_reducible apply Frames.refl
    | with_reducible assumption
    | (show _ = _; rfl)
    | with_reducible apply FramesN.powered
    | ((with_reducible apply startEntry_step) <;> [skip; (intro _; try dsimp only); skip])
    | with_reducible apply Frames.step (g := finishNow_frames)
    | with_reducible apply Frames.step (g := ueEventAt_frames)
    | with_reducible apply Frames.step (g := entryStart_frames)
    | ((with_reducible apply updCrew_step) <;> [skip; rfl; (first | exact crewOk_same rfl | exact fun _ => crewOk_none rfl | exact crewOk_map _ rfl (fun _ h => h) | exact crewOk_map _ rfl (fun _ h => attOk_ite h h) | exact fun h => crewOk_ite (crewOk_same rfl h) (crewOk_same rfl h) | exact fun h => crewOk_ite (crewOk_none rfl) (crewOk_same rfl h)| exact fun h => crewOk_ite (crewOk_same rfl h) (crewOk_none rfl))])
    | with_reducible apply Frames.ite
    | split
    | dsimp only

theorem fenceStart_frames {s : State} {f : Fin 9} {q : Nat} {scope : Nat} : Frames 130 s (fenceStart s f q scope) := by
  unfold fenceStart
  try dsimp only
  repeat' first
    | with_reducible apply Frames.refl
    | with_reducible assumption
    | (show _ = _; rfl)
    | ((with_reducible apply startEntry_step) <;> [skip; (intro _; try dsimp only); skip])
    | with_reducible apply Frames.step (g := finishNow_frames)
    | with_reducible apply Frames.step (g := entryStart_frames)
    | with_reducible apply Frames.step (g := updEntry_frames)
    | with_reducible apply Frames.ite
    | split
    | dsimp only

theorem handOver_frames {s : State} {f : Fin 9} {q : Nat} : Frames 4 s (handOver s f q) := by
  unfold handOver
  try dsimp only
  repeat' first
    | with_reducible apply Frames.refl
    | with_reducible assumption
    | (show _ = _; rfl)
    | with_reducible apply Frames.ite
    | split
    | dsimp only
    | with_reducible apply Frames.set_courses

theorem fenceEnd_frames {s : State} {f : Fin 9} {q : Nat} {scope : Nat} {cond : BitVec 736 → Bool} : Frames 134 s (fenceEnd s f q scope cond) := by
  unfold fenceEnd
  try dsimp only
  repeat' first
    | with_reducible apply Frames.refl
    | with_reducible assumption
    | (show _ = _; rfl)
    | with_reducible apply Frames.step (g := fenceLost_frames)
    | with_reducible apply Frames.step (g := entryDone_frames)
    | with_reducible apply Frames.step (g := handOver_frames)
    | with_reducible apply Frames.ite
    | split
    | dsimp only

theorem execFenceLocal_frames {f : Fin 9} {q : Fin 64} {s : State} : FramesN 134 s (execFenceLocal f q s) := by
  unfold execFenceLocal
  try dsimp only
  repeat' first
    | with_reducible apply Frames.refl
    | with_reducible assumption
    | (show _ = _; rfl)
    | with_reducible apply FramesN.powered
    | with_reducible apply Frames.step (g := fenceEnd_frames)
    | with_reducible apply Frames.step (g := fenceStart_frames)
    | dsimp only

theorem execFenceDevice_frames {f : Fin 9} {q : Fin 64} {s : State} : FramesN 134 s (execFenceDevice f q s) := by
  unfold execFenceDevice
  try dsimp only
  repeat' first
    | with_reducible apply Frames.refl
    | with_reducible assumption
    | (show _ = _; rfl)
    | with_reducible apply FramesN.powered
    | with_reducible apply Frames.step (g := fenceStart_frames)
    | with_reducible apply Frames.step (g := fenceEnd_frames)
    | dsimp only

theorem execFenceHost_frames {f : Fin 9} {q : Fin 64} {s : State} : FramesN 134 s (execFenceHost f q s) := by
  unfold execFenceHost
  try dsimp only
  repeat' first
    | with_reducible apply Frames.refl
    | with_reducible assumption
    | (show _ = _; rfl)
    | with_reducible apply FramesN.powered
    | with_reducible apply Frames.step (g := fenceStart_frames)
    | with_reducible apply Frames.step (g := fenceEnd_frames)
    | dsimp only

theorem execFenceCrew_frames {f : Fin 9} {q : Fin 64} {arrived : List Nat} {s : State} : FramesN 134 s (execFenceCrew f q arrived s) := by
  unfold execFenceCrew
  try dsimp only
  repeat' first
    | with_reducible apply Frames.refl
    | with_reducible assumption
    | (show _ = _; rfl)
    | with_reducible apply FramesN.powered
    | with_reducible apply Frames.step (g := fenceStart_frames)
    | with_reducible apply Frames.step (g := fenceEnd_frames)
    | with_reducible apply Frames.ite
    | split
    | dsimp only

theorem execMark_frames {f : Fin 9} {q : Fin 64} {s : State} : FramesN 1154 s (execMark f q s) := by
  unfold execMark
  try dsimp only
  repeat' first
    | with_reducible apply Frames.refl
    | with_reducible assumption
    | (show _ = _; rfl)
    | with_reducible apply FramesN.powered
    | ((with_reducible apply startEntry_step) <;> [skip; (intro _; try dsimp only); skip])
    | with_reducible apply Frames.step (g := finishNow_frames)
    | ((with_reducible apply updCrew_step) <;> [skip; rfl; (first | exact crewOk_same rfl | exact fun _ => crewOk_none rfl | exact crewOk_map _ rfl (fun _ h => h) | exact crewOk_map _ rfl (fun _ h => attOk_ite h h) | exact fun h => crewOk_ite (crewOk_same rfl h) (crewOk_same rfl h) | exact fun h => crewOk_ite (crewOk_none rfl) (crewOk_same rfl h)| exact fun h => crewOk_ite (crewOk_same rfl h) (crewOk_none rfl))])
    | with_reducible apply Frames.step (g := stampMark_frames)
    | with_reducible apply Frames.ite
    | split
    | dsimp only

theorem execExportSlots_frames {f : Fin 9} {q : Fin 64} {s : State} : FramesN 1154 s (execExportSlots f q s) := by
  unfold execExportSlots
  try dsimp only
  repeat' first
    | with_reducible apply Frames.refl
    | with_reducible assumption
    | (show _ = _; rfl)
    | with_reducible apply FramesN.powered
    | ((with_reducible apply startEntry_step) <;> [skip; (intro _; try dsimp only); skip])
    | with_reducible apply Frames.step (g := finishNow_frames)
    | with_reducible apply Frames.step (g := entryStart_frames)
    | ((with_reducible apply updCrew_step) <;> [skip; rfl; (first | exact crewOk_same rfl | exact fun _ => crewOk_none rfl | exact crewOk_map _ rfl (fun _ h => h) | exact crewOk_map _ rfl (fun _ h => attOk_ite h h) | exact fun h => crewOk_ite (crewOk_same rfl h) (crewOk_same rfl h) | exact fun h => crewOk_ite (crewOk_none rfl) (crewOk_same rfl h)| exact fun h => crewOk_ite (crewOk_same rfl h) (crewOk_none rfl))])
    | with_reducible apply Frames.ite
    | split
    | dsimp only

theorem exportEnds_frames {s : State} {c : Fin 16} {x : ExportRun} {res : Res} : Frames 1154 s (exportEnds s c x res) := by
  unfold exportEnds
  try dsimp only
  repeat' first
    | with_reducible apply Frames.refl
    | with_reducible assumption
    | (show _ = _; rfl)
    | ((with_reducible apply updCrew_step) <;> [skip; rfl; (first | exact crewOk_same rfl | exact fun _ => crewOk_none rfl | exact crewOk_map _ rfl (fun _ h => h) | exact crewOk_map _ rfl (fun _ h => attOk_ite h h) | exact fun h => crewOk_ite (crewOk_same rfl h) (crewOk_same rfl h) | exact fun h => crewOk_ite (crewOk_none rfl) (crewOk_same rfl h)| exact fun h => crewOk_ite (crewOk_same rfl h) (crewOk_none rfl))])
    | with_reducible apply Frames.step (g := entryDone_frames)
    | with_reducible apply Frames.ite
    | split
    | dsimp only

theorem exportToHost_frames {s : State} {c : Fin 16} {p : Fin 8} {x : ExportRun} {b : BitVec 736} {bs : List Byte} : Frames 1238 s (exportToHost s c p x b bs) := by
  unfold exportToHost
  try dsimp only
  repeat' first
    | with_reducible apply Frames.refl
    | with_reducible assumption
    | (show _ = _; rfl)
    | with_reducible apply Frames.step (g := exportEnds_frames)
    | with_reducible apply Frames.step (g := atcUse_frames)
    | with_reducible apply Frames.step (g := spaceWriteL_frames)
    | with_reducible apply Frames.ite
    | split
    | dsimp only

theorem exportToCrew_frames {s : State} {c : Fin 16} {x : ExportRun} {ec : Fin 16} {bs : List Byte} : Frames 816854 s (exportToCrew s c x ec bs) := by
  unfold exportToCrew
  try dsimp only
  repeat' first
    | with_reducible apply Frames.refl
    | with_reducible assumption
    | (show _ = _; rfl)
    | ((with_reducible apply updCrew_step) <;> [skip; rfl; (first | exact crewOk_same rfl | exact fun _ => crewOk_none rfl | exact crewOk_map _ rfl (fun _ h => h) | exact crewOk_map _ rfl (fun _ h => attOk_ite h h) | exact fun h => crewOk_ite (crewOk_same rfl h) (crewOk_same rfl h) | exact fun h => crewOk_ite (crewOk_none rfl) (crewOk_same rfl h)| exact fun h => crewOk_ite (crewOk_same rfl h) (crewOk_none rfl))])
    | with_reducible apply Frames.step (g := sendRank_frames)
    | with_reducible apply Frames.step (g := sendEnd_frames)
    | with_reducible apply Frames.step (g := exportEnds_frames)
    | with_reducible apply Frames.step (g := crewFault_frames)
    | ((with_reducible apply Frames.foldl) <;> [skip; intro _ _ _])
    | ((with_reducible apply Frames.foldl_fst) <;> [skip; intro _ _ _])
    | ((with_reducible apply Frames.foldl_snd) <;> [skip; intro _ _ _])
    | with_reducible apply Frames.ite
    | split
    | with_reducible refine Frames.of_fst (by with_reducible assumption) ?_
    | with_reducible refine Frames.of_snd (by with_reducible assumption) ?_
    | dsimp only

theorem execExportDone_frames {f : Fin 9} {q : Fin 64} {s : State} : FramesN 947926 s (execExportDone f q s) := by
  unfold execExportDone
  try dsimp only
  repeat' first
    | with_reducible apply Frames.refl
    | with_reducible assumption
    | (show _ = _; rfl)
    | with_reducible apply FramesN.powered
    | ((with_reducible apply updCrew_step) <;> [skip; rfl; (first | exact crewOk_same rfl | exact fun _ => crewOk_none rfl | exact crewOk_map _ rfl (fun _ h => h) | exact crewOk_map _ rfl (fun _ h => attOk_ite h h) | exact fun h => crewOk_ite (crewOk_same rfl h) (crewOk_same rfl h) | exact fun h => crewOk_ite (crewOk_none rfl) (crewOk_same rfl h)| exact fun h => crewOk_ite (crewOk_same rfl h) (crewOk_none rfl))])
    | with_reducible apply Frames.step (g := exportEnds_frames)
    | with_reducible apply Frames.step (g := ueEventAt_frames)
    | with_reducible apply Frames.step (g := hbmTraffic_frames)
    | with_reducible apply Frames.step (g := hbmFix_frames)
    | with_reducible apply Frames.step (g := exportToHost_frames)
    | with_reducible apply Frames.step (g := exportToCrew_frames)
    | with_reducible apply Frames.ite
    | split
    | dsimp only

/-! ## Rigger -/

theorem syncChoose_frames {s : State} : Frames 512 s (syncChoose s) := by
  unfold syncChoose
  try dsimp only
  repeat' first
    | with_reducible apply Frames.refl
    | with_reducible assumption
    | (show _ = _; rfl)
    | with_reducible apply Frames.ite
    | split
    | dsimp only
    | with_reducible apply Frames.set_rigger

theorem servo_frames {s : State} {theta : Int} : Frames 157185 s (servo s theta) := by
  unfold servo
  try dsimp only
  repeat' first
    | with_reducible apply Frames.refl
    | with_reducible assumption
    | (show _ = _; rfl)
    | with_reducible apply Frames.step (g := cardPoint_frames)
    | with_reducible apply Frames.step (g := pointLog_frames)
    | with_reducible apply Frames.ite
    | split
    | dsimp only
    | ((with_reducible apply Frames.set_now_rigger) <;> [skip; (first | rfl | exact fun h => h | exact fun h => put_ok _ _ h | exact fun h => memFresh_ok _ h | exact fun h => devFresh_ok h | exact fun h => ⟨h.1, writeN_wf _ _ _ h.2⟩ | exact fun h => writeN_wf _ _ _ h | exact fun h => writeL_wf _ _ h); (first | rfl | exact fun h => h | exact fun h => put_ok _ _ h | exact fun h => memFresh_ok _ h | exact fun h => devFresh_ok h | exact fun h => ⟨h.1, writeN_wf _ _ _ h.2⟩ | exact fun h => writeN_wf _ _ _ h | exact fun h => writeL_wf _ _ h)])
    | with_reducible apply Frames.set_now
    | with_reducible apply Frames.set_rigger

theorem laneOut_frames {s : State} {b : Fin 8} {l : Nat} : Frames 947926 s (laneOut s b l) := by
  unfold laneOut
  try dsimp only
  repeat' first
    | with_reducible apply Frames.refl
    | with_reducible assumption
    | (show _ = _; rfl)
    | with_reducible apply Frames.step (g := updPort_frames)
    | with_reducible apply Frames.step (g := setDegraded_frames)
    | with_reducible apply Frames.step (g := syncChoose_frames)
    | with_reducible apply Frames.step (g := portDown_frames)
    | with_reducible apply Frames.ite
    | split
    | dsimp only

theorem sendSpare_frames {s : State} {b : Fin 8} {lane phase count spare : Nat} : Frames 524800 s (sendSpare s b lane phase count spare) := by
  unfold sendSpare
  try dsimp only
  repeat' first
    | with_reducible apply Frames.refl
    | with_reducible assumption
    | (show _ = _; rfl)
    | with_reducible apply Frames.step (g := sendCtlOn_frames)
    | with_reducible apply Frames.ite
    | split
    | dsimp only

theorem spareRefused_frames {s : State} {b : Fin 8} : Frames 16384 s (spareRefused s b) := by
  unfold spareRefused
  try dsimp only
  repeat' first
    | with_reducible apply Frames.refl
    | with_reducible assumption
    | (show _ = _; rfl)
    | with_reducible apply Frames.step (g := ctrAdd_frames)
    | with_reducible apply FramesO.getD
    | ((with_reducible apply FramesO.of) <;> intro _)

theorem askSwap_frames {s : State} {b : Fin 8} {lane : Nat} {repair : Bool} : Frames 947926 s (askSwap s b lane repair) := by
  unfold askSwap
  try dsimp only
  repeat' first
    | with_reducible apply Frames.refl
    | with_reducible assumption
    | (show _ = _; rfl)
    | with_reducible apply Frames.step (g := laneOut_frames)
    | with_reducible apply Frames.step (g := spareRefused_frames)
    | with_reducible apply Frames.step (g := updBank_frames)
    | with_reducible apply Frames.step (g := sendSpare_frames)
    | with_reducible apply Frames.ite
    | split
    | dsimp only

theorem nextSwap_frames {s : State} {b : Fin 8} : Frames 947926 s (nextSwap s b) := by
  unfold nextSwap
  try dsimp only
  repeat' first
    | with_reducible apply Frames.refl
    | with_reducible assumption
    | (show _ = _; rfl)
    | with_reducible apply Frames.step (g := laneOut_frames)
    | with_reducible apply Frames.step (g := updBank_frames)
    | with_reducible apply Frames.step (g := askSwap_frames)
    | ((with_reducible apply Frames.foldl) <;> [skip; intro _ _ _])
    | ((with_reducible apply Frames.foldl_fst) <;> [skip; intro _ _ _])
    | ((with_reducible apply Frames.foldl_snd) <;> [skip; intro _ _ _])
    | with_reducible apply Frames.ite
    | split
    | with_reducible refine Frames.of_fst (by with_reducible assumption) ?_
    | with_reducible refine Frames.of_snd (by with_reducible assumption) ?_
    | dsimp only

theorem abortSwap_frames {s : State} {b : Fin 8} : Frames 524800 s (abortSwap s b) := by
  unfold abortSwap
  try dsimp only
  repeat' first
    | with_reducible apply Frames.refl
    | with_reducible assumption
    | (show _ = _; rfl)
    | with_reducible apply Frames.step (g := sendSpare_frames)
    | with_reducible apply Frames.step (g := updBank_frames)
    | split
    | dsimp only

theorem finishSwap_frames {s : State} {b : Fin 8} : Frames 947926 s (finishSwap s b) := by
  unfold finishSwap
  try dsimp only
  repeat' first
    | with_reducible apply Frames.refl
    | with_reducible assumption
    | (show _ = _; rfl)
    | with_reducible apply Frames.step (g := updBank_frames)
    | with_reducible apply Frames.step (g := genBump_frames)
    | with_reducible apply Frames.step (g := cardPoint_frames)
    | with_reducible apply Frames.step (g := pointLog_frames)
    | with_reducible apply Frames.step (g := repairDone_frames)
    | with_reducible apply Frames.step (g := actDone_frames)
    | with_reducible apply Frames.step (g := mapWrite_frames)
    | with_reducible apply Frames.step (g := nextSwap_frames)
    | with_reducible apply Frames.ite
    | split
    | dsimp only

theorem takeDown_frames {s : State} {p : Fin 16} : Frames 947926 s (takeDown s p) := by
  unfold takeDown
  try dsimp only
  repeat' first
    | with_reducible apply Frames.refl
    | with_reducible assumption
    | (show _ = _; rfl)
    | with_reducible apply Frames.step (g := syncChoose_frames)
    | with_reducible apply Frames.step (g := nextSwap_frames)
    | with_reducible apply Frames.step (g := portDown_frames)
    | with_reducible apply Frames.step (g := abortSwap_frames)
    | with_reducible apply Frames.ite
    | split
    | dsimp only

theorem laneFails_frames {s : State} {b : Fin 8} {pl : Nat} : Frames 947926 s (laneFails s b pl) := by
  unfold laneFails
  try dsimp only
  repeat' first
    | with_reducible apply Frames.refl
    | with_reducible assumption
    | (show _ = _; rfl)
    | with_reducible apply Frames.step (g := updBank_frames)
    | with_reducible apply Frames.step (g := abortSwap_frames)
    | with_reducible apply Frames.step (g := nextSwap_frames)
    | with_reducible apply Frames.step (g := askSwap_frames)
    | with_reducible apply Frames.ite
    | split
    | dsimp only

theorem execLaserSwitch_frames {i : Fin 12} {uw : Nat} {s : State} : FramesN 982782 s (execLaserSwitch i uw s) := by
  unfold execLaserSwitch
  try dsimp only
  repeat' first
    | with_reducible apply Frames.refl
    | with_reducible assumption
    | (show _ = _; rfl)
    | with_reducible apply FramesN.powered
    | with_reducible apply Frames.step (g := genBump_frames)
    | with_reducible apply Frames.step (g := fresh_frames)
    | with_reducible apply Frames.step (g := nextSwap_frames)
    | with_reducible apply Frames.step (g := abortSwap_frames)
    | with_reducible apply Frames.step (g := cardPoint_frames)
    | with_reducible apply Frames.step (g := pointLog_frames)
    | with_reducible apply Frames.step (g := repairDone_frames)
    | with_reducible apply Frames.step (g := castReady_frames)
    | with_reducible apply Frames.step (g := setDegraded_frames)
    | with_reducible apply Frames.step (g := takeDown_frames)
    | with_reducible apply Frames.step (g := hotReset_frames)
    | with_reducible apply Frames.step (g := ctrAdd_frames)
    | fail_if_no_progress ((with_reducible apply Frames.set_rigger) <;> [skip; rfl])
    | fail_if_no_progress ((with_reducible apply Frames.set_host) <;> [skip; rfl; (first | exact fun h => h | exact fun h => put_ok _ _ h | exact fun h => memFresh_ok _ h | exact fun h => devFresh_ok h | exact fun h => ⟨h.1, writeN_wf _ _ _ h.2⟩ | exact fun h => writeN_wf _ _ _ h | exact fun h => writeL_wf _ _ h)])
    | with_reducible apply Frames.ite
    | split
    | with_reducible refine Frames.of_snd (by with_reducible assumption) ?_
    | dsimp only

theorem takeWord_frames {s : State} {p : Fin 16} {w : Ctl} : Frames 803328 s (takeWord s p w) := by
  unfold takeWord
  try dsimp only
  repeat' first
    | with_reducible apply Frames.refl
    | with_reducible assumption
    | (show _ = _; rfl)
    | with_reducible apply Frames.step (g := updPort_frames)
    | with_reducible apply Frames.step (g := syncChoose_frames)
    | with_reducible apply Frames.step (g := takeAck_frames)
    | with_reducible apply Frames.ite
    | split
    | dsimp only

theorem withWord_step {m : Nat} {r s : State} {p : Fin 16} {w : Ctl} {g : State → State} (hs : Frames m r s)
    (hgo : ∀ t, Frames m r t → Frames m r (g t)) (hm : 803328 ||| m = m) : Frames m r (withWord s p w g) := by
  unfold withWord
  refine Frames.ite ?_ (hgo _ ?_)
  · exact hs.step (ctrAdd_frames.mono (m := 803328) rfl) hm
  · exact hs.step (takeWord_frames.mono (m := 803328) rfl) hm

theorem alignWord_frames {s : State} {p : Fin 16} {pl : Fin 9} {far : Fibre} {w : Ctl} : Frames 949974 s (alignWord s p pl far w) := by
  unfold alignWord
  try dsimp only
  repeat' first
    | with_reducible apply Frames.refl
    | with_reducible assumption
    | (show _ = _; rfl)
    | with_reducible apply Frames.step (g := castReady_frames)
    | with_reducible apply Frames.step (g := takeDown_frames)
    | with_reducible apply Frames.step (g := updPort_frames)
    | with_reducible apply Frames.step (g := updBank_frames)
    | with_reducible apply Frames.step (g := setPort_frames)
    | with_reducible apply Frames.ite
    | split
    | dsimp only

theorem execAlign_frames {p : Fin 16} {w : LaneWord} {s : State} : FramesN 949974 s (execAlign p w s) := by
  unfold execAlign
  try dsimp only
  repeat' first
    | with_reducible apply Frames.refl
    | with_reducible assumption
    | (show _ = _; rfl)
    | with_reducible apply FramesN.powered
    | ((with_reducible apply withWord_step) <;> [skip; (intro _ _; try dsimp only); skip])
    | with_reducible apply Frames.step (g := alignWord_frames)
    | with_reducible apply Frames.ite
    | split
    | dsimp only

theorem execAck_frames {p : Fin 16} {w : Ctl} {s : State} : FramesN 803328 s (execAck p w s) := by
  unfold execAck
  try dsimp only
  repeat' first
    | with_reducible apply Frames.refl
    | with_reducible assumption
    | (show _ = _; rfl)
    | with_reducible apply FramesN.powered
    | ((with_reducible apply withWord_step) <;> [skip; (intro _ _; try dsimp only); skip])
    | dsimp only [id]

theorem nakWord_frames {s : State} {p : Fin 16} {w : Ctl} : Frames 949974 s (nakWord s p w) := by
  unfold nakWord
  try dsimp only
  repeat' first
    | with_reducible apply Frames.refl
    | with_reducible assumption
    | (show _ = _; rfl)
    | with_reducible apply Frames.step (g := resendFrom_frames)
    | with_reducible apply Frames.step (g := ctrAdd_frames)
    | with_reducible apply Frames.step (g := castReady_frames)
    | with_reducible apply Frames.step (g := takeDown_frames)
    | with_reducible apply Frames.ite
    | split
    | dsimp only

theorem execNak_frames {p : Fin 16} {w : Ctl} {s : State} : FramesN 949974 s (execNak p w s) := by
  unfold execNak
  try dsimp only
  repeat' first
    | with_reducible apply Frames.refl
    | with_reducible assumption
    | (show _ = _; rfl)
    | with_reducible apply FramesN.powered
    | ((with_reducible apply withWord_step) <;> [skip; (intro _ _; try dsimp only); skip])
    | with_reducible apply Frames.step (g := nakWord_frames)
    | with_reducible apply Frames.ite
    | split
    | dsimp only

theorem execAckTimer_frames {p : Fin 16} {s : State} : FramesN 524800 s (execAckTimer p s) := by
  unfold execAckTimer
  try dsimp only
  repeat' first
    | with_reducible apply Frames.refl
    | with_reducible assumption
    | (show _ = _; rfl)
    | with_reducible apply FramesN.powered
    | with_reducible apply Frames.step (g := sendCtl_frames)
    | with_reducible apply Frames.ite
    | split
    | dsimp only

theorem execIdleTimer_frames {p : Fin 16} {lane : Fin 4} {s : State} : FramesN 524800 s (execIdleTimer p lane s) := by
  unfold execIdleTimer
  try dsimp only
  repeat' first
    | with_reducible apply Frames.refl
    | with_reducible assumption
    | (show _ = _; rfl)
    | with_reducible apply FramesN.powered
    | with_reducible apply Frames.step (g := sendAlign_frames)
    | with_reducible apply Frames.step (g := sendCtlOn_frames)
    | with_reducible apply Frames.ite
    | split
    | dsimp only

theorem idleOffset_frames {s : State} {w : Ctl} : Frames 2 s (idleOffset s w).2 := by
  unfold idleOffset
  try dsimp only
  repeat' first
    | with_reducible apply Frames.refl
    | with_reducible assumption
    | (show _ = _; rfl)
    | with_reducible apply Frames.step (g := fresh_frames)
    | with_reducible apply Frames.ite
    | split
    | with_reducible refine Frames.of_snd (by with_reducible assumption) ?_
    | dsimp only

theorem idleWord_frames {s : State} {p : Fin 16} {lane : Nat} {w : Ctl} : Frames 157187 s (idleWord s p lane w) := by
  unfold idleWord
  try dsimp only
  repeat' first
    | with_reducible apply Frames.refl
    | with_reducible assumption
    | (show _ = _; rfl)
    | with_reducible apply Frames.step (g := updPort_frames)
    | with_reducible apply Frames.step (g := idleOffset_frames)
    | with_reducible apply Frames.step (g := servo_frames)
    | with_reducible apply Frames.ite
    | split
    | with_reducible refine Frames.of_snd (by with_reducible assumption) ?_
    | dsimp only

theorem execIdle_frames {p : Fin 16} {lane : Fin 4} {w : Ctl} {s : State} : FramesN 943619 s (execIdle p lane w s) := by
  unfold execIdle
  try dsimp only
  repeat' first
    | with_reducible apply Frames.refl
    | with_reducible assumption
    | (show _ = _; rfl)
    | with_reducible apply FramesN.powered
    | ((with_reducible apply withWord_step) <;> [skip; (intro _ _; try dsimp only); skip])
    | with_reducible apply Frames.step (g := idleWord_frames)
    | with_reducible apply Frames.ite
    | split
    | dsimp only

theorem execHoldover_frames {s : State} : FramesN 512 s (execHoldover s) := by
  unfold execHoldover
  try dsimp only
  repeat' first
    | with_reducible apply Frames.refl
    | with_reducible assumption
    | (show _ = _; rfl)
    | with_reducible apply FramesN.powered
    | with_reducible apply Frames.ite
    | split
    | dsimp only
    | with_reducible apply Frames.set_rigger

theorem execReplayTimeout_frames {p : Fin 16} {s : State} : FramesN 949974 s (execReplayTimeout p s) := by
  unfold execReplayTimeout
  try dsimp only
  repeat' first
    | with_reducible apply Frames.refl
    | with_reducible assumption
    | (show _ = _; rfl)
    | with_reducible apply FramesN.powered
    | with_reducible apply Frames.step (g := updPort_frames)
    | with_reducible apply Frames.step (g := castReady_frames)
    | with_reducible apply Frames.step (g := takeDown_frames)
    | with_reducible apply Frames.step (g := resendFrom_frames)
    | with_reducible apply Frames.ite
    | split
    | dsimp only

theorem execLockLoss_frames {p : Fin 16} {s : State} : FramesN 949974 s (execLockLoss p s) := by
  unfold execLockLoss
  try dsimp only
  repeat' first
    | with_reducible apply Frames.refl
    | with_reducible assumption
    | (show _ = _; rfl)
    | with_reducible apply FramesN.powered
    | with_reducible apply Frames.step (g := castReady_frames)
    | with_reducible apply Frames.step (g := takeDown_frames)

theorem execPortRetrain_frames {p : Fin 16} {s : State} : FramesN 947926 s (execPortRetrain p s) := by
  unfold execPortRetrain
  try dsimp only
  repeat' first
    | with_reducible apply Frames.refl
    | with_reducible assumption
    | (show _ = _; rfl)
    | with_reducible apply FramesN.powered
    | with_reducible apply Frames.step (g := setPort_frames)
    | with_reducible apply Frames.step (g := updPort_frames)
    | with_reducible apply Frames.step (g := sendAlign_frames)
    | with_reducible apply Frames.step (g := nextSwap_frames)
    | ((with_reducible apply Frames.foldl) <;> [skip; intro _ _ _])
    | ((with_reducible apply Frames.foldl_fst) <;> [skip; intro _ _ _])
    | ((with_reducible apply Frames.foldl_snd) <;> [skip; intro _ _ _])
    | with_reducible apply Frames.ite
    | split
    | with_reducible refine Frames.of_fst (by with_reducible assumption) ?_
    | with_reducible refine Frames.of_snd (by with_reducible assumption) ?_
    | dsimp only

theorem sendNak_frames {s : State} {p : Fin 16} : Frames 524800 s (sendNak s p) := by
  unfold sendNak
  try dsimp only
  repeat' first
    | with_reducible apply Frames.refl
    | with_reducible assumption
    | (show _ = _; rfl)
    | with_reducible apply Frames.step (g := sendCtl_frames)
    | with_reducible apply Frames.step (g := updPort_frames)
    | with_reducible apply Frames.ite
    | split
    | dsimp only

theorem freeSlots_frames {s : State} {p : Fin 16} {bs : List Byte} : Frames 512 s (freeSlots s p bs) := by
  unfold freeSlots
  try dsimp only
  repeat' first
    | with_reducible apply Frames.refl
    | with_reducible assumption
    | (show _ = _; rfl)
    | with_reducible apply Frames.step (g := updPort_frames)
    | with_reducible apply Frames.ite
    | split
    | dsimp only

theorem relay_frames {s : State} {p : Fin 16} {bs : List Byte} : Frames 803328 s (relay s p bs) := by
  unfold relay
  try dsimp only
  repeat' first
    | with_reducible apply Frames.refl
    | with_reducible assumption
    | (show _ = _; rfl)
    | with_reducible apply Frames.step (g := queuePacket_frames)
    | with_reducible apply Frames.step (g := ctrAdd_frames)
    | with_reducible apply Frames.ite
    | split
    | dsimp only

theorem deliver_frames {s : State} {p : Fin 16} {bs : List Byte} : FramesO 949974 s (deliver s p bs) := by
  unfold deliver
  try dsimp only
  repeat' first
    | with_reducible apply Frames.refl
    | with_reducible assumption
    | with_reducible apply FramesO.none
    | (show _ = _; rfl)
    | with_reducible apply FramesO.some
    | ((with_reducible apply FramesO.map) <;> [skip; intro _ _])
    | with_reducible apply Frames.step (g := ctrAdd_frames)
    | with_reducible apply Frames.step (g := relay_frames)
    | with_reducible apply Frames.step (g := noteHeard_frames)
    | with_reducible apply FramesO.step (g := landChunk_frames)
    | with_reducible refine Frames.of_some (by with_reducible assumption) (FramesO.step ?_ landChunk_frames ?_)
    | with_reducible apply FramesO.step (g := landData_frames)
    | with_reducible refine Frames.of_some (by with_reducible assumption) (FramesO.step ?_ landData_frames ?_)
    | with_reducible apply Frames.step (g := castReady_frames)
    | with_reducible apply Frames.step (g := advanceCrew_frames)
    | with_reducible apply Frames.ite
    | with_reducible apply FramesO.ite
    | with_reducible apply FramesO.getD
    | split
    | ((with_reducible apply FramesO.of) <;> intro _)
    | (intro t e; cases e)
    | dsimp only

theorem deliverOr_frames {s : State} {p : Fin 16} {bs : List Byte} : Frames 949974 s (deliverOr s p bs) := by
  unfold deliverOr
  try dsimp only
  repeat' first
    | with_reducible apply Frames.refl
    | with_reducible assumption
    | (show _ = _; rfl)
    | with_reducible apply FramesO.step (g := deliver_frames)
    | with_reducible refine Frames.of_some (by with_reducible assumption) (FramesO.step ?_ deliver_frames ?_)
    | with_reducible apply Frames.step (g := freeSlots_frames)
    | split
    | ((with_reducible apply FramesO.of) <;> intro _)
    | dsimp only
    | with_reducible apply Frames.set_rigger

theorem takePacket_frames {s : State} {p : Fin 16} {bytes : List Byte} : Frames 982742 s (takePacket s p bytes) := by
  unfold takePacket
  try dsimp only
  repeat' first
    | with_reducible apply Frames.refl
    | with_reducible assumption
    | (show _ = _; rfl)
    | with_reducible apply Frames.step (g := sendNak_frames)
    | with_reducible apply Frames.step (g := ctrAdd_frames)
    | with_reducible apply Frames.step (g := sendCtl_frames)
    | with_reducible apply Frames.step (g := updPort_frames)
    | with_reducible apply Frames.step (g := evAdd_frames)
    | with_reducible apply Frames.step (g := deliverOr_frames)
    | fail_if_no_progress ((with_reducible apply Frames.set_power) <;> [skip; rfl])
    | with_reducible apply Frames.ite
    | split
    | dsimp only

theorem execPacketReceive_frames {p : Fin 16} {bytes : List Byte} {s : State} : FramesN 982742 s (execPacketReceive p bytes s) := by
  unfold execPacketReceive
  try dsimp only
  repeat' first
    | with_reducible apply Frames.refl
    | with_reducible assumption
    | (show _ = _; rfl)
    | with_reducible apply FramesN.powered
    | with_reducible apply Frames.step (g := takePacket_frames)
    | with_reducible apply Frames.ite
    | split
    | dsimp only

theorem execGuardStallRelease_frames {n : Fin 8} {s : State} : FramesN 950014 s (execGuardStallRelease n s) := by
  unfold execGuardStallRelease
  try dsimp only
  repeat' first
    | with_reducible apply Frames.refl
    | with_reducible assumption
    | (show _ = _; rfl)
    | with_reducible apply FramesN.powered
    | with_reducible apply Frames.step (g := releaseUnits_frames)
    | with_reducible apply Frames.step (g := deliverOr_frames)
    | ((with_reducible apply Frames.foldl) <;> [skip; intro _ _ _])
    | dsimp only
    | with_reducible apply Frames.set_rigger

theorem withSpare_step {m : Nat} {r s : State} {b : Fin 8} {w : Ctl} {phase : Nat} {g : State → State} (hs : Frames m r s)
    (hgo : ∀ t, Frames m r t → Frames m r (g t)) (hm : 803328 ||| m = m) : Frames m r (withSpare s b w phase g) := by
  unfold withSpare
  split
  · exact hs
  · exact withWord_step hs (fun t ht => Frames.ite (hgo _ ht) ht) hm

theorem acceptSwap_frames {s : State} {b : Fin 8} {lane spare : Nat} : Frames 524800 s (acceptSwap s b lane spare) := by
  unfold acceptSwap
  try dsimp only
  repeat' first
    | with_reducible apply Frames.refl
    | with_reducible assumption
    | (show _ = _; rfl)
    | with_reducible apply Frames.step (g := sendSpare_frames)
    | with_reducible apply Frames.step (g := updBank_frames)
    | with_reducible apply Frames.ite
    | split
    | dsimp only

theorem proposeWord_frames {s : State} {b : Fin 8} {w : Ctl} : Frames 541184 s (proposeWord s b w) := by
  unfold proposeWord
  try dsimp only
  repeat' first
    | with_reducible apply Frames.refl
    | with_reducible assumption
    | (show _ = _; rfl)
    | with_reducible apply Frames.step (g := updBank_frames)
    | with_reducible apply Frames.step (g := acceptSwap_frames)
    | with_reducible apply Frames.step (g := sendSpare_frames)
    | with_reducible apply Frames.step (g := spareRefused_frames)
    | with_reducible apply Frames.ite
    | split
    | dsimp only

theorem execSparePropose_frames {b : Fin 8} {w : Ctl} {s : State} : FramesN 803328 s (execSparePropose b w s) := by
  unfold execSparePropose
  try dsimp only
  repeat' first
    | with_reducible apply Frames.refl
    | with_reducible assumption
    | (show _ = _; rfl)
    | with_reducible apply FramesN.powered
    | ((with_reducible apply withSpare_step) <;> [skip; (intro _ _; try dsimp only); skip])
    | with_reducible apply Frames.step (g := proposeWord_frames)
    | with_reducible apply Frames.ite
    | split
    | dsimp only

theorem readyWord_frames {s : State} {b : Fin 8} {w : Ctl} : Frames 524802 s (readyWord s b w) := by
  unfold readyWord
  try dsimp only
  repeat' first
    | with_reducible apply Frames.refl
    | with_reducible assumption
    | (show _ = _; rfl)
    | with_reducible apply Frames.step (g := fresh_frames)
    | with_reducible apply Frames.step (g := updBank_frames)
    | with_reducible apply Frames.step (g := sendSpare_frames)
    | with_reducible apply Frames.ite
    | split
    | with_reducible refine Frames.of_snd (by with_reducible assumption) ?_
    | dsimp only

theorem execSpareReady_frames {b : Fin 8} {w : Ctl} {s : State} : FramesN 803330 s (execSpareReady b w s) := by
  unfold execSpareReady
  try dsimp only
  repeat' first
    | with_reducible apply Frames.refl
    | with_reducible assumption
    | (show _ = _; rfl)
    | with_reducible apply FramesN.powered
    | ((with_reducible apply withSpare_step) <;> [skip; (intro _ _; try dsimp only); skip])
    | with_reducible apply Frames.step (g := readyWord_frames)
    | with_reducible apply Frames.ite
    | split
    | dsimp only

theorem switchWord_frames {s : State} {b : Fin 8} {w : Ctl} : Frames 512 s (switchWord s b w) := by
  unfold switchWord
  try dsimp only
  repeat' first
    | with_reducible apply Frames.refl
    | with_reducible assumption
    | (show _ = _; rfl)
    | with_reducible apply Frames.step (g := updBank_frames)
    | with_reducible apply Frames.ite
    | split
    | dsimp only

theorem execSpareSwitch_frames {b : Fin 8} {w : Ctl} {s : State} : FramesN 803328 s (execSpareSwitch b w s) := by
  unfold execSpareSwitch
  try dsimp only
  repeat' first
    | with_reducible apply Frames.refl
    | with_reducible assumption
    | (show _ = _; rfl)
    | with_reducible apply FramesN.powered
    | ((with_reducible apply withSpare_step) <;> [skip; (intro _ _; try dsimp only); skip])
    | with_reducible apply Frames.step (g := switchWord_frames)
    | with_reducible apply Frames.ite
    | split
    | dsimp only

theorem doneWord_frames {s : State} {b : Fin 8} {w : Ctl} : Frames 947926 s (doneWord s b w) := by
  unfold doneWord
  try dsimp only
  repeat' first
    | with_reducible apply Frames.refl
    | with_reducible assumption
    | (show _ = _; rfl)
    | with_reducible apply Frames.step (g := finishSwap_frames)
    | with_reducible apply Frames.step (g := updBank_frames)
    | with_reducible apply Frames.ite
    | split
    | dsimp only

theorem execSpareDone_frames {b : Fin 8} {w : Ctl} {s : State} : FramesN 947926 s (execSpareDone b w s) := by
  unfold execSpareDone
  try dsimp only
  repeat' first
    | with_reducible apply Frames.refl
    | with_reducible assumption
    | (show _ = _; rfl)
    | with_reducible apply FramesN.powered
    | ((with_reducible apply withSpare_step) <;> [skip; (intro _ _; try dsimp only); skip])
    | with_reducible apply Frames.step (g := doneWord_frames)
    | with_reducible apply Frames.ite
    | split
    | dsimp only

theorem abortWord_frames {s : State} {b : Fin 8} {w : Ctl} : Frames 947926 s (abortWord s b w) := by
  unfold abortWord
  try dsimp only
  repeat' first
    | with_reducible apply Frames.refl
    | with_reducible assumption
    | (show _ = _; rfl)
    | with_reducible apply Frames.step (g := nextSwap_frames)
    | with_reducible apply Frames.step (g := updBank_frames)
    | with_reducible apply Frames.ite
    | split
    | dsimp only

theorem execSpareAbort_frames {b : Fin 8} {w : Ctl} {s : State} : FramesN 947926 s (execSpareAbort b w s) := by
  unfold execSpareAbort
  try dsimp only
  repeat' first
    | with_reducible apply Frames.refl
    | with_reducible assumption
    | (show _ = _; rfl)
    | with_reducible apply FramesN.powered
    | ((with_reducible apply withSpare_step) <;> [skip; (intro _ _; try dsimp only); skip])
    | with_reducible apply Frames.step (g := abortWord_frames)
    | with_reducible apply Frames.ite
    | split
    | dsimp only

theorem execSpareTimeout_frames {b : Fin 8} {s : State} : FramesN 947927 s (execSpareTimeout b s) := by
  unfold execSpareTimeout
  try dsimp only
  repeat' first
    | with_reducible apply Frames.refl
    | with_reducible assumption
    | (show _ = _; rfl)
    | with_reducible apply FramesN.powered
    | with_reducible apply Frames.step (g := nextSwap_frames)
    | with_reducible apply Frames.step (g := abortSwap_frames)
    | with_reducible apply Frames.step (g := reach_frames)
    | split
    | dsimp only

theorem execLaneRecalibration_frames {b : Fin 8} {lane : Fin 8} {s : State} : FramesN 947926 s (execLaneRecalibration b lane s) := by
  unfold execLaneRecalibration
  try dsimp only
  repeat' first
    | with_reducible apply Frames.refl
    | with_reducible assumption
    | (show _ = _; rfl)
    | with_reducible apply FramesN.powered
    | with_reducible apply Frames.step (g := askSwap_frames)

theorem spareWord_frames {s : State} {b : Fin 8} {w : Ctl} : Frames 947926 s (spareWord s b w) := by
  unfold spareWord
  try dsimp only
  repeat' first
    | with_reducible apply Frames.refl
    | with_reducible assumption
    | (show _ = _; rfl)
    | with_reducible apply Frames.step (g := proposeWord_frames)
    | with_reducible apply Frames.step (g := readyWord_frames)
    | with_reducible apply Frames.step (g := switchWord_frames)
    | with_reducible apply Frames.step (g := doneWord_frames)
    | with_reducible apply Frames.step (g := abortWord_frames)
    | with_reducible apply Frames.ite
    | split
    | dsimp only

theorem controlSlot_frames {s : State} {p : Fin 16} {l : Nat} {x : LaneCode} {w : Ctl} : Frames 949975 s (controlSlot s p l x w) := by
  unfold controlSlot
  try dsimp only
  repeat' first
    | with_reducible apply Frames.refl
    | with_reducible assumption
    | (show _ = _; rfl)
    | ((with_reducible apply withWord_step) <;> [skip; (intro _ _; try dsimp only); skip])
    | with_reducible apply Frames.step (g := idleWord_frames)
    | with_reducible apply Frames.step (g := nakWord_frames)
    | with_reducible apply Frames.step (g := alignWord_frames)
    | with_reducible apply Frames.step (g := spareWord_frames)
    | with_reducible apply Frames.ite
    | split
    | dsimp only

theorem dataSlot_frames {s : State} {p : Fin 16} {w : BitVec 256} : Frames 982742 s (dataSlot s p w) := by
  unfold dataSlot
  try dsimp only
  repeat' first
    | with_reducible apply Frames.refl
    | with_reducible assumption
    | (show _ = _; rfl)
    | with_reducible apply Frames.step (g := updPort_frames)
    | with_reducible apply Frames.step (g := takePacket_frames)
    | with_reducible apply Frames.ite
    | split
    | dsimp only

theorem takeCodeword_frames {s : State} {p : Fin 16} {l : Nat} {x : LaneCode} : Frames 982743 s (takeCodeword s p l x) := by
  unfold takeCodeword
  try dsimp only
  repeat' first
    | with_reducible apply Frames.refl
    | with_reducible assumption
    | (show _ = _; rfl)
    | with_reducible apply Frames.step (g := updPort_frames)
    | with_reducible apply Frames.step (g := controlSlot_frames)
    | with_reducible apply Frames.step (g := dataSlot_frames)
    | ((with_reducible apply Frames.foldl) <;> [skip; intro _ _ _])
    | ((with_reducible apply Frames.foldl_fst) <;> [skip; intro _ _ _])
    | ((with_reducible apply Frames.foldl_snd) <;> [skip; intro _ _ _])
    | with_reducible apply Frames.ite
    | split
    | with_reducible refine Frames.of_fst (by with_reducible assumption) ?_
    | with_reducible refine Frames.of_snd (by with_reducible assumption) ?_
    | dsimp only

theorem drainLanes_frames {k : Nat} {s : State} {x2 : Fin 16} : Frames 982743 s (drainLanes k s x2) := by
  induction k generalizing s x2 with
  | zero => exact Frames.refl _ _
  | succ k ih =>
    unfold drainLanes
    repeat' first
      | with_reducible apply Frames.refl
      | with_reducible apply Frames.step (g := ih)
      | with_reducible assumption
      | (show _ = _; rfl)
      | with_reducible apply Frames.step (g := takeCodeword_frames)
      | with_reducible apply Frames.step (g := updPort_frames)
      | with_reducible apply Frames.ite
      | split
      | dsimp only

theorem laneReads_frames {s : State} {b : Fin 8} {l : Nat} {x : LaneCode} : Frames 982743 s (laneReads s b l x) := by
  unfold laneReads
  try dsimp only
  repeat' first
    | with_reducible apply Frames.refl
    | with_reducible assumption
    | (show _ = _; rfl)
    | with_reducible apply Frames.step (g := updPort_frames)
    | with_reducible apply Frames.step (g := drainLanes_frames)
    | with_reducible apply Frames.ite
    | split
    | dsimp only

theorem compareCopies_frames {s : State} {b : Fin 8} {w : Swap} : Frames 982743 s (compareCopies s b w) := by
  unfold compareCopies
  try dsimp only
  repeat' first
    | with_reducible apply Frames.refl
    | with_reducible assumption
    | (show _ = _; rfl)
    | with_reducible apply Frames.step (g := updBank_frames)
    | with_reducible apply Frames.step (g := updPort_frames)
    | with_reducible apply Frames.step (g := laneReads_frames)
    | with_reducible apply Frames.step (g := finishSwap_frames)
    | with_reducible apply Frames.step (g := sendSpare_frames)
    | ((with_reducible apply Frames.foldl) <;> [skip; intro _ _ _])
    | ((with_reducible apply Frames.foldl_fst) <;> [skip; intro _ _ _])
    | ((with_reducible apply Frames.foldl_snd) <;> [skip; intro _ _ _])
    | with_reducible apply Frames.ite
    | split
    | with_reducible refine Frames.of_fst (by with_reducible assumption) ?_
    | with_reducible refine Frames.of_snd (by with_reducible assumption) ?_
    | dsimp only

theorem readCodeword_frames {s : State} {b : Fin 8} {x : LaneCode} : Frames 982743 s (readCodeword s b x) := by
  unfold readCodeword
  try dsimp only
  repeat' first
    | with_reducible apply Frames.refl
    | with_reducible assumption
    | (show _ = _; rfl)
    | with_reducible apply Frames.step (g := laneReads_frames)
    | with_reducible apply Frames.step (g := compareCopies_frames)
    | with_reducible apply Frames.ite
    | split
    | dsimp only

theorem countCodeword_frames {s : State} {b : Fin 8} {pl : Fin 9} {errs : Nat} : Frames 949974 s (countCodeword s b pl errs) := by
  unfold countCodeword
  try dsimp only
  repeat' first
    | with_reducible apply Frames.refl
    | with_reducible assumption
    | (show _ = _; rfl)
    | with_reducible apply Frames.step (g := updBank_frames)
    | with_reducible apply Frames.step (g := ctrAdd_frames)
    | with_reducible apply Frames.step (g := askTest_frames)
    | with_reducible apply Frames.step (g := castReady_frames)
    | with_reducible apply Frames.step (g := laneFails_frames)
    | with_reducible apply Frames.ite
    | split
    | dsimp only

theorem execCodewordReceive_frames {b : Fin 8} {pl : LaneEnds} {w : SentCodeword} {s : State} : FramesN 982743 s (execCodewordReceive b pl w s) := by
  unfold execCodewordReceive
  try dsimp only
  repeat' first
    | with_reducible apply Frames.refl
    | with_reducible assumption
    | (show _ = _; rfl)
    | with_reducible apply FramesN.powered
    | with_reducible apply Frames.step (g := readCodeword_frames)
    | with_reducible apply Frames.step (g := countCodeword_frames)
    | with_reducible apply Frames.ite
    | split
    | dsimp only

end Sys2Proof.Machine
end

