-- ==== Sys2Proof/Laws/FramesReset.lean ====
section
/-! SUPPORT. What each function of the state may change, in the terms of Frames: warm resets, power, cold starts and Pointing. -/

set_option linter.all false

namespace Sys2Proof.Machine

open Sys2Proof

/-! ## WarmReset -/

theorem resumeFunc_frames {s : State} {f : Fin 9} : Frames 128 s (resumeFunc s f) := by
  unfold resumeFunc
  try dsimp only
  repeat' first
    | with_reducible apply Frames.refl
    | with_reducible assumption
    | (show _ = _; rfl)
    | with_reducible apply Frames.step (g := updFunc_frames)
    | dsimp only

theorem portsRetrain_frames {s : State} : Frames 512 s (portsRetrain s) := by
  unfold portsRetrain
  try dsimp only
  repeat' first
    | with_reducible apply Frames.refl
    | with_reducible assumption
    | (show _ = _; rfl)
    | with_reducible apply Frames.step (g := syncChoose_frames)
    | dsimp only
    | with_reducible apply Frames.set_rigger

theorem crewReset_frames {s : State} {c : Fin 16} : Frames 812544 s (crewReset s c) := by
  unfold crewReset
  try dsimp only
  repeat' first
    | with_reducible apply Frames.refl
    | with_reducible assumption
    | (show _ = _; rfl)
    | with_reducible apply Frames.step (g := settleWaits_frames)
    | ((with_reducible apply updCrew_step) <;> [skip; rfl; (first | exact crewOk_same rfl | exact fun _ => crewOk_none rfl | exact crewOk_map _ rfl (fun _ h => h) | exact crewOk_map _ rfl (fun _ h => attOk_ite h h) | exact fun h => crewOk_ite (crewOk_same rfl h) (crewOk_same rfl h) | exact fun h => crewOk_ite (crewOk_none rfl) (crewOk_same rfl h)| exact fun h => crewOk_ite (crewOk_same rfl h) (crewOk_none rfl))])
    | with_reducible apply Frames.step (g := newEpoch_frames)
    | with_reducible apply Frames.step (g := setCrewState_frames)
    | with_reducible apply Frames.ite
    | split
    | with_reducible refine Frames.of_fst (by with_reducible assumption) ?_
    | dsimp only

theorem strokeLost_frames {s : State} {c : Fin 16} : Frames 1024 s (strokeLost s c) := by
  unfold strokeLost
  try dsimp only
  repeat' first
    | with_reducible apply Frames.refl
    | with_reducible assumption
    | (show _ = _; rfl)
    | ((with_reducible apply updCrew_step) <;> [skip; rfl; (first | exact crewOk_same rfl | exact fun _ => crewOk_none rfl | exact crewOk_map _ rfl (fun _ h => h) | exact crewOk_map _ rfl (fun _ h => attOk_ite h h) | exact fun h => crewOk_ite (crewOk_same rfl h) (crewOk_same rfl h) | exact fun h => crewOk_ite (crewOk_none rfl) (crewOk_same rfl h)| exact fun h => crewOk_ite (crewOk_same rfl h) (crewOk_none rfl))])
    | with_reducible apply Frames.step (g := becomeStale_frames)
    | with_reducible apply Frames.ite
    | split
    | dsimp only

theorem retireStacks_frames {s : State} : Frames 455746 s (retireStacks s) := by
  unfold retireStacks
  extract_lets go out s1 s2 g mems layers hb s3 s4 s5 s6
  split
  · exact Frames.refl _ _
  · have ho : ∀ t k, Frames 455746 s t → Frames 455746 s (out t k) := fun t k h => by
      unfold out
      refine Frames.step ?_ pointLog_frames rfl
      exact Frames.set_hbm (h.step updStack_frames rfl) rfl id
    clear_value out
    have h1 : Frames 455746 s s1 := Frames.foldl (Frames.refl _ _) fun t k h => ho t k h
    clear_value s1
    have h2 : Frames 455746 s s2 := Frames.foldl h1 fun _ _ h => (h.step dropObj_frames rfl).step genBump_frames rfl
    clear_value s2
    have h3 : Frames 455746 s s3 := by
      refine Frames.step (a := 455746) h2 ⟨rfl, id, fun h => freshMems_ok h rfl rfl, id, id, id, ?_, ?_, ?_, ?_, ?_, ?_, ?_, ?_, ?_, ?_, ?_, ?_, ?_, ?_, ?_, ?_, ?_, ?_, ?_, ?_⟩ (Nat.or_self _) <;> (intro x; first | (exact absurd x (by decide)) | rfl)
    clear_value s3
    have h4 : Frames 455746 s s4 := Frames.foldl h3 fun _ _ h => h.step strokeLost_frames rfl
    clear_value s4
    have h5 : Frames 455746 s s5 := Frames.foldl h4 fun _ _ h => h.step ringsCheck_frames rfl
    clear_value s5
    have h6 : Frames 455746 s s6 := ((h5.step mapWrite_frames rfl).step genBump_frames rfl).step setDegraded_frames rfl
    clear_value s6
    exact Frames.ite (h6.step leaveService_frames rfl) h6

theorem mapApply_frames {s : State} : Frames 64 s (mapApply s) := by
  unfold mapApply
  try dsimp only
  repeat' first
    | with_reducible apply Frames.refl
    | with_reducible assumption
    | (show _ = _; rfl)
    | ((with_reducible apply Frames.set_hbm) <;> [skip; rfl; (first | exact fun h => h | exact fun h => put_ok _ _ h | exact fun h => memFresh_ok _ h | exact fun h => devFresh_ok h | exact fun h => ⟨h.1, writeN_wf _ _ _ h.2⟩ | exact fun h => writeN_wf _ _ _ h | exact fun h => writeL_wf _ _ h)])

theorem lastEvents_frames {s : State} {cause : Nat} : Frames 532480 s (lastEvents s cause) := by
  unfold lastEvents
  try dsimp only
  repeat' first
    | with_reducible apply Frames.refl
    | with_reducible assumption
    | (show _ = _; rfl)
    | with_reducible apply Frames.step (g := raiseEvent_frames)
    | with_reducible apply Frames.step (g := sendEvents_frames)
    | with_reducible apply Frames.step (g := emit_frames)
    | ((with_reducible apply Frames.foldl) <;> [skip; intro _ _ _])
    | ((with_reducible apply Frames.foldl_fst) <;> [skip; intro _ _ _])
    | ((with_reducible apply Frames.foldl_snd) <;> [skip; intro _ _ _])
    | with_reducible apply Frames.ite
    | split
    | with_reducible refine Frames.of_fst (by with_reducible assumption) ?_
    | with_reducible refine Frames.of_snd (by with_reducible assumption) ?_
    | dsimp only

theorem evoluRestart_frames {s : State} : Frames 90112 s (evoluRestart s) := by
  unfold evoluRestart
  try dsimp only
  repeat' first
    | with_reducible apply Frames.refl
    | with_reducible assumption
    | (show _ = _; rfl)
    | with_reducible apply Frames.step (g := closeAll_frames)
    | with_reducible apply Frames.step (g := endOpen_frames)
    | with_reducible apply Frames.step (g := updEvolu_frames)
    | dsimp only
    | with_reducible apply Frames.set_dict

theorem groupsMiss_frames {s : State} {t0 t1 : Nat} : Frames 262144 s (groupsMiss s t0 t1) := by
  unfold groupsMiss
  try dsimp only
  repeat' first
    | with_reducible apply Frames.refl
    | with_reducible assumption
    | (show _ = _; rfl)
    | with_reducible apply Frames.ite
    | split
    | dsimp only
    | ((with_reducible apply Frames.set_counters) <;> [skip; rfl; (first | exact fun h => h | exact fun h => put_ok _ _ h | exact fun h => memFresh_ok _ h | exact fun h => devFresh_ok h | exact fun h => ⟨h.1, writeN_wf _ _ _ h.2⟩ | exact fun h => writeN_wf _ _ _ h | exact fun h => writeL_wf _ _ h)])

theorem traceEnd_frames {s : State} : Frames 278528 s (traceEnd s) := by
  unfold traceEnd
  try dsimp only
  repeat' first
    | with_reducible apply Frames.refl
    | with_reducible assumption
    | (show _ = _; rfl)
    | with_reducible apply Frames.step (g := setObj_frames)
    | fail_if_no_progress ((with_reducible apply Frames.set_counters) <;> [skip; rfl; (first | exact fun h => h | exact fun h => put_ok _ _ h | exact fun h => memFresh_ok _ h | exact fun h => devFresh_ok h | exact fun h => ⟨h.1, writeN_wf _ _ _ h.2⟩ | exact fun h => writeN_wf _ _ _ h | exact fun h => writeL_wf _ _ h)])
    | with_reducible apply Frames.ite
    | split
    | dsimp only

theorem leaveBringUp_frames {s : State} : Frames 411844 s (leaveBringUp s) := by
  unfold leaveBringUp
  extract_lets check stk fn s1
  have h1 : Frames 411844 s s1 := (Frames.refl _ _).step dropObj_frames rfl
  clear_value s1
  refine Frames.step (a := 411844) h1 ⟨rfl, id, fun h => ⟨h.1, rfl⟩, id, fun _ => rfl, id, ?_, ?_, ?_, ?_, ?_, ?_, ?_, ?_, ?_, ?_, ?_, ?_, ?_, ?_, ?_, ?_, ?_, ?_, ?_, ?_⟩ (Nat.or_self _) <;> (intro x; first | (exact absurd x (by decide)) | rfl)

theorem pagesReset_frames {s : State} : Frames 128 s (pagesReset s) := by
  unfold pagesReset
  try dsimp only
  repeat' first
    | with_reducible apply Frames.refl
    | with_reducible assumption
    | (show _ = _; rfl)
    | with_reducible apply Frames.step (g := pageWrite_frames)
    | ((with_reducible apply Frames.foldl) <;> [skip; intro _ _ _])
    | ((with_reducible apply Frames.foldl_fst) <;> [skip; intro _ _ _])
    | ((with_reducible apply Frames.foldl_snd) <;> [skip; intro _ _ _])
    | with_reducible apply Frames.ite
    | split
    | with_reducible refine Frames.of_fst (by with_reducible assumption) ?_
    | with_reducible refine Frames.of_snd (by with_reducible assumption) ?_
    | dsimp only

theorem warmStopped_frames {s : State} {t0 t1 : Nat} : Frames 225535 s (warmStopped s t0 t1) := by
  unfold warmStopped
  extract_lets s1 s2 idle mgd mark
  have h1 : Frames 225535 s s1 := Frames.foldl ((Frames.refl _ _).step evoluRestart_frames rfl) fun _ _ h => h.step hodCut_frames rfl
  clear_value s1
  have h2 : Frames 225535 s s2 := Frames.foldl h1 fun _ _ h => h.step courseLost_frames rfl
  clear_value s2
  refine Frames.step (a := 225535) h2 ⟨rfl, id, id, id, id, id, ?_, ?_, ?_, ?_, ?_, ?_, ?_, ?_, ?_, ?_, ?_, ?_, ?_, ?_, ?_, ?_, ?_, ?_, ?_, ?_⟩ (Nat.or_self _) <;> (intro x; first | (exact absurd x (by decide)) | rfl)

theorem warmBooted_frames {s : State} {cause : Nat} {bring : Bool} : Frames 510148 s (warmBooted s cause bring) := by
  unfold warmBooted
  extract_lets b next x y t
  have h1 : Frames 510148 s b.1 := (Frames.refl _ _).step boot_frames rfl
  clear_value b
  have h2 : Frames 510148 s t := Frames.set_power h1 rfl
  clear_value t
  exact Frames.ite (h2.step leaveBringUp_frames rfl) h2

theorem warmReset_frames {s : State} {cause : Nat} {bring : Bool} : Frames 1048575 s (warmReset s cause bring) := by
  unfold warmReset
  extract_lets s1 s2 t0 v t1 s3 s4 s5 x s6 s7
  have h1 : Frames 1048575 s s1 := ((Frames.refl _ _).step lastEvents_frames rfl).step pagesReset_frames rfl
  clear_value s1
  have h2 : Frames 1048575 s s2 := Frames.ite (h1.step ctrAdd_frames rfl) h1
  clear_value s2
  have h3 : Frames 1048575 s s3 := ((h2.step fresh_frames rfl).step warmStopped_frames rfl).step warmBooted_frames rfl
  clear_value s3
  have h4 : Frames 1048575 s s4 := (h3.step groupsMiss_frames rfl).step traceEnd_frames rfl
  clear_value s4
  have h5 : Frames 1048575 s s5 := ((h4.step mapApply_frames rfl).step retireStacks_frames rfl).step portsRetrain_frames rfl
  clear_value s5
  have h6 : Frames 1048575 s s6 := Frames.ite h5 (Frames.set_journal h5 rfl)
  clear_value s6
  have h7 : Frames 1048575 s s7 := Frames.foldl h6 fun _ _ h => h.step resumeFunc_frames rfl
  clear_value s7
  exact (Frames.foldl h7 fun _ _ h => h.step crewReset_frames rfl).step castReady_frames rfl

theorem execWatchdogExpiry_frames {s : State} : FramesN 1048575 s (execWatchdogExpiry s) := by
  unfold execWatchdogExpiry
  try dsimp only
  repeat' first
    | with_reducible apply Frames.refl
    | with_reducible assumption
    | (show _ = _; rfl)
    | with_reducible apply FramesN.powered
    | with_reducible apply Frames.step (g := warmReset_frames)
    | with_reducible apply Frames.set_power

/-! ## Power -/

theorem updPower_frames {s : State} {g : Power → Power} : Frames 32768 s (updPower s g) := by
  unfold updPower
  try dsimp only
  repeat' first
    | with_reducible apply Frames.refl
    | with_reducible assumption
    | (show _ = _; rfl)
    | with_reducible apply Frames.set_power

theorem stepClock_frames {s : State} {d : Nat} {up : Bool} : Frames 49152 s (stepClock s d up) := by
  unfold stepClock
  try dsimp only
  repeat' first
    | with_reducible apply Frames.refl
    | with_reducible assumption
    | (show _ = _; rfl)
    | with_reducible apply Frames.step (g := ctrAdd_frames)
    | with_reducible apply Frames.step (g := updPower_frames)
    | with_reducible apply Frames.ite
    | with_reducible apply FramesO.getD
    | split
    | ((with_reducible apply FramesO.of) <;> intro _)
    | dsimp only

theorem powerEvents_frames {s t : State} : Frames 8192 t (powerEvents s t) := by
  unfold powerEvents
  extract_lets u
  have h1 : Frames 8192 t u := Frames.ite (Frames.refl _ _) ((Frames.refl _ _).step raiseEvent_frames rfl)
  clear_value u
  exact Frames.ite h1 (h1.step raiseEvent_frames rfl)

theorem capControl_frames {s : State} : Frames 49152 s (capControl s) := by
  unfold capControl
  try dsimp only
  repeat' first
    | with_reducible apply Frames.refl
    | with_reducible assumption
    | (show _ = _; rfl)
    | with_reducible apply Frames.step (g := updPower_frames)
    | with_reducible apply Frames.step (g := stepClock_frames)
    | with_reducible apply Frames.ite
    | split
    | dsimp only

theorem execPowerSample_frames {w : Nat} {mv : Nat} {s : State} : FramesN 57345 s (execPowerSample w mv s) := by
  unfold execPowerSample
  try dsimp only
  repeat' first
    | with_reducible apply Frames.refl
    | with_reducible assumption
    | (show _ = _; rfl)
    | with_reducible apply FramesN.powered
    | with_reducible apply Frames.step (g := updPower_frames)
    | with_reducible apply Frames.step (g := ctrAdd_frames)
    | with_reducible apply Frames.step (g := raiseEvent_frames)
    | with_reducible apply Frames.step (g := powerEvents_frames)
    | with_reducible apply Frames.step (g := capControl_frames)
    | with_reducible apply Frames.ite
    | split
    | dsimp only
    | with_reducible apply Frames.set_now

theorem execClockStep_frames {d : Fin 3} {up : Bool} {s : State} : FramesN 49153 s (execClockStep d up s) := by
  unfold execClockStep
  try dsimp only
  repeat' first
    | with_reducible apply Frames.refl
    | with_reducible assumption
    | (show _ = _; rfl)
    | with_reducible apply FramesN.powered
    | with_reducible apply Frames.step (g := ask_frames)
    | with_reducible apply Frames.step (g := stepClock_frames)
    | with_reducible apply Frames.step (g := reach_frames)
    | with_reducible apply Frames.ite
    | with_reducible apply FramesO.getD
    | split
    | ((with_reducible apply FramesO.of) <;> intro _)
    | dsimp only

theorem tripOff_frames {s : State} {cause : Nat} {v : Int} : Frames 33408 s (tripOff s cause v) := by
  unfold tripOff
  try dsimp only
  repeat' first
    | with_reducible apply Frames.refl
    | with_reducible assumption
    | (show _ = _; rfl)
    | dsimp only
    | ((with_reducible apply Frames.set_host_rigger_power) <;> [skip; (first | rfl | exact fun h => h | exact fun h => put_ok _ _ h | exact fun h => memFresh_ok _ h | exact fun h => devFresh_ok h | exact fun h => ⟨h.1, writeN_wf _ _ _ h.2⟩ | exact fun h => writeN_wf _ _ _ h | exact fun h => writeL_wf _ _ h); (first | rfl | exact fun h => h | exact fun h => put_ok _ _ h | exact fun h => memFresh_ok _ h | exact fun h => devFresh_ok h | exact fun h => ⟨h.1, writeN_wf _ _ _ h.2⟩ | exact fun h => writeN_wf _ _ _ h | exact fun h => writeL_wf _ _ h); (first | rfl | exact fun h => h | exact fun h => put_ok _ _ h | exact fun h => memFresh_ok _ h | exact fun h => devFresh_ok h | exact fun h => ⟨h.1, writeN_wf _ _ _ h.2⟩ | exact fun h => writeN_wf _ _ _ h | exact fun h => writeL_wf _ _ h); (first | rfl | exact fun h => h | exact fun h => put_ok _ _ h | exact fun h => memFresh_ok _ h | exact fun h => devFresh_ok h | exact fun h => ⟨h.1, writeN_wf _ _ _ h.2⟩ | exact fun h => writeN_wf _ _ _ h | exact fun h => writeL_wf _ _ h)])
    | ((with_reducible apply Frames.set_host_power) <;> [skip; (first | rfl | exact fun h => h | exact fun h => put_ok _ _ h | exact fun h => memFresh_ok _ h | exact fun h => devFresh_ok h | exact fun h => ⟨h.1, writeN_wf _ _ _ h.2⟩ | exact fun h => writeN_wf _ _ _ h | exact fun h => writeL_wf _ _ h); (first | rfl | exact fun h => h | exact fun h => put_ok _ _ h | exact fun h => memFresh_ok _ h | exact fun h => devFresh_ok h | exact fun h => ⟨h.1, writeN_wf _ _ _ h.2⟩ | exact fun h => writeN_wf _ _ _ h | exact fun h => writeL_wf _ _ h); (first | rfl | exact fun h => h | exact fun h => put_ok _ _ h | exact fun h => memFresh_ok _ h | exact fun h => devFresh_ok h | exact fun h => ⟨h.1, writeN_wf _ _ _ h.2⟩ | exact fun h => writeN_wf _ _ _ h | exact fun h => writeL_wf _ _ h)])
    | ((with_reducible apply Frames.set_host_rigger) <;> [skip; (first | rfl | exact fun h => h | exact fun h => put_ok _ _ h | exact fun h => memFresh_ok _ h | exact fun h => devFresh_ok h | exact fun h => ⟨h.1, writeN_wf _ _ _ h.2⟩ | exact fun h => writeN_wf _ _ _ h | exact fun h => writeL_wf _ _ h); (first | rfl | exact fun h => h | exact fun h => put_ok _ _ h | exact fun h => memFresh_ok _ h | exact fun h => devFresh_ok h | exact fun h => ⟨h.1, writeN_wf _ _ _ h.2⟩ | exact fun h => writeN_wf _ _ _ h | exact fun h => writeL_wf _ _ h); (first | rfl | exact fun h => h | exact fun h => put_ok _ _ h | exact fun h => memFresh_ok _ h | exact fun h => devFresh_ok h | exact fun h => ⟨h.1, writeN_wf _ _ _ h.2⟩ | exact fun h => writeN_wf _ _ _ h | exact fun h => writeL_wf _ _ h)])
    | ((with_reducible apply Frames.set_rigger_power) <;> [skip; (first | rfl | exact fun h => h | exact fun h => put_ok _ _ h | exact fun h => memFresh_ok _ h | exact fun h => devFresh_ok h | exact fun h => ⟨h.1, writeN_wf _ _ _ h.2⟩ | exact fun h => writeN_wf _ _ _ h | exact fun h => writeL_wf _ _ h); (first | rfl | exact fun h => h | exact fun h => put_ok _ _ h | exact fun h => memFresh_ok _ h | exact fun h => devFresh_ok h | exact fun h => ⟨h.1, writeN_wf _ _ _ h.2⟩ | exact fun h => writeN_wf _ _ _ h | exact fun h => writeL_wf _ _ h)])
    | ((with_reducible apply Frames.set_host) <;> [skip; rfl; (first | exact fun h => h | exact fun h => put_ok _ _ h | exact fun h => memFresh_ok _ h | exact fun h => devFresh_ok h | exact fun h => ⟨h.1, writeN_wf _ _ _ h.2⟩ | exact fun h => writeN_wf _ _ _ h | exact fun h => writeL_wf _ _ h)])
    | with_reducible apply Frames.set_power
    | with_reducible apply Frames.set_rigger

theorem execUnderVoltageTrip_frames {mv : Nat} {s : State} : FramesN 33408 s (execUnderVoltageTrip mv s) := by
  unfold execUnderVoltageTrip
  try dsimp only
  repeat' first
    | with_reducible apply Frames.refl
    | with_reducible assumption
    | (show _ = _; rfl)
    | with_reducible apply FramesN.powered
    | with_reducible apply Frames.step (g := tripOff_frames)
    | with_reducible apply Frames.ite
    | split

theorem execOverVoltageTrip_frames {mv : Nat} {s : State} : FramesN 33408 s (execOverVoltageTrip mv s) := by
  unfold execOverVoltageTrip
  try dsimp only
  repeat' first
    | with_reducible apply Frames.refl
    | with_reducible assumption
    | with_reducible apply FramesO.none
    | (show _ = _; rfl)
    | with_reducible apply FramesO.some
    | ((with_reducible apply FramesO.map) <;> [skip; intro _ _])
    | with_reducible apply FramesN.powered
    | with_reducible apply Frames.step (g := tripOff_frames)
    | ((with_reducible apply Frames.foldl) <;> [skip; intro _ _ _])
    | ((with_reducible apply Frames.foldl_fst) <;> [skip; intro _ _ _])
    | ((with_reducible apply Frames.foldl_snd) <;> [skip; intro _ _ _])
    | with_reducible apply Frames.ite
    | with_reducible apply FramesO.ite
    | with_reducible apply FramesO.getD
    | split
    | ((with_reducible apply FramesO.of) <;> intro _)
    | with_reducible refine Frames.of_fst (by with_reducible assumption) ?_
    | with_reducible refine Frames.of_snd (by with_reducible assumption) ?_
    | (intro t e; cases e)
    | dsimp only
    | dsimp only [id]

theorem throttleControl_frames {s : State} {hot : Int} : Frames 49152 s (throttleControl s hot) := by
  unfold throttleControl
  try dsimp only
  repeat' first
    | with_reducible apply Frames.refl
    | with_reducible assumption
    | (show _ = _; rfl)
    | with_reducible apply Frames.step (g := updPower_frames)
    | with_reducible apply Frames.step (g := stepClock_frames)
    | with_reducible apply Frames.ite
    | split
    | dsimp only

theorem execThermalSample_frames {junctions : List Int} {stackTemps : List Int} {s : State} : FramesN 57985 s (execThermalSample junctions stackTemps s) := by
  unfold execThermalSample
  try dsimp only
  repeat' first
    | with_reducible apply Frames.refl
    | with_reducible assumption
    | (show _ = _; rfl)
    | with_reducible apply FramesN.powered
    | with_reducible apply Frames.step (g := updPower_frames)
    | with_reducible apply Frames.step (g := tripOff_frames)
    | with_reducible apply Frames.step (g := powerEvents_frames)
    | with_reducible apply Frames.step (g := throttleControl_frames)
    | with_reducible apply Frames.ite
    | with_reducible apply FramesO.getD
    | split
    | ((with_reducible apply FramesO.of) <;> intro _)
    | dsimp only
    | with_reducible apply Frames.set_now

theorem execReferenceLoss_frames {ref : Fin 3} {s : State} : FramesN 982782 s (execReferenceLoss ref s) := by
  unfold execReferenceLoss
  try dsimp only
  repeat' first
    | with_reducible apply Frames.refl
    | with_reducible assumption
    | (show _ = _; rfl)
    | with_reducible apply FramesN.powered
    | with_reducible apply Frames.step (g := updPower_frames)
    | with_reducible apply Frames.step (g := raiseEvent_frames)
    | with_reducible apply Frames.step (g := hotReset_frames)
    | with_reducible apply Frames.step (g := tripOff_frames)
    | with_reducible apply Frames.step (g := fresh_frames)
    | with_reducible apply Frames.step (g := pointLog_frames)
    | with_reducible apply Frames.step (g := hodPartFault_frames)
    | ((with_reducible apply Frames.foldl) <;> [skip; intro _ _ _])
    | ((with_reducible apply Frames.foldl_fst) <;> [skip; intro _ _ _])
    | ((with_reducible apply Frames.foldl_snd) <;> [skip; intro _ _ _])
    | with_reducible apply Frames.ite
    | split
    | with_reducible refine Frames.of_fst (by with_reducible assumption) ?_
    | with_reducible refine Frames.of_snd (by with_reducible assumption) ?_
    | dsimp only

theorem unitsFail_frames {s : State} {q : List UnitCmd} : Frames 5254 s (unitsFail s q) := by
  unfold unitsFail
  try dsimp only
  repeat' first
    | with_reducible apply Frames.refl
    | with_reducible assumption
    | (show _ = _; rfl)
    | with_reducible apply Frames.step (g := retireUnit_frames)
    | ((with_reducible apply Frames.foldl) <;> [skip; intro _ _ _])
    | dsimp only

theorem coreReset_frames {s : State} {cluster lcore : Nat} : Frames 1024 s (coreReset s cluster lcore) := by
  unfold coreReset
  try dsimp only
  repeat' first
    | with_reducible apply Frames.refl
    | with_reducible assumption
    | (show _ = _; rfl)
    | ((with_reducible apply updAttempt_step) <;> [skip; rfl; (intro a h; first | exact h | exact attOk_ite h h | (split <;> exact h))])
    | ((with_reducible apply Frames.foldl) <;> [skip; intro _ _ _])
    | with_reducible apply Frames.ite
    | split
    | dsimp only

theorem coxReset_frames {s : State} : Frames 791618 s (coxReset s) := by
  unfold coxReset
  try dsimp only
  repeat' first
    | with_reducible apply Frames.refl
    | with_reducible assumption
    | (show _ = _; rfl)
    | with_reducible apply Frames.step (g := coxFail_frames)
    | ((with_reducible apply Frames.foldl) <;> [skip; intro _ _ _])
    | with_reducible apply Frames.ite
    | split
    | dsimp only

theorem execPartReset_frames {kind : Fin 9} {n : Nat} {s : State} : FramesN 982782 s (execPartReset kind n s) := by
  unfold execPartReset
  try dsimp only
  repeat' first
    | with_reducible apply Frames.refl
    | with_reducible assumption
    | (show _ = _; rfl)
    | with_reducible apply FramesN.powered
    | with_reducible apply Frames.step (g := updPower_frames)
    | with_reducible apply Frames.step (g := freshGen_frames)
    | with_reducible apply Frames.step (g := freeTiles_frames)
    | with_reducible apply Frames.step (g := updCourse_frames)
    | ((with_reducible apply updPallet_step) <;> [skip; rfl; (intro hp; first | exact hp | exact writeL_wf _ _ hp | rfl)])
    | with_reducible apply Frames.step (g := castReady_frames)
    | with_reducible apply Frames.step (g := unitsFail_frames)
    | with_reducible apply Frames.step (g := updTrowel_frames)
    | with_reducible apply Frames.step (g := hodPartFault_frames)
    | with_reducible apply Frames.step (g := palletWriteL_frames)
    | with_reducible apply Frames.step (g := coreReset_frames)
    | with_reducible apply Frames.step (g := takeDown_frames)
    | with_reducible apply Frames.step (g := coxReset_frames)
    | split
    | with_reducible refine Frames.of_snd (by with_reducible assumption) ?_
    | dsimp only

theorem execIdleEntry_frames {s : State} : FramesN 32768 s (execIdleEntry s) := by
  unfold execIdleEntry
  try dsimp only
  repeat' first
    | with_reducible apply Frames.refl
    | with_reducible assumption
    | (show _ = _; rfl)
    | with_reducible apply FramesN.powered
    | with_reducible apply Frames.step (g := updPower_frames)
    | with_reducible apply Frames.ite
    | split
    | dsimp only

theorem prepareRemoval_frames {s : State} : Frames 40960 s (prepareRemoval s) := by
  unfold prepareRemoval
  try dsimp only
  repeat' first
    | with_reducible apply Frames.refl
    | with_reducible assumption
    | (show _ = _; rfl)
    | with_reducible apply Frames.step (g := removalCheck_frames)
    | with_reducible apply Frames.step (g := moduleEvent_frames)
    | with_reducible apply Frames.step (g := updPower_frames)
    | with_reducible apply Frames.ite
    | split
    | dsimp only

theorem coldPallets_ok {v : Vector Pallet 8} : ∀ n : Fin 8, (v.map (coldPallet 0))[n].mem.wf = true := by
  intro n
  simp only [Fin.getElem_fin, Vector.getElem_map]
  rfl

theorem coldHbm_ok {h : Hbm} (e : h.mem = Vector.replicate 20 Mem.empty) (d : h.dev = Mem.empty) : HbmOk h := by
  refine ⟨fun k => ?_, by rw [d]; rfl⟩
  rw [e]
  simp only [Fin.getElem_fin, Vector.getElem_replicate]
  rfl

theorem coldUnits_frames {s : State} : Frames 131932 s (coldUnits s) := by
  unfold coldUnits
  extract_lets out
  split
  · refine Frames.step (a := 131932) (Frames.refl _ _) ⟨rfl, fun _ n => by simp only [Fin.getElem_fin, Vector.getElem_replicate]; rfl, fun _ => coldHbm_ok rfl rfl, id, id, id, ?_, ?_, ?_, ?_, ?_, ?_, ?_, ?_, ?_, ?_, ?_, ?_, ?_, ?_, ?_, ?_, ?_, ?_, ?_, ?_⟩ (Nat.or_self _) <;> (intro x; first | (exact absurd x (by decide)) | rfl)
  · refine Frames.step (a := 131932) (Frames.refl _ _) ⟨rfl, fun _ => coldPallets_ok, fun _ => coldHbm_ok rfl rfl, id, id, id, ?_, ?_, ?_, ?_, ?_, ?_, ?_, ?_, ?_, ?_, ?_, ?_, ?_, ?_, ?_, ?_, ?_, ?_, ?_, ?_⟩ (Nat.or_self _) <;> (intro x; first | (exact absurd x (by decide)) | rfl)

theorem coldContents_frames {s : State} : Frames 16510 s (coldContents s) := by
  unfold coldContents
  extract_lets g mems hb s1
  have h1 : Frames 16510 s s1 := by
    refine Frames.step (a := 16510) (Frames.refl _ _) ⟨rfl, id, fun h => freshMems_ok h rfl rfl, id, id, id, ?_, ?_, ?_, ?_, ?_, ?_, ?_, ?_, ?_, ?_, ?_, ?_, ?_, ?_, ?_, ?_, ?_, ?_, ?_, ?_⟩ (Nat.or_self _) <;> (intro x; first | (exact absurd x (by decide)) | rfl)
  clear_value s1
  exact Frames.foldl h1 fun _ _ h => h.step courseLost_frames rfl

theorem coldStarted_frames {lasers : List Nat} {s : State} : Frames 524287 s (coldStarted lasers s) := by
  unfold coldStarted
  dsimp only
  have h1 : Frames 524287 s (coldUnits s) := (Frames.refl _ _).step coldUnits_frames rfl
  generalize coldUnits s = s1 at h1
  have h2 : ∀ t, Frames 524287 s t → Frames 524287 s (boot (mapApply (coldContents t))).1 := fun t h =>
    ((h.step coldContents_frames rfl).step mapApply_frames rfl).step boot_frames rfl
  refine Frames.ite (h2 _ ?_) (Frames.step (h2 _ ?_) updPower_frames rfl)
  · refine Frames.step (a := 524287) h1 ⟨rfl, id, id, id, fun _ => rfl, fun _ c => by simp only [Fin.getElem_fin, Vector.getElem_replicate]; exact crewOk_none rfl, ?_, ?_, ?_, ?_, ?_, ?_, ?_, ?_, ?_, ?_, ?_, ?_, ?_, ?_, ?_, ?_, ?_, ?_, ?_, ?_⟩ (Nat.or_self _) <;> (intro x; first | (exact absurd x (by decide)) | rfl)
  · refine Frames.step (a := 524287) h1 ⟨rfl, id, id, id, fun _ => rfl, fun _ c => by simp only [Fin.getElem_fin, Vector.getElem_replicate]; exact crewOk_none rfl, ?_, ?_, ?_, ?_, ?_, ?_, ?_, ?_, ?_, ?_, ?_, ?_, ?_, ?_, ?_, ?_, ?_, ?_, ?_, ?_⟩ (Nat.or_self _) <;> (intro x; first | (exact absurd x (by decide)) | rfl)

theorem execColdStart_frames {lasers : List Nat} {s : State} : FramesN 524287 s (execColdStart lasers s) := by
  unfold execColdStart
  try dsimp only
  repeat' first
    | with_reducible apply Frames.refl
    | with_reducible assumption
    | with_reducible apply FramesO.none
    | (show _ = _; rfl)
    | with_reducible apply FramesO.some
    | ((with_reducible apply FramesO.map) <;> [skip; intro _ _])
    | with_reducible apply Frames.step (g := coldStarted_frames)
    | ((with_reducible apply Frames.foldl) <;> [skip; intro _ _ _])
    | ((with_reducible apply Frames.foldl_fst) <;> [skip; intro _ _ _])
    | ((with_reducible apply Frames.foldl_snd) <;> [skip; intro _ _ _])
    | with_reducible apply Frames.ite
    | with_reducible apply FramesO.ite
    | with_reducible apply FramesO.getD
    | split
    | ((with_reducible apply FramesO.of) <;> intro _)
    | with_reducible refine Frames.of_fst (by with_reducible assumption) ?_
    | with_reducible refine Frames.of_snd (by with_reducible assumption) ?_
    | (intro t e; cases e)
    | dsimp only
    | dsimp only [id]

/-! ## Pointing -/

theorem actPut_frames {s : State} {a : Activity} : Frames 131072 s (actPut s a) := by
  unfold actPut
  try dsimp only
  repeat' first
    | with_reducible apply Frames.refl
    | with_reducible assumption
    | (show _ = _; rfl)
    | dsimp only
    | dsimp only [id]
    | with_reducible apply Frames.set_pointing

theorem execActivityUrgent_frames {id : Fin 8} {unit : Nat} {s : State} : FramesN 131072 s (execActivityUrgent id unit s) := by
  unfold execActivityUrgent
  try dsimp only
  repeat' first
    | with_reducible apply Frames.refl
    | with_reducible assumption
    | (show _ = _; rfl)
    | with_reducible apply FramesN.powered
    | with_reducible apply Frames.step (g := askTest_frames)
    | with_reducible apply Frames.ite
    | split
    | dsimp only
    | dsimp only [id]

theorem execPointingPreemption_frames {id : Fin 8} {unit : Nat} {ns : BitVec 32} {s : State} : FramesN 156672 s (execPointingPreemption id unit ns s) := by
  unfold execPointingPreemption
  try dsimp only
  repeat' first
    | with_reducible apply Frames.refl
    | with_reducible assumption
    | (show _ = _; rfl)
    | with_reducible apply FramesN.powered
    | with_reducible apply Frames.step (g := actPut_frames)
    | with_reducible apply Frames.step (g := pointLog_frames)
    | with_reducible apply Frames.step (g := ctrAdd_frames)
    | with_reducible apply Frames.step (g := cardPoint_frames)
    | with_reducible apply Frames.ite
    | split
    | dsimp only

theorem execDeadlineMissed_frames {id : Fin 8} {unit : Nat} {s : State} : FramesN 155649 s (execDeadlineMissed id unit s) := by
  unfold execDeadlineMissed
  try dsimp only
  repeat' first
    | with_reducible apply Frames.refl
    | with_reducible assumption
    | (show _ = _; rfl)
    | with_reducible apply FramesN.powered
    | with_reducible apply Frames.step (g := actPut_frames)
    | with_reducible apply Frames.step (g := reach_frames)
    | with_reducible apply Frames.step (g := pointLog_frames)
    | with_reducible apply Frames.step (g := ctrAdd_frames)
    | with_reducible apply Frames.ite
    | split
    | dsimp only

theorem laneFailed_frames {s : State} {n : Fin 8} {x : Nat} : Frames 188438 s (laneFailed s n x) := by
  unfold laneFailed
  try dsimp only
  repeat' first
    | with_reducible apply Frames.refl
    | with_reducible assumption
    | (show _ = _; rfl)
    | with_reducible apply Frames.step (g := testFailed_frames)
    | with_reducible apply Frames.step (g := mapWrite_frames)
    | with_reducible apply Frames.step (g := updCourse_frames)
    | with_reducible apply Frames.step (g := courseOut_frames)
    | with_reducible apply Frames.ite
    | split
    | dsimp only

theorem execCourseLaneSelfTest_frames {n : Fin 8} {first : Nat} {failing : List Nat} {s : State} : FramesN 188438 s (execCourseLaneSelfTest n first failing s) := by
  unfold execCourseLaneSelfTest
  try dsimp only
  repeat' first
    | with_reducible apply Frames.refl
    | with_reducible assumption
    | (show _ = _; rfl)
    | with_reducible apply FramesN.powered
    | with_reducible apply Frames.step (g := laneFailed_frames)
    | with_reducible apply Frames.step (g := actDone_frames)
    | ((with_reducible apply Frames.foldl) <;> [skip; intro _ _ _])
    | with_reducible apply Frames.ite
    | split
    | dsimp only

theorem execTrowelCoxLaneTest_frames {u : LaneUnit} {failing : Nat} {s : State} : FramesN 188446 s (execTrowelCoxLaneTest u failing s) := by
  unfold execTrowelCoxLaneTest
  try dsimp only
  repeat' first
    | with_reducible apply Frames.refl
    | with_reducible assumption
    | (show _ = _; rfl)
    | with_reducible apply FramesN.powered
    | with_reducible apply Frames.step (g := actDone_frames)
    | with_reducible apply Frames.step (g := laneGap_frames)
    | fail_if_no_progress ((with_reducible apply Frames.set_pointing) <;> [skip; rfl])
    | with_reducible apply Frames.ite
    | split
    | dsimp only

theorem execPalletBankTest_frames {n : Fin 8} {pb : Fin 136} {ok : Pass} {s : State} : FramesN 155664 s (execPalletBankTest n pb ok s) := by
  unfold execPalletBankTest
  try dsimp only
  repeat' first
    | with_reducible apply Frames.refl
    | with_reducible assumption
    | (show _ = _; rfl)
    | with_reducible apply FramesN.powered
    | ((with_reducible apply updPallet_step) <;> [skip; rfl; (intro hp; first | exact hp | exact writeL_wf _ _ hp | rfl)])
    | with_reducible apply Frames.step (g := testFailed_frames)
    | with_reducible apply Frames.step (g := mapWrite_frames)
    | with_reducible apply Frames.step (g := actDone_frames)
    | with_reducible apply Frames.ite
    | split
    | dsimp only

theorem execCoreRotation_frames {k : Fin 4} {ok : Pass} {s : State} : FramesN 155648 s (execCoreRotation k ok s) := by
  unfold execCoreRotation
  try dsimp only
  repeat' first
    | with_reducible apply Frames.refl
    | with_reducible assumption
    | (show _ = _; rfl)
    | with_reducible apply FramesN.powered
    | with_reducible apply Frames.step (g := mapWrite_frames)
    | with_reducible apply Frames.step (g := testFailed_frames)
    | with_reducible apply Frames.step (g := moduleEvent_frames)
    | with_reducible apply Frames.step (g := pointLog_frames)
    | with_reducible apply Frames.step (g := setDegraded_frames)
    | with_reducible apply Frames.step (g := actDone_frames)
    | fail_if_no_progress ((with_reducible apply Frames.set_pointing) <;> [skip; rfl])
    | ((with_reducible apply Frames.foldl) <;> [skip; intro _ _ _])
    | ((with_reducible apply Frames.foldl_fst) <;> [skip; intro _ _ _])
    | ((with_reducible apply Frames.foldl_snd) <;> [skip; intro _ _ _])
    | with_reducible apply Frames.ite
    | split
    | with_reducible refine Frames.of_fst (by with_reducible assumption) ?_
    | with_reducible refine Frames.of_snd (by with_reducible assumption) ?_
    | dsimp only

theorem execLockstepMismatch_frames {core0 core1 spare : Pass} {s : State} : FramesN 188418 s (execLockstepMismatch core0 core1 spare s) := by
  unfold execLockstepMismatch
  try dsimp only
  repeat' first
    | with_reducible apply Frames.refl
    | with_reducible assumption
    | (show _ = _; rfl)
    | with_reducible apply FramesN.powered
    | with_reducible apply Frames.step (g := fresh_frames)
    | with_reducible apply Frames.step (g := pointLog_frames)
    | with_reducible apply Frames.step (g := repairDone_frames)
    | with_reducible apply Frames.step (g := leaveService_frames)
    | with_reducible apply Frames.step (g := setDegraded_frames)
    | with_reducible apply Frames.ite
    | split
    | with_reducible refine Frames.of_snd (by with_reducible assumption) ?_
    | dsimp only
    | with_reducible apply Frames.set_pointing

end Sys2Proof.Machine
end

