-- ==== Sys2Proof/Laws/FramesDict.lean ====
section
/-! SUPPORT. What each function of the state may change, in the terms of Frames: HBM, the dictionary services and the Evolu frames. -/

set_option linter.all false

namespace Sys2Proof.Machine

open Sys2Proof

/-! ## Hbm -/

theorem memoryRead_frames {s : State} {p : Fin 8} {a : Nat} {conv : Bool} : Frames 942144 s (memoryRead s p a conv) := by
  unfold memoryRead
  try dsimp only
  repeat' first
    | with_reducible apply Frames.refl
    | with_reducible assumption
    | (show _ = _; rfl)
    | with_reducible apply Frames.step (g := emit_frames)
    | with_reducible apply Frames.step (g := ueEventAt_frames)
    | with_reducible apply Frames.step (g := hbmTraffic_frames)
    | with_reducible apply Frames.step (g := hbmFix_frames)
    | with_reducible apply Frames.ite
    | split
    | dsimp only

theorem memoryAdd_frames {s : State} {p : Fin 8} {a fmt : Nat} {v : BitVec 64} : Frames 942144 s (memoryAdd s p a fmt v) := by
  unfold memoryAdd
  try dsimp only
  repeat' first
    | with_reducible apply Frames.refl
    | with_reducible assumption
    | (show _ = _; rfl)
    | with_reducible apply Frames.step (g := emit_frames)
    | with_reducible apply Frames.step (g := ueEventAt_frames)
    | with_reducible apply Frames.step (g := hbmTraffic_frames)
    | with_reducible apply Frames.step (g := hbmFix_frames)
    | with_reducible apply Frames.step (g := hbmAdds_frames)
    | with_reducible apply Frames.ite
    | split
    | with_reducible refine Frames.of_fst (by with_reducible assumption) ?_
    | dsimp only

theorem execMemorySideAdd_frames {p : Fin 8} {a : Nat} {op : MemOp} {s : State} : FramesN 942144 s (execMemorySideAdd p a op s) := by
  unfold execMemorySideAdd
  try dsimp only
  repeat' first
    | with_reducible apply Frames.refl
    | with_reducible assumption
    | (show _ = _; rfl)
    | with_reducible apply FramesN.powered
    | with_reducible apply Frames.step (g := memoryAdd_frames)
    | with_reducible apply Frames.step (g := memoryRead_frames)
    | with_reducible apply Frames.ite
    | split
    | dsimp only

theorem execRegulatorRequest_frames {p : Option (Fin 8)} {k : Fin 20} {n : Nat} {s : State} : FramesN 786496 s (execRegulatorRequest p k n s) := by
  unfold execRegulatorRequest
  try dsimp only
  repeat' first
    | with_reducible apply Frames.refl
    | with_reducible assumption
    | (show _ = _; rfl)
    | with_reducible apply FramesN.powered
    | with_reducible apply Frames.step (g := regAsk_frames)
    | with_reducible apply Frames.ite
    | split
    | dsimp only

theorem scrubSector_frames {s : State} {k : Fin 20} {pc : Fin 64} {off errs : Nat} : Frames 155714 s (scrubSector s k pc off errs) := by
  unfold scrubSector
  try dsimp only
  repeat' first
    | with_reducible apply Frames.refl
    | with_reducible assumption
    | (show _ = _; rfl)
    | with_reducible apply Frames.step (g := correctSector_frames)
    | with_reducible apply Frames.step (g := fresh_frames)
    | with_reducible apply Frames.step (g := pointLog_frames)
    | with_reducible apply Frames.step (g := ueEvent_frames)
    | fail_if_no_progress ((with_reducible apply Frames.set_hbm) <;> [skip; rfl; (first | exact fun h => h | exact fun h => put_ok _ _ h | exact fun h => memFresh_ok _ h | exact fun h => devFresh_ok h | exact fun h => ⟨h.1, writeN_wf _ _ _ h.2⟩ | exact fun h => writeN_wf _ _ _ h | exact fun h => writeL_wf _ _ h)])
    | with_reducible apply Frames.ite
    | split
    | with_reducible refine Frames.of_snd (by with_reducible assumption) ?_
    | dsimp only

theorem execPatrolScrub_frames {k : Fin 20} {pc : Fin 64} {off errs : Nat} {s : State} : FramesN 155714 s (execPatrolScrub k pc off errs s) := by
  unfold execPatrolScrub
  try dsimp only
  repeat' first
    | with_reducible apply Frames.refl
    | with_reducible assumption
    | (show _ = _; rfl)
    | with_reducible apply FramesN.powered
    | with_reducible apply Frames.step (g := scrubSector_frames)
    | with_reducible apply Frames.step (g := fresh_frames)
    | with_reducible apply Frames.step (g := actDone_frames)
    | with_reducible apply Frames.step (g := pointLog_frames)
    | with_reducible apply Frames.ite
    | split
    | with_reducible refine Frames.of_snd (by with_reducible assumption) ?_
    | dsimp only

theorem execRowRepair_frames {k : Fin 20} {pc : Fin 64} {bank : Fin 48} {row : Nat} {s : State} : FramesN 155712 s (execRowRepair k pc bank row s) := by
  unfold execRowRepair
  try dsimp only
  repeat' first
    | with_reducible apply Frames.refl
    | with_reducible assumption
    | (show _ = _; rfl)
    | with_reducible apply FramesN.powered
    | with_reducible apply Frames.step (g := updStack_frames)
    | with_reducible apply Frames.step (g := repairDone_frames)
    | with_reducible apply Frames.step (g := pointLog_frames)
    | fail_if_no_progress ((with_reducible apply Frames.set_pointing) <;> [skip; rfl])
    | with_reducible apply Frames.ite
    | split
    | dsimp only

theorem execPseudoChannelRemap_frames {k : Fin 20} {pc : Fin 64} {s : State} : FramesN 155712 s (execPseudoChannelRemap k pc s) := by
  unfold execPseudoChannelRemap
  try dsimp only
  repeat' first
    | with_reducible apply Frames.refl
    | with_reducible assumption
    | (show _ = _; rfl)
    | with_reducible apply FramesN.powered
    | with_reducible apply Frames.step (g := updStack_frames)
    | with_reducible apply Frames.step (g := genBump_frames)
    | with_reducible apply Frames.step (g := repairDone_frames)
    | with_reducible apply Frames.step (g := pointLog_frames)
    | with_reducible apply Frames.step (g := setDegraded_frames)
    | with_reducible apply Frames.step (g := raiseTo_frames)
    | with_reducible apply Frames.ite
    | split
    | dsimp only

theorem askRetire_frames {s : State} {k : Fin 20} {v : Byte} : Frames 64 s (askRetire s k v) := by
  unfold askRetire
  try dsimp only
  repeat' first
    | with_reducible apply Frames.refl
    | with_reducible assumption
    | (show _ = _; rfl)
    | with_reducible apply Frames.step (g := updStack_frames)
    | with_reducible apply Frames.ite
    | split
    | dsimp only

theorem resumeStacks_frames {s : State} : Frames 64 s (resumeStacks s) := by
  unfold resumeStacks
  try dsimp only
  repeat' first
    | with_reducible apply Frames.refl
    | with_reducible assumption
    | (show _ = _; rfl)
    | dsimp only
    | ((with_reducible apply Frames.set_hbm) <;> [skip; rfl; (first | exact fun h => h | exact fun h => put_ok _ _ h | exact fun h => memFresh_ok _ h | exact fun h => devFresh_ok h | exact fun h => ⟨h.1, writeN_wf _ _ _ h.2⟩ | exact fun h => writeN_wf _ _ _ h | exact fun h => writeL_wf _ _ h)])

theorem setMarginStack_frames {s : State} {v : Byte} : Frames 64 s (setMarginStack s v) := by
  unfold setMarginStack
  try dsimp only
  repeat' first
    | with_reducible apply Frames.refl
    | with_reducible assumption
    | (show _ = _; rfl)
    | with_reducible apply Frames.step (g := resumeStacks_frames)
    | with_reducible apply Frames.step (g := updStack_frames)
    | with_reducible apply Frames.ite
    | split
    | dsimp only
    | ((with_reducible apply Frames.set_hbm) <;> [skip; rfl; (first | exact fun h => h | exact fun h => put_ok _ _ h | exact fun h => memFresh_ok _ h | exact fun h => devFresh_ok h | exact fun h => ⟨h.1, writeN_wf _ _ _ h.2⟩ | exact fun h => writeN_wf _ _ _ h | exact fun h => writeL_wf _ _ h)])

theorem startMargin_frames {s : State} {v : Byte} : Frames 66 s (startMargin s v) := by
  unfold startMargin
  try dsimp only
  repeat' first
    | with_reducible apply Frames.refl
    | with_reducible assumption
    | (show _ = _; rfl)
    | with_reducible apply Frames.step (g := freshGen_frames)
    | fail_if_no_progress ((with_reducible apply Frames.set_hbm) <;> [skip; rfl; (first | exact fun h => h | exact fun h => put_ok _ _ h | exact fun h => memFresh_ok _ h | exact fun h => devFresh_ok h | exact fun h => ⟨h.1, writeN_wf _ _ _ h.2⟩ | exact fun h => writeN_wf _ _ _ h | exact fun h => writeL_wf _ _ h)])
    | with_reducible apply Frames.ite
    | split
    | with_reducible refine Frames.of_snd (by with_reducible assumption) ?_
    | dsimp only

theorem execMarginingReady_frames {s : State} : FramesN 64 s (execMarginingReady s) := by
  unfold execMarginingReady
  try dsimp only
  repeat' first
    | with_reducible apply Frames.refl
    | with_reducible assumption
    | (show _ = _; rfl)
    | with_reducible apply FramesN.powered
    | with_reducible apply Frames.ite
    | split
    | ((with_reducible apply Frames.set_hbm) <;> [skip; rfl; (first | exact fun h => h | exact fun h => put_ok _ _ h | exact fun h => memFresh_ok _ h | exact fun h => devFresh_ok h | exact fun h => ⟨h.1, writeN_wf _ _ _ h.2⟩ | exact fun h => writeN_wf _ _ _ h | exact fun h => writeL_wf _ _ h)])

theorem execMarginingDone_frames {map : List (BitVec 16)} {s : State} : FramesN 16448 s (execMarginingDone map s) := by
  unfold execMarginingDone
  try dsimp only
  repeat' first
    | with_reducible apply Frames.refl
    | with_reducible assumption
    | (show _ = _; rfl)
    | with_reducible apply FramesN.powered
    | with_reducible apply Frames.step (g := genBump_frames)
    | with_reducible apply Frames.ite
    | split
    | dsimp only
    | ((with_reducible apply Frames.set_hbm) <;> [skip; rfl; (first | exact fun h => h | exact fun h => put_ok _ _ h | exact fun h => memFresh_ok _ h | exact fun h => devFresh_ok h | exact fun h => ⟨h.1, writeN_wf _ _ _ h.2⟩ | exact fun h => writeN_wf _ _ _ h | exact fun h => writeL_wf _ _ h)])

theorem execInvalidScrub_frames {s : State} : FramesN 16448 s (execInvalidScrub s) := by
  unfold execInvalidScrub
  try dsimp only
  repeat' first
    | with_reducible apply Frames.refl
    | with_reducible assumption
    | (show _ = _; rfl)
    | with_reducible apply FramesN.powered
    | with_reducible apply Frames.step (g := resumeStacks_frames)
    | with_reducible apply Frames.step (g := genBump_frames)
    | with_reducible apply Frames.ite
    | split
    | dsimp only
    | ((with_reducible apply Frames.set_hbm) <;> [skip; rfl; (first | exact fun h => h | exact fun h => put_ok _ _ h | exact fun h => memFresh_ok _ h | exact fun h => devFresh_ok h | exact fun h => ⟨h.1, writeN_wf _ _ _ h.2⟩ | exact fun h => writeN_wf _ _ _ h | exact fun h => writeL_wf _ _ h)])

/-! ## DictApply -/

theorem layOver_frames {s : State} {vs : List (ObjKey × List Byte)} : Frames 16384 s (layOver s vs) := by
  unfold layOver
  try dsimp only
  repeat' first
    | with_reducible apply Frames.refl
    | with_reducible assumption
    | (show _ = _; rfl)
    | with_reducible apply Frames.step (g := setObj_frames)
    | ((with_reducible apply Frames.foldl) <;> [skip; intro _ _ _])
    | dsimp only

theorem putConflicts_frames {s : State} {l : List Conflict} : Frames 16384 s (putConflicts s l) := by
  unfold putConflicts
  try dsimp only
  repeat' first
    | with_reducible apply Frames.refl
    | with_reducible assumption
    | (show _ = _; rfl)
    | with_reducible apply Frames.step (g := genBump_frames)
    | with_reducible apply Frames.set_dict

theorem eachEntry_step {m : Nat} {r s : State} {w : Nat} {d : List Byte} {first : Nat} {g : State → Nat → Nat → State} (hs : Frames m r s)
    (hgo : ∀ t a b, Frames m r t → Frames m r (g t a b)) : Frames m r (eachEntry w d first s g) := by
  unfold eachEntry
  exact Frames.foldl hs fun t _ ht => hgo t _ _ ht

theorem unitTakes_frames {s : State} {k : ObjKey} {off : Nat} {d : List Byte} : Frames 270540 s (unitTakes s k off d) := by
  unfold unitTakes
  try dsimp only
  repeat' first
    | with_reducible apply Frames.refl
    | with_reducible assumption
    | (show _ = _; rfl)
    | with_reducible apply Frames.step (g := clearSticky_frames)
    | with_reducible apply Frames.step (g := setCheck_frames)
    | with_reducible apply Frames.step (g := clearOffender_frames)
    | with_reducible apply Frames.step (g := setMarginStack_frames)
    | ((with_reducible apply eachEntry_step) <;> [skip; (intro _ _ _ _; try dsimp only)])
    | with_reducible apply Frames.step (g := writeHostRegion_frames)
    | with_reducible apply Frames.step (g := writeCollRegion_frames)
    | with_reducible apply Frames.step (g := writeHandle_frames)
    | with_reducible apply Frames.step (g := evoluEvent_frames)
    | with_reducible apply Frames.step (g := updEvolu_frames)
    | with_reducible apply Frames.step (g := groupWrite_frames)
    | with_reducible apply Frames.ite
    | split
    | dsimp only

theorem takeValue_frames {s : State} {k : ObjKey} {off : Nat} {d : List Byte} : Frames 286924 s (takeValue s k off d) := by
  unfold takeValue
  try dsimp only
  repeat' first
    | with_reducible apply Frames.refl
    | with_reducible assumption
    | (show _ = _; rfl)
    | with_reducible apply Frames.step (g := genBump_frames)
    | with_reducible apply Frames.step (g := unitTakes_frames)
    | with_reducible apply Frames.step (g := setObj_frames)
    | with_reducible apply Frames.ite
    | with_reducible apply FramesO.getD
    | split
    | ((with_reducible apply FramesO.of) <;> intro _)
    | dsimp only

theorem anchorsChanged_frames {old new_ : List Byte} {s : State} : Frames 90112 s (anchorsChanged old new_ s) := by
  unfold anchorsChanged
  try dsimp only
  repeat' first
    | with_reducible apply Frames.refl
    | with_reducible assumption
    | (show _ = _; rfl)
    | with_reducible apply Frames.step (g := closeSession_frames)
    | ((with_reducible apply Frames.foldl) <;> [skip; intro _ _ _])
    | with_reducible apply Frames.ite
    | split
    | dsimp only

theorem urgentAgain_frames {s : State} {id : Nat} : Frames 131074 s (urgentAgain s id) := by
  unfold urgentAgain
  try dsimp only
  repeat' first
    | with_reducible apply Frames.refl
    | with_reducible assumption
    | (show _ = _; rfl)
    | with_reducible apply Frames.step (g := fresh_frames)
    | fail_if_no_progress ((with_reducible apply Frames.set_pointing) <;> [skip; rfl])
    | with_reducible apply Frames.ite
    | split
    | with_reducible refine Frames.of_snd (by with_reducible assumption) ?_
    | dsimp only

theorem afterValue_frames {s : State} {k : ObjKey} : Frames 415234 s (afterValue s k) := by
  unfold afterValue
  split
  · exact (Frames.refl _ _).step ringsCheck_frames rfl
  split
  · exact (Frames.refl _ _).step portsRetrain_frames rfl
  split
  · exact ((Frames.refl _ _).set_rigger rfl).step syncChoose_frames rfl
  split
  · extract_lets c
    split
    · exact updCrew_step (Frames.refl _ _) rfl (crewOk_same rfl)
    · exact updCrew_step (Frames.refl _ _) rfl (crewOk_same rfl)
    · exact Frames.refl _ _
  split
  · exact ((Frames.refl _ _).step genBump_frames rfl).step updCox_frames rfl
  split
  · exact (Frames.refl _ _).step traceApply_frames rfl
  · exact Frames.ite ((Frames.refl _ _).step urgentAgain_frames rfl) (Frames.refl _ _)

theorem storeFlash_frames {s : State} {vs : List (ObjKey × List Byte)} : Frames 155648 s (storeFlash s vs).1 := by
  unfold storeFlash
  try dsimp only
  repeat' first
    | with_reducible apply Frames.refl
    | with_reducible assumption
    | (show _ = _; rfl)
    | with_reducible apply Frames.step (g := flashLog_frames)
    | fail_if_no_progress ((with_reducible apply Frames.set_dict) <;> [skip; rfl])
    | ((with_reducible apply Frames.foldl) <;> [skip; intro _ _ _])
    | ((with_reducible apply Frames.foldl_fst) <;> [skip; intro _ _ _])
    | ((with_reducible apply Frames.foldl_snd) <;> [skip; intro _ _ _])
    | with_reducible apply Frames.ite
    | split
    | with_reducible refine Frames.of_fst (by with_reducible assumption) ?_
    | with_reducible refine Frames.of_snd (by with_reducible assumption) ?_
    | dsimp only

theorem partsLeave_frames {s h : State} : Frames 457982 s (partsLeave s h) := by
  unfold partsLeave
  try dsimp only
  repeat' first
    | with_reducible apply Frames.refl
    | with_reducible assumption
    | (show _ = _; rfl)
    | with_reducible apply Frames.step (g := dropObj_frames)
    | with_reducible apply Frames.step (g := funcReset_frames)
    | with_reducible apply Frames.step (g := dissolveCrew_frames)
    | with_reducible apply Frames.step (g := genBump_frames)
    | with_reducible apply Frames.step (g := courseZeroed_frames)
    | ((with_reducible apply Frames.foldl) <;> [skip; intro _ _ _])
    | with_reducible apply Frames.ite
    | split
    | dsimp only

theorem takeForce_frames {s0 : State} {vs : List (ObjKey × List Byte)} : Frames 1048318 s0 (takeForce s0 vs) := by
  unfold takeForce
  try dsimp only
  repeat' first
    | with_reducible apply Frames.refl
    | with_reducible assumption
    | (show _ = _; rfl)
    | with_reducible apply Frames.step (g := layOver_frames)
    | with_reducible apply Frames.step (g := partsLeave_frames)
    | with_reducible apply Frames.step (g := setBucket_frames)
    | with_reducible apply Frames.step (g := takeValue_frames)
    | with_reducible apply Frames.step (g := afterValue_frames)
    | with_reducible apply Frames.step (g := anchorsChanged_frames)
    | with_reducible apply Frames.step (g := applyMembership_frames)
    | with_reducible apply Frames.step (g := groupsCheck_frames)
    | with_reducible apply Frames.step (g := castReady_frames)
    | with_reducible apply Frames.step (g := moduleEvent_frames)
    | ((with_reducible apply Frames.foldl) <;> [skip; intro _ _ _])
    | with_reducible apply Frames.ite
    | split
    | dsimp only

theorem applySet_frames {s : State} {x : PendSet} : Frames 1048318 s (applySet s x) := by
  unfold applySet
  try dsimp only
  repeat' first
    | with_reducible apply Frames.refl
    | with_reducible assumption
    | (show _ = _; rfl)
    | with_reducible apply Frames.step (g := storeFlash_frames)
    | with_reducible apply Frames.step (g := takeForce_frames)
    | with_reducible apply Frames.step (g := endPending_frames)
    | with_reducible apply Frames.ite
    | split
    | with_reducible refine Frames.of_fst (by with_reducible assumption) ?_
    | dsimp only
    | dsimp only [id]

theorem zeroBlocks_frames {s : State} {bs : List Nat} : Frames 64 s (zeroBlocks s bs) := by
  unfold zeroBlocks
  extract_lets h0 inside hit h1 clear
  split
  · refine (Frames.refl _ _).set_hbm rfl fun h => ⟨fun k => ?_, h.2⟩
    simp only [Fin.getElem_fin, Vector.getElem_map]
    exact filter_wf _ _ (h.1 k)
  · exact (Frames.refl _ _).set_hbm rfl fun h => put_ok h1 _ h

/-! ## DictService -/

theorem refuseOp_frames {s : State} {m : SvcMsg} {code : Nat} {aux0 : Nat} : Frames 0 s (refuseOp s m code aux0).1 := by
  unfold refuseOp
  try dsimp only
  repeat' first
    | with_reducible apply Frames.refl
    | with_reducible assumption
    | (show _ = _; rfl)

theorem svcRead_frames {s : State} {r : Req} {m : SvcMsg} : Frames 0 s (svcRead s r m).1 := by
  unfold svcRead
  try dsimp only
  repeat' first
    | with_reducible apply Frames.refl
    | with_reducible assumption
    | (show _ = _; rfl)
    | with_reducible apply Frames.step (g := refuseOp_frames)
    | with_reducible apply Frames.ite
    | split
    | with_reducible refine Frames.of_fst (by with_reducible assumption) ?_
    | dsimp only

theorem svcReadSeg_frames {s : State} {r : Req} {m : SvcMsg} : Frames 0 s (svcReadSeg s r m).1 := by
  unfold svcReadSeg
  try dsimp only
  repeat' first
    | with_reducible apply Frames.refl
    | with_reducible assumption
    | (show _ = _; rfl)
    | with_reducible apply Frames.step (g := refuseOp_frames)
    | with_reducible apply Frames.ite
    | split
    | with_reducible refine Frames.of_fst (by with_reducible assumption) ?_
    | dsimp only

theorem Frames.ite_fst {m : Nat} {r : State} {β : Type} {c : Prop} [Decidable c] {a b : State × β} (ha : Frames m r a.1) (hb : Frames m r b.1) :
    Frames m r (if c then a else b).1 := by
  split
  · exact ha
  · exact hb

theorem woAction_frames {s : State} {r : Req} {idx sub : Nat} {d : List Byte} : Frames 1048278 s (woAction s r idx sub d).1 := by
  unfold woAction
  extract_lets a v code
  have hc : ∀ x, Frames 1048278 s x.1 → Frames 1048278 s (code x).1 := fun x h => h
  clear_value code v
  refine Frames.ite_fst ?_ ?_
  · exact (Frames.refl _ _).step askRetire_frames rfl
  refine Frames.ite_fst ?_ ?_
  · split
    · exact Frames.refl _ _
    · exact (Frames.refl _ _).step startMargin_frames rfl
  refine Frames.ite_fst ?_ ?_
  · split
    · rename_i h
      exact Frames.of_some h ((FramesO.step (Frames.refl _ _) streamControl_frames rfl))
    · exact Frames.refl _ _
  refine Frames.ite_fst ?_ ?_
  · exact (Frames.refl _ _).step signalEv_frames rfl
  refine Frames.ite_fst ?_ ?_
  · have hd : ∀ c, Frames 1048278 s (castReady (dissolveCrew s c false)) := fun c => by
      refine Frames.step ?_ castReady_frames rfl
      exact (Frames.refl _ _).step dissolveCrew_frames rfl
    refine Frames.ite_fst (hc _ ((Frames.refl _ _).step loadLayers_frames rfl)) ?_
    split
    · exact hc _ ((Frames.refl _ _).step requestRun_frames rfl)
    · exact hc _ ((Frames.refl _ _).step requestTest_frames rfl)
    · dsimp only
      with_reducible exact hd _
  refine Frames.ite_fst ?_ ?_
  · exact (Frames.refl _ _).step clearDirty_frames rfl
  refine Frames.ite_fst ?_ ?_
  · split
    · split
      · split
        · exact (Frames.refl _ _).step endOpen_frames rfl
        · exact Frames.refl _ _
      · exact Frames.refl _ _
    · split
      · extract_lets kept
        split
        · exact Frames.refl _ _
        · split
          · exact (Frames.refl _ _).step endPending_frames rfl
          · exact Frames.refl _ _
      · exact Frames.refl _ _
  refine Frames.ite_fst ?_ ?_
  · exact (Frames.refl _ _).set_pointing rfl
  refine Frames.ite_fst ?_ ?_
  · split
    · split
      · exact (Frames.refl _ _).step prepareRemoval_frames rfl
      · exact Frames.refl _ _
    · split
      · exact Frames.refl _ _
      · exact Frames.refl _ _
  refine Frames.ite_fst ?_ ?_
  · split
    · split
      · exact hc _ ((Frames.refl _ _).step burnOwner_frames rfl)
      · exact Frames.refl _ _
    · split
      · exact hc _ ((Frames.refl _ _).step advanceRollback_frames rfl)
      · exact Frames.refl _ _
    · split
      · exact Frames.refl _ _
      · exact hc _ ((Frames.refl _ _).step imageWrite_frames rfl)
    · split
      · exact Frames.refl _ _
      · exact hc _ ((Frames.refl _ _).step imageWrite_frames rfl)
  refine Frames.ite_fst ?_ ?_
  · exact (Frames.refl _ _).step attest_frames rfl
  · exact Frames.refl _ _

theorem objWrite_frames {s : State} {r : Req} {idx sub off : Nat} {d : List Byte} : Frames 1048286 s (objWrite s r idx sub off d).1 := by
  unfold objWrite
  try dsimp only
  repeat' first
    | with_reducible apply Frames.refl
    | with_reducible assumption
    | (show _ = _; rfl)
    | with_reducible apply Frames.step (g := woAction_frames)
    | with_reducible apply Frames.step (g := moduleEvent_frames)
    | with_reducible apply Frames.step (g := afterValue_frames)
    | with_reducible apply Frames.step (g := takeValue_frames)
    | with_reducible apply Frames.step (g := storeFlash_frames)
    | with_reducible apply Frames.ite
    | split
    | with_reducible refine Frames.of_fst (by with_reducible assumption) ?_
    | dsimp only

theorem svcWrite_frames {s : State} {r : Req} {m : SvcMsg} : Frames 1048286 s (svcWrite s r m).1 := by
  unfold svcWrite
  try dsimp only
  repeat' first
    | with_reducible apply Frames.refl
    | with_reducible assumption
    | (show _ = _; rfl)
    | with_reducible apply Frames.step (g := objWrite_frames)
    | split
    | with_reducible refine Frames.of_fst (by with_reducible assumption) ?_
    | dsimp only

theorem leaseCheck_frames {s : State} : Frames 24576 s (leaseCheck s) := by
  unfold leaseCheck
  try dsimp only
  repeat' first
    | with_reducible apply Frames.refl
    | with_reducible assumption
    | (show _ = _; rfl)
    | with_reducible apply Frames.step (g := endOpen_frames)
    | with_reducible apply Frames.ite
    | split
    | dsimp only

theorem putSet_frames {s : State} {o : OpenSet} : Frames 16384 s (putSet s o) := by
  unfold putSet
  try dsimp only
  repeat' first
    | with_reducible apply Frames.refl
    | with_reducible assumption
    | (show _ = _; rfl)
    | with_reducible apply Frames.set_dict

theorem svcOpen_frames {s : State} {r : Req} {m : SvcMsg} : Frames 16384 s (svcOpen s r m).1 := by
  unfold svcOpen
  try dsimp only
  repeat' first
    | with_reducible apply Frames.refl
    | with_reducible assumption
    | (show _ = _; rfl)
    | with_reducible apply Frames.step (g := refuseOp_frames)
    | with_reducible apply Frames.step (g := genBump_frames)
    | with_reducible apply Frames.ite
    | split
    | with_reducible refine Frames.of_fst (by with_reducible assumption) ?_
    | dsimp only
    | dsimp only [id]
    | with_reducible apply Frames.set_dict

theorem svcStage_frames {s : State} {r : Req} {m : SvcMsg} : Frames 16384 s (svcStage s r m).1 := by
  unfold svcStage
  try dsimp only
  repeat' first
    | with_reducible apply Frames.refl
    | with_reducible assumption
    | (show _ = _; rfl)
    | with_reducible apply Frames.step (g := refuseOp_frames)
    | with_reducible apply Frames.step (g := putSet_frames)
    | with_reducible apply Frames.step (g := genBump_frames)
    | split
    | with_reducible refine Frames.of_fst (by with_reducible assumption) ?_
    | dsimp only

theorem conflictReply_frames {s : State} {m : SvcMsg} {l : List Conflict} : Frames 16384 s (conflictReply s m l).1 := by
  unfold conflictReply
  try dsimp only
  repeat' first
    | with_reducible apply Frames.refl
    | with_reducible assumption
    | (show _ = _; rfl)
    | with_reducible apply Frames.step (g := putConflicts_frames)

theorem svcCheck_frames {s : State} {r : Req} {m : SvcMsg} : Frames 16384 s (svcCheck s r m).1 := by
  unfold svcCheck
  try dsimp only
  repeat' first
    | with_reducible apply Frames.refl
    | with_reducible assumption
    | (show _ = _; rfl)
    | with_reducible apply Frames.step (g := refuseOp_frames)
    | with_reducible apply Frames.step (g := putSet_frames)
    | with_reducible apply Frames.step (g := putConflicts_frames)
    | with_reducible apply Frames.step (g := conflictReply_frames)
    | with_reducible apply Frames.ite
    | split
    | with_reducible refine Frames.of_fst (by with_reducible assumption) ?_
    | dsimp only

theorem svcCommit_frames {s : State} {r : Req} {by_ : Option (Fin 9 × Fin 64)} {m : SvcMsg} : Frames 16384 s (svcCommit s r by_ m).1 := by
  unfold svcCommit
  try dsimp only
  repeat' first
    | with_reducible apply Frames.refl
    | with_reducible assumption
    | (show _ = _; rfl)
    | with_reducible apply Frames.step (g := refuseOp_frames)
    | with_reducible apply Frames.step (g := putConflicts_frames)
    | with_reducible apply Frames.step (g := genBump_frames)
    | with_reducible apply Frames.step (g := pushRec_frames)
    | with_reducible apply Frames.step (g := conflictReply_frames)
    | with_reducible apply Frames.ite
    | split
    | with_reducible refine Frames.of_fst (by with_reducible assumption) ?_
    | dsimp only
    | dsimp only [id]
    | with_reducible apply Frames.set_dict

theorem svcAbort_frames {s : State} {r : Req} {m : SvcMsg} : Frames 24576 s (svcAbort s r m).1 := by
  unfold svcAbort
  try dsimp only
  repeat' first
    | with_reducible apply Frames.refl
    | with_reducible assumption
    | (show _ = _; rfl)
    | with_reducible apply Frames.step (g := refuseOp_frames)
    | with_reducible apply Frames.step (g := endOpen_frames)
    | split
    | with_reducible refine Frames.of_fst (by with_reducible assumption) ?_
    | dsimp only

theorem svcRenew_frames {s : State} {r : Req} {m : SvcMsg} : Frames 16384 s (svcRenew s r m).1 := by
  unfold svcRenew
  try dsimp only
  repeat' first
    | with_reducible apply Frames.refl
    | with_reducible assumption
    | (show _ = _; rfl)
    | with_reducible apply Frames.step (g := refuseOp_frames)
    | with_reducible apply Frames.step (g := putSet_frames)
    | split
    | with_reducible refine Frames.of_fst (by with_reducible assumption) ?_
    | dsimp only

theorem putTransfer_frames {s : State} {t : Transfer} : Frames 16384 s (putTransfer s t) := by
  unfold putTransfer
  try dsimp only
  repeat' first
    | with_reducible apply Frames.refl
    | with_reducible assumption
    | (show _ = _; rfl)
    | dsimp only
    | with_reducible apply Frames.set_dict

theorem dropTransfer_frames {s : State} {r : Req} : Frames 16384 s (dropTransfer s r) := by
  unfold dropTransfer
  try dsimp only
  repeat' first
    | with_reducible apply Frames.refl
    | with_reducible assumption
    | (show _ = _; rfl)
    | dsimp only
    | with_reducible apply Frames.set_dict

theorem transferDone_frames {s : State} {r : Req} {idx sub access : Nat} {d : List Byte} : Frames 1048286 s (transferDone s r idx sub access d).1 := by
  unfold transferDone
  try dsimp only
  repeat' first
    | with_reducible apply Frames.refl
    | with_reducible assumption
    | (show _ = _; rfl)
    | with_reducible apply Frames.step (g := genBump_frames)
    | with_reducible apply Frames.step (g := putSet_frames)
    | with_reducible apply Frames.step (g := objWrite_frames)
    | with_reducible apply Frames.ite
    | split
    | with_reducible refine Frames.of_fst (by with_reducible assumption) ?_
    | dsimp only

theorem takeSegment_frames {s : State} {r : Req} {m : SvcMsg} {i : ObjInfo} {t : Transfer} : Frames 1048286 s (takeSegment s r m i t).1 := by
  unfold takeSegment
  try dsimp only
  repeat' first
    | with_reducible apply Frames.refl
    | with_reducible assumption
    | (show _ = _; rfl)
    | with_reducible apply Frames.step (g := refuseOp_frames)
    | with_reducible apply Frames.step (g := putTransfer_frames)
    | with_reducible apply Frames.step (g := dropTransfer_frames)
    | with_reducible apply Frames.step (g := transferDone_frames)
    | with_reducible apply Frames.ite
    | split
    | with_reducible refine Frames.of_fst (by with_reducible assumption) ?_
    | dsimp only

theorem svcWriteSeg_frames {s : State} {r : Req} {m : SvcMsg} : Frames 1048286 s (svcWriteSeg s r m).1 := by
  unfold svcWriteSeg
  try dsimp only
  repeat' first
    | with_reducible apply Frames.refl
    | with_reducible assumption
    | (show _ = _; rfl)
    | with_reducible apply Frames.step (g := refuseOp_frames)
    | with_reducible apply Frames.step (g := takeSegment_frames)
    | with_reducible apply Frames.ite
    | split
    | with_reducible refine Frames.of_fst (by with_reducible assumption) ?_
    | dsimp only
    | with_reducible apply Frames.set_dict

theorem svcTransferStatus_frames {s : State} {r : Req} {m : SvcMsg} : Frames 16384 s (svcTransferStatus s r m).1 := by
  unfold svcTransferStatus
  try dsimp only
  repeat' first
    | with_reducible apply Frames.refl
    | with_reducible assumption
    | (show _ = _; rfl)
    | split
    | dsimp only
    | with_reducible apply Frames.set_dict

theorem svc_frames {s : State} {r : Req} {by_ : Option (Fin 9 × Fin 64)} {op : Nat} {m : SvcMsg} : Frames 1048286 s (svc s r by_ op m).1 := by
  unfold svc
  try dsimp only
  repeat' first
    | with_reducible apply Frames.refl
    | with_reducible assumption
    | (show _ = _; rfl)
    | with_reducible apply Frames.step (g := leaseCheck_frames)
    | with_reducible apply Frames.step (g := refuseOp_frames)
    | with_reducible apply Frames.step (g := svcRead_frames)
    | with_reducible apply Frames.step (g := svcWrite_frames)
    | with_reducible apply Frames.step (g := svcReadSeg_frames)
    | with_reducible apply Frames.step (g := svcWriteSeg_frames)
    | with_reducible apply Frames.step (g := svcTransferStatus_frames)
    | with_reducible apply Frames.step (g := svcOpen_frames)
    | with_reducible apply Frames.step (g := svcStage_frames)
    | with_reducible apply Frames.step (g := svcCheck_frames)
    | with_reducible apply Frames.step (g := svcCommit_frames)
    | with_reducible apply Frames.step (g := svcAbort_frames)
    | with_reducible apply Frames.step (g := svcRenew_frames)
    | with_reducible apply Frames.ite
    | split
    | with_reducible refine Frames.of_fst (by with_reducible assumption) ?_
    | dsimp only

theorem thenReset_frames {s : State} {op code : Nat} {m : SvcMsg} : Frames 1048575 s (thenReset s op code m) := by
  unfold thenReset
  try dsimp only
  repeat' first
    | with_reducible apply Frames.refl
    | with_reducible assumption
    | (show _ = _; rfl)
    | with_reducible apply Frames.step (g := warmReset_frames)
    | with_reducible apply Frames.ite
    | split
    | dsimp only

theorem ask_frames {s : State} {r : Req} {op : Nat} {m : SvcMsg} : Frames 1048575 s (ask s r op m) := by
  unfold ask
  try dsimp only
  repeat' first
    | with_reducible apply Frames.refl
    | with_reducible assumption
    | (show _ = _; rfl)
    | with_reducible apply Frames.step (g := svc_frames)
    | with_reducible apply Frames.step (g := thenReset_frames)
    | with_reducible apply Frames.step (g := emit_frames)
    | split
    | with_reducible refine Frames.of_fst (by with_reducible assumption) ?_
    | dsimp only

theorem execRead_frames {r : Req} {m : SvcMsg} {s : State} : FramesN 1048575 s (execRead r m s) := by
  unfold execRead
  try dsimp only
  repeat' first
    | with_reducible apply Frames.refl
    | with_reducible assumption
    | (show _ = _; rfl)
    | with_reducible apply FramesN.powered
    | with_reducible apply Frames.step (g := ask_frames)

theorem execWrite_frames {r : Req} {m : SvcMsg} {s : State} : FramesN 1048575 s (execWrite r m s) := by
  unfold execWrite
  try dsimp only
  repeat' first
    | with_reducible apply Frames.refl
    | with_reducible assumption
    | (show _ = _; rfl)
    | with_reducible apply FramesN.powered
    | with_reducible apply Frames.step (g := ask_frames)

theorem execReadSeg_frames {r : Req} {m : SvcMsg} {s : State} : FramesN 1048575 s (execReadSeg r m s) := by
  unfold execReadSeg
  try dsimp only
  repeat' first
    | with_reducible apply Frames.refl
    | with_reducible assumption
    | (show _ = _; rfl)
    | with_reducible apply FramesN.powered
    | with_reducible apply Frames.step (g := ask_frames)

theorem execWriteSeg_frames {r : Req} {m : SvcMsg} {s : State} : FramesN 1048575 s (execWriteSeg r m s) := by
  unfold execWriteSeg
  try dsimp only
  repeat' first
    | with_reducible apply Frames.refl
    | with_reducible assumption
    | (show _ = _; rfl)
    | with_reducible apply FramesN.powered
    | with_reducible apply Frames.step (g := ask_frames)

theorem execTransferStatus_frames {r : Req} {m : SvcMsg} {s : State} : FramesN 1048575 s (execTransferStatus r m s) := by
  unfold execTransferStatus
  try dsimp only
  repeat' first
    | with_reducible apply Frames.refl
    | with_reducible assumption
    | (show _ = _; rfl)
    | with_reducible apply FramesN.powered
    | with_reducible apply Frames.step (g := ask_frames)

theorem execOpenSet_frames {r : Req} {m : SvcMsg} {s : State} : FramesN 1048575 s (execOpenSet r m s) := by
  unfold execOpenSet
  try dsimp only
  repeat' first
    | with_reducible apply Frames.refl
    | with_reducible assumption
    | (show _ = _; rfl)
    | with_reducible apply FramesN.powered
    | with_reducible apply Frames.step (g := ask_frames)

theorem execStage_frames {r : Req} {m : SvcMsg} {s : State} : FramesN 1048575 s (execStage r m s) := by
  unfold execStage
  try dsimp only
  repeat' first
    | with_reducible apply Frames.refl
    | with_reducible assumption
    | (show _ = _; rfl)
    | with_reducible apply FramesN.powered
    | with_reducible apply Frames.step (g := ask_frames)

theorem execCheck_frames {r : Req} {m : SvcMsg} {s : State} : FramesN 1048575 s (execCheck r m s) := by
  unfold execCheck
  try dsimp only
  repeat' first
    | with_reducible apply Frames.refl
    | with_reducible assumption
    | (show _ = _; rfl)
    | with_reducible apply FramesN.powered
    | with_reducible apply Frames.step (g := ask_frames)

theorem execCommit_frames {r : Req} {m : SvcMsg} {s : State} : FramesN 1048575 s (execCommit r m s) := by
  unfold execCommit
  try dsimp only
  repeat' first
    | with_reducible apply Frames.refl
    | with_reducible assumption
    | (show _ = _; rfl)
    | with_reducible apply FramesN.powered
    | with_reducible apply Frames.step (g := ask_frames)

theorem execAbort_frames {r : Req} {m : SvcMsg} {s : State} : FramesN 1048575 s (execAbort r m s) := by
  unfold execAbort
  try dsimp only
  repeat' first
    | with_reducible apply Frames.refl
    | with_reducible assumption
    | (show _ = _; rfl)
    | with_reducible apply FramesN.powered
    | with_reducible apply Frames.step (g := ask_frames)

theorem execRenew_frames {r : Req} {m : SvcMsg} {s : State} : FramesN 1048575 s (execRenew r m s) := by
  unfold execRenew
  try dsimp only
  repeat' first
    | with_reducible apply Frames.refl
    | with_reducible assumption
    | (show _ = _; rfl)
    | with_reducible apply FramesN.powered
    | with_reducible apply Frames.step (g := ask_frames)

theorem execDict_frames {f : Fin 9} {q : Fin 64} {s : State} : FramesN 1048575 s (execDict f q s) := by
  unfold execDict
  try dsimp only
  repeat' first
    | with_reducible apply Frames.refl
    | with_reducible assumption
    | (show _ = _; rfl)
    | with_reducible apply FramesN.powered
    | ((with_reducible apply startEntry_step) <;> [skip; (intro _; try dsimp only); skip])
    | with_reducible apply Frames.step (g := finishNow_frames)
    | with_reducible apply Frames.step (g := updEntry_frames)
    | with_reducible apply Frames.step (g := entryStart_frames)
    | with_reducible apply Frames.step (g := svc_frames)
    | with_reducible apply Frames.step (g := spaceWriteL_frames)
    | with_reducible apply Frames.step (g := entryDone_frames)
    | with_reducible apply Frames.step (g := thenReset_frames)
    | with_reducible apply Frames.ite
    | split
    | with_reducible refine Frames.of_fst (by with_reducible assumption) ?_
    | dsimp only

theorem rowWrite_frames {s : State} {r : Req} {idx sub off : Nat} {d : List Byte} : Frames 1048286 s (rowWrite s r idx sub off d) := by
  unfold rowWrite
  try dsimp only
  repeat' first
    | with_reducible apply Frames.refl
    | with_reducible assumption
    | (show _ = _; rfl)
    | with_reducible apply Frames.step (g := leaseCheck_frames)
    | with_reducible apply Frames.step (g := objWrite_frames)
    | with_reducible apply Frames.ite
    | split
    | with_reducible refine Frames.of_fst (by with_reducible assumption) ?_
    | dsimp only

theorem execCheckEnable_frames {r : Req} {n : Fin 8} {v : Byte} {s : State} : FramesN 1048286 s (execCheckEnable r n v s) := by
  unfold execCheckEnable
  try dsimp only
  repeat' first
    | with_reducible apply Frames.refl
    | with_reducible assumption
    | (show _ = _; rfl)
    | with_reducible apply FramesN.powered
    | with_reducible apply Frames.step (g := rowWrite_frames)

theorem execStickyFlagsClear_frames {r : Req} {trowel : Bool} {n : Fin 8} {v : Byte} {s : State} : FramesN 1048286 s (execStickyFlagsClear r trowel n v s) := by
  unfold execStickyFlagsClear
  try dsimp only
  repeat' first
    | with_reducible apply Frames.refl
    | with_reducible assumption
    | (show _ = _; rfl)
    | with_reducible apply FramesN.powered
    | with_reducible apply Frames.step (g := rowWrite_frames)
    | with_reducible apply Frames.ite
    | split

theorem execFirstOffenderClear_frames {r : Req} {n : Fin 8} {v : BitVec 256} {s : State} : FramesN 1048286 s (execFirstOffenderClear r n v s) := by
  unfold execFirstOffenderClear
  try dsimp only
  repeat' first
    | with_reducible apply Frames.refl
    | with_reducible assumption
    | (show _ = _; rfl)
    | with_reducible apply FramesN.powered
    | with_reducible apply Frames.step (g := rowWrite_frames)

theorem execHostRegionWrite_frames {r : Req} {i : Fin 4096} {d : BitVec 256} {s : State} : FramesN 1048286 s (execHostRegionWrite r i d s) := by
  unfold execHostRegionWrite
  try dsimp only
  repeat' first
    | with_reducible apply Frames.refl
    | with_reducible assumption
    | (show _ = _; rfl)
    | with_reducible apply FramesN.powered
    | with_reducible apply Frames.step (g := rowWrite_frames)

theorem execCollectiveRegionWrite_frames {r : Req} {i : Fin 4096} {d : BitVec 128} {s : State} : FramesN 1048286 s (execCollectiveRegionWrite r i d s) := by
  unfold execCollectiveRegionWrite
  try dsimp only
  repeat' first
    | with_reducible apply Frames.refl
    | with_reducible assumption
    | (show _ = _; rfl)
    | with_reducible apply FramesN.powered
    | with_reducible apply Frames.step (g := rowWrite_frames)
    | split
    | dsimp only

theorem execSendonHandleWrite_frames {r : Req} {i : Fin 4095} {d : BitVec 128} {s : State} : FramesN 1048286 s (execSendonHandleWrite r i d s) := by
  unfold execSendonHandleWrite
  try dsimp only
  repeat' first
    | with_reducible apply Frames.refl
    | with_reducible assumption
    | (show _ = _; rfl)
    | with_reducible apply FramesN.powered
    | with_reducible apply Frames.step (g := rowWrite_frames)
    | split
    | dsimp only

theorem execRetireRequest_frames {r : Req} {k : Fin 20} {v : Byte} {s : State} : FramesN 1048286 s (execRetireRequest r k v s) := by
  unfold execRetireRequest
  try dsimp only
  repeat' first
    | with_reducible apply Frames.refl
    | with_reducible assumption
    | (show _ = _; rfl)
    | with_reducible apply FramesN.powered
    | with_reducible apply Frames.step (g := rowWrite_frames)

theorem execMarginingStack_frames {r : Req} {v : Byte} {s : State} : FramesN 1048286 s (execMarginingStack r v s) := by
  unfold execMarginingStack
  try dsimp only
  repeat' first
    | with_reducible apply Frames.refl
    | with_reducible assumption
    | (show _ = _; rfl)
    | with_reducible apply FramesN.powered
    | with_reducible apply Frames.step (g := rowWrite_frames)

theorem execMarginingStart_frames {r : Req} {v : Byte} {s : State} : FramesN 1048286 s (execMarginingStart r v s) := by
  unfold execMarginingStart
  try dsimp only
  repeat' first
    | with_reducible apply Frames.refl
    | with_reducible assumption
    | (show _ = _; rfl)
    | with_reducible apply FramesN.powered
    | with_reducible apply Frames.step (g := rowWrite_frames)

theorem execCrewRun_frames {r : Req} {c : Fin 16} {s : State} : FramesN 1048286 s (execCrewRun r c s) := by
  unfold execCrewRun
  try dsimp only
  repeat' first
    | with_reducible apply Frames.refl
    | with_reducible assumption
    | (show _ = _; rfl)
    | with_reducible apply FramesN.powered
    | with_reducible apply Frames.step (g := rowWrite_frames)

theorem execCrewTest_frames {r : Req} {c : Fin 16} {s : State} : FramesN 1048286 s (execCrewTest r c s) := by
  unfold execCrewTest
  try dsimp only
  repeat' first
    | with_reducible apply Frames.refl
    | with_reducible assumption
    | (show _ = _; rfl)
    | with_reducible apply FramesN.powered
    | with_reducible apply Frames.step (g := rowWrite_frames)

theorem execCrewDissolve_frames {r : Req} {c : Fin 16} {s : State} : FramesN 1048286 s (execCrewDissolve r c s) := by
  unfold execCrewDissolve
  try dsimp only
  repeat' first
    | with_reducible apply Frames.refl
    | with_reducible assumption
    | (show _ = _; rfl)
    | with_reducible apply FramesN.powered
    | with_reducible apply Frames.step (g := rowWrite_frames)

theorem execClearDirty_frames {r : Req} {layer : BitVec 32} {s : State} : FramesN 1048286 s (execClearDirty r layer s) := by
  unfold execClearDirty
  try dsimp only
  repeat' first
    | with_reducible apply Frames.refl
    | with_reducible assumption
    | (show _ = _; rfl)
    | with_reducible apply FramesN.powered
    | with_reducible apply Frames.step (g := rowWrite_frames)
    | split
    | dsimp only

theorem execLayerStateLoad_frames {r : Req} {c : Fin 16} {data : List Byte} {s : State} : FramesN 1048286 s (execLayerStateLoad r c data s) := by
  unfold execLayerStateLoad
  try dsimp only
  repeat' first
    | with_reducible apply Frames.refl
    | with_reducible assumption
    | (show _ = _; rfl)
    | with_reducible apply FramesN.powered
    | with_reducible apply Frames.step (g := rowWrite_frames)

theorem execForceAbort_frames {r : Req} {id : BitVec 32} {s : State} : FramesN 1048286 s (execForceAbort r id s) := by
  unfold execForceAbort
  try dsimp only
  repeat' first
    | with_reducible apply Frames.refl
    | with_reducible assumption
    | (show _ = _; rfl)
    | with_reducible apply FramesN.powered
    | with_reducible apply Frames.step (g := rowWrite_frames)
    | dsimp only [id]

theorem execCancelPending_frames {r : Req} {id : BitVec 32} {s : State} : FramesN 1048286 s (execCancelPending r id s) := by
  unfold execCancelPending
  try dsimp only
  repeat' first
    | with_reducible apply Frames.refl
    | with_reducible assumption
    | (show _ = _; rfl)
    | with_reducible apply FramesN.powered
    | with_reducible apply Frames.step (g := rowWrite_frames)
    | dsimp only [id]

theorem execClearRepairMap_frames {r : Req} {v : Byte} {s : State} : FramesN 1048286 s (execClearRepairMap r v s) := by
  unfold execClearRepairMap
  try dsimp only
  repeat' first
    | with_reducible apply Frames.refl
    | with_reducible assumption
    | (show _ = _; rfl)
    | with_reducible apply FramesN.powered
    | with_reducible apply Frames.step (g := rowWrite_frames)

theorem execPrepareForRemoval_frames {r : Req} {v : Byte} {s : State} : FramesN 1048286 s (execPrepareForRemoval r v s) := by
  unfold execPrepareForRemoval
  try dsimp only
  repeat' first
    | with_reducible apply Frames.refl
    | with_reducible assumption
    | (show _ = _; rfl)
    | with_reducible apply FramesN.powered
    | with_reducible apply Frames.step (g := rowWrite_frames)

theorem execAdvanceRollbackCounter_frames {r : Req} {v : Byte} {s : State} : FramesN 1048286 s (execAdvanceRollbackCounter r v s) := by
  unfold execAdvanceRollbackCounter
  try dsimp only
  repeat' first
    | with_reducible apply Frames.refl
    | with_reducible assumption
    | (show _ = _; rfl)
    | with_reducible apply FramesN.powered
    | with_reducible apply Frames.step (g := rowWrite_frames)

theorem execBurnOwnerKeyHash_frames {r : Req} {hash : BitVec 256} {s : State} : FramesN 1048286 s (execBurnOwnerKeyHash r hash s) := by
  unfold execBurnOwnerKeyHash
  try dsimp only
  repeat' first
    | with_reducible apply Frames.refl
    | with_reducible assumption
    | (show _ = _; rfl)
    | with_reducible apply FramesN.powered
    | with_reducible apply Frames.step (g := rowWrite_frames)

theorem execAttestationNonce_frames {r : Req} {nonce : BitVec 256} {s : State} : FramesN 1048286 s (execAttestationNonce r nonce s) := by
  unfold execAttestationNonce
  try dsimp only
  repeat' first
    | with_reducible apply Frames.refl
    | with_reducible assumption
    | (show _ = _; rfl)
    | with_reducible apply FramesN.powered
    | with_reducible apply Frames.step (g := rowWrite_frames)

theorem execGroupConfigWrite_frames {r : Req} {g : Fin 80} {d : List Byte} {s : State} : FramesN 1048286 s (execGroupConfigWrite r g d s) := by
  unfold execGroupConfigWrite
  try dsimp only
  repeat' first
    | with_reducible apply Frames.refl
    | with_reducible assumption
    | (show _ = _; rfl)
    | with_reducible apply FramesN.powered
    | with_reducible apply Frames.step (g := rowWrite_frames)

theorem execRegisterWrite_frames {r : Req} {index : BitVec 16} {sub : Byte} {data : List Byte} {s : State} : FramesN 1048286 s (execRegisterWrite r index sub data s) := by
  unfold execRegisterWrite
  try dsimp only
  repeat' first
    | with_reducible apply Frames.refl
    | with_reducible assumption
    | (show _ = _; rfl)
    | with_reducible apply FramesN.powered
    | with_reducible apply Frames.step (g := rowWrite_frames)

theorem resetRow_frames {s : State} {r : Req} {v : Byte} : Frames 1048575 s (resetRow s r v) := by
  unfold resetRow
  try dsimp only
  repeat' first
    | with_reducible apply Frames.refl
    | with_reducible assumption
    | (show _ = _; rfl)
    | with_reducible apply Frames.step (g := leaseCheck_frames)
    | with_reducible apply Frames.step (g := objWrite_frames)
    | with_reducible apply Frames.step (g := warmReset_frames)
    | with_reducible apply Frames.ite
    | split
    | with_reducible refine Frames.of_fst (by with_reducible assumption) ?_
    | dsimp only

theorem execWarmReset_frames {r : Option Req} {s : State} : FramesN 1048575 s (execWarmReset r s) := by
  unfold execWarmReset
  try dsimp only
  repeat' first
    | with_reducible apply Frames.refl
    | with_reducible assumption
    | (show _ = _; rfl)
    | with_reducible apply FramesN.powered
    | with_reducible apply Frames.step (g := resetRow_frames)
    | with_reducible apply Frames.step (g := warmReset_frames)
    | with_reducible apply Frames.ite
    | split
    | dsimp only

theorem execWarmResetBringUp_frames {r : Req} {s : State} : FramesN 1048575 s (execWarmResetBringUp r s) := by
  unfold execWarmResetBringUp
  try dsimp only
  repeat' first
    | with_reducible apply Frames.refl
    | with_reducible assumption
    | (show _ = _; rfl)
    | with_reducible apply FramesN.powered
    | with_reducible apply Frames.step (g := resetRow_frames)

theorem execLeaseExpiry_frames {s : State} : FramesN 24577 s (execLeaseExpiry s) := by
  unfold execLeaseExpiry
  try dsimp only
  repeat' first
    | with_reducible apply Frames.refl
    | with_reducible assumption
    | (show _ = _; rfl)
    | with_reducible apply FramesN.powered
    | with_reducible apply Frames.step (g := endOpen_frames)
    | with_reducible apply Frames.step (g := reach_frames)
    | split
    | dsimp only

theorem execTransferExpiry_frames {anchor : Fin 8} {s : State} : FramesN 16385 s (execTransferExpiry anchor s) := by
  unfold execTransferExpiry
  try dsimp only
  repeat' first
    | with_reducible apply Frames.refl
    | with_reducible assumption
    | (show _ = _; rfl)
    | with_reducible apply FramesN.powered
    | with_reducible apply Frames.step (g := reach_frames)
    | split
    | dsimp only
    | with_reducible apply Frames.set_dict

theorem pointCome_frames {s : State} {x : PendSet} : FramesO 1 s (pointCome s x) := by
  unfold pointCome
  try dsimp only
  repeat' first
    | with_reducible apply Frames.refl
    | with_reducible assumption
    | with_reducible apply FramesO.none
    | (show _ = _; rfl)
    | with_reducible apply FramesO.some
    | with_reducible apply Frames.step (g := reach_frames)
    | with_reducible apply Frames.ite
    | with_reducible apply FramesO.ite
    | split
    | ((with_reducible apply FramesO.of) <;> intro _)
    | (intro t e; cases e)
    | dsimp only

theorem execApplyPoint_frames {id : BitVec 32} {s : State} : FramesN 1048319 s (execApplyPoint id s) := by
  unfold execApplyPoint
  try dsimp only
  repeat' first
    | with_reducible apply Frames.refl
    | with_reducible assumption
    | with_reducible apply FramesO.none
    | (show _ = _; rfl)
    | with_reducible apply FramesN.powered
    | with_reducible apply FramesO.some
    | ((with_reducible apply FramesO.map) <;> [skip; intro _ _])
    | with_reducible apply FramesO.step (g := pointCome_frames)
    | with_reducible refine Frames.of_some (by with_reducible assumption) (FramesO.step ?_ pointCome_frames ?_)
    | with_reducible apply Frames.step (g := applySet_frames)
    | with_reducible apply Frames.step (g := putConflicts_frames)
    | with_reducible apply Frames.step (g := endPending_frames)
    | fail_if_no_progress ((with_reducible apply Frames.set_dict) <;> [skip; rfl])
    | with_reducible apply Frames.ite
    | with_reducible apply FramesO.ite
    | with_reducible apply FramesO.getD
    | split
    | ((with_reducible apply FramesO.of) <;> intro _)
    | (intro t e; cases e)
    | dsimp only

theorem execRegionZeroFill_frames {p : Fin 8} {s : State} : FramesN 1048318 s (execRegionZeroFill p s) := by
  unfold execRegionZeroFill
  try dsimp only
  repeat' first
    | with_reducible apply Frames.refl
    | with_reducible assumption
    | (show _ = _; rfl)
    | with_reducible apply FramesN.powered
    | with_reducible apply Frames.step (g := zeroBlocks_frames)
    | with_reducible apply Frames.step (g := applySet_frames)
    | with_reducible apply Frames.ite
    | split
    | dsimp only
    | dsimp only [id]
    | with_reducible apply Frames.set_dict

/-! ## Evolu -/

theorem evoluSet_frames {s : State} {g : Evolu → Evolu} : Frames 8192 s (evoluSet s g) := by
  unfold evoluSet
  try dsimp only
  repeat' first
    | with_reducible apply Frames.refl
    | with_reducible assumption
    | (show _ = _; rfl)
    | with_reducible apply Frames.step (g := evoluEvent_frames)
    | with_reducible apply Frames.step (g := updEvolu_frames)

theorem burst_frames {s : State} {h : Bool} {f : TxFrame} : Frames 548864 s (burst s h f) := by
  unfold burst
  try dsimp only
  repeat' first
    | with_reducible apply Frames.refl
    | with_reducible assumption
    | (show _ = _; rfl)
    | with_reducible apply Frames.step (g := updSession_frames)
    | with_reducible apply Frames.step (g := updEvolu_frames)
    | with_reducible apply Frames.step (g := emit_frames)
    | with_reducible apply Frames.step (g := ctrAdd_frames)
    | with_reducible apply Frames.ite
    | split
    | dsimp only

theorem execTransmit_frames {s : State} : FramesN 548866 s (execTransmit s) := by
  unfold execTransmit
  try dsimp only
  repeat' first
    | with_reducible apply Frames.refl
    | with_reducible assumption
    | (show _ = _; rfl)
    | with_reducible apply FramesN.powered
    | with_reducible apply Frames.step (g := burst_frames)
    | with_reducible apply Frames.step (g := updEvolu_frames)
    | with_reducible apply Frames.ite
    | split
    | dsimp only
    | with_reducible apply Frames.set_free

theorem burstFailed_frames {s : State} {h : Bool} {f : TxFrame} : Frames 24576 s (burstFailed s h f) := by
  unfold burstFailed
  try dsimp only
  repeat' first
    | with_reducible apply Frames.refl
    | with_reducible assumption
    | (show _ = _; rfl)
    | with_reducible apply Frames.step (g := updEvolu_frames)
    | with_reducible apply Frames.step (g := ctrAdd_frames)
    | with_reducible apply Frames.step (g := updSession_frames)
    | with_reducible apply Frames.ite
    | split
    | dsimp only

theorem collided_frames {s : State} {h : Bool} {f : TxFrame} : Frames 24576 s (collided s h f) := by
  unfold collided
  try dsimp only
  repeat' first
    | with_reducible apply Frames.refl
    | with_reducible assumption
    | (show _ = _; rfl)
    | with_reducible apply Frames.step (g := burstFailed_frames)
    | with_reducible apply Frames.step (g := ctrAdd_frames)
    | dsimp only

theorem echoSeen_frames {s : State} : Frames 8192 s (echoSeen s) := by
  unfold echoSeen
  try dsimp only
  repeat' first
    | with_reducible apply Frames.refl
    | with_reducible assumption
    | (show _ = _; rfl)
    | with_reducible apply Frames.step (g := evoluSet_frames)
    | with_reducible apply Frames.ite
    | split
    | dsimp only

theorem execEchoCheck_frames {x : Echo} {s : State} : FramesN 24576 s (execEchoCheck x s) := by
  unfold execEchoCheck
  try dsimp only
  repeat' first
    | with_reducible apply Frames.refl
    | with_reducible assumption
    | (show _ = _; rfl)
    | with_reducible apply FramesN.powered
    | with_reducible apply Frames.step (g := collided_frames)
    | with_reducible apply Frames.step (g := updEvolu_frames)
    | with_reducible apply Frames.step (g := echoSeen_frames)
    | with_reducible apply Frames.step (g := burstFailed_frames)
    | with_reducible apply Frames.step (g := ctrAdd_frames)
    | with_reducible apply Frames.ite
    | split
    | dsimp only

theorem execBurstTimer_frames {s : State} : FramesN 24576 s (execBurstTimer s) := by
  unfold execBurstTimer
  try dsimp only
  repeat' first
    | with_reducible apply Frames.refl
    | with_reducible assumption
    | (show _ = _; rfl)
    | with_reducible apply FramesN.powered
    | with_reducible apply Frames.step (g := updEvolu_frames)
    | with_reducible apply Frames.step (g := burstFailed_frames)
    | with_reducible apply Frames.step (g := ctrAdd_frames)
    | split
    | dsimp only

theorem execMediumDown_frames {s : State} : FramesN 8192 s (execMediumDown s) := by
  unfold execMediumDown
  try dsimp only
  repeat' first
    | with_reducible apply Frames.refl
    | with_reducible assumption
    | (show _ = _; rfl)
    | with_reducible apply FramesN.powered
    | with_reducible apply Frames.step (g := evoluSet_frames)
    | with_reducible apply Frames.ite
    | split
    | dsimp only

theorem execMediumBusy_frames {s : State} : FramesN 8192 s (execMediumBusy s) := by
  unfold execMediumBusy
  try dsimp only
  repeat' first
    | with_reducible apply Frames.refl
    | with_reducible assumption
    | (show _ = _; rfl)
    | with_reducible apply FramesN.powered
    | with_reducible apply Frames.step (g := evoluSet_frames)
    | dsimp only

theorem execMediumIdle_frames {s : State} : FramesN 8192 s (execMediumIdle s) := by
  unfold execMediumIdle
  try dsimp only
  repeat' first
    | with_reducible apply Frames.refl
    | with_reducible assumption
    | (show _ = _; rfl)
    | with_reducible apply FramesN.powered
    | with_reducible apply Frames.step (g := evoluSet_frames)
    | with_reducible apply Frames.ite
    | split
    | dsimp only

theorem execClaim_frames {s : State} : FramesN 8194 s (execClaim s) := by
  unfold execClaim
  try dsimp only
  repeat' first
    | with_reducible apply Frames.refl
    | with_reducible assumption
    | (show _ = _; rfl)
    | with_reducible apply FramesN.powered
    | with_reducible apply Frames.step (g := fresh_frames)
    | with_reducible apply Frames.step (g := sendPlain_frames)
    | with_reducible apply Frames.step (g := updEvolu_frames)
    | with_reducible apply Frames.ite
    | split
    | with_reducible refine Frames.of_snd (by with_reducible assumption) ?_
    | dsimp only

theorem execAssign_frames {src : BitVec 6} {serial : BitVec 64} {nonce : BitVec 32} {addr : Byte} {s : State} : FramesN 8192 s (execAssign src serial nonce addr s) := by
  unfold execAssign
  try dsimp only
  repeat' first
    | with_reducible apply Frames.refl
    | with_reducible assumption
    | (show _ = _; rfl)
    | with_reducible apply FramesN.powered
    | with_reducible apply Frames.step (g := takeAssign_frames)

theorem execAnnounce_frames {src : BitVec 6} {serial : BitVec 64} {s : State} : FramesN 90112 s (execAnnounce src serial s) := by
  unfold execAnnounce
  try dsimp only
  repeat' first
    | with_reducible apply Frames.refl
    | with_reducible assumption
    | (show _ = _; rfl)
    | with_reducible apply FramesN.powered
    | with_reducible apply Frames.step (g := takeAnnounce_frames)

theorem execOpenReq_frames {src : BitVec 6} {hid : BitVec 32} {index count : BitVec 16} {seg : List Byte} {s : State} : FramesN 24578 s (execOpenReq src hid index count seg s) := by
  unfold execOpenReq
  try dsimp only
  repeat' first
    | with_reducible apply Frames.refl
    | with_reducible assumption
    | (show _ = _; rfl)
    | with_reducible apply FramesN.powered
    | with_reducible apply Frames.step (g := takeOpenReq_frames)

theorem execOpenFin_frames {src : BitVec 6} {hid : BitVec 32} {index count : BitVec 16} {seg : List Byte} {s : State} : FramesN 90112 s (execOpenFin src hid index count seg s) := by
  unfold execOpenFin
  try dsimp only
  repeat' first
    | with_reducible apply Frames.refl
    | with_reducible assumption
    | (show _ = _; rfl)
    | with_reducible apply FramesN.powered
    | with_reducible apply Frames.step (g := takeOpenFin_frames)

theorem execOpenFinTimeout_frames {hid : BitVec 32} {s : State} : FramesN 90113 s (execOpenFinTimeout hid s) := by
  unfold execOpenFinTimeout
  try dsimp only
  repeat' first
    | with_reducible apply Frames.refl
    | with_reducible assumption
    | (show _ = _; rfl)
    | with_reducible apply FramesN.powered
    | with_reducible apply Frames.step (g := reach_frames)
    | with_reducible apply Frames.step (g := ctrAdd_frames)
    | with_reducible apply Frames.step (g := closeSession_frames)
    | with_reducible apply Frames.step (g := dropShake_frames)
    | with_reducible apply Frames.ite
    | split
    | dsimp only

theorem execHandshakeSegmentTimeout_frames {hid : BitVec 32} {s : State} : FramesN 8193 s (execHandshakeSegmentTimeout hid s) := by
  unfold execHandshakeSegmentTimeout
  try dsimp only
  repeat' first
    | with_reducible apply Frames.refl
    | with_reducible assumption
    | (show _ = _; rfl)
    | with_reducible apply FramesN.powered
    | with_reducible apply Frames.step (g := reach_frames)
    | with_reducible apply Frames.step (g := dropShake_frames)
    | with_reducible apply Frames.step (g := setShake_frames)
    | with_reducible apply Frames.ite
    | split
    | dsimp only

theorem duplicateFrame_frames {s : State} {i : Fin 8} {f : HeldFrame} : Frames 24576 s (duplicateFrame s i f) := by
  unfold duplicateFrame
  try dsimp only
  repeat' first
    | with_reducible apply Frames.refl
    | with_reducible assumption
    | (show _ = _; rfl)
    | with_reducible apply Frames.step (g := sendAck_frames)
    | with_reducible apply Frames.step (g := resendOne_frames)
    | with_reducible apply Frames.ite
    | split
    | dsimp only

theorem acceptN_frames {k : Nat} {s : State} {x2 : Fin 8} {x3 : HeldFrame} : Frames 8192 s (acceptN k s x2 x3) := by
  induction k generalizing s x2 x3 with
  | zero => exact Frames.refl _ _
  | succ k ih =>
    unfold acceptN
    repeat' first
      | with_reducible apply Frames.refl
      | with_reducible apply Frames.step (g := ih)
      | with_reducible assumption
      | (show _ = _; rfl)
      | with_reducible apply Frames.step (g := updSession_frames)
      | split
      | dsimp only

theorem wake_frames {s : State} {i : Fin 8} : Frames 8192 s (wake s i) := by
  unfold wake
  try dsimp only
  repeat' first
    | with_reducible apply Frames.refl
    | with_reducible assumption
    | (show _ = _; rfl)
    | with_reducible apply Frames.step (g := flushOut_frames)
    | with_reducible apply Frames.step (g := updSession_frames)
    | with_reducible apply Frames.ite
    | split
    | dsimp only

theorem windowJudge_frames {s : State} {i : Fin 8} {f : HeldFrame} : Frames 24576 s (windowJudge s i f) := by
  unfold windowJudge
  try dsimp only
  repeat' first
    | with_reducible apply Frames.refl
    | with_reducible assumption
    | (show _ = _; rfl)
    | with_reducible apply Frames.step (g := acceptN_frames)
    | with_reducible apply Frames.step (g := wake_frames)
    | with_reducible apply Frames.step (g := sendAck_frames)
    | with_reducible apply Frames.step (g := updSession_frames)
    | with_reducible apply Frames.step (g := duplicateFrame_frames)
    | with_reducible apply Frames.ite
    | split
    | dsimp only

theorem takeAckFrame_frames {s : State} {i : Fin 8} {aseq : BitVec 16} : Frames 24576 s (takeAckFrame s i aseq) := by
  unfold takeAckFrame
  try dsimp only
  repeat' first
    | with_reducible apply Frames.refl
    | with_reducible assumption
    | (show _ = _; rfl)
    | with_reducible apply Frames.step (g := sendAck_frames)
    | with_reducible apply Frames.step (g := takeAseq_frames)
    | with_reducible apply Frames.step (g := wake_frames)
    | with_reducible apply Frames.step (g := updSession_frames)
    | with_reducible apply Frames.step (g := resendOldest_frames)
    | with_reducible apply Frames.ite
    | split
    | dsimp only

theorem execEvoluAck_frames {i : Fin 8} {aseq : BitVec 16} {s : State} : FramesN 24576 s (execEvoluAck i aseq s) := by
  unfold execEvoluAck
  try dsimp only
  repeat' first
    | with_reducible apply Frames.refl
    | with_reducible assumption
    | (show _ = _; rfl)
    | with_reducible apply FramesN.powered
    | with_reducible apply Frames.step (g := takeAckFrame_frames)
    | with_reducible apply Frames.step (g := updSession_frames)
    | with_reducible apply Frames.ite
    | split
    | dsimp only

theorem epochNotice_frames {s : State} {src session : Nat} : Frames 24576 s (epochNotice s src session) := by
  unfold epochNotice
  try dsimp only
  repeat' first
    | with_reducible apply Frames.refl
    | with_reducible assumption
    | (show _ = _; rfl)
    | with_reducible apply Frames.step (g := updEvolu_frames)
    | with_reducible apply Frames.step (g := ctrAdd_frames)
    | with_reducible apply Frames.step (g := sendPlain_frames)
    | with_reducible apply Frames.ite
    | split
    | dsimp only

theorem sessionFrame_frames {s : State} {i : Fin 8} {b : List Byte} : Frames 24576 s (sessionFrame s i b) := by
  unfold sessionFrame
  try dsimp only
  repeat' first
    | with_reducible apply Frames.refl
    | with_reducible assumption
    | (show _ = _; rfl)
    | with_reducible apply Frames.step (g := updSession_frames)
    | with_reducible apply Frames.step (g := epochNotice_frames)
    | with_reducible apply Frames.step (g := sendAck_frames)
    | with_reducible apply Frames.step (g := takeAckFrame_frames)
    | with_reducible apply Frames.step (g := windowJudge_frames)
    | with_reducible apply Frames.step (g := takeAseq_frames)
    | with_reducible apply Frames.ite
    | split
    | dsimp only

theorem takeSession_frames {s : State} {b : List Byte} : Frames 24576 s (takeSession s b) := by
  unfold takeSession
  try dsimp only
  repeat' first
    | with_reducible apply Frames.refl
    | with_reducible assumption
    | (show _ = _; rfl)
    | with_reducible apply Frames.step (g := epochNotice_frames)
    | with_reducible apply Frames.step (g := stranger_frames)
    | with_reducible apply Frames.step (g := sessionFrame_frames)
    | with_reducible apply Frames.ite
    | split
    | dsimp only

theorem takePlain_frames {s : State} {b : List Byte} : Frames 90114 s (takePlain s b) := by
  unfold takePlain
  try dsimp only
  repeat' first
    | with_reducible apply Frames.refl
    | with_reducible assumption
    | (show _ = _; rfl)
    | with_reducible apply Frames.step (g := takeAssign_frames)
    | with_reducible apply Frames.step (g := takeAnnounce_frames)
    | with_reducible apply Frames.step (g := takeOpenReq_frames)
    | with_reducible apply Frames.step (g := takeOpenFin_frames)
    | with_reducible apply Frames.ite
    | split
    | dsimp only

theorem execFrameReceive_frames {b : List Byte} {violation : Bool} {s : State} : FramesN 90114 s (execFrameReceive b violation s) := by
  unfold execFrameReceive
  try dsimp only
  repeat' first
    | with_reducible apply Frames.refl
    | with_reducible assumption
    | (show _ = _; rfl)
    | with_reducible apply FramesN.powered
    | with_reducible apply Frames.step (g := ctrAdd_frames)
    | with_reducible apply Frames.step (g := addressConflict_frames)
    | with_reducible apply Frames.step (g := stranger_frames)
    | with_reducible apply Frames.step (g := takeSession_frames)
    | with_reducible apply Frames.step (g := takePlain_frames)
    | with_reducible apply Frames.ite
    | split
    | dsimp only

theorem svcSubscribe_frames {s : State} {i : Fin 8} {m : SvcMsg} : Frames 8192 s (svcSubscribe s i m).1 := by
  unfold svcSubscribe
  try dsimp only
  repeat' first
    | with_reducible apply Frames.refl
    | with_reducible assumption
    | (show _ = _; rfl)
    | with_reducible apply Frames.step (g := refuseOp_frames)
    | with_reducible apply Frames.step (g := updSession_frames)
    | with_reducible apply Frames.ite
    | split
    | with_reducible refine Frames.of_fst (by with_reducible assumption) ?_
    | dsimp only

theorem svcSession_frames {s : State} {i : Fin 8} {op : Nat} {m : SvcMsg} : Frames 1048286 s (svcSession s i op m).1 := by
  unfold svcSession
  try dsimp only
  repeat' first
    | with_reducible apply Frames.refl
    | with_reducible assumption
    | (show _ = _; rfl)
    | with_reducible apply Frames.step (g := svcSubscribe_frames)
    | with_reducible apply Frames.step (g := refuseOp_frames)
    | with_reducible apply Frames.step (g := svc_frames)
    | with_reducible apply Frames.ite
    | split
    | with_reducible refine Frames.of_fst (by with_reducible assumption) ?_
    | dsimp only

theorem emitSince_frames {s : State} {n : Nat} : Frames 524288 s (emitSince s n) := by
  unfold emitSince
  try dsimp only
  repeat' first
    | with_reducible apply Frames.refl
    | with_reducible assumption
    | (show _ = _; rfl)
    | with_reducible apply Frames.step (g := emit_frames)
    | ((with_reducible apply Frames.foldl) <;> [skip; intro _ _ _])
    | ((with_reducible apply Frames.foldl_fst) <;> [skip; intro _ _ _])
    | ((with_reducible apply Frames.foldl_snd) <;> [skip; intro _ _ _])
    | with_reducible apply Frames.ite
    | split
    | with_reducible refine Frames.of_fst (by with_reducible assumption) ?_
    | with_reducible refine Frames.of_snd (by with_reducible assumption) ?_
    | dsimp only

theorem runRequest_frames {s : State} {i : Fin 8} {f : HeldFrame} : Frames 1048575 s (runRequest s i f) := by
  unfold runRequest
  try dsimp only
  repeat' first
    | with_reducible apply Frames.refl
    | with_reducible assumption
    | (show _ = _; rfl)
    | with_reducible apply Frames.step (g := updSession_frames)
    | with_reducible apply Frames.step (g := svcSession_frames)
    | with_reducible apply Frames.step (g := sendResponse_frames)
    | with_reducible apply Frames.step (g := closeSession_frames)
    | with_reducible apply Frames.step (g := warmReset_frames)
    | with_reducible apply Frames.step (g := emitSince_frames)
    | with_reducible apply Frames.ite
    | split
    | with_reducible refine Frames.of_fst (by with_reducible assumption) ?_
    | dsimp only

theorem execRequest_frames {i : Fin 8} {tseq : BitVec 16} {tag : BitVec 128} {msg : List Byte} {s : State} : FramesN 1048575 s (execRequest i tseq tag msg s) := by
  unfold execRequest
  try dsimp only
  repeat' first
    | with_reducible apply Frames.refl
    | with_reducible assumption
    | (show _ = _; rfl)
    | with_reducible apply FramesN.powered
    | with_reducible apply Frames.step (g := runRequest_frames)
    | with_reducible apply Frames.step (g := sendAck_frames)
    | with_reducible apply Frames.step (g := windowJudge_frames)
    | with_reducible apply Frames.step (g := updSession_frames)
    | with_reducible apply Frames.ite
    | split
    | dsimp only

theorem execResponse_frames {i : Fin 8} {tseq : BitVec 16} {msg : List Byte} {s : State} : FramesN 24576 s (execResponse i tseq msg s) := by
  unfold execResponse
  try dsimp only
  repeat' first
    | with_reducible apply Frames.refl
    | with_reducible assumption
    | (show _ = _; rfl)
    | with_reducible apply FramesN.powered
    | with_reducible apply Frames.step (g := windowJudge_frames)
    | with_reducible apply Frames.step (g := updSession_frames)
    | with_reducible apply Frames.step (g := takeAseq_frames)
    | with_reducible apply Frames.ite
    | split
    | dsimp only

theorem execEvent_frames {i : Fin 8} {s : State} : FramesN 8192 s (execEvent i s) := by
  unfold execEvent
  try dsimp only
  repeat' first
    | with_reducible apply Frames.refl
    | with_reducible assumption
    | (show _ = _; rfl)
    | with_reducible apply FramesN.powered
    | with_reducible apply Frames.step (g := sendEvents_frames)

theorem execSubscribe_frames {i : Fin 8} {m : SvcMsg} {s : State} : FramesN 532480 s (execSubscribe i m s) := by
  unfold execSubscribe
  try dsimp only
  repeat' first
    | with_reducible apply Frames.refl
    | with_reducible assumption
    | (show _ = _; rfl)
    | with_reducible apply FramesN.powered
    | with_reducible apply Frames.step (g := svcSubscribe_frames)
    | with_reducible apply Frames.step (g := emit_frames)
    | with_reducible apply Frames.ite
    | split
    | with_reducible refine Frames.of_fst (by with_reducible assumption) ?_
    | dsimp only

theorem execClose_frames {i : Fin 8} {s : State} : FramesN 90112 s (execClose i s) := by
  unfold execClose
  try dsimp only
  repeat' first
    | with_reducible apply Frames.refl
    | with_reducible assumption
    | (show _ = _; rfl)
    | with_reducible apply FramesN.powered
    | with_reducible apply Frames.step (g := closeSession_frames)

theorem execAckDelay_frames {i : Fin 8} {s : State} : FramesN 8192 s (execAckDelay i s) := by
  unfold execAckDelay
  try dsimp only
  repeat' first
    | with_reducible apply Frames.refl
    | with_reducible assumption
    | (show _ = _; rfl)
    | with_reducible apply FramesN.powered
    | with_reducible apply Frames.step (g := sendAck_frames)
    | with_reducible apply Frames.ite
    | split

theorem execRtoExpiry_frames {i : Fin 8} {s : State} : FramesN 24576 s (execRtoExpiry i s) := by
  unfold execRtoExpiry
  try dsimp only
  repeat' first
    | with_reducible apply Frames.refl
    | with_reducible assumption
    | (show _ = _; rfl)
    | with_reducible apply FramesN.powered
    | with_reducible apply Frames.step (g := resendOldest_frames)
    | with_reducible apply Frames.step (g := updSession_frames)
    | with_reducible apply Frames.ite
    | split
    | dsimp only

theorem execSuspectTimeout_frames {i : Fin 8} {s : State} : FramesN 90112 s (execSuspectTimeout i s) := by
  unfold execSuspectTimeout
  try dsimp only
  repeat' first
    | with_reducible apply Frames.refl
    | with_reducible assumption
    | (show _ = _; rfl)
    | with_reducible apply FramesN.powered
    | with_reducible apply Frames.step (g := closeSession_frames)
    | with_reducible apply Frames.ite
    | split

theorem execIdleLimit_frames {i : Fin 8} {s : State} : FramesN 90113 s (execIdleLimit i s) := by
  unfold execIdleLimit
  try dsimp only
  repeat' first
    | with_reducible apply Frames.refl
    | with_reducible assumption
    | (show _ = _; rfl)
    | with_reducible apply FramesN.powered
    | with_reducible apply Frames.step (g := closeSession_frames)
    | with_reducible apply Frames.step (g := reach_frames)
    | with_reducible apply Frames.ite
    | split
    | dsimp only

end Sys2Proof.Machine
end

