-- ==== Sys2Proof/Laws/FramesExec.lean ====
section
/-! SUPPORT. What a command may change. -/

set_option linter.all false

namespace Sys2Proof.Machine

open Sys2Proof

theorem FramesN.mono {a m : Nat} {s : State} {o : Host.Outcome State Fault Refusal} (h : FramesN a s o) (hm : a ||| m = m) : FramesN m s o :=
  fun t e => (h t e).mono hm

/-- No command touches the waiting commands, and every command keeps every memory canonical. -/
theorem exec_frames (c : Instr) (s : State) : FramesN 1048575 s (exec c s) := by
  cases c with
  | mm _ _ _ => exact FramesN.mono (a := 949974) execMm_frames rfl
  | loadw _ _ _ => exact FramesN.mono (a := 949974) execLoadw_frames rfl
  | weightLoadDone _ => exact FramesN.mono (a := 949974) execWeightLoadDone_frames rfl
  | passEnd _ _ => exact FramesN.mono (a := 949974) execPassEnd_frames rfl
  | checkVerdict _ => exact FramesN.mono (a := 982742) execCheckVerdict_frames rfl
  | laneSubstitution n ok =>
    have h : FramesN 1048575 s (execLaneSubstitution n ok s) := FramesN.mono (a := 982742) execLaneSubstitution_frames rfl
    generalize hx : execLaneSubstitution n ok s = x at h
    have e : exec (.laneSubstitution n ok) s = x := hx
    rw [e]
    exact h
  | tileInterlockRelease _ _ => exact FramesN.mono (a := 949982) execTileInterlockRelease_frames rfl
  | guardStallRelease _ => exact FramesN.mono (a := 950014) execGuardStallRelease_frames rfl
  | checkEnable _ _ _ => exact FramesN.mono (a := 1048286) execCheckEnable_frames rfl
  | stickyFlagsClear _ _ _ _ => exact FramesN.mono (a := 1048286) execStickyFlagsClear_frames rfl
  | firstOffenderClear _ _ _ => exact FramesN.mono (a := 1048286) execFirstOffenderClear_frames rfl
  | vop _ _ _ => exact FramesN.mono (a := 949982) execVop_frames rfl
  | vred _ _ _ => exact FramesN.mono (a := 949982) execVred_frames rfl
  | vcvt _ _ _ => exact FramesN.mono (a := 949982) execVcvt_frames rfl
  | trowelRetire _ => exact FramesN.mono (a := 982750) execTrowelRetire_frames rfl
  | palletBankSubstitution _ _ => exact FramesN.mono (a := 189462) execPalletBankSubstitution_frames rfl
  | descriptorStore _ _ _ _ => exact FramesN.mono (a := 949974) execDescriptorStore_frames rfl
  | tileTableStore _ _ _ _ => exact FramesN.mono (a := 949974) execTileTableStore_frames rfl
  | copy _ _ _ => exact FramesN.mono (a := 950006) execCopy_frames rfl
  | copyAdd _ _ _ => exact FramesN.mono (a := 950006) execCopyAdd_frames rfl
  | gather _ _ _ => exact FramesN.mono (a := 950006) execGather_frames rfl
  | scatter _ _ _ => exact FramesN.mono (a := 950006) execScatter_frames rfl
  | addscatter _ _ _ => exact FramesN.mono (a := 950006) execAddscatter_frames rfl
  | hodRetire _ => exact FramesN.mono (a := 950006) execHodRetire_frames rfl
  | hodQueueWait _ => exact FramesN.mono (a := 950006) execHodQueueWait_frames rfl
  | hodPartFault _ => exact FramesN.mono (a := 950006) execHodPartFault_frames rfl
  | hostRegionWrite _ _ _ => exact FramesN.mono (a := 1048286) execHostRegionWrite_frames rfl
  | atsInvalidation _ _ _ => exact FramesN.mono (a := 524416) execAtsInvalidation_frames rfl
  | memorySideAdd _ _ _ => exact FramesN.mono (a := 942144) execMemorySideAdd_frames rfl
  | regulatorRequest _ _ _ => exact FramesN.mono (a := 786496) execRegulatorRequest_frames rfl
  | patrolScrub _ _ _ _ => exact FramesN.mono (a := 155714) execPatrolScrub_frames rfl
  | rowRepair _ _ _ _ => exact FramesN.mono (a := 155712) execRowRepair_frames rfl
  | pseudoChannelRemap _ _ => exact FramesN.mono (a := 155712) execPseudoChannelRemap_frames rfl
  | retireRequest _ _ _ => exact FramesN.mono (a := 1048286) execRetireRequest_frames rfl
  | marginingStack _ _ => exact FramesN.mono (a := 1048286) execMarginingStack_frames rfl
  | marginingStart _ _ => exact FramesN.mono (a := 1048286) execMarginingStart_frames rfl
  | marginingDone _ => exact FramesN.mono (a := 16448) execMarginingDone_frames rfl
  | invalidScrub => exact FramesN.mono (a := 16448) execInvalidScrub_frames rfl
  | linkTraining _ _ _ _ => exact FramesN.mono (a := 982782) execLinkTraining_frames rfl
  | vfFlr _ => exact FramesN.mono (a := 982782) execVfFlr_frames rfl
  | pf0Flr => exact FramesN.mono (a := 982782) execPf0Flr_frames rfl
  | hotReset => exact FramesN.mono (a := 982782) execHotReset_frames rfl
  | statusPageUpdate _ => exact FramesN.mono (a := 128) execStatusPageUpdate_frames rfl
  | statusPageWrite _ => exact FramesN.mono (a := 16384) execStatusPageWrite_frames rfl
  | bar2Read _ _ _ => exact FramesN.mono (a := 942272) execBar2Read_frames rfl
  | bar2Write _ _ _ _ => exact FramesN.mono (a := 942272) execBar2Write_frames rfl
  | msixHoldExpiry _ _ => exact FramesN.mono (a := 524417) execMsixHoldExpiry_frames rfl
  | msixUnmask _ _ => exact FramesN.mono (a := 524416) execMsixUnmask_frames rfl
  | bootstrapEnableSet _ _ => exact FramesN.mono (a := 548992) execBootstrapEnableSet_frames rfl
  | bootstrapEnableClear _ => exact FramesN.mono (a := 524416) execBootstrapEnableClear_frames rfl
  | streamPoll _ _ _ => exact FramesN.mono (a := 548992) execStreamPoll_frames rfl
  | crcStuck _ _ => exact FramesN.mono (a := 532609) execCrcStuck_frames rfl
  | journalBurstWrite _ _ => exact FramesN.mono (a := 128) execJournalBurstWrite_frames rfl
  | entryAccept _ _ => exact FramesN.mono (a := 827520) execEntryAccept_frames rfl
  | journalWriteFail _ => exact FramesN.mono (a := 532864) execJournalWriteFail_frames rfl
  | journalRebuildDone => exact FramesN.mono (a := 155904) execJournalRebuildDone_frames rfl
  | retirement _ _ => exact FramesN.mono (a := 980726) execRetirement_frames rfl
  | nop _ _ => exact FramesN.mono (a := 130) execNop_frames rfl
  | launch _ _ => exact FramesN.mono (a := 156866) execLaunch_frames rfl
  | hostCopy _ _ => exact FramesN.mono (a := 943350) execHostCopy_frames rfl
  | hostAccumulateStart _ _ => exact FramesN.mono (a := 943350) execHostAccumulateStart_frames rfl
  | fenceLocal _ _ => exact FramesN.mono (a := 134) execFenceLocal_frames rfl
  | fenceDevice _ _ => exact FramesN.mono (a := 134) execFenceDevice_frames rfl
  | fenceHost _ _ => exact FramesN.mono (a := 134) execFenceHost_frames rfl
  | fenceCrew _ _ _ => exact FramesN.mono (a := 134) execFenceCrew_frames rfl
  | mark _ _ => exact FramesN.mono (a := 1154) execMark_frames rfl
  | dict _ _ => exact FramesN.mono (a := 1048575) execDict_frames rfl
  | exportSlots _ _ => exact FramesN.mono (a := 1154) execExportSlots_frames rfl
  | streamEnable _ _ => exact FramesN.mono (a := 532608) execStreamEnable_frames rfl
  | streamDisable _ _ => exact FramesN.mono (a := 532608) execStreamDisable_frames rfl
  | streamResume _ _ => exact FramesN.mono (a := 532608) execStreamResume_frames rfl
  | signalEvent _ _ => exact FramesN.mono (a := 128) execSignalEvent_frames rfl
  | eventWaitSatisfied _ _ => exact FramesN.mono (a := 128) execEventWaitSatisfied_frames rfl
  | attemptStart _ => exact FramesN.mono (a := 982743) execAttemptStart_frames rfl
  | coreEcall _ => exact FramesN.mono (a := 949974) execCoreEcall_frames rfl
  | coreTrap _ => exact FramesN.mono (a := 949974) execCoreTrap_frames rfl
  | laserSwitch _ _ => exact FramesN.mono (a := 982782) execLaserSwitch_frames rfl
  | codewordReceive _ _ _ => exact FramesN.mono (a := 982743) execCodewordReceive_frames rfl
  | align _ _ => exact FramesN.mono (a := 949974) execAlign_frames rfl
  | packetReceive _ _ => exact FramesN.mono (a := 982742) execPacketReceive_frames rfl
  | ack _ _ => exact FramesN.mono (a := 803328) execAck_frames rfl
  | nak _ _ => exact FramesN.mono (a := 949974) execNak_frames rfl
  | ackTimer _ => exact FramesN.mono (a := 524800) execAckTimer_frames rfl
  | idleTimer _ _ => exact FramesN.mono (a := 524800) execIdleTimer_frames rfl
  | idle _ _ _ => exact FramesN.mono (a := 943619) execIdle_frames rfl
  | holdover => exact FramesN.mono (a := 512) execHoldover_frames rfl
  | replayTimeout _ => exact FramesN.mono (a := 949974) execReplayTimeout_frames rfl
  | lockLoss _ => exact FramesN.mono (a := 949974) execLockLoss_frames rfl
  | portRetrain _ => exact FramesN.mono (a := 947926) execPortRetrain_frames rfl
  | sparePropose _ _ => exact FramesN.mono (a := 803328) execSparePropose_frames rfl
  | spareReady _ _ => exact FramesN.mono (a := 803330) execSpareReady_frames rfl
  | spareSwitch _ _ => exact FramesN.mono (a := 803328) execSpareSwitch_frames rfl
  | spareDone _ _ => exact FramesN.mono (a := 947926) execSpareDone_frames rfl
  | spareAbort _ _ => exact FramesN.mono (a := 947926) execSpareAbort_frames rfl
  | spareTimeout _ => exact FramesN.mono (a := 947927) execSpareTimeout_frames rfl
  | crewRun _ _ => exact FramesN.mono (a := 1048286) execCrewRun_frames rfl
  | crewTest _ _ => exact FramesN.mono (a := 1048286) execCrewTest_frames rfl
  | crewDissolve _ _ => exact FramesN.mono (a := 1048286) execCrewDissolve_frames rfl
  | hello _ _ _ _ => exact FramesN.mono (a := 949974) execHello_frames rfl
  | helloResend _ => exact FramesN.mono (a := 949974) execHelloResend_frames rfl
  | heartbeat _ _ => exact FramesN.mono (a := 949975) execHeartbeat_frames rfl
  | memberLost _ _ => exact FramesN.mono (a := 949975) execMemberLost_frames rfl
  | recover _ _ _ _ _ => exact FramesN.mono (a := 949974) execRecover_frames rfl
  | allreduce _ _ => exact FramesN.mono (a := 949974) execAllreduce_frames rfl
  | reducescatter _ _ => exact FramesN.mono (a := 949974) execReducescatter_frames rfl
  | allgather _ _ => exact FramesN.mono (a := 949974) execAllgather_frames rfl
  | broadcast _ _ => exact FramesN.mono (a := 949974) execBroadcast_frames rfl
  | reduce _ _ => exact FramesN.mono (a := 949974) execReduce_frames rfl
  | alltoall _ _ => exact FramesN.mono (a := 949974) execAlltoall_frames rfl
  | alltoallv _ _ => exact FramesN.mono (a := 949974) execAlltoallv_frames rfl
  | barrier _ _ => exact FramesN.mono (a := 949974) execBarrier_frames rfl
  | barrierSync _ _ _ _ _ => exact FramesN.mono (a := 947926) execBarrierSync_frames rfl
  | counts _ _ _ _ _ => exact FramesN.mono (a := 947926) execCounts_frames rfl
  | ready _ _ _ => exact FramesN.mono (a := 947926) execReady_frames rfl
  | send _ _ => exact FramesN.mono (a := 949974) execSend_frames rfl
  | recv _ _ => exact FramesN.mono (a := 949974) execRecv_frames rfl
  | credit _ _ _ _ => exact FramesN.mono (a := 947926) execCredit_frames rfl
  | done _ _ _ _ => exact FramesN.mono (a := 949974) execDone_frames rfl
  | crewopRetire _ _ => exact FramesN.mono (a := 949974) execCrewopRetire_frames rfl
  | collectiveRegionWrite _ _ _ => exact FramesN.mono (a := 1048286) execCollectiveRegionWrite_frames rfl
  | sendonHandleWrite _ _ _ => exact FramesN.mono (a := 1048286) execSendonHandleWrite_frames rfl
  | update _ _ => exact FramesN.mono (a := 949974) execUpdate_frames rfl
  | hold _ _ => exact FramesN.mono (a := 949974) execHold_frames rfl
  | apply _ _ => exact FramesN.mono (a := 949974) execApply_frames rfl
  | coxFeed _ _ => exact FramesN.mono (a := 949974) execCoxFeed_frames rfl
  | coxShareWindow _ => exact FramesN.mono (a := 949975) execCoxShareWindow_frames rfl
  | clearDirty _ _ => exact FramesN.mono (a := 1048286) execClearDirty_frames rfl
  | vote _ _ => exact FramesN.mono (a := 949974) execVote_frames rfl
  | votePacket _ _ _ => exact FramesN.mono (a := 949974) execVotePacket_frames rfl
  | arrived _ _ _ _ => exact FramesN.mono (a := 949974) execArrived_frames rfl
  | stragglerDeadline _ => exact FramesN.mono (a := 949975) execStragglerDeadline_frames rfl
  | cut _ _ _ _ => exact FramesN.mono (a := 949974) execCut_frames rfl
  | log _ _ _ _ _ => exact FramesN.mono (a := 949974) execLog_frames rfl
  | logack _ _ _ _ _ => exact FramesN.mono (a := 949974) execLogack_frames rfl
  | decide _ _ _ => exact FramesN.mono (a := 949974) execDecide_frames rfl
  | query _ _ _ => exact FramesN.mono (a := 949974) execQuery_frames rfl
  | queryTimer _ => exact FramesN.mono (a := 804353) execQueryTimer_frames rfl
  | resolve _ _ _ _ => exact FramesN.mono (a := 949974) execResolve_frames rfl
  | backupTakeover _ => exact FramesN.mono (a := 949975) execBackupTakeover_frames rfl
  | rejoinCopy _ _ _ _ _ _ => exact FramesN.mono (a := 5314) execRejoinCopy_frames rfl
  | layerStateLoad _ _ _ => exact FramesN.mono (a := 1048286) execLayerStateLoad_frames rfl
  | transmit => exact FramesN.mono (a := 548866) execTransmit_frames rfl
  | echoCheck _ => exact FramesN.mono (a := 24576) execEchoCheck_frames rfl
  | burstTimer => exact FramesN.mono (a := 24576) execBurstTimer_frames rfl
  | mediumDown => exact FramesN.mono (a := 8192) execMediumDown_frames rfl
  | mediumBusy => exact FramesN.mono (a := 8192) execMediumBusy_frames rfl
  | frameReceive _ _ => exact FramesN.mono (a := 90114) execFrameReceive_frames rfl
  | claim => exact FramesN.mono (a := 8194) execClaim_frames rfl
  | assign _ _ _ _ => exact FramesN.mono (a := 8192) execAssign_frames rfl
  | announce _ _ => exact FramesN.mono (a := 90112) execAnnounce_frames rfl
  | openReq _ _ _ _ _ => exact FramesN.mono (a := 24578) execOpenReq_frames rfl
  | openFin _ _ _ _ _ => exact FramesN.mono (a := 90112) execOpenFin_frames rfl
  | openFinTimeout _ => exact FramesN.mono (a := 90113) execOpenFinTimeout_frames rfl
  | request _ _ _ _ => exact FramesN.mono (a := 1048575) execRequest_frames rfl
  | response _ _ _ => exact FramesN.mono (a := 24576) execResponse_frames rfl
  | evoluAck _ _ => exact FramesN.mono (a := 24576) execEvoluAck_frames rfl
  | ackDelay _ => exact FramesN.mono (a := 8192) execAckDelay_frames rfl
  | rtoExpiry _ => exact FramesN.mono (a := 24576) execRtoExpiry_frames rfl
  | suspectTimeout _ => exact FramesN.mono (a := 90112) execSuspectTimeout_frames rfl
  | idleLimit _ => exact FramesN.mono (a := 90113) execIdleLimit_frames rfl
  | read _ _ => exact FramesN.mono (a := 1048575) execRead_frames rfl
  | write _ _ => exact FramesN.mono (a := 1048575) execWrite_frames rfl
  | readSeg _ _ => exact FramesN.mono (a := 1048575) execReadSeg_frames rfl
  | writeSeg _ _ => exact FramesN.mono (a := 1048575) execWriteSeg_frames rfl
  | transferStatus _ _ => exact FramesN.mono (a := 1048575) execTransferStatus_frames rfl
  | transferExpiry _ => exact FramesN.mono (a := 16385) execTransferExpiry_frames rfl
  | openSet _ _ => exact FramesN.mono (a := 1048575) execOpenSet_frames rfl
  | stage _ _ => exact FramesN.mono (a := 1048575) execStage_frames rfl
  | check _ _ => exact FramesN.mono (a := 1048575) execCheck_frames rfl
  | commit _ _ => exact FramesN.mono (a := 1048575) execCommit_frames rfl
  | abort _ _ => exact FramesN.mono (a := 1048575) execAbort_frames rfl
  | renew _ _ => exact FramesN.mono (a := 1048575) execRenew_frames rfl
  | event _ => exact FramesN.mono (a := 8192) execEvent_frames rfl
  | subscribe _ _ => exact FramesN.mono (a := 532480) execSubscribe_frames rfl
  | close _ => exact FramesN.mono (a := 90112) execClose_frames rfl
  | leaseExpiry => exact FramesN.mono (a := 24577) execLeaseExpiry_frames rfl
  | applyPoint _ => exact FramesN.mono (a := 1048319) execApplyPoint_frames rfl
  | regionZeroFill _ => exact FramesN.mono (a := 1048318) execRegionZeroFill_frames rfl
  | cancelPending _ _ => exact FramesN.mono (a := 1048286) execCancelPending_frames rfl
  | forceAbort _ _ => exact FramesN.mono (a := 1048286) execForceAbort_frames rfl
  | activityUrgent _ _ => exact FramesN.mono (a := 131072) execActivityUrgent_frames rfl
  | pointingPreemption _ _ _ => exact FramesN.mono (a := 156672) execPointingPreemption_frames rfl
  | courseLaneSelfTest _ _ _ => exact FramesN.mono (a := 188438) execCourseLaneSelfTest_frames rfl
  | trowelCoxLaneTest _ _ => exact FramesN.mono (a := 188446) execTrowelCoxLaneTest_frames rfl
  | palletBankTest _ _ _ => exact FramesN.mono (a := 155664) execPalletBankTest_frames rfl
  | coreRotation _ _ => exact FramesN.mono (a := 155648) execCoreRotation_frames rfl
  | laneRecalibration _ _ => exact FramesN.mono (a := 947926) execLaneRecalibration_frames rfl
  | deadlineMissed _ _ => exact FramesN.mono (a := 155649) execDeadlineMissed_frames rfl
  | lockstepMismatch _ _ _ => exact FramesN.mono (a := 188418) execLockstepMismatch_frames rfl
  | clearRepairMap _ _ => exact FramesN.mono (a := 1048286) execClearRepairMap_frames rfl
  | referenceLoss _ => exact FramesN.mono (a := 982782) execReferenceLoss_frames rfl
  | clockStep _ _ => exact FramesN.mono (a := 49153) execClockStep_frames rfl
  | powerSample _ _ => exact FramesN.mono (a := 57345) execPowerSample_frames rfl
  | thermalSample _ _ => exact FramesN.mono (a := 57985) execThermalSample_frames rfl
  | coldStart _ => exact FramesN.mono (a := 524287) execColdStart_frames rfl
  | underVoltageTrip _ => exact FramesN.mono (a := 33408) execUnderVoltageTrip_frames rfl
  | overVoltageTrip _ => exact FramesN.mono (a := 33408) execOverVoltageTrip_frames rfl
  | idleEntry => exact FramesN.mono (a := 32768) execIdleEntry_frames rfl
  | prepareForRemoval _ _ => exact FramesN.mono (a := 1048286) execPrepareForRemoval_frames rfl
  | warmReset _ => exact FramesN.mono (a := 1048575) execWarmReset_frames rfl
  | warmResetBringUp _ => exact FramesN.mono (a := 1048575) execWarmResetBringUp_frames rfl
  | watchdogExpiry => exact FramesN.mono (a := 1048575) execWatchdogExpiry_frames rfl
  | partReset _ _ => exact FramesN.mono (a := 982782) execPartReset_frames rfl
  | advanceRollbackCounter _ _ => exact FramesN.mono (a := 1048286) execAdvanceRollbackCounter_frames rfl
  | burnOwnerKeyHash _ _ => exact FramesN.mono (a := 1048286) execBurnOwnerKeyHash_frames rfl
  | attestationNonce _ _ => exact FramesN.mono (a := 1048286) execAttestationNonce_frames rfl
  | counterSample _ _ => exact FramesN.mono (a := 278595) execCounterSample_frames rfl
  | groupConfigWrite _ _ _ => exact FramesN.mono (a := 1048286) execGroupConfigWrite_frames rfl
  | traceDrop _ _ _ => exact FramesN.mono (a := 278530) execTraceDrop_frames rfl
  | registerWrite _ _ _ _ => exact FramesN.mono (a := 1048286) execRegisterWrite_frames rfl
  | coxRetire _ _ => exact FramesN.mono (a := 982750) execCoxRetire_frames rfl
  | exportDone _ _ => exact FramesN.mono (a := 947926) execExportDone_frames rfl
  | marginingReady => exact FramesN.mono (a := 64) execMarginingReady_frames rfl
  | handshakeSegmentTimeout _ => exact FramesN.mono (a := 8193) execHandshakeSegmentTimeout_frames rfl
  | mediumIdle => exact FramesN.mono (a := 8192) execMediumIdle_frames rfl
  | traceSpillFull => exact FramesN.mono (a := 262144) execTraceSpillFull_frames rfl

end Sys2Proof.Machine
end

