-- ==== Sys2Proof/Laws/Parts.lean ====
section
/-! SUPPORT. From what a function may change to the components that are the same, and what a store of a core that may make it does. -/

namespace Sys2Proof.Machine

open Sys2Proof

/-- The bit of a component in the mask of `Frames`. -/
def partBit : Part → Nat
  | .now => 0
  | .free => 1
  | .courses => 2
  | .trowels => 3
  | .pallets => 4
  | .hods => 5
  | .hbm => 6
  | .host => 7
  | .journal => 8
  | .rigger => 9
  | .crews => 10
  | .cards => 11
  | .cox => 12
  | .evolu => 13
  | .dict => 14
  | .power => 15
  | .sec => 16
  | .pointing => 17
  | .counters => 18
  | .out => 19

theorem Frames.same {m : Nat} {s t : State} (h : Frames m s t) (p : Part) (hp : m.testBit (partBit p) = false) : p.same s t := by
  cases p
  · exact h.now hp
  · exact h.free hp
  · exact h.courses hp
  · exact h.trowels hp
  · exact h.pallets hp
  · exact h.hods hp
  · exact h.hbm hp
  · exact h.host hp
  · exact h.journal hp
  · exact h.rigger hp
  · exact h.crews hp
  · exact h.cards hp
  · exact h.cox hp
  · exact h.evolu hp
  · exact h.dict hp
  · exact h.power hp
  · exact h.sec hp
  · exact h.pointing hp
  · exact h.counters hp
  · exact h.out hp

/-- Every component outside the list has its bit clear in the mask. -/
def covers (ps : List Part) (m : Nat) : Bool :=
  [Part.now, .free, .courses, .trowels, .pallets, .hods, .hbm, .host, .journal, .rigger, .crews, .cards, .cox, .evolu, .dict, .power, .sec,
    .pointing, .counters, .out].all fun p => ps.contains p || !m.testBit (partBit p)

theorem Frames.sameBut {m : Nat} {s t : State} (h : Frames m s t) (ps : List Part) (hc : covers ps m = true) : SameBut ps s t := by
  refine ⟨h.pending, fun p hp => h.same p ?_⟩
  unfold covers at hc
  have := (List.all_eq_true.1 hc) p (by cases p <;> simp)
  simpa [hp] using this

theorem memOk_iff (s : State) : MemOk s ↔ (∀ n : Fin 8, s.pallets[n].mem.wf = true) ∧ HbmOk s.hbm ∧ s.host.mem.wf = true ∧
    s.counters.trace.spill.wf = true ∧ ∀ c : Fin 16, CrewOk s.crews[c] := by
  unfold MemOk HbmOk CrewOk
  tauto

theorem Frames.memOk {m : Nat} {s t : State} (h : Frames m s t) (hs : MemOk s) : MemOk t := by
  rw [memOk_iff] at *
  exact ⟨h.palletOk hs.1, h.hbmOk hs.2.1, h.hostOk hs.2.2.1, h.spillOk hs.2.2.2.1, h.crewOk hs.2.2.2.2⟩

/-- The attempt a core runs is its Crew's. -/
theorem findCore_attempt {s : State} {w : Who} {c : Fin 16} {a : Attempt} {k : CoreRun} (h : findCore s w = some (c, a, k)) :
    s.crews[c].attempt = some a := by
  unfold findCore at h
  split at h
  · cases h
  obtain ⟨i, -, hi⟩ := List.exists_of_findSome?_eq_some h
  cases ha : s.crews[fin16 i].attempt with
  | none => rw [ha] at hi; cases hi
  | some b =>
    rw [ha] at hi
    dsimp only at hi
    split at hi
    · cases hi
    · obtain ⟨x, -, hx⟩ := Option.map_eq_some_iff.1 hi
      cases hx
      exact ha

/-- A store of a core that may make it: the account of the store, and the command is issued. -/
theorem issueStore_of_may {s : State} {w : Who} {cr : Fin 16} {p : Fin 8} {a : Attempt} {k : CoreRun} (h : CoreMay s w cr p a k)
    {ok : State → Fin 16 → Fin 8 → Bool} (hok : ok s cr p = true) {op tag ev : Nat} {go : State → Fin 16 → Fin 8 → Issuer → State} :
    issueStore s w ok op tag ev go = go (bookIssue s cr w k) cr p (coreIssuer cr a k) := by
  have ha := findCore_attempt h.core
  have hv := (((crewCalm_iff _).1 (h.calm.1 cr)).2 a ha).2.1
  unfold issueStore
  rw [h.core]
  dsimp only
  rw [h.owner]
  dsimp only
  rw [hok]
  have hr : ¬ (k.issued + 1 > w.consumed + 2 ^ a.ucqLog) := Nat.not_lt.2 h.room
  simp only [Bool.not_true, Bool.false_or, decide_eq_true_eq, hr, if_false, hv, Option.isSome_none, Bool.false_eq_true]
  rfl

/-- A write of a write-only object that its requester may make. -/
theorem rowWrite_wo {s : State} {r : Req} {idx sub : Nat} {d : List Byte} (h : MayWrite s r idx sub d 3) (he : entryBytes idx sub = 0) :
    rowWrite s r idx sub 0 d = moduleEvent s (woAction s r idx sub d).1 := by
  obtain ⟨i, hi, ha, hz, hv⟩ := h.object
  have hr : (s.power.bringUp = .rom) = False := eq_false h.running
  unfold rowWrite
  dsimp only
  rw [h.lease]
  simp only [h.lockstep, Bool.not_true, Bool.false_or, hr, decide_false, Bool.false_and, Bool.false_eq_true, if_false]
  unfold objWrite
  dsimp only
  rw [hi]
  dsimp only
  rw [hv]
  simp only [h.right, ha, he]
  simp

/-- A write of a readable object that its requester may make, whole or one entry of a table. -/
theorem rowWrite_rw {s : State} {r : Req} {idx sub off : Nat} {d : List Byte} (h : MayWrite s r idx sub d 2)
    (he : entryBytes idx sub = 0 ∨ (off % entryBytes idx sub = 0 ∧ ∀ i, objFound s idx sub = some i → off + d.length ≤ i.size)) :
    rowWrite s r idx sub off d =
      moduleEvent s (storeFlash (afterValue (takeValue s (keyOf (actorOf s r) idx sub) (if entryBytes idx sub = 0 then 0 else off) d)
        (keyOf (actorOf s r) idx sub)) [(keyOf (actorOf s r) idx sub, d)]).1 := by
  obtain ⟨i, hi, ha, hz, hv⟩ := h.object
  have hr : (s.power.bringUp = .rom) = False := eq_false h.running
  obtain ⟨h1, h2⟩ : s.dict.openSet = none ∧ s.dict.pendings = [] := by
    rcases h.unnamed with x | x
    · exact x
    · exact absurd x (by decide)
  unfold rowWrite
  dsimp only
  rw [h.lease]
  simp only [h.lockstep, Bool.not_true, Bool.false_or, hr, decide_false, Bool.false_and, Bool.false_eq_true, if_false]
  unfold objWrite
  dsimp only
  rw [hi]
  dsimp only
  rw [hv]
  simp only [h.right, ha, h1, h2, Bool.not_true, Bool.false_eq_true, if_false, List.any_nil, Bool.or_self, Bool.and_false]
  have hc : (entryBytes idx sub ≠ 0 && (off % entryBytes idx sub ≠ 0 || i.size < off + d.length)) = false := by
    rcases he with x | ⟨x, y⟩
    · simp [x]
    · have := y i hi
      simp [x]
      intro _
      omega
  rw [hc]
  simp only [Bool.false_eq_true, if_false]
  rfl

end Sys2Proof.Machine
end

