-- ==== Sys2Proof/Laws/Use.lean ====
section
/-! SUPPORT. Lemmas that statements about commands are proved with: the next state of a powered command, keyed lists, counting objects,
frames one after the other, and operations that leave a busy unit alone. -/

namespace Sys2Proof.Machine

open Sys2Proof

/-! ## The next state -/

theorem powered_on {s : State} (h : s.power.on = true) (t : State) : powered s t = .next t := by unfold powered; rw [h, if_pos rfl]

/-- A property of what a command does is one of its next state. -/
theorem next_of {s T : State} {P : State → Prop} (h : s.power.on = true) (hp : P T) : ∃ t, powered s T = .next t ∧ P t :=
  ⟨T, powered_on h T, hp⟩

/-! ## Frames -/

theorem sameBut_refl (ps : List Part) (s : State) : SameBut ps s s := ⟨rfl, fun p _ => by cases p <;> rfl⟩

theorem sameBut_trans {ps qs : List Part} {s t u : State} (h : SameBut ps s t) (k : SameBut qs t u) (rs : List Part)
    (hp : ps.all rs.contains = true) (hq : qs.all rs.contains = true) : SameBut rs s u := by
  have sub : ∀ {xs : List Part}, xs.all rs.contains = true → ∀ p, p ∉ rs → p ∉ xs := by
    intro xs hx p hr hm
    have := List.all_eq_true.1 hx p hm
    exact hr (by simpa using this)
  refine ⟨k.1.trans h.1, fun p hr => ?_⟩
  have h1 := h.2 p (sub hp p hr)
  have h2 := k.2 p (sub hq p hr)
  cases p <;> exact Eq.trans h2 h1

theorem sameBut_le {ps : List Part} {s t : State} (h : SameBut ps s t) (rs : List Part) (hp : ps.all rs.contains = true) : SameBut rs s t :=
  sameBut_trans h (sameBut_refl [] t) rs hp rfl

theorem sameBut_then {qs rs : List Part} {s t u : State} (h : SameBut rs s t) (k : SameBut qs t u) (hq : qs.all rs.contains = true) :
    SameBut rs s u :=
  sameBut_trans h k rs (List.all_eq_true.2 fun p hp => by simpa using hp) hq

/-! ## Keyed lists -/

theorem assocGet_drop_other {κ α : Type} [DecidableEq κ] (l : List (κ × α)) (k j : κ) (z : α) (h : j ≠ k) :
    assocGet (l.filter fun e => e.1 ≠ k) j z = assocGet l j z := by
  unfold assocGet
  rw [List.find?_filter]
  have e : (fun a : κ × α => decide (decide (a.1 ≠ k) = true ∧ decide (a.1 = j) = true)) = fun a => decide (a.1 = j) := by
    funext a
    by_cases hh : a.1 = j
    · simp [hh, h]
    · simp [hh]
  rw [e]

theorem assocGet_drop_same {κ α : Type} [DecidableEq κ] (l : List (κ × α)) (k : κ) (z : α) :
    assocGet (l.filter fun e => e.1 ≠ k) k z = z := by
  unfold assocGet
  have : (l.filter fun e => e.1 ≠ k).find? (fun e => e.1 = k) = none := by
    rw [List.find?_eq_none]
    intro x hx
    have := (List.mem_filter.1 hx).2
    simpa using this
  rw [this]

theorem assocGet_set_same {κ α : Type} [DecidableEq κ] [DecidableEq α] (l : List (κ × α)) (k : κ) (v z : α) :
    assocGet (assocSet l k v z) k z = v := by
  unfold assocSet
  dsimp only
  split
  · rename_i h; rw [h]; exact assocGet_drop_same l k z
  · simp [assocGet]

theorem assocGet_set_other {κ α : Type} [DecidableEq κ] [DecidableEq α] (l : List (κ × α)) (k j : κ) (v z y : α) (h : j ≠ k) :
    assocGet (assocSet l k v z) j y = assocGet l j y := by
  unfold assocSet
  dsimp only
  split
  · exact assocGet_drop_other l k j y h
  · have : assocGet ((k, v) :: l.filter fun e => e.1 ≠ k) j y = assocGet (l.filter fun e => e.1 ≠ k) j y := by
      unfold assocGet
      rw [List.find?_cons]
      simp [Ne.symm h]
    rw [this]
    exact assocGet_drop_other l k j y h

theorem ctrGet_add_same (s : State) (f i b n : Nat) : ctrGet (ctrAdd s f i b n) f i b = (ctrGet s f i b + n) % 2 ^ 64 :=
  assocGet_set_same _ _ _ _

theorem ctrGet_add_other (s : State) (f i b n g j c : Nat) (h : ¬(g = f ∧ j = i ∧ c = b)) :
    ctrGet (ctrAdd s f i b n) g j c = ctrGet s g j c :=
  assocGet_set_other _ _ _ _ _ _ fun e => h (by injection e with a b c; exact ⟨a, b, c⟩)

theorem ctrGet_same_dict {s t : State} (h : t.dict = s.dict) (f i b : Nat) : ctrGet t f i b = ctrGet s f i b := by
  unfold ctrGet; rw [h]

/-! ## Courses -/

theorem runningMM_iff {c : Course} {u : UnitCmd} (h : runningMM c = some u) : ∃ l, c.queue = u :: l ∧ u.run = true ∧ u.op = 0x21 := by
  unfold runningMM at h
  split at h
  · split at h
    · rename_i x l e hh
      cases h
      simp at hh
      exact ⟨l, e, hh.1, hh.2⟩
    · cases h
  · cases h

/-- A Course whose oldest command is at work or waits, and that no store waits for, has nothing to begin. -/
theorem goCourse_busy {s : State} {n : Fin 8} {u : UnitCmd} {l : List UnitCmd} (hq : s.courses[n].queue = u :: l)
    (hu : u.run = true ∨ u.blocked ≠ 0) (hs : s.courses[n].stores = []) : goCourse s n = s := by
  have h : ∀ k, advCourse k s n = s := by
    intro k
    cases k with
    | zero => rfl
    | succ k =>
      unfold advCourse
      rw [hq]
      have : (u.run || decide (u.blocked ≠ 0)) = true := by rcases hu with h | h <;> simp [h]
      dsimp only
      rw [if_pos this]
  unfold goCourse doStores
  rw [h, hs]
  rfl

/-- A Course without commands and stores has nothing to begin. -/
theorem goCourse_empty {s : State} {n : Fin 8} (hq : s.courses[n].queue = []) (hs : s.courses[n].stores = []) : goCourse s n = s := by
  have h : ∀ k, advCourse k s n = s := by
    intro k
    cases k with
    | zero => rfl
    | succ k => unfold advCourse; rw [hq]
  unfold goCourse doStores
  rw [h, hs]
  rfl

/-! ## Calm states -/

theorem calm_checkEvent {s : State} (h : Calm s) (iss : Issuer) (k : Nat) (c : Fin 8) (l p tg : Nat) : Calm (checkEvent s iss k c l p tg) := by
  unfold checkEvent
  split
  · refine calm_updAttempt _ _ _ h fun a => ?_
    split <;> exact ⟨rfl, rfl⟩
  · exact h

theorem calm_latchOffence {s : State} (h : Calm s) (n : Fin 8) (u : UnitCmd) (p : Nat) (o : Option Offence) : Calm (latchOffence s n u p o) := by
  unfold latchOffence
  dsimp only
  split
  · exact h
  · split
    · refine calm_updAttempt _ _ _ (calm_of_same s _ rfl rfl h) fun a => ?_
      split <;> exact ⟨rfl, rfl⟩
    · exact calm_of_same s _ rfl rfl h

/-- Calm, from a frame that leaves the Crews and the host port alone. -/
theorem calm_of_sameBut {ps : List Part} {s t : State} (h : SameBut ps s t) (hc : Part.crews ∉ ps) (hh : Part.host ∉ ps) (c : Calm s) : Calm t :=
  calm_of_same s t (h.2 .crews hc) (by have : t.host = s.host := h.2 .host hh; rw [this]) c

theorem castReady_same {s t : State} (c : Calm s) (hc : t.crews = s.crews) (hf : t.host.funcs = s.host.funcs) : castReady t = t :=
  castReady_of_calm t (calm_of_same s t hc hf c)

/-! ## A unit command retires -/

theorem noteResult_flags (a : Attempt) (l : Option Nat) (r : Res) : (noteResult a l r).ended = a.ended ∧ (noteResult a l r).voteCmd = a.voteCmd ∧ (noteResult a l r).number = a.number := by
  unfold noteResult
  dsimp only
  split
  · split <;> exact ⟨rfl, rfl, rfl⟩
  · exact ⟨rfl, rfl, rfl⟩

/-- The queue and the waiting stores of every Course are the same. -/
def sameQueues (s t : State) : Prop := ∀ n : Fin 8, t.courses[n].queue = s.courses[n].queue ∧ t.courses[n].stores = s.courses[n].stores

theorem ownerSignal_queues (s : State) (st : Option (Fin 9 × Fin 64)) (f : Fin 9) (e : Nat) : sameQueues s (ownerSignal s st f e) := by
  intro n
  unfold ownerSignal
  split
  · exact ⟨rfl, rfl⟩
  · simp

theorem calm_ownerSignal {s : State} (h : Calm s) (st : Option (Fin 9 × Fin 64)) (f : Fin 9) (e : Nat) : Calm (ownerSignal s st f e) := by
  unfold ownerSignal
  split
  · exact h
  · exact calm_of_same s _ rfl rfl h

theorem calm_updFunc {s : State} (h : Calm s) (f : Fin 9) (g : Func → Func)
    (hg : ∀ k, (g k).collWrites = k.collWrites ∧ (g k).handleWrites = k.handleWrites) : Calm (updFunc s f g) := by
  refine ⟨h.1, fun d => ?_⟩
  by_cases e : d = f
  · subst e
    rw [updFunc_same, (hg _).1, (hg _).2]
    exact h.2 d
  · rw [updFunc_other _ _ _ _ e]
    exact h.2 d

theorem calm_signalEv {s : State} (h : Calm s) (f : Fin 9) (e : Nat) : Calm (signalEv s f e) := by
  unfold signalEv
  split
  · exact h
  · exact calm_updFunc h _ _ fun _ => ⟨rfl, rfl⟩

theorem signalEv_funcs (s : State) (f : Fin 9) (e : Nat) (g : Fin 9) : (signalEv s f e).host.funcs[g].regionWrites = s.host.funcs[g].regionWrites ∧
    (signalEv s f e).host.funcs[g].streams = s.host.funcs[g].streams := by
  unfold signalEv
  split
  · exact ⟨rfl, rfl⟩
  · by_cases h : g = f
    · subst h; rw [updFunc_same]; exact ⟨rfl, rfl⟩
    · rw [updFunc_other _ _ _ _ h]; exact ⟨rfl, rfl⟩

theorem eventCount_signal (s : State) (f : Fin 9) (e : Nat) (h0 : e ≠ 0) (h1 : e ≤ 4095) : eventCount (signalEv s f e) f e = eventCount s f e + 1 := by
  unfold signalEv
  have : (decide (e = 0) || decide (e > 4095)) = false := by simp [h0]; omega
  rw [this]
  simp only [Bool.false_eq_true, if_false]
  unfold eventCount
  rw [updFunc_same]
  exact assocGet_set_same _ _ _ _

theorem eventCount_owner (s : State) (st : Option (Fin 9 × Fin 64)) (f g : Fin 9) (e i : Nat) : eventCount (ownerSignal s st f e) g i = eventCount s g i := by
  unfold ownerSignal
  split <;> rfl

/-- A unit command of a running attempt retires: what its issuer notes, and its event. -/
theorem retireNoted_core {s : State} {c : Fin 16} {a : Attempt} {p : Fin 8} {k : Fin 4} {i : Fin 8} {seq : Nat} (ha : s.crews[c].attempt = some a)
    (hp : crewOwner s c = some p) (op tag ev : Nat) (l : Option Nat) (res : Res) :
    ∃ t, retireNoted s (.core c a.number k i seq) op tag ev l res = t ∧ SameBut [.crews, .host, .courses] s t ∧ sameQueues s t ∧
      t.crews[c] = { s.crews[c] with attempt := some (noteResult (unitRecord s a k i seq op tag res) l res) } ∧
      (∀ d, d ≠ c → t.crews[d] = s.crews[d]) ∧ t.host.mem = s.host.mem ∧
      (∀ f : Fin 9, t.host.funcs[f].regionWrites = s.host.funcs[f].regionWrites ∧ t.host.funcs[f].streams = s.host.funcs[f].streams) ∧
      (Calm s → Calm t) ∧ (res.cls ≠ .rejected → ev ≠ 0 → ev ≤ 4095 → eventCount t (funcOf p) ev = eventCount s (funcOf p) ev + 1) := by
  refine ⟨_, rfl, ?_⟩
  unfold retireNoted
  dsimp only
  rw [ha]
  dsimp only
  rw [if_pos rfl]
  generalize hS : updCrew s c _ = S
  have cS : S.crews[c] = { s.crews[c] with attempt := some (noteResult (unitRecord s a k i seq op tag res) l res) } := hS ▸ updCrew_same s c _
  have oS : ∀ d, d ≠ c → S.crews[d] = s.crews[d] := fun d hd => hS ▸ updCrew_other s c d _ hd
  have bS : SameBut [.crews] s S := by
    rw [← hS]; exact ⟨rfl, fun p hp => by cases p <;> first | rfl | simp at hp⟩
  have kS : Calm s → Calm S := by
    intro h
    refine ⟨fun d => ?_, ?_⟩
    · by_cases e : d = c
      · subst e
        rw [cS]
        obtain ⟨h1, h2⟩ := (crewCalm_iff _).1 (h.1 d)
        obtain ⟨h3, h4, h5⟩ := h2 a ha
        refine (crewCalm_iff _).2 ⟨h1, fun b hb => ?_⟩
        cases hb
        have := noteResult_flags (unitRecord s a k i seq op tag res) l res
        exact ⟨this.1.trans h3, this.2.1.trans h4, h5⟩
      · rw [oS d e]; exact h.1 d
    · have : S.host = s.host := bS.2 .host (by simp)
      rw [this]; exact h.2
  have eS : S.host = s.host := bS.2 .host (by simp)
  have dS : S.dict = s.dict := bS.2 .dict (by simp)
  have hpS : crewOwner S c = some p := by unfold crewOwner objNat at *; rw [dS]; exact hp
  rw [hpS]
  dsimp only
  generalize hev : (if res.cls = Cls.rejected then 0 else ev) = ev'
  generalize issuerStream S _ = st
  have f1 := (signalEv_frames (s := S) (f := funcOf p) (e := ev')).sameBut [.host] rfl
  have f2 := (ownerSignal_frames (s := signalEv S (funcOf p) ev') (st := st) (f := funcOf p) (e := ev')).sameBut [.courses] rfl
  have q1 : sameQueues S (signalEv S (funcOf p) ev') := by
    intro n
    rw [f1.2 .courses (by simp)]
    exact ⟨rfl, rfl⟩
  have q2 := ownerSignal_queues (signalEv S (funcOf p) ev') st (funcOf p) ev'
  refine ⟨?_, ?_, ?_, ?_, ?_, ?_, ?_, ?_⟩
  · exact sameBut_then (sameBut_then (sameBut_le bS _ rfl) f1 rfl) f2 rfl
  · intro n
    have cc : S.courses = s.courses := bS.2 .courses (by simp)
    rw [(q2 n).1, (q2 n).2, (q1 n).1, (q1 n).2, cc]
    exact ⟨rfl, rfl⟩
  · rw [f2.2 .crews (by simp), f1.2 .crews (by simp)]; exact cS
  · intro d hd
    rw [f2.2 .crews (by simp), f1.2 .crews (by simp)]; exact oS d hd
  · rw [show (ownerSignal (signalEv S (funcOf p) ev') st (funcOf p) ev').host = (signalEv S (funcOf p) ev').host from f2.2 .host (by simp)]
    have : (signalEv S (funcOf p) ev').host.mem = S.host.mem := by unfold signalEv; split <;> rfl
    rw [this, eS]
  · intro f
    have hh : (ownerSignal (signalEv S (funcOf p) ev') st (funcOf p) ev').host = (signalEv S (funcOf p) ev').host := f2.2 .host (by simp)
    rw [hh]
    have := signalEv_funcs S (funcOf p) ev' f
    rw [this.1, this.2, eS]
    exact ⟨rfl, rfl⟩
  · exact fun h => calm_ownerSignal (calm_signalEv (kS h) _ _) _ _ _
  · intro hr h0 h1
    rw [if_neg hr] at hev
    subst hev
    rw [eventCount_owner, eventCount_signal _ _ _ h0 h1]
    unfold eventCount
    rw [eS]

theorem goTrowel_empty {s : State} {n : Fin 8} (h : s.trowels[n].queue = []) : goTrowel s n = s := by unfold goTrowel; rw [h]
theorem goHod_empty {s : State} {h : Fin 16} (e : s.hods[h].queue = []) : goHod s h = s := by unfold goHod; rw [e]

theorem goTrowel_busy {s : State} {n : Fin 8} {v : UnitCmd} {l : List UnitCmd} (hq : s.trowels[n].queue = v :: l) (hv : v.run = true ∨ v.blocked ≠ 0) :
    goTrowel s n = s := by
  unfold goTrowel
  rw [hq]
  have : (v.run || decide (v.blocked ≠ 0)) = true := by rcases hv with h | h <;> simp [h]
  dsimp only
  rw [if_pos this]

theorem goHod_busy {s : State} {h : Fin 16} {v : UnitCmd} {l : List UnitCmd} (hq : s.hods[h].queue = v :: l) (hv : v.run = true ∨ v.blocked ≠ 0) :
    goHod s h = s := by
  unfold goHod
  rw [hq]
  have : (v.run || decide (v.blocked ≠ 0)) = true := by rcases hv with h | h <;> simp [h]
  dsimp only
  rw [if_pos this]

theorem hostPut_funcs (s : State) (ws : List (Nat × Byte)) : (hostPut s ws).host.funcs = s.host.funcs := rfl

end Sys2Proof.Machine
end

