-- ==== Sys2Proof/Laws/Host.lean ====
section
/-! SUPPORT. Lemmas about the host port and its streams: a vector's state, one stream's state, host memory. -/

namespace Sys2Proof.Machine

open Sys2Proof

theorem vecOf_set (s : State) (x : Vec) (f : Fin 9) (v : Fin 2048) (hf : x.f = f) (hv : x.v = v) : vecOf (setVec s x) f v = x := by
  unfold vecOf setVec
  dsimp only
  rw [List.find?_cons]
  simp [hf, hv]

theorem vecOf_key (s : State) (f : Fin 9) (v : Fin 2048) : (vecOf s f v).f = f ∧ (vecOf s f v).v = v := by
  unfold vecOf
  cases h : s.host.vecs.find? fun x => x.f = f ∧ x.v = v with
  | none => exact ⟨rfl, rfl⟩
  | some x =>
    have := List.find?_some h
    simpa using this

theorem setVec_sameBut (s : State) (x : Vec) : SameBut [.host, .out] s (setVec s x) := ⟨rfl, fun p hp => by cases p <;> first | rfl | simp at hp⟩

theorem reach_le (s : State) (t : U64) : t.toNat ≤ (reach s t).now.toNat := by
  unfold reach
  split
  · exact Nat.le_refl _
  · omega

theorem vecOf_host {s t : State} (h : t.host.vecs = s.host.vecs) (f : Fin 9) (v : Fin 2048) : vecOf t f v = vecOf s f v := by
  unfold vecOf; rw [h]

theorem vecFire_is (s : State) (f : Fin 9) (v : Fin 2048) : SameBut [.host, .out] s (vecFire s f v) ∧
    (if vecOpen s f (vecOf s f v) then (vecFire s f v).out = .msix f v (vecOf s f v).addr (vecOf s f v).data :: s.out ∧
          vecOf (vecFire s f v) f v = { vecOf s f v with pba := false, count := 0 }
       else (vecFire s f v).out = s.out ∧ vecOf (vecFire s f v) f v = { vecOf s f v with pba := true }) := by
  refine ⟨(vecFire_frames).sameBut _ rfl, ?_⟩
  obtain ⟨k1, k2⟩ := vecOf_key s f v
  unfold vecFire
  dsimp only
  cases vecOpen s f (vecOf s f v)
  · exact ⟨rfl, vecOf_set _ _ _ _ k1 k2⟩
  · exact ⟨rfl, vecOf_set _ _ _ _ k1 k2⟩

theorem stream_upd_same (s : State) (f : Fin 9) (q : Nat) (g : Stream → Stream) : stream (updStream s f q g) f q = g (stream s f q) := by
  unfold stream updStream
  rw [updFunc_same]
  exact assocGet_set_same _ _ _ _

theorem stream_upd_other (s : State) (f : Fin 9) (q r : Nat) (g : Stream → Stream) (h : r ≠ q) : stream (updStream s f q g) f r = stream s f r := by
  unfold stream updStream
  rw [updFunc_same]
  exact assocGet_set_other _ _ _ _ _ _ h

theorem stream_of_streams {s t : State} {f : Fin 9} (h : t.host.funcs[f].streams = s.host.funcs[f].streams) (q : Nat) : stream t f q = stream s f q := by
  unfold stream; rw [h]

theorem mapped_put (s : State) (ws : List (Nat × Byte)) (f : Fin 9) (ps i n : Nat) : hostMapped (hostPut s ws) f ps i n = hostMapped s f ps i n := rfl

theorem hostPut_sameBut (s : State) (ws : List (Nat × Byte)) : SameBut [.host] s (hostPut s ws) := ⟨rfl, fun p hp => by cases p <;> first | rfl | simp at hp⟩

theorem hostWrite_funcs (s : State) (f : Fin 9) (ps a : Nat) (b : List Byte) : (hostWrite s f ps a b).host.funcs = s.host.funcs := rfl

theorem hostWrite_sameBut (s : State) (f : Fin 9) (ps a : Nat) (b : List Byte) : SameBut [.host] s (hostWrite s f ps a b) := hostPut_sameBut _ _

/-- The address behind an IOVA is the same in states whose functions are. -/
theorem hostLoc_funcs {s t : State} (h : t.host.funcs = s.host.funcs) (f : Fin 9) (ps i : Nat) : hostLoc t f ps i = hostLoc s f ps i := by
  unfold hostLoc hostPage; rw [h]

theorem hostWrite_mem (s : State) (f : Fin 9) (ps a : Nat) (b : List Byte) : (hostWrite s f ps a b).host.mem = s.host.mem.writeL (placed s f ps a b) := rfl

theorem owed_fold (T : State) (f : Fin 9) (q : Nat) (g : BitVec 64 × BitVec 512 → Nat) (w : BitVec 64 × BitVec 512 → List Byte) (k ps : Nat) :
    ∀ (l : List (BitVec 64 × BitVec 512)) (t : State), (∀ p a n, hostMapped t f p a n = true) → t.host.funcs = T.host.funcs →
    ∀ u, l.foldl (fun s (x : BitVec 64 × BitVec 512) =>
      if hostMapped s f ps (g x) k then hostWrite s f ps (g x) (w x)
      else if (stream s f q).state = .halted then s else haltStream s f q .ringFault (g x)) t = u →
    u.host.mem = l.foldl (fun m x => m.writeL (placed T f ps (g x) (w x))) t.host.mem ∧ u.host.funcs = t.host.funcs ∧ SameBut [.host] t u := by
  intro l
  induction l with
  | nil => intro t _ _ u hu; cases hu; exact ⟨rfl, rfl, sameBut_refl _ _⟩
  | cons x l ih =>
    intro t h ht u hu
    rw [List.foldl_cons, if_pos (h _ _ _)] at hu
    obtain ⟨a, c, b⟩ := ih (hostWrite t f ps (g x) (w x)) (fun p i m => (mapped_put t _ f p i m).trans (h p i m)) ht u hu
    refine ⟨?_, c, sameBut_then (hostWrite_frames.sameBut [.host] rfl) b rfl⟩
    rw [a, hostWrite_mem]
    unfold placed
    simp only [hostLoc_funcs ht]
    rfl

theorem ringSpace_write (s : State) (g : Fin 9) (p a : Nat) (bs : List Byte) (f : Fin 9) (q : Nat) :
    ringSpace (hostWrite s g p a bs) f q = ringSpace s f q := by
  unfold ringSpace spaceOf objNat; rfl

theorem owed_space (f : Fin 9) (q : Nat) (g : BitVec 64 × BitVec 512 → Nat) (w : BitVec 64 × BitVec 512 → List Byte) (k ps : Nat) :
    ∀ (l : List (BitVec 64 × BitVec 512)) (W : State), (∀ p a n, hostMapped W f p a n = true) → ringSpace W f q = ps →
    l.foldl (fun s (x : BitVec 64 × BitVec 512) =>
      if hostMapped s f (ringSpace s f q) (g x) k then hostWrite s f (ringSpace s f q) (g x) (w x)
      else if (stream s f q).state = .halted then s else haltStream s f q .ringFault (g x)) W =
    l.foldl (fun s (x : BitVec 64 × BitVec 512) =>
      if hostMapped s f ps (g x) k then hostWrite s f ps (g x) (w x)
      else if (stream s f q).state = .halted then s else haltStream s f q .ringFault (g x)) W := by
  intro l
  induction l with
  | nil => intros; rfl
  | cons x l ih =>
    intro W mW sW
    rw [List.foldl_cons, List.foldl_cons, sW, if_pos (mW _ _ _)]
    exact ih (hostWrite W f ps (g x) (w x)) (fun p i m => (mapped_put W _ f p i m).trans (mW p i m)) ((ringSpace_write _ _ _ _ _ _ _).trans sW)

theorem rewriteOwed_is (T : State) (f : Fin 9) (q : Nat) (hmT : ∀ p a n, hostMapped T f p a n = true) :
    (rewriteOwed T f q).host.funcs = T.host.funcs ∧ SameBut [.host] T (rewriteOwed T f q) ∧
    (rewriteOwed T f q).host.mem = (owed T f q).foldl
          (fun m x => m.writeL (placed T f (ringSpace T f q) ((ringOf T f q).2.1 + 128 * (x.1.toNat % ringN T f q)) (wordBytes x.2)))
          (T.host.mem.writeL (placed T f (ringSpace T f q) ((ringOf T f q).2.2.1 + 8) (wordBytes (stream T f q).accepted))) := by
  have e0 : writeAccept T f q = hostWrite T f (ringSpace T f q) ((ringOf T f q).2.2.1 + 8) (wordBytes (stream T f q).accepted) := by
    unfold writeAccept
    dsimp only
    rw [if_pos (hmT _ _ _)]
  have mW : ∀ p i m, hostMapped (writeAccept T f q) f p i m = true := fun p i m => by rw [e0]; exact (mapped_put T _ f p i m).trans (hmT p i m)
  have fW : (writeAccept T f q).host.funcs = T.host.funcs := by rw [e0, hostWrite_funcs]
  have sW : ringSpace (writeAccept T f q) f q = ringSpace T f q := by rw [e0, ringSpace_write]
  have bW : SameBut [.host] T (writeAccept T f q) := by rw [e0]; exact hostWrite_sameBut _ _ _ _ _
  have nW : (writeAccept T f q).host.mem = T.host.mem.writeL (placed T f (ringSpace T f q) ((ringOf T f q).2.2.1 + 8) (wordBytes (stream T f q).accepted)) := by
    rw [e0, hostWrite_mem]
  rw [← nW]
  clear nW e0
  unfold rewriteOwed
  dsimp only
  generalize writeAccept T f q = W at *
  have hs := owed_space f q (fun x => (ringOf T f q).2.1 + 128 * (x.1.toNat % ringN T f q)) (fun x => wordBytes x.2) 64 (ringSpace T f q) (owed T f q) W mW sW
  have hf := owed_fold T f q (fun x => (ringOf T f q).2.1 + 128 * (x.1.toNat % ringN T f q)) (fun x => wordBytes x.2) 64 (ringSpace T f q)
    (owed T f q) W mW fW _ rfl
  rw [← hs] at hf
  exact ⟨hf.2.1.trans fW, sameBut_then bW hf.2.2 rfl, hf.1⟩

theorem serial_self {n : Nat} (a : BitVec n) : serialAfter a a = false := by
  unfold serialAfter
  simp

theorem vecFire_funcs (s : State) (f : Fin 9) (v : Fin 2048) : (vecFire s f v).host.funcs = s.host.funcs := by
  unfold vecFire; dsimp only; split <;> rfl

theorem ite_fire (b : Bool) (s : State) (f : Fin 9) (v : Fin 2048) : (if b then vecFire s f v else s).host.funcs = s.host.funcs := by
  cases b
  · rfl
  · exact vecFire_funcs s f v

theorem notify_funcs (s : State) (f : Fin 9) (v : Nat) : (notify s f v).host.funcs = s.host.funcs := by
  unfold notify
  split
  · exact ite_fire _ _ _ _
  · rfl

theorem haltStream_stream (s : State) (f : Fin 9) (q : Nat) (h : Halt) (d : Nat) : stream (haltStream s f q h d) f q =
    { stream s f q with state := .halted, halt := h, detail := BitVec.ofNat 64 d, bad := none, batches := if h = .journalLost then [] else (stream s f q).batches } := by
  unfold haltStream
  generalize hT : updStream s f q _ = T
  have h1 : stream T f q = { stream s f q with state := .halted, halt := h, detail := BitVec.ofNat 64 d, bad := none, batches := if h = .journalLost then [] else (stream s f q).batches } := by
    rw [← hT, stream_upd_same]
  rw [← h1]
  refine stream_of_streams ?_ q
  rw [notify_funcs]
  rfl

theorem haltStream_sameBut (s : State) (f : Fin 9) (q : Nat) (h : Halt) (d : Nat) : SameBut [.host, .evolu, .out] s (haltStream s f q h d) :=
  haltStream_frames.sameBut _ rfl

theorem hw_fold : ∀ (l : List HostWrite) (s : State),
    (softwareWrites s l).host.funcs = s.host.funcs ∧ (softwareWrites s l).host.up = s.host.up ∧ SameBut [.host] s (softwareWrites s l) := by
  intro l
  induction l with
  | nil => intro s; exact ⟨rfl, rfl, sameBut_refl _ _⟩
  | cons x l ih =>
    intro s
    obtain ⟨a, b, c⟩ := ih (hostPut s (x.bytes.zipIdx.map fun (b, i) => (x.addr + i, b)))
    exact ⟨a, b, sameBut_then (hostPut_sameBut _ _) c rfl⟩

/-- What polling reads of the state, the same. -/
structure SamePoll (s t : State) (f : Fin 9) (q : Nat) : Prop where
  mapped : ∀ p a n, hostMapped t f p a n = hostMapped s f p a n
  loc : ∀ p a, hostLoc t f p a = hostLoc s f p a
  ring : ringOf t f q = ringOf s f q
  space : ringSpace t f q = ringSpace s f q
  but : SameBut [.host] s t

theorem SamePoll.n {s t : State} {f : Fin 9} {q : Nat} (h : SamePoll s t f q) : ringN t f q = ringN s f q := by unfold ringN; rw [h.ring]

theorem SamePoll.poll {s t : State} {f : Fin 9} {q : Nat} (h : SamePoll s t f q) : mayPoll t f q = mayPoll s f q := by
  unfold mayPoll; rw [show t.power = s.power from h.but.2 .power (by simp)]

theorem SamePoll.obj {s t : State} {f : Fin 9} {q : Nat} (h : SamePoll s t f q) (i b d : Nat) : objNat t f i b d = objNat s f i b d := by
  unfold objNat; rw [show t.dict = s.dict from h.but.2 .dict (by simp)]

theorem SamePoll.read {s t : State} {f : Fin 9} {q : Nat} (h : SamePoll s t f q) (hm : t.host.mem = s.host.mem) (p a n : Nat) :
    hostRead t f p a n = hostRead s f p a n := by
  unfold hostRead; rw [hm]; simp only [h.loc]

theorem SamePoll.take {s t : State} {f : Fin 9} {q : Nat} (h : SamePoll s t f q) (e : Entry) (b : (stream t f q).batches = (stream s f q).batches)
    (c : (stream t f q).accepted = (stream s f q).accepted) (d : (stream t f q).retired = (stream s f q).retired) : mayTake t f q e = mayTake s f q e := by
  unfold mayTake expectSeq takenCount
  rw [show t.power = s.power from h.but.2 .power (by simp), show t.journal = s.journal from h.but.2 .journal (by simp)]
  dsimp only
  rw [b, c, d]

theorem SamePoll.of_funcs {s t : State} {f : Fin 9} {q : Nat} (h : SameBut [.host] s t) (hf : t.host.funcs[f].iommu = s.host.funcs[f].iommu)
    (hu : t.host.up = s.host.up) (hd : t.host.funcs[f].dvsec = s.host.funcs[f].dvsec) (hc : t.host.funcs[f].cfg = s.host.funcs[f].cfg) : SamePoll s t f q := by
  have hdict : t.dict = s.dict := h.2 .dict (by simp)
  refine ⟨fun p a n => ?_, fun p a => ?_, ?_, ?_, h⟩
  · unfold hostMapped; rw [hf, hu]
  · unfold hostLoc hostPage; rw [hf]
  · unfold ringOf objNat
    rw [hdict, hd]
  · unfold ringSpace spaceOf objNat
    rw [hdict, hd, hc]

theorem SamePoll.trans {s t u : State} {f : Fin 9} {q : Nat} (a : SamePoll s t f q) (b : SamePoll t u f q) : SamePoll s u f q :=
  ⟨fun p x n => (b.mapped p x n).trans (a.mapped p x n), fun p x => (b.loc p x).trans (a.loc p x), b.ring.trans a.ring, b.space.trans a.space, sameBut_then a.but b.but rfl⟩

theorem updStream_poll (s : State) (f : Fin 9) (q : Nat) (g : Stream → Stream) : SamePoll s (updStream s f q g) f q := by
  refine SamePoll.of_funcs (updStream_frames.sameBut [.host] rfl) ?_ rfl ?_ ?_
  all_goals unfold updStream; rw [updFunc_same]

theorem updStream_mem (s : State) (f : Fin 9) (q : Nat) (g : Stream → Stream) : (updStream s f q g).host.mem = s.host.mem := rfl

theorem assocSet_idem {κ α : Type} [DecidableEq κ] [DecidableEq α] (l : List (κ × α)) (k : κ) (v w z : α) : assocSet (assocSet l k v z) k w z = assocSet l k w z := by
  have : (assocSet l k v z).filter (fun e => e.1 ≠ k) = l.filter fun e => e.1 ≠ k := by
    unfold assocSet
    dsimp only
    split <;> simp
  show (if w = z then _ else _) = (if w = z then _ else _)
  rw [this]

/-- The host-acknowledge word holds `v`, which neither leaves its range nor goes back: HOSTACK takes it. -/
theorem pollAck_takes {s : State} {f : Fin 9} {q : Nat} {k : Stream} {v : U64} (hk : stream s f q = k) (hm : ∀ p a n, hostMapped s f p a n = true)
    (hv : BitVec.ofNat 64 (ofLe (hostRead s f (ringSpace s f q) (ringOf s f q).2.2.1 8)) = v) (hr : v = k.retired ∨ serialAfter k.retired v = true)
    (hb : serialAfter k.hostack v = false) :
    ∃ u, pollAck s f q = u ∧ SamePoll s u f q ∧ stream u f q = { k with lastAck := v, hostack := v } ∧ u.host.mem = s.host.mem := by
  refine ⟨_, rfl, ?_⟩
  unfold pollAck
  dsimp only
  rw [hk, hm, hv, hb]
  have : (decide (v ≠ k.retired) && !serialAfter k.retired v) = false := by
    rcases hr with h | h <;> simp [h]
  rw [if_neg (by decide), this, if_neg (by decide), if_neg (by decide)]
  refine ⟨(updStream_poll _ _ _ _).trans (updStream_poll _ _ _ _), ?_, rfl⟩
  rw [stream_upd_same, stream_upd_same, hk]

theorem poll_start {s : State} {f : Fin 9} {q : Nat} (hw : List HostWrite) {k : Stream} (hk : stream s f q = k) (hp : k.state = .polling) :
    let s0 := softwareWrites s hw
    let s1 := updStream s0 f q fun k => if k.state = .waiting && mayPoll s0 f q then { k with state := .polling } else k
    SamePoll s s1 f q ∧ stream s1 f q = k ∧ s1.host.mem = s0.host.mem := by
  intro s0 s1
  obtain ⟨a, b, c⟩ := hw_fold hw s
  have h1 : SamePoll s s0 f q := SamePoll.of_funcs c (by rw [a]) b (by rw [a]) (by rw [a])
  refine ⟨h1.trans (updStream_poll _ _ _ _), ?_, rfl⟩
  have e : stream s0 f q = k := (stream_of_streams (by rw [a]) q).trans hk
  rw [stream_upd_same, e, hp]
  rfl

/-- One slot judged: taken. -/
theorem pollSlots_take {s : State} {f : Fin 9} {q : Nat} {k : Stream} {e : Entry} (i : Nat) (b : Bool) (hk : stream s f q = k)
    (hm : ∀ p a n, hostMapped s f p a n = true) (he : ringSlot s f q k = e)
    (h1 : entrySeq e = expectSeq k) (h2 : enCrcOk e = true) (h3 : mayTake s f q e = true) :
    pollSlots (i + 1) s f q b = pollSlots i (updStream s f q (takeEntry · e)) f q true := by
  unfold ringSlot at he
  conv_lhs => unfold pollSlots
  dsimp only
  rw [hk, hm, he, if_neg (by decide), if_pos h1, h2, if_pos rfl, h3, if_pos rfl]

/-- One slot judged: E, but the entry may not be taken now. -/
theorem pollSlots_wait {s : State} {f : Fin 9} {q : Nat} {k : Stream} {e : Entry} (i : Nat) (b : Bool) (hk : stream s f q = k)
    (hm : ∀ p a n, hostMapped s f p a n = true) (he : ringSlot s f q k = e)
    (h1 : entrySeq e = expectSeq k) (h2 : enCrcOk e = true) (h3 : mayTake s f q e = false) :
    pollSlots (i + 1) s f q b = (updStream s f q fun k => { k with bad := none }, b) := by
  unfold ringSlot at he
  conv_lhs => unfold pollSlots
  dsimp only
  rw [hk, hm, he, if_neg (by decide), if_pos h1, h2, if_pos rfl, h3, if_neg (by decide)]

/-- One slot judged: nothing new. -/
theorem pollSlots_old {s : State} {f : Fin 9} {q : Nat} {k : Stream} {e : Entry} (i : Nat) (b : Bool) (hk : stream s f q = k)
    (hm : ∀ p a n, hostMapped s f p a n = true) (he : ringSlot s f q k = e)
    (h1 : entrySeq e ≠ expectSeq k) (h2 : serialAfter (expectSeq k) (entrySeq e) = true)
    (h3 : enCrcOk e = false ∨ entrySeq e = expectSeq k - BitVec.ofNat 64 (ringN s f q) ∨ entrySeq e = 0) :
    pollSlots (i + 1) s f q b = (updStream s f q fun k => { k with bad := none }, b) := by
  unfold ringSlot at he
  conv_lhs => unfold pollSlots
  dsimp only
  rw [hk, hm, he, if_neg (by decide), if_neg h1, h2, if_pos rfl]
  have : (enCrcOk e && decide (entrySeq e ≠ expectSeq k - BitVec.ofNat 64 (ringN s f q)) && decide (entrySeq e ≠ 0)) = false := by
    rcases h3 with h | h | h <;> simp [h]
  rw [this]
  rfl

/-- One slot judged: after E. -/
theorem pollSlots_gap {s : State} {f : Fin 9} {q : Nat} {k : Stream} {e : Entry} (i : Nat) (b : Bool) (hk : stream s f q = k)
    (hm : ∀ p a n, hostMapped s f p a n = true) (he : ringSlot s f q k = e)
    (h1 : entrySeq e ≠ expectSeq k) (h2 : serialAfter (expectSeq k) (entrySeq e) = false) :
    pollSlots (i + 1) s f q b = (haltStream s f q .gap (entrySeq e).toNat, b) := by
  unfold ringSlot at he
  conv_lhs => unfold pollSlots
  dsimp only
  rw [hk, hm, he, if_neg (by decide), if_neg h1, h2, if_neg (by decide)]

theorem ringN_big (s : State) (f : Fin 9) (q : Nat) : min 8 (ringN s f q) = 7 + 1 := by
  have : 2 ^ 6 ≤ ringN s f q := by
    unfold ringN
    exact Nat.pow_le_pow_right (by decide) (by omega)
  omega

/-- A round of a polling stream whose host-acknowledge word keeps the rules: HOSTACK takes it, then the slots are judged. -/
theorem poll_shape {s : State} {f : Fin 9} {q : Fin 64} (hw : List HostWrite) {k : Stream} {v : U64} (hon : s.power.on = true)
    (hk : stream s f q = k) (hp : k.state = .polling) (hm : ∀ p a n, hostMapped s f p a n = true)
    (hv : BitVec.ofNat 64 (ofLe (hostRead (softwareWrites s hw) f (ringSpace s f q) (ringOf s f q).2.2.1 8)) = v)
    (hr : v = k.retired ∨ serialAfter k.retired v = true) (hb : serialAfter k.hostack v = false) :
    ∃ u, SamePoll s u f q ∧ stream u f q = { k with lastAck := v, hostack := v } ∧ u.host.mem = (softwareWrites s hw).host.mem ∧
      exec (.streamPoll f q hw) s =
        .next (nextInterval (pollSlots (7 + 1) u f q false).1 f q (pollSlots (7 + 1) u f q false).2 (decide (v ≠ k.hostack))) := by
  obtain ⟨a, b, c⟩ := poll_start (q := q.val) hw hk hp
  generalize hs1 : (updStream (softwareWrites s hw) f q fun k => if k.state = .waiting && mayPoll (softwareWrites s hw) f q then { k with state := .polling } else k) = s1 at a b c
  have hv1 : BitVec.ofNat 64 (ofLe (hostRead s1 f (ringSpace s1 f q) (ringOf s1 f q).2.2.1 8)) = v := by
    rw [a.ring, a.space]
    unfold hostRead at *
    rw [c]
    simp only [a.loc]
    have e : ∀ p i, hostLoc (softwareWrites s hw) f p i = hostLoc s f p i := hostLoc_funcs (hw_fold hw s).1 f
    simp only [e] at hv
    exact hv
  obtain ⟨u, hu, a2, b2, c2⟩ := pollAck_takes b (fun p x n => (a.mapped p x n).trans (hm p x n)) hv1 hr hb
  refine ⟨u, a.trans a2, b2, c2.trans c, ?_⟩
  show powered s _ = _
  rw [powered_on hon]
  dsimp only
  rw [hs1, b, if_pos hp, hu, b2]
  rw [if_neg (by simp [hp]), ringN_big]

end Sys2Proof.Machine
end

