-- ==== Sys2Proof/Laws/Units.lean ====
section
/-! SUPPORT. What the units do when a command is issued to them, runs, or has a pass released: said once, for statements to cite. -/

namespace Sys2Proof.Machine

open Sys2Proof

theorem latchOffence_course (s : State) (n : Fin 8) (u : UnitCmd) (p : Nat) (o : Option Offence) :
    ∃ r, (latchOffence s n u p o).courses[n] = { s.courses[n] with offender := r } := by
  unfold latchOffence
  dsimp only
  split
  · exact ⟨_, rfl⟩
  · have key : ∀ t : State, t.courses = (updCourse s n fun c => if c.offender.getLsbD 128 then c else { c with offender := offenderRecord s n u p ‹Offence› }).courses →
        ∃ r, t.courses[n] = { s.courses[n] with offender := r } := by
      intro t ht
      rw [ht, updCourse_same]
      split
      · exact ⟨s.courses[n].offender, rfl⟩
      · exact ⟨_, rfl⟩
    split <;> exact key _ rfl

theorem updTile_tile (s : State) (n : Fin 8) (h : Nat) (g : Tile → Tile) :
    (updTile s n h g).courses[n] = { s.courses[n] with tiles := s.courses[n].tiles.set (fin64 h) (g s.courses[n].tiles[fin64 h]) } := by
  unfold updTile; rw [updCourse_same]

/-- A pass that begins keeps everything of its Course but what belongs to the pass. -/
theorem startPass_course (s : State) (n : Fin 8) (u : UnitCmd) (p : Nat) :
    ∃ a b c d, (startPass s n u p).courses[n] =
      { s.courses[n] with pass := p, active := a, loading := b, stage := c, firstFail := none, afterSubst := false, tau := d } := by
  unfold startPass
  dsimp only
  rw [updCourse_same]
  split
  · exact ⟨_, _, _, _, rfl⟩
  · split
    · exact ⟨_, _, _, _, rfl⟩
    · exact ⟨_, _, _, _, rfl⟩

/-- The tile of a pass that is released before the last: one pass more, in its other half. -/
def passTile (s : State) (n : Fin 8) (u : UnitCmd) (t : Tile) : Tile := { t with passes := t.passes + 1, current := !t.current, lanes := mmLanes s n u }

/-- The Course whose pass is released before the last: its flags are the command's from now on. -/
def passFlagged (c : Course) : Course :=
  { c with cmdFlags := c.cmdFlags ||| c.passFlags, passFlags := 0, retried := c.retried || c.firstFail.isSome }

/-- The state with a pass released and its flags taken. -/
def passTaken (s : State) (n : Fin 8) (u : UnitCmd) : State :=
  updCourse (tileChanged (updTile s n (mmTile u.word) (passTile s n u)) n (mmTile u.word)) n passFlagged

theorem releasePass_eq {s : State} {n : Fin 8} {u : UnitCmd} (h : s.courses[n].pass < mmPasses u.word) :
    releasePass s n u =
      startPass (updCourse (latchOffence (passTaken s n u) n u s.courses[n].pass (passTaken s n u).courses[n].passOffence) n
        fun c => { c with passOffence := none }) n u (s.courses[n].pass + 1) := by
  unfold releasePass
  simp only [if_pos h]
  rfl

theorem passTaken_course (s : State) (n : Fin 8) (u : UnitCmd) :
    ∃ a b, (passTaken s n u).courses[n] = passFlagged { s.courses[n] with
      tiles := s.courses[n].tiles.set (fin64 (mmTile u.word)) (passTile s n u s.courses[n].tiles[fin64 (mmTile u.word)]), active := a, loading := b } := by
  unfold passTaken tileChanged
  rw [updCourse_same, updCourse_same, updTile_tile]
  exact ⟨_, _, rfl⟩

/-- Every pass but the last of an MM: the tile has one pass more, in its other half, the flags are kept, and the next pass begins. -/
theorem releasePass_more {s : State} {n : Fin 8} {u : UnitCmd} (h : s.courses[n].pass < mmPasses u.word) (hc : Calm s) :
    Calm (releasePass s n u) ∧ SameBut [.courses, .crews] s (releasePass s n u) ∧
      (releasePass s n u).courses[n].queue = s.courses[n].queue ∧ (releasePass s n u).courses[n].stores = s.courses[n].stores ∧
      (releasePass s n u).courses[n].pass = s.courses[n].pass + 1 ∧
      (releasePass s n u).courses[n].tiles = s.courses[n].tiles.set (fin64 (mmTile u.word)) (passTile s n u s.courses[n].tiles[fin64 (mmTile u.word)]) ∧
      (releasePass s n u).courses[n].cmdFlags = s.courses[n].cmdFlags ||| s.courses[n].passFlags := by
  rw [releasePass_eq h]
  obtain ⟨a, b, c1⟩ := passTaken_course s n u
  have f1 : Frames 4 s (passTaken s n u) :=
    ((updTile_frames.step tileChanged_frames rfl).step updCourse_frames rfl)
  have b1 := f1.sameBut [.courses] rfl
  have k1 := calm_of_sameBut b1 (by simp) (by simp) hc
  generalize passTaken s n u = s1 at *
  obtain ⟨r, c2⟩ := latchOffence_course s1 n u s.courses[n].pass s1.courses[n].passOffence
  have b2 := (latchOffence_frames (s := s1) (n := n) (u := u) (pass := s.courses[n].pass) (o := s1.courses[n].passOffence)).sameBut [.courses, .crews] rfl
  have k2 := calm_latchOffence k1 n u s.courses[n].pass s1.courses[n].passOffence
  generalize latchOffence s1 n u s.courses[n].pass s1.courses[n].passOffence = s2 at *
  have b3 := (updCourse_frames (s := s2) (n := n) (g := fun c => { c with passOffence := none })).sameBut [.courses] rfl
  have k3 := calm_of_sameBut b3 (by simp) (by simp) k2
  obtain ⟨x, y, z, w, c4⟩ := startPass_course (updCourse s2 n fun c => { c with passOffence := none }) n u (s.courses[n].pass + 1)
  rw [updCourse_same, c2, c1] at c4
  generalize updCourse s2 n _ = s3 at *
  have b4 := (startPass_frames (s := s3) (n := n) (u := u) (p := s.courses[n].pass + 1)).sameBut [.courses] rfl
  refine ⟨calm_of_sameBut b4 (by simp) (by simp) k3, ?_, ?_⟩
  · exact sameBut_trans (sameBut_trans (sameBut_trans b1 b2 [.courses, .crews] rfl rfl) b3 [.courses, .crews] rfl rfl) b4 _ rfl rfl
  · rw [c4]
    exact ⟨rfl, rfl, rfl, rfl, rfl⟩

theorem ctr_pointLog (s : State) (k u t f i b : Nat) : ctrGet (pointLog s k u t) f i b = ctrGet s f i b := by
  unfold pointLog
  dsimp only
  split
  · rfl
  · rfl
theorem ctr_genBump (s : State) (f i b g j c : Nat) : ctrGet (genBump s f i b) g j c = ctrGet s g j c := rfl
theorem ctr_cardPoint (s : State) (p : Option (Fin 8)) (k u t g j c : Nat) : ctrGet (cardPoint s p k u t) g j c = ctrGet s g j c :=
  ctrGet_same_dict ((cardPoint_frames (s := s)).dict rfl) _ _ _
theorem ctr_checkEvent (s : State) (iss : Issuer) (k : Nat) (c : Fin 8) (l p t g j d : Nat) : ctrGet (checkEvent s iss k c l p t) g j d = ctrGet s g j d :=
  ctrGet_same_dict ((checkEvent_frames (s := s)).dict rfl) _ _ _

theorem trowelPort_go {w : Who} {n : Fin 8} {c : Cmd} {s : State} {cr : Fin 16} {p : Fin 8} {a : Attempt} {k : CoreRun} (h : CoreMay s w cr p a k)
    (ho : courseOwner s n = some p) (hi : s.courses[n].inService = true) (hop : fld c 7 0 = 0x31 ∨ fld c 7 0 = 0x32 ∨ fld c 7 0 = 0x33) :
    trowelPort s w n c = castReady (goTrowel (trowelQueued (bookIssue s cr w k) n (trowelCmd (bookIssue s cr w k) n c (coreIssuer cr a k))) n) := by
  unfold trowelPort
  dsimp only
  rw [issueStore_of_may h (by show (_ && _) = true; rw [ho, hi]; simp)]
  have : (decide (fld c 7 0 < 0x31) || decide (fld c 7 0 > 0x33)) = false := by rcases hop with h | h | h <;> rw [h] <;> rfl
  rw [this]
  rfl

theorem calm_noteSeed {s : State} (h : Calm s) (u : UnitCmd) : Calm (noteSeed s u) := by
  unfold noteSeed
  split
  · exact h
  · split
    · refine calm_updAttempt _ _ _ h fun a => ?_
      split <;> exact ⟨rfl, rfl⟩
    · exact h

/-- The state in which a Trowel command reads: its wait has been spent, its tiles are taken and its seed is noted. -/
def trowelReady (s : State) (n : Fin 8) (u : UnitCmd) : State := noteSeed (tilesTake (waitSpent s n (cmdTiles u)) n u) u

/-- The state in which a Trowel command has had its effect: the corrected words counted, its output written, its elements counted. -/
def trowelWritten (s : State) (n : Fin 8) (u : UnitCmd) : State :=
  evAdd (palletWriteL (palletFix s n (trowelReads s n u)) n (trowelEffect s n u).1) 0x1002 n 0xFF (outPos u.word).length

/-- A correction leaves what a Pallet holds as it is. -/
theorem palletFix_pallets (s : State) (n m : Fin 8) (as : List Nat) :
    (palletFix s n as).pallets[m].mem = s.pallets[m].mem ∧ (m ≠ n → (palletFix s n as).pallets[m] = s.pallets[m]) := by
  have key : ∀ (g : Pallet → Pallet) (t : State), (∀ p, (g p).mem = p.mem) → t.pallets = (updPallet s n g).pallets →
      t.pallets[m].mem = s.pallets[m].mem ∧ (m ≠ n → t.pallets[m] = s.pallets[m]) := by
    intro g t hg ht
    rw [ht]
    by_cases e : m = n
    · subst e; rw [updPallet_same]; exact ⟨hg _, fun h => absurd rfl h⟩
    · rw [updPallet_other _ _ _ _ e]; exact ⟨rfl, fun _ => rfl⟩
  unfold palletFix
  split
  · exact ⟨rfl, fun _ => rfl⟩
  · refine key (fun p => { p with ce := p.ce.filter fun u => !(s.pallets[n].ce.filter fun u => as.any fun a => a / 8 == u / 8).contains u }) _ (fun _ => rfl) ?_
    exact ctrAdd_pallets _ _ _ _ _

/-- The oldest Trowel command runs. -/
theorem goTrowel_runs {s : State} {n : Fin 8} {u : UnitCmd} {l : List UnitCmd} (q1 : s.trowels[n].queue = u :: l) (hur : u.run = false ∧ u.blocked = 0)
    (htw : tileWaits s n u = false) (hrj : trowelReject s n u = none) (hue : s.pallets[n].ue = [])
    (hg : guarded (waitSpent s n (cmdTiles u)) n (outRegion u.word (cmdDesc u (vOdesc u.word))) = false) (hc : Calm s) :
    let T := trowelReady s n u
    let D := trowelWritten T n u
    goTrowel s n = setTrowelHead D n (fun x => { x with run := true, res := { Res.okay with flags := (trowelEffect T n u).2 } }) ∧
      Calm D ∧ D.trowels = s.trowels ∧ D.pallets[n].mem = s.pallets[n].mem.writeL (trowelEffect T n u).1 ∧
      (∀ m, m ≠ n → D.pallets[m] = s.pallets[m]) ∧ SameBut [.free, .courses, .pallets, .crews, .dict, .counters] s D := by
  intro T D
  have b2 : SameBut [.free] s (waitSpent s n (cmdTiles u)) := (waitSpent_frames).sameBut _ rfl
  have bA := (tilesTake_frames (s := waitSpent s n (cmdTiles u)) (n := n) (u := u)).sameBut [.courses] rfl
  have bT := (noteSeed_frames (s := tilesTake (waitSpent s n (cmdTiles u)) n u) (u := u)).sameBut [.crews] rfl
  have hT : SameBut [.free, .courses, .crews] s T := sameBut_then (sameBut_then (sameBut_le b2 _ rfl) bA rfl) bT rfl
  have kT : Calm T := calm_noteSeed (calm_of_sameBut bA (by simp) (by simp) (calm_of_sameBut b2 (by simp) (by simp) hc)) u
  have pT : T.pallets = s.pallets := hT.2 .pallets (by simp)
  have hread : readUe T n (trowelReads T n u) = none := by
    unfold readUe
    rw [pT, hue]; rfl
  have hgo : goTrowel s n = setTrowelHead D n (fun x => { x with run := true, res := { Res.okay with flags := (trowelEffect T n u).2 } }) := by
    unfold goTrowel
    rw [q1]
    dsimp only
    rw [hur.1, hur.2, htw, hrj]
    simp only [ne_eq, not_true, decide_false, Bool.or_self, Bool.false_eq_true, if_false]
    rw [hg]
    simp only [Bool.false_eq_true, if_false]
    show (match readUe T n (trowelReads T n u) with | some a => _ | none => _) = _
    rw [hread]
    rfl
  refine ⟨hgo, ?_⟩
  have fD : Frames 278548 T D := ((palletFix_frames.mono rfl).step palletWriteL_frames rfl).step evAdd_frames rfl
  have bD := fD.sameBut [.courses, .pallets, .dict, .counters] rfl
  have pD : D.pallets = (palletWriteL (palletFix T n (trowelReads T n u)) n (trowelEffect T n u).1).pallets := (evAdd_frames).pallets rfl
  refine ⟨calm_of_sameBut bD (by simp) (by simp) kT, (bD.2 .trowels (by simp)).trans (hT.2 .trowels (by simp)), ?_, fun m hm => ?_, ?_⟩
  · rw [pD]
    unfold palletWriteL
    dsimp only
    rw [updCourse_pallets, updPallet_same]
    show (palletFix T n (trowelReads T n u)).pallets[n].mem.writeL _ = _
    rw [(palletFix_pallets _ _ _ _).1, pT]
  · rw [pD]
    unfold palletWriteL
    dsimp only
    rw [updCourse_pallets, updPallet_other _ _ _ _ hm, (palletFix_pallets _ _ _ _).2 hm, pT]
  · exact sameBut_then (sameBut_le hT _ rfl) bD rfl

theorem hodPort_go {w : Who} {h : Fin 16} {c : Cmd} {s : State} {cr : Fin 16} {p : Fin 8} {a : Attempt} {k : CoreRun} (hm : CoreMay s w cr p a k)
    (ho : courseOwner s (hodCourse h) = some p) (hi : s.courses[hodCourse h].inService = true)
    (hop : fld c 7 0 = 0x41 ∨ fld c 7 0 = 0x42 ∨ fld c 7 0 = 0x43 ∨ fld c 7 0 = 0x44) :
    hodPort s w h c = castReady (enqueueHod (bookIssue s cr w k) h (hodCmd (bookIssue s cr w k) h c (coreIssuer cr a k))) := by
  unfold hodPort
  dsimp only
  rw [issueStore_of_may hm (by show (_ && _) = true; rw [ho, hi]; simp)]
  have : (decide (fld c 7 0 < 0x41) || decide (fld c 7 0 > 0x44)) = false := by rcases hop with h | h | h | h <;> rw [h] <;> rfl
  rw [this]
  rfl

theorem calm_undoSave {s : State} (h : Calm s) (c : Fin 16) (p : Fin 8) (as : List Nat) : Calm (undoSave s c p as) := by
  unfold undoSave
  split
  · exact h
  · dsimp only
    have f : Frames 64 s ((undoNew s c p as).foldl (fun s g =>
      match epochAddr s p (4096 * g) with
      | some x => hbmWriteN s p (undoBase s c + 4096 * g) (hbmReadN s p x 4096)
      | none => s) s) := Frames.foldl (Frames.refl _ _) fun t g ht => by
        split
        · exact Frames.step ht hbmWriteN_frames rfl
        · exact ht
    exact calm_updAttempt _ _ _ (calm_of_sameBut (f.sameBut [.hbm] rfl) (by simp) (by simp) h) fun _ => ⟨rfl, rfl⟩

/-- Bytes written at places leave the host's functions alone: host memory is no part of them. -/
theorem spaceWriteL_funcs (s : State) (f : Fin 9) (p : Option (Fin 8)) (ws : List (Nat × Byte)) :
    (spaceWriteL s f p ws).host.funcs = s.host.funcs := by
  have h : Frames 20 s ((List.range 8).foldl (fun s n =>
      let l := ws.filter fun w => aLoc w.1 = 0 && aCourse w.1 = n
      if l.isEmpty then s else palletWriteL s (fin8 n) (l.map fun w => (aPallet w.1, w.2))) s) :=
    Frames.foldl (Frames.refl _ _) fun t g ht => by
      dsimp only
      split
      · exact ht
      · exact ht.step palletWriteL_frames rfl
  dsimp only at h
  unfold spaceWriteL
  dsimp only
  rw [hostPut_funcs, hbmWriteP_frames.host rfl, h.host rfl]

theorem gsAdds_funcs (s : State) (f : Fin 9) (p : Option (Fin 8)) (n : Nat) (d : Cmd) (l : List ((Nat × Nat) × Nat)) :
    (gsAdds s f p n d l).1.host.funcs = s.host.funcs := by
  unfold gsAdds
  generalize hx : (s, (0 : FlagByte)) = x
  have e : s.host.funcs = x.1.host.funcs := by rw [← hx]
  rw [e]
  clear hx e
  induction l generalizing x with
  | nil => rfl
  | cons y l ih => rw [List.foldl_cons, ih]; exact spaceWriteL_funcs _ _ _ _

theorem hodEffect_funcs (s : State) (h : Fin 16) (u : UnitCmd) : (hodEffect s h u).1.host.funcs = s.host.funcs := by
  unfold hodEffect
  dsimp only
  split
  · split
    · split
      · exact congrArg HostPort.funcs ((hbmAdds_frames).host rfl)
      · rfl
    · exact spaceWriteL_funcs _ _ _ _
  · split
    · exact (gsAdds_funcs _ _ _ _ _ _).trans (congrArg HostPort.funcs ((gsAddends_frames).host rfl))
    · exact spaceWriteL_funcs _ _ _ _

theorem calm_atcUse {s : State} (h : Calm s) (f : Fin 9) (es : List Nat) : Calm (atcUse s f es) := by
  unfold atcUse
  split
  · exact h
  · dsimp only
    split
    · exact h
    · exact calm_updFunc h _ _ fun _ => ⟨rfl, rfl⟩

theorem atcUse_mem (s : State) (f : Fin 9) (es : List Nat) : (atcUse s f es).host.mem = s.host.mem := by
  unfold atcUse
  split
  · rfl
  · dsimp only
    split <;> rfl

theorem spaceFix_pallets (s : State) (p : Option (Fin 8)) (es : List Nat) (m : Fin 8) : (spaceFix s p es).pallets[m].mem = s.pallets[m].mem := by
  have h : ∀ (l : List Nat) (t : State), (l.foldl (fun s n => palletFix s (fin8 n) ((es.filter fun e => aLoc e = 0 && aCourse e = n).map aPallet)) t).pallets[m].mem =
      t.pallets[m].mem := by
    intro l
    induction l with
    | nil => intro t; rfl
    | cons x l ih => intro t; rw [List.foldl_cons, ih, (palletFix_pallets _ _ _ _).1]
  unfold spaceFix
  rw [hbmFix_frames.pallets rfl, h]

/-- The oldest Hod command runs: what it writes is the effect on the state whose granules have been saved, and it is accounted for. -/
theorem goHod_runs {s : State} {h : Fin 16} {u : UnitCmd} {l : List UnitCmd} {cr : Fin 16} {p : Fin 8} (q1 : s.hods[h].queue = u :: l)
    (hur : u.run = false ∧ u.blocked = 0) (haf : entryWaits u = false) (hts : cmdTiles u = [])
    (hrj : (if u.op = 0x41 then copyReject s u else gatherReject s h u) = none) (hiss : issuerCrew u.iss = some cr) (hisp : issuerPart s u.iss = some p)
    (hist : ∃ x y z v, u.iss = .core cr v x y z) (hg : heldBy s (hodPlaces s h u).2 = none)
    (hf : hodFault (undoSave s cr p (hbmOf (hodPlaces s h u).2)) u (hodUndo s u (hodPlaces s h u).2) (hodPlaces s h u).1 (hodPlaces s h u).2 = none) (hc : Calm s) :
    let pl := hodPlaces s h u
    let E := (hodEffect (undoSave s cr p (hbmOf pl.2)) h u).1
    ∃ D : State, goHod s h = setHodHead D h (fun x =>
      { x with
        run := true, wrote := hodOld s h u
        res := ⟨if u.retried then .okRetried else .ok, .none, (hodEffect (undoSave s cr p (hbmOf pl.2)) h u).2, false, false, 0, 0⟩ }) ∧
      Calm D ∧ D.hods = s.hods ∧ (∀ m : Fin 8, D.pallets[m].mem = E.pallets[m].mem) ∧ D.host.mem = E.host.mem ∧ D.host.funcs.map (·.streams) = s.host.funcs.map (·.streams) := by
  intro pl E
  have hw : waitSpent s (fin8 (h.val / 2)) (cmdTiles u) = s := by rw [hts]; rfl
  have ht : tilesTake s (fin8 (h.val / 2)) u = s := by unfold tilesTake; rw [hts]; rfl
  obtain ⟨x, y, z, v, hx⟩ := hist
  have hgo : ∃ D, D = hodAccount (atcUse (spaceFix E (some p) (pl.1 ++ (hodUndo s u pl.2).map hbmAddr)) (issuerFn s u.iss) (pl.1 ++ pl.2)) h u pl.1 pl.2
        (if u.op = 0x41 then cpBytes u.word else pl.2.length) ∧
      goHod s h = setHodHead D h (fun x =>
      { x with
        run := true, wrote := hodOld s h u
        res := ⟨if u.retried then .okRetried else .ok, .none, (hodEffect (undoSave s cr p (hbmOf pl.2)) h u).2, false, false, 0, 0⟩ }) := by
    refine ⟨_, rfl, ?_⟩
    unfold goHod
    rw [q1]
    dsimp only
    rw [hur.1, hur.2, if_neg (by decide), haf, if_neg (by decide), hrj, hw, ht]
    dsimp only
    show (match heldBy s pl.2 with | some n => _ | none => _) = _
    rw [show heldBy s pl.2 = none from hg]
    dsimp only
    rw [hiss, hisp]
    dsimp only
    rw [hf]
    dsimp only
    rw [hx]
  obtain ⟨D, hD, hgo⟩ := hgo
  refine ⟨D, hgo, ?_⟩
  have kS := calm_undoSave hc cr p (hbmOf pl.2)
  have bS := (undoSave_frames (s := s) (c := cr) (p := p) (as := hbmOf pl.2)).sameBut [.hbm, .crews] rfl
  have bE := (hodEffect_frames (s := undoSave s cr p (hbmOf pl.2)) (h := h) (u := u)).sameBut [.free, .courses, .pallets, .hbm, .host] rfl
  have fE := hodEffect_funcs (undoSave s cr p (hbmOf pl.2)) h u
  have kE : Calm E := calm_of_same _ E (bE.2 .crews (by simp)) fE kS
  have hE : E.hods = s.hods := (bE.2 .hods (by simp)).trans (bS.2 .hods (by simp))
  have uE : E.host.funcs = s.host.funcs := fE.trans (congrArg HostPort.funcs (bS.2 .host (by simp)))
  have fF := spaceFix_frames (s := E) (p := some p) (es := pl.1 ++ (hodUndo s u pl.2).map hbmAddr)
  have mF := spaceFix_pallets E (some p) (pl.1 ++ (hodUndo s u pl.2).map hbmAddr)
  have kF : Calm (spaceFix E (some p) (pl.1 ++ (hodUndo s u pl.2).map hbmAddr)) := calm_of_same E _ (fF.crews rfl) (congrArg HostPort.funcs (fF.host rfl)) kE
  generalize spaceFix E (some p) (pl.1 ++ (hodUndo s u pl.2).map hbmAddr) = F at *
  have fA := atcUse_frames (s := F) (f := issuerFn s u.iss) (es := pl.1 ++ pl.2)
  have kA := calm_atcUse kF (issuerFn s u.iss) (pl.1 ++ pl.2)
  have mA := atcUse_mem F (issuerFn s u.iss) (pl.1 ++ pl.2)
  have sA : (atcUse F (issuerFn s u.iss) (pl.1 ++ pl.2)).host.funcs.map (·.streams) = F.host.funcs.map (·.streams) := by
    unfold atcUse
    split
    · rfl
    · dsimp only
      split
      · rfl
      · show ((F.host.funcs.set _ _).map _) = _
        ext i hi
        simp only [Vector.getElem_map, Vector.getElem_set]
        split
        · rename_i e; subst e; rfl
        · rfl
  generalize atcUse F (issuerFn s u.iss) (pl.1 ++ pl.2) = A at *
  have fD := hodAccount_frames (s := A) (h := h) (u := u) (rs := pl.1) (ws := pl.2) (moved := if u.op = 0x41 then cpBytes u.word else pl.2.length)
  rw [← hD] at fD
  refine ⟨calm_of_same A D (fD.crews rfl) (congrArg HostPort.funcs (fD.host rfl)) kA, ?_, fun m => ?_, ?_, ?_⟩
  · exact (fD.hods rfl).trans ((fA.hods rfl).trans ((fF.hods rfl).trans hE))
  · rw [fD.pallets rfl, fA.pallets rfl, mF m]
  · rw [fD.host rfl, mA, fF.host rfl]
  · rw [fD.host rfl, sA, fF.host rfl, uE]

theorem sameQueues_tileGive (s : State) (n : Fin 8) (h : Nat) : sameQueues s (tileGive s n h) := by
  intro m
  unfold tileGive
  split
  · exact ⟨rfl, rfl⟩
  · unfold updTile
    by_cases e : m = n
    · subst e; rw [updCourse_same]; exact ⟨rfl, rfl⟩
    · rw [updCourse_other _ _ _ _ e]; exact ⟨rfl, rfl⟩

theorem tileGives (l : List Nat) (s : State) (n : Fin 8) : SameBut [.courses] s (l.foldl (fun s h => tileGive s n h) s) ∧
    sameQueues s (l.foldl (fun s h => tileGive s n h) s) := by
  induction l generalizing s with
  | nil => exact ⟨sameBut_refl _ _, fun _ => ⟨rfl, rfl⟩⟩
  | cons x l ih =>
    obtain ⟨h1, h2⟩ := ih (tileGive s n x)
    refine ⟨sameBut_then (sameBut_le ((tileGive_frames).sameBut [.courses] rfl) _ rfl) h1 rfl, fun m => ?_⟩
    have := sameQueues_tileGive s n x m
    exact ⟨(h2 m).1.trans this.1, (h2 m).2.trans this.2⟩

theorem crewOwner_dict {s t : State} (h : t.dict.vals = s.dict.vals) (c : Fin 16) : crewOwner t c = crewOwner s c := by
  unfold crewOwner objNat; rw [h]

end Sys2Proof.Machine
end

