-- ==== Sys2Proof/WellFormed.lean ====
section
/-! DEFINITION. Which commands could have come from their senders: every operand within what the row's layout can carry. A meaning
takes an ill-formed command too; the check says what no sender can send. -/

namespace Sys2Proof

/-- A service message without its OP: LAST is the only flag, REF is 0 in a request, and DATA holds at most 1,000 bytes (R376). -/
def SvcMsg.wf (m : SvcMsg) : Bool := m.mflags.toNat ≤ 1 && m.ref = 0 && m.data.length ≤ 1000

/-- A rank of a Crew (R263). -/
def rankWf (r : Nat) : Bool := r < 131072

/-- A result a faulty lane spoils: a row of a pass of up to 8,192 rows, and a lane, SUM or MAG (R55, R66). -/
def LaneFault.wf (l : LaneFault) : Bool := l.row < 8192 && l.lane ≤ 513

/-- A write of software lies in the 64-bit address space of the host. -/
def HostWrite.wf (w : HostWrite) : Bool := w.addr + w.bytes.length ≤ 2 ^ 64

/-- The head of a Finish packet names a Stroke that can exist: 0 stands for no finished Stroke (0x7200 + c:3D). -/
def FinHead.wf (h : FinHead) : Bool := h.stroke ≠ 0

/-- A decision code of R323. -/
def decWf (d : Byte) : Bool := 1 ≤ d.toNat && d.toNat ≤ 3

/-- A VOTE names its sender and no more entries than a packet carries (R345, R242). -/
def VoteBody.wf (b : VoteBody) : Bool := rankWf b.sender && b.entries.length ≤ 254

/-- A DECIDE or RESOLVE carries a decision, 0 for none held, and no more entries than a packet carries (R345, R242). -/
def DecBody.wf (b : DecBody) : Bool := b.decision.toNat ≤ 3 && b.entries.length ≤ 254

/-- The element formats of R148. -/
def MemOp.wf : MemOp → Bool
  | .add fmt _ => fmt ≤ 4
  | .read _ => true

/-- Payload and request sizes of the standard up to those of R183, at most eight VFs, and a BAR2 size of R187. -/
def CfgWrite.wf : CfgWrite → Bool
  | .bootstrap _ => true
  | .controls vfs mps mrrs _ _ _ _ => vfs ≤ 8 && [128, 256, 512].contains mps && [128, 256, 512, 1024, 2048, 4096].contains mrrs
  | .barSize log => log ≤ 6

/-- An access of a core is one of its instructions' of up to 64 bytes (R230). -/
def CoreAct.wf : CoreAct → Bool
  | .trap => true
  | .load _ a n => 1 ≤ n && n ≤ 64 && a + n ≤ 2 ^ 64
  | .store a bs => 1 ≤ bs.length && bs.length ≤ 64 && a + bs.length ≤ 2 ^ 64

/-- The parts of the module that can be reset alone (R436), by kind and number. -/
def partWf (kind : Fin 9) (n : Nat) : Bool :=
  match kind.val with
  | 0 | 1 => n < 8
  | 2 | 7 => n < 16
  | 3 => n < 72
  | 4 => n < 1024
  | 5 => n < 32
  | 6 => n < 1280
  | _ => n = 0

/-- The check of a command. -/
def Instr.wf : Instr → Bool
  | .mm _ _ _ => true
  | .loadw _ _ _ => true
  | .weightLoadDone _ => true
  | .passEnd _ bad => bad.all LaneFault.wf
  | .checkVerdict _ => true
  | .laneSubstitution _ _ => true
  | .tileInterlockRelease _ _ => true
  | .guardStallRelease _ => true
  | .checkEnable _ _ _ => true
  | .stickyFlagsClear _ _ _ _ => true
  | .firstOffenderClear _ _ _ => true
  | .vop _ _ _ => true
  | .vred _ _ _ => true
  | .vcvt _ _ _ => true
  | .trowelRetire _ => true
  | .palletBankSubstitution _ _ => true
  | .descriptorStore _ _ slot _ => slot < 4096
  | .tileTableStore _ _ _ _ => true
  | .copy _ _ _ => true
  | .copyAdd _ _ _ => true
  | .gather _ _ _ => true
  | .scatter _ _ _ => true
  | .addscatter _ _ _ => true
  | .hodRetire _ => true
  | .hodQueueWait _ => true
  | .hodPartFault _ => true
  | .hostRegionWrite _ _ _ => true
  | .atsInvalidation _ io page => io.ps ≤ 2 ^ 20 && io.iova < 2 ^ 64 && (page.all fun g => g < 2 ^ 52)
  | .memorySideAdd _ a op => a < 2 ^ 41 && op.wf
  | .regulatorRequest _ _ _ => true
  | .patrolScrub _ _ off errs => off % 32 = 0 && errs ≤ 80
  | .rowRepair _ _ _ row => row < 2 ^ 32
  | .pseudoChannelRemap _ _ => true
  | .retireRequest _ _ _ => true
  | .marginingStack _ _ => true
  | .marginingStart _ _ => true
  | .marginingDone map => map.length = 409600
  | .invalidScrub => true
  | .linkTraining _ lanes _ _ => lanes ≤ 16
  | .vfFlr _ => true
  | .pf0Flr => true
  | .hotReset => true
  | .statusPageUpdate _ => true
  | .statusPageWrite _ => true
  | .bar2Read _ _ len => 1 ≤ len && len ≤ 4096
  | .bar2Write _ _ data _ => data.length ≤ 4096
  | .msixHoldExpiry _ _ => true
  | .msixUnmask _ _ => true
  | .bootstrapEnableSet _ w => w.wf
  | .bootstrapEnableClear _ => true
  | .streamPoll _ _ hw => hw.all HostWrite.wf
  | .crcStuck _ _ => true
  | .journalBurstWrite _ _ => true
  | .entryAccept _ _ => true
  | .journalWriteFail _ => true
  | .journalRebuildDone => true
  | .retirement _ _ => true
  | .nop _ _ => true
  | .launch _ _ => true
  | .hostCopy _ _ => true
  | .hostAccumulateStart _ _ => true
  | .fenceLocal _ _ => true
  | .fenceDevice _ _ => true
  | .fenceHost _ _ => true
  | .fenceCrew _ _ ranks => ranks.all rankWf
  | .mark _ _ => true
  | .dict _ _ => true
  | .exportSlots _ _ => true
  | .streamEnable _ _ => true
  | .streamDisable _ _ => true
  | .streamResume _ _ => true
  | .signalEvent _ _ => true
  | .eventWaitSatisfied _ _ => true
  | .attemptStart _ => true
  | .coreEcall _ => true
  | .coreTrap e => e.act.wf
  | .laserSwitch _ _ => true
  | .codewordReceive _ _ w => w.errs ≤ 544
  | .align _ _ => true
  | .packetReceive _ bytes => bytes.length ≤ 4160
  | .ack _ _ => true
  | .nak _ _ => true
  | .ackTimer _ => true
  | .idleTimer _ _ => true
  | .idle _ _ _ => true
  | .holdover => true
  | .replayTimeout _ => true
  | .lockLoss _ => true
  | .portRetrain _ => true
  | .sparePropose _ _ => true
  | .spareReady _ _ => true
  | .spareSwitch _ _ => true
  | .spareDone _ _ => true
  | .spareAbort _ _ => true
  | .spareTimeout _ => true
  | .crewRun _ _ => true
  | .crewTest _ _ => true
  | .crewDissolve _ _ => true
  | .hello _ rank _ _ => rankWf rank
  | .helloResend _ => true
  | .heartbeat _ peer => rankWf peer
  | .memberLost _ peer => rankWf peer
  | .recover _ src _ _ _ => rankWf src
  | .allreduce _ _ => true
  | .reducescatter _ _ => true
  | .allgather _ _ => true
  | .broadcast _ _ => true
  | .reduce _ _ => true
  | .alltoall _ _ => true
  | .alltoallv _ _ => true
  | .barrier _ _ => true
  | .barrierSync _ src _ _ _ => rankWf src.rank
  | .counts _ src _ _ _ => rankWf src.rank
  | .ready _ src _ => rankWf src.rank
  | .send _ _ => true
  | .recv _ _ => true
  | .credit _ src _ _ => rankWf src.rank
  | .done _ src _ _ => rankWf src.rank
  | .crewopRetire _ _ => true
  | .collectiveRegionWrite _ _ _ => true
  | .sendonHandleWrite _ _ _ => true
  | .update _ _ => true
  | .hold _ _ => true
  | .apply _ _ => true
  | .coxFeed _ _ => true
  | .coxShareWindow _ => true
  | .clearDirty _ _ => true
  | .vote _ _ => true
  | .votePacket _ h b => h.wf && b.wf
  | .arrived _ h rank _ => h.wf && rankWf rank
  | .stragglerDeadline _ => true
  | .cut _ h leader entries => h.wf && rankWf leader && entries.length ≤ 254
  | .log _ h decision _ _ => h.wf && decWf decision
  | .logack _ h decision _ _ => h.wf && decWf decision
  | .decide _ h b => h.wf && b.wf
  | .query _ h src => h.wf && rankWf src
  | .queryTimer _ => true
  | .resolve _ h src b => h.wf && rankWf src && b.wf
  | .backupTakeover _ => true
  | .rejoinCopy _ _ _ _ _ _ => true
  | .layerStateLoad _ _ data => data.length ≤ 2 ^ 32
  | .transmit => true
  | .echoCheck _ => true
  | .burstTimer => true
  | .mediumDown => true
  | .mediumBusy => true
  | .frameReceive bytes _ => bytes.length ≤ 1250
  | .claim => true
  | .assign _ _ _ _ => true
  | .announce _ _ => true
  | .openReq _ _ _ _ seg => seg.length ≤ 1024
  | .openFin _ _ _ _ seg => seg.length ≤ 1024
  | .openFinTimeout _ => true
  | .request _ _ _ msg => msg.length ≤ 1024
  | .response _ _ msg => msg.length ≤ 1024
  | .evoluAck _ _ => true
  | .ackDelay _ => true
  | .rtoExpiry _ => true
  | .suspectTimeout _ => true
  | .idleLimit _ => true
  | .read _ m => m.wf
  | .write _ m => m.wf
  | .readSeg _ m => m.wf
  | .writeSeg _ m => m.wf
  | .transferStatus _ m => m.wf
  | .transferExpiry _ => true
  | .openSet _ m => m.wf
  | .stage _ m => m.wf
  | .check _ m => m.wf
  | .commit _ m => m.wf
  | .abort _ m => m.wf
  | .renew _ m => m.wf
  | .event _ => true
  | .subscribe _ m => m.wf
  | .close _ => true
  | .leaseExpiry => true
  | .applyPoint _ => true
  | .regionZeroFill _ => true
  | .cancelPending _ _ => true
  | .forceAbort _ _ => true
  | .activityUrgent _ _ => true
  | .pointingPreemption _ _ _ => true
  | .courseLaneSelfTest _ first failing => first % 8 = 0 && failing.all fun l => l / 8 = first / 8
  | .trowelCoxLaneTest _ failing => failing ≤ 2048
  | .palletBankTest _ _ _ => true
  | .coreRotation _ _ => true
  | .laneRecalibration _ _ => true
  | .deadlineMissed _ _ => true
  | .lockstepMismatch _ _ _ => true
  | .clearRepairMap _ _ => true
  | .referenceLoss _ => true
  | .clockStep _ _ => true
  | .powerSample _ _ => true
  | .thermalSample junctions stackTemps => junctions.length = 64 && stackTemps.length = 20
  | .coldStart lasers => lasers.length = 12
  | .underVoltageTrip _ => true
  | .overVoltageTrip _ => true
  | .idleEntry => true
  | .prepareForRemoval _ _ => true
  | .warmReset _ => true
  | .warmResetBringUp _ => true
  | .watchdogExpiry => true
  | .partReset kind n => partWf kind n
  | .advanceRollbackCounter _ _ => true
  | .burnOwnerKeyHash _ _ => true
  | .attestationNonce _ _ => true
  | .counterSample _ _ => true
  | .groupConfigWrite _ _ d => d.length ≤ 1000
  | .traceDrop _ _ _ => true
  | .registerWrite _ _ _ data => data.length ≤ 1000
  | .coxRetire _ _ => true
  | .exportDone _ _ => true
  | .marginingReady => true
  | .handshakeSegmentTimeout _ => true
  | .mediumIdle => true
  | .traceSpillFull => true

end Sys2Proof
end

