-- ==== Sys2Proof/Tests/Slice0.lean ====
section
/-! SUPPORT. Witnesses: for every statement with hypotheses, concrete states and operands that meet them (`hyps_<Statement>`), clause by
clause; ill-formed commands, which the check refuses; worked examples of the spec; and a few single commands. -/

open Sys2Proof Sys2Proof.Machine

/-! ## The states of the witnesses -/

namespace Sys2Proof.Tests

set_option Elab.async false

/-- Partition 0 with Courses 0 and 1, owner of Crew 0. -/
def base : State := setObj (setObj State.reset 0 0x4000 1 [1, 3]) 0 0x7200 9 [0]

def core0 : CoreRun :=
  { cluster := 0, index := 0, lcore := 0, issued := 0, consumed := 0, ended := false, pc := 0, xregs := [], fregs := [], icache := [], dcache := [] }

def att0 : Attempt :=
  { number := 1, epoch := 0, ucqAddr := 0, headAddr := 0, ucqLog := 6, entryPc := 0, foot := 4096, mem := List.replicate 4 Mem.empty, cores := [core0],
    start := .running, ended := false, faulted := false, voteCmd := none, voteOut := false, voted := false, inFlight := 0, fails := [], faultPort := 0xFF,
    flags := 0, widened := false, layers := [], updates := [], pends := [], held := [], named := [], singles := [], seeds := [], chkev := [], nchk := 0, pntev := [],
    npnt := 0, late := [], lateLost := false, reductions := 0, alltoallvs := 0, undo := [], tStart := 0, tVote := 0, user := 0, deterministic := false, waits := [] }

/-- An attempt of Crew 0 runs on one core. -/
def runs : State := updCrew base 0 fun k => { k with state := .running, fin := .running, attempt := some att0 }

def who : Who := ⟨0, 0, 0⟩

def word (l : List (Nat × Nat)) : Cmd := BitVec.ofNat 512 ((l.map fun x => x.2 * 2 ^ x.1).sum)

/-- BF16 bricks. -/
def descW (base_ rows cols : Nat) : Cmd := word [(0, 1), (6, 1), (208, base_), (272, rows), (304, cols), (336, 1024), (376, 1024 * ((cols + 31) / 32))]

def tileW : Cmd := word [(0, 1), (96, 2 ^ 20), (128, 3 * 2 ^ 20), (160, 5 * 2 ^ 20), (192, 5 * 2 ^ 20 + 24576), (224, 1024)]

def mmW : Cmd := word [(0, 0x21), (9, 1), (13, 1), (27, 1), (64, 1), (80, 1), (96, 1), (112, 2)]
def mmW2 : Cmd := word [(0, 0x21), (9, 1), (13, 1), (27, 1), (64, 1), (80, 2), (96, 1), (112, 3)]
def lwW : Cmd := word [(0, 0x22), (8, 1), (64, 2), (160, 7)]
/-- VOP NEG (COPY) of two rows of one BF16 brick, descriptor 1 to descriptor 5. -/
def vopW : Cmd := word [(0, 0x31), (9, 1), (64, 5), (80, 1), (160, 1), (224, 4), (256, 0x07 * 1024), (384, 7)]
def vredW : Cmd := word [(0, 0x32), (9, 1), (64, 5), (80, 1), (160, 1), (224, 4), (304, 7)]
def vcvtW : Cmd := word [(0, 0x33), (9, 1), (13, 1), (64, 5), (80, 1), (160, 1), (224, 4), (384, 7)]

def course0 (g : Course → Course) (s : State) : State := updCourse s 0 g

/-- Course 0 has its tables. -/
def tabled : State := course0 (fun c => { c with
  descs := [(1, descW 0 1 32), (2, descW 4096 4 32), (3, descW 8192 4 1024), (4, descW 16384 1 32), (5, descW 32768 4 32)]
  tiles := c.tiles.set 0 { Tile.unbound with entry := tileW } }) runs

def iss0 : Issuer := coreIssuer 0 att0 core0
def lwU : UnitCmd := mkCmd lwW iss0 (copyDescs tabled.courses[(0 : Fin 8)] [2]) [] 7 0
def mmU : UnitCmd := mkCmd mmW iss0 (copyDescs tabled.courses[(0 : Fin 8)] (mmSlots mmW)) [(0, tileW)] 0 0
def mmU2 : UnitCmd := mkCmd mmW2 iss0 (copyDescs tabled.courses[(0 : Fin 8)] (mmSlots mmW2)) [(0, tileW)] 0 0
def vopU : UnitCmd := mkCmd vopW iss0 (copyDescs tabled.courses[(0 : Fin 8)] [5, 1]) [] 7 0

def mmRun (u : UnitCmd) (st : CourseStage) : State := course0 (fun c => { c with
  queue := [{ u with run := true }], stage := st,
  tiles := c.tiles.set 0 { c.tiles[0] with init := true, rows := 1, cls := mmClass u.word } }) tabled

/-- A pass with its weights ready. -/
def passing : State := course0 (fun c => { c with active := some (loadTile (mmRun mmU .load) 0 (descW 4096 4 32) 1 2 0 0 false) }) (mmRun mmU .pass)

def judged (u : UnitCmd) (c : Nat) (bit : Byte) : State :=
  let s := course0 (fun x => { x with pass := c, wrong := bit != 0 }) (mmRun u .verdict)
  { s with pallets := s.pallets.set 0 { s.pallets[0] with mem := if bit = 0 then Mem.empty else Mem.empty.writeL [(5 * 2 ^ 20 + 24576, bit), (5 * 2 ^ 20 + 24577, 0x40), (5 * 2 ^ 20 + 24583, 0x40)] } }


def vopU2 : UnitCmd := { vopU with tiles := [(0, tileW)] }
def vopDone : State :=
  let s := { tabled with trowels := tabled.trowels.set 0 { tabled.trowels[0] with queue := [{ vopU with run := true, res := { Res.okay with flags := 3 } }] } }
  s
def vopHeld (b : Nat) (order : Nat) : State := { tabled with trowels := tabled.trowels.set 0 { tabled.trowels[0] with queue := [{ vopU2 with blocked := b, order := order }] } }

/-- COPY of 4 bytes: source address, destination address. -/
def copyW (sa da : Nat) (add : Nat) : Cmd := word [(0, 0x41), (18, add), (56, 7), (72, 4), (92, 1), (108, 1), (124, 1), (140, 1), (412, sa), (462, da)]
/-- Partition 0 has 128 MiB of HBM, epoch-scoped, and an FP32 adder region of 4 KiB at its start. -/
def hbmed : State := setObj (setObj (setObj (setObj tabled 0 0x7200 0x38 (leBytes 8 (2 ^ 26))) 0 0x7200 0x37 (leBytes 8 (2 ^ 26))) 0 0x5000 0x40 (leBytes 8 (1 + 4 + 2 ^ 19) ++ leBytes 8 (1 + 2 ^ 19 + 2 ^ 34))) 0 0x5400 1 (leBytes 1 0 ++ leBytes 8 0 ++ leBytes 8 4096 ++ leBytes 1 0 ++ leBytes 2 0)
/-- GATHER of row 0 of descriptor 2 into row 0 of descriptor 5: one pair of indices, in Pallet 0. -/
def gatherW : Cmd := word [(0, 0x42), (72, 2), (88, 5), (104, 1), (128, 2 ^ 20)]
def gathered : State :=
  { hbmed with pallets := hbmed.pallets.set 0 { hbmed.pallets[0] with mem := hbmed.pallets[0].mem.writeL ((List.range 8).map fun i => (2 ^ 20 + i, 0)) } }
def hodDone (w : Cmd) (s : State) : State := { s with hods := s.hods.set 0 { s.hods[0] with queue := [{ hodCmd s 0 w iss0 with run := true }] } }
def full : State := { State.reset with power := { State.reset.power with bringUp := .full } }

/-- Function 0's bootstrap capability: command ring at 0x10000, completion ring at 0x20000, acknowledge word at 0x30000, 64 entries. -/
def cap : BitVec 256 := BitVec.ofNat 256 (2 ^ 32 + 0x10000 * 2 ^ 64 + 0x30000 * 2 ^ 128 + 0x20000 * 2 ^ 192)
def polling : State := match exec (.bootstrapEnableSet 0 (.bootstrap cap)) State.reset with | .next t => t | _ => State.reset
/-- Vector 3 of PF0, with MSI-X enabled. -/
def msixed (m p : Bool) : State :=
  updFunc { base with host := { base.host with vecs := [⟨0, 3, 0xFEE00000, 7, m, p, 2, 0⟩] } } 0 fun k => { k with cfg := { k.cfg with msix := true } }
def stq (st : SState) (h : Halt) : State := updStream (setObj (setObj (setObj State.reset 0 0x6401 2 (leBytes 8 0x10000)) 0 0x6401 3 (leBytes 8 0x20000)) 0 0x6401 4 (leBytes 8 0x30000)) 0 1 fun k => { k with state := st, halt := h, accepted := 2, retired := 2, hostack := 1, history := [(2, 5), (1, 4)] }

def enW (seq op wait signal cnt body : Nat) : Entry := BitVec.ofNat 1024 (seq + op * 2 ^ 64 + wait * 2 ^ 80 + signal * 2 ^ 96 + cnt * 2 ^ 192 + body * 2 ^ 256)
/-- An entry with its checksum, given as a number. -/
def enCrc (e : Entry) (crc : Nat) : Entry := e ||| BitVec.ofNat 1024 (crc * 2 ^ 992)
def ent (e : Entry) (st : EStage) : EntryRun := { acceptEntry State.reset e with stage := st }
def withEnt (f : Fin 9) (q : Nat) (l : List EntryRun) (s : State) : State := updStream s f q fun k => { k with state := .polling, entries := l, accepted := BitVec.ofNat 64 l.length }
def ringed (l : List (Nat × Entry)) : State := { polling with host := { polling.host with mem := l.foldl (fun m x => m.writeN (0x10000 + 128 * x.1) (wordBytes x.2)) polling.host.mem } }

def image : List Byte := leBytes 4 1 ++ leBytes 4 256 ++ leBytes 4 256 ++ leBytes 4 64 ++ leBytes 4 320 ++ leBytes 4 0 ++ leBytes 4 8192 ++ leBytes 4 0 ++ leBytes 4 64 ++
  leBytes 4 64 ++ leBytes 4 4160 ++ leBytes 4 0 ++ leBytes 1 6 ++ leBytes 1 1 ++ leBytes 2 0 ++ leBytes 1 1 ++ leBytes 203 0 ++ List.replicate 64 0x13
/-- HBM of partition 0 in `s`, with bytes placed. -/
def inHbm (s : State) (a : Nat) (bs : List Byte) : State := hbmWriteP s (some 0) (bs.zipIdx.map fun x => (a + x.2, x.1))
def idle0 (s : State) : State := updCrew s 0 fun k => { k with state := .running, attempt := none, fin := .idle }
def launchE : EntryRun := ent (enW 1 2 0 0 0 (0x10000 + image.length * 2 ^ 64 + 12175915625173679417 * 2 ^ 96 + 1 * 2 ^ 160)) .held
def launching : State := withEnt 1 1 [launchE] (inHbm (idle0 hbmed) 0x10000 image)
def copyE (sa da add hod : Nat) : EntryRun := ent (enW 1 3 0 0 0 ((word [(18, add), (72, 4), (92, 1), (108, 1), (124, 1), (140, 1), (412, sa), (462, da)]).toNat / 256 + hod * 2 ^ 504)) .held
def hodBusy (s : State) : State := hodDone (copyW 64 128 0) s
/-- Host region 3 of function f: 64 pages at 1 MiB, readable and writable. -/
def regioned (f : Fin 9) (s : State) : State := updFunc s f fun k => { k with hostRegions := [(3, BitVec.ofNat 256 (7 + 64 * 2 ^ 156 + 2 ^ 20 * 2 ^ 192))] }
def exportE : EntryRun := ent (enW 1 7 0 0 0 (0 * 2 ^ 16 + 3 * 2 ^ 72 + 1 * 2 ^ 160)) .held
/-- Layer 0 of partition 0: its descriptor in HBM at 0x20000. -/
def layered (s : State) (d : List Byte) : State := setObj (setObj (inHbm s 0x20000 d) 0 0x7300 0x11 (leBytes 4 1)) 0 0x7300 1 (leBytes 8 0x20000)
def dictMsg : List Byte := leBytes 1 1 ++ leBytes 1 0 ++ leBytes 2 0 ++ leBytes 2 0 ++ leBytes 2 0x1000 ++ leBytes 1 5 ++ leBytes 3 0 ++ leBytes 12 0
def dictE : EntryRun := ent (enW 1 6 0 0 0 (3 + 24 * 2 ^ 48 + 3 * 2 ^ 64 + 4096 * 2 ^ 76)) .held
def dicting : State := let s := withEnt 0 0 [dictE] (regioned 0 State.reset); { s with host := { s.host with mem := s.host.mem.writeN (2 ^ 20) dictMsg } }

/-- Crew 0 has n members, MIDs 100, 101, ...; the module is rank `r`; port 2 leads to every other one. -/
def crewed (n r : Nat) (s : State) : State :=
  let s := setObj (setObj (setObj (setObj s 0 0x7200 2 (leBytes 2 9)) 0 0x7200 3 (leBytes 4 n)) 0 0x7200 4 (leBytes 4 n ++ leBytes 4 1 ++ leBytes 4 1 ++ leBytes 4 1)) 0 0x7200 6
    ((List.range n).flatMap fun i => leBytes 4 (100 + i))
  let s := setObj (setObj s 0 0x7000 1 (leBytes 4 (100 + r))) 0 0x7400 1 (((List.range n).filter (· ≠ r)).flatMap fun i => leBytes 8 (1 + (if r = 0 then 101 else 100) * 2 ^ 15 + 2 * 2 ^ 38 + (100 + i) * 2 ^ 47))
  let s := { s with rigger := { s.rigger with ports := s.rigger.ports.set 2 { s.rigger.ports[2] with state := .up, peer := some (if r = 0 then 101 else 100) } } }
  updCrew s 0 fun k => { k with rank := some r, hs := true }
def withColl (s : State) : State := updFunc s 1 fun k => { k with collRegions := [(1, BitVec.ofNat 128 (7 + 1024 * 2 ^ 48 + (palletAddr 0 0x100000) * 2 ^ 78)), (2, BitVec.ofNat 128 (7 + 1024 * 2 ^ 48 + (palletAddr 0 0x200000) * 2 ^ 78)), (3, BitVec.ofNat 128 (7 + 1024 * 2 ^ 48 + (palletAddr 0 0x300000) * 2 ^ 78))] }
def pair : State := withColl (crewed 2 0 tabled)
def ca (r : Nat) : Nat := r * 2 ^ 36
def collW (op dt : Nat) (count rb : Nat) : Cmd := word [(0, 0x51), (8, op), (16, dt), (20, dt), (32, 5), (64, 7), (128, count), (176, rb), (192, ca 1), (240, ca 2), (288, ca 3), (336, ca 3 + 65536 / 2), (384, 64)]

def cw (op : Nat) : Cmd := collW op 0 (if op = 7 then 0 else if op = 6 then 256 else 16) (if op = 5 ∨ op = 6 then 64 else 0)
def sendW (len : Nat) : Cmd := word [(0, 0x52), (32, 5), (64, 7), (80, 3), (96, 1), (128, len), (192, ca 1)]
def recvW (len : Nat) : Cmd := word [(0, 0x53), (32, 5), (64, 7), (80, 3), (96, 1), (128, len), (192, ca 1)]
def opI (op : Nat) (c : Cmd) : Instr := match op with | 0 => .allreduce who c | 1 => .reducescatter who c | 2 => .allgather who c | 3 => .broadcast who c | 4 => .reduce who c | 5 => .alltoall who c | 6 => .alltoallv who c | _ => .barrier who c
def next (i : Instr) (s : State) : State := match exec i s with | .next t => t | _ => s

def layerW : Nat := 2 ^ 256 + 4 * 2 ^ 288 + 0x1000 * 2 ^ 320 + 0x1100 * 2 ^ 384 + 0x1200 * 2 ^ 448 + 0x1300 * 2 ^ 512
def coxS : State := withColl (layered hbmed (leBytes 128 layerW))
def updW : Cmd := word [(0, 0x61), (32, 5), (176, 7), (192, 0x3F800000), (224, 0x3F800000), (352, ca 1)]
def holdW : Cmd := word [(0, 0x62), (32, 5), (176, 7), (352, ca 1)]
def appW (skip : Nat) : Cmd := word [(0, 0x63), (11, skip), (32, 5), (176, 7), (192, 0x3F800000), (224, 0x3F800000)]
def attH : Attempt := { att0 with held := [(0, holdW, 0x3F800000)], named := [0] }
def coxH : State := updCrew coxS 0 fun k => { k with attempt := some attH }

def offS : State := { base with power := { base.power with on := false, flashShut := some (3, 5, 10500) } }
def busyS : State := course0 (fun c => { c with queue := [{ lwU with run := true }] }) tabled
def lwRun : UnitCmd := { lwU with run := true }
def mmRunU : UnitCmd := { mmU with run := true }
def mmRunU2 : UnitCmd := { mmU2 with run := true }
def verdict2 : State := course0 (fun x => { x with pass := 1 }) (mmRun mmU2 .verdict)
/-- A strict MM in its pass. -/
def mmStrictU : UnitCmd := { mmRunU with word := mmW ||| BitVec.ofNat 512 (2 ^ 30) }
def strictRun : State := mmRun mmStrictU .pass
def loading2 : State := course0 (fun x => { x with pass := 1 }) (mmRun mmU2 .pass)
def passW : WTile := loadTile (mmRun mmU .load) 0 (descW 4096 4 32) 1 2 0 0 false
def vopB1 : UnitCmd := { vopU2 with blocked := 1 }
def vopB2 : UnitCmd := { vopU2 with blocked := 2 }
def vopFin : UnitCmd := { vopU with run := true, res := { Res.okay with flags := 3 } }
def vopRej : UnitCmd := { vopU with run := true, res := rejected .badField }
def vopRejS : State := { tabled with trowels := tabled.trowels.set 0 { tabled.trowels[0] with queue := [vopRej] } }
def hodU (w : Cmd) : UnitCmd := { hodCmd tabled 0 w iss0 with run := true }
def hodWaits : State := { tabled with hods := tabled.hods.set 0 { tabled.hods[0] with queue := [hodU (copyW 64 128 0)], waiting := [hodU (copyW 64 256 0)] } }
def namedS : State := regioned 1 (hodDone (copyW (hostAddr 3 64) 64 0) tabled)
def needS (n : Nat) (ue : Bool) : State := { base with hbm := { base.hbm with stks := base.hbm.stks.set 2 { base.hbm.stks[2] with events := List.replicate n ⟨5, 7, 9, ue, 0, false⟩ } } }
def scrubUe : State := { base with hbm := { base.hbm with ue := [place3 3 5 64] } }
/-- `n` rows of a pseudo-channel have had uncorrectable errors. -/
def rowsBad (n : Nat) : State :=
  { base with hbm := { base.hbm with stks := base.hbm.stks.set 2 { base.hbm.stks[2] with events := (List.range n).map fun r => ⟨5, 7, r, true, 0, true⟩ } } }
def suspendedS (st : Nat) (run : Bool) : State := { full with hbm := { full.hbm with marginStack := 3, marginState := st, marginRun := run } }
def badCap : BitVec 256 := cap + 2 ^ 70
/-- The fields of the capability with ENABLE left 0. -/
def fieldsCap : BitVec 256 := cap &&& ~~~BitVec.ofNat 256 (2 ^ 32)
def linkDown : State := { State.reset with host := { State.reset.host with up := false } }
def polledE : Entry := enCrc (enW 1 1 0 0 0 0) 3046683885
def gapE : Entry := enCrc (enW 3 1 0 0 0 0) 1572249235
def hwE : HostWrite := ⟨0x10000 + 128, wordBytes polledE⟩
def crcBad : State := updStream polling 0 0 fun k => { k with bad := some (5, 100) }
def batch1 : Batch := ⟨[polledE], true⟩
def batched : State := updStream polling 0 0 fun k => { k with batches := [batch1] }
def oneCopy : State := { polling with journal := ⟨true, false, false, false⟩ }
def nopFin : EntryRun := ent (enW 1 1 0 7 0 0) .finished
def nopHeld : EntryRun := ent (enW 2 1 0 0 0 0) .held
def nopRej : EntryRun := { nopFin with res := rejected .reservedSet }
def retireRej : State := withEnt 0 0 [nopRej, nopHeld] polling
def retireS : State := withEnt 0 0 [nopFin, nopHeld] polling
def nopE : EntryRun := ent (enW 1 1 0 7 0 0) .held
def nopS : State := withEnt 0 0 [nopE] polling
def markE (c wait : Nat) : EntryRun := ent (enW 1 5 wait 7 0 (c * 2 ^ 64 + 77)) .held
def fenceE (scope : Nat) : EntryRun := ent (enW 1 4 0 7 0 scope) .held
def fenceS (scope : Nat) : State := withEnt 1 1 [fenceE scope] runs
def copyS (e : EntryRun) : State := withEnt 1 1 [e] (hodBusy hbmed)
def copyS2 (e : EntryRun) : State := withEnt 1 1 [e] (hodBusy (idle0 hbmed))
def hodBusyU : UnitCmd := { hodCmd tabled 0 (copyW 64 128 0) iss0 with run := true }
def accE : EntryRun := copyE (hbmAddr 128) (hbmAddr 64) 1 0
def plainE : EntryRun := copyE (palletAddr 0 64) (hbmAddr (2 ^ 26 + 64)) 0 0
def exportS : State := withEnt 1 1 [exportE] (regioned 1 (layered (idle0 hbmed) []))
def expE : EntryRun := { exportE with stage := .started }
def exported : State := withEnt 1 1 [expE] (regioned 1 (layered (idle0 hbmed) []))
def expX : ExportRun := ⟨1, 1, 1, 0, [(0, layerDesc exported 0 0, 5)]⟩
def exporting : State := updCrew exported 0 fun k => { k with exporting := some expX }

def msg (idx sub off aux0 aux1 : Nat) (d : List Byte) : SvcMsg :=
  { mflags := 0, ref := 7, index := BitVec.ofNat 16 idx, sub := BitVec.ofNat 8 sub, offset := BitVec.ofNat 32 off, aux0 := BitVec.ofNat 32 aux0, aux1 := BitVec.ofNat 32 aux1, data := d }
def trf : Transfer := ⟨.fn 0, true, 0, ⟨0, 0x6000, 1⟩, 100, [1, 2, 3]⟩
def trS : State := { base with dict := { base.dict with transfers := [trf] } }
def trOld : Transfer := { trf with by_ := .sess 2 5, live := false }
def trOldS : State := { base with dict := { base.dict with transfers := [trOld] } }
def os : OpenSet := ⟨7, .fn 0, false, [], 9000000000⟩
def oS : State := { State.reset with dict := { State.reset.dict with openSet := some os } }
def staged : OpenSet := { os with staged := [(⟨0, 0x2200, 4⟩, [95])] }
def stS : State := { State.reset with dict := { State.reset.dict with openSet := some staged } }
def ps : PendSet := ⟨8, .fn 0, none, 0, [(⟨0, 0x2200, 4⟩, [95])], 0, [], false⟩
def pS : State := { State.reset with dict := { State.reset.dict with pendings := [ps] } }
def fillP : PendSet := { ps with fill := [0, 1] }
def fS : State := { State.reset with dict := { State.reset.dict with pendings := [fillP] } }

def ln : LaunchRun := ⟨1, 1, 1, BitVec.ofNat 736 (0x10000 + 320 * 2 ^ 64 + 1 * 2 ^ 160), 1⟩
def lS : State := updCrew (inHbm (idle0 hbmed) 0x10000 image) 0 fun k => { k with launch := some ln, hs := true, nextAttempt := 1 }
def aF : Attempt := { att0 with inFlight := 2 }
def core1 : CoreRun := { core0 with lcore := 1, index := 1 }
def aF2 : Attempt := { aF with cores := [core0, core1] }
def voteW : Cmd := word [(0, 0x54), (64, 7)]
def aF3 : Attempt := { aF with voteCmd := some (voteW, iss0) }
def uS (a : Attempt) : State := updCrew runs 0 fun k => { k with attempt := some a }
def noHs : State := updCrew pair 0 fun k => { k with hs := false }
def credS : State := updCrew pair 0 fun k => { k with credits := [(1, 3, 64)] }
def terms0 : Terms := ⟨65536, 1, 1, none⟩
def sendX : P2p := ⟨true, sendW 64, iss0, terms0, 1, some 64, 0, [], [], none, 0⟩
def sentS : State := updCrew pair 0 fun k => { k with p2p := [sendX] }
def recvX : P2p := ⟨false, recvW 64, iss0, terms0, 1, none, 0, [], [], none, 0⟩
def recvS : State := updCrew pair 0 fun k => { k with p2p := [recvX] }
def calm1 (s : State) : State := updCrew s 0 fun k => { k with cut := { k.cut with arrived := [0] } }
def barOp (b : Bool) : CollOp :=
  { num := 1, word := cw 7, iss := iss0, terms := terms0, padded := false, red := 0, supplied := [], sourced := false, readyFrom := [], landed := [], counts := [], level := 0, up := true,
    acc := [], included := 0, written := 0, wrote := [], arrived := [], chunksSent := [], dropped := 0, risen := [], complete := b, sent := [], retired := false, failed := false, res := Res.okay }
def opS (b : Bool) : State := calm1 (updCrew pair 0 fun k => { k with ops := [barOp b], opNum := 1 })
def formed : State := { pair with crews := pair.crews.set 0 { pair.crews[0] with attempt := none, state := .forming, hs := false, fin := .idle } }
def late1 : State := updCrew formed 0 fun k => { k with epoch := 3 }
def testS : State := updCrew formed 0 fun k => { k with state := .test, epoch := 3, seen := 7 }

def prt (g : Port → Port) (s : State) : State := { s with rigger := { s.rigger with ports := s.rigger.ports.set 2 (g s.rigger.ports[2]) } }
def bnk (g : Bank → Bank) (s : State) : State := { s with rigger := { s.rigger with banks := s.rigger.banks.set 1 (g s.rigger.banks[1]) } }
def ctl (ty ack aux param v0 v1 : Nat) : Ctl := mkCtl ty (BitVec.ofNat 24 ack) 0 0 aux 3 param v0 v1
def dnP : State := prt (fun k => { k with state := .down, peer := none }) pair
def laser0 : Laser := ⟨0, 100000, 100000, false⟩
def laser10 : Laser := ⟨0xFF, 100000, 100000, false⟩
def pkt (seq ty : Nat) : List Byte := sealPacket (BitVec.ofNat 24 seq) (leBytes 28 (packetHdr ty false false 100 101 9 20 0 0 0) ++ (leBytes 4 1 ++ leBytes 16 0))
/-- A VOTE packet, and a SYNC packet of epoch 5. -/
def pktStale : List Byte := sealPacket 0 (leBytes 28 (packetHdr 4 false false 100 101 9 20 0 0 0) ++ (leBytes 4 2 ++ leBytes 4 5 ++ leBytes 12 0))
def kept1 : Kept := ⟨1, pkt 1 4⟩
def kept2 : Kept := ⟨2, pkt 2 4⟩
def keptS : State := prt (fun k => { k with kept := [kept1, kept2], txSeq := 3 }) pair
def owedS : State := prt (fun k => { k with ackOwed := true, lastIdle := some (50, 60) }) { pair with now := 100000 }
def lateA : State := { owedS with now := 300000 }
def syncS : State := prt (fun k => { k with tdist := 3 }) { pair with now := 100000, rigger := { pair.rigger with sync := { pair.rigger.sync with upstream := some 2, lockedOnce := true, state := 2, tdist := 4 } } }
def idleW : Ctl := ctl 0 0 500 0 99000 98000
/-- Codewords with an ACK in slot 0, and with a packet's first slot in slot 19. -/
def cwAck : Codeword := mkCodeword [(true, ctl 1 0 0 0 0 0)]
def cwData : Codeword := mkCodeword (List.replicate 19 (false, 0) ++ [(false, BitVec.ofNat 256 (leAt (pkt 0 4) 0 32))])
def loneS : State := { pair with rigger := { pair.rigger with sync := { pair.rigger.sync with upstream := none, tdist := 5 } } }
def swp (i : Bool) (ph : Nat) (m : Bool) : Swap := { lane := 3, spare := 8, initiator := i, phase := ph, myReady := true, peerReady := true, at_ := 5, myDone := m, peerDone := false, repair := false, from_ := 4096, old := [], new := [], same := 0 }
def swS (i : Bool) (ph : Nat) (m : Bool) : State := bnk (fun k => { k with swap := some (swp i ph m) }) pair

/-- Double sending: 1,023 identical codewords in a row, and one that came on the old lane waits for its copy. -/
def dblCode : LaneCode := ⟨3, ⟨0, 0⟩, some 5⟩
def dbl : Swap := { swp true 3 false with old := [dblCode], same := 1023 }
def dblS : State := bnk (fun k => { k with swap := some dbl }) pair
def fedOp : CollOp := { barOp true with word := cw 0 }
def feederX : CoxCmd :=
  { word := holdW, src := holdW, iss := iss0, crew := 0, layer := 0, desc := BitVec.ofNat 1024 layerW, feeder := some (0, 1), started := false, fed := 0, flags := 0,
    bits := 0, blk := 0, side := 0, step := 0, iter := 0, anyHeld := false, unit := 0, mm := 0, busy := false, since := none, blocks := [], mats := [], run := false,
    res := Res.okay }
def fed : State :=
  let s := updCrew (crewed 2 0 coxS) 0 fun k => { k with cut := { k.cut with arrived := [0] }, ops := [fedOp], opNum := 1 }
  updCox s 0 fun x => { x with cmds := [feederX] }
def coxFin : CoxCmd := { feederX with feeder := none, run := true }
def coxFinS : State := updCox coxS 0 fun x => { x with cmds := [coxFin] }
def dirtyS : State := updCox coxS 0 fun x => { x with layers := [(0, 0xF)] }
def formC : State := updCrew coxS 0 fun k => { k with attempt := none, state := .forming, hs := false, fin := .idle }
def copying (n : Nat) : State := setObj (updCrew formC 0 fun k => { k with rejoin := 1, copyNext := 0 }) 0 0x7300 0x11 (leBytes 4 n)

def h1 : FinHead := ⟨0, 1, 1, 0⟩
def h2 : FinHead := ⟨0, 1, 2, 0⟩
def h7 : FinHead := ⟨7, 1, 1, 0⟩
def vb : VoteBody := ⟨1, 0, 0, 0, 0xFFFFFFFF, 0xFF, 0xFF, 0, 0, 0, 0, 0, []⟩
def db (d : Byte) : DecBody := ⟨d, 0, 0, 3, 0, 0xFFFFFFFF, []⟩
def member (n r : Nat) : State := updCrew (withColl (crewed n r tabled)) 0 fun k => { k with launch := some ln }
def strag : State := setObj (updCrew (member 2 0) 0 fun k => { k with cut := { k.cut with arrived := [0], first := some 5 } }) 0 0x7200 0x31 [2]
def aV : Attempt := { att0 with voteCmd := some (voteW, iss0), voted := true, inFlight := 1, start := .running }
def waitS (f : FinState) (r : Nat) : State := updCrew (member 2 r) 0 fun k => { k with attempt := some aV, fin := f }
def dec1 : Decision := ⟨1, 1, 1, 0, 0, 3, 0, 0, 0xFFFFFFFF, [], 5⟩
def loggedS : State := updCrew (waitS .voting 0) 0 fun k => { k with logged := some dec1 }
def heldS : State := updCrew (member 2 1) 0 fun k => { k with decisions := [dec1] }
def unres : State := updCrew (member 2 1) 0 fun k => { k with state := .recovering, fin := .unresolved }

def ev (g : Evolu → Evolu) : State := { State.reset with evolu := g State.reset.evolu, now := 5000000000 }
def fr : TxFrame := ⟨[1, 2, 3], none, 2, 3, 1⟩
def fr0 : TxFrame := { fr with k := 0 }
def fr16 : TxFrame := ⟨[1, 2, 3], some (2, 5), 2, 16, 1⟩
def hqS : State := ev fun e => { e with hq := [fr0] }
def nqS : State := ev fun e => { e with nq := [fr0] }
def flightS (f : TxFrame) : State := ev fun e => { e with flight := some (false, f), noEcho := 4 }
def echoS (n : Nat) : State := ev fun e => { e with noEcho := n }
def claimS : State := ev fun e => { e with claim := some 77 }
def addr9 : State := ev fun e => { e with addr := 9, hint := 9 }
def fB (ser dst session aseq tseq src : Nat) (pl tag : List Byte) : List Byte := sealFrame (frameHdr aseq tseq 1 session pl.length ser src dst) pl tag
def ses (g : Session → Session) : State :=
  ev fun e => { e with addr := 9, sessions := e.sessions.set 2 (g { e.sessions[2] with state := .opened, addr := 4, sid := 33, key := leBytes 32 5 }) }
def sesS : State := ses id
def sesSus : State := ses fun k => { k with state := .suspect }
def ackB : List Byte := fB 3 9 33 0 0 4 (leBytes 4 0) [36, 19, 26, 14, 71, 60, 30, 236, 249, 165, 238, 149, 114, 180, 199, 23]
def assignB : List Byte := fB 0x21 63 0 0 0 1 (leBytes 8 5 ++ leBytes 4 77 ++ [9]) (List.replicate 16 0)
def otherB : List Byte := fB 0x21 5 0 0 0 2 (leBytes 8 5 ++ leBytes 4 77 ++ [9]) (List.replicate 16 0)
def seg20 : List Byte := List.replicate 20 7
def shake (s : Option (Fin 8)) (fin : List (Nat × List Byte)) : Handshake := ⟨77, 4, [], 4, fin, 4, 100, [], [], s, [], leBytes 32 1, 3⟩
def shakeS (s : Option (Fin 8)) (fin : List (Nat × List Byte)) : State :=
  ev fun e => { e with addr := 9, shakes := [shake s fin], sessions := e.sessions.set 2 { e.sessions[2] with state := .opening, addr := 4, anchor := 3 } }
def f3 : List (Nat × List Byte) := [(0, List.replicate 1024 1), (1, List.replicate 1024 1), (2, List.replicate 1024 1)]
def lastSeg : List Byte := List.replicate 237 3
def sigB : List Byte := List.replicate 3072 1 ++ List.replicate 237 3
def heldMsg : SvcMsg := { mflags := 0, ref := 0, index := 0, sub := 0, offset := 0, aux0 := 0, aux1 := 0, data := leBytes 4 5 }
def heldF : HeldFrame := ⟨1, 1, 99, leBytes 1 0x21 ++ leBytes 1 0 ++ leBytes 2 0 ++ leBytes 2 0 ++ leBytes 2 0 ++ leBytes 1 0 ++ leBytes 3 0 ++ leBytes 12 0 ++ leBytes 4 5⟩
def heldF2 : HeldFrame := { heldF with tseq := 2, service := 2 }
def un1 : SessFrame := ⟨1, 1, [5], 0, 100⟩
def un2 : List SessFrame := [⟨2, 1, [6], 0, 100⟩, ⟨3, 2, [6], 0, 100⟩]
def reqS : State := ses fun k => { k with todo := [heldF], expect := 2 }
def rspS : State := ses fun k => { k with todo := [heldF, heldF2], expect := 3, unacked := un1 :: un2, txNext := 4 }
def unS : State := ses fun k => { k with unacked := un1 :: un2, txNext := 4, ackOwed := true }
def dupS : State := ses fun k => { k with unacked := un1 :: un2, txNext := 4, dup := (0, 2) }
def evS : State := ses fun k => { k with unacked := un1 :: un2, txNext := 4, events := [⟨1, 2, 3, 4, [5]⟩] }

def at5 : State := { base with now := 5000000000 }
def urgent (id u : Nat) : State := actPut at5 { actOf at5 id u with state := 2, steps := [] }
def freedS : State := { at5 with pallets := at5.pallets.set 0 { at5.pallets[0] with freed := some 7 } }
def hotS : State := { at5 with power := { at5.power with capping := true, throttling := true } }
def lowS : State := { at5 with power := { at5.power with aclk := 1200, domStep := [4999999000, 0, 0] } }
def hiS : State := { at5 with power := { at5.power with hiRuns := 1 } }
def oneRef : State := { at5 with power := { at5.power with refs := [true, false, true] } }
def retir : State := { pair with hbm := { pair.hbm with stks := pair.hbm.stks.set 3 { pair.hbm.stks[3] with state := 1 } } }
def gcfg (mode : Nat) (ring : Nat) : List Byte :=
  leBytes 1 mode ++ leBytes 1 0 ++ leBytes 1 0 ++ leBytes 1 0 ++ leBytes 4 1000 ++ leBytes 2 1 ++ leBytes 14 0 ++ leBytes 8 ring ++ leBytes 8 4096
def sampled (g : Fin 80) : State := updGroup { hbmed with now := 5000 } g fun k => { k with config := gcfg 1 0, state := 1 }
def traced (stop : Byte) : State :=
  setObj { base with counters := { base.counters with trace := { base.counters.trace with state := 1 } } } 0 0x9800 1 [1, stop, 255]

def regE : BitVec 256 := BitVec.ofNat 256 (7 + 64 * 2 ^ 156 + 2 ^ 20 * 2 ^ 192)
def dictM : SvcMsg := { msg 0x1000 5 0 0 0 [] with ref := 0 }
def copyAddRun : UnitCmd := { hodCmd hbmed 0 (copyW 64 (hbmAddr 128) 1) iss0 with run := true }
def spent : State := { base with hbm := { base.hbm with buckets := [⟨0, 3, 0, 2 ^ 20, 0⟩] } }

/-- Trowel 0 is at work and its lane test is due. -/
def trowelAtWork : State := { urgent 4 0 with trowels := (urgent 4 0).trowels.set 0 { (urgent 4 0).trowels[0] with queue := [vopFin] } }
/-- Cluster 1 has two cores and no spare. -/
def noSpare : State := { at5 with pointing := { at5.pointing with clusters := at5.pointing.clusters.set 1 { at5.pointing.clusters[1] with map := [2, 5], spares := [] } } }
def queuedS : State := { base with pending := [.holdover, .idleEntry] }
def capKey : ObjKey := ⟨0, 0x2200, 4⟩
def fewLanes (s : State) : State := course0 (fun c => { c with laneMap := [0, 1], badLanes := [] }) s
def substFew : State := course0 (fun c => { c with substs := [0, 1], stage := .subst }) (fewLanes (mmRun mmU .load))
/-- The stopped pass of R71 waits for the substitution of lane 0. -/
def substMine : State := course0 (fun c => { c with firstFail := some (.lane 0) }) substFew
def routed : State := setObj base 0 0x7400 1 (List.replicate 2000 0)

def infoRom : ObjInfo := (objFound State.reset 0x1000 1).get (by decide +kernel)
def infoCap : ObjInfo := (objFound State.reset 0x2200 4).get (by decide +kernel)
def infoRoute : ObjInfo := (objFound routed 0x7400 1).get (by decide +kernel)
def infoRegions : ObjInfo := (objFound base 0x65F1 1).get (by decide +kernel)
def swTwo : Swap := { swp false 2 false with peerDone := false }
def swTwoS : State := bnk (fun k => { k with swap := some swTwo }) pair
def layer9 : BitVec 1024 := BitVec.ofNat 1024 layerW

/-- The sector of partition 0's address 64 is uncorrectable. -/
def ueS : State := { hbmed with hbm := { hbmed.hbm with ue := ((spotPlace hbmed (some 0) 64).map (· / 32 * 32)).toList } }
/-- PF0's window begins at the coarse pool. -/
def coarseWin : State := setObj base 0 0x1900 0x10 (leBytes 8 (fineSize base.hbm))
def strangeB (ser session src : Nat) : List Byte := fB ser 9 session 0 0 src (leBytes 4 0) (List.replicate 16 0)
def floodS : State := ev fun e => { e with addr := 9, reqTimes := List.replicate 4 (4, 5000000000) }

/-! Small lemmas for hypotheses that are not plain decidable facts. -/

theorem exists_of_any {α : Type} {o : Option α} {P : α → Prop} [DecidablePred P] (h : (o.any fun x => decide (P x)) = true) : ∃ x, o = some x ∧ P x := by
  cases o with
  | none => simp at h
  | some x => exact ⟨x, rfl, by simpa using h⟩

theorem alive_of {α : Type} {o : Option α} {P : α → Prop} [DecidablePred P] (h : (o.all fun x => decide (P x)) = true) : ∀ x, o = some x → P x := by
  intro x hx; subst hx; simpa using h

theorem busy_of {q : List UnitCmd} (h : (q.head?.any fun u => u.run || u.blocked != 0) = true) : Busy q := by
  cases q with
  | nil => simp at h
  | cons u l => exact ⟨u, l, rfl, by simpa using h⟩

theorem mapped_of {s : State} {f : Fin 9} (h : s.host.up = true) (u : s.host.funcs[f].iommu = []) : ∀ ps a n, hostMapped s f ps a n = true := by
  intro ps a n; simp only [hostMapped, h, u]; rfl

theorem no_ue {s : State} {p : Option (Fin 8)} (h : s.hbm.ue = []) : ∀ as, ueAt s p as = none := by
  intro as; simp [ueAt, h]

theorem no_heads {s : State} (h : ∀ x : Fin 16, s.hods[x].queue = []) : ∀ (x : Fin 16) v m, s.hods[x].queue = v :: m → v.blocked ≠ 2 := by
  intro x v m e; rw [h x] at e; cases e

theorem spare_of {t : Stack} {pc bank : Nat} (h : t.repaired = []) : spareLeft t pc bank ≠ 0 := by simp [spareLeft, h]

theorem remap_of {s : State} {k : Fin 20} {pc : Nat}
    (h : 16 ≤ (((s.hbm.stks[k].events.filter fun e => e.pc = pc && e.ue && (s.now - e.time).toNat ≤ dayNs).map fun e => (e.bank, e.row)).dedup).length) :
    needsRemap s k pc = true := by simp only [needsRemap, Bool.or_eq_true, decide_eq_true_eq]; exact .inr h

theorem heads_ne {s : State} {b : Nat} (h : ∀ x : Fin 16, (s.hods[x].queue.head?.all fun u => decide (u.blocked ≠ b)) = true) :
    ∀ (x : Fin 16) v m, s.hods[x].queue = v :: m → v.blocked ≠ b := by
  intro x v m e; have := h x; rw [e] at this; simpa using this

theorem ranks_of {n : Nat} {l : List Nat} {P : Nat → Prop} (h : ∀ r < n, P r) (k : ∀ r ∈ l, P r) : ∀ r, r < n ∨ r ∈ l → P r :=
  fun r x => x.elim (h r) (k r)

/-! ## Witnesses, statement by statement -/

theorem hyps_StepRunsFrontCommand :
    queuedS.pending = [Instr.holdover, Instr.idleEntry] :=
  (by decide +kernel)

theorem hyps_IdleStepIsOneTick :
    base.pending = [] ∧
    base.power.on = true :=
  ⟨(by decide +kernel),
    (by decide +kernel)⟩

theorem hyps_OffModuleIsInert :
    offS.power.on = false ∧
    (∀ (l : List ℕ), Instr.holdover ≠ Instr.coldStart l) ∧
    (∀ (v : ℕ), Instr.holdover ≠ Instr.overVoltageTrip v) :=
  ⟨(by decide +kernel),
    (by intros; simp),
    (by intros; simp)⟩

theorem hyps_CourseCommandsQueue :
    CoreMay busyS who (0 : Fin 16) (0 : Fin 8) att0 core0 ∧
    OwnsCourse busyS (0 : Fin 8) (0 : Fin 8) ∧
    Busy busyS.courses[(0 : Fin 8)].queue ∧
    busyS.courses[(0 : Fin 8)].stores = [] ∧
    fld mmW 7 0 = 33 ∧
    fld lwW 7 0 = 34 :=
  ⟨⟨(by decide +kernel), (by unfold Calm; decide +kernel), (by decide +kernel), (by decide +kernel), (by decide +kernel)⟩,
    (by unfold OwnsCourse; decide +kernel),
    busy_of (by decide +kernel),
    (by decide +kernel),
    (by decide +kernel),
    (by decide +kernel)⟩

theorem hyps_CourseCommandsStart :
    CoreMay tabled who (0 : Fin 16) (0 : Fin 8) att0 core0 ∧
    OwnsCourse tabled (0 : Fin 8) (0 : Fin 8) ∧
    tabled.courses[(0 : Fin 8)].queue = [] ∧
    tabled.courses[(0 : Fin 8)].stores = [] ∧
    fld mmW 7 0 = 0x21 ∧
    tileWaits (courseQueued (bookIssue tabled (0 : Fin 16) who core0) (0 : Fin 8) (mmCmd tabled (0 : Fin 8) mmW (coreIssuer (0 : Fin 16) att0 core0))) (0 : Fin 8) (mmCmd tabled (0 : Fin 8) mmW (coreIssuer (0 : Fin 16) att0 core0)) = false ∧
    mmReject (courseQueued (bookIssue tabled (0 : Fin 16) who core0) (0 : Fin 8) (mmCmd tabled (0 : Fin 8) mmW (coreIssuer (0 : Fin 16) att0 core0))) (0 : Fin 8) (mmCmd tabled (0 : Fin 8) mmW (coreIssuer (0 : Fin 16) att0 core0)) = none ∧
    fld lwW 7 0 = 0x22 ∧
    tileWaits (courseQueued (bookIssue tabled (0 : Fin 16) who core0) (0 : Fin 8) (loadwCmd tabled (0 : Fin 8) lwW (coreIssuer (0 : Fin 16) att0 core0))) (0 : Fin 8) (loadwCmd tabled (0 : Fin 8) lwW (coreIssuer (0 : Fin 16) att0 core0)) = false ∧
    loadwReject (courseQueued (bookIssue tabled (0 : Fin 16) who core0) (0 : Fin 8) (loadwCmd tabled (0 : Fin 8) lwW (coreIssuer (0 : Fin 16) att0 core0))) (0 : Fin 8) (loadwCmd tabled (0 : Fin 8) lwW (coreIssuer (0 : Fin 16) att0 core0)) = none :=
  ⟨⟨by decide +kernel, by unfold Calm; decide +kernel, by decide +kernel, by decide +kernel, by decide +kernel⟩,
    by unfold OwnsCourse; decide +kernel,
    by decide +kernel,
    by decide +kernel,
    by decide +kernel,
    by decide +kernel,
    by decide +kernel,
    by decide +kernel,
    by decide +kernel,
    by decide +kernel⟩

theorem hyps_WeightLoadsComplete :
    (mmRun mmU CourseStage.load).power.on = true ∧
    (mmRun mmU CourseStage.load).courses[(0 : Fin 8)].queue = mmRunU :: [] ∧
    mmRunU.run = true ∧
    (mmRun mmU CourseStage.load).pallets[(0 : Fin 8)].ue = [] ∧
    mmRunU.op = 0x21 ∧
    (mmRun mmU CourseStage.load).courses[(0 : Fin 8)].stage = .load ∧
    loading2.power.on = true ∧
    loading2.courses[(0 : Fin 8)].queue = mmRunU2 :: [] ∧
    mmRunU2.run = true ∧
    loading2.pallets[(0 : Fin 8)].ue = [] ∧
    mmRunU2.op = 0x21 ∧
    mmStrict mmRunU2.word = false ∧
    ((loading2.courses[(0 : Fin 8)].stage = .pass ∨ loading2.courses[(0 : Fin 8)].stage = .verdict)) ∧
    loading2.courses[(0 : Fin 8)].pass < mmPasses mmRunU2.word ∧
    strictRun.power.on = true ∧
    strictRun.courses[(0 : Fin 8)].queue = mmStrictU :: [] ∧
    mmStrictU.run = true ∧
    strictRun.pallets[(0 : Fin 8)].ue = [] ∧
    mmStrictU.op = 0x21 ∧
    mmStrict mmStrictU.word = true ∧
    ((strictRun.courses[(0 : Fin 8)].stage = .pass ∨ strictRun.courses[(0 : Fin 8)].stage = .verdict)) ∧
    busyS.power.on = true ∧
    busyS.courses[(0 : Fin 8)].queue = lwRun :: [] ∧
    lwRun.run = true ∧
    busyS.pallets[(0 : Fin 8)].ue = [] ∧
    FromCore busyS lwRun (0 : Fin 16) (0 : Fin 8) att0 ∧
    Calm busyS ∧
    busyS.courses[(0 : Fin 8)].stores = [] ∧
    lwRun.op = 0x22 :=
  ⟨by decide +kernel,
    by decide +kernel,
    by decide +kernel,
    by decide +kernel,
    by decide +kernel,
    by decide +kernel,
    by decide +kernel,
    by decide +kernel,
    by decide +kernel,
    by decide +kernel,
    by decide +kernel,
    by decide +kernel,
    by decide +kernel,
    by decide +kernel,
    by decide +kernel,
    by decide +kernel,
    by decide +kernel,
    by decide +kernel,
    by decide +kernel,
    by decide +kernel,
    by decide +kernel,
    by decide +kernel,
    by decide +kernel,
    by decide +kernel,
    by decide +kernel,
    ⟨by decide +kernel, by decide +kernel, 0, 0, 1, rfl⟩,
    by unfold Calm; decide +kernel,
    by decide +kernel,
    by decide +kernel⟩

theorem hyps_PassEndStoresPartials :
    passing.power.on = true ∧
    runningMM passing.courses[(0 : Fin 8)] = some mmRunU ∧
    passing.courses[(0 : Fin 8)].active = some passW ∧
    passing.courses[(0 : Fin 8)].stage = CourseStage.pass ∧
    passing.courses[(0 : Fin 8)].check = true ∧
    passing.pallets[(0 : Fin 8)].ue = [] ∧
    passing.pallets[(0 : Fin 8)].mem.wf = true :=
  ⟨(by decide +kernel),
    (by decide +kernel),
    (by decide +kernel),
    (by decide +kernel),
    (by decide +kernel),
    (by decide +kernel),
    (by decide +kernel)⟩

theorem hyps_VerdictReleasesOrReruns :
    verdict2.power.on = true ∧
    Calm verdict2 ∧
    verdict2.courses[(0 : Fin 8)].stores = [] ∧
    runningMM verdict2.courses[(0 : Fin 8)] = some mmRunU2 ∧
    verdict2.courses[(0 : Fin 8)].stage = CourseStage.verdict ∧
    (judge verdict2 (0 : Fin 8) mmRunU2 verdict2.courses[(0 : Fin 8)].tiles[fin64 (mmTile mmRunU2.word)]).1 = [] ∧
    (judge verdict2 (0 : Fin 8) mmRunU2 verdict2.courses[(0 : Fin 8)].tiles[fin64 (mmTile mmRunU2.word)]).2.1 = [] ∧
    verdict2.courses[(0 : Fin 8)].pass < mmPasses mmRunU2.word ∧
    (judged mmU 1 (1 : Byte)).power.on = true ∧
    Calm (judged mmU 1 (1 : Byte)) ∧
    (judged mmU 1 (1 : Byte)).courses[(0 : Fin 8)].stores = [] ∧
    runningMM (judged mmU 1 (1 : Byte)).courses[(0 : Fin 8)] = some mmRunU ∧
    (judged mmU 1 (1 : Byte)).courses[(0 : Fin 8)].stage = CourseStage.verdict ∧
    ((judge (judged mmU 1 (1 : Byte)) (0 : Fin 8) mmRunU (judged mmU 1 (1 : Byte)).courses[(0 : Fin 8)].tiles[fin64 (mmTile mmRunU.word)]).1 ≠ [] ∨ (judge (judged mmU 1 (1 : Byte)) (0 : Fin 8) mmRunU (judged mmU 1 (1 : Byte)).courses[(0 : Fin 8)].tiles[fin64 (mmTile mmRunU.word)]).2.1 ≠ []) ∧
    (judged mmU 1 (1 : Byte)).courses[(0 : Fin 8)].firstFail = none :=
  ⟨(by decide +kernel),
    (by unfold Calm; decide +kernel),
    (by decide +kernel),
    (by decide +kernel),
    (by decide +kernel),
    (by decide +kernel),
    (by decide +kernel),
    (by decide +kernel),
    (by decide +kernel),
    (by unfold Calm; decide +kernel),
    (by decide +kernel),
    (by decide +kernel),
    (by decide +kernel),
    (by decide +kernel),
    (by decide +kernel)⟩

theorem hyps_CourseAndTrowelObjects :
    MayWrite full (Req.fn (0 : Fin 9)) (24832 + 7) 32 [(1 : Byte)] 2 ∧
    MayWrite base (Req.fn (0 : Fin 9)) (24832 + 7) 16 [(1 : Byte)] 2 ∧
    MayWrite base (Req.fn (0 : Fin 9)) 25088 (16 + 7) [(1 : Byte)] 2 ∧
    MayWrite base (Req.fn (0 : Fin 9)) (24832 + 7) 64 (wordBytes (5 : BitVec 256)) 2 :=
  ⟨⟨(by decide +kernel), (by decide +kernel), (by decide +kernel), rfl, (by decide +kernel), (by decide +kernel), exists_of_any (by decide +kernel), (by decide +kernel)⟩,
    ⟨(by decide +kernel), (by decide +kernel), (by decide +kernel), rfl, (by decide +kernel), (by decide +kernel), exists_of_any (by decide +kernel), (by decide +kernel)⟩,
    ⟨(by decide +kernel), (by decide +kernel), (by decide +kernel), rfl, (by decide +kernel), (by decide +kernel), exists_of_any (by decide +kernel), (by decide +kernel)⟩,
    ⟨(by decide +kernel), (by decide +kernel), (by decide +kernel), rfl, (by decide +kernel), (by decide +kernel), exists_of_any (by decide +kernel), (by decide +kernel)⟩⟩

theorem hyps_TrowelCommandsRun :
    CoreMay tabled who (0 : Fin 16) (0 : Fin 8) att0 core0 ∧
    OwnsCourse tabled (0 : Fin 8) (0 : Fin 8) ∧
    tabled.trowels[(0 : Fin 8)].queue = [] ∧
    tabled.pallets[(0 : Fin 8)].ue = [] ∧
    tabled.pallets[(0 : Fin 8)].mem.wf = true ∧
    tileWaits (trowelQueued (bookIssue tabled (0 : Fin 16) who core0) (0 : Fin 8) (trowelCmd (bookIssue tabled (0 : Fin 16) who core0) (0 : Fin 8) vopW (coreIssuer (0 : Fin 16) att0 core0))) (0 : Fin 8) (trowelCmd (bookIssue tabled (0 : Fin 16) who core0) (0 : Fin 8) vopW (coreIssuer (0 : Fin 16) att0 core0)) = false ∧
    trowelReject (trowelQueued (bookIssue tabled (0 : Fin 16) who core0) (0 : Fin 8) (trowelCmd (bookIssue tabled (0 : Fin 16) who core0) (0 : Fin 8) vopW (coreIssuer (0 : Fin 16) att0 core0))) (0 : Fin 8) (trowelCmd (bookIssue tabled (0 : Fin 16) who core0) (0 : Fin 8) vopW (coreIssuer (0 : Fin 16) att0 core0)) = none ∧
    guarded (waitSpent (trowelQueued (bookIssue tabled (0 : Fin 16) who core0) (0 : Fin 8) (trowelCmd (bookIssue tabled (0 : Fin 16) who core0) (0 : Fin 8) vopW (coreIssuer (0 : Fin 16) att0 core0))) (0 : Fin 8) (cmdTiles (trowelCmd (bookIssue tabled (0 : Fin 16) who core0) (0 : Fin 8) vopW (coreIssuer (0 : Fin 16) att0 core0)))) (0 : Fin 8) (outRegion vopW (cmdDesc (trowelCmd (bookIssue tabled (0 : Fin 16) who core0) (0 : Fin 8) vopW (coreIssuer (0 : Fin 16) att0 core0)) (vOdesc vopW))) = false ∧
    (fld vopW 7 0 = 49 ∧ Instr.vop who (0 : Fin 8) vopW = Instr.vop who (0 : Fin 8) vopW ∨ fld vopW 7 0 = 50 ∧ Instr.vop who (0 : Fin 8) vopW = Instr.vred who (0 : Fin 8) vopW ∨ fld vopW 7 0 = 51 ∧ Instr.vop who (0 : Fin 8) vopW = Instr.vcvt who (0 : Fin 8) vopW) ∧
    tileWaits (trowelQueued (bookIssue tabled (0 : Fin 16) who core0) (0 : Fin 8) (trowelCmd (bookIssue tabled (0 : Fin 16) who core0) (0 : Fin 8) vredW (coreIssuer (0 : Fin 16) att0 core0))) (0 : Fin 8) (trowelCmd (bookIssue tabled (0 : Fin 16) who core0) (0 : Fin 8) vredW (coreIssuer (0 : Fin 16) att0 core0)) = false ∧
    trowelReject (trowelQueued (bookIssue tabled (0 : Fin 16) who core0) (0 : Fin 8) (trowelCmd (bookIssue tabled (0 : Fin 16) who core0) (0 : Fin 8) vredW (coreIssuer (0 : Fin 16) att0 core0))) (0 : Fin 8) (trowelCmd (bookIssue tabled (0 : Fin 16) who core0) (0 : Fin 8) vredW (coreIssuer (0 : Fin 16) att0 core0)) = none ∧
    guarded (waitSpent (trowelQueued (bookIssue tabled (0 : Fin 16) who core0) (0 : Fin 8) (trowelCmd (bookIssue tabled (0 : Fin 16) who core0) (0 : Fin 8) vredW (coreIssuer (0 : Fin 16) att0 core0))) (0 : Fin 8) (cmdTiles (trowelCmd (bookIssue tabled (0 : Fin 16) who core0) (0 : Fin 8) vredW (coreIssuer (0 : Fin 16) att0 core0)))) (0 : Fin 8) (outRegion vredW (cmdDesc (trowelCmd (bookIssue tabled (0 : Fin 16) who core0) (0 : Fin 8) vredW (coreIssuer (0 : Fin 16) att0 core0)) (vOdesc vredW))) = false ∧
    (fld vredW 7 0 = 49 ∧ Instr.vred who (0 : Fin 8) vredW = Instr.vop who (0 : Fin 8) vredW ∨ fld vredW 7 0 = 50 ∧ Instr.vred who (0 : Fin 8) vredW = Instr.vred who (0 : Fin 8) vredW ∨ fld vredW 7 0 = 51 ∧ Instr.vred who (0 : Fin 8) vredW = Instr.vcvt who (0 : Fin 8) vredW) ∧
    tileWaits (trowelQueued (bookIssue tabled (0 : Fin 16) who core0) (0 : Fin 8) (trowelCmd (bookIssue tabled (0 : Fin 16) who core0) (0 : Fin 8) vcvtW (coreIssuer (0 : Fin 16) att0 core0))) (0 : Fin 8) (trowelCmd (bookIssue tabled (0 : Fin 16) who core0) (0 : Fin 8) vcvtW (coreIssuer (0 : Fin 16) att0 core0)) = false ∧
    trowelReject (trowelQueued (bookIssue tabled (0 : Fin 16) who core0) (0 : Fin 8) (trowelCmd (bookIssue tabled (0 : Fin 16) who core0) (0 : Fin 8) vcvtW (coreIssuer (0 : Fin 16) att0 core0))) (0 : Fin 8) (trowelCmd (bookIssue tabled (0 : Fin 16) who core0) (0 : Fin 8) vcvtW (coreIssuer (0 : Fin 16) att0 core0)) = none ∧
    guarded (waitSpent (trowelQueued (bookIssue tabled (0 : Fin 16) who core0) (0 : Fin 8) (trowelCmd (bookIssue tabled (0 : Fin 16) who core0) (0 : Fin 8) vcvtW (coreIssuer (0 : Fin 16) att0 core0))) (0 : Fin 8) (cmdTiles (trowelCmd (bookIssue tabled (0 : Fin 16) who core0) (0 : Fin 8) vcvtW (coreIssuer (0 : Fin 16) att0 core0)))) (0 : Fin 8) (outRegion vcvtW (cmdDesc (trowelCmd (bookIssue tabled (0 : Fin 16) who core0) (0 : Fin 8) vcvtW (coreIssuer (0 : Fin 16) att0 core0)) (vOdesc vcvtW))) = false ∧
    (fld vcvtW 7 0 = 49 ∧ Instr.vcvt who (0 : Fin 8) vcvtW = Instr.vop who (0 : Fin 8) vcvtW ∨ fld vcvtW 7 0 = 50 ∧ Instr.vcvt who (0 : Fin 8) vcvtW = Instr.vred who (0 : Fin 8) vcvtW ∨ fld vcvtW 7 0 = 51 ∧ Instr.vcvt who (0 : Fin 8) vcvtW = Instr.vcvt who (0 : Fin 8) vcvtW) :=
  ⟨⟨(by decide +kernel), (by unfold Calm; decide +kernel), (by decide +kernel), (by decide +kernel), (by decide +kernel)⟩,
    (by unfold OwnsCourse; decide +kernel),
    (by decide +kernel),
    (by decide +kernel),
    (by decide +kernel),
    (by decide +kernel),
    (by decide +kernel),
    (by decide +kernel),
    (by decide +kernel),
    (by decide +kernel),
    (by decide +kernel),
    (by decide +kernel),
    (by decide +kernel),
    (by decide +kernel),
    (by decide +kernel),
    (by decide +kernel),
    (by decide +kernel)⟩

theorem hyps_TablesOfACourse :
    CoreMay tabled who (0 : Fin 16) (0 : Fin 8) att0 core0 ∧
    OwnsCourse tabled (0 : Fin 8) (0 : Fin 8) :=
  ⟨⟨(by decide +kernel), (by unfold Calm; decide +kernel), (by decide +kernel), (by decide +kernel), (by decide +kernel)⟩,
    (by unfold OwnsCourse; decide +kernel)⟩

theorem hyps_HeldCommandsRelease :
    (vopHeld 1 0).power.on = true ∧
    Calm (vopHeld 1 0) ∧
    (vopHeld 1 0).courses[(0 : Fin 8)].queue = [] ∧
    (vopHeld 1 0).trowels[(0 : Fin 8)].queue = vopB1 :: [] ∧
    usesTile vopB1 0 = true ∧
    vopB1.blocked = 1 ∧
    vopB1.run = false ∧
    tileWaits (vopHeld 1 0) (0 : Fin 8) vopB1 = false ∧
    trowelReject (setTrowelHead (stallAdd (vopHeld 1 0) (0x6100 + ((0 : Fin 8) : Fin 8).val) 0x33) (0 : Fin 8) fun x => { x with blocked := 0 }) (0 : Fin 8) { vopB1 with blocked := 0 } = none ∧
    (vopHeld 1 0).pallets[(0 : Fin 8)].ue = [] ∧
    guarded (waitSpent (setTrowelHead (stallAdd (vopHeld 1 0) (0x6100 + ((0 : Fin 8) : Fin 8).val) 0x33) (0 : Fin 8) fun x => { x with blocked := 0 }) (0 : Fin 8) (cmdTiles vopB1)) (0 : Fin 8) (outRegion vopB1.word (cmdDesc vopB1 (vOdesc vopB1.word))) = false ∧
    (vopHeld 2 0).power.on = true ∧
    Calm (vopHeld 2 0) ∧
    (vopHeld 2 0).rigger.held = [] ∧
    ((∀ h : Fin 16, ∀ (x : UnitCmd) m, (vopHeld 2 0).hods[h].queue = x :: m → x.blocked ≠ 2)) ∧
    (vopHeld 2 0).trowels[(0 : Fin 8)].queue = vopB2 :: [] ∧
    vopB2.blocked = 2 ∧
    vopB2.run = false ∧
    (vopHeld 2 0).pallets[(0 : Fin 8)].ue = [] ∧
    tileWaits (setTrowelHead (vopHeld 2 0) (0 : Fin 8) fun x => { x with blocked := 0 }) (0 : Fin 8) { vopB2 with blocked := 0 } = false ∧
    trowelReject (setTrowelHead (vopHeld 2 0) (0 : Fin 8) fun x => { x with blocked := 0 }) (0 : Fin 8) { vopB2 with blocked := 0 } = none ∧
    guarded (waitSpent (setTrowelHead (vopHeld 2 0) (0 : Fin 8) fun x => { x with blocked := 0 }) (0 : Fin 8) (cmdTiles vopB2)) (0 : Fin 8) (outRegion vopB2.word (cmdDesc vopB2 (vOdesc vopB2.word))) = false :=
  ⟨by decide +kernel,
    by unfold Calm; decide +kernel,
    by decide +kernel,
    by decide +kernel,
    by decide +kernel,
    by decide +kernel,
    by decide +kernel,
    by decide +kernel,
    by decide +kernel,
    by decide +kernel,
    by decide +kernel,
    by decide +kernel,
    by unfold Calm; decide +kernel,
    by decide +kernel,
    no_heads (by decide +kernel),
    by decide +kernel,
    by decide +kernel,
    by decide +kernel,
    by decide +kernel,
    by decide +kernel,
    by decide +kernel,
    by decide +kernel⟩

theorem hyps_LanesAndBanksSubstitute :
    substFew.power.on = true ∧
    substFew.courses[(0 : Fin 8)].substs = 0 :: [1] ∧
    substFew.courses[(0 : Fin 8)].stage ≠ .verdict ∧
    (List.range 520).find? (fun x => !substFew.courses[(0 : Fin 8)].laneMap.contains x && !substFew.courses[(0 : Fin 8)].badLanes.contains x) = some 2 ∧
    ¬(substFew.courses[(0 : Fin 8)].stage = .subst ∧ substFew.courses[(0 : Fin 8)].firstFail.map attrLane = some 0) ∧
    substMine.power.on = true ∧
    substMine.courses[(0 : Fin 8)].substs = 0 :: [1] ∧
    substMine.courses[(0 : Fin 8)].stage ≠ .verdict ∧
    (List.range 520).find? (fun x => !substMine.courses[(0 : Fin 8)].laneMap.contains x && !substMine.courses[(0 : Fin 8)].badLanes.contains x) = some 2 ∧
    substMine.courses[(0 : Fin 8)].stage = .subst ∧
    substMine.courses[(0 : Fin 8)].firstFail.map attrLane = some 0 ∧
    tabled.power.on = true ∧
    (List.range 136).find? (fun x => !tabled.pallets[(0 : Fin 8)].bankMap.contains x && !tabled.pallets[(0 : Fin 8)].badBanks.contains x && tabled.pallets[(0 : Fin 8)].freed ≠ some x) = some 128 :=
  ⟨by decide +kernel,
    by decide +kernel,
    by decide +kernel,
    by decide +kernel,
    by decide +kernel,
    by decide +kernel,
    by decide +kernel,
    by decide +kernel,
    by decide +kernel,
    by decide +kernel,
    by decide +kernel,
    by decide +kernel,
    by decide +kernel⟩

theorem hyps_HodCommandsRun :
    CoreMay hbmed who (0 : Fin 16) (0 : Fin 8) att0 core0 ∧
    OwnsCourse hbmed (hodCourse (1 : Fin 16)) (0 : Fin 8) ∧
    hbmed.hods[(1 : Fin 16)].queue = [] ∧
    (hodCmd hbmed (1 : Fin 16) (copyW 64 128 0) (coreIssuer (0 : Fin 16) att0 core0)).after = [] ∧
    (if fld (copyW 64 128 0) 7 0 = 0x41 then copyReject (hodQueued (bookIssue hbmed (0 : Fin 16) who core0) (1 : Fin 16) (hodCmd hbmed (1 : Fin 16) (copyW 64 128 0) (coreIssuer (0 : Fin 16) att0 core0))) (hodCmd hbmed (1 : Fin 16) (copyW 64 128 0) (coreIssuer (0 : Fin 16) att0 core0)) else gatherReject (hodQueued (bookIssue hbmed (0 : Fin 16) who core0) (1 : Fin 16) (hodCmd hbmed (1 : Fin 16) (copyW 64 128 0) (coreIssuer (0 : Fin 16) att0 core0))) (1 : Fin 16) (hodCmd hbmed (1 : Fin 16) (copyW 64 128 0) (coreIssuer (0 : Fin 16) att0 core0))) = none ∧
    heldBy (waitSpent (hodQueued (bookIssue hbmed (0 : Fin 16) who core0) (1 : Fin 16) (hodCmd hbmed (1 : Fin 16) (copyW 64 128 0) (coreIssuer (0 : Fin 16) att0 core0))) (hodCourse (1 : Fin 16)) (cmdTiles (hodCmd hbmed (1 : Fin 16) (copyW 64 128 0) (coreIssuer (0 : Fin 16) att0 core0)))) (hodPlaces (waitSpent (hodQueued (bookIssue hbmed (0 : Fin 16) who core0) (1 : Fin 16) (hodCmd hbmed (1 : Fin 16) (copyW 64 128 0) (coreIssuer (0 : Fin 16) att0 core0))) (hodCourse (1 : Fin 16)) (cmdTiles (hodCmd hbmed (1 : Fin 16) (copyW 64 128 0) (coreIssuer (0 : Fin 16) att0 core0)))) (1 : Fin 16) (hodCmd hbmed (1 : Fin 16) (copyW 64 128 0) (coreIssuer (0 : Fin 16) att0 core0))).2 = none ∧
    hodFault (hodTaken (hodQueued (bookIssue hbmed (0 : Fin 16) who core0) (1 : Fin 16) (hodCmd hbmed (1 : Fin 16) (copyW 64 128 0) (coreIssuer (0 : Fin 16) att0 core0))) (1 : Fin 16) (hodCmd hbmed (1 : Fin 16) (copyW 64 128 0) (coreIssuer (0 : Fin 16) att0 core0)) (0 : Fin 16) (0 : Fin 8)) (hodCmd hbmed (1 : Fin 16) (copyW 64 128 0) (coreIssuer (0 : Fin 16) att0 core0)) (hodUndo (tilesTake (waitSpent (hodQueued (bookIssue hbmed (0 : Fin 16) who core0) (1 : Fin 16) (hodCmd hbmed (1 : Fin 16) (copyW 64 128 0) (coreIssuer (0 : Fin 16) att0 core0))) (hodCourse (1 : Fin 16)) (cmdTiles (hodCmd hbmed (1 : Fin 16) (copyW 64 128 0) (coreIssuer (0 : Fin 16) att0 core0)))) (hodCourse (1 : Fin 16)) (hodCmd hbmed (1 : Fin 16) (copyW 64 128 0) (coreIssuer (0 : Fin 16) att0 core0))) (hodCmd hbmed (1 : Fin 16) (copyW 64 128 0) (coreIssuer (0 : Fin 16) att0 core0)) (hodPlaces (waitSpent (hodQueued (bookIssue hbmed (0 : Fin 16) who core0) (1 : Fin 16) (hodCmd hbmed (1 : Fin 16) (copyW 64 128 0) (coreIssuer (0 : Fin 16) att0 core0))) (hodCourse (1 : Fin 16)) (cmdTiles (hodCmd hbmed (1 : Fin 16) (copyW 64 128 0) (coreIssuer (0 : Fin 16) att0 core0)))) (1 : Fin 16) (hodCmd hbmed (1 : Fin 16) (copyW 64 128 0) (coreIssuer (0 : Fin 16) att0 core0))).2) (hodPlaces (waitSpent (hodQueued (bookIssue hbmed (0 : Fin 16) who core0) (1 : Fin 16) (hodCmd hbmed (1 : Fin 16) (copyW 64 128 0) (coreIssuer (0 : Fin 16) att0 core0))) (hodCourse (1 : Fin 16)) (cmdTiles (hodCmd hbmed (1 : Fin 16) (copyW 64 128 0) (coreIssuer (0 : Fin 16) att0 core0)))) (1 : Fin 16) (hodCmd hbmed (1 : Fin 16) (copyW 64 128 0) (coreIssuer (0 : Fin 16) att0 core0))).1 (hodPlaces (waitSpent (hodQueued (bookIssue hbmed (0 : Fin 16) who core0) (1 : Fin 16) (hodCmd hbmed (1 : Fin 16) (copyW 64 128 0) (coreIssuer (0 : Fin 16) att0 core0))) (hodCourse (1 : Fin 16)) (cmdTiles (hodCmd hbmed (1 : Fin 16) (copyW 64 128 0) (coreIssuer (0 : Fin 16) att0 core0)))) (1 : Fin 16) (hodCmd hbmed (1 : Fin 16) (copyW 64 128 0) (coreIssuer (0 : Fin 16) att0 core0))).2 = none ∧
    fld (copyW 64 128 0) 7 0 = 0x41 ∧
    cpAdd (copyW 64 128 0) = false ∧
    hbmed.pallets[(0 : Fin 8)].mem.wf = true ∧
    (hodCmd hbmed (1 : Fin 16) (copyW 64 (hbmAddr 128) 1) (coreIssuer (0 : Fin 16) att0 core0)).after = [] ∧
    (if fld (copyW 64 (hbmAddr 128) 1) 7 0 = 0x41 then copyReject (hodQueued (bookIssue hbmed (0 : Fin 16) who core0) (1 : Fin 16) (hodCmd hbmed (1 : Fin 16) (copyW 64 (hbmAddr 128) 1) (coreIssuer (0 : Fin 16) att0 core0))) (hodCmd hbmed (1 : Fin 16) (copyW 64 (hbmAddr 128) 1) (coreIssuer (0 : Fin 16) att0 core0)) else gatherReject (hodQueued (bookIssue hbmed (0 : Fin 16) who core0) (1 : Fin 16) (hodCmd hbmed (1 : Fin 16) (copyW 64 (hbmAddr 128) 1) (coreIssuer (0 : Fin 16) att0 core0))) (1 : Fin 16) (hodCmd hbmed (1 : Fin 16) (copyW 64 (hbmAddr 128) 1) (coreIssuer (0 : Fin 16) att0 core0))) = none ∧
    heldBy (waitSpent (hodQueued (bookIssue hbmed (0 : Fin 16) who core0) (1 : Fin 16) (hodCmd hbmed (1 : Fin 16) (copyW 64 (hbmAddr 128) 1) (coreIssuer (0 : Fin 16) att0 core0))) (hodCourse (1 : Fin 16)) (cmdTiles (hodCmd hbmed (1 : Fin 16) (copyW 64 (hbmAddr 128) 1) (coreIssuer (0 : Fin 16) att0 core0)))) (hodPlaces (waitSpent (hodQueued (bookIssue hbmed (0 : Fin 16) who core0) (1 : Fin 16) (hodCmd hbmed (1 : Fin 16) (copyW 64 (hbmAddr 128) 1) (coreIssuer (0 : Fin 16) att0 core0))) (hodCourse (1 : Fin 16)) (cmdTiles (hodCmd hbmed (1 : Fin 16) (copyW 64 (hbmAddr 128) 1) (coreIssuer (0 : Fin 16) att0 core0)))) (1 : Fin 16) (hodCmd hbmed (1 : Fin 16) (copyW 64 (hbmAddr 128) 1) (coreIssuer (0 : Fin 16) att0 core0))).2 = none ∧
    hodFault (hodTaken (hodQueued (bookIssue hbmed (0 : Fin 16) who core0) (1 : Fin 16) (hodCmd hbmed (1 : Fin 16) (copyW 64 (hbmAddr 128) 1) (coreIssuer (0 : Fin 16) att0 core0))) (1 : Fin 16) (hodCmd hbmed (1 : Fin 16) (copyW 64 (hbmAddr 128) 1) (coreIssuer (0 : Fin 16) att0 core0)) (0 : Fin 16) (0 : Fin 8)) (hodCmd hbmed (1 : Fin 16) (copyW 64 (hbmAddr 128) 1) (coreIssuer (0 : Fin 16) att0 core0)) (hodUndo (tilesTake (waitSpent (hodQueued (bookIssue hbmed (0 : Fin 16) who core0) (1 : Fin 16) (hodCmd hbmed (1 : Fin 16) (copyW 64 (hbmAddr 128) 1) (coreIssuer (0 : Fin 16) att0 core0))) (hodCourse (1 : Fin 16)) (cmdTiles (hodCmd hbmed (1 : Fin 16) (copyW 64 (hbmAddr 128) 1) (coreIssuer (0 : Fin 16) att0 core0)))) (hodCourse (1 : Fin 16)) (hodCmd hbmed (1 : Fin 16) (copyW 64 (hbmAddr 128) 1) (coreIssuer (0 : Fin 16) att0 core0))) (hodCmd hbmed (1 : Fin 16) (copyW 64 (hbmAddr 128) 1) (coreIssuer (0 : Fin 16) att0 core0)) (hodPlaces (waitSpent (hodQueued (bookIssue hbmed (0 : Fin 16) who core0) (1 : Fin 16) (hodCmd hbmed (1 : Fin 16) (copyW 64 (hbmAddr 128) 1) (coreIssuer (0 : Fin 16) att0 core0))) (hodCourse (1 : Fin 16)) (cmdTiles (hodCmd hbmed (1 : Fin 16) (copyW 64 (hbmAddr 128) 1) (coreIssuer (0 : Fin 16) att0 core0)))) (1 : Fin 16) (hodCmd hbmed (1 : Fin 16) (copyW 64 (hbmAddr 128) 1) (coreIssuer (0 : Fin 16) att0 core0))).2) (hodPlaces (waitSpent (hodQueued (bookIssue hbmed (0 : Fin 16) who core0) (1 : Fin 16) (hodCmd hbmed (1 : Fin 16) (copyW 64 (hbmAddr 128) 1) (coreIssuer (0 : Fin 16) att0 core0))) (hodCourse (1 : Fin 16)) (cmdTiles (hodCmd hbmed (1 : Fin 16) (copyW 64 (hbmAddr 128) 1) (coreIssuer (0 : Fin 16) att0 core0)))) (1 : Fin 16) (hodCmd hbmed (1 : Fin 16) (copyW 64 (hbmAddr 128) 1) (coreIssuer (0 : Fin 16) att0 core0))).1 (hodPlaces (waitSpent (hodQueued (bookIssue hbmed (0 : Fin 16) who core0) (1 : Fin 16) (hodCmd hbmed (1 : Fin 16) (copyW 64 (hbmAddr 128) 1) (coreIssuer (0 : Fin 16) att0 core0))) (hodCourse (1 : Fin 16)) (cmdTiles (hodCmd hbmed (1 : Fin 16) (copyW 64 (hbmAddr 128) 1) (coreIssuer (0 : Fin 16) att0 core0)))) (1 : Fin 16) (hodCmd hbmed (1 : Fin 16) (copyW 64 (hbmAddr 128) 1) (coreIssuer (0 : Fin 16) att0 core0))).2 = none ∧
    fld (copyW 64 (hbmAddr 128) 1) 7 0 = 0x41 ∧
    cpAdd (copyW 64 (hbmAddr 128) 1) = true ∧
    CoreMay gathered who (0 : Fin 16) (0 : Fin 8) att0 core0 ∧
    OwnsCourse gathered (hodCourse (1 : Fin 16)) (0 : Fin 8) ∧
    gathered.hods[(1 : Fin 16)].queue = [] ∧
    (hodCmd gathered (1 : Fin 16) gatherW (coreIssuer (0 : Fin 16) att0 core0)).after = [] ∧
    (if fld gatherW 7 0 = 0x41 then copyReject (hodQueued (bookIssue gathered (0 : Fin 16) who core0) (1 : Fin 16) (hodCmd gathered (1 : Fin 16) gatherW (coreIssuer (0 : Fin 16) att0 core0))) (hodCmd gathered (1 : Fin 16) gatherW (coreIssuer (0 : Fin 16) att0 core0)) else gatherReject (hodQueued (bookIssue gathered (0 : Fin 16) who core0) (1 : Fin 16) (hodCmd gathered (1 : Fin 16) gatherW (coreIssuer (0 : Fin 16) att0 core0))) (1 : Fin 16) (hodCmd gathered (1 : Fin 16) gatherW (coreIssuer (0 : Fin 16) att0 core0))) = none ∧
    heldBy (waitSpent (hodQueued (bookIssue gathered (0 : Fin 16) who core0) (1 : Fin 16) (hodCmd gathered (1 : Fin 16) gatherW (coreIssuer (0 : Fin 16) att0 core0))) (hodCourse (1 : Fin 16)) (cmdTiles (hodCmd gathered (1 : Fin 16) gatherW (coreIssuer (0 : Fin 16) att0 core0)))) (hodPlaces (waitSpent (hodQueued (bookIssue gathered (0 : Fin 16) who core0) (1 : Fin 16) (hodCmd gathered (1 : Fin 16) gatherW (coreIssuer (0 : Fin 16) att0 core0))) (hodCourse (1 : Fin 16)) (cmdTiles (hodCmd gathered (1 : Fin 16) gatherW (coreIssuer (0 : Fin 16) att0 core0)))) (1 : Fin 16) (hodCmd gathered (1 : Fin 16) gatherW (coreIssuer (0 : Fin 16) att0 core0))).2 = none ∧
    hodFault (hodTaken (hodQueued (bookIssue gathered (0 : Fin 16) who core0) (1 : Fin 16) (hodCmd gathered (1 : Fin 16) gatherW (coreIssuer (0 : Fin 16) att0 core0))) (1 : Fin 16) (hodCmd gathered (1 : Fin 16) gatherW (coreIssuer (0 : Fin 16) att0 core0)) (0 : Fin 16) (0 : Fin 8)) (hodCmd gathered (1 : Fin 16) gatherW (coreIssuer (0 : Fin 16) att0 core0)) (hodUndo (tilesTake (waitSpent (hodQueued (bookIssue gathered (0 : Fin 16) who core0) (1 : Fin 16) (hodCmd gathered (1 : Fin 16) gatherW (coreIssuer (0 : Fin 16) att0 core0))) (hodCourse (1 : Fin 16)) (cmdTiles (hodCmd gathered (1 : Fin 16) gatherW (coreIssuer (0 : Fin 16) att0 core0)))) (hodCourse (1 : Fin 16)) (hodCmd gathered (1 : Fin 16) gatherW (coreIssuer (0 : Fin 16) att0 core0))) (hodCmd gathered (1 : Fin 16) gatherW (coreIssuer (0 : Fin 16) att0 core0)) (hodPlaces (waitSpent (hodQueued (bookIssue gathered (0 : Fin 16) who core0) (1 : Fin 16) (hodCmd gathered (1 : Fin 16) gatherW (coreIssuer (0 : Fin 16) att0 core0))) (hodCourse (1 : Fin 16)) (cmdTiles (hodCmd gathered (1 : Fin 16) gatherW (coreIssuer (0 : Fin 16) att0 core0)))) (1 : Fin 16) (hodCmd gathered (1 : Fin 16) gatherW (coreIssuer (0 : Fin 16) att0 core0))).2) (hodPlaces (waitSpent (hodQueued (bookIssue gathered (0 : Fin 16) who core0) (1 : Fin 16) (hodCmd gathered (1 : Fin 16) gatherW (coreIssuer (0 : Fin 16) att0 core0))) (hodCourse (1 : Fin 16)) (cmdTiles (hodCmd gathered (1 : Fin 16) gatherW (coreIssuer (0 : Fin 16) att0 core0)))) (1 : Fin 16) (hodCmd gathered (1 : Fin 16) gatherW (coreIssuer (0 : Fin 16) att0 core0))).1 (hodPlaces (waitSpent (hodQueued (bookIssue gathered (0 : Fin 16) who core0) (1 : Fin 16) (hodCmd gathered (1 : Fin 16) gatherW (coreIssuer (0 : Fin 16) att0 core0))) (hodCourse (1 : Fin 16)) (cmdTiles (hodCmd gathered (1 : Fin 16) gatherW (coreIssuer (0 : Fin 16) att0 core0)))) (1 : Fin 16) (hodCmd gathered (1 : Fin 16) gatherW (coreIssuer (0 : Fin 16) att0 core0))).2 = none ∧
    fld gatherW 7 0 = 0x42 :=
  ⟨⟨by decide +kernel, by unfold Calm; decide +kernel, by decide +kernel, by decide +kernel, by decide +kernel⟩,
    by unfold OwnsCourse; decide +kernel,
    by decide +kernel,
    by decide +kernel,
    by decide +kernel,
    by decide +kernel,
    by decide +kernel,
    by decide +kernel,
    by decide +kernel,
    by decide +kernel,
    by decide +kernel,
    by decide +kernel,
    by decide +kernel,
    by decide +kernel,
    by decide +kernel,
    by decide +kernel,
    ⟨by decide +kernel, by unfold Calm; decide +kernel, by decide +kernel, by decide +kernel, by decide +kernel⟩,
    by unfold OwnsCourse; decide +kernel,
    by decide +kernel,
    by decide +kernel,
    by decide +kernel,
    by decide +kernel,
    by decide +kernel,
    by decide +kernel⟩

theorem hyps_UnitCommandsEnd :
    vopDone.power.on = true ∧
    Calm vopDone ∧
    vopDone.trowels[(0 : Fin 8)].queue = [vopFin] ∧
    vopFin.run = true ∧
    FromCore vopDone vopFin (0 : Fin 16) (0 : Fin 8) att0 ∧
    vopDone.courses[(0 : Fin 8)].queue = [] ∧
    vopDone.courses[(0 : Fin 8)].stores = [] ∧
    (∀ x ∈ vopDone.pointing.laneTests, x.1 ≠ .trowel (0 : Fin 8)) ∧
    vopFin.res.cls ≠ .rejected ∧
    vopFin.ev ≠ 0 ∧
    vopFin.ev ≤ 4095 ∧
    vopRejS.power.on = true ∧
    Calm vopRejS ∧
    vopRejS.trowels[(0 : Fin 8)].queue = [vopRej] ∧
    vopRej.run = true ∧
    FromCore vopRejS vopRej (0 : Fin 16) (0 : Fin 8) att0 ∧
    vopRejS.courses[(0 : Fin 8)].queue = [] ∧
    vopRejS.courses[(0 : Fin 8)].stores = [] ∧
    (∀ x ∈ vopRejS.pointing.laneTests, x.1 ≠ .trowel (0 : Fin 8)) ∧
    vopRej.res.cls = .rejected ∧
    (hodBusy tabled).power.on = true ∧
    Calm (hodBusy tabled) ∧
    (hodBusy tabled).hods[(0 : Fin 16)].queue = [hodBusyU] ∧
    hodBusyU.run = true ∧
    FromCore (hodBusy tabled) hodBusyU (0 : Fin 16) (0 : Fin 8) att0 ∧
    (hodBusy tabled).courses[hodCourse (0 : Fin 16)].stores = [] ∧
    (hodBusy tabled).host.funcs[funcOf (0 : Fin 8)].regionWrites = [] ∧
    ((∀ j : Fin 16, ∀ v l, (hodBusy tabled).hods[j].queue = v :: l → v.blocked ≠ 3)) ∧
    hodBusyU.res.cls ≠ .rejected ∧
    hodWaits.power.on = true ∧
    Calm hodWaits ∧
    hodWaits.hods[(0 : Fin 16)].queue = (hodU (copyW 64 128 0)) :: [] ∧
    hodWaits.hods[(0 : Fin 16)].waiting = (hodU (copyW 64 256 0)) :: [] ∧
    hodWaits.hods[(0 : Fin 16)].queue.length < 256 ∧
    (((hodU (copyW 64 128 0)).run = true ∨ (hodU (copyW 64 128 0)).blocked ≠ 0)) ∧
    (((hodU (copyW 64 128 0)).run = false ∨ ((hodU (copyW 64 128 0)).res.cls ≠ .rejected ∧ (hodU (copyW 64 128 0)).res.cls ≠ .failed))) ∧
    hodAdds (hodU (copyW 64 128 0)) = false ∧
    (hodPlaces hodWaits (0 : Fin 16) (hodU (copyW 64 128 0))).2.any (portPlace hodWaits (issuerFn hodWaits (hodU (copyW 64 128 0)).iss) (issuerPart hodWaits (hodU (copyW 64 128 0)).iss)) = false ∧
    (hodDone (copyW 64 (hbmAddr 128) 1) hbmed).power.on = true ∧
    Calm (hodDone (copyW 64 (hbmAddr 128) 1) hbmed) ∧
    (hodDone (copyW 64 (hbmAddr 128) 1) hbmed).hods[(0 : Fin 16)].queue = copyAddRun :: [] ∧
    ((copyAddRun.run = false ∨ (copyAddRun.res.cls ≠ .rejected ∧ copyAddRun.res.cls ≠ .failed))) ∧
    hodAdds copyAddRun = true ∧
    ((copyAddRun.run = false ∨ copyAddRun.wrote = [])) :=
  ⟨by decide +kernel,
    by unfold Calm; decide +kernel,
    by decide +kernel,
    by decide +kernel,
    ⟨by decide +kernel, by decide +kernel, 0, 0, 1, rfl⟩,
    by decide +kernel,
    by decide +kernel,
    by decide +kernel,
    by decide +kernel,
    by decide +kernel,
    by decide +kernel,
    by decide +kernel,
    by unfold Calm; decide +kernel,
    by decide +kernel,
    by decide +kernel,
    ⟨by decide +kernel, by decide +kernel, 0, 0, 1, rfl⟩,
    by decide +kernel,
    by decide +kernel,
    by decide +kernel,
    by decide +kernel,
    by decide +kernel,
    by unfold Calm; decide +kernel,
    by decide +kernel,
    by decide +kernel,
    ⟨by decide +kernel, by decide +kernel, 0, 0, 1, rfl⟩,
    by decide +kernel,
    by decide +kernel,
    heads_ne (by decide +kernel),
    by decide +kernel,
    by decide +kernel,
    by unfold Calm; decide +kernel,
    by decide +kernel,
    by decide +kernel,
    by decide +kernel,
    by decide +kernel,
    by decide +kernel,
    by decide +kernel,
    by decide +kernel,
    by decide +kernel,
    by unfold Calm; decide +kernel,
    by decide +kernel,
    by decide +kernel,
    by decide +kernel,
    by decide +kernel⟩

theorem hyps_HostRegionsAndTranslation :
    (actorOf base (Req.fn (1 : Fin 9))).2 = (1 : Fin 9) ∧
    MayWrite base (Req.fn (1 : Fin 9)) (0x65F0 + 1) 1 (wordBytes regE) 2 ∧
    base.host.funcs[(1 : Fin 9)].regionWrites = [] ∧
    regionNamed base (1 : Fin 9) 4095 = false ∧
    base.power.on = true ∧
    (actorOf namedS (Req.fn (1 : Fin 9))).2 = (1 : Fin 9) ∧
    MayWrite namedS (Req.fn (1 : Fin 9)) (0x65F0 + 1) 1 (wordBytes regE) 2 ∧
    namedS.host.funcs[(1 : Fin 9)].regionWrites = [] ∧
    regionNamed namedS (1 : Fin 9) 3 = true :=
  ⟨by decide +kernel,
    ⟨by decide +kernel, by decide +kernel, by decide +kernel, rfl, by decide +kernel, by decide +kernel, exists_of_any (by decide +kernel), by decide +kernel⟩,
    by decide +kernel,
    by decide +kernel,
    by decide +kernel,
    by decide +kernel,
    ⟨by decide +kernel, by decide +kernel, by decide +kernel, rfl, by decide +kernel, by decide +kernel, exists_of_any (by decide +kernel), by decide +kernel⟩,
    by decide +kernel,
    by decide +kernel⟩

theorem hyps_HbmAddsAndRegulates :
    hbmed.power.on = true ∧
    adderAt hbmed (0 : Fin 8) 64 = some (0, 4096, 0, (0 : ℤ)) ∧
    (64 - 0) % (adderBytes 0) = 0 ∧
    64 + (adderBytes 0) ≤ 0 + 4096 ∧
    (hbmAt hbmed (0 : Fin 8) 64).isSome = true ∧
    ueAt hbmed (some (0 : Fin 8)) ((List.range (adderBytes 0)).map (64 + ·)) = none ∧
    ((∀ base size sc, adderAt hbmed (0 : Fin 8) 65536 = some (base, size, 0, sc) → (65536 - base) % (adderBytes 0) ≠ 0 ∨ base + size < 65536 + (adderBytes 0))) ∧
    ((∀ base size sc, adderAt hbmed (0 : Fin 8) 66 = some (base, size, 0, sc) → (66 - base) % (adderBytes 0) ≠ 0 ∨ base + size < 66 + (adderBytes 0))) ∧
    ((∀ base size sc, adderAt hbmed (0 : Fin 8) 64 = some (base, size, 4, sc) → (64 - base) % (adderBytes 4) ≠ 0 ∨ base + size < 64 + (adderBytes 4))) ∧
    ((∀ i, i < 8 → (hbmAt hbmed (0 : Fin 8) (64 + i)).isSome = true)) ∧
    ueAt hbmed (some (0 : Fin 8)) ((List.range 8).map (64 + ·)) = none ∧
    base.power.on = true ∧
    base.hbm.waits = [] ∧
    64 ≤ (refill base (0 : Fin 8) (3 : Fin 20)).cap ∧
    64 ≤ (refill base (0 : Fin 8) (3 : Fin 20)).guar ∧
    (((refill base (0 : Fin 8) (3 : Fin 20)).cap < 2 ^ 40 ∨ ((refill base (0 : Fin 8) (3 : Fin 20)).guar < 2 ^ 40 ∧ (regParams base (0 : Fin 8) (3 : Fin 20)).2.2.2 = false))) ∧
    spent.power.on = true ∧
    spent.hbm.waits = [] ∧
    64 ≤ (refill spent (0 : Fin 8) (3 : Fin 20)).cap ∧
    (refill spent (0 : Fin 8) (3 : Fin 20)).guar < 64 ∧
    (regParams spent (0 : Fin 8) (3 : Fin 20)).2.2.2 = true :=
  ⟨by decide +kernel,
    by decide +kernel,
    by decide +kernel,
    by decide +kernel,
    by decide +kernel,
    no_ue (by decide +kernel) _,
    (by intro b z c h; rw [show adderAt hbmed 0 65536 = none from by decide +kernel] at h; cases h),
    (by intro b z c h; rw [show adderAt hbmed 0 66 = some (0, 4096, 0, (0 : ℤ)) from by decide +kernel] at h; cases h; exact .inl (by decide)),
    (by intro b z c h; rw [show adderAt hbmed 0 64 = some (0, 4096, 0, (0 : ℤ)) from by decide +kernel] at h; cases h),
    by decide +kernel,
    no_ue (by decide +kernel) _,
    by decide +kernel,
    by decide +kernel,
    by decide +kernel,
    by decide +kernel,
    by decide +kernel,
    by decide +kernel,
    by decide +kernel,
    by decide +kernel,
    by decide +kernel,
    by decide +kernel⟩

theorem hyps_HbmErrorsAreRepaired :
    base.power.on = true ∧
    base.hbm.stks[(3 : Fin 20)].suspended = false ∧
    64 + 32 < pcBytes ∧
    64 % 32 = 0 ∧
    placeMpa base.hbm (3 : Fin 20) (5 : Fin 64) 64 = some 421952 ∧
    place3 (3 : Fin 20) (5 : Fin 64) 64 ∉ base.hbm.ue ∧
    place3 (3 : Fin 20) (5 : Fin 64) 64 ∉ base.hbm.ce ∧
    scrubUe.power.on = true ∧
    scrubUe.hbm.stks[(3 : Fin 20)].suspended = false ∧
    placeMpa scrubUe.hbm (3 : Fin 20) (5 : Fin 64) 64 = some 421952 ∧
    place3 (3 : Fin 20) (5 : Fin 64) 64 ∈ scrubUe.hbm.ue ∧
    (needS 8 false).power.on = true ∧
    (needS 8 false).hbm.stks[(2 : Fin 20)].suspended = false ∧
    rowNeeds (needS 8 false) (2 : Fin 20) (5 : Fin 64) (7 : Fin 48) 9 = true ∧
    spareLeft (needS 8 false).hbm.stks[(2 : Fin 20)] (5 : Fin 64) (7 : Fin 48) ≠ 0 ∧
    (rowsBad 16).power.on = true ∧
    (rowsBad 16).hbm.stks[(2 : Fin 20)].suspended = false ∧
    (rowsBad 16).hbm.inService.contains (2 : Fin 20).val = true ∧
    needsRemap (rowsBad 16) (2 : Fin 20) (5 : Fin 64) = true ∧
    freeCoarse (rowsBad 16) (2 : Fin 20) (5 : Fin 64) = some 62 :=
  ⟨by decide +kernel,
    by decide +kernel,
    by decide +kernel,
    by decide +kernel,
    by decide +kernel,
    by decide +kernel,
    by decide +kernel,
    by decide +kernel,
    by decide +kernel,
    by decide +kernel,
    by decide +kernel,
    by decide +kernel,
    by decide +kernel,
    by decide +kernel,
    (spare_of (by decide +kernel)),
    by decide +kernel,
    by decide +kernel,
    by decide +kernel,
    (remap_of (by decide +kernel)),
    by decide +kernel⟩

theorem hyps_RetirementAndMargining :
    MayWrite full (Req.fn (0 : Fin 9)) (20736 + 3) 3 [(1 : Byte)] 3 ∧
    MayWrite full (Req.fn (0 : Fin 9)) 21248 1 [BitVec.ofNat 8 3] 2 ∧
    (suspendedS 0 false).power.on = true ∧
    (suspendedS 0 false).hbm.marginStack < 20 ∧
    (suspendedS 0 false).hbm.marginState = 0 ∧
    MayWrite (suspendedS 1 false) (Req.fn (0 : Fin 9)) 21248 3 [(1 : Byte)] 3 ∧
    (suspendedS 1 false).hbm.marginStack = 3 ∧
    (suspendedS 1 false).hbm.marginState = 1 ∧
    (suspendedS 1 true).power.on = true ∧
    (suspendedS 1 true).hbm.marginRun = true ∧
    [(7 : BitVec 16)].length ≤ 409600 ∧
    (suspendedS 2 false).power.on = true ∧
    (suspendedS 2 false).hbm.marginStack = 3 ∧
    (suspendedS 2 false).hbm.marginState ≠ 3 :=
  ⟨⟨(by decide +kernel), (by decide +kernel), (by decide +kernel), rfl, (by decide +kernel), (by decide +kernel), exists_of_any (by decide +kernel), (by decide +kernel)⟩,
    ⟨(by decide +kernel), (by decide +kernel), (by decide +kernel), rfl, (by decide +kernel), (by decide +kernel), exists_of_any (by decide +kernel), (by decide +kernel)⟩,
    (by decide +kernel),
    (by decide +kernel),
    (by decide +kernel),
    ⟨(by decide +kernel), (by decide +kernel), (by decide +kernel), rfl, (by decide +kernel), (by decide +kernel), exists_of_any (by decide +kernel), (by decide +kernel)⟩,
    (by decide +kernel),
    (by decide +kernel),
    (by decide +kernel),
    (by decide +kernel),
    (by decide +kernel),
    (by decide +kernel),
    (by decide +kernel),
    (by decide +kernel)⟩

theorem hyps_MessagesLinkAndPage :
    (msixed false false).power.on = true ∧
    0 < (vecOf (msixed false false) (0 : Fin 9) (3 : Fin 2048)).count ∧
    (vecOf (msixed false false) (0 : Fin 9) (3 : Fin 2048)).pba = false ∧
    vecOpen (msixed false false) (0 : Fin 9) (vecOf (msixed false false) (0 : Fin 9) (3 : Fin 2048)) = true ∧
    vecOpen (msixed false false) (0 : Fin 9) { (vecOf (msixed false false) (0 : Fin 9) (3 : Fin 2048)) with addr := 5, data := 6, masked := true } = false ∧
    (msixed true false).power.on = true ∧
    0 < (vecOf (msixed true false) (0 : Fin 9) (3 : Fin 2048)).count ∧
    (vecOf (msixed true false) (0 : Fin 9) (3 : Fin 2048)).pba = false ∧
    vecOpen (msixed true false) (0 : Fin 9) (vecOf (msixed true false) (0 : Fin 9) (3 : Fin 2048)) = false ∧
    (msixed true true).power.on = true ∧
    (vecOf (msixed true true) (0 : Fin 9) (3 : Fin 2048)).pba = true ∧
    vecOpen (msixed true true) (0 : Fin 9) { (vecOf (msixed true true) (0 : Fin 9) (3 : Fin 2048)) with addr := 5, data := 6, masked := false } = true ∧
    (stq SState.polling Halt.none).power.on = true ∧
    pageNow (stq SState.polling Halt.none) (0 : Fin 9) ≠ (stq SState.polling Halt.none).host.funcs[(0 : Fin 9)].page :=
  ⟨by decide +kernel,
    by decide +kernel,
    by decide +kernel,
    by decide +kernel,
    by decide +kernel,
    by decide +kernel,
    by decide +kernel,
    by decide +kernel,
    by decide +kernel,
    by decide +kernel,
    by decide +kernel,
    by decide +kernel,
    by decide +kernel,
    by decide +kernel⟩

theorem hyps_HbmWindow :
    hbmed.power.on = true ∧
    hbmed.host.up = true ∧
    bar2Range hbmed (1 : Fin 9) 64 4 = some [64, 65, 66, 67] ∧
    ueAt hbmed (partOfFn (1 : Fin 9)) [64, 65, 66, 67] = none ∧
    bar2Range hbmed (1 : Fin 9) 64 [(1 : Byte), (2 : Byte), (3 : Byte), (4 : Byte)].length = some [64, 65, 66, 67] ∧
    bar2Short hbmed (partOfFn (1 : Fin 9)) [64, 65, 66, 67] = false ∧
    uePartial hbmed (partOfFn (1 : Fin 9)) [64, 65, 66, 67] = none ∧
    bar2Range hbmed (1 : Fin 9) (2 ^ 26 * 3) 4 = none ∧
    bar2Range hbmed (1 : Fin 9) (2 ^ 26 * 3) [(1 : Byte), (2 : Byte), (3 : Byte), (4 : Byte)].length = none ∧
    ueS.power.on = true ∧
    ueS.host.up = true ∧
    bar2Range ueS (1 : Fin 9) 64 4 = some [64, 65, 66, 67] ∧
    ueAt ueS (partOfFn (1 : Fin 9)) [64, 65, 66, 67] = some 64 ∧
    bar2Range ueS (1 : Fin 9) 64 [(1 : Byte), (2 : Byte), (3 : Byte), (4 : Byte)].length = some [64, 65, 66, 67] ∧
    bar2Short ueS (partOfFn (1 : Fin 9)) [64, 65, 66, 67] = false ∧
    (uePartial ueS (partOfFn (1 : Fin 9)) [64, 65, 66, 67]).isSome = true :=
  ⟨by decide +kernel,
    by decide +kernel,
    by decide +kernel,
    no_ue (by decide +kernel) _,
    by decide +kernel,
    by decide +kernel,
    by decide +kernel,
    by decide +kernel,
    by decide +kernel,
    by decide +kernel,
    by decide +kernel,
    by decide +kernel,
    by decide +kernel,
    by decide +kernel,
    by decide +kernel,
    by decide +kernel⟩

theorem hyps_FunctionResets :
    (hodBusy tabled).power.on = true ∧
    Calm (hodBusy tabled) :=
  ⟨(by decide +kernel),
    (by unfold Calm; decide +kernel)⟩

set_option maxRecDepth 100000 in
theorem hyps_StreamControl :
    State.reset.power.on = true ∧
    State.reset.host.up = true ∧
    State.reset.host.funcs[(0 : Fin 9)].dvsec.getLsbD 32 = false ∧
    (stream State.reset (0 : Fin 9) 0).state = .disabled ∧
    cap.getLsbD 32 = true ∧
    dvsecRefuse State.reset (0 : Fin 9) cap = 0 ∧
    badCap.getLsbD 32 = true ∧
    dvsecRefuse State.reset (0 : Fin 9) badCap ≠ 0 ∧
    fieldsCap.getLsbD 32 = false ∧
    linkDown.power.on = true ∧
    linkDown.host.up = false ∧
    polling.power.on = true ∧
    polling.host.up = true ∧
    (((stream polling (0 : Fin 9) 0).state = .polling ∨ (stream polling (0 : Fin 9) 0).state = .waiting)) ∧
    (1 : Fin 64) ≠ 0 ∧
    (stream State.reset (0 : Fin 9) (1 : Fin 64)).state = .disabled ∧
    (stq SState.polling Halt.none).power.on = true ∧
    (((stream (stq SState.polling Halt.none) (0 : Fin 9) (1 : Fin 64)).state = .polling ∨ (stream (stq SState.polling Halt.none) (0 : Fin 9) (1 : Fin 64)).state = .waiting)) ∧
    (stq SState.halted Halt.gap).power.on = true ∧
    (stream (stq SState.halted Halt.gap) (0 : Fin 9) (1 : Fin 64)).state = .halted ∧
    (stream (stq SState.halted Halt.gap) (0 : Fin 9) (1 : Fin 64)).halt ≠ .journalLost ∧
    (∀ p a n, hostMapped (stq SState.halted Halt.gap) (0 : Fin 9) p a n = true) :=
  ⟨by decide +kernel,
    by decide +kernel,
    by decide +kernel,
    by decide +kernel,
    by decide +kernel,
    by decide +kernel,
    by decide +kernel,
    by decide +kernel,
    by decide +kernel,
    by decide +kernel,
    by decide +kernel,
    by decide +kernel,
    by decide +kernel,
    by decide +kernel,
    by decide +kernel,
    by decide +kernel,
    by decide +kernel,
    by decide +kernel,
    by decide +kernel,
    by decide +kernel,
    by decide +kernel,
    mapped_of (by decide +kernel) (by decide +kernel)⟩

set_option maxRecDepth 100000 in
theorem hyps_PollingTakesEntries :
    polling.power.on = true ∧
    (stream polling (0 : Fin 9) 0).state = .polling ∧
    (∀ p a n, hostMapped polling (0 : Fin 9) p a n = true) ∧
    (((BitVec.ofNat 64 (ofLe (hostRead (softwareWrites polling [hwE]) (0 : Fin 9) (ringSpace polling (0 : Fin 9) 0) (ringOf polling (0 : Fin 9) 0).2.2.1 8))) = (stream polling (0 : Fin 9) 0).retired ∨ serialAfter (stream polling (0 : Fin 9) 0).retired (BitVec.ofNat 64 (ofLe (hostRead (softwareWrites polling [hwE]) (0 : Fin 9) (ringSpace polling (0 : Fin 9) 0) (ringOf polling (0 : Fin 9) 0).2.2.1 8))) = true)) ∧
    serialAfter (stream polling (0 : Fin 9) 0).hostack (BitVec.ofNat 64 (ofLe (hostRead (softwareWrites polling [hwE]) (0 : Fin 9) (ringSpace polling (0 : Fin 9) 0) (ringOf polling (0 : Fin 9) 0).2.2.1 8))) = false ∧
    entrySeq (ringSlot (softwareWrites polling [hwE]) (0 : Fin 9) 0 (stream polling (0 : Fin 9) 0)) = expectSeq (stream polling (0 : Fin 9) 0) ∧
    enCrcOk (ringSlot (softwareWrites polling [hwE]) (0 : Fin 9) 0 (stream polling (0 : Fin 9) 0)) = true ∧
    mayTake polling (0 : Fin 9) 0 (ringSlot (softwareWrites polling [hwE]) (0 : Fin 9) 0 (stream polling (0 : Fin 9) 0)) = true ∧
    entrySeq (ringSlot (softwareWrites polling [hwE]) (0 : Fin 9) 0 (takeEntry (stream polling (0 : Fin 9) 0) (ringSlot (softwareWrites polling [hwE]) (0 : Fin 9) 0 (stream polling (0 : Fin 9) 0)))) ≠ expectSeq (takeEntry (stream polling (0 : Fin 9) 0) (ringSlot (softwareWrites polling [hwE]) (0 : Fin 9) 0 (stream polling (0 : Fin 9) 0))) ∧
    serialAfter (expectSeq (takeEntry (stream polling (0 : Fin 9) 0) (ringSlot (softwareWrites polling [hwE]) (0 : Fin 9) 0 (stream polling (0 : Fin 9) 0)))) (entrySeq (ringSlot (softwareWrites polling [hwE]) (0 : Fin 9) 0 (takeEntry (stream polling (0 : Fin 9) 0) (ringSlot (softwareWrites polling [hwE]) (0 : Fin 9) 0 (stream polling (0 : Fin 9) 0))))) = true ∧
    ((enCrcOk (ringSlot (softwareWrites polling [hwE]) (0 : Fin 9) 0 (takeEntry (stream polling (0 : Fin 9) 0) (ringSlot (softwareWrites polling [hwE]) (0 : Fin 9) 0 (stream polling (0 : Fin 9) 0)))) = false ∨ entrySeq (ringSlot (softwareWrites polling [hwE]) (0 : Fin 9) 0 (takeEntry (stream polling (0 : Fin 9) 0) (ringSlot (softwareWrites polling [hwE]) (0 : Fin 9) 0 (stream polling (0 : Fin 9) 0)))) = expectSeq (takeEntry (stream polling (0 : Fin 9) 0) (ringSlot (softwareWrites polling [hwE]) (0 : Fin 9) 0 (stream polling (0 : Fin 9) 0))) - BitVec.ofNat 64 (ringN polling (0 : Fin 9) 0) ∨ entrySeq (ringSlot (softwareWrites polling [hwE]) (0 : Fin 9) 0 (takeEntry (stream polling (0 : Fin 9) 0) (ringSlot (softwareWrites polling [hwE]) (0 : Fin 9) 0 (stream polling (0 : Fin 9) 0)))) = 0)) ∧
    (((BitVec.ofNat 64 (ofLe (hostRead (softwareWrites polling ([] : List HostWrite)) (0 : Fin 9) (ringSpace polling (0 : Fin 9) 0) (ringOf polling (0 : Fin 9) 0).2.2.1 8))) = (stream polling (0 : Fin 9) 0).retired ∨ serialAfter (stream polling (0 : Fin 9) 0).retired (BitVec.ofNat 64 (ofLe (hostRead (softwareWrites polling ([] : List HostWrite)) (0 : Fin 9) (ringSpace polling (0 : Fin 9) 0) (ringOf polling (0 : Fin 9) 0).2.2.1 8))) = true)) ∧
    serialAfter (stream polling (0 : Fin 9) 0).hostack (BitVec.ofNat 64 (ofLe (hostRead (softwareWrites polling ([] : List HostWrite)) (0 : Fin 9) (ringSpace polling (0 : Fin 9) 0) (ringOf polling (0 : Fin 9) 0).2.2.1 8))) = false ∧
    entrySeq (ringSlot (softwareWrites polling ([] : List HostWrite)) (0 : Fin 9) 0 (stream polling (0 : Fin 9) 0)) ≠ expectSeq (stream polling (0 : Fin 9) 0) ∧
    serialAfter (expectSeq (stream polling (0 : Fin 9) 0)) (entrySeq (ringSlot (softwareWrites polling ([] : List HostWrite)) (0 : Fin 9) 0 (stream polling (0 : Fin 9) 0))) = true ∧
    ((enCrcOk (ringSlot (softwareWrites polling ([] : List HostWrite)) (0 : Fin 9) 0 (stream polling (0 : Fin 9) 0)) = false ∨ entrySeq (ringSlot (softwareWrites polling ([] : List HostWrite)) (0 : Fin 9) 0 (stream polling (0 : Fin 9) 0)) = expectSeq (stream polling (0 : Fin 9) 0) - BitVec.ofNat 64 (ringN polling (0 : Fin 9) 0) ∨ entrySeq (ringSlot (softwareWrites polling ([] : List HostWrite)) (0 : Fin 9) 0 (stream polling (0 : Fin 9) 0)) = 0)) ∧
    (ringed [(1, gapE)]).power.on = true ∧
    (stream (ringed [(1, gapE)]) (0 : Fin 9) 0).state = .polling ∧
    (∀ p a n, hostMapped (ringed [(1, gapE)]) (0 : Fin 9) p a n = true) ∧
    (((BitVec.ofNat 64 (ofLe (hostRead (softwareWrites (ringed [(1, gapE)]) ([] : List HostWrite)) (0 : Fin 9) (ringSpace (ringed [(1, gapE)]) (0 : Fin 9) 0) (ringOf (ringed [(1, gapE)]) (0 : Fin 9) 0).2.2.1 8))) = (stream (ringed [(1, gapE)]) (0 : Fin 9) 0).retired ∨ serialAfter (stream (ringed [(1, gapE)]) (0 : Fin 9) 0).retired (BitVec.ofNat 64 (ofLe (hostRead (softwareWrites (ringed [(1, gapE)]) ([] : List HostWrite)) (0 : Fin 9) (ringSpace (ringed [(1, gapE)]) (0 : Fin 9) 0) (ringOf (ringed [(1, gapE)]) (0 : Fin 9) 0).2.2.1 8))) = true)) ∧
    serialAfter (stream (ringed [(1, gapE)]) (0 : Fin 9) 0).hostack (BitVec.ofNat 64 (ofLe (hostRead (softwareWrites (ringed [(1, gapE)]) ([] : List HostWrite)) (0 : Fin 9) (ringSpace (ringed [(1, gapE)]) (0 : Fin 9) 0) (ringOf (ringed [(1, gapE)]) (0 : Fin 9) 0).2.2.1 8))) = false ∧
    entrySeq (ringSlot (softwareWrites (ringed [(1, gapE)]) ([] : List HostWrite)) (0 : Fin 9) 0 (stream (ringed [(1, gapE)]) (0 : Fin 9) 0)) ≠ expectSeq (stream (ringed [(1, gapE)]) (0 : Fin 9) 0) ∧
    serialAfter (expectSeq (stream (ringed [(1, gapE)]) (0 : Fin 9) 0)) (entrySeq (ringSlot (softwareWrites (ringed [(1, gapE)]) ([] : List HostWrite)) (0 : Fin 9) 0 (stream (ringed [(1, gapE)]) (0 : Fin 9) 0))) = false ∧
    crcBad.power.on = true ∧
    (stream crcBad (0 : Fin 9) 0).state = .polling ∧
    (stream crcBad (0 : Fin 9) 0).bad = some ((5 : Entry), (100 : U64)) :=
  ⟨by decide +kernel,
    by decide +kernel,
    mapped_of (by decide +kernel) (by decide +kernel),
    by decide +kernel,
    by decide +kernel,
    by decide +kernel,
    by decide +kernel,
    by decide +kernel,
    by decide +kernel,
    by decide +kernel,
    Or.inr (Or.inr (by decide +kernel)),
    by decide +kernel,
    by decide +kernel,
    by decide +kernel,
    by decide +kernel,
    Or.inr (Or.inr (by decide +kernel)),
    by decide +kernel,
    by decide +kernel,
    mapped_of (by decide +kernel) (by decide +kernel),
    by decide +kernel,
    by decide +kernel,
    by decide +kernel,
    by decide +kernel,
    by decide +kernel,
    by decide +kernel,
    by decide +kernel⟩

theorem hyps_JournalAndAcceptance :
    batched.power.on = true ∧
    batched.journal.copyA = true ∧
    batched.journal.copyB = true ∧
    (stream batched (0 : Fin 9) 0).batches = [batch1] ∧
    batch1.written = true ∧
    hostMapped batched (0 : Fin 9) (ringSpace batched (0 : Fin 9) 0) ((ringOf batched (0 : Fin 9) 0).2.2.1 + 8) 8 = true ∧
    oneCopy.power.on = true ∧
    oneCopy.journal.copyA ≠ oneCopy.journal.copyB :=
  ⟨by decide +kernel,
    by decide +kernel,
    by decide +kernel,
    by decide +kernel,
    by decide +kernel,
    by decide +kernel,
    by decide +kernel,
    by decide +kernel⟩

theorem hyps_RetirementWritesTheRecord :
    retireS.power.on = true ∧
    (stream retireS (0 : Fin 9) 0).entries = nopFin :: [nopHeld] ∧
    nopFin.stage = .finished ∧
    ((entrySeq nopFin.raw) - (stream retireS (0 : Fin 9) 0).hostack).toNat ≤ ringN retireS (0 : Fin 9) 0 ∧
    hostMapped retireS (0 : Fin 9) (ringSpace retireS (0 : Fin 9) 0) ((ringOf retireS (0 : Fin 9) 0).2.1 + 128 * ((entrySeq nopFin.raw).toNat % ringN retireS (0 : Fin 9) 0)) (if enCext nopFin.raw then 128 else 64) = true ∧
    enNotify nopFin.raw = false ∧
    objNat retireS (0 : Fin 9) (0x6400 + 0) 9 0 = 0 ∧
    retireS.power.removal ≠ 1 ∧
    retireS.host.funcs[(0 : Fin 9)].regionWrites = [] ∧
    ((∀ h : Fin 16, ∀ v m, retireS.hods[h].queue = v :: m → v.blocked ≠ 3)) ∧
    ((enOp nopFin.raw = 2 → nopFin.res.cls = .rejected ∨ BoundaryQuiet retireS (fin16 (enCrew nopFin.raw)))) ∧
    nopFin.res.cls ≠ .rejected ∧
    0 < enSignal nopFin.raw ∧
    enSignal nopFin.raw ≤ 4095 ∧
    retireRej.power.on = true ∧
    (stream retireRej (0 : Fin 9) 0).entries = nopRej :: [nopHeld] ∧
    nopRej.stage = .finished ∧
    ((entrySeq nopRej.raw) - (stream retireRej (0 : Fin 9) 0).hostack).toNat ≤ ringN retireRej (0 : Fin 9) 0 ∧
    hostMapped retireRej (0 : Fin 9) (ringSpace retireRej (0 : Fin 9) 0) ((ringOf retireRej (0 : Fin 9) 0).2.1 + 128 * ((entrySeq nopRej.raw).toNat % ringN retireRej (0 : Fin 9) 0)) (if enCext nopRej.raw then 128 else 64) = true ∧
    enNotify nopRej.raw = false ∧
    objNat retireRej (0 : Fin 9) (0x6400 + 0) 9 0 = 0 ∧
    retireRej.power.removal ≠ 1 ∧
    retireRej.host.funcs[(0 : Fin 9)].regionWrites = [] ∧
    ((∀ h : Fin 16, ∀ v m, retireRej.hods[h].queue = v :: m → v.blocked ≠ 3)) ∧
    nopRej.res.cls = .rejected :=
  ⟨by decide +kernel,
    by decide +kernel,
    by decide +kernel,
    by decide +kernel,
    by decide +kernel,
    by decide +kernel,
    by decide +kernel,
    by decide +kernel,
    by decide +kernel,
    heads_ne (by decide +kernel),
    fun h => absurd h (by decide +kernel),
    by decide +kernel,
    by decide +kernel,
    by decide +kernel,
    by decide +kernel,
    by decide +kernel,
    by decide +kernel,
    by decide +kernel,
    by decide +kernel,
    by decide +kernel,
    by decide +kernel,
    by decide +kernel,
    by decide +kernel,
    heads_ne (by decide +kernel),
    by decide +kernel⟩

theorem hyps_PlainEntriesAndEvents :
    Starts nopS (0 : Fin 9) (0 : Fin 64) nopE 1 [(735, 0)] ∧
    Starts (withEnt (0 : Fin 9) 0 [markE 255 0] polling) (0 : Fin 9) (0 : Fin 64) (markE 255 0) 5 [(735, 72)] ∧
    fld (enBody (markE 255 0).raw) 71 64 = 255 ∧
    Starts (withEnt (1 : Fin 9) 1 [markE 0 0] runs) (1 : Fin 9) (1 : Fin 64) (markE 0 0) 5 [(735, 72)] ∧
    fld (enBody (markE 0 0).raw) 71 64 = 0 ∧
    (withEnt (1 : Fin 9) 1 [markE 0 0] runs).crews[(0 : Fin 16)].state ≠ CrewState.undefined ∧
    (partOfFn (1 : Fin 9)).isSome = true ∧
    crewOwner (withEnt (1 : Fin 9) 1 [markE 0 0] runs) (0 : Fin 16) = partOfFn (1 : Fin 9) ∧
    base.power.on = true ∧
    1 ≤ BitVec.toNat (4095 : BitVec 16) ∧
    BitVec.toNat (4095 : BitVec 16) ≤ 4095 ∧
    (withEnt (1 : Fin 9) 1 [markE 0 3] runs).power.on = true ∧
    nextEntry (withEnt (1 : Fin 9) 1 [markE 0 3] runs) (1 : Fin 9) 1 = some (markE 0 3) ∧
    (markE 0 3).stage = EStage.held ∧
    1 ≤ enWait (markE 0 3).raw ∧
    enWait (markE 0 3).raw ≤ 4095 ∧
    enWaitCnt (markE 0 3).raw ≤ (eventCount (withEnt (1 : Fin 9) 1 [markE 0 3] runs) (1 : Fin 9) (enWait (markE 0 3).raw)).toNat ∧
    (∀ x ∈ (stream (withEnt (1 : Fin 9) 1 [markE 0 3] runs) (1 : Fin 9) 1).entries, entrySeq x.raw = entrySeq (markE 0 3).raw → x = markE 0 3) :=
  ⟨⟨(by decide +kernel), (by decide +kernel), (by decide +kernel), (by decide +kernel), (by decide +kernel), (by decide +kernel), (by decide +kernel), (by decide +kernel)⟩,
    ⟨(by decide +kernel), (by decide +kernel), (by decide +kernel), (by decide +kernel), (by decide +kernel), (by decide +kernel), (by decide +kernel), (by decide +kernel)⟩,
    (by decide +kernel),
    ⟨(by decide +kernel), (by decide +kernel), (by decide +kernel), (by decide +kernel), (by decide +kernel), (by decide +kernel), (by decide +kernel), (by decide +kernel)⟩,
    (by decide +kernel),
    (by decide +kernel),
    (by decide +kernel),
    (by decide +kernel),
    (by decide +kernel),
    (by decide +kernel),
    (by decide +kernel),
    (by decide +kernel),
    (by decide +kernel),
    (by decide +kernel),
    (by decide +kernel),
    (by decide +kernel),
    (by decide +kernel),
    (by decide +kernel)⟩

theorem hyps_LaunchAndCopyEntriesStart :
    Starts launching (1 : Fin 9) (1 : Fin 64) launchE 2 [(735, 384), (223, 217)] ∧
    partOfFn (1 : Fin 9) = some (0 : Fin 8) ∧
    laCrew (enBody launchE.raw) = (0 : Fin 16).val ∧
    launching.crews[(0 : Fin 16)].state ≠ .undefined ∧
    crewOwner launching (0 : Fin 16) = some (0 : Fin 8) ∧
    strokeRuns launching (0 : Fin 16) = false ∧
    hostAdds launching (0 : Fin 8) = false ∧
    launchHeld launching (0 : Fin 16) (0 : Fin 8) (laStroke (enBody launchE.raw)).toNat = false ∧
    launchReject launching (0 : Fin 16) (0 : Fin 8) (enBody launchE.raw) = none ∧
    ueAt launching (some (0 : Fin 8)) ((List.range (laIlen (enBody launchE.raw))).map (laImage (enBody launchE.raw) + ·)) = none ∧
    Starts (copyS plainE) (1 : Fin 9) (1 : Fin 64) plainE 3 copyEntryRsv ∧
    copyHod (copyS plainE) (1 : Fin 9) (fld (enBody plainE.raw) 511 504) = some (0 : Fin 16) ∧
    hEvent (copyOf plainE.raw) = 0 ∧
    hTag (copyOf plainE.raw) = 0 ∧
    (1 : Fin 9) ≠ 0 ∧
    (copyS plainE).hods[(0 : Fin 16)].queue = [hodBusyU] ∧
    ((hodBusyU.run = true ∨ hodBusyU.blocked ≠ 0)) ∧
    (copyS plainE).hods[(0 : Fin 16)].queue.length < 256 ∧
    copyAccum (copyS plainE) (1 : Fin 9) plainE.raw = false ∧
    Starts (copyS2 accE) (1 : Fin 9) (1 : Fin 64) accE 3 copyEntryRsv ∧
    copyHod (copyS2 accE) (1 : Fin 9) (fld (enBody accE.raw) 511 504) = some (0 : Fin 16) ∧
    hEvent (copyOf accE.raw) = 0 ∧
    hTag (copyOf accE.raw) = 0 ∧
    (copyS2 accE).hods[(0 : Fin 16)].queue = [hodBusyU] ∧
    (copyS2 accE).hods[(0 : Fin 16)].queue.length < 256 ∧
    copyAccum (copyS2 accE) (1 : Fin 9) accE.raw = true ∧
    ((∀ x : Fin 16, crewOwner (copyS2 accE) x = some (0 : Fin 8) → strokeRuns (copyS2 accE) x = false)) :=
  ⟨⟨by decide +kernel, by decide +kernel, by decide +kernel, by decide +kernel, by decide +kernel, by decide +kernel, by decide +kernel, by decide +kernel⟩,
    by decide +kernel,
    by decide +kernel,
    by decide +kernel,
    by decide +kernel,
    by decide +kernel,
    by decide +kernel,
    by decide +kernel,
    by decide +kernel,
    no_ue (by decide +kernel) _,
    ⟨by decide +kernel, by decide +kernel, by decide +kernel, by decide +kernel, by decide +kernel, by decide +kernel, by decide +kernel, by decide +kernel⟩,
    by decide +kernel,
    by decide +kernel,
    by decide +kernel,
    by decide +kernel,
    by decide +kernel,
    by decide +kernel,
    by decide +kernel,
    by decide +kernel,
    ⟨by decide +kernel, by decide +kernel, by decide +kernel, by decide +kernel, by decide +kernel, by decide +kernel, by decide +kernel, by decide +kernel⟩,
    by decide +kernel,
    by decide +kernel,
    by decide +kernel,
    by decide +kernel,
    by decide +kernel,
    by decide +kernel,
    by decide +kernel⟩

theorem hyps_FencesComplete_1 :
    Starts (fenceS 0) (1 : Fin 9) (1 : Fin 64) (fenceE 0) 4 [(735, 64), (31, 16), (7, 2)] ∧
    (stream (fenceS 0) (1 : Fin 9) 1).entries = [fenceE 0] ∧
    (fenceE 0).fence = none ∧
    feScope (enBody (fenceE 0).raw) = 0 ∧
    feCrew (enBody (fenceE 0).raw) = 0 ∧
    feId (enBody (fenceE 0).raw) = 0 ∧
    Starts (fenceS 1) (1 : Fin 9) (1 : Fin 64) (fenceE 1) 4 [(735, 64), (31, 16), (7, 2)] ∧
    (stream (fenceS 1) (1 : Fin 9) 1).entries = [fenceE 1] ∧
    (fenceE 1).fence = none ∧
    feScope (enBody (fenceE 1).raw) = 1 ∧
    feCrew (enBody (fenceE 1).raw) = 0 ∧
    feId (enBody (fenceE 1).raw) = 0 ∧
    setsWait (fenceS 1) (1 : Fin 9) 1 = false ∧
    Starts (fenceS 2) (1 : Fin 9) (1 : Fin 64) (fenceE 2) 4 [(735, 64), (31, 16), (7, 2)] ∧
    (stream (fenceS 2) (1 : Fin 9) 1).entries = [fenceE 2] ∧
    (fenceE 2).fence = none ∧
    feScope (enBody (fenceE 2).raw) = 2 ∧
    feCrew (enBody (fenceE 2).raw) = 0 ∧
    feId (enBody (fenceE 2).raw) = 0 ∧
    setsWait (fenceS 2) (1 : Fin 9) 1 = false ∧
    (fenceS 2).host.up = true ∧
    Starts (fenceS 3) (1 : Fin 9) (1 : Fin 64) (fenceE 3) 4 [(735, 64), (31, 16), (7, 2)] ∧
    (stream (fenceS 3) (1 : Fin 9) 1).entries = [fenceE 3] ∧
    (fenceE 3).fence = none ∧
    feScope (enBody (fenceE 3).raw) = 3 ∧
    feCrew (enBody (fenceE 3).raw) = 0 ∧
    (fenceS 3).crews[(0 : Fin 16)].state ≠ CrewState.undefined ∧
    (partOfFn (1 : Fin 9)).isSome = true :=
  ⟨⟨(by decide +kernel), (by decide +kernel), (by decide +kernel), (by decide +kernel), (by decide +kernel), (by decide +kernel), (by decide +kernel), (by decide +kernel)⟩,
    (by decide +kernel),
    (by decide +kernel),
    (by decide +kernel),
    (by decide +kernel),
    (by decide +kernel),
    ⟨(by decide +kernel), (by decide +kernel), (by decide +kernel), (by decide +kernel), (by decide +kernel), (by decide +kernel), (by decide +kernel), (by decide +kernel)⟩,
    (by decide +kernel),
    (by decide +kernel),
    (by decide +kernel),
    (by decide +kernel),
    (by decide +kernel),
    (by decide +kernel),
    ⟨(by decide +kernel), (by decide +kernel), (by decide +kernel), (by decide +kernel), (by decide +kernel), (by decide +kernel), (by decide +kernel), (by decide +kernel)⟩,
    (by decide +kernel),
    (by decide +kernel),
    (by decide +kernel),
    (by decide +kernel),
    (by decide +kernel),
    (by decide +kernel),
    (by decide +kernel),
    ⟨(by decide +kernel), (by decide +kernel), (by decide +kernel), (by decide +kernel), (by decide +kernel), (by decide +kernel), (by decide +kernel), (by decide +kernel)⟩,
    (by decide +kernel),
    (by decide +kernel),
    (by decide +kernel),
    (by decide +kernel),
    (by decide +kernel),
    (by decide +kernel)⟩

theorem hyps_FencesComplete_2 :
    crewOwner (fenceS 3) (0 : Fin 16) = partOfFn (1 : Fin 9) ∧
    setsWait (fenceS 3) (1 : Fin 9) 1 = false ∧
    (∀ r < crewP (fenceS 3) (0 : Fin 16), r ≠ myRank (fenceS 3) (0 : Fin 16) → r ∈ []) ∧
    writesUnacked (fenceS 3) (1 : Fin 9) = false :=
  ⟨(by decide +kernel),
    (by decide +kernel),
    (by decide +kernel),
    (by decide +kernel)⟩

theorem hyps_ExportsPinAndFinish :
    partOfFn (1 : Fin 9) = some (0 : Fin 8) ∧
    Starts exportS (1 : Fin 9) (1 : Fin 64) exportE 7 [(735, 192), (71, 66), (15, 8)] ∧
    exCrew (enBody exportE.raw) = 0 ∧
    exportS.crews[(0 : Fin 16)].exporting = none ∧
    exportReject exportS (1 : Fin 9) (0 : Fin 8) (enBody exportE.raw) = none ∧
    exporting.power.on = true ∧
    exportCrew exporting (1 : Fin 9) (1 : Fin 64) = some ((0 : Fin 16), expX) ∧
    List.find? (fun (e : EntryRun) => decide (entrySeq e.raw = expX.seq)) (stream exporting (1 : Fin 9) 1).entries = some expE ∧
    expE.latchGroup = 255 ∧
    expE.retried = false ∧
    exTarget (enBody expE.raw) = 0 ∧
    (∀ (as : List ℕ), ueAt exporting (some (0 : Fin 8)) as = none) ∧
    hostFaultAt exporting (1 : Fin 9) (List.map (fun (i : ℕ) => hostAddr (exDreg (enBody expE.raw)) (exDoff (enBody expE.raw) + i)) (List.range (exportBytes exporting (0 : Fin 8) expX).length)) = none ∧
    regionPending exportS (1 : Fin 9) exportE.raw = false :=
  ⟨(by decide +kernel),
    ⟨(by decide +kernel), (by decide +kernel), (by decide +kernel), (by decide +kernel), (by decide +kernel), (by decide +kernel), (by decide +kernel), (by decide +kernel)⟩,
    (by decide +kernel),
    (by decide +kernel),
    (by decide +kernel),
    (by decide +kernel),
    (by decide +kernel),
    (by decide +kernel),
    (by decide +kernel),
    (by decide +kernel),
    (by decide +kernel),
    no_ue (by decide +kernel),
    (by decide +kernel),
    (by decide +kernel)⟩

theorem hyps_DictionaryReads :
    Serves State.reset (Req.fn (0 : Fin 9)) ∧
    objFound State.reset (msg 4096 1 0 0 0 []).index.toNat (BitVec.toNat (msg 4096 1 0 0 0 []).sub) = some infoRom ∧
    mayRead State.reset (actorOf State.reset (Req.fn (0 : Fin 9))) (msg 4096 1 0 0 0 []).index.toNat (BitVec.toNat (msg 4096 1 0 0 0 []).sub) = true ∧
    infoRom.access ≠ 3 ∧
    foreignCard State.reset (actorOf State.reset (Req.fn (0 : Fin 9))) (msg 4096 1 0 0 0 []).index.toNat (BitVec.toNat (msg 4096 1 0 0 0 []).sub) (msg 4096 1 0 0 0 []).offset.toNat 1000 = false ∧
    State.reset.dict.openSet = none ∧
    (msg 4096 1 0 0 0 []).aux1 = (0 : BitVec 32) ∧
    (msg 4096 1 0 0 0 []).offset = (0 : BitVec 32) ∧
    objLen State.reset (Req.fn (0 : Fin 9)) (msg 4096 1 0 0 0 []).index.toNat (BitVec.toNat (msg 4096 1 0 0 0 []).sub) infoRom ≤ 1000 ∧
    Serves dicting (Req.fn (0 : Fin 9)) ∧
    Starts dicting (0 : Fin 9) (0 : Fin 64) dictE 6 [(735, 112)] ∧
    1 ≤ dcReqLen (enBody dictE.raw) ∧
    dcReqLen (enBody dictE.raw) ≤ 1024 ∧
    dcRespOff (enBody dictE.raw) % 64 = 0 ∧
    hostBufferFault dicting (0 : Fin 9) (dcRespReg (enBody dictE.raw)) (dcRespOff (enBody dictE.raw)) 1024 2 = none ∧
    dictRequest dicting (0 : Fin 9) (enBody dictE.raw) = some dictMsg ∧
    parseMsg dictMsg = some (1, dictM) ∧
    (1 = 1 ∨ 16 ≤ 1) ∧
    Serves routed (Req.fn (0 : Fin 9)) ∧
    objFound routed (msg 29696 1 999 0 0 []).index.toNat (BitVec.toNat (msg 29696 1 999 0 0 []).sub) = some infoRoute ∧
    mayRead routed (actorOf routed (Req.fn (0 : Fin 9))) (msg 29696 1 999 0 0 []).index.toNat (BitVec.toNat (msg 29696 1 999 0 0 []).sub) = true ∧
    infoRoute.access ≠ 3 ∧
    foreignCard routed (actorOf routed (Req.fn (0 : Fin 9))) (msg 29696 1 999 0 0 []).index.toNat (BitVec.toNat (msg 29696 1 999 0 0 []).sub) (msg 29696 1 999 0 0 []).offset.toNat 1000 = false ∧
    routed.dict.openSet = none ∧
    infoRoute.ty = 12 ∧
    (msg 29696 1 999 0 0 []).offset.toNat + 1000 < objLen routed (Req.fn (0 : Fin 9)) (msg 29696 1 999 0 0 []).index.toNat (BitVec.toNat (msg 29696 1 999 0 0 []).sub) infoRoute ∧
    0 < (msg 29696 1 999 0 0 []).offset.toNat ∧
    regionPending dicting (0 : Fin 9) dictE.raw = false ∧
    ((svc (entered dicting (0 : Fin 9) (0 : Fin 64) dictE { dictE.begun dicting.now with ran := 1 }) (.fn 0) (some (0, 0)) 1 dictM).2.1 = 0x0202 → 1 = 0x11 → valueRsv dictM.index.toNat dictM.sub.toNat dictM.data = false) :=
  ⟨⟨(by decide +kernel), (by decide +kernel), (by decide +kernel), rfl⟩,
    (by decide +kernel),
    (by decide +kernel),
    (by decide +kernel),
    (by decide +kernel),
    (by decide +kernel),
    (by decide +kernel),
    (by decide +kernel),
    (by decide +kernel),
    ⟨(by decide +kernel), (by decide +kernel), (by decide +kernel), rfl⟩,
    ⟨(by decide +kernel), (by decide +kernel), (by decide +kernel), (by decide +kernel), (by decide +kernel), (by decide +kernel), (by decide +kernel), (by decide +kernel)⟩,
    (by decide +kernel),
    (by decide +kernel),
    (by decide +kernel),
    (by decide +kernel),
    (by decide +kernel),
    (by decide +kernel),
    (by decide +kernel),
    ⟨(by decide +kernel), (by decide +kernel), (by decide +kernel), rfl⟩,
    (by decide +kernel),
    (by decide +kernel),
    (by decide +kernel),
    (by decide +kernel),
    (by decide +kernel),
    (by decide +kernel),
    (by decide +kernel),
    (by decide +kernel),
    (by decide +kernel),
    (fun _ h => absurd h (by decide))⟩

theorem hyps_DictionaryWrites :
    MayWrite State.reset (Req.fn (0 : Fin 9)) (msg 8704 4 0 0 0 [(95 : Byte)]).index.toNat (BitVec.toNat (msg 8704 4 0 0 0 [(95 : Byte)]).sub) (msg 8704 4 0 0 0 [(95 : Byte)]).data 2 ∧
    plainObject (msg 8704 4 0 0 0 [(95 : Byte)]).index.toNat (BitVec.toNat (msg 8704 4 0 0 0 [(95 : Byte)]).sub) ∧
    State.reset.dict.flashBad = false ∧
    Serves trS (Req.fn (0 : Fin 9)) ∧
    myTransfer trS (Req.fn (0 : Fin 9)) = some trf ∧
    trOldS.power.on = true ∧
    trOld ∈ trOldS.dict.transfers ∧
    trOld.live = false ∧
    trOld.by_ = Holder.sess (2 : Fin 8) (5 : Fin 8) ∧
    Serves base (Req.fn (1 : Fin 9)) ∧
    objFound base (msg 26097 1 0 64 0 [(1 : Byte), (2 : Byte), (3 : Byte)]).index.toNat (BitVec.toNat (msg 26097 1 0 64 0 [(1 : Byte), (2 : Byte), (3 : Byte)]).sub) = some infoRegions ∧
    mayWrite base (actorOf base (Req.fn (1 : Fin 9))) (msg 26097 1 0 64 0 [(1 : Byte), (2 : Byte), (3 : Byte)]).index.toNat (BitVec.toNat (msg 26097 1 0 64 0 [(1 : Byte), (2 : Byte), (3 : Byte)]).sub) = true ∧
    2 ≤ infoRegions.access ∧
    infoRegions.ty = 12 ∧
    (msg 26097 1 0 64 0 [(1 : Byte), (2 : Byte), (3 : Byte)]).index.toNat ≠ 16640 ∧
    myTransfer base (Req.fn (1 : Fin 9)) = none ∧
    (msg 26097 1 0 64 0 [(1 : Byte), (2 : Byte), (3 : Byte)]).offset = (0 : BitVec 32) ∧
    (msg 26097 1 0 64 0 [(1 : Byte), (2 : Byte), (3 : Byte)]).aux0.toNat ≤ infoRegions.size ∧
    (∀ t ∈ base.dict.transfers, keptOf (Req.fn (1 : Fin 9)) base t = false) ∧
    (List.map (fun (x : Transfer) => x.total) base.dict.transfers).sum + (msg 26097 1 0 64 0 [(1 : Byte), (2 : Byte), (3 : Byte)]).aux0.toNat ≤ 2 ^ 30 ∧
    (msg 26097 1 0 64 0 [(1 : Byte), (2 : Byte), (3 : Byte)]).data.length ≤ (msg 26097 1 0 64 0 [(1 : Byte), (2 : Byte), (3 : Byte)]).aux0.toNat ∧
    BitVec.getLsbD (msg 26097 1 0 64 0 [(1 : Byte), (2 : Byte), (3 : Byte)]).mflags 0 = false :=
  ⟨⟨(by decide +kernel), (by decide +kernel), (by decide +kernel), rfl, (by decide +kernel), (by decide +kernel), exists_of_any (by decide +kernel), (by decide +kernel)⟩,
    (by unfold plainObject; decide +kernel),
    (by decide +kernel),
    ⟨(by decide +kernel), (by decide +kernel), (by decide +kernel), rfl⟩,
    (by decide +kernel),
    (by decide +kernel),
    (by decide +kernel),
    (by decide +kernel),
    (by decide +kernel),
    ⟨(by decide +kernel), (by decide +kernel), (by decide +kernel), rfl⟩,
    (by decide +kernel),
    (by decide +kernel),
    (by decide +kernel),
    (by decide +kernel),
    (by decide +kernel),
    (by decide +kernel),
    (by decide +kernel),
    (by decide +kernel),
    (by decide +kernel),
    (by decide +kernel),
    (by decide +kernel),
    (by decide +kernel)⟩

theorem hyps_ChangeSets :
    Serves State.reset (Req.fn (0 : Fin 9)) ∧
    (actorOf State.reset (Req.fn (0 : Fin 9))).1 ≤ 2 ∧
    State.reset.dict.openSet = none ∧
    Serves oS (Req.fn (0 : Fin 9)) ∧
    Machine.setOf oS (Req.fn (0 : Fin 9)) (msg 8704 4 0 7 0 [(95 : Byte)]).aux0 = Except.ok os ∧
    objFound oS (msg 8704 4 0 7 0 [(95 : Byte)]).index.toNat (BitVec.toNat (msg 8704 4 0 7 0 [(95 : Byte)]).sub) = some infoCap ∧
    mayWrite oS (actorOf oS (Req.fn (0 : Fin 9))) (msg 8704 4 0 7 0 [(95 : Byte)]).index.toNat (BitVec.toNat (msg 8704 4 0 7 0 [(95 : Byte)]).sub) = true ∧
    (infoCap.access = 2 ∨ infoCap.access = 4) ∧
    valueRefuse oS (msg 8704 4 0 7 0 [(95 : Byte)]).index.toNat (BitVec.toNat (msg 8704 4 0 7 0 [(95 : Byte)]).sub) infoCap (msg 8704 4 0 7 0 [(95 : Byte)]).data = none ∧
    (msg 8704 4 0 7 0 [(95 : Byte)]).index ≠ (21504 : BitVec 16) ∧
    (∀ x ∈ os.staged, x.1 ≠ keyOf (actorOf oS (Req.fn (0 : Fin 9))) (msg 8704 4 0 7 0 [(95 : Byte)]).index.toNat (BitVec.toNat (msg 8704 4 0 7 0 [(95 : Byte)]).sub)) ∧
    os.staged.length < 4096 ∧
    Serves stS (Req.fn (0 : Fin 9)) ∧
    Machine.setOf stS (Req.fn (0 : Fin 9)) (msg 0 0 0 7 0 (leBytes 16 0)).aux0 = Except.ok staged ∧
    (msg 0 0 0 7 0 (leBytes 16 0)).data.length = 16 ∧
    pointBad (BitVec.ofNat 128 (leAt (msg 0 0 0 7 0 (leBytes 16 0)).data 0 16)) = false ∧
    setConflicts stS staged (BitVec.ofNat 128 (leAt (msg 0 0 0 7 0 (leBytes 16 0)).data 0 16)) = [] :=
  ⟨⟨(by decide +kernel), (by decide +kernel), (by decide +kernel), rfl⟩,
    (by decide +kernel),
    (by decide +kernel),
    ⟨(by decide +kernel), (by decide +kernel), (by decide +kernel), rfl⟩,
    (by decide +kernel),
    (by decide +kernel),
    (by decide +kernel),
    (by decide +kernel),
    (by decide +kernel),
    (by decide +kernel),
    (by decide +kernel),
    (by decide +kernel),
    ⟨(by decide +kernel), (by decide +kernel), (by decide +kernel), rfl⟩,
    (by decide +kernel),
    (by decide +kernel),
    (by decide +kernel),
    (by decide +kernel)⟩

theorem hyps_ChangeSetsEnd :
    oS.power.on = true ∧
    oS.dict.openSet = some os ∧
    os.id = (7 : BitVec 32) ∧
    MayWrite oS (Req.fn (0 : Fin 9)) 40960 2 (wordBytes (7 : BitVec 32)) 3 ∧
    pS.power.on = true ∧
    List.find? (fun (x : PendSet) => decide (x.id = (8 : BitVec 32))) pS.dict.pendings = some ps ∧
    ps.fill = [] ∧
    manages (actorOf pS (Req.fn (0 : Fin 9))) = true ∧
    MayWrite pS (Req.fn (0 : Fin 9)) 40960 3 (wordBytes (8 : BitVec 32)) 3 ∧
    Calm pS ∧
    ps.values = [(capKey, [(95 : Byte)])] ∧
    apKind ps.point = 0 ∧
    plainObject capKey.idx capKey.sub ∧
    atPoint pS capKey [(95 : Byte)] = true ∧
    lateConflicts pS ps = [] ∧
    pS.dict.flashBad = false ∧
    fS.power.on = true ∧
    List.find? (fun (x : PendSet) => x.fill.contains (0 : Fin 8)) fS.dict.pendings = some fillP ∧
    (∃ q ∈ fillP.fill, q ≠ (0 : Fin 8)) :=
  ⟨(by decide +kernel),
    (by decide +kernel),
    (by decide +kernel),
    ⟨(by decide +kernel), (by decide +kernel), (by decide +kernel), rfl, (by decide +kernel), (by decide +kernel), exists_of_any (by decide +kernel), (by decide +kernel)⟩,
    (by decide +kernel),
    (by decide +kernel),
    (by decide +kernel),
    (by decide +kernel),
    ⟨(by decide +kernel), (by decide +kernel), (by decide +kernel), rfl, (by decide +kernel), (by decide +kernel), exists_of_any (by decide +kernel), (by decide +kernel)⟩,
    (by unfold Calm; decide +kernel),
    (by decide +kernel),
    (by decide +kernel),
    (by unfold plainObject; decide +kernel),
    (by decide +kernel),
    (by decide +kernel),
    (by decide +kernel),
    (by decide +kernel),
    (by decide +kernel),
    (by decide +kernel)⟩

theorem hyps_AttemptsAndCores_1 :
    lS.power.on = true ∧
    Calm lS ∧
    lS.crews[(0 : Fin 16)].launch = some ln ∧
    crewOwner lS (0 : Fin 16) = some (0 : Fin 8) ∧
    lS.crews[(0 : Fin 16)].fin = FinState.idle ∧
    lS.crews[(0 : Fin 16)].hs = true ∧
    lS.crews[(0 : Fin 16)].rejoin = 0 ∧
    lS.pointing.leaving = [] ∧
    (∀ (j : Fin 4), lS.pointing.clusters[j].late = false) ∧
    (∀ (j : Fin 4), (ihClusters (imageOf lS (0 : Fin 8) ln).1).testBit ↑j = true → ihCores (imageOf lS (0 : Fin 8) ln).1 ↑j ≤ (freeCores lS j).length ∧ usedFoot lS j + ihFoot (imageOf lS (0 : Fin 8) ln).1 ≤ 8388608) ∧
    findCore (uS aF) who = some ((0 : Fin 16), aF, core0) ∧
    Underway (uS aF) (0 : Fin 16) aF ∧
    ((aF.coreEnded core0).cores.all fun (x : CoreRun) => x.ended) = true ∧
    aF.voteCmd = none ∧
    findCore (uS aF2) who = some ((0 : Fin 16), aF2, core0) ∧
    Underway (uS aF2) (0 : Fin 16) aF2 ∧
    ((aF2.coreEnded core0).cores.all fun (x : CoreRun) => x.ended) = false ∧
    findCore (uS aF3) who = some ((0 : Fin 16), aF3, core0) ∧
    Underway (uS aF3) (0 : Fin 16) aF3 ∧
    ((aF3.coreEnded core0).cores.all fun (x : CoreRun) => x.ended) = true ∧
    aF3.voteCmd.isSome = true ∧
    aF3.held = [] ∧
    CoreMay (uS aF) who (0 : Fin 16) (0 : Fin 8) aF core0 ∧
    (uS aF).crews[(0 : Fin 16)].decision = none ∧
    aF.held = [] ∧
    fld (word [(0, 84)]) 7 0 = 84 ∧
    rsvSet (word [(0, 84)]) voteRsv = false ∧
    fld (word [(0, 84)]) 11 8 = 0 :=
  ⟨(by decide +kernel),
    (by unfold Calm; decide +kernel),
    (by decide +kernel),
    (by decide +kernel),
    (by decide +kernel),
    (by decide +kernel),
    (by decide +kernel),
    (by decide +kernel),
    (by decide +kernel),
    (by decide +kernel),
    (by decide +kernel),
    ⟨(by decide +kernel), (by decide +kernel), (by decide +kernel), (by decide +kernel), (by decide +kernel), (by decide +kernel), (by decide +kernel), (by decide +kernel)⟩,
    (by decide +kernel),
    (by decide +kernel),
    (by decide +kernel),
    ⟨(by decide +kernel), (by decide +kernel), (by decide +kernel), (by decide +kernel), (by decide +kernel), (by decide +kernel), (by decide +kernel), (by decide +kernel)⟩,
    (by decide +kernel),
    (by decide +kernel),
    ⟨(by decide +kernel), (by decide +kernel), (by decide +kernel), (by decide +kernel), (by decide +kernel), (by decide +kernel), (by decide +kernel), (by decide +kernel)⟩,
    (by decide +kernel),
    (by decide +kernel),
    (by decide +kernel),
    ⟨(by decide +kernel), (by unfold Calm; decide +kernel), (by decide +kernel), (by decide +kernel), (by decide +kernel)⟩,
    (by decide +kernel),
    (by decide +kernel),
    (by decide +kernel),
    (by decide +kernel),
    (by decide +kernel)⟩

theorem hyps_AttemptsAndCores_2 :
    fld (word [(0, 84)]) 79 64 ≤ 4095 ∧
    (0 < aF.inFlight ∨ aF.voted = true ∨ (uS aF).crews[(0 : Fin 16)].fin ≠ FinState.running) ∧
    CoreMay (crewed 2 1 (uS att0)) who (0 : Fin 16) (0 : Fin 8) att0 core0 ∧
    (crewed 2 1 (uS att0)).crews[(0 : Fin 16)].decision = none ∧
    att0.held = [] ∧
    att0.inFlight = 0 ∧
    att0.voted = false ∧
    att0.voteOut = false ∧
    att0.faulted = false ∧
    (crewed 2 1 (uS att0)).crews[(0 : Fin 16)].fin = FinState.running ∧
    (∃ (r : ℕ), combinerOf (crewed 2 1 (uS att0)) (0 : Fin 16) = some r) ∧
    (uS aF).power.on = true ∧
    findCore (uS aF) who = some ((0 : Fin 16), aF, core0) ∧
    crewOwner (uS aF) (0 : Fin 16) = some (0 : Fin 8) ∧
    4088 + 8 ≤ aF.foot ∧
    4088 < aF.foot ∧
    4088 % 64 + [(1 : Byte), (2 : Byte), (3 : Byte), (4 : Byte), (5 : Byte), (6 : Byte), (7 : Byte), (8 : Byte)].length ≤ 64 :=
  ⟨(by decide +kernel),
    (by decide +kernel),
    ⟨(by decide +kernel), (by unfold Calm; decide +kernel), (by decide +kernel), (by decide +kernel), (by decide +kernel)⟩,
    (by decide +kernel),
    (by decide +kernel),
    (by decide +kernel),
    (by decide +kernel),
    (by decide +kernel),
    (by decide +kernel),
    (by decide +kernel),
    Option.isSome_iff_exists.mp (by decide +kernel),
    (by decide +kernel),
    (by decide +kernel),
    (by decide +kernel),
    (by decide +kernel),
    (by decide +kernel),
    (by decide +kernel)⟩

theorem hyps_CollectivesBegin_1 :
    CoreMay noHs who (0 : Fin 16) (0 : Fin 8) att0 core0 ∧
    fld (cw 0) 7 0 = 81 ∧
    crewopReject (bookIssue noHs (0 : Fin 16) who core0) (0 : Fin 8) (cw 0) = none ∧
    noHs.crews[(0 : Fin 16)].fin ≠ FinState.decided ∧
    (coOp (cw 0) = 0 ∧ opI 0 (cw 0) = Instr.allreduce who (cw 0) ∨ coOp (cw 0) = 1 ∧ opI 0 (cw 0) = Instr.reducescatter who (cw 0) ∨ coOp (cw 0) = 2 ∧ opI 0 (cw 0) = Instr.allgather who (cw 0) ∨ coOp (cw 0) = 3 ∧ opI 0 (cw 0) = Instr.broadcast who (cw 0) ∨ coOp (cw 0) = 4 ∧ opI 0 (cw 0) = Instr.reduce who (cw 0) ∨ coOp (cw 0) = 5 ∧ opI 0 (cw 0) = Instr.alltoall who (cw 0) ∨ coOp (cw 0) = 6 ∧ opI 0 (cw 0) = Instr.alltoallv who (cw 0) ∨ coOp (cw 0) = 7 ∧ opI 0 (cw 0) = Instr.barrier who (cw 0)) ∧
    noHs.crews[coCrew (cw 0)].hs = false ∧
    CoreMay pair who (0 : Fin 16) (0 : Fin 8) att0 core0 ∧
    crewopReject (bookIssue pair (0 : Fin 16) who core0) (0 : Fin 8) (cw 0) = none ∧
    pair.crews[(0 : Fin 16)].fin ≠ FinState.decided ∧
    pair.crews[coCrew (cw 0)].hs = true ∧
    crewPeers pair (coCrew (cw 0)) ≠ [] ∧
    1 < crewP pair (coCrew (cw 0)) ∧
    myRank pair (coCrew (cw 0)) < crewP pair (coCrew (cw 0)) ∧
    pair.crews[coCrew (cw 0)].early = [] ∧
    pair.crews[coCrew (cw 0)].earlyRisen = [] ∧
    (∀ (n : Fin 8), pair.pallets[n].ue = [] ∧ ∀ (h : Fin 64), pair.courses[n].tiles[h].sendon = none) ∧
    pair.hbm.ue = [] ∧
    (∀ x ∈ crewG pair (coCrew (cw 0)), 0 < x) ∧
    (∀ (r : ℕ), r < crewP pair (coCrew (cw 0)) ∨ r ∈ crewPeers pair (coCrew (cw 0)) → r ≠ myRank pair (coCrew (cw 0)) → (routePort pair (rankMid pair (coCrew (cw 0)) r) false).isSome = true) ∧
    fld (cw 1) 7 0 = 81 ∧
    crewopReject (bookIssue pair (0 : Fin 16) who core0) (0 : Fin 8) (cw 1) = none ∧
    (coOp (cw 1) = 0 ∧ opI 1 (cw 1) = Instr.allreduce who (cw 1) ∨ coOp (cw 1) = 1 ∧ opI 1 (cw 1) = Instr.reducescatter who (cw 1) ∨ coOp (cw 1) = 2 ∧ opI 1 (cw 1) = Instr.allgather who (cw 1) ∨ coOp (cw 1) = 3 ∧ opI 1 (cw 1) = Instr.broadcast who (cw 1) ∨ coOp (cw 1) = 4 ∧ opI 1 (cw 1) = Instr.reduce who (cw 1) ∨ coOp (cw 1) = 5 ∧ opI 1 (cw 1) = Instr.alltoall who (cw 1) ∨ coOp (cw 1) = 6 ∧ opI 1 (cw 1) = Instr.alltoallv who (cw 1) ∨ coOp (cw 1) = 7 ∧ opI 1 (cw 1) = Instr.barrier who (cw 1)) ∧
    pair.crews[coCrew (cw 1)].hs = true ∧
    crewPeers pair (coCrew (cw 1)) ≠ [] ∧
    1 < crewP pair (coCrew (cw 1)) ∧
    myRank pair (coCrew (cw 1)) < crewP pair (coCrew (cw 1)) ∧
    pair.crews[coCrew (cw 1)].early = [] ∧
    pair.crews[coCrew (cw 1)].earlyRisen = [] :=
  ⟨⟨(by decide +kernel), (by unfold Calm; decide +kernel), (by decide +kernel), (by decide +kernel), (by decide +kernel)⟩,
    (by decide +kernel),
    (by decide +kernel),
    (by decide +kernel),
    (by decide +kernel),
    (by decide +kernel),
    ⟨(by decide +kernel), (by unfold Calm; decide +kernel), (by decide +kernel), (by decide +kernel), (by decide +kernel)⟩,
    (by decide +kernel),
    (by decide +kernel),
    (by decide +kernel),
    (by decide +kernel),
    (by decide +kernel),
    (by decide +kernel),
    (by decide +kernel),
    (by decide +kernel),
    (by decide +kernel),
    (by decide +kernel),
    (by decide +kernel),
    ranks_of (by decide +kernel) (by decide +kernel),
    (by decide +kernel),
    (by decide +kernel),
    (by decide +kernel),
    (by decide +kernel),
    (by decide +kernel),
    (by decide +kernel),
    (by decide +kernel),
    (by decide +kernel),
    (by decide +kernel)⟩

theorem hyps_CollectivesBegin_2 :
    (∀ x ∈ crewG pair (coCrew (cw 1)), 0 < x) ∧
    (∀ (r : ℕ), r < crewP pair (coCrew (cw 1)) ∨ r ∈ crewPeers pair (coCrew (cw 1)) → r ≠ myRank pair (coCrew (cw 1)) → (routePort pair (rankMid pair (coCrew (cw 1)) r) false).isSome = true) ∧
    fld (cw 2) 7 0 = 81 ∧
    crewopReject (bookIssue pair (0 : Fin 16) who core0) (0 : Fin 8) (cw 2) = none ∧
    (coOp (cw 2) = 0 ∧ opI 2 (cw 2) = Instr.allreduce who (cw 2) ∨ coOp (cw 2) = 1 ∧ opI 2 (cw 2) = Instr.reducescatter who (cw 2) ∨ coOp (cw 2) = 2 ∧ opI 2 (cw 2) = Instr.allgather who (cw 2) ∨ coOp (cw 2) = 3 ∧ opI 2 (cw 2) = Instr.broadcast who (cw 2) ∨ coOp (cw 2) = 4 ∧ opI 2 (cw 2) = Instr.reduce who (cw 2) ∨ coOp (cw 2) = 5 ∧ opI 2 (cw 2) = Instr.alltoall who (cw 2) ∨ coOp (cw 2) = 6 ∧ opI 2 (cw 2) = Instr.alltoallv who (cw 2) ∨ coOp (cw 2) = 7 ∧ opI 2 (cw 2) = Instr.barrier who (cw 2)) ∧
    pair.crews[coCrew (cw 2)].hs = true ∧
    crewPeers pair (coCrew (cw 2)) ≠ [] ∧
    1 < crewP pair (coCrew (cw 2)) ∧
    myRank pair (coCrew (cw 2)) < crewP pair (coCrew (cw 2)) ∧
    pair.crews[coCrew (cw 2)].early = [] ∧
    pair.crews[coCrew (cw 2)].earlyRisen = [] ∧
    (∀ x ∈ crewG pair (coCrew (cw 2)), 0 < x) ∧
    (∀ (r : ℕ), r < crewP pair (coCrew (cw 2)) ∨ r ∈ crewPeers pair (coCrew (cw 2)) → r ≠ myRank pair (coCrew (cw 2)) → (routePort pair (rankMid pair (coCrew (cw 2)) r) false).isSome = true) ∧
    fld (cw 3) 7 0 = 81 ∧
    crewopReject (bookIssue pair (0 : Fin 16) who core0) (0 : Fin 8) (cw 3) = none ∧
    (coOp (cw 3) = 0 ∧ opI 3 (cw 3) = Instr.allreduce who (cw 3) ∨ coOp (cw 3) = 1 ∧ opI 3 (cw 3) = Instr.reducescatter who (cw 3) ∨ coOp (cw 3) = 2 ∧ opI 3 (cw 3) = Instr.allgather who (cw 3) ∨ coOp (cw 3) = 3 ∧ opI 3 (cw 3) = Instr.broadcast who (cw 3) ∨ coOp (cw 3) = 4 ∧ opI 3 (cw 3) = Instr.reduce who (cw 3) ∨ coOp (cw 3) = 5 ∧ opI 3 (cw 3) = Instr.alltoall who (cw 3) ∨ coOp (cw 3) = 6 ∧ opI 3 (cw 3) = Instr.alltoallv who (cw 3) ∨ coOp (cw 3) = 7 ∧ opI 3 (cw 3) = Instr.barrier who (cw 3)) ∧
    pair.crews[coCrew (cw 3)].hs = true ∧
    crewPeers pair (coCrew (cw 3)) ≠ [] ∧
    1 < crewP pair (coCrew (cw 3)) ∧
    myRank pair (coCrew (cw 3)) < crewP pair (coCrew (cw 3)) ∧
    pair.crews[coCrew (cw 3)].early = [] ∧
    pair.crews[coCrew (cw 3)].earlyRisen = [] ∧
    (∀ x ∈ crewG pair (coCrew (cw 3)), 0 < x) ∧
    (∀ (r : ℕ), r < crewP pair (coCrew (cw 3)) ∨ r ∈ crewPeers pair (coCrew (cw 3)) → r ≠ myRank pair (coCrew (cw 3)) → (routePort pair (rankMid pair (coCrew (cw 3)) r) false).isSome = true) ∧
    fld (cw 4) 7 0 = 81 ∧
    crewopReject (bookIssue pair (0 : Fin 16) who core0) (0 : Fin 8) (cw 4) = none ∧
    (coOp (cw 4) = 0 ∧ opI 4 (cw 4) = Instr.allreduce who (cw 4) ∨ coOp (cw 4) = 1 ∧ opI 4 (cw 4) = Instr.reducescatter who (cw 4) ∨ coOp (cw 4) = 2 ∧ opI 4 (cw 4) = Instr.allgather who (cw 4) ∨ coOp (cw 4) = 3 ∧ opI 4 (cw 4) = Instr.broadcast who (cw 4) ∨ coOp (cw 4) = 4 ∧ opI 4 (cw 4) = Instr.reduce who (cw 4) ∨ coOp (cw 4) = 5 ∧ opI 4 (cw 4) = Instr.alltoall who (cw 4) ∨ coOp (cw 4) = 6 ∧ opI 4 (cw 4) = Instr.alltoallv who (cw 4) ∨ coOp (cw 4) = 7 ∧ opI 4 (cw 4) = Instr.barrier who (cw 4)) ∧
    pair.crews[coCrew (cw 4)].hs = true :=
  ⟨(by decide +kernel),
    ranks_of (by decide +kernel) (by decide +kernel),
    (by decide +kernel),
    (by decide +kernel),
    (by decide +kernel),
    (by decide +kernel),
    (by decide +kernel),
    (by decide +kernel),
    (by decide +kernel),
    (by decide +kernel),
    (by decide +kernel),
    (by decide +kernel),
    ranks_of (by decide +kernel) (by decide +kernel),
    (by decide +kernel),
    (by decide +kernel),
    (by decide +kernel),
    (by decide +kernel),
    (by decide +kernel),
    (by decide +kernel),
    (by decide +kernel),
    (by decide +kernel),
    (by decide +kernel),
    (by decide +kernel),
    ranks_of (by decide +kernel) (by decide +kernel),
    (by decide +kernel),
    (by decide +kernel),
    (by decide +kernel),
    (by decide +kernel)⟩

theorem hyps_CollectivesBegin_3 :
    crewPeers pair (coCrew (cw 4)) ≠ [] ∧
    1 < crewP pair (coCrew (cw 4)) ∧
    myRank pair (coCrew (cw 4)) < crewP pair (coCrew (cw 4)) ∧
    pair.crews[coCrew (cw 4)].early = [] ∧
    pair.crews[coCrew (cw 4)].earlyRisen = [] ∧
    (∀ x ∈ crewG pair (coCrew (cw 4)), 0 < x) ∧
    (∀ (r : ℕ), r < crewP pair (coCrew (cw 4)) ∨ r ∈ crewPeers pair (coCrew (cw 4)) → r ≠ myRank pair (coCrew (cw 4)) → (routePort pair (rankMid pair (coCrew (cw 4)) r) false).isSome = true) ∧
    fld (cw 5) 7 0 = 81 ∧
    crewopReject (bookIssue pair (0 : Fin 16) who core0) (0 : Fin 8) (cw 5) = none ∧
    (coOp (cw 5) = 0 ∧ opI 5 (cw 5) = Instr.allreduce who (cw 5) ∨ coOp (cw 5) = 1 ∧ opI 5 (cw 5) = Instr.reducescatter who (cw 5) ∨ coOp (cw 5) = 2 ∧ opI 5 (cw 5) = Instr.allgather who (cw 5) ∨ coOp (cw 5) = 3 ∧ opI 5 (cw 5) = Instr.broadcast who (cw 5) ∨ coOp (cw 5) = 4 ∧ opI 5 (cw 5) = Instr.reduce who (cw 5) ∨ coOp (cw 5) = 5 ∧ opI 5 (cw 5) = Instr.alltoall who (cw 5) ∨ coOp (cw 5) = 6 ∧ opI 5 (cw 5) = Instr.alltoallv who (cw 5) ∨ coOp (cw 5) = 7 ∧ opI 5 (cw 5) = Instr.barrier who (cw 5)) ∧
    pair.crews[coCrew (cw 5)].hs = true ∧
    crewPeers pair (coCrew (cw 5)) ≠ [] ∧
    1 < crewP pair (coCrew (cw 5)) ∧
    myRank pair (coCrew (cw 5)) < crewP pair (coCrew (cw 5)) ∧
    pair.crews[coCrew (cw 5)].early = [] ∧
    pair.crews[coCrew (cw 5)].earlyRisen = [] ∧
    (∀ x ∈ crewG pair (coCrew (cw 5)), 0 < x) ∧
    (∀ (r : ℕ), r < crewP pair (coCrew (cw 5)) ∨ r ∈ crewPeers pair (coCrew (cw 5)) → r ≠ myRank pair (coCrew (cw 5)) → (routePort pair (rankMid pair (coCrew (cw 5)) r) false).isSome = true) ∧
    fld (cw 6) 7 0 = 81 ∧
    crewopReject (bookIssue pair (0 : Fin 16) who core0) (0 : Fin 8) (cw 6) = none ∧
    (coOp (cw 6) = 0 ∧ opI 6 (cw 6) = Instr.allreduce who (cw 6) ∨ coOp (cw 6) = 1 ∧ opI 6 (cw 6) = Instr.reducescatter who (cw 6) ∨ coOp (cw 6) = 2 ∧ opI 6 (cw 6) = Instr.allgather who (cw 6) ∨ coOp (cw 6) = 3 ∧ opI 6 (cw 6) = Instr.broadcast who (cw 6) ∨ coOp (cw 6) = 4 ∧ opI 6 (cw 6) = Instr.reduce who (cw 6) ∨ coOp (cw 6) = 5 ∧ opI 6 (cw 6) = Instr.alltoall who (cw 6) ∨ coOp (cw 6) = 6 ∧ opI 6 (cw 6) = Instr.alltoallv who (cw 6) ∨ coOp (cw 6) = 7 ∧ opI 6 (cw 6) = Instr.barrier who (cw 6)) ∧
    pair.crews[coCrew (cw 6)].hs = true ∧
    crewPeers pair (coCrew (cw 6)) ≠ [] ∧
    1 < crewP pair (coCrew (cw 6)) ∧
    myRank pair (coCrew (cw 6)) < crewP pair (coCrew (cw 6)) ∧
    pair.crews[coCrew (cw 6)].early = [] ∧
    pair.crews[coCrew (cw 6)].earlyRisen = [] ∧
    (∀ x ∈ crewG pair (coCrew (cw 6)), 0 < x) :=
  ⟨(by decide +kernel),
    (by decide +kernel),
    (by decide +kernel),
    (by decide +kernel),
    (by decide +kernel),
    (by decide +kernel),
    ranks_of (by decide +kernel) (by decide +kernel),
    (by decide +kernel),
    (by decide +kernel),
    (by decide +kernel),
    (by decide +kernel),
    (by decide +kernel),
    (by decide +kernel),
    (by decide +kernel),
    (by decide +kernel),
    (by decide +kernel),
    (by decide +kernel),
    ranks_of (by decide +kernel) (by decide +kernel),
    (by decide +kernel),
    (by decide +kernel),
    (by decide +kernel),
    (by decide +kernel),
    (by decide +kernel),
    (by decide +kernel),
    (by decide +kernel),
    (by decide +kernel),
    (by decide +kernel),
    (by decide +kernel)⟩

theorem hyps_CollectivesBegin_4 :
    (∀ (r : ℕ), r < crewP pair (coCrew (cw 6)) ∨ r ∈ crewPeers pair (coCrew (cw 6)) → r ≠ myRank pair (coCrew (cw 6)) → (routePort pair (rankMid pair (coCrew (cw 6)) r) false).isSome = true) ∧
    fld (cw 7) 7 0 = 81 ∧
    crewopReject (bookIssue pair (0 : Fin 16) who core0) (0 : Fin 8) (cw 7) = none ∧
    (coOp (cw 7) = 0 ∧ opI 7 (cw 7) = Instr.allreduce who (cw 7) ∨ coOp (cw 7) = 1 ∧ opI 7 (cw 7) = Instr.reducescatter who (cw 7) ∨ coOp (cw 7) = 2 ∧ opI 7 (cw 7) = Instr.allgather who (cw 7) ∨ coOp (cw 7) = 3 ∧ opI 7 (cw 7) = Instr.broadcast who (cw 7) ∨ coOp (cw 7) = 4 ∧ opI 7 (cw 7) = Instr.reduce who (cw 7) ∨ coOp (cw 7) = 5 ∧ opI 7 (cw 7) = Instr.alltoall who (cw 7) ∨ coOp (cw 7) = 6 ∧ opI 7 (cw 7) = Instr.alltoallv who (cw 7) ∨ coOp (cw 7) = 7 ∧ opI 7 (cw 7) = Instr.barrier who (cw 7)) ∧
    pair.crews[coCrew (cw 7)].hs = true ∧
    crewPeers pair (coCrew (cw 7)) ≠ [] ∧
    1 < crewP pair (coCrew (cw 7)) ∧
    myRank pair (coCrew (cw 7)) < crewP pair (coCrew (cw 7)) ∧
    pair.crews[coCrew (cw 7)].early = [] ∧
    pair.crews[coCrew (cw 7)].earlyRisen = [] ∧
    (∀ x ∈ crewG pair (coCrew (cw 7)), 0 < x) ∧
    (∀ (r : ℕ), r < crewP pair (coCrew (cw 7)) ∨ r ∈ crewPeers pair (coCrew (cw 7)) → r ≠ myRank pair (coCrew (cw 7)) → (routePort pair (rankMid pair (coCrew (cw 7)) r) false).isSome = true) :=
  ⟨ranks_of (by decide +kernel) (by decide +kernel),
    (by decide +kernel),
    (by decide +kernel),
    (by decide +kernel),
    (by decide +kernel),
    (by decide +kernel),
    (by decide +kernel),
    (by decide +kernel),
    (by decide +kernel),
    (by decide +kernel),
    (by decide +kernel),
    ranks_of (by decide +kernel) (by decide +kernel)⟩

theorem hyps_PointToPoint_1 :
    CoreMay pair who (0 : Fin 16) (0 : Fin 8) att0 core0 ∧
    p2pReject (bookIssue pair (0 : Fin 16) who core0) (0 : Fin 8) (sendW 64) = none ∧
    pair.crews[(0 : Fin 16)].fin ≠ FinState.decided ∧
    pair.crews[pbCrew (sendW 64)].hs = true ∧
    fld (sendW 64) 7 0 = 82 ∧
    (∀ y ∈ pair.crews[pbCrew (sendW 64)].credits, ¬(y.1 = pbPeer (sendW 64) ∧ y.2.1 = pbStage (sendW 64))) ∧
    roomFor pair (pbCrew (sendW 64)) (sendW 64) = true ∧
    CoreMay credS who (0 : Fin 16) (0 : Fin 8) att0 core0 ∧
    p2pReject (bookIssue credS (0 : Fin 16) who core0) (0 : Fin 8) (sendW 64) = none ∧
    credS.crews[(0 : Fin 16)].fin ≠ FinState.decided ∧
    credS.crews[pbCrew (sendW 64)].hs = true ∧
    credS.crews[pbCrew (sendW 64)].p2p = [] ∧
    credS.crews[pbCrew (sendW 64)].credits = [(pbPeer (sendW 64), pbStage (sendW 64), 64)] ∧
    pbLen (sendW 64) ≤ 64 ∧
    (routePort credS (rankMid credS (pbCrew (sendW 64)) (pbPeer (sendW 64))) false).isSome = true ∧
    (∀ (n : Fin 8), credS.pallets[n].ue = []) ∧
    credS.hbm.ue = [] ∧
    p2pReject (bookIssue pair (0 : Fin 16) who core0) (0 : Fin 8) (recvW 64) = none ∧
    pair.crews[pbCrew (recvW 64)].hs = true ∧
    fld (recvW 64) 7 0 = 83 ∧
    roomFor pair (pbCrew (recvW 64)) (recvW 64) = true ∧
    (routePort pair (rankMid pair (pbCrew (recvW 64)) (pbPeer (recvW 64))) false).isSome = true ∧
    pair.power.on = true ∧
    (∀ y ∈ pair.crews[(0 : Fin 16)].p2p, ¬(y.send = true ∧ pbPeer y.word = 1 ∧ pbStage y.word = BitVec.toNat (3 : BitVec 16))) ∧
    sentS.power.on = true ∧
    Calm sentS ∧
    findP2p sentS (0 : Fin 16) true 1 (BitVec.ofNat 32 (p2pMsg sentS (0 : Fin 16) 3 1)).toNat = some sendX ∧
    sendX.credit ≠ none ∧
    pair.crews[(0 : Fin 16)].state ≠ CrewState.undefined ∧
    (7 : BitVec 32) ≠ pair.crews[(0 : Fin 16)].epoch ∧
    Calm pair ∧
    sentS.crews[(0 : Fin 16)].state ≠ CrewState.undefined ∧
    (0 : BitVec 32) = pair.crews[(0 : Fin 16)].epoch ∧
    (0 : BitVec 32) = sentS.crews[(0 : Fin 16)].epoch :=
  ⟨⟨(by decide +kernel), (by unfold Calm; decide +kernel), (by decide +kernel), (by decide +kernel), (by decide +kernel)⟩,
    (by decide +kernel),
    (by decide +kernel),
    (by decide +kernel),
    (by decide +kernel),
    (by decide +kernel),
    (by decide +kernel),
    ⟨(by decide +kernel), (by unfold Calm; decide +kernel), (by decide +kernel), (by decide +kernel), (by decide +kernel)⟩,
    (by decide +kernel),
    (by decide +kernel),
    (by decide +kernel),
    (by decide +kernel),
    (by decide +kernel),
    (by decide +kernel),
    (by decide +kernel),
    (by decide +kernel),
    (by decide +kernel),
    (by decide +kernel),
    (by decide +kernel),
    (by decide +kernel),
    (by decide +kernel),
    (by decide +kernel),
    (by decide +kernel),
    (by decide +kernel),
    (by decide +kernel),
    (by unfold Calm; decide +kernel),
    (by decide +kernel),
    (by decide +kernel),
    (by decide +kernel),
    (by decide +kernel),
    (by unfold Calm; decide +kernel),
    (by decide +kernel),
    (by decide +kernel),
    (by decide +kernel)⟩

theorem hyps_PointToPoint_2 :
    (∃ (ki : Fin 4) (i : Fin 8) (q : ℕ), sendX.iss = Issuer.core (0 : Fin 16) att0.number ki i q) ∧
    sentS.crews[(0 : Fin 16)].attempt = some att0 ∧
    crewOwner sentS (0 : Fin 16) = some (0 : Fin 8) ∧
    recvS.power.on = true ∧
    recvS.crews[(0 : Fin 16)].state ≠ CrewState.undefined ∧
    (0 : BitVec 32) = recvS.crews[(0 : Fin 16)].epoch ∧
    Calm recvS ∧
    recvS.crews[(0 : Fin 16)].p2p = [recvX] ∧
    findP2p recvS (0 : Fin 16) false 1 (BitVec.ofNat 32 (p2pMsg recvS (0 : Fin 16) 3 1)).toNat = some recvX ∧
    64 ≤ pbLen recvX.word ∧
    recvX.landed < 64 ∧
    recvBad { recvX with total := some 64 } = none :=
  ⟨⟨0, 0, 1, rfl⟩,
    (by decide +kernel),
    (by decide +kernel),
    (by decide +kernel),
    (by decide +kernel),
    (by decide +kernel),
    (by unfold Calm; decide +kernel),
    (by decide +kernel),
    (by decide +kernel),
    (by decide +kernel),
    (by decide +kernel),
    (by decide +kernel)⟩

theorem hyps_CollectivesProgress :
    pair.power.on = true ∧
    pair.crews[(0 : Fin 16)].opNum < 1 ∧
    findOp pair (0 : Fin 16) 1 = none ∧
    Operates (opS true) (0 : Fin 16) [barOp true] ∧
    (barOp true).retired = false ∧
    (barOp true).complete = true ∧
    Operates (opS false) (0 : Fin 16) [barOp false] ∧
    (barOp false).retired = false ∧
    coOp (barOp false).word = 7 ∧
    List.find? (fun (x : ℕ) => decide (x < 0)) (levelsDown (crewG (opS false) (0 : Fin 16))) = none ∧
    messageUnacked (opS true) (crewTag (opS true) (0 : Fin 16)) (epochMsg (opS true) (0 : Fin 16) + (barOp true).num) = false ∧
    (∃ (ki : Fin 4) (i : Fin 8) (q : ℕ), (barOp true).iss = Issuer.core (0 : Fin 16) att0.number ki i q) ∧
    (opS true).crews[(0 : Fin 16)].attempt = some att0 ∧
    crewOwner (opS true) (0 : Fin 16) = some (0 : Fin 8) ∧
    actorPart (actorOf base (Req.fn (1 : Fin 9))) = some (0 : Fin 8) ∧
    MayWrite base (Req.fn (1 : Fin 9)) (29312 + 0) 1 (wordBytes (0 : BitVec 128)) 2 ∧
    MayWrite base (Req.fn (1 : Fin 9)) (29328 + 0) 1 (wordBytes (0 : BitVec 128)) 2 ∧
    (7 : BitVec 32) ≠ pair.crews[(0 : Fin 16)].epoch ∧
    (opS true).crews[(0 : Fin 16)].state ≠ CrewState.undefined ∧
    (opS false).crews[(0 : Fin 16)].state ≠ CrewState.undefined ∧
    base.power.on = true ∧
    pair.crews[(0 : Fin 16)].state ≠ CrewState.undefined :=
  ⟨(by decide +kernel),
    (by decide +kernel),
    (by decide +kernel),
    ⟨(by decide +kernel), (by decide +kernel), (by decide +kernel), (by decide +kernel), alive_of (by decide +kernel), (by decide +kernel), (by decide +kernel)⟩,
    (by decide +kernel),
    (by decide +kernel),
    ⟨(by decide +kernel), (by decide +kernel), (by decide +kernel), (by decide +kernel), alive_of (by decide +kernel), (by decide +kernel), (by decide +kernel)⟩,
    (by decide +kernel),
    (by decide +kernel),
    (by decide +kernel),
    (by decide +kernel),
    ⟨0, 0, 1, rfl⟩,
    (by decide +kernel),
    (by decide +kernel),
    (by decide +kernel),
    ⟨(by decide +kernel), (by decide +kernel), (by decide +kernel), rfl, (by decide +kernel), (by decide +kernel), exists_of_any (by decide +kernel), (by decide +kernel)⟩,
    ⟨(by decide +kernel), (by decide +kernel), (by decide +kernel), rfl, (by decide +kernel), (by decide +kernel), exists_of_any (by decide +kernel), (by decide +kernel)⟩,
    (by decide +kernel),
    (by decide +kernel),
    (by decide +kernel),
    (by decide +kernel),
    (by decide +kernel)⟩

theorem hyps_CrewControl :
    Calm formed ∧
    strokeRuns formed (0 : Fin 16) = false ∧
    MayWrite formed (Req.fn (0 : Fin 9)) (crewIdx (0 : Fin 16)) 13 [(2 : Byte)] 3 ∧
    (formed.crews[(0 : Fin 16)].state = CrewState.forming ∨ formed.crews[(0 : Fin 16)].state = CrewState.running) ∧
    Calm testS ∧
    strokeRuns testS (0 : Fin 16) = false ∧
    MayWrite testS (Req.fn (0 : Fin 9)) (crewIdx (0 : Fin 16)) 13 [(1 : Byte)] 3 ∧
    testS.crews[(0 : Fin 16)].state = CrewState.test ∧
    MayWrite formed (Req.fn (0 : Fin 9)) (crewIdx (0 : Fin 16)) 13 [(3 : Byte)] 3 ∧
    formed.crews[(0 : Fin 16)].state ≠ CrewState.undefined ∧
    formed.crews[(0 : Fin 16)].attempt = none ∧
    formed.crews[(0 : Fin 16)].p2p = [] ∧
    formed.pointing.leaving = [] ∧
    formed.crews[(0 : Fin 16)].req = none ∧
    formed.crews[(0 : Fin 16)].rejoin ≠ 3 ∧
    (∀ x ∈ crewPeers testS (0 : Fin 16), (routePort testS (rankMid testS (0 : Fin 16) x) false).isSome = true) :=
  ⟨(by unfold Calm; decide +kernel),
    (by decide +kernel),
    ⟨(by decide +kernel), (by decide +kernel), (by decide +kernel), rfl, (by decide +kernel), (by decide +kernel), exists_of_any (by decide +kernel), (by decide +kernel)⟩,
    (by decide +kernel),
    (by unfold Calm; decide +kernel),
    (by decide +kernel),
    ⟨(by decide +kernel), (by decide +kernel), (by decide +kernel), rfl, (by decide +kernel), (by decide +kernel), exists_of_any (by decide +kernel), (by decide +kernel)⟩,
    (by decide +kernel),
    ⟨(by decide +kernel), (by decide +kernel), (by decide +kernel), rfl, (by decide +kernel), (by decide +kernel), exists_of_any (by decide +kernel), (by decide +kernel)⟩,
    (by decide +kernel),
    (by decide +kernel),
    (by decide +kernel),
    (by decide +kernel),
    (by decide +kernel),
    (by decide +kernel),
    (by decide +kernel)⟩

theorem hyps_CrewHandshakeAndLoss :
    formed.power.on = true ∧
    Calm formed ∧
    formed.crews[(0 : Fin 16)].state ≠ CrewState.undefined ∧
    1 ∈ crewPeers formed (0 : Fin 16) ∧
    (0 : BitVec 64) = formed.crews[(0 : Fin 16)].hash ∧
    (0 : BitVec 32) = formed.crews[(0 : Fin 16)].epoch ∧
    formed.crews[(0 : Fin 16)].state ≠ CrewState.recovering ∧
    1 ∉ formed.crews[(0 : Fin 16)].hellos ∧
    formed.crews[(0 : Fin 16)].req = none ∧
    formed.crews[(0 : Fin 16)].hs = false ∧
    late1.power.on = true ∧
    Calm late1 ∧
    late1.crews[(0 : Fin 16)].state ≠ CrewState.undefined ∧
    1 ∈ crewPeers late1 (0 : Fin 16) ∧
    (0 : BitVec 64) = late1.crews[(0 : Fin 16)].hash ∧
    BitVec.toNat (2 : BitVec 32) < late1.crews[(0 : Fin 16)].epoch.toNat ∧
    formed.power.quiesced = false ∧
    List.filter (fun (x : ℕ) => !formed.crews[(0 : Fin 16)].hellos.contains x) (crewPeers formed (0 : Fin 16)) = [1] ∧
    RankPort formed (0 : Fin 16) 1 (2 : Fin 16) (rankPacket formed (0 : Fin 16) 1 4 0 (helloBody formed (0 : Fin 16))) ∧
    RankPort formed (0 : Fin 16) 1 (2 : Fin 16) (rankPacket formed (0 : Fin 16) 1 4 0 (syncBody formed (0 : Fin 16) 2 (leBytes 4 (myRank formed (0 : Fin 16))))) ∧
    pair.power.on = true ∧
    Calm pair ∧
    pair.crews[(0 : Fin 16)].state ≠ CrewState.undefined ∧
    1 ∈ crewPeers pair (0 : Fin 16) ∧
    crewLive pair.crews[(0 : Fin 16)].state = true ∧
    pair.crews[(0 : Fin 16)].p2p = [] ∧
    crewP pair (0 : Fin 16) ≠ 1 ∧
    (routePort formed (rankMid formed (0 : Fin 16) 1) false).isSome = true :=
  ⟨(by decide +kernel),
    (by unfold Calm; decide +kernel),
    (by decide +kernel),
    (by decide +kernel),
    (by decide +kernel),
    (by decide +kernel),
    (by decide +kernel),
    (by decide +kernel),
    (by decide +kernel),
    (by decide +kernel),
    (by decide +kernel),
    (by unfold Calm; decide +kernel),
    (by decide +kernel),
    (by decide +kernel),
    (by decide +kernel),
    (by decide +kernel),
    (by decide +kernel),
    (by decide +kernel),
    (by unfold RankPort; decide +kernel),
    (by unfold RankPort; decide +kernel),
    (by decide +kernel),
    (by unfold Calm; decide +kernel),
    (by decide +kernel),
    (by decide +kernel),
    (by decide +kernel),
    (by decide +kernel),
    (by decide +kernel),
    (by decide +kernel)⟩

theorem hyps_PortsAndLanes :
    dnP.power.on = true ∧
    ctlOk (ctl 3 0 0 1 0 101) = true ∧
    ctType (ctl 3 0 0 1 0 101) = 3 ∧
    dnP.rigger.ports[(2 : Fin 16)].state = PState.down ∧
    bankLit dnP (fin8 (2 / 2 : ℕ)) = true ∧
    (dnP.rigger.ports[(2 : Fin 16)].peer = none ∨ dnP.rigger.ports[(2 : Fin 16)].peer = some (ctVal1 (ctl 3 0 0 1 0 101))) ∧
    dnP.rigger.ports[(2 : Fin 16)].state ≠ PState.up ∧
    dnP.rigger.ports[(2 : Fin 16)].lanes ≠ 0 ∧
    dnP.rigger.banks[fin8 (2 / 2 : ℕ)].waiting = [] ∧
    pair.power.on = true ∧
    pair.rigger.ports[(2 : Fin 16)].state = PState.up ∧
    pair.rigger.ports[(2 : Fin 16)].kept = [] ∧
    pair.rigger.banks[fin8 (2 / 2 : ℕ)].swap = none ∧
    Calm pair ∧
    base.power.on = true ∧
    pair.rigger.lasers[0]? = some laser0 ∧
    laser0.group ≠ 255 ∧
    laser0.ref < 2 * 99000 ∧
    2 * 50000 ≤ laser0.ref ∧
    pair.rigger.lasers[10]? = some laser10 ∧
    laser10.group = 255 ∧
    laser10.failed = false ∧
    (10 = 10 ∨ 10 = 11 ∧ ∀ (y : Laser), pair.rigger.lasers[10]? = some y → y.group ≠ 255 ∨ y.failed = true) ∧
    (∀ (c : Fin 8), pair.rigger.banks[c].swap = none ∧ pair.rigger.banks[c].waiting = []) ∧
    pair.rigger.banks[(1 : Fin 8)].second = BitVec.toNat pair.now / 1000000000 ∧
    (pair.rigger.banks[(1 : Fin 8)].unc.getD 0 0 ≠ 0 ∨ pair.rigger.banks[(1 : Fin 8)].badSecs.getD 0 0 < 2) ∧
    dnP.rigger.banks[fin8 (2 / 2 : ℕ)].waiting = [] ∧
    pair.rigger.banks[fin8 (2 / 2 : ℕ)].waiting = [] ∧
    List.idxOf? ((0 : Fin 9).val) pair.rigger.banks[(1 : Fin 8)].map = some 0 ∧
    pair.rigger.banks[(1 : Fin 8)].swap = none ∧
    0 / 4 < 2 ∧
    fin16 (2 * (1 : Fin 8) + 0 / 4) = (2 : Fin 16) ∧
    pair.rigger.ports[fin16 (2 * (1 : Fin 8) + 0 / 4)].dark.contains (0 % 4) = false ∧
    pair.rigger.ports[fin16 (2 * (1 : Fin 8) + 0 / 4)].skip = [0, 0, 0, 0] ∧
    pair.rigger.ports[fin16 (2 * (1 : Fin 8) + 0 / 4)].lanesIn = [[], [], [], []] ∧
    laneOf pair.rigger.ports[fin16 (2 * (1 : Fin 8) + 0 / 4)] pair.rigger.ports[fin16 (2 * (1 : Fin 8) + 0 / 4)].turn = 0 % 4 ∧
    (∀ i, i < 20 → cwControl (0 : Codeword) i = false ∧ cwSlot (0 : Codeword) i = 0) ∧
    pair.rigger.ports[fin16 (2 * (1 : Fin 8) + 0 / 4)].asm = [] ∧
    cwControl cwAck 0 = true ∧
    ctlOk (cwSlot cwAck 0) = true ∧
    ctType (cwSlot cwAck 0) = 1 ∧
    (∀ i, 0 < i → i < 20 → cwControl cwAck i = false ∧ cwSlot cwAck i = 0) ∧
    pair.rigger.ports[fin16 (2 * (1 : Fin 8) + 0 / 4)].waiting = [] ∧
    (∀ i, i < 19 → cwControl cwData i = false ∧ cwSlot cwData i = 0) ∧
    cwControl cwData 19 = false ∧
    cwSlot cwData 19 ≠ 0 ∧
    pair.rigger.ports[fin16 (2 * (1 : Fin 8) + 0 / 4)].state = PState.up ∧
    1 < slotsFor (pkBody (leBytes 32 (cwSlot cwData 19).toNat)) :=
  ⟨    (by decide +kernel),
    (by decide +kernel),
    (by decide +kernel),
    (by decide +kernel),
    (by decide +kernel),
    (by decide +kernel),
    (by decide +kernel),
    (by decide +kernel),
    (by decide +kernel),
    (by decide +kernel),
    (by decide +kernel),
    (by decide +kernel),
    (by decide +kernel),
    (by unfold Calm; decide +kernel),
    (by decide +kernel),
    (by decide +kernel),
    (by decide +kernel),
    (by decide +kernel),
    (by decide +kernel),
    (by decide +kernel),
    (by decide +kernel),
    (by decide +kernel),
    (by decide +kernel),
    (by decide +kernel),
    (by decide +kernel),
    (by decide +kernel),
    (by decide +kernel),
    (by decide +kernel),
    (by decide +kernel),
    (by decide +kernel),
    (by decide +kernel),
    (by decide +kernel),
    (by decide +kernel),
    (by decide +kernel),
    (by decide +kernel),
    (by decide +kernel),
    (by decide +kernel),
    (by decide +kernel),
    (by decide +kernel),
    (by decide +kernel),
    (by decide +kernel),
    (fun i h k => (show ∀ j, j < 20 → 0 < j → cwControl cwAck j = false ∧ cwSlot cwAck j = 0 by decide +kernel) i k h),
    (by decide +kernel),
    (by decide +kernel),
    (by decide +kernel),
    (by decide +kernel),
    (by decide +kernel),
    (by decide +kernel)⟩

theorem hyps_WordsAndPackets_1 :
    pair.power.on = true ∧
    ctlOk (0 : Ctl) = false ∧
    (Instr.ack (2 : Fin 16) (0 : Ctl) = Instr.ack (2 : Fin 16) (0 : Ctl) ∨ Instr.ack (2 : Fin 16) (0 : Ctl) = Instr.nak (2 : Fin 16) (0 : Ctl) ∨ (∃ (pl : Fin 9) (far : Fibre), Instr.ack (2 : Fin 16) (0 : Ctl) = Instr.align (2 : Fin 16) ⟨⟨pl, far⟩, (0 : Ctl)⟩) ∨ ∃ (l : Fin 4), Instr.ack (2 : Fin 16) (0 : Ctl) = Instr.idle (2 : Fin 16) l (0 : Ctl)) ∧
    keptS.power.on = true ∧
    ctlOk (ctl 1 1 0 0 0 0) = true ∧
    keptS.rigger.ports[(2 : Fin 16)].waiting = [] ∧
    ctlOk (ctl 2 1 2 0 0 0) = true ∧
    ctType (ctl 2 1 2 0 0 0) = 2 ∧
    keptS.rigger.ports[(2 : Fin 16)].state = PState.up ∧
    (∃ x ∈ (tookWord keptS.rigger.ports[(2 : Fin 16)] (ctl 2 1 2 0 0 0)).kept, x.lseq = BitVec.ofNat 24 (ctAux (ctl 2 1 2 0 0 0))) ∧
    keptS.rigger.ports[(2 : Fin 16)].kept = [kept1, kept2] ∧
    keptS.rigger.ports[(2 : Fin 16)].timeouts + 1 < 8 ∧
    (∀ y ∈ [kept2], serialAfter y.lseq kept1.lseq = true) ∧
    owedS.power.on = true ∧
    owedS.rigger.ports[(2 : Fin 16)].state = PState.up ∧
    owedS.rigger.ports[(2 : Fin 16)].ackOwed = true ∧
    pair.rigger.ports[(2 : Fin 16)].state = PState.up ∧
    ownMid pair ≠ 4294967295 ∧
    pkCrcOk (pkt 0 4) = true ∧
    pkLseq (pkt 0 4) = pair.rigger.ports[(2 : Fin 16)].rxSeq ∧
    pkMalformed (pkt 0 4) = false ∧
    pkDst (pkt 0 4) = ownMid pair ∧
    tagCrew pair (pkCtag (pkt 0 4)) = some (0 : Fin 16) ∧
    midRank pair (0 : Fin 16) (pkSrc (pkt 0 4)) = some 1 ∧
    3 ≤ pkType (pkt 0 4) ∧
    pkCrcOk (pkt 16777215 4) = true ∧
    serialAfter pair.rigger.ports[(2 : Fin 16)].rxSeq (pkLseq (pkt 16777215 4)) = true ∧
    pkCrcOk [(1 : Byte), (2 : Byte), (3 : Byte)] = false ∧
    pkCrcOk pktStale = true ∧
    pkLseq pktStale = pair.rigger.ports[(2 : Fin 16)].rxSeq ∧
    pkMalformed pktStale = false ∧
    pkDst pktStale = ownMid pair ∧
    tagCrew pair (pkCtag pktStale) = some (0 : Fin 16) ∧
    midRank pair (0 : Fin 16) (pkSrc pktStale) = some 1 ∧
    3 ≤ pkType pktStale ∧
    pkOfEpoch pair.crews[(0 : Fin 16)].epoch pktStale = false ∧
    pkOfEpoch pair.crews[(0 : Fin 16)].epoch (pkt 0 4) = true :=
  ⟨(by decide +kernel),
    (by decide +kernel),
    (.inl rfl),
    (by decide +kernel),
    (by decide +kernel),
    (by decide +kernel),
    (by decide +kernel),
    (by decide +kernel),
    (by decide +kernel),
    (by decide +kernel),
    (by decide +kernel),
    (by decide +kernel),
    (by decide +kernel),
    (by decide +kernel),
    (by decide +kernel),
    (by decide +kernel),
    (by decide +kernel),
    (by decide +kernel),
    (by decide +kernel),
    (by decide +kernel),
    (by decide +kernel),
    (by decide +kernel),
    (by decide +kernel),
    (by decide +kernel),
    (by decide +kernel),
    (by decide +kernel),
    (by decide +kernel),
    (by decide +kernel),
    (by decide +kernel),
    (by decide +kernel),
    (by decide +kernel),
    (by decide +kernel),
    (by decide +kernel),
    (by decide +kernel),
    (by decide +kernel),
    (by decide +kernel),
    (by decide +kernel)⟩

theorem hyps_WordsAndPackets_2 :
    pair.rigger.ports[(2 : Fin 16)].lastNak = none :=
  (by decide +kernel)

theorem hyps_TimeAndSpares_1 :
    syncS.power.on = true ∧
    ctlOk idleW = true ∧
    ctType idleW = 0 ∧
    syncS.rigger.ports[(2 : Fin 16)].waiting = [] ∧
    (1 : Fin 4) ≠ (0 : Fin 4) ∧
    ctVal1 idleW ≠ 0 ∧
    (takeWord syncS (2 : Fin 16) idleW).rigger.sync.upstream = some (2 : Fin 16) ∧
    (takeWord syncS (2 : Fin 16) idleW).rigger.sync.lockedOnce = true ∧
    (takeWord syncS (2 : Fin 16) idleW).rigger.sync.state ≠ 4 ∧
    ↑(ctVal0 idleW) + (↑(BitVec.toNat syncS.now) - ↑(ctVal1 idleW) - ↑(ctAux idleW) + (1 : ℤ)) / (2 : ℤ) - ↑(BitVec.toNat syncS.now) ≤ (1000000 : ℤ) ∧
    loneS.power.on = true ∧
    loneS.rigger.sync.upstream = none ∧
    loneS.rigger.sync.tdist ≠ 0 ∧
    owedS.power.on = true ∧
    owedS.rigger.ports[(2 : Fin 16)].state ≠ PState.down ∧
    owedS.rigger.ports[(2 : Fin 16)].lastIdle = some ((50 : U64), (60 : U64)) ∧
    pair.power.on = true ∧
    pair.rigger.banks[(1 : Fin 8)].spare = some 8 ∧
    pair.rigger.banks[(1 : Fin 8)].miscabled = false ∧
    pair.rigger.banks[(1 : Fin 8)].swap = none ∧
    sparePort pair (1 : Fin 8) = some (2 : Fin 16) ∧
    SpareWord pair (1 : Fin 8) (2 : Fin 16) (ctl 4 0 3 1 0 8) 1 ∧
    ctAux (ctl 4 0 3 1 0 8) < 8 ∧
    ctVal1 (ctl 4 0 3 1 0 8) = 8 ∧
    (swS true 1 false).power.on = true ∧
    (swS true 1 false).rigger.banks[(1 : Fin 8)].swap = some (swp true 1 false) ∧
    SpareWord (swS true 1 false) (1 : Fin 8) (2 : Fin 16) (ctl 4 0 3 2 0 8) 2 ∧
    (swp true 1 false).lane = ctAux (ctl 4 0 3 2 0 8) ∧
    owedS.rigger.ports[(2 : Fin 16)].dark.contains (0 : Fin 4).val = false ∧
    alignDue owedS (2 : Fin 16) 0 = false ∧
    alignDue lateA (2 : Fin 16) 0 = true ∧
    lateA.power.on = true ∧
    lateA.rigger.ports[(2 : Fin 16)].state ≠ PState.down ∧
    lateA.rigger.ports[(2 : Fin 16)].dark.contains (0 : Fin 4).val = false ∧
    lateA.rigger.ports[(2 : Fin 16)].lastIdle = some ((50 : U64), (60 : U64)) :=
  ⟨(by decide +kernel),
    (by decide +kernel),
    (by decide +kernel),
    (by decide +kernel),
    (by decide +kernel),
    (by decide +kernel),
    (by decide +kernel),
    (by decide +kernel),
    (by decide +kernel),
    (by decide +kernel),
    (by decide +kernel),
    (by decide +kernel),
    (by decide +kernel),
    (by decide +kernel),
    (by decide +kernel),
    (by decide +kernel),
    (by decide +kernel),
    (by decide +kernel),
    (by decide +kernel),
    (by decide +kernel),
    (by decide +kernel),
    ⟨(by decide +kernel), (by decide +kernel), (by decide +kernel), (by decide +kernel), (by decide +kernel)⟩,
    (by decide +kernel),
    (by decide +kernel),
    (by decide +kernel),
    (by decide +kernel),
    ⟨(by decide +kernel), (by decide +kernel), (by decide +kernel), (by decide +kernel), (by decide +kernel)⟩,
    (by decide +kernel),
    (by decide +kernel),
    (by decide +kernel),
    (by decide +kernel),
    (by decide +kernel),
    (by decide +kernel),
    (by decide +kernel),
    (by decide +kernel)⟩

theorem hyps_TimeAndSpares_2 :
    (swp true 1 false).initiator = true ∧
    (swp true 1 false).phase = 1 ∧
    swTwoS.power.on = true ∧
    swTwoS.rigger.banks[(1 : Fin 8)].swap = some swTwo ∧
    SpareWord swTwoS (1 : Fin 8) (2 : Fin 16) (ctl 4 0 3 3 0 8) 3 ∧
    swTwo.lane = ctAux (ctl 4 0 3 3 0 8) ∧
    swTwo.initiator = false ∧
    swTwo.phase = 2 ∧
    swTwo.peerDone = false ∧
    (swS true 3 false).power.on = true ∧
    (swS true 3 false).rigger.banks[(1 : Fin 8)].swap = some (swp true 3 false) ∧
    SpareWord (swS true 3 false) (1 : Fin 8) (2 : Fin 16) (ctl 4 0 3 4 0 8) 4 ∧
    (swp true 3 false).lane = ctAux (ctl 4 0 3 4 0 8) ∧
    (swp true 3 false).phase = 3 ∧
    (swS true 3 false).rigger.banks[(1 : Fin 8)].waiting = [] ∧
    SpareWord (swS true 3 false) (1 : Fin 8) (2 : Fin 16) (ctl 4 0 3 5 0 8) 5 ∧
    (swp true 3 false).lane = ctAux (ctl 4 0 3 5 0 8) ∧
    sparePort (swS true 3 false) (1 : Fin 8) = some (2 : Fin 16) ∧
    (swS true 3 true).power.on = true ∧
    (swS true 3 true).rigger.banks[(1 : Fin 8)].swap = some (swp true 3 true) ∧
    SpareWord (swS true 3 true) (1 : Fin 8) (2 : Fin 16) (ctl 4 0 3 4 0 8) 4 ∧
    (swp true 3 true).lane = ctAux (ctl 4 0 3 4 0 8) ∧
    (swp true 3 true).phase = 3 ∧
    (swS true 3 true).rigger.banks[(1 : Fin 8)].waiting = [] ∧
    (swp true 3 true).myDone = true ∧
    (swp true 3 false).myDone = false ∧
    dblS.power.on = true ∧
    dblS.rigger.banks[(1 : Fin 8)].swap = some dbl ∧
    sparePort dblS (1 : Fin 8) = some (2 : Fin 16) ∧
    dblS.rigger.banks[(1 : Fin 8)].second = BitVec.toNat dblS.now / 1000000000 ∧
    (8 : Fin 9).val = dbl.spare ∧
    List.idxOf? (8 : Fin 9).val dblS.rigger.banks[(1 : Fin 8)].map = none ∧
    dbl.phase = 3 ∧
    dbl.myDone = false ∧
    dbl.peerDone = false ∧
    dbl.old = [dblCode] ∧
    dbl.new = [] ∧
    dblCode.word = some 5 ∧
    dbl.same = 1023 :=
  ⟨(by decide +kernel),
    (by decide +kernel),
    (by decide +kernel),
    (by decide +kernel),
    ⟨(by decide +kernel), (by decide +kernel), (by decide +kernel), (by decide +kernel), (by decide +kernel)⟩,
    (by decide +kernel),
    (by decide +kernel),
    (by decide +kernel),
    (by decide +kernel),
    (by decide +kernel),
    (by decide +kernel),
    ⟨(by decide +kernel), (by decide +kernel), (by decide +kernel), (by decide +kernel), (by decide +kernel)⟩,
    (by decide +kernel),
    (by decide +kernel),
    (by decide +kernel),
    ⟨(by decide +kernel), (by decide +kernel), (by decide +kernel), (by decide +kernel), (by decide +kernel)⟩,
    (by decide +kernel),
    (by decide +kernel),
    (by decide +kernel),
    (by decide +kernel),
    ⟨(by decide +kernel), (by decide +kernel), (by decide +kernel), (by decide +kernel), (by decide +kernel)⟩,
    (by decide +kernel),
    (by decide +kernel),
    (by decide +kernel),
    (by decide +kernel),
    (by decide +kernel),
    (by decide +kernel),
    (by decide +kernel),
    (by decide +kernel),
    (by decide +kernel),
    (by decide +kernel),
    (by decide +kernel),
    (by decide +kernel),
    (by decide +kernel),
    (by decide +kernel),
    (by decide +kernel),
    (by decide +kernel),
    (by decide +kernel),
    (by decide +kernel)⟩

theorem hyps_CoxCommandsRun :
    CoxMay coxS who (0 : Fin 16) (0 : Fin 8) att0 core0 updW ∧
    (fld updW 7 0 = 97 ∧ Instr.update who updW = Instr.update who updW ∧ findFeeder (bookIssue coxS (0 : Fin 16) who core0) (0 : Fin 8) (coreIssuer (0 : Fin 16) att0 core0) (cxGrad updW) (gradBytes (coxCmd coxS (0 : Fin 8) (0 : Fin 16) att0 updW (coxSrc att0 updW) (coreIssuer (0 : Fin 16) att0 core0)).desc updW) = none ∨ fld updW 7 0 = 99 ∧ Instr.update who updW = Instr.apply who updW ∧ cxSkip updW = false) ∧
    ldRule (coxCmd coxS (0 : Fin 8) (0 : Fin 16) att0 updW (coxSrc att0 updW) (coreIssuer (0 : Fin 16) att0 core0)).desc < 2 ∧
    ldEmbed (coxCmd coxS (0 : Fin 8) (0 : Fin 16) att0 updW (coxSrc att0 updW) (coreIssuer (0 : Fin 16) att0 core0)).desc = false ∧
    gradBytes (coxCmd coxS (0 : Fin 8) (0 : Fin 16) att0 updW (coxSrc att0 updW) (coreIssuer (0 : Fin 16) att0 core0)).desc (coxCmd coxS (0 : Fin 8) (0 : Fin 16) att0 updW (coxSrc att0 updW) (coreIssuer (0 : Fin 16) att0 core0)).src ≤ 65536 ∧
    coxUe (coxQueued coxS who (0 : Fin 16) (0 : Fin 8) core0 (coxCmd coxS (0 : Fin 8) (0 : Fin 16) att0 updW (coxSrc att0 updW) (coreIssuer (0 : Fin 16) att0 core0))) (0 : Fin 8) (coxCmd coxS (0 : Fin 8) (0 : Fin 16) att0 updW (coxSrc att0 updW) (coreIssuer (0 : Fin 16) att0 core0)).src 0 (gradBytes (coxCmd coxS (0 : Fin 8) (0 : Fin 16) att0 updW (coxSrc att0 updW) (coreIssuer (0 : Fin 16) att0 core0)).desc (coxCmd coxS (0 : Fin 8) (0 : Fin 16) att0 updW (coxSrc att0 updW) (coreIssuer (0 : Fin 16) att0 core0)).src) (denseRange (coxQueued coxS who (0 : Fin 16) (0 : Fin 8) core0 (coxCmd coxS (0 : Fin 8) (0 : Fin 16) att0 updW (coxSrc att0 updW) (coreIssuer (0 : Fin 16) att0 core0))) (0 : Fin 8) (coxCmd coxS (0 : Fin 8) (0 : Fin 16) att0 updW (coxSrc att0 updW) (coreIssuer (0 : Fin 16) att0 core0)) 0 (gradRows (coxCmd coxS (0 : Fin 8) (0 : Fin 16) att0 updW (coxSrc att0 updW) (coreIssuer (0 : Fin 16) att0 core0)).desc (coxCmd coxS (0 : Fin 8) (0 : Fin 16) att0 updW (coxSrc att0 updW) (coreIssuer (0 : Fin 16) att0 core0)).src * ldCols (coxCmd coxS (0 : Fin 8) (0 : Fin 16) att0 updW (coxSrc att0 updW) (coreIssuer (0 : Fin 16) att0 core0)).desc)).1 ((denseRange (coxQueued coxS who (0 : Fin 16) (0 : Fin 8) core0 (coxCmd coxS (0 : Fin 8) (0 : Fin 16) att0 updW (coxSrc att0 updW) (coreIssuer (0 : Fin 16) att0 core0))) (0 : Fin 8) (coxCmd coxS (0 : Fin 8) (0 : Fin 16) att0 updW (coxSrc att0 updW) (coreIssuer (0 : Fin 16) att0 core0)) 0 (gradRows (coxCmd coxS (0 : Fin 8) (0 : Fin 16) att0 updW (coxSrc att0 updW) (coreIssuer (0 : Fin 16) att0 core0)).desc (coxCmd coxS (0 : Fin 8) (0 : Fin 16) att0 updW (coxSrc att0 updW) (coreIssuer (0 : Fin 16) att0 core0)).src * ldCols (coxCmd coxS (0 : Fin 8) (0 : Fin 16) att0 updW (coxSrc att0 updW) (coreIssuer (0 : Fin 16) att0 core0)).desc)).2.1.map (·.1)) = none ∧
    CoxMay coxH who (0 : Fin 16) (0 : Fin 8) attH core0 (appW 0) ∧
    (fld (appW 0) 7 0 = 97 ∧ Instr.apply who (appW 0) = Instr.update who (appW 0) ∧ findFeeder (bookIssue coxH (0 : Fin 16) who core0) (0 : Fin 8) (coreIssuer (0 : Fin 16) attH core0) (cxGrad (appW 0)) (gradBytes (coxCmd coxH (0 : Fin 8) (0 : Fin 16) attH (appW 0) (coxSrc attH (appW 0)) (coreIssuer (0 : Fin 16) attH core0)).desc (appW 0)) = none ∨ fld (appW 0) 7 0 = 99 ∧ Instr.apply who (appW 0) = Instr.apply who (appW 0) ∧ cxSkip (appW 0) = false) ∧
    ldRule (coxCmd coxH (0 : Fin 8) (0 : Fin 16) attH (appW 0) (coxSrc attH (appW 0)) (coreIssuer (0 : Fin 16) attH core0)).desc < 2 ∧
    ldEmbed (coxCmd coxH (0 : Fin 8) (0 : Fin 16) attH (appW 0) (coxSrc attH (appW 0)) (coreIssuer (0 : Fin 16) attH core0)).desc = false ∧
    gradBytes (coxCmd coxH (0 : Fin 8) (0 : Fin 16) attH (appW 0) (coxSrc attH (appW 0)) (coreIssuer (0 : Fin 16) attH core0)).desc (coxCmd coxH (0 : Fin 8) (0 : Fin 16) attH (appW 0) (coxSrc attH (appW 0)) (coreIssuer (0 : Fin 16) attH core0)).src ≤ 65536 ∧
    coxUe (coxQueued coxH who (0 : Fin 16) (0 : Fin 8) core0 (coxCmd coxH (0 : Fin 8) (0 : Fin 16) attH (appW 0) (coxSrc attH (appW 0)) (coreIssuer (0 : Fin 16) attH core0))) (0 : Fin 8) (coxCmd coxH (0 : Fin 8) (0 : Fin 16) attH (appW 0) (coxSrc attH (appW 0)) (coreIssuer (0 : Fin 16) attH core0)).src 0 (gradBytes (coxCmd coxH (0 : Fin 8) (0 : Fin 16) attH (appW 0) (coxSrc attH (appW 0)) (coreIssuer (0 : Fin 16) attH core0)).desc (coxCmd coxH (0 : Fin 8) (0 : Fin 16) attH (appW 0) (coxSrc attH (appW 0)) (coreIssuer (0 : Fin 16) attH core0)).src) (denseRange (coxQueued coxH who (0 : Fin 16) (0 : Fin 8) core0 (coxCmd coxH (0 : Fin 8) (0 : Fin 16) attH (appW 0) (coxSrc attH (appW 0)) (coreIssuer (0 : Fin 16) attH core0))) (0 : Fin 8) (coxCmd coxH (0 : Fin 8) (0 : Fin 16) attH (appW 0) (coxSrc attH (appW 0)) (coreIssuer (0 : Fin 16) attH core0)) 0 (gradRows (coxCmd coxH (0 : Fin 8) (0 : Fin 16) attH (appW 0) (coxSrc attH (appW 0)) (coreIssuer (0 : Fin 16) attH core0)).desc (coxCmd coxH (0 : Fin 8) (0 : Fin 16) attH (appW 0) (coxSrc attH (appW 0)) (coreIssuer (0 : Fin 16) attH core0)).src * ldCols (coxCmd coxH (0 : Fin 8) (0 : Fin 16) attH (appW 0) (coxSrc attH (appW 0)) (coreIssuer (0 : Fin 16) attH core0)).desc)).1 ((denseRange (coxQueued coxH who (0 : Fin 16) (0 : Fin 8) core0 (coxCmd coxH (0 : Fin 8) (0 : Fin 16) attH (appW 0) (coxSrc attH (appW 0)) (coreIssuer (0 : Fin 16) attH core0))) (0 : Fin 8) (coxCmd coxH (0 : Fin 8) (0 : Fin 16) attH (appW 0) (coxSrc attH (appW 0)) (coreIssuer (0 : Fin 16) attH core0)) 0 (gradRows (coxCmd coxH (0 : Fin 8) (0 : Fin 16) attH (appW 0) (coxSrc attH (appW 0)) (coreIssuer (0 : Fin 16) attH core0)).desc (coxCmd coxH (0 : Fin 8) (0 : Fin 16) attH (appW 0) (coxSrc attH (appW 0)) (coreIssuer (0 : Fin 16) attH core0)).src * ldCols (coxCmd coxH (0 : Fin 8) (0 : Fin 16) attH (appW 0) (coxSrc attH (appW 0)) (coreIssuer (0 : Fin 16) attH core0)).desc)).2.1.map (·.1)) = none ∧
    CoxMay coxS who (0 : Fin 16) (0 : Fin 8) att0 core0 holdW ∧
    fld holdW 7 0 = 98 ∧
    findFeeder (bookIssue coxS (0 : Fin 16) who core0) (0 : Fin 8) (coreIssuer (0 : Fin 16) att0 core0) (cxGrad holdW) (gradBytes (coxCmd coxS (0 : Fin 8) (0 : Fin 16) att0 holdW (coxSrc att0 holdW) (coreIssuer (0 : Fin 16) att0 core0)).desc holdW) = none ∧
    coxUe (coxQueued coxS who (0 : Fin 16) (0 : Fin 8) core0 (coxCmd coxS (0 : Fin 8) (0 : Fin 16) att0 holdW (coxSrc att0 holdW) (coreIssuer (0 : Fin 16) att0 core0))) (0 : Fin 8) holdW 0 (gradBytes (coxCmd coxS (0 : Fin 8) (0 : Fin 16) att0 holdW (coxSrc att0 holdW) (coreIssuer (0 : Fin 16) att0 core0)).desc holdW) [] [] = none ∧
    CoxMay coxH who (0 : Fin 16) (0 : Fin 8) attH core0 (appW 1) ∧
    fld (appW 1) 7 0 = 99 ∧
    cxSkip (appW 1) = true :=
  ⟨⟨⟨(by decide +kernel), (by unfold Calm; decide +kernel), (by decide +kernel), (by decide +kernel), (by decide +kernel)⟩, (by decide +kernel), (by decide +kernel), (by decide +kernel)⟩,
    (by decide +kernel),
    (by decide +kernel),
    (by decide +kernel),
    (by decide +kernel),
    (by decide +kernel),
    ⟨⟨(by decide +kernel), (by unfold Calm; decide +kernel), (by decide +kernel), (by decide +kernel), (by decide +kernel)⟩, (by decide +kernel), (by decide +kernel), (by decide +kernel)⟩,
    (by decide +kernel),
    (by decide +kernel),
    (by decide +kernel),
    (by decide +kernel),
    (by decide +kernel),
    ⟨⟨(by decide +kernel), (by unfold Calm; decide +kernel), (by decide +kernel), (by decide +kernel), (by decide +kernel)⟩, (by decide +kernel), (by decide +kernel), (by decide +kernel)⟩,
    (by decide +kernel),
    (by decide +kernel),
    (by decide +kernel),
    ⟨⟨(by decide +kernel), (by unfold Calm; decide +kernel), (by decide +kernel), (by decide +kernel), (by decide +kernel)⟩, (by decide +kernel), (by decide +kernel), (by decide +kernel)⟩,
    (by decide +kernel),
    (by decide +kernel)⟩

theorem hyps_CoxLayersAndWindow_1 :
    fed.power.on = true ∧
    Operates fed (0 : Fin 16) [fedOp] ∧
    fedOp.num = 1 ∧
    fedOp.complete = true ∧
    fedOp.retired = false ∧
    fedOp.failed = false ∧
    fed.cox[(0 : Fin 8)].cmds = [feederX] ∧
    feederX.run = false ∧
    feederX.feeder = some ((0 : Fin 16), 1) ∧
    cxOp feederX.word = 98 ∧
    layerPinned fed.crews[feederX.crew] (strokeNum fed feederX.crew) feederX.layer = false ∧
    coxUe fed (0 : Fin 8) feederX.src 0 (gradBytes feederX.desc feederX.src) [] [] = none ∧
    coxFinS.power.on = true ∧
    Calm coxFinS ∧
    (∀ x ∈ coxFinS.cox[(0 : Fin 8)].cmds, x.run = true) ∧
    coxFinS.cox[(0 : Fin 8)].cmds = [coxFin] ∧
    coxFin.run = true ∧
    coxFin.feeder = none ∧
    coxFin.res.cls ≠ Cls.rejected ∧
    coxFin.iss = Issuer.core (0 : Fin 16) att0.number (0 : Fin 4) (0 : Fin 8) 1 ∧
    coxFinS.crews[(0 : Fin 16)].attempt = some att0 ∧
    crewOwner coxFinS (0 : Fin 16) = some (0 : Fin 8) ∧
    dirtyS.power.on = true ∧
    actorPart (actorOf dirtyS (Req.fn (1 : Fin 9))) = some (0 : Fin 8) ∧
    MayWrite dirtyS (Req.fn (1 : Fin 9)) 29440 (145 + 0) (wordBytes (0 : BitVec 32)) 3 ∧
    BitVec.toNat (0 : BitVec 32) < layerCount dirtyS (0 : Fin 8) ∧
    formC.power.on = true ∧
    MayWrite formC (Req.fn (1 : Fin 9)) (crewIdx (0 : Fin 16)) 66 (leBytes 8 5 ++ leBytes 64 9) 3 ∧
    coxFinS.pointing.laneTests = [] :=
  ⟨(by decide +kernel),
    ⟨(by decide +kernel), (by decide +kernel), (by decide +kernel), (by decide +kernel), alive_of (by decide +kernel), (by decide +kernel), (by decide +kernel)⟩,
    (by decide +kernel),
    (by decide +kernel),
    (by decide +kernel),
    (by decide +kernel),
    (by decide +kernel),
    (by decide +kernel),
    (by decide +kernel),
    (by decide +kernel),
    (by decide +kernel),
    (by decide +kernel),
    (by decide +kernel),
    (by unfold Calm; decide +kernel),
    (by decide +kernel),
    (by decide +kernel),
    (by decide +kernel),
    (by decide +kernel),
    (by decide +kernel),
    (by decide +kernel),
    (by decide +kernel),
    (by decide +kernel),
    (by decide +kernel),
    (by decide +kernel),
    ⟨(by decide +kernel), (by decide +kernel), (by decide +kernel), rfl, (by decide +kernel), (by decide +kernel), exists_of_any (by decide +kernel), (by decide +kernel)⟩,
    (by decide +kernel),
    (by decide +kernel),
    ⟨(by decide +kernel), (by decide +kernel), (by decide +kernel), rfl, (by decide +kernel), (by decide +kernel), exists_of_any (by decide +kernel), (by decide +kernel)⟩,
    (by decide +kernel)⟩

theorem hyps_CoxLayersAndWindow_2 :
    crewOwner formC (0 : Fin 16) = some (0 : Fin 8) ∧
    (formC.crews[(0 : Fin 16)].state = CrewState.forming ∨ formC.crews[(0 : Fin 16)].state = CrewState.test) ∧
    strokeRuns formC (0 : Fin 16) = false ∧
    formC.crews[(0 : Fin 16)].rejoin ≠ 2 ∧
    (leBytes 8 5 ++ leBytes 64 9).length = 8 + 64 * layerCount formC (0 : Fin 8) ∧
    (copying 1).power.on = true ∧
    crewOwner (copying 1) (0 : Fin 16) = some (0 : Fin 8) ∧
    (copying 1).crews[(0 : Fin 16)].rejoin = 1 ∧
    (copying 1).crews[(0 : Fin 16)].attempt = none ∧
    0 = (copying 1).crews[(0 : Fin 16)].copyNext ∧
    0 < layerCount (copying 1) (0 : Fin 8) ∧
    (¬(ldRule (layerDesc (copying 1) (0 : Fin 8) 0) = ldRule (0 : BitVec 1024) ∧ ldRows (layerDesc (copying 1) (0 : Fin 8) 0) = ldRows (0 : BitVec 1024) ∧ ldCols (layerDesc (copying 1) (0 : Fin 8) 0) = ldCols (0 : BitVec 1024) ∧ ldPfmt (layerDesc (copying 1) (0 : Fin 8) 0) = ldPfmt (0 : BitVec 1024))) ∧
    (copying 2).power.on = true ∧
    crewOwner (copying 2) (0 : Fin 16) = some (0 : Fin 8) ∧
    (copying 2).crews[(0 : Fin 16)].rejoin = 1 ∧
    (copying 2).crews[(0 : Fin 16)].attempt = none ∧
    0 = (copying 2).crews[(0 : Fin 16)].copyNext ∧
    0 < layerCount (copying 2) (0 : Fin 8) ∧
    (ldRule (layerDesc (copying 2) (0 : Fin 8) 0) = ldRule layer9 ∧ ldRows (layerDesc (copying 2) (0 : Fin 8) 0) = ldRows layer9 ∧ ldCols (layerDesc (copying 2) (0 : Fin 8) 0) = ldCols layer9 ∧ ldPfmt (layerDesc (copying 2) (0 : Fin 8) 0) = ldPfmt layer9) ∧
    0 + 1 < layerCount (copying 2) (0 : Fin 8) :=
  ⟨(by decide +kernel),
    (by decide +kernel),
    (by decide +kernel),
    (by decide +kernel),
    (by decide +kernel),
    (by decide +kernel),
    (by decide +kernel),
    (by decide +kernel),
    (by decide +kernel),
    (by decide +kernel),
    (by decide +kernel),
    (by decide +kernel),
    (by decide +kernel),
    (by decide +kernel),
    (by decide +kernel),
    (by decide +kernel),
    (by decide +kernel),
    (by decide +kernel),
    (by decide +kernel),
    (by decide +kernel)⟩

theorem hyps_VotesAndCuts_1 :
    FinMay (member 2 0) (0 : Fin 16) h1 ∧
    vb.level ∈ levelsIn (crewG (member 2 0) (0 : Fin 16)) ∧
    vb.sender ∈ peersAt (crewG (member 2 0) (0 : Fin 16)) (myRank (member 2 0) (0 : Fin 16)) vb.level ∧
    (∀ l ∈ levelsIn (crewG (member 2 0) (0 : Fin 16)), l ≤ vb.level → digit (crewG (member 2 0) (0 : Fin 16)) (myRank (member 2 0) (0 : Fin 16)) l = 0) ∧
    (∀ v ∈ (member 2 0).crews[(0 : Fin 16)].votes, ¬(v.1 = h1.stroke ∧ v.2.1 = BitVec.toNat h1.attempt ∧ v.2.2.level = vb.level ∧ v.2.2.sender = vb.sender)) ∧
    (finCurrent (member 2 0) (0 : Fin 16) h1 = true ∧ (member 2 0).crews[(0 : Fin 16)].fin ≠ FinState.voting ∨ finFuture (member 2 0) (0 : Fin 16) h1 = true ∧ finCurrent (member 2 0) (0 : Fin 16) h1 = false) ∧
    FinMay (member 2 0) (0 : Fin 16) h2 ∧
    1 ∈ group0 (member 2 0) (0 : Fin 16) ∧
    leader0 (member 2 0) (0 : Fin 16) = myRank (member 2 0) (0 : Fin 16) ∧
    finCurrent (member 2 0) (0 : Fin 16) h2 = false ∧
    finFuture (member 2 0) (0 : Fin 16) h2 = true ∧
    FinMay (member 3 0) (0 : Fin 16) h1 ∧
    1 ∈ group0 (member 3 0) (0 : Fin 16) ∧
    leader0 (member 3 0) (0 : Fin 16) = myRank (member 3 0) (0 : Fin 16) ∧
    finCurrent (member 3 0) (0 : Fin 16) h1 = true ∧
    1 ∉ (member 3 0).crews[(0 : Fin 16)].cut.arrived ∧
    (member 3 0).crews[(0 : Fin 16)].cut.entries = none ∧
    replayCut (member 3 0) (0 : Fin 16) = none ∧
    (∃ m ∈ group0 (member 3 0) (0 : Fin 16), m ≠ 1 ∧ m ∉ (member 3 0).crews[(0 : Fin 16)].cut.arrived) ∧
    FinMay (member 2 1) (0 : Fin 16) h1 ∧
    leader0 (member 2 1) (0 : Fin 16) ≠ myRank (member 2 1) (0 : Fin 16) ∧
    finCurrent (member 2 1) (0 : Fin 16) h1 = true ∧
    (member 2 1).crews[(0 : Fin 16)].cut.entries = none ∧
    FinMay (member 2 1) (0 : Fin 16) h2 ∧
    finCurrent (member 2 1) (0 : Fin 16) h2 = false ∧
    finFuture (member 2 1) (0 : Fin 16) h2 = true ∧
    strag.power.on = true ∧
    Calm strag :=
  ⟨⟨(by decide +kernel), (by unfold Calm; decide +kernel), (by decide +kernel), (by decide +kernel), (by decide +kernel)⟩,
    (by decide +kernel),
    (by decide +kernel),
    (by decide +kernel),
    (by decide +kernel),
    (by decide +kernel),
    ⟨(by decide +kernel), (by unfold Calm; decide +kernel), (by decide +kernel), (by decide +kernel), (by decide +kernel)⟩,
    (by decide +kernel),
    (by decide +kernel),
    (by decide +kernel),
    (by decide +kernel),
    ⟨(by decide +kernel), (by unfold Calm; decide +kernel), (by decide +kernel), (by decide +kernel), (by decide +kernel)⟩,
    (by decide +kernel),
    (by decide +kernel),
    (by decide +kernel),
    (by decide +kernel),
    (by decide +kernel),
    (by decide +kernel),
    (by decide +kernel),
    ⟨(by decide +kernel), (by unfold Calm; decide +kernel), (by decide +kernel), (by decide +kernel), (by decide +kernel)⟩,
    (by decide +kernel),
    (by decide +kernel),
    (by decide +kernel),
    ⟨(by decide +kernel), (by unfold Calm; decide +kernel), (by decide +kernel), (by decide +kernel), (by decide +kernel)⟩,
    (by decide +kernel),
    (by decide +kernel),
    (by decide +kernel),
    (by unfold Calm; decide +kernel)⟩

theorem hyps_VotesAndCuts_2 :
    strag.crews[(0 : Fin 16)].attempt = some att0 ∧
    strag.crews[(0 : Fin 16)].cut.first = some (5 : U64) ∧
    strag.crews[(0 : Fin 16)].cut.entries = none ∧
    leader0 strag (0 : Fin 16) = myRank strag (0 : Fin 16) ∧
    stragglerPolicy strag (0 : Fin 16) ≠ 0 ∧
    replayEntries strag (0 : Fin 16) = none ∧
    List.filter (fun (m : ℕ) => decide (m ≠ myRank strag (0 : Fin 16))) (group0 strag (0 : Fin 16)) = [1] ∧
    RankPort strag (0 : Fin 16) 1 (2 : Fin 16) (finPacketOf strag (0 : Fin 16) 1 18 (strokeNum strag (0 : Fin 16)).toNat att0.number strag.crews[(0 : Fin 16)].term.toNat (leBytes 4 (myRank strag (0 : Fin 16)) ++ leBytes 4 (List.map (fun (r : ℕ) => lateEntry (stragglerPolicy strag (0 : Fin 16)) r 0 0) (List.filter (fun (r : ℕ) => !strag.crews[(0 : Fin 16)].cut.arrived.contains r) (group0 strag (0 : Fin 16)))).length ++ List.flatMap wordBytes (List.map (fun (r : ℕ) => lateEntry (stragglerPolicy strag (0 : Fin 16)) r 0 0) (List.filter (fun (r : ℕ) => !strag.crews[(0 : Fin 16)].cut.arrived.contains r) (group0 strag (0 : Fin 16)))))) :=
  ⟨(by decide +kernel),
    (by decide +kernel),
    (by decide +kernel),
    (by decide +kernel),
    (by decide +kernel),
    (by decide +kernel),
    (by decide +kernel),
    (by unfold RankPort; decide +kernel)⟩

theorem hyps_DecisionsAreHeld_1 :
    FinMay (member 2 1) (0 : Fin 16) h1 ∧
    myRank (member 2 1) (0 : Fin 16) = 1 ∧
    (1 : Byte) ≠ (0 : Byte) ∧
    RankPort (member 2 1) (0 : Fin 16) 0 (2 : Fin 16) (finPacketOf (member 2 1) (0 : Fin 16) 0 35 h1.stroke.toNat (BitVec.toNat h1.attempt) h1.term.toNat ([(1 : Byte), (0 : Byte)] ++ leBytes 2 0 ++ wordBytes (3 : BitVec 64))) ∧
    Waiting loggedS (0 : Fin 16) (0 : Fin 8) aV voteW h1 ∧
    myRank loggedS (0 : Fin 16) = 0 ∧
    loggedS.crews[(0 : Fin 16)].logged = some dec1 ∧
    dec1.stroke = h1.stroke ∧
    dec1.attempt = BitVec.toNat h1.attempt ∧
    dec1.term = h1.term ∧
    dec1.decision = BitVec.toNat (1 : Byte) ∧
    dec1.cause = BitVec.toNat (0 : Byte) ∧
    dec1.incl = (3 : BitVec 64) ∧
    Waiting (waitS FinState.unresolved 1) (0 : Fin 16) (0 : Fin 8) aV voteW h1 ∧
    (db (2 : Byte)).decision ≠ (0 : Byte) ∧
    FinMay heldS (0 : Fin 16) h1 ∧
    heldDecision heldS (0 : Fin 16) h1.stroke (BitVec.toNat h1.attempt) = some dec1 ∧
    RankPort heldS (0 : Fin 16) 0 (2 : Fin 16) (finPacketOf heldS (0 : Fin 16) 0 36 dec1.stroke.toNat dec1.attempt heldS.crews[(0 : Fin 16)].term.toNat (decBytes dec1)) ∧
    heldDecision (member 2 1) (0 : Fin 16) h1.stroke (BitVec.toNat h1.attempt) = none ∧
    combinerOf (member 2 1) (0 : Fin 16) = some 0 ∧
    RankPort (member 2 1) (0 : Fin 16) 0 (2 : Fin 16) (finPacketOf (member 2 1) (0 : Fin 16) 0 37 h1.stroke.toNat (BitVec.toNat h1.attempt) (member 2 1).crews[(0 : Fin 16)].term.toNat (leBytes 4 (myRank (member 2 1) (0 : Fin 16)))) ∧
    (waitS FinState.voting 1).power.on = true ∧
    (waitS FinState.voting 1).crews[(0 : Fin 16)].attempt = some aV ∧
    combinerOf (waitS FinState.voting 1) (0 : Fin 16) = some 0 ∧
    (waitS FinState.voting 1).crews[(0 : Fin 16)].fin = FinState.voting ∧
    RankPort (waitS FinState.voting 1) (0 : Fin 16) 0 (2 : Fin 16) (finPacketOf (waitS FinState.voting 1) (0 : Fin 16) 0 37 (strokeNum (waitS FinState.voting 1) (0 : Fin 16)).toNat aV.number (waitS FinState.voting 1).crews[(0 : Fin 16)].term.toNat (leBytes 4 (myRank (waitS FinState.voting 1) (0 : Fin 16)))) ∧
    unres.power.on = true ∧
    (∀ (d : Fin 16), d ≠ (0 : Fin 16) → crewCalm unres.crews[d] = true) :=
  ⟨⟨(by decide +kernel), (by unfold Calm; decide +kernel), (by decide +kernel), (by decide +kernel), (by decide +kernel)⟩,
    (by decide +kernel),
    (by decide +kernel),
    (by unfold RankPort; decide +kernel),
    ⟨(by decide +kernel), (by decide +kernel), (by decide +kernel), (by decide +kernel), (by decide +kernel), (by decide +kernel), (by decide +kernel), (by decide +kernel), (by decide +kernel), (by decide +kernel), ⟨0, 0, 1, by decide +kernel⟩, (by decide +kernel), (by decide +kernel), (by decide +kernel), (by decide +kernel)⟩,
    (by decide +kernel),
    (by decide +kernel),
    (by decide +kernel),
    (by decide +kernel),
    (by decide +kernel),
    (by decide +kernel),
    (by decide +kernel),
    (by decide +kernel),
    ⟨(by decide +kernel), (by decide +kernel), (by decide +kernel), (by decide +kernel), (by decide +kernel), (by decide +kernel), (by decide +kernel), (by decide +kernel), (by decide +kernel), (by decide +kernel), ⟨0, 0, 1, by decide +kernel⟩, (by decide +kernel), (by decide +kernel), (by decide +kernel), (by decide +kernel)⟩,
    (by decide +kernel),
    ⟨(by decide +kernel), (by unfold Calm; decide +kernel), (by decide +kernel), (by decide +kernel), (by decide +kernel)⟩,
    (by decide +kernel),
    (by unfold RankPort; decide +kernel),
    (by decide +kernel),
    (by decide +kernel),
    (by unfold RankPort; decide +kernel),
    (by decide +kernel),
    (by decide +kernel),
    (by decide +kernel),
    (by decide +kernel),
    (by unfold RankPort; decide +kernel),
    (by decide +kernel),
    (by decide +kernel)⟩

theorem hyps_DecisionsAreHeld_2 :
    (∀ (f : Fin 9), unres.host.funcs[f].collWrites = [] ∧ unres.host.funcs[f].handleWrites = []) ∧
    unres.crews[(0 : Fin 16)].ops = [] ∧
    unres.crews[(0 : Fin 16)].waiting = [] ∧
    unres.crews[(0 : Fin 16)].attempt = some att0 ∧
    att0.ended = false ∧
    att0.voteCmd = none ∧
    unres.crews[(0 : Fin 16)].launch.isSome = true ∧
    unres.crews[(0 : Fin 16)].state = CrewState.recovering ∧
    unres.crews[(0 : Fin 16)].fin = FinState.unresolved ∧
    2 ≤ crewP unres (0 : Fin 16) ∧
    myRank unres (0 : Fin 16) = 1 ∧
    logEntryOf unres (0 : Fin 16) (strokeNum unres (0 : Fin 16)) att0.number = none ∧
    (∀ x ∈ unres.crews[(0 : Fin 16)].decisions, ¬(x.stroke = strokeNum unres (0 : Fin 16) ∧ x.attempt = att0.number)) :=
  ⟨(by decide +kernel),
    (by decide +kernel),
    (by decide +kernel),
    (by decide +kernel),
    (by decide +kernel),
    (by decide +kernel),
    (by decide +kernel),
    (by decide +kernel),
    (by decide +kernel),
    (by decide +kernel),
    (by decide +kernel),
    (by decide +kernel),
    (by decide +kernel)⟩

theorem hyps_BurstsAndMedium :
    hqS.power.on = true ∧
    maySend hqS = true ∧
    fr0.sess = none ∧
    (true = true ∧ hqS.evolu.hq = [fr0] ∨ true = false ∧ hqS.evolu.hq = [] ∧ hqS.evolu.nq = [fr0]) ∧
    nqS.power.on = true ∧
    maySend nqS = true ∧
    (false = true ∧ nqS.evolu.hq = [fr0] ∨ false = false ∧ nqS.evolu.hq = [] ∧ nqS.evolu.nq = [fr0]) ∧
    (flightS fr).power.on = true ∧
    (flightS fr).evolu.flight = some (false, fr) ∧
    (flightS fr).evolu.medium ≠ Medium.down ∧
    fr.a < 16 ∧
    (flightS fr16).power.on = true ∧
    (flightS fr16).evolu.flight = some (false, fr16) ∧
    16 ≤ fr16.a ∧
    (echoS 15).power.on = true ∧
    (echoS 15).evolu.noEcho < 16 ∧
    (echoS 16).power.on = true ∧
    16 ≤ (echoS 16).evolu.noEcho :=
  ⟨(by decide +kernel),
    (by decide +kernel),
    (by decide +kernel),
    (by decide +kernel),
    (by decide +kernel),
    (by decide +kernel),
    (by decide +kernel),
    (by decide +kernel),
    (by decide +kernel),
    (by decide +kernel),
    (by decide +kernel),
    (by decide +kernel),
    (by decide +kernel),
    (by decide +kernel),
    (by decide +kernel),
    (by decide +kernel),
    (by decide +kernel),
    (by decide +kernel)⟩

theorem hyps_AddressesAndFrames_1 :
    base.power.on = true ∧
    base.evolu.addr = (0 : BitVec 6) ∧
    claimS.power.on = true ∧
    claimS.evolu.addr = (0 : BitVec 6) ∧
    (1 : BitVec 6) = (1 : BitVec 6) ∧
    Config.serial = Config.serial ∧
    claimS.evolu.claim = some (77 : BitVec 32) ∧
    1 ≤ BitVec.toNat (62 : Byte) ∧
    BitVec.toNat (62 : Byte) ≤ 62 ∧
    (claimS.evolu.addr ≠ (0 : BitVec 6) ∨ (1 : BitVec 6) ≠ (1 : BitVec 6) ∨ Config.serial ≠ Config.serial ∨ claimS.evolu.claim ≠ some (77 : BitVec 32) ∨ (63 : Byte) = (0 : Byte) ∨ 62 < BitVec.toNat (63 : Byte)) ∧
    addr9.power.on = true ∧
    ((9 : BitVec 6) ≠ addr9.evolu.addr ∨ Config.serial = Config.serial) ∧
    (9 : BitVec 6) = addr9.evolu.addr ∧
    addr9.evolu.addr ≠ (0 : BitVec 6) ∧
    Config.serial + (1 : BitVec 64) ≠ Config.serial ∧
    ownEcho addr9 [(1 : Byte), (2 : Byte), (3 : Byte)] = false ∧
    frCrcOk [(1 : Byte), (2 : Byte), (3 : Byte)] = false ∧
    ownEcho addr9 otherB = false ∧
    frCrcOk otherB = true ∧
    frDst otherB ≠ addr9.evolu.addr.toNat ∧
    frDst otherB ≠ 63 ∧
    floodS.power.on = true ∧
    (4 : BitVec 6) ≠ (0 : BitVec 6) ∧
    List.filter (fun (x : BitVec 6 × U64) => decide (BitVec.toNat floodS.now < BitVec.toNat x.2 + 1000000000)) floodS.evolu.reqTimes = floodS.evolu.reqTimes ∧
    4 ≤ (List.filter (fun (x : BitVec 6 × U64) => decide (x.1 = (4 : BitVec 6))) floodS.evolu.reqTimes).length ∧
    ownEcho addr9 (strangeB 48 0 0) = false ∧
    frCrcOk (strangeB 48 0 0) = true ∧
    (addr9.evolu.addr = (0 : BitVec 6) ∨ frSrc (strangeB 48 0 0) ≠ addr9.evolu.addr.toNat) :=
  ⟨(by decide +kernel),
    (by decide +kernel),
    (by decide +kernel),
    (by decide +kernel),
    (by decide +kernel),
    rfl,
    (by decide +kernel),
    (by decide +kernel),
    (by decide +kernel),
    Or.inr (Or.inr (Or.inr (Or.inr (Or.inr (by decide +kernel))))),
    (by decide +kernel),
    Or.inr rfl,
    (by decide +kernel),
    (by decide +kernel),
    (by bv_omega),
    (by decide +kernel),
    (by decide +kernel),
    (by decide +kernel),
    (by decide +kernel),
    (by decide +kernel),
    (by decide +kernel),
    (by decide +kernel),
    (by decide +kernel),
    (by decide +kernel),
    (by decide +kernel),
    (by decide +kernel),
    (by decide +kernel),
    (by decide +kernel)⟩

theorem hyps_AddressesAndFrames_2 :
    (frDst (strangeB 48 0 0) = addr9.evolu.addr.toNat ∧ frDst (strangeB 48 0 0) ≠ 63 ∨ frDst (strangeB 48 0 0) = 63 ∧ (frService (strangeB 48 0 0) = 33 ∨ frService (strangeB 48 0 0) = 34)) ∧
    frSrc (strangeB 48 0 0) = 0 ∧
    frService (strangeB 48 0 0) ≠ 32 ∧
    sesS.power.on = true ∧
    ownEcho sesS (strangeB 3 34 4) = false ∧
    frCrcOk (strangeB 3 34 4) = true ∧
    (sesS.evolu.addr = (0 : BitVec 6) ∨ frSrc (strangeB 3 34 4) ≠ sesS.evolu.addr.toNat) ∧
    frDst (strangeB 3 34 4) = sesS.evolu.addr.toNat ∧
    frDst (strangeB 3 34 4) ≠ 63 ∧
    frSrc (strangeB 3 34 4) ≠ 0 ∧
    1 ≤ frService (strangeB 3 34 4) ∧
    frService (strangeB 3 34 4) ≤ 3 ∧
    (∀ (j : Fin 8), ¬(sessLive sesS.evolu.sessions[j] = true ∧ sesS.evolu.sessions[j].sid.toNat = frSession (strangeB 3 34 4))) ∧
    sesS.evolu.epoch.toNat ≤ frEpoch (strangeB 3 34 4) ∧
    ownEcho sesS (strangeB 3 33 4) = false ∧
    frCrcOk (strangeB 3 33 4) = true ∧
    (sesS.evolu.addr = (0 : BitVec 6) ∨ frSrc (strangeB 3 33 4) ≠ sesS.evolu.addr.toNat) ∧
    frDst (strangeB 3 33 4) = sesS.evolu.addr.toNat ∧
    frDst (strangeB 3 33 4) ≠ 63 ∧
    frSrc (strangeB 3 33 4) ≠ 0 ∧
    1 ≤ frService (strangeB 3 33 4) ∧
    frService (strangeB 3 33 4) ≤ 3 ∧
    (sessLive sesS.evolu.sessions[(2 : Fin 8)] = true ∧ sesS.evolu.sessions[(2 : Fin 8)].sid.toNat = frSession (strangeB 3 33 4)) ∧
    (∀ j < (2 : Fin 8), ¬(sessLive sesS.evolu.sessions[j] = true ∧ sesS.evolu.sessions[j].sid.toNat = frSession (strangeB 3 33 4))) ∧
    (frSrc (strangeB 3 33 4) ≠ sesS.evolu.sessions[(2 : Fin 8)].addr.toNat ∨ frTag (strangeB 3 33 4) ≠ frameTag sesS.evolu.sessions[(2 : Fin 8)].key (List.take 20 (strangeB 3 33 4)) (frPayload (strangeB 3 33 4))) ∧
    ownEcho base assignB = false ∧
    frCrcOk assignB = true ∧
    frMalformed assignB = false :=
  ⟨(by decide +kernel),
    (by decide +kernel),
    (by decide +kernel),
    (by decide +kernel),
    (by decide +kernel),
    (by decide +kernel),
    (by decide +kernel),
    (by decide +kernel),
    (by decide +kernel),
    (by decide +kernel),
    (by decide +kernel),
    (by decide +kernel),
    (by decide +kernel),
    (by decide +kernel),
    (by decide +kernel),
    (by decide +kernel),
    (by decide +kernel),
    (by decide +kernel),
    (by decide +kernel),
    (by decide +kernel),
    (by decide +kernel),
    (by decide +kernel),
    (by decide +kernel),
    (by decide +kernel),
    (by decide +kernel),
    (by decide +kernel),
    (by decide +kernel),
    (by decide +kernel)⟩

theorem hyps_AddressesAndFrames_3 :
    frDst assignB = 63 ∧
    frService assignB = 33 ∧
    frLen assignB = 13 ∧
    frSrc assignB ≠ 0 ∧
    ownEcho sesS ackB = false ∧
    frCrcOk ackB = true ∧
    frMalformed ackB = false ∧
    frDst ackB = sesS.evolu.addr.toNat ∧
    frDst ackB ≠ 63 ∧
    frSrc ackB ≠ sesS.evolu.addr.toNat ∧
    frSrc ackB ≠ 0 ∧
    frService ackB = 3 ∧
    sessLive sesS.evolu.sessions[(2 : Fin 8)] = true ∧
    sesS.evolu.sessions[(2 : Fin 8)].sid.toNat = frSession ackB ∧
    (∀ j < (2 : Fin 8), ¬(sessLive sesS.evolu.sessions[j] = true ∧ sesS.evolu.sessions[j].sid.toNat = frSession ackB)) ∧
    frSrc ackB = sesS.evolu.sessions[(2 : Fin 8)].addr.toNat ∧
    frTag ackB = frameTag sesS.evolu.sessions[(2 : Fin 8)].key (List.take 20 ackB) (frPayload ackB) ∧
    sesS.evolu.epoch.toNat ≤ frEpoch ackB :=
  ⟨(by decide +kernel),
    (by decide +kernel),
    (by decide +kernel),
    (by decide +kernel),
    (by decide +kernel),
    (by decide +kernel),
    (by decide +kernel),
    (by decide +kernel),
    (by decide +kernel),
    (by decide +kernel),
    (by decide +kernel),
    (by decide +kernel),
    (by decide +kernel),
    (by decide +kernel),
    (by decide +kernel),
    (by decide +kernel),
    (by decide +kernel),
    (by decide +kernel)⟩

theorem hyps_HandshakesAndClosing :
    base.power.on = true ∧
    (4 : BitVec 6) ≠ (0 : BitVec 6) ∧
    (77 : BitVec 32) ≠ (0 : BitVec 32) ∧
    BitVec.toNat (3 : BitVec 16) < 4 ∧
    seg20.length ≤ 1024 ∧
    findShake base (4 : BitVec 6) (77 : BitVec 32) = none ∧
    base.evolu.shakes.length < 2 ∧
    base.evolu.reqTimes = [] ∧
    (shakeS (some (2 : Fin 8)) []).power.on = true ∧
    findShake (shakeS (some (2 : Fin 8)) []) (4 : BitVec 6) (77 : BitVec 32) = some (shake (some (2 : Fin 8)) []) ∧
    (shake (some (2 : Fin 8)) []).slot = some (2 : Fin 8) ∧
    wholeSegs (addSeg (shake (some (2 : Fin 8)) []).fin (BitVec.toNat (3 : BitVec 16)) seg20) 4 = none ∧
    (shakeS (some (2 : Fin 8)) f3).power.on = true ∧
    findShake (shakeS (some (2 : Fin 8)) f3) (4 : BitVec 6) (77 : BitVec 32) = some (shake (some (2 : Fin 8)) f3) ∧
    (shake (some (2 : Fin 8)) f3).slot = some (2 : Fin 8) ∧
    lastSeg.length ≤ 1024 ∧
    wholeSegs (addSeg (shake (some (2 : Fin 8)) f3).fin (BitVec.toNat (3 : BitVec 16)) lastSeg) 4 = some sigB ∧
    sigB.length = 3309 ∧
    (shakeS (some (2 : Fin 8)) f3).evolu.sessions[(2 : Fin 8)].state = SessState.opening ∧
    (∀ (j : Fin 8), j ≠ (2 : Fin 8) → ¬(sessLive (shakeS (some (2 : Fin 8)) f3).evolu.sessions[j] = true ∧ (shakeS (some (2 : Fin 8)) f3).evolu.sessions[j].anchor = (shake (some (2 : Fin 8)) f3).anchor ∧ (shakeS (some (2 : Fin 8)) f3).evolu.sessions[j].addr = (shake (some (2 : Fin 8)) f3).src)) ∧
    List.find? (fun (x : Handshake) => decide (x.hid = (shake (some (2 : Fin 8)) f3).hid)) (shakeS (some (2 : Fin 8)) f3).evolu.shakes = some (shake (some (2 : Fin 8)) f3) ∧
    (shakeS (some (2 : Fin 8)) f3).evolu.sessions[(2 : Fin 8)].state ≠ SessState.closed ∧
    ((shake (some (2 : Fin 8)) f3).req ≠ [] ∨ (shake (some (2 : Fin 8)) f3).fin ≠ []) ∧
    sesS.power.on = true ∧
    sesS.evolu.sessions[(2 : Fin 8)].state ≠ SessState.closed ∧
    sesSus.power.on = true ∧
    sesSus.evolu.sessions[(2 : Fin 8)].state = SessState.suspect ∧
    sessLive sesS.evolu.sessions[(2 : Fin 8)] = true :=
  ⟨(by decide +kernel),
    (by decide +kernel),
    (by decide +kernel),
    (by decide +kernel),
    (by decide +kernel),
    (by decide +kernel),
    (by decide +kernel),
    (by decide +kernel),
    (by decide +kernel),
    (by decide +kernel),
    (by decide +kernel),
    (by decide +kernel),
    (by decide +kernel),
    (by decide +kernel),
    (by decide +kernel),
    (by decide +kernel),
    (by decide +kernel),
    (by decide +kernel),
    (by decide +kernel),
    (by decide +kernel),
    (by decide +kernel),
    (by decide +kernel),
    (by decide +kernel),
    (by decide +kernel),
    (by decide +kernel),
    (by decide +kernel),
    (by decide +kernel),
    (by decide +kernel)⟩

theorem hyps_SessionsExchange_1 :
    reqS.power.on = true ∧
    sessLive reqS.evolu.sessions[(2 : Fin 8)] = true ∧
    nextRequest reqS.evolu.sessions[(2 : Fin 8)] heldF.tseq = some heldF ∧
    parseMsg heldF.payload = some (33, heldMsg) ∧
    heldMsg.data.length = 4 ∧
    leAt heldMsg.data 0 4 ≤ 2047 ∧
    reqS.pointing.lockstep = true ∧
    reqS.evolu.sessions[(2 : Fin 8)].state = SessState.opened ∧
    reqS.evolu.sessions[(2 : Fin 8)].unacked.length < 16 ∧
    reqS.evolu.sessions[(2 : Fin 8)].outWait = [] ∧
    rspS.power.on = true ∧
    sessLive rspS.evolu.sessions[(2 : Fin 8)] = true ∧
    (∃ x ∈ rspS.evolu.sessions[(2 : Fin 8)].todo, x.tseq = (2 : BitVec 16) ∧ x.service = (2 : Byte)) ∧
    rspS.evolu.sessions[(2 : Fin 8)].outWait = [] ∧
    unS.power.on = true ∧
    sessLive unS.evolu.sessions[(2 : Fin 8)] = true ∧
    aseqOk unS.evolu.sessions[(2 : Fin 8)] (2 : BitVec 16) = true ∧
    unS.evolu.sessions[(2 : Fin 8)].state = SessState.opened ∧
    unS.evolu.sessions[(2 : Fin 8)].outWait = [] ∧
    unS.evolu.sessions[(2 : Fin 8)].dup.1 ≠ (2 : BitVec 16) ∧
    dupS.power.on = true ∧
    sessLive dupS.evolu.sessions[(2 : Fin 8)] = true ∧
    aseqOk dupS.evolu.sessions[(2 : Fin 8)] (0 : BitVec 16) = true ∧
    dupS.evolu.sessions[(2 : Fin 8)].state = SessState.opened ∧
    dupS.evolu.sessions[(2 : Fin 8)].outWait = [] ∧
    dupS.evolu.sessions[(2 : Fin 8)].dup = ((0 : BitVec 16), 2) ∧
    dupS.evolu.sessions[(2 : Fin 8)].unacked = un1 :: un2 ∧
    (∀ x ∈ dupS.evolu.sessions[(2 : Fin 8)].unacked, aseqAcks (0 : BitVec 16) x = false) :=
  ⟨(by decide +kernel),
    (by decide +kernel),
    (by decide +kernel),
    (by decide +kernel),
    (by decide +kernel),
    (by decide +kernel),
    (by decide +kernel),
    (by decide +kernel),
    (by decide +kernel),
    (by decide +kernel),
    (by decide +kernel),
    (by decide +kernel),
    (by decide +kernel),
    (by decide +kernel),
    (by decide +kernel),
    (by decide +kernel),
    (by decide +kernel),
    (by decide +kernel),
    (by decide +kernel),
    (by decide +kernel),
    (by decide +kernel),
    (by decide +kernel),
    (by decide +kernel),
    (by decide +kernel),
    (by decide +kernel),
    (by decide +kernel),
    (by decide +kernel),
    (by decide +kernel)⟩

theorem hyps_SessionsExchange_2 :
    unS.evolu.sessions[(2 : Fin 8)].ackOwed = true ∧
    unS.evolu.sessions[(2 : Fin 8)].unacked = un1 :: un2 ∧
    un1.resends < 7 ∧
    (∀ x ∈ un2, x.tseq ≠ un1.tseq) ∧
    evS.power.on = true ∧
    sessLive evS.evolu.sessions[(2 : Fin 8)] = true ∧
    sessRoom evS.evolu.sessions[(2 : Fin 8)] = true ∧
    evS.evolu.sessions[(2 : Fin 8)].events ≠ [] ∧
    evS.evolu.sessions[(2 : Fin 8)].events.length ≤ 20 ∧
    sesS.power.on = true ∧
    sessLive sesS.evolu.sessions[(2 : Fin 8)] = true ∧
    sesS.pointing.lockstep = true :=
  ⟨(by decide +kernel),
    (by decide +kernel),
    (by decide +kernel),
    (by decide +kernel),
    (by decide +kernel),
    (by decide +kernel),
    (by decide +kernel),
    (by decide +kernel),
    (by decide +kernel),
    (by decide +kernel),
    (by decide +kernel),
    (by decide +kernel)⟩

theorem hyps_PointingActs_1 :
    at5.power.on = true ∧
    actUnit at5 (0 + 1) 1 = true ∧
    (¬(0 + 1 = 1 ∧ at5.hbm.stks[fin20 1].suspended = true)) ∧
    (urgent 3 1).power.on = true ∧
    (actOf (urgent 3 1) (2 + 1) 1).state = 2 ∧
    actUnit (urgent 3 1) (2 + 1) 1 = true ∧
    safeBoundary (urgent 3 1) (2 + 1) 1 = true ∧
    (((actOf (urgent 3 1) (2 + 1) 1).steps.filter fun x => (urgent 3 1).now.toNat < x.1.toNat + 100000000).map (·.2)).sum + (50 : BitVec 32).toNat ≤ actBudget (urgent 3 1) (2 + 1) * 10000 ∧
    actBudget (urgent 3 1) (2 + 1) * 10000 < (((actOf (urgent 3 1) (2 + 1) 1).steps.filter fun x => (urgent 3 1).now.toNat < x.1.toNat + 100000000).map (·.2)).sum + (4000000000 : BitVec 32).toNat ∧
    (actOf (urgent 3 1) (2 + 1) 1).missed = false ∧
    (actOf { urgent 3 1 with pointing := { (urgent 3 1).pointing with acts := [⟨3, 1, 2, 0, [], true⟩] } } (2 + 1) 1).missed = true ∧
    2 + 1 ≠ 1 ∧
    (fewLanes at5).power.on = true ∧
    (fewLanes at5).courses[(0 : Fin 8)].inService = true ∧
    (fewLanes at5).courses[(0 : Fin 8)].queue = [] ∧
    1 < 0 + 8 ∧
    0 + 8 < 520 ∧
    1 ∉ (fewLanes at5).courses[(0 : Fin 8)].badLanes ∧
    List.idxOf? 1 (fewLanes at5).courses[(0 : Fin 8)].laneMap = some 1 ∧
    1 ∉ (fewLanes at5).courses[(0 : Fin 8)].substs ∧
    (∃ y < 520, y ∉ (fewLanes at5).courses[(0 : Fin 8)].laneMap ∧ y ∉ (fewLanes at5).courses[(0 : Fin 8)].badLanes) ∧
    at5.courses[(0 : Fin 8)].inService = true ∧
    at5.courses[(0 : Fin 8)].queue = [] ∧
    518 < 511 + 8 ∧
    511 + 8 < 520 ∧
    518 ∉ at5.courses[(0 : Fin 8)].badLanes ∧
    List.idxOf? 518 at5.courses[(0 : Fin 8)].laneMap = none ∧
    at5.trowels[(0 : Fin 8)].queue = [] ∧
    1 ≤ at5.trowels[(0 : Fin 8)].spares ∧
    freedS.power.on = true ∧
    at5.pointing.laneTests = [] ∧
    trowelAtWork.power.on = true ∧
    trowelAtWork.courses[(0 : Fin 8)].inService = true ∧
    trowelAtWork.pointing.laneTests = [] ∧
    trowelAtWork.trowels[(0 : Fin 8)].queue = [vopFin] ∧
    vopFin.run = true ∧
    (actOf trowelAtWork 4 (0 : Fin 8)).state = 2 ∧
    (∀ p : Fin 8, at5.cox[p].cmds = []) ∧
    3 ≤ at5.pointing.coxSpares[(3 : Fin 4)] ∧
    32 ≤ at5.pointing.coxSpares[(1 : Fin 4)] :=
  ⟨(by decide +kernel),
    (by decide +kernel),
    (by decide +kernel),
    (by decide +kernel),
    (by decide +kernel),
    (by decide +kernel),
    (by decide +kernel),
    (by decide +kernel),
    (by decide +kernel),
    (by decide +kernel),
    (by decide +kernel),
    (by decide +kernel),
    (by decide +kernel),
    (by decide +kernel),
    (by decide +kernel),
    (by decide +kernel),
    (by decide +kernel),
    (by decide +kernel),
    (by decide +kernel),
    (by decide +kernel),
    (by decide +kernel),
    (by decide +kernel),
    (by decide +kernel),
    (by decide +kernel),
    (by decide +kernel),
    (by decide +kernel),
    (by decide +kernel),
    (by decide +kernel),
    (by decide +kernel),
    (by decide +kernel),
    (by decide +kernel),
    (by decide +kernel),
    (by decide +kernel),
    (by decide +kernel),
    (by decide +kernel),
    (by decide +kernel),
    (by decide +kernel),
    (by decide +kernel),
    (by decide +kernel),
    (by decide +kernel)⟩

theorem hyps_PointingActs_2 :
    freedS.pallets[(0 : Fin 8)].freed = some 7 ∧
    at5.pointing.clusters[(0 : Fin 4)].spares = [8, 9] ∧
    at5.pointing.clusters[(0 : Fin 4)].map ≠ [] ∧
    (∀ a ∈ liveAttempts at5, ∀ x ∈ a.cores, x.cluster ≠ (0 : Fin 4)) ∧
    at5.pointing.lockstep = true ∧
    at5.pointing.mgmtSpare = some 2 ∧
    (true = true ∨ false = true) ∧
    (at5.pointing.mgmtSpare = none ∨ true = false ∨ false = false ∧ false = false) ∧
    full.power.on = true ∧
    MayWrite full (Req.fn (0 : Fin 9)) 33024 16 [(1 : Byte)] 3 ∧
    (1 : Byte) ≠ (0 : Byte) ∧
    noSpare.power.on = true ∧
    noSpare.pointing.clusters[(1 : Fin 4)].spares = [] ∧
    noSpare.pointing.clusters[(1 : Fin 4)].map = [2, 5] ∧
    (∀ a ∈ liveAttempts noSpare, ∀ x ∈ a.cores, x.cluster ≠ (1 : Fin 4)) :=
  ⟨(by decide +kernel),
    (by decide +kernel),
    (by decide +kernel),
    (by decide +kernel),
    (by decide +kernel),
    (by decide +kernel),
    (by decide +kernel),
    (by decide +kernel),
    (by decide +kernel),
    ⟨(by decide +kernel), (by decide +kernel), (by decide +kernel), rfl, (by decide +kernel), (by decide +kernel), exists_of_any (by decide +kernel), (by decide +kernel)⟩,
    (by decide +kernel),
    (by decide +kernel),
    (by decide +kernel),
    (by decide +kernel),
    (by decide +kernel)⟩

theorem hyps_ClocksPowerAndTrips_1 :
    lowS.power.on = true ∧
    BitVec.toNat lowS.now + 10000000000 < 2 ^ 64 ∧
    (true = true ∧ ¬(capW lowS < avgPower lowS.power ∨ lowS.power.throttling = true) ∨ true = false ∧ (capW lowS < avgPower lowS.power ∨ lowS.power.throttling = true)) ∧
    (if true = true then min (freqNom 0) (freq lowS.power 0 + freqStep 0) else max (freqMin 0) (freq lowS.power 0 - freqStep 0)) ≠ freq lowS.power 0 ∧
    BitVec.toNat (lowS.power.domStep.getD 0 (0 : U64)) ≤ BitVec.toNat lowS.now ∧
    PowerListsOk lowS ∧
    hotS.power.on = true ∧
    BitVec.toNat hotS.now + 10000000000 < 2 ^ 64 ∧
    (true = true ∧ (capW hotS < avgPower hotS.power ∨ hotS.power.throttling = true) ∨ true = false ∧ ¬(capW hotS < avgPower hotS.power ∨ hotS.power.throttling = true)) ∧
    (false = true ∧ ¬(capW hotS < avgPower hotS.power ∨ hotS.power.throttling = true) ∨ false = false ∧ (capW hotS < avgPower hotS.power ∨ hotS.power.throttling = true)) ∧
    (if false = true then min (freqNom 2) (freq hotS.power 2 + freqStep 2) else max (freqMin 2) (freq hotS.power 2 - freqStep 2)) ≠ freq hotS.power 2 ∧
    BitVec.toNat (hotS.power.domStep.getD 2 (0 : U64)) ≤ BitVec.toNat hotS.now ∧
    PowerListsOk hotS ∧
    hiS.power.on = true ∧
    BitVec.toNat hiS.now + 10000000000 < 2 ^ 64 ∧
    PowerListsOk hiS ∧
    at5.power.on = true ∧
    BitVec.toNat at5.now + 10000000000 < 2 ^ 64 ∧
    hottest (padInts [(10499 : ℤ)] 20) < (10500 : ℤ) ∧
    hottest (padInts [(9999 : ℤ)] 64) < (10000 : ℤ) ∧
    (10500 : ℤ) ≤ hottest (padInts [(10500 : ℤ)] 64) ∧
    0 + 1 = 1 ∧
    at5.power.refs.getD 0 true = true ∧
    PowerListsOk at5 ∧
    at5.power.refs.getD 1 true = true ∧
    oneRef.power.on = true ∧
    BitVec.toNat oneRef.now + 10000000000 < 2 ^ 64 ∧
    oneRef.power.refs.getD 0 true = true :=
  ⟨(by decide +kernel),
    (by decide +kernel),
    (by decide +kernel),
    (by decide +kernel),
    (by decide +kernel),
    (by unfold PowerListsOk; decide +kernel),
    (by decide +kernel),
    (by decide +kernel),
    (by decide +kernel),
    (by decide +kernel),
    (by decide +kernel),
    (by decide +kernel),
    (by unfold PowerListsOk; decide +kernel),
    (by decide +kernel),
    (by decide +kernel),
    (by unfold PowerListsOk; decide +kernel),
    (by decide +kernel),
    (by decide +kernel),
    (by decide +kernel),
    (by decide +kernel),
    (by decide +kernel),
    (by decide +kernel),
    (by decide +kernel),
    (by unfold PowerListsOk; decide +kernel),
    (by decide +kernel),
    (by decide +kernel),
    (by decide +kernel),
    (by decide +kernel)⟩

theorem hyps_ClocksPowerAndTrips_2 :
    PowerListsOk oneRef ∧
    oneRef.power.refs.getD 1 true = false ∧
    (∀ (f : Fin 9), ∀ x ∈ at5.host.funcs[f].streams, x.2.entries = [] ∧ x.2.batches = []) ∧
    (∀ (c : Fin 16), at5.crews[c].launch = none) ∧
    (∀ (p : Fin 16), at5.rigger.ports[p].kept = [] ∧ at5.rigger.ports[p].waiting = []) ∧
    base.power.on = true ∧
    BitVec.toNat base.now + 10000000000 < 2 ^ 64 ∧
    MayWrite base (Req.fn (0 : Fin 9)) 9216 3 [(1 : Byte)] 3 ∧
    base.power.removal = 0 :=
  ⟨(by unfold PowerListsOk; decide +kernel),
    (by decide +kernel),
    (by decide +kernel),
    (by decide +kernel),
    (by decide +kernel),
    (by decide +kernel),
    (by decide +kernel),
    ⟨(by decide +kernel), (by decide +kernel), (by decide +kernel), rfl, (by decide +kernel), (by decide +kernel), exists_of_any (by decide +kernel), (by decide +kernel)⟩,
    (by decide +kernel)⟩

theorem hyps_ColdAndWarmResets :
    offS.power.on = false ∧
    offS.pointing.clearMap = false ∧
    base.power.on = true ∧
    BitVec.toNat base.now + 10000000000 < 2 ^ 64 ∧
    retir.power.on = true ∧
    BitVec.toNat retir.now + 10000000000 < 2 ^ 64 ∧
    resetWaits retir = true ∧
    resetWaits base = false ∧
    MayWrite base (Req.fn (0 : Fin 9)) 9216 1 [(1 : Byte)] 3 ∧
    State.reset.power.on = true ∧
    BitVec.toNat State.reset.now + 10000000000 < 2 ^ 64 ∧
    MayWrite State.reset (Req.fn (0 : Fin 9)) 9216 1 [(2 : Byte)] 3 ∧
    (∀ n < 8, partValid State.reset n = false) ∧
    Calm base ∧
    base.courses[fin8 7].queue = [] :=
  ⟨(by decide +kernel),
    (by decide +kernel),
    (by decide +kernel),
    (by decide +kernel),
    (by decide +kernel),
    (by decide +kernel),
    (by decide +kernel),
    (by decide +kernel),
    ⟨(by decide +kernel), (by decide +kernel), (by decide +kernel), rfl, (by decide +kernel), (by decide +kernel), exists_of_any (by decide +kernel), (by decide +kernel)⟩,
    (by decide +kernel),
    (by decide +kernel),
    ⟨(by decide +kernel), (by decide +kernel), (by decide +kernel), rfl, (by decide +kernel), (by decide +kernel), exists_of_any (by decide +kernel), (by decide +kernel)⟩,
    (by decide +kernel),
    (by unfold Calm; decide +kernel),
    (by decide +kernel)⟩

theorem hyps_FusesReportsAndCounters :
    base.power.on = true ∧
    MayWrite base (Req.fn (0 : Fin 9)) 16640 6 [(1 : Byte)] 3 ∧
    (imgKeys base (imgSlot base (1 - base.sec.running)) ≠ 0 ∨ imgSvn (runningImage base) ≤ imgSvn (imgSlot base (1 - base.sec.running))) ∧
    full.power.on = true ∧
    MayWrite full (Req.fn (0 : Fin 9)) 16640 4 (wordBytes (5 : BitVec 256)) 3 ∧
    actorOf full (Req.fn (0 : Fin 9)) = (0, (0 : Fin 9)) ∧
    full.power.bringUp = BringUp.full ∧
    full.sec.ownerBlown = false ∧
    MayWrite base (Req.fn (0 : Fin 9)) 16896 1 (wordBytes (5 : BitVec 256)) 3 ∧
    hbmed.power.on = true ∧
    MayWrite hbmed (Req.fn (1 : Fin 9)) (36864 + 0) 1 (gcfg 2 65536) 2 ∧
    (sampled (64 : Fin 80)).power.on = true ∧
    (sampled (64 : Fin 80)).counters.groups[(64 : Fin 80)].state = 1 ∧
    gMode (sampled (64 : Fin 80)).counters.groups[(64 : Fin 80)].config = 1 ∧
    unitThere (sampled (64 : Fin 80)) (gOwner 64) (gKind (sampled (64 : Fin 80)).counters.groups[(64 : Fin 80)].config) (gUnit (sampled (64 : Fin 80)).counters.groups[(64 : Fin 80)].config) = true ∧
    (traced (0 : Byte)).power.on = true ∧
    (traced (0 : Byte)).counters.trace.state = 1 ∧
    traceStop (traced (0 : Byte)) = false ∧
    (∀ (c : Fin 16), (traced (0 : Byte)).crews[c].attempt = none) ∧
    (traced (1 : Byte)).power.on = true ∧
    (traced (1 : Byte)).counters.trace.state = 1 ∧
    traceStop (traced (1 : Byte)) = true :=
  ⟨(by decide +kernel),
    ⟨(by decide +kernel), (by decide +kernel), (by decide +kernel), rfl, (by decide +kernel), (by decide +kernel), exists_of_any (by decide +kernel), (by decide +kernel)⟩,
    (by decide +kernel),
    (by decide +kernel),
    ⟨(by decide +kernel), (by decide +kernel), (by decide +kernel), rfl, (by decide +kernel), (by decide +kernel), exists_of_any (by decide +kernel), (by decide +kernel)⟩,
    (by decide +kernel),
    (by decide +kernel),
    (by decide +kernel),
    ⟨(by decide +kernel), (by decide +kernel), (by decide +kernel), rfl, (by decide +kernel), (by decide +kernel), exists_of_any (by decide +kernel), (by decide +kernel)⟩,
    (by decide +kernel),
    ⟨(by decide +kernel), (by decide +kernel), (by decide +kernel), rfl, (by decide +kernel), (by decide +kernel), exists_of_any (by decide +kernel), (by decide +kernel)⟩,
    (by decide +kernel),
    (by decide +kernel),
    (by decide +kernel),
    (by decide +kernel),
    (by decide +kernel),
    (by decide +kernel),
    (by decide +kernel),
    (by decide +kernel),
    (by decide +kernel),
    (by decide +kernel),
    (by decide +kernel)⟩

/-! ## Witnesses of the remaining statements -/

theorem hyps_StepKeepsMemoriesCanonical : (∃ t, step State.reset = .next t) ∧ MemOk State.reset :=
  ⟨⟨_, rfl⟩, by unfold MemOk; refine ⟨?_, ?_, ?_, ?_, ?_, ?_⟩ <;> decide +kernel⟩

theorem hyps_CommandsTouchOnlyTheirParts : ∃ t, exec .idleEntry base = .next t := ⟨_, rfl⟩

theorem hyps_PowerListsKeepTheirLength : (∃ t, step State.reset = .next t) ∧ PowerListsOk State.reset :=
  ⟨⟨_, rfl⟩, by unfold PowerListsOk; decide +kernel⟩

theorem hyps_HbmWindow_short : coarseWin.power.on = true ∧ coarseWin.host.up = true ∧
    ∃ l, bar2Range coarseWin 0 0 4 = some l ∧ bar2Short coarseWin (partOfFn 0) l = true :=
  ⟨by decide +kernel, by decide +kernel, exists_of_any (by decide +kernel)⟩

/-- A vote of an epoch other than the Crew's (VotesAndCuts). -/
theorem hyps_VotesAndCuts_discarded :
    (member 2 0).power.on = true ∧ (member 2 0).crews[(0 : Fin 16)].state ≠ .undefined ∧ h7.epoch ≠ (member 2 0).crews[(0 : Fin 16)].epoch ∧
    ∃ b, Instr.votePacket 0 h7 vb = .votePacket 0 h7 b :=
  ⟨by decide +kernel, by decide +kernel, by decide +kernel, vb, rfl⟩

/-! ## Ill-formed commands are refused -/

def okMsg : SvcMsg := { msg 0x1000 1 0 0 0 [] with ref := 0 }
def badMsgs : List SvcMsg := [{ okMsg with mflags := 2 }, { okMsg with ref := 7 }, { okMsg with data := List.replicate 1001 0 }]
/-- The commands that carry a service message. -/
def withMsg (m : SvcMsg) : List Instr :=
  [.read (.fn 0) m, .write (.fn 0) m, .readSeg (.fn 0) m, .writeSeg (.fn 0) m, .transferStatus (.fn 0) m, .openSet (.fn 0) m, .stage (.fn 0) m,
   .check (.fn 0) m, .commit (.fn 0) m, .abort (.fn 0) m, .renew (.fn 0) m, .subscribe 0 m]
def mid (r : Nat) : List Instr :=
  [.hello 0 r 0 0, .heartbeat 0 r, .memberLost 0 r, .recover 0 r 0 0 0, .barrierSync 0 ⟨r, 0⟩ 0 0 false, .counts 0 ⟨r, 0⟩ 0 0 0, .ready 0 ⟨r, 0⟩ 0, .credit 0 ⟨r, 0⟩ 0 0,
   .done 0 ⟨r, 0⟩ 0 ⟨0, false⟩, .fenceCrew 0 0 [0, r], .arrived 0 h1 r 0, .cut 0 h1 r [], .query 0 h1 r, .resolve 0 h1 r (db 1), .votePacket 0 h1 { vb with sender := r }]
def noHead : FinHead := { h1 with stroke := 0 }
def headed (h : FinHead) : List Instr :=
  [.votePacket 0 h vb, .arrived 0 h 0 0, .cut 0 h 0 [], .log 0 h 1 0 0, .logack 0 h 1 0 0, .decide 0 h (db 1), .query 0 h 0, .resolve 0 h 0 (db 1)]
def many (n : Nat) : List (BitVec 128) := List.replicate n 0
def voted (n : Nat) : List Instr :=
  [.votePacket 0 h1 { vb with entries := many n }, .cut 0 h1 0 (many n), .decide 0 h1 { db 1 with entries := many n }, .resolve 0 h1 0 { db 1 with entries := many n }]
def decided (d : Byte) : List Instr := [.log 0 h1 d 0 0, .logack 0 h1 d 0 0]

theorem test_wf_messages : (∀ m ∈ badMsgs, ∀ i ∈ withMsg m, i.wf = false) ∧ ∀ i ∈ withMsg okMsg, i.wf = true := by decide +kernel
theorem test_wf_ranks : (∀ i ∈ mid 131072, i.wf = false) ∧ ∀ i ∈ mid 131071, i.wf = true := by decide +kernel
theorem test_wf_heads : (∀ i ∈ headed noHead, i.wf = false) ∧ ∀ i ∈ headed h1, i.wf = true := by decide +kernel
theorem test_wf_entries : (∀ i ∈ voted 255, i.wf = false) ∧ ∀ i ∈ voted 254, i.wf = true := by decide +kernel
theorem test_wf_decisions : (∀ d ∈ ([0, 4] : List Byte), ∀ i ∈ decided d, i.wf = false) ∧ (∀ i ∈ decided 3, i.wf = true) ∧
    (Instr.decide 0 h1 (db 4)).wf = false ∧ (Instr.resolve 0 h1 0 (db 4)).wf = false ∧ (Instr.resolve 0 h1 0 (db 0)).wf = true := by decide +kernel
theorem test_wf_lanes : (Instr.passEnd 0 [⟨8192, 0, 0⟩]).wf = false ∧ (Instr.passEnd 0 [⟨0, 514, 0⟩]).wf = false ∧
    (Instr.passEnd 0 [⟨8191, 513, 0⟩]).wf = true ∧ (Instr.courseLaneSelfTest 0 4 []).wf = false ∧ (Instr.courseLaneSelfTest 0 8 [7]).wf = false ∧
    (Instr.courseLaneSelfTest 0 8 [15]).wf = true := by decide +kernel
theorem test_wf_memory : (Instr.descriptorStore who 0 4096 0).wf = false ∧ (Instr.atsInvalidation 0 ⟨0, 2 ^ 64⟩ none).wf = false ∧
    (Instr.atsInvalidation 0 ⟨2 ^ 20 + 1, 0⟩ none).wf = false ∧ (Instr.atsInvalidation 0 ⟨0, 0⟩ (some (2 ^ 52))).wf = false ∧
    (Instr.memorySideAdd 0 (2 ^ 41) (.read true)).wf = false ∧ (Instr.memorySideAdd 0 0 (.add 5 0)).wf = false ∧ (Instr.memorySideAdd 0 0 (.add 4 0)).wf = true ∧ (Instr.patrolScrub 0 0 16 0).wf = false ∧ (Instr.patrolScrub 0 0 32 81).wf = false ∧
    (Instr.patrolScrub 0 0 32 80).wf = true ∧ (Instr.rowRepair 0 0 0 (2 ^ 32)).wf = false ∧ (Instr.marginingDone [0]).wf = false := by decide +kernel
theorem test_wf_host : (Instr.linkTraining 5 17 true 0).wf = false ∧ (Instr.linkTraining 5 16 true 0).wf = true ∧ (Instr.bar2Read 0 0 0).wf = false ∧
    (Instr.bar2Read 0 0 4097).wf = false ∧ (Instr.bar2Read 0 0 4096).wf = true ∧ (Instr.bar2Write 0 0 (List.replicate 4097 0) false).wf = false ∧
    (Instr.streamPoll 0 0 [⟨2 ^ 64, [1]⟩]).wf = false ∧ (Instr.streamPoll 0 0 [⟨2 ^ 64 - 1, [1]⟩]).wf = true := by decide +kernel
theorem test_wf_config : (Instr.bootstrapEnableSet 0 (.barSize 7)).wf = false ∧ (Instr.bootstrapEnableSet 0 (.barSize 6)).wf = true ∧
    (Instr.bootstrapEnableSet 0 (.controls 9 128 128 true true true false)).wf = false ∧ (Instr.bootstrapEnableSet 0 (.controls 8 200 128 true true true false)).wf = false ∧
    (Instr.bootstrapEnableSet 0 (.controls 8 512 8192 true true true false)).wf = false ∧ (Instr.bootstrapEnableSet 0 (.controls 8 512 4096 true true true false)).wf = true ∧
    (Instr.coreTrap ⟨who, .load true 0 65⟩).wf = false ∧ (Instr.coreTrap ⟨who, .load false 0 0⟩).wf = false ∧ (Instr.coreTrap ⟨who, .load false (2 ^ 64) 1⟩).wf = false ∧
    (Instr.coreTrap ⟨who, .store 0 []⟩).wf = false ∧ (Instr.coreTrap ⟨who, .store 8 [1]⟩).wf = true ∧ (Instr.trowelCoxLaneTest (.cox 0) 2049).wf = false := by decide +kernel
theorem test_wf_frames : (Instr.codewordReceive 0 ⟨0, 0, 0⟩ ⟨545, 0⟩).wf = false ∧ (Instr.packetReceive 0 (List.replicate 4161 0)).wf = false ∧
    (Instr.frameReceive (List.replicate 1251 0) false).wf = false ∧ (Instr.frameReceive (List.replicate 1250 0) false).wf = true ∧
    (Instr.openReq 1 0 0 1 (List.replicate 1025 0)).wf = false ∧ (Instr.openFin 1 0 0 1 (List.replicate 1025 0)).wf = false ∧
    (Instr.request 0 0 0 (List.replicate 1025 0)).wf = false ∧ (Instr.response 0 0 (List.replicate 1025 0)).wf = false ∧
    (Instr.response 0 0 (List.replicate 1024 0)).wf = true := by decide +kernel
theorem test_wf_board : (Instr.thermalSample (List.replicate 63 0) (List.replicate 20 0)).wf = false ∧
    (Instr.thermalSample (List.replicate 64 0) (List.replicate 21 0)).wf = false ∧ (Instr.thermalSample (List.replicate 64 0) (List.replicate 20 0)).wf = true ∧
    (Instr.coldStart (List.replicate 11 0)).wf = false ∧ (Instr.groupConfigWrite (.fn 0) 0 (List.replicate 1001 0)).wf = false ∧
    (Instr.registerWrite (.fn 0) 0 0 (List.replicate 1001 0)).wf = false := by decide +kernel
theorem test_wf_parts : (∀ x ∈ ([(0, 8), (1, 8), (2, 16), (3, 72), (4, 1024), (5, 32), (6, 1280), (7, 16), (8, 1)] : List (Fin 9 × Nat)),
    (Instr.partReset x.1 x.2).wf = false ∧ (Instr.partReset x.1 (x.2 - 1)).wf = true) := by decide +kernel

/-! ## Worked examples of the spec -/

/-- The worked example of R11: 0x0003 is after 0xFFFE; 0x7FFE is half the range away and incomparable. -/
theorem test_serial : serialAfter (3 : BitVec 16) 0xFFFE = true ∧ serialAfter (0x7FFE : BitVec 16) 0xFFFE = false := by decide +kernel
/-- R204: the checksum of the nine characters 123456789 is E3069283 in this CRC. -/
theorem test_crc32c : crc32c [0x31, 0x32, 0x33, 0x34, 0x35, 0x36, 0x37, 0x38, 0x39] = 0xE3069283 := by decide +kernel
/-- The worked example of R141: with the defaults a = 0xF4240234 falls into stack 0, pseudo-channel 28. -/
theorem test_fine_map : fineMap State.reset.hbm 0xF4240234 = (0, 28, 3301940) := by decide +kernel
/-- The FP4 descriptor of the worked example of R122. -/
def fp4 : Cmd := word [(0, 1), (6, 7), (16, 2), (19, 1), (208, 0), (272, 1000), (304, 3000), (336, 8704), (376, 104448)]
theorem test_brick_address : elemAddr fp4 700 2345 = 1130181 ∧ scaleAddr fp4 700 2345 = 1130193 := by decide +kernel
/-- The worked example of R277: rank 2,469 of 4,096 in levels of 4, 32 and 32. -/
theorem test_final_part : finalPart [4, 32, 32] 2469 50331648 = (16355328, 12288) := by decide +kernel
/-- The worked example of R149: 1,000, then 0.3, then -1,000 into a binary32 word leaves 0.29998779296875. -/
theorem test_add_rounds_each_time :
    (adderAdd 0 (adderAdd 0 (adderAdd 0 0 0x447A0000).1 0x3E99999A).1 0xC47A0000).1 = 0x3E999800 := by decide +kernel
/-- The worked example of R136: 1.0 added to 2^24 is a tie that keeps 2^24 and raises NX. -/
theorem test_add_ties_to_even : adderAdd 0 0x4B800000 0x3F800000 = (0x4B800000, fNX) := by decide +kernel
theorem test_no_word_spells : decodeTableWord 64 7 = none ∧ State.reset.withFetchWord 64 7 = State.reset := ⟨rfl, rfl⟩

/-! ## Single commands -/

theorem test_signal_event : (next (.signalEvent 1 3) base).host.funcs[(1 : Fin 9)].events = [(3, 1)] := by decide +kernel
theorem test_trip_low : (next (.underVoltageTrip 49999) base).power.on = false ∧ (next (.underVoltageTrip 50001) base).power.on = true := by decide +kernel
theorem test_absolute_maximum : exec (.overVoltageTrip 60001) base = .fault .absoluteMaximum := rfl
/-- The 5,000th tick while the servo slews an offset away (R260). -/
def late5000 (slew : Int) : State := { base with rigger := { base.rigger with sync := { base.rigger.sync with phase := 4999, slew := slew } } }
theorem test_idle_tick : (slewTick base).now = base.now + 1 ∧ (slewTick (late5000 7)).now = base.now + 2 ∧ (slewTick (late5000 (-7))).now = base.now := by decide +kernel
/-- The worked example of R260: the offset found is +430 ns. -/
def synced : State :=
  { pair with now := 1001000, rigger := { pair.rigger with sync := { pair.rigger.sync with upstream := some 2, lockedOnce := true, state := 2, tdist := 4 } } }
theorem test_offset : (idleOffset synced (ctl 0 0 200 0 1001030 1000000)).1 = 430 := by
  have h0 : synced.now.toNat = 1001000 := by decide +kernel
  have h1 : ctVal0 (ctl 0 0 200 0 1001030 1000000) = 1001030 := by decide +kernel
  have h2 : ctVal1 (ctl 0 0 200 0 1001030 1000000) = 1000000 := by decide +kernel
  have h3 : ctAux (ctl 0 0 200 0 1001030 1000000) = 200 := by decide +kernel
  simp only [idleOffset, h0, h1, h2, h3]
  split <;> omega

end Sys2Proof.Tests
end

section
/-! How a command leaves its unit: the retirement of a Trowel's and of a Hod's command, the store that waited for room, and a part fault. -/

namespace Sys2Proof.Machine

open Sys2Proof

/-! ## Counting -/

theorem stallAdd_vals (s : State) (i b : Nat) : (stallAdd s i b).dict.vals = s.dict.vals := rfl

theorem ctrGet_stall_other (s : State) (i b j c : Nat) (h : ¬(j = i ∧ c = b)) : ctrGet (stallAdd s i b) 0 j c = ctrGet s 0 j c :=
  ctrGet_add_other _ _ _ _ _ _ _ _ fun e => h e.2

/-! ## What a command's issuer notes -/

/-- A command of a running attempt retires from a state that has the Crews, the values and the host port of `s`. -/
theorem retireUnit_core {s S : State} {u : UnitCmd} {cr : Fin 16} {p : Fin 8} {a : Attempt} (hu : FromCore s u cr p a) (hn : S.now = s.now)
    (hc : S.crews = s.crews) (hh : S.host = s.host) (hv : S.dict.vals = s.dict.vals) (tag : Nat) :
    ∃ t, retireUnit S u.iss u.op.toNat tag u.ev u.res = t ∧ SameBut [.crews, .host, .courses] S t ∧ sameQueues S t ∧
      t.crews[cr].attempt = some (noted s a u tag (tagLayer tag) u.res) ∧ (∀ d, d ≠ cr → t.crews[d] = s.crews[d]) ∧
      (∀ f : Fin 9, t.host.funcs[f].regionWrites = s.host.funcs[f].regionWrites) ∧ (Calm s → Calm t) ∧
      (u.res.cls ≠ .rejected → u.ev ≠ 0 → u.ev ≤ 4095 → eventCount t (funcOf p) u.ev = eventCount s (funcOf p) u.ev + 1) := by
  obtain ⟨ha, hp, k, i, seq, hi⟩ := hu
  have haS : S.crews[cr].attempt = some a := by rw [hc]; exact ha
  have hpS : crewOwner S cr = some p := (crewOwner_dict hv cr).trans hp
  obtain ⟨t, ht, hb, hq, hcr, ho, -, hf, hcalm, hev⟩ := retireNoted_core haS hpS u.op.toNat tag u.ev (tagLayer tag) u.res (k := k) (i := i) (seq := seq)
  refine ⟨t, by unfold retireUnit; rw [hi]; exact ht, hb, hq, ?_, fun d hd => (ho d hd).trans (by rw [hc]), fun f => (hf f).1.trans (by rw [hh]),
    fun h => hcalm (calm_of_same s S hc (by rw [hh]) h), fun h0 h1 h2 => ?_⟩
  · rw [hcr]
    unfold noted unitRecord
    rw [hi, hn]
  · rw [hev h0 h1 h2]
    unfold eventCount
    rw [hh]

/-- The tiles of a command are given back where it ran. -/
theorem tilesGive_ite (b : Prop) [Decidable b] (s : State) (n : Fin 8) (u : UnitCmd) :
    SameBut [.courses] s (if b then tilesGive s n u else s) ∧ sameQueues s (if b then tilesGive s n u else s) := by
  split
  · exact tileGives _ _ _
  · exact ⟨sameBut_refl _ _, fun _ => ⟨rfl, rfl⟩⟩

/-! ## TROWEL_RETIRE -/

/-- The state in which a Trowel's command has left its queue, its flags have joined the sticky byte, and it is counted unless it was
rejected (R12, R50, R112). -/
def trowelPopped (s : State) (n : Fin 8) (u : UnitCmd) (rest : List UnitCmd) : State :=
  let s := updTrowel s n fun t => { t with queue := rest, sticky := t.sticky ||| u.res.flags }
  if u.res.cls ≠ .rejected then stallAdd (stallAdd (ctrAdd s 0 0x6200 (0x40 + n) 1) 0x6200 (0x30 + n)) 0x6300 (0x20 + n) else s

theorem trowelPopped_frame (s : State) (n : Fin 8) (u : UnitCmd) (rest : List UnitCmd) :
    SameBut [.free, .trowels, .dict] s (trowelPopped s n u rest) ∧ (trowelPopped s n u rest).dict.vals = s.dict.vals ∧
      (trowelPopped s n u rest).trowels =
        s.trowels.set n { s.trowels[n] with queue := rest, sticky := s.trowels[n].sticky ||| u.res.flags } := by
  unfold trowelPopped
  dsimp only
  split
  · exact ⟨Frames.sameBut (m := 16394) ((((updTrowel_frames.mono rfl).step ctrAdd_frames rfl).step stallAdd_frames rfl).step stallAdd_frames rfl)
      _ rfl, rfl, rfl⟩
  · exact ⟨updTrowel_frames.sameBut _ rfl, rfl, rfl⟩

/-- A command that ran is counted at its Trowel. -/
theorem trowelPopped_counts {s : State} {n : Fin 8} {u : UnitCmd} (rest : List UnitCmd) (h : u.res.cls ≠ .rejected) :
    ctrGet (trowelPopped s n u rest) 0 0x6200 (0x40 + n) = (ctrGet s 0 0x6200 (0x40 + n) + 1) % 2 ^ 64 := by
  unfold trowelPopped
  dsimp only
  rw [if_pos h, ctrGet_stall_other _ _ _ _ _ (by omega), ctrGet_stall_other _ _ _ _ _ (by omega), ctrGet_add_same]
  rfl

/-- A rejected command is counted nowhere (R12). -/
theorem trowelPopped_rejected {s : State} {n : Fin 8} {u : UnitCmd} (rest : List UnitCmd) (h : u.res.cls = .rejected) :
    (trowelPopped s n u rest).dict = s.dict := by
  unfold trowelPopped
  dsimp only
  rw [if_neg (not_not.2 h)]
  rfl

/-- No lane test waits for the unit: the gap between two of its commands passes. -/
theorem laneGap_none {s : State} {u : LaneUnit} (h : ∀ x ∈ s.pointing.laneTests, x.1 ≠ u) : laneGap s u = s := by
  unfold laneGap
  have : (s.pointing.laneTests.all fun x => x.1 ≠ u) = true := by simpa using h
  dsimp only
  rw [if_pos this]
  exact ite_self _

/-- TROWEL_RETIRE of the one command of a Trowel whose Course has nothing to do. -/
theorem execTrowelRetire_last {s : State} {n : Fin 8} {u : UnitCmd} {cr : Fin 16} {p : Fin 8} {a : Attempt}
    (hon : s.power.on = true) (hcalm : Calm s) (hq : s.trowels[n].queue = [u]) (hrun : u.run = true) (hu : FromCore s u cr p a)
    (hcq : s.courses[n].queue = []) (hcs : s.courses[n].stores = []) (hl : ∀ x ∈ s.pointing.laneTests, x.1 ≠ .trowel n) :
    ∃ t, exec (.trowelRetire n) s = .next t ∧ SameBut [.courses, .host, .crews] (trowelPopped s n u []) t ∧
      t.crews[cr].attempt = some (noted s a u (vTag u.word) (tagLayer (vTag u.word)) u.res) ∧ (∀ d, d ≠ cr → t.crews[d] = s.crews[d]) ∧
      (u.res.cls ≠ .rejected → u.ev ≠ 0 → u.ev ≤ 4095 → eventCount t (funcOf p) u.ev = eventCount s (funcOf p) u.ev + 1) := by
  obtain ⟨bS, vS, tS⟩ := trowelPopped_frame s n u []
  obtain ⟨t, ht, bt, qt, ct, ot, -, kt, et⟩ := retireUnit_core hu (bS.2 .now (by simp)) (bS.2 .crews (by simp)) (bS.2 .host (by simp)) vS (vTag u.word)
  obtain ⟨bg, qg⟩ := tilesGive_ite (u.res.cls ≠ .rejected) t n u
  have hexec : exec (.trowelRetire n) s =
      .next (castReady (goCourse (goTrowel (laneGap (if u.res.cls ≠ .rejected then tilesGive t n u else t) (.trowel n)) n) n)) := by
    show powered s _ = _
    rw [powered_on hon, hq]
    dsimp only
    rw [hrun, ← ht]
    rfl
  rw [hexec]
  generalize (if u.res.cls ≠ .rejected then tilesGive t n u else t) = g at bg qg
  have bSg : SameBut [.courses, .host, .crews] (trowelPopped s n u []) g := sameBut_then (sameBut_le bt _ rfl) bg rfl
  have cS : (trowelPopped s n u []).courses = s.courses := bS.2 .courses (by simp)
  have hlg : laneGap g (.trowel n) = g := laneGap_none (by
    rw [show g.pointing = _ from bSg.2 .pointing (by simp), show (trowelPopped s n u []).pointing = _ from bS.2 .pointing (by simp)]; exact hl)
  have hgt : goTrowel g n = g := goTrowel_empty (by
    rw [show g.trowels = _ from bSg.2 .trowels (by simp), tS]; simp)
  have hgc : goCourse g n = g := goCourse_empty (by rw [(qg n).1, (qt n).1, cS, hcq]) (by rw [(qg n).2, (qt n).2, cS, hcs])
  have hk : Calm g := calm_of_sameBut bg (by simp) (by simp) (kt hcalm)
  have hcr : g.crews = t.crews := bg.2 .crews (by simp)
  have hho : g.host = t.host := bg.2 .host (by simp)
  refine ⟨g, by rw [hlg, hgt, hgc, castReady_of_calm g hk], bSg, by rw [hcr]; exact ct, by rw [hcr]; exact ot, fun h0 h1 h2 => ?_⟩
  rw [← et h0 h1 h2]
  unfold eventCount
  rw [hho]

/-! ## HOD_RETIRE -/

/-- The state in which a Hod's command has left its queue and is counted unless it was rejected (R12, R181). -/
def hodPopped (s : State) (h : Fin 16) (u : UnitCmd) (rest : List UnitCmd) : State :=
  let s := updHod s h fun t => { t with queue := rest }
  if u.res.cls = .rejected then s else ctrAdd s 0 (0x6100 + h.val / 2) (0x50 + h.val % 2) 1

theorem hodPopped_frame (s : State) (h : Fin 16) (u : UnitCmd) (rest : List UnitCmd) :
    SameBut [.hods, .dict] s (hodPopped s h u rest) ∧ (hodPopped s h u rest).dict.vals = s.dict.vals ∧
      (hodPopped s h u rest).hods = s.hods.set h { s.hods[h] with queue := rest } := by
  unfold hodPopped
  dsimp only
  split
  · exact ⟨updHod_frames.sameBut _ rfl, rfl, rfl⟩
  · exact ⟨Frames.sameBut (m := 16416) ((updHod_frames.mono rfl).step ctrAdd_frames rfl) _ rfl, rfl, rfl⟩

theorem hodPopped_counts {s : State} {h : Fin 16} {u : UnitCmd} (rest : List UnitCmd) (hr : u.res.cls ≠ .rejected) :
    ctrGet (hodPopped s h u rest) 0 (0x6100 + h.val / 2) (0x50 + h.val % 2) =
      (ctrGet s 0 (0x6100 + h.val / 2) (0x50 + h.val % 2) + 1) % 2 ^ 64 := by
  unfold hodPopped
  dsimp only
  rw [if_neg hr, ctrGet_add_same]
  rfl

theorem hodPopped_rejected {s : State} {h : Fin 16} {u : UnitCmd} (rest : List UnitCmd) (hr : u.res.cls = .rejected) :
    (hodPopped s h u rest).dict = s.dict := by
  unfold hodPopped
  dsimp only
  rw [if_pos hr]
  rfl

theorem doStores_none {s : State} {n : Fin 8} (h : s.courses[n].stores = []) : doStores s n = s := by unfold doStores; rw [h]; rfl

theorem doRegionWrites_none {s : State} {f : Fin 9} (h : s.host.funcs[f].regionWrites = []) : doRegionWrites s f = s := by
  unfold doRegionWrites; rw [h]; rfl

/-- No Hod's oldest command waits for a write of an entry: none goes on. -/
theorem freeHods_none {s : State} (h : ∀ j : Fin 16, ∀ v l, s.hods[j].queue = v :: l → v.blocked ≠ 3) : freeHods s = s := by
  unfold freeHods
  refine foldl_fixed _ s _ fun j _ => ?_
  dsimp only
  split
  · rename_i v l hq
    rw [if_neg (by simp [h _ v l hq])]
  · rfl

/-- HOD_RETIRE of the one command of a Hod, where no table or region write waits. -/
theorem execHodRetire_last {s : State} {h : Fin 16} {u : UnitCmd} {cr : Fin 16} {p : Fin 8} {a : Attempt}
    (hon : s.power.on = true) (hcalm : Calm s) (hq : s.hods[h].queue = [u]) (hrun : u.run = true) (hu : FromCore s u cr p a)
    (hcs : s.courses[hodCourse h].stores = []) (hrw : s.host.funcs[funcOf p].regionWrites = [])
    (hb : ∀ j : Fin 16, ∀ v l, s.hods[j].queue = v :: l → v.blocked ≠ 3) :
    ∃ t, exec (.hodRetire h) s = .next t ∧ SameBut [.courses, .host, .crews] (hodPopped s h u []) t ∧
      t.crews[cr].attempt = some (noted s a u (hTag u.word) (tagLayer (hTag u.word)) u.res) ∧ (∀ d, d ≠ cr → t.crews[d] = s.crews[d]) ∧
      (u.res.cls ≠ .rejected → u.ev ≠ 0 → u.ev ≤ 4095 → eventCount t (funcOf p) u.ev = eventCount s (funcOf p) u.ev + 1) := by
  obtain ⟨bS, vS, tS⟩ := hodPopped_frame s h u []
  obtain ⟨t, ht, bt, qt, ct, ot, rt, kt, et⟩ := retireUnit_core hu (bS.2 .now (by simp)) (bS.2 .crews (by simp)) (bS.2 .host (by simp)) vS (hTag u.word)
  obtain ⟨bg, qg⟩ := tilesGive_ite (u.res.cls ≠ .rejected) t (hodCourse h) u
  have hexec : ∃ g, g = (if u.res.cls ≠ .rejected then tilesGive t (hodCourse h) u else t) ∧ exec (.hodRetire h) s =
      .next (castReady (goHod (freeHods (doRegionWrites (doStores g (hodCourse h)) (issuerFn g u.iss))) h)) := by
    refine ⟨_, rfl, ?_⟩
    show powered s _ = _
    rw [powered_on hon, hq]
    dsimp only
    rw [hrun, ← ht]
    simp only [ne_eq, ite_not]
    rfl
  obtain ⟨g, hg, hexec⟩ := hexec
  rw [← hg] at bg qg
  rw [hexec]
  have bSg : SameBut [.courses, .host, .crews] (hodPopped s h u []) g := sameBut_then (sameBut_le bt _ rfl) bg rfl
  have cS : (hodPopped s h u []).courses = s.courses := bS.2 .courses (by simp)
  have hho : g.host = t.host := bg.2 .host (by simp)
  have hhods : g.hods = s.hods.set h { s.hods[h] with queue := [] } := (bSg.2 .hods (by simp) : g.hods = _).trans tS
  have hfn : issuerFn g u.iss = funcOf p := by
    obtain ⟨-, hp, k, i, seq, hi⟩ := hu
    have hd : g.dict = (hodPopped s h u []).dict := bSg.2 .dict (by simp)
    unfold issuerFn
    rw [hi]
    dsimp only
    rw [crewOwner_dict (s := s) (by rw [hd, vS]), hp]
  have hst : doStores g (hodCourse h) = g := doStores_none (by rw [(qg _).2, (qt _).2, cS, hcs])
  have hre : doRegionWrites g (funcOf p) = g := doRegionWrites_none (by rw [hho, rt, hrw])
  have hfr : freeHods g = g := freeHods_none (by
    intro j v l hj
    rw [hhods] at hj
    by_cases e : j = h
    · subst e; simp at hj
    · rw [Fin.getElem_fin, Vector.getElem_set_ne _ _ (fun x => e (Fin.ext x.symm))] at hj
      exact hb j v l hj)
  have hgo : goHod g h = g := goHod_empty (by rw [hhods]; simp)
  have hk : Calm g := calm_of_sameBut bg (by simp) (by simp) (kt hcalm)
  have hcr : g.crews = t.crews := bg.2 .crews (by simp)
  refine ⟨g, by rw [hfn, hst, hre, hfr, hgo, castReady_of_calm g hk], bSg, by rw [hcr]; exact ct, by rw [hcr]; exact ot, fun h0 h1 h2 => ?_⟩
  rw [← et h0 h1 h2]
  unfold eventCount
  rw [hho]

/-! ## HOD_QUEUE_WAIT and HOD_PART_FAULT -/

/-- HOD_QUEUE_WAIT with room behind a command that is at work or waits: the oldest waiting store joins the queue. -/
theorem execHodQueueWait_joins {s : State} {h : Fin 16} {u v : UnitCmd} {l rest : List UnitCmd} (hon : s.power.on = true) (hcalm : Calm s)
    (hq : s.hods[h].queue = v :: l) (hw : s.hods[h].waiting = u :: rest) (hlen : s.hods[h].queue.length < 256)
    (hv : v.run = true ∨ v.blocked ≠ 0) :
    ∃ t, exec (.hodQueueWait h) s = .next t ∧ SameBut [.free, .hods, .dict] s t ∧
      t.hods = s.hods.set h { s.hods[h] with queue := s.hods[h].queue ++ [u], waiting := rest } := by
  obtain ⟨T, hT⟩ : ∃ T, T = ctrAdd (fresh (updHod s h fun t => { t with waiting := rest, queue := t.queue ++ [u] })).2 0 (0x6100 + h.val / 2) 0x55
      (fresh (updHod s h fun t => { t with waiting := rest, queue := t.queue ++ [u] })).1.toNat := ⟨_, rfl⟩
  have hexec : exec (.hodQueueWait h) s = .next (castReady (goHod T h)) := by
    show powered s _ = _
    rw [powered_on hon, hw, hT]
    dsimp only
    rw [if_neg (by omega)]
  have bT : SameBut [.free, .hods, .dict] s T := by
    have f : Frames 16418 s T := hT ▸ ((updHod_frames.mono rfl).step fresh_frames rfl).step ctrAdd_frames rfl
    exact f.sameBut _ rfl
  have hh : T.hods = s.hods.set h { s.hods[h] with queue := s.hods[h].queue ++ [u], waiting := rest } := by rw [hT]; rfl
  have hgo : goHod T h = T := goHod_busy (v := v) (l := l ++ [u]) (by rw [hh, hq]; simp) hv
  exact ⟨T, by rw [hexec, hgo, castReady_of_calm T (calm_of_sameBut bT (by simp) (by simp) hcalm)], bT, hh⟩

theorem setHodHead_hods {s : State} {h : Fin 16} {v : UnitCmd} {l : List UnitCmd} (hq : s.hods[h].queue = v :: l) (g : UnitCmd → UnitCmd) :
    (setHodHead s h g).hods = s.hods.set h { s.hods[h] with queue := g v :: l } := by
  unfold setHodHead updHod
  dsimp only
  rw [hq]

/-- Nothing is cut short of a command that has not begun to write. -/
theorem hodCut_unbegun {s : State} {h : Fin 16} {v : UnitCmd} {l : List UnitCmd} (hq : s.hods[h].queue = v :: l)
    (hv : v.run = false ∨ v.wrote = []) : hodCut s h = s := by
  unfold hodCut
  rw [hq]
  dsimp only
  rw [if_pos]
  rcases hv with hv | hv <;> simp [hv]

/-- Some of a command's flags are among them. -/
theorem someFlags_sub (s : State) (fl : FlagByte) : (someFlags s fl).1 &&& ~~~ fl = 0 := by
  unfold someFlags
  dsimp only
  rw [BitVec.and_comm fl, BitVec.and_assoc, BitVec.and_not_self]
  exact BitVec.and_zero

/-- A command that a part fault has ended: FAILED, HOD_INTERRUPTED, with PARTIAL as told and the flags told (R12, R177). -/
def hodInterrupted (part : Bool) (fl : FlagByte) (x : UnitCmd) : UnitCmd :=
  { x with run := true, blocked := 0, res := { failedRes .hodInterrupted part 0 with flags := fl } }

/-- A part fault at a command that adds or writes into a port region: it completes FAILED, HOD_INTERRUPTED (R177). -/
theorem execHodPartFault_fails {s : State} {h : Fin 16} {v : UnitCmd} {l : List UnitCmd} (hon : s.power.on = true) (hq : s.hods[h].queue = v :: l)
    (hv : v.run = false ∨ (v.res.cls ≠ .rejected ∧ v.res.cls ≠ .failed))
    (ha : (hodAdds v || (hodPlaces s h v).2.any (portPlace s (issuerFn s v.iss) (issuerPart s v.iss))) = true) :
    ∃ t fl, exec (.hodPartFault h) s = .next t ∧ SameBut [.free, .courses, .pallets, .hods, .hbm, .host] s t ∧ fl &&& ~~~ v.res.flags = 0 ∧
      t.hods = s.hods.set h { s.hods[h] with queue := hodInterrupted (v.run && !v.wrote.isEmpty) fl v :: l } ∧
      (v.run = false ∨ v.wrote = [] → t.pallets = s.pallets ∧ t.hbm = s.hbm ∧ t.host = s.host) := by
  have hc : Frames 214 s (hodCut s h) := hodCut_frames
  have hf : Frames 2 (hodCut s h) (someFlags (hodCut s h) v.res.flags).2 := someFlags_frames
  have hhods : (someFlags (hodCut s h) v.res.flags).2.hods = s.hods := (hf.hods rfl).trans (hc.hods rfl)
  refine ⟨setHodHead (someFlags (hodCut s h) v.res.flags).2 h (hodInterrupted (v.run && !v.wrote.isEmpty) (someFlags (hodCut s h) v.res.flags).1),
    (someFlags (hodCut s h) v.res.flags).1,
    ?_, ?_, someFlags_sub _ _, ?_, fun hw => ?_⟩
  · show powered s (hodPartFault s h) = _
    rw [powered_on hon]
    unfold hodPartFault
    rw [hq]
    dsimp only
    rw [if_neg, if_pos ha]
    · rfl
    rcases hv with hv | ⟨h1, h2⟩
    · simp [hv]
    · simp [h1, h2]
  · exact Frames.sameBut (m := 246) (((hc.mono rfl).step hf rfl).step setHodHead_frames rfl) _ rfl
  · rw [setHodHead_hods (by rw [hhods]; exact hq), hhods]
  · have f : Frames 2 s (someFlags (hodCut s h) v.res.flags).2 := by
      have := hf
      rwa [hodCut_unbegun hq hw] at this ⊢
    exact ⟨f.pallets rfl, f.hbm rfl, f.host rfl⟩

/-- A part fault at a command that adds nothing and writes into no port region: it is counted and executed again from its start (R176). -/
theorem execHodPartFault_again {s : State} {h : Fin 16} {v : UnitCmd} {l : List UnitCmd} (hon : s.power.on = true) (hq : s.hods[h].queue = v :: l)
    (hv : v.run = false ∨ (v.res.cls ≠ .rejected ∧ v.res.cls ≠ .failed))
    (ha : (hodAdds v || (hodPlaces s h v).2.any (portPlace s (issuerFn s v.iss) (issuerPart s v.iss))) = false) :
    exec (.hodPartFault h) s = .next (castReady (goHod (setHodHead (ctrAdd s 0 (0x6100 + h.val / 2) 0x56 1) h fun x =>
      { x with run := false, retried := true, blocked := 0, wrote := [], res := Res.okay }) h)) := by
  show powered s (hodPartFault s h) = _
  rw [powered_on hon]
  unfold hodPartFault
  rw [hq]
  dsimp only
  rw [if_neg, if_neg (by rw [ha]; decide)]
  rcases hv with hv | ⟨h1, h2⟩
  · simp [hv]
  · simp [h1, h2]

/-- Settles O19: each command's end is what its own lemma above says; TROWEL_RETIRE and HOD_RETIRE end in the popped state with what the
issuer notes. -/
theorem unitCommandsEnd : Obligations.UnitCommandsEnd := by
  unfold Obligations.UnitCommandsEnd
  refine ⟨?_, ?_, ?_⟩
  · intro s n u cr p a hon hcalm hq hrun hu hcq hcs hl
    obtain ⟨bS, -, tS⟩ := trowelPopped_frame s n u []
    obtain ⟨t, hx, bt, ct, ot, et⟩ := execTrowelRetire_last hon hcalm hq hrun hu hcq hcs hl
    have hd : t.dict = (trowelPopped s n u []).dict := bt.2 .dict (by simp)
    exact ⟨t, hx, sameBut_then (sameBut_le bS _ rfl) bt rfl, (bt.2 .trowels (by simp) : t.trowels = _).trans tS, ct, ot, et,
      fun h => (ctrGet_same_dict hd _ _ _).trans (trowelPopped_counts _ h), fun h => hd.trans (trowelPopped_rejected _ h)⟩
  · intro s h u cr p a hon hcalm hq hrun hu hcs hrw hb
    obtain ⟨bS, -, tS⟩ := hodPopped_frame s h u []
    obtain ⟨t, hx, bt, ct, ot, et⟩ := execHodRetire_last hon hcalm hq hrun hu hcs hrw hb
    have hd : t.dict = (hodPopped s h u []).dict := bt.2 .dict (by simp)
    exact ⟨t, hx, sameBut_then (sameBut_le bS _ rfl) bt rfl, (bt.2 .hods (by simp) : t.hods = _).trans tS, ct, ot, et,
      fun h => (ctrGet_same_dict hd _ _ _).trans (hodPopped_counts _ h), fun h => hd.trans (hodPopped_rejected _ h)⟩
  · intro s h u v l rest hon hcalm hq
    refine ⟨fun hw hlen hv => execHodQueueWait_joins hon hcalm hq hw hlen hv, fun hv => ?_⟩
    dsimp only
    refine ⟨fun hn => execHodPartFault_fails hon hq hv ?_, fun hy => execHodPartFault_again hon hq hv ?_⟩
    · rw [← Bool.not_eq_false, Bool.or_eq_false_iff]; exact hn
    · rw [Bool.or_eq_false_iff]; exact hy

end Sys2Proof.Machine
end

section
/-! The HBM window (R190 to R192): what reads, writes, their errors and the regulators leave of a stack, and how a request ends. -/

namespace Sys2Proof.Machine

open Sys2Proof

/-! ## Errors of a sector change what a base die records, not what a stack holds -/

theorem rowEvent_hbm (s : State) (k : Fin 20) (pc o : Nat) (ue : Bool) :
    (rowEvent s k pc o ue).hbm = { s.hbm with stks := (rowEvent s k pc o ue).hbm.stks } := by
  unfold rowEvent
  dsimp only
  split <;> rfl

theorem rowEvent_dict (s : State) (k : Fin 20) (pc o : Nat) (ue : Bool) : (rowEvent s k pc o ue).dict = s.dict := rowEvent_frames.dict rfl

theorem ueEvent_hbm (s : State) (code m : Nat) : (ueEvent s code m).hbm = { s.hbm with stks := (ueEvent s code m).hbm.stks } := by
  unfold ueEvent
  dsimp only
  rw [rowEvent_hbm]
  rfl

/-- An uncorrectable sector that was found counts one object of its stack (R153). -/
theorem ueEvent_counts (s : State) (code m : Nat) : (ueEvent s code m).dict = (ctrAdd s 0 (0x5100 + fin20 (mpaMap s.hbm m).1) 0x11 1).dict := by
  unfold ueEvent
  dsimp only
  rw [rowEvent_dict]
  exact (memoryEvent_frames (s := ctrAdd s 0 (0x5100 + fin20 (mpaMap s.hbm m).1) 0x11 1) (code := code) (m := m)).dict rfl

theorem ueEventAt_hbm (s : State) (p : Option (Fin 8)) (a : Nat) : (ueEventAt s p a).hbm = { s.hbm with stks := (ueEventAt s p a).hbm.stks } := by
  unfold ueEventAt
  split
  · exact ueEvent_hbm _ _ _
  · rfl

theorem ctr_ueEventAt (s : State) (p : Option (Fin 8)) (a f b : Nat) : ctrGet (ueEventAt s p a) f 0x1900 b = ctrGet s f 0x1900 b := by
  unfold ueEventAt
  split
  · rw [ctrGet_same_dict (ueEvent_counts _ _ _), ctrGet_add_other _ _ _ _ _ _ _ _ (by omega)]
  · rfl

/-! ## A correction leaves what is read as it is -/

/-- Two states in which every HBM address has the same place and every place the same byte. -/
structure SameBytes (s t : State) : Prop where
  vals : t.dict.vals = s.dict.vals
  mem : t.hbm.mem = s.hbm.mem
  coarse : t.hbm.coarse = s.hbm.coarse
  granule : t.hbm.granule = s.hbm.granule
  inService : t.hbm.inService = s.hbm.inService

theorem SameBytes.refl (s : State) : SameBytes s s := ⟨rfl, rfl, rfl, rfl, rfl⟩

theorem SameBytes.trans {s t u : State} (h : SameBytes s t) (k : SameBytes t u) : SameBytes s u :=
  ⟨k.vals.trans h.vals, k.mem.trans h.mem, k.coarse.trans h.coarse, k.granule.trans h.granule, k.inService.trans h.inService⟩

theorem SameBytes.mpaMap {s t : State} (h : SameBytes s t) (m : Nat) : mpaMap t.hbm m = mpaMap s.hbm m := by
  unfold Machine.mpaMap fineMap fineSize coarsePcs finePcs
  rw [h.coarse, h.granule, h.inService]

theorem SameBytes.hbmSpot {s t : State} (h : SameBytes s t) (p : Option (Fin 8)) (a : Nat) : hbmSpot t p a = hbmSpot s p a := by
  cases p with
  | some p =>
    show hbmAt t p a = hbmAt s p a
    unfold hbmAt regions regionTable objBytes
    rw [h.vals]
  | none =>
    unfold Machine.hbmSpot mpaReserved reservedAt mpaSize fineSize coarsePcs finePcs
    simp only [h.mpaMap, h.coarse, h.inService]

theorem SameBytes.hbmByteP {s t : State} (h : SameBytes s t) (p : Option (Fin 8)) (a : Nat) : hbmByteP t p a = hbmByteP s p a := by
  unfold Machine.hbmByteP spotPlace mpaPlace Hbm.get
  simp only [h.hbmSpot, h.mpaMap, h.mem]

theorem correctSector_sameBytes (s : State) (x : Nat) : SameBytes s (correctSector s x) := by
  unfold correctSector
  dsimp only
  refine ⟨by rw [rowEvent_dict]; rfl, ?_, ?_, ?_, ?_⟩ <;> rw [rowEvent_hbm] <;> rfl

theorem hbmFix_sameBytes (s : State) (p : Option (Fin 8)) (as : List Nat) : SameBytes s (hbmFix s p as) := by
  have key : ∀ (l : List Nat) (t : State), SameBytes t (l.foldl correctSector t) := by
    intro l
    induction l with
    | nil => exact SameBytes.refl
    | cons x l ih => exact fun t => (correctSector_sameBytes t x).trans (ih _)
  unfold hbmFix
  split
  · exact SameBytes.refl s
  · exact key _ s

/-! ## The regulators leave what the stacks hold -/

theorem regServe_mem (s : State) (w : RegWait) (g : Bool) : (regServe s w g).hbm.mem = s.hbm.mem := by
  unfold regServe
  cases w.part <;> rfl

theorem servePass_mem (b : Bool) (s : State) (l : List (RegWait × Nat)) : (servePass b s l).1.hbm.mem = s.hbm.mem := by
  unfold servePass
  refine List.foldlRecOn (motive := fun (acc : State × List (RegWait × Nat)) => acc.1.hbm.mem = s.hbm.mem) l _ rfl fun acc hacc x _ => ?_
  dsimp only
  split
  · rw [regServe_mem, hacc]
  · exact hacc

theorem serveRegs_mem (s : State) : (serveRegs s).hbm.mem = s.hbm.mem := by
  unfold serveRegs
  split
  · rfl
  · exact (servePass_mem _ _ _).trans (servePass_mem _ _ _)

theorem hbmCharge_mem (s : State) (p : Option (Fin 8)) (rs : List (Nat × Nat × List Nat)) : (hbmCharge s p rs).hbm.mem = s.hbm.mem := by
  unfold hbmCharge regAsk
  split
  · rfl
  · exact serveRegs_mem _

/-! ## How a request ends -/

/-- The stack of a request's first byte; 0 where it has none. -/
def bar2Stack (s : State) (f : Fin 9) (l : List Nat) : Nat :=
  (l.head?.bind (hbmSpot s (partOfFn f))).elim 0 fun x => (mpaMap s.hbm x.1).1

section
variable {s : State} {f : Fin 9} {off len : Nat} {data : List Byte} {l : List Nat} (hon : s.power.on = true) (hup : s.host.up = true)
include hon hup

theorem execBar2Read_data (hr : bar2Range s f off len = some l) (hu : ueAt s (partOfFn f) l = none) :
    ∃ t, exec (.bar2Read f off len) s = .next t ∧ SameBut [.hbm, .dict, .pointing, .counters, .out] s t ∧ t.hbm.mem = s.hbm.mem ∧
      t.out.head? = some (.bar2 f (l.map (hbmByteP s (partOfFn f))) .successful) := by
  let F := hbmFix s (partOfFn f) l
  let rr := accessRuns F (partOfFn f) false (l.map fun a => (hbmAddr a, 0))
  have hF : SameBytes s F := hbmFix_sameBytes s _ l
  refine ⟨emit (hbmCharge (coarseWaste F (partOfFn f) rr) (partOfFn f) rr) (.bar2 f (l.map (hbmByteP F (partOfFn f))) .successful), ?_, ?_, ?_, ?_⟩
  · show powered s _ = _
    rw [powered_on hon, hup, hr]
    dsimp only
    rw [hu]
    rfl
  · exact Frames.sameBut (m := 933952)
      ((((hbmFix_frames.mono rfl).step coarseWaste_frames rfl).step hbmCharge_frames rfl).step emit_frames rfl) _ rfl
  · have hw : (coarseWaste F (partOfFn f) rr).hbm = F.hbm := coarseWaste_frames.hbm rfl
    show (hbmCharge _ _ _).hbm.mem = _
    rw [hbmCharge_mem, hw, hF.mem]
  · rw [show hbmByteP F (partOfFn f) = hbmByteP s (partOfFn f) from funext (hF.hbmByteP _)]
    rfl

theorem execBar2Read_outside (hr : bar2Range s f off len = none) :
    exec (.bar2Read f off len) s = .next (emit (ctrAdd s f 0x1900 5 1) (.bar2 f [] .unsupportedRequest)) := by
  show powered s _ = _
  rw [powered_on hon, hup, hr]
  rfl

theorem execBar2Read_ue {a : Nat} (hr : bar2Range s f off len = some l) (hu : ueAt s (partOfFn f) l = some a) :
    exec (.bar2Read f off len) s = .next (emit (ueEventAt (ctrAdd s f 0x1900 5 1) (partOfFn f) a) (.bar2 f [] .completerAbort)) := by
  show powered s _ = _
  rw [powered_on hon, hup, hr]
  dsimp only
  rw [hu]
  rfl

theorem execBar2Write_data (hr : bar2Range s f off data.length = some l) (hs : bar2Short s (partOfFn f) l = false)
    (hu : uePartial s (partOfFn f) l = none) :
    exec (.bar2Write f off data false) s = .next (hbmTraffic (hbmWriteP s (partOfFn f) (l.zip data)) (partOfFn f) l) := by
  show powered s _ = _
  rw [powered_on hon, hup, hr]
  dsimp only
  rw [hs, hu]
  rfl

theorem execBar2Write_ue {a : Nat} (hr : bar2Range s f off data.length = some l) (hs : bar2Short s (partOfFn f) l = false)
    (hu : uePartial s (partOfFn f) l = some a) :
    exec (.bar2Write f off data false) s = .next (ctrAdd (ueEventAt s (partOfFn f) a) f 0x1900 5 1) := by
  show powered s _ = _
  rw [powered_on hon, hup, hr]
  dsimp only
  rw [hs, hu]
  rfl

theorem execBar2Write_poisoned : exec (.bar2Write f off data true) s = .next (bar2Reject s f (some 12)) := by
  show powered s _ = _
  rw [powered_on hon, hup]
  rfl

theorem execBar2Write_outside (hr : bar2Range s f off data.length = none) :
    exec (.bar2Write f off data false) s = .next (bar2Reject s f (some 20)) := by
  show powered s _ = _
  rw [powered_on hon, hup, hr]
  rfl

/-- A coarse write that leaves a burst partial is counted at the stack of its first byte as well (R146). -/
theorem execBar2Write_short (hr : bar2Range s f off data.length = some l) (hs : bar2Short s (partOfFn f) l = true) :
    exec (.bar2Write f off data false) s = .next (bar2Reject (ctrAdd s 0 (0x5100 + bar2Stack s f l) 0x21 1) f (some 15)) := by
  show powered s _ = _
  rw [powered_on hon, hup, hr]
  dsimp only
  rw [hs]
  unfold bar2Stack
  cases l.head? with
  | none => rfl
  | some a =>
    rw [Option.bind_some]
    dsimp only
    cases hbmSpot s (partOfFn f) a <;> rfl

end

/-- A write that is not made and is logged in AER: its bit is set, it is counted, and nothing else of the host port changes. -/
theorem bar2Reject_logs (s : State) (f : Fin 9) (b : Nat) :
    SameBut [.host, .dict] s (bar2Reject s f (some b)) ∧ (bar2Reject s f (some b)).host.mem = s.host.mem ∧
      (bar2Reject s f (some b)).host.funcs[f] = { s.host.funcs[f] with aer := s.host.funcs[f].aer ||| BitVec.ofNat 32 (2 ^ b) } ∧
      (∀ g, g ≠ f → (bar2Reject s f (some b)).host.funcs[g] = s.host.funcs[g]) ∧
      (bar2Reject s f (some b)).dict = (ctrAdd s f 0x1900 5 1).dict :=
  ⟨bar2Reject_frames.sameBut _ rfl, rfl, updFunc_same _ _ _, fun _ hg => updFunc_other _ _ _ _ hg, rfl⟩

/-- What a write ends with that is not made: `S` is the state with its stack's count, where it has one. -/
theorem bar2Reject_ends {s S t : State} {f : Fin 9} {b : Nat} (hS : S.host = s.host) (hb : SameBut [.dict] s S)
    (hc : ctrGet S f 0x1900 5 = ctrGet s f 0x1900 5) (ht : t = bar2Reject S f (some b)) :
    SameBut [.host, .dict] s t ∧ t.host.mem = s.host.mem ∧
      t.host.funcs[f] = { s.host.funcs[f] with aer := s.host.funcs[f].aer ||| BitVec.ofNat 32 (2 ^ b) } ∧
      (∀ g, g ≠ f → t.host.funcs[g] = s.host.funcs[g]) ∧ ctrGet t f 0x1900 5 = (ctrGet s f 0x1900 5 + 1) % 2 ^ 64 := by
  subst ht
  obtain ⟨h1, h2, h3, h4, h5⟩ := bar2Reject_logs S f b
  rw [hS] at h2 h3 h4
  exact ⟨sameBut_then (sameBut_le hb _ rfl) h1 rfl, h2, h3, h4, by rw [ctrGet_same_dict h5, ctrGet_add_same, hc]⟩

/-- Settles O25: each way a request ends is an equation above; the window's reads correct but do not change, and the regulators that are
charged leave what the stacks hold. -/
theorem hbmWindow : Obligations.HbmWindow := by
  unfold Obligations.HbmWindow
  intro s f off len data hon hup
  refine ⟨fun l hr hu => execBar2Read_data hon hup hr hu, fun hr => ?_, fun l a hr hu => ?_, fun l hr hs => ⟨fun hu => ?_, fun hu => ?_⟩, ?_⟩
  · exact ⟨_, execBar2Read_outside hon hup hr, Frames.sameBut (m := 540672) ((ctrAdd_frames.mono rfl).step emit_frames rfl) _ rfl, rfl,
      ctrGet_add_same _ _ _ _ _⟩
  · refine ⟨_, execBar2Read_ue hon hup hr hu, ?_, ueEventAt_hbm _ _ _, ?_, ?_⟩
    · exact Frames.sameBut (m := 680000) (((ctrAdd_frames.mono rfl).step ueEventAt_frames rfl).step emit_frames rfl) _ rfl
    · show _ :: (ueEventAt _ _ _).out = _
      rw [ueEventAt_frames.out rfl]
      rfl
    · exact (ctr_ueEventAt _ _ _ _ _).trans (ctrGet_add_same _ _ _ _ _)
  · refine ⟨_, execBar2Write_data hon hup hr hs hu, ?_, hbmCharge_mem _ _ _⟩
    exact Frames.sameBut (m := 786496) ((hbmWriteP_frames.mono rfl).step hbmTraffic_frames rfl) _ rfl
  · obtain ⟨a, ha⟩ := Option.isSome_iff_exists.1 hu
    refine ⟨_, execBar2Write_ue hon hup hr hs ha, ?_, ?_, ?_⟩
    · exact Frames.sameBut (m := 155712) (ueEventAt_frames.step ctrAdd_frames rfl) _ rfl
    · show (ueEventAt _ _ _).hbm.mem = _
      rw [ueEventAt_hbm]
    · rw [ctrGet_add_same, ctr_ueEventAt]
  · rintro po b (⟨rfl, rfl⟩ | ⟨rfl, hr, rfl⟩ | ⟨rfl, rfl, l, hr, hs⟩)
    · obtain ⟨h1, h2, h3, h4, h5⟩ := bar2Reject_ends (f := f) (b := 12) rfl (sameBut_refl _ s) rfl rfl
      exact ⟨_, execBar2Write_poisoned hon hup, h1, h2, h3, h4, h5, fun h => absurd h (by decide)⟩
    · obtain ⟨h1, h2, h3, h4, h5⟩ := bar2Reject_ends (f := f) (b := 20) rfl (sameBut_refl _ s) rfl rfl
      exact ⟨_, execBar2Write_outside hon hup hr, h1, h2, h3, h4, h5, fun h => absurd h (by decide)⟩
    · let S := ctrAdd s 0 (0x5100 + bar2Stack s f l) 0x21 1
      obtain ⟨h1, h2, h3, h4, h5⟩ := bar2Reject_ends (s := s) (S := S) (f := f) (b := 15) rfl (ctrAdd_frames.sameBut [.dict] rfl)
        (ctrGet_add_other _ _ _ _ _ _ _ _ (by omega)) rfl
      obtain ⟨-, -, -, -, hd⟩ := bar2Reject_logs S f 15
      refine ⟨_, execBar2Write_short hon hup hr hs, h1, h2, h3, h4, h5, fun _ => ⟨bar2Stack s f l, ?_⟩⟩
      rw [ctrGet_same_dict hd, ctrGet_add_other _ _ _ _ _ _ _ _ (by omega), ctrGet_add_same]

end Sys2Proof.Machine
end

section
/-! The control of streams (R196, R199, R229): the bootstrap capability of stream 0, and ENABLE, DISABLE and RESUME of the others. -/

namespace Sys2Proof.Machine

open Sys2Proof

/-! ## Fields of words joined bit by bit -/

theorem fld_or {n : Nat} (a b : BitVec n) (hi lo : Nat) : fld (a ||| b) hi lo = fld a hi lo ||| fld b hi lo := by
  unfold fld
  rw [BitVec.toNat_or, Nat.shiftRight_or_distrib, Nat.or_mod_two_pow]

theorem fld_and {n : Nat} (a b : BitVec n) (hi lo : Nat) : fld (a &&& b) hi lo = fld a hi lo &&& fld b hi lo := by
  unfold fld
  rw [BitVec.toNat_and, Nat.shiftRight_and_distrib, Nat.and_mod_two_pow]

/-! ## The bootstrap capability -/

/-- ENABLE of the capability (R196). -/
def dvsecOne : BitVec 256 := BitVec.ofNat 256 (2 ^ 32)

/-- What a write of the capability leaves of its RW fields, ENABLE apart. -/
def dvsecFields (cap : BitVec 256) : BitVec 256 := cap &&& dvsecMask &&& ~~~dvsecOne

theorem dvsecFields_enable (cap : BitVec 256) : (dvsecFields cap).getLsbD 32 = false := by
  have h : (~~~dvsecOne).getLsbD 32 = false := by decide +kernel
  unfold dvsecFields
  rw [BitVec.getLsbD_and, h, Bool.and_false]

theorem dvsecFields_code (cap : BitVec 256) : fld (dvsecFields cap) 15 8 = 0 := by
  have h : fld dvsecMask 15 8 = 0 := by decide +kernel
  unfold dvsecFields
  rw [fld_and, fld_and, h, Nat.and_zero, Nat.zero_and]

/-- The code of a refusal has three bits (R196). -/
theorem dvsecRefuse_le (s : State) (f : Fin 9) (cap : BitVec 256) : dvsecRefuse s f cap ≤ 6 := by
  unfold dvsecRefuse
  dsimp only
  repeat' split
  all_goals decide

/-- A code stands in bits 15:8 and leaves ENABLE alone. -/
theorem code_place : ∀ r ≤ 6, fld (BitVec.ofNat 256 (r * 256)) 15 8 = r ∧ (BitVec.ofNat 256 (r * 256)).getLsbD 32 = false := by decide +kernel

/-- The state with the capability of function `f` written. -/
def dvsecWritten (s : State) (f : Fin 9) (d : BitVec 256) : State := updFunc s f fun k => { k with dvsec := d }

theorem stream_dvsecWritten (s : State) (f : Fin 9) (d : BitVec 256) (q : Nat) : stream (dvsecWritten s f d) f q = stream s f q :=
  stream_of_streams (by unfold dvsecWritten; rw [updFunc_same]) q

theorem dvsecWritten_dvsec (s : State) (f : Fin 9) (d : BitVec 256) : (dvsecWritten s f d).host.funcs[f].dvsec = d := by
  unfold dvsecWritten; rw [updFunc_same]

theorem updStream_dvsec (s : State) (f : Fin 9) (q : Nat) (g : Stream → Stream) : (updStream s f q g).host.funcs[f].dvsec = s.host.funcs[f].dvsec := by
  unfold updStream; rw [updFunc_same]

section
variable {s : State} {f : Fin 9} {cap : BitVec 256} (hen : s.host.funcs[f].dvsec.getLsbD 32 = false)
include hen

theorem bootstrapWrite_enables (hst : (stream s f 0).state = .disabled) (hc : cap.getLsbD 32 = true) (hr : dvsecRefuse s f cap = 0) :
    bootstrapWrite s f cap = enableStream (dvsecWritten s f (dvsecFields cap ||| dvsecOne)) f 0 := by
  have hd : dvsecFields cap ||| dvsecOne ||| BitVec.ofNat 256 (0 * 256) = dvsecFields cap ||| dvsecOne := BitVec.or_zero
  have hw : (stream (dvsecWritten s f (dvsecFields cap ||| dvsecOne)) f 0).state = .disabled := by rw [stream_dvsecWritten]; exact hst
  rw [← hd] at hw ⊢
  unfold bootstrapWrite
  dsimp only
  rw [if_neg (by rw [hen]; decide), hc, hr]
  exact if_pos hw

theorem bootstrapWrite_refuses (hc : cap.getLsbD 32 = true) (hr : dvsecRefuse s f cap ≠ 0) :
    bootstrapWrite s f cap = dvsecWritten s f (dvsecFields cap ||| BitVec.ofNat 256 (dvsecRefuse s f cap * 256)) := by
  have hd : dvsecFields cap ||| 0 = dvsecFields cap := BitVec.or_zero
  rw [← hd]
  unfold bootstrapWrite
  dsimp only
  rw [if_neg (by rw [hen]; decide), hc, if_pos (by simp [hr])]
  simp only [hr, decide_false, Bool.and_false, Bool.false_eq_true, if_false, if_true]
  rfl

theorem bootstrapWrite_fields (hc : cap.getLsbD 32 = false) :
    bootstrapWrite s f cap = dvsecWritten s f (dvsecFields cap ||| BitVec.ofNat 256 (fld s.host.funcs[f].dvsec 15 8 * 256)) := by
  have hd : dvsecFields cap ||| 0 = dvsecFields cap := BitVec.or_zero
  rw [← hd]
  unfold bootstrapWrite
  dsimp only
  rw [if_neg (by rw [hen]; decide), hc, if_pos (by rfl)]
  rfl

end

/-! ## What ENABLE and DISABLE make of a stream -/

/-- A stream that ENABLE has reached: it polls, or waits until the module is READY (R229, R201). -/
def streamEnabled (s : State) (f : Fin 9) (q : Nat) : Stream := { stream s f q with
  state := if mayPoll s f q then .polling else .waiting, halt := .none, detail := 0, interval := 250, bad := none, batches := [] }

/-- A stream that DISABLE has reached: it drains what it has accepted (R229). -/
def streamDisabled (s : State) (f : Fin 9) (q : Nat) : Stream := { stream s f q with
  state := if (stream s f q).entries.isEmpty then .disabled else .draining, halt := .none, detail := 0, bad := none, batches := [] }

/-- Stream `q` of function `f` has become `k`; host memory, every other stream of the function and every other component stand. -/
def StreamSet (s t : State) (f : Fin 9) (q : Nat) (k : Stream) : Prop :=
  SameBut [.host] s t ∧ t.host.mem = s.host.mem ∧ stream t f q = k ∧ ∀ r, r ≠ q → stream t f r = stream s f r

theorem enableStream_set (s : State) (f : Fin 9) (q : Nat) : StreamSet s (enableStream s f q) f q (streamEnabled s f q) :=
  ⟨updStream_frames.sameBut _ rfl, rfl, stream_upd_same _ _ _ _, fun _ h => stream_upd_other _ _ _ _ _ h⟩

theorem disableStream_set (s : State) (f : Fin 9) (q : Nat) : StreamSet s (disableStream s f q) f q (streamDisabled s f q) :=
  ⟨updStream_frames.sameBut _ rfl, rfl, stream_upd_same _ _ _ _, fun _ h => stream_upd_other _ _ _ _ _ h⟩

/-- Stream 0 is set after its capability has been written: the write leaves the streams alone. -/
theorem StreamSet.of_dvsec {s t : State} {f : Fin 9} {d : BitVec 256} {q : Nat} {k : Stream} (h : StreamSet (dvsecWritten s f d) t f q k) :
    StreamSet s t f q k := by
  obtain ⟨hb, hm, hk, ho⟩ := h
  exact ⟨sameBut_then (updFunc_frames.sameBut [.host] rfl) hb rfl, hm, hk, fun r hr => (ho r hr).trans (stream_dvsecWritten _ _ _ _)⟩

theorem streamEnabled_dvsec (s : State) (f : Fin 9) (d : BitVec 256) (q : Nat) : streamEnabled (dvsecWritten s f d) f q = streamEnabled s f q := by
  unfold streamEnabled
  rw [stream_dvsecWritten]
  rfl

theorem streamDisabled_dvsec (s : State) (f : Fin 9) (d : BitVec 256) (q : Nat) : streamDisabled (dvsecWritten s f d) f q = streamDisabled s f q := by
  unfold streamDisabled
  rw [stream_dvsecWritten]

/-! ## The commands -/

theorem execBootstrapEnableSet_bootstrap {s : State} {f : Fin 9} (hon : s.power.on = true) (hup : s.host.up = true) (cap : BitVec 256) :
    exec (.bootstrapEnableSet f (.bootstrap cap)) s = .next (bootstrapWrite s f cap) := by
  show powered s _ = _
  rw [powered_on hon, hup]
  rfl

theorem execBootstrapEnableClear_disables {s : State} {f : Fin 9} (hon : s.power.on = true) (hup : s.host.up = true)
    (hst : (stream s f 0).state = .polling ∨ (stream s f 0).state = .waiting) :
    exec (.bootstrapEnableClear f) s = .next (disableStream (dvsecWritten s f (s.host.funcs[f].dvsec &&& ~~~dvsecOne)) f 0) := by
  have hw : (decide ((stream (dvsecWritten s f (s.host.funcs[f].dvsec &&& ~~~dvsecOne)) f 0).state = .polling) ||
      decide ((stream (dvsecWritten s f (s.host.funcs[f].dvsec &&& ~~~dvsecOne)) f 0).state = .waiting)) = true := by
    rw [stream_dvsecWritten]
    simpa using hst
  show powered s _ = _
  rw [powered_on hon, hup]
  exact congrArg Host.Outcome.next (if_pos hw)

/-- A control word of a stream that is not stream 0, by the stream's state (R229). -/
theorem streamControl_enable {s : State} {f : Fin 9} {q : Fin 64} (hq : q ≠ 0) (hst : (stream s f q).state = .disabled) :
    streamControl s f q 1 = some (enableStream s f q) := by
  unfold streamControl
  dsimp only
  rw [if_neg (by simpa using hq), hst]
  rfl

theorem streamControl_disable {s : State} {f : Fin 9} {q : Fin 64} (hq : q ≠ 0)
    (hst : (stream s f q).state = .polling ∨ (stream s f q).state = .waiting) : streamControl s f q 2 = some (disableStream s f q) := by
  unfold streamControl
  dsimp only
  rw [if_neg (by simpa using hq)]
  rcases hst with h | h <;> rw [h] <;> rfl

theorem streamControl_resume {s : State} {f : Fin 9} {q : Fin 64} (hq : q ≠ 0) (hst : (stream s f q).state = .halted)
    (hj : (stream s f q).halt ≠ .journalLost) : streamControl s f q 3 = some (resumeStream s f q) := by
  unfold streamControl
  dsimp only
  rw [if_neg (by simpa using hq), hst]
  exact if_neg hj

/-- A resumed stream is enabled, and its accept word and the records it owes are written again, at their places (R229). -/
theorem resumeStream_is {s : State} {f : Fin 9} {q : Nat} (hm : ∀ p a n, hostMapped s f p a n = true) :
    SameBut [.host] s (resumeStream s f q) ∧ stream (resumeStream s f q) f q = streamEnabled s f q ∧
      (resumeStream s f q).host.mem = (owed s f q).foldl
        (fun m x => m.writeL (placed s f (ringSpace s f q) ((ringOf s f q).2.1 + 128 * (x.1.toNat % ringN s f q)) (wordBytes x.2)))
        (s.host.mem.writeL (placed s f (ringSpace s f q) ((ringOf s f q).2.2.1 + 8) (wordBytes (stream s f q).accepted))) := by
  have P : SamePoll s (enableStream s f q) f q := updStream_poll s f q _
  obtain ⟨hb, hmem, hk, -⟩ := enableStream_set s f q
  obtain ⟨hf, hb', hw⟩ := rewriteOwed_is (enableStream s f q) f q fun p a n => (P.mapped p a n).trans (hm p a n)
  have ho : owed (enableStream s f q) f q = owed s f q := by unfold owed; rw [hk, P.n]; rfl
  have hp : ∀ ps a bs, placed (enableStream s f q) f ps a bs = placed s f ps a bs := fun ps a bs => by unfold placed; simp only [P.loc]
  refine ⟨sameBut_then hb hb' rfl, (stream_of_streams (by unfold resumeStream; rw [hf]) q).trans hk, hw.trans ?_⟩
  rw [ho, hk, hmem, P.ring, P.space, P.n]
  simp only [hp]
  rfl

/-- Settles O27: the capability's write and clear set stream 0, and the control words of the other streams set those. -/
theorem streamControl_holds : Obligations.StreamControl := by
  unfold Obligations.StreamControl
  intro enabled disabled one s f q cap log hon
  refine ⟨fun hup hen hst => ⟨fun hc hr => ?_, fun hc hr => ?_, fun hc => ?_⟩, fun hup => ?_, fun hdn w => ?_, fun hup hst => ?_, fun hq hst => ?_,
    fun hq hst => ?_, fun hq hst hj hm => ?_⟩
  · obtain ⟨hb, hm, hk, -⟩ := (enableStream_set (dvsecWritten s f (dvsecFields cap ||| dvsecOne)) f 0).of_dvsec
    exact ⟨_, (execBootstrapEnableSet_bootstrap hon hup cap).trans (congrArg _ (bootstrapWrite_enables hen hst hc hr)), hb, hm,
      hk.trans (streamEnabled_dvsec _ _ _ _), (updStream_dvsec _ _ _ _).trans (dvsecWritten_dvsec _ _ _)⟩
  · obtain ⟨h1, h2⟩ := code_place _ (dvsecRefuse_le s f cap)
    refine ⟨_, (execBootstrapEnableSet_bootstrap hon hup cap).trans (congrArg _ (bootstrapWrite_refuses hen hc hr)),
      updFunc_frames.sameBut _ rfl, rfl, stream_dvsecWritten _ _ _ _, ?_, ?_⟩
    · rw [dvsecWritten_dvsec, BitVec.getLsbD_or, dvsecFields_enable, h2]
      rfl
    · rw [dvsecWritten_dvsec, fld_or, dvsecFields_code, h1, Nat.zero_or]
  · exact ⟨_, (execBootstrapEnableSet_bootstrap hon hup cap).trans (congrArg _ (bootstrapWrite_fields hen hc)),
      updFunc_frames.sameBut _ rfl, rfl, stream_dvsecWritten _ _ _ _, dvsecWritten_dvsec _ _ _⟩
  · refine ⟨updFunc s f fun k => { k with barLog := min log 6 }, ?_, updFunc_frames.sameBut _ rfl, rfl, updFunc_same _ _ _⟩
    show powered s _ = _
    rw [powered_on hon, hup]
    rfl
  · show powered s _ = _
    rw [powered_on hon, hdn]
    rfl
  · obtain ⟨hb, hm, hk, -⟩ := (disableStream_set (dvsecWritten s f (s.host.funcs[f].dvsec &&& ~~~dvsecOne)) f 0).of_dvsec
    exact ⟨_, execBootstrapEnableClear_disables hon hup hst, hb, hm, hk.trans (streamDisabled_dvsec _ _ _ _),
      (updStream_dvsec _ _ _ _).trans (dvsecWritten_dvsec _ _ _)⟩
  · refine ⟨enableStream s f q, ?_, enableStream_set s f q⟩
    show powered s _ = _
    rw [powered_on hon, streamControl_enable hq hst]
    rfl
  · refine ⟨disableStream s f q, ?_, disableStream_set s f q⟩
    show powered s _ = _
    rw [powered_on hon, streamControl_disable hq hst]
    rfl
  · refine ⟨resumeStream s f q, ?_, resumeStream_is hm⟩
    show powered s _ = _
    rw [powered_on hon, streamControl_resume hq hst hj]
    rfl

end Sys2Proof.Machine
end

section
/-! The retirement of a stream's entry (R215 to R223): the record at its slot, the stream after it, and what follows of it. -/

namespace Sys2Proof.Machine

open Sys2Proof

/-! ## Nothing waits for the retirement -/

theorem fenceLost_finished {s : State} {f : Fin 9} {q : Nat} {e : EntryRun} (h : e.stage = .finished) : fenceLost s f q e = s := by
  unfold fenceLost
  split
  · dsimp only
    rw [h, if_neg (by simp)]
  · rfl

theorem removalCheck_none {s : State} (h : s.power.removal ≠ 1) : removalCheck s = s := by
  unfold removalCheck
  dsimp only
  rw [if_pos (by simp [h])]

theorem coursesGo_none {s : State} {here : Fin 8 → Bool} (h : ∀ x ∈ s.pointing.leaving, here x.1 = false) : coursesGo s here = s := by
  have : s.pointing.leaving.filter (fun x => here x.1) = [] := List.filter_eq_nil_iff.2 fun x hx => by simp [h x hx]
  unfold coursesGo
  dsimp only
  rw [this]
  rfl

theorem applyReq_none {s : State} {c : Fin 16} (h : s.crews[c].req = none) : applyReq s c = s := by
  unfold applyReq
  dsimp only
  rw [h]
  exact ite_self _

/-- A Stroke boundary for which nothing waits passes (R267, R344, R420). -/
theorem passBoundary_quiet {s : State} {c : Fin 16} (h : BoundaryQuiet s c) : passBoundary s c = s := by
  obtain ⟨hj, hr, hl⟩ := h
  have key : ∀ t, t = s → applyReq (if t.crews[c].rejoin = 3 then startRejoin t c else t) c = s := by
    rintro t rfl
    rw [if_neg hj]
    exact applyReq_none hr
  refine key _ ?_
  split
  · rename_i p hp
    exact coursesGo_none fun x hx => by simpa using hl p hp x hx
  · rfl

theorem courseOwner_same {s t : State} (hd : t.dict = s.dict) (hp : t.power = s.power) (n : Fin 8) : courseOwner t n = courseOwner s n := by
  unfold courseOwner partRec objBytes; rw [hd, hp]

theorem boundaryQuiet_same {s t : State} {c : Fin 16} (hc : t.crews = s.crews) (hd : t.dict = s.dict) (hp : t.power = s.power)
    (hl : t.pointing = s.pointing) (h : BoundaryQuiet s c) : BoundaryQuiet t c := by
  obtain ⟨h1, h2, h3⟩ := h
  refine ⟨by rw [hc]; exact h1, by rw [hc]; exact h2, fun p hpo x hx => ?_⟩
  rw [courseOwner_same hd hp]
  exact h3 p ((crewOwner_dict (by rw [hd]) c).symm.trans hpo) x (by rwa [hl] at hx)

/-! ## The entry's record, and the stream after it -/

/-- The slot of the completion ring for an entry's record (R215). -/
def retireSlot (s : State) (f : Fin 9) (q : Fin 64) (e : EntryRun) : Nat :=
  (ringOf s f q).2.1 + 128 * ((entrySeq e.raw).toNat % ringN s f q)

/-- An entry's record, as it is written now (R217). -/
def retireRecord (s : State) (e : EntryRun) : List Byte :=
  recordBytes (entrySeq e.raw) (enOp e.raw) e.res (enCext e.raw) (enTag e.raw) e.stroke.toNat s.now

/-- The stream whose first entry, number `n` with record `r`, has retired before `rest` (R215, R229). -/
def Stream.retiredAs (k : Stream) (n : BitVec 64) (r : BitVec 512) (rest : List EntryRun) : Stream :=
  { k with
    entries := rest, retired := n, history := ((n, r) :: k.history).take 4096
    state := if k.state = .draining && rest.isEmpty then .disabled else k.state }

/-- The event an entry signals: a rejected one signals none (R12, R223). -/
def retireEvent (e : EntryRun) : Nat := if e.res.cls = .rejected then 0 else enSignal e.raw

/-- The record written, and the stream past the entry. -/
def entryRetired (s : State) (f : Fin 9) (q : Fin 64) (e : EntryRun) (rest : List EntryRun) : State :=
  updStream (hostWrite s f (ringSpace s f q) (retireSlot s f q e) (retireRecord s e ++ if enCext e.raw then extBytes s e else [])) f q
    fun k => k.retiredAs (entrySeq e.raw) (BitVec.ofNat 512 (ofLe (retireRecord s e))) rest

/-- The entry counted, and its event signalled. -/
def entrySignalled (s : State) (f : Fin 9) (q : Fin 64) (e : EntryRun) (rest : List EntryRun) : State :=
  ownerSignal (signalEv (evAdd (entryRetired s f q e rest) 0x8002 q (fnOwner f) 1) f (retireEvent e)) (some (f, q)) f (retireEvent e)

theorem entryRetired_frames (s : State) (f : Fin 9) (q : Fin 64) (e : EntryRun) (rest : List EntryRun) :
    Frames 128 s (entryRetired s f q e rest) := by
  unfold entryRetired
  exact hostWrite_frames.step updStream_frames rfl

theorem entrySignalled_frame (s : State) (f : Fin 9) (q : Fin 64) (e : EntryRun) (rest : List EntryRun) :
    SameBut [.courses, .host, .counters] s (entrySignalled s f q e rest) := by
  have h := ((entryRetired_frames s f q e rest).mono (m := 262276) rfl).step (evAdd_frames (code := 0x8002) (unit := q) (part := fnOwner f) (n := 1)) rfl
  exact ((h.step signalEv_frames rfl).step ownerSignal_frames rfl).sameBut _ rfl

theorem entrySignalled_host (s : State) (f : Fin 9) (q : Fin 64) (e : EntryRun) (rest : List EntryRun) :
    (entrySignalled s f q e rest).host = (signalEv (evAdd (entryRetired s f q e rest) 0x8002 q (fnOwner f) 1) f (retireEvent e)).host :=
  ownerSignal_frames.host rfl

theorem signalEv_mem (s : State) (f : Fin 9) (e : Nat) : (signalEv s f e).host.mem = s.host.mem := by unfold signalEv; split <;> rfl

theorem entrySignalled_mem (s : State) (f : Fin 9) (q : Fin 64) (e : EntryRun) (rest : List EntryRun) :
    (entrySignalled s f q e rest).host.mem = s.host.mem.writeL (placed s f (ringSpace s f q) (retireSlot s f q e)
      (retireRecord s e ++ if enCext e.raw then extBytes s e else [])) := by
  have h : (evAdd (entryRetired s f q e rest) 0x8002 q (fnOwner f) 1).host = (entryRetired s f q e rest).host := evAdd_frames.host rfl
  rw [entrySignalled_host, signalEv_mem, h]
  unfold entryRetired
  rw [updStream_mem, hostWrite_mem]

theorem stream_hostWrite (s : State) (f g : Fin 9) (ps a : Nat) (b : List Byte) (q : Nat) : stream (hostWrite s g ps a b) f q = stream s f q :=
  stream_of_streams (by rw [hostWrite_funcs]) q

theorem entrySignalled_stream (s : State) (f : Fin 9) (q : Fin 64) (e : EntryRun) (rest : List EntryRun) :
    stream (entrySignalled s f q e rest) f q =
      (stream s f q).retiredAs (entrySeq e.raw) (BitVec.ofNat 512 (ofLe (retireRecord s e))) rest := by
  have h : (entrySignalled s f q e rest).host.funcs[f].streams = (entryRetired s f q e rest).host.funcs[f].streams := by
    rw [entrySignalled_host, (signalEv_funcs _ _ _ _).2]
    rfl
  rw [stream_of_streams h]
  unfold entryRetired
  rw [stream_upd_same, stream_hostWrite]

theorem entryRetired_func (s : State) (f : Fin 9) (q : Fin 64) (e : EntryRun) (rest : List EntryRun) :
    (entryRetired s f q e rest).host.funcs[f].regionWrites = s.host.funcs[f].regionWrites ∧
      (entryRetired s f q e rest).host.funcs[f].events = s.host.funcs[f].events := by
  unfold entryRetired updStream
  rw [updFunc_same, hostWrite_funcs]
  exact ⟨rfl, rfl⟩

theorem entrySignalled_regionWrites (s : State) (f : Fin 9) (q : Fin 64) (e : EntryRun) (rest : List EntryRun) :
    (entrySignalled s f q e rest).host.funcs[f].regionWrites = s.host.funcs[f].regionWrites := by
  rw [entrySignalled_host, (signalEv_funcs _ _ _ _).1]
  exact (entryRetired_func s f q e rest).1

/-- The event of an entry that was not rejected counts one more (R223). -/
theorem entrySignalled_counts {s : State} {f : Fin 9} {q : Fin 64} {e : EntryRun} (rest : List EntryRun) (hr : e.res.cls ≠ .rejected)
    (h0 : 0 < enSignal e.raw) (h1 : enSignal e.raw ≤ 4095) :
    eventCount (entrySignalled s f q e rest) f (enSignal e.raw) = eventCount s f (enSignal e.raw) + 1 := by
  have hv : retireEvent e = enSignal e.raw := if_neg hr
  unfold entrySignalled
  rw [hv, eventCount_owner, eventCount_signal _ _ _ (by omega) h1]
  show assocGet (entryRetired s f q e rest).host.funcs[f].events _ _ + 1 = _
  rw [(entryRetired_func s f q e rest).2]
  rfl

/-- A rejected entry signals no event (R12). -/
theorem entrySignalled_rejected {s : State} {f : Fin 9} {q : Fin 64} {e : EntryRun} (rest : List EntryRun) (hr : e.res.cls = .rejected) :
    (entrySignalled s f q e rest).host.funcs[f].events = s.host.funcs[f].events := by
  have hv : retireEvent e = 0 := if_pos hr
  rw [entrySignalled_host, hv]
  exact (entryRetired_func s f q e rest).2

/-- A MARK that has become first notes the time in its result; nothing else of the host port changes (R216). -/
theorem stampMark_is (s : State) (f : Fin 9) (q : Nat) :
    SameBut [.host] s (stampMark s f q) ∧ (stampMark s f q).host.mem = s.host.mem ∧
      (stampMark s f q).host.funcs[f].regionWrites = s.host.funcs[f].regionWrites ∧
      (stampMark s f q).host.funcs[f].events = s.host.funcs[f].events ∧
      ∃ es, stream (stampMark s f q) f q = { stream s f q with entries := es } ∧ es.map (·.raw) = (stream s f q).entries.map (·.raw) := by
  have stay : SameBut [.host] s s ∧ s.host.mem = s.host.mem ∧ s.host.funcs[f].regionWrites = s.host.funcs[f].regionWrites ∧
      s.host.funcs[f].events = s.host.funcs[f].events ∧
      ∃ es, stream s f q = { stream s f q with entries := es } ∧ es.map (·.raw) = (stream s f q).entries.map (·.raw) :=
    ⟨sameBut_refl _ s, rfl, rfl, rfl, _, rfl, rfl⟩
  unfold stampMark
  split
  · split
    · unfold updEntry
      refine ⟨updStream_frames.sameBut _ rfl, rfl, ?_, ?_, _, stream_upd_same _ _ _ _, ?_⟩
      · unfold updStream; rw [updFunc_same]
      · unfold updStream; rw [updFunc_same]
      · rw [List.map_map]
        refine List.map_congr_left fun x _ => ?_
        dsimp only [Function.comp]
        split <;> rfl
    · exact stay
  · exact stay

/-! ## RETIREMENT -/

/-- RETIREMENT of a finished first entry with room in the ring, for which nothing waits. -/
theorem execRetirement_writes {s : State} {f : Fin 9} {q : Fin 64} {e : EntryRun} {l : List EntryRun} (hon : s.power.on = true)
    (he : (stream s f q).entries = e :: l) (hfin : e.stage = .finished)
    (hroom : (entrySeq e.raw - (stream s f q).hostack).toNat ≤ ringN s f q)
    (hmap : hostMapped s f (ringSpace s f q) (retireSlot s f q e) (if enCext e.raw then 128 else 64) = true)
    (hnot : enNotify e.raw = false) (hobj : objNat s f (0x6400 + q) 9 0 = 0) (hrem : s.power.removal ≠ 1)
    (hrw : s.host.funcs[f].regionWrites = []) (hh : ∀ h : Fin 16, ∀ v m, s.hods[h].queue = v :: m → v.blocked ≠ 3)
    (hb : enOp e.raw = 2 → e.res.cls = .rejected ∨ BoundaryQuiet s (fin16 (enCrew e.raw))) :
    exec (.retirement f q) s = .next (stampMark (entrySignalled s f q e l) f q) := by
  obtain ⟨bm, -, rm, -, -⟩ := stampMark_is (entrySignalled s f q e l) f q
  have bT : SameBut [.courses, .host, .counters] s (stampMark (entrySignalled s f q e l) f q) :=
    sameBut_then (entrySignalled_frame s f q e l) bm rfl
  have hexec : exec (.retirement f q) s = .next (removalCheck (
      let T := freeHods (doRegionWrites (stampMark (entrySignalled s f q e l) f q) f)
      let U := if enOp e.raw = 2 && e.res.cls ≠ .rejected then passBoundary T (fin16 (enCrew e.raw)) else T
      if enNotify e.raw || objNat U f (0x6400 + q) 9 0 ≠ 0 then notify U f (objNat U f (0x6400 + q) 8 0xFFFF) else U)) := by
    show powered s _ = _
    rw [powered_on hon, he]
    dsimp only
    rw [fenceLost_finished hfin, he]
    dsimp only
    rw [if_neg (by simpa [hfin] using hroom)]
    have hmap' : (!hostMapped s f (ringSpace s f q) (retireSlot s f q e) (if enCext e.raw then 128 else 64)) = false := by rw [hmap]; rfl
    unfold retireSlot at hmap'
    rw [hmap']
    rfl
  rw [hexec]
  generalize stampMark (entrySignalled s f q e l) f q = T at bT rm
  have hT : T.power = s.power := bT.2 .power (by simp)
  have hD : T.dict = s.dict := bT.2 .dict (by simp)
  have hre : doRegionWrites T f = T := doRegionWrites_none (by rw [rm, entrySignalled_regionWrites, hrw])
  have hfr : freeHods T = T := freeHods_none (by rw [show T.hods = s.hods from bT.2 .hods (by simp)]; exact hh)
  have hpb : (if enOp e.raw = 2 && e.res.cls ≠ .rejected then passBoundary T (fin16 (enCrew e.raw)) else T) = T := by
    split
    · rename_i h
      obtain ⟨h2, hr⟩ : enOp e.raw = 2 ∧ e.res.cls ≠ .rejected := by simpa using h
      exact passBoundary_quiet (boundaryQuiet_same (bT.2 .crews (by simp)) hD hT (bT.2 .pointing (by simp)) ((hb h2).resolve_left hr))
    · rfl
  have ho : objNat T f (0x6400 + q) 9 0 = objNat s f (0x6400 + q) 9 0 := by unfold objNat; rw [hD]
  dsimp only
  rw [hre, hfr, hpb, if_neg (by simp [hnot, ho, hobj]), removalCheck_none (by rw [hT]; exact hrem)]

/-- Settles O30: the retirement ends in the state with the record written, the stream past the entry and its event signalled, in which at most
the next entry's own result has changed. -/
theorem retirementWritesTheRecord : Obligations.RetirementWritesTheRecord := by
  unfold Obligations.RetirementWritesTheRecord
  intro s f q e l hon he hfin n k a r hroom hmap hnot hobj hrem hrw hh hb
  obtain ⟨bm, hmem, -, hev, es, hst, hes⟩ := stampMark_is (entrySignalled s f q e l) f q
  rw [entrySignalled_stream] at hst hes
  refine ⟨_, execRetirement_writes hon he hfin hroom hmap hnot hobj hrem hrw hh hb, sameBut_then (entrySignalled_frame s f q e l) bm rfl,
    hmem.trans (entrySignalled_mem s f q e l), ?_, ?_, ?_, ?_, ?_, ?_, fun hr h0 h1 => ?_, fun hr => hev.trans (entrySignalled_rejected l hr)⟩
  · rw [hst]; rfl
  · rw [hst]; rfl
  · rw [hst]; rfl
  · rw [hst]; rfl
  · rw [hst]; exact hes
  · rw [hst]; rfl
  · rw [← entrySignalled_counts l hr h0 h1]
    unfold eventCount
    rw [hev]

end Sys2Proof.Machine
end

section
/-! A stream's entry that starts and finishes, and the reads of the object dictionary (R197, R209, R377, R379, R393). -/

namespace Sys2Proof.Machine

open Sys2Proof

/-! ## One entry of a stream -/

theorem updFunc_congr {s : State} {f : Fin 9} {g h : Func → Func} (e : g s.host.funcs[f] = h s.host.funcs[f]) : updFunc s f g = updFunc s f h := by
  unfold updFunc; rw [e]

theorem updFunc_twice (s : State) (f : Fin 9) (g h : Func → Func) : updFunc (updFunc s f g) f h = updFunc s f fun k => h (g k) := by
  unfold updFunc
  simp only [Fin.getElem_fin, Vector.getElem_set_self, Vector.set_set]

/-- A change of a stream looks at that stream alone. -/
theorem updStream_congr {s : State} {f : Fin 9} {q : Nat} {g h : Stream → Stream} (e : g (stream s f q) = h (stream s f q)) :
    updStream s f q g = updStream s f q h := by
  refine updFunc_congr ?_
  unfold stream at e
  exact congrArg (fun z => { s.host.funcs[f] with streams := assocSet s.host.funcs[f].streams q z Stream.init }) e

theorem updStream_twice (s : State) (f : Fin 9) (q : Nat) (g h : Stream → Stream) :
    updStream (updStream s f q g) f q h = updStream s f q fun k => h (g k) := by
  refine (updFunc_twice _ _ _ _).trans (updFunc_congr ?_)
  dsimp only
  rw [assocGet_set_same, assocSet_idem]

/-- The entry a stream starts next is one of its entries. -/
theorem nextOf_mem {l : List EntryRun} {e : EntryRun} (h : nextOf l = some e) : e ∈ l := by
  induction l with
  | nil => cases h
  | cons x l ih =>
    unfold nextOf at h
    split at h
    · cases h; exact List.mem_cons_self
    · split at h
      · cases h
      · exact List.mem_cons_of_mem _ (ih h)

section
variable {s : State} {f : Fin 9} {q : Fin 64} {e x : EntryRun}

theorem stream_entered : stream (entered s f q e x) f q =
    { stream s f q with entries := (stream s f q).entries.map fun y => if entrySeq y.raw = entrySeq e.raw then x else y } :=
  stream_upd_same _ _ _ _

/-- A change of an entry that is the only one of its number replaces it. -/
theorem updEntry_sole (h : ∀ y ∈ (stream s f q).entries, entrySeq y.raw = entrySeq e.raw → y = e) (g : EntryRun → EntryRun) :
    updEntry s f q (entrySeq e.raw) g = entered s f q e (g e) := by
  refine updStream_congr (congrArg (fun l => { stream s f q with entries := l }) (List.map_congr_left fun y hy => ?_))
  split
  · rename_i hs
    rw [h y hy hs]
  · rfl

/-- Once an entry has been replaced by one of its number, that one is the only one of its number. -/
theorem entered_sole (hx : x.raw = e.raw) : ∀ y ∈ (stream (entered s f q e x) f q).entries, entrySeq y.raw = entrySeq x.raw → y = x := by
  rw [stream_entered]
  intro y hy hs
  obtain ⟨z, -, hz⟩ := List.mem_map.1 hy
  split at hz
  · exact hz.symm
  · rename_i hn
    rw [hz, hs, hx] at hn
    exact absurd rfl hn

theorem entered_mem (he : e ∈ (stream s f q).entries) : x ∈ (stream (entered s f q e x) f q).entries := by
  rw [stream_entered]
  exact List.mem_map.2 ⟨e, he, if_pos rfl⟩

/-- An entry replaced twice is replaced by the second. -/
theorem entered_twice {z : EntryRun} (hx : x.raw = e.raw) : entered (entered s f q e x) f q x z = entered s f q e z := by
  unfold entered
  rw [updStream_twice, hx]
  refine updStream_congr ?_
  dsimp only
  rw [List.map_map]
  refine congrArg (fun l => { stream s f q with entries := l }) (List.map_congr_left fun y _ => ?_)
  dsimp only [Function.comp]
  split
  · rw [if_pos (by rw [hx])]
  · rfl

/-- An entry without a counter latch starts. -/
theorem entryStart_starts {op : Nat} {rsv : List (Nat × Nat)} (h : Starts s f q e op rsv) : entryStart s f q e = entered s f q e (e.begun s.now) := by
  obtain ⟨hc, -, hr⟩ := h.plain
  have hc' : e.raw.getLsbD 73 = false := hc
  unfold entryStart
  dsimp only
  rw [hc', Bool.false_and, if_neg (by decide), updEntry_sole h.sole]
  have ht : (if e.retried = true then e.tStart else s.now) = s.now := by rw [hr]; rfl
  rw [ht]
  rfl

/-- An entry without a counter latch, the only one of its number, finishes. -/
theorem entryDone_sole (hm : x ∈ (stream s f q).entries) (h : ∀ y ∈ (stream s f q).entries, entrySeq y.raw = entrySeq x.raw → y = x)
    (hl : x.latchGroup = 0xFF) (hr : x.retried = false) (res : Res) :
    entryDone s f q (entrySeq x.raw) res = entered s f q x { x with stage := .finished, res := res, tEnd := s.now, deltas := [] } := by
  have hf : (stream s f q).entries.find? (fun y => entrySeq y.raw = entrySeq x.raw) = some x := by
    cases hh : (stream s f q).entries.find? fun y => entrySeq y.raw = entrySeq x.raw with
    | none => exact absurd (List.find?_eq_none.1 hh x hm) (by simp)
    | some y => rw [h y (List.mem_of_find?_eq_some hh) (by simpa using List.find?_some hh)]
  unfold entryDone
  rw [hf]
  dsimp only
  rw [if_pos hl, updEntry_sole h]
  dsimp only
  rw [hr]
  rfl

/-- The check at an entry's start lets through one that starts. -/
theorem startEntry_starts {op : Nat} {rsv : List (Nat × Nat)} (h : Starts s f q e op rsv) (go : EntryRun → State) :
    startEntry s f q op rsv go = go e := by
  have hw : (decide (e.stage = .held) && decide (enWait e.raw ≠ 0)) = false := by
    rcases h.wait with hw | hw <;> simp [hw]
  unfold startEntry
  rw [h.next]
  dsimp only
  rw [if_neg (not_not.2 h.opcode), h.clear, if_neg (by decide), if_neg (by simpa using h.events), hw, if_neg (by decide)]

end

/-! ## Reading -/

theorem foreignCard_le {s : State} {a : Actor} {idx sub off n k : Nat} (hn : n ≤ k) (h : foreignCard s a idx sub off k = false) :
    foreignCard s a idx sub off n = false := by
  unfold foreignCard at *
  rw [Bool.and_eq_false_iff] at h ⊢
  refine h.imp id fun h => ?_
  rw [List.any_eq_false] at h ⊢
  rintro ⟨o, l, p⟩ hx hy
  refine h _ hx ?_
  dsimp only at hy ⊢
  unfold overlaps at *
  simp only [Bool.and_eq_true, decide_eq_true_eq] at hy ⊢
  obtain ⟨hp, ⟨⟨hl, hr⟩, hp'⟩, hq⟩ := hy
  exact ⟨hp, ⟨⟨by omega, hr⟩, hp'⟩, by omega⟩

/-- An operation other than WRITE asks for no reset. -/
theorem thenReset_none {op : Nat} (h : op ≠ 2) (s : State) (code : Nat) (m : SvcMsg) : thenReset s op code m = s := by
  unfold thenReset resetAsked
  rw [if_neg (by simp [h])]

section
variable {s : State} {r : Req} {m : SvcMsg} {i : ObjInfo} (hs : Serves s r)
include hs

/-- The guard before every operation lets a requester through that is served (R397, R422, R445). -/
theorem svc_guard (op : Nat) : ((!s.pointing.lockstep && op ≠ 1) || (s.power.bringUp = .rom && !manages (actorOf s r))) = false := by
  simp [hs.lockstep, hs.running]

theorem execRead_serves : exec (.read r m) s =
    .next (emit (svcRead s r m).1 (.response r (svcBytes 1 (svcRead s r m).2.1 (svcRead s r m).2.2))) := by
  have h : svc s r none 1 m = svcRead s r m := by
    unfold svc
    dsimp only
    rw [hs.lease, svc_guard hs 1]
    rfl
  show powered s (ask s r 1 m) = _
  rw [powered_on hs.on]
  unfold ask
  rw [h]
  exact congrArg _ (thenReset_none (by decide) _ _ _)

theorem execReadSeg_serves : exec (.readSeg r m) s =
    .next (emit (svcReadSeg s r m).1 (.response r (svcBytes 3 (svcReadSeg s r m).2.1 (svcReadSeg s r m).2.2))) := by
  have h : svc s r none 3 m = svcReadSeg s r m := by
    unfold svc
    dsimp only
    rw [hs.lease, svc_guard hs 3]
    rfl
  show powered s (ask s r 3 m) = _
  rw [powered_on hs.on]
  unfold ask
  rw [h]
  exact congrArg _ (thenReset_none (by decide) _ _ _)

end

section
variable {s : State} {r : Req} {m : SvcMsg} {i : ObjInfo} (hi : objFound s m.index.toNat m.sub.toNat = some i)
  (hmay : mayRead s (actorOf s r) m.index.toNat m.sub.toNat = true) (hacc : i.access ≠ 3)
  (hcard : foreignCard s (actorOf s r) m.index.toNat m.sub.toNat m.offset.toNat 1000 = false) (hopen : s.dict.openSet = none)
include hi hmay hacc hcard hopen

/-- READ of a committed value of up to 1,000 bytes (R393). -/
theorem svcRead_committed (haux : m.aux1 = 0) (hoff : m.offset = 0) (hlen : objLen s r m.index.toNat m.sub.toNat i ≤ 1000) :
    svcRead s r m = (s, 0, answer m 0 0 (objValue s r m.index.toNat m.sub.toNat i)) := by
  have hc : foreignCard s (actorOf s r) m.index.toNat m.sub.toNat 0 (objLen s r m.index.toNat m.sub.toNat i) = false := by
    rw [hoff] at hcard
    exact foreignCard_le hlen hcard
  unfold svcRead
  dsimp only
  rw [hi]
  dsimp only
  rw [hmay, if_neg (by decide), haux]
  show (if i.access = 3 then _ else _) = _
  rw [if_neg hacc, hopen, hc, if_neg (by simp), if_neg (by omega)]

/-- READ_SEG within an object, neither at its start nor up to its end (R379). -/
theorem svcReadSeg_within (hty : i.ty = 12) (hend : m.offset.toNat + 1000 < objLen s r m.index.toNat m.sub.toNat i) (h0 : 0 < m.offset.toNat) :
    svcReadSeg s r m = (s, 0, answer m (assocGet s.dict.gens (keyOf (actorOf s r) m.index.toNat m.sub.toNat) 0).toNat 0
      (objPartRead s r m.index.toNat m.sub.toNat i m.offset.toNat 1000)) := by
  have hlast : ¬ objLen s r m.index.toNat m.sub.toNat i ≤ m.offset.toNat + 1000 := by omega
  unfold svcReadSeg
  dsimp only
  rw [hi]
  dsimp only
  rw [hmay, if_neg (by decide), if_neg hacc, if_neg (not_not.2 hty), if_neg (by omega), hopen, hcard, if_neg (by simp)]
  simp only [if_neg hlast, if_neg (show ¬ m.offset.toNat = 0 by omega)]
  rfl

end

/-! ## DICT -/

/-- Reads and the operations on change sets change dictionary and sessions alone (R393, R397 to R405). -/
theorem svc_sets_frames {s : State} {r : Req} {b : Option (Fin 9 × Fin 64)} {op : Nat} {m : SvcMsg} (hop : op = 1 ∨ 0x10 ≤ op) :
    Frames 24576 s (svc s r b op m).1 := by
  have L : Frames 24576 s (leaseCheck s) := leaseCheck_frames
  unfold svc
  dsimp only
  split
  · exact L
  · split
    · exact L.step svcRead_frames rfl
    · omega
    · omega
    · omega
    · omega
    · exact L.step svcOpen_frames rfl
    · exact L.step svcStage_frames rfl
    · exact L.step svcCheck_frames rfl
    · exact L.step svcCommit_frames rfl
    · exact L.step svcAbort_frames rfl
    · exact L.step svcRenew_frames rfl
    · exact L

/-- The OP of a message is its first byte (R376). -/
theorem parseMsg_op {b : List Byte} {op : Nat} {m : SvcMsg} (h : parseMsg b = some (op, m)) : leAt b 0 1 = op := by
  unfold parseMsg at h
  split at h
  · cases h
  · cases h; rfl

/-- A message that neither writes nor goes on with a transfer stages a reserved bit only by its own value (R6). -/
theorem rsvStaged_sets {s : State} {f : Fin 9} {bytes : List Byte} {op : Nat} {m : SvcMsg} (hp : parseMsg bytes = some (op, m))
    (hop : op = 1 ∨ 0x10 ≤ op) (h : op = 0x11 → valueRsv m.index.toNat m.sub.toNat m.data = false) : rsvStaged s f bytes = false := by
  unfold rsvStaged
  rw [hp]
  dsimp only
  by_cases h11 : op = 0x11
  · rw [if_neg (by omega), List.nil_append, h h11, Bool.and_false]
  · have : (decide (op = 2) || decide (op = 4) || decide (op = 0x11)) = false := by simp [h11]; omega
    rw [this, Bool.false_and]

/-- An entry that runs a DICT message of operation `op`. -/
def dictRan (s : State) (e : EntryRun) (op : Nat) : EntryRun := { e.begun s.now with ran := op }

/-- The state with the answer of a DICT written at the response buffer. -/
def dictAnswered (s : State) (f : Fin 9) (q : Fin 64) (e : EntryRun) (op : Nat) (m : SvcMsg) : State :=
  let x := svc (entered s f q e (dictRan s e op)) (.fn f) (some (f, q)) op m
  spaceWriteL x.1 f (partOfFn f) ((svcBytes op x.2.1 x.2.2).zipIdx.map fun z => (hostAddr (dcRespReg (enBody e.raw)) (dcRespOff (enBody e.raw) + z.2), z.1))

/-- The result of a DICT: the response's length, and its code. -/
def dictRes (s : State) (f : Fin 9) (q : Fin 64) (e : EntryRun) (op : Nat) (m : SvcMsg) : Res :=
  let x := svc (entered s f q e (dictRan s e op)) (.fn f) (some (f, q)) op m
  { Res.okay with d0 := BitVec.ofNat 64 (svcBytes op x.2.1 x.2.2).length, d1 := BitVec.ofNat 64 x.2.1 }

section
variable {s : State} {f : Fin 9} {q : Fin 64} {e : EntryRun} {op : Nat} {m : SvcMsg} {bytes : List Byte}

/-- The service and its answer leave the stream and the time as the entry's start left them. -/
theorem dictAnswered_keeps (hop : op = 1 ∨ 0x10 ≤ op) :
    stream (dictAnswered s f q e op m) f q = stream (entered s f q e (dictRan s e op)) f q ∧ (dictAnswered s f q e op m).now = s.now := by
  have F := svc_sets_frames (s := entered s f q e (dictRan s e op)) (r := .fn f) (b := some (f, q)) (m := m) hop
  unfold dictAnswered
  dsimp only
  refine ⟨stream_of_streams ?_ q, ?_⟩
  · rw [spaceWriteL_funcs, F.host rfl]
  · rw [spaceWriteL_frames.now rfl, F.now rfl]
    rfl

/-- The entry finishes in the state with its answer. -/
theorem dict_finishes (h : Starts s f q e 6 [(735, 112)]) (hop : op = 1 ∨ 0x10 ≤ op) (res : Res) :
    entryDone (dictAnswered s f q e op m) f q (entrySeq e.raw) res = entered (dictAnswered s f q e op m) f q e ((dictRan s e op).ended s.now res) := by
  obtain ⟨hst, hnow⟩ := dictAnswered_keeps (s := s) (f := f) (q := q) (e := e) (m := m) hop
  obtain ⟨-, hl, hr⟩ := h.plain
  have hmem : dictRan s e op ∈ (stream (dictAnswered s f q e op m) f q).entries := by rw [hst]; exact entered_mem (nextOf_mem h.next)
  have hsole : ∀ y ∈ (stream (dictAnswered s f q e op m) f q).entries, entrySeq y.raw = entrySeq (dictRan s e op).raw → y = dictRan s e op := by
    rw [hst]; exact entered_sole rfl
  rw [show entrySeq e.raw = entrySeq (dictRan s e op).raw from rfl, entryDone_sole hmem hsole hl hr, hnow]
  rfl

/-- A request that is read lies where the part can see it. -/
theorem dictRequest_seen (hreq : dictRequest s f (enBody e.raw) = some bytes) : dictBlind s f (enBody e.raw) = none := by
  unfold dictRequest at hreq
  split at hreq
  · cases hreq
  · assumption

/-- The entry's start, with the operation of its message noted. -/
theorem dict_begins (h : Starts s f q e 6 [(735, 112)]) (hp : parseMsg bytes = some (op, m)) :
    updEntry (entryStart s f q e) f q (entrySeq e.raw) (fun x => { x with ran := leAt bytes 0 1 }) = entered s f q e (dictRan s e op) := by
  have hb : (e.begun s.now).raw = e.raw := rfl
  rw [entryStart_starts h, ← hb, updEntry_sole (entered_sole hb), entered_twice hb, parseMsg_op hp]
  rfl

/-- A DICT whose buffers can be reached carries its message to the service, and no reset follows. -/
theorem execDict_serves (h : Starts s f q e 6 [(735, 112)]) (h1 : 1 ≤ dcReqLen (enBody e.raw)) (h2 : dcReqLen (enBody e.raw) ≤ 1024)
    (h3 : dcRespOff (enBody e.raw) % 64 = 0) (hb : hostBufferFault s f (dcRespReg (enBody e.raw)) (dcRespOff (enBody e.raw)) 1024 2 = none)
    (hreq : dictRequest s f (enBody e.raw) = some bytes) (hp : parseMsg bytes = some (op, m)) (hop : op = 1 ∨ 0x10 ≤ op)
    (hpend : regionPending s f e.raw = false)
    (hrsv : (svc (entered s f q e (dictRan s e op)) (.fn f) (some (f, q)) op m).2.1 = 0x0202 → rsvStaged s f bytes = false) :
    exec (.dict f q) s = .next (entryDone (dictAnswered s f q e op m) f q (entrySeq e.raw) (dictRes s f q e op m)) := by
  have hgo : (decide ((svc (entered s f q e (dictRan s e op)) (.fn f) (some (f, q)) op m).2.1 = 0x0202) && rsvStaged s f bytes) = false := by
    rw [Bool.and_eq_false_iff]
    by_cases hc : (svc (entered s f q e (dictRan s e op)) (.fn f) (some (f, q)) op m).2.1 = 0x0202
    · exact .inr (hrsv hc)
    · exact .inl (decide_eq_false hc)
  have hlen : (decide (dcReqLen (enBody e.raw) = 0) || decide (1024 < dcReqLen (enBody e.raw)) || decide (dcRespOff (enBody e.raw) % 64 ≠ 0)) = false := by
    simp; omega
  show powered s _ = _
  rw [powered_on h.on, h.next]
  dsimp only
  generalize hran : startEntry s f q 6 [(735, 112)] _ = t
  rw [startEntry_starts h, hpend, if_neg Bool.false_ne_true, hlen, if_neg Bool.false_ne_true, dictRequest_seen hreq, hb, hreq] at hran
  dsimp only [Option.orElse] at hran
  rw [dict_begins h hp, hp] at hran
  dsimp only at hran
  rw [hgo, if_neg Bool.false_ne_true] at hran
  rw [hreq]
  dsimp only
  rw [hp]
  refine congrArg Host.Outcome.next (Eq.trans ?_ hran.symm)
  dsimp only
  split
  · rfl
  · split
    · split
      · exact thenReset_none (by omega) _ _ _
      · rfl
    · rfl

end

/-- Settles O35: READ and READ_SEG answer what their service lemmas say, and a DICT runs the same service between its entry's start and its end. -/
theorem dictionaryReads : Obligations.DictionaryReads := by
  unfold Obligations.DictionaryReads
  intro s r m
  refine ⟨fun i hs hi hmay hacc hcard hopen => ⟨fun haux hoff hlen => ?_, fun hty hend h0 => ?_⟩, ?_⟩
  · rw [execRead_serves hs, svcRead_committed hi hmay hacc hcard hopen haux hoff hlen]
    rfl
  · rw [execReadSeg_serves hs, svcReadSeg_within hi hmay hacc hcard hopen hty hend h0]
    rfl
  · intro f q e bytes op hs hst b h1 h2 h3 hb hreq hp hop hpend ran x rb y hrsv
    exact (execDict_serves hst h1 h2 h3 hb hreq hp hop hpend fun hc => rsvStaged_sets hp hop (hrsv hc)).trans
      (congrArg _ (dict_finishes hst hop _))

end Sys2Proof.Machine
end

section
/-! Writes of a Course's and a Trowel's own objects (R50, R73, R94): the value stands in the unit, so the row of the object changes the unit and
nothing of the dictionary but, for a DOMAIN, its generation. -/

namespace Sys2Proof.Machine

open Sys2Proof

/-! ## Bytes of a word -/

theorem leBytes_length (n v : Nat) : (leBytes n v).length = n := by
  induction n generalizing v with
  | zero => rfl
  | succ n ih => exact congrArg (· + 1) (ih _)

theorem ofLe_leBytes (n v : Nat) : ofLe (leBytes n v) = v % 256 ^ n := by
  induction n generalizing v with
  | zero => exact (Nat.mod_one v).symm
  | succ n ih =>
    unfold leBytes ofLe
    rw [ih, BitVec.toNat_ofNat, Nat.pow_succ' (n := n)]
    exact Nat.mod_mul.symm

/-- The number read back from a value's own bytes. -/
theorem leAt_whole (d : List Byte) : leAt d 0 d.length = ofLe d := by
  unfold leAt sliceZ
  simp

theorem leAt_byte (v : Byte) : BitVec.ofNat 8 (leAt [v] 0 1) = v := by
  rw [show leAt [v] 0 1 = v.toNat from leAt_whole [v], BitVec.ofNat_toNat, BitVec.setWidth_eq]

theorem leAt_wordBytes (d : BitVec 256) : BitVec.ofNat 256 (leAt (wordBytes d) 0 32) = d := by
  have h := leAt_whole (leBytes 32 d.toNat)
  rw [leBytes_length, ofLe_leBytes, Nat.mod_eq_of_lt (by simpa using d.isLt)] at h
  rw [show leAt (wordBytes d) 0 32 = d.toNat from h, BitVec.ofNat_toNat, BitVec.setWidth_eq]

theorem idxIn_course (n : Fin 8) : idxIn (0x6100 + n) 0x6100 0x6107 = true := by
  simp only [idxIn, Bool.and_eq_true, decide_eq_true_eq]
  omega

theorem fin8_val (n : Fin 8) : fin8 n.val = n := dif_pos n.isLt

/-! ## The objects at 0x6100 to 0x6107 and at 0x6200 -/

section
variable {idx sub : Nat} (hlo : 0x6100 ≤ idx) (hhi : idx ≤ 0x6200)
include hlo hhi

/-- Every requester means the module's one object. -/
theorem keyOf_unit (a : Actor) : keyOf a idx sub = ⟨0, idx, sub⟩ := by
  have h : perFn idx sub = false := by
    simp only [perFn, idxIn, Bool.or_eq_false_iff, Bool.and_eq_false_iff, decide_eq_false_iff_not]
    omega
  unfold keyOf
  rw [h]
  rfl

/-- They are written whole. -/
theorem entryBytes_unit : entryBytes idx sub = 0 := by
  unfold entryBytes idxIn
  simp only [Bool.or_eq_true, Bool.and_eq_true, decide_eq_true_eq]
  rw [if_neg (by omega), if_neg (by omega), if_neg (by omega), if_neg (by omega)]

/-- Nothing follows from their new value. -/
theorem afterValue_unit (s : State) (f : Nat) : afterValue s ⟨f, idx, sub⟩ = s := by
  unfold afterValue idxIn
  simp only [Bool.and_eq_true, decide_eq_true_eq]
  rw [if_neg (by omega), if_neg (by omega), if_neg (by omega), if_neg (by omega), if_neg (by omega), if_neg (by omega), if_neg (by omega)]

end

/-- A value that stands in its unit is none that the flash keeps. -/
theorem storeFlash_inUnit (s : State) {k : ObjKey} (d : List Byte) (h : inUnit k.idx k.sub = true) : (storeFlash s [(k, d)]).1 = s := by
  unfold storeFlash
  rw [List.filter_cons_of_neg]
  · rfl
  · dsimp only
    rw [h]
    cases objInfo k.idx k.sub with
    | none => exact Bool.false_ne_true
    | some i => simp

/-- A value that stands in its unit goes to the unit; a DOMAIN's generation rises. -/
theorem takeValue_inUnit (s : State) {k : ObjKey} {i : ObjInfo} (off : Nat) (d : List Byte) (hi : objInfo k.idx k.sub = some i)
    (h : inUnit k.idx k.sub = true) : takeValue s k off d = unitTakes (if i.ty = 12 then genBump s k.f k.idx k.sub else s) k off d := by
  unfold takeValue
  rw [hi, h]
  rfl

/-- The write of such an object that its requester may make: the unit takes the value, and the module's state may be reported. -/
theorem rowWrite_unit {s : State} {r : Req} {idx sub : Nat} {d : List Byte} {i : ObjInfo} (h : MayWrite s r idx sub d 2) (hlo : 0x6100 ≤ idx)
    (hhi : idx ≤ 0x6200) (hu : inUnit idx sub = true) (hi : objInfo idx sub = some i) :
    rowWrite s r idx sub 0 d =
      moduleEvent s (unitTakes (if i.ty = 12 then genBump s 0 idx sub else s) ⟨0, idx, sub⟩ 0 d) := by
  have he := entryBytes_unit (sub := sub) hlo hhi
  rw [rowWrite_rw h (.inl he), if_pos he, keyOf_unit hlo hhi, afterValue_unit hlo hhi, storeFlash_inUnit (k := ⟨0, idx, sub⟩) _ _ hu,
    takeValue_inUnit (k := ⟨0, idx, sub⟩) _ _ _ hi hu]

/-! ## What each of them does -/

section
variable {s : State} {r : Req} {n : Fin 8}

/-- A write of one of a Course's own objects goes to the Course its index names. -/
theorem rowWrite_course {sub : Nat} {d : List Byte} {i : ObjInfo} (h : MayWrite s r (0x6100 + n) sub d 2)
    (hs : sub = 0x10 ∨ sub = 0x20 ∨ sub = 0x40) (hi : objInfo (0x6100 + n) sub = some i) :
    rowWrite s r (0x6100 + n) sub 0 d =
      moduleEvent s (unitTakes (if i.ty = 12 then genBump s 0 (0x6100 + n) sub else s) ⟨0, 0x6100 + n, sub⟩ 0 d) := by
  refine rowWrite_unit h (by omega) (by omega) ?_ hi
  unfold inUnit
  rw [idxIn_course n]
  rcases hs with rfl | rfl | rfl <;> rfl

theorem unitTakes_check (off : Nat) (v : Byte) : unitTakes s ⟨0, 0x6100 + n, 0x20⟩ off [v] = setCheck s n v := by
  unfold unitTakes
  dsimp only
  rw [if_pos (idxIn_course n), Nat.add_sub_cancel_left, fin8_val, leAt_byte]
  rfl

theorem unitTakes_courseSticky (off : Nat) (v : Byte) :
    unitTakes s ⟨0, 0x6100 + n, 0x10⟩ off [v] = updCourse s n fun c => { c with sticky := c.sticky &&& ~~~ v } := by
  unfold unitTakes
  dsimp only
  rw [if_pos (idxIn_course n), Nat.add_sub_cancel_left, fin8_val, leAt_byte]
  rfl

theorem unitTakes_offender (off : Nat) (d : BitVec 256) : unitTakes s ⟨0, 0x6100 + n, 0x40⟩ off (wordBytes d) = clearOffender s n d := by
  unfold unitTakes
  dsimp only
  rw [if_pos (idxIn_course n), Nat.add_sub_cancel_left, fin8_val, leAt_wordBytes]
  rfl

theorem unitTakes_trowelSticky (off : Nat) (v : Byte) :
    unitTakes s ⟨0, 0x6200, 0x10 + n⟩ off [v] = updTrowel s n fun t => { t with sticky := t.sticky &&& ~~~ v } := by
  have hn : (0x10 + n.val) % 8 = n.val := by omega
  unfold unitTakes
  dsimp only
  rw [if_neg (by decide), if_pos rfl, hn, fin8_val, leAt_byte]
  rfl

theorem rowWrite_check {v : Byte} (h : MayWrite s r (0x6100 + n) 0x20 [v] 2) :
    rowWrite s r (0x6100 + n) 0x20 0 [v] = moduleEvent s (setCheck s n v) := by
  have hi : ∀ n : Fin 8, objInfo (0x6100 + n) 0x20 = some ⟨1, 2, false, 1, [1], []⟩ := by decide +kernel
  rw [rowWrite_course h (.inr (.inl rfl)) (hi n), if_neg (by decide), unitTakes_check]

theorem rowWrite_courseSticky {v : Byte} (h : MayWrite s r (0x6100 + n) 0x10 [v] 2) :
    rowWrite s r (0x6100 + n) 0x10 0 [v] = moduleEvent s (updCourse s n fun c => { c with sticky := c.sticky &&& ~~~ v }) := by
  have hi : ∀ n : Fin 8, objInfo (0x6100 + n) 0x10 = some ⟨2, 2, false, 1, [0], []⟩ := by decide +kernel
  rw [rowWrite_course h (.inl rfl) (hi n), if_neg (by decide), unitTakes_courseSticky]

theorem rowWrite_offender {d : BitVec 256} (h : MayWrite s r (0x6100 + n) 0x40 (wordBytes d) 2) :
    rowWrite s r (0x6100 + n) 0x40 0 (wordBytes d) = moduleEvent s (clearOffender (genBump s 0 (0x6100 + n) 0x40) n d) := by
  have hi : ∀ n : Fin 8, objInfo (0x6100 + n) 0x40 = some ⟨12, 2, false, 32, [], []⟩ := by decide +kernel
  rw [rowWrite_course h (.inr (.inr rfl)) (hi n), if_pos rfl, unitTakes_offender]

theorem rowWrite_trowelSticky {v : Byte} (h : MayWrite s r 0x6200 (0x10 + n) [v] 2) :
    rowWrite s r 0x6200 (0x10 + n) 0 [v] = moduleEvent s (updTrowel s n fun t => { t with sticky := t.sticky &&& ~~~ v }) := by
  have hi : ∀ n : Fin 8, objInfo 0x6200 (0x10 + n) = some ⟨2, 2, false, 1, [0], []⟩ := by decide +kernel
  have hu : ∀ n : Fin 8, inUnit 0x6200 (0x10 + n) = true := by decide
  rw [rowWrite_unit h (by decide) (by decide) (hu n) (hi n), if_neg (by decide), unitTakes_trowelSticky]

/-- A record whose VALID is written as 1 stays; as 0, the record is cleared (R94). -/
theorem clearOffender_courses (d : BitVec 256) : (clearOffender s n d).courses =
    s.courses.set n { s.courses[n] with offender := if d.getLsbD 128 then s.courses[n].offender else 0 } := by
  unfold clearOffender
  cases d.getLsbD 128 with
  | false => rfl
  | true => exact (Vector.set_getElem_self n.isLt).symm

end

/-- Settles O13: each row hands its value to the unit (`rowWrite_check`, `rowWrite_courseSticky`, `rowWrite_trowelSticky`, `rowWrite_offender`),
and the report that may follow changes Evolu alone. -/
theorem courseAndTrowelObjects : Obligations.CourseAndTrowelObjects := by
  unfold Obligations.CourseAndTrowelObjects
  intro s r n v d
  refine ⟨fun h => next_of h.on ?_, fun h => next_of h.on ?_, fun h => next_of h.on ?_, fun h => next_of h.on ?_⟩
  · rw [rowWrite_check h]
    exact ⟨((setCheck_frames.mono rfl).step (m := 8196) moduleEvent_frames rfl).sameBut _ rfl, moduleEvent_frames.courses rfl⟩
  · rw [if_neg (by decide), rowWrite_courseSticky h]
    exact ⟨((updCourse_frames.mono rfl).step (m := 8196) moduleEvent_frames rfl).sameBut _ rfl, moduleEvent_frames.courses rfl⟩
  · rw [if_pos rfl, rowWrite_trowelSticky h]
    exact ⟨((updTrowel_frames.mono rfl).step (m := 8200) moduleEvent_frames rfl).sameBut _ rfl, moduleEvent_frames.trowels rfl⟩
  · rw [rowWrite_offender h]
    have hf : Frames 24580 s (clearOffender (genBump s 0 (0x6100 + n) 0x40) n d) := (genBump_frames.mono rfl).step clearOffender_frames rfl
    have hd : (moduleEvent s (clearOffender (genBump s 0 (0x6100 + n) 0x40) n d)).dict = (genBump s 0 (0x6100 + n) 0x40).dict :=
      (moduleEvent_frames.dict rfl).trans (clearOffender_frames.dict rfl)
    exact ⟨(hf.step moduleEvent_frames rfl).sameBut _ rfl, by rw [hd]; rfl, (moduleEvent_frames.courses rfl).trans (clearOffender_courses d)⟩

end Sys2Proof.Machine
end

section
/-! What operations on one Course leave of the Courses: the other seven as they are, and where only owners of tiles change, all of the
Course itself but its tiles (R91). -/

namespace Sys2Proof.Machine

open Sys2Proof

/-! ## The other Courses -/

/-- Every Course but `n` is the same. -/
def OtherCourses (n : Fin 8) (s t : State) : Prop := ∀ m : Fin 8, m ≠ n → t.courses[m] = s.courses[m]

section
variable {n : Fin 8} {r s t : State}

theorem OtherCourses.of_eq (h : t.courses = s.courses) : OtherCourses n s t := fun _ _ => by rw [h]

theorem OtherCourses.trans (h : OtherCourses n r s) (k : OtherCourses n s t) : OtherCourses n r t :=
  fun m hm => (k m hm).trans (h m hm)

theorem otherCourses_updCourse (s : State) (n : Fin 8) (g : Course → Course) : OtherCourses n s (updCourse s n g) :=
  fun m hm => updCourse_other s n m g hm

/-- A Course changed in a state with the Courses of `s`. -/
theorem updCourse_of_courses (h : t.courses = s.courses) (g : Course → Course) :
    OtherCourses n s (updCourse t n g) ∧ (updCourse t n g).courses[n] = g s.courses[n] := by
  refine ⟨OtherCourses.trans (.of_eq h) (otherCourses_updCourse t n g), ?_⟩
  rw [updCourse_same, h]

theorem otherCourses_updTile (s : State) (n : Fin 8) (h : Nat) (g : Tile → Tile) : OtherCourses n s (updTile s n h g) :=
  otherCourses_updCourse s n _

theorem otherCourses_tileTake (s : State) (n : Fin 8) (h : Nat) (iss : Issuer) : OtherCourses n s (tileTake s n h iss) := by
  unfold tileTake
  split
  · exact otherCourses_updTile _ _ _ _
  · exact .of_eq rfl

theorem otherCourses_tilesTake (s : State) (n : Fin 8) (u : UnitCmd) : OtherCourses n s (tilesTake s n u) := by
  unfold tilesTake
  generalize cmdTiles u = l
  induction l generalizing s with
  | nil => exact .of_eq rfl
  | cons h l ih => exact (otherCourses_tileTake s n h u.iss).trans (ih _)

theorem otherCourses_latchOffence (s : State) (n : Fin 8) (u : UnitCmd) (p : Nat) (o : Option Offence) :
    OtherCourses n s (latchOffence s n u p o) := by
  unfold latchOffence
  dsimp only
  split
  · exact .of_eq rfl
  · rename_i o
    have hu := otherCourses_updCourse s n fun c => if c.offender.getLsbD 128 then c else { c with offender := offenderRecord s n u p o }
    split
    · exact hu.trans (.of_eq rfl)
    · exact hu

end

/-! ## A Course whose tiles alone change -/

/-- Nothing of a Course but its tiles changes. -/
def TilesApart (k j : Course) : Prop := ∃ ts, j = { k with tiles := ts }

theorem TilesApart.refl (k : Course) : TilesApart k k := ⟨k.tiles, rfl⟩

theorem TilesApart.trans {k j i : Course} (h : TilesApart k j) (g : TilesApart j i) : TilesApart k i := by
  obtain ⟨a, rfl⟩ := h
  obtain ⟨b, rfl⟩ := g
  exact ⟨b, rfl⟩

theorem updTile_tilesApart (s : State) (n : Fin 8) (h : Nat) (g : Tile → Tile) : TilesApart s.courses[n] (updTile s n h g).courses[n] :=
  ⟨_, updTile_tile s n h g⟩

theorem ownerSignal_tilesApart (s : State) (st : Option (Fin 9 × Fin 64)) (f : Fin 9) (e : Nat) (n : Fin 8) :
    TilesApart s.courses[n] (ownerSignal s st f e).courses[n] := by
  unfold ownerSignal
  split
  · exact .refl _
  · exact ⟨_, Vector.getElem_map _ n.isLt⟩

theorem retireUnit_tilesApart (s : State) (c : Fin 16) (att : Nat) (k : Fin 4) (i : Fin 8) (seq op tag ev : Nat) (res : Res) (n : Fin 8) :
    TilesApart s.courses[n] (retireUnit s (.core c att k i seq) op tag ev res).courses[n] := by
  unfold retireUnit retireNoted
  dsimp only
  split
  · split
    · split
      · refine TilesApart.trans (j := (signalEv _ _ _).courses[n]) ?_ (ownerSignal_tilesApart _ _ _ _ n)
        rw [signalEv_frames.courses rfl]
        exact .refl _
      · exact .refl _
    · exact .refl _
  · exact .refl _

theorem tileGive_tilesApart (s : State) (n : Fin 8) (h : Nat) : TilesApart s.courses[n] (tileGive s n h).courses[n] := by
  unfold tileGive
  split
  · exact .refl _
  · exact updTile_tilesApart s n h _

theorem tilesGive_tilesApart (s : State) (n : Fin 8) (u : UnitCmd) : TilesApart s.courses[n] (tilesGive s n u).courses[n] := by
  unfold tilesGive
  generalize cmdTiles u = l
  induction l generalizing s with
  | nil => exact .refl _
  | cons h l ih =>
    exact (tileGive_tilesApart s n h).trans (ih _)

/-! ## Tiles that a command takes -/

theorem ownedAs_refl (x : Tile) : OwnedAs x x := ⟨x.owner, x.inUse, x.evs, x.fenced, rfl⟩

theorem ownedAs_trans {x y z : Tile} (h : OwnedAs x y) (g : OwnedAs y z) : OwnedAs x z := by
  obtain ⟨_, _, _, _, rfl⟩ := h
  obtain ⟨a, b, c, d, rfl⟩ := g
  exact ⟨a, b, c, d, rfl⟩

/-- A stream takes one tile: that tile has a new owner, and every other one is the same. -/
theorem tileTake_tile (s : State) (n : Fin 8) (h : Nat) (iss : Issuer) (g : Fin 64) :
    OwnedAs s.courses[n].tiles[g] (tileTake s n h iss).courses[n].tiles[g] ∧
      (fin64 h ≠ g → (tileTake s n h iss).courses[n].tiles[g] = s.courses[n].tiles[g]) := by
  unfold tileTake
  split
  · rw [updTile_tile]
    by_cases e : fin64 h = g
    · subst e
      simp only [Fin.getElem_fin, Vector.getElem_set_self]
      exact ⟨⟨_, _, _, _, rfl⟩, fun x => absurd rfl x⟩
    · have hne : (fin64 h).val ≠ g.val := fun x => e (Fin.ext x)
      simp only [Fin.getElem_fin, Vector.getElem_set_ne _ _ hne]
      exact ⟨ownedAs_refl _, fun _ => trivial⟩
  · exact ⟨ownedAs_refl _, fun _ => rfl⟩

theorem tileTake_tilesApart (s : State) (n : Fin 8) (h : Nat) (iss : Issuer) :
    TilesApart s.courses[n] (tileTake s n h iss).courses[n] := by
  unfold tileTake
  split
  · exact updTile_tilesApart s n h _
  · exact .refl _

/-- A command takes its tiles: of the Course at most the owners of the tiles it names change. -/
theorem tilesTake_owned (s : State) (n : Fin 8) (u : UnitCmd) :
    TilesApart s.courses[n] (tilesTake s n u).courses[n] ∧ TilesOwned s.courses[n] (tilesTake s n u).courses[n] u := by
  unfold tilesTake TilesOwned
  generalize cmdTiles u = l
  induction l generalizing s with
  | nil => exact ⟨.refl _, fun g => ⟨ownedAs_refl _, fun _ => rfl⟩⟩
  | cons h l ih =>
    obtain ⟨ha, ho⟩ := ih (tileTake s n h u.iss)
    refine ⟨(tileTake_tilesApart s n h u.iss).trans ha, fun g => ?_⟩
    obtain ⟨h1, h2⟩ := tileTake_tile s n h u.iss g
    refine ⟨ownedAs_trans h1 (ho g).1, fun hx => ?_⟩
    exact ((ho g).2 fun x hm => hx x (List.mem_cons_of_mem _ hm)).trans (h2 (hx h List.mem_cons_self))

end Sys2Proof.Machine
end

section
/-! MM and LOADW at the issue port of a Course (R56, R62, R65, R89 to R91, R119). -/

namespace Sys2Proof.Machine

open Sys2Proof

/-! ## A command joins the queue -/

section
variable {s : State} {w : Who} {cr : Fin 16} {p : Fin 8} {a : Attempt} {k : CoreRun} {n : Fin 8} {c : Cmd}

theorem ownsCourse_of (h : OwnsCourse s n p) (c : Fin 16) : ownsCourse n s c p = true := by
  unfold ownsCourse
  rw [h.1, h.2]
  simp

/-- A store that a core may make at the issue port of a Course it owns. -/
theorem coursePort_of_may (hm : CoreMay s w cr p a k) (ho : OwnsCourse s n p) :
    coursePort s w n c = castReady (
      if fld c 7 0 = 0x21 then goCourse (courseQueued (bookIssue s cr w k) n (mmCmd s n c (coreIssuer cr a k))) n
      else if fld c 7 0 = 0x22 then goCourse (courseQueued (bookIssue s cr w k) n (loadwCmd s n c (coreIssuer cr a k))) n
      else retireUnit (bookIssue s cr w k) (coreIssuer cr a k) (fld c 7 0) (fld c 63 32) 0 (rejected .badField)) := by
  unfold coursePort
  dsimp only
  rw [issueStore_of_may hm (ownsCourse_of ho cr)]
  rfl

theorem exec_mm_queues (hm : CoreMay s w cr p a k) (ho : OwnsCourse s n p) (hop : fld c 7 0 = 0x21) :
    exec (.mm w n c) s = .next (castReady (goCourse (courseQueued (bookIssue s cr w k) n (mmCmd s n c (coreIssuer cr a k))) n)) := by
  show powered s (coursePort s w n c) = _
  rw [powered_on hm.on, coursePort_of_may hm ho, if_pos hop]

theorem exec_loadw_queues (hm : CoreMay s w cr p a k) (ho : OwnsCourse s n p) (hop : fld c 7 0 = 0x22) :
    exec (.loadw w n c) s = .next (castReady (goCourse (courseQueued (bookIssue s cr w k) n (loadwCmd s n c (coreIssuer cr a k))) n)) := by
  show powered s (coursePort s w n c) = _
  rw [powered_on hm.on, coursePort_of_may hm ho, if_neg (by omega), if_pos hop]

/-- A state whose Crews are those after the account of a store. -/
theorem booked_of_crews {t : State} (hm : CoreMay s w cr p a k) (h : t.crews = (bookIssue s cr w k).crews) : Booked s t cr a w k := by
  unfold Booked
  rw [h]
  refine ⟨?_, fun d hd => updCrew_other _ _ _ _ hd⟩
  unfold bookIssue updAttempt
  rw [updCrew_same, findCore_attempt hm.core]
  rfl

/-- The account and the queueing touch the issuer's Crew and the Course. -/
theorem courseQueued_sameBut (s : State) (cr : Fin 16) (w : Who) (k : CoreRun) (n : Fin 8) (u : UnitCmd) :
    SameBut [.courses, .crews] s (courseQueued (bookIssue s cr w k) n u) :=
  ((bookIssue_frames.mono (m := 1028) rfl).step updCourse_frames rfl).sameBut _ rfl

/-- A command that finds its Course at work waits in the queue, and nothing follows. -/
theorem queued_at_busy (hm : CoreMay s w cr p a k) (hb : Busy s.courses[n].queue) (hs : s.courses[n].stores = []) (u : UnitCmd) :
    castReady (goCourse (courseQueued (bookIssue s cr w k) n u) n) = courseQueued (bookIssue s cr w k) n u := by
  obtain ⟨v, l, hq, hv⟩ := hb
  have hgo : goCourse (courseQueued (bookIssue s cr w k) n u) n = courseQueued (bookIssue s cr w k) n u := by
    refine goCourse_busy (u := v) (l := l ++ [u]) ?_ hv ?_
    · unfold courseQueued
      rw [updCourse_same]
      show s.courses[n].queue ++ [u] = _
      rw [hq]
      rfl
    · unfold courseQueued
      rw [updCourse_same]
      exact hs
  rw [hgo]
  exact castReady_same (calm_bookIssue s cr w k hm.calm) rfl rfl

end

/-- Settles O8: the store's account and the end of the queue are all there is (`queued_at_busy`). -/
theorem courseCommandsQueue : Obligations.CourseCommandsQueue := by
  unfold Obligations.CourseCommandsQueue
  intro s w cr p a k n c hm ho hb hs
  refine ⟨fun hop => ?_, fun hop => ?_⟩
  · refine ⟨_, exec_mm_queues hm ho hop, ?_⟩
    rw [queued_at_busy hm hb hs]
    exact ⟨booked_of_crews hm rfl, courseQueued_sameBut .., rfl⟩
  · refine ⟨_, exec_loadw_queues hm ho hop, ?_⟩
    rw [queued_at_busy hm hb hs]
    exact ⟨booked_of_crews hm rfl, courseQueued_sameBut .., rfl⟩

/-! ## A command starts -/

/-- The state in which the oldest command of a Course runs and its stream has taken its tiles (R91). -/
def courseTaken (s : State) (n : Fin 8) (u : UnitCmd) : State := tilesTake (setCourseHead s n fun x => { x with run := true }) n u

/-- A tile in which an MM with INIT begins a sum (R89). -/
def tileBegun (c : Cmd) (t : Tile) : Tile :=
  { t with init := true, passes := 0, widened := false, acc16 := mmAcc16 c, cls := mmClass c, rows := mmM c, broken := false }

/-- The state in which an MM's tile has begun its sum, where the MM says INIT. -/
def sumBegun (s : State) (n : Fin 8) (c : Cmd) : State :=
  if mmInit c then tileChanged (updTile s n (mmTile c) (tileBegun c)) n (mmTile c) else s

theorem startCourse_loadw {s : State} {n : Fin 8} {u : UnitCmd} (h : u.op = 0x22) :
    startCourse s n u = updCourse (courseTaken s n u) n fun c => { c with stage := .load } := by
  unfold startCourse
  dsimp only
  rw [if_pos h]
  rfl

theorem startCourse_mm {s : State} {n : Fin 8} {u : UnitCmd} (h : u.op ≠ 0x22) :
    startCourse s n u = startPass (sumBegun (courseTaken s n u) n u.word) n u 1 := by
  unfold startCourse
  dsimp only
  rw [if_neg h]
  rfl

theorem otherCourses_courseTaken (s : State) (n : Fin 8) (u : UnitCmd) : OtherCourses n s (courseTaken s n u) :=
  (otherCourses_updCourse s n _).trans (otherCourses_tilesTake _ n u)

theorem courseTaken_course {s : State} {n : Fin 8} {u : UnitCmd} {l : List UnitCmd} (hq : s.courses[n].queue = u :: l) :
    (∃ ts, (courseTaken s n u).courses[n] = { s.courses[n] with queue := { u with run := true } :: l, tiles := ts }) ∧
      TilesOwned s.courses[n] (courseTaken s n u).courses[n] u := by
  have hc : (setCourseHead s n fun x => { x with run := true }).courses[n] = { s.courses[n] with queue := { u with run := true } :: l } := by
    unfold setCourseHead
    rw [updCourse_same, hq]
  obtain ⟨⟨ts, ha⟩, ho⟩ := tilesTake_owned (setCourseHead s n fun x => { x with run := true }) n u
  rw [hc] at ha ho
  exact ⟨⟨ts, ha⟩, ho⟩

theorem otherCourses_sumBegun (s : State) (n : Fin 8) (c : Cmd) : OtherCourses n s (sumBegun s n c) := by
  unfold sumBegun
  split
  · exact (otherCourses_updTile s n _ _).trans (otherCourses_updCourse _ n _)
  · exact .of_eq rfl

theorem sumBegun_course (s : State) (n : Fin 8) (c : Cmd) :
    (sumBegun s n c).courses[n] =
      { s.courses[n] with
        tiles := if mmInit c then s.courses[n].tiles.set (fin64 (mmTile c)) (tileBegun c s.courses[n].tiles[fin64 (mmTile c)])
          else s.courses[n].tiles
        active := if mmInit c then voidView (mmTile c) s.courses[n].active else s.courses[n].active
        loading := if mmInit c then voidView (mmTile c) s.courses[n].loading else s.courses[n].loading } := by
  unfold sumBegun
  cases mmInit c with
  | false => rfl
  | true =>
    rw [if_pos rfl, tileChanged, updCourse_same, updTile_tile]
    rfl

theorem sumBegun_frames {s : State} {n : Fin 8} {c : Cmd} : Frames 4 s (sumBegun s n c) :=
  Frames.ite (updTile_frames.step tileChanged_frames rfl) (Frames.refl _ _)

theorem otherCourses_startPass (s : State) (n : Fin 8) (u : UnitCmd) (p : Nat) : OtherCourses n s (startPass s n u p) :=
  otherCourses_updCourse s n _

/-- A pass begins, with the margin committed now, where a buffer holds its weight tile; else it waits for the tile (R56, R74). -/
theorem startPass_begins (s : State) (n : Fin 8) (u : UnitCmd) (p : Nat) :
    let there := tileMatch u p s.courses[n].loading || tileMatch u p s.courses[n].active
    (startPass s n u p).courses[n].stage = (if there then .pass else .load) ∧
      (there = true → (startPass s n u p).courses[n].tau = tauNow s n) := by
  unfold startPass
  dsimp only
  rw [updCourse_same]
  cases tileMatch u p s.courses[n].loading with
  | true => exact ⟨rfl, fun _ => rfl⟩
  | false =>
    cases tileMatch u p s.courses[n].active with
    | true => exact ⟨rfl, fun _ => rfl⟩
    | false => exact ⟨rfl, fun h => absurd h Bool.false_ne_true⟩

theorem startCourse_stores {s : State} {n : Fin 8} {u : UnitCmd} {l : List UnitCmd} (hq : s.courses[n].queue = u :: l) :
    (startCourse s n u).courses[n].stores = s.courses[n].stores := by
  obtain ⟨⟨ts, ht⟩, -⟩ := courseTaken_course hq
  by_cases hop : u.op = 0x22
  · rw [startCourse_loadw hop, updCourse_same, ht]
  · obtain ⟨_, _, _, _, hp⟩ := startPass_course (sumBegun (courseTaken s n u) n u.word) n u 1
    rw [startCourse_mm hop, hp, sumBegun_course, ht]

/-- The one command of a Course, which nothing holds and no check rejects, starts. -/
theorem goCourse_starts {s : State} {n : Fin 8} {u : UnitCmd} (hq : s.courses[n].queue = [u]) (hs : s.courses[n].stores = [])
    (hr : u.run = false) (hb : u.blocked = 0) (hw : tileWaits s n u = false)
    (hy : (if u.op = 0x22 then loadwReject s n u else mmReject s n u) = none) :
    goCourse s n = startCourse (waitSpent s n (cmdTiles u)) n u := by
  have hc : (waitSpent s n (cmdTiles u)).courses = s.courses := waitSpent_frames.courses rfl
  have ha : advCourse (s.courses[n].queue.length + 1) s n = startCourse (waitSpent s n (cmdTiles u)) n u := by
    unfold advCourse
    rw [hq]
    dsimp only
    rw [hr, hb, if_neg (by decide), hw, if_neg (by decide), hy]
  unfold goCourse
  rw [ha]
  exact doStores_none (by rw [startCourse_stores (l := []) (by rw [hc]; exact hq), hc]; exact hs)

section
variable {s : State} {w : Who} {cr : Fin 16} {p : Fin 8} {a : Attempt} {k : CoreRun} {n : Fin 8} {u : UnitCmd}

/-- A command that finds its Course free starts, and nothing else follows. -/
theorem queued_at_free (hm : CoreMay s w cr p a k) (hq : s.courses[n].queue = []) (hs : s.courses[n].stores = [])
    (hr : u.run = false) (hb : u.blocked = 0) (hw : tileWaits (courseQueued (bookIssue s cr w k) n u) n u = false)
    (hy : (if u.op = 0x22 then loadwReject (courseQueued (bookIssue s cr w k) n u) n u
      else mmReject (courseQueued (bookIssue s cr w k) n u) n u) = none) :
    ∃ S : State, castReady (goCourse (courseQueued (bookIssue s cr w k) n u) n) = startCourse S n u ∧
      S.courses[n] = { s.courses[n] with queue := [u], order := s.courses[n].order + 1 } ∧ OtherCourses n s S ∧ S.dict = s.dict ∧
      Booked s (startCourse S n u) cr a w k ∧ SameBut [.courses, .crews, .free] s (startCourse S n u) := by
  have hQ : (courseQueued (bookIssue s cr w k) n u).courses[n] = { s.courses[n] with queue := [u], order := s.courses[n].order + 1 } := by
    unfold courseQueued
    rw [updCourse_same]
    show ({ s.courses[n] with queue := s.courses[n].queue ++ [u], order := s.courses[n].order + 1 } : Course) = _
    rw [hq]
    rfl
  have fW : Frames 2 (courseQueued (bookIssue s cr w k) n u) (waitSpent (courseQueued (bookIssue s cr w k) n u) n (cmdTiles u)) :=
    waitSpent_frames
  have hgo := goCourse_starts (s := courseQueued (bookIssue s cr w k) n u) (by rw [hQ]) (by rw [hQ]; exact hs) hr hb hw hy
  have oQ : OtherCourses n s (courseQueued (bookIssue s cr w k) n u) := otherCourses_updCourse (bookIssue s cr w k) n _
  have bQ := courseQueued_sameBut s cr w k n u
  have kQ : Calm (courseQueued (bookIssue s cr w k) n u) := calm_of_same _ _ rfl rfl (calm_bookIssue s cr w k hm.calm)
  have cQ : (courseQueued (bookIssue s cr w k) n u).crews = (bookIssue s cr w k).crews := rfl
  have dQ : (courseQueued (bookIssue s cr w k) n u).dict = s.dict := rfl
  generalize courseQueued (bookIssue s cr w k) n u = Q at *
  refine ⟨waitSpent Q n (cmdTiles u), ?_, by rw [fW.courses rfl]; exact hQ, oQ.trans (.of_eq (fW.courses rfl)), (fW.dict rfl).trans dQ,
    ?_, ?_⟩
  · rw [hgo]
    exact castReady_same kQ ((startCourse_frames.crews rfl).trans (fW.crews rfl))
      (congrArg HostPort.funcs ((startCourse_frames.host rfl).trans (fW.host rfl)))
  · exact booked_of_crews hm (((startCourse_frames.crews rfl).trans (fW.crews rfl)).trans cQ)
  · exact sameBut_then (sameBut_le bQ _ rfl) (Frames.sameBut (m := 6) ((fW.mono rfl).step startCourse_frames rfl) [.free, .courses] rfl) rfl

end

theorem ownedAs_tileBegun {x y : Tile} (h : OwnedAs x y) (c : Cmd) : OwnedAs (tileBegun c x) (tileBegun c y) := by
  obtain ⟨o, b, e, f, rfl⟩ := h
  exact ⟨o, b, e, f, rfl⟩

/-- The oldest command, an MM, starts: its first pass is the current one, its tile has begun its sum where it says INIT, and the pass has
begun where a buffer holds its weights. -/
theorem startCourse_mm_course {s : State} {n : Fin 8} {u : UnitCmd} {l : List UnitCmd} (hq : s.courses[n].queue = u :: l) (hop : u.op ≠ 0x22) :
    let k := s.courses[n]
    let t := (startCourse s n u).courses[n]
    let h := fin64 (mmTile u.word)
    let buffer (b : Option WTile) : Option WTile := if mmInit u.word then voidView (mmTile u.word) b else b
    let there := tileMatch u 1 (buffer k.loading) || tileMatch u 1 (buffer k.active)
    t.queue = { u with run := true } :: l ∧ t.order = k.order ∧ t.pass = 1 ∧ t.stage = (if there then .pass else .load) ∧
      (there = true → t.tau = tauNow s n) ∧ OwnedAs (if mmInit u.word then tileBegun u.word k.tiles[h] else k.tiles[h]) t.tiles[h] ∧
      ∀ g : Fin 64, g ≠ h → OwnedAs k.tiles[g] t.tiles[g] := by
  intro k t h buffer there
  obtain ⟨⟨ts, ht⟩, ho⟩ := courseTaken_course hq
  have hB := sumBegun_course (courseTaken s n u) n u.word
  have dB : (sumBegun (courseTaken s n u) n u.word).dict = s.dict :=
    Frames.dict (m := 4) (((setCourseHead_frames).step tilesTake_frames rfl).step sumBegun_frames rfl) rfl
  rw [ht] at hB ho
  obtain ⟨hstage, htau⟩ := startPass_begins (sumBegun (courseTaken s n u) n u.word) n u 1
  obtain ⟨_, _, _, _, hP⟩ := startPass_course (sumBegun (courseTaken s n u) n u.word) n u 1
  have ht' : t = (startPass (sumBegun (courseTaken s n u) n u.word) n u 1).courses[n] := by rw [← startCourse_mm hop]
  rw [hB] at hP hstage htau
  have hts : t.tiles = if mmInit u.word then ts.set h (tileBegun u.word ts[h]) else ts := by rw [ht', hP]
  have hown : ∀ g : Fin 64, OwnedAs k.tiles[g] ts[g] := fun g => (ho g).1
  refine ⟨by rw [ht', hP], by rw [ht', hP], by rw [ht', hP], by rw [ht', hstage], fun hh => ?_, ?_, fun g hg => ?_⟩
  · rw [ht', htau hh]
    unfold tauNow objNat
    rw [dB]
  · rw [hts]
    cases mmInit u.word with
    | false => exact hown h
    | true => simpa using ownedAs_tileBegun (hown h) u.word
  · rw [hts]
    cases mmInit u.word with
    | false => exact hown g
    | true =>
      have hne : h.val ≠ g.val := fun x => hg (Fin.ext x.symm)
      simpa [Vector.getElem_set_ne _ _ hne] using hown g

theorem otherCourses_startCourse (s : State) (n : Fin 8) (u : UnitCmd) : OtherCourses n s (startCourse s n u) := by
  have hT := otherCourses_courseTaken s n u
  by_cases hop : u.op = 0x22
  · rw [startCourse_loadw hop]
    exact hT.trans (otherCourses_updCourse _ n _)
  · rw [startCourse_mm hop]
    exact (hT.trans (otherCourses_sumBegun _ n u.word)).trans (otherCourses_startPass _ n u 1)

/-- Settles O9: the command starts from the state it was queued in (`queued_at_free`); an MM begins its first pass
(`startCourse_mm_course`), a LOADW waits for its fill (`startCourse_loadw`). -/
theorem courseCommandsStart : Obligations.CourseCommandsStart := by
  unfold Obligations.CourseCommandsStart
  intro s w cr p a k n c hm ho hq hs
  refine ⟨?_, ?_⟩
  · intro u q h x buffer there hop hw hy
    have hu : u.op ≠ 0x22 := by
      show BitVec.ofNat 8 (fld c 7 0) ≠ 0x22
      rw [hop]
      decide
    obtain ⟨S, hgo, hS, oS, dS, bk, sb⟩ := queued_at_free (u := u) hm hq hs rfl rfl hw (by rw [if_neg hu]; exact hy)
    obtain ⟨hqueue, horder, hpass, hstage, htau, htile, htiles⟩ := startCourse_mm_course (l := []) (by rw [hS]) hu
    rw [hS] at horder hstage htau htile htiles
    refine ⟨_, exec_mm_queues hm ho hop, ?_⟩
    rw [hgo]
    refine ⟨bk, sb, hqueue, horder, hpass, hstage, fun hh => ?_, htile, htiles, oS.trans (otherCourses_startCourse S n u)⟩
    rw [htau hh]
    unfold tauNow objNat
    rw [dS]
  · intro u q hop hw hy
    have hu : u.op = 0x22 := congrArg (BitVec.ofNat 8) hop
    obtain ⟨S, hgo, hS, oS, -, bk, sb⟩ := queued_at_free (u := u) hm hq hs rfl rfl hw (by rw [if_pos hu]; exact hy)
    obtain ⟨⟨ts, ht⟩, hown⟩ := courseTaken_course (l := []) (s := S) (u := u) (by rw [hS])
    refine ⟨_, exec_loadw_queues hm ho hop, ?_⟩
    rw [hgo]
    refine ⟨bk, sb, ?_, ?_, oS.trans (otherCourses_startCourse S n u)⟩
    · rw [startCourse_loadw hu, updCourse_same, ht, hS]
    · rw [startCourse_loadw hu, updCourse_same]
      rw [hS] at hown
      exact hown

end Sys2Proof.Machine
end

section
/-! The end of a weight load and the end of a pass (R52, R55, R56, R59, R65, R66, R79, R85, R116). -/

namespace Sys2Proof.Machine

open Sys2Proof

/-! ## Reads of a Pallet -/

/-- Nothing of a Pallet without an uncorrectable word reads as one. -/
theorem readUe_none {s : State} {n : Fin 8} (h : s.pallets[n].ue = []) (as : List Nat) : readUe s n as = none := by
  unfold readUe
  rw [h]
  rfl

/-- A state with the Pallets and the dictionary that the read of listed offsets leaves. -/
theorem corrected_of_palletFix {s t : State} {n : Fin 8} {as : List Nat} (hp : t.pallets = (palletFix s n as).pallets)
    (hd : t.dict = (palletFix s n as).dict) : Corrected s t n as := by
  unfold Corrected
  dsimp only
  rw [ctrGet_same_dict hd, hp, hd]
  unfold palletFix
  cases hc : s.pallets[n].ce with
  | nil =>
    refine ⟨?_, fun h => absurd rfl h, fun _ => rfl⟩
    show s.pallets = s.pallets.set n { s.pallets[n] with ce := [] }
    rw [← hc]
    exact (Vector.set_getElem_self n.isLt).symm
  | cons x l =>
    refine ⟨?_, fun _ => ?_, fun h => absurd h (List.cons_ne_nil _ _)⟩
    · refine congrArg (fun ce => s.pallets.set n { s.pallets[n] with ce := ce }) ?_
      rw [hc]
      refine List.filter_congr fun y hy => ?_
      simp only [List.contains_eq_mem, List.mem_filter, hy, true_and, Bool.decide_eq_true]
    · exact ctrGet_add_same _ _ _ _ _

/-! ## WEIGHT_LOAD_DONE -/

section
variable {s : State} {n : Fin 8} {u : UnitCmd} {l : List UnitCmd}

/-- The load that the pass of the oldest MM waits for has completed. -/
theorem exec_weightLoadDone_load (hon : s.power.on = true) (hq : s.courses[n].queue = u :: l) (hr : u.run = true)
    (hue : s.pallets[n].ue = []) (hop : u.op = 0x21) (hst : s.courses[n].stage = .load) :
    exec (.weightLoadDone n) s = .next (updCourse (palletFix s n (mmWeights s n u s.courses[n].pass).2) n fun y =>
      { putActive (mmWeights s n u s.courses[n].pass).1 y with stage := .pass, tau := tauNow s n }) := by
  show powered s _ = _
  rw [powered_on hon, hq]
  dsimp only
  rw [hr, if_neg (by decide), if_neg (by rw [hop]; decide), hst]
  dsimp only
  rw [readUe_none hue]

/-- While a pass runs or is judged, and is strict or not the last, the load is that of the next pass; a strict pass overlaps none (R56, R59). -/
theorem exec_weightLoadDone_during (hon : s.power.on = true) (hq : s.courses[n].queue = u :: l) (hr : u.run = true) (hop : u.op = 0x21)
    (hst : s.courses[n].stage = .pass ∨ s.courses[n].stage = .verdict)
    (hp : mmStrict u.word = true ∨ s.courses[n].pass < mmPasses u.word) :
    exec (.weightLoadDone n) s = .next (if mmStrict u.word then s else loadAhead s n u (s.courses[n].pass + 1)) := by
  have hbranch : ∀ t : State, (if mmStrict u.word then s
      else if s.courses[n].pass < mmPasses u.word then loadAhead s n u (s.courses[n].pass + 1) else t) =
        if mmStrict u.word then s else loadAhead s n u (s.courses[n].pass + 1) := by
    intro t
    rcases hp with hs | hlt
    · rw [if_pos hs, if_pos hs]
    · rw [if_pos hlt]
  show powered s _ = _
  rw [powered_on hon, hq]
  dsimp only
  rw [hr, if_neg (by decide), if_neg (by rw [hop]; decide)]
  rcases hst with hst | hst
  · rw [hst]
    exact congrArg Host.Outcome.next (hbranch _)
  · rw [hst]
    exact congrArg Host.Outcome.next (hbranch _)

theorem loadAhead_clean (hue : s.pallets[n].ue = []) (p : Nat) :
    loadAhead s n u p = updCourse (palletFix s n (mmWeights s n u p).2) n (putLoading (mmWeights s n u p).1) := by
  unfold loadAhead
  dsimp only
  rw [readUe_none hue]
  rfl

theorem palletFix_courses (s : State) (n : Fin 8) (as : List Nat) : (palletFix s n as).courses = s.courses := palletFix_frames.courses rfl

/-- A read of the Pallet, then a change of its Course. -/
theorem updCourse_palletFix (s : State) (n : Fin 8) (as : List Nat) (g : Course → Course) :
    SameBut [.courses, .pallets, .dict] s (updCourse (palletFix s n as) n g) ∧ Corrected s (updCourse (palletFix s n as) n g) n as ∧
      OtherCourses n s (updCourse (palletFix s n as) n g) ∧ (updCourse (palletFix s n as) n g).courses[n] = g s.courses[n] := by
  exact ⟨Frames.sameBut (m := 16404) ((palletFix_frames.mono rfl).step updCourse_frames rfl) _ rfl, corrected_of_palletFix rfl rfl,
    updCourse_of_courses (palletFix_courses s n as) g⟩

/-! ## The end of a LOADW -/

/-- The tile that a LOADW fills. -/
def loadwTile (s : State) (n : Fin 8) (u : UnitCmd) : WTile :=
  loadTile s n (cmdDesc u (lwWdesc u.word)) (lwWfmt u.word) (lwWdesc u.word) (lwK0 u.word) (lwN0 u.word) (lwStrict u.word)

/-- The Pallet offsets that a LOADW reads. -/
def loadwAddrs (s : State) (n : Fin 8) (u : UnitCmd) : List Nat :=
  let w := cmdDesc u (lwWdesc u.word)
  tileAddrs s n w (kPerPass (srcFmt s n w) (lwStrict u.word)) (lwK0 u.word) (lwN0 u.word)

/-- The state in which the loading buffer holds a LOADW's tile and the LOADW has left the queue. -/
def loadwFilled (s : State) (n : Fin 8) (u : UnitCmd) : State :=
  popCourse (updCourse (palletFix s n (loadwAddrs s n u)) n (putLoading (loadwTile s n u))) n

theorem exec_weightLoadDone_loadw (hon : s.power.on = true) (hq : s.courses[n].queue = u :: l) (hr : u.run = true)
    (hue : s.pallets[n].ue = []) (hop : u.op = 0x22) :
    exec (.weightLoadDone n) s = .next (castReady (goCourse
      (tilesGive (retireUnit (loadwFilled s n u) u.iss 0x22 (fld u.word 63 32) (lwEvent u.word) Res.okay) n u) n)) := by
  show powered s _ = _
  rw [powered_on hon, hq]
  dsimp only
  rw [hr, if_neg (by decide), if_pos hop, loadwDone]
  dsimp only
  rw [readUe_none hue]
  rfl

theorem loadwFilled_frames : Frames 16404 s (loadwFilled s n u) :=
  ((palletFix_frames.mono rfl).step updCourse_frames rfl).step popCourse_frames rfl

theorem loadwFilled_course :
    (loadwFilled s n u).courses[n].queue = s.courses[n].queue.drop 1 ∧ (loadwFilled s n u).courses[n].stores = s.courses[n].stores ∧
      (loadwFilled s n u).courses[n].loading = some (loadwTile s n u) ∧
      (loadwFilled s n u).courses[n].active = if lwStrict u.word then none else s.courses[n].active.filter fun y => !y.strict := by
  unfold loadwFilled popCourse
  rw [updCourse_same, updCourse_same, palletFix_courses]
  exact ⟨rfl, rfl, rfl, rfl⟩

theorem palletFix_vals (s : State) (n : Fin 8) (as : List Nat) : (palletFix s n as).dict.vals = s.dict.vals := by
  unfold palletFix
  split <;> rfl

/-- A core's LOADW, the one command of its Course, ends: the loading buffer holds its tile, and it retires OK with its record. -/
theorem exec_weightLoadDone_retires {cr : Fin 16} {p : Fin 8} {a : Attempt} (hon : s.power.on = true) (hr : u.run = true)
    (hue : s.pallets[n].ue = []) (hcalm : Calm s) (hu : FromCore s u cr p a) (hq : s.courses[n].queue = [u])
    (hs : s.courses[n].stores = []) (hop : u.op = 0x22) :
    ∃ t, exec (.weightLoadDone n) s = .next t ∧
      SameBut [.courses, .pallets, .crews, .host, .dict] s t ∧ t.courses[n].queue = [] ∧ t.courses[n].loading = some (loadwTile s n u) ∧
      t.courses[n].active = (if lwStrict u.word then none else s.courses[n].active.filter fun y => !y.strict) ∧
      t.crews[cr].attempt = some (noted s a u (fld u.word 63 32) (tagLayer (fld u.word 63 32)) Res.okay) ∧
      (lwEvent u.word ≠ 0 → lwEvent u.word ≤ 4095 →
        eventCount t (funcOf p) (lwEvent u.word) = eventCount s (funcOf p) (lwEvent u.word) + 1) := by
  rw [exec_weightLoadDone_loadw hon hq hr hue hop]
  obtain ⟨fq, fs, fl, fa⟩ := loadwFilled_course (s := s) (n := n) (u := u)
  have fF : Frames 16404 s (loadwFilled s n u) := loadwFilled_frames
  have hv : (loadwFilled s n u).dict.vals = s.dict.vals := palletFix_vals s n _
  obtain ⟨t, ht, bt, -, ct, -, -, kt, et⟩ := retireUnit_core (u := { u with ev := lwEvent u.word, res := Res.okay }) hu (fF.now rfl)
    (fF.crews rfl) (fF.host rfl) hv (fld u.word 63 32)
  have hret : retireUnit (loadwFilled s n u) u.iss 0x22 (fld u.word 63 32) (lwEvent u.word) Res.okay = t := by
    rw [← ht, hop]
    rfl
  rw [hret]
  have hcourse : TilesApart (loadwFilled s n u).courses[n] (tilesGive t n u).courses[n] := by
    obtain ⟨-, -, k, i, seq, hi⟩ := hu
    refine TilesApart.trans ?_ (tilesGive_tilesApart t n u)
    rw [← hret, hi]
    exact retireUnit_tilesApart _ _ _ _ _ _ _ _ _ _ _
  have bg := (tilesGive_frames (s := t) (n := n) (u := u)).sameBut [.courses] rfl
  have hk : Calm (tilesGive t n u) := calm_of_sameBut bg (by simp) (by simp) (kt hcalm)
  obtain ⟨ts, hts⟩ := hcourse
  have hgo : goCourse (tilesGive t n u) n = tilesGive t n u :=
    goCourse_empty (by rw [hts]; exact fq.trans (by rw [hq]; rfl)) (by rw [hts]; exact fs.trans hs)
  rw [hgo, castReady_of_calm _ hk]
  refine ⟨_, rfl, ?_, ?_, ?_, ?_, ?_, fun h0 h1 => ?_⟩
  · exact sameBut_then (sameBut_then (fF.sameBut [.courses, .pallets, .crews, .host, .dict] rfl) bt rfl) bg rfl
  · rw [hts]
    exact fq.trans (by rw [hq]; rfl)
  · rw [hts]
    exact fl
  · rw [hts]
    exact fa
  · rw [show (tilesGive t n u).crews = t.crews from bg.2 .crews (by simp), ct]
    rfl
  · have he := et (show Res.okay.cls ≠ .rejected by decide) h0 h1
    unfold eventCount at he ⊢
    rw [show (tilesGive t n u).host = t.host from bg.2 .host (by simp)]
    exact he

end

/-- Settles O10: a load ends for the pass that waits for it (`exec_weightLoadDone_load`), during a pass (`exec_weightLoadDone_during`), or
for a LOADW (`exec_weightLoadDone_retires`). -/
theorem weightLoadsComplete : Obligations.WeightLoadsComplete := by
  unfold Obligations.WeightLoadsComplete
  intro s n u l hon hq hr hue
  refine ⟨?_, ?_, ?_, ?_⟩
  · intro x hop hst
    exact ⟨_, exec_weightLoadDone_load hon hq hr hue hop hst, updCourse_palletFix s n x.2 _⟩
  · intro x hop hns hst hp
    obtain ⟨hb, hc, ho, hn⟩ := updCourse_palletFix s n x.2 (putLoading x.1)
    have hexec := exec_weightLoadDone_during hon hq hr hop hst (.inr hp)
    rw [hns, if_neg Bool.false_ne_true, loadAhead_clean hue] at hexec
    refine ⟨_, hexec, hb, hc, ho, hn.trans ?_⟩
    have hx : x.1.strict = false := hns
    unfold putLoading
    rw [hx]
    rfl
  · intro hop hs hst
    rw [exec_weightLoadDone_during hon hq hr hop hst (.inl hs), if_pos hs]
  · intro cr p a hu hcalm hl hs hop c x
    subst hl
    exact exec_weightLoadDone_retires hon hr hue hcalm hu hq hs hop

/-! ## PASS_END -/

section
variable {s : State} {n : Fin 8} {u : UnitCmd} {w : WTile}

/-- The smallest event of a pass's results (R96). -/
def passEvent (rs : List (Nat × Nat × Nat × FlagByte × Option CellEvent)) : Option Offence :=
  rs.foldl (fun a (m, j, _, _, e) => match e with | some (cl, kd) => minOffence a (some ⟨m, j, cl, kd⟩) | none => a) none

/-- The state in which an ended pass has stored its partials and strips, and its tile is marked widened where it is (R66, R79, R85). -/
def passStored (s : State) (n : Fin 8) (u : UnitCmd) (w : WTile) (bad : List LaneFault) : State :=
  markWide (palletWriteL (palletFix s n (passReads s n u s.courses[n].tiles[fin64 (mmTile u.word)] s.courses[n].pass)) n
    (passStores s n u w bad)) n u

/-- An ended pass waits for its verdict, where checking is enabled. -/
theorem exec_passEnd_waits (hon : s.power.on = true) (hm : runningMM s.courses[n] = some u) (hw : s.courses[n].active = some w)
    (hst : s.courses[n].stage = .pass) (hc : s.courses[n].check = true) (hue : s.pallets[n].ue = []) (bad : List LaneFault) :
    let rs := passResults s n u s.courses[n].tiles[fin64 (mmTile u.word)] w s.courses[n].pass
    exec (.passEnd n bad) s = .next (updCourse (passStored s n u w bad) n fun x =>
      { x with
        stage := .verdict
        wrong := !bad.isEmpty && decide (passStores s n u w bad ≠ passStores s n u w [])
        passFlags := orFlags (rs.map fun r => r.2.2.2.1), passOffence := passEvent rs }) := by
  intro rs
  show powered s _ = _
  rw [powered_on hon]
  dsimp only
  rw [hm, hw]
  dsimp only
  rw [if_neg (by rw [hst]; decide), readUe_none hue, hc]
  rfl

theorem passStored_frames {bad : List LaneFault} : Frames 16404 s (passStored s n u w bad) :=
  ((palletFix_frames.mono rfl).step palletWriteL_frames rfl).step markWide_frames rfl

theorem passStored_pallets (bad : List LaneFault) :
    (passStored s n u w bad).pallets[n].mem = s.pallets[n].mem.writeL (passStores s n u w bad) ∧
      ∀ m : Fin 8, m ≠ n → (passStored s n u w bad).pallets[m] = s.pallets[m] := by
  unfold passStored
  rw [markWide_frames.pallets rfl, palletWriteL, updCourse_pallets]
  refine ⟨?_, fun m hm => ?_⟩
  · rw [updPallet_same, (palletFix_pallets s n n _).1]
  · rw [updPallet_other _ _ _ _ hm, (palletFix_pallets s n m _).2 hm]

theorem passStored_course (bad : List LaneFault) :
    let h := fin64 (mmTile u.word)
    let x := s.courses[n].tiles[h]
    let wide := mmAcc16 u.word && decide (x.passes ≥ 8)
    (∃ a b, (passStored s n u w bad).courses[n] =
      { s.courses[n] with
        tiles := s.courses[n].tiles.set h { x with widened := x.widened || wide }, cmdWidened := s.courses[n].cmdWidened || wide
        active := a, loading := b }) ∧
      OtherCourses n s (passStored s n u w bad) := by
  intro h x wide
  have hP : ∃ a b, (palletWriteL (palletFix s n (passReads s n u x s.courses[n].pass)) n (passStores s n u w bad)).courses[n] =
      { s.courses[n] with active := a, loading := b } := by
    unfold palletWriteL
    dsimp only
    rw [updCourse_same, updPallet_courses, palletFix_courses]
    exact ⟨_, _, rfl⟩
  have hO : OtherCourses n s (palletWriteL (palletFix s n (passReads s n u x s.courses[n].pass)) n (passStores s n u w bad)) :=
    OtherCourses.trans (.of_eq (palletFix_courses s n _)) (otherCourses_updCourse _ n _)
  obtain ⟨a, b, hP⟩ := hP
  unfold passStored markWide
  dsimp only
  refine ⟨⟨a, b, ?_⟩, (hO.trans (otherCourses_updTile _ n _ _)).trans (otherCourses_updCourse _ n _)⟩
  rw [updCourse_same, updTile_tile, hP]

end

/-- Settles O11: the pass ends in the state with its stores made (`passStored`), and its Course waits for the verdict. -/
theorem passEndStoresPartials : Obligations.PassEndStoresPartials := by
  unfold Obligations.PassEndStoresPartials
  intro s n u w bad hon hm hw hst hc hue hwf h x ws wide
  obtain ⟨hmem, hother⟩ := passStored_pallets (s := s) (n := n) (u := u) (w := w) bad
  obtain ⟨⟨a, b, hcourse⟩, hcourses⟩ := passStored_course (s := s) (n := n) (u := u) (w := w) bad
  refine ⟨_, exec_passEnd_waits hon hm hw hst hc hue bad, ?_, fun m hne => ⟨hother m hne, ?_⟩, hmem, fun y hy => ?_, ?_⟩
  · exact (passStored_frames.step updCourse_frames rfl).sameBut _ rfl
  · exact (updCourse_other _ _ _ _ hne).trans (hcourses m hne)
  · show (passStored s n u w bad).pallets[n].mem.read y = _
    rw [hmem]
    exact read_writeL_other _ _ _ hwf hy
  · rw [updCourse_same, hcourse]
    exact ⟨rfl, rfl, rfl, rfl, rfl, rfl⟩

end Sys2Proof.Machine
end

section
/-! The verdict on an ended pass (R67 to R71, R79): the pass that clears is released, and one that fails for the first time runs again. -/

namespace Sys2Proof.Machine

open Sys2Proof

section
variable {s : State} {n : Fin 8} {u : UnitCmd}

/-- A pass released before the last marks its command as rerun where it had failed once, and no other Course changes (R71). -/
theorem releasePass_retried (h : s.courses[n].pass < mmPasses u.word) :
    (releasePass s n u).courses[n].retried = (s.courses[n].retried || s.courses[n].firstFail.isSome) ∧
      OtherCourses n s (releasePass s n u) := by
  rw [releasePass_eq h]
  obtain ⟨a, b, hT⟩ := passTaken_course s n u
  have oT : OtherCourses n s (passTaken s n u) :=
    ((otherCourses_updTile s n _ _).trans (otherCourses_updCourse _ n _)).trans (otherCourses_updCourse _ n _)
  generalize passTaken s n u = T at *
  obtain ⟨r, hL⟩ := latchOffence_course T n u s.courses[n].pass T.courses[n].passOffence
  have oL := otherCourses_latchOffence T n u s.courses[n].pass T.courses[n].passOffence
  generalize latchOffence T n u s.courses[n].pass T.courses[n].passOffence = L at *
  have oU := otherCourses_updCourse L n fun c => { c with passOffence := none }
  obtain ⟨_, _, _, _, hP⟩ := startPass_course (updCourse L n fun c => { c with passOffence := none }) n u (s.courses[n].pass + 1)
  refine ⟨?_, ((oT.trans oL).trans oU).trans (otherCourses_startPass _ n u _)⟩
  rw [hP, updCourse_same, hL, hT]
  rfl

/-- The lanes of a command depend on the Courses alone. -/
theorem mmLanes_same {t : State} (h : t.courses = s.courses) : mmLanes t n u = mmLanes s n u := by
  unfold mmLanes srcRows viewTile
  rw [h]

/-- The state in which the exempt rows and columns of a verdict are counted, and an event tells of them (R68). -/
def exemptNoted (s : State) (n : Fin 8) (u : UnitCmd) (ex : Nat) : State :=
  let t := ctrAdd s 0 (0x6100 + n) 0x32 ex
  if ex > 0 then checkEvent t u.iss 4 n 0x3FF s.courses[n].pass (mmTag u.word) else t

/-- The state in which an event tells of a pass that cleared when it ran again (R71). -/
def rerunNoted (s : State) (n : Fin 8) (u : UnitCmd) : State :=
  match s.courses[n].firstFail with
  | some a => checkEvent s u.iss 2 n (attrLane a) s.courses[n].pass (mmTag u.word)
  | none => s

theorem exemptNoted_frames {ex : Nat} : Frames 17408 s (exemptNoted s n u ex) := by
  have hc : Frames 17408 s (ctrAdd s 0 (0x6100 + n) 0x32 ex) := ctrAdd_frames.mono rfl
  exact Frames.ite (hc.step checkEvent_frames rfl) hc

theorem calm_exemptNoted (h : Calm s) (ex : Nat) : Calm (exemptNoted s n u ex) := by
  have hc : Calm (ctrAdd s 0 (0x6100 + n) 0x32 ex) := calm_of_same s _ rfl rfl h
  unfold exemptNoted
  dsimp only
  split
  · exact calm_checkEvent hc _ _ _ _ _ _
  · exact hc

theorem exemptNoted_ctr (ex : Nat) {b : Nat} (h : b ≠ 0x32) :
    ctrGet (exemptNoted s n u ex) 0 (0x6100 + n) b = ctrGet s 0 (0x6100 + n) b := by
  have hc : ctrGet (ctrAdd s 0 (0x6100 + n) 0x32 ex) 0 (0x6100 + n) b = ctrGet s 0 (0x6100 + n) b :=
    ctrGet_add_other _ _ _ _ _ _ _ _ fun e => h e.2.2
  unfold exemptNoted
  dsimp only
  split
  · rw [ctr_checkEvent, hc]
  · exact hc

theorem rerunNoted_frames : Frames 1024 s (rerunNoted s n u) := by
  unfold rerunNoted
  split
  · exact checkEvent_frames
  · exact Frames.refl _ _

theorem calm_rerunNoted (h : Calm s) : Calm (rerunNoted s n u) := by
  unfold rerunNoted
  split
  · exact calm_checkEvent h _ _ _ _ _ _
  · exact h

/-- A verdict that fails no row and no lane releases the pass. -/
theorem exec_checkVerdict_clear (hon : s.power.on = true) (hm : runningMM s.courses[n] = some u) (hst : s.courses[n].stage = .verdict)
    (hrow : (judge s n u s.courses[n].tiles[fin64 (mmTile u.word)]).1 = [])
    (hlane : (judge s n u s.courses[n].tiles[fin64 (mmTile u.word)]).2.1 = []) :
    exec (.checkVerdict n) s = .next (castReady (goCourse (releasePass
      (rerunNoted (exemptNoted s n u (judge s n u s.courses[n].tiles[fin64 (mmTile u.word)]).2.2) n u) n u) n)) := by
  have hE : ∀ ex, (exemptNoted s n u ex).courses = s.courses := fun ex => exemptNoted_frames.courses rfl
  show powered s _ = _
  rw [powered_on hon]
  dsimp only
  rw [hm]
  dsimp only
  rw [if_neg (by rw [hst]; decide), hrow, hlane, if_pos (by rfl)]
  unfold rerunNoted
  rw [hE]
  rfl

/-- The state in which a failing verdict is counted, and an event tells of it (R68). -/
def failNoted (s : State) (n : Fin 8) (u : UnitCmd) (lanes : List Nat) (ex : Nat) : State :=
  checkEvent (ctrAdd (exemptNoted s n u ex) 0 (0x6100 + n) 0x31 1) u.iss 1 n (attrLane (blameOf lanes)) s.courses[n].pass (mmTag u.word)

/-- A Course whose pass failed for the first time: what failed is attributed, and the pass loads its weights again (R70, R71). -/
def passFailed (lanes : List Nat) (k : Course) : Course :=
  { k with firstFail := some (blameOf lanes), stage := .load, active := none, loading := none }

/-- The state in which a pass that failed for the first time runs again (R71). -/
def passRerun (s : State) (n : Fin 8) (u : UnitCmd) (lanes : List Nat) (ex : Nat) : State :=
  ctrAdd (updCourse (failNoted s n u lanes ex) n (passFailed lanes)) 0 (0x6100 + n) 0x30 1

/-- A verdict that fails a row or a lane of a pass for the first time makes it run again. -/
theorem exec_checkVerdict_fails (hon : s.power.on = true) (hm : runningMM s.courses[n] = some u) (hst : s.courses[n].stage = .verdict)
    (hbad : (judge s n u s.courses[n].tiles[fin64 (mmTile u.word)]).1 ≠ [] ∨ (judge s n u s.courses[n].tiles[fin64 (mmTile u.word)]).2.1 ≠ [])
    (hf : s.courses[n].firstFail = none) :
    exec (.checkVerdict n) s = .next (passRerun s n u (judge s n u s.courses[n].tiles[fin64 (mmTile u.word)]).2.1
      (judge s n u s.courses[n].tiles[fin64 (mmTile u.word)]).2.2) := by
  show powered s _ = _
  rw [powered_on hon]
  dsimp only
  rw [hm]
  dsimp only
  rw [if_neg (by rw [hst]; decide), if_neg (by simpa [or_iff_not_imp_left] using hbad), hf]
  rfl

theorem failNoted_frames {lanes : List Nat} {ex : Nat} : Frames 17408 s (failNoted s n u lanes ex) :=
  (exemptNoted_frames.step ctrAdd_frames rfl).step checkEvent_frames rfl

theorem failNoted_courses (lanes : List Nat) (ex : Nat) : (failNoted s n u lanes ex).courses = s.courses := failNoted_frames.courses rfl

theorem passRerun_frames {lanes : List Nat} {ex : Nat} : Frames 17412 s (passRerun s n u lanes ex) :=
  ((failNoted_frames.mono rfl).step updCourse_frames rfl).step ctrAdd_frames rfl

theorem passRerun_course (lanes : List Nat) (ex : Nat) :
    OtherCourses n s (passRerun s n u lanes ex) ∧ (passRerun s n u lanes ex).courses[n] = passFailed lanes s.courses[n] :=
  updCourse_of_courses (failNoted_courses lanes ex) (passFailed lanes)

/-- A first failing verdict and a rerun are counted once each. -/
theorem passRerun_counts (lanes : List Nat) (ex : Nat) {b : Nat} (h : b = 0x31 ∨ b = 0x30) :
    ctrGet (passRerun s n u lanes ex) 0 (0x6100 + n) b = (ctrGet s 0 (0x6100 + n) b + 1) % 2 ^ 64 := by
  unfold passRerun failNoted
  rcases h with rfl | rfl
  · rw [ctrGet_add_other _ _ _ _ _ _ _ _ (by simp), ctrGet_same_dict (updCourse_dict _ _ _), ctr_checkEvent, ctrGet_add_same,
      exemptNoted_ctr _ (by decide)]
  · rw [ctrGet_add_same, ctrGet_same_dict (updCourse_dict _ _ _), ctr_checkEvent, ctrGet_add_other _ _ _ _ _ _ _ _ (by simp),
      exemptNoted_ctr _ (by decide)]

end

/-- Settles O12: a clear verdict releases the pass (`releasePass_more`, `releasePass_retried`); a first failing one leaves the state
`passRerun`. -/
theorem verdictReleasesOrReruns : Obligations.VerdictReleasesOrReruns := by
  unfold Obligations.VerdictReleasesOrReruns
  intro s n u hon hcalm hs hm hst h x v
  refine ⟨fun hrow hlane hp => ?_, fun hbad hf => ?_⟩
  · obtain ⟨l, hq, hrun, -⟩ := runningMM_iff hm
    have fN : Frames 17408 s (rerunNoted (exemptNoted s n u v.2.2) n u) := exemptNoted_frames.step rerunNoted_frames rfl
    have kN : Calm (rerunNoted (exemptNoted s n u v.2.2) n u) := calm_rerunNoted (calm_exemptNoted hcalm _)
    have hexec := exec_checkVerdict_clear hon hm hst hrow hlane
    have bN := fN.sameBut [.courses, .crews, .dict] rfl
    have cN : (rerunNoted (exemptNoted s n u v.2.2) n u).courses = s.courses := fN.courses rfl
    change exec _ s = .next (castReady (goCourse (releasePass (rerunNoted (exemptNoted s n u v.2.2) n u) n u) n)) at hexec
    generalize rerunNoted (exemptNoted s n u v.2.2) n u = N at *
    have hpN : N.courses[n].pass < mmPasses u.word := by rw [cN]; exact hp
    obtain ⟨kR, bR, qR, sR, pR, tR, fR⟩ := releasePass_more hpN kN
    obtain ⟨rR, oR⟩ := releasePass_retried hpN
    rw [cN] at qR sR pR tR fR rR
    have hgo : goCourse (releasePass N n u) n = releasePass N n u :=
      goCourse_busy (qR.trans hq) (.inl hrun) (sR.trans hs)
    rw [hgo, castReady_of_calm _ kR] at hexec
    refine ⟨_, hexec, sameBut_then bN bR rfl, ?_, pR, OtherCourses.trans (.of_eq cN) oR, fR, qR, rR⟩
    rw [tR]
    unfold passTile
    rw [mmLanes_same cN]
  · obtain ⟨ho, hn⟩ := passRerun_course (s := s) (n := n) (u := u) v.2.1 v.2.2
    exact ⟨_, exec_checkVerdict_fails hon hm hst hbad hf, passRerun_frames.sameBut _ rfl, ho, hn, passRerun_counts _ _ (.inl rfl),
      passRerun_counts _ _ (.inr rfl)⟩

end Sys2Proof.Machine
end

section
/-! Stores into the descriptor and tile tables of a Course (R56, R119, R128, R230). -/

namespace Sys2Proof.Machine

open Sys2Proof

section
variable {s : State} {w : Who} {cr : Fin 16} {p : Fin 8} {a : Attempt} {k : CoreRun} {n : Fin 8}

theorem exec_descriptorStore (hm : CoreMay s w cr p a k) (ho : OwnsCourse s n p) {slot : Nat} (d : Cmd) :
    exec (.descriptorStore w n slot d) s =
      .next (if slot = 0 ∨ 4095 < slot then castReady (emit (programFault s cr) (.coreFault w)) else slotStore s n slot d) := by
  show powered s _ = _
  rw [powered_on hm.on, hm.core]
  dsimp only
  rw [hm.owner]
  dsimp only
  rw [ownsCourse_of ho cr]
  simp

theorem exec_tileTableStore (hm : CoreMay s w cr p a k) (ho : OwnsCourse s n p) (h : Fin 64) (d : Cmd) :
    exec (.tileTableStore w n h d) s = .next (tileStore s w n h d) := by
  show powered s _ = _
  rw [powered_on hm.on, hm.core]
  dsimp only
  rw [hm.owner]
  dsimp only
  rw [ownsCourse_of ho cr]
  rfl

theorem slotStore_course (slot : Nat) (d : Cmd) :
    OtherCourses n s (slotStore s n slot d) ∧ (slotStore s n slot d).courses[n] =
      { s.courses[n] with
        descs := assocSet s.courses[n].descs slot d (descDflt s.courses[n] slot)
        active := voidSlot slot s.courses[n].active, loading := voidSlot slot s.courses[n].loading } :=
  ⟨otherCourses_updCourse s n _, updCourse_same s n _⟩

theorem fin64_val (h : Fin 64) : fin64 h.val = h := by
  unfold fin64
  rw [dif_pos h.isLt]

/-- A bound tile is left uninitialised and unowned, and no buffered weights seen through it match any longer (R125, R128). -/
theorem bindTile_course (h : Fin 64) (d : Cmd) :
    OtherCourses n s (bindTile s n h d) ∧ (bindTile s n h d).courses[n] =
      { s.courses[n] with
        tiles := s.courses[n].tiles.set h { Tile.unbound with entry := d }
        active := voidView h s.courses[n].active, loading := voidView h s.courses[n].loading } := by
  refine ⟨(otherCourses_updTile s n _ _).trans (otherCourses_updCourse _ n _), ?_⟩
  unfold bindTile tileChanged
  rw [updCourse_same, updTile_tile]
  simp only [fin64_val]

/-- A core whose store waits at a Course makes no other (R119). -/
theorem findCore_waits {t : State} {h : Nat} {d : Cmd} (hx : (w.cluster, w.core, h, d) ∈ t.courses[n].stores) : findCore t w = none := by
  unfold findCore
  refine if_pos ?_
  unfold coreWaits
  rw [List.any_eq_true]
  refine ⟨t.courses[n], Vector.mem_toList_iff.2 (Vector.getElem_mem n.isLt), List.any_eq_true.2 ⟨_, hx, ?_⟩⟩
  simp

end

/-- Settles O15: a descriptor store is `slotStore`, a table store binds its tile (`bindTile_course`) or waits with its core
(`findCore_waits`). -/
theorem tablesOfACourse : Obligations.TablesOfACourse := by
  unfold Obligations.TablesOfACourse
  intro s w cr p a k n hm ho
  refine ⟨fun slot d h1 h2 => ?_, fun h d => ?_, fun slot d hbad => ?_⟩
  · obtain ⟨hother, hn⟩ := slotStore_course (s := s) (n := n) slot d
    have hexec := exec_descriptorStore hm ho (slot := slot) d
    rw [if_neg (by omega)] at hexec
    refine ⟨_, hexec, slotStore_frames.sameBut _ rfl, hother, ?_⟩
    rw [hn]
    refine ⟨assocGet_set_same _ _ _ _, fun x hx => assocGet_set_other _ _ _ _ _ _ hx, fun b hb => ?_, fun b hb => ?_, rfl, rfl, rfl⟩
    · show voidSlot slot s.courses[n].loading = _
      rw [hb]
      rfl
    · show voidSlot slot s.courses[n].active = _
      rw [hb]
      rfl
  · refine ⟨_, exec_tileTableStore hm ho h d, tileStore_frames.sameBut _ rfl, ?_⟩
    unfold tileStore
    cases hbusy : tileBusy s n h with
    | false =>
      obtain ⟨hother, hn⟩ := bindTile_course (s := s) (n := n) h d
      rw [if_neg Bool.false_ne_true, hn]
      exact ⟨hother, fun _ => ⟨rfl, rfl, rfl⟩, fun hb => absurd hb Bool.false_ne_true⟩
    | true =>
      rw [if_pos rfl]
      refine ⟨otherCourses_updCourse s n _, fun hb => absurd hb.symm Bool.false_ne_true, fun _ => ⟨updCourse_same _ _ _, ?_⟩⟩
      exact findCore_waits (n := n) (h := h) (d := d) (by rw [updCourse_same]; exact List.mem_append_right _ List.mem_cons_self)
  · rw [exec_descriptorStore hm ho, if_pos hbad]

end Sys2Proof.Machine
end

section
/-! Substitution of a Course's lanes and of a Pallet's banks by spares (R71, R72, R115, R417). -/

namespace Sys2Proof.Machine

open Sys2Proof

/-! ## Lanes -/

/-- A Course whose logical lane has moved to a spare: the lane it stood on leaves the inventory, and is suspect no longer (log 38). -/
def laneMoved (lane sp : Nat) (rest : List Nat) (k : Course) : Course :=
  { k with laneMap := k.laneMap.set lane sp, badLanes := k.badLanes ++ [k.laneMap.getD lane 0], substs := rest, suspects := k.suspects - 1 }

/-- The stopped pass of the oldest MM waits for the substitution of this lane (R71). -/
def awaitsLane (k : Course) (lane : Nat) : Bool := k.stage = .subst && k.firstFail.map attrLane = some lane

/-- The state in which a lane's move is counted, logged and entered into the Cards that see it. -/
def moveNoted (s : State) (n : Fin 8) : State :=
  let t := fresh (genBump (repairDone s) 0 (0x6100 + n) 4)
  let ns := t.1.toNat % 35001
  let l := pointLog t.2 2 n ns
  cardPoint l (courseOwner l n) 2 n ns

/-- A Course whose pass runs again from its weights after a substitution. -/
def passReloads (k : Course) : Course := { k with stage := .load, active := none, loading := none, afterSubst := true }

/-- The state in which the pass that waited for the move runs again from its weights (R71). -/
def laneRerun (s : State) (n : Fin 8) (lane : Nat) : State :=
  let t := match runningMM s.courses[n] with
    | some u => checkEvent s u.iss 3 n lane s.courses[n].pass (mmTag u.word)
    | none => s
  ctrAdd (updCourse t n passReloads) 0 (0x6100 + n) 0x30 1

theorem moveNoted_courses (s : State) (n : Fin 8) : (moveNoted s n).courses = s.courses := by
  have h : Frames 156674 s (moveNoted s n) :=
    ((((repairDone_frames.mono rfl).step genBump_frames rfl).step fresh_frames rfl).step pointLog_frames rfl).step cardPoint_frames rfl
  exact h.courses rfl

/-- A pass that has not ended stands at a boundary for substitutions. -/
theorem stage_open {x : CourseStage} (h : x ≠ .verdict) : (decide (x = .subst) || decide (x = .load) || decide (x = .pass)) = true := by
  cases x with
  | verdict => exact absurd rfl h
  | load => rfl
  | pass => rfl
  | subst => rfl

section
variable {s : State} {n : Fin 8} {lane : Nat} {rest : List Nat} {sp : Nat}

theorem laneRerun_course (s : State) (n : Fin 8) (lane : Nat) :
    OtherCourses n s (laneRerun s n lane) ∧ (laneRerun s n lane).courses[n] = passReloads s.courses[n] := by
  unfold laneRerun
  dsimp only
  split
  · exact updCourse_of_courses (checkEvent_frames.courses rfl) passReloads
  · exact updCourse_of_courses rfl passReloads

/-- The oldest pending substitution at a boundary, with a spare: a spare that passes its test takes the lane, and one that fails leaves
the inventory. -/
theorem exec_laneSubstitution (hon : s.power.on = true) (hs : s.courses[n].substs = lane :: rest) (hst : s.courses[n].stage ≠ .verdict)
    (hsp : (List.range 520).find? (fun x => !s.courses[n].laneMap.contains x && !s.courses[n].badLanes.contains x) = some sp) (ok : Pass) :
    exec (.laneSubstitution n ok) s = .next (
      let t := moveNoted (updCourse s n (laneMoved lane sp rest)) n
      if ok then if awaitsLane s.courses[n] lane then laneRerun t n lane else t
      else updCourse s n fun x => { x with badLanes := x.badLanes ++ [sp] }) := by
  have ht : (moveNoted (updCourse s n (laneMoved lane sp rest)) n).courses[n] = laneMoved lane sp rest s.courses[n] := by
    rw [moveNoted_courses, updCourse_same]
  unfold laneRerun
  dsimp only
  rw [ht]
  show powered s _ = _
  rw [powered_on hon]
  dsimp only
  rw [hs]
  dsimp only
  rw [if_neg (by
    cases runningMM s.courses[n] with
    | none => exact Bool.false_ne_true
    | some u => dsimp only; rw [stage_open hst]; exact Bool.false_ne_true), hsp]
  cases ok with
  | true => rfl
  | false => rfl

end

/-! ## Banks -/

/-- A Pallet whose logical bank has moved to a spare: the bank it stood on waits for its test (R115). -/
def bankMoved (b : Fin 128) (sp : Nat) (p : Pallet) : Pallet :=
  { p with bankMap := p.bankMap.set b sp, freed := some (p.bankMap.getD b 0), testAsked := p.testAsked.erase b.val }

/-- The state in which a bank's move is counted, logged and entered into the Cards that see it. -/
def bankNoted (s : State) (n : Fin 8) : State :=
  let l := pointLog (genBump (repairDone s) 0 0x6300 (0x18 + n)) 3 n 0
  cardPoint l (courseOwner l n) 3 n 0

theorem bankNoted_frames {s : State} {n : Fin 8} : Frames 156672 s (bankNoted s n) :=
  (((repairDone_frames.mono rfl).step genBump_frames rfl).step pointLog_frames rfl).step cardPoint_frames rfl

theorem exec_palletBankSubstitution {s : State} {n : Fin 8} {b : Fin 128} {sp : Nat} (hon : s.power.on = true)
    (hsp : (List.range 136).find? (fun x => !s.pallets[n].bankMap.contains x && !s.pallets[n].badBanks.contains x &&
      s.pallets[n].freed ≠ some x) = some sp) :
    exec (.palletBankSubstitution n b) s = .next (bankNoted (updPallet s n (bankMoved b sp)) n) := by
  show powered s _ = _
  rw [powered_on hon]
  dsimp only
  rw [hsp]
  rfl

/-- Settles O17: a move is `laneMoved` or `bankMoved` with what is noted of it, which leaves the Courses and the Pallets alone; the pass that
waited for the lane runs again (`laneRerun_course`). -/
theorem lanesAndBanksSubstitute : Obligations.LanesAndBanksSubstitute := by
  unfold Obligations.LanesAndBanksSubstitute
  refine ⟨?_, ?_⟩
  · intro s n lane rest sp hon hs hst hsp k moved mine
    have hexec := exec_laneSubstitution hon hs hst hsp
    have hmine : awaitsLane k lane = true ↔ mine := by
      show (_ && _) = true ↔ _ ∧ _
      rw [Bool.and_eq_true, decide_eq_true_eq, decide_eq_true_eq]
    have hother : OtherCourses n s (moveNoted (updCourse s n (laneMoved lane sp rest)) n) :=
      (otherCourses_updCourse s n _).trans (.of_eq (moveNoted_courses _ n))
    have hn : (moveNoted (updCourse s n (laneMoved lane sp rest)) n).courses[n] = moved := by
      rw [moveNoted_courses, updCourse_same]
      rfl
    have htrue := hexec true
    generalize moveNoted (updCourse s n (laneMoved lane sp rest)) n = M at *
    refine ⟨⟨_, htrue, (execLaneSubstitution_frames (n := n) (ok := true) _ htrue).sameBut _ rfl, ?_⟩, hexec false⟩
    rw [if_pos rfl]
    cases hw : awaitsLane k lane with
    | false =>
      rw [hw] at hmine
      exact ⟨hother, fun _ => hn, fun h => absurd (hmine.2 h) Bool.false_ne_true⟩
    | true =>
      obtain ⟨ho, hr⟩ := laneRerun_course M n lane
      rw [if_pos rfl]
      exact ⟨hother.trans ho, fun h => absurd (hmine.1 hw) h, fun _ => by rw [hr, hn]; rfl⟩
  · intro s n b sp hon hsp
    have hexec := exec_palletBankSubstitution (b := b) hon hsp
    have hp : (bankNoted (updPallet s n (bankMoved b sp)) n).pallets = (updPallet s n (bankMoved b sp)).pallets := bankNoted_frames.pallets rfl
    refine ⟨_, hexec, (execPalletBankSubstitution_frames (n := n) (b := b) _ hexec).sameBut _ rfl, ?_, fun m hm => ?_, ?_⟩
    · rw [hp, updPallet_same]
      rfl
    · rw [hp, updPallet_other _ _ _ _ hm]
    · exact bankNoted_frames.courses rfl

end Sys2Proof.Machine
end

section
/-! Trowel commands run (R57, R90, R91, R104, R107, R109, R111): at the issue port of a free Trowel, and where what held them is over. -/

namespace Sys2Proof.Machine

open Sys2Proof

/-! ## What a command that runs leaves of the Courses -/

/-- Whether a command's tiles alone have new owners is said of the tiles of the two Courses. -/
theorem tilesOwned_of_tiles {k k' j j' : Course} {u : UnitCmd} (hk : k'.tiles = k.tiles) (hj : j'.tiles = j.tiles) (h : TilesOwned k j u) :
    TilesOwned k' j' u := by
  unfold TilesOwned
  rw [hk, hj]
  exact h

/-- The state in which a Trowel command reads is the one in which the statements say that it computes. -/
theorem trowelReady_eq_taken (s : State) (n : Fin 8) (u : UnitCmd) : trowelReady s n u = trowelTaken s n u := rfl

theorem trowelTaken_courses (s : State) (n : Fin 8) (u : UnitCmd) :
    OtherCourses n s (trowelTaken s n u) ∧ TilesOwned s.courses[n] (trowelTaken s n u).courses[n] u := by
  have hw : (waitSpent s n (cmdTiles u)).courses = s.courses := waitSpent_frames.courses rfl
  have hn : (trowelTaken s n u).courses = (tilesTake (waitSpent s n (cmdTiles u)) n u).courses := noteSeed_frames.courses rfl
  have ho := (tilesTake_owned (waitSpent s n (cmdTiles u)) n u).2
  rw [hw, ← hn] at ho
  exact ⟨((OtherCourses.of_eq hw).trans (otherCourses_tilesTake _ n u)).trans (.of_eq hn), ho⟩

theorem palletWriteL_course (s : State) (n : Fin 8) (ws : List (Nat × Byte)) :
    OtherCourses n s (palletWriteL s n ws) ∧ (palletWriteL s n ws).courses[n].tiles = s.courses[n].tiles := by
  unfold palletWriteL
  dsimp only
  refine ⟨fun m hm => by rw [updCourse_other _ _ _ _ hm, updPallet_courses], ?_⟩
  rw [updCourse_same, updPallet_courses]

/-- Output written to the Pallet voids weight tiles of the Course, and leaves its tile table and the other Courses as they are. -/
theorem trowelWritten_courses (s : State) (n : Fin 8) (u : UnitCmd) :
    OtherCourses n s (trowelWritten s n u) ∧ (trowelWritten s n u).courses[n].tiles = s.courses[n].tiles := by
  have hw : (trowelWritten s n u).courses = (palletWriteL (palletFix s n (trowelReads s n u)) n (trowelEffect s n u).1).courses :=
    evAdd_frames.courses rfl
  obtain ⟨ho, ht⟩ := palletWriteL_course (palletFix s n (trowelReads s n u)) n (trowelEffect s n u).1
  refine ⟨((OtherCourses.of_eq (palletFix_courses s n _)).trans ho).trans (.of_eq hw), ?_⟩
  rw [hw, ht, palletFix_courses]

/-! ## The oldest command of a Trowel runs -/

theorem setTrowelHead_trowels {s : State} {n : Fin 8} {v : UnitCmd} {l : List UnitCmd} (hq : s.trowels[n].queue = v :: l)
    (g : UnitCmd → UnitCmd) : (setTrowelHead s n g).trowels = s.trowels.set n { s.trowels[n] with queue := g v :: l } := by
  unfold setTrowelHead updTrowel
  dsimp only
  rw [hq]

/-- A Trowel command that has run, in the queue it waits in to retire (R111). -/
def trowelDone (s : State) (n : Fin 8) (u : UnitCmd) : UnitCmd :=
  { u with run := true, res := { Res.okay with flags := (trowelEffect (trowelTaken s n u) n u).2 } }

/-- From `s` to `t` the oldest command `u` of Trowel `n` has run before `l`: its stream has its tiles, its results are in the Pallet, and
it waits in the queue, done (R91, R104, R111). -/
structure TrowelRan (s : State) (n : Fin 8) (u : UnitCmd) (l : List UnitCmd) (t : State) : Prop where
  calm : Calm t
  but : SameBut [.free, .courses, .trowels, .pallets, .crews, .dict, .counters] s t
  trowels : t.trowels = s.trowels.set n { s.trowels[n] with queue := trowelDone s n u :: l }
  mem : t.pallets[n].mem = s.pallets[n].mem.writeL (trowelEffect (trowelTaken s n u) n u).1
  pallets : ∀ m, m ≠ n → t.pallets[m] = s.pallets[m]
  courses : OtherCourses n s t
  tiles : TilesOwned s.courses[n] t.courses[n] u

/-- The oldest command of a Trowel, which nothing holds, no check rejects and no uncorrectable word can meet, runs. -/
theorem goTrowel_ran {s : State} {n : Fin 8} {u : UnitCmd} {l : List UnitCmd} (hq : s.trowels[n].queue = u :: l)
    (hu : u.run = false ∧ u.blocked = 0) (hw : tileWaits s n u = false) (hy : trowelReject s n u = none) (hue : s.pallets[n].ue = [])
    (hg : guarded (waitSpent s n (cmdTiles u)) n (outRegion u.word (cmdDesc u (vOdesc u.word))) = false) (hc : Calm s) :
    TrowelRan s n u l (goTrowel s n) := by
  obtain ⟨hgo, hcalm, htrowels, hmem, hpallets, hbut⟩ := goTrowel_runs hq hu hw hy hue hg hc
  obtain ⟨oT, tT⟩ := trowelTaken_courses s n u
  obtain ⟨oW, tW⟩ := trowelWritten_courses (trowelTaken s n u) n u
  rw [trowelReady_eq_taken] at hgo hcalm htrowels hmem hpallets hbut
  rw [hgo]
  generalize trowelWritten (trowelTaken s n u) n u = D at *
  have fH : ∀ g : UnitCmd → UnitCmd, Frames 8 D (setTrowelHead D n g) := fun _ => setTrowelHead_frames
  have bH : ∀ g : UnitCmd → UnitCmd, SameBut [.trowels] D (setTrowelHead D n g) := fun g => (fH g).sameBut _ rfl
  refine ⟨calm_of_sameBut (bH _) (by simp) (by simp) hcalm, sameBut_then (sameBut_le hbut _ rfl) (bH _) rfl, ?_, ?_, fun m hm => ?_,
    (oT.trans oW).trans (.of_eq ((fH _).courses rfl)), ?_⟩
  · rw [setTrowelHead_trowels (l := l) (v := u) (by rw [htrowels, hq]), htrowels]
    rfl
  · rw [(fH _).pallets rfl, hmem]
  · rw [(fH _).pallets rfl, hpallets m hm]
  · rw [(fH _).courses rfl]
    exact tilesOwned_of_tiles rfl tW tT

/-- The Trowels after a command has run, said of a state from which its queue alone had changed. -/
theorem TrowelRan.trowels_from {s q t : State} {n : Fin 8} {u : UnitCmd} {l r : List UnitCmd} (h : TrowelRan q n u l t)
    (hq : q.trowels = s.trowels.set n { s.trowels[n] with queue := r }) :
    t.trowels = s.trowels.set n { s.trowels[n] with queue := trowelDone q n u :: l } := by
  rw [h.trowels, hq]
  simp

/-! ## At the issue port -/

section
variable {s : State} {w : Who} {cr : Fin 16} {p : Fin 8} {a : Attempt} {k : CoreRun} {n : Fin 8} {c : Cmd}

/-- VOP, VRED and VCVT of a core that may store at the Trowel's port: the command joins the queue, and the oldest one goes on. -/
theorem exec_trowel_queues {i : Instr} (hm : CoreMay s w cr p a k) (ho : OwnsCourse s n p)
    (hi : (fld c 7 0 = 0x31 ∧ i = .vop w n c) ∨ (fld c 7 0 = 0x32 ∧ i = .vred w n c) ∨ (fld c 7 0 = 0x33 ∧ i = .vcvt w n c)) :
    exec i s = .next (castReady (goTrowel
      (trowelQueued (bookIssue s cr w k) n (trowelCmd (bookIssue s cr w k) n c (coreIssuer cr a k))) n)) := by
  have hport : ∀ j : Instr, exec j s = powered s (trowelPort s w n c) →
      fld c 7 0 = 0x31 ∨ fld c 7 0 = 0x32 ∨ fld c 7 0 = 0x33 →
      exec j s = .next (castReady (goTrowel
        (trowelQueued (bookIssue s cr w k) n (trowelCmd (bookIssue s cr w k) n c (coreIssuer cr a k))) n)) := by
    intro j hj hop
    rw [hj, powered_on hm.on, trowelPort_go hm ho.1 ho.2 hop]
  rcases hi with ⟨hop, rfl⟩ | ⟨hop, rfl⟩ | ⟨hop, rfl⟩
  · exact hport _ rfl (.inl hop)
  · exact hport _ rfl (.inr (.inl hop))
  · exact hport _ rfl (.inr (.inr hop))

theorem trowelQueued_trowels (s : State) (n : Fin 8) (u : UnitCmd) :
    (trowelQueued s n u).trowels = s.trowels.set n { s.trowels[n] with queue := s.trowels[n].queue ++ [u] } := rfl

theorem trowelQueued_course (s : State) (n : Fin 8) (u : UnitCmd) :
    OtherCourses n s (trowelQueued s n u) ∧ (trowelQueued s n u).courses[n].tiles = s.courses[n].tiles := by
  unfold trowelQueued
  refine ⟨fun m hm => by rw [updTrowel_courses, updCourse_other _ _ _ _ hm], ?_⟩
  rw [updTrowel_courses, updCourse_same]

/-- The account and the queueing touch the issuer's Crew, the place in the tile order and the Trowel. -/
theorem trowelQueued_sameBut (s : State) (cr : Fin 16) (w : Who) (k : CoreRun) (n : Fin 8) (u : UnitCmd) :
    SameBut [.courses, .trowels, .crews] s (trowelQueued (bookIssue s cr w k) n u) :=
  Frames.sameBut (m := 1036) (((bookIssue_frames.mono rfl).step updCourse_frames rfl).step updTrowel_frames rfl) _ rfl

end

/-- Settles O14: the command is the one of its queue, and it runs there (`goTrowel_ran`). -/
theorem trowelCommandsRun : Obligations.TrowelCommandsRun := by
  unfold Obligations.TrowelCommandsRun
  intro s w cr p a k n c hm ho hq hue hwf b u q e htw hrj hg i hi
  have bQ : SameBut [.courses, .trowels, .crews] s q := trowelQueued_sameBut s cr w k n u
  have kQ : Calm q := calm_of_same _ _ rfl rfl (calm_bookIssue s cr w k hm.calm)
  have pQ : q.pallets = s.pallets := bQ.2 .pallets (by simp)
  obtain ⟨oQ, tQ⟩ := trowelQueued_course b n u
  have hqueue : q.trowels = s.trowels.set n { s.trowels[n] with queue := [u] } :=
    (trowelQueued_trowels b n u).trans (by rw [show b.trowels = s.trowels from rfl, hq, List.nil_append])
  have hran : TrowelRan q n u [] (goTrowel q n) :=
    goTrowel_ran (by rw [hqueue]; simp) ⟨rfl, rfl⟩ htw hrj (by rw [pQ]; exact hue) hg kQ
  refine ⟨_, exec_trowel_queues hm ho hi, ?_⟩
  rw [castReady_of_calm _ hran.calm]
  have hmem : (goTrowel q n).pallets[n].mem = s.pallets[n].mem.writeL e.1 := by rw [hran.mem, pQ]
  refine ⟨sameBut_then (sameBut_le bQ _ rfl) hran.but rfl, hran.trowels_from hqueue, hmem, fun x hx => ?_, fun m hne => ⟨?_, ?_⟩, ?_⟩
  · unfold palletByte
    rw [hmem, read_writeL_other _ _ _ hwf hx]
  · rw [hran.pallets m hne, pQ]
  · exact (hran.courses m hne).trans (oQ m hne)
  · exact tilesOwned_of_tiles tQ.symm rfl hran.tiles

/-! ## Where what held a command is over -/

section
variable {s : State} {n : Fin 8} {u : UnitCmd} {l : List UnitCmd}

/-- The oldest command of a Trowel as it stands once nothing holds it. -/
def unblocked (u : UnitCmd) : UnitCmd := { u with blocked := 0 }

/-- What a Trowel's oldest command waits for does not depend on whether it is held: no command is earlier than itself. -/
theorem tileWaits_unblocked {q : State} (hq : s.trowels[n].queue = u :: l) (hc : q.courses = s.courses)
    (ht : q.trowels[n].queue = unblocked u :: l) : tileWaits q n (unblocked u) = tileWaits s n u := by
  have hheld : ∀ h o, tileHeld q n h o = tileHeld s n h o := by
    intro h o
    unfold tileHeld
    rw [hc, hq, ht]
    rfl
  unfold tileWaits
  simp only [hheld]
  rfl

/-- The state in which a Trowel's oldest command is held no more, its wait for a tile counted (R90, R112). -/
def tileWaitOver (s : State) (n : Fin 8) : State := setTrowelHead (stallAdd s (0x6100 + n) 0x33) n unblocked

theorem tileWaitOver_frames : Frames 16394 s (tileWaitOver s n) := (stallAdd_frames.mono rfl).step setTrowelHead_frames rfl

theorem tileWaitOver_trowels (hq : s.trowels[n].queue = u :: l) :
    (tileWaitOver s n).trowels = s.trowels.set n { s.trowels[n] with queue := unblocked u :: l } :=
  setTrowelHead_trowels (s := stallAdd s (0x6100 + n) 0x33) hq unblocked

/-- TILE_INTERLOCK_RELEASE of a Course without commands whose Trowel's oldest command waits on the tile. -/
theorem exec_tileInterlockRelease_trowel {h : Fin 64} (hon : s.power.on = true) (hcq : s.courses[n].queue = [])
    (hq : s.trowels[n].queue = u :: l) (hu : usesTile u h = true) (hb : u.blocked = 1) :
    exec (.tileInterlockRelease n h) s = .next (castReady (if tileWaits s n u then s else goTrowel (tileWaitOver s n) n)) := by
  have hfree : freeTrowel s n = if tileWaits s n u then s else goTrowel (tileWaitOver s n) n := by
    unfold freeTrowel
    rw [hq]
    dsimp only
    rw [hb]
    cases tileWaits s n u <;> rfl
  show powered s _ = _
  rw [powered_on hon, hcq]
  dsimp only
  rw [if_neg Bool.false_ne_true, hq]
  dsimp only
  rw [if_pos hu, hfree]

/-- GUARD_STALL_RELEASE where the Trowel's oldest command alone is held by a range and runs: nothing else follows. -/
theorem exec_guardStallRelease_trowel (hon : s.power.on = true) (hq : s.trowels[n].queue = u :: l) (hb : u.blocked = 2)
    (hk : Calm (goTrowel (setTrowelHead s n unblocked) n)) (hr : (goTrowel (setTrowelHead s n unblocked) n).rigger.held = [])
    (hh : ∀ j : Fin 16, ∀ v m, (goTrowel (setTrowelHead s n unblocked) n).hods[j].queue = v :: m → v.blocked ≠ 2) :
    exec (.guardStallRelease n) s = .next (goTrowel (setTrowelHead s n unblocked) n) := by
  have hrel : releaseUnits s n = goTrowel (setTrowelHead s n unblocked) n := by
    unfold releaseUnits
    rw [hq]
    dsimp only
    rw [if_pos hb]
    show castReady ((List.range 16).foldl _ (goTrowel (setTrowelHead s n unblocked) n)) = _
    rw [foldl_fixed, castReady_of_calm _ hk]
    intro j _
    split
    · rename_i x m hj
      rw [if_neg (hh _ x m hj)]
    · rfl
  show powered s _ = _
  rw [powered_on hon, hrel]
  dsimp only
  rw [hr]
  refine congrArg Host.Outcome.next ?_
  rw [List.foldl_nil, ← hr]

end

/-- Settles O16: the command that nothing holds any more is at the head of its queue, and it runs there (`goTrowel_ran`); no Hod and no
packet was held besides (`exec_guardStallRelease_trowel`). -/
theorem heldCommandsRelease : Obligations.HeldCommandsRelease := by
  unfold Obligations.HeldCommandsRelease
  refine ⟨?_, ?_⟩
  · intro s n h u l hon hcalm hcq hq hu hb hr
    have hexec := exec_tileInterlockRelease_trowel hon hcq hq hu hb
    refine ⟨fun hw => ?_, ?_⟩
    · rw [hexec, hw, if_pos rfl, castReady_of_calm s hcalm]
    · intro q v e hw hy hue hg
      have fQ : Frames 16394 s q := tileWaitOver_frames
      have tQ : q.trowels = s.trowels.set n { s.trowels[n] with queue := v :: l } := tileWaitOver_trowels hq
      have pQ : q.pallets = s.pallets := fQ.pallets rfl
      have bQ : SameBut [.free, .trowels, .dict] s q := fQ.sameBut _ rfl
      have hqv : q.trowels[n].queue = v :: l := by rw [tQ]; simp
      have hran : TrowelRan q n v l (goTrowel q n) :=
        goTrowel_ran hqv ⟨hr, rfl⟩ ((tileWaits_unblocked hq (fQ.courses rfl) hqv).trans hw) hy (by rw [pQ]; exact hue) hg
          (calm_of_sameBut bQ (by simp) (by simp) hcalm)
      rw [hw, if_neg Bool.false_ne_true] at hexec
      refine ⟨_, hexec, ?_⟩
      rw [show castReady (goTrowel (tileWaitOver s n) n) = goTrowel q n from castReady_of_calm _ hran.calm]
      exact ⟨sameBut_then (sameBut_le bQ _ rfl) hran.but rfl, hran.trowels_from tQ, by rw [hran.mem, pQ],
        fun m hm => by rw [hran.pallets m hm, pQ]⟩
  · intro s n u l hon hcalm hheld hhods hq hb hr hue q v e hw hy hg
    have tQ : q.trowels = s.trowels.set n { s.trowels[n] with queue := v :: l } := setTrowelHead_trowels hq unblocked
    have fQ : Frames 8 s q := setTrowelHead_frames
    have pQ : q.pallets = s.pallets := fQ.pallets rfl
    have bQ : SameBut [.trowels] s q := fQ.sameBut _ rfl
    have hran : TrowelRan q n v l (goTrowel q n) :=
      goTrowel_ran (by rw [tQ]; simp) ⟨hr, rfl⟩ hw hy (by rw [pQ]; exact hue) hg (calm_of_sameBut bQ (by simp) (by simp) hcalm)
    have hhods' : (goTrowel q n).hods = s.hods := (hran.but.2 .hods (by simp)).trans (fQ.hods rfl)
    have hrigger : (goTrowel q n).rigger = s.rigger := (hran.but.2 .rigger (by simp)).trans (fQ.rigger rfl)
    refine ⟨_, exec_guardStallRelease_trowel hon hq hb hran.calm ?_ ?_, ?_⟩
    · exact (congrArg Rigger.held hrigger).trans hheld
    · intro j x m hx
      exact hhods j x m ((congrArg (fun y : Vector Hod 16 => y[j].queue) hhods').symm.trans hx)
    · exact ⟨sameBut_then (sameBut_le bQ _ rfl) hran.but rfl, hran.trowels_from tQ,
        hran.mem.trans (by rw [pQ]), fun m hm => (hran.pallets m hm).trans (by rw [pQ])⟩

end Sys2Proof.Machine
end

section
/-! FENCE (R91, R209, R222): the entry starts, and finishes at once where its condition holds. -/

namespace Sys2Proof.Machine

open Sys2Proof

section
variable {s : State} {f : Fin 9} {q : Fin 64} {e x : EntryRun} {scope : Nat}

theorem fin16_val (c : Fin 16) : fin16 c.val = c := by
  unfold fin16
  rw [dif_pos c.isLt]

/-- The Crew that a FENCE.CREW names. -/
theorem fenceCrew_named {b : BitVec 736} {c : Fin 16} (h : feCrew b = c.val) : fin16 (feCrew b) = c :=
  (congrArg fin16 h).trans (fin16_val c)

/-! ## The entry starts -/

/-- A change of the entry that has replaced `e`. -/
theorem updEntry_entered (hx : x.raw = e.raw) (g : EntryRun → EntryRun) :
    updEntry (entered s f q e x) f q (entrySeq e.raw) g = entered s f q e (g x) := by
  rw [← hx, updEntry_sole (entered_sole hx), entered_twice hx]

/-- A FENCE of a scope other than CREW that names no Crew and no other FENCE starts (R209). -/
theorem fenceStart_plain (h : Starts s f q e 4 [(735, 64), (31, 16), (7, 2)]) (hs : feScope (enBody e.raw) = scope) (h3 : scope ≠ 3)
    (hc : feCrew (enBody e.raw) = 0) (hid : feId (enBody e.raw) = 0) : fenceStart s f q scope = entered s f q e (e.begun s.now) := by
  unfold fenceStart
  rw [startEntry_starts h]
  dsimp only
  rw [if_neg (not_not.2 hs), if_neg (by simp [hc, hid]), if_neg (by simp [h3]), if_neg (by simp [h3]), if_neg h3, entryStart_starts h]

/-- A FENCE.CREW of a Crew of the function's partition starts, and notes the Crew's state and epoch (R222). -/
theorem fenceStart_crew {c : Fin 16} (h : Starts s f q e 4 [(735, 64), (31, 16), (7, 2)]) (hs : feScope (enBody e.raw) = 3)
    (hc : feCrew (enBody e.raw) = c.val) (hd : s.crews[c].state ≠ .undefined) (hp : (partOfFn f).isSome = true)
    (ho : crewOwner s c = partOfFn f) :
    fenceStart s f q 3 = entered s f q e { e.begun s.now with fence := some (s.crews[c].state, s.crews[c].epoch) } := by
  have hlt : ¬ 16 ≤ feCrew (enBody e.raw) := by
    rw [hc]
    exact not_le.2 c.isLt
  have hcrew : (decide (s.crews[c].state = .undefined) || (partOfFn f).isNone || crewOwner s c != partOfFn f) = false := by
    rw [ho, decide_eq_false hd, Option.isNone_eq_false_iff.2 hp, bne_self_eq_false]
    rfl
  unfold fenceStart
  rw [startEntry_starts h]
  dsimp only
  simp only [fenceCrew_named hc]
  rw [hcrew, if_neg (not_not.2 hs), if_neg (by simp), if_neg (by simp [hlt]), if_neg (by simp), if_pos trivial,
    entryStart_starts h]
  rw [updEntry_entered (show (e.begun s.now).raw = e.raw from rfl)]

/-! ## The entry finishes -/

/-- A FENCE that notes no Crew, or whose Crew is in the state and the epoch it noted, is not lost (R222). -/
theorem fenceLost_holds {t : State} (h : ∀ y ∈ x.fence, t.crews[fin16 (feCrew (enBody x.raw))].state = y.1 ∧
    t.crews[fin16 (feCrew (enBody x.raw))].epoch = y.2) : fenceLost t f q x = t := by
  unfold fenceLost
  split
  · rename_i a b hf
    obtain ⟨ha, hb⟩ := h (a, b) hf
    dsimp only
    rw [if_neg]
    unfold feCrew at ha hb
    simp only [ha, hb, ne_eq, not_true, decide_false, Bool.or_self, Bool.and_false, Bool.false_eq_true, not_false_eq_true]
  · rfl

/-- The state in which a FENCE of a scope has handed over its stream's tiles: all but LOCAL do (R91). -/
def fenceGiven (s : State) (f : Fin 9) (q : Fin 64) (scope : Nat) : State := if scope = 0 then s else handOver s f q

/-- The stream's first entry, a FENCE that has started as `x`, finishes where its condition holds. -/
theorem fenceEnd_finishes {l : List EntryRun} {cond : BitVec 736 → Bool} (hl : (stream s f q).entries = e :: l) (hop : enOp e.raw = 4)
    (hs : feScope (enBody e.raw) = scope) (hx : x.raw = e.raw) (hst : x.stage = .started) (hg : x.latchGroup = 0xFF) (hr : x.retried = false)
    (hf : ∀ y ∈ x.fence, s.crews[fin16 (feCrew (enBody x.raw))].state = y.1 ∧ s.crews[fin16 (feCrew (enBody x.raw))].epoch = y.2)
    (hc : cond (enBody e.raw) = true) :
    fenceEnd (entered s f q e x) f q scope cond =
      entered (fenceGiven s f q scope) f q e { x with stage := .finished, res := Res.okay, tEnd := s.now, deltas := [] } := by
  have hlx : (stream (entered s f q e x) f q).entries = x :: l.map fun y => if entrySeq y.raw = entrySeq e.raw then x else y := by
    rw [stream_entered, hl, List.map_cons, if_pos rfl]
  have hgiven : (if scope = 0 then entered s f q e x else handOver (entered s f q e x) f q) = entered (fenceGiven s f q scope) f q e x := by
    unfold fenceGiven
    split <;> rfl
  have hstream : stream (fenceGiven s f q scope) f q = stream s f q := by
    unfold fenceGiven
    split <;> rfl
  have hnow : (fenceGiven s f q scope).now = s.now := by
    unfold fenceGiven
    split <;> rfl
  have hlost : fenceLost (entered s f q e x) f q x = entered s f q e x := fenceLost_holds hf
  have hmem : e ∈ (stream (fenceGiven s f q scope) f q).entries := by rw [hstream, hl]; exact List.mem_cons_self
  unfold fenceEnd
  rw [hlx]
  dsimp only
  rw [hx, hop, hs, hst, if_neg (by simp), hlost, if_neg (not_not.2 rfl), hc, if_pos rfl, hgiven, ← hx,
    entryDone_sole (entered_mem hmem) (entered_sole hx) hg hr, entered_twice hx]
  rw [show (entered (fenceGiven s f q scope) f q e x).now = s.now from hnow]

end

/-- What a FENCE.CREW waits for is met: no change set of its stream is pending, every other member is at its fence, and every packet of the
partition's Crews is acknowledged (R222). -/
def crewFenceMet (s : State) (f : Fin 9) (q : Fin 64) (arrived : List Nat) (b : BitVec 736) : Bool :=
  let c := fin16 (feCrew b)
  !setsWait s f q && ((List.range (crewP s c)).all fun r => r = myRank s c || arrived.contains r) && !writesUnacked s f

theorem exec_fenceCrew (s : State) (f : Fin 9) (q : Fin 64) (arrived : List Nat) : exec (.fenceCrew f q arrived) s =
    powered s (fenceEnd (fenceStart s f q 3) f q 3 (crewFenceMet (fenceStart s f q 3) f q arrived)) := rfl

theorem crewFenceMet_of {s : State} {f : Fin 9} {q : Fin 64} {arrived : List Nat} {b : BitVec 736} {c : Fin 16} (hc : feCrew b = c.val)
    (hw : setsWait s f q = false) (ha : ∀ r, r < crewP s c → r ≠ myRank s c → r ∈ arrived) (hu : writesUnacked s f = false) :
    crewFenceMet s f q arrived b = true := by
  have hall : ((List.range (crewP s c)).all fun r => r = myRank s c || arrived.contains r) = true := by
    rw [List.all_eq_true]
    intro r hr
    by_cases hm : r = myRank s c
    · simp [hm]
    · simp [ha r (List.mem_range.1 hr) hm]
  unfold crewFenceMet
  dsimp only
  rw [fenceCrew_named hc, hw, hall, hu]
  rfl

/-- Settles O33: the FENCE starts (`fenceStart_plain`, `fenceStart_crew`) and, being the stream's first entry, finishes at once
(`fenceEnd_finishes`); its start changes nothing that its condition reads. -/
theorem fencesComplete : Obligations.FencesComplete := by
  unfold Obligations.FencesComplete
  intro s f q e l ar h hl hfence b handed given
  obtain ⟨-, hg, hr⟩ := h.plain
  have hgiven : handOver s f q = given := by
    unfold handOver
    rw [fin64_val]
  have hplain : ∀ (scope : Nat) (cond : BitVec 736 → Bool), feScope b = scope → scope ≠ 3 → feCrew b = 0 → feId b = 0 →
      cond b = true → fenceEnd (fenceStart s f q scope) f q scope cond = entered (fenceGiven s f q scope) f q e (e.ended s.now Res.okay) := by
    intro scope cond hs h3 hc hid hcond
    rw [fenceStart_plain h hs h3 hc hid]
    exact fenceEnd_finishes hl h.opcode hs rfl rfl hg hr (by rw [show (e.begun s.now).fence = none from hfence]; simp) hcond
  refine ⟨fun hs hc hid => ?_, fun hs hc hid hw => ?_, fun hs hc hid hw hup => ?_, fun c hs hc hd hp ho hw har hun => ?_⟩
  · show powered s _ = _
    rw [powered_on h.on, hplain 0 _ hs (by decide) hc hid rfl]
    rfl
  · show powered s (fenceEnd (fenceStart s f q 1) f q 1 fun _ => !setsWait (fenceStart s f q 1) f q) = _
    rw [powered_on h.on, hplain 1 _ hs (by decide) hc hid, ← hgiven]
    · rfl
    · rw [fenceStart_plain h hs (by decide) hc hid]
      show (!setsWait s f q) = true
      rw [hw]
      rfl
  · show powered s (fenceEnd (fenceStart s f q 2) f q 2 fun _ => !setsWait (fenceStart s f q 2) f q && (fenceStart s f q 2).host.up) = _
    rw [powered_on h.on, hplain 2 _ hs (by decide) hc hid, ← hgiven]
    · rfl
    · rw [fenceStart_plain h hs (by decide) hc hid]
      show (!setsWait s f q && s.host.up) = true
      rw [hw, hup]
      rfl
  · rw [exec_fenceCrew, powered_on h.on, fenceStart_crew h hs hc hd hp ho, ← hgiven]
    refine congrArg Host.Outcome.next (fenceEnd_finishes hl h.opcode hs rfl rfl hg hr ?_ (crewFenceMet_of hc hw har hun))
    rintro y ⟨⟩
    show s.crews[fin16 (feCrew b)].state = _ ∧ s.crews[fin16 (feCrew b)].epoch = _
    simp only [fenceCrew_named hc, and_self]

end Sys2Proof.Machine
end

section
/-! COPY, GATHER, SCATTER and ADDSCATTER at the issue port of a Hod (R134, R162, R168, R170). -/

namespace Sys2Proof.Machine

open Sys2Proof

/-! ## What a Hod command does besides its effect changes no byte -/

theorem correctSector_hbm (s : State) (x : Nat) : ∃ ce stks, (correctSector s x).hbm = { s.hbm with ce := ce, stks := stks } := by
  unfold correctSector
  dsimp only
  rw [rowEvent_hbm]
  exact ⟨_, _, rfl⟩

/-- A correction changes what a base die records of its sectors, and nothing else of HBM (R152). -/
theorem hbmFix_hbm (s : State) (p : Option (Fin 8)) (as : List Nat) : ∃ ce stks, (hbmFix s p as).hbm = { s.hbm with ce := ce, stks := stks } := by
  unfold hbmFix
  split
  · exact ⟨_, _, rfl⟩
  · refine List.foldlRecOn (motive := fun t : State => ∃ ce stks, t.hbm = { s.hbm with ce := ce, stks := stks }) _ _ ⟨_, _, rfl⟩ ?_
    rintro t ⟨ce, stks, ht⟩ x -
    obtain ⟨ce', stks', hx⟩ := correctSector_hbm t x
    exact ⟨ce', stks', by rw [hx, ht]⟩

theorem regServe_hbm (s : State) (w : RegWait) (g : Bool) : ∃ b, (regServe s w g).hbm = { s.hbm with buckets := b } := by
  unfold regServe
  cases w.part with
  | none => exact ⟨_, rfl⟩
  | some p => exact ⟨_, rfl⟩

theorem servePass_hbm (b : Bool) (s : State) (l : List (RegWait × Nat)) : ∃ k, (servePass b s l).1.hbm = { s.hbm with buckets := k } := by
  unfold servePass
  refine List.foldlRecOn (motive := fun acc : State × List (RegWait × Nat) => ∃ k, acc.1.hbm = { s.hbm with buckets := k }) _ _ ⟨_, rfl⟩ ?_
  rintro acc ⟨k, hk⟩ x -
  dsimp only
  split
  · rename_i g _
    obtain ⟨j, hj⟩ := regServe_hbm acc.1 x.1 g
    exact ⟨j, by rw [hj, hk]⟩
  · exact ⟨k, hk⟩

/-- The regulators change their buckets and the requests that wait, and nothing else of HBM (R150). -/
theorem hbmCharge_hbm (s : State) (p : Option (Fin 8)) (rs : List (Nat × Nat × List Nat)) :
    ∃ b w, (hbmCharge s p rs).hbm = { s.hbm with buckets := b, waits := w } := by
  unfold hbmCharge regAsk serveRegs
  split
  · exact ⟨_, _, rfl⟩
  · split
    · exact ⟨_, _, rfl⟩
    · dsimp only
      generalize hA : servePass false _ _ = A
      obtain ⟨b, hb⟩ := hA ▸ servePass_hbm false _ _
      generalize hB : servePass true A.1 _ = B
      obtain ⟨d, hd⟩ := hB ▸ servePass_hbm true A.1 _
      exact ⟨d, _, by rw [hd, hb]⟩

/-- The Pallets, the stacks with their windows and host memory hold the same bytes. -/
structure SameContents (s t : State) : Prop where
  pallets : ∀ n : Fin 8, t.pallets[n].mem = s.pallets[n].mem
  mem : t.hbm.mem = s.hbm.mem
  dev : t.hbm.dev = s.hbm.dev
  host : t.host.mem = s.host.mem

theorem Frames.contents {m : Nat} {s t : State} (h : Frames m s t) (hp : m.testBit 4 = false) (hb : m.testBit 6 = false)
    (hh : m.testBit 7 = false) : SameContents s t :=
  ⟨fun n => by rw [h.pallets hp], by rw [h.hbm hb], by rw [h.hbm hb], by rw [h.host hh]⟩

theorem SameContents.trans {r s t : State} (h : SameContents r s) (k : SameContents s t) : SameContents r t :=
  ⟨fun n => (k.pallets n).trans (h.pallets n), k.mem.trans h.mem, k.dev.trans h.dev, k.host.trans h.host⟩

theorem spaceFix_hbm (s : State) (p : Option (Fin 8)) (es : List Nat) :
    ∃ ce stks, (spaceFix s p es).hbm = { s.hbm with ce := ce, stks := stks } := by
  unfold spaceFix
  dsimp only
  generalize hT : List.foldl _ s (List.range 8) = T
  have hb : T.hbm = s.hbm := by
    rw [← hT]
    exact List.foldlRecOn (motive := fun t : State => t.hbm = s.hbm) _ _ rfl fun t ht n _ => (palletFix_frames.hbm rfl).trans ht
  rw [← hb]
  exact hbmFix_hbm T p _

theorem spaceFix_contents (s : State) (p : Option (Fin 8)) (es : List Nat) : SameContents s (spaceFix s p es) := by
  obtain ⟨ce, stks, h⟩ := spaceFix_hbm s p es
  exact ⟨spaceFix_pallets s p es, by rw [h], by rw [h], congrArg HostPort.mem (spaceFix_frames.host rfl)⟩

theorem hbmCharge_contents (s : State) (p : Option (Fin 8)) (rs : List (Nat × Nat × List Nat)) : SameContents s (hbmCharge s p rs) := by
  obtain ⟨b, w, h⟩ := hbmCharge_hbm s p rs
  exact ⟨fun n => by rw [hbmCharge_frames.pallets rfl], by rw [h], by rw [h], congrArg HostPort.mem (hbmCharge_frames.host rfl)⟩

theorem atcUse_contents (s : State) (f : Fin 9) (es : List Nat) : SameContents s (atcUse s f es) :=
  ⟨fun n => by rw [atcUse_frames.pallets rfl], by rw [atcUse_frames.hbm rfl], by rw [atcUse_frames.hbm rfl], atcUse_mem s f es⟩

theorem hodAccount_contents (s : State) (h : Fin 16) (u : UnitCmd) (rs ws : List Nat) (moved : Nat) :
    SameContents s (hodAccount s h u rs ws moved) := by
  unfold hodAccount
  dsimp only
  exact (coarseWaste_frames.contents rfl rfl rfl |>.trans (hbmCharge_contents _ _ _)).trans
    (Frames.contents (m := 278528) ((((((ctrAdd_frames.mono rfl).step ctrAdd_frames rfl).step evAdd_frames rfl).step evAdd_frames rfl).step
      evAdd_frames rfl).step evAdd_frames rfl) rfl rfl rfl)

/-! ## The oldest command of a Hod runs -/

/-- The state in which a Hod command's stream has its tiles (R91). -/
def hodOwning (s : State) (h : Fin 16) (u : UnitCmd) : State :=
  tilesTake (waitSpent s (hodCourse h) (cmdTiles u)) (hodCourse h) u

/-- The places a Hod command reads and writes when nothing holds it. -/
def hodReach (s : State) (h : Fin 16) (u : UnitCmd) : List Nat × List Nat :=
  hodPlaces (waitSpent s (hodCourse h) (cmdTiles u)) h u

/-- What HBM is read for to record what a Hod command overwrites (R325). -/
def hodRecord (s : State) (h : Fin 16) (u : UnitCmd) : List Nat := hodUndo (hodOwning s h u) u (hodReach s h u).2

theorem hodTaken_eq (s : State) (h : Fin 16) (u : UnitCmd) (cr : Fin 16) (p : Fin 8) :
    hodTaken s h u cr p = undoSave (hodOwning s h u) cr p (hbmOf (hodReach s h u).2) := rfl

theorem hodTaken_frames {s : State} {h : Fin 16} {u : UnitCmd} {cr : Fin 16} {p : Fin 8} : Frames 1094 s (hodTaken s h u cr p) :=
  ((waitSpent_frames.mono rfl).step tilesTake_frames rfl).step undoSave_frames rfl

theorem calm_hodTaken {s : State} (hc : Calm s) (h : Fin 16) (u : UnitCmd) (cr : Fin 16) (p : Fin 8) : Calm (hodTaken s h u cr p) := by
  have f : Frames 6 s (hodOwning s h u) := (waitSpent_frames.mono rfl).step tilesTake_frames rfl
  exact calm_undoSave (calm_of_same _ _ (f.crews rfl) (congrArg HostPort.funcs (f.host rfl)) hc) cr p _

/-- The state in which a Hod command has read and written: what its reads corrected is rewritten, its translations stay in the cache and it
is accounted for (R152, R171, R179). -/
def hodWorked (s : State) (h : Fin 16) (u : UnitCmd) (cr : Fin 16) (p : Fin 8) : State :=
  let pl := hodReach s h u
  hodAccount
    (atcUse (spaceFix (hodEffect (hodTaken s h u cr p) h u).1 (some p) (pl.1 ++ (hodRecord s h u).map hbmAddr)) (issuerFn s u.iss) (pl.1 ++ pl.2))
    h u pl.1 pl.2 (if u.op = 0x41 then cpBytes u.word else pl.2.length)

theorem hodWorked_frames {s : State} {h : Fin 16} {u : UnitCmd} {cr : Fin 16} {p : Fin 8} : Frames 935126 s (hodWorked s h u cr p) :=
  ((((hodTaken_frames.mono rfl).step hodEffect_frames rfl).step spaceFix_frames rfl).step atcUse_frames rfl).step hodAccount_frames rfl

/-- Beside its effect a Hod command changes no byte. -/
theorem hodWorked_contents (s : State) (h : Fin 16) (u : UnitCmd) (cr : Fin 16) (p : Fin 8) :
    SameContents (hodEffect (hodTaken s h u cr p) h u).1 (hodWorked s h u cr p) :=
  ((spaceFix_contents _ _ _).trans (atcUse_contents _ _ _)).trans (hodAccount_contents _ _ _ _ _ _)

theorem calm_hodWorked {s : State} (hc : Calm s) (h : Fin 16) (u : UnitCmd) (cr : Fin 16) (p : Fin 8) : Calm (hodWorked s h u cr p) := by
  have kE : Calm (hodEffect (hodTaken s h u cr p) h u).1 :=
    calm_of_same _ _ (hodEffect_frames.crews rfl) (hodEffect_funcs _ h u) (calm_hodTaken hc h u cr p)
  have kF : Calm (spaceFix (hodEffect (hodTaken s h u cr p) h u).1 (some p) ((hodReach s h u).1 ++ (hodRecord s h u).map hbmAddr)) :=
    calm_of_same _ _ (spaceFix_frames.crews rfl) (congrArg HostPort.funcs (spaceFix_frames.host rfl)) kE
  have kA := calm_atcUse kF (issuerFn s u.iss) ((hodReach s h u).1 ++ (hodReach s h u).2)
  exact calm_of_same _ _ (hodAccount_frames.crews rfl) (congrArg HostPort.funcs (hodAccount_frames.host rfl)) kA

/-- A command of a core of Crew `cr` of partition `p`, new at Hod `h`: no check rejects it, no MM's range and no region write holds it, and
no error meets it (R57, R167, R177, R178). -/
structure HodRuns (s : State) (h : Fin 16) (u : UnitCmd) (cr : Fin 16) (p : Fin 8) : Prop where
  new : u.run = false ∧ u.blocked = 0 ∧ u.retried = false ∧ u.after = []
  core : ∃ n k i q, u.iss = .core cr n k i q
  owner : crewOwner s cr = some p
  accepted : (if u.op = 0x41 then copyReject s u else gatherReject s h u) = none
  unheld : heldBy (waitSpent s (hodCourse h) (cmdTiles u)) (hodReach s h u).2 = none
  sound : hodFault (hodTaken s h u cr p) u (hodRecord s h u) (hodReach s h u).1 (hodReach s h u).2 = none

/-- A Hod command `u` that has run, in the queue it waits in to retire (R173). -/
def hodDone (s : State) (h : Fin 16) (u : UnitCmd) (cr : Fin 16) (p : Fin 8) (x : UnitCmd) : UnitCmd :=
  { x with
    run := true, wrote := hodOld (hodOwning s h u) h u
    res := { Res.okay with flags := (hodEffect (hodTaken s h u cr p) h u).2 } }

/-- The oldest command of a Hod runs in the state in which its stream has its tiles and what it overwrites is recorded. -/
theorem goHod_worked {s : State} {h : Fin 16} {u : UnitCmd} {l : List UnitCmd} {cr : Fin 16} {p : Fin 8} (hq : s.hods[h].queue = u :: l)
    (hr : HodRuns s h u cr p) : goHod s h = setHodHead (hodWorked s h u cr p) h (hodDone s h u cr p) := by
  obtain ⟨hrun, hblocked, hretried, hafter⟩ := hr.new
  obtain ⟨n, k, i, q, hiss⟩ := hr.core
  have hpart : issuerPart s u.iss = some p := by rw [hiss]; exact hr.owner
  have hcrew : issuerCrew u.iss = some cr := by rw [hiss]; rfl
  have hwaits : entryWaits u = false := by unfold entryWaits; rw [hafter]; rfl
  have hheld := hr.unheld
  have hsound := hr.sound
  unfold hodReach at hheld
  rw [hodTaken_eq] at hsound
  unfold hodWorked hodDone
  rw [hodTaken_eq]
  unfold hodRecord hodReach hodOwning hodCourse at *
  unfold goHod
  rw [hq]
  dsimp only
  rw [hrun, hblocked, if_neg (by decide), hwaits, if_neg (by decide), hr.accepted]
  dsimp only
  rw [hheld]
  dsimp only
  rw [hcrew, hpart]
  dsimp only
  rw [hsound]
  dsimp only
  rw [hiss, hretried]
  rfl

/-- From `s` to `t` the oldest command `u` of Hod `h` has run before `l`: its reads, writes and adds are made, and it waits in the queue,
done (R134, R162, R168, R170). -/
structure HodRan (s : State) (h : Fin 16) (u : UnitCmd) (l : List UnitCmd) (cr : Fin 16) (p : Fin 8) (t : State) : Prop where
  calm : Calm t
  but : SameBut [.free, .courses, .pallets, .hods, .hbm, .host, .crews, .dict, .pointing, .counters, .out] s t
  hods : t.hods = s.hods.set h { s.hods[h] with queue := hodDone s h u cr p u :: l }
  contents : SameContents (hodEffect (hodTaken s h u cr p) h u).1 t

theorem goHod_ran {s : State} {h : Fin 16} {u : UnitCmd} {l : List UnitCmd} {cr : Fin 16} {p : Fin 8} (hq : s.hods[h].queue = u :: l)
    (hr : HodRuns s h u cr p) (hc : Calm s) : HodRan s h u l cr p (goHod s h) := by
  rw [goHod_worked hq hr]
  have hD := hodWorked_contents s h u cr p
  have kD : Calm (hodWorked s h u cr p) := calm_hodWorked hc h u cr p
  have fD : Frames 935126 s (hodWorked s h u cr p) := hodWorked_frames
  generalize hodWorked s h u cr p = D at *
  have fH : ∀ g : UnitCmd → UnitCmd, Frames 32 D (setHodHead D h g) := fun _ => setHodHead_frames
  refine ⟨calm_of_same _ _ ((fH _).crews rfl) (congrArg HostPort.funcs ((fH _).host rfl)) kD,
    Frames.sameBut (m := 935158) ((fD.mono rfl).step (fH _) rfl) _ rfl, ?_,
    hD.trans ((fH _).contents rfl rfl rfl)⟩
  rw [setHodHead_hods (by rw [fD.hods rfl]; exact hq), fD.hods rfl]

/-! ## What a COPY changes -/

/-- Bytes written to a Pallet leave every other Pallet and every other offset as they are. -/
theorem palletWriteL_byte {s : State} {m n : Fin 8} {ws : List (Nat × Byte)} {x : Nat} (hwf : s.pallets[n].mem.wf = true)
    (hx : m = n → ∀ w ∈ ws, w.1 ≠ x) :
    (palletWriteL s m ws).pallets[n].mem.wf = true ∧ palletByte (palletWriteL s m ws) n x = palletByte s n x := by
  unfold palletByte palletWriteL
  dsimp only
  rw [updCourse_pallets]
  by_cases e : n = m
  · subst e
    rw [updPallet_same]
    exact ⟨writeL_wf _ _ hwf, read_writeL_other _ _ _ hwf (hx rfl)⟩
  · rw [updPallet_other _ _ _ _ e]
    exact ⟨hwf, rfl⟩

/-- Bytes written at places change no byte of a Pallet but those at the places. -/
theorem spaceWriteL_palletByte {s : State} {f : Fin 9} {p : Option (Fin 8)} {ws : List (Nat × Byte)} {n : Fin 8} {x : Nat}
    (hwf : s.pallets[n].mem.wf = true) (hx : ∀ w ∈ ws, ¬(aLoc w.1 = 0 ∧ aCourse w.1 = n.val ∧ aPallet w.1 = x)) :
    palletByte (spaceWriteL s f p ws) n x = palletByte s n x := by
  unfold spaceWriteL
  dsimp only
  refine (show palletByte (hostPut _ _) n x = palletByte _ n x by
    unfold palletByte; rw [hostPut_frames.pallets rfl, hbmWriteP_frames.pallets rfl]).trans ?_
  refine (List.foldlRecOn (motive := fun t : State => t.pallets[n].mem.wf = true ∧ palletByte t n x = palletByte s n x) _ _
    ⟨hwf, rfl⟩ ?_).2
  rintro t ⟨ht, hb⟩ k hk
  split
  · exact ⟨ht, hb⟩
  · obtain ⟨h1, h2⟩ := palletWriteL_byte (m := fin8 k) (x := x)
      (ws := (ws.filter fun w => aLoc w.1 = 0 && aCourse w.1 = k).map fun w => (aPallet w.1, w.2)) ht fun e y hy hyx => by
        have hkn : k = n.val := by
          rw [← e]
          exact (congrArg Fin.val (fin8_val ⟨k, List.mem_range.1 hk⟩)).symm
        obtain ⟨w, hw, rfl⟩ := List.mem_map.1 hy
        obtain ⟨hmem, hat⟩ := List.mem_filter.1 hw
        simp only [Bool.and_eq_true, decide_eq_true_eq] at hat
        exact hx w hmem ⟨hat.1, hat.2.trans hkn, hyx⟩
    exact ⟨h1, h2.trans hb⟩

/-- The adds of a COPY are made in HBM alone (R168). -/
theorem hodEffect_copyAdd_frames {s : State} {h : Fin 16} {u : UnitCmd} (hop : u.op = 0x41) (ha : cpAdd u.word = true) :
    Frames 64 s (hodEffect s h u).1 := by
  unfold hodEffect
  dsimp only
  rw [if_pos hop, if_pos ha]
  split
  · exact hbmAdds_frames
  · exact .refl _ _

/-- A COPY without ADD changes no byte of a Pallet but those of its destination places, which its word tells (R162). -/
theorem hodEffect_copy_palletByte {s g : State} {h : Fin 16} {u : UnitCmd} {n : Fin 8} {x : Nat} (hop : u.op = 0x41) (ha : cpAdd u.word = false)
    (hwf : s.pallets[n].mem.wf = true) (hx : ∀ y ∈ (hodPlaces g h u).2, ¬(aLoc y = 0 ∧ aCourse y = n.val ∧ aPallet y = x)) :
    palletByte (hodEffect s h u).1 n x = palletByte s n x := by
  have hdst : (hodPlaces g h u).2 = cpPlaces (cpDaddr u.word) (cpRun u.word) ((cpIndices u.word).map (·.2)) := by
    unfold hodPlaces cpDrun
    dsimp only
    rw [if_pos hop, ha]
    rfl
  rw [hdst] at hx
  unfold hodEffect
  dsimp only
  rw [if_pos hop, ha]
  exact spaceWriteL_palletByte hwf fun w hw => hx w.1 (List.of_mem_zip hw).1

/-! ## At the issue port -/

section
variable {s : State} {w : Who} {cr : Fin 16} {p : Fin 8} {a : Attempt} {k : CoreRun} {h : Fin 16} {c : Cmd}

/-- The five commands are told apart by the opcode, and a COPY by its ADD bit (R161, R169). -/
def IsHodInstr (w : Who) (h : Fin 16) (c : Cmd) (i : Instr) : Prop :=
  (fld c 7 0 = 0x41 ∧ cpAdd c = false ∧ i = .copy w h c) ∨ (fld c 7 0 = 0x41 ∧ cpAdd c = true ∧ i = .copyAdd w h c) ∨
    (fld c 7 0 = 0x42 ∧ i = .gather w h c) ∨ (fld c 7 0 = 0x43 ∧ i = .scatter w h c) ∨ (fld c 7 0 = 0x44 ∧ i = .addscatter w h c)

theorem IsHodInstr.opcode {i : Instr} (hi : IsHodInstr w h c i) :
    fld c 7 0 = 0x41 ∨ fld c 7 0 = 0x42 ∨ fld c 7 0 = 0x43 ∨ fld c 7 0 = 0x44 := by
  obtain ⟨e, -⟩ | ⟨e, -⟩ | ⟨e, -⟩ | ⟨e, -⟩ | ⟨e, -⟩ := hi <;> simp [e]

theorem IsHodInstr.exec_eq {i : Instr} (hi : IsHodInstr w h c i) : exec i s = powered s (hodPort s w h c) := by
  obtain ⟨-, -, rfl⟩ | ⟨-, -, rfl⟩ | ⟨-, rfl⟩ | ⟨-, rfl⟩ | ⟨-, rfl⟩ := hi <;> rfl

/-- A COPY, GATHER, SCATTER or ADDSCATTER of a core that may store at a free Hod's port: it joins the queue, and the oldest one goes on. -/
theorem exec_hod_queues {i : Instr} (hm : CoreMay s w cr p a k) (ho : OwnsCourse s (hodCourse h) p) (hq : s.hods[h].queue = [])
    (hi : IsHodInstr w h c i) :
    exec i s = .next (castReady (goHod (hodQueued (bookIssue s cr w k) h (hodCmd s h c (coreIssuer cr a k))) h)) := by
  rw [hi.exec_eq, powered_on hm.on, hodPort_go hm ho.1 ho.2 hi.opcode]
  unfold enqueueHod
  rw [if_pos (by rw [show (bookIssue s cr w k).hods = s.hods from rfl, hq]; decide)]
  rfl

theorem hodQueued_hods (hq : s.hods[h].queue = []) (u : UnitCmd) :
    (hodQueued s h u).hods = s.hods.set h { s.hods[h] with queue := [u] } := by
  unfold hodQueued updHod
  dsimp only
  rw [hq]
  rfl

theorem hodQueued_frames {u : UnitCmd} : Frames 1056 s (hodQueued (bookIssue s cr w k) h u) :=
  (bookIssue_frames.mono rfl).step updHod_frames rfl

theorem hodCmd_op_iff (iss : Issuer) : (hodCmd s h c iss).op = 0x41 ↔ fld c 7 0 = 0x41 := by
  have hlt : fld c 7 0 < 256 := Nat.mod_lt _ (by decide)
  show BitVec.ofNat 8 (fld c 7 0) = BitVec.ofNat 8 0x41 ↔ _
  rw [← BitVec.toNat_inj, BitVec.toNat_ofNat, BitVec.toNat_ofNat, Nat.mod_eq_of_lt hlt]

end

/-- Settles O18: the command is the one of its queue, and it runs there (`goHod_ran`); what a COPY changes is what its effect does
(`hodEffect_copyAdd_frames`, `hodEffect_copy_palletByte`). -/
theorem hodCommandsRun : Obligations.HodCommandsRun := by
  unfold Obligations.HodCommandsRun
  intro s w cr p a k h c hm ho hq u q g o pl r e hafter hrj hheld hfault i hi
  have fQ : Frames 1056 s q := hodQueued_frames
  have hqueue : q.hods = s.hods.set h { s.hods[h] with queue := [u] } := hodQueued_hods (s := bookIssue s cr w k) hq u
  have hruns : HodRuns q h u cr p :=
    { new := ⟨rfl, rfl, rfl, hafter⟩
      core := ⟨_, _, _, _, rfl⟩
      owner := (crewOwner_dict (by rw [fQ.dict rfl]) cr).trans hm.owner
      accepted := by simpa only [show u.op = 0x41 ↔ fld c 7 0 = 0x41 from hodCmd_op_iff _] using hrj
      unheld := hheld
      sound := hfault }
  have kQ : Calm q := calm_of_same _ _ rfl rfl (calm_bookIssue s cr w k hm.calm)
  have hran : HodRan q h u [] cr p (goHod q h) := goHod_ran (by rw [hqueue]; simp) hruns kQ
  have pR : r.pallets = s.pallets := (hodTaken_frames.pallets rfl).trans (fQ.pallets rfl)
  have hR : r.host = s.host := (hodTaken_frames.host rfl).trans (fQ.host rfl)
  refine ⟨_, exec_hod_queues hm ho hq hi, ?_⟩
  rw [castReady_of_calm _ hran.calm]
  refine ⟨sameBut_then (fQ.sameBut _ rfl) hran.but rfl, ?_, hran.contents.pallets, hran.contents.mem, hran.contents.dev, hran.contents.host,
    fun hop hadd => ?_, fun hop hadd n hwf x hx => ?_⟩
  · rw [hran.hods, hqueue]
    simp only [Fin.getElem_fin, Vector.getElem_set_self, Vector.set_set]
    rfl
  · have fE : Frames 64 r e.1 := hodEffect_copyAdd_frames ((hodCmd_op_iff _).mpr hop) hadd
    refine ⟨fun n => ?_, ?_⟩
    · rw [hran.contents.pallets, fE.pallets rfl, pR]
    · rw [hran.contents.host, fE.host rfl, hR]
  · have hE : palletByte e.1 n x = palletByte r n x :=
      hodEffect_copy_palletByte ((hodCmd_op_iff _).mpr hop) hadd (by rw [pR]; exact hwf) hx
    unfold palletByte at *
    rw [hran.contents.pallets, hE, pR]

end Sys2Proof.Machine
end

section
/-! What a base die does for MEMORY_SIDE_ADD and REGULATOR_REQUEST (R148 to R150): adds into an adder region, reads, and the requests that
reach a regulator on which nothing waits. -/

namespace Sys2Proof.Machine

open Sys2Proof

/-! ## An access leaves what HBM holds as it is -/

theorem hbmTraffic_sameBytes (s : State) (p : Option (Fin 8)) (as : List Nat) : SameBytes s (hbmTraffic s p as) := by
  obtain ⟨b, w, h⟩ := hbmCharge_hbm s p (writeRuns s p (as.map hbmAddr))
  have hT : (hbmTraffic s p as).hbm = { s.hbm with buckets := b, waits := w } := h
  exact ⟨by rw [hbmTraffic_frames.dict rfl], by rw [hT], by rw [hT], by rw [hT], by rw [hT]⟩

theorem SameBytes.adderAt {s t : State} (h : SameBytes s t) (p : Fin 8) (a : Nat) : adderAt t p a = adderAt s p a := by
  unfold Machine.adderAt adderRec objBytes
  rw [h.vals]

/-- Bytes are written alike in two states that hold the same bytes and in which the same sectors are uncorrectable (R153). -/
theorem SameBytes.hbmWriteP_mem {s t : State} (h : SameBytes s t) (hu : t.hbm.ue = s.hbm.ue) (p : Option (Fin 8)) (ws : List (Nat × Byte)) :
    (hbmWriteP t p ws).hbm.mem = (hbmWriteP s p ws).hbm.mem := by
  unfold hbmWriteP spotPlace mpaPlace hbmPut Hbm.put
  simp only [h.hbmSpot, h.mpaMap, h.mem, hu]

/-- The state in which a base die answers an access of partition `p` to listed addresses: what it corrects is corrected, and the access is
charged (R150, R152). -/
def accessed (s : State) (p : Fin 8) (as : List Nat) : State := hbmTraffic (hbmFix s (some p) as) (some p) as

section
variable (s : State) (p : Fin 8) (as : List Nat)

theorem accessed_sameBytes : SameBytes s (accessed s p as) := (hbmFix_sameBytes s _ as).trans (hbmTraffic_sameBytes _ _ as)

theorem accessed_ue : (accessed s p as).hbm.ue = s.hbm.ue := by
  obtain ⟨ce, stks, hF⟩ := hbmFix_hbm s (some p) as
  obtain ⟨b, w, hT⟩ := hbmCharge_hbm (hbmFix s (some p) as) (some p) (writeRuns (hbmFix s (some p) as) (some p) (as.map hbmAddr))
  show (hbmCharge _ _ _).hbm.ue = _
  rw [hT, hF]

theorem accessed_frames : Frames 933952 s (accessed s p as) := (hbmFix_frames.mono rfl).step hbmTraffic_frames rfl

end

/-! ## Adds (R148) -/

/-- The byte addresses of an element of an adder format. -/
def addAddrs (a fmt : Nat) : List Nat := (List.range (adderBytes fmt)).map (a + ·)

/-- The element of an adder format at an address of a partition's HBM. -/
def storedElem (s : State) (p : Fin 8) (a fmt : Nat) : Nat := ofLe ((List.range (adderBytes fmt)).map fun i => hbmByteP s (some p) (a + i))

/-- The bytes of an element of an adder format, at their addresses. -/
def sumBytes (a fmt v : Nat) : List (Nat × Byte) := (leBytes (adderBytes fmt) v).zipIdx.map fun y => (a + y.2, y.1)

/-- One add stores the sum its format gives, with that sum's flags. -/
theorem hbmAdds_one (s : State) (p : Fin 8) (fmt a x : Nat) :
    hbmAdds s p fmt [(a, x)] =
      (hbmWriteP s (some p) (sumBytes a fmt (adderAdd fmt (storedElem s p a fmt) x).1), (adderAdd fmt (storedElem s p a fmt) x).2) :=
  Prod.ext rfl (BitVec.zero_or ..)

theorem SameBytes.storedElem {s t : State} (h : SameBytes s t) (p : Fin 8) (a fmt : Nat) : storedElem t p a fmt = storedElem s p a fmt := by
  unfold Machine.storedElem
  simp only [h.hbmByteP]

section
variable {s : State} {p : Fin 8} {a fmt : Nat} {v : BitVec 64}

/-- An add on an element of an adder region of its format is made on what the access finds. -/
theorem memoryAdd_made {base size : Nat} {sc : Int} (hr : adderAt s p a = some (base, size, fmt, sc)) (hal : (a - base) % adderBytes fmt = 0)
    (hend : a + adderBytes fmt ≤ base + size) (hin : (hbmAt s p a).isSome = true) (hue : ueAt s (some p) (addAddrs a fmt) = none) :
    memoryAdd s p a fmt v =
      emit (hbmWriteP (accessed s p (addAddrs a fmt)) (some p)
          (sumBytes a fmt (adderAdd fmt (storedElem s p a fmt) (v.toNat % 2 ^ (8 * adderBytes fmt))).1))
        (.memory .none 0 (adderAdd fmt (storedElem s p a fmt) (v.toNat % 2 ^ (8 * adderBytes fmt))).2) := by
  unfold addAddrs at hue
  have hnone : (hbmAt s p a).isNone = false := by
    rw [← Option.not_isSome, hin]
    rfl
  unfold memoryAdd
  dsimp only
  rw [hr, hnone, hue]
  dsimp only
  rw [if_neg (by simp [hal, hend])]
  show emit (hbmAdds (accessed s p (addAddrs a fmt)) p fmt _).1 (.memory .none 0 (hbmAdds (accessed s p (addAddrs a fmt)) p fmt _).2) = _
  rw [hbmAdds_one, (accessed_sameBytes s p _).storedElem]

/-- An add that no adder region of its format takes is answered ADDER_REGION. -/
theorem memoryAdd_refused (h : ∀ base size sc, adderAt s p a = some (base, size, fmt, sc) →
      (a - base) % adderBytes fmt ≠ 0 ∨ base + size < a + adderBytes fmt) :
    memoryAdd s p a fmt v = emit s (.memory .adderRegion 0 0) := by
  unfold memoryAdd
  dsimp only
  refine if_pos ?_
  cases hr : adderAt s p a with
  | none => rfl
  | some x =>
    obtain ⟨base, size, m, sc⟩ := x
    by_cases hm : m = fmt
    · subst hm
      rcases h base size sc hr with hal | hend
      · simp [hal]
      · simp [Nat.not_le.2 hend]
    · simp [hm]

end

/-! ## Reads (R149) -/

/-- The word at an address of a partition's HBM. -/
def wordAt (s : State) (p : Fin 8) (a : Nat) : BitVec 64 := BitVec.ofNat 64 (ofLe ((List.range 8).map fun i => hbmByteP s (some p) (a + i)))

theorem hbmReadN_word (s : State) (p : Fin 8) (a : Nat) : BitVec.ofNat 64 (ofLe (hbmReadN s p a 8)) = wordAt s p a := by
  have hb : ∀ x, hbmByte s p x = hbmByteP s (some p) x := fun x => by
    have hs : spotPlace s (some p) x = (hbmAt s p x).map fun m => mpaPlace s.hbm m.1 := rfl
    unfold hbmByte hbmByteP
    rw [hs]
    cases hbmAt s p x <;> rfl
  unfold hbmReadN wordAt
  simp only [hb]

section
variable {s : State} {p : Fin 8} {a : Nat} (hin : ∀ i, i < 8 → (hbmAt s p (a + i)).isSome = true)
  (hue : ueAt s (some p) ((List.range 8).map (a + ·)) = none)
include hin hue

/-- A read of a word of the regions is answered with the stored word, converted where it is a FIXED64 element read with CONVERT. -/
theorem memoryRead_answers (conv : Bool) :
    ∃ v fl, memoryRead s p a conv = emit (accessed s p ((List.range 8).map (a + ·))) (.memory .none v fl) ∧
      (∀ base size sc, conv = true → adderAt s p a = some (base, size, 4, sc) →
        (v, fl) = ((fromFixed (wordAt s p a) sc).1.setWidth 64, (fromFixed (wordAt s p a) sc).2)) ∧
      (conv = false → (v, fl) = (wordAt s p a, 0)) := by
  have hsome : ((List.range 8).map (a + ·)).find? (fun x => (hbmAt s p x).isNone) = none := by
    rw [List.find?_eq_none]
    intro x hx
    obtain ⟨i, hi, rfl⟩ := List.mem_map.1 hx
    simp [Option.isSome_iff_ne_none.1 (hin i (List.mem_range.1 hi))]
  have hB := accessed_sameBytes s p ((List.range 8).map (a + ·))
  have hw : wordAt (accessed s p ((List.range 8).map (a + ·))) p a = wordAt s p a := by
    unfold wordAt
    simp only [hB.hbmByteP]
  unfold memoryRead
  dsimp only
  rw [hsome]
  dsimp only
  rw [hue]
  dsimp only
  rw [show hbmTraffic (hbmFix s (some p) _) (some p) _ = accessed s p ((List.range 8).map (a + ·)) from rfl, hbmReadN_word, hw, hB.adderAt]
  split
  · rename_i base size sc hr
    cases conv
    · exact ⟨_, _, rfl, fun _ _ _ h => absurd h (by decide), fun _ => rfl⟩
    · refine ⟨_, _, rfl, fun _ _ _ _ h => ?_, fun h => absurd h (by decide)⟩
      cases hr.symm.trans h
      rfl
  · rename_i hr
    exact ⟨_, _, rfl, fun base size sc _ h => (hr base size sc h).elim, fun _ => rfl⟩

end

/-! ## Requests that reach a regulator (R150) -/

/-- A request that has just come waits for nothing yet. -/
theorem regAged_new (s : State) (p : Option (Fin 8)) (k : Fin 20) (n : Nat) : regAged s ⟨p, k, n, 0, s.now⟩ = ⟨p, k, n, 0, s.now⟩ := by
  unfold regAged
  dsimp only
  rw [BitVec.sub_self]
  simp

/-- One request in a pass that serves its class is served. -/
theorem servePass_one_served {b g : Bool} {s : State} {w : RegWait} {i : Nat} (h : waitClass s w = some g) (hg : (g || b) = true) :
    servePass b s [(w, i)] = (regServe s w g, []) := by
  have hf : (waitClass s w).filter (fun g => g || b) = some g := by rw [h, Option.filter_some, if_pos hg]
  unfold servePass
  simp only [regBehind, List.foldl_cons, List.foldl_nil, List.map_nil, List.any_nil, Bool.false_eq_true, if_false, hf]

/-- One request in a pass that does not serve its class is kept. -/
theorem servePass_one_kept {b : Bool} {s : State} {w : RegWait} {i : Nat} (h : ∀ g, waitClass s w = some g → (g || b) = false) :
    servePass b s [(w, i)] = (s, [(w, i)]) := by
  have hf : (waitClass s w).filter (fun g => g || b) = none := by
    rw [Option.filter_eq_none_iff]
    intro g hg
    simp [h g hg]
  unfold servePass
  simp only [regBehind, List.foldl_cons, List.foldl_nil, List.map_nil, List.any_nil, Bool.false_eq_true, if_false, hf, List.nil_append]

/-- The state in which other requests wait. -/
def withWaits (s : State) (ws : List RegWait) : State := { s with hbm := { s.hbm with waits := ws } }

theorem withWaits_same {s : State} {ws : List RegWait} (h : s.hbm.waits = ws) : withWaits s ws = s := by
  subst h
  rfl

/-- What a request is served with does not depend on the requests that wait. -/
theorem regServe_withWaits (s : State) (w : RegWait) (g : Bool) (ws : List RegWait) : regServe (withWaits s ws) w g = withWaits (regServe s w g) ws := by
  unfold regServe
  cases w.part <;> rfl

theorem regServe_waits (s : State) (w : RegWait) (g : Bool) : (regServe s w g).hbm.waits = s.hbm.waits := by
  unfold regServe
  cases w.part <;> rfl

theorem waitClass_withWaits (s : State) (w : RegWait) (ws : List RegWait) : waitClass (withWaits s ws) w = waitClass s w := by
  unfold waitClass
  cases w.part <;> rfl

section
variable {s : State} {w : RegWait} (hw : s.hbm.waits = [w]) (hage : regAged s w = w)
include hw hage

/-- The two passes over the one request that waits decide what becomes of it. -/
theorem serveRegs_one :
    serveRegs s =
      let x := servePass false s [(w, 0)]
      let y := servePass true x.1 (drrOrder x.2)
      withWaits y.1 ((sortBy (fun a b => a.2 ≤ b.2) y.2).map (·.1)) := by
  have hnum : (s.hbm.waits.map (regAged s)).zipIdx = [(w, 0)] := by
    rw [hw, List.map_singleton, hage]
    rfl
  unfold serveRegs
  rw [if_neg (by rw [hw]; exact Bool.false_ne_true), hnum]
  rfl

theorem serveRegs_one_served {g : Bool} (h : waitClass s w = some g) : serveRegs s = withWaits (regServe s w g) [] := by
  rw [serveRegs_one hw hage]
  cases g with
  | true =>
    rw [servePass_one_served h rfl]
    rfl
  | false =>
    have hfirst : servePass false s [(w, 0)] = (s, [(w, 0)]) := servePass_one_kept fun g hg => by
      cases h.symm.trans hg
      rfl
    have hsecond : servePass true s (drrOrder [(w, 0)]) = (regServe s w false, []) := servePass_one_served h rfl
    dsimp only
    rw [hfirst]
    dsimp only
    rw [hsecond]
    rfl

theorem serveRegs_one_kept (h : waitClass s w = none) : serveRegs s = s := by
  have hpass : ∀ b, servePass b s [(w, 0)] = (s, [(w, 0)]) := fun b => servePass_one_kept fun g hg => by cases h.symm.trans hg
  have hsecond : servePass true s (drrOrder [(w, 0)]) = (s, [(w, 0)]) := hpass true
  rw [serveRegs_one hw hage]
  dsimp only
  rw [hpass false]
  dsimp only
  rw [hsecond]
  exact withWaits_same hw

end

section
variable {s : State} {p : Option (Fin 8)} {k : Fin 20} {n : Nat} (hon : s.power.on = true) (hw : s.hbm.waits = [])
include hon hw

/-- Where no request waits, the regulators look at the one that has just come. -/
theorem exec_regulatorRequest :
    exec (.regulatorRequest p k n) s = .next (serveRegs (withWaits s [⟨p, k, n, 0, s.now⟩])) := by
  show powered s _ = _
  rw [powered_on hon]
  unfold regAsk
  rw [hw]
  rfl

/-- A request whose class lets it be served now is served at once. -/
theorem exec_regulatorRequest_served {g : Bool} (h : waitClass s ⟨p, k, n, 0, s.now⟩ = some g) :
    exec (.regulatorRequest p k n) s = .next (regServe s ⟨p, k, n, 0, s.now⟩ g) := by
  rw [exec_regulatorRequest hon hw,
    serveRegs_one_served (s := withWaits s [_]) rfl (regAged_new _ p k n) ((waitClass_withWaits ..).trans h), regServe_withWaits]
  exact congrArg _ (withWaits_same ((regServe_waits ..).trans hw))

/-- A request of no class waits. -/
theorem exec_regulatorRequest_waits (h : waitClass s ⟨p, k, n, 0, s.now⟩ = none) :
    exec (.regulatorRequest p k n) s = .next (withWaits s [⟨p, k, n, 0, s.now⟩]) := by
  rw [exec_regulatorRequest hon hw, serveRegs_one_kept (s := withWaits s [_]) rfl (regAged_new _ p k n) ((waitClass_withWaits ..).trans h)]

end

/-- Refilled buckets are those of the regulator, as of now. -/
theorem refill_key (s : State) (p : Fin 8) (k : Fin 20) :
    (refill s p k).part = p ∧ (refill s p k).stack = k ∧ (refill s p k).time = s.now := by
  unfold refill
  dsimp only
  split <;> exact ⟨rfl, rfl, rfl⟩

/-- A request of a partition that is served takes its tokens: those of the guarantee where it is GUARANTEED, and those of the cap. -/
theorem regServe_takes (s : State) (p : Fin 8) (k : Fin 20) (n m : Nat) (u : U64) (g : Bool) :
    (regServe s ⟨some p, k, n, m, u⟩ g).hbm.buckets.find? (fun x => x.part = p ∧ x.stack = k) =
      some ⟨p, k, if g then (refill s p k).guar - n else (refill s p k).guar, (refill s p k).cap - n, s.now⟩ := by
  obtain ⟨hp, hk, ht⟩ := refill_key s p k
  have hhead : (regServe s ⟨some p, k, n, m, u⟩ g).hbm.buckets.head? =
      some ⟨(refill s p k).part, (refill s p k).stack, if g then (refill s p k).guar - n else (refill s p k).guar,
        (refill s p k).cap - n, (refill s p k).time⟩ := rfl
  rw [hp, hk, ht] at hhead
  obtain ⟨l, hl⟩ := List.head?_eq_some_iff.1 hhead
  rw [hl]
  exact List.find?_cons_of_pos (by simp)

theorem regServe_out (s : State) (w : RegWait) (g : Bool) : (regServe s w g).out = .served w.part w.stack w.bytes g :: s.out := by
  unfold regServe
  cases w.part <;> rfl

section
variable {s : State} {p : Fin 8} {k : Fin 20} {n : Nat}

theorem regClass_guaranteed (hcap : n ≤ (refill s p k).cap) (hguar : n ≤ (refill s p k).guar) : regClass s p k n = some true := by
  unfold regClass
  rw [if_neg (Nat.not_lt.2 hcap), if_pos hguar]

theorem regClass_borrowed (hcap : n ≤ (refill s p k).cap) (hguar : (refill s p k).guar < n) (hb : (regParams s p k).2.2.2 = true) :
    regClass s p k n = some false := by
  unfold regClass
  rw [if_neg (Nat.not_lt.2 hcap), if_neg (Nat.not_le.2 hguar), if_pos hb]

theorem regClass_none (h : (refill s p k).cap < n ∨ ((refill s p k).guar < n ∧ (regParams s p k).2.2.2 = false)) :
    regClass s p k n = none := by
  unfold regClass
  dsimp only
  rcases h with hcap | ⟨hguar, hb⟩
  · rw [if_pos hcap]
  · rw [if_neg (Nat.not_le.2 hguar), hb, if_neg Bool.false_ne_true, ite_self]

/-- REGULATOR_REQUEST of a partition whose class is known, where no request waits. -/
theorem exec_regulatorRequest_takes {g : Bool} (hon : s.power.on = true) (hw : s.hbm.waits = []) (h : regClass s p k n = some g) :
    ∃ t, exec (.regulatorRequest (some p) k n) s = .next t ∧ SameBut [.hbm, .counters, .out] s t ∧ t.hbm.waits = [] ∧
      t.hbm.buckets.find? (fun x => x.part = p ∧ x.stack = k) =
        some ⟨p, k, if g then (refill s p k).guar - n else (refill s p k).guar, (refill s p k).cap - n, s.now⟩ ∧
      t.hbm.mem = s.hbm.mem ∧ t.out = .served (some p) k n g :: s.out :=
  ⟨_, exec_regulatorRequest_served hon hw h, regServe_frames.sameBut _ rfl, (regServe_waits ..).trans hw, regServe_takes .., regServe_mem ..,
    regServe_out ..⟩

end

/-- Settles O21: an add and a read are made on the state the access leaves (`memoryAdd_made`, `memoryRead_answers`), which holds the same bytes
as before (`accessed_sameBytes`); a request on a regulator where none waits is served or waits by its class alone
(`exec_regulatorRequest_takes`, `exec_regulatorRequest_waits`). -/
theorem hbmAddsAndRegulates : Obligations.HbmAddsAndRegulates := by
  unfold Obligations.HbmAddsAndRegulates
  refine ⟨fun s p a fmt v conv hon => ⟨fun base size sc hr hal hend hin hue => ?_, fun h => ?_, fun hin hue => ?_⟩,
    fun s p k n hon hw => ⟨fun hcap hguar => ?_, fun hcap hguar hborrow => ?_, fun hshort => ?_, ?_⟩⟩
  · have hB := accessed_sameBytes s p (addAddrs a fmt)
    refine next_of hon ?_
    dsimp only
    rw [memoryAdd_made hr hal hend hin hue]
    exact ⟨Frames.sameBut (m := 933952) (((accessed_frames s p _).step hbmWriteP_frames rfl).step emit_frames rfl) _ rfl,
      (congrArg Hbm.mem (emit_hbm ..)).trans (hB.hbmWriteP_mem (accessed_ue s p _) _ _), rfl⟩
  · show powered s _ = _
    rw [powered_on hon]
    exact congrArg _ (memoryAdd_refused h)
  · obtain ⟨x, fl, hread, hconv, hraw⟩ := memoryRead_answers hin hue conv
    unfold wordAt at hconv hraw
    refine next_of hon ?_
    dsimp only
    rw [hread]
    refine ⟨Frames.sameBut (m := 933952) ((accessed_frames s p _).step emit_frames rfl) _ rfl,
      (congrArg Hbm.mem (emit_hbm ..)).trans (accessed_sameBytes s p _).mem,
      fun base size sc hc hr => ?_, fun hc => ?_⟩
    · obtain ⟨hx, hfl⟩ := Prod.mk.inj (hconv base size sc hc hr)
      exact congrArg some (congrArg₂ (Out.memory .none) hx hfl)
    · obtain ⟨hx, hfl⟩ := Prod.mk.inj (hraw hc)
      exact congrArg some (congrArg₂ (Out.memory .none) hx hfl)
  · exact exec_regulatorRequest_takes hon hw (regClass_guaranteed hcap hguar)
  · exact exec_regulatorRequest_takes hon hw (regClass_borrowed hcap hguar hborrow)
  · exact exec_regulatorRequest_waits hon hw (regClass_none hshort)
  · refine ⟨_, exec_regulatorRequest_served (g := true) hon hw rfl, ?_, regServe_out ..⟩
    exact Frames.sameBut (m := 786432) ((evAdd_frames.mono rfl).step emit_frames rfl) _ rfl

end Sys2Proof.Machine
end

section
/-! Retirement requests and the margining of a stack (R157, R158): what the rows write, and that none of them alters the module's report. -/

namespace Sys2Proof.Machine

open Sys2Proof

/-! ## The module's report -/

theorem fin20_val (k : Fin 20) : fin20 k.val = k := dif_pos k.isLt

/-- Of HBM the module's report tells which stacks are retired and how many are in service; where these are the same, nothing is reported (R386). -/
theorem moduleEvent_hbm (s : State) (g : Nat) (h : Hbm) (hst : ∀ j : Fin 20, h.stks[j].state = s.hbm.stks[j].state)
    (hin : h.inService = s.hbm.inService) : moduleEvent s { s with free := g, hbm := h } = { s with free := g, hbm := h } := by
  have hl : h.stks.toList.map (·.state) = s.hbm.stks.toList.map (·.state) :=
    List.ext_getElem (by simp) fun j hj _ => by simpa using hst ⟨j, by simpa using hj⟩
  have hany : ∀ l : List Stack, (l.any fun k => k.state = 2) = (l.map (·.state)).any fun n => n = 2 := fun l => by
    rw [List.any_map]
    rfl
  unfold moduleEvent
  refine if_pos ⟨?_, ?_⟩
  · unfold moduleState
    simp only [hany, hl]
    rfl
  · unfold unitsInService
    simp only [hin]
    rfl

/-! ## RETIRE_REQUEST (R157) -/

theorem rowWrite_retire {s : State} {r : Req} {k : Fin 20} (h : MayWrite s r (0x5100 + k) 3 [1] 3) :
    rowWrite s r (0x5100 + k) 3 0 [1] = updStack s k fun t => { t with retireAsked := true } := by
  have hidx : idxIn (0x5100 + k) 0x5100 0x5113 = true := by
    simp only [idxIn, Bool.and_eq_true, decide_eq_true_eq]
    omega
  have hent : ∀ k : Fin 20, entryBytes (0x5100 + k) 3 = 0 := by decide
  have hwo : (woAction s r (0x5100 + k) 3 [1]).1 = updStack s k fun t => { t with retireAsked := true } := by
    unfold woAction
    dsimp only
    rw [if_pos hidx, Nat.add_sub_cancel_left, fin20_val]
    rfl
  rw [rowWrite_wo h (hent k), hwo]
  refine moduleEvent_hbm s s.free _ (fun j => ?_) rfl
  by_cases hj : j = k
  · subst hj
    simp
  · have : k.val ≠ j.val := fun e => hj (Fin.ext e.symm)
    simp [this]

/-! ## MARGINING_STACK (R158) -/

section

/-- Pointing works on every stack again, and nothing else of a stack changes. -/
theorem resumeStacks_stk (s : State) (j : Fin 20) : (resumeStacks s).hbm.stks[j] = { s.hbm.stks[j] with suspended := false } := by
  unfold resumeStacks
  simp

/-- Of the stacks the named one alone is left alone by Pointing, and margining begins anew. -/
theorem setMarginStack_named (s : State) (k : Fin 20) :
    setMarginStack s (BitVec.ofNat 8 k) =
      { s with hbm := { s.hbm with
          stks := (resumeStacks s).hbm.stks.set k { (resumeStacks s).hbm.stks[k] with suspended := true }
          marginStack := k.val, marginState := 0, marginRun := false } } := by
  have hv : (BitVec.ofNat 8 k.val).toNat = k.val := by
    rw [BitVec.toNat_ofNat]
    omega
  unfold setMarginStack
  dsimp only
  rw [hv, if_pos k.isLt, fin20_val]
  rfl

theorem setMarginStack_stk (s : State) (k j : Fin 20) :
    (setMarginStack s (BitVec.ofNat 8 k)).hbm.stks[j] = { s.hbm.stks[j] with suspended := decide (j = k) } := by
  rw [setMarginStack_named]
  by_cases hj : j = k
  · subst hj
    simp only [Fin.getElem_fin, Vector.getElem_set_self, decide_true]
    rw [← Fin.getElem_fin, resumeStacks_stk]
    rfl
  · have hne : k.val ≠ j.val := fun e => hj (Fin.ext e.symm)
    simp only [Fin.getElem_fin, Vector.getElem_set_ne _ _ hne, hj, decide_false]
    rw [← Fin.getElem_fin, resumeStacks_stk]
    rfl

variable {s : State} {r : Req} {k : Fin 20}

theorem rowWrite_marginStack (h : MayWrite s r 0x5300 1 [BitVec.ofNat 8 k] 2) :
    rowWrite s r 0x5300 1 0 [BitVec.ofNat 8 k] = setMarginStack s (BitVec.ofNat 8 k) := by
  have hi : objInfo 0x5300 1 = some ⟨2, 2, false, 1, [255], []⟩ := by decide +kernel
  have hkey : keyOf (actorOf s r) 0x5300 1 = ⟨0, 0x5300, 1⟩ := rfl
  have htake : takeValue s ⟨0, 0x5300, 1⟩ 0 [BitVec.ofNat 8 k] = setMarginStack s (BitVec.ofNat 8 k) := by
    rw [takeValue_inUnit (k := ⟨0, 0x5300, 1⟩) _ _ _ hi rfl, if_neg (by decide)]
    unfold unitTakes
    dsimp only
    rw [if_neg (by decide), if_neg (by decide), if_pos rfl, leAt_byte]
  have hafter : ∀ t : State, afterValue t ⟨0, 0x5300, 1⟩ = t := fun _ => rfl
  have hquiet := moduleEvent_hbm s s.free (setMarginStack s (BitVec.ofNat 8 k)).hbm
    (fun j => by rw [setMarginStack_stk]) (by rw [setMarginStack_named])
  rw [rowWrite_rw h (.inl rfl), ite_self, hkey, htake, hafter, storeFlash_inUnit (k := ⟨0, 0x5300, 1⟩) _ _ rfl]
  rw [setMarginStack_named] at hquiet ⊢
  exact hquiet

/-! ## MARGINING_START (R158) -/

/-- The sweep over a READY stack leaves its contents undefined: they are of a generation that no memory has had. -/
theorem startMargin_ready (hk : s.hbm.marginStack = k.val) (hready : s.hbm.marginState = 1) :
    ∃ ue ce, startMargin s 1 =
      { s with free := s.free + 1
               hbm := { s.hbm with marginRun := true, mem := s.hbm.mem.set k ⟨s.free + 1, []⟩, ue := ue, ce := ce } } := by
  have hgo : ((1 : Byte) = 0 || s.hbm.marginState ≠ 1 || s.hbm.marginStack ≥ 20) = false := by
    simp [hready, hk]
  unfold startMargin
  have hfin : fin20 s.hbm.marginStack = k := by rw [hk, fin20_val]
  rw [hgo, if_neg (by decide)]
  simp only [freshGen, hfin]
  exact ⟨_, _, rfl⟩

theorem rowWrite_marginStart (h : MayWrite s r 0x5300 3 [1] 3) (hk : s.hbm.marginStack = k.val) (hready : s.hbm.marginState = 1) :
    rowWrite s r 0x5300 3 0 [1] = startMargin s 1 := by
  have hwo : (woAction s r 0x5300 3 [1]).1 = startMargin s 1 := by
    unfold woAction
    dsimp only
    rw [if_neg (by decide), if_pos rfl, hready]
    rfl
  obtain ⟨ue, ce, hstart⟩ := startMargin_ready hk hready
  rw [rowWrite_wo h rfl, hwo, hstart]
  exact moduleEvent_hbm s (s.free + 1) _ (fun _ => rfl) rfl

end

/-! ## MARGINING_DONE and INVALID_SCRUB (R158) -/

theorem exec_marginingDone {s : State} {map : List (BitVec 16)} (hon : s.power.on = true) (hrun : s.hbm.marginRun = true)
    (hlen : map.length ≤ 409600) :
    exec (.marginingDone map) s =
      .next (genBump { s with hbm := { s.hbm with
        marginRun := false, marginState := 2, eyeMap := map ++ List.replicate (409600 - map.length) 0 } } 0 0x5300 6) := by
  show powered s _ = _
  rw [powered_on hon, hrun, if_neg (by decide), List.take_of_length_le hlen]

theorem exec_invalidScrub {s : State} (hon : s.power.on = true) (hk : s.hbm.marginStack < 20) (h3 : s.hbm.marginState ≠ 3) :
    exec .invalidScrub s =
      .next (genBump { s with hbm := { (resumeStacks s).hbm with marginState := 3, marginRun := false, eyeMap := [] } } 0 0x5300 6) := by
  have hnamed : (s.hbm.marginStack ≥ 20 || s.hbm.marginState = 3) = false := by
    simp [hk, h3]
  show powered s _ = _
  rw [powered_on hon, hnamed, if_neg (by decide)]
  rfl

/-- Settles O23: the rows that write an object do what the object's write does (`rowWrite_retire`, `rowWrite_marginStack`,
`rowWrite_marginStart`), since nothing of it is reported; the other three act on the margining state alone. -/
theorem retirementAndMargining : Obligations.RetirementAndMargining := by
  unfold Obligations.RetirementAndMargining
  intro s r k map
  refine ⟨fun h => next_of h.on ?_, fun h => next_of h.on ?_, fun hon hk h0 => ?_, fun h hk h1 => next_of h.on ?_,
    fun hon hrun hlen => ?_, fun hon hk h3 => ?_⟩
  · rw [rowWrite_retire h]
    exact ⟨updStack_frames.sameBut _ rfl, rfl⟩
  · rw [rowWrite_marginStack h]
    refine ⟨setMarginStack_frames.sameBut _ rfl, ?_, ?_, ?_, ?_, setMarginStack_stk s k⟩ <;> rw [setMarginStack_named]
  · show powered s _ = _
    rw [powered_on hon]
    simp [hk, h0]
  · rw [rowWrite_marginStart h hk h1]
    refine ⟨startMargin_frames.sameBut _ rfl, ?_⟩
    obtain ⟨ue, ce, hstart⟩ := startMargin_ready hk h1
    rw [hstart]
    exact ⟨rfl, rfl, rfl, rfl⟩
  · have he := exec_marginingDone hon hrun hlen
    exact ⟨_, he, (execMarginingDone_frames _ he).sameBut _ rfl, rfl⟩
  · have he := exec_invalidScrub hon (hk ▸ k.isLt) h3
    exact ⟨_, he, (execInvalidScrub_frames _ he).sameBut _ rfl, rfl, rfl, rfl, rfl, resumeStacks_stk s⟩

end Sys2Proof.Machine
end

section
/-! HOST_REGION_WRITE and ATS_INVALIDATION (R178, R179): a function's entry is its own object's slice, so the row's write is the function's
write of that entry; an invalidation replaces what the IOMMU makes of one page and takes that page out of the cache. -/

namespace Sys2Proof.Machine

open Sys2Proof

/-! ## The host region table as an object (R178) -/

theorem fin9_val (f : Fin 9) : fin9 f.val = f := dif_pos f.isLt

theorem idxIn_hostRegions (f : Fin 9) : idxIn (0x65F0 + f) 0x65F0 0x65F8 = true := by
  simp only [idxIn, Bool.and_eq_true, decide_eq_true_eq]
  omega

theorem entryBytes_hostRegions (f : Fin 9) (sub : Nat) : entryBytes (0x65F0 + f) sub = 32 := if_pos (idxIn_hostRegions f)

theorem objInfo_hostRegions : ∀ f : Fin 9, objInfo (0x65F0 + f) 1 = some ⟨12, 2, false, 131072, [], []⟩ := by decide +kernel

theorem inUnit_hostRegions (f : Fin 9) (sub : Nat) : inUnit (0x65F0 + f) sub = true := by
  unfold inUnit
  simp [idxIn_hostRegions f]

/-- A function's table is one object of the module, whoever means it. -/
theorem keyOf_hostRegions (a : Actor) (f : Fin 9) : keyOf a (0x65F0 + f) 1 = ⟨0, 0x65F0 + f, 1⟩ := by
  have hper : ∀ f : Fin 9, perFn (0x65F0 + f) 1 = false := by decide
  unfold keyOf
  rw [hper f]
  rfl

theorem afterValue_hostRegions (s : State) (f : Fin 9) (sub : Nat) : afterValue s ⟨0, 0x65F0 + f, sub⟩ = s := by
  unfold afterValue idxIn
  simp only [Bool.and_eq_true, decide_eq_true_eq]
  rw [if_neg (by omega), if_neg (by omega), if_neg (by omega), if_neg (by omega), if_neg (by omega), if_neg (by omega), if_neg (by omega)]

theorem objFound_objInfo {s : State} {idx sub : Nat} {i : ObjInfo} (h : objFound s idx sub = some i) : objInfo idx sub = some i := by
  unfold objFound at h
  split at h
  · cases h
  · exact h

/-- The bytes of one 32-byte word are one entry. -/
theorem eachEntry_word (d : BitVec 256) (first : Nat) (s : State) (g : State → Nat → Nat → State) :
    eachEntry 32 (wordBytes d) first s g = g s first (leAt (wordBytes d) 0 32) := by
  have hlen : (wordBytes d).length = 32 := leBytes_length 32 _
  unfold eachEntry entries
  rw [hlen]
  rfl

/-- The 32 bytes at offset 32i are entry i of the table. -/
theorem unitTakes_hostRegion (s : State) (f : Fin 9) (i : Nat) (d : BitVec 256) :
    unitTakes s ⟨0, 0x65F0 + f, 1⟩ (32 * i) (wordBytes d) = writeHostRegion s f i d := by
  have hcourse : idxIn (0x65F0 + f) 0x6100 0x6107 = false := by
    simp only [idxIn, Bool.and_eq_false_iff, decide_eq_false_iff_not]
    omega
  unfold unitTakes
  dsimp only
  rw [hcourse, if_neg Bool.false_ne_true, if_neg (by omega), if_neg (by omega), if_pos (idxIn_hostRegions f), eachEntry_word,
    Nat.add_sub_cancel_left, fin9_val, Nat.mul_div_cancel_left i (by decide), leAt_wordBytes]

/-! ## What a write of an entry does (R178) -/

section
variable {s : State} {f : Fin 9} {i : Nat} {d : BitVec 256}

/-- Nothing names the entry: it holds the word. -/
theorem writeHostRegion_takes (hw : s.host.funcs[f].regionWrites = []) (hn : regionNamed s f i = false) :
    writeHostRegion s f i d = updFunc s f fun k => { k with hostRegions := assocSet k.hostRegions i d 0 } := by
  unfold writeHostRegion
  rw [hn, hw]
  rfl

/-- A command names the entry: the write waits behind those that wait. -/
theorem writeHostRegion_waits (hn : regionNamed s f i = true) :
    writeHostRegion s f i d = updFunc s f fun k => { k with regionWrites := k.regionWrites ++ [(i, d)] } := by
  unfold writeHostRegion
  rw [hn]
  rfl

theorem writeHostRegion_updFunc (s : State) (f : Fin 9) (i : Nat) (d : BitVec 256) : ∃ g, writeHostRegion s f i d = updFunc s f g := by
  unfold writeHostRegion
  dsimp only
  split <;> exact ⟨_, rfl⟩

/-- Which commands name an entry does not turn on the generations of objects. -/
theorem regionNamed_genBump (s : State) (b idx sub : Nat) (f : Fin 9) (i : Nat) : regionNamed (genBump s b idx sub) f i = regionNamed s f i := rfl

/-- The module's report tells nothing of a function or of an object's generation (R386). -/
theorem moduleEvent_func (s : State) (b idx sub : Nat) (f : Fin 9) (g : Func → Func) :
    moduleEvent s (updFunc (genBump s b idx sub) f g) = updFunc (genBump s b idx sub) f g := if_pos ⟨rfl, rfl⟩

theorem rowWrite_hostRegion {r : Req} {i : Fin 4096} (h : MayWrite s r (0x65F0 + f) 1 (wordBytes d) 2) :
    rowWrite s r (0x65F0 + f) 1 (32 * i) (wordBytes d) = writeHostRegion (genBump s 0 (0x65F0 + f) 1) f i d := by
  have hinfo := objInfo_hostRegions f
  have haligned : 32 * i.val % entryBytes (0x65F0 + f) 1 = 0 ∧
      ∀ o, objFound s (0x65F0 + f) 1 = some o → 32 * i.val + (wordBytes d).length ≤ o.size := by
    rw [entryBytes_hostRegions]
    refine ⟨Nat.mul_mod_right 32 i, fun o ho => ?_⟩
    obtain rfl := Option.some.inj (hinfo.symm.trans (objFound_objInfo ho))
    have hlen : (wordBytes d).length = 32 := leBytes_length 32 _
    dsimp only
    omega
  rw [rowWrite_rw h (.inr haligned), entryBytes_hostRegions, if_neg (by decide), keyOf_hostRegions, afterValue_hostRegions,
    storeFlash_inUnit (k := ⟨0, 0x65F0 + f, 1⟩) _ _ (inUnit_hostRegions f 1),
    takeValue_inUnit (k := ⟨0, 0x65F0 + f, 1⟩) _ _ _ hinfo (inUnit_hostRegions f 1), if_pos rfl, unitTakes_hostRegion]
  obtain ⟨g, hg⟩ := writeHostRegion_updFunc (genBump s 0 (0x65F0 + f) 1) f i d
  rw [hg]
  exact moduleEvent_func s 0 _ 1 f g

/-! ## Entries of the tables (R178) -/

theorem hostRegion_set_same (s : State) (f : Fin 9) (i : Nat) (d : BitVec 256) :
    hostRegion (updFunc s f fun k => { k with hostRegions := assocSet k.hostRegions i d 0 }) f i = d := by
  unfold hostRegion
  rw [updFunc_same]
  exact assocGet_set_same _ _ _ _

theorem hostRegion_set_other (s : State) {f g : Fin 9} {i j : Nat} (d : BitVec 256) (h : g ≠ f ∨ j ≠ i) :
    hostRegion (updFunc s f fun k => { k with hostRegions := assocSet k.hostRegions i d 0 }) g j = hostRegion s g j := by
  unfold hostRegion
  by_cases hg : g = f
  · subst hg
    rw [updFunc_same]
    exact assocGet_set_other _ _ _ _ _ _ (h.resolve_left fun hne => hne rfl)
  · rw [updFunc_other _ _ _ _ hg]

/-- A change of a function that leaves its table alone changes no entry of any. -/
theorem hostRegion_updFunc {u : Func → Func} (hu : (u s.host.funcs[f]).hostRegions = s.host.funcs[f].hostRegions) (g : Fin 9) (j : Nat) :
    hostRegion (updFunc s f u) g j = hostRegion s g j := by
  unfold hostRegion
  by_cases hg : g = f
  · subst hg
    rw [updFunc_same, hu]
  · rw [updFunc_other _ _ _ _ hg]

end

/-- What every write of an entry leaves as it is: of the dictionary only a generation changes, and no byte of host memory does. -/
theorem hostRegionWritten_frame (s : State) (f : Fin 9) (i : Nat) (d : BitVec 256) (b idx sub : Nat) :
    let t := writeHostRegion (genBump s b idx sub) f i d
    SameBut [.host, .dict] s t ∧ t.dict = { s.dict with gens := t.dict.gens } ∧ t.host.mem = s.host.mem := by
  obtain ⟨g, hg⟩ := writeHostRegion_updFunc (genBump s b idx sub) f i d
  refine ⟨((genBump_frames.mono (m := 16512) rfl).step writeHostRegion_frames rfl).sameBut _ rfl, ?_⟩
  rw [hg]
  exact ⟨rfl, rfl⟩

/-! ## ATS_INVALIDATION (R179) -/

/-- A function whose IOMMU makes `page` of the page g of an address space, from now on; the page leaves its cache. -/
def translated (k : Func) (g : Nat × Nat) (page : Option Nat) : Func :=
  { k with atc := k.atc.filter (· ≠ g), iommu := (g, page) :: k.iommu.filter fun e => e.1 ≠ g }

theorem exec_atsInvalidation {s : State} (hon : s.power.on = true) (f : Fin 9) (ps iova : Nat) (page : Option Nat) :
    exec (.atsInvalidation f ⟨ps, iova⟩ page) s =
      .next (emit (updFunc s f (translated · (ps, iova / 4096) page)) (.atsDone f iova)) := powered_on hon _

/-- The IOMMU's pages are a keyed list in which a page not listed is itself (R179). -/
theorem hostPage_eq_assocGet (s : State) (f : Fin 9) (q x : Nat) : hostPage s f q x = assocGet s.host.funcs[f].iommu (q, x) (some x) := by
  unfold hostPage assocGet
  cases s.host.funcs[f].iommu.find? fun e => e.1 = (q, x) with
  | none => rfl
  | some e => rfl

theorem mem_translated_atc (k : Func) (g x : Nat × Nat) (page : Option Nat) : x ∈ (translated k g page).atc ↔ x ∈ k.atc ∧ x ≠ g := by
  simp [translated]

section
variable {s t : State} {f : Fin 9} {g : Nat × Nat} {page : Option Nat} (h : t.host.funcs[f] = translated s.host.funcs[f] g page)
include h

theorem hostPage_translated_same : hostPage t f g.1 g.2 = page := by
  rw [hostPage_eq_assocGet, h]
  simp [translated, assocGet]

/-- Of every other page the IOMMU makes what it made before. -/
theorem hostPage_translated_other {q x : Nat} (hne : (q, x) ≠ g) : hostPage t f q x = hostPage s f q x := by
  have hhead : assocGet (translated s.host.funcs[f] g page).iommu (q, x) (some x) =
      assocGet (s.host.funcs[f].iommu.filter fun e => e.1 ≠ g) (q, x) (some x) := by
    unfold assocGet translated
    rw [List.find?_cons_of_neg (by simpa using hne.symm)]
  rw [hostPage_eq_assocGet, hostPage_eq_assocGet, h, hhead]
  exact assocGet_drop_other _ _ _ _ hne

end

/-- Settles O20: the row's write is the function's write of its entry (`rowWrite_hostRegion`), which is made or waits as commands name the
entry; an invalidation changes one function, and of its translations one page (`exec_atsInvalidation`). -/
theorem hostRegionsAndTranslation : Obligations.HostRegionsAndTranslation := by
  unfold Obligations.HostRegionsAndTranslation
  intro s r i d f ps iova page
  refine ⟨fun hf h hw => ?_, fun hon => ⟨_, exec_atsInvalidation hon f ps iova page, ?_⟩⟩
  · have hexec : exec (.hostRegionWrite r i d) s = .next (writeHostRegion (genBump s 0 (0x65F0 + f) 1) f i d) := by
      show powered s _ = _
      rw [powered_on h.on, hf, rowWrite_hostRegion h]
    obtain ⟨hbut, hdict, hmem⟩ := hostRegionWritten_frame s f i d 0 (0x65F0 + f) 1
    refine ⟨fun hn => ⟨_, hexec, hbut, hdict, hmem, ?_⟩, fun hn => ⟨_, hexec, hbut, hdict, hmem, ?_⟩⟩
    · rw [writeHostRegion_takes (s := genBump s 0 (0x65F0 + f) 1) hw ((regionNamed_genBump ..).trans hn)]
      exact ⟨hostRegion_set_same _ f i d, fun _ _ => hostRegion_set_other _ d⟩
    · rw [writeHostRegion_waits ((regionNamed_genBump ..).trans hn), updFunc_same]
      exact ⟨congrArg (· ++ [(i.val, d)]) hw, hostRegion_updFunc rfl⟩
  · have hfunc := updFunc_same s f (translated · (ps, iova / 4096) page)
    have hframe := execAtsInvalidation_frames _ (exec_atsInvalidation hon f ps iova page)
    refine ⟨hframe.sameBut _ rfl, rfl, rfl, fun x => ?_, hostPage_translated_same hfunc, fun q x => hostPage_translated_other hfunc,
      fun g hg => updFunc_other s f g (translated · (ps, iova / 4096) page) hg⟩
    exact (congrArg (x ∈ ·.atc) hfunc).to_iff.trans (mem_translated_atc _ _ _ page)

end Sys2Proof.Machine
end

section
/-! LINK_TRAINING of a link that is up counts its steps modulo 6 (R182, R184): the arm adds them up as numbers of the type of a rate, so a
retrain to 64 GT/s, which takes six, counts none. -/

namespace Sys2Proof.Machine

open Sys2Proof

theorem exec_linkTraining_up {s : State} {rate : Fin 6} {lanes retimers : Nat} {flit : Bool} (hon : s.power.on = true) (hup : s.host.up = true)
    (hl : 1 ≤ lanes) (hr : retimers ≤ 2) :
    exec (.linkTraining rate lanes flit retimers) s =
      .next { ctrAdd s 0 0x1900 2 (rate + 1 : Fin 6).val with
        host := { s.host with up := true, rate := rate, width := linkWidth lanes, flit := flit, retimers := retimers } } := by
  have hlane : lanes ≠ 0 := Nat.one_le_iff_ne_zero.mp hl
  show powered s _ = _
  rw [powered_on hon]
  simp [Nat.not_lt.mpr hr, hlane, hup, Nat.pos_of_ne_zero hlane]

/-- A link that is up and trains to 64 GT/s counts no step. -/
theorem linkTraining_up_full_rate_counts_none {s t : State} {lanes retimers : Nat} {flit : Bool} (hon : s.power.on = true)
    (hup : s.host.up = true) (hl : 1 ≤ lanes) (hr : retimers ≤ 2) (h : exec (.linkTraining 5 lanes flit retimers) s = .next t) :
    ctrGet t 0 0x1900 2 = ctrGet s 0 0x1900 2 % 2 ^ 64 := by
  rw [exec_linkTraining_up hon hup hl hr] at h
  obtain rfl := Host.Outcome.next.inj h
  exact ctrGet_add_same s 0 0x1900 2 (5 + 1 : Fin 6).val

/-- Refutes O24: at reset, where the link is up and nothing is counted, training to 64 GT/s on 16 lanes with one retimer leaves the counter
of 0x1900:02 at 0; the statement has it at 6. -/
theorem not_messagesLinkAndPage : ¬ Obligations.MessagesLinkAndPage := by
  unfold Obligations.MessagesLinkAndPage
  rintro ⟨-, hlink⟩
  obtain ⟨htrain, -⟩ := hlink State.reset 5 16 1 true 0 rfl
  obtain ⟨t, hexec, -, -, hcount⟩ := htrain (by decide) (by decide)
  have hnone := linkTraining_up_full_rate_counts_none rfl rfl (by decide) (by decide) hexec
  have hreset : ctrGet State.reset 0 0x1900 2 = 0 := rfl
  have hup : State.reset.host.up = true := rfl
  rw [hnone, hreset, hup] at hcount
  exact absurd hcount (by decide)

end Sys2Proof.Machine
end

section
/-! HOT_RESET resets the functions one after another, PF0 first (R185). The reset of a partition fails what its Crews have in flight (R227,
R270), and such a failure signals its event on the function of the Crew whose attempt issued the command, even where that function was
reset before (R223). -/

namespace Sys2Proof.Machine

open Sys2Proof

/-- State.reset with Crew 0 owned by partition 0 and Crew 1 by partition 1. -/
def twoOwners : State := setObj (setObj State.reset 0 (crewIdx 0) 9 [0]) 0 (crewIdx 1) 9 [1]

/-- An attempt of Crew 0 as it starts, for a LAUNCH of partition 0's stream 0. -/
def strayAttempt : Attempt := newAttempt twoOwners 0 0 ⟨1, 0, 0, 0, 0⟩

/-- A SEND with event 5, issued by that attempt. -/
def straySend : P2p :=
  ⟨true, BitVec.ofNat 512 (0x52 + 5 * 2 ^ 64), .core 0 strayAttempt.number 0 0 1, ⟨0, 0, 0, none⟩, 0, none, 0, [], [], none, 0⟩

/-- Crew 0 is UNDEFINED with its attempt, so the reset of partition 0 leaves that attempt; Crew 1 runs with the SEND in flight. -/
def sendAcross : State :=
  updCrew (updCrew twoOwners 0 fun k => { k with attempt := some strayAttempt }) 1 fun k => { k with state := .running, p2p := [straySend] }

theorem calm_sendAcross : Calm sendAcross := by
  unfold Calm
  decide +kernel

theorem exec_hotReset {s : State} (hon : s.power.on = true) : exec .hotReset s = .next (hotReset s) := powered_on hon _

/-- Partition 1, reset after partition 0, fails the SEND and so signals event 5 on the function of partition 0. -/
theorem hotReset_sendAcross_events : (hotReset sendAcross).host.funcs[(1 : Fin 9)].events = [(5, 1)] := by decide +kernel

/-- Refutes O26: in the calm state `sendAcross` a hot reset leaves the function of partition 0 with event 5 counted once, where a function as
at reset counts none. The statement is of every calm state, and `Calm` allows a SEND in flight and an UNDEFINED Crew with an attempt; that a
run of the module reaches such a state is not claimed. -/
theorem not_functionResets : ¬ Obligations.FunctionResets := by
  unfold Obligations.FunctionResets
  intro h
  obtain ⟨-, -, t, hexec, -, hback, -⟩ := h sendAcross rfl calm_sendAcross
  obtain rfl := Host.Outcome.next.inj ((exec_hotReset rfl).symm.trans hexec)
  have hnone : (hotReset sendAcross).host.funcs[(1 : Fin 9)].events = [] := congrArg Func.events (hback 1)
  rw [hotReset_sendAcross_events] at hnone
  exact absurd hnone (by decide)

end Sys2Proof.Machine
end

section
/-! Polling of a stream and its journal (R210 to R214): what a round takes, what halts the stream, and how taken entries are accepted. -/

namespace Sys2Proof.Machine

open Sys2Proof

/-! ## The other streams of the function -/

/-- Every stream of the function but `q` is the same. -/
def OthersSame (s t : State) (f : Fin 9) (q : Nat) : Prop := ∀ r, r ≠ q → stream t f r = stream s f r

section
variable {s t u : State} {f : Fin 9} {q : Nat}

theorem OthersSame.trans (h : OthersSame s t f q) (k : OthersSame t u f q) : OthersSame s u f q := fun r hr => (k r hr).trans (h r hr)

theorem OthersSame.of_funcs (h : t.host.funcs = s.host.funcs) : OthersSame s t f q := fun r _ => stream_of_streams (by rw [h]) r

theorem updStream_others (s : State) (f : Fin 9) (q : Nat) (g : Stream → Stream) : OthersSame s (updStream s f q g) f q :=
  fun _ hr => stream_upd_other _ _ _ _ _ hr

/-- A stream that a ground has halted (R229). -/
def Stream.haltedBy (k : Stream) (h : Halt) (d : Nat) : Stream :=
  { k with state := .halted, halt := h, detail := BitVec.ofNat 64 d, bad := none, batches := if h = .journalLost then [] else k.batches }

theorem haltStream_funcs (s : State) (f : Fin 9) (q : Nat) (h : Halt) (d : Nat) :
    (haltStream s f q h d).host.funcs = (updStream s f q fun k => k.haltedBy h d).host.funcs := by
  unfold haltStream
  exact notify_funcs _ _ _

theorem haltStream_others (s : State) (f : Fin 9) (q : Nat) (h : Halt) (d : Nat) : OthersSame s (haltStream s f q h d) f q := by
  exact (updStream_others s f q fun k => k.haltedBy h d).trans (.of_funcs (haltStream_funcs s f q h d))

theorem pollAck_others (s : State) (f : Fin 9) (q : Nat) : OthersSame s (pollAck s f q) f q := by
  have hseen := updStream_others s f q fun k => { k with lastAck := BitVec.ofNat 64 (ofLe (hostRead s f (ringSpace s f q) (ringOf s f q).2.2.1 8)) }
  unfold pollAck
  dsimp only
  split
  · split
    · exact fun _ _ => rfl
    · exact haltStream_others _ _ _ _ _
  · split
    · split
      · exact hseen
      · exact hseen.trans (haltStream_others _ _ _ _ _)
    · split
      · split
        · exact hseen
        · exact hseen
      · exact hseen.trans (updStream_others _ _ _ _)

theorem pollSlots_others (i : Nat) (s : State) (f : Fin 9) (q : Nat) (took : Bool) : OthersSame s (pollSlots i s f q took).1 f q := by
  induction i generalizing s took with
  | zero => exact fun _ _ => rfl
  | succ i ih =>
    unfold pollSlots
    dsimp only
    split
    · exact haltStream_others _ _ _ _ _
    · split
      · split
        · split
          · exact (updStream_others _ _ _ _).trans (ih _ _)
          · exact updStream_others _ _ _ _
        · exact (OthersSame.of_funcs rfl).trans (updStream_others _ _ _ _)
      · split
        · split
          · exact OthersSame.trans (updStream_others s f q fun k => { k with bad := none }) (.of_funcs rfl)
          · exact updStream_others _ _ _ _
        · exact haltStream_others _ _ _ _ _

theorem nextInterval_others (s : State) (f : Fin 9) (q : Nat) (took changed : Bool) : OthersSame s (nextInterval s f q took changed) f q :=
  updStream_others _ _ _ _

/-- A round changes no stream but its own. -/
theorem exec_streamPoll_others {q : Fin 64} {hw : List HostWrite} (h : exec (.streamPoll f q hw) s = .next t) : OthersSame s t f q := by
  have hstart := (OthersSame.of_funcs (hw_fold hw s).1).trans (updStream_others (softwareWrites s hw) f q fun k =>
    if k.state = .waiting && mayPoll (softwareWrites s hw) f q then { k with state := .polling } else k)
  change powered s _ = _ at h
  unfold powered at h
  injection h with h
  rw [← h]
  split
  · dsimp only
    generalize (updStream (softwareWrites s hw) f q fun k =>
      if k.state = .waiting && mayPoll (softwareWrites s hw) f q then { k with state := .polling } else k) = u at hstart ⊢
    have hack := hstart.trans (pollAck_others u f q)
    split
    · split
      · exact hack
      · exact (hack.trans (pollSlots_others _ _ _ _ _)).trans (nextInterval_others _ _ _ _ _)
    · split
      · exact hack.trans (nextInterval_others _ _ _ _ _)
      · exact hstart
  · exact fun _ _ => rfl

end

/-! ## Host memory -/

theorem vecFire_mem (s : State) (f : Fin 9) (v : Fin 2048) : (vecFire s f v).host.mem = s.host.mem := by
  unfold vecFire
  dsimp only
  split <;> rfl

theorem fire_or_wait_mem (b : Bool) (s : State) (f : Fin 9) (v : Fin 2048) : (if b then vecFire s f v else s).host.mem = s.host.mem := by
  split
  · exact vecFire_mem _ _ _
  · rfl

theorem notify_mem (s : State) (f : Fin 9) (v : Nat) : (notify s f v).host.mem = s.host.mem := by
  unfold notify
  split
  · exact fire_or_wait_mem _ _ _ _
  · rfl

theorem haltStream_mem (s : State) (f : Fin 9) (q : Nat) (h : Halt) (d : Nat) : (haltStream s f q h d).host.mem = s.host.mem := by
  unfold haltStream
  exact notify_mem _ _ _

/-! ## A round -/

theorem nextInterval_stream (s : State) (f : Fin 9) (q : Nat) (took changed : Bool) : stream (nextInterval s f q took changed) f q =
    { stream s f q with
      interval := if took then 250 else if changed then (stream s f q).interval
        else min (2 * (stream s f q).interval) (max 250 (objNat s f (0x6400 + q) 7 100000)) } :=
  stream_upd_same _ _ _ _

theorem nextInterval_poll (s : State) (f : Fin 9) (q : Nat) (took changed : Bool) : SamePoll s (nextInterval s f q took changed) f q := by
  unfold nextInterval
  exact updStream_poll _ _ _ _

theorem softwareWrites_poll (s : State) (hw : List HostWrite) (f : Fin 9) (q : Nat) : SamePoll s (softwareWrites s hw) f q := by
  obtain ⟨hf, hu, hb⟩ := hw_fold hw s
  exact SamePoll.of_funcs hb (by rw [hf]) hu (by rw [hf]) (by rw [hf])

/-- What stands at slot E is the same where the rings, the translations, host memory and E are. -/
theorem ringSlot_same {s t u : State} {f : Fin 9} {q : Nat} {k j : Stream} (ht : SamePoll s t f q) (hu : SamePoll s u f q)
    (hm : t.host.mem = u.host.mem) (he : expectSeq k = expectSeq j) : ringSlot t f q k = ringSlot u f q j := by
  unfold ringSlot hostRead
  rw [ht.space, ht.ring, ht.n, hu.space, hu.ring, hu.n, hm, he]
  simp only [ht.loc, hu.loc]

/-- A stream that has read a host-acknowledge word that it takes (R210). -/
def Stream.acked (k : Stream) (v : U64) : Stream := { k with lastAck := v, hostack := v }

theorem expectSeq_acked (k : Stream) (v : U64) : expectSeq (k.acked v) = expectSeq k := rfl

/-- Slot E holds nothing new: an older number, and not that of an intact entry out of its place (R210, R211). -/
def SlotOld (s : State) (f : Fin 9) (q : Nat) (k : Stream) (e : Entry) : Prop :=
  entrySeq e ≠ expectSeq k ∧ serialAfter (expectSeq k) (entrySeq e) = true ∧
    (enCrcOk e = false ∨ entrySeq e = expectSeq k - BitVec.ofNat 64 (ringN s f q) ∨ entrySeq e = 0)

section
variable {s u : State} {f : Fin 9} {q : Fin 64} {k : Stream} {e : Entry}
variable (hu : SamePoll s u f q) (hk : stream u f q = k) (hm : ∀ p a n, hostMapped s f p a n = true) (he : ringSlot u f q k = e)
include hu hk hm he

/-- The slots are judged: nothing new at E. -/
theorem pollSlots_slotOld (i : Nat) (took : Bool) (hold : SlotOld s f q k e) :
    pollSlots (i + 1) u f q took = (updStream u f q fun k => { k with bad := none }, took) := by
  obtain ⟨hne, hafter, hwhy⟩ := hold
  exact pollSlots_old i took hk (fun p a n => (hu.mapped p a n).trans (hm p a n)) he hne hafter (by rw [hu.n]; exact hwhy)

/-- The slots are judged: E is taken, and after it stands nothing new. -/
theorem pollSlots_takes_one (i : Nat) (hseq : entrySeq e = expectSeq k) (hcrc : enCrcOk e = true) (hmay : mayTake u f q e = true) {e1 : Entry}
    (he1 : ringSlot u f q (takeEntry k e) = e1) (hold : SlotOld s f q (takeEntry k e) e1) :
    pollSlots (i + 1 + 1) u f q false = (updStream (updStream u f q (takeEntry · e)) f q fun k => { k with bad := none }, true) := by
  have htaken : SamePoll u (updStream u f q (takeEntry · e)) f q := updStream_poll _ _ _ _
  have hk1 : stream (updStream u f q (takeEntry · e)) f q = takeEntry k e := by rw [stream_upd_same, hk]
  have hslot : ringSlot (updStream u f q (takeEntry · e)) f q (takeEntry k e) = e1 :=
    (ringSlot_same (hu.trans htaken) hu (updStream_mem _ _ _ _) rfl).trans he1
  rw [pollSlots_take (i + 1) false hk (fun p a n => (hu.mapped p a n).trans (hm p a n)) he hseq hcrc hmay]
  exact pollSlots_slotOld (hu.trans htaken) hk1 hm hslot i true hold

/-- The slots are judged: a number after E stands in slot E. -/
theorem pollSlots_slotGap (i : Nat) (took : Bool) (hne : entrySeq e ≠ expectSeq k) (hafter : serialAfter (expectSeq k) (entrySeq e) = false) :
    pollSlots (i + 1) u f q took = (haltStream u f q .gap (entrySeq e).toNat, took) :=
  pollSlots_gap i took hk (fun p a n => (hu.mapped p a n).trans (hm p a n)) he hne hafter

end

/-! ## CRC_STUCK -/

/-- The slot's bytes have been wrong for 100 ms: the stream halts (R211). -/
theorem exec_crcStuck {s : State} {f : Fin 9} {q : Fin 64} {x : Entry} {y : U64} (hon : s.power.on = true)
    (hp : (stream s f q).state = .polling) (hbad : (stream s f q).bad = some (x, y)) :
    exec (.crcStuck f q) s = .next (haltStream (reach s (y + 100000000)) f q .crcStuck (expectSeq (stream s f q)).toNat) := by
  show powered s _ = _
  rw [powered_on hon]
  dsimp only
  rw [hbad]
  exact congrArg Host.Outcome.next (if_pos hp)

theorem reach_host (s : State) (t : U64) : (reach s t).host = s.host := reach_frames.host rfl

/-- Settles O28: the round takes the word (`poll_shape`) and then judges slot E; what it finds there decides the rest. -/
theorem pollingTakesEntries : Obligations.PollingTakesEntries := by
  unfold Obligations.PollingTakesEntries
  intro s f q hw hon hp z k v e k1 e1 old
  refine ⟨fun hm hr hb => ?_, fun x y hbad => ?_⟩
  · obtain ⟨u, hu, hk, hmem, hexec⟩ := poll_shape (v := v) hw hon rfl hp hm rfl hr hb
    clear_value v
    have hslot : ∀ j : Stream, ringSlot u f q (j.acked v) = ringSlot z f q j := fun j =>
      ringSlot_same hu (softwareWrites_poll s hw f q) hmem (expectSeq_acked j v)
    change stream u f q = k.acked v at hk
    refine ⟨fun hseq hcrc hmay hold => ?_, fun hold => ?_, fun hne hafter => ?_⟩
    · have hmay' : mayTake u f q e = true := (hu.take e (by rw [hk]; rfl) (by rw [hk]; rfl) (by rw [hk]; rfl)).trans hmay
      rw [pollSlots_takes_one hu hk hm (hslot k) 6 hseq hcrc hmay' (hslot k1) hold] at hexec
      have hothers := exec_streamPoll_others hexec
      have htaken := (hu.trans (updStream_poll u f q (takeEntry · e))).trans (updStream_poll _ f q fun k => { k with bad := none })
      refine ⟨_, hexec, ?_, ?_, ?_, fun r hr => hothers r hr⟩
      · exact (htaken.trans (nextInterval_poll _ _ _ _ _)).but
      · exact hmem
      · rw [nextInterval_stream, stream_upd_same, stream_upd_same, hk]
        rfl
    · rw [pollSlots_slotOld hu hk hm (hslot k) 7 false hold] at hexec
      have hjudged := hu.trans (updStream_poll u f q fun k => { k with bad := none })
      refine ⟨_, hexec, (hjudged.trans (nextInterval_poll _ _ _ _ _)).but, hmem, ?_⟩
      rw [nextInterval_stream, stream_upd_same, hk, hjudged.obj]
      simp only [decide_eq_true_eq]
      rfl
    · rw [pollSlots_slotGap hu hk hm (hslot k) 7 false hne hafter] at hexec
      refine ⟨_, hexec, ?_, ?_, ?_⟩
      · exact sameBut_then (sameBut_then (sameBut_le hu.but _ rfl) (haltStream_sameBut _ _ _ _ _) rfl) (nextInterval_poll _ _ _ _ _).but rfl
      · exact (haltStream_mem _ _ _ _ _).trans hmem
      · rw [nextInterval_stream, haltStream_stream, hk]
        exact ⟨rfl, rfl, BitVec.ofNat_toNat _ _, rfl, rfl⟩
  · refine ⟨_, exec_crcStuck hon hp hbad, ?_, ?_, ?_, ?_⟩
    · exact sameBut_then (reach_frames.sameBut _ rfl) (haltStream_sameBut _ _ _ _ _) rfl
    · rw [haltStream_mem, reach_host]
    · have hk : stream (reach s (y + 100000000)) f q = k := stream_of_streams (by rw [reach_host]) q
      rw [haltStream_stream, hk, BitVec.ofNat_toNat, BitVec.setWidth_eq]
      rfl
    · rw [haltStream_frames.now rfl]
      exact reach_le _ _

/-! ## The journal (R213, R214) -/

section
variable {s : State} {f : Fin 9} {q : Fin 64} (hon : s.power.on = true)
include hon

theorem exec_journalBurstWrite (hA : s.journal.copyA = true) (hB : s.journal.copyB = true) : exec (.journalBurstWrite f q) s =
    .next (updStream s f q fun k => { k with batches := k.batches.map fun b => { b with written := true } }) := by
  show powered s _ = _
  rw [powered_on hon, hA, hB]
  rfl

/-- The stream with its oldest batch accepted (R213). -/
def batchAccepted (s : State) (f : Fin 9) (q : Fin 64) (b : Batch) (l : List Batch) : Stream :=
  { stream s f q with
    batches := l, accepted := (stream s f q).accepted + BitVec.ofNat 64 b.entries.length
    entries := (stream s f q).entries ++ b.entries.map (acceptEntry s) }

/-- The state with that batch accepted and counted, before the accept word is written. -/
def acceptedState (s : State) (f : Fin 9) (q : Fin 64) (b : Batch) (l : List Batch) : State :=
  let t := evAdd (updStream s f q fun _ => batchAccepted s f q b l) 0x8001 q (fnOwner f) b.entries.length
  { t with power := { t.power with idle := false } }

theorem exec_entryAccept {b : Batch} {l : List Batch} (hA : s.journal.copyA = true) (hB : s.journal.copyB = true)
    (hb : (stream s f q).batches = b :: l) (hw : b.written = true) :
    exec (.entryAccept f q) s = .next (writeAccept (acceptedState s f q b l) f q) := by
  show powered s _ = _
  rw [powered_on hon, hb]
  dsimp only
  rw [hw, hA, hB, if_neg (by decide), updStream_congr (g := fun k : Stream =>
    { k with batches := l, accepted := k.accepted + BitVec.ofNat 64 b.entries.length, entries := k.entries ++ b.entries.map (acceptEntry s) })
    (h := fun _ => batchAccepted s f q b l) rfl]
  rfl

/-- One copy of the journal is lost while the other stands. -/
theorem exec_journalWriteFail_first (hA : s.journal.copyA = true) (hB : s.journal.copyB = true) (w : Bool) :
    exec (.journalWriteFail w) s = .next { s with journal := { s.journal with copyA := w, copyB := !w } } := by
  have hkept : journalLost s = false := by unfold journalLost; rw [hA, hB]; rfl
  have hjournal : (if w then { s.journal with copyB := false } else { s.journal with copyA := false }) =
      { s.journal with copyA := w, copyB := !w } := by
    cases w with
    | false => simp [hB]
    | true => simp [hA]
  show powered s _ = _
  rw [powered_on hon, hkept, if_neg Bool.false_ne_true]
  dsimp only
  rw [hjournal]
  cases w <;> rfl

/-- Every stream of a function halts with JOURNAL_LOST. -/
def haltFunc (s : State) (f : Fin 9) : State := (List.range 64).foldl (fun t q => haltStream t f q .journalLost 0) s

/-- Every stream of the module does. -/
def haltAll (s : State) : State := (List.finRange 9).foldl haltFunc s

/-- Neither copy of the journal stands. -/
def noJournal (s : State) : State := { s with journal := { s.journal with copyA := false, copyB := false } }

omit hon in
/-- With one copy of the journal left, the journal is not lost; without that copy, no copy is left. -/
theorem last_copy (h : s.journal.copyA ≠ s.journal.copyB) : journalLost s = false ∧
    (if s.journal.copyB then { s.journal with copyB := false } else { s.journal with copyA := false }) = (noJournal s).journal := by
  cases hB : s.journal.copyB with
  | false =>
    have hA : s.journal.copyA = true := by simpa [hB] using h
    simp [journalLost, noJournal, hA, hB]
  | true =>
    have hA : s.journal.copyA = false := by simpa [hB] using h
    simp [journalLost, noJournal, hA, hB]

/-- The copy that was left is lost as well: the module says so, and every stream halts (R214). -/
theorem exec_journalWriteFail_last (h : s.journal.copyA ≠ s.journal.copyB) :
    exec (.journalWriteFail s.journal.copyB) s = .next (haltAll (moduleEvent s (noJournal s))) := by
  obtain ⟨hkept, hjournal⟩ := last_copy h
  show powered s _ = _
  rw [powered_on hon, hkept, if_neg Bool.false_ne_true]
  dsimp only
  rw [hjournal]
  rfl

theorem exec_journalRebuildDone (h : s.journal.copyA ≠ s.journal.copyB) : exec .journalRebuildDone s = .next
    (mapWrite { s with journal := ⟨true, true, s.journal.movedA || !s.journal.copyA, s.journal.movedB || !s.journal.copyB⟩ }) := by
  show powered s _ = _
  rw [powered_on hon]
  exact congrArg Host.Outcome.next (if_neg h)

end

/-! ## Every stream halts -/

/-- A stream has halted with JOURNAL_LOST. -/
def LostAt (s : State) (g : Fin 9) (r : Nat) : Prop := (stream s g r).state = .halted ∧ (stream s g r).halt = .journalLost

theorem haltStream_lost (s : State) (f : Fin 9) (q : Nat) (d : Nat) : LostAt (haltStream s f q .journalLost d) f q := by
  unfold LostAt
  rw [haltStream_stream]
  exact ⟨rfl, rfl⟩

theorem LostAt.haltStream {s : State} {g : Fin 9} {r : Nat} (h : LostAt s g r) (f : Fin 9) (q : Nat) (d : Nat) :
    LostAt (haltStream s f q .journalLost d) g r := by
  by_cases hg : g = f
  · subst hg
    by_cases hr : r = q
    · subst hr
      exact haltStream_lost _ _ _ _
    · unfold LostAt
      rw [haltStream_others s g q .journalLost d r hr]
      exact h
  · have hstream : stream (Machine.haltStream s f q .journalLost d) g r = stream s g r := stream_of_streams (by
      rw [haltStream_funcs]
      unfold updStream
      rw [updFunc_other _ _ _ _ hg]) r
    unfold LostAt
    rw [hstream]
    exact h

/-- What one step of a fold establishes and every step keeps holds at its end. -/
theorem foldl_reaches {α β : Type} {step : β → α → β} {P : β → Prop} {a : α} {l : List α} (ha : a ∈ l) (hreach : ∀ b, P (step b a))
    (hkeep : ∀ b x, P b → P (step b x)) (b : β) : P (l.foldl step b) := by
  induction l generalizing b with
  | nil => cases ha
  | cons x l ih =>
    rw [List.foldl_cons]
    rcases List.mem_cons.1 ha with rfl | hl
    · exact List.foldlRecOn l step (hreach b) fun b hb x _ => hkeep b x hb
    · exact ih hl _

theorem haltFunc_lost (s : State) (g : Fin 9) (r : Fin 64) : LostAt (haltFunc s g) g r :=
  foldl_reaches (step := fun t q => haltStream t g q .journalLost 0) (P := fun t => LostAt t g r) (List.mem_range.2 r.isLt)
    (fun t => haltStream_lost t g r 0) (fun _ q h => h.haltStream g q 0) s

theorem LostAt.haltFunc {s : State} {g : Fin 9} {r : Nat} (h : LostAt s g r) (f : Fin 9) : LostAt (haltFunc s f) g r :=
  List.foldlRecOn (motive := fun t => LostAt t g r) _ _ h fun _ ht q _ => ht.haltStream f q 0

theorem haltAll_lost (s : State) (g : Fin 9) (r : Fin 64) : LostAt (haltAll s) g r :=
  foldl_reaches (step := haltFunc) (P := fun t => LostAt t g r) (List.mem_finRange g) (fun t => haltFunc_lost t g r) (fun _ f h => h.haltFunc f) s

theorem foldl_mem {α : Type} {step : State → α → State} (h : ∀ t x, (step t x).host.mem = t.host.mem) (l : List α) (s : State) :
    (l.foldl step s).host.mem = s.host.mem :=
  List.foldlRecOn (motive := fun t : State => t.host.mem = s.host.mem) l step rfl fun t ht x _ => (h t x).trans ht

theorem haltAll_mem (s : State) : (haltAll s).host.mem = s.host.mem := by
  unfold haltAll haltFunc
  exact foldl_mem (fun t f => foldl_mem (fun t q => haltStream_mem t f q _ _) _ t) _ s

theorem haltFunc_frames {s : State} {f : Fin 9} : Frames 532608 s (haltFunc s f) :=
  (Frames.refl _ s).foldl fun _ _ h => h.step haltStream_frames rfl

theorem haltAll_frames {s : State} : Frames 532608 s (haltAll s) :=
  (Frames.refl _ s).foldl fun _ _ h => h.step haltFunc_frames rfl

theorem noJournal_but (s : State) : SameBut [.journal] s (noJournal s) := ⟨rfl, fun p hp => by cases p <;> first | rfl | simp at hp⟩

/-! ## The accept word -/

/-- Where the host translates it, the accept word is written at its place, and nothing else of the state changes (R213). -/
theorem writeAccept_mapped {s : State} {f : Fin 9} {q : Nat} (hm : hostMapped s f (ringSpace s f q) ((ringOf s f q).2.2.1 + 8) 8 = true) :
    writeAccept s f q = hostWrite s f (ringSpace s f q) ((ringOf s f q).2.2.1 + 8) (wordBytes (stream s f q).accepted) := if_pos hm

theorem acceptedState_stream (s : State) (f : Fin 9) (q : Fin 64) (b : Batch) (l : List Batch) :
    stream (acceptedState s f q b l) f q = batchAccepted s f q b l := stream_upd_same s f q fun _ => batchAccepted s f q b l

theorem acceptedState_but (s : State) (f : Fin 9) (q : Fin 64) (b : Batch) (l : List Batch) :
    SameBut [.host, .power, .counters] s (acceptedState s f q b l) :=
  ⟨rfl, fun p hp => by cases p <;> first | rfl | simp at hp⟩

theorem hostPut_mem (s : State) (ws : List (Nat × Byte)) : (hostPut s ws).host.mem = s.host.mem.writeL ws := rfl

theorem acceptedState_mem (s : State) (f : Fin 9) (q : Fin 64) (b : Batch) (l : List Batch) : (acceptedState s f q b l).host.mem = s.host.mem := rfl

/-- The accept word of a batch that is accepted: it goes to the place the stream's rings gave before. -/
theorem writeAccept_acceptedState {s : State} {f : Fin 9} {q : Fin 64} (b : Batch) (l : List Batch)
    (hm : hostMapped s f (ringSpace s f q) ((ringOf s f q).2.2.1 + 8) 8 = true) :
    writeAccept (acceptedState s f q b l) f q = hostPut (acceptedState s f q b l)
      (placed s f (ringSpace s f q) ((ringOf s f q).2.2.1 + 8) (wordBytes ((stream s f q).accepted + BitVec.ofNat 64 b.entries.length))) := by
  have P : SamePoll s (updStream s f q fun _ => batchAccepted s f q b l) f q := updStream_poll _ _ _ _
  have hspace : ringSpace (acceptedState s f q b l) f q = ringSpace s f q := P.space
  have hring : ringOf (acceptedState s f q b l) f q = ringOf s f q := P.ring
  have hloc : ∀ p a, hostLoc (acceptedState s f q b l) f p a = hostLoc s f p a := P.loc
  rw [writeAccept_mapped (by rw [hspace, hring]; exact (P.mapped _ _ _).trans hm), hspace, hring, acceptedState_stream]
  unfold hostWrite placed
  simp only [hloc]
  rfl

/-- Settles O29: a batch is written, and a written one accepted with its word; a lost copy leaves the other, or halts every stream
(`haltAll_lost`), and a rebuilt one enters the repair map. -/
theorem journalAndAcceptance : Obligations.JournalAndAcceptance := by
  unfold Obligations.JournalAndAcceptance
  intro s f q b l w hon
  refine ⟨fun hA hB => ⟨?_, fun hb hw hm => ?_, exec_journalWriteFail_first hon hA hB w⟩, fun h => ⟨?_, exec_journalRebuildDone hon h⟩⟩
  · exact ⟨_, exec_journalBurstWrite hon hA hB, updStream_frames.sameBut _ rfl, rfl, stream_upd_same _ _ _ _, updStream_others _ _ _ _⟩
  · refine ⟨_, (exec_entryAccept hon hA hB hb hw).trans (congrArg _ (writeAccept_acceptedState b l hm)), ?_, ?_, ?_, ?_⟩
    · exact sameBut_then (acceptedState_but s f q b l) (hostPut_sameBut _ _) rfl
    · exact (stream_of_streams (by rw [hostPut_funcs]) q).trans (acceptedState_stream s f q b l)
    · rw [hostPut_mem, acceptedState_mem]
    · rfl
  · have hsaid : Frames 8192 (noJournal s) (moduleEvent s (noJournal s)) := moduleEvent_frames
    have hjournal : (haltAll (moduleEvent s (noJournal s))).journal = (noJournal s).journal :=
      (haltAll_frames.journal rfl).trans (hsaid.journal rfl)
    refine ⟨_, exec_journalWriteFail_last hon h, ?_, ?_, ?_, ?_, haltAll_lost _⟩
    · exact sameBut_then (sameBut_then (sameBut_le (noJournal_but s) _ rfl) (hsaid.sameBut [.evolu] rfl) rfl)
        (haltAll_frames.sameBut [.host, .evolu, .out] rfl) rfl
    · rw [haltAll_mem, hsaid.host rfl]
      rfl
    · rw [hjournal]
      rfl
    · rw [hjournal]
      rfl

end Sys2Proof.Machine
end

section
/-! NOP and MARK (R205, R209, R216), the events of a function (R223), and the entry that waits for one (R221). -/

namespace Sys2Proof.Machine

open Sys2Proof

/-! ## NOP and MARK -/

section
variable {s : State} {f : Fin 9} {q : Fin 64} {e : EntryRun} {op : Nat} {rsv : List (Nat × Nat)}

/-- An entry that starts finishes at once with a result. -/
theorem finishNow_starts (h : Starts s f q e op rsv) (r : Res) : finishNow s f q e r = entered s f q e (e.ended s.now r) := by
  obtain ⟨-, hl, hr⟩ := h.plain
  have hx : (e.begun s.now).raw = e.raw := rfl
  unfold finishNow
  rw [entryStart_starts h, ← hx, entryDone_sole (entered_mem (nextOf_mem h.next)) (entered_sole hx) hl hr, entered_twice hx]
  rfl

/-- Whether an entry starts does not depend on the Crews. -/
theorem starts_updCrew (h : Starts s f q e op rsv) (c : Fin 16) (g : Crew → Crew) : Starts (updCrew s c g) f q e op rsv :=
  ⟨h.on, h.next, h.opcode, h.clear, h.wait, h.events, h.plain, h.sole⟩

theorem exec_nop (h : Starts s f q e 1 [(735, 0)]) : exec (.nop f q) s = .next (entered s f q e (e.ended s.now Res.okay)) := by
  show powered s _ = _
  rw [powered_on h.on, startEntry_starts h, finishNow_starts h]

/-- The value of a MARK, the Crew it names, and its result (R209, R216). -/
def markValue (e : EntryRun) : U64 := BitVec.ofNat 64 (fld (enBody e.raw) 63 0)
def markCrew (e : EntryRun) : Nat := fld (enBody e.raw) 71 64
def markRes (s : State) (e : EntryRun) : Res := { Res.okay with d0 := s.now, d1 := markValue e }

theorem exec_mark_noCrew (h : Starts s f q e 5 [(735, 72)]) (hc : markCrew e = 0xFF) :
    exec (.mark f q) s = .next (entered s f q e (e.ended s.now (markRes s e))) := by
  show powered s _ = _
  unfold markCrew at hc
  rw [powered_on h.on, startEntry_starts h]
  dsimp only
  simp only [hc]
  rw [if_neg (by simp), if_neg (by simp), if_pos trivial, finishNow_starts h]
  rfl

theorem exec_mark_crew {d : Fin 16} (h : Starts s f q e 5 [(735, 72)]) (hc : markCrew e = d.val) (hd : s.crews[d].state ≠ .undefined)
    (hp : (partOfFn f).isSome = true) (ho : crewOwner s d = partOfFn f) :
    exec (.mark f q) s = .next (entered (updCrew s d fun k => { k with mark := markValue e }) f q e (e.ended s.now (markRes s e))) := by
  have hne : d.val ≠ 0xFF := by omega
  have hcrew : (decide (s.crews[d].state = .undefined) || (partOfFn f).isNone || crewOwner s d != partOfFn f) = false := by
    rw [ho, decide_eq_false hd, Option.isNone_eq_false_iff.2 hp, bne_self_eq_false]
    rfl
  show powered s _ = _
  unfold markCrew at hc
  rw [powered_on h.on, startEntry_starts h]
  dsimp only
  simp only [hc, fin16_val]
  rw [hcrew, if_neg (by simp), if_neg (by simp), if_neg hne, finishNow_starts (starts_updCrew h d _)]
  rfl

end

/-! ## Events -/

theorem eventCount_signal_other (s : State) {f g : Fin 9} {e x : Nat} (h : g ≠ f ∨ x ≠ e) : eventCount (signalEv s f e) g x = eventCount s g x := by
  unfold signalEv
  split
  · rfl
  · unfold eventCount
    by_cases hg : g = f
    · subst hg
      rw [updFunc_same]
      exact assocGet_set_other _ _ _ _ _ _ (h.resolve_left (not_not.2 rfl))
    · rw [updFunc_other _ _ _ _ hg]

theorem exec_signalEvent {s : State} (hon : s.power.on = true) (f : Fin 9) (e : BitVec 16) : exec (.signalEvent f e) s = .next (signalEv s f e.toNat) :=
  powered_on hon _

/-! ## EVENT_WAIT_SATISFIED -/

/-- The event of the entry that the stream starts next has reached the count it waits for: the entry goes on, and the stream notes the
event with the count it had (R221). -/
theorem exec_eventWaitSatisfied {s : State} {f : Fin 9} {q : Fin 64} {e : EntryRun} (hon : s.power.on = true) (hnext : nextEntry s f q = some e)
    (hheld : e.stage = .held) (h1 : 1 ≤ enWait e.raw) (h2 : enWait e.raw ≤ 4095) (hcnt : enWaitCnt e.raw ≤ (eventCount s f (enWait e.raw)).toNat)
    (hsole : ∀ x ∈ (stream s f q).entries, entrySeq x.raw = entrySeq e.raw → x = e) :
    exec (.eventWaitSatisfied f q) s = .next (updStream (entered s f q e { e with stage := .waited }) f q fun k =>
      { k with waits := (enWait e.raw, (eventCount s f (enWait e.raw)).toNat) :: k.waits }) := by
  have hready : (decide (e.stage ≠ .held) || decide (enWait e.raw = 0) || decide (4095 < enWait e.raw) ||
      decide ((eventCount s f (enWait e.raw)).toNat < enWaitCnt e.raw)) = false := by
    simp [hheld]
    omega
  show powered s _ = _
  rw [powered_on hon, hnext]
  dsimp only
  rw [hready, if_neg Bool.false_ne_true, updEntry_sole hsole]

/-- Settles O31: each row ends in the state its lemma above gives. -/
theorem plainEntriesAndEvents : Obligations.PlainEntriesAndEvents := by
  unfold Obligations.PlainEntriesAndEvents
  intro s f q e ev
  refine ⟨exec_nop, fun h => ⟨exec_mark_noCrew h, fun d => exec_mark_crew h⟩, fun hon h1 h2 => ?_, fun hon hnext hheld h1 h2 hcnt hsole => ?_⟩
  · exact ⟨_, exec_signalEvent hon f ev, signalEv_frames.sameBut _ rfl, signalEv_mem _ _ _, eventCount_signal _ _ _ (by omega) h2,
      fun g x h => eventCount_signal_other s h, fun g => (signalEv_funcs s f ev.toNat g).2⟩
  · refine ⟨_, exec_eventWaitSatisfied hon hnext hheld h1 h2 hcnt hsole, ?_, rfl, ?_, ?_⟩
    · exact sameBut_then (updStream_frames.sameBut [.host] rfl) (updStream_frames.sameBut [.host] rfl) rfl
    · rw [stream_upd_same, stream_entered]
    · rw [stream_upd_same, stream_entered]

end Sys2Proof.Machine
end

section
/-! EXPORT (R209, R353): the layers it pins, and its end with their bytes in a host region. -/

namespace Sys2Proof.Machine

open Sys2Proof

/-! ## Host memory behind places -/

section
variable {s t : State} (h : t.host = s.host) (f : Fin 9)
include h

theorem hostSpot_host (e : Nat) : hostSpot t f e = hostSpot s f e := by
  unfold hostSpot hostLoc hostPage regionSpace regionIova spaceOf hostRegion
  rw [h]

theorem hostFaultAt_host (es : List Nat) : hostFaultAt t f es = hostFaultAt s f es := by
  unfold hostFaultAt hostMapped regionSpace regionIova spaceOf hostRegion
  rw [h]

end

/-- Bytes written at places reach host memory at the addresses behind those of host regions. -/
theorem spaceWriteL_host (s : State) (f : Fin 9) (p : Option (Fin 8)) (ws : List (Nat × Byte)) : (spaceWriteL s f p ws).host =
    { s.host with mem := s.host.mem.writeL ((ws.filter fun w => aLoc w.1 = 2).map fun w => (hostSpot s f w.1, w.2)) } := by
  unfold spaceWriteL
  dsimp only
  generalize hT : List.foldl _ s (List.range 8) = T
  have hfold : T.host = s.host := by
    rw [← hT]
    refine List.foldlRecOn (motive := fun t : State => t.host = s.host) _ _ rfl fun t ht n _ => ?_
    split
    · exact ht
    · exact (palletWriteL_frames.host rfl).trans ht
  generalize hU : hbmWriteP T p _ = U
  have hhost : U.host = s.host := by rw [← hU, hbmWriteP_frames.host rfl, hfold]
  simp only [hostSpot_host hhost]
  unfold hostPut
  rw [hhost]

/-! ## EXPORT pins its layers -/

theorem stream_updCrew (s : State) (c : Fin 16) (g : Crew → Crew) (f : Fin 9) (q : Nat) : stream (updCrew s c g) f q = stream s f q := rfl

theorem updCrew_but (s : State) (c : Fin 16) (g : Crew → Crew) : SameBut [.crews] s (updCrew s c g) :=
  ⟨rfl, fun p hp => by cases p <;> first | rfl | simp at hp⟩

theorem exec_exportSlots {s : State} {f : Fin 9} {q : Fin 64} {e : EntryRun} {p : Fin 8} {c : Fin 16} (hp : partOfFn f = some p)
    (h : Starts s f q e 7 [(735, 192), (71, 66), (15, 8)]) (hc : exCrew (enBody e.raw) = c.val) (hx : s.crews[c].exporting = none)
    (hpend : regionPending s f e.raw = false) (hrej : exportReject s f p (enBody e.raw) = none) :
    exec (.exportSlots f q) s = .next (updCrew (entered s f q e (e.begun s.now)) c fun k => { k with
      exporting := some ⟨f, q, entrySeq e.raw, exStroke (enBody e.raw),
        (exLayers s p (enBody e.raw)).map fun k => (k, layerDesc s p k, layerRec s p k)⟩ }) := by
  have hfree : (decide (exCrew (enBody e.raw) < 16) && crewOwner s c == some p && s.crews[c].exporting.isSome) = false := by
    rw [hx]
    exact Bool.and_false _
  show powered s _ = _
  rw [powered_on h.on, startEntry_starts h, hp]
  dsimp only
  simp only [show fin16 (exCrew (enBody e.raw)) = c from (congrArg fin16 hc).trans (fin16_val c)]
  rw [hfree, hpend, if_neg (by decide), hrej, entryStart_starts h]
  rfl

/-! ## EXPORT ends -/

/-- The EXPORT of a stream is that stream's. -/
theorem exportCrew_run {s : State} {f : Fin 9} {q : Fin 64} {c : Fin 16} {x : ExportRun} (h : exportCrew s f q = some (c, x)) :
    x.f = f ∧ x.s = q := by
  unfold exportCrew at h
  obtain ⟨d, -, hd⟩ := List.exists_of_findSome?_eq_some h
  split at hd
  · split at hd
    · rename_i hfq
      cases hd
      exact hfq
    · cases hd
  · cases hd

/-- An entry of a stream has finished with a result. -/
def FinishedWith (t : State) (f : Fin 9) (q : Nat) (e : EntryRun) (res : Res) : Prop :=
  ∃ y ∈ (stream t f q).entries, y.raw = e.raw ∧ y.stage = .finished ∧ y.res = res

/-- The end of an entry without a counter latch that has not run before: the entry has finished, and the streams are all that changes. -/
theorem entryDone_unlatched {s : State} {f : Fin 9} {q : Nat} {n : BitVec 64} {e : EntryRun}
    (hf : ((stream s f q).entries.find? fun e => entrySeq e.raw = n) = some e) (hl : e.latchGroup = 0xFF) (hr : e.retried = false) (res : Res) :
    SameBut [.host] s (entryDone s f q n res) ∧ (entryDone s f q n res).host.mem = s.host.mem ∧ FinishedWith (entryDone s f q n res) f q e res := by
  have hend : entryDone s f q n res = updEntry s f q n fun y =>
      { y with stage := .finished, res := if y.retried && res.cls = .ok then { res with cls := .okRetried } else res, tEnd := s.now, deltas := [] } := by
    unfold entryDone
    rw [hf]
    dsimp only
    rw [if_pos hl]
    rfl
  have hmem := List.mem_of_find?_eq_some hf
  have hseq : entrySeq e.raw = n := by simpa using List.find?_some hf
  rw [hend]
  refine ⟨updStream_frames.sameBut _ rfl, rfl, ?_⟩
  unfold FinishedWith updEntry
  rw [stream_upd_same]
  refine ⟨_, List.mem_map_of_mem hmem, ?_⟩
  rw [if_pos hseq]
  dsimp only
  rw [hr]
  exact ⟨rfl, rfl, rfl⟩

section
variable {s : State} {f : Fin 9} {q : Fin 64} {e : EntryRun} {p : Fin 8} {c : Fin 16} {x : ExportRun}

/-- The places an EXPORT of so many bytes to a host region writes. -/
def exportPlaces (e : EntryRun) (n : Nat) : List Nat := (List.range n).map fun i => hostAddr (exDreg (enBody e.raw)) (exDoff (enBody e.raw) + i)

/-- Where the host translates them all, the bytes take effect there. -/
theorem exportToHost_reached {t : State} {bs : List Byte} (h : hostFaultAt t x.f (exportPlaces e bs.length) = none) :
    exportToHost t c p x (enBody e.raw) bs = exportEnds
      (atcUse (spaceWriteL t x.f (some p) ((exportPlaces e bs.length).zip bs)) x.f (exportPlaces e bs.length)) c x (exportOk bs) := by
  unfold exportPlaces at h
  unfold exportToHost
  dsimp only
  rw [h]
  rfl

/-- The state with the bytes of an EXPORT in its host region: its layers have been read, and the translations used stay. -/
def exportWritten (s : State) (f : Fin 9) (p : Fin 8) (e : EntryRun) (x : ExportRun) : State :=
  let es := exportPlaces e (exportBytes s p x).length
  atcUse (spaceWriteL (accessed s p (exportReads x)) f (some p) (es.zip (exportBytes s p x))) f es

theorem exec_exportDone (hon : s.power.on = true) (hp : partOfFn f = some p) (hc : exportCrew s f q = some (c, x))
    (hf : ((stream s f q).entries.find? fun e => entrySeq e.raw = x.seq) = some e) (htgt : exTarget (enBody e.raw) = 0)
    (hue : ueAt s (some p) (exportReads x) = none) (hfault : hostFaultAt s f (exportPlaces e (exportBytes s p x).length) = none) :
    exec (.exportDone f q) s = .next (exportEnds (exportWritten s f p e x) c x (exportOk (exportBytes s p x))) := by
  obtain ⟨hxf, -⟩ := exportCrew_run hc
  have hreach : hostFaultAt (accessed s p (exportReads x)) x.f (exportPlaces e (exportBytes s p x).length) = none := by
    rw [hostFaultAt_host ((accessed_frames _ _ _).host rfl), hxf, hfault]
  show powered s _ = _
  rw [powered_on hon, hc, hp]
  dsimp only
  rw [hf]
  dsimp only
  rw [hue]
  dsimp only
  rw [if_pos htgt]
  refine congrArg Host.Outcome.next ((exportToHost_reached hreach).trans ?_)
  rw [hxf]
  rfl

theorem atcUse_streams (s : State) (f : Fin 9) (es : List Nat) : (atcUse s f es).host.funcs[f].streams = s.host.funcs[f].streams := by
  unfold atcUse
  split
  · rfl
  · dsimp only
    split
    · rfl
    · rw [updFunc_same]

theorem exportWritten_stream (s : State) (f : Fin 9) (p : Fin 8) (e : EntryRun) (x : ExportRun) (q : Nat) :
    stream (exportWritten s f p e x) f q = stream s f q :=
  stream_of_streams (by unfold exportWritten; rw [atcUse_streams, spaceWriteL_funcs, (accessed_frames _ _ _).host rfl]) q

theorem exportWritten_mem (s : State) (f : Fin 9) (p : Fin 8) (e : EntryRun) (x : ExportRun) : (exportWritten s f p e x).host.mem =
    (spaceWriteL s f (some p) ((exportPlaces e (exportBytes s p x).length).zip (exportBytes s p x))).host.mem := by
  have hhost : (accessed s p (exportReads x)).host = s.host := (accessed_frames _ _ _).host rfl
  unfold exportWritten
  dsimp only
  rw [atcUse_mem, spaceWriteL_host, spaceWriteL_host, hhost]
  simp only [hostSpot_host hhost]

theorem exportWritten_frames {s : State} {f : Fin 9} {p : Fin 8} {e : EntryRun} {x : ExportRun} : Frames 934100 s (exportWritten s f p e x) :=
  (((accessed_frames _ _ _).mono rfl).step spaceWriteL_frames rfl).step atcUse_frames rfl

end

/-- Settles O34: the EXPORT's start pins its layers; its end writes their bytes (`exportWritten`), ends the entry and releases the pins. -/
theorem exportsPinAndFinish : Obligations.ExportsPinAndFinish := by
  unfold Obligations.ExportsPinAndFinish
  intro s f q e p c hp b
  refine ⟨fun h hc hx hpend hrej => ?_, ?_⟩
  · refine ⟨_, exec_exportSlots hp h hc hx hpend hrej, ?_, rfl, rfl⟩
    exact sameBut_then (sameBut_le (updStream_frames.sameBut [.host] rfl) _ rfl) (updCrew_but _ _ _) rfl
  · intro x hon hc hf hl hr htgt hue bs es hfault
    obtain ⟨hxf, hxq⟩ := exportCrew_run hc
    have hfound : ((stream (exportWritten s f p e x) f q).entries.find? fun e => entrySeq e.raw = x.seq) = some e := by
      rw [exportWritten_stream, hf]
    obtain ⟨hbut, hmem, hfin⟩ := entryDone_unlatched hfound hl hr (exportOk bs)
    refine ⟨_, exec_exportDone hon hp hc hf htgt hue hfault, ?_, ?_, ?_, ?_⟩
    all_goals unfold exportEnds; rw [hxf, hxq]
    · exact sameBut_then (sameBut_then (exportWritten_frames.sameBut _ rfl) hbut rfl) (updCrew_but _ _ _) rfl
    · rw [updCrew_host, hmem]
      exact exportWritten_mem s f p e x
    · have hcrews := (hbut.2 .crews (by simp)).trans (exportWritten_frames.crews rfl)
      unfold updCrew
      dsimp only
      rw [hcrews]
    · obtain ⟨y, hy, hend⟩ := hfin
      exact ⟨y, by rw [stream_updCrew]; exact hy, hend⟩

end Sys2Proof.Machine
end

section
/-! The cores of an attempt (R230, R233): its start on free cores, the end of its cores, their faults, loads and stores, and its VOTE (R328). -/

namespace Sys2Proof.Machine

open Sys2Proof

/-! ## One Crew has something to do of its own accord -/

/-- A fold of which one step changes the state and the others leave it. -/
theorem foldl_once {α β : Type} {step : β → α → β} {l : List α} {a : α} {b b' : β} (hn : l.Nodup) (ha : a ∈ l) (hstep : step b a = b')
    (hb : ∀ x, x ≠ a → step b x = b) (hb' : ∀ x, x ≠ a → step b' x = b') : l.foldl step b = b' := by
  obtain ⟨l1, l2, rfl⟩ := List.append_of_mem ha
  obtain ⟨-, h2, h12⟩ := List.nodup_append.1 hn
  have h1 : ∀ x ∈ l1, x ≠ a := fun x hx => h12 x hx a List.mem_cons_self
  have h3 : ∀ x ∈ l2, x ≠ a := fun x hx e => (List.nodup_cons.1 h2).1 (e ▸ hx)
  rw [List.foldl_append, foldl_fixed step b l1 fun x hx => hb x (h1 x hx), List.foldl_cons, hstep]
  exact foldl_fixed step b' l2 fun x hx => hb' x (h3 x hx)

/-- Where every other Crew is calm, what follows is what that one Crew does. -/
theorem castReady_one {s t : State} {c : Fin 16} (hc : settleCrew s c = t) (hother : ∀ d : Fin 16, d ≠ c → crewCalm s.crews[d] = true)
    (hsame : ∀ d : Fin 16, d ≠ c → t.crews[d] = s.crews[d])
    (hw : ∀ f : Fin 9, t.host.funcs[f].collWrites = [] ∧ t.host.funcs[f].handleWrites = []) : castReady s = t := by
  unfold castReady
  rw [foldl_once (List.nodup_finRange 16) (List.mem_finRange c) hc (fun d hd => settleCrew_of_calm s d (hother d hd))
    (fun d hd => settleCrew_of_calm t d (by rw [hsame d hd]; exact hother d hd))]
  exact foldl_fixed doCollWrites t _ fun p _ => doCollWrites_of_calm t p (hw _)

/-- With no tile to be sent on, none is released (R287). -/
theorem releaseTiles_none {s : State} (h : ∀ n : Fin 8, ∀ x : Fin 64, s.courses[n].tiles[x].sendon = none) (c : Fin 16) : releaseTiles s c = s := by
  unfold releaseTiles
  dsimp only
  refine if_pos (List.sum_eq_zero fun m hm => ?_)
  obtain ⟨k, hk, rfl⟩ := List.mem_map.1 hm
  obtain ⟨n, hn, rfl⟩ := Vector.getElem_of_mem (Vector.mem_toList_iff.1 hk)
  rw [List.length_eq_zero_iff]
  refine List.filter_eq_nil_iff.2 fun x hx => ?_
  obtain ⟨i, hi, rfl⟩ := Vector.getElem_of_mem (Vector.mem_toList_iff.1 hx)
  have hnone : s.courses[n].tiles[i].sendon = none := h ⟨n, hn⟩ ⟨i, hi⟩
  rw [hnone]
  exact Bool.false_ne_true

section
variable {s t : State} {c : Fin 16} {a b : Attempt}

/-- A change of an attempt looks at that attempt alone. -/
theorem updAttempt_const (ha : s.crews[c].attempt = some a) (g : Attempt → Attempt) : updAttempt s c g = updAttempt s c fun _ => g a := by
  unfold updAttempt updCrew
  dsimp only
  rw [ha]
  rfl

theorem updAttempt_twice (s : State) (c : Fin 16) (g h : Attempt → Attempt) : updAttempt (updAttempt s c g) c h = updAttempt s c fun x => h (g x) := by
  unfold updAttempt
  rw [updCrew_twice]
  refine congrArg (fun k => { s with crews := s.crews.set c k }) ?_
  dsimp only
  rw [Option.map_map]
  rfl

theorem updAttempt_crew (ha : s.crews[c].attempt = some a) (b : Attempt) :
    (updAttempt s c fun _ => b).crews[c] = { s.crews[c] with attempt := some b } := by
  unfold updAttempt
  rw [updCrew_same, ha]
  rfl

theorem updAttempt_crews (ha : s.crews[c].attempt = some a) (b : Attempt) :
    (updAttempt s c fun _ => b).crews = s.crews.set c { s.crews[c] with attempt := some b } := by
  unfold updAttempt updCrew
  dsimp only
  rw [ha]
  rfl

theorem updAttempt_but (s : State) (c : Fin 16) (g : Attempt → Attempt) : SameBut [.crews] s (updAttempt s c g) := updCrew_but s c _

/-- What a Crew with no operation and no decision does: its vote is cast where it may be, which gives the state `t` and its attempt `b`. -/
structure Settles (s t : State) (c : Fin 16) (a b : Attempt) : Prop where
  attempt : s.crews[c].attempt = some a
  free : s.crews[c].ops = [] ∧ s.crews[c].waiting = []
  cast : castIfReady s c a = t
  after : t.crews[c].attempt = some b
  resolved : t.crews[c].fin ≠ .unresolved
  undecided : t.crews[c].decision = none
  going : b.ended = true → t.crews[c].fin ≠ .decided
  tiles : a.ended = true → ∀ n : Fin 8, ∀ x : Fin 64, s.courses[n].tiles[x].sendon = none

theorem retireVote_undecided (h : s.crews[c].decision = none) : retireVote s c = s := by
  unfold retireVote
  rw [h]
  cases s.crews[c].attempt <;> rfl

theorem decideAlone_resolved (h : s.crews[c].fin ≠ .unresolved) : decideAlone s c = s := by
  unfold decideAlone
  rw [decide_eq_false h]
  rfl

theorem advanceOps_none (h : s.crews[c].ops = [] ∧ s.crews[c].waiting = []) : advanceOps s c = s := by
  unfold advanceOps
  rw [h.1, h.2]
  rfl

theorem actIfDecided_undecided (ha : s.crews[c].attempt = some a) (h : a.ended = true → s.crews[c].fin ≠ .decided) : actIfDecided s c = s := by
  unfold actIfDecided
  rw [ha]
  refine if_neg fun hact => ?_
  simp only [Bool.and_eq_true, decide_eq_true_eq] at hact
  exact h hact.1.2 hact.1.1

theorem settleCrew_settles (h : Settles s t c a b) : settleCrew s c = t := by
  have htiles : (if a.ended then releaseTiles s c else s) = s := by
    split
    · rename_i he
      exact releaseTiles_none (h.tiles he) c
    · rfl
  unfold settleCrew
  rw [advanceOps_none h.free]
  dsimp only
  rw [h.attempt]
  dsimp only
  rw [htiles, h.cast, decideAlone_resolved h.resolved, retireVote_undecided h.undecided, actIfDecided_undecided h.after h.going]

/-! ## An attempt under way -/

/-- No vote is cast after the vote, by an attempt that does not run, or while a command beside the VOTE is in flight. -/
theorem castIfReady_none (h : attemptQuiet a = false ∨ a.voted = true ∨ s.crews[c].fin ≠ .running) : castIfReady s c a = s := by
  unfold castIfReady
  refine if_neg fun hcast => ?_
  simp only [Bool.and_eq_true, decide_eq_true_eq, Bool.not_eq_true'] at hcast
  obtain ⟨⟨⟨hrun, hvoted⟩, -⟩, hquiet⟩ := hcast
  rcases h with h | h | h
  · exact Bool.false_ne_true (h.symm.trans hquiet)
  · exact Bool.false_ne_true (hvoted.symm.trans h)
  · exact h hrun

theorem attemptQuiet_busy (h : 1 < a.inFlight) : attemptQuiet a = false := by
  unfold attemptQuiet
  split <;> exact decide_eq_false (by omega)

/-- However its attempt changes, nothing follows while more commands than one are in flight. -/
theorem castReady_underway (h : Underway s c a) (hb : b.inFlight = a.inFlight) : castReady (updAttempt s c fun _ => b) = updAttempt s c fun _ => b := by
  have hcrew := updAttempt_crew h.attempt b
  refine castReady_one (settleCrew_settles (a := b) (b := b) ⟨by rw [hcrew], by rw [hcrew]; exact h.free,
    castIfReady_none (.inl (attemptQuiet_busy (hb ▸ h.flight))), by rw [hcrew], by rw [hcrew, h.running.1]; decide,
    by rw [hcrew]; exact h.running.2, fun _ => by rw [hcrew, h.running.1]; decide, fun _ => h.tiles⟩)
    (fun d hd => ?_) (fun _ _ => rfl) h.writes
  rw [updAttempt, updCrew_other _ _ _ _ hd]
  exact h.others d hd

/-! ## The end of its cores -/

variable {w : Who} {k : CoreRun}

theorem exec_coreEcall (hon : s.power.on = true) (hcore : findCore s w = some (c, a, k)) (ha : s.crews[c].attempt = some a) :
    exec (.coreEcall w) s = .next (
      let t := updAttempt s c fun _ => a.coreEnded k
      if !(a.coreEnded k).cores.all (·.ended) then t
      else if a.voteCmd.isNone || !a.held.isEmpty then castReady (programFault t c)
      else castReady (updAttempt t c fun a => { a with ended := true })) := by
  show powered s _ = _
  rw [powered_on hon, hcore]
  dsimp only
  have hend : updAttempt s c (fun a => { a with cores := a.cores.map fun x => if x.cluster = k.cluster ∧ x.lcore = k.lcore then { x with ended := true } else x })
      = updAttempt s c fun _ => a.coreEnded k := updAttempt_const ha _
  rw [hend, updAttempt_crew ha]
  rfl

theorem exec_coreEcall_goesOn (h : Underway s c a) (hcore : findCore s w = some (c, a, k)) (hall : (a.coreEnded k).cores.all (·.ended) = false) :
    exec (.coreEcall w) s = .next (updAttempt s c fun _ => a.coreEnded k) := by
  rw [exec_coreEcall h.on hcore h.attempt]
  dsimp only
  rw [hall]
  rfl

theorem exec_coreEcall_last (h : Underway s c a) (hcore : findCore s w = some (c, a, k)) (hall : (a.coreEnded k).cores.all (·.ended) = true)
    (hvote : a.voteCmd.isSome = true) (hheld : a.held = []) :
    exec (.coreEcall w) s = .next (updAttempt s c fun _ => { a.coreEnded k with ended := true }) := by
  obtain ⟨v, hv⟩ := Option.isSome_iff_exists.1 hvote
  rw [exec_coreEcall h.on hcore h.attempt]
  dsimp only
  rw [if_neg (by rw [hall]; decide), if_neg (by rw [hv, hheld]; exact Bool.false_ne_true), updAttempt_twice]
  rw [castReady_underway h]
  rfl

/-- A fault of the program in an attempt that is under way (R230, R233). -/
theorem castReady_programFault (h : Underway s c a) (hb : b.inFlight = a.inFlight) :
    castReady (programFault (updAttempt s c fun _ => b) c) = updAttempt s c fun _ => b.faulty := by
  unfold programFault
  rw [updAttempt_twice]
  exact castReady_underway h hb

theorem exec_coreEcall_unvoted (h : Underway s c a) (hcore : findCore s w = some (c, a, k)) (hall : (a.coreEnded k).cores.all (·.ended) = true)
    (hvote : a.voteCmd = none) : exec (.coreEcall w) s = .next (updAttempt s c fun _ => (a.coreEnded k).faulty) := by
  rw [exec_coreEcall h.on hcore h.attempt]
  dsimp only
  rw [if_neg (by rw [hall]; decide), if_pos (by rw [hvote]; rfl), castReady_programFault h]
  rfl

theorem exec_coreTrap (hon : s.power.on = true) (hcore : findCore s w = some (c, a, k)) (act : CoreAct) :
    exec (.coreTrap ⟨w, act⟩) s = .next (coreAct s w c a k act) := by
  show powered s _ = _
  rw [powered_on hon, hcore]

theorem exec_coreTrap_trap (h : Underway s c a) (hcore : findCore s w = some (c, a, k)) : exec (.coreTrap ⟨w, .trap⟩) s = .next (updAttempt s c fun _ => a.faulty) := by
  rw [exec_coreTrap h.on hcore]
  show Host.Outcome.next (castReady (programFault s c)) = _
  unfold programFault
  rw [updAttempt_const h.attempt, castReady_underway h]
  · rfl
  · rfl

/-! ## Loads and stores of cluster memory (R230) -/

theorem corePlace_cluster {foot x : Nat} (h : x < foot) : corePlace foot x = .cluster x := if_pos h

theorem ueAt_nil (s : State) (p : Option (Fin 8)) : ueAt s p [] = none := ite_self _

theorem hbmFix_nil (s : State) (p : Option (Fin 8)) : hbmFix s p [] = s := by
  unfold hbmFix
  dsimp only
  have hnone : s.hbm.ce.filter ([] : List Nat).contains = [] := List.filter_eq_nil_iff.2 fun _ _ => Bool.false_ne_true
  rw [List.filterMap_nil, List.map_nil, hnone]
  exact ite_self _

/-- Addresses of cluster memory touch no Pallet and no HBM. -/
theorem coreReads_cluster {xs : List Nat} (p : Fin 8) (h : ∀ x ∈ xs, x < a.foot) : coreReads s p a xs = (s, true) := by
  unfold coreReads
  dsimp only
  rw [List.filterMap_eq_nil_iff.2, List.filterMap_eq_nil_iff.2]
  · rw [ueAt_nil]
    show (hbmTraffic (hbmFix s (some p) []) (some p) [], true) = _
    rw [hbmFix_nil]
    rfl
  · exact fun x hx => by rw [corePlace_cluster (h x hx)]
  · exact fun x hx => by rw [corePlace_cluster (h x hx)]

theorem coreByte_cluster {x : Nat} (p : Fin 8) (j : Fin 4) (h : x < a.foot) : coreByte s c p a j x = some ((a.mem.getD j Mem.empty).read x) := by
  unfold coreByte
  rw [corePlace_cluster h]

theorem coreCached_cluster {x : Nat} {code : Bool} (ha : s.crews[c].attempt = some a) (h : x < a.foot) :
    ∃ cs, coreCached s c k code x = updAttempt s c fun _ => { a with cores := cs } := by
  unfold coreCached
  rw [updAttempt_const ha, if_neg (Nat.not_le.2 h)]
  exact ⟨_, rfl⟩

/-- The bytes of cluster memory a core loads. -/
theorem loaded_cluster {xs : List Nat} (p : Fin 8) (j : Fin 4) (h : ∀ x ∈ xs, x < a.foot) :
    ((freeBytesAt s xs).1.map fun y => (coreByte t c p a j y.1).getD y.2) = xs.map fun x => (a.mem.getD j Mem.empty).read x := by
  unfold freeBytesAt
  dsimp only
  rw [List.map_map]
  refine List.ext_getElem (by simp) fun i hi hj => ?_
  have hmem : xs[i]'(by simpa using hj) < a.foot := h _ (List.getElem_mem _)
  simp [coreByte_cluster p j hmem]

theorem exec_coreTrap_load {p : Fin 8} {x n : Nat} (hon : s.power.on = true) (hcore : findCore s w = some (c, a, k)) (ho : crewOwner s c = some p) (code : Bool)
    (hn : x + n ≤ a.foot) (hx : x < a.foot) : ∃ t cs, exec (.coreTrap ⟨w, .load code x n⟩) s = .next t ∧ SameBut [.free, .crews, .out] s t ∧
      t.crews = s.crews.set c { s.crews[c] with attempt := some { a with cores := cs } } ∧
      t.out = .coreLoad w ((List.range n).map fun i => (a.mem.getD k.cluster Mem.empty).read (x + i)) :: s.out := by
  have hxs : ∀ y ∈ (List.range n).map (x + ·), y < a.foot := fun y hy => by
    obtain ⟨i, hi, rfl⟩ := List.mem_map.1 hy
    have := List.mem_range.1 hi
    omega
  have ha := findCore_attempt hcore
  obtain ⟨cs, hcs⟩ := coreCached_cluster (s := (freeBytesAt s ((List.range n).map (x + ·))).2) (k := k) (code := code) ha hx
  refine ⟨_, cs, exec_coreTrap hon hcore _, ?_⟩
  have hload : coreAct s w c a k (.load code x n) = emit (updAttempt (freeBytesAt s ((List.range n).map (x + ·))).2 c fun _ => { a with cores := cs })
      (.coreLoad w (((List.range n).map (x + ·)).map fun y => (a.mem.getD k.cluster Mem.empty).read y)) := by
    unfold coreAct
    rw [ho]
    show coreLoad s w c p a k code x n = _
    unfold coreLoad
    dsimp only
    rw [coreReads_cluster p hxs]
    dsimp only
    simp only [↓reduceIte]
    rw [hcs, loaded_cluster p k.cluster hxs]
  rw [hload]
  refine ⟨sameBut_then (sameBut_then (sameBut_le (freeBytesAt_frames.sameBut [.free] rfl) _ rfl) (updAttempt_but _ c _) rfl)
    (emit_frames.sameBut [.out] rfl) rfl, (updAttempt_crews ha _), ?_⟩
  rw [List.map_map]
  rfl

theorem exec_coreTrap_store {p : Fin 8} {x : Nat} {bs : List Byte} (hon : s.power.on = true) (hcore : findCore s w = some (c, a, k)) (ho : crewOwner s c = some p)
    (hx : x < a.foot) (hbs : x % 64 + bs.length ≤ 64) :
    exec (.coreTrap ⟨w, .store x bs⟩) s = .next (updAttempt s c fun y => clusterWrite y w.cluster x bs) := by
  have hstore : coreStore s w c p a x bs = some (updAttempt s c fun y => clusterWrite y w.cluster x bs) := by
    unfold coreStore
    dsimp only
    rw [if_neg (Nat.not_lt.2 hbs), corePlace_cluster hx]
  rw [exec_coreTrap hon hcore]
  unfold coreAct
  rw [ho]
  dsimp only
  rw [hstore]
  rfl

end

/-! ## The start of an attempt (R233) -/

/-- A change of a Crew that starts an attempt and leaves its operations as they are. -/
structure Begins (g : Crew → Crew) (a : Attempt) : Prop where
  attempt : ∀ k, (g k).attempt = some a
  fin : ∀ k, (g k).fin = .running
  decision : ∀ k, (g k).decision = none
  nextAttempt : ∀ k, (g k).nextAttempt = k.nextAttempt
  ops : ∀ k, (g k).ops = k.ops ∧ (g k).waiting = k.waiting

theorem freeCores_le (s : State) (j : Fin 4) : (freeCores s j).length ≤ (s.pointing.clusters[j].map).length := by
  unfold freeCores
  exact (List.length_filter_le _ _).trans_eq List.length_range

theorem leaveCourses_none {s : State} (h : s.pointing.leaving = []) (p : Fin 8) : leaveCourses s p = s := by
  unfold leaveCourses
  exact coursesGo_none fun x hx => by rw [h] at hx; exact absurd hx List.not_mem_nil

theorem exec_attemptStart {s : State} {c : Fin 16} {l : LaunchRun} {p : Fin 8} (hon : s.power.on = true) (hl : s.crews[c].launch = some l)
    (ho : crewOwner s c = some p) (hfin : s.crews[c].fin = .idle) (hhs : s.crews[c].hs = true) (hrejoin : s.crews[c].rejoin = 0)
    (hleave : s.pointing.leaving = []) (hlate : ∀ j : Fin 4, s.pointing.clusters[j].late = false)
    (hroom : ∀ j : Fin 4, (ihClusters (imageOf s p l).1).testBit j.val = true →
      ihCores (imageOf s p l).1 j ≤ (freeCores s j).length ∧ usedFoot s j + ihFoot (imageOf s p l).1 ≤ 8388608) :
    ∃ g, exec (.attemptStart c) s = .next (castReady (updCrew s c g)) ∧ Begins g (newAttempt s c p l) := by
  have hon' : ∀ j ∈ (List.finRange 4).filter fun j => (ihClusters (imageOf s p l).1).testBit j.val,
      (ihClusters (imageOf s p l).1).testBit j.val = true := fun j hj => (List.mem_filter.1 hj).2
  have hexec : exec (.attemptStart c) s = execAttemptStart c s := rfl
  rw [hexec]
  unfold execAttemptStart
  rw [powered_on hon, hl, ho]
  dsimp only
  rw [if_neg (by rw [hfin, hhs, hrejoin]; decide), if_neg, if_neg, leaveCourses_none hleave, ite_self, if_neg]
  · exact ⟨_, rfl, ⟨fun _ => rfl, fun _ => rfl, fun _ => rfl, fun _ => rfl, fun _ => ⟨rfl, rfl⟩⟩⟩
  · rw [Bool.not_eq_true, List.any_eq_false]
    exact fun j _ => by rw [hlate j]; exact Bool.false_ne_true
  · rw [Bool.not_eq_true, List.any_eq_false]
    intro j hj hbad
    obtain ⟨hc, hf⟩ := hroom j (hon' j hj)
    simp only [Bool.or_eq_true, decide_eq_true_eq] at hbad
    omega
  · rw [Bool.not_eq_true, List.any_eq_false]
    intro j hj hbad
    have := (hroom j (hon' j hj)).1.trans (freeCores_le s j)
    exact absurd (of_decide_eq_true hbad) (Nat.not_lt.2 this)

/-- A Crew that starts an attempt is calm. -/
theorem castReady_begins {s : State} {c : Fin 16} {g : Crew → Crew} {a : Attempt} (h : Calm s) (hg : Begins g a) (he : a.ended = false) (hv : a.voteCmd = none) :
    castReady (updCrew s c g) = updCrew s c g := by
  refine castReady_of_calm _ ⟨fun d => ?_, h.2⟩
  by_cases hd : d = c
  · subst hd
    rw [updCrew_same, crewCalm_iff, (hg.ops _).1, (hg.ops _).2, hg.attempt, hg.fin]
    exact ⟨((crewCalm_iff _).1 (h.1 d)).1, fun b hb => by cases hb; exact ⟨he, hv, by decide⟩⟩
  · rw [updCrew_other _ _ _ _ hd]
    exact h.1 d

/-- The cores of a new attempt are at its start. -/
theorem newAttempt_cores {s : State} {c : Fin 16} {p : Fin 8} {l : LaunchRun} {n : Nat} (hn : s.crews[c].nextAttempt = n) {x : CoreRun}
    (hx : x ∈ (newAttempt s c p l).cores) : ∃ j i lc, x = startCore (imageOf s p l).1 l c n j i lc := by
  subst hn
  unfold newAttempt imageOf at hx
  dsimp only at hx
  unfold imageOf
  obtain ⟨j, -, hj⟩ := List.mem_flatMap.1 hx
  obtain ⟨⟨lc, i⟩, -, rfl⟩ := List.mem_map.1 hj
  exact ⟨j, i, lc, rfl⟩

theorem newAttempt_fresh (s : State) (c : Fin 16) (p : Fin 8) (l : LaunchRun) : (newAttempt s c p l).ended = false ∧ (newAttempt s c p l).voteCmd = none := ⟨rfl, rfl⟩

/-- Where a core starts and with which arguments (R233). -/
theorem startCore_state (h : List Byte) (l : LaunchRun) (c : Fin 16) (number : Nat) (j : Fin 4) (i lc : Nat) :
    let x := startCore h l c number j i lc
    x.ended = false ∧ x.issued = 0 ∧ x.pc = BitVec.ofNat 64 (ihEntry h) ∧ x.xregs.getD 12 0 = l.stroke.setWidth 64 ∧
      x.xregs.getD 13 0 = BitVec.ofNat 64 number ∧ x.xregs.getD 15 0 = BitVec.ofNat 64 c := ⟨rfl, rfl, rfl, rfl, rfl, rfl⟩

/-! ## The VOTE (R233, R328) -/

/-- The attempt with the account of its VOTE's store and the VOTE noted. -/
def withVote (a : Attempt) (c : Fin 16) (w : Who) (k : CoreRun) (v : Cmd) : Attempt :=
  { a with
    inFlight := a.inFlight + 1
    cores := a.cores.map fun x =>
      if x.cluster = k.cluster ∧ x.lcore = k.lcore then { x with issued := k.issued + 1, consumed := w.consumed } else x
    voteCmd := some (v, coreIssuer c a k) }

/-- The attempt whose noted VOTE is cast at a time. -/
def votedAt (a : Attempt) (v : Cmd) (now : U64) : Attempt := { a with voted := true, tVote := now, user := BitVec.ofNat 64 (fld v 191 128) }

section
variable {s t : State} {c : Fin 16} {a b : Attempt} {w : Who} {k : CoreRun} {v : Cmd} {p : Fin 8}

theorem bookIssue_withVote (ha : s.crews[c].attempt = some a) :
    (updAttempt (bookIssue s c w k) c fun x => { x with voteCmd := some (v, coreIssuer c a k) }) = updAttempt s c fun _ => withVote a c w k v := by
  unfold bookIssue
  rw [updAttempt_twice]
  exact updAttempt_const ha _

theorem exec_vote (h : CoreMay s w c p a k) (hheld : a.held = []) (hop : fld v 7 0 = 0x54) (hrsv : rsvSet v voteRsv = false)
    (hcrew : fld v 11 8 = c.val) (hlayer : fld v 79 64 ≤ 4095) : exec (.vote w v) s = .next (castReady (updAttempt s c fun _ => withVote a c w k v)) := by
  have ha := findCore_attempt h.core
  have hissue : issueVote (bookIssue s c w k) c v (coreIssuer c a k) = updAttempt s c fun _ => withVote a c w k v := by
    unfold issueVote
    dsimp only
    rw [hrsv, bookIssue_withVote ha, updAttempt_crew ha, if_neg Bool.false_ne_true, if_neg (by simp [hcrew, hlayer])]
    exact if_pos (by rw [show (withVote a c w k v).held = [] from hheld]; rfl)
  show powered s _ = _
  rw [powered_on h.on]
  unfold riggerPort
  dsimp only
  rw [issueStore_of_may h rfl, if_pos hop, hissue]

/-- A VOTE that is not cast yet is noted, and nothing follows. -/
theorem exec_vote_noted (h : CoreMay s w c p a k) (hdec : s.crews[c].decision = none) (hheld : a.held = []) (hop : fld v 7 0 = 0x54)
    (hrsv : rsvSet v voteRsv = false) (hcrew : fld v 11 8 = c.val) (hlayer : fld v 79 64 ≤ 4095)
    (hwait : 0 < a.inFlight ∨ a.voted = true ∨ s.crews[c].fin ≠ .running) :
    exec (.vote w v) s = .next (updAttempt s c fun _ => withVote a c w k v) := by
  have ha := findCore_attempt h.core
  obtain ⟨⟨hops, hwaiting⟩, halive⟩ := (crewCalm_iff _).1 (h.calm.1 c)
  obtain ⟨hended, -, hfin⟩ := halive a ha
  have hgo : ¬ (withVote a c w k v).ended = true := by rw [show (withVote a c w k v).ended = false from hended]; exact Bool.false_ne_true
  have hT := updAttempt_crew ha (withVote a c w k v)
  rw [exec_vote h hheld hop hrsv hcrew hlayer]
  refine congrArg Host.Outcome.next (castReady_one (settleCrew_settles (a := withVote a c w k v) (b := withVote a c w k v)
    ⟨by rw [hT], by rw [hT]; exact ⟨List.isEmpty_iff.1 hops, List.isEmpty_iff.1 hwaiting⟩, castIfReady_none ?_, by rw [hT], by rw [hT]; exact hfin,
      by rw [hT]; exact hdec, fun he => absurd he hgo, fun he => absurd he hgo⟩) (fun d hd => ?_) (fun _ _ => rfl) h.calm.2)
  · rcases hwait with hf | hv | hr
    · exact .inl (attemptQuiet_busy (Nat.succ_lt_succ hf))
    · exact .inr (.inl hv)
    · exact .inr (.inr (by rw [hT]; exact hr))
  · rw [updAttempt, updCrew_other _ _ _ _ hd]
    exact h.calm.1 d

/-- Where the member has a combiner above it, its vote ends there or waits for votes of its own group. -/
theorem climbVotes_combiner (s : State) (c : Fin 16) {ls : List Nat} (h : ∃ l ∈ ls, digit (crewG s c) (myRank s c) l ≠ 0) (v : VoteBody) :
    (∃ u l, climbVotes s c ls v = (u, some l, true)) ∨ ∃ u, climbVotes s c ls v = (u, none, false) := by
  induction ls generalizing v with
  | nil =>
    obtain ⟨l, hl, -⟩ := h
    exact absurd hl List.not_mem_nil
  | cons l ls ih =>
    unfold climbVotes
    dsimp only
    by_cases hd : digit (crewG s c) (myRank s c) l = 0
    · rw [if_neg (not_not.2 hd)]
      split
      · obtain ⟨m, hm, hdm⟩ := h
        rcases List.mem_cons.1 hm with rfl | hm
        · exact absurd hd hdm
        · exact ih ⟨m, hm, hdm⟩ _
      · exact .inr ⟨_, rfl⟩
    · rw [if_pos hd]
      exact .inl ⟨_, _, rfl⟩

theorem combinerOf_level {r : Nat} (h : combinerOf s c = some r) : ∃ l ∈ levelsIn (crewG s c), digit (crewG s c) (myRank s c) l ≠ 0 := by
  obtain ⟨l, hl, -⟩ := Option.map_eq_some_iff.1 h
  exact ⟨l, List.mem_of_find?_eq_some hl, by simpa using List.find?_some hl⟩

/-- Of the Crews, only the times at which one sent to its ranks differ. -/
def OnlySent (s t : State) (c : Fin 16) : Prop := ∃ l, t.crews = s.crews.set c { s.crews[c] with sent := l }

theorem onlySent_of_crews (h : t.crews = s.crews) : OnlySent s t c := ⟨s.crews[c].sent, h.trans (Vector.set_getElem_self _).symm⟩

theorem OnlySent.other (h : OnlySent s t c) {d : Fin 16} (hd : d ≠ c) : t.crews[d] = s.crews[d] := by
  obtain ⟨l, hl⟩ := h
  rw [hl]
  exact updCrew_other s c d (fun k => { k with sent := l }) hd

theorem OnlySent.own (h : OnlySent s t c) : ∃ l, t.crews[c] = { s.crews[c] with sent := l } := by
  obtain ⟨l, hl⟩ := h
  rw [hl]
  exact ⟨l, updCrew_same s c fun k => { k with sent := l }⟩

theorem noteSent_onlySent (h : t.crews = s.crews) (r : Nat) : OnlySent s (noteSent t c r) c := by
  unfold OnlySent noteSent updCrew
  dsimp only
  rw [h]
  exact ⟨_, rfl⟩

/-- A packet to a rank changes no Crew but the times its own sent at. -/
theorem sendRank_onlySent (s : State) (c : Fin 16) (r type : Nat) (endc : Option (BitVec 64)) (offset msg xtag : Nat) (payload : List Byte) :
    OnlySent s (sendRank s c r type endc offset msg xtag payload).1 c := by
  have hcrews : (sendPacket s (rankMid s c r) type endc (crewTag s c) offset msg xtag payload (0, 0)).1.crews = s.crews :=
    sendPacket_frames.same .crews rfl
  unfold sendRank
  dsimp only
  generalize sendPacket s (rankMid s c r) type endc (crewTag s c) offset msg xtag payload (0, 0) = S at hcrews
  by_cases hok : S.2 = true
  · rw [if_pos hok]
    exact noteSent_onlySent hcrews r
  · rw [if_neg hok]
    exact onlySent_of_crews hcrews

/-- A vote that goes up to a combiner changes no Crew but the times its own sent at. -/
theorem voteUp_onlySent (ha : s.crews[c].attempt = some a) {r : Nat} (hr : combinerOf s c = some r) : OnlySent s (voteUp s c) c := by
  unfold voteUp
  rw [ha]
  dsimp only
  split
  · exact onlySent_of_crews rfl
  · unfold topVote
    rcases climbVotes_combiner s c (combinerOf_level hr) (ownVote s c a) with ⟨u, l, h⟩ | ⟨u, h⟩
    · rw [h]
      exact sendRank_onlySent ..
    · rw [h]
      exact onlySent_of_crews rfl

/-- The Crew at the moment it casts the VOTE of an attempt whose program has not faulted. -/
theorem castVote_crews (ha : s.crews[c].attempt = some a) (hfault : a.faulted = false) (hv : a.voteCmd.map Prod.fst = some v) {r : Nat} (hr : combinerOf s c = some r) :
    ∃ t, OnlySent t (castVote s c) c ∧ (∀ d, d ≠ c → t.crews[d] = s.crews[d]) ∧
      t.crews[c] = { s.crews[c] with fin := .voting, attempt := some (votedAt a v s.now) } := by
  obtain ⟨⟨v', iss⟩, hcmd, rfl⟩ := Option.map_eq_some_iff.1 hv
  unfold castVote
  dsimp only
  generalize hU : updCrew s c _ = U
  have hcrew : U.crews[c] = { s.crews[c] with fin := .voting, attempt := some (votedAt a v' s.now) } := by
    rw [← hU, updCrew_same, ha, Option.map_some]
    unfold votedAt
    rw [hfault, hcmd]
    rfl
  have hr' : combinerOf U c = some r := by
    unfold combinerOf myRank
    rw [hcrew, ← hU]
    exact hr
  exact ⟨U, voteUp_onlySent (by rw [hcrew]) hr', fun d hd => by rw [← hU, updCrew_other _ _ _ _ hd], hcrew⟩

theorem castIfReady_withVote (ha : s.crews[c].attempt = some a) (hcast : a.inFlight = 0) (hvoted : a.voted = false) (hout : a.voteOut = false) (hfin : s.crews[c].fin = .running) :
    castIfReady (updAttempt s c fun _ => withVote a c w k v) c (withVote a c w k v) = castVote (updAttempt s c fun _ => withVote a c w k v) c := by
  unfold castIfReady attemptQuiet voteOwed
  rw [updAttempt_crew ha]
  refine if_pos ?_
  dsimp only
  rw [hfin]
  simp [withVote, hcast, hvoted, hout]

/-- With no other command in flight the VOTE is cast: the Crew is VOTING, and its vote is on its way to its combiner. -/
theorem exec_vote_cast (h : CoreMay s w c p a k) (hdec : s.crews[c].decision = none) (hheld : a.held = []) (hop : fld v 7 0 = 0x54)
    (hrsv : rsvSet v voteRsv = false) (hcrew : fld v 11 8 = c.val) (hlayer : fld v 79 64 ≤ 4095) (hflight : a.inFlight = 0) (hvoted : a.voted = false)
    (hout : a.voteOut = false) (hfault : a.faulted = false) (hfin : s.crews[c].fin = .running) {r : Nat} (hr : combinerOf s c = some r) :
    ∃ t, exec (.vote w v) s = .next t ∧ SameBut [.rigger, .crews, .dict, .counters, .out] s t ∧ (∀ d, d ≠ c → t.crews[d] = s.crews[d]) ∧
      t.crews[c].fin = .voting ∧ t.crews[c].attempt = some (votedAt (withVote a c w k v) v s.now) := by
  have ha := findCore_attempt h.core
  obtain ⟨⟨hops, hwaiting⟩, halive⟩ := (crewCalm_iff _).1 (h.calm.1 c)
  obtain ⟨hended, -, -⟩ := halive a ha
  have hgo : ¬ a.ended = true := by rw [hended]; exact Bool.false_ne_true
  have hcast := castIfReady_withVote (w := w) (k := k) (v := v) ha hflight hvoted hout hfin
  have hT := updAttempt_crew ha (withVote a c w k v)
  have hTother : ∀ d, d ≠ c → (updAttempt s c fun _ => withVote a c w k v).crews[d] = s.crews[d] := fun d hd => updCrew_other _ _ _ _ hd
  have hTbut := updAttempt_but s c fun _ => withVote a c w k v
  have hrT : combinerOf (updAttempt s c fun _ => withVote a c w k v) c = some r := by
    unfold combinerOf myRank
    rw [hT]
    exact hr
  rw [exec_vote h hheld hop hrsv hcrew hlayer]
  have hnow : (updAttempt s c fun _ => withVote a c w k v).now = s.now := rfl
  generalize (updAttempt s c fun _ => withVote a c w k v) = T at *
  obtain ⟨U, hsent, hUother, hU⟩ := castVote_crews (a := withVote a c w k v) (v := v) (by rw [hT]) hfault rfl hrT
  obtain ⟨l, hV⟩ := hsent.own
  rw [hU, hT, hnow] at hV
  have hVother : ∀ d, d ≠ c → (castVote T c).crews[d] = T.crews[d] := fun d hd => (hsent.other hd).trans (hUother d hd)
  have hbut : SameBut [.rigger, .crews, .dict, .counters, .out] s (castVote T c) :=
    sameBut_then (sameBut_le hTbut _ rfl) (castVote_frames.sameBut [.rigger, .crews, .dict, .counters, .out] rfl) rfl
  have hhost : (castVote T c).host = s.host := hbut.2 .host (by decide)
  have hsettle : settleCrew T c = castVote T c := settleCrew_settles (a := withVote a c w k v) (b := votedAt (withVote a c w k v) v s.now)
    ⟨by rw [hT], by rw [hT]; exact ⟨List.isEmpty_iff.1 hops, List.isEmpty_iff.1 hwaiting⟩, hcast, by rw [hV],
      by rw [hV]; exact (by decide : FinState.voting ≠ .unresolved),
      by rw [hV]; exact hdec, fun he => absurd he hgo, fun he => absurd he hgo⟩
  rw [castReady_one hsettle (fun d hd => by rw [hTother d hd]; exact h.calm.1 d) hVother (fun f => by rw [hhost]; exact h.calm.2 f)]
  exact ⟨_, rfl, hbut, fun d hd => (hVother d hd).trans (hTother d hd), by rw [hV], by rw [hV]⟩

end

/-- Settles O39: the attempt starts on its cores with their arguments; what follows the end of a core, a fault or a VOTE is what this one Crew does,
since every other is calm, and cluster memory is reached by no other unit. -/
theorem attemptsAndCores : Obligations.AttemptsAndCores := by
  unfold Obligations.AttemptsAndCores
  intro s c w a k
  refine ⟨fun l p hon hcalm hl ho hfin hhs hrejoin hleave hlate => ?_, fun hcore h => ?_, fun p x hon hcore ho => ?_,
    fun p v h hdec hheld hop hrsv hcrew hlayer => ?_⟩
  · intro h hroom
    obtain ⟨g, hexec, hg⟩ := exec_attemptStart hon hl ho hfin hhs hrejoin hleave hlate hroom
    rw [castReady_begins hcalm hg rfl rfl] at hexec
    refine ⟨_, hexec, updCrew_but s c g, fun d hd => updCrew_other _ _ _ _ hd, ?_⟩
    rw [updCrew_same]
    refine ⟨hg.attempt _, hg.fin _, hg.decision _, hg.nextAttempt _, fun x hx => ?_⟩
    obtain ⟨j, i, lc, rfl⟩ := newAttempt_cores rfl hx
    exact startCore_state h l c _ j i lc
  · exact ⟨exec_coreEcall_goesOn h hcore, exec_coreEcall_last h hcore, exec_coreEcall_unvoted h hcore, exec_coreTrap_trap h hcore⟩
  · exact ⟨fun code n hn hx => exec_coreTrap_load hon hcore ho code hn hx, fun bs hx hbs => exec_coreTrap_store hon hcore ho hx hbs⟩
  · have ha := findCore_attempt h.core
    refine ⟨fun hwait => ?_, fun hflight hvoted hout hfault hfin ⟨r, hr⟩ => ?_⟩
    · rw [bookIssue_withVote ha]
      exact exec_vote_noted h hdec hheld hop hrsv hcrew hlayer hwait
    · obtain ⟨t, hexec, hbut, hother, hvoting, hatt⟩ := exec_vote_cast h hdec hheld hop hrsv hcrew hlayer hflight hvoted hout hfault hfin hr
      refine ⟨t, hexec, hbut, hother, hvoting, hatt.trans ?_⟩
      unfold bookIssue
      rw [updAttempt_twice, updAttempt_const ha, updAttempt_crew ha]
      rfl

end Sys2Proof.Machine
end

section
/-! The ALIGN words of a port that comes UP (R240, R245). -/

namespace Sys2Proof.Machine

open Sys2Proof

/-- A control word carries its PARAM in bits 167:164 (R244). -/
theorem ctParam_mkCtl (ctype : Nat) (ackseq : BitVec 24) (cred0 cred1 : BitVec 16) (aux tdist val0 val1 : Nat) {param : Nat} (h : param < 16) :
    ctParam (mkCtl ctype ackseq cred0 cred1 aux tdist param val0 val1) = param := by
  unfold ctParam fld mkCtl place
  dsimp only
  generalize hc : (crc32c _).toNat = crc
  have hcrc : crc < 2 ^ 32 := hc ▸ BitVec.isLt _
  have hval0 := Nat.mod_lt val0 (Nat.two_pow_pos 64)
  have hval1 := Nat.mod_lt val1 (Nat.two_pow_pos 64)
  simp only [BitVec.toNat_ofNat, Nat.shiftLeft_eq, Nat.shiftRight_eq_div_pow] at *
  omega

/-- The PARAM of a control word that leaves the module. -/
def sentParam : Out → Option Nat
  | .control _ _ w => some (ctParam w)
  | _ => none

/-- What has left the module in the next state. -/
def sentBy : Host.Outcome State Fault Refusal → List Out
  | .next t => t.out
  | _ => []

/-- Port 0 comes UP after a cold start: an ALIGN leaves on each of its four lanes, the latest first, and its PARAM is the lane (R245). -/
theorem alignParams_of_reset : (sentBy (exec (.portRetrain 0) State.reset)).map sentParam = [some 3, some 2, some 1, some 0] := by
  decide +kernel

/-- Refutes O45: R245 has an ALIGN's logical lane in PARAM, and so does what PORT_RETRAIN sends; the statement has it in AUX, with PARAM 0. On
lane 3 of port 0 after a cold start they differ. -/
theorem not_portsAndLanes : ¬ Obligations.PortsAndLanes := by
  unfold Obligations.PortsAndLanes
  intro h
  obtain ⟨-, hretrain, -⟩ := h State.reset 0 0 (by decide +kernel)
  obtain ⟨t, hexec, -, -, hout⟩ := hretrain (by decide +kernel) (by decide +kernel) (by decide +kernel) (by decide +kernel)
  have hlanes : (List.finRange 4).filter (fun l : Fin 4 => !(State.reset.rigger.ports[(0 : Fin 16)]).dark.contains l.val) = [0, 1, 2, 3] := by
    decide +kernel
  rw [hlanes] at hout
  have hsent := alignParams_of_reset
  rw [hexec] at hsent
  have hstated : ctParam (wordOf t 0 3 3 0 0 (ownMid State.reset)) = 3 := by
    have hlast := congrArg List.head? (show t.out.map sentParam = [some 3, some 2, some 1, some 0] from hsent)
    rw [hout] at hlast
    exact Option.some.inj (Option.some.inj hlast)
  exact absurd ((ctParam_mkCtl _ _ _ _ _ _ _ _ (by decide)).symm.trans hstated) (by decide)

end Sys2Proof.Machine
end

section
/-! One tick of TCLK with no command waiting (R258, R260, log 24, log 42): the errors that may arise, the servo's slewing, the requests that wait
at the regulators, and the trace of the control cores. -/

namespace Sys2Proof.Machine

open Sys2Proof

/-! ## Errors that may arise -/

/-- What an error that arises can be: a word of a Pallet or a sector of a stack is marked, a flit is counted, flash fails; or there is none. -/
theorem errorArises_cases (s : State) (v : U64) :
    (∃ n, ∃ ce ue : Pallet → List Nat, errorArises s v = updPallet s n fun p => { p with ce := ce p, ue := ue p }) ∨
    (∃ ce ue, errorArises s v = { s with hbm := { s.hbm with ce := ce, ue := ue } }) ∨
    errorArises s v = ctrAdd s 0 0x1900 3 1 ∨ errorArises s v = flashFails s ∨ errorArises s v = s := by
  unfold errorArises
  dsimp only
  split
  · exact .inl ⟨_, _, _, rfl⟩
  · exact .inl ⟨_, _, _, rfl⟩
  · exact .inr (.inl ⟨_, _, rfl⟩)
  · exact .inr (.inl ⟨_, _, rfl⟩)
  · split
    · exact .inr (.inr (.inl rfl))
    · exact .inr (.inr (.inr (.inr rfl)))
  · exact .inr (.inr (.inr (.inl rfl)))
  · exact .inr (.inr (.inr (.inr rfl)))

/-- An error marks a word of a Pallet, and its bytes stand (R116). -/
theorem errorArises_pallets (s : State) (v : U64) (n : Fin 8) : (errorArises s v).pallets[n] =
    { s.pallets[n] with ce := (errorArises s v).pallets[n].ce, ue := (errorArises s v).pallets[n].ue } := by
  rcases errorArises_cases s v with ⟨m, ce, ue, h⟩ | ⟨ce, ue, h⟩ | h | h | h
  · rw [h]
    by_cases e : n = m
    · subst e
      rw [updPallet_same]
    · rw [updPallet_other _ _ _ _ e]
  · rw [h]
  · rw [h, ctrAdd_pallets]
  · rw [h, flashFails_frames.pallets rfl]
  · rw [h]

/-- An error marks a sector of a stack, and its bytes stand (R152, R153). -/
theorem errorArises_hbm (s : State) (v : U64) :
    (errorArises s v).hbm = { s.hbm with ce := (errorArises s v).hbm.ce, ue := (errorArises s v).hbm.ue } := by
  rcases errorArises_cases s v with ⟨m, ce, ue, h⟩ | ⟨ce, ue, h⟩ | h | h | h
  · rw [h, updPallet_hbm]
  · rw [h]
  · rw [h, ctrAdd_hbm]
  · rw [h, flashFails_frames.hbm rfl]
  · rw [h]

/-- Flash that fails keeps the repair map of that moment; where it had failed before, nothing changes (R419). -/
theorem flashFails_pointing (s : State) : (flashFails s).pointing = { s.pointing with flashMap := (flashFails s).pointing.flashMap } ∧
    (s.dict.flashBad = (flashFails s).dict.flashBad → (flashFails s).pointing = s.pointing) := by
  unfold flashFails
  split
  · exact ⟨rfl, fun _ => rfl⟩
  next hgood => exact ⟨rfl, fun hbad => absurd hbad hgood⟩

theorem errorArises_pointing (s : State) (v : U64) :
    (errorArises s v).pointing = { s.pointing with flashMap := (errorArises s v).pointing.flashMap } ∧
      (s.dict.flashBad = (errorArises s v).dict.flashBad → (errorArises s v).pointing = s.pointing) := by
  rcases errorArises_cases s v with ⟨m, ce, ue, h⟩ | ⟨ce, ue, h⟩ | h | h | h
  · rw [h]
    exact ⟨rfl, fun _ => rfl⟩
  · rw [h]
    exact ⟨rfl, fun _ => rfl⟩
  · rw [h]
    exact ⟨rfl, fun _ => rfl⟩
  · rw [h]
    exact flashFails_pointing s
  · rw [h]
    exact ⟨rfl, fun _ => rfl⟩

/-! ## The servo's slewing -/

/-- In the tick that is not the 5,000th, or with no offset left, the timebase goes on by 1 ns (R260). -/
theorem slewTick_plain {s : State} (h : s.rigger.sync.phase + 1 < 5000 ∨ s.rigger.sync.slew = 0) :
    (slewTick s).now = s.now + 1 ∧ (slewTick s).rigger.sync.slew = s.rigger.sync.slew := by
  have hdue : (decide (s.rigger.sync.phase + 1 ≥ 5000) && decide (s.rigger.sync.slew ≠ 0)) = false := by
    rcases h with h | h
    · simp [Nat.not_le.2 h]
    · simp [h]
  unfold slewTick
  simp only [hdue]
  exact ⟨rfl, rfl⟩

theorem slewTick_due {s : State} (h : 5000 ≤ s.rigger.sync.phase + 1) :
    (0 < s.rigger.sync.slew → (slewTick s).now = s.now + 2 ∧ (slewTick s).rigger.sync.slew = s.rigger.sync.slew - 1) ∧
      (s.rigger.sync.slew < 0 → (slewTick s).now = s.now ∧ (slewTick s).rigger.sync.slew = s.rigger.sync.slew + 1) := by
  have hdue : s.rigger.sync.slew ≠ 0 → (decide (s.rigger.sync.phase + 1 ≥ 5000) && decide (s.rigger.sync.slew ≠ 0)) = true := fun hz => by
    simp [h, hz]
  unfold slewTick
  refine ⟨fun hpos => ?_, fun hneg => ?_⟩
  · simp only [hdue (by omega), gt_iff_lt, hpos, if_true]
    exact ⟨rfl, trivial⟩
  · have hnot : ¬ 0 < s.rigger.sync.slew := by omega
    simp only [hdue (by omega), gt_iff_lt, hnot, if_true, if_false]
    exact ⟨BitVec.add_zero _, trivial⟩

theorem slewTick_rigger (s : State) : (slewTick s).rigger = { s.rigger with sync := { s.rigger.sync with
    phase := if s.rigger.sync.phase + 1 ≥ 5000 then 0 else s.rigger.sync.phase + 1, slew := (slewTick s).rigger.sync.slew } } := rfl

/-! ## The regulators -/

theorem serveRegs_idle {s : State} (h : s.hbm.waits = []) : serveRegs s = s := by
  unfold serveRegs
  simp [h]

/-- The regulators change their buckets and the requests that wait, and nothing else of HBM (R150). -/
theorem serveRegs_hbm (s : State) : (serveRegs s).hbm = { s.hbm with buckets := (serveRegs s).hbm.buckets, waits := (serveRegs s).hbm.waits } := by
  unfold serveRegs
  split
  · rfl
  · obtain ⟨k, hk⟩ := servePass_hbm false s ((s.hbm.waits.map (regAged s)).zipIdx)
    obtain ⟨j, hj⟩ := servePass_hbm true (servePass false s ((s.hbm.waits.map (regAged s)).zipIdx)).1
      (drrOrder (servePass false s ((s.hbm.waits.map (regAged s)).zipIdx)).2)
    dsimp only
    rw [hj, hk]

theorem regServe_trace (s : State) (w : RegWait) (g : Bool) : (regServe s w g).counters.trace = s.counters.trace := by
  unfold regServe
  cases w.part <;> rfl

theorem servePass_trace (b : Bool) (s : State) (l : List (RegWait × Nat)) : (servePass b s l).1.counters.trace = s.counters.trace := by
  unfold servePass
  refine List.foldlRecOn (motive := fun acc : State × List (RegWait × Nat) => acc.1.counters.trace = s.counters.trace) _ _ rfl ?_
  rintro acc hacc x -
  dsimp only
  split
  · exact (regServe_trace _ _ _).trans hacc
  · exact hacc

theorem serveRegs_trace (s : State) : (serveRegs s).counters.trace = s.counters.trace := by
  unfold serveRegs
  split
  · rfl
  · exact (servePass_trace _ _ _).trans (servePass_trace _ _ _)

/-! ## The trace -/

/-- Of the counters only the trace is different, and flash takes writes as before. -/
def TraceOnly (s t : State) : Prop := t.counters = { s.counters with trace := t.counters.trace } ∧ t.dict.flashBad = s.dict.flashBad

theorem TraceOnly.refl (s : State) : TraceOnly s s := ⟨rfl, rfl⟩

theorem TraceOnly.trans {s t u : State} (h : TraceOnly s t) (k : TraceOnly t u) : TraceOnly s u :=
  ⟨by rw [k.1, h.1], k.2.trans h.2⟩

theorem spillPut_traceOnly (s : State) (bs : List Byte) : TraceOnly s (spillPut s bs) := ⟨rfl, rfl⟩

theorem traceLeave_traceOnly (s : State) (x : Nat × Nat × Nat) : TraceOnly s (traceLeave s x) := ⟨rfl, rfl⟩

/-- Reading a program counter spends at most a free value. -/
theorem pcInRange_traceOnly (s : State) (k : Nat) : TraceOnly s (pcInRange s k).2 := by
  unfold pcInRange
  dsimp only
  split <;> exact ⟨rfl, rfl⟩

theorem traceEnter_traceOnly (s : State) (x : Nat × Nat × Nat) : TraceOnly s (traceEnter s x) := by
  unfold traceEnter
  dsimp only
  split
  · exact pcInRange_traceOnly s x.1
  · exact (pcInRange_traceOnly s x.1).trans ⟨rfl, rfl⟩

theorem traceStay_traceOnly (now : List (Nat × Nat × Nat)) (s : State) (x : Nat × Nat × Nat) : TraceOnly s (traceStay now s x) := by
  unfold traceStay
  dsimp only
  split
  · exact traceLeave_traceOnly s x
  · split
    · exact pcInRange_traceOnly s x.1
    · exact (pcInRange_traceOnly s x.1).trans (traceLeave_traceOnly _ x)

theorem foldl_traceOnly {f : State → Nat × Nat × Nat → State} (hf : ∀ t x, TraceOnly t (f t x)) (l : List (Nat × Nat × Nat)) (s : State) :
    TraceOnly s (l.foldl f s) :=
  List.foldlRecOn (motive := TraceOnly s) _ _ (.refl s) fun _ hu x _ => hu.trans (hf _ x)

theorem traceTick_traceOnly (s : State) : TraceOnly s (traceTick s) := by
  unfold traceTick
  split
  · exact .refl s
  · exact (foldl_traceOnly (traceStay_traceOnly _) _ _).trans (foldl_traceOnly traceEnter_traceOnly _ _)

theorem traceTick_off {s : State} (h : s.counters.trace.state ≠ 1) : traceTick s = s := by
  unfold traceTick
  rw [if_pos h]

/-! ## The tick -/

/-- The state of a tick in which a free value has been spent on the error that may arise. -/
def tickErred (s : State) : State := errorArises (fresh s).2 (fresh s).1

/-- The state of a tick in which the waiting requests have been served, before the trace looks at it. -/
def tickServed (s : State) : State := serveRegs (slewTick (tickErred s))

theorem tick_on {s : State} (hon : s.power.on = true) : tick s = traceTick (tickServed s) := by
  unfold tick
  rw [hon]
  rfl

theorem tickServed_trace (s : State) : (tickServed s).counters.trace = s.counters.trace := by
  rw [tickServed, serveRegs_trace, slewTick_frames.counters rfl, tickErred, errorArises_frames.counters rfl, fresh_counters]

/-- Without a running trace the tick ends with the requests served. -/
theorem tick_untraced {s : State} (hon : s.power.on = true) (h : s.counters.trace.state ≠ 1) : tick s = tickServed s := by
  rw [tick_on hon, traceTick_off (by rwa [tickServed_trace])]

/-- The timebase and the Rigger are what the servo's slewing makes of them. -/
theorem tick_slewed {s : State} (hon : s.power.on = true) :
    (tick s).now = (slewTick s).now ∧ (tick s).rigger = (slewTick s).rigger := by
  have hnow : (tickErred s).now = s.now := errorArises_frames.now rfl
  have hrigger : (tickErred s).rigger = s.rigger := errorArises_frames.rigger rfl
  rw [tick_on hon, traceTick_frames.now rfl, traceTick_frames.rigger rfl, tickServed, serveRegs_frames.now rfl, serveRegs_frames.rigger rfl]
  unfold slewTick
  rw [hnow, hrigger]
  exact ⟨rfl, rfl⟩

/-- The Pallets, flash and its repair map are as the error that may have arisen leaves them. -/
theorem tick_erred {s : State} (hon : s.power.on = true) : (tick s).pallets = (tickErred s).pallets ∧
    (tick s).pointing = (tickErred s).pointing ∧ (tick s).dict.flashBad = (tickErred s).dict.flashBad := by
  obtain ⟨-, hflash⟩ := traceTick_traceOnly (tickServed s)
  rw [tick_on hon, traceTick_frames.pallets rfl, traceTick_frames.pointing rfl, hflash, tickServed, serveRegs_frames.pallets rfl,
    serveRegs_frames.pointing rfl, serveRegs_frames.dict rfl]
  exact ⟨rfl, rfl, rfl⟩

/-- Errors and the regulators change of the stacks only what is marked, the buckets and the requests that wait. -/
theorem tick_hbm {s : State} (hon : s.power.on = true) : (tick s).hbm =
    { s.hbm with ce := (tick s).hbm.ce, ue := (tick s).hbm.ue, buckets := (tick s).hbm.buckets, waits := (tick s).hbm.waits } := by
  have herr : (tickErred s).hbm = { s.hbm with ce := (tickErred s).hbm.ce, ue := (tickErred s).hbm.ue } := errorArises_hbm _ _
  rw [tick_on hon, traceTick_frames.hbm rfl, tickServed, serveRegs_hbm, slewTick_frames.hbm rfl, herr]

/-- Where no request waits, the regulators do nothing. -/
theorem tick_unasked {s : State} (hon : s.power.on = true) (h : s.hbm.waits = []) : (tick s).hbm.buckets = s.hbm.buckets ∧
    (tick s).hbm.waits = [] ∧ (tick s).counters = { s.counters with trace := (tick s).counters.trace } ∧ (tick s).out = s.out := by
  have herr : (tickErred s).hbm = { s.hbm with ce := (tickErred s).hbm.ce, ue := (tickErred s).hbm.ue } := errorArises_hbm _ _
  have hserved : tickServed s = slewTick (tickErred s) := serveRegs_idle (by rw [slewTick_frames.hbm rfl, herr, h])
  obtain ⟨hcounters, -⟩ := traceTick_traceOnly (slewTick (tickErred s))
  rw [tick_on hon, hserved, traceTick_frames.hbm rfl, traceTick_frames.out rfl, slewTick_frames.hbm rfl, slewTick_frames.out rfl, herr]
  refine ⟨rfl, h, ?_, errorArises_frames.out rfl⟩
  rw [hcounters, slewTick_frames.counters rfl, tickErred, errorArises_frames.counters rfl, fresh_counters]

/-- Settles O2: the tick is four effects in turn, and the lemmas above say what each leaves; the frames of the later ones carry it to the end. -/
theorem idleStepIsOneTick : Obligations.IdleStepIsOneTick := by
  unfold Obligations.IdleStepIsOneTick
  intro s hq hon
  obtain ⟨hnow, hrigger⟩ := tick_slewed hon
  obtain ⟨hpallets, hpointing, hflash⟩ := tick_erred hon
  obtain ⟨hmap, hkept⟩ := errorArises_pointing (fresh s).2 (fresh s).1
  refine ⟨tick s, by rw [step, hq], tick_frames.sameBut _ rfl, fun hoff => ?_, ?_, fun hbad => ?_, fun n => ?_, tick_hbm hon, tick_unasked hon,
    fun hoff => ?_, ?_, fun hplain => ?_, fun hdue hpos => ?_, fun hdue hneg => ?_⟩
  · rw [tick_untraced hon hoff, tickServed, serveRegs_frames.free rfl, slewTick_frames.free rfl, tickErred, errorArises_frames.free rfl]
    rfl
  · rw [hpointing]
    exact hmap
  · rw [hpointing]
    exact hkept (hbad.trans hflash)
  · rw [hpallets]
    exact errorArises_pallets _ _ n
  · rw [tick_untraced hon hoff, tickServed_trace]
  · rw [hrigger]
    rfl
  · rw [hnow, hrigger]
    exact slewTick_plain hplain
  · rw [hnow, hrigger]
    exact (slewTick_due hdue).1 hpos
  · rw [hnow, hrigger]
    exact (slewTick_due hdue).2 hneg

end Sys2Proof.Machine
end

section
/-! Control words, retransmission and the reception of packets on a link (R241 to R249, R258, R268). -/

namespace Sys2Proof.Machine

open Sys2Proof

/-! ## Ports -/

theorem updPort_twice (s : State) (p : Fin 16) (g h : Port → Port) : updPort (updPort s p g) p h = updPort s p fun k => h (g k) := by
  unfold updPort
  simp only [Fin.getElem_fin, Vector.getElem_set_self, Vector.set_set]

/-- A change of a port looks at that port alone. -/
theorem updPort_congr {s : State} {p : Fin 16} {g h : Port → Port} (e : g s.rigger.ports[p] = h s.rigger.ports[p]) : updPort s p g = updPort s p h := by
  unfold updPort
  rw [e]

/-- A control word leaves by whatever lane comes next, and nothing is owed then (R247). -/
theorem sendCtl_told (s : State) (p : Fin 16) (ctype aux param val0 val1 : Nat) : sendCtl s p ctype aux param val0 val1 =
    emit (updPort s p Port.told) (.control p none (wordOf s p ctype aux param val0 val1)) := rfl

/-- A word says the same before and after a control word has left. -/
theorem wordOf_told (s : State) (p : Fin 16) (o : Out) (ctype aux param val0 val1 : Nat) :
    wordOf (emit (updPort s p Port.told) o) p ctype aux param val0 val1 = wordOf s p ctype aux param val0 val1 := by
  have hport : (emit (updPort s p Port.told) o).rigger.ports[p] = s.rigger.ports[p].told := updPort_same _ _ _
  unfold wordOf
  rw [hport]
  rfl

/-- With no packet waiting at a port nothing leaves it. -/
theorem flushPort_nothing {s : State} {p : Fin 16} (h : s.rigger.ports[p].waiting = []) : flushPort s p = s := by
  have hrank : ∀ r, flushRank s p r = s := fun r => by
    unfold flushRank
    rw [h]
    rfl
  unfold flushPort
  dsimp only
  rw [hrank, hrank, h]
  rfl

/-! ## Control words -/

/-- A control word with a wrong CRC or type is discarded and counted (R244, R245). -/
theorem withWord_bad {w : Ctl} (h : ctlOk w = false) (s : State) (p : Fin 16) (g : State → State) :
    withWord s p w g = ctrAdd s 0 (0x7100 + p) 0x13 1 := by
  unfold withWord
  rw [h]
  rfl

theorem withWord_good {w : Ctl} (h : ctlOk w = true) (s : State) (p : Fin 16) (g : State → State) : withWord s p w g = g (takeWord s p w) := by
  unfold withWord
  rw [h]
  rfl

/-- What a good control word leaves where no packet waits at its port: the port has taken it, and the upstream is chosen anew. -/
theorem takeWord_quiet {s : State} {p : Fin 16} (h : s.rigger.ports[p].waiting = []) (w : Ctl) :
    takeWord s p w = syncChoose (updPort s p fun k => tookWord k w) := by
  unfold takeWord
  dsimp only
  rw [updPort_same]
  by_cases hup : s.rigger.ports[p].state = .up
  · rw [if_pos (by rw [hup]; rfl)]
    unfold takeAck
    dsimp only
    rw [flushPort_nothing (by rw [updPort_same, updPort_same]; exact h), updPort_twice, updPort_same]
    refine congrArg syncChoose (updPort_congr ?_)
    unfold tookWord
    rw [if_pos hup]
  · rw [if_neg (by simpa using hup)]
    refine congrArg syncChoose (updPort_congr ?_)
    unfold tookWord
    rw [if_neg hup]

theorem takeWord_portOnly {s : State} {p : Fin 16} (h : s.rigger.ports[p].waiting = []) (w : Ctl) :
    PortOnly s (takeWord s p w) p (tookWord s.rigger.ports[p] w) := by
  rw [takeWord_quiet h]
  rfl

theorem takeWord_but {s : State} {p : Fin 16} (h : s.rigger.ports[p].waiting = []) (w : Ctl) : SameBut [.rigger] s (takeWord s p w) := by
  rw [takeWord_quiet h]
  exact (updPort_frames.step syncChoose_frames rfl).sameBut _ rfl

theorem port_of_portOnly {s t : State} {p : Fin 16} {k : Port} (h : PortOnly s t p k) : t.rigger.ports[p] = k := by
  unfold PortOnly at h
  rw [h]
  simp

/-! ## Retransmission (R248) -/

/-- Packets are sent again in order, each counted. -/
def resendAll (s : State) (p : Fin 16) (l : List Kept) : State :=
  l.foldl (fun s x => emit (ctrAdd s 0 (0x7100 + p) 0x12 1) (.packet p x.bytes)) s

theorem resendFrom_resendAll (s : State) (p : Fin 16) (a : BitVec 24) :
    resendFrom s p a = resendAll s p (s.rigger.ports[p].kept.filter fun x => x.lseq = a || serialAfter x.lseq a) := rfl

theorem resendAll_but (s : State) (p : Fin 16) (l : List Kept) : SameBut [.dict, .out] s (resendAll s p l) :=
  Frames.sameBut (m := 540672) (Frames.foldl (Frames.refl _ _) fun _ _ h => (h.step ctrAdd_frames rfl).step emit_frames rfl) _ rfl

theorem resendAll_out (s : State) (p : Fin 16) (l : List Kept) : (resendAll s p l).out = resent p l ++ s.out := by
  induction l generalizing s with
  | nil => rfl
  | cons x l ih =>
    refine (ih _).trans ?_
    simp [resent, emit]

theorem resendAll_counts (s : State) (p : Fin 16) (x : Kept) (l : List Kept) : ctrGet (resendAll s p (x :: l)) 0 (0x7100 + p) 0x12 =
    (ctrGet s 0 (0x7100 + p) 0x12 + (l.length + 1)) % 2 ^ 64 := by
  induction l generalizing s x with
  | nil => exact ctrGet_add_same _ _ _ _ _
  | cons y l ih =>
    have hfirst : ctrGet (emit (ctrAdd s 0 (0x7100 + p) 0x12 1) (.packet p x.bytes)) 0 (0x7100 + p) 0x12 =
        (ctrGet s 0 (0x7100 + p) 0x12 + 1) % 2 ^ 64 := ctrGet_add_same _ _ _ _ _
    refine (ih _ y).trans ?_
    rw [hfirst, Nat.mod_add_mod, List.length_cons]
    congr 1
    omega

/-- A NAK that names a kept packet has the kept packets from it on sent again. -/
theorem nakWord_resends {s : State} {p : Fin 16} {w : Ctl} (hup : s.rigger.ports[p].state = .up)
    (hkept : ∃ x ∈ s.rigger.ports[p].kept, x.lseq = BitVec.ofNat 24 (ctAux w)) : nakWord s p w = resendFrom s p (BitVec.ofNat 24 (ctAux w)) := by
  unfold nakWord
  dsimp only
  rw [if_neg (by rw [hup]; decide), if_pos (by simpa using hkept)]

theorem tookWord_state (k : Port) (w : Ctl) : (tookWord k w).state = k.state := by
  unfold tookWord
  split <;> rfl

/-- NAK (R248). -/
theorem exec_nak_resends {s : State} {p : Fin 16} {w : Ctl} (hon : s.power.on = true) (hgood : ctlOk w = true)
    (hwait : s.rigger.ports[p].waiting = []) (htype : ctType w = 2) (hup : s.rigger.ports[p].state = .up)
    (hkept : ∃ x ∈ (tookWord s.rigger.ports[p] w).kept, x.lseq = BitVec.ofNat 24 (ctAux w)) :
    let l := (tookWord s.rigger.ports[p] w).kept.filter fun x => x.lseq = BitVec.ofNat 24 (ctAux w) || serialAfter x.lseq (BitVec.ofNat 24 (ctAux w))
    ∃ t, exec (.nak p w) s = .next t ∧ SameBut [.rigger, .dict, .out] s t ∧ PortOnly s t p (tookWord s.rigger.ports[p] w) ∧
      t.out = resent p l ++ s.out ∧ ctrGet t 0 (0x7100 + p) 0x12 = (ctrGet s 0 (0x7100 + p) 0x12 + l.length) % 2 ^ 64 := by
  intro l
  have hport := port_of_portOnly (takeWord_portOnly hwait w)
  have hbut := takeWord_but hwait w
  have hresent : nakWord (takeWord s p w) p w = resendAll (takeWord s p w) p l := by
    rw [nakWord_resends (by rw [hport, tookWord_state]; exact hup) (by rw [hport]; exact hkept), resendFrom_resendAll, hport]
  have hexec : exec (.nak p w) s = .next (resendAll (takeWord s p w) p l) := by
    refine (powered_on hon _).trans (congrArg _ ?_)
    rw [withWord_good hgood, if_pos htype, hresent]
  have hrigger := (resendAll_but (takeWord s p w) p l).2 .rigger (by decide)
  refine ⟨_, hexec, sameBut_then (sameBut_le hbut _ rfl) (resendAll_but _ _ _) rfl, ?_, ?_, ?_⟩
  · show (resendAll _ p l).rigger = _
    rw [show (resendAll _ p l).rigger = _ from hrigger]
    exact takeWord_portOnly hwait w
  · rw [resendAll_out, show (takeWord s p w).out = s.out from hbut.2 .out (by decide)]
  · obtain ⟨x, hx, hlseq⟩ := hkept
    obtain ⟨y, m, hl⟩ : ∃ y m, l = y :: m := List.exists_cons_of_ne_nil (List.ne_nil_of_mem (List.mem_filter.2 ⟨hx, by simp [hlseq]⟩))
    rw [hl, resendAll_counts, ctrGet_same_dict (hbut.2 .dict (by decide))]
    rfl

/-- REPLAY_TIMEOUT before the eighth without progress (R248). -/
theorem exec_replayTimeout_resends {s : State} {p : Fin 16} {x : Kept} {l : List Kept} (hon : s.power.on = true)
    (hup : s.rigger.ports[p].state = .up) (hkept : s.rigger.ports[p].kept = x :: l) (hless : s.rigger.ports[p].timeouts + 1 < 8)
    (hafter : ∀ y ∈ l, serialAfter y.lseq x.lseq = true) :
    ∃ t, exec (.replayTimeout p) s = .next t ∧ SameBut [.rigger, .dict, .out] s t ∧
      PortOnly s t p { s.rigger.ports[p] with timeouts := s.rigger.ports[p].timeouts + 1 } ∧ t.rigger.sync = s.rigger.sync ∧
      t.out = resent p (x :: l) ++ s.out ∧ ctrGet t 0 (0x7100 + p) 0x12 = (ctrGet s 0 (0x7100 + p) 0x12 + (l.length + 1)) % 2 ^ 64 := by
  let u := updPort s p fun k => { k with timeouts := k.timeouts + 1 }
  have hall : (u.rigger.ports[p].kept.filter fun y => y.lseq = x.lseq || serialAfter y.lseq x.lseq) = x :: l := by
    have hu : u.rigger.ports[p].kept = x :: l := by rw [updPort_same]; exact hkept
    rw [hu]
    refine List.filter_eq_self.2 fun y hy => ?_
    rcases List.mem_cons.1 hy with rfl | hy
    · simp
    · simp [hafter y hy]
  have hexec : exec (.replayTimeout p) s = .next (resendAll u p (x :: l)) := by
    refine (powered_on hon _).trans (congrArg _ ?_)
    dsimp only
    rw [hup, hkept]
    dsimp only
    rw [if_neg (Nat.not_le.2 hless), resendFrom_resendAll, hall]
  have hrigger : (resendAll u p (x :: l)).rigger = u.rigger := (resendAll_but _ _ _).2 .rigger (by decide)
  refine ⟨_, hexec, sameBut_then (updPort_frames.sameBut [.rigger, .dict, .out] rfl) (resendAll_but _ _ _) rfl, ?_, ?_, resendAll_out _ _ _,
    resendAll_counts _ _ _ _⟩
  · unfold PortOnly
    rw [hrigger]
    rfl
  · rw [hrigger]
    rfl

/-! ## Packets -/

theorem serialAfter_self {n : Nat} (a : BitVec n) : serialAfter a a = false := by
  unfold serialAfter
  simp

/-- A packet arrives: the module is not idle (R431). -/
def awake (s : State) : State := { s with power := { s.power with idle := false } }

theorem awake_frames (s : State) : Frames 32768 s (awake s) := (Frames.refl _ s).set_power rfl

/-- A packet before the expected number is acknowledged and does nothing else (R246). -/
theorem takePacket_duplicate {s : State} {p : Fin 16} {bs : List Byte} (hup : s.rigger.ports[p].state = .up) (hmid : ownMid s ≠ 0xFFFFFFFF)
    (hcrc : pkCrcOk bs = true) (hdup : serialAfter s.rigger.ports[p].rxSeq (pkLseq bs) = true) :
    takePacket s p bs = sendCtl (awake s) p 1 0 0 0 0 := by
  unfold takePacket
  dsimp only
  rw [if_neg (by rw [hup]; simp [hmid]), if_neg (by simp [hcrc]), if_pos hdup]
  rfl

/-- A packet with a wrong CRC is counted and refused with the expected number (R246). -/
theorem takePacket_damaged {s : State} {p : Fin 16} {bs : List Byte} (hup : s.rigger.ports[p].state = .up) (hmid : ownMid s ≠ 0xFFFFFFFF)
    (hcrc : pkCrcOk bs = false) : takePacket s p bs = sendNak (ctrAdd (awake s) 0 (0x7100 + p) 0x13 1) p := by
  unfold takePacket
  dsimp only
  rw [if_neg (by rw [hup]; simp [hmid]), if_pos (by simp [hcrc])]
  rfl

theorem sendNak_first {s : State} {p : Fin 16} (h : s.rigger.ports[p].lastNak = none) : sendNak s p =
    sendCtl (updPort s p fun k => { k with lastNak := some (k.rxSeq, s.now) }) p 2 s.rigger.ports[p].rxSeq.toNat 0 0 0 := by
  unfold sendNak
  dsimp only
  rw [h]
  rfl

/-- What a VOTE or SYNC packet of a member does before its own row: its sender is heard of, and it is counted, as stale where it names another
epoch (R268, R269). -/
def heardPacket (s : State) (c : Fin 16) (r : Nat) (bs : List Byte) : State :=
  if pkOfEpoch s.crews[c].epoch bs = true then ctrAdd (noteHeard s c r) 0 (crewIdx c) 0x22 (pkLen bs)
  else ctrAdd (noteHeard s c r) 0 (crewIdx c) 0x27 1

theorem deliver_heard {s : State} {c : Fin 16} {r : Nat} {bs : List Byte} (p : Fin 16) (hgood : pkMalformed bs = false) (hdst : pkDst bs = ownMid s)
    (htag : tagCrew s (pkCtag bs) = some c) (hrank : midRank s c (pkSrc bs) = some r) (htype : 3 ≤ pkType bs) :
    deliver s p bs = some (heardPacket s c r bs) := by
  unfold deliver heardPacket
  rw [hgood, if_neg Bool.false_ne_true, if_neg (not_not.2 hdst), htag]
  dsimp only
  rw [hrank]
  dsimp only
  by_cases he : pkOfEpoch s.crews[c].epoch bs = true
  · rw [if_neg (by rw [he]; decide), if_pos htype, if_pos he]
  · rw [if_pos (by simpa using he), if_neg he]

/-- An accepted packet has moved the expected number on and is counted; its slots are owed an acknowledgement. -/
def sequenced (s : State) (p : Fin 16) (bs : List Byte) : State :=
  evAdd (ctrAdd (updPort (awake s) p fun k =>
    { k with rxSeq := k.rxSeq + 1, ackOwed := true, slotsIn := s.rigger.ports[p].slotsIn + slotsFor (pkBody bs) }) 0 (0x7100 + p) 0x11 1)
    0x5002 p 0xFF (pkLen bs)

/-- An accepted VOTE or SYNC packet has acted, and its slots are free again. -/
def packetTaken (s : State) (p : Fin 16) (bs : List Byte) (c : Fin 16) (r : Nat) : State := freeSlots (heardPacket (sequenced s p bs) c r bs) p bs

/-- The port of an accepted packet: the expected number has moved on, the slots are free again, and an acknowledgement is owed (R244, R246). -/
def Port.accepted (k : Port) (bs : List Byte) : Port :=
  { k with
    rxSeq := k.rxSeq + 1, ackOwed := true, slotsIn := k.slotsIn + slotsFor (pkBody bs)
    freed0 := if pkHop bs then k.freed0 else k.freed0 + BitVec.ofNat 16 (slotsFor (pkBody bs))
    freed1 := if pkHop bs then k.freed1 + BitVec.ofNat 16 (slotsFor (pkBody bs)) else k.freed1 }

section

variable (s : State) (p c : Fin 16) (r : Nat) (bs : List Byte)

theorem heardPacket_frames : Frames 17408 s (heardPacket s c r bs) :=
  Frames.ite ((noteHeard_frames.mono rfl).step ctrAdd_frames rfl) ((noteHeard_frames.mono rfl).step ctrAdd_frames rfl)

theorem heardPacket_crews : (heardPacket s c r bs).crews = (noteHeard s c r).crews := by
  unfold heardPacket
  split <;> rfl

/-- The packet is counted with its Crew, as received or as stale, and nothing else is. -/
theorem heardPacket_counts (j b : Nat) :
    (¬(j = crewIdx c ∧ (b = 0x22 ∨ b = 0x27)) → ctrGet (heardPacket s c r bs) 0 j b = ctrGet s 0 j b) ∧
    (pkOfEpoch s.crews[c].epoch bs = true →
      ctrGet (heardPacket s c r bs) 0 (crewIdx c) 0x22 = (ctrGet s 0 (crewIdx c) 0x22 + pkLen bs) % 2 ^ 64 ∧
      ctrGet (heardPacket s c r bs) 0 (crewIdx c) 0x27 = ctrGet s 0 (crewIdx c) 0x27) ∧
    (pkOfEpoch s.crews[c].epoch bs = false →
      ctrGet (heardPacket s c r bs) 0 (crewIdx c) 0x27 = (ctrGet s 0 (crewIdx c) 0x27 + 1) % 2 ^ 64 ∧
      ctrGet (heardPacket s c r bs) 0 (crewIdx c) 0x22 = ctrGet s 0 (crewIdx c) 0x22) := by
  unfold heardPacket
  refine ⟨fun hother => ?_, fun he => ?_, fun he => ?_⟩
  · split
    · exact ctrGet_add_other _ _ _ _ _ _ _ _ fun h => hother ⟨h.2.1, .inl h.2.2⟩
    · exact ctrGet_add_other _ _ _ _ _ _ _ _ fun h => hother ⟨h.2.1, .inr h.2.2⟩
  · rw [if_pos he]
    exact ⟨ctrGet_add_same _ _ _ _ _, ctrGet_add_other _ _ _ _ _ _ _ _ (by omega)⟩
  · rw [if_neg (by rw [he]; decide)]
    exact ⟨ctrGet_add_same _ _ _ _ _, ctrGet_add_other _ _ _ _ _ _ _ _ (by omega)⟩

theorem sequenced_frames : Frames 311808 s (sequenced s p bs) :=
  ((((awake_frames s).mono rfl).step updPort_frames rfl).step ctrAdd_frames rfl).step evAdd_frames rfl

theorem packetTaken_frames : Frames 312832 s (packetTaken s p bs c r) :=
  (((sequenced_frames s p bs).mono rfl).step (heardPacket_frames _ c r bs) rfl).step freeSlots_frames rfl

/-- An accepted packet is counted with its port (R246). -/
theorem sequenced_counts (j b : Nat) :
    ctrGet (sequenced s p bs) 0 (0x7100 + p) 0x11 = (ctrGet s 0 (0x7100 + p) 0x11 + 1) % 2 ^ 64 ∧
      (b ≠ 0x11 → ctrGet (sequenced s p bs) 0 j b = ctrGet s 0 j b) :=
  ⟨ctrGet_add_same _ _ _ _ _, fun hb => ctrGet_add_other _ _ _ _ _ _ _ _ fun h => hb h.2.2⟩

theorem packetTaken_rigger : (packetTaken s p bs c r).rigger = { s.rigger with ports := s.rigger.ports.set p (s.rigger.ports[p].accepted bs) } := by
  have hrigger : (heardPacket (sequenced s p bs) c r bs).rigger = (sequenced s p bs).rigger := (heardPacket_frames _ c r bs).rigger rfl
  unfold packetTaken freeSlots updPort Port.accepted
  dsimp only
  rw [hrigger]
  unfold sequenced updPort awake evAdd ctrAdd
  simp only [Fin.getElem_fin, Vector.getElem_set_self, Vector.set_set]
  cases pkHop bs <;> rfl

/-- An accepted packet is counted with its port and its Crew. -/
theorem packetTaken_counts : ctrGet (packetTaken s p bs c r) 0 (0x7100 + p) 0x11 = (ctrGet s 0 (0x7100 + p) 0x11 + 1) % 2 ^ 64 ∧
    (pkOfEpoch s.crews[c].epoch bs = true →
      ctrGet (packetTaken s p bs c r) 0 (crewIdx c) 0x22 = (ctrGet s 0 (crewIdx c) 0x22 + pkLen bs) % 2 ^ 64 ∧
      ctrGet (packetTaken s p bs c r) 0 (crewIdx c) 0x27 = ctrGet s 0 (crewIdx c) 0x27) ∧
    (pkOfEpoch s.crews[c].epoch bs = false →
      ctrGet (packetTaken s p bs c r) 0 (crewIdx c) 0x27 = (ctrGet s 0 (crewIdx c) 0x27 + 1) % 2 ^ 64 ∧
      ctrGet (packetTaken s p bs c r) 0 (crewIdx c) 0x22 = ctrGet s 0 (crewIdx c) 0x22) := by
  obtain ⟨hport, -⟩ := sequenced_counts s p bs 0 0
  have hcrew := fun b => (sequenced_counts s p bs (crewIdx c) b).2
  obtain ⟨hother, hfresh, hstale⟩ := heardPacket_counts (sequenced s p bs) c r bs (0x7100 + p) 0x11
  refine ⟨(hother (by omega)).trans hport, fun he => ?_, fun he => ?_⟩
  · rw [← hcrew 0x22 (by decide), ← hcrew 0x27 (by decide)]
    exact hfresh he
  · rw [← hcrew 0x22 (by decide), ← hcrew 0x27 (by decide)]
    exact hstale he

/-- After that the port acknowledges at once where 2,048 slots have come since the last control word (R247). -/
def packetAnswered (s : State) (p : Fin 16) (bs : List Byte) (c : Fin 16) (r : Nat) : State :=
  if 2048 ≤ s.rigger.ports[p].slotsIn + slotsFor (pkBody bs) then sendCtl (packetTaken s p bs c r) p 1 0 0 0 0 else packetTaken s p bs c r

theorem packetAnswered_frames : Frames 524800 (packetTaken s p bs c r) (packetAnswered s p bs c r) := Frames.ite sendCtl_frames (Frames.refl _ _)

theorem packetAnswered_crews : (packetAnswered s p bs c r).crews = (noteHeard s c r).crews :=
  (packetAnswered_frames s p c r bs).crews rfl |>.trans (heardPacket_crews _ c r bs)

theorem packetAnswered_power : (packetAnswered s p bs c r).power = { s.power with idle := false } :=
  (packetAnswered_frames s p c r bs).power rfl |>.trans (freeSlots_frames.power rfl) |>.trans ((heardPacket_frames _ c r bs).power rfl)

theorem packetAnswered_rigger : (packetAnswered s p bs c r).rigger = { s.rigger with ports := s.rigger.ports.set p { s.rigger.ports[p].accepted bs with
    ackOwed := !decide (2048 ≤ s.rigger.ports[p].slotsIn + slotsFor (pkBody bs))
    slotsIn := if decide (2048 ≤ s.rigger.ports[p].slotsIn + slotsFor (pkBody bs)) = true then 0
      else s.rigger.ports[p].slotsIn + slotsFor (pkBody bs) } } := by
  unfold packetAnswered
  by_cases hsoon : 2048 ≤ s.rigger.ports[p].slotsIn + slotsFor (pkBody bs)
  · rw [if_pos hsoon, decide_eq_true hsoon, sendCtl_told]
    show (updPort _ p Port.told).rigger = _
    unfold updPort
    rw [packetTaken_rigger]
    simp only [Fin.getElem_fin, Vector.getElem_set_self, Vector.set_set]
    rfl
  · rw [if_neg hsoon, decide_eq_false hsoon, packetTaken_rigger]
    rfl

theorem packetAnswered_out : (packetAnswered s p bs c r).out =
    if decide (2048 ≤ s.rigger.ports[p].slotsIn + slotsFor (pkBody bs)) = true then
      .control p none (wordOf (packetAnswered s p bs c r) p 1 0 0 0 0) :: s.out else s.out := by
  have htaken : (packetTaken s p bs c r).out = s.out := (packetTaken_frames s p c r bs).out rfl
  unfold packetAnswered
  by_cases hsoon : 2048 ≤ s.rigger.ports[p].slotsIn + slotsFor (pkBody bs)
  · rw [if_pos hsoon, if_pos (decide_eq_true hsoon), sendCtl_told, wordOf_told]
    exact congrArg _ htaken
  · rw [if_neg hsoon, decide_eq_false hsoon]
    exact htaken

variable {s p c r bs}

/-- An accepted VOTE or SYNC packet of a member (R246, R268). -/
theorem takePacket_accepted (hup : s.rigger.ports[p].state = .up) (hmid : ownMid s ≠ 0xFFFFFFFF) (hcrc : pkCrcOk bs = true)
    (hlseq : pkLseq bs = s.rigger.ports[p].rxSeq) (hgood : pkMalformed bs = false) (hdst : pkDst bs = ownMid s)
    (htag : tagCrew s (pkCtag bs) = some c) (hrank : midRank s c (pkSrc bs) = some r) (htype : 3 ≤ pkType bs) :
    takePacket s p bs = packetAnswered s p bs c r := by
  have htaken : deliverOr (sequenced s p bs) p bs = packetTaken s p bs c r := by
    unfold deliverOr
    rw [deliver_heard (s := sequenced s p bs) p hgood hdst htag hrank htype]
    rfl
  have howed : (packetTaken s p bs c r).rigger.ports[p].ackOwed = true := by
    rw [packetTaken_rigger]
    simp [Port.accepted]
  unfold takePacket
  dsimp only
  rw [if_neg (by rw [hup]; simp [hmid]), if_neg (by simp [hcrc]), if_neg (by rw [hlseq, serialAfter_self]; decide),
    if_neg (not_not.2 hlseq)]
  change (if decide (2048 ≤ s.rigger.ports[p].slotsIn + slotsFor (pkBody bs)) && (deliverOr (sequenced s p bs) p bs).rigger.ports[p].ackOwed then
    sendCtl (deliverOr (sequenced s p bs) p bs) p 1 0 0 0 0 else deliverOr (sequenced s p bs) p bs) = _
  rw [htaken, howed, Bool.and_true]
  simp only [decide_eq_true_eq, packetAnswered]

end

/-- Settles O46: each word and packet is one of the equations above; what leaves and what is counted follows from them. -/
theorem wordsAndPackets : Obligations.WordsAndPackets := by
  unfold Obligations.WordsAndPackets
  intro s p w hon
  refine ⟨fun hbad i hi => ?_, fun hgood hwait => ?_, fun hgood hwait htype hup hkept => ?_, fun x l hup hkept hless hafter => ?_,
    fun hup howed => ?_, fun bs hup hmid => ⟨fun c r hcrc hlseq hform hdst htag hrank htype => ?_, fun hcrc hdup => ?_, fun hcrc hnak => ?_⟩⟩
  · rcases hi with rfl | rfl | ⟨pl, far, rfl⟩ | ⟨l, rfl⟩
    · exact (powered_on hon _).trans (congrArg _ (withWord_bad hbad s p _))
    · exact (powered_on hon _).trans (congrArg _ (withWord_bad hbad s p _))
    · exact (powered_on hon _).trans (congrArg _ (withWord_bad hbad s p _))
    · exact (powered_on hon _).trans (congrArg _ (withWord_bad hbad s p _))
  · exact ⟨_, (powered_on hon _).trans (congrArg _ (withWord_good hgood s p _)), takeWord_but hwait w, takeWord_portOnly hwait w⟩
  · exact exec_nak_resends hon hgood hwait htype hup hkept
  · exact exec_replayTimeout_resends hon hup hkept hless hafter
  · refine (powered_on hon _).trans (congrArg _ ?_)
    dsimp only
    rw [if_pos (by rw [hup, howed]; rfl), sendCtl_told]
  · intro n m soon e
    have hcounts := packetTaken_counts s p c r bs
    simp only [← ctrGet_same_dict ((packetAnswered_frames s p c r bs).dict rfl)] at hcounts
    exact ⟨_, (powered_on hon _).trans (congrArg _ (takePacket_accepted hup hmid hcrc hlseq hform hdst htag hrank htype)),
      (((packetTaken_frames s p c r bs).mono rfl).step (packetAnswered_frames s p c r bs) rfl).sameBut (m := 837120) _ rfl,
      packetAnswered_rigger s p c r bs, packetAnswered_out s p c r bs, packetAnswered_crews s p c r bs, packetAnswered_power s p c r bs, hcounts⟩
  · refine ⟨_, (powered_on hon _).trans (congrArg _ (takePacket_duplicate hup hmid hcrc hdup)), ?_, rfl, rfl⟩
    exact Frames.sameBut (m := 557568) ((awake_frames s).mono rfl |>.step sendCtl_frames rfl) _ rfl
  · refine ⟨_, (powered_on hon _).trans (congrArg _ ((takePacket_damaged hup hmid hcrc).trans (sendNak_first hnak))), ?_, ?_, ?_, ?_⟩
    · exact Frames.sameBut (m := 573952) ((((awake_frames s).mono rfl).step ctrAdd_frames rfl).step updPort_frames rfl |>.step sendCtl_frames rfl) _ rfl
    · rw [sendCtl_told]
      show (updPort _ p Port.told).rigger = _
      rw [updPort_twice]
      rfl
    · rw [sendCtl_told, wordOf, updPort_same]
      rfl
    · refine (ctrGet_same_dict (s := ctrAdd (awake s) 0 (0x7100 + p) 0x13 1) ?_ _ _ _).trans (ctrGet_add_same _ _ _ _ _)
      rw [sendCtl_told]
      rfl

end Sys2Proof.Machine
end

section
/-! What the packets of a Crew leave as it was (R256, R264, R296): their way, and of the Crews all but the times the own one sent at. -/

namespace Sys2Proof.Machine

open Sys2Proof

/-! ## Objects of a Crew are read from the committed values -/

section
variable {s t : State} (h : t.dict.vals = s.dict.vals)
include h

theorem objNat_vals (f idx sub d : Nat) : objNat t f idx sub d = objNat s f idx sub d := by unfold objNat; rw [h]

theorem objBytes_vals (f idx sub : Nat) (d : List Byte) : objBytes t f idx sub d = objBytes s f idx sub d := by unfold objBytes; rw [h]

theorem rankMid_vals (c : Fin 16) (r : Nat) : rankMid t c r = rankMid s c r := by
  unfold rankMid crewMap
  rw [objBytes_vals h]

theorem crewP_vals (c : Fin 16) : crewP t c = crewP s c := objNat_vals h ..

theorem crewG_vals (c : Fin 16) : crewG t c = crewG s c := by
  unfold crewG
  rw [objBytes_vals h]

theorem crewPeers_vals {c : Fin 16} (hr : t.crews[c].rank = s.crews[c].rank) : crewPeers t c = crewPeers s c := by
  unfold crewPeers myRank
  rw [crewG_vals h, hr]

end

/-! ## The way of a packet -/

/-- The committed values are the same, and so are the state and the peer of every port: every packet takes the same way (R256). -/
structure SameRoutes (s t : State) : Prop where
  vals : t.dict.vals = s.dict.vals
  wire : ∀ p : Fin 16, t.rigger.ports[p].state = s.rigger.ports[p].state ∧ t.rigger.ports[p].peer = s.rigger.ports[p].peer

theorem SameRoutes.refl (s : State) : SameRoutes s s := ⟨rfl, fun _ => ⟨rfl, rfl⟩⟩

theorem SameRoutes.trans {s t u : State} (h : SameRoutes s t) (k : SameRoutes t u) : SameRoutes s u :=
  ⟨k.vals.trans h.vals, fun p => ⟨(k.wire p).1.trans (h.wire p).1, (k.wire p).2.trans (h.wire p).2⟩⟩

theorem sameRoutes_of_rigger {s t : State} (hv : t.dict.vals = s.dict.vals) (hr : t.rigger = s.rigger) : SameRoutes s t :=
  ⟨hv, fun _ => by rw [hr]; exact ⟨rfl, rfl⟩⟩

theorem SameRoutes.routePort {s t : State} (h : SameRoutes s t) (m : Nat) (direct : Bool) : routePort t m direct = routePort s m direct := by
  have hs (a via : Nat) : portServes t a via = portServes s a via := by
    unfold portServes
    dsimp only
    rw [(h.wire _).1, (h.wire _).2]
  unfold Machine.routePort ownMid routeEntry
  simp only [objNat_vals h.vals, objBytes_vals h.vals, hs]

theorem sameRoutes_updPort (s : State) (p : Fin 16) {g : Port → Port} (hg : ∀ k, (g k).state = k.state ∧ (g k).peer = k.peer) :
    SameRoutes s (updPort s p g) := by
  refine ⟨rfl, fun q => ?_⟩
  by_cases e : q = p
  · subst e
    rw [updPort_same]
    exact hg _
  · rw [updPort_other _ _ _ _ e]
    exact ⟨rfl, rfl⟩

theorem sameRoutes_ctrAdd (s : State) (f i b n : Nat) : SameRoutes s (ctrAdd s f i b n) := sameRoutes_of_rigger rfl rfl

/-- A port changed in other fields first. -/
theorem SameRoutes.port {s u : State} {p : Fin 16} {g : Port → Port} (k : SameRoutes (updPort s p g) u)
    (hg : ∀ k, (g k).state = k.state ∧ (g k).peer = k.peer) : SameRoutes s u := (sameRoutes_updPort s p hg).trans k

theorem sameRoutes_transmitNow (s : State) (p : Fin 16) (hop : Bool) (raw : List Byte) : SameRoutes s (transmitNow s p hop raw) :=
  SameRoutes.port (sameRoutes_of_rigger rfl rfl) fun _ => ⟨rfl, rfl⟩

theorem sameRoutes_leaveNow (s : State) (p : Fin 16) (w : Queued) : SameRoutes s (leaveNow s p w) :=
  (sameRoutes_transmitNow _ p w.hop w.raw).port fun _ => ⟨rfl, rfl⟩

theorem sameRoutes_flushRank (s : State) (p : Fin 16) (r : Nat) : SameRoutes s (flushRank s p r) := by
  unfold flushRank
  refine List.foldlRecOn (motive := fun acc : State × Bool => SameRoutes s acc.1) _ _ (SameRoutes.refl s) fun acc h w _ => ?_
  split
  · exact h
  · exact h.trans (sameRoutes_leaveNow _ p w)

theorem sameRoutes_flushShares (n : Nat) (s : State) (p : Fin 16) : SameRoutes s (flushShares n s p) := by
  induction n generalizing s with
  | zero => exact SameRoutes.refl s
  | succ n ih =>
    unfold flushShares
    dsimp only
    split
    · split
      · split
        · exact (ih _).port fun _ => ⟨rfl, rfl⟩
        · split
          · exact SameRoutes.refl s
          · refine (sameRoutes_leaveNow s p _).trans ((ih _).port fun k => ?_)
            split <;> exact ⟨rfl, rfl⟩
      · exact (ih _).port fun _ => ⟨rfl, rfl⟩
    · split
      · exact (ih _).port fun _ => ⟨rfl, rfl⟩
      · exact SameRoutes.refl s

theorem sameRoutes_flushPort (s : State) (p : Fin 16) : SameRoutes s (flushPort s p) := by
  unfold flushPort
  exact ((sameRoutes_flushRank s p 0).trans (sameRoutes_flushRank _ p 1)).trans (sameRoutes_flushShares _ _ p)

theorem sameRoutes_queuePacket (s : State) (p : Fin 16) (w : Queued) : SameRoutes s (queuePacket s p w) := by
  have h := sameRoutes_flushPort (updPort s p fun k => { k with waiting := k.waiting ++ [w] }) p
  exact h.port fun _ => ⟨rfl, rfl⟩

theorem sameRoutes_countMiscabled (s : State) (m : Nat) : SameRoutes s (countMiscabled s m) := by
  unfold countMiscabled
  split
  · dsimp only
    split <;> split <;> exact sameRoutes_of_rigger rfl rfl
  · exact SameRoutes.refl s

section
variable (s : State) (c : Fin 16) (r type : Nat) (endc : Option (BitVec 64)) (offset msg xtag : Nat) (payload : List Byte) (share : Nat × Nat)

theorem sameRoutes_sendPacket (dst ctag : Nat) : SameRoutes s (sendPacket s dst type endc ctag offset msg xtag payload share).1 := by
  have hc := sameRoutes_countMiscabled s dst
  unfold sendPacket
  generalize countMiscabled s dst = t at hc
  dsimp only
  split
  · exact hc
  · dsimp only
    exact hc.trans (sameRoutes_queuePacket ..)

/-- A packet whose destination has a route is sent (R256). -/
theorem sendPacket_routed {s : State} {dst : Nat} (h : (routePort s dst false).isSome = true) (ctag : Nat) :
    (sendPacket s dst type endc ctag offset msg xtag payload share).2 = true := by
  obtain ⟨q, hq⟩ := Option.isSome_iff_exists.1 h
  unfold sendPacket
  dsimp only
  rw [(sameRoutes_countMiscabled s dst).routePort, hq]

end

/-! ## Packets to ranks -/

theorem OnlySent.trans {s t u : State} {c : Fin 16} (h : OnlySent s t c) (k : OnlySent t u c) : OnlySent s u c := by
  obtain ⟨l, hl⟩ := h
  obtain ⟨m, hm⟩ := k
  refine ⟨m, ?_⟩
  rw [hm, hl]
  simp

/-- What packets of Crew `c` to its ranks leave as it was: every component but those that send and count, the ways of packets, and of the
Crews all but the times this one sent at. -/
structure Sent (s t : State) (c : Fin 16) : Prop where
  frames : Frames 804352 s t
  routes : SameRoutes s t
  crews : OnlySent s t c

theorem Sent.refl (s : State) (c : Fin 16) : Sent s s c := ⟨Frames.refl _ s, SameRoutes.refl s, onlySent_of_crews rfl⟩

theorem Sent.trans {s t u : State} {c : Fin 16} (h : Sent s t c) (k : Sent t u c) : Sent s u c :=
  ⟨h.frames.step k.frames rfl, h.routes.trans k.routes, h.crews.trans k.crews⟩

section
variable (s : State) (c : Fin 16) (r type : Nat) (endc : Option (BitVec 64)) (offset msg xtag : Nat) (payload : List Byte)

theorem sendRank_sent (share : Nat × Nat) : Sent s (sendRank s c r type endc offset msg xtag payload share).1 c := by
  refine ⟨sendRank_frames, ?_, ?_⟩
  · unfold sendRank
    dsimp only
    split
    · exact (sameRoutes_sendPacket ..).trans (sameRoutes_of_rigger rfl rfl)
    · exact sameRoutes_sendPacket ..
  · have hcrews : (sendPacket s (rankMid s c r) type endc (crewTag s c) offset msg xtag payload share).1.crews = s.crews :=
      sendPacket_frames.same .crews rfl
    unfold sendRank
    dsimp only
    split
    · exact noteSent_onlySent hcrews r
    · exact onlySent_of_crews hcrews

theorem sendRank_routed {s : State} {c : Fin 16} {r : Nat} (h : (routePort s (rankMid s c r) false).isSome = true) (share : Nat × Nat) :
    (sendRank s c r type endc offset msg xtag payload share).2 = true := by
  unfold sendRank
  dsimp only
  rw [sendPacket_routed type endc offset msg xtag payload share h, if_pos rfl]

theorem sendSyncOf_sent (kind num : Nat) : Sent s (sendSyncOf s c r kind endc num xtag payload).1 c := by
  unfold sendSyncOf
  split
  · exact Sent.refl s c
  · exact sendRank_sent ..

theorem sendSyncOf_routed {s : State} {c : Fin 16} {r : Nat} (h : (routePort s (rankMid s c r) false).isSome = true) (kind num : Nat) :
    (sendSyncOf s c r kind endc num xtag payload).2 = true := by
  unfold sendSyncOf
  split
  · rfl
  · exact sendRank_routed _ _ _ _ _ _ h _

theorem sendSync_sent (kind : Nat) : Sent s (sendSync s c r kind xtag payload).1 c := sendSyncOf_sent ..

theorem sendSync_routed {s : State} {c : Fin 16} {r : Nat} (h : (routePort s (rankMid s c r) false).isSome = true) (kind : Nat) :
    (sendSync s c r kind xtag payload).2 = true := sendSyncOf_routed _ _ _ h _ _

end

theorem Sent.routed {s t : State} {c : Fin 16} {r : Nat} (h : Sent s t c) (hr : (routePort s (rankMid s c r) false).isSome = true) :
    (routePort t (rankMid t c r) false).isSome = true := by
  rw [rankMid_vals h.routes.vals, h.routes.routePort]
  exact hr

theorem sendSyncs_sent (s : State) (c : Fin 16) (rs : List Nat) (kind : Nat) (body : List Byte) : Sent s (sendSyncs s c rs kind body).1 c := by
  unfold sendSyncs
  refine List.foldlRecOn (motive := fun acc : State × Option Nat => Sent s acc.1 c) _ _ (Sent.refl s c) fun acc h r _ => ?_
  exact h.trans (sendSync_sent ..)

/-- Where every rank has a route, none is missed. -/
theorem sendSyncs_routed {s : State} {c : Fin 16} {rs : List Nat} (h : ∀ r ∈ rs, (routePort s (rankMid s c r) false).isSome = true)
    (kind : Nat) (body : List Byte) : (sendSyncs s c rs kind body).2 = none := by
  unfold sendSyncs
  refine (List.foldlRecOn (motive := fun acc : State × Option Nat => Sent s acc.1 c ∧ acc.2 = none) _ _ ⟨Sent.refl s c, rfl⟩
    fun acc hacc r hr => ⟨hacc.1.trans (sendSync_sent ..), ?_⟩).2
  dsimp only
  rw [sendSync_routed _ _ (hacc.1.routed (h r hr)), if_pos rfl]
  exact hacc.2

end Sys2Proof.Machine
end

section
/-! Commands of the Rigger's issue port (R266, R276): how one is taken up, and when the operations of a Crew have nothing to do. -/

namespace Sys2Proof.Machine

open Sys2Proof

/-! ## Calm Crews -/

theorem calm_updCrew {s : State} {c : Fin 16} {g : Crew → Crew} (h : Calm s) (hg : crewCalm (g s.crews[c]) = true) : Calm (updCrew s c g) := by
  refine ⟨fun d => ?_, h.2⟩
  by_cases e : d = c
  · subst e
    rw [updCrew_same]
    exact hg
  · rw [updCrew_other _ _ _ _ e]
    exact h.1 d

theorem OnlySent.calm {s t : State} {c : Fin 16} (h : OnlySent s t c) (hh : t.host = s.host) (hs : Calm s) : Calm t := by
  refine ⟨fun d => ?_, by rw [hh]; exact hs.2⟩
  by_cases e : d = c
  · subst e
    obtain ⟨l, hl⟩ := h.own
    rw [hl]
    exact hs.1 d
  · rw [h.other e]
    exact hs.1 d

/-- Packets leave a calm module calm. -/
theorem Sent.calm {s t : State} {c : Fin 16} (h : Sent s t c) (hs : Calm s) : Calm t := h.crews.calm (h.frames.host rfl) hs

theorem calm_ctrAdd {s : State} (h : Calm s) (f i b n : Nat) : Calm (ctrAdd s f i b n) := h

theorem calm_noteHeard {s : State} (h : Calm s) (c : Fin 16) (r : Nat) : Calm (noteHeard s c r) := calm_updCrew h (h.1 c)

/-- What a calm Crew has: no operation in flight, no command waiting. -/
theorem calm_free {s : State} (h : Calm s) (c : Fin 16) : s.crews[c].ops = [] ∧ s.crews[c].waiting = [] := by
  obtain ⟨⟨ho, hw⟩, -⟩ := (crewCalm_iff _).1 (h.1 c)
  exact ⟨List.isEmpty_iff.1 ho, List.isEmpty_iff.1 hw⟩

/-- Such a Crew is calm with its attempt as it is. -/
theorem crewCalm_of_free {k j : Crew} (h : crewCalm k = true) (ho : j.ops = []) (hw : j.waiting = []) (ha : j.attempt = k.attempt)
    (hf : j.fin = k.fin) : crewCalm j = true := by
  obtain ⟨-, halive⟩ := (crewCalm_iff _).1 h
  refine (crewCalm_iff _).2 ⟨by rw [ho, hw]; exact ⟨rfl, rfl⟩, ?_⟩
  rw [ha, hf]
  exact halive

/-! ## Nothing to do -/

/-- No tile waits to be sent on (R287). -/
def NoSendon (s : State) : Prop := ∀ n : Fin 8, ∀ h : Fin 64, s.courses[n].tiles[h].sendon = none

theorem takeTiles_none {s : State} (h : NoSendon s) (c : Fin 16) (o : CollOp) (p : Fin 8) : takeTiles s c o p = s := by
  unfold takeTiles
  split
  · rfl
  · refine foldl_fixed _ _ _ fun n _ => ?_
    split
    · rfl
    · refine foldl_fixed _ _ _ fun x _ => ?_
      dsimp only
      rw [h n (fin64 x)]

/-- One command waits: it begins where HS is 1 and there is room for it. -/
theorem takeWaiting_one {s : State} {c : Fin 16} {p : Fin 8} {w : Cmd} {iss : Issuer} {tm : Terms} (hw : s.crews[c].waiting = [(w, iss, tm)])
    (ho : crewOwner s c = some p) (hs : s.crews[c].hs = true) (hroom : roomFor s c w = true) :
    takeWaiting s c = if fld w 7 0 = 0x51 then startOp (updCrew s c fun k => { k with waiting := [] }) c p w iss tm
      else startP2p (updCrew s c fun k => { k with waiting := [] }) c p w iss tm := by
  unfold takeWaiting
  rw [hw]
  show takeWaitingN 1 s c = _
  unfold takeWaitingN
  rw [hw, ho]
  dsimp only
  rw [hs, hroom]
  rfl

theorem takeWaiting_held {s : State} {c : Fin 16} (hs : s.crews[c].hs = false) : takeWaiting s c = s := by
  unfold takeWaiting
  cases s.crews[c].waiting.length with
  | zero => rfl
  | succ n =>
    unfold takeWaitingN
    split
    · rw [hs]
      rfl
    · rfl

theorem takeWaiting_none {s : State} {c : Fin 16} (h : s.crews[c].waiting = []) : takeWaiting s c = s := by
  unfold takeWaiting
  rw [h]
  rfl

/-- A Crew whose operations are at rest: with no tile to take, no arrival to note and no operation that goes on, nothing changes. -/
theorem advanceCrew_rest {s t : State} {c : Fin 16} (hw : takeWaiting s c = t) (htiles : t.crews[c].ops = [] ∨ NoSendon t)
    (harrived : checkArrival t c = t) (hstep : t.crews[c].ops.findSome? (fun o => stepOpr t c o) = none) : advanceCrew s c = t := by
  have htake (p : Fin 8) : t.crews[c].ops.foldl (fun s o => takeTiles s c o p) t = t := by
    rcases htiles with ho | hn
    · rw [ho]
      rfl
    · exact foldl_fixed _ _ _ fun o _ => takeTiles_none hn c o p
  have hpump : pump t c = t := by
    unfold pump
    split
    · rfl
    · generalize t.crews[c].ops.length * (4 * crewP t c + 64) = n
      cases n with
      | zero => rfl
      | succ n =>
        unfold pumpCrew
        rw [hstep]
  unfold advanceCrew
  rw [hw]
  dsimp only
  split
  · rfl
  · rw [htake, harrived, hpump]

/-- With no operation in flight there is none to go on with. -/
theorem advanceCrew_opless {s t : State} {c : Fin 16} (hw : takeWaiting s c = t) (ho : t.crews[c].ops = []) : advanceCrew s c = t := by
  refine advanceCrew_rest hw (.inl ho) ?_ (by rw [ho]; rfl)
  unfold checkArrival
  rw [ho]
  exact ite_self _

/-! ## Issue -/

/-- What the Rigger keeps of a command (R291, R296): its Crew's settings and its age. -/
def issueTerms (s : State) (d : Fin 16) : Terms := ⟨crewChunk s d, crewWeight s d, s.crews[d].age, none⟩

/-- The state in which a command of Crew `d` waits its turn. -/
def rigWaiting (s : State) (d : Fin 16) (c : Cmd) (iss : Issuer) : State :=
  updCrew s d fun k => { k with waiting := k.waiting ++ [(c, iss, issueTerms s d)], age := k.age + 1, silence := crewSilence s d }

theorem updCrew_congr {s : State} {c : Fin 16} {g h : Crew → Crew} (e : g s.crews[c] = h s.crews[c]) : updCrew s c g = updCrew s c h :=
  congrArg (fun k => { s with crews := s.crews.set c k }) e

/-- The state in which a command of Crew `d` has been taken up: the Crew has counted it. -/
def rigIssued (s : State) (d : Fin 16) : State := updCrew s d fun k => { k with age := k.age + 1, silence := crewSilence s d }

theorem rigWaiting_taken {s : State} {d : Fin 16} (h : s.crews[d].waiting = []) (c : Cmd) (iss : Issuer) :
    updCrew (rigWaiting s d c iss) d (fun k => { k with waiting := [] }) = rigIssued s d := by
  unfold rigWaiting
  rw [updCrew_twice]
  refine updCrew_congr ?_
  dsimp only
  rw [← h]

theorem rigWaiting_waiting {s : State} {d : Fin 16} (h : s.crews[d].waiting = []) (c : Cmd) (iss : Issuer) :
    (rigWaiting s d c iss).crews[d].waiting = [(c, iss, issueTerms s d)] := by
  unfold rigWaiting
  rw [updCrew_same, h]
  rfl

section
variable {s : State} {w : Who} {cr : Fin 16} {p : Fin 8} {a : Attempt} {k : CoreRun} {c : Cmd}

theorem bookIssue_other (s : State) (cr : Fin 16) (w : Who) (k : CoreRun) (d : Fin 16) :
    ∃ x, (bookIssue s cr w k).crews[d] = { s.crews[d] with attempt := x } := by
  by_cases e : d = cr
  · subst e
    exact ⟨_, updCrew_same s d _⟩
  · exact ⟨s.crews[d].attempt, updCrew_other s cr d _ e⟩

theorem bookIssue_attempt (h : s.crews[cr].attempt = some a) (w : Who) (k : CoreRun) :
    ((bookIssue s cr w k).crews[cr].attempt.map fun x => x.inFlight) = some (a.inFlight + 1) := by
  unfold bookIssue updAttempt
  rw [updCrew_same, h]
  rfl

theorem calm_booked (h : CoreMay s w cr p a k) : Calm (bookIssue s cr w k) := calm_bookIssue s cr w k h.calm

/-- A running program's attempt is not UNRESOLVED in a calm module. -/
theorem coreMay_resolved (h : CoreMay s w cr p a k) : s.crews[cr].fin ≠ .unresolved :=
  (((crewCalm_iff _).1 (h.calm.1 cr)).2 a (findCore_attempt h.core)).2.2

/-- The command `c` goes to Crew `d`, and no check rejects it. -/
def RigTaken (s : State) (p : Fin 8) (c : Cmd) (d : Fin 16) : Prop :=
  fld c 7 0 = 0x51 ∧ d = coCrew c ∧ crewopReject s p c = none ∨
    (fld c 7 0 = 0x52 ∨ fld c 7 0 = 0x53) ∧ d = pbCrew c ∧ p2pReject s p c = none

theorem RigTaken.op {d : Fin 16} (h : RigTaken s p c d) : fld c 7 0 = 0x51 ∨ fld c 7 0 = 0x52 ∨ fld c 7 0 = 0x53 := by
  rcases h with ⟨h1, -⟩ | ⟨h2, -⟩
  · exact .inl h1
  · exact .inr h2

theorem issueRigger_waits {d : Fin 16} (h : RigTaken s p c d) (hu : s.crews[cr].fin ≠ .unresolved) (hd : s.crews[cr].fin ≠ .decided) (iss : Issuer) :
    issueRigger s cr p c iss = advanceCrew (rigWaiting s d c iss) d := by
  have hfin : (decide (s.crews[cr].fin = .unresolved) || decide (s.crews[cr].fin = .decided)) = false := by
    rw [decide_eq_false hu, decide_eq_false hd]
    rfl
  unfold issueRigger
  rcases h with ⟨h1, rfl, hr⟩ | ⟨h1, rfl, hr⟩
  · simp only [h1, hr, hfin, ↓reduceIte]
    rfl
  · have hne : fld c 7 0 ≠ 0x51 := by omega
    simp only [hne, hr, hfin, ↓reduceIte]
    rfl

/-- A command of the Rigger's port that no check rejects waits its turn, and its Crew goes on (R266, R276). -/
theorem riggerPort_waits (h : CoreMay s w cr p a k) (hfin : s.crews[cr].fin ≠ .decided) {d : Fin 16} (ht : RigTaken (bookIssue s cr w k) p c d) :
    riggerPort s w c = castReady (advanceCrew (rigWaiting (bookIssue s cr w k) d c (coreIssuer cr a k)) d) := by
  have hop := ht.op
  have hsame : (bookIssue s cr w k).crews[cr].fin = s.crews[cr].fin := by
    obtain ⟨x, hx⟩ := bookIssue_other s cr w k cr
    rw [hx]
  unfold riggerPort
  dsimp only
  rw [issueStore_of_may h rfl, if_neg (by omega), if_pos (by simpa [or_assoc] using hop),
    issueRigger_waits ht (hsame ▸ coreMay_resolved h) (hsame ▸ hfin)]

end

/-! ## Packets of the Crew's protocol -/

section
variable {s : State} {c : Fin 16}

theorem noteHeard_crew (s : State) (c : Fin 16) (r : Nat) : ∃ l, (noteHeard s c r).crews[c] = { s.crews[c] with heard := l } :=
  ⟨_, updCrew_same s c _⟩

/-- A packet of another epoch is counted and goes no further (R268). -/
theorem crewSync_stale (hst : s.crews[c].state ≠ .undefined) {e : BitVec 32} (he : e ≠ s.crews[c].epoch) (r : Nat) (go : State → State) :
    crewSync s c r e go = ctrAdd (noteHeard s c r) 0 (crewIdx c) 0x27 1 := by
  obtain ⟨l, hl⟩ := noteHeard_crew s c r
  unfold crewSync
  dsimp only
  rw [if_neg hst, hl, if_pos he]

theorem crewSync_current (hst : s.crews[c].state ≠ .undefined) (r : Nat) (go : State → State) :
    crewSync s c r s.crews[c].epoch go = go (noteHeard s c r) := by
  obtain ⟨l, hl⟩ := noteHeard_crew s c r
  unfold crewSync
  dsimp only
  rw [if_neg hst, hl, if_neg (not_not.2 rfl)]

end

/-! ## A command of a core retires -/

section
variable {s : State} {cr : Fin 16} {p : Fin 8} {a : Attempt} {ki : Fin 4} {i : Fin 8} {q : Nat}

theorem noteResult_inFlight (a : Attempt) (l : Option Nat) (r : Res) : (noteResult a l r).inFlight = a.inFlight - 1 := by
  unfold noteResult
  dsimp only
  split
  · split <;> rfl
  · rfl

theorem ownerSignal_noSendon (h : NoSendon s) (st : Option (Fin 9 × Fin 64)) (f : Fin 9) (e : Nat) : NoSendon (ownerSignal s st f e) := by
  unfold ownerSignal
  split
  · exact h
  · intro n x
    simp only [Fin.getElem_fin, Vector.getElem_map]
    split <;> exact h n x

/-- No write of a collective region or a send-on handle waits (R271, R286). -/
def NoWritesWait (s : State) : Prop := ∀ f : Fin 9, s.host.funcs[f].collWrites = [] ∧ s.host.funcs[f].handleWrites = []

theorem signalEv_noWritesWait (h : NoWritesWait s) (f : Fin 9) (e : Nat) : NoWritesWait (signalEv s f e) := by
  unfold signalEv
  split
  · exact h
  · intro g
    by_cases hg : g = f
    · subst hg
      rw [updFunc_same]
      exact h g
    · rw [updFunc_other _ _ _ _ hg]
      exact h g

/-- What the retirement of a core's command leaves: it takes the command from what is in flight, and neither a tile to be sent on nor a
waiting write comes of it. -/
theorem retireUnit_ofCore (ha : s.crews[cr].attempt = some a) (hp : crewOwner s cr = some p) (op tag ev : Nat) (res : Res) :
    ∃ t, retireUnit s (.core cr a.number ki i q) op tag ev res = t ∧ SameBut [.courses, .host, .crews] s t ∧
      (∀ d, d ≠ cr → t.crews[d] = s.crews[d]) ∧ (∃ b, t.crews[cr] = { s.crews[cr] with attempt := some b } ∧ b.inFlight = a.inFlight - 1 ∧
        b.ended = a.ended ∧ b.voteCmd = a.voteCmd) ∧ (Calm s → Calm t) ∧ (NoSendon s → NoSendon t) ∧ (NoWritesWait s → NoWritesWait t) ∧
      (res.cls ≠ .rejected → ev ≠ 0 → ev ≤ 4095 → eventCount t (funcOf p) ev = eventCount s (funcOf p) ev + 1) := by
  obtain ⟨t, ht, hbut, -, hcr, hother, -, -, hcalm, hev⟩ := retireNoted_core (k := ki) (i := i) (seq := q) ha hp op tag ev (tagLayer tag) res
  have hflags := noteResult_flags (unitRecord s a ki i q op tag res) (tagLayer tag) res
  refine ⟨t, ht, sameBut_le hbut _ rfl, hother, ⟨_, hcr, noteResult_inFlight _ _ _, hflags.1, hflags.2.1⟩, hcalm, fun hn => ?_, fun hw => ?_, hev⟩
  all_goals
    subst ht
    unfold retireNoted
    dsimp only
    rw [ha]
    dsimp only
    rw [if_pos rfl]
    split
  · exact ownerSignal_noSendon (by rw [NoSendon, (signalEv_frames).courses rfl]; exact hn) _ _ _
  · exact hn
  · rw [NoWritesWait, (ownerSignal_frames).host rfl]
    exact signalEv_noWritesWait (s := updCrew s cr _) hw _ _
  · exact hw

end

/-! ## What the checks leave -/

theorem firstReason_none {l : List (Bool × Reason)} (h : firstReason l = none) : ∀ x ∈ l, x.1 = false := by
  unfold firstReason at h
  simpa using h

theorem first_of_orElse {α : Type} {o : Option α} {f : Unit → Option α} (h : o.orElse f = none) : o = none := by
  cases o with
  | none => rfl
  | some x => cases h

theorem p2pReject_owner {s : State} {p : Fin 8} {w : Cmd} (h : p2pReject s p w = none) : crewOwner s (pbCrew w) = some p := by
  unfold p2pReject at h
  have hc := firstReason_none (first_of_orElse h) _ (List.mem_cons_of_mem _ List.mem_cons_self)
  by_contra hne
  simp [hne] at hc

end Sys2Proof.Machine
end

section
/-! SEND and RECV with CREDIT and DONE (R288, R289): what each leaves of its Crew. -/

namespace Sys2Proof.Machine

open Sys2Proof

/-! ## Places without an error -/

/-- No Pallet word and no HBM sector is uncorrectable. -/
def NoUe (s : State) : Prop := (∀ n : Fin 8, s.pallets[n].ue = []) ∧ s.hbm.ue = []

theorem collUe_none {s : State} (h : NoUe s) (p : Fin 8) (rs ws : List Nat) : collUe s p rs ws = none := by
  obtain ⟨hp, hb⟩ := h
  have hpallet : ∀ n as, palletUe s n as = none := fun n as => by
    unfold palletUe
    rw [hp n]
    simp
  have hfind : rs.find? (fun e => aLoc e = 0 && (palletUe s (fin8 (aCourse e)) [aPallet e]).isSome) = none :=
    List.find?_eq_none.2 fun e _ => by rw [hpallet]; simp
  unfold collUe ueAt uePartial
  rw [hfind, hb]
  rfl

theorem spaceFix_vals (s : State) (p : Option (Fin 8)) (es : List Nat) : (spaceFix s p es).dict.vals = s.dict.vals := by
  unfold spaceFix
  dsimp only
  generalize hT : List.foldl _ s (List.range 8) = T
  have hv : T.dict.vals = s.dict.vals := by
    rw [← hT]
    exact List.foldlRecOn (motive := fun t : State => t.dict.vals = s.dict.vals) _ _ rfl fun t ht n _ => (palletFix_vals t _ _).trans ht
  exact (hbmFix_sameBytes T p _).vals.trans hv

/-- Reading places corrects and counts, and leaves every committed value as it is. -/
theorem collRead_routes (s : State) (p : Fin 8) (rs : List Nat) : SameRoutes s (collRead s p rs) := by
  refine sameRoutes_of_rigger ?_ (collRead_frames.rigger rfl)
  unfold collRead
  split
  · rfl
  · exact (hbmTraffic_sameBytes _ _ _).vals.trans (spaceFix_vals s _ rs)

/-! ## A SEND or RECV begins -/

/-- A SEND or RECV as its Crew holds it from its begin: the next for its peer and stage. -/
def p2pNew (s : State) (c : Fin 16) (snd : Bool) (w : Cmd) (iss : Issuer) (tm : Terms) : P2p :=
  ⟨snd, w, iss, tm, p2pSoFar s.crews[c] snd (pbPeer w) (pbStage w) + 1, none, 0, [], [], none, s.now⟩

/-- The state with it in flight and counted. -/
def p2pBegun (s : State) (c : Fin 16) (snd : Bool) (w : Cmd) (iss : Issuer) (tm : Terms) : State :=
  updCrew s c fun k =>
    { k with
      p2p := k.p2p ++ [p2pNew s c snd w iss tm]
      p2pCount := (snd, pbPeer w, pbStage w, p2pSoFar s.crews[c] snd (pbPeer w) (pbStage w) + 1) ::
        k.p2pCount.filter fun y => !(y.1 = snd && y.2.1 = pbPeer w && y.2.2.1 = pbStage w) }

section
variable (s : State) (c : Fin 16) (p : Fin 8) (w : Cmd) (iss : Issuer) (tm : Terms)

theorem p2pSoFar_begun (snd : Bool) : p2pSoFar (p2pBegun s c snd w iss tm).crews[c] snd (pbPeer w) (pbStage w) =
    p2pSoFar s.crews[c] snd (pbPeer w) (pbStage w) + 1 := by
  unfold p2pBegun
  rw [updCrew_same]
  unfold p2pSoFar
  simp

theorem startP2p_send {s c w} (hop : fld w 7 0 = 0x52) (hc : ∀ y ∈ s.crews[c].credits, ¬(y.1 = pbPeer w ∧ y.2.1 = pbStage w)) :
    startP2p s c p w iss tm = p2pBegun s c true w iss tm := by
  have hnone : (p2pBegun s c true w iss tm).crews[c].credits.find? (fun y => y.1 = pbPeer w && y.2.1 = pbStage w) = none := by
    unfold p2pBegun
    rw [updCrew_same]
    exact List.find?_eq_none.2 fun y hy => by simpa using hc y hy
  unfold startP2p
  rw [decide_eq_true hop]
  dsimp only
  rw [if_pos rfl]
  generalize hB : updCrew s c _ = B
  obtain rfl : p2pBegun s c true w iss tm = B := hB
  rw [hnone]

theorem startP2p_credited {s c w} {cap : Nat} (hop : fld w 7 0 = 0x52) (hc : s.crews[c].credits = [(pbPeer w, pbStage w, cap)]) :
    startP2p s c p w iss tm = startSend (updCrew (p2pBegun s c true w iss tm) c fun k => { k with credits := [] }) c p (p2pNew s c true w iss tm) cap := by
  have hcb : (p2pBegun s c true w iss tm).crews[c].credits = [(pbPeer w, pbStage w, cap)] := by
    unfold p2pBegun
    rw [updCrew_same]
    exact hc
  have hsome : (p2pBegun s c true w iss tm).crews[c].credits.find? (fun y => y.1 = pbPeer w && y.2.1 = pbStage w) = some (pbPeer w, pbStage w, cap) := by
    rw [hcb]
    simp
  have herase : updCrew (p2pBegun s c true w iss tm) c (fun k => { k with credits := k.credits.erase (pbPeer w, pbStage w, cap) }) =
      updCrew (p2pBegun s c true w iss tm) c fun k => { k with credits := [] } := updCrew_congr (by rw [hcb]; simp)
  unfold startP2p
  rw [decide_eq_true hop]
  dsimp only
  rw [if_pos rfl]
  generalize hB : updCrew s c _ = B
  obtain rfl : p2pBegun s c true w iss tm = B := hB
  rw [hsome]
  dsimp only
  rw [herase]
  rfl

/-- A RECV sends its CREDIT. -/
theorem startP2p_recv {s c w} (hop : fld w 7 0 = 0x53) (hr : (routePort s (rankMid s c (pbPeer w)) false).isSome = true) :
    ∃ t, startP2p s c p w iss tm = t ∧ Sent (p2pBegun s c false w iss tm) t c := by
  refine ⟨_, rfl, ?_⟩
  have hne : fld w 7 0 ≠ 0x52 := by omega
  unfold startP2p
  rw [decide_eq_false hne]
  dsimp only
  rw [if_neg Bool.false_ne_true]
  generalize hB : updCrew s c _ = B
  obtain rfl : p2pBegun s c false w iss tm = B := hB
  rw [sendSync_routed (s := p2pBegun s c false w iss tm) _ _ hr, if_pos rfl]
  exact sendSync_sent ..

/-- The packets of a message that has a route all leave. -/
theorem sendRanks_routed {s c} {r : Nat} (hr : (routePort s (rankMid s c r) false).isSome = true) (type m xtag : Nat) (share : Nat × Nat)
    (ps : List (Nat × List Byte × Option (BitVec 64))) :
    let acc := ps.foldl (fun (acc : State × Bool) y => if !acc.2 then acc else sendRank acc.1 c r type y.2.2 y.1 m xtag y.2.1 share) (s, true)
    Sent s acc.1 c ∧ acc.2 = true := by
  refine List.foldlRecOn (motive := fun acc : State × Bool => Sent s acc.1 c ∧ acc.2 = true) _ _ ⟨Sent.refl s c, rfl⟩ fun acc h y _ => ?_
  rw [h.2, if_neg (by decide)]
  exact ⟨h.1.trans (sendRank_sent ..), sendRank_routed _ _ _ _ _ _ (h.1.routed hr) _⟩

/-- The SEND `x` of a list has a CREDIT. -/
def withCredit (x : P2p) (cap : Nat) (y : P2p) : P2p :=
  if y.send && y.num = x.num && pbPeer y.word = pbPeer x.word && pbStage y.word = pbStage x.word then { y with credit := some cap } else y

/-- A SEND with a CREDIT that is long enough sends its bytes and their number, and keeps the CREDIT until the DONE. -/
theorem startSend_sends {s c} {x : P2p} {cap : Nat} (hn : pbLen x.word ≤ cap) (hue : NoUe s)
    (hr : (routePort s (rankMid s c (pbPeer x.word)) false).isSome = true) :
    ∃ u, Frames 935504 s u ∧ OnlySent s u c ∧ startSend s c p x cap = updCrew u c fun k => { k with p2p := k.p2p.map (withCredit x cap) } := by
  unfold startSend
  dsimp only
  rw [if_neg (Nat.not_lt.2 hn)]
  generalize hA : ctrAdd s 0 (crewIdx c) 0x25 _ = A
  have hcount : Frames 16384 s A := hA ▸ ctrAdd_frames
  have hroutes : SameRoutes s A := hA ▸ sameRoutes_ctrAdd ..
  rw [collUe_none (by rw [← hA]; exact hue)]
  dsimp only
  generalize hB : collRead A p _ = B
  have hread : Frames 933968 A B := hB ▸ collRead_frames
  have hroutesB : SameRoutes s B := hroutes.trans (hB ▸ collRead_routes ..)
  have hcrews : B.crews = s.crews := (hread.crews rfl).trans (hcount.crews rfl)
  have hrB : (routePort B (rankMid B c (pbPeer x.word)) false).isSome = true := by
    rw [rankMid_vals hroutesB.vals, hroutesB.routePort]
    exact hr
  obtain ⟨hsent, hok⟩ := sendRanks_routed (s := B) hrB 1 (p2pMsg s c (pbStage x.word) x.num) (pbStage x.word) (x.terms.weight, x.terms.age)
    (messagePackets x.terms.chunk (collBytes A p (pbBuf x.word) 0 (pbLen x.word)))
  generalize List.foldl _ (B, true) _ = acc at hsent hok
  rw [hok, if_pos rfl]
  unfold sendEnd
  have hend := hsent.trans (sendSyncOf_sent acc.1 c (pbPeer x.word) (some 0) (pbStage x.word)
    (leBytes 4 (p2pMsg s c (pbStage x.word) x.num) ++ leBytes 8 (pbLen x.word)) 7 0)
  have hendOk := sendSyncOf_routed (some 0) (pbStage x.word) (leBytes 4 (p2pMsg s c (pbStage x.word) x.num) ++ leBytes 8 (pbLen x.word))
    (hsent.routed hrB) 7 0
  generalize sendSyncOf acc.1 c _ 7 _ 0 _ _ = e at hend hendOk
  rw [hendOk, if_pos rfl]
  refine ⟨e.1, ((hcount.mono rfl).step hread rfl).step hend.frames rfl, ?_, rfl⟩
  exact (onlySent_of_crews hcrews).trans hend.crews

end

end Sys2Proof.Machine
end

section
/-! SEND and RECV from the issue port, CREDIT and DONE (R268, R288, R289, R296). -/

namespace Sys2Proof.Machine

open Sys2Proof

section
variable {s : State} {w : Who} {cr : Fin 16} {p : Fin 8} {a : Attempt} {k : CoreRun} {c : Cmd}

/-- The state in which a core's SEND or RECV is taken up: the store is booked and the Crew has counted the command. -/
def p2pTaken (s : State) (cr : Fin 16) (w : Who) (k : CoreRun) (c : Cmd) : State := rigIssued (bookIssue s cr w k) (pbCrew c)

theorem rigIssued_booked (s : State) (cr : Fin 16) (w : Who) (k : CoreRun) (d : Fin 16) :
    ∃ x y, (rigIssued (bookIssue s cr w k) d).crews[d] = { s.crews[d] with attempt := x, age := s.crews[d].age + 1, silence := y } := by
  obtain ⟨x, hx⟩ := bookIssue_other s cr w k d
  unfold rigIssued
  rw [updCrew_same, hx]
  exact ⟨_, _, rfl⟩

theorem issueTerms_booked (s : State) (cr : Fin 16) (w : Who) (k : CoreRun) (d : Fin 16) :
    issueTerms (bookIssue s cr w k) d = ⟨crewChunk s d, crewWeight s d, s.crews[d].age, none⟩ := by
  obtain ⟨x, hx⟩ := bookIssue_other s cr w k d
  unfold issueTerms
  rw [hx]
  rfl

theorem calm_rigIssued (h : CoreMay s w cr p a k) (d : Fin 16) : Calm (rigIssued (bookIssue s cr w k) d) :=
  calm_updCrew (calm_booked h) ((calm_booked h).1 d)

theorem p2pTaken_frames : SameBut [.crews] s (p2pTaken s cr w k c) :=
  sameBut_then (updAttempt_but s cr _) (updCrew_but _ _ _) rfl

theorem p2pNew_taken (snd : Bool) (iss : Issuer) (tm : Terms) : p2pNew (p2pTaken s cr w k c) (pbCrew c) snd c iss tm =
    ⟨snd, c, iss, tm, p2pSoFar s.crews[pbCrew c] snd (pbPeer c) (pbStage c) + 1, none, 0, [], [], none, s.now⟩ := by
  obtain ⟨x, y, h⟩ := rigIssued_booked s cr w k (pbCrew c)
  unfold p2pNew p2pTaken
  rw [h]
  rfl

theorem calm_p2pBegun {t : State} {d : Fin 16} (h : Calm t) (snd : Bool) (iss : Issuer) (tm : Terms) : Calm (p2pBegun t d snd c iss tm) :=
  calm_updCrew h (h.1 d)

/-- A SEND or RECV that no check rejects begins at once where HS is 1 and there is room (R266, R289). -/
theorem riggerPort_p2p (h : CoreMay s w cr p a k) (hfin : s.crews[cr].fin ≠ .decided) (hop : fld c 7 0 = 0x52 ∨ fld c 7 0 = 0x53)
    (hrej : p2pReject (bookIssue s cr w k) p c = none) (hhs : s.crews[pbCrew c].hs = true) (hroom : roomFor s (pbCrew c) c = true) {t : State}
    (ht : startP2p (p2pTaken s cr w k c) (pbCrew c) p c (coreIssuer cr a k) ⟨crewChunk s (pbCrew c), crewWeight s (pbCrew c), s.crews[pbCrew c].age, none⟩ = t)
    (hcalm : Calm t) : riggerPort s w c = t := by
  have hfree := (calm_free (calm_booked h) (pbCrew c)).2
  obtain ⟨x, hx⟩ := bookIssue_other s cr w k (pbCrew c)
  have howner : crewOwner (rigWaiting (bookIssue s cr w k) (pbCrew c) c (coreIssuer cr a k)) (pbCrew c) = some p :=
    (crewOwner_dict (s := bookIssue s cr w k) rfl _).trans (p2pReject_owner hrej)
  have htake : takeWaiting (rigWaiting (bookIssue s cr w k) (pbCrew c) c (coreIssuer cr a k)) (pbCrew c) = t := by
    rw [takeWaiting_one (rigWaiting_waiting hfree c _) howner ?_ ?_,
      if_neg (by omega), rigWaiting_taken hfree, issueTerms_booked]
    · exact ht
    · unfold rigWaiting
      rw [updCrew_same, hx]
      exact hhs
    · unfold roomFor rigWaiting
      rw [updCrew_same, hx]
      exact hroom
  rw [riggerPort_waits h hfin (.inr ⟨hop, rfl, hrej⟩), advanceCrew_opless htake (calm_free hcalm _).1, castReady_of_calm t hcalm]

/-- The SEND or RECV as the statement names it. -/
def p2pIssued (s : State) (c : Cmd) (iss : Issuer) (snd : Bool) : P2p :=
  ⟨snd, c, iss, ⟨crewChunk s (pbCrew c), crewWeight s (pbCrew c), s.crews[pbCrew c].age, none⟩,
    p2pSoFar s.crews[pbCrew c] snd (pbPeer c) (pbStage c) + 1, none, 0, [], [], none, s.now⟩

/-- The state in which a core's SEND or RECV is in flight. -/
def p2pInFlight (s : State) (cr : Fin 16) (a : Attempt) (w : Who) (k : CoreRun) (c : Cmd) (snd : Bool) : State :=
  p2pBegun (p2pTaken s cr w k c) (pbCrew c) snd c (coreIssuer cr a k) ⟨crewChunk s (pbCrew c), crewWeight s (pbCrew c), s.crews[pbCrew c].age, none⟩

theorem p2pInFlight_frames (snd : Bool) : SameBut [.crews] s (p2pInFlight s cr a w k c snd) := sameBut_then p2pTaken_frames (updCrew_but _ _ _) rfl

theorem p2pInFlight_crew (snd : Bool) : ∃ x y z, (p2pInFlight s cr a w k c snd).crews[pbCrew c] = { s.crews[pbCrew c] with
    attempt := x, age := s.crews[pbCrew c].age + 1, silence := y, p2pCount := z,
    p2p := s.crews[pbCrew c].p2p ++ [p2pIssued s c (coreIssuer cr a k) snd] } := by
  obtain ⟨x, y, h⟩ := rigIssued_booked s cr w k (pbCrew c)
  unfold p2pInFlight p2pBegun
  rw [updCrew_same, p2pNew_taken]
  unfold p2pTaken
  rw [h]
  exact ⟨_, _, _, rfl⟩

theorem p2pInFlight_soFar (snd : Bool) : p2pSoFar (p2pInFlight s cr a w k c snd).crews[pbCrew c] snd (pbPeer c) (pbStage c) =
    p2pSoFar s.crews[pbCrew c] snd (pbPeer c) (pbStage c) + 1 := by
  obtain ⟨x, y, h⟩ := rigIssued_booked s cr w k (pbCrew c)
  unfold p2pInFlight
  rw [p2pSoFar_begun]
  unfold p2pTaken
  rw [h]
  rfl

theorem calm_p2pInFlight (h : CoreMay s w cr p a k) (snd : Bool) : Calm (p2pInFlight s cr a w k c snd) := calm_p2pBegun (calm_rigIssued h _) _ _ _

variable (h : CoreMay s w cr p a k) (hrej : p2pReject (bookIssue s cr w k) p c = none) (hfin : s.crews[cr].fin ≠ .decided)
  (hhs : s.crews[pbCrew c].hs = true) (hroom : roomFor s (pbCrew c) c = true)
include h hrej hfin hhs hroom

/-- A SEND without a CREDIT is in flight. -/
theorem exec_send_waits (hop : fld c 7 0 = 0x52) (hc : ∀ y ∈ s.crews[pbCrew c].credits, ¬(y.1 = pbPeer c ∧ y.2.1 = pbStage c)) :
    exec (.send w c) s = .next (p2pInFlight s cr a w k c true) := by
  obtain ⟨x, y, hx⟩ := rigIssued_booked s cr w k (pbCrew c)
  refine (powered_on h.on _).trans (congrArg _ (riggerPort_p2p h hfin (.inl hop) hrej hhs hroom (startP2p_send p _ _ hop ?_) (calm_p2pInFlight h true)))
  unfold p2pTaken
  rw [hx]
  exact hc

/-- A RECV is in flight, and its CREDIT leaves. -/
theorem exec_recv_credits (hop : fld c 7 0 = 0x53) (hr : (routePort s (rankMid s (pbCrew c) (pbPeer c)) false).isSome = true) :
    ∃ t, exec (.recv w c) s = .next t ∧ Sent (p2pInFlight s cr a w k c false) t (pbCrew c) := by
  obtain ⟨t, ht, hsent⟩ := startP2p_recv (s := p2pTaken s cr w k c) (c := pbCrew c) (w := c) p (coreIssuer cr a k)
    ⟨crewChunk s (pbCrew c), crewWeight s (pbCrew c), s.crews[pbCrew c].age, none⟩ hop hr
  exact ⟨t, (powered_on h.on _).trans (congrArg _ (riggerPort_p2p h hfin (.inr hop) hrej hhs hroom ht (hsent.calm (calm_p2pInFlight h false)))), hsent⟩

/-- A SEND that finds a CREDIT long enough for it takes it, and its bytes leave. -/
theorem exec_send_credited {cap : Nat} (hop : fld c 7 0 = 0x52) (hp : s.crews[pbCrew c].p2p = [])
    (hc : s.crews[pbCrew c].credits = [(pbPeer c, pbStage c, cap)]) (hn : pbLen c ≤ cap)
    (hr : (routePort s (rankMid s (pbCrew c) (pbPeer c)) false).isSome = true) (hue : NoUe s) :
    ∃ t, exec (.send w c) s = .next t ∧ SameBut [.pallets, .hbm, .rigger, .crews, .dict, .pointing, .counters, .out] s t ∧
      t.crews[pbCrew c].p2p = [{ p2pIssued s c (coreIssuer cr a k) true with credit := some cap }] ∧ t.crews[pbCrew c].credits = [] := by
  obtain ⟨x, y, hx⟩ := rigIssued_booked s cr w k (pbCrew c)
  obtain ⟨x', y', z', hf⟩ := p2pInFlight_crew (s := s) (cr := cr) (a := a) (w := w) (k := k) (c := c) true
  have hstart := startP2p_credited (s := p2pTaken s cr w k c) (c := pbCrew c) (w := c) p (coreIssuer cr a k)
    ⟨crewChunk s (pbCrew c), crewWeight s (pbCrew c), s.crews[pbCrew c].age, none⟩ hop (by unfold p2pTaken; rw [hx]; exact hc)
  rw [p2pNew_taken] at hstart
  obtain ⟨u, hu, hsent, hsend⟩ := startSend_sends (p := p) (x := p2pIssued s c (coreIssuer cr a k) true)
    (s := updCrew (p2pInFlight s cr a w k c true) (pbCrew c) fun k => { k with credits := [] }) (c := pbCrew c) hn hue hr
  obtain ⟨l, hl⟩ := hsent.own
  rw [updCrew_same, hf, hp] at hl
  have hcalm : Calm u := hsent.calm (hu.host rfl) (calm_updCrew (calm_p2pInFlight h true) ((calm_p2pInFlight h true).1 _))
  refine ⟨_, (powered_on h.on _).trans (congrArg _ (riggerPort_p2p h hfin (.inl hop) hrej hhs hroom (hstart.trans hsend) (calm_updCrew hcalm (hcalm.1 _)))),
    ?_, ?_, ?_⟩
  · have hfirst : SameBut [.crews] s (updCrew (p2pInFlight s cr a w k c true) (pbCrew c) fun k => { k with credits := [] }) :=
      sameBut_then (p2pInFlight_frames true) (updCrew_but _ _ _) rfl
    exact sameBut_then (sameBut_then (sameBut_le hfirst _ rfl) (hu.sameBut [.pallets, .hbm, .rigger, .crews, .dict, .pointing, .counters, .out] rfl) rfl)
      (updCrew_but _ _ _) rfl
  · rw [updCrew_same, hl]
    simp [withCredit, p2pIssued]
  · rw [updCrew_same, hl]

end

/-! ## CREDIT and DONE -/

section
variable {s : State} {d : Fin 16} {r : Nat} {m : BitVec 32}

/-- A CREDIT that no SEND waits for is held. -/
theorem exec_credit_held {st : BitVec 16} (n : Nat) (hon : s.power.on = true) (hst : s.crews[d].state ≠ .undefined)
    (hno : ∀ y ∈ s.crews[d].p2p, ¬(y.send = true ∧ pbPeer y.word = r ∧ pbStage y.word = st.toNat ∧ y.credit = none)) :
    exec (.credit d ⟨r, s.crews[d].epoch⟩ st n) s = .next (updCrew (noteHeard s d r) d fun x => { x with credits := x.credits ++ [(r, st.toNat, n)] }) := by
  obtain ⟨l, hl⟩ := noteHeard_crew s d r
  have hnone : (noteHeard s d r).crews[d].p2p.find? (fun x => x.send && pbPeer x.word = r && pbStage x.word = st.toNat && x.credit.isNone) = none := by
    rw [hl]
    exact List.find?_eq_none.2 fun y hy => by simpa [and_assoc] using hno y hy
  refine (powered_on hon _).trans (congrArg _ ((crewSync_current hst r _).trans ?_))
  dsimp only
  rw [hnone]

theorem findP2p_heard (snd : Bool) (n : Nat) : findP2p (noteHeard s d r) d snd r n = findP2p s d snd r n := by
  obtain ⟨l, hl⟩ := noteHeard_crew s d r
  unfold findP2p p2pMsg epochMsg
  rw [hl]

/-- What the receiver's DONE does of a SEND with its CREDIT: it leaves the Crew, retires and is counted. -/
def sendDone (s : State) (d : Fin 16) (x : P2p) : State :=
  ctrAdd (retireUnit (dropP2p s d x) x.iss 0x52 (coTag x.word) (coEvent x.word) Res.okay) 0 (crewIdx d) 0x20 1

theorem exec_done_confirms {x : P2p} (n : Nat) (hon : s.power.on = true) (hst : s.crews[d].state ≠ .undefined)
    (hx : findP2p s d true r m.toNat = some x) (hc : x.credit ≠ none) :
    exec (.done d ⟨r, s.crews[d].epoch⟩ m ⟨n, false⟩) s = .next (castReady (sendDone (noteHeard s d r) d x)) := by
  refine (powered_on hon _).trans (congrArg (fun t => Host.Outcome.next (castReady t)) ((crewSync_current hst r _).trans ?_))
  unfold doneMsg
  rw [findP2p_heard, hx]
  dsimp only
  rw [if_neg Bool.false_ne_true, if_neg (by simpa using hc)]
  rfl

/-- The sender's DONE tells the one RECV in flight the length of its message, which is not whole yet. -/
theorem exec_done_announces {x : P2p} {n : Nat} (hon : s.power.on = true) (hst : s.crews[d].state ≠ .undefined) (hcalm : Calm s)
    (hp : s.crews[d].p2p = [x]) (hx : findP2p s d false r m.toNat = some x) (hn : n ≤ pbLen x.word) (hl : x.landed < n)
    (hgood : recvBad { x with total := some n } = none) :
    exec (.done d ⟨r, s.crews[d].epoch⟩ m ⟨n, true⟩) s = .next (updCrew (noteHeard s d r) d fun y => { y with p2p := [{ x with total := some n }] }) := by
  obtain ⟨l, hh⟩ := noteHeard_crew s d r
  obtain ⟨hmatch, -⟩ := List.find?_eq_some_iff_append.1 hx
  have hpeer : (!x.send && decide (pbPeer x.word = r) && decide (p2pMsg s d (pbStage x.word) x.num = m.toNat)) = true := by simpa using hmatch
  have hmsg (a b : Nat) : p2pMsg (noteHeard s d r) d a b = p2pMsg s d a b := by
    unfold p2pMsg epochMsg
    rw [hh]
  have htold : updCrew (noteHeard s d r) d (fun k => { k with p2p := k.p2p.map fun y =>
      if (!y.send && pbPeer y.word = r && p2pMsg (noteHeard s d r) d (pbStage y.word) y.num = m.toNat) = true then { y with total := some n } else y }) =
      updCrew (noteHeard s d r) d fun y => { y with p2p := [{ x with total := some n }] } := updCrew_congr (by
    rw [hh]
    simp only [hp, List.map_cons, List.map_nil, hmsg, hpeer, ↓reduceIte])
  generalize hT : updCrew (noteHeard s d r) d (fun y => { y with p2p := [{ x with total := some n }] }) = T at htold
  have hcT : T.crews[d] = { s.crews[d] with heard := l, p2p := [{ x with total := some n }] } := by
    rw [← hT, updCrew_same, hh]
  have hfind : findP2p T d false r m.toNat = some { x with total := some n } := by
    have hmsgT (a b : Nat) : p2pMsg T d a b = p2pMsg s d a b := by
      unfold p2pMsg epochMsg
      rw [hcT]
    unfold findP2p
    simp only [hmsgT, hcT]
    exact List.find?_cons_of_pos hmatch
  have hrest : checkRecv T d r m.toNat = T := by
    unfold checkRecv
    rw [hfind]
    dsimp only
    rw [hgood]
    dsimp only
    rw [if_neg (by omega), if_neg (by simp; omega)]
  refine (powered_on hon _).trans (congrArg _ ?_)
  rw [crewSync_current hst]
  unfold doneMsg
  rw [if_pos rfl]
  dsimp only
  rw [htold, hrest]
  exact castReady_of_calm _ (hT ▸ calm_updCrew (calm_noteHeard hcalm d r) (crewCalm_of_free (hcalm.1 d)
    (by rw [hh]; exact (calm_free hcalm d).1) (by rw [hh]; exact (calm_free hcalm d).2) (by rw [hh]) (by rw [hh])))

end

/-- Settles O41: SEND and RECV end in the states above; CREDIT and DONE do what their own lemmas say, and a SEND that its DONE confirms
retires as any command of a core does (`retireNoted_core`). -/
theorem pointToPoint : Obligations.PointToPoint := by
  unfold Obligations.PointToPoint
  intro s w cr p a k c
  refine ⟨fun h hrej hfin hhs => ⟨fun hop hc hroom => ?_, fun cap hop hp hc hn hr hue hbm => ?_, fun hop hroom hr => ?_⟩,
    fun d r n st e m hon hst => ⟨fun he => ⟨?_, fun hcalm b => ?_⟩, fun he => ⟨fun hno => ?_, fun x hcalm hx hc hiss ha ho => ?_,
      fun x hcalm hp hx hn hl hgood => ?_⟩⟩⟩
  · obtain ⟨x, y, z, hf⟩ := p2pInFlight_crew (s := s) (cr := cr) (a := a) (w := w) (k := k) (c := c) true
    exact ⟨_, exec_send_waits h hrej hfin hhs hroom hop hc, p2pInFlight_frames true, by rw [hf]; rfl, p2pInFlight_soFar true, by rw [hf]⟩
  · have hroom : roomFor s (pbCrew c) c = true := by
      unfold roomFor
      dsimp only
      rw [if_neg (by omega), if_neg (by omega)]
    exact exec_send_credited h hrej hfin hhs hroom hop hp hc hn hr ⟨hue, hbm⟩
  · obtain ⟨x, y, z, hf⟩ := p2pInFlight_crew (s := s) (cr := cr) (a := a) (w := w) (k := k) (c := c) false
    obtain ⟨t, ht, hsent⟩ := exec_recv_credits h hrej hfin hhs hroom hop hr
    obtain ⟨l, hl⟩ := hsent.crews.own
    rw [hf] at hl
    exact ⟨t, ht, sameBut_then (sameBut_le (p2pInFlight_frames false) [.rigger, .crews, .dict, .counters, .out] rfl) (hsent.frames.sameBut [.rigger, .crews, .dict, .counters, .out] rfl) rfl,
      by rw [hl]; rfl, by rw [hl]⟩
  · exact (powered_on hon _).trans (congrArg _ (crewSync_stale hst he r _))
  · refine (powered_on hon _).trans (congrArg _ ?_)
    rw [crewSync_stale hst he r]
    exact castReady_of_calm _ (calm_noteHeard hcalm d r)
  · subst he
    exact exec_credit_held n hon hst hno
  · subst he
    obtain ⟨ki, i, q, hi⟩ := hiss
    obtain ⟨l, hl⟩ := noteHeard_crew s d r
    have hdrop : SameBut [.crews] s (dropP2p (noteHeard s d r) d x) := sameBut_then (updCrew_but s d _) (updCrew_but _ d _) rfl
    have hcrew (e : Fin 16) : ((dropP2p (noteHeard s d r) d x).crews[e]).attempt = s.crews[e].attempt := by
      by_cases he : e = d
      · subst he
        unfold dropP2p
        rw [updCrew_same, hl]
      · unfold dropP2p noteHeard
        rw [updCrew_other _ _ _ _ he, updCrew_other _ _ _ _ he]
    have hp2p : (dropP2p (noteHeard s d r) d x).crews[d].p2p = s.crews[d].p2p.erase x := by
      unfold dropP2p
      rw [updCrew_same, hl]
    have hcalmD : Calm (dropP2p (noteHeard s d r) d x) := calm_updCrew (calm_noteHeard hcalm d r) ((calm_noteHeard hcalm d r).1 d)
    obtain ⟨t, ht, hbut, hother, ⟨b, hb, hfly, -⟩, hcalmT, -, -, hev⟩ := retireUnit_ofCore (ki := ki) (i := i) (q := q) ((hcrew cr).trans ha)
      ((crewOwner_dict (s := s) rfl cr).trans ho) 0x52 (coTag x.word) (coEvent x.word) Res.okay
    rw [← hi] at ht
    have hdone : sendDone (noteHeard s d r) d x = ctrAdd t 0 (crewIdx d) 0x20 1 := by
      unfold sendDone
      rw [ht]
    refine ⟨_, exec_done_confirms n hon hst hx hc, ?_⟩
    rw [hdone, castReady_of_calm _ (calm_ctrAdd (hcalmT hcalmD) ..)]
    refine ⟨sameBut_then (sameBut_le (sameBut_then (sameBut_le hdrop [.courses, .host, .crews] rfl) hbut rfl) [.courses, .host, .crews, .dict] rfl)
      (ctrAdd_frames.sameBut [.dict] rfl) rfl, ?_, fun h0 h1 => ?_, ?_, ?_⟩
    · show t.crews[d].p2p = _
      by_cases hd : d = cr
      · subst hd
        rw [hb]
        exact hp2p
      · rw [hother d hd]
        exact hp2p
    · exact hev (by decide) h0 h1
    · show (t.crews[cr].attempt.map fun y => y.inFlight) = _
      rw [hb, ← hfly]
      rfl
    · rw [ctrGet_add_same, ctrGet_same_dict (hbut.2 .dict (by simp))]
      rfl
  · subst he
    exact exec_done_announces hon hst hcalm hp hx hn hl hgood

end Sys2Proof.Machine
end

section
/-! One Crew changes its state and its epoch (R266 to R270): what each step leaves of that Crew, and that it leaves every other. -/

namespace Sys2Proof.Machine

open Sys2Proof

/-- From `s` to `t` Crew `c` has become `k`: every other Crew and the way of every packet are as before, and so is every component but the
Crews and those that send, count and report. -/
structure Became (s t : State) (c : Fin 16) (k : Crew) : Prop where
  frames : SameBut [.rigger, .crews, .evolu, .dict, .counters, .out] s t
  routes : SameRoutes s t
  own : t.crews[c] = k
  other : ∀ d, d ≠ c → t.crews[d] = s.crews[d]

section
variable {s t u : State} {c : Fin 16} {j k : Crew}

theorem Became.trans (h : Became s t c j) (g : Became t u c k) : Became s u c k :=
  ⟨sameBut_then h.frames g.frames rfl, h.routes.trans g.routes, g.own, fun d hd => (g.other d hd).trans (h.other d hd)⟩

theorem became_updCrew (s : State) (c : Fin 16) (g : Crew → Crew) : Became s (updCrew s c g) c (g s.crews[c]) :=
  ⟨sameBut_le (updCrew_but s c g) _ rfl, sameRoutes_of_rigger rfl rfl, updCrew_same s c g, fun d hd => updCrew_other s c d g hd⟩

theorem became_of_crews (h : SameBut [.rigger, .evolu, .dict, .counters, .out] s t) (hr : SameRoutes s t) : Became s t c s.crews[c] := by
  have hc : t.crews = s.crews := h.2 .crews (by decide)
  exact ⟨sameBut_le h _ rfl, hr, by rw [hc], fun d _ => by rw [hc]⟩

theorem Sent.became (h : Sent s t c) : ∃ l, Became s t c { s.crews[c] with sent := l } := by
  obtain ⟨l, hl⟩ := h.crews.own
  exact ⟨l, h.frames.sameBut _ rfl, h.routes, hl, fun d hd => h.crews.other hd⟩

/-- An event is reported, and nothing else happens. -/
theorem Became.quiet (h : Became s t c k) (hf : Frames 8192 t u) : Became s u c k := by
  have hb := became_of_crews (c := c) (hf.sameBut [.rigger, .evolu, .dict, .counters, .out] rfl)
    (sameRoutes_of_rigger (congrArg Dict.vals (hf.dict rfl)) (hf.rigger rfl))
  rw [h.own] at hb
  exact h.trans hb

theorem became_setCrewState (s : State) (c : Fin 16) (q : CrewState) : Became s (setCrewState s c q) c { s.crews[c] with state := q } := by
  unfold setCrewState
  split
  · next h =>
    subst h
    exact became_of_crews (sameBut_refl _ s) (SameRoutes.refl s)
  · exact (became_updCrew s c fun k => { k with state := q }).quiet crewEvent_frames

/-- HS is 1 only where every peer's HELLO is held. -/
theorem became_checkHs (s : State) (c : Fin 16) : ∃ b, Became s (checkHs s c) c { s.crews[c] with hs := b } ∧
    (b = true ↔ s.crews[c].hs = true ∨ s.crews[c].state ≠ .undefined ∧ s.crews[c].rejoin = 0 ∧ ∀ x ∈ crewPeers s c, x ∈ s.crews[c].hellos) := by
  have hsame : Became s s c { s.crews[c] with hs := s.crews[c].hs } := became_of_crews (sameBut_refl _ s) (SameRoutes.refl s)
  unfold checkHs
  dsimp only
  by_cases hset : (s.crews[c].hs || decide (s.crews[c].state = .undefined) || decide (s.crews[c].rejoin ≠ 0)) = true
  · rw [if_pos hset]
    refine ⟨_, hsame, ?_⟩
    simp only [Bool.or_eq_true, decide_eq_true_eq] at hset
    tauto
  · rw [if_neg hset]
    simp only [Bool.or_eq_true, decide_eq_true_eq, not_or, not_not] at hset
    obtain ⟨⟨hhs, hst⟩, hrej⟩ := hset
    by_cases hall : (crewPeers s c).all s.crews[c].hellos.contains = true
    · rw [if_pos hall]
      refine ⟨true, became_updCrew s c _, ?_⟩
      have : ∀ x ∈ crewPeers s c, x ∈ s.crews[c].hellos := by simpa using hall
      tauto
    · rw [if_neg hall]
      refine ⟨_, hsame, ?_⟩
      have : ¬ ∀ x ∈ crewPeers s c, x ∈ s.crews[c].hellos := by simpa using hall
      tauto

/-- A Crew as a new epoch finds it, but for its HS. -/
def inEpoch (s : State) (k : Crew) (e : BitVec 32) (l : List (Nat × U64)) (b : Bool) : Crew :=
  { clearEpoch k with epoch := e, since := s.now, sent := l, hs := b }

/-- An epoch begins; with a peer left to hear of, HS stays 0 (R268). -/
theorem became_startEpoch (s : State) (c : Fin 16) (e : BitVec 32) : ∃ l b, Became s (startEpoch s c e).1 c (inEpoch s s.crews[c] e l b) ∧
    (crewPeers s c ≠ [] → b = false) := by
  have h0 := became_updCrew s c fun k => { clearEpoch k with epoch := e, since := s.now }
  unfold startEpoch sendHello
  dsimp only
  generalize updCrew s c _ = t at h0
  obtain ⟨l, h1⟩ := (sendSyncs_sent t c (crewPeers t c) 1 (leBytes 8 t.crews[c].hash.toNat ++ leBytes 4 (myRank t c))).became
  generalize (sendSyncs t c _ 1 _).1 = u at h1
  obtain ⟨b, h2, hb⟩ := became_checkHs u c
  refine ⟨l, b, ?_, fun hp => ?_⟩
  · have := (h0.trans h1).trans h2
    rw [h1.own, h0.own] at this
    exact this
  · have hpeers : crewPeers u c = crewPeers s c := crewPeers_vals (h0.routes.trans h1.routes).vals (by rw [h1.own, h0.own]; rfl)
    obtain ⟨x, hx⟩ := List.exists_mem_of_ne_nil _ hp
    by_contra htrue
    rw [Bool.not_eq_false, hb, h1.own, h0.own, hpeers] at htrue
    rcases htrue with hhs | ⟨-, -, hall⟩
    · cases hhs
    · cases hall x hx

/-- Where every peer can be reached, the epoch begins without a fault. -/
theorem startEpoch_routed (h : ∀ x ∈ crewPeers s c, (routePort s (rankMid s c x) false).isSome = true) (e : BitVec 32) :
    (startEpoch s c e).2 = none := by
  have h0 := became_updCrew s c fun k => { clearEpoch k with epoch := e, since := s.now }
  unfold startEpoch sendHello
  dsimp only
  generalize updCrew s c _ = t at h0
  refine sendSyncs_routed (fun x hx => ?_) _ _
  rw [crewPeers_vals h0.routes.vals (by rw [h0.own]; rfl)] at hx
  rw [rankMid_vals h0.routes.vals, h0.routes.routePort]
  exact h x hx

theorem nextEpoch_eq (k : Crew) : nextEpoch k = (if k.epoch.toNat < k.seen.toNat then k.seen else k.epoch) + 1 := rfl

theorem strokeRuns_same (hl : t.crews[c].launch = s.crews[c].launch) (hv : t.dict.vals = s.dict.vals) (hh : t.host = s.host) :
    strokeRuns t c = strokeRuns s c := by
  unfold strokeRuns launchUnretired
  rw [hl, hh, crewOwner_dict hv]

/-- Without a command in flight only what counts of them is cleared. -/
theorem became_failAll (ho : s.crews[c].ops = []) (hp : s.crews[c].p2p = []) (hw : s.crews[c].waiting = []) (res : Res) :
    Became s (failAll s c res) c { s.crews[c] with ops := [], p2p := [], waiting := [], credits := [], early := [], earlyRisen := [] } := by
  have hset : settleWaits s c = ctrAdd s 0 (crewIdx c) 0x25 0 := by
    unfold settleWaits stagesOf
    rw [hp]
    rfl
  unfold failAll
  dsimp only
  rw [hset, ho, hp, hw]
  have h0 : Became s (ctrAdd s 0 (crewIdx c) 0x25 0) c s.crews[c] := became_of_crews (ctrAdd_frames.sameBut _ rfl) (sameRoutes_ctrAdd ..)
  have h1 := h0.trans (became_updCrew _ c fun k => { k with ops := [], p2p := [], waiting := [], credits := [], early := [], earlyRisen := [] })
  rw [h0.own] at h1
  exact h1

/-- A Crew whose program neither ended nor voted and about which nothing is to be decided does no more than its operations do. -/
theorem settleCrew_still (hadv : advanceOps s c = t) (hlive : ∀ a, t.crews[c].attempt = some a → a.ended = false ∧ a.voteCmd = none ∧
    (t.crews[c].fin ≠ .unresolved ∨ crewP t c ≠ 1)) : settleCrew s c = t := by
  unfold settleCrew
  rw [hadv]
  dsimp only
  cases ha : t.crews[c].attempt with
  | none => rfl
  | some a =>
    obtain ⟨he, hv, hf⟩ := hlive a ha
    have hcast : castIfReady t c a = t := by
      unfold castIfReady
      rw [he, hv]
      simp
    have halone : decideAlone t c = t := by
      unfold decideAlone
      refine if_neg fun h => ?_
      simp only [Bool.and_eq_true, decide_eq_true_eq] at h
      exact hf.elim (fun hf => hf h.1) fun hf => hf h.2
    have hvote : retireVote t c = t := by
      unfold retireVote
      rw [ha]
      cases t.crews[c].decision with
      | none => rfl
      | some d => simp only [hv]
    dsimp only
    rw [he, if_neg Bool.false_ne_true, hcast, halone, hvote, actIfDecided_undecided ha fun h => by rw [he] at h; cases h]

end

end Sys2Proof.Machine
end

section
/-! RUN, TEST and DISSOLVE (R266, R267, R268, R270). -/

namespace Sys2Proof.Machine

open Sys2Proof

section
variable {s t : State} {r : Req} {c : Fin 16}

/-! ## The control's write -/

/-- What the control's write does, before what the module reports of it. -/
def controlWrite (s : State) (c : Fin 16) (v : Byte) : State :=
  if v = 1 then (requestRun s c).1 else if v = 2 then (requestTest s c).1 else castReady (dissolveCrew s c false)

theorem fin16_crewIdx (c : Fin 16) : fin16 (crewIdx c - 0x7200) = c := by
  unfold crewIdx
  rw [Nat.add_sub_cancel_left]
  exact dif_pos c.isLt

theorem woAction_control (s : State) (r : Req) (c : Fin 16) {v : Byte} (hv : v = 1 ∨ v = 2 ∨ v = 3) :
    (woAction s r (crewIdx c) 0x0D [v]).1 = controlWrite s c v := by
  have hidx : ∀ c : Fin 16, idxIn (crewIdx c) 0x5100 0x5113 = false ∧ crewIdx c ≠ 0x5300 ∧ idxIn (crewIdx c) 0x6400 0x643F = false ∧
      crewIdx c ≠ 0x6500 ∧ idxIn (crewIdx c) 0x7200 0x720F = true := by decide
  obtain ⟨h1, h2, h3, h4, h5⟩ := hidx c
  unfold woAction
  dsimp only
  rw [if_neg (by rw [h1]; decide), if_neg h2, if_neg (by rw [h3]; decide), if_neg h4, if_pos h5, if_neg (by decide), fin16_crewIdx]
  have hof : ofLe [v] = v.toNat := Nat.add_zero _
  rw [hof]
  unfold controlWrite
  rcases hv with rfl | rfl | rfl
  · rw [if_pos rfl]
    rfl
  · rw [if_neg (by decide), if_pos rfl]
    rfl
  · rw [if_neg (by decide), if_neg (by decide)]
    generalize castReady (dissolveCrew s c false) = d
    rfl

theorem rowWrite_control {v : Byte} (h : MayWrite s r (crewIdx c) 0x0D [v] 3) (hv : v = 1 ∨ v = 2 ∨ v = 3) :
    rowWrite s r (crewIdx c) 0x0D 0 [v] = moduleEvent s (controlWrite s c v) := by
  have hent : ∀ c : Fin 16, entryBytes (crewIdx c) 0x0D = 0 := by decide
  rw [rowWrite_wo h (hent c), woAction_control s r c hv]

/-! ## TEST and RUN -/

/-- The state with another request of the Crew. -/
def withReq (s : State) (c : Fin 16) (q : Option CrewReq) : State := updCrew s c fun k => { k with req := q }

theorem withReq_crew (s : State) (c : Fin 16) (q : Option CrewReq) : (withReq s c q).crews[c] = { s.crews[c] with req := q } := updCrew_same s c _

theorem withReq_twice (s : State) (c : Fin 16) (q q' : Option CrewReq) :
    updCrew (withReq s c q) c (fun k => { k with req := q' }) = withReq s c q' := updCrew_twice s c _ _

theorem strokeRuns_withReq (s : State) (c : Fin 16) (q : Option CrewReq) : strokeRuns (withReq s c q) c = strokeRuns s c :=
  strokeRuns_same (s := s) (by rw [withReq_crew]) rfl rfl

theorem applyReq_test (hst : s.crews[c].state = .forming ∨ s.crews[c].state = .running) (hr : strokeRuns s c = false) :
    applyReq (withReq s c (some .test)) c = setCrewState (withReq s c none) c .test := by
  unfold applyReq
  dsimp only
  rw [strokeRuns_withReq, hr, if_neg Bool.false_ne_true, withReq_crew, withReq_twice]
  rcases hst with h | h <;> rw [h]

theorem applyReq_run (hst : s.crews[c].state = .test) (hr : strokeRuns s c = false) :
    applyReq (withReq s c (some .run)) c = orNoRoute (newEpoch (setCrewState (withReq s c none) c .forming) c) c := by
  unfold applyReq
  dsimp only
  rw [strokeRuns_withReq, hr, if_neg Bool.false_ne_true, withReq_crew, withReq_twice, hst]

/-- TEST outside a Stroke (R267). -/
theorem controlWrite_test (hst : s.crews[c].state = .forming ∨ s.crews[c].state = .running) (hr : strokeRuns s c = false) :
    controlWrite s c 2 = setCrewState (withReq s c none) c .test := by
  have happly := applyReq_test hst hr
  unfold controlWrite
  rw [if_neg (by decide), if_pos rfl]
  unfold requestTest
  rcases hst with h | h <;> rw [h] <;> exact happly

/-- RUN of a Crew in TEST (R267): its next epoch begins. -/
theorem controlWrite_run (hst : s.crews[c].state = .test) (hr : strokeRuns s c = false) :
    controlWrite s c 1 = orNoRoute (newEpoch (setCrewState (withReq s c none) c .forming) c) c := by
  unfold controlWrite
  rw [if_pos rfl]
  unfold requestRun
  rw [hst]
  exact applyReq_run hst hr

theorem crewTest_changes (hst : s.crews[c].state = .forming ∨ s.crews[c].state = .running) (hr : strokeRuns s c = false) :
    SameBut [.crews, .evolu] s (controlWrite s c 2) ∧
      (controlWrite s c 2).crews = s.crews.set c { s.crews[c] with state := .test, req := none } := by
  have hne : s.crews[c].state ≠ .test := by rcases hst with h | h <;> rw [h] <;> decide
  have htest : controlWrite s c 2 = crewEvent (updCrew (withReq s c none) c fun k => { k with state := .test }) c := by
    rw [controlWrite_test hst hr]
    unfold setCrewState
    rw [withReq_crew]
    exact if_neg hne
  unfold withReq at htest
  rw [updCrew_twice] at htest
  rw [htest]
  refine ⟨sameBut_trans (updCrew_but s c _) (crewEvent_frames.sameBut [.evolu] rfl) _ rfl rfl, ?_⟩
  rw [crewEvent_frames.crews rfl]
  rfl

theorem crewRun_changes (hst : s.crews[c].state = .test) (hr : strokeRuns s c = false)
    (hroute : ∀ x ∈ crewPeers s c, (routePort s (rankMid s c x) false).isSome = true) :
    ∃ l b, Became s (controlWrite s c 1) c (inEpoch s { s.crews[c] with state := .forming, req := none } (nextEpoch s.crews[c]) l b) := by
  have h1 := (became_updCrew s c fun k => { k with req := none }).trans (became_setCrewState (withReq s c none) c .forming)
  rw [withReq_crew] at h1
  rw [controlWrite_run hst hr]
  generalize setCrewState _ c .forming = t at h1
  have hlost : (newEpoch t c).2 = none := startEpoch_routed (fun x hx => by
    rw [crewPeers_vals h1.routes.vals (by rw [h1.own])] at hx
    rw [rankMid_vals h1.routes.vals, h1.routes.routePort]
    exact hroute x hx) _
  have hnow : t.now = s.now := h1.frames.2 .now (by decide)
  obtain ⟨l, b, h2, -⟩ := became_startEpoch t c (nextEpoch t.crews[c])
  unfold orNoRoute
  rw [hlost]
  have hin : inEpoch t t.crews[c] (nextEpoch t.crews[c]) l b = inEpoch s { s.crews[c] with state := .forming, req := none } (nextEpoch s.crews[c]) l b := by
    rw [h1.own]
    unfold inEpoch
    rw [hnow]
    rfl
  exact ⟨l, b, hin ▸ h1.trans h2⟩

/-! ## DISSOLVE -/

/-- Without a Stroke of the Crew no tile is released. -/
theorem releaseTiles_idle (h : s.crews[c].launch = none) : releaseTiles s c = s := by
  unfold releaseTiles
  rw [h]
  dsimp only [Option.map_none, Option.isSome_none]
  refine if_pos (List.sum_eq_zero fun m hm => ?_)
  obtain ⟨k, -, rfl⟩ := List.mem_map.1 hm
  simp

theorem endStroke_idle (h : s.crews[c].launch = none) (res : Res) : endStroke s c res = updCrew s c fun k =>
    { k with launch := none, attempt := none, fin := .idle, decision := none, logged := none, aborts := [], nextAttempt := 1, waitNext := false,
             ops := k.ops.filter fun o => !o.retired, cut := ⟨[], none, none⟩ } := by
  unfold endStroke
  rw [h]

/-- The objects of a membership have no value any more. -/
theorem objBytes_dropped (s : State) (c : Fin 16) {x : Nat} (h2 : 2 ≤ x) (h6 : x ≤ 6) (z : List Byte) :
    objBytes ([2, 3, 4, 5, 6].foldl (fun s i => dropObj s 0 (crewIdx c) i) s) 0 (crewIdx c) x z = z := by
  unfold objBytes assocGet
  have hnone : ([2, 3, 4, 5, 6].foldl (fun s i => dropObj s 0 (crewIdx c) i) s).dict.vals.find? (fun e => e.1 = ⟨0, crewIdx c, x⟩) = none := by
    refine List.find?_eq_none.2 fun e he => ?_
    simp only [dropObj, List.foldl_cons, List.foldl_nil, List.mem_filter, decide_eq_true_eq] at he
    obtain ⟨⟨⟨⟨⟨-, n2⟩, n3⟩, n4⟩, n5⟩, n6⟩ := he
    simp only [decide_eq_true_eq]
    intro hkey
    have : x = 2 ∨ x = 3 ∨ x = 4 ∨ x = 5 ∨ x = 6 := by omega
    rcases this with rfl | rfl | rfl | rfl | rfl <;> contradiction
  rw [hnone]

/-- What the end of a Crew leaves of it (R266, R270). -/
def dissolved (k : Crew) : Crew :=
  { clearEpoch k with rank := none, hash := 0, req := none, heard := [], sent := [], log := [], decisions := [], topUpd := 0, topFault := 0xFFFFFFFF,
                      tookOver := false, rejoin := 0, copyNext := 0, exporting := none }

/-- The end of a Crew without a Stroke and without a command in flight. -/
theorem dissolveCrew_idle (hst : s.crews[c].state ≠ .undefined) (hops : s.crews[c].ops = []) (hp : s.crews[c].p2p = []) (hw : s.crews[c].waiting = [])
    (hat : s.crews[c].attempt = none) (hl : s.crews[c].launch = none) :
    ∃ u, SameBut [.rigger, .crews, .evolu, .dict, .counters, .out] s u ∧ (∀ d, d ≠ c → u.crews[d] = s.crews[d]) ∧
      u.crews[c].state = .undefined ∧ u.crews[c].fin = .idle ∧ u.crews[c].attempt = none ∧ u.crews[c].ops = [] ∧ u.crews[c].waiting = [] ∧
      dissolveCrew s c false = updCrew ([2, 3, 4, 5, 6].foldl (fun s i => dropObj s 0 (crewIdx c) i) u) c dissolved := by
  have h1 := became_failAll hops hp hw (crewStateRes s c 6 none none)
  unfold dissolveCrew
  rw [if_neg hst]
  dsimp only
  generalize failAll s c _ = t at h1
  rw [h1.own]
  dsimp only
  rw [hat]
  dsimp only
  rw [if_neg Bool.false_ne_true]
  rw [releaseTiles_idle (by rw [h1.own]; exact hl), endStroke_idle (by rw [h1.own]; exact hl)]
  have h2 := h1.trans (became_updCrew t c fun k =>
    { k with launch := none, attempt := none, fin := .idle, decision := none, logged := none, aborts := [], nextAttempt := 1, waitNext := false,
             ops := k.ops.filter fun o => !o.retired, cut := ⟨[], none, none⟩ })
  generalize updCrew t c _ = t2 at h2
  have h3 := h2.trans (became_setCrewState t2 c .undefined)
  generalize setCrewState t2 c .undefined = t3 at h3
  have hcancel : Frames 24576 t3 (genBump (cancelCrew t3 c) 0 (crewIdx c) 6) := cancelCrew_frames.step genBump_frames rfl
  have hcrews : (genBump (cancelCrew t3 c) 0 (crewIdx c) 6).crews = t3.crews := hcancel.crews rfl
  refine ⟨_, sameBut_then h3.frames (hcancel.sameBut [.evolu, .dict] rfl) rfl, fun d hd => ?_, ?_, ?_, ?_, ?_, ?_, rfl⟩
  · rw [hcrews]
    exact h3.other d hd
  · rw [hcrews, h3.own]
  all_goals rw [hcrews, h3.own, h2.own]
  all_goals rw [h1.own]
  all_goals rfl

/-- What a DISSOLVE that nothing holds up leaves. -/
structure Dissolved (s t : State) (c : Fin 16) : Prop where
  other : ∀ d, d ≠ c → t.crews[d] = s.crews[d]
  own : t.crews[c].state = .undefined ∧ t.crews[c].rank = none ∧ t.crews[c].hash = 0 ∧ t.crews[c].hs = false ∧ t.crews[c].fin = .idle
  objects : ∀ x z, 2 ≤ x → x ≤ 6 → objBytes t 0 (crewIdx c) x z = z
  memories : t.courses = s.courses ∧ t.pallets = s.pallets ∧ t.hbm = s.hbm ∧ t.host = s.host

theorem Dissolved.quiet {t u : State} (h : Dissolved s t c) (hf : Frames 8192 t u) : Dissolved s u c := by
  obtain ⟨hother, hown, hobj, hmem⟩ := h
  have hc := hf.crews rfl
  refine ⟨fun d hd => hc ▸ hother d hd, hc ▸ hown, fun x z h2 h6 => ?_, ?_⟩
  · rw [objBytes_vals (congrArg Dict.vals (hf.dict rfl))]
    exact hobj x z h2 h6
  · rw [hf.courses rfl, hf.pallets rfl, hf.hbm rfl, hf.host rfl]
    exact hmem

theorem crewDissolve_changes (hcalm : Calm s) (hr : strokeRuns s c = false) (hst : s.crews[c].state ≠ .undefined) (hp : s.crews[c].p2p = [])
    (hat : s.crews[c].attempt = none) : Dissolved s (controlWrite s c 3) c := by
  have hl : s.crews[c].launch = none := by
    unfold strokeRuns at hr
    exact Option.isNone_iff_eq_none.1 (by simpa using (Bool.or_eq_false_iff.1 hr).1)
  obtain ⟨hops, hw⟩ := calm_free hcalm c
  obtain ⟨u, hbut, hother, hstate, hfin, hau, hou, hwu, hd⟩ := dissolveCrew_idle hst hops hp hw hat hl
  have hobj := fun x z h2 h6 => objBytes_dropped u c (x := x) h2 h6 z
  have hu : Calm u := by
    refine ⟨fun d => ?_, by rw [show u.host = s.host from hbut.2 .host (by decide)]; exact hcalm.2⟩
    by_cases hdc : d = c
    · subst hdc
      exact (crewCalm_iff _).2 ⟨by rw [hou, hwu]; exact ⟨rfl, rfl⟩, fun a ha => by rw [hau] at ha; cases ha⟩
    · rw [hother d hdc]
      exact hcalm.1 d
  have hdrop : Frames 16384 u ([2, 3, 4, 5, 6].foldl (fun s i => dropObj s 0 (crewIdx c) i) u) := (Frames.refl _ u).foldl fun t i h => h.step dropObj_frames rfl
  generalize [2, 3, 4, 5, 6].foldl (fun s i => dropObj s 0 (crewIdx c) i) u = v at hd hobj hdrop
  have hv : Calm v := calm_of_same u v (hdrop.crews rfl) (congrArg HostPort.funcs (hdrop.host rfl)) hu
  unfold controlWrite
  rw [if_neg (by decide), if_neg (by decide), hd]
  rw [castReady_of_calm _ (calm_updCrew hv (hv.1 c))]
  refine ⟨fun d hne => ?_, ?_, hobj, (hdrop.courses rfl).trans (hbut.2 .courses (by decide)), (hdrop.pallets rfl).trans (hbut.2 .pallets (by decide)),
    (hdrop.hbm rfl).trans (hbut.2 .hbm (by decide)), (hdrop.host rfl).trans (hbut.2 .host (by decide))⟩
  · rw [updCrew_other _ _ _ _ hne, hdrop.crews rfl]
    exact hother d hne
  · rw [updCrew_same, hdrop.crews rfl]
    exact ⟨hstate, rfl, rfl, rfl, hfin⟩

end

/-- Settles O43: the control's write does what `crewTest_changes`, `crewRun_changes` and `crewDissolve_changes` say, and what the module
reports of it changes no more than its events. -/
theorem crewControl : Obligations.CrewControl := by
  unfold Obligations.CrewControl
  intro s r c hcalm hr
  refine ⟨fun h hst => next_of h.on ?_, fun h hst hroute => next_of h.on ?_, fun h hst hat hp _ _ _ => next_of h.on ?_⟩
  · obtain ⟨hbut, hcrews⟩ := crewTest_changes hst hr
    rw [rowWrite_control h (.inr (.inl rfl))]
    exact ⟨sameBut_then hbut (moduleEvent_frames.sameBut [.evolu] rfl) rfl, (moduleEvent_frames.crews rfl).trans hcrews⟩
  · obtain ⟨l, b, hrun⟩ := crewRun_changes hst hr hroute
    rw [rowWrite_control h (.inl rfl)]
    have hdone := hrun.quiet (moduleEvent_frames (s := s))
    refine ⟨hdone.frames, hdone.other, ?_⟩
    rw [hdone.own]
    exact ⟨rfl, rfl, rfl, rfl, rfl, nextEpoch_eq _, rfl⟩
  · obtain ⟨hother, hown, hobj, hmem⟩ := (crewDissolve_changes hcalm hr hst hp hat).quiet (moduleEvent_frames (s := s))
    rw [rowWrite_control h (.inr (.inr rfl))]
    obtain ⟨hstate, hrank, hhash, hhs, hfin⟩ := hown
    exact ⟨hother, hstate, hrank, hhash, hhs, hfin, hobj, hmem⟩

end Sys2Proof.Machine
end

section
/-! A packet of a Crew's protocol leaves at once where its port keeps nothing back and has room (R241, R249, R291). -/

namespace Sys2Proof.Machine

open Sys2Proof

/-! ## The kind of a packet -/

theorem leAt_append (a b : List Byte) : leAt (a ++ b) 0 a.length = ofLe a := by
  unfold leAt sliceZ
  simp

/-- The kind in the header of a packet (R241). -/
theorem pkType_built {type dst src ctag len msg xtag : Nat} (ht : type < 16) (hl : len < 2 ^ 13) (payload : List Byte) :
    pkType (leBytes 28 (packetHdr type false false dst src ctag len 0 msg xtag) ++ payload) = type := by
  have hd : dst % 2 ^ 17 < 2 ^ 17 := Nat.mod_lt _ (by decide)
  have hs : src % 2 ^ 17 < 2 ^ 17 := Nat.mod_lt _ (by decide)
  have hc : ctag % 2 ^ 16 < 2 ^ 16 := Nat.mod_lt _ (by decide)
  have hm : msg % 2 ^ 32 < 2 ^ 32 := Nat.mod_lt _ (by decide)
  have hx : xtag % 2 ^ 16 < 2 ^ 16 := Nat.mod_lt _ (by decide)
  have hhdr : pkHdr (leBytes 28 (packetHdr type false false dst src ctag len 0 msg xtag) ++ payload) =
      packetHdr type false false dst src ctag len 0 msg xtag % 256 ^ 28 := by
    have h := leAt_append (leBytes 28 (packetHdr type false false dst src ctag len 0 msg xtag)) payload
    rw [leBytes_length, ofLe_leBytes] at h
    exact h
  unfold pkType
  rw [hhdr]
  unfold packetHdr place nfld
  generalize dst % 2 ^ 17 = d at *
  generalize src % 2 ^ 17 = e at *
  generalize ctag % 2 ^ 16 = f at *
  generalize msg % 2 ^ 32 = g at *
  generalize xtag % 2 ^ 16 = h at *
  simp
  omega

/-! ## At once -/

section
variable {s : State} {p : Fin 16} {w : Queued}

/-- Among the packets of a rank the one that waits leaves, and of another rank none does. -/
theorem flushRank_one (hw : s.rigger.ports[p].waiting = [w]) (hroom : portRoom s.rigger.ports[p] w.hop w.raw = true) (r : Nat) :
    flushRank s p r = if pkRank w.hop w.raw = r then leaveNow s p w else s := by
  unfold flushRank
  rw [hw]
  split
  · next h =>
    rw [List.filter_cons_of_pos (by simpa using h), List.filter_nil]
    dsimp only [List.foldl_cons, List.foldl_nil]
    rw [hroom]
    rfl
  · next h =>
    rw [List.filter_cons_of_neg (by simpa using h)]
    rfl

theorem leaveNow_waiting (s : State) (p : Fin 16) (w : Queued) : (leaveNow s p w).rigger.ports[p].waiting = s.rigger.ports[p].waiting.erase w := by
  unfold leaveNow
  generalize hT : updPort s p (fun k => { k with waiting := k.waiting.erase w }) = t
  have ht : t.rigger.ports[p].waiting = s.rigger.ports[p].waiting.erase w := by rw [← hT, updPort_same]
  unfold transmitNow
  dsimp only
  generalize hU : updPort t p _ = u
  have hrigger (n b : Nat) (o : Out) : (emit (evAdd (ctrAdd u 0 n 0x10 1) 0x5001 p 0xFF b) o).rigger = u.rigger :=
    (evAdd_frames (s := ctrAdd u 0 n 0x10 1) (code := 0x5001) (unit := p) (part := 0xFF) (n := b)).rigger rfl
  rw [hrigger, ← hU, updPort_same]
  exact ht

theorem leaveNow_out (s : State) (p : Fin 16) (w : Queued) : (leaveNow s p w).out = portSends s p w.raw :: s.out := by
  unfold leaveNow
  generalize hT : updPort s p (fun k => { k with waiting := k.waiting.erase w }) = t
  have hseq : t.rigger.ports[p].txSeq = s.rigger.ports[p].txSeq := by rw [← hT, updPort_same]
  have hout : t.out = s.out := by rw [← hT]; rfl
  unfold transmitNow portSends
  rw [← hseq, ← hout]
  rfl

/-- The one packet that waits is of VOTE or SYNC and leaves. -/
theorem flushPort_one (hw : s.rigger.ports[p].waiting = [w]) (hroom : portRoom s.rigger.ports[p] w.hop w.raw = true) (hr : pkRank w.hop w.raw = 1) :
    flushPort s p = leaveNow s p w := by
  have hnone : (leaveNow s p w).rigger.ports[p].waiting = [] := by
    rw [leaveNow_waiting, hw]
    simp
  unfold flushPort
  dsimp only
  rw [flushRank_one hw hroom, hr, if_neg (by decide), flushRank_one hw hroom, hr, if_pos rfl, hnone]
  rfl

/-- A packet of VOTE or SYNC leaves a port that keeps nothing back and has room for it. -/
theorem sendPacket_leaves {dst type ctag msg xtag : Nat} {payload : List Byte} (share : Nat × Nat) (hp : routePort s dst false = some p)
    (hw : s.rigger.ports[p].waiting = []) (hroom : portRoom s.rigger.ports[p] false
      (leBytes 28 (packetHdr type false false dst (ownMid s) ctag payload.length 0 msg xtag) ++ payload) = true)
    (h3 : 3 ≤ type) (ht : type < 16) (hl : payload.length < 2 ^ 13) :
    (sendPacket s dst type none ctag 0 msg xtag payload share).1.out =
      portSends s p (leBytes 28 (packetHdr type false false dst (ownMid s) ctag payload.length 0 msg xtag) ++ payload) :: s.out := by
  have hf : Frames 16384 s (countMiscabled s dst) := countMiscabled_frames
  have hroutes := sameRoutes_countMiscabled s dst
  unfold sendPacket
  generalize countMiscabled s dst = t at hf hroutes
  dsimp only
  have hmid : ownMid t = ownMid s := objNat_vals hroutes.vals ..
  rw [hroutes.routePort, hp, hmid]
  dsimp only
  rw [Option.isSome_none, List.append_nil]
  have hports : t.rigger = s.rigger := hf.rigger rfl
  have hout : t.out = s.out := hf.out rfl
  have hrank : pkRank false (leBytes 28 (packetHdr type false false dst (ownMid s) ctag payload.length 0 msg xtag) ++ payload) = 1 := by
    unfold pkRank
    rw [pkType_built ht hl, if_neg Bool.false_ne_true, if_pos h3]
  generalize leBytes 28 (packetHdr type false false dst (ownMid s) ctag payload.length 0 msg xtag) ++ payload = raw at hroom hrank
  unfold queuePacket
  generalize hU : updPort t p _ = u
  have hport : u.rigger.ports[p] = { s.rigger.ports[p] with waiting := [⟨false, raw, share.1, share.2⟩] } := by
    rw [← hU, updPort_same, hports, hw]
    rfl
  rw [flushPort_one (w := ⟨false, raw, share.1, share.2⟩) (by rw [hport]) (by rw [hport]; exact hroom) hrank, leaveNow_out]
  unfold portSends
  rw [hport, show u.out = s.out by rw [← hU]; exact hout]

theorem sendRank_sends {c : Fin 16} {r : Nat} (h : (routePort s (rankMid s c r) false).isSome = true) (type : Nat) (endc : Option (BitVec 64))
    (offset msg xtag : Nat) (payload : List Byte) (share : Nat × Nat) : sendRank s c r type endc offset msg xtag payload share =
      (ctrAdd (noteSent (sendPacket s (rankMid s c r) type endc (crewTag s c) offset msg xtag payload share).1 c r) 0 (crewIdx c) 0x21 payload.length,
        true) := by
  unfold sendRank
  dsimp only
  rw [sendPacket_routed _ _ _ _ _ _ _ h, if_pos rfl]

theorem noteSent_sent (t : State) (c : Fin 16) (r : Nat) : assocGet (noteSent t c r).crews[c].sent r 0 = t.now := by
  unfold noteSent assocGet
  rw [updCrew_same]
  simp

theorem sendSync_rank {c : Fin 16} (hq : s.power.quiesced = false) (r kind : Nat) (body : List Byte) :
    sendSync s c r kind 0 body = sendRank s c r 4 none 0 (epochMsg s c) 0 (syncBody s c kind body) := by
  unfold sendSync sendSyncOf
  rw [hq]
  rfl

/-- A SYNC packet leaves at once, and the time it leaves at is noted. -/
theorem sendSync_leaves {c : Fin 16} {r kind : Nat} {body : List Byte} (hq : s.power.quiesced = false)
    (hport : RankPort s c r p (rankPacket s c r 4 0 (syncBody s c kind body))) (hl : body.length < 2 ^ 12) :
    (sendSync s c r kind 0 body).2 = true ∧ (sendSync s c r kind 0 body).1.out = portSends s p (rankPacket s c r 4 0 (syncBody s c kind body)) :: s.out ∧
      assocGet (sendSync s c r kind 0 body).1.crews[c].sent r 0 = s.now := by
  obtain ⟨hp, hw, hroom⟩ := hport
  have hlen : (syncBody s c kind body).length < 2 ^ 13 := by
    unfold syncBody
    simp only [List.length_append, leBytes_length]
    omega
  rw [sendSync_rank hq, sendRank_sends (by rw [hp]; rfl)]
  refine ⟨rfl, sendPacket_leaves (0, 0) hp hw hroom (by decide) (by decide) hlen, ?_⟩
  rw [ctrAdd_crews, noteSent_sent]
  exact sendPacket_frames.now rfl

end

end Sys2Proof.Machine
end

section
/-! HELLO, heartbeat and the loss of a member (R268, R269, R270, R296). -/

namespace Sys2Proof.Machine

open Sys2Proof

/-! ## HELLO -/

section
variable {s t : State} {c : Fin 16} {r : Nat} {e : BitVec 32}

/-- The state in which a packet of a peer has been heard and its epoch seen. -/
def heardHello (s : State) (c : Fin 16) (r : Nat) (e : BitVec 32) : State :=
  updCrew (noteHeard s c r) c fun k => { k with seen := if k.seen.toNat < e.toNat then e else k.seen }

theorem assocGet_filed {α : Type} (l : List (Nat × α)) (r : Nat) (v z : α) : assocGet ((r, v) :: l) r z = v := by
  unfold assocGet
  simp

theorem heardHello_crew (s : State) (c : Fin 16) (r : Nat) (e : BitVec 32) : ∃ l q, assocGet l r 0 = s.now ∧
    (heardHello s c r e).crews[c] = { s.crews[c] with heard := l, seen := q } := by
  refine ⟨_, if s.crews[c].seen.toNat < e.toNat then e else s.crews[c].seen,
    assocGet_filed (s.crews[c].heard.filter fun x => x.1 ≠ r) r s.now 0, ?_⟩
  unfold heardHello noteHeard
  rw [updCrew_same, updCrew_same]

theorem became_heardHello (s : State) (c : Fin 16) (r : Nat) (e : BitVec 32) : Became s (heardHello s c r e) c (heardHello s c r e).crews[c] := by
  have h := (became_updCrew s c fun k => { k with heard := (r, s.now) :: k.heard.filter fun x => x.1 ≠ r }).trans
    (became_updCrew (noteHeard s c r) c fun k => { k with seen := if k.seen.toNat < e.toNat then e else k.seen })
  exact ⟨h.frames, h.routes, rfl, h.other⟩

theorem exec_hello_hears (hon : s.power.on = true) (hst : s.crews[c].state ≠ .undefined) (hr : r ∈ crewPeers s c) (hle : e.toNat ≤ s.crews[c].epoch.toNat) :
    exec (.hello c r s.crews[c].hash e) s = .next (if e.toNat < s.crews[c].epoch.toNat then ctrAdd (heardHello s c r e) 0 (crewIdx c) 0x27 1
      else castReady (applyReq (checkHs (holdHello (heardHello s c r e) c r) c) c)) := by
  refine (powered_on hon _).trans (congrArg _ ?_)
  have hpeer : (decide (s.crews[c].state = .undefined) || !(crewPeers s c).contains r) = false := by
    rw [decide_eq_false hst, List.contains_iff_mem.2 hr]
    rfl
  dsimp only
  rw [hpeer, if_neg Bool.false_ne_true, if_neg (not_not.2 rfl), if_neg (by omega)]
  rfl

theorem tellPending_none (h : s.crews[c].state ≠ .recovering) (r : Nat) : tellPending s c r = s := by
  unfold tellPending
  dsimp only
  rw [decide_eq_true h]
  rfl

/-- A HELLO that is new is held and answered (R268). -/
theorem became_holdHello (hst : s.crews[c].state ≠ .recovering) (hr : r ∉ s.crews[c].hellos)
    (hroute : (routePort s (rankMid s c r) false).isSome = true) :
    ∃ l, Became s (holdHello s c r) c { s.crews[c] with hellos := s.crews[c].hellos ++ [r], sent := l } ∧ (holdHello s c r).evolu = s.evolu := by
  have h0 := became_updCrew s c fun k => { k with hellos := k.hellos ++ [r] }
  have hnew : ¬ s.crews[c].hellos.contains r = true := by simpa using hr
  unfold holdHello sendHello
  rw [if_neg hnew]
  dsimp only
  have hev : (updCrew s c fun k => { k with hellos := k.hellos ++ [r] }).evolu = s.evolu := rfl
  generalize updCrew s c _ = t at h0 hev
  have hsent := sendSyncs_sent t c [r] 1 (leBytes 8 t.crews[c].hash.toNat ++ leBytes 4 (myRank t c))
  have hevSent := (hsent.frames.evolu rfl).trans hev
  obtain ⟨l, h1⟩ := hsent.became
  have hlost := sendSyncs_routed (s := t) (c := c) (rs := [r]) (fun x hx => by
    rw [List.mem_singleton.1 hx, rankMid_vals h0.routes.vals, h0.routes.routePort]
    exact hroute) 1 (leBytes 8 t.crews[c].hash.toNat ++ leBytes 4 (myRank t c))
  generalize sendSyncs t c [r] 1 _ = u at h1 hlost hevSent
  have h2 := h0.trans h1
  rw [h0.own] at h2
  unfold orNoRoute
  rw [hlost]
  refine ⟨l, ?_⟩
  rw [tellPending_none (by rw [h2.own]; exact hst)]
  exact ⟨h2, hevSent⟩

theorem hello_held (hcalm : Calm s) (hst : s.crews[c].state ≠ .undefined) (hrec : s.crews[c].state ≠ .recovering) (hr : r ∉ s.crews[c].hellos)
    (hreq : s.crews[c].req = none) (hhs : s.crews[c].hs = false) (hroute : (routePort s (rankMid s c r) false).isSome = true) :
    ∃ l q m b, assocGet l r 0 = s.now ∧ (castReady (applyReq (checkHs (holdHello (heardHello s c r e) c r) c) c)).evolu = s.evolu ∧ Became s (castReady (applyReq (checkHs (holdHello (heardHello s c r e) c r) c) c)) c
        { s.crews[c] with heard := l, seen := q, hellos := s.crews[c].hellos ++ [r], sent := m, hs := b } ∧
      (b = true ↔ s.crews[c].rejoin = 0 ∧ ∀ x ∈ crewPeers s c, x ∈ s.crews[c].hellos ∨ x = r) := by
  have h0 := became_heardHello s c r e
  obtain ⟨l, q, hl, hk⟩ := heardHello_crew s c r e
  rw [hk] at h0
  have hevHeard : (heardHello s c r e).evolu = s.evolu := rfl
  generalize heardHello s c r e = t at h0 hevHeard
  obtain ⟨m, h1, hevHeld⟩ := became_holdHello (s := t) (c := c) (r := r) (by rw [h0.own]; exact hrec) (by rw [h0.own]; exact hr)
    (by rw [rankMid_vals h0.routes.vals, h0.routes.routePort]; exact hroute)
  have h2 := h0.trans h1
  rw [h0.own] at h2
  replace hevHeld := hevHeld.trans hevHeard
  generalize holdHello t c r = u at h2 hevHeld
  obtain ⟨b, h3, hb⟩ := became_checkHs u c
  have h4 := h2.trans h3
  have hpeers : crewPeers u c = crewPeers s c := crewPeers_vals h2.routes.vals (by rw [h2.own])
  rw [h2.own] at h4 hb
  rw [hpeers] at hb
  have hev : (checkHs u c).evolu = s.evolu := (checkHs_frames.evolu rfl).trans hevHeld
  generalize checkHs u c = v at h4 hev
  have hv : Calm v := by
    refine ⟨fun d => ?_, by rw [show v.host = s.host from h4.frames.2 .host (by decide)]; exact hcalm.2⟩
    by_cases hd : d = c
    · subst hd
      exact crewCalm_of_free (hcalm.1 d) (by rw [h4.own]; exact (calm_free hcalm d).1) (by rw [h4.own]; exact (calm_free hcalm d).2)
        (by rw [h4.own]) (by rw [h4.own])
    · rw [h4.other d hd]
      exact hcalm.1 d
  rw [applyReq_none (by rw [h4.own]; exact hreq), castReady_of_calm v hv]
  refine ⟨l, q, m, b, hl, hev, h4, ?_⟩
  · have hb' : b = true ↔ s.crews[c].hs = true ∨ s.crews[c].state ≠ .undefined ∧ s.crews[c].rejoin = 0 ∧
        ∀ x ∈ crewPeers s c, x ∈ s.crews[c].hellos ++ [r] := hb
    rw [hb', hhs]
    simp only [Bool.false_eq_true, false_or, List.mem_append, List.mem_singleton]
    exact and_iff_right hst

end

/-! ## HELLO_RESEND and HEARTBEAT -/

section
variable {s t : State} {c : Fin 16} {r : Nat} {q : Fin 16}

/-- One SYNC packet has left at once, and all else is as packets leave it. -/
structure SentNow (s t : State) (c : Fin 16) (r : Nat) (q : Fin 16) (raw : List Byte) : Prop where
  sent : Sent s t c
  out : t.out = portSends s q raw :: s.out
  noted : assocGet t.crews[c].sent r 0 = s.now

theorem sendSync_now {kind : Nat} {body : List Byte} (hq : s.power.quiesced = false)
    (hport : RankPort s c r q (rankPacket s c r 4 0 (syncBody s c kind body))) (hl : body.length < 2 ^ 12) :
    (sendSync s c r kind 0 body).2 = true ∧ SentNow s (sendSync s c r kind 0 body).1 c r q (rankPacket s c r 4 0 (syncBody s c kind body)) := by
  obtain ⟨hok, hout, hnoted⟩ := sendSync_leaves hq hport hl
  exact ⟨hok, sendSync_sent .., hout, hnoted⟩

theorem exec_helloResend_sends (hon : s.power.on = true) (hcalm : Calm s) (hst : s.crews[c].state ≠ .undefined) (hq : s.power.quiesced = false)
    (hhs : s.crews[c].hs = false) (hone : (crewPeers s c).filter (fun x => !s.crews[c].hellos.contains x) = [r])
    (hport : RankPort s c r q (rankPacket s c r 4 0 (helloBody s c))) :
    ∃ t, exec (.helloResend c) s = .next t ∧ SentNow s t c r q (rankPacket s c r 4 0 (helloBody s c)) := by
  obtain ⟨hok, hnow⟩ := sendSync_now hq hport (by simp only [List.length_append, leBytes_length]; omega)
  have hhello : sendHello s c [r] = ((sendSync s c r 1 0 (leBytes 8 s.crews[c].hash.toNat ++ leBytes 4 (myRank s c))).1, none) := by
    unfold sendHello sendSyncs
    rw [List.foldl_cons, List.foldl_nil]
    dsimp only
    rw [hok, if_pos rfl]
  refine ⟨_, (powered_on hon _).trans (congrArg _ ?_), hnow⟩
  have hgo : (decide (s.crews[c].state = .undefined) || s.crews[c].hs) = false := by rw [decide_eq_false hst, hhs]; rfl
  dsimp only
  rw [hgo, if_neg Bool.false_ne_true, hone, hhello]
  exact castReady_of_calm _ (hnow.sent.calm hcalm)

theorem reach_now (s : State) (t : U64) : s.now.toNat ≤ (reach s t).now.toNat ∧ t.toNat ≤ (reach s t).now.toNat := by
  unfold reach
  split
  · next h => exact ⟨h.le, le_rfl⟩
  · next h => exact ⟨le_rfl, Nat.not_lt.1 h⟩

theorem rankPacket_same (hv : t.dict.vals = s.dict.vals) (hc : t.crews = s.crews) (c : Fin 16) (r type xtag : Nat) (payload : List Byte) :
    rankPacket t c r type xtag payload = rankPacket s c r type xtag payload := by
  unfold rankPacket ownMid crewTag epochMsg
  rw [rankMid_vals hv, objNat_vals hv, objNat_vals hv, hc]

theorem rankPort_same (hv : t.dict.vals = s.dict.vals) (hr : t.rigger = s.rigger) {raw : List Byte} (h : RankPort s c r q raw) : RankPort t c r q raw := by
  unfold RankPort at *
  rw [rankMid_vals hv, (sameRoutes_of_rigger hv hr).routePort, hr]
  exact h

/-- The HEARTBEAT of a member. -/
def heartbeatPacket (s : State) (c : Fin 16) (r : Nat) : List Byte := rankPacket s c r 4 0 (syncBody s c 2 (leBytes 4 (myRank s c)))

/-- The time at which the peer has not been written to for 1 ms. -/
def heartbeatDue (s : State) (c : Fin 16) (r : Nat) : U64 := assocGet s.crews[c].sent r s.crews[c].since + 1000000

theorem heartbeatPacket_same (hv : t.dict.vals = s.dict.vals) (hc : t.crews = s.crews) (c : Fin 16) (r : Nat) :
    heartbeatPacket t c r = heartbeatPacket s c r := by
  unfold heartbeatPacket
  rw [rankPacket_same hv hc]
  unfold syncBody myRank
  rw [hc]

theorem reach_but (s : State) (u : U64) : SameBut [.now] s (reach s u) := reach_frames.sameBut [.now] rfl

theorem beat_sends {u : U64} (hq : s.power.quiesced = false) (hport : RankPort s c r q (heartbeatPacket s c r)) :
    SentNow (reach s u) (beat s c r u) c r q (heartbeatPacket s c r) := by
  have hbut := reach_but s u
  unfold beat
  generalize reach s u = t at hbut
  have hv : t.dict.vals = s.dict.vals := congrArg Dict.vals (hbut.2 .dict (by decide))
  have hc : t.crews = s.crews := hbut.2 .crews (by decide)
  have hport' : RankPort t c r q (heartbeatPacket t c r) := by
    rw [heartbeatPacket_same hv hc]
    exact rankPort_same hv (hbut.2 .rigger (by decide)) hport
  have hquiet : t.power.quiesced = false := by rw [show t.power = s.power from hbut.2 .power (by decide)]; exact hq
  obtain ⟨hok, hnow⟩ := sendSync_now hquiet hport' (by rw [leBytes_length]; decide)
  dsimp only
  rw [hok, if_pos rfl, ← heartbeatPacket_same hv hc]
  exact hnow

theorem exec_heartbeat (hon : s.power.on = true) (hst : s.crews[c].state ≠ .undefined) (hr : r ∈ crewPeers s c) :
    exec (.heartbeat c r) s = .next (beat s c r (heartbeatDue s c r)) := by
  have hgo : (decide (s.crews[c].state = .undefined) || !(crewPeers s c).contains r) = false := by
    rw [decide_eq_false hst, List.contains_iff_mem.2 hr]
    rfl
  refine (powered_on hon _).trans (congrArg _ ?_)
  dsimp only
  rw [hgo, if_neg Bool.false_ne_true]
  rfl

end

/-! ## A member is lost -/

section
variable {s t : State} {c : Fin 16}

/-- The Crew recovers (R269, R270): in the state `t` it is RECOVERING in its next epoch, with the problem of this cause. -/
structure Recovers (s t : State) (c : Fin 16) (cause : Nat) (who : Option Nat) : Prop where
  frames : SameBut [.rigger, .crews, .evolu, .dict, .counters, .out] s t
  routes : SameRoutes s t
  other : ∀ d, d ≠ c → t.crews[d] = s.crews[d]
  state : t.crews[c].state = .recovering
  problem : t.crews[c].problem = (cause, who, s.now)
  epoch : t.crews[c].epoch = nextEpoch s.crews[c]
  hs : crewPeers s c ≠ [] → t.crews[c].hs = false
  fin : t.crews[c].fin = if s.crews[c].fin = .running ∨ s.crews[c].fin = .voting then .unresolved else s.crews[c].fin
  attempt : t.crews[c].attempt = s.crews[c].attempt.map fun a : Attempt => { a with voted := true }
  free : t.crews[c].ops = [] ∧ t.crews[c].waiting = []

/-- A Crew without a command in flight as its member leaves its state: an undecided attempt is UNRESOLVED (R270, R334). -/
def hasLeft (k : Crew) : Crew :=
  { k with
    ops := [], p2p := [], waiting := [], credits := [], early := [], earlyRisen := []
    fin := if k.fin = .running || k.fin = .voting then .unresolved else k.fin
    attempt := k.attempt.map fun a => { a with voted := true } }

theorem became_leaveState (ho : s.crews[c].ops = []) (hp : s.crews[c].p2p = []) (hw : s.crews[c].waiting = []) (res : Res) :
    Became s (leaveState s c res) c (hasLeft s.crews[c]) := by
  have h := (became_failAll ho hp hw res).trans (became_updCrew _ c fun k =>
    { k with
      fin := if k.fin = .running || k.fin = .voting then .unresolved else k.fin
      attempt := k.attempt.map fun a => { a with voted := true } })
  rw [(became_failAll ho hp hw res).own] at h
  exact h

theorem enterRecovering_recovers (ho : s.crews[c].ops = []) (hp : s.crews[c].p2p = []) (hw : s.crews[c].waiting = []) (cause : Nat)
    (rank mid : Option Nat) : Recovers s (enterRecovering s c cause rank mid none) c cause ((rank.map (rankMid s c)).orElse fun _ => mid) := by
  have h1 := became_leaveState ho hp hw (crewStateRes s c cause rank mid)
  unfold enterRecovering
  dsimp only
  generalize leaveState s c _ = t at h1
  have hmid : rankMid t c = rankMid s c := funext fun r => rankMid_vals h1.routes.vals c r
  have hnow : t.now = s.now := h1.frames.2 .now (by decide)
  rw [hmid, hnow]
  have h2 := h1.trans (became_updCrew t c fun k => { k with problem := (cause, (rank.map (rankMid s c)).orElse fun _ => mid, s.now) })
  generalize updCrew t c _ = u at h2
  have h3 := h2.trans (became_setCrewState u c .recovering)
  rw [h2.own, h1.own] at h3
  generalize setCrewState u c _ = v at h3
  obtain ⟨l, b, h4, hb⟩ := became_startEpoch v c (nextEpoch v.crews[c])
  rw [Option.getD_none]
  generalize (startEpoch v c (nextEpoch v.crews[c])).1 = x at h4
  have hpeers : crewPeers v c = crewPeers s c := crewPeers_vals h3.routes.vals (by rw [h3.own]; rfl)
  have hkeeps : v.crews[c].state = .recovering ∧ v.crews[c].problem = (cause, (rank.map (rankMid s c)).orElse fun _ => mid, s.now) ∧
      nextEpoch v.crews[c] = nextEpoch s.crews[c] ∧ v.crews[c].fin = (hasLeft s.crews[c]).fin ∧
      v.crews[c].attempt = (hasLeft s.crews[c]).attempt ∧ v.crews[c].ops = [] ∧ v.crews[c].waiting = [] := by
    rw [h3.own]
    exact ⟨rfl, rfl, rfl, rfl, rfl, rfl, rfl⟩
  obtain ⟨hstate, hproblem, hepoch, hfin, hattempt, hops, hwaiting⟩ := hkeeps
  refine ⟨(h3.trans h4).frames, (h3.trans h4).routes, (h3.trans h4).other, ?_, ?_, ?_, fun hne => ?_, ?_, ?_, ?_⟩ <;> rw [h4.own]
  · exact hstate
  · exact hproblem
  · exact hepoch
  · exact hb (hpeers ▸ hne)
  · refine hfin.trans ?_
    unfold hasLeft
    simp only [Bool.or_eq_true, decide_eq_true_eq]
  · exact hattempt
  · exact ⟨hops, hwaiting⟩

/-- Of an attempt that neither ended nor voted nothing follows: with two members or more it waits for their decision. -/
theorem Recovers.still {cause : Nat} {who : Option Nat} (h : Recovers s t c cause who) (hcalm : Calm s) (hp : crewP s c ≠ 1) : castReady t = t := by
  refine castReady_one (c := c) (settleCrew_still (advanceOps_none h.free) fun a ha => ?_) (fun d hd => ?_) (fun _ _ => rfl) ?_
  · rw [h.attempt] at ha
    obtain ⟨b, hb, rfl⟩ := Option.map_eq_some_iff.1 ha
    obtain ⟨he, hv, -⟩ := ((crewCalm_iff _).1 (hcalm.1 c)).2 b hb
    refine ⟨he, hv, .inr ?_⟩
    rw [crewP_vals h.routes.vals]
    exact hp
  · rw [h.other d hd]
    exact hcalm.1 d
  · rw [show t.host = s.host from h.frames.2 .host (by decide)]
    exact hcalm.2

/-- What the Crew has beside its fields of sending and hearing is what it recovers from. -/
theorem Recovers.after {u : State} {cause : Nat} {who : Option Nat} {l m : List (Nat × U64)} (h0 : Became s u c { s.crews[c] with sent := l, heard := m })
    (h : Recovers u t c cause who) : Recovers s t c cause who := by
  have hnow : u.now = s.now := h0.frames.2 .now (by decide)
  have hpeers : crewPeers u c = crewPeers s c := crewPeers_vals h0.routes.vals (by rw [h0.own])
  obtain ⟨hf, hr, ho, hstate, hproblem, hepoch, hhs, hfin, hattempt, hfree⟩ := h
  rw [h0.own] at hfin hattempt hepoch
  rw [hnow] at hproblem
  exact ⟨sameBut_then h0.frames hf rfl, h0.routes.trans hr, fun d hd => (ho d hd).trans (h0.other d hd), hstate, hproblem, hepoch, hpeers ▸ hhs,
    hfin, hattempt, hfree⟩

theorem crewFault_recovers (hlive : crewLive s.crews[c].state = true) (ho : s.crews[c].ops = []) (hp : s.crews[c].p2p = [])
    (hw : s.crews[c].waiting = []) (cause : Nat) (rank mid : Option Nat) :
    Recovers s (crewFault s c cause rank mid) c cause ((rank.map (rankMid s c)).orElse fun _ => mid) := by
  unfold crewFault
  rw [hlive, if_neg (by decide)]
  dsimp only
  obtain ⟨l, h0⟩ := (sendSyncs_sent s c (crewPeers s c) 3 (leBytes 1 cause ++ leBytes 4 (if cause = 1 then rank.getD 0xFFFFFFFF else 0xFFFFFFFF))).became
  generalize (sendSyncs s c _ 3 _).1 = u at h0
  have h := enterRecovering_recovers (s := u) (c := c) (by rw [h0.own]; exact ho) (by rw [h0.own]; exact hp) (by rw [h0.own]; exact hw) cause rank mid
  rw [show rankMid u c = rankMid s c from funext fun r => rankMid_vals h0.routes.vals c r] at h
  exact h.after h0

/-- Where nothing but the time goes on, the Crew recovers as from the state before. -/
theorem Recovers.fields {u : State} {cause : Nat} {who : Option Nat} (hc : u.crews = s.crews) (hv : u.dict.vals = s.dict.vals) (hne : crewPeers s c ≠ [])
    (h : Recovers u t c cause who) : (∀ d, d ≠ c → t.crews[d] = s.crews[d]) ∧ t.crews[c].state = .recovering ∧ t.crews[c].problem.1 = cause ∧ t.crews[c].epoch = nextEpoch s.crews[c] ∧
      t.crews[c].hs = false ∧
      t.crews[c].fin = (if s.crews[c].fin = .running ∨ s.crews[c].fin = .voting then .unresolved else s.crews[c].fin) ∧
      t.crews[c].attempt = s.crews[c].attempt.map fun a : Attempt => { a with voted := true } := by
  have hpeers : crewPeers u c = crewPeers s c := crewPeers_vals hv (by rw [hc])
  refine ⟨fun d hd => (h.other d hd).trans (by rw [hc]), h.state, by rw [h.problem], h.epoch.trans (by rw [hc]), h.hs (hpeers ▸ hne), h.fin.trans (by rw [hc]),
    h.attempt.trans (by rw [hc])⟩

end

section
variable {s : State} {c : Fin 16} {r : Nat}

/-- The time by which a silent peer counts as lost (R269). -/
def silenceEnd (s : State) (c : Fin 16) (r : Nat) : U64 :=
  BitVec.ofNat 64 ((assocGet s.crews[c].heard r s.crews[c].since).toNat + 1000 * silenceLimit s c)

theorem exec_memberLost_recovers (hon : s.power.on = true) (hcalm : Calm s) (hr : r ∈ crewPeers s c) (hlive : crewLive s.crews[c].state = true)
    (hp : s.crews[c].p2p = []) (hP : crewP s c ≠ 1) :
    ∃ t, exec (.memberLost c r) s = .next t ∧ Recovers (reach s (silenceEnd s c r)) t c 1 (some (rankMid s c r)) := by
  have hgo : (!crewLive s.crews[c].state || !(crewPeers s c).contains r) = false := by
    rw [hlive, List.contains_iff_mem.2 hr]
    rfl
  have hexec : exec (.memberLost c r) s = .next (castReady (crewFault (reach s (silenceEnd s c r)) c 1 (some r) none)) := by
    refine (powered_on hon _).trans (congrArg _ ?_)
    dsimp only
    rw [hgo, if_neg Bool.false_ne_true]
    rfl
  have hbut := reach_but s (silenceEnd s c r)
  generalize reach s (silenceEnd s c r) = u at hexec hbut
  have hc : u.crews = s.crews := hbut.2 .crews (by decide)
  have hd : u.dict = s.dict := hbut.2 .dict (by decide)
  have hcalmU : Calm u := calm_of_same s u hc (congrArg HostPort.funcs (hbut.2 .host (by decide))) hcalm
  obtain ⟨ho, hw⟩ := calm_free hcalmU c
  have hrec := crewFault_recovers (s := u) (c := c) (by rw [hc]; exact hlive) ho (by rw [hc]; exact hp) hw 1 (some r) none
  rw [hrec.still hcalmU (by rw [crewP_vals (congrArg Dict.vals hd)]; exact hP)] at hexec
  refine ⟨_, hexec, ?_⟩
  rw [← rankMid_vals (congrArg Dict.vals hd)]
  exact hrec

/-- The state in which a RECOVER of peer `r` has been heard and told to the peers of the other levels. -/
def recoverTold (s : State) (c : Fin 16) (r : Nat) (cause : Byte) (gone : BitVec 32) : State :=
  (sendSyncs (noteHeard s c r) c ((crewPeers (noteHeard s c r) c).filter fun x => peerLevel (noteHeard s c r) c x ≠ peerLevel (noteHeard s c r) c r) 3
    (wordBytes cause ++ wordBytes gone)).1

theorem became_recoverTold (s : State) (c : Fin 16) (r : Nat) (cause : Byte) (gone : BitVec 32) :
    ∃ l m, Became s (recoverTold s c r cause gone) c { s.crews[c] with sent := l, heard := m } := by
  have h0 := became_updCrew s c fun k => { k with heard := (r, s.now) :: k.heard.filter fun x => x.1 ≠ r }
  obtain ⟨l, h1⟩ := (sendSyncs_sent (noteHeard s c r) c
    ((crewPeers (noteHeard s c r) c).filter fun x => peerLevel (noteHeard s c r) c x ≠ peerLevel (noteHeard s c r) c r) 3
    (wordBytes cause ++ wordBytes gone)).became
  have h := h0.trans h1
  unfold noteHeard at h
  rw [h0.own] at h
  exact ⟨l, _, h⟩

theorem exec_recover_recovers (hon : s.power.on = true) (hcalm : Calm s) (hlive : crewLive s.crews[c].state = true) (hp : s.crews[c].p2p = [])
    (hP : crewP s c ≠ 1) (r : Nat) (cause : Byte) (gone : BitVec 32) :
    ∃ t who, exec (.recover c r s.crews[c].epoch cause gone) s = .next t ∧ Recovers s t c 7 who := by
  have hst : s.crews[c].state ≠ .undefined := by
    intro h
    rw [h] at hlive
    cases hlive
  have hexec : exec (.recover c r s.crews[c].epoch cause gone) s = .next (castReady (enterRecovering (recoverTold s c r cause gone) c 7
      (if gone.toNat < crewP (recoverTold s c r cause gone) c then some gone.toNat else none) none none)) := by
    refine (powered_on hon _).trans (congrArg _ ?_)
    dsimp only
    rw [if_neg hst, if_neg (not_not.2 rfl), hlive, if_neg (by decide)]
    rfl
  obtain ⟨l, m, h0⟩ := became_recoverTold s c r cause gone
  generalize recoverTold s c r cause gone = v at hexec h0
  obtain ⟨ho, hw⟩ := calm_free hcalm c
  have hrec := (enterRecovering_recovers (s := v) (c := c) (by rw [h0.own]; exact ho) (by rw [h0.own]; exact hp) (by rw [h0.own]; exact hw) 7
    (if gone.toNat < crewP v c then some gone.toNat else none) none).after h0
  rw [hrec.still hcalm hP] at hexec
  exact ⟨_, _, hexec, hrec⟩

end

/-- A component that is the same all the same. -/
theorem sameBut_unless {qs ps : List Part} {p : Part} {s t : State} (h : SameBut qs s t) (hq : qs.all (fun x => decide (x = p) || ps.contains x) = true)
    (hp : p.same s t) : SameBut ps s t := by
  refine ⟨h.1, fun x hx => ?_⟩
  by_cases hxp : x = p
  · exact hxp ▸ hp
  · refine h.2 x fun hmem => ?_
    have := List.all_eq_true.1 hq x hmem
    simp [hxp, hx] at this

/-- Settles O44: a HELLO is held as `hello_held` says, one SYNC packet leaves for HELLO_RESEND and HEARTBEAT (`SentNow`), and a member lost,
whether noticed or told of, leads to what `Recovers` says. -/
theorem crewHandshakeAndLoss : Obligations.CrewHandshakeAndLoss := by
  unfold Obligations.CrewHandshakeAndLoss
  intro s c r hon hcalm hst hr
  refine ⟨fun hash epoch hh => ⟨fun he hrec hnew hreq hhs hroute => ?_, fun hlt => ?_⟩, fun q hq hhs hone hport => ?_, fun q hq hport => ?_,
    fun hlive hp hP => ?_⟩
  · subst hh he
    obtain ⟨l, q, m, b, hl, hev, hbec, hb⟩ := hello_held (e := s.crews[c].epoch) hcalm hst hrec hnew hreq hhs hroute
    refine ⟨_, (exec_hello_hears hon hst hr le_rfl).trans (congrArg _ (if_neg (lt_irrefl _))),
      sameBut_unless (p := .evolu) hbec.frames (ps := [.rigger, .crews, .dict, .counters, .out]) rfl hev, hbec.other, ?_⟩
    rw [hbec.own]
    exact ⟨rfl, rfl, rfl, hb, hl⟩
  · subst hh
    obtain ⟨l, q, -, hk⟩ := heardHello_crew s c r epoch
    refine ⟨_, (exec_hello_hears hon hst hr hlt.le).trans (congrArg _ (if_pos hlt)), ?_, ?_, ?_, ?_⟩
    · exact sameBut_trans (sameBut_then (updCrew_but s c _) (updCrew_but _ c _) rfl) (ctrAdd_frames.sameBut [.dict] rfl) _ rfl rfl
    · exact ctrGet_add_same ..
    · rw [ctrAdd_crews, hk]
    · rw [ctrAdd_crews, hk]
  · obtain ⟨t, ht, hnow⟩ := exec_helloResend_sends hon hcalm hst hq hhs hone hport
    obtain ⟨l, hl⟩ := hnow.sent.crews.own
    exact ⟨t, ht, hnow.sent.frames.sameBut _ rfl, hnow.out, hnow.noted, by rw [hl]⟩
  · obtain ⟨hsent, hout, hnoted⟩ := beat_sends (u := heartbeatDue s c r) hq hport
    obtain ⟨hlate, hdue⟩ := reach_now s (heartbeatDue s c r)
    have hbut := reach_but s (heartbeatDue s c r)
    have hf := hsent.frames.sameBut [.rigger, .crews, .dict, .counters, .out] rfl
    rw [← hsent.frames.now rfl] at hlate hdue hnoted
    refine ⟨_, exec_heartbeat hon hst hr, sameBut_trans hbut hf _ rfl rfl, hlate, hdue, hnoted, hout.trans ?_⟩
    unfold portSends
    rw [show (reach s (heartbeatDue s c r)).rigger = s.rigger from hbut.2 .rigger (by decide),
      show (reach s (heartbeatDue s c r)).out = s.out from hbut.2 .out (by decide)]
    rfl
  · have hne : crewPeers s c ≠ [] := List.ne_nil_of_mem hr
    refine ⟨?_, fun cause gone => ?_⟩
    · obtain ⟨t, ht, hrec⟩ := exec_memberLost_recovers hon hcalm hr hlive hp hP
      have hbut := reach_but s (silenceEnd s c r)
      obtain ⟨hlate, hsilent⟩ := reach_now s (silenceEnd s c r)
      rw [← show t.now = (reach s (silenceEnd s c r)).now from hrec.frames.2 .now (by decide)] at hlate hsilent
      exact ⟨t, ht, sameBut_trans hbut hrec.frames _ rfl rfl,
        hrec.fields (hbut.2 .crews (by decide)) (congrArg Dict.vals (hbut.2 .dict (by decide))) hne, hlate, hsilent, by rw [hrec.problem]⟩
    · obtain ⟨t, who, ht, hrec⟩ := exec_recover_recovers hon hcalm hlive hp hP r cause gone
      exact ⟨t, ht, hrec.frames, hrec.fields rfl rfl hne⟩

end Sys2Proof.Machine
end

section
/-! Packets of collective operations, their retirement, and the entries of their tables (R268, R271, R276, R284, R286, R292, R293). -/

namespace Sys2Proof.Machine

open Sys2Proof

/-! ## Packets of an operation that is not issued yet -/

section
variable {s : State} {c : Fin 16} {src op : Nat}

theorem findOp_heard (s : State) (c : Fin 16) (r k : Nat) : findOp (noteHeard s c r) c k = findOp s c k := by
  obtain ⟨l, hl⟩ := noteHeard_crew s c r
  unfold findOp
  rw [hl]

theorem opNum_heard (s : State) (c : Fin 16) (r : Nat) : (noteHeard s c r).crews[c].opNum = s.crews[c].opNum := by
  obtain ⟨l, hl⟩ := noteHeard_crew s c r
  rw [hl]

theorem exec_ready_early (hon : s.power.on = true) (hst : s.crews[c].state ≠ .undefined) (hnew : s.crews[c].opNum < op) (hno : findOp s c op = none) :
    exec (.ready c ⟨src, s.crews[c].epoch⟩ op) s =
      .next (updCrew (noteHeard s c src) c fun k => { k with early := k.early ++ [(src, op, none)] }) := by
  refine (powered_on hon _).trans (congrArg _ ((crewSync_current hst src _).trans ?_))
  rw [findOp_heard, hno, opNum_heard]
  exact if_neg (Nat.not_le.2 hnew)

theorem exec_ready_reaches {o : CollOp} (hon : s.power.on = true) (hst : s.crews[c].state ≠ .undefined) (ho : findOp s c op = some o) :
    exec (.ready c ⟨src, s.crews[c].epoch⟩ op) s =
      .next (advanceCrew (updOp (noteHeard s c src) c op fun o => { o with readyFrom := src :: o.readyFrom.filter (· ≠ src) }) c) := by
  refine (powered_on hon _).trans (congrArg _ ((crewSync_current hst src _).trans ?_))
  rw [findOp_heard, ho]

theorem exec_counts_early (hon : s.power.on = true) (hst : s.crews[c].state ≠ .undefined) (hnew : s.crews[c].opNum < op) (hno : findOp s c op = none)
    (rows inc : Nat) : exec (.counts c ⟨src, s.crews[c].epoch⟩ op rows inc) s =
      .next (updCrew (noteHeard s c src) c fun k => { k with early := k.early ++ [(src, op, some (rows, inc))] }) := by
  refine (powered_on hon _).trans (congrArg _ ((crewSync_current hst src _).trans ?_))
  rw [findOp_heard, hno, opNum_heard]
  exact if_neg (Nat.not_le.2 hnew)

theorem exec_counts_reaches {o : CollOp} (hon : s.power.on = true) (hst : s.crews[c].state ≠ .undefined) (ho : findOp s c op = some o)
    (rows inc : Nat) : exec (.counts c ⟨src, s.crews[c].epoch⟩ op rows inc) s =
      .next (advanceCrew (updOp (noteHeard s c src) c op fun o => { o with counts := o.counts ++ [(src, rows, inc)] }) c) := by
  refine (powered_on hon _).trans (congrArg _ ((crewSync_current hst src _).trans ?_))
  rw [findOp_heard, ho]

theorem exec_risen_early (hon : s.power.on = true) (hst : s.crews[c].state ≠ .undefined) (lvl : Nat) (hnew : s.crews[c].opNum < op)
    (hno : findOp s c op = none) : exec (.barrierSync c ⟨src, s.crews[c].epoch⟩ op lvl false) s = .next
      (updCrew (noteHeard s c src) c fun k => { k with earlyRisen := k.earlyRisen ++ [(src, op, lvl)] }) := by
  refine (powered_on hon _).trans (congrArg _ ((crewSync_current hst src _).trans ?_))
  dsimp only
  rw [findOp_heard, hno, opNum_heard]
  dsimp only
  rw [Bool.false_or, decide_eq_false (Nat.not_le.2 hnew), if_neg Bool.false_ne_true]

/-- At the lowest level nothing is released further. -/
theorem exec_released {o : CollOp} (hon : s.power.on = true) (hst : s.crews[c].state ≠ .undefined) (lvl : Nat) (ho : findOp s c op = some o)
    (h7 : coOp o.word = 7) (hlow : (levelsDown (crewG s c)).find? (· < lvl) = none) : exec (.barrierSync c ⟨src, s.crews[c].epoch⟩ op lvl true) s = .next
      (advanceCrew (updOp (noteHeard s c src) c op fun o => { o with complete := true }) c) := by
  refine (powered_on hon _).trans (congrArg _ ((crewSync_current hst src _).trans ?_))
  dsimp only
  rw [findOp_heard, ho, crewG_vals (s := s) (t := noteHeard s c src) rfl c]
  dsimp only
  rw [if_neg (not_not.2 h7), if_pos rfl, hlow]

end

/-! ## The one operation in flight -/

section
variable {s : State} {c : Fin 16} {o : CollOp}

theorem operates_findOp (h : Operates s c [o]) : findOp s c o.num = some o := by
  unfold findOp
  rw [h.ops.1]
  exact List.find?_cons_of_pos (by simp)

theorem operates_heard_ops (h : Operates s c [o]) (src : Nat) (g : CollOp → CollOp) :
    (updOp (noteHeard s c src) c o.num g).crews[c].ops = [g o] := by
  obtain ⟨l, hl⟩ := noteHeard_crew s c src
  unfold updOp
  rw [updCrew_same, hl]
  show (s.crews[c].ops.map _) = _
  rw [h.ops.1]
  simp

theorem stepOpr_over (s : State) (c : Fin 16) {o : CollOp} (h : o.complete = true ∨ o.retired = true) : stepOpr s c o = none := by
  unfold stepOpr
  refine if_pos ?_
  rcases h with h | h <;> rw [h]
  · rfl
  · exact Bool.or_true _

/-- With its arrival noted, no tile to be sent on and no operation that has work of its own left, a Crew does nothing. -/
theorem advanceCrew_over (hw : s.crews[c].waiting = []) (hn : NoSendon s) (hthere : s.crews[c].cut.arrived.contains (myRank s c) = true)
    (hover : ∀ o ∈ s.crews[c].ops, o.complete = true ∨ o.retired = true) : advanceCrew s c = s := by
  refine advanceCrew_rest (takeWaiting_none hw) (.inr hn) ?_ (List.findSome?_eq_none_iff.2 fun o ho => stepOpr_over s c (hover o ho))
  unfold checkArrival
  exact if_pos hthere

/-- An operation that has done its part goes no further. -/
theorem operates_advance_over (h : Operates s c [o]) (src : Nat) (g : CollOp → CollOp) (hg : (g o).complete = true) :
    advanceCrew (updOp (noteHeard s c src) c o.num g) c = updOp (noteHeard s c src) c o.num g := by
  have hops := operates_heard_ops h src g
  obtain ⟨l, hl⟩ := noteHeard_crew s c src
  have hcrew : (updOp (noteHeard s c src) c o.num g).crews[c] = { s.crews[c] with heard := l, ops := (updOp (noteHeard s c src) c o.num g).crews[c].ops } := by
    unfold updOp
    rw [updCrew_same, hl]
  refine advanceCrew_over (by rw [hcrew]; exact h.ops.2) h.tiles ?_ (fun x hx => ?_)
  · unfold myRank
    rw [hcrew]
    exact h.there
  · rw [hops, List.mem_singleton] at hx
    exact .inl (hx ▸ hg)

end

/-! ## CREWOP_RETIRE -/

section
variable {s : State} {c cr : Fin 16} {p : Fin 8} {a : Attempt} {o : CollOp} {ki : Fin 4} {i : Fin 8} {q : Nat}

/-- What is left of the one operation in flight once it is complete and its packets are acknowledged: a reduction stays with its Crew. -/
def retiredOps (o : CollOp) : List CollOp := if isReduction (coOp o.word) then [{ o with retired := true }] else []

/-- The record of the operation (R284). -/
def opResult (o : CollOp) : Res :=
  { o.res with
    d0 := BitVec.ofNat 64 o.written
    d1 := BitVec.ofNat 64 (o.dropped % 2 ^ 32 + place 32 (o.included % 2 ^ 31) + place 63 (if o.padded then 1 else 0)) }

theorem operates_retireOp (h : Operates s c [o]) (hr : o.retired = false) (hc : o.complete = true)
    (hm : messageUnacked s (crewTag s c) (epochMsg s c + o.num) = false) : retireOp s c o.num =
      ctrAdd (retireUnit (updCrew s c fun k => { k with ops := retiredOps o }) o.iss 0x51 (coTag o.word) (coEvent o.word) (opResult o)) 0 (crewIdx c) 0x20 1 := by
  have hops : updCrew s c (fun k => { k with
      ops := if isReduction (coOp o.word) then k.ops.map fun x => if x.num = o.num then { x with retired := true } else x
        else k.ops.filter fun x => x.num ≠ o.num }) = updCrew s c fun k => { k with ops := retiredOps o } := updCrew_congr (by
    rw [h.ops.1]
    unfold retiredOps
    simp)
  unfold retireOp
  rw [operates_findOp h]
  dsimp only
  rw [hc, hr, hm, if_neg (by decide), hops]
  rfl

theorem retiredOps_over (o : CollOp) : ∀ x ∈ retiredOps o, x.complete = true ∨ x.retired = true := by
  unfold retiredOps
  split
  · intro x hx
    rw [List.mem_singleton.1 hx]
    exact .inr rfl
  · intro x hx
    cases hx

/-- The operation retires and nothing follows. -/
theorem operates_retires (h : Operates s c [o]) (hr : o.retired = false) (hc : o.complete = true)
    (hm : messageUnacked s (crewTag s c) (epochMsg s c + o.num) = false) (hi : o.iss = .core cr a.number ki i q) (ha : s.crews[cr].attempt = some a)
    (ho : crewOwner s cr = some p) :
    ∃ t, exec (.crewopRetire c o.num) s = .next (ctrAdd t 0 (crewIdx c) 0x20 1) ∧ SameBut [.courses, .host, .crews] s t ∧
      t.crews[c].ops = retiredOps o ∧ (t.crews[cr].attempt.map fun y => y.inFlight) = some (a.inFlight - 1) := by
  have hdrop := updCrew_but s c fun k => { k with ops := retiredOps o }
  have hother (d : Fin 16) (hd : d ≠ c) := updCrew_other s c d (fun k => { k with ops := retiredOps o }) hd
  have hown := updCrew_same s c fun k => { k with ops := retiredOps o }
  have hexec : exec (.crewopRetire c o.num) s = .next (castReady (takeWaiting (retireOp s c o.num) c)) := powered_on h.on _
  rw [operates_retireOp h hr hc hm, hi] at hexec
  generalize updCrew s c (fun k => { k with ops := retiredOps o }) = u at hexec hdrop hother hown
  have hau : u.crews[cr].attempt = some a := by
    by_cases hd : cr = c
    · subst hd
      rw [hown]
      exact ha
    · rw [hother cr hd]
      exact ha
  have hdict : u.dict = s.dict := hdrop.2 .dict (by decide)
  obtain ⟨t, ht, hbut, hcrews, ⟨b, hb, hfly, hended, hvote⟩, -, hsendon, hwrites, -⟩ := retireUnit_ofCore (ki := ki) (i := i) (q := q) hau
    ((crewOwner_dict (congrArg Dict.vals hdict) cr).trans ho) 0x51 (coTag o.word) (coEvent o.word) (opResult o)
  rw [ht] at hexec
  have hcrewC : ∃ x, t.crews[c] = { s.crews[c] with ops := retiredOps o, attempt := x } ∧
      ∀ y, x = some y → y.ended = false ∧ y.voteCmd = none ∧ s.crews[c].fin ≠ .unresolved := by
    by_cases hd : cr = c
    · subst hd
      obtain ⟨he, hv, hf⟩ := h.alive a ha
      rw [hown] at hb
      refine ⟨some b, hb, fun y hy => ?_⟩
      cases hy
      exact ⟨hended.trans he, hvote.trans hv, hf⟩
    · rw [hcrews c fun e => hd e.symm, hown]
      exact ⟨s.crews[c].attempt, rfl, h.alive⟩
  obtain ⟨x, hx, halive⟩ := hcrewC
  have hcalmOther (d : Fin 16) (hd : d ≠ c) : crewCalm t.crews[d] = true := by
    have hcalm := h.others d hd
    by_cases hdr : d = cr
    · subst hdr
      obtain ⟨hfree, hlive⟩ := (crewCalm_iff _).1 hcalm
      obtain ⟨he, hv, hf⟩ := hlive a ha
      rw [hb, hother d hd]
      refine (crewCalm_iff _).2 ⟨hfree, fun y hy => ?_⟩
      cases hy
      exact ⟨hended.trans he, hvote.trans hv, hf⟩
    · rw [hcrews d hdr, hother d hd]
      exact hcalm
  have hrest : settleCrew (ctrAdd t 0 (crewIdx c) 0x20 1) c = ctrAdd t 0 (crewIdx c) 0x20 1 := by
    have hrest : advanceCrew (ctrAdd t 0 (crewIdx c) 0x20 1) c = ctrAdd t 0 (crewIdx c) 0x20 1 := by
      refine advanceCrew_over (by rw [ctrAdd_crews, hx]; exact h.ops.2) (hsendon (by rw [NoSendon, show u.courses = s.courses from hdrop.2 .courses (by decide)]; exact h.tiles)) ?_ ?_
      · unfold myRank
        rw [ctrAdd_crews, hx]
        exact h.there
      · rw [ctrAdd_crews, hx]
        exact retiredOps_over o
    refine settleCrew_still ?_ fun y hy => ?_
    · unfold advanceOps
      rw [hrest]
      exact ite_self _
    · rw [ctrAdd_crews, hx] at hy
      obtain ⟨he, hv, hf⟩ := halive y hy
      refine ⟨he, hv, .inl ?_⟩
      rw [ctrAdd_crews, hx]
      exact hf
  have htake : takeWaiting (ctrAdd t 0 (crewIdx c) 0x20 1) c = ctrAdd t 0 (crewIdx c) 0x20 1 := takeWaiting_none (by
    rw [ctrAdd_crews, hx]
    exact h.ops.2)
  rw [htake, castReady_one hrest hcalmOther (fun _ _ => rfl) (hwrites (by rw [NoWritesWait, show u.host = s.host from hdrop.2 .host (by decide)]; exact h.writes))] at hexec
  refine ⟨t, hexec, sameBut_then (sameBut_le hdrop _ rfl) hbut rfl, by rw [hx], ?_⟩
  rw [hb, ← hfly]
  rfl

end

/-! ## Entries of the tables of a partition (R271, R286) -/

section
variable {s : State} {r : Req} {p : Fin 8} {d : BitVec 128}

/-- An object whose writes go to the unit entry by entry, 16 bytes each, and which is the module's own. -/
structure EntryTable (idx size : Nat) : Prop where
  info : objInfo idx 1 = some ⟨12, 2, false, size, [], []⟩
  entry : entryBytes idx 1 = 16
  unit : inUnit idx 1 = true
  shared : perFn idx 1 = false
  quiet : ∀ s, afterValue s ⟨0, idx, 1⟩ = s

theorem collRegionTable (p : Fin 8) : EntryTable (0x7280 + p) 65536 := by
  have hinfo : ∀ p : Fin 8, objInfo (0x7280 + p) 1 = some ⟨12, 2, false, 65536, [], []⟩ := by decide +kernel
  have hentry : ∀ p : Fin 8, entryBytes (0x7280 + p) 1 = 16 ∧ inUnit (0x7280 + p) 1 = true ∧ perFn (0x7280 + p) 1 = false := by decide
  refine ⟨hinfo p, (hentry p).1, (hentry p).2.1, (hentry p).2.2, fun s => ?_⟩
  unfold afterValue idxIn
  simp only [Bool.and_eq_true, decide_eq_true_eq]
  rw [if_neg (by omega), if_neg (by omega), if_neg (by omega), if_neg (by omega), if_neg (by omega), if_neg (by omega), if_neg (by omega)]

theorem sendonHandleTable (p : Fin 8) : EntryTable (0x7290 + p) 65520 := by
  have hinfo : ∀ p : Fin 8, objInfo (0x7290 + p) 1 = some ⟨12, 2, false, 65520, [], []⟩ := by decide +kernel
  have hentry : ∀ p : Fin 8, entryBytes (0x7290 + p) 1 = 16 ∧ inUnit (0x7290 + p) 1 = true ∧ perFn (0x7290 + p) 1 = false := by decide
  refine ⟨hinfo p, (hentry p).1, (hentry p).2.1, (hentry p).2.2, fun s => ?_⟩
  unfold afterValue idxIn
  simp only [Bool.and_eq_true, decide_eq_true_eq]
  rw [if_neg (by omega), if_neg (by omega), if_neg (by omega), if_neg (by omega), if_neg (by omega), if_neg (by omega), if_neg (by omega)]

/-- A write of one entry does what the unit's taking of it does to a function, beside the object's generation. -/
theorem rowWrite_entry {idx size n : Nat} (ht : EntryTable idx size) (h : MayWrite s r idx 1 (wordBytes d) 2) (hn : 16 * n + 16 ≤ size) {f : Fin 9}
    {g : Func → Func} (htake : unitTakes (genBump s 0 idx 1) ⟨0, idx, 1⟩ (16 * n) (wordBytes d) = updFunc (genBump s 0 idx 1) f g) :
    rowWrite s r idx 1 (16 * n) (wordBytes d) = updFunc (genBump s 0 idx 1) f g := by
  have haligned : 16 * n % entryBytes idx 1 = 0 ∧ ∀ o, objFound s idx 1 = some o → 16 * n + (wordBytes d).length ≤ o.size := by
    rw [ht.entry]
    refine ⟨Nat.mul_mod_right 16 n, fun o ho => ?_⟩
    obtain rfl := Option.some.inj (ht.info.symm.trans (objFound_objInfo ho))
    have hlen : (wordBytes d).length = 16 := leBytes_length 16 _
    dsimp only
    omega
  have hkey : keyOf (actorOf s r) idx 1 = ⟨0, idx, 1⟩ := by
    unfold keyOf
    rw [ht.shared]
    rfl
  rw [rowWrite_rw h (.inr haligned), ht.entry, if_neg (by decide), hkey, ht.quiet, storeFlash_inUnit (k := ⟨0, idx, 1⟩) _ _ ht.unit,
    takeValue_inUnit (k := ⟨0, idx, 1⟩) _ _ _ ht.info ht.unit, if_pos rfl, htake]
  exact moduleEvent_func s 0 _ 1 f g

theorem eachEntry_half (d : BitVec 128) (first : Nat) (s : State) (g : State → Nat → Nat → State) :
    eachEntry 16 (wordBytes d) first s g = g s first (leAt (wordBytes d) 0 16) := by
  have hlen : (wordBytes d).length = 16 := leBytes_length 16 _
  unfold eachEntry entries
  rw [hlen]
  rfl

theorem leAt_half (d : BitVec 128) : BitVec.ofNat 128 (leAt (wordBytes d) 0 16) = d := by
  have h := leAt_whole (leBytes 16 d.toNat)
  rw [leBytes_length, ofLe_leBytes, Nat.mod_eq_of_lt (by simpa using d.isLt)] at h
  rw [show leAt (wordBytes d) 0 16 = d.toNat from h, BitVec.ofNat_toNat, BitVec.setWidth_eq]

theorem unitTakes_region (s : State) (p : Fin 8) (n : Nat) (d : BitVec 128) :
    unitTakes s ⟨0, 0x7280 + p, 1⟩ (16 * n) (wordBytes d) = writeCollRegion s p n d := by
  unfold unitTakes idxIn
  simp only [Bool.and_eq_true, decide_eq_true_eq]
  rw [if_neg (by omega), if_neg (by omega), if_neg (by omega), if_neg (by omega), if_pos (by omega), eachEntry_half, Nat.add_sub_cancel_left, fin8_val,
    Nat.mul_div_cancel_left n (by decide), leAt_half]

theorem unitTakes_handle (s : State) (p : Fin 8) (n : Nat) (d : BitVec 128) :
    unitTakes s ⟨0, 0x7290 + p, 1⟩ (16 * n) (wordBytes d) = writeHandle s p (n + 1) d := by
  unfold unitTakes idxIn
  simp only [Bool.and_eq_true, decide_eq_true_eq]
  rw [if_neg (by omega), if_neg (by omega), if_neg (by omega), if_neg (by omega), if_neg (by omega), if_pos (by omega), eachEntry_half,
    Nat.add_sub_cancel_left, fin8_val, Nat.mul_div_cancel_left n (by decide), leAt_half]

/-- What a write of an entry leaves beside its function's tables: of the dictionary only a generation changes. -/
theorem entryWritten_frame (s : State) (b idx sub : Nat) (f : Fin 9) (g : Func → Func) :
    let t := updFunc (genBump s b idx sub) f g
    SameBut [.host, .dict] s t ∧ t.dict = { s.dict with gens := t.dict.gens } ∧ t.host = (updFunc s f g).host := by
  refine ⟨⟨rfl, fun q hq => ?_⟩, rfl, rfl⟩
  cases q <;> first | rfl | exact absurd (by decide) hq

theorem exec_regionWrite (hp : actorPart (actorOf s r) = some p) (i : Fin 4096) (h : MayWrite s r (0x7280 + p) 1 (wordBytes d) 2) :
    exec (.collectiveRegionWrite r i d) s = .next (updFunc (genBump s 0 (0x7280 + p) 1) (funcOf p) fun k =>
      if caNamed s p i then { k with collWrites := k.collWrites ++ [(i.val, d)] } else { k with collRegions := assocSet k.collRegions i d 0 }) := by
  refine (powered_on h.on _).trans (congrArg _ ?_)
  rw [hp]
  refine rowWrite_entry (collRegionTable p) h (by omega) ((unitTakes_region _ p i d).trans ?_)
  have hnamed : caNamed (genBump s 0 (0x7280 + p) 1) p i = caNamed s p i := rfl
  unfold writeCollRegion
  rw [hnamed]
  split <;> rfl

theorem exec_handleWrite (hp : actorPart (actorOf s r) = some p) (j : Fin 4095) (h : MayWrite s r (0x7290 + p) 1 (wordBytes d) 2) :
    exec (.sendonHandleWrite r j d) s = .next (updFunc (genBump s 0 (0x7290 + p) 1) (funcOf p) fun k =>
      if handleNamed s p (j + 1) then { k with handleWrites := k.handleWrites ++ [(j.val + 1, d)] } else { k with handles := assocSet k.handles (j.val + 1) d 0 }) := by
  refine (powered_on h.on _).trans (congrArg _ ?_)
  rw [hp]
  refine rowWrite_entry (sendonHandleTable p) h (by omega) ((unitTakes_handle _ p j d).trans ?_)
  have hnamed : handleNamed (genBump s 0 (0x7290 + p) 1) p (j + 1) = handleNamed s p (j + 1) := rfl
  unfold writeHandle
  rw [hnamed]
  split <;> rfl

end

/-- Settles O42: packets of another epoch by `crewSync_stale`, early ones by the `_early` lemmas, those of an operation that has done its part by
`operates_advance_over`; `operates_retires` and the writes of a table's entry give the rest. -/
theorem collectivesProgress : Obligations.CollectivesProgress := by
  unfold Obligations.CollectivesProgress
  intro s c src
  refine ⟨fun op rows inc lvl e b i hon hst he hi => ?_, fun op rows inc lvl hon hst hnew hno => ⟨exec_ready_early hon hst hnew hno,
    exec_counts_early hon hst hnew hno rows inc, exec_risen_early hon hst lvl hnew hno⟩, fun o rows inc h hst hr => ⟨fun hc => ?_, fun lvl h7 hlow => ?_,
    fun cr p a hc hm hiss ha ho => ?_⟩, fun r p i j d hp => ⟨fun h => ?_, fun h => ?_⟩⟩
  · rcases hi with rfl | rfl | rfl
    · exact (powered_on hon _).trans (congrArg _ (crewSync_stale hst he src _))
    · exact (powered_on hon _).trans (congrArg _ (crewSync_stale hst he src _))
    · exact (powered_on hon _).trans (congrArg _ (crewSync_stale hst he src _))
  · rw [exec_ready_reaches h.on hst (operates_findOp h), exec_counts_reaches h.on hst (operates_findOp h)]
    exact ⟨congrArg _ (operates_advance_over h src _ hc), congrArg _ (operates_advance_over h src _ hc)⟩
  · rw [exec_released h.on hst lvl (operates_findOp h) h7 hlow]
    exact congrArg _ (operates_advance_over h src _ rfl)
  · obtain ⟨ki, i, q, hi⟩ := hiss
    obtain ⟨t, ht, hbut, hops, hfly⟩ := operates_retires h hr hc hm hi ha ho
    refine ⟨_, ht, sameBut_then (sameBut_le hbut [.courses, .host, .crews, .dict] rfl) (ctrAdd_frames.sameBut [.dict] rfl) rfl, hops, hfly, ?_⟩
    rw [ctrGet_add_same, ctrGet_same_dict (hbut.2 .dict (by decide))]
  · obtain ⟨hbut, hdict, hhost⟩ := entryWritten_frame s 0 (0x7280 + p) 1 (funcOf p) fun k =>
      if caNamed s p i then { k with collWrites := k.collWrites ++ [(i.val, d)] } else { k with collRegions := assocSet k.collRegions i d 0 }
    refine ⟨_, exec_regionWrite hp i h, hbut, hdict, fun hn => hhost.trans ?_, fun hn => hhost.trans ?_⟩
    · rw [hn]
      rfl
    · rw [hn]
      rfl
  · obtain ⟨hbut, hdict, hhost⟩ := entryWritten_frame s 0 (0x7290 + p) 1 (funcOf p) fun k =>
      if handleNamed s p (j + 1) then { k with handleWrites := k.handleWrites ++ [(j.val + 1, d)] } else { k with handles := assocSet k.handles (j.val + 1) d 0 }
    refine ⟨_, exec_handleWrite hp j h, hbut, hdict, fun hn => hhost.trans ?_, fun hn => hhost.trans ?_⟩
    · rw [hn]
      rfl
    · rw [hn]
      rfl

end Sys2Proof.Machine
end

section
/-! What the work of a Crew's operations leaves as it was beside the operations themselves (R276 to R287, R338, R339). -/

namespace Sys2Proof.Machine

open Sys2Proof

/-! ## What is kept beside the Crews -/

/-- The way of every packet and the host's functions are the same; no error and no tile to be sent on has come. -/
structure Unspoilt (s t : State) : Prop where
  routes : SameRoutes s t
  funcs : t.host.funcs = s.host.funcs
  ue : NoUe s → NoUe t
  tiles : NoSendon s → NoSendon t

theorem Unspoilt.refl (s : State) : Unspoilt s s := ⟨SameRoutes.refl s, rfl, id, id⟩

theorem Unspoilt.trans {s t u : State} (h : Unspoilt s t) (k : Unspoilt t u) : Unspoilt s u :=
  ⟨h.routes.trans k.routes, k.funcs.trans h.funcs, k.ue ∘ h.ue, k.tiles ∘ h.tiles⟩

section
variable {s t : State}

theorem unspoilt_of_places (hr : SameRoutes s t) (hf : t.host.funcs = s.host.funcs) (hp : t.pallets = s.pallets) (hb : t.hbm.ue = s.hbm.ue)
    (hc : t.courses = s.courses) : Unspoilt s t := by
  refine ⟨hr, hf, fun h => ?_, fun h => ?_⟩
  · unfold NoUe
    rw [hp, hb]
    exact h
  · unfold NoSendon
    rw [hc]
    exact h

theorem Sent.unspoilt {c : Fin 16} (h : Sent s t c) : Unspoilt s t :=
  unspoilt_of_places h.routes (congrArg HostPort.funcs (h.frames.host rfl)) (h.frames.pallets rfl) (congrArg Hbm.ue (h.frames.hbm rfl)) (h.frames.courses rfl)

theorem unspoilt_updCrew (s : State) (c : Fin 16) (g : Crew → Crew) : Unspoilt s (updCrew s c g) :=
  unspoilt_of_places (sameRoutes_of_rigger rfl rfl) rfl rfl rfl rfl

theorem unspoilt_ctrAdd (s : State) (f i b n : Nat) : Unspoilt s (ctrAdd s f i b n) := unspoilt_of_places (sameRoutes_ctrAdd ..) rfl rfl rfl rfl

end

/-! ## Writes and reads of places -/

section
variable (s : State)

theorem unspoilt_palletWriteL (n : Fin 8) (ws : List (Nat × Byte)) : Unspoilt s (palletWriteL s n ws) := by
  refine ⟨sameRoutes_of_rigger rfl rfl, rfl, fun h => ⟨fun m => ?_, h.2⟩, fun h m x => ?_⟩
  · have hm := h.1 m
    unfold palletWriteL
    dsimp only
    by_cases e : m = n
    · subst e
      rw [updCourse_pallets, updPallet_same, hm]
      rfl
    · rw [updCourse_pallets, updPallet_other _ _ _ _ e]
      exact hm
  · obtain ⟨ho, ht⟩ := palletWriteL_course s n ws
    by_cases e : m = n
    · subst e
      rw [ht]
      exact h m x
    · rw [ho m e]
      exact h m x

theorem unspoilt_hbmPut (ps : List (Nat × Byte)) : Unspoilt s (hbmPut s ps) := by
  refine ⟨sameRoutes_of_rigger rfl rfl, rfl, fun h => ⟨h.1, ?_⟩, id⟩
  show s.hbm.ue.filter _ = []
  rw [h.2]
  rfl

theorem unspoilt_hostPut (ws : List (Nat × Byte)) : Unspoilt s (hostPut s ws) := unspoilt_of_places (sameRoutes_of_rigger rfl rfl) rfl rfl rfl rfl

theorem unspoilt_spaceWriteL (f : Fin 9) (p : Option (Fin 8)) (ws : List (Nat × Byte)) : Unspoilt s (spaceWriteL s f p ws) := by
  have hpal : Unspoilt s ((List.range 8).foldl (fun s n =>
      let l := ws.filter fun w => aLoc w.1 = 0 && aCourse w.1 = n
      if l.isEmpty then s else palletWriteL s (fin8 n) (l.map fun w => (aPallet w.1, w.2))) s) := by
    refine List.foldlRecOn (motive := fun t : State => Unspoilt s t) _ _ (Unspoilt.refl s) fun t h n _ => ?_
    dsimp only
    split
    · exact h
    · exact h.trans (unspoilt_palletWriteL ..)
  exact (hpal.trans (unspoilt_hbmPut _ _)).trans (unspoilt_hostPut _ _)

theorem unspoilt_hbmTraffic (p : Option (Fin 8)) (as : List Nat) : Unspoilt s (hbmTraffic s p as) := by
  obtain ⟨b, w, h⟩ := hbmCharge_hbm s p (writeRuns s p (as.map hbmAddr))
  have hf : Frames 786496 s (hbmTraffic s p as) := hbmTraffic_frames
  exact unspoilt_of_places (sameRoutes_of_rigger (congrArg Dict.vals (hf.dict rfl)) (hf.rigger rfl)) (congrArg HostPort.funcs (hf.host rfl)) (hf.pallets rfl)
    (by unfold hbmTraffic; rw [h]) (hf.courses rfl)

theorem updPallet_ue (n m : Fin 8) {g : Pallet → Pallet} (hg : ∀ p, (g p).ue = p.ue) : (updPallet s n g).pallets[m].ue = s.pallets[m].ue := by
  by_cases e : m = n
  · subst e
    rw [updPallet_same, hg]
  · rw [updPallet_other _ _ _ _ e]

theorem unspoilt_palletFix (n : Fin 8) (as : List Nat) : Unspoilt s (palletFix s n as) := by
  have hf : Frames 16400 s (palletFix s n as) := palletFix_frames
  refine ⟨sameRoutes_of_rigger (palletFix_vals s n as) (hf.rigger rfl), congrArg HostPort.funcs (hf.host rfl), fun h => ⟨fun m => ?_, ?_⟩, fun h => ?_⟩
  · have hm := h.1 m
    unfold palletFix
    split
    · exact hm
    · exact (updPallet_ue s n m (g := fun p => { p with ce := p.ce.filter fun u => !(s.pallets[n].ce.filter fun u => as.any fun a => a / 8 == u / 8).contains u })
        fun _ => rfl).trans hm
  · rw [hf.hbm rfl]
    exact h.2
  · unfold NoSendon
    rw [hf.courses rfl]
    exact h

theorem unspoilt_hbmFix (p : Option (Fin 8)) (as : List Nat) : Unspoilt s (hbmFix s p as) := by
  obtain ⟨ce, stks, h⟩ := hbmFix_hbm s p as
  have hf : Frames 147520 s (hbmFix s p as) := hbmFix_frames
  exact unspoilt_of_places (sameRoutes_of_rigger (hbmFix_sameBytes s p as).vals (hf.rigger rfl)) (congrArg HostPort.funcs (hf.host rfl)) (hf.pallets rfl)
    (by rw [h]) (hf.courses rfl)

theorem unspoilt_collRead (p : Fin 8) (rs : List Nat) : Unspoilt s (collRead s p rs) := by
  unfold collRead
  split
  · exact Unspoilt.refl s
  · have hpal : Unspoilt s ((List.range 8).foldl (fun s n => palletFix s (fin8 n) ((rs.filter fun e => aLoc e = 0 && aCourse e = n).map aPallet)) s) :=
      List.foldlRecOn (motive := fun t : State => Unspoilt s t) _ _ (Unspoilt.refl s) fun t h n _ => h.trans (unspoilt_palletFix ..)
    exact (hpal.trans (unspoilt_hbmFix _ _ _)).trans (unspoilt_hbmTraffic _ _ _)

end

/-! ## Beside the operations -/

/-- What of an attempt its Crew looks at beside the operations: whether it has ended or voted, and the commands in flight. -/
def Attempt.life (a : Attempt) : Nat × Bool × Option (Cmd × Issuer) := (a.inFlight, a.ended, a.voteCmd)

/-- A Crew beside its operations: what its work for them may change is what it sent when, the cut, what it put aside and its attempt's notes. -/
structure SameLife (j k : Crew) : Prop where
  own : ∃ sent cut defs att, k = { j with sent := sent, cut := cut, deferrals := defs, attempt := att }
  life : k.attempt.map Attempt.life = j.attempt.map Attempt.life

theorem SameLife.refl (k : Crew) : SameLife k k := ⟨⟨_, _, _, _, rfl⟩, rfl⟩

theorem SameLife.trans {j k l : Crew} (h : SameLife j k) (g : SameLife k l) : SameLife j l := by
  obtain ⟨⟨s1, c1, d1, a1, rfl⟩, h2⟩ := h
  obtain ⟨⟨s2, c2, d2, a2, rfl⟩, g2⟩ := g
  exact ⟨⟨s2, c2, d2, a2, rfl⟩, g2.trans h2⟩

/-- From `s` to `t` work has been done for the operations of Crew `c`, which themselves are as before. -/
structure Beside (s t : State) (c : Fin 16) : Prop where
  kept : Unspoilt s t
  crew : SameLife s.crews[c] t.crews[c]
  other : ∀ d, d ≠ c → t.crews[d] = s.crews[d]

theorem Beside.refl (s : State) (c : Fin 16) : Beside s s c := ⟨Unspoilt.refl s, SameLife.refl _, fun _ _ => rfl⟩

theorem Beside.trans {s t u : State} {c : Fin 16} (h : Beside s t c) (k : Beside t u c) : Beside s u c :=
  ⟨h.kept.trans k.kept, h.crew.trans k.crew, fun d hd => (k.other d hd).trans (h.other d hd)⟩

section
variable {s t : State} {c : Fin 16}

theorem beside_of_crews (h : Unspoilt s t) (hc : t.crews = s.crews) : Beside s t c := ⟨h, by rw [hc]; exact SameLife.refl _, fun d _ => by rw [hc]⟩

theorem beside_updCrew (s : State) (c : Fin 16) {g : Crew → Crew} (hg : SameLife s.crews[c] (g s.crews[c])) : Beside s (updCrew s c g) c :=
  ⟨unspoilt_updCrew s c g, by rw [updCrew_same]; exact hg, fun d hd => updCrew_other s c d g hd⟩

theorem Sent.beside (h : Sent s t c) : Beside s t c := by
  refine ⟨h.unspoilt, ?_, fun d hd => h.crews.other hd⟩
  obtain ⟨l, hl⟩ := h.crews.own
  rw [hl]
  exact ⟨⟨_, _, _, _, rfl⟩, rfl⟩

theorem beside_updAttempt (s : State) (c : Fin 16) {g : Attempt → Attempt} (hg : ∀ a, (g a).life = a.life) : Beside s (updAttempt s c g) c := by
  refine beside_updCrew s c ⟨⟨_, _, _, _, rfl⟩, ?_⟩
  cases s.crews[c].attempt with
  | none => rfl
  | some a => exact congrArg some (hg a)

theorem beside_addLate (s : State) (c : Fin 16) (e : BitVec 128) : Beside s (addLate s c e) c :=
  beside_updAttempt s c fun a => by
    split <;> rfl

theorem beside_ctrAdd (s : State) (c : Fin 16) (f i b n : Nat) : Beside s (ctrAdd s f i b n) c := beside_of_crews (unspoilt_ctrAdd ..) rfl

theorem beside_undoSave (s : State) (c : Fin 16) (p : Fin 8) (as : List Nat) : Beside s (undoSave s c p as) c := by
  unfold undoSave
  split
  · exact Beside.refl s c
  · refine Beside.trans (List.foldlRecOn (motive := fun t : State => Beside s t c) _ _ (Beside.refl s c) fun t h g _ => ?_) (beside_updAttempt _ c fun _ => rfl)
    split
    · exact h.trans (beside_of_crews (unspoilt_hbmPut _ _) rfl)
    · exact h

theorem beside_spaceWriteL (s : State) (c : Fin 16) (f : Fin 9) (p : Option (Fin 8)) (ws : List (Nat × Byte)) : Beside s (spaceWriteL s f p ws) c :=
  beside_of_crews (unspoilt_spaceWriteL ..) (spaceWriteL_frames.crews rfl)

theorem beside_collRead (s : State) (c : Fin 16) (p : Fin 8) (rs : List Nat) : Beside s (collRead s p rs) c :=
  beside_of_crews (unspoilt_collRead ..) (collRead_frames.crews rfl)

theorem beside_collWrite {p : Fin 8} {ws : List (Nat × Byte)} (h : collWrite s c p ws = some t) : Beside s t c := by
  unfold collWrite at h
  dsimp only at h
  split at h
  · cases h
  · obtain rfl := Option.some.inj h
    exact ((beside_undoSave ..).trans (beside_spaceWriteL ..)).trans (beside_of_crews (unspoilt_hbmTraffic ..) (hbmTraffic_frames.crews rfl))

/-! ## The cut -/

theorem beside_deferOp (s : State) (c : Fin 16) (p : Fin 8) (o : CollOp) : Beside s (deferOp s c p o) c := by
  unfold deferOp
  split
  · dsimp only
    refine List.foldlRecOn (motive := fun t : State => Beside s t c) _ _ (Beside.refl s c) fun t h r _ => ?_
    split
    · exact h
    · split
      · exact (h.trans (beside_addLate ..)).trans (beside_ctrAdd ..)
      · refine ((h.trans (beside_updCrew t c ?_)).trans (beside_undoSave ..)).trans (beside_spaceWriteL ..)
        exact ⟨⟨_, _, _, _, rfl⟩, rfl⟩
  · exact Beside.refl s c

theorem beside_setCut (s : State) (c : Fin 16) (es : List (BitVec 128)) : Beside s (setCut s c es) c := by
  have h0 : Beside s (updCrew s c fun k => { k with cut := { k.cut with entries := some es } }) c := beside_updCrew s c ⟨⟨_, _, _, _, rfl⟩, rfl⟩
  unfold setCut
  dsimp only
  generalize updCrew s c _ = t at h0
  split
  · split
    · exact h0.trans (List.foldlRecOn (motive := fun u : State => Beside t u c) _ _ (Beside.refl t c) fun u h o _ => h.trans (beside_deferOp ..))
    · exact h0
  · exact h0

theorem beside_sendFinNow (s : State) (c : Fin 16) (r kind : Nat) (body : List Byte) : Beside s (sendFinNow s c r kind body) c :=
  (sendRank_sent ..).beside

theorem beside_sendCut (s : State) (c : Fin 16) (es : List (BitVec 128)) : Beside s (sendCut s c es) c := by
  unfold sendCut
  refine Beside.trans (List.foldlRecOn (motive := fun t : State => Beside s t c) _ _ (Beside.refl s c) fun t h r _ => ?_) (beside_setCut ..)
  split
  · exact h
  · exact h.trans (beside_sendFinNow ..)

theorem beside_tryCut (s : State) (c : Fin 16) : Beside s (tryCut s c) c := by
  unfold tryCut
  dsimp only
  split
  · exact Beside.refl s c
  · split
    · exact beside_sendCut ..
    · exact Beside.refl s c

theorem beside_noteArrived (s : State) (c : Fin 16) (r : Nat) : Beside s (noteArrived s c r) c := by
  unfold noteArrived
  dsimp only
  split
  · exact Beside.refl s c
  · refine Beside.trans (beside_updCrew s c (g := fun k => { k with cut := { k.cut with arrived := k.cut.arrived ++ [r], first := some (k.cut.first.getD s.now) } })
      ⟨⟨_, _, _, _, rfl⟩, rfl⟩) ?_
    split
    · exact beside_tryCut ..
    · exact beside_updCrew _ c ⟨⟨_, _, _, _, rfl⟩, rfl⟩

theorem beside_arrive (s : State) (c : Fin 16) : Beside s (arrive s c) c := by
  unfold arrive
  dsimp only
  split
  · exact beside_noteArrived ..
  · exact beside_sendFinNow ..

/-- The member's arrival, if it is due, leaves its operations as they are (R338). -/
theorem beside_checkArrival (s : State) (c : Fin 16) : Beside s (checkArrival s c) c := by
  unfold checkArrival
  split
  · exact Beside.refl s c
  · split
    · exact (beside_arrive s c).trans (beside_updCrew _ c ⟨⟨_, _, _, _, rfl⟩, rfl⟩)
    · exact Beside.refl s c

end

end Sys2Proof.Machine
end

section
/-! The groups of a Crew (R264, R277): levels in use, positions and parts. -/

namespace Sys2Proof.Machine

open Sys2Proof

section
variable {g : List Nat} {r l j : Nat}

theorem mem_levelsIn : l ∈ levelsIn g ↔ l < 4 ∧ 1 < g.getD l 1 := by
  unfold levelsIn
  simp

theorem gStride_pos (h : ∀ x ∈ g, 0 < x) (l : Nat) : 0 < gStride g l :=
  List.prod_pos fun x hx => h x (List.mem_of_mem_take hx)

/-- Another position of the group is another rank. -/
theorem atPos_ne (h : ∀ x ∈ g, 0 < x) (hj : j ≠ digit g r l) : atPos g r l j ≠ r := by
  have hs := gStride_pos h l
  have hle : digit g r l * gStride g l ≤ r :=
    (Nat.mul_le_mul_right _ (Nat.mod_le _ _)).trans (Nat.div_mul_le_self r (gStride g l))
  unfold atPos
  intro he
  have heq : j * gStride g l = digit g r l * gStride g l := by omega
  exact hj (Nat.eq_of_mul_eq_mul_right hs heq)

/-- A level in use has a position beside the own one. -/
theorem exists_position (h : 1 < g.getD l 1) (d : Nat) : ∃ j, j ∈ (List.range (g.getD l 1)).filter (· ≠ d) := by
  by_cases hd : d = 0
  · exact ⟨1, List.mem_filter.2 ⟨List.mem_range.2 h, by simp [hd]⟩⟩
  · exact ⟨0, List.mem_filter.2 ⟨List.mem_range.2 (by omega), by simpa using fun e => hd e.symm⟩⟩

theorem mem_peersAt (hr : atPos g r l j ≠ r) (hj : j < g.getD l 1) : atPos g r l j ∈ peersAt g r l :=
  List.mem_filter.2 ⟨List.mem_map.2 ⟨j, List.mem_range.2 hj, rfl⟩, by simpa using hr⟩

theorem ne_of_mem_peersAt {x : Nat} (h : x ∈ peersAt g r l) : x ≠ r := by
  simpa using (List.mem_filter.1 h).2

theorem peersAt_ne_nil (h : ∀ x ∈ g, 0 < x) (hl : l ∈ levelsIn g) (r : Nat) : peersAt g r l ≠ [] := by
  obtain ⟨-, h1⟩ := mem_levelsIn.1 hl
  obtain ⟨j, hj⟩ := exists_position h1 (digit g r l)
  obtain ⟨hjr, hjd⟩ := List.mem_filter.1 hj
  exact List.ne_nil_of_mem (mem_peersAt (atPos_ne h (by simpa using hjd)) (List.mem_range.1 hjr))

/-- Another than the group's leader reaches it as a peer. -/
theorem leader_mem_peersAt (h : ∀ x ∈ g, 0 < x) (hl : l ∈ levelsIn g) (hd : digit g r l ≠ 0) : atPos g r l 0 ∈ peersAt g r l :=
  mem_peersAt (atPos_ne h fun e => hd e.symm) (by have := (mem_levelsIn.1 hl).2; omega)

/-! ## The parts of the levels -/

/-- A part as `partsOf` builds it for its level. -/
def PartAt (g : List Nat) (r : Nat) (x : Nat × Nat × Nat × Nat × Nat × Nat × Nat) : Prop := x.2.1 = g.getD x.1 1 ∧ x.2.2.1 = digit g r x.1

/-- One level more: what `partsOf` carries is the start and the length of the part so far, and the parts. -/
def partStep (g : List Nat) (r : Nat) (acc : Nat × Nat × List (Nat × Nat × Nat × Nat × Nat × Nat × Nat)) (l : Nat) :
    Nat × Nat × List (Nat × Nat × Nat × Nat × Nat × Nat × Nat) :=
  let d := digit g r l
  let q := 32 * ((acc.2.1 + 32 * g.getD l 1 - 1) / (32 * g.getD l 1))
  let own := min ((d + 1) * q) acc.2.1 - min (d * q) acc.2.1
  (acc.1 + min (d * q) acc.2.1, own, acc.2.2 ++ [(l, g.getD l 1, d, q, acc.1, acc.2.1, own)])

theorem partsOf_steps (g : List Nat) (r n : Nat) : partsOf g r n = ((levelsIn g).foldl (partStep g r) (0, n, [])).2.2 := rfl

theorem partSteps_spec (g : List Nat) (r : Nat) (ls : List Nat) (acc : Nat × Nat × List (Nat × Nat × Nat × Nat × Nat × Nat × Nat))
    (hacc : ∀ x ∈ acc.2.2, PartAt g r x) : (ls.foldl (partStep g r) acc).2.2.map (·.1) = acc.2.2.map (·.1) ++ ls ∧
      ∀ x ∈ (ls.foldl (partStep g r) acc).2.2, PartAt g r x := by
  induction ls generalizing acc with
  | nil => exact ⟨(List.append_nil _).symm, hacc⟩
  | cons l ls ih =>
    have hstep : ∀ x ∈ (partStep g r acc l).2.2, PartAt g r x := fun x hx => by
      rcases List.mem_append.1 hx with hx | hx
      · exact hacc x hx
      · rw [List.mem_singleton.1 hx]
        exact ⟨rfl, rfl⟩
    obtain ⟨hm, hp⟩ := ih _ hstep
    refine ⟨hm.trans ?_, hp⟩
    unfold partStep
    simp

theorem partsOf_spec (g : List Nat) (r n : Nat) : (partsOf g r n).map (·.1) = levelsIn g ∧ ∀ x ∈ partsOf g r n, PartAt g r x := by
  rw [partsOf_steps]
  exact partSteps_spec g r (levelsIn g) (0, n, []) (by simp)

/-- A level in use has its part. -/
theorem partsOf_find (hl : l ∈ levelsIn g) (r n : Nat) :
    ∃ q st len own, (partsOf g r n).find? (fun x => x.1 = l) = some (l, g.getD l 1, digit g r l, q, st, len, own) := by
  obtain ⟨hmap, hpart⟩ := partsOf_spec g r n
  rw [← hmap] at hl
  obtain ⟨x, hx, hxl⟩ := List.mem_map.1 hl
  have hsome : ((partsOf g r n).find? fun x => x.1 = l).isSome = true := List.find?_isSome.2 ⟨x, hx, by simpa using hxl⟩
  obtain ⟨⟨l', gl, d, q, st, len, own⟩, hy⟩ := Option.isSome_iff_exists.1 hsome
  have hyl : l' = l := by simpa using List.find?_some hy
  obtain ⟨hgl, hd⟩ := hpart _ (List.mem_of_find?_eq_some hy)
  subst hyl
  dsimp only at hgl hd
  exact ⟨q, st, len, own, by rw [hy, hgl, hd]⟩

end

theorem crewPeers_levels {s : State} {c : Fin 16} (h : crewPeers s c ≠ []) : levelsIn (crewG s c) ≠ [] := by
  intro he
  apply h
  unfold crewPeers
  dsimp only
  rw [he]
  rfl

theorem mem_crewPeers {s : State} {c : Fin 16} {l x : Nat} (hl : l ∈ levelsIn (crewG s c)) (hx : x ∈ peersAt (crewG s c) (myRank s c) l) :
    x ∈ crewPeers s c := List.mem_flatMap.2 ⟨l, hl, hx⟩

theorem crewPeers_ne_self {s : State} {c : Fin 16} {x : Nat} (h : x ∈ crewPeers s c) : x ≠ myRank s c := by
  obtain ⟨l, -, hx⟩ := List.mem_flatMap.1 h
  exact ne_of_mem_peersAt hx

end Sys2Proof.Machine
end

section
/-! The first steps of an operation of which no peer is READY yet (R276 to R285, R292, R293): it does what it can alone, and waits. -/

namespace Sys2Proof.Machine

open Sys2Proof

/-! ## The Crew and its one operation -/

/-- A Crew with peers that its member can reach, and with no error and no tile that its operation would find. -/
structure Starts (s : State) (c : Fin 16) (p : Fin 8) : Prop where
  owner : crewOwner s c = some p
  peers : crewPeers s c ≠ []
  many : 1 < crewP s c
  member : myRank s c < crewP s c
  groups : ∀ x ∈ crewG s c, 0 < x
  reach : ∀ r, r < crewP s c ∨ r ∈ crewPeers s c → r ≠ myRank s c → (routePort s (rankMid s c r) false).isSome = true
  clean : NoUe s
  still : NoSendon s

/-- From `s` to `t` the one operation in flight of Crew `c` has become `o`, and work has been done for it. -/
structure Runs (s t : State) (c : Fin 16) (o : CollOp) : Prop where
  kept : Unspoilt s t
  crew : SameLife { s.crews[c] with ops := [o] } t.crews[c]
  other : ∀ d, d ≠ c → t.crews[d] = s.crews[d]

section
variable {s t u : State} {c : Fin 16} {p : Fin 8} {o x : CollOp}

theorem Runs.ops (h : Runs s t c o) : t.crews[c].ops = [o] := by
  obtain ⟨_, _, _, _, hk⟩ := h.crew.own
  rw [hk]

theorem Runs.rank (h : Runs s t c o) : t.crews[c].rank = s.crews[c].rank := by
  obtain ⟨_, _, _, _, hk⟩ := h.crew.own
  rw [hk]

theorem Runs.myRank (h : Runs s t c o) : myRank t c = myRank s c := by
  unfold Machine.myRank
  rw [h.rank]

theorem Runs.crewG (h : Runs s t c o) : crewG t c = crewG s c := crewG_vals h.kept.routes.vals c

theorem Runs.starts (h : Runs s t c o) (hs : Starts s c p) : Starts t c p := by
  have hv := h.kept.routes.vals
  have hpeers : crewPeers t c = crewPeers s c := crewPeers_vals hv h.rank
  have hP : crewP t c = crewP s c := crewP_vals hv c
  refine ⟨(crewOwner_dict hv c).trans hs.owner, hpeers ▸ hs.peers, hP ▸ hs.many, ?_, h.crewG ▸ hs.groups, fun r hr hne => ?_, h.kept.ue hs.clean,
    h.kept.tiles hs.still⟩
  · rw [hP, h.myRank]
    exact hs.member
  · rw [rankMid_vals hv, h.kept.routes.routePort]
    rw [hP, hpeers] at hr
    rw [h.myRank] at hne
    exact hs.reach r hr hne

theorem runs_self (h : s.crews[c].ops = [o]) : Runs s s c o := by
  refine ⟨Unspoilt.refl s, ?_, fun _ _ => rfl⟩
  rw [← h]
  exact SameLife.refl _

theorem SameLife.ops {j k : Crew} (h : SameLife j k) (l : List CollOp) : SameLife { j with ops := l } { k with ops := l } := by
  obtain ⟨⟨s1, c1, d1, a1, rfl⟩, h2⟩ := h
  exact ⟨⟨s1, c1, d1, a1, rfl⟩, h2⟩

theorem Runs.trans (h : Runs s t c o) (k : Runs t u c x) : Runs s u c x :=
  ⟨h.kept.trans k.kept, (h.crew.ops [x]).trans k.crew, fun d hd => (k.other d hd).trans (h.other d hd)⟩

theorem Runs.beside (h : Runs s t c o) (k : Beside t u c) : Runs s u c o :=
  ⟨h.kept.trans k.kept, h.crew.trans k.crew, fun d hd => (k.other d hd).trans (h.other d hd)⟩

theorem Runs.updOp (h : Runs s t c o) {k : Nat} (hk : o.num = k) (g : CollOp → CollOp) : Runs s (updOp t c k g) c (g o) := by
  refine ⟨h.kept.trans (unspoilt_updCrew ..), ?_, fun d hd => (updCrew_other _ _ _ _ hd).trans (h.other d hd)⟩
  have hops : (Machine.updOp t c k g).crews[c] = { t.crews[c] with ops := [g o] } := by
    unfold Machine.updOp
    rw [updCrew_same, h.ops]
    simp [hk]
  rw [hops]
  exact h.crew.ops [g o]

/-! ## The operation alone -/

/-- The same operation of the same command. -/
structure SameOp (o x : CollOp) : Prop where
  num : x.num = o.num
  word : x.word = o.word
  iss : x.iss = o.iss
  terms : x.terms = o.terms

theorem SameOp.trans {y : CollOp} (h : SameOp o x) (k : SameOp x y) : SameOp o y :=
  ⟨k.num.trans h.num, k.word.trans h.word, k.iss.trans h.iss, k.terms.trans h.terms⟩

/-- An operation in flight of which nothing has come from a peer: what it has done it has done alone. -/
structure Waits (g : List Nat) (me : Nat) (o : CollOp) : Prop where
  ready : o.readyFrom = []
  landed : o.landed = []
  risen : o.risen = []
  counts : ∀ x ∈ o.counts, x.1 = me
  retired : o.retired = false
  failed : o.failed = false
  complete : o.complete = true → coOp o.word = 3 ∧ coCount o.word = 0
  up : o.up = true ∨ coOp o.word = 2
  sent : coOp o.word ≠ 7 → ∀ x ∈ o.sent, x.1 = me
  level : coOp o.word ≠ 7 → o.level ∈ levelsIn g
  rises : coOp o.word = 7 → ∃ l ∈ levelsIn g, o.level ≤ l

/-- One step of the operation has been taken. -/
def Steps (t u : State) (c : Fin 16) (o : CollOp) : Prop := ∃ x, Runs t u c x ∧ SameOp o x ∧ Waits (crewG t c) (myRank t c) x

theorem guardUe_clean (h : NoUe t) (rs ws : List Nat) (next : Option State) : guardUe t c p o rs ws next = next.map fun v => collRead v p rs := by
  unfold guardUe
  rw [collUe_none h]

theorem opWrite_runs {a off : Nat} {bs : List Byte} (ho : t.crews[c].ops = [o]) (h : opWrite t c p o a off bs = some u) :
    ∃ w, Runs t u c { o with wrote := w } := by
  unfold opWrite at h
  obtain ⟨v, hv, rfl⟩ := Option.map_eq_some_iff.1 h
  exact ⟨_, ((runs_self ho).beside (beside_collWrite hv)).updOp rfl _⟩

/-- A step in which the operation writes places of its own: what follows finds it as it was but for what it wrote. -/
theorem ownWrite_runs {a off : Nat} {bs : List Byte} {rs ws : List Nat} {f : State → State} (hc : NoUe t) (ho : t.crews[c].ops = [o])
    (h : guardUe t c p o rs ws ((opWrite t c p o a off bs).map f) = some u) :
    ∃ v w, Runs t v c { o with wrote := w } ∧ u = collRead (f v) p rs := by
  rw [guardUe_clean hc] at h
  obtain ⟨v', hv', rfl⟩ := Option.map_eq_some_iff.1 h
  obtain ⟨v, hv, rfl⟩ := Option.map_eq_some_iff.1 hv'
  obtain ⟨w, hw⟩ := opWrite_runs ho hv
  exact ⟨v, w, hw, rfl⟩

variable {g : List Nat} {me : Nat}

theorem find?_never {α : Type} (l : List α) : l.find? (fun _ => false) = none := List.find?_eq_none.2 fun _ _ => Bool.false_ne_true

theorem Waits.not_sent (hw : Waits g me o) (h7 : coOp o.word ≠ 7) {r l : Nat} {down : Bool} (hr : r ≠ me) : o.sent.contains (r, l, down) = false := by
  rw [← Bool.not_eq_true, List.contains_iff_mem]
  exact fun h => hr (hw.sent h7 _ h)

/-- Of the positions of a level beside the own one, none has been sent to. -/
theorem Waits.unsent (hw : Waits g me o) (h7 : coOp o.word ≠ 7) (hg : ∀ x ∈ g, 0 < x) {l : Nat} (hl : l ∈ levelsIn g) (down : Bool) :
    (((List.range (g.getD l 1)).filter (· ≠ digit g me l)).all fun j => o.sent.contains (atPos g me l j, l, down)) = false := by
  obtain ⟨j, hj⟩ := exists_position (mem_levelsIn.1 hl).2 (digit g me l)
  have hne : j ≠ digit g me l := by simpa using (List.mem_filter.1 hj).2
  exact List.all_eq_false.2 ⟨j, hj, by rw [hw.not_sent h7 (atPos_ne hg hne)]; decide⟩

end

/-! ## Reductions on the way up -/

section
variable {t u : State} {c : Fin 16} {p : Fin 8} {o : CollOp}

theorem stepUp_waits (hs : Starts t c p) (ho : t.crews[c].ops = [o]) (hw : Waits (crewG t c) (myRank t c) o) (h7 : coOp o.word ≠ 7)
    (h : stepUp t c p o = some u) : Steps t u c o := by
  have hl := hw.level h7
  obtain ⟨q, st, len, own, hpart⟩ := partsOf_find hl (myRank t c) (coCount o.word)
  unfold stepUp at h
  dsimp only at h
  rw [hpart] at h
  dsimp only at h
  simp only [hw.ready, List.contains_nil, Bool.and_false, Bool.false_and, find?_never, ite_self, hw.unsent h7 hs.groups hl] at h
  split at h
  · split at h
    · cases h
    · obtain ⟨v, w, hv, rfl⟩ := ownWrite_runs hs.clean ho h
      refine ⟨_, (hv.updOp rfl _).beside (beside_collRead ..), ⟨rfl, rfl, rfl, rfl⟩, ?_⟩
      exact { hw with
        sent := fun _ x hx => (List.mem_cons.1 hx).elim (fun e => by rw [e]) (hw.sent h7 x) }
  · rw [if_pos (by simp)] at h
    cases h

/-! ## The way down, and the operations that move data only -/

theorem stepDownAll_waits (hs : Starts t c p) (hw : Waits (crewG t c) (myRank t c) o) (h7 : coOp o.word ≠ 7) : stepDownAll t c p o = none := by
  have hl := hw.level h7
  obtain ⟨q, st, len, own, hpart⟩ := partsOf_find hl (myRank t c) (coCount o.word)
  obtain ⟨j, hj⟩ := exists_position (mem_levelsIn.1 hl).2 (digit (crewG t c) (myRank t c) o.level)
  have hne : j ≠ digit (crewG t c) (myRank t c) o.level := by simpa using (List.mem_filter.1 hj).2
  unfold stepDownAll
  dsimp only
  rw [hpart]
  dsimp only
  simp only [hw.ready, List.contains_nil, Bool.and_false, find?_never]
  refine if_neg ?_
  rw [Bool.not_eq_true]
  exact List.all_eq_false.2 ⟨j, hj, by rw [hw.not_sent h7 (atPos_ne hs.groups hne)]; exact Bool.false_ne_true⟩

/-- Where the way down begins it begins at the highest level in use. -/
theorem beginDown_top {g : List Nat} (hg : crewG t c = g) (hl : levelsIn g ≠ []) (h1 : coOp o.word ≠ 1) :
    ∃ l ∈ levelsIn g, beginDown t c o = updOp t c o.num fun o => { o with up := false, level := l } := by
  unfold beginDown
  rw [hg]
  cases hd : (levelsDown g).head? with
  | none => exact absurd (List.reverse_eq_nil_iff.1 (List.head?_eq_none_iff.1 hd)) hl
  | some l => exact ⟨l, List.mem_reverse.1 (List.mem_of_head? hd), if_neg h1⟩

/-- The own part of an ALLGATHER is written, and the way down begins. -/
theorem gatherUp_waits (hs : Starts t c p) (ho : t.crews[c].ops = [o]) (hw : Waits (crewG t c) (myRank t c) o) (h2 : coOp o.word = 2) {n a off : Nat}
    {bs : List Byte} {rs ws : List Nat} (h : guardUe t c p o rs ws ((opWrite t c p o a off bs).map fun s =>
      beginDown (updOp s c o.num fun o => { o with written := o.written + n }) c o) = some u) : Steps t u c o := by
  obtain ⟨v, w, hv, rfl⟩ := ownWrite_runs hs.clean ho h
  have hv' := hv.updOp rfl fun x => { x with written := x.written + n }
  obtain ⟨l, hl, hdown⟩ := beginDown_top (o := o) hv'.crewG (crewPeers_levels hs.peers) (by omega)
  rw [hdown]
  refine ⟨_, (hv'.updOp rfl _).beside (beside_collRead ..), ⟨rfl, rfl, rfl, rfl⟩, ?_⟩
  exact { hw with
    up := .inr h2
    level := fun _ => hl
    rises := fun h => absurd (h2.symm.trans h) (by decide) }

/-- Of a message of a BROADCAST nothing has landed: it is whole only where it has no bytes. -/
theorem messageDone_broadcast {g : List Nat} {me : Nat} (hw : Waits g me o) (h3 : coOp o.word = 3) (r l : Nat) :
    messageDone t c o r l true = decide (coCount o.word * coOutB o.word = 0) := by
  have harea : messageArea t c o r l true = some (coRbuf o.word, 0, coCount o.word * coOutB o.word) := by
    unfold messageArea
    dsimp only
    rw [h3]
    rfl
  unfold messageDone
  rw [harea, hw.landed]
  dsimp only [List.filter_nil, List.map_nil, List.sum_nil, List.all_nil]
  rw [Bool.and_true]
  exact decide_eq_decide.2 eq_comm

/-- A peer of some level has still to be sent to. -/
theorem targets_unsent (hs : Starts t c p) (hw : Waits (crewG t c) (myRank t c) o) (h7 : coOp o.word ≠ 7) (down : Bool) :
    (((levelsDown (crewG t c)).flatMap fun l => (peersAt (crewG t c) (myRank t c) l).map fun r => (r, l)).all fun x => o.sent.contains (x.1, x.2, down)) =
      false := by
  obtain ⟨l, hl⟩ := List.exists_mem_of_ne_nil _ (crewPeers_levels hs.peers)
  obtain ⟨r, hr⟩ := List.exists_mem_of_ne_nil _ (peersAt_ne_nil hs.groups hl (myRank t c))
  refine List.all_eq_false.2 ⟨(r, l), List.mem_flatMap.2 ⟨l, List.mem_reverse.2 hl, List.mem_map.2 ⟨r, hr, rfl⟩⟩, ?_⟩
  rw [hw.not_sent h7 (ne_of_mem_peersAt hr)]
  exact Bool.false_ne_true

theorem stepBroadcast_waits (hs : Starts t c p) (ho : t.crews[c].ops = [o]) (hw : Waits (crewG t c) (myRank t c) o) (h3 : coOp o.word = 3)
    (hB : 0 < coOutB o.word) (h : stepBroadcast t c p o = some u) : Steps t u c o := by
  have h7 : coOp o.word ≠ 7 := by omega
  unfold stepBroadcast at h
  dsimp only at h
  cases hfrom : rootLevel (crewG t c) (coRoot o.word) (myRank t c) with
  | none =>
    rw [hfrom] at h
    dsimp only at h
    rw [if_neg (by decide)] at h
    split at h
    · obtain ⟨v, w, hv, rfl⟩ := ownWrite_runs hs.clean ho h
      refine ⟨_, (hv.updOp rfl _).beside (beside_collRead ..), ⟨rfl, rfl, rfl, rfl⟩, ?_⟩
      exact { hw with sent := fun _ x hx => (List.mem_cons.1 hx).elim (fun e => by rw [e]) (hw.sent h7 x) }
    · simp only [hw.ready, List.contains_nil, Bool.and_false, find?_never] at h
      rw [if_neg (by rw [List.filter_true, targets_unsent hs hw h7]; exact Bool.false_ne_true)] at h
      cases h
  | some l =>
    rw [hfrom] at h
    simp only [messageDone_broadcast hw h3] at h
    by_cases hn : coCount o.word * coOutB o.word = 0
    · have hzero : coCount o.word = 0 := (Nat.mul_eq_zero.1 hn).resolve_right (by omega)
      rw [decide_eq_true hn, if_neg (by decide), Option.isNone_some, Bool.false_and, if_neg Bool.false_ne_true] at h
      simp only [hw.ready, List.contains_nil, Bool.and_false, find?_never] at h
      obtain ⟨-, hu⟩ := Option.ite_none_right_eq_some.1 h
      obtain rfl := Option.some.inj hu
      exact ⟨_, (runs_self ho).updOp rfl _, ⟨rfl, rfl, rfl, rfl⟩, { hw with complete := fun _ => ⟨h3, hzero⟩ }⟩
    · rw [decide_eq_false hn, if_pos (by decide)] at h
      cases h

theorem exists_other_rank {n : Nat} (h : 1 < n) (me : Nat) : ∃ r ∈ List.range n, r ≠ me := by
  by_cases hm : me = 0
  · exact ⟨1, List.mem_range.2 h, by omega⟩
  · exact ⟨0, List.mem_range.2 (by omega), by omega⟩

/-- Some rank has still to be sent to, whatever else is asked of it. -/
theorem ranks_unsent (hs : Starts t c p) (hw : Waits (crewG t c) (myRank t c) o) (h7 : coOp o.word ≠ 7) (f : Nat → Bool) :
    ((List.range (crewP t c)).all fun r => decide (r = myRank t c) || o.sent.contains (r, 0, false) && f r) = false := by
  obtain ⟨r, hr, hne⟩ := exists_other_rank hs.many (myRank t c)
  refine List.all_eq_false.2 ⟨r, hr, ?_⟩
  rw [decide_eq_false hne, hw.not_sent h7 hne]
  exact Bool.false_ne_true

/-- Some rank's number of rows is not known. -/
theorem rows_unknown (hs : Starts t c p) (hw : Waits (crewG t c) (myRank t c) o) :
    ((List.range (crewP t c)).all fun r => (rowsFrom o r).isSome) = false := by
  obtain ⟨r, hr, hne⟩ := exists_other_rank hs.many (myRank t c)
  refine List.all_eq_false.2 ⟨r, hr, ?_⟩
  have hnone : o.counts.find? (fun x => decide (x.1 = r)) = none :=
    List.find?_eq_none.2 fun x hx => by simpa [hw.counts x hx] using hne.symm
  unfold rowsFrom
  rw [hnone]
  exact Bool.false_ne_true

theorem stepAlltoall_waits (hs : Starts t c p) (ho : t.crews[c].ops = [o]) (hw : Waits (crewG t c) (myRank t c) o) (h7 : coOp o.word ≠ 7)
    (h : stepAlltoall t c p o = some u) : Steps t u c o := by
  unfold stepAlltoall at h
  dsimp only at h
  split at h
  · obtain ⟨v, w, hv, rfl⟩ := ownWrite_runs hs.clean ho h
    refine ⟨_, (hv.updOp rfl _).beside (beside_collRead ..), ⟨rfl, rfl, rfl, rfl⟩, ?_⟩
    exact { hw with sent := fun _ x hx => (List.mem_cons.1 hx).elim (fun e => by rw [e]) (hw.sent h7 x) }
  · simp only [hw.ready, List.contains_nil, Bool.and_false, find?_never] at h
    rw [ranks_unsent hs hw h7, if_neg Bool.false_ne_true] at h
    cases h

theorem stepAlltoallv_waits (hs : Starts t c p) (ho : t.crews[c].ops = [o]) (hw : Waits (crewG t c) (myRank t c) o) (h7 : coOp o.word ≠ 7)
    (h : stepAlltoallv t c p o = some u) : Steps t u c o := by
  unfold stepAlltoallv at h
  simp only [hw.ready, List.contains_nil, Bool.and_false, find?_never, rows_unknown hs hw, ranks_unsent hs hw h7] at h
  rw [if_neg Bool.false_ne_true] at h
  split at h
  · split at h
    · cases h
    · obtain ⟨v, w, hv, rfl⟩ := ownWrite_runs hs.clean ho h
      refine ⟨_, (hv.updOp rfl _).beside (beside_collRead ..), ⟨rfl, rfl, rfl, rfl⟩, ?_⟩
      exact { hw with sent := fun _ x hx => (List.mem_cons.1 hx).elim (fun e => by rw [e]) (hw.sent h7 x) }
  · rw [if_neg Bool.false_ne_true] at h
    cases h

/-! ## BARRIER -/

theorem sendOpSync_routed {s : State} {c : Fin 16} {r : Nat} (h : (routePort s (rankMid s c r) false).isSome = true) (o : CollOp) (l : Nat) (down : Bool)
    (kind : Nat) (body : List Byte) : Sent s (sendOpSync s c o r l down kind body) c := by
  unfold sendOpSync
  dsimp only
  rw [sendSyncOf_routed none (levelTag l down) (leBytes 4 o.num ++ body) h, if_pos rfl]
  exact sendSyncOf_sent ..

theorem stepBarrier_waits (hs : Starts t c p) (ho : t.crews[c].ops = [o]) (hw : Waits (crewG t c) (myRank t c) o) (h7 : coOp o.word = 7)
    (h : stepBarrier t c o = some u) : Steps t u c o := by
  have hup : o.up = true := hw.up.resolve_right (by omega)
  obtain ⟨l0, hl0, hle0⟩ := hw.rises h7
  have hsome : ((levelsIn (crewG t c)).find? fun x => decide (o.level ≤ x)).isSome = true := List.find?_isSome.2 ⟨l0, hl0, by simpa using hle0⟩
  obtain ⟨l, hfind⟩ := Option.isSome_iff_exists.1 hsome
  have hl := List.mem_of_find?_eq_some hfind
  unfold stepBarrier at h
  dsimp only at h
  rw [hup, if_pos rfl, hfind] at h
  dsimp only at h
  by_cases hd : digit (crewG t c) (myRank t c) l ≠ 0
  · rw [if_pos hd] at h
    split at h
    · cases h
    · obtain rfl := Option.some.inj h
      have hmem := mem_crewPeers hl (leader_mem_peersAt hs.groups hl hd)
      have hv := (runs_self ho).updOp rfl fun o => { o with sent := (atPos (crewG t c) (myRank t c) l 0, l, false) :: o.sent, level := l }
      have hr := (hv.starts hs).reach _ (.inr (by rw [crewPeers_vals hv.kept.routes.vals hv.rank]; exact hmem))
        (by rw [hv.myRank]; exact crewPeers_ne_self hmem)
      refine ⟨_, hv.beside (sendOpSync_routed hr ..).beside, ⟨rfl, rfl, rfl, rfl⟩, ?_⟩
      exact { hw with
        sent := fun h => absurd h7 h
        level := fun h => absurd h7 h
        rises := fun _ => ⟨l, hl, le_rfl⟩ }
  · rw [if_neg hd, hw.risen] at h
    obtain ⟨r, hr⟩ := List.exists_mem_of_ne_nil _ (peersAt_ne_nil hs.groups hl (myRank t c))
    rw [if_neg (fun h => absurd (List.all_eq_true.1 h r hr) (by simp))] at h
    cases h

end

end Sys2Proof.Machine
end

section
/-! A Crew goes on with its one operation, of which no peer is READY yet (R276): every step it can take is one the operation takes alone. -/

namespace Sys2Proof.Machine

open Sys2Proof

/-- A command of one of the eight operations, whose elements have bytes where it moves data alone. -/
structure OpWord (w : Cmd) : Prop where
  op : coOp w ≤ 7
  bytes : coOp w = 3 → 0 < coOutB w

section
variable {s t u : State} {c : Fin 16} {p : Fin 8} {o x : CollOp}

/-- A step of an operation is one of those above. -/
theorem stepOpr_waits (hs : Starts t c p) (ho : t.crews[c].ops = [o]) (hw : Waits (crewG t c) (myRank t c) o) (hword : OpWord o.word)
    (h : stepOpr t c o = some u) : Steps t u c o := by
  have hle := hword.op
  unfold stepOpr at h
  rw [hs.owner] at h
  dsimp only at h
  split at h
  · cases h
  · split at h
    case h_1 h0 =>
      split at h
      · exact stepUp_waits hs ho hw (by omega) h
      · rw [stepDownAll_waits hs hw (by omega)] at h
        cases h
    case h_2 h1 =>
      split at h
      · exact stepUp_waits hs ho hw (by omega) h
      · cases h
    case h_3 h2 =>
      split at h
      · exact gatherUp_waits hs ho hw h2 h
      · rw [stepDownAll_waits hs hw (by omega)] at h
        cases h
    case h_4 h3 => exact stepBroadcast_waits hs ho hw h3 (hword.bytes h3) h
    case h_5 h4 =>
      rw [hw.up.resolve_right (by omega), if_pos rfl] at h
      exact stepUp_waits hs ho hw (by omega) h
    case h_6 h5 => exact stepAlltoall_waits hs ho hw (by omega) h
    case h_7 h6 => exact stepAlltoallv_waits hs ho hw (by omega) h
    case h_8 h0 h1 h2 h3 h4 h5 h6 =>
      simp only [imp_false] at h0 h1 h2 h3 h4 h5 h6
      exact stepBarrier_waits hs ho hw (by omega) h

theorem Steps.beside (h : Steps s t c o) (k : Beside t u c) : Steps s u c o := by
  obtain ⟨x, hx, hsame, hw⟩ := h
  exact ⟨x, hx.beside k, hsame, hw⟩

variable (hs : Starts s c p) (hword : OpWord o.word)
include hs hword

theorem pumpCrew_steps (n : Nat) (h : Steps s t c o) : Steps s (pumpCrew n t c) c o := by
  induction n generalizing t with
  | zero => exact h
  | succ n ih =>
    obtain ⟨x, hx, hsame, hw⟩ := h
    unfold pumpCrew
    rw [hx.ops, List.findSome?_cons, List.findSome?_nil]
    cases hstep : stepOpr t c x with
    | none => exact ⟨x, hx, hsame, hw⟩
    | some v =>
      have hw' : Waits (crewG t c) (myRank t c) x := by
        rw [hx.crewG, hx.myRank]
        exact hw
      obtain ⟨y, hy, hsame', hwy⟩ := stepOpr_waits (hx.starts hs) hx.ops hw' (hsame.word ▸ hword) hstep
      rw [hx.crewG, hx.myRank] at hwy
      exact ih ⟨y, hx.trans hy, hsame.trans hsame', hwy⟩

theorem pump_steps (h : Steps s t c o) : Steps s (pump t c) c o := by
  unfold pump
  split
  · exact h
  · exact pumpCrew_steps hs hword _ h

/-- The Crew goes on: its operation, taken up already, does what it can (R276). -/
theorem advance_steps (h : Steps s t c o) {v : State} (htake : takeWaiting v c = t) : Steps s (advanceCrew v c) c o := by
  obtain ⟨x, hx, -, -⟩ := id h
  have hst := hx.starts hs
  unfold advanceCrew
  rw [htake]
  dsimp only
  rw [hst.owner]
  dsimp only
  rw [hx.ops, List.foldl_cons, List.foldl_nil, takeTiles_none hst.still]
  exact pump_steps hs hword (h.beside (beside_checkArrival t c))

end

end Sys2Proof.Machine
end

section
/-! A collective operation begins (R266, R276, R284, R292). -/

namespace Sys2Proof.Machine

open Sys2Proof

/-- Crew `c` has counted its next operation and holds it in flight alone. -/
def opened (s : State) (c : Fin 16) (o : CollOp) : State := updCrew s c fun k => { k with opNum := k.opNum + 1, ops := [o] }

section
variable {s : State} {c : Fin 16} {p : Fin 8}

theorem opened_ops (o : CollOp) : (opened s c o).crews[c].ops = [o] := by
  unfold opened
  rw [updCrew_same]

theorem opened_rank (o : CollOp) : myRank (opened s c o) c = myRank s c := by
  unfold opened myRank
  rw [updCrew_same]

theorem Starts.updCrew {d : Fin 16} {g : Crew → Crew} (hs : Starts s c p) (hrank : (Machine.updCrew s d g).crews[c].rank = s.crews[c].rank) :
    Starts (Machine.updCrew s d g) c p := by
  have hme : myRank (Machine.updCrew s d g) c = myRank s c := by
    unfold myRank
    rw [hrank]
  have hpeers : crewPeers (Machine.updCrew s d g) c = crewPeers s c := crewPeers_vals (s := s) (t := Machine.updCrew s d g) rfl hrank
  exact ⟨hs.owner, hpeers ▸ hs.peers, hs.many, hme ▸ hs.member, hs.groups, by rw [hpeers, hme]; exact hs.reach, hs.clean, hs.still⟩

theorem starts_opened (hs : Starts s c p) (o : CollOp) : Starts (opened s c o) c p := hs.updCrew (by rw [updCrew_same])

/-- A rank that its READY or COUNTS goes to is another that can be reached. -/
theorem readyTo_routed (hs : Starts s c p) {w : Cmd} {r : Nat} (h : r ∈ readyTo s c w) : (routePort s (rankMid s c r) false).isSome = true := by
  have hpeer (hr : r ∈ crewPeers s c) := hs.reach r (.inr hr) (crewPeers_ne_self hr)
  have hrank (hr : r ∈ (List.range (crewP s c)).filter (· ≠ myRank s c)) : (routePort s (rankMid s c r) false).isSome = true := by
    obtain ⟨hlt, hne⟩ := List.mem_filter.1 hr
    exact hs.reach r (.inl (List.mem_range.1 hlt)) (by simpa using hne)
  unfold readyTo at h
  split at h
  · exact hrank h
  · exact hrank h
  · cases h
  · exact hpeer h

/-- Packets to ranks that can all be reached are sent, and nothing else happens. -/
theorem sendAll_sent (rs : List Nat) (h : ∀ r ∈ rs, (routePort s (rankMid s c r) false).isSome = true) (o : CollOp) (l : State → Nat → Nat) (down : Bool)
    (kind : Nat) (body : State → Nat → List Byte) : Sent s (rs.foldl (fun t r => sendOpSync t c o r (l t r) down kind (body t r)) s) c :=
  List.foldlRecOn (motive := fun t : State => Sent s t c) _ _ (Sent.refl s c) fun _ ht r hr =>
    ht.trans (sendOpSync_routed (ht.routed (h r hr)) ..)

theorem startOp_begins {w : Cmd} {iss : Issuer} {tm : Terms} (hs : Starts s c p) (he : s.crews[c].early = []) (hr : s.crews[c].earlyRisen = [])
    (ho : s.crews[c].ops = []) (hb : tm.begun = none) :
    ∃ o : CollOp, o.num = s.crews[c].opNum + 1 ∧ o.word = w ∧ o.iss = iss ∧ o.terms.chunk = tm.chunk ∧ o.terms.weight = tm.weight ∧
      Steps (opened s c o) (startOp s c p w iss tm) c o := by
  unfold startOp
  rw [he, hr, hb]
  extract_lets num att padded op red v early g drops me own o s1 s2 s3 s4 s5 s6
  have hcounts : ∀ x ∈ o.counts, x.1 = me := by
    intro x hx
    have hown : x ∈ own := by simpa [o, early] using hx
    unfold own at hown
    split at hown
    · rw [List.mem_singleton.1 hown]
    · cases hown
  have hlevels := crewPeers_levels hs.peers
  have hwaits : Waits (crewG (opened s c o) c) (myRank (opened s c o) c) o := by
    rw [opened_rank]
    refine ⟨rfl, rfl, rfl, hcounts, rfl, rfl, nofun, .inl rfl, fun _ => nofun, fun h7 => ?_, fun h7 => ?_⟩
    · obtain ⟨l, ls, hl⟩ := List.exists_cons_of_ne_nil hlevels
      show (if op = 7 then 0 else (levelsIn g).head?.getD 0) ∈ levelsIn g
      rw [if_neg h7, show levelsIn g = l :: ls from hl]
      exact List.mem_cons_self
    · obtain ⟨l, hl⟩ := List.exists_mem_of_ne_nil _ hlevels
      refine ⟨l, hl, ?_⟩
      show (if op = 7 then 0 else (levelsIn g).head?.getD 0) ≤ l
      rw [if_pos h7]
      exact Nat.zero_le l
  have hs1 : s1 = opened s c o := updCrew_congr (by
    rw [ho, he, hr]
    rfl)
  have hstart : Starts s1 c p := hs1 ▸ starts_opened hs o
  have hnotes : Beside s1 s3 c := by
    have hcounted : Beside s1 s2 c := beside_updAttempt s1 c fun _ => rfl
    refine hcounted.trans ?_
    exact List.foldlRecOn (motive := fun t : State => Beside s2 t c) _ _ (Beside.refl s2 c) fun _ h _ _ =>
      (h.trans (beside_addLate ..)).trans (beside_ctrAdd ..)
  have hruns3 : Runs s1 s3 c o := (runs_self (hs1 ▸ opened_ops o)).beside hnotes
  have hruns4 : Runs s1 s4 c o := by
    unfold s4
    split
    · exact hruns3.beside (sendAll_sent _ (fun r => readyTo_routed (hruns3.starts hstart)) o (fun _ _ => 0) false 4 _).beside
    · exact hruns3
  have hruns5 : Runs s1 s5 c o := by
    unfold s5
    split
    · exact hruns4
    · exact hruns4.beside (sendAll_sent _ (fun r => readyTo_routed (hruns4.starts hstart)) o (fun t r => (peerLevel t c r).getD 0) false 5 fun _ _ => []).beside
  refine ⟨o, rfl, rfl, rfl, rfl, rfl, o, ?_, ⟨rfl, rfl, rfl, rfl⟩, hwaits⟩
  rw [← hs1]
  clear_value o s1
  have hs6 : s6 = s5 := takeTiles_none (hruns5.starts hstart).still c o p
  rw [hs6]
  split
  · exact hruns5.beside (beside_deferOp ..)
  · exact hruns5

/-! ## The other Crews and their attempts -/

/-- The attempt of every Crew lives on. -/
theorem Runs.life {t : State} {o : CollOp} (h : Runs s t c o) (d : Fin 16) : t.crews[d].attempt.map Attempt.life = s.crews[d].attempt.map Attempt.life := by
  by_cases hd : d = c
  · subst hd
    exact h.crew.life
  · rw [h.other d hd]

/-- Once every Crew has settled, the one operation has still gone on alone. -/
theorem castReady_steps {t : State} {o : CollOp} (hs : Starts s c p) (hword : OpWord o.word) (h : Steps s t c o) (hwait : s.crews[c].waiting = [])
    (hother : ∀ d, d ≠ c → crewCalm s.crews[d] = true) (hw : NoWritesWait s)
    (hlive : ∀ a, s.crews[c].attempt = some a → a.ended = false ∧ a.voteCmd = none ∧ s.crews[c].fin ≠ .unresolved) : Steps s (castReady t) c o := by
  obtain ⟨x, hx, -, -⟩ := id h
  have hwaiting {u : State} {y : CollOp} (hy : Runs s u c y) : u.crews[c].waiting = [] := by
    obtain ⟨_, _, _, _, hk⟩ := hy.crew.own
    rw [hk]
    exact hwait
  have hadv : advanceOps t c = advanceCrew t c := by
    unfold advanceOps
    rw [hx.ops]
    rfl
  have hsteps := advance_steps hs hword h (takeWaiting_none (hwaiting hx))
  obtain ⟨y, hy, -, -⟩ := id hsteps
  have hsettle : settleCrew t c = advanceCrew t c := settleCrew_still hadv fun b hb => by
    have hlife := hy.life c
    rw [hb] at hlife
    obtain ⟨a, ha, hab⟩ := Option.map_eq_some_iff.1 hlife.symm
    obtain ⟨hended, hvote, hfin⟩ := hlive a ha
    obtain ⟨_, he⟩ := Prod.mk.inj hab
    obtain ⟨he, hv⟩ := Prod.mk.inj he
    refine ⟨he ▸ hended, hv ▸ hvote, .inl ?_⟩
    obtain ⟨_, _, _, _, hk⟩ := hy.crew.own
    rw [hk]
    exact hfin
  rw [castReady_one hsettle (fun d hd => by rw [hx.other d hd]; exact hother d hd) (fun d hd => (hy.other d hd).trans (hx.other d hd).symm)
    (by rw [hy.kept.funcs]; exact hw)]
  exact hsteps

end

end Sys2Proof.Machine
end

section
/-! The eight collective operations from the issue port (R266, R274, R276, R292, R296). -/

namespace Sys2Proof.Machine

open Sys2Proof

section
variable {s : State} {w : Who} {cr : Fin 16} {p : Fin 8} {a : Attempt} {k : CoreRun} {c : Cmd}

theorem crewopReject_owner (h : crewopReject s p c = none) : crewOwner s (coCrew c) = some p := by
  unfold crewopReject at h
  have hc := firstReason_none (first_of_orElse h) _ (List.mem_cons_of_mem _ List.mem_cons_self)
  by_contra hne
  simp [hne] at hc

theorem coOutB_pos {f : Fmt} (hf : fmtOf (coOfmt c) = some f) (h8 : 8 ≤ fmtBits f) : 0 < coOutB c := by
  unfold coOutB
  rw [hf]
  exact Nat.div_pos h8 (by decide)

/-- The elements that a BROADCAST moves have whole bytes. -/
theorem crewopReject_bytes (h : crewopReject s p c = none) (h3 : coOp c = 3) : 0 < coOutB c := by
  unfold crewopReject at h
  have hc := firstReason_none (first_of_orElse h) _ (List.mem_cons_of_mem _ (List.mem_cons_of_mem _ (List.mem_cons_of_mem _ List.mem_cons_self)))
  dsimp only at hc
  cases hd : fmtOf (coDtype c) with
  | none => simp [h3, hd] at hc
  | some f =>
    have hsame : fmtOf (coOfmt c) = some f := by
      by_contra hne
      simp [h3, hd, Ne.symm hne] at hc
    refine coOutB_pos hsame ?_
    by_contra hlt
    simp [h3, hd, hlt] at hc

/-- The operation that a collective's code names. -/
def IsCollective (w : Who) (c : Cmd) (i : Instr) : Prop :=
  coOp c = 0 ∧ i = .allreduce w c ∨ coOp c = 1 ∧ i = .reducescatter w c ∨ coOp c = 2 ∧ i = .allgather w c ∨ coOp c = 3 ∧ i = .broadcast w c ∨
    coOp c = 4 ∧ i = .reduce w c ∨ coOp c = 5 ∧ i = .alltoall w c ∨ coOp c = 6 ∧ i = .alltoallv w c ∨ coOp c = 7 ∧ i = .barrier w c

theorem IsCollective.op {i : Instr} (h : IsCollective w c i) : coOp c ≤ 7 := by
  unfold IsCollective at h
  omega

/-- Each of the eight is a command of the Rigger's issue port. -/
theorem exec_collective {i : Instr} (h : IsCollective w c i) (hon : s.power.on = true) : exec i s = .next (riggerPort s w c) := by
  rcases h with ⟨-, rfl⟩ | ⟨-, rfl⟩ | ⟨-, rfl⟩ | ⟨-, rfl⟩ | ⟨-, rfl⟩ | ⟨-, rfl⟩ | ⟨-, rfl⟩ | ⟨-, rfl⟩
  all_goals exact powered_on hon _

theorem rigWaiting_crew (s : State) (d : Fin 16) (c : Cmd) (iss : Issuer) : (rigWaiting s d c iss).crews[d] = { s.crews[d] with
    waiting := s.crews[d].waiting ++ [(c, iss, issueTerms s d)], age := s.crews[d].age + 1, silence := crewSilence s d } :=
  updCrew_same ..

theorem rigWaiting_other (s : State) {d e : Fin 16} (h : e ≠ d) (c : Cmd) (iss : Issuer) : (rigWaiting s d c iss).crews[e] = s.crews[e] :=
  updCrew_other s d e _ h

/-- A command of a Crew whose HS is 0 waits, and nothing more happens in a calm module (R266). -/
theorem castReady_held {d : Fin 16} (hcalm : Calm s) (hhs : s.crews[d].hs = false) (iss : Issuer) :
    castReady (advanceCrew (rigWaiting s d c iss) d) = rigWaiting s d c iss := by
  have hcrew := rigWaiting_crew s d c iss
  have hadv : advanceCrew (rigWaiting s d c iss) d = rigWaiting s d c iss :=
    advanceCrew_opless (takeWaiting_held (by rw [hcrew]; exact hhs)) (by rw [hcrew]; exact (calm_free hcalm d).1)
  rw [hadv]
  refine castReady_one (settleCrew_still ?_ fun b hb => ?_) (fun e he => by rw [rigWaiting_other s he]; exact hcalm.1 e) (fun _ _ => rfl) hcalm.2
  · unfold advanceOps
    rw [hadv]
    exact ite_self _
  · rw [hcrew] at hb ⊢
    obtain ⟨hended, hvote, hfin⟩ := ((crewCalm_iff _).1 (hcalm.1 d)).2 b hb
    exact ⟨hended, hvote, .inl hfin⟩

/-- The state in which a core's collective waits, as the statement names it. -/
theorem rigWaiting_booked (hcalm : Calm s) (d : Fin 16) (iss : Issuer) : rigWaiting (bookIssue s cr w k) d c iss =
    updCrew (bookIssue s cr w k) d fun x => { x with
      waiting := [(c, iss, ⟨crewChunk s d, crewWeight s d, s.crews[d].age, none⟩)], age := x.age + 1, silence := crewSilence s d } := by
  obtain ⟨x, hx⟩ := bookIssue_other s cr w k d
  unfold rigWaiting
  rw [issueTerms_booked]
  refine updCrew_congr ?_
  rw [hx]
  dsimp only
  rw [(calm_free hcalm d).2]
  rfl

/-! ## With HS 1 -/

/-- The state in which a core's collective is taken up: the store is booked and the Crew has counted the command. -/
def collTaken (s : State) (cr : Fin 16) (w : Who) (k : CoreRun) (d : Fin 16) : State := rigIssued (bookIssue s cr w k) d

theorem rank_booked (s : State) (cr : Fin 16) (w : Who) (k : CoreRun) (d : Fin 16) : (bookIssue s cr w k).crews[d].rank = s.crews[d].rank := by
  obtain ⟨x, hx⟩ := bookIssue_other s cr w k d
  rw [hx]

theorem starts_collTaken {d : Fin 16} {q : Fin 8} (hs : Starts s d q) : Starts (collTaken s cr w k d) d q := by
  have hb : Starts (bookIssue s cr w k) d q := hs.updCrew (rank_booked s cr w k d)
  unfold collTaken rigIssued
  exact hb.updCrew (by rw [updCrew_same])

/-- What the state that a collective begins in keeps of the Crews: all but the operation, its number and what the command's issue noted. -/
theorem opened_other {d e : Fin 16} (h : e ≠ d) (o : CollOp) : (opened (collTaken s cr w k d) d o).crews[e] = (bookIssue s cr w k).crews[e] :=
  (updCrew_other _ _ _ _ h).trans (updCrew_other _ _ _ _ h)

theorem opened_crew (d : Fin 16) (o : CollOp) : ∃ y, (opened (collTaken s cr w k d) d o).crews[d] = { (bookIssue s cr w k).crews[d] with
    age := s.crews[d].age + 1, silence := y, opNum := s.crews[d].opNum + 1, ops := [o] } := by
  obtain ⟨x, hx⟩ := bookIssue_other s cr w k d
  unfold opened collTaken rigIssued
  rw [updCrew_same, updCrew_same, hx]
  exact ⟨_, rfl⟩

theorem opened_attempt (d e : Fin 16) (o : CollOp) : (opened (collTaken s cr w k d) d o).crews[e].attempt = (bookIssue s cr w k).crews[e].attempt := by
  by_cases he : e = d
  · subst he
    obtain ⟨y, hy⟩ := opened_crew (s := s) (cr := cr) (w := w) (k := k) e o
    rw [hy]
  · rw [opened_other he]

/-- A collective that no check rejects begins, and does alone what it can (R276). -/
theorem riggerPort_begins {d : Fin 16} (hd : coCrew c = d) (h : CoreMay s w cr p a k) (hop : fld c 7 0 = 0x51)
    (hrej : crewopReject (bookIssue s cr w k) p c = none) (hfin : s.crews[cr].fin ≠ .decided) (hhs : s.crews[d].hs = true) (hle : coOp c ≤ 7)
    (he : s.crews[d].early = []) (hr : s.crews[d].earlyRisen = []) (hs : Starts s d p) :
    ∃ o : CollOp, o.num = s.crews[d].opNum + 1 ∧ o.word = c ∧ o.iss = coreIssuer cr a k ∧ o.terms.chunk = crewChunk s d ∧
      o.terms.weight = crewWeight s d ∧ Steps (opened (collTaken s cr w k d) d o) (riggerPort s w c) d o := by
  have hcalm := calm_booked h
  obtain ⟨hops, hwait⟩ := calm_free hcalm d
  obtain ⟨x, hx⟩ := bookIssue_other s cr w k d
  obtain ⟨x', y', hx'⟩ := rigIssued_booked s cr w k d
  have htaken := starts_collTaken (cr := cr) (w := w) (k := k) hs
  have howner : crewOwner (rigWaiting (bookIssue s cr w k) d c (coreIssuer cr a k)) d = some p :=
    (crewOwner_dict (s := bookIssue s cr w k) rfl _).trans (hd ▸ crewopReject_owner hrej)
  obtain ⟨o, hnum, hword, hiss, hchunk, hweight, hsteps⟩ := startOp_begins (s := collTaken s cr w k d) (w := c) (iss := coreIssuer cr a k)
    (tm := issueTerms (bookIssue s cr w k) d) htaken (by unfold collTaken; rw [hx']; exact he) (by unfold collTaken; rw [hx']; exact hr)
    (by unfold collTaken; rw [hx']; rw [hx] at hops; exact hops) rfl
  rw [issueTerms_booked] at hchunk hweight
  have htake : takeWaiting (rigWaiting (bookIssue s cr w k) d c (coreIssuer cr a k)) d =
      startOp (collTaken s cr w k d) d p c (coreIssuer cr a k) (issueTerms (bookIssue s cr w k) d) := by
    rw [takeWaiting_one (rigWaiting_waiting hwait c _) howner ?_ ?_, if_pos hop, rigWaiting_taken hwait]
    · rfl
    · rw [rigWaiting_crew, hx]
      exact hhs
    · unfold roomFor
      rw [rigWaiting_crew]
      dsimp only
      rw [hops, if_pos hop]
      rfl
  obtain ⟨y, hy⟩ := opened_crew (s := s) (cr := cr) (w := w) (k := k) d o
  have hopened := starts_opened htaken o
  have hopword : OpWord o.word := ⟨hword ▸ hle, hword ▸ crewopReject_bytes hrej⟩
  refine ⟨o, ?_, hword, hiss, hchunk, hweight, ?_⟩
  · rw [hnum]
    unfold collTaken
    rw [hx']
  · rw [riggerPort_waits h hfin (.inl ⟨hop, hd.symm, hrej⟩)]
    refine castReady_steps hopened hopword (advance_steps hopened hopword hsteps htake) (by rw [hy]; exact hwait)
      (fun e hne => by rw [opened_other hne]; exact hcalm.1 e) hcalm.2 ?_
    rw [hy]
    exact ((crewCalm_iff _).1 (hcalm.1 d)).2

end

/-- Settles O40: with HS 0 the command waits; with HS 1 its operation begins, and every step it can take with no peer READY is one it
takes alone (`Waits`), which leaves it in flight. -/
theorem collectivesBegin : Obligations.CollectivesBegin := by
  unfold Obligations.CollectivesBegin
  intro s w cr p a k c i hmay hop hrej hfin hi d iss tm
  have hcoll : IsCollective w c i := hi
  have hexec := exec_collective hcoll hmay.on
  refine ⟨fun hhs => ?_, fun hhs hpeers hmany hmember he hr hclean hue hgroups hreach => ?_⟩
  · rw [hexec, riggerPort_waits hmay hfin (.inl ⟨hop, rfl, hrej⟩), castReady_held (calm_booked hmay) ?_, rigWaiting_booked hmay.calm]
    obtain ⟨x, hx⟩ := bookIssue_other s cr w k (coCrew c)
    rw [hx]
    exact hhs
  · have howner : crewOwner s d = some p := (crewOwner_dict (s := bookIssue s cr w k) rfl d).symm.trans (crewopReject_owner hrej)
    have hs : Starts s d p := ⟨howner, hpeers, hmany, hmember, hgroups, hreach, ⟨fun n => (hclean n).1, hue⟩, fun n => (hclean n).2⟩
    obtain ⟨o, hnum, hword, hiss, hchunk, hweight, x, hx, hsame, hw⟩ := riggerPort_begins rfl hmay hop hrej hfin hhs hcoll.op he hr hs
    obtain ⟨y, hy⟩ := opened_crew (s := s) (cr := cr) (w := w) (k := k) d o
    obtain ⟨z, hz⟩ := bookIssue_other s cr w k d
    obtain ⟨_, _, _, _, hcrew⟩ := hx.crew.own
    have hcrew : ∃ b l j q g x y', (riggerPort s w c).crews[d] = { s.crews[d] with
        opNum := s.crews[d].opNum + 1, ops := b, sent := l, cut := j, deferrals := q, attempt := g, age := x, silence := y' } := by
      rw [hcrew, hy, hz]
      exact ⟨_, _, _, _, _, _, _, rfl⟩
    obtain ⟨_, _, _, _, _, _, _, hcrew⟩ := hcrew
    refine ⟨riggerPort s w c, x, hexec, hx.ops, hsame.num.trans hnum, hsame.word.trans hword, hsame.iss.trans hiss, by rw [hsame.terms]; exact hchunk,
      by rw [hsame.terms]; exact hweight, hw.ready, fun hne => ?_, hw.retired, hw.failed, by rw [hcrew], by rw [hcrew]; exact (calm_free hmay.calm d).2,
      by rw [hcrew], ?_⟩
    · rw [← Bool.not_eq_true]
      intro hc
      obtain ⟨h3, hzero⟩ := hw.complete hc
      rw [hsame.word.trans hword] at h3 hzero
      exact hne.elim (fun h => h h3) fun h => h hzero
    · have hlife := hx.life cr
      rw [opened_attempt] at hlife
      have hflight := congrArg (Option.map Prod.fst) hlife
      rw [Option.map_map, Option.map_map] at hflight
      exact hflight.trans (bookIssue_attempt (findCore_attempt hmay.core) w k)

end Sys2Proof.Machine
end

section
/-! Every command keeps what it does not name, and every step keeps the memories canonical; the commands a module without power does not
answer, and the one that stops. -/

namespace Sys2Proof.Machine

open Sys2Proof

/-- The components outside a mask, where the outcome is a next state. -/
theorem FramesN.sameBut {m : Nat} {s : State} {o : Host.Outcome State Fault Refusal} (h : FramesN m s o) (ps : List Part)
    (hc : covers ps m = true) : ∀ t, o = .next t → SameBut ps s t := fun t e => (h t e).sameBut ps hc

/-- Settles O5: the mask of each command's frame lies within the components that `touches` names. -/
theorem commandsTouchOnlyTheirParts : Obligations.CommandsTouchOnlyTheirParts := by
  unfold Obligations.CommandsTouchOnlyTheirParts
  intro c s
  cases c with
  | mm _ _ _ => exact FramesN.sameBut execMm_frames _ rfl
  | loadw _ _ _ => exact FramesN.sameBut execLoadw_frames _ rfl
  | weightLoadDone _ => exact FramesN.sameBut execWeightLoadDone_frames _ rfl
  | passEnd _ _ => exact FramesN.sameBut execPassEnd_frames _ rfl
  | checkVerdict _ => exact FramesN.sameBut execCheckVerdict_frames _ rfl
  | laneSubstitution n ok =>
    have h := FramesN.sameBut (execLaneSubstitution_frames (n := n) (ok := ok) (s := s)) (touches (.laneSubstitution n ok)) rfl
    rw [show exec (.laneSubstitution n ok) s = execLaneSubstitution n ok s from rfl]
    exact h
  | tileInterlockRelease _ _ => exact FramesN.sameBut execTileInterlockRelease_frames _ rfl
  | guardStallRelease _ => exact FramesN.sameBut execGuardStallRelease_frames _ rfl
  | checkEnable _ _ _ => exact FramesN.sameBut execCheckEnable_frames _ rfl
  | stickyFlagsClear _ _ _ _ => exact FramesN.sameBut execStickyFlagsClear_frames _ rfl
  | firstOffenderClear _ _ _ => exact FramesN.sameBut execFirstOffenderClear_frames _ rfl
  | vop _ _ _ => exact FramesN.sameBut execVop_frames _ rfl
  | vred _ _ _ => exact FramesN.sameBut execVred_frames _ rfl
  | vcvt _ _ _ => exact FramesN.sameBut execVcvt_frames _ rfl
  | trowelRetire _ => exact FramesN.sameBut execTrowelRetire_frames _ rfl
  | palletBankSubstitution _ _ => exact FramesN.sameBut execPalletBankSubstitution_frames _ rfl
  | descriptorStore _ _ _ _ => exact FramesN.sameBut execDescriptorStore_frames _ rfl
  | tileTableStore _ _ _ _ => exact FramesN.sameBut execTileTableStore_frames _ rfl
  | copy _ _ _ => exact FramesN.sameBut execCopy_frames _ rfl
  | copyAdd _ _ _ => exact FramesN.sameBut execCopyAdd_frames _ rfl
  | gather _ _ _ => exact FramesN.sameBut execGather_frames _ rfl
  | scatter _ _ _ => exact FramesN.sameBut execScatter_frames _ rfl
  | addscatter _ _ _ => exact FramesN.sameBut execAddscatter_frames _ rfl
  | hodRetire _ => exact FramesN.sameBut execHodRetire_frames _ rfl
  | hodQueueWait _ => exact FramesN.sameBut execHodQueueWait_frames _ rfl
  | hodPartFault _ => exact FramesN.sameBut execHodPartFault_frames _ rfl
  | hostRegionWrite _ _ _ => exact FramesN.sameBut execHostRegionWrite_frames _ rfl
  | atsInvalidation _ _ _ => exact FramesN.sameBut execAtsInvalidation_frames _ rfl
  | memorySideAdd _ _ _ => exact FramesN.sameBut execMemorySideAdd_frames _ rfl
  | regulatorRequest _ _ _ => exact FramesN.sameBut execRegulatorRequest_frames _ rfl
  | patrolScrub _ _ _ _ => exact FramesN.sameBut execPatrolScrub_frames _ rfl
  | rowRepair _ _ _ _ => exact FramesN.sameBut execRowRepair_frames _ rfl
  | pseudoChannelRemap _ _ => exact FramesN.sameBut execPseudoChannelRemap_frames _ rfl
  | retireRequest _ _ _ => exact FramesN.sameBut execRetireRequest_frames _ rfl
  | marginingStack _ _ => exact FramesN.sameBut execMarginingStack_frames _ rfl
  | marginingStart _ _ => exact FramesN.sameBut execMarginingStart_frames _ rfl
  | marginingDone _ => exact FramesN.sameBut execMarginingDone_frames _ rfl
  | invalidScrub => exact FramesN.sameBut execInvalidScrub_frames _ rfl
  | linkTraining _ _ _ _ => exact FramesN.sameBut execLinkTraining_frames _ rfl
  | vfFlr _ => exact FramesN.sameBut execVfFlr_frames _ rfl
  | pf0Flr => exact FramesN.sameBut execPf0Flr_frames _ rfl
  | hotReset => exact FramesN.sameBut execHotReset_frames _ rfl
  | statusPageUpdate _ => exact FramesN.sameBut execStatusPageUpdate_frames _ rfl
  | statusPageWrite _ => exact FramesN.sameBut execStatusPageWrite_frames _ rfl
  | bar2Read _ _ _ => exact FramesN.sameBut execBar2Read_frames _ rfl
  | bar2Write _ _ _ _ => exact FramesN.sameBut execBar2Write_frames _ rfl
  | msixHoldExpiry _ _ => exact FramesN.sameBut execMsixHoldExpiry_frames _ rfl
  | msixUnmask _ _ => exact FramesN.sameBut execMsixUnmask_frames _ rfl
  | bootstrapEnableSet _ _ => exact FramesN.sameBut execBootstrapEnableSet_frames _ rfl
  | bootstrapEnableClear _ => exact FramesN.sameBut execBootstrapEnableClear_frames _ rfl
  | streamPoll _ _ _ => exact FramesN.sameBut execStreamPoll_frames _ rfl
  | crcStuck _ _ => exact FramesN.sameBut execCrcStuck_frames _ rfl
  | journalBurstWrite _ _ => exact FramesN.sameBut execJournalBurstWrite_frames _ rfl
  | entryAccept _ _ => exact FramesN.sameBut execEntryAccept_frames _ rfl
  | journalWriteFail _ => exact FramesN.sameBut execJournalWriteFail_frames _ rfl
  | journalRebuildDone => exact FramesN.sameBut execJournalRebuildDone_frames _ rfl
  | retirement _ _ => exact FramesN.sameBut execRetirement_frames _ rfl
  | nop _ _ => exact FramesN.sameBut execNop_frames _ rfl
  | launch _ _ => exact FramesN.sameBut execLaunch_frames _ rfl
  | hostCopy _ _ => exact FramesN.sameBut execHostCopy_frames _ rfl
  | hostAccumulateStart _ _ => exact FramesN.sameBut execHostAccumulateStart_frames _ rfl
  | fenceLocal _ _ => exact FramesN.sameBut execFenceLocal_frames _ rfl
  | fenceDevice _ _ => exact FramesN.sameBut execFenceDevice_frames _ rfl
  | fenceHost _ _ => exact FramesN.sameBut execFenceHost_frames _ rfl
  | fenceCrew _ _ _ => exact FramesN.sameBut execFenceCrew_frames _ rfl
  | mark _ _ => exact FramesN.sameBut execMark_frames _ rfl
  | dict _ _ => exact FramesN.sameBut execDict_frames _ rfl
  | exportSlots _ _ => exact FramesN.sameBut execExportSlots_frames _ rfl
  | streamEnable _ _ => exact FramesN.sameBut execStreamEnable_frames _ rfl
  | streamDisable _ _ => exact FramesN.sameBut execStreamDisable_frames _ rfl
  | streamResume _ _ => exact FramesN.sameBut execStreamResume_frames _ rfl
  | signalEvent _ _ => exact FramesN.sameBut execSignalEvent_frames _ rfl
  | eventWaitSatisfied _ _ => exact FramesN.sameBut execEventWaitSatisfied_frames _ rfl
  | attemptStart _ => exact FramesN.sameBut execAttemptStart_frames _ rfl
  | coreEcall _ => exact FramesN.sameBut execCoreEcall_frames _ rfl
  | coreTrap _ => exact FramesN.sameBut execCoreTrap_frames _ rfl
  | laserSwitch _ _ => exact FramesN.sameBut execLaserSwitch_frames _ rfl
  | codewordReceive _ _ _ => exact FramesN.sameBut execCodewordReceive_frames _ rfl
  | align _ _ => exact FramesN.sameBut execAlign_frames _ rfl
  | packetReceive _ _ => exact FramesN.sameBut execPacketReceive_frames _ rfl
  | ack _ _ => exact FramesN.sameBut execAck_frames _ rfl
  | nak _ _ => exact FramesN.sameBut execNak_frames _ rfl
  | ackTimer _ => exact FramesN.sameBut execAckTimer_frames _ rfl
  | idleTimer _ _ => exact FramesN.sameBut execIdleTimer_frames _ rfl
  | idle _ _ _ => exact FramesN.sameBut execIdle_frames _ rfl
  | holdover => exact FramesN.sameBut execHoldover_frames _ rfl
  | replayTimeout _ => exact FramesN.sameBut execReplayTimeout_frames _ rfl
  | lockLoss _ => exact FramesN.sameBut execLockLoss_frames _ rfl
  | portRetrain _ => exact FramesN.sameBut execPortRetrain_frames _ rfl
  | sparePropose _ _ => exact FramesN.sameBut execSparePropose_frames _ rfl
  | spareReady _ _ => exact FramesN.sameBut execSpareReady_frames _ rfl
  | spareSwitch _ _ => exact FramesN.sameBut execSpareSwitch_frames _ rfl
  | spareDone _ _ => exact FramesN.sameBut execSpareDone_frames _ rfl
  | spareAbort _ _ => exact FramesN.sameBut execSpareAbort_frames _ rfl
  | spareTimeout _ => exact FramesN.sameBut execSpareTimeout_frames _ rfl
  | crewRun _ _ => exact FramesN.sameBut execCrewRun_frames _ rfl
  | crewTest _ _ => exact FramesN.sameBut execCrewTest_frames _ rfl
  | crewDissolve _ _ => exact FramesN.sameBut execCrewDissolve_frames _ rfl
  | hello _ _ _ _ => exact FramesN.sameBut execHello_frames _ rfl
  | helloResend _ => exact FramesN.sameBut execHelloResend_frames _ rfl
  | heartbeat _ _ => exact FramesN.sameBut execHeartbeat_frames _ rfl
  | memberLost _ _ => exact FramesN.sameBut execMemberLost_frames _ rfl
  | recover _ _ _ _ _ => exact FramesN.sameBut execRecover_frames _ rfl
  | allreduce _ _ => exact FramesN.sameBut execAllreduce_frames _ rfl
  | reducescatter _ _ => exact FramesN.sameBut execReducescatter_frames _ rfl
  | allgather _ _ => exact FramesN.sameBut execAllgather_frames _ rfl
  | broadcast _ _ => exact FramesN.sameBut execBroadcast_frames _ rfl
  | reduce _ _ => exact FramesN.sameBut execReduce_frames _ rfl
  | alltoall _ _ => exact FramesN.sameBut execAlltoall_frames _ rfl
  | alltoallv _ _ => exact FramesN.sameBut execAlltoallv_frames _ rfl
  | barrier _ _ => exact FramesN.sameBut execBarrier_frames _ rfl
  | barrierSync _ _ _ _ _ => exact FramesN.sameBut execBarrierSync_frames _ rfl
  | counts _ _ _ _ _ => exact FramesN.sameBut execCounts_frames _ rfl
  | ready _ _ _ => exact FramesN.sameBut execReady_frames _ rfl
  | send _ _ => exact FramesN.sameBut execSend_frames _ rfl
  | recv _ _ => exact FramesN.sameBut execRecv_frames _ rfl
  | credit _ _ _ _ => exact FramesN.sameBut execCredit_frames _ rfl
  | done _ _ _ _ => exact FramesN.sameBut execDone_frames _ rfl
  | crewopRetire _ _ => exact FramesN.sameBut execCrewopRetire_frames _ rfl
  | collectiveRegionWrite _ _ _ => exact FramesN.sameBut execCollectiveRegionWrite_frames _ rfl
  | sendonHandleWrite _ _ _ => exact FramesN.sameBut execSendonHandleWrite_frames _ rfl
  | update _ _ => exact FramesN.sameBut execUpdate_frames _ rfl
  | hold _ _ => exact FramesN.sameBut execHold_frames _ rfl
  | apply _ _ => exact FramesN.sameBut execApply_frames _ rfl
  | coxFeed _ _ => exact FramesN.sameBut execCoxFeed_frames _ rfl
  | coxShareWindow _ => exact FramesN.sameBut execCoxShareWindow_frames _ rfl
  | clearDirty _ _ => exact FramesN.sameBut execClearDirty_frames _ rfl
  | vote _ _ => exact FramesN.sameBut execVote_frames _ rfl
  | votePacket _ _ _ => exact FramesN.sameBut execVotePacket_frames _ rfl
  | arrived _ _ _ _ => exact FramesN.sameBut execArrived_frames _ rfl
  | stragglerDeadline _ => exact FramesN.sameBut execStragglerDeadline_frames _ rfl
  | cut _ _ _ _ => exact FramesN.sameBut execCut_frames _ rfl
  | log _ _ _ _ _ => exact FramesN.sameBut execLog_frames _ rfl
  | logack _ _ _ _ _ => exact FramesN.sameBut execLogack_frames _ rfl
  | decide _ _ _ => exact FramesN.sameBut execDecide_frames _ rfl
  | query _ _ _ => exact FramesN.sameBut execQuery_frames _ rfl
  | queryTimer _ => exact FramesN.sameBut execQueryTimer_frames _ rfl
  | resolve _ _ _ _ => exact FramesN.sameBut execResolve_frames _ rfl
  | backupTakeover _ => exact FramesN.sameBut execBackupTakeover_frames _ rfl
  | rejoinCopy _ _ _ _ _ _ => exact FramesN.sameBut execRejoinCopy_frames _ rfl
  | layerStateLoad _ _ _ => exact FramesN.sameBut execLayerStateLoad_frames _ rfl
  | transmit => exact FramesN.sameBut execTransmit_frames _ rfl
  | echoCheck _ => exact FramesN.sameBut execEchoCheck_frames _ rfl
  | burstTimer => exact FramesN.sameBut execBurstTimer_frames _ rfl
  | mediumDown => exact FramesN.sameBut execMediumDown_frames _ rfl
  | mediumBusy => exact FramesN.sameBut execMediumBusy_frames _ rfl
  | frameReceive _ _ => exact FramesN.sameBut execFrameReceive_frames _ rfl
  | claim => exact FramesN.sameBut execClaim_frames _ rfl
  | assign _ _ _ _ => exact FramesN.sameBut execAssign_frames _ rfl
  | announce _ _ => exact FramesN.sameBut execAnnounce_frames _ rfl
  | openReq _ _ _ _ _ => exact FramesN.sameBut execOpenReq_frames _ rfl
  | openFin _ _ _ _ _ => exact FramesN.sameBut execOpenFin_frames _ rfl
  | openFinTimeout _ => exact FramesN.sameBut execOpenFinTimeout_frames _ rfl
  | request _ _ _ _ => exact FramesN.sameBut execRequest_frames _ rfl
  | response _ _ _ => exact FramesN.sameBut execResponse_frames _ rfl
  | evoluAck _ _ => exact FramesN.sameBut execEvoluAck_frames _ rfl
  | ackDelay _ => exact FramesN.sameBut execAckDelay_frames _ rfl
  | rtoExpiry _ => exact FramesN.sameBut execRtoExpiry_frames _ rfl
  | suspectTimeout _ => exact FramesN.sameBut execSuspectTimeout_frames _ rfl
  | idleLimit _ => exact FramesN.sameBut execIdleLimit_frames _ rfl
  | read _ _ => exact FramesN.sameBut execRead_frames _ rfl
  | write _ _ => exact FramesN.sameBut execWrite_frames _ rfl
  | readSeg _ _ => exact FramesN.sameBut execReadSeg_frames _ rfl
  | writeSeg _ _ => exact FramesN.sameBut execWriteSeg_frames _ rfl
  | transferStatus _ _ => exact FramesN.sameBut execTransferStatus_frames _ rfl
  | transferExpiry _ => exact FramesN.sameBut execTransferExpiry_frames _ rfl
  | openSet _ _ => exact FramesN.sameBut execOpenSet_frames _ rfl
  | stage _ _ => exact FramesN.sameBut execStage_frames _ rfl
  | check _ _ => exact FramesN.sameBut execCheck_frames _ rfl
  | commit _ _ => exact FramesN.sameBut execCommit_frames _ rfl
  | abort _ _ => exact FramesN.sameBut execAbort_frames _ rfl
  | renew _ _ => exact FramesN.sameBut execRenew_frames _ rfl
  | event _ => exact FramesN.sameBut execEvent_frames _ rfl
  | subscribe _ _ => exact FramesN.sameBut execSubscribe_frames _ rfl
  | close _ => exact FramesN.sameBut execClose_frames _ rfl
  | leaseExpiry => exact FramesN.sameBut execLeaseExpiry_frames _ rfl
  | applyPoint _ => exact FramesN.sameBut execApplyPoint_frames _ rfl
  | regionZeroFill _ => exact FramesN.sameBut execRegionZeroFill_frames _ rfl
  | cancelPending _ _ => exact FramesN.sameBut execCancelPending_frames _ rfl
  | forceAbort _ _ => exact FramesN.sameBut execForceAbort_frames _ rfl
  | activityUrgent _ _ => exact FramesN.sameBut execActivityUrgent_frames _ rfl
  | pointingPreemption _ _ _ => exact FramesN.sameBut execPointingPreemption_frames _ rfl
  | courseLaneSelfTest _ _ _ => exact FramesN.sameBut execCourseLaneSelfTest_frames _ rfl
  | trowelCoxLaneTest _ _ => exact FramesN.sameBut execTrowelCoxLaneTest_frames _ rfl
  | palletBankTest _ _ _ => exact FramesN.sameBut execPalletBankTest_frames _ rfl
  | coreRotation _ _ => exact FramesN.sameBut execCoreRotation_frames _ rfl
  | laneRecalibration _ _ => exact FramesN.sameBut execLaneRecalibration_frames _ rfl
  | deadlineMissed _ _ => exact FramesN.sameBut execDeadlineMissed_frames _ rfl
  | lockstepMismatch _ _ _ => exact FramesN.sameBut execLockstepMismatch_frames _ rfl
  | clearRepairMap _ _ => exact FramesN.sameBut execClearRepairMap_frames _ rfl
  | referenceLoss _ => exact FramesN.sameBut execReferenceLoss_frames _ rfl
  | clockStep _ _ => exact FramesN.sameBut execClockStep_frames _ rfl
  | powerSample _ _ => exact FramesN.sameBut execPowerSample_frames _ rfl
  | thermalSample _ _ => exact FramesN.sameBut execThermalSample_frames _ rfl
  | coldStart _ => exact FramesN.sameBut execColdStart_frames _ rfl
  | underVoltageTrip _ => exact FramesN.sameBut execUnderVoltageTrip_frames _ rfl
  | overVoltageTrip _ => exact FramesN.sameBut execOverVoltageTrip_frames _ rfl
  | idleEntry => exact FramesN.sameBut execIdleEntry_frames _ rfl
  | prepareForRemoval _ _ => exact FramesN.sameBut execPrepareForRemoval_frames _ rfl
  | warmReset _ => exact FramesN.sameBut execWarmReset_frames _ rfl
  | warmResetBringUp _ => exact FramesN.sameBut execWarmResetBringUp_frames _ rfl
  | watchdogExpiry => exact FramesN.sameBut execWatchdogExpiry_frames _ rfl
  | partReset _ _ => exact FramesN.sameBut execPartReset_frames _ rfl
  | advanceRollbackCounter _ _ => exact FramesN.sameBut execAdvanceRollbackCounter_frames _ rfl
  | burnOwnerKeyHash _ _ => exact FramesN.sameBut execBurnOwnerKeyHash_frames _ rfl
  | attestationNonce _ _ => exact FramesN.sameBut execAttestationNonce_frames _ rfl
  | counterSample _ _ => exact FramesN.sameBut execCounterSample_frames _ rfl
  | groupConfigWrite _ _ _ => exact FramesN.sameBut execGroupConfigWrite_frames _ rfl
  | traceDrop _ _ _ => exact FramesN.sameBut execTraceDrop_frames _ rfl
  | registerWrite _ _ _ _ => exact FramesN.sameBut execRegisterWrite_frames _ rfl
  | coxRetire _ _ => exact FramesN.sameBut execCoxRetire_frames _ rfl
  | exportDone _ _ => exact FramesN.sameBut execExportDone_frames _ rfl
  | marginingReady => exact FramesN.sameBut execMarginingReady_frames _ rfl
  | handshakeSegmentTimeout _ => exact FramesN.sameBut execHandshakeSegmentTimeout_frames _ rfl
  | mediumIdle => exact FramesN.sameBut execMediumIdle_frames _ rfl
  | traceSpillFull => exact FramesN.sameBut execTraceSpillFull_frames _ rfl

/-- Settles O1: a waiting command leaves the queue and is carried out. -/
theorem stepRunsFrontCommand : Obligations.StepRunsFrontCommand := by
  unfold Obligations.StepRunsFrontCommand
  intro c rest s h
  unfold step
  rw [h]

/-- Settles O4: the frame of the command at the front, or of the tick, keeps every memory canonical. -/
theorem stepKeepsMemoriesCanonical : Obligations.StepKeepsMemoriesCanonical := by
  unfold Obligations.StepKeepsMemoriesCanonical
  intro s t h hs
  unfold step at h
  split at h
  next c rest hp => exact (exec_frames c _ t h).memOk hs
  next hp =>
    cases h
    exact tick_frames.memOk hs

end Sys2Proof.Machine
end

section
/-! A module without power (R429, R431, R440) and the absolute maximum of its input (R429, R480): every command but two takes effect only
where the module is powered. -/

namespace Sys2Proof.Machine

open Sys2Proof

/-- Every command but COLD_START and OVER_VOLTAGE_TRIP takes its effect where the module is powered, and none otherwise. -/
theorem exec_powered (c : Instr) (s : State) (hcold : ∀ l, c ≠ .coldStart l) (hover : ∀ v, c ≠ .overVoltageTrip v) :
    ∃ t, exec c s = powered s t := by
  cases c
  case coldStart l => exact absurd rfl (hcold l)
  case overVoltageTrip v => exact absurd rfl (hover v)
  all_goals exact ⟨_, rfl⟩

theorem powered_off {s : State} (h : s.power.on = false) (t : State) : powered s t = .next s := by
  unfold powered
  rw [h, if_neg Bool.false_ne_true]

theorem exec_overVoltageTrip (mv : Nat) (s : State) : exec (.overVoltageTrip mv) s =
    if 60000 < mv then .fault .absoluteMaximum else powered s (if mv ≤ 58000 then s else tripOff s 2 mv) := rfl

/-- Settles O6: what is left is carried out by a powered module alone. -/
theorem offModuleIsInert : Obligations.OffModuleIsInert := by
  unfold Obligations.OffModuleIsInert
  intro c s hoff hcold hover
  obtain ⟨t, ht⟩ := exec_powered c s hcold hover
  rw [ht, powered_off hoff]

/-- Settles O7: a powered outcome is a next state, a cold start answers one, and so does an over-voltage up to 60.0 V. -/
theorem onlyAbsoluteMaximumStops : Obligations.OnlyAbsoluteMaximumStops := by
  unfold Obligations.OnlyAbsoluteMaximumStops
  intro c s
  by_cases hcold : ∃ l, c = .coldStart l
  · obtain ⟨l, rfl⟩ := hcold
    exact .inl ⟨_, rfl⟩
  by_cases hover : ∃ mv, c = .overVoltageTrip mv
  · obtain ⟨mv, rfl⟩ := hover
    rw [exec_overVoltageTrip]
    by_cases hmax : 60000 < mv
    · exact .inr ⟨mv, rfl, hmax, if_pos hmax⟩
    · rw [if_neg hmax]
      exact .inl ⟨_, rfl⟩
  · obtain ⟨t, ht⟩ := exec_powered c s (fun l e => hcold ⟨l, e⟩) fun v e => hover ⟨v, e⟩
    exact .inl ⟨_, ht⟩

end Sys2Proof.Machine
end

section
/-! The module right after a cold start (R440, R437, R73, R94; its instant: log 1): every unit is in its initial state. -/

namespace Sys2Proof.Machine

open Sys2Proof

theorem reset_course (n : Fin 8) : State.reset.courses[n] = Course.init := Vector.getElem_replicate _
theorem reset_pallet (n : Fin 8) : State.reset.pallets[n] = Pallet.init := Vector.getElem_replicate _
theorem reset_stackMem (k : Fin 20) : State.reset.hbm.mem[k] = Mem.empty := Vector.getElem_replicate _
theorem reset_crew (c : Fin 16) : State.reset.crews[c] = Crew.init := Vector.getElem_replicate _
theorem reset_func (f : Fin 9) : State.reset.host.funcs[f] = Func.init := Vector.getElem_replicate _
theorem reset_session (i : Fin 8) : State.reset.evolu.sessions[i] = Session.init := Vector.getElem_replicate _
theorem reset_stream (f : Fin 9) (q : Nat) : stream State.reset f q = Stream.init := by
  unfold stream
  rw [reset_func]
  rfl
theorem init_tile (h : Fin 64) : Course.init.tiles[h] = Tile.unbound := Vector.getElem_replicate _

theorem memOk_reset : MemOk State.reset := by
  refine ⟨fun n => ?_, fun k => ?_, rfl, rfl, rfl, fun c a ha => ?_⟩
  · rw [reset_pallet]; rfl
  · rw [reset_stackMem]; rfl
  · rw [reset_crew] at ha
    cases ha

theorem calm_reset : Calm State.reset := by
  refine ⟨fun c => ?_, fun f => ?_⟩
  · rw [reset_crew]; rfl
  · rw [reset_func]
    exact ⟨rfl, rfl⟩

/-- Settles O3: unit by unit, from the initial state of each. -/
theorem resetState : Obligations.ResetState := by
  unfold Obligations.ResetState
  refine ⟨rfl, rfl, rfl, memOk_reset, calm_reset, fun n => ?_, rfl, rfl, rfl, fun f q => ?_, fun c => ?_, fun i => ?_, rfl, rfl, rfl⟩
  · rw [reset_course]
    refine ⟨rfl, rfl, BitVec.getLsbD_zero, fun h => ?_⟩
    rw [init_tile]
    exact ⟨rfl, rfl, rfl⟩
  · rw [reset_stream]
    exact ⟨rfl, rfl, rfl, rfl⟩
  · rw [reset_crew]
    exact ⟨rfl, rfl⟩
  · rw [reset_session]
    rfl

end Sys2Proof.Machine
end

section
/-! UPDATE, HOLD and APPLY of an elementwise layer at the issue port of the Cox (R297, R304, R309 to R313, R329). -/

namespace Sys2Proof.Machine

open Sys2Proof

/-! ## A Crew's attempt alone changes -/

/-- The Crews of a state with another attempt of Crew `c`. -/
def attemptSet (s : State) (c : Fin 16) (a : Attempt) : Vector Crew 16 := s.crews.set c { s.crews[c] with attempt := some a }

section
variable {s t : State} {c : Fin 16} {a : Attempt}

theorem attempt_of_attemptSet (h : t.crews = attemptSet s c a) : t.crews[c].attempt = some a := by
  rw [h]
  unfold attemptSet
  simp only [Fin.getElem_fin, Vector.getElem_set_self]

theorem other_of_attemptSet (h : t.crews = attemptSet s c a) {d : Fin 16} (hd : d ≠ c) : t.crews[d] = s.crews[d] := by
  rw [h]
  exact Vector.getElem_set_ne _ _ fun e => hd (Fin.ext e.symm)

theorem attemptSet_twice (h : t.crews = attemptSet s c a) (b : Attempt) : attemptSet t c b = attemptSet s c b := by
  unfold attemptSet at *
  rw [h, Vector.set_set]
  simp only [Fin.getElem_fin, Vector.getElem_set_self]

theorem updAttempt_attemptSet (h : t.crews = attemptSet s c a) (g : Attempt → Attempt) : (updAttempt t c g).crews = attemptSet s c (g a) := by
  rw [updAttempt_const (attempt_of_attemptSet h), updAttempt_crews (attempt_of_attemptSet h)]
  exact attemptSet_twice h _

theorem attemptSet_self (h : s.crews[c].attempt = some a) : s.crews = attemptSet s c a := by
  unfold attemptSet
  rw [← h]
  exact (Vector.set_getElem_self _).symm

/-- A calm module stays calm where an attempt changes in other things than its end and its VOTE. -/
theorem calm_attemptSet {b : Attempt} (hc : Calm s) (ha : s.crews[c].attempt = some a) (h : t.crews = attemptSet s c b) (hf : t.host.funcs = s.host.funcs)
    (he : b.ended = a.ended) (hv : b.voteCmd = a.voteCmd) : Calm t := by
  refine ⟨fun d => ?_, by rw [hf]; exact hc.2⟩
  by_cases hd : d = c
  · subst hd
    obtain ⟨hfree, hlive⟩ := (crewCalm_iff _).1 (hc.1 d)
    obtain ⟨hended, hvote, hfin⟩ := hlive a ha
    have hown : t.crews[d] = { s.crews[d] with attempt := some b } := by
      rw [h]
      exact Vector.getElem_set_self _
    rw [hown]
    refine (crewCalm_iff _).2 ⟨hfree, fun x hx => ?_⟩
    obtain rfl := Option.some.inj hx
    exact ⟨he.trans hended, hv.trans hvote, hfin⟩
  · rw [other_of_attemptSet h hd]
    exact hc.1 d

end

/-! ## At the issue port -/

/-- An attempt with one command more in flight, the core's sequence number and its consumed count (R231, R234). -/
def Attempt.booked (a : Attempt) (w : Who) (k : CoreRun) : Attempt :=
  { a with
    inFlight := a.inFlight + 1
    cores := a.cores.map fun x =>
      if x.cluster = k.cluster ∧ x.lcore = k.lcore then { x with issued := k.issued + 1, consumed := w.consumed } else x }

/-- What an attempt notes of a Cox command at its issue (R309, R313). -/
def Attempt.naming (a : Attempt) (x : CoxCmd) : Attempt :=
  if fld x.word 7 0 = 0x63 then { a with held := a.held.filter fun h => h.1 ≠ x.layer }
  else if fld x.word 7 0 = 0x62 then { a with held := a.held ++ [(x.layer, x.word, 0)], named := a.named ++ [x.layer] }
  else { a with named := a.named ++ [x.layer] }

/-- The place of the next command in a partition's list. -/
def coxLen (s : State) (p : Fin 8) : Nat := s.cox[p].cmds.length

/-- The lists of a partition's Cox with other commands. -/
def coxSet (s : State) (p : Fin 8) (l : List CoxCmd) : Vector CoxPart 8 := s.cox.set p { s.cox[p] with cmds := l }

/-- The lists with one command more at the end of the partition's. -/
def coxAdd (s : State) (p : Fin 8) (x : CoxCmd) : Vector CoxPart 8 := coxSet s p (s.cox[p].cmds ++ [x])

/-- A Cox command with the CREWOP that feeds it (R309). -/
def CoxCmd.fedBy (x : CoxCmd) (f : Option (Fin 16 × Nat)) : CoxCmd := { x with feeder := f }

section
variable {s : State} {w : Who} {cr : Fin 16} {p : Fin 8} {a : Attempt} {k : CoreRun} {c : Cmd}

theorem bookIssue_crews (ha : s.crews[cr].attempt = some a) : (bookIssue s cr w k).crews = attemptSet s cr (a.booked w k) :=
  updAttempt_attemptSet (attemptSet_self ha) _

theorem coxQueued_crews (ha : s.crews[cr].attempt = some a) (x : CoxCmd) :
    (coxQueued s w cr p k x).crews = attemptSet s cr ((a.booked w k).naming x) :=
  updAttempt_attemptSet (bookIssue_crews ha) _

theorem coxQueued_cox (x : CoxCmd) : (coxQueued s w cr p k x).cox = coxAdd s p x := rfl

theorem place_of_last (t : State) (p : Fin 8) (x : CoxCmd) :
    (updCox t p fun y => { y with cmds := y.cmds ++ [x] }).cox[p].cmds.length - 1 = t.cox[p].cmds.length := by
  rw [updCox_same]
  simp

/-- A Cox command that no check rejects and that no collective operation feeds takes its place in the list, and goes on from there (R307, R309). -/
theorem coxPort_goes (h : CoxMay s w cr p a k c) (hop : fld c 7 0 = 0x61 ∨ fld c 7 0 = 0x62 ∨ fld c 7 0 = 0x63)
    (hfeed : fld c 7 0 = 0x63 ∨ findFeeder (bookIssue s cr w k) p (coreIssuer cr a k) (cxGrad c) (gradBytes (layerDesc s p (cxLayer c)) c) = none) :
    coxPort s w c = castReady (goCox (coxQueued s w cr p k (coxCmd s p cr a c (coxSrc a c) (coreIssuer cr a k))) p (coxLen s p)) := by
  have hown := attempt_of_attemptSet (bookIssue_crews (w := w) (k := k) (findCore_attempt h.core.core))
  have hops : (cxOp c ≠ 0x61 && cxOp c ≠ 0x62 && cxOp c ≠ 0x63) = false := by
    unfold cxOp
    rcases hop with e | e | e <;> rw [e] <;> rfl
  have hfeeder : (if cxOp c = 0x63 then none else findFeeder (bookIssue s cr w k) p (coreIssuer cr a k) (cxGrad (coxSrc a c))
      (gradBytes (layerDesc s p (cxLayer c)) (coxSrc a c))) = none := by
    unfold cxOp coxSrc
    split
    · rfl
    next hne => exact hfeed.resolve_left hne
  refine congrArg castReady ((issueStore_of_may h.core rfl).trans ?_)
  dsimp only
  rw [hops, if_neg Bool.false_ne_true, hown]
  dsimp only
  split
  next r hr => exact absurd (hr.symm.trans h.accepted) (Option.some_ne_none r)
  next =>
    show goCox (coxQueued s w cr p k ((coxCmd s p cr a c (coxSrc a c) (coreIssuer cr a k)).fedBy (if cxOp c = 0x63 then none else
      findFeeder (bookIssue s cr w k) p (coreIssuer cr a k) (cxGrad (coxSrc a c)) (gradBytes (layerDesc s p (cxLayer c)) (coxSrc a c))))) p
      ((coxQueued s w cr p k _).cox[p].cmds.length - 1) = _
    rw [hfeeder]
    exact congrArg (goCox _ p) (place_of_last _ p _)
end

/-! ## A command that nothing holds goes on -/

/-- The command at place `i` of a partition's list is not yet done, no collective operation feeds it, no earlier command of its layer is at work,
and no EXPORT pins its layer (R309, R353). -/
structure CoxReady (q : State) (p : Fin 8) (i : Nat) (x : CoxCmd) : Prop where
  place : q.cox[p].cmds[i]? = some x
  run : x.run = false
  feeder : x.feeder = none
  before : ((q.cox[p].cmds.take i).any fun y => y.layer = x.layer && !y.run) = false
  free : layerPinned q.crews[x.crew] (strokeNum q x.crew) x.layer = false

section
variable {q : State} {p : Fin 8} {i : Nat} {x : CoxCmd}

theorem CoxReady.gradThere (h : CoxReady q p i x) (b e : Nat) : gradThere q p x b e = true := by
  unfold Machine.gradThere
  rw [h.feeder]

theorem CoxReady.goes (h : CoxReady q p i x) : (x.run || ((q.cox[p].cmds.take i).any fun y => y.layer = x.layer && !y.run) ||
    layerPinned q.crews[x.crew] (strokeNum q x.crew) x.layer) = false := by
  rw [h.run, h.before, h.free]
  rfl

theorem CoxReady.feeds (h : CoxReady q p i x) : feederFailed q x = none := by
  unfold feederFailed
  rw [h.feeder]

/-- A ready HOLD whose gradient has no uncorrectable error forms its sum (R311, R313). -/
theorem CoxReady.goCox_hold (h : CoxReady q p i x) (hop : cxOp x.word = 0x62) (hue : coxUe q p x.src 0 (gradBytes x.desc x.src) [] [] = none) :
    goCox q p i = coxDone (coxRead q p x.src 0 (gradBytes x.desc x.src) []) p i { x with fed := gradBytes x.desc x.src } := by
  unfold goCox getCoxCmd
  rw [h.place]
  dsimp only
  rw [h.goes, if_neg Bool.false_ne_true, h.feeds]
  dsimp only
  rw [if_pos hop, h.gradThere, hue]
  rfl

/-- A ready APPLY with SKIP is done at once (R313). -/
theorem CoxReady.goCox_skip (h : CoxReady q p i x) (hop : cxOp x.word ≠ 0x62) (hskip : cxSkip x.word = true) : goCox q p i = coxDone q p i x := by
  unfold goCox getCoxCmd
  rw [h.place]
  dsimp only
  rw [h.goes, if_neg Bool.false_ne_true, h.feeds]
  dsimp only
  rw [if_neg hop, if_pos hskip]

/-- A ready command under an elementwise rule of a dense layer goes range by range (R309, R310). -/
theorem CoxReady.goCox_ranges (h : CoxReady q p i x) (hop : cxOp x.word ≠ 0x62) (hskip : cxSkip x.word = false) (hrule : ldRule x.desc < 2)
    (hdense : ldEmbed x.desc = false) : goCox q p i = goRanges (gradBytes x.desc x.src / 65536 + gradBytes x.desc x.src + 2) q p i := by
  unfold goCox getCoxCmd
  rw [h.place]
  dsimp only
  rw [h.goes, if_neg Bool.false_ne_true, h.feeds]
  dsimp only
  rw [if_neg hop, hskip, if_neg Bool.false_ne_true, if_pos hrule, hdense, Bool.false_and, if_neg Bool.false_ne_true]

/-- A Cox command whose gradient has been read whole. -/
def CoxCmd.gradRead (x : CoxCmd) (fed : Nat) (fl : FlagByte) : CoxCmd := { x with started := true, fed := fed, flags := x.flags ||| fl }

theorem getCoxCmd_set {s : State} {k : CoxCmd} (h : i < s.cox[p].cmds.length) : getCoxCmd (setCoxCmd s p i k) p i = some k := by
  unfold getCoxCmd setCoxCmd
  rw [updCox_same]
  exact List.getElem?_set_self h

/-- A gradient of at most 64 KiB is one range: its reads and writes are made, and the command is done (R309). -/
theorem CoxReady.goRanges_whole (h : CoxReady q p i x) (hfed : x.fed = 0) (hdense : ldEmbed x.desc = false) (hpos : 0 < gradBytes x.desc x.src)
    (hle : gradBytes x.desc x.src ≤ 65536) (f : Nat) :
    let y := denseRange q p x 0 (gradRows x.desc x.src * ldCols x.desc)
    let k := x.gradRead (gradBytes x.desc x.src) y.2.2
    let z := coxWrite (coxRead q p x.src 0 (gradBytes x.desc x.src) y.1) p x y.2.1
    coxUe q p x.src 0 (gradBytes x.desc x.src) y.1 (y.2.1.map (·.1)) = none → goRanges (f + 2) q p i = coxDone (setCoxCmd z p i k) p i k := by
  intro y k z hue
  have hone : min (gradBytes x.desc x.src) ((x.fed / 65536 + 1) * 65536) = gradBytes x.desc x.src := by
    rw [hfed]
    omega
  have hrun : ¬x.run = true := by rw [h.run]; exact Bool.false_ne_true
  have hunit : unitBytesG x = gradB x.src := by
    unfold unitBytesG
    rw [hdense, if_neg Bool.false_ne_true]
  have hcount : gradBytes x.desc x.src / gradB x.src = gradRows x.desc x.src * ldCols x.desc := by
    refine Nat.mul_div_cancel _ ?_
    unfold gradB
    split <;> decide
  have hplace : i < z.cox[p].cmds.length := by
    rw [show z.cox = q.cox from (coxWrite_frames.cox rfl).trans (coxRead_frames.cox rfl)]
    exact (List.getElem?_eq_some_iff.1 h.place).1
  have hlast : goRanges (f + 1) (setCoxCmd z p i k) p i = coxDone (setCoxCmd z p i k) p i k := by
    unfold goRanges
    rw [getCoxCmd_set hplace]
    dsimp only
    rw [show k.run = false from h.run, if_neg Bool.false_ne_true, if_pos (show gradBytes k.desc k.src ≤ k.fed from le_refl _)]
  rw [← hlast]
  conv_lhs => unfold goRanges getCoxCmd
  rw [h.place]
  dsimp only
  rw [hone, if_neg hrun, hdense, if_neg Bool.false_ne_true, if_neg Bool.false_ne_true, h.gradThere, hunit, hfed, Nat.zero_div, Nat.sub_zero,
    hcount, if_neg (Nat.not_le.2 hpos), Bool.not_true, if_neg Bool.false_ne_true]
  rw [hue]
  rfl

/-! ## What a command reads and writes -/

theorem undoSave_crews {s t : State} {c : Fin 16} {a : Attempt} (h : t.crews = attemptSet s c a) (p : Fin 8) (as : List Nat) :
    ∃ u, (undoSave t c p as).crews = attemptSet s c { a with undo := u } := by
  refine ⟨a.undo ++ undoNew t c p as, ?_⟩
  unfold undoSave
  rw [attempt_of_attemptSet h]
  dsimp only
  generalize hf : List.foldl _ t _ = v
  have hcrews : v.crews = t.crews := by
    rw [← hf]
    refine (Frames.foldl (m := 64) (Frames.refl _ t) fun v g h => ?_).crews rfl
    split
    · exact h.step hbmWriteN_frames rfl
    · exact h
  exact updAttempt_attemptSet (hcrews.trans h) _

/-- The writes of a command change of the Crews only what its attempt notes for undo and of single-slot layers (R305, R325). -/
theorem coxWrite_crews {s t : State} {k : CoxCmd} {a : Attempt} (h : t.crews = attemptSet s k.crew a) (ws : List (Nat × Byte)) :
    ∃ u l, (coxWrite t p k ws).crews = attemptSet s k.crew { a with undo := u, singles := l } := by
  obtain ⟨u, hu⟩ := undoSave_crews h p (ws.map (·.1))
  have hnoted : ∃ l, (if ldSingle k.desc then updAttempt (undoSave t k.crew p (ws.map (·.1))) k.crew fun a =>
      { a with singles := if a.singles.contains k.layer then a.singles else a.singles ++ [k.layer] } else undoSave t k.crew p (ws.map (·.1))).crews =
      attemptSet s k.crew { a with undo := u, singles := l } := by
    split
    · exact ⟨_, updAttempt_attemptSet hu _⟩
    · exact ⟨a.singles, hu⟩
  obtain ⟨l, hl⟩ := hnoted
  refine ⟨u, l, ?_⟩
  unfold coxWrite
  dsimp only
  split
  · exact hl
  · rw [hbmTraffic_frames.crews rfl, hbmWriteL_frames.crews rfl, hl]

/-- Reads change no byte of a Pallet, a stack or host memory (R116, R152). -/
theorem collRead_contents (s : State) (p : Fin 8) (rs : List Nat) : SameContents s (collRead s p rs) := by
  unfold collRead
  split
  · exact (Frames.refl 0 s).contents rfl rfl rfl
  · exact (spaceFix_contents _ _ _).trans (hbmCharge_contents _ _ _)

theorem collRead_sameBytes (s : State) (p : Fin 8) (rs : List Nat) : SameBytes s (collRead s p rs) := by
  unfold collRead
  split
  · exact SameBytes.refl s
  · obtain ⟨ce, stks, hfix⟩ := spaceFix_hbm s (some p) rs
    refine SameBytes.trans ⟨spaceFix_vals s _ rs, ?_, ?_, ?_, ?_⟩ (hbmTraffic_sameBytes _ _ _) <;> rw [hfix]

theorem spaceByte_same {s t : State} (hc : SameContents s t) (hb : SameBytes s t) (hh : t.host = s.host) (f : Fin 9) (p : Option (Fin 8)) (e : Nat) :
    spaceByte t f p e = spaceByte s f p e := by
  unfold spaceByte palletByte
  rw [hostSpot_host hh, hb.hbmByteP, hc.host, hc.pallets]

/-- A command's reads leave its gradient as it is. -/
theorem coxRead_gradElems (s : State) (p : Fin 8) (src v : Cmd) (b e : Nat) (as : List Nat) (i n : Nat) :
    gradElems (coxRead s p src b e as) p v i n = gradElems s p v i n := by
  have hh : (coxRead s p src b e as).host = s.host := coxRead_frames.host rfl
  unfold gradElems collBytes caPlace caEntry
  rw [hh]
  simp only [spaceByte_same (collRead_contents s p _) (collRead_sameBytes s p _) hh, coxRead]

/-! ## A command is done -/

/-- An attempt that notes an update and its pending state record (R304, R329). -/
def Attempt.updated (a : Attempt) (u : LayerUpd) (l : LayerPend) : Attempt := { a with updates := a.updates ++ [u], pends := a.pends ++ [l] }

/-- A Cox command with its work done. -/
def CoxCmd.done (x : CoxCmd) (fl : FlagByte) (d0 d1 : U64) : CoxCmd :=
  { x with run := true, flags := fl, mats := [], blocks := [], res := ⟨.ok, .none, fl, false, false, d0, d1⟩ }

theorem coxDone_update {z : State} (k : CoxCmd) (hop : cxOp k.word ≠ 0x62) (hskip : cxSkip k.word = false) (hrule : ldRule k.desc < 2) (hbits : k.bits = 0) :
    coxDone z p i k = setCoxCmd (evAdd (updAttempt z k.crew fun a => a.updated
        ⟨k.layer, cxLr k.word, cxScale k.word, k.desc, chunkSum 0 (digestBytes z p k), (coxSumsq z p k).1, 1⟩ ⟨k.layer,
        pendRec z p k (coxSumsq z p k).1 (chunkSum 0 (digestBytes z p k)) (k.flags ||| (coxSumsq z p k).2), !ldSingle k.desc⟩)
        0x7001 0 p (gradRows k.desc k.src * ldCols k.desc)) p i
      (k.done (k.flags ||| (coxSumsq z p k).2) (BitVec.ofNat 64 (coxSumsq z p k).1.toNat) (chunkSum 0 (digestBytes z p k))) := by
  have hrule5 : decide (ldRule k.desc = 5) = false := decide_eq_false (by omega)
  have hheld : k.bits.getLsbD 3 = false := by rw [hbits]; rfl
  unfold coxDone
  dsimp only
  rw [if_neg hop, hskip, if_neg Bool.false_ne_true, hrule5, hheld, Bool.false_and, if_neg Bool.false_ne_true, if_neg Bool.false_ne_true]
  rfl

theorem coxDone_skip {z : State} (k : CoxCmd) (hop : cxOp k.word ≠ 0x62) (hskip : cxSkip k.word = true) :
    coxDone z p i k = setCoxCmd (updAttempt z k.crew fun a =>
      { a with updates := a.updates ++ [⟨k.layer, cxLr k.word, cxScale k.word, k.desc, 0, (coxSumsq z p k).1, 2⟩] }) p i
      { k with run := true, flags := k.flags ||| (coxSumsq z p k).2,
               res := ⟨.ok, .none, k.flags ||| (coxSumsq z p k).2, false, false, BitVec.ofNat 64 ((coxSumsq z p k).1.toNat + 2 ^ 61), 0⟩ } := by
  unfold coxDone
  dsimp only
  rw [if_neg hop, if_pos hskip]

/-- An attempt with the sum of squares its HOLD of a layer has formed (R313). -/
def Attempt.summed (a : Attempt) (layer : Nat) (q : BitVec 32) : Attempt :=
  { a with held := a.held.map fun h => if h.1 = layer then (h.1, h.2.1, q) else h }

/-- The sum of a HOLD goes to an APPLY of its layer issued meanwhile (R313). -/
def CoxCmd.takes (y : CoxCmd) (layer : Nat) (d0 : U64) : CoxCmd :=
  if y.layer = layer && !y.run && cxOp y.word = 0x63 then { y with res := { y.res with d0 := d0 } } else y

theorem coxDone_hold {z : State} (k : CoxCmd) (hop : cxOp k.word = 0x62) :
    coxDone z p i k = setCoxCmd (updCox (updAttempt z k.crew fun a => a.summed k.layer (coxSumsq z p k).1) p fun x =>
      { x with cmds := x.cmds.map fun y => y.takes k.layer (BitVec.ofNat 64 (coxSumsq z p k).1.toNat) }) p i
      { k with run := true, flags := k.flags ||| (coxSumsq z p k).2,
               res := ⟨.ok, .none, k.flags ||| (coxSumsq z p k).2, false, false, BitVec.ofNat 64 (coxSumsq z p k).1.toNat, 0⟩ } := by
  unfold coxDone
  dsimp only
  rw [if_pos hop]
  rfl

end

/-! ## UPDATE, HOLD, APPLY -/

section
variable {s : State} {w : Who} {cr : Fin 16} {p : Fin 8} {a : Attempt} {k : CoreRun} {c : Cmd}

/-- The command of a port that may take it stands ready at the end of its partition's list. -/
theorem coxMay_ready (h : CoxMay s w cr p a k c) (iss : Issuer) :
    CoxReady (coxQueued s w cr p k (coxCmd s p cr a c (coxSrc a c) iss)) p (coxLen s p) (coxCmd s p cr a c (coxSrc a c) iss) := by
  have hcmds (x : CoxCmd) : (coxQueued s w cr p k x).cox[p].cmds = s.cox[p].cmds ++ [x] := by
    unfold coxQueued
    rw [updCox_same]
    rfl
  have hcrew (x : CoxCmd) : ∃ b, (coxQueued s w cr p k x).crews[cr] = { s.crews[cr] with attempt := b } :=
    ⟨some ((a.booked w k).naming x), by
      rw [coxQueued_crews (findCore_attempt h.core.core)]
      exact Vector.getElem_set_self _⟩
  refine ⟨?_, rfl, rfl, ?_, ?_⟩
  · rw [hcmds]
    exact List.getElem?_concat_length
  · rw [hcmds, show coxLen s p = s.cox[p].cmds.length from rfl, List.take_left, List.any_eq_false]
    intro y hy
    rw [Bool.and_eq_true, decide_eq_true_eq]
    rintro ⟨hl, hr⟩
    rw [h.alone y hy hl] at hr
    exact Bool.false_ne_true hr
  · obtain ⟨b, hb⟩ := hcrew (coxCmd s p cr a c (coxSrc a c) iss)
    have hstroke : strokeNum (coxQueued s w cr p k (coxCmd s p cr a c (coxSrc a c) iss)) cr = strokeNum s cr := by
      unfold strokeNum
      rw [hb]
    show layerPinned _ (strokeNum _ cr) _ = false
    rw [hstroke]
    refine Eq.trans ?_ h.free
    show layerPinned (coxQueued s w cr p k (coxCmd s p cr a c (coxSrc a c) iss)).crews[cr] _ _ = _
    rw [hb]
    rfl

/-- A dense layer's command that no check rejects works on at least one element, and an UPDATE that no check rejects does not skip (R307). -/
theorem coxReject_none {q : State} {src : Cmd} {d : BitVec 1024} (h : coxReject q cr p a c src d = none) : coxLeft c = false ∧ layerBad d = false := by
  have hall := firstReason_none h
  have hleft := hall _ (List.mem_cons_of_mem _ (List.mem_cons_of_mem _ (List.mem_cons_of_mem _ List.mem_cons_self)))
  have hbad := hall _ (List.mem_cons_of_mem _ (List.mem_cons_of_mem _ (List.mem_cons_of_mem _ (List.mem_cons_of_mem _ List.mem_cons_self))))
  refine ⟨?_, hbad⟩
  simp only [Bool.or_eq_false_iff] at hleft
  simp only [hleft]

theorem gradBytes_pos {src : Cmd} {d : BitVec 1024} (hbad : layerBad d = false) (hdense : ldEmbed d = false) : 0 < gradBytes d src := by
  unfold layerBad at hbad
  simp only [Bool.or_eq_false_iff, decide_eq_false_iff_not] at hbad
  have hb : 0 < gradB src := by
    unfold gradB
    split <;> decide
  unfold gradBytes gradRows
  rw [hdense, if_neg Bool.false_ne_true]
  exact Nat.mul_pos (Nat.mul_pos (by omega) (by omega)) hb

theorem cox_of_coxSet {t : State} {l : List CoxCmd} (h : t.cox = coxSet s p l) : t.cox[p] = { s.cox[p] with cmds := l } := by
  rw [h]
  exact Vector.getElem_set_self _

theorem updCox_coxSet {t : State} {l : List CoxCmd} (h : t.cox = coxSet s p l) (g : List CoxCmd → List CoxCmd) :
    (updCox t p fun x => { x with cmds := g x.cmds }).cox = coxSet s p (g l) := by
  unfold updCox
  dsimp only
  rw [cox_of_coxSet h, h]
  unfold coxSet
  rw [Vector.set_set]

theorem setCoxCmd_coxAdd {t : State} {x : CoxCmd} (h : t.cox = coxAdd s p x) (y : CoxCmd) : (setCoxCmd t p (coxLen s p) y).cox = coxAdd s p y := by
  refine (updCox_coxSet h fun m => m.set (coxLen s p) y).trans ?_
  unfold coxAdd coxLen
  simp

theorem coxQueued_frames {x : CoxCmd} : Frames 5120 s (coxQueued s w cr p k x) := by
  refine Frames.step (a := 4096) (Frames.step (a := 1024) (bookIssue_frames.mono rfl) (updAttempt_frames fun b hb => ?_) rfl) updCox_frames rfl
  split
  · exact hb
  · split <;> exact hb

theorem layerRec_setCoxCmd (t : State) (i : Nat) (x : CoxCmd) (j : Nat) : layerRec (setCoxCmd t p i x) p j = layerRec t p j := by
  unfold layerRec setCoxCmd
  rw [updCox_same]

theorem naming_keeps (b : Attempt) (x : CoxCmd) : (b.naming x).updates = b.updates ∧ (b.naming x).pends = b.pends ∧ (b.naming x).inFlight = b.inFlight ∧
    (b.naming x).ended = b.ended ∧ (b.naming x).voteCmd = b.voteCmd := by
  unfold Attempt.naming
  split
  · exact ⟨rfl, rfl, rfl, rfl, rfl⟩
  · split <;> exact ⟨rfl, rfl, rfl, rfl, rfl⟩

/-- The digest and the sum of a command are those of the state its writes have made. -/
theorem digest_setCoxCmd (z : State) (p : Fin 8) (i : Nat) (x : CoxCmd) (fed : Nat) (fl : FlagByte) :
    digestBytes (setCoxCmd z p i (x.gradRead fed fl)) p (x.gradRead fed fl) = digestBytes z p x ∧
      coxSumsq (setCoxCmd z p i (x.gradRead fed fl)) p (x.gradRead fed fl) = coxSumsq z p x := by
  refine ⟨?_, rfl⟩
  unfold digestBytes dstSlots
  rw [show (x.gradRead fed fl).layer = x.layer from rfl, layerRec_setCoxCmd]
  rfl

end

section
variable {s z : State} {p : Fin 8} {x : CoxCmd} {b : Attempt}

/-- What the end of a Cox command of Crew `c` leaves: its attempt is `b`, and the command stands at the end of the list as `y`. -/
structure CoxLeft (s z t : State) (p : Fin 8) (c : Fin 16) (b : Attempt) (y : CoxCmd) : Prop where
  crews : t.crews = attemptSet s c b
  cox : t.cox = coxAdd s p y
  frame : Frames 267264 z t
  hbm : t.hbm = z.hbm

/-- The last command of a list is done: an UPDATE, or an APPLY without SKIP (R304, R311). -/
theorem coxDone_update_left (hc : z.crews = attemptSet s x.crew b) (hx : z.cox = coxAdd s p x) (hop : cxOp x.word ≠ 0x62) (hskip : cxSkip x.word = false)
    (hrule : ldRule x.desc < 2) (hbits : x.bits = 0) :
    ∃ r d1, CoxLeft s z (coxDone z p (coxLen s p) x) p x.crew
      (b.updated ⟨x.layer, cxLr x.word, cxScale x.word, x.desc, chunkSum 0 (digestBytes z p x), (coxSumsq z p x).1, 1⟩ ⟨x.layer, r, !ldSingle x.desc⟩)
      (x.done (x.flags ||| (coxSumsq z p x).2) (BitVec.ofNat 64 (coxSumsq z p x).1.toNat) d1) := by
  rw [coxDone_update x hop hskip hrule hbits]
  exact ⟨_, _, updAttempt_attemptSet hc _, setCoxCmd_coxAdd hx _,
    (((updAttempt_frames (by exact fun _ hb => hb)).mono rfl).step evAdd_frames rfl).step (a := 4096) setCoxCmd_frames rfl, rfl⟩

/-- An APPLY with SKIP is done (R313). -/
theorem coxDone_skip_left (hc : z.crews = attemptSet s x.crew b) (hx : z.cox = coxAdd s p x) (hop : cxOp x.word ≠ 0x62) (hskip : cxSkip x.word = true) :
    CoxLeft s z (coxDone z p (coxLen s p) x) p x.crew
      { b with updates := b.updates ++ [⟨x.layer, cxLr x.word, cxScale x.word, x.desc, 0, (coxSumsq z p x).1, 2⟩] }
      { x with run := true, flags := x.flags ||| (coxSumsq z p x).2,
               res := ⟨.ok, .none, x.flags ||| (coxSumsq z p x).2, false, false, BitVec.ofNat 64 ((coxSumsq z p x).1.toNat + 2 ^ 61), 0⟩ } := by
  rw [coxDone_skip x hop hskip]
  exact ⟨updAttempt_attemptSet hc _, setCoxCmd_coxAdd hx _, ((updAttempt_frames (by exact fun _ hb => hb)).mono rfl).step (a := 4096) setCoxCmd_frames rfl, rfl⟩

/-- A HOLD is done, where no APPLY of its layer waits for the sum (R313). -/
theorem coxDone_hold_left {k : CoxCmd} (hc : z.crews = attemptSet s k.crew b) (hx : z.cox = coxAdd s p x) (hop : cxOp k.word = 0x62) (hxop : cxOp x.word = 0x62)
    (halone : ∀ y ∈ s.cox[p].cmds, y.layer = k.layer → y.run = true) :
    CoxLeft s z (coxDone z p (coxLen s p) k) p k.crew (b.summed k.layer (coxSumsq z p k).1)
      { k with run := true, flags := k.flags ||| (coxSumsq z p k).2,
               res := ⟨.ok, .none, k.flags ||| (coxSumsq z p k).2, false, false, BitVec.ofNat 64 (coxSumsq z p k).1.toNat, 0⟩ } := by
  have htakes (d0 : U64) : (s.cox[p].cmds ++ [x]).map (fun y => y.takes k.layer d0) = s.cox[p].cmds ++ [x] := by
    refine (List.map_congr_left fun y hy => ?_).trans (List.map_id _)
    unfold CoxCmd.takes
    refine if_neg ?_
    rw [Bool.and_eq_true, Bool.and_eq_true, decide_eq_true_eq, decide_eq_true_eq]
    rintro ⟨⟨hl, hr⟩, h63⟩
    rcases List.mem_append.1 hy with hy | hy
    · rw [halone y hy hl] at hr
      exact Bool.false_ne_true hr
    · obtain rfl := List.mem_singleton.1 hy
      exact absurd (hxop.symm.trans h63) (by decide)
  rw [coxDone_hold k hop]
  exact ⟨updAttempt_attemptSet hc _, setCoxCmd_coxAdd ((updCox_coxSet hx _).trans (congrArg (coxSet s p) (htakes _))) _,
    (((updAttempt_frames (by exact fun _ hb => hb)).mono rfl).step updCox_frames rfl).step (a := 4096) setCoxCmd_frames rfl, rfl⟩

end


/-! ## UPDATE, HOLD, APPLY -/

section
variable {s : State} {w : Who} {cr : Fin 16} {p : Fin 8} {a : Attempt} {k : CoreRun} {c : Cmd}

/-- What a command at the port leaves, from what its end leaves: `b` is what its attempt has noted before the end. -/
theorem castReady_coxLeft {z t : State} {b : Attempt} {y : CoxCmd} (hm : CoreMay s w cr p a k) (h : CoxLeft s z t p cr b y) (hz : z.host = s.host)
    (he : b.ended = a.ended) (hv : b.voteCmd = a.voteCmd) : castReady t = t :=
  castReady_of_calm t (calm_attemptSet hm.calm (findCore_attempt hm.core) h.crews
    (congrArg (·.funcs) ((h.frame.host rfl).trans hz)) he hv)

/-- The attempt of an UPDATE or APPLY before it notes the update. -/
def Attempt.worked (a : Attempt) (w : Who) (k : CoreRun) (x : CoxCmd) (u l : List Nat) : Attempt :=
  { (a.booked w k).naming x with undo := u, singles := l }

theorem worked_keeps (a : Attempt) (w : Who) (k : CoreRun) (x : CoxCmd) (u l : List Nat) : (a.worked w k x u l).updates = a.updates ∧
    (a.worked w k x u l).pends = a.pends ∧ (a.worked w k x u l).inFlight = a.inFlight + 1 ∧ (a.worked w k x u l).ended = a.ended ∧
    (a.worked w k x u l).voteCmd = a.voteCmd ∧ (fld x.word 7 0 = 0x61 → (a.worked w k x u l).named = a.named ++ [x.layer]) := by
  obtain ⟨hu, hp, hi, he, hv⟩ := naming_keeps (a.booked w k) x
  refine ⟨hu, hp, hi, he, hv, fun h61 => ?_⟩
  show ((a.booked w k).naming x).named = _
  unfold Attempt.naming
  rw [h61]
  rfl

/-- UPDATE, and APPLY without SKIP, of a dense elementwise layer with a gradient of at most 64 KiB (R304, R309 to R311, R329). -/
theorem coxPort_update (h : CoxMay s w cr p a k c) (hop : fld c 7 0 = 0x61 ∨ fld c 7 0 = 0x63) (hskip : cxSkip c = false)
    (hfeed : fld c 7 0 = 0x63 ∨ findFeeder (bookIssue s cr w k) p (coreIssuer cr a k) (cxGrad c) (gradBytes (layerDesc s p (cxLayer c)) c) = none)
    {x : CoxCmd} (hx : x = coxCmd s p cr a c (coxSrc a c) (coreIssuer cr a k)) {q : State} (hq : q = coxQueued s w cr p k x)
    {y : List Nat × List (Nat × Byte) × FlagByte} (hy : y = denseRange q p x 0 (gradRows x.desc x.src * ldCols x.desc))
    (hrule : ldRule x.desc < 2) (hdense : ldEmbed x.desc = false) (hle : gradBytes x.desc x.src ≤ 65536)
    (hue : coxUe q p x.src 0 (gradBytes x.desc x.src) y.1 (y.2.1.map (·.1)) = none)
    {z : State} (hz : z = coxWrite (coxRead q p x.src 0 (gradBytes x.desc x.src) y.1) p x y.2.1) :
    Frames 939088 s (coxPort s w c) ∧ (∀ n : Fin 8, (coxPort s w c).pallets[n].mem = s.pallets[n].mem) ∧ (coxPort s w c).hbm = z.hbm ∧
      CoxDone s (coxPort s w c) p x (coxSumsq z p x).1.toNat ∧ ∃ u l r, (coxPort s w c).crews = attemptSet s cr ((a.worked w k x u l).updated
          ⟨x.layer, cxLr x.word, cxScale x.word, x.desc, chunkSum 0 (digestBytes z p x), (coxSumsq z p x).1, 1⟩ ⟨x.layer, r, !ldSingle x.desc⟩) := by
  have ha := findCore_attempt h.core.core
  have hready := coxMay_ready h (coreIssuer cr a k)
  rw [← hx, ← hq] at hready
  have hword : x.word = c := by rw [hx]; rfl
  have hcrew : x.crew = cr := by rw [hx]; rfl
  have hbits : x.bits = 0 := by rw [hx]; rfl
  have hfed : x.fed = 0 := by rw [hx]; rfl
  have hpos : 0 < gradBytes x.desc x.src := gradBytes_pos (by rw [hx]; exact (coxReject_none h.accepted).2) hdense
  have hne : cxOp x.word ≠ 0x62 := by
    rw [hword]
    unfold cxOp
    rcases hop with e | e <;> rw [e] <;> decide
  have hnoskip : cxSkip x.word = false := by rw [hword]; exact hskip
  -- the states the work goes through
  have hqf : Frames 5120 s q := hq ▸ coxQueued_frames
  have hqc : q.crews = attemptSet s cr ((a.booked w k).naming x) := hq ▸ coxQueued_crews ha x
  have hqx : q.cox = coxAdd s p x := hq ▸ coxQueued_cox x
  have hrf : Frames 933968 q (coxRead q p x.src 0 (gradBytes x.desc x.src) y.1) := coxRead_frames
  have hzf : Frames 787520 (coxRead q p x.src 0 (gradBytes x.desc x.src) y.1) z := hz ▸ coxWrite_frames
  have hzx : z.cox = coxAdd s p x := (hzf.cox rfl).trans ((hrf.cox rfl).trans hqx)
  obtain ⟨u, l, hzc⟩ : ∃ u l, z.crews = attemptSet s x.crew (a.worked w k x u l) := by
    rw [hz, hcrew]
    rw [← hcrew] at hqc ⊢
    exact coxWrite_crews ((hrf.crews rfl).trans hqc) y.2.1
  obtain ⟨hdig, hsum⟩ := digest_setCoxCmd z p (coxLen s p) x (gradBytes x.desc x.src) y.2.2
  have hrun : coxPort s w c = castReady (coxDone (setCoxCmd z p (coxLen s p) (x.gradRead (gradBytes x.desc x.src) y.2.2)) p (coxLen s p)
      (x.gradRead (gradBytes x.desc x.src) y.2.2)) := by
    rw [coxPort_goes h (hop.elim .inl fun e => .inr (.inr e)) hfeed, ← hx, ← hq, hready.goCox_ranges hne hnoskip hrule hdense, hz, hy]
    exact congrArg castReady (hready.goRanges_whole hfed hdense hpos hle _ (hy ▸ hue))
  obtain ⟨r, d1, hleft⟩ := coxDone_update_left (x := x.gradRead (gradBytes x.desc x.src) y.2.2) (z := setCoxCmd z p (coxLen s p) (x.gradRead (gradBytes x.desc x.src) y.2.2))
    hzc (setCoxCmd_coxAdd hzx _) hne hnoskip hrule hbits
  rw [hdig, hsum, show (x.gradRead (gradBytes x.desc x.src) y.2.2).crew = cr from hcrew] at hleft
  obtain ⟨-, -, -, hended, hvote, -⟩ := worked_keeps a w k x u l
  have hzs : Frames 939088 s z := ((hqf.mono rfl).step hrf rfl).step hzf rfl
  rw [hrun, castReady_coxLeft h.core hleft (hzs.host rfl) hended hvote]
  refine ⟨(hzs.step setCoxCmd_frames rfl).step hleft.frame rfl, fun n => ?_, hleft.hbm, ⟨_, hleft.cox, rfl, rfl, rfl, rfl, rfl, rfl, rfl⟩, u, l, r, hleft.crews⟩
  rw [hleft.frame.pallets rfl, show (setCoxCmd z p (coxLen s p) _).pallets = z.pallets from rfl, hzf.pallets rfl]
  exact ((collRead_contents q p _).pallets n).trans (by rw [hqf.pallets rfl])

/-- HOLD of a layer whose gradient is there (R309, R311, R313). -/
theorem coxPort_hold (h : CoxMay s w cr p a k c) (hop : fld c 7 0 = 0x62)
    (hfeed : findFeeder (bookIssue s cr w k) p (coreIssuer cr a k) (cxGrad c) (gradBytes (layerDesc s p (cxLayer c)) c) = none)
    {x : CoxCmd} (hx : x = coxCmd s p cr a c (coxSrc a c) (coreIssuer cr a k)) {q : State} (hq : q = coxQueued s w cr p k x)
    (hue : coxUe q p c 0 (gradBytes x.desc c) [] [] = none) :
    Frames 939088 s (coxPort s w c) ∧ SameContents s (coxPort s w c) ∧ CoxDone s (coxPort s w c) p x (coxSumsq q p x).1.toNat ∧
      (coxPort s w c).crews = attemptSet s cr (((a.booked w k).naming x).summed x.layer (coxSumsq q p x).1) := by
  have ha := findCore_attempt h.core.core
  have hready := coxMay_ready h (coreIssuer cr a k)
  rw [← hx, ← hq] at hready
  have hword : x.word = c := by rw [hx]; rfl
  have hcrew : x.crew = cr := by rw [hx]; rfl
  have hlayer : x.layer = cxLayer c := by rw [hx]; rfl
  have hxop : cxOp x.word = 0x62 := by rw [hword]; exact hop
  have hsrc : x.src = c := by
    rw [hx]
    show coxSrc a c = c
    unfold coxSrc
    rw [hop]
    rfl
  -- the states the work goes through
  have hqf : Frames 5120 s q := hq ▸ coxQueued_frames
  have hqc : q.crews = attemptSet s x.crew ((a.booked w k).naming x) := by rw [hq, hcrew]; exact coxQueued_crews ha x
  have hqx : q.cox = coxAdd s p x := hq ▸ coxQueued_cox x
  generalize hr : coxRead q p x.src 0 (gradBytes x.desc x.src) [] = r
  have hrf : Frames 933968 q r := hr ▸ coxRead_frames
  obtain ⟨k', hk⟩ : ∃ k' : CoxCmd, k' = { x with fed := gradBytes x.desc x.src } := ⟨_, rfl⟩
  have hkcrew : k'.crew = cr := by rw [hk]; exact hcrew
  have hklayer : k'.layer = cxLayer c := by rw [hk]; exact hlayer
  have hkop : cxOp k'.word = 0x62 := by rw [hk]; exact hxop
  have hsum : coxSumsq r p k' = coxSumsq q p x := by
    rw [hk]
    unfold coxSumsq
    rw [← hr, coxRead_gradElems]
  have hrun : coxPort s w c = castReady (coxDone r p (coxLen s p) k') := by
    rw [coxPort_goes h (.inr (.inl hop)) (.inr hfeed), ← hx, ← hq, hready.goCox_hold hxop (hsrc ▸ hue), hr, hk]
  have hrc : r.crews = attemptSet s k'.crew ((a.booked w k).naming x) := by rw [hkcrew, ← hcrew]; exact (hrf.crews rfl).trans hqc
  have hleft := coxDone_hold_left hrc ((hrf.cox rfl).trans hqx) hkop hxop (hklayer ▸ h.alone)
  rw [hsum, hkcrew, hklayer, ← hlayer] at hleft
  obtain ⟨-, -, -, hended, hvote⟩ := naming_keeps (a.booked w k) x
  have hrs : Frames 939088 s r := (hqf.mono rfl).step hrf rfl
  rw [hrun, castReady_coxLeft h.core hleft (hrs.host rfl) hended hvote]
  exact ⟨hrs.step hleft.frame rfl, ((hqf.contents rfl rfl rfl).trans (hr ▸ collRead_contents q p _)).trans (hleft.frame.contents rfl rfl rfl),
    ⟨_, hleft.cox, by rw [hk], by rw [hk], rfl, by rw [hk], rfl, rfl, rfl⟩, hleft.crews⟩

/-- APPLY with SKIP notes that the layer was not updated (R313, R329). -/
theorem coxPort_skip (h : CoxMay s w cr p a k c) (hop : fld c 7 0 = 0x63) (hskip : cxSkip c = true)
    {x : CoxCmd} (hx : x = coxCmd s p cr a c (coxSrc a c) (coreIssuer cr a k)) {q : State} (hq : q = coxQueued s w cr p k x) :
    SameBut [.cox, .crews] s (coxPort s w c) ∧ CoxDone s (coxPort s w c) p x ((coxSumsq q p x).1.toNat + 2 ^ 61) ∧
      (coxPort s w c).crews = attemptSet s cr { (a.booked w k).naming x with
        updates := ((a.booked w k).naming x).updates ++ [⟨x.layer, cxLr x.word, cxScale x.word, x.desc, 0, (coxSumsq q p x).1, 2⟩] } := by
  have ha := findCore_attempt h.core.core
  have hready := coxMay_ready h (coreIssuer cr a k)
  rw [← hx, ← hq] at hready
  have hword : x.word = c := by rw [hx]; rfl
  have hcrew : x.crew = cr := by rw [hx]; rfl
  have hne : cxOp x.word ≠ 0x62 := by
    rw [hword]
    unfold cxOp
    rw [hop]
    decide
  have hxskip : cxSkip x.word = true := by rw [hword]; exact hskip
  have hqf : Frames 5120 s q := hq ▸ coxQueued_frames
  have hqc : q.crews = attemptSet s x.crew ((a.booked w k).naming x) := by rw [hq, hcrew]; exact coxQueued_crews ha x
  have hqx : q.cox = coxAdd s p x := hq ▸ coxQueued_cox x
  have hrun : coxPort s w c = castReady (coxDone q p (coxLen s p) x) := by
    rw [coxPort_goes h (.inr (.inr hop)) (.inl hop), ← hx, ← hq, hready.goCox_skip hne hxskip]
  obtain ⟨-, -, -, hended, hvote⟩ := naming_keeps (a.booked w k) x
  have hT := coxDone_skip x hne hxskip (z := q) (p := p) (i := coxLen s p)
  have hleft := coxDone_skip_left hqc hqx hne hxskip
  rw [hcrew] at hleft
  rw [hrun, castReady_coxLeft h.core hleft (hqf.host rfl) hended hvote]
  refine ⟨?_, ⟨_, hleft.cox, rfl, rfl, rfl, rfl, rfl, rfl, rfl⟩, hleft.crews⟩
  rw [hT]
  exact Frames.sameBut (m := 5120) ((hqf.step (updAttempt_frames (by exact fun _ hb => hb)) rfl).step (a := 4096) setCoxCmd_frames rfl) _ rfl

end

theorem exec_update {s : State} (hon : s.power.on = true) (w : Who) (c : Cmd) : exec (.update w c) s = .next (coxPort s w c) := powered_on hon _
theorem exec_hold {s : State} (hon : s.power.on = true) (w : Who) (c : Cmd) : exec (.hold w c) s = .next (coxPort s w c) := powered_on hon _
theorem exec_apply {s : State} (hon : s.power.on = true) (w : Who) (c : Cmd) : exec (.apply w c) s = .next (coxPort s w c) := powered_on hon _

/-- Settles O48: the command stands ready at the end of its list, and what it does there is one range, one sum, or a note. -/
theorem coxCommandsRun : Obligations.CoxCommandsRun := by
  unfold Obligations.CoxCommandsRun
  intro s w cr p a k c h iss x q d n
  refine ⟨fun i hi hrule hdense hle hue => ?_, fun hop hfeed hue => ?_, fun hop hskip => ?_⟩
  · have hexec : exec i s = .next (coxPort s w c) := by
      rcases hi with ⟨-, rfl, -⟩ | ⟨-, rfl, -⟩
      · exact exec_update h.core.on w c
      · exact exec_apply h.core.on w c
    have hskip : cxSkip c = false := by
      rcases hi with ⟨hop, -, -⟩ | ⟨-, -, hskip⟩
      · have hleft := (coxReject_none h.accepted).1
        unfold coxLeft cxOp at hleft
        rw [hop] at hleft
        exact hleft
      · exact hskip
    obtain ⟨hf, hpal, hhbm, hdone, u, l, r, hcrews⟩ := coxPort_update h (hi.imp (·.1) (·.1)) hskip
      (hi.elim (fun hu => .inr hu.2.2) fun ha => .inl ha.1) rfl rfl rfl hrule hdense hle hue rfl
    obtain ⟨hku, hkp, hki, -, -, hkn⟩ := worked_keeps a w k x u l
    refine ⟨_, _, hexec, hf.sameBut _ rfl, hdone, hhbm, hpal, fun e he => other_of_attemptSet hcrews he, attempt_of_attemptSet hcrews,
      congrArg (· ++ _) hku, hki, ?_, hkn⟩
    show ((a.worked w k x u l).pends ++ [_]).map _ = _
    rw [hkp, List.map_append]
    rfl
  · obtain ⟨hf, hcont, hdone, hcrews⟩ := coxPort_hold h hop hfeed rfl rfl hue
    have hnaming : (a.booked w k).naming x = { a.booked w k with held := a.held ++ [(cxLayer c, c, 0)], named := a.named ++ [cxLayer c] } := by
      unfold Attempt.naming
      rw [show fld x.word 7 0 = 0x62 from hop]
      rfl
    rw [hnaming] at hcrews
    exact ⟨_, _, exec_hold h.core.on w c, hf.sameBut _ rfl, hdone, hcont.mem, hcont.dev, hcont.pallets, fun e he => other_of_attemptSet hcrews he,
      attempt_of_attemptSet hcrews, List.mem_map.2 ⟨_, List.mem_append_right _ List.mem_cons_self, if_pos rfl⟩, rfl, rfl, rfl⟩
  · obtain ⟨hf, hdone, hcrews⟩ := coxPort_skip h hop hskip rfl rfl
    have hnaming : (a.booked w k).naming x = { a.booked w k with held := a.held.filter fun h => h.1 ≠ cxLayer c } := by
      unfold Attempt.naming
      rw [show fld x.word 7 0 = 0x63 from hop]
      rfl
    rw [hnaming] at hcrews
    exact ⟨_, _, exec_apply h.core.on w c, hf, hdone, fun e he => other_of_attemptSet hcrews he, attempt_of_attemptSet hcrews, rfl, rfl, rfl⟩

end Sys2Proof.Machine
end

section
/-! Feeding, retirement, the share window and the layer records of the Cox (R303, R305, R309, R312, R314, R344, R351). -/

namespace Sys2Proof.Machine

open Sys2Proof

/-! ## COX_FEED -/

section
variable {s t : State} {c d f : Fin 16} {p : Fin 8} {o : CollOp} {x : CoxCmd}

/-- The one operation in flight has done its part: nothing follows of its own accord. -/
theorem castReady_operates (h : Operates s c [o]) (hover : o.complete = true ∨ o.retired = true) : castReady s = s := by
  refine castReady_one (c := c) (settleCrew_still ?_ fun a ha => ?_) h.others (fun _ _ => rfl) h.writes
  · unfold advanceOps
    rw [advanceCrew_over h.ops.2 h.tiles h.there fun y hy => ?_]
    · exact ite_self _
    · rw [h.ops.1, List.mem_singleton] at hy
      exact hy ▸ hover
  · obtain ⟨he, hv, hf⟩ := h.alive a ha
    exact ⟨he, hv, .inl hf⟩

/-- Another attempt of a Crew, with its end and its VOTE as before, leaves the one operation as it is. -/
theorem operates_updAttempt {os : List CollOp} (h : Operates s c os) {g : Attempt → Attempt} (hg : ∀ a, (g a).ended = a.ended ∧ (g a).voteCmd = a.voteCmd)
    (hcrews : t.crews = (updAttempt s d g).crews) (hpower : t.power = s.power) (hhost : t.host = s.host) (hcourses : t.courses = s.courses) :
    Operates t c os := by
  have hone (e : Fin 16) : ∃ b, t.crews[e] = { s.crews[e] with attempt := b } ∧ ∀ y, b = some y → ∃ a, s.crews[e].attempt = some a ∧ y.ended = a.ended ∧ y.voteCmd = a.voteCmd := by
    rw [hcrews]
    unfold updAttempt
    by_cases he : e = d
    · subst he
      refine ⟨s.crews[e].attempt.map g, updCrew_same _ _ _, fun y hy => ?_⟩
      obtain ⟨a, ha, rfl⟩ := Option.map_eq_some_iff.1 hy
      exact ⟨a, ha, hg a⟩
    · exact ⟨s.crews[e].attempt, updCrew_other _ _ _ _ he, fun y hy => ⟨y, hy, rfl, rfl⟩⟩
  have halive (e : Fin 16) (ha : ∀ a, s.crews[e].attempt = some a → a.ended = false ∧ a.voteCmd = none ∧ s.crews[e].fin ≠ .unresolved) :
      ∀ a, t.crews[e].attempt = some a → a.ended = false ∧ a.voteCmd = none ∧ t.crews[e].fin ≠ .unresolved := by
    obtain ⟨b, hb, hback⟩ := hone e
    rw [hb]
    intro y hy
    obtain ⟨a, hs, hended, hvote⟩ := hback y hy
    obtain ⟨he, hv, hf⟩ := ha a hs
    exact ⟨hended.trans he, hvote.trans hv, hf⟩
  have hfree (e : Fin 16) : t.crews[e].ops = s.crews[e].ops ∧ t.crews[e].waiting = s.crews[e].waiting := by
    obtain ⟨b, hb, -⟩ := hone e
    rw [hb]
    exact ⟨rfl, rfl⟩
  refine ⟨hpower ▸ h.on, fun e he => ?_, fun i => by rw [hhost]; exact h.writes i, ?_, halive c h.alive, ?_, by rw [hcourses]; exact h.tiles⟩
  · obtain ⟨⟨hops, hwait⟩, hlive⟩ := (crewCalm_iff _).1 (h.others e he)
    exact (crewCalm_iff _).2 ⟨⟨(hfree e).1 ▸ hops, (hfree e).2 ▸ hwait⟩, halive e hlive⟩
  · rw [(hfree c).1, (hfree c).2]
    exact h.ops
  · obtain ⟨b, hb, -⟩ := hone c
    unfold myRank
    rw [hb]
    exact h.there

/-- A HOLD whose feeding operation is complete goes on (R309, R313). -/
theorem goCox_fed (h : Operates s f [o]) (hc : o.complete = true) (hfail : o.failed = false) (hcmds : s.cox[p].cmds = [x]) (hrun : x.run = false)
    (hfeed : x.feeder = some (f, o.num)) (hop : cxOp x.word = 0x62) (hpin : layerPinned s.crews[x.crew] (strokeNum s x.crew) x.layer = false)
    (hue : coxUe s p x.src 0 (gradBytes x.desc x.src) [] [] = none) :
    goCox s p 0 = coxDone (coxRead s p x.src 0 (gradBytes x.desc x.src) []) p 0 { x with fed := gradBytes x.desc x.src } := by
  have hgoes : feederFailed s x = none := by
    unfold feederFailed
    rw [hfeed]
    dsimp only
    rw [operates_findOp h]
    exact if_neg (hfail ▸ Bool.false_ne_true)
  have hthere : gradThere s p x 0 (gradBytes x.desc x.src) = true := by
    unfold gradThere
    rw [hfeed]
    dsimp only
    rw [operates_findOp h]
    dsimp only
    rw [hc]
    rfl
  have hgo : ¬(x.run || ((([x] : List CoxCmd).take 0).any fun y => y.layer = x.layer && !y.run) || layerPinned s.crews[x.crew] (strokeNum s x.crew) x.layer) = true := by
    rw [hrun, hpin]
    exact Bool.false_ne_true
  unfold goCox getCoxCmd
  rw [hcmds]
  dsimp only [List.getElem?_cons_zero]
  rw [if_neg hgo, hgoes]
  dsimp only
  rw [if_pos hop, hthere, hue]
  rfl

/-- COX_FEED of a HOLD whose feeding operation is complete: the sum is formed, and nothing else follows (R309, R311, R313). -/
theorem exec_coxFeed_hold (h : Operates s f [o]) (hc : o.complete = true) (hfail : o.failed = false) (hcmds : s.cox[p].cmds = [x]) (hrun : x.run = false)
    (hfeed : x.feeder = some (f, o.num)) (hop : cxOp x.word = 0x62) (hpin : layerPinned s.crews[x.crew] (strokeNum s x.crew) x.layer = false)
    (hue : coxUe s p x.src 0 (gradBytes x.desc x.src) [] [] = none) :
    ∃ t y, exec (.coxFeed p x.layer) s = .next t ∧ Frames 939088 s t ∧ t.cox = coxSet s p [y] ∧ y.word = x.word ∧ y.run = true ∧ y.res.cls = .ok ∧
      y.res.d0 = BitVec.ofNat 64 (coxSumsq s p x).1.toNat := by
  obtain ⟨k, hk⟩ : ∃ k : CoxCmd, k = { x with fed := gradBytes x.desc x.src } := ⟨_, rfl⟩
  have hkop : cxOp k.word = 0x62 := by rw [hk]; exact hop
  generalize hz : coxRead s p x.src 0 (gradBytes x.desc x.src) [] = z
  have hzf : Frames 933968 s z := hz ▸ coxRead_frames
  have hsum : coxSumsq z p k = coxSumsq s p x := by
    rw [hk]
    unfold coxSumsq
    rw [← hz, coxRead_gradElems]
  have hdone : exec (.coxFeed p x.layer) s = .next (castReady (coxDone z p 0 k)) := by
    refine (powered_on h.on _).trans (congrArg (fun t => Host.Outcome.next (castReady t)) ?_)
    rw [hcmds]
    show (match getCoxCmd s p 0 with | some k => if k.layer = x.layer then goCox s p 0 else s | none => s) = _
    rw [show getCoxCmd s p 0 = some x by unfold getCoxCmd; rw [hcmds]; rfl]
    dsimp only
    rw [if_pos rfl, goCox_fed h hc hfail hcmds hrun hfeed hop hpin hue, hz, hk]
  have hzc : z.cox = coxSet s p [x] := by
    rw [hzf.cox rfl]
    unfold coxSet
    rw [← hcmds]
    exact (Vector.set_getElem_self _).symm
  rw [coxDone_hold k hkop] at hdone
  refine ⟨_, _, hdone.trans (congrArg _ (castReady_operates (c := f) (o := o) ?_ (.inl hc))), ?_,
    updCox_coxSet (updCox_coxSet hzc fun m => m.map _) fun m => m.set 0 _, by rw [hk], rfl, rfl, by rw [hsum]⟩
  · refine operates_updAttempt h (d := k.crew) (g := fun a => a.summed k.layer (coxSumsq z p k).1) (fun a => ⟨rfl, rfl⟩) ?_ (hzf.power rfl) (hzf.host rfl) (hzf.courses rfl)
    show (updAttempt z k.crew _).crews = _
    unfold updAttempt updCrew
    dsimp only
    rw [hzf.crews rfl]
  · exact (((hzf.mono rfl).step (a := 1024) (updAttempt_frames (by exact fun _ hb => hb)) rfl).step updCox_frames rfl).step (a := 4096) setCoxCmd_frames rfl

end

/-! ## COX_SHARE_WINDOW and COX_RETIRE -/

section
variable {s : State} {p : Fin 8} {c : Fin 16} {a : Attempt} {x : CoxCmd} {ki : Fin 4} {i : Fin 8} {q : Nat}

/-- A command whose work is done goes no further. -/
theorem goCox_over (n : Nat) (h : ∀ y ∈ s.cox[p].cmds, y.run = true) : goCox s p n = s := by
  unfold goCox getCoxCmd
  cases hk : s.cox[p].cmds[n]? with
  | none => rfl
  | some k =>
    dsimp only
    rw [h k (List.mem_of_getElem? hk)]
    rfl

theorem goCoxAll_over (h : ∀ y ∈ s.cox[p].cmds, y.run = true) : goCoxAll s p = s := foldl_fixed _ s _ fun n _ => goCox_over n h

/-- Time never goes back. -/
theorem le_reach (s : State) (u : U64) : s.now.toNat ≤ (reach s u).now.toNat := by
  unfold reach
  split
  next h => exact Nat.le_of_lt h
  next => exact Nat.le_refl _

/-- When the window of a partition's share ends. -/
def windowEnd (s : State) (p : Fin 8) : U64 := s.cox[p].winStart + 10000

/-- The share of a partition counted anew from now on. -/
def windowOpen (s : State) (p : Fin 8) : State := updCox s p fun y => { y with winStart := s.now, winUsed := 0 }

theorem windowOpen_cmds (s : State) (p : Fin 8) : (windowOpen s p).cox[p].cmds = s.cox[p].cmds := by
  unfold windowOpen
  rw [updCox_same]

theorem windowOpen_cox {u : State} (h : u.cox = s.cox) : (windowOpen u p).cox = s.cox.set p { s.cox[p] with winStart := u.now, winUsed := 0 } := by
  rw [← h]
  rfl

theorem exec_coxShareWindow (hon : s.power.on = true) (hcalm : Calm s) (h : ∀ y ∈ s.cox[p].cmds, y.run = true) :
    exec (.coxShareWindow p) s = .next (windowOpen (reach s (windowEnd s p)) p) := by
  have hexec : exec (.coxShareWindow p) s = .next (castReady (goCoxAll (windowOpen (reach s (windowEnd s p)) p) p)) := powered_on hon _
  have hrf : Frames 1 s (reach s (windowEnd s p)) := reach_frames
  generalize reach s (windowEnd s p) = u at hexec hrf ⊢
  have hcalm' : Calm (windowOpen u p) := calm_of_same s _ (hrf.crews rfl) (congrArg HostPort.funcs (hrf.host rfl)) hcalm
  rw [hexec, goCoxAll_over fun y hy => ?_, castReady_of_calm _ hcalm']
  rw [windowOpen_cmds, hrf.cox rfl] at hy
  exact h y hy

/-- Ten microseconds of timebase have passed, and the share is counted anew (R314). -/
theorem coxShareWindow_counts (hon : s.power.on = true) (hcalm : Calm s) (h : ∀ y ∈ s.cox[p].cmds, y.run = true) :
    ∃ t, exec (.coxShareWindow p) s = .next t ∧ SameBut [.now, .cox] s t ∧ t.cox = s.cox.set p { s.cox[p] with winStart := t.now, winUsed := 0 } ∧
      s.now.toNat ≤ t.now.toNat ∧ (s.cox[p].winStart + 10000).toNat ≤ t.now.toNat := by
  have hexec := exec_coxShareWindow hon hcalm h
  have hrf : Frames 1 s (reach s (windowEnd s p)) := reach_frames
  have hnow := le_reach s (windowEnd s p)
  have hge := reach_le s (windowEnd s p)
  generalize reach s (windowEnd s p) = u at hexec hrf hnow hge
  exact ⟨_, hexec, ((hrf.mono rfl).step (m := 4097) (updCox_frames (n := p)) rfl).sameBut _ rfl, windowOpen_cox (hrf.cox rfl), hnow, hge⟩

/-- The one command of a partition, its work done, retires with its record and its event (R309, R312). -/
theorem exec_coxRetire_last (hon : s.power.on = true) (hcalm : Calm s) (htests : s.pointing.laneTests = []) (hcmds : s.cox[p].cmds = [x])
    (hrun : x.run = true) (hfeed : x.feeder = none) (hcls : x.res.cls ≠ .rejected) (hiss : x.iss = .core c a.number ki i q)
    (ha : s.crews[c].attempt = some a) (ho : crewOwner s c = some p) :
    ∃ t, exec (.coxRetire p x.layer) s = .next t ∧ SameBut [.courses, .host, .crews, .cox, .dict] s t ∧ t.cox = coxSet s p [] ∧
      t.crews[c].attempt = some (noteResult (unitRecord s a ki i q (cxOp x.word) (cxTag x.word) x.res) (some x.layer) x.res) ∧
      (cxEvent x.word ≠ 0 → cxEvent x.word ≤ 4095 → eventCount t (funcOf p) (cxEvent x.word) = eventCount s (funcOf p) (cxEvent x.word) + 1) ∧
      ctrGet t 0 0x7300 (0xA1 + p) = (ctrGet s 0 0x7300 (0xA1 + p) + 1) % 2 ^ 64 := by
  have hdone : exec (.coxRetire p x.layer) s = .next (castReady (goCoxAll ((List.finRange 4).foldl (fun s f => laneGap s (.cox f))
      (retireNoted (ctrAdd (updCox s p fun y => { y with cmds := y.cmds.erase x }) 0 0x7300 (0xA1 + p) 1) x.iss (cxOp x.word) (cxTag x.word) (cxEvent x.word)
        (some x.layer) x.res)) p)) := by
    refine (powered_on hon _).trans (congrArg _ ?_)
    have hfind : ([x] : List CoxCmd).find? (fun k => k.layer = x.layer && k.run) = some x := List.find?_cons_of_pos (by simp [hrun])
    have hfail : feederFailed s x = none := by
      unfold feederFailed
      rw [hfeed]
    rw [hcmds, hfind]
    dsimp only
    rw [hfeed, hfail]
    dsimp only
    rw [if_neg hcls, if_neg (by rw [Bool.not_true, Bool.false_and]; exact Bool.false_ne_true)]
  generalize hS : ctrAdd (updCox s p fun y => { y with cmds := y.cmds.erase x }) 0 0x7300 (0xA1 + p) 1 = S at hdone
  have hSbut : SameBut [.cox, .dict] s S := hS ▸ (sameBut_then (sameBut_le (updCox_frames.sameBut (m := 4096) [.cox] rfl) _ rfl) (ctrAdd_frames.sameBut [.dict] rfl) rfl)
  have hScox : S.cox = coxSet s p [] := by
    rw [← hS]
    show s.cox.set p { s.cox[p] with cmds := s.cox[p].cmds.erase x } = _
    rw [hcmds, List.erase_cons_head]
    rfl
  have hScrews : S.crews = s.crews := hSbut.2 .crews (by decide)
  obtain ⟨t, ht, hbut, -, hown, -, -, -, hcalm', hev⟩ := retireNoted_core (s := S) (k := ki) (i := i) (seq := q) ((congrArg (fun v : Vector Crew 16 => v[c].attempt) hScrews).trans ha)
    ((crewOwner_dict (by rw [← hS]; rfl) c).trans ho) (cxOp x.word) (cxTag x.word) (cxEvent x.word) (some x.layer) x.res
  have hSmall (l : Part) (h : l ∉ [Part.crews, .host, .courses]) := hbut.2 l h
  rw [hiss, ht] at hdone
  have hlanes : (List.finRange 4).foldl (fun s f => laneGap s (.cox f)) t = t := foldl_fixed _ t _ fun f _ => laneGap_none (by
    rw [show t.pointing = S.pointing from hbut.2 .pointing (by decide), show S.pointing = s.pointing from hSbut.2 .pointing (by decide), htests]
    exact fun _ h => absurd h List.not_mem_nil)
  have htcox : t.cox = coxSet s p [] := (show t.cox = S.cox from hbut.2 .cox (by decide)).trans hScox
  rw [hlanes, goCoxAll_over (by rw [cox_of_coxSet htcox]; exact fun _ h => absurd h List.not_mem_nil),
    castReady_of_calm t (hcalm' (calm_of_same s S hScrews (congrArg HostPort.funcs (hSbut.2 .host (by decide))) hcalm))] at hdone
  have hSnow : S.now = s.now := hSbut.2 .now (by decide)
  have hrec : unitRecord S a ki i q (cxOp x.word) (cxTag x.word) x.res = unitRecord s a ki i q (cxOp x.word) (cxTag x.word) x.res := by
    unfold unitRecord
    rw [hSnow]
  have hcount : eventCount S (funcOf p) (cxEvent x.word) = eventCount s (funcOf p) (cxEvent x.word) := by
    unfold eventCount
    rw [show S.host = s.host from hSbut.2 .host (by decide)]
  refine ⟨t, hdone, sameBut_then (sameBut_le hSbut _ rfl) hbut rfl, htcox, by rw [hown, ← hrec], fun h0 h1 => hcount ▸ hev hcls h0 h1, ?_⟩
  unfold ctrGet
  rw [show t.dict = S.dict from hbut.2 .dict (by decide), ← hS]
  exact ctrGet_add_same (updCox s p _) 0 0x7300 (0xA1 + p) 1

end

/-! ## The layer records -/

section
variable {s t : State} {r : Req} {p : Fin 8} {c : Fin 16}

theorem layerRec_set_same (s : State) (p : Fin 8) (k : Nat) (v : BitVec 512) : layerRec (setLayerRec s p k v) p k = v := by
  unfold layerRec setLayerRec
  rw [updCox_same]
  exact assocGet_set_same _ _ _ _

theorem layerRec_set_other (s : State) (p : Fin 8) {k j : Nat} (v : BitVec 512) (h : j ≠ k) : layerRec (setLayerRec s p k v) p j = layerRec s p j := by
  unfold layerRec setLayerRec
  rw [updCox_same]
  exact assocGet_set_other _ _ _ _ _ _ h

theorem setLayerRec_other (s : State) (p e : Fin 8) (k : Nat) (v : BitVec 512) (h : e ≠ p) : (setLayerRec s p k v).cox[e] = s.cox[e] :=
  Vector.getElem_set_ne p.isLt e.isLt fun h' => h (Fin.ext h'.symm)

theorem layerRec_of_cox (h : t.cox = s.cox) (k : Nat) : layerRec t p k = layerRec s p k := by
  unfold layerRec
  rw [h]

theorem rowWrite_clearDirty {l : BitVec 32} (h : MayWrite s r 0x7300 (0x91 + p) (wordBytes l) 3) (hl : l.toNat < layerCount s p) :
    rowWrite s r 0x7300 (0x91 + p) 0 (wordBytes l) = moduleEvent s (setLayerRec s p l.toNat (layerRec s p l.toNat &&& ~~~ 8)) := by
  have hent : ∀ p : Fin 8, entryBytes 0x7300 (0x91 + p) = 0 := by decide
  have hpart : ∀ p : Fin 8, fin8 ((0x91 + p.val) % 16 - 1) = p := by decide
  have hval : ofLe (wordBytes l) = l.toNat := (ofLe_leBytes 4 _).trans (Nat.mod_eq_of_lt (by simpa using l.isLt))
  rw [rowWrite_wo h (hent p)]
  refine congrArg (moduleEvent s) ?_
  unfold woAction
  dsimp only
  rw [if_neg (by decide), if_neg (by decide), if_neg (by decide), if_neg (by decide), if_neg (by decide), if_pos rfl, hpart, hval]
  exact if_pos hl

/-- The records of layers 0 to `n - 1` set one by one. -/
def setRecs (s : State) (p : Fin 8) (g : Nat → BitVec 512) (n : Nat) : State := (List.range n).foldl (fun s i => setLayerRec s p i (g i)) s

theorem setRecs_succ (s : State) (p : Fin 8) (g : Nat → BitVec 512) (n : Nat) : setRecs s p g (n + 1) = setLayerRec (setRecs s p g n) p n (g n) := by
  unfold setRecs
  rw [List.range_succ, List.foldl_append]
  rfl

theorem setRecs_rec (s : State) (p : Fin 8) (g : Nat → BitVec 512) (n i : Nat) : layerRec (setRecs s p g n) p i = if i < n then g i else layerRec s p i := by
  induction n with
  | zero => rfl
  | succ n ih =>
    rw [setRecs_succ]
    by_cases hi : i = n
    · subst hi
      rw [layerRec_set_same, if_pos (Nat.lt_succ_self i)]
    · rw [layerRec_set_other _ _ _ hi, ih]
      exact if_congr (by omega) rfl rfl

theorem setRecs_other (s : State) {p e : Fin 8} (g : Nat → BitVec 512) (n : Nat) (h : e ≠ p) : (setRecs s p g n).cox[e] = s.cox[e] := by
  induction n with
  | zero => rfl
  | succ n ih => rw [setRecs_succ, setLayerRec_other _ _ _ _ _ h, ih]

theorem setRecs_frames (s : State) (p : Fin 8) (g : Nat → BitVec 512) (n : Nat) : Frames 4096 s (setRecs s p g n) :=
  Frames.foldl (Frames.refl _ s) fun _ _ h => h.step setLayerRec_frames rfl

theorem rowWrite_loadLayers {data : List Byte} (h : MayWrite s r (crewIdx c) 0x42 data 3) (ho : crewOwner s c = some p)
    (hst : s.crews[c].state = .forming ∨ s.crews[c].state = .test) (hruns : strokeRuns s c = false) (hre : s.crews[c].rejoin ≠ 2)
    (hlen : data.length = 8 + 64 * layerCount s p) :
    rowWrite s r (crewIdx c) 0x42 0 data = moduleEvent s (updCrew (setRecs s p (fun i => BitVec.ofNat 512 (leAt data (8 + 64 * i) 64)) (layerCount s p)) c
      fun k => { k with lastFinished := BitVec.ofNat 48 (leAt data 0 8) }) := by
  have hent : ∀ c : Fin 16, entryBytes (crewIdx c) 0x42 = 0 := by decide
  have hrow : ∀ c : Fin 16, idxIn (crewIdx c) 0x5100 0x5113 = false ∧ crewIdx c ≠ 0x5300 ∧ idxIn (crewIdx c) 0x6400 0x643F = false ∧
      crewIdx c ≠ 0x6500 ∧ idxIn (crewIdx c) 0x7200 0x720F = true := by decide
  obtain ⟨h1, h2, h3, h4, h5⟩ := hrow c
  have hstate : (decide (s.crews[c].state = .forming) || decide (s.crews[c].state = .test)) = true := by simpa using hst
  rw [rowWrite_wo h (hent c)]
  refine congrArg (moduleEvent s) ?_
  unfold woAction
  dsimp only
  rw [if_neg (h1 ▸ Bool.false_ne_true), if_neg h2, if_neg (h3 ▸ Bool.false_ne_true), if_neg h4, if_pos h5, if_pos rfl, fin16_crewIdx]
  unfold loadLayers
  rw [ho]
  dsimp only
  rw [hstate, hruns, if_neg (by simp), if_neg (not_not.2 hlen), if_neg hre]
  rfl

end

/-! ## REJOIN_COPY -/

section
variable {s : State} {p : Fin 8} {c : Fin 16} {layer : Nat} {desc : BitVec 1024}

/-- The descriptors of the copy's layer and of the member's agree (R344). -/
def copyAgrees (s : State) (p : Fin 8) (layer : Nat) (desc : BitVec 1024) : Prop :=
  ldRule (layerDesc s p layer) = ldRule desc ∧ ldRows (layerDesc s p layer) = ldRows desc ∧ ldCols (layerDesc s p layer) = ldCols desc ∧
    ldPfmt (layerDesc s p layer) = ldPfmt desc

/-- The next layer of a copy: its active slots and its record (R344). -/
def copiedLayer (s : State) (p : Fin 8) (layer : Nat) (ps st : List Byte) (rec_ : BitVec 512) : State :=
  setLayerRec (hbmWriteN (hbmWriteN s p (paramSlot (layerDesc s p layer) (activeSlot (layerRec s p layer))) ps) p
    (stateSlot (layerDesc s p layer) (activeSlot (layerRec s p layer))) st) p layer
    (BitVec.ofNat 512 (rec_.toNat / 2 * 2 + if activeSlot (layerRec s p layer) then 1 else 0))

theorem exec_rejoinCopy (hon : s.power.on = true) (ho : crewOwner s c = some p) (hre : s.crews[c].rejoin = 1) (ha : s.crews[c].attempt = none)
    (hl : layer = s.crews[c].copyNext) (hlt : layer < layerCount s p) (ps st : List Byte) (rec_ : BitVec 512) :
    (¬copyAgrees s p layer desc → exec (.rejoinCopy c layer desc ps st rec_) s = .next (updCrew s c fun k => { k with rejoin := 2 })) ∧
    (copyAgrees s p layer desc → layer + 1 < layerCount s p → exec (.rejoinCopy c layer desc ps st rec_) s =
      .next (updCrew (copiedLayer s p layer ps st rec_) c fun k => { k with copyNext := layer + 1 })) := by
  have hmay : ¬(decide (s.crews[c].rejoin ≠ 1) || s.crews[c].attempt.isSome || decide (layer ≠ s.crews[c].copyNext)) = true := by
    rw [ha, ← hl, hre]
    simp
  have hdiffer : (decide (ldRule (layerDesc s p layer) ≠ ldRule desc) || decide (ldRows (layerDesc s p layer) ≠ ldRows desc) ||
      decide (ldCols (layerDesc s p layer) ≠ ldCols desc) || decide (ldPfmt (layerDesc s p layer) ≠ ldPfmt desc)) = true ↔ ¬copyAgrees s p layer desc := by
    simp only [Bool.or_eq_true, decide_eq_true_eq, copyAgrees, not_and_or, or_assoc, ne_eq]
  refine ⟨fun h => (powered_on hon _).trans (congrArg _ ?_), fun h hnext => (powered_on hon _).trans (congrArg _ ?_)⟩
  · rw [ho]
    dsimp only
    rw [if_neg hmay, if_neg (Nat.not_le.2 hlt), if_pos (hdiffer.2 h)]
  · rw [ho]
    dsimp only
    rw [if_neg hmay, if_neg (Nat.not_le.2 hlt), if_neg fun e => hdiffer.1 e h]
    refine if_pos ?_
    have hframe : Frames 5184 s (updCrew (copiedLayer s p layer ps st rec_) c fun k => { k with copyNext := layer + 1 }) :=
      ((((Frames.refl _ s).step hbmWriteN_frames rfl).step hbmWriteN_frames rfl).step setLayerRec_frames rfl).step (a := 1024) (updCrew_frames fun h => h) rfl
    show layer + 1 < layerCount (updCrew (copiedLayer s p layer ps st rec_) c fun k => { k with copyNext := layer + 1 }) p
    unfold layerCount objNat
    rw [hframe.dict rfl]
    exact hnext

end

/-- Settles O49: each command of the Cox's own rows does its one thing, and no Crew has anything to do afterwards. -/
theorem coxLayersAndWindow : Obligations.CoxLayersAndWindow := by
  unfold Obligations.CoxLayersAndWindow
  intro s p cr hon
  refine ⟨fun x o f n h hn hc hr hfail hcmds hrun hfeed hop hpin hue => ?_, fun hcalm hrun => ?_, fun x a ki i q hcalm htests hcmds hrun hfeed hcls hiss ha ho => ?_,
    fun r l hp h hl => ?_, fun r data h ho hst hruns hre hlen => ?_, fun layer desc ps st rec_ ho hre ha hl hlt => ?_⟩
  · obtain ⟨t, y, hexec, hf, hcox, hrest⟩ := exec_coxFeed_hold h hc hfail hcmds hrun (hn ▸ hfeed) hop hpin hue
    exact ⟨t, y, hexec, hf.sameBut _ rfl, hcox, hrest⟩
  · exact coxShareWindow_counts hon hcalm hrun
  · exact exec_coxRetire_last hon hcalm htests hcmds hrun hfeed hcls hiss ha ho
  · have hexec : exec (.clearDirty r l) s = .next (rowWrite s r 0x7300 (0x91 + p) 0 (wordBytes l)) := (powered_on hon _).trans (by rw [hp])
    rw [rowWrite_clearDirty h hl] at hexec
    have hf : Frames 8192 (setLayerRec s p l.toNat (layerRec s p l.toNat &&& ~~~ 8)) _ := moduleEvent_frames (s := s)
    refine ⟨_, hexec, ((setLayerRec_frames.mono rfl).step (m := 12288) hf rfl).sameBut _ rfl, ?_, fun j hj => ?_, fun e he => ?_⟩
    · rw [layerRec_of_cox (hf.cox rfl), layerRec_set_same]
    · rw [layerRec_of_cox (hf.cox rfl), layerRec_set_other _ _ _ hj]
    · rw [hf.cox rfl, setLayerRec_other _ _ _ _ _ he]
  · have hexec : exec (.layerStateLoad r cr data) s = .next (rowWrite s r (crewIdx cr) 0x42 0 data) := powered_on hon _
    rw [rowWrite_loadLayers h ho hst hruns hre hlen] at hexec
    generalize hq : setRecs s p (fun i => BitVec.ofNat 512 (leAt data (8 + 64 * i) 64)) (layerCount s p) = q at hexec
    have hqf : Frames 4096 s q := hq ▸ setRecs_frames ..
    have hf : Frames 8192 (updCrew q cr fun k => { k with lastFinished := BitVec.ofNat 48 (leAt data 0 8) }) _ := moduleEvent_frames (s := s)
    have hcox : (moduleEvent s _).cox = q.cox := hf.cox rfl
    refine ⟨_, hexec, (((hqf.mono rfl).step (a := 1024) (updCrew_frames fun h => h) rfl).step (m := 13312) hf rfl).sameBut _ rfl, ?_, fun e he => ?_, fun i hi => ?_, fun i hi => ?_⟩
    · rw [hf.crews rfl]
      show q.crews.set cr { q.crews[cr] with lastFinished := _ } = _
      rw [hqf.crews rfl]
    · rw [hcox, ← hq, setRecs_other _ _ _ he]
    · rw [layerRec_of_cox hcox, ← hq, setRecs_rec, if_pos hi]
    · rw [layerRec_of_cox hcox, ← hq, setRecs_rec, if_neg (Nat.not_lt.2 hi)]
  · obtain ⟨hdiffer, hagree⟩ := exec_rejoinCopy (desc := desc) hon ho hre ha hl hlt ps st rec_
    refine ⟨hdiffer, fun h hnext => ⟨_, hagree h hnext, ?_, rfl, ?_, ?_⟩⟩
    · exact Frames.sameBut (m := 5184) (((((Frames.refl _ s).step hbmWriteN_frames rfl).step hbmWriteN_frames rfl).step setLayerRec_frames rfl).step (a := 1024)
        (updCrew_frames fun h => h) rfl) _ rfl
    · have hc : (copiedLayer s p layer ps st rec_).crews = s.crews :=
        Frames.crews (m := 4160) ((((Frames.refl _ s).step hbmWriteN_frames rfl).step hbmWriteN_frames rfl).step setLayerRec_frames rfl) rfl
      show (copiedLayer s p layer ps st rec_).crews.set cr { (copiedLayer s p layer ps st rec_).crews[cr] with copyNext := _ } = _
      rw [hc]
    · exact layerRec_set_same _ _ _ _

end Sys2Proof.Machine
end

section
/-! Writes of readable objects and segmented transfers of the object dictionary (R378, R380, R390, R394). -/

namespace Sys2Proof.Machine

open Sys2Proof

/-! ## A plain object -/

/-- The state with another dictionary. -/
def withDict (s : State) (d : Dict) : State := { s with dict := d }

theorem withDict_but (s : State) (d : Dict) : SameBut [.dict] s (withDict s d) := ⟨rfl, fun p hp => by cases p <;> first | rfl | simp at hp⟩

/-- The module's state and its units in service are not told by the dictionary (R386). -/
theorem moduleEvent_withDict (s : State) (d : Dict) : moduleEvent s (withDict s d) = withDict s d := if_pos ⟨rfl, rfl⟩

/-- Activities have no object that is written at once: their budgets and deadlines are staged (R424). -/
theorem access_activity {sub : Nat} {i : ObjInfo} (h : objInfo 0x8000 sub = some i) : i.access ≠ 2 := by
  have hrows : ∀ r ∈ objRows, r.1 ≤ 0x8000 → 0x8000 ≤ r.2.1 → r.2.2.2.2.access ≠ 2 := by decide +kernel
  unfold objInfo at h
  split at h
  · obtain ⟨_, -, rfl⟩ := Option.map_eq_some_iff.1 h
    exact Nat.one_ne_zero ∘ Nat.succ.inj ∘ fun e => e.symm
  · split at h
    next r hr =>
      obtain rfl := Option.some.inj h
      have hin := List.find?_some hr
      simp only [Bool.and_eq_true, decide_eq_true_eq] at hin
      obtain ⟨⟨⟨hlo, hhi⟩, -⟩, -⟩ := hin
      exact hrows r (List.mem_of_find?_eq_some hr) hlo hhi
    next =>
      split at h
      · split at h
        · obtain rfl := Option.some.inj h
          decide
        · split at h
          · obtain rfl := Option.some.inj h
            exact fun e => Nat.noConfusion e
          · cases h
      · cases h

section
variable {s : State} {r : Req} {idx sub : Nat} {d : List Byte}

theorem entryBytes_plain (h : plainObject idx sub) : entryBytes idx sub = 0 := by
  obtain ⟨hunit, htable, hidx, -⟩ := h
  unfold inUnit at hunit
  unfold isTable at htable
  simp only [Bool.or_eq_false_iff] at hunit htable
  obtain ⟨⟨⟨⟨⟨-, h1⟩, h2⟩, h3⟩, -⟩, -⟩ := hunit
  unfold entryBytes
  rw [h1, h2, h3, htable.1, htable.2]
  rfl

/-- Nothing follows from the new value of a plain object that is written at once (R394). -/
theorem afterValue_plain (h : plainObject idx sub) (hne : idx ≠ 0x8000) (t : State) (f : Nat) : afterValue t ⟨f, idx, sub⟩ = t := by
  obtain ⟨-, -, hidx, hcrew⟩ := h
  simp only [List.mem_cons, List.not_mem_nil, or_false, not_or] at hidx
  obtain ⟨-, -, -, h5000, -, h7000, h7300, h9800⟩ := hidx
  unfold afterValue
  dsimp only
  simp only [h5000, h7000, h7300, h9800, hne, hcrew, decide_false, Bool.false_and, Bool.false_eq_true, if_false]

/-- The committed values with another one of an object. -/
def committed (l : List (ObjKey × List Byte)) (k : ObjKey) (v : List Byte) : List (ObjKey × List Byte) := (k, v) :: l.filter fun x => x.1 ≠ k

theorem takeValue_plain (h : plainObject idx sub) (f off : Nat) (d : List Byte) :
    ∃ e, takeValue s ⟨f, idx, sub⟩ off d = withDict s e ∧ e.vals = committed s.dict.vals ⟨f, idx, sub⟩ d ∧ e.flashBad = s.dict.flashBad := by
  obtain ⟨hunit, htable, -, -⟩ := h
  unfold takeValue
  dsimp only
  rw [hunit, htable, if_neg Bool.false_ne_true, if_neg Bool.false_ne_true]
  cases objInfo idx sub with
  | none => exact ⟨(setObj s f idx sub d).dict, rfl, rfl, rfl⟩
  | some i =>
    dsimp only
    split
    · exact ⟨(setObj (genBump s f idx sub) f idx sub d).dict, rfl, rfl, rfl⟩
    · exact ⟨(setObj s f idx sub d).dict, rfl, rfl, rfl⟩

theorem storeFlash_good (h : s.dict.flashBad = false) (vs : List (ObjKey × List Byte)) : ∃ e, (storeFlash s vs).1 = withDict s e ∧ e.vals = s.dict.vals := by
  unfold storeFlash
  dsimp only
  split
  · exact ⟨_, rfl, rfl⟩
  · rw [h]
    exact ⟨_, rfl, rfl⟩

/-- A write of a plain object that its requester may make commits the bytes written (R392, R394). -/
theorem objWrite_plain (h : MayWrite s r idx sub d 2) (hp : plainObject idx sub) (hflash : s.dict.flashBad = false) (off : Nat) :
    ∃ e, objWrite s r idx sub off d = (withDict s e, 0, 0) ∧ e.vals = committed s.dict.vals (keyOf (actorOf s r) idx sub) d := by
  obtain ⟨i, hi, ha, -, hv⟩ := h.object
  have hne : idx ≠ 0x8000 := fun e => access_activity (e ▸ objFound_objInfo hi) ha
  obtain ⟨hset, hpend⟩ := h.unnamed.resolve_right (by decide)
  obtain ⟨e, he, hvals, hbad⟩ := takeValue_plain (s := s) hp (keyOf (actorOf s r) idx sub).f 0 d
  obtain ⟨e', he', hvals'⟩ := storeFlash_good (s := withDict s e) (hbad.trans hflash) [(keyOf (actorOf s r) idx sub, d)]
  refine ⟨e', ?_, hvals'.trans hvals⟩
  unfold objWrite
  dsimp only
  rw [hi]
  dsimp only
  rw [h.right, ha, hv, hset, hpend, entryBytes_plain hp]
  show (moduleEvent s (storeFlash (afterValue (takeValue s (keyOf (actorOf s r) idx sub) 0 d) (keyOf (actorOf s r) idx sub)) [(keyOf (actorOf s r) idx sub, d)]).1, 0, 0) = _
  rw [show takeValue s (keyOf (actorOf s r) idx sub) 0 d = withDict s e from he, show afterValue (withDict s e) (keyOf (actorOf s r) idx sub) = withDict s e from
    afterValue_plain hp hne _ _, he']
  exact congrArg (·, 0, 0) (moduleEvent_withDict s e')

/-- What is committed: the object's bytes, and every other object's as before. -/
theorem objBytes_committed {t : State} {k : ObjKey} (h : t.dict.vals = committed s.dict.vals k d) : objBytes t k.f k.idx k.sub [] = d ∧
    ∀ j : ObjKey, j ≠ k → ∀ z, objBytes t j.f j.idx j.sub z = objBytes s j.f j.idx j.sub z := by
  unfold objBytes assocGet
  rw [h]
  unfold committed
  refine ⟨by rw [List.find?_cons_of_pos (by simp)], fun j hj z => ?_⟩
  rw [List.find?_cons_of_neg (by simpa using hj.symm)]
  exact assocGet_drop_other s.dict.vals k j z hj

end

/-! ## The rows -/

section
variable {s : State} {r : Req} {m : SvcMsg}

/-- A message of a requester that is served does what its operation does (R377). -/
theorem svc_serves (hs : Serves s r) {op : Nat} (by_ : Option (Fin 9 × Fin 64)) : svc s r by_ op m = match op with
    | 0x01 => svcRead s r m
    | 0x02 => svcWrite s r m
    | 0x03 => svcReadSeg s r m
    | 0x04 => svcWriteSeg s r m
    | 0x05 => svcTransferStatus s r m
    | 0x10 => svcOpen s r m
    | 0x11 => svcStage s r m
    | 0x12 => svcCheck s r m
    | 0x13 => svcCommit s r by_ m
    | 0x14 => svcAbort s r m
    | 0x15 => svcRenew s r m
    | _ => refuseOp s m 0x0205 := by
  unfold svc
  dsimp only
  rw [hs.lease]
  exact if_neg (by rw [svc_guard hs op]; exact Bool.false_ne_true)

/-- What a message leaves that asks for no reset: its state and its response. -/
theorem ask_of_svc {op code : Nat} {t : State} {a : SvcMsg} (h : svc s r none op m = (t, code, a)) (hop : op ≠ 2 ∨ m.index ≠ 0x2400) :
    ask s r op m = emit t (.response r (svcBytes op code a)) := by
  unfold ask
  rw [h]
  dsimp only
  unfold thenReset resetAsked
  rw [if_neg]
  simp only [Bool.and_eq_true, decide_eq_true_eq]
  rintro ⟨⟨⟨h2, -⟩, hidx⟩, -⟩
  exact hop.elim (· h2) (· hidx)

theorem mayWrite_serves {idx sub acc : Nat} {d : List Byte} (h : MayWrite s r idx sub d acc) : Serves s r := ⟨h.on, h.lockstep, h.running, h.lease⟩

/-- The segment at OFFSET 0 of a requester without a transfer starts one (R378). -/
theorem svcWriteSeg_starts {i : ObjInfo} (hi : objFound s m.index.toNat m.sub.toNat = some i) (hright : mayWrite s (actorOf s r) m.index.toNat m.sub.toNat = true)
    (hacc : 2 ≤ i.access) (hty : i.ty = 12) (hidx : m.index.toNat ≠ 0x4100) (hmine : myTransfer s r = none) (hoff : m.offset = 0) (hsize : m.aux0.toNat ≤ i.size)
    (hkept : ∀ t ∈ s.dict.transfers, keptOf r s t = false) (hroom : (s.dict.transfers.map (·.total)).sum + m.aux0.toNat ≤ 2 ^ 30)
    (hlen : m.data.length ≤ m.aux0.toNat) (hmore : m.mflags.getLsbD 0 = false) :
    svcWriteSeg s r m = (putTransfer s ⟨holderOf s r, true, 0, keyOf (actorOf s r) m.index.toNat m.sub.toNat, m.aux0.toNat, m.data⟩, 0,
      answer m m.data.length 0 []) := by
  have hall : (s.dict.transfers.filter fun t => !keptOf r s t) = s.dict.transfers := List.filter_eq_self.2 fun t ht => by rw [hkept t ht]; rfl
  have hoff0 : m.offset.toNat = 0 := by rw [hoff]; rfl
  unfold svcWriteSeg
  dsimp only
  rw [hi]
  dsimp only
  rw [hright, hmine, decide_eq_false hidx, if_neg (by decide), if_neg (by omega), if_neg (not_not.2 hty), if_neg (by simp)]
  dsimp only
  rw [if_neg (not_not.2 hoff), if_neg (by omega), hall, if_neg (by omega)]
  unfold takeSegment
  dsimp only [List.length_nil]
  rw [hoff0, if_neg (by omega), if_neg (by omega), hmore]
  simp only [List.take_nil, List.drop_nil, List.nil_append, List.append_nil, Bool.not_false, if_true]

theorem myTransfer_put (x : Transfer) (o : Out) (hlive : x.live = true) (hby : x.by_ = holderOf s r) : myTransfer (emit (putTransfer s x) o) r = some x := by
  have hhold : holderOf (emit (putTransfer s x) o) r = holderOf s r := by cases r <;> rfl
  unfold myTransfer
  rw [hhold]
  exact List.find?_cons_of_pos (by simp [hlive, hby])

end

/-! ## TRANSFER_EXPIRY (R380) -/

/-- An unfinished transfer that an anchor left when its session closed. -/
def leftBy (a : Fin 8) (t : Transfer) : Bool := !t.live && (match t.by_ with | .sess _ b => b = a | .fn _ => false)

theorem leftBy_iff {a : Fin 8} {t : Transfer} : leftBy a t = true ↔ t.live = false ∧ ∃ j, t.by_ = .sess j a := by
  unfold leftBy
  rw [Bool.and_eq_true, Bool.not_eq_true']
  refine and_congr_right fun _ => ?_
  cases t.by_ with
  | sess i b => simp
  | fn f => simp

/-- The state without what an anchor left. -/
def leftDropped (a : Fin 8) (u : State) : State := withDict u { u.dict with transfers := u.dict.transfers.filter fun t => !leftBy a t }

theorem exec_transferExpiry {s : State} {a : Fin 8} {x : Transfer} (hon : s.power.on = true) (h : s.dict.transfers.find? (leftBy a) = some x) :
    ∃ u, Frames 1 s u ∧ exec (.transferExpiry a) s = .next (leftDropped a u) := by
  refine ⟨reach s (x.closedAt + 60000000000), reach_frames, ?_⟩
  have hexec : exec (.transferExpiry a) s = execTransferExpiry a s := rfl
  rw [hexec]
  unfold execTransferExpiry
  rw [powered_on hon]
  refine congrArg Host.Outcome.next ?_
  extract_lets mine
  split
  next y hy =>
    obtain rfl := Option.some.inj (hy.symm.trans h)
    rfl
  next hy => exact absurd (hy.symm.trans h) (Option.some_ne_none x).symm

/-- What an anchor left when its session closed is dropped, and nothing else (R380). -/
theorem transferExpiry_drops {s : State} {a i : Fin 8} {x : Transfer} (hon : s.power.on = true) (hx : x ∈ s.dict.transfers) (hlive : x.live = false)
    (hby : x.by_ = .sess i a) : ∃ t, exec (.transferExpiry a) s = .next t ∧ SameBut [.now, .dict] s t ∧ SameSets s t ∧
      ∀ y, y ∈ t.dict.transfers ↔ y ∈ s.dict.transfers ∧ (y.live = true ∨ ∀ j, y.by_ ≠ .sess j a) := by
  have hleft : leftBy a x = true := leftBy_iff.2 ⟨hlive, i, hby⟩
  obtain ⟨y, hy⟩ := Option.isSome_iff_exists.1 (List.find?_isSome.2 ⟨x, hx, hleft⟩)
  obtain ⟨u, hrf, hexec⟩ := exec_transferExpiry hon hy
  have hd : u.dict = s.dict := hrf.dict rfl
  refine ⟨_, hexec, sameBut_then (sameBut_le (hrf.sameBut [.now] rfl) _ rfl) (withDict_but _ _) rfl, ?_, fun z => ?_⟩
  · rw [SameSets, ← hd]
    exact ⟨rfl, rfl, rfl, rfl⟩
  rw [← hd]
  refine List.mem_filter.trans (and_congr_right fun _ => ?_)
  rw [Bool.not_eq_true', Bool.eq_false_iff, ne_eq, leftBy_iff, not_and_or, not_exists, Bool.not_eq_false]

/-- Settles O36: a plain object's value is committed as written, a transfer begins, tells how far it is, and is dropped. -/
theorem dictionaryWrites : Obligations.DictionaryWrites := by
  unfold Obligations.DictionaryWrites
  intro s r m idx sub k
  refine ⟨fun h hp hflash => ?_, fun i hs hi hright hacc hty hidx hmine hoff hsize hkept hroom hlen hmore => ?_, fun x hs hx => ?_, fun a i x hon hx hlive hby => ?_⟩
  · have hs := mayWrite_serves h
    refine ⟨?_, ?_⟩
    · obtain ⟨e, he, hvals⟩ := objWrite_plain h hp hflash m.offset.toNat
      have hsvc : svc s r none 2 m = (withDict s e, 0, answer m 0 0 []) := by
        refine (svc_serves hs none).trans ?_
        show svcWrite s r m = _
        unfold svcWrite
        rw [he]
      have hne : m.index ≠ 0x2400 := fun h => hp.2.2.1 (by rw [show idx = 0x2400 from congrArg BitVec.toNat h]; decide)
      refine ⟨_, (powered_on hs.on _).trans (congrArg _ (ask_of_svc hsvc (.inr hne))), ?_, objBytes_committed hvals, rfl⟩
      exact ⟨rfl, fun p hp => by cases p <;> first | rfl | simp at hp⟩
    · obtain ⟨e, he, hvals⟩ := objWrite_plain h hp hflash 0
      have hexec : exec (.registerWrite r m.index m.sub m.data) s = .next (rowWrite s r idx sub 0 m.data) := powered_on hs.on _
      have hrow : rowWrite s r idx sub 0 m.data = withDict s e := by
        unfold rowWrite
        dsimp only
        rw [hs.lease, if_neg (by simp [hs.lockstep, hs.running]), he]
      exact ⟨_, hexec.trans (congrArg _ hrow), withDict_but s e, objBytes_committed hvals⟩
  · have hsvc : svc s r none 4 m = _ := (svc_serves hs none).trans
      (svcWriteSeg_starts hi hright hacc hty hidx hmine hoff hsize hkept hroom hlen hmore)
    refine ⟨_, (powered_on hs.on _).trans (congrArg _ (ask_of_svc hsvc (.inl (by decide)))), ?_, ⟨rfl, rfl, rfl, rfl⟩,
      myTransfer_put _ _ rfl rfl, rfl⟩
    exact ⟨rfl, fun p hp => by cases p <;> first | rfl | simp at hp⟩
  · have hsvc : svc s r none 5 m = (s, 0, answer m 0 0 (leBytes 2 x.key.idx ++ leBytes 1 x.key.sub ++ [0] ++ leBytes 4 x.bytes.length)) := by
      refine (svc_serves hs none).trans ?_
      show svcTransferStatus s r m = _
      unfold svcTransferStatus
      rw [hx]
    exact (powered_on hs.on _).trans (congrArg _ (ask_of_svc hsvc (.inl (by decide))))
  · exact transferExpiry_drops hon hx hlive hby

end Sys2Proof.Machine
end

section
/-! The operations of an open change set (R397, R398, R401, R402, R405, R407). -/

namespace Sys2Proof.Machine

open Sys2Proof

section
variable {s : State} {r : Req} {m : SvcMsg} {o : OpenSet}

/-- The set a requester may work on is the open one (R398). -/
theorem setOf_open {id : BitVec 32} (h : setOf s r id = .ok o) : s.dict.openSet = some o := by
  unfold setOf at h
  cases hs : s.dict.openSet with
  | none =>
    rw [hs] at h
    cases he : s.dict.expired with
    | none =>
      rw [he] at h
      cases h
    | some x =>
      rw [he] at h
      dsimp only at h
      split at h <;> cases h
  | some x =>
    rw [hs] at h
    dsimp only at h
    split at h
    · exact congrArg some (Except.ok.inj h)
    · cases h

theorem svcOpen_free (ha : (actorOf s r).1 ≤ 2) (hn : s.dict.openSet = none) : svcOpen s r m =
    (genBump { s with dict := { s.dict with lastId := s.dict.lastId + 1, expired := none, openSet := some ⟨s.dict.lastId + 1, holderOf s r, false, [], leaseEnd s⟩ } }
      0 0xA000 6, 0, answer m (s.dict.lastId + 1).toNat 10000 []) := by
  unfold svcOpen
  rw [if_neg (Nat.not_lt.2 ha), hn]
  rfl

/-- A value that no check refuses, of an object not yet staged, is added to the set (R398). -/
theorem stageValue_new {i : ObjInfo} {idx sub : Nat} {d : List Byte} (hi : objFound s idx sub = some i) (hright : mayWrite s (actorOf s r) idx sub = true)
    (hacc : i.access = 2 ∨ i.access = 4) (hv : valueRefuse s idx sub i d = none) (hidx : idx ≠ 0x5400)
    (hnew : ∀ x ∈ o.staged, x.1 ≠ keyOf (actorOf s r) idx sub) (hroom : o.staged.length < 4096) :
    stageValue s r o idx sub d = .ok { o with checked := false, staged := o.staged ++ [(keyOf (actorOf s r) idx sub, d)] } := by
  have hany : (o.staged.any fun x => x.1 = keyOf (actorOf s r) idx sub) = false := List.any_eq_false.2 fun x hx => by simpa using hnew x hx
  have hlow : ¬i.access ≤ 1 := by omega
  have hwo : i.access ≠ 3 := by omega
  unfold stageValue
  rw [hi]
  dsimp only
  cases actorPart (actorOf s r) with
  | none => simp only [hright, hv, hany, hlow, hwo, Nat.not_le.2 hroom, Bool.not_true, Bool.false_eq_true, if_false]
  | some p => simp only [hright, hv, hany, hidx, hlow, hwo, Nat.not_le.2 hroom, decide_false, Bool.false_and, Bool.not_true, Bool.false_eq_true, if_false]

theorem svcStage_new (ho : setOf s r m.aux0 = .ok o) {o' : OpenSet}
    (hst : stageValue s r { o with lease := leaseEnd s } m.index.toNat m.sub.toNat m.data = .ok o') :
    svcStage s r m = (genBump (putSet s o') 0 0xA000 6, 0, answer m o'.staged.length 0 []) := by
  unfold svcStage
  rw [ho]
  dsimp only
  rw [hst]

/-- The state with the conflicts of a set's last CHECK or COMMIT: none (R401). -/
def unconflicted (s : State) : State := putConflicts s []

theorem setConflicts_lease (lease : U64) (p : BitVec 128) : setConflicts s { o with lease := lease } p = setConflicts s o p := rfl

theorem svcCheck_clear (ho : setOf s r m.aux0 = .ok o) (hlen : m.data.length = 16) {point : BitVec 128} (hp : BitVec.ofNat 128 (leAt m.data 0 16) = point)
    (hpoint : pointBad point = false) (hconf : setConflicts s o point = []) :
    svcCheck s r m = (unconflicted (putSet s { o with checked := true, lease := leaseEnd s }), 0, answer m 0 0 []) := by
  unfold svcCheck
  rw [ho]
  dsimp only
  rw [hp, hpoint, decide_eq_false (not_not.2 hlen), Bool.or_self, if_neg Bool.false_ne_true, setConflicts_lease, hconf]
  rfl

/-- The dictionary with a set no longer open but pending (R402). -/
def withPending (s : State) (o : OpenSet) (by_ : Option (Fin 9 × Fin 64)) (point : BitVec 128) : State :=
  withDict s { s.dict with openSet := none, pendings := s.dict.pendings ++ [⟨o.id, o.holder, by_, point, o.staged, s.now, [], false⟩] }

/-- The set has become a pending one (R402). -/
def madePending (s : State) (o : OpenSet) (by_ : Option (Fin 9 × Fin 64)) (point : BitVec 128) : State :=
  genBump (genBump (unconflicted (withPending s o by_ point)) 0 0xA000 6) 0 0xA100 1

theorem svcCommit_clear (by_ : Option (Fin 9 × Fin 64)) (ho : setOf s r m.aux0 = .ok o) (hlen : m.data.length = 16) {point : BitVec 128}
    (hp : BitVec.ofNat 128 (leAt m.data 0 16) = point) (hpoint : pointBad point = false) (hconf : setConflicts s o point = []) :
    svcCommit s r by_ m = (pushRec (madePending s o by_ point) ⟨o.id, 0, o.holder, apKind point, pointField point, (madePending s o by_ point).now, 0⟩, 0,
      answer m o.id.toNat 0 []) := by
  unfold svcCommit
  rw [ho]
  dsimp only
  rw [hp, hpoint, decide_eq_false (not_not.2 hlen), Bool.or_self, if_neg Bool.false_ne_true, hconf]
  rfl

/-- What a record of the history leaves (R407). -/
theorem pushRec_keeps (t : State) (x : SetRec) : SameBut [.dict] t (pushRec t x) ∧ (pushRec t x).dict.vals = t.dict.vals ∧
    (pushRec t x).dict.openSet = t.dict.openSet ∧ (pushRec t x).dict.pendings = t.dict.pendings ∧ (pushRec t x).dict.history = (x :: t.dict.history).take 64 ∧
    (pushRec t x).out = t.out := ⟨pushRec_frames.sameBut _ rfl, rfl, rfl, rfl, rfl, rfl⟩

/-- What neither a set's values nor its record tell stays: all but the generations and the conflicts. -/
structure SetsKept (s t : State) : Prop where
  but : SameBut [.dict] s t
  vals : t.dict.vals = s.dict.vals
  openSet : t.dict.openSet = s.dict.openSet
  pendings : t.dict.pendings = s.dict.pendings
  history : t.dict.history = s.dict.history

theorem SetsKept.trans {t u : State} (h : SetsKept s t) (h' : SetsKept t u) : SetsKept s u :=
  ⟨sameBut_then h.but h'.but rfl, h'.vals.trans h.vals, h'.openSet.trans h.openSet, h'.pendings.trans h.pendings, h'.history.trans h.history⟩

theorem genBump_kept (t : State) (f i b : Nat) : SetsKept t (genBump t f i b) := ⟨genBump_frames.sameBut _ rfl, rfl, rfl, rfl, rfl⟩

theorem unconflicted_kept (t : State) : SetsKept t (unconflicted t) ∧ (unconflicted t).dict.conflicts = [] :=
  ⟨⟨putConflicts_frames.sameBut _ rfl, rfl, rfl, rfl, rfl⟩, rfl⟩

theorem madePending_kept (by_ : Option (Fin 9 × Fin 64)) (point : BitVec 128) : SetsKept (withPending s o by_ point) (madePending s o by_ point) :=
  ((unconflicted_kept _).1.trans (genBump_kept _ _ _ _)).trans (genBump_kept _ _ _ _)

/-- The end of the open set (R405): its record enters the history, and nothing but that, its counting and its event changes. -/
theorem endOpen_open (ho : s.dict.openSet = some o) (outcome : Nat) : Frames 24576 s (endOpen s outcome) ∧ (endOpen s outcome).dict.vals = s.dict.vals ∧
    (endOpen s outcome).dict.openSet = none ∧ (endOpen s outcome).dict.pendings = s.dict.pendings ∧
    (endOpen s outcome).dict.history = (⟨o.id, outcome, o.holder, 0, 0, s.now, 0⟩ :: s.dict.history).take 64 := by
  refine ⟨endOpen_frames, ?_⟩
  unfold endOpen
  rw [ho]
  dsimp only
  rw [setEvent_frames.dict rfl]
  exact ⟨rfl, rfl, rfl, rfl⟩

end

/-- Settles O37: each operation on the open set, as its requester's message asks for it. -/
theorem changeSets : Obligations.ChangeSets := by
  unfold Obligations.ChangeSets
  intro s r m hs
  have hout (t : State) (op code : Nat) (a : SvcMsg) (h : SameBut [.dict] s t) : SameBut [.dict, .out] s (emit t (.response r (svcBytes op code a))) :=
    sameBut_then (sameBut_le h _ rfl) (emit_frames.sameBut [.out] rfl) rfl
  have hlease : leaseEnd s = s.now + 10000000000 := rfl
  refine ⟨fun ha hn => ?_, fun o ho => ⟨fun i hi hright hacc hv hidx hnew hroom => ?_, fun hlen hpoint hconf => ⟨?_, ?_⟩, ?_, ?_⟩⟩
  · have hsvc : svc s r none 0x10 m = _ := (svc_serves hs none).trans (svcOpen_free ha hn)
    rw [hlease] at hsvc
    have hkept := genBump_kept (withDict s { s.dict with
      lastId := s.dict.lastId + 1, expired := none, openSet := some ⟨s.dict.lastId + 1, holderOf s r, false, [], s.now + 10000000000⟩ }) 0 0xA000 6
    exact ⟨_, (powered_on hs.on _).trans (congrArg _ (ask_of_svc hsvc (.inl (by decide)))), hout _ _ _ _ (sameBut_then (withDict_but s _) hkept.but rfl), hkept.vals, rfl,
      hkept.openSet, congrArg _ (hkept.but.2 .out (by decide))⟩
  · have hst := stageValue_new (o := { o with lease := leaseEnd s }) hi hright hacc hv (fun e => hidx (BitVec.eq_of_toNat_eq e)) hnew hroom
    have hsvc : svc s r none 0x11 m = _ := (svc_serves hs none).trans (svcStage_new ho hst)
    rw [hlease] at hsvc
    rw [List.length_append, List.length_singleton] at hsvc
    have hkept := genBump_kept (putSet s { o with
      checked := false, lease := s.now + 10000000000, staged := o.staged ++ [(keyOf (actorOf s r) m.index.toNat m.sub.toNat, m.data)] }) 0 0xA000 6
    exact ⟨_, (powered_on hs.on _).trans (congrArg _ (ask_of_svc hsvc (.inl (by decide)))), hout _ _ _ _ (sameBut_then (withDict_but s _) hkept.but rfl), hkept.vals,
      hkept.openSet, congrArg _ (hkept.but.2 .out (by decide))⟩
  · have hsvc : svc s r none 0x12 m = _ := (svc_serves hs none).trans (svcCheck_clear ho hlen rfl hpoint hconf)
    rw [hlease] at hsvc
    obtain ⟨hkept, hnone⟩ := unconflicted_kept (putSet s { o with checked := true, lease := s.now + 10000000000 })
    exact ⟨_, (powered_on hs.on _).trans (congrArg _ (ask_of_svc hsvc (.inl (by decide)))), hout _ _ _ _ (sameBut_then (withDict_but s _) hkept.but rfl), hkept.vals, hnone,
      hkept.openSet, congrArg _ (hkept.but.2 .out (by decide))⟩
  · have hsvc : svc s r none 0x13 m = _ := (svc_serves hs none).trans (svcCommit_clear none ho hlen rfl hpoint hconf)
    have hkept := madePending_kept (s := s) (o := o) none (BitVec.ofNat 128 (leAt m.data 0 16))
    have hbut := sameBut_then (withDict_but s _) hkept.but rfl
    rw [show (madePending s o none (BitVec.ofNat 128 (leAt m.data 0 16))).now = s.now from hbut.2 .now (by decide)] at hsvc
    generalize madePending s o none (BitVec.ofNat 128 (leAt m.data 0 16)) = u at hsvc hkept hbut
    obtain ⟨hbut', hvals', hset', hpends', hhist', hto'⟩ := pushRec_keeps u
      ⟨o.id, 0, o.holder, apKind (BitVec.ofNat 128 (leAt m.data 0 16)), pointField (BitVec.ofNat 128 (leAt m.data 0 16)), s.now, 0⟩
    exact ⟨_, (powered_on hs.on _).trans (congrArg _ (ask_of_svc hsvc (.inl (by decide)))), hout _ _ _ _ (sameBut_then hbut hbut' rfl), hvals'.trans hkept.vals,
      hset'.trans hkept.openSet, hpends'.trans hkept.pendings, hhist'.trans (by rw [hkept.history]; rfl), congrArg _ (hto'.trans (hbut.2 .out (by decide)))⟩
  · have hend : svcAbort s r m = (endOpen s 2, 0, answer m 0 0 []) := by
      unfold svcAbort
      rw [ho]
    have hsvc : svc s r none 0x14 m = _ := (svc_serves hs none).trans hend
    obtain ⟨hf, hvals, hopen, hpend, hhist⟩ := endOpen_open (setOf_open ho) 2
    refine ⟨_, (powered_on hs.on _).trans (congrArg _ (ask_of_svc hsvc (.inl (by decide)))), ?_, hvals, hopen, hpend, hhist, ?_⟩
    · exact sameBut_then (sameBut_le (hf.sameBut [.evolu, .dict] rfl) _ rfl) (emit_frames.sameBut [.out] rfl) rfl
    · show Out.response r _ :: (endOpen s 2).out = _
      rw [hf.out rfl]
  · have hend : svcRenew s r m = (putSet s { o with lease := leaseEnd s }, 0, answer m 0 10000 []) := by
      unfold svcRenew
      rw [ho]
    have hsvc : svc s r none 0x15 m = _ := (svc_serves hs none).trans hend
    rw [hlease] at hsvc
    exact (powered_on hs.on _).trans (congrArg _ (ask_of_svc hsvc (.inl (by decide))))

end Sys2Proof.Machine
end

section
/-! Fuses, attestation, counter groups and the trace (R446, R448, R450, R460 to R463, R471). -/

namespace Sys2Proof.Machine

open Sys2Proof

/-! ## The rows of 0x4100 and 0x4200 -/

section
variable {s : State} {r : Req}

/-- The whole of a 256-bit value, read back as one number. -/
theorem ofLe_word256 (d : BitVec 256) : BitVec.ofNat 256 (ofLe (wordBytes d)) = d := by
  rw [show ofLe (wordBytes d) = d.toNat from (ofLe_leBytes 32 _).trans (Nat.mod_eq_of_lt (by simpa using d.isLt)), BitVec.ofNat_toNat, BitVec.setWidth_eq]

theorem rowWrite_advanceRollback (h : MayWrite s r 0x4100 6 [1] 3)
    (hnew : imgKeys s (imgSlot s (1 - s.sec.running)) ≠ 0 ∨ imgSvn (runningImage s) ≤ imgSvn (imgSlot s (1 - s.sec.running))) :
    rowWrite s r 0x4100 6 0 [1] = { s with sec := { s.sec with rollback := max s.sec.rollback (min 64 (imgSvn (runningImage s))) } } := by
  have hadv : advanceRollback s = ({ s with sec := { s.sec with rollback := max s.sec.rollback (min 64 (imgSvn (runningImage s))) } }, none) := by
    unfold advanceRollback
    refine if_neg ?_
    rw [Bool.and_eq_true, decide_eq_true_eq, decide_eq_true_eq]
    exact fun hand => hnew.elim (· hand.1) (Nat.not_le.2 hand.2)
  rw [rowWrite_wo h rfl]
  show moduleEvent s (advanceRollback s).1 = _
  rw [hadv]
  exact if_pos ⟨rfl, rfl⟩

theorem rowWrite_burnOwner {hash : BitVec 256} (h : MayWrite s r 0x4100 4 (wordBytes hash) 3) (ha : actorOf s r = (0, 0)) (hb : s.power.bringUp = .full)
    (hblown : s.sec.ownerBlown = false) :
    rowWrite s r 0x4100 4 0 (wordBytes hash) = genBump { s with sec := { s.sec with owner := hash, ownerBlown := true } } 0 0x4100 3 := by
  have hburn : burnOwner s hash = (genBump { s with sec := { s.sec with owner := hash, ownerBlown := true } } 0 0x4100 3, none) := by
    unfold burnOwner
    rw [hb, hblown]
    rfl
  have hact : (woAction s r 0x4100 4 (wordBytes hash)).1 = (burnOwner s hash).1 := by
    unfold woAction
    dsimp only
    rw [ha, ofLe_word256]
    rfl
  rw [rowWrite_wo h rfl, hact, hburn]
  exact if_pos ⟨rfl, rfl⟩

theorem rowWrite_attest {nonce : BitVec 256} (h : MayWrite s r 0x4200 1 (wordBytes nonce) 3) :
    rowWrite s r 0x4200 1 0 (wordBytes nonce) = moduleEvent s (attest s r nonce) := by
  have hact : (woAction s r 0x4200 1 (wordBytes nonce)).1 = attest s r nonce := by
    unfold woAction
    dsimp only
    rw [ofLe_word256]
    rfl
  rw [rowWrite_wo h rfl, hact]

/-- The report of a nonce takes the place of its requester's last one, and of no other's (R450). -/
theorem attest_reports (nonce : BitVec 256) : reportOf (attest s r nonce) r = reportBytes s r nonce s.free ∧
    ∀ x, x ≠ r → reportOf (attest s r nonce) x = reportOf s x := by
  have hsec : (attest s r nonce).sec.reports = (r, reportBytes s r nonce s.free) :: s.sec.reports.filter fun x => decide (x.1 ≠ r) := rfl
  unfold reportOf assocGet
  rw [hsec]
  refine ⟨by rw [List.find?_cons_of_pos (by simp)], fun x hx => ?_⟩
  rw [List.find?_cons_of_neg (by simpa using hx.symm)]
  exact assocGet_drop_other s.sec.reports r x _ hx

end

/-! ## Counter groups -/

section
variable {s : State} {r : Req} {g : Fin 80}

theorem rowWrite_group {d : List Byte} (h : MayWrite s r (0x9000 + g) 1 d 2) : rowWrite s r (0x9000 + g) 1 0 d = groupWrite s g d := by
  have hinfo : ∀ g : Fin 80, objInfo (0x9000 + g) 1 = some ⟨13, 2, false, 40, Group.default, [2, 2, 2, 2, 4, 3, 3, 3, 3, 3, 3, 3, 3, 5, 5]⟩ := by decide +kernel
  have hrow : ∀ g : Fin 80, entryBytes (0x9000 + g) 1 = 0 ∧ perFn (0x9000 + g) 1 = false ∧ inUnit (0x9000 + g) 1 = true := by decide +kernel
  obtain ⟨hent, hshared, hunit⟩ := hrow g
  have hkey : keyOf (actorOf s r) (0x9000 + g) 1 = ⟨0, 0x9000 + g, 1⟩ := by
    unfold keyOf
    rw [hshared]
    rfl
  have htake : unitTakes s ⟨0, 0x9000 + g, 1⟩ 0 d = groupWrite s g d := by
    have hnot : idxIn (0x9000 + g) 0x6100 0x6107 = false ∧ idxIn (0x9000 + g) 0x65F0 0x65F8 = false ∧ idxIn (0x9000 + g) 0x7280 0x7287 = false ∧
        idxIn (0x9000 + g) 0x7290 0x7297 = false := by
      simp only [idxIn, Bool.and_eq_false_iff, decide_eq_false_iff_not]
      omega
    obtain ⟨h1, h2, h3, h4⟩ := hnot
    unfold unitTakes
    dsimp only
    rw [h1, h2, h3, h4, if_neg Bool.false_ne_true, if_neg (by omega), if_neg (by omega), if_neg Bool.false_ne_true, if_neg Bool.false_ne_true, if_neg Bool.false_ne_true,
      if_neg (by omega), dif_pos (by omega)]
    exact congrArg (groupWrite s · d) (Fin.ext (Nat.add_sub_cancel_left _ _))
  have hafter (t : State) : afterValue t ⟨0, 0x9000 + g, 1⟩ = t := by
    unfold afterValue idxIn
    simp only [Bool.and_eq_true, decide_eq_true_eq]
    rw [if_neg (by omega), if_neg (by omega), if_neg (by omega), if_neg (by omega), if_neg (by omega), if_neg (by omega), if_neg (by omega)]
  rw [rowWrite_rw h (.inl hent), if_pos hent, hkey, hafter, storeFlash_inUnit (k := ⟨0, 0x9000 + g, 1⟩) _ _ hunit,
    takeValue_inUnit (k := ⟨0, 0x9000 + g, 1⟩) _ _ _ (hinfo g) hunit]
  show moduleEvent s (unitTakes s ⟨0, 0x9000 + g, 1⟩ 0 d) = _
  rw [htake]
  exact if_pos ⟨rfl, rfl⟩

/-- A group samples: it runs, it is a sampling one, and its unit is there (R461). -/
structure Samples (s : State) (g : Fin 80) : Prop where
  runs : s.counters.groups[g].state = 1
  mode : gMode s.counters.groups[g].config = 1
  there : unitThere s (gOwner g) (gKind s.counters.groups[g].config) (gUnit s.counters.groups[g].config) = true

theorem unitThere_now {t : State} (h : SameBut [.now] s t) (o k u : Nat) : unitThere t o k u = unitThere s o k u := by
  have hcourses : t.courses = s.courses := h.2 .courses (by decide)
  have hdict : t.dict = s.dict := h.2 .dict (by decide)
  have hpower : t.power = s.power := h.2 .power (by decide)
  have hhbm : t.hbm = s.hbm := h.2 .hbm (by decide)
  unfold unitThere courseOwner crewOwner partRec objBytes objNat
  rw [hcourses, hdict, hpower, hhbm]

/-- A sample of a group whose unit is there: a record, or one that is lost (R461, R463). -/
theorem exec_counterSample (hon : s.power.on = true) (h : Samples s g) (lost : Bool) : ∃ u, SameBut [.now] s u ∧ u.counters = s.counters ∧
    exec (.counterSample g lost) s = .next (if lost then updGroup u g fun k => { k with seq := k.seq + 1, gap := k.gap + 1, lost := k.lost + 1 }
      else sampleWrite u g false) := by
  have hexec : exec (.counterSample g lost) s = execCounterSample g lost s := rfl
  rw [hexec]
  unfold execCounterSample
  rw [powered_on hon]
  dsimp only
  rw [decide_eq_false (not_not.2 h.runs), decide_eq_false (not_not.2 h.mode), Bool.or_self, if_neg Bool.false_ne_true]
  generalize BitVec.ofNat 64 _ = e
  have hrf : SameBut [.now] s (reach s e) := reach_frames.sameBut _ rfl
  refine ⟨reach s e, hrf, hrf.2 .counters (by decide), congrArg _ ?_⟩
  rw [unitThere_now hrf, h.there, Bool.not_true, if_neg Bool.false_ne_true]

theorem updGroup_counters (u : State) (g : Fin 80) (h : Group → Group) :
    (updGroup u g h).counters = { u.counters with groups := u.counters.groups.set g (h u.counters.groups[g]) } := rfl

/-- Size of a group's ring: the device ring holds 256 MiB (R462). -/
def ringSize (g : Nat) (c : List Byte) : Nat := if gOwner g = 8 then min (gSize c) (2 ^ 28) else gSize c

/-- The bytes of a record at the head of its ring. -/
def ringStored (u : State) (g : Fin 80) (c : List Byte) (bs : List Byte) : State :=
  if gOwner g = 8 then genBump (devWrite u 2 (ringHead u g c) bs) 0 0x9050 1 else hbmWriteN u (fin8 (gOwner g)) (gRing c + ringHead u g c) bs

theorem ringStored_frames (u : State) (g : Fin 80) (c : List Byte) (bs : List Byte) : Frames 16448 u (ringStored u g c bs) := by
  unfold ringStored
  split
  · exact ((Frames.refl _ u).step devWrite_frames rfl).step genBump_frames rfl
  · exact hbmWriteN_frames.mono rfl

/-- A record in a ring moves its head on by its 128 bytes, and leaves the groups as they are. -/
theorem ringPut_counters (u : State) (g : Fin 80) (c : List Byte) (bs : List Byte) : (ringPut u g c bs).counters.groups = u.counters.groups ∧
    ringHead (ringPut u g c bs) g c = (ringHead u g c + 128) % ringSize g c := by
  have hstored : (ringStored u g c bs).counters = u.counters := (ringStored_frames u g c bs).counters rfl
  have hput : (ringPut u g c bs).counters = { (ringStored u g c bs).counters with
      heads := assocSet (ringStored u g c bs).counters.heads (ringKey g c) ((ringHead u g c + 128) % ringSize g c) 0 } := rfl
  unfold ringHead at *
  rw [hput, hstored]
  exact ⟨rfl, assocGet_set_same _ _ _ _⟩

/-- The record enters the group's ring (R462). -/
theorem sampleWrite_group (u : State) (g : Fin 80) :
    (sampleWrite u g false).counters.groups = u.counters.groups.set g
      { u.counters.groups[g] with records := u.counters.groups[g].records + 1, seq := u.counters.groups[g].seq + 1, gap := 0, reset := false } ∧
    ringHead (sampleWrite u g false) g u.counters.groups[g].config = (ringHead u g u.counters.groups[g].config + 128) % ringSize g u.counters.groups[g].config := by
  have hwrite : ∃ m bs, m.counters = u.counters ∧ sampleWrite u g false = updGroup (ringPut m g u.counters.groups[g].config bs) g fun k =>
      { k with records := k.records + 1, seq := k.seq + 1, gap := 0, reset := false } := by
    unfold sampleWrite
    dsimp only
    simp only [Bool.false_eq_true, if_false]
    exact ⟨_, _, meters_frames.counters rfl, rfl⟩
  obtain ⟨m, bs, hm, hwrite⟩ := hwrite
  obtain ⟨hgroups, hhead⟩ := ringPut_counters m g u.counters.groups[g].config bs
  rw [hwrite]
  refine ⟨?_, ?_⟩
  · show (ringPut m g _ bs).counters.groups.set g { (ringPut m g _ bs).counters.groups[g] with records := _, seq := _, gap := 0, reset := false } = _
    rw [hgroups, hm]
  · refine hhead.trans ?_
    unfold ringHead
    rw [hm]

end

/-! ## The trace -/

section
variable {s : State}

/-- Bytes enter a trace that wraps (R471). -/
theorem spillPut_wraps (h : traceStop s = false) (bs : List Byte) : (spillPut s bs).counters.trace.written = s.counters.trace.written + bs.length ∧
    (spillPut s bs).counters.trace.head = (s.counters.trace.head + bs.length) % 2 ^ 28 ∧
    (spillPut s bs).counters.trace.state = s.counters.trace.state ∧ (spillPut s bs).dict.ctr = s.dict.ctr := by
  unfold spillPut
  dsimp only
  rw [h]
  exact ⟨rfl, rfl, rfl, rfl⟩

theorem tracedCores_none (h : ∀ c : Fin 16, s.crews[c].attempt = none) (k : Fin 4) : tracedCores s k = [] := by
  unfold tracedCores
  refine List.flatMap_eq_nil_iff.2 fun c _ => ?_
  rw [h (fin16 c)]

/-- A drop with no program to trace is counted, and leaves its GAP record (R470). -/
theorem exec_traceDrop (hon : s.power.on = true) (hst : s.counters.trace.state = 1) (h : ∀ c : Fin 16, s.crews[c].attempt = none) (k : Fin 4) (bytes instrs : BitVec 32) :
    exec (.traceDrop k bytes instrs) s = .next (spillPut (fresh (ctrAdd s 0 0x9803 1 1)).2
      (leBytes 1 (16 * ((fresh (ctrAdd s 0 0x9803 1 1)).1.toNat % 8) + 6) ++ wordBytes bytes ++ wordBytes instrs)) := by
  have hexec : exec (.traceDrop k bytes instrs) s = execTraceDrop k bytes instrs s := rfl
  rw [hexec]
  unfold execTraceDrop
  rw [powered_on hon]
  dsimp only
  rw [if_neg (not_not.2 hst), tracedCores_none]
  · rfl
  · intro c
    rw [spillPut_frames.crews rfl, fresh_frames.crews rfl, ctrAdd_crews]
    exact h c

end

/-- Settles O60: each row writes what its rule names, and no event or attempt adds to it. -/
theorem fusesReportsAndCounters : Obligations.FusesReportsAndCounters := by
  unfold Obligations.FusesReportsAndCounters
  intro s hon
  refine ⟨fun r h hnew => ?_, fun r hash h ha hb hblown => ?_, fun r nonce h => ?_, fun r g d h => ?_, fun g => ?_, fun k bytes instrs hst hstop hnone => ?_,
    fun hst hstop => ?_⟩
  · exact ⟨_, (powered_on hon _).trans (congrArg _ (rowWrite_advanceRollback h hnew)), ((Frames.refl 65536 s).set_sec rfl).sameBut _ rfl, rfl⟩
  · exact ⟨_, (powered_on hon _).trans (congrArg _ (rowWrite_burnOwner h ha hb hblown)), (((Frames.refl 81920 s).set_sec rfl).step genBump_frames rfl).sameBut _ rfl, rfl⟩
  · have hf : Frames 8192 (attest s r nonce) (moduleEvent s (attest s r nonce)) := moduleEvent_frames
    have hsec : (moduleEvent s (attest s r nonce)).sec = (attest s r nonce).sec := hf.sec rfl
    obtain ⟨hmine, hother⟩ := attest_reports (s := s) (r := r) nonce
    unfold reportOf at *
    refine ⟨_, (powered_on hon _).trans (congrArg _ (rowWrite_attest h)), ((attest_frames.mono rfl).step (m := 90114) hf rfl).sameBut _ rfl, ?_, fun x hx => ?_⟩
    · rw [hsec]
      exact hmine
    · rw [hsec]
      exact hother x hx
  · exact ⟨_, (powered_on hon _).trans (congrArg _ (rowWrite_group h)), updGroup_frames.sameBut _ rfl, rfl, rfl⟩
  · intro k hst hmode hthere
    refine ⟨?_, ?_⟩
    · obtain ⟨u, hbut, hcounters, hexec⟩ := exec_counterSample hon ⟨hst, hmode, hthere⟩ true
      rw [if_pos rfl] at hexec
      refine ⟨_, hexec, sameBut_then (sameBut_le hbut [.now, .counters] rfl) (qs := [.counters]) (updGroup_frames.sameBut _ rfl) rfl, ?_⟩
      rw [updGroup_counters, hcounters]
    · obtain ⟨u, hbut, hcounters, hexec⟩ := exec_counterSample hon ⟨hst, hmode, hthere⟩ false
      rw [if_neg Bool.false_ne_true] at hexec
      obtain ⟨hgroups, hhead⟩ := sampleWrite_group u g
      unfold ringHead at *
      rw [hcounters] at hgroups hhead
      exact ⟨_, hexec, sameBut_then (sameBut_le hbut _ rfl) (sampleWrite_frames.sameBut [.now, .free, .hbm, .dict, .counters] rfl) rfl, hgroups, hhead⟩
  · have hs : traceStop (fresh (ctrAdd s 0 0x9803 1 1)).2 = false := hstop
    obtain ⟨hwritten, hhead, hstate, hctr⟩ := spillPut_wraps hs
      (leBytes 1 (16 * ((fresh (ctrAdd s 0 0x9803 1 1)).1.toNat % 8) + 6) ++ wordBytes bytes ++ wordBytes instrs)
    refine ⟨_, exec_traceDrop hon hst hnone k bytes instrs, ?_, hwritten, hhead, hstate.trans hst, ?_⟩
    · exact Frames.sameBut (m := 278530) (((ctrAdd_frames.mono rfl).step fresh_frames rfl).step spillPut_frames rfl) _ rfl
    · unfold ctrGet
      rw [hctr]
      exact ctrGet_add_same s 0 0x9803 1 1
  · refine (powered_on hon _).trans (congrArg _ ?_)
    rw [hst, hstop]
    rfl

end Sys2Proof.Machine
end

section
/-! Bursts of Evolu, their echoes, and the state of the medium (R357, R359 to R362). -/

namespace Sys2Proof.Machine

open Sys2Proof

section
variable {s : State} {h : Bool} {f : TxFrame}

/-! ## TRANSMIT -/

theorem exec_transmit (hon : s.power.on = true) (hmay : maySend s = true) {rest : List TxFrame}
    (hq : h = true ∧ s.evolu.hq = f :: rest ∨ h = false ∧ s.evolu.hq = [] ∧ s.evolu.nq = f :: rest) :
    exec .transmit s = .next (burst (updEvolu s fun e => if h then { e with hq := rest } else { e with nq := rest }) h f) := by
  have hexec : exec .transmit s = execTransmit s := rfl
  rw [hexec]
  unfold execTransmit
  rw [powered_on hon]
  dsimp only
  rw [hmay, if_neg (by decide)]
  rcases hq with ⟨rfl, hq⟩ | ⟨rfl, hq, hn⟩
  · rw [hq]
    rfl
  · rw [hq, hn]
    rfl

/-- A burst of a frame without a session. -/
theorem burst_plain (hf : f.sess = none) : burst s h f = emit (ctrAdd (updEvolu s fun e =>
    { e with
      c := e.c + 1, flight := some (h, { f with a := f.a + 1, k := 0 })
      darkUntil := if e.medium = .down then s.now + 100000000 else e.darkUntil }) 0 0x1800 0x20 1) (.frame (burstGroups f.bytes)) := by
  unfold burst
  rw [hf]

/-! ## Failed bursts -/

/-- Before its sixteenth attempt a burst that failed waits at the front of its class (R360). -/
theorem burstFailed_waits (ha : f.a < 16) : burstFailed s h f = { s with evolu := backInFront s.evolu h f } := by
  unfold burstFailed backInFront
  dsimp only
  rw [if_neg (Nat.not_le.2 ha)]
  cases h <;> rfl

/-- The state with a frame's session SUSPECT where it was open. -/
def suspected (s : State) (f : TxFrame) : State :=
  match f.sess with
  | some (i, _) => updSession s i fun k => if k.state = .opened then { k with state := .suspect } else k
  | none => s

/-- The sixteenth attempt discards its frame (R360). -/
theorem burstFailed_discards (ha : 16 ≤ f.a) :
    burstFailed s h f = suspected (ctrAdd (updEvolu s fun e => { e with flight := none }) 0 0x1800 0x22 1) f := by
  unfold burstFailed
  dsimp only
  rw [if_pos ha]
  rfl

theorem suspected_keeps (t : State) (f : TxFrame) : Frames 8192 t (suspected t f) ∧ (suspected t f).evolu.flight = t.evolu.flight ∧
    (suspected t f).evolu.hq = t.evolu.hq ∧ (suspected t f).evolu.nq = t.evolu.nq ∧
    ∀ i q, f.sess = some (i, q) → t.evolu.sessions[i].state = .opened → (suspected t f).evolu.sessions[i] = { t.evolu.sessions[i] with state := .suspect } := by
  unfold suspected
  cases hf : f.sess with
  | none => exact ⟨Frames.refl _ _, rfl, rfl, rfl, fun _ _ h => by cases h⟩
  | some x =>
    refine ⟨updSession_frames, rfl, rfl, rfl, fun i q hi hopen => ?_⟩
    obtain rfl := Option.some.inj hi
    exact (Vector.getElem_set_self _).trans (if_pos hopen)

/-- What a burst that failed leaves, whatever has been noted of it before. -/
structure Failed (s t : State) (c : Nat) (e : Evolu) : Prop where
  but : SameBut [.evolu, .dict] s t
  evolu : t.evolu = e
  counted : ctrGet t 0 0x1800 c = (ctrGet s 0 0x1800 c + 1) % 2 ^ 64

theorem burstFailed_counted {e : Evolu} (ha : f.a < 16) (c : Nat) :
    Failed s (burstFailed (ctrAdd { s with evolu := e } 0 0x1800 c 1) h f) c (backInFront e h f) := by
  rw [burstFailed_waits ha]
  refine ⟨?_, rfl, ?_⟩
  · exact Frames.sameBut (m := 24576) ((((Frames.refl _ s).set_evolu rfl).step ctrAdd_frames rfl).set_evolu rfl) _ rfl
  · exact ctrGet_add_same s 0 0x1800 c 1

theorem collided_waits {e : Evolu} (ha : f.a < 16) :
    Failed s (collided { s with evolu := e } h f) 0x21 (backInFront e h { f with n := f.n + 1, k := owedSlots e (f.n + 1) }) :=
  burstFailed_counted (f := { f with n := f.n + 1, k := owedSlots e (f.n + 1) }) ha 0x21

/-- A collision at the sixteenth attempt: the frame is gone, and its session SUSPECT. -/
theorem collided_discards {e : Evolu} (ha : 16 ≤ f.a) :
    collided { s with evolu := e } h f = suspected (ctrAdd (ctrAdd { s with evolu := { e with flight := none } } 0 0x1800 0x21 1) 0 0x1800 0x22 1) f := by
  unfold collided
  rw [burstFailed_discards (f := { f with n := f.n + 1, k := _ }) ha]
  rfl

/-! ## ECHO_CHECK and BURST_TIMER -/

/-- An echo that does not end MEDIUM_DOWN changes only the count of bursts without one. -/
theorem echoSeen_up (hm : s.evolu.medium ≠ .down) : echoSeen s = { s with evolu := { s.evolu with noEcho := 0 } } := by
  have hbeq : (s.evolu.medium == .down) = false := beq_eq_false_iff_ne.2 hm
  have hset : (updEvolu s fun e => { e with noEcho := 0, medium := if e.medium == .down then .ok else e.medium }) = { s with evolu := { s.evolu with noEcho := 0 } } := by
    unfold updEvolu
    dsimp only
    rw [hbeq]
    rfl
  unfold echoSeen evoluSet
  rw [hset]
  exact if_pos ⟨rfl, rfl⟩

theorem exec_echoCheck_none (hon : s.power.on = true) (hf : s.evolu.flight = some (h, f)) :
    exec (.echoCheck .none) s = .next (collided { s with evolu := { s.evolu with noEcho := s.evolu.noEcho + 1 } } h f) := by
  have hexec : exec (.echoCheck .none) s = execEchoCheck .none s := rfl
  rw [hexec]
  unfold execEchoCheck
  rw [hf]
  exact powered_on hon _

theorem exec_echoCheck_clean (hon : s.power.on = true) (hf : s.evolu.flight = some (h, f)) :
    exec (.echoCheck .clean) s = .next (updEvolu (echoSeen s) fun e => { e with flight := none }) := by
  have hexec : exec (.echoCheck .clean) s = execEchoCheck .clean s := rfl
  rw [hexec]
  unfold execEchoCheck
  rw [hf]
  exact powered_on hon _

theorem exec_echoCheck_differs (hon : s.power.on = true) (hf : s.evolu.flight = some (h, f)) (g : Nat) : exec (.echoCheck (.differs g)) s =
    .next (if g < 500 then collided (echoSeen s) h f else burstFailed (ctrAdd (echoSeen s) 0 0x1800 0x23 1) h { f with k := 0 }) := by
  have hexec : exec (.echoCheck (.differs g)) s = execEchoCheck (.differs g) s := rfl
  rw [hexec]
  unfold execEchoCheck
  rw [hf]
  exact powered_on hon _

theorem exec_burstTimer (hon : s.power.on = true) (hf : s.evolu.flight = some (h, f)) : exec .burstTimer s =
    .next (burstFailed (ctrAdd (updEvolu s fun e => { e with darkUntil := s.now + 1000000000 }) 0 0x1800 0x23 1) h { f with k := 0 }) := by
  have hexec : exec .burstTimer s = execBurstTimer s := rfl
  rw [hexec]
  unfold execBurstTimer
  rw [hf]
  exact powered_on hon _

/-! ## The medium -/

theorem evoluEvent_but (s t : State) (hbut : SameBut [.evolu] s t) (hst : ∀ i : Fin 8, t.evolu.sessions[i].state = s.evolu.sessions[i].state) :
    SameBut [.evolu] s (evoluEvent s t) ∧ EvoluBut s (evoluEvent s t) t.evolu := by
  refine ⟨sameBut_then hbut (evoluEvent_frames.sameBut [.evolu] rfl) rfl, ?_⟩
  unfold evoluEvent
  split
  · exact ⟨rfl, hst⟩
  · refine ⟨rfl, fun i => Eq.trans ?_ (hst i)⟩
    unfold raiseEvent raiseTo
    simp only [Fin.getElem_fin, Vector.getElem_map]
    split
    · split <;> rfl
    · rfl

end

/-- Settles O52: a burst leaves, and what its echo says of it is done; the medium is set. -/
theorem burstsAndMedium : Obligations.BurstsAndMedium := by
  unfold Obligations.BurstsAndMedium
  intro s hon e
  refine ⟨fun h f rest hmay hsess hq => ?_, fun h f hf => ⟨fun hm => ⟨?_, fun ha g => ⟨fun hg => ?_, fun hg => ?_⟩⟩, fun ha => ⟨?_, ?_⟩, fun ha => ?_⟩, fun hlow => ?_, fun hhigh => ?_, ?_, ?_⟩
  · have hexec := exec_transmit hon hmay hq
    rw [burst_plain hsess] at hexec
    refine ⟨_, hexec, ?_, rfl, ?_, ?_⟩
    · exact Frames.sameBut (m := 548864) (((updEvolu_frames.mono rfl).step updEvolu_frames rfl |>.step ctrAdd_frames rfl).step emit_frames rfl) _ rfl
    · cases h <;> rfl
    · exact ctrGet_add_same s 0 0x1800 0x20 1
  · rw [exec_echoCheck_clean hon hf, echoSeen_up hm]
    rfl
  · have hleft := collided_waits (s := s) (h := h) (e := { e with noEcho := 0 }) ha
    rw [exec_echoCheck_differs hon hf, echoSeen_up hm]
    rw [if_pos hg]
    exact ⟨_, rfl, hleft.but, hleft.counted, hleft.evolu⟩
  · have hleft := burstFailed_counted (s := s) (h := h) (e := { e with noEcho := 0 }) (f := { f with k := 0 }) ha 0x23
    rw [exec_echoCheck_differs hon hf, echoSeen_up hm]
    rw [if_neg (Nat.not_lt.2 hg)]
    exact ⟨_, rfl, hleft.but, hleft.counted, hleft.evolu⟩
  · have hleft := collided_waits (s := s) (h := h) (e := { e with noEcho := e.noEcho + 1 }) ha
    exact ⟨_, exec_echoCheck_none hon hf, hleft.but, hleft.counted, hleft.evolu⟩
  · have hleft := burstFailed_counted (s := s) (h := h) (e := { e with darkUntil := s.now + 1000000000 }) (f := { f with k := 0 }) ha 0x23
    exact ⟨_, exec_burstTimer hon hf, hleft.but, hleft.counted, hleft.evolu⟩
  · have hexec : exec (.echoCheck .none) s = .next (collided { s with evolu := { e with noEcho := e.noEcho + 1 } } h f) := exec_echoCheck_none hon hf
    rw [collided_discards ha] at hexec
    have h22 : ctrGet (ctrAdd (ctrAdd { s with evolu := { e with noEcho := e.noEcho + 1, flight := none } } 0 0x1800 0x21 1) 0 0x1800 0x22 1) 0 0x1800 0x22 =
        (ctrGet s 0 0x1800 0x22 + 1) % 2 ^ 64 := by
      rw [ctrGet_add_same, ctrGet_add_other _ _ _ _ _ _ _ _ (by decide)]
      rfl
    have hbut : SameBut [.evolu, .dict] s (ctrAdd (ctrAdd { s with evolu := { e with noEcho := e.noEcho + 1, flight := none } } 0 0x1800 0x21 1) 0 0x1800 0x22 1) :=
      Frames.sameBut (m := 24576) ((((Frames.refl _ s).set_evolu rfl).step ctrAdd_frames rfl).step ctrAdd_frames rfl) _ rfl
    have hev : (ctrAdd (ctrAdd { s with evolu := { e with noEcho := e.noEcho + 1, flight := none } } 0 0x1800 0x21 1) 0 0x1800 0x22 1).evolu =
        { e with noEcho := e.noEcho + 1, flight := none } := rfl
    generalize ctrAdd (ctrAdd { s with evolu := { e with noEcho := e.noEcho + 1, flight := none } } 0 0x1800 0x21 1) 0 0x1800 0x22 1 = u at hexec h22 hbut hev
    obtain ⟨hfr, hflight, hhq, hnq, hsus⟩ := suspected_keeps u f
    rw [hev] at hflight hhq hnq hsus
    refine ⟨_, hexec, sameBut_then hbut (hfr.sameBut [.evolu] rfl) rfl, hflight, hhq, hnq, ?_, hsus⟩
    unfold ctrGet
    rw [hfr.dict rfl]
    exact h22
  · exact (powered_on hon _).trans (congrArg _ (if_pos hlow))
  · obtain ⟨hbut, hev⟩ := evoluEvent_but s (updEvolu s fun e => { e with medium := .down }) (updEvolu_frames.sameBut _ rfl) fun _ => rfl
    exact ⟨_, (powered_on hon _).trans (congrArg _ (if_neg (Nat.not_lt.2 hhigh))), hbut, hev⟩
  · obtain ⟨hbut, hev⟩ := evoluEvent_but s (updEvolu s fun e => { e with medium := .busy }) (updEvolu_frames.sameBut _ rfl) fun _ => rfl
    exact ⟨_, powered_on hon _, hbut, hev⟩
  · obtain ⟨hbut, hev⟩ := evoluEvent_but s (updEvolu s fun e => { e with medium := if e.medium == .busy then .ok else e.medium }) (updEvolu_frames.sameBut _ rfl) fun _ => rfl
    have hmed : (if s.evolu.medium == .busy then Medium.ok else s.evolu.medium) = if s.evolu.medium = .busy then .ok else s.evolu.medium := by
      cases s.evolu.medium <;> rfl
    refine ⟨_, powered_on hon _, hbut, ?_⟩
    show EvoluBut s _ { s.evolu with medium := if s.evolu.medium = .busy then .ok else s.evolu.medium }
    rw [← hmed]
    exact hev

end Sys2Proof.Machine
end

section
/-! CLOSE of a session discards the change set its requester holds open (R372, R397, R405), and the end of a set is an event for every session that manages
the module and subscribes to such events (R386): the record is queued in that session. -/

namespace Sys2Proof.Machine

open Sys2Proof

/-- State.reset with sessions 0 and 1 open, session 1 of ROLE 0 subscribed to the events of change sets, and the open set held by session 0. -/
def setHolder : State :=
  let opened := updSession (updSession State.reset 0 fun k => { k with state := .opened, sid := 1 }) 1 fun k => { k with state := .opened, sid := 2, mask := 8 }
  { opened with dict := { opened.dict with openSet := some ⟨1, .sess 0 0, false, [], 10000000000⟩ } }

/-- The end of the set queues one record in session 1, which had none. -/
theorem close_setHolder_events : (closeSession setHolder 0).evolu.sessions[(1 : Fin 8)].events.length = 1 ∧ setHolder.evolu.sessions[(1 : Fin 8)].events.length = 0 := by
  decide +kernel

/-- Refutes O54: in `setHolder` the closing of session 0 changes session 1 as well, which the statement has as it was. -/
theorem not_handshakesAndClosing : ¬ Obligations.HandshakesAndClosing := by
  unfold Obligations.HandshakesAndClosing
  intro h
  obtain ⟨-, -, -, hclose⟩ := h setHolder rfl
  obtain ⟨hgone, -⟩ := hclose 0
  obtain ⟨t, hexec, -, -, hother⟩ := hgone (by decide +kernel)
  have hclosed : exec (.close 0) setHolder = .next (closeSession setHolder 0) := powered_on rfl _
  obtain rfl := Host.Outcome.next.inj (hclosed.symm.trans hexec)
  obtain ⟨hone, hnone⟩ := close_setHolder_events
  rw [hother 1 (by decide), hnone] at hone
  exact absurd hone (by decide)

end Sys2Proof.Machine
end

section
/-! Frames of one session: what its requests, responses, acknowledgements and timers leave of the session and of the queues of the medium (R373 to R375, R385, R386). -/

namespace Sys2Proof.Machine

open Sys2Proof

/-! ## A state of which one session and the queues of frames are given -/

/-- `s` with session `i` and the two queues of frames given. -/
def onSession (s : State) (i : Fin 8) (k : Session) (hq nq : List TxFrame) : State :=
  { s with evolu := { s.evolu with sessions := s.evolu.sessions.set i k, hq := hq, nq := nq } }

/-- The bytes of a frame of session `k`. -/
def frameOf (e : Evolu) (k : Session) (service : Nat) (tseq : BitVec 16) (payload : List Byte) : List Byte :=
  let hdr := frameHdr (k.expect - 1).toNat tseq.toNat e.epoch.toNat k.sid.toNat payload.length service e.addr.toNat k.addr.toNat
  sealFrame hdr payload (frameTag k.key hdr payload)

section
variable (s : State) (i : Fin 8) (k : Session) (hq nq : List TxFrame)

theorem onSession_self : onSession s i s.evolu.sessions[i] s.evolu.hq s.evolu.nq = s := by
  unfold onSession
  rw [show s.evolu.sessions.set i s.evolu.sessions[i] = s.evolu.sessions from Vector.set_getElem_self i.isLt]

theorem onSession_session : (onSession s i k hq nq).evolu.sessions[i] = k := Vector.getElem_set_self _

theorem onSession_but : SameBut [.evolu] s (onSession s i k hq nq) := ((Frames.refl _ s).set_evolu (m := 8192) rfl).sameBut _ rfl

theorem onSession_only : SessionOnly s (onSession s i k hq nq) i k := rfl

theorem updSession_onSession (g : Session → Session) : updSession (onSession s i k hq nq) i g = onSession s i (g k) hq nq := by
  unfold updSession
  rw [onSession_session]
  unfold onSession
  dsimp only
  rw [Vector.set_set]

theorem updSession_eq (g : Session → Session) : updSession s i g = onSession s i (g s.evolu.sessions[i]) s.evolu.hq s.evolu.nq :=
  (congrArg (fun t => updSession t i g) (onSession_self s i)).symm.trans (updSession_onSession ..)

/-- A frame of class H leaves and owes no ACK any more. -/
theorem sessSend_reply {service : Nat} (hs : service ≠ 1) (t : BitVec 16) (p : List Byte) : sessSend (onSession s i k hq nq) i service t p =
    onSession s i { k with ackOwed := false } (hq ++ [queued (frameOf s.evolu k service t p) (some (i, t))]) nq := by
  unfold sessSend queueFrame
  dsimp only
  rw [onSession_session, updSession_onSession, show decide (service ≠ 1) = true from decide_eq_true hs]
  rfl

/-- A request leaves in class N. -/
theorem sessSend_request (t : BitVec 16) (p : List Byte) : sessSend (onSession s i k hq nq) i 1 t p =
    onSession s i { k with ackOwed := false } hq (nq ++ [queued (frameOf s.evolu k 1 t p) (some (i, t))]) := by
  unfold sessSend queueFrame
  dsimp only
  rw [onSession_session, updSession_onSession]
  rfl

theorem sendAck_onSession (abort : Nat) : sendAck (onSession s i k hq nq) i abort = onSession s i { k with ackOwed := false }
    (hq ++ [queued (frameOf s.evolu k 3 k.txNext (leBytes 2 abort ++ leBytes 2 k.expect.toNat)) (some (i, k.txNext))]) nq := by
  unfold sendAck
  dsimp only
  rw [onSession_session]
  exact sessSend_reply s i k hq nq (by decide) _ _

/-- A session after a new frame of its own has left. -/
def sentNew (k : Session) (service : Nat) (payload : List Byte) (now : U64) : Session :=
  { k with txNext := k.txNext + 1, unacked := k.unacked ++ [⟨k.txNext, BitVec.ofNat 8 service, payload, 0, now⟩], ackOwed := false }

theorem sessNew_reply (p : List Byte) : sessNew (onSession s i k hq nq) i 2 p =
    onSession s i (sentNew k 2 p s.now) (hq ++ [queued (frameOf s.evolu k 2 k.txNext p) (some (i, k.txNext))]) nq := by
  unfold sessNew
  dsimp only
  rw [onSession_session, updSession_onSession]
  exact sessSend_reply s i _ hq nq (by decide) _ _

theorem sessNew_request (p : List Byte) : sessNew (onSession s i k hq nq) i 1 p =
    onSession s i (sentNew k 1 p s.now) hq (nq ++ [queued (frameOf s.evolu k 1 k.txNext p) (some (i, k.txNext))]) := by
  unfold sessNew
  dsimp only
  rw [onSession_session, updSession_onSession]
  exact sessSend_request s i _ hq nq _ _

/-- With no response that waits, nothing leaves. -/
theorem flushOut_none (hw : k.outWait = []) : flushOut (onSession s i k hq nq) i = onSession s i k hq nq := by
  unfold flushOut flushOutN
  dsimp only
  rw [onSession_session, hw]

/-- A session after its one waiting response has left. -/
def flushedOne (k : Session) (q : BitVec 16) (p : List Byte) (now : U64) : Session :=
  sentNew { k with outWait := [], cache := k.cache.map fun e => if e.tseq = q then { e with reply := some (k.txNext, p) } else e } 2 p now

/-- The one response that waits leaves where the window has room. -/
theorem flushOut_one {q : BitVec 16} {p : List Byte} (hw : k.outWait = [(q, p)]) (hroom : sessRoom k = true) : flushOut (onSession s i k hq nq) i =
    onSession s i (flushedOne k q p s.now) (hq ++ [queued (frameOf s.evolu k 2 k.txNext p) (some (i, k.txNext))]) nq := by
  unfold flushOut flushOutN
  dsimp only
  rw [onSession_session, hw]
  dsimp only
  rw [hroom, if_neg (by decide), updSession_onSession, sessNew_reply]
  unfold flushOutN
  dsimp only
  rw [onSession_session]
  rfl

theorem sendResponse_onSession (hw : k.outWait = []) (hroom : sessRoom k = true) (q : BitVec 16) (p : List Byte) : sendResponse (onSession s i k hq nq) i q p =
    onSession s i (flushedOne k q p s.now) (hq ++ [queued (frameOf s.evolu k 2 k.txNext p) (some (i, k.txNext))]) nq := by
  unfold sendResponse
  rw [updSession_onSession]
  exact flushOut_one s i { k with outWait := k.outWait ++ [(q, p)] } hq nq (congrArg (· ++ [(q, p)]) hw) hroom

/-! ## Acknowledgements -/

theorem rttFold_keeps (now : U64) (l : List SessFrame) (k : Session) :
    let k' := l.foldl (fun k f => rttSample k (now.toNat - f.at_.toNat)) k
    k'.outWait = k.outWait ∧ k'.todo = k.todo ∧ k'.lastRx = k.lastRx ∧ k'.state = k.state ∧ k'.dup = k.dup := by
  induction l generalizing k with
  | nil => exact ⟨rfl, rfl, rfl, rfl, rfl⟩
  | cons f l ih => exact ih _

/-- An ASEQ taken: the frames it acknowledges go, and no part of the session that is named changes. -/
theorem takeAseq_onSession (aseq : BitVec 16) (hw : k.outWait = []) : ∃ k', takeAseq (onSession s i k hq nq) i aseq = onSession s i k' hq nq ∧
    k'.unacked = (k.unacked.filter fun f => !aseqAcks aseq f) ∧ k'.todo = k.todo ∧ k'.lastRx = k.lastRx ∧ k'.state = k.state ∧ k'.dup = k.dup := by
  unfold takeAseq
  dsimp only
  rw [onSession_session]
  by_cases hgone : (k.unacked.filter (aseqAcks aseq)).isEmpty = true
  · rw [if_pos hgone]
    refine ⟨k, rfl, ?_, rfl, rfl, rfl, rfl⟩
    rw [List.isEmpty_iff, List.filter_eq_nil_iff] at hgone
    exact (List.filter_eq_self.2 fun x hx => by simpa using hgone x hx).symm
  · rw [if_neg hgone, updSession_onSession]
    obtain ⟨how, htodo, hrx, hst, hdup⟩ := rttFold_keeps s.now ((k.unacked.filter (aseqAcks aseq)).filter fun f => f.resends = 0) k
    exact ⟨_, flushOut_none s i _ hq nq (how.trans hw), rfl, htodo, hrx, hst, hdup⟩

theorem resent_but : SameBut [.evolu, .dict] s (ctrAdd (onSession s i k hq nq) 0 0x1800 0x27 1) :=
  (((Frames.refl _ s).set_evolu (m := 24576) rfl).step ctrAdd_frames rfl).sameBut _ rfl

theorem resent_counts : ctrGet (ctrAdd (onSession s i k hq nq) 0 0x1800 0x27 1) 0 0x1800 0x27 = (ctrGet s 0 0x1800 0x27 + 1) % 2 ^ 64 :=
  ctrGet_add_same (onSession s i k hq nq) 0 0x1800 0x27 1

theorem resendOldest_onSession {f : SessFrame} {l : List SessFrame} (hcons : k.unacked = f :: l) :
    resendOldest (onSession s i k hq nq) i = resendOne (onSession s i k hq nq) i f := by
  unfold resendOldest
  rw [onSession_session, hcons]

/-- How many ACKs in a row carry an ASEQ, with the one that has just been taken. -/
def ackCount (k : Session) (aseq : BitVec 16) : Nat := if k.unacked.isEmpty then 0 else if k.dup.1 = aseq then k.dup.2 + 1 else 1

/-- An ACK whose ASEQ is in order, of an open session: it acknowledges, and the third in a row sends the oldest frame again. -/
theorem takeAckFrame_onSession {aseq : BitVec 16} (hok : aseqOk k aseq = true) (hopen : k.state = .opened) (hw : k.outWait = []) : ∃ k' : Session,
    k'.unacked = (k.unacked.filter fun f => !aseqAcks aseq f) ∧ k'.lastRx = k.lastRx ∧ k'.state = .opened ∧ k'.dup = k.dup ∧
    takeAckFrame (onSession s i k hq nq) i aseq =
      if ackCount k' aseq = 3 then resendOldest (onSession s i { k' with dup := (aseq, 0) } hq nq) i else onSession s i { k' with dup := (aseq, ackCount k' aseq) } hq nq := by
  obtain ⟨k', htake, hun, -, hrx, hst, hdup⟩ := takeAseq_onSession s i k hq nq aseq hw
  refine ⟨k', hun, hrx, hst.trans hopen, hdup, ?_⟩
  have hwake : wake (onSession s i k hq nq) i = onSession s i k hq nq := by
    unfold wake
    rw [onSession_session, hopen, if_neg (by decide)]
  unfold takeAckFrame
  rw [onSession_session, hok, if_neg (by decide), hwake, htake]
  dsimp only
  rw [onSession_session, updSession_onSession,
    show (if k'.unacked.isEmpty then 0 else if k'.dup.1 = aseq then k'.dup.2 + 1 else 1) = ackCount k' aseq from rfl]
  by_cases hn : ackCount k' aseq = 3
  · rw [if_pos hn, if_pos hn, if_pos hn]
  · rw [if_neg hn, if_neg hn, if_neg hn]

/-- A frame resent. -/
def resentOf (f : SessFrame) (x : SessFrame) : SessFrame := if x.tseq = f.tseq then { x with resends := x.resends + 1 } else x

/-- A frame is sent again, and counted; where it has been resent less than seven times the session stays as it is. -/
theorem resendOne_onSession (f : SessFrame) : ∃ st hq' nq', resendOne (onSession s i k hq nq) i f =
      ctrAdd (onSession s i { k with unacked := k.unacked.map (resentOf f), state := st, ackOwed := false } hq' nq') 0 0x1800 0x27 1 ∧
    (hq' ++ nq').length = (hq ++ nq).length + 1 ∧ (f.resends < 7 → st = k.state) ∧
    (f.service = 1 → nq' = nq ++ [queued (frameOf s.evolu k 1 f.tseq f.payload) (some (i, f.tseq))] ∧ hq' = hq) := by
  unfold resendOne
  dsimp only
  rw [updSession_onSession]
  have hst : f.resends < 7 → (if f.resends + 1 ≥ 8 && k.state == .opened then .suspect else k.state) = k.state := fun h => by
    rw [if_neg]
    simp only [Bool.and_eq_true, decide_eq_true_eq]
    omega
  by_cases hs : f.service.toNat = 1
  · rw [hs, sessSend_request]
    refine ⟨_, _, _, rfl, ?_, hst, fun _ => ⟨rfl, rfl⟩⟩
    simp only [List.length_append, List.length_singleton]
    omega
  · rw [sessSend_reply s i _ hq nq hs]
    refine ⟨_, _, _, rfl, ?_, hst, fun h => absurd (congrArg BitVec.toNat h) hs⟩
    simp only [List.length_append, List.length_singleton]
    omega

theorem subscribed_but (r : Req) (b : List Byte) : SameBut [.evolu, .out] s (emit (onSession s i k hq nq) (.response r b)) :=
  (((Frames.refl _ s).set_evolu (m := 532480) rfl).set_out rfl).sameBut _ rfl

end

/-! ## Bytes of a message -/

theorem leAt_middle (a b c : List Byte) : leAt (a ++ (b ++ c)) a.length b.length = ofLe b := by
  unfold leAt sliceZ
  simp

theorem leAt_svcBytes_op (op abort : Nat) (m : SvcMsg) : leAt (svcBytes op abort m) 0 1 = op % 256 := by
  have h := leAt_middle [] (leBytes 1 op) ([m.mflags] ++ (wordBytes m.ref ++ (leBytes 2 abort ++ (wordBytes m.index ++ ([m.sub] ++ ([0, 0, 0] ++ (wordBytes m.offset ++
    (wordBytes m.aux0 ++ (wordBytes m.aux1 ++ m.data))))))))) 
  rw [leBytes_length, ofLe_leBytes] at h
  simpa only [svcBytes, List.append_assoc, List.nil_append, List.length_nil, Nat.pow_one] using h

theorem leAt_svcBytes_ref (op abort : Nat) (m : SvcMsg) : leAt (svcBytes op abort m) 2 2 = m.ref.toNat := by
  have h := leAt_middle (leBytes 1 op ++ [m.mflags]) (wordBytes m.ref) (leBytes 2 abort ++ (wordBytes m.index ++ ([m.sub] ++ ([0, 0, 0] ++ (wordBytes m.offset ++
    (wordBytes m.aux0 ++ (wordBytes m.aux1 ++ m.data)))))))
  have hlen : (wordBytes m.ref).length = 2 := leBytes_length 2 _
  have hval : ofLe (wordBytes m.ref) = m.ref.toNat := (ofLe_leBytes 2 _).trans (Nat.mod_eq_of_lt m.ref.isLt)
  rw [hlen, hval] at h
  simpa only [svcBytes, List.append_assoc, List.length_append, leBytes_length, List.length_singleton] using h

theorem leAt_svcBytes_abort (op abort : Nat) (m : SvcMsg) : leAt (svcBytes op abort m) 4 2 = abort % 65536 := by
  have h := leAt_middle (leBytes 1 op ++ ([m.mflags] ++ wordBytes m.ref)) (leBytes 2 abort) (wordBytes m.index ++ ([m.sub] ++ ([0, 0, 0] ++ (wordBytes m.offset ++
    (wordBytes m.aux0 ++ (wordBytes m.aux1 ++ m.data))))))
  have hlen : (wordBytes m.ref).length = 2 := leBytes_length 2 _
  rw [leBytes_length, ofLe_leBytes] at h
  simpa only [svcBytes, List.append_assoc, List.length_append, leBytes_length, hlen, List.length_singleton, Nat.reduceAdd, Nat.reducePow] using h

theorem insertBy_length {α : Type} (le : α → α → Bool) (x : α) (l : List α) : (insertBy le x l).length = l.length + 1 := by
  induction l with
  | nil => rfl
  | cons y l ih =>
    unfold insertBy
    split
    · rfl
    · exact congrArg (· + 1) ih

theorem sortBy_length {α : Type} (le : α → α → Bool) (l : List α) : (sortBy le l).length = l.length := by
  induction l with
  | nil => rfl
  | cons x l ih => exact (insertBy_length le x _).trans (congrArg (· + 1) ih)

/-! ## What each command of a session leaves -/

section
variable {s : State} {i : Fin 8}

/-- A mask that is in order is set and answered. -/
theorem svcSubscribe_sets (k : Session) (hq nq : List TxFrame) {m : SvcMsg} (hl : s.pointing.lockstep = true) (hlen : m.data.length = 4) (hmask : leAt m.data 0 4 ≤ 2047) :
    svcSubscribe (onSession s i k hq nq) i m = (onSession s i { k with mask := BitVec.ofNat 32 (leAt m.data 0 4) } hq nq, 0, answer m 0 0 []) := by
  unfold svcSubscribe
  rw [if_neg (by rw [show (onSession s i k hq nq).pointing.lockstep = true from hl]; decide), if_neg (not_not.2 hlen), if_neg (Nat.not_lt.2 hmask), updSession_onSession]

theorem svcSession_subscribe (m : SvcMsg) : svcSession s i 0x21 m = svcSubscribe s i m := rfl

/-- The session of a request of SUBSCRIBE before its response leaves. -/
def subscribed (k : Session) (f : HeldFrame) (mask : Nat) : Session :=
  { k with
    todo := k.todo.filter (fun x => x.tseq ≠ f.tseq), cache := (k.cache ++ [(⟨f.tseq, f.tag, none⟩ : CacheEntry)]).drop (k.cache.length + 1 - 64)
    mask := BitVec.ofNat 32 mask }

theorem runRequest_subscribe {f : HeldFrame} {m : SvcMsg} (hlive : sessLive s.evolu.sessions[i] = true) (hparse : parseMsg f.payload = some (0x21, m)) (hl : s.pointing.lockstep = true)
    (hlen : m.data.length = 4) (hmask : leAt m.data 0 4 ≤ 2047) (hroom : sessRoom s.evolu.sessions[i] = true) (hw : s.evolu.sessions[i].outWait = []) :
    let rsp := svcBytes 0x21 0 { answer m 0 0 [] with ref := f.tseq }
    let k := s.evolu.sessions[i]
    runRequest s i f = onSession s i (flushedOne (subscribed k f (leAt m.data 0 4)) f.tseq rsp s.now)
      (s.evolu.hq ++ [queued (frameOf s.evolu k 2 k.txNext rsp) (some (i, k.txNext))]) s.evolu.nq := by
  intro rsp k
  unfold runRequest
  dsimp only
  rw [hparse]
  dsimp only
  simp only [updSession_eq, svcSession_subscribe, svcSubscribe_sets _ _ _ hl hlen hmask, onSession_session]
  rw [if_neg (by
    have hstays : sessLive (subscribed k f (leAt m.data 0 4)) = true := hlive
    rintro hends
    rw [Bool.or_eq_true, decide_eq_true_eq, Bool.not_eq_true'] at hends
    exact hends.elim (fun h => Bool.noConfusion (hstays.symm.trans h)) fun h => h rfl)]
  exact sendResponse_onSession s i (subscribed k f (leAt m.data 0 4)) _ _ hw hroom f.tseq rsp

theorem exec_request (hon : s.power.on = true) (hlive : sessLive s.evolu.sessions[i] = true) {f : HeldFrame} (hnext : nextRequest s.evolu.sessions[i] f.tseq = some f) :
    exec (.request i f.tseq f.tag f.payload) s = .next (runRequest s i f) := by
  have hexec : exec (.request i f.tseq f.tag f.payload) s = execRequest i f.tseq f.tag f.payload s := rfl
  rw [hexec]
  unfold execRequest
  rw [powered_on hon, hlive, hnext, if_neg (by decide)]
  dsimp only
  rw [if_pos rfl]

/-- The answer to an EVENT is taken, and its REF acknowledges that request. -/
theorem exec_response (hon : s.power.on = true) (hlive : sessLive s.evolu.sessions[i] = true) {tseq : BitVec 16} (msg : List Byte)
    (htodo : ∃ x ∈ s.evolu.sessions[i].todo, x.tseq = tseq ∧ x.service = 2) :
    let ref := BitVec.ofNat 16 (leAt msg 2 2)
    let k := s.evolu.sessions[i]
    let t := onSession s i { k with todo := k.todo.filter fun x => x.tseq ≠ tseq } s.evolu.hq s.evolu.nq
    exec (.response i tseq msg) s = .next (if k.unacked.any fun u => u.tseq = ref && u.service = 1 then takeAseq t i ref else t) := by
  intro ref k t
  have hany : (k.todo.any fun x => decide (x.tseq = tseq) && decide (x.service = 2)) = true := by
    obtain ⟨x, hx, ht, hs⟩ := htodo
    exact List.any_eq_true.2 ⟨x, hx, by rw [ht, hs]; simp⟩
  have hexec : exec (.response i tseq msg) s = execResponse i tseq msg s := rfl
  rw [hexec]
  unfold execResponse
  rw [powered_on hon, hlive, if_neg (by decide)]
  dsimp only
  rw [if_pos hany, hany, if_neg (by decide), updSession_eq]

theorem exec_evoluAck (hon : s.power.on = true) (hlive : sessLive s.evolu.sessions[i] = true) (aseq : BitVec 16) : exec (.evoluAck i aseq) s =
    .next (takeAckFrame (onSession s i { s.evolu.sessions[i] with lastRx := s.now } s.evolu.hq s.evolu.nq) i aseq) := by
  have hexec : exec (.evoluAck i aseq) s = execEvoluAck i aseq s := rfl
  rw [hexec]
  unfold execEvoluAck
  rw [powered_on hon, hlive, if_neg (by decide), updSession_eq]

theorem exec_ackDelay (hon : s.power.on = true) (hlive : sessLive s.evolu.sessions[i] = true) (howed : s.evolu.sessions[i].ackOwed = true) :
    exec (.ackDelay i) s = .next (sendAck s i 0) := by
  have hexec : exec (.ackDelay i) s = execAckDelay i s := rfl
  rw [hexec]
  unfold execAckDelay
  rw [powered_on hon, hlive, howed, if_pos (by decide)]

/-- RTO_EXPIRY of an open session sends its oldest frame again, with RTO doubled. -/
theorem exec_rtoExpiry (hon : s.power.on = true) (hopen : s.evolu.sessions[i].state = .opened) {f : SessFrame} {l : List SessFrame}
    (hun : s.evolu.sessions[i].unacked = f :: l) : exec (.rtoExpiry i) s =
      .next (resendOne (onSession s i { s.evolu.sessions[i] with rto := min 50000000 (2 * s.evolu.sessions[i].rto) } s.evolu.hq s.evolu.nq) i f) := by
  have hlive : sessLive s.evolu.sessions[i] = true := by
    unfold sessLive
    rw [hopen]
    rfl
  have hexec : exec (.rtoExpiry i) s = execRtoExpiry i s := rfl
  rw [hexec]
  unfold execRtoExpiry
  rw [powered_on hon]
  dsimp only
  rw [hlive, if_neg (by rw [hun, List.isEmpty_cons]; decide), updSession_eq, if_pos hopen]
  exact congrArg _ (resendOldest_onSession s i { s.evolu.sessions[i] with rto := min 50000000 (2 * s.evolu.sessions[i].rto) } _ _ hun)

/-- EVENT of a session with room and at most 20 records sends them all. -/
theorem exec_event (hon : s.power.on = true) (hroom : sessRoom s.evolu.sessions[i] = true) (hne : s.evolu.sessions[i].events ≠ [])
    (hlen : s.evolu.sessions[i].events.length ≤ 20) : ∃ data, exec (.event i) s =
      .next (sessNew (onSession s i { s.evolu.sessions[i] with events := [], dropped := 0 } s.evolu.hq s.evolu.nq) i 1 (svcBytes 0x20 0 (SvcMsg.plain data))) := by
  have hexec : exec (.event i) s = execEvent i s := rfl
  refine ⟨?_, ?_⟩
  rotate_left
  · rw [hexec]
    unfold execEvent sendEvents
    rw [powered_on hon]
    dsimp only
    rw [hroom, if_neg (by
      rw [show s.evolu.sessions[i].events.isEmpty = false from List.isEmpty_eq_false_iff.2 hne]
      decide), List.drop_eq_nil_of_le ((sortBy_length _ _).trans_le hlen), updSession_eq]

theorem exec_subscribe (hon : s.power.on = true) (hlive : sessLive s.evolu.sessions[i] = true) {m : SvcMsg} (hl : s.pointing.lockstep = true) (hlen : m.data.length = 4)
    (hmask : leAt m.data 0 4 ≤ 2047) : exec (.subscribe i m) s =
      .next (emit (onSession s i { s.evolu.sessions[i] with mask := BitVec.ofNat 32 (leAt m.data 0 4) } s.evolu.hq s.evolu.nq)
        (.response (.sess i) (svcBytes 0x21 0 (answer m 0 0 [])))) := by
  have hexec : exec (.subscribe i m) s = execSubscribe i m s := rfl
  have hsub := svcSubscribe_sets (s := s) (i := i) s.evolu.sessions[i] s.evolu.hq s.evolu.nq hl hlen hmask
  rw [onSession_self] at hsub
  rw [hexec]
  unfold execSubscribe
  rw [powered_on hon, hlive, if_neg (by decide), hsub]

end

/-! ## The obligation -/

/-- Settles O55: every command of a session leaves `s` with that session and the queues of frames given, and the request, response or ACK that leaves is at their ends. -/
theorem sessionsExchange : Obligations.SessionsExchange := by
  unfold Obligations.SessionsExchange
  intro s i hon hlive k
  refine ⟨?_, ?_, ?_, ?_, ?_, ?_, ?_⟩
  · intro f m hnext hparse hlen hmask hl hopen hroom hw
    have hsess : sessRoom k = true := by
      unfold sessRoom
      rw [hopen, decide_eq_true hroom]
      rfl
    have hrun := runRequest_subscribe (f := f) hlive hparse hl hlen hmask hsess hw
    refine ⟨_, _, _, (exec_request hon hlive hnext).trans (congrArg _ hrun), onSession_but .., onSession_only .., rfl, rfl, rfl, rfl, ?_, ?_, ?_, rfl, rfl⟩
    · exact leAt_svcBytes_op ..
    · exact leAt_svcBytes_ref ..
    · exact leAt_svcBytes_abort ..
  · intro tseq msg htodo hw ref
    have hexec := exec_response hon hlive msg htodo
    by_cases hany : (k.unacked.any fun u => u.tseq = ref && u.service = 1) = true
    · obtain ⟨k', htake, hun, htd, -⟩ := takeAseq_onSession s i { k with todo := k.todo.filter fun x => x.tseq ≠ tseq } s.evolu.hq s.evolu.nq ref hw
      exact ⟨_, k', hexec.trans (congrArg _ ((if_pos hany).trans htake)), onSession_but .., onSession_only .., htd, hun.trans (if_pos hany).symm⟩
    · exact ⟨_, _, hexec.trans (congrArg _ (if_neg hany)), onSession_but .., onSession_only .., rfl, (if_neg hany).symm⟩
  · intro aseq hok hopen hw
    obtain ⟨k', hun, hrx, hst, hdup', htake⟩ := takeAckFrame_onSession s i { k with lastRx := s.now } s.evolu.hq s.evolu.nq hok hopen hw
    have hexec := (exec_evoluAck hon hlive aseq).trans (congrArg _ htake)
    refine ⟨fun hdup => ?_, fun f l hdup hcons hnone => ?_⟩
    · have hn : ackCount k' aseq ≠ 3 := by
        unfold ackCount
        rw [if_neg (show k'.dup.1 ≠ aseq from hdup' ▸ hdup)]
        split <;> decide
      exact ⟨_, _, hexec.trans (congrArg _ (if_neg hn)), onSession_but .., onSession_only .., hun, hrx, hst, rfl, rfl⟩
    · have hsame : k'.unacked = f :: l := by
        rw [hun, ← hcons]
        exact List.filter_eq_self.2 fun x hx => by rw [hnone x hx]; rfl
      have hn : ackCount k' aseq = 3 := by
        unfold ackCount
        rw [hsame, show k'.dup = (aseq, 2) from hdup'.trans hdup]
        exact if_pos rfl
      obtain ⟨st, hq', nq', hres, hgrown, -⟩ := resendOne_onSession s i { k' with dup := (aseq, 0) } s.evolu.hq s.evolu.nq f
      have hlast := resendOldest_onSession s i { k' with dup := (aseq, 0) } s.evolu.hq s.evolu.nq hsame
      refine ⟨_, _, hexec.trans (congrArg _ ((if_pos hn).trans (hlast.trans hres))), resent_but .., onSession_only .., resent_counts .., ?_, rfl⟩
      intro hq
      have hlen := congrArg List.length hq
      change (hq' ++ nq').length = _ at hlen
      omega
  · intro howed
    have hack := sendAck_onSession s i k s.evolu.hq s.evolu.nq 0
    rw [onSession_self] at hack
    exact ⟨_, (exec_ackDelay hon hlive howed).trans (congrArg _ hack), onSession_but .., onSession_only .., rfl, rfl⟩
  · intro f l hopen hcons hres hother
    obtain ⟨st, hq', nq', hone, -, hst, hreq⟩ := resendOne_onSession s i { k with rto := min 50000000 (2 * k.rto) } s.evolu.hq s.evolu.nq f
    have hmap : k.unacked.map (resentOf f) = { f with resends := f.resends + 1 } :: l := by
      rw [hcons, List.map_cons]
      refine congrArg₂ _ (if_pos rfl) ?_
      exact (List.map_congr_left fun x hx => if_neg (hother x hx)).trans (List.map_id _)
    refine ⟨_, (exec_rtoExpiry hon hopen hcons).trans (congrArg _ hone), resent_but .., resent_counts .., ?_, hreq⟩
    rw [← hmap, show k.state = st from (hst hres).symm]
    exact onSession_only ..
  · intro hroom hne hlen
    obtain ⟨data, hexec⟩ := exec_event hon hroom hne hlen
    exact ⟨_, _, _, hexec.trans (congrArg _ (sessNew_request ..)), onSession_but .., onSession_only .., rfl, rfl, rfl, rfl, leAt_svcBytes_op .., rfl, rfl⟩
  · intro m hl hlen hmask
    exact ⟨_, exec_subscribe hon hlive hl hlen hmask, subscribed_but .., onSession_only .., rfl, rfl, _, rfl, leAt_svcBytes_op .., leAt_svcBytes_abort ..⟩

end Sys2Proof.Machine
end

section
/-! Addresses of Evolu and received frames (R361, R366, R367, R373, R381). -/

namespace Sys2Proof.Machine

open Sys2Proof

/-! ## CLAIM and ASSIGN -/

section
variable {s : State}

theorem exec_claim (hon : s.power.on = true) (haddr : s.evolu.addr = 0) : ∃ nonce : BitVec 32, exec .claim s =
    .next (sendPlain (updEvolu { s with free := s.free + 1 } fun e => { e with claim := some nonce }) 0x20 1 0 0 0 0
      (leBytes 8 Config.serial.toNat ++ [s.evolu.hint] ++ wordBytes nonce)) := by
  have hexec : exec .claim s = execClaim s := rfl
  refine ⟨(Config.freeWord s.free).setWidth 32, ?_⟩
  rw [hexec]
  unfold execClaim fresh
  rw [powered_on hon, if_neg (not_not.2 haddr)]

/-- The state with an address given, before its event. -/
def addressed (s : State) (addr : Byte) : State :=
  sendPlain (updEvolu s fun e => { e with addr := BitVec.ofNat 6 addr.toNat, hint := BitVec.ofNat 8 addr.toNat, claim := none }) 0x22 63 0 0 0 s.evolu.epoch.toNat
    (leBytes 8 Config.serial.toNat)

theorem addressed_evolu (addr : Byte) : (addressed s addr).evolu = { s.evolu with
    addr := addr.setWidth 6, hint := addr, claim := none
    nq := s.evolu.nq ++ [queued (plainFrame 0x22 63 0 0 0 s.evolu.epoch.toNat (addr.setWidth 6) (leBytes 8 Config.serial.toNat)) none] } := by
  unfold addressed
  rw [BitVec.ofNat_toNat, BitVec.ofNat_toNat, BitVec.setWidth_eq]
  rfl

theorem takeAssign_gives {nonce : BitVec 32} {addr : Byte} (haddr : s.evolu.addr = 0) (hclaim : s.evolu.claim = some nonce) (hlo : 1 ≤ addr.toNat) (hhi : addr.toNat ≤ 62) :
    takeAssign s 1 Config.serial nonce addr.toNat = evoluEvent s (addressed s addr) := by
  unfold takeAssign
  have hok : ¬((1 ≠ 1 || s.evolu.addr ≠ 0 || Config.serial ≠ Config.serial || s.evolu.claim ≠ some nonce || addr.toNat = 0 || 62 < addr.toNat) = true) := by
    simp only [haddr, hclaim, ne_eq, not_true_eq_false, decide_false, Bool.or_false, Bool.false_or, Bool.or_eq_true, decide_eq_true_eq]
    omega
  exact if_neg hok

theorem takeAssign_refuses {src : BitVec 6} {serial : BitVec 64} {nonce : BitVec 32} {addr : Byte}
    (h : s.evolu.addr ≠ 0 ∨ src ≠ 1 ∨ serial ≠ Config.serial ∨ s.evolu.claim ≠ some nonce ∨ addr = 0 ∨ 62 < addr.toNat) :
    takeAssign s src.toNat serial nonce addr.toNat = s := by
  have hsrc : src ≠ 1 → src.toNat ≠ 1 := fun h h' => h (BitVec.eq_of_toNat_eq h')
  have hzero : addr = 0 → addr.toNat = 0 := congrArg BitVec.toNat
  unfold takeAssign
  refine if_pos ?_
  simp only [Bool.or_eq_true, decide_eq_true_eq]
  tauto

/-! ## ANNOUNCE and the conflict of an address -/

theorem raiseTo_state (t : State) (sees : Session → Bool) (cls code subject : Nat) (payload : List Byte) (j : Fin 8) :
    (raiseTo t sees cls code subject payload).evolu.sessions[j].state = t.evolu.sessions[j].state := by
  unfold raiseTo
  simp only [Fin.getElem_fin, Vector.getElem_map]
  split
  · split <;> rfl
  · rfl

/-- A state whose sessions are as they were, closed ones at least, and whose count of address conflicts is the same. -/
structure OnlyCloses (s t : State) : Prop where
  conflicts : ctrGet t 0 0x1800 0x28 = ctrGet s 0 0x1800 0x28
  closed (j : Fin 8) : s.evolu.sessions[j].state = .closed → t.evolu.sessions[j].state = .closed

theorem OnlyCloses.trans {s t u : State} (h : OnlyCloses s t) (h' : OnlyCloses t u) : OnlyCloses s u :=
  ⟨h'.conflicts.trans h.conflicts, fun j hj => h'.closed j (h.closed j hj)⟩

theorem endOpen_onlyCloses (s : State) (outcome : Nat) : OnlyCloses s (endOpen s outcome) := by
  unfold endOpen
  cases s.dict.openSet with
  | none => exact ⟨rfl, fun _ h => h⟩
  | some o =>
    refine ⟨?_, fun j hj => (raiseTo_state _ _ _ _ _ _ j).trans hj⟩
    refine (ctrGet_same_dict (setEvent_frames.dict rfl) _ _ _).trans ?_
    exact ctrGet_add_other _ _ _ _ _ _ _ _ (by decide)

theorem endOpenOf_onlyCloses (s : State) (mine : Holder → Bool) (outcome : Nat) : OnlyCloses s (endOpenOf s mine outcome) := by
  unfold endOpenOf
  cases s.dict.openSet with
  | none => exact ⟨rfl, fun _ h => h⟩
  | some o =>
    dsimp only
    split
    · exact endOpen_onlyCloses s outcome
    · exact ⟨rfl, fun _ h => h⟩

theorem updSession_closes (s : State) (i : Fin 8) (g : Session → Session) (hg : ∀ k, (g k).state = .closed) :
    OnlyCloses s (updSession s i g) ∧ (updSession s i g).evolu.sessions[i].state = .closed := by
  have hi : (updSession s i g).evolu.sessions[i].state = .closed := (congrArg Session.state (updSession_same s i g)).trans (hg _)
  refine ⟨⟨rfl, fun j hj => ?_⟩, hi⟩
  by_cases hij : j = i
  · subst hij
    exact hi
  · exact (congrArg Session.state (updSession_other s i j g hij)).trans hj

theorem closeSession_onlyCloses (s : State) (i : Fin 8) : OnlyCloses s (closeSession s i) ∧ (closeSession s i).evolu.sessions[i].state = .closed := by
  unfold closeSession
  by_cases hi : s.evolu.sessions[i].state = .closed
  · rw [if_pos hi]
    exact ⟨⟨rfl, fun _ h => h⟩, hi⟩
  · rw [if_neg hi]
    dsimp only
    generalize hu : endOpenOf s _ 2 = u
    have hend : OnlyCloses s u := hu ▸ endOpenOf_onlyCloses s _ 2
    obtain ⟨hcloses, hclosed⟩ := updSession_closes _ i (fun _ => Session.init) fun _ => rfl
    refine ⟨(hend.trans ?_).trans hcloses, hclosed⟩
    exact ⟨rfl, fun _ h => h⟩

theorem closeFold_onlyCloses (l : List (Fin 8)) (s : State) : OnlyCloses s (l.foldl closeSession s) ∧ ∀ j ∈ l, (l.foldl closeSession s).evolu.sessions[j].state = .closed := by
  induction l generalizing s with
  | nil => exact ⟨⟨rfl, fun _ h => h⟩, fun _ h => by cases h⟩
  | cons i l ih =>
    obtain ⟨hone, hi⟩ := closeSession_onlyCloses s i
    obtain ⟨hrest, hl⟩ := ih (closeSession s i)
    refine ⟨hone.trans hrest, fun j hj => ?_⟩
    rcases List.mem_cons.1 hj with rfl | hj
    · exact hrest.closed j hi
    · exact hl j hj

theorem closeAll_onlyCloses (s : State) : OnlyCloses s (closeAll s) ∧ ∀ j : Fin 8, (closeAll s).evolu.sessions[j].state = .closed := by
  unfold closeAll
  obtain ⟨hcloses, hclosed⟩ := closeFold_onlyCloses (List.finRange 8) s
  exact ⟨hcloses, fun j => hclosed j (List.mem_finRange j)⟩

theorem ctrGet_raiseEvent (t : State) (cls code subject p : Nat) (payload : List Byte) (f i b : Nat) :
    ctrGet (raiseEvent t cls code subject p payload) f i b = ctrGet t f i b := ctrGet_same_dict (raiseEvent_frames.dict rfl) f i b

/-- What an address conflict leaves of Evolu: no address, no frame and no session (R367). -/
theorem addressConflict_leaves (haddr : s.evolu.addr ≠ 0) : ∃ u : State, addressConflict s =
      updEvolu u (fun e => { e with addr := 0, hint := 0, claim := none, shakes := [], hq := [], nq := [] }) ∧
    (∀ j : Fin 8, u.evolu.sessions[j].state = .closed) ∧ ctrGet u 0 0x1800 0x28 = (ctrGet s 0 0x1800 0x28 + 1) % 2 ^ 64 := by
  refine ⟨closeAll (raiseEvent (ctrAdd s 0 0x1800 0x28 1) 10 2 0 0x100 (evoluBytes (ctrAdd s 0 0x1800 0x28 1))), if_neg haddr, fun j => ?_, ?_⟩
  · exact (closeAll_onlyCloses _).2 j
  · rw [(closeAll_onlyCloses _).1.conflicts, ctrGet_raiseEvent, ctrGet_add_same]

/-! ## OPEN_REQ beyond its rate -/

theorem takeOpenReq_rate {src : BitVec 6} (hid : BitVec 32) (count : Nat) (seg : List Byte) (hsrc : src ≠ 0)
    (hrecent : (s.evolu.reqTimes.filter fun x => s.now.toNat < x.2.toNat + 1000000000) = s.evolu.reqTimes)
    (hfull : 4 ≤ (s.evolu.reqTimes.filter fun x => x.1 = src).length) : takeOpenReq s src hid 0 count seg = stranger s := by
  unfold takeOpenReq
  rw [hrecent, if_neg hsrc]
  exact if_pos (by rw [decide_eq_true hfull]; rfl)

/-! ## FRAME_RECEIVE -/

theorem exec_frameReceive (hon : s.power.on = true) (b : List Byte) (v : Bool) : exec (.frameReceive b v) s = .next (
    if ownEcho s b then s
    else if v || !frCrcOk b then ctrAdd s 0 0x1800 0x24 1
    else if frDst b ≠ s.evolu.addr.toNat && frDst b ≠ 63 then s
    else if frDst b = 63 && frService b ≠ 0x21 && frService b ≠ 0x22 then s
    else if s.evolu.addr.toNat ≠ 0 && frSrc b = s.evolu.addr.toNat then addressConflict s
    else if frSrc b = 0 && frService b ≠ 0x20 then stranger s
    else if 1 ≤ frService b && frService b ≤ 3 then takeSession s b
    else takePlain s b) := powered_on hon _

theorem frSrc_lt (b : List Byte) : frSrc b < 64 := Nat.mod_lt _ (by decide)

theorem leAt_one_lt (l : List Byte) (off : Nat) : leAt l off 1 < 256 := by
  unfold leAt
  have hlen : (sliceZ l off 1).length = 1 := by simp [sliceZ]
  obtain ⟨x, hx⟩ := List.length_eq_one_iff.1 hlen
  rw [hx]
  exact (Nat.add_zero _).trans_lt x.isLt

/-- A frame that is not the own echo and is whole, for this module, from another address and not from address 0. -/
structure Arrives (s : State) (b : List Byte) : Prop where
  foreign : ownEcho s b = false
  whole : frCrcOk b = true
  here : frDst b = s.evolu.addr.toNat ∧ frDst b ≠ 63 ∨ frDst b = 63 ∧ (frService b = 0x21 ∨ frService b = 0x22)
  other : s.evolu.addr = 0 ∨ frSrc b ≠ s.evolu.addr.toNat

variable {b : List Byte}

/-- What becomes of a frame that arrives: one from address 0 is a stranger's unless it claims; the rest go by their service. -/
theorem exec_frameReceive_arrives (hon : s.power.on = true) (h : Arrives s b) : exec (.frameReceive b false) s = .next (
    if frSrc b = 0 && frService b ≠ 0x20 then stranger s else if 1 ≤ frService b && frService b ≤ 3 then takeSession s b else takePlain s b) := by
  obtain ⟨hforeign, hwhole, hhere, hother⟩ := h
  have hdst : ¬((frDst b ≠ s.evolu.addr.toNat && frDst b ≠ 63) = true) := by
    simp only [Bool.and_eq_true, decide_eq_true_eq]
    tauto
  have hcast : ¬((frDst b = 63 && frService b ≠ 0x21 && frService b ≠ 0x22) = true) := by
    simp only [Bool.and_eq_true, decide_eq_true_eq]
    tauto
  have hown : ¬((s.evolu.addr.toNat ≠ 0 && frSrc b = s.evolu.addr.toNat) = true) := by
    simp only [Bool.and_eq_true, decide_eq_true_eq]
    rintro ⟨hne, heq⟩
    exact hother.elim (fun h => hne (congrArg BitVec.toNat h)) fun h => h heq
  rw [exec_frameReceive hon, hforeign, hwhole, if_neg (by decide), if_neg (by decide), if_neg hdst, if_neg hcast, if_neg hown]

theorem exec_frameReceive_zero (hon : s.power.on = true) (h : Arrives s b) (hsrc : frSrc b = 0) (hserv : frService b ≠ 0x20) :
    exec (.frameReceive b false) s = .next (ctrAdd s 0 0x1800 0x25 1) :=
  (exec_frameReceive_arrives hon h).trans (congrArg _ (if_pos (by rw [decide_eq_true hsrc, decide_eq_true hserv]; rfl)))

theorem exec_frameReceive_session (hon : s.power.on = true) (h : Arrives s b) (hsrc : frSrc b ≠ 0) (hlo : 1 ≤ frService b) (hhi : frService b ≤ 3) :
    exec (.frameReceive b false) s = .next (takeSession s b) := by
  rw [exec_frameReceive_arrives hon h, decide_eq_false hsrc, decide_eq_true hlo, decide_eq_true hhi]
  rfl

theorem exec_frameReceive_plain (hon : s.power.on = true) (h : Arrives s b) (hsrc : frSrc b ≠ 0) (hserv : 3 < frService b) :
    exec (.frameReceive b false) s = .next (takePlain s b) := by
  rw [exec_frameReceive_arrives hon h, decide_eq_false hsrc, decide_eq_false (Nat.not_le.2 hserv), Bool.and_false]
  rfl

/-- A live session has the identifier of a frame. -/
def namesSession (s : State) (b : List Byte) (j : Fin 8) : Prop := sessLive s.evolu.sessions[j] = true ∧ s.evolu.sessions[j].sid.toNat = frSession b

theorem takeSession_unnamed (hnone : ∀ j, ¬namesSession s b j) (hep : s.evolu.epoch.toNat ≤ frEpoch b) : takeSession s b = stranger s := by
  have hfind : (List.finRange 8).find? (fun j => sessLive s.evolu.sessions[j] && s.evolu.sessions[j].sid.toNat = frSession b) = none :=
    List.find?_eq_none.2 fun j _ h => hnone j (by simpa only [namesSession, Bool.and_eq_true, decide_eq_true_eq] using h)
  unfold takeSession
  dsimp only
  rw [hfind]
  exact if_neg (Nat.not_lt.2 hep)

/-- The first session with the identifier judges a frame by its address and its tag. -/
theorem takeSession_named {i : Fin 8} (hi : namesSession s b i) (hfirst : ∀ j : Fin 8, j < i → ¬namesSession s b j) : takeSession s b =
    if frSrc b ≠ s.evolu.sessions[i].addr.toNat || frTag b ≠ frameTag s.evolu.sessions[i].key (b.take 20) (frPayload b) then stranger s else sessionFrame s i b := by
  have hbool (j : Fin 8) : (sessLive s.evolu.sessions[j] && s.evolu.sessions[j].sid.toNat = frSession b) = true ↔ namesSession s b j := by
    rw [Bool.and_eq_true, decide_eq_true_eq]
    rfl
  have hfind : (List.finRange 8).find? (fun j => sessLive s.evolu.sessions[j] && s.evolu.sessions[j].sid.toNat = frSession b) = some i := by
    rw [List.find?_eq_some_iff_getElem]
    refine ⟨(hbool i).2 hi, i.val, by simp, by simp, fun j hj => ?_⟩
    rw [Bool.not_eq_true', Bool.eq_false_iff, List.getElem_finRange]
    exact fun h => hfirst _ hj ((hbool _).1 h)
  unfold takeSession
  dsimp only
  rw [hfind]

/-- An ASSIGN of the right length acts as its row (R366, R367). -/
theorem takePlain_assign (hform : frMalformed b = false) (hserv : frService b = 0x21) (hlen : frLen b = 13) : takePlain s b =
    takeAssign s (frSrc b) (BitVec.ofNat 64 (leAt (frPayload b) 0 8)) (BitVec.ofNat 32 (leAt (frPayload b) 8 4)) (leAt (frPayload b) 12 1) := by
  unfold takePlain
  rw [hform, if_neg (by decide), hserv]
  exact if_pos hlen

/-- An EVOLU_ACK in a session frame acts as its row (R366, R373). -/
theorem sessionFrame_ack {i : Fin 8} (hform : frMalformed b = false) (hserv : frService b = 3) (hep : s.evolu.epoch.toNat ≤ frEpoch b) :
    sessionFrame s i b = takeAckFrame (updSession s i fun k => { k with lastRx := s.now }) i (BitVec.ofNat 16 (frAseq b)) := by
  unfold sessionFrame
  rw [hform]
  exact (if_neg (Nat.not_lt.2 hep)).trans ((if_neg (by decide)).trans (if_pos hserv))

end

/-! ## The obligation -/

/-- Settles O53: the rows of the addresses and of OPEN_REQ, and the case of the row of FRAME_RECEIVE that each frame falls under. -/
theorem addressesAndFrames : Obligations.AddressesAndFrames := by
  unfold Obligations.AddressesAndFrames
  intro s hon e
  refine ⟨?_, ?_, ?_, ?_⟩
  · intro haddr
    obtain ⟨nonce, hexec⟩ := exec_claim hon haddr
    refine ⟨_, nonce, hexec, ?_, ?_⟩
    · exact Frames.sameBut (m := 8194) (((Frames.refl _ s).set_free rfl).set_evolu rfl) _ rfl
    · unfold sendPlain
      rw [show (updEvolu { s with free := s.free + 1 } fun e => { e with claim := some nonce }).evolu.addr = 0 from haddr]
      rfl
  · intro src serial nonce addr
    have hassign : exec (.assign src serial nonce addr) s = .next (takeAssign s src.toNat serial nonce addr.toNat) := powered_on hon _
    have hannounce : exec (.announce src serial) s = .next (takeAnnounce s src.toNat serial) := powered_on hon _
    refine ⟨?_, fun h => hassign.trans (congrArg _ (takeAssign_refuses h)), ?_, ?_⟩
    · rintro haddr rfl rfl hclaim hlo hhi
      obtain ⟨hbut, hevolu⟩ := evoluEvent_but s (addressed s addr) (((Frames.refl _ s).set_evolu (m := 8192) rfl).sameBut _ rfl) fun _ => rfl
      rw [addressed_evolu] at hevolu
      exact ⟨_, hassign.trans (congrArg _ (takeAssign_gives haddr hclaim hlo hhi)), hbut, hevolu⟩
    · intro h
      refine hannounce.trans (congrArg _ (if_neg ?_))
      rw [Bool.and_eq_true, decide_eq_true_eq, decide_eq_true_eq]
      rintro ⟨hsrc, hserial⟩
      exact h.elim (fun h => h (BitVec.eq_of_toNat_eq hsrc)) fun h => hserial h
    · rintro rfl haddr hserial
      obtain ⟨u, hconf, hclosed, hcount⟩ := addressConflict_leaves haddr
      have htake : takeAnnounce s e.addr.toNat serial = addressConflict s := if_pos (by rw [decide_eq_true hserial]; simp [e])
      have hbut : SameBut [.evolu, .dict, .sec] s (addressConflict s) := addressConflict_frames.sameBut _ rfl
      rw [hconf] at hbut
      exact ⟨_, hannounce.trans (congrArg _ (htake.trans hconf)), hbut, rfl, rfl, rfl, rfl, rfl, rfl, hclosed, hcount⟩
  · intro src hid count seg hsrc hrecent hfull
    have hexec : exec (.openReq src hid 0 count seg) s = .next (takeOpenReq s src hid 0 count.toNat seg) := powered_on hon _
    exact hexec.trans (congrArg _ (takeOpenReq_rate hid count.toNat seg hsrc hrecent hfull))
  · intro b
    refine ⟨fun hown v => ?_, fun hown => ?_, fun hown hcrc => ?_, fun hown hcrc hdst hall => ?_, fun hown hcrc hother => ⟨fun hhere hsrc hserv => ?_, ?_⟩, ?_, ?_⟩
    · rw [exec_frameReceive hon, if_pos hown]
    · rw [exec_frameReceive hon, hown, if_neg (by decide)]
      rfl
    · rw [exec_frameReceive hon, hown, hcrc, if_neg (by decide)]
      rfl
    · rw [exec_frameReceive hon, hown, hcrc, if_neg (by decide), if_neg (by decide), decide_eq_true hall, decide_eq_true hdst]
      rfl
    · exact exec_frameReceive_zero hon ⟨hown, hcrc, hhere, hother⟩ hsrc hserv
    · intro hdst hall hsrc hlo hhi
      have hexec := exec_frameReceive_session hon ⟨hown, hcrc, .inl ⟨hdst, hall⟩, hother⟩ hsrc hlo hhi
      refine ⟨fun hnone hep => hexec.trans (congrArg _ (takeSession_unnamed hnone hep)), fun i hi hfirst hbad => ?_⟩
      refine hexec.trans (congrArg _ ((takeSession_named hi hfirst).trans (if_pos ?_)))
      rwa [Bool.or_eq_true, decide_eq_true_eq, decide_eq_true_eq]
    · intro hown hcrc hform hall hserv hlen haddr hsrc
      have hassign : exec (.assign (BitVec.ofNat 6 (frSrc b)) (BitVec.ofNat 64 (leAt (frPayload b) 0 8)) (BitVec.ofNat 32 (leAt (frPayload b) 8 4))
        (BitVec.ofNat 8 (leAt (frPayload b) 12 1))) s = .next _ := powered_on hon _
      rw [BitVec.toNat_ofNat, BitVec.toNat_ofNat, Nat.mod_eq_of_lt (frSrc_lt b), Nat.mod_eq_of_lt (leAt_one_lt _ _)] at hassign
      have hexec := exec_frameReceive_plain hon ⟨hown, hcrc, .inr ⟨hall, .inl hserv⟩, .inl haddr⟩ hsrc (by rw [hserv]; decide)
      exact (hexec.trans (congrArg _ (takePlain_assign hform hserv hlen))).trans hassign.symm
    · intro i hown hcrc hform hdst hall hother hsrc hserv hlive hsid hfirst haddr htag hep
      have hexec := exec_frameReceive_session hon ⟨hown, hcrc, .inl ⟨hdst, hall⟩, .inr hother⟩ hsrc (by rw [hserv]; decide) (by rw [hserv])
      have hack : exec (.evoluAck i (BitVec.ofNat 16 (frAseq b))) s =
          .next (takeAckFrame (updSession s i fun k => { k with lastRx := s.now }) i (BitVec.ofNat 16 (frAseq b))) :=
        (powered_on hon _).trans (congrArg _ (if_neg (by rw [show sessLive s.evolu.sessions[i] = true from hlive]; decide)))
      refine (hexec.trans (congrArg _ ((takeSession_named ⟨hlive, hsid⟩ hfirst).trans ((if_neg ?_).trans (sessionFrame_ack hform hserv hep))))).trans hack.symm
      rw [Bool.or_eq_true, decide_eq_true_eq, decide_eq_true_eq]
      exact fun h => h.elim (fun h => h haddr) fun h => h htag

end Sys2Proof.Machine
end

section
/-! A packet of the Finish leaves at once, however many entries it carries (R241, R291, R345). -/

namespace Sys2Proof.Machine

open Sys2Proof

/-- The kind in the header of a packet, whose length field holds more than a packet can be long (R241). -/
theorem pkType_long {type dst src ctag len msg xtag : Nat} (ht : type < 16) (hl : len < 2 ^ 60) (payload : List Byte) :
    pkType (leBytes 28 (packetHdr type false false dst src ctag len 0 msg xtag) ++ payload) = type := by
  have hd : dst % 2 ^ 17 < 2 ^ 17 := Nat.mod_lt _ (by decide)
  have hs : src % 2 ^ 17 < 2 ^ 17 := Nat.mod_lt _ (by decide)
  have hc : ctag % 2 ^ 16 < 2 ^ 16 := Nat.mod_lt _ (by decide)
  have hm : msg % 2 ^ 32 < 2 ^ 32 := Nat.mod_lt _ (by decide)
  have hx : xtag % 2 ^ 16 < 2 ^ 16 := Nat.mod_lt _ (by decide)
  have hhdr := leAt_append (leBytes 28 (packetHdr type false false dst src ctag len 0 msg xtag)) payload
  rw [leBytes_length, ofLe_leBytes] at hhdr
  unfold pkType
  rw [show pkHdr (leBytes 28 (packetHdr type false false dst src ctag len 0 msg xtag) ++ payload) = _ from hhdr]
  unfold packetHdr place nfld
  simp only [Nat.shiftLeft_eq, Nat.shiftRight_eq_div_pow, Bool.false_eq_true, if_false, Nat.zero_mod]
  omega

section
variable {s : State} {c : Fin 16} {r : Nat} {p : Fin 16}

/-- A packet of VOTE or SYNC that joins an empty queue leaves at once. -/
theorem queuePacket_leaves {w : Queued} (hw : s.rigger.ports[p].waiting = []) (hroom : portRoom s.rigger.ports[p] w.hop w.raw = true) (hrank : pkRank w.hop w.raw = 1) :
    (queuePacket s p w).out = portSends s p w.raw :: s.out := by
  unfold queuePacket
  generalize hU : updPort s p _ = u
  have hport : u.rigger.ports[p] = { s.rigger.ports[p] with waiting := [w] } := by
    rw [← hU, updPort_same, hw]
    rfl
  rw [flushPort_one (w := w) (by rw [hport]) (by rw [hport]; exact hroom) hrank, leaveNow_out]
  unfold portSends
  rw [hport, show u.out = s.out by rw [← hU]; rfl]

/-- The payload of a packet of the Finish (R345). -/
def finPayload (s : State) (c : Fin 16) (kind stroke att term : Nat) (body : List Byte) : List Byte :=
  leBytes 4 kind ++ leBytes 4 s.crews[c].epoch.toNat ++ leBytes 8 stroke ++ leBytes 4 att ++ leBytes 4 term ++ body

/-- A port has room for no packet of more than its 8,192 slots (R249). -/
theorem portRoom_length {k : Port} {hop : Bool} {raw : List Byte} (h : portRoom k hop raw = true) : raw.length < 2 ^ 59 := by
  unfold portRoom pkSlots slotsFor at h
  simp only [Bool.and_eq_true, decide_eq_true_eq] at h
  omega

/-- A packet of the Finish leaves at once and all else is as packets leave it. -/
theorem sendFin_leaves {kind stroke att term : Nat} {body : List Byte} (h : RankPort s c r p (finPacketOf s c r kind stroke att term body)) :
    Sent s (sendFin s c r kind stroke att term body) c ∧
      (sendFin s c r kind stroke att term body).out = portSends s p (finPacketOf s c r kind stroke att term body) :: s.out := by
  obtain ⟨hp, hw, hroom⟩ := h
  refine ⟨sendRank_sent .., ?_⟩
  unfold sendFin
  rw [sendRank_sends (by rw [hp]; rfl)]
  have hlen : (finPayload s c kind stroke att term body).length < 2 ^ 60 := by
    have hraw := portRoom_length hroom
    have happ : finPacketOf s c r kind stroke att term body = leBytes 28 (packetHdr 3 false false (rankMid s c r) (ownMid s) (crewTag s c)
      (finPayload s c kind stroke att term body).length 0 (epochMsg s c) 0) ++ finPayload s c kind stroke att term body := rfl
    rw [happ, List.length_append] at hraw
    omega
  change (sendPacket s (rankMid s c r) 3 none (crewTag s c) 0 (epochMsg s c) 0 (finPayload s c kind stroke att term body) (0, 0)).1.out = _
  have hf : Frames 16384 s (countMiscabled s (rankMid s c r)) := countMiscabled_frames
  have hroutes := sameRoutes_countMiscabled s (rankMid s c r)
  unfold sendPacket
  generalize countMiscabled s (rankMid s c r) = t at hf hroutes
  dsimp only
  rw [hroutes.routePort, hp, show ownMid t = ownMid s from objNat_vals hroutes.vals ..]
  dsimp only
  rw [Option.isSome_none, List.append_nil]
  have hports : t.rigger = s.rigger := hf.rigger rfl
  have hrank : pkRank false (finPacketOf s c r kind stroke att term body) = 1 := by
    have hkind : pkType (finPacketOf s c r kind stroke att term body) = 3 := pkType_long (by decide) hlen _
    unfold pkRank
    rw [hkind, if_neg Bool.false_ne_true, if_pos (by decide)]
  refine (queuePacket_leaves (w := ⟨false, finPacketOf s c r kind stroke att term body, 0, 0⟩) (by rw [hports]; exact hw) (by rw [hports]; exact hroom) hrank).trans ?_
  unfold portSends
  rw [hports, hf.out rfl]

end

end Sys2Proof.Machine
end

section
/-! Votes, arrivals and cuts of the Finish (R330, R338, R340, R345). -/

namespace Sys2Proof.Machine

open Sys2Proof

section
variable {s : State} {c : Fin 16} {h : FinHead}

/-! ## Which packets are taken -/

theorem finPacket_stale (hst : s.crews[c].state ≠ .undefined) (hold : h.epoch ≠ s.crews[c].epoch ∨ h.term.toNat < s.crews[c].term.toNat) (go : State → State) :
    finPacket s c h go = ctrAdd s 0 (crewIdx c) 0x27 1 := by
  unfold finPacket
  dsimp only
  rw [if_neg hst, if_pos (by rwa [Bool.or_eq_true, decide_eq_true_eq, decide_eq_true_eq])]

theorem finPacket_taken (hst : s.crews[c].state ≠ .undefined) (hep : h.epoch = s.crews[c].epoch) (hterm : s.crews[c].term.toNat ≤ h.term.toNat) (go : State → State) :
    finPacket s c h go = castReady (go s) := by
  unfold finPacket
  dsimp only
  rw [if_neg hst, if_neg]
  rw [Bool.or_eq_true, decide_eq_true_eq, decide_eq_true_eq]
  exact fun hbad => hbad.elim (fun hne => hne hep) fun hlt => absurd hlt (Nat.not_lt.2 hterm)

/-- A packet that is taken where nothing follows from what it changes. -/
theorem finMay_takes {t : State} (hm : FinMay s c h) {go : State → State} (hgo : go s = t) (hcalm : Calm t) : finPacket s c h go = t := by
  rw [finPacket_taken hm.state hm.epoch hm.term, hgo]
  exact castReady_of_calm t hcalm

/-- A change of a Crew that leaves what its attempt is recognised by. -/
structure KeepsAttempt (k j : Crew) : Prop where
  attempt : j.attempt = k.attempt
  launch : j.launch = k.launch
  finished : j.lastFinished = k.lastFinished
  fin : j.fin = k.fin
  ops : j.ops = k.ops
  waiting : j.waiting = k.waiting

theorem KeepsAttempt.calm {k j : Crew} (hk : KeepsAttempt k j) (hc : crewCalm k = true) : crewCalm j = true := by
  unfold crewCalm at *
  rw [hk.ops, hk.waiting, hk.attempt, hk.fin]
  exact hc

section
variable {t : State} (hk : KeepsAttempt s.crews[c] t.crews[c])
include hk

theorem finCurrent_kept : finCurrent t c h = finCurrent s c h := by
  unfold finCurrent strokeNum attNum
  rw [hk.attempt, hk.launch]

theorem finFuture_kept : finFuture t c h = finFuture s c h := by
  unfold finFuture strokeNum attNum
  rw [hk.attempt, hk.launch, hk.finished]

end

theorem keepsAttempt_heard (r : Nat) : KeepsAttempt s.crews[c] (noteHeard s c r).crews[c] := by
  obtain ⟨l, hl⟩ := noteHeard_crew s c r
  rw [hl]
  exact ⟨rfl, rfl, rfl, rfl, rfl, rfl⟩

theorem keepsAttempt_updCrew {g : Crew → Crew} (hg : KeepsAttempt s.crews[c] (g s.crews[c])) : KeepsAttempt s.crews[c] (updCrew s c g).crews[c] := by
  rw [updCrew_same]
  exact hg

theorem KeepsAttempt.trans {i j k : Crew} (hi : KeepsAttempt i j) (hj : KeepsAttempt j k) : KeepsAttempt i k :=
  ⟨hj.attempt.trans hi.attempt, hj.launch.trans hi.launch, hj.finished.trans hi.finished, hj.fin.trans hi.fin, hj.ops.trans hi.ops, hj.waiting.trans hi.waiting⟩

/-- The ranks of a group and their leader are read from the committed values and the own rank. -/
theorem group0_heard (r : Nat) : group0 (noteHeard s c r) c = group0 s c ∧ leader0 (noteHeard s c r) c = leader0 s c ∧ myRank (noteHeard s c r) c = myRank s c := by
  have hrank : myRank (noteHeard s c r) c = myRank s c := by
    obtain ⟨l, hl⟩ := noteHeard_crew s c r
    unfold myRank
    rw [hl]
  have hg : crewG (noteHeard s c r) c = crewG s c := crewG_vals rfl c
  unfold group0 leader0
  rw [hrank, hg]
  exact ⟨rfl, rfl, rfl⟩

/-! ## VOTE_PACKET -/

theorem voteUp_unvoted (hfin : s.crews[c].fin ≠ .voting) : voteUp s c = s := by
  unfold voteUp
  split
  · rfl
  · rw [decide_eq_true hfin, Bool.or_true, if_pos rfl]

/-- A vote of a member this one combines, which is not held yet, for the attempt that runs or one to come. -/
theorem exec_votePacket (hm : FinMay s c h) {b : VoteBody} (hl : b.level ∈ levelsIn (crewG s c)) (hs : b.sender ∈ peersAt (crewG s c) (myRank s c) b.level)
    (hmine : ∀ l ∈ levelsIn (crewG s c), l ≤ b.level → digit (crewG s c) (myRank s c) l = 0)
    (hnew : ∀ v ∈ s.crews[c].votes, ¬(v.1 = h.stroke ∧ v.2.1 = h.attempt.toNat ∧ v.2.2.level = b.level ∧ v.2.2.sender = b.sender))
    (hwhen : finCurrent s c h = true ∧ s.crews[c].fin ≠ .voting ∨ finFuture s c h = true ∧ finCurrent s c h = false) :
    exec (.votePacket c h b) s = .next (updCrew (noteHeard s c b.sender) c fun k => { k with votes := k.votes ++ [(h.stroke, h.attempt.toNat, b)] }) := by
  have hkeep := (keepsAttempt_heard (s := s) (c := c) b.sender).trans
    (keepsAttempt_updCrew (g := fun k => { k with votes := k.votes ++ [(h.stroke, h.attempt.toNat, b)] }) ⟨rfl, rfl, rfl, rfl, rfl, rfl⟩)
  have hcalm : Calm (updCrew (noteHeard s c b.sender) c fun k => { k with votes := k.votes ++ [(h.stroke, h.attempt.toNat, b)] }) :=
    calm_updCrew (calm_noteHeard hm.calm c b.sender) ((calm_noteHeard hm.calm c b.sender).1 c)
  have hdigits : (((levelsIn (crewG s c)).filter (· ≤ b.level)).all fun l => digit (crewG s c) (myRank s c) l = 0) = true := by
    rw [List.all_eq_true]
    intro l hl
    obtain ⟨hin, hle⟩ := List.mem_filter.1 hl
    exact decide_eq_true (hmine l hin (of_decide_eq_true hle))
  have hthere : (s.crews[c].votes.any fun v => v.1 = h.stroke && v.2.1 = h.attempt.toNat && v.2.2.level = b.level && v.2.2.sender = b.sender) = false := by
    rw [List.any_eq_false]
    intro v hv hsame
    simp only [Bool.and_eq_true, decide_eq_true_eq] at hsame
    obtain ⟨⟨⟨hst, hat⟩, hlv⟩, hse⟩ := hsame
    exact hnew v hv ⟨hst, hat, hlv, hse⟩
  have hgo : (finCurrent s c h || finFuture s c h) = true := by
    rcases hwhen with ⟨hcur, -⟩ | ⟨hfut, -⟩
    · rw [hcur, Bool.true_or]
    · rw [hfut, Bool.or_true]
  refine (powered_on hm.on _).trans (congrArg _ (finMay_takes hm ?_ hcalm))
  dsimp only
  rw [List.contains_iff_mem.2 hl, List.contains_iff_mem.2 hs, hdigits, hthere, hgo, if_neg (by decide), finCurrent_kept hkeep]
  rcases hwhen with ⟨hcur, hfin⟩ | ⟨-, hcur⟩
  · rw [hcur, if_pos rfl, voteUp_unvoted (by rw [hkeep.fin]; exact hfin)]
  · rw [hcur, if_neg Bool.false_ne_true]

/-! ## ARRIVED -/

/-- ARRIVED of an attempt to come is noted (R340). -/
theorem exec_arrived_early (hm : FinMay s c h) {r : Nat} (hr : r ∈ group0 s c) (hlead : leader0 s c = myRank s c) (hcur : finCurrent s c h = false) (hfut : finFuture s c h = true) :
    exec (.arrived c h r 1) s = .next (updCrew (noteHeard s c r) c fun k => { k with earlyArr := (h.stroke, h.attempt.toNat, r, s.now) :: k.earlyArr }) := by
  have hcalm := calm_noteHeard hm.calm c r
  refine (powered_on hm.on _).trans (congrArg _ (finMay_takes hm ?_ (calm_updCrew hcalm (hcalm.1 c))))
  dsimp only
  rw [List.contains_iff_mem.2 hr, decide_eq_false (not_not.2 hlead), if_neg (by decide), finCurrent_kept (keepsAttempt_heard r), hcur, if_neg Bool.false_ne_true,
    finFuture_kept (keepsAttempt_heard r), hfut, if_pos rfl]
  rfl

/-- A rank that has arrived at the leader while another one has not, before any cut (R338). -/
theorem noteArrived_waits {r : Nat} (hnew : r ∉ s.crews[c].cut.arrived) (hopen : s.crews[c].cut.entries = none) (hreplay : replayCut s c = none)
    (hmore : ∃ m ∈ group0 s c, m ≠ r ∧ m ∉ s.crews[c].cut.arrived) : noteArrived s c r =
      updCrew s c fun k => { k with cut := { k.cut with arrived := k.cut.arrived ++ [r], first := some (k.cut.first.getD s.now) } } := by
  have hnot : s.crews[c].cut.arrived.contains r = false := by simpa using hnew
  unfold noteArrived
  dsimp only
  rw [hnot, if_neg Bool.false_ne_true, hopen]
  dsimp only
  generalize hT : updCrew s c _ = t
  have hcrew : t.crews[c] = { s.crews[c] with cut := { s.crews[c].cut with arrived := s.crews[c].cut.arrived ++ [r], first := some (s.crews[c].cut.first.getD s.now) } } := by
    rw [← hT, updCrew_same]
  have hgroup : group0 t c = group0 s c := by
    unfold group0 myRank
    rw [hcrew, ← hT]
    rfl
  have hrep : replayCut t c = none := by
    unfold replayCut at hreplay ⊢
    rw [hcrew, ← hT]
    exact hreplay
  unfold tryCut
  dsimp only
  split
  · rfl
  · rw [hrep, hgroup]
    refine if_neg fun hall => ?_
    obtain ⟨m, hm, hne, hno⟩ := hmore
    have hone := List.all_eq_true.1 hall m hm
    rw [hcrew] at hone
    simp only [Option.getD_none, List.filter_nil, List.any_nil, Bool.or_false, List.contains_iff_mem, List.mem_append, List.mem_singleton] at hone
    exact hone.elim hno hne

theorem exec_arrived_now (hm : FinMay s c h) {r : Nat} (hr : r ∈ group0 s c) (hlead : leader0 s c = myRank s c) (hcur : finCurrent s c h = true) (hnew : r ∉ s.crews[c].cut.arrived)
    (hopen : s.crews[c].cut.entries = none) (hreplay : replayCut s c = none) (hmore : ∃ m ∈ group0 s c, m ≠ r ∧ m ∉ s.crews[c].cut.arrived) :
    exec (.arrived c h r 1) s =
      .next (updCrew (noteHeard s c r) c fun k => { k with cut := { k.cut with arrived := k.cut.arrived ++ [r], first := some (k.cut.first.getD s.now) } }) := by
  have hcalm := calm_noteHeard hm.calm c r
  obtain ⟨l, hcrew⟩ := noteHeard_crew s c r
  refine (powered_on hm.on _).trans (congrArg _ (finMay_takes hm ?_ (calm_updCrew hcalm (hcalm.1 c))))
  dsimp only
  rw [List.contains_iff_mem.2 hr, decide_eq_false (not_not.2 hlead), if_neg (by decide), finCurrent_kept (keepsAttempt_heard r), hcur, if_pos rfl]
  refine noteArrived_waits (by rw [hcrew]; exact hnew) (by rw [hcrew]; exact hopen) ?_ (by rw [hcrew, (group0_heard r).1]; exact hmore)
  unfold replayCut at hreplay ⊢
  rw [hcrew]
  exact hreplay

/-! ## CUT and the STRAGGLER_DEADLINE -/

/-- With no operation in flight the cut's entries are all that is noted. -/
theorem setCut_free (hops : s.crews[c].ops = []) (es : List (BitVec 128)) : setCut s c es = updCrew s c fun k => { k with cut := { k.cut with entries := some es } } := by
  unfold setCut
  dsimp only
  rw [show (updCrew s c fun k => { k with cut := { k.cut with entries := some es } }).crews[c].ops = [] by rw [updCrew_same]; exact hops]
  split
  · split <;> rfl
  · rfl

theorem exec_cut_now (hm : FinMay s c h) (hlead : leader0 s c ≠ myRank s c) (hcur : finCurrent s c h = true) (hopen : s.crews[c].cut.entries = none) (es : List (BitVec 128)) :
    exec (.cut c h (leader0 s c) es) s = .next (updCrew (noteHeard s c (leader0 s c)) c fun k => { k with cut := { k.cut with entries := some es } }) := by
  have hcalm := calm_noteHeard hm.calm c (leader0 s c)
  obtain ⟨l, hcrew⟩ := noteHeard_crew s c (leader0 s c)
  refine (powered_on hm.on _).trans (congrArg _ (finMay_takes hm ?_ (calm_updCrew hcalm (hcalm.1 c))))
  dsimp only
  rw [decide_eq_false (not_not.2 rfl), decide_eq_false hlead, if_neg (by decide), finCurrent_kept (keepsAttempt_heard _), hcur, if_pos rfl,
    show (noteHeard s c (leader0 s c)).crews[c].cut.entries = none by rw [hcrew]; exact hopen, if_neg (by decide)]
  exact setCut_free (calm_free hcalm c).1 es

theorem exec_cut_early (hm : FinMay s c h) (hlead : leader0 s c ≠ myRank s c) (hcur : finCurrent s c h = false) (hfut : finFuture s c h = true) (es : List (BitVec 128)) :
    exec (.cut c h (leader0 s c) es) s =
      .next (updCrew (noteHeard s c (leader0 s c)) c fun k => { k with earlyCuts := (h.stroke, h.attempt.toNat, es) :: k.earlyCuts }) := by
  have hcalm := calm_noteHeard hm.calm c (leader0 s c)
  refine (powered_on hm.on _).trans (congrArg _ (finMay_takes hm ?_ (calm_updCrew hcalm (hcalm.1 c))))
  dsimp only
  rw [decide_eq_false (not_not.2 rfl), decide_eq_false hlead, if_neg (by decide), finCurrent_kept (keepsAttempt_heard _), hcur, if_neg Bool.false_ne_true,
    finFuture_kept (keepsAttempt_heard _), hfut, if_pos rfl]

/-- The straggler cut's entries of a state (R338). -/
def stragglerEntries (s : State) (c : Fin 16) : List (BitVec 128) :=
  ((group0 s c).filter fun r => !s.crews[c].cut.arrived.contains r).map fun r => lateEntry (stragglerPolicy s c) r 0 0

/-- The CUT of the leader. -/
def cutBody (s : State) (c : Fin 16) (es : List (BitVec 128)) : List Byte := leBytes 4 (myRank s c) ++ leBytes 4 es.length ++ es.flatMap wordBytes

/-- Where one other rank is in the group, the leader's cut is one packet. -/
theorem sendCut_one {r : Nat} (hone : (group0 s c).filter (fun m => m ≠ myRank s c) = [r]) (es : List (BitVec 128)) :
    sendCut s c es = setCut (sendFinNow s c r 0x12 (cutBody s c es)) c es := by
  have hskip : (group0 s c).foldl (fun t m => if m = myRank s c then t else sendFinNow t c m 0x12 (cutBody s c es)) s =
      ((group0 s c).filter fun m => m ≠ myRank s c).foldl (fun t m => sendFinNow t c m 0x12 (cutBody s c es)) s := by
    rw [List.foldl_filter]
    refine congrArg (fun f => (group0 s c).foldl f s) (funext fun t => funext fun m => ?_)
    by_cases hm : m = myRank s c
    · rw [if_pos hm, if_neg (by simpa using hm)]
    · rw [if_neg hm, if_pos (by simpa using hm)]
  unfold sendCut
  dsimp only
  rw [show leBytes 4 (myRank s c) ++ leBytes 4 es.length ++ es.flatMap wordBytes = cutBody s c es from rfl, hskip, hone]
  rfl

/-- The leader cuts who has not arrived. -/
theorem exec_stragglerDeadline {a : Attempt} {first : U64} (hon : s.power.on = true) (ha : s.crews[c].attempt = some a) (hfirst : s.crews[c].cut.first = some first)
    (hopen : s.crews[c].cut.entries = none) (hlead : leader0 s c = myRank s c) (hpol : stragglerPolicy s c ≠ 0) (hreplay : replayEntries s c = none) :
    exec (.stragglerDeadline c) s =
      .next (castReady (sendCut (reach s (first + BitVec.ofNat 64 (1000 * objNat s 0 (crewIdx c) 0x32 5000))) c (stragglerEntries s c))) := by
  have hexec : exec (.stragglerDeadline c) s = execStragglerDeadline c s := rfl
  rw [hexec]
  unfold execStragglerDeadline
  rw [powered_on hon]
  dsimp only
  rw [hfirst, ha]
  dsimp only
  rw [hopen, hreplay, decide_eq_false (not_not.2 hlead), decide_eq_false hpol, if_neg (by decide)]
  have hbut := reach_but s (first + BitVec.ofNat 64 (1000 * objNat s 0 (crewIdx c) 0x32 5000))
  generalize reach s _ = t at hbut
  have hgroup : group0 t c = group0 s c := by
    unfold group0 myRank
    rw [crewG_vals (congrArg Dict.vals (hbut.2 .dict (by decide))) c, show t.crews = s.crews from hbut.2 .crews (by decide)]
  rw [hgroup]
  rfl

end

/-! ## The obligation -/

/-- Settles O50: each packet's row, with nothing that follows in a calm module, and the leader's cut as one packet that leaves at once. -/
theorem votesAndCuts : Obligations.VotesAndCuts := by
  unfold Obligations.VotesAndCuts
  intro s c h
  refine ⟨fun hon hst hold i hi => ?_, fun hm => ⟨?_, ?_, ?_⟩, ?_⟩
  · rcases hi with ⟨b, rfl⟩ | ⟨r, n, rfl⟩ | ⟨l, es, rfl⟩ | ⟨d, e, x, rfl⟩ | ⟨d, e, x, rfl⟩ | ⟨b, rfl⟩ | ⟨r, rfl⟩ | ⟨r, b, rfl⟩ <;>
      exact (powered_on hon _).trans (congrArg _ (finPacket_stale hst hold _))
  · exact fun b hl hs hmine hnew hwhen => exec_votePacket hm hl hs hmine hnew hwhen
  · exact fun r hr hlead => ⟨exec_arrived_early hm hr hlead, exec_arrived_now hm hr hlead⟩
  · exact fun es hlead => ⟨fun hcur hopen => exec_cut_now hm hlead hcur hopen es, fun hcur hfut => exec_cut_early hm hlead hcur hfut es⟩
  · intro a first r q hon hcalm ha hfirst hopen hlead hpol hreplay es raw hone hport
    have hexec := exec_stragglerDeadline hon ha hfirst hopen hlead hpol hreplay
    obtain ⟨hlate, hdue⟩ := reach_now s (first + BitVec.ofNat 64 (1000 * objNat s 0 (crewIdx c) 0x32 5000))
    have hbut := reach_but s (first + BitVec.ofNat 64 (1000 * objNat s 0 (crewIdx c) 0x32 5000))
    generalize reach s _ = t at hexec hlate hdue hbut
    have hv : t.dict.vals = s.dict.vals := congrArg Dict.vals (hbut.2 .dict (by decide))
    have hc : t.crews = s.crews := hbut.2 .crews (by decide)
    have hrank : myRank t c = myRank s c := by
      unfold myRank
      rw [hc]
    have hgroup : group0 t c = group0 s c := by
      unfold group0
      rw [crewG_vals hv c, hrank]
    have hraw : raw = finPacketOf t c r 0x12 (strokeNum t c).toNat (attNum t c) t.crews[c].term.toNat (cutBody t c es) := by
      have hatt : attNum t c = a.number := by
        unfold attNum
        rw [hc, ha]
        rfl
      unfold finPacketOf strokeNum cutBody
      rw [hatt, hrank, rankPacket_same hv hc, hc]
      rfl
    rw [sendCut_one (by rw [hgroup, hrank]; exact hone)] at hexec
    obtain ⟨hsent, hout⟩ := sendFin_leaves (hraw ▸ rankPort_same hv (hbut.2 .rigger (by decide)) hport)
    have hleft : sendFinNow t c r 0x12 (cutBody t c es) = sendFin t c r 0x12 (strokeNum t c).toNat (attNum t c) t.crews[c].term.toNat (cutBody t c es) := rfl
    rw [← hleft] at hsent hout
    change exec (.stragglerDeadline c) s = .next (castReady (setCut (sendFinNow t c r 0x12 (cutBody t c es)) c es)) at hexec
    generalize sendFinNow t c r 0x12 (cutBody t c es) = u at hexec hsent hout
    have hcalm' : Calm u := hsent.calm (calm_of_same s t hc (congrArg HostPort.funcs (hbut.2 .host (by decide))) hcalm)
    obtain ⟨l, hown⟩ := hsent.crews.own
    rw [setCut_free (calm_free hcalm' c).1, castReady_of_calm _ (calm_updCrew hcalm' (hcalm'.1 c))] at hexec
    refine ⟨_, hexec, ?_, ?_, ?_, ?_, ?_, ?_⟩
    · exact sameBut_then (sameBut_trans hbut (hsent.frames.sameBut [.rigger, .crews, .dict, .counters, .out] rfl) _ rfl rfl) (updCrew_but u c _) rfl
    · rw [updCrew_same, hown, hc]
    · intro e he
      rw [updCrew_other _ _ _ _ he, hsent.crews.other he, hc]
    · refine hout.trans ?_
      rw [← hraw]
      unfold portSends
      rw [show t.rigger = s.rigger from hbut.2 .rigger (by decide), show t.out = s.out from hbut.2 .out (by decide)]
    · exact hlate.trans (hsent.frames.now rfl ▸ le_rfl)
    · exact hdue.trans (hsent.frames.now rfl ▸ le_rfl)

end Sys2Proof.Machine
end

section
/-! Decisions of the Finish: how one is held, logged, passed on, asked for and taken over (R328, R331, R333 to R335, R337). -/

namespace Sys2Proof.Machine

open Sys2Proof

/-! ## Packets and changes of one Crew -/

/-- From `s` to `t` Crew `c` has become `k`: every other Crew and the way of every packet are as before, and so is every component but the Crews and
those that send and count. -/
structure Passes (s t : State) (c : Fin 16) (k : Crew) : Prop where
  but : SameBut [.rigger, .crews, .dict, .counters, .out] s t
  routes : SameRoutes s t
  own : t.crews[c] = k
  other : ∀ d, d ≠ c → t.crews[d] = s.crews[d]

section
variable {s t u : State} {c : Fin 16} {j k : Crew} {d : Decision} {h : FinHead}

theorem Passes.trans (h : Passes s t c j) (g : Passes t u c k) : Passes s u c k :=
  ⟨sameBut_then h.but g.but rfl, h.routes.trans g.routes, g.own, fun d hd => (g.other d hd).trans (h.other d hd)⟩

theorem passes_refl (s : State) (c : Fin 16) : Passes s s c s.crews[c] := ⟨sameBut_refl _ _, SameRoutes.refl s, rfl, fun _ _ => rfl⟩

theorem passes_updCrew (s : State) (c : Fin 16) (g : Crew → Crew) : Passes s (updCrew s c g) c (g s.crews[c]) :=
  ⟨sameBut_le (updCrew_but s c g) _ rfl, sameRoutes_of_rigger rfl rfl, updCrew_same s c g, fun d hd => updCrew_other s c d g hd⟩

theorem passes_genBump (s : State) (c : Fin 16) (f idx sub : Nat) : Passes s (genBump s f idx sub) c s.crews[c] :=
  ⟨genBump_frames.sameBut _ rfl, sameRoutes_of_rigger rfl rfl, rfl, fun _ _ => rfl⟩

theorem passes_sent (h : Sent s t c) : ∃ l, Passes s t c { s.crews[c] with sent := l } := by
  obtain ⟨l, hl⟩ := h.crews.own
  exact ⟨l, h.frames.sameBut _ rfl, h.routes, hl, fun d hd => h.crews.other hd⟩

/-- Crew objects are read as they were. -/
theorem Passes.vals (h : Passes s t c k) : t.dict.vals = s.dict.vals := h.routes.vals

theorem Passes.now (h : Passes s t c k) : t.now = s.now := h.but.2 .now (by decide)

theorem Passes.owner (h : Passes s t c k) : crewOwner t c = crewOwner s c := crewOwner_dict h.vals c

theorem Passes.writes (h : Passes s t c k) (hw : NoWritesWait s) : NoWritesWait t := by
  unfold NoWritesWait
  rw [show t.host = s.host from h.but.2 .host (by decide)]
  exact hw

theorem Passes.calm (h : Passes s t c k) (hs : Calm s) (hk : crewCalm k = true) : Calm t := by
  refine ⟨fun d => ?_, h.writes hs.2⟩
  by_cases hd : d = c
  · subst hd
    rw [h.own]
    exact hk
  · rw [h.other d hd]
    exact hs.1 d

theorem passes_heard (s : State) (c : Fin 16) (r : Nat) : ∃ l, Passes s (noteHeard s c r) c { s.crews[c] with heard := l } := ⟨_, passes_updCrew s c _⟩

/-- A packet of the Finish is built and sent alike where the epoch and the way are the same. -/
theorem finPacketOf_passed (h : Passes s t c k) (he : k.epoch = s.crews[c].epoch) (r kind stroke att term : Nat) (body : List Byte) :
    finPacketOf t c r kind stroke att term body = finPacketOf s c r kind stroke att term body := by
  unfold finPacketOf rankPacket ownMid crewTag epochMsg
  rw [rankMid_vals h.vals, objNat_vals h.vals, objNat_vals h.vals, h.own, he]

theorem rankPort_passed (h : Passes s t c k) (hr : t.rigger = s.rigger) {r : Nat} {q : Fin 16} {raw : List Byte} (hp : RankPort s c r q raw) : RankPort t c r q raw :=
  rankPort_same h.vals hr hp

/-! ## A decision is held -/

/-- What holding a decision leaves of a Crew `j` (R337). -/
structure Holds (j k : Crew) (d : Decision) : Prop where
  decision : k.decision = some d
  fin : k.fin = .decided
  decisions : k.decisions = d :: j.decisions
  logged : k.logged = none
  attempt : k.attempt = j.attempt
  ops : k.ops = j.ops
  waiting : k.waiting = j.waiting
  tookOver : k.tookOver = j.tookOver
  term : k.term = if j.term.toNat < d.term.toNat then d.term else j.term

/-- Ranks 0 and 1 log a decision (R331, R334). -/
theorem passes_logDec_logs (hr : myRank s c ≤ 1) (d : Decision) : Passes s (logDec s c d) c
    { s.crews[c] with log := logPut s.crews[c].log (logSince s c) ⟨d.stroke, d.attempt, d.decision, d.cause, d.term, s.now⟩ } := by
  have h := passes_updCrew s c fun k => { k with log := logPut k.log (logSince s c) ⟨d.stroke, d.attempt, d.decision, d.cause, d.term, s.now⟩ }
  unfold logDec
  rw [if_neg (Nat.not_lt.2 hr)]
  generalize updCrew s c _ = t at h
  have hbump := passes_genBump t c 0 (crewIdx c) 0x3F
  rw [h.own] at hbump
  exact h.trans hbump

theorem passes_logDec (s : State) (c : Fin 16) (d : Decision) : ∃ l, Passes s (logDec s c d) c { s.crews[c] with log := l } := by
  by_cases hr : myRank s c ≤ 1
  · exact ⟨_, passes_logDec_logs hr d⟩
  · refine ⟨s.crews[c].log, ?_⟩
    unfold logDec
    rw [if_pos (Nat.lt_of_not_le hr)]
    exact passes_refl s c

/-- An attempt that waits for its decision, which is `d`'s. -/
structure Awaits (s : State) (c : Fin 16) (d : Decision) : Prop where
  fresh : ∀ x ∈ s.crews[c].decisions, ¬(x.stroke = d.stroke ∧ x.attempt = d.attempt)
  launch : s.crews[c].launch.isSome = true
  stroke : strokeNum s c = d.stroke
  number : attNum s c = d.attempt
  fin : s.crews[c].fin = .voting ∨ s.crews[c].fin = .unresolved

theorem holdDecision_holds (hw : Awaits s c d) : ∃ t k, holdDecision s c d = (t, true) ∧ Passes s t c k ∧ Holds s.crews[c] k { d with time := s.now } := by
  have hnone : (s.crews[c].decisions.find? fun x => x.stroke = d.stroke && x.attempt = d.attempt) = none :=
    List.find?_eq_none.2 fun x hx hsame => hw.fresh x hx (by simpa only [Bool.and_eq_true, decide_eq_true_eq] using hsame)
  unfold holdDecision
  dsimp only
  rw [hnone]
  dsimp only
  have h1 := passes_updCrew s c fun k =>
    { k with decisions := { d with time := s.now } :: k.decisions, term := if k.term.toNat < d.term.toNat then d.term else k.term }
  generalize updCrew s c _ = t at h1
  obtain ⟨l, h2⟩ := passes_logDec t c { d with time := s.now }
  rw [h1.own] at h2
  replace h2 := h1.trans h2
  generalize logDec t c _ = u at h2
  have hstroke : strokeNum u c = d.stroke := by
    unfold strokeNum
    rw [h2.own]
    exact hw.stroke
  have hnumber : attNum u c = d.attempt := by
    unfold attNum
    rw [h2.own]
    exact hw.number
  have hfin : (s.crews[c].fin = .voting || s.crews[c].fin = .unresolved) = true := by
    rw [Bool.or_eq_true, decide_eq_true_eq, decide_eq_true_eq]
    exact hw.fin
  rw [hw.launch, hstroke, hnumber, hfin, decide_eq_true rfl, decide_eq_true rfl, if_pos (by decide)]
  have h3 := passes_updCrew u c fun k =>
    { k with decision := some { d with time := s.now }, fin := .decided, logged := none
             votes := k.votes.filter fun v => !(v.1 = d.stroke && v.2.1 ≤ d.attempt) }
  rw [h2.own] at h3
  exact ⟨_, _, rfl, h2.trans h3, ⟨rfl, rfl, rfl, rfl, rfl, rfl, rfl, rfl, rfl⟩⟩

theorem sendDec_sent (s : State) (c : Fin 16) (kind : Nat) (d : Decision) (r : Nat) : Sent s (sendDec s c kind d r) c := sendRank_sent ..

theorem sendDecs_sent (s : State) (c : Fin 16) (kind : Nat) (d : Decision) (rs : List Nat) : Sent s (rs.foldl (fun s r => sendDec s c kind d r) s) c :=
  List.foldlRecOn (motive := fun t => Sent s t c) _ _ (Sent.refl s c) fun t ht r _ => ht.trans (sendDec_sent t c kind d r)

theorem sendDown_sent (s : State) (c : Fin 16) (d : Decision) : Sent s (sendDown s c d) c := by
  unfold sendDown
  exact List.foldlRecOn (motive := fun t => Sent s t c) _ _ (Sent.refl s c) fun t ht l _ => ht.trans (sendDecs_sent t c 0x24 d _)

theorem spreadDec_sent (s : State) (c : Fin 16) (d : Decision) (l : Option Nat) : Sent s (spreadDec s c d l) c := by
  unfold spreadDec
  split
  · exact Sent.refl s c
  · exact sendDecs_sent ..

/-- A decision that is new is held and passed on. -/
theorem takeDecision_holds (hw : Awaits s c d) (l : Option Nat) : ∃ k, Passes s (takeDecision s c d l) c k ∧ Holds s.crews[c] k { d with time := s.now } := by
  obtain ⟨t, k, hhold, hpass, hk⟩ := holdDecision_holds hw
  unfold takeDecision
  rw [hhold]
  dsimp only
  rw [if_pos rfl]
  obtain ⟨q, hsent⟩ := passes_sent ((sendDown_sent t c d).trans (spreadDec_sent _ c d l))
  rw [hpass.own] at hsent
  exact ⟨_, hpass.trans hsent, hk.decision, hk.fin, hk.decisions, hk.logged, hk.attempt, hk.ops, hk.waiting, hk.tookOver, hk.term⟩

/-! ## The VOTE retires -/

/-- A Crew that holds the decision of an attempt whose VOTE alone is in flight, while every other Crew is calm. -/
structure Retires (s : State) (c : Fin 16) (p : Fin 8) (a : Attempt) (v : Cmd) (d : Decision) : Prop where
  others : ∀ e : Fin 16, e ≠ c → crewCalm s.crews[e] = true
  writes : NoWritesWait s
  free : s.crews[c].ops = [] ∧ s.crews[c].waiting = []
  attempt : s.crews[c].attempt = some a
  owner : crewOwner s c = some p
  decision : s.crews[c].decision = some d
  fin : s.crews[c].fin = .decided
  vote : ∃ ki i q, a.voteCmd = some (v, .core c a.number ki i q)
  owed : a.voteOut = false ∧ a.inFlight = 1 ∧ a.ended = false

/-- What the retirement of the VOTE leaves. -/
structure VoteOut (s t : State) (c : Fin 16) (p : Fin 8) (v : Cmd) : Prop where
  but : SameBut [.courses, .host, .crews] s t
  other : ∀ e, e ≠ c → t.crews[e] = s.crews[e]
  own : ∃ b, t.crews[c] = { s.crews[c] with attempt := some b } ∧ b.voteOut = true ∧ b.inFlight = 0 ∧ b.ended = false
  writes : NoWritesWait t
  event : fld v 79 64 ≠ 0 → fld v 79 64 ≤ 4095 → eventCount t (funcOf p) (fld v 79 64) = eventCount s (funcOf p) (fld v 79 64) + 1

theorem retireVote_retires {p : Fin 8} {a : Attempt} {v : Cmd} (h : Retires s c p a v d) : ∃ t, retireVote s c = t ∧ VoteOut s t c p v := by
  obtain ⟨ki, i, q, hv⟩ := h.vote
  obtain ⟨hout, hflight, hended⟩ := h.owed
  obtain ⟨t, ht, hbut, hother, ⟨b, hown, hb, he, -⟩, -, -, hwrites, hev⟩ :=
    retireUnit_ofCore (ki := ki) (i := i) (q := q) h.attempt h.owner 0x54 (fld v 63 32) (fld v 79 64) (voteOutRes d)
  refine ⟨updAttempt t c fun a => { a with voteOut := true }, ?_, sameBut_then hbut (updAttempt_but ..) rfl, fun e hne => ?_, ⟨{ b with voteOut := true }, ?_, rfl, ?_, ?_⟩,
    hwrites h.writes, fun h0 h1 => hev (show Res.okay.cls ≠ .rejected by decide) h0 h1⟩
  · have hquiet : (voteOwed a && attemptQuiet a) = true := by
      unfold attemptQuiet voteOwed
      rw [hv, hout, hflight]
      rfl
    unfold retireVote
    rw [h.attempt, h.decision]
    dsimp only
    rw [hv]
    dsimp only
    rw [hquiet, if_pos rfl, ht]
  · unfold updAttempt
    rw [updCrew_other _ _ _ _ hne]
    exact hother e hne
  · unfold updAttempt
    rw [updCrew_same, hown]
    rfl
  · exact hb.trans (by rw [hflight])
  · exact he.trans hended

/-- Once the decision is held, what follows is that the VOTE retires (R328). -/
theorem castReady_voteOut {p : Fin 8} {a : Attempt} {v : Cmd} (h : Retires s c p a v d) : ∃ t, castReady s = t ∧ VoteOut s t c p v := by
  obtain ⟨t, ht, hout⟩ := retireVote_retires h
  refine ⟨t, castReady_one ?_ h.others hout.other hout.writes, hout⟩
  obtain ⟨b, hown, -, -, hb⟩ := hout.own
  have hnot : s.crews[c].fin ≠ .unresolved := by rw [h.fin]; decide
  unfold settleCrew
  rw [advanceOps_none h.free]
  dsimp only
  rw [h.attempt]
  dsimp only
  rw [h.owed.2.2, if_neg Bool.false_ne_true, castIfReady_none (.inr (.inr (by rw [h.fin]; decide))), decideAlone_resolved hnot, ht]
  exact actIfDecided_undecided (a := b) (by rw [hown]) fun he => absurd (hb.symm.trans he) Bool.false_ne_true

/-- What a Crew waits with for a decision. -/
structure SameWait (j k : Crew) : Prop where
  decisions : k.decisions = j.decisions
  launch : k.launch = j.launch
  attempt : k.attempt = j.attempt
  fin : k.fin = j.fin
  ops : k.ops = j.ops
  waiting : k.waiting = j.waiting

theorem sameWait_heard (j : Crew) (l : List (Nat × U64)) : SameWait j { j with heard := l } := ⟨rfl, rfl, rfl, rfl, rfl, rfl⟩

theorem awaits_of (hz : Passes s t c k) (hk : SameWait s.crews[c] k) {p : Fin 8} {a : Attempt} {v : Cmd} (hw : Waiting s c p a v h) (hd : d.stroke = h.stroke)
    (hn : d.attempt = h.attempt.toNat) : Awaits t c d := by
  obtain ⟨hstroke, hnumber⟩ := hw.current
  refine ⟨?_, ?_, ?_, ?_, ?_⟩
  · rw [hz.own, hk.decisions, hd, hn]
    exact hw.fresh
  · rw [hz.own, hk.launch]
    exact hw.launch
  · unfold strokeNum at hstroke ⊢
    rw [hz.own, hk.launch, hd]
    exact hstroke
  · unfold attNum
    rw [hz.own, hk.attempt, hw.attempt, hn]
    exact hnumber
  · rw [hz.own, hk.fin]
    exact hw.fin

/-- A decision of the attempt that waits for it is held, and the VOTE retires. -/
theorem takeDecision_retires (hz : Passes s t c k) (hk : SameWait s.crews[c] k) {p : Fin 8} {a : Attempt} {v : Cmd} (hw : Waiting s c p a v h) (hd : d.stroke = h.stroke)
    (hn : d.attempt = h.attempt.toNat) (l : Option Nat) :
    ∃ u, castReady (takeDecision t c d l) = u ∧ VoteRetired s u c p v { d with time := s.now } ∧ u.crews[c].logged = none := by
  obtain ⟨j, hpass, hj⟩ := takeDecision_holds (awaits_of hz hk hw hd hn) l
  rw [hz.own, hz.now] at hj
  have hall := hz.trans hpass
  generalize takeDecision t c d l = z at hall
  obtain ⟨u, hu, hout⟩ := castReady_voteOut (s := z) (c := c) (p := p) (a := a) (v := v) (d := { d with time := s.now })
    ⟨fun e he => by rw [hall.other e he]; exact hw.others e he, hall.writes hw.writes, by rw [hall.own, hj.ops, hj.waiting, hk.ops, hk.waiting]; exact hw.free,
      by rw [hall.own, hj.attempt, hk.attempt]; exact hw.attempt, hall.owner.trans hw.owner, by rw [hall.own]; exact hj.decision, by rw [hall.own]; exact hj.fin, hw.vote, hw.owed⟩
  obtain ⟨b, hown, hvo, hfl, -⟩ := hout.own
  have hevents : eventCount z = eventCount s := by
    unfold eventCount
    rw [show z.host = s.host from hall.but.2 .host (by decide)]
  rw [hall.own] at hown
  refine ⟨u, hu, ⟨sameBut_trans hall.but hout.but _ rfl rfl, fun e he => (hout.other e he).trans (hall.other e he), ?_, ?_, ?_, ⟨b, ?_, hvo, hfl⟩, ?_⟩, ?_⟩
  · rw [hown]
    exact hj.decision
  · rw [hown]
    exact hj.fin
  · rw [hown]
    exact hj.decisions.trans (by rw [hk.decisions])
  · rw [hown]
  · rw [← hevents]
    exact hout.event
  · rw [hown]
    exact hj.logged

theorem waiting_takes {p : Fin 8} {a : Attempt} {v : Cmd} (hw : Waiting s c p a v h) (go : State → State) : finPacket s c h go = castReady (go s) :=
  finPacket_taken hw.state hw.epoch hw.term go

theorem exec_logack_retires {p : Fin 8} {a : Attempt} {v : Cmd} (hw : Waiting s c p a v h) {decision cause : Byte} {incl : BitVec 64} (hrank : myRank s c = 0)
    (hl : s.crews[c].logged = some d) (hd : d.stroke = h.stroke) (hn : d.attempt = h.attempt.toNat) (ht : d.term = h.term) (hdec : d.decision = decision.toNat)
    (hc : d.cause = cause.toNat) (hi : d.incl = incl) :
    ∃ t, exec (.logack c h decision cause incl) s = .next t ∧ VoteRetired s t c p v { d with time := s.now } ∧ t.crews[c].logged = none := by
  obtain ⟨l, hheard⟩ := passes_heard s c 1
  have hz := passes_updCrew (noteHeard s c 1) c fun k => { k with logged := none }
  rw [hheard.own] at hz
  obtain ⟨t, hcast, hret, hlog⟩ := takeDecision_retires (d := d) (hheard.trans hz) ⟨rfl, rfl, rfl, rfl, rfl, rfl⟩ hw hd hn none
  refine ⟨t, (powered_on hw.on _).trans (congrArg _ ((waiting_takes hw _).trans ?_)), hret, hlog⟩
  rw [hl]
  dsimp only
  rw [if_pos (by
    simp only [Bool.and_eq_true, decide_eq_true_eq]
    exact ⟨⟨⟨⟨⟨⟨hrank, hd⟩, hn⟩, ht⟩, hdec⟩, hc⟩, hi⟩)]
  exact hcast

theorem exec_decide_retires {p : Fin 8} {a : Attempt} {v : Cmd} (hw : Waiting s c p a v h) {b : DecBody} (hb : b.decision ≠ 0) :
    ∃ t, exec (.decide c h b) s = .next t ∧ VoteRetired s t c p v (bodyDecision h b s.now) := by
  obtain ⟨t, hcast, hret, -⟩ := takeDecision_retires (d := bodyDecision h b s.now) (passes_refl s c) ⟨rfl, rfl, rfl, rfl, rfl, rfl⟩ hw rfl rfl none
  refine ⟨t, (powered_on hw.on _).trans (congrArg _ ((waiting_takes hw _).trans ?_)), hret⟩
  rw [if_neg hb]
  exact hcast

theorem exec_resolve_retires {p : Fin 8} {a : Attempt} {v : Cmd} (hw : Waiting s c p a v h) {b : DecBody} (hb : b.decision ≠ 0) (src : Nat) :
    ∃ t, exec (.resolve c h src b) s = .next t ∧ VoteRetired s t c p v (bodyDecision h b s.now) := by
  obtain ⟨l, hheard⟩ := passes_heard s c src
  obtain ⟨t, hcast, hret, -⟩ := takeDecision_retires (d := bodyDecision h b s.now) hheard (sameWait_heard _ l) hw rfl rfl (peerLevel (noteHeard s c src) c src)
  refine ⟨t, (powered_on hw.on _).trans (congrArg _ ((waiting_takes hw _).trans ?_)), hret⟩
  rw [if_pos hb]
  exact hcast

/-! ## LOG at rank 1 -/

theorem exec_log_logs (hm : FinMay s c h) (hrank : myRank s c = 1) {decision cause : Byte} {incl : BitVec 64} {q : Fin 16} (hdec : decision ≠ 0)
    (hp : RankPort s c 0 q (finPacketOf s c 0 0x23 h.stroke.toNat h.attempt.toNat h.term.toNat ([decision, cause] ++ leBytes 2 0 ++ wordBytes incl))) :
    ∃ t k, exec (.log c h decision cause incl) s = .next t ∧ Passes s t c k ∧ k.logged = some (logDecision s c h decision cause incl) ∧ k.term = h.term ∧
      k.log = logPut s.crews[c].log (logSince s c) ⟨h.stroke, h.attempt.toNat, decision.toNat, cause.toNat, h.term, s.now⟩ ∧
      t.out = portSends s q (finPacketOf s c 0 0x23 h.stroke.toNat h.attempt.toNat h.term.toNat ([decision, cause] ++ leBytes 2 0 ++ wordBytes incl)) :: s.out := by
  obtain ⟨l, hheard⟩ := passes_heard s c 0
  have h1 := passes_updCrew (noteHeard s c 0) c fun k => { k with term := h.term, logged := some (logDecision s c h decision cause incl) }
  rw [hheard.own] at h1
  replace h1 := hheard.trans h1
  have hrig : (updCrew (noteHeard s c 0) c fun k => { k with term := h.term, logged := some (logDecision s c h decision cause incl) }).rigger = s.rigger := rfl
  have hout : (updCrew (noteHeard s c 0) c fun k => { k with term := h.term, logged := some (logDecision s c h decision cause incl) }).out = s.out := rfl
  have hgo : exec (.log c h decision cause incl) s = .next (castReady (sendFin (logDec (updCrew (noteHeard s c 0) c fun k =>
      { k with term := h.term, logged := some (logDecision s c h decision cause incl) }) c (logDecision s c h decision cause incl)) c 0 0x23 h.stroke.toNat h.attempt.toNat h.term.toNat
      ([decision, cause] ++ leBytes 2 0 ++ wordBytes incl))) := by
    refine (powered_on hm.on _).trans (congrArg _ ((finPacket_taken hm.state hm.epoch hm.term _).trans ?_))
    dsimp only
    rw [if_pos (by rw [hrank, decide_eq_true hdec]; rfl)]
  generalize updCrew (noteHeard s c 0) c _ = u at hgo h1 hrig hout
  have hrank1 : myRank u c = 1 := by
    unfold myRank at hrank ⊢
    rw [h1.own]
    exact hrank
  have h2 := passes_logDec_logs hrank1.le (logDecision s c h decision cause incl)
  have hsince : logSince u c = logSince s c := by
    unfold logSince
    rw [h1.own]
  rw [h1.own, hsince, h1.now] at h2
  replace h2 := h1.trans h2
  have hrig2 : (logDec u c (logDecision s c h decision cause incl)).rigger = s.rigger := (logDec_frames.rigger rfl).trans hrig
  have hout2 : (logDec u c (logDecision s c h decision cause incl)).out = s.out := (logDec_frames.out rfl).trans hout
  generalize logDec u c (logDecision s c h decision cause incl) = z at hgo h2 hrig2 hout2
  have hraw := finPacketOf_passed h2 rfl 0 0x23 h.stroke.toNat h.attempt.toNat h.term.toNat ([decision, cause] ++ leBytes 2 0 ++ wordBytes incl)
  have hport := rankPort_passed h2 hrig2 hp
  rw [← hraw] at hport
  obtain ⟨hsent, hleft⟩ := sendFin_leaves hport
  obtain ⟨m, h3⟩ := passes_sent hsent
  rw [h2.own] at h3
  replace h3 := h2.trans h3
  generalize sendFin z c 0 0x23 h.stroke.toNat h.attempt.toNat h.term.toNat _ = y at hgo h3 hleft
  rw [castReady_of_calm _ (h3.calm hm.calm (hm.calm.1 c))] at hgo
  refine ⟨y, _, hgo, h3, rfl, rfl, rfl, ?_⟩
  rw [hleft, hraw, hout2]
  unfold portSends
  rw [hrig2]

/-! ## QUERY and QUERY_TIMER -/

theorem exec_query_answers (hm : FinMay s c h) {src : Nat} {q : Fin 16} (hd : heldDecision s c h.stroke h.attempt.toNat = some d)
    (hp : RankPort s c src q (finPacketOf s c src 0x24 d.stroke.toNat d.attempt s.crews[c].term.toNat (decBytes d))) :
    ∃ t l m, exec (.query c h src) s = .next t ∧ Passes s t c { s.crews[c] with heard := l, sent := m } ∧
      t.out = portSends s q (finPacketOf s c src 0x24 d.stroke.toNat d.attempt s.crews[c].term.toNat (decBytes d)) :: s.out := by
  obtain ⟨l, hheard⟩ := passes_heard s c src
  have hgo : exec (.query c h src) s = .next (castReady (sendFin (noteHeard s c src) c src 0x24 d.stroke.toNat d.attempt s.crews[c].term.toNat (decBytes d))) := by
    have hheld : heldDecision (noteHeard s c src) c h.stroke h.attempt.toNat = some d := by
      unfold heldDecision
      rw [hheard.own]
      exact hd
    refine (powered_on hm.on _).trans (congrArg _ ((finPacket_taken hm.state hm.epoch hm.term _).trans ?_))
    dsimp only
    rw [hheld]
    dsimp only
    unfold sendDec
    rw [hheard.own]
  have hraw := finPacketOf_passed hheard rfl src 0x24 d.stroke.toNat d.attempt s.crews[c].term.toNat (decBytes d)
  have hport := rankPort_passed hheard rfl hp
  rw [← hraw] at hport
  obtain ⟨hsent, hleft⟩ := sendFin_leaves hport
  obtain ⟨m, h2⟩ := passes_sent hsent
  rw [hheard.own] at h2
  replace h2 := hheard.trans h2
  rw [castReady_of_calm _ (h2.calm hm.calm (hm.calm.1 c))] at hgo
  rw [hraw] at hleft
  exact ⟨_, l, m, hgo, h2, hleft⟩

theorem exec_query_asks (hm : FinMay s c h) {src r : Nat} {q : Fin 16} (hd : heldDecision s c h.stroke h.attempt.toNat = none) (hr : combinerOf s c = some r)
    (hp : RankPort s c r q (finPacketOf s c r 0x25 h.stroke.toNat h.attempt.toNat s.crews[c].term.toNat (leBytes 4 (myRank s c)))) :
    ∃ t k, exec (.query c h src) s = .next t ∧ Passes s t c k ∧
      t.out = portSends s q (finPacketOf s c r 0x25 h.stroke.toNat h.attempt.toNat s.crews[c].term.toNat (leBytes 4 (myRank s c))) :: s.out := by
  obtain ⟨l, hheard⟩ := passes_heard s c src
  have hgo : exec (.query c h src) s =
      .next (castReady (sendFin (noteHeard s c src) c r 0x25 h.stroke.toNat h.attempt.toNat s.crews[c].term.toNat (leBytes 4 (myRank s c)))) := by
    have hheld : heldDecision (noteHeard s c src) c h.stroke h.attempt.toNat = none := by
      unfold heldDecision
      rw [hheard.own]
      exact hd
    have hrank : myRank (noteHeard s c src) c = myRank s c := (group0_heard src).2.2
    have hcomb : combinerOf (noteHeard s c src) c = some r := by
      unfold combinerOf
      rw [crewG_vals hheard.vals, hrank]
      exact hr
    refine (powered_on hm.on _).trans (congrArg _ ((finPacket_taken hm.state hm.epoch hm.term _).trans ?_))
    dsimp only
    rw [hheld, hcomb, hrank, hheard.own]
  have hraw := finPacketOf_passed hheard rfl r 0x25 h.stroke.toNat h.attempt.toNat s.crews[c].term.toNat (leBytes 4 (myRank s c))
  have hport := rankPort_passed hheard rfl hp
  rw [← hraw] at hport
  obtain ⟨hsent, hleft⟩ := sendFin_leaves hport
  obtain ⟨m, h2⟩ := passes_sent hsent
  rw [hheard.own] at h2
  replace h2 := hheard.trans h2
  rw [castReady_of_calm _ (h2.calm hm.calm (hm.calm.1 c))] at hgo
  rw [hraw] at hleft
  exact ⟨_, _, hgo, h2, hleft⟩

/-- The time 1 ms after a member's vote. -/
def queryDue (a : Attempt) : U64 := a.tVote + 1000000

/-- QUERY_TIMER asks the combiner for the decision. -/
theorem exec_queryTimer_asks (hon : s.power.on = true) {a : Attempt} (ha : s.crews[c].attempt = some a) {r : Nat} {q : Fin 16} (hr : combinerOf s c = some r)
    (hfin : s.crews[c].fin = .voting)
    (hp : RankPort s c r q (finPacketOf s c r 0x25 (strokeNum s c).toNat a.number s.crews[c].term.toNat (leBytes 4 (myRank s c)))) :
    ∃ u t l, SameBut [.now] s u ∧ s.now.toNat ≤ u.now.toNat ∧ (queryDue a).toNat ≤ u.now.toNat ∧ exec (.queryTimer c) s = .next t ∧
      Passes u t c { s.crews[c] with sent := l } ∧
      t.out = portSends s q (finPacketOf s c r 0x25 (strokeNum s c).toNat a.number s.crews[c].term.toNat (leBytes 4 (myRank s c))) :: s.out := by
  have hexec : exec (.queryTimer c) s = execQueryTimer c s := rfl
  obtain ⟨w, hdef⟩ : ∃ w, queryDue a = w := ⟨_, rfl⟩
  obtain ⟨hlate, hdue⟩ := reach_now s w
  have hbut := reach_but s w
  have hgo : exec (.queryTimer c) s = .next (sendFinNow (reach s w) c r 0x25 (leBytes 4 (myRank s c))) := by
    have hrank : myRank (reach s w) c = myRank s c := by
      unfold myRank
      rw [show (reach s w).crews = s.crews from hbut.2 .crews (by decide)]
    rw [hexec]
    unfold execQueryTimer
    rw [ha, hr, powered_on hon]
    dsimp only
    rw [if_neg (not_not.2 hfin), show a.tVote + 1000000 = w from hdef, hrank]
  rw [hdef]
  generalize reach s w = u at hgo hlate hdue hbut
  have hv : u.dict.vals = s.dict.vals := congrArg Dict.vals (hbut.2 .dict (by decide))
  have hc : u.crews = s.crews := hbut.2 .crews (by decide)
  have hatt : attNum u c = a.number := by
    unfold attNum
    rw [hc, ha]
    rfl
  have hsend : sendFinNow u c r 0x25 (leBytes 4 (myRank s c)) = sendFin u c r 0x25 (strokeNum s c).toNat a.number s.crews[c].term.toNat (leBytes 4 (myRank s c)) := by
    unfold sendFinNow strokeNum
    rw [hatt, hc]
  have hraw : finPacketOf u c r 0x25 (strokeNum s c).toNat a.number s.crews[c].term.toNat (leBytes 4 (myRank s c)) =
      finPacketOf s c r 0x25 (strokeNum s c).toNat a.number s.crews[c].term.toNat (leBytes 4 (myRank s c)) := by
    unfold finPacketOf
    rw [rankPacket_same hv hc, hc]
  have hport := rankPort_same hv (hbut.2 .rigger (by decide)) hp
  rw [← hraw] at hport
  obtain ⟨hsent, hleft⟩ := sendFin_leaves hport
  obtain ⟨m, h2⟩ := passes_sent hsent
  rw [hc] at h2
  rw [hraw] at hleft
  refine ⟨u, _, m, hbut, hlate, hdue, hgo.trans (congrArg _ hsend), h2, hleft.trans ?_⟩
  unfold portSends
  rw [show u.rigger = s.rigger from hbut.2 .rigger (by decide), show u.out = s.out from hbut.2 .out (by decide)]

/-! ## BACKUP_TAKEOVER -/

theorem mkDecision_fields (s : State) (c : Fin 16) (stroke : BitVec 48) (att dec cause : Nat) (upd : BitVec 64) (fault : Nat) (es : List (BitVec 128)) :
    let d := mkDecision s c stroke att dec cause upd fault es
    d.stroke = stroke ∧ d.attempt = att ∧ d.decision = dec ∧ d.cause = cause ∧ d.term = s.crews[c].term := ⟨rfl, rfl, rfl, rfl, rfl⟩

theorem takeOver_aborts {a : Attempt} (ha : s.crews[c].attempt = some a) (hlaunch : s.crews[c].launch.isSome = true) (hfin : s.crews[c].fin = .unresolved)
    (hlog : logEntryOf s c (strokeNum s c) a.number = none) (hfresh : ∀ x ∈ s.crews[c].decisions, ¬(x.stroke = strokeNum s c ∧ x.attempt = a.number)) :
    ∃ k x, Passes s (takeOver s c) c k ∧ k.decision = some x ∧ k.fin = .decided ∧ k.attempt = some a ∧ k.ops = s.crews[c].ops ∧ k.waiting = s.crews[c].waiting ∧
      k.tookOver = true ∧ k.term = nextTerm s.crews[c] ∧ x.stroke = strokeNum s c ∧ x.attempt = a.number ∧ x.decision = 2 ∧ x.cause = 0x0A ∧ x.term = nextTerm s.crews[c] := by
  have hnum : attNum s c = a.number := by
    unfold attNum
    rw [ha]
    rfl
  have h1 := passes_updCrew s c fun k => { k with tookOver := true }
  have hlog1 : logEntryOf (updCrew s c fun k => { k with tookOver := true }) c (strokeNum s c) a.number = none := by
    unfold logEntryOf logSince at hlog ⊢
    rw [updCrew_same]
    exact hlog
  unfold takeOver
  dsimp only
  rw [hnum, hlog1]
  dsimp only
  generalize updCrew s c (fun k => { k with tookOver := true }) = t at h1
  have h2 := passes_updCrew t c fun k => { k with term := nextTerm k }
  rw [h1.own] at h2
  replace h2 := h1.trans h2
  generalize updCrew t c _ = u at h2
  have hterm : nextTerm { s.crews[c] with tookOver := true } = nextTerm s.crews[c] := rfl
  rw [hterm] at h2
  have hstroke : strokeNum u c = strokeNum s c := by
    unfold strokeNum
    rw [h2.own]
  obtain ⟨hds, hdn, hdd, hdc, hdt⟩ := mkDecision_fields u c (strokeNum s c) a.number 2 0x0A 0 0xFFFFFFFF []
  generalize mkDecision u c (strokeNum s c) a.number 2 0x0A 0 0xFFFFFFFF [] = d at hds hdn hdd hdc hdt
  rw [h2.own] at hdt
  obtain ⟨k, hpass, hk⟩ := takeDecision_holds (s := u) (c := c) (d := d)
    ⟨by rw [h2.own, hds, hdn]; exact hfresh, by rw [h2.own]; exact hlaunch, hstroke.trans hds.symm, by unfold attNum; rw [h2.own, ha, hdn]; rfl, by rw [h2.own]; exact .inr hfin⟩ none
  refine ⟨k, _, h2.trans hpass, hk.decision, hk.fin, ?_, ?_, ?_, ?_, ?_, hds, hdn, hdd, hdc, hdt⟩
  · rw [hk.attempt, h2.own]
    exact ha
  · rw [hk.ops, h2.own]
  · rw [hk.waiting, h2.own]
  · rw [hk.tookOver, h2.own]
  · rw [hk.term, hdt, h2.own]
    exact ite_self _

/-- With no VOTE a decision that is held stays for the end of the program. -/
theorem castReady_decided {a : Attempt} (hothers : ∀ e : Fin 16, e ≠ c → crewCalm s.crews[e] = true) (hw : NoWritesWait s) (hfree : s.crews[c].ops = [] ∧ s.crews[c].waiting = [])
    (ha : s.crews[c].attempt = some a) (hended : a.ended = false) (hvote : a.voteCmd = none) (hfin : s.crews[c].fin = .decided) : castReady s = s := by
  refine castReady_one ?_ hothers (fun _ _ => rfl) hw
  have hnot : s.crews[c].fin ≠ .unresolved := by rw [hfin]; decide
  have hretire : retireVote s c = s := by
    unfold retireVote
    rw [ha]
    cases s.crews[c].decision with
    | none => rfl
    | some d =>
      dsimp only
      rw [hvote]
  unfold settleCrew
  rw [advanceOps_none hfree]
  dsimp only
  rw [ha]
  dsimp only
  rw [hended, if_neg Bool.false_ne_true, castIfReady_none (.inr (.inr (by rw [hfin]; decide))), decideAlone_resolved hnot, hretire]
  exact actIfDecided_undecided ha fun he => absurd (hended.symm.trans he) Bool.false_ne_true

end

/-- BACKUP_TAKEOVER of rank 1 in a Crew that recovers with its attempt unresolved. -/
theorem exec_backupTakeover {s : State} {c : Fin 16} (hon : s.power.on = true) (hst : s.crews[c].state = .recovering) (hfin : s.crews[c].fin = .unresolved)
    (hP : 2 ≤ crewP s c) (hrank : myRank s c = 1) : ∃ u, exec (.backupTakeover c) s = .next (castReady (takeOver (reach s u) c)) := by
  refine ⟨_, (powered_on hon _).trans (congrArg _ (if_neg ?_))⟩
  rw [hst, hfin, hrank, decide_eq_false (Nat.not_lt.2 hP)]
  decide

/-! ## The obligation -/

/-- Settles O51: what each row of the decisions leaves of its Crew, with the VOTE that retires once the decision is held and the packets that leave at once. -/
theorem decisionsAreHeld : Obligations.DecisionsAreHeld := by
  unfold Obligations.DecisionsAreHeld
  intro s c h
  refine ⟨?_, ?_, ?_, ?_, ?_⟩
  · intro decision cause incl q hm hrank hdec raw hport
    obtain ⟨t, k, hexec, hpass, hlogged, hterm, hlog, hout⟩ := exec_log_logs hm hrank hdec hport
    exact ⟨t, hexec, hpass.but, hpass.other, by rw [hpass.own]; exact hlogged, by rw [hpass.own]; exact hterm, by rw [hpass.own]; exact hlog, hout⟩
  · intro p a v hw
    refine ⟨fun d decision cause incl hrank hl hd hn ht hdec hc hi => exec_logack_retires hw hrank hl hd hn ht hdec hc hi, fun b hb => ⟨exec_decide_retires hw hb, fun src => ?_⟩⟩
    exact exec_resolve_retires hw hb src
  · intro src q hm
    refine ⟨?_, ?_⟩
    · intro d hd raw hport
      obtain ⟨t, l, m, hexec, hpass, hout⟩ := exec_query_answers hm hd hport
      exact ⟨t, hexec, hpass.but, hout, by rw [hpass.own], by rw [hpass.own]⟩
    · intro r hd hr raw hport
      obtain ⟨t, k, hexec, hpass, hout⟩ := exec_query_asks hm hd hr hport
      exact ⟨t, hexec, hpass.but, hout⟩
  · intro a r q hon ha hr hfin raw hport
    obtain ⟨u, t, l, hbut, hlate, hdue, hexec, hpass, hout⟩ := exec_queryTimer_asks hon ha hr hfin hport
    rw [← hpass.now] at hlate hdue
    exact ⟨t, hexec, sameBut_trans hbut hpass.but _ rfl rfl, hout, hlate, hdue, by rw [hpass.own]; exact hfin⟩
  · intro a hon hothers hwrites hops hwaiting ha hended hvote hlaunch hst hfin hP hrank hlog hfresh
    obtain ⟨w, hexec⟩ := exec_backupTakeover hon hst hfin hP hrank
    obtain ⟨hlate, -⟩ := reach_now s w
    have hbut := reach_but s w
    generalize reach s w = u at hexec hlate hbut
    have hc : u.crews = s.crews := hbut.2 .crews (by decide)
    obtain ⟨k, x, hpass, hdec, hkfin, hka, hkops, hkwait, htook, hterm, hxs, hxn, hxd, hxc, hxt⟩ := takeOver_aborts (s := u) (c := c) (a := a) (by rw [hc]; exact ha) (by rw [hc]; exact hlaunch)
      (by rw [hc]; exact hfin) (by unfold logEntryOf logSince strokeNum at hlog ⊢; rw [hc]; exact hlog) (by unfold strokeNum at hfresh ⊢; rw [hc]; exact hfresh)
    rw [castReady_decided (s := takeOver u c) (c := c) (a := a) (fun e he => by rw [hpass.other e he, hc]; exact hothers e he)
      (hpass.writes (by unfold NoWritesWait; rw [show u.host = s.host from hbut.2 .host (by decide)]; exact hwrites))
      (by rw [hpass.own, hkops, hkwait, hc]; exact ⟨hops, hwaiting⟩) (by rw [hpass.own]; exact hka) hended hvote (by rw [hpass.own]; exact hkfin)] at hexec
    rw [hc] at hterm hxt
    have hstroke : strokeNum u c = strokeNum s c := by
      unfold strokeNum
      rw [hc]
    exact ⟨_, x, hexec, sameBut_trans hbut hpass.but _ rfl rfl, fun e he => (hpass.other e he).trans (by rw [hc]), hlate.trans (congrArg BitVec.toNat hpass.now).symm.le, by rw [hpass.own]; exact hdec,
      hxs.trans hstroke, hxn, hxd, hxc, hxt, by rw [hpass.own]; exact hterm, by rw [hpass.own]; exact hkfin, by rw [hpass.own]; exact htook⟩

end Sys2Proof.Machine
end

section
/-! Clocks, power and temperature samples, references, trips and idle (R425, R427 to R429, R431 to R435). -/

namespace Sys2Proof.Machine

open Sys2Proof

/-! ## What the controls leave of the power state -/

/-- Only the clocks of the domains and the times of their steps differ. -/
def ClocksOnly (p q : Power) : Prop := ∃ a c u l, q = { p with aclk := a, cclk := c, uclk := u, domStep := l }

/-- Beside them, what the cap notes. -/
def CapOnly (p q : Power) : Prop :=
  ∃ a c u l b x y z, q = { p with aclk := a, cclk := c, uclk := u, domStep := l, below := b, capStep := x, capping := y, unmet := z }

/-- Beside the clocks, what the throttle notes. -/
def ThrottleOnly (p q : Power) : Prop :=
  ∃ a c u l b x y, q = { p with aclk := a, cclk := c, uclk := u, domStep := l, cool := b, thrStep := x, throttling := y }

section
variable {s : State} {d : Nat} {up : Bool}

theorem setFreq_clocks (p : Power) (d v : Nat) (l : List U64) : ClocksOnly p { setFreq p d v with domStep := l } := by
  unfold setFreq
  split
  · exact ⟨v, p.cclk, p.uclk, l, rfl⟩
  · split
    · exact ⟨p.aclk, v, p.uclk, l, rfl⟩
    · exact ⟨p.aclk, p.cclk, v, l, rfl⟩

/-- The frequency a step of a domain leads to (R428). -/
def stepTo (p : Power) (d : Nat) (up : Bool) : Nat := if up then min (freqNom d) (freq p d + freqStep d) else max (freqMin d) (freq p d - freqStep d)

/-- The state after a step of a domain. -/
def stepped (s : State) (d : Nat) (up : Bool) : State :=
  ctrAdd (updPower s fun p => { setFreq p d (stepTo s.power d up) with domStep := p.domStep.set d s.now }) 0 0x2300 3 1

/-- No step is due: the domain is at its bound, or has changed within 10 µs. -/
def stepBarred (s : State) (d : Nat) (up : Bool) : Bool :=
  stepTo s.power d up = freq s.power d || (s.power.domStep.getD d 0 ≠ 0 && s.now.toNat < (s.power.domStep.getD d 0).toNat + 10000)

theorem stepClock_eq (s : State) (d : Nat) (up : Bool) : stepClock s d up = if stepBarred s d up then s else stepped s d up := rfl

theorem stepClock_steps (hw : stepTo s.power d up ≠ freq s.power d)
    (hlast : s.power.domStep.getD d 0 = 0 ∨ (s.power.domStep.getD d 0).toNat + 10000 ≤ s.now.toNat) : stepClock s d up = stepped s d up := by
  have hgo : stepBarred s d up = false := by
    unfold stepBarred
    rw [decide_eq_false hw, Bool.false_or]
    rcases hlast with h | h
    · rw [decide_eq_false (not_not.2 h), Bool.false_and]
    · rw [decide_eq_false (Nat.not_lt.2 h), Bool.and_false]
  rw [stepClock_eq, hgo, if_neg Bool.false_ne_true]

theorem stepClock_either (s : State) (d : Nat) (up : Bool) : stepClock s d up = s ∨ stepClock s d up = stepped s d up := by
  rw [stepClock_eq]
  split
  · exact .inl rfl
  · exact .inr rfl

/-- A domain that has changed within 10 µs stays (R428). -/
theorem stepClock_soon (hlast : s.power.domStep.getD d 0 ≠ 0) (hsoon : s.now.toNat < (s.power.domStep.getD d 0).toNat + 10000) : stepClock s d up = s := by
  rw [stepClock_eq]
  refine if_pos ?_
  unfold stepBarred
  rw [decide_eq_true hlast, decide_eq_true hsoon]
  exact Bool.or_true _

theorem stepClock_clocks (s : State) (d : Nat) (up : Bool) : ClocksOnly s.power (stepClock s d up).power := by
  rcases stepClock_either s d up with h | h
  · rw [h]
    exact ⟨s.power.aclk, s.power.cclk, s.power.uclk, s.power.domStep, rfl⟩
  · rw [h]
    exact setFreq_clocks ..

theorem freq_setFreq (p : Power) (d : Fin 3) (v : Nat) (l : List U64) : freq { setFreq p d v with domStep := l } d = v ∧
    ∀ e : Fin 3, e ≠ d → freq { setFreq p d v with domStep := l } e = freq p e := by
  match d with
  | 0 => exact ⟨rfl, fun e he => by match e with | 0 => exact absurd rfl he | 1 => rfl | 2 => rfl⟩
  | 1 => exact ⟨rfl, fun e he => by match e with | 0 => rfl | 1 => exact absurd rfl he | 2 => rfl⟩
  | 2 => exact ⟨rfl, fun e he => by match e with | 0 => rfl | 1 => rfl | 2 => exact absurd rfl he⟩

/-! ## CLOCK_STEP -/

/-- What lowers the clocks: the cap or the throttle. -/
def asksLower (s : State) : Bool := capW s < avgPower s.power || s.power.throttling

theorem asksLower_iff (s : State) : asksLower s = true ↔ capW s < avgPower s.power ∨ s.power.throttling = true := by
  unfold asksLower
  rw [Bool.or_eq_true, decide_eq_true_eq]

theorem exec_clockStep_stays (hon : s.power.on = true) (d : Fin 3) (h : up = asksLower s) : exec (.clockStep d up) s = .next s :=
  (powered_on hon _).trans (congrArg _ (if_pos h))

/-- A step the cap and the throttle allow, at once or 10 µs after the last one of the domain. -/
theorem exec_clockStep_steps (hon : s.power.on = true) (d : Fin 3) (h : up ≠ asksLower s) (hw : stepTo s.power d up ≠ freq s.power d)
    (hroom : s.now.toNat + 10000 < 2 ^ 64) (hlate : (s.power.domStep.getD d 0).toNat ≤ s.now.toNat) :
    ∃ u, SameBut [.now] s u ∧ s.now.toNat ≤ u.now.toNat ∧ (s.power.domStep.getD d 0 ≠ 0 → (s.power.domStep.getD d 0).toNat + 10000 ≤ u.now.toNat) ∧
      exec (.clockStep d up) s = .next (stepped u d up) := by
  have hexec : exec (.clockStep d up) s = .next (stepClock (if s.power.domStep.getD d 0 = 0 then s else reach s (s.power.domStep.getD d 0 + 10000)) d up) :=
    (powered_on hon _).trans (congrArg _ (if_neg h))
  by_cases hlast : s.power.domStep.getD d 0 = 0
  · rw [if_pos hlast, stepClock_steps hw (.inl hlast)] at hexec
    exact ⟨s, sameBut_refl _ _, le_rfl, fun hne => absurd hlast hne, hexec⟩
  · rw [if_neg hlast] at hexec
    obtain ⟨hnow, hdue⟩ := reach_now s (s.power.domStep.getD d 0 + 10000)
    have hbut := reach_but s (s.power.domStep.getD d 0 + 10000)
    have hsum : (s.power.domStep.getD d 0 + 10000).toNat = (s.power.domStep.getD d 0).toNat + 10000 := by
      rw [BitVec.toNat_add, show (10000 : U64).toNat = 10000 from rfl]
      exact Nat.mod_eq_of_lt (by omega)
    rw [hsum] at hdue
    generalize reach s (s.power.domStep.getD d 0 + 10000) = u at hexec hnow hdue hbut
    have hp : u.power = s.power := hbut.2 .power (by decide)
    rw [stepClock_steps (by rw [hp]; exact hw) (.inr (by rw [hp]; exact hdue))] at hexec
    exact ⟨u, hbut, hnow, fun _ => hdue, hexec⟩

end

/-! ## POWER_SAMPLE -/

theorem CapOnly.trans {p q r : Power} (h : CapOnly p q) (g : CapOnly q r) : CapOnly p r := by
  obtain ⟨a, c, u, l, b, x, y, z, rfl⟩ := h
  obtain ⟨a', c', u', l', b', x', y', z', rfl⟩ := g
  exact ⟨a', c', u', l', b', x', y', z', rfl⟩

theorem capOnly_of_clocks {p q : Power} (h : ClocksOnly p q) : CapOnly p q := by
  obtain ⟨a, c, u, l, rfl⟩ := h
  exact ⟨a, c, u, l, p.below, p.capStep, p.capping, p.unmet, rfl⟩

/-- The cap notes what it does in its own fields, and counts nothing of 0x2100:03. -/
structure Capped (s t : State) : Prop where
  cap : CapOnly s.power t.power
  count : ctrGet t 0 0x2100 3 = ctrGet s 0 0x2100 3

theorem Capped.trans {s t u : State} (h : Capped s t) (g : Capped t u) : Capped s u := ⟨h.cap.trans g.cap, g.count.trans h.count⟩

theorem stepClock_capped (s : State) (d : Nat) (up : Bool) : Capped s (stepClock s d up) := by
  refine ⟨capOnly_of_clocks (stepClock_clocks s d up), ?_⟩
  rcases stepClock_either s d up with h | h
  · rw [h]
  · rw [h]
    exact ctrGet_add_other _ _ _ _ _ _ _ _ (by decide)

theorem capStep_capped (s : State) (now : U64) : Capped s (updPower s fun p => { p with capStep := now }) :=
  ⟨⟨s.power.aclk, s.power.cclk, s.power.uclk, s.power.domStep, s.power.below, now, s.power.capping, s.power.unmet, rfl⟩, rfl⟩

/-- A step that the cap takes, with its time noted. -/
def capStep (s : State) (d : Nat) (up : Bool) : State := updPower (stepClock s d up) fun p => { p with capStep := s.now }

theorem capStep_caps (s : State) (d : Nat) (up : Bool) : Capped s (capStep s d up) := (stepClock_capped s d up).trans (capStep_capped _ s.now)

theorem capStep_capping (s : State) (d : Nat) (up : Bool) : (capStep s d up).power.capping = s.power.capping := by
  obtain ⟨a, c, u, l, h⟩ := stepClock_clocks s d up
  change (stepClock s d up).power.capping = _
  rw [h]

theorem stepClock_aclk {d : Nat} (hd : d ≠ 0) (s : State) (up : Bool) : (stepClock s d up).power.aclk = s.power.aclk := by
  rcases stepClock_either s d up with h | h
  · rw [h]
  · rw [h]
    change (setFreq s.power d (stepTo s.power d up)).aclk = _
    unfold setFreq
    rw [if_neg hd]
    split <;> rfl

/-- A step is due 100 µs after the last (R433). -/
def capDue (s : State) : Bool := s.power.capStep = 0 || s.power.capStep.toNat + 100000 ≤ s.now.toNat

/-- Above the cap, before a step. -/
def capAbove (s : State) : State := updPower s fun p => { p with below := 0, capping := true }

theorem capAbove_capped (s : State) : Capped s (capAbove s) :=
  ⟨⟨s.power.aclk, s.power.cclk, s.power.uclk, s.power.domStep, 0, s.power.capStep, true, s.power.unmet, rfl⟩, rfl⟩

/-- The cap's part of a sample above the cap: a step down where one is due, and with every clock at minimum the cap is unmet. -/
theorem capControl_above {s : State} (h : capW s < avgPower s.power) :
    (∃ d, lowerNext s.power [0, 2, 1] = some d ∧ (capControl s = capStep (capAbove s) d false ∨ capControl s = capAbove s)) ∨
      capControl s = updPower (capAbove s) fun p => { p with unmet := true } := by
  have hcap : capControl s = match lowerNext s.power [0, 2, 1] with
      | some d => if capDue s then capStep (capAbove s) d false else capAbove s
      | none => updPower (capAbove s) fun p => { p with unmet := true } := if_pos h
  rw [hcap]
  cases lowerNext s.power [0, 2, 1] with
  | none => exact .inr rfl
  | some d =>
    refine .inl ⟨d, rfl, ?_⟩
    dsimp only
    split
    · exact .inl rfl
    · exact .inr rfl

/-- Samples in a row below 98% of the cap. -/
def capBelowRuns (s : State) : Nat := if 100 * avgPower s.power < 98 * capW s then s.power.below + 1 else 0

/-- Below the cap, before a step. -/
def capBelow (s : State) : State := updPower s fun p => { p with below := capBelowRuns s, unmet := false }

theorem capBelow_capped (s : State) : Capped s (capBelow s) :=
  ⟨⟨s.power.aclk, s.power.cclk, s.power.uclk, s.power.domStep, capBelowRuns s, s.power.capStep, s.power.capping, false, rfl⟩, rfl⟩

/-- The cap's part of a sample below the cap: a step up where one is due, and with every clock at its nominal frequency the cap asks no more. -/
theorem capControl_below {s : State} (h : ¬capW s < avgPower s.power) :
    (capControl s = capBelow s ∨ ∃ d, raiseNext s.power [0, 2, 1] = some d ∧ capControl s = capStep (capBelow s) d true) ∨
      raiseNext s.power [0, 2, 1] = none ∧ capControl s = updPower (capBelow s) fun p => { p with capping := false } := by
  have hcap : capControl s = if capBelowRuns s < 1000 || s.power.throttling then capBelow s else match raiseNext s.power [0, 2, 1] with
      | some d => if capDue s then capStep (capBelow s) d true else capBelow s
      | none => updPower (capBelow s) fun p => { p with capping := false } := if_neg h
  rw [hcap]
  split
  · exact .inl (.inl rfl)
  · cases raiseNext s.power [0, 2, 1] with
    | none => exact .inr ⟨rfl, rfl⟩
    | some d =>
      dsimp only
      split
      · exact .inl (.inr ⟨d, rfl, rfl⟩)
      · exact .inl (.inl rfl)

theorem capControl_caps (s : State) : Capped s (capControl s) := by
  by_cases h : capW s < avgPower s.power
  · rcases capControl_above h with ⟨d, -, h | h⟩ | h
    · rw [h]
      exact (capAbove_capped s).trans (capStep_caps ..)
    · rw [h]
      exact capAbove_capped s
    · rw [h]
      exact (capAbove_capped s).trans ⟨⟨_, _, _, _, _, _, _, true, rfl⟩, rfl⟩
  · rcases capControl_below h with (h | ⟨d, -, h⟩) | ⟨-, h⟩
    · rw [h]
      exact capBelow_capped s
    · rw [h]
      exact (capBelow_capped s).trans (capStep_caps ..)
    · rw [h]
      exact (capBelow_capped s).trans ⟨⟨_, _, _, _, _, _, false, _, rfl⟩, rfl⟩

/-- Above the cap the cap asks for lower frequencies (R433). -/
theorem capControl_asks {s : State} (h : capW s < avgPower s.power) : (capControl s).power.capping = true := by
  rcases capControl_above h with ⟨d, -, h | h⟩ | h
  · rw [h, capStep_capping]
    rfl
  · rw [h]
    rfl
  · rw [h]
    rfl

/-- After ACLK has been halved the cap leaves it, and asks for it still (R433, R434). -/
theorem capControl_halved {s : State} (ha : s.power.aclk = 1000) (hcap : s.power.capping = true) (hstep : s.power.domStep.getD 0 0 = s.now) (hnow : s.now ≠ 0) :
    (capControl s).power.aclk = 1000 ∧ (capControl s).power.capping = true := by
  by_cases h : capW s < avgPower s.power
  · refine ⟨?_, capControl_asks h⟩
    rcases capControl_above h with ⟨d, hd, h | h⟩ | h
    · have hd0 : d ≠ 0 := by
        rintro rfl
        have hlow := List.find?_some hd
        rw [decide_eq_true_eq] at hlow
        exact absurd hlow (by rw [show freq s.power 0 = 1000 from ha]; decide)
      rw [h]
      exact (stepClock_aclk hd0 _ _).trans ha
    · rw [h]
      exact ha
    · rw [h]
      exact ha
  · rcases capControl_below h with (h | ⟨d, -, h⟩) | ⟨hnone, -⟩
    · rw [h]
      exact ⟨ha, hcap⟩
    · rw [h]
      refine ⟨?_, (capStep_capping ..).trans hcap⟩
      by_cases hd : d = 0
      · subst hd
        have hstay : stepClock (capBelow s) 0 true = capBelow s :=
          stepClock_soon (by rw [show (capBelow s).power.domStep.getD 0 0 = s.now from hstep]; exact hnow)
            (by rw [show (capBelow s).power.domStep.getD 0 0 = s.now from hstep]; exact Nat.lt_add_of_pos_right (by decide))
        exact (congrArg (fun t => t.power.aclk) hstay).trans ha
      · exact (stepClock_aclk hd _ _).trans ha
    · have hall := List.find?_eq_none.1 hnone 0 (by decide)
      rw [decide_eq_true_eq, show freq s.power 0 = 1000 from ha] at hall
      exact absurd (show 1000 < freqNom 0 by decide) hall

/-- The instant of the next sample, a multiple of `n` ns. -/
def nextInstant (s : State) (n : Nat) : U64 := BitVec.ofNat 64 ((s.now.toNat / n + 1) * n)

theorem nextInstant_toNat {s : State} {n : Nat} (h : s.now.toNat + n < 2 ^ 64) : (nextInstant s n).toNat = (s.now.toNat / n + 1) * n := by
  unfold nextInstant
  rw [BitVec.toNat_ofNat]
  have hle := Nat.div_mul_le_self s.now.toNat n
  exact Nat.mod_eq_of_lt (by rw [Nat.add_mul, Nat.one_mul]; omega)

/-- The sample taken. -/
def sampled (s : State) (w mv : Nat) : State :=
  updPower { s with now := nextInstant s 10000 } fun p =>
    { p with mv := mv, samples := (w :: p.samples).take 100, energy := p.energy + 10 * w, hiRuns := if 3800 < w then p.hiRuns + 1 else 0
             capTime := if p.capping then p.capTime + 10000 else p.capTime }

/-- ACLK halved and counted, before its event. -/
def halvedClock (s : State) : State :=
  ctrAdd (updPower s fun p => { p with aclk := 1000, hiRuns := 0, capping := true, domStep := p.domStep.set 0 s.now }) 0 0x2100 3 1

/-- The second sample in a row above 3,800 W halves ACLK, with an event (R434). -/
def peaked (s : State) : State := if s.power.hiRuns < 2 then s else raiseEvent (halvedClock s) 1 4 0 0x100 (leBytes 8 (ctrGet (halvedClock s) 0 0x2100 3))

theorem exec_powerSample {s : State} (hon : s.power.on = true) (w mv : Nat) :
    exec (.powerSample w mv) s = .next (powerEvents s (capControl (peaked (sampled s w mv)))) := powered_on hon _

theorem peaked_low {s : State} (h : s.power.hiRuns < 2) : peaked s = s := if_pos h

theorem peaked_high {s : State} (h : ¬s.power.hiRuns < 2) : (peaked s).power = (halvedClock s).power ∧ (peaked s).now = s.now ∧
    ctrGet (peaked s) 0 0x2100 3 = (ctrGet s 0 0x2100 3 + 1) % 2 ^ 64 := by
  have hp : peaked s = raiseEvent (halvedClock s) 1 4 0 0x100 (leBytes 8 (ctrGet (halvedClock s) 0 0x2100 3)) := if_neg h
  rw [hp, ctrGet_raiseEvent]
  exact ⟨raiseEvent_frames.power rfl, raiseEvent_frames.now rfl, ctrGet_add_same _ 0 0x2100 3 1⟩

/-- What a sample leaves in the power state. -/
structure SampleTaken (s t : State) (w mv : Nat) : Prop where
  but : SameBut [.now, .evolu, .dict, .power] s t
  now : t.now = nextInstant s 10000
  mv : t.power.mv = mv
  samples : t.power.samples = (w :: s.power.samples).take 100
  energy : t.power.energy = s.power.energy + 10 * w
  halved : 3800 < w → 1 ≤ s.power.hiRuns → s.power.domStep.length = 3 → (nextInstant s 10000) ≠ 0 →
    t.power.aclk = 1000 ∧ t.power.capping = true ∧ ctrGet t 0 0x2100 3 = (ctrGet s 0 0x2100 3 + 1) % 2 ^ 64
  low : w ≤ 3800 → t.power.hiRuns = 0 ∧ (capW s < avgPower t.power → t.power.capping = true)

theorem powerSample_taken (s : State) (w mv : Nat) : SampleTaken s (powerEvents s (capControl (peaked (sampled s w mv)))) w mv := by
  have h1 : Frames 57345 s (sampled s w mv) := ((Frames.refl _ s).set_now rfl).set_power rfl
  have hpeak : Frames 57344 (sampled s w mv) (peaked (sampled s w mv)) := by
    unfold peaked halvedClock
    split
    · exact Frames.refl _ _
    · exact ((((Frames.refl _ _).set_power rfl).step ctrAdd_frames rfl).step raiseEvent_frames rfl)
  have hframes := ((h1.step hpeak rfl).step capControl_frames rfl).step (powerEvents_frames (s := s)) rfl
  have hvals : (peaked (sampled s w mv)).dict.vals = s.dict.vals := by
    unfold peaked
    split
    · rfl
    · exact (congrArg Dict.vals (raiseEvent_frames.dict rfl)).trans rfl
  have hcapW : capW (peaked (sampled s w mv)) = capW s := objNat_vals hvals ..
  have hpow : ∀ t, (powerEvents s t).power = t.power := fun t => powerEvents_frames.power rfl
  have hctr : ∀ t, ctrGet (powerEvents s t) 0 0x2100 3 = ctrGet t 0 0x2100 3 := fun t => ctrGet_same_dict (powerEvents_frames.dict rfl) _ _ _
  have hnow : (powerEvents s (capControl (peaked (sampled s w mv)))).now = (peaked (sampled s w mv)).now := (powerEvents_frames.now rfl).trans (capControl_frames.now rfl)
  obtain ⟨hcap, hcount⟩ := capControl_caps (peaked (sampled s w mv))
  obtain ⟨a, c, u, l, b, x, y, z, hp⟩ := hcap
  have hkeep : (peaked (sampled s w mv)).power.mv = mv ∧ (peaked (sampled s w mv)).power.samples = (w :: s.power.samples).take 100 ∧
      (peaked (sampled s w mv)).power.energy = s.power.energy + 10 * w ∧ (peaked (sampled s w mv)).now = nextInstant s 10000 ∧
      (w ≤ 3800 → (peaked (sampled s w mv)).power.hiRuns = 0) := by
    by_cases hhi : (sampled s w mv).power.hiRuns < 2
    · rw [peaked_low hhi]
      exact ⟨rfl, rfl, rfl, rfl, fun hw => if_neg (Nat.not_lt.2 hw)⟩
    · obtain ⟨h, hn, -⟩ := peaked_high hhi
      rw [h]
      exact ⟨rfl, rfl, rfl, hn, fun _ => rfl⟩
  obtain ⟨hmv, hsamples, henergy, htime, hruns⟩ := hkeep
  refine ⟨hframes.sameBut _ rfl, hnow.trans htime, ?_, ?_, ?_, fun hw hhi hlen h0 => ?_, fun hw => ⟨?_, fun hask => ?_⟩⟩
  · rw [hpow, hp]
    exact hmv
  · rw [hpow, hp]
    exact hsamples
  · rw [hpow, hp]
    exact henergy
  · have hstill : (sampled s w mv).power.hiRuns = s.power.hiRuns + 1 := if_pos hw
    obtain ⟨h, -, hc⟩ := peaked_high (s := sampled s w mv) (by rw [hstill]; omega)
    have hstep : (peaked (sampled s w mv)).power.domStep.getD 0 0 = nextInstant s 10000 := by
      rw [h]
      change (s.power.domStep.set 0 (nextInstant s 10000)).getD 0 0 = nextInstant s 10000
      rw [List.getD_eq_getElem _ _ (by rw [List.length_set, hlen]; decide), List.getElem_set_self]
    obtain ⟨ha, hy⟩ := capControl_halved (s := peaked (sampled s w mv)) (by rw [h]; rfl) (by rw [h]; rfl) (by rw [hstep, htime]) (by rw [htime]; exact h0)
    rw [hpow, hctr, hcount, hc]
    exact ⟨ha, hy, rfl⟩
  · rw [hpow, hp]
    exact hruns hw
  · rw [hpow] at hask ⊢
    have havg : avgPower (capControl (peaked (sampled s w mv))).power = avgPower (peaked (sampled s w mv)).power := by
      unfold avgPower
      rw [hp]
    rw [havg, ← hcapW] at hask
    exact capControl_asks hask

end Sys2Proof.Machine
end

section
/-! Temperatures, references, trips, idle and removal (R427, R429, R431, R432, R435), and the obligation on power. -/

namespace Sys2Proof.Machine

open Sys2Proof

/-! ## THERMAL_SAMPLE -/

theorem ThrottleOnly.trans {p q r : Power} (h : ThrottleOnly p q) (g : ThrottleOnly q r) : ThrottleOnly p r := by
  obtain ⟨a, c, u, l, b, x, y, rfl⟩ := h
  obtain ⟨a', c', u', l', b', x', y', rfl⟩ := g
  exact ⟨a', c', u', l', b', x', y', rfl⟩

/-- A step that the throttle takes, with its time noted. -/
def throttleStep (s : State) (d : Nat) (up : Bool) : State := updPower (stepClock s d up) fun p => { p with thrStep := s.now }

theorem throttleStep_only (s : State) (d : Nat) (up : Bool) : ThrottleOnly s.power (throttleStep s d up).power ∧ (throttleStep s d up).power.throttling = s.power.throttling := by
  obtain ⟨a, c, u, l, h⟩ := stepClock_clocks s d up
  change ThrottleOnly s.power { (stepClock s d up).power with thrStep := s.now } ∧ (stepClock s d up).power.throttling = _
  rw [h]
  exact ⟨⟨a, c, u, l, s.power.cool, s.now, s.power.throttling, rfl⟩, rfl⟩

/-- The throttle's part of a sample: its own fields, and at the limit it asks for lower frequencies. -/
theorem throttleControl_only (s : State) (hot : Int) : ThrottleOnly s.power (throttleControl s hot).power ∧
    (100 * (objNat s 0 0x2200 4 100 : Int) ≤ hot → (throttleControl s hot).power.throttling = true) := by
  unfold throttleControl
  dsimp only
  split
  · have h0 : ThrottleOnly s.power (updPower s fun p => { p with cool := 0, throttling := true }).power :=
      ⟨s.power.aclk, s.power.cclk, s.power.uclk, s.power.domStep, 0, s.power.thrStep, true, rfl⟩
    have hask : (updPower s fun p => { p with cool := 0, throttling := true }).power.throttling = true := rfl
    generalize updPower s (fun p => { p with cool := 0, throttling := true }) = t at h0 hask
    split
    · split
      · obtain ⟨hstep, hthr⟩ := throttleStep_only t _ false
        exact ⟨h0.trans hstep, fun _ => hthr.trans hask⟩
      · exact ⟨h0, fun _ => hask⟩
    · exact ⟨h0, fun _ => hask⟩
  · rename_i hcool
    refine ⟨?_, fun h => absurd h hcool⟩
    generalize (if hot < 100 * (objNat s 0 0x2200 4 100 : Int) - 300 then s.power.cool + 1 else 0) = n
    have h0 : ThrottleOnly s.power (updPower s fun p => { p with cool := n }).power :=
      ⟨s.power.aclk, s.power.cclk, s.power.uclk, s.power.domStep, n, s.power.thrStep, s.power.throttling, rfl⟩
    generalize updPower s (fun p => { p with cool := n }) = t at h0
    have hend : ThrottleOnly s.power (updPower t fun p => { p with throttling := false }).power :=
      h0.trans ⟨t.power.aclk, t.power.cclk, t.power.uclk, t.power.domStep, t.power.cool, t.power.thrStep, false, rfl⟩
    split
    · exact h0
    · split
      · split
        · exact h0.trans (throttleStep_only t _ true).1
        · split
          · exact hend
          · exact h0
      · exact hend

/-- The stacks whose regulators are halved after a reading (R435). -/
def halvedStacks (p : Power) (ts : List Int) : List Nat := (List.range 20).filter fun k => 9500 ≤ ts.getD k 0 || (p.halved.contains k && 9200 ≤ ts.getD k 0)

/-- The readings taken. -/
def readTemps (s : State) (js ts : List Int) : State :=
  updPower { s with now := nextInstant s 100000 } fun p =>
    { p with junctions := padInts js 64, stackTemps := padInts ts 20
             hotMin := if 10000 ≤ hottest (padInts js 64) && (s.power.aclk = 1000 && s.power.uclk = 750) then p.hotMin + 1 else 0
             halved := halvedStacks s.power (padInts ts 20), thrTime := if p.throttling then p.thrTime + 100000 else p.thrTime }

theorem exec_thermalSample {s : State} (hon : s.power.on = true) (js ts : List Int) : exec (.thermalSample js ts) s = .next (
    if 10500 ≤ hottest (padInts js 64) || 10000 ≤ (readTemps s js ts).power.hotMin then tripOff (readTemps s js ts) 3 (hottest (padInts js 64))
    else if 10500 ≤ hottest (padInts ts 20) then tripOff (readTemps s js ts) 3 (hottest (padInts ts 20))
    else powerEvents s (throttleControl (readTemps s js ts) (hottest (padInts js 64)))) := powered_on hon _

/-- Readings below every limit but the throttle's. -/
theorem exec_thermalSample_cool {s : State} (hon : s.power.on = true) {js ts : List Int} (hstk : hottest (padInts ts 20) < 10500) (hhot : hottest (padInts js 64) < 10000) :
    exec (.thermalSample js ts) s = .next (powerEvents s (throttleControl (readTemps s js ts) (hottest (padInts js 64)))) := by
  have hmin : (readTemps s js ts).power.hotMin = 0 := if_neg (by rw [decide_eq_false (Int.not_le.2 hhot), Bool.false_and]; decide)
  rw [exec_thermalSample hon, hmin, decide_eq_false (Int.not_le.2 (hhot.trans (by decide))), if_neg (by decide), if_neg (Int.not_le.2 hstk)]

theorem exec_thermalSample_hot {s : State} (hon : s.power.on = true) {js : List Int} (ts : List Int) (hhot : 10500 ≤ hottest (padInts js 64)) :
    exec (.thermalSample js ts) s = .next (tripOff (readTemps s js ts) 3 (hottest (padInts js 64))) := by
  rw [exec_thermalSample hon, decide_eq_true hhot, Bool.true_or, if_pos rfl]

theorem mem_halvedStacks {p : Power} {ts : List Int} {k : Nat} : k ∈ halvedStacks p ts ↔ k < 20 ∧ (9500 ≤ ts.getD k 0 ∨ k ∈ p.halved ∧ 9200 ≤ ts.getD k 0) := by
  unfold halvedStacks
  rw [List.mem_filter, List.mem_range, Bool.or_eq_true, Bool.and_eq_true, decide_eq_true_eq, decide_eq_true_eq, List.contains_iff_mem]

/-! ## Trips -/

theorem tripOff_ports (s : State) (cause : Nat) (v : Int) (p : Fin 16) :
    (tripOff s cause v).rigger.ports[p].state = .down ∧ (tripOff s cause v).rigger.ports[p].kept = [] := by
  unfold tripOff clearPort
  simp only [Fin.getElem_fin, Vector.getElem_map, and_self]

theorem tripOff_but (s : State) (cause : Nat) (v : Int) : SameBut [.host, .rigger, .power] s (tripOff s cause v) := tripOff_frames.sameBut _ rfl

/-! ## REFERENCE_LOSS -/

section
variable {s : State} {r o : Fin 3}

/-- The state without a reference. -/
def refLost (s : State) (r : Fin 3) : State := updPower s fun p => { p with refs := p.refs.set r false }

/-- The domains run from the other reference. -/
def relocked (s : State) (r : Fin 3) : State :=
  updPower { refLost s r with free := s.free + 1 } fun p =>
    { p with relocks := p.relocks + 1, parts := p.parts + 1, domRef := if r.val = 0 then (true, true) else (false, false) }

/-- The log entry and the event of a reference that is lost. -/
def lossTold (s : State) (r : Fin 3) : State :=
  let t := pointLog (relocked s r) ((Config.freeWord s.free).toNat % 16) r ((Config.freeWord s.free).toNat / 16 % 100001)
  raiseEvent t 1 3 0 0x100 (refBytes t.power)

theorem exec_referenceLoss (hon : s.power.on = true) (hr : s.power.refs.getD r true = true) (h2 : r.val ≠ 2) : exec (.referenceLoss r) s = .next (
    if !(refLost s r).power.refs.getD (1 - r.val) true then tripOff (refLost s r) 4 s.power.mv
    else if r.val = 0 then (List.finRange 16).foldl hodPartFault (lossTold s r) else lossTold s r) := by
  refine (powered_on hon _).trans (congrArg _ ?_)
  rw [hr, if_neg (by decide)]
  dsimp only
  rw [if_neg h2]
  rfl

/-- The other reference is as it was. -/
theorem refLost_other (hro : r.val + o.val = 1) (hlen : s.power.refs.length = 3) : (refLost s r).power.refs.getD (1 - r.val) true = s.power.refs.getD o true := by
  have ho : 1 - r.val = o.val := by omega
  have hne : r.val ≠ o.val := by omega
  have hlt := o.isLt
  change (s.power.refs.set r false).getD (1 - r.val) true = _
  rw [ho, List.getD_eq_getElem _ _ (by rw [List.length_set, hlen]; exact hlt), List.getD_eq_getElem _ _ (by rw [hlen]; exact hlt), List.getElem_set_ne hne]

theorem lossTold_frames (s : State) (r : Fin 3) : Frames 188418 s (lossTold s r) := by
  have h0 : Frames 188418 s (relocked s r) := (((Frames.refl _ s).set_power rfl).set_free rfl).set_power rfl
  exact (h0.step pointLog_frames rfl).step raiseEvent_frames rfl

theorem lossTold_power (s : State) (r : Fin 3) : (lossTold s r).power = (relocked s r).power := by
  unfold lossTold
  dsimp only
  exact (raiseEvent_frames.power rfl).trans (pointLog_frames.power rfl)

theorem pointLog_written (s : State) (k u t : Nat) : (pointLog s k u t).pointing.written = s.pointing.written + 1 := by
  unfold pointLog
  dsimp only
  split
  · exact (congrArg Pointing.written (raiseEvent_frames.pointing rfl)).trans rfl
  · rfl

theorem lossTold_written (s : State) (r : Fin 3) : (lossTold s r).pointing.written = s.pointing.written + 1 := by
  unfold lossTold
  dsimp only
  exact (congrArg Pointing.written (raiseEvent_frames.pointing rfl)).trans (pointLog_written ..)

theorem hodFaults_power (s : State) : ((List.finRange 16).foldl hodPartFault s).power = s.power :=
  ((Frames.refl 950006 s).foldl fun _ _ ht => ht.step hodPartFault_frames rfl).power rfl

theorem hodFaults_idle (h : ∀ n : Fin 16, s.hods[n].queue = []) : (List.finRange 16).foldl hodPartFault s = s :=
  foldl_fixed hodPartFault s _ fun n _ => by
    unfold hodPartFault
    rw [h n]

end

/-! ## Idle and removal -/

theorem exec_idleEntry_idles {s : State} (hon : s.power.on = true) (hst : ∀ f : Fin 9, ∀ x ∈ s.host.funcs[f].streams, x.2.entries = [] ∧ x.2.batches = [])
    (hl : ∀ c : Fin 16, s.crews[c].launch = none) (hp : ∀ p : Fin 16, portWorks s.rigger.ports[p] = false) :
    exec .idleEntry s = .next { s with power := { s.power with idle := true } } := by
  have hstreams : (s.host.funcs.toList.any fun k => k.streams.any fun x => !x.2.entries.isEmpty || !x.2.batches.isEmpty) = false := by
    rw [List.any_eq_false]
    intro k hk
    obtain ⟨f, hf, rfl⟩ := Vector.getElem_of_mem (Vector.mem_toList_iff.1 hk)
    rw [Bool.not_eq_true, List.any_eq_false]
    intro x hx
    obtain ⟨he, hb⟩ := hst ⟨f, hf⟩ x hx
    rw [he, hb]
    decide
  have hcrews : (s.crews.toList.any fun k => k.launch.isSome) = false := by
    rw [List.any_eq_false]
    intro k hk
    obtain ⟨c, hc, rfl⟩ := Vector.getElem_of_mem (Vector.mem_toList_iff.1 hk)
    have hnone : s.crews[c].launch = none := hl ⟨c, hc⟩
    rw [hnone]
    decide
  have hports : s.rigger.ports.toList.any portWorks = false := by
    rw [List.any_eq_false]
    intro k hk
    obtain ⟨p, hp', rfl⟩ := Vector.getElem_of_mem (Vector.mem_toList_iff.1 hk)
    have hidle : portWorks s.rigger.ports[p] = false := hp ⟨p, hp'⟩
    rw [hidle]
    decide
  refine (powered_on hon _).trans (congrArg _ ?_)
  dsimp only
  rw [hstreams, hcrews, hports, if_neg (by decide)]
  rfl

/-- Some accepted entry is not retired. -/
def entriesLeft (s : State) : Bool := s.host.funcs.toList.any fun k => k.streams.any fun x => !x.2.entries.isEmpty

/-- What the preparation for removal leaves: quiesced, and safe to remove once no entry is left (R432). -/
theorem prepareRemoval_prepares {s : State} (h : s.power.removal = 0) : SameBut [.power, .evolu] s (prepareRemoval s) ∧
    (prepareRemoval s).power = { s.power with quiesced := true, removal := if entriesLeft s then 1 else 3 } := by
  have hprep : prepareRemoval s = removalCheck (moduleEvent s (updPower s fun p => { p with quiesced := true, removal := 1 })) := if_neg (not_not.2 h)
  have hev : Frames 8192 (updPower s fun p => { p with quiesced := true, removal := 1 }) (moduleEvent s (updPower s fun p => { p with quiesced := true, removal := 1 })) :=
    moduleEvent_frames
  have hbut : SameBut [.power] s (updPower s fun p => { p with quiesced := true, removal := 1 }) := ((Frames.refl 32768 s).set_power rfl).sameBut _ rfl
  have hpow : (updPower s fun p => { p with quiesced := true, removal := 1 }).power = { s.power with quiesced := true, removal := 1 } := rfl
  rw [hprep]
  generalize updPower s _ = t at hev hbut hpow
  have hbut1 := sameBut_trans hbut (hev.sameBut [.evolu] rfl) [.power, .evolu] rfl rfl
  have hpow1 := (hev.power rfl).trans hpow
  generalize moduleEvent s t = u at hbut1 hpow1
  have hleft : (u.host.funcs.toList.any fun k => k.streams.any fun x => !x.2.entries.isEmpty) = entriesLeft s := by
    rw [show u.host = s.host from hbut1.2 .host (by decide)]
    rfl
  unfold removalCheck
  dsimp only
  rw [hleft, show u.power.removal = 1 from congrArg Power.removal hpow1, decide_eq_false (not_not.2 rfl), Bool.false_or]
  by_cases hl : entriesLeft s = true
  · rw [if_pos hl, if_pos hl]
    exact ⟨hbut1, hpow1⟩
  · rw [if_neg hl, if_neg hl]
    refine ⟨sameBut_then (sameBut_then hbut1 (((Frames.refl 32768 u).set_power rfl).sameBut [.power] rfl) rfl) (raiseEvent_frames.sameBut [.evolu] rfl) rfl, ?_⟩
    refine (raiseEvent_frames.power rfl).trans ?_
    change { u.power with removal := 3 } = _
    rw [hpow1]

theorem rowWrite_removal {s : State} {r : Req} (h : MayWrite s r 0x2400 3 [1] 3) : rowWrite s r 0x2400 3 0 [1] = moduleEvent s (prepareRemoval s) := by
  rw [rowWrite_wo h (by decide)]
  rfl

/-! ## The obligation -/

/-- Settles O58: each command's row; the power state a sample or a trip leaves is `capControl_caps`, `throttleControl_only` and the trip's own three fields. -/
theorem clocksPowerAndTrips : Obligations.ClocksPowerAndTrips := by
  unfold Obligations.ClocksPowerAndTrips
  intro off s hon hroom
  refine ⟨?_, ?_, ?_, ?_, ?_, ?_, ?_⟩
  · intro d up asks v w
    refine ⟨fun h => ?_, fun h hw hlate hlists => ?_⟩
    · have hup : up = asksLower s := by
        rcases h with ⟨rfl, ha⟩ | ⟨rfl, ha⟩
        · exact ((asksLower_iff s).2 ha).symm
        · exact (Bool.eq_false_iff.2 fun h => ha ((asksLower_iff s).1 h)).symm
      exact exec_clockStep_stays hon d hup
    · have hup : up ≠ asksLower s := by
        rcases h with ⟨rfl, ha⟩ | ⟨rfl, ha⟩
        · exact fun h => ha ((asksLower_iff s).1 h.symm)
        · exact fun h => Bool.false_ne_true (h.trans ((asksLower_iff s).2 ha))
      obtain ⟨u, hbut, hnow, hdue, hexec⟩ := exec_clockStep_steps hon d hup hw (by omega) hlate
      have hp : u.power = s.power := hbut.2 .power (by decide)
      obtain ⟨hsame, hother⟩ := freq_setFreq u.power d (stepTo u.power d up) (u.power.domStep.set d u.now)
      refine ⟨_, hexec, ?_, ?_, fun e he => ?_, hnow, hdue, ?_, ?_⟩
      · exact sameBut_trans hbut (((Frames.refl 49152 u).set_power rfl).step ctrAdd_frames rfl |>.sameBut [.dict, .power] rfl) _ rfl rfl
      · exact hsame.trans (by rw [hp]; rfl)
      · exact (hother e he).trans (by rw [hp])
      · change (u.power.domStep.set d u.now).getD d 0 = u.now
        have hlen : d.val < (u.power.domStep.set d u.now).length := by
          rw [List.length_set, hp, hlists.1]
          exact d.isLt
        rw [List.getD_eq_getElem _ _ hlen, List.getElem_set_self]
      · refine (ctrGet_add_same _ 0 0x2300 3 1).trans ?_
        rw [show ctrGet (updPower u _) 0 0x2300 3 = ctrGet u 0 0x2300 3 from rfl, ctrGet_same_dict (hbut.2 .dict (by decide))]
  · intro w mv hlists
    have hinst := nextInstant_toNat (s := s) (n := 10000) (by omega)
    obtain ⟨hbut, hnow, hmv, hsamples, henergy, hhalved, hlow⟩ := powerSample_taken s w mv
    have h0 : nextInstant s 10000 ≠ 0 := fun h => by
      rw [h] at hinst
      exact absurd hinst (by simp)
    exact ⟨_, exec_powerSample hon w mv, hbut, (congrArg BitVec.toNat hnow).trans hinst, hmv, hsamples, henergy, fun hw hhi => hhalved hw hhi hlists.1 h0, hlow⟩
  · intro js ts hot
    refine ⟨fun hstk hhot => ?_, fun hhot => ?_⟩
    · obtain ⟨⟨a, c, u, l, b, x, y, hp⟩, hask⟩ := throttleControl_only (readTemps s js ts) hot
      have hpow : (powerEvents s (throttleControl (readTemps s js ts) hot)).power = (throttleControl (readTemps s js ts) hot).power := powerEvents_frames.power rfl
      have hframes : Frames 57345 s (powerEvents s (throttleControl (readTemps s js ts) hot)) :=
        ((((Frames.refl _ s).set_now rfl).set_power rfl).step throttleControl_frames rfl).step (powerEvents_frames (s := s)) rfl
      refine ⟨_, exec_thermalSample_cool hon hstk hhot, hframes.sameBut _ rfl, ?_, ?_, ?_, ?_, fun k hk h95 => ?_, fun k hk => ?_, fun hlim => ?_⟩
      · have hnow : (powerEvents s (throttleControl (readTemps s js ts) hot)).now = nextInstant s 100000 := (powerEvents_frames.now rfl).trans (throttleControl_frames.now rfl)
        exact (congrArg BitVec.toNat hnow).trans (nextInstant_toNat (by omega))
      · rw [hpow, hp]
        rfl
      · rw [hpow, hp]
        rfl
      · rw [hpow, hp]
        exact if_neg (by rw [decide_eq_false (Int.not_le.2 hhot), Bool.false_and]; decide)
      · rw [hpow, hp]
        exact mem_halvedStacks.2 ⟨hk, .inl h95⟩
      · rw [hpow, hp] at hk
        obtain ⟨-, hk | ⟨-, hk⟩⟩ := mem_halvedStacks.1 hk
        · exact le_trans (by decide) hk
        · exact hk
      · rw [hpow]
        exact hask hlim
    · refine ⟨_, exec_thermalSample_hot hon ts hhot, ?_, rfl, rfl, tripOff_ports _ _ _⟩
      exact sameBut_trans ((((Frames.refl 32769 s).set_now rfl).set_power rfl).sameBut [.now, .power] rfl) (tripOff_but (readTemps s js ts) 3 hot) _ rfl rfl
  · intro r o hro hr hlists
    have h2 : r.val ≠ 2 := by omega
    have hexec := exec_referenceLoss hon hr h2
    rw [refLost_other hro hlists.2] at hexec
    refine ⟨fun ho => ?_, fun ho => ?_⟩
    · rw [ho, if_neg (by decide)] at hexec
      have hpow : (relocked s r).power = { s.power with refs := s.power.refs.set r false, relocks := s.power.relocks + 1, parts := s.power.parts + 1, domRef := (o.val = 1, o.val = 1) } := by
        have hdom : (if r.val = 0 then (true, true) else (false, false)) = (decide (o.val = 1), decide (o.val = 1)) := by
          by_cases h0 : r.val = 0
          · rw [if_pos h0, decide_eq_true (by omega)]
          · rw [if_neg h0, decide_eq_false (by omega)]
        unfold relocked
        rw [hdom]
        rfl
      refine ⟨_, hexec, ?_, fun hidle => ?_⟩
      · split
        · rw [hodFaults_power, lossTold_power, hpow]
        · rw [lossTold_power, hpow]
      · have hquiet : (if r.val = 0 then (List.finRange 16).foldl hodPartFault (lossTold s r) else lossTold s r) = lossTold s r := by
          rcases hidle with h1 | hq
          · exact if_neg (by omega)
          · rw [hodFaults_idle fun n => by rw [(lossTold_frames s r).hods rfl]; exact hq n]
            exact ite_self _
        rw [hquiet]
        exact ⟨(lossTold_frames s r).sameBut _ rfl, lossTold_written s r⟩
    · rw [ho, if_pos (by decide)] at hexec
      refine ⟨_, hexec, ?_, rfl, rfl, tripOff_ports _ _ _⟩
      exact sameBut_trans (((Frames.refl 32768 s).set_power rfl).sameBut [.power] rfl) (tripOff_but (refLost s r) 4 s.power.mv) _ rfl rfl
  · intro mv
    have hunder : exec (.underVoltageTrip mv) s = .next (if 50000 ≤ mv then s else tripOff s (if s.power.removal = 0 then 1 else 5) mv) := powered_on hon _
    refine ⟨fun h => hunder.trans (congrArg _ (if_pos h)), fun h => ?_, fun h => ?_, fun hlo hhi => ?_⟩
    · exact (if_neg (by omega)).trans ((powered_on hon _).trans (congrArg _ (if_pos h)))
    · exact ⟨_, hunder.trans (congrArg _ (if_neg (Nat.not_le.2 h))), tripOff_but _ _ _, rfl, rfl, tripOff_ports _ _ _⟩
    · exact ⟨_, (if_neg (Nat.not_lt.2 hhi)).trans ((powered_on hon _).trans (congrArg _ (if_neg (Nat.not_le.2 hlo)))), tripOff_but _ _ _, rfl, rfl, tripOff_ports _ _ _⟩
  · exact fun hst hl hp => exec_idleEntry_idles hon hst hl hp
  · intro r hw hrem
    obtain ⟨hbut, hpow⟩ := prepareRemoval_prepares hrem
    refine ⟨_, (powered_on hon _).trans (congrArg _ (rowWrite_removal hw)), sameBut_then hbut (moduleEvent_frames.sameBut [.evolu] rfl) rfl, ?_⟩
    exact (moduleEvent_frames.power rfl).trans hpow

end Sys2Proof.Machine
end

section
/-! A cold start takes the banks of the Rigger from the repair map in flash (R419, R440), and a port's dark lanes with them (R240). Where the last write of the map to flash has failed, the map
that the module holds knows of failed lanes that flash does not. -/

namespace Sys2Proof.Machine

open Sys2Proof

/-- Reading the boot image, whether it is found or not, leaves the Rigger as it is. -/
theorem rigger_bootOr (t : State) (g : Power → Power) : (if (boot t).2 then (boot t).1 else updPower (boot t).1 g).rigger = t.rigger := by
  split
  · exact boot_frames.rigger rfl
  · exact boot_frames.rigger rfl

/-- Applying the map of flash to cold contents leaves the Rigger as it is. -/
theorem rigger_mapApply_coldContents (t : State) : (mapApply (coldContents t)).rigger = t.rigger :=
  (mapApply_frames.rigger rfl).trans (coldContents_frames.rigger rfl)

/-- The ports after a cold start are those of the banks that the repair map of the cold start describes. -/
theorem coldStarted_port (lasers : List Nat) (s : State) (p : Fin 16) : (coldStarted lasers s).rigger.ports[p] = coldPort (coldUnits s).rigger p := by
  have hports : (coldStarted lasers s).rigger.ports = Vector.ofFn (coldPort (coldUnits s).rigger) := by
    unfold coldStarted
    dsimp only
    rw [rigger_bootOr, rigger_mapApply_coldContents]
  rw [hports]
  exact Vector.getElem_ofFn _

/-- State.reset without power, whose flash has not taken the repair map in which physical lane 0 of bank 0 has failed. -/
def unstoredLane : State :=
  { State.reset with
    power := { State.reset.power with on := false }
    dict := { State.reset.dict with flashBad := true }
    rigger := { State.reset.rigger with banks := State.reset.rigger.banks.set 0 { Bank.init with failed := [0] } } }

/-- Flash gives every lane of port 0; the bank as the module held it has lane 0 dark. -/
theorem unstoredLane_dark : (coldPort (coldUnits unstoredLane).rigger 0).dark = [] ∧ (coldPort unstoredLane.rigger 0).dark = [0] := by
  decide +kernel

/-- Refutes O59: after the cold start of `unstoredLane` port 0 is that of the banks in flash, which the statement has as that of the banks before it. -/
theorem not_coldAndWarmResets : ¬ Obligations.ColdAndWarmResets := by
  unfold Obligations.ColdAndWarmResets
  intro h
  obtain ⟨t, hexec, -, -, -, -, -, -, -, -, -, -, -, -, -, -, -, -, -, -, -, hports, -⟩ := (h unstoredLane).1 [] rfl rfl
  have hcold : exec (.coldStart []) unstoredLane = .next (coldStarted [] unstoredLane) := rfl
  obtain rfl := Host.Outcome.next.inj (hcold.symm.trans hexec)
  obtain ⟨hflash, hheld⟩ := unstoredLane_dark
  have hdark := congrArg Port.dark ((coldStarted_port [] unstoredLane 0).symm.trans (hports 0))
  rw [hflash, hheld] at hdark
  exact absurd hdark (by decide)

end Sys2Proof.Machine
end

section
/-! A test that completes an activity also ends its being past the deadline (R412): `missed` is false from then on. -/

namespace Sys2Proof.Machine

open Sys2Proof

/-- A completed activity waits, its deadline runs from now, and it is not past it. -/
theorem actOf_actDone (s : State) (id unit : Nat) : actOf (actDone s id unit) id unit = { actOf s id unit with state := 0, done := s.now, missed := false } := by
  obtain ⟨hid, hunit⟩ : (actOf s id unit).id = id ∧ (actOf s id unit).unit = unit := by
    unfold actOf
    cases hfind : s.pointing.acts.find? fun a => a.id = id ∧ a.unit = unit with
    | none => exact ⟨rfl, rfl⟩
    | some a => simpa using List.find?_some hfind
  have hfound : (actDone s id unit).pointing.acts.find? (fun a => a.id = id ∧ a.unit = unit) = some { actOf s id unit with state := 0, done := s.now, missed := false } :=
    List.find?_cons_of_pos (decide_eq_true ⟨hid, hunit⟩)
  unfold actOf
  rw [hfound]
  rfl

/-- TROWEL_COX_LANE_TEST of an idle Trowel in which no lane fails completes its activity. -/
theorem exec_trowelCoxLaneTest_passed {s : State} {n : Fin 8} (hon : s.power.on = true) (hin : s.courses[n].inService = true) (hidle : s.trowels[n].queue = []) :
    exec (.trowelCoxLaneTest (.trowel n) 0) s = .next (actDone s 4 n) := by
  have hexec : exec (.trowelCoxLaneTest (.trowel n) 0) s = execTrowelCoxLaneTest (.trowel n) 0 s := rfl
  rw [hexec]
  unfold execTrowelCoxLaneTest
  have hgo : (!s.courses[n].inService || !(s.trowels[n].queue.isEmpty || decide ((actOf s 4 n).state = 2))) = false := by rw [hin, hidle]; rfl
  rw [powered_on hon]
  dsimp only
  rw [hgo]
  rfl

/-- State.reset whose lane test of Trowel 0 is past its deadline. -/
def overdueTrowel : State := { State.reset with pointing := { State.reset.pointing with acts := [⟨4, 0, 2, 0, [], true⟩] } }

/-- Refutes O56: the test that completes the activity of `overdueTrowel` ends its being past the deadline, which the statement has stay. -/
theorem not_pointingActs : ¬ Obligations.PointingActs := by
  unfold Obligations.PointingActs
  intro h
  obtain ⟨-, -, htrowel, -⟩ := h overdueTrowel rfl
  obtain ⟨t, hexec, -, -, ⟨hact, -⟩, -⟩ := (htrowel 0 0 (by decide) rfl).1 rfl (Nat.zero_le _)
  obtain rfl := Host.Outcome.next.inj ((exec_trowelCoxLaneTest_passed rfl (by decide) rfl).symm.trans hexec)
  have hmissed : false = (actOf overdueTrowel 4 0).missed := congrArg Activity.missed ((actOf_actDone overdueTrowel 4 0).symm.trans hact)
  exact absurd hmissed (by decide)

end Sys2Proof.Machine
end

section
/-! The step times of the three lowered clock domains and the three references (R425, R427, R428): no operation of the module adds or drops an entry. Where an operation leaves the
component `power` as it is, its frame says so; the others are followed through their branches. -/

namespace Sys2Proof.Machine

open Sys2Proof

/-- Three entries in a list of step times and in a list of references. -/
def ThreeEach (steps : List U64) (refs : List Bool) : Prop := steps.length = 3 ∧ refs.length = 3

/-- The power state holds three of each. -/
@[reducible] def ThreeLists (s : State) : Prop := ThreeEach s.power.domStep s.power.refs

theorem powerListsOk_iff (s : State) : PowerListsOk s ↔ ThreeLists s := Iff.rfl

theorem ThreeEach.set_step {steps : List U64} {refs : List Bool} (h : ThreeEach steps refs) (i : Nat) (t : U64) : ThreeEach (steps.set i t) refs :=
  ⟨List.length_set.trans h.1, h.2⟩

theorem ThreeEach.set_ref {steps : List U64} {refs : List Bool} (h : ThreeEach steps refs) (i : Nat) (b : Bool) : ThreeEach steps (refs.set i b) :=
  ⟨h.1, List.length_set.trans h.2⟩

/-- A frame that leaves the power state keeps its lists. -/
theorem ThreeLists.of {m : Nat} {s t : State} (g : Frames m s t) (hm : m.testBit 15 = false) (h : ThreeLists s) : ThreeLists t := by
  have hpower := g.power hm
  unfold ThreeLists
  rw [hpower]
  exact h

theorem ThreeLists.of_power {s t : State} (h : ThreeLists s) (e : t.power = s.power) : ThreeLists t := by
  unfold ThreeLists
  rw [e]
  exact h

theorem ThreeLists.of_lists {s t : State} (h : ThreeLists s) (ed : t.power.domStep = s.power.domStep) (er : t.power.refs = s.power.refs) : ThreeLists t := by
  unfold ThreeLists
  rw [ed, er]
  exact h

theorem ThreeLists.foldl {α : Type} {f : State → α → State} {s : State} {l : List α} (hf : ∀ t x, ThreeLists t → ThreeLists (f t x)) (h : ThreeLists s) :
    ThreeLists (l.foldl f s) := by
  induction l generalizing s with
  | nil => exact h
  | cons x l ih => exact ih (hf s x h)

theorem ThreeLists.ite {c : Prop} [Decidable c] {s t : State} (hs : ThreeLists s) (ht : ThreeLists t) : ThreeLists (if c then s else t) := by
  split
  · exact hs
  · exact ht

theorem ThreeLists.ite_fst {β : Type} {c : Prop} [Decidable c] {a b : State × β} (ha : ThreeLists a.1) (hb : ThreeLists b.1) : ThreeLists (if c then a else b).1 := by
  split
  · exact ha
  · exact hb

theorem ThreeLists.of_fst {β : Type} {p : State × β} {s : State} {x : β} (e : p = (s, x)) (h : ThreeLists p.1) : ThreeLists s := by
  rw [e] at h
  exact h

theorem ThreeLists.of_snd {β : Type} {p : β × State} {s : State} {x : β} (e : p = (x, s)) (h : ThreeLists p.2) : ThreeLists s := by
  rw [e] at h
  exact h

/-- The next state of a command, where it answers one, holds three of each. -/
def ThreeNext (o : Host.Outcome State Fault Refusal) : Prop := ∀ t, o = .next t → ThreeLists t

theorem ThreeNext.powered {s t : State} (h : ThreeLists s) (ht : ThreeLists t) : ThreeNext (powered s t) := by
  intro u e
  unfold Machine.powered at e
  obtain rfl := Host.Outcome.next.inj e
  exact .ite ht h

section
variable {s : State} (h : ThreeLists s)
include h

theorem leaveService_three : ThreeLists (leaveService s) := .of moduleEvent_frames rfl (.of mapWrite_frames rfl h)

theorem coursesGo_three {here : Fin 8 → Bool} : ThreeLists (coursesGo s here) := by
  unfold coursesGo
  extract_lets go t1 left t2 t3
  have h1 : ThreeLists t1 := .foldl (fun t x ht => by
    dsimp only
    exact .of pointLog_frames rfl ht) h
  have h2 : ThreeLists t2 := .of mapWrite_frames rfl h1
  have h3 : ThreeLists t3 := .of moduleEvent_frames rfl h2
  exact .ite h (.ite (leaveService_three h3) h3)

theorem courseOut_three {n : Fin 8} {part : Nat} : ThreeLists (courseOut s n part) := by
  unfold courseOut
  extract_lets t
  have ht : ThreeLists t := .of courseLeaves_frames rfl h
  exact .ite (coursesGo_three ht) ht

theorem laneTestDone_three {u : LaneUnit} {failing : Nat} : ThreeLists (laneTestDone s u failing) := by
  unfold laneTestDone
  extract_lets spares k gone t1 pointing t2 t3
  have h1 : ThreeLists t1 := .of testFailed_frames rfl h
  have h2 : ThreeLists t2 := by
    unfold t2
    cases u with
    | trowel n => exact h1
    | cox f => exact h1
  have h3 : ThreeLists t3 := .of mapWrite_frames rfl (.of ctrAdd_frames rfl h2)
  split
  · exact h3
  · cases u with
    | trowel n => exact .ite (courseOut_three (.of setDegraded_frames rfl h3)) (.of setDegraded_frames rfl h3)
    | cox f => exact .of setDegraded_frames rfl h3

theorem laneGap_three {u : LaneUnit} : ThreeLists (laneGap s u) := by
  unfold laneGap
  extract_lets l t
  exact .ite h (.ite h (.foldl (fun _ _ ht => laneTestDone_three ht) h))

theorem leaveCourses_three {p : Fin 8} : ThreeLists (leaveCourses s p) := coursesGo_three h

theorem passBoundary_three {c : Fin 16} : ThreeLists (passBoundary s c) := by
  unfold passBoundary
  extract_lets t
  have ht : ThreeLists t := by
    unfold t
    split
    · exact leaveCourses_three h
    · exact h
  exact .of applyReq_frames rfl (.ite (.of startRejoin_frames rfl ht) ht)

/-! ## Commands of the Courses, the Trowels and the Cox -/

theorem execCheckVerdict_three {n : Fin 8} : ThreeNext (execCheckVerdict n s) := by
  unfold execCheckVerdict
  refine .powered h ?_
  extract_lets k
  split
  · exact h
  · split
    · exact h
    · extract_lets c t
      split
      extract_lets t1 t2 t3 a t4 t5 giveUp t6
      have h1 : ThreeLists t1 := .of ctrAdd_frames rfl h
      have h2 : ThreeLists t2 := .ite (.of checkEvent_frames rfl h1) h1
      have h5 : ThreeLists t5 := .of checkEvent_frames rfl (.of ctrAdd_frames rfl h2)
      have h6 : ThreeLists t6 := h5
      have hgive : ∀ t, ThreeLists t → ThreeLists (giveUp t) := fun t ht => by
        unfold giveUp
        exact .of castReady_frames rfl (.of goCourse_frames rfl (.of mmFail_frames rfl (.of checkEvent_frames rfl ht)))
      split
      · have h3 : ThreeLists t3 := by
          unfold t3
          split
          · exact .of checkEvent_frames rfl h2
          · exact h2
        exact .of castReady_frames rfl (.of goCourse_frames rfl (.of releasePass_frames rfl h3))
      · split
        · exact .of ctrAdd_frames rfl h5
        · exact .ite (hgive _ h5) (.ite (hgive _ (.of askTest_frames rfl h5)) (.ite (courseOut_three (hgive _ h6)) h6))

theorem execLaneSubstitution_three {n : Fin 8} {ok : Pass} : ThreeNext (execLaneSubstitution n ok s) := by
  unfold execLaneSubstitution
  refine .powered h ?_
  extract_lets k boundary
  split
  · exact h
  · extract_lets mine t1 old
    have h1 : ThreeLists t1 := h
    refine .ite h ?_
    split
    · split
      · exact .ite (courseOut_three h1) (courseOut_three (.of castReady_frames rfl (.of goCourse_frames rfl (.of mmFail_frames rfl (.of checkEvent_frames rfl h1)))))
      · exact courseOut_three h1
    · extract_lets t2 t3 t4
      have h4 : ThreeLists t4 := .of genBump_frames rfl (.of repairDone_frames rfl h)
      refine .ite h ?_
      split
      next v t5 e =>
      have h5 : ThreeLists t5 := .of_snd e (.of fresh_frames rfl h4)
      extract_lets ns t6 t7 t8
      have h7 : ThreeLists t7 := .of cardPoint_frames rfl (.of pointLog_frames rfl h5)
      have h8 : ThreeLists t8 := by
        unfold t8
        split
        · exact .of checkEvent_frames rfl h7
        · exact h7
      exact .ite (.of ctrAdd_frames rfl h8) h7

theorem execAttemptStart_three {c : Fin 16} : ThreeNext (execAttemptStart c s) := by
  unfold execAttemptStart
  refine .powered h ?_
  split
  · extract_lets k failed t1 prompt pointing stroke
    have h1 : ThreeLists t1 := .ite (leaveCourses_three h) h
    refine .ite h ?_
    split
    extract_lets on late t2 a arr cut t3
    have h2 : ThreeLists t2 := .ite (.of_power h1 rfl) h1
    have h3 : ThreeLists t3 := h2
    exact .ite (.of castReady_frames rfl (.of endStroke_frames rfl h)) (.ite h (.of castReady_frames rfl h3))
  · exact h

theorem execCoxRetire_three {p : Fin 8} {layer : Nat} : ThreeNext (execCoxRetire p layer s) := by
  unfold execCoxRetire
  refine .powered h ?_
  split
  · exact h
  · extract_lets fed res t1 t2 t3 t4
    have h1 : ThreeLists t1 := h
    have h2 : ThreeLists t2 := .ite h1 (.of ctrAdd_frames rfl h1)
    have h3 : ThreeLists t3 := .of retireNoted_frames rfl h2
    have h4 : ThreeLists t4 := .foldl (fun _ _ ht => laneGap_three ht) h3
    exact .ite h (.of castReady_frames rfl (.of goCoxAll_frames rfl h4))

theorem execTrowelRetire_three {n : Fin 8} : ThreeNext (execTrowelRetire n s) := by
  unfold execTrowelRetire
  refine .powered h ?_
  split
  · exact h
  · extract_lets t1 ran t2 t3 t4
    have h1 : ThreeLists t1 := h
    have h2 : ThreeLists t2 := .ite (.of stallAdd_frames rfl (.of stallAdd_frames rfl (.of ctrAdd_frames rfl h1))) h1
    have h3 : ThreeLists t3 := .of retireUnit_frames rfl h2
    have h4 : ThreeLists t4 := .ite (.of tilesGive_frames rfl h3) h3
    exact .ite h (.of castReady_frames rfl (.of goCourse_frames rfl (.of goTrowel_frames rfl (laneGap_three h4))))

theorem execPalletBankSubstitution_three {n : Fin 8} {b : Fin 128} : ThreeNext (execPalletBankSubstitution n b s) := by
  unfold execPalletBankSubstitution
  refine .powered h ?_
  extract_lets p old
  split
  · exact courseOut_three h
  · extract_lets t1 t2 t3
    have h1 : ThreeLists t1 := h
    have h2 : ThreeLists t2 := .of genBump_frames rfl (.of repairDone_frames rfl h1)
    exact .of cardPoint_frames rfl (.of pointLog_frames rfl h2)

theorem laneFailed_three {n : Fin 8} {x : Nat} : ThreeLists (laneFailed s n x) := by
  unfold laneFailed
  extract_lets k t1 t2
  have h1 : ThreeLists t1 := .of testFailed_frames rfl h
  have h2 : ThreeLists t2 := h1
  refine .ite h ?_
  split
  · exact .of mapWrite_frames rfl h1
  · exact .ite h1 (.ite (courseOut_three h2) h2)

theorem execCourseLaneSelfTest_three {n : Fin 8} {first : Nat} {failing : List Nat} : ThreeNext (execCourseLaneSelfTest n first failing s) := by
  unfold execCourseLaneSelfTest
  refine .powered h ?_
  extract_lets idle lanes t
  have ht : ThreeLists t := .foldl (fun _ _ hu => laneFailed_three hu) h
  exact .ite h (.ite (.of actDone_frames rfl ht) ht)

theorem execTrowelCoxLaneTest_three {u : LaneUnit} {failing : Nat} : ThreeNext (execTrowelCoxLaneTest u failing s) := by
  unfold execTrowelCoxLaneTest
  refine .powered h ?_
  extract_lets idle unit there t
  have ht : ThreeLists t := by
    unfold t
    cases u with
    | trowel n => exact .of actDone_frames rfl h
    | cox f => exact .ite (.of actDone_frames rfl h) h
  refine .ite h (.ite ht (laneGap_three ?_))
  exact ht

theorem execLockstepMismatch_three {core0 core1 spare : Pass} : ThreeNext (execLockstepMismatch core0 core1 spare s) := by
  unfold execLockstepMismatch
  refine .powered h ?_
  extract_lets p
  have hleave : ThreeLists (leaveService (setDegraded { s with pointing := { s.pointing with lockstep := false } } 4)) :=
    leaveService_three (.of setDegraded_frames rfl h)
  refine .ite h ?_
  split
  · refine .ite ?_ hleave
    exact .of pointLog_frames rfl (.of repairDone_frames rfl h)
  · exact hleave

end

end Sys2Proof.Machine
end

section
/-! The power lists through function resets, the streams, the Rigger and the resets (R425, R427, R428). -/

namespace Sys2Proof.Machine

open Sys2Proof

section
variable {s : State} (h : ThreeLists s)
include h

/-! ## The host port -/

theorem funcReset_three {f : Fin 9} : ThreeLists (funcReset s f) := by
  unfold funcReset
  extract_lets t1 doms t2 owned counted vals ctr events keep group dict counters host power t3 func t4
  have h1 : ThreeLists t1 := .of endOpenOf_frames rfl h
  have h2 : ThreeLists t2 := by
    unfold t2
    split
    · exact .of partReset_frames rfl h1
    · exact h1
  have h3 : ThreeLists t3 := h2
  have h4 : ThreeLists t4 := h3
  exact .foldl (fun _ _ ht => .of genBump_frames rfl ht) h4

theorem hotReset_three : ThreeLists (hotReset s) := by
  unfold hotReset
  extract_lets t
  have ht : ThreeLists t := .foldl (fun _ _ ht => funcReset_three ht) h
  clear_value t
  exact .of castReady_frames rfl (.of_power ht rfl)

theorem execVfFlr_three {p : Fin 8} : ThreeNext (execVfFlr p s) := .powered h (.of castReady_frames rfl (funcReset_three h))

theorem execPf0Flr_three : ThreeNext (execPf0Flr s) := .powered h (.of castReady_frames rfl (funcReset_three h))

theorem execHotReset_three : ThreeNext (execHotReset s) := .powered h (hotReset_three h)

theorem execLinkTraining_three {rate : Fin 6} {lanes : Nat} {flit : Bool} {retimers : Nat} : ThreeNext (execLinkTraining rate lanes flit retimers s) := by
  unfold execLinkTraining
  refine .powered h ?_
  extract_lets steps t1 t2 t3
  have h1 : ThreeLists t1 := .of ctrAdd_frames rfl h
  have h2 : ThreeLists t2 := .ite (hotReset_three h) h
  have h3 : ThreeLists t3 := .of ctrAdd_frames rfl h2
  split
  · split
    next v u1 e1 =>
    split
    next w u2 e2 =>
    extract_lets t4
    have h4 : ThreeLists u2 := .of_snd e2 (.of fresh_frames rfl (.of_snd e1 (.of fresh_frames rfl h1)))
    have h5 : ThreeLists t4 := .ite (hotReset_three h4) h4
    exact h5
  · exact h3

theorem execEntryAccept_three {f : Fin 9} {q : Fin 64} : ThreeNext (execEntryAccept f q s) := by
  unfold execEntryAccept
  refine .powered h ?_
  split
  · extract_lets t1 t2 power t3
    have h1 : ThreeLists t1 := .of updStream_frames rfl h
    have h2 : ThreeLists t2 := .of evAdd_frames rfl h1
    have h3 : ThreeLists t3 := h2
    exact .ite h (.of writeAccept_frames rfl h3)
  · exact h

theorem removalCheck_three : ThreeLists (removalCheck s) := .ite h (.of raiseEvent_frames rfl h)

theorem execRetirement_three {f : Fin 9} {q : Fin 64} : ThreeNext (execRetirement f q s) := by
  unfold execRetirement
  refine .powered h ?_
  extract_lets t1 k cnt ps
  have h1 : ThreeLists t1 := by
    unfold t1
    split
    · exact .of fenceLost_frames rfl h
    · exact h
  split
  · exact h1
  · extract_lets n cext r ev
    refine .ite h1 ?_
    split
    extract_lets a t2 t3 t4 t5 t6 t7 t8
    have h2 : ThreeLists t2 := .of hostWrite_frames rfl h1
    have h3 : ThreeLists t3 := .of updStream_frames rfl h2
    have h4 : ThreeLists t4 := .of evAdd_frames rfl h3
    have h5 : ThreeLists t5 := .of ownerSignal_frames rfl (.of signalEv_frames rfl h4)
    have h6 : ThreeLists t6 := .of stampMark_frames rfl h5
    have h7 : ThreeLists t7 := .of freeHods_frames rfl (.of doRegionWrites_frames rfl h6)
    have h8 : ThreeLists t8 := .ite (passBoundary_three h7) h7
    exact .ite (.ite h1 (.of haltStream_frames rfl h1)) (removalCheck_three (.ite (.of notify_frames rfl h8) h8))

theorem execLaserSwitch_three {i : Fin 12} {uw : Nat} : ThreeNext (execLaserSwitch i uw s) := by
  unfold execLaserSwitch
  refine .powered h ?_
  split
  · exact h
  · extract_lets put t1 lit t2
    have hput : ∀ t g, ThreeLists t → ThreeLists (put t g) := fun t g ht => by
      unfold put
      exact .of genBump_frames rfl ht
    clear_value put
    have h1 : ThreeLists t1 := hput _ _ h
    have h2 : ThreeLists t2 := .ite (hotReset_three h1) (.ite (.of ctrAdd_frames rfl h1) h1)
    refine .ite (hput _ _ h) (.ite (hput _ _ h) ?_)
    split
    · split
      next v u e =>
      extract_lets t3 t4 ns
      have h3 : ThreeLists t3 := hput _ _ (.of_snd e (.of fresh_frames rfl h))
      have h4 : ThreeLists t4 := .ite (.of nextSwap_frames rfl (.of abortSwap_frames rfl h3)) h3
      exact .of cardPoint_frames rfl (.of pointLog_frames rfl (.of repairDone_frames rfl h4))
    · exact .ite h1 (.ite (.of castReady_frames rfl (.of setDegraded_frames rfl (.of takeDown_frames rfl (.of takeDown_frames rfl h1)))) (.of setDegraded_frames rfl h2))

/-! ## The Rigger -/

theorem takePacket_three {p : Fin 16} {bytes : List Byte} : ThreeLists (takePacket s p bytes) := by
  unfold takePacket
  extract_lets k power t1 n t2 t3 t4
  have h1 : ThreeLists t1 := h
  have h2 : ThreeLists t2 := h1
  have h3 : ThreeLists t3 := .of evAdd_frames rfl (.of ctrAdd_frames rfl h2)
  have h4 : ThreeLists t4 := .of deliverOr_frames rfl h3
  exact .ite h (.ite (.of sendNak_frames rfl (.of ctrAdd_frames rfl h1)) (.ite (.of sendCtl_frames rfl h1) (.ite (.of sendNak_frames rfl h1) (.ite (.of sendCtl_frames rfl h4) h4))))

theorem execPacketReceive_three {p : Fin 16} {bytes : List Byte} : ThreeNext (execPacketReceive p bytes s) := .powered h (takePacket_three h)

theorem dataSlot_three {p : Fin 16} {w : BitVec 256} : ThreeLists (dataSlot s p w) := by
  unfold dataSlot
  extract_lets k bs
  have hasm : ThreeLists (updPort s p fun k => { k with asm := [] }) := h
  exact .ite h (.ite h (takePacket_three hasm))

theorem takeCodeword_three {p : Fin 16} {l : Nat} {x : LaneCode} : ThreeLists (takeCodeword s p l x) := by
  unfold takeCodeword
  split
  · exact h
  · exact .foldl (fun _ _ ht => .ite (.of controlSlot_frames rfl ht) (dataSlot_three ht)) h

end

theorem drainLanes_three {k : Nat} {s : State} {p : Fin 16} (h : ThreeLists s) : ThreeLists (drainLanes k s p) := by
  induction k generalizing s with
  | zero => exact h
  | succ k ih =>
    unfold drainLanes
    extract_lets port l
    split
    · exact h
    · refine ih (takeCodeword_three ?_)
      exact h

section
variable {s : State} (h : ThreeLists s)
include h

theorem laneReads_three {b : Fin 8} {l : Nat} {x : LaneCode} : ThreeLists (laneReads s b l x) := by
  unfold laneReads
  extract_lets p i t1 t2
  have h1 : ThreeLists t1 := h
  have h2 : ThreeLists t2 := h1
  exact .ite h1 (.ite h1 (drainLanes_three h2))

theorem compareCopies_three {b : Fin 8} {w : Swap} : ThreeLists (compareCopies s b w) := by
  unfold compareCopies
  extract_lets put
  have hput : ∀ t w, ThreeLists t → ThreeLists (put t w) := fun t w ht => ht
  split
  · extract_lets n t1 t2 t3
    have h1 : ThreeLists t1 := hput _ _ h
    have h2 : ThreeLists t2 := h1
    have h3 : ThreeLists t3 := .foldl (fun _ _ ht => laneReads_three ht) h2
    exact .ite (hput _ _ h) (.of finishSwap_frames rfl (.of sendSpare_frames rfl h3))
  · exact hput _ _ h

theorem readCodeword_three {b : Fin 8} {x : LaneCode} : ThreeLists (readCodeword s b x) := by
  unfold readCodeword
  extract_lets k
  split
  · split
    · split
      · exact laneReads_three h
      · exact h
    · split
      · exact .ite (laneReads_three h) (compareCopies_three h)
      · split
        · exact h
        · extract_lets t
          have ht : ThreeLists t := laneReads_three h
          refine .ite (laneReads_three h) (.ite h ?_)
          split
          · exact .ite (compareCopies_three ht) ht
          · exact ht
  · split
    · exact laneReads_three h
    · exact h

theorem execCodewordReceive_three {b : Fin 8} {pl : LaneEnds} {w : SentCodeword} : ThreeNext (execCodewordReceive b pl w s) :=
  .powered h (readCodeword_three (.of countCodeword_frames rfl h))

/-! ## Warm and cold resets -/

theorem retireStacks_three : ThreeLists (retireStacks s) := by
  unfold retireStacks
  extract_lets go out t1 t2 g mems layers hbm t3 t4 t5 t6
  have hout : ∀ t k, ThreeLists t → ThreeLists (out t k) := fun t k ht => by
    unfold out
    exact .of pointLog_frames rfl ht
  have h1 : ThreeLists t1 := .foldl hout h
  have h2 : ThreeLists t2 := .foldl (fun _ _ ht => .of genBump_frames rfl (.of dropObj_frames rfl ht)) h1
  have h3 : ThreeLists t3 := h2
  have h4 : ThreeLists t4 := .foldl (fun _ _ ht => .of strokeLost_frames rfl ht) h3
  have h5 : ThreeLists t5 := .foldl (fun _ _ ht => .of ringsCheck_frames rfl ht) h4
  have h6 : ThreeLists t6 := .of setDegraded_frames rfl (.of genBump_frames rfl (.of mapWrite_frames rfl h5))
  exact .ite h (.ite (leaveService_three h6) h6)

theorem warmBooted_three {cause : Nat} {bring : Bool} : ThreeLists (warmBooted s cause bring) := by
  unfold warmBooted
  extract_lets b next power src t
  have hb : ThreeLists b.1 := .of boot_frames rfl h
  have ht : ThreeLists t := hb
  exact .ite (.of leaveBringUp_frames rfl ht) ht

theorem warmReset_three {cause : Nat} {bring : Bool} : ThreeLists (warmReset s cause bring) := by
  unfold warmReset
  extract_lets t1 t2 n0 v n1 t3 t4 t5 journal t6 t7
  have h1 : ThreeLists t1 := .of pagesReset_frames rfl (.of lastEvents_frames rfl h)
  have h2 : ThreeLists t2 := .ite (.of ctrAdd_frames rfl h1) h1
  have h3 : ThreeLists t3 := warmBooted_three (.of warmStopped_frames rfl (.of fresh_frames rfl h2))
  have h4 : ThreeLists t4 := .of traceEnd_frames rfl (.of groupsMiss_frames rfl h3)
  have h5 : ThreeLists t5 := .of portsRetrain_frames rfl (retireStacks_three (.of mapApply_frames rfl h4))
  clear_value t5
  have h6 : ThreeLists t6 := .ite h5 (.of_power h5 rfl)
  have h7 : ThreeLists t7 := .foldl (fun _ _ ht => .of resumeFunc_frames rfl ht) h6
  exact .of castReady_frames rfl (.foldl (fun _ _ ht => .of crewReset_frames rfl ht) h7)

theorem execWatchdogExpiry_three : ThreeNext (execWatchdogExpiry s) := by
  unfold execWatchdogExpiry
  refine .powered h ?_
  apply warmReset_three
  exact .of_lists h rfl rfl

/-! ## Clocks, power and temperature -/

theorem stepClock_three {d : Nat} {up : Bool} : ThreeLists (stepClock s d up) := by
  unfold stepClock
  extract_lets p v w last
  refine .ite h (.of ctrAdd_frames rfl ?_)
  unfold updPower setFreq
  dsimp only
  refine (?_ : ThreeEach _ _).set_step _ _
  split
  · exact h
  · split
    · exact h
    · exact h

theorem capControl_three : ThreeLists (capControl s) := by
  unfold capControl
  extract_lets p avg cap due t1 n t2
  have h1 : ThreeLists t1 := h
  have h2 : ThreeLists t2 := h
  have hset : ∀ t d up, ThreeLists t → ThreeLists (updPower (stepClock t d up) fun p => { p with capStep := t.now }) := fun t d up ht => stepClock_three ht
  split
  · split
    · exact .ite (hset t1 _ _ h1) h1
    · exact h1
  · refine .ite h2 ?_
    split
    · exact .ite (hset t2 _ _ h2) h2
    · exact h2

theorem execPowerSample_three {w mv : Nat} : ThreeNext (execPowerSample w mv s) := by
  unfold execPowerSample
  refine .powered h ?_
  extract_lets old t1 t2 t3 t4 t5
  have h1 : ThreeLists t1 := .of_power h rfl
  have h2 : ThreeLists t2 := .of_lists h1 rfl rfl
  have h3 : ThreeLists t3 := h2.set_step _ _
  have h4 : ThreeLists t4 := .of ctrAdd_frames rfl h3
  have h5 : ThreeLists t5 := .ite h2 (.of raiseEvent_frames rfl h4)
  exact .of powerEvents_frames rfl (capControl_three h5)

theorem execClockStep_three {d : Fin 3} {up : Bool} : ThreeNext (execClockStep d up s) := by
  unfold execClockStep
  refine .powered h ?_
  extract_lets ask last
  exact .ite h (stepClock_three (.ite h (.of reach_frames rfl h)))

theorem tripOff_three {cause : Nat} {v : Int} : ThreeLists (tripOff s cause v) := h

theorem execUnderVoltageTrip_three {mv : Nat} : ThreeNext (execUnderVoltageTrip mv s) := .powered h (.ite h (tripOff_three h))

theorem execOverVoltageTrip_three {mv : Nat} : ThreeNext (execOverVoltageTrip mv s) := by
  unfold execOverVoltageTrip
  split
  · intro t e
    cases e
  · exact .powered h (.ite h (tripOff_three h))

theorem throttleControl_three {hot : Int} : ThreeLists (throttleControl s hot) := by
  unfold throttleControl
  extract_lets p limit due t1 n t2
  have h1 : ThreeLists t1 := h
  have h2 : ThreeLists t2 := h
  have hset : ∀ t d up, ThreeLists t → ThreeLists (updPower (stepClock t d up) fun p => { p with thrStep := t.now }) := fun t d up ht => stepClock_three ht
  split
  · split
    · exact .ite (hset t1 _ _ h1) h1
    · exact h1
  · refine .ite h2 ?_
    split
    · exact .ite (hset t2 _ _ h2) (.ite h2 h2)
    · exact h2

theorem execThermalSample_three {junctions stackTemps : List Int} : ThreeNext (execThermalSample junctions stackTemps s) := by
  unfold execThermalSample
  refine .powered h ?_
  extract_lets old t1 js ts hot least halved t2
  have h1 : ThreeLists t1 := .of_power h rfl
  have h2 : ThreeLists t2 := h1
  exact .ite (tripOff_three h2) (.ite (tripOff_three h2) (.of powerEvents_frames rfl (throttleControl_three h2)))

theorem execReferenceLoss_three {ref : Fin 3} : ThreeNext (execReferenceLoss ref s) := by
  unfold execReferenceLoss
  refine .powered h ?_
  extract_lets t1 told
  have h1 : ThreeLists t1 := h.set_ref _ _
  have htold : ∀ t, ThreeLists t → ThreeLists (told t) := fun t ht => by
    unfold told
    exact .of raiseEvent_frames rfl ht
  refine .ite h (.ite (hotReset_three (htold _ h1)) (.ite (tripOff_three h1) ?_))
  split
  next v t2 e =>
  extract_lets t3 t4
  have h2 : ThreeLists t2 := .of_snd e (.of fresh_frames rfl h1)
  have h3 : ThreeLists t3 := .of_lists h2 rfl rfl
  have h4 : ThreeLists t4 := htold _ (.of pointLog_frames rfl h3)
  exact .ite (.foldl (fun _ _ ht => .of hodPartFault_frames rfl ht) h4) h4

theorem execIdleEntry_three : ThreeNext (execIdleEntry s) := .powered h (.ite h h)

theorem prepareRemoval_three : ThreeLists (prepareRemoval s) := .ite h (removalCheck_three (.of moduleEvent_frames rfl h))

end

end Sys2Proof.Machine
end

section
/-! The power lists through part resets, cold starts, writes of the dictionary and its services, and so through every step (R425, R427, R428). -/

namespace Sys2Proof.Machine

open Sys2Proof

/-- Reading the boot image keeps the lists, whether it is found or not. -/
theorem bootOr_three {t : State} (ht : ThreeLists t) :
    ThreeLists (if (boot (mapApply (coldContents t))).2 then (boot (mapApply (coldContents t))).1
      else updPower (boot (mapApply (coldContents t))).1 fun p => { p with bringUp := .rom }) := by
  have hb : ThreeLists (boot (mapApply (coldContents t))).1 := .of boot_frames rfl (.of mapApply_frames rfl (.of coldContents_frames rfl ht))
  exact .ite hb (.of_lists hb rfl rfl)

section
variable {s : State} (h : ThreeLists s)
include h

/-! ## Parts and cold starts -/

theorem execPartReset_three {kind : Fin 9} {n : Nat} : ThreeNext (execPartReset kind n s) := by
  unfold execPartReset
  refine .powered h ?_
  extract_lets t0 c q k qt g
  have h0 : ThreeLists t0 := .of_lists h rfl rfl
  clear_value t0
  split
  · split
    next g t1 e1 =>
    split
    next d t2 e2 =>
    split
    next tiles t3 e3 =>
    extract_lets t4 t5
    have h1 : ThreeLists t1 := .of_snd e1 (.of freshGen_frames rfl h0)
    have h2 : ThreeLists t2 := .of_snd e2 (.of freshGen_frames rfl h1)
    have h3 : ThreeLists t3 := .of_snd e3 (.of freeTiles_frames rfl h2)
    have h5 : ThreeLists t5 := h3
    exact .of castReady_frames rfl (.of unitsFail_frames rfl h5)
  · exact .of castReady_frames rfl (.of unitsFail_frames rfl (.of_power h0 rfl))
  · exact .of hodPartFault_frames rfl h0
  · split
    next g t1 e1 => exact .of palletWriteL_frames rfl (.of_snd e1 (.of freshGen_frames rfl h0))
  · exact .of castReady_frames rfl (.of coreReset_frames rfl h0)
  · exact .of castReady_frames rfl (.of takeDown_frames rfl h0)
  · exact .of castReady_frames rfl (.of coxReset_frames rfl h0)
  · exact h0

omit h in
/-- The power state of a cold start is that of reset but for its counts and the last shutdown. -/
theorem coldStarted_three {lasers : List Nat} : ThreeLists (coldStarted lasers s) := by
  unfold coldStarted
  dsimp only
  refine bootOr_three ?_
  exact ⟨rfl, rfl⟩

theorem execColdStart_three {lasers : List Nat} : ThreeNext (execColdStart lasers s) := by
  unfold execColdStart
  intro t e
  obtain rfl := Host.Outcome.next.inj e
  exact .ite h coldStarted_three

/-! ## Writes of the dictionary -/

theorem partsLeave_three {t : State} : ThreeLists (partsLeave s t) := by
  unfold partsLeave
  extract_lets ends moves cut t1 end_
  have hcut : ∀ u n, ThreeLists u → ThreeLists (cut u n) := fun u n hu => by
    unfold cut
    split
    · exact .ite (.of dropObj_frames rfl (.of dropObj_frames rfl hu)) hu
    · exact hu
  have h1 : ThreeLists t1 := .foldl hcut h
  have hend : ∀ u p, ThreeLists u → ThreeLists (end_ u p) := fun u p hu => by
    unfold end_
    exact .of genBump_frames rfl (.of dropObj_frames rfl (.foldl (fun _ _ hv => .of dropObj_frames rfl (.of dissolveCrew_frames rfl hv)) (funcReset_three hu)))
  exact .foldl (fun _ _ hu => .of courseZeroed_frames rfl hu) (.foldl hend h1)

theorem takeForce_three {vs : List (ObjKey × List Byte)} : ThreeLists (takeForce s vs) := by
  unfold takeForce
  extract_lets ks layed t1 t2 anchors t3 t4 t5 t6 t7
  have h1 : ThreeLists t1 := .ite (partsLeave_three h) h
  have h2 : ThreeLists t2 := .foldl (fun _ _ ht => .of setBucket_frames rfl ht) h1
  have h3 : ThreeLists t3 := .foldl (fun _ _ ht => .of takeValue_frames rfl ht) h2
  have h4 : ThreeLists t4 := .foldl (fun _ _ ht => .of afterValue_frames rfl ht) h3
  have h5 : ThreeLists t5 := .ite (.of anchorsChanged_frames rfl h4) h4
  have h6 : ThreeLists t6 := .foldl (fun _ _ ht => .of applyMembership_frames rfl ht) h5
  have h7 : ThreeLists t7 := .ite (.of groupsCheck_frames rfl h6) h6
  exact .of castReady_frames rfl (.of moduleEvent_frames rfl h7)

theorem applySet_three {x : PendSet} : ThreeLists (applySet s x) := by
  unfold applySet
  split
  next t stored e =>
  have ht : ThreeLists t := .of_fst e (.of storeFlash_frames rfl (takeForce_three h))
  exact .of endPending_frames rfl ht

theorem woAction_three {r : Req} {idx sub : Nat} {d : List Byte} : ThreeLists (woAction s r idx sub d).1 := by
  unfold woAction
  extract_lets a v code c pointing
  have hcode : ∀ x, ThreeLists x.1 → ThreeLists (code x).1 := fun x hx => hx
  clear_value code v
  refine .ite_fst (.of askRetire_frames rfl h) (.ite_fst (.ite_fst h (.of startMargin_frames rfl h)) (.ite_fst ?stream (.ite_fst (.of signalEv_frames rfl h) (.ite_fst ?crew
    (.ite_fst (.of clearDirty_frames rfl h) (.ite_fst ?sets (.ite_fst (.of_power h rfl) (.ite_fst ?removal (.ite_fst ?images (.ite_fst (.of attest_frames rfl h) h))))))))))
  case stream =>
    split
    next t e => exact .of (streamControl_frames t e) rfl h
    · exact h
  case crew =>
    refine .ite_fst (hcode _ (.of loadLayers_frames rfl h)) ?_
    split
    · exact hcode _ (.of requestRun_frames rfl h)
    · exact hcode _ (.of requestTest_frames rfl h)
    · dsimp only
      exact .of castReady_frames rfl (.of dissolveCrew_frames rfl h)
  case sets =>
    refine .ite_fst ?_ ?_
    · split
      · exact .ite_fst (.of endOpen_frames rfl h) h
      · exact h
    · split
      · extract_lets kept
        exact .ite_fst h (.ite_fst (.of endPending_frames rfl h) h)
      · exact h
  case removal => exact .ite_fst (.ite (prepareRemoval_three h) h) (.ite_fst h h)
  case images =>
    split
    · exact .ite_fst (hcode _ (.of burnOwner_frames rfl h)) h
    · exact .ite_fst (hcode _ (.of advanceRollback_frames rfl h)) h
    · exact .ite_fst h (hcode _ (.of imageWrite_frames rfl h))
    · exact .ite_fst h (hcode _ (.of imageWrite_frames rfl h))

theorem objWrite_three {r : Req} {idx sub off : Nat} {d : List Byte} : ThreeLists (objWrite s r idx sub off d).1 := by
  unfold objWrite
  extract_lets a k w named t
  have ht : ThreeLists t := .of afterValue_frames rfl (.of takeValue_frames rfl h)
  clear_value t
  split
  · exact h
  · refine .ite_fst h (.ite_fst h (.ite_fst h (.ite_fst h ?_)))
    split
    · exact h
    · refine .ite_fst h (.ite_fst ?_ (.of moduleEvent_frames rfl (.of storeFlash_frames rfl ht)))
      split
      next u c x e => exact .of moduleEvent_frames rfl (.of_fst e (woAction_three h))

theorem svcWrite_three {r : Req} {m : SvcMsg} : ThreeLists (svcWrite s r m).1 := objWrite_three h

theorem transferDone_three {r : Req} {idx sub access : Nat} {d : List Byte} : ThreeLists (transferDone s r idx sub access d).1 := by
  unfold transferDone
  split
  · split
    · split
      · exact h
      · split
        · exact .of genBump_frames rfl (.of putSet_frames rfl h)
        · exact h
    · exact h
  · exact objWrite_three h

theorem takeSegment_three {r : Req} {m : SvcMsg} {i : ObjInfo} {t : Transfer} : ThreeLists (takeSegment s r m i t).1 := by
  unfold takeSegment
  extract_lets off e last bytes u
  have hu : ThreeLists u := .of putTransfer_frames rfl h
  refine .ite_fst h (.ite_fst h (.ite_fst hu (.ite_fst hu (.ite_fst (.of dropTransfer_frames rfl hu) ?_))))
  split
  next v c e => exact .of_fst e (transferDone_three (.of dropTransfer_frames rfl hu))

theorem svcWriteSeg_three {r : Req} {m : SvcMsg} : ThreeLists (svcWriteSeg s r m).1 := by
  unfold svcWriteSeg
  extract_lets idx sub a k total dict t
  have ht : ThreeLists t := .of_power h rfl
  split
  · exact h
  · refine .ite_fst h (.ite_fst h (.ite_fst h (.ite_fst h ?_)))
    split
    · exact .ite_fst h (takeSegment_three h)
    · exact .ite_fst h (.ite_fst h (.ite_fst ht (takeSegment_three ht)))

theorem svc_three {r : Req} {b : Option (Fin 9 × Fin 64)} {op : Nat} {m : SvcMsg} : ThreeLists (svc s r b op m).1 := by
  unfold svc
  extract_lets t
  have ht : ThreeLists t := .of leaseCheck_frames rfl h
  split
  · exact ht
  · split
    · exact .of svcRead_frames rfl ht
    · exact svcWrite_three ht
    · exact .of svcReadSeg_frames rfl ht
    · exact svcWriteSeg_three ht
    · exact .of svcTransferStatus_frames rfl ht
    · exact .of svcOpen_frames rfl ht
    · exact .of svcStage_frames rfl ht
    · exact .of svcCheck_frames rfl ht
    · exact .of svcCommit_frames rfl ht
    · exact .of svcAbort_frames rfl ht
    · exact .of svcRenew_frames rfl ht
    · exact ht

theorem thenReset_three {op code : Nat} {m : SvcMsg} : ThreeLists (thenReset s op code m) := by
  unfold thenReset
  split
  · exact warmReset_three h
  · exact h

theorem ask_three {r : Req} {op : Nat} {m : SvcMsg} : ThreeLists (ask s r op m) := by
  unfold ask
  split
  next t code rsp e =>
  have ht : ThreeLists t := .of_fst e (svc_three h)
  exact thenReset_three (.of emit_frames rfl ht)

theorem rowWrite_three {r : Req} {idx sub off : Nat} {d : List Byte} : ThreeLists (rowWrite s r idx sub off d) := by
  unfold rowWrite
  extract_lets t
  have ht : ThreeLists t := .of leaseCheck_frames rfl h
  exact .ite ht (objWrite_three ht)

/-- A write into an object of the requester's own partition; without one it is refused. -/
theorem execCollectiveRegionWrite_three {r : Req} {i : Fin 4096} {d : BitVec 128} : ThreeNext (execCollectiveRegionWrite r i d s) := by
  refine .powered h ?_
  split
  · exact rowWrite_three h
  · exact h

theorem execSendonHandleWrite_three {r : Req} {i : Fin 4095} {d : BitVec 128} : ThreeNext (execSendonHandleWrite r i d s) := by
  refine .powered h ?_
  split
  · exact rowWrite_three h
  · exact h

theorem execClearDirty_three {r : Req} {layer : BitVec 32} : ThreeNext (execClearDirty r layer s) := by
  refine .powered h ?_
  split
  · exact rowWrite_three h
  · exact h

theorem resetRow_three {r : Req} {v : Byte} : ThreeLists (resetRow s r v) := by
  unfold resetRow
  extract_lets t
  have ht : ThreeLists t := .of leaseCheck_frames rfl h
  refine .ite ht ?_
  split
  next u c x e =>
  have hu : ThreeLists u := .of_fst e (objWrite_three ht)
  exact .ite ht (warmReset_three hu)

theorem execWarmReset_three {r : Option Req} : ThreeNext (execWarmReset r s) := by
  unfold execWarmReset
  refine .powered h ?_
  split
  · exact resetRow_three h
  · exact .ite (warmReset_three h) h

theorem execApplyPoint_three {id : BitVec 32} : ThreeNext (execApplyPoint id s) := by
  unfold execApplyPoint
  refine .powered h ?_
  split
  · exact h
  · refine .ite h ?_
    split
    · exact h
    next t e =>
      have ht : ThreeLists t := .of (pointCome_frames t e) rfl h
      refine .ite ht ?_
      split
      · exact .ite (applySet_three ht) (.of_power ht rfl)
      · exact .of putConflicts_frames rfl (.of endPending_frames rfl ht)

theorem execRegionZeroFill_three {p : Fin 8} : ThreeNext (execRegionZeroFill p s) := by
  unfold execRegionZeroFill
  refine .powered h ?_
  split
  · exact h
  · extract_lets t x put
    have ht : ThreeLists t := .of zeroBlocks_frames rfl h
    exact .ite (applySet_three ht) ht

theorem svcSession_three {i : Fin 8} {op : Nat} {m : SvcMsg} : ThreeLists (svcSession s i op m).1 := by
  unfold svcSession
  split
  · exact .of svcSubscribe_frames rfl h
  · split
    · exact h
    · exact h
  · exact svc_three h

theorem runRequest_three {i : Fin 8} {f : HeldFrame} : ThreeLists (runRequest s i f) := by
  unfold runRequest
  extract_lets line first t
  have ht : ThreeLists t := .of_power h rfl
  clear_value t
  split
  next u op code rsp e =>
  have hu : ThreeLists u := by
    split at e
    · exact (congrArg (ThreeLists ∘ Prod.fst) e).mp (svcSession_three ht)
    · exact (congrArg (ThreeLists ∘ Prod.fst) e).mp ht
  extract_lets n u1 u2
  have h1 : ThreeLists u1 := .of sendResponse_frames rfl hu
  have h2 : ThreeLists u2 := .ite (.of closeSession_frames rfl h1) h1
  refine .ite hu ?_
  split
  · exact warmReset_three (.of emitSince_frames rfl h2)
  · exact h2

theorem execRequest_three {i : Fin 8} {tseq : BitVec 16} {tag : BitVec 128} {msg : List Byte} : ThreeNext (execRequest i tseq tag msg s) := by
  unfold execRequest
  refine .powered h (.ite h ?_)
  split
  · exact .ite (runRequest_three h) (.of sendAck_frames rfl h)
  · extract_lets t
    have ht : ThreeLists t := .of windowJudge_frames rfl (.of_power h rfl)
    split
    · exact .ite (runRequest_three ht) ht
    · exact ht

theorem startEntry_three {f : Fin 9} {q op : Nat} {rsv : List (Nat × Nat)} {go : EntryRun → State} (hgo : ∀ e, ThreeLists (go e)) :
    ThreeLists (startEntry s f q op rsv go) := by
  unfold startEntry
  split
  · exact h
  · exact .ite h (.ite (.of finishNow_frames rfl h) (.ite (.of finishNow_frames rfl h) (.ite h (hgo _))))

theorem execDict_three {f : Fin 9} {q : Fin 64} : ThreeNext (execDict f q s) := by
  unfold execDict
  refine .powered h ?_
  extract_lets e okay t
  have ht : ThreeLists t := by
    refine startEntry_three h fun e => ?_
    extract_lets b
    have hfinish : ∀ res, ThreeLists (finishNow s f q e res) := fun _ => .of finishNow_frames rfl h
    refine .ite h (.ite (hfinish _) ?_)
    split
    · exact hfinish _
    · exact hfinish _
    · extract_lets run
      have hrun : ThreeLists run := .of updEntry_frames rfl (.of entryStart_frames rfl h)
      clear_value run
      split
      next u op code rsp e =>
      have hu : ThreeLists u := by
        split at e
        · exact (congrArg (ThreeLists ∘ Prod.fst) e).mp (svc_three hrun)
        · exact (congrArg (ThreeLists ∘ Prod.fst) e).mp hrun
      extract_lets rb v
      have hv : ThreeLists v := .of spaceWriteL_frames rfl hu
      exact .ite (hfinish _) (.of entryDone_frames rfl hv)
  clear_value t e
  split
  · refine .ite ht ?_
    split
    · split
      · extract_lets res
        clear_value res
        split
        · exact .ite (thenReset_three ht) ht
        · exact ht
      · exact ht
    · exact ht
  · exact ht

end

/-! ## Every step -/

/-- A command whose frame leaves the power state out keeps the lists. -/
theorem three_untouched {c : Instr} {s : State} (hc : (touches c).contains .power = false) (h : ThreeLists s) : ThreeNext (exec c s) := by
  intro t e
  have hpower : t.power = s.power := (commandsTouchOnlyTheirParts c s t e).2 .power (by simpa using hc)
  exact .of_power h hpower

/-- Every command keeps the lists: the resets and the commands that end a Stroke or take a part out, the writes of the dictionary, its services, and those that leave the power state alone. -/
theorem exec_three (c : Instr) {s : State} (h : ThreeLists s) : ThreeNext (exec c s) := by
  cases c with
  | checkVerdict _ => exact execCheckVerdict_three h
  | laneSubstitution n ok =>
    have hexec : exec (.laneSubstitution n ok) s = execLaneSubstitution n ok s := rfl
    rw [hexec]
    exact execLaneSubstitution_three h
  | attemptStart _ => exact execAttemptStart_three h
  | coxRetire _ _ => exact execCoxRetire_three h
  | trowelRetire _ => exact execTrowelRetire_three h
  | palletBankSubstitution _ _ => exact execPalletBankSubstitution_three h
  | courseLaneSelfTest _ _ _ => exact execCourseLaneSelfTest_three h
  | trowelCoxLaneTest _ _ => exact execTrowelCoxLaneTest_three h
  | lockstepMismatch _ _ _ => exact execLockstepMismatch_three h
  | vfFlr _ => exact execVfFlr_three h
  | pf0Flr => exact execPf0Flr_three h
  | hotReset => exact execHotReset_three h
  | linkTraining _ _ _ _ => exact execLinkTraining_three h
  | entryAccept _ _ => exact execEntryAccept_three h
  | retirement _ _ => exact execRetirement_three h
  | laserSwitch _ _ => exact execLaserSwitch_three h
  | packetReceive _ _ => exact execPacketReceive_three h
  | codewordReceive _ _ _ => exact execCodewordReceive_three h
  | watchdogExpiry => exact execWatchdogExpiry_three h
  | clockStep _ _ => exact execClockStep_three h
  | powerSample _ _ => exact execPowerSample_three h
  | underVoltageTrip _ => exact execUnderVoltageTrip_three h
  | overVoltageTrip _ => exact execOverVoltageTrip_three h
  | thermalSample _ _ => exact execThermalSample_three h
  | referenceLoss _ => exact execReferenceLoss_three h
  | partReset _ _ => exact execPartReset_three h
  | idleEntry => exact execIdleEntry_three h
  | coldStart _ => exact execColdStart_three h
  | warmReset _ => exact execWarmReset_three h
  | applyPoint _ => exact execApplyPoint_three h
  | regionZeroFill _ => exact execRegionZeroFill_three h
  | request _ _ _ _ => exact execRequest_three h
  | dict _ _ => exact execDict_three h
  | warmResetBringUp _ => exact .powered h (resetRow_three h)
  | stickyFlagsClear _ _ _ _ => exact .powered h (.ite (rowWrite_three h) (rowWrite_three h))
  | checkEnable _ _ _ => exact .powered h (rowWrite_three h)
  | firstOffenderClear _ _ _ => exact .powered h (rowWrite_three h)
  | hostRegionWrite _ _ _ => exact .powered h (rowWrite_three h)
  | collectiveRegionWrite _ _ _ => exact execCollectiveRegionWrite_three h
  | sendonHandleWrite _ _ _ => exact execSendonHandleWrite_three h
  | retireRequest _ _ _ => exact .powered h (rowWrite_three h)
  | marginingStack _ _ => exact .powered h (rowWrite_three h)
  | marginingStart _ _ => exact .powered h (rowWrite_three h)
  | crewRun _ _ => exact .powered h (rowWrite_three h)
  | crewTest _ _ => exact .powered h (rowWrite_three h)
  | crewDissolve _ _ => exact .powered h (rowWrite_three h)
  | clearDirty _ _ => exact execClearDirty_three h
  | layerStateLoad _ _ _ => exact .powered h (rowWrite_three h)
  | forceAbort _ _ => exact .powered h (rowWrite_three h)
  | cancelPending _ _ => exact .powered h (rowWrite_three h)
  | clearRepairMap _ _ => exact .powered h (rowWrite_three h)
  | prepareForRemoval _ _ => exact .powered h (rowWrite_three h)
  | advanceRollbackCounter _ _ => exact .powered h (rowWrite_three h)
  | burnOwnerKeyHash _ _ => exact .powered h (rowWrite_three h)
  | attestationNonce _ _ => exact .powered h (rowWrite_three h)
  | groupConfigWrite _ _ _ => exact .powered h (rowWrite_three h)
  | registerWrite _ _ _ _ => exact .powered h (rowWrite_three h)
  | read _ _ => exact .powered h (ask_three h)
  | write _ _ => exact .powered h (ask_three h)
  | readSeg _ _ => exact .powered h (ask_three h)
  | writeSeg _ _ => exact .powered h (ask_three h)
  | transferStatus _ _ => exact .powered h (ask_three h)
  | openSet _ _ => exact .powered h (ask_three h)
  | stage _ _ => exact .powered h (ask_three h)
  | check _ _ => exact .powered h (ask_three h)
  | commit _ _ => exact .powered h (ask_three h)
  | abort _ _ => exact .powered h (ask_three h)
  | renew _ _ => exact .powered h (ask_three h)
  | _ => exact three_untouched rfl h

theorem step_three {s : State} (h : ThreeLists s) : ThreeNext (step s) := by
  unfold step
  split
  · exact exec_three _ (.of_power h rfl)
  · intro t e
    obtain rfl := Host.Outcome.next.inj e
    exact .of tick_frames rfl h

/-- Settles O57: the lists of reset have three entries each, and every step keeps them. -/
theorem powerListsKeepTheirLength : Obligations.PowerListsKeepTheirLength := by
  unfold Obligations.PowerListsKeepTheirLength
  exact ⟨⟨rfl, rfl⟩, fun _ t h e => step_three h t e⟩

end Sys2Proof.Machine
end
